-- ==== Sys2Proof/Word.lean ====
section
/-! DEFINITION. Word types and the identifiers of the module's resources (R10).
A resource number is a bounded index, so an operand cannot name a resource that does not exist. -/

namespace Sys2Proof

abbrev Byte := BitVec 8
abbrev Half := BitVec 16
abbrev Word := BitVec 32
abbrev DWord := BitVec 64
/-- A byte string, in address order (R6, R366). -/
abbrev Bytes := List Byte

/-- Tenants T0–T3; T0 is the integrator tenant (R10, R190). -/
abbrev Tenant := Fin 4
/-- Physical tiles 0–16 (R10). -/
abbrev TileId := Fin 17
/-- Sequencers SQ0–SQ4 (R10). -/
abbrev SeqId := Fin 5
/-- Field channels FC000–FC511 (R10). -/
abbrev FcId := Fin 512
/-- Dike groups DG00–DG31 (R10). -/
abbrev GroupId := Fin 32
/-- Camera connections CXP0–CXP7 (R10). -/
abbrev CxpId := Fin 8
/-- EtherCAT slave controllers ESC0, ESC1, or CAN controllers CAN0, CAN1 (R10). -/
abbrev CtrlId := Fin 2
/-- Host channels 0 ESC0, 1 ESC1, 2 CAN0, 3 CAN1 (R192 offset 0x00A). -/
abbrev HostCh := Fin 4
/-- Network interfaces 0–47 (R249). -/
abbrev NiId := Fin 48
/-- Routers N(x,y) at 6y + x (R276). -/
abbrev RouterId := Fin 24
/-- Fabric column regions 0–7 (R297). -/
abbrev RegionId := Fin 8
/-- A session: 0–3 is the host-channel session of T0–T3, 4 is T0's maintenance-port session (R373, R512). -/
abbrev SesId := Fin 5

/-- The tenant of a session: the maintenance port carries one session with T0 rights (R373). -/
def sesTenant (k : SesId) : Tenant := if h : k.val < 4 then ⟨k.val, h⟩ else 0

end Sys2Proof
end

