-- ==== Sys2Proof/Syntax.lean ====
section
/-! DEFINITION. The commands: one constructor of `Instr` for each row of the table of operations and events.
An AIS or microword command carries the fields of its instruction word; a host command carries the session, the object's
instance and the value written; an event carries what the outside world decides in it. -/

namespace Sys2Proof

/-- Format A fields of an AIS instruction word, without OPC and FN, which the command fixes (R77). -/
structure FmtA where
  modf : BitVec 4
  wm1 : BitVec 6
  di : Bool
  ai : Bool
  bi : Bool
  bs : Bool
  db : BitVec 12
  ab : BitVec 12
  bb : BitVec 12
  res : BitVec 3
  deriving DecidableEq, Repr

/-- Format S fields (R77). -/
structure FmtS where
  sd : BitVec 4
  sa : BitVec 4
  sb : BitVec 4
  im : Bool
  res : BitVec 8
  imm : Word
  deriving DecidableEq, Repr

/-- Format J fields (R77). -/
structure FmtJ where
  ai : Bool
  ab : BitVec 12
  sa : BitVec 4
  sb : BitVec 4
  res : BitVec 8
  tgt : BitVec 24
  deriving DecidableEq, Repr

/-- What a NEWS has beside its direction and LS: its reserved bits, and the groups of culvert links, by receiving tile, whose parity
fails (R47, R161). -/
structure NewsW where
  res : BitVec 23
  parity : List (TileId × Fin 8)
  deriving DecidableEq, Repr

/-- PLANE fields but CM, which the command fixes (R159). -/
structure PlaneW where
  tt : BitVec 4
  gf : Bool
  dst : BitVec 3
  da : BitVec 3
  sa : BitVec 4
  sb : BitVec 4
  id : Bool
  ia : Bool
  ib : Bool
  res : BitVec 2
  deriving DecidableEq, Repr

/-- ADDR fields but MODE (R162). -/
structure AddrW where
  md : BitVec 3
  src : BitVec 4
  res : BitVec 3
  imm : BitVec 13
  deriving DecidableEq, Repr

/-- SCAL fields but FN (R164). -/
structure ScalW where
  sd : BitVec 4
  sa : BitVec 4
  sb : BitVec 4
  imm : BitVec 10
  deriving DecidableEq, Repr

/-- WAIT fields (R163). -/
structure WaitW where
  cond : BitVec 3
  nt : Bool
  res : BitVec 10
  imm : BitVec 12
  deriving DecidableEq, Repr

/-- BR fields; CALL and RET are commands of their own, so COND is read by MICRO_BR only (R165). -/
structure BrW where
  cond : BitVec 3
  bit : BitVec 5
  scan : BitVec 2
  res : BitVec 2
  tgt : BitVec 14
  deriving DecidableEq, Repr

/-- LOOP fields (R166). -/
structure LoopW where
  lco : BitVec 2
  lci : BitVec 2
  blen : BitVec 3
  ilen : BitVec 3
  cp : BitVec 2
  rs : Bool
  res : BitVec 13
  deriving DecidableEq, Repr

/-- GOR fields (R167). -/
structure GorW where
  tag : BitVec 5
  tv : Bool
  cg : Bool
  res : BitVec 19
  deriving DecidableEq, Repr

/-- BCAST fields (R168). -/
structure BcastW where
  sreg : BitVec 4
  bit : BitVec 6
  sx : Bool
  res : BitVec 15
  deriving DecidableEq, Repr

/-- TRAPCHK fields (R169). -/
structure TrapW where
  mode : BitVec 2
  cause : BitVec 5
  bit : BitVec 5
  detail : BitVec 2
  res : BitVec 12
  deriving DecidableEq, Repr

/-- RESCHK fields but REL (R170). -/
structure ReschkW where
  k2 : Bool
  fl : BitVec 2
  res : BitVec 21
  deriving DecidableEq, Repr

/-- What the error OR names when it delivers an error (R39, R181, R140). -/
inductive McSource where
  | tile (p : TileId)
  | sequencer (q : SeqId)
  | context (k : Fin 3)
  deriving DecidableEq, Repr

/-- A NoC packet: the header fields of R252, with its reserved bits, and the data bytes of its data flits, which
begin with the byte at ADDR (R256). -/
structure Pkt where
  hver : BitVec 4
  vc : BitVec 2
  ty : BitVec 4
  len : BitVec 6
  dx : BitVec 3
  dy : BitVec 2
  dp : Bool
  sx : BitVec 3
  sy : BitVec 2
  sp : Bool
  ten : Tenant
  dev : Bool
  dor : Bool
  tid : BitVec 12
  sn : BitVec 8
  res75 : Bool
  nbytes : BitVec 11
  status : Half
  res47 : Half
  addr : Word
  resHi : BitVec 128
  data : Bytes
  deriving DecidableEq, Repr

/-- What meets a READ in its memory cycle: a transient parity failure that the repeated read finds gone (R235), and a collision of the
two XM ports in the cycle before (R233). -/
structure ReadCycle where
  glitch : Bool
  nextCycle : Bool
  deriving DecidableEq, Repr

/-- A port-Y write of the XM word at a byte address in the cycle of a port-X write of the same word (R232). -/
structure PortYWrite where
  addr : Word
  enables : Byte
  data : DWord
  deriving DecidableEq, Repr

/-- The reasons of SLUICE_CLOSE and NACK_FENCED (R254, R270). -/
inductive FenceReason where
  | dark | draining | off
  deriving DecidableEq, Repr

/-- The four mesh directions (R248). -/
inductive Dir where
  | north | east | south | west
  deriving DecidableEq, Repr

/-- What a router's notice says (R272). -/
inductive Notice where
  | quiesce | fence | clear
  deriving DecidableEq, Repr

/-- The image header of a stream (R282, R283): size and pixel format code, `none` for a format that R282 does not list. -/
structure ImageHeader where
  width : Nat
  height : Nat
  format : Option (BitVec 3)
  deriving DecidableEq, Repr

/-- An SDO or USDO request as a mailbox or CAN message carries it (R386, R398, R405). -/
inductive SdoReq where
  | upload (index : Half) (sub : Byte)
  | download (index : Half) (sub : Byte) (data : Bytes)
  | completeAccess (index : Half) (sub : Byte)
  deriving DecidableEq, Repr

/-- A mailbox message of an ESC: CoE, or a protocol the ESC does not support (R398). -/
inductive MailboxMsg where
  | coe (r : SdoReq)
  | otherProtocol
  deriving DecidableEq, Repr

/-- An SDO information request (R398): the list of indexes, the description of one object, or of one entry. -/
inductive InfoReq where
  | odList
  | object (index : Half)
  | entry (index : Half) (sub : Byte)
  deriving DecidableEq, Repr

/-- EtherCAT states (R398), with BOOT, which is refused. -/
inductive AlState where
  | init | boot | preOp | safeOp | op
  deriving DecidableEq, Repr

/-- What the master has configured when it requests a state: the lengths and start addresses of SM2 and SM3 and the DC
settings (R399, R400). -/
structure EscConfig where
  sm2Start : Half
  sm2Len : Nat
  sm3Start : Half
  sm3Len : Nat
  sync0Cycle : Nat
  sync1Shift : Nat
  deriving DecidableEq, Repr

/-- What wakes the module on a host channel (R414). -/
inductive WakeFrame where
  | alControl
  | nmt (node : BitVec 7)
  | usdo (node : BitVec 7)
  | other
  deriving DecidableEq, Repr

/-- What the checks of a start find (R444, R448): the parts of it that the device's own state does not decide. -/
structure StartReport where
  /-- `false`: step 9 does not end (the start is cut off by the time limit of R446). -/
  completes : Bool
  refA : Bool
  refB : Bool
  imagesVerified : Bool
  pairA : Bool
  pairB : Bool
  badBanks : List (Fin 8)
  badHalves : List (Fin 2)
  badTiles : List TileId
  badSequencers : List SeqId
  badRouters : List RouterId
  wcsDigest : Bool
  slotA : Bool
  slotB : Bool
  badGroups : List GroupId
  keyTest : Bool
  badControllers : List HostCh
  /-- Cold start only: the controllers whose ESCn_MODE land is high at step 9 (R500). -/
  escModeHigh : List CtrlId
  maintenancePort : Bool
  badRecords : List Tenant
  /-- Warm start only: retention held, the flash counter agrees, the retained image agrees (R448 steps 1–3). -/
  retention : Bool
  flashCounter : Bool
  retainedImage : Bool
  /-- Warm start only: XM halves whose header or journal head fails (step 4), the fabric CRC agrees (step 6). -/
  badHeaders : List (Fin 2)
  fabricCrc : Bool
  deriving DecidableEq, Repr

/-- One command for each row of the table. -/
inductive Instr where
  -- Array instructions (R69–R108): tenant and instruction word
  | logic (t : Tenant) (f : FmtA)
  | kset (t : Tenant) (f : FmtA)
  | kand (t : Tenant) (f : FmtA)
  | kor (t : Tenant) (f : FmtA)
  | kall (t : Tenant) (f : FmtA)
  | knot (t : Tenant) (f : FmtA)
  | fset (t : Tenant) (f : FmtA)
  | add (t : Tenant) (f : FmtA)
  | addc (t : Tenant) (f : FmtA)
  | sub (t : Tenant) (f : FmtA)
  | subb (t : Tenant) (f : FmtA)
  | mul (t : Tenant) (f : FmtA)
  | mulw (t : Tenant) (f : FmtA)
  | div (t : Tenant) (f : FmtA)
  | mod (t : Tenant) (f : FmtA)
  | neg (t : Tenant) (f : FmtA)
  | min (t : Tenant) (f : FmtA)
  | max (t : Tenant) (f : FmtA)
  | cmpeq (t : Tenant) (f : FmtA)
  | cmpne (t : Tenant) (f : FmtA)
  | cmplt (t : Tenant) (f : FmtA)
  | cmple (t : Tenant) (f : FmtA)
  | fadd (t : Tenant) (f : FmtA)
  | fsub (t : Tenant) (f : FmtA)
  | fmul (t : Tenant) (f : FmtA)
  | fdiv (t : Tenant) (f : FmtA)
  | fma (t : Tenant) (f : FmtA)
  | fsqrt (t : Tenant) (f : FmtA)
  | fmin (t : Tenant) (f : FmtA)
  | fmax (t : Tenant) (f : FmtA)
  | fcmpeq (t : Tenant) (f : FmtA)
  | fcmplt (t : Tenant) (f : FmtA)
  | fcmple (t : Tenant) (f : FmtA)
  | fcvt (t : Tenant) (f : FmtA)
  | fcvti (t : Tenant) (f : FmtA)
  | fcvtf (t : Tenant) (f : FmtA)
  | fneg (t : Tenant) (f : FmtA)
  | fabs (t : Tenant) (f : FmtA)
  | shl (t : Tenant) (f : FmtA)
  | shrl (t : Tenant) (f : FmtA)
  | shra (t : Tenant) (f : FmtA)
  | rol (t : Tenant) (f : FmtA)
  | xn (t : Tenant) (f : FmtA)
  | xe (t : Tenant) (f : FmtA)
  | xs (t : Tenant) (f : FmtA)
  | xw (t : Tenant) (f : FmtA)
  | rany (t : Tenant) (f : FmtA)
  | rmax (t : Tenant) (f : FmtA)
  | rmin (t : Tenant) (f : FmtA)
  | rsum (t : Tenant) (f : FmtA)
  | pld (t : Tenant) (f : FmtA)
  | padd (t : Tenant) (f : FmtA)
  | pst (t : Tenant) (f : FmtA)
  | sadd (t : Tenant) (f : FmtS)
  | ssub (t : Tenant) (f : FmtS)
  | sand (t : Tenant) (f : FmtS)
  | sor (t : Tenant) (f : FmtS)
  | sxor (t : Tenant) (f : FmtS)
  | sshl (t : Tenant) (f : FmtS)
  | sshr (t : Tenant) (f : FmtS)
  | ssra (t : Tenant) (f : FmtS)
  | sli (t : Tenant) (f : FmtS)
  | slda (t : Tenant) (f : FmtS)
  | sgett (t : Tenant) (f : FmtS)
  | br (t : Tenant) (f : FmtJ)
  | bany (t : Tenant) (f : FmtJ)
  | bnone (t : Tenant) (f : FmtJ)
  | beq (t : Tenant) (f : FmtJ)
  | bne (t : Tenant) (f : FmtJ)
  | blt (t : Tenant) (f : FmtJ)
  | bltu (t : Tenant) (f : FmtJ)
  | dbnz (t : Tenant) (f : FmtJ)
  | call (t : Tenant) (f : FmtJ)
  | ret (t : Tenant) (f : FmtJ)
  | ckpt (t : Tenant) (f : FmtA)
  | fbar (t : Tenant) (f : FmtA)
  | waitev (t : Tenant) (f : FmtA)
  | trap (t : Tenant) (f : FmtA)
  | gang (t : Tenant) (f : FmtA)
  | brclm (t : Tenant) (f : FmtA)
  | fclr (t : Tenant) (f : FmtA)
  | ften (t : Tenant) (f : FmtA)
  | rtt (t : Tenant) (f : FmtA)
  | endOrder (t : Tenant) (f : FmtA)
  | inarm (t : Tenant) (f : FmtA)
  | inwait (t : Tenant) (f : FmtA)
  | outp (t : Tenant) (f : FmtA)
  | outs (t : Tenant) (f : FmtA)
  | outf (t : Tenant) (f : FmtA)
  -- Microwords (R157–R171): sequencer and microword fields
  | planeLog (q : SeqId) (w : PlaneW)
  | planeAdd (q : SeqId) (w : PlaneW)
  | news (q : SeqId) (dir : BitVec 2) (ls : Bool) (w : NewsW)
  | addrImm (q : SeqId) (w : AddrW)
  | addrAdd (q : SeqId) (w : AddrW)
  | addrScalar (q : SeqId) (w : AddrW)
  | addrCopy (q : SeqId) (w : AddrW)
  | addrWrap (q : SeqId) (w : AddrW)
  | addrSlide (q : SeqId) (w : AddrW)
  | addrPlain (q : SeqId) (w : AddrW)
  | scalAdd (q : SeqId) (w : ScalW)
  | scalAddi (q : SeqId) (w : ScalW)
  | scalSub (q : SeqId) (w : ScalW)
  | scalAnd (q : SeqId) (w : ScalW)
  | scalOr (q : SeqId) (w : ScalW)
  | scalXor (q : SeqId) (w : ScalW)
  | scalShl (q : SeqId) (w : ScalW)
  | scalShr (q : SeqId) (w : ScalW)
  | scalLi (q : SeqId) (w : ScalW)
  | scalShi (q : SeqId) (w : ScalW)
  | scalField (q : SeqId) (w : ScalW)
  | scalHsb (q : SeqId) (w : ScalW)
  | scalGet (q : SeqId) (w : ScalW)
  | scalMem (q : SeqId) (w : ScalW)
  | scalSetlc (q : SeqId) (w : ScalW)
  | scalScan (q : SeqId) (w : ScalW)
  | wait (q : SeqId) (w : WaitW)
  | waitConditionMet (q : SeqId)
  | microTimeout (q : SeqId)
  | microBr (q : SeqId) (w : BrW)
  | microCall (q : SeqId) (w : BrW)
  | microRet (q : SeqId) (w : BrW)
  | loop (q : SeqId) (w : LoopW)
  | gor (q : SeqId) (w : GorW)
  | gorResultDelivery (q : SeqId) (device : Bool) (failed : Option (Option TileId))
  | bcast (q : SeqId) (w : BcastW)
  | trapchkRaise (q : SeqId) (w : TrapW)
  | trapchkBoundary (q : SeqId) (w : TrapW)
  | reschkSum (q : SeqId) (w : ReschkW)
  | reschkProd (q : SeqId) (w : ReschkW)
  | reschkClear (q : SeqId) (w : ReschkW)
  | flagOrResult (t : Tenant)
  | machineCheck (src : McSource)
  | wcsScan (q : SeqId)
  | patchBundle (ses : SesId) (data : Bytes)
  | migration (src dst : SeqId)
  -- Array and polder events
  | tileRetestMarchComplete (p : TileId) (passed : Bool)
  | sparePeriodicMarch (p : TileId) (passed : Bool)
  | polderRampDwellEnd (p : TileId)
  | idleHoldExpiry (t : Tenant)
  -- Work orders
  | submit (ses : SesId) (t : Tenant) (data : Bytes)
  | orderStart (t : Tenant)
  | unprotected (t : Tenant)
  | recordExpiry (t : Tenant) (seq : Word)
  | retireTo (ses : SesId) (t : Tenant) (v : Word)
  | abort (ses : SesId) (t : Tenant) (v : Byte)
  | release (ses : SesId) (t : Tenant) (v : Byte)
  | ownership (ses : SesId) (t : Tenant) (data : Bytes)
  | ownershipApply (t : Tenant)
  -- Memory test
  | marchEnable (ses : SesId) (v : Byte)
  | marchPassStart
  | marchWindowRetry
  | dtestTarget (ses : SesId) (v : Half)
  | destructiveMarchComplete (passed : Bool)
  -- On-chip network
  | read (p : Pkt) (w : ReadCycle)
  | write (p : Pkt) (portY : Option PortYWrite)
  | readResp (p : Pkt)
  | writeResp (p : Pkt)
  | nackFenced (p : Pkt)
  | errorResp (p : Pkt)
  | fenceClear (cleared replacement : Byte) (p : Pkt)
  | sluiceClose (p : Pkt) (r : FenceReason)
  | routerControlNotice (r : RouterId) (p : Pkt) (k : Notice)
  | flitParityReplay (r : RouterId) (again : Bool)
  | requestTimeout (n : NiId) (tid : BitVec 12)
  | niDrained (n : NiId)
  | sluiceFaultFence (n : NiId)
  | routerQuiesceComplete (r : RouterId)
  | routerQuiesceTimeout (r : RouterId)
  | routerStallDetect (r : RouterId)
  -- Camera ingest
  | grouping (ses : SesId) (v : Byte)
  | cxpDiscoveryLock (c : CxpId) (speed : Fin 7)
  | cxpDiscoveryTimeout (c : CxpId)
  | cxpLossOfLock (c : CxpId)
  | cxpLostHoldEnd (c : CxpId)
  | frameStart (c : CxpId) (h : ImageHeader)
  | streamPacket (c : CxpId) (line : Nat) (pixels : List (BitVec 24)) (crcOk supported retained : Bool)
  | bindingLanded (t : Tenant) (seq : Word) (binding : Fin 8)
  | camRegWrite (ses : SesId) (c : CxpId) (data : Bytes)
  | camRegRead (ses : SesId) (c : CxpId)
  | camRegAck (c : CxpId) (reply : Bytes)
  -- Fabric cells: row and column
  | cellPass (r : Fin 64) (c : Fin 32)
  | cellAdd (r : Fin 64) (c : Fin 32)
  | cellSub (r : Fin 64) (c : Fin 32)
  | cellAnd (r : Fin 64) (c : Fin 32)
  | cellOr (r : Fin 64) (c : Fin 32)
  | cellXor (r : Fin 64) (c : Fin 32)
  | cellNot (r : Fin 64) (c : Fin 32)
  | cellShl (r : Fin 64) (c : Fin 32)
  | cellShr (r : Fin 64) (c : Fin 32)
  | cellSra (r : Fin 64) (c : Fin 32)
  | cellMux (r : Fin 64) (c : Fin 32)
  | cellCnt (r : Fin 64) (c : Fin 32)
  | cellMinu (r : Fin 64) (c : Fin 32)
  | cellMaxu (r : Fin 64) (c : Fin 32)
  | cellTime (r : Fin 64) (c : Fin 32)
  | serialRxByte (port : Fin 2) (b : Byte)
  | fullLoad (ses : SesId) (data : Bytes)
  | partialLoad (ses : SesId) (data : Bytes)
  | fabricLoadComplete
  | capture (ses : SesId) (v : Byte)
  | probeSel (ses : SesId) (land : Fin 4) (v : Byte)
  | fabricClockRampStep
  -- Field channels and dike groups
  | fieldInputChange (n : FcId) (level : Bool)
  | mode (ses : SesId) (n : FcId) (v : Byte)
  | safeState (ses : SesId) (n : FcId) (v : Byte)
  | filter (ses : SesId) (n : FcId) (v : Byte)
  | doutImage (ses : SesId) (j : Fin 64) (v : Byte)
  | encoderEdge (lead : Fin 128) (a b : Bool)
  | adcSlot (g : GroupId) (microvolts : Int)
  | pwmPeriodStart (n : FcId)
  | shortGnd (n : FcId)
  | shortSupply (n : FcId)
  | overtemp (n : FcId)
  | openWire (n : FcId)
  | ainOpenWirePulse (n : FcId) (skipped isOpen : Bool)
  | openLoadOn (n : FcId)
  | openLoadOff (n : FcId) (isOpen : Bool)
  | reversed (n : FcId)
  | diagRetry (n : FcId)
  | diagnosisEnd (n : FcId) (code : Byte)
  | diagClear (ses : SesId) (n : FcId) (v : Byte)
  | spsOverload (g : GroupId)
  | spsRetry (g : GroupId)
  | spsReverse (g : GroupId)
  | spsReverseEnd (g : GroupId)
  | spsEnable (ses : SesId) (g : GroupId) (v : Byte)
  | groupCurrentAverage (g : GroupId) (milliamps : Half)
  | moduleBudgetCheck
  | groupMonitorTrip (g : GroupId) (which : Fin 3)
  | groupOvercurrentEscalation (g : GroupId)
  | groupClear (ses : SesId) (g : GroupId) (v : Byte)
  | crossingSilence (die : Fin 2) (resumed : Bool)
  -- Object dictionary
  | registerWrite (ses : SesId) (index : Half) (sub : Byte) (data : Bytes)
  | domainSegment (ses : SesId) (index : Half) (sub : Byte) (size : Option Nat) (data : Bytes) (last : Bool)
  | segmentPauseTimeout (ses : SesId)
  | hostSdoAbort (ses : SesId)
  | requested (ses : SesId) (v : Half)
  | errorCount (ses : SesId) (v : Byte)
  | mapEntry (ses : SesId) (tx : Bool) (pdo : Fin 4) (i : Fin 32) (v : Word)
  | mapCount (ses : SesId) (tx : Bool) (pdo : Fin 4) (v : Byte)
  | pdoAssign (ses : SesId) (tx : Bool) (i : Fin 4) (v : Half)
  | emergencySend (ses : SesId)
  | logCursor (ses : SesId) (v : Word)
  | logEntry (ses : SesId)
  -- EtherCAT and CANopen FD
  | escAlControl (e : CtrlId) (req : AlState) (cfg : EscConfig)
  | mailboxRequest (e : CtrlId) (channel : BitVec 6) (m : MailboxMsg)
  | sdoInformation (ses : SesId) (r : InfoReq)
  | syncType (ses : SesId) (v : Half)
  | sm2Event (e : CtrlId) (data : Bytes)
  | sync0 (e : CtrlId)
  | sync1 (e : CtrlId)
  | freeRunLatch (e : CtrlId)
  | pdWatchdogExpiry (e : CtrlId)
  | foeWrite (ses : SesId) (name : String) (password : Word) (data : Bytes)
  | foeRead (ses : SesId) (name : String)
  | nmtStart (c : CtrlId) (node : BitVec 7)
  | nmtEnterPreOperational (c : CtrlId) (node : BitVec 7)
  | nmtStop (c : CtrlId) (node : BitVec 7)
  | nmtResetCommunication (c : CtrlId) (node : BitVec 7)
  | nmtResetNode (c : CtrlId) (node : BitVec 7)
  | canSync (c : CtrlId)
  | rpdo (c : CtrlId) (cobId : BitVec 11) (data : Bytes)
  | tpdoTransmit (t : Tenant) (k : Fin 4)
  | heartbeat (t : Tenant)
  | usdoRequest (c : CtrlId) (node : BitVec 7) (r : SdoReq)
  | lssConfigureNodeId (c : CtrlId) (nb : Byte)
  | lssConfigureBitTiming (c : CtrlId) (selector index : Byte)
  | lssStoreConfiguration (c : CtrlId)
  | lssActivateBitTiming (c : CtrlId)
  | controllerFault (h : HostCh)
  | networkWake (h : HostCh) (f : WakeFrame)
  | maintenanceFrame (data : Bytes)
  | maintenanceSilence
  -- Profiles and clocks
  | activeCeiling (ses : SesId) (v : Byte)
  | idleProfile (ses : SesId) (v : Byte)
  | deepSleep (ses : SesId) (v : Byte)
  | deepSleepEntry
  | rampDwell (ses : SesId) (v : Byte)
  | idleHold (ses : SesId) (t : Tenant) (v : Word)
  | gateRun (ses : SesId) (v : Word)
  | gateSleep (ses : SesId) (v : Word)
  | gateDeep (ses : SesId) (v : Word)
  | clockGateIdle (block : Fin 25)
  | refSelect (ses : SesId) (v : Byte)
  | refMissingEdge (ref : Fin 2)
  | pllLossOfLock (pll : Fin 4)
  | refInvalid (ref : Fin 2)
  | pllRelock
  | holdoverRefValid (ref : Fin 2)
  -- Supplies
  | vcoreWarning
  | vcoreWarningHoldExpiry
  | vcoreRecovery (r : StartReport)
  | vcoreResetLevel
  | powerFailWarning (vmem : Bool)
  | powerFailWarningEnd
  | vmemAction
  | vmemRecovery (r : StartReport)
  | vioAction (rail : Fin 2)
  | vserAction
  | fieldFeedLost (f : Fin 2)
  | fieldFeedRecovery (f : Fin 2)
  -- Starts
  | powerOn (r : StartReport)
  | resetWarm (ses : SesId) (r : StartReport)
  | resetCold (ses : SesId) (r : StartReport)
  | watchdogExpiry (r : StartReport)
  | rstNLow
  | rstNRise (r : StartReport)
  | coldStartTimeout (step : Fin 10)
  | coldStartRetry (r : StartReport)
  -- Identity and firmware
  | nonce (ses : SesId) (data : Bytes)
  | attestationSignStart
  | attestationSignComplete (found : Bool)
  | keyRecord (ses : SesId) (data : Bytes)
  | firmware (ses : SesId) (data : Bytes)
  | firmwareRoleSwap (standbyLockstep flashOk : Bool)
  | housekeepingPairFault (pair : Fin 2)
  -- Tide mark and test access
  | tideInEdge
  | tideCmd (ses : SesId) (v : Byte)
  | snapshotLatchEnd
  | tideOutEnd
  | tapBypass
  | tapIdcode
  | tapSamplePreload (cells : Bytes)
  | tapExtest
  | tapExtestPulse
  | tapExtestTrain
  | tapClamp
  | tapHighz
  -- Further events
  | polderMonitorTrip (p : TileId)
  | vioRecovery (rail : Fin 2) (r : StartReport)
  | refValid (ref : Fin 2)
  | trapContextScan (k : Fin 3)
  | cxpDiscoveryRetry (c : CxpId)
  | camRegTimeout (c : CxpId)
  | waitevLimitExpired (q : SeqId)
  | modeChangeComplete (n : FcId)
  | marchPassComplete
  deriving DecidableEq, Repr

end Sys2Proof
end

