-- ==== Sys2Proof/Config.lean ====
section
/-! DEFINITION. What a module fixes at manufacture, and the free values: constants without a body, so that no proof can
rest on what they are (log 6, 7, 8). -/

namespace Sys2Proof.Config

/-- The free value numbered `n` at location `k`: the contents the manual calls undefined (R3, R36, R76, R97, R104). -/
opaque freeBit : Nat → Nat → Bool
/-- A free 64-bit value, as `freeBit`. -/
opaque freeWord : Nat → Nat → BitVec 64
/-- Vendor microword at a WCS address of the image shipped with stepping B0 (R153, R188). -/
opaque vendorMicroword : Nat → BitVec 32
/-- Vendor boot image and housekeeping firmware of stepping B0 (R315, R464). -/
opaque shippedImage : Nat → List (BitVec 8)
/-- SHAKE256 with 64 bytes of output (R465); the standard R11 names it, the manual does not define it. -/
opaque shake256 : List (BitVec 8) → List (BitVec 8)
/-- Pure ML-DSA-65 verification (R461): public key, context string, signed bytes, signature. -/
opaque mlDsaVerify : List (BitVec 8) → String → List (BitVec 8) → List (BitVec 8) → Bool
/-- An ML-DSA-65 signature by the device key over the bytes given (R456, R466). -/
opaque deviceSign : List (BitVec 8) → List (BitVec 8)
/-- Svetyon firmware public key VK (R458). -/
opaque vendorKey : List (BitVec 8)
/-- Version (three bytes) and build number, less 1, that a housekeeping firmware carries: their place in it is not given (R378, R379). -/
opaque fwVersion : List (BitVec 8) → List (BitVec 8)
opaque fwBuild : List (BitVec 8) → Fin 65535
/-- SHAKE256 digest of an item of the measurement log, by kind, as a module is shipped (R465). -/
opaque shippedDigest : Nat → List (BitVec 8)
/-- DEVICE_CERT, CA_CERT and DEVICE_KEY_ID (R457, R473). -/
opaque deviceCert : List (BitVec 8)
opaque caCert : List (BitVec 8)
opaque deviceKeyId : List (BitVec 8)
/-- Serial number of the module, less 1: it is 0x0000_0001 to 0xFFFF_FFFE (R378). -/
opaque serial : Fin 0xFFFFFFFE
/-- Output current of a channel in mA at a device time (R338, VAL of output modes). -/
opaque outputCurrent : Nat → Nat → BitVec 16
/-- Die-region temperature of a group in each 1 ms of device time, in °C above −40: −40 to 200 (R363, TEMP). -/
opaque dieTemp : Nat → Nat → Fin 241
/-- Level of a supply in mV at a device time (R439, SUPPLY_MV). -/
opaque supplyMv : Nat → Nat → BitVec 16
/-- Level of the land ESCn_Pp_LINK, from the PHY of port p, at a device time (R500). -/
opaque escLink : Nat → Nat → Nat → Bool
/-- Whether a land's readback, or a receiver, shows a high level at a device time (only where no event reports it). -/
opaque landLevel : Nat → Nat → Bool
/-- Device time in ns at the end of a cold start, and the duration in µs of a start (R444, R454 START_TIME). -/
opaque startTimeUs : Nat → BitVec 32

end Sys2Proof.Config
end

