-- ==== Sys2Proof/Machine/State.lean ====
section
/-! DEFINITION. The state of the module as plain data, and `State.reset`, the machine after the first cold start of a
module as shipped (log 4). Each indexed family of registers is a sparse map whose unlisted entries hold the value named by
the family's `initial` constant. -/

namespace Sys2Proof.Machine

/-- The model has no fault: every command of the table has an effect, or none, by the spec's own rules. -/
inductive Fault where
  deriving DecidableEq, Repr

/-- A command whose meaning is not written; raised by `exec`'s arm of that command only. Safe: the machine stops. -/
inductive Refusal where
  | notModelled (mnemonic : String)
  deriving DecidableEq, Repr

/-! ### Array: processing elements and tiles (R28–R68) -/

/-- The registers of one PE (R31); `weight2` is the weight of the next residue step (R57) and `v` the signed overflow of
its last ADD plane (R170). -/
structure PE where
  c : Bool
  k : Bool
  x : Bool
  f : Bool
  p : BitVec 12
  ra : BitVec 2
  rb : BitVec 2
  rr : BitVec 2
  weight2 : Bool
  v : Bool
  parityErr : Bool
  residueErr : Bool
  deriving DecidableEq, Repr

/-- The values of the last column of R31. -/
def PE.clear : PE := ⟨false, true, false, false, 0, 0, 0, 0, false, false, false, false⟩

inductive TileService where
  | inService | spare | draining | retest | failed
  deriving DecidableEq, Repr

/-- Power state of a polder (R61, R62) with the divider ratio (R422): 0 is /16, 1 /12, 2 /8, 3 /6, 4 /4, 5 /3, 6 /2,
7 /1. `second` marks the second dwell at /2 of a wake to SUSTAINED (R423). -/
inductive Polder where
  | off
  | dark
  | up (ratio : Fin 8) (second fromOff : Bool)
  | down (ratio : Fin 8)
  | awake (ratio : Fin 8)
  deriving DecidableEq, Repr

/-- A physical tile: service (R65), power (R61), FAULTS (R68), berm flags (R40, R42), destructive passes in RETEST (R65),
whether a first error's recomputation window is open, and whether its last culvert or OR-tree sample failed parity (R64). -/
structure Tile where
  service : TileService
  polder : Polder
  faults : Byte
  bermValid : Bool
  reclaimed : Bool
  passes : Nat
  errorOpen : Bool
  linkErr : Bool
  deriving DecidableEq, Repr

def Tile.initial : Tile := ⟨.inService, .off, 0, false, false, 0, false, false⟩

/-! ### Sequencers (R151–R189) -/

inductive SeqService where
  | inService | spare | draining | retest | failed | loading | migrating
  deriving DecidableEq, Repr

/-- Gang width (R26, R52). -/
inductive Gang where
  | g1 | g4 | g16
  deriving DecidableEq, Repr

/-- A micro address register with its mode state (R151, R162): `mode` 0 plain, 1 WRAP, 2 SLIDE; `returned` marks a SLIDE
register that has returned once. -/
structure MicroAddr where
  ind : Bool
  addr : BitVec 12
  base : BitVec 12
  len : BitVec 7
  mode : BitVec 2
  returned : Bool
  deriving DecidableEq, Repr

def MicroAddr.initial : MicroAddr := ⟨false, 0, 0, 0, 0, false⟩

structure LoopCounter where
  val : BitVec 16
  reload : BitVec 16
  deriving DecidableEq, Repr

/-- A held LOOP (R166): first word of the body, its length, the inner length, the present word, the counters used, and
whether the inner loop of this pass is over. -/
structure Loop where
  start : BitVec 14
  blen : Nat
  ilen : Nat
  pos : Nat
  lco : Nat
  lci : Nat
  innerDone : Bool
  deriving DecidableEq, Repr

/-- What a WAITEV or INWAIT does when its wait ends (R100, R102). -/
structure AisWait where
  statusReg : BitVec 4
  limit : Word
  timer : Bool
  deriving DecidableEq, Repr

/-- Wait state WS (R151, R163). -/
structure Wait where
  cond : BitVec 3
  imm : BitVec 12
  nt : Bool
  acCount : BitVec 13
  usCount : Word
  edge0 : Bool
  edge1 : Bool
  ais : Option AisWait
  deriving DecidableEq, Repr

/-- A GOR result in flight (R48, R49). -/
structure GorFlight where
  tag : BitVec 5
  tv : Bool
  vec : BitVec 16
  device : Bool
  vecDone : Bool
  deriving DecidableEq, Repr

/-- The outstanding MEM access of a sequencer (R164); `done` when its response has arrived and no WAIT has taken it. -/
structure MemAccess where
  write : Bool
  dest : BitVec 4
  addr : Word
  data : Word
  tid : BitVec 12
  done : Bool
  deriving DecidableEq, Repr

/-- A WCS word whose stored parity is wrong (R180): `upset` by a passing error, which a rewrite mends, or `stuck`, so that a
rewritten word fails again. -/
inductive WordFault where
  | none | upset | stuck
  deriving DecidableEq, Repr

/-- A flag OR on its way to the sequencer (R135, R141); `trapLevel` when the instruction ran at trap level (R136). -/
structure FlagOr where
  flags : BitVec 5
  pc : BitVec 24
  trapLevel : Bool
  deriving DecidableEq, Repr

/-- A sequencer (R151, R189). `scan` holds the ac left and the result of a field scan in flight (R156). `wcs` lists the
microwords that differ from the shipped image, `wcsBad` the words whose stored parity is wrong. `midRoutine` marks a trap point
between the microwords of one instruction (R172), `wsBack` the WAIT that RTT restored and that issues again (R177). -/
structure Sequencer where
  service : SeqService
  image : Bool
  repairs : Byte
  bound : Option Tenant
  wcs : SMap Word
  wcsBad : SMap WordFault
  regError : Bool
  pc : BitVec 24
  il : DWord
  upc : BitVec 14
  rs : List (BitVec 14)
  s : SMap Word
  ma : SMap MicroAddr
  lc : SMap LoopCounter
  gv : Word
  tvr : BitVec 16
  sv : BitVec 16
  z : Bool
  n : Bool
  bl : BitVec 11
  gw : Gang
  tl : Bool
  ws : Option Wait
  wsBack : Option Wait
  midRoutine : Bool
  gors : List GorFlight
  scan : Option (Nat × BitVec 16)
  mem : Option MemAccess
  loop : Option Loop
  flagOrs : List FlagOr
  deriving DecidableEq, Repr

def Sequencer.initial : Sequencer :=
  { service := .spare, image := false, repairs := 0, bound := none, wcs := [], wcsBad := [], regError := false,
    pc := 0, il := 0, upc := 0, rs := [], s := [], ma := [], lc := [], gv := 0, tvr := 0, sv := 0, z := false, n := false,
    bl := 0, gw := .g1, tl := false, ws := none, wsBack := none, midRoutine := false, gors := [], scan := none, mem := none, loop := none, flagOrs := [] }

inductive CtxState where
  | free
  | held (t : Tenant)
  | retired
  deriving DecidableEq, Repr

/-- A trap context TC0–TC2 (R140). -/
structure TrapCtx where
  st : CtxState
  enables : BitVec 5
  trapMode : Bool
  pending : BitVec 5
  pendPc : BitVec 24
  deriving DecidableEq, Repr

def TrapCtx.initial : TrapCtx := ⟨.free, 0, false, 0, 0⟩

/-- A patch bundle being applied, or one whose update stopped (R185, R187): the resulting version, digest and words, the words
that sequencers still hold of an update that stopped before it, its counter, the sequencers that hold the patched image, and
the sequencer being loaded. -/
structure Patch where
  version : Word
  digest : Bytes
  words : SMap Word
  prev : SMap Word
  counter : Word
  loaded : List SeqId
  current : Option SeqId
  deriving DecidableEq, Repr

/-- Microcode objects and copies (R154, R188): `golden` and `flash` hold the image of the two golden copies and of flash (R315), as
the microwords that differ from the shipped image. -/
structure Microcode where
  mcver : Word
  digest : Bytes
  patchState : Byte
  golden : SMap Word
  flash : SMap Word
  patch : Option Patch
  deriving DecidableEq, Repr

/-! ### Tenants and work orders (R190–R220) -/

/-- A scratchpad extent (R192): bank, start and length in 64 KiB units; length 0 is unused. -/
structure Extent where
  bank : Nat
  start : Nat
  len : Nat
  deriving DecidableEq, Repr

/-- A shared-read entry (R192). -/
structure Shared where
  readers : BitVec 4
  extent : Bool
  index : Half
  deriving DecidableEq, Repr

/-- The contents of an ownership record (R192). -/
structure OwnRec where
  tenant : Tenant
  seq : SeqId
  counter : Word
  tiles : BitVec 16
  dual : Bool
  channel : HostCh
  cams : Byte
  resv : Byte
  weight : Byte
  regions : Byte
  lines : DWord
  channels : BitVec 512
  extents : List Extent
  roles : List Nat
  maxLive : Nat
  shared : List Shared
  raw : Bytes
  deriving DecidableEq, Repr

inductive InKind where
  | camera | adc | snapshot | region
  deriving DecidableEq, Repr

/-- Where an armed binding lands (R102, R287). -/
structure Arm where
  base : BitVec 12
  layout : Gang
  toSp : Bool
  deriving DecidableEq, Repr

/-- The configuration of a connection sampled at a claim (R287). -/
structure CamCfg where
  fmt : Byte
  window : DWord
  origin : Word
  landing : Word
  spOffset : Word
  deriving DecidableEq, Repr

/-- The binding fault of a pre-armed binding whose geometry does not fit (R288): to be raised, or raised. -/
inductive ClaimFault where
  | none | due | raised
  deriving DecidableEq, Repr

/-- The plane packets of a band that wait at ingest for a FENCE_CLEAR (R271, R286): the interface that has refused them, the column
of tiles, the logical tile and the band. -/
structure HeldBand where
  ni : NiId
  tx : Nat
  lt : Nat
  band : Nat
  deriving DecidableEq, Repr

/-- An input binding (R196) with its claim (R284, R348), arming, retained bytes (R201, both copies alike) and landing.
`samples` collects the samples of each masked channel, `bands` counts the bands whose plane packets have been sent (R289), `heldAt`
lists those of them that wait at ingest. -/
structure InBind where
  kind : InKind
  source : Byte
  mask : Half
  offset : Word
  len : Word
  claimed : Bool
  cam : Option CamCfg
  samples : SMap (List Half)
  data : Bytes
  complete : Bool
  arm : Option Arm
  inarmed : Bool
  fault : ClaimFault
  bands : Nat
  heldAt : List HeldBand
  landed : Bool
  copyA : Bool
  copyB : Bool
  deriving DecidableEq, Repr

inductive OutKind where
  | region | xm | pdo | mailbox
  deriving DecidableEq, Repr

/-- An output binding (R196). -/
structure OutBind where
  kind : OutKind
  mailbox : Byte
  offset : Word
  len : Word
  deriving DecidableEq, Repr

/-- A staged write (R103): binding, byte offset in its region, bytes of half A and, in CHECKED-DUAL, of half B. -/
structure Staged where
  bind : Nat
  off : Nat
  data : Bytes
  dataB : Bytes
  deriving DecidableEq, Repr

/-- A checkpoint (R97, R147): PC, scalar registers, gang width, the C and K planes and the live planes of every tile of the
tenant by logical number, FSUM and the floating-point controls, how many staged writes stood before it, the input
bindings landed and armed then, and whether the berm was reclaimed. `regs` lists
the PEs whose (C, K) differ from (0, 1), `live` the live bits that are 1; `copyA`, `copyB` say which of CKPA and CKPB
holds it readable. -/
structure Ckpt where
  pc : BitVec 24
  s : SMap Word
  gw : Gang
  lb : Nat
  len : Nat
  regs : SMap (Bool × Bool)
  live : SMap Bool
  fsum : BitVec 5
  enables : BitVec 5
  trapMode : Bool
  staged : Nat
  landed : List Nat
  armed : List Nat
  reclaimed : Bool
  copyA : Bool
  copyB : Bool
  deriving DecidableEq, Repr

inductive OrderSt where
  | accepted | running
  deriving DecidableEq, Repr

/-- An ACCEPTED or RUNNING order (R195–R209). `journal` holds the outcomes of the waits since the last checkpoint and
`replay` those still to be taken by a re-execution (R202); `runTicks` and `sinceTicks` are running times in ticks. -/
structure Order where
  seq : Word
  hon : Word
  entry : BitVec 24
  args : Bytes
  startInput : Half
  ins : List InBind
  outs : List OutBind
  st : OrderSt
  released : Bool
  startTime : DWord
  unprotected : Bool
  recomputed : Bool
  fsum : BitVec 5
  runTicks : Nat
  sinceTicks : Nat
  large : Bool
  journal : List Word
  replay : List Word
  ckpt : Option Ckpt
  staged : List Staged
  dualMiss : Nat
  reexec : Bool
  deriving DecidableEq, Repr

/-- A completion record (R204); `flags` is byte 0x0A, `slot` its place among the 256 of the tenant in XM (R229). -/
structure Record where
  seq : Word
  hon : Word
  outcome : Byte
  cause : Byte
  flags : Byte
  runUs : Word
  stamp : DWord
  last : Word
  slot : Byte
  deriving DecidableEq, Repr

/-- An accepted host order number, with its sequence number and time (R198). -/
structure HonEntry where
  hon : Word
  seq : Word
  time : DWord
  deriving DecidableEq, Repr

/-- A tenant (R190–R220, R380, R411, R451). `ownFlash` is the applied record as flash keeps it (R444 step 9). `unrec` holds the records of ABORTED orders that wait for an older order to
settle (R206), `abortHold` the channels that an abort holds safe (R216), `flashAccepted` and `flashSettled` the watermarks
of the last power-fail warning (R438, R452), `retireTo` the value last written (R220), `frameH1` whether the trap frame lies in H1
(R230), `recNext` the slot of the next completion record in XM (R229). -/
structure TenantSt where
  own : Option OwnRec
  ownFlash : Option OwnRec
  ownPending : Option OwnRec
  ownState : Byte
  orders : List Order
  records : List Record
  unrec : List Record
  hons : List HonEntry
  nextSeq : Word
  ceiling : Word
  lastAccepted : Word
  reject : Byte
  wmSettled : Word
  wmPersisted : Word
  wmCurrent : Byte
  flashAccepted : Word
  flashSettled : Word
  retireTo : Word
  yields : Word
  abortState : Byte
  abortHold : BitVec 512
  lost : Bool
  seqLost : Bool
  fsumLast : BitVec 5
  recomputed : Word
  unprotected : Word
  suppressed : Word
  trapCount : Word
  result : SMap Byte
  resultSeq : Word
  lastRelease : SMap Word
  idleHold : Word
  holdRunning : Bool
  movedTo : Option HostCh
  frameH1 : Bool
  recNext : Nat
  deriving DecidableEq, Repr

def TenantSt.initial : TenantSt :=
  { own := none, ownFlash := none, ownPending := none, ownState := 0, orders := [], records := [], unrec := [], hons := [], nextSeq := 1,
    ceiling := 65536, lastAccepted := 0, reject := 0, wmSettled := 0, wmPersisted := 0, wmCurrent := 1,
    flashAccepted := 0, flashSettled := 0, retireTo := 0, yields := 0,
    abortState := 0, abortHold := 0, lost := false, seqLost := false, fsumLast := 0, recomputed := 0,
    unprotected := 0, suppressed := 0, trapCount := 0, result := [], resultSeq := 0, lastRelease := [],
    idleHold := 1000, holdRunning := false, movedTo := none, frameH1 := false, recNext := 0 }

/-! ### Memories and the march engine (R221–R247) -/

inductive MemService where
  | inService | fenced | failed
  deriving DecidableEq, Repr

/-- Status of a bank (0–7) or an XM half (8, 9), with the times of the double read failures of the last second and the
words that were rewritten from a good copy, and whether it is to be declared faulted (R237, R247). -/
structure MemStatus where
  errors : Byte
  repairs : Byte
  service : MemService
  failTimes : List DWord
  rewritten : List Nat
  due : Bool
  deriving DecidableEq, Repr

def MemStatus.initial : MemStatus := ⟨0, 0, .inService, [], [], false⟩

/-- A borrowed window (R241): whether it lies in XM, the byte address of the word under test, whether that word holds the
complement, the shadow value, and whether the window has been released to a request and waits for its retry. -/
structure Window where
  xm : Bool
  addr : Nat
  complemented : Bool
  shadow : DWord
  released : Bool
  deriving DecidableEq, Repr

/-- A byte of scratchpad or XM that does not hold what it should (R235–R238): `upset` has wrong parity until it is next written,
`stuck` whatever is written, and `weak` reads right but cannot hold its complement. -/
inductive CellFault where
  | none | upset | stuck | weak
  deriving DecidableEq, Repr

/-- The march engine (R238–R246). `dtest` is the target under destructive test, `released` the units (64·bank + unit) of
R245 that still wait for their march, `tileDue` the physical tiles that a second DUAL_MISMATCH has scheduled for one (R218). -/
structure March where
  enable : Byte
  passPeriod : Half
  sparePeriod : Half
  passes : Word
  late : Word
  passOn : Bool
  window : Option Window
  dtestTarget : Half
  dtestState : Byte
  dtest : Option Nat
  released : SMap Bool
  tileDue : SMap Bool
  deriving DecidableEq, Repr

/-! ### On-chip network (R248–R277) -/

inductive NiState where
  | opened
  | closing (r : FenceReason)
  | drained (r : FenceReason)
  | fenced (r : FenceReason)
  | unused
  | standby
  deriving DecidableEq, Repr

/-- A request outstanding at its source NI (R265, R266), with the packet; `lpos` is the logical position of the tile that it
addresses (R271). -/
structure OutReq where
  tid : BitVec 12
  dest : NiId
  vc : BitVec 2
  write : Bool
  pkt : Option Pkt
  retried : Bool
  lpos : Option Nat
  deriving DecidableEq, Repr

/-- A packet on its way (R258–R264): the command that its arrival is, its ends, channel, sequence number, length in flits and DOR;
the input queues that hold its flits, the one with the header first, each as router, port (0 north, 1 east, 2 south, 3 west, 4 L0,
5 L1) and flits, the rest being at the source; and when the header came into its queue. -/
structure Flight where
  cmd : Instr
  src : NiId
  dst : NiId
  vc : BitVec 2
  sn : BitVec 8
  flits : Nat
  dor : Bool
  hops : List (Nat × Nat × Nat)
  entered : Nat
  deriving DecidableEq, Repr

/-- A network interface: sluice state (R269), requests outstanding, requests held after NACK_FENCED (R271), the responses it has
sent that have not reached their requester, and the packets that have arrived before an earlier one (R264). A request is served when
it is delivered, so no response is owed between commands. -/
structure Ni where
  st : NiState
  out : List OutReq
  held : List OutReq
  sent : List Pkt
  early : List Flight
  deriving DecidableEq, Repr

def Ni.initial : Ni := ⟨.opened, [], [], [], []⟩

inductive RouterService where
  | inService | quiesce | fenced | failed
  deriving DecidableEq, Repr

/-- A router (R272, R277): service, REPLAYS, the neighbours in QUIESCE (bit 0 north, 1 east, 2 south, 3 west), its configuration:
the list of fenced neighbours, the enables of its ports (as in `Flight`) and the routing mode, and the list and mode that it takes
when its quiesce ends. -/
structure Router where
  service : RouterService
  replays : Byte
  quiesced : BitVec 4
  fencedNbrs : BitVec 4
  enables : BitVec 6
  mode : Bool
  newFenced : Option (BitVec 4)
  newMode : Option Bool
  deriving DecidableEq, Repr

def Router.initial : Router := ⟨.inService, 0, 0, 0, 0x3F, false, none, none⟩

/-- The NoC (R276): interfaces, the next sequence number by 4·(48·source + destination) + VC (R264) with
the number that the destination awaits and those that will not come, routers, mode, counters,
and whether ingest, fabric and service use attachment B; the packets on their way, the oldest first, the virtual channel that each
router output served last, by 6·router + output (R259), how many headers have moved, and the FENCE_CLEARs on their way, as cleared
interface, its replacement and LOST (R271). -/
structure Noc where
  nis : SMap Ni
  sn : SMap Byte
  want : SMap Byte
  gaps : List (Nat × Byte)
  routers : SMap Router
  mesh : List Flight
  served : SMap Nat
  moves : Nat
  clears : List (NiId × NiId × Bool)
  eastFirst : Bool
  fencedNacks : Word
  timeouts : Word
  lateResponses : Word
  linkReplays : Word
  destLost : Word
  ingestB : Bool
  fabricB : Bool
  serviceB : Bool
  deriving DecidableEq, Repr

/-! ### Camera ingest (R278–R296) -/

inductive Link where
  | down | discovery | up (speed : Fin 7) | lost
  deriving DecidableEq, Repr

/-- The image in progress (R284–R295): its claim (tenant, sequence number, binding), which ends with the order or with a lost frame,
sampled configuration, and the window lines that have arrived. -/
structure Frame where
  claim : Option (Tenant × Word × Nat)
  cfg : CamCfg
  lines : Nat
  deriving DecidableEq, Repr

/-- Pixels of one binding in a connection's ingest buffer (R285): `fresh` are not yet retained; of those that are, the last `kept`
bytes are still there for landing. -/
structure BufPart where
  owner : Tenant
  seq : Word
  bind : Nat
  fresh : Bytes
  kept : Nat
  deriving DecidableEq, Repr

/-- A camera connection (R296) with its ingest buffer, the oldest pixels first. -/
structure Cam where
  link : Link
  fmt : Byte
  window : DWord
  origin : Word
  landing : Word
  spOffset : Word
  trigLine : Byte
  fsTime : DWord
  frames : Word
  overruns : Word
  errors : Word
  unclaimed : Word
  discarded : Word
  trigDropped : Word
  frame : Option Frame
  buf : List BufPart
  trigSent : Word
  trigBusy : Bool
  regRequest : Option (SesId × Bytes)
  regReply : Option Bytes
  deriving DecidableEq, Repr

def Cam.initial : Cam :=
  { link := .discovery, fmt := 0, window := 0x0080008000000000, origin := 0, landing := 0, spOffset := 0,
    trigLine := 0xFF, fsTime := 0, frames := 0, overruns := 0, errors := 0, unclaimed := 0, discarded := 0,
    trigDropped := 0, frame := none, buf := [], trigSent := 0, trigBusy := false, regRequest := none, regReply := none }

/-! ### Fabric (R297–R335) -/

/-- The configuration of a cell (R318 CELL record): IR0–IR7, initial Q0–Q3, O, T and SC, select bytes of I0–I3, E0, E1. -/
structure CellCfg where
  ir : List Word
  q : List Half
  o : Half
  t : Bool
  sc : BitVec 3
  sel : List Byte
  deriving DecidableEq, Repr

/-- The null configuration of a cell (R299, R515). -/
def CellCfg.null : CellCfg := ⟨List.replicate 8 0, List.replicate 4 0, 0, false, 0, List.replicate 6 0xFF⟩

/-- The flip-flops of a cell (R300). `last` numbers the next fc this cell executes, `prevO` and `prevT` are O and T before
the fc it executed last, `prevE1` is E1 in that fc (R301 ADV 2). -/
structure Cell where
  sc : BitVec 3
  q : List Half
  o : Half
  t : Bool
  z : Bool
  n : Bool
  cy : Bool
  v : Bool
  last : Nat
  prevO : Half
  prevT : Bool
  prevE1 : Bool
  deriving DecidableEq, Repr

def Cell.zero : Cell := ⟨0, List.replicate 4 0, 0, false, false, false, false, false, 0, 0, false, false⟩

/-- The driver of a system line (R311, R318): cell and register (T, or O bit 0). -/
structure LineDrv where
  row : Nat
  col : Nat
  bit0 : Bool
  deriving DecidableEq, Repr

/-- A configuration (R318): cells by 32·row + column, segment source codes by segment ID [31:15], lines, port inputs. -/
structure FabCfg where
  cells : SMap CellCfg
  segs : SMap Half
  lines : SMap (Option LineDrv)
  ports : SMap (Byte × Byte × Byte)
  deriving DecidableEq, Repr

def FabCfg.null : FabCfg := ⟨[], [], [], []⟩

inductive RegionSt where
  | running | held | stopped
  deriving DecidableEq, Repr

/-- A load that has passed its checks (R320, R321): the region of a partial load, the records, CFG_CRC, the counter, the
session that waits, and the bytes of a full bitstream. -/
structure Load where
  region : Option RegionId
  cfg : FabCfg
  crc : Word
  counter : Word
  ses : Option SesId
  bytes : Bytes
  deriving DecidableEq, Repr

inductive FabClk where
  | full | quarter
  | ramping (up : Bool) (ratio : Fin 3)
  | stopped
  | fosc
  deriving DecidableEq, Repr

/-- The Embankment fabric. `fc` numbers the present fabric cycle, which began `fcPhase` ticks after the device time; `pulses` lists one-fc ports (code, fc) (R310); `mbData` holds DATA of a region's mailbox port
as the fc from which it shows, the word, and the word before (R313); `rxd` the byte on RXD of a serial port with the fc in which it is
valid, `txFc` the fc whose TXD has been taken, `txd` the bytes sent, and `txOpen` the exchanges that a controller has opened (R316);
`mailbox` holds the holding copies (R313) by 32·m + word, `bridgeHeld` the values of bridge segments of a held region,
`owed` the regions whose null configuration waits for the present load (R299, R323). -/
structure Fabric where
  cfg : FabCfg
  cells : SMap Cell
  fc : Nat
  fcPhase : Nat
  lineLevel : SMap Bool
  evtTime : SMap DWord
  pulses : List (Nat × Nat)
  rxd : SMap (Nat × Byte)
  mailbox : SMap Half
  mbData : SMap (Nat × Half × Half)
  txFc : SMap Nat
  txd : SMap Bytes
  txOpen : SMap Nat
  bridgeHeld : SMap Half
  region : SMap RegionSt
  load : Option Load
  owed : List RegionId
  loadState : Byte
  loadError : DWord
  loadErrorBy : Option Tenant
  loads : Byte
  rejects : Byte
  isNull : Bool
  slotB : Bool
  slots : SMap Bytes
  backup : Bool
  captured : SMap Bytes
  captureState : Half
  probe : SMap Byte
  serialMode : SMap Half
  clk : FabClk
  deriving DecidableEq, Repr

/-! ### Field channels and dike groups (R336–R364) -/

/-- A field channel: its settings (R362), the filtered input level, VAL, OUT, OE and DUTY as its interface cell holds them
(R310), the diagnoses present by code of R354, the forced OFF of R352, that of R356, the swap of R353, the mode change
under way, the ADC history (newest first, R346) and the PWM period in effect with the fabric time of its start (R343). -/
structure Fc where
  mode : Byte
  safe : Byte
  filter : Byte
  diagEn : Byte
  owPeriod : Half
  pwmPeriod : Word
  options : Byte
  source : Byte
  adcOrigin : Half
  pretrig : Byte
  level : Bool
  val : Half
  encB : Bool
  out : Bool
  oe : Bool
  duty : Half
  faults : Word
  abandoned : Word
  diag : List Byte
  forcedOff : Bool
  escalated : Bool
  swapped : Bool
  changing : Bool
  pwmRunning : Bool
  pwmNow : Word
  dutyNow : Half
  pwmFrom : DWord
  hist : List (DWord × Half)
  deriving DecidableEq, Repr

def Fc.initial : Fc :=
  { mode := 0, safe := 0, filter := 0, diagEn := 0, owPeriod := 10, pwmPeriod := 62500, options := 0, source := 0,
    adcOrigin := 0, pretrig := 0, level := false, val := 0, encB := false, out := false, oe := false, duty := 0,
    faults := 0, abandoned := 0, diag := [], forcedOff := false, escalated := false, swapped := false, changing := false,
    pwmRunning := false, pwmNow := 62500, dutyNow := 0, pwmFrom := 0, hist := [] }

/-- A dike group (R345, R346, R355, R356, R364). -/
structure Group where
  faulted : Bool
  cause : BitVec 4
  faults : Byte
  spsEnable : Byte
  spsOverload : Bool
  spsReverse : Bool
  outCurrent : Half
  adcStopped : Bool
  adcPos : Nat
  deriving DecidableEq, Repr

def Group.initial : Group := ⟨false, 0, 0, 1, false, false, 0, false, 0⟩

/-- Field side as a whole: channels, groups, the host output image (R363), crossing silence and power of each field die
(R358), and whether the module's outputs are held safe by the clock or supply steps. -/
structure Field where
  ch : SMap Fc
  grp : SMap Group
  dout : SMap Byte
  silenceA : Bool
  silenceB : Bool
  holdClock : Bool
  holdVcore : Bool
  holdSleep : Bool
  loaded : Bool
  deriving DecidableEq, Repr

/-! ### Sessions (R365–R394) -/

/-- An emergency as formed (R390): code of R391, register byte, bytes 3–7. -/
structure Emcy where
  code : Half
  reg : Byte
  detail : Bytes
  deriving DecidableEq, Repr

/-- Communication parameters of a TPDO (R409). -/
structure Tpdo where
  cobId : Word
  ty : Byte
  inhibit : Half
  timer : Half
  deriving DecidableEq, Repr

structure Rpdo where
  cobId : Word
  ty : Byte
  deriving DecidableEq, Repr

/-- A segmented DOMAIN write in progress (R388). -/
structure Xfer where
  index : Half
  sub : Byte
  size : Option Nat
  data : Bytes
  deriving DecidableEq, Repr

/-- The last answer a session gave (R384, R386): abort code 0 is a confirmation. -/
structure Reply where
  abort : Word
  data : Bytes
  deriving DecidableEq, Repr

/-- The instance of the per-session objects of a tenant and a path (R373, R376, R378, R512). `agreed` is the bit number of
R374. `recent` lists (code, bytes 3–5, time) of emergencies sent within the last second (R393), `awaits` the objects written whose
confirmation is outstanding (R387). -/
structure Session where
  isOpen : Bool
  opened : DWord
  requested : Half
  agreed : Nat
  lastAbort : Word
  lastAbortObj : Word
  logCursor : Word
  errHist : List Word
  queue : List Emcy
  recent : List (Half × Bytes × DWord)
  rxMap : SMap Word
  txMap : SMap Word
  rxCount : SMap Byte
  txCount : SMap Byte
  rxAssign : List Half
  txAssign : List Half
  rpdo : SMap (Option Rpdo)
  tpdo : SMap (Option Tpdo)
  tpdoSyncs : SMap Byte
  xfer : Option Xfer
  awaits : List (Half × Byte)
  reply : Option Reply
  sent : Option Emcy
  deriving DecidableEq, Repr

def Session.initial : Session :=
  { isOpen := false, opened := 0, requested := 1, agreed := 0, lastAbort := 0, lastAbortObj := 0, logCursor := 0,
    errHist := [], queue := [], recent := [], rxMap := [], txMap := [], rxCount := [], txCount := [],
    rxAssign := [0x1600, 0, 0, 0], txAssign := [0x1A00, 0, 0, 0], rpdo := [], tpdo := [], tpdoSyncs := [], xfer := none,
    awaits := [], reply := none, sent := none }

/-! ### Host controllers (R395–R415) -/

inductive CtrlService where
  | inService | fenced | failed
  deriving DecidableEq, Repr

/-- An EtherCAT slave controller. `members` lists the tenants whose PDOs the layout of the last transition to SAFE-OP carries
(R399, R413). `sm2Fresh` marks a frame written since the last SYNC0, `sm2Wait` one that waits for the
next SYNC0 to take effect (R400, R401). `rmii` is the port mode that ESCn_MODE selected at cold step 9 (R500). -/
structure Esc where
  al : AlState
  alStatus : Half
  syncType : Half
  cycle : Word
  exceeded : Half
  cfg : Option EscConfig
  members : List Tenant
  sm2 : Bytes
  sm2Fresh : Bool
  sm2Wait : Bool
  sm3 : Bytes
  service : CtrlService
  mailboxError : Half
  info : Bytes
  rmii : Bool
  deriving DecidableEq, Repr

def Esc.initial : Esc :=
  { al := .init, alStatus := 0, syncType := 0, cycle := 0, exceeded := 0, cfg := none, members := [], sm2 := [], sm2Fresh := false,
    sm2Wait := false, sm3 := [], service := .inService, mailboxError := 0, info := [], rmii := false }

/-- A CAN controller (R405–R409): node-ID base and bit-timing index as stored, configured and active, RPDOs that wait for
SYNC (tenant, number, data) and the last frame sent (COB-ID, data). -/
structure CanCtl where
  nbStored : Byte
  idxStored : Byte
  nbCfg : Byte
  idxCfg : Byte
  nb : Byte
  idx : Byte
  lssError : Byte
  rpdoHeld : List (Tenant × Nat × Bytes)
  lastTx : Option (BitVec 11 × Bytes)
  service : CtrlService
  deriving DecidableEq, Repr

def CanCtl.initial (nb : Byte) : CanCtl := ⟨nb, 2, nb, 2, nb, 2, 0, [], none, .inService⟩

inductive NmtState where
  | none | preOperational | operational | stopped
  deriving DecidableEq, Repr

/-- Host attachment: controllers, NMT state per tenant node, maintenance port readiness, the last FoE outcome (error code,
abort code). -/
structure Net where
  esc : SMap Esc
  can : SMap CanCtl
  nmt : SMap NmtState
  foe : Half × Word
  sp1Ready : Bool
  maintOk : Bool
  deriving DecidableEq, Repr

/-! ### Clocks, supplies and starts (R416–R454) -/

inductive ClkSt where
  | normal | relocking | holdover
  deriving DecidableEq, Repr

inductive VcoreSt where
  | normal | warnHold | warnSafe
  deriving DecidableEq, Repr

inductive SleepSt where
  | none
  | pending (ses : SesId)
  | entered
  deriving DecidableEq, Repr

/-- Running state of the module (R442, R446, R447): held in reset by a cause until recovery, between a start and its time
limit, after a failed start, SAFE SHELL, or running. -/
inductive ModuleMode where
  | running
  | held (cause : Byte)
  | starting (cause : Byte)
  | failedStart
  | safeShell
  deriving DecidableEq, Repr

/-- Frequencies and spread (R419, R420). -/
structure Freq where
  arr : Half
  noc : Half
  fab : Half
  sys : Half
  depth : List Byte
  rate : List Byte
  deriving DecidableEq, Repr

def Freq.default : Freq := ⟨800, 1000, 250, 500, [0, 0, 0], [32, 32, 32]⟩

structure Clocks where
  st : ClkSt
  aValid : Bool
  bValid : Bool
  inUse : BitVec 2
  lockNoc : Bool
  lockFab : Bool
  lockSys : Bool
  wasAwake : List TileId
  freeze : Bool
  ceiling : Byte
  idle : Byte
  sleep : SleepSt
  rampDwell : Byte
  set : Freq
  now : Freq
  gateRun : Word
  gateSleep : Word
  gateDeep : Word
  gated : BitVec 25
  refSelect : Byte
  refSwitches : Word
  deriving DecidableEq, Repr

structure Supplies where
  vcore : VcoreSt
  vmem : BitVec 4
  feedA : Bool
  feedB : Bool
  pfw : BitVec 4
  pfailLow : Bool
  vioLow : List (Fin 2)
  dips : Word
  pfails : Word
  deriving DecidableEq, Repr

structure Starts where
  mode : ModuleMode
  cause : Byte
  kind : Byte
  time : Word
  failed : Byte
  failedStep : Byte
  warmSkips : Byte
  cold : Word
  warm : Word
  rstLow : Bool
  pairActive : Fin 2
  pairA : Bool
  pairB : Bool
  deriving DecidableEq, Repr

/-! ### Identity (R455–R473) and observation (R474–R488) -/

/-- An entry of the measurement log (R465), without its kind. -/
structure Meas where
  state : Byte
  counter : Word
  time : DWord
  digest : Bytes
  deriving DecidableEq, Repr

def Meas.absent : Meas := ⟨1, 0, 0, List.replicate 64 0⟩

/-- The attestation instance of a tenant (R466): snapshot of the log with its time, and the signed response. -/
structure Att where
  state : Byte
  nonce : Bytes
  snapTime : DWord
  snap : SMap Meas
  response : Bytes
  deriving DecidableEq, Repr

def Att.initial : Att := ⟨0, [], 0, [], []⟩

/-- Firmware update (R464, R471, R472): FW_STATE, the file held, the version in use and its build. -/
structure Fw where
  state : Byte
  file : Option Bytes
  boot : Bytes
  image : Bytes
  version : List Byte
  build : Half
  flashFile : Option Bytes
  deriving DecidableEq, Repr

structure Identity where
  ik : Option Bytes
  tk : SMap (Option Bytes)
  oldKeys : List Bytes
  counters : SMap Word
  pending : SMap Word
  att : SMap Att
  attQueue : List Tenant
  meas : SMap Meas
  fw : Fw
  verifyError : SMap Word
  deriving DecidableEq, Repr

/-- An event-log entry (R484): number, time, code, severity, readers, instance, details. -/
structure LogEntry where
  num : Word
  time : DWord
  code : Half
  sev : BitVec 2
  readers : BitVec 4
  inst : Byte
  a : Word
  b : Bytes
  deriving DecidableEq, Repr

inductive TapInstr where
  | bypass | idcode | samplePreload | extest | extestPulse | extestTrain | clamp | highz
  deriving DecidableEq, Repr

/-- Tide mark (R474–R482), event log (R483, newest first), TAP (R487). `due` holds, within a command only, the source and
event code of a tide mark that the command has raised; `logRaw` lists the bytes
of the log's area in XM that a packet has changed since their entry was written, by exclusive or. -/
structure Observe where
  due : Option (Nat × Half)
  tideFaults : Half
  tideOutMask : Byte
  tideCount : Word
  tideMerged : Word
  tideTime : DWord
  tideSeen : Bool
  snap : Option Bytes
  snapState : Byte
  tideOut : Bool
  log : List LogEntry
  logNewest : Word
  flashLog : List LogEntry
  tap : TapInstr
  cells : Bytes
  logRaw : SMap Byte
  deriving DecidableEq, Repr

/-! ### The state -/

/-- The state of the module. `pe` holds PE registers by 4,096·tile + 64·row + column; `peMem` PE memory bytes by
512·that + bit address / 8; `peTag` the number of the free value that fills an undefined region, by 8·tile + region;
`sp` and `xm` the scratchpad and exchange memory bytes, each combined by exclusive or with what fills its area; `spFill` and
`xmFill` hold the numbers of the free values that fill an area whose layout the manual leaves to the device, by 64 KiB unit, and 0
for the XM header and 1 + t for a journal; `peBad` marks bytes whose stored parity is wrong, `spBad` and `xmBad` those with a fault;
`xmFirst` is a word on which both ports of XM have just collided, after the write of port X alone (R233). -/
structure State where
  pending : List Instr
  freeCtr : Nat
  time : DWord
  tiles : SMap Tile
  map : SMap (Option TileId)
  pe : SMap PE
  peMem : SMap Byte
  peBad : SMap Bool
  peTag : SMap Nat
  seqs : SMap Sequencer
  ctxs : SMap TrapCtx
  mc : Microcode
  tenants : SMap TenantSt
  lastYield : Bytes
  sp : SMap Byte
  xm : SMap Byte
  spBad : SMap CellFault
  xmBad : SMap CellFault
  spFill : SMap Nat
  xmFill : SMap Nat
  xmFirst : Option (Nat × DWord)
  mem : SMap MemStatus
  march : March
  xmCollisions : Word
  noc : Noc
  grouping : Byte
  maxSpeed : Byte
  cams : SMap Cam
  fab : Fabric
  field : Field
  ses : SMap Session
  net : Net
  clk : Clocks
  sup : Supplies
  start : Starts
  ident : Identity
  obs : Observe
  deriving DecidableEq, Repr

/-! ### Reset -/

/-- Tile 16 is the spare at shipment (R10, R65). -/
def tilesReset : SMap Tile := [(16, { Tile.initial with service := .spare })]

/-- No ownership record is applied after the first cold start, so every sequencer is a spare (R152, R190). -/
def seqsReset : SMap Sequencer := []

/-- The table of R276 for the ports after a cold start: the NIs of tiles FENCED with reason OFF, the B attachments STANDBY,
unused ports. Interface number 2·(6y + x) + k (R249). -/
def nisReset : SMap Ni :=
  [(0, { Ni.initial with st := .fenced .off }), (2, { Ni.initial with st := .fenced .off }),
   (4, { Ni.initial with st := .fenced .off }), (6, { Ni.initial with st := .fenced .off }),
   (8, { Ni.initial with st := .fenced .off }), (10, { Ni.initial with st := .unused }),
   (14, { Ni.initial with st := .fenced .off }), (16, { Ni.initial with st := .fenced .off }),
   (18, { Ni.initial with st := .fenced .off }), (20, { Ni.initial with st := .fenced .off }),
   (26, { Ni.initial with st := .fenced .off }), (28, { Ni.initial with st := .fenced .off }),
   (30, { Ni.initial with st := .fenced .off }), (32, { Ni.initial with st := .fenced .off }),
   (33, { Ni.initial with st := .unused }), (35, { Ni.initial with st := .standby }),
   (38, { Ni.initial with st := .fenced .off }), (40, { Ni.initial with st := .fenced .off }),
   (41, { Ni.initial with st := .unused }), (42, { Ni.initial with st := .fenced .off }),
   (44, { Ni.initial with st := .fenced .off }), (45, { Ni.initial with st := .unused }),
   (46, { Ni.initial with st := .standby }), (47, { Ni.initial with st := .standby })]

def marchReset : March :=
  { enable := 1, passPeriod := 60, sparePeriod := 600, passes := 0, late := 0, passOn := false, window := none,
    dtestTarget := 0, dtestState := 0, dtest := none, released := [], tileDue := [] }

def fabricReset : Fabric :=
  { cfg := FabCfg.null, cells := [], fc := 0, fcPhase := 0, lineLevel := [], evtTime := [], pulses := [], rxd := [], mailbox := [],
    mbData := [], txFc := [], txd := [], txOpen := [], bridgeHeld := [], region := [], load := none, owed := [], loadState := 0, loadError := 0, loadErrorBy := none,
    loads := 0, rejects := 0, isNull := true, slotB := false, slots := [], backup := false, captured := [],
    captureState := 0, probe := [], serialMode := [], clk := .full }

def microcodeReset : Microcode :=
  { mcver := 0x03010000, digest := [0x5E, 0x2A, 0x91, 0xC4, 0x07, 0xB3, 0x6D, 0x18], patchState := 0, golden := [], flash := [],
    patch := none }

def clocksReset : Clocks :=
  { st := .normal, aValid := true, bValid := true, inUse := 0, lockNoc := true, lockFab := true, lockSys := true,
    wasAwake := [], freeze := false, ceiling := 0, idle := 0, sleep := .none, rampDwell := 3, set := Freq.default,
    now := Freq.default, gateRun := 0x0000001F, gateSleep := 0x01FFFFFF, gateDeep := 0x01F0FFFF, gated := 0,
    refSelect := 0, refSwitches := 0 }

/-- The measurement log at shipment: bitstream slot and ownership records absent, the digests of the rest free (R465; log 6). -/
def measReset : SMap Meas :=
  ([0, 1, 2, 4, 5, 6, 7, 8, 9, 10, 11, 16, 17] : List Nat).map fun k => (k, ⟨0, 0, 0, Config.shippedDigest k⟩)

/-- The START entry that a cold start writes first (R483, R485): detail A START_KIND and START_CAUSE, detail B START_TIME. -/
def startEntry : LogEntry :=
  { num := 1, time := 0, code := 0x0B01, sev := 0, readers := 1, inst := 0, a := 0, b := List.replicate 12 0 }

/-- The machine right after reset: the end of the first cold start of a module as shipped (R324, R444, R445, R452; log 4). -/
def State.reset : State :=
  { pending := [], freeCtr := 0, time := 0, tiles := tilesReset, map := [], pe := [], peMem := [], peBad := [], peTag := [],
    seqs := seqsReset, ctxs := [], mc := microcodeReset, tenants := [], lastYield := List.replicate 16 0, sp := [], xm := [],
    spBad := [], xmBad := [], spFill := [], xmFill := [], xmFirst := none, mem := [], march := marchReset, xmCollisions := 0,
    noc := {
      nis := nisReset, sn := [], want := [], gaps := [], routers := [], mesh := [], served := [], moves := 0, clears := [], eastFirst := false, fencedNacks := 0, timeouts := 0, lateResponses := 0,
      linkReplays := 0, destLost := 0, ingestB := false, fabricB := false, serviceB := false },
    grouping := 0, maxSpeed := 12, cams := [], fab := fabricReset,
    field := {
      ch := [], grp := [], dout := [], silenceA := false, silenceB := false,
      holdClock := false, holdVcore := false, holdSleep := false, loaded := true },
    ses := [],
    net := { esc := [], can := [], nmt := [], foe := (0, 0), sp1Ready := false, maintOk := true },
    clk := clocksReset,
    sup := {
      vcore := .normal, vmem := 0, feedA := true, feedB := true, pfw := 0, pfailLow := false, vioLow := [], dips := 0, pfails := 0 },
    start := {
      mode := .running, cause := 0, kind := 0, time := 0, failed := 0, failedStep := 0, warmSkips := 0, cold := 1,
      warm := 0, rstLow := false, pairActive := 0, pairA := true, pairB := true },
    ident := {
      ik := none, tk := [], oldKeys := [], counters := [], pending := [], att := [], attQueue := [], meas := measReset,
      fw := { state := 0, file := none, boot := [], image := [], version := [1, 0, 0], build := 1, flashFile := none },
      verifyError := [] },
    obs := {
      due := none, tideFaults := 0x000F, tideOutMask := 0x0E, tideCount := 0, tideMerged := 0, tideTime := 0, tideSeen := false,
      snap := none, snapState := 0, tideOut := false, log := [startEntry], logNewest := 1, flashLog := [],
      tap := .idcode, cells := [], logRaw := [] } }

end Sys2Proof.Machine
end

