-- ==== Sys2Proof/Machine/Ops.lean ====
section
/-! DEFINITION. The named operations over the indexed registers of the state: one reader and one writer for each family,
and the free values. -/

namespace Sys2Proof.Machine

open Host (Outcome)

/-! ### Registers by index -/

def tile (s : State) (p : Nat) : Tile := SMap.get Tile.initial s.tiles p
def setTile (s : State) (p : Nat) (v : Tile) : State := { s with tiles := SMap.set Tile.initial s.tiles p v }
def modTile (s : State) (p : Nat) (f : Tile → Tile) : State := setTile s p (f (tile s p))

def sqr (s : State) (q : Nat) : Sequencer := SMap.get Sequencer.initial s.seqs q
def setSqr (s : State) (q : Nat) (v : Sequencer) : State := { s with seqs := SMap.set Sequencer.initial s.seqs q v }
def modSqr (s : State) (q : Nat) (f : Sequencer → Sequencer) : State := setSqr s q (f (sqr s q))

def ctx (s : State) (k : Nat) : TrapCtx := SMap.get TrapCtx.initial s.ctxs k
def setCtx (s : State) (k : Nat) (v : TrapCtx) : State := { s with ctxs := SMap.set TrapCtx.initial s.ctxs k v }

def ten (s : State) (t : Tenant) : TenantSt := SMap.get TenantSt.initial s.tenants t.val
def setTen (s : State) (t : Tenant) (v : TenantSt) : State :=
  { s with tenants := SMap.set TenantSt.initial s.tenants t.val v }
def modTen (s : State) (t : Tenant) (f : TenantSt → TenantSt) : State := setTen s t (f (ten s t))

def ses (s : State) (k : SesId) : Session := SMap.get Session.initial s.ses k.val
def setSes (s : State) (k : SesId) (v : Session) : State := { s with ses := SMap.set Session.initial s.ses k.val v }
def modSes (s : State) (k : SesId) (f : Session → Session) : State := setSes s k (f (ses s k))

def cam (s : State) (c : CxpId) : Cam := SMap.get Cam.initial s.cams c.val
def setCam (s : State) (c : CxpId) (v : Cam) : State := { s with cams := SMap.set Cam.initial s.cams c.val v }
def modCam (s : State) (c : CxpId) (f : Cam → Cam) : State := setCam s c (f (cam s c))

def fch (s : State) (n : Nat) : Fc := SMap.get Fc.initial s.field.ch n
def setFch (s : State) (n : Nat) (v : Fc) : State :=
  { s with field := { s.field with ch := SMap.set Fc.initial s.field.ch n v } }
def modFch (s : State) (n : Nat) (f : Fc → Fc) : State := setFch s n (f (fch s n))

def grp (s : State) (g : Nat) : Group := SMap.get Group.initial s.field.grp g
def setGrp (s : State) (g : Nat) (v : Group) : State :=
  { s with field := { s.field with grp := SMap.set Group.initial s.field.grp g v } }
def modGrp (s : State) (g : Nat) (f : Group → Group) : State := setGrp s g (f (grp s g))

def ni (s : State) (n : Nat) : Ni := SMap.get Ni.initial s.noc.nis n
def setNi (s : State) (n : Nat) (v : Ni) : State :=
  { s with noc := { s.noc with nis := SMap.set Ni.initial s.noc.nis n v } }
def modNi (s : State) (n : Nat) (f : Ni → Ni) : State := setNi s n (f (ni s n))

def rtr (s : State) (r : Nat) : Router := SMap.get Router.initial s.noc.routers r
def setRtr (s : State) (r : Nat) (v : Router) : State :=
  { s with noc := { s.noc with routers := SMap.set Router.initial s.noc.routers r v } }
def modRtr (s : State) (r : Nat) (f : Router → Router) : State := setRtr s r (f (rtr s r))

def esc (s : State) (e : CtrlId) : Esc := SMap.get Esc.initial s.net.esc e.val
def setEsc (s : State) (e : CtrlId) (v : Esc) : State :=
  { s with net := { s.net with esc := SMap.set Esc.initial s.net.esc e.val v } }
def modEsc (s : State) (e : CtrlId) (f : Esc → Esc) : State := setEsc s e (f (esc s e))

/-- The node-ID base of CAN0 is 0x10 and of CAN1 0x20 at shipment (R407). -/
def canShipped (c : CtrlId) : CanCtl := CanCtl.initial (if c = 0 then 0x10 else 0x20)
def can (s : State) (c : CtrlId) : CanCtl := SMap.get (canShipped c) s.net.can c.val
def setCan (s : State) (c : CtrlId) (v : CanCtl) : State :=
  { s with net := { s.net with can := SMap.set (canShipped c) s.net.can c.val v } }
def modCan (s : State) (c : CtrlId) (f : CanCtl → CanCtl) : State := setCan s c (f (can s c))

def memSt (s : State) (b : Nat) : MemStatus := SMap.get MemStatus.initial s.mem b
def setMemSt (s : State) (b : Nat) (v : MemStatus) : State := { s with mem := SMap.set MemStatus.initial s.mem b v }
def modMemSt (s : State) (b : Nat) (f : MemStatus → MemStatus) : State := setMemSt s b (f (memSt s b))

/-! ### Counters and free values -/

/-- A counter that saturates at all ones. -/
def satInc {w : Nat} (v : BitVec w) : BitVec w := if v = BitVec.allOnes w then v else v + 1

/-- The number of the next free value. -/
def freshNum (s : State) : Nat := s.freeCtr + 1

/-- Free-value numbers up to `freshNum s` are used. -/
def bump (s : State) : State := { s with freeCtr := s.freeCtr + 1 }

/-- A free number of `w` bits at location `loc` (R3). -/
def freeNat (n loc : Nat) : Nat → Nat
  | 0 => 0
  | w + 1 => 2 * freeNat n (loc + 1) w + (Config.freeBit n loc).toNat

/-! ### Numbers, bits and bytes -/

/-- The two's-complement value of the low `w` bits. -/
def toSigned (w n : Nat) : Int := if n % 2 ^ w < 2 ^ (w - 1) then (n % 2 ^ w : Nat) else (n % 2 ^ w : Nat) - (2 ^ w : Nat)

/-- The low `w` bits of an integer, as a natural number. -/
def ofInt (w : Nat) (x : Int) : Nat := (x % (2 ^ w : Nat)).toNat

def ceilDiv (a b : Nat) : Nat := (a + b - 1) / b

/-- Truth table TT: bit k of TT gives the result for k = 2a + b (R82). -/
def ttBit (tt : BitVec 4) (a b : Bool) : Bool := tt.getLsbD (2 * a.toNat + b.toNat)

/-- Ticks in a microsecond: the unit of running times and of the phase of the fabric clock, in which a period of every frequency that
R419 allows, 25 MHz × 5 to 32, is a whole number (R8). -/
def usTicks : Nat := 25 * 144403552893600
def nsTicks : Nat := usTicks / 1000

/-- Little-endian bytes of a number (R6). -/
def leBytes : Nat → Nat → Bytes
  | 0, _ => []
  | k + 1, n => BitVec.ofNat 8 n :: leBytes k (n / 256)

/-- The number that little-endian bytes hold (R6). -/
def ofLe : Bytes → Nat
  | [] => 0
  | b :: r => b.toNat + 256 * ofLe r

/-- Bytes `off` to `off + n − 1` of a byte string. -/
def slice (b : Bytes) (off n : Nat) : Bytes := (b.drop off).take n

/-- The little-endian number of `n` bytes at offset `off`. -/
def leAt (b : Bytes) (off n : Nat) : Nat := ofLe (slice b off n)

/-- Replace the bytes from offset `off` by `d`; bytes beyond the end are dropped. -/
def patch (b : Bytes) (off : Nat) (d : Bytes) : Bytes :=
  (b.take off ++ d ++ b.drop (off + d.length)).take b.length

/-! ### Checks and serial numbers -/

/-- One bit of CRC-32 (IEEE 802.3, reflected). -/
def crcBit (c : Word) : Word := if c.getLsbD 0 then (c >>> 1) ^^^ 0xEDB88320#32 else c >>> 1

def crcByte (c : Word) (b : Byte) : Word :=
  crcBit (crcBit (crcBit (crcBit (crcBit (crcBit (crcBit (crcBit (c ^^^ b.zeroExtend 32))))))))

/-- CRC-32 with the IEEE 802.3 polynomial (R204, R318). -/
def crc32 (d : Bytes) : Word := ~~~(d.foldl crcByte 0xFFFFFFFF#32)

/-- Serial-number order over 2^31 (R200): `a` is at or above `b`. -/
def serialGe (a b : Word) : Bool := decide ((a - b).toNat < 2 ^ 31)

end Sys2Proof.Machine
end

