-- ==== Sys2Proof/Machine/Operands.lean ====
section
/-! DEFINITION. PE memory and registers, tiles of a tenant, the geometry of the array, and every operand form of an array
instruction: direct, indirect and scalar fields in each gang width. -/

namespace Sys2Proof.Machine

/-! ### Tiles and processing elements -/

/-- The physical tile that fills logical position `n` (R28, R67); `none` when the position is lost. -/
def physOf (s : State) (n : Nat) : Option TileId :=
  SMap.get (if h : n < 17 then some ⟨n, h⟩ else none) s.map n

/-- The logical position that physical tile `p` fills. -/
def lposOf (s : State) (p : TileId) : Option Nat := (List.range 16).find? fun n => decide (physOf s n = some p)

def setPhys (s : State) (n : Nat) (p : Option TileId) : State :=
  { s with map := SMap.set (if h : n < 17 then some ⟨n, h⟩ else none) s.map n p }

/-- The logical tiles of the tenant's applied record, ascending (R192). -/
def ownTiles (s : State) (t : Tenant) : List Nat :=
  match (ten s t).own with
  | none => []
  | some r => (List.range 16).filter fun n => r.tiles.getLsbD n

def isDual (s : State) (t : Tenant) : Bool :=
  match (ten s t).own with
  | none => false
  | some r => r.dual

/-- Half A of the tenant's tiles in CHECKED-DUAL, else all of them: the program tiles (R197, R218, R219). -/
def progTiles (s : State) (t : Tenant) : List Nat :=
  if isDual s t then (ownTiles s t).take ((ownTiles s t).length / 2) else ownTiles s t

/-- Half B (R218). -/
def halfB (s : State) (t : Tenant) : List Nat :=
  if isDual s t then (ownTiles s t).drop ((ownTiles s t).length / 2) else []

/-- The physical tiles of a list of logical tiles. -/
def physTiles (s : State) (l : List Nat) : List TileId := l.filterMap (physOf s)

/-- The tenant that owns logical tile `n`. -/
def tileOwner (s : State) (n : Nat) : Option Tenant := (List.finRange 4).find? fun t => (ownTiles s t).contains n

/-- Grid position of a logical tile (R28). -/
def tileX (n : Nat) : Nat := 2 * ((n / 4) % 2) + n % 2
def tileY (n : Nat) : Nat := 2 * (n / 8) + (n / 2) % 2
/-- The logical tile at a grid position. -/
def tileAt (x y : Nat) : Option Nat := (List.range 16).find? fun n => decide (tileX n = x ∧ tileY n = y)

/-- The number of the PE at a row and column of a physical tile. -/
def peKey (p : TileId) (r c : Nat) : Nat := p.val * 4096 + r * 64 + c

def pe (s : State) (k : Nat) : PE := SMap.get PE.clear s.pe k
def setPe (s : State) (k : Nat) (v : PE) : State := { s with pe := SMap.set PE.clear s.pe k v }

/-! ### Bits of PE memory -/

/-- The undefined regions (R36, R76): 1 is W0, 2 the trap save slot, 3 the rest of W1, 0 everything else. -/
def regionOf (a : Nat) : Nat :=
  if 2304 ≤ a ∧ a ≤ 2679 then 1 else if 2680 ≤ a ∧ a ≤ 2703 then 2 else if 2704 ≤ a ∧ a ≤ 3055 then 3 else 0

/-- M[3064..3071] reads zero and is not written (R35). -/
def reservedBit (a : Nat) : Bool := decide (3064 ≤ a ∧ a ≤ 3071)

/-- The free value that fills region `r` of tile `p`, at a location; false where the contents are defined (log 6). -/
def fill (s : State) (p r loc : Nat) : Bool :=
  let n := SMap.get 0 s.peTag (8 * p + r)
  if n = 0 then false else Config.freeBit n loc

/-- The contents of region `r` of each tile are undefined from now on. -/
def scramble (s : State) (ps : List TileId) (r : Nat) : State :=
  { s with peTag := ps.foldl (fun m p => SMap.set 0 m (8 * p.val + r) (freshNum s)) s.peTag }

/-- Bit `a` of the memory of PE `k` (R31, R35). -/
def peBit (s : State) (k a : Nat) : Bool :=
  if reservedBit a then false
  else (SMap.get 0 s.peMem (k * 512 + a / 8)).getLsbD (a % 8) ^^ fill s (k / 4096) (regionOf a) (k * 4096 + a)

/-- A byte with bit `i` replaced. -/
def setBit8 (b : Byte) (i : Nat) (v : Bool) : Byte :=
  if v then b ||| (1#8 <<< i) else b &&& ~~~(1#8 <<< i)

/-- Write bit `a` of the memory of PE `k`: a mismatch found on the read half sets the PE's parity-error latch, and the write
leaves good parity (R38). -/
def setPeBit (s : State) (k a : Nat) (v : Bool) : State :=
  if reservedBit a then s
  else
    let key := k * 512 + a / 8
    let b := setBit8 (SMap.get 0 s.peMem key) (a % 8) (v ^^ fill s (k / 4096) (regionOf a) (k * 4096 + a))
    let s1 := { s with peMem := SMap.set 0 s.peMem key b, peBad := SMap.set false s.peBad key false }
    if SMap.get false s.peBad key then setPe s1 k { pe s1 k with parityErr := true } else s1

/-- Reading bytes with wrong parity sets the parity-error latches of their PEs (R38): `read` says, by PE number and byte of its
memory, which bytes are read. -/
def latchBad (s : State) (read : Nat → Nat → Bool) : State :=
  s.peBad.foldl (fun u e => if e.2 && read (e.1 / 512) (e.1 % 512) then
    setPe u (e.1 / 512) { pe u (e.1 / 512) with parityErr := true } else u) s

/-- Locations of free values for X, C and F of a PE, clear of every bit address. -/
def locX (k : Nat) : Nat := 285212672 + k
def locC (k : Nat) : Nat := 570425344 + k
def locF (k : Nat) : Nat := 855638016 + k

/-- The exchange bit of a PE: undefined after every instruction (R76). -/
def peX (s : State) (k : Nat) : Bool := (pe s k).x ^^ fill s (k / 4096) 4 (locX k)
def setPeX (s : State) (k : Nat) (v : Bool) : State :=
  setPe s k { pe s k with x := v ^^ fill s (k / 4096) 4 (locX k) }

/-! ### Slices and fields -/

/-- PEs in a slice (R52). -/
def Gang.width : Gang → Nat
  | .g1 => 1
  | .g4 => 4
  | .g16 => 16

/-- An element: a slice of one row of one tile (R52). -/
structure Elem where
  lt : Nat
  tile : TileId
  row : Nat
  sl : Nat
  deriving DecidableEq, Repr

/-- The PE in lane `j` of an element in gang width `g`. -/
def Elem.lane (e : Elem) (g j : Nat) : Nat := peKey e.tile e.row (g * e.sl + j)

/-- The elements of one physical tile that fills logical tile `n`, row by row. -/
def tileElems (g n : Nat) (p : TileId) : List Elem :=
  (List.range 64).flatMap fun r => (List.range (64 / g)).map fun c => ⟨n, p, r, c⟩

/-- The elements of a list of logical tiles. -/
def elems (s : State) (g : Nat) (l : List Nat) : List Elem :=
  l.flatMap fun n =>
    match physOf s n with
    | some p => tileElems g n p
    | none => []

/-- A field operand: indirect or direct, base bit address, width in bits (R71, R72). -/
structure Fld where
  ind : Bool
  base : Nat
  w : Nat
  deriving DecidableEq, Repr

/-- The planes of a field (R53). -/
def Fld.planes (f : Fld) (g : Nat) : Nat := ceilDiv f.w g

/-- The element is active when K of lane 0 is 1 (R32, R55). -/
def active (s : State) (g : Nat) (e : Elem) : Bool := (pe s (e.lane g 0)).k

/-- The effective base of a field in an element (R43, R55). -/
def Fld.at (f : Fld) (s : State) (g : Nat) (e : Elem) : Nat :=
  f.base + if f.ind then (pe s (e.lane g 0)).p.toNat else 0

/-- The value of a field in an element: bit i at base + ⌊i/g⌋ of lane i mod g (R53). -/
def readField (s : State) (g : Nat) (e : Elem) (f : Fld) : Nat :=
  let b := f.at s g e
  (List.range f.w).foldr (fun i acc => 2 * acc + (peBit s (e.lane g (i % g)) ((b + i / g) % 4096)).toNat) 0

/-- Write a value into a field of an element whose effective base is `b`. -/
def writeField (s : State) (g : Nat) (e : Elem) (b w v : Nat) : State :=
  (List.range w).foldl (fun u i => setPeBit u (e.lane g (i % g)) ((b + i / g) % 4096) (v.testBit i)) s

/-- A bit address that an indirect write may write (R35, R44). -/
def writableBit (tl : Tile) (a : Nat) : Bool := decide (a ≤ 2303) || (decide (3072 ≤ a) && tl.reclaimed)

/-- Every plane of the field at effective base `b` may be written in the tile (R44). -/
def writable (tl : Tile) (b planes : Nat) : Bool := (List.range planes).all fun j => writableBit tl ((b + j) % 4096)

/-- A plane of the field at effective base `b` lies in the berm (R40). -/
def touchesBerm (b planes : Nat) : Bool := (List.range planes).any fun j => decide (3072 ≤ (b + j) % 4096)

/-- An indirect field partly overlaps another operand in this element (R75): they share a plane without being the same planes.
DESIGN CHOICE (log 53): a field whose planes are all those of a differently formed operand is no partial overlap. -/
def partlyOverlaps (s : State) (g : Nat) (e : Elem) (d a : Fld) : Bool :=
  (d.ind || a.ind) &&
    let bd := d.at s g e % 4096
    let ba := a.at s g e % 4096
    decide (¬(bd = ba ∧ d.planes g = a.planes g)) &&
      (decide ((ba + 4096 - bd) % 4096 < d.planes g) || decide ((bd + 4096 - ba) % 4096 < a.planes g))

/-! ### Scalar registers -/

/-- Scalar register `i` of a sequencer. -/
def sreg (s : State) (q i : Nat) : Word := SMap.get 0 (sqr s q).s i
def setSreg (s : State) (q i : Nat) (v : Word) : State := modSqr s q fun x => { x with s := SMap.set 0 x.s i v }

/-- A byte of PE memory that holds one of the bits `b` to `b + n − 1`. -/
def inBits (b n byte : Nat) : Bool := decide (b / 8 ≤ byte ∧ byte ≤ (b + n - 1) / 8 ∧ n ≠ 0)

/-- The low `w` bits of a broadcast scalar, extended beyond bit 31 (R73). -/
def broadcast (v : Word) (ext : Bool) (w : Nat) : Nat :=
  (if ext && v.msb then v.toNat + (2 ^ 64 - 2 ^ 32) else v.toNat) % 2 ^ w

/-- A source operand: a field or a broadcast scalar value. -/
inductive Src where
  | field (f : Fld)
  | scalar (v : Nat)
  deriving DecidableEq, Repr

def Src.read (x : Src) (s : State) (g : Nat) (e : Elem) : Nat :=
  match x with
  | .field f => readField s g e f
  | .scalar v => v

def Src.fld? : Src → Option Fld
  | .field f => some f
  | .scalar _ => none

/-! ### Neighbours and culverts (R28, R45, R46, R219) -/

/-- One step from a grid position, outside the 4 × 4 grid `none`. -/
def gridStep (d : Dir) (x y : Nat) : Option (Nat × Nat) :=
  match d with
  | .north => if y < 3 then some (x, y + 1) else none
  | .east => if x < 3 then some (x + 1, y) else none
  | .south => if 0 < y then some (x, y - 1) else none
  | .west => if 0 < x then some (x - 1, y) else none

/-- The logical tile beside `n` in direction `d`. -/
def tileBeside (d : Dir) (n : Nat) : Option Nat :=
  match gridStep d (tileX n) (tileY n) with
  | some (x, y) => tileAt x y
  | none => none

/-- The tile joined to tile `n` of the tenant by an enabled culvert in direction `d` (R46, R219). -/
def joined (s : State) (t : Tenant) (d : Dir) (n : Nat) : Option Nat :=
  let a := progTiles s t
  let b := halfB s t
  if a.contains n then
    match tileBeside d n with
    | some m => if a.contains m then some m else none
    | none => none
  else
    match b.idxOf? n with
    | some j =>
      match tileBeside d (a.getD j 16) with
      | some m =>
        match a.idxOf? m with
        | some j' => b[j']?
        | none => none
      | none => none
    | none => none

/-- Follow `k` culverts in one direction. -/
def joinedN (s : State) (t : Tenant) (d : Dir) : Nat → Nat → Option Nat
  | 0, n => some n
  | k + 1, n =>
    match joined s t d n with
    | some m => joinedN s t d k m
    | none => none

/-- The element `k` steps from `e` in direction `d`; `none` beyond the array or a disabled culvert (R46, R56, R87). -/
def elemAway (s : State) (t : Tenant) (g : Nat) (d : Dir) (k : Nat) (e : Elem) : Option Elem :=
  let n := 64 / g
  let (pos, size) := match d with
    | .north | .south => (e.row, 64)
    | .east | .west => (e.sl, n)
  let (hops, pos') := match d with
    | .north | .east => ((pos + k) / size, (pos + k) % size)
    | .south | .west => ((k + (size - 1 - pos)) / size, size - 1 - (k + (size - 1 - pos)) % size)
  match joinedN s t d hops e.lt with
  | some m =>
    match physOf s m with
    | some p =>
      match d with
      | .north | .south => some ⟨m, p, pos', e.sl⟩
      | .east | .west => some ⟨m, p, e.row, pos'⟩
    | none => none
  | none => none

end Sys2Proof.Machine
end

