-- ==== Sys2Proof/Machine/Flags.lean ====
section
/-! DEFINITION. The sticky flags of the status byte, and the results and flags of the integer functions (R37, R84, R85,
R109–R113) with their times (R83–R93, R114–R120). -/

namespace Sys2Proof.Machine

/-! ### Status byte (R37): bit k of a mask stands for M[3056 + k] -/

def flagNX : Byte := 0x01
def flagUF : Byte := 0x02
def flagOF : Byte := 0x04
def flagDZ : Byte := 0x08
def flagNV : Byte := 0x10
def flagOV : Byte := 0x20
def flagSV : Byte := 0x40
def flagAV : Byte := 0x80

/-- Set the sticky flags of a mask in PE `k`. -/
def setSticky (s : State) (k : Nat) (m : Byte) : State :=
  (List.range 8).foldl (fun u i => if m.getLsbD i then setPeBit u k (3056 + i) true else u) s

/-- Clear the sticky flags of a mask in PE `k` (R96 FCLR). -/
def clearSticky (s : State) (k : Nat) (m : Byte) : State :=
  (List.range 8).foldl (fun u i => if m.getLsbD i then setPeBit u k (3056 + i) false else u) s

/-! ### Integer functions -/

inductive IntFn where
  | add | addc | sub | subb | mul | mulw | div | mod | neg | min | max | cmpeq | cmpne | cmplt | cmple
  deriving DecidableEq, Repr

/-- A `w`-bit pattern under the signedness S. -/
def value (S : Bool) (w n : Nat) : Int := if S then toSigned w n else (n % 2 ^ w : Nat)

/-- The smallest and the largest value of width `w`. -/
def minVal (S : Bool) (w : Nat) : Int := if S then -(2 ^ (w - 1) : Nat) else 0
def maxVal (S : Bool) (w : Nat) : Int := if S then (2 ^ (w - 1) : Nat) - 1 else (2 ^ w : Nat) - 1

/-- Write an exact value into `w` bits: it fits, or it wraps and sets OV, or under SAT it takes the bound and sets SV
(R85, R111). -/
def fit (S sat : Bool) (w : Nat) (x : Int) : Nat × Byte :=
  if minVal S w ≤ x ∧ x ≤ maxVal S w then (ofInt w x, 0)
  else if sat then (ofInt w (if x < 0 then minVal S w else maxVal S w), flagSV)
  else (ofInt w x, flagOV)

/-- The result of an integer function in one element: destination value, carry where the function defines it, flags. -/
structure IntRes where
  d : Nat
  c : Option Bool
  flags : Byte
  deriving DecidableEq, Repr

/-- ADD, ADDC, SUB and SUBB (R109): `inv` selects NOT B; the carry is that of the bit-level sum. -/
def addSub (S sat inv : Bool) (w a b : Nat) (cin : Bool) : IntRes :=
  let y := if inv then 2 ^ w - 1 - b else b
  let x := if inv then value S w a - value S w b - (1 - cin.toNat) else value S w a + value S w b + cin.toNat
  let r := fit S sat w x
  ⟨r.1, some (decide (2 ^ w ≤ a + y + cin.toNat)), r.2⟩

/-- DIV and MOD: the ordinary quotient and remainder, and the rows of R113. -/
def divMod (S : Bool) (w a b : Nat) : Nat × Nat × Byte :=
  let x := value S w a
  let y := value S w b
  if y = 0 then
    (if S then (if 0 ≤ x then ofInt w (maxVal S w) else ofInt w (minVal S w)) else 2 ^ w - 1, a, flagDZ)
  else if S = true ∧ x = minVal S w ∧ y = -1 then (a, 0, flagOV)
  else (ofInt w (Int.tdiv x y), ofInt w (Int.tmod x y), 0)

/-- An integer function in one element (R84, R109–R113); `cin` is C of the element. -/
def intElem (fn : IntFn) (S sat : Bool) (w a b : Nat) (cin : Bool) : IntRes :=
  match fn with
  | .add => addSub S sat false w a b false
  | .addc => addSub S sat false w a b cin
  | .sub => addSub S sat true w a b true
  | .subb => addSub S sat true w a b cin
  | .mul => let r := fit S sat w (value S w a * value S w b); ⟨r.1, none, r.2⟩
  | .mulw => ⟨ofInt (2 * w) (value S w a * value S w b), none, 0⟩
  | .div => let r := divMod S w a b; ⟨r.1, none, r.2.2⟩
  | .mod => let r := divMod S w a b; ⟨r.2.1, none, r.2.2⟩
  | .neg => let r := fit S sat w (-(value S w a)); ⟨r.1, none, r.2⟩
  | .min => ⟨if value S w b < value S w a then b else a, none, 0⟩
  | .max => ⟨if value S w a < value S w b then b else a, none, 0⟩
  | .cmpeq => ⟨(decide (a = b)).toNat, none, 0⟩
  | .cmpne => ⟨(decide (a ≠ b)).toNat, none, 0⟩
  | .cmplt => ⟨(decide (value S w a < value S w b)).toNat, none, 0⟩
  | .cmple => ⟨(decide (value S w a ≤ value S w b)).toNat, none, 0⟩

/-- The width of the destination (R84). -/
def IntFn.dWidth (fn : IntFn) (w : Nat) : Nat :=
  match fn with
  | .mulw => 2 * w
  | .cmpeq | .cmpne | .cmplt | .cmple => 1
  | _ => w

def IntFn.isCmp : IntFn → Bool
  | .cmpeq | .cmpne | .cmplt | .cmple => true
  | _ => false

def IntFn.isMulDiv : IntFn → Bool
  | .mul | .mulw | .div | .mod => true
  | _ => false

/-- The function reads the reciprocal table (R41, R119). -/
def IntFn.readsBerm : IntFn → Bool
  | .div | .mod => true
  | _ => false

/-- The sticky flags that a function can set, AV aside (R104). -/
def IntFn.flagSet (fn : IntFn) : Byte :=
  if fn.isCmp then 0 else if fn.isMulDiv then flagOV ||| flagSV ||| flagDZ else flagOV ||| flagSV

/-- SAT = 1 is legal (R84). -/
def IntFn.satLegal : IntFn → Bool
  | .add | .sub | .mul | .neg => true
  | _ => false

/-- The magnitude of a multiplier (R116). -/
def magnitude (S : Bool) (w n : Nat) : Nat := (value S w n).natAbs

/-- One more than the highest set bit, 0 for 0. -/
def bitLen (n : Nat) : Nat := if n = 0 then 0 else Nat.log2 n + 1

/-- Newton–Raphson iterations for width `w` (R120). -/
def divIters (w : Nat) : Nat := if w ≤ 7 then 0 else if w ≤ 14 then 1 else if w ≤ 28 then 2 else if w ≤ 56 then 3 else 4

/-- The time of MUL and MULW (R114); `n1` is the multiplier index plus 1. -/
def mulTime (g w : Nat) (S : Bool) (n1 : Nat) : Nat :=
  let p := ceilDiv w g
  if g = 1 then 8 + n1 * (w + 1) + (if S = true ∧ n1 ≠ 0 then 4 * w + 3 else 0)
  else 12 + n1 * (2 * p + 3) + (if S = true ∧ n1 ≠ 0 then 2 * p + ceilDiv (2 * w) g + 3 else 0)

/-- The time of DIV and MOD (R114); `any` says that some active element has B ≠ 0. -/
def divTime (g w : Nat) (any : Bool) : Nat :=
  let i := divIters w
  if g = 1 then 40 + (if any then (2 * i + 1) * (w + 1) ^ 2 else 0)
  else 48 + (if any then (2 * i + 1) * (w + 1) * (2 * ceilDiv (w + 1) g + 3) else 0)

/-- The time of an integer function whose time does not depend on data (R84, R114). -/
def intTime (fn : IntFn) (g w : Nat) : Nat :=
  match fn with
  | .min | .max => 2 * ceilDiv w g + 3
  | _ => ceilDiv w g + 2

/-! ### Shifts within the field (R87, R88) -/

inductive ShiftFn where
  | shl | shrl | shra | rol
  deriving DecidableEq, Repr

def shiftElem (fn : ShiftFn) (w a n : Nat) : Nat :=
  match fn with
  | .shl => (a <<< n) % 2 ^ w
  | .shrl => a >>> n
  | .shra => ofInt w (toSigned w a >>> n)
  | .rol => ((a <<< (n % w)) ||| (a >>> (w - n % w))) % 2 ^ w

end Sys2Proof.Machine
end

