-- ==== Sys2Proof/Machine/Events.lean ====
section
/-! DEFINITION. Owners of resources, the error register, the event log (R483–R485), the sources of tide marks (R474, R479)
and emergencies (R390–R394). -/

namespace Sys2Proof.Machine

/-! ### Owners (R190, R370) -/

/-- The tenants whose applied record satisfies a test. -/
def ownersBy (s : State) (f : OwnRec → Bool) : List Tenant :=
  (List.finRange 4).filter fun t => match (ten s t).own with
    | some r => f r
    | none => false

def firstOwner (s : State) (f : OwnRec → Bool) : Option Tenant := (ownersBy s f).head?

def fcOwner (s : State) (n : Nat) : Option Tenant := firstOwner s fun r => r.channels.getLsbD n
def camOwner (s : State) (c : Nat) : Option Tenant := firstOwner s fun r => r.cams.getLsbD c
def regionOwner (s : State) (k : Nat) : Option Tenant := firstOwner s fun r => r.regions.getLsbD k
def lineOwner (s : State) (l : Nat) : Option Tenant := firstOwner s fun r => r.lines.getLsbD l
/-- The tenants that own a channel of dike group `g`. -/
def groupOwners (s : State) (g : Nat) : List Tenant :=
  ownersBy s fun r => (List.range 16).any fun q => r.channels.getLsbD (16 * g + q)
def ownsFc (s : State) (t : Tenant) (n : Nat) : Bool :=
  match (ten s t).own with
  | some r => r.channels.getLsbD n
  | none => false

/-- The tenant bound to a sequencer (R152, R182). -/
def seqTenant (s : State) (q : Nat) : Option Tenant := (sqr s q).bound

/-- The in-service sequencer bound to a tenant. -/
def seqOf (s : State) (t : Tenant) : Option SeqId :=
  (List.finRange 5).find? fun q => decide ((sqr s q.val).bound = some t)

/-- Readers of a log entry: T0 and the tenants named (R485). -/
def readersOf (ts : List Tenant) : BitVec 4 :=
  ts.foldl (fun m t => m ||| (1#4 <<< t.val)) 1#4

/-! ### Error register (R391, R392) -/

/-- Some owned channel shows one of the diagnosis codes. -/
def ownedDiag (s : State) (t : Tenant) (codes : List Byte) : Bool :=
  s.field.ch.any fun e => ownsFc s t e.1 && codes.any fun c => e.2.diag.contains c

/-- Some group satisfies a test and has a channel of the tenant. -/
def ownedGroup (s : State) (t : Tenant) (f : Group → Bool) : Bool :=
  s.field.grp.any fun e => f e.2 && (groupOwners s e.1).contains t

/-- ERROR_REGISTER of a tenant's sessions: the conditions of R391 that are present. -/
def errorRegister (s : State) (t : Tenant) : Byte :=
  let b1 := ownedDiag s t [0x01, 0x02] || ownedGroup s t (fun g => g.spsOverload || g.spsReverse || g.faulted) ||
    (decide (t = 0) && s.field.grp.any fun e => e.2.faulted)
  let b2 := decide (s.sup.vcore ≠ .normal) || !s.sup.feedA || !s.sup.feedB
  let b3 := ownedDiag s t [0x07]
  let b7 := ownedDiag s t [0x03, 0x04, 0x05, 0x0A]
  (if b1 || b2 || b3 || b7 then 0x01#8 else 0) ||| (if b1 then 0x02 else 0) ||| (if b2 then 0x04 else 0) |||
    (if b3 then 0x08 else 0) ||| (if b7 then 0x80 else 0)

/-! ### Tide mark sources and the event log -/

/-- A source of a tide mark (R474); of several in one command the lowest code counts (R475). -/
def markDue (s : State) (src : Nat) (code : Half) : State :=
  match s.obs.due with
  | some (k, _) => if src < k then { s with obs := { s.obs with due := some (src, code) } } else s
  | none => { s with obs := { s.obs with due := some (src, code) } }

/-- A fault event of R479, named by its bit of TIDE_FAULTS. -/
def tideFault (s : State) (bit : Nat) (code : Half) : State :=
  if s.obs.tideFaults.getLsbD bit then markDue s 2 code else s

/-- Append an entry to the log ring and, with severity 2, to the flash ring (R483, R484). -/
def logEvent (s : State) (code : Half) (sev : BitVec 2) (ts : List Tenant) (inst : Nat) (a : Nat) (b : Bytes) : State :=
  let e : LogEntry :=
    { num := s.obs.logNewest + 1, time := s.time, code := code, sev := sev, readers := readersOf ts,
      inst := BitVec.ofNat 8 inst, a := BitVec.ofNat 32 a, b := (b ++ List.replicate 12 0).take 12 }
  { s with obs := { s.obs with
      log := (e :: s.obs.log).take 1024, logNewest := s.obs.logNewest + 1,
      logRaw := SMap.clearRange s.obs.logRaw (32 * (s.obs.logNewest.toNat % 1024)) 32,
      flashLog := if sev = 2 then (e :: s.obs.flashLog).take 64 else s.obs.flashLog } }

/-- The 32 bytes of a log entry (R484). -/
def LogEntry.bytes (e : LogEntry) : Bytes :=
  leBytes 4 e.num.toNat ++ leBytes 8 e.time.toNat ++ leBytes 2 e.code.toNat ++
    [BitVec.ofNat 8 (64 * e.sev.toNat + e.readers.toNat), e.inst] ++ leBytes 4 e.a.toNat ++ e.b

/-! ### Emergencies -/

/-- The version bit from which a code exists (R374, R391). -/
def emcySince (code : Half) : Nat := if code = 0xFF01 then 1 else if code = 0x2320 ∨ code = 0x2330 then 2 else 0

/-- The code as a session at an agreed version receives it (R394). -/
def emcyMapped (agreed : Nat) (code : Half) : Half := if agreed < emcySince code then 0xFF00 else code

/-- Enter an emergency into a session's history (R392). -/
def addHistory (x : Session) (code : Half) (detail : Bytes) : Session :=
  if code = 0x0000 then x
  else { x with errHist := (BitVec.ofNat 32 (code.toNat + 65536 * leAt detail 0 2) :: x.errHist).take 8 }

/-- One emergency toward one session (R390, R393): queued, suppressed within one second, or, with no frames to carry it,
entered into the history. -/
def emcyTo (s : State) (k : SesId) (code : Half) (detail : Bytes) : State :=
  let x := ses s k
  let t := sesTenant k
  let det := (detail ++ List.replicate 5 0).take 5
  if !x.isOpen then setSes s k (addHistory x (emcyMapped 0 code) det)
  else if k = 4 then setSes s k (addHistory x (emcyMapped x.agreed code) det)
  else
    let key := (code, det.take 3)
    let fresh := x.recent.filter fun e => decide (s.time.toNat < e.2.2.toNat + 1000000000)
    if fresh.any fun e => decide ((e.1, e.2.1) = key) then
      modTen s t fun v => { v with suppressed := satInc v.suppressed }
    else
      let e : Emcy := ⟨code, errorRegister s t, det⟩
      let full := decide (32 ≤ x.queue.length)
      let s1 := setSes s k { x with
        queue := (if full then x.queue.drop 1 else x.queue) ++ [e], recent := (code, det.take 3, s.time) :: fresh }
      if full then modTen s1 t fun v => { v with suppressed := satInc v.suppressed } else s1

/-- An emergency to the sessions of a list of tenants; T0 has two (R373, R390). -/
def emergency (s : State) (ts : List Tenant) (code : Half) (detail : Bytes) : State :=
  ts.foldl (fun u t =>
    let v := emcyTo u (SesId.ofNat t.val) code detail
    if t = 0 then emcyTo v 4 code detail else v) s
where
  /-- The host-channel session of a tenant. -/
  SesId.ofNat (n : Nat) : SesId := if h : n < 5 then ⟨n, h⟩ else 0

def allTenants : List Tenant := List.finRange 4

/-- ERROR_RESET to every session whose error register has returned to 0 since the state `s0` (R391). -/
def errorReset (s0 s : State) : State :=
  emergency s (allTenants.filter fun t => decide (errorRegister s0 t ≠ 0 ∧ errorRegister s t = 0)) 0x0000 []

/-- Emergency PART_FAULT with its tide mark source (R391, R479): kind, number, 0 taken over or 1 no spare. -/
def partFault (s : State) (ts : List Tenant) (kind num noSpare : Nat) : State :=
  tideFault (emergency s (0 :: ts.filter fun t => decide (t ≠ 0)) 0x5010
    [BitVec.ofNat 8 kind, BitVec.ofNat 8 num, BitVec.ofNat 8 noSpare]) 0 0x5010

end Sys2Proof.Machine
end

