-- ==== Sys2Proof/Machine/Mem.lean ====
section
/-! DEFINITION. Scratchpad and exchange memory: extents, mirrored regions, halves, parity and the word operations
(R192, R197, R221, R228–R230, R235, R236). -/

namespace Sys2Proof.Machine

/-! ### Scratchpad -/

def bankBytes : Nat := 4194304

/-- The areas of flash, as offset and size (R315): boot image and manifest, firmware, WCS image, slot A, slot B, device records. -/
def flashAreas : List (Nat × Nat) :=
  [(0x00000, 0x04000), (0x04000, 0x18000), (0x1C000, 0x10000), (0x2C000, 0x26000), (0x52000, 0x26000), (0x78000, 0x08000)]
def flashSize (k : Nat) : Nat := (flashAreas.getD k (0, 0)).2

def unitBytes : Nat := 65536

/-- The scratchpad bytes of the two golden copies (R154, R222). -/
def inGolden (a : Nat) : Bool := decide ((a / bankBytes = 3 ∨ a / bankBytes = 7) ∧ a % bankBytes / unitBytes = 63)

/-- A word of a store that lists what differs from the shipped image; the patch area is shipped as zeros (R153). -/
def storeWord (m : SMap Word) (k : Nat) : Word :=
  SMap.get (if 12288 ≤ k then 0 else Config.vendorMicroword k) m k

/-- Byte `a` of an area filled with the free value numbered `n`; number 0 fills with zeros. -/
def freeFill (n a : Nat) : Byte := if n = 0 then 0 else (Config.freeWord n (2 ^ 40 + a)).truncate 8

/-- What fills a byte of scratchpad: the image of a golden copy, and the free value of an area whose layout the device chooses (log 9). -/
def spBase (s : State) (a : Nat) : Byte :=
  if inGolden a then (leBytes 4 (storeWord s.mc.golden (a % unitBytes / 4)).toNat).getD (a % 4) 0
  else freeFill (SMap.get 0 s.spFill (a / unitBytes)) a

def spByte (s : State) (a : Nat) : Byte := SMap.get 0 s.sp a ^^^ spBase s a
def spRead (s : State) (a n : Nat) : Bytes := (List.range n).map fun i => spByte s (a + i)

/-- A byte in a range has wrong parity. -/
def badIn (m : SMap CellFault) (a n : Nat) : Bool :=
  m.any fun e => decide (a ≤ e.1 ∧ e.1 < a + n ∧ (e.2 = .upset ∨ e.2 = .stuck))
/-- A byte in a range cannot hold its complement. -/
def weakIn (m : SMap CellFault) (a n : Nat) : Bool := m.any fun e => decide (a ≤ e.1 ∧ e.1 < a + n ∧ e.2 = .weak)
/-- A write gives every byte of a range good parity where the byte can hold it (R221). -/
def mend (m : SMap CellFault) (a n : Nat) : SMap CellFault :=
  m.filter fun e => decide (e.1 < a ∨ a + n ≤ e.1 ∨ e.2 ≠ .upset)

def spBadAt (s : State) (a n : Nat) : Bool := badIn s.spBad a n

/-- A unit that the engine marches in the compare-only mode: PROG and PROGM, and the golden copies (R240). -/
def compareUnit (s : State) (u : Nat) : Bool :=
  decide (u = 64 * 3 + 63 ∨ u = 64 * 7 + 63) || allTenants.any fun t => match (ten s t).own with
    | some r => [0, 1].any fun i => match r.extents[r.roles.getD i 8]? with
      | some e => decide (64 * e.bank + e.start ≤ u ∧ u < 64 * e.bank + e.start + e.len)
      | none => false
    | none => false

/-- A request reaches an address range: a borrowed window that it meets is released, with the word under test written back
(R242). The compare-only mode borrows none (R241). -/
def yieldWindow (s : State) (xm : Bool) (a n : Nat) : State :=
  match s.march.window with
  | none => s
  | some w =>
    let lo := w.addr / 64 * 64
    if w.xm = xm ∧ w.released = false ∧ a < lo + 64 ∧ lo < a + n ∧ (xm = true ∨ compareUnit s (w.addr / unitBytes) = false) then
      { s with march := { s.march with window := some { w with complemented := false, released := true } } }
    else s

/-- Write bytes of scratchpad: a borrowed window yields, and the write leaves good parity (R221, R242). -/
def spWrite (s : State) (a : Nat) (d : Bytes) : State :=
  let s1 := yieldWindow s false a d.length
  { s1 with sp := SMap.writeN 0 s.sp a (d.mapIdx fun i b => b ^^^ spBase s (a + i)), spBad := mend s.spBad a d.length }

def setSpByte (s : State) (a : Nat) (v : Byte) : State := spWrite s a [v]

/-- First byte address and length in bytes of an extent (R192, R221). -/
def Extent.addr (e : Extent) : Nat := e.bank * bankBytes + e.start * unitBytes
def Extent.bytes (e : Extent) : Nat := e.len * unitBytes

/-- The scratchpad address of a byte offset in a list of extents, taken one after the other (log 13). -/
def extAddr : List Extent → Nat → Option Nat
  | [], _ => none
  | e :: r, off => if off < e.bytes then some (e.addr + off) else extAddr r (off - e.bytes)

/-- Byte `a` of the scratchpad lies in an extent. -/
def inExtent (e : Extent) (a : Nat) : Bool := decide (e.addr ≤ a ∧ a < e.addr + e.bytes)

def extTotal (l : List Extent) : Nat := (l.map Extent.bytes).foldl (· + ·) 0

/-- Read bytes at an offset in a list of extents; a byte beyond them reads 0. -/
def extRead (s : State) (l : List Extent) (off n : Nat) : Bytes :=
  (List.range n).map fun i => match extAddr l (off + i) with
    | some a => spByte s a
    | none => 0

/-- Write bytes at an offset in a list of extents; a byte beyond them is dropped. -/
def extWrite (s : State) (l : List Extent) : Nat → Bytes → State
  | _, [] => s
  | off, b :: r =>
    extWrite (match extAddr l off with
      | some a => setSpByte s a b
      | none => s) l (off + 1) r

/-- The extent that a role names (R192): 0 PROG, 1 PROGM, 2 CKPA, 3 CKPB, 4 RETA, 5 RETB. -/
def roleExtent (r : OwnRec) (role : Nat) : Option Extent := r.extents[r.roles.getD role 8]?

/-- The bank of a tenant's area is in service; an area that the record does not name lies in no bank (R192, R210). -/
def areaUp (s : State) (t : Tenant) (role : Nat) : Bool := match (ten s t).own.bind fun r => roleExtent r role with
  | some e => decide ((memSt s e.bank).service = .inService)
  | none => true

/-- The device writes into areas whose layout it chooses: their contents become free (log 9). -/
def refill (s : State) (t : Tenant) (roles : List Nat) : State :=
  let n := freshNum s
  bump (roles.foldl (fun u role => match (ten s t).own.bind fun r => roleExtent r role with
    | some e => if (memSt s e.bank).service = .inService then { u with
        sp := SMap.clearRange u.sp e.addr e.bytes
        spFill := (List.range e.len).foldl (fun m i => SMap.set 0 m (64 * e.bank + e.start + i) n) u.spFill } else u
    | none => u) s)

/-- Whether a read of the device's data in an area fails twice: only where a byte of the area does, and since the layout is the
device's, whether it is one that is read is free (log 63). -/
def areaHit (s : State) (t : Tenant) (role : Nat) : Bool := match (ten s t).own.bind fun r => roleExtent r role with
  | some e => spBadAt s e.addr e.bytes && Config.freeBit (freshNum s) (2 ^ 41 + 8 * t.val + role)
  | none => false

/-- Instructions in the program area (R69). -/
def progWords (r : OwnRec) : Nat := match roleExtent r 0 with
  | some e => e.bytes / 8
  | none => 0

/-! ### Parity failures (R235–R237) -/

def halfBytes : Nat := 524288

/-- The status index of the bank of a scratchpad byte, or 8 and 9 for the halves of XM (R247). -/
def memIndex (xm : Bool) (a : Nat) : Nat := if xm then 8 + a / halfBytes else a / bankBytes

/-- Both reads of a word fail: two errors, and MEM_PARITY with the role of R236. At the 16th failure of one second, or of a
word that was rewritten, the bank or half is to be declared faulted (R237). -/
def readFailed (s : State) (xm : Bool) (a : Nat) (role : Byte) : State :=
  let b := memIndex xm a
  let times := s.time :: (memSt s b).failTimes.filter fun t => decide (s.time.toNat < t.toNat + 1000000000)
  let due := decide (16 ≤ times.length) || (memSt s b).rewritten.contains (a / 8)
  logEvent (modMemSt s b fun x => { x with
    errors := satInc (satInc x.errors), failTimes := times.take 16, due := x.due || due }) 0x0402 2 [] b a [role]

/-- A word is rewritten from a good copy: REPAIRS counts it (R236). -/
def repaired (s : State) (xm : Bool) (a : Nat) : State :=
  modMemSt s (memIndex xm a) fun x => { x with
    repairs := satInc x.repairs, rewritten := if x.rewritten.contains (a / 8) then x.rewritten else (a / 8) :: x.rewritten }

/-- The role code of MEM_PARITY, by the row of R236's table from 0; the manual numbers no roles (log 6). -/
def roleByte (s : State) (k : Nat) : Byte := (Config.freeWord (freshNum s) (70 + k)).truncate 8

/-- A read of one word of the scratchpad that holds a copy of a word at `m`: a failing word is rewritten from a good copy
(R236). The word as it is read, or none when both copies fail. -/
def readCopied (s : State) (a m role roleM : Nat) : State × Option Nat :=
  let up := fun (x : Nat) => decide ((memSt s (x / bankBytes)).service = .inService)
  if up a && !spBadAt s a 8 then (s, some (ofLe (spRead s a 8)))
  else
    let s1 := if up a then readFailed s false a (roleByte s role) else s
    if up m && !spBadAt s m 8 then
      let d := spRead s m 8
      (if up a then repaired (spWrite s1 a d) false a else s1, some (ofLe d))
    else (if up m then readFailed s1 false m (roleByte s1 roleM) else s1, none)

/-- The word of the program area at an index as a fetch reads it: from PROG, or from PROGM when PROG fails its parity check or
is fenced (R194, R236). -/
def fetchProg (s : State) (r : OwnRec) (i : Nat) : State × Option Nat :=
  match roleExtent r 0, roleExtent r 1 with
  | some p, some m => readCopied s (p.addr + 8 * i) (m.addr + 8 * i) 0 1
  | _, _ => (s, none)

/-- A read of the device's data in an area and the copy of it: a failure is logged, and the state is answered with which of the two
copies still serves (R236). -/
def readAreas (s : State) (t : Tenant) (a b : Nat) (haveA haveB : Bool) : State × Bool × Bool :=
  let addr := fun (role : Nat) => ((((ten s t).own.bind fun r => roleExtent r role).map Extent.addr).getD 0)
  let badA := haveA && areaHit s t a
  let badB := haveB && (badA || !haveA) && areaHit s t b
  let role := roleByte s (a / 2 + 2)
  let s1 := if badA then readFailed s false (addr a) role else s
  let s2 := if badB then readFailed s1 false (addr b) role else s1
  (bump s2, haveA && !badA, haveB && !badB)

/-! ### Control stores (R153, R154) -/

/-- The byte address of the scratchpad word of a golden copy that holds microword `k`. -/
def goldenAddr (bank k : Nat) : Nat := bank * bankBytes + 63 * unitBytes + k / 2 * 8

/-! ### Exchange memory -/

/-- An XM half in service; status index 8 for H0, 9 for H1 (R247). -/
def halfOk (s : State) (h : Nat) : Bool := decide ((memSt s (8 + h)).service = .inService)

/-- The half that holds the event log (R230, R483). -/
def localHalf (s : State) : Nat := if halfOk s 0 then 0 else 1

/-- An XM address in the event log, by its offset there: entry `n` takes slot (n − 1) mod 1,024 (R483; log 9). -/
def logOff (s : State) (a : Nat) : Option Nat :=
  let o := a % halfBytes
  if a / halfBytes = localHalf s ∧ 0x6E000 ≤ o ∧ o < 0x76000 then some (o - 0x6E000) else none

/-- A byte of the event log as XM holds it. -/
def logByte (s : State) (i : Nat) : Byte :=
  match s.obs.log.find? fun e => decide ((e.num.toNat + 1023) % 1024 = i / 32) with
  | some e => e.bytes.getD (i % 32) 0
  | none => 0

/-- What fills a byte of XM: the free values of header and journals, alike in both halves (log 9). -/
def xmBase (s : State) (a : Nat) : Byte :=
  let o := a % halfBytes
  if o < 0x1000 then freeFill (SMap.get 0 s.xmFill 0) o
  else if o < 0x49000 ∧ (o - 0x1000) % 0x12000 < 0x10000 then freeFill (SMap.get 0 s.xmFill (1 + (o - 0x1000) / 0x12000)) o
  else 0

def xmByte (s : State) (a : Nat) : Byte := SMap.get 0 s.xm a ^^^ xmBase s a
def xmRead (s : State) (a n : Nat) : Bytes := (List.range n).map fun i => xmByte s (a + i)
def xmBadAt (s : State) (a n : Nat) : Bool := badIn s.xmBad a n

/-- Write bytes of XM: a borrowed window yields, and the write leaves good parity (R228, R242). -/
def xmWrite (s : State) (a : Nat) (d : Bytes) : State :=
  let s1 := yieldWindow s true a d.length
  { s1 with xm := SMap.writeN 0 s.xm a (d.mapIdx fun i b => b ^^^ xmBase s (a + i)), xmBad := mend s.xmBad a d.length }

/-- Bytes of XM with those of the event log. -/
def xmHeld (s : State) (a n : Nat) : Bytes := (List.range n).map fun i => match logOff s (a + i) with
  | some k => SMap.get 0 s.obs.logRaw k ^^^ logByte s k
  | none => xmByte s (a + i)

/-- A packet writes bytes of XM, those of the event log among them (R483; log 9). -/
def xmPut (s : State) (a : Nat) (d : Bytes) : State :=
  let s1 := xmWrite s a d
  let raw := (List.range d.length).foldl (fun m i => match logOff s (a + i) with
    | some k => SMap.set 0 m k (d.getD i 0 ^^^ logByte s k)
    | none => m) s.obs.logRaw
  { s1 with obs := { s1.obs with logRaw := raw } }

def setXmByte (s : State) (a : Nat) (v : Byte) : State := xmWrite s a [v]

/-- Write bytes of a mirrored region at an offset in the half: both halves in service hold it (R229). -/
def mirrorWrite (s : State) (off : Nat) (d : Bytes) : State :=
  let s1 := if halfOk s 0 then xmWrite s off d else s
  if halfOk s 1 then xmWrite s1 (halfBytes + off) d else s1

/-- A half that serves a read of mirrored bytes: in service, with good parity. -/
def mirrorGood (s : State) (h off n : Nat) : Bool := halfOk s h && !xmBadAt s (h * halfBytes + off) n

/-- Read bytes of a mirrored region: H0, or H1 when H0 is fenced or fails parity (R229, R236). -/
def mirrorRead (s : State) (off n : Nat) : Bytes :=
  if mirrorGood s 0 off n then xmRead s off n else xmRead s (halfBytes + off) n

/-- What a read of a mirrored region leaves: a failure of H0 is counted and logged, and its bytes are rewritten from H1 where
those are good (R235, R236). -/
def mirrorMend (s : State) (off n : Nat) : State :=
  if halfOk s 0 && xmBadAt s off n then
    let s1 := readFailed s true off (roleByte s 8)
    if mirrorGood s 1 off n then repaired (xmWrite s1 off (xmRead s (halfBytes + off) n)) true off else s1
  else s

/-- The device writes to the journal of a tenant and to the XM header: their contents become free, alike in both halves
(R202, R229; log 9). -/
def journalWrite (s : State) (t : Tenant) : State :=
  let n := freshNum s
  let off := 0x1000 + t.val * 0x12000
  let clear := fun (m : SMap Byte) (h : Nat) =>
    SMap.clearRange (SMap.clearRange m (h * halfBytes) 0x1000) (h * halfBytes + off) 0x10000
  bump { s with
    xm := clear (clear s.xm 0) 1, xmFill := SMap.set 0 (SMap.set 0 s.xmFill 0 n) (1 + t.val) n }

/-- Trap frame of tenant `t` (R176, R188, R230). -/
def trapFrame (s : State) (t : Nat) : Nat :=
  (if (ten s (Fin.ofNat 4 t)).frameH1 then halfBytes else 0) + 0x6A000 + t * 0x1000
/-- The first completion record of tenant `t` (R229). -/
def recordOff (t : Nat) : Nat := 0x11000 + t * 0x12000
/-- Result region of tenant `t` (R229). -/
def resultOff (t : Nat) : Nat := 0x49000 + t * 0x8000
/-- Fabric mailbox `m` (R229). -/
def mailboxOff (m : Nat) : Nat := 0x69000 + 64 * m
/-- Migration record (R230). -/
def migrationRec (s : State) : Nat := (if halfOk s 1 then halfBytes else 0) + 0x76000

end Sys2Proof.Machine
end

