-- ==== Sys2Proof/Machine/FieldBase.lean ====
section
/-! DEFINITION. What a field channel shows and drives: IN, VAL, STAT, the causes of R358 and the drive they leave; the status
word of a dike group (R310, R336, R338, R344, R354, R357, R358, R364). -/

namespace Sys2Proof.Machine

/-! ### Modes (R336) -/

def isDout (m : Byte) : Bool := decide (m = 3 ∨ m = 4)
def isPwm (m : Byte) : Bool := decide (m = 9 ∨ m = 10)
/-- Output modes: the digital outputs and PWM. -/
def isOut (m : Byte) : Bool := isDout m || isPwm m
def isHighSide (m : Byte) : Bool := decide (m = 4 ∨ m = 10)
def isAin (m : Byte) : Bool := decide (m = 7 ∨ m = 8)
def isCounter (m : Byte) : Bool := decide (m = 11 ∨ m = 12)
def isDin (m : Byte) : Bool := decide (m = 1 ∨ m = 2)

/-- The channel takes its level from the host image (R344). -/
def hostDriven (x : Fc) : Bool := isDout x.mode && decide (x.source = 1)

/-- The lead channel of a PAIRED partner (R336). -/
def leadOf (s : State) (n : Nat) : Nat :=
  if (fch s n).mode ≠ 13 then n
  else if n % 2 = 1 ∧ (fch s (n - 1)).mode = 5 then n - 1
  else n - n % 4

/-! ### Ownership (R298) -/

/-- The channel and its region have the same owner. -/
def fcAgrees (s : State) (n : Nat) : Bool :=
  match fcOwner s n with
  | some t => decide (regionOwner s (n / 64) = some t)
  | none => false

def regionSt (s : State) (k : Nat) : RegionSt := SMap.get .running s.fab.region k
def regionRuns (s : State) (k : Nat) : Bool := decide (regionSt s k = .running)

/-! ### Causes and drive (R357, R358) -/

/-- The lands of the channel's field die are unpowered or its safe states are not loaded. -/
def fcDead (s : State) : Bool := (!s.sup.feedA && !s.sup.feedB) || !s.field.loaded

/-- OE = 0 from the fabric: only where the mode reads OE and the fabric drives (R338, R344). -/
def oeCause (x : Fc) : Bool := (isOut x.mode || decide (x.mode = 5)) && !hostDriven x && !x.oe

/-- A forced OFF (R351, R352, R356). -/
def forcedOffNow (x : Fc) : Bool := x.forcedOff || x.escalated

/-- The reset or start under way holds the channels safe: not one of causes 5 to 7 (R442, R450). -/
def startHolds (s : State) : Bool := match s.start.mode with
  | .running => false
  | .held c => decide (c < 5 ∨ 7 < c)
  | .starting c => decide (c < 5 ∨ 7 < c)
  | _ => true

/-- A cause that applies the stored safe state. -/
def storedCause (s : State) (n : Nat) : Bool :=
  let x := fch s n
  !fcAgrees s n || oeCause x || (fch s (leadOf s n)).diag.contains 0x05 || ((grp s (n / 16)).faulted && isOut x.mode) ||
    allTenants.any (fun t => (ten s t).abortHold.getLsbD n) || s.field.holdClock || s.field.holdVcore ||
    s.field.holdSleep || !regionRuns s (n / 64) || x.changing ||
    (if n / 256 = 0 then s.field.silenceA else s.field.silenceB) || startHolds s

/-- STAT[15]: some cause of R358 is present. -/
def anyCause (s : State) (n : Nat) : Bool := storedCause s n || forcedOffNow (fch s n) || fcDead s

/-- What the land's driver does; `pwm` is a running period of R343. -/
inductive Drive where
  | off | low | high | pwm
  deriving DecidableEq, Repr

/-- The stored safe state by mode (R357). -/
def safeDrive (x : Fc) : Drive :=
  if isHighSide x.mode then (if x.safe = 2 then .high else .off)
  else if isOut x.mode || decide (x.mode = 5) then
    (if x.safe = 2 then .high else if x.safe = 1 then .low else .off)
  else .off

/-- The on-time of a PWM period, in units of 16 ns: round(PWM_PERIOD × DUTY / 65,536) (R343). -/
def pwmOn (x : Fc) : Nat :=
  if x.dutyNow = 0xFFFF then x.pwmNow.toNat else (2 * x.pwmNow.toNat * x.dutyNow.toNat + 65536) / 131072

/-- The fabric time at which the next PWM period begins (R343). -/
def pwmNext (x : Fc) : DWord := x.pwmFrom + BitVec.ofNat 64 (16 * x.pwmNow.toNat)

/-- The level of a running PWM output at device time `t`: high, or on, for the on-time at the start of its period (R343). -/
def pwmHigh (x : Fc) (t : DWord) : Bool := decide (t.toNat < x.pwmFrom.toNat + 16 * pwmOn x)

/-- The drive while no cause is present (R338, R343, R344, R353): a PWM period with an off-time and an on-time is `pwm`. -/
def normalDrive (s : State) (n : Nat) : Drive :=
  let x := fch s n
  let lvl := if hostDriven x then (SMap.get 0 s.field.dout (n / 8)).getLsbD (n % 8) else x.out
  let ofLvl := fun (b : Bool) => if b then Drive.high else if isHighSide x.mode then .off else .low
  if isDout x.mode then ofLvl lvl
  else if isPwm x.mode then
    if pwmOn x = 0 then ofLvl false else if x.pwmNow.toNat ≤ pwmOn x then ofLvl true else .pwm
  else if x.mode = 5 then ofLvl (x.out != x.swapped)
  else .off

/-- The drive of a land: forced OFF before the stored safe state, and that before normal drive (R358). -/
def landDrive (s : State) (n : Nat) : Drive :=
  let x := fch s n
  if fcDead s || forcedOffNow x then .off
  else if storedCause s n then safeDrive x
  else normalDrive s n

/-! ### Ports (R310, R338) -/

/-- IN: the filtered level, the readback of an output, the received level, A or B of an encoder. -/
def fcIn (s : State) (n : Nat) : Bool :=
  let x := fch s n
  if isDin x.mode || isCounter x.mode || isOut x.mode || decide (x.mode = 6) then x.level
  else if x.mode = 5 then x.level != x.swapped
  else if x.mode = 13 ∧ n % 4 = 2 ∧ (fch s (n - 2)).mode = 6 then (fch s (n - 2)).encB
  else false

/-- VAL: counts, position, code, or the measured output current, which is free (log 6). -/
def fcVal (s : State) (n : Nat) : Half :=
  let x := fch s n
  if isDin x.mode || isCounter x.mode || isAin x.mode || decide (x.mode = 6) then x.val
  else if isOut x.mode then Config.outputCurrent n s.time.toNat
  else 0

/-- The codes of R354 in rank order. -/
def diagRank : List Byte := [0x13, 0x07, 0x01, 0x02, 0x05, 0x03, 0x04, 0x0A, 0x10, 0x11, 0x08, 0x09, 0x06]

/-- Codes with FAULT = 1. -/
def diagFault (c : Byte) : Bool := ([0x13, 0x07, 0x01, 0x02, 0x05, 0x03, 0x04, 0x0A, 0x10, 0x11] : List Byte).contains c

/-- The diagnoses present in a channel, its group's among them. -/
def fcDiags (s : State) (n : Nat) : List Byte :=
  let g := grp s (n / 16)
  (if g.faulted then [0x13] else []) ++ (if g.spsOverload then [0x10] else []) ++ (if g.spsReverse then [0x11] else []) ++
    (fch s n).diag

def fcCode (s : State) (n : Nat) : Byte := (diagRank.find? fun c => (fcDiags s n).contains c).getD 0

/-- STAT: [15] SAFE, [14] FAULT, [7:0] the code of highest rank. -/
def fcStat (s : State) (n : Nat) : Half :=
  (if anyCause s n then 0x8000#16 else 0) ||| (if diagFault (fcCode s n) then 0x4000 else 0) ||| (fcCode s n).zeroExtend 16

/-! ### Dike groups (R346, R363, R364) -/

/-- TEMP of a group, updated every 1 ms. -/
def dieTemp (s : State) (g : Nat) : Half := BitVec.ofInt 16 ((Config.dieTemp g (s.time.toNat / 1000000)).val - 40)

/-- The group's ADC scan: its channels in modes 7 and 8. -/
def adcScan (s : State) (g : Nat) : List Nat := (List.range 16).filter fun q => isAin (fch s (16 * g + q)).mode

/-- A 16-bit mask of the positions that satisfy a test. -/
def posMask (f : Nat → Bool) : Half :=
  (List.range 16).foldl (fun m q => if f q then m ||| (1#16 <<< q) else m) 0

def spsCode (g : Group) : Nat := if g.spsOverload then 2 else if g.spsReverse then 3 else if g.spsEnable = 0 then 0 else 1

def groupStatus (s : State) (g : Nat) : Word :=
  let x := grp s g
  BitVec.ofNat 32 (x.faults.toNat * 2 ^ 24 + x.cause.toNat * 4096 + spsCode x * 256 + x.faulted.toNat)

end Sys2Proof.Machine
end

