-- ==== Sys2Proof/Machine/FabBase.lean ====
section
/-! DEFINITION. The fabric's routing and ports: segments and their sources, select bytes, the values that cell and port inputs
read, system lines, capture buffers and the drive that interface cells take (R297–R313, R331, R332). -/

namespace Sys2Proof.Machine

/-! ### Segments (R304, R305) -/

/-- A segment: start box, orientation, class and track. -/
structure Seg where
  row : Nat
  col : Nat
  vert : Bool
  cls : Nat
  trk : Nat
  deriving DecidableEq, Repr

/-- Boxes joined by class. -/
def segJoin (cls : Nat) : Nat := [2, 4, 16, 2, 4].getD cls 1
def segTracks (cls : Nat) : Nat := [4, 4, 2, 4, 4].getD cls 0
def clsWord (cls : Nat) : Bool := decide (cls ≤ 2)

/-- Bits [31:15] of the segment ID. -/
def Seg.key (g : Seg) : Nat := (((g.row * 32 + g.col) * 2 + g.vert.toNat) * 8 + g.cls) * 4 + g.trk
def Seg.id (g : Seg) : Nat := g.key * 32768
def Seg.ofKey (k : Nat) : Seg := ⟨k / 2048, k / 64 % 32, decide (k / 32 % 2 = 1), k / 4 % 8, k % 4⟩

def Seg.farRow (g : Seg) : Nat := if g.vert then g.row + segJoin g.cls - 1 else g.row
def Seg.farCol (g : Seg) : Nat := if g.vert then g.col else g.col + segJoin g.cls - 1

/-- A segment exists: class, track, start position, and a far box on the fabric (R304). -/
def Seg.exists (g : Seg) : Bool :=
  decide (g.cls ≤ 4 ∧ g.trk < segTracks g.cls ∧ g.row < 64 ∧ g.col < 32 ∧ g.farRow < 64 ∧ g.farCol < 32) &&
    (decide (segJoin g.cls = 2) || decide ((if g.vert then g.row else g.col) % segJoin g.cls = 0)) &&
    (g.vert || decide (segJoin g.cls ≠ 2) || decide (g.col % 4 ≠ 3))

/-- A horizontal W16 crosses regions: a bridge segment. -/
def Seg.bridge (g : Seg) : Bool := decide (g.cls = 2) && !g.vert

/-! ### Sources and selects (R306, R307) -/

/-- The segment of a class and track that reaches a box from a direction: 0 west, 1 south, 2 east, 3 north. It is formed
whether or not it exists. -/
def segFrom (r c cls trk dir : Nat) (vert : Bool) : Seg :=
  let back := segJoin cls - 1
  ⟨if dir = 1 then (r + 64 - back) % 64 else r, if dir = 0 then (c + 32 - back) % 32 else c, vert, cls, trk⟩

/-- The segment that a select byte names at a box. Between its ends a segment arrives from either side (log 19). -/
def selSeg (r c : Nat) (b : Byte) : Seg :=
  let v := b.toNat
  let cls := v / 32
  let vert := decide (v % 2 = 1)
  let dir := v / 2 % 4
  let n := segJoin cls
  let x := (if vert then r else c) % n
  if n ≠ 2 ∧ dir % 2 = v % 2 ∧ 0 < x ∧ x < n - 1 then
    ⟨if vert then r - x else r, if vert then c else c - x, vert, cls, v / 8 % 4⟩
  else segFrom r c cls (v / 8 % 4) dir vert

/-- A select byte names a segment that exists: its direction agrees with its orientation. -/
def selOk (r c : Nat) (b : Byte) : Bool :=
  decide (b.toNat % 2 = b.toNat / 2 % 2) && (selSeg r c b).exists

/-- The box that drives a segment (END). -/
def driveRow (g : Seg) (code : Nat) : Nat := if code.testBit 11 then g.farRow else g.row
def driveCol (g : Seg) (code : Nat) : Nat := if code.testBit 11 then g.farCol else g.col

/-- The feeding segment of a continuation. -/
def feedSeg (g : Seg) (code : Nat) : Seg :=
  let dir := code / 16 % 4
  segFrom (driveRow g code) (driveCol g code) (code / 256 % 8) (code / 64 % 4) dir (decide (dir % 2 = 1))

def segCode (cfg : FabCfg) (g : Seg) : Nat := (SMap.get 0 cfg.segs g.key).toNat

/-! ### Cells and ports -/

def cellCfg (s : State) (r c : Nat) : CellCfg := SMap.get CellCfg.null s.fab.cfg.cells (32 * r + c)
def cell (s : State) (r c : Nat) : Cell := SMap.get Cell.zero s.fab.cells (32 * r + c)
def setCell (s : State) (r c : Nat) (v : Cell) : State :=
  { s with fab := { s.fab with cells := SMap.set Cell.zero s.fab.cells (32 * r + c) v } }

/-- O and T of a cell as seen in fc `f`: before the entry it executes in that fc (R303). -/
def cellO (s : State) (r c f : Nat) : Half := if f < (cell s r c).last then (cell s r c).prevO else (cell s r c).o
def cellT (s : State) (r c f : Nat) : Bool := if f < (cell s r c).last then (cell s r c).prevT else (cell s r c).t

/-- Two regions have one owner; an unowned region is an owner of its own (R309). -/
def sameOwner (s : State) (j k : Nat) : Bool :=
  decide (j = k) || ((regionOwner s j).isSome && decide (regionOwner s j = regionOwner s k))

/-- The host channel of a tenant: that of its record, unless a move overrides it (R395, R412). -/
def channelOf (s : State) (t : Tenant) : Option HostCh :=
  match (ten s t).own with
  | some r => some ((ten s t).movedTo.getD r.channel)
  | none => none

/-- DATA of the mailbox port of region `k` in fc `f` (R313). -/
def mbWord (s : State) (k f : Nat) : Half :=
  let d := SMap.get (0, 0, 0) s.fab.mbData k
  if d.1 ≤ f then d.2.1 else d.2.2

/-- A port at a box in fc `f` (R310); a held or stopped region's ports deliver nothing. -/
def portVal (s : State) (r c code f : Nat) : Nat :=
  let k := c / 4
  if !regionRuns s k then 0
  else if code ≤ 2 then
    let n := 64 * k + r
    if c % 4 ≠ 0 ∨ fcAgrees s n = false then 0
    else if code = 0 then (fcIn s n).toNat
    else if code = 1 then (fcVal s n).toNat
    else (fcStat s n).toNat
  else if code = 0x10 then
    let seen := s.fab.pulses.contains (r, f)
    let mine := match regionOwner s k with
      | some t => (match (ten s t).own with
        | some o => if r < 8 then o.cams.getLsbD r else decide ((channelOf s t).map Fin.val = some ((r - 8) / 2))
        | none => false)
      | none => false
    (seen && mine).toNat
  else if code = 0x20 then (mbWord s k f).toNat
  else if code = 0x30 then
    let x := SMap.get (0, 0) s.fab.rxd (if k = 0 then 0 else 1)
    x.2.toNat + 256 * (decide (x.1 = f ∧ f ≠ 0)).toNat
  else 0

/-- The value of a segment as region `rk` reads it in fc `f` (R306, R309, R321); a path has at most four segments (R308). -/
def segVal (s : State) (rk f : Nat) : Nat → Seg → Nat
  | 0, _ => 0
  | n + 1, g =>
    let code := segCode s.fab.cfg g
    let r := driveRow g code
    let c := driveCol g code
    let dk := c / 4
    if g.bridge && !sameOwner s dk rk then 0
    else if g.bridge && decide (regionSt s dk = .held) then (SMap.get 0 s.fab.bridgeHeld g.key).toNat
    else match code / 4096 with
      | 1 => if clsWord g.cls then (cellO s r c f).toNat else (cellT s r c f).toNat
      | 2 => segVal s rk f n (feedSeg g code)
      | 3 => portVal s r c (code % 256) f
      | _ => 0

/-- The value that a select byte gives at a box in fc `f`. -/
def selVal (s : State) (r c f : Nat) (b : Byte) : Nat :=
  if b = 0xFF ∨ selOk r c b = false then 0 else segVal s (c / 4) f 5 (selSeg r c b)

/-! ### Fabric cycles -/

/-- The ratio of the fabric clock to FAB_MHZ; a ramp up stands at /3, /2, /1 and a ramp down at /2, /3, /4 (R424). -/
def fabRatio (s : State) : Nat := match s.fab.clk with
  | .full => 1
  | .ramping true k => 3 - k.val
  | .ramping false k => 2 + k.val
  | _ => 4

/-- The ticks of one fc (R8, R297, R314, R424). -/
def fcTicks (s : State) : Nat := match s.fab.clk with
  | .fosc => 16 * nsTicks
  | _ => fabRatio s * usTicks / s.clk.now.fab.toNat

/-- Device time at the next edge of the fabric clock. -/
def nextEdge (s : State) : DWord := s.time + BitVec.ofNat 64 ((s.fab.fcPhase + fcTicks s) / nsTicks)

/-- ENC_ERROR codes end with their fc (R354). -/
def endEncErrors (s : State) : State :=
  (s.field.ch.filter fun e => e.2.diag.contains 0x09).foldl
    (fun u e => modFch u e.1 fun x => { x with diag := x.diag.filter fun c => decide (c ≠ 0x09) }) s

/-- The next fc begins: its one-fc ports (R310) and ENC_ERROR codes (R354) end with the fc before. -/
def nextFc (s : State) : State :=
  let s0 := endEncErrors s
  { s0 with
    time := nextEdge s
    fab := { s.fab with fc := s.fab.fc + 1, fcPhase := (s.fab.fcPhase + fcTicks s) % nsTicks, pulses := s.fab.pulses.filter fun p => decide (s.fab.fc + 1 ≤ p.2) } }

/-- An event port is high in the fc that begins at the second edge from now (R310). -/
def pulsePort (s : State) (row : Nat) : State :=
  { s with fab := { s.fab with pulses := (row, s.fab.fc + 2) :: s.fab.pulses } }

/-! ### Ports that take from the fabric -/

/-- The box of a PORTIN record (R310, R318). -/
def portBox (p : Nat) : Nat × Nat :=
  if p < 0x200 then (p % 64, 4 * (p / 64))
  else if p < 0x208 then (63, 4 * (p - 0x200) + 2)
  else (62, if p = 0x210 then 2 else 30)

/-- The edge of an fc at which PWM channels begin or leave drive (R343). -/
def pwmEdge (s : State) (n : Nat) : State :=
  let x := fch s n
  if !isPwm x.mode then (if x.pwmRunning then setFch s n { x with pwmRunning := false } else s)
  else if anyCause s n then (if x.pwmRunning then setFch s n { x with pwmRunning := false } else s)
  else if x.pwmRunning then s
  else setFch s n { x with pwmRunning := true, pwmNow := x.pwmPeriod, dutyNow := x.duty, pwmFrom := nextEdge s }

/-- One interface cell takes OUT, OE and DUTY; a rising edge of DUTY bit 0 clears a counter (R298, R338). -/
def sampleFc (s : State) (n : Nat) : State :=
  let sel := SMap.get (0xFF, 0xFF, 0xFF) s.fab.cfg.ports n
  let b := portBox n
  let f := s.fab.fc + 1
  let live := fcAgrees s n && regionRuns s (n / 64)
  let x := fch s n
  let out := live && decide (selVal s b.1 b.2 f sel.1 % 2 = 1)
  let oe := live && decide (selVal s b.1 b.2 f sel.2.1 % 2 = 1)
  let duty : Half := if live then BitVec.ofNat 16 (selVal s b.1 b.2 f sel.2.2) else 0
  let clr := isCounter x.mode && duty.getLsbD 0 && !x.duty.getLsbD 0
  setFch s n { x with out := out, oe := oe, duty := duty, val := if clr then 0 else x.val }

/-- The mailbox port of a region answers its ADDR of the fc that begins, at the edge after it (R313). -/
def sampleMailbox (s : State) (k : Nat) : State :=
  let sel := SMap.get (0xFF, 0xFF, 0xFF) s.fab.cfg.ports (0x200 + k)
  let a := selVal s 63 (4 * k + 2) (s.fab.fc + 1) sel.1
  if !regionRuns s k ∨ sel.1 = 0xFF then s
  else
    let w := SMap.get 0 s.fab.mailbox (32 * (8 * k + a / 32 % 8) + a % 32)
    { s with fab := { s.fab with mbData := SMap.set (0, 0, 0) s.fab.mbData k (s.fab.fc + 2, w, mbWord s k (s.fab.fc + 1)) } }

/-- A serial port takes TXD of the fc that begins, once: with the strobe, its byte is sent, unless the port is off (R310, R316). -/
def sampleTxd (s : State) (port : Nat) : State :=
  let sel := SMap.get (0xFF, 0xFF, 0xFF) s.fab.cfg.ports (0x210 + port)
  let b := portBox (0x210 + port)
  let f := s.fab.fc + 1
  let v := selVal s b.1 b.2 f sel.1
  if !regionRuns s (7 * port) || decide ((SMap.get 0 s.fab.serialMode port).toNat % 4 = 0 ∨ v.testBit 8 = false ∨
      SMap.get 0 s.fab.txFc port = f) then s
  else { s with fab := { s.fab with
    txFc := SMap.set 0 s.fab.txFc port f
    txd := SMap.set [] s.fab.txd port (SMap.get [] s.fab.txd port ++ [BitVec.ofNat 8 v])
    txOpen := SMap.set 0 s.fab.txOpen port (SMap.get 0 s.fab.txOpen port + 1) } }

/-- Every port input samples at a fabric edge; outside an interface cell's grant its drive reads 0 (R298). -/
def fabEdge (s : State) : State :=
  let s1 := s.fab.cfg.ports.foldl (fun u e =>
    if e.1 < 0x200 then sampleFc u e.1 else if e.1 < 0x208 then sampleMailbox u (e.1 - 0x200) else sampleTxd u (e.1 - 0x210)) s
  let s2 := s1.field.ch.foldl (fun u e =>
    if (e.2.out || e.2.oe || decide (e.2.duty ≠ 0)) && decide (SMap.get (0xFF, 0xFF, 0xFF) s.fab.cfg.ports e.1 = (0xFF, 0xFF, 0xFF))
    then modFch u e.1 fun x => { x with out := false, oe := false, duty := 0 } else u) s1
  s2.field.ch.foldl (fun u e => pwmEdge u e.1) s2

/-! ### Lines (R311) -/

/-- The level of a system line: the driving register, 0 while the region is not running or not the grantee's. -/
def lineVal (s : State) (l : Nat) : Bool :=
  match SMap.get none s.fab.cfg.lines l with
  | none => false
  | some d =>
    let k := d.col / 4
    let own := regionOwner s k
    let ok := if l < 0x40 then own.isSome && decide (lineOwner s l = own)
      else if l < 0x44 then decide (own.map Fin.val = some (l - 0x40))
      else decide (own = some 0)
    regionRuns s k && ok && (if d.bit0 then (cell s d.row d.col).o.getLsbD 0 else (cell s d.row d.col).t)

/-- Lines that have gone low follow at once; a fall is no event. -/
def fallLines (s : State) : State :=
  { s with fab := { s.fab with lineLevel := s.fab.lineLevel.filter fun e => e.2 && lineVal s e.1 } }

/-! ### Holds (R299, R320–R323) -/

/-- The null configuration of one region (R299, R318). -/
def nullRegion (g : FabCfg) (k : Nat) : FabCfg :=
  { cells := g.cells.filter fun e => decide (e.1 % 32 / 4 ≠ k)
    segs := g.segs.filter fun e => decide (driveCol (Seg.ofKey e.1) e.2.toNat / 4 ≠ k)
    lines := g.lines.filter fun e => match e.2 with
      | some d => decide (d.col / 4 ≠ k)
      | none => true
    ports := g.ports.filter fun e => decide ((portBox e.1).2 / 4 ≠ k) }

/-- GSR or a local GSR of a region: its flip-flops are held at 0, its lines read 0, its ports deliver nothing, and bridge
segments driven from it hold their last value. -/
def holdRegion (s : State) (k : Nat) : State :=
  let held := s.fab.cfg.segs.foldl (fun m e =>
    let g := Seg.ofKey e.1
    if g.bridge && decide (driveCol g e.2.toNat / 4 = k) then
      SMap.set 0 m e.1 (BitVec.ofNat 16 (segVal s k s.fab.fc 5 g)) else m) s.fab.bridgeHeld
  fallLines { s with fab := { s.fab with
    bridgeHeld := held, region := SMap.set .running s.fab.region k .held, mbData := SMap.set (0, 0, 0) s.fab.mbData k (0, 0, 0)
    cells := s.fab.cells.filter fun e => decide (e.1 % 32 / 4 ≠ k) } }

/-- Every region that owes its null configuration is held (R299, R322); the loads follow one after the other (R323). -/
def startOwed (s : State) : State :=
  let s1 := s.fab.owed.foldl (fun u k => if regionSt u k.val = .held then u else holdRegion u k.val) s
  if s.fab.owed.isEmpty then s1 else { s1 with fab := { s1.fab with loadState := 2 } }

/-- The flip-flops of a configured cell at a release. -/
def CellCfg.start (x : CellCfg) (fc : Nat) : Cell := ⟨x.sc, x.q, x.o, x.t, false, false, false, false, fc, 0, false, false⟩

/-- The release of a region at one fc edge: every flip-flop takes its initial value. -/
def releaseRegion (s : State) (k : Nat) : State :=
  let cells := s.fab.cfg.cells.foldl (fun m e =>
    if e.1 % 32 / 4 = k then SMap.set Cell.zero m e.1 (e.2.start s.fab.fc) else m)
    (s.fab.cells.filter fun e => decide (e.1 % 32 / 4 ≠ k))
  { s with fab := { s.fab with
      cells := cells, region := SMap.set .running s.fab.region k .running
      bridgeHeld := s.fab.bridgeHeld.filter fun e =>
        decide (driveCol (Seg.ofKey e.1) (SMap.get 0 s.fab.cfg.segs e.1).toNat / 4 ≠ k) } }

/-! ### Capture (R331, R332) -/

/-- The 12 bytes of a cell. -/
def Cell.bytes (x : Cell) : Bytes :=
  (List.range 4).flatMap (fun i => leBytes 2 (x.q.getD i 0).toNat) ++ leBytes 2 x.o.toNat ++
    [BitVec.ofNat 8 (x.t.toNat + 2 * x.sc.toNat + 16 * x.z.toNat + 32 * x.n.toNat + 64 * x.cy.toNat + 128 * x.v.toNat), 0]

/-- Store a copy of one region: zeros while it is held, and the overwrite bit where an unread copy stood. -/
def captureRegion (s : State) (k : Nat) : State :=
  let held := decide (regionSt s k = .held)
  let data := (List.range 64).flatMap fun r => (List.range 4).flatMap fun c =>
    if held then List.replicate 12 0 else (cell s r (4 * k + c)).bytes
  let old := s.fab.captureState
  let st := (old ||| (1#16 <<< k)) ||| (if held || old.getLsbD k then 1#16 <<< (k + 8) else 0)
  { s with fab := { s.fab with captured := SMap.set [] s.fab.captured k data, captureState := st } }

end Sys2Proof.Machine
end

