-- ==== Sys2Proof/Machine/Mesh.lean ====
section
/-! DEFINITION. Flits, the queues and credits of the mesh, routing and arbitration (R248, R252, R253, R257–R264, R272–R274). -/

namespace Sys2Proof.Machine

/-! ### Flits (R252) -/

/-- The header flit of a packet. -/
def pktHeader (p : Pkt) : BitVec 256 :=
  BitVec.ofNat 256 (p.resHi.toNat * 2 ^ 128 + p.hver.toNat * 2 ^ 124 + p.vc.toNat * 2 ^ 122 + p.ty.toNat * 2 ^ 118 +
    p.len.toNat * 2 ^ 112 + p.dx.toNat * 2 ^ 109 + p.dy.toNat * 2 ^ 107 + p.dp.toNat * 2 ^ 106 + p.sx.toNat * 2 ^ 103 +
    p.sy.toNat * 2 ^ 101 + p.sp.toNat * 2 ^ 100 + p.ten.val * 2 ^ 98 + p.dev.toNat * 2 ^ 97 + p.dor.toNat * 2 ^ 96 +
    p.tid.toNat * 2 ^ 84 + p.sn.toNat * 2 ^ 76 + p.res75.toNat * 2 ^ 75 + p.nbytes.toNat * 2 ^ 64 + p.status.toNat * 2 ^ 48 +
    p.res47.toNat * 2 ^ 32 + p.addr.toNat)

/-- A destination that holds PE memory: its data begin with byte 0 of the first flit (R256). -/
def tilePort (n : NiId) : Bool := decide (n.val ∈ [0, 2, 4, 6, 8, 14, 16, 18, 20, 26, 28, 30, 32, 38, 40, 42, 44])

/-- The data flits of a packet whose data begin at byte `off` of the first one. -/
def dataFlits (p : Pkt) (off : Nat) : List (BitVec 256) :=
  let d := List.replicate off 0 ++ p.data
  (List.range p.len.toNat).map fun i => BitVec.ofNat 256 (leAt d (32 * i) 32)

/-- The odd-parity bits of a flit, one for each byte. -/
def flitParity (f : BitVec 256) : BitVec 32 :=
  BitVec.ofNat 32 ((List.range 32).foldr (fun i acc =>
    2 * acc + (1 + ((List.range 8).filter fun b => f.getLsbD (8 * i + b)).length) % 2) 0)

/-! ### Types and channels (R253, R257) -/

def tyRead : BitVec 4 := 1
def tyWrite : BitVec 4 := 2
def tyReadResp : BitVec 4 := 3
def tyWriteResp : BitVec 4 := 4
def tyNack : BitVec 4 := 5
def tyError : BitVec 4 := 6
def tyClear : BitVec 4 := 7
def tyControl : BitVec 4 := 8

/-- The virtual channels on which the block of an interface sends requests: sequencers, housekeeping pairs and host-channel bridges
VC0, ingest VC3, the service complex VC2 and VC3, sequencers VC2 for checkpoint journal updates; a memory or a tile sends none, and
for the fabric no channel is named, so both kinds of request are taken (R257; log 65). -/
def requestVcs (n : NiId) : List (BitVec 2) :=
  if n.val ∈ [5, 9, 15, 19, 29] then [0, 2]
  else if n.val ∈ [1, 11, 13, 23, 24, 34] then [0]
  else if n.val ∈ [25, 35] then [3]
  else if n.val ∈ [37, 47] then [2, 3]
  else if n.val ∈ [36, 46] then [0, 3]
  else []

/-! ### Routers and links (R248, R273) -/

def dirBit : Dir → Nat
  | .north => 0
  | .east => 1
  | .south => 2
  | .west => 3
def dirBack : Dir → Dir
  | .north => .south
  | .south => .north
  | .east => .west
  | .west => .east
def isVertical : Dir → Bool
  | .north => true
  | .south => true
  | _ => false

/-- The router in a direction. -/
def neighbour (r : Nat) : Dir → Option Nat
  | .north => if r < 18 then some (r + 6) else none
  | .south => if 6 ≤ r then some (r - 6) else none
  | .east => if r % 6 < 5 then some (r + 1) else none
  | .west => if 0 < r % 6 then some (r - 1) else none

/-- A router that is fenced or has failed: its bypass lanes join its mesh ports in straight pairs. -/
def gone (s : State) (r : Nat) : Bool := decide ((rtr s r).service = .fenced ∨ (rtr s r).service = .failed)

/-- The router at which a packet that leaves `r` in a direction comes to a switch, through any bypass lanes. -/
def beyond (s : State) : Nat → Nat → Dir → Option Nat
  | 0, _, _ => none
  | n + 1, r, d => match neighbour r d with
    | some k => if gone s k then beyond s n k d else some k
    | none => none

/-! ### Queues and credits (R258, R259) -/

/-- Flits of one virtual channel in the input queue of a router's port. -/
def queueFlits (s : State) (r p : Nat) (vc : BitVec 2) : Nat :=
  ((s.noc.mesh.filter fun f => decide (f.vc = vc)).flatMap fun f =>
    (f.hops.filter fun h => decide (h.1 = r ∧ h.2.1 = p)).map fun h => h.2.2).foldl (· + ·) 0

/-- The credits that the sender holds for a queue. -/
def credits (s : State) (r p : Nat) (vc : BitVec 2) : Nat := 8 - queueFlits s r p vc

/-- Flits queued in a virtual channel over all inputs of a router (R481). -/
def routerFlits (s : State) (r : Nat) (vc : BitVec 2) : Nat := ((List.range 6).map fun p => queueFlits s r p vc).foldl (· + ·) 0

/-- Every input queue of a router is empty (R272). -/
def routerEmpty (s : State) (r : Nat) : Bool := s.noc.mesh.all fun f => f.hops.all fun h => decide (h.1 ≠ r)

/-- A packet still crosses the link into a queue: its tail has not come in, and it holds the output's channel (R259). -/
def crossing (f : Flight) (r p : Nat) : Bool :=
  match f.hops.findIdx? fun h => decide (h.1 = r ∧ h.2.1 = p) with
  | some i => decide (((f.hops.take (i + 1)).map fun h => h.2.2).foldl (· + ·) 0 < f.flits)
  | none => false

/-- A header of flight `f` can come into a queue: the router takes new headers, its port is enabled, the sender holds a credit, and
no other packet holds the channel. -/
def canEnter (s : State) (f : Flight) (r p : Nat) : Bool :=
  decide ((rtr s r).service = .inService) && (rtr s r).enables.getLsbD p && decide (0 < credits s r p f.vc) &&
    s.noc.mesh.all fun g => !(decide (g.vc = f.vc ∧ g ≠ f) && crossing g r p)

/-! ### Routing (R261–R263, R274) -/

/-- How far a router lies from another in a direction. -/
def ahead (r d : Nat) : Dir → Nat
  | .north => d / 6 - r / 6
  | .south => r / 6 - d / 6
  | .east => d % 6 - r % 6
  | .west => r % 6 - d % 6

/-- The outputs that R261 permits at router `r` for destination router `d` in the router's mode: first every hop of the first
direction, then minimal hops. A first phase that would end in a fenced router, with the destination in another row, goes on through
the bypass (R274). -/
def phaseOuts (s : State) (r d : Nat) : List Dir :=
  let first : Dir := if (rtr s r).mode then .east else .west
  if 0 < ahead r d first then [first]
  else [Dir.north, .south, dirBack first].filter fun e => decide (0 < ahead r d e)

/-- The outputs permitted at router `r`: with DOR the x hops first, unless the turning router is fenced (R263). -/
def permitted (s : State) (r d : Nat) (dor : Bool) : List Dir :=
  let turn := r / 6 * 6 + d % 6
  if dor && !(gone s turn && decide (turn ≠ d ∧ turn ≠ r)) then
    if r % 6 = d % 6 then [Dir.north, .south].filter fun e => decide (0 < ahead r d e)
    else [Dir.east, .west].filter fun e => decide (0 < ahead r d e)
  else phaseOuts s r d

/-- After this output the packet would have to turn inside a fenced router: the last of the fenced routers in a row is where its
offset in that direction ends, and another offset remains (R262 step 2). The first phase is excepted (R274). -/
def turnsInside (s : State) (d : Nat) (e : Dir) : Nat → Nat → Bool
  | 0, _ => false
  | n + 1, r => match neighbour r e with
    | some k => gone s k && (decide (ahead k d e = 0) || turnsInside s d e n k)
    | none => false

/-- The output that a router chooses of those permitted (R262): none into a router in QUIESCE or FENCED, and none that leads to a
turn inside a fenced router, while another is left; then by credits, the larger remaining offset, and north or south. -/
def chooseOut (s : State) (r : Nat) (f : Flight) : Option Dir :=
  let d := f.dst.val / 2
  let x := rtr s r
  let l0 := (permitted s r d f.dor).filter fun e => x.enables.getLsbD (dirBit e)
  let l1 := l0.filter fun e => !(x.quiesced ||| x.fencedNbrs).getLsbD (dirBit e)
  let l2 := if l1 = [] then l0 else l1
  let first : Dir := if x.mode then .east else .west
  let l3 := l2.filter fun e => decide (e = first) || !turnsInside s d e 6 r
  let key := fun (e : Dir) =>
    let c := match beyond s 6 r e with
      | some k => credits s k (dirBit (dirBack e)) f.vc
      | none => 0
    (c * 8 + ahead r d e) * 2 + (isVertical e).toNat
  l3.foldl (fun (best : Option Dir) e => match best with
    | some b => if key b < key e then some e else some b
    | none => some e) none

/-! ### Movement (R258, R259, R264) -/

/-- What a packet can do next. -/
inductive Move where
  | stay
  | enter (router port output : Nat)
  | arrive (output : Nat)
  deriving DecidableEq, Repr

/-- Packets of one source, destination and channel are in order by SN (R264). -/
def snBefore (a b : BitVec 8) : Bool := decide (a ≠ b ∧ (b - a).toNat < 128)

def sameOrder (f g : Flight) : Bool := decide (f.src = g.src ∧ f.dst = g.dst ∧ f.vc = g.vc)

/-- Packets of one order that are in flight; the source keeps at most 16 (R264). -/
def inFlight (s : State) (f : Flight) : Nat := (s.noc.mesh.filter fun g => sameOrder f g && decide (g.hops ≠ [])).length

/-- Another packet stands before the header of `f` in its queue. -/
def blockedIn (s : State) (f : Flight) (r p : Nat) : Bool := s.noc.mesh.any fun g =>
  decide (g ≠ f ∧ g.vc = f.vc) && (match g.hops with
    | (a, b, _) :: rest => (decide (a = r ∧ b = p ∧ g.entered < f.entered)) || rest.any fun h => decide (h.1 = r ∧ h.2.1 = p)
    | [] => false)

/-- The move of a packet: out of its source in issue order, through the output that its router chooses, or into its destination. -/
def moveOf (s : State) (f : Flight) : Move :=
  match f.hops with
  | [] =>
    let r := f.src.val / 2
    if !gone s r && decide (inFlight s f < 16) && canEnter s f r (4 + f.src.val % 2) &&
        !(s.noc.mesh.any fun g => sameOrder f g && decide (g.hops = []) && snBefore g.sn f.sn) then
      .enter r (4 + f.src.val % 2) (144 + f.src.val) else .stay
  | (r, p, _) :: _ =>
    if blockedIn s f r p then .stay
    else if r = f.dst.val / 2 then .arrive (6 * r + 4 + f.dst.val % 2)
    else match chooseOut s r f with
      | some e => (match beyond s 6 r e with
        | some k => if canEnter s f k (dirBit (dirBack e)) then .enter k (dirBit (dirBack e)) (6 * r + dirBit e) else .stay
        | none => .stay)
      | none => .stay

def Move.output : Move → Option Nat
  | .stay => none
  | .enter _ _ o => some o
  | .arrive o => some o

/-- The channel that an output serves next of those that ask: VC2, else the first after the last one served in the order 0, 1, 3. -/
def nextVc (last : Nat) (asked : List Nat) : Nat :=
  if asked.contains 2 then 2
  else (([0, 1, 3].filter fun v => decide (last < v)) ++ [0, 1, 3]).find? (asked.contains ·) |>.getD 0

/-- The packet that moves next: of those that can move through the output of the oldest such VC2 packet, or else of the oldest such
packet, the oldest of the channel that the output serves (R259). -/
def nextFlight (s : State) : Option (Flight × Move) :=
  let ready := (s.noc.mesh.map fun f => (f, moveOf s f)).filter fun m => decide (m.2 ≠ .stay)
  let head := match ready.find? fun m => decide (m.1.vc = 2) with
    | some m => some m
    | none => ready.head?
  match head with
  | none => none
  | some h =>
    let asked := ready.filter fun m => decide (m.2.output = h.2.output)
    let vc := nextVc (SMap.get 4 s.noc.served ((h.2.output).getD 0)) (asked.map fun m => m.1.vc.toNat)
    asked.find? fun m => decide (m.1.vc.toNat = vc)

/-- The flits of a packet move up behind its header as far as credits allow. -/
def compact (s : State) (vc : BitVec 2) : Nat → List (Nat × Nat × Nat) → List (Nat × Nat × Nat)
  | _, [] => []
  | left, (r, p, n) :: rest =>
    if left = 0 then []
    else
      let k := Nat.min left (n + credits s r p vc)
      (r, p, k) :: compact s vc (left - k) rest

def setFlight (s : State) (f g : Flight) : State :=
  { s with noc := { s.noc with mesh := s.noc.mesh.map fun h => if h = f then g else h } }

def dropFlight (s : State) (f : Flight) : State :=
  { s with noc := { s.noc with mesh := s.noc.mesh.filter fun h => decide (h ≠ f) } }

/-- Every packet's flits move up. -/
def compactAll (s : State) : State :=
  s.noc.mesh.foldl (fun u f => setFlight u f { f with hops := compact u f.vc f.flits f.hops }) s

/-- An output serves a channel. -/
def noteServed (s : State) (f : Flight) (m : Move) : State := match m.output with
  | some o => { s with noc := { s.noc with served := SMap.set 4 s.noc.served o f.vc.toNat, moves := s.noc.moves + 1 } }
  | none => s

/-- The number under which the order of a source, destination and channel is kept (R264). -/
def orderKey (m n : NiId) (vc : BitVec 2) : Nat := 4 * (48 * m.val + n.val) + vc.toNat

/-- The sequence number that the destination awaits next, past those that will not come. -/
def skipGaps (gaps : List (Nat × Byte)) (key : Nat) : Nat → Byte → Byte
  | 0, v => v
  | n + 1, v => if gaps.contains (key, v) then skipGaps gaps key n (v + 1) else v

def wanted (s : State) (key : Nat) : Byte := skipGaps s.noc.gaps key 256 (SMap.get 0 s.noc.want key)

/-- The destination awaits the number after `v`. -/
def wantNext (s : State) (key : Nat) (v : Byte) : State :=
  { s with noc := { s.noc with
    want := SMap.set 0 s.noc.want key (v + 1), gaps := s.noc.gaps.filter fun g => !decide (g.1 = key ∧ snBefore g.2 (v + 1)) } }

/-- A numbered packet will not come: it is lost, absorbed or given up. -/
def loseSn (s : State) (key : Nat) (v : Byte) : State :=
  { s with noc := { s.noc with gaps := (key, v) :: s.noc.gaps } }

/-- A packet comes to its destination. An interface that does not deliver answers it at once (`turned`); an early one waits in the
reorder buffer; one in order is delivered by `serve`, with those that had waited for it (R264, R270). -/
def arrive (turned : Flight → State → Bool) (serve : Flight → State → State) : Nat → Flight → State → State
  | 0, _, s => s
  | n + 1, f, s =>
    let key := orderKey f.src f.dst f.vc
    if turned f s then serve f s
    else if f.sn ≠ wanted s key then modNi s f.dst.val fun x => { x with early := x.early ++ [f] }
    else
      let s1 := serve f (wantNext s key f.sn)
      match (ni s1 f.dst.val).early.find? fun g => sameOrder f g && decide (g.sn = wanted s1 key) with
      | some g => arrive turned serve n g (modNi s1 f.dst.val fun x => { x with early := x.early.filter fun h => decide (h ≠ g) })
      | none => s1

/-- The packets that the mesh holds move until none can; each that comes to its end is given to `come`. -/
def runMesh (come : Flight → State → State) : Nat → State → State
  | 0, s => s
  | n + 1, s =>
    match nextFlight s with
    | none => compactAll s
    | some (f, .enter r p o) =>
      let s1 := noteServed s f (.enter r p o)
      runMesh come n (setFlight s1 f { f with hops := compact s f.vc f.flits ((r, p, 0) :: f.hops), entered := s1.noc.moves })
    | some (f, m) => runMesh come n (come f (noteServed (dropFlight s f) f m))

/-- Every router switches and the mesh holds nothing, so that a packet meets no wait. -/
def meshQuiet (s : State) : Bool :=
  s.noc.mesh.isEmpty && s.noc.clears.isEmpty && s.noc.routers.all fun e => decide (e.2.service = .inService)

end Sys2Proof.Machine
end

