-- ==== Sys2Proof/Machine/Polder.lean ====
section
/-! DEFINITION. Polder power states, sluices of the network interfaces, the fabric clock's ramp and the profile
(R22–R24, R61–R63, R249, R269–R271, R422–R424). -/

namespace Sys2Proof.Machine

/-! ### Network interfaces of blocks (R249) -/

def tileNi (p : Nat) : NiId :=
  match p with
  | 0 => 2 | 1 => 4 | 2 => 14 | 3 => 16 | 4 => 6 | 5 => 8 | 6 => 18 | 7 => 20 | 8 => 26 | 9 => 28 | 10 => 38 | 11 => 40
  | 12 => 30 | 13 => 32 | 14 => 42 | 15 => 44 | _ => 0

def seqNi (q : Nat) : NiId :=
  match q with
  | 0 => 5 | 1 => 9 | 2 => 15 | 3 => 19 | _ => 29

def bankNi (b : Nat) : NiId :=
  match b with
  | 0 => 3 | 1 => 7 | 2 => 17 | 3 => 21 | 4 => 27 | 5 => 31 | 6 => 39 | _ => 43

/-- The tile, sequencer or bank behind an interface. -/
def niTile (n : NiId) : Option TileId := (List.finRange 17).find? fun p => decide (tileNi p.val = n)
def niSeq (n : NiId) : Option SeqId := (List.finRange 5).find? fun q => decide (seqNi q.val = n)
def niBank (n : NiId) : Option (Fin 8) := (List.finRange 8).find? fun b => decide (bankNi b.val = n)

/-- A sluice starts to close an open interface (R269, R270). -/
def closeNi (s : State) (n : Nat) (r : FenceReason) : State :=
  match (ni s n).st with
  | .opened => modNi s n fun x => { x with st := .closing r }
  | _ => s

/-- An interface takes a sluice state; an unused one stays so, and at a router out of service it reads FENCED until the next
cold start (R249, R273). -/
def setNiSt (s : State) (n : Nat) (st : NiState) : State :=
  if (ni s n).st = .unused then s
  else if decide (st = .opened) && (decide ((rtr s (n / 2)).service = .fenced) || decide ((rtr s (n / 2)).service = .failed)) then s
  else modNi s n fun x => { x with st := st }

/-- No request of the block is outstanding and none is queued toward it; no response is owed between commands (R269). -/
def Ni.quiet (x : Ni) : Bool := x.out.isEmpty && x.early.isEmpty

/-- A FENCE_CLEAR for an interface goes out: it is replaced, or lost (R271). -/
def sendClear (s : State) (n repl : NiId) (lost : Bool) : State :=
  { s with noc := { s.noc with clears := s.noc.clears ++ [(n, repl, lost)] } }

/-- An interface that is fenced, or drained, opens, and a FENCE_CLEAR for it goes out; one that still closes drains first (R269, R271;
log 66). -/
def openNi (s : State) (n : NiId) : State :=
  let open_ := fun (u : State) =>
    let v := setNiSt u n.val .opened
    if (ni v n.val).st = .opened then sendClear v n n false else v
  match (ni s n.val).st with
  | .fenced _ => open_ s
  | .drained _ => open_ s
  | _ => s

def NiState.isClosing : NiState → Bool
  | .closing _ => true
  | _ => false

/-! ### Polders -/

/-- The end ratio of a wake ramp: /1 in BURST, /2 in SUSTAINED (R423). -/
def endRatio (s : State) : Fin 8 := if s.clk.ceiling = 0 then 7 else 6

def Polder.isAwake : Polder → Bool
  | .awake _ => true
  | _ => false

def Polder.isOff : Polder → Bool
  | .off => true
  | _ => false

/-- Some polder is RAMPING or AWAKE (R22, R416). -/
def arrayActive (s : State) : Bool :=
  (List.range 17).any fun p => match (tile s p).polder with
    | .off => false
    | .dark => false
    | _ => true

/-- Every owned tile of the tenant is AWAKE. -/
def tilesAwake (s : State) (t : Tenant) : Bool :=
  (physTiles s (ownTiles s t)).all fun p => (tile s p.val).polder.isAwake

/-- The fabric clock that the profile calls for is the full rate (R23, R24). -/
def fabFull (s : State) : Bool := arrayActive s || decide (s.clk.idle = 0)

/-! ### Clock gates (R425, R426) -/

/-- The gating mask in force: GATE_SLEEP in SLEEP, else GATE_RUN, whose bits for the memories count only while every polder is
DARK or OFF. -/
def gateMask (s : State) : BitVec 25 :=
  if arrayActive s then s.clk.gateRun.truncate 25 &&& ~~~0x7FE0#25
  else if s.clk.idle = 0 then s.clk.gateRun.truncate 25 else s.clk.gateSleep.truncate 25

/-- The interfaces of a clock-gated block; the engines without one have none. -/
def gateNis (b : Nat) : List NiId :=
  if b < 5 then [seqNi b]
  else if b < 13 then [bankNi (b - 5)]
  else match b with
    | 13 => [12]
    | 14 => [22]
    | 15 => [25, 35]
    | 16 => [1]
    | 17 => [11]
    | 18 => [13]
    | 19 => [23]
    | 24 => [24, 34]
    | _ => []

/-- A gated block's clock runs again, and its interface opens. -/
def openGate (s : State) (b : Nat) : State :=
  (gateNis b).foldl (fun u n => match (ni u n.val).st with
      | .drained .dark => openNi u n
      | .fenced .dark => openNi u n
      | _ => u)
    { s with clk := { s.clk with gated := s.clk.gated &&& ~~~(1#25 <<< b) } }

/-- Blocks that the mask in force no longer gates run again. -/
def reopenGates (s : State) : State :=
  ((List.range 25).filter fun b => s.clk.gated.getLsbD b && !(gateMask s).getLsbD b).foldl openGate s

/-- The fabric starts or reverses its ramp toward the profile's rate, with the dwells done (R24, R424); the clock gates follow the
profile too. -/
def retargetFab (s0 : State) : State :=
  let s := reopenGates s0
  let c := match s.fab.clk, fabFull s with
    | .quarter, true => .ramping true 0
    | .full, false => .ramping false 0
    | .ramping true k, false => .ramping false (2 - k)
    | .ramping false k, true => .ramping true (2 - k)
    | c, _ => c
  { s with fab := { s.fab with clk := c } }

/-- PLL_ARR runs while any polder is RAMPING or AWAKE; its lock is computed (R416). -/
def pllArrLocked (s : State) : Bool := arrayActive s && decide (s.clk.st = .normal)

/-- The values of a PE after the clear of R62, in every PE of a tile. -/
def clearTile (s : State) (p : Nat) : State :=
  { s with
    pe := SMap.clearRange s.pe (p * 4096) 4096, peMem := SMap.clearRange s.peMem (p * 2097152) 2097152,
    peBad := SMap.clearRange s.peBad (p * 2097152) 2097152, peTag := SMap.clearRange s.peTag (8 * p) 8 }

/-- A polder reaches AWAKE at a ratio: a tile from OFF is cleared and its berm-valid flag is clear; the interface reopens
(R40, R62, R271). -/
def awaken (s : State) (p : Nat) (ratio : Fin 8) (fromOff : Bool) : State :=
  let s1 := if fromOff then clearTile s p else s
  let s2 := modTile s1 p fun x => { x with polder := .awake ratio, bermValid := x.bermValid && !fromOff }
  openNi s2 (tileNi p)

/-- A wake request (R62, R423). -/
def wakePolder (s : State) (p : Nat) : State :=
  match (tile s p).polder with
  | .off => modTile s p fun x => { x with polder := .up 0 false true, bermValid := false }
  | .dark => modTile s p fun x => { x with polder := .up 0 false false }
  | .down r =>
    if endRatio s ≤ r then awaken s p r false
    else modTile s p fun x => { x with polder := .up (r + 1) false false }
  | _ => s

/-- Power is removed: PE state is lost (R61, R62). -/
def polderOff (s : State) (p : Nat) : State :=
  retargetFab
    (setNiSt (modTile (clearTile s p) p fun x => { x with polder := .off, bermValid := false }) (tileNi p).val (.fenced .off))

/-- A power-down request: the sluice drains and fences the interface, then power is removed (R62). A tile whose interface
is already drained or fenced loses power at once. -/
def powerDown (s : State) (p : Nat) (r : FenceReason) : State :=
  if (tile s p).polder.isOff then s
  else match (ni s (tileNi p).val).st with
    | .opened => closeNi s (tileNi p).val r
    | .closing _ => setNiSt s (tileNi p).val (.closing r)
    | _ => polderOff s p

/-- The sluice and the ramp down of an AWAKE polder (R62). -/
def sleepPolder (s : State) (p : Nat) : State :=
  match (tile s p).polder with
  | .awake r => closeNi (modTile s p fun x => { x with polder := .down r }) (tileNi p).val .dark
  | _ => s

/-- One step down of a ramp toward DARK, taken when the sluice has drained and at the end of each dwell (R423). -/
def rampDownStep (s : State) (p : Nat) : State :=
  match (tile s p).polder with
  | .down r =>
    if r = 0 then
      retargetFab (setNiSt (modTile s p fun x => { x with polder := .dark }) (tileNi p).val (.fenced .dark))
    else modTile s p fun x => { x with polder := .down (r - 1) }
  | _ => s

/-- The clock of every AWAKE or RAMPING polder stops at once (R62, R429). -/
def stopPolder (s : State) (p : Nat) : State :=
  match (tile s p).polder with
  | .off => s
  | .dark => s
  | _ => closeNi (modTile s p fun x => { x with polder := .dark }) (tileNi p).val .dark

/-- The tenant's polders wake (R14) and its sequencer's clock runs; the fabric ramps with them from SLEEP (R24). -/
def wakeTenant (s : State) (t : Tenant) : State :=
  let s1 := match seqOf s t with
    | some q => openGate s q.val
    | none => s
  retargetFab ((physTiles s1 (ownTiles s1 t)).foldl (fun u p => wakePolder u p.val) s1)

/-- PROFILE (R22, R439). -/
def profile (s : State) : Nat :=
  if s.clk.sleep = .entered then 4
  else if arrayActive s then s.clk.ceiling.toNat
  else 2 + s.clk.idle.toNat

/-! ### Array clock -/

def dividers : List Nat := [16, 12, 8, 6, 4, 3, 2, 1]

/-- Ticks of one ac of the tenant: its first tile's divider over ARR_MHZ (R8, R419; log 10). -/
def acTicks (s : State) (t : Tenant) : Nat :=
  let d := match physTiles s (ownTiles s t) with
    | p :: _ => (match (tile s p.val).polder with
      | .awake r => dividers.getD r.val 1
      | _ => 1)
    | [] => 1
  d * usTicks / s.clk.now.arr.toNat

end Sys2Proof.Machine
end

