-- ==== Sys2Proof/Machine/Status.lean ====
section
/-! DEFINITION. Status words of every block, the tide mark and its snapshot
(R68, R189, R247, R277, R335, R381, R440, R441, R474–R482). -/

namespace Sys2Proof.Machine

/-! ### Status words -/

/-- SERVICE of a tile (R68). -/
def TileService.code : TileService → Nat
  | .inService => 0
  | .spare => 1
  | .draining => 2
  | .retest => 3
  | .failed => 4

/-- SERVICE of a sequencer (R189). -/
def SeqService.code : SeqService → Nat
  | .inService => 0
  | .spare => 1
  | .draining => 2
  | .retest => 3
  | .failed => 4
  | .loading => 5
  | .migrating => 6

def MemService.code : MemService → Nat
  | .inService => 0
  | .fenced => 1
  | .failed => 2

def RouterService.code : RouterService → Nat
  | .inService => 0
  | .quiesce => 1
  | .fenced => 2
  | .failed => 3

def NiState.code : NiState → Nat
  | .opened => 0
  | .closing _ => 1
  | .drained _ => 2
  | .fenced _ => 3
  | .unused => 4
  | .standby => 5

def Polder.code : Polder → Nat
  | .off => 0
  | .dark => 1
  | .awake _ => 3
  | _ => 2

/-- LPOS: the logical position a tile fills, 31 for none (R68). -/
def lposCode (s : State) (p : TileId) : Nat := (lposOf s p).getD 31

/-- The tenant whose logical tile the physical tile fills. -/
def ownerOf (s : State) (p : TileId) : Option Tenant := (lposOf s p).bind (tileOwner s)

def ownedCode (o : Option Tenant) : Nat := match o with
  | some t => 32768 + t.val * 8192
  | none => 0

def tileStatus (s : State) (p : TileId) : Word :=
  let x := tile s p.val
  BitVec.ofNat 32 (x.faults.toNat * 2 ^ 24 + ownedCode (ownerOf s p) + lposCode s p * 256 + x.polder.code * 16 + x.service.code)

def seqStatus (s : State) (q : Nat) : Word :=
  let x := sqr s q
  BitVec.ofNat 32 (x.repairs.toNat * 2 ^ 24 + ownedCode x.bound + x.tl.toNat * 4096 + x.image.toNat * 16 + x.service.code)

/-- MARCH of a bank or half: 2 under a destructive test, 1 or 3 while the engine's window lies in it (R240, R244). -/
def marchCode (s : State) (b : Nat) : Nat :=
  let m := s.march
  if (match m.dtest with
      | some u => decide (u < 512 ∧ u / 64 = b)
      | none => false) || (m.released.any fun e => e.2 && decide (e.1 / 64 = b)) then 2
  else match m.window with
    | some w => if (if w.xm then 8 + w.addr / halfBytes else w.addr / bankBytes) = b then
        (if !w.xm && compareUnit s (w.addr / unitBytes) then 3 else 1) else 0
    | none => 0

def memStatus (s : State) (b : Nat) : Word :=
  let x := memSt s b
  BitVec.ofNat 32 (x.errors.toNat * 2 ^ 24 + x.repairs.toNat * 65536 + marchCode s b * 16 + x.service.code)

/-- Interface Lk of router `r` (R249). -/
def niOpen (s : State) (n : Nat) : Bool := decide ((ni s n).st = .opened)

def routerStatus (s : State) (r : Nat) : Word :=
  BitVec.ofNat 32 ((rtr s r).replays.toNat * 2 ^ 24 + (niOpen s (2 * r + 1)).toNat * 512 + (niOpen s (2 * r)).toNat * 256 +
    (rtr s r).service.code)

def FabClk.code : FabClk → Nat
  | .full => 0
  | .quarter => 1
  | .ramping _ _ => 2
  | .stopped => 3
  | .fosc => 4

/-- STATE of R335. -/
def fabStateCode (s : State) : Nat :=
  if s.fab.clk = .stopped then 3
  else match s.fab.load with
    | some l => if l.region = none then 1 else if s.fab.isNull then 2 else 0
    | none => if s.fab.isNull then 2 else 0

def fabStatus (s : State) : Word :=
  let held := (List.range 8).foldl (fun m k => m + if regionSt s k = .held then 2 ^ k else 0) 0
  BitVec.ofNat 32 (s.fab.loads.toNat * 2 ^ 24 + s.fab.rejects.toNat * 65536 + held * 256 + s.fab.clk.code * 16 + fabStateCode s)

def Link.code : Link → Nat
  | .down => 0
  | .discovery => 0x10
  | .up k => 0x20 + k.val
  | .lost => 0x30

def ClkSt.code : ClkSt → Nat
  | .normal => 0
  | .relocking => 1
  | .holdover => 2

def VcoreSt.code : VcoreSt → Nat
  | .normal => 0
  | .warnHold => 1
  | .warnSafe => 2

def clockStatus (s : State) : Word :=
  let c := s.clk
  BitVec.ofNat 32 (s.fab.clk.code * 2 ^ 20 + c.aValid.toNat * 32768 + c.bValid.toNat * 16384 + c.inUse.toNat * 4096 +
    (pllArrLocked s).toNat * 2048 + c.lockNoc.toNat * 1024 + c.lockFab.toNat * 512 + c.lockSys.toNat * 256 + c.st.code)

def supplyStatus (s : State) : Word :=
  let p := s.sup
  BitVec.ofNat 32 (p.vmem.toNat * 2 ^ 20 + p.feedB.toNat * 2 ^ 17 + p.feedA.toNat * 65536 + p.pfw.toNat * 256 + p.vcore.code)

/-- TIME_QUALITY (R418). -/
def timeQuality (s : State) : Nat :=
  if s.clk.sleep = .entered ∨ s.start.mode ≠ .running then 2 else if s.clk.st = .normal then 0 else 1

def supplyMv (s : State) (k : Nat) : Half := Config.supplyMv k s.time.toNat

/-! ### Host channels -/

/-- The tenants bound to a host channel, ascending. -/
def boundTo (s : State) (h : HostCh) : List Tenant := allTenants.filter fun t => decide (channelOf s t = some h)

def ctrlService (s : State) (h : HostCh) : CtrlService :=
  if h.val < 2 then (esc s (Fin.ofNat 2 h.val)).service else (can s (Fin.ofNat 2 h.val)).service

def CtrlService.code : CtrlService → Nat
  | .inService => 0
  | .fenced => 1
  | .failed => 2

/-- AL state numbers of EtherCAT (R11; PRESUMED, log 20). -/
def alCode : AlState → Nat
  | .init => 1
  | .preOp => 2
  | .boot => 3
  | .safeOp => 4
  | .op => 8

/-- NMT state numbers of CiA 301 (R11; PRESUMED, log 20). -/
def NmtState.code : NmtState → Nat
  | .none => 0
  | .stopped => 4
  | .operational => 5
  | .preOperational => 0x7F

def nmt (s : State) (t : Tenant) : NmtState := SMap.get .none s.net.nmt t.val

/-! ### The snapshot (R480–R482) -/

/-- TENANT_GRANT (R381). -/
def tenantGrant (s : State) (t : Tenant) : Word :=
  match (ten s t).own with
  | none => 0x00F00000
  | some r =>
    BitVec.ofNat 32 ((ownTiles s t).length * 2 ^ 24 + r.seq.val * 2 ^ 20 + ((channelOf s t).getD r.channel).val * 2 ^ 18 +
      r.dual.toNat * 65536 + r.weight.toNat * 256 + r.resv.toNat)

/-- The orders a tenant's queue holds (R199): ACCEPTED, RUNNING, and COMMITTED or ABORTED with an unretired record. -/
def queueFill (x : TenantSt) : Nat :=
  x.orders.length + x.unrec.length + (x.records.filter fun r => decide (r.outcome ≠ 3)).length

/-- A section with its header. -/
def section_ (kind inst : Nat) (stopped : Bool) (data : Bytes) : Bytes :=
  leBytes 4 (kind + 65536 * inst + 2 ^ 24 * stopped.toNat) ++ leBytes 4 data.length ++ data

def snapTile (s : State) (p : TileId) : Bytes :=
  section_ 1 p.val (decide ((tile s p.val).polder.code ≤ 1)) (leBytes 4 (tileStatus s p).toNat)

def snapSeq (s : State) (q : SeqId) : Bytes :=
  let x := sqr s q.val
  let gw := match x.gw with
    | .g1 => 0
    | .g4 => 1
    | .g16 => 2
  let run := match x.bound with
    | some t => (match (ten s t).orders.find? fun o => decide (o.st = .running) with
      | some o => o.seq.toNat
      | none => 0)
    | none => 0
  let el := match x.ws with
    | some w => w.acCount.toNat
    | none => 0
  section_ 2 q.val (s.clk.gated.getLsbD q.val)
    (leBytes 4 (seqStatus s q.val).toNat ++ leBytes 4 x.pc.toNat ++ leBytes 2 x.upc.toNat ++
      leBytes 2 (gw + 4 * x.tl.toNat) ++ leBytes 8 x.il.toNat ++ leBytes 4 run ++ leBytes 4 x.gv.toNat ++ leBytes 4 el)

def snapTenant (s : State) (t : Tenant) : Bytes :=
  let x := ten s t
  section_ 3 t.val false
    (leBytes 4 x.lastAccepted.toNat ++ leBytes 4 x.wmSettled.toNat ++ leBytes 2 (queueFill x) ++ leBytes 2 x.records.length ++
      [BitVec.ofNat 8 (x.orders.any fun o => decide (o.st = .running)).toNat, x.abortState, 0, 0])

def snapMem (s : State) (b : Nat) : Bytes :=
  let a := match s.march.window with
    | some w => w.addr
    | none => 0
  section_ 4 b (s.clk.gated.getLsbD (5 + b)) (leBytes 4 (memStatus s b).toNat ++ leBytes 4 a)

/-- A router with the flits queued in each of its virtual channels (R481). -/
def snapRouter (s : State) (r : Nat) : Bytes :=
  section_ 5 r false
    (leBytes 4 (routerStatus s r).toNat ++ ([0, 1, 2, 3].map fun v => BitVec.ofNat 8 (routerFlits s r (BitVec.ofNat 2 v))) ++
      [BitVec.ofNat 8 (ni s (2 * r)).st.code, BitVec.ofNat 8 (ni s (2 * r + 1)).st.code, 0, 0])

def snapFabric (s : State) : Bytes :=
  section_ 6 0 (decide (s.fab.clk = .stopped)) (leBytes 4 (fabStatus s).toNat ++ leBytes 2 s.fab.captureState.toNat ++ [0, 0])

/-- A group's section; the bits and values of channels outside `see` read 0. -/
def snapGroup (s : State) (see : Nat → Bool) (g : Nat) : Bytes :=
  section_ 7 g false
    (leBytes 4 (groupStatus s g).toNat ++ leBytes 2 (grp s g).outCurrent.toNat ++
      leBytes 2 (posMask fun q => see (16 * g + q) && fcIn s (16 * g + q)).toNat ++
      leBytes 2 (posMask fun q => see (16 * g + q) && decide (landDrive s (16 * g + q) ≠ .off)).toNat ++
      (List.range 16).flatMap (fun q => leBytes 2 (if see (16 * g + q) then (fcStat s (16 * g + q)).toNat else 0) ++
        leBytes 2 (if see (16 * g + q) then (fcVal s (16 * g + q)).toNat else 0)) ++ [0, 0])

/-- Bytes in an ingest buffer. -/
def bufTotal (l : List BufPart) : Nat := (l.map fun p => p.fresh.length + p.kept).foldl (· + ·) 0

/-- A camera's section; its buffer fill in whole KiB. -/
def snapCam (s : State) (c : CxpId) : Bytes :=
  let x := cam s c
  let lines := match x.frame with
    | some f => f.lines
    | none => 0
  section_ 8 c.val (s.clk.gated.getLsbD 15)
    ([BitVec.ofNat 8 x.link.code, 0] ++ leBytes 2 (bufTotal x.buf / 1024) ++ leBytes 4 lines ++
      leBytes 8 x.fsTime.toNat)

/-- Error counters and DC system time are no state of the model: they are free (log 6). -/
def snapHost (s : State) (h : HostCh) : Bytes :=
  let st := if h.val < 2 then alCode (esc s (Fin.ofNat 2 h.val)).al
    else match boundTo s h with
      | t :: _ => (nmt s t).code
      | [] => 0
  section_ 9 h.val (s.clk.gated.getLsbD (16 + h.val))
    ([BitVec.ofNat 8 st, BitVec.ofNat 8 (ctrlService s h).code, 0, 0] ++
      leBytes 4 (Config.freeWord (freshNum s) (300 + h.val)).toNat ++
      leBytes 8 (if h.val < 2 then (Config.freeWord (freshNum s) (310 + h.val)).toNat else 0))

def snapClock (s : State) : Bytes :=
  section_ 10 0 false
    (leBytes 4 (clockStatus s).toNat ++ leBytes 4 (supplyStatus s).toNat ++
      (List.range 4).flatMap (fun k => leBytes 2 (supplyMv s k).toNat) ++
      [BitVec.ofNat 8 (timeQuality s), BitVec.ofNat 8 (profile s), 0, 0])

/-- Every section of the snapshot as T0 reads it, behind a header without the reader. -/
def snapshotBytes (s : State) (src : Nat) (code : Half) : Bytes :=
  leBytes 4 (0x0100006A + 65536 * src) ++ leBytes 4 s.obs.tideCount.toNat ++ leBytes 8 s.obs.tideTime.toNat ++
    leBytes 4 code.toNat ++ List.replicate 12 0 ++
    (List.finRange 17).flatMap (snapTile s) ++ (List.finRange 5).flatMap (snapSeq s) ++ allTenants.flatMap (snapTenant s) ++
    (List.range 10).flatMap (snapMem s) ++ (List.range 24).flatMap (snapRouter s) ++ snapFabric s ++
    (List.range 32).flatMap (snapGroup s fun _ => true) ++ (List.finRange 8).flatMap (snapCam s) ++
    (List.finRange 4).flatMap (snapHost s) ++ snapClock s

/-! ### Taking a tide mark (R474–R478) -/

/-- The delay of the synchroniser: one to two AON periods, a free number of ns in 243 to 516 (R475; log 6). -/
def syncDelay (s : State) : Nat := 243 + (Config.freeWord (freshNum s) 0).toNat % 274

/-- A source of a tide mark reached AON: the mark is merged, or taken with its snapshot. Nothing is marked while a start runs
(R477); in DEEP-SLEEP no snapshot is taken. -/
def takeMark (s : State) : State :=
  match s.obs.due with
  | none => s
  | some (src, code) =>
    let s0 := { s with obs := { s.obs with due := none } }
    if s.start.mode ≠ .running ∧ s.start.mode ≠ .safeShell then s0
    else
      let epoch := s.time + BitVec.ofNat 64 (syncDelay s)
      if s.obs.tideSeen ∧ epoch.toNat < s.obs.tideTime.toNat + 20000 then
        bump { s0 with obs := { s0.obs with tideMerged := satInc s0.obs.tideMerged } }
      else
        let s1 := { s0 with obs := { s0.obs with tideCount := s0.obs.tideCount + 1, tideTime := epoch, tideSeen := true } }
        let s2 := logEvent s1 0x0C01 0 [] 0 s1.obs.tideCount.toNat [BitVec.ofNat 8 src]
        if s.clk.sleep = .entered then bump s2
        else
          let s3 := (List.range 8).foldl captureRegion s2
          bump { s3 with obs := { s3.obs with
            snap := some (snapshotBytes s3 src code), snapState := 1
            tideOut := s3.obs.tideOutMask.getLsbD src || s3.obs.tideOut } }

end Sys2Proof.Machine
end

