-- ==== Sys2Proof/Machine/Landing.lean ====
section
/-! DEFINITION. Orders of a tenant by number, and the landing of input bindings into PE memory or scratchpad
(R197, R201, R282, R286–R290, R348–R350). -/

namespace Sys2Proof.Machine

/-! ### Orders -/

/-- The RUNNING order of a tenant. -/
def runOrder (s : State) (t : Tenant) : Option Order := (ten s t).orders.find? fun o => decide (o.st = .running)

def getOrder (s : State) (t : Tenant) (seq : Word) : Option Order := (ten s t).orders.find? fun o => decide (o.seq = seq)

/-- Replace the order with the same sequence number. -/
def setOrder (s : State) (t : Tenant) (o : Order) : State :=
  modTen s t fun x => { x with orders := x.orders.map fun p => if p.seq = o.seq then o else p }

def modOrder (s : State) (t : Tenant) (seq : Word) (f : Order → Order) : State :=
  match getOrder s t seq with
  | some o => setOrder s t (f o)
  | none => s

/-- Change the RUNNING order. -/
def modRun (s : State) (t : Tenant) (f : Order → Order) : State :=
  match runOrder s t with
  | some o => setOrder s t (f o)
  | none => s

/-- Change input binding `b` of an order. -/
def Order.modIn (o : Order) (b : Nat) (f : InBind → InBind) : Order :=
  match o.ins[b]? with
  | some i => { o with ins := o.ins.set b (f i) }
  | none => o

/-- The order is the tenant's oldest unsettled one. -/
def isOldest (s : State) (t : Tenant) (seq : Word) : Bool :=
  match (ten s t).orders with
  | o :: _ => decide (o.seq = seq)
  | [] => false

/-! ### Camera configuration (R282, R288, R296) -/

def pixBits (fmt : Byte) : Nat := [8, 10, 12, 14, 16, 24].getD fmt.toNat 8
def pixBytes (fmt : Byte) : Nat := [1, 2, 2, 2, 2, 3].getD fmt.toNat 1

def winW (w : DWord) : Nat := w.toNat / 2 ^ 32 % 65536
def winH (w : DWord) : Nat := w.toNat / 2 ^ 48
def winX (w : DWord) : Nat := w.toNat % 65536
def winY (w : DWord) : Nat := w.toNat / 65536 % 65536

def Cam.cfg (c : Cam) : CamCfg := ⟨c.fmt, c.window, c.origin, c.landing, c.spOffset⟩
def CamCfg.x0 (c : CamCfg) : Nat := c.origin.toNat % 256
def CamCfg.y0 (c : CamCfg) : Nat := c.origin.toNat / 256 % 256
def CamCfg.lineDir (c : CamCfg) : Bool := c.origin.getLsbD 31
def CamCfg.prearm (c : CamCfg) : Bool := c.landing.getLsbD 31
def CamCfg.toSp (c : CamCfg) : Bool := c.landing.getLsbD 28
def CamCfg.base (c : CamCfg) : BitVec 12 := c.landing.truncate 12
def CamCfg.lineBytes (c : CamCfg) : Nat := winW c.window * pixBytes c.fmt
def CamCfg.bytes (c : CamCfg) : Nat := c.lineBytes * winH c.window

/-- A layout code (R102, R296): 0 G1, 1 G4, 2 G16. -/
def layoutOf (n : Nat) : Gang := if n = 1 then .g4 else if n = 2 then .g16 else .g1
def CamCfg.layout (c : CamCfg) : Gang := layoutOf (c.landing.toNat / 2 ^ 29 % 4)

/-- The array row of window line `j` (R288). -/
def CamCfg.rowOf (c : CamCfg) (j : Nat) : Nat := if c.lineDir then c.y0 + winH c.window - 1 - j else c.y0 + j

/-- The rows of tiles that the window covers, in the order in which its lines complete them (R289). -/
def CamCfg.bandList (c : CamCfg) : List Nat :=
  let lo := c.y0 / 64
  let l := (List.range ((c.y0 + winH c.window - 1) / 64 + 1 - lo)).map fun i => lo + i
  if c.lineDir then l.reverse else l

/-- The window line that completes a band. -/
def CamCfg.bandLast (c : CamCfg) (ty : Nat) : Nat :=
  if c.lineDir then c.y0 + winH c.window - 1 - Nat.max c.y0 (64 * ty)
  else Nat.min (winH c.window - 1) (64 * ty + 63 - c.y0)

/-- Every landed element lies in a program tile, X0 is a multiple of g, and the window fits (R288). -/
def camFits (s : State) (t : Tenant) (c : CamCfg) (g : Nat) : Bool :=
  decide (c.x0 % g = 0 ∧ winW c.window ≤ (256 - c.x0) / g ∧ c.y0 + winH c.window ≤ 256) &&
    c.bandList.all fun ty =>
      (List.range ((c.x0 + g * winW c.window - 1) / 64 + 1 - c.x0 / 64)).all fun i =>
        match tileAt (c.x0 / 64 + i) ty with
        | some n => (progTiles s t).contains n
        | none => false

/-- The window fits the tenant's extents (R290). -/
def camSpFits (s : State) (t : Tenant) (c : CamCfg) : Bool :=
  match (ten s t).own with
  | some r => decide (c.spOffset.toNat + c.bytes ≤ extTotal r.extents)
  | none => false

/-! ### Elements -/

/-- A program tile and, in CHECKED-DUAL, its counterpart in half B (R219). -/
def twin (s : State) (t : Tenant) (n : Nat) : List Nat :=
  n :: match (progTiles s t).idxOf? n with
    | some j => ((halfB s t)[j]?).toList
    | none => []

/-- A writer from outside the array writes the user space, and the berm only while it is reclaimed (R42). -/
def landBit (s : State) (k a : Nat) (v : Bool) : State :=
  if writableBit (tile s (k / 4096)) a then setPeBit s k a v else s

/-- Write a landed value into every lane bit of a field of one element of a physical tile. -/
def landElem (s : State) (p : TileId) (g base w row sl v : Nat) : State :=
  (List.range (ceilDiv w g * g)).foldl (fun x i =>
    landBit x (peKey p row (g * sl + i % g)) ((base + i / g) % 4096) (v.testBit i)) s

/-- As `landElem`, in program tile `n` and its counterpart. -/
def landField (s : State) (t : Tenant) (g base w n row sl v : Nat) : State :=
  (physTiles s (twin s t n)).foldl (fun u p => landElem u p g base w row sl v) s

/-- As `landField`, at array coordinates; outside the program tiles nothing lands. -/
def landAt (s : State) (t : Tenant) (g base w x y v : Nat) : State :=
  match tileAt (x / 64) (y / 64) with
  | some n => if (progTiles s t).contains n then landField s t g base w n (y % 64) (x % 64 / g) v else s
  | none => s

/-! ### Landing by kind -/

/-- The value that the element at array coordinates takes from a window: a pixel, or 0 outside it (R288, R289). -/
def camPixel (c : CamCfg) (data : Bytes) (g x y : Nat) : Nat :=
  let i := (x - c.x0) / g
  let j := if c.lineDir then c.y0 + winH c.window - 1 - y else y - c.y0
  if c.x0 ≤ x ∧ i < winW c.window ∧ c.y0 ≤ y ∧ y < c.y0 + winH c.window then
    leAt data ((j * winW c.window + i) * pixBytes c.fmt) (pixBytes c.fmt) % 2 ^ pixBits c.fmt
  else 0

/-- The tiles that a band of the window covers, each as its column of tiles and its number, in both halves (R219, R288, R289). -/
def bandTiles (s : State) (t : Tenant) (c : CamCfg) (g ty : Nat) : List (Nat × Nat) :=
  (List.range ((c.x0 + g * winW c.window - 1) / 64 + 1 - c.x0 / 64)).flatMap fun i =>
    let tx := c.x0 / 64 + i
    match tileAt tx ty with
    | some n => if (progTiles s t).contains n then (twin s t n).map fun m => (tx, m) else []
    | none => []

/-- The plane packets of one band to one tile: whole tile planes (R289). -/
def landPlanes (s : State) (c : CamCfg) (g base : Nat) (data : Bytes) (ty tx : Nat) (p : TileId) : State :=
  (List.range 64).foldl (fun v r =>
    (List.range (64 / g)).foldl (fun z k =>
      landElem z p g base (pixBits c.fmt) r k (camPixel c data g (64 * tx + g * k) (64 * ty + r))) v) s

/-- Corner-turn one band into the tiles that fill its positions now. -/
def landBand (s : State) (t : Tenant) (c : CamCfg) (g base : Nat) (data : Bytes) (ty : Nat) : State :=
  (bandTiles s t c g ty).foldl (fun u e => match physOf u e.2 with
    | some p => landPlanes u c g base data ty e.1 p
    | none => u) s

/-- The channels of an ADC window, ascending. -/
def maskList (m : Half) : List Nat := (List.range 16).filter fun q => m.getLsbD q

/-- Origin of a channel's samples (R349). -/
def adcX (s : State) (g q : Nat) : Nat := (fch s (16 * g + q)).adcOrigin.toNat % 256
def adcY (s : State) (g q : Nat) : Nat := (fch s (16 * g + q)).adcOrigin.toNat / 256

/-- INARM of an ADC window raises no binding fault (R349). -/
def adcFits (s : State) (t : Tenant) (grp : Nat) (mask : Half) (n g : Nat) : Bool :=
  let qs := maskList mask
  qs.all (fun q => decide (adcX s grp q % g = 0) && (List.range n).all fun i =>
    match tileAt ((adcX s grp q + g * i) / 64) (adcY s grp q / 64) with
    | some m => (progTiles s t).contains m
    | none => false) &&
  qs.all fun q => qs.all fun r => decide (q = r) || decide (adcY s grp q ≠ adcY s grp r) ||
    decide (adcX s grp q + g * n ≤ adcX s grp r) || decide (adcX s grp r + g * n ≤ adcX s grp q)

def landAdc (s : State) (t : Tenant) (i : InBind) (g base : Nat) : State :=
  let n := i.len.toNat
  ((maskList i.mask).zipIdx).foldl (fun u qk =>
    (List.range n).foldl (fun v k =>
      landAt v t g base 16 (adcX s i.source.toNat qk.1 + g * k) (adcY s i.source.toNat qk.1)
        (leAt i.data (2 * (qk.2 * n + k)) 2)) u) s

/-- A snapshot lands in every element of the tenant (R350). -/
def landSnapshot (s : State) (t : Tenant) (i : InBind) (g base : Nat) : State :=
  (elems s g (ownTiles s t)).foldl (fun u e =>
    (List.range (i.data.length / 2)).foldl (fun v k =>
      (List.range 16).foldl (fun z b =>
        landBit z (e.lane g (b % g)) ((base + 16 * k + b / g) % 4096) ((leAt i.data (2 * k) 2).testBit b)) v) u) s

/-- Plane images land in the program tiles, in both halves (R197). -/
def landRegion (s : State) (t : Tenant) (i : InBind) (base : Nat) : State :=
  let k := (progTiles s t).length
  (List.range (i.data.length / (512 * k))).foldl (fun u j =>
    ((progTiles s t).zipIdx).foldl (fun v nm =>
      (List.range 4096).foldl (fun z c =>
        landField z t 1 (base + j) 1 nm.1 (c / 64) (c % 64)
          ((i.data.getD (512 * (j * k + nm.2) + c / 8) 0).toNat / 2 ^ (c % 8))) v) u) s

/-- All that has not landed yet of an armed binding lands. -/
def landAll (s : State) (t : Tenant) (i : InBind) (a : Arm) : State :=
  let g := a.layout.width
  let base := a.base.toNat
  match i.kind with
  | .camera =>
    match i.cam with
    | none => s
    | some c =>
      if a.toSp then
        match (ten s t).own with
        | some r => extWrite s r.extents c.spOffset.toNat i.data
        | none => s
      else (c.bandList.drop i.bands).foldl (fun u ty => landBand u t c g base i.data ty) s
  | .adc => landAdc s t i g base
  | .snapshot => landSnapshot s t i g base
  | .region => landRegion s t i base

/-! ### The ingest buffer (R285) -/

def bufLimit : Nat := 131072

/-- Bytes of an ingest buffer that are not yet retained. -/
def freshTotal (l : List BufPart) : Nat := (l.map fun p => p.fresh.length).foldl (· + ·) 0

/-- Retained pixels give way, the oldest first, until `n` bytes are free. -/
def giveWay : List BufPart → Nat → List BufPart
  | [], _ => []
  | p :: r, n => { p with kept := p.kept - n } :: giveWay r (n - p.kept)

/-- Parts with no pixels left are gone. -/
def tidyBuf (l : List BufPart) : List BufPart := l.filter fun p => decide (p.fresh ≠ [] ∨ p.kept ≠ 0)

/-- The part belongs to a binding of an order. -/
def BufPart.isOf (p : BufPart) (t : Tenant) (seq : Word) (b : Nat) : Bool := decide (p.owner = t ∧ p.seq = seq ∧ p.bind = b)

/-- Retained bytes of a binding that its ingest buffer still holds. -/
def keptOf (s : State) (t : Tenant) (seq : Word) (b : Nat) : Nat :=
  ((List.finRange 8).flatMap fun c => ((cam s c).buf.filter fun p => p.isOf t seq b).map BufPart.kept).foldl (· + ·) 0

/-- Pixels of a binding that are retained and landed leave the buffer: at most `n` bytes are still to land. -/
def leaveBuf (s : State) (t : Tenant) (seq : Word) (b n : Nat) : State :=
  (List.finRange 8).foldl (fun u c =>
    if (cam u c).buf.any fun p => p.isOf t seq b then
      modCam u c fun x => { x with
        buf := tidyBuf (x.buf.map fun p => if p.isOf t seq b then { p with kept := Nat.min p.kept n } else p) }
    else u) s

/-- No image is in progress on a connection, and its buffer is empty. -/
def ingestIdle (x : Cam) : Bool :=
  x.buf.isEmpty && match x.frame with
    | some f => f.claim.isNone || decide (winH f.cfg.window ≤ f.lines)
    | none => true

/-! ### Landing of a camera window (R271, R286, R289) -/

/-- Bytes of a window whose bands have been sent. -/
def sentBytes (c : CamCfg) (bands : Nat) : Nat := match bands with
  | 0 => 0
  | k + 1 => match c.bandList[k]? with
    | some ty => (c.bandLast ty + 1) * c.lineBytes
    | none => c.bytes

/-- The plane packets of a band go to one tile. Where its interface refuses them, or earlier ones still wait for it, they are held; the
first of them alone is answered with NACK_FENCED (R264, R271, R286; log 67). -/
def sendPlanes (s : State) (t : Tenant) (seq : Word) (b : Nat) (c : CamCfg) (a : Arm) (ty : Nat) (e : Nat × Nat) : State :=
  match (getOrder s t seq).bind fun o => o.ins[b]? with
  | none => s
  | some i => match physOf s e.2 with
    | none => s
    | some p =>
      let n := tileNi p.val
      let waits := i.heldAt.any fun h => decide (h.ni = n)
      if (ni s n.val).st = .opened ∧ waits = false then landPlanes s c a.layout.width a.base.toNat i.data ty e.1 p
      else
        let s1 := modOrder s t seq fun o => o.modIn b fun j => { j with heldAt := j.heldAt ++ [⟨n, e.1, e.2, ty⟩] }
        if waits then s1 else { s1 with noc := { s1.noc with fencedNacks := satInc s1.noc.fencedNacks } }

/-- The bands of a camera binding whose lines are all retained are sent when it is armed for PE landing and its order is the oldest
unsettled one, whatever the state of the polders. Lines that have left the ingest buffer are read back from RETA, or from RETB after
a parity error; with neither nothing is sent (R285, R286, R289). -/
def landBands (s : State) (t : Tenant) (seq : Word) (b : Nat) : State :=
  match getOrder s t seq with
  | none => s
  | some o =>
    match o.ins[b]? with
    | none => s
    | some i =>
      match i.cam, i.arm with
      | some c, some a =>
        let l := (c.bandList.drop i.bands).takeWhile fun ty => decide (c.bandLast ty < i.data.length / c.lineBytes)
        if a.toSp || i.landed || decide (i.fault ≠ .none) || !isOldest s t seq || l.isEmpty then s
        else
          let r := if keptOf s t seq b < i.data.length - sentBytes c i.bands then readAreas s t 4 5 i.copyA i.copyB
            else (s, i.copyA, i.copyB)
          let s1 := modOrder r.1 t seq fun o => o.modIn b fun i => { i with copyA := r.2.1, copyB := r.2.2 }
          if r.2.1 = false ∧ r.2.2 = false then s1
          else
            let s2 := l.foldl (fun u ty => (bandTiles u t c a.layout.width ty).foldl (fun v e => sendPlanes v t seq b c a ty e) u) s1
            leaveBuf (modOrder s2 t seq fun o => o.modIn b fun i => { i with bands := i.bands + l.length }) t seq b
              (i.data.length - sentBytes c (i.bands + l.length))
      | _, _ => s

/-- Every plane packet of a camera binding has been taken by its tile. -/
def planesIn (i : InBind) : Bool := match i.kind, i.cam with
  | .camera, some c => decide (i.bands = c.bandList.length) && i.heldAt.isEmpty
  | _, _ => true

/-- A binding may land: it is armed and fits, all its data are retained, it is not landed, its order is the oldest unsettled one, and,
for PE landing, the tenant's tiles are AWAKE and have taken every plane packet (R201, R286, R349). -/
def mayLand (s : State) (t : Tenant) (o : Order) (i : InBind) : Bool :=
  match i.arm with
  | none => false
  | some a => i.complete && !i.landed && decide (i.fault = .none) && isOldest s t o.seq &&
    (a.toSp || (tilesAwake s t && planesIn i))

end Sys2Proof.Machine
end

