-- ==== Sys2Proof/Machine/Orders.lean ====
section
/-! DEFINITION. Settling of orders, completion records, releases, aborts, readiness and re-execution
(R14, R139, R140, R147, R198, R201–R209, R215–R218). -/

namespace Sys2Proof.Machine

/-! ### Trap contexts (R140) -/

def heldCtx (s : State) (t : Tenant) : Option (Fin 3) := (List.finRange 3).find? fun k => decide ((ctx s k.val).st = .held t)
def freeCtx (s : State) : Option (Fin 3) := (List.finRange 3).find? fun k => decide ((ctx s k.val).st = .free)

/-- The contexts of a tenant become free; their pending masks are discarded. -/
def dropCtx (s : State) (t : Tenant) : State :=
  match heldCtx s t with
  | some k => setCtx s k.val TrapCtx.initial
  | none => s

/-- Load the controls of a context. -/
def loadCtx (s : State) (t : Tenant) (k : Fin 3) (enables : BitVec 5) (trapMode : Bool) : State :=
  setCtx s k.val ⟨.held t, enables, trapMode, 0, 0⟩

/-- The machine check or the abort discards the pending mask (R143). -/
def dropPending (s : State) (t : Tenant) : State :=
  match heldCtx s t with
  | some k => setCtx s k.val { ctx s k.val with pending := 0, pendPc := 0 }
  | none => s

/-! ### The instruction stream -/

/-- The stream of a sequencer stops: no wait, result, access or loop is outstanding (R172). -/
def quietSeq (x : Sequencer) : Sequencer :=
  { x with ws := none, wsBack := none, midRoutine := false, gors := [], scan := none, mem := none, loop := none, flagOrs := [], rs := [], bl := 0, tl := false }

def quiet (s : State) (t : Tenant) : State :=
  match seqOf s t with
  | some q => modSqr s q.val quietSeq
  | none => s

/-! ### Records (R204) -/

/-- The record's bytes. -/
def Record.bytes (r : Record) : Bytes :=
  let b := leBytes 4 r.seq.toNat ++ leBytes 4 r.hon.toNat ++ [r.outcome, r.cause, r.flags, 0] ++ leBytes 4 r.runUs.toNat ++
    leBytes 8 r.stamp.toNat ++ leBytes 4 r.last.toNat
  b ++ leBytes 4 (crc32 b).toNat

/-- The record of an order: FSUM, UNPROTECTED and RECOMPUTED in byte 0x0A, running time in whole µs (log 10). -/
def mkRecord (s : State) (o : Order) (outcome cause : Byte) (last : Nat) : Record :=
  { seq := o.seq, hon := o.hon, outcome := outcome, cause := cause,
    flags := o.fsum.zeroExtend 8 ||| (if o.unprotected then 0x20#8 else 0) ||| (if o.recomputed then 0x40 else 0),
    runUs := BitVec.ofNat 32 (o.runTicks / usTicks), stamp := s.time, last := BitVec.ofNat 32 last, slot := 0 }

/-- Insert a waiting record in serial order. -/
def insertRec (r : Record) : List Record → List Record
  | [] => [r]
  | x :: l => if serialGe r.seq x.seq then x :: insertRec r l else r :: x :: l

/-- The first slot of the ring of 256, from the next one on, that holds no record of the tenant (R229; log 9). -/
def freeSlot (x : TenantSt) : Nat :=
  (((List.range 256).map fun i => (x.recNext + i) % 256).find? fun k => x.records.all fun r => decide (r.slot.toNat ≠ k)).getD x.recNext

/-- A record is appended. -/
def appendRec (x : TenantSt) (r : Record) : TenantSt :=
  let k := freeSlot x
  { x with records := x.records ++ [{ r with slot := BitVec.ofNat 8 k }], recNext := (k + 1) % 256 }

/-- Records appear in sequence order: those below every order still held are appended (R206). -/
def flushRecs (x : TenantSt) : TenantSt :=
  let ok := fun (r : Record) => x.orders.all fun o => serialGe o.seq r.seq
  (x.unrec.takeWhile ok).foldl appendRec { x with unrec := x.unrec.dropWhile ok }

/-- The bytes of one record of a tenant, in both halves (R203, R229). -/
def storeRecord (s : State) (t : Tenant) (r : Record) : State :=
  mirrorWrite s (recordOff t.val + 32 * r.slot.toNat) r.bytes

/-- The records of a tenant after the first `n` are stored. -/
def storeRecords (s : State) (t : Tenant) (n : Nat) : State :=
  ((ten s t).records.drop n).foldl (fun u r => storeRecord u t r) s

/-- The remaining lines of a frame that the order claimed are discarded and counted, and its pixels leave the ingest buffer (R295). -/
def dropFrames (s : State) (t : Tenant) (seq : Word) : State :=
  (List.finRange 8).foldl (fun u c =>
    let v := if (cam u c).buf.any fun p => decide (p.owner = t ∧ p.seq = seq) then
      modCam u c fun x => { x with buf := x.buf.filter fun p => !decide (p.owner = t ∧ p.seq = seq) } else u
    match (cam v c).frame with
    | some f => (match f.claim with
      | some (t', q, _) => if t' = t ∧ q = seq then
          modCam v c fun x => { x with
            frame := some { f with claim := none }
            unclaimed := if f.lines < winH f.cfg.window then satInc x.unclaimed else x.unclaimed } else v
      | none => v)
    | none => v) s

/-- The segment of an order ends: an error after it is a first error again (R64, R181). -/
def endWindow (s : State) (t : Tenant) : State :=
  let s1 := (physTiles s (ownTiles s t)).foldl (fun u p => modTile u p.val fun x => { x with errorOpen := false }) s
  match seqOf s1 t with
  | some q => modSqr s1 q.val fun x => { x with regError := false }
  | none => s1

/-- The trap frame of a tenant moves to the surviving half when its half is fenced, between orders (R230). -/
def placeFrame (s : State) (t : Tenant) : State :=
  let h1 := (ten s t).frameH1
  if (runOrder s t).isNone ∧ halfOk s h1.toNat = false ∧ halfOk s (!h1).toNat = true then
    modTen s t fun x => { x with frameH1 := !h1 } else s

/-- The order leaves the queue with its record; retained inputs, staged outputs and checkpoints are freed (R198, R201). -/
def settle (s : State) (t : Tenant) (o : Order) (r : Record) : State :=
  let s1 := modTen s t fun x => flushRecs { x with
    orders := x.orders.filter fun p => decide (p.seq ≠ o.seq)
    unrec := insertRec r x.unrec
    wmSettled := if x.wmSettled = 0 ∨ serialGe r.seq x.wmSettled then r.seq else x.wmSettled
    recomputed := if o.recomputed then satInc x.recomputed else x.recomputed
    unprotected := if o.unprotected then satInc x.unprotected else x.unprotected
    holdRunning := true }
  let s2 := storeRecords (journalWrite s1 t) t (ten s t).records.length
  if o.st = .running then placeFrame (endWindow (dropCtx (quiet s2 t) t) t) t else s2

/-- The order becomes ABORTED with a cause of R205; staged outputs are discarded (R103). -/
def abortOrder (s : State) (t : Tenant) (o : Order) (cause : Byte) : State :=
  settle (dropFrames s t o.seq) t o (mkRecord s o 2 cause 0)

/-! ### Readiness (R14, R194, R198) -/

/-- Order starts are frozen (R18, R24, R429, R436). -/
def frozen (s : State) : Bool :=
  s.clk.freeze || decide (s.sup.vcore ≠ .normal) || decide (s.start.mode ≠ .running) || decide (s.clk.sleep = .entered)

/-- The tenant's oldest ACCEPTED order, ready to start while no order is RUNNING. -/
def readyOrder (s : State) (t : Tenant) : Option Order :=
  match (ten s t).orders with
  | o :: _ => if o.st = .accepted ∧ o.released = true ∧ frozen s = false ∧ (ten s t).ownPending = none then some o else none
  | [] => none

/-- Wake the polders of a tenant whose oldest order is ready; the idle hold ends (R14, R17). -/
def kick (s : State) (t : Tenant) : State :=
  match readyOrder s t with
  | some _ => modTen (wakeTenant s t) t fun x => { x with holdRunning := false }
  | none => s

def kickAll (s : State) : State := allTenants.foldl kick s

/-! ### Re-execution (R64, R124, R147, R202, R209) -/

/-- The location of a PE of a logical tile in a checkpoint. -/
def ckKey (n r c : Nat) : Nat := n * 4096 + r * 64 + c

/-- Free contents for every region of the tiles, and for F and P of every PE (R97; log 14). C is 0 and K is 1. -/
def scrubTiles (s : State) (ps : List TileId) : State :=
  let n := freshNum s
  let s1 := [0, 1, 2, 3, 4, 5].foldl (fun u r => scramble u ps r) s
  let s2 := ps.foldl (fun u p => (List.range 4096).foldl (fun v i =>
    let k := p.val * 4096 + i
    setPe v k { PE.clear with f := Config.freeBit n (locF k), p := BitVec.ofNat 12 (freeNat n (1140850688 + 16 * k) 12) }) u) s1
  let s3 := ps.foldl (fun u p => modTile { u with
    peBad := SMap.clearRange u.peBad (p.val * 2097152) 2097152 } p.val fun x => { x with bermValid := false }) s2
  bump s3

/-- The values of R70 in every PE of the tenant: K 1, C and P 0, the status byte 0. -/
def startPes (s : State) (t : Tenant) : State :=
  (physTiles s (ownTiles s t)).foldl (fun u p => (List.range 4096).foldl (fun v i =>
    let k := p.val * 4096 + i
    clearSticky (setPe v k { pe v k with k := true, c := false, p := 0 }) k 0xFF) u) s

/-- The registers of R70. -/
def startSeq (o : Order) (x : Sequencer) : Sequencer :=
  { quietSeq x with pc := o.entry, gw := .g1, s := SMap.set 0 [] 14 o.seq }

/-- The landed bindings named land again from their retained copies (R209). -/
def reland (s : State) (t : Tenant) (seq : Word) (bs : List Nat) : State :=
  bs.foldl (fun u b =>
    match getOrder u t seq with
    | some o => (match o.ins[b]? with
      | some i => (match i.arm with
        | some a => if i.landed then landAll u t { i with bands := 0 } a else u
        | none => u)
      | none => u)
    | none => u) s

/-- Restore C, K and the live planes of a checkpoint in the tiles that the tenant's logical tiles fill now. -/
def restorePlanes (s : State) (t : Tenant) (k : Ckpt) : State :=
  (ownTiles s t).foldl (fun u n =>
    match physOf u n with
    | none => u
    | some p => (List.range 4096).foldl (fun v i =>
        let key := p.val * 4096 + i
        let ck := SMap.get (false, true) k.regs (n * 4096 + i)
        let v1 := setPe v key { pe v key with c := ck.1, k := ck.2 }
        (List.range k.len).foldl (fun w j =>
          setPeBit w key (k.lb + j) (SMap.get false k.live ((n * 4096 + i) * 4096 + k.lb + j))) v1) u) s

/-- A binding that a re-execution arms afresh: an INARM after the checkpoint counts as not executed; a pre-armed one stays
armed (R209, R287). -/
def rearm (keep : Bool) (i : InBind) : InBind :=
  let pre := match i.kind, i.cam with
    | .camera, some c => c.prearm
    | _, _ => false
  let j := { i with bands := if i.landed then i.bands else 0, heldAt := [] }
  if keep then j else { j with inarmed := false, arm := if pre then i.arm else none }

/-- Re-execution starts: from the last checkpoint, or under R70 where none is readable (R209, R236). DESIGN CHOICE (log 55): an
execution under R70 frees the tenant's trap context, as it starts in FLUSH with all enables 0 (R136). -/
def reexecNow (s : State) (t : Tenant) (o : Order) (q : SeqId) : State :=
  let ps := physTiles s (ownTiles s t)
  let s1 := scrubTiles (openGate s q.val) ps
  match o.ckpt.filter fun k => k.copyA || k.copyB with
  | some k =>
    let ins := o.ins.mapIdx fun b i => rearm (k.armed.contains b) i
    let o1 : Order := { o with
      reexec := false, staged := o.staged.take k.staged, replay := o.journal, fsum := k.fsum, sinceTicks := 0, ins := ins }
    let s2 := setOrder (modSqr s1 q.val fun x => { quietSeq x with pc := k.pc, gw := k.gw, s := k.s }) t o1
    let s3 := ps.foldl (fun u p => modTile u p.val fun x => { x with reclaimed := k.reclaimed }) s2
    let s4 := restorePlanes (reland s3 t o.seq k.landed) t k
    let late := (List.range ins.length).filter fun b => !k.landed.contains b && (k.armed.contains b ||
      match ins[b]? with
      | some i => i.arm.isSome
      | none => false)
    let s5 := (List.range ins.length).foldl (fun u b => landBands u t o.seq b) (reland s4 t o.seq late)
    dropPending (match heldCtx s5 t with
      | some c => if k.enables = 0 ∧ k.trapMode = false then dropCtx s5 t else loadCtx s5 t c k.enables k.trapMode
      | none => (match freeCtx s5 with
        | some c => if k.enables = 0 ∧ k.trapMode = false then s5 else loadCtx s5 t c k.enables k.trapMode
        | none => s5)) t
  | none =>
    let ins := o.ins.map (rearm false)
    let o1 : Order := { o with
      reexec := false, staged := [], replay := o.journal, fsum := 0, sinceTicks := 0, ins := ins,
      unprotected := o.unprotected || o.ckpt.isSome }
    let s2 := startPes (setOrder (modSqr s1 q.val (startSeq o)) t o1) t
    let s3 := ps.foldl (fun u p => modTile u p.val fun x => { x with reclaimed := false }) s2
    let s4 := (List.range ins.length).foldl (fun u b => landBands u t o.seq b) (reland s3 t o.seq (List.range ins.length))
    dropCtx s4 t

/-- The re-execution can start: the order is RUNNING, starts are not frozen, its tiles are AWAKE, none of its logical
positions is lost, a sequencer is bound and, where the checkpoint needs a trap context, one is free or held (R147). -/
def reexecReady (s : State) (t : Tenant) (o : Order) : Bool :=
  let needs := match o.ckpt.filter fun k => k.copyA || k.copyB with
    | some k => decide (k.enables ≠ 0) || k.trapMode
    | none => false
  o.reexec && decide (o.st = .running) && !frozen s && tilesAwake s t && (ownTiles s t).all (fun n => (physOf s n).isSome) &&
    (!needs || (heldCtx s t).isSome || (freeCtx s).isSome)

/-- A re-execution reads the checkpoint's copies and those of the inputs that had landed; a copy whose read fails is lost (R236). -/
def readBack (s : State) (t : Tenant) (o : Order) : State × Order :=
  let c := match o.ckpt with
    | some k =>
      let r := readAreas s t 2 3 k.copyA k.copyB
      (r.1, { o with ckpt := some { k with copyA := r.2.1, copyB := r.2.2 } })
    | none => (s, o)
  (List.range o.ins.length).foldl (fun uo b => match uo.2.ins[b]? with
    | some i => if i.landed then
        let r := readAreas uo.1 t 4 5 i.copyA i.copyB
        (r.1, uo.2.modIn b fun j => { j with copyA := r.2.1, copyB := r.2.2 }) else uo
    | none => uo) c

/-- A retained input of an order of which no copy is left (R210). -/
def inputGone (i : InBind) : Bool := (i.claimed || i.complete) && !i.copyA && !i.copyB

/-- The pending re-execution of a tenant starts if it can; with no copy left of an input that had landed, the order becomes
ABORTED with INPUT_LOST (R210). -/
def tryReexec (s : State) (t : Tenant) : State :=
  match runOrder s t, seqOf s t with
  | some o, some q => if reexecReady s t o then
      let r := readBack s t o
      let s1 := setOrder r.1 t r.2
      if r.2.ins.any fun i => i.landed && inputGone i then kick (abortOrder s1 t r.2 0x0B) t else reexecNow s1 t r.2 q
    else s
  | _, _ => s

/-- Every waiting re-execution starts that can; a context that one of them frees goes to the others (R147). -/
def tryReexecAll (s : State) : State := (allTenants ++ allTenants).foldl tryReexec s

/-- A RUNNING order is to be recomputed: its stream stops, its record will carry RECOMPUTED (R198), and the re-execution
starts as soon as it can; while it waits for a trap context, FP_CONTEXT_BUSY is logged (R147). -/
def recompute (s : State) (t : Tenant) : State :=
  match runOrder s t with
  | none => s
  | some o =>
    let s1 := dropPending (quiet (setOrder s t { o with reexec := true, recomputed := true }) t) t
    let s2 := tryReexecAll (tryReexec s1 t)
    match runOrder s2 t with
    | some o2 =>
      if o2.reexec && !(match o2.ckpt with
          | some k => decide (k.enables = 0) && !k.trapMode
          | none => true) && (heldCtx s2 t).isNone && (freeCtx s2).isNone then
        logEvent s2 0x0205 1 [t] 0 t.val []
      else s2
    | none => s2

/-- Whatever of the oldest order's camera windows may be sent is sent (R286). -/
def landOldest (s : State) (t : Tenant) : State := match (ten s t).orders with
  | o :: _ => (List.range o.ins.length).foldl (fun u b => landBands u t o.seq b) s
  | [] => s

/-- After orders have settled: a freed context goes to a waiting re-execution (R147), and the next order, now the oldest, may land its
windows and be ready (R286). -/
def afterSettle (s : State) (t : Tenant) : State := kick (landOldest (tryReexecAll s) t) t

/-- Abort the orders given, oldest first, in one event. -/
def abortOrders (s : State) (t : Tenant) (seqs : List Word) (cause : Byte) : State :=
  afterSettle (seqs.foldl (fun u q =>
    match getOrder u t q with
    | some o => abortOrder u t o cause
    | none => u) s) t

/-- Every RUNNING and ACCEPTED order of the tenant becomes ABORTED. -/
def abortAllOrders (s : State) (t : Tenant) (cause : Byte) : State :=
  abortOrders s t ((ten s t).orders.map Order.seq) cause

/-- A claimed frame that cannot land whole: its order becomes ABORTED with INPUT_LOST (R295). -/
def inputLost (s : State) (t : Tenant) (seq : Word) : State := abortOrders s t [seq] 0x0B

/-- A window's bands are sent as far as they may be; with no retained copy left the order loses the input (R236, R286). -/
def landNow (s : State) (t : Tenant) (seq : Word) (b : Nat) : State :=
  let s1 := landBands s t seq b
  match (getOrder s1 t seq).bind fun o => o.ins[b]? with
  | some i => if decide (i.kind = .camera) && !i.landed && inputGone i then inputLost s1 t seq else s1
  | none => s1

/-- FENCE_CLEAR for an interface reaches ingest: the planes that it holds for it go out again, each to the tile that fills its
position now, or their orders lose the input (R268, R271). -/
def ingestClear (s : State) (n : NiId) (lost : Bool) : State :=
  allTenants.foldl (fun u t => (ten u t).orders.foldl (fun v o => (List.range o.ins.length).foldl (fun w b =>
    match (getOrder w t o.seq).bind fun p => p.ins[b]? with
    | some i =>
      let mine := i.heldAt.filter fun h => decide (h.ni = n)
      if mine.isEmpty then w
      else if lost then inputLost w t o.seq
      else
        let w1 := modOrder w t o.seq fun p => p.modIn b fun j => { j with heldAt := j.heldAt.filter fun h => decide (h.ni ≠ n) }
        (match i.cam, i.arm with
          | some c, some a => mine.foldl (fun x h => sendPlanes x t o.seq b c a h.band (h.tx, h.lt)) w1
          | _, _ => w1)
    | none => w) v) u) s

/-! ### Yields (R212–R214) -/

/-- The guarantee of a rung to tenant `t` yields to one to tenant `u` for a number of µs. -/
def yielded (s : State) (u t : Tenant) (rung : Byte) (us : Nat) : State :=
  let d : Bytes := [BitVec.ofNat 8 (4 * u.val + t.val), rung] ++ leBytes 2 us
  let s1 := modTen s t fun x => { x with yields := satInc x.yields }
  let s2 : State := { s1 with lastYield := leBytes 8 s.time.toNat ++ d ++ List.replicate 4 0 }
  tideFault (emergency (logEvent s2 0x0301 1 [u, t] 0 (leAt d 0 4) []) [u, t] 0xFF01 d) 4 0x0301

/-- An order path that tenant `t` uses may be delayed while another tenant's order is re-executed, since exactly-once work comes
before reservations and shares: the yield is logged, sent to both, counted and kept in LAST_YIELD (R380). Whether that happens, the
rung among those given and the duration are free (log 50). -/
def mayYield (s : State) (t : Tenant) (rungs : List Byte) : State :=
  match allTenants.find? fun u => decide (u ≠ t) && ((runOrder s u).map Order.recomputed).getD false with
  | none => s
  | some u =>
    let w := Config.freeWord (freshNum s) 86
    if w.getLsbD 0 then yielded (bump s) u t (rungs.getD (w.toNat / 2 % 2) 4) (w.toNat / 4 % 65536) else bump s

/-! ### Commit (R203) -/

/-- Bytes staged by an order in half A. -/
def stagedBytes (o : Order) : Nat := (o.staged.map fun w => w.data.length).foldl (· + ·) 0

/-- The words of a mailbox pass to the fabric's holding copy (R313). -/
def mailboxCopy (s0 : State) (m : Nat) : State :=
  let s := mirrorMend s0 (mailboxOff m) 64
  let d := mirrorRead s (mailboxOff m) 64
  let mb := (List.range 32).foldl (fun x w => SMap.set 0 x (32 * m + w) (BitVec.ofNat 16 (leAt d (2 * w) 2))) s.fab.mailbox
  { s with fab := { s.fab with mailbox := mb } }

/-- One staged write is released to its destination (R103, R203). -/
def releaseWrite (s : State) (t : Tenant) (b : OutBind) (w : Staged) : State :=
  let off := b.offset.toNat + w.off
  match b.kind with
  | .region => (match (ten s t).own with
    | some r => extWrite s r.extents off w.data
    | none => s)
  | .xm => mirrorWrite s (resultOff t.val + off) w.data
  | .pdo => modTen s t fun x => { x with result := SMap.writeN 0 x.result off w.data }
  | .mailbox => mirrorWrite s (mailboxOff b.mailbox.toNat + off) w.data

/-- What one release adds to its staged writes: RESULT_SEQ (R411), or word 31 and the holding copy (R313). -/
def releaseEnd (s : State) (t : Tenant) (b : OutBind) (seq : Word) : State :=
  match b.kind with
  | .pdo => modTen s t fun x => { x with resultSeq := seq }
  | .mailbox =>
    mailboxCopy (mirrorWrite s (mailboxOff b.mailbox.toNat + 62) (leBytes 2 (seq.toNat % 65536))) b.mailbox.toNat
  | _ => s

/-- Release of output binding `i` of an order: discarded unless its number is above the last one taken (R203 step 5). -/
def releaseBind (s : State) (t : Tenant) (o : Order) (i : Nat) : State :=
  match o.outs[i]? with
  | none => s
  | some b =>
    let ws := o.staged.filter fun w => decide (w.bind = i)
    let last := SMap.get 0 (ten s t).lastRelease i
    if ws = [] ∨ (last ≠ 0 ∧ serialGe last o.seq = true) then s
    else
      let s1 := ws.foldl (fun u w => releaseWrite u t b w) s
      modTen (releaseEnd s1 t b o.seq) t fun x => { x with lastRelease := SMap.set 0 x.lastRelease i o.seq }

def releaseAll (s : State) (t : Tenant) (o : Order) : State :=
  (List.range o.outs.length).foldl (fun u i => releaseBind u t o i) s

/-- Steps 3 to 6 of commit: both copies of the staged outputs are alike, so that either serves (R203, R236). -/
def commitOrder (s : State) (t : Tenant) (o : Order) : State :=
  let r := readAreas (mayYield s t [4, 5]) t 4 5 (areaUp s t 4) (areaUp s t 5)
  let s1 := releaseAll (journalWrite r.1 t) t o
  let s2 := settle s1 t o (mkRecord s o 1 0 (stagedBytes o))
  afterSettle (modTen s2 t fun x => { x with fsumLast := o.fsum }) t

/-- A machine check under R39 is an event of TIDE_FAULTS; no event code is given for it, so the header's is free (R479,
R480; log 6). -/
def checkMark (s : State) : State := tideFault s 1 ((Config.freeWord (freshNum s) 1).truncate 16)

/-- A CHECKED-DUAL comparison fails: a machine check, and at the second of the order DUAL_MISMATCH, with a march test of the tiles
of both halves (R218). -/
def dualMismatch (s : State) (t : Tenant) : State :=
  match runOrder s t with
  | none => s
  | some o =>
    if o.dualMiss = 0 then recompute (setOrder (checkMark s) t { o with dualMiss := 1 }) t
    else
      let tiles := ownTiles s t
      abortOrders { s with march := { s.march with
        tileDue := (physTiles s tiles).foldl (fun m p => SMap.set false m p.val true) s.march.tileDue } } t [o.seq] 0x07

/-- END has completed: compare the staged outputs of both halves, then commit (R203 steps 2–6). -/
def finishOrder (s : State) (t : Tenant) : State :=
  match runOrder s t with
  | none => s
  | some o =>
    if isDual s t && o.staged.any (fun w => decide (w.data ≠ w.dataB)) then dualMismatch s t
    else commitOrder s t o

/-! ### Abort (R215, R216) -/

/-- An abort by ABORT or by the fabric abort line. -/
def abortTenant (s : State) (t : Tenant) (fabric : Bool) : State :=
  let s2 := abortAllOrders (mayYield s t [3, 3]) t (if fabric then 0x02 else 0x01)
  let wm := (ten s2 t).wmSettled
  let final : Record :=
    { seq := wm, hon := 0, outcome := 3, cause := if fabric then 0x02 else 0x01, flags := 0, runUs := 0, stamp := s.time,
      last := wm, slot := 0 }
  let s3 := modTen s2 t fun x => appendRec { x with
    abortState := 2
    abortHold := x.abortHold ||| (match x.own with
      | some r => r.channels
      | none => 0) } final
  logEvent (storeRecords s3 t (ten s2 t).records.length) 0x0304 1 [t] t.val fabric.toNat (leBytes 4 wm.toNat)

/-! ### Start inputs (R14, R15, R195) -/

/-- A trigger releases its own order: the oldest ACCEPTED one that still waits for that start input, whichever orders wait for
others; the moment is the reference instant of its windows. The released order's number is answered. -/
def releaseStart (s : State) (t : Tenant) (code : Half) : Option Word :=
  ((ten s t).orders.find? fun o => decide (o.st = .accepted) && !o.released && decide (o.startInput = code)).map Order.seq

end Sys2Proof.Machine
end

