-- ==== Sys2Proof/Machine/Trap.lean ====
section
/-! DEFINITION. Vectored traps: entry, trap save slot and frame, return, double trap, resume, and the instruction boundary
(R80, R81, R138–R143, R172–R179, R514). -/

namespace Sys2Proof.Machine

/-! ### Residue units and X of a PE: undefined after every AIS instruction (R76; log 6) -/

def locR (k : Nat) : Nat := 1300000000 + 8 * k

/-- RA, RB and RR as one 6-bit number, RA lowest (R175). -/
def peRes (s : State) (k : Nat) : BitVec 6 :=
  let x := pe s k
  let n := SMap.get 0 s.peTag (8 * (k / 4096) + 5)
  (x.rr ++ x.rb ++ x.ra) ^^^ (if n = 0 then 0 else BitVec.ofNat 6 (freeNat n (locR k) 6))

def setPeRes (s : State) (k : Nat) (v : BitVec 6) : State :=
  let n := SMap.get 0 s.peTag (8 * (k / 4096) + 5)
  let w := v ^^^ (if n = 0 then 0 else BitVec.ofNat 6 (freeNat n (locR k) 6))
  setPe s k { pe s k with ra := w.extractLsb' 0 2, rb := w.extractLsb' 2 2, rr := w.extractLsb' 4 2 }

/-- The residue units of the PEs of some tiles are cleared, the first weight next (R155). -/
def clearResidues (s : State) (ps : List TileId) : State :=
  { s with
    peTag := ps.foldl (fun m p => SMap.set 0 m (8 * p.val + 5) 0) s.peTag
    pe := s.pe.foldl (fun m e =>
      if ps.any fun p => decide (e.1 / 4096 = p.val) then
        SMap.set PE.clear m e.1 { e.2 with ra := 0, rb := 0, rr := 0, weight2 := false }
      else m) s.pe }

/-! ### GOR results (R48, R49, R174) -/

/-- Deliver one result to GV and, when TV asks for it, TVR. -/
def deliverGor (x : Sequencer) (g : GorFlight) : Sequencer :=
  let gv := if g.device then x.gv ||| (1#32 <<< g.tag.toNat) else x.gv &&& ~~~(1#32 <<< g.tag.toNat)
  { x with gv := gv, tvr := if g.tv && !g.vecDone then g.vec else x.tvr }

def deliverAllGors (x : Sequencer) : Sequencer := { x.gors.foldl deliverGor x with gors := [] }

/-! ### Save slot and frame (R175, R176) -/

/-- Every PE of the tenant writes C, K, X, F, P and its residue unit into the trap save slot, whose reserved bits read zero (R7). -/
def saveSlot (s : State) (k : Nat) : State :=
  let x := pe s k
  let s1 := setPeBit (setPeBit (setPeBit (setPeBit s k 2680 x.c) k 2681 x.k) k 2682 (peX s k)) k 2683 x.f
  let s2 := (List.range 12).foldl (fun u i => setPeBit u k (2684 + i) (x.p.getLsbD i)) s1
  let s3 := (List.range 6).foldl (fun u i => setPeBit u k (2696 + i) ((peRes s k).getLsbD i)) s2
  setPeBit (setPeBit s3 k 2702 false) k 2703 false

/-- Reload a PE from its trap save slot. -/
def loadSlot (s : State) (k : Nat) : State :=
  let p := (List.range 12).foldr (fun i a => 2 * a + (peBit s k (2684 + i)).toNat) 0
  let r := (List.range 6).foldr (fun i a => 2 * a + (peBit s k (2696 + i)).toNat) 0
  let s1 := setPe s k { pe s k with
    c := peBit s k 2680, k := peBit s k 2681, f := peBit s k 2683, p := BitVec.ofNat 12 p }
  setPeRes (setPeX s1 k (peBit s k 2682)) k (BitVec.ofNat 6 r)

def gwCode : Gang → Nat
  | .g1 => 0
  | .g4 => 1
  | .g16 => 2

/-- MMODE in the frame; code 3 is a SLIDE register that has returned (log 15). -/
def mmodeCode (m : MicroAddr) : Nat := if m.mode = 2 ∧ m.returned = true then 3 else m.mode.toNat

/-- Bytes 0x000–0x07B of the trap frame (R176). -/
def frameBytes (x : Sequencer) (cause pc detail resume upc cursor : Nat) : Bytes :=
  let ma := fun i => SMap.get MicroAddr.initial x.ma i
  let lc := fun i => SMap.get (LoopCounter.mk 0 0) x.lc i
  let ws := match x.ws with
    | some w => w.cond.toNat + 8 * w.nt.toNat + 16 * w.acCount.toNat + 131072 * w.edge0.toNat + 262144 * w.edge1.toNat
    | none => 0
  let us := match x.ws with
    | some w => w.usCount.toNat
    | none => 0
  leBytes 4 (0x02000000 + cause) ++ leBytes 4 pc ++ leBytes 4 detail ++ leBytes 4 resume ++ leBytes 8 x.il.toNat ++
    leBytes 2 upc ++ leBytes 2 cursor ++
    leBytes 4 (gwCode x.gw + 4 * x.z.toNat + 8 * x.n.toNat + 16 * x.rs.length + 128 * x.tl.toNat) ++
    (List.range 8).flatMap (fun i => leBytes 2 ((ma i).addr.toNat + 4096 * (ma i).ind.toNat)) ++
    (List.range 8).flatMap (fun i =>
      leBytes 4 ((ma i).base.toNat + 4096 * (ma i).len.toNat + 524288 * mmodeCode (ma i))) ++
    (List.range 4).flatMap (fun i => leBytes 2 (lc i).val.toNat ++ leBytes 2 (lc i).reload.toNat) ++
    (List.range 4).flatMap (fun i => leBytes 2 (x.rs.getD i 0).toNat) ++
    leBytes 4 x.gv.toNat ++ leBytes 2 x.tvr.toNat ++ leBytes 2 x.sv.toNat ++ leBytes 4 x.bl.toNat ++ leBytes 4 ws ++
    leBytes 4 us

/-- The WAIT state that a frame holds, for a WAIT that issues again: its counts are 0 after a micro-timeout, else as they were;
its edges stay latched (R163, R177). -/
def frameWait (f : Bytes) : Wait :=
  let w := leAt f 0x74 4
  let timeout := decide (leAt f 0 1 = 4)
  { cond := BitVec.ofNat 3 w, imm := 0, nt := w.testBit 3
    acCount := if timeout then 0 else BitVec.ofNat 13 (w / 16), usCount := if timeout then 0 else BitVec.ofNat 32 (leAt f 0x78 4)
    edge0 := w.testBit 17, edge1 := w.testBit 18, ais := none }

/-- The sequencer's items restored from the frame (R177). An interrupted microword issues again, a WAIT from its saved state. -/
def loadFrame (x : Sequencer) (f : Bytes) : Sequencer :=
  let g := leAt f 0x1C 4
  let mid := decide (leAt f 0x18 2 ≠ 0xFFFF)
  { x with
    pc := BitVec.ofNat 24 (leAt f 0x0C 4), il := BitVec.ofNat 64 (leAt f 0x10 8)
    upc := BitVec.ofNat 14 (leAt f 0x18 2), gw := layoutOf (g % 4), z := g.testBit 2, n := g.testBit 3, tl := false
    rs := (List.range (Nat.min 4 (g / 16 % 8))).map fun i => BitVec.ofNat 14 (leAt f (0x60 + 2 * i) 2)
    ma := (List.range 8).foldl (fun m i =>
      let a := leAt f (0x20 + 2 * i) 2
      let b := leAt f (0x30 + 4 * i) 4
      let md := b / 524288 % 4
      SMap.set MicroAddr.initial m i
        ⟨a.testBit 12, BitVec.ofNat 12 a, BitVec.ofNat 12 b, BitVec.ofNat 7 (b / 4096),
          BitVec.ofNat 2 (if md = 3 then 2 else md), decide (md = 3)⟩) []
    lc := (List.range 4).foldl (fun m i => SMap.set (LoopCounter.mk 0 0) m i
      ⟨BitVec.ofNat 16 (leAt f (0x50 + 4 * i) 2), BitVec.ofNat 16 (leAt f (0x52 + 4 * i) 2)⟩) []
    gv := BitVec.ofNat 32 (leAt f 0x68 4), tvr := BitVec.ofNat 16 (leAt f 0x6C 2), sv := BitVec.ofNat 16 (leAt f 0x6E 2)
    bl := BitVec.ofNat 11 (leAt f 0x70 4), ws := none, wsBack := if mid then some (frameWait f) else none, midRoutine := mid }

/-! ### Time -/

/-- `n` ac of running time (R106, R204; log 10). -/
def addTime (s : State) (t : Tenant) (n : Nat) : State :=
  modRun s t fun o => { o with runTicks := o.runTicks + n * acTicks s t, sinceTicks := o.sinceTicks + n * acTicks s t }

/-! ### Entry and double trap -/

/-- A vectored trap at trap level: the order becomes ABORTED with DOUBLE_TRAP (R179). -/
def doubleTrap (s : State) (t : Tenant) (cause pc : Nat) : State :=
  match runOrder s t with
  | none => s
  | some o => abortOrders (logEvent s 0x0203 1 [t] t.val cause (leBytes 4 pc ++ leBytes 4 o.seq.toNat)) t [o.seq] 0x04

/-- An instruction index outside the program area, or below 32 (R80 cause 5). -/
def badTarget (s : State) (t : Tenant) (a : Nat) : Bool :=
  match (ten s t).own with
  | some r => decide (a < 32 ∨ progWords r ≤ a)
  | none => true

/-- The target in bits [23:0] of vector word `c`, read as a fetch is (R80, R236); none when both copies fail. -/
def trapVector (s : State) (t : Tenant) (c : Nat) : State × Option Nat :=
  match (ten s t).own with
  | some r => let p := fetchProg s r c; (p.1, p.2.map fun v => v % 2 ^ 24)
  | none => (s, some 0)

/-- The steps of R174 at trap level 0, in 44 ac. A handler address outside the program area is a fetch fault at trap level. -/
def enterTrap (s : State) (t : Tenant) (q : SeqId) (cause detail pc resume upc : Nat) : State :=
  let s1 := modSqr s q.val deliverAllGors
  let ks := (physTiles s (ownTiles s t)).flatMap fun p => (List.range 4096).map fun i => p.val * 4096 + i
  let s2 := ks.foldl saveSlot s1
  let x := sqr s2 q.val
  let ma0 := (SMap.get MicroAddr.initial x.ma 0).addr
  let cursor := (ma0 - (x.il.extractLsb' 27 12)).toNat
  let s3 := xmWrite s2 (trapFrame s2 t.val) (frameBytes x cause pc detail resume upc cursor)
  let vec := trapVector s3 t cause
  let s4 := ks.foldl (fun u k => setPe u k { pe u k with k := true, c := false }) vec.1
  let s5 := modSqr s4 q.val fun x => { x with
    gw := .g1, bl := 0, tl := true, ws := none, wsBack := none, midRoutine := false, loop := none
    pc := BitVec.ofNat 24 (vec.2.getD 0) }
  let s6 := modTen s5 t fun x => { x with trapCount := satInc x.trapCount }
  let s7 := addTime s6 t 44
  match vec.2 with
  | none => abortOrders s7 t ((runOrder s7 t).toList.map Order.seq) 0x09
  | some v => if badTarget s7 t v then doubleTrap s7 t 5 v else s7

/-- Raise a vectored trap of the instruction at `pc`. -/
def raiseTrap (s : State) (t : Tenant) (q : SeqId) (cause detail pc resume upc : Nat) : State :=
  if (sqr s q.val).tl then doubleTrap s t cause pc else enterTrap s t q cause detail pc resume upc

/-- µPC of a trap at an instruction boundary (R176). -/
def noUpc : Nat := 0xFFFF

/-! ### Flag ORs and the instruction boundary (R135, R141–R143) -/

/-- One flag OR arrives: it accumulates into FSUM, and enabled flags become pending in the tenant's context; an instruction of trap
level ran with all enables 0 (R136). DESIGN CHOICE (log 54): the enables in force at the arrival decide. -/
def takeFlagOr (s : State) (t : Tenant) (f : FlagOr) : State :=
  let s1 := modRun s t fun o => { o with fsum := o.fsum ||| f.flags }
  match heldCtx s1 t with
  | none => s1
  | some k =>
    let c := ctx s1 k.val
    let p := if f.trapLevel then 0 else f.flags &&& c.enables
    if p = 0 then s1
    else setCtx s1 k.val { c with pending := c.pending ||| p, pendPc := if c.pending = 0 then f.pc else c.pendPc }

/-- Every flag OR in flight arrives (R98, R142). -/
def drainFlags (s : State) (t : Tenant) (q : SeqId) : State :=
  let l := (sqr s q.val).flagOrs
  l.foldl (fun u f => takeFlagOr u t f) (modSqr s q.val fun x => { x with flagOrs := [] })

/-- The context of the tenant holds a pending enabled exception. -/
def pendingCtx (s : State) (t : Tenant) : Option (Fin 3) :=
  match heldCtx s t with
  | some k => if (ctx s k.val).pending ≠ 0 then some k else none
  | none => none

/-- The first binding of the running order whose claim has raised a binding fault that is still to be taken (R288). -/
def claimFault (s : State) (t : Tenant) : Option Nat :=
  (runOrder s t).bind fun o => o.ins.findIdx? fun i => decide (i.fault = .due)

/-- A trap waits for the instruction boundary. -/
def trapWaits (s : State) (t : Tenant) : Bool := (pendingCtx s t).isSome || (claimFault s t).isSome

/-- The binding fault of a claim is taken where a program that stands at an instruction boundary, or waits in WAITEV or INWAIT, would go
on (R172, R288; log 29). -/
def bindTrap (s : State) (t : Tenant) (q : SeqId) : State :=
  let x := sqr s q.val
  let micro := match x.ws with
    | some w => w.ais.isNone
    | none => x.midRoutine
  if x.tl || micro || frozen s || decide (x.bound ≠ some t) then s
  else match claimFault s t with
    | none => s
    | some b =>
      enterTrap (modRun s t fun o => o.modIn b fun i => { i with fault := .raised }) t q 7 b x.pc.toNat x.pc.toNat noUpc

/-- The instruction boundary: a pending imprecise trap is taken at program level, unless the supply-warning freeze, which comes
first, is in force (R141, R143, R173). -/
def boundary (s : State) (t : Tenant) (q : SeqId) : State :=
  let x := sqr s q.val
  if x.tl || x.ws.isSome || x.midRoutine || frozen s || decide (x.bound ≠ some t) then s
  else match pendingCtx s t with
    | none => bindTrap s t q
    | some k =>
      let c := ctx s k.val
      enterTrap (setCtx s k.val { c with pending := 0, pendPc := 0 }) t q 2 0 c.pendPc.toNat x.pc.toNat noUpc

/-- The PC moves to the next instruction; a PC outside the program area is cause 5 (R80, R514). -/
def advance (s : State) (t : Tenant) (q : SeqId) : State :=
  let pc := (sqr s q.val).pc
  if badTarget s t (pc + 1).toNat then
    raiseTrap (modSqr s q.val fun x => { x with pc := pc + 1 }) t q 5 0 pc.toNat (pc + 1).toNat noUpc
  else modSqr s q.val fun x => { x with pc := pc + 1 }

/-- The PC moves to a branch target; a target outside the program area acts as a branch not taken and is cause 5. -/
def jump (s : State) (t : Tenant) (q : SeqId) (tgt : Nat) : State :=
  let pc := (sqr s q.val).pc
  if badTarget s t tgt then raiseTrap s t q 5 0 pc.toNat (pc + 1).toNat noUpc
  else modSqr s q.val fun x => { x with pc := BitVec.ofNat 24 tgt }

/-- RTT: reload the frame and the save slot (R177); a resume PC outside the program area ends the order (R514). -/
def returnTrap (s : State) (t : Tenant) (q : SeqId) : State :=
  let f := xmRead s (trapFrame s t.val) 0x7C
  let ks := (physTiles s (ownTiles s t)).flatMap fun p => (List.range 4096).map fun i => p.val * 4096 + i
  let s1 := ks.foldl loadSlot (latchBad s fun k b =>
    inBits 2680 22 b && (physTiles s (ownTiles s t)).any fun p => decide (k / 4096 = p.val))
  let s2 := modSqr s1 q.val fun x => loadFrame x f
  let resume := leAt f 0x0C 4 % 2 ^ 24
  if badTarget s2 t resume then doubleTrap s2 t (leAt f 0 1) resume else s2

end Sys2Proof.Machine
end

