-- ==== Sys2Proof/Machine/Failover.lean ====
section
/-! DEFINITION. Declared faults and takeovers of tiles and sequencers, and machine checks
(R39, R51, R62–R66, R124, R140, R181–R183, R187, R210). -/

namespace Sys2Proof.Machine

/-! ### Tiles -/

/-- A tile changes its service state, which is logged with both tile numbers (R65, R485). -/
def setTileSvc (s : State) (p : TileId) (v : TileService) : State :=
  let old := (tile s p.val).service
  logEvent (modTile s p.val fun x => { x with service := v }) 0x0101 (if v = .failed then 2 else 1)
    (ownerOf s p).toList p.val (v.code + 256 * old.code + 65536 * lposCode s p) []

/-- The lowest-numbered standby tile (R65). -/
def spareTile (s : State) : Option TileId := (List.finRange 17).find? fun p => decide ((tile s p.val).service = .spare)

/-- The next phase of a faulted tile once it is drained and OFF (R65). -/
def tileDrained (s : State) (p : TileId) : State :=
  if (tile s p.val).service = .draining then setTileSvc (modTile s p.val fun x => { x with passes := 0 }) p .retest else s

/-- A destructive march of a tile in RETEST ends: the second pass in succession makes it a spare, a failure ends it for good
(R65). -/
def tileMarched (s : State) (p : TileId) (passed : Bool) : State :=
  let x := tile s p.val
  if x.service ≠ .retest then s
  else if passed then
    if x.passes = 0 then modTile s p.val fun y => { y with passes := 1 }
    else setTileSvc (modTile s p.val fun y => { y with passes := 0 }) p .spare
  else setTileSvc (modTile s p.val fun y => { y with faults := satInc y.faults, passes := 0 }) p .failed

/-- A physical tile in service is declared faulted: the spare takes its logical position and the order is recomputed, or
the position is lost (R64–R66, R210). -/
def tileFault (s : State) (p : TileId) : State :=
  let pos := lposOf s p
  let owner := ownerOf s p
  let busy := !(tile s p.val).polder.isOff && decide ((tile s p.val).polder ≠ .dark)
  let rec_ := (tile s p.val).reclaimed
  let s1 := setTileSvc (modTile s p.val fun x => { x with faults := satInc x.faults, errorOpen := false }) p .draining
  let s2 := if (tile s p.val).polder.isOff then s1 else powerDown s1 p.val .draining
  let off := (tile s2 p.val).polder.isOff
  match pos with
  | none => if off then tileDrained s2 p else s2
  | some n =>
    match spareTile s with
    | some c =>
      let s3 := setTileSvc (modTile (setPhys s2 n (some c)) c.val fun x => { x with
        bermValid := false, reclaimed := rec_, errorOpen := false }) c .inService
      let s4 := if busy || (match owner with
          | some t => (runOrder s t).isSome
          | none => false) then retargetFab (wakePolder s3 c.val) else s3
      let s5 := sendClear (if off then tileDrained s4 p else s4) (tileNi p.val) (tileNi c.val) false
      match owner with
      | some t =>
        let hit := (runOrder s t).isSome
        partFault (recompute s5 t) (if hit then [t] else []) 0 p.val 0
      | none => partFault s5 [] 0 p.val 0
    | none =>
      let s3 := setPhys s2 n none
      let s4 := sendClear (if off then tileDrained s3 p else s3) (tileNi p.val) (tileNi p.val) true
      match owner with
      | some t =>
        let hit := !(ten s t).orders.isEmpty
        partFault (abortAllOrders (modTen s4 t fun x => { x with lost := true }) t 0x05) (if hit then [t] else []) 0 p.val 1
      | none => partFault s4 [] 0 p.val 1

/-! ### Sequencers -/

/-- A sequencer changes its service state, which is logged (R182, R485). -/
def setSeqSvc (s : State) (q : SeqId) (v : SeqService) : State :=
  let old := (sqr s q.val).service
  logEvent (modSqr s q.val fun x => { x with service := v }) 0x0201 (if v = .failed then 2 else 1)
    (seqTenant s q.val).toList q.val (v.code + 256 * old.code) []

/-- The lowest-numbered spare sequencer (R182). -/
def spareSeq (s : State) : Option SeqId := (List.finRange 5).find? fun q => decide ((sqr s q.val).service = .spare)

/-- A microcode update stops (R187): every sequencer keeps a verified image, and its staging copy serves those that hold the
patched one; a sequencer that was being loaded is a spare. -/
def patchStop (s : State) : State :=
  if s.mc.patchState = 2 then
    let s1 := emergency { s with mc := { s.mc with patchState := 5 } } [0] 0x6030 [5]
    ((List.finRange 5).filter fun q => decide ((sqr s q.val).service = .loading)).foldl (fun u q => setSeqSvc u q .spare) s1
  else s

/-- A bound sequencer is declared faulted: an update stops, the spare takes the tenant and the order is recomputed on it, or
the tenant's orders become ABORTED (R182, R183, R187, R210). -/
def seqFault (s : State) (q : SeqId) : State :=
  match (sqr s q.val).bound with
  | none => s
  | some t =>
    let s0 := patchStop s
    match spareSeq s0 with
    | some c =>
      let s1 := sendClear (closeNi (setSeqSvc s0 q .draining) (seqNi q.val).val .draining) (seqNi q.val) (seqNi c.val) false
      let s2 := modSqr s1 q.val fun x => { quietSeq x with bound := none, regError := false }
      let s3 := setSeqSvc (modSqr s2 c.val fun x => { quietSeq x with bound := some t, regError := false }) c .inService
      partFault (recompute s3 t) (if (runOrder s t).isSome then [t] else []) 1 q.val 0
    | none =>
      let s1 := sendClear (modSqr (setSeqSvc s0 q .failed) q.val fun x => { quietSeq x with bound := none }) (seqNi q.val)
        (seqNi q.val) true
      partFault (abortAllOrders (modTen s1 t fun x => { x with seqLost := true }) t 0x06)
        (if (ten s t).orders.isEmpty then [] else [t]) 1 q.val 1

/-- Words that fail again however often they are rewritten. -/
def stuckWords (x : Sequencer) : SMap WordFault := x.wcsBad.filter fun e => decide (e.2 = .stuck)

/-- A store is loaded whole: every word is rewritten, which mends what can be mended. -/
def loadStore (w : SMap Word) (patched : Bool) (x : Sequencer) : Sequencer :=
  { x with wcs := w, wcsBad := stuckWords x, image := patched }

/-- A drained sequencer reloads its WCS from the golden copy and reads every word back twice: a spare when both read-backs match,
else FAILED and powered down for good (R182). -/
def seqDrained (s : State) (q : SeqId) : State :=
  if (sqr s q.val).service = .draining then
    let s1 := modSqr (setSeqSvc s q .retest) q.val (loadStore s.mc.golden false)
    if stuckWords (sqr s q.val) ≠ [] then setNiSt (setSeqSvc s1 q .failed) (seqNi q.val).val (.fenced .off)
    else openNi (setSeqSvc s1 q .spare) (seqNi q.val)
  else s

/-! ### Machine checks (R39, R64, R124, R140, R181) -/

/-- Clear the error latches of a tile's PEs. -/
def clearLatches (s : State) (p : TileId) : State :=
  { s with pe := s.pe.foldl (fun m e =>
      if e.1 / 4096 = p.val then SMap.set PE.clear m e.1 { e.2 with parityErr := false, residueErr := false } else m) s.pe }

/-- A sample of the culverts or the OR tree of some tiles, with those whose parity failed: the error of a tile that recurs on two
successive samples declares it faulted (R47, R51, R64; log 59). -/
def linkSample (s : State) (ps bad : List TileId) : State :=
  ps.foldl (fun u p =>
    let e := (tile u p.val).linkErr
    if bad.contains p then
      if e then takeMark (tileFault (modTile u p.val fun x => { x with linkErr := false }) p)
      else modTile u p.val fun x => { x with linkErr := true }
    else if e then modTile u p.val fun x => { x with linkErr := false } else u) s

/-- A read of the tenant's trap frame whose parity fails twice: a machine check, and the order is recomputed (R236). -/
def trapFrameLost (s : State) (t : Tenant) : State :=
  takeMark (recompute (checkMark (readFailed s true (trapFrame s t.val) (roleByte s 9))) t)

/-- What a machine check does: an error in a tile in service of a running order (R64, R124), in a bound sequencer's registers
(R181), or in a held trap context (R140). -/
def machineCheck (s : State) (src : McSource) : State :=
  match src with
  | .tile p =>
    let s1 := clearLatches s p
    match ownerOf s p with
    | none => s1
    | some t =>
      if (runOrder s1 t).isNone then s1
      else if (tile s1 p.val).errorOpen then tileFault (checkMark s1) p
      else recompute (modTile (checkMark s1) p.val fun x => { x with errorOpen := true }) t
  | .sequencer q =>
    match (sqr s q.val).bound with
    | none => s
    | some t =>
      if (runOrder s t).isNone then s
      else if (sqr s q.val).regError then seqFault (checkMark s) q
      else recompute (modSqr (checkMark s) q.val fun x => { x with regError := true }) t
  | .context k =>
    match (ctx s k.val).st with
    | .held t =>
      recompute (logEvent (setCtx (checkMark s) k.val { TrapCtx.initial with st := .retired }) 0x0206 2 [t] k.val k.val []) t
    | _ => s

end Sys2Proof.Machine
end

