-- ==== Sys2Proof/Machine/Float.lean ====
section
/-! DEFINITION. Floating point in one element: values, rounding, flags, subnormal modes, the data-dependent parameters and
the times (R125–R145, R149, R150). -/

namespace Sys2Proof.Machine

/-- A format (R125): width, exponent bits, bias, significand bits with the hidden bit. -/
structure Fmt where
  w : Nat
  eb : Nat
  bias : Nat
  m : Nat
  deriving DecidableEq, Repr

def binary16 : Fmt := ⟨16, 5, 15, 11⟩
def bfloat16 : Fmt := ⟨16, 8, 127, 8⟩
def binary32 : Fmt := ⟨32, 8, 127, 24⟩

/-- The format of a code (R86, R125); code 3 is reserved and is refused before any use. -/
def fmtOf (c : Nat) : Fmt := if c = 0 then binary16 else if c = 1 then bfloat16 else binary32

/-- Rounding modes (R86): RNE, RTZ, RUP, RDN. -/
inductive Rm where
  | rne | rtz | rup | rdn
  deriving DecidableEq, Repr

def rmOf (c : BitVec 2) : Rm := if c = 0 then .rne else if c = 1 then .rtz else if c = 2 then .rup else .rdn

/-- A datum: sign and, for a finite number, the significand `n` and exponent `e` of the value n · 2^e. -/
inductive FVal where
  | nan (signalling : Bool)
  | inf (neg : Bool)
  | zero (neg : Bool)
  | num (neg : Bool) (n : Nat) (e : Int)
  deriving DecidableEq, Repr

def Fmt.infBits (f : Fmt) (neg : Bool) : Nat := neg.toNat * 2 ^ (f.w - 1) + (2 ^ f.eb - 1) * 2 ^ (f.m - 1)
def Fmt.maxBits (f : Fmt) (neg : Bool) : Nat := f.infBits neg - 1
def Fmt.zeroBits (f : Fmt) (neg : Bool) : Nat := neg.toNat * 2 ^ (f.w - 1)
/-- The canonical quiet NaN (R131). -/
def Fmt.qnan (f : Fmt) : Nat := f.infBits false + 2 ^ (f.m - 2)

def Fmt.sign (f : Fmt) (x : Nat) : Bool := x.testBit (f.w - 1)
def Fmt.exp (f : Fmt) (x : Nat) : Nat := x / 2 ^ (f.m - 1) % 2 ^ f.eb
def Fmt.frac (f : Fmt) (x : Nat) : Nat := x % 2 ^ (f.m - 1)
/-- The exponent field with 0 read as 1 (R144). -/
def Fmt.exp1 (f : Fmt) (x : Nat) : Nat := if f.exp x = 0 then 1 else f.exp x
/-- The m-bit significand. -/
def Fmt.sig (f : Fmt) (x : Nat) : Nat := f.frac x + if f.exp x = 0 then 0 else 2 ^ (f.m - 1)
def Fmt.isSubnormal (f : Fmt) (x : Nat) : Bool := decide (f.exp x = 0 ∧ f.frac x ≠ 0)
def Fmt.isFinite (f : Fmt) (x : Nat) : Bool := decide (f.exp x ≠ 2 ^ f.eb - 1)
def Fmt.isZero (f : Fmt) (x : Nat) : Bool := decide (f.exp x = 0 ∧ f.frac x = 0)

/-- A subnormal input is read as a zero of its sign in FLUSH (R137). -/
def Fmt.flush (f : Fmt) (trapMode : Bool) (x : Nat) : Nat :=
  if trapMode = false ∧ f.isSubnormal x = true then f.zeroBits (f.sign x) else x

/-- The datum that a pattern encodes (R125, R131). -/
def Fmt.decode (f : Fmt) (x : Nat) : FVal :=
  if f.isFinite x = false then
    if f.frac x = 0 then .inf (f.sign x) else .nan (decide (f.frac x < 2 ^ (f.m - 2)))
  else if f.sig x = 0 then .zero (f.sign x)
  else .num (f.sign x) (f.sig x) ((f.exp1 x : Int) - f.bias - (f.m - 1))

/-- A delivered result: pattern, flags, and whether it is tiny (R129). -/
structure FRes where
  d : Nat
  flags : Byte
  tiny : Bool
  deriving DecidableEq, Repr

/-- Round the magnitude n / 2^sh, with `st` for a further part below bit 0 of n: the quotient and whether it is inexact. -/
def roundShift (rm : Rm) (neg : Bool) (n sh : Nat) (st : Bool) : Nat × Bool :=
  let q := n >>> sh
  let rem := n % 2 ^ sh
  let inexact := decide (rem ≠ 0) || st
  let above := decide (2 ^ sh < 2 * rem) || (decide (2 ^ sh = 2 * rem) && st)
  let tie := decide (2 ^ sh = 2 * rem) && !st
  let up := match rm with
    | .rne => above || (tie && q.testBit 0)
    | .rtz => false
    | .rup => inexact && !neg
    | .rdn => inexact && neg
  (if up then q + 1 else q, inexact)

/-- The overflow result (R128). -/
def Fmt.overflow (f : Fmt) (rm : Rm) (neg : Bool) : Nat :=
  match rm, neg with
  | .rne, _ => f.infBits neg
  | .rtz, _ => f.maxBits neg
  | .rup, false => f.infBits false
  | .rup, true => f.maxBits true
  | .rdn, false => f.maxBits false
  | .rdn, true => f.infBits true

/-- Deliver the non-zero value ±(n + st·ε) · 2^e in a format (R127–R129, R134, R137): `st` marks a part below one unit
of n, and then n has at least m + 2 bits. -/
def Fmt.deliver (f : Fmt) (rm : Rm) (trapMode neg : Bool) (n : Nat) (e : Int) (st : Bool) : FRes :=
  let l := bitLen n
  let (n1, e1) := if l < f.m + 2 then (n <<< (f.m + 2 - l), e - (f.m + 2 - l : Nat)) else (n, e)
  let sh := bitLen n1 - f.m
  let (q0, inex) := roundShift rm neg n1 sh st
  let (q, e2) := if q0 = 2 ^ f.m then (2 ^ (f.m - 1), e1 + sh + 1) else (q0, e1 + sh)
  let ex : Int := e2 + (f.m - 1 : Nat) + f.bias
  if ex < 1 then
    if trapMode = false then ⟨f.zeroBits neg, flagUF ||| flagNX, true⟩
    else
      let s2 := ((1 : Int) - f.bias - (f.m - 1 : Nat) - e1).toNat
      let (q2, inex2) := roundShift rm neg n1 s2 st
      ⟨f.zeroBits neg + q2, if inex2 then flagUF ||| flagNX else 0, true⟩
  else if (2 ^ f.eb - 1 : Nat) ≤ ex then ⟨f.overflow rm neg, flagOF ||| flagNX, false⟩
  else ⟨f.zeroBits neg + ex.toNat * 2 ^ (f.m - 1) + (q - 2 ^ (f.m - 1)), if inex then flagNX else 0, false⟩

/-- The canonical NaN with NV, or without a flag. -/
def Fmt.invalid (f : Fmt) : FRes := ⟨f.qnan, flagNV, false⟩
def Fmt.quiet (f : Fmt) : FRes := ⟨f.qnan, 0, false⟩
def Fmt.exact (x : Nat) : FRes := ⟨x, 0, false⟩

def FVal.isSnan : FVal → Bool
  | .nan s => s
  | _ => false

def FVal.isNan : FVal → Bool
  | .nan _ => true
  | _ => false

/-- The sum of two finite non-zero numbers or of such a number and nothing, exact (R127); a zero sum by R130. -/
def Fmt.sum (f : Fmt) (rm : Rm) (trapMode : Bool) (na : Bool) (a : Nat) (ea : Int) (nb : Bool) (b : Nat) (eb : Int) : FRes :=
  let e := if ea < eb then ea else eb
  let x : Int := (a <<< (ea - e).toNat : Nat)
  let y : Int := (b <<< (eb - e).toNat : Nat)
  let v := (if na then -x else x) + (if nb then -y else y)
  if v = 0 then Fmt.exact (f.zeroBits (decide (rm = .rdn))) else f.deliver rm trapMode (decide (v < 0)) v.natAbs e false

/-- Addition of two data (R127, R130, R131). -/
def Fmt.add (f : Fmt) (rm : Rm) (trapMode : Bool) (a b : FVal) : FRes :=
  if a.isSnan || b.isSnan then f.invalid
  else if a.isNan || b.isNan then f.quiet
  else match a, b with
    | .inf s, .inf s' => if s = s' then Fmt.exact (f.infBits s) else f.invalid
    | .inf s, _ => Fmt.exact (f.infBits s)
    | _, .inf s => Fmt.exact (f.infBits s)
    | .zero s, .zero s' => Fmt.exact (f.zeroBits (if s = s' then s else decide (rm = .rdn)))
    | .num s n e, .zero _ => f.deliver rm trapMode s n e false
    | .zero _, .num s n e => f.deliver rm trapMode s n e false
    | .num s n e, .num s' n' e' => f.sum rm trapMode s n e s' n' e'
    | _, _ => f.quiet

def FVal.neg : FVal → FVal
  | .nan s => .nan s
  | .inf s => .inf !s
  | .zero s => .zero !s
  | .num s n e => .num (!s) n e

/-- Multiplication (R127, R131). -/
def Fmt.mul (f : Fmt) (rm : Rm) (trapMode : Bool) (a b : FVal) : FRes :=
  if a.isSnan || b.isSnan then f.invalid
  else if a.isNan || b.isNan then f.quiet
  else match a, b with
    | .inf _, .zero _ => f.invalid
    | .zero _, .inf _ => f.invalid
    | .inf s, .inf s' => Fmt.exact (f.infBits (s != s'))
    | .inf s, .num s' _ _ => Fmt.exact (f.infBits (s != s'))
    | .num s _ _, .inf s' => Fmt.exact (f.infBits (s != s'))
    | .zero s, .zero s' => Fmt.exact (f.zeroBits (s != s'))
    | .zero s, .num s' _ _ => Fmt.exact (f.zeroBits (s != s'))
    | .num s _ _, .zero s' => Fmt.exact (f.zeroBits (s != s'))
    | .num s n e, .num s' n' e' => f.deliver rm trapMode (s != s') (n * n') (e + e') false
    | _, _ => f.quiet

/-- Division (R127, R130, R131). -/
def Fmt.div (f : Fmt) (rm : Rm) (trapMode : Bool) (a b : FVal) : FRes :=
  if a.isSnan || b.isSnan then f.invalid
  else if a.isNan || b.isNan then f.quiet
  else match a, b with
    | .inf _, .inf _ => f.invalid
    | .zero _, .zero _ => f.invalid
    | .inf s, .num s' _ _ => Fmt.exact (f.infBits (s != s'))
    | .inf s, .zero s' => Fmt.exact (f.infBits (s != s'))
    | .num s _ _, .inf s' => Fmt.exact (f.zeroBits (s != s'))
    | .zero s, .inf s' => Fmt.exact (f.zeroBits (s != s'))
    | .zero s, .num s' _ _ => Fmt.exact (f.zeroBits (s != s'))
    | .num s _ _, .zero s' => ⟨f.infBits (s != s'), flagDZ, false⟩
    | .num s n e, .num s' n' e' =>
      let k := 2 * f.m + 4
      let q := (n <<< k) / n'
      f.deliver rm trapMode (s != s') q (e - e' - k) (decide ((n <<< k) % n' ≠ 0))
    | _, _ => f.quiet

/-- Addition A × B + D rounded once (R127, R131). -/
def Fmt.fma (f : Fmt) (rm : Rm) (trapMode : Bool) (a b d : FVal) : FRes :=
  let zeroInf := match a, b with
    | .inf _, .zero _ => true
    | .zero _, .inf _ => true
    | _, _ => false
  if a.isSnan || b.isSnan || d.isSnan || zeroInf then f.invalid
  else if a.isNan || b.isNan || d.isNan then f.quiet
  else match a, b with
    | .num s n e, .num s' n' e' => f.add rm trapMode (.num (s != s') (n * n') (e + e')) d
    | .inf s, .inf s' => f.add rm trapMode (.inf (s != s')) d
    | .inf s, .num s' _ _ => f.add rm trapMode (.inf (s != s')) d
    | .num s _ _, .inf s' => f.add rm trapMode (.inf (s != s')) d
    | .zero s, .zero s' => f.add rm trapMode (.zero (s != s')) d
    | .zero s, .num s' _ _ => f.add rm trapMode (.zero (s != s')) d
    | .num s _ _, .zero s' => f.add rm trapMode (.zero (s != s')) d
    | _, _ => f.quiet

/-- ⌊√n⌋, developed one bit a step from bit `k` − 1 down. -/
def isqrt (n : Nat) : Nat → Nat
  | 0 => 0
  | k + 1 =>
    let r := isqrt (n / 4) k
    if (2 * r + 1) * (2 * r + 1) ≤ n then 2 * r + 1 else 2 * r

/-- A root of n · 2^e, e even after one doubling: (root, its exponent, remainder not zero). -/
def rootOf (f : Fmt) (n : Nat) (e : Int) : Nat × Int × Bool :=
  let k := 2 * f.m + 6
  let k := if (e - k) % 2 = 0 then k else k + 1
  let x := n <<< k
  let r := isqrt x (2 * f.m + 8)
  (r, (e - k) / 2, decide (r * r ≠ x))

/-- Square root (R127, R130, R131). -/
def Fmt.sqrt (f : Fmt) (rm : Rm) (trapMode : Bool) (a : FVal) : FRes :=
  match a with
  | .nan true => f.invalid
  | .nan false => f.quiet
  | .zero s => Fmt.exact (f.zeroBits s)
  | .inf false => Fmt.exact (f.infBits false)
  | .inf true => f.invalid
  | .num true _ _ => f.invalid
  | .num false n e => let r := rootOf f n e; f.deliver rm trapMode false r.1 r.2.1 r.2.2

/-- The order of two non-NaN data of one format, −0 below +0: a key that rises with the value (R132). -/
def Fmt.key (f : Fmt) (x : Nat) : Int :=
  if f.sign x then -(x % 2 ^ (f.w - 1) : Nat) - 1 else (x % 2 ^ (f.w - 1) : Nat)

/-- FMIN and FMAX (R132). -/
def Fmt.minmax (f : Fmt) (isMax : Bool) (x y : Nat) : FRes :=
  let a := f.decode x
  let b := f.decode y
  if a.isSnan || b.isSnan then f.invalid
  else if a.isNan && b.isNan then f.quiet
  else if a.isNan then Fmt.exact y
  else if b.isNan then Fmt.exact x
  else if isMax then Fmt.exact (if f.key x < f.key y then y else x)
  else Fmt.exact (if f.key y < f.key x then y else x)

inductive CmpFn where
  | eq | lt | le
  deriving DecidableEq, Repr

/-- FCMPEQ, FCMPLT, FCMPLE (R132): −0 equals +0. -/
def Fmt.cmp (f : Fmt) (fn : CmpFn) (x y : Nat) : FRes :=
  let a := f.decode x
  let b := f.decode y
  if a.isNan || b.isNan then ⟨0, if a.isSnan || b.isSnan then flagNV else 0, false⟩
  else
    let kx := if f.isZero x then 0 else f.key x
    let ky := if f.isZero y then 0 else f.key y
    Fmt.exact (match fn with
      | .eq => decide (kx = ky)
      | .lt => decide (kx < ky)
      | .le => decide (kx ≤ ky)).toNat

/-- The row of R150 that R128 alone does not give: binary32 ±M to bfloat16, toward zero, sets OF beside NX (log 12). -/
def fcvtRow (src dst : Fmt) (x : Nat) (r : FRes) : FRes :=
  if src = binary32 ∧ dst = bfloat16 ∧ x % 2 ^ 31 = 0x7F7FFFFF ∧ r.d % 2 ^ 15 = 0x7F7F then
    { r with flags := flagOF ||| flagNX } else r

/-- FCVT (R127, R131, R150). -/
def fcvt (src dst : Fmt) (rm : Rm) (trapMode : Bool) (x : Nat) : FRes :=
  match src.decode x with
  | .nan true => dst.invalid
  | .nan false => dst.quiet
  | .inf s => Fmt.exact (dst.infBits s)
  | .zero s => Fmt.exact (dst.zeroBits s)
  | .num s n e => fcvtRow src dst x (dst.deliver rm trapMode s n e false)

/-- FCVTI to a width and signedness (R133). -/
def fcvti (src : Fmt) (rm : Rm) (iw : Nat) (S : Bool) (x : Nat) : FRes :=
  let bound := fun neg => ⟨ofInt iw (if neg then minVal S iw else maxVal S iw), flagNV, false⟩
  match src.decode x with
  | .nan _ => ⟨0, flagNV, false⟩
  | .inf s => bound s
  | .zero _ => Fmt.exact 0
  | .num s n e =>
    let (q, inex) := if 0 ≤ e then (n <<< e.toNat, false) else roundShift rm s n (-e).toNat false
    let v : Int := if s then -(q : Int) else q
    if v < minVal S iw ∨ maxVal S iw < v then bound s
    else ⟨ofInt iw v, if inex then flagNX else 0, false⟩

/-- FCVTF from a width and signedness (R133). -/
def fcvtf (dst : Fmt) (rm : Rm) (iw : Nat) (S : Bool) (x : Nat) : FRes :=
  let v := value S iw x
  if v = 0 then Fmt.exact 0 else dst.deliver rm true (decide (v < 0)) v.natAbs 0 false

/-! ### The functions of the class -/

inductive FpFn where
  | fadd | fsub | fmul | fdiv | fma | fsqrt | fmin | fmax | fcmpeq | fcmplt | fcmple | fcvt | fcvti | fcvtf | fneg | fabs
  deriving DecidableEq, Repr

/-- What an instruction word fixes beside the function (R86): format, rounding mode, and the source format or the integer
width and signedness that BB names. -/
structure FpPar where
  fmt : Fmt
  rm : Rm
  src : Fmt
  iw : Nat
  S : Bool
  deriving DecidableEq, Repr

def FpFn.hasB : FpFn → Bool
  | .fadd | .fsub | .fmul | .fdiv | .fma | .fmin | .fmax | .fcmpeq | .fcmplt | .fcmple => true
  | _ => false

def FpFn.isCmp : FpFn → Bool
  | .fcmpeq | .fcmplt | .fcmple => true
  | _ => false

/-- Functions whose subnormal inputs FLUSH reads as zero (R137). -/
def FpFn.flushes : FpFn → Bool
  | .fneg | .fabs | .fcvtf => false
  | _ => true

/-- Functions that raise the subnormal assist in TRAP (R138). -/
def FpFn.assists : FpFn → Bool
  | .fadd | .fsub | .fmul | .fdiv | .fma | .fsqrt | .fcvt | .fcvti => true
  | _ => false

/-- Width of the destination and of source A. -/
def FpFn.dWidth (fn : FpFn) (p : FpPar) : Nat := if fn.isCmp then 1 else if fn = .fcvti then p.iw else p.fmt.w
def FpFn.aWidth (fn : FpFn) (p : FpPar) : Nat :=
  match fn with
  | .fcvt => p.src.w
  | .fcvtf => p.iw
  | _ => p.fmt.w

/-- The format of source A. -/
def FpFn.aFmt (fn : FpFn) (p : FpPar) : Fmt := if fn = .fcvt then p.src else p.fmt

/-- A function in one element (R127–R138): result and flags, and whether the element calls for the assist. -/
def fpElem (fn : FpFn) (p : FpPar) (trapMode : Bool) (a0 b0 d0 : Nat) : FRes × Bool :=
  let fa := fn.aFmt p
  let f := p.fmt
  let a := if fn.flushes then fa.flush trapMode a0 else a0
  let b := if fn.flushes then f.flush trapMode b0 else b0
  let d := if fn.flushes then f.flush trapMode d0 else d0
  let r := match fn with
    | .fadd => f.add p.rm trapMode (f.decode a) (f.decode b)
    | .fsub => f.add p.rm trapMode (f.decode a) (f.decode b).neg
    | .fmul => f.mul p.rm trapMode (f.decode a) (f.decode b)
    | .fdiv => f.div p.rm trapMode (f.decode a) (f.decode b)
    | .fma => f.fma p.rm trapMode (f.decode a) (f.decode b) (f.decode d)
    | .fsqrt => f.sqrt p.rm trapMode (f.decode a)
    | .fmin => f.minmax false a b
    | .fmax => f.minmax true a b
    | .fcmpeq => f.cmp .eq a b
    | .fcmplt => f.cmp .lt a b
    | .fcmple => f.cmp .le a b
    | .fcvt => fcvt p.src f p.rm trapMode a
    | .fcvti => fcvti f p.rm p.iw p.S a
    | .fcvtf => fcvtf f p.rm p.iw p.S a
    | .fneg => Fmt.exact (a ^^^ 2 ^ (f.w - 1))
    | .fabs => Fmt.exact (a % 2 ^ (f.w - 1))
  let sub := fa.isSubnormal a0 || (fn.hasB && f.isSubnormal b0) || (decide (fn = .fma) && f.isSubnormal d0)
  (r, trapMode && fn.assists && (sub || r.tiny))

/-! ### Data-dependent parameters and times (R144, R145) -/

/-- The parameters of a set of active elements: d of FADD and FSUB, z, d′ of FMA, k, and whether FDIV has an element with
a finite dividend and a finite non-zero divisor. -/
structure FpTime where
  d : Nat
  z : Nat
  d' : Nat
  k : Nat
  ord : Bool
  deriving DecidableEq, Repr

def absDiff (a b : Nat) : Nat := if a < b then b - a else a - b

/-- Trailing zeros of a non-zero number of at most `k` bits. -/
def trailZeros (n : Nat) : Nat → Nat
  | 0 => 0
  | k + 1 => if n % 2 = 1 then 0 else 1 + trailZeros (n / 2) k

/-- The biased exponent of the product of two significands, normalised (R144). -/
def prodExp (f : Fmt) (x y : Nat) : Int :=
  (f.exp1 x + f.exp1 y : Nat) - f.bias + ((bitLen (f.sig x * f.sig y) : Int) - (2 * f.m - 1 : Nat))

/-- One element's contribution, after flushing; `none` fields of the source are neutral values. -/
def fpTime1 (f : Fmt) (a b d : Nat) : FpTime :=
  let fin := fun x => f.isFinite x && !f.isZero x
  let nz2 := fin a && fin b
  { d := if nz2 then absDiff (f.exp1 a) (f.exp1 b) else 0
    z := if fin b then trailZeros (f.sig b) f.m else f.m
    d' := if nz2 && fin d then (prodExp f a b - f.exp1 d).natAbs else 0
    k := if fin a && !f.sign a then
        (let r := rootOf f (f.sig a) ((f.exp1 a : Int) - f.bias - (f.m - 1 : Nat))
         if r.2.2 then f.m + 2 else bitLen r.1 - trailZeros r.1 (bitLen r.1))
      else 0
    ord := f.isFinite a && fin b }

/-- The parameters of no element. -/
def FpTime.none (f : Fmt) : FpTime := ⟨0, f.m, 0, 0, false⟩

def FpTime.join (x y : FpTime) : FpTime :=
  ⟨Nat.max x.d y.d, Nat.min x.z y.z, Nat.max x.d' y.d', Nat.max x.k y.k, x.ord || y.ord⟩

/-- The time of a function (R145) in gang width 1 or 16. -/
def fpTime (fn : FpFn) (p : FpPar) (g : Nat) (x : FpTime) : Nat :=
  let w := p.fmt.w
  let m := p.fmt.m
  let pl := ceilDiv w 16
  let i := if p.fmt = binary32 then 2 else 1
  let q := ceilDiv (m + 2) 16
  let d := Nat.min x.d (m + 2)
  let d' := Nat.min x.d' (2 * m + 2)
  let pA := ceilDiv (fn.aWidth p) 16
  let pD := ceilDiv (fn.dWidth p) 16
  if g = 1 then
    match fn with
    | .fadd | .fsub => 2 * w - 4 + d
    | .fmul => 2 * w + (m - x.z) * (m + 2)
    | .fma => 3 * w + (m - x.z) * (m + 2) + d'
    | .fdiv => 2 * w + 20 + if x.ord then (2 * i + 1) * (m + 2) ^ 2 else 0
    | .fsqrt => 2 * w + 4 + x.k * (m + 4)
    | .fmin | .fmax => 2 * w + 3
    | .fcmpeq | .fcmplt | .fcmple => w + 4
    | .fneg | .fabs => w + 1
    | .fcvt => p.src.w + w + 4
    | .fcvti => w + 2 * p.iw + 6
    | .fcvtf => 2 * p.iw + w + 6
  else
    match fn with
    | .fadd | .fsub => 16 + 4 * pl + pl * (d % 16) + d / 16
    | .fmul => 16 + (m - x.z) * (2 * pl + 3)
    | .fma => 24 + (m - x.z) * (2 * pl + 3) + pl * (d' % 16) + d' / 16
    | .fdiv => 8 * pl + 28 + if x.ord then (2 * i + 1) * (m + 2) * (2 * q + 3) else 0
    | .fsqrt => 8 * pl + 4 + x.k * (2 * pl + 5)
    | .fmin | .fmax => 2 * pl + 3
    | .fcmpeq | .fcmplt | .fcmple => pl + 4
    | .fneg | .fabs => pl + 1
    | .fcvt => pA + pD + 18
    | .fcvti => pA + 2 * pD + 20
    | .fcvtf => 2 * pA + pD + 20

end Sys2Proof.Machine
end

