-- ==== Sys2Proof/Machine/Words.lean ====
section
/-! DEFINITION. Instruction words and microwords: the word of every AIS command and microword command, and the decoders that
give the command a word spells (R77, R78, R157–R170). A reserved encoding spells none. -/

namespace Sys2Proof.Machine

/-! ### AIS instruction words (R77) -/

def wordA (f : FmtA) (opc fn : Nat) : DWord :=
  BitVec.ofNat 64 (opc * 2 ^ 58 + fn * 2 ^ 53 + f.modf.toNat * 2 ^ 49 + f.wm1.toNat * 2 ^ 43 + f.di.toNat * 2 ^ 42 +
    f.ai.toNat * 2 ^ 41 + f.bi.toNat * 2 ^ 40 + f.bs.toNat * 2 ^ 39 + f.db.toNat * 2 ^ 27 + f.ab.toNat * 2 ^ 15 +
    f.bb.toNat * 8 + f.res.toNat)

def wordS (f : FmtS) (fn : Nat) : DWord :=
  BitVec.ofNat 64 (0x07 * 2 ^ 58 + fn * 2 ^ 53 + f.sd.toNat * 2 ^ 49 + f.sa.toNat * 2 ^ 45 + f.sb.toNat * 2 ^ 41 +
    f.im.toNat * 2 ^ 40 + f.res.toNat * 2 ^ 32 + f.imm.toNat)

def wordJ (f : FmtJ) (fn : Nat) : DWord :=
  BitVec.ofNat 64 (0x08 * 2 ^ 58 + fn * 2 ^ 53 + f.ai.toNat * 2 ^ 52 + f.ab.toNat * 2 ^ 40 + f.sa.toNat * 2 ^ 36 +
    f.sb.toNat * 2 ^ 32 + f.res.toNat * 2 ^ 24 + f.tgt.toNat)

/-- OPC and FN of a word. -/
def opcOf (w : DWord) : Nat := (w.extractLsb' 58 6).toNat
def fnOf (w : DWord) : Nat := (w.extractLsb' 53 5).toNat

/-- The fields of the three formats. -/
def fmtAOf (w : DWord) : FmtA :=
  ⟨w.extractLsb' 49 4, w.extractLsb' 43 6, w.getLsbD 42, w.getLsbD 41, w.getLsbD 40, w.getLsbD 39, w.extractLsb' 27 12,
    w.extractLsb' 15 12, w.extractLsb' 3 12, w.extractLsb' 0 3⟩
def fmtSOf (w : DWord) : FmtS :=
  ⟨w.extractLsb' 49 4, w.extractLsb' 45 4, w.extractLsb' 41 4, w.getLsbD 40, w.extractLsb' 32 8, w.extractLsb' 0 32⟩
def fmtJOf (w : DWord) : FmtJ :=
  ⟨w.getLsbD 52, w.extractLsb' 40 12, w.extractLsb' 36 4, w.extractLsb' 32 4, w.extractLsb' 24 8, w.extractLsb' 0 24⟩

/-- The functions of the format A classes, by FN; `none` is reserved (R78, R83, R84, R86, R87, R89, R93, R96, R102). -/
def classA : Nat → List (Option (Tenant → FmtA → Instr))
  | 0x01 => [some .logic, some .kset, some .kand, some .kor, some .kall, some .knot, some .fset]
  | 0x02 => [some .add, some .addc, some .sub, some .subb, some .mul, some .mulw, some .div, some .mod, some .neg, some .min,
      some .max, none, some .cmpeq, some .cmpne, some .cmplt, some .cmple]
  | 0x03 => [some .fadd, some .fsub, some .fmul, some .fdiv, some .fma, some .fsqrt, some .fmin, some .fmax, some .fcmpeq,
      some .fcmplt, some .fcmple, some .fcvt, some .fcvti, some .fcvtf, some .fneg, some .fabs]
  | 0x04 => [some .shl, some .shrl, some .shra, some .rol, some .xn, some .xe, some .xs, some .xw]
  | 0x05 => [some .rany, some .rmax, some .rmin, some .rsum]
  | 0x06 => [some .pld, some .padd, some .pst]
  | 0x09 => [some .ckpt, some .fbar, some .waitev, some .trap, some .gang, some .brclm, some .fclr, some .ften, some .rtt,
      some .endOrder]
  | 0x0A => [some .inarm, some .inwait, some .outp, some .outs, some .outf]
  | _ => []

/-- The scalar and the branch class, by FN (R94, R95). -/
def classS : List (Tenant → FmtS → Instr) :=
  [.sadd, .ssub, .sand, .sor, .sxor, .sshl, .sshr, .ssra, .sli, .slda, .sgett]
def classJ : List (Tenant → FmtJ → Instr) := [.br, .bany, .bnone, .beq, .bne, .blt, .bltu, .dbnz, .call, .ret]

/-- The instruction that a word of a tenant's program spells; none for a reserved OPC or FN, the all-zero word among them
(R78, R79). -/
def decodeAis (t : Tenant) (w : DWord) : Option Instr :=
  if opcOf w = 0x07 then classS[fnOf w]?.map fun c => c t (fmtSOf w)
  else if opcOf w = 0x08 then classJ[fnOf w]?.map fun c => c t (fmtJOf w)
  else (classA (opcOf w)).getD (fnOf w) none |>.map fun c => c t (fmtAOf w)

/-- A reserved OPC or FN (R79). -/
def reservedWord (w : DWord) : Bool := (decodeAis 0 w).isNone

/-- Where the word of a command stands in its class: (OPC, FN) of the instruction it spells. -/
def aisWord : Instr → Option (Tenant × DWord)
  | .logic t f => some (t, wordA f 1 0)
  | .kset t f => some (t, wordA f 1 1)
  | .kand t f => some (t, wordA f 1 2)
  | .kor t f => some (t, wordA f 1 3)
  | .kall t f => some (t, wordA f 1 4)
  | .knot t f => some (t, wordA f 1 5)
  | .fset t f => some (t, wordA f 1 6)
  | .add t f => some (t, wordA f 2 0)
  | .addc t f => some (t, wordA f 2 1)
  | .sub t f => some (t, wordA f 2 2)
  | .subb t f => some (t, wordA f 2 3)
  | .mul t f => some (t, wordA f 2 4)
  | .mulw t f => some (t, wordA f 2 5)
  | .div t f => some (t, wordA f 2 6)
  | .mod t f => some (t, wordA f 2 7)
  | .neg t f => some (t, wordA f 2 8)
  | .min t f => some (t, wordA f 2 9)
  | .max t f => some (t, wordA f 2 10)
  | .cmpeq t f => some (t, wordA f 2 12)
  | .cmpne t f => some (t, wordA f 2 13)
  | .cmplt t f => some (t, wordA f 2 14)
  | .cmple t f => some (t, wordA f 2 15)
  | .fadd t f => some (t, wordA f 3 0)
  | .fsub t f => some (t, wordA f 3 1)
  | .fmul t f => some (t, wordA f 3 2)
  | .fdiv t f => some (t, wordA f 3 3)
  | .fma t f => some (t, wordA f 3 4)
  | .fsqrt t f => some (t, wordA f 3 5)
  | .fmin t f => some (t, wordA f 3 6)
  | .fmax t f => some (t, wordA f 3 7)
  | .fcmpeq t f => some (t, wordA f 3 8)
  | .fcmplt t f => some (t, wordA f 3 9)
  | .fcmple t f => some (t, wordA f 3 10)
  | .fcvt t f => some (t, wordA f 3 11)
  | .fcvti t f => some (t, wordA f 3 12)
  | .fcvtf t f => some (t, wordA f 3 13)
  | .fneg t f => some (t, wordA f 3 14)
  | .fabs t f => some (t, wordA f 3 15)
  | .shl t f => some (t, wordA f 4 0)
  | .shrl t f => some (t, wordA f 4 1)
  | .shra t f => some (t, wordA f 4 2)
  | .rol t f => some (t, wordA f 4 3)
  | .xn t f => some (t, wordA f 4 4)
  | .xe t f => some (t, wordA f 4 5)
  | .xs t f => some (t, wordA f 4 6)
  | .xw t f => some (t, wordA f 4 7)
  | .rany t f => some (t, wordA f 5 0)
  | .rmax t f => some (t, wordA f 5 1)
  | .rmin t f => some (t, wordA f 5 2)
  | .rsum t f => some (t, wordA f 5 3)
  | .pld t f => some (t, wordA f 6 0)
  | .padd t f => some (t, wordA f 6 1)
  | .pst t f => some (t, wordA f 6 2)
  | .sadd t f => some (t, wordS f 0)
  | .ssub t f => some (t, wordS f 1)
  | .sand t f => some (t, wordS f 2)
  | .sor t f => some (t, wordS f 3)
  | .sxor t f => some (t, wordS f 4)
  | .sshl t f => some (t, wordS f 5)
  | .sshr t f => some (t, wordS f 6)
  | .ssra t f => some (t, wordS f 7)
  | .sli t f => some (t, wordS f 8)
  | .slda t f => some (t, wordS f 9)
  | .sgett t f => some (t, wordS f 10)
  | .br t f => some (t, wordJ f 0)
  | .bany t f => some (t, wordJ f 1)
  | .bnone t f => some (t, wordJ f 2)
  | .beq t f => some (t, wordJ f 3)
  | .bne t f => some (t, wordJ f 4)
  | .blt t f => some (t, wordJ f 5)
  | .bltu t f => some (t, wordJ f 6)
  | .dbnz t f => some (t, wordJ f 7)
  | .call t f => some (t, wordJ f 8)
  | .ret t f => some (t, wordJ f 9)
  | .ckpt t f => some (t, wordA f 9 0)
  | .fbar t f => some (t, wordA f 9 1)
  | .waitev t f => some (t, wordA f 9 2)
  | .trap t f => some (t, wordA f 9 3)
  | .gang t f => some (t, wordA f 9 4)
  | .brclm t f => some (t, wordA f 9 5)
  | .fclr t f => some (t, wordA f 9 6)
  | .ften t f => some (t, wordA f 9 7)
  | .rtt t f => some (t, wordA f 9 8)
  | .endOrder t f => some (t, wordA f 9 9)
  | .inarm t f => some (t, wordA f 10 0)
  | .inwait t f => some (t, wordA f 10 1)
  | .outp t f => some (t, wordA f 10 2)
  | .outs t f => some (t, wordA f 10 3)
  | .outf t f => some (t, wordA f 10 4)
  | _ => none

/-! ### Microwords (R157–R170) -/

def wordPlane (w : PlaneW) (add : Bool) : Word :=
  1#6 ++ w.tt ++ (0#1 ++ BitVec.ofBool add) ++ BitVec.ofBool w.gf ++ w.dst ++ w.da ++ w.sa ++ w.sb ++ BitVec.ofBool w.id ++
    BitVec.ofBool w.ia ++ BitVec.ofBool w.ib ++ w.res
def wordNews (dir : BitVec 2) (ls : Bool) (res : BitVec 23) : Word := 2#6 ++ dir ++ BitVec.ofBool ls ++ res
def wordAddr (w : AddrW) (mode : BitVec 3) : Word := 3#6 ++ w.md ++ mode ++ w.src ++ w.res ++ w.imm
def wordScal (w : ScalW) (fn : BitVec 4) : Word := 4#6 ++ fn ++ w.sd ++ w.sa ++ w.sb ++ w.imm
def wordWait (w : WaitW) : Word := 5#6 ++ w.cond ++ BitVec.ofBool w.nt ++ w.res ++ w.imm
def wordBr (w : BrW) (cond : BitVec 3) : Word := 6#6 ++ cond ++ w.bit ++ w.scan ++ w.res ++ w.tgt
def wordLoop (w : LoopW) : Word := 7#6 ++ w.lco ++ w.lci ++ w.blen ++ w.ilen ++ w.cp ++ BitVec.ofBool w.rs ++ w.res
def wordGor (w : GorW) : Word := 8#6 ++ w.tag ++ BitVec.ofBool w.tv ++ BitVec.ofBool w.cg ++ w.res
def wordBcast (w : BcastW) : Word := 9#6 ++ w.sreg ++ w.bit ++ BitVec.ofBool w.sx ++ w.res
def wordTrapchk (w : TrapW) : Word := 10#6 ++ w.mode ++ w.cause ++ w.bit ++ w.detail ++ w.res
def wordReschk (w : ReschkW) (rel : BitVec 2) : Word := 11#6 ++ rel ++ BitVec.ofBool w.k2 ++ w.fl ++ w.res

/-- The functions of ADDR by MODE and of SCAL by FN; MODE 7 is reserved (R162, R164). -/
def addrModes : List (SeqId → AddrW → Instr) := [.addrImm, .addrAdd, .addrScalar, .addrCopy, .addrWrap, .addrSlide, .addrPlain]
def scalFns : List (SeqId → ScalW → Instr) :=
  [.scalAdd, .scalAddi, .scalSub, .scalAnd, .scalOr, .scalXor, .scalShl, .scalShr, .scalLi, .scalShi, .scalField, .scalHsb,
    .scalGet, .scalMem, .scalSetlc, .scalScan]

def planeOf (w : Word) : PlaneW :=
  ⟨w.extractLsb' 22 4, w.getLsbD 19, w.extractLsb' 16 3, w.extractLsb' 13 3, w.extractLsb' 9 4, w.extractLsb' 5 4, w.getLsbD 4,
    w.getLsbD 3, w.getLsbD 2, w.extractLsb' 0 2⟩
def brOf (w : Word) : BrW :=
  ⟨w.extractLsb' 23 3, w.extractLsb' 18 5, w.extractLsb' 16 2, w.extractLsb' 14 2, w.extractLsb' 0 14⟩
def trapchkOf (w : Word) : TrapW :=
  ⟨w.extractLsb' 24 2, w.extractLsb' 19 5, w.extractLsb' 14 5, w.extractLsb' 12 2, w.extractLsb' 0 12⟩
def reschkOf (w : Word) : ReschkW := ⟨w.getLsbD 23, w.extractLsb' 21 2, w.extractLsb' 0 21⟩

/-- The command that a microword of a sequencer spells; none for a reserved OP, CM, MODE, COND or REL (R157, R171). -/
def decodeMicro (q : SeqId) (w : Word) : Option Instr :=
  match (w.extractLsb' 26 6).toNat with
  | 0x01 =>
    if w.extractLsb' 20 2 = 0 then some (.planeLog q (planeOf w))
    else if w.extractLsb' 20 2 = 1 then some (.planeAdd q (planeOf w)) else none
  | 0x02 => some (.news q (w.extractLsb' 24 2) (w.getLsbD 23) ⟨w.extractLsb' 0 23, []⟩)
  | 0x03 => addrModes[(w.extractLsb' 20 3).toNat]?.map fun c =>
      c q ⟨w.extractLsb' 23 3, w.extractLsb' 16 4, w.extractLsb' 13 3, w.extractLsb' 0 13⟩
  | 0x04 => scalFns[(w.extractLsb' 22 4).toNat]?.map fun c =>
      c q ⟨w.extractLsb' 18 4, w.extractLsb' 14 4, w.extractLsb' 10 4, w.extractLsb' 0 10⟩
  | 0x05 => some (.wait q ⟨w.extractLsb' 23 3, w.getLsbD 22, w.extractLsb' 12 10, w.extractLsb' 0 12⟩)
  | 0x06 =>
    if w.extractLsb' 23 3 = 5 then some (.microCall q (brOf w))
    else if w.extractLsb' 23 3 = 6 then some (.microRet q (brOf w))
    else if w.extractLsb' 23 3 = 7 then none else some (.microBr q (brOf w))
  | 0x07 => some (.loop q ⟨w.extractLsb' 24 2, w.extractLsb' 22 2, w.extractLsb' 19 3, w.extractLsb' 16 3,
      w.extractLsb' 14 2, w.getLsbD 13, w.extractLsb' 0 13⟩)
  | 0x08 => some (.gor q ⟨w.extractLsb' 21 5, w.getLsbD 20, w.getLsbD 19, w.extractLsb' 0 19⟩)
  | 0x09 => some (.bcast q ⟨w.extractLsb' 22 4, w.extractLsb' 16 6, w.getLsbD 15, w.extractLsb' 0 15⟩)
  | 0x0A => some (if w.extractLsb' 24 2 = 3 then .trapchkBoundary q (trapchkOf w) else .trapchkRaise q (trapchkOf w))
  | 0x0B =>
    if w.extractLsb' 24 2 = 0 then some (.reschkSum q (reschkOf w))
    else if w.extractLsb' 24 2 = 1 then some (.reschkProd q (reschkOf w))
    else if w.extractLsb' 24 2 = 2 then some (.reschkClear q (reschkOf w)) else none
  | _ => none

/-- A reserved OP, CM, MODE, COND or REL: a microcode fault whatever the rest of the word (R157, R171). -/
def reservedMicro (w : Word) : Bool := (decodeMicro 0 w).isNone

end Sys2Proof.Machine
end

