-- ==== Sys2Proof/Machine/Ais.lean ====
section
/-! DEFINITION. What all array instructions share: the instruction word, when an instruction can run, the checks of R79 in
the order of log 16, operands, the write of a destination element, and how an instruction ends. -/

namespace Sys2Proof.Machine

/-! ### Checks -/

/-- The outcome of the checks before an instruction: none, or cause and detail of the trap (R79, R80). -/
abbrev Check := Option (Nat × Nat)

/-- The first check that fails. -/
def Check.first : List Check → Check
  | [] => none
  | some x :: _ => some x
  | none :: r => Check.first r

def illegalIf (b : Bool) : Check := if b then some (0, 0) else none
def operandIf (b : Bool) (d : Nat) : Check := if b then some (1, d) else none
def gangIf (b : Bool) : Check := if b then some (6, 0) else none
def bindingIf (b : Bool) (i : Nat) : Check := if b then some (7, i) else none

/-- The berm reclaim of the tenant is in force (R42). -/
def reclaimed (s : State) (t : Tenant) : Bool := (physTiles s (ownTiles s t)).all fun p => (tile s p.val).reclaimed

/-- A direct field runs past M[4095] (R71). -/
def Fld.runsOut (f : Fld) (g : Nat) : Bool := !f.ind && decide (4096 < f.base + f.planes g)

/-- A direct field touches planes `lo` to `hi`. -/
def Fld.touches (f : Fld) (g lo hi : Nat) : Bool := !f.ind && decide (f.base ≤ hi ∧ lo < f.base + f.planes g)

/-- R71 for a field that is only read. -/
def readCheck (f : Fld) (g d : Nat) : Check := operandIf (f.runsOut g) d

/-- R71 for a written field. -/
def writeCheck (s : State) (t : Tenant) (f : Fld) (g : Nat) : Check :=
  operandIf (f.runsOut g || f.touches g 2304 3071 || (f.touches g 3072 4095 && !reclaimed s t)) 0

/-- A direct destination overlaps a direct source without being identical to it (R75). -/
def overlaps (d a : Fld) (g : Nat) : Bool :=
  !d.ind && !a.ind && decide (d ≠ a) && decide (d.base < a.base + a.planes g ∧ a.base < d.base + d.planes g)

/-- R75 for the sources of an instruction, A first. -/
def overlapCheck (d a : Fld) (b : Src) (g : Nat) : Check :=
  Check.first [operandIf (overlaps d a g) 1, operandIf (match b.fld? with
    | some f => overlaps d f g
    | none => false) 2]

def srcCheck (b : Src) (g d : Nat) : Check :=
  match b.fld? with
  | some f => readCheck f g d
  | none => none

/-! ### Running an instruction -/

/-- The sequencer that can run the tenant's next instruction: an order is RUNNING and not waiting for its re-execution,
starts are not frozen, the tiles are AWAKE, and the sequencer stands at an instruction boundary with no wait (R172, R201,
R436). -/
def aisReady (s : State) (t : Tenant) : Option SeqId :=
  match runOrder s t, seqOf s t with
  | some o, some q =>
    if !o.reexec && !frozen s && tilesAwake s t && decide ((sqr s q.val).service = .inService) &&
        (sqr s q.val).ws.isNone && !(sqr s q.val).midRoutine then some q else none
  | _, _ => none

/-- The fetch of the word at PC (R155 step 1): the program as it leaves the memories, and the word; none when both copies of it
fail. -/
def fetchAis (s : State) (t : Tenant) (q : SeqId) : State × Option DWord :=
  match (ten s t).own with
  | some r => let p := fetchProg s r (sqr s q.val).pc.toNat; (p.1, p.2.map (BitVec.ofNat 64))
  | none => (s, some 0)

/-- Both copies of the word fail: BANK_LOST, and the bank of PROG is to be declared faulted (R236). -/
def fetchLost (s : State) (t : Tenant) : State :=
  let s1 := match (ten s t).own.bind fun r => roleExtent r 0 with
    | some e => modMemSt s e.bank fun x => { x with due := true }
    | none => s
  abortOrders s1 t ((runOrder s1 t).toList.map Order.seq) 0x09

/-- Gang width of the tenant's sequencer. -/
def gw (s : State) (q : SeqId) : Nat := (sqr s q.val).gw.width

/-- The bytes of a field in the elements given are read, or written after a read (R33, R38). -/
def touch (s : State) (g : Nat) (es : List Elem) (f : Fld) : State :=
  latchBad s fun k b => es.any fun x => (List.range g).any fun j => decide (x.lane g j = k) &&
    (List.range (f.planes g)).any fun i => decide ((f.at s g x + i) % 4096 / 8 = b)

/-- The bit address that a micro address register names in a slice whose lane 0 is PE `k0`. -/
def MicroAddr.eff (m : MicroAddr) (s : State) (k0 : Nat) : Nat :=
  (m.addr.toNat + if m.ind then (pe s k0).p.toNat else 0) % 4096

/-- The width in bits of the field that a word names: of the format in the floating-point class, whose WM1 is 0, else WM1 + 1
(R77, R86). -/
def wordWidth (w : DWord) : Nat :=
  if opcOf w = 3 then (fmtOf ((fmtAOf w).modf.toNat % 4)).w else (fmtAOf w).wm1.toNat + 1

/-- The highest bit index at which an active element holds a 1 in the `w`-bit field at an address register, in the layout of the
present gang width (R53, R156). -/
def fieldScan (s : State) (t : Tenant) (x : Sequencer) (m : MicroAddr) (w : Nat) : BitVec 16 :=
  let g := x.gw.width
  let es := (elems s g (ownTiles s t)).filter (active s g)
  let l := (List.range w).filter fun i => es.any fun e =>
    peBit s (e.lane g (i % g)) ((m.eff s (e.lane g 0) + i / g) % 4096)
  match l.getLast? with
  | some i => BitVec.ofNat 16 i
  | none => 0xFFFF

/-- A field scan starts: its result stands in SV 4 ac later, and the bytes it reads are checked (R38, R156). -/
def startScan (s : State) (t : Tenant) (q : SeqId) (v : BitVec 16) (m : MicroAddr) (w : Nat) : State :=
  let g := gw s q
  modSqr (touch s g (elems s g (ownTiles s t)) ⟨m.ind, m.addr.toNat, w⟩) q.val fun y => { y with scan := some (4, v) }

/-- What dispatch loads into the sequencer (R155 steps 3 and 4): MA0–MA2 from D, A and B in plain mode, LC0 = p, BL for a
scalar operand, and µPC from the dispatch entry. -/
def dispatchRegs (w : DWord) (x : Sequencer) : Sequencer :=
  let ma := fun (m : SMap MicroAddr) (i : Nat) (ind : Bool) (a : BitVec 12) =>
    SMap.set MicroAddr.initial m i { SMap.get MicroAddr.initial m i with ind := ind, addr := a, mode := 0, returned := false }
  let p : Half := BitVec.ofNat 16 (ceilDiv (wordWidth w) x.gw.width)
  let f := fmtAOf w
  { x with
    ma := ma (ma (ma x.ma 0 f.di f.db) 1 f.ai f.ab) 2 f.bi f.bb, lc := SMap.set (LoopCounter.mk 0 0) x.lc 0 ⟨p, p⟩
    bl := if f.bs then (BitVec.ofBool (f.modf.getLsbD 3) ++ 0#6) ++ f.bb.truncate 4 else x.bl
    upc := (storeWord x.wcs (32 * opcOf w + fnOf w)).truncate 14 }

/-- Dispatch of the word in IL (R155): the registers, the tenant's residue units cleared, and the field scan that the dispatch
entry asks for in its bits [17:16] (R165). -/
def dispatch (s : State) (t : Tenant) (q : SeqId) (w : DWord) : State :=
  let s1 := clearResidues (modSqr s q.val (dispatchRegs w)) (physTiles s (ownTiles s t))
  let x := sqr s1 q.val
  let e := (storeWord x.wcs (32 * opcOf w + fnOf w)).extractLsb' 16 2
  if e = 1 ∨ e = 2 then
    let m := SMap.get MicroAddr.initial x.ma e.toNat
    startScan s1 t q (fieldScan s1 t x m (wordWidth w)) m (wordWidth w)
  else s1

/-- The micro registers that a vendor routine uses hold free values after it (R153, R155; log 6). -/
def routineRegs (n q : Nat) (x : Sequencer) : Sequencer :=
  let at_ := fun (i : Nat) => 1500000000 + 1024 * q + i
  { x with
    upc := BitVec.ofNat 14 (freeNat n (at_ 0) 14), z := Config.freeBit n (at_ 14), n := Config.freeBit n (at_ 15)
    gv := BitVec.ofNat 32 (freeNat n (at_ 16) 32), tvr := BitVec.ofNat 16 (freeNat n (at_ 48) 16)
    sv := BitVec.ofNat 16 (freeNat n (at_ 64) 16), scan := none, bl := BitVec.ofNat 11 (freeNat n (at_ 80) 11)
    ma := (List.range 8).foldl (fun m i => SMap.set MicroAddr.initial m i
      ⟨Config.freeBit n (at_ (100 + 64 * i)), BitVec.ofNat 12 (freeNat n (at_ (101 + 64 * i)) 12),
        BitVec.ofNat 12 (freeNat n (at_ (113 + 64 * i)) 12), BitVec.ofNat 7 (freeNat n (at_ (125 + 64 * i)) 7),
        0, false⟩) []
    lc := (List.range 4).foldl (fun m i => SMap.set (LoopCounter.mk 0 0) m i
      ⟨BitVec.ofNat 16 (freeNat n (at_ (700 + 32 * i)) 16), BitVec.ofNat 16 (freeNat n (at_ (716 + 32 * i)) 16)⟩) [] }

/-- What every instruction leaves undefined: at program level X, the residue units, W0 and W1; at trap level the trap save
slot and W0 stay, since RTT and an interrupted instruction use them (R76, R36). -/
def afterRoutine (s : State) (t : Tenant) (q : SeqId) : State :=
  let ps := physTiles s (ownTiles s t)
  let l := if (sqr s q.val).tl then [3, 4, 5] else [1, 2, 3, 4, 5]
  bump (modSqr (l.foldl (fun u r => scramble u ps r) s) q.val (routineRegs (freshNum s) q.val))

/-- The word `w` in IL: dispatched where its OPC lies below 0x10, then it runs, or traps at the check with no effect, which takes
1 ac (R79, R155; log 10). -/
def runWord (s : State) (t : Tenant) (q : SeqId) (w : DWord) (chk : Check) (eff : State → State) : State :=
  let s1 := modSqr s q.val fun x => { x with il := w }
  let s2 := if opcOf w < 16 then dispatch s1 t q w else s1
  match chk with
  | some (c, d) =>
    let pc := (sqr s q.val).pc
    raiseTrap (addTime s2 t 1) t q c d pc.toNat (pc + 1).toNat noUpc
  | none => eff s2

/-- An instruction of the tenant's program: a pending trap is taken first (R143); the word at PC is fetched, and runs where it is
the word `w` of the command; a reserved OPC or FN is an illegal instruction (R78, R79). A command whose word is not at PC does
nothing (log 1). -/
def runAis (s : State) (t : Tenant) (w : DWord) (chk : SeqId → Check) (eff : SeqId → State → State) : State :=
  match aisReady s t with
  | none => s
  | some q =>
    if !(sqr s q.val).tl && trapWaits s t then boundary s t q
    else match fetchAis s t q with
      | (s1, none) => fetchLost s1 t
      | (s1, some v) =>
        if v = w then runWord s1 t q w (chk q) (eff q)
        else if reservedWord v then runWord s1 t q v (some (0, 0)) id
        else s

/-- An instruction of `ac` cycles ends: undefined values, PC, and the boundary. -/
def finish (s : State) (t : Tenant) (q : SeqId) (ac : Nat) : State :=
  boundary (advance (afterRoutine (addTime s t ac) t q) t q) t q

/-! ### Fields of all the tenant's elements -/

/-- 1 ac more when an operand is indirect (R72). -/
def indAc (f : FmtA) : Nat := if f.di || f.ai || (f.bi && !f.bs) then 1 else 0

def touchSrc (s : State) (g : Nat) (es : List Elem) (b : Src) : State :=
  match b.fld? with
  | some f => touch s g es f
  | none => s

/-- Write the destination of one active element: an indirect write outside the writable regions is suppressed and sets AV
(R44); a write into the berm clears the tile's berm-valid flag (R40). `s0` is the state before the instruction. -/
def writeDest (s0 : State) (g : Nat) (d : Fld) (u : State) (e : Elem) (v : Nat) : State :=
  let b := d.at s0 g e
  if d.ind && !writable (tile s0 e.tile.val) b (d.planes g) then setSticky u (e.lane g 0) flagAV
  else
    let u1 := writeField u g e b d.w v
    if touchesBerm b (d.planes g) then modTile u1 e.tile.val fun x => { x with bermValid := false } else u1

/-- Two operands of which one is indirect partly overlap in this element, so that its result is undefined (R75). -/
def clash (s : State) (g : Nat) (e : Elem) (ops : List Fld) : Bool :=
  ops.zipIdx.any fun x => ops.zipIdx.any fun y => decide (x.2 < y.2) && partlyOverlaps s g e x.1 y.1

/-- The value written where operands clash is free. -/
def overlapFree (s0 : State) (g : Nat) (e : Elem) (ops : List Fld) (w v : Nat) : Nat :=
  if clash s0 g e ops then freeNat (freshNum s0) (e.lane g 0 * 4096) w else v

/-- The sticky flags where operands clash: each that the function can set is free. -/
def overlapFlags (s0 : State) (g : Nat) (e : Elem) (ops : List Fld) (can flags : Byte) : Byte :=
  if clash s0 g e ops then can &&& BitVec.ofNat 8 (freeNat (freshNum s0) (e.lane g 0 * 4096 + 128) 8) else flags

/-- C where operands clash is free, if the function defines it. -/
def overlapC (s0 : State) (g : Nat) (e : Elem) (ops : List Fld) (c : Option Bool) : Option Bool :=
  if clash s0 g e ops then c.map fun _ => Config.freeBit (freshNum s0) (locC (e.lane g 0)) else c

/-- Change the registers of every lane of an element (R55). -/
def mapLanes (s : State) (g : Nat) (e : Elem) (f : PE → PE) : State :=
  (List.range g).foldl (fun u j => setPe u (e.lane g j) (f (pe u (e.lane g j)))) s

/-- K, C, F or P of an element: one value in every lane (R55). -/
def setC (s : State) (g : Nat) (e : Elem) (v : Bool) : State := mapLanes s g e fun x => { x with c := v }
def setF (s : State) (g : Nat) (e : Elem) (v : Bool) : State := mapLanes s g e fun x => { x with f := v }
def setK (s : State) (g : Nat) (e : Elem) (v : Bool) : State := mapLanes s g e fun x => { x with k := v }
def setP (s : State) (g : Nat) (e : Elem) (v : BitVec 12) : State := mapLanes s g e fun x => { x with p := v }

/-- C of an element takes a free value (R104). -/
def freeC (s0 : State) (g : Nat) (s : State) (e : Elem) : State :=
  setC s g e (Config.freeBit (freshNum s0) (locC (e.lane g 0)))

/-- F of every lane takes a free value (R104). -/
def freeF (s0 : State) (g : Nat) (s : State) (e : Elem) : State :=
  (List.range g).foldl (fun u j => setPe u (e.lane g j) { pe u (e.lane g j) with
    f := Config.freeBit (freshNum s0) (locF (e.lane g j)) }) s

/-- Source B of an instruction word: a field, or S[BB[3:0]], sign-extended beyond bit 31 when the instruction's signed modifier
is set (R73). -/
def srcB (s : State) (q : SeqId) (f : FmtA) (signed : Bool) (w : Nat) : Src :=
  if f.bs then .scalar (broadcast (sreg s q.val (f.bb.toNat % 16)) signed w)
  else .field ⟨f.bi, f.bb.toNat, w⟩

/-- BS = 1 requires BB[11:4] and BI to be 0 (R77). -/
def bsBad (f : FmtA) : Bool := f.bs && (f.bi || decide (16 ≤ f.bb.toNat))

def width (f : FmtA) : Nat := f.wm1.toNat + 1

end Sys2Proof.Machine
end

