-- ==== Sys2Proof/Machine/Bool.lean ====
section
/-! DEFINITION. The Boolean and context class (OPC 0x01, R82, R83). -/

namespace Sys2Proof.Machine

open Host (Outcome)

/-- TT applied to each bit of two `w`-bit values (R82). -/
def logicBits (tt : BitVec 4) (w a b : Nat) : Nat :=
  (List.range w).foldr (fun i acc => 2 * acc + (ttBit tt (a.testBit i) (b.testBit i)).toNat) 0

/-- The checks of the functions that read bit 0 of A and B and write no field. -/
def bitChk (s : State) (f : FmtA) (q : SeqId) : Check :=
  let g := gw s q
  Check.first [illegalIf (decide (f.res ≠ 0 ∨ f.wm1 ≠ 0 ∨ f.db ≠ 0) || f.di || bsBad f),
    readCheck ⟨f.ai, f.ab.toNat, 1⟩ g 1, srcCheck (srcB s q f false 1) g 2]

/-- TT(A[0], B[0]) of an element. -/
def bitVal (s : State) (g : Nat) (f : FmtA) (b : Src) (e : Elem) : Bool :=
  ttBit f.modf ((readField s g e ⟨f.ai, f.ab.toNat, 1⟩).testBit 0) ((b.read s g e).testBit 0)

/-- Reads of A and B of the bit functions, with their parity. -/
def touchAB (s : State) (g : Nat) (es : List Elem) (f : FmtA) (b : Src) : State :=
  touchSrc (touch s g es ⟨f.ai, f.ab.toNat, 1⟩) g es b

/-- KSET, KAND and KOR: K of every element from its present K and the truth table (R83). -/
def contextFn (s : State) (t : Tenant) (f : FmtA) (fn : Nat) (op : Bool → Bool → Bool) : State :=
  runAis s t (wordA f 1 fn) (bitChk s f) fun q s1 =>
    let g := gw s q
    let b := srcB s q f false 1
    let es := elems s g (ownTiles s t)
    let s2 := es.foldl (fun u e => setK u g e (op (active s g e) (bitVal s g f b e))) (touchAB s1 g es f b)
    finish s2 t q (2 + indAc f)

/-- KALL and KNOT take no operand (R83). -/
def noOperandK (s : State) (t : Tenant) (f : FmtA) (fn : Nat) (op : Bool → Bool) : State :=
  runAis s t (wordA f 1 fn)
    (fun _ => illegalIf (decide (f.res ≠ 0 ∨ f.wm1 ≠ 0 ∨ f.modf ≠ 0 ∨ f.db ≠ 0 ∨ f.ab ≠ 0 ∨ f.bb ≠ 0) ||
      f.di || f.ai || f.bi || f.bs))
    fun q s1 =>
      let g := gw s q
      finish ((elems s g (ownTiles s t)).foldl (fun u e => setK u g e (op (active s g e))) s1) t q 1

/-- LOGIC: D[i] ← TT(A[i], B[i]) in active elements (R83). -/
def execLogic (t : Tenant) (f : FmtA) (s : State) : Outcome State Fault Refusal :=
  let w := width f
  let d : Fld := ⟨f.di, f.db.toNat, w⟩
  let a : Fld := ⟨f.ai, f.ab.toNat, w⟩
  .next (runAis s t (wordA f 1 0)
    (fun q => Check.first [illegalIf (decide (f.res ≠ 0) || bsBad f), writeCheck s t d (gw s q), readCheck a (gw s q) 1,
      srcCheck (srcB s q f false w) (gw s q) 2, overlapCheck d a (srcB s q f false w) (gw s q)])
    fun q s1 =>
      let g := gw s q
      let b := srcB s q f false w
      let es := elems s g (ownTiles s t)
      let s2 := touchSrc (touch (touch s1 g es d) g es a) g es b
      let s3 := (es.filter (active s g)).foldl (fun u e =>
        writeDest s g d u e (overlapFree s g e (d :: a :: b.fld?.toList) w
          (logicBits f.modf w (readField s g e a) (b.read s g e)))) s2
      finish s3 t q (d.planes g + 1 + indAc f))

/-- KSET: K ← TT(A[0], B[0]). -/
def execKset (t : Tenant) (f : FmtA) (s : State) : Outcome State Fault Refusal :=
  .next (contextFn s t f 1 fun _ v => v)

/-- KAND: K ← K AND TT(A[0], B[0]). -/
def execKand (t : Tenant) (f : FmtA) (s : State) : Outcome State Fault Refusal :=
  .next (contextFn s t f 2 fun k v => k && v)

/-- KOR: K ← K OR TT(A[0], B[0]). -/
def execKor (t : Tenant) (f : FmtA) (s : State) : Outcome State Fault Refusal :=
  .next (contextFn s t f 3 fun k v => k || v)

/-- KALL: K ← 1. -/
def execKall (t : Tenant) (f : FmtA) (s : State) : Outcome State Fault Refusal :=
  .next (noOperandK s t f 4 fun _ => true)

/-- KNOT: K ← NOT K. -/
def execKnot (t : Tenant) (f : FmtA) (s : State) : Outcome State Fault Refusal :=
  .next (noOperandK s t f 5 fun k => !k)

/-- FSET: F ← TT(A[0], B[0]) in active elements. -/
def execFset (t : Tenant) (f : FmtA) (s : State) : Outcome State Fault Refusal :=
  .next (runAis s t (wordA f 1 6) (bitChk s f) fun q s1 =>
    let g := gw s q
    let b := srcB s q f false 1
    let es := elems s g (ownTiles s t)
    let s2 := (es.filter (active s g)).foldl (fun u e => setF u g e (bitVal s g f b e)) (touchAB s1 g es f b)
    finish s2 t q (2 + indAc f))

end Sys2Proof.Machine
end

