-- ==== Sys2Proof/Machine/Reduce.lean ====
section
/-! DEFINITION. Reductions and the global OR (OPC 0x05, R48, R50, R89–R92, R104). -/

namespace Sys2Proof.Machine

open Host (Outcome)

/-- F AND K of every PE of logical tile `n`, ORed over the tile; inactive slices do not enter (R48, R55). -/
def tileOr (s : State) (g n : Nat) : Bool :=
  (elems s g [n]).any fun e => active s g e && (List.range g).any fun j => (pe s (e.lane g j)).f

/-- The tile vector, by logical tile, and the device result of the tenant (R48, R50, R89). -/
def tileVec (s : State) (t : Tenant) (g : Nat) : BitVec 16 :=
  (ownTiles s t).foldl (fun v n => if tileOr s g n then v ||| (1#16 <<< n) else v) 0
def deviceOr (s : State) (t : Tenant) (g : Nat) : Bool := (ownTiles s t).any (tileOr s g)

def redChk (s : State) (f : FmtA) (bad g1 : Bool) (q : SeqId) : Check :=
  let g := gw s q
  Check.first [
    illegalIf (decide (f.res ≠ 0 ∨ f.modf.extractLsb' 0 3 ≠ 0 ∨ f.bb ≠ 0 ∨ 16 ≤ f.db.toNat) || f.di || f.bi || f.bs || bad),
    gangIf (g1 && decide (g ≠ 1)), readCheck ⟨f.ai, f.ab.toNat, width f⟩ g 1]

/-- A reduction that forms one scalar from the active elements (R89); F is undefined after it (R92). -/
def reduce (s : State) (t : Tenant) (opFn : Nat) (f : FmtA) (bad : Bool) (ac : Nat) (val : List Nat → Word) : State :=
  let a : Fld := ⟨f.ai, f.ab.toNat, width f⟩
  runAis s t (wordA f 5 opFn) (redChk s f bad true) fun q s1 =>
    let es := elems s 1 (ownTiles s t)
    let act := es.filter (active s 1)
    let s2 := setSreg (touch s1 1 es a) q.val (f.db.toNat % 16) (val (act.map fun e => readField s 1 e a))
    finish (act.foldl (freeF s 1) s2) t q (ac + indAc f)

/-- The largest, or smallest, value; without an active PE the value of R89. -/
def maxOf (S : Bool) (w : Nat) (l : List Nat) : Word := BitVec.ofInt 32 (l.foldl (fun m x => max m (value S w x)) (minVal S w))
def minOf (S : Bool) (w : Nat) (l : List Nat) : Word := BitVec.ofInt 32 (l.foldl (fun m x => min m (value S w x)) (maxVal S w))

/-- RANY: F ← A AND K in active elements, then the tile vector and the device result (R89, R90). -/
def execRany (t : Tenant) (f : FmtA) (s : State) : Outcome State Fault Refusal :=
  let a : Fld := ⟨f.ai, f.ab.toNat, width f⟩
  .next (runAis s t (wordA f 5 0) (redChk s f (decide (f.wm1 ≠ 0)) false) fun q s1 =>
    let g := gw s q
    let es := elems s g (ownTiles s t)
    let s2 := (es.filter (active s g)).foldl (fun u e => setF u g e ((readField s g e a).testBit 0)) (touch s1 g es a)
    let v := (tileVec s2 t g).toNat + 65536 * (deviceOr s2 t g).toNat
    finish (setSreg s2 q.val (f.db.toNat % 16) (BitVec.ofNat 32 v)) t q (14 + indAc f))

/-- RMAX: the largest A over active PEs. -/
def execRmax (t : Tenant) (f : FmtA) (s : State) : Outcome State Fault Refusal :=
  .next (reduce s t 1 f (decide (32 < width f)) (3 + 15 * width f) (maxOf (f.modf.getLsbD 3) (width f)))

/-- RMIN: the smallest A over active PEs. -/
def execRmin (t : Tenant) (f : FmtA) (s : State) : Outcome State Fault Refusal :=
  .next (reduce s t 2 f (decide (32 < width f)) (3 + 15 * width f) (minOf (f.modf.getLsbD 3) (width f)))

/-- The sum of A over the active PEs of some logical tiles. -/
def sumOver (s : State) (a : Fld) (l : List Nat) : Nat :=
  (((elems s 1 l).filter (active s 1)).map fun e => readField s 1 e a).foldl (· + ·) 0

/-- RSUM: the sum over the program tiles; in CHECKED-DUAL the sums of both halves are compared (R91, R218). -/
def execRsum (t : Tenant) (f : FmtA) (s : State) : Outcome State Fault Refusal :=
  let a : Fld := ⟨f.ai, f.ab.toNat, width f⟩
  .next (runAis s t (wordA f 5 3) (redChk s f (decide (16 < width f) || f.modf.getLsbD 3) true) fun q s1 =>
    let es := elems s 1 (ownTiles s t)
    let s2 := setSreg (touch s1 1 es a) q.val (f.db.toNat % 16) (BitVec.ofNat 32 (sumOver s a (progTiles s t)))
    if isDual s t && decide (sumOver s a (progTiles s t) ≠ sumOver s a (halfB s t)) then
      takeMark (dualMismatch (addTime s2 t (163 * width f + 744 + indAc f)) t)
    else finish ((es.filter (active s 1)).foldl (freeF s 1) s2) t q (163 * width f + 744 + indAc f))

end Sys2Proof.Machine
end

