-- ==== Sys2Proof/Machine/Control.lean ====
section
/-! DEFINITION. The control class (OPC 0x09, R59, R96–R101, R139, R140, R142, R147, R202, R209, R218). -/

namespace Sys2Proof.Machine

open Host (Outcome)

/-- Reserved fields of a control instruction, but for those that a function names (R96). -/
def ctlBad (f : FmtA) (db ab bb modf : Nat) : Bool :=
  decide (f.res ≠ 0 ∨ f.wm1 ≠ 0 ∨ db ≤ f.db.toNat ∨ ab ≤ f.ab.toNat ∨ bb ≤ f.bb.toNat ∨ modf ≤ f.modf.toNat) ||
    f.di || f.ai || f.bi || f.bs

/-- FBAR, CKPT and END first take every flag OR in flight; a trap that is then pending is delivered at the instruction,
before it has an effect (R98, R142). -/
def afterFlags (s : State) (t : Tenant) (q : SeqId) (eff : State → State) : State :=
  let s1 := drainFlags s t q
  if !(sqr s1 q.val).tl && trapWaits s1 t then boundary s1 t q else eff s1

/-! ### Checkpoints -/

/-- The live region lies in the user space, or in a reclaimed berm (R97). -/
def liveOk (s : State) (t : Tenant) (lb l : Nat) : Bool :=
  decide (l = 0 ∨ lb + l ≤ 2304) || (decide (3072 ≤ lb ∧ lb + l ≤ 4096) && reclaimed s t)

/-- C and K of every PE of the tenant's tiles that differ from (0, 1), by logical tile. -/
def ckRegs (s : State) (l : List Nat) : SMap (Bool × Bool) :=
  l.foldl (fun m n => match physOf s n with
    | none => m
    | some p => (List.range 4096).foldl (fun m i =>
        let x := pe s (p.val * 4096 + i)
        SMap.set (false, true) m (n * 4096 + i) (x.c, x.k)) m) []

/-- Reading planes `lb` to `lb + len − 1` of the tenant's tiles checks their parity (R38). -/
def ckTouch (s : State) (t : Tenant) (lb len : Nat) : State :=
  latchBad s fun k b => inBits lb len b && (physTiles s (ownTiles s t)).any fun p => decide (k / 4096 = p.val)

/-- The live bits that are 1, by logical tile. -/
def ckLive (s : State) (l : List Nat) (lb len : Nat) : SMap Bool :=
  l.foldl (fun m n => match physOf s n with
    | none => m
    | some p => (List.range 4096).foldl (fun m i => (List.range len).foldl (fun m j =>
        SMap.set false m ((n * 4096 + i) * 4096 + lb + j) (peBit s (p.val * 4096 + i) (lb + j))) m) m) []

/-- Live planes, C and K agree between program tile j of both halves (R218). -/
def halvesAgree (s : State) (t : Tenant) (lb len : Nat) : Bool :=
  ((progTiles s t).zip (halfB s t)).all fun ab =>
    match physOf s ab.1, physOf s ab.2 with
    | some a, some b => (List.range 4096).all fun i =>
        let x := pe s (a.val * 4096 + i)
        let y := pe s (b.val * 4096 + i)
        decide (x.c = y.c ∧ x.k = y.k) && (List.range len).all fun j =>
          peBit s (a.val * 4096 + i) (lb + j) == peBit s (b.val * 4096 + i) (lb + j)
    | _, _ => true

/-- The checkpoint that CKPT records, both copies complete (R97, R147, R209). -/
def newCkpt (s : State) (t : Tenant) (q : SeqId) (o : Order) (lb len : Nat) : Ckpt :=
  let x := sqr s q.val
  let idx := fun (p : InBind → Bool) => (List.range o.ins.length).filter fun b => match o.ins[b]? with
    | some i => p i
    | none => false
  { pc := x.pc + 1, s := x.s, gw := x.gw, lb := lb, len := len, regs := ckRegs s (ownTiles s t),
    live := ckLive s (ownTiles s t) lb len, fsum := o.fsum,
    enables := match heldCtx s t with
      | some k => (ctx s k.val).enables
      | none => 0
    trapMode := match heldCtx s t with
      | some k => (ctx s k.val).trapMode
      | none => false
    staged := o.staged.length, landed := idx InBind.landed, armed := idx InBind.inarmed, reclaimed := reclaimed s t,
    copyA := areaUp s t 2, copyB := areaUp s t 3 }

/-- CKPT: record a checkpoint; the journal and the time since the last checkpoint start anew (R97, R198, R202), and an
error after it is a first error again (R64). -/
def execCkpt (t : Tenant) (f : FmtA) (s : State) : Outcome State Fault Refusal :=
  let lb := f.db.toNat
  let len := f.ab.toNat
  let maxLive := match (ten s t).own with
    | some r => r.maxLive
    | none => 0
  .next (runAis s t (wordA f 9 0)
    (fun _ => Check.first [illegalIf (ctlBad f 4096 4096 1 1), operandIf (!liveOk s t lb len) 0,
      operandIf (decide (maxLive < len)) 1])
    fun q s1 => afterFlags s1 t q fun s0 =>
      let s2 := ckTouch s0 t lb len
      if isDual s2 t && !halvesAgree s2 t lb len then takeMark (dualMismatch (addTime s2 t (24 + 16 * (len + 2))) t)
      else
        let s3 := journalWrite (refill (modRun s2 t fun o => { o with
          ckpt := some (newCkpt s2 t q o lb len), journal := [], replay := [] }) t [2, 3]) t
        let s5 := modRun (addTime (endWindow s3 t) t (24 + 16 * (len + 2))) t fun o => { o with sinceTicks := 0 }
        boundary (advance (afterRoutine s5 t q) t q) t q)

/-- FBAR: the flag ORs of earlier instructions arrive, and a trap that becomes pending is delivered (R98). -/
def execFbar (t : Tenant) (f : FmtA) (s : State) : Outcome State Fault Refusal :=
  .next (runAis s t (wordA f 9 1) (fun _ => illegalIf (ctlBad f 1 1 1 1)) fun q s1 =>
    afterFlags s1 t q fun s2 => finish s2 t q 14)

/-! ### Waits (R100, R102, R163, R202) -/

/-- A request credit of VC0 is available to the sequencer: its interface issues requests, and fewer than 64 are outstanding
(R163, R258, R265). -/
def reqCredit (s : State) (q : SeqId) : Bool :=
  let x := ni s (seqNi q.val).val
  decide (x.st = .opened) && decide (x.out.length + x.held.length < 64)

/-- The condition of a WAIT: the counts reached, the level that holds, or the edge latched (R163); the timer of WAITEV counts
against its register (R100). -/
def waitMet (s : State) (t : Tenant) (q : SeqId) (w : Wait) : Bool :=
  let i := w.imm.toNat
  match w.ais with
  | some a => if a.timer then decide (a.limit ≤ w.usCount) else condMet s t q w i
  | none => condMet s t q w i
where
  condMet (s : State) (t : Tenant) (q : SeqId) (w : Wait) (i : Nat) : Bool :=
  match w.cond.toNat with
  | 0 => (sqr s q.val).gors.isEmpty
  | 1 => match runOrder s t with
    | some o => (match o.ins[i % 8]? with
      | some b => b.landed
      | none => false)
    | none => false
  | 2 => match (sqr s q.val).mem with
    | some m => m.done
    | none => false
  | 3 => reqCredit s q
  | 4 => decide (i ≤ w.acCount.toNat)
  | 5 => decide (sreg s q.val (i % 16) ≤ w.usCount)
  | 6 => if i / 64 % 2 = 0 then SMap.get false s.fab.lineLevel (i % 64) else if i % 2 = 0 then w.edge0 else w.edge1
  | _ => false

/-- A wait of WAITEV or INWAIT ends with a status: it is recorded in the journal and the instruction ends (R202). -/
def endAisWait (s : State) (t : Tenant) (q : SeqId) (a : AisWait) (status : Word) : State :=
  let s1 := modSqr s q.val fun x => { x with ws := none }
  let s2 := modRun (setSreg (journalWrite s1 t) q.val a.statusReg.toNat status) t fun o => { o with journal := o.journal ++ [status] }
  finish s2 t q 3

/-- WAITEV and INWAIT: a journaled outcome is taken without waiting; a level that holds ends the wait at once. -/
def startAisWait (s : State) (t : Tenant) (q : SeqId) (cond : BitVec 3) (imm : BitVec 12) (a : AisWait) : State :=
  match runOrder s t with
  | none => s
  | some o =>
    match o.replay with
    | v :: r => finish (setSreg (setOrder s t { o with replay := r }) q.val a.statusReg.toNat v) t q 3
    | [] =>
      let w : Wait := ⟨cond, imm, true, 0, 0, false, false, some a⟩
      if waitMet s t q w then endAisWait s t q a 0
      else modSqr s q.val fun x => { x with ws := some w }

/-- The WAIT that an event of WAITEV means: condition and argument; none for a reserved event. -/
def eventCond (ev : Nat) : Option (BitVec 3 × BitVec 12) :=
  if ev < 0x40 then some (6, BitVec.ofNat 12 ev)
  else if ev = 0x40 ∨ ev = 0x41 then some (6, BitVec.ofNat 12 ev)
  else if ev = 0x42 then some (5, 0)
  else if 0x48 ≤ ev ∧ ev < 0x50 then some (1, BitVec.ofNat 12 (ev - 0x48))
  else none

/-- The tenant holds the line or binding of an event, and its channel has SYNC (R100). -/
def eventHeld (s : State) (t : Tenant) (ev : Nat) : Bool :=
  match (ten s t).own, runOrder s t with
  | some r, some o =>
    if ev < 0x40 then r.lines.getLsbD ev
    else if ev < 0x42 then decide (r.channel.val < 2)
    else if 0x48 ≤ ev then decide (ev - 0x48 < o.ins.length)
    else true
  | _, _ => false

/-- WAITEV: wait for an event, with a limit in µs (R100). -/
def execWaitev (t : Tenant) (f : FmtA) (s : State) : Outcome State Fault Refusal :=
  let ev := f.ab.toNat
  .next (runAis s t (wordA f 9 2)
    (fun _ => Check.first [illegalIf (ctlBad f 16 256 16 1 || (eventCond ev).isNone), operandIf (!eventHeld s t ev) 1])
    fun q s1 =>
      match eventCond ev with
      | some (c, i) => startAisWait s1 t q c i ⟨f.db.truncate 4, sreg s q.val f.bb.toNat, decide (ev = 0x42)⟩
      | none => s1)

/-- The limit of a WAITEV or INWAIT has expired: status 1 (R100). -/
def execWaitevLimitExpired (q : SeqId) (s : State) : Outcome State Fault Refusal :=
  .next (match (sqr s q.val).bound, (sqr s q.val).ws with
    | some t, some w => (match w.ais with
      | some a => if a.timer = false ∧ a.limit ≠ 0 ∧ a.limit ≤ w.usCount ∧ frozen s = false then endAisWait s t q a 1 else s
      | none => s)
    | _, _ => s)

/-! ### The other control functions -/

/-- TRAP: software trap, cause 16 + code. -/
def execTrap (t : Tenant) (f : FmtA) (s : State) : Outcome State Fault Refusal :=
  .next (runAis s t (wordA f 9 3) (fun _ => illegalIf (ctlBad f 1 16 1 1)) fun q s1 =>
    let pc := (sqr s q.val).pc
    raiseTrap (afterRoutine (addTime s1 t 4) t q) t q (16 + f.ab.toNat) 0 pc.toNat (pc + 1).toNat noUpc)

/-- GANG: set the gang width under R59, which leaves X and all of M unchanged too. -/
def execGang (t : Tenant) (f : FmtA) (s : State) : Outcome State Fault Refusal :=
  .next (runAis s t (wordA f 9 4) (fun _ => illegalIf (ctlBad f 1 1 1 3)) fun q s1 =>
    let g := layoutOf f.modf.toNat
    let done := fun (u : State) (ac : Nat) => boundary (advance (addTime u t ac) t q) t q
    if (sqr s q.val).gw = g then done s1 1
    else
      let ks := (physTiles s (ownTiles s t)).flatMap fun p => (List.range 4096).map fun i => p.val * 4096 + i
      let s2 := ks.foldl (fun u k => setPe u k { pe u k with c := false }) s1
      let s3 := if g = .g1 then s2
        else (elems s g.width (ownTiles s t)).foldl (fun u e => setK u g.width e (pe s (e.lane g.width 0)).k) s2
      done (modSqr s3 q.val fun x => { x with gw := g }) 4)

/-- BRCLM: the tenant reclaims the berm (R40, R42). -/
def execBrclm (t : Tenant) (f : FmtA) (s : State) : Outcome State Fault Refusal :=
  .next (runAis s t (wordA f 9 5) (fun _ => illegalIf (ctlBad f 1 1 1 1)) fun q s1 =>
    finish ((physTiles s (ownTiles s t)).foldl (fun u p =>
      modTile u p.val fun x => { x with reclaimed := true, bermValid := false }) s1) t q 1)

/-- FCLR: clear the status bits of the mask in active PEs. -/
def execFclr (t : Tenant) (f : FmtA) (s : State) : Outcome State Fault Refusal :=
  .next (runAis s t (wordA f 9 6) (fun _ => illegalIf (ctlBad f 1 256 1 1)) fun q s1 =>
    let g := gw s q
    finish (((elems s g (ownTiles s t)).filter (active s g)).foldl (fun u e =>
      (List.range g).foldl (fun v j => clearSticky v (e.lane g j) (f.ab.truncate 8)) u) s1) t q 2)

/-- FTEN: set the tenant's floating-point controls, with a trap context in a large tenant (R99, R139, R140, R147). DESIGN CHOICE
(log 54): an FTEN with a non-zero mask in a tenant that holds a context keeps the pending mask as it is. -/
def execFten (t : Tenant) (f : FmtA) (s : State) : Outcome State Fault Refusal :=
  let en : BitVec 5 := f.ab.truncate 5
  let tm := f.ab.getLsbD 5
  let wants := decide (en ≠ 0) || tm
  let large := match runOrder s t with
    | some o => o.large
    | none => false
  let busy := wants && large && (heldCtx s t).isNone && (freeCtx s).isNone
  .next (runAis s t (wordA f 9 7)
    (fun _ => Check.first [illegalIf (ctlBad f 1 64 1 1), operandIf (wants && !large) 1])
    fun q s1 =>
      if busy then
        let pc := (sqr s q.val).pc
        raiseTrap (logEvent (addTime s1 t 1) 0x0205 1 [t] 0 t.val []) t q 1 1 pc.toNat (pc + 1).toNat noUpc
      else
        let s2 := match heldCtx s1 t with
          | some k =>
            if wants then setCtx s1 k.val { ctx s1 k.val with enables := en, trapMode := tm }
            else tryReexecAll (dropCtx s1 t)
          | none => (match freeCtx s1 with
            | some k => if wants then loadCtx s1 t k en tm else s1
            | none => s1)
        let s3 := modRun s2 t fun o => { o with
          ckpt := o.ckpt.map fun k => { k with fsum := o.fsum, enables := en, trapMode := tm } }
        finish s3 t q 2)

/-- RTT: return from a trap to the resume PC, at trap level only (R96, R177, R514). -/
def execRtt (t : Tenant) (f : FmtA) (s : State) : Outcome State Fault Refusal :=
  .next (runAis s t (wordA f 9 8)
    (fun q => illegalIf (ctlBad f 1 1 1 1 || !(sqr s q.val).tl))
    fun q s1 =>
      if xmBadAt s (trapFrame s t.val) 0x7C then trapFrameLost s1 t
      else
      let s2 := returnTrap (addTime s1 t 32) t q
      if (sqr s2 q.val).bound = some t ∧ (runOrder s2 t).isSome then
        bump (boundary (scramble (scramble s2 (physTiles s2 (ownTiles s2 t)) 2) (physTiles s2 (ownTiles s2 t)) 3) t q)
      else s2)

/-- END: wait for the effects of earlier instructions, then settle the order (R101, R203). -/
def execEnd (t : Tenant) (f : FmtA) (s : State) : Outcome State Fault Refusal :=
  .next (runAis s t (wordA f 9 9)
    (fun q => illegalIf (ctlBad f 1 1 1 1 || (sqr s q.val).tl))
    fun q s1 => afterFlags s1 t q fun s2 => takeMark (finishOrder (afterRoutine (addTime s2 t 16) t q) t))

end Sys2Proof.Machine
end

