-- ==== Sys2Proof/Machine/Binding.lean ====
section
/-! DEFINITION. The binding class (OPC 0x0A, R102, R103, R196, R197, R287–R290, R349, R350). -/

namespace Sys2Proof.Machine

open Host (Outcome)

/-- Planes `base` to `base + n − 1` lie in the user space or in a reclaimed berm. -/
def landOk (s : State) (t : Tenant) (base n : Nat) : Bool :=
  decide (base + n ≤ 2304) || (decide (3072 ≤ base ∧ base + n ≤ 4096) && reclaimed s t)

/-- The configuration that an INARM of a camera binding sees: the sampled one, or before the claim the present one. -/
def bindCfg (s : State) (i : InBind) : CamCfg :=
  match i.cam with
  | some c => c
  | none => (SMap.get Cam.initial s.cams i.source.toNat).cfg

/-- The address list that a type 4 source names: the tenant's extents, or a shared extent (R191, R196). -/
def regionSrc (s : State) (t : Tenant) (src : Nat) : Option (List Extent) :=
  if src = 0 then (ten s t).own.map OwnRec.extents
  else if 0x80 ≤ src ∧ src < 0xA0 then
    match (ten s (Fin.ofNat 4 ((src - 0x80) / 8))).own with
    | some r =>
      if r.shared.any fun x => x.extent && x.readers.getLsbD t.val && decide (x.index.toNat = (src - 0x80) % 8) then
        (r.extents[(src - 0x80) % 8]?).map fun e => [e]
      else none
    | none => none
  else none

/-- Whether a camera binding lands in scratchpad. -/
def bindToSp (s : State) (i : InBind) : Bool := decide (i.kind = .camera) && (bindCfg s i).toSp

/-- The landing region and geometry of a binding raise no binding fault (R102, R197, R288, R290, R349, R350). -/
def landFits (s : State) (t : Tenant) (i : InBind) (db layout : Nat) : Bool :=
  let g := (layoutOf layout).width
  match i.kind with
  | .camera =>
    let c := bindCfg s i
    if c.toSp then camSpFits s t c
    else landOk s t db (ceilDiv (pixBits c.fmt) g) && camFits s t c g
  | .adc => landOk s t db (ceilDiv 16 g) && adcFits s t i.source.toNat i.mask i.len.toNat g
  | .snapshot => landOk s t db (16 * (i.len.toNat / 2 - 1) + ceilDiv 16 g)
  | .region =>
    decide (layout = 0) && landOk s t db (i.len.toNat / (512 * (progTiles s t).length)) &&
      (regionSrc s t i.source.toNat).isSome

/-- The binding faults of INARM (R102, R287). -/
def inarmFault (s : State) (t : Tenant) (f : FmtA) (b : Nat) : Bool :=
  match runOrder s t with
  | none => true
  | some o =>
    match o.ins[b]? with
    | none => true
    | some i =>
      i.inarmed || !landFits s t i f.db.toNat f.modf.toNat ||
        match i.arm with
        | some a => decide (a.base ≠ f.db ∨ a.layout ≠ layoutOf f.modf.toNat)
        | none => false

/-- DB and MODF of a binding that lands in scratchpad are 0 (R102). -/
def spFieldsBad (s : State) (t : Tenant) (f : FmtA) (b : Nat) : Bool :=
  match runOrder s t with
  | some o => (match o.ins[b]? with
    | some i => bindToSp s i && decide (f.db ≠ 0 ∨ f.modf ≠ 0)
    | none => false)
  | none => false

/-- INARM's effect on its binding: it is armed; a scratchpad region is read into the retained copies now (R197 rule 7). -/
def armBind (s : State) (t : Tenant) (f : FmtA) (i : InBind) : InBind :=
  let arm : Arm := match i.arm with
    | some a => a
    | none => ⟨f.db, layoutOf f.modf.toNat, bindToSp s i⟩
  if i.kind = .region ∧ i.complete = false then
    { i with
      inarmed := true, arm := some arm, complete := true
      data := extRead s ((regionSrc s t i.source.toNat).getD []) i.offset.toNat i.len.toNat }
  else { i with inarmed := true, arm := some arm }

/-- The first byte of the region of a type 4 binding, not yet read, whose read fails twice: the order loses its input (R236). -/
def regionFails (s : State) (t : Tenant) (o : Order) (b : Nat) : Option Nat :=
  match o.ins[b]? with
  | some i => if i.kind = .region ∧ i.complete = false then
      (s.spBad.find? fun e => decide (e.2 = .upset ∨ e.2 = .stuck) && (List.range i.len.toNat).any fun j =>
        decide (extAddr ((regionSrc s t i.source.toNat).getD []) (i.offset.toNat + j) = some e.1)).map Prod.fst
    else none
  | none => none

/-- INARM: arm input binding BB for landing at DB (R102). A binding whose data landed before a re-execution lands again
(R209). -/
def execInarm (t : Tenant) (f : FmtA) (s : State) : Outcome State Fault Refusal :=
  let b := f.bb.toNat
  .next (runAis s t (wordA f 10 0)
    (fun _ => Check.first [
      illegalIf (decide (f.res ≠ 0 ∨ f.wm1 ≠ 0 ∨ f.ab ≠ 0 ∨ 8 ≤ b ∨ 3 ≤ f.modf.toNat) || f.di || f.ai || f.bi || f.bs ||
        spFieldsBad s t f b),
      bindingIf (inarmFault s t f b) b])
    fun q s1 =>
      match runOrder s1 t with
      | none => s1
      | some o =>
        match regionFails s1 t o b with
        | some a => abortOrders (readFailed s1 false a (roleByte s1 6)) t [o.seq] 0x0B
        | none =>
          let s2 := refill (setOrder s1 t (o.modIn b (armBind s t f))) t [4, 5]
          finish (landNow (reland s2 t o.seq [b]) t o.seq b) t q 4)

/-- INWAIT: wait until input binding BB has landed (R102). -/
def execInwait (t : Tenant) (f : FmtA) (s : State) : Outcome State Fault Refusal :=
  let b := f.bb.toNat
  .next (runAis s t (wordA f 10 1)
    (fun _ => Check.first [illegalIf (ctlBad f 16 16 8 1),
      bindingIf (match runOrder s t with
        | some o => (match o.ins[b]? with
          | some i => i.arm.isNone
          | none => true)
        | none => true) b])
    fun q s1 =>
      startAisWait s1 t q 1 (BitVec.ofNat 12 b) ⟨f.db.truncate 4, sreg s q.val f.ab.toNat, false⟩)

/-- Output binding `b` of the RUNNING order. -/
def outBind (s : State) (t : Tenant) (b : Nat) : Option OutBind :=
  match runOrder s t with
  | some o => o.outs[b]?
  | none => none

/-- A staged write joins those of the running order, in both copies (R103, R201). -/
def stage (s : State) (t : Tenant) (w : Staged) : State :=
  refill (modRun s t fun o => { o with staged := o.staged ++ [w] }) t [4, 5]

/-- One tile image of a plane: 8 bytes a row, the PE in column 8j + i in bit i of byte j (R197, R256). DESIGN CHOICE (log 64): in
G4 and G16 the lanes of the top plane that hold no bit of the field give the bits stored there. -/
def tileImage (s : State) (g : Nat) (a : Fld) (n p j : Nat) : Bytes :=
  (List.range 512).map fun c => BitVec.ofNat 8 ((List.range 8).foldr (fun i acc =>
    let col := 8 * (c % 8) + i
    let e : Elem := ⟨n, Fin.ofNat 17 p, c / 8, col / g⟩
    2 * acc + (peBit s (p * 4096 + c / 8 * 64 + col) ((a.at s g e + j) % 4096)).toNat) 0)

/-- The plane images of a field over some program tiles (R102). -/
def planeImages (s : State) (g : Nat) (a : Fld) (l : List Nat) : Bytes :=
  (List.range (a.planes g)).flatMap fun j => l.flatMap fun n =>
    match physOf s n with
    | some p => tileImage s g a n p.val j
    | none => List.replicate 512 0

/-- OUTP: stage the planes of A for output binding BB, K notwithstanding (R102, R103). -/
def execOutp (t : Tenant) (f : FmtA) (s : State) : Outcome State Fault Refusal :=
  let b := f.bb.toNat
  let a : Fld := ⟨f.ai, f.ab.toNat, width f⟩
  .next (runAis s t (wordA f 10 2)
    (fun q => Check.first [
      illegalIf (decide (f.res ≠ 0 ∨ f.modf ≠ 0 ∨ f.db ≠ 0 ∨ 8 ≤ b) || f.di || f.bi || f.bs),
      readCheck a (gw s q) 1,
      bindingIf (match outBind s t b with
        | some x => decide (x.len.toNat < 512 * (progTiles s t).length * a.planes (gw s q))
        | none => true) b])
    fun q s1 =>
      let g := gw s q
      let w : Staged := ⟨b, 0, planeImages s g a (progTiles s t),
        if isDual s t then planeImages s g a (halfB s t) else planeImages s g a (progTiles s t)⟩
      finish (stage (touch s1 g (elems s g (ownTiles s t)) a) t w) t q
        (24 + 16 * a.planes g + indAc f))

/-- OUTS: stage a register at byte offset DB of output binding BB. -/
def execOuts (t : Tenant) (f : FmtA) (s : State) : Outcome State Fault Refusal :=
  let b := f.bb.toNat
  .next (runAis s t (wordA f 10 3)
    (fun _ => Check.first [illegalIf (ctlBad f 4096 16 8 1),
      bindingIf (match outBind s t b with
        | some x => decide (f.db.toNat % 4 ≠ 0 ∨ x.len.toNat < f.db.toNat + 4)
        | none => true) b])
    fun q s1 =>
      let d := leBytes 4 (sreg s q.val f.ab.toNat).toNat
      finish (stage s1 t ⟨b, f.db.toNat, d, d⟩) t q 2)

/-- OUTF: stage bits [15:0] of a register for the mailbox of output binding BB. -/
def execOutf (t : Tenant) (f : FmtA) (s : State) : Outcome State Fault Refusal :=
  let b := f.bb.toNat
  .next (runAis s t (wordA f 10 4)
    (fun _ => Check.first [illegalIf (ctlBad f 1 16 8 1),
      bindingIf (match outBind s t b with
        | some x => decide (x.kind ≠ .mailbox)
        | none => true) b])
    fun q s1 =>
      let d := leBytes 2 ((sreg s q.val f.ab.toNat).toNat % 65536)
      finish (stage s1 t ⟨b, 0, d, d⟩) t q 2)

end Sys2Proof.Machine
end

