-- ==== Sys2Proof/Machine/Branch.lean ====
section
/-! DEFINITION. The branch class (OPC 0x08, R95, R514). -/

namespace Sys2Proof.Machine

open Host (Outcome)

/-- Unused fields of a branch (R95): the tested bit, SA, SB, TGT. -/
def brBad (f : FmtJ) (bit sa sb tgt : Bool) : Bool :=
  decide (f.res ≠ 0) || (!bit && (f.ai || decide (f.ab ≠ 0))) || (!sa && decide (f.sa ≠ 0)) ||
    (!sb && decide (f.sb ≠ 0)) || (!tgt && decide (f.tgt ≠ 0))

/-- A branch ends: taken or not, its time is the same. A link or a counter is written in either case (log 17). -/
def branchEnd (s : State) (t : Tenant) (q : SeqId) (ac : Nat) (taken : Bool) (tgt : Nat) : State :=
  let s1 := afterRoutine (addTime s t ac) t q
  boundary (if taken then jump s1 t q tgt else advance s1 t q) t q

/-- A branch on two scalar registers. -/
def branchCmp (s : State) (t : Tenant) (fn : Nat) (f : FmtJ) (c : Word → Word → Bool) : State :=
  runAis s t (wordJ f fn) (fun _ => illegalIf (brBad f false true true true)) fun q s1 =>
    branchEnd s1 t q 2 (c (sreg s q.val f.sa.toNat) (sreg s q.val f.sb.toNat)) f.tgt.toNat

/-- BANY and BNONE: F ← bit AB AND K in active elements, then one GOR; F is undefined afterwards. -/
def branchBit (s : State) (t : Tenant) (fn : Nat) (f : FmtJ) (want : Bool) : State :=
  let a : Fld := ⟨f.ai, f.ab.toNat, 1⟩
  runAis s t (wordJ f fn) (fun _ => illegalIf (brBad f true false false true)) fun q s1 =>
    let g := gw s q
    let es := elems s g (ownTiles s t)
    let act := es.filter (active s g)
    let s2 := act.foldl (fun u e => setF u g e ((readField s g e a).testBit 0)) (touch s1 g es a)
    branchEnd (act.foldl (freeF s g) s2) t q (15 + f.ai.toNat) (deviceOr s2 t g == want) f.tgt.toNat

/-- BR: always. -/
def execBr (t : Tenant) (f : FmtJ) (s : State) : Outcome State Fault Refusal :=
  .next (runAis s t (wordJ f 0) (fun _ => illegalIf (brBad f false false false true)) fun q s1 =>
    branchEnd s1 t q 2 true f.tgt.toNat)

/-- BANY: branch if the device result is 1. -/
def execBany (t : Tenant) (f : FmtJ) (s : State) : Outcome State Fault Refusal := .next (branchBit s t 1 f true)
/-- BNONE: branch if the device result is 0. -/
def execBnone (t : Tenant) (f : FmtJ) (s : State) : Outcome State Fault Refusal := .next (branchBit s t 2 f false)
/-- BEQ: SA = SB. -/
def execBeq (t : Tenant) (f : FmtJ) (s : State) : Outcome State Fault Refusal :=
  .next (branchCmp s t 3 f fun a b => decide (a = b))
/-- BNE: SA ≠ SB. -/
def execBne (t : Tenant) (f : FmtJ) (s : State) : Outcome State Fault Refusal :=
  .next (branchCmp s t 4 f fun a b => decide (a ≠ b))
/-- BLT: SA < SB, signed. -/
def execBlt (t : Tenant) (f : FmtJ) (s : State) : Outcome State Fault Refusal := .next (branchCmp s t 5 f BitVec.slt)
/-- BLTU: SA < SB, unsigned. -/
def execBltu (t : Tenant) (f : FmtJ) (s : State) : Outcome State Fault Refusal := .next (branchCmp s t 6 f BitVec.ult)

/-- DBNZ: SA ← SA − 1; branch if SA ≠ 0. -/
def execDbnz (t : Tenant) (f : FmtJ) (s : State) : Outcome State Fault Refusal :=
  .next (runAis s t (wordJ f 7) (fun _ => illegalIf (brBad f false true false true)) fun q s1 =>
    let v := sreg s q.val f.sa.toNat - 1
    branchEnd (setSreg s1 q.val f.sa.toNat v) t q 2 (decide (v ≠ 0)) f.tgt.toNat)

/-- CALL: S15 ← PC + 1; branch always. -/
def execCall (t : Tenant) (f : FmtJ) (s : State) : Outcome State Fault Refusal :=
  .next (runAis s t (wordJ f 8) (fun _ => illegalIf (brBad f false false false true)) fun q s1 =>
    branchEnd (setSreg s1 q.val 15 (((sqr s q.val).pc + 1).zeroExtend 32)) t q 2 true f.tgt.toNat)

/-- RET: PC ← S15[23:0]. -/
def execRet (t : Tenant) (f : FmtJ) (s : State) : Outcome State Fault Refusal :=
  .next (runAis s t (wordJ f 9) (fun _ => illegalIf (brBad f false false false false)) fun q s1 =>
    branchEnd s1 t q 2 true ((sreg s q.val 15).toNat % 2 ^ 24))

end Sys2Proof.Machine
end

