-- ==== Sys2Proof/Machine/Claims.lean ====
section
/-! DEFINITION. Start inputs and the claims of ADC-window and snapshot bindings at the reference instant
(R14, R15, R18, R195, R348, R350, R437). -/

namespace Sys2Proof.Machine

/-- The words of a snapshot: IN of the positions, then VAL of each; positions the tenant does not own read 0 (R350). -/
def snapWords (s : State) (t : Tenant) (g : Nat) (len : Nat) : Bytes :=
  leBytes 2 (posMask fun q => ownsFc s t (16 * g + q) && fcIn s (16 * g + q)).toNat ++
    if len = 34 then
      (List.range 16).flatMap fun q => leBytes 2 (if ownsFc s t (16 * g + q) then (fcVal s (16 * g + q)).toNat else 0)
    else []

/-- A masked channel of an ADC window cannot be claimed: it has left modes 7 and 8, or its history is too short. -/
def adcLost (s : State) (i : InBind) : Bool :=
  (maskList i.mask).any fun q =>
    let x := fch s (16 * i.source.toNat + q)
    !isAin x.mode || decide (x.hist.length < x.pretrig.toNat)

/-- The next position of a scan from `pos` upward, cyclically. -/
def nextScan (l : List Nat) (pos : Nat) : Option Nat :=
  match l.find? fun q => decide (pos ≤ q) with
  | some q => some q
  | none => l.head?

/-- The bytes of a window once every masked channel has its S samples. -/
def windowData (i : InBind) (m : SMap (List Half)) : Option Bytes :=
  let qs := maskList i.mask
  if qs.all fun p => decide (i.len.toNat ≤ (SMap.get [] m p).length) then
    some (qs.flatMap fun p => ((SMap.get [] m p).take i.len.toNat).flatMap fun v => leBytes 2 v.toNat)
  else none

/-- An ADC window takes its samples; it fills with them when `now` says that no sample before the reference instant is still to come. -/
def takeSamples (i : InBind) (m : SMap (List Half)) (now : Bool) : InBind := match windowData i m with
  | some d => if now then { i with samples := m, complete := true, data := d } else { i with samples := m }
  | none => { i with samples := m }

/-- Claim one binding at a reference instant: an ADC window takes the samples before it from the history, and fills at once where they
are all that it holds and the channel in conversion is not of it; a snapshot latches. -/
def claimBind (s : State) (t : Tenant) (stamp : DWord) (i : InBind) : InBind :=
  match i.kind with
  | .adc =>
    let g := i.source.toNat
    let m := (maskList i.mask).foldl (fun m q =>
      let x := fch s (16 * g + q)
      SMap.set [] m q ((x.hist.take x.pretrig.toNat).reverse.map Prod.snd)) []
    let converting := match nextScan (adcScan s g) (grp s g).adcPos with
      | some q => i.mask.getLsbD q
      | none => false
    takeSamples { i with claimed := true } m (decide (stamp = s.time) && !converting)
  | .snapshot => { i with
      claimed := true, data := snapWords s t i.source.toNat i.len.toNat, complete := true }
  | _ => i

/-- The reference instant of an order: its windows and snapshots are claimed, or the order loses an input. -/
def claimWindows (s : State) (t : Tenant) (seq : Word) (stamp : DWord) : State :=
  match getOrder s t seq with
  | none => s
  | some o =>
    if o.ins.any fun i => decide (i.kind = .adc) && !i.claimed && adcLost s i then inputLost s t seq
    else refill (setOrder s t { o with ins := o.ins.map fun i => if i.claimed then i else claimBind s t stamp i }) t [4, 5]

/-- A start input of a tenant occurs at a moment: it releases its own order, which becomes ready at once or once starts resume. -/
def startInput (s : State) (t : Tenant) (code : Half) (stamp : DWord) : State :=
  match releaseStart s t code with
  | some q => kick (claimWindows (modOrder s t q fun o => { o with released := true, startTime := stamp }) t q stamp) t
  | none => s

end Sys2Proof.Machine
end

