-- ==== Sys2Proof/Machine/Sess.lean ====
section
/-! DEFINITION. Sessions: opening, closing, answers, and the defaults of their communication objects
(R373, R378, R384, R388, R396, R408, R409, R512). -/

namespace Sys2Proof.Machine

/-- The outcome of an access: an abort code of R384, 0 for none, and the state it leaves. -/
abbrev Answer := Word × State

/-- The session's answer to an access: an abort is recorded in its 0x2004 (R384). -/
def answer (s : State) (k : SesId) (index : Half) (sub : Byte) (abort : Word) (data : Bytes) : State :=
  modSes s k fun x =>
    if abort = 0 then { x with reply := some ⟨0, data⟩ }
    else { x with
      reply := some ⟨abort, []⟩, lastAbort := abort
      lastAbortObj := BitVec.ofNat 32 (index.toNat * 65536 + sub.toNat * 256) }

/-- The host channel of a session; 4 is the maintenance port (R376). -/
def sesChannel (s : State) (k : SesId) : Nat :=
  if k = 4 then 4 else match channelOf s (sesTenant k) with
    | some h => h.val
    | none => 0

/-- A session opens: its per-opening objects take their defaults (R375, R512). -/
def openSes (s : State) (k : SesId) : State :=
  if (ses s k).isOpen then s
  else modSes s k fun x => { x with
    isOpen := true, opened := s.time, requested := 1, agreed := 0, lastAbort := 0, lastAbortObj := 0, logCursor := 0
    xfer := none, awaits := [], reply := none, sent := none }

/-- A session closes: its transfers end, and emergencies not sent yet enter its history (R373, R388, R390; log 21). -/
def closeSes (s : State) (k : SesId) : State :=
  if (ses s k).isOpen then
    modSes s k fun x =>
      let y := x.queue.foldl (fun z e => addHistory z (emcyMapped x.agreed e.code) e.detail) x
      { y with isOpen := false, queue := [], xfer := none, awaits := [], reply := none, sent := none }
  else s

/-- The communication, mapping and assignment objects return to their defaults (R408, R512). -/
def defaultComm (s : State) (k : SesId) : State :=
  modSes s k fun x => { x with
    rxMap := [], txMap := [], rxCount := [], txCount := [], rxAssign := [0x1600, 0, 0, 0], txAssign := [0x1A00, 0, 0, 0]
    rpdo := [], tpdo := [], tpdoSyncs := [] }

/-- The host-channel session of a tenant. -/
def tenSes (t : Tenant) : SesId := Fin.castLE (by decide) t

/-! ### Channels that carry SDOs (R396, R412) -/

/-- The node-ID of a tenant on a CAN controller (R395). -/
def nodeId (s : State) (c : CtrlId) (t : Tenant) : Nat := (can s c).nb.toNat + t.val

/-- The tenant's channel can carry SDOs: the ESC is in PRE-OP or above, or the node is PRE-OPERATIONAL or OPERATIONAL. -/
def channelAble (s : State) (t : Tenant) : Bool :=
  match channelOf s t with
  | none => false
  | some h =>
    decide (ctrlService s h = .inService) &&
      if h.val < 2 then decide ((esc s (Fin.ofNat 2 h.val)).al ≠ .init)
      else decide (nmt s t = .preOperational ∨ nmt s t = .operational)

/-- Open or close the host-channel session of a tenant as its channel stands. -/
def syncSes (s : State) (t : Tenant) : State :=
  if channelAble s t then openSes s (tenSes t) else closeSes s (tenSes t)

/-- A tenant node begins: it boots up into PRE-OPERATIONAL (R408, R413). Nothing binds it to an ESC's states. -/
def bootNode (s : State) (t : Tenant) : State :=
  match channelOf s t with
  | some h =>
    if 2 ≤ h.val ∧ ctrlService s h = .inService then
      let c : CtrlId := Fin.ofNat 2 h.val
      let s1 := { s with net := { s.net with nmt := SMap.set .none s.net.nmt t.val .preOperational } }
      modCan s1 c fun x => { x with lastTx := some (BitVec.ofNat 11 (0x700 + nodeId s c t), [0]) }
    else { s with net := { s.net with nmt := SMap.set .none s.net.nmt t.val .none } }
  | none => { s with net := { s.net with nmt := SMap.set .none s.net.nmt t.val .none } }

/-- The tenant joins the host channel that its record names, or the partner of one out of service (R395, R412). -/
def bindChannel (s : State) (t : Tenant) : State :=
  match (ten s t).own with
  | none => s
  | some r =>
    let h := r.channel
    let partner : HostCh := if h.val % 2 = 0 then h + 1 else h - 1
    modTen s t fun x => { x with
      movedTo := if ctrlService s h ≠ .inService ∧ ctrlService s partner = .inService then some partner else none }

end Sys2Proof.Machine
end

