-- ==== Sys2Proof/Machine/Submit.lean ====
section
/-! DEFINITION. Submission, start, retirement, abort and release of work orders
(R70, R195–R200, R207, R215, R216, R220, R291, R313, R347, R350, R411, R451). -/

namespace Sys2Proof.Machine

open Host (Outcome)

/-! ### The descriptor (R195, R196) -/

/-- A binding record of a descriptor. -/
structure BindRec where
  ty : Nat
  src : Nat
  mask : Nat
  off : Nat
  len : Nat
  res : Nat
  deriving DecidableEq, Repr

def bindRec (d : Bytes) (off : Nat) : BindRec :=
  ⟨leAt d off 1, leAt d (off + 1) 1, leAt d (off + 2) 2, leAt d (off + 4) 4, leAt d (off + 8) 4, leAt d (off + 12) 4⟩

/-- A parsed descriptor. -/
structure Desc where
  ni : Nat
  no : Nat
  hon : Nat
  entry : Nat
  argLen : Nat
  start : Nat
  ins : List BindRec
  outs : List BindRec
  args : Bytes
  deriving DecidableEq, Repr

def parseDesc (d : Bytes) : Desc :=
  let ni := leAt d 2 1
  let no := leAt d 1 1
  { ni := ni, no := no, hon := leAt d 4 4, entry := leAt d 8 3, argLen := leAt d 12 4, start := leAt d 16 2,
    ins := (List.range ni).map fun i => bindRec d (0x20 + 16 * i)
    outs := (List.range no).map fun i => bindRec d (0x20 + 16 * (ni + i)), args := d.drop (0x20 + 16 * (ni + no)) }

/-- The start inputs of R195. -/
def startCodeOk (c : Nat) : Bool := decide (c ≤ 0x41 ∨ (0x50 ≤ c ∧ c ≤ 0x57) ∨ c = 0xFFFF)

/-- The header keeps its format, ranges, reserved fields and length. -/
def descOk (d : Bytes) (x : Desc) : Bool :=
  decide (leAt d 3 1 = 1 ∧ leAt d 0 1 = 0 ∧ x.ni ≤ 8 ∧ x.no ≤ 8 ∧ leAt d 11 1 = 0 ∧ leAt d 18 2 = 0 ∧ x.argLen % 4 = 0 ∧
    x.argLen ≤ 4096 ∧ d.length = 0x20 + 16 * (x.ni + x.no) + x.argLen) && allZeroB (slice d 0x14 12) && startCodeOk x.start
where
  allZeroB (b : Bytes) : Bool := b.all fun v => decide (v = 0)

/-- An input record is well formed (R196, R197, R291, R347, R350). -/
def inRecOk (s : State) (t : Tenant) (b : BindRec) : Bool :=
  decide (b.res = 0) &&
    match b.ty with
    | 1 => decide (b.src < 8 ∧ b.mask = 0 ∧ b.off = 0 ∧ b.len = (SMap.get Cam.initial s.cams b.src).cfg.bytes)
    | 2 => decide (b.src < 32 ∧ b.mask ≠ 0 ∧ b.off = 0 ∧ 1 ≤ b.len ∧ b.len ≤ 256) &&
        (maskList (BitVec.ofNat 16 b.mask)).all fun q => isAin (fch s (16 * b.src + q)).mode
    | 3 => decide (b.src < 32 ∧ b.mask = 0 ∧ b.off = 0 ∧ (b.len = 2 ∨ b.len = 34))
    | 4 => decide ((b.src = 0 ∨ (0x80 ≤ b.src ∧ b.src < 0xA0)) ∧ b.mask = 0 ∧ (progTiles s t).length ≠ 0 ∧
        b.len % (512 * (progTiles s t).length) = 0)
    | _ => false

/-- The source of an input record is the tenant's, or granted to it. -/
def inRecOwned (s : State) (t : Tenant) (b : BindRec) : Bool :=
  match b.ty with
  | 1 => decide (camOwner s b.src = some t)
  | 2 => (maskList (BitVec.ofNat 16 b.mask)).all fun q => ownsFc s t (16 * b.src + q)
  | 3 => (groupOwners s b.src).contains t
  | 4 => match regionSrc s t b.src with
    | some l => decide (b.off + b.len ≤ extTotal l)
    | none => false
  | _ => true

/-- An output record is well formed (R196, R229, R313, R411). -/
def outRecOk (b : BindRec) : Bool :=
  decide (b.res = 0 ∧ b.mask = 0) &&
    match b.ty with
    | 1 => decide (b.src = 0)
    | 2 => decide (b.src = 0 ∧ b.off + b.len ≤ 32768)
    | 3 => decide (b.src = 0 ∧ b.off + b.len ≤ 60)
    | 4 => decide (b.src < 64 ∧ b.off % 2 = 0 ∧ b.off + b.len ≤ 62)
    | _ => false

def outRecOwned (s : State) (t : Tenant) (b : BindRec) : Bool :=
  match b.ty with
  | 1 => match (ten s t).own with
    | some r => decide (b.off + b.len ≤ extTotal r.extents)
    | none => false
  | 4 => decide (regionOwner s (b.src / 8) = some t)
  | _ => true

/-- The start input belongs to the tenant; SYNC events reach tenants bound to an ESC only (log 22). -/
def startOwned (s : State) (t : Tenant) (c : Nat) : Bool :=
  if c < 0x40 then decide (lineOwner s c = some t)
  else if c < 0x42 then decide (((channelOf s t).map Fin.val).getD 2 < 2)
  else if c = 0xFFFF then true
  else decide (camOwner s (c - 0x50) = some t)

/-- The REJECT_REASON of a submission, 0 for none; of several the first in the order 6, 2, 4, 3, 5, 1 (log 11). -/
def rejectReason (s : State) (t : Tenant) (d : Bytes) : Nat :=
  let x := parseDesc d
  match (ten s t).own with
  | none => 6
  | some r =>
    if d.length < 32 ∨ descOk d x = false ∨ x.ins.all (inRecOk s t) = false ∨ x.outs.all outRecOk = false then 2
    else if x.entry < 32 ∨ progWords r ≤ x.entry then 4
    else if !startOwned s t x.start || !x.ins.all (inRecOwned s t) || !x.outs.all (outRecOwned s t) then 3
    else if (ten s t).lost || (ten s t).seqLost then 5
    else if 256 ≤ queueFill (ten s t) ∧ (ten s t).records.all (fun q => !q.flags.getLsbD 7) then 1
    else 0

def inKind (n : Nat) : InKind := match n with
  | 1 => .camera
  | 2 => .adc
  | 3 => .snapshot
  | _ => .region

def outKind (n : Nat) : OutKind := match n with
  | 1 => .region
  | 2 => .xm
  | 3 => .pdo
  | _ => .mailbox

def newIn (b : BindRec) : InBind :=
  { kind := inKind b.ty, source := BitVec.ofNat 8 b.src, mask := BitVec.ofNat 16 b.mask, offset := BitVec.ofNat 32 b.off,
    len := BitVec.ofNat 32 b.len, claimed := false, cam := none, samples := [], data := [], complete := false, arm := none,
    inarmed := false, fault := .none, bands := 0, heldAt := [], landed := false, copyA := true, copyB := true }

def newOrder (seq : Word) (x : Desc) : Order :=
  { seq := seq, hon := BitVec.ofNat 32 x.hon, entry := BitVec.ofNat 24 x.entry, args := x.args,
    startInput := BitVec.ofNat 16 x.start, ins := x.ins.map newIn
    outs := x.outs.map fun b => ⟨outKind b.ty, BitVec.ofNat 8 b.src, BitVec.ofNat 32 b.off, BitVec.ofNat 32 b.len⟩
    st := .accepted, released := decide (x.start = 0xFFFF), startTime := 0, unprotected := false, recomputed := false,
    fsum := 0, runTicks := 0, sinceTicks := 0, large := false, journal := [], replay := [], ckpt := none, staged := [],
    dualMiss := 0, reexec := false }

/-- The number after `n`: 0 is skipped (R200). -/
def nextNum (n : Word) : Word := if n = 0xFFFFFFFF then 1 else n + 1

/-- An accepted order joins the queue, its argument block is copied into both retention areas and the journal notes it; the slot of the oldest EXPIRED record is reused where none is free, and the sequence
ceiling is kept 32,768 ahead (R198, R199, R451). -/
def acceptOrder (s : State) (t : Tenant) (x : Desc) : State :=
  let y := ten s t
  let seq := y.nextSeq
  let recs := if queueFill y < 256 then y.records
    else match y.records.findIdx? fun q => q.flags.getLsbD 7 with
      | some i => y.records.eraseIdx i
      | none => y.records
  let left := (y.ceiling - seq).toNat
  let near := decide (left ≤ 32768 ∨ 2 ^ 31 ≤ left)
  let o := newOrder seq x
  let ins := o.ins.map fun i => { i with copyA := areaUp s t 4, copyB := areaUp s t 5 }
  let s1 := mayYield (journalWrite (refill s t [4, 5]) t) t [4, 5]
  modTen s1 t fun z => { z with
    orders := z.orders ++ [{ o with ins := ins }], records := recs, nextSeq := nextNum seq, lastAccepted := seq, wmCurrent := 0
    ceiling := if near then seq + 65536 else z.ceiling
    hons := ⟨BitVec.ofNat 32 x.hon, seq, s.time⟩ ::
      z.hons.filter fun e => decide (s.time.toNat < e.time.toNat + 60000000000) }

/-- A submission: recognised as a duplicate, accepted or rejected (R198). -/
def applySubmit (s : State) (t : Tenant) (d : Bytes) : Answer :=
  if d.length < 32 then (0x06070013, modTen s t fun z => { z with reject := 2 })
  else
    let x := parseDesc d
    match (ten s t).hons.find? fun e =>
        decide (e.hon = BitVec.ofNat 32 x.hon ∧ s.time.toNat < e.time.toNat + 60000000000) with
    | some e => (0, modTen s t fun z => { z with lastAccepted := e.seq })
    | none =>
      let r := rejectReason s t d
      if r ≠ 0 then (0x08000000, modTen s t fun z => { z with reject := BitVec.ofNat 8 r })
      else (0, takeMark (kick (acceptOrder s t x) t))

/-! ### Start (R70, R198) -/

/-- The order enters RUNNING: its sequencer and PEs take the values of R70, its class is fixed (R139), and without a start
input this is the reference instant of its windows (R348). A binding fault of a claim before the start is taken at once (R288). -/
def startOrder (s : State) (t : Tenant) (o : Order) (q : SeqId) : State :=
  let n := (ownTiles s t).length
  let o1 : Order := { o with
    st := .running, large := decide (n = 8 ∨ n = 16), startTime := if o.startInput = 0xFFFF then s.time else o.startTime }
  let s1 := startPes (setOrder (modSqr (journalWrite s t) q.val (startSeq o)) t o1) t
  let s2 := modTen s1 t fun x => { x with holdRunning := false }
  let s3 := landOldest s2 t
  boundary (if o.startInput = 0xFFFF then claimWindows s3 t o.seq s.time else s3) t q

/-- ORDER_START: the tenant's ready order starts on its bound sequencer once its tiles are AWAKE. -/
def execOrderStart (t : Tenant) (s : State) : Outcome State Fault Refusal :=
  .next (match readyOrder s t, seqOf s t with
    | some o, some q => if tilesAwake s t then startOrder s t o q else s
    | _, _ => s)

/-- UNPROTECTED: the running order has run more than 400 µs since its start or last CKPT. -/
def execUnprotected (t : Tenant) (s : State) : Outcome State Fault Refusal :=
  .next (modRun s t fun o => if 400 * usTicks < o.sinceTicks then { o with unprotected := true } else o)

/-! ### Records (R198, R200) -/

/-- The record of an order of the tenant that is not retired for 60 s. -/
def isExpiring (s : State) (seq : Word) (r : Record) : Bool :=
  decide (r.seq = seq ∧ r.outcome ≠ 3 ∧ r.stamp.toNat + 60000000000 ≤ s.time.toNat) && !r.flags.getLsbD 7

/-- A record unretired for 60 s is marked EXPIRED. -/
def execRecordExpiry (t : Tenant) (seq : Word) (s : State) : Outcome State Fault Refusal :=
  .next (if (ten s t).records.any (isExpiring s seq) then
      let mark := fun (r : Record) => if isExpiring s seq r then { r with flags := r.flags ||| 0x80 } else r
      let s0 := modTen s t fun x => { x with records := x.records.map mark }
      let s1 := ((ten s0 t).records.filter fun r => decide (r.seq = seq ∧ r.outcome ≠ 3)).foldl (fun u r => storeRecord u t r) s0
      emergency (logEvent s1 0x0302 1 [t] t.val seq.toNat []) [t] 0x6010 (leBytes 4 seq.toNat)
    else s)

/-- RETIRE_TO: every record up to the number is retired; 0 names no order. -/
def applyRetireTo (s : State) (t : Tenant) (v : Word) : Answer :=
  (0, modTen s t fun x => { x with
    retireTo := v, records := if v = 0 then x.records else x.records.filter fun r => !serialGe v r.seq })

/-! ### Abort and release (R215, R216) -/

/-- ABORT: writing 1 aborts; an abort is an event of TIDE_FAULTS. -/
def applyAbort (s : State) (t : Tenant) (v : Byte) : Answer :=
  if v = 1 then (0, takeMark (tideFault (abortTenant s t false) 5 0x0304)) else (0x06090030, s)

/-- RELEASE: writing 1 ends the safe-state hold. -/
def applyRelease (s : State) (t : Tenant) (v : Byte) : Answer :=
  if v = 1 then (0, fabEdge (modTen s t fun x => { x with abortState := 0, abortHold := 0 })) else (0x06090030, s)

end Sys2Proof.Machine
end

