-- ==== Sys2Proof/Machine/Camera.lean ====
section
/-! DEFINITION. Camera ingest: grouping, link states, frame starts, claims, stream packets, landings, triggers and camera
registers (R278–R296, R387). -/

namespace Sys2Proof.Machine

open Host (Outcome)

/-! ### Groups and links (R280, R281) -/

/-- Connections per group of connection `c`'s half. -/
def groupSize (g : Byte) (c : Nat) : Nat := [1, 2, 4].getD (g.toNat / 4 ^ (c / 4) % 4) 1

def masterOf (s : State) (c : CxpId) : CxpId := Fin.ofNat 8 (c.val - c.val % groupSize s.grouping c.val)

/-- The connections of the group of `c`. -/
def groupOf (s : State) (c : CxpId) : List CxpId := (List.finRange 8).filter fun d => decide (masterOf s d = masterOf s c)

def setLink (s : State) (c : CxpId) (l : Link) : State := (groupOf s c).foldl (fun u d => modCam u d fun x => { x with link := l }) s

/-- The speeds of R278, by the index that LINK_STATE reports. -/
def cxpSpeeds : List Nat := [1, 2, 3, 5, 6, 10, 12]

/-- GROUPING: reserved codes, and a grouping that would join connections of different owners, are refused. -/
def applyGrouping (s : State) (v : Byte) : Answer :=
  if 16 ≤ v.toNat ∨ v.toNat % 4 = 3 ∨ v.toNat / 4 = 3 then (0x06090030, s)
  else
    let ok := (List.finRange 8).all fun c =>
      decide (camOwner s c.val = camOwner s (c.val - c.val % groupSize v c.val))
    if ok then (0, { s with grouping := v }) else (0x06090030, s)

/-- CXP_DISCOVERY_LOCK: every connection of the group locks at one speed, at most MAX_SPEED. -/
def execCxpDiscoveryLock (c : CxpId) (speed : Fin 7) (s : State) : Outcome State Fault Refusal :=
  .next (if (cam s c).link = .discovery ∧ cxpSpeeds.getD speed.val 0 ≤ s.maxSpeed.toNat then setLink s c (.up speed) else s)

/-- CXP_DISCOVERY_TIMEOUT: 1 s without lock; the speed offered is logged. -/
def execCxpDiscoveryTimeout (c : CxpId) (s : State) : Outcome State Fault Refusal :=
  .next (if (cam s c).link = .discovery then
      logEvent (setLink s c .down) 0x0806 1 (camOwner s c.val).toList c.val s.maxSpeed.toNat []
    else s)

/-- CXP_DISCOVERY_RETRY: 1 s after a failed discovery. -/
def execCxpDiscoveryRetry (c : CxpId) (s : State) : Outcome State Fault Refusal :=
  .next (if (cam s c).link = .down then setLink s c .discovery else s)

/-! ### Lost frames (R295) -/

/-- A claimed frame cannot land whole: the event is logged and is one of TIDE_FAULTS, its counter increases, its order becomes
ABORTED with INPUT_LOST, and the rest of the frame is discarded. -/
def frameLost (s : State) (c : CxpId) (t : Tenant) (seq : Word) (lines : Nat) (code : Half) : State :=
  let s1 := modCam s c fun x =>
    let y : Cam := { x with frame := x.frame.map fun f => { f with claim := none } }
    if code = 0x0802 then { y with overruns := satInc y.overruns } else { y with errors := satInc y.errors }
  inputLost (tideFault (logEvent s1 code 2 [t] c.val seq.toNat (leBytes 4 lines)) 7 code) t seq

/-- A new image header or a loss of the link ends the image in progress; before the window's last line it truncates a claimed frame. -/
def truncateFrame (s : State) (c : CxpId) : State :=
  let s1 := match (cam s c).frame with
    | some f => (match f.claim with
      | some (t, q, _) => if f.lines < winH f.cfg.window then frameLost s c t q f.lines 0x0804 else s
      | none => s)
    | none => s
  modCam s1 c fun x => { x with frame := none }

/-- A link that is UP becomes LOST (R281, R429, R435). -/
def linkLost (s : State) (c : CxpId) : State :=
  match (cam s c).link with
  | .up _ => truncateFrame (setLink s c .lost) (masterOf s c)
  | _ => s

def allLinksLost (s : State) : State := (List.finRange 8).foldl linkLost s

/-- CXP_LOSS_OF_LOCK: a connection of the group loses lock, or its control channel times out. -/
def execCxpLossOfLock (c : CxpId) (s : State) : Outcome State Fault Refusal := .next (takeMark (linkLost s c))

/-- CXP_LOST_HOLD_END: through DOWN, discovery runs again. -/
def execCxpLostHoldEnd (c : CxpId) (s : State) : Outcome State Fault Refusal :=
  .next (if (cam s c).link = .lost then setLink s c .discovery else s)

/-! ### Frame starts (R284, R287, R293) -/

/-- The oldest order of the tenant with a camera binding on the connection that has no frame, and that binding. -/
def claimant (s : State) (t : Tenant) (c : CxpId) : Option (Order × Nat) :=
  (ten s t).orders.findSome? fun o =>
    (o.ins.findIdx? fun i => decide (i.kind = .camera ∧ i.source.toNat = c.val) && !i.claimed).map fun b => (o, b)

/-- The header fits the window, the format and the binding's length (R283, R295). -/
def shapeOk (c : CamCfg) (h : ImageHeader) (len : Nat) : Bool :=
  decide (winX c.window + winW c.window ≤ h.width ∧ winY c.window + winH c.window ≤ h.height) &&
    decide (h.format.map BitVec.toNat = some c.fmt.toNat) && decide (c.bytes = len)

/-- The geometry of LANDING fits the tenant's tiles or extents. -/
def preArmFits (s : State) (t : Tenant) (c : CamCfg) : Bool :=
  let g := c.layout.width
  if c.toSp then camSpFits s t c else landOk s t c.base.toNat (ceilDiv (pixBits c.fmt) g) && camFits s t c g

/-- A binding claims a frame with the connection's configuration; PREARM arms it with LANDING, and a geometry that does not fit is a
binding fault of the claim (R287, R288). -/
def claimCam (s : State) (t : Tenant) (c : CamCfg) (i : InBind) : InBind :=
  let j := { i with claimed := true, cam := some c }
  if c.prearm then { j with
      arm := some ⟨c.base, c.layout, c.toSp⟩, fault := if preArmFits s t c then .none else .due }
  else j

/-- The frame is claimed, or fails at once on its shape; without a claimant it is counted in UNCLAIMED and logged. -/
def claimFrame (s : State) (c : CxpId) (h : ImageHeader) (stamp : DWord) : State :=
  let g := (cam s c).cfg
  let begin_ := fun (u : State) (k : Option (Tenant × Word × Nat)) => modCam u c fun x => { x with frame := some ⟨k, g, 0⟩ }
  match (camOwner s c.val).bind fun t => (claimant s t c).map fun ob => (t, ob.1, ob.2) with
  | some (t, o, b) =>
    match o.ins[b]? with
    | none => s
    | some i =>
      if shapeOk g h i.len.toNat then
        let s1 := begin_ (setOrder s t (o.modIn b fun _ => claimCam s t g i)) (some (t, o.seq, b))
        match seqOf s1 t with
        | some q => bindTrap s1 t q
        | none => s1
      else frameLost (begin_ s none) c t o.seq 0 0x0805
  | none =>
    logEvent (modCam (begin_ s none) c fun x => { x with unclaimed := satInc x.unclaimed }) 0x0801 0 (camOwner s c.val).toList c.val
      (stamp.toNat % 2 ^ 32) []

/-- An image header of a kind that is not supported names no format of R282: its packet is discarded and counted (R279). -/
def unsupported (h : ImageHeader) : Bool := h.format.isNone

def discard (s : State) (c : CxpId) : State := modCam s c fun x => { x with discarded := satInc x.discarded }

/-- FRAME_START: an image header arrives on a master connection: it is stamped, passed to the fabric, is a start input, and
its frame is claimed. In DEEP-SLEEP ingest does not run (R513). -/
def execFrameStart (c : CxpId) (h : ImageHeader) (s : State) : Outcome State Fault Refusal :=
  .next (match (cam s c).link with
    | .up _ =>
      if s.clk.sleep = .entered then s
      else if unsupported h then discard s (masterOf s c)
      else if masterOf s c ≠ c then s
      else
        let s1 := truncateFrame s c
        let s2 := pulsePort (modCam s1 c fun x => { x with fsTime := s.time }) c.val
        let s3 := match camOwner s c.val with
          | some t => startInput s2 t (BitVec.ofNat 16 (0x50 + c.val)) s.time
          | none => s2
        takeMark (claimFrame s3 c h s.time)
    | _ => s)

/-! ### Stream packets (R279, R283, R285, R295) -/

/-- The DMA side writes up to `n` bytes that the parts of a buffer hold to both retained copies, the oldest first. -/
def retainParts : Nat → List BufPart → State → State × List BufPart
  | _, [], s => (s, [])
  | n, p :: r, s =>
    let d := p.fresh.take n
    let s1 := if d.isEmpty then s
      else refill (modOrder s p.owner p.seq fun o => o.modIn p.bind fun i => { i with
        data := i.data ++ d, complete := decide (i.data.length + d.length = i.len.toNat) }) p.owner [4, 5]
    let q := retainParts (n - d.length) r s1
    (q.1, { p with fresh := p.fresh.drop d.length, kept := p.kept + d.length } :: q.2)

/-- Up to `n` bytes of a connection's buffer are retained, and what may land of them is sent (R285, R286). -/
def retain (s : State) (c : CxpId) (n : Nat) : State :=
  let q := retainParts n (cam s c).buf s
  q.2.foldl (fun u p => landNow u p.owner p.seq p.bind) (modCam q.1 c fun x => { x with buf := tidyBuf q.2 })

/-- Pixels of a line join the part of their binding. -/
def addFresh (t : Tenant) (seq : Word) (b : Nat) (d : Bytes) : List BufPart → List BufPart
  | [] => [⟨t, seq, b, d, 0⟩]
  | p :: r => if p.isOf t seq b then { p with fresh := p.fresh ++ d } :: r else p :: addFresh t seq b d r

/-- The bytes that a line of the window is retained in (R282, R283). -/
def lineBytes (c : CamCfg) (pixels : List (BitVec 24)) : Bytes :=
  ((pixels.drop (winX c.window)).take (winW c.window)).flatMap fun p => leBytes (pixBytes c.fmt) (p.toNat % 2 ^ pixBits c.fmt)

/-- A line of the window enters the ingest buffer, where retained pixels give way to it; with no room but for them it is an overrun
(R285, R295). `kept` says that the DMA side keeps pace and retains at once what the buffer holds. -/
def bufferLine (s : State) (c : CxpId) (f : Frame) (t : Tenant) (seq : Word) (b : Nat) (d : Bytes) (kept : Bool) : State :=
  if bufLimit < freshTotal (cam s c).buf + d.length then frameLost s c t seq f.lines 0x0802
  else
    let s1 := modCam s c fun x =>
      let l := addFresh t seq b d x.buf
      { x with frame := some { f with lines := f.lines + 1 }, buf := giveWay l (bufTotal l - bufLimit) }
    if kept then retain s1 c bufLimit else s1

/-- The binding has been armed, so its bands land as they arrive. -/
def isArmed (s : State) (t : Tenant) (seq : Word) (b : Nat) : Bool :=
  match (getOrder s t seq).bind fun o => o.ins[b]? with
  | some i => i.arm.isSome
  | none => false

/-- STREAM_PACKET: one line of the image in progress arrives on a connection of a group, for which its master stands (R280); `retained`
says that the DMA side has written the buffered pixels to both copies before the next packet (R226, R285). -/
def execStreamPacket (k : CxpId) (line : Nat) (pixels : List (BitVec 24)) (crcOk supported retained : Bool) (s : State) :
    Outcome State Fault Refusal :=
  let c := masterOf s k
  .next (match (cam s c).link with
    | .up _ =>
      if s.clk.sleep = .entered then s
      else if supported = false then discard s c
      else match (cam s c).frame with
        | none => s
        | some f =>
          let y := winY f.cfg.window
          if line < y ∨ y + winH f.cfg.window ≤ line then
            (if crcOk then s else modCam s c fun x => { x with errors := satInc x.errors })
          else match f.claim with
            | none => s
            | some (t, seq, b) =>
              if winH f.cfg.window ≤ f.lines then s
              else if crcOk = false then takeMark (frameLost s c t seq f.lines 0x0803)
              else if line = y + f.lines ∧ winX f.cfg.window + winW f.cfg.window ≤ pixels.length then
                let v := bufferLine s c f t seq b (lineBytes f.cfg pixels) retained
                takeMark (if isArmed s t seq b then mayYield v t [4, 5] else v)
              else s
    | _ => s)

/-- Every element of a binding is in its landing region (R201). -/
def setLanded (s : State) (t : Tenant) (seq : Word) (b : Nat) : State :=
  leaveBuf (modOrder s t seq fun p => p.modIn b fun j => { j with landed := true }) t seq b 0

/-- BINDING_LANDED: every element of an input binding is in its landing region and both copies (R201, R286). -/
def execBindingLanded (t : Tenant) (seq : Word) (binding : Fin 8) (s : State) : Outcome State Fault Refusal :=
  let s0 := landNow s t seq binding.val
  .next (match getOrder s0 t seq with
    | none => s0
    | some o => match o.ins[binding.val]? with
      | none => s0
      | some i => match i.arm with
        | some a =>
          if mayLand s0 t o i then
            let s1 := setLanded (landAll s0 t i a) t seq binding.val
            if i.kind = .camera then modCam s1 (Fin.ofNat 8 i.source.toNat) fun x => { x with frames := satInc x.frames }
            else s1
          else s0
        | none => s0)

/-! ### Triggers (R294) -/

/-- A rising edge of line `l` at a master connection `c`: a trigger packet, or a drop while the one before is still being sent. -/
def trigEdge (s : State) (l : Nat) (c : CxpId) : State :=
  let x := cam s c
  if masterOf s c = c ∧ s.clk.sleep ≠ .entered ∧ x.trigLine.toNat = l ∧ (camOwner s c.val).isSome ∧ lineOwner s l = camOwner s c.val then
    modCam s c fun y => if y.trigBusy then { y with trigDropped := satInc y.trigDropped }
      else { y with trigSent := y.trigSent + 1, trigBusy := true }
  else s

def trigEdges (s : State) (l : Nat) : State := (List.finRange 8).foldl (fun u c => trigEdge u l c) s

/-! ### Camera registers (R296, R384, R387) -/

/-- A host writes CAM_REG: a 4-byte operation, a 4-byte address, a 4-byte length and any data; the request is relayed, and the
confirmation waits for the camera (log 25). -/
def applyCamReg (s : State) (k : SesId) (c : CxpId) (d : Bytes) : Answer :=
  let n := leAt d 8 4
  if d.length < 12 then (0x06070013, s)
  else if 1 < leAt d 0 4 ∨ 1024 < n ∨ d.length ≠ 12 + (if leAt d 0 4 = 1 then n else 0) then (0x08000000, s)
  else if (cam s c).regRequest.isSome ∨ masterOf s c ≠ c then (0x08000022, s)
  else (0, modCam s c fun x => { x with regRequest := some (k, d), regReply := none })

/-- The bytes that a host reads from CAM_REG: the camera's reply, once. -/
def readCamReg (s : State) (c : CxpId) : Option (Bytes × State) :=
  (cam s c).regReply.map fun r => (r, modCam s c fun x => { x with regReply := none })

/-- The index of CAM_REG of a connection. -/
def camRegIndex (c : CxpId) : Half := BitVec.ofNat 16 (0x2C10 + c.val)

/-- An answer that a session still waits for. -/
def lateAnswer (s : State) (k : SesId) (index : Half) (sub : Byte) (abort : Word) : State :=
  if (ses s k).awaits.contains (index, sub) then
    answer (modSes s k fun x => { x with awaits := x.awaits.filter fun e => decide (e ≠ (index, sub)) }) k index sub abort []
  else s

/-- CAM_REG_ACK: the camera acknowledges, and the write is confirmed. -/
def execCamRegAck (c : CxpId) (reply : Bytes) (s : State) : Outcome State Fault Refusal :=
  .next (match (cam s c).regRequest with
    | some (k, _) =>
      lateAnswer (modCam s c fun x => { x with regRequest := none, regReply := some (reply.take 1024) }) k (camRegIndex c) 0x0E 0
    | none => s)

/-- CAM_REG_TIMEOUT: no acknowledgement within 250 ms. -/
def execCamRegTimeout (c : CxpId) (s : State) : Outcome State Fault Refusal :=
  .next (match (cam s c).regRequest with
    | some (k, _) =>
      lateAnswer (modCam s c fun x => { x with regRequest := none }) k (camRegIndex c) 0x0E 0x06060000
    | none => s)

end Sys2Proof.Machine
end

