-- ==== Sys2Proof/Machine/Ident.lean ====
section
/-! DEFINITION. Keys, signatures, anti-rollback counters and the measurement log (R458–R465, R473). -/

namespace Sys2Proof.Machine

/-! ### The module's numbers (R378, R379) -/

/-- Serial number: 0x0000_0001 to 0xFFFF_FFFE. -/
def serialNo : Word := BitVec.ofNat 32 (Config.serial.val + 1)
/-- Build number of a firmware: 1 to 65,535. -/
def fwBuildOf (image : Bytes) : Half := BitVec.ofNat 16 ((Config.fwBuild image).val + 1)

/-! ### Counters, by subindex of 0x2402 (R473) -/

def ctrFw : Nat := 1
def ctrMc : Nat := 2
def ctrFab : Nat := 3
def ctrKey : Nat := 4
def ctrPart (k : Nat) : Nat := 5 + k
def ctrOwn (t : Tenant) : Nat := 13 + t.val

def counter (s : State) (c : Nat) : Word := SMap.get 0 s.ident.counters c
def setCounter (s : State) (c : Nat) (v : Word) : State :=
  { s with ident := { s.ident with counters := SMap.set 0 s.ident.counters c v } }
/-- The counter of an accepted artefact that has not taken effect (R462 step 4). -/
def setPending (s : State) (c : Nat) (v : Word) : State :=
  { s with ident := { s.ident with pending := SMap.set 0 s.ident.pending c v } }

/-- An artefact takes effect: the stored counter is raised to its counter, which waits no more (R463). -/
def takeEffect (s : State) (c : Nat) (v : Word) : State :=
  setPending (if (counter s c).toNat ≤ v.toNat then setCounter s c v else s) c 0

/-! ### Checks (R462) -/

/-- Steps 2 to 4 of R462: the reason of VERIFY_ERROR, or none. -/
def checkSig (s : State) (key : Option Bytes) (context : String) (signed sig : Bytes) (c : Nat) (v : Word) : Option Byte :=
  match key with
  | none => some 3
  | some k =>
    if !Config.mlDsaVerify k context signed sig then some 1
    else if v.toNat < (counter s c).toNat ∨ v.toNat < (SMap.get 0 s.ident.pending c).toNat then some 2
    else none

/-- A refusal under R462: VERIFY_ERROR of the writer is set and logged. -/
def refuse (s : State) (k : SesId) (artefact : Nat) (reason : Byte) : State :=
  let t := sesTenant k
  let v := BitVec.ofNat 32 (artefact * 2 ^ 24 + reason.toNat)
  logEvent { s with ident := { s.ident with verifyError := SMap.set 0 s.ident.verifyError t.val v } } 0x0B04 1 [t] t.val
    v.toNat []

/-- The key that verifies a partial bitstream of a tenant's region (R458, R461). -/
def tenantKey (s : State) (t : Tenant) : Option Bytes :=
  match SMap.get none s.ident.tk t.val with
  | some k => if t = 0 then s.ident.ik else some k
  | none => s.ident.ik

/-- The reserved bytes of a field are all zero. -/
def allZero (b : Bytes) : Bool := b.all fun x => decide (x = 0)

/-! ### Measurements (R465) -/

/-- The entry of a measured item: state 0, its counter, the time, its SHAKE256 digest. -/
def measure (s : State) (kind : Nat) (ctr : Word) (data : Bytes) : State :=
  let m : Meas := ⟨0, ctr, s.time, Config.shake256 data⟩
  { s with ident := { s.ident with meas := SMap.set Meas.absent s.ident.meas kind m } }

/-- The entry of an item that is absent (state 1) or failed verification (state 2). -/
def measureNone (s : State) (kind state : Nat) : State :=
  let m : Meas := { Meas.absent with state := BitVec.ofNat 8 state, time := s.time }
  { s with ident := { s.ident with meas := SMap.set Meas.absent s.ident.meas kind m } }

/-- The 80 bytes of an entry. -/
def Meas.bytes (kind : Nat) (m : Meas) : Bytes :=
  leBytes 2 kind ++ [m.state, 0] ++ leBytes 4 m.counter.toNat ++ leBytes 8 m.time.toNat ++
    (if m.state = 0 then (m.digest ++ List.replicate 64 0).take 64 else List.replicate 64 0)

/-- IK, TK1–TK3 and CTR_KEY, measured at each key record stored (R465 kind 17); an empty slot is zeros. -/
def measureKeys (s : State) : State :=
  let key := fun (o : Option Bytes) => o.getD (List.replicate 1952 0)
  measure s 17 (counter s ctrKey)
    (key s.ident.ik ++ (List.range 3).flatMap (fun i => key (SMap.get none s.ident.tk (i + 1))) ++
      leBytes 4 (counter s ctrKey).toNat)

/-- Whether the housekeeping keeps old keys: a record is applied or a slot holds a bitstream (R460). -/
def keepsOldKeys (s : State) : Bool :=
  allTenants.any (fun t => (ten s t).own.isSome) || !s.fab.slots.isEmpty

end Sys2Proof.Machine
end

