-- ==== Sys2Proof/Machine/Bitstream.lean ====
section
/-! DEFINITION. Bitstreams: header and records, the loader's checks in their order, the configuration they load and its CRC
(R299, R305–R308, R317–R319, R515). -/

namespace Sys2Proof.Machine

/-! ### Records (R317, R318) -/

inductive FabRec where
  | cell (row col : Nat) (cfg : CellCfg)
  | seg (src id : Nat)
  | line (line row col : Nat) (bit0 : Bool)
  | port (num : Nat) (sel : List Byte)
  deriving DecidableEq, Repr

def FabRec.ty : FabRec → Nat
  | .cell _ _ _ => 1
  | .seg _ _ => 2
  | .line _ _ _ _ => 3
  | .port _ _ => 4

/-- Cell coordinates as R305 places them. -/
def coords (r c : Nat) : Nat := r % 64 * 2 ^ 26 + c % 32 * 2 ^ 21

/-- LOAD_ERROR [31:0] of a record at which no segment is at fault (R319). -/
def FabRec.detail : FabRec → Nat → Nat
  | .cell r c _, _ => coords r c
  | .seg _ i, _ => i
  | .line l r c _, code => if code = 3 ∨ code = 8 then l else coords r c
  | .port n _, _ => n

/-- Bytes of a record by type; 0 for an unknown type. -/
def recSize (ty : Nat) : Nat := [0, 56, 8, 8, 8].getD ty 0

def parseRec (b : Bytes) : FabRec :=
  match leAt b 0 1 with
  | 1 => .cell (leAt b 1 1) (leAt b 2 1)
      { ir := (List.range 8).map fun i => BitVec.ofNat 32 (leAt b (4 + 4 * i) 4)
        q := (List.range 4).map fun i => BitVec.ofNat 16 (leAt b (0x24 + 2 * i) 2)
        o := BitVec.ofNat 16 (leAt b 0x2C 2), t := decide (leAt b 0x2E 1 % 2 = 1)
        sc := BitVec.ofNat 3 (leAt b 0x2E 1 / 2), sel := slice b 0x2F 6 }
  | 2 => .seg (leAt b 2 2) (leAt b 4 4)
  | 3 => .line (leAt b 1 1) (leAt b 2 1) (leAt b 3 1) (decide (leAt b 4 1 % 2 = 1))
  | _ => .port (leAt b 2 2) (slice b 4 3)

/-- The select bytes of a PORTIN record that its port uses (R318). -/
def portUses (n : Nat) : Option Nat :=
  if n < 0x200 then some 3 else if n < 0x208 ∨ n = 0x210 ∨ n = 0x211 then some 1 else none

/-- Reserved bits of a source code by KIND (R306). -/
def srcReserved (src : Nat) : Bool := match src / 4096 with
  | 0 => decide (src % 2048 ≠ 0)
  | 1 => decide (src % 2048 ≠ 0)
  | 2 => decide (src % 16 ≠ 0)
  | 3 => decide (src / 256 % 8 ≠ 0)
  | _ => true

/-- A record breaks its format: a field out of range, a reserved OP, a non-zero reserved field. -/
def recBad (b : Bytes) : Bool := match leAt b 0 1 with
  | 1 => decide (63 < leAt b 1 1 ∨ 31 < leAt b 2 1 ∨ leAt b 3 1 ≠ 0 ∨ 16 ≤ leAt b 0x2E 1) || !allZero (slice b 0x35 3) ||
      (List.range 8).any fun i => decide (15 ≤ leAt b (4 + 4 * i) 4 / 2 ^ 27)
  | 2 => decide (leAt b 1 1 ≠ 0 ∨ leAt b 4 4 % 32768 ≠ 0) || srcReserved (leAt b 2 2)
  | 3 => decide (0x44 < leAt b 1 1 ∨ 63 < leAt b 2 1 ∨ 31 < leAt b 3 1 ∨ 2 ≤ leAt b 4 1) || !allZero (slice b 5 3)
  | _ => decide (leAt b 1 1 ≠ 0 ∨ leAt b 7 1 ≠ 0) || match portUses (leAt b 2 2) with
      | some 1 => !((slice b 5 2).all fun x => decide (x = 0xFF))
      | _ => false

/-- A bitstream as parsed: the records up to the first that is unknown or cut short, and the first format failure as record
type and detail. -/
structure Bits where
  kind : Nat
  mask : Nat
  counter : Word
  crc : Word
  recs : List FabRec
  fault : Option (Nat × Nat)
  signed : Bytes
  sig : Bytes
  deriving DecidableEq, Repr

/-- Walk the records. -/
def parseRecs : Nat → Bytes → List FabRec × Option (Nat × Nat)
  | 0, _ => ([], none)
  | n + 1, b =>
    match b with
    | [] => ([], none)
    | t :: _ =>
      let sz := recSize t.toNat
      if sz = 0 ∨ b.length < sz then ([], some (t.toNat, 0))
      else
        let r := parseRec (b.take sz)
        let rest := parseRecs n (b.drop sz)
        (r :: rest.1, if recBad (b.take sz) then some (r.ty, r.detail 2) else rest.2)

/-- Exactly one bit of a region mask. -/
def oneRegion (m : Nat) : Option RegionId := (List.finRange 8).find? fun k => decide (m = 2 ^ k.val)

def sigBytes : Nat := 3309

def parseBits (d : Bytes) : Bits :=
  let kind := leAt d 2 1
  let mask := leAt d 0 1
  let len := leAt d 0x0C 4
  let rs := parseRecs (len + 1) (slice d 64 len)
  let hdrBad := decide (leAt d 3 1 ≠ 1 ∨ ¬(kind = 1 ∨ kind = 2) ∨ leAt d 1 1 ≠ 0 ∨ d.length ≠ 64 + len + sigBytes) ||
    !allZero (slice d 0x14 44) || (if kind = 1 then decide (mask ≠ 0xFF) else (oneRegion mask).isNone)
  { kind := kind, mask := mask, counter := BitVec.ofNat 32 (leAt d 4 4), crc := BitVec.ofNat 32 (leAt d 0x10 4)
    recs := rs.1
    fault := if hdrBad then some (0, 0)
      else if rs.2.isSome then rs.2 else if rs.1.length = leAt d 8 4 then none else some (0, 0)
    signed := d.take (64 + len), sig := d.drop (64 + len) }

/-! ### Content checks (R319) -/

/-- A LOAD_ERROR: code, record type, detail. -/
structure LoadErr where
  code : Nat
  ty : Nat
  detail : Nat
  deriving DecidableEq, Repr

def LoadErr.word (e : LoadErr) : DWord := BitVec.ofNat 64 (e.code * 2 ^ 56 + e.ty * 2 ^ 48 + e.detail % 2 ^ 32)

/-- The kind of a port at a box: some true word, some false control (R310). -/
def portKind (r c code : Nat) : Option Bool :=
  if code = 0 ∧ c % 4 = 0 then some false
  else if (code = 1 ∨ code = 2) ∧ c % 4 = 0 then some true
  else if code = 0x10 ∧ c % 4 = 3 ∧ r ≤ 11 then some false
  else if code = 0x20 ∧ r = 63 ∧ c % 4 = 2 then some true
  else if code = 0x30 ∧ r = 62 ∧ c % 4 = 2 ∧ (c / 4 = 0 ∨ c / 4 = 7) then some true
  else none

/-- The first failure of a list of records under a check. -/
def firstErr (code : Nat) (f : FabRec → Option Nat) (l : List FabRec) : Option LoadErr :=
  l.findSome? fun r => (f r).map fun d => ⟨code, r.ty, d⟩

/-- OUTSIDE_REGION. -/
def chkOutside (k : Nat) (r : FabRec) : Option Nat :=
  let bad := match r with
    | .cell _ c _ => decide (c / 4 ≠ k)
    | .seg _ i => (Seg.ofKey (i / 32768)).bridge || decide ((Seg.ofKey (i / 32768)).col / 4 ≠ k)
    | .port n _ => (portUses n).isSome && decide ((portBox n).2 / 4 ≠ k)
    | .line _ _ _ _ => false
  if bad then some (r.detail 4) else none

/-- LINE_NOT_GRANTED. -/
def chkLine (s : State) (k : Nat) (r : FabRec) : Option Nat := match r with
  | .line l _ c _ =>
    let own := regionOwner s k
    let ok := if l < 0x40 then own.isSome && decide (lineOwner s l = own)
      else if l < 0x44 then decide (own.map Fin.val = some (l - 0x40)) else decide (own = some 0)
    if ok && decide (c / 4 = k) then none else some l
  | _ => none

/-- The segment that a list of selects names wrongly: it does not exist, or it is of the wrong kind. -/
def selFault (r c : Nat) (l : List (Byte × Bool)) : Option Nat :=
  l.findSome? fun e =>
    if e.1 = 0xFF then none
    else if selOk r c e.1 && (clsWord (selSeg r c e.1).cls == e.2) then none else some (selSeg r c e.1).id

/-- NO_SEGMENT. -/
def chkSegment (r : FabRec) : Option Nat := match r with
  | .cell row col x => selFault row col (x.sel.zip [true, true, true, true, false, false])
  | .seg src i =>
    let g := Seg.ofKey (i / 32768)
    if g.exists = false then some i
    else match src / 4096 with
      | 2 => let f := feedSeg g src
        if f.exists && (clsWord f.cls == clsWord g.cls) then none else some f.id
      | 3 => if portKind (driveRow g src) (driveCol g src) (src % 256) = some (clsWord g.cls) then none else some (src % 256)
      | _ => none
  | .port n l => (match portUses n with
    | none => some n
    | some 3 => selFault (portBox n).1 (portBox n).2 (l.zip [false, false, true])
    | some _ => selFault (portBox n).1 (portBox n).2 ((l.take 1).zip [true]))
  | .line _ _ _ _ => none

/-- What a record names: cell, segment, line or port. -/
def FabRec.names : FabRec → Nat × Nat
  | .cell r c _ => (1, 32 * r + c)
  | .seg _ i => (2, i)
  | .line l _ _ _ => (3, l)
  | .port n _ => (4, n)

/-- DRIVER_CONFLICT: one thing named by more than one record. -/
def chkConflict : List (Nat × Nat) → List FabRec → Option LoadErr
  | _, [] => none
  | seen, r :: l => if seen.contains r.names then some ⟨3, r.ty, r.detail 3⟩ else chkConflict (r.names :: seen) l

/-- The segment that a source map continues a segment from. -/
def feedOf (m : SMap Half) (k : Nat) : Option Nat :=
  let src := (SMap.get 0 m k).toNat
  if src / 4096 = 2 then some (feedSeg (Seg.ofKey k) src).key else none

/-- The chain of continuations from a segment, `n` at most. -/
def chain (m : SMap Half) : Nat → Nat → List Nat
  | 0, _ => []
  | n + 1, k => k :: match feedOf m k with
    | some j => chain m n j
    | none => []

/-- The chain from a segment returns to one already in it. -/
def loops (m : SMap Half) (k : Nat) : Bool := !(chain m (m.length + 2) k).Nodup

/-- Segments from the register at the root of a chain; 0 where it has none. -/
def depth (m : SMap Half) (k : Nat) : Nat :=
  let l := chain m (m.length + 2) k
  match l.getLast? with
  | some e => if (SMap.get 0 m e).toNat / 4096 = 0 then 0 else l.length
  | none => 0

/-- The segments that the inputs of the records read. -/
def reads (l : List FabRec) : List Nat :=
  l.flatMap fun r =>
    let f := fun (row col : Nat) (sel : List Byte) => (sel.filter fun b => decide (b ≠ 0xFF)).map fun b => (selSeg row col b).key
    match r with
    | .cell row col x => f row col x.sel
    | .port n sel => f (portBox n).1 (portBox n).2 sel
    | _ => []

/-- The sources that paths of a bitstream can take: its own, and, for region `k` alone, those that the running configuration
drives in other regions. -/
def pathMap (s : State) (region : Option RegionId) (l : List FabRec) : SMap Half :=
  let base : SMap Half := match region with
    | some k => s.fab.cfg.segs.filter fun e => decide (driveCol (Seg.ofKey e.1) e.2.toNat / 4 ≠ k.val)
    | none => []
  l.foldl (fun m r => match r with
    | .seg src i => SMap.set 0 m (i / 32768) (BitVec.ofNat 16 src)
    | _ => m) base

/-- LOOP and ROUTE_DEPTH over the SEG records. -/
def chkPaths (s : State) (region : Option RegionId) (l : List FabRec) : Option LoadErr :=
  let m := pathMap s region l
  let loop := firstErr 6 (fun r => match r with
    | .seg _ i => if loops m (i / 32768) then some i else none
    | _ => none) l
  match loop with
  | some e => some e
  | none =>
    let on := (reads l).flatMap (chain m (m.length + 2))
    firstErr 5 (fun r => match r with
      | .seg _ i => if on.contains (i / 32768) && decide (4 < depth m (i / 32768)) then some i else none
      | _ => none) l

/-- Checks 4 to 9 of R319. -/
def chkContent (s : State) (region : Option RegionId) (l : List FabRec) : Option LoadErr :=
  let part := match region with
    | some k => (firstErr 4 (chkOutside k.val) l).orElse fun _ => firstErr 8 (chkLine s k.val) l
    | none => none
  part.orElse fun _ => (firstErr 7 chkSegment l).orElse fun _ => (chkConflict [] l).orElse fun _ => chkPaths s region l

/-! ### Configuration and CRC (R318, R515) -/

/-- One record enters a configuration. -/
def addRec (g : FabCfg) (r : FabRec) : FabCfg := match r with
  | .cell row col x => { g with cells := SMap.set CellCfg.null g.cells (32 * row + col) x }
  | .seg src i => { g with segs := SMap.set 0 g.segs (i / 32768) (if src / 4096 = 0 then 0 else BitVec.ofNat 16 src) }
  | .line l row col b => { g with lines := SMap.set none g.lines l (some ⟨row, col, b⟩) }
  | .port n sel =>
    let v := (sel.getD 0 0xFF, sel.getD 1 0xFF, sel.getD 2 0xFF)
    { g with ports := SMap.set (0xFF, 0xFF, 0xFF) g.ports n v }

/-- The configuration that a load of records leaves: a full one from null, a partial one over the others. -/
def loadCfg (g : FabCfg) (region : Option RegionId) (l : List FabRec) : FabCfg :=
  l.foldl addRec (match region with
    | some k => nullRegion g k.val
    | none => FabCfg.null)

/-- The 49 bytes of a cell. -/
def CellCfg.image (x : CellCfg) : Bytes :=
  (List.range 8).flatMap (fun i => leBytes 4 (x.ir.getD i 0).toNat) ++
    (List.range 4).flatMap (fun i => leBytes 2 (x.q.getD i 0).toNat) ++ leBytes 2 x.o.toNat ++
    [BitVec.ofNat 8 (x.t.toNat + 2 * x.sc.toNat)] ++ (List.range 6).map fun i => x.sel.getD i 0xFF

/-- The segments that start in region `k`, in ascending segment ID. -/
def regionSegs (k : Nat) : List Nat :=
  (List.range 64).flatMap fun r => (List.range 4).flatMap fun c =>
    ((List.range 64).map fun i => (r * 32 + 4 * k + c) * 64 + i).filter fun g => (Seg.ofKey g).exists

/-- The ports of region `k` in the order of item 3. -/
def regionPorts (k : Nat) : List (Nat × Nat) :=
  ((List.range 64).map fun i => (64 * k + i, 3)) ++ [(0x200 + k, 1)] ++ (if k = 0 then [(0x210, 1)] else []) ++
    if k = 7 then [(0x211, 1)] else []

/-- The configuration image of region `k`. -/
def regionImage (g : FabCfg) (k : Nat) : Bytes :=
  (List.range 64).flatMap (fun r => (List.range 4).flatMap fun c =>
    (SMap.get CellCfg.null g.cells (32 * r + 4 * k + c)).image) ++
  (regionSegs k).flatMap (fun j => leBytes 2 (SMap.get 0 g.segs j).toNat) ++
  (regionPorts k).flatMap (fun p =>
    let x := SMap.get (0xFF, 0xFF, 0xFF) g.ports p.1
    [x.1, x.2.1, x.2.2].take p.2) ++
  g.lines.flatMap fun e => match e.2 with
    | some d => if d.col / 4 = k then
        [BitVec.ofNat 8 e.1, BitVec.ofNat 8 d.row, BitVec.ofNat 8 d.col, BitVec.ofNat 8 d.bit0.toNat] else []
    | none => []

/-- CFG_CRC over the regions of a mask. -/
def cfgCrc (g : FabCfg) (mask : Nat) : Word :=
  crc32 ((List.range 8).flatMap fun k => if mask.testBit k then regionImage g k else [])

end Sys2Proof.Machine
end

