-- ==== Sys2Proof/Machine/Lines.lean ====
section
/-! DEFINITION. What rising edges of system lines do: stamps, start inputs, camera triggers, aborts and the tide-mark signal
(R14, R15, R215, R294, R311, R312, R474). -/

namespace Sys2Proof.Machine

/-- A rising edge of line `l`, whose driving region is its grantee's. An event line is stamped with the fabric time of the edge,
releases an order and triggers cameras; an abort line aborts its tenant; line 0x44 is a source of a tide mark. -/
def lineRise (s : State) (l : Nat) : State :=
  if l < 64 then
    let stamp := nextEdge s
    let s1 := { s with fab := { s.fab with evtTime := SMap.set 0 s.fab.evtTime l stamp } }
    let s2 := match lineOwner s l with
      | some t => startInput s1 t (BitVec.ofNat 16 l) stamp
      | none => s1
    trigEdges s2 l
  else if l < 0x44 then tideFault (abortTenant s (Fin.ofNat 4 (l - 0x40)) true) 5 0x0304
  else markDue s 3 0

/-- The new level of one line; its rising edge takes effect. -/
def lineStep (s : State) (l : Nat) : State :=
  let new := lineVal s l
  let old := SMap.get false s.fab.lineLevel l
  let s1 := { s with fab := { s.fab with lineLevel := SMap.set false s.fab.lineLevel l new } }
  if new && !old then lineRise s1 l else s1

/-- Every line follows its register. -/
def linesStep (s : State) : State := (s.fab.cfg.lines.map Prod.fst).foldl lineStep (fallLines s)

end Sys2Proof.Machine
end

