-- ==== Sys2Proof/Machine/Load.lean ====
section
/-! DEFINITION. Full and partial loads, capture, probes and the fabric's clock ramp
(R299, R317–R324, R331–R333, R424, R462, R463, R465). -/

namespace Sys2Proof.Machine

open Host (Outcome)

/-! ### Writes of a bitstream (R319–R323) -/

/-- A rejected load: LOAD_ERROR with its writer, REJECTS, LOAD_STATE 3 and the event. -/
def rejectLoad (s : State) (t : Tenant) (e : LoadErr) : State :=
  let s1 := { s with fab := { s.fab with
    loadState := 3, loadError := e.word, loadErrorBy := some t, rejects := satInc s.fab.rejects } }
  logEvent s1 0x0601 1 [t] 0 (e.word.toNat / 2 ^ 32) (leBytes 4 (e.word.toNat % 2 ^ 32))

/-- The VERIFY_ERROR reason of a load that a check of R319 refuses (R462, R473; log 26). -/
def loadReason (code : Nat) : Byte := if code = 4 ∨ code = 8 ∨ code = 0x0A then 6 else 4

/-- The checks of R319 in their order; `full` tells the object written. -/
def chkLoad (s : State) (t : Tenant) (full : Bool) (d : Bytes) (b : Bits) : Option (LoadErr × Byte) :=
  let region := oneRegion b.mask
  let denied := if full then decide (t ≠ 0 ∨ flashSize 3 < d.length) else
    decide (unitBytes < d.length) || (match region with
      | some k => decide (regionOwner s k.val ≠ some t)
      | none => false)
  if denied then some (⟨0x0A, 0, 0⟩, 6)
  else if full ≠ decide (b.kind = 1) then some (⟨2, 0, 0⟩, 4)
  else match b.fault with
    | some f => some (⟨2, f.1, f.2⟩, 4)
    | none =>
      let key := if full then s.ident.ik else tenantKey s t
      let ctr := if full then ctrFab else ctrPart ((region.map Fin.val).getD 0)
      match checkSig s key "AZ6516/FAB" b.signed b.sig ctr b.counter with
      | some r => some (⟨1, 0, 0⟩, r)
      | none => (chkContent s (if full then none else region) b.recs).map fun e => (e, loadReason e.code)

/-- A load may not start: one runs, a DEEP-SLEEP entry is pending, or, for a full load, the firmware update is under way. -/
def loadBusy (s : State) (full : Bool) : Bool :=
  s.fab.load.isSome || !s.fab.owed.isEmpty || (match s.clk.sleep with
    | .pending _ => true
    | _ => false) || (full && decide (s.ident.fw.state = 2 ∨ s.ident.fw.state = 3 ∨ s.ident.fw.state = 4))

/-- The scratchpad address of SB7 unit 62 (R222). -/
def stagingAddr : Nat := 7 * bankBytes + 62 * unitBytes

/-- FULL_LOAD and PARTIAL_LOAD: check, then hold what the load configures; the confirmation comes at its release. -/
def applyLoad (s : State) (k : SesId) (full : Bool) (d : Bytes) : Answer :=
  let t := sesTenant k
  if d.length < 64 then (0x06070013, s)
  else if loadBusy s full then (0x08000022, { s with fab := { s.fab with loadState := 4 } })
  else
    let b := parseBits d
    let s0 := if full then s else spWrite s stagingAddr d
    match chkLoad s t full d b with
    | some (e, r) => (0x08000000, rejectLoad (refuse s0 k (if full then 3 else 4) r) t e)
    | none =>
      let region := if full then none else oneRegion b.mask
      let cfg := loadCfg s.fab.cfg region b.recs
      let slot := if s.fab.slotB then 0 else 1
      let s1 := { s0 with fab := { s0.fab with
        load := some ⟨region, cfg, b.crc, b.counter, some k, if full then d else []⟩, loadState := 2
        slots := if full then SMap.set [] s0.fab.slots slot d else s0.fab.slots } }
      let s2 := match region with
        | some j => holdRegion (setPending s1 (ctrPart j.val) b.counter) j.val
        | none => (List.range 8).foldl holdRegion (setPending s1 ctrFab b.counter)
      (0, fabEdge s2)

/-! ### Completion -/

/-- Each region's configuration is measured as read back (R465). -/
def measureRegion (s : State) (k : Nat) (ctr : Word) : State := measure s (4 + k) ctr (regionImage s.fab.cfg k)

/-- The release of the regions that a load held, at one fc edge, with the edges of lines that start high. A region that owes its null
configuration stays held (R322). -/
def releaseLoad (s : State) (l : List Nat) : State :=
  linesStep (fabEdge ((l.filter fun k => s.fab.owed.all fun o => decide (o.val ≠ k)).foldl releaseRegion s))

/-- The object of a load. -/
def loadIndex (full : Bool) : Half := if full then 0x2B01 else 0x2B02

/-- The load in progress reads back as written: it takes effect (R320, R321, R463). -/
def loadGood (s : State) (l : Load) : State :=
  let s1 := { s with fab := { s.fab with
    cfg := l.cfg, load := none, loadState := 0, loads := satInc s.fab.loads, isNull := false } }
  match l.region with
  | some k =>
    let s2 := measureRegion (takeEffect s1 (ctrPart k.val) l.counter) k.val l.counter
    releaseLoad s2 [k.val]
  | none =>
    let s2 := takeEffect { s1 with fab := { s1.fab with slotB := !s1.fab.slotB } } ctrFab l.counter
    let s3 := (List.range 8).foldl (fun u k => measureRegion u k l.counter) (measure s2 3 l.counter l.bytes)
    emergency (releaseLoad s3 (List.range 8)) allTenants 0x6020 (leBytes 4 l.crc.toNat)

/-- READBACK: the active slot, or the null configuration of the region, is loaded under the same hold; the new bitstream is
discarded (R320, R321). -/
def loadBad (s : State) (l : Load) : State :=
  let t := match l.ses with
    | some k => sesTenant k
    | none => 0
  match l.region with
  | some k =>
    let s1 := { s with fab := { s.fab with cfg := nullRegion s.fab.cfg k.val, load := none } }
    rejectLoad (releaseLoad (measureRegion (setPending s1 (ctrPart k.val) 0) k.val 0) [k.val]) t ⟨9, 0, 0⟩
  | none =>
    let d := SMap.get [] s.fab.slots (if s.fab.slotB then 1 else 0)
    let cfg := if d = [] then FabCfg.null else loadCfg FabCfg.null none (parseBits d).recs
    let s1 := { s with fab := { s.fab with
      cfg := cfg, load := none, isNull := decide (d = [])
      slots := SMap.set [] s.fab.slots (if s.fab.slotB then 0 else 1) [] } }
    let s2 := (List.range 8).foldl (fun u k => measureRegion u k (counter s ctrFab)) (setPending s1 ctrFab 0)
    rejectLoad (releaseLoad s2 (List.range 8)) t ⟨9, 0, 0⟩

/-- The null configuration of a region removed from a tenant is loaded; it counts as a partial load (R299). -/
def loadOwed (s : State) (k : RegionId) : State :=
  let s1 := { s with fab := { s.fab with
    cfg := nullRegion s.fab.cfg k.val, owed := s.fab.owed.drop 1, loads := satInc s.fab.loads
    loadState := if s.fab.owed.length ≤ 1 then 0 else 2 } }
  releaseLoad (measureRegion s1 k.val 0) [k.val]

/-- CFG_CRC of what a load has written: in the image of a partial load the bridge segments that start in its region are null, as no
record names them, whatever drives them from other regions (R319, R515). -/
def loadCrc (l : Load) : Word := match l.region with
  | some k => cfgCrc { l.cfg with segs := l.cfg.segs.filter fun e =>
      !((Seg.ofKey e.1).bridge && decide ((Seg.ofKey e.1).col / 4 = k.val)) } (2 ^ k.val)
  | none => cfgCrc l.cfg 0xFF

/-- FABRIC_LOAD_COMPLETE: the write and readback of the load in progress end, and the session has its answer. -/
def execFabricLoadComplete (s : State) : Outcome State Fault Refusal :=
  .next (takeMark (match s.fab.load with
    | some l =>
      let good := decide (loadCrc l = l.crc)
      let s1 := if good then loadGood s l else loadBad s l
      let s2 := match l.ses with
        | some k => lateAnswer s1 k (loadIndex l.region.isNone) 1 (if good then 0 else 0x08000000)
        | none => s1
      startOwed s2
    | none => match s.fab.owed with
      | k :: _ => startOwed (loadOwed s k)
      | [] => s))

/-! ### Capture and probes (R331, R333) -/

/-- CAPTURE: the writer's regions are copied at one fc edge. -/
def applyCapture (s : State) (t : Tenant) (v : Byte) : Answer :=
  if v = 1 then (0, ((List.range 8).filter fun k => decide (regionOwner s k = some t)).foldl captureRegion s)
  else (0x06090030, s)

/-- PROBE_SEL: a probe cell in a region of T0 or of no tenant, or none. -/
def applyProbeSel (s : State) (land : Nat) (v : Byte) : Answer :=
  let own := regionOwner s (v.toNat / 2)
  if v = 0xFF ∨ (v.toNat < 16 ∧ (own = none ∨ own = some 0)) then
    (0, { s with fab := { s.fab with probe := SMap.set 0xFF s.fab.probe land v } })
  else (0x06090030, s)

/-- The level of PRB `land`: T of its probe cell, low with none selected (R333). -/
def probeLevel (s : State) (land : Nat) : Bool :=
  let j := (SMap.get 0xFF s.fab.probe land).toNat
  if j < 16 then (cell s (16 + 32 * (j % 2)) (4 * (j / 2) + 1)).t else false

/-! ### Clock ramp (R424) -/

/-- FABRIC_CLOCK_RAMP_STEP: a dwell ends; the third ends the ramp. Ramps hold during a VCORE warning (R423). -/
def execFabricClockRampStep (s : State) : Outcome State Fault Refusal :=
  let clk := match s.fab.clk with
    | .ramping up k => if k = 2 then (if up then FabClk.full else .quarter) else .ramping up (k + 1)
    | c => c
  .next (if s.sup.vcore ≠ .normal then s else retargetFab { s with fab := { s.fab with clk := clk } })

end Sys2Proof.Machine
end

