-- ==== Sys2Proof/Machine/Field.lean ====
section
/-! DEFINITION. Field channels and dike groups: inputs, the ADC, PWM, diagnoses, sensor supplies, group faults and safe states
(R326–R328, R336–R359, R391). -/

namespace Sys2Proof.Machine

open Host (Outcome)

/-! ### Inputs (R25, R326, R338, R341) -/

/-- The receivers of a channel reach the fabric: its field die lives and the fabric's clock runs. -/
def fcHears (s : State) : Bool := !fcDead s && decide (s.fab.clk ≠ .stopped)

/-- The edges that a counter counts, by OPTIONS [1:0]: rising, falling, both. -/
def countsEdge (options : Byte) (rise : Bool) : Bool :=
  if options.toNat % 4 = 0 then rise else if options.toNat % 4 = 1 then !rise else true

/-- A filtered edge: DIN counts rising edges, an enabled counter the edges of OPTIONS. -/
def inputEdge (x : Fc) (level : Bool) : Fc :=
  let n := (isDin x.mode && level) || (isCounter x.mode && x.out && countsEdge x.options level)
  { x with level := level, val := if n then x.val + 1 else x.val }

/-- FIELD_INPUT_CHANGE: the filtered level, a readback or the received level of a pair changes. -/
def execFieldInputChange (n : FcId) (level : Bool) (s : State) : Outcome State Fault Refusal :=
  let x := fch s n.val
  .next (if fcHears s && (isDin x.mode || isCounter x.mode || isOut x.mode || decide (x.mode = 5)) && decide (level ≠ x.level) then
      fabEdge (setFch s n.val (inputEdge x level))
    else s)

/-- The step of a quadrature position: forward where A leads B. -/
def encoderStep (x : Fc) (a b : Bool) : Half :=
  let fwd := if a != x.level then a != b else a == b
  if fwd != x.options.getLsbD 2 then 1 else -1

/-- The new signals of an encoder: one edge moves the position; both at once raise ENC_ERROR, counted in FAULTS. -/
def encoderMove (x : Fc) (a b : Bool) : Fc :=
  if a = x.level ∧ b = x.encB then x
  else if a ≠ x.level ∧ b ≠ x.encB then
    { x with
      level := a, encB := b, faults := satInc x.faults, diag := if x.diag.contains 0x09 then x.diag else x.diag ++ [0x09] }
  else { x with level := a, encB := b, val := x.val + encoderStep x a b }

/-- ENCODER_EDGE: the signals A and B of the encoder on FC(4·lead). -/
def execEncoderEdge (lead : Fin 128) (a b : Bool) (s : State) : Outcome State Fault Refusal :=
  let x := fch s (4 * lead.val)
  .next (if fcHears s ∧ x.mode = 6 then fabEdge (setFch s (4 * lead.val) (encoderMove x a b)) else s)

/-- FILTER: the filtered level is kept (R326). -/
def applyFilter (s : State) (n : Nat) (v : Byte) : Answer := (0, modFch s n fun x => { x with filter := v })

/-! ### Modes and safe states (R337, R344, R357, R359) -/

/-- The partners that a mode takes (R336). -/
def partnersOf (n : Nat) (m : Byte) : List Nat :=
  if m = 5 then [n + 1] else if m = 6 then [n + 1, n + 2, n + 3] else []

/-- The mode each channel has after the write of mode `v` to `n`: partners taken are PAIRED, those released DISABLED. -/
def modesAfter (s : State) (n : Nat) (v : Byte) : List (Nat × Byte) :=
  let taken := partnersOf n v
  let freed := (partnersOf n (fch s n).mode).filter fun p => !taken.contains p
  (n, v) :: taken.map (fun p => (p, 13)) ++ freed.map fun p => (p, 0)

/-- The conditions of abort 0x0609_0030. -/
def modeBad (s : State) (t : Tenant) (n : Nat) (v : Byte) : Bool :=
  decide (13 ≤ v.toNat) || decide (v = 5 ∧ n % 2 = 1) || decide (v = 6 ∧ n % 4 ≠ 0) ||
    (partnersOf n v).any (fun p => !ownsFc s t p) || (decide ((fch s n).source = 1) && !isDout v) ||
    (partnersOf n v).any fun p => decide ((fch s p).source = 1)

/-- An ACCEPTED or RUNNING order of any tenant holds an unfilled ADC window on the group. -/
def windowOpen (s : State) (g : Nat) : Bool :=
  allTenants.any fun t => (ten s t).orders.any fun o => o.ins.any fun i =>
    decide (i.kind = .adc ∧ i.source.toNat = g) && !i.complete

/-- The conditions of abort 0x0800_0022. -/
def modeBusy (s : State) (n : Nat) (v : Byte) : Bool :=
  decide ((fch s n).mode = 13) ||
    (windowOpen s (n / 16) && (modesAfter s n v).any fun e => isAin e.2 != isAin (fch s e.1).mode)

/-- A channel is reconfigured: VAL 0, no history, the level of the land, and the safe state until it has settled. Latched
diagnoses stay (R352), the rest and a swap end (R353). -/
def reconfigure (s : State) (n : Nat) (m : Byte) : State :=
  modFch s n fun x => { x with
    mode := m, val := 0, hist := [], level := Config.landLevel n s.time.toNat
    encB := Config.landLevel (n + 2) s.time.toNat, swapped := false, changing := true, pwmRunning := false
    diag := x.diag.filter fun c => decide (c = 0x01 ∨ c = 0x02 ∨ c = 0x07) }

/-- MODE. -/
def applyMode (s : State) (t : Tenant) (n : Nat) (v : Byte) : Answer :=
  if modeBad s t n v then (0x06090030, s)
  else if modeBusy s n v then (0x08000022, s)
  else (0, errorReset s (fabEdge ((modesAfter s n v).foldl (fun u e => reconfigure u e.1 e.2) s)))

/-- MODE_CHANGE_COMPLETE: the channel and the others of its quad that changed with it return to drive. -/
def execModeChangeComplete (n : FcId) (s : State) : Outcome State Fault Refusal :=
  let l := if (fch s n.val).changing then n.val :: (partnersOf n.val (fch s n.val).mode ++
    (List.range 4).map (fun i => 4 * (n.val / 4) + i) |>.filter fun p =>
      (fch s p).changing && decide ((fch s p).mode = 13 ∨ (fch s p).mode = 0)) else []
  .next (fabEdge (l.foldl (fun u p => modFch u p fun x => { x with changing := false }) s))

/-- SAFE_STATE: applied at once to a channel that is held safe. -/
def applySafe (s : State) (n : Nat) (v : Byte) : Answer :=
  if v.toNat ≤ 2 then (0, modFch s n fun x => { x with safe := v }) else (0x06090030, s)

/-- SOURCE: the host image drives modes 3 and 4 only. -/
def applySource (s : State) (n : Nat) (v : Byte) : Answer :=
  if 1 < v.toNat ∨ (v = 1 ∧ isDout (fch s n).mode = false) then (0x06090030, s)
  else (0, fabEdge (modFch s n fun x => { x with source := v }))

/-- DOUT_IMAGE: the bits of the writer's channels are written, the others ignored (R363). -/
def applyDoutImage (s : State) (t : Tenant) (j : Nat) (v : Byte) : Answer :=
  let mine : Byte := (List.range 8).foldl (fun m i => if ownsFc s t (8 * j + i) then m ||| (1#8 <<< i) else m) 0
  let old := SMap.get 0 s.field.dout j
  (0, { s with field := { s.field with dout := SMap.set 0 s.field.dout j ((old &&& ~~~mine) ||| (v &&& mine)) } })

/-! ### ADC (R342, R346, R348) -/

/-- The code of a voltage in µV: round(V × 6,400) or round(V × 3,200), to the nearest bound outside the range. -/
def adcCode (m : Byte) (uv : Int) : Int :=
  let k : Int := if m = 7 then 6400 else 3200
  let r := (2 * uv * k + 1000000) / 2000000
  let lo : Int := if m = 7 then 0 else -32768
  let hi : Int := if m = 7 then 65535 else 32767
  max lo (min hi r)

def adcBound (m : Byte) (c : Int) : Bool :=
  if m = 7 then decide (c = 0 ∨ c = 65535) else decide (c = -32768 ∨ c = 32767)

/-- A slot of the group ends: the sample of position `q` reaches a claimed window. One that started before the reference instant shifts
the samples before it, a later one is appended; the window fills when every masked channel has its S samples, and the slot has ended
at or after the reference instant. -/
def feedWindow (ref slot : DWord) (g q : Nat) (code : Half) (i : InBind) : InBind :=
  if i.kind = .adc ∧ i.source.toNat = g ∧ i.claimed = true ∧ i.complete = false then
    let l := SMap.get [] i.samples q
    let l1 := if slot.toNat < ref.toNat then (if l = [] then [] else l.drop 1 ++ [code])
      else if l.length < i.len.toNat then l ++ [code] else l
    takeSamples i (if i.mask.getLsbD q then SMap.set [] i.samples q l1 else i.samples) (decide (ref.toNat ≤ slot.toNat + 500))
  else i

/-- The sample reaches every window of every tenant that is filling, and the retained copies with it. -/
def feedWindows (s : State) (slot : DWord) (g q : Nat) (code : Half) : State :=
  allTenants.foldl (fun u t =>
    let v := modTen u t fun x => { x with orders := x.orders.map fun o =>
      { o with ins := o.ins.map (feedWindow o.startTime slot g q code) } }
    if (ten v t).orders = (ten u t).orders then v else refill v t [4, 5]) s

/-- A conversion of channel FC(16g + q) completes. -/
def convert (s : State) (g q : Nat) (uv : Int) : State :=
  let n := 16 * g + q
  let x := fch s n
  let c := adcCode x.mode uv
  let code := BitVec.ofInt 16 c
  let slot := s.time - 500
  let s1 := modFch s n fun x => { x with
    val := code, hist := ((slot, code) :: x.hist).take 255
    diag := if adcBound x.mode c && !x.diag.contains 0x08 then x.diag ++ [0x08] else x.diag }
  feedWindows (modGrp s1 g fun y => { y with adcPos := q + 1 }) slot g q code

/-- ADC_SLOT: a slot of the group's scan ends. -/
def execAdcSlot (g : GroupId) (microvolts : Int) (s : State) : Outcome State Fault Refusal :=
  .next (if (grp s g.val).adcStopped || !fcHears s then s
    else match nextScan (adcScan s g.val) (grp s g.val).adcPos with
      | some q => fabEdge (convert s g.val q microvolts)
      | none => s)

/-! ### PWM (R343) -/

/-- PWM_PERIOD_START: the period of a running channel ends and the next one takes its new DUTY and PWM_PERIOD. -/
def execPwmPeriodStart (n : FcId) (s : State) : Outcome State Fault Refusal :=
  .next (if (fch s n.val).pwmRunning then
      modFch s n.val fun x => { x with pwmNow := x.pwmPeriod, dutyNow := x.duty, pwmFrom := pwmNext x }
    else s)

/-! ### Diagnoses (R351–R354) -/

/-- The emergency of a channel diagnosis (R391). -/
def diagEmergency (s : State) (n : Nat) (c : Byte) : State :=
  let ts := (fcOwner s n).toList
  let ch := leBytes 2 n
  if c = 0x01 ∨ c = 0x02 then emergency s ts 0x2310 (ch ++ [c])
  else if c = 0x07 then emergency s ts 0x4210 ch
  else emergency s ts 0xFF11 (ch ++ [c])

/-- A diagnosis with FAULT = 1 counts in FAULTS and, at its onset, is logged and sent. -/
def raiseDiag (s : State) (n : Nat) (c : Byte) : State :=
  let x := fch s n
  let s1 := setFch s n { x with faults := satInc x.faults, diag := if x.diag.contains c then x.diag else x.diag ++ [c] }
  if x.diag.contains c then s1
  else diagEmergency (logEvent s1 0x0701 2 (fcOwner s n).toList (n / 16) n [c]) n c

/-- A reported diagnosis: nothing new while it is present. -/
def reportDiag (s : State) (n : Nat) (c : Byte) : State :=
  if (fch s n).diag.contains c then s else fabEdge (raiseDiag s n c)

/-- A diagnosis that forces the channel OFF: again at each detection after a retry. -/
def forceDiag (s : State) (n : Nat) (c : Byte) : State :=
  if (fch s n).forcedOff && (fch s n).diag.contains c then s
  else fabEdge (modFch (raiseDiag s n c) n fun x => { x with forcedOff := true })

/-- SHORT_GND: an output driving high. -/
def execShortGnd (n : FcId) (s : State) : Outcome State Fault Refusal :=
  let d := landDrive s n.val
  .next (if isOut (fch s n.val).mode ∧ (d = .high ∨ d = .pwm) then forceDiag s n.val 0x01 else s)

/-- SHORT_SUPPLY: a push-pull output driving low. -/
def execShortSupply (n : FcId) (s : State) : Outcome State Fault Refusal :=
  let d := landDrive s n.val
  let m := (fch s n.val).mode
  .next (if (m = 3 ∨ m = 9) ∧ (d = .low ∨ d = .pwm) then forceDiag s n.val 0x02 else s)

/-- OVERTEMP: any mode. -/
def execOvertemp (n : FcId) (s : State) : Outcome State Fault Refusal :=
  .next (if fcDead s then s else forceDiag s n.val 0x07)

/-- OPEN_WIRE of a digital input or counter with IN = 0. -/
def execOpenWire (n : FcId) (s : State) : Outcome State Fault Refusal :=
  let x := fch s n.val
  .next (if !fcDead s && (isDin x.mode || isCounter x.mode) && x.diagEn.getLsbD 0 && !x.level then reportDiag s n.val 0x03 else s)

/-- A window of the channel is filling. -/
def channelFilling (s : State) (n : Nat) : Bool :=
  allTenants.any fun t => (ten s t).orders.any fun o => o.ins.any fun i =>
    decide (i.kind = .adc ∧ i.source.toNat = n / 16) && i.claimed && !i.complete && i.mask.getLsbD (n % 16)

/-- A test pulse abandoned or skipped. -/
def abandonPulse (s : State) (n : Nat) : State := modFch s n fun x => { x with abandoned := satInc x.abandoned }

/-- AIN_OPEN_WIRE_PULSE: skipped after too long a deferral, deferred while a window of the channel fills, or given. -/
def execAinOpenWirePulse (n : FcId) (skipped isOpen : Bool) (s : State) : Outcome State Fault Refusal :=
  let x := fch s n.val
  .next (if fcDead s || !isAin x.mode || !x.diagEn.getLsbD 0 then s
    else if skipped then abandonPulse s n.val
    else if channelFilling s n.val || !isOpen then s
    else reportDiag s n.val 0x03)

/-- OPEN_LOAD_ON: an output that sources. -/
def execOpenLoadOn (n : FcId) (s : State) : Outcome State Fault Refusal :=
  let x := fch s n.val
  let d := landDrive s n.val
  .next (if isOut x.mode ∧ x.diagEn.getLsbD 0 = true ∧ (d = .high ∨ d = .pwm) then reportDiag s n.val 0x04 else s)

/-- OPEN_LOAD_OFF: the off-state test of an output that is OFF; a demand for drive abandons it (R328). -/
def execOpenLoadOff (n : FcId) (isOpen : Bool) (s : State) : Outcome State Fault Refusal :=
  let x := fch s n.val
  .next (if fcDead s || !isOut x.mode || !x.diagEn.getLsbD 1 then s
    else if landDrive s n.val ≠ .off then abandonPulse s n.val
    else if isOpen then reportDiag s n.val 0x0A else s)

/-- REVERSED: the pair goes safe, or is swapped with DIAG_EN[3] (R353). -/
def execReversed (n : FcId) (s : State) : Outcome State Fault Refusal :=
  let x := fch s n.val
  .next (if fcDead s || !decide (x.mode = 5) || !x.diagEn.getLsbD 2 || x.swapped then s
    else if x.diagEn.getLsbD 3 then
      fabEdge (setFch s n.val { x with swapped := true, diag := (x.diag.filter fun c => decide (c ≠ 0x05)) ++ [0x06] })
    else reportDiag s n.val 0x05)

/-- DIAG_RETRY: with DIAG_EN[4] a forced-OFF channel drives again. -/
def execDiagRetry (n : FcId) (s : State) : Outcome State Fault Refusal :=
  let x := fch s n.val
  .next (if x.forcedOff && x.diagEn.getLsbD 4 && !fcDead s then fabEdge (setFch s n.val { x with forcedOff := false }) else s)

/-- DIAGNOSIS_END: the condition has been absent; a latched diagnosis waits for DIAG_CLEAR or a retry, a swap for MODE. -/
def execDiagnosisEnd (n : FcId) (code : Byte) (s : State) : Outcome State Fault Refusal :=
  let x := fch s n.val
  let latched := x.forcedOff && decide (code = 0x01 ∨ code = 0x02 ∨ code = 0x07)
  .next (if latched || decide (code = 0x06) || !x.diag.contains code then s
    else errorReset s (fabEdge (setFch s n.val { x with diag := x.diag.filter fun c => decide (c ≠ code) })))

/-- DIAG_CLEAR: writing 1 ends the latched diagnoses and their forced OFF. -/
def applyDiagClear (s : State) (n : Nat) (v : Byte) : Answer :=
  if v = 1 then
    (0, errorReset s (fabEdge (modFch s n fun x => { x with
      forcedOff := false, diag := x.diag.filter fun c => decide (c ≠ 0x01 ∧ c ≠ 0x02 ∧ c ≠ 0x07) })))
  else (0x06090030, s)

/-! ### Sensor supplies (R345) -/

/-- The onset of an SPS condition is logged and sent once for the group. -/
def spsFault (s : State) (g : Nat) (code : Byte) : State :=
  fabEdge (emergency (logEvent s 0x0703 2 (groupOwners s g) g code.toNat []) (groupOwners s g) 0x2320 [BitVec.ofNat 8 g, code])

/-- SPS_OVERLOAD. -/
def execSpsOverload (g : GroupId) (s : State) : Outcome State Fault Refusal :=
  let x := grp s g.val
  .next (if fcDead s || decide (x.spsEnable = 0) || x.spsOverload || x.spsReverse then s
    else spsFault (setGrp s g.val { x with spsOverload := true }) g.val 0x10)

/-- SPS_RETRY: the SPS is switched on again. -/
def execSpsRetry (g : GroupId) (s : State) : Outcome State Fault Refusal :=
  .next (if (grp s g.val).spsOverload then
      errorReset s (fabEdge (modGrp s g.val fun x => { x with spsOverload := false }))
    else s)

/-- SPS_REVERSE: the blocking switch opens. -/
def execSpsReverse (g : GroupId) (s : State) : Outcome State Fault Refusal :=
  let x := grp s g.val
  .next (if fcDead s || decide (x.spsEnable = 0) || x.spsReverse then s
    else spsFault (setGrp s g.val { x with spsReverse := true }) g.val 0x11)

/-- SPS_REVERSE_END: 100 ms after the reverse current stops. -/
def execSpsReverseEnd (g : GroupId) (s : State) : Outcome State Fault Refusal :=
  .next (if (grp s g.val).spsReverse then
      errorReset s (fabEdge (modGrp s g.val fun x => { x with spsReverse := false }))
    else s)

/-- SPS_ENABLE: 0 switches the SPS off, which ends its conditions. -/
def applySpsEnable (s : State) (g : Nat) (v : Byte) : Answer :=
  if v.toNat ≤ 1 then
    (0, errorReset s (fabEdge (modGrp s g fun x => { x with
      spsEnable := v, spsOverload := x.spsOverload && decide (v = 1), spsReverse := x.spsReverse && decide (v = 1) })))
  else (0x06090030, s)

/-! ### Group faults (R355, R356, R364) -/

/-- Orders of a tenant with an ADC-window or snapshot binding on the group. -/
def groupOrders (s : State) (t : Tenant) (g : Nat) : List Word :=
  ((ten s t).orders.filter fun o => o.ins.any fun i =>
    decide ((i.kind = .adc ∨ i.kind = .snapshot) ∧ i.source.toNat = g)).map Order.seq

/-- A group is declared faulted. -/
def groupFault (s : State) (g : Nat) (cause : BitVec 4) : State :=
  let x := grp s g
  if x.faulted then s
  else
    let ts := 0 :: (groupOwners s g).filter fun t => decide (t ≠ 0)
    let s1 := setGrp s g { x with
      faulted := true, cause := cause, faults := satInc x.faults, adcStopped := x.adcStopped || decide (cause = 3) }
    let s2 := logEvent s1 0x0702 2 ts g cause.toNat (leBytes 2 x.outCurrent.toNat)
    let s3 := emergency s2 ts 0x2330 [BitVec.ofNat 8 g, cause.zeroExtend 8]
    fabEdge (allTenants.foldl (fun u t => abortOrders u t (groupOrders u t g) 0x0A) (tideFault s3 6 0x0702))

/-- GROUP_CURRENT_AVERAGE: the 10 ms average of a group; above 400 mA it is overcurrent. -/
def execGroupCurrentAverage (g : GroupId) (milliamps : Half) (s : State) : Outcome State Fault Refusal :=
  let s1 := modGrp s g.val fun x => { x with outCurrent := milliamps }
  .next (takeMark (if 400 < milliamps.toNat then groupFault s1 g.val 1 else s1))

/-- The module's total of the averages. -/
def totalCurrent (s : State) : Nat := ((List.range 32).map fun g => (grp s g).outCurrent.toNat).foldl (· + ·) 0

/-- The group in service with the largest average, the lowest of equals. -/
def largestGroup (s : State) : Option Nat :=
  ((List.range 32).filter fun g => !(grp s g).faulted).foldl (fun b g => match b with
    | none => some g
    | some h => if (grp s h).outCurrent.toNat < (grp s g).outCurrent.toNat then some g else b) none

/-- MODULE_BUDGET_CHECK: above 4 A in all, the group with the largest average is faulted. -/
def execModuleBudgetCheck (s : State) : Outcome State Fault Refusal :=
  .next (takeMark (if 4000 < totalCurrent s then (match largestGroup s with
    | some g => groupFault s g 2
    | none => s) else s))

/-- GROUP_MONITOR_TRIP: 0 the ADC's reference monitor, 1 the die temperature, 2 the internal supply. -/
def execGroupMonitorTrip (g : GroupId) (which : Fin 3) (s : State) : Outcome State Fault Refusal :=
  .next (takeMark (groupFault s g.val (BitVec.ofNat 4 (3 + which.val))))

/-- GROUP_OVERCURRENT_ESCALATION: the average still exceeds its limit 10 ms after causes 1 and 2. -/
def execGroupOvercurrentEscalation (g : GroupId) (s : State) : Outcome State Fault Refusal :=
  let x := grp s g.val
  let still := x.faulted && (decide (x.cause = 1 ∧ 400 < x.outCurrent.toNat) || decide (x.cause = 2 ∧ 4000 < totalCurrent s))
  .next (if still then
      fabEdge ((List.range 16).foldl (fun u q =>
        let n := 16 * g.val + q
        if isOut (fch u n).mode ∧ (fch u n).safe = 2 then modFch u n fun y => { y with escalated := true } else u) s)
    else s)

/-- GROUP_CLEAR: writing 1 ends the fault; the channels return to their drive. -/
def applyGroupClear (s : State) (g : Nat) (v : Byte) : Answer :=
  if v = 1 then
    let s1 := modGrp s g fun x => { x with faulted := false, adcStopped := false }
    (0, errorReset s (fabEdge ((List.range 16).foldl (fun u q => modFch u (16 * g + q) fun y => { y with escalated := false }) s1)))
  else (0x06090030, s)

/-- CROSSING_SILENCE: no word from the array die for 1 µs, or words again (R358). -/
def execCrossingSilence (die : Fin 2) (resumed : Bool) (s : State) : Outcome State Fault Refusal :=
  .next (fabEdge (if die = 0 then { s with field := { s.field with silenceA := !resumed } }
    else { s with field := { s.field with silenceB := !resumed } }))

end Sys2Proof.Machine
end

