-- ==== Sys2Proof/Machine/Micro.lean ====
section
/-! DEFINITION. Microwords (R156–R171): PLANE, NEWS, ADDR, SCAL, WAIT, BR, LOOP, GOR, BCAST, TRAPCHK and RESCHK, each run by
the tenant's sequencer, with WCS parity repair at fetch (R180). -/

namespace Sys2Proof.Machine

open Host (Outcome)

/-! ### Control store (R153, R154, R180) -/

/-- The golden copy that repairs a sequencer: of the image it holds (R185, R187). -/
def goldenOf (s : State) (q : Nat) : SMap Word :=
  match s.mc.patch with
  | some p =>
    if (sqr s q).image then (if p.loaded.any fun k => decide (k.val = q) then p.words else p.prev) else s.mc.golden
  | none => s.mc.golden

/-- One word is rewritten from the golden copy of the sequencer's image: from SB3, or from SB7 when SB3 reports a parity error;
the staging region of an update serves its images. The repair is counted and logged (R180, R181, R185, R189). -/
def repairWord (s : State) (q k : Nat) : State :=
  let g := storeWord (goldenOf s q) k
  let s0 := if (sqr s q).image then s else (readCopied s (goldenAddr 3 k) (goldenAddr 7 k) 2 2).1
  let s1 := modSqr s0 q fun x => { x with
    wcs := SMap.set (storeWord [] k) x.wcs k g
    wcsBad := if SMap.get .none x.wcsBad k = .stuck then x.wcsBad else SMap.set .none x.wcsBad k .none
    repairs := satInc x.repairs }
  logEvent s1 0x0204 1 (seqTenant s q).toList q k []

/-- Both golden copies of a word fail their parity check. -/
def goldenLost (s : State) (q k : Nat) : Bool :=
  !(sqr s q).image && spBadAt s (goldenAddr 3 k) 8 && spBadAt s (goldenAddr 7 k) 8

/-- A word with wrong parity is repaired and fetched again; one that fails again, or that no golden copy can repair (log 61),
declares the sequencer faulted (R180). -/
def mendWord (s : State) (q : SeqId) (k : Nat) : State :=
  match SMap.get .none (sqr s q.val).wcsBad k with
  | .none => s
  | .upset => if goldenLost s q.val k then takeMark (seqFault s q) else repairWord s q.val k
  | .stuck => takeMark (seqFault (repairWord s q.val k) q)

/-! ### Issue -/

/-- The tenant whose microword the sequencer can issue. -/
def microReady (s : State) (q : SeqId) : Option Tenant :=
  match (sqr s q.val).bound with
  | none => none
  | some t =>
    match runOrder s t with
    | some o =>
      if !o.reexec && !frozen s && tilesAwake s t && decide ((sqr s q.val).service = .inService) &&
          (sqr s q.val).ws.isNone then some t else none
    | none => none

/-- A microcode fault: the order becomes ABORTED, µPC and IL are logged (R171, R485). -/
def microFault (s : State) (q : SeqId) (t : Tenant) : State :=
  match runOrder s t with
  | none => s
  | some o =>
    let x := sqr s q.val
    abortOrders (logEvent s 0x0202 2 [t] q.val x.upc.toNat (leBytes 8 x.il.toNat ++ leBytes 4 o.seq.toNat)) t [o.seq] 0x03

/-- A field scan in flight comes `n` ac nearer; SV takes its result (R156). -/
def tickScan (n : Nat) (x : Sequencer) : Sequencer :=
  match x.scan with
  | some (k, v) => if k ≤ n then { x with scan := none, sv := v } else { x with scan := some (k - n, v) }
  | none => x

/-- Run the microword at µPC where it is the word `w` of the command; a word whose parity fails is mended first. A reserved word,
or one that this chapter calls a fault, is not executed (R171, R180). A command whose word is not at µPC does nothing (log 1). -/
def runMicro (s : State) (q : SeqId) (w : Word) (bad : Sequencer → Bool) (eff : Tenant → State → State) : State :=
  match microReady s q with
  | none => s
  | some t =>
    let k := (sqr s q.val).upc.toNat
    let s1 := mendWord s q k
    if (sqr s1 q.val).bound ≠ some t then s1
    else
      let v := storeWord (sqr s1 q.val).wcs k
      if v = w then
        if bad (sqr s1 q.val) then microFault s1 q t
        else eff t (modSqr s1 q.val fun x => { x with midRoutine := true })
      else if reservedMicro v then microFault s1 q t
      else s

/-! ### Loops (R166) -/

def lcVal (x : Sequencer) (i : Nat) : LoopCounter := SMap.get ⟨0, 0⟩ x.lc i
def setLc (x : Sequencer) (i : Nat) (v : LoopCounter) : Sequencer := { x with lc := SMap.set ⟨0, 0⟩ x.lc i v }
/-- Count a loop counter down by one. -/
def decLc (x : Sequencer) (i : Nat) : Sequencer := setLc x i { lcVal x i with val := (lcVal x i).val - 1 }

/-- The loop ends after its body. -/
def exitLoop (x : Sequencer) (l : Loop) : Sequencer :=
  { x with loop := none, upc := l.start + BitVec.ofNat 14 l.blen }

/-- An outer pass starts: LCI is reloaded; with LCI 0 the inner words are not run. A pass without a word ends the loop. -/
def startPass (x : Sequencer) (l : Loop) : Sequencer :=
  let y := if l.ilen = 0 then x else setLc x l.lci { lcVal x l.lci with val := (lcVal x l.lci).reload }
  if l.ilen ≠ 0 ∧ (lcVal y l.lci).val = 0 then
    if l.ilen = l.blen then exitLoop (setLc y l.lco { lcVal y l.lco with val := 0 }) l
    else { y with loop := some { l with pos := l.ilen, innerDone := true }, upc := l.start + BitVec.ofNat 14 l.ilen }
  else { y with loop := some { l with pos := 0, innerDone := decide (l.ilen = 0) }, upc := l.start }

/-- The word after the present one: the next word, or the next of a loop's body. -/
def nextWord (x : Sequencer) : Sequencer :=
  match x.loop with
  | none => { x with upc := x.upc + 1 }
  | some l =>
    let p := l.pos + 1
    let y := if p = l.ilen ∧ l.innerDone = false then decLc x l.lci else x
    if p = l.ilen ∧ l.innerDone = false ∧ (lcVal y l.lci).val ≠ 0 then
      { y with loop := some { l with pos := 0 }, upc := l.start }
    else if p = l.blen then
      let z := decLc y l.lco
      if (lcVal z l.lco).val = 0 then exitLoop z l else startPass z l
    else { y with loop := some { l with pos := p, innerDone := l.innerDone || decide (p = l.ilen) }, upc := x.upc + 1 }

/-- A microword of `n` ac ends. -/
def endMicro (s : State) (t : Tenant) (q : SeqId) (n : Nat) : State :=
  addTime (modSqr s q.val fun x => nextWord (tickScan n x)) t n

/-! ### Micro address registers (R43, R162) -/

def maOf (x : Sequencer) (i : Nat) : MicroAddr := SMap.get MicroAddr.initial x.ma i
def setMa (x : Sequencer) (i : Nat) (m : MicroAddr) : Sequencer := { x with ma := SMap.set MicroAddr.initial x.ma i m }

/-- One increment, in the register's mode. -/
def MicroAddr.inc (m : MicroAddr) : MicroAddr :=
  let a := m.addr + 1
  if m.mode = 1 ∧ a = m.base + m.len.zeroExtend 12 then { m with addr := m.base }
  else if m.mode = 2 ∧ a = m.base + m.len.zeroExtend 12 then
    { m with addr := m.base + 1, base := m.base + 1, returned := true }
  else { m with addr := a }

/-- p of the instruction in IL (R155, R162). -/
def microP (x : Sequencer) : Nat := ceilDiv (wordWidth x.il) x.gw.width

/-! ### PLANE (R54, R55, R57, R159, R160) -/

/-- A source bit of lane `j` of a slice. -/
def planeSrc (s : State) (x : Sequencer) (g : Nat) (e : Elem) (src j : Nat) : Bool :=
  let k := e.lane g j
  if src < 8 then
    let m := maOf x src
    if m.mode = 2 ∧ m.returned = false then false else peBit s k (m.eff s (e.lane g 0))
  else match src with
    | 8 => (pe s k).c
    | 9 => (pe s k).k
    | 10 => peX s k
    | 11 => (pe s k).f
    | 13 =>
      let i := g * (x.bl.toNat / 16 % 64) + j
      let v := SMap.get 0 x.s (x.bl.toNat % 16)
      if i < 32 then v.getLsbD i else x.bl.getLsbD 10 && v.msb
    | 14 => true
    | _ => false

def majority (a b c : Bool) : Bool := (a && b) || (a && c) || (b && c)

/-- The carries of an ADD plane of `g` lanes: the carry into each lane, and last the carry out (R54). -/
def carries (a y : Nat → Bool) (c : Bool) : Nat → List Bool
  | 0 => [c]
  | n + 1 => let l := carries a y c n; l ++ [majority (a n) (y n) (l.getLastD c)]

/-- Values of the low `g` bits of a lane function. -/
def laneNat (g : Nat) (f : Nat → Bool) : Nat := (List.range g).foldr (fun j acc => 2 * acc + (f j).toNat) 0

/-- Residues modulo 3 after a plane (R57, R159): in G1 a bit of weight 1 or 2, in gang widths a chunk of weight 1. -/
def accRes (old : BitVec 2) (wt v : Nat) : BitVec 2 := BitVec.ofNat 2 ((old.toNat + wt * v) % 3)

/-- What a PLANE leaves in one slice; `s0` is the state before the cycle (R33). DESIGN CHOICE (log 56): a write to M is neither
suppressed under R44 nor does it clear the berm-valid flag of R40, which speak of AIS writes; C and K take r of lane 0 in G4 and
G16; RES = 2 advances the residue weight as RES = 1 does. -/
def planeSlice (s0 : State) (x : Sequencer) (w : PlaneW) (add : Bool) (g : Nat) (u : State) (e : Elem) : State :=
  let k0 := e.lane g 0
  let a := planeSrc s0 x g e w.sa.toNat
  let b := planeSrc s0 x g e w.sb.toNat
  let fl := fun j => (pe s0 (e.lane g j)).f
  let y := fun j => ttBit w.tt (a j) (b j) && (!w.gf || fl j)
  let cs := carries a y (pe s0 k0).c g
  let r := fun j => if add then (a j ^^ y j ^^ cs.getD j false) else y j
  let on := active s0 g e
  let cout := cs.getD g false
  let u1 := if add && on then
      setC u g e cout |> fun z => setPe z k0 { pe z k0 with v := cout ^^ cs.getD (g - 1) false }
    else u
  let da := (maOf x w.da.toNat).eff s0 k0
  let u2 := match w.dst.toNat with
    | 0 => if on then (List.range g).foldl (fun z j => setPeBit z (e.lane g j) da (r j)) u1 else u1
    | 1 => if on then setC u1 g e (r 0) else u1
    | 2 => setK u1 g e (r 0)
    | 3 => (List.range g).foldl (fun z j => setPeX z (e.lane g j) (r j)) u1
    | 4 => if on then (List.range g).foldl (fun z j =>
        setPe z (e.lane g j) { pe z (e.lane g j) with f := r j }) u1 else u1
    | 6 => if on then
        setC ((List.range g).foldl (fun z j =>
          let v := setPeBit z (e.lane g j) da (r j)
          setPe v (e.lane g j) { pe v (e.lane g j) with f := b j }) u1) g e false
      else u1
    | _ => u1
  if w.res = 0 ∨ on = false then u2
  else
    let p := peRes u2 k0
    let wt := if g = 1 ∧ (pe s0 k0).weight2 = true then 2 else 1
    let ra := if w.res = 1 then accRes (p.extractLsb' 0 2) wt (laneNat g a) else p.extractLsb' 0 2
    let rb := if w.res = 1 then accRes (p.extractLsb' 2 2) wt (laneNat g y) else p.extractLsb' 2 2
    let rr := accRes (p.extractLsb' 4 2) wt (laneNat g r)
    let u3 := setPeRes u2 k0 (rr ++ rb ++ ra)
    if g = 1 then setPe u3 k0 { pe u3 k0 with weight2 := !(pe s0 k0).weight2 } else u3

/-- The address registers and the broadcast cursor after a PLANE: each register named advances once (R159; log 18). -/
def planeInc (w : PlaneW) (x : Sequencer) : Sequencer :=
  let l := (if w.id then [w.da.toNat] else []) ++ (if w.ia && decide (w.sa.toNat < 8) then [w.sa.toNat] else []) ++
    (if w.ib && decide (w.sb.toNat < 8) then [w.sb.toNat] else [])
  let y := l.dedup.foldl (fun z i => setMa z i (maOf z i).inc) x
  if (w.ia && decide (w.sa = 13)) || (w.ib && decide (w.sb = 13)) then
    { y with bl := (y.bl.extractLsb' 10 1 ++ (y.bl.extractLsb' 4 6 + 1)) ++ y.bl.extractLsb' 0 4 }
  else y

/-- Reserved values of a PLANE (R159, R160). -/
def planeBad (w : PlaneW) (add : Bool) : Bool :=
  decide (w.dst = 7 ∨ w.sa = 15 ∨ w.sb = 15 ∨ w.res = 3) || (add && decide (w.dst = 1))

/-- The bytes that a PLANE reads or writes, with their parity (R38). -/
def planeTouch (s : State) (x : Sequencer) (w : PlaneW) (g : Nat) (es : List Elem) : State :=
  let l := ([w.sa.toNat, w.sb.toNat].filter fun i => decide (i < 8)) ++
    (if w.dst = 0 ∨ w.dst = 6 then [w.da.toNat] else [])
  l.foldl (fun u i => touch u g es ⟨(maOf x i).ind, (maOf x i).addr.toNat, g⟩) s

def plane (s : State) (q : SeqId) (w : PlaneW) (add : Bool) : State :=
  runMicro s q (wordPlane w add) (fun _ => planeBad w add) fun t s1 =>
    let x := sqr s1 q.val
    let g := x.gw.width
    let es := elems s1 g (ownTiles s1 t)
    let s2 := es.foldl (planeSlice s1 x w add g) (planeTouch s1 x w g es)
    endMicro (modSqr s2 q.val (planeInc w)) t q 1

/-- PLANE with CM = LOG: r ← TT(a, b). -/
def execPlaneLog (q : SeqId) (w : PlaneW) (s : State) : Outcome State Fault Refusal := .next (plane s q w false)
/-- PLANE with CM = ADD: y ← TT(a, b), r ← a ⊕ y ⊕ C, C ← majority(a, y, C). -/
def execPlaneAdd (q : SeqId) (w : PlaneW) (s : State) : Outcome State Fault Refusal := .next (plane s q w true)

/-! ### NEWS (R45, R46, R54, R56, R161) -/

/-- The side from which a move in direction `d` loads. -/
def newsFrom (d : Nat) : Dir := if d = 0 then .south else if d = 1 then .west else if d = 2 then .north else .east

/-- The lane shift of one slice: the vacated lane takes C, and C takes the bit shifted out. -/
def laneShift (s0 : State) (g : Nat) (east : Bool) (u : State) (e : Elem) : State :=
  let c := (pe s0 (e.lane g 0)).c
  let out := peX s0 (e.lane g (if east then g - 1 else 0))
  let u1 := (List.range g).foldl (fun z j =>
    setPeX z (e.lane g j)
      (if east then (if j = 0 then c else peX s0 (e.lane g (j - 1)))
       else if j = g - 1 then c else peX s0 (e.lane g (j + 1)))) u
  if active s0 g e then setC u1 g e out else u1

/-- The PEs of group `g` of the edge at which a move in direction `d` enters tile `p` (R47). -/
def edgeGroup (d : Nat) (p : TileId) (g : Fin 8) : List Nat :=
  (List.range 8).map fun i =>
    let j := 8 * g.val + i
    match d with
    | 0 => peKey p 0 j
    | 1 => peKey p j 0
    | 2 => peKey p 63 j
    | _ => peKey p j 63

/-- Culvert parity mismatches at the tiles that received from an enabled culvert: the parity-error latch of the 8 receiving PEs
(R47). -/
def culvertLatch (s : State) (d : Nat) (l : List (TileId × Fin 8)) : State :=
  l.foldl (fun u x => (edgeGroup d x.1 x.2).foldl (fun v k => setPe v k { pe v k with parityErr := true }) u) s

/-- NEWS: X moves one PE, whatever the width, or one lane within each slice; a culvert group whose parity fails marks its receivers. -/
def execNews (q : SeqId) (dir : BitVec 2) (ls : Bool) (w : NewsW) (s : State) :
    Outcome State Fault Refusal :=
  .next (runMicro s q (wordNews dir ls w.res)
    (fun x => decide (w.res ≠ 0) || (ls && (!dir.getLsbD 0 || decide (x.gw = .g1)))) fun t s1 =>
    let g := (sqr s1 q.val).gw.width
    if ls then endMicro ((elems s1 g (ownTiles s1 t)).foldl (laneShift s1 g (decide (dir = 1))) s1) t q 1
    else
      let from_ := newsFrom dir.toNat
      let s2 := (elems s1 1 (ownTiles s1 t)).foldl (fun u e =>
        setPeX u (e.lane 1 0) (match elemAway s1 t 1 from_ 1 e with
          | some x => peX s1 (x.lane 1 0)
          | none => false)) s1
      let edge := (ownTiles s1 t).filterMap fun n => if (joined s1 t from_ n).isSome then physOf s1 n else none
      let bad := w.parity.filter fun x => edge.contains x.1
      linkSample (endMicro (culvertLatch s2 dir.toNat bad) t q 1) edge (bad.map Prod.fst))

/-! ### ADDR (R162) -/

/-- An ADDR of one mode. -/
def addrOp (s : State) (q : SeqId) (w : AddrW) (mode : BitVec 3) (f : Sequencer → MicroAddr) : State :=
  runMicro s q (wordAddr w mode) (fun _ => decide (w.res ≠ 0)) fun t s1 =>
    endMicro (modSqr s1 q.val fun x => setMa x w.md.toNat (f x)) t q 1

/-- Set [12:0] of a register. -/
def MicroAddr.set13 (m : MicroAddr) (v : BitVec 13) : MicroAddr :=
  { m with ind := v.getLsbD 12, addr := v.truncate 12 }

/-- Mode 0: MA ← IMM. -/
def execAddrImm (q : SeqId) (w : AddrW) (s : State) : Outcome State Fault Refusal :=
  .next (addrOp s q w 0 fun x => (maOf x w.md.toNat).set13 w.imm)
/-- Mode 1: MA[11:0] ← MA[11:0] + IMM. -/
def execAddrAdd (q : SeqId) (w : AddrW) (s : State) : Outcome State Fault Refusal :=
  .next (addrOp s q w 1 fun x => let m := maOf x w.md.toNat; { m with addr := m.addr + w.imm.truncate 12 })
/-- Mode 2: MA ← S[SRC][12:0]. -/
def execAddrScalar (q : SeqId) (w : AddrW) (s : State) : Outcome State Fault Refusal :=
  .next (addrOp s q w 2 fun x => (maOf x w.md.toNat).set13 ((SMap.get 0 x.s w.src.toNat).truncate 13))
/-- Mode 3: MA ← MA[SRC[2:0]] with IMM added. -/
def execAddrCopy (q : SeqId) (w : AddrW) (s : State) : Outcome State Fault Refusal :=
  .next (addrOp s q w 3 fun x =>
    let m := maOf x (w.src.toNat % 8)
    { maOf x w.md.toNat with ind := m.ind, addr := m.addr + w.imm.truncate 12 })
/-- Mode 4: WRAP with length p + IMM[6:0]. -/
def execAddrWrap (q : SeqId) (w : AddrW) (s : State) : Outcome State Fault Refusal :=
  .next (addrOp s q w 4 fun x =>
    let m := maOf x w.md.toNat
    { m with mode := 1, base := m.addr, len := BitVec.ofNat 7 (microP x + w.imm.toNat % 128), returned := false })
/-- Mode 5: SLIDE with length p + IMM[6:0]. -/
def execAddrSlide (q : SeqId) (w : AddrW) (s : State) : Outcome State Fault Refusal :=
  .next (addrOp s q w 5 fun x =>
    let m := maOf x w.md.toNat
    { m with mode := 2, base := m.addr, len := BitVec.ofNat 7 (microP x + w.imm.toNat % 128), returned := false })
/-- Mode 6: plain. -/
def execAddrPlain (q : SeqId) (w : AddrW) (s : State) : Outcome State Fault Refusal :=
  .next (addrOp s q w 6 fun x => { maOf x w.md.toNat with mode := 0, returned := false })

/-! ### SCAL (R156, R164) -/

def msr (x : Sequencer) (i : BitVec 4) : Word := SMap.get 0 x.s i.toNat

/-- Write SD and the flags of the result. -/
def scalWrite (d : BitVec 4) (v : Word) (x : Sequencer) : Sequencer :=
  { x with s := SMap.set 0 x.s d.toNat v, z := decide (v = 0), n := v.msb }

/-- A SCAL function that writes SD. -/
def scalOp (s : State) (q : SeqId) (w : ScalW) (fn : BitVec 4) (f : Sequencer → Word) : State :=
  runMicro s q (wordScal w fn) (fun _ => false) fun t s1 => endMicro (modSqr s1 q.val fun x => scalWrite w.sd (f x) x) t q 1

/-- FN 0 ADD. -/
def execScalAdd (q : SeqId) (w : ScalW) (s : State) : Outcome State Fault Refusal :=
  .next (scalOp s q w 0 fun x => msr x w.sa + msr x w.sb)
/-- FN 1 ADDI. -/
def execScalAddi (q : SeqId) (w : ScalW) (s : State) : Outcome State Fault Refusal :=
  .next (scalOp s q w 1 fun x => msr x w.sa + w.imm.signExtend 32)
/-- FN 2 SUB. -/
def execScalSub (q : SeqId) (w : ScalW) (s : State) : Outcome State Fault Refusal :=
  .next (scalOp s q w 2 fun x => msr x w.sa - msr x w.sb)
/-- FN 3 AND. -/
def execScalAnd (q : SeqId) (w : ScalW) (s : State) : Outcome State Fault Refusal :=
  .next (scalOp s q w 3 fun x => msr x w.sa &&& msr x w.sb)
/-- FN 4 OR. -/
def execScalOr (q : SeqId) (w : ScalW) (s : State) : Outcome State Fault Refusal :=
  .next (scalOp s q w 4 fun x => msr x w.sa ||| msr x w.sb)
/-- FN 5 XOR. -/
def execScalXor (q : SeqId) (w : ScalW) (s : State) : Outcome State Fault Refusal :=
  .next (scalOp s q w 5 fun x => msr x w.sa ^^^ msr x w.sb)
/-- FN 6 SHL, by SB mod 32. -/
def execScalShl (q : SeqId) (w : ScalW) (s : State) : Outcome State Fault Refusal :=
  .next (scalOp s q w 6 fun x => msr x w.sa <<< ((msr x w.sb).toNat % 32))
/-- FN 7 SHR, by SB mod 32, sign fill when IMM[0] = 1. -/
def execScalShr (q : SeqId) (w : ScalW) (s : State) : Outcome State Fault Refusal :=
  .next (scalOp s q w 7 fun x =>
    let n := (msr x w.sb).toNat % 32
    if w.imm.getLsbD 0 then (msr x w.sa).sshiftRight n else msr x w.sa >>> n)
/-- FN 8 LI. -/
def execScalLi (q : SeqId) (w : ScalW) (s : State) : Outcome State Fault Refusal :=
  .next (scalOp s q w 8 fun _ => w.imm.signExtend 32)
/-- FN 9 SHI. -/
def execScalShi (q : SeqId) (w : ScalW) (s : State) : Outcome State Fault Refusal :=
  .next (scalOp s q w 9 fun x => (msr x w.sd <<< 10) ||| w.imm.zeroExtend 32)

/-- Item `i` of IL (R164). -/
def ilItem (x : Sequencer) (i : Nat) : Nat :=
  let w := x.il.toNat
  match i with
  | 0 => w / 2 ^ 58
  | 1 => w / 2 ^ 53 % 32
  | 2 => w / 2 ^ 49 % 16
  | 3 => w / 2 ^ 43 % 64
  | 4 => w / 2 ^ 27 % 4096
  | 5 => w / 2 ^ 15 % 4096
  | 6 => w / 8 % 4096
  | 7 => microP x
  | 8 => x.pc.toNat
  | _ => w / 2 ^ 39 % 16

/-- FN 10 FIELD; items above 9 are reserved. -/
def execScalField (q : SeqId) (w : ScalW) (s : State) : Outcome State Fault Refusal :=
  .next (runMicro s q (wordScal w 10) (fun _ => decide (9 < w.imm.toNat)) fun t s1 =>
    endMicro (modSqr s1 q.val fun x => scalWrite w.sd (BitVec.ofNat 32 (ilItem x w.imm.toNat)) x) t q 1)

/-- FN 11 HSB: index of the highest set bit. -/
def execScalHsb (q : SeqId) (w : ScalW) (s : State) : Outcome State Fault Refusal :=
  .next (scalOp s q w 11 fun x => if msr x w.sa = 0 then 0xFFFFFFFF else BitVec.ofNat 32 (Nat.log2 (msr x w.sa).toNat))

/-- SV as a routine reads it: a free value while a scan is in flight (R156; log 6). -/
def readSv (s : State) (q : SeqId) : BitVec 16 :=
  let x := sqr s q.val
  if x.scan.isSome then BitVec.ofNat 16 (freeNat (freshNum s) (1600000000 + 16 * q.val) 16) else x.sv

/-- FN 12 GET: GV, TVR or SV. -/
def execScalGet (q : SeqId) (w : ScalW) (s : State) : Outcome State Fault Refusal :=
  .next (runMicro s q (wordScal w 12) (fun _ => decide (2 < w.imm.toNat)) fun t s1 =>
    let v := readSv s1 q
    bump (endMicro (modSqr s1 q.val fun x => scalWrite w.sd
      (if w.imm = 0 then x.gv else if w.imm = 1 then x.tvr.zeroExtend 32 else v.signExtend 32) x) t q 1))

/-- The lowest TID that no request of an interface uses, outstanding or held (R265; log 18). -/
def freeTid (x : Ni) : BitVec 12 :=
  match (List.range 4096).find? fun i => !(x.out ++ x.held).any fun o => decide (o.tid.toNat = i) with
  | some i => BitVec.ofNat 12 i
  | none => 0

/-- The packet of a MEM access: four bytes at scratchpad address `a` for tenant `t`, on VC0, with the sequence number `sn`
(R164, R221, R252, R257). -/
def memPkt (m n : NiId) (t : Tenant) (tid : BitVec 12) (sn : BitVec 8) (write : Bool) (a v : Word) : Pkt :=
  { hver := 2, vc := 0, ty := if write then tyWrite else tyRead
    len := BitVec.ofNat 6 (if write then (a.toNat % 32 + 35) / 32 else 0)
    dx := BitVec.ofNat 3 (n.val / 2 % 6), dy := BitVec.ofNat 2 (n.val / 12), dp := decide (n.val % 2 = 1)
    sx := BitVec.ofNat 3 (m.val / 2 % 6), sy := BitVec.ofNat 2 (m.val / 12), sp := decide (m.val % 2 = 1)
    ten := t, dev := false, dor := false, tid := tid, sn := sn, res75 := false, nbytes := 4, status := 0, res47 := 0
    addr := a, resHi := 0, data := if write then leBytes 4 v.toNat else [] }

/-- The bank that serves a byte address of the scratchpad; one beyond the last bank goes to it and ends there with DECODE. -/
def bankOf (a : Word) : Nat := Nat.min 7 (a.toNat / bankBytes)

/-- The interface of a sequencer issues a request: it is open, and fewer than 64 are outstanding or held (R265, R270). -/
def mayIssue (x : Ni) : Bool := decide (x.st = .opened) && decide (x.out.length + x.held.length < 64)

/-- FN 13 MEM: an access of the program area or the argument block by scratchpad byte address, one at a time (R164; log 18). The
request waits at the interface for the command that sends it. While the interface issues none, the microword is held. -/
def execScalMem (q : SeqId) (w : ScalW) (s : State) : Outcome State Fault Refusal :=
  .next (if mayIssue (ni s (seqNi q.val).val) then runMicro s q (wordScal w 13) (fun x => x.mem.isSome) fun t s1 =>
      let m := seqNi q.val
      let x := sqr s1 q.val
      let n := bankNi (bankOf (msr x w.sa))
      let write := w.imm.getLsbD 0
      let key := orderKey m n 0
      let sn := SMap.get 0 s1.noc.sn key
      let tid := freeTid (ni s1 m.val)
      let p := memPkt m n t tid sn write (msr x w.sa) (msr x w.sb)
      let s2 := modNi s1 m.val fun y => { y with out := y.out ++ [⟨tid, n, 0, write, some p, false, none⟩] }
      let s3 : State := { s2 with noc := { s2.noc with sn := SMap.set 0 s2.noc.sn key (sn + 1) } }
      endMicro (modSqr s3 q.val fun y => { y with
        mem := some ⟨write, w.sd, msr y w.sa, msr y w.sb, tid, false⟩ }) t q 1
    else s)

/-- FN 14 SETLC: a counter and its reload value. DESIGN CHOICE (log 57): Z from the 16-bit result, N 0. -/
def execScalSetlc (q : SeqId) (w : ScalW) (s : State) : Outcome State Fault Refusal :=
  .next (runMicro s q (wordScal w 14) (fun _ => false) fun t s1 =>
    let sv := readSv s1 q
    bump (endMicro (modSqr s1 q.val fun x =>
      let v : Half := (if w.imm.getLsbD 9 then sv else (msr x w.sa).truncate 16) + (w.imm.truncate 8).zeroExtend 16
      { setLc x (w.sd.toNat % 4) ⟨v, v⟩ with z := decide (v = 0), n := false }) t q 1))

/-- FN 15 SCAN: a field scan of p planes at MA[SA[2:0]]; its result stands in SV 4 ac later. -/
def execScalScan (q : SeqId) (w : ScalW) (s : State) : Outcome State Fault Refusal :=
  .next (runMicro s q (wordScal w 15) (fun _ => false) fun t s1 =>
    let x := sqr s1 q.val
    startScan (endMicro s1 t q 1) t q (fieldScan s1 t x (maOf x (w.sa.toNat % 8)) (wordWidth x.il))
      (maOf x (w.sa.toNat % 8)) (wordWidth x.il))

/-! ### WAIT (R163) -/

/-- A WAIT of a routine ends: a MEM read completes. -/
def endMicroWait (s : State) (t : Tenant) (q : SeqId) (w : Wait) : State :=
  let s1 := modSqr s q.val fun x =>
    let y := { x with ws := none }
    if w.cond = 2 then
      match y.mem with
      | some m => if m.write then { y with mem := none } else scalWrite m.dest m.data { y with mem := none }
      | none => y
    else y
  endMicro s1 t q 1

/-- A WAIT at its issue: afresh, or with the state that RTT restored for it (R163, R177). -/
def issuedWait (x : Sequencer) (w : WaitW) : Wait :=
  match x.wsBack with
  | some b => if b.cond = w.cond then { b with imm := w.imm, nt := w.nt } else ⟨w.cond, w.imm, w.nt, 0, 0, false, false, none⟩
  | none => ⟨w.cond, w.imm, w.nt, 0, 0, false, false, none⟩

/-- WAIT: hold until the condition is met. -/
def execWait (q : SeqId) (w : WaitW) (s : State) : Outcome State Fault Refusal :=
  .next (runMicro s q (wordWait w) (fun x => decide (w.cond = 7 ∨ w.res ≠ 0) || x.loop.isSome) fun t s1 =>
    let h := issuedWait (sqr s1 q.val) w
    let s2 := modSqr s1 q.val fun x => { x with wsBack := none }
    if waitMet s2 t q h then endMicroWait s2 t q h
    else modSqr s2 q.val fun x => { x with ws := some h })

/-- A held WAIT's condition becomes true (R163); WAITEV and INWAIT end with status 0. -/
def execWaitConditionMet (q : SeqId) (s : State) : Outcome State Fault Refusal :=
  .next (match (sqr s q.val).bound, (sqr s q.val).ws with
    | some t, some w =>
      if waitMet s t q w && !frozen s && decide ((sqr s q.val).service = .inService) then
        match w.ais with
        | some a => endAisWait s t q a 0
        | none => endMicroWait s t q w
      else s
    | _, _ => s)

/-- A WAIT has reached 4,096 ac with its condition unmet: cause 4, resuming at the interrupted microword, but not while the
supply-warning freeze, which comes first, is in force (R163, R173, R177, R514). -/
def execMicroTimeout (q : SeqId) (s : State) : Outcome State Fault Refusal :=
  .next (match (sqr s q.val).bound, (sqr s q.val).ws with
    | some t, some w =>
      if w.nt = false ∧ w.cond ≠ 4 ∧ w.ais = none ∧ w.acCount = 4096 ∧ waitMet s t q w = false ∧ frozen s = false ∧
          (runOrder s t).isSome = true then
        let x := sqr s q.val
        raiseTrap s t q 4 0 x.pc.toNat x.pc.toNat x.upc.toNat
      else s
    | _, _ => s)

/-! ### BR, CALL, RET and LOOP (R165, R166, R171) -/

/-- A branch inside a loop body, a reserved bit, or a scan outside a dispatch entry. -/
def brBadW (w : BrW) (x : Sequencer) : Bool :=
  decide (w.res ≠ 0 ∨ w.scan = 3) || (decide (w.scan ≠ 0) && decide (512 ≤ x.upc.toNat)) || x.loop.isSome

/-- The field scan that a dispatch entry asks for (R155, R165). -/
def entryScan (s : State) (t : Tenant) (q : SeqId) (w : BrW) : State :=
  if w.scan = 0 then s
  else
    let x := sqr s q.val
    startScan s t q (fieldScan s t x (maOf x w.scan.toNat) (wordWidth x.il)) (maOf x w.scan.toNat) (wordWidth x.il)

/-- BR with COND 0–4. -/
def execMicroBr (q : SeqId) (w : BrW) (s : State) : Outcome State Fault Refusal :=
  .next (runMicro s q (wordBr w w.cond) (fun x => brBadW w x || decide (4 < w.cond.toNat)) fun t s1 =>
    let x := sqr s1 q.val
    let taken := match w.cond.toNat with
      | 0 => true
      | 1 => x.gv.getLsbD w.bit.toNat
      | 2 => !x.gv.getLsbD w.bit.toNat
      | 3 => x.z
      | _ => !x.z
    let s2 := endMicro s1 t q 1
    entryScan (if taken then modSqr s2 q.val fun y => { y with upc := w.tgt } else s2) t q w)

/-- CALL: push µPC + 1, then branch. -/
def execMicroCall (q : SeqId) (w : BrW) (s : State) : Outcome State Fault Refusal :=
  .next (runMicro s q (wordBr w 5) (fun x => brBadW w x || decide (4 ≤ x.rs.length)) fun t s1 =>
    let u := (sqr s1 q.val).upc
    modSqr (endMicro s1 t q 1) q.val fun y => { y with rs := y.rs ++ [u + 1], upc := w.tgt })

/-- RET: pop µPC. -/
def execMicroRet (q : SeqId) (w : BrW) (s : State) : Outcome State Fault Refusal :=
  .next (runMicro s q (wordBr w 6) (fun x => brBadW w x || x.rs.isEmpty) fun t s1 =>
    let u := (sqr s1 q.val).rs.getLastD 0
    modSqr (endMicro s1 t q 1) q.val fun y => { y with rs := y.rs.dropLast, upc := u })

/-- LOOP: the following words run as a body. An inner length above the body's counts as the body's (log 18). -/
def execLoop (q : SeqId) (w : LoopW) (s : State) : Outcome State Fault Refusal :=
  .next (runMicro s q (wordLoop w) (fun x => decide (w.cp = 3 ∨ w.res ≠ 0) || x.loop.isSome) fun t s1 =>
    let g := (sqr s1 q.val).gw.width
    let act := (elems s1 g (ownTiles s1 t)).filter (active s1 g)
    let s2 := if w.cp = 0 then s1 else act.foldl (fun u e => setC u g e (decide (w.cp = 2))) s1
    let s3 := if w.rs then act.foldl (fun u e =>
        let k := e.lane g 0
        setPeRes u k ((peRes u k).extractLsb' 2 4 ++ (if (pe u k).c then 1#2 else 0#2))) s2
      else s2
    let s4 := endMicro s3 t q 1
    modSqr s4 q.val fun x =>
      let n := w.blen.toNat + 1
      let l : Loop := ⟨x.upc, n, Nat.min w.ilen.toNat n, 0, w.lco.toNat, w.lci.toNat, false⟩
      if (lcVal x l.lco).val = 0 then exitLoop x l else startPass x l)

/-! ### GOR (R48, R49, R51, R167) -/

/-- GOR: sample F AND K of every PE of the tenant. -/
def execGor (q : SeqId) (w : GorW) (s : State) : Outcome State Fault Refusal :=
  .next (runMicro s q (wordGor w) (fun _ => decide (w.res ≠ 0)) fun t s1 =>
    let g := (sqr s1 q.val).gw.width
    let f : GorFlight := ⟨w.tag, w.tv, tileVec s1 t g, deviceOr s1 t g, false⟩
    endMicro (modSqr s1 q.val fun x => { x with gv := if w.cg then 0 else x.gv, gors := x.gors ++ [f] }) t q 1)

/-- Deliver the oldest tile vector that is still in flight. -/
def deliverVec : List GorFlight → Option (GorFlight × List GorFlight)
  | [] => none
  | g :: r => if g.vecDone then (deliverVec r).map fun p => (p.1, g :: p.2) else some (g, { g with vecDone := true } :: r)

/-- A tile vector or device result arrives. A result whose parity fails at an OR level, of the tile named or above the tiles, is not delivered: a machine check under R39, to which the
tile of the failing level, where it is one, counts (R48, R51, R64). -/
def execGorResultDelivery (q : SeqId) (device : Bool) (failed : Option (Option TileId)) (s : State) :
    Outcome State Fault Refusal :=
  let x := sqr s q.val
  .next (if x.gors.isEmpty then s
    else match x.bound with
      | none => s
      | some t =>
        let ps := physTiles s (ownTiles s t)
        match failed with
        | some from_ =>
          let s1 := checkMark (modSqr s q.val fun y => { y with gors := y.gors.drop 1 })
          let bad := from_.toList.filter fun p => ps.contains p
          takeMark (if bad.any fun p => (tile s p.val).linkErr then linkSample s1 ps bad
            else recompute (linkSample s1 ps bad) t)
        | none =>
          let s1 := linkSample s ps []
          if device then
            match x.gors with
            | g :: r => modSqr s1 q.val fun y => { deliverGor y g with gors := r }
            | [] => s1
          else
            match deliverVec x.gors with
            | some (g, r) => modSqr s1 q.val fun y => { y with gors := r, tvr := if g.tv then g.vec else y.tvr }
            | none => s1)

/-! ### BCAST, TRAPCHK and RESCHK (R122, R168–R170) -/

/-- BCAST: load BL. -/
def execBcast (q : SeqId) (w : BcastW) (s : State) : Outcome State Fault Refusal :=
  .next (runMicro s q (wordBcast w) (fun _ => decide (w.res ≠ 0)) fun t s1 =>
    endMicro (modSqr s1 q.val fun x => { x with bl := (BitVec.ofBool w.sx ++ w.bit) ++ w.sreg }) t q 1)

/-- The resume PC of a trap that TRAPCHK raises (R514). -/
def chkResume (x : Sequencer) (cause : Nat) : Nat := if cause = 2 ∨ cause = 4 then x.pc.toNat else (x.pc + 1).toNat

/-- TRAPCHK modes 0–2: raise CAUSE always, if Z, or if GV[BIT] = 1. DESIGN CHOICE (log 58): µPC of the frame is 0xFFFF, as for a
trap at an instruction boundary. -/
def execTrapchkRaise (q : SeqId) (w : TrapW) (s : State) : Outcome State Fault Refusal :=
  let c := w.cause.toNat
  .next (if w.mode = 3 then s else
    runMicro s q (wordTrapchk w) (fun _ => decide (w.res ≠ 0) || decide (8 ≤ c ∧ c < 16)) fun t s1 =>
      let x := sqr s1 q.val
      let hit := match w.mode.toNat with
        | 0 => true
        | 1 => x.z
        | _ => x.gv.getLsbD w.bit.toNat
      if hit then
        let d := if c = 1 then w.detail.toNat else if c = 7 then x.il.toNat / 8 % 8 else 0
        raiseTrap (addTime s1 t 1) t q c d x.pc.toNat (chkResume x c) noUpc
      else endMicro s1 t q 1)

/-- TRAPCHK mode 3: an instruction boundary. -/
def execTrapchkBoundary (q : SeqId) (w : TrapW) (s : State) : Outcome State Fault Refusal :=
  .next (if w.mode ≠ 3 then s else
    runMicro s q (wordTrapchk w) (fun _ => decide (w.res ≠ 0)) fun t s1 =>
      boundary (modSqr (endMicro s1 t q 1) q.val fun x => { x with midRoutine := false }) t q)

/-- FL of a RESCHK: OV ← OV OR C, NOT C or V (R170). -/
def reschkFlag (s0 : State) (w : ReschkW) (u : State) (k : Nat) : State :=
  let x := pe s0 k
  let ov := match w.fl.toNat with
    | 1 => x.c
    | 2 => !x.c
    | 3 => x.v
    | _ => false
  if ov then setSticky u k flagOV else u

/-- What RESCHK does in one slice: a mismatch sets the residue-error latch; FL updates OV. -/
def reschkSlice (s0 : State) (w : ReschkW) (prod : Bool) (g : Nat) (u : State) (e : Elem) : State :=
  let k := e.lane g 0
  let x := pe s0 k
  let p := peRes s0 k
  let ra := (p.extractLsb' 0 2).toNat
  let rb := (p.extractLsb' 2 2).toNat
  let rr := (p.extractLsb' 4 2).toNat
  let ok := if prod then decide (rr % 3 = ra * rb % 3)
    else decide ((rr + x.c.toNat * (if w.k2 then 2 else 1)) % 3 = (ra + rb) % 3)
  let u1 := if ok then u else setPe u k { pe u k with residueErr := true }
  reschkFlag s0 w u1 k

def reschk (s : State) (q : SeqId) (w : ReschkW) (prod : Bool) : State :=
  runMicro s q (wordReschk w (if prod then 1 else 0)) (fun _ => decide (w.res ≠ 0)) fun t s1 =>
    let g := (sqr s1 q.val).gw.width
    endMicro (((elems s1 g (ownTiles s1 t)).filter (active s1 g)).foldl (reschkSlice s1 w prod g) s1) t q 1

/-- RESCHK SUM: RR + C × k ≡ RA + RB. -/
def execReschkSum (q : SeqId) (w : ReschkW) (s : State) : Outcome State Fault Refusal := .next (reschk s q w false)
/-- RESCHK PROD: the product relation. -/
def execReschkProd (q : SeqId) (w : ReschkW) (s : State) : Outcome State Fault Refusal := .next (reschk s q w true)

/-- RESCHK clear: RA, RB and RR of active PEs, with the first weight next; FL acts as in the other relations. -/
def execReschkClear (q : SeqId) (w : ReschkW) (s : State) : Outcome State Fault Refusal :=
  .next (runMicro s q (wordReschk w 2) (fun _ => decide (w.res ≠ 0)) fun t s1 =>
    let g := (sqr s1 q.val).gw.width
    endMicro (((elems s1 g (ownTiles s1 t)).filter (active s1 g)).foldl (fun u e =>
      let k := e.lane g 0
      reschkFlag s1 w (setPeRes (setPe u k { pe u k with weight2 := false }) k 0) k) s1) t q 1)

/-! ### Flag ORs -/

/-- A flag OR arrives (R141): it enters FSUM and the pending mask, and at a boundary the trap is taken. -/
def execFlagOrResult (t : Tenant) (s : State) : Outcome State Fault Refusal :=
  .next (match seqOf s t with
    | none => s
    | some q =>
      match (sqr s q.val).flagOrs with
      | [] => s
      | f :: r => boundary (takeFlagOr (modSqr s q.val fun x => { x with flagOrs := r }) t f) t q)

end Sys2Proof.Machine
end

