-- ==== Sys2Proof/Machine/Faults.lean ====
section
/-! DEFINITION. The events of tiles, sequencers and trap contexts, the WCS scan, and the ramps of polders
(R39, R62–R66, R140, R180, R181, R422, R423). -/

namespace Sys2Proof.Machine

open Host (Outcome)

/-! ### Tiles -/

/-- POLDER_MONITOR_TRIP: the polder's supply or clock monitor trips (R64). -/
def execPolderMonitorTrip (p : TileId) (s : State) : Outcome State Fault Refusal :=
  .next (takeMark (if (tile s p.val).service = .inService then tileFault s p else s))

/-- A destructive march of a tile in RETEST ends (R65). -/
def execTileRetestMarchComplete (p : TileId) (passed : Bool) (s : State) : Outcome State Fault Refusal :=
  .next (tileMarched s p passed)

/-- The periodic march of a spare ends: a failure is a declared fault, and the tile stays OFF for good (R64, R65). -/
def execSparePeriodicMarch (p : TileId) (passed : Bool) (s : State) : Outcome State Fault Refusal :=
  .next (if (tile s p.val).service ≠ .spare ∨ passed = true then s
    else setTileSvc (modTile s p.val fun y => { y with faults := satInc y.faults }) p .failed)

/-! ### Sequencers and trap contexts -/

/-- MACHINE_CHECK: the error OR names a tile, a sequencer's registers or a trap context. -/
def execMachineCheck (src : McSource) (s : State) : Outcome State Fault Refusal := .next (takeMark (machineCheck s src))

/-- The periodic scan finds a parity error in a free context (R140). -/
def execTrapContextScan (k : Fin 3) (s : State) : Outcome State Fault Refusal :=
  .next (if (ctx s k.val).st = .free then
      logEvent (setCtx s k.val { TrapCtx.initial with st := .retired }) 0x0206 2 [] k.val k.val []
    else s)

/-- WCS_SCAN: every word with wrong parity is mended (R180, R181). -/
def execWcsScan (q : SeqId) (s : State) : Outcome State Fault Refusal :=
  .next ((sqr s q.val).wcsBad.foldl (fun u e => mendWord u q e.1) s)

/-! ### Ramps (R17, R62, R422, R423, R434) -/

/-- What waits for a tile's owner to have its tiles AWAKE: a re-execution, and landings of the oldest order. -/
def onAwake (s : State) (t : Tenant) : State :=
  landOldest (tryReexec s t) t

/-- The tenant's polders have nothing to stay AWAKE for: no hold runs, no order runs and none is ready (R17, R24, R62). -/
def holdOver (s : State) (t : Tenant) : Bool := !(ten s t).holdRunning && (runOrder s t).isNone && (readyOrder s t).isNone

/-- A dwell ends: the clock steps to the adjacent ratio, or the ramp ends. Ramps hold during a VCORE warning (R423). A tile that
reaches AWAKE when its tenant's idle hold is over ramps down again (R24; log 72). -/
def execPolderRampDwellEnd (p : TileId) (s : State) : Outcome State Fault Refusal :=
  .next (if s.sup.vcore ≠ .normal then s
    else match (tile s p.val).polder with
      | .up r second fromOff =>
        if r < endRatio s then modTile s p.val fun x => { x with polder := .up (r + 1) false fromOff }
        else if endRatio s ≠ 7 ∧ second = false then modTile s p.val fun x => { x with polder := .up (endRatio s) true fromOff }
        else
          let s1 := awaken s p.val (endRatio s) fromOff
          match ownerOf s1 p with
          | some t => onAwake (if holdOver s1 t then sleepPolder s1 p.val else s1) t
          | none => sleepPolder s1 p.val
      | .down _ => if (ni s (tileNi p.val).val).st.isClosing then s else rampDownStep s p.val
      | .awake r => if r = endRatio s then s else modTile s p.val fun x => { x with polder := .awake (endRatio s) }
      | _ => s)

/-- The idle hold of a tenant ends: its polders ramp down (R17, R434). -/
def execIdleHoldExpiry (t : Tenant) (s : State) : Outcome State Fault Refusal :=
  .next (if (ten s t).holdRunning && (runOrder s t).isNone && (readyOrder s t).isNone then
      modTen ((physTiles s (ownTiles s t)).foldl (fun u p => sleepPolder u p.val) s) t fun x => { x with holdRunning := false }
    else s)

end Sys2Proof.Machine
end

