-- ==== Sys2Proof/Machine/Identity.lean ====
section
/-! DEFINITION. Attestation, key records, firmware updates, microcode patches and migration, housekeeping pairs
(R153–R155, R182–R188, R210, R389, R455–R473). -/

namespace Sys2Proof.Machine

open Host (Outcome)

/-! ### Attestation (R466–R468) -/

def att (s : State) (t : Tenant) : Att := SMap.get Att.initial s.ident.att t.val
def setAtt (s : State) (t : Tenant) (v : Att) : State :=
  { s with ident := { s.ident with att := SMap.set Att.initial s.ident.att t.val v } }

/-- An entry that a reader does not receive: regions and ownership records of others, for T1–T3. -/
def withheld (s : State) (t : Tenant) (kind : Nat) : Bool :=
  decide (t ≠ 0) && ((decide (4 ≤ kind ∧ kind ≤ 11) && decide (regionOwner s (kind - 4) ≠ some t)) ||
    (decide (12 ≤ kind ∧ kind ≤ 15) && decide (kind - 12 ≠ t.val)))

/-- The log as a tenant receives it. -/
def snapLog (s : State) (t : Tenant) : SMap Meas :=
  (List.range 18).foldl (fun m k =>
    SMap.set Meas.absent m k
      (if withheld s t k then { Meas.absent with state := 3 } else SMap.get Meas.absent s.ident.meas k)) []

/-- NONCE: the log is snapshotted and the request queued. -/
def applyNonce (s : State) (t : Tenant) (d : Bytes) : Answer :=
  if (att s t).state = 1 ∨ (att s t).state = 2 then (0x08000022, s)
  else
    let s1 := setAtt s t ⟨1, d, s.time, snapLog s t, []⟩
    (0, { s1 with ident := { s1.ident with attQueue := s1.ident.attQueue ++ [t] } })

/-- ATTESTATION_SIGN_START: the oldest request has its turn. -/
def execAttestationSignStart (s : State) : Outcome State Fault Refusal :=
  .next (match s.ident.attQueue with
    | t :: _ => if (att s t).state = 1 then setAtt s t { att s t with state := 2 } else s
    | [] => s)

/-- The signed bytes of a response (R467). -/
def attBody (s : State) (t : Tenant) (a : Att) : Bytes :=
  leBytes 4 (0x01120000 + 256 * s.start.kind.toNat + t.val) ++ leBytes 4 serialNo.toNat ++ leBytes 8 a.snapTime.toNat ++
    a.nonce ++ leBytes 4 s.start.cold.toNat ++ leBytes 4 s.start.warm.toNat ++ List.replicate 8 0 ++
    (List.range 18).flatMap fun k => (SMap.get Meas.absent a.snap k).bytes k

/-- ATTESTATION_SIGN_COMPLETE: the response is ready, or the signing loop found no signature. -/
def execAttestationSignComplete (found : Bool) (s : State) : Outcome State Fault Refusal :=
  .next (match s.ident.attQueue with
    | t :: r =>
      let a := att s t
      if a.state = 2 then
        let body := attBody s t a
        let s1 := setAtt s t (if found then { a with state := 3, response := body ++ Config.deviceSign body }
          else { a with state := 4 })
        { s1 with ident := { s1.ident with attQueue := r } }
      else s
    | [] => s)

/-! ### Key records (R459, R460) -/

/-- A key takes its slot: 0 IK, 1 to 3 TK; a key of zeros empties a TK slot. The old key stays while something it verified is in
use. -/
def storeKey (s : State) (slot : Nat) (key : Bytes) : State :=
  let old := if slot = 0 then s.ident.ik else SMap.get none s.ident.tk slot
  let kept := match old with
    | some o => if keepsOldKeys s then o :: s.ident.oldKeys else s.ident.oldKeys
    | none => s.ident.oldKeys
  let new := if allZero key then none else some key
  if slot = 0 then { s with ident := { s.ident with ik := new, oldKeys := kept } }
  else { s with ident := { s.ident with tk := SMap.set none s.ident.tk slot new, oldKeys := kept } }

/-- KEY_RECORD. The first record for IK is unsigned, and the maintenance port alone may write it. -/
def applyKeyRecord (s : State) (k : SesId) (d : Bytes) : Answer :=
  if d.length < 16 then (0x06070013, s)
  else
    let slot := leAt d 2 1
    let key := slice d 0x10 1952
    let ctr := BitVec.ofNat 32 (leAt d 4 4)
    let unsigned := decide (d.length = 1968)
    let first := decide (slot = 0 ∧ k = 4) && s.ident.ik.isNone
    if leAt d 3 1 ≠ 1 ∨ 3 < slot ∨ leAt d 0 2 ≠ 0 ∨ allZero (slice d 8 8) = false ∨
        (d.length ≠ 5277 ∧ unsigned = false) ∨ (unsigned = true ∧ first = false) then (0x08000000, refuse s k 6 4)
    else
      let bad := if unsigned then (if ctr.toNat < (counter s ctrKey).toNat then some 2 else none)
        else checkSig s s.ident.ik "AZ6516/KEY" (d.take 0x7B0) (d.drop 0x7B0) ctrKey ctr
      match bad with
      | some r => (0x08000000, refuse s k 6 r)
      | none =>
        if slot = 0 ∧ allZero key = true then (0x08000000, refuse s k 6 6)
        else (0, measureKeys (storeKey (takeEffect s ctrKey ctr) slot key))

/-! ### Control store image (R153, R154, R188) -/

/-- The 65,536 bytes of an image: the golden copy is given by the words that differ from the shipped image. -/
def imageBytes (m : SMap Word) : Bytes := (List.range 16384).flatMap fun k => leBytes 4 (storeWord m k).toNat

/-! ### Firmware (R464, R470–R472) -/

def setFw (s : State) (f : Fw → Fw) : State := { s with ident := { s.ident with fw := f s.ident.fw } }

/-- The inactive bitstream slot holds no bitstream (R471 step 5). -/
def emptySlot (s : State) : State :=
  { s with fab := { s.fab with slots := SMap.set [] s.fab.slots (if s.fab.slotB then 0 else 1) [] } }

def fwBoot (d : Bytes) : Bytes := slice d 3565 (leAt d 8 4)
def fwImage (d : Bytes) : Bytes := slice d (3565 + leAt d 8 4) (leAt d 0x0C 4)

/-- The format of the file. -/
def fwFormat (d : Bytes) : Bool :=
  decide (leAt d 3 1 = 1 ∧ leAt d 0 3 = 0 ∧ leAt d 8 4 ≤ 12819 ∧ leAt d 0x0C 4 ≤ 98304 ∧
    d.length = 3565 + leAt d 8 4 + leAt d 0x0C 4) && allZero (slice d 0xD0 48)

/-- Steps 1 to 5 of R462 for a firmware file: the reason of a refusal. -/
def fwCheck (s : State) (d : Bytes) : Option Byte :=
  if !fwFormat d then some 4
  else match checkSig s (some Config.vendorKey) "AZ6516/FW" (d.take 0x100) (slice d 0x100 3309) ctrFw (BitVec.ofNat 32 (leAt d 4 4)) with
    | some r => some r
    | none =>
      if slice d 0x10 64 ≠ Config.shake256 (fwBoot d) ∨ slice d 0x50 64 ≠ Config.shake256 (fwImage d) then some 4
      else if slice d 0x90 64 ≠ Config.shake256 (imageBytes s.mc.golden) then some 5
      else none

/-- The standby housekeeping pair is in service. -/
def standbyOk (s : State) : Bool := if s.start.pairActive = 0 then s.start.pairB else s.start.pairA

/-- FIRMWARE: checked, then loaded into the standby pair, or in SAFE SHELL stored for the next cold start. -/
def applyFirmware (s : State) (k : SesId) (d : Bytes) : Answer :=
  let st := s.ident.fw.state
  if d.length < 3565 then (0x06070013, s)
  else if s.mc.patchState = 1 ∨ s.mc.patchState = 2 ∨ s.fab.load.isSome = true ∨ s.fab.owed ≠ [] ∨ standbyOk s = false ∨
      st = 2 ∨ st = 3 ∨ st = 4 then (0x08000022, s)
  else match fwCheck s d with
    | some r => (0x08000000, setFw (refuse s k 1 r) fun f => { f with state := 6 })
    | none =>
      let s1 := setPending s ctrFw (BitVec.ofNat 32 (leAt d 4 4))
      if s.start.mode = .safeShell then (0, setFw (emptySlot s1) fun f => { f with state := 8, flashFile := some d })
      else (0, setFw s1 fun f => { f with state := 2, file := some d })

/-- Step 5 of R471 ends: boot region and firmware stand in flash, and the counter is raised. -/
def fwStored (s : State) (d : Bytes) : State :=
  let v := BitVec.ofNat 32 (leAt d 4 4)
  measure (setFw (takeEffect s ctrFw v) fun f => { f with
    state := 5, file := none, boot := fwBoot d, image := fwImage d }) 0 v (fwBoot d)

/-- FIRMWARE_ROLE_SWAP: the standby pair fails its lockstep check and the update ends; or the pairs exchange roles and flash is
rewritten; a rewrite cut off leaves the backup for the next cold start (R472). -/
def execFirmwareRoleSwap (standbyLockstep flashOk : Bool) (s : State) : Outcome State Fault Refusal :=
  .next (match s.ident.fw.file with
    | some d =>
      if s.ident.fw.state ≠ 2 then s
      else if !standbyLockstep then setFw (setPending s ctrFw 0) fun f => { f with state := 6, file := none }
      else
        let img := fwImage d
        let s1 := setFw s fun f => { f with version := Config.fwVersion img, build := fwBuildOf img }
        let s2 := measure { s1 with start := { s1.start with pairActive := 1 - s1.start.pairActive } } 1
          (BitVec.ofNat 32 (leAt d 4 4)) img
        let s3 := emptySlot s2
        if flashOk then fwStored s3 d
        else setFw { s3 with fab := { s3.fab with backup := true } } fun f => { f with state := 4 }
    | none => s)

/-- A housekeeping pair is declared faulted: its sluice closes, the standby pair takes over, and a firmware update under way stops (R210, R211, R270, R472). -/
def pairFault (s : State) (pair : Fin 2) : State :=
  let x := s.start
  let alive := if pair = 0 then x.pairA else x.pairB
  let active := decide (x.pairActive = pair)
  let s1 := { s with start := { x with
    pairA := x.pairA && decide (pair ≠ 0), pairB := x.pairB && decide (pair ≠ 1),
    pairActive := if active && standbyOk s then 1 - pair else x.pairActive } }
  let s2 := if s.ident.fw.state = 2 ∨ s.ident.fw.state = 3 ∨ s.ident.fw.state = 4 then
      setFw (setPending s1 ctrFw 0) fun f => { f with state := 7, file := none }
    else s1
  let n : NiId := if pair = 0 then 24 else 34
  let s3 := sendClear (closeNi s2 n.val .draining) n n true
  if !alive then s else if active then partFault s3 [] 6 pair.val (!standbyOk s).toNat else s3

/-- HOUSEKEEPING_PAIR_FAULT: a pair is found faulted. -/
def execHousekeepingPairFault (pair : Fin 2) (s : State) : Outcome State Fault Refusal := .next (takeMark (pairFault s pair))

/-! ### Patch bundles (R184, R185, R389) -/

/-- A dispatch entry of a reserved encoding (R78, R153). -/
def reservedEntry (k : Nat) : Bool :=
  let n := [0, 7, 16, 16, 8, 4, 3, 11, 10, 10, 5].getD (k / 32) 0
  decide (k < 512) && (decide (n ≤ k % 32) || decide (k = 32 * 2 + 11))

/-- A record of a bundle: WCS address, microword. -/
def patchRec (d : Bytes) (i : Nat) : Nat × Nat := (leAt d (0x40 + 8 * i) 2, leAt d (0x44 + 8 * i) 4)

/-- The reserved fields of a bundle of N records are zero. -/
def patchReserved (d : Bytes) (n : Nat) : Bool :=
  decide (leAt d 0 3 = 0 ∧ leAt d 0x18 4 = 0) && allZero (slice d 0x28 24) &&
    (List.range n).all fun i => decide ((patchRec d i).1 < 16384 ∧ leAt d (0x42 + 8 * i) 2 = 0)

/-- The image that a bundle's records make of the present one. -/
def patchedWords (s : State) (d : Bytes) (n : Nat) : SMap Word :=
  (List.range n).foldl (fun m i =>
    let r := patchRec d i
    SMap.set (storeWord [] r.1) m r.1 (BitVec.ofNat 32 r.2)) s.mc.golden

/-- The content checks of R184: the reason of a refusal. -/
def patchContent (s : State) (d : Bytes) (n : Nat) : Option Byte :=
  if slice d 0x0C 8 ≠ s.mc.digest then some 5
  else if (List.range n).any (fun i => reservedEntry (patchRec d i).1) ||
      (List.range n).any (fun i => decide ((patchRec d i).1 < 512 ∧ (patchRec d i).2 / 2 ^ 23 ≠ 6 * 8)) then some 6
  else if slice d 0x1C 8 ≠ (Config.shake256 (imageBytes (patchedWords s d n))).take 8 then some 4
  else if (spareSeq s).isNone then some 6
  else none

/-- A rejected bundle: PATCH_STATE 4 and the event. -/
def rejectPatch (s : State) (k : SesId) (reason : Byte) (abort : Word) : Answer :=
  let s1 := refuse s k 2 reason
  (abort, logEvent { s1 with mc := { s1.mc with patchState := 4 } } 0x0207 1 [] 0 4 [])

/-- An image written to the sequencer reads back as it was written. -/
def imageSound (s : State) (q : SeqId) : Bool := (stuckWords (sqr s q.val)).isEmpty

/-- The sequencer holds the patched image. -/
def loadPatched (s : State) (q : SeqId) : State :=
  match s.mc.patch with
  | some p =>
    { modSqr s q.val (loadStore p.words true) with
      mc := { s.mc with patch := some { p with loaded := q :: p.loaded } } }
  | none => s

/-- The bound sequencers that still wait for the patched image, ascending. -/
def patchWaits (s : State) : List SeqId :=
  match s.mc.patch with
  | some p => (List.finRange 5).filter fun q => (sqr s q.val).bound.isSome && !p.loaded.contains q
  | none => []

/-- Step 5 of R185: the golden copies, MCVER and its digest take the patched image, and the counter is raised; a working
sequencer without a tenant loads it too. -/
def finishPatch (s : State) : State :=
  match s.mc.patch with
  | none => s
  | some p =>
    if s.mc.patchState ≠ 2 ∨ patchWaits s ≠ [] ∨ p.current.isSome = true then s
    else
      let s1 := (List.range 5).foldl (fun u q =>
        if (sqr u q).service = .failed then u else modSqr u q (loadStore p.words false)) s
      let s2 := { takeEffect s1 ctrMc p.counter with
        mc := { mcver := p.version, digest := p.digest, patchState := 3, golden := p.words, flash := p.words, patch := none } }
      emergency (measure s2 2 p.counter (imageBytes p.words)) [0] 0x6030 [3]

/-- PATCH_BUNDLE: checked; accepted, the spare loads the patched image, verifies it, and the rotation begins; where the staging
digest or the read-back fails, the update stops (R187). A bundle during a rotation is rejected and leaves the rotation as it is. -/
def applyPatch (s : State) (k : SesId) (d : Bytes) : Answer :=
  let n := leAt d 0x24 4
  let ctr := BitVec.ofNat 32 (leAt d 4 4)
  if d.length < 64 then (0x06070013, s)
  else if s.mc.patchState = 2 then (0x08000022, logEvent s 0x0207 1 [] 0 s.mc.patchState.toNat [])
  else if leAt d 3 1 ≠ 1 ∨ n = 0 ∨ 4096 < n then rejectPatch s k 4 0x08000000
  else if d.length ≠ 3373 + 8 * n then rejectPatch s k 4 0x06070010
  else if !patchReserved d n then rejectPatch s k 4 0x06090030
  else match checkSig s (some Config.vendorKey) "AZ6516/MC" (d.take (64 + 8 * n)) (d.drop (64 + 8 * n)) ctrMc ctr with
    | some r => rejectPatch s k r 0x08000000
    | none => match patchContent s d n, spareSeq s with
      | none, some c =>
        let old := match s.mc.patch with
          | some p => p.words
          | none => []
        let p : Patch :=
          { version := BitVec.ofNat 32 (leAt d 0x14 4), digest := slice d 0x1C 8, words := patchedWords s d n, prev := old
            counter := ctr, loaded := [], current := none }
        let s1 := setPending { s with mc := { s.mc with patchState := 2, patch := some p } } ctrMc ctr
        (0, if imageSound s1 c then finishPatch (loadPatched s1 c) else patchStop s1)
      | some r, _ => rejectPatch s k r 0x08000000
      | none, none => rejectPatch s k 6 0x08000000

/-! ### Migration (R182, R186) -/

/-- Every item of R151 but the WCS moves with the tenant. -/
def moveSeq (s : State) (src dst : SeqId) (left : SeqService) : State :=
  let x := sqr s src.val
  let y := sqr s dst.val
  let s1 := modSqr s dst.val fun _ =>
    { x with service := y.service, image := y.image, repairs := y.repairs, wcs := y.wcs, wcsBad := y.wcsBad, regError := false }
  let s2 := modSqr s1 src.val fun _ =>
    { Sequencer.initial with service := x.service, image := x.image, repairs := x.repairs, wcs := x.wcs, wcsBad := x.wcsBad }
  let s3 := setSeqSvc (setSeqSvc (setSeqSvc s2 src .migrating) dst .inService) src left
  match x.bound with
  | some t => modRun s3 t fun o =>
      let pause := (Config.freeWord (freshNum s) 400).toNat % (10 * usTicks + 1)
      { o with runTicks := o.runTicks + pause, sinceTicks := o.sinceTicks + pause }
  | none => s3

/-- The requests of the tenant's stream that are outstanding or held pass to the other sequencer's interface with it. -/
def moveRequests (s : State) (src dst : SeqId) : State :=
  let x := ni s (seqNi src.val).val
  let s1 := modNi s (seqNi dst.val).val fun y => { y with out := y.out ++ x.out, held := y.held ++ x.held }
  modNi s1 (seqNi src.val).val fun y => { y with out := [], held := [] }

/-- Any trap point of a bound sequencer, within a WAIT and with a request outstanding too; the supply-warning freeze comes first
(R173, R186). -/
def canMove (s : State) (q : SeqId) : Bool := (sqr s q.val).bound.isSome && !frozen s

/-- MIGRATION during an update: out to the spare, and the sequencer left loads the patched image; or, where it has verified the
image, back to it, and the spare is free for the next one. A read-back that fails stops the update (R182, R185–R187). -/
def execMigration (src dst : SeqId) (s : State) : Outcome State Fault Refusal :=
  .next (match s.mc.patch with
    | none => s
    | some p =>
      if s.mc.patchState ≠ 2 ∨ canMove s src = false then s
      else match p.current with
        | none =>
          if (patchWaits s).head? = some src ∧ spareSeq s = some dst then
            let s1 := moveRequests (bump (moveSeq s src dst .loading)) src dst
            { s1 with mc := { s1.mc with patch := s1.mc.patch.map fun q => { q with current := some src } } }
          else s
        | some c =>
          if c = dst ∧ (sqr s dst.val).service = .loading then
            if !imageSound s dst then patchStop s
            else
            let s1 := moveRequests (bump (moveSeq (loadPatched s dst) src dst .spare)) src dst
            finishPatch { s1 with mc := { s1.mc with patch := s1.mc.patch.map fun q => { q with current := none } } }
          else s)

end Sys2Proof.Machine
end

