-- ==== Sys2Proof/Machine/Index.lean ====
section
/-! DEFINITION. The index map: which indexes and subindexes exist, and from which interface version
(R188, R220, R246, R276, R296, R334, R362, R363, R365, R374, R376–R382, R402, R409, R411, R439, R447, R454, R473, R488). -/

namespace Sys2Proof.Machine

/-- An index as its table writes it, with the instance it names: channel, group, connection or tenant. -/
structure Loc where
  base : Nat
  inst : Nat
  deriving DecidableEq, Repr

def locOf (i : Nat) : Loc :=
  if 0x7000 ≤ i ∧ i < 0x7200 then ⟨0x7000, i - 0x7000⟩
  else if 0x6420 ≤ i ∧ i < 0x6440 then ⟨0x6420, i - 0x6420⟩
  else if 0x6400 ≤ i ∧ i < 0x6404 then ⟨0x6400, i - 0x6400⟩
  else if 0x2C10 ≤ i ∧ i < 0x2C18 then ⟨0x2C10, i - 0x2C10⟩
  else if 0x2F00 ≤ i ∧ i < 0x2F40 then ⟨0x2F00 + i % 16, (i - 0x2F00) / 16⟩
  else if 0x1400 ≤ i ∧ i < 0x1404 then ⟨0x1400, i - 0x1400⟩
  else if 0x1600 ≤ i ∧ i < 0x1604 then ⟨0x1600, i - 0x1600⟩
  else if 0x1800 ≤ i ∧ i < 0x1804 then ⟨0x1800, i - 0x1800⟩
  else if 0x1A00 ≤ i ∧ i < 0x1A04 then ⟨0x1A00, i - 0x1A00⟩
  else ⟨i, 0⟩

/-- Access kinds (R368). -/
inductive Access where
  | const | ro | wo | rw | rwr | rww
  deriving DecidableEq, Repr

/-- Data types: their CiA 301 code (R366). -/
inductive Ty where
  | i16 | u8 | u16 | u32 | u64 | str | oct | domain
  deriving DecidableEq, Repr

def Ty.code : Ty → Nat
  | .i16 => 0x0003
  | .u8 => 0x0005
  | .u16 => 0x0006
  | .u32 => 0x0007
  | .u64 => 0x001B
  | .str => 0x0009
  | .oct => 0x000A
  | .domain => 0x000F

/-- Who may access an object (R370): every tenant, T0 alone, the tenant of the instance or of the subindex with or without
T0, the owner of the resource, or T0 where it has none, the tenants bound to the ESC. `sess` is the session's own instance. -/
inductive Who where
  | all | t0 | inst | instT0 | sub | subT0 | owner | ownerT0 | ownerFree | group | writer | regions | escBound | escLowest | sess | nobody
  deriving DecidableEq, Repr

/-- One row of an object table: base, first and last subindex, type, bytes (0 where the type or the object says otherwise),
access, first version, readers and writers. -/
structure Row where
  base : Nat
  lo : Nat
  hi : Nat
  ty : Ty
  size : Nat
  acc : Access
  since : Nat
  rd : Who
  wr : Who
  deriving DecidableEq, Repr

/-- R378. -/
def rowsComm : List Row :=
  [⟨0x1000, 0, 0, .u32, 4, .const, 0, .all, .nobody⟩,
   ⟨0x1001, 0, 0, .u8, 1, .ro, 0, .sess, .nobody⟩,
   ⟨0x1003, 0, 0, .u8, 1, .rw, 0, .sess, .sess⟩,
   ⟨0x1003, 1, 8, .u32, 4, .ro, 0, .sess, .nobody⟩,
   ⟨0x1008, 0, 0, .str, 0, .const, 0, .all, .nobody⟩,
   ⟨0x1009, 0, 0, .str, 0, .const, 0, .all, .nobody⟩,
   ⟨0x100A, 0, 0, .str, 0, .ro, 0, .all, .nobody⟩,
   ⟨0x1018, 1, 2, .u32, 4, .const, 0, .all, .nobody⟩,
   ⟨0x1018, 3, 3, .u32, 4, .ro, 0, .all, .nobody⟩,
   ⟨0x1018, 4, 4, .u32, 4, .const, 0, .all, .nobody⟩,
   ⟨0x1400, 1, 1, .u32, 4, .rw, 0, .sess, .sess⟩,
   ⟨0x1400, 2, 2, .u8, 1, .rw, 0, .sess, .sess⟩,
   ⟨0x1600, 0, 0, .u8, 1, .rw, 0, .sess, .sess⟩,
   ⟨0x1600, 1, 32, .u32, 4, .rw, 0, .sess, .sess⟩,
   ⟨0x1800, 1, 1, .u32, 4, .rw, 0, .sess, .sess⟩,
   ⟨0x1800, 2, 2, .u8, 1, .rw, 0, .sess, .sess⟩,
   ⟨0x1800, 3, 3, .u16, 2, .rw, 0, .sess, .sess⟩,
   ⟨0x1800, 5, 5, .u16, 2, .rw, 0, .sess, .sess⟩,
   ⟨0x1A00, 0, 0, .u8, 1, .rw, 0, .sess, .sess⟩,
   ⟨0x1A00, 1, 32, .u32, 4, .rw, 0, .sess, .sess⟩,
   ⟨0x1C00, 1, 4, .u8, 1, .const, 0, .sess, .nobody⟩,
   ⟨0x1C12, 1, 4, .u16, 2, .rw, 0, .sess, .sess⟩,
   ⟨0x1C13, 1, 4, .u16, 2, .rw, 0, .sess, .sess⟩]

/-- R402. -/
def rowsSync : List Row :=
  [⟨0x1C32, 1, 1, .u16, 2, .rw, 0, .escBound, .escLowest⟩,
   ⟨0x1C32, 2, 2, .u32, 4, .ro, 0, .escBound, .nobody⟩,
   ⟨0x1C32, 4, 4, .u16, 2, .const, 0, .escBound, .nobody⟩,
   ⟨0x1C32, 5, 6, .u32, 4, .const, 0, .escBound, .nobody⟩,
   ⟨0x1C32, 12, 12, .u16, 2, .ro, 0, .escBound, .nobody⟩,
   ⟨0x1C33, 1, 1, .u16, 2, .rw, 0, .escBound, .escLowest⟩,
   ⟨0x1C33, 4, 4, .u16, 2, .const, 0, .escBound, .nobody⟩,
   ⟨0x1C33, 5, 6, .u32, 4, .const, 0, .escBound, .nobody⟩]

/-- R376, R380. -/
def rowsSes : List Row :=
  [⟨0x2000, 1, 2, .u8, 1, .ro, 0, .sess, .nobody⟩,
   ⟨0x2000, 3, 3, .u64, 8, .ro, 0, .sess, .nobody⟩,
   ⟨0x2001, 1, 1, .u16, 2, .const, 0, .sess, .nobody⟩,
   ⟨0x2002, 1, 1, .u16, 2, .rw, 0, .sess, .sess⟩,
   ⟨0x2003, 1, 1, .u16, 2, .ro, 0, .sess, .nobody⟩,
   ⟨0x2004, 1, 2, .u32, 4, .ro, 4, .sess, .nobody⟩,
   ⟨0x2100, 1, 1, .u8, 1, .ro, 1, .all, .nobody⟩,
   ⟨0x2100, 2, 2, .oct, 16, .ro, 1, .t0, .nobody⟩,
   ⟨0x2101, 1, 4, .u32, 4, .ro, 1, .subT0, .nobody⟩,
   ⟨0x2102, 1, 4, .u32, 4, .ro, 1, .subT0, .nobody⟩,
   ⟨0x2103, 1, 4, .u32, 4, .ro, 1, .subT0, .nobody⟩,
   ⟨0x2104, 1, 4, .u32, 4, .ro, 1, .subT0, .nobody⟩]

/-- R439. -/
def rowsClk : List Row :=
  [⟨0x2200, 1, 1, .u8, 1, .ro, 0, .all, .nobody⟩,
   ⟨0x2200, 2, 3, .u8, 1, .rw, 0, .all, .t0⟩,
   ⟨0x2200, 4, 4, .u8, 1, .wo, 0, .all, .t0⟩,
   ⟨0x2200, 5, 5, .u8, 1, .rw, 0, .all, .t0⟩,
   ⟨0x2201, 1, 4, .u32, 4, .rw, 0, .sub, .t0⟩,
   ⟨0x2202, 1, 4, .u16, 2, .rw, 0, .all, .t0⟩,
   ⟨0x2203, 1, 3, .u8, 1, .rw, 0, .all, .t0⟩,
   ⟨0x2204, 1, 3, .u8, 1, .rw, 0, .all, .t0⟩,
   ⟨0x2205, 1, 3, .u32, 4, .rw, 0, .all, .t0⟩,
   ⟨0x2206, 1, 1, .u8, 1, .rw, 0, .all, .t0⟩,
   ⟨0x2206, 2, 3, .u32, 4, .ro, 0, .all, .nobody⟩,
   ⟨0x2207, 1, 1, .u32, 4, .ro, 0, .all, .nobody⟩,
   ⟨0x2207, 2, 5, .u16, 2, .ro, 0, .all, .nobody⟩,
   ⟨0x2207, 6, 7, .u32, 4, .ro, 0, .all, .nobody⟩,
   ⟨0x2208, 1, 1, .u64, 8, .ro, 0, .all, .nobody⟩,
   ⟨0x2208, 2, 2, .u8, 1, .ro, 0, .all, .nobody⟩]

/-- R454, R473. -/
def rowsStart : List Row :=
  [⟨0x2300, 1, 2, .u8, 1, .ro, 0, .all, .nobody⟩,
   ⟨0x2300, 3, 3, .u32, 4, .ro, 0, .all, .nobody⟩,
   ⟨0x2300, 4, 6, .u8, 1, .ro, 0, .all, .nobody⟩,
   ⟨0x2300, 7, 8, .u32, 4, .ro, 0, .all, .nobody⟩,
   ⟨0x2301, 1, 1, .u8, 1, .wo, 0, .nobody, .t0⟩,
   ⟨0x2302, 1, 4, .u8, 1, .ro, 0, .sub, .nobody⟩,
   ⟨0x2400, 1, 2, .oct, 6144, .const, 0, .all, .nobody⟩,
   ⟨0x2400, 3, 3, .oct, 8, .const, 0, .t0, .nobody⟩,
   ⟨0x2401, 1, 1, .oct, 32, .wo, 0, .nobody, .sess⟩,
   ⟨0x2401, 2, 2, .u8, 1, .ro, 0, .sess, .nobody⟩,
   ⟨0x2401, 3, 3, .oct, 4813, .ro, 0, .sess, .nobody⟩,
   ⟨0x2402, 1, 16, .u32, 4, .ro, 0, .all, .nobody⟩,
   ⟨0x2403, 1, 1, .domain, 0, .wo, 0, .nobody, .t0⟩,
   ⟨0x2403, 2, 2, .u8, 1, .ro, 0, .t0, .nobody⟩,
   ⟨0x2404, 1, 1, .domain, 0, .wo, 0, .nobody, .t0⟩,
   ⟨0x2404, 2, 5, .oct, 8, .ro, 0, .t0, .nobody⟩,
   ⟨0x2405, 1, 4, .u32, 4, .ro, 0, .subT0, .nobody⟩]

/-- R488, R246. -/
def rowsObs : List Row :=
  [⟨0x2500, 1, 1, .u8, 1, .wo, 0, .nobody, .t0⟩,
   ⟨0x2500, 2, 2, .u16, 2, .rw, 0, .t0, .t0⟩,
   ⟨0x2500, 3, 3, .u8, 1, .rw, 0, .t0, .t0⟩,
   ⟨0x2500, 4, 5, .u32, 4, .ro, 0, .all, .nobody⟩,
   ⟨0x2500, 6, 6, .u64, 8, .ro, 0, .all, .nobody⟩,
   ⟨0x2501, 1, 1, .oct, 4192, .ro, 0, .all, .nobody⟩,
   ⟨0x2501, 2, 2, .u8, 1, .ro, 0, .all, .nobody⟩,
   ⟨0x2502, 1, 1, .u32, 4, .rw, 0, .sess, .sess⟩,
   ⟨0x2502, 2, 2, .oct, 32, .ro, 0, .sess, .nobody⟩,
   ⟨0x2502, 3, 3, .u32, 4, .ro, 0, .all, .nobody⟩,
   ⟨0x2502, 4, 4, .oct, 2048, .ro, 0, .t0, .nobody⟩,
   ⟨0x2503, 1, 1, .u32, 4, .const, 0, .all, .nobody⟩,
   ⟨0x2600, 1, 1, .u8, 1, .rw, 0, .all, .t0⟩,
   ⟨0x2600, 2, 3, .u16, 2, .rw, 0, .all, .t0⟩,
   ⟨0x2600, 4, 5, .u32, 4, .ro, 0, .all, .nobody⟩,
   ⟨0x2600, 6, 6, .u16, 2, .wo, 0, .all, .t0⟩,
   ⟨0x2600, 7, 7, .u8, 1, .ro, 0, .all, .nobody⟩,
   ⟨0x2601, 1, 10, .u32, 4, .ro, 0, .all, .nobody⟩,
   ⟨0x2602, 1, 1, .u32, 4, .ro, 0, .all, .nobody⟩]

/-- R382, R188, R276. -/
def rowsArray : List Row :=
  [⟨0x2800, 1, 1, .u16, 2, .const, 0, .all, .nobody⟩,
   ⟨0x2800, 2, 3, .u8, 1, .ro, 0, .all, .nobody⟩,
   ⟨0x2801, 1, 17, .u32, 4, .ro, 0, .all, .nobody⟩,
   ⟨0x2802, 1, 16, .u8, 1, .ro, 0, .all, .nobody⟩,
   ⟨0x2803, 1, 4, .u8, 1, .ro, 1, .sub, .nobody⟩,
   ⟨0x2804, 1, 3, .u8, 1, .ro, 1, .all, .nobody⟩,
   ⟨0x2900, 1, 1, .u32, 4, .ro, 0, .all, .nobody⟩,
   ⟨0x2900, 2, 2, .oct, 8, .ro, 0, .t0, .nobody⟩,
   ⟨0x2900, 3, 3, .domain, 0, .wo, 0, .nobody, .t0⟩,
   ⟨0x2900, 4, 4, .u8, 1, .ro, 0, .t0, .nobody⟩,
   ⟨0x2901, 1, 5, .u32, 4, .ro, 0, .all, .nobody⟩,
   ⟨0x2902, 1, 4, .u32, 4, .ro, 0, .subT0, .nobody⟩,
   ⟨0x2903, 1, 4, .u32, 4, .ro, 0, .subT0, .nobody⟩,
   ⟨0x2A00, 1, 1, .u8, 1, .const, 0, .all, .nobody⟩,
   ⟨0x2A00, 2, 2, .u8, 1, .ro, 0, .all, .nobody⟩,
   ⟨0x2A00, 3, 7, .u32, 4, .ro, 0, .all, .nobody⟩,
   ⟨0x2A01, 1, 24, .u32, 4, .ro, 0, .all, .nobody⟩,
   ⟨0x2A02, 1, 48, .u8, 1, .ro, 0, .all, .nobody⟩]

/-- R334, R296. -/
def rowsFab : List Row :=
  [⟨0x2B00, 1, 2, .u32, 4, .ro, 0, .all, .nobody⟩,
   ⟨0x2B00, 3, 3, .u8, 1, .ro, 0, .all, .nobody⟩,
   ⟨0x2B00, 4, 4, .u64, 8, .ro, 0, .writer, .nobody⟩,
   ⟨0x2B01, 1, 1, .domain, 0, .wo, 0, .nobody, .t0⟩,
   ⟨0x2B02, 1, 1, .domain, 0, .wo, 0, .t0, .regions⟩,
   ⟨0x2B02, 2, 2, .u8, 1, .ro, 0, .all, .nobody⟩,
   ⟨0x2B03, 1, 8, .u8, 1, .ro, 0, .all, .nobody⟩,
   ⟨0x2B04, 1, 64, .u64, 8, .rwr, 0, .ownerFree, .nobody⟩,
   ⟨0x2B05, 1, 1, .u8, 1, .wo, 3, .nobody, .regions⟩,
   ⟨0x2B05, 2, 2, .u16, 2, .ro, 3, .regions, .nobody⟩,
   ⟨0x2B05, 3, 10, .domain, 0, .ro, 3, .ownerFree, .nobody⟩,
   ⟨0x2B06, 1, 4, .u8, 1, .rw, 0, .t0, .t0⟩,
   ⟨0x2B07, 1, 2, .u16, 2, .rw, 3, .ownerFree, .owner⟩,
   ⟨0x2C00, 1, 2, .u8, 1, .rw, 0, .t0, .t0⟩,
   ⟨0x2C01, 1, 8, .u8, 1, .ro, 0, .ownerT0, .nobody⟩,
   ⟨0x2C10, 1, 1, .u8, 1, .rw, 0, .ownerT0, .owner⟩,
   ⟨0x2C10, 2, 2, .u64, 8, .rw, 0, .ownerT0, .owner⟩,
   ⟨0x2C10, 3, 5, .u32, 4, .rw, 0, .ownerT0, .owner⟩,
   ⟨0x2C10, 6, 6, .u8, 1, .rw, 0, .ownerT0, .owner⟩,
   ⟨0x2C10, 7, 7, .u64, 8, .rwr, 0, .ownerT0, .nobody⟩,
   ⟨0x2C10, 8, 13, .u32, 4, .ro, 0, .ownerT0, .nobody⟩,
   ⟨0x2C10, 14, 14, .domain, 0, .rw, 4, .ownerT0, .owner⟩]

/-- R220, R411. -/
def rowsTen : List Row :=
  [⟨0x2F00, 1, 1, .domain, 0, .wo, 0, .instT0, .inst⟩,
   ⟨0x2F00, 2, 2, .u32, 4, .ro, 0, .instT0, .nobody⟩,
   ⟨0x2F00, 3, 3, .u16, 2, .rwr, 0, .instT0, .nobody⟩,
   ⟨0x2F00, 4, 4, .u8, 1, .ro, 0, .instT0, .nobody⟩,
   ⟨0x2F01, 1, 1, .u8, 1, .wo, 0, .instT0, .inst⟩,
   ⟨0x2F01, 2, 2, .u8, 1, .rwr, 0, .instT0, .nobody⟩,
   ⟨0x2F01, 3, 3, .u8, 1, .wo, 0, .instT0, .inst⟩,
   ⟨0x2F02, 1, 2, .oct, 32, .rwr, 0, .instT0, .nobody⟩,
   ⟨0x2F02, 3, 3, .u16, 2, .rwr, 0, .instT0, .nobody⟩,
   ⟨0x2F02, 4, 19, .u32, 4, .rwr, 0, .instT0, .nobody⟩,
   ⟨0x2F03, 1, 1, .u32, 4, .rww, 0, .instT0, .inst⟩,
   ⟨0x2F04, 1, 1, .domain, 0, .rw, 0, .instT0, .t0⟩,
   ⟨0x2F04, 2, 2, .u8, 1, .ro, 0, .instT0, .nobody⟩,
   ⟨0x2F05, 1, 3, .u32, 4, .ro, 0, .instT0, .nobody⟩]

/-- R362, R363. -/
def rowsField : List Row :=
  [⟨0x6000, 1, 64, .u8, 1, .rwr, 0, .all, .nobody⟩,
   ⟨0x6200, 1, 64, .u8, 1, .rww, 0, .all, .all⟩,
   ⟨0x6400, 1, 128, .u16, 2, .rwr, 0, .all, .nobody⟩,
   ⟨0x6420, 1, 1, .u32, 4, .ro, 2, .group, .nobody⟩,
   ⟨0x6420, 2, 2, .u8, 1, .rw, 2, .group, .t0⟩,
   ⟨0x6420, 3, 3, .u16, 2, .ro, 2, .group, .nobody⟩,
   ⟨0x6420, 4, 4, .u8, 1, .wo, 2, .group, .t0⟩,
   ⟨0x6420, 5, 5, .i16, 2, .ro, 2, .group, .nobody⟩,
   ⟨0x6420, 6, 6, .u16, 2, .rwr, 2, .group, .nobody⟩,
   ⟨0x7000, 1, 1, .u8, 1, .rw, 0, .ownerT0, .owner⟩,
   ⟨0x7000, 2, 2, .u8, 1, .rw, 0, .ownerT0, .t0⟩,
   ⟨0x7000, 3, 4, .u8, 1, .rw, 0, .ownerT0, .owner⟩,
   ⟨0x7000, 5, 5, .u16, 2, .rw, 0, .ownerT0, .owner⟩,
   ⟨0x7000, 6, 6, .u32, 4, .rw, 0, .ownerT0, .owner⟩,
   ⟨0x7000, 7, 8, .u8, 1, .rw, 0, .ownerT0, .owner⟩,
   ⟨0x7000, 9, 9, .u16, 2, .rw, 0, .ownerT0, .owner⟩,
   ⟨0x7000, 10, 10, .u8, 1, .rw, 0, .ownerT0, .owner⟩,
   ⟨0x7000, 11, 12, .u16, 2, .rwr, 0, .ownerT0, .nobody⟩,
   ⟨0x7000, 13, 13, .u32, 4, .ro, 0, .ownerT0, .nobody⟩,
   ⟨0x7000, 14, 14, .u8, 1, .wo, 2, .ownerT0, .owner⟩,
   ⟨0x7000, 15, 15, .u32, 4, .ro, 2, .ownerT0, .nobody⟩]

def allRows : List Row :=
  rowsComm ++ rowsSync ++ rowsSes ++ rowsClk ++ rowsStart ++ rowsObs ++ rowsArray ++ rowsFab ++ rowsTen ++ rowsField

/-- The rows of an index at an agreed version. -/
def rowsOf (base agreed : Nat) : List Row := allRows.filter fun r => decide (r.base = base ∧ r.since ≤ agreed)

/-- An index that the manual lists, at any version (R365, R377). -/
def indexExists (i : Nat) : Bool := allRows.any fun r => decide (r.base = (locOf i).base)

/-- The row of a subindex at an agreed version. -/
def rowOf (base sub agreed : Nat) : Option Row := (rowsOf base agreed).find? fun r => decide (r.lo ≤ sub ∧ sub ≤ r.hi)

/-- Subindex 0 of an index with several values: the highest subindex at the agreed version (R365). -/
def maxSub (base agreed : Nat) : Nat := (rowsOf base agreed).foldl (fun m r => Nat.max m r.hi) 0

end Sys2Proof.Machine
end

