-- ==== Sys2Proof/Machine/Ownership.lean ====
section
/-! DEFINITION. Ownership records: layout, checks and application at an order boundary
(R152, R190–R194, R245, R298, R299, R323, R333, R371, R463, R512). -/

namespace Sys2Proof.Machine

open Host (Outcome)

/-! ### Layout (R192) -/

def parseExtent (w : Nat) : Extent := ⟨w % 8, w / 256 % 64, w / 65536 % 128⟩

def parseShared (w : Nat) : Option Shared :=
  if w.testBit 26 then some ⟨BitVec.ofNat 4 (w / 2 ^ 28), w.testBit 27, BitVec.ofNat 16 w⟩ else none

def parseOwn (d : Bytes) : OwnRec :=
  { tenant := Fin.ofNat 4 (leAt d 2 1), seq := Fin.ofNat 5 (leAt d 1 1), counter := BitVec.ofNat 32 (leAt d 4 4)
    tiles := BitVec.ofNat 16 (leAt d 8 2), dual := decide (leAt d 0x0A 1 % 4 = 1)
    channel := Fin.ofNat 4 (leAt d 0x0A 1 / 4 % 4), cams := BitVec.ofNat 8 (leAt d 0x0B 1)
    resv := BitVec.ofNat 8 (leAt d 0x0C 1), weight := BitVec.ofNat 8 (leAt d 0x0D 1)
    regions := BitVec.ofNat 8 (leAt d 0x0E 1), lines := BitVec.ofNat 64 (leAt d 0x10 8)
    channels := BitVec.ofNat 512 (leAt d 0x18 64)
    extents := (List.range 8).map fun i => parseExtent (leAt d (0x58 + 4 * i) 4)
    roles := (List.range 6).map fun i => leAt d (0x78 + i) 1, maxLive := leAt d 0x80 2
    shared := (List.range 8).filterMap fun i => parseShared (leAt d (0x84 + 4 * i) 4), raw := d }

/-- The format and the ranges of the fields. -/
def ownFormat (d : Bytes) (t : Tenant) : Bool :=
  decide (leAt d 3 1 = 1 ∧ leAt d 2 1 = t.val ∧ leAt d 1 1 < 5 ∧ leAt d 0x0A 1 % 4 < 2 ∧ leAt d 0x0C 1 ≤ 64 ∧
    leAt d 0x80 2 ≤ 3328) &&
    (List.range 8).all (fun i => decide (leAt d (0x58 + 4 * i) 4 / 65536 % 128 ≤ 64)) &&
    (List.range 6).all fun i => decide (leAt d (0x78 + i) 1 < 8)

/-- A word of a shared-read entry keeps its reserved bits zero. -/
def sharedResOk (w : Nat) : Bool :=
  if w.testBit 26 then decide (w / 65536 % 1024 = 0) && (!w.testBit 27 || decide (w % 65536 < 8)) else decide (w = 0)

/-- Every reserved field is zero (R193). -/
def ownReserved (d : Bytes) : Bool :=
  decide (leAt d 0 1 = 0 ∧ leAt d 0x0A 1 / 16 = 0 ∧ leAt d 0x0F 1 = 0 ∧ leAt d 0x7E 2 = 0 ∧ leAt d 0x82 2 = 0) &&
    (List.range 8).all (fun i =>
      let w := leAt d (0x58 + 4 * i) 4
      decide (w / 2 ^ 23 = 0 ∧ w / 2 ^ 14 % 4 = 0 ∧ w / 8 % 32 = 0)) &&
    (List.range 8).all (fun i => sharedResOk (leAt d (0x84 + 4 * i) 4)) && allZero (slice d 0xA4 28)

/-! ### Checks (R193) -/

def Extent.used (e : Extent) : Bool := decide (e.len ≠ 0)
def Extent.meets (a b : Extent) : Bool :=
  a.used && b.used && decide (a.bank = b.bank ∧ a.start < b.start + b.len ∧ b.start < a.start + a.len)

/-- Two records claim one resource. -/
def ownClash (a b : OwnRec) : Bool :=
  decide (a.tiles &&& b.tiles ≠ 0) || decide (a.seq = b.seq) || decide (a.cams &&& b.cams ≠ 0) ||
    decide (a.regions &&& b.regions ≠ 0) || decide (a.lines &&& b.lines ≠ 0) || decide (a.channels &&& b.channels ≠ 0) ||
    a.extents.any fun e => b.extents.any (Extent.meets e)

/-- Something the record names is another tenant's: by its applied record, its accepted one, or the sequencer that serves
it now (log 23). -/
def ownTaken (s : State) (t : Tenant) (r : OwnRec) : Bool :=
  allTenants.any fun u => decide (u ≠ t) &&
    ((match (ten s u).own with
      | some x => ownClash r x
      | none => false) ||
    (match (ten s u).ownPending with
      | some x => ownClash r x
      | none => false) || decide ((sqr s r.seq.val).bound = some u))

/-- Two roles lie in one bank. -/
def rolesClash (r : OwnRec) (i j : Nat) : Bool :=
  match roleExtent r i, roleExtent r j with
  | some a, some b => a.used && b.used && decide (a.bank = b.bank)
  | _, _ => false

/-- The extent includes a unit of device data (R222). -/
def Extent.onDevice (e : Extent) : Bool := decide ((e.bank = 3 ∨ e.bank = 7) ∧ e.len ≠ 0 ∧ 62 < e.start + e.len)

def bitCount {w : Nat} (v : BitVec w) : Nat := ((List.range w).filter fun i => v.getLsbD i).length

/-- The latency reservations of the other applied records and this one. -/
def resvSum (s : State) (t : Tenant) (r : OwnRec) : Nat :=
  r.resv.toNat + ((allTenants.filter fun u => decide (u ≠ t)).map fun u => match (ten s u).own with
    | some x => x.resv.toNat
    | none => 0).foldl (· + ·) 0

/-- The record passes every other check of R193. -/
def ownValid (s : State) (t : Tenant) (r : OwnRec) : Bool :=
  !ownTaken s t r && !rolesClash r 0 1 && !rolesClash r 2 3 && !rolesClash r 4 5 &&
    !(r.dual && decide (bitCount r.tiles % 2 = 1)) && decide (resvSum s t r ≤ 64) &&
    r.extents.all (fun e => !e.onDevice) &&
    r.extents.all (fun e => !e.used || decide (e.start + e.len ≤ 64)) &&
    r.shared.all fun x =>
      if x.extent then ((r.extents[x.index.toNat % 8]?).map Extent.used).getD false else indexExists x.index.toNat

/-- A rejected record: OWNERSHIP_STATE 3, VERIFY_ERROR, and the event (R193, R462). -/
def rejectOwn (s : State) (k : SesId) (t : Tenant) (reason : Byte) (abort : Word) : Answer :=
  (abort, logEvent (modTen (refuse s k 5 reason) t fun x => { x with ownState := 3 }) 0x0303 1 [t] t.val abort.toNat [])

/-- OWNERSHIP: the record is checked, and accepted it waits for the order boundary (R192–R194, R462). -/
def applyOwnership (s : State) (k : SesId) (t : Tenant) (d : Bytes) : Answer :=
  if d.length < 192 then (0x06070013, s)
  else if d.length ≠ 3501 ∨ ownFormat d t = false ∨ ownReserved d = false then rejectOwn s k t 4 0x08000000
  else
    let body := d.take 192
    let r := parseOwn body
    match checkSig s s.ident.ik "AZ6516/OWN" body (d.drop 192) (ctrOwn t) r.counter with
    | some e => rejectOwn s k t e 0x08000000
    | none =>
      if ownValid s t r then
        (0, setPending (modTen s t fun x => { x with ownPending := some r, ownState := 2 }) (ctrOwn t) r.counter)
      else rejectOwn s k t 6 0x08000000

/-! ### Application (R194) -/

/-- The units of a list of extents, 64·bank + unit. -/
def extUnits (l : List Extent) : List Nat :=
  (l.filter Extent.used).flatMap fun e => (List.range e.len).map fun i => 64 * e.bank + e.start + i

/-- A record may apply: no order is RUNNING, no partial load runs in a region it removes (R323), and no unit it names is
still under its destructive march (R245). -/
def ownReady (s : State) (t : Tenant) (r : OwnRec) : Bool :=
  (runOrder s t).isNone &&
    (match s.fab.load with
      | some l => (match l.region with
        | some k => !(((ten s t).own.map fun o => o.regions.getLsbD k.val).getD false && !r.regions.getLsbD k.val)
        | none => true)
      | none => true) &&
    (extUnits r.extents).all fun u => !SMap.get false s.march.released u && decide (s.march.dtest ≠ some u)

/-- A binding or the start input of an order names a resource that the tenant no longer holds (R194; log 22). -/
def orderLost (s : State) (t : Tenant) (o : Order) : Bool :=
  let inRec := fun (i : InBind) =>
    let b : BindRec := ⟨match i.kind with
      | .camera => 1
      | .adc => 2
      | .snapshot => 3
      | .region => 4, i.source.toNat, i.mask.toNat, i.offset.toNat, i.len.toNat, 0⟩
    inRecOwned s t b
  let outRec := fun (i : OutBind) =>
    let b : BindRec := ⟨match i.kind with
      | .region => 1
      | .xm => 2
      | .pdo => 3
      | .mailbox => 4, i.mailbox.toNat, 0, i.offset.toNat, i.len.toNat, 0⟩
    outRecOwned s t b
  !(o.ins.all inRec) || !(o.outs.all outRec) || (!o.released && !startOwned s t o.startInput.toNat)

/-- ACCEPTED orders that lost a resource become ABORTED with OWNERSHIP_CHANGED. -/
def abortLost (s : State) (t : Tenant) : State :=
  abortOrders s t (((ten s t).orders.filter fun o => decide (o.st = .accepted) && orderLost s t o).map Order.seq) 0x08

/-- Readers of a withdrawn shared extent lose their ACCEPTED orders too (R191). -/
def abortReaders (s : State) (t : Tenant) : State :=
  (allTenants.filter fun u => decide (u ≠ t)).foldl (fun v u =>
    abortOrders v u (((ten v u).orders.filter fun o => decide (o.st = .accepted) && o.ins.any fun i =>
      decide (i.kind = .region ∧ i.source ≠ 0) && (regionSrc v u i.source.toNat).isNone).map Order.seq) 0x08) s

/-- The sequencer of a record: the one that serves the tenant already when the record names the same one as before, else the
named one if it works; the one left becomes a spare (R152, R182, R194). -/
def bindSeq (s : State) (t : Tenant) (old : Option OwnRec) (r : OwnRec) : State :=
  let same := match old with
    | some o => decide (o.seq = r.seq) && (seqOf s t).isSome
    | none => false
  if same then s
  else
    let s1 := match seqOf s t with
      | some q => setSeqSvc (modSqr s q.val fun x => { quietSeq x with bound := none }) q .spare
      | none => s
    let x := sqr s1 r.seq.val
    if x.bound = none ∧ (x.service = .spare ∨ x.service = .inService) then
      let s2 := modSqr s1 r.seq.val fun y => { y with bound := some t, regError := false }
      let s3 := if x.service = .spare then setSeqSvc s2 r.seq .inService else s2
      modTen s3 t fun y => { y with seqLost := false }
    else modTen s1 t fun y => { y with seqLost := true }

/-- A record separates a channel from its region: one tenant had both and only one of them keeps its owner, or the record gives the
tenant the channel without the region (R298). -/
def separates (s0 s : State) (t : Tenant) (n : Nat) : Bool :=
  (fcAgrees s0 n && decide (fcOwner s n ≠ regionOwner s (n / 64))) ||
    (ownsFc s t n && !fcAgrees s n && !(ownsFc s0 t n && !fcAgrees s0 n))

/-- What a region's logic left in its capture buffer is not shown to its next owner (R299, R331). -/
def dropCapture (s : State) (k : Nat) : State :=
  let m : Half := (1#16 <<< k) ||| (1#16 <<< (k + 8))
  { s with fab := { s.fab with captured := SMap.set [] s.fab.captured k [], captureState := s.fab.captureState &&& ~~~m } }

/-- The fabric side of a change of owners: regions removed are held for their null configuration, CTR_PART of a region with a new owner
returns to 0, probes in regions granted to another tenant than T0 go low, and the channels that the record separates from
their regions are logged; `s0` is the state before it (R298, R299, R333, R463). -/
def ownFabric (s0 s : State) (t : Tenant) (old : Option OwnRec) (r : OwnRec) : State :=
  let had := fun (k : Nat) => (old.map fun o => o.regions.getLsbD k).getD false
  let gone := (List.finRange 8).filter fun k => had k.val && !r.regions.getLsbD k.val
  let new := (List.range 8).filter fun k => !had k && r.regions.getLsbD k
  let s1 := startOwed { s with fab := { s.fab with owed := s.fab.owed ++ gone.filter fun k => !s.fab.owed.contains k } }
  let s2 := new.foldl (fun u k => setCounter u (ctrPart k) 0) (gone.foldl (fun u k => dropCapture u k.val) s1)
  let probes := if t = 0 then s2.fab.probe else
    s2.fab.probe.filter fun e => !(r.regions.getLsbD (e.2.toNat / 2))
  let s3 := fallLines { s2 with fab := { s2.fab with probe := probes } }
  (List.range 512).foldl (fun u n =>
    if separates s0 u t n then logEvent u 0x0602 1 [t] 0 n [] else u) s3

/-- The host side of a record: the tenant's channel, its session and, on a change between EtherCAT and CAN, the defaults of
its communication objects (R395, R396, R408, R512). -/
def ownChannel (s : State) (t : Tenant) (before : Option HostCh) : State :=
  let s1 := bindChannel s t
  let after := channelOf s1 t
  if after = before then s1
  else
    let s2 := closeSes s1 (tenSes t)
    let other := match before, after with
      | some a, some b => decide (a.val / 2 ≠ b.val / 2)
      | _, _ => false
    let s3 := if other then defaultComm s2 (tenSes t) else s2
    syncSes (bootNode s3 t) t

/-- The record applies as a whole. -/
def applyOwn (s : State) (t : Tenant) (r : OwnRec) : State :=
  let old := (ten s t).own
  let before := channelOf s t
  let oldTiles := ownTiles s t
  let units := extUnits ((old.map OwnRec.extents).getD [])
  let s1 := modTen s t fun x => { x with
    own := some r, ownFlash := some r, ownPending := none, ownState := 1, abortHold := x.abortHold &&& r.channels }
  let s2 := measure (takeEffect s1 (ctrOwn t) r.counter) (12 + t.val) r.counter r.raw
  let gone := oldTiles.filter fun n => !r.tiles.getLsbD n
  let s3 := (physTiles s gone).foldl (fun u p => powerDown u p.val .off) s2
  let s4 := modTen s3 t fun x => { x with lost := (ownTiles s3 t).any fun n => (physOf s3 n).isNone }
  let s5 := ownFabric s (bindSeq s4 t old r) t old r
  let freed := units.filter fun u => !(extUnits r.extents).contains u
  let s6 := { s5 with march := { s5.march with
    released := freed.foldl (fun m u => SMap.set false m u true) s5.march.released } }
  let s7 := ownChannel s6 t before
  kick (fabEdge (abortReaders (abortLost s7 t) t)) t

/-- OWNERSHIP_APPLY: a pending record applies at the tenant's order boundary. -/
def execOwnershipApply (t : Tenant) (s : State) : Outcome State Fault Refusal :=
  .next (match (ten s t).ownPending with
    | some r => if ownReady s t r then applyOwn s t r else s
    | none => s)

end Sys2Proof.Machine
end

