-- ==== Sys2Proof/Machine/March.lean ====
section
/-! DEFINITION. Parity failures, faults of banks and exchange-memory halves, and the march engine
(R210, R229, R230, R235–R246). -/

namespace Sys2Proof.Machine

open Host (Outcome)

/-! ### Faults of a bank or a half (R210, R237) -/

/-- A list of extents, from a byte offset on, touches a bank. -/
def touchesBank (l : List Extent) (off len b : Nat) : Bool :=
  (List.range ((len + unitBytes - 1) / unitBytes + 1)).any fun i =>
    match extAddr l (Nat.min (off + i * unitBytes) (off + len - 1)) with
    | some a => decide (a / bankBytes = b)
    | none => false

/-- A non-mirrored binding region of the order lies in the bank: a type 1 output, a type 4 input, or a camera binding that
lands in the scratchpad. -/
def orderInBank (s : State) (t : Tenant) (o : Order) (b : Nat) : Bool :=
  let own := ((ten s t).own.map OwnRec.extents).getD []
  (o.outs.any fun x => decide (x.kind = .region) && touchesBank own x.offset.toNat x.len.toNat b) ||
    o.ins.any fun i =>
      match i.kind with
      | .region => (match regionSrc s t i.source.toNat with
        | some l => touchesBank l i.offset.toNat i.len.toNat b
        | none => false)
      | .camera => bindToSp s i && touchesBank own (bindCfg s i).spOffset.toNat i.len.toNat b
      | _ => false

/-- The tenant's record has an extent in the bank. -/
def tenantInBank (s : State) (t : Tenant) (b : Nat) : Bool :=
  match (ten s t).own with
  | some r => r.extents.any fun e => e.used && decide (e.bank = b)
  | none => false

/-- Role `i` of the tenant's record lies in the bank. -/
def roleInBank (s : State) (t : Tenant) (i b : Nat) : Bool :=
  match (ten s t).own with
  | some r => (match roleExtent r i with
    | some e => e.used && decide (e.bank = b)
    | none => false)
  | none => false

/-- The copies in CKPA, CKPB, RETA and RETB that lie in the bank are lost. -/
def loseCopies (s : State) (t : Tenant) (b : Nat) (o : Order) : Order :=
  { o with
    ckpt := o.ckpt.map fun k => { k with
      copyA := k.copyA && !roleInBank s t 2 b, copyB := k.copyB && !roleInBank s t 3 b }
    ins := o.ins.map fun i => { i with
      copyA := i.copyA && !roleInBank s t 4 b, copyB := i.copyB && !roleInBank s t 5 b } }

/-- What the fence of a bank does to the orders of one tenant: BANK_LOST, INPUT_LOST where no retained copy is left, or a
re-execution. -/
def bankOrders (b : Nat) (s : State) (t : Tenant) : State :=
  if tenantInBank s t b = false ∧ (ten s t).orders.all (fun o => !orderInBank s t o b) then s
  else
    let lost := ((ten s t).orders.filter fun o => orderInBank s t o b).map Order.seq
    let s1 := abortOrders s t lost 0x09
    let s2 := modTen s1 t fun x => { x with orders := x.orders.map (loseCopies s1 t b) }
    let bad := ((ten s2 t).orders.filter fun o => o.ins.any inputGone).map Order.seq
    let s3 := abortOrders s2 t bad 0x0B
    if tenantInBank s3 t b then recompute s3 t else s3

/-- The tenants with an order that the fence of a bank re-executes or aborts. -/
def bankHit (s : State) (b : Nat) : List Tenant :=
  allTenants.filter fun t => (tenantInBank s t b && (runOrder s t).isSome) || (ten s t).orders.any fun o => orderInBank s t o b

/-- The network interface of a bank or half (R249). -/
def memNi (b : Nat) : NiId := if b = 8 then 12 else if b = 9 then 22 else bankNi b

/-- A bank or half is declared faulted: it is fenced until the next cold start, and its mirrors serve. -/
def memFault (s : State) (b : Nat) : State :=
  if (memSt s b).service ≠ .inService then s
  else
    let s1 := logEvent (modMemSt s b fun x => { x with service := .fenced }) 0x0405 2 (if b < 8 then bankHit s b else []) b 1 []
    let s2 := sendClear (closeNi s1 (memNi b).val .draining) (memNi b) (memNi b) true
    if b < 8 then partFault (allTenants.foldl (bankOrders b) s2) (bankHit s b) 2 b 0
    else partFault (allTenants.foldl placeFrame s2) [] 3 (b - 8) (if (memSt s (17 - b)).service = .inService then 0 else 1)

/-! ### Parity (R235–R237) -/

/-- The first read fails and the second is clean (R235). -/
def transient (s : State) (xm : Bool) (a : Nat) : State :=
  let b := memIndex xm a
  logEvent (modMemSt s b fun x => { x with errors := satInc x.errors }) 0x0401 0 [] b a []

/-- The banks and halves whose fault is due are declared faulted (R237). -/
def settleMem (s : State) : State :=
  (List.range 10).foldl (fun u b => if (memSt u b).due then memFault (modMemSt u b fun x => { x with due := false }) b else u) s

/-! ### The march engine (R238–R246) -/

/-- A unit that the engine marches: owned, or device data (R240). -/
def marchUnit (s : State) (u : Nat) : Bool :=
  decide (u / 64 = 3 ∧ 62 ≤ u % 64) || decide (u / 64 = 7 ∧ 62 ≤ u % 64) ||
    (ownersBy s fun r => (extUnits r.extents).contains u) ≠ []

/-- The first unit from `u` on that a pass covers: 512 of the scratchpad, then 16 of the two halves. -/
def nextUnit (s : State) (u : Nat) : Option Nat :=
  (List.range (528 - u)).findSome? fun i =>
    if 512 ≤ u + i ∨ marchUnit s (u + i) = true then some (u + i) else none

/-- The window at the first word of a unit. -/
def unitWindow (u : Nat) : Window :=
  if u < 512 then ⟨false, u * unitBytes, false, 0, false⟩ else ⟨true, (u - 512) * unitBytes, false, 0, false⟩

/-- The word under test of a window, as the memory holds it. -/
def windowWord (s : State) (w : Window) : DWord :=
  BitVec.ofNat 64 (ofLe (if w.xm then xmHeld s w.addr 8 else spRead s w.addr 8))

/-- The tenant and role index of the extent that holds a scratchpad address; role 6 is other tenant data. -/
def roleAt (s : State) (a : Nat) : Option (Tenant × Nat) :=
  allTenants.findSome? fun t => match (ten s t).own with
    | some r => if r.extents.any fun e => inExtent e a then
        some (t, ((List.range 6).find? fun i => match roleExtent r i with
          | some e => inExtent e a
          | none => false).getD 6)
      else none
    | none => none

/-- The address of the same word in the other program copy. -/
def otherProg (s : State) (t : Tenant) (role a : Nat) : Option Nat := match (ten s t).own with
  | some r => (match roleExtent r role, roleExtent r (1 - role) with
    | some e, some m => if a - e.addr < m.bytes then some (m.addr + (a - e.addr)) else none
    | _, _ => none)
  | none => none

/-- The copy of a word that the compare-only mode marches (R240): the other golden copy, or the other program area. -/
def copyOf (s : State) (a : Nat) : Option Nat :=
  if inGolden a then some ((if a / bankBytes = 3 then 7 else 3) * bankBytes + a % bankBytes)
  else (roleAt s a).bind fun tr => if tr.2 ≤ 1 then otherProg s tr.1 tr.2 a else none

/-- The compare-only mode at a word: both copies are read with their parity and compared; a failing one is rewritten from the
other, and a difference fails the region (R238, R240; log 62). -/
def compareWord (s : State) (a : Nat) : State :=
  match copyOf s a with
  | none => s
  | some m =>
    let role := if inGolden a then 2 else 0
    let r := readCopied s a m role (if inGolden a then 2 else 1)
    let s1 := (readCopied r.1 m a role role).1
    if r.2.isSome ∧ spRead s1 a 8 ≠ spRead s1 m 8 then memFault s1 (a / bankBytes) else s1

/-- A word of XM whose read fails twice: a mirrored one is rewritten from the other half; a half-local one is a machine check, and
the order whose trap frame holds it is recomputed (R236). -/
def xmWordFails (s : State) (a : Nat) : State :=
  let o := a % halfBytes
  if o < 0x6A000 then
    let h := a / halfBytes
    let s1 := readFailed s true a (roleByte s 8)
    if mirrorGood s (1 - h) o 8 then repaired (xmWrite s1 a (xmRead s ((1 - h) * halfBytes + o) 8)) true a else s1
  else
    let s1 := checkMark (readFailed s true a (roleByte s 9))
    match allTenants.find? fun t => decide (trapFrame s t.val ≤ a ∧ a < trapFrame s t.val + 0x1000) with
    | some t => recompute s1 t
    | none => s1

/-- The first read of a word under the transparent test fails: the engine writes nothing to it, and it is handled by its role; other
tenant data are logged and left (R236, R243). -/
def wordFails (s : State) (w : Window) : State :=
  if w.xm then xmWordFails s w.addr
  else readFailed s false w.addr (roleByte s (match roleAt s w.addr with
    | some (_, k) => if k ≤ 1 then k else k / 2 + 2
    | none => 7))

/-- The engine goes on to the next word of the pass. -/
def marchOn (s : State) (w : Window) : State :=
  let a := w.addr + 8
  let next := if a % unitBytes ≠ 0 then some { w with addr := a, complemented := false }
    else (nextUnit s ((if w.xm then 512 else 0) + a / unitBytes)).map unitWindow
  { s with march := { s.march with window := next } }

/-- One step of the running pass. In the preserving mode the engine first reads the word, checks its parity and writes the
complement, then reads that back, writes the word back and goes on; a byte that cannot hold the complement faults the bank or half
(R238, R241, R243). In the compare-only mode it writes nothing (R240). -/
def marchTick (s : State) : State :=
  match s.march.window with
  | none => s
  | some w =>
    if w.released ∨ s.march.passOn = false then s
    else if w.xm = false ∧ compareUnit s (w.addr / unitBytes) = true then marchOn (compareWord s w.addr) w
    else if w.complemented = false then
      if (if w.xm then xmBadAt s w.addr 8 else spBadAt s w.addr 8) then marchOn (wordFails s w) w
      else { s with march := { s.march with window := some { w with complemented := true, shadow := windowWord s w } } }
    else
      let s1 := marchOn s w
      if weakIn (if w.xm then s.xmBad else s.spBad) w.addr 8 then memFault s1 (memIndex w.xm w.addr) else s1

/-- MARCH_ENABLE: 0 stops the run-time marches after the present word (R246; log 24). -/
def applyMarchEnable (s : State) (v : Byte) : Answer :=
  if v = 0 then (0, { s with march := { s.march with enable := 0, passOn := false, window := none } })
  else if v = 1 then (0, { s with march := { s.march with enable := 1 } })
  else (0x06090030, s)

/-- MARCH_PASS_START: a pass starts every PASS_PERIOD, or the one still running is late (R240). -/
def execMarchPassStart (s : State) : Outcome State Fault Refusal :=
  .next (if s.march.enable = 0 ∨ s.start.mode ≠ .running ∨ s.clk.sleep = .entered then s
    else if s.march.passOn then
      logEvent { s with march := { s.march with late := satInc s.march.late } } 0x0403 1 [] 0 s.march.passes.toNat []
    else { s with march := { s.march with passOn := true, window := (nextUnit s 0).map unitWindow } })

/-- MARCH_WINDOW_RETRY: the engine borrows the window again and retries the word from its first read (R242). -/
def execMarchWindowRetry (s : State) : Outcome State Fault Refusal :=
  .next (match s.march.window with
    | some w => if w.released then
        { s with march := { s.march with window := some { w with released := false, complemented := false } } } else s
    | none => s)

/-- MARCH_PASS_COMPLETE: the pass has covered all banks and halves (R240). -/
def execMarchPassComplete (s : State) : Outcome State Fault Refusal :=
  .next (if s.march.passOn then
      { s with march := { s.march with passOn := false, window := none, passes := s.march.passes + 1 } }
    else s)

/-- A tile that waits for its march test and that no tenant owns now (R218, R244). -/
def tileTested (s : State) (p : TileId) : Bool :=
  SMap.get false s.march.tileDue p.val && (ownerOf s p).isNone && decide ((tile s p.val).service ≠ .failed)

/-- The unit 64·bank + unit, or tile 512 + number, is under a destructive test (R218, R244, R245). -/
def underTest (s : State) (u : Nat) : Bool :=
  decide (s.march.dtest = some u) || SMap.get false s.march.released u ||
    (List.finRange 17).any fun p => decide (u = 512 + p.val) && tileTested s p

/-- The target of DTEST_TARGET is owned: by a record applied or accepted, or as device data (R222, R246). -/
def dtestOwned (s : State) (v : Nat) : Bool :=
  if v < 512 then
    marchUnit s v || allTenants.any fun t => match (ten s t).ownPending with
      | some r => (extUnits r.extents).contains v
      | none => false
  else match niTile (tileNi (v - 512)) with
    | some p => (ownerOf s p).isSome
    | none => true

/-- DTEST_TARGET: the destructive test of an unowned unit or tile starts (R244, R246). -/
def applyDtestTarget (s : State) (v : Half) : Answer :=
  if 0x210 < v.toNat then (0x06090030, s)
  else if s.march.dtest.isSome ∨ SMap.get false s.march.released v.toNat = true then (0x08000022, s)
  else if dtestOwned s v.toNat then (0, { s with march := { s.march with dtestTarget := v, dtestState := 4 } })
  else (0, { s with march := { s.march with dtestTarget := v, dtestState := 1, dtest := some v.toNat } })

/-- The destructive mode leaves every word of a unit at 0 with good parity (R238). -/
def zeroUnit (s : State) (u : Nat) : State :=
  { s with
    sp := SMap.clearRange s.sp (u * unitBytes) unitBytes, spBad := mend s.spBad (u * unitBytes) unitBytes
    spFill := SMap.set 0 s.spFill u 0 }

/-- A tile fails a march test (R64, R65). -/
def tileMarchFailed (s : State) (p : TileId) : State :=
  match (tile s p.val).service with
  | .inService => tileFault s p
  | .spare => setTileSvc (modTile s p.val fun y => { y with faults := satInc y.faults }) p .failed
  | _ => s

/-- The march of a scheduled tile ends (R218). -/
def tileDueDone (s : State) (p : TileId) (passed : Bool) : State :=
  let s1 := clearTile { s with march := { s.march with tileDue := SMap.set false s.march.tileDue p.val false } } p.val
  if passed then s1 else tileMarchFailed s1 p

/-- DESTRUCTIVE_MARCH_COMPLETE: the test that T0 started ends first, else that of the lowest unit that left an extent, else that of
the lowest tile scheduled for one; a failed unit that left an extent faults its bank (R218, R244–R246; log 24). -/
def execDestructiveMarchComplete (passed : Bool) (s : State) : Outcome State Fault Refusal :=
  .next (takeMark (match s.march.dtest with
    | some v =>
      let s1 := { s with march := { s.march with dtest := none, dtestState := if passed then 2 else 3 } }
      if v < 512 then zeroUnit s1 v
      else match niTile (tileNi (v - 512)) with
        | some p => if passed then clearTile s1 p.val else tileMarchFailed (clearTile s1 p.val) p
        | none => s1
    | none => match s.march.released with
      | (u, _) :: _ =>
        let s1 := zeroUnit { s with march := { s.march with released := SMap.set false s.march.released u false } } u
        if passed then s1 else memFault s1 (u / 64)
      | [] => match (List.finRange 17).find? (tileTested s) with
        | some p => tileDueDone s p passed
        | none => s))

end Sys2Proof.Machine
end

