-- ==== Sys2Proof/Machine/Clocks.lean ====
section
/-! DEFINITION. Profiles, DEEP-SLEEP, clock gates, references and PLLs (R16–R25, R322, R414, R416–R434, R513). -/

namespace Sys2Proof.Machine

open Host (Outcome)

def setClk (s : State) (f : Clocks → Clocks) : State := { s with clk := f s.clk }

/-! ### Profiles (R22, R24, R419, R422, R434) -/

/-- ACTIVE_CEILING: AWAKE polders step to the new array clock as their dwells end. -/
def applyCeiling (s : State) (v : Byte) : Answer :=
  if v.toNat ≤ 1 then (0, setClk s fun c => { c with ceiling := v }) else (0x06090030, s)

/-- IDLE_PROFILE: the fabric ramps at once while every polder is dark. -/
def applyIdle (s : State) (v : Byte) : Answer :=
  if v.toNat ≤ 1 then (0, retargetFab (setClk s fun c => { c with idle := v })) else (0x06090030, s)

/-- RAMP_DWELL. -/
def applyRampDwell (s : State) (v : Byte) : Answer :=
  if 2 ≤ v.toNat ∧ v.toNat ≤ 32 then (0, setClk s fun c => { c with rampDwell := v }) else (0x06090030, s)

/-- IDLE_HOLD of a tenant. -/
def applyIdleHold (s : State) (t : Tenant) (v : Word) : Answer :=
  if v.toNat ≤ 10000000 then (0, modTen s t fun x => { x with idleHold := v }) else (0x06090030, s)

/-! ### DEEP-SLEEP (R24, R25, R322, R414, R513) -/

/-- No order is ACCEPTED or RUNNING in any tenant. -/
def noOrders (s : State) : Bool := allTenants.all fun t => (ten s t).orders.isEmpty

/-- DEEP_SLEEP: refused while an order is held; else every idle hold ends and the entry is pending. -/
def applyDeepSleep (s : State) (k : SesId) (v : Byte) : Answer :=
  if v ≠ 1 then (0x06090030, s)
  else if !noOrders s || decide (s.clk.sleep ≠ .none) then (0x08000022, s)
  else
    let s1 := (List.range 17).foldl sleepPolder s
    let s2 := allTenants.foldl (fun u t => modTen u t fun x => { x with holdRunning := false }) s1
    (0, setClk s2 fun c => { c with sleep := .pending k })

/-- An order became ACCEPTED before DEEP-SLEEP was entered: the entry stops and its command ends with an abort. -/
def cancelSleep (s : State) : State :=
  match s.clk.sleep with
  | .pending k => if noOrders s then s else lateAnswer (setClk s fun c => { c with sleep := .none }) k 0x2200 4 0x08000022
  | _ => s

/-- Every session closes; the one that commanded the sleep has its confirmation. -/
def closeAll (s : State) : State := (List.finRange 5).foldl closeSes s

/-- DEEP-SLEEP is entered: outputs safe, polders OFF, the fabric and the PLLs stopped, the blocks of GATE_DEEP gated. -/
def enterSleep (s : State) (k : SesId) : State :=
  let s0 := { s with field := { s.field with holdSleep := true } }
  let s1 := (List.range 17).foldl polderOff (reopenGates (s0.field.ch.foldl (fun u e => pwmEdge u e.1) s0))
  let s2 := { s1 with fab := { s1.fab with
    clk := .stopped, region := (List.range 8).foldl (fun m r => SMap.set .running m r .stopped) s1.fab.region } }
  let s3 := setClk s2 fun c => { c with
    sleep := .entered, gated := c.gateDeep.truncate 25, lockNoc := false, lockFab := false, lockSys := false }
  let s4 := closeAll (lateAnswer s3 k 0x2200 4 0)
  fallLines (modSes s4 k fun x => { x with reply := some ⟨0, []⟩ })

/-- DEEP_SLEEP_ENTRY: no load, every polder dark or OFF, no order. -/
def execDeepSleepEntry (s : State) : Outcome State Fault Refusal :=
  .next (match s.clk.sleep with
    | .pending k =>
      if s.fab.load.isNone && s.fab.owed.isEmpty && !arrayActive s && noOrders s then enterSleep s k else s
    | _ => s)

/-- Each input's filter takes the level of its first sample as its starting level (R25). -/
def resample (s : State) : State :=
  s.field.ch.foldl (fun u e => modFch u e.1 fun x => { x with
    level := Config.landLevel e.1 s.time.toNat, encB := Config.landLevel (e.1 + 2) s.time.toNat }) s

/-- The fabric restarts from STOPPED with GSR pulsed for one fc (R322). -/
def restartFabric (s : State) : State :=
  let clk : FabClk := if fabFull s then .full else .quarter
  releaseLoad (resample { s with fab := { s.fab with clk := clk } }) (List.range 8)

/-! ### Clock failure (R429, R430) -/

def refOk (s : State) (r : Nat) : Bool := if r = 0 then s.clk.aValid else if r = 1 then s.clk.bValid else false

def setRef (s : State) (r : Fin 2) (v : Bool) : State :=
  setClk s fun c => if r = 0 then { c with aValid := v } else { c with bValid := v }

/-- The clock state changes, which is logged. -/
def setClkSt (s : State) (st : ClkSt) : State := logEvent (setClk s fun c => { c with st := st }) 0x0A02 2 [] 0 st.code []

/-- Step 3: relock to a reference, or wait without one. -/
def relockTo (s : State) (r : Option Nat) : State :=
  match r with
  | some k => emergency (setClkSt (setClk s fun c => { c with inUse := BitVec.ofNat 2 k }) .relocking) allTenants 0x5020
      [BitVec.ofNat 8 k]
  | none => emergency (setClkSt (setClk s fun c => { c with inUse := 2 }) .holdover) allTenants 0x5020 [2]

/-- Steps 1 and 2: safe state, FOSC, service traps, frozen starts, dark polders, holdover, lost links; running orders will be
re-executed. -/
def stopClocks (s : State) : State :=
  let awake := (List.finRange 17).filter fun p => (tile s p.val).polder.isAwake
  let s1 := setClk s fun c => { c with
    freeze := true, wasAwake := awake, lockNoc := false, lockFab := false, lockSys := false }
  let s2 := { s1 with
    field := { s1.field with holdClock := true }
    fab := { s1.fab with clk := if s1.fab.clk = .stopped then .stopped else .fosc } }
  let s3 := allTenants.foldl recompute ((List.range 17).foldl stopPolder s2)
  fabEdge (tideFault (allLinksLost s3) 3 0x0A02)

/-- A clock failure in NORMAL; the same reference serves after a PLL's loss of lock, else the other one. -/
def clockFail (s : State) (same : Bool) : State :=
  let u := s.clk.inUse.toNat
  let pick := if same && refOk s u then some u else if refOk s (1 - u) then some (1 - u) else none
  relockTo (stopClocks s) pick

/-- No start or reset is under way. -/
def moduleUp (s : State) : Bool := decide (s.start.mode = .running ∨ s.start.mode = .safeShell)

/-- A reference becomes invalid; the one in use stops the clocks, or ends the relocking to it. In DEEP-SLEEP no PLL runs. -/
def refLost (s : State) (r : Fin 2) : State :=
  let s1 := if refOk s r.val then logEvent (setRef s r false) 0x0A01 1 [] 0 r.val [] else s
  if s.clk.sleep = .entered ∨ s.clk.inUse.toNat ≠ r.val ∨ moduleUp s = false then s1
  else match s.clk.st with
    | .normal => clockFail s1 false
    | .relocking => relockTo s1 none
    | .holdover => s1

/-- REF_MISSING_EDGE: no rising edge for 100 ns. -/
def execRefMissingEdge (ref : Fin 2) (s : State) : Outcome State Fault Refusal := .next (takeMark (refLost s ref))

/-- REF_INVALID: the frequency or the agreement of the references fails R417. -/
def execRefInvalid (ref : Fin 2) (s : State) : Outcome State Fault Refusal := .next (takeMark (refLost s ref))

/-- REF_VALID: a reference not in use has been valid for 1 ms. -/
def execRefValid (ref : Fin 2) (s : State) : Outcome State Fault Refusal := .next (setRef s ref true)

/-- The PLL runs: PLL_ARR while a polder is RAMPING or AWAKE, the others outside DEEP-SLEEP (R416). -/
def pllRuns (s : State) (pll : Fin 4) : Bool :=
  if pll = 0 then arrayActive s else decide (s.clk.sleep ≠ .entered)

/-- PLL_LOSS_OF_LOCK: 0 PLL_ARR, 1 PLL_NOC, 2 PLL_FAB, 3 PLL_SYS. -/
def execPllLossOfLock (pll : Fin 4) (s : State) : Outcome State Fault Refusal :=
  .next (takeMark (if s.clk.st = .normal ∧ pllRuns s pll = true ∧ moduleUp s = true then clockFail s true else s))

/-- PLL_RELOCK: steps 4 and 5 of R429. -/
def execPllRelock (s : State) : Outcome State Fault Refusal :=
  .next (if s.clk.st = .relocking then
      let back := s.clk.wasAwake
      let s1 := setClk (setClkSt s .normal) fun c => { c with
        refSwitches := satInc c.refSwitches, freeze := false, wasAwake := [], lockNoc := true, lockFab := true, lockSys := true }
      let s2 := { s1 with
        field := { s1.field with holdClock := false }
        fab := { s1.fab with clk := if s1.fab.clk = .fosc then .quarter else s1.fab.clk } }
      fabEdge (kickAll (tryReexecAll (retargetFab (back.foldl (fun u p => wakePolder u p.val) s2))))
    else s)

/-- HOLDOVER_REF_VALID: a reference has been valid for 1 ms. -/
def execHoldoverRefValid (ref : Fin 2) (s : State) : Outcome State Fault Refusal :=
  .next (if s.clk.st = .holdover then relockTo (setRef s ref true) (some ref.val) else s)

/-- REF_SELECT. -/
def applyRefSelect (s : State) (v : Byte) : Answer :=
  if v.toNat ≤ 1 then (0, setClk s fun c => { c with refSelect := v }) else (0x06090030, s)

/-- A network wake: the PLLs lock, the fabric restarts, blocks run, and sessions open as their channels stand (R24, R414). -/
def wakeModule (s : State) : State :=
  let s1 := setClk s fun c => { c with sleep := .none, gated := 0, lockNoc := true, lockFab := true, lockSys := true }
  let s2 := (List.range 25).foldl openGate s1
  let s3 := restartFabric { s2 with field := { s2.field with holdSleep := false } }
  let s4 := allTenants.foldl syncSes s3
  if refOk s4 s4.clk.inUse.toNat then s4 else clockFail s4 false

/-! ### Clock gates (R425–R428) -/

/-- GATE_RUN: a cleared bit reopens a gated block. -/
def applyGateRun (s : State) (v : Word) : Answer :=
  if v.toNat / 2 ^ 25 = 0 then (0, reopenGates (setClk s fun c => { c with gateRun := v })) else (0x06090030, s)

/-- GATE_SLEEP. -/
def applyGateSleep (s : State) (v : Word) : Answer :=
  if v.toNat / 2 ^ 25 = 0 then (0, reopenGates (setClk s fun c => { c with gateSleep := v })) else (0x06090030, s)

/-- GATE_DEEP: the host-channel bits only. -/
def applyGateDeep (s : State) (v : Word) : Answer :=
  if v.toNat / 2 ^ 25 = 0 then (0, setClk s fun c => { c with gateDeep := 0x01F0FFFF ||| (v &&& 0x000F0000) }) else (0x06090030, s)

/-- The block reports no internal work. -/
def blockIdle (s : State) (b : Nat) : Bool :=
  (gateNis b).all (fun n => (ni s n.val).quiet) &&
    (if b < 5 then (match (sqr s b).bound with
        | some t => (runOrder s t).isNone
        | none => true)
      else if b = 15 then (List.finRange 8).all fun c => ingestIdle (cam s c)
      else if b = 20 then s.march.window.isNone && s.march.dtest.isNone
      else true)

/-- The interfaces that a gate closes: of the housekeeping pairs, the standby one's. -/
def closingNis (s : State) (b : Nat) : List NiId :=
  if b = 24 then [if s.start.pairActive = 0 then 34 else 24] else gateNis b

/-- CLOCK_GATE_IDLE: the sluice starts to close the block's interface with reason DARK; a block without one is gated. -/
def execClockGateIdle (block : Fin 25) (s : State) : Outcome State Fault Refusal :=
  .next (if (gateMask s).getLsbD block.val && blockIdle s block.val && !s.clk.gated.getLsbD block.val &&
      decide (s.clk.sleep ≠ .entered) then
      (match closingNis s block.val with
        | [] => setClk s fun c => { c with gated := c.gated ||| (1#25 <<< block.val) }
        | l => l.foldl (fun u n => closeNi u n.val .dark) s)
    else s)

end Sys2Proof.Machine
end

