-- ==== Sys2Proof/Machine/Fabric.lean ====
section
/-! DEFINITION. The operations of fabric cells (R300–R303, R312, R330) and the receive side of the serial ports (R310, R316). -/

namespace Sys2Proof.Machine

open Host (Outcome)

/-! ### Entries (R301) -/

/-- An operand: Q0–Q3 or I0–I3. -/
def cellOperand (s : State) (r c f : Nat) (code : Nat) : Half :=
  if code < 4 then (cell s r c).q.getD code 0
  else BitVec.ofNat 16 (selVal s r c f ((cellCfg s r c).sel.getD (code - 4) 0xFF))

/-- Control input E0 or E1. -/
def cellCtl (s : State) (r c f i : Nat) : Bool :=
  decide (selVal s r c f ((cellCfg s r c).sel.getD (4 + i) 0xFF) % 2 = 1)

/-- What an operation computes: result, carry and overflow (R302). -/
structure CellRes where
  r : Half
  cy : Bool
  v : Bool
  deriving DecidableEq, Repr

/-- The entry that a cell executes. -/
def cellEntry (s : State) (r c : Nat) : Word := (cellCfg s r c).ir.getD (cell s r c).sc.toNat 0

def bField (w : Word) (hi lo : Nat) : Nat := w.toNat / 2 ^ lo % 2 ^ (hi + 1 - lo)

/-- The next step counter (R301 ADV). -/
def cellNext (w : Word) (x : Cell) (e0 e1 : Bool) (z : Bool) : BitVec 3 :=
  let nxt : BitVec 3 := BitVec.ofNat 3 (bField w 11 9)
  match bField w 8 7 with
  | 0 => nxt
  | 1 => if e0 then nxt else x.sc
  | 2 => if e1 && !x.prevE1 then nxt else x.sc
  | _ => if z then nxt else x.sc + 1

/-- One entry, with an operation that maps a, b, E0 and the fabric time: the cell reads its state and inputs of fc `f` and
writes Q, O, T, the flags and SC at the next edge (R303). -/
def cellWrite (s : State) (r c f : Nat) (op : Half → Half → Bool → DWord → CellRes) : Cell :=
  let x := cell s r c
  let w := cellEntry s r c
  let a := cellOperand s r c f (bField w 26 24)
  let b : Half := if w.getLsbD 20 then (w.truncate 7).signExtend 16 else cellOperand s r c f (bField w 23 21)
  let e0 := cellCtl s r c f 0
  let e1 := cellCtl s r c f 1
  let y := op a b e0 s.time
  let z := decide (y.r = 0)
  let n := y.r.msb
  let t := match bField w 14 12 with
    | 0 => x.t
    | 1 => z
    | 2 => n
    | 3 => y.cy
    | 4 => y.v
    | 5 => e0
    | 6 => e1
    | _ => !z
  let wf := w.getLsbD 15
  { sc := cellNext w x e0 e1 z
    q := if w.getLsbD 17 then x.q.set (bField w 19 18) y.r else x.q
    o := if w.getLsbD 16 then y.r else x.o, t := t
    z := if wf then z else x.z, n := if wf then n else x.n, cy := if wf then y.cy else x.cy, v := if wf then y.v else x.v
    last := f + 1, prevO := x.o, prevT := x.t, prevE1 := e1 }

/-- A cell executes its entry when the entry's OP is the command's and its region runs. A cell that has executed the present
fc begins the next one (log 19). Lines, port inputs and PWM starts follow at the edge. -/
def runCell (s : State) (r c : Nat) (op : Nat) (f : Half → Half → Bool → DWord → CellRes) : State :=
  if !regionRuns s (c / 4) || decide (s.fab.clk = .stopped) || decide (bField (cellEntry s r c) 31 27 ≠ op) then s
  else
    let s1 := if (cell s r c).last ≤ s.fab.fc then s else nextFc s
    takeMark (linesStep (fabEdge (setCell s1 r c (cellWrite s1 r c s1.fab.fc f))))

/-! ### Operations (R302) -/

def plainRes (r : Half) : CellRes := ⟨r, false, false⟩

/-- Carry out and signed overflow of a sum with carry in. -/
def addRes (a b : Half) (cin : Bool) : CellRes :=
  let r := a + b + (BitVec.ofBool cin).zeroExtend 16
  ⟨r, decide (2 ^ 16 ≤ a.toNat + b.toNat + cin.toNat), decide (a.msb = b.msb ∧ r.msb ≠ a.msb)⟩

/-- OP 0. -/
def execCellPass (r : Fin 64) (c : Fin 32) (s : State) : Outcome State Fault Refusal :=
  .next (runCell s r.val c.val 0 fun a _ _ _ => plainRes a)
/-- OP 1. -/
def execCellAdd (r : Fin 64) (c : Fin 32) (s : State) : Outcome State Fault Refusal :=
  .next (runCell s r.val c.val 1 fun a b _ _ => addRes a b false)
/-- OP 2: a carry of 1 is no borrow. -/
def execCellSub (r : Fin 64) (c : Fin 32) (s : State) : Outcome State Fault Refusal :=
  .next (runCell s r.val c.val 2 fun a b _ _ => addRes a (~~~b) true)
/-- OP 3. -/
def execCellAnd (r : Fin 64) (c : Fin 32) (s : State) : Outcome State Fault Refusal :=
  .next (runCell s r.val c.val 3 fun a b _ _ => plainRes (a &&& b))
/-- OP 4. -/
def execCellOr (r : Fin 64) (c : Fin 32) (s : State) : Outcome State Fault Refusal :=
  .next (runCell s r.val c.val 4 fun a b _ _ => plainRes (a ||| b))
/-- OP 5. -/
def execCellXor (r : Fin 64) (c : Fin 32) (s : State) : Outcome State Fault Refusal :=
  .next (runCell s r.val c.val 5 fun a b _ _ => plainRes (a ^^^ b))
/-- OP 6. -/
def execCellNot (r : Fin 64) (c : Fin 32) (s : State) : Outcome State Fault Refusal :=
  .next (runCell s r.val c.val 6 fun a _ _ _ => plainRes (~~~a))
/-- OP 7. -/
def execCellShl (r : Fin 64) (c : Fin 32) (s : State) : Outcome State Fault Refusal :=
  .next (runCell s r.val c.val 7 fun a b _ _ => plainRes (a <<< (b.toNat % 16)))
/-- OP 8. -/
def execCellShr (r : Fin 64) (c : Fin 32) (s : State) : Outcome State Fault Refusal :=
  .next (runCell s r.val c.val 8 fun a b _ _ => plainRes (a >>> (b.toNat % 16)))
/-- OP 9. -/
def execCellSra (r : Fin 64) (c : Fin 32) (s : State) : Outcome State Fault Refusal :=
  .next (runCell s r.val c.val 9 fun a b _ _ => plainRes (a.sshiftRight (b.toNat % 16)))
/-- OP 10. -/
def execCellMux (r : Fin 64) (c : Fin 32) (s : State) : Outcome State Fault Refusal :=
  .next (runCell s r.val c.val 10 fun a b e0 _ => plainRes (if e0 then b else a))
/-- OP 11: CY is the carry out of the increment. -/
def execCellCnt (r : Fin 64) (c : Fin 32) (s : State) : Outcome State Fault Refusal :=
  .next (runCell s r.val c.val 11 fun a _ e0 _ =>
    if e0 then ⟨a + 1, decide (a = 0xFFFF), false⟩ else plainRes a)
/-- OP 12. -/
def execCellMinu (r : Fin 64) (c : Fin 32) (s : State) : Outcome State Fault Refusal :=
  .next (runCell s r.val c.val 12 fun a b _ _ => plainRes (if a.toNat ≤ b.toNat then a else b))
/-- OP 13. -/
def execCellMaxu (r : Fin 64) (c : Fin 32) (s : State) : Outcome State Fault Refusal :=
  .next (runCell s r.val c.val 13 fun a b _ _ => plainRes (if b.toNat ≤ a.toNat then a else b))
/-- OP 14: halfword j = b mod 4 of the fabric time. -/
def execCellTime (r : Fin 64) (c : Fin 32) (s : State) : Outcome State Fault Refusal :=
  .next (runCell s r.val c.val 14 fun _ b _ time => plainRes (time.extractLsb' (16 * (b.toNat % 4)) 16))

/-! ### Serial ports (R310, R316) -/

/-- A serial port takes a received byte: a UART always, an SPI controller one for each byte that it sends, an I²C controller once it
has sent the byte that opens the transfer (R316; log 70). -/
def serialTakes (s : State) (port : Nat) : Bool := match (SMap.get 0 s.fab.serialMode port).toNat % 4 with
  | 0 => false
  | 1 => true
  | _ => decide (0 < SMap.get 0 s.fab.txOpen port)

/-- SERIAL_RX_BYTE: SP2 (port 0) or SP3 (port 1) receives a byte; RXD shows it, valid in the next fc. -/
def execSerialRxByte (port : Fin 2) (b : Byte) (s : State) : Outcome State Fault Refusal :=
  let spi := decide ((SMap.get 0 s.fab.serialMode port.val).toNat % 4 = 2)
  .next (if serialTakes s port.val = false ∨ regionRuns s (7 * port.val) = false then s
    else { s with fab := { s.fab with
      rxd := SMap.set (0, 0) s.fab.rxd port.val (s.fab.fc + 1, b)
      txOpen := if spi then SMap.set 0 s.fab.txOpen port.val (SMap.get 0 s.fab.txOpen port.val - 1) else s.fab.txOpen } })

end Sys2Proof.Machine
end

