-- ==== Sys2Proof/Machine/Int.lean ====
section
/-! DEFINITION. The integer class (OPC 0x02, R84, R85, R104, R109–R121). -/

namespace Sys2Proof.Machine

open Host (Outcome)

/-- Entry `e` of the reciprocal table (R119). -/
def recip (e : Nat) : Nat := (131072 + (257 + 2 * e)) / (2 * (257 + 2 * e))

/-- The 1,024 berm bits of one PE (R41). -/
def loadBermPe (s : State) (k : Nat) : State :=
  (List.range 1024).foldl (fun u i => setPeBit u k (3072 + i) ((recip (i / 8)).testBit (i % 8))) s

/-- Some tile of the tenant has its berm-valid flag clear. -/
def bermStale (s : State) (t : Tenant) : Bool :=
  (physTiles s (ownTiles s t)).any fun p => !(tile s p.val).bermValid

/-- An instruction that reads the table starts: a reclaim ends, and a stale table is loaded into every tile (R41, R42). -/
def startBerm (s : State) (t : Tenant) : State :=
  let ps := physTiles s (ownTiles s t)
  let s1 := ps.foldl (fun u p => modTile u p.val fun x => { x with reclaimed := false }) s
  if bermStale s t then
    ps.foldl (fun u p => modTile ((List.range 4096).foldl (fun v i => loadBermPe v (p.val * 4096 + i)) u) p.val
      fun x => { x with bermValid := true }) s1
  else s1

/-- The time of the table load (R41). -/
def bermAc (s : State) (t : Tenant) : Nat := if bermStale s t then 1040 else 0

/-- Destination, source A and their checks. -/
def intD (fn : IntFn) (f : FmtA) : Fld := ⟨f.di, f.db.toNat, fn.dWidth (width f)⟩
def intA (f : FmtA) : Fld := ⟨f.ai, f.ab.toNat, width f⟩

def intChk (s : State) (t : Tenant) (fn : IntFn) (f : FmtA) (q : SeqId) : Check :=
  let g := gw s q
  let b := srcB s q f (f.modf.getLsbD 3) (width f)
  let noB := decide (fn = .neg)
  Check.first [
    illegalIf (decide (f.res ≠ 0 ∨ f.modf.extractLsb' 0 2 ≠ 0) || (f.modf.getLsbD 2 && !fn.satLegal) ||
      (decide (fn = .mulw) && decide (32 < width f)) || (noB && (decide (f.bb ≠ 0) || f.bi || f.bs)) || bsBad f),
    writeCheck s t (intD fn f) g, readCheck (intA f) g 1, if noB then none else srcCheck b g 2,
    overlapCheck (intD fn f) (intA f) (if noB then .scalar 0 else b) g]

/-- C and F of an element after the function (R85, R104). -/
def intRegs (s0 : State) (g : Nat) (fn : IntFn) (r : IntRes) (u : State) (e : Elem) : State :=
  let u1 := match r.c with
    | some c => setC u g e c
    | none => freeC s0 g u e
  if fn.isCmp then setF u1 g e (r.d.testBit 0) else if fn.isMulDiv then freeF s0 g u1 e else u1

/-- The time of an instruction over its active elements (R84, R114, R116). -/
def intAc (s : State) (g : Nat) (fn : IntFn) (S : Bool) (w : Nat) (b : Src) (es : List Elem) : Nat :=
  match fn with
  | .mul | .mulw =>
    mulTime g w S (es.foldl (fun m e => Nat.max m (bitLen (magnitude S w (b.read s g e)))) 0)
  | .div | .mod => divTime g w (es.any fun e => decide (b.read s g e ≠ 0))
  | _ => intTime fn g w

/-- An integer instruction: every active element reads its sources before any write (R75, R84). -/
def intInstr (s : State) (t : Tenant) (fn : IntFn) (opFn : Nat) (f : FmtA) : State :=
  let w := width f
  let S := f.modf.getLsbD 3
  runAis s t (wordA f 2 opFn) (intChk s t fn f) fun q s1 =>
    let g := gw s q
    let d := intD fn f
    let a := intA f
    let b := if fn = .neg then .scalar 0 else srcB s q f S w
    let es := elems s g (ownTiles s t)
    let s2 := touchSrc (touch (touch s1 g es d) g es a) g es b
    let s3 := if fn.readsBerm then startBerm s2 t else s2
    let act := es.filter (active s g)
    let s4 := act.foldl (fun u e =>
      let r := intElem fn S (f.modf.getLsbD 2) w (readField s3 g e a) (b.read s3 g e) (pe s (e.lane g 0)).c
      let ops := d :: a :: b.fld?.toList
      let v := overlapFree s g e ops d.w r.d
      intRegs s g fn ⟨v, overlapC s g e ops r.c, 0⟩
        (setSticky (writeDest s3 g d u e v) (e.lane g 0) (overlapFlags s g e ops fn.flagSet r.flags)) e) s3
    finish s4 t q (intAc s3 g fn S w b act + indAc f + if fn.readsBerm then bermAc s t else 0)

/-- ADD: D ← A + B. -/
def execAdd (t : Tenant) (f : FmtA) (s : State) : Outcome State Fault Refusal := .next (intInstr s t .add 0 f)
/-- ADDC: D ← A + B + C. -/
def execAddc (t : Tenant) (f : FmtA) (s : State) : Outcome State Fault Refusal := .next (intInstr s t .addc 1 f)
/-- SUB: D ← A + NOT B + 1. -/
def execSub (t : Tenant) (f : FmtA) (s : State) : Outcome State Fault Refusal := .next (intInstr s t .sub 2 f)
/-- SUBB: D ← A + NOT B + C. -/
def execSubb (t : Tenant) (f : FmtA) (s : State) : Outcome State Fault Refusal := .next (intInstr s t .subb 3 f)
/-- MUL: D ← low w bits of A × B. -/
def execMul (t : Tenant) (f : FmtA) (s : State) : Outcome State Fault Refusal := .next (intInstr s t .mul 4 f)
/-- MULW: D ← A × B, width 2w. -/
def execMulw (t : Tenant) (f : FmtA) (s : State) : Outcome State Fault Refusal := .next (intInstr s t .mulw 5 f)
/-- DIV: D ← A / B. -/
def execDiv (t : Tenant) (f : FmtA) (s : State) : Outcome State Fault Refusal := .next (intInstr s t .div 6 f)
/-- MOD: D ← A mod B. -/
def execMod (t : Tenant) (f : FmtA) (s : State) : Outcome State Fault Refusal := .next (intInstr s t .mod 7 f)
/-- NEG: D ← 0 − A. -/
def execNeg (t : Tenant) (f : FmtA) (s : State) : Outcome State Fault Refusal := .next (intInstr s t .neg 8 f)
/-- MIN: D ← the smaller of A and B. -/
def execMin (t : Tenant) (f : FmtA) (s : State) : Outcome State Fault Refusal := .next (intInstr s t .min 9 f)
/-- MAX: D ← the larger of A and B. -/
def execMax (t : Tenant) (f : FmtA) (s : State) : Outcome State Fault Refusal := .next (intInstr s t .max 10 f)
/-- CMPEQ: D[0] and F ← (A = B). -/
def execCmpeq (t : Tenant) (f : FmtA) (s : State) : Outcome State Fault Refusal := .next (intInstr s t .cmpeq 12 f)
/-- CMPNE: D[0] and F ← (A ≠ B). -/
def execCmpne (t : Tenant) (f : FmtA) (s : State) : Outcome State Fault Refusal := .next (intInstr s t .cmpne 13 f)
/-- CMPLT: D[0] and F ← (A < B). -/
def execCmplt (t : Tenant) (f : FmtA) (s : State) : Outcome State Fault Refusal := .next (intInstr s t .cmplt 14 f)
/-- CMPLE: D[0] and F ← (A ≤ B). -/
def execCmple (t : Tenant) (f : FmtA) (s : State) : Outcome State Fault Refusal := .next (intInstr s t .cmple 15 f)

end Sys2Proof.Machine
end

