-- ==== Sys2Proof/Machine/Fp.lean ====
section
/-! DEFINITION. The floating-point class (OPC 0x03, R86, R104, R105, R125–R146, R149, R150). -/

namespace Sys2Proof.Machine

open Host (Outcome)

/-- What the instruction word fixes (R86). -/
def fpPar (f : FmtA) : FpPar :=
  ⟨fmtOf (f.modf.toNat % 4), rmOf (f.modf.extractLsb' 2 2), fmtOf (f.bb.toNat % 4), f.bb.toNat % 64 + 1, f.bb.getLsbD 6⟩

/-- Bits of the B fields that must be 0. -/
def fpBadB (fn : FpFn) (f : FmtA) : Bool :=
  match fn with
  | .fsqrt | .fneg | .fabs => decide (f.bb ≠ 0) || f.bi || f.bs
  | .fcvt => decide (3 ≤ f.bb.toNat) || f.bi || f.bs
  | .fcvti | .fcvtf => decide (128 ≤ f.bb.toNat) || f.bi || f.bs
  | _ => bsBad f

def fpD (fn : FpFn) (f : FmtA) : Fld := ⟨f.di, f.db.toNat, fn.dWidth (fpPar f)⟩
def fpA (fn : FpFn) (f : FmtA) : Fld := ⟨f.ai, f.ab.toNat, fn.aWidth (fpPar f)⟩

/-- Source B: a field or scalar of the format's width, or none. -/
def fpB (s : State) (fn : FpFn) (f : FmtA) (q : SeqId) : Src :=
  if fn.hasB then srcB s q f false (fpPar f).fmt.w else .scalar 0

def fpChk (s : State) (t : Tenant) (fn : FpFn) (f : FmtA) (q : SeqId) : Check :=
  let g := gw s q
  Check.first [illegalIf (decide (f.res ≠ 0 ∨ f.wm1 ≠ 0 ∨ f.modf.toNat % 4 = 3) || fpBadB fn f),
    gangIf (decide ((sqr s q.val).gw = .g4)), writeCheck s t (fpD fn f) g, readCheck (fpA fn f) g 1,
    srcCheck (fpB s fn f q) g 2, overlapCheck (fpD fn f) (fpA fn f) (fpB s fn f q) g]

/-- The tenant runs in TRAP: its context says so and the sequencer is at program level (R136). -/
def trapModeOn (s : State) (t : Tenant) (q : SeqId) : Bool :=
  !(sqr s q.val).tl && match heldCtx s t with
    | some k => (ctx s k.val).trapMode
    | none => false

/-- Result and flags of an element, and whether it calls for the assist. -/
def fpAt (s : State) (g : Nat) (fn : FpFn) (f : FmtA) (tm : Bool) (b : Src) (e : Elem) : FRes × Bool :=
  fpElem fn (fpPar f) tm (readField s g e (fpA fn f)) (b.read s g e)
    (if fn = .fma then readField s g e (fpD fn f) else 0)

/-- The data-dependent parameters over the active elements (R144). -/
def fpParams (s : State) (g : Nat) (fn : FpFn) (f : FmtA) (tm : Bool) (b : Src) (es : List Elem) : FpTime :=
  let fm := (fpPar f).fmt
  let fl := fun x => if fn.flushes then fm.flush tm x else x
  es.foldl (fun a e => a.join (fpTime1 fm (fl (readField s g e (fpA fn f))) (fl (b.read s g e))
    (fl (if fn = .fma then readField s g e (fpD fn f) else 0)))) (FpTime.none fm)

/-- A floating-point instruction. The flag OR of its elements is on its way to the sequencer when it ends (R135). A
function that calls for the assist sets its flags, leaves its destination and F, and ends with cause 3 (R138). -/
def fpInstr (s : State) (t : Tenant) (fn : FpFn) (opFn : Nat) (f : FmtA) : State :=
  runAis s t (wordA f 3 opFn) (fpChk s t fn f) fun q s1 =>
    let g := gw s q
    let d := fpD fn f
    let a := fpA fn f
    let b := fpB s fn f q
    let tm := trapModeOn s t q
    let es := elems s g (ownTiles s t)
    let s2 := touchSrc (touch (touch s1 g es d) g es a) g es b
    let s3 := if fn = .fdiv then startBerm s2 t else s2
    let act := es.filter (active s g)
    let assist := act.any fun e => (fpAt s3 g fn f tm b e).2
    let fl := fun e => overlapFlags s g e (d :: a :: b.fld?.toList) (if fn = .fneg ∨ fn = .fabs then 0 else 0x1F)
      (fpAt s3 g fn f tm b e).1.flags
    let s4 := act.foldl (fun u e =>
      let r := (fpAt s3 g fn f tm b e).1
      let v := overlapFree s g e (d :: a :: b.fld?.toList) d.w r.d
      let u1 := freeC s g (setSticky (if assist then u else writeDest s3 g d u e v) (e.lane g 0) (fl e)) e
      if assist then u1 else if fn.isCmp then setF u1 g e (v.testBit 0) else freeF s g u1 e) s3
    let flags := act.foldl (fun m e => m ||| fl e) 0#8
    let pc := (sqr s q.val).pc
    let s5 := modSqr s4 q.val fun x => { x with flagOrs := x.flagOrs ++ [⟨flags.truncate 5, pc, x.tl⟩] }
    let ac := fpTime fn (fpPar f) g (fpParams s3 g fn f tm b act) + indAc f + if fn = .fdiv then bermAc s t else 0
    if assist then
      raiseTrap (afterRoutine (addTime s5 t ac) t q) t q 3 0 pc.toNat (pc + 1).toNat noUpc
    else finish s5 t q ac

/-- FADD: D ← A + B. -/
def execFadd (t : Tenant) (f : FmtA) (s : State) : Outcome State Fault Refusal := .next (fpInstr s t .fadd 0 f)
/-- FSUB: D ← A − B. -/
def execFsub (t : Tenant) (f : FmtA) (s : State) : Outcome State Fault Refusal := .next (fpInstr s t .fsub 1 f)
/-- FMUL: D ← A × B. -/
def execFmul (t : Tenant) (f : FmtA) (s : State) : Outcome State Fault Refusal := .next (fpInstr s t .fmul 2 f)
/-- FDIV: D ← A / B. -/
def execFdiv (t : Tenant) (f : FmtA) (s : State) : Outcome State Fault Refusal := .next (fpInstr s t .fdiv 3 f)
/-- FMA: D ← A × B + D, rounded once. -/
def execFma (t : Tenant) (f : FmtA) (s : State) : Outcome State Fault Refusal := .next (fpInstr s t .fma 4 f)
/-- FSQRT: D ← √A. -/
def execFsqrt (t : Tenant) (f : FmtA) (s : State) : Outcome State Fault Refusal := .next (fpInstr s t .fsqrt 5 f)
/-- FMIN: D ← minimum of A and B. -/
def execFmin (t : Tenant) (f : FmtA) (s : State) : Outcome State Fault Refusal := .next (fpInstr s t .fmin 6 f)
/-- FMAX: D ← maximum of A and B. -/
def execFmax (t : Tenant) (f : FmtA) (s : State) : Outcome State Fault Refusal := .next (fpInstr s t .fmax 7 f)
/-- FCMPEQ: D[0] and F ← (A = B). -/
def execFcmpeq (t : Tenant) (f : FmtA) (s : State) : Outcome State Fault Refusal := .next (fpInstr s t .fcmpeq 8 f)
/-- FCMPLT: D[0] and F ← (A < B). -/
def execFcmplt (t : Tenant) (f : FmtA) (s : State) : Outcome State Fault Refusal := .next (fpInstr s t .fcmplt 9 f)
/-- FCMPLE: D[0] and F ← (A ≤ B). -/
def execFcmple (t : Tenant) (f : FmtA) (s : State) : Outcome State Fault Refusal := .next (fpInstr s t .fcmple 10 f)
/-- FCVT: D ← A in another format. -/
def execFcvt (t : Tenant) (f : FmtA) (s : State) : Outcome State Fault Refusal := .next (fpInstr s t .fcvt 11 f)
/-- FCVTI: D (integer) ← A (float). -/
def execFcvti (t : Tenant) (f : FmtA) (s : State) : Outcome State Fault Refusal := .next (fpInstr s t .fcvti 12 f)
/-- FCVTF: D (float) ← A (integer). -/
def execFcvtf (t : Tenant) (f : FmtA) (s : State) : Outcome State Fault Refusal := .next (fpInstr s t .fcvtf 13 f)
/-- FNEG: D ← A with its sign inverted. -/
def execFneg (t : Tenant) (f : FmtA) (s : State) : Outcome State Fault Refusal := .next (fpInstr s t .fneg 14 f)
/-- FABS: D ← A with its sign cleared. -/
def execFabs (t : Tenant) (f : FmtA) (s : State) : Outcome State Fault Refusal := .next (fpInstr s t .fabs 15 f)

end Sys2Proof.Machine
end

