-- ==== Sys2Proof/Machine/NetBase.lean ====
section
/-! DEFINITION. Host controllers: PDO parameters, image lengths, controller faults and moves (R395–R399, R407–R413). -/

namespace Sys2Proof.Machine

open Host (Outcome)

/-! ### PDO parameters (R409) -/

/-- The CAN controller of a tenant. -/
def canOf (s : State) (t : Tenant) : Option CtrlId :=
  match channelOf s t with
  | some h => if h.val < 2 then none else some (Fin.ofNat 2 h.val)
  | none => none

/-- The ESC of a tenant. -/
def escOf (s : State) (t : Tenant) : Option CtrlId :=
  match channelOf s t with
  | some h => if h.val < 2 then some (Fin.ofNat 2 h.val) else none
  | none => none

def tenNode (s : State) (t : Tenant) : Nat :=
  match canOf s t with
  | some c => nodeId s c t
  | none => 0

/-- The predefined COB-IDs. -/
def rpdoId (node k : Nat) : Nat := 0x200 + 0x100 * k + node
def tpdoId (node k : Nat) : Nat := 0x180 + 0x100 * k + node

/-- Bit 31 set for k = 1 to 3. -/
def offBit (k : Nat) : Nat := if k = 0 then 0 else 2 ^ 31

/-- The parameters in force; `none` in the instance stands for the defaults. -/
def rpdoOf (s : State) (k : SesId) (i : Nat) : Rpdo :=
  (SMap.get none (ses s k).rpdo i).getD ⟨BitVec.ofNat 32 (offBit i + rpdoId (tenNode s (sesTenant k)) i), 255⟩

def tpdoOf (s : State) (k : SesId) (i : Nat) : Tpdo :=
  (SMap.get none (ses s k).tpdo i).getD ⟨BitVec.ofNat 32 (offBit i + tpdoId (tenNode s (sesTenant k)) i), 1, 0, 0⟩

/-! ### Images (R399, R410) -/

/-- Bytes of a mapping entry: its length field, or 32 for 0. -/
def entryBytes (e : Word) : Nat := if e.toNat % 256 = 0 then 32 else e.toNat % 256 / 8

/-- The entries of a PDO in use. -/
def pdoEntries (x : Session) (tx : Bool) (p : Nat) : List Word :=
  let n := (SMap.get 0 (if tx then x.txCount else x.rxCount) p).toNat
  (List.range n).map fun i => SMap.get 0 (if tx then x.txMap else x.rxMap) (32 * p + i)

def pdoBytes (x : Session) (tx : Bool) (p : Nat) : Nat := ((pdoEntries x tx p).map entryBytes).foldl (· + ·) 0

/-- The assigned PDOs, in the order of their subindexes. -/
def assigned (x : Session) (tx : Bool) : List Nat :=
  (if tx then x.txAssign else x.rxAssign).filterMap fun v => if v = 0 then none else some (v.toNat % 4)

/-- A tenant's image in one direction. -/
def imageLen (x : Session) (tx : Bool) : Nat := ((assigned x tx).map (pdoBytes x tx)).foldl (· + ·) 0

/-! ### Lands (R500, R501) -/

/-- ESCn_Pp_LINK: the PHY of port `p` has its link up. -/
def escLink (s : State) (e : CtrlId) (p : Fin 2) : Bool := Config.escLink e.val p.val s.time.toNat

/-- CANn_STBY: high while the controller is FENCED, FAILED or in reset (log 71). -/
def canStby (s : State) (c : CtrlId) : Bool := decide ((can s c).service ≠ .inService) || !moduleUp s

/-! ### Controllers (R412, R413) -/

def setCtrlService (s : State) (h : HostCh) (v : CtrlService) : State :=
  if h.val < 2 then modEsc s (Fin.ofNat 2 h.val) fun x => { x with service := v }
  else modCan s (Fin.ofNat 2 h.val) fun x => { x with service := v }

def partnerOf (h : HostCh) : HostCh := if h.val % 2 = 0 then h + 1 else h - 1

/-- COB-IDs equal to their predefined values for the old node-ID take those for the new one. -/
def moveCobs (x : Session) (old new : Nat) : Session :=
  let sub := fun (c : Word) (a b : Nat) => if c.toNat % 2048 = a then BitVec.ofNat 32 (c.toNat - a + b) else c
  { x with
    rpdo := x.rpdo.map fun e => (e.1, e.2.map fun r => { r with cobId := sub r.cobId (rpdoId old e.1) (rpdoId new e.1) })
    tpdo := x.tpdo.map fun e => (e.1, e.2.map fun r => { r with cobId := sub r.cobId (tpdoId old e.1) (tpdoId new e.1) }) }

/-- A tenant moves to the partner, where its session opens as the channel stands and receives CHANNEL_MOVED. -/
def moveTenant (s : State) (old new : HostCh) (t : Tenant) : State :=
  let node := tenNode s t
  let s1 := modTen (closeSes s (tenSes t)) t fun x => { x with movedTo := some new }
  let s2 := modSes s1 (tenSes t) fun x => moveCobs x node (tenNode s1 t)
  emcyTo (syncSes (bootNode s2 t) t) (tenSes t) 0x8110 [BitVec.ofNat 8 old.val, BitVec.ofNat 8 new.val]

/-- The protocol state of a controller that stops. -/
def stopCtrl (s : State) (h : HostCh) : State :=
  if h.val < 2 then
    modEsc s (Fin.ofNat 2 h.val) fun x => { x with
      al := .init, alStatus := 0, cycle := 0, cfg := none, members := [], sm2 := [], sm2Fresh := false, sm2Wait := false, sm3 := []
      mailboxError := 0, info := [] }
  else modCan s (Fin.ofNat 2 h.val) fun x => { x with rpdoHeld := [], lastTx := none, lssError := 0 }

/-- A controller in service is declared faulted: its sluice closes, and its tenants move to the partner, or have no channel
(R211, R270, R412). -/
def ctrlFault (s : State) (h : HostCh) : State :=
  if ctrlService s h ≠ .inService then s
  else
    let ts := boundTo s h
    let p := partnerOf h
    let able := decide (ctrlService s p = .inService)
    let n : NiId := Fin.ofNat 48 ([1, 11, 13, 23].getD h.val 1)
    let s0 := sendClear (closeNi (setCtrlService (stopCtrl s h) h .fenced) n.val .draining) n n true
    let s1 := logEvent s0 0x0901 2 ts h.val 1 []
    let s2 := if able then ts.foldl (fun u t => moveTenant u h p t) s1
      else ts.foldl (fun u t => bootNode (closeSes u (tenSes t)) t) s1
    partFault s2 [] 5 h.val (!able).toNat

/-- CONTROLLER_FAULT: a parity error recurs, or the register interface is silent for 100 µs. -/
def execControllerFault (h : HostCh) (s : State) : Outcome State Fault Refusal :=
  .next (takeMark (if moduleUp s then ctrlFault s h else s))

end Sys2Proof.Machine
end

