-- ==== Sys2Proof/Machine/Starts.lean ====
section
/-! DEFINITION. Resets, cold starts, warm starts and SAFE SHELL (R237, R324, R369, R438, R442–R454, R472). -/

namespace Sys2Proof.Machine

open Host (Outcome)

def setStart (s : State) (f : Starts → Starts) : State := { s with start := f s.start }

/-! ### What a reset does to the array die (R442, R448, R449) -/

/-- A sequencer loses its stream; its service state, control store and tenant stay. -/
def resetSeq (x : Sequencer) : Sequencer :=
  { Sequencer.initial with
    service := x.service, image := x.image, repairs := x.repairs, bound := x.bound, wcs := x.wcs, wcsBad := x.wcsBad }

/-- A connection goes DOWN with what it was receiving or waiting for. -/
def resetCam (x : Cam) : Cam :=
  { x with link := .down, frame := none, buf := [], trigBusy := false, regRequest := none, regReply := none }

/-- An interface has nothing in flight; the sluice of a block that is neither fenced for good nor gated off is open. -/
def resetNi (x : Ni) : Ni :=
  { Ni.initial with st := match x.st with
    | .unused => .unused
    | .standby => .standby
    | .closing .draining => .fenced .draining
    | .drained .draining => .fenced .draining
    | .fenced .draining => .fenced .draining
    | .fenced .off => .fenced .off
    | _ => .opened }

def resetRouter (x : Router) : Router :=
  { x with
    service := match x.service with
      | .quiesce => .inService
      | v => v
    quiesced := 0, mode := x.newMode.getD x.mode, newMode := none
    fencedNbrs := x.newFenced.getD x.fencedNbrs, newFenced := none }

/-- A RUNNING order waits for its re-execution (R448 step 8). -/
def markReexec (o : Order) : Order := if o.st = .running then { o with reexec := true, recomputed := true } else o

/-- Polders OFF, streams and contexts gone, running orders marked. -/
def resetArray (s : State) : State :=
  let s1 := (List.range 17).foldl (fun u p => modTile (polderOff u p) p fun x => { x with errorOpen := false }) s
  let s2 := (List.finRange 17).foldl tileDrained s1
  let s3 := (List.range 5).foldl (fun u q => modSqr u q resetSeq) s2
  let s4 := (List.finRange 5).foldl seqDrained s3
  let s5 := allTenants.foldl dropCtx s4
  allTenants.foldl (fun u t => modTen u t fun x => { x with orders := x.orders.map markReexec, holdRunning := false }) s5

/-- NoC, ingest, march engine and host controllers. -/
def resetEngines (s : State) : State :=
  let s1 := (List.finRange 8).foldl (fun u c => modCam u c resetCam) s
  let s2 := (List.range 48).foldl (fun u n => modNi u n resetNi) s1
  let s3 := (List.range 24).foldl (fun u r => modRtr u r resetRouter) s2
  let s4 : State := { s3 with
    noc := { s3.noc with sn := [], want := [], gaps := [], mesh := [], served := [], moves := 0, clears := [] }
    march := { s3.march with window := none, passOn := false, dtest := none, dtestState := 0 } }
  (List.finRange 4).foldl stopCtrl { s4 with net := { s4.net with nmt := [] } }

/-- A load in progress is lost, with the counter that waits for it; LOAD_STATE 2 stays until the check of warm step 6. -/
def dropLoad (s : State) : State :=
  match s.fab.load with
  | some l =>
    setPending { s with fab := { s.fab with load := none, loadState := 2 } } (match l.region with
      | some k => ctrPart k.val
      | none => ctrFab) 0
  | none => s

/-- The fabric stops with every region (causes other than 5 to 7). -/
def stopFabric (s : State) : State :=
  fallLines { s with fab := { s.fab with
    clk := .stopped, region := (List.range 8).foldl (fun m r => SMap.set .running m r .stopped) s.fab.region } }

/-- A firmware update under way is given up; a half-written flash keeps its backup (R472). -/
def dropUpdate (s : State) : State :=
  let st := s.ident.fw.state
  if st = 2 ∨ st = 3 then setFw (setPending s ctrFw 0) fun f => { f with state := 0, file := none }
  else if st = 4 then setFw s fun f => { f with state := 0 }
  else s

/-- The causes whose reset keeps the fabric (R442). -/
def keepsFabric (cause : Byte) : Bool := decide (5 ≤ cause.toNat ∧ cause.toNat ≤ 7)

/-- A reset source acts: the array die is reset, and the start of its cause is held until it is released. -/
def assertReset (s : State) (cause : Byte) : State :=
  let s1 := closeAll { s with ident := { s.ident with att := [], attQueue := [] } }
  let s2 := dropUpdate (dropLoad (resetEngines (resetArray s1)))
  let s3 := setClk s2 fun c => { c with freeze := false, sleep := .none, gated := 0, wasAwake := [] }
  let s4 : State := { s3 with obs := { s3.obs with tideOut := false, due := none } }
  setStart (if keepsFabric cause then s4 else stopFabric s4) fun x => { x with mode := .held cause }

/-! ### Watermarks (R438, R452) -/

/-- The highest sequence number accepted. -/
def lastSeq (x : TenantSt) : Word :=
  if x.nextSeq = 1 then (if x.lastAccepted = 0 ∧ x.wmPersisted = 0 then 0 else 0xFFFFFFFF) else x.nextSeq - 1

/-- The watermarks of every tenant are written to flash. -/
def persistMarks (s : State) : State :=
  allTenants.foldl (fun u t => modTen u t fun x => { x with
    flashAccepted := lastSeq x, flashSettled := x.wmSettled, wmPersisted := lastSeq x, wmCurrent := 1 }) s

/-! ### Ends of a start -/

/-- The time of a start in µs, free up to a bound. -/
def startUs (s : State) (bound : Nat) : Nat := (Config.startTimeUs (freshNum s)).toNat % (bound + 1)

/-- Time passes. -/
def passUs (s : State) (us : Nat) : State := bump { s with time := s.time + BitVec.ofNat 64 (us * 1000) }

/-- The START entry. -/
def logStart (s : State) (kind cause : Byte) (us : Nat) : State :=
  logEvent s 0x0B01 0 [] 0 (kind.toNat + 256 * cause.toNat) (leBytes 4 us)

/-- The reference used after a start: the one given if valid, else the other (R417). -/
def chooseRef (s : State) (pref : Nat) : State :=
  let k := if refOk s pref then pref else if refOk s (1 - pref) then 1 - pref else 2
  setClk s fun c => { c with
    st := if k = 2 then .holdover else .normal, inUse := BitVec.ofNat 2 k, now := c.set
    lockNoc := true, lockFab := true, lockSys := true }

/-- The controllers' self-test; a node boots and sessions open as the channels stand; discovery begins (cold step 9). -/
def startHost (s : State) : State :=
  let s1 := allTenants.foldl (fun u t => bootNode (bindChannel u t) t) s
  let s2 := allTenants.foldl syncSes s1
  (List.finRange 8).foldl (fun u c => modCam u c fun x => { x with link := .discovery }) s2

/-- No host controller works and the maintenance port fails its self-test. -/
def noPath (s : State) : Bool :=
  !s.net.maintOk && (List.finRange 4).all fun h => decide (ctrlService s h ≠ .inService)

/-- Step 9 ends. -/
def endStart (s : State) (kind cause : Byte) (us : Nat) : State :=
  kickAll (fabEdge (setStart s fun x => { x with
    mode := .running, cause := cause, kind := kind, time := BitVec.ofNat 32 us
    failed := if kind = 0 then 0 else x.failed
    cold := if kind = 0 then satInc x.cold else x.cold
    warm := if kind = 0 then x.warm else satInc x.warm }))

/-- SAFE SHELL: the null configuration, no controller but T0's channel, T0's record alone if it verifies. -/
def safeShell (s : State) (ownOk : Bool) : State :=
  let s1 : State := { s with
    fab := { s.fab with cfg := FabCfg.null, cells := [], isNull := true, lineLevel := [], clk := .full, region := [] }
    net := { s.net with sp1Ready := false } }
  let s2 := modTen s1 0 fun x => { x with own := if ownOk then x.ownFlash else none }
  let s3 := setStart s2 fun x => { x with mode := .safeShell, kind := 2 }
  emergency (syncSes (bootNode (bindChannel s3 0) 0) 0) allTenants 0x6040 []

/-- A start fails at a step: a retry follows in 100 ms, or SAFE SHELL after the third attempt in a row. -/
def failStart (s : State) (step : Nat) (ownOk : Bool) : State :=
  let s1 := setStart s fun x => { x with failedStep := BitVec.ofNat 8 step }
  let s2 := logEvent s1 0x0B02 2 [] 0 step []
  if 3 ≤ s.start.failed.toNat then safeShell s2 ownOk else setStart s2 fun x => { x with mode := .failedStart }

/-! ### Cold start (R444, R445) -/

/-- What flash keeps of a channel, with the condition its field die kept (R359, R362). -/
def coldFc (powered : Bool) (x : Fc) : Fc :=
  { Fc.initial with
    mode := x.mode, safe := x.safe, filter := x.filter, diagEn := x.diagEn, owPeriod := x.owPeriod, pwmPeriod := x.pwmPeriod
    options := x.options, source := x.source, adcOrigin := x.adcOrigin, pretrig := x.pretrig, faults := x.faults
    level := x.level, encB := x.encB, pwmNow := x.pwmPeriod
    diag := if powered then x.diag else [], swapped := powered && x.swapped, forcedOff := powered && x.forcedOff, escalated := powered && x.escalated }

def coldGroup (powered : Bool) (x : Group) : Group :=
  { Group.initial with
    faults := x.faults, spsEnable := x.spsEnable, faulted := powered && x.faulted, cause := if powered then x.cause else 0
    adcStopped := powered && x.adcStopped, spsOverload := powered && x.spsOverload, spsReverse := powered && x.spsReverse }

/-- What flash keeps of a tenant; its watermarks read as R452 states. -/
def coldTenant (x : TenantSt) : TenantSt :=
  let high := if x.wmCurrent = 1 then x.flashAccepted else x.ceiling
  { TenantSt.initial with
    ownFlash := x.ownFlash, ceiling := x.ceiling, idleHold := x.idleHold
    flashAccepted := x.flashAccepted, flashSettled := x.flashSettled, wmCurrent := x.wmCurrent
    wmPersisted := high, wmSettled := if x.wmCurrent = 1 then x.flashSettled else 0
    nextSeq := nextNum high }

/-- The routers after their test; the ports of one that fails are not enabled. -/
def coldRouter (bad : Bool) (x : Router) : Router :=
  let dead := decide (x.service = .failed) || bad
  { Router.initial with
    replays := x.replays, service := if dead then .failed else .inService, enables := if dead then 0 else 0x3F }

/-- The neighbours of a router that have failed, as its list of fenced neighbours holds them. -/
def failedNbrs (s : State) (r : Nat) : BitVec 4 :=
  [Dir.north, .east, .south, .west].foldl (fun m d => if ((neighbour r d).map fun k => gone s k).getD false then m ||| (1#4 <<< dirBit d) else m) 0

def coldMem (bad : Bool) (x : MemStatus) : MemStatus :=
  { MemStatus.initial with
    errors := x.errors, repairs := x.repairs, service := if x.service = .failed ∨ bad = true then .failed else .inService }

def coldCan (c : CtrlId) (x : CanCtl) : CanCtl :=
  { canShipped c with
    nbStored := x.nbStored, idxStored := x.idxStored, nbCfg := x.nbStored, idxCfg := x.idxStored, nb := x.nbStored
    idx := x.idxStored, service := x.service }

/-- A tile keeps its service state and its counts; it is OFF, so one that was draining is in RETEST (R65). -/
def coldTile (x : Tile) : Tile :=
  { Tile.initial with
    service := if x.service = .draining then .retest else x.service, faults := x.faults, passes := x.passes }

/-- Step 1: everything that neither flash, AON nor a counter that survives keeps has the value of the reset state; the counter
of failed starts rises. -/
def coldBase (s : State) (cause : Byte) (r : StartReport) : State :=
  let z := State.reset
  let p := s.sup.feedA || s.sup.feedB
  { z with
    pending := s.pending, freeCtr := s.freeCtr, time := if cause = 0 then 0 else s.time
    tiles := (List.range 17).foldl (fun m k => SMap.set Tile.initial m k (coldTile (tile s k))) []
    map := s.map
    spBad := s.spBad.filter fun e => decide (e.2 ≠ .upset)
    xmBad := s.xmBad.filter fun e => decide (e.2 ≠ .upset)
    seqs := (List.range 5).foldl (fun m k => SMap.set Sequencer.initial m k { Sequencer.initial with
      service := if (sqr s k).service = .failed then .failed else .spare, repairs := (sqr s k).repairs
      wcsBad := stuckWords (sqr s k) }) []
    mc := { s.mc with patchState := 0, patch := none }
    tenants := allTenants.foldl (fun m t => SMap.set TenantSt.initial m t.val (coldTenant (ten s t))) []
    mem := (List.range 10).foldl (fun m b => SMap.set MemStatus.initial m b { memSt s b with failTimes := [], rewritten := [], due := false }) []
    noc := { z.noc with routers := s.noc.routers }
    fab := { z.fab with slots := s.fab.slots, slotB := s.fab.slotB, backup := s.fab.backup, fc := s.fab.fc, clk := .stopped
                        region := (List.range 8).foldl (fun m k => SMap.set .running m k .stopped) [] }
    field := { z.field with
      ch := s.field.ch.foldl (fun m e => SMap.set Fc.initial m e.1 (coldFc p e.2)) []
      grp := s.field.grp.foldl (fun m e => SMap.set Group.initial m e.1 (coldGroup p e.2)) []
      silenceA := false, silenceB := false, loaded := s.field.loaded }
    net := { z.net with
      esc := (List.finRange 2).foldl (fun m e => SMap.set Esc.initial m e.val { Esc.initial with service := (esc s e).service }) []
      can := (List.finRange 2).foldl (fun m c => SMap.set (canShipped c) m c.val (coldCan c (can s c))) []
      maintOk := r.maintenancePort }
    clk := { z.clk with
      aValid := r.refA, bValid := r.refB, ceiling := s.clk.ceiling, idle := s.clk.idle, rampDwell := s.clk.rampDwell
      set := s.clk.set, now := s.clk.set, gateRun := s.clk.gateRun, gateSleep := s.clk.gateSleep, gateDeep := s.clk.gateDeep
      refSelect := s.clk.refSelect, refSwitches := s.clk.refSwitches }
    sup := if cause = 0 then { z.sup with feedA := s.sup.feedA, feedB := s.sup.feedB, dips := s.sup.dips, pfails := s.sup.pfails }
      else s.sup
    start := { s.start with
      mode := .starting cause, failed := if s.start.failed.toNat < 3 then s.start.failed + 1 else 3, warmSkips := 0
      pairA := true, pairB := true, pairActive := 0 }
    ident := { s.ident with pending := [], att := [], attQueue := [], verifyError := [] }
    obs := { z.obs with
      tideFaults := s.obs.tideFaults, tideOutMask := s.obs.tideOutMask, flashLog := s.obs.flashLog
      tap := if cause = 0 then .idcode else s.obs.tap, cells := s.obs.cells } }

/-- A measured item that is still as shipped has the shipped digest. -/
def measureItem (s : State) (kind : Nat) (ctr : Word) (d : Bytes) : State :=
  if d = [] then
    { s with ident := { s.ident with meas := SMap.set Meas.absent s.ident.meas kind ⟨0, ctr, s.time, Config.shippedDigest kind⟩ } }
  else measure s kind ctr d

/-- Version and build of the firmware in use. -/
def fwInUse (s : State) : State :=
  setFw s fun f => { f with
    version := if f.image = [] then [1, 0, 0] else Config.fwVersion f.image
    build := if f.image = [] then 1 else fwBuildOf f.image }

/-- Step 2: the primary copy verifies, or its backup is booted and copied back; an update written to flash takes effect. -/
def coldImages (s : State) (ok : Bool) : State :=
  let f := s.ident.fw
  let new := if f.flashFile.isSome then f.flashFile else if s.fab.backup then f.file else none
  let s1 : State := { s with fab := { s.fab with backup := false } }
  let s2 := match new with
    | some d => if ok then fwStored s1 d else logEvent s1 0x0B05 2 [] 0 (counter s1 ctrFw).toNat []
    | none => s1
  let s3 := fwInUse (setFw s2 fun g => { g with state := 0, file := none, flashFile := none })
  measureItem (measureItem s3 0 (counter s3 ctrFw) s3.ident.fw.boot) 1 (counter s3 ctrFw) s3.ident.fw.image

/-- Whether step 2 fails: the primary copy fails and no backup stands in flash. -/
def imagesFail (s : State) (ok : Bool) : Bool := !ok && !s.fab.backup && s.ident.fw.flashFile.isNone

/-- A router test fails: the interfaces of its ports stay FENCED, and a dual-attached block uses attachment B (R272–R274). -/
def coldRouters (s : State) (bad : List RouterId) : State :=
  let s1 := (List.finRange 24).foldl (fun u r =>
    let v := modRtr u r.val (coldRouter (bad.contains r))
    if (rtr u r.val).service = (rtr v r.val).service then v
    else logEvent v 0x0502 1 [] r.val (rtr v r.val).service.code []) s
  let dead := (List.finRange 24).filter fun r => decide ((rtr s1 r.val).service = .failed)
  let s2 := dead.foldl (fun u r => setNiSt (setNiSt u (2 * r.val) (.fenced .draining)) (2 * r.val + 1) (.fenced .draining)) s1
  let east := dead.any fun r => decide (r.val % 6 = 0)
  let lost := fun (n : Nat) => dead.any fun r => decide (r.val = n / 2)
  let s3 := (List.range 24).foldl (fun u r => modRtr u r fun x => { x with mode := east, fencedNbrs := failedNbrs s2 r }) s2
  let s4 : State := { s3 with noc := { s3.noc with
    eastFirst := east, ingestB := lost 25, fabricB := lost 36, serviceB := lost 37 } }
  [(25, 35), (36, 46), (37, 47)].foldl (fun u e => if lost e.1 && !lost e.2 then setNiSt u e.2 .opened else u) s4

/-- The router of an interface has failed. -/
def niDead (s : State) (n : Nat) : Bool := decide ((rtr s (n / 2)).service = .failed)

/-- A memory has a cell that no write mends: its destructive march fails. -/
def badCell (s : State) (b : Nat) : Bool :=
  if b < 8 then (badIn s.spBad (b * bankBytes) bankBytes || weakIn s.spBad (b * bankBytes) bankBytes)
  else (badIn s.xmBad ((b - 8) * halfBytes) halfBytes || weakIn s.xmBad ((b - 8) * halfBytes) halfBytes)

/-- Step 4: the destructive march of memories and tiles; for a tile in RETEST it is one of its two (R65). -/
def coldMarch (s : State) (r : StartReport) : State :=
  let s1 := (List.range 10).foldl (fun u b =>
    let bad := niDead u (memNi b).val || badCell s b || (if b < 8 then r.badBanks.any fun k => decide (k.val = b)
      else r.badHalves.any fun k => decide (k.val + 8 = b))
    let w := modMemSt u b (coldMem bad)
    let v := if (memSt u b).service = (memSt w b).service then w
      else logEvent w 0x0405 2 [] b (memSt w b).service.code []
    if (memSt v b).service = .failed then setNiSt v (memNi b).val (.fenced .draining) else v) s
  (List.finRange 17).foldl (fun u p =>
    if (tile u p.val).service ≠ .failed ∧ (r.badTiles.contains p = true ∨ niDead u (tileNi p.val).val = true) then
      setTileSvc (modTile u p.val fun x => { x with faults := satInc x.faults, passes := 0 }) p .failed
    else tileMarched u p true) s1

/-- Step 5: the golden copies and every sequencer are loaded from flash; a sequencer whose read-back fails is FAILED. -/
def coldWcs (s0 : State) (r : StartReport) : State :=
  let s : State := { s0 with mc := { s0.mc with golden := s0.mc.flash } }
  let s1 := (List.finRange 5).foldl (fun u q =>
    let bad := r.badSequencers.contains q || stuckWords (sqr s q.val) ≠ [] || niDead u (seqNi q.val).val
    let w := modSqr u q.val (loadStore s.mc.flash false)
    let v := if bad && decide ((sqr w q.val).service ≠ .failed) then setSeqSvc w q .failed else w
    if (sqr v q.val).service = .failed then setNiSt v (seqNi q.val).val (.fenced .draining) else v) s
  measureItem s1 2 (counter s1 ctrMc) (if s.mc.flash = [] then [] else imageBytes s.mc.flash)

/-- Step 6: the active slot, else the other one, else the null configuration (R324). -/
def coldFabric (s : State) (okA okB : Bool) : State :=
  let slot := fun (b : Bool) => SMap.get [] s.fab.slots b.toNat
  let ok := fun (b : Bool) => decide (slot b ≠ []) && (if b then okB else okA)
  let clk : FabClk := if fabFull s then .full else .quarter
  let load := fun (b : Bool) =>
    let c := counter s ctrFab
    let s1 : State := { s with fab := { s.fab with
      cfg := loadCfg FabCfg.null none (parseBits (slot b)).recs, slotB := b, isNull := false, owed := [], clk := clk } }
    releaseLoad (resample ((List.range 8).foldl (fun u k => measureRegion u k c) (measure s1 3 c (slot b)))) (List.range 8)
  if ok s.fab.slotB then load s.fab.slotB
  else if ok (!s.fab.slotB) then load (!s.fab.slotB)
  else
    let s1 : State := { s with fab := { s.fab with cfg := FabCfg.null, isNull := true, owed := [], clk := clk } }
    let s2 := measureNone s1 3 (if slot false = [] ∧ slot true = [] then 1 else 2)
    releaseLoad (resample ((List.range 8).foldl (fun u k => measureItem u (4 + k) (counter u ctrFab) []) s2)) (List.range 8)

/-- Step 7: a group whose calibration fails is faulted; without a field feed it waits for one (R356). -/
def coldAdc (s : State) (bad : List GroupId) : State :=
  if !s.sup.feedA && !s.sup.feedB then s else bad.foldl (fun u g => groupFault u g.val 3) s

/-- The polder map: each position keeps its tile, and one whose tile does not serve gets the lowest spare (R65, R66). -/
def coldMap (s : State) : State :=
  (List.finRange 16).foldl (fun u n =>
    if ((physOf u n.val).map fun p => decide ((tile u p.val).service = .inService)).getD false = false then
      match spareTile u with
      | some p => setTileSvc (setPhys u n.val (some p)) p .inService
      | none => setPhys u n.val none
    else u) s

/-- The sequencer that a record names serves its tenant, or the lowest spare in its place (R182). -/
def coldBind (s : State) (t : Tenant) : State :=
  match (ten s t).own with
  | none => s
  | some r =>
    let q := if (sqr s r.seq.val).service = .failed then spareSeq s else some r.seq
    match q with
    | some q => modSqr s q.val fun x => { x with service := .inService, bound := some t }
    | none => modTen s t fun x => { x with seqLost := true }

/-- Step 9: the records that verify apply; the sequencers that none names are spares. -/
def coldRecords (s : State) (bad : List Tenant) : State :=
  let s1 := allTenants.foldl (fun u t => match (ten u t).ownFlash with
    | some o => if bad.contains t then logEvent (modTen u t fun x => { x with ownState := 0 }) 0x0B03 2 [t] 0 t.val []
      else measure (modTen u t fun x => { x with own := some o, ownState := 1 }) (12 + t.val) o.counter o.raw
    | none => measureNone u (12 + t.val) 1) s
  let named := fun (q : SeqId) => allTenants.any fun t => ((ten s1 t).own.map fun o => decide (o.seq = q)).getD false
  let s2 := (List.finRange 5).foldl (fun u q => modSqr u q.val fun x => { x with
    service := if x.service = .failed then .failed
      else if named q then .inService else .spare }) s1
  let s3 := allTenants.foldl coldBind (coldMap s2)
  allTenants.foldl (fun u t => modTen u t fun x => { x with lost := (ownTiles u t).any fun n => (physOf u n).isNone }) s3

/-- Step 9: ESCn_MODE is sampled (R500), and the host controllers stand as their self-test leaves them (R412). -/
def coldCtrls (s0 : State) (rmii : List CtrlId) (bad : List HostCh) : State :=
  let s := (List.finRange 2).foldl (fun u e => modEsc u e fun x => { x with rmii := rmii.contains e }) s0
  (List.finRange 4).foldl (fun u h =>
    let n := [1, 11, 13, 23].getD h.val 1
    if bad.contains h || niDead u n then
      match ctrlService u h with
      | .inService => partFault (logEvent (setCtrlService u h .fenced) 0x0901 2 [] h.val 1 []) [] 5 h.val 0
      | .fenced => logEvent (setCtrlService u h .failed) 0x0901 2 [] h.val 2 []
      | .failed => u
    else if ctrlService u h = .fenced then logEvent (setCtrlService u h .inService) 0x0901 2 [] h.val 0 []
    else u) s

/-- Steps 6 to 9 of a cold start. -/
def coldEnd (s : State) (cause : Byte) (r : StartReport) (us : Nat) : State :=
  let own := !r.badRecords.contains 0
  let s6 := coldAdc (coldFabric (coldWcs (coldMarch (coldRouters s r.badRouters) r) r) r.slotA r.slotB) r.badGroups
  if !r.keyTest then failStart s6 8 own
  else
    let s9 := coldCtrls (coldRecords s6 r.badRecords) r.escModeHigh r.badControllers
    if noPath s9 then failStart s9 9 own
    else if !r.completes then s9
    else endStart (startHost s9) 0 cause us

/-- A cold start with its cause. -/
def coldStart (s : State) (cause : Byte) (r : StartReport) : State :=
  let own := !r.badRecords.contains 0
  let us := startUs s 1600000
  let s1 := passUs (chooseRef (coldBase s cause r) s.clk.refSelect.toNat) us
  let s2 := logStart { s1 with obs := { s1.obs with log := [], logNewest := 0 } } 0 cause us
  if imagesFail s2 r.imagesVerified then failStart s2 2 own
  else if !r.pairA && !r.pairB then failStart (coldImages s2 r.imagesVerified) 3 own
  else
    let s3 := setStart (coldImages s2 r.imagesVerified) fun x => { x with
      pairA := r.pairA, pairB := r.pairB, pairActive := if r.pairA then 0 else 1 }
    let s4 : State := { s3 with
      field := { s3.field with loaded := true } }
    if !r.wcsDigest then failStart (coldMarch (coldRouters s4 r.badRouters) r) 5 own else coldEnd s4 cause r us

/-! ### Warm start (R448, R449) -/

/-- Counters that do not survive a reset (R369). -/
def warmCounters (s : State) : State :=
  let s1 := allTenants.foldl (fun u t => modTen u t fun x => { x with
    yields := 0, recomputed := 0, unprotected := 0, suppressed := 0, trapCount := 0 }) s
  let s2 := (List.finRange 8).foldl (fun u c => modCam u c fun x => { x with
    frames := 0, overruns := 0, errors := 0, unclaimed := 0, discarded := 0, trigDropped := 0, trigSent := 0 }) s1
  let s3 := (List.finRange 2).foldl (fun u e => modEsc u e fun x => { x with exceeded := 0 }) s2
  let ch := s3.field.ch.foldl (fun m e => SMap.set Fc.initial m e.1 { e.2 with abandoned := 0 }) []
  { s3 with
    field := { s3.field with ch := ch }
    march := { s3.march with passes := 0, late := 0 }
    noc := { s3.noc with fencedNacks := 0, timeouts := 0, lateResponses := 0, linkReplays := 0, destLost := 0 }
    xmCollisions := 0
    fab := { s3.fab with loads := 0, rejects := 0 }
    obs := { s3.obs with tideCount := 0, tideMerged := 0 } }

/-- Step 5: a sequencer with a bad image reloads it; an update stops. -/
def warmWcs (s : State) (r : StartReport) : State :=
  let s1 := (List.finRange 5).foldl (fun u q =>
    if (r.badSequencers.contains q || !(sqr u q.val).wcsBad.isEmpty) && !(sqr u q.val).image then
      modSqr u q.val (loadStore s.mc.golden false) else u) s
  let s2 := (List.finRange 5).foldl (fun u q =>
    if (sqr u q.val).image then modSqr u q.val (loadStore s.mc.golden false) else u)
    (patchStop s1)
  { s2 with mc := { s2.mc with patch := none } }

/-- Step 6: the configuration is checked, regions that owe one take their null configuration, and a stopped fabric restarts. -/
def warmFabric (s : State) (lost : Bool) (r : StartReport) : State :=
  if lost then coldFabric s r.slotA r.slotB
  else
    let owed := s.fab.owed
    let s1 := owed.foldl (fun u k => measureRegion { u with fab := { u.fab with
      cfg := nullRegion u.fab.cfg k.val, owed := [] } } k.val 0) s
    if s.fab.clk = .stopped then restartFabric s1
    else
      let clk : FabClk := if s.fab.clk = .fosc then .quarter else s.fab.clk
      retargetFab (releaseLoad { s1 with fab := { s1.fab with clk := clk } } (owed.map fun k => k.val))

/-- Step 8: an order whose claimed input is incomplete becomes ABORTED (R449). -/
def warmInputs (s : State) : State :=
  allTenants.foldl (fun u t => abortOrders u t (((ten u t).orders.filter fun o =>
    o.ins.any fun i => i.claimed && !i.complete).map Order.seq) 0x0B) s

/-- Step 9: a controller that fails its self-test is fenced. -/
def warmCtrls (s : State) (bad : List HostCh) : State :=
  bad.foldl (fun u h => if ctrlService u h = .inService then
      partFault (logEvent (setCtrlService u h .fenced) 0x0901 2 (boundTo u h) h.val 1 []) [] 5 h.val 0
    else u) s

/-- The polders of the tenants whose orders were RUNNING wake. -/
def wakeRunning (s : State) : State :=
  allTenants.foldl (fun u t => if (runOrder u t).isSome then wakeTenant u t else u) s

/-- Steps 4 to 9 of a warm start whose retention and keys hold. -/
def warmEnd (s : State) (cause : Byte) (r : StartReport) (skips : Byte) (lost : Bool) (us : Nat) : State :=
  let s4 := match r.badHeaders with
    | h :: _ => memFault s (8 + h.val)
    | [] => s
  let s6 := warmFabric (warmWcs s4 r) lost r
  let s8 : State := { warmInputs s6 with net := { (warmInputs s6).net with maintOk := r.maintenancePort, sp1Ready := false } }
  let s9 := setStart (warmCtrls s8 r.badControllers) fun x => { x with warmSkips := skips }
  if noPath s9 then failStart s9 9 true
  else
    let s10 := startHost (chooseRef { s9 with field := { s9.field with holdClock := false, holdVcore := false, holdSleep := false } }
      s.clk.inUse.toNat)
    wakeRunning (endStart (logStart (warmCounters { s10 with sup := { s10.sup with vcore := .normal } }) 1 cause us) 1 cause us)

/-- A warm start with its cause. -/
def warmStart (s : State) (cause : Byte) (r : StartReport) : State :=
  if !r.retention then coldStart s 1 r
  else if 1 < r.badHeaders.eraseDups.length ∨ (r.badHeaders ≠ [] ∧ (halfOk s 0 = false ∨ halfOk s 1 = false)) then coldStart s 1 r
  else if !r.keyTest then coldStart s 8 r
  else
    let images := !r.flashCounter || !r.retainedImage
    let lost := !r.fabricCrc || decide (s.fab.loadState = 2)
    let bit := fun (b : Bool) (k : Nat) => if b then 2 ^ k else 0
    let skips := BitVec.ofNat 8 (bit (!r.flashCounter) 0 + bit (!r.retainedImage) 1 +
      bit (!r.wcsDigest || !r.badSequencers.isEmpty) 2 + bit lost 3 + bit (!s.sup.feedA && !s.sup.feedB) 4)
    let us := startUs s (if skips.toNat % 16 = 0 then 9000 else 200000)
    let s1 := passUs s us
    if images && imagesFail s1 r.imagesVerified then failStart s1 2 true
    else if !r.retainedImage && !r.pairA && !r.pairB then failStart s1 3 true
    else
      let s2 := if r.retainedImage then s1 else setStart s1 fun x => { x with
        pairA := r.pairA, pairB := r.pairB, pairActive := if r.pairA then 0 else 1 }
      warmEnd (if images then coldImages s2 r.imagesVerified else s2) cause r skips lost us

/-! ### Sources (R442, R443, R446) -/

/-- Every source that holds the module in reset has released: VCORE, VIO and VMEM have counted recovery, RST_N is high. -/
def sourcesClear (s : State) : Bool :=
  decide (s.sup.vcore = .normal) && s.sup.vioLow.isEmpty && decide (s.sup.vmem ≠ 2) && !s.start.rstLow

/-- The held start begins once every source has released. -/
def releaseHeld (s : State) (r : StartReport) : State :=
  match s.start.mode with
  | .held c => if !sourcesClear s then s else if c = 1 ∨ c = 8 then coldStart s c r else warmStart s c r
  | _ => s

/-- A source that holds the module in reset: the first one names the cause, but lost retention makes the start cold; while AON waits
for a retry or a start runs, only lost retention counts. -/
def holdReset (s : State) (cause : Byte) : State :=
  match s.start.mode with
  | .running => assertReset s cause
  | .safeShell => assertReset s (if cause = 1 then 1 else 8)
  | _ => if cause = 1 then assertReset s 1 else s

/-- A source without a hold: the start follows at once. -/
def startNow (s : State) (cause : Byte) (r : StartReport) : State :=
  match s.start.mode with
  | .running => warmStart (assertReset s cause) cause r
  | .safeShell => coldStart (assertReset s 8) 8 r
  | _ => s

/-- What a write of 2 to RESET does first: the power-fail warning and the watermarks (R438 steps 1 and 3, R443). -/
def coldCommand (s : State) (r : StartReport) : State :=
  let s1 := persistMarks (emergency s allTenants 0x3120 [])
  let s2 := if s.start.mode = .safeShell then setStart s1 fun x => { x with failed := 2 } else s1
  coldStart (assertReset s2 2) 2 r

/-- RESET. -/
def applyReset (s : State) (v : Byte) (r : StartReport) : Answer :=
  if v = 1 then
    if s.start.mode = .running then (0, startNow s 7 r) else (0x08000022, s)
  else if v = 2 then
    if noOrders s || decide (s.start.mode = .safeShell) then (0, coldCommand s r) else (0x08000022, s)
  else (0x06090030, s)

/-- The report of a start in which every check passes and the lands ESCn_MODE stand as they were sampled. -/
def goodReport (s : State) : StartReport :=
  { completes := true, refA := true, refB := true, imagesVerified := true, pairA := true, pairB := true, badBanks := []
    badHalves := [], badTiles := [], badSequencers := [], badRouters := [], wcsDigest := true, slotA := true, slotB := true
    badGroups := [], keyTest := true, badControllers := []
    escModeHigh := (List.finRange 2).filter fun e => (esc s e).rmii, maintenancePort := true, badRecords := [], retention := true
    flashCounter := true, retainedImage := true, badHeaders := [], fabricCrc := true }

/-- POWER_ON: AON starts, and device time with it (R418, R442). -/
def execPowerOn (r : StartReport) (s : State) : Outcome State Fault Refusal := .next (takeMark (coldStart (assertReset s 0) 0 r))

/-- WATCHDOG_EXPIRY: neither housekeeping pair services the AON watchdog for 100 ms. -/
def execWatchdogExpiry (r : StartReport) (s : State) : Outcome State Fault Refusal := .next (takeMark (startNow s 5 r))

/-- RST_N_LOW: the land has been low for 1 µs. -/
def execRstNLow (s : State) : Outcome State Fault Refusal :=
  .next (takeMark (holdReset (setStart s fun x => { x with rstLow := true }) 6))

/-- RST_N_RISE: the start begins. -/
def execRstNRise (r : StartReport) (s : State) : Outcome State Fault Refusal :=
  .next (takeMark (releaseHeld (setStart s fun x => { x with rstLow := false }) r))

/-- COLD_START_TIMEOUT: step 9 has not ended 2.0 s after step 1 began. -/
def execColdStartTimeout (step : Fin 10) (s : State) : Outcome State Fault Refusal :=
  .next (takeMark (match s.start.mode with
    | .starting _ => failStart { s with time := s.time + 2000000000 } step.val true
    | _ => s))

/-- COLD_START_RETRY: 100 ms after a failed start, a cold start with cause RETRY. -/
def execColdStartRetry (r : StartReport) (s : State) : Outcome State Fault Refusal :=
  .next (takeMark (if s.start.mode = .failedStart then coldStart { s with time := s.time + 100000000 } 8 r else s))

end Sys2Proof.Machine
end

