-- ==== Sys2Proof/Machine/Supplies.lean ====
section
/-! DEFINITION. Supply monitors and warnings (R435–R438, R442). -/

namespace Sys2Proof.Machine

open Host (Outcome)

def setSup (s : State) (f : Supplies → Supplies) : State := { s with sup := f s.sup }

/-! ### VCORE (R436) -/

/-- The monitor changes state, which is logged with SUPPLY_MV of VCORE. -/
def setVcore (s : State) (v : VcoreSt) : State :=
  logEvent (setSup s fun x => { x with vcore := v }) 0x0A03 (if v = .warnSafe then 2 else 1) [] 0 v.code
    (leBytes 2 (supplyMv s 0).toNat)

/-- VCORE_WARNING: every sequencer traps, running orders will be re-executed, and order starts freeze. -/
def execVcoreWarning (s : State) : Outcome State Fault Refusal :=
  .next (if s.sup.vcore ≠ .normal ∨ moduleUp s = false then s
    else
      let s1 := setSup (setVcore s .warnHold) fun x => { x with dips := satInc x.dips }
      takeMark (tideFault (emergency (allTenants.foldl recompute s1) allTenants 0x3110 []) 2 0x0A03))

/-- VCORE_WARNING_HOLD_EXPIRY: after 500 µs every channel goes to its safe state. -/
def execVcoreWarningHoldExpiry (s : State) : Outcome State Fault Refusal :=
  .next (if s.sup.vcore ≠ .warnHold ∨ moduleUp s = false then s
    else
      let s1 := setVcore s .warnSafe
      fabEdge { s1 with field := { s1.field with holdVcore := true } })

/-- VCORE_RECOVERY: starts and re-executions resume, or the held start begins. -/
def execVcoreRecovery (r : StartReport) (s : State) : Outcome State Fault Refusal :=
  .next (takeMark (if s.sup.vcore = .normal then s
    else if moduleUp s then
      let s1 := setVcore s .normal
      let s2 := fabEdge { s1 with field := { s1.field with holdVcore := false } }
      errorReset s (kickAll (tryReexecAll s2))
    else releaseHeld (setSup s fun x => { x with vcore := .normal }) r))

/-- VCORE_RESET_LEVEL: at or below 0.675 V, or above 0.800 V, a warm reset is held until recovery. -/
def execVcoreResetLevel (s : State) : Outcome State Fault Refusal :=
  .next (holdReset (setSup s fun x => { x with vcore := if x.vcore = .normal then .warnHold else x.vcore }) 3)

/-! ### Power-fail warning (R438) -/

/-- POWER_FAIL_WARNING: PFAIL_N has been low for 2 µs, or VMEM is at its warning level. -/
def execPowerFailWarning (vmem : Bool) (s : State) : Outcome State Fault Refusal :=
  let s1 := setSup s fun x =>
    if vmem then { x with vmem := if x.vmem = 2 then 2 else 1 } else { x with pfailLow := true }
  .next (if s.sup.pfw ≠ 0 then s1
    else
      let s2 := setSup s1 fun x => { x with pfw := 2, pfails := satInc x.pfails }
      persistMarks (logEvent (emergency s2 allTenants 0x3120 []) 0x0A04 2 [] 0 2 []))

/-- POWER_FAIL_WARNING_END: PFAIL_N has been high for 10 ms and VMEM has recovered. -/
def execPowerFailWarningEnd (s : State) : Outcome State Fault Refusal :=
  .next (if s.sup.pfw = 0 ∨ s.sup.vmem = 2 then s
    else logEvent (setSup s fun x => { x with pfw := 0, pfailLow := false, vmem := 0 }) 0x0A04 2 [] 0 0 [])

/-! ### Other rails (R435, R442) -/

/-- VMEM_ACTION: retention is lost, and the module is held in reset. -/
def execVmemAction (s : State) : Outcome State Fault Refusal :=
  .next (holdReset (setSup s fun x => { x with vmem := 2 }) 1)

/-- VMEM_RECOVERY: with every rail in range the cold start begins. -/
def execVmemRecovery (r : StartReport) (s : State) : Outcome State Fault Refusal :=
  .next (takeMark (releaseHeld (setSup s fun x => { x with vmem := 0 }) r))

/-- VIO_ACTION: VIO18 or VIO33 at its action level. -/
def execVioAction (rail : Fin 2) (s : State) : Outcome State Fault Refusal :=
  .next (holdReset (setSup s fun x => { x with
    vioLow := if x.vioLow.contains rail then x.vioLow else rail :: x.vioLow }) 4)

/-- VIO_RECOVERY: the rail counts its recovery level. -/
def execVioRecovery (rail : Fin 2) (r : StartReport) (s : State) : Outcome State Fault Refusal :=
  .next (takeMark (releaseHeld (setSup s fun x => { x with vioLow := x.vioLow.filter fun k => decide (k ≠ rail) }) r))

/-- VSER_ACTION: every CXP link is LOST. -/
def execVserAction (s : State) : Outcome State Fault Refusal := .next (if moduleUp s then takeMark (allLinksLost s) else s)

/-- A feed's state. -/
def feedIn (s : State) (f : Fin 2) : Bool := if f = 0 then s.sup.feedA else s.sup.feedB

def setFeed (s : State) (f : Fin 2) (v : Bool) : State :=
  setSup s fun x => if f = 0 then { x with feedA := v } else { x with feedB := v }

/-- FIELD_FEED_LOST: without either feed the field dies are unpowered. -/
def execFieldFeedLost (f : Fin 2) (s : State) : Outcome State Fault Refusal :=
  .next (if !feedIn s f then s
    else
      let s1 := emergency (setFeed s f false) allTenants 0x3130 [BitVec.ofNat 8 f.val]
      if s1.sup.feedA || s1.sup.feedB then s1 else fabEdge { s1 with field := { s1.field with loaded := false } })

/-- FIELD_FEED_RECOVERY: dies without power get their safe states and their calibration. -/
def execFieldFeedRecovery (f : Fin 2) (s : State) : Outcome State Fault Refusal :=
  .next (if feedIn s f then s
    else
      let s1 := setFeed s f true
      errorReset s (fabEdge { s1 with field := { s1.field with loaded := true } }))

end Sys2Proof.Machine
end

