-- ==== Sys2Proof/Machine/Observe.lean ====
section
/-! DEFINITION. Tide mark commands, the snapshot as a tenant reads it, and the TAP (R474–R482, R487). -/

namespace Sys2Proof.Machine

open Host (Outcome)

/-! ### Tide mark (R474–R478) -/

/-- TIDE_IN_EDGE: a rising edge that the synchroniser takes. -/
def execTideInEdge (s : State) : Outcome State Fault Refusal := .next (takeMark (markDue s 0 0))

/-- TIDE_CMD. -/
def applyTideCmd (s : State) (v : Byte) : Answer := if v = 1 then (0, markDue s 1 0) else (0x06090030, s)

/-- SNAPSHOT_LATCH_END: 2 µs after the epoch. -/
def execSnapshotLatchEnd (s : State) : Outcome State Fault Refusal :=
  .next { s with obs := { s.obs with snapState := if s.obs.snapState = 1 then 2 else s.obs.snapState } }

/-- TIDE_OUT_END: four AON periods after its rise. -/
def execTideOutEnd (s : State) : Outcome State Fault Refusal := .next { s with obs := { s.obs with tideOut := false } }

/-! ### The snapshot by reader (R482) -/

/-- Whether a section is withheld from T1–T3. -/
def secWithheld (s : State) (t : Tenant) (kind inst : Nat) : Bool := match kind with
  | 2 => decide (seqTenant s inst ≠ some t)
  | 3 => decide (inst ≠ t.val)
  | 7 => !(groupOwners s inst).contains t
  | 8 => decide (camOwner s inst ≠ some t)
  | 9 => !(boundTo s (Fin.ofNat 4 inst)).contains t
  | _ => false

/-- A group's data with the channels of others reading 0. -/
def maskGroup (s : State) (t : Tenant) (g : Nat) (d : Bytes) : Bytes :=
  let mine := posMask fun q => ownsFc s t (16 * g + q)
  d.take 6 ++ leBytes 2 (BitVec.ofNat 16 (leAt d 6 2) &&& mine).toNat ++ leBytes 2 (BitVec.ofNat 16 (leAt d 8 2) &&& mine).toNat ++
    (List.range 16).flatMap (fun q => if mine.getLsbD q then slice d (10 + 4 * q) 4 else List.replicate 4 0) ++ d.drop 74

/-- The sections of a snapshot as a reader other than T0 sees them. -/
def maskSections (s : State) (t : Tenant) : Nat → Bytes → Bytes
  | 0, _ => []
  | n + 1, b =>
    let len := leAt b 4 4
    let kind := leAt b 0 2
    let inst := leAt b 2 1
    let here := if secWithheld s t kind inst then
        leBytes 4 (leAt b 0 4 + 2 ^ 25) ++ leBytes 4 len ++ List.replicate len 0
      else if kind = 7 then b.take 8 ++ maskGroup s t inst (slice b 8 len)
      else b.take (8 + len)
    here ++ maskSections s t n (b.drop (8 + len))

/-- SNAPSHOT of a reader: 4,192 zero bytes before the first mark. -/
def snapshotFor (s : State) (t : Tenant) : Bytes :=
  match s.obs.snap with
  | none => List.replicate 4192 0
  | some b =>
    let h := patch (b.take 32) 0x14 [BitVec.ofNat 8 t.val]
    if t = 0 then h ++ b.drop 32 else h ++ maskSections s t 106 (b.drop 32)

/-! ### TAP (R487) -/

/-- An instruction is loaded; those that drive lands load as BYPASS unless RST_N is held low. -/
def loadTap (s : State) (i : TapInstr) (drives : Bool) : State :=
  { s with obs := { s.obs with tap := if drives && !s.start.rstLow then .bypass else i } }

/-- BYPASS. -/
def execTapBypass (s : State) : Outcome State Fault Refusal := .next (loadTap s .bypass false)
/-- IDCODE. -/
def execTapIdcode (s : State) : Outcome State Fault Refusal := .next (loadTap s .idcode false)
/-- SAMPLE_PRELOAD: the boundary cells take the values shifted in. -/
def execTapSamplePreload (cells : Bytes) (s : State) : Outcome State Fault Refusal :=
  .next (loadTap { s with obs := { s.obs with cells := cells } } .samplePreload false)
/-- EXTEST. -/
def execTapExtest (s : State) : Outcome State Fault Refusal := .next (loadTap s .extest true)
/-- EXTEST_PULSE. -/
def execTapExtestPulse (s : State) : Outcome State Fault Refusal := .next (loadTap s .extestPulse true)
/-- EXTEST_TRAIN. -/
def execTapExtestTrain (s : State) : Outcome State Fault Refusal := .next (loadTap s .extestTrain true)
/-- CLAMP. -/
def execTapClamp (s : State) : Outcome State Fault Refusal := .next (loadTap s .clamp true)
/-- HIGHZ. -/
def execTapHighz (s : State) : Outcome State Fault Refusal := .next (loadTap s .highz true)

/-- The data register selected for scanning: IDCODE reads 0x1651_6D2F, BYPASS one bit of 0, the others the boundary cells. -/
def tapData (s : State) : Bytes := match s.obs.tap with
  | .idcode => leBytes 4 0x16516D2F
  | .bypass => [0]
  | .clamp => [0]
  | .highz => [0]
  | _ => s.obs.cells

end Sys2Proof.Machine
end

