-- ==== Sys2Proof/Machine/Objects.lean ====
section
/-! DEFINITION. The value that each readable object holds (R188, R220, R246, R276, R296, R334, R362, R363, R376, R378–R382,
R402, R409–R411, R439, R454, R473, R488). -/

namespace Sys2Proof.Machine

/-! ### Strings and small codes -/

/-- The decimal digits of a number, in ASCII. -/
def decimal (n : Nat) : Bytes :=
  (if 100 ≤ n then [BitVec.ofNat 8 (48 + n / 100)] else []) ++ (if 10 ≤ n then [BitVec.ofNat 8 (48 + n / 10 % 10)] else []) ++
    [BitVec.ofNat 8 (48 + n % 10)]

/-- SW_VERSION: "major.minor.patch". -/
def versionText (v : List Byte) : Bytes :=
  decimal (v.getD 0 0).toNat ++ [0x2E] ++ decimal (v.getD 1 0).toNat ++ [0x2E] ++ decimal (v.getD 2 0).toNat

/-- AGREED: [15:8] major, [7:0] minor (R374, R376). -/
def versionCode (bit : Nat) : Nat := [0x0100, 0x0200, 0x0201, 0x0202, 0x0203].getD bit 0x0100

/-- TRAP_CONTEXT of R140. -/
def CtxState.code : CtxState → Nat
  | .free => 0
  | .held t => 0x10 + t.val
  | .retired => 0xFF

def RegionSt.code : RegionSt → Nat
  | .running => 0
  | .held => 1
  | .stopped => 2

/-- The 8-byte ID of a key slot, zeros when empty (R473). -/
def keyId (k : Option Bytes) : Bytes := match k with
  | some b => (Config.shake256 b).take 8
  | none => List.replicate 8 0

/-- Records that are held unretired. -/
def oldestRecord (x : TenantSt) : Bytes := match x.records with
  | r :: _ => r.bytes
  | [] => List.replicate 32 0

def newestRecord (x : TenantSt) : Bytes := match x.records.reverse with
  | r :: _ => r.bytes
  | [] => List.replicate 32 0

/-- The oldest-first flash entries (R484). -/
def flashEntries (s : State) : Bytes :=
  let b := s.obs.flashLog.reverse.flatMap LogEntry.bytes
  (b ++ List.replicate 2048 0).take 2048

/-- A value of a PLL triple or a frequency by subindex. -/
def freqAt (f : Freq) (sub : Nat) : Half := if sub = 1 then f.arr else if sub = 2 then f.noc else if sub = 3 then f.fab else f.sys

/-! ### Values by chapter -/

/-- R378. -/
def valComm (s : State) (k : SesId) (l : Loc) (sub : Nat) : Bytes :=
  let x := ses s k
  match l.base with
  | 0x1000 => leBytes 4 0
  | 0x1001 => [errorRegister s (sesTenant k)]
  | 0x1003 => if sub = 0 then [BitVec.ofNat 8 x.errHist.length] else leBytes 4 (x.errHist.getD (sub - 1) 0).toNat
  | 0x1008 => [0x41, 0x5A, 0x36, 0x35, 0x31, 0x36, 0x2D, 0x4C, 0x32]
  | 0x1009 => [0x42, 0x30]
  | 0x100A => versionText s.ident.fw.version
  | 0x1018 => leBytes 4 (if sub = 1 then 0x0D17 else if sub = 2 then 0x6516
      else if sub = 3 then 0x42000000 + s.ident.fw.build.toNat else serialNo.toNat)
  | 0x1400 => if sub = 1 then leBytes 4 (rpdoOf s k l.inst).cobId.toNat else [(rpdoOf s k l.inst).ty]
  | 0x1800 =>
    let p := tpdoOf s k l.inst
    if sub = 1 then leBytes 4 p.cobId.toNat else if sub = 2 then [p.ty]
    else leBytes 2 (if sub = 3 then p.inhibit else p.timer).toNat
  | 0x1600 => if sub = 0 then [SMap.get 0 x.rxCount l.inst] else leBytes 4 (SMap.get 0 x.rxMap (32 * l.inst + sub - 1)).toNat
  | 0x1A00 => if sub = 0 then [SMap.get 0 x.txCount l.inst] else leBytes 4 (SMap.get 0 x.txMap (32 * l.inst + sub - 1)).toNat
  | 0x1C00 => [BitVec.ofNat 8 sub]
  | 0x1C12 => leBytes 2 (x.rxAssign.getD (sub - 1) 0).toNat
  | 0x1C13 => leBytes 2 (x.txAssign.getD (sub - 1) 0).toNat
  | _ => []

/-- R402. -/
def valSync (s : State) (k : SesId) (l : Loc) (sub : Nat) : Bytes :=
  let e := match escOf s (sesTenant k) with
    | some e => esc s e
    | none => Esc.initial
  match sub with
  | 1 => leBytes 2 e.syncType.toNat
  | 2 => leBytes 4 e.cycle.toNat
  | 4 => leBytes 2 0x001F
  | 5 => leBytes 4 31250
  | 6 => leBytes 4 (if l.base = 0x1C32 then 8000 else 12000)
  | _ => leBytes 2 e.exceeded.toNat

/-- R376, R380. -/
def valSes (s : State) (k : SesId) (l : Loc) (sub : Nat) : Bytes :=
  let x := ses s k
  let t : Tenant := Fin.ofNat 4 (sub - 1)
  match l.base with
  | 0x2000 => if sub = 1 then [BitVec.ofNat 8 (sesTenant k).val] else if sub = 2 then [BitVec.ofNat 8 (sesChannel s k)]
      else leBytes 8 x.opened.toNat
  | 0x2001 => leBytes 2 0x001F
  | 0x2002 => leBytes 2 x.requested.toNat
  | 0x2003 => leBytes 2 (versionCode x.agreed)
  | 0x2004 => leBytes 4 (if sub = 1 then x.lastAbort else x.lastAbortObj).toNat
  | 0x2100 =>
    if sub = 1 then
      [BitVec.ofNat 8 ((allTenants.map fun t => ((ten s t).own.map fun o => o.resv.toNat).getD 0).foldl (· + ·) 0)]
    else s.lastYield
  | 0x2101 => leBytes 4 (tenantGrant s t).toNat
  | 0x2102 => leBytes 4 (ten s t).recomputed.toNat
  | 0x2103 => leBytes 4 (ten s t).unprotected.toNat
  | 0x2104 => leBytes 4 (ten s t).suppressed.toNat
  | _ => []

/-- R439. -/
def valClk (s : State) (l : Loc) (sub : Nat) : Bytes :=
  let c := s.clk
  match l.base with
  | 0x2200 => [match sub with
      | 1 => BitVec.ofNat 8 (profile s)
      | 2 => c.ceiling
      | 3 => c.idle
      | _ => c.rampDwell]
  | 0x2201 => leBytes 4 (ten s (Fin.ofNat 4 (sub - 1))).idleHold.toNat
  | 0x2202 => leBytes 2 (freqAt c.set sub).toNat
  | 0x2203 => [c.set.depth.getD (sub - 1) 0]
  | 0x2204 => [c.set.rate.getD (sub - 1) 0]
  | 0x2205 => leBytes 4 (if sub = 1 then c.gateRun else if sub = 2 then c.gateSleep else c.gateDeep).toNat
  | 0x2206 => if sub = 1 then [c.refSelect] else leBytes 4 (if sub = 2 then clockStatus s else c.refSwitches).toNat
  | 0x2207 => if sub = 1 then leBytes 4 (supplyStatus s).toNat
      else if sub ≤ 5 then leBytes 2 (supplyMv s (sub - 2)).toNat
      else leBytes 4 (if sub = 6 then s.sup.dips else s.sup.pfails).toNat
  | 0x2208 => if sub = 1 then leBytes 8 s.time.toNat else [BitVec.ofNat 8 (timeQuality s)]
  | _ => []

/-- R454, R473. -/
def valStart (s : State) (k : SesId) (l : Loc) (sub : Nat) : Bytes :=
  let x := s.start
  let a := att s (sesTenant k)
  match l.base with
  | 0x2300 => (match sub with
    | 1 => [x.cause]
    | 2 => [x.kind]
    | 3 => leBytes 4 x.time.toNat
    | 4 => [x.failed]
    | 5 => [x.failedStep]
    | 6 => [x.warmSkips]
    | 7 => leBytes 4 x.cold.toNat
    | _ => leBytes 4 x.warm.toNat)
  | 0x2302 => [(ten s (Fin.ofNat 4 (sub - 1))).wmCurrent]
  | 0x2400 => if sub = 1 then Config.deviceCert else if sub = 2 then Config.caCert else Config.deviceKeyId
  | 0x2401 => if sub = 2 then [a.state] else a.response
  | 0x2402 => leBytes 4 (counter s sub).toNat
  | 0x2403 => [s.ident.fw.state]
  | 0x2404 => keyId (if sub = 2 then s.ident.ik else SMap.get none s.ident.tk (sub - 2))
  | 0x2405 => leBytes 4 (SMap.get 0 s.ident.verifyError (sub - 1)).toNat
  | _ => []

/-- R488, R246. -/
def valObs (s : State) (k : SesId) (l : Loc) (sub : Nat) : Bytes :=
  let o := s.obs
  match l.base with
  | 0x2500 => (match sub with
    | 2 => leBytes 2 o.tideFaults.toNat
    | 3 => [o.tideOutMask]
    | 4 => leBytes 4 o.tideCount.toNat
    | 5 => leBytes 4 o.tideMerged.toNat
    | _ => leBytes 8 o.tideTime.toNat)
  | 0x2501 => if sub = 1 then snapshotFor s (sesTenant k) else [o.snapState]
  | 0x2502 => if sub = 1 then leBytes 4 (ses s k).logCursor.toNat else if sub = 3 then leBytes 4 o.logNewest.toNat
      else flashEntries s
  | 0x2503 => leBytes 4 0x16516D2F
  | 0x2600 => (match sub with
    | 1 => [s.march.enable]
    | 2 => leBytes 2 s.march.passPeriod.toNat
    | 3 => leBytes 2 s.march.sparePeriod.toNat
    | 4 => leBytes 4 s.march.passes.toNat
    | 5 => leBytes 4 s.march.late.toNat
    | _ => [s.march.dtestState])
  | 0x2601 => leBytes 4 (memStatus s (sub - 1)).toNat
  | 0x2602 => leBytes 4 s.xmCollisions.toNat
  | _ => []

/-- R382, R188, R276. -/
def valArray (s : State) (l : Loc) (sub : Nat) : Bytes :=
  let t : Tenant := Fin.ofNat 4 (sub - 1)
  match l.base with
  | 0x2800 => if sub = 1 then leBytes 2 0x0203
      else if sub = 2 then [BitVec.ofNat 8 ((List.range 16).filter fun n => (physOf s n).isSome).length]
      else [BitVec.ofNat 8 ((List.range 17).filter fun p => decide ((tile s p).service = .spare)).length]
  | 0x2801 => leBytes 4 (tileStatus s (Fin.ofNat 17 (sub - 1))).toNat
  | 0x2802 => [match physOf s (sub - 1) with
      | some p => BitVec.ofNat 8 p.val
      | none => 0xFF]
  | 0x2803 => [(ten s t).fsumLast.zeroExtend 8]
  | 0x2804 => [BitVec.ofNat 8 (ctx s (sub - 1)).st.code]
  | 0x2900 => if sub = 1 then leBytes 4 s.mc.mcver.toNat else if sub = 2 then s.mc.digest else [s.mc.patchState]
  | 0x2901 => leBytes 4 (seqStatus s (sub - 1)).toNat
  | 0x2902 => leBytes 4 (trapFrame s t.val)
  | 0x2903 => leBytes 4 (ten s t).trapCount.toNat
  | 0x2A00 => (match sub with
    | 1 => [0x02]
    | 2 => [BitVec.ofNat 8 s.noc.eastFirst.toNat]
    | 3 => leBytes 4 s.noc.fencedNacks.toNat
    | 4 => leBytes 4 s.noc.timeouts.toNat
    | 5 => leBytes 4 s.noc.lateResponses.toNat
    | 6 => leBytes 4 s.noc.linkReplays.toNat
    | _ => leBytes 4 s.noc.destLost.toNat)
  | 0x2A01 => leBytes 4 (routerStatus s (sub - 1)).toNat
  | 0x2A02 => [BitVec.ofNat 8 (ni s (sub - 1)).st.code]
  | _ => []

/-- R334, R296. -/
def valFab (s : State) (l : Loc) (sub : Nat) : Bytes :=
  let f := s.fab
  let c := cam s (Fin.ofNat 8 l.inst)
  match l.base with
  | 0x2B00 => (match sub with
    | 1 => leBytes 4 (fabStatus s).toNat
    | 2 => leBytes 4 (cfgCrc f.cfg 0xFF).toNat
    | 3 => [BitVec.ofNat 8 f.slotB.toNat]
    | _ => leBytes 8 f.loadError.toNat)
  | 0x2B02 => [f.loadState]
  | 0x2B03 => [BitVec.ofNat 8 (regionSt s (sub - 1)).code]
  | 0x2B04 => leBytes 8 (SMap.get 0 f.evtTime (sub - 1)).toNat
  | 0x2B05 => if sub = 2 then leBytes 2 f.captureState.toNat else SMap.get [] f.captured (sub - 3)
  | 0x2B06 => [SMap.get 0xFF f.probe (sub - 1)]
  | 0x2B07 => leBytes 2 (SMap.get 0 f.serialMode (sub - 1)).toNat
  | 0x2C00 => if sub = 1 then [s.grouping] else [s.maxSpeed]
  | 0x2C01 => [BitVec.ofNat 8 (cam s (Fin.ofNat 8 (sub - 1))).link.code]
  | 0x2C10 => (match sub with
    | 1 => [c.fmt]
    | 2 => leBytes 8 c.window.toNat
    | 3 => leBytes 4 c.origin.toNat
    | 4 => leBytes 4 c.landing.toNat
    | 5 => leBytes 4 c.spOffset.toNat
    | 6 => [c.trigLine]
    | 7 => leBytes 8 c.fsTime.toNat
    | 8 => leBytes 4 c.frames.toNat
    | 9 => leBytes 4 c.overruns.toNat
    | 10 => leBytes 4 c.errors.toNat
    | 11 => leBytes 4 c.unclaimed.toNat
    | 12 => leBytes 4 c.discarded.toNat
    | _ => leBytes 4 c.trigDropped.toNat)
  | _ => []

/-- R220, R411. -/
def valTen (s : State) (l : Loc) (sub : Nat) : Bytes :=
  let x := ten s (Fin.ofNat 4 l.inst)
  match l.base with
  | 0x2F00 => if sub = 2 then leBytes 4 x.lastAccepted.toNat else if sub = 3 then leBytes 2 (queueFill x) else [x.reject]
  | 0x2F01 => [x.abortState]
  | 0x2F02 => if sub = 1 then oldestRecord x else if sub = 2 then newestRecord x
      else if sub = 3 then leBytes 2 x.records.length
      else if sub = 19 then leBytes 4 x.resultSeq.toNat
      else SMap.readN 0 x.result (4 * (sub - 4)) 4
  | 0x2F03 => leBytes 4 x.retireTo.toNat
  | 0x2F04 => if sub = 1 then (x.own.map OwnRec.raw).getD [] else [x.ownState]
  | 0x2F05 => leBytes 4 (if sub = 1 then x.wmSettled else if sub = 2 then x.wmPersisted else x.yields).toNat
  | _ => []

/-- A tenant sees the bits and values of a channel: its own, or every one for T0 (R363). -/
def seesFc (s : State) (t : Tenant) (n : Nat) : Bool := decide (t = 0) || ownsFc s t n

/-- R362, R363. -/
def valField (s : State) (t : Tenant) (l : Loc) (sub : Nat) : Bytes :=
  let x := fch s l.inst
  let g := grp s l.inst
  match l.base with
  | 0x6000 =>
    [(List.range 8).foldl (fun m i =>
      if seesFc s t (8 * (sub - 1) + i) && fcIn s (8 * (sub - 1) + i) then m ||| (1#8 <<< i) else m) 0]
  | 0x6200 =>
    [(List.range 8).foldl (fun m i => if seesFc s t (8 * (sub - 1) + i) then m ||| (1#8 <<< i) else m) 0 &&&
      SMap.get 0 s.field.dout (sub - 1)]
  | 0x6400 =>
    let n := 128 * l.inst + sub - 1
    leBytes 2 (if seesFc s t n && isAin (fch s n).mode then (fch s n).val.toNat else 0)
  | 0x6420 => (match sub with
    | 1 => leBytes 4 (groupStatus s l.inst).toNat
    | 2 => [g.spsEnable]
    | 3 => leBytes 2 (posMask fun q => (adcScan s l.inst).contains q).toNat
    | 5 => leBytes 2 (dieTemp s l.inst).toNat
    | _ => leBytes 2 g.outCurrent.toNat)
  | 0x7000 => (match sub with
    | 1 => [x.mode]
    | 2 => [x.safe]
    | 3 => [x.filter]
    | 4 => [x.diagEn]
    | 5 => leBytes 2 x.owPeriod.toNat
    | 6 => leBytes 4 x.pwmPeriod.toNat
    | 7 => [x.options]
    | 8 => [x.source]
    | 9 => leBytes 2 x.adcOrigin.toNat
    | 10 => [x.pretrig]
    | 11 => leBytes 2 (fcStat s l.inst).toNat
    | 12 => leBytes 2 (fcVal s l.inst).toNat
    | 13 => leBytes 4 x.faults.toNat
    | _ => leBytes 4 x.abandoned.toNat)
  | _ => []

/-- The value of an object that exists and is readable, as a session reads it; subindex 0 of an index with several values is its
highest subindex (R365). -/
def objValue (s : State) (k : SesId) (index sub : Nat) : Bytes :=
  let l := locOf index
  let b := l.base
  if sub = 0 ∧ (rowOf b 0 (ses s k).agreed).isNone then [BitVec.ofNat 8 (maxSub b (ses s k).agreed)]
  else if b < 0x1C32 then valComm s k l sub
  else if b < 0x2000 then valSync s k l sub
  else if b < 0x2200 then valSes s k l sub
  else if b < 0x2300 then valClk s l sub
  else if b < 0x2500 then valStart s k l sub
  else if b < 0x2800 then valObs s k l sub
  else if b < 0x2B00 then valArray s l sub
  else if b < 0x2F00 then valFab s l sub
  else if b < 0x6000 then valTen s l sub
  else valField s (sesTenant k) l sub

/-- Every value kept in flash, in ascending index and subindex order (R465 kind 16). -/
def flashValues (s : State) : Bytes :=
  let of := fun (i : Nat) (subs : List Nat) => subs.flatMap fun b => objValue s 4 i b
  of 0x2200 [2, 3, 5] ++ of 0x2201 [1, 2, 3, 4] ++ of 0x2202 [1, 2, 3, 4] ++ of 0x2203 [1, 2, 3] ++ of 0x2204 [1, 2, 3] ++
    of 0x2205 [1, 2, 3] ++ of 0x2206 [1] ++ of 0x2500 [2, 3] ++ (List.range 32).flatMap (fun g => of (0x6420 + g) [2]) ++
    (List.range 512).flatMap fun n => of (0x7000 + n) [1, 2, 3, 4, 5, 6, 7, 8, 9, 10]

/-- The objects of `flashValues`. -/
def keptInFlash (index sub : Nat) : Bool :=
  let b := (locOf index).base
  (decide (b = 0x2200) && decide (sub ≠ 4)) || (decide (0x2201 ≤ b ∧ b ≤ 0x2205)) || (decide (b = 0x2206 ∧ sub = 1)) ||
    (decide (b = 0x2500 ∧ (sub = 2 ∨ sub = 3))) || decide (b = 0x6420 ∧ sub = 2) || decide (b = 0x7000 ∧ sub ≤ 10)

end Sys2Proof.Machine
end

