-- ==== Sys2Proof/Machine/Dictionary.lean ====
section
/-! DEFINITION. Accesses to the object dictionary: existence, rights, access kind, length, value; answers; DOMAIN transfers;
versions, mappings and emergencies (R365–R394, R409, R410, R486). -/

namespace Sys2Proof.Machine

open Host (Outcome)

/-! ### Rights (R370, R371) -/

/-- The tenant that owns the resource of an object. -/
def resOwner (s : State) (l : Loc) (sub : Nat) : Option Tenant := match l.base with
  | 0x7000 => fcOwner s l.inst
  | 0x2B04 => lineOwner s (sub - 1)
  | 0x2B05 => regionOwner s (sub - 3)
  | 0x2B07 => regionOwner s (if sub = 1 then 0 else 7)
  | 0x2C01 => camOwner s (sub - 1)
  | 0x2C10 => camOwner s l.inst
  | _ => some 0

/-- The tenants of an ESC's sessions, with the lowest of them. -/
def escLow (s : State) (t : Tenant) : Bool := match escOf s t with
  | some e => decide ((boundTo s (Fin.castLE (by decide) e)).head? = some t)
  | none => false

/-- Whether the session's tenant belongs to the readers or writers that a row names. -/
def isWho (s : State) (k : SesId) (l : Loc) (sub : Nat) (w : Who) : Bool :=
  let t := sesTenant k
  match w with
  | .all => true
  | .t0 => decide (t = 0)
  | .inst => decide (l.inst = t.val)
  | .instT0 => decide (l.inst = t.val ∨ t = 0)
  | .sub => decide (sub = t.val + 1)
  | .subT0 => decide (sub = t.val + 1 ∨ t = 0)
  | .owner => decide (resOwner s l sub = some t)
  | .ownerT0 => decide (resOwner s l sub = some t ∨ t = 0)
  | .ownerFree => decide (resOwner s l sub = some t) || decide (resOwner s l sub = none ∧ t = 0)
  | .group => decide (t = 0) || (groupOwners s l.inst).contains t
  | .writer => decide (s.fab.loadErrorBy = some t ∨ t = 0)
  | .regions => (List.range 8).any (fun r => decide (regionOwner s r = some t)) || decide (t = 0 ∧ l.base = 0x2B05)
  | .escBound => decide (k ≠ 4) && (escOf s t).isSome
  | .escLowest => decide (k ≠ 4) && escLow s t
  | .sess => true
  | .nobody => false

/-- The owner of an object, by the readers that its row names: the tenant of its resource or of its subindex, and T0 of every other
one (R370). -/
def ownsObject (s : State) (u : Tenant) (l : Loc) (sub : Nat) (w : Who) : Bool := match w with
  | .inst => decide (l.inst = u.val)
  | .instT0 => decide (l.inst = u.val)
  | .sub => decide (sub = u.val + 1)
  | .subT0 => decide (sub = u.val + 1)
  | .owner => decide (resOwner s l sub = some u)
  | .ownerT0 => decide (resOwner s l sub = some u)
  | .ownerFree => decide (resOwner s l sub = some u)
  | .group => (groupOwners s l.inst).contains u
  | .regions => (List.range 8).any fun r => decide (regionOwner s r = some u)
  | .nobody => false
  | _ => decide (u = 0)

/-- A readable subindex of an index that its owner's record shares with the session's tenant (R191, R371). -/
def sharedRead (s : State) (k : SesId) (l : Loc) (index sub : Nat) (a : Access) (w : Who) : Bool :=
  decide (a ≠ .wo) && allTenants.any fun u => match (ten s u).own with
    | some r => ownsObject s u l sub w && r.shared.any fun x =>
        !x.extent && decide (x.index.toNat = index) && x.readers.getLsbD (sesTenant k).val
    | none => false

/-! ### Steps 1 to 3 of R372 -/

/-- The sessions on which an index exists: PDO parameters on CAN, sync manager types on EtherCAT, and in SAFE SHELL a few
ranges (R378, R447). -/
def indexHere (s : State) (k : SesId) (index : Nat) : Bool :=
  let b := (locOf index).base
  (if b = 0x1400 ∨ b = 0x1800 then decide (k ≠ 4) && (canOf s (sesTenant k)).isSome
    else if b = 0x1C00 then decide (k ≠ 4) && (escOf s (sesTenant k)).isSome else true) &&
  (decide (s.start.mode ≠ .safeShell) || decide (0x1000 ≤ index ∧ index ≤ 0x1018) || decide (0x2000 ≤ index ∧ index ≤ 0x2004) ||
    decide (0x2300 ≤ index ∧ index ≤ 0x25FF))

/-- The row of an object, subindex 0 of an index with several values among them. -/
def findRow (s : State) (k : SesId) (index sub : Nat) : Option Row :=
  let b := (locOf index).base
  match rowOf b sub (ses s k).agreed with
  | some r => some r
  | none => if sub = 0 ∧ rowsOf b (ses s k).agreed ≠ [] then some ⟨b, 0, 0, .u8, 1, .const, 0, .all, .nobody⟩ else none

/-- The abort code of steps 1 to 3 for a read or a write, 0 for none. -/
def access (s : State) (k : SesId) (index sub : Nat) (write : Bool) : Word :=
  let l := locOf index
  if !indexHere s k index ∨ rowsOf l.base (ses s k).agreed = [] then 0x06020000
  else match findRow s k index sub with
    | none => 0x06090011
    | some r =>
      let rd := isWho s k l sub r.rd || sharedRead s k l index sub r.acc r.rd
      let wr := isWho s k l sub r.wr
      let never := if write then decide (r.acc = .const ∨ r.acc = .ro ∨ r.acc = .rwr) else decide (r.acc = .wo)
      if never then (if rd || wr then (if write then 0x06010002 else 0x06010001) else 0x06010000)
      else if (if write then wr else rd) then 0 else 0x06010000

/-! ### Lengths (R367, R387) -/

/-- The limit of a DOMAIN. -/
def domainLimit (base : Nat) : Nat := match base with
  | 0x2F00 => 4384
  | 0x2F04 => 3501
  | 0x2900 => 36141
  | 0x2B01 => flashSize 3
  | 0x2B02 => 65536
  | 0x2C10 => 1036
  | 0x2403 => flashSize 0 + flashSize 1
  | _ => 5277

/-- Step 4 for a write of `n` bytes. -/
def lengthCheck (r : Row) (n : Nat) : Word :=
  if r.ty = .domain then (if domainLimit r.base < n then 0x06070012 else 0)
  else if r.size = n then 0 else 0x06070010

/-- Another session transfers into the same DOMAIN object (R388). -/
def otherXfer (s : State) (k : SesId) (index sub : Nat) : Bool :=
  (List.finRange 5).any fun j => decide (j ≠ k) && match (ses s j).xfer with
    | some x => decide (x.index.toNat = index ∧ x.sub.toNat = sub)
    | none => false

/-- What the initiation of a write checks beyond its rights: the transfer in progress, and a power-fail warning (R388, R438). -/
def initCheck (s : State) (k : SesId) (index sub : Nat) : Word :=
  if otherXfer s k index sub then 0x08000022
  else if (locOf index).base = 0x2F00 ∧ sub = 1 ∧ s.sup.pfw ≠ 0 then 0x08000022 else 0

/-! ### Versions (R375) -/

/-- The highest bit set in a negotiation's result. -/
def highBit (v : Nat) : Nat := if v.testBit 4 then 4 else if v.testBit 3 then 3 else if v.testBit 2 then 2 else if v.testBit 1 then 1 else 0

/-- A mapping of the session holds an entry for an object that a version lacks. -/
def mapLacks (x : Session) (bit : Nat) : Bool :=
  (x.rxMap ++ x.txMap).any fun e => decide (e.2 ≠ 0) &&
    (rowOf (locOf (e.2.toNat / 65536)).base (e.2.toNat / 256 % 256) bit).isNone

/-- REQUESTED. -/
def applyRequested (s : State) (k : SesId) (v : Half) : Answer :=
  let x := ses s k
  let bits := v.toNat % 32
  if bits = 0 then (0x06090030, s)
  else if x.xfer.isSome || !x.awaits.isEmpty then (0x08000022, s)
  else if mapLacks x (highBit bits) then (0x06040043, s)
  else (0, setSes s k { x with requested := v, agreed := highBit bits })

/-! ### PDO objects (R399, R409, R410) -/

/-- The bits of an object's type (R366), 0 for the 32-byte records. -/
def mapBits (r : Row) : Nat := if r.size = 32 then 0 else 8 * r.size

/-- The abort code of a mapping entry. -/
def mapEntryCheck (s : State) (k : SesId) (tx : Bool) (v : Word) : Word :=
  let index := v.toNat / 65536
  let sub := v.toNat / 256 % 256
  let a := access s k index sub (!tx)
  if a ≠ 0 then a
  else match findRow s k index sub with
    | some r => if r.acc = (if tx then Access.rwr else .rww) ∧ mapBits r = v.toNat % 256 then 0 else 0x06040041
    | none => 0x06040041

/-- Mapping objects accept writes in PRE-OP on an ESC, and on CAN while the PDO's COB-ID is invalid. -/
def mapOpen (s : State) (k : SesId) (tx : Bool) (p : Nat) : Bool :=
  decide (k ≠ 4) && match escOf s (sesTenant k), canOf s (sesTenant k) with
    | some e, _ => decide ((esc s e).al = .preOp)
    | none, some _ => (if tx then (tpdoOf s k p).cobId else (rpdoOf s k p).cobId).getLsbD 31
    | none, none => false

/-- A mapping entry. -/
def applyMapEntry (s : State) (k : SesId) (tx : Bool) (p i : Nat) (v : Word) : Answer :=
  let a := mapEntryCheck s k tx v
  if a ≠ 0 then (a, s)
  else if !mapOpen s k tx p then (0x08000022, s)
  else (0, modSes s k fun x =>
    if tx then { x with txMap := SMap.set 0 x.txMap (32 * p + i) v } else { x with rxMap := SMap.set 0 x.rxMap (32 * p + i) v })

/-- MAP_COUNT. -/
def applyMapCount (s : State) (k : SesId) (tx : Bool) (p : Nat) (v : Byte) : Answer :=
  let put := fun (x : Session) =>
    if tx then { x with txCount := SMap.set 0 x.txCount p v } else { x with rxCount := SMap.set 0 x.rxCount p v }
  let limit := if (canOf s (sesTenant k)).isSome then 64 else 256
  if 32 < v.toNat ∨ limit < pdoBytes (put (ses s k)) tx p then (0x06090030, s)
  else if !mapOpen s k tx p then (0x08000022, s)
  else (0, modSes s k put)

/-- RX_ASSIGN and TX_ASSIGN. -/
def applyAssign (s : State) (k : SesId) (tx : Bool) (i : Nat) (v : Half) : Answer :=
  let base := if tx then 0x1A00 else 0x1600
  if v ≠ 0 ∧ ¬ (base ≤ v.toNat ∧ v.toNat < base + 4) then (0x06090030, s)
  else if !mapOpen s k tx (if v = 0 then ((if tx then (ses s k).txAssign else (ses s k).rxAssign).getD i 0).toNat % 4 else v.toNat % 4)
  then (0x08000022, s)
  else (0, modSes s k fun x => if tx then { x with txAssign := x.txAssign.set i v } else { x with rxAssign := x.rxAssign.set i v })

/-- RPDO and TPDO communication parameters. -/
def applyPdoParam (s : State) (k : SesId) (tx : Bool) (p sub : Nat) (v : Nat) : Answer :=
  let tyOk := decide (v ≤ 240 ∨ v = 254 ∨ v = 255)
  let idOk := decide (v % 2 ^ 31 < 2048)
  if (sub = 1 ∧ idOk = false) ∨ (sub = 2 ∧ tyOk = false) then (0x06090030, s)
  else if tx then
    let x := tpdoOf s k p
    let y : Tpdo := match sub with
      | 1 => { x with cobId := BitVec.ofNat 32 v }
      | 2 => { x with ty := BitVec.ofNat 8 v }
      | 3 => { x with inhibit := BitVec.ofNat 16 v }
      | _ => { x with timer := BitVec.ofNat 16 v }
    (0, modSes s k fun z => { z with tpdo := SMap.set none z.tpdo p (some y), tpdoSyncs := SMap.set 0 z.tpdoSyncs p 0 })
  else
    let x := rpdoOf s k p
    let y : Rpdo := if sub = 1 then { x with cobId := BitVec.ofNat 32 v } else { x with ty := BitVec.ofNat 8 v }
    (0, modSes s k fun z => { z with rpdo := SMap.set none z.rpdo p (some y) })

/-- SYNC_TYPE: both objects take it, in PRE-OP only. -/
def applySyncType (s : State) (k : SesId) (v : Half) : Answer :=
  match escOf s (sesTenant k) with
  | some e =>
    if 3 < v.toNat then (0x06090030, s)
    else if (esc s e).al ≠ .preOp then (0x08000022, s)
    else (0, modEsc s e fun x => { x with syncType := v })
  | none => (0x08000022, s)

/-! ### Values in range (R296, R362, R439, R454, R488) -/

/-- A frequency in 25 MHz steps. -/
def freqOk (sub v : Nat) : Bool :=
  let lo := [400, 500, 125, 250].getD (sub - 1) 0
  decide (v % 25 = 0 ∧ lo ≤ v ∧ v ≤ 2 * lo)

def applyFreq (s : State) (sub v : Nat) : Answer :=
  if !freqOk sub v then (0x06090030, s)
  else (0, setClk s fun c =>
    let w := BitVec.ofNat 16 v
    { c with set := match sub with
      | 1 => { c.set with arr := w }
      | 2 => { c.set with noc := w }
      | 3 => { c.set with fab := w }
      | _ => { c.set with sys := w } })

def applySpread (s : State) (depth : Bool) (sub : Nat) (v : Byte) : Answer :=
  if depth then
    if 16 < v.toNat then (0x06090030, s) else (0, setClk s fun c => { c with set := { c.set with depth := c.set.depth.set (sub - 1) v } })
  else if v.toNat < 20 ∨ 63 < v.toNat then (0x06090030, s)
  else (0, setClk s fun c => { c with set := { c.set with rate := c.set.rate.set (sub - 1) v } })

/-- PASS_PERIOD and SPARE_PERIOD (R246). -/
def applyPeriod (s : State) (spare : Bool) (v : Half) : Answer :=
  if v.toNat < (if spare then 60 else 10) ∨ 3600 < v.toNat then (0x06090030, s)
  else (0, { s with march := if spare then { s.march with sparePeriod := v } else { s.march with passPeriod := v } })

/-- TIDE_FAULTS and TIDE_OUT_MASK. -/
def applyTideMask (s : State) (out : Bool) (v : Nat) : Answer :=
  if out then (if 15 < v then (0x06090030, s) else (0, { s with obs := { s.obs with tideOutMask := BitVec.ofNat 8 v } }))
  else if 255 < v then (0x06090030, s) else (0, { s with obs := { s.obs with tideFaults := BitVec.ofNat 16 v } })

/-- The settings of a connection. -/
def applyCam (s : State) (c : CxpId) (sub v : Nat) : Answer :=
  let put := fun (f : Cam → Cam) => ((0 : Word), modCam s c f)
  let bad : Answer := (0x06090030, s)
  match sub with
  | 1 => if v ≤ 5 then put fun x => { x with fmt := BitVec.ofNat 8 v } else bad
  | 2 =>
    let wh := v / 2 ^ 48
    let ww := v / 2 ^ 32 % 65536
    if wh = 0 ∨ 16384 < wh ∨ ww = 0 ∨ 16384 < ww then bad else put fun x => { x with window := BitVec.ofNat 64 v }
  | 3 => if v / 2 ^ 16 % 2 ^ 15 ≠ 0 then bad else put fun x => { x with origin := BitVec.ofNat 32 v }
  | 4 => if v / 2 ^ 12 % 2 ^ 16 ≠ 0 ∨ v / 2 ^ 29 % 4 = 3 then bad else put fun x => { x with landing := BitVec.ofNat 32 v }
  | 5 => put fun x => { x with spOffset := BitVec.ofNat 32 v }
  | _ => if v < 64 ∨ v = 0xFF then put fun x => { x with trigLine := BitVec.ofNat 8 v } else bad

/-- MAX_SPEED. -/
def applyMaxSpeed (s : State) (v : Byte) : Answer :=
  if cxpSpeeds.contains v.toNat then (0, { s with maxSpeed := v }) else (0x06090030, s)

/-- The settings of a channel that take effect at once. -/
def applyFc (s : State) (n sub v : Nat) : Answer :=
  let put := fun (f : Fc → Fc) => ((0 : Word), modFch s n f)
  let bad : Answer := (0x06090030, s)
  match sub with
  | 4 => if v < 32 then put fun x => { x with diagEn := BitVec.ofNat 8 v } else bad
  | 5 => if 1 ≤ v ∧ v ≤ 1000 then put fun x => { x with owPeriod := BitVec.ofNat 16 v } else bad
  | 6 => if 63 ≤ v ∧ v ≤ 62500000 then put fun x => { x with pwmPeriod := BitVec.ofNat 32 v } else bad
  | 7 => if v < 16 ∧ v % 4 ≠ 3 then put fun x => { x with options := BitVec.ofNat 8 v } else bad
  | 9 => put fun x => { x with adcOrigin := BitVec.ofNat 16 v }
  | _ => put fun x => { x with pretrig := BitVec.ofNat 8 v }

/-- LOG_CURSOR (R486). -/
def applyCursor (s : State) (k : SesId) (v : Word) : Answer := (0, modSes s k fun x => { x with logCursor := v })

/-- ERROR_COUNT: 0 clears the history. -/
def applyErrorCount (s : State) (k : SesId) (v : Byte) : Answer :=
  if v = 0 then (0, modSes s k fun x => { x with errHist := [] }) else (0x06090030, s)

/-! ### Writes -/

/-- Step 5 and the effect of a write whose steps 1 to 4 have passed. -/
def objWrite (s : State) (k : SesId) (index sub : Nat) (d : Bytes) : Answer :=
  let l := locOf index
  let t := sesTenant k
  let v := ofLe d
  let b : Byte := BitVec.ofNat 8 v
  let h : Half := BitVec.ofNat 16 v
  let w : Word := BitVec.ofNat 32 v
  match l.base with
  | 0x1003 => applyErrorCount s k b
  | 0x1400 => applyPdoParam s k false l.inst sub v
  | 0x1800 => applyPdoParam s k true l.inst sub v
  | 0x1600 => if sub = 0 then applyMapCount s k false l.inst b else applyMapEntry s k false l.inst (sub - 1) w
  | 0x1A00 => if sub = 0 then applyMapCount s k true l.inst b else applyMapEntry s k true l.inst (sub - 1) w
  | 0x1C12 => applyAssign s k false (sub - 1) h
  | 0x1C13 => applyAssign s k true (sub - 1) h
  | 0x1C32 => applySyncType s k h
  | 0x1C33 => applySyncType s k h
  | 0x2002 => applyRequested s k h
  | 0x2200 => (match sub with
    | 2 => applyCeiling s b
    | 3 => applyIdle s b
    | 4 => applyDeepSleep s k b
    | _ => applyRampDwell s b)
  | 0x2201 => applyIdleHold s (Fin.ofNat 4 (sub - 1)) w
  | 0x2202 => applyFreq s sub v
  | 0x2203 => applySpread s true sub b
  | 0x2204 => applySpread s false sub b
  | 0x2205 => if sub = 1 then applyGateRun s w else if sub = 2 then applyGateSleep s w else applyGateDeep s w
  | 0x2206 => applyRefSelect s b
  | 0x2301 => applyReset s b (goodReport s)
  | 0x2401 => applyNonce s t d
  | 0x2403 => applyFirmware s k d
  | 0x2404 => applyKeyRecord s k d
  | 0x2500 => if sub = 1 then applyTideCmd s b else applyTideMask s (decide (sub = 3)) v
  | 0x2502 => applyCursor s k w
  | 0x2600 => (match sub with
    | 1 => applyMarchEnable s b
    | 6 => applyDtestTarget s h
    | _ => applyPeriod s (decide (sub = 3)) h)
  | 0x2900 => applyPatch s k d
  | 0x2B01 => applyLoad s k true d
  | 0x2B02 => applyLoad s k false d
  | 0x2B05 => applyCapture s t b
  | 0x2B06 => applyProbeSel s (sub - 1) b
  | 0x2B07 => (0, { s with fab := { s.fab with serialMode := SMap.set 0 s.fab.serialMode (sub - 1) h } })
  | 0x2C00 => if sub = 1 then applyGrouping s b else applyMaxSpeed s b
  | 0x2C10 => if sub = 14 then applyCamReg s k (Fin.ofNat 8 l.inst) d else applyCam s (Fin.ofNat 8 l.inst) sub v
  | 0x2F00 => applySubmit s (Fin.ofNat 4 l.inst) d
  | 0x2F01 => if sub = 1 then applyAbort s (Fin.ofNat 4 l.inst) b else applyRelease s (Fin.ofNat 4 l.inst) b
  | 0x2F03 => applyRetireTo s (Fin.ofNat 4 l.inst) w
  | 0x2F04 => applyOwnership s k (Fin.ofNat 4 l.inst) d
  | 0x6200 => applyDoutImage s t (sub - 1) b
  | 0x6420 => if sub = 2 then applySpsEnable s l.inst b else applyGroupClear s l.inst b
  | 0x7000 => (match sub with
    | 1 => applyMode s t l.inst b
    | 2 => applySafe s l.inst b
    | 3 => applyFilter s l.inst b
    | 8 => applySource s l.inst b
    | 14 => applyDiagClear s l.inst b
    | _ => applyFc s l.inst sub v)
  | _ => (0x06020000, s)

/-- Objects whose confirmation waits: the two loads, a camera's register, DEEP_SLEEP (R24, R387). -/
def deferred (index sub : Nat) : Bool :=
  let b := (locOf index).base
  decide (index = 0x2B01 ∨ (index = 0x2B02 ∧ sub = 1) ∨ (b = 0x2C10 ∧ sub = 14) ∨ (index = 0x2200 ∧ sub = 4))

/-- The end of a write: the answer, a deferred one not yet; the settings in flash are measured; an accepted order stops a
DEEP-SLEEP entry; a tide mark the write has raised is taken. -/
def endWrite (r : Answer) (k : SesId) (index sub : Nat) : State :=
  let s1 := if r.1 = 0 ∧ keptInFlash index sub = true then measure r.2 16 0 (flashValues r.2) else r.2
  let s2 := cancelSleep s1
  let s3 := if !(ses s2 k).isOpen then s2
    else if r.1 = 0 ∧ deferred index sub = true then modSes s2 k fun x => { x with
      awaits := (BitVec.ofNat 16 index, BitVec.ofNat 8 sub) :: x.awaits, reply := none }
    else answer s2 k (BitVec.ofNat 16 index) (BitVec.ofNat 8 sub) r.1 []
  takeMark s3

/-- A write whose data has arrived whole: rights, access kind, length, value, effect (R372). `run` is the effect. -/
def writeBy (run : State → Answer) (s : State) (k : SesId) (index sub : Nat) (n : Nat) : State :=
  let fail := fun (a : Word) => answer s k (BitVec.ofNat 16 index) (BitVec.ofNat 8 sub) a []
  let a := access s k index sub true
  if a ≠ 0 then fail a
  else match findRow s k index sub with
    | none => fail 0x06090011
    | some r =>
      let c := lengthCheck r n
      if c ≠ 0 then fail c else endWrite (run s) k index sub

/-- The session carries SDOs: it is open, and no start or DEEP-SLEEP is under way (R373, R396). -/
def sesUp (s : State) (k : SesId) : Bool := (ses s k).isOpen && moduleUp s

/-- A host writes an object in one transfer. -/
def hostWrite (s : State) (k : SesId) (index sub : Nat) (d : Bytes) : State :=
  if !sesUp s k then s
  else
    let a := access s k index sub true
    let c := initCheck s k index sub
    if a = 0 ∧ c ≠ 0 then answer s k (BitVec.ofNat 16 index) (BitVec.ofNat 8 sub) c []
    else writeBy (fun u => objWrite u k index sub d) s k index sub d.length

/-! ### Reads -/

/-- LOG_ENTRY: the first entry at or above the cursor that the tenant may read (R486). -/
def nextEntry (s : State) (k : SesId) : Option LogEntry :=
  (s.obs.log.reverse).find? fun e =>
    decide ((ses s k).logCursor.toNat ≤ e.num.toNat) && e.readers.getLsbD (sesTenant k).val

/-- A read: the abort code, the bytes, and the state after it. -/
def objRead (s : State) (k : SesId) (index sub : Nat) : Word × Bytes × State :=
  let l := locOf index
  let a := access s k index sub false
  if a ≠ 0 then (a, [], s)
  else if index = 0x2502 ∧ sub = 2 then
    match nextEntry s k with
    | some e => (0, e.bytes, modSes s k fun x => { x with logCursor := e.num + 1 })
    | none => (0x08000024, [], s)
  else if index = 0x2B05 ∧ 3 ≤ sub then
    let r := sub - 3
    if !s.fab.captureState.getLsbD r then (0x08000024, [], s)
    else
      let m : Half := (1#16 <<< r) ||| (1#16 <<< (r + 8))
      (0, SMap.get [] s.fab.captured r, { s with fab := { s.fab with
        captured := SMap.set [] s.fab.captured r [], captureState := s.fab.captureState &&& ~~~m } })
  else if l.base = 0x2C10 ∧ sub = 14 then
    match readCamReg s (Fin.ofNat 8 l.inst) with
    | some (b, u) => (0, b, u)
    | none => (0x08000024, [], s)
  else if index = 0x2401 ∧ sub = 3 ∧ (att s (sesTenant k)).state ≠ 3 then (0x08000024, [], s)
  else (0, objValue s k index sub, s)

/-- A host reads an object. -/
def hostRead (s : State) (k : SesId) (index sub : Nat) : State :=
  if !sesUp s k then s
  else
    let r := objRead s k index sub
    answer r.2.2 k (BitVec.ofNat 16 index) (BitVec.ofNat 8 sub) r.1 r.2.1

/-! ### Segmented transfers (R384, R388) -/

/-- The transfer ends without effect. -/
def dropXfer (s : State) (k : SesId) : State := modSes s k fun x => { x with xfer := none }

/-- A segment of a write: an initiation checks rights, size and other transfers; the last segment runs the write. -/
def segment (s : State) (k : SesId) (index sub : Nat) (size : Option Nat) (d : Bytes) (last : Bool) : State :=
  let fail := fun (a : Word) => answer (dropXfer s k) k (BitVec.ofNat 16 index) (BitVec.ofNat 8 sub) a []
  let old : Option Xfer := match (ses s k).xfer with
    | some x => if x.index.toNat = index ∧ x.sub.toNat = sub then some x else none
    | none => none
  let first := match old with
    | some _ => 0
    | none =>
      let a := access s k index sub true
      if a ≠ 0 then a
      else
        let c := initCheck s k index sub
        if c ≠ 0 then c
        else match findRow s k index sub, size with
          | some r, some n => lengthCheck r n
          | _, _ => 0
  if first ≠ 0 then fail first
  else
    let x : Xfer := old.getD ⟨BitVec.ofNat 16 index, BitVec.ofNat 8 sub, size, []⟩
    let data := x.data ++ d
    let tooLong : Bool := match findRow s k index sub with
      | some r => decide (r.ty = .domain ∧ domainLimit r.base < data.length)
      | none => false
    if tooLong then fail 0x06070012
    else if !last then modSes s k fun y => { y with xfer := some { x with data := data }, reply := none }
    else match x.size with
      | some n => if n = data.length then writeBy (fun u => objWrite u k index sub data) (dropXfer s k) k index sub data.length
        else fail 0x06070010
      | none => writeBy (fun u => objWrite u k index sub data) (dropXfer s k) k index sub data.length

/-! ### Emergencies (R390) -/

/-- The oldest queued emergency leaves; it enters the history as sent (R392, R394). -/
def sendEmergency (s : State) (k : SesId) : State :=
  match (ses s k).queue with
  | e :: rest =>
    let code := emcyMapped (ses s k).agreed e.code
    let s1 := modSes s k fun x => addHistory { x with queue := rest, sent := some { e with code := code } } code e.detail
    match canOf s (sesTenant k) with
    | some c => modCan s1 c fun x => { x with
        lastTx := some (BitVec.ofNat 11 (0x80 + tenNode s (sesTenant k)), leBytes 2 code.toNat ++ [e.reg] ++ e.detail) }
    | none => s1
  | [] => s

end Sys2Proof.Machine
end

