-- ==== Sys2Proof/Machine/HostRows.lean ====
section
/-! DEFINITION. The commands by which a host accesses one object, and those of its transfers (R365–R394). -/

namespace Sys2Proof.Machine

open Host (Outcome)

/-! ### Array, orders, memory -/

/-- PATCH_BUNDLE (R184). -/
def execPatchBundle (k : SesId) (d : Bytes) (s : State) : Outcome State Fault Refusal := .next (hostWrite s k 0x2900 3 d)

/-- SUBMIT (R195–R199). -/
def execSubmit (k : SesId) (t : Tenant) (d : Bytes) (s : State) : Outcome State Fault Refusal :=
  .next (hostWrite s k (0x2F00 + 16 * t.val) 1 d)

/-- RETIRE_TO (R198). -/
def execRetireTo (k : SesId) (t : Tenant) (v : Word) (s : State) : Outcome State Fault Refusal :=
  .next (hostWrite s k (0x2F03 + 16 * t.val) 1 (leBytes 4 v.toNat))

/-- ABORT (R215). -/
def execAbort (k : SesId) (t : Tenant) (v : Byte) (s : State) : Outcome State Fault Refusal :=
  .next (hostWrite s k (0x2F01 + 16 * t.val) 1 [v])

/-- RELEASE (R216). -/
def execRelease (k : SesId) (t : Tenant) (v : Byte) (s : State) : Outcome State Fault Refusal :=
  .next (hostWrite s k (0x2F01 + 16 * t.val) 3 [v])

/-- OWNERSHIP (R192, R193). -/
def execOwnership (k : SesId) (t : Tenant) (d : Bytes) (s : State) : Outcome State Fault Refusal :=
  .next (hostWrite s k (0x2F04 + 16 * t.val) 1 d)

/-- MARCH_ENABLE (R246). -/
def execMarchEnable (k : SesId) (v : Byte) (s : State) : Outcome State Fault Refusal := .next (hostWrite s k 0x2600 1 [v])

/-- DTEST_TARGET (R244, R246). -/
def execDtestTarget (k : SesId) (v : Half) (s : State) : Outcome State Fault Refusal :=
  .next (hostWrite s k 0x2600 6 (leBytes 2 v.toNat))

/-! ### Cameras and fabric -/

/-- GROUPING (R279, R296). -/
def execGrouping (k : SesId) (v : Byte) (s : State) : Outcome State Fault Refusal := .next (hostWrite s k 0x2C00 1 [v])

/-- CAM_REG_WRITE (R296). -/
def execCamRegWrite (k : SesId) (c : CxpId) (d : Bytes) (s : State) : Outcome State Fault Refusal :=
  .next (hostWrite s k (0x2C10 + c.val) 14 d)

/-- CAM_REG_READ (R296). -/
def execCamRegRead (k : SesId) (c : CxpId) (s : State) : Outcome State Fault Refusal := .next (hostRead s k (0x2C10 + c.val) 14)

/-- FULL_LOAD (R320). -/
def execFullLoad (k : SesId) (d : Bytes) (s : State) : Outcome State Fault Refusal := .next (hostWrite s k 0x2B01 1 d)

/-- PARTIAL_LOAD (R321). -/
def execPartialLoad (k : SesId) (d : Bytes) (s : State) : Outcome State Fault Refusal := .next (hostWrite s k 0x2B02 1 d)

/-- CAPTURE (R331). -/
def execCapture (k : SesId) (v : Byte) (s : State) : Outcome State Fault Refusal := .next (hostWrite s k 0x2B05 1 [v])

/-- PROBE_SEL (R333). -/
def execProbeSel (k : SesId) (land : Fin 4) (v : Byte) (s : State) : Outcome State Fault Refusal :=
  .next (hostWrite s k 0x2B06 (land.val + 1) [v])

/-! ### Field channels -/

/-- MODE (R337). -/
def execMode (k : SesId) (n : FcId) (v : Byte) (s : State) : Outcome State Fault Refusal :=
  .next (hostWrite s k (0x7000 + n.val) 1 [v])

/-- SAFE_STATE (R359). -/
def execSafeState (k : SesId) (n : FcId) (v : Byte) (s : State) : Outcome State Fault Refusal :=
  .next (hostWrite s k (0x7000 + n.val) 2 [v])

/-- FILTER (R326). -/
def execFilter (k : SesId) (n : FcId) (v : Byte) (s : State) : Outcome State Fault Refusal :=
  .next (hostWrite s k (0x7000 + n.val) 3 [v])

/-- DOUT_IMAGE (R344, R363). -/
def execDoutImage (k : SesId) (j : Fin 64) (v : Byte) (s : State) : Outcome State Fault Refusal :=
  .next (hostWrite s k 0x6200 (j.val + 1) [v])

/-- DIAG_CLEAR (R354). -/
def execDiagClear (k : SesId) (n : FcId) (v : Byte) (s : State) : Outcome State Fault Refusal :=
  .next (hostWrite s k (0x7000 + n.val) 14 [v])

/-- SPS_ENABLE (R345). -/
def execSpsEnable (k : SesId) (g : GroupId) (v : Byte) (s : State) : Outcome State Fault Refusal :=
  .next (hostWrite s k (0x6420 + g.val) 2 [v])

/-- GROUP_CLEAR (R356). -/
def execGroupClear (k : SesId) (g : GroupId) (v : Byte) (s : State) : Outcome State Fault Refusal :=
  .next (hostWrite s k (0x6420 + g.val) 4 [v])

/-! ### Dictionary -/

/-- REGISTER_WRITE: an object by its address (R372). -/
def execRegisterWrite (k : SesId) (index : Half) (sub : Byte) (d : Bytes) (s : State) : Outcome State Fault Refusal :=
  .next (hostWrite s k index.toNat sub.toNat d)

/-- DOMAIN_SEGMENT (R388). -/
def execDomainSegment (k : SesId) (index : Half) (sub : Byte) (size : Option Nat) (d : Bytes) (last : Bool) (s : State) :
    Outcome State Fault Refusal :=
  .next (if sesUp s k then segment s k index.toNat sub.toNat size d last else s)

/-- SEGMENT_PAUSE_TIMEOUT: a transfer paused for more than 1 s (R384). -/
def execSegmentPauseTimeout (k : SesId) (s : State) : Outcome State Fault Refusal :=
  .next (match (ses s k).xfer with
    | some x => answer (dropXfer s k) k x.index x.sub 0x05040000 []
    | none => s)

/-- HOST_SDO_ABORT: the held data is discarded (R388). -/
def execHostSdoAbort (k : SesId) (s : State) : Outcome State Fault Refusal := .next (dropXfer s k)

/-- REQUESTED (R375). -/
def execRequested (k : SesId) (v : Half) (s : State) : Outcome State Fault Refusal :=
  .next (hostWrite s k 0x2002 1 (leBytes 2 v.toNat))

/-- ERROR_COUNT (R378). -/
def execErrorCount (k : SesId) (v : Byte) (s : State) : Outcome State Fault Refusal := .next (hostWrite s k 0x1003 0 [v])

/-- MAP_ENTRY (R410). -/
def execMapEntry (k : SesId) (tx : Bool) (p : Fin 4) (i : Fin 32) (v : Word) (s : State) : Outcome State Fault Refusal :=
  .next (hostWrite s k ((if tx then 0x1A00 else 0x1600) + p.val) (i.val + 1) (leBytes 4 v.toNat))

/-- MAP_COUNT (R410). -/
def execMapCount (k : SesId) (tx : Bool) (p : Fin 4) (v : Byte) (s : State) : Outcome State Fault Refusal :=
  .next (hostWrite s k ((if tx then 0x1A00 else 0x1600) + p.val) 0 [v])

/-- PDO_ASSIGN (R399). -/
def execPdoAssign (k : SesId) (tx : Bool) (i : Fin 4) (v : Half) (s : State) : Outcome State Fault Refusal :=
  .next (hostWrite s k (if tx then 0x1C13 else 0x1C12) (i.val + 1) (leBytes 2 v.toNat))

/-- EMERGENCY_SEND: the oldest queued emergency is sent (R390). -/
def execEmergencySend (k : SesId) (s : State) : Outcome State Fault Refusal := .next (if sesUp s k then sendEmergency s k else s)

/-- LOG_CURSOR (R486). -/
def execLogCursor (k : SesId) (v : Word) (s : State) : Outcome State Fault Refusal :=
  .next (hostWrite s k 0x2502 1 (leBytes 4 v.toNat))

/-- LOG_ENTRY (R486). -/
def execLogEntry (k : SesId) (s : State) : Outcome State Fault Refusal := .next (hostRead s k 0x2502 2)

/-- SYNC_TYPE (R400, R402). -/
def execSyncType (k : SesId) (v : Half) (s : State) : Outcome State Fault Refusal :=
  .next (hostWrite s k 0x1C32 1 (leBytes 2 v.toNat))

/-! ### Clocks, starts, identity, observation -/

/-- ACTIVE_CEILING (R22). -/
def execActiveCeiling (k : SesId) (v : Byte) (s : State) : Outcome State Fault Refusal := .next (hostWrite s k 0x2200 2 [v])
/-- IDLE_PROFILE (R22, R24). -/
def execIdleProfile (k : SesId) (v : Byte) (s : State) : Outcome State Fault Refusal := .next (hostWrite s k 0x2200 3 [v])
/-- DEEP_SLEEP (R24). -/
def execDeepSleep (k : SesId) (v : Byte) (s : State) : Outcome State Fault Refusal := .next (hostWrite s k 0x2200 4 [v])
/-- RAMP_DWELL (R422). -/
def execRampDwell (k : SesId) (v : Byte) (s : State) : Outcome State Fault Refusal := .next (hostWrite s k 0x2200 5 [v])
/-- IDLE_HOLD (R434). -/
def execIdleHold (k : SesId) (t : Tenant) (v : Word) (s : State) : Outcome State Fault Refusal :=
  .next (hostWrite s k 0x2201 (t.val + 1) (leBytes 4 v.toNat))
/-- GATE_RUN (R425). -/
def execGateRun (k : SesId) (v : Word) (s : State) : Outcome State Fault Refusal :=
  .next (hostWrite s k 0x2205 1 (leBytes 4 v.toNat))
/-- GATE_SLEEP (R425). -/
def execGateSleep (k : SesId) (v : Word) (s : State) : Outcome State Fault Refusal :=
  .next (hostWrite s k 0x2205 2 (leBytes 4 v.toNat))
/-- GATE_DEEP (R427). -/
def execGateDeep (k : SesId) (v : Word) (s : State) : Outcome State Fault Refusal :=
  .next (hostWrite s k 0x2205 3 (leBytes 4 v.toNat))
/-- REF_SELECT (R417). -/
def execRefSelect (k : SesId) (v : Byte) (s : State) : Outcome State Fault Refusal := .next (hostWrite s k 0x2206 1 [v])

/-- A write to RESET with what the start that follows finds. -/
def resetBy (s : State) (k : SesId) (v : Byte) (r : StartReport) : State :=
  if sesUp s k then writeBy (fun u => applyReset u v r) s k 0x2301 1 1 else s

/-- RESET_WARM (R443). -/
def execResetWarm (k : SesId) (r : StartReport) (s : State) : Outcome State Fault Refusal := .next (resetBy s k 1 r)
/-- RESET_COLD (R443, R447). -/
def execResetCold (k : SesId) (r : StartReport) (s : State) : Outcome State Fault Refusal := .next (resetBy s k 2 r)

/-- NONCE (R466). -/
def execNonce (k : SesId) (d : Bytes) (s : State) : Outcome State Fault Refusal := .next (hostWrite s k 0x2401 1 d)
/-- KEY_RECORD (R459). -/
def execKeyRecord (k : SesId) (d : Bytes) (s : State) : Outcome State Fault Refusal := .next (hostWrite s k 0x2404 1 d)
/-- FIRMWARE (R464, R471). -/
def execFirmware (k : SesId) (d : Bytes) (s : State) : Outcome State Fault Refusal := .next (hostWrite s k 0x2403 1 d)
/-- TIDE_CMD (R474). -/
def execTideCmd (k : SesId) (v : Byte) (s : State) : Outcome State Fault Refusal := .next (hostWrite s k 0x2500 1 [v])

end Sys2Proof.Machine
end

