-- ==== Sys2Proof/Machine/Network.lean ====
section
/-! DEFINITION. EtherCAT, CANopen FD and the maintenance port (R395–R415). -/

namespace Sys2Proof.Machine

open Host (Outcome)

/-- A controller works: it is in service, and no start or DEEP-SLEEP is under way. -/
def ctrlUp (s : State) (h : HostCh) : Bool :=
  decide (ctrlService s h = .inService) && moduleUp s && decide (s.clk.sleep ≠ .entered)

def escCh (e : CtrlId) : HostCh := Fin.castLE (by decide) e
def canCh (c : CtrlId) : HostCh := if c = 0 then 2 else 3

/-- A request of a session is served. -/
def serve (s : State) (k : SesId) (r : SdoReq) : State := match r with
  | .upload i b => hostRead s k i.toNat b.toNat
  | .download i b d => hostWrite s k i.toNat b.toNat d
  | .completeAccess i b => if sesUp s k then answer s k i b 0x06010000 [] else s

/-! ### PDO values (R372, R399, R409) -/

/-- A receive entry: written where the right still stands. -/
def pdoPut (s : State) (k : SesId) (e : Word) (d : Bytes) : State :=
  let i := e.toNat / 65536
  let b := e.toNat / 256 % 256
  if access s k i b true = 0 then (objWrite s k i b d).2 else s

/-- The entries of a PDO take their bytes in order. -/
def pdoWrite (k : SesId) : List Word → Bytes → State → State
  | [], _, s => s
  | e :: l, d, s => pdoWrite k l (d.drop (entryBytes e)) (pdoPut s k e (d.take (entryBytes e)))

/-- A transmit entry: zeros where the right is gone. -/
def pdoGet (s : State) (k : SesId) (e : Word) : Bytes :=
  let i := e.toNat / 65536
  let b := e.toNat / 256 % 256
  if access s k i b false = 0 then objValue s k i b else List.replicate (entryBytes e) 0

/-- The image of a tenant in SM3. -/
def txImage (s : State) (t : Tenant) : Bytes :=
  let x := ses s (tenSes t)
  (assigned x true).flatMap fun p => (pdoEntries x true p).flatMap (pdoGet s (tenSes t))

/-- Inputs are latched into SM3; a tenant that has left the ESC carries zeros. -/
def latchInputs (s : State) (e : CtrlId) : State :=
  let img := (esc s e).members.flatMap fun t =>
    if escOf s t = some e then txImage s t else List.replicate (imageLen (ses s (tenSes t)) true) 0
  modEsc s e fun x => { x with sm3 := img }

/-- The outputs of the last frame take effect, tenant by tenant. -/
def applyOutputs (s : State) (e : CtrlId) : State :=
  ((esc s e).members.foldl (fun (a : State × Bytes) t =>
    let x := ses a.1 (tenSes t)
    let n := imageLen x false
    let u := if escOf s t = some e then
        pdoWrite (tenSes t) ((assigned x false).flatMap (pdoEntries x false)) (a.2.take n) a.1 else a.1
    (u, a.2.drop n)) (s, (esc s e).sm2)).1

/-! ### EtherCAT state machine (R398–R400) -/

/-- The code that refuses the configuration of a transition to SAFE-OP, 0 for none. -/
def layoutCheck (s : State) (e : CtrlId) (c : EscConfig) : Half :=
  let ts := boundTo s (escCh e)
  let lens := fun (tx : Bool) => ts.map fun t => imageLen (ses s (tenSes t)) tx
  let bad := fun (tx : Bool) (start : Half) (len : Nat) =>
    decide (start ≠ (if tx then 0x1C00 else 0x1800)) || decide (len ≠ (lens tx).foldl (· + ·) 0) || decide (512 < len) ||
      (lens tx).any fun n => decide (256 < n)
  let dc := decide ((esc s e).syncType = 2 ∨ (esc s e).syncType = 3)
  if bad false c.sm2Start c.sm2Len then 0x001D
  else if bad true c.sm3Start c.sm3Len then 0x001E
  else if dc ∧ ¬ (31250 ≤ c.sync0Cycle ∧ c.sync0Cycle ≤ 100000000 ∧ c.sync1Shift + 1000 ≤ c.sync0Cycle) then 0x0030
  else 0

/-- Whether one request may follow a state: the transitions of the EtherCAT state machine (R11; PRESUMED, log 20). -/
def alAllowed (old new : AlState) : Bool := match old, new with
  | _, .init => true
  | _, .boot => false
  | _, .preOp => true
  | .init, _ => false
  | _, .safeOp => true
  | .preOp, .op => false
  | _, .op => true

/-- The ESC takes a state; sessions open and close with it. -/
def enterAl (s : State) (e : CtrlId) (new : AlState) (c : EscConfig) : State :=
  let old := (esc s e).al
  let dc := decide ((esc s e).syncType = 2 ∨ (esc s e).syncType = 3)
  let s1 := modEsc s e fun x => match new with
    | .safeOp => if old = .preOp then { x with
        al := .safeOp, alStatus := 0, cfg := some c, members := boundTo s (escCh e)
        cycle := if dc then BitVec.ofNat 32 c.sync0Cycle else 0, sm2Wait := false, sm2Fresh := false }
      else { x with al := .safeOp, alStatus := 0 }
    | .op => { x with al := .op, alStatus := 0, sm2Fresh := true }
    | v => { x with
        al := v, alStatus := 0, cfg := none, members := [], cycle := 0, sm2Wait := false, sm2Fresh := false }
  (boundTo s (escCh e)).foldl syncSes s1

/-- ESC_AL_CONTROL. -/
def execEscAlControl (e : CtrlId) (req : AlState) (c : EscConfig) (s : State) : Outcome State Fault Refusal :=
  let refuse := fun (code : Half) => modEsc s e fun x => { x with alStatus := code }
  .next (if !ctrlUp s (escCh e) then s
    else if !alAllowed (esc s e).al req then refuse 0x0011
    else if (esc s e).al = .preOp ∧ req = .safeOp ∧ layoutCheck s e c ≠ 0 then refuse (layoutCheck s e c)
    else enterAl s e req c)

/-! ### Mailbox, SDO information, FoE (R395, R398, R404) -/

/-- MAILBOX_REQUEST: the Channel field names the tenant; another protocol is not supported. -/
def execMailboxRequest (e : CtrlId) (channel : BitVec 6) (m : MailboxMsg) (s : State) : Outcome State Fault Refusal :=
  let err := fun (v : Half) => modEsc s e fun x => { x with mailboxError := v }
  .next (if !ctrlUp s (escCh e) || decide ((esc s e).al = .init) then s
    else match allTenants.find? fun t => decide (t.val = channel.toNat ∧ escOf s t = some e) with
      | none => err 3
      | some t => match m with
        | .otherProtocol => err 2
        | .coe r => serve (err 0) (tenSes t) r)

/-- Every index of the dictionary. -/
def allIndexes : List Nat :=
  (allRows.map Row.base).eraseDups.flatMap fun b =>
    if b = 0x7000 then (List.range 512).map (b + ·)
    else if b = 0x6420 then (List.range 32).map (b + ·)
    else if b = 0x2C10 then (List.range 8).map (b + ·)
    else if b = 0x6400 ∨ b = 0x1400 ∨ b = 0x1600 ∨ b = 0x1800 ∨ b = 0x1A00 then (List.range 4).map (b + ·)
    else if 0x2F00 ≤ b ∧ b ≤ 0x2F05 then (List.range 4).map fun t => b + 16 * t
    else [b]

/-- The access bits of an entry description: read, write, receive and transmit mapping (R11; PRESUMED, log 20). -/
def Access.bits : Access → Nat
  | .const => 0x07
  | .ro => 0x07
  | .wo => 0x38
  | .rw => 0x3F
  | .rwr => 0x87
  | .rww => 0x7F

/-- The answer to an information request: abort code and data (R398; the layout PRESUMED, log 20). -/
def infoAnswer (s : State) (k : SesId) (r : InfoReq) : Word × Bytes :=
  let has := fun (i : Nat) => indexHere s k i && decide (rowsOf (locOf i).base (ses s k).agreed ≠ [])
  match r with
  | .odList => (0, (allIndexes.filter has).flatMap (leBytes 2))
  | .object i =>
    if !has i.toNat then (0x06020000, [])
    else
      let b := (locOf i.toNat).base
      let m := maxSub b (ses s k).agreed
      match rowsOf b (ses s k).agreed with
      | x :: _ => (0, leBytes 2 i.toNat ++ leBytes 2 x.ty.code ++ [BitVec.ofNat 8 m, if m = 0 then 7 else 9])
      | [] => (0x06020000, [])
  | .entry i b =>
    if !has i.toNat then (0x06020000, [])
    else match findRow s k i.toNat b.toNat with
      | some x => (0, leBytes 2 i.toNat ++ [b, 0] ++ leBytes 2 x.ty.code ++ leBytes 2 (8 * x.size) ++ leBytes 2 x.acc.bits)
      | none => (0x06090011, [])

/-- SDO_INFORMATION, on an ESC. -/
def execSdoInformation (k : SesId) (r : InfoReq) (s : State) : Outcome State Fault Refusal :=
  .next (match escOf s (sesTenant k) with
    | some e =>
      if !sesUp s k || decide (k = 4) then s
      else
        let a := infoAnswer s k r
        let s1 := modEsc s e fun x => { x with info := a.2 }
        match r with
        | .odList => answer s1 k 0 0 a.1 a.2
        | .object i => answer s1 k i 0 a.1 a.2
        | .entry i b => answer s1 k i b a.1 a.2
    | none => s)

/-- The object of a file name. -/
def foeObject (name : String) : Option (Nat × Nat) :=
  if name = "FABRIC_FULL" then some (0x2B01, 1) else if name = "FABRIC_PART" then some (0x2B02, 1)
  else if name = "MC_PATCH" then some (0x2900, 3) else if name = "FIRMWARE" then some (0x2403, 1)
  else if name = "OWNERSHIP_T0" then some (0x2F04, 1) else if name = "OWNERSHIP_T1" then some (0x2F14, 1)
  else if name = "OWNERSHIP_T2" then some (0x2F24, 1) else if name = "OWNERSHIP_T3" then some (0x2F34, 1) else none

def setFoe (s : State) (code : Half) (abort : Word) : State := { s with net := { s.net with foe := (code, abort) } }

/-- FOE_WRITE. -/
def execFoeWrite (k : SesId) (name : String) (password : Word) (d : Bytes) (s : State) : Outcome State Fault Refusal :=
  .next (if !sesUp s k || decide (k = 4) || (escOf s (sesTenant k)).isNone then s
    else match foeObject name with
      | none => setFoe s 0x8001 0
      | some (i, b) =>
        if password ≠ 0 ∨ access s k i b true = 0x06010000 then setFoe s 0x8002 0
        else
          let s1 := hostWrite s k i b d
          match (ses s1 k).reply with
          | some r => if r.abort = 0 then setFoe s1 0 0 else setFoe s1 0x8000 r.abort
          | none => setFoe s1 0 0)

/-- FOE_READ: not supported. -/
def execFoeRead (k : SesId) (_name : String) (s : State) : Outcome State Fault Refusal :=
  .next (if !sesUp s k || decide (k = 4) || (escOf s (sesTenant k)).isNone then s else setFoe s 0x8004 0)

/-! ### Process data on an ESC (R400, R401, R403) -/

/-- In mode 1 the frames missing since the last one, two cycle times late each; the manual names no cycle for this mode, so how
many they are is free (R401, R402; log 50). -/
def lateFrames (s : State) (e : CtrlId) : State :=
  bump (modEsc s e fun x => { x with
    exceeded := BitVec.ofNat 16 (Nat.min 65535 (x.exceeded.toNat + (Config.freeWord (freshNum s) 87).toNat % 65536)) })

/-- SM2_EVENT: an output frame, in OP. -/
def execSm2Event (e : CtrlId) (d : Bytes) (s : State) : Outcome State Fault Refusal :=
  let s1 := modEsc s e fun x => { x with sm2 := d, sm2Fresh := true, sm2Wait := decide (2 ≤ x.syncType.toNat) }
  .next (if !ctrlUp s (escCh e) || decide ((esc s e).al ≠ .op) then s
    else takeMark (match (esc s e).syncType.toNat with
      | 0 => applyOutputs s1 e
      | 1 => latchInputs (applyOutputs (lateFrames s1 e) e) e
      | _ => s1))

/-- A SYNC event reaches the fabric ports, the waits and the start inputs of the bound tenants. -/
def syncEvent (s : State) (e : CtrlId) (one : Bool) : State :=
  let s1 := pulsePort s (8 + 2 * e.val + one.toNat)
  (boundTo s (escCh e)).foldl (fun u t =>
    let v := match seqOf u t with
      | some q => modSqr u q.val fun x => { x with ws := x.ws.map fun w =>
          if one then { w with edge1 := true } else { w with edge0 := true } }
      | none => u
    startInput v t (if one then 0x41 else 0x40) s.time) s1

/-- The ESC exchanges process data. -/
def escRuns (s : State) (e : CtrlId) : Bool :=
  ctrlUp s (escCh e) && decide ((esc s e).al = .safeOp ∨ (esc s e).al = .op)

/-- SYNC0. -/
def execSync0 (e : CtrlId) (s : State) : Outcome State Fault Refusal :=
  let x := esc s e
  let dc := decide (x.syncType = 2 ∨ x.syncType = 3)
  .next (if !escRuns s e then s
    else
      let s1 := modEsc s e fun y => { y with
        exceeded := if dc && decide (x.al = .op) && !x.sm2Fresh then satInc y.exceeded else y.exceeded
        sm2Fresh := false, sm2Wait := false }
      let s2 := if dc && x.sm2Wait && decide (x.al = .op) then applyOutputs s1 e else s1
      takeMark (syncEvent (if x.syncType = 2 then latchInputs s2 e else s2) e false))

/-- SYNC1. -/
def execSync1 (e : CtrlId) (s : State) : Outcome State Fault Refusal :=
  .next (if !escRuns s e then s
    else syncEvent (if (esc s e).syncType = 3 then latchInputs s e else s) e true)

/-- FREE_RUN_LATCH: every 1 ms in free run. -/
def execFreeRunLatch (e : CtrlId) (s : State) : Outcome State Fault Refusal :=
  .next (if escRuns s e && decide ((esc s e).syncType = 0) then latchInputs s e else s)

/-- PD_WATCHDOG_EXPIRY: outputs keep their last values, and no channel changes drive (R401). -/
def execPdWatchdogExpiry (_e : CtrlId) (s : State) : Outcome State Fault Refusal := .next s

/-! ### NMT (R408) -/

/-- The tenants that an NMT command or a request to a node reaches. -/
def nodesOf (s : State) (c : CtrlId) (node : BitVec 7) : List Tenant :=
  (boundTo s (canCh c)).filter fun t => decide (node.toNat = 0 ∨ node.toNat = nodeId s c t)

def setNmt (s : State) (t : Tenant) (v : NmtState) : State :=
  { s with net := { s.net with nmt := SMap.set .none s.net.nmt t.val v } }

/-- An NMT command acts on the nodes it names. -/
def onNodes (s : State) (c : CtrlId) (node : BitVec 7) (f : State → Tenant → State) : State :=
  if ctrlUp s (canCh c) then (nodesOf s c node).foldl f s else s

/-- NMT_START. -/
def execNmtStart (c : CtrlId) (node : BitVec 7) (s : State) : Outcome State Fault Refusal :=
  .next (onNodes s c node fun u t => syncSes (setNmt u t .operational) t)

/-- NMT_ENTER_PRE_OPERATIONAL. -/
def execNmtEnterPreOperational (c : CtrlId) (node : BitVec 7) (s : State) : Outcome State Fault Refusal :=
  .next (onNodes s c node fun u t => syncSes (setNmt u t .preOperational) t)

/-- NMT_STOP: the session closes. -/
def execNmtStop (c : CtrlId) (node : BitVec 7) (s : State) : Outcome State Fault Refusal :=
  .next (onNodes s c node fun u t => syncSes (setNmt u t .stopped) t)

/-- A node reset: its communication and mapping objects return to their defaults, the session closes, and it boots up. -/
def resetNode (s : State) (c : CtrlId) (t : Tenant) : State :=
  let k := tenSes t
  let s1 := modSes (closeSes s k) k fun x => { x with
    rxMap := [], txMap := [], rxCount := [], txCount := [], rpdo := [], tpdo := [], tpdoSyncs := [] }
  let s2 := modCan s1 c fun x => { x with rpdoHeld := x.rpdoHeld.filter fun h => decide (h.1 ≠ t) }
  syncSes (bootNode s2 t) t

/-- NMT_RESET_COMMUNICATION. -/
def execNmtResetCommunication (c : CtrlId) (node : BitVec 7) (s : State) : Outcome State Fault Refusal :=
  .next (onNodes s c node fun u t => resetNode u c t)

/-- NMT_RESET_NODE. -/
def execNmtResetNode (c : CtrlId) (node : BitVec 7) (s : State) : Outcome State Fault Refusal :=
  .next (onNodes s c node fun u t => resetNode u c t)

/-! ### PDOs on CAN (R405, R409) -/

/-- The CAN FD data lengths. -/
def fdLengths : List Nat := [0, 1, 2, 3, 4, 5, 6, 7, 8, 12, 16, 20, 24, 32, 48, 64]

/-- Zero bytes up to the smallest data length that holds the PDO. -/
def fdPad (d : Bytes) : Bytes :=
  let n := (fdLengths.find? fun l => decide (d.length ≤ l)).getD 64
  (d ++ List.replicate n 0).take n

/-- The node runs PDOs. -/
def nodeRuns (s : State) (t : Tenant) : Bool := decide (nmt s t = .operational)

/-- A TPDO is sent with the values of this instant. -/
def sendTpdo (s : State) (c : CtrlId) (t : Tenant) (k : Nat) : State :=
  let x := ses s (tenSes t)
  let d := (pdoEntries x true k).flatMap (pdoGet s (tenSes t))
  modCan s c fun y => { y with lastTx := some ((tpdoOf s (tenSes t) k).cobId.truncate 11, fdPad d) }

/-- A synchronous TPDO counts a SYNC and is sent at each n-th one. -/
def tpdoSync (s : State) (c : CtrlId) (t : Tenant) (k : Nat) : State :=
  let p := tpdoOf s (tenSes t) k
  let n := p.ty.toNat
  if p.cobId.getLsbD 31 ∨ n = 0 ∨ 240 < n then s
  else
    let m := (SMap.get 0 (ses s (tenSes t)).tpdoSyncs k).toNat + 1
    let put := fun (u : State) (v : Nat) => modSes u (tenSes t) fun x => { x with tpdoSyncs := SMap.set 0 x.tpdoSyncs k (BitVec.ofNat 8 v) }
    if n ≤ m then sendTpdo (put s 0) c t k else put s m

/-- An RPDO's entries are written. -/
def applyRpdo (s : State) (t : Tenant) (k : Nat) (d : Bytes) : State :=
  pdoWrite (tenSes t) (pdoEntries (ses s (tenSes t)) false k) d s

/-- CAN_SYNC: held RPDOs take effect, and synchronous TPDOs latch and leave. -/
def execCanSync (c : CtrlId) (s : State) : Outcome State Fault Refusal :=
  .next (if !ctrlUp s (canCh c) then s
    else
      let ts := (boundTo s (canCh c)).filter (nodeRuns s)
      let s1 := (can s c).rpdoHeld.foldl (fun u h => if ts.contains h.1 then applyRpdo u h.1 h.2.1 h.2.2 else u) s
      let s2 := modCan s1 c fun x => { x with rpdoHeld := [] }
      takeMark (ts.foldl (fun u t => (List.range 4).foldl (fun v k => tpdoSync v c t k) u) s2))

/-- RPDO: a frame with the COB-ID of a valid RPDO of an operational node. -/
def execRpdo (c : CtrlId) (cobId : BitVec 11) (d : Bytes) (s : State) : Outcome State Fault Refusal :=
  .next (if !ctrlUp s (canCh c) then s
    else takeMark (((boundTo s (canCh c)).filter (nodeRuns s)).foldl (fun u t =>
      (List.range 4).foldl (fun v k =>
        let p := rpdoOf v (tenSes t) k
        if p.cobId.getLsbD 31 ∨ p.cobId.truncate 11 ≠ cobId ∨ d.length < pdoBytes (ses v (tenSes t)) false k then v
        else if p.ty.toNat ≤ 240 then modCan v c fun x => { x with rpdoHeld := x.rpdoHeld ++ [(t, k, d)] }
        else applyRpdo v t k d) u) s))

/-- TPDO_TRANSMIT: a change, an event timer, or an acyclic synchronous PDO. -/
def execTpdoTransmit (t : Tenant) (k : Fin 4) (s : State) : Outcome State Fault Refusal :=
  .next (match canOf s t with
    | some c =>
      let p := tpdoOf s (tenSes t) k.val
      if !ctrlUp s (canCh c) || !nodeRuns s t || p.cobId.getLsbD 31 || decide (1 ≤ p.ty.toNat ∧ p.ty.toNat ≤ 240) then s
      else sendTpdo s c t k.val
    | none => s)

/-- HEARTBEAT: the node sends its state. -/
def execHeartbeat (t : Tenant) (s : State) : Outcome State Fault Refusal :=
  .next (match canOf s t with
    | some c =>
      if !ctrlUp s (canCh c) || decide (nmt s t = .none) then s
      else modCan s c fun x => { x with
        lastTx := some (BitVec.ofNat 11 (0x700 + nodeId s c t), [BitVec.ofNat 8 (nmt s t).code]) }
    | none => s)

/-- USDO_REQUEST: answered for a bound node whose session is open. -/
def execUsdoRequest (c : CtrlId) (node : BitVec 7) (r : SdoReq) (s : State) : Outcome State Fault Refusal :=
  .next (if !ctrlUp s (canCh c) then s
    else match (boundTo s (canCh c)).find? fun t => decide (node.toNat = nodeId s c t) with
      | some t => serve s (tenSes t) r
      | none => s)

/-! ### LSS (R407) -/

def onCan (s : State) (c : CtrlId) (f : CanCtl → CanCtl) : State := if ctrlUp s (canCh c) then modCan s c f else s

/-- LSS_CONFIGURE_NODE_ID: NB is 1 to 124. -/
def execLssConfigureNodeId (c : CtrlId) (nb : Byte) (s : State) : Outcome State Fault Refusal :=
  .next (onCan s c fun x => if 1 ≤ nb.toNat ∧ nb.toNat ≤ 124 then { x with nbCfg := nb, lssError := 0 } else { x with lssError := 1 })

/-- LSS_CONFIGURE_BIT_TIMING: table 0x80, index 0 to 6. -/
def execLssConfigureBitTiming (c : CtrlId) (selector index : Byte) (s : State) : Outcome State Fault Refusal :=
  .next (onCan s c fun x =>
    if selector = 0x80 ∧ index.toNat ≤ 6 then { x with idxCfg := index, lssError := 0 } else { x with lssError := 1 })

/-- LSS_STORE_CONFIGURATION. -/
def execLssStoreConfiguration (c : CtrlId) (s : State) : Outcome State Fault Refusal :=
  .next (onCan s c fun x => { x with nbStored := x.nbCfg, idxStored := x.idxCfg, lssError := 0 })

/-- LSS_ACTIVATE_BIT_TIMING: the settings apply, every session of the controller closes, and its nodes boot up. -/
def execLssActivateBitTiming (c : CtrlId) (s : State) : Outcome State Fault Refusal :=
  .next (if !ctrlUp s (canCh c) then s
    else
      let ts := boundTo s (canCh c)
      let s1 := modCan (ts.foldl (fun u t => closeSes u (tenSes t)) s) c fun x => { x with nb := x.nbCfg, idx := x.idxCfg, rpdoHeld := [] }
      ts.foldl (fun u t => syncSes (bootNode u t) t) s1)

/-! ### Network wake (R24, R414, R427) -/

/-- The frame wakes the module on this channel. -/
def wakes (s : State) (h : HostCh) (f : WakeFrame) : Bool :=
  !s.clk.gateDeep.getLsbD (16 + h.val) && !(boundTo s h).isEmpty && decide (ctrlService s h = .inService) &&
    (if h.val < 2 then decide (f = .alControl)
      else
        let c : CtrlId := Fin.ofNat 2 h.val
        match f with
        | .nmt n => decide (n.toNat = 0) || (boundTo s h).any fun t => decide (n.toNat = nodeId s c t)
        | .usdo n => (boundTo s h).any fun t => decide (n.toNat = nodeId s c t)
        | _ => false)

/-- NETWORK_WAKE: the frame itself is not answered. -/
def execNetworkWake (h : HostCh) (f : WakeFrame) (s : State) : Outcome State Fault Refusal :=
  .next (takeMark (if s.clk.sleep = .entered ∧ moduleUp s = true ∧ wakes s h f = true then wakeModule s else s))

/-! ### Maintenance port (R396, R415) -/

/-- One bit of CRC-16/CCITT-FALSE. -/
def ccittBit (c : Half) : Half := if c.getLsbD 15 then (c <<< 1) ^^^ 0x1021#16 else c <<< 1

/-- CRC-16/CCITT-FALSE: polynomial 0x1021, initial value 0xFFFF. -/
def crc16 (d : Bytes) : Half :=
  d.foldl (fun c b => ccittBit (ccittBit (ccittBit (ccittBit (ccittBit (ccittBit (ccittBit (ccittBit (c ^^^ ((b.zeroExtend 16 : Half) <<< (8 : Nat))))))))))) 0xFFFF#16

/-- The USDO message of a frame with a correct length and CRC. -/
def maintMessage (d : Bytes) : Option Bytes :=
  let n := leAt d 1 2
  if leAt d 0 1 = 0x7E ∧ 1 ≤ n ∧ n ≤ 64 ∧ d.length = n + 5 ∧ leAt d (3 + n) 2 = (crc16 (slice d 1 (n + 2))).toNat then
    some (slice d 3 n) else none

/-- An expedited USDO request: destination, command, session number, subindex, index, type, size, data (R11; PRESUMED, log 20). -/
def usdoOf (m : Bytes) : Option SdoReq :=
  let i : Half := BitVec.ofNat 16 (leAt m 4 2)
  let b : Byte := BitVec.ofNat 8 (leAt m 3 1)
  if m.length < 6 then none
  else if leAt m 1 1 = 0x11 then some (.upload i b)
  else if leAt m 1 1 = 0x01 ∧ 8 ≤ m.length ∧ m.length = 8 + leAt m 7 1 then some (.download i b (m.drop 8)) else none

/-- MAINTENANCE_FRAME: the first valid frame opens the session; its request is served with T0's rights. -/
def execMaintenanceFrame (d : Bytes) (s : State) : Outcome State Fault Refusal :=
  .next (if !moduleUp s || decide (s.clk.sleep = .entered) || !s.net.maintOk then s
    else match maintMessage d with
      | none => s
      | some m =>
        let s1 := openSes s 4
        match usdoOf m with
        | some r => let s2 := serve s1 4 r
          { s2 with net := { s2.net with sp1Ready := true } }
        | none => s1)

/-- MAINTENANCE_SILENCE: 10 s without a frame. -/
def execMaintenanceSilence (s : State) : Outcome State Fault Refusal :=
  .next { closeSes s 4 with net := { (closeSes s 4).net with sp1Ready := false } }

end Sys2Proof.Machine
end

