-- ==== Sys2Proof/Machine/Packets.lean ====
section
/-! DEFINITION. Packets at a destination: header check, address decode, tenant checks, parity by role, and the responses
(R38, R191, R228–R236, R252–R257, R264). -/

namespace Sys2Proof.Machine

/-- The mesh runs: no start is under way, and the module is not in DEEP-SLEEP (R427, R446). -/
def nocUp (s : State) : Bool := moduleUp s && decide (s.clk.sleep ≠ .entered)

/-- The interface at a router and port; columns 6 and 7 do not exist (R248, R249). -/
def niAt (x : BitVec 3) (y : BitVec 2) (l : Bool) : Option NiId :=
  if x.toNat < 6 then some (Fin.ofNat 48 (2 * (6 * y.toNat + x.toNat) + l.toNat)) else none

def pktDest (p : Pkt) : Option NiId := niAt p.dx p.dy p.dp
def pktSource (p : Pkt) : Option NiId := niAt p.sx p.sy p.sp

/-- A packet with its destination replaced (R271). -/
def pktTo (p : Pkt) (n : NiId) : Pkt :=
  { p with
    dx := BitVec.ofNat 3 (n.val / 2 % 6), dy := BitVec.ofNat 2 (n.val / 12), dp := decide (n.val % 2 = 1) }

/-- A packet with its source replaced (R273). -/
def pktFrom (p : Pkt) (n : NiId) : Pkt :=
  { p with
    sx := BitVec.ofNat 3 (n.val / 2 % 6), sy := BitVec.ofNat 2 (n.val / 12), sp := decide (n.val % 2 = 1) }

/-- A header that R255 refuses. -/
def pktBad (p : Pkt) : Bool :=
  decide (p.hver ≠ 2 ∨ p.ty = 0 ∨ 9 ≤ p.ty.toNat ∨ p.res75 = true ∨ p.res47 ≠ 0 ∨ p.resHi ≠ 0)

/-- BAD_HEADER: the router, the interface that absorbed the packet, and the header (R255, R485). -/
def badHeader (s : State) (n : NiId) (p : Pkt) : State := logEvent s 0x0501 1 [] (n.val / 2) n.val (leBytes 12 (pktHeader p).toNat)

/-- An interface that takes part in traffic: its port is used, it does not stand by, and its router is in service. -/
def niLive (s : State) (n : NiId) : Bool :=
  decide ((ni s n.val).st ≠ .unused ∧ (ni s n.val).st ≠ .standby) &&
    decide ((rtr s (n.val / 2)).service ≠ .fenced ∧ (rtr s (n.val / 2)).service ≠ .failed)

/-! ### Responses (R253, R254, R257, R264) -/

/-- The response of interface `n` to a request: its TID and tenant, the response channel, the next sequence number. -/
def respond (s : State) (n : NiId) (p : Pkt) (ty : BitVec 4) (status : Half) (data : Bytes) : State :=
  match pktSource p with
  | none => s
  | some m =>
    let vc : BitVec 2 := if p.vc = 2 then 2 else 1
    let key := orderKey n m vc
    let sn := SMap.get 0 s.noc.sn key
    let off := if tilePort n then 0 else p.addr.toNat % 32
    let r : Pkt :=
      { hver := 2, vc := vc, ty := ty, len := BitVec.ofNat 6 (if data = [] then 0 else (off + data.length + 31) / 32),
        dx := p.sx, dy := p.sy, dp := p.sp, sx := p.dx, sy := p.dy, sp := p.dp, ten := p.ten, dev := p.dev, dor := false,
        tid := p.tid, sn := sn, res75 := false, nbytes := BitVec.ofNat 11 data.length, status := status, res47 := 0,
        addr := p.addr, resHi := 0, data := data }
    let s1 := modNi s n.val fun x => { x with sent := x.sent ++ [r] }
    { s1 with noc := { s1.noc with sn := SMap.set 0 s.noc.sn key (sn + 1) } }

/-! ### Where a request goes (R221, R228, R256) -/

/-- A bank or half behind an interface: XM or scratchpad, and its status index. -/
def niMem (n : NiId) : Option (Bool × Nat) :=
  if n = 12 then some (true, 8) else if n = 22 then some (true, 9)
  else (niBank n).map fun b => (false, b.val)

/-- The address and length are valid for the destination; reads carry no data flit. -/
def addrOk (n : NiId) (p : Pkt) (write : Bool) : Bool :=
  let a := p.addr.toNat
  let c := p.nbytes.toNat
  let lenOk := fun (off : Nat) =>
    if write then decide (p.data.length = c ∧ p.len.toNat = (off + c + 31) / 32) else decide (p.len = 0)
  match niTile n with
  | some _ => decide (a < 2 ^ 18 ∧ c % 8 = 0 ∧ a / 4096 + c / 8 ≤ 64) && lenOk 0
  | none => decide (a % 32 + c ≤ 1024) && lenOk (a % 32) &&
    (match niMem n with
      | some (true, b) => decide ((b - 8) * halfBytes ≤ a ∧ a + c ≤ (b - 7) * halfBytes)
      | some (false, b) => decide (b * bankBytes ≤ a ∧ a + c ≤ (b + 1) * bankBytes)
      | none => p.dev)

/-- The tenant may access `c` bytes from scratchpad address `a`: its own extents, and for the reads of ingest and the block
movers an extent shared with it (R191). -/
def spAllowed (s : State) (t : Tenant) (src : NiId) (write : Bool) (a c : Nat) : Bool :=
  let own := ((ten s t).own.map OwnRec.extents).getD []
  let shared := if write = false ∧ (src = 25 ∨ src = 35 ∨ src = 37 ∨ src = 47) then
    (List.range 32).flatMap fun i => (regionSrc s t (0x80 + i)).getD [] else []
  (List.range c).all fun i => (own ++ shared).any fun e => inExtent e (a + i)

/-- A mailbox is the one of a region of the tenant: half row m lies in region m/8 (R313). -/
def ownsMailbox (s : State) (t : Tenant) (m : Nat) : Bool := match (ten s t).own with
  | some r => r.regions.getLsbD (m / 8)
  | none => false

/-- The tenant may access `c` bytes from offset `o` of a half: its records, its result region, its mailboxes; a write only for
the service complex (R231). -/
def xmAllowed (s : State) (t : Tenant) (src : NiId) (write : Bool) (o c : Nat) : Bool :=
  let rec_ := 0x11000 + t.val * 0x12000
  let res := resultOff t.val
  (!write || decide (src = 37 ∨ src = 47)) &&
    (decide (rec_ ≤ o ∧ o + c ≤ rec_ + 8192) || decide (res ≤ o ∧ o + c ≤ res + 32768) ||
      (List.range c).all fun i => decide (0x69000 ≤ o + i ∧ o + i < 0x6A000) && ownsMailbox s t ((o + i - 0x69000) / 64))

/-- Bytes of the XM header or of a journal, which only the journal writer, in the service complex, and the sequencers write (R231). -/
def journalArea (o c : Nat) : Bool :=
  decide (o < 0x1000) || allTenants.any fun t =>
    let j := 0x1000 + t.val * 0x12000
    decide (o < j + 0x10000 ∧ j < o + c)

/-- The owner check of a request: a device packet may write header and journals from their writers only, and any other packet must
be the owner's (R191, R231). -/
def tenAllowed (s : State) (n src : NiId) (p : Pkt) (write : Bool) : Bool :=
  let a := p.addr.toNat
  if p.dev then !(write && (niMem n).any (fun m => m.1) && journalArea (a % halfBytes) p.nbytes.toNat &&
    (niSeq src).isNone && decide (src ≠ 37 ∧ src ≠ 47))
  else (match niTile n, niMem n with
    | some q, _ => decide (ownerOf s q = some p.ten)
    | none, some (true, _) => xmAllowed s p.ten src write (a % halfBytes) p.nbytes.toNat
    | none, some (false, _) => spAllowed s p.ten src write a p.nbytes.toNat
    | none, none => true)

/-- The request reaches a region under destructive test (R244). -/
def meetsTest (s : State) (n : NiId) (p : Pkt) : Bool := match niTile n, niMem n with
  | some q, _ => underTest s (512 + q.val) || decide ((tile s q.val).service = .retest)
  | none, some (false, _) => (List.range (p.nbytes.toNat / unitBytes + 2)).any fun i =>
    decide (i * unitBytes < p.nbytes.toNat + p.addr.toNat % unitBytes) && underTest s (p.addr.toNat / unitBytes + i)
  | none, _ => false

/-! ### Contents (R38, R42, R256) -/

/-- Bytes of a memory as a read delivers them. -/
def memBytes (s : State) (xm : Bool) (a c : Nat) : Bytes := if xm then xmHeld s a c else spRead s a c

/-- PE of data byte `i`, bit `b` of a tile packet (R256). -/
def pktPe (q : TileId) (p : Pkt) (i b : Nat) : Nat := peKey q (p.addr.toNat / 4096 + i / 8) (8 * (i % 8) + b)

/-- The bytes that a READ of a tile delivers; a byte with wrong parity raises the PE's error latch (R38). -/
def tileRead (s : State) (q : TileId) (p : Pkt) : Bytes × State :=
  let a := p.addr.toNat % 4096
  let l := List.range p.nbytes.toNat
  (l.map fun i => BitVec.ofNat 8 ((List.range 8).foldr (fun b acc => 2 * acc + (peBit s (pktPe q p i b) a).toNat) 0),
    l.foldl (fun u i => (List.range 8).foldl (fun v b =>
      let k := pktPe q p i b
      if SMap.get false s.peBad (k * 512 + a / 8) then setPe v k { pe v k with parityErr := true } else v) u) s)

def tileWrite (s : State) (q : TileId) (p : Pkt) : State :=
  (List.range p.nbytes.toNat).foldl (fun u i => (List.range 8).foldl (fun v b =>
    setPeBit v (pktPe q p i b) (p.addr.toNat % 4096) ((p.data.getD i 0).getLsbD b)) u) s

/-! ### Parity (R235, R236) -/

/-- The running order's copies in a checkpoint or retention area that a read found bad. -/
def loseCopy (s : State) (t : Tenant) (role : Nat) : State :=
  modRun s t fun o => { o with
    ckpt := o.ckpt.map fun k => { k with copyA := k.copyA && decide (role ≠ 2), copyB := k.copyB && decide (role ≠ 3) }
    ins := o.ins.map fun i => { i with copyA := i.copyA && decide (role ≠ 4), copyB := i.copyB && decide (role ≠ 5) } }

/-- The running order of a tenant becomes ABORTED. -/
def abortRun (s : State) (t : Tenant) (cause : Byte) : State := abortOrders s t ((runOrder s t).toList.map Order.seq) cause

/-- A read of the word at `a` by interface `src` that fails twice: whether a good copy serves it, and the state (R236). -/
def failedWord (s : State) (src : NiId) (xm : Bool) (a : Nat) : Bool × State :=
  if xm then
    let s1 := xmWordFails s a
    (decide (a % halfBytes < 0x6A000) && !xmBadAt s1 a 8, match niSeq src with
      | some q => if a % halfBytes < 0x6A000 then s1 else match (sqr s1 q.val).bound with
        | some t => recompute s1 t
        | none => s1
      | none => s1)
  else if inGolden a then
    let r := readCopied s a (((copyOf s a).getD a)) 2 2
    (r.2.isSome, r.1)
  else match roleAt s a with
    | none => (false, readFailed s false a (roleByte s 7))
    | some (t, role) =>
      if role = 0 then
        match otherProg s t 0 a with
        | some m =>
          let r := readCopied s a m 0 1
          (r.2.isSome, if r.2.isSome then r.1 else memFault (abortRun r.1 t 0x09) (a / bankBytes))
        | none => (false, readFailed s false a (roleByte s 0))
      else
        let s1 := readFailed s false a (roleByte s (if role = 1 then 1 else role / 2 + 2))
        (false, if role = 1 then (match otherProg s t 1 a with
            | some m => if (memSt s (m / bankBytes)).service ≠ .inService then abortRun s1 t 0x09 else s1
            | none => s1)
          else if role ≤ 5 then loseCopy s1 t role
          else if (niSeq src).isSome ∨ src = 25 ∨ src = 35 ∨ src = 37 ∨ src = 47 then abortRun s1 t 0x0B else s1)

/-- A read of `c` bytes: a borrowed window yields; each word whose parity fails is handled by its role, and the bytes are delivered
when every word is served; a failure of the first read alone is transient (R235, R236, R242). -/
def memRead (s : State) (src : NiId) (xm : Bool) (a c : Nat) (glitch : Bool) : Option Bytes × State :=
  let s1 := yieldWindow s xm a c
  let bad := ((List.range ((a % 8 + c + 7) / 8)).map fun i => a / 8 * 8 + 8 * i).filter fun w =>
    let lo := Nat.max w a
    let n := Nat.min (w + 8) (a + c) - lo
    if xm then xmBadAt s1 lo n else spBadAt s1 lo n
  if bad = [] then (some (memBytes s1 xm a c), if glitch then transient s1 xm a else s1)
  else
    let r := bad.foldl (fun (acc : Bool × State) w =>
      let v := failedWord acc.2 src xm w
      (acc.1 && v.1, v.2)) (true, s1)
    let s2 := settleMem r.2
    (if r.1 then some (memBytes s2 xm a c) else none, s2)

/-- A write of a memory leaves good parity (R221). -/
def memWrite (s : State) (xm : Bool) (a : Nat) (d : Bytes) : State := if xm then xmPut s a d else spWrite s a d

/-- The bytes of a read with those of the word on which both ports have just collided as port X left it (R233). -/
def firstWrite (w : Option (Nat × DWord)) (xm : Bool) (a : Nat) (d : Bytes) : Bytes := match w with
  | some (b, v) => d.mapIdx fun i x => if xm = true ∧ b ≤ a + i ∧ a + i < b + 8 then v.extractLsb' (8 * (a + i - b)) 8 else x
  | none => d

/-- The write of port Y to the word at `w` in the cycle of a port-X write: its enabled bytes last, and one collision; the word as
port X leaves it can be read in the cycle between (R232, R233). -/
def collide (s : State) (w : Nat) (y : PortYWrite) : State :=
  let s1 := (List.range 8).foldl (fun u i =>
    if y.enables.getLsbD i then xmPut u (w + i) [y.data.extractLsb' (8 * i) 8] else u) s
  { s1 with xmCollisions := satInc s1.xmCollisions, xmFirst := some (w, BitVec.ofNat 64 (ofLe (xmHeld s w 8))) }

end Sys2Proof.Machine
end

