-- ==== Sys2Proof/Machine/Noc.lean ====
section
/-! DEFINITION. Requests, responses, the sluice and the routers (R253–R277). -/

namespace Sys2Proof.Machine

open Host (Outcome)

/-! ### Packets on their way (R252, R263, R264) -/

/-- The command that the arrival of a request is. -/
def requestCmd (p : Pkt) (write : Bool) : Instr := if write then .write p none else .read p ⟨false, false⟩

/-- A packet joins those on their way. -/
def fly (s : State) (m n : NiId) (p : Pkt) (cmd : Instr) : State :=
  { s with noc := { s.noc with mesh := s.noc.mesh ++ [⟨cmd, m, n, p.vc, p.sn, 1 + p.len.toNat, p.dor, [], 0⟩] } }

/-- A request whose interface holds its packet goes out. -/
def launch (s : State) (m n : NiId) (p : Pkt) (write : Bool) : State := fly s m n p (requestCmd p write)

/-- The source numbers a packet of an order (R264); the journal writer sets DOR on its mirrored writes (R263). -/
def numbered (s : State) (m n : NiId) (p : Pkt) (write : Bool) : Pkt × State :=
  let key := orderKey m n p.vc
  let sn := SMap.get 0 s.noc.sn key
  let mirrored := write && decide (m = 37 ∨ m = 47) && decide (p.vc = 2) && decide (n = 12 ∨ n = 22)
  ({ p with sn := sn, dor := p.dor || mirrored }, { s with noc := { s.noc with sn := SMap.set 0 s.noc.sn key (sn + 1) } })

/-! ### Effects of an error at its requester (R268) -/

def statusTimeout : Half := 1
def statusAccess : Half := 2
def statusParity : Half := 3
def statusDecode : Half := 4
def statusDtest : Half := 5
def statusDestLost : Half := 6

/-- TIMEOUT, PARITY and DEST_LOST are the statuses of the second column of R268. -/
def isLoss (st : Half) : Bool := decide (st = statusTimeout ∨ st = statusParity ∨ st = statusDestLost)

/-- What ingest and the block movers log when a transfer ends: the manual names no event, so code and severity are free
(log 6). -/
def logTransfer (s : State) (n : NiId) (a : Nat) : State :=
  logEvent s ((Config.freeWord (freshNum s) 80).truncate 16) ((Config.freeWord (freshNum s) 81).truncate 2) [] n.val a []

/-- A sequencer's error: an illegal-operand trap, whose operand number is free, or a machine check with recomputation. -/
def seqError (s : State) (q : SeqId) (tid : BitVec 12) (loss : Bool) : State :=
  match (sqr s q.val).bound with
  | none => s
  | some t =>
    let s1 := modSqr s q.val fun x => { x with mem := match x.mem with
      | some m => if m.tid = tid ∧ m.done = false then none else some m
      | none => none }
    if (runOrder s1 t).isNone then s1
    else if loss then recompute (checkMark s1) t
    else
      let pc := (sqr s1 q.val).pc
      bump (raiseTrap s1 t q 1 ((Config.freeWord (freshNum s1) 82).toNat % 2 ^ 32) pc.toNat (pc + 1).toNat noUpc)

/-- A transfer of ingest is lost: the orders of its tenant whose claimed frame has not landed (R295). -/
def ingestLost (s : State) (t : Tenant) : State :=
  abortOrders s t (((ten s t).orders.filter fun o => o.ins.any fun i =>
    decide (i.kind = .camera) && i.claimed && !i.landed).map Order.seq) 0x0B

/-- The SDO abort of a host's access that the device side ends (R191, R268, R387). -/
def accessAbort (st : Half) : Word :=
  if st = statusAccess then 0x06010000 else if st = statusDecode then 0x06090030
  else if st = statusDtest then 0x08000022 else 0x06060000

/-- A request whose half is no longer in service is not reissued. -/
def halfGone (s : State) (d : NiId) : Bool := match niMem d with
  | some (_, b) => decide ((memSt s b).service ≠ .inService)
  | none => false

/-- A block mover's transfer is lost for good: a read is handled by the role of the word that it reads, as a read that fails (R236,
R268). -/
def moverLost (s : State) (o : OutReq) (a : Nat) : State :=
  if o.write ∨ (niMem o.dest).map Prod.fst ≠ some false then s
  else match roleAt s a with
    | some (t, role) => if role ≤ 1 then s else if role ≤ 5 then loseCopy s t role else abortRun s t 0x0B
    | none => s

/-- The packet of a request goes out again. -/
def reissue (s : State) (n : NiId) (o : OutReq) : State :=
  let s1 := modNi s n.val fun x => { x with out := x.out ++ [o] }
  match o.pkt with
  | some p => launch s1 n o.dest p o.write
  | none => s1

/-- The effect of an error on the requester at interface `n`, whose request `o` has left the outstanding list. -/
def requesterError (s : State) (n : NiId) (o : OutReq) (st : Half) : State :=
  let t : Tenant := (o.pkt.map Pkt.ten).getD 0
  let a := ((o.pkt.map Pkt.addr).getD 0).toNat
  let again := reissue s n { o with retried := true }
  match niSeq n with
  | some q => seqError s q o.tid (isLoss st)
  | none =>
    if n = 37 ∨ n = 47 then
      if isLoss st = false then logTransfer s n a
      else if o.vc = 2 then (if halfGone s o.dest then s else again)
      else if o.retried then moverLost s o a else again
    else if n = 25 ∨ n = 35 then
      if isLoss st = false then logTransfer s n a else if o.retried then ingestLost s t else again
    else if n = 1 ∨ n = 11 ∨ n = 13 ∨ n = 23 ∨ n = 24 ∨ n = 34 then
      let w := Config.freeWord (freshNum s) 83
      answer s (tenSes t) (w.truncate 16) ((w >>> 16).truncate 8) (accessAbort st) []
    else s

/-- A request ends with an error that its own interface generates or receives. -/
def endRequest (s : State) (n : NiId) (o : OutReq) (st : Half) : State :=
  let s1 : State := if st = statusDestLost then { s with noc := { s.noc with destLost := satInc s.noc.destLost } } else s
  requesterError s1 n o st

/-! ### Paths (R261, R262, R274, R275) -/

/-- The coordinates of a fenced router. -/
def routerGone (s : State) (x y : Nat) : Bool :=
  decide ((rtr s (6 * y + x)).service = .fenced ∨ (rtr s (6 * y + x)).service = .failed)

/-- The next column to the west, or row or column in a direction, whose router switches; bypass lanes join the others. -/
def nextDown (gone : Nat → Bool) : Nat → Option Nat
  | 0 => none
  | k + 1 => if gone k then nextDown gone k else some k
def nextUp (gone : Nat → Bool) (lim : Nat) : Nat → Nat → Option Nat
  | 0, _ => none
  | n + 1, k => if lim ≤ k + 1 then none else if gone (k + 1) then nextUp gone lim n (k + 1) else some (k + 1)

/-- A west-first path from (x, y) to (dx, dy): westward hops first, one column beyond when the phase would end in a fenced
router, then minimal hops. -/
def westPath (gone : Nat → Nat → Bool) (dx dy : Nat) : Nat → Nat → Nat → Bool
  | 0, _, _ => false
  | n + 1, x, y =>
    if x = dx ∧ y = dy then true
    else if dx < x then
      (match nextDown (fun k => gone k y) x with
        | some w => westPath gone dx dy n w y
        | none => false)
    else
      let east := if x < dx then nextUp (fun k => gone k y) 6 6 x else none
      let vert := if y < dy then nextUp (fun k => gone x k) 4 4 y else if dy < y then nextDown (fun k => gone x k) y else none
      (match east with
        | some e => decide (e ≤ dx) && westPath gone dx dy n e y
        | none => false) ||
      (match vert with
        | some v => decide ((y < dy ∧ v ≤ dy) ∨ (dy < y ∧ dy ≤ v)) && westPath gone dx dy n x v
        | none => false)

/-- A path between two interfaces in the present mode; east-first is the mirror image. -/
def hasPath (s : State) (m n : NiId) : Bool :=
  let f := fun (x : Nat) => if s.noc.eastFirst then 5 - x else x
  westPath (fun x y => routerGone s (f x) y) (f (n.val / 2 % 6)) (n.val / 12) 16 (f (m.val / 2 % 6)) (m.val / 12)

/-- Routers fenced. -/
def goneCount (s : State) : Nat := ((List.range 24).filter fun r => routerGone s (r % 6) (r / 6)).length

/-- The pair has lost its path: only a second fenced router takes one away (R274, R275). -/
def pathLost (s : State) (m n : NiId) : Bool :=
  decide (2 ≤ goneCount s) && niLive s m && niLive s n && !(hasPath s m n && hasPath s n m)

/-! ### Requests (R255–R257, R264, R265, R269–R271) -/

/-- The logical position that a tile's interface stands for (R271). -/
def destPos (s : State) (n : NiId) : Option Nat := (niTile n).bind (lposOf s)

/-- The source interface notes the request. -/
def noteRequest (s : State) (m n : NiId) (p : Pkt) (write : Bool) : State :=
  modNi s m.val fun x => { x with
    out := if x.out.any fun o => decide (o.tid = p.tid) then
        x.out.map fun o => if o.tid = p.tid then { o with dest := n, vc := p.vc, write := write, pkt := some p } else o
      else x.out ++ [⟨p.tid, n, p.vc, write, some p, false, destPos s n⟩] }

/-- Requests of the same source, channel and destination are held: the new one waits behind them (R271). -/
def holdsFor (s : State) (m n : NiId) (vc : BitVec 2) : Bool :=
  (ni s m.val).held.any fun o => decide (o.dest = n ∧ o.vc = vc)

/-- The interfaces of a block whose gate a request reopens (R426). -/
def gateOf (n : NiId) : Option Nat := (List.range 25).find? fun b => (gateNis b).contains n

def reasonStatus : FenceReason → Half
  | .dark => 0x10
  | .draining => 0x11
  | .off => 0x12

/-- The interface does not deliver: it answers NACK_FENCED with its reason, and a gated block's clock reopens (R270, R426). -/
def nackRequest (s : State) (n : NiId) (p : Pkt) (r : FenceReason) : State :=
  let s1 := respond { s with noc := { s.noc with fencedNacks := satInc s.noc.fencedNacks } } n p tyNack (reasonStatus r) []
  match r, gateOf n with
  | .dark, some b => openGate s1 b
  | _, _ => s1

/-- The instance of DTEST_ACCESS: the bank; for a tile under test the manual gives none (log 6). -/
def testInst (s : State) (n : NiId) : Nat := match niMem n with
  | some (_, b) => b
  | none => (Config.freeWord (freshNum s) 84).toNat % 256

/-- A request that the interface accepts: its checks, then its service. -/
def serveRequest (s : State) (n m : NiId) (p : Pkt) (write : Bool) (serve : State → State) : State :=
  let err := fun (u : State) (st : Half) => respond u n p tyError st []
  if !addrOk n p write || decide (p.ty ≠ if write then tyWrite else tyRead) then err s statusDecode
  else if meetsTest s n p then err (logEvent s 0x0404 1 [] (testInst s n) m.val (leBytes 4 p.addr.toNat)) statusDtest
  else if !tenAllowed s n m p write then err s statusAccess
  else serve s

/-- A request comes to an interface: answered with NACK_FENCED where the interface does not deliver, else checked and served. -/
def receive (s : State) (m n : NiId) (p : Pkt) (write : Bool) (serve : State → State) : State :=
  match (ni s n.val).st with
  | .closing r => nackRequest s n p r
  | .drained r => nackRequest s n p r
  | .fenced r => nackRequest s n p r
  | _ => serveRequest s n m p write serve

/-- What a READ of interface `n` delivers, or ERROR_RESP PARITY when no good copy is left; a read in the cycle after a collision gives
the word as port X left it (R233). -/
def serveRead (p : Pkt) (w : ReadCycle) (n m : NiId) (s : State) : State :=
  match niTile n, niMem n with
  | some q, _ =>
    let r := tileRead s q p
    respond r.2 n p tyReadResp 0 r.1
  | none, some (xm, _) =>
    let r := memRead s m xm p.addr.toNat p.nbytes.toNat w.glitch
    (match r.1 with
      | some d => respond r.2 n p tyReadResp 0 (if w.nextCycle then firstWrite s.xmFirst xm p.addr.toNat d else d)
      | none => respond r.2 n p tyError statusParity [])
  | none, none => respond s n p tyReadResp 0
      ((List.range p.nbytes.toNat).map fun i => freeFill (freshNum s) (p.addr.toNat + i))

/-- The rows of a tile write outside the regions that R42 opens to writers from outside the array. -/
def tileWriteBad (s : State) (n : NiId) (p : Pkt) : Bool := match niTile n with
  | some q => !writableBit (tile s q.val) (p.addr.toNat % 4096)
  | none => false

/-- A WRITE to interface `n`, answered with WRITE_RESP; a word of it that port Y writes in the same cycle collides (R232). -/
def serveWrite (p : Pkt) (portY : Option PortYWrite) (n : NiId) (s : State) : State :=
  if tileWriteBad s n p then respond s n p tyError statusAccess []
  else match niTile n, niMem n with
    | some q, _ => respond (tileWrite s q p) n p tyWriteResp 0 []
    | none, some (xm, _) =>
      let v := memWrite s xm p.addr.toNat p.data
      let w := match portY with
        | some y =>
          let a := y.addr.toNat / 8 * 8
          if xm ∧ a < p.addr.toNat + p.nbytes.toNat ∧ p.addr.toNat < a + 8 then collide v a y else v
        | none => v
      respond w n p tyWriteResp 0 []
    | none, none => respond s n p tyWriteResp 0 []

/-! ### Responses at their requester (R264–R268, R271) -/

/-- The outstanding request that a response answers. -/
def answered (s : State) (m : NiId) (p : Pkt) : Option OutReq := (ni s m.val).out.find? fun o => decide (o.tid = p.tid)

def dropRequest (s : State) (m : NiId) (tid : BitVec 12) : State :=
  modNi s m.val fun x => { x with out := x.out.filter fun o => decide (o.tid ≠ tid) }

/-- A response comes to its requester: a late one is discarded. -/
def takeResponse (s : State) (m : NiId) (p : Pkt) (eff : OutReq → State → State) : State :=
  match answered s m p with
  | some o => eff o (dropRequest s m p.tid)
  | none =>
    if (ni s m.val).held.any fun o => decide (o.tid = p.tid) then s
    else { s with noc := { s.noc with lateResponses := satInc s.noc.lateResponses } }

/-- A sequencer's MEM access completes; a read takes the word of the response (R164). -/
def memDone (s : State) (m : NiId) (p : Pkt) : State := match niSeq m with
  | some q => modSqr s q.val fun x => { x with mem := match x.mem with
      | some a => if a.tid = p.tid ∧ a.done = false then
          some { a with done := true, data := if a.write then a.data else BitVec.ofNat 32 (leAt p.data 0 4) } else some a
      | none => none }
  | none => s

/-- The request and every later one of the same channel and destination are held (R271). -/
def holdFrom (l : List OutReq) (o : OutReq) : List OutReq × List OutReq :=
  let after := l.dropWhile fun x => decide (x.tid ≠ o.tid)
  let same := fun (x : OutReq) => decide (x.dest = o.dest ∧ x.vc = o.vc)
  (l.takeWhile (fun x => decide (x.tid ≠ o.tid)) ++ after.filter (fun x => !same x), after.filter same)

/-- What a packet does where it comes to. -/
def deliver (f : Flight) (s : State) : State :=
  match f.cmd with
  | .read p w => receive s f.src f.dst p false (serveRead p w f.dst f.src)
  | .write p y => receive s f.src f.dst p true (serveWrite p y f.dst)
  | .readResp p => takeResponse s f.dst p fun _ u => memDone u f.dst p
  | .writeResp p => takeResponse s f.dst p fun _ u => memDone u f.dst p
  | .nackFenced p => takeResponse s f.dst p fun o _ => modNi s f.dst.val fun x =>
      { x with out := (holdFrom x.out o).1, held := x.held ++ (holdFrom x.out o).2 }
  | .errorResp p => takeResponse s f.dst p fun o u => endRequest u f.dst o p.status
  | _ => s

/-- A request that its destination turns away whatever its number (R270). -/
def turned (f : Flight) (s : State) : Bool :=
  (match f.cmd with
    | .read _ _ => true
    | .write _ _ => true
    | _ => false) && (match (ni s f.dst.val).st with
    | .closing _ => true
    | .drained _ => true
    | .fenced _ => true
    | _ => false)

/-- A packet comes to its end. -/
def comeTo (f : Flight) (s : State) : State := arrive turned deliver 17 f s

/-- A held request goes out to the interface that replaces its destination; a tile is the one that fills its logical position now, and
a new destination numbers anew (R264, R271). -/
def resend (s : State) (m repl : NiId) (o : OutReq) : State :=
  let n : NiId := match o.lpos.bind (physOf s) with
    | some q => tileNi q.val
    | none => repl
  match o.pkt with
  | some p =>
    let r := if n = o.dest then (p, s) else numbered s m n (pktTo p n) o.write
    launch (modNi r.2 m.val fun x => { x with out := x.out ++ [{ o with dest := n, pkt := some r.1 }] }) m n r.1 o.write
  | none => modNi s m.val fun x => { x with out := x.out ++ [{ o with dest := n }] }

/-- FENCE_CLEAR reaches every source, which resends in order what it holds for the cleared interface as far as it may have requests
outstanding, or ends it with DEST_LOST (R265, R271). -/
def fenceCleared (s : State) (cleared repl : NiId) (lost : Bool) : State :=
  (List.finRange 48).foldl (fun u m =>
    let mine := (ni u m.val).held.filter fun o => decide (o.dest = cleared)
    let v := modNi u m.val fun x => { x with held := x.held.filter fun o => decide (o.dest ≠ cleared) }
    mine.foldl (fun w o => if lost then endRequest w m o statusDestLost else resend w m repl o) v) (ingestClear s cleared lost)

/-- The FENCE_CLEARs and the packets on their way reach their ends, as far as nothing stops them. -/
def runNoc : Nat → State → State
  | 0, s => s
  | n + 1, s =>
    let l := s.noc.clears
    let s1 := l.foldl (fun u c => fenceCleared u c.1 c.2.1 c.2.2) { s with noc := { s.noc with clears := [] } }
    let s2 := runMesh comeTo (64 * (s1.noc.mesh.length + 1)) s1
    if s2.noc.clears.isEmpty then s2 else runNoc n s2

/-- Everything that is on its way in the network moves. -/
def nocMoves (s : State) : State := if meshQuiet s || !nocUp s then s else runNoc 4 s

/-- A packet is sent: in a network that is at rest it reaches its end at once; else it joins the others. -/
def sendPkt (s : State) (m n : NiId) (p : Pkt) (cmd : Instr) : State :=
  let f : Flight := ⟨cmd, m, n, p.vc, p.sn, 1 + p.len.toNat, p.dor, [], 0⟩
  if meshQuiet s then nocMoves (comeTo f s) else nocMoves (fly s m n p cmd)

/-- The packet that the source holds under the TID of a request to the same destination, else the one given. -/
def heldPkt (s : State) (m n : NiId) (p : Pkt) (write : Bool) : Option Pkt :=
  ((ni s m.val).out.find? fun o => decide (o.tid = p.tid ∧ o.dest = n ∧ o.write = write)).bind OutReq.pkt

/-- A source sends a request (R255–R257, R264, R265, R270, R271, R275). A block behind an interface that is not OPEN sends none, nor
one whose retry space is full. A header that R255 refuses is absorbed. -/
def request (s : State) (p : Pkt) (write : Bool) (cmd : Pkt → Instr) : State :=
  match pktSource p, pktDest p with
  | some m, some n =>
    let known := (ni s m.val).out.any fun o => decide (o.tid = p.tid)
    if nocUp s = false ∨ niLive s m = false ∨ (ni s m.val).st ≠ .opened ∨ (requestVcs m).contains p.vc = false then s
    else if (ni s m.val).held.any fun o => decide (o.tid = p.tid) then s
    else if known = false ∧ 64 ≤ (ni s m.val).out.length + (ni s m.val).held.length then s
    else if pktBad p then
      let s1 := badHeader s n p
      if p.ty = tyRead ∨ p.ty = tyWrite then respond (noteRequest s1 m n p write) n p tyError statusDecode [] else s1
    else if pathLost s m n then endRequest (dropRequest s m p.tid) m ⟨p.tid, n, p.vc, write, some p, false, none⟩ statusDestLost
    else
      let r := match heldPkt s m n p write with
        | some k => (k, s)
        | none => numbered s m n p write
      let q := r.1
      if holdsFor s m n q.vc then
        modNi r.2 m.val fun x => { x with held := x.held ++ [⟨q.tid, n, q.vc, write, some q, false, destPos s n⟩] }
      else
        let s1 := noteRequest r.2 m n q write
        if niLive s n then sendPkt s1 m n q (cmd q) else loseSn s1 (orderKey m n q.vc) q.sn
  | _, _ => s

/-- The cycle in which a collided word reads as port X left it is over (R233). -/
def clearFirst (s : State) : State := { s with xmFirst := none }

/-- READ. -/
def execRead (p : Pkt) (w : ReadCycle) (s : State) : Outcome State Fault Refusal :=
  .next (takeMark (clearFirst (bump (request s p false fun q => .read q w))))

/-- WRITE. -/
def execWrite (p : Pkt) (portY : Option PortYWrite) (s : State) : Outcome State Fault Refusal :=
  .next (takeMark (bump (request (clearFirst s) p true fun q => .write q portY)))

/-- A response leaves its destination for the requester: the packet that the interface has sent under that TID and type, else the one
given; one with a bad header is absorbed (R255). -/
def response (s : State) (p : Pkt) (ty : BitVec 4) (cmd : Pkt → Instr) : State :=
  match pktSource p, pktDest p with
  | some n, some m =>
    if nocUp s = false ∨ niLive s m = false ∨ niLive s n = false then s
    else if pktBad p then badHeader s m p
    else
      let mine := fun (q : Pkt) => decide (q.tid = p.tid ∧ q.ty = ty ∧ pktDest q = some m)
      let k := (ni s n.val).sent.find? mine
      let s1 := modNi s n.val fun x => { x with sent := x.sent.filter fun q => !decide (some q = k) }
      let q := k.getD p
      if q.ty = ty then sendPkt s1 n m q (cmd q) else s
  | _, _ => s

/-- READ_RESP: the request is answered. -/
def execReadResp (p : Pkt) (s : State) : Outcome State Fault Refusal := .next (takeMark (response s p tyReadResp .readResp))

/-- WRITE_RESP: the request is answered. -/
def execWriteResp (p : Pkt) (s : State) : Outcome State Fault Refusal := .next (takeMark (response s p tyWriteResp .writeResp))

/-- NACK_FENCED: the source keeps the request and holds its successors. -/
def execNackFenced (p : Pkt) (s : State) : Outcome State Fault Refusal := .next (takeMark (response s p tyNack .nackFenced))

/-- ERROR_RESP: the requester takes the effect of the status. -/
def execErrorResp (p : Pkt) (s : State) : Outcome State Fault Refusal := .next (takeMark (response s p tyError .errorResp))

/-- A VC2 control packet of a type with no data: a header that R255 refuses is absorbed and logged at the interface it names. -/
def control (s : State) (p : Pkt) (ty : BitVec 4) (eff : State → State) : State :=
  if nocUp s = false then s
  else if pktBad p then (match pktDest p with
    | some n => badHeader s n p
    | none => s)
  else if p.ty = ty ∧ p.vc = 2 ∧ p.len = 0 then eff s else s

/-- An interface by number; numbers from 48 on name none. -/
def niNum (k : Nat) : Option NiId := if h : k < 48 then some ⟨k, h⟩ else none

/-- The FENCE_CLEAR packet of the cleared interface and the one that replaces it, in ADDR [7:0] and [15:8]; the rest of ADDR, LOST in
[16], and the other fields are those of `p` (R271). -/
def clearOf (cleared replacement : Byte) (p : Pkt) : Pkt := { p with addr := p.addr.extractLsb' 16 16 ++ replacement ++ cleared }

/-- FENCE_CLEAR: ADDR names the cleared interface, the one that replaces it, and LOST (R271). -/
def execFenceClear (cleared replacement : Byte) (p : Pkt) (s : State) : Outcome State Fault Refusal :=
  .next (takeMark (control s (clearOf cleared replacement p) tyClear fun u =>
    match niNum cleared.toNat, niNum replacement.toNat with
    | some c, some r => nocMoves (fenceCleared u c r (p.addr.getLsbD 16))
    | _, _ => u))

/-- REQUEST_TIMEOUT: the request ends with ERROR_RESP TIMEOUT. -/
def execRequestTimeout (n : NiId) (tid : BitVec 12) (s : State) : Outcome State Fault Refusal :=
  .next (takeMark (match (ni s n.val).out.find? fun o => decide (o.tid = tid) with
    | some o =>
      if nocUp s then
        let s1 := dropRequest s n tid
        endRequest { s1 with noc := { s1.noc with timeouts := satInc s1.noc.timeouts } } n o statusTimeout
      else s
    | none => s))

/-! ### The sluice (R269, R270, R426, R428) -/

/-- SLUICE_CLOSE: the open interface that the CONTROL packet addresses starts to close. -/
def execSluiceClose (p : Pkt) (r : FenceReason) (s : State) : Outcome State Fault Refusal :=
  .next (control s p tyControl fun u => match pktDest p with
    | some n => closeNi u n.val r
    | none => u)

/-- A source holds a request for an interface. -/
def awaited (s : State) (n : NiId) : Bool := (List.range 48).any fun m => (ni s m).held.any fun o => decide (o.dest = n)

/-- The gate of a block closes once its interface has drained, and opens again at once where a request waits or the mask no longer
gates the block (R426). -/
def closeGate (s : State) (n : NiId) : State := match gateOf n with
  | some b =>
    let s1 := setNiSt { s with clk := { s.clk with gated := s.clk.gated ||| (1#25 <<< b) } } n.val (.fenced .dark)
    if awaited s1 n || !(gateMask s1).getLsbD b then openGate s1 b else s1
  | none => s

/-- What follows a drained interface: the ramp down or the power removal of a tile, the reload of a sequencer, a gate. -/
def afterDrain (s : State) (n : NiId) (r : FenceReason) : State :=
  match niTile n, r with
  | some p, .dark => (match (tile s p.val).polder with
    | .down _ => rampDownStep s p.val
    | .awake _ => openNi (setNiSt s n.val (.fenced .dark)) n
    | _ => setNiSt s n.val (.fenced .dark))
  | some p, _ => tileDrained (polderOff s p.val) p
  | none, .dark => closeGate s n
  | none, _ => match niSeq n with
    | some q => seqDrained (setNiSt s n.val (.fenced r)) q
    | none => setNiSt s n.val (.fenced r)

/-- NI_DRAINED: a closing interface with nothing outstanding reports DRAINED. -/
def execNiDrained (n : NiId) (s : State) : Outcome State Fault Refusal :=
  .next (takeMark (match (ni s n.val).st with
    | .closing r => if nocUp s && (ni s n.val).quiet then nocMoves (afterDrain (setNiSt s n.val (.drained r)) n r) else s
    | _ => s))

/-- The block behind an interface is declared faulted. -/
def blockFaulted (s : State) (n : NiId) : Bool :=
  match niTile n, niSeq n, niMem n with
  | some p, _, _ => decide ((tile s p.val).service = .draining ∨ (tile s p.val).service = .failed)
  | none, some q, _ => decide ((sqr s q.val).service = .draining ∨ (sqr s q.val).service = .failed)
  | none, none, some (_, b) => decide ((memSt s b).service ≠ .inService)
  | none, none, none =>
    (decide (n = 1) && decide (ctrlService s 0 ≠ .inService)) || (decide (n = 11) && decide (ctrlService s 1 ≠ .inService)) ||
    (decide (n = 13) && decide (ctrlService s 2 ≠ .inService)) || (decide (n = 23) && decide (ctrlService s 3 ≠ .inService)) ||
    (decide (n = 24) && !s.start.pairA) || (decide (n = 34) && !s.start.pairB)

/-- Every request that an interface still holds is answered with NACK_FENCED DRAINING (R269). -/
def nackEarly (s : State) (n : NiId) : State :=
  let l := (ni s n.val).early
  l.foldl (fun u f => match f.cmd with
    | .read p _ => nackRequest u n p .draining
    | .write p _ => nackRequest u n p .draining
    | _ => u) (modNi s n.val fun x => { x with early := [] })

/-- SLUICE_FAULT_FENCE: a closing interface of a faulted block is fenced. -/
def execSluiceFaultFence (n : NiId) (s : State) : Outcome State Fault Refusal :=
  .next (takeMark (if (ni s n.val).st.isClosing && blockFaulted s n && nocUp s then
      nocMoves (afterDrain (nackEarly (setNiSt s n.val (.fenced .draining)) n) n .draining)
    else s))

/-! ### Routers (R267, R272–R275) -/

/-- A router changes its service state, which is logged (R485). -/
def setRtrSvc (s : State) (r : RouterId) (v : RouterService) : State :=
  logEvent (modRtr s r.val fun x => { x with service := v }) 0x0502 (if v = .fenced then 2 else 1) [] r.val v.code []

/-- A router learns of a neighbour in QUIESCE, or of one that has left it. -/
def noteQuiesce (d : Dir) (on : Bool) (x : Router) : Router :=
  let m : BitVec 4 := 1#4 <<< dirBit d
  { x with quiesced := if on then x.quiesced ||| m else x.quiesced &&& ~~~m }

/-- A router notifies its four neighbours that it quiesces, or that it serves again. -/
def notifyAll (s : State) (r : RouterId) (on : Bool) : State :=
  [Dir.north, .east, .south, .west].foldl (fun u d => match neighbour r.val d with
    | some q => modRtr u q (noteQuiesce (dirBack d) on)
    | none => u) s

/-- A router in service starts to quiesce for a new configuration; one that quiesces already takes it with the other (R272). -/
def reconfigureRouter (s : State) (r : RouterId) (f : Router → Router) : State :=
  let s1 := modRtr s r.val f
  if (rtr s r.val).service = .inService then notifyAll (setRtrSvc s1 r .quiesce) r true else s1

/-- A router learns that a neighbour is fenced: the neighbour leaves QUIESCE, and the list of fenced neighbours changes (R272, R273). -/
def noteFence (s : State) (r : RouterId) (d : Dir) : State :=
  if gone s r.val then s
  else reconfigureRouter (modRtr s r.val (noteQuiesce d false)) r fun x => { x with
    newFenced := some (x.newFenced.getD x.fencedNbrs ||| (1#4 <<< dirBit d)) }

/-- The neighbours of a router that is fenced learn it. -/
def fenceNotices (s : State) (r : RouterId) : State :=
  [Dir.north, .east, .south, .west].foldl (fun u d => match neighbour r.val d with
    | some q => noteFence u (Fin.ofNat 24 q) (dirBack d)
    | none => u) s

/-- Every router in service quiesces for the other routing mode (R274). -/
def changeMode (s : State) (east : Bool) : State :=
  (List.finRange 24).foldl (fun u r => if gone u r.val then u else reconfigureRouter u r fun x => { x with newMode := some east })
    { s with noc := { s.noc with eastFirst := east } }

/-- The packets that a fenced router holds, and those that it or its interfaces would take, are lost (R273). -/
def losePackets (s : State) (r : RouterId) : State :=
  (s.noc.mesh.filter fun f => (f.hops.any fun h => decide (h.1 = r.val)) || decide (f.dst.val / 2 = r.val ∨ f.src.val / 2 = r.val)).foldl
    (fun u f => loseSn (dropFlight u f) (orderKey f.src f.dst f.vc) f.sn) s

/-- A dual-attached block moves to attachment B with its requests, whose source B is from then on; those held go out from there
(R250, R273). -/
def moveAttachment (s : State) (a b : NiId) (f : Noc → Noc) : State :=
  if (ni s b.val).st = .standby ∧ gone s (b.val / 2) = false then
    let x := ni s a.val
    let from_ := fun (o : OutReq) => { o with pkt := o.pkt.map fun p => pktFrom p b }
    let s1 := modNi s b.val fun y => { y with st := .opened, out := x.out.map from_ }
    let s2 := modNi s1 a.val fun y => { y with out := [], held := [] }
    let s3 := sendClear { s2 with noc := f s2.noc } a b false
    x.held.foldl (fun u o => match o.pkt with
      | some p =>
        let r := numbered u b o.dest (pktFrom p b) o.write
        launch (modNi r.2 b.val fun y => { y with out := y.out ++ [{ o with pkt := some r.1 }] }) b o.dest r.1 o.write
      | none => modNi u b.val fun y => { y with out := y.out ++ [o] }) s3
  else s

/-- The block behind an interface is taken over as a fault of that block (R210, R273). -/
def blockFault (s : State) (n : NiId) : State :=
  match niTile n, niSeq n, niMem n with
  | some p, _, _ =>
    if (tile s p.val).service = .inService then tileFault s p
    else if (tile s p.val).service = .spare then setTileSvc (modTile s p.val fun x => { x with faults := satInc x.faults }) p .failed
    else s
  | none, some q, _ =>
    if (sqr s q.val).bound.isSome then seqFault s q
    else if (sqr s q.val).service = .spare then setSeqSvc s q .failed else s
  | none, none, some (_, b) => memFault s b
  | none, none, none =>
    if n = 1 then ctrlFault s 0 else if n = 11 then ctrlFault s 1 else if n = 13 then ctrlFault s 2
    else if n = 23 then ctrlFault s 3 else if n = 24 then pairFault s 0 else if n = 34 then pairFault s 1
    else if n = 25 then moveAttachment s 25 35 fun x => { x with ingestB := true }
    else if n = 36 then moveAttachment s 36 46 fun x => { x with fabricB := true }
    else if n = 37 then moveAttachment s 37 47 fun x => { x with serviceB := true }
    else s

/-- The tenants whose orders need a path: their sequencer's, ingest's or the block movers' to a bank of their extents, or ingest's or
the block movers' to one of their tiles; with the abort cause (R210, R275; log 45). -/
def pathOrders (s : State) (m n : NiId) : List (Tenant × Byte) :=
  let one := fun (a b : NiId) =>
    (match (niSeq a).bind (fun q => (sqr s q.val).bound), niMem b with
      | some t, some (false, k) => if tenantInBank s t k then [(t, (0x09 : Byte))] else []
      | _, _ => []) ++
    (if a = 25 ∨ a = 35 ∨ a = 37 ∨ a = 47 then
        match niTile b, niMem b with
        | some p, _ => (ownerOf s p).toList.map fun t => (t, (0x05 : Byte))
        | none, some (false, k) => (allTenants.filter fun t => tenantInBank s t k).map fun t => (t, (0x09 : Byte))
        | none, _ => []
      else [])
  one m n ++ one n m

/-- The requests of interface `m` to `n`, outstanding or held, end with DEST_LOST (R275). -/
def endBetween (s : State) (m n : NiId) : State :=
  let mine := fun (o : OutReq) => decide (o.dest = n)
  let l := (ni s m.val).out.filter mine ++ (ni s m.val).held.filter mine
  l.foldl (fun u o => endRequest u m o statusDestLost)
    (modNi s m.val fun x => { x with out := x.out.filter fun o => !mine o, held := x.held.filter fun o => !mine o })

/-- With a second fenced router, every pair without a path is logged, its requests end, and the orders that need it are lost (R275). -/
def pathsLost (s : State) (r : RouterId) : State :=
  if goneCount s < 2 then s
  else
    let pairs := (List.finRange 48).flatMap fun m => ((List.finRange 48).filter fun n => decide (m < n) && pathLost s m n).map fun n => (m, n)
    pairs.foldl (fun u e =>
      (pathOrders u e.1 e.2).foldl (fun v x => abortAllOrders v x.1 x.2)
        (endBetween (endBetween (logEvent u 0x0503 2 [] r.val (e.1.val + 256 * e.2.val) []) e.1 e.2) e.2 e.1)) s

/-- A router is declared faulted (R273). -/
def routerFault (s : State) (r : RouterId) : State :=
  if gone s r.val then s
  else
    let l0 : NiId := Fin.ofNat 48 (2 * r.val)
    let l1 : NiId := Fin.ofNat 48 (2 * r.val + 1)
    let off := fun (x : Router) => { x with newMode := none, newFenced := none, enables := 0 }
    let s1 := fenceNotices (losePackets (setRtrSvc (modRtr s r.val off) r .fenced) r) r
    let s2 := setNiSt (setNiSt s1 l0.val (.fenced .draining)) l1.val (.fenced .draining)
    let s3 := blockFault (blockFault (partFault s2 [] 4 r.val 0) l0) l1
    let s4 := if r.val % 6 = 0 ∧ s3.noc.eastFirst = false then changeMode s3 true else s3
    nocMoves (pathsLost s4 r)

/-- The direction in which the sender of a notice lies. -/
def noticeDir (p : Pkt) : Option (RouterId × Dir) :=
  match pktDest p, pktSource p with
  | some n, some m => ([Dir.north, .east, .south, .west].find? fun d => decide (neighbour (n.val / 2) d = some (m.val / 2))).map fun d =>
      (Fin.ofNat 24 (n.val / 2), d)
  | _, _ => none

/-- The CONTROL packet of a notice to a router: `p` with DX and DY of the router. -/
def noticeOf (r : RouterId) (p : Pkt) : Pkt := { p with dx := BitVec.ofNat 3 (r.val % 6), dy := BitVec.ofNat 2 (r.val / 6) }

/-- ROUTER_CONTROL_NOTICE: a router takes the CONTROL notice of a neighbour about its state. -/
def execRouterControlNotice (r : RouterId) (p : Pkt) (k : Notice) (s : State) : Outcome State Fault Refusal :=
  .next (takeMark (control s (noticeOf r p) tyControl fun u => match noticeDir (noticeOf r p) with
    | some (_, d) => nocMoves (match k with
        | .quiesce => modRtr u r.val (noteQuiesce d true)
        | .clear => modRtr u r.val (noteQuiesce d false)
        | .fence => noteFence u r d)
    | none => u))

/-- FLIT_PARITY_REPLAY: the sending router replays; a replay that fails again faults it. -/
def execFlitParityReplay (r : RouterId) (again : Bool) (s : State) : Outcome State Fault Refusal :=
  .next (takeMark (if nocUp s && !gone s r.val then
      let s1 := modRtr s r.val fun x => { x with replays := satInc x.replays }
      let s2 : State := { s1 with noc := { s1.noc with linkReplays := satInc s1.noc.linkReplays } }
      if again then routerFault s2 r else s2
    else s))

/-- A router takes its new configuration. -/
def configured (x : Router) : Router :=
  { x with fencedNbrs := x.newFenced.getD x.fencedNbrs, mode := x.newMode.getD x.mode, newFenced := none, newMode := none }

/-- ROUTER_QUIESCE_COMPLETE: every input queue is empty, and the new configuration applies. -/
def execRouterQuiesceComplete (r : RouterId) (s : State) : Outcome State Fault Refusal :=
  .next (takeMark (if nocUp s && decide ((rtr s r.val).service = .quiesce) && routerEmpty s r.val then
      nocMoves (notifyAll (setRtrSvc (modRtr s r.val configured) r .inService) r false)
    else s))

/-- ROUTER_QUIESCE_TIMEOUT: the queues have not emptied within 2 µs, and the router is declared faulted. -/
def execRouterQuiesceTimeout (r : RouterId) (s : State) : Outcome State Fault Refusal :=
  .next (takeMark (if nocUp s && decide ((rtr s r.val).service = .quiesce) then routerFault s r else s))

/-- ROUTER_STALL_DETECT: the router is declared faulted. -/
def execRouterStallDetect (r : RouterId) (s : State) : Outcome State Fault Refusal :=
  .next (takeMark (if nocUp s then routerFault s r else s))

end Sys2Proof.Machine
end

