-- ==== Sys2Proof/Machine/Pointer.lean ====
section
/-! DEFINITION. The pointer class (OPC 0x06, R93). -/

namespace Sys2Proof.Machine

open Host (Outcome)

/-- PLD and PADD: P of every active element from its present P and A (R93). -/
def pointerLoad (s : State) (t : Tenant) (opFn : Nat) (f : FmtA) (ac : Nat → Nat) (op : Nat → Nat → Nat) : State :=
  let a : Fld := ⟨f.ai, f.ab.toNat, width f⟩
  runAis s t (wordA f 6 opFn)
    (fun q => Check.first [
      illegalIf (decide (f.res ≠ 0 ∨ 12 ≤ f.modf.toNat ∨ f.db ≠ 0 ∨ f.bb ≠ 0 ∨ 12 < width f) || f.di || f.bi || f.bs),
      readCheck a (gw s q) 1])
    fun q s1 =>
      let g := gw s q
      let es := elems s g (ownTiles s t)
      let s2 := (es.filter (active s g)).foldl (fun u e =>
        setP u g e (BitVec.ofNat 12 (op (pe s (e.lane g 0)).p.toNat (readField s g e a <<< f.modf.toNat)))) (touch s1 g es a)
      finish s2 t q (ac (a.planes g) + indAc f)

/-- PLD: P ← A << k. -/
def execPld (t : Tenant) (f : FmtA) (s : State) : Outcome State Fault Refusal :=
  .next (pointerLoad s t 0 f (fun p => p + 2) fun _ a => a)

/-- PADD: P ← P + (A << k). -/
def execPadd (t : Tenant) (f : FmtA) (s : State) : Outcome State Fault Refusal :=
  .next (pointerLoad s t 1 f (fun _ => 14) fun p a => p + a)

/-- PST: D ← P zero-extended. -/
def execPst (t : Tenant) (f : FmtA) (s : State) : Outcome State Fault Refusal :=
  let d : Fld := ⟨f.di, f.db.toNat, width f⟩
  .next (runAis s t (wordA f 6 2)
    (fun q => Check.first [
      illegalIf (decide (f.res ≠ 0 ∨ f.modf ≠ 0 ∨ f.ab ≠ 0 ∨ f.bb ≠ 0 ∨ width f < 12) || f.ai || f.bi || f.bs),
      writeCheck s t d (gw s q)])
    fun q s1 =>
      let g := gw s q
      let es := elems s g (ownTiles s t)
      let s2 := (es.filter (active s g)).foldl (fun u e => writeDest s g d u e (pe s (e.lane g 0)).p.toNat) (touch s1 g es d)
      finish s2 t q (d.planes g + 2 + indAc f))

end Sys2Proof.Machine
end

