-- ==== Sys2Proof/Machine/Scalar.lean ====
section
/-! DEFINITION. The scalar class (OPC 0x07, R94). -/

namespace Sys2Proof.Machine

open Host (Outcome)

/-- Operand B: SB, or IMM when IM = 1. -/
def opB (s : State) (q : SeqId) (f : FmtS) : Word := if f.im then f.imm else sreg s q.val f.sb.toNat

/-- Fields that the function does not use are 0 (R79). -/
def scalarBad (f : FmtS) : Bool := decide (f.res ≠ 0) || (if f.im then decide (f.sb ≠ 0) else decide (f.imm ≠ 0))

/-- A two-operand function of 1 ac. -/
def scalarFn (s : State) (t : Tenant) (fn : Nat) (f : FmtS) (op : Word → Word → Word) : State :=
  runAis s t (wordS f fn) (fun _ => illegalIf (scalarBad f)) fun q s1 =>
    finish (setSreg s1 q.val f.sd.toNat (op (sreg s q.val f.sa.toNat) (opB s q f))) t q 1

/-- SADD. -/
def execSadd (t : Tenant) (f : FmtS) (s : State) : Outcome State Fault Refusal := .next (scalarFn s t 0 f fun a b => a + b)
/-- SSUB. -/
def execSsub (t : Tenant) (f : FmtS) (s : State) : Outcome State Fault Refusal := .next (scalarFn s t 1 f fun a b => a - b)
/-- SAND. -/
def execSand (t : Tenant) (f : FmtS) (s : State) : Outcome State Fault Refusal := .next (scalarFn s t 2 f fun a b => a &&& b)
/-- SOR. -/
def execSor (t : Tenant) (f : FmtS) (s : State) : Outcome State Fault Refusal := .next (scalarFn s t 3 f fun a b => a ||| b)
/-- SXOR. -/
def execSxor (t : Tenant) (f : FmtS) (s : State) : Outcome State Fault Refusal := .next (scalarFn s t 4 f fun a b => a ^^^ b)
/-- SSHL: by B mod 32. -/
def execSshl (t : Tenant) (f : FmtS) (s : State) : Outcome State Fault Refusal :=
  .next (scalarFn s t 5 f fun a b => a <<< (b.toNat % 32))
/-- SSHR: by B mod 32, zero fill. -/
def execSshr (t : Tenant) (f : FmtS) (s : State) : Outcome State Fault Refusal :=
  .next (scalarFn s t 6 f fun a b => a >>> (b.toNat % 32))
/-- SSRA: by B mod 32, sign fill. -/
def execSsra (t : Tenant) (f : FmtS) (s : State) : Outcome State Fault Refusal :=
  .next (scalarFn s t 7 f fun a b => a.sshiftRight (b.toNat % 32))

/-- SLI: SD ← IMM. -/
def execSli (t : Tenant) (f : FmtS) (s : State) : Outcome State Fault Refusal :=
  .next (runAis s t (wordS f 8)
    (fun _ => illegalIf (decide (f.res ≠ 0 ∨ f.sa ≠ 0 ∨ f.sb ≠ 0) || !f.im))
    fun q s1 => finish (setSreg s1 q.val f.sd.toNat f.imm) t q 1)

/-- The argument block of the RUNNING order. -/
def argBlock (s : State) (t : Tenant) : Bytes := match runOrder s t with
  | some o => o.args
  | none => []

/-- SLDA: SD ← the word at byte offset IMM of the argument block, from RETA or, where that fails, from RETB (R198, R236). DESIGN CHOICE (log 60): IM may be 0 or 1, as for SGETT. -/
def execSlda (t : Tenant) (f : FmtS) (s : State) : Outcome State Fault Refusal :=
  .next (runAis s t (wordS f 9)
    (fun _ => Check.first [illegalIf (decide (f.res ≠ 0 ∨ f.sa ≠ 0 ∨ f.sb ≠ 0)),
      operandIf (decide (f.imm.toNat % 4 ≠ 0 ∨ (argBlock s t).length < f.imm.toNat + 4)) 2])
    fun q s1 =>
      let r := readAreas s1 t 4 5 (areaUp s1 t 4) (areaUp s1 t 5)
      if r.2.1 || r.2.2 then finish (setSreg r.1 q.val f.sd.toNat (BitVec.ofNat 32 (leAt (argBlock s t) f.imm.toNat 4))) t q 6
      else abortOrders r.1 t ((runOrder s t).toList.map Order.seq) 0x0B)

/-- A trap item of the tenant's trap frame: 0 cause, 1 PC, 2 detail, 3 resume PC (R94, R176). -/
def trapItem (s : State) (t : Tenant) (i : Nat) : Word :=
  let f := xmRead s (trapFrame s t.val) 16
  BitVec.ofNat 32 (if i = 0 then leAt f 0 1 else leAt f (4 * i) 4)

/-- SGETT: SD ← trap item IMM, at trap level only. -/
def execSgett (t : Tenant) (f : FmtS) (s : State) : Outcome State Fault Refusal :=
  .next (runAis s t (wordS f 10)
    (fun q => illegalIf (decide (f.res ≠ 0 ∨ f.sa ≠ 0 ∨ f.sb ≠ 0 ∨ 3 < f.imm.toNat) || !(sqr s q.val).tl))
    fun q s1 =>
      if xmBadAt s (trapFrame s t.val) 16 then trapFrameLost s1 t
      else finish (setSreg s1 q.val f.sd.toNat (trapItem s t f.imm.toNat)) t q 1)

end Sys2Proof.Machine
end

