-- ==== Sys2Proof/Machine/Shift.lean ====
section
/-! DEFINITION. Shifts within the field and neighbour exchange (OPC 0x04, R87, R88, R104). -/

namespace Sys2Proof.Machine

open Host (Outcome)

def shiftChk (s : State) (t : Tenant) (f : FmtA) (q : SeqId) : Check :=
  let g := gw s q
  let d : Fld := ⟨f.di, f.db.toNat, width f⟩
  let a : Fld := ⟨f.ai, f.ab.toNat, width f⟩
  Check.first [illegalIf (decide (f.res ≠ 0 ∨ f.modf ≠ 0 ∨ 256 ≤ f.bb.toNat) || f.bi || f.bs),
    writeCheck s t d g, readCheck a g 1, overlapCheck d a (.scalar 0) g]

/-- A shift or exchange: `val` gives the result of an element from the state before the instruction. -/
def moveInstr (s : State) (t : Tenant) (opFn : Nat) (f : FmtA) (undefC : Bool)
    (val : State → Nat → Fld → Elem → Nat) (ac : Nat → Nat → Nat) : State :=
  let d : Fld := ⟨f.di, f.db.toNat, width f⟩
  let a : Fld := ⟨f.ai, f.ab.toNat, width f⟩
  runAis s t (wordA f 4 opFn) (shiftChk s t f) fun q s1 =>
    let g := gw s q
    let es := elems s g (ownTiles s t)
    let s2 := touch (touch s1 g es d) g es a
    let s3 := (es.filter (active s g)).foldl (fun u e =>
      let u1 := writeDest s g d u e (overlapFree s g e [d, a] d.w (val s g a e))
      if undefC && decide (g ≠ 1) then freeC s g u1 e else u1) s2
    finish s3 t q (ac g (d.planes g) + indAc f)

/-- SHL, SHRL, SHRA and ROL (R87). -/
def shiftInstr (s : State) (t : Tenant) (fn : ShiftFn) (opFn : Nat) (f : FmtA) : State :=
  let n := f.bb.toNat % 256
  moveInstr s t opFn f true (fun s0 g a e => shiftElem fn (width f) (readField s0 g e a) n)
    fun g p => p + 1 + n % g * p

/-- XN, XE, XS and XW: A of the element `n` steps away, 0 beyond the array or a disabled culvert (R46, R87). -/
def exchange (s : State) (t : Tenant) (src : Dir) (opFn : Nat) (f : FmtA) : State :=
  let n := f.bb.toNat % 256
  moveInstr s t opFn f false (fun s0 g a e =>
    match elemAway s0 t g src n e with
    | some x => readField s0 g x a
    | none => 0) fun g p => match src with
      | .north | .south => p * (n + 2)
      | .east | .west => p * (g * n + 2)

/-- SHL: D ← A shifted left. -/
def execShl (t : Tenant) (f : FmtA) (s : State) : Outcome State Fault Refusal := .next (shiftInstr s t .shl 0 f)
/-- SHRL: D ← A shifted right, zero fill. -/
def execShrl (t : Tenant) (f : FmtA) (s : State) : Outcome State Fault Refusal := .next (shiftInstr s t .shrl 1 f)
/-- SHRA: D ← A shifted right, filled with A[w−1]. -/
def execShra (t : Tenant) (f : FmtA) (s : State) : Outcome State Fault Refusal := .next (shiftInstr s t .shra 2 f)
/-- ROL: D ← A rotated left. -/
def execRol (t : Tenant) (f : FmtA) (s : State) : Outcome State Fault Refusal := .next (shiftInstr s t .rol 3 f)
/-- XN: data moves north. -/
def execXn (t : Tenant) (f : FmtA) (s : State) : Outcome State Fault Refusal := .next (exchange s t .south 4 f)
/-- XE: data moves east. -/
def execXe (t : Tenant) (f : FmtA) (s : State) : Outcome State Fault Refusal := .next (exchange s t .west 5 f)
/-- XS: data moves south. -/
def execXs (t : Tenant) (f : FmtA) (s : State) : Outcome State Fault Refusal := .next (exchange s t .north 6 f)
/-- XW: data moves west. -/
def execXw (t : Tenant) (f : FmtA) (s : State) : Outcome State Fault Refusal := .next (exchange s t .east 7 f)

end Sys2Proof.Machine
end

