-- ==== Sys2Proof/Machine/Dispatch.lean ====
section
/-! DEFINITION. The meaning of each command, one arm per constructor of `Instr`. -/

namespace Sys2Proof.Machine

open Host (Outcome)

/-- The effect of a command on everything but the queue. -/
def exec (i : Instr) (s : State) : Host.Outcome State Fault Refusal :=
  match i with
  | .logic t f => Sys2Proof.Machine.execLogic t f s
  | .kset t f => Sys2Proof.Machine.execKset t f s
  | .kand t f => Sys2Proof.Machine.execKand t f s
  | .kor t f => Sys2Proof.Machine.execKor t f s
  | .kall t f => Sys2Proof.Machine.execKall t f s
  | .knot t f => Sys2Proof.Machine.execKnot t f s
  | .fset t f => Sys2Proof.Machine.execFset t f s
  | .add t f => Sys2Proof.Machine.execAdd t f s
  | .addc t f => Sys2Proof.Machine.execAddc t f s
  | .sub t f => Sys2Proof.Machine.execSub t f s
  | .subb t f => Sys2Proof.Machine.execSubb t f s
  | .mul t f => Sys2Proof.Machine.execMul t f s
  | .mulw t f => Sys2Proof.Machine.execMulw t f s
  | .div t f => Sys2Proof.Machine.execDiv t f s
  | .mod t f => Sys2Proof.Machine.execMod t f s
  | .neg t f => Sys2Proof.Machine.execNeg t f s
  | .min t f => Sys2Proof.Machine.execMin t f s
  | .max t f => Sys2Proof.Machine.execMax t f s
  | .cmpeq t f => Sys2Proof.Machine.execCmpeq t f s
  | .cmpne t f => Sys2Proof.Machine.execCmpne t f s
  | .cmplt t f => Sys2Proof.Machine.execCmplt t f s
  | .cmple t f => Sys2Proof.Machine.execCmple t f s
  | .fadd t f => Sys2Proof.Machine.execFadd t f s
  | .fsub t f => Sys2Proof.Machine.execFsub t f s
  | .fmul t f => Sys2Proof.Machine.execFmul t f s
  | .fdiv t f => Sys2Proof.Machine.execFdiv t f s
  | .fma t f => Sys2Proof.Machine.execFma t f s
  | .fsqrt t f => Sys2Proof.Machine.execFsqrt t f s
  | .fmin t f => Sys2Proof.Machine.execFmin t f s
  | .fmax t f => Sys2Proof.Machine.execFmax t f s
  | .fcmpeq t f => Sys2Proof.Machine.execFcmpeq t f s
  | .fcmplt t f => Sys2Proof.Machine.execFcmplt t f s
  | .fcmple t f => Sys2Proof.Machine.execFcmple t f s
  | .fcvt t f => Sys2Proof.Machine.execFcvt t f s
  | .fcvti t f => Sys2Proof.Machine.execFcvti t f s
  | .fcvtf t f => Sys2Proof.Machine.execFcvtf t f s
  | .fneg t f => Sys2Proof.Machine.execFneg t f s
  | .fabs t f => Sys2Proof.Machine.execFabs t f s
  | .shl t f => Sys2Proof.Machine.execShl t f s
  | .shrl t f => Sys2Proof.Machine.execShrl t f s
  | .shra t f => Sys2Proof.Machine.execShra t f s
  | .rol t f => Sys2Proof.Machine.execRol t f s
  | .xn t f => Sys2Proof.Machine.execXn t f s
  | .xe t f => Sys2Proof.Machine.execXe t f s
  | .xs t f => Sys2Proof.Machine.execXs t f s
  | .xw t f => Sys2Proof.Machine.execXw t f s
  | .rany t f => Sys2Proof.Machine.execRany t f s
  | .rmax t f => Sys2Proof.Machine.execRmax t f s
  | .rmin t f => Sys2Proof.Machine.execRmin t f s
  | .rsum t f => Sys2Proof.Machine.execRsum t f s
  | .pld t f => Sys2Proof.Machine.execPld t f s
  | .padd t f => Sys2Proof.Machine.execPadd t f s
  | .pst t f => Sys2Proof.Machine.execPst t f s
  | .sadd t f => Sys2Proof.Machine.execSadd t f s
  | .ssub t f => Sys2Proof.Machine.execSsub t f s
  | .sand t f => Sys2Proof.Machine.execSand t f s
  | .sor t f => Sys2Proof.Machine.execSor t f s
  | .sxor t f => Sys2Proof.Machine.execSxor t f s
  | .sshl t f => Sys2Proof.Machine.execSshl t f s
  | .sshr t f => Sys2Proof.Machine.execSshr t f s
  | .ssra t f => Sys2Proof.Machine.execSsra t f s
  | .sli t f => Sys2Proof.Machine.execSli t f s
  | .slda t f => Sys2Proof.Machine.execSlda t f s
  | .sgett t f => Sys2Proof.Machine.execSgett t f s
  | .br t f => Sys2Proof.Machine.execBr t f s
  | .bany t f => Sys2Proof.Machine.execBany t f s
  | .bnone t f => Sys2Proof.Machine.execBnone t f s
  | .beq t f => Sys2Proof.Machine.execBeq t f s
  | .bne t f => Sys2Proof.Machine.execBne t f s
  | .blt t f => Sys2Proof.Machine.execBlt t f s
  | .bltu t f => Sys2Proof.Machine.execBltu t f s
  | .dbnz t f => Sys2Proof.Machine.execDbnz t f s
  | .call t f => Sys2Proof.Machine.execCall t f s
  | .ret t f => Sys2Proof.Machine.execRet t f s
  | .ckpt t f => Sys2Proof.Machine.execCkpt t f s
  | .fbar t f => Sys2Proof.Machine.execFbar t f s
  | .waitev t f => Sys2Proof.Machine.execWaitev t f s
  | .trap t f => Sys2Proof.Machine.execTrap t f s
  | .gang t f => Sys2Proof.Machine.execGang t f s
  | .brclm t f => Sys2Proof.Machine.execBrclm t f s
  | .fclr t f => Sys2Proof.Machine.execFclr t f s
  | .ften t f => Sys2Proof.Machine.execFten t f s
  | .rtt t f => Sys2Proof.Machine.execRtt t f s
  | .endOrder t f => Sys2Proof.Machine.execEnd t f s
  | .inarm t f => Sys2Proof.Machine.execInarm t f s
  | .inwait t f => Sys2Proof.Machine.execInwait t f s
  | .outp t f => Sys2Proof.Machine.execOutp t f s
  | .outs t f => Sys2Proof.Machine.execOuts t f s
  | .outf t f => Sys2Proof.Machine.execOutf t f s
  | .planeLog q w => Sys2Proof.Machine.execPlaneLog q w s
  | .planeAdd q w => Sys2Proof.Machine.execPlaneAdd q w s
  | .news q dir ls w => Sys2Proof.Machine.execNews q dir ls w s
  | .addrImm q w => Sys2Proof.Machine.execAddrImm q w s
  | .addrAdd q w => Sys2Proof.Machine.execAddrAdd q w s
  | .addrScalar q w => Sys2Proof.Machine.execAddrScalar q w s
  | .addrCopy q w => Sys2Proof.Machine.execAddrCopy q w s
  | .addrWrap q w => Sys2Proof.Machine.execAddrWrap q w s
  | .addrSlide q w => Sys2Proof.Machine.execAddrSlide q w s
  | .addrPlain q w => Sys2Proof.Machine.execAddrPlain q w s
  | .scalAdd q w => Sys2Proof.Machine.execScalAdd q w s
  | .scalAddi q w => Sys2Proof.Machine.execScalAddi q w s
  | .scalSub q w => Sys2Proof.Machine.execScalSub q w s
  | .scalAnd q w => Sys2Proof.Machine.execScalAnd q w s
  | .scalOr q w => Sys2Proof.Machine.execScalOr q w s
  | .scalXor q w => Sys2Proof.Machine.execScalXor q w s
  | .scalShl q w => Sys2Proof.Machine.execScalShl q w s
  | .scalShr q w => Sys2Proof.Machine.execScalShr q w s
  | .scalLi q w => Sys2Proof.Machine.execScalLi q w s
  | .scalShi q w => Sys2Proof.Machine.execScalShi q w s
  | .scalField q w => Sys2Proof.Machine.execScalField q w s
  | .scalHsb q w => Sys2Proof.Machine.execScalHsb q w s
  | .scalGet q w => Sys2Proof.Machine.execScalGet q w s
  | .scalMem q w => Sys2Proof.Machine.execScalMem q w s
  | .scalSetlc q w => Sys2Proof.Machine.execScalSetlc q w s
  | .scalScan q w => Sys2Proof.Machine.execScalScan q w s
  | .wait q w => Sys2Proof.Machine.execWait q w s
  | .waitConditionMet q => Sys2Proof.Machine.execWaitConditionMet q s
  | .microTimeout q => Sys2Proof.Machine.execMicroTimeout q s
  | .microBr q w => Sys2Proof.Machine.execMicroBr q w s
  | .microCall q w => Sys2Proof.Machine.execMicroCall q w s
  | .microRet q w => Sys2Proof.Machine.execMicroRet q w s
  | .loop q w => Sys2Proof.Machine.execLoop q w s
  | .gor q w => Sys2Proof.Machine.execGor q w s
  | .gorResultDelivery q device failed => Sys2Proof.Machine.execGorResultDelivery q device failed s
  | .bcast q w => Sys2Proof.Machine.execBcast q w s
  | .trapchkRaise q w => Sys2Proof.Machine.execTrapchkRaise q w s
  | .trapchkBoundary q w => Sys2Proof.Machine.execTrapchkBoundary q w s
  | .reschkSum q w => Sys2Proof.Machine.execReschkSum q w s
  | .reschkProd q w => Sys2Proof.Machine.execReschkProd q w s
  | .reschkClear q w => Sys2Proof.Machine.execReschkClear q w s
  | .flagOrResult t => Sys2Proof.Machine.execFlagOrResult t s
  | .machineCheck src => Sys2Proof.Machine.execMachineCheck src s
  | .wcsScan q => Sys2Proof.Machine.execWcsScan q s
  | .patchBundle ses data => Sys2Proof.Machine.execPatchBundle ses data s
  | .migration src dst => Sys2Proof.Machine.execMigration src dst s
  | .tileRetestMarchComplete p passed => Sys2Proof.Machine.execTileRetestMarchComplete p passed s
  | .sparePeriodicMarch p passed => Sys2Proof.Machine.execSparePeriodicMarch p passed s
  | .polderRampDwellEnd p => Sys2Proof.Machine.execPolderRampDwellEnd p s
  | .idleHoldExpiry t => Sys2Proof.Machine.execIdleHoldExpiry t s
  | .submit ses t data => Sys2Proof.Machine.execSubmit ses t data s
  | .orderStart t => Sys2Proof.Machine.execOrderStart t s
  | .unprotected t => Sys2Proof.Machine.execUnprotected t s
  | .recordExpiry t seq => Sys2Proof.Machine.execRecordExpiry t seq s
  | .retireTo ses t v => Sys2Proof.Machine.execRetireTo ses t v s
  | .abort ses t v => Sys2Proof.Machine.execAbort ses t v s
  | .release ses t v => Sys2Proof.Machine.execRelease ses t v s
  | .ownership ses t data => Sys2Proof.Machine.execOwnership ses t data s
  | .ownershipApply t => Sys2Proof.Machine.execOwnershipApply t s
  | .marchEnable ses v => Sys2Proof.Machine.execMarchEnable ses v s
  | .marchPassStart => Sys2Proof.Machine.execMarchPassStart s
  | .marchWindowRetry => Sys2Proof.Machine.execMarchWindowRetry s
  | .dtestTarget ses v => Sys2Proof.Machine.execDtestTarget ses v s
  | .destructiveMarchComplete passed => Sys2Proof.Machine.execDestructiveMarchComplete passed s
  | .read p w => Sys2Proof.Machine.execRead p w s
  | .write p portY => Sys2Proof.Machine.execWrite p portY s
  | .readResp p => Sys2Proof.Machine.execReadResp p s
  | .writeResp p => Sys2Proof.Machine.execWriteResp p s
  | .nackFenced p => Sys2Proof.Machine.execNackFenced p s
  | .errorResp p => Sys2Proof.Machine.execErrorResp p s
  | .fenceClear cleared replacement p => Sys2Proof.Machine.execFenceClear cleared replacement p s
  | .sluiceClose p r => Sys2Proof.Machine.execSluiceClose p r s
  | .routerControlNotice r p k => Sys2Proof.Machine.execRouterControlNotice r p k s
  | .flitParityReplay r again => Sys2Proof.Machine.execFlitParityReplay r again s
  | .requestTimeout n tid => Sys2Proof.Machine.execRequestTimeout n tid s
  | .niDrained n => Sys2Proof.Machine.execNiDrained n s
  | .sluiceFaultFence n => Sys2Proof.Machine.execSluiceFaultFence n s
  | .routerQuiesceComplete r => Sys2Proof.Machine.execRouterQuiesceComplete r s
  | .routerQuiesceTimeout r => Sys2Proof.Machine.execRouterQuiesceTimeout r s
  | .routerStallDetect r => Sys2Proof.Machine.execRouterStallDetect r s
  | .grouping ses v => Sys2Proof.Machine.execGrouping ses v s
  | .cxpDiscoveryLock c speed => Sys2Proof.Machine.execCxpDiscoveryLock c speed s
  | .cxpDiscoveryTimeout c => Sys2Proof.Machine.execCxpDiscoveryTimeout c s
  | .cxpLossOfLock c => Sys2Proof.Machine.execCxpLossOfLock c s
  | .cxpLostHoldEnd c => Sys2Proof.Machine.execCxpLostHoldEnd c s
  | .frameStart c h => Sys2Proof.Machine.execFrameStart c h s
  | .streamPacket c line pixels crcOk supported retained => Sys2Proof.Machine.execStreamPacket c line pixels crcOk supported retained s
  | .bindingLanded t seq binding => Sys2Proof.Machine.execBindingLanded t seq binding s
  | .camRegWrite ses c data => Sys2Proof.Machine.execCamRegWrite ses c data s
  | .camRegRead ses c => Sys2Proof.Machine.execCamRegRead ses c s
  | .camRegAck c reply => Sys2Proof.Machine.execCamRegAck c reply s
  | .cellPass r c => Sys2Proof.Machine.execCellPass r c s
  | .cellAdd r c => Sys2Proof.Machine.execCellAdd r c s
  | .cellSub r c => Sys2Proof.Machine.execCellSub r c s
  | .cellAnd r c => Sys2Proof.Machine.execCellAnd r c s
  | .cellOr r c => Sys2Proof.Machine.execCellOr r c s
  | .cellXor r c => Sys2Proof.Machine.execCellXor r c s
  | .cellNot r c => Sys2Proof.Machine.execCellNot r c s
  | .cellShl r c => Sys2Proof.Machine.execCellShl r c s
  | .cellShr r c => Sys2Proof.Machine.execCellShr r c s
  | .cellSra r c => Sys2Proof.Machine.execCellSra r c s
  | .cellMux r c => Sys2Proof.Machine.execCellMux r c s
  | .cellCnt r c => Sys2Proof.Machine.execCellCnt r c s
  | .cellMinu r c => Sys2Proof.Machine.execCellMinu r c s
  | .cellMaxu r c => Sys2Proof.Machine.execCellMaxu r c s
  | .cellTime r c => Sys2Proof.Machine.execCellTime r c s
  | .serialRxByte port b => Sys2Proof.Machine.execSerialRxByte port b s
  | .fullLoad ses data => Sys2Proof.Machine.execFullLoad ses data s
  | .partialLoad ses data => Sys2Proof.Machine.execPartialLoad ses data s
  | .fabricLoadComplete => Sys2Proof.Machine.execFabricLoadComplete s
  | .capture ses v => Sys2Proof.Machine.execCapture ses v s
  | .probeSel ses land v => Sys2Proof.Machine.execProbeSel ses land v s
  | .fabricClockRampStep => Sys2Proof.Machine.execFabricClockRampStep s
  | .fieldInputChange n level => Sys2Proof.Machine.execFieldInputChange n level s
  | .mode ses n v => Sys2Proof.Machine.execMode ses n v s
  | .safeState ses n v => Sys2Proof.Machine.execSafeState ses n v s
  | .filter ses n v => Sys2Proof.Machine.execFilter ses n v s
  | .doutImage ses j v => Sys2Proof.Machine.execDoutImage ses j v s
  | .encoderEdge lead a b => Sys2Proof.Machine.execEncoderEdge lead a b s
  | .adcSlot g microvolts => Sys2Proof.Machine.execAdcSlot g microvolts s
  | .pwmPeriodStart n => Sys2Proof.Machine.execPwmPeriodStart n s
  | .shortGnd n => Sys2Proof.Machine.execShortGnd n s
  | .shortSupply n => Sys2Proof.Machine.execShortSupply n s
  | .overtemp n => Sys2Proof.Machine.execOvertemp n s
  | .openWire n => Sys2Proof.Machine.execOpenWire n s
  | .ainOpenWirePulse n skipped isOpen => Sys2Proof.Machine.execAinOpenWirePulse n skipped isOpen s
  | .openLoadOn n => Sys2Proof.Machine.execOpenLoadOn n s
  | .openLoadOff n isOpen => Sys2Proof.Machine.execOpenLoadOff n isOpen s
  | .reversed n => Sys2Proof.Machine.execReversed n s
  | .diagRetry n => Sys2Proof.Machine.execDiagRetry n s
  | .diagnosisEnd n code => Sys2Proof.Machine.execDiagnosisEnd n code s
  | .diagClear ses n v => Sys2Proof.Machine.execDiagClear ses n v s
  | .spsOverload g => Sys2Proof.Machine.execSpsOverload g s
  | .spsRetry g => Sys2Proof.Machine.execSpsRetry g s
  | .spsReverse g => Sys2Proof.Machine.execSpsReverse g s
  | .spsReverseEnd g => Sys2Proof.Machine.execSpsReverseEnd g s
  | .spsEnable ses g v => Sys2Proof.Machine.execSpsEnable ses g v s
  | .groupCurrentAverage g milliamps => Sys2Proof.Machine.execGroupCurrentAverage g milliamps s
  | .moduleBudgetCheck => Sys2Proof.Machine.execModuleBudgetCheck s
  | .groupMonitorTrip g which => Sys2Proof.Machine.execGroupMonitorTrip g which s
  | .groupOvercurrentEscalation g => Sys2Proof.Machine.execGroupOvercurrentEscalation g s
  | .groupClear ses g v => Sys2Proof.Machine.execGroupClear ses g v s
  | .crossingSilence die resumed => Sys2Proof.Machine.execCrossingSilence die resumed s
  | .registerWrite ses index sub data => Sys2Proof.Machine.execRegisterWrite ses index sub data s
  | .domainSegment ses index sub size data last => Sys2Proof.Machine.execDomainSegment ses index sub size data last s
  | .segmentPauseTimeout ses => Sys2Proof.Machine.execSegmentPauseTimeout ses s
  | .hostSdoAbort ses => Sys2Proof.Machine.execHostSdoAbort ses s
  | .requested ses v => Sys2Proof.Machine.execRequested ses v s
  | .errorCount ses v => Sys2Proof.Machine.execErrorCount ses v s
  | .mapEntry ses tx pdo ix v => Sys2Proof.Machine.execMapEntry ses tx pdo ix v s
  | .mapCount ses tx pdo v => Sys2Proof.Machine.execMapCount ses tx pdo v s
  | .pdoAssign ses tx ix v => Sys2Proof.Machine.execPdoAssign ses tx ix v s
  | .emergencySend ses => Sys2Proof.Machine.execEmergencySend ses s
  | .logCursor ses v => Sys2Proof.Machine.execLogCursor ses v s
  | .logEntry ses => Sys2Proof.Machine.execLogEntry ses s
  | .escAlControl e req cfg => Sys2Proof.Machine.execEscAlControl e req cfg s
  | .mailboxRequest e channel m => Sys2Proof.Machine.execMailboxRequest e channel m s
  | .sdoInformation ses r => Sys2Proof.Machine.execSdoInformation ses r s
  | .syncType ses v => Sys2Proof.Machine.execSyncType ses v s
  | .sm2Event e data => Sys2Proof.Machine.execSm2Event e data s
  | .sync0 e => Sys2Proof.Machine.execSync0 e s
  | .sync1 e => Sys2Proof.Machine.execSync1 e s
  | .freeRunLatch e => Sys2Proof.Machine.execFreeRunLatch e s
  | .pdWatchdogExpiry e => Sys2Proof.Machine.execPdWatchdogExpiry e s
  | .foeWrite ses name password data => Sys2Proof.Machine.execFoeWrite ses name password data s
  | .foeRead ses name => Sys2Proof.Machine.execFoeRead ses name s
  | .nmtStart c node => Sys2Proof.Machine.execNmtStart c node s
  | .nmtEnterPreOperational c node => Sys2Proof.Machine.execNmtEnterPreOperational c node s
  | .nmtStop c node => Sys2Proof.Machine.execNmtStop c node s
  | .nmtResetCommunication c node => Sys2Proof.Machine.execNmtResetCommunication c node s
  | .nmtResetNode c node => Sys2Proof.Machine.execNmtResetNode c node s
  | .canSync c => Sys2Proof.Machine.execCanSync c s
  | .rpdo c cobId data => Sys2Proof.Machine.execRpdo c cobId data s
  | .tpdoTransmit t k => Sys2Proof.Machine.execTpdoTransmit t k s
  | .heartbeat t => Sys2Proof.Machine.execHeartbeat t s
  | .usdoRequest c node r => Sys2Proof.Machine.execUsdoRequest c node r s
  | .lssConfigureNodeId c nb => Sys2Proof.Machine.execLssConfigureNodeId c nb s
  | .lssConfigureBitTiming c selector index => Sys2Proof.Machine.execLssConfigureBitTiming c selector index s
  | .lssStoreConfiguration c => Sys2Proof.Machine.execLssStoreConfiguration c s
  | .lssActivateBitTiming c => Sys2Proof.Machine.execLssActivateBitTiming c s
  | .controllerFault h => Sys2Proof.Machine.execControllerFault h s
  | .networkWake h f => Sys2Proof.Machine.execNetworkWake h f s
  | .maintenanceFrame data => Sys2Proof.Machine.execMaintenanceFrame data s
  | .maintenanceSilence => Sys2Proof.Machine.execMaintenanceSilence s
  | .activeCeiling ses v => Sys2Proof.Machine.execActiveCeiling ses v s
  | .idleProfile ses v => Sys2Proof.Machine.execIdleProfile ses v s
  | .deepSleep ses v => Sys2Proof.Machine.execDeepSleep ses v s
  | .deepSleepEntry => Sys2Proof.Machine.execDeepSleepEntry s
  | .rampDwell ses v => Sys2Proof.Machine.execRampDwell ses v s
  | .idleHold ses t v => Sys2Proof.Machine.execIdleHold ses t v s
  | .gateRun ses v => Sys2Proof.Machine.execGateRun ses v s
  | .gateSleep ses v => Sys2Proof.Machine.execGateSleep ses v s
  | .gateDeep ses v => Sys2Proof.Machine.execGateDeep ses v s
  | .clockGateIdle block => Sys2Proof.Machine.execClockGateIdle block s
  | .refSelect ses v => Sys2Proof.Machine.execRefSelect ses v s
  | .refMissingEdge ref => Sys2Proof.Machine.execRefMissingEdge ref s
  | .pllLossOfLock pll => Sys2Proof.Machine.execPllLossOfLock pll s
  | .refInvalid ref => Sys2Proof.Machine.execRefInvalid ref s
  | .pllRelock => Sys2Proof.Machine.execPllRelock s
  | .holdoverRefValid ref => Sys2Proof.Machine.execHoldoverRefValid ref s
  | .vcoreWarning => Sys2Proof.Machine.execVcoreWarning s
  | .vcoreWarningHoldExpiry => Sys2Proof.Machine.execVcoreWarningHoldExpiry s
  | .vcoreRecovery r => Sys2Proof.Machine.execVcoreRecovery r s
  | .vcoreResetLevel => Sys2Proof.Machine.execVcoreResetLevel s
  | .powerFailWarning vmem => Sys2Proof.Machine.execPowerFailWarning vmem s
  | .powerFailWarningEnd => Sys2Proof.Machine.execPowerFailWarningEnd s
  | .vmemAction => Sys2Proof.Machine.execVmemAction s
  | .vmemRecovery r => Sys2Proof.Machine.execVmemRecovery r s
  | .vioAction rail => Sys2Proof.Machine.execVioAction rail s
  | .vserAction => Sys2Proof.Machine.execVserAction s
  | .fieldFeedLost f => Sys2Proof.Machine.execFieldFeedLost f s
  | .fieldFeedRecovery f => Sys2Proof.Machine.execFieldFeedRecovery f s
  | .powerOn r => Sys2Proof.Machine.execPowerOn r s
  | .resetWarm ses r => Sys2Proof.Machine.execResetWarm ses r s
  | .resetCold ses r => Sys2Proof.Machine.execResetCold ses r s
  | .watchdogExpiry r => Sys2Proof.Machine.execWatchdogExpiry r s
  | .rstNLow => Sys2Proof.Machine.execRstNLow s
  | .rstNRise r => Sys2Proof.Machine.execRstNRise r s
  | .coldStartTimeout step => Sys2Proof.Machine.execColdStartTimeout step s
  | .coldStartRetry r => Sys2Proof.Machine.execColdStartRetry r s
  | .nonce ses data => Sys2Proof.Machine.execNonce ses data s
  | .attestationSignStart => Sys2Proof.Machine.execAttestationSignStart s
  | .attestationSignComplete found => Sys2Proof.Machine.execAttestationSignComplete found s
  | .keyRecord ses data => Sys2Proof.Machine.execKeyRecord ses data s
  | .firmware ses data => Sys2Proof.Machine.execFirmware ses data s
  | .firmwareRoleSwap standbyLockstep flashOk => Sys2Proof.Machine.execFirmwareRoleSwap standbyLockstep flashOk s
  | .housekeepingPairFault pair => Sys2Proof.Machine.execHousekeepingPairFault pair s
  | .tideInEdge => Sys2Proof.Machine.execTideInEdge s
  | .tideCmd ses v => Sys2Proof.Machine.execTideCmd ses v s
  | .snapshotLatchEnd => Sys2Proof.Machine.execSnapshotLatchEnd s
  | .tideOutEnd => Sys2Proof.Machine.execTideOutEnd s
  | .tapBypass => Sys2Proof.Machine.execTapBypass s
  | .tapIdcode => Sys2Proof.Machine.execTapIdcode s
  | .tapSamplePreload cells => Sys2Proof.Machine.execTapSamplePreload cells s
  | .tapExtest => Sys2Proof.Machine.execTapExtest s
  | .tapExtestPulse => Sys2Proof.Machine.execTapExtestPulse s
  | .tapExtestTrain => Sys2Proof.Machine.execTapExtestTrain s
  | .tapClamp => Sys2Proof.Machine.execTapClamp s
  | .tapHighz => Sys2Proof.Machine.execTapHighz s
  | .polderMonitorTrip p => Sys2Proof.Machine.execPolderMonitorTrip p s
  | .vioRecovery rail r => Sys2Proof.Machine.execVioRecovery rail r s
  | .refValid ref => Sys2Proof.Machine.execRefValid ref s
  | .trapContextScan k => Sys2Proof.Machine.execTrapContextScan k s
  | .cxpDiscoveryRetry c => Sys2Proof.Machine.execCxpDiscoveryRetry c s
  | .camRegTimeout c => Sys2Proof.Machine.execCamRegTimeout c s
  | .waitevLimitExpired q => Sys2Proof.Machine.execWaitevLimitExpired q s
  | .modeChangeComplete n => Sys2Proof.Machine.execModeChangeComplete n s
  | .marchPassComplete => Sys2Proof.Machine.execMarchPassComplete s

end Sys2Proof.Machine
end

