-- ==== Sys2Proof/Machine/Idle.lean ====
section
/-! DEFINITION. What one microsecond without a command does (R106, R163, R240, R294, R418; log 3). -/

namespace Sys2Proof.Machine

/-- A held WAIT counts its ac, up to 4,096, and its µs (R163). -/
def tickWait (ac : Nat) (w : Wait) : Wait :=
  { w with
    acCount := BitVec.ofNat 13 (Nat.min 4096 (w.acCount.toNat + ac))
    usCount := BitVec.ofNat 32 (Nat.min 0xFFFFFFFF (w.usCount.toNat + 1)) }

/-- A sequencer that holds a WAIT: the time counts as running time of its order (R100). -/
def tickSeq (s : State) (q : SeqId) : State :=
  match (sqr s q.val).bound, (sqr s q.val).ws with
  | some t, some w =>
    modRun (modSqr s q.val fun x => { x with ws := some (tickWait (usTicks / acTicks s t) w) }) t fun o =>
      { o with runTicks := o.runTicks + usTicks, sinceTicks := o.sinceTicks + usTicks }
  | _, _ => s

/-- One microsecond in which no command arrives: device time advances by 1,000 ns on every clock that can carry it, held WAITs
count, an ENC_ERROR ends, a trigger packet has left, the DMA side retains up to a word of each connection's pixels in every nc (R226), the march engine takes one step, a memory whose fault is due is fenced, and what is on its way in the
network moves. -/
def idle (s : State) : State :=
  let s1 := endEncErrors { s with time := s.time + 1000, xmFirst := none }
  if moduleUp s1 = false ∨ s1.clk.sleep = .entered then s1
  else
    let s2 := if frozen s1 then s1 else (List.finRange 5).foldl tickSeq s1
    let s3 := (List.finRange 8).foldl (fun u c =>
      let v := if (cam u c).buf.isEmpty then u else retain u c 8000
      if (cam v c).trigBusy then modCam v c fun x => { x with trigBusy := false } else v) s2
    takeMark (nocMoves (settleMem (marchTick s3)))

end Sys2Proof.Machine
end

