-- ==== Sys2Proof/Safety.lean ====
section
/-! DEFINITION. What every state of a safe run satisfies, in the terms in which claims are stated. -/

namespace Sys2Proof.Machine

/-- The memories, the marks of their faulty bytes and the free values that fill their areas are in canonical form. -/
def memoryWf (s : State) : Prop :=
  SMap.wf 0 s.sp = true ∧ SMap.wf 0 s.xm = true ∧ SMap.wf 0 s.peMem = true ∧
    SMap.wf .none s.spBad = true ∧ SMap.wf .none s.xmBad = true ∧ SMap.wf false s.peBad = true ∧
    SMap.wf 0 s.spFill = true ∧ SMap.wf 0 s.xmFill = true

/-- GATE_DEEP: bits [24:20] and [15:0] read 1, bits [31:25] read 0 (R427). -/
def deepMaskOk (s : State) : Prop := s.clk.gateDeep &&& 0xFFF0FFFF = 0x01F0FFFF

/-- The event log holds at most 1,024 entries, its ring in flash at most 64 (R483, R484). -/
def logsBounded (s : State) : Prop := s.obs.log.length ≤ 1024 ∧ s.obs.flashLog.length ≤ 64

/-- A tile that may fill a logical position: it is in service, or FAILED while a cold start has not built the map. -/
def fillsOk (x : Tile) : Prop := x.service = .inService ∨ x.service = .failed

/-- The polder map: no tile fills two logical positions, and none that drains, is tested or stands by fills one (R65–R67). -/
def mapOk (s : State) : Prop :=
  (∀ m n p, m < 16 → n < 16 → physOf s m = some p → physOf s n = some p → m = n) ∧
    ∀ n p, n < 16 → physOf s n = some p → fillsOk (tile s p.val)

/-- The invariant of the module. -/
def Inv (s : State) : Prop := memoryWf s ∧ deepMaskOk s ∧ logsBounded s ∧ mapOk s

/-- No anti-rollback counter is lower in `u` than in `s`; the counters of partial bitstreams, which return to 0 when a region
passes to a new owner, are not among them (R463). -/
def countersKept (s u : State) : Prop := ∀ c, c < 5 ∨ 13 ≤ c → (counter s c).toNat ≤ (counter u c).toNat

/-- The components of the state, the queue aside. -/
inductive Comp where
  | freeCtr | time | tiles | map | pe | peMem | peBad | peTag | seqs | ctxs | mc
  | tenants | lastYield | sp | xm | spBad | xmBad | spFill | xmFill | xmFirst | mem | march | xmCollisions | noc | grouping
  | maxSpeed | cams | fab | field | ses | net | clk | sup | start | ident | obs
  deriving DecidableEq, Repr

/-- Component `c` is the same in `s` and `u`. -/
def sameIn (s u : State) : Comp → Prop
  | .freeCtr => u.freeCtr = s.freeCtr
  | .time => u.time = s.time
  | .tiles => u.tiles = s.tiles
  | .map => u.map = s.map
  | .pe => u.pe = s.pe
  | .peMem => u.peMem = s.peMem
  | .peBad => u.peBad = s.peBad
  | .peTag => u.peTag = s.peTag
  | .seqs => u.seqs = s.seqs
  | .ctxs => u.ctxs = s.ctxs
  | .mc => u.mc = s.mc
  | .tenants => u.tenants = s.tenants
  | .lastYield => u.lastYield = s.lastYield
  | .sp => u.sp = s.sp
  | .xm => u.xm = s.xm
  | .spBad => u.spBad = s.spBad
  | .xmBad => u.xmBad = s.xmBad
  | .spFill => u.spFill = s.spFill
  | .xmFill => u.xmFill = s.xmFill
  | .xmFirst => u.xmFirst = s.xmFirst
  | .mem => u.mem = s.mem
  | .march => u.march = s.march
  | .xmCollisions => u.xmCollisions = s.xmCollisions
  | .noc => u.noc = s.noc
  | .grouping => u.grouping = s.grouping
  | .maxSpeed => u.maxSpeed = s.maxSpeed
  | .cams => u.cams = s.cams
  | .fab => u.fab = s.fab
  | .field => u.field = s.field
  | .ses => u.ses = s.ses
  | .net => u.net = s.net
  | .clk => u.clk = s.clk
  | .sup => u.sup = s.sup
  | .start => u.start = s.start
  | .ident => u.ident = s.ident
  | .obs => u.obs = s.obs

/-- The queue and every component outside `l` are unchanged. -/
def sameBut (l : List Comp) (s u : State) : Prop := u.pending = s.pending ∧ ∀ c, c ∉ l → sameIn s u c

/-! ### Terms for array instructions -/

/-- Sequencer `q` fetches the word `w` as the next instruction of tenant `t`, no trap waits for the boundary, and every byte of the
word has good parity. -/
def fetches (s : State) (t : Tenant) (q : SeqId) (w : DWord) : Prop :=
  aisReady s t = some q ∧ ((sqr s q.val).tl = true ∨ trapWaits s t = false) ∧ fetchAis s t q = (s, some w)

/-- Sequencer `q` runs the next instruction of tenant `t`, the word `w`, to its end: it fetches it, and the instruction after it
lies in the program area. -/
def runsOn (s : State) (t : Tenant) (q : SeqId) (w : DWord) : Prop :=
  fetches s t q w ∧ badTarget s t ((sqr s q.val).pc + 1).toNat = false

/-- The elements of the tenant in the gang width of its sequencer. -/
def elemsOf (s : State) (t : Tenant) (q : SeqId) : List Elem := elems s (gw s q) (ownTiles s t)

/-- PE `k` belongs to the tenant. -/
def ownPe (s : State) (t : Tenant) (k : Nat) : Prop := ∃ p ∈ physTiles s (ownTiles s t), k / 4096 = p.val

/-- Every plane bit outside `wrote` keeps its value, but for the regions that R76 leaves undefined in the tenant's own PEs. -/
def planesKept (s u : State) (t : Tenant) (wrote : Nat → Nat → Prop) : Prop :=
  ∀ k a, a < 4096 → ¬wrote k a → regionOf a = 0 ∨ ¬ownPe s t k → peBit u k a = peBit s k a

/-- The registers of a PE beside its parity latch and its residue units, which dispatch clears (R155). -/
def peRegs (x : PE) : PE := { x with parityErr := false, ra := 0, rb := 0, rr := 0, weight2 := false }

/-- The running order's time grows by `ac` array cycles; nothing else of it changes. -/
def timeRuns (s u : State) (t : Tenant) (ac : Nat) : Prop :=
  runOrder u t = (runOrder s t).map fun o => { o with
    runTicks := o.runTicks + ac * acTicks s t, sinceTicks := o.sinceTicks + ac * acTicks s t }

/-- Sequencer `q` is `x` with the micro registers that R76 leaves undefined (free values) and the instruction in IL, at `pc`;
no other sequencer changes, and no other tenant's state. -/
def seqEnds (s u : State) (t : Tenant) (q : SeqId) (w : DWord) (x : Sequencer) (pc : BitVec 24) : Prop :=
  (∃ n, sqr u q.val = { routineRegs n q.val x with il := w, pc := pc }) ∧
    (∀ r, r ≠ q.val → sqr u r = sqr s r) ∧ (∀ v, v ≠ t → ten u v = ten s v) ∧
    ten u t = { ten s t with orders := (ten u t).orders }

/-- The running order after an instruction that ends: changed by `f`, with `ac` more array cycles of running time. -/
def orderEnds (s u : State) (t : Tenant) (ac : Nat) (f : Order → Order) : Prop :=
  ∀ o, runOrder s t = some o → runOrder u t = some { f o with
    runTicks := (f o).runTicks + ac * acTicks s t, sinceTicks := (f o).sinceTicks + ac * acTicks s t }

/-- The components that an array instruction which ends without a trap can change. -/
def aisComps : List Comp := [.freeCtr, .tiles, .pe, .peMem, .peBad, .peTag, .seqs, .tenants]

/-- An array instruction ends with sequencer `x`, having taken `ac` array cycles, and changes no component but these. -/
def aisEnds (s u : State) (t : Tenant) (q : SeqId) (w : DWord) (x : Sequencer) (ac : Nat) : Prop :=
  seqEnds s u t q w x ((sqr s q.val).pc + 1) ∧ timeRuns s u t ac ∧ sameBut aisComps s u ∧
    ∀ p, tile u p = { tile s p with bermValid := (tile u p).bermValid, reclaimed := (tile u p).reclaimed }

/-- The vector of cause `c` leads to the handler at `v`, in the tenant's program area; every byte of the vector has good parity. -/
def handlerAt (s : State) (t : Tenant) (c v : Nat) : Prop := trapVector s t c = (s, some v) ∧ badTarget s t v = false

/-- A vectored trap of cause `c` is entered from program level: trap level, G1, the handler at `v`, and a frame with the cause, the
PC and the resume PC (R174, R176). -/
def trapEntered (s u : State) (t : Tenant) (q : SeqId) (c v pc resume : Nat) : Prop :=
  (sqr u q.val).tl = true ∧ (sqr u q.val).gw = .g1 ∧ (sqr u q.val).pc = BitVec.ofNat 24 v ∧
    (ten u t).trapCount = satInc (ten s t).trapCount ∧ leAt (xmRead u (trapFrame u t.val) 0x7C) 0 1 = c ∧
    leAt (xmRead u (trapFrame u t.val) 0x7C) 4 4 = pc ∧ leAt (xmRead u (trapFrame u t.val) 0x7C) 12 4 = resume ∧
    ∀ k, ownPe s t k → (pe u k).k = true ∧ (pe u k).c = false

/-- A check stops an instruction at program level: the trap of cause `c` is entered, to resume after it, with no effect on the planes
that R76 keeps and on the scalar registers (R79, R80). -/
def stopped (s u : State) (t : Tenant) (q : SeqId) (c v : Nat) : Prop :=
  trapEntered s u t q c v (sqr s q.val).pc.toNat ((sqr s q.val).pc + 1).toNat ∧ planesKept s u t (fun _ _ => False) ∧
    (sqr u q.val).s = (sqr s q.val).s

/-- What an instruction does to C or F of an active element: nothing, a value in every lane, or a free value. -/
inductive RegEff where
  | same
  | is (v : Bool)
  | free
  deriving DecidableEq, Repr

/-- A bit before and after, under an effect. -/
def RegEff.holds (r : RegEff) (before after : Bool) : Prop :=
  match r with
  | .same => after = before
  | .is v => after = v
  | .free => True

/-- What an instruction with a destination field does: its word, the destination, the source fields, the state in which its
sources are read, and for each active element the value, the sticky flags, C and F. -/
structure FieldInstr where
  cmd : Instr
  word : DWord
  chk : Check
  d : Fld
  srcs : List Fld
  src : State
  val : Elem → Nat
  flags : Elem → Byte
  c : Elem → RegEff
  f : Elem → RegEff
  seqr : Sequencer
  ac : Nat

/-- The write of element `e` is made: it is direct, or every plane of it may be written (R44). -/
def FieldInstr.writes (x : FieldInstr) (g : Nat) (e : Elem) : Bool :=
  !x.d.ind || writable (tile x.src e.tile.val) (x.d.at x.src g e) (x.d.planes g)

/-- Bit `a` of PE `k` lies in the destination of an active element, or in its status byte. -/
def FieldInstr.wrote (x : FieldInstr) (g : Nat) (act : List Elem) (k a : Nat) : Prop :=
  ∃ e ∈ act, (x.writes g e = true ∧ ∃ i, i < x.d.w ∧ k = e.lane g (i % g) ∧ a = (x.d.at x.src g e + i / g) % 4096) ∨
    k = e.lane g 0 ∧ 3056 ≤ a ∧ a < 3064

/-- What the instruction leaves when it ends normally: every active element holds the value in its destination, its flags have been
added to the sticky ones (AV where the write is suppressed), C and F are as said in every lane; where two operands partly overlap and
one is indirect (R75), value, flags, C and F are not said, but no sticky flag is cleared. K, P and every other plane are unchanged. -/
def FieldInstr.leaves (x : FieldInstr) (s : State) (t : Tenant) (q : SeqId) (u : State) : Prop :=
  let g := gw s q
  let act := (elemsOf s t q).filter (active s g)
  aisEnds s u t q x.word x.seqr x.ac ∧
    (∀ e ∈ act,
      (∀ i, i < 8 → peBit x.src (e.lane g 0) (3056 + i) = true ∨ (i = 7 ∧ x.writes g e = false) →
        peBit u (e.lane g 0) (3056 + i) = true) ∧
      (clash s g e (x.d :: x.srcs) = false →
        (x.writes g e = true → readField u g e ⟨false, x.d.at x.src g e, x.d.w⟩ = x.val e % 2 ^ x.d.w) ∧
        (∀ i, i < 8 → peBit u (e.lane g 0) (3056 + i) =
          (peBit x.src (e.lane g 0) (3056 + i) || (x.flags e).getLsbD i || decide (i = 7 ∧ x.writes g e = false))) ∧
        ∀ j, j < g → (x.c e).holds (pe s (e.lane g j)).c (pe u (e.lane g j)).c ∧
          (x.f e).holds (pe s (e.lane g j)).f (pe u (e.lane g j)).f)) ∧
    planesKept x.src u t (x.wrote g act) ∧
    ∀ k, peRegs (pe u k) = { peRegs (pe s k) with c := (pe u k).c, f := (pe u k).f, x := (pe u k).x } ∧
      ((∀ e ∈ act, ∀ j, j < g → k ≠ e.lane g j) → (pe u k).c = (pe s k).c ∧ (pe u k).f = (pe s k).f) ∧
      (¬ownPe s t k → pe u k = pe s k)

/-- The instruction completes where it is fetched and its operands pass the checks; where a check fails it is stopped, with the cause
and the detail of R80. -/
def FieldInstr.completes (x : FieldInstr) (s : State) (t : Tenant) (q : SeqId) : Prop :=
  (runsOn s t q x.word → x.chk = none → ∃ u, exec x.cmd s = .next u ∧ x.leaves s t q u) ∧
    ∀ c d v, fetches s t q x.word → x.chk = some (c, d) → (sqr s q.val).tl = false → handlerAt s t c v →
      ∃ u, exec x.cmd s = .next u ∧ stopped s u t q c v ∧ leAt (xmRead u (trapFrame u t.val) 0x7C) 8 4 = d


/-! ### Terms for microwords -/

/-- Sequencer `q` issues the microword `w` of tenant `t`, and the parity of the word is good. -/
def issues (s : State) (t : Tenant) (q : SeqId) (w : Word) : Prop :=
  let x := sqr s q.val
  microReady s q = some t ∧ SMap.get .none x.wcsBad x.upc.toNat = .none ∧ storeWord x.wcs x.upc.toNat = w

/-- Only sequencer `q` and the running order of tenant `t` are not as before among sequencers and tenants; the order's time
grows by `n` ac. -/
def microRuns (s u : State) (t : Tenant) (q : SeqId) (n : Nat) : Prop :=
  (∀ r, r ≠ q.val → sqr u r = sqr s r) ∧ timeRuns s u t n ∧ (∀ v, v ≠ t → ten u v = ten s v) ∧
    ten u t = { ten s t with orders := (ten u t).orders }

/-- A microword of `n` ac ends with sequencer `x`, which is inside a routine and whose µPC then moves to the next word. -/
def microEnds (s u : State) (t : Tenant) (q : SeqId) (x : Sequencer) (n : Nat) : Prop :=
  sqr u q.val = { nextWord (tickScan n x) with midRoutine := true } ∧ microRuns s u t q n

/-- The result of a scan of the `w`-bit field at an address register: the highest bit index that is 1 in an active element (R156). -/
def isScan (s : State) (t : Tenant) (x : Sequencer) (m : MicroAddr) (w : Nat) (v : BitVec 16) : Prop :=
  let g := x.gw.width
  let has := fun i => ∃ e ∈ elems s g (ownTiles s t), active s g e = true ∧
    peBit s (e.lane g (i % g)) ((m.eff s (e.lane g 0) + i / g) % 4096) = true
  (v = 0xFFFF ∧ ∀ i, i < w → ¬has i) ∨ (v.toNat < w ∧ has v.toNat ∧ ∀ i, v.toNat < i → i < w → ¬has i)

/-! ### Terms for host accesses -/

/-- A write of `n` bytes by session `k` passes steps 1 to 4 of R372 and its initiation, while no tide mark waits and no
DEEP-SLEEP entry is pending. -/
def admitted (s : State) (k : SesId) (index sub n : Nat) : Prop :=
  sesUp s k = true ∧ access s k index sub true = 0 ∧ initCheck s k index sub = 0 ∧
    (∃ r, findRow s k index sub = some r ∧ lengthCheck r n = 0) ∧ s.obs.due = none ∧ s.clk.sleep = .none

/-- The command runs; session `k` has its confirmation, `eff` holds, and only the components in `l` and the sessions change. -/
def accepts (c : Instr) (s : State) (k : SesId) (l : List Comp) (eff : State → Prop) : Prop :=
  ∃ u, exec c s = .next u ∧ (ses u k).reply = some ⟨0, []⟩ ∧ eff u ∧ sameBut (.ses :: l) s u

/-- The command runs; session `k` is answered with an abort code, which its 0x2004 holds (R384), `eff` holds, and only the
components in `l` and the sessions change. -/
def aborts (c : Instr) (s : State) (k : SesId) (code : Word) (l : List Comp) (eff : State → Prop) : Prop :=
  ∃ u, exec c s = .next u ∧ (ses u k).reply = some ⟨code, []⟩ ∧ (ses u k).lastAbort = code ∧ eff u ∧ sameBut (.ses :: l) s u

/-- The command runs, `eff` holds, and only the components in `l` change. -/
def runs (c : Instr) (s : State) (l : List Comp) (eff : State → Prop) : Prop :=
  ∃ u, exec c s = .next u ∧ eff u ∧ sameBut l s u

/-- An entry of the event log with this code, instance and detail A was written, the newest one (R484, R485). -/
def logged (s u : State) (code : Half) (inst a : Nat) : Prop :=
  ∃ e, u.obs.log = (e :: s.obs.log).take 1024 ∧ u.obs.logNewest = s.obs.logNewest + 1 ∧ e.num = s.obs.logNewest + 1 ∧
    e.time = s.time ∧ e.code = code ∧ e.inst = BitVec.ofNat 8 inst ∧ e.a = BitVec.ofNat 32 a

/-- The entries written since `s` include one with this code. -/
def hasLogged (s u : State) (code : Half) : Prop :=
  ∃ l e r, u.obs.log = (l ++ e :: (r ++ s.obs.log)).take 1024 ∧ e.code = code


/-! ### Terms for the network -/

/-- The next packet from `a` to `b` on a channel comes to its end at once: every router switches and the mesh is empty, the receiver
awaits the number `v` and holds no early packet of that order (R264). -/
def flows (s : State) (a b : NiId) (vc : BitVec 2) (v : Byte) : Prop :=
  meshQuiet s = true ∧ v = wanted s (orderKey a b vc) ∧ ∀ f ∈ (ni s b.val).early, ¬(f.src = a ∧ f.dst = b ∧ f.vc = vc)

/-- A request from interface `m` reaches interface `n` (R257, R264, R265, R270): both take part in traffic, the source is open, sends
on this channel, has room, waits for no other request of this TID and holds nothing for the destination; the network is at rest, and no
tide mark waits. -/
def arrives (s : State) (m n : NiId) (p : Pkt) : Prop :=
  let x := ni s m.val
  nocUp s = true ∧ pktSource p = some m ∧ pktDest p = some n ∧ niLive s m = true ∧ niLive s n = true ∧ x.st = .opened ∧
    (requestVcs m).contains p.vc = true ∧ (∀ o ∈ x.out ++ x.held, o.tid ≠ p.tid) ∧ x.out.length + x.held.length < 64 ∧
    holdsFor s m n p.vc = false ∧ flows s m n p.vc (SMap.get 0 s.noc.sn (orderKey m n p.vc)) ∧ s.obs.due = none

/-- Interface `n` has answered request `p` of `m` with a response of this TYPE, status and data (R253, R257, R264). -/
def answersWith (u : State) (m n : NiId) (p : Pkt) (ty : BitVec 4) (status : Half) (data : Bytes → Prop) : Prop :=
  ∃ r ∈ (ni u n.val).sent, r.ty = ty ∧ r.hver = 2 ∧ r.tid = p.tid ∧ r.ten = p.ten ∧ r.status = status ∧ pktDest r = some m ∧
    pktSource r = some n ∧ r.vc = (if p.vc = 2 then 2 else 1) ∧ data r.data

/-- Interface `n` sends `m` the response `p`, the one that it owes under this TID and type where it owes one; the header is good, and the
packet comes to `m` at once. -/
def returns (s : State) (m n : NiId) (p : Pkt) : Prop :=
  nocUp s = true ∧ pktDest p = some m ∧ pktSource p = some n ∧ niLive s m = true ∧ niLive s n = true ∧ pktBad p = false ∧
    (((ni s n.val).sent.find? fun q => decide (q.tid = p.tid ∧ q.ty = p.ty ∧ pktDest q = some m)).getD p) = p ∧
    flows s n m p.vc p.sn ∧ s.obs.due = none

/-- The network takes a control packet (R253, R255): TYPE, VC2, no data. -/
def controls (s : State) (p : Pkt) (ty : BitVec 4) : Prop :=
  nocUp s = true ∧ pktBad p = false ∧ p.ty = ty ∧ p.vc = 2 ∧ p.len = 0 ∧ s.obs.due = none

/-! ### Terms for field channels -/

/-- A channel but for what a fabric edge gives it: OUT, OE and DUTY, the PWM period, and the clearing of a count (R298, R338, R343). -/
def Fc.kept (x : Fc) : Fc := { x with
  out := false, oe := false, duty := 0, pwmRunning := false, pwmNow := 0, dutyNow := 0, pwmFrom := 0, val := if isCounter x.mode then 0 else x.val }

/-- Channels change by `f` and groups by `g`, each under its number; of the fabric and the rest of the field side only what a
fabric edge moves changes. -/
def fieldIs (s u : State) (f : Nat → Fc → Fc) (g : Nat → Group → Group) : Prop :=
  (∀ m, (fch u m).kept = (f m (fch s m)).kept) ∧ (∀ j, grp u j = g j (grp s j)) ∧
    u.field = { s.field with ch := u.field.ch, grp := u.field.grp } ∧
    u.fab = { s.fab with mbData := u.fab.mbData, txFc := u.fab.txFc, txd := u.fab.txd, txOpen := u.fab.txOpen }

/-- `f` on number `n`, no change elsewhere. -/
def onOne {α : Type} (n : Nat) (f : α → α) : Nat → α → α := fun m x => if m = n then f x else x

/-- Nothing changes. -/
def same {α : Type} : Nat → α → α := fun _ x => x

/-- Each tenant of the list whose host session is open, and has had no equal emergency for one second, has this emergency in its
queue (R390, R393). -/
def told (s u : State) (ts : List Tenant) (code : Half) (detail : Bytes) : Prop :=
  let det := (detail ++ List.replicate 5 0).take 5
  ∀ t ∈ ts, (ses s (tenSes t)).isOpen = true →
    (∀ e ∈ (ses s (tenSes t)).recent, e.1 = code → e.2.1 = det.take 3 → e.2.2.toNat + 1000000000 ≤ s.time.toNat) →
    ∃ e ∈ (ses u (tenSes t)).queue, e.code = code ∧ e.detail = det

/-- The order has a record ABORTED with this cause. -/
def abortedWith (u : State) (t : Tenant) (seq : Word) (cause : Byte) : Prop :=
  ∃ r ∈ (ten u t).records ++ (ten u t).unrec, r.seq = seq ∧ r.outcome = 2 ∧ r.cause = cause

end Sys2Proof.Machine
end

