-- ==== Sys2Proof/Certificates/Slice0/Obligations.lean ====
section
/-! DEFINITION. The statements about the module, for the provers. Each docstring names the rules of spec/ that it is about. -/

open Sys2Proof Sys2Proof.Machine

/-- The state after reset meets the invariant. Its register values that the spec does not give are the model's (log 5). -/
def Obligations.ResetMeetsInv : Prop := Inv State.reset

/-- A step runs the command at the front of the queue on the state with the rest of the queue. -/
def Obligations.StepRunsFront : Prop := ∀ (c : Instr) (r : List Instr) (s : State), s.pending = c :: r →
  step s = exec c { s with pending := r }

/-- With no command waiting one microsecond passes (the model's choice, log 3): the device time moves on by 1,000 ns, and no ownership,
number or setting changes hands. During a start and in DEEP-SLEEP nothing else runs. Where no pixel waits, no march runs, the network is at
rest and no fault is due, the WAITs that sequencers hold count and trigger packets have left, and no more changes. -/
def Obligations.IdleStepIsOneMicrosecond : Prop := ∀ s : State, s.pending = [] → ∃ u, step s = .next u ∧
  u.time = s.time + 1000 ∧ u.start = s.start ∧ u.ident = s.ident ∧ u.net = s.net ∧ u.sup = s.sup ∧ u.map = s.map ∧ u.mc = s.mc ∧
  (∀ t, (ten u t).own = (ten s t).own ∧ (ten u t).nextSeq = (ten s t).nextSeq) ∧
  (moduleUp s = false ∨ s.clk.sleep = .entered → sameBut [.time, .field, .xmFirst] s u) ∧
  (moduleUp s = true → s.clk.sleep ≠ .entered → (∀ c, (cam s c).buf = []) → s.march.window = none → meshQuiet s = true →
    (∀ b, (memSt s b).due = false) → s.obs.due = none →
    sameBut [.time, .field, .xmFirst, .seqs, .tenants, .cams] s u ∧ (∀ c, cam u c = { cam s c with trigBusy := false }) ∧
    (∀ t, (ten u t).records = (ten s t).records ∧ (ten u t).orders.map Order.seq = (ten s t).orders.map Order.seq) ∧
    ∀ q : SeqId, sqr u q.val = (match (sqr s q.val).bound, (sqr s q.val).ws with
      | some t, some w => if frozen s then sqr s q.val
        else { sqr s q.val with ws := some (tickWait (usTicks / acTicks s t) w) }
      | _, _ => sqr s q.val))

/-- No command stops the machine: each answers a next state in every state, and none touches the queue, so a step takes exactly the
front of it and adds nothing. -/
def Obligations.EveryCommandAnswers : Prop := ∀ (c : Instr) (s : State),
  ∃ u, exec c s = .next u ∧ u.pending = s.pending

/-- Every step keeps the invariant: memories in canonical form, the fixed bits of GATE_DEEP, the bounds of the log rings and
a polder map in which no tile fills two positions. -/
def Obligations.StepKeepsInv : Prop := ∀ s u : State, Inv s → step s = .next u → Inv u

/-- An anti-rollback counter is only ever raised; those of partial bitstreams aside, which return to 0 with a new owner (R463). -/
def Obligations.CountersNeverDecrease : Prop := ∀ s u : State, step s = .next u → countersKept s u

/-- The three instruction formats lay their fields out as R77 says, and each instruction word of R77 to R102 spells its command, with
every field at every value; no other word spells one. The all-zero word is reserved (R78).
Each microword that the tables of R157–R170 lay out spells its command, with every field at every value. -/
def Obligations.WordsDecode : Prop :=
  ((∀ (t : Tenant) (c : Instr) (w : DWord), aisWord c = some (t, w) ↔ decodeAis t w = some c) ∧ (∀ t, decodeAis t 0 = none) ∧
    (∀ (f : FmtA) (opc fn : Nat), opc < 64 → fn < 32 → let w := wordA f opc fn
      w.extractLsb' 58 6 = BitVec.ofNat 6 opc ∧ w.extractLsb' 53 5 = BitVec.ofNat 5 fn ∧ w.extractLsb' 49 4 = f.modf ∧
        w.extractLsb' 43 6 = f.wm1 ∧ w.getLsbD 42 = f.di ∧ w.getLsbD 41 = f.ai ∧ w.getLsbD 40 = f.bi ∧ w.getLsbD 39 = f.bs ∧
        w.extractLsb' 27 12 = f.db ∧ w.extractLsb' 15 12 = f.ab ∧ w.extractLsb' 3 12 = f.bb ∧ w.extractLsb' 0 3 = f.res) ∧
    (∀ (f : FmtS) (fn : Nat), fn < 32 → let w := wordS f fn
      w.extractLsb' 58 6 = 7 ∧ w.extractLsb' 53 5 = BitVec.ofNat 5 fn ∧ w.extractLsb' 49 4 = f.sd ∧ w.extractLsb' 45 4 = f.sa ∧
        w.extractLsb' 41 4 = f.sb ∧ w.getLsbD 40 = f.im ∧ w.extractLsb' 32 8 = f.res ∧ w.extractLsb' 0 32 = f.imm) ∧
    ∀ (f : FmtJ) (fn : Nat), fn < 32 → let w := wordJ f fn
      w.extractLsb' 58 6 = 8 ∧ w.extractLsb' 53 5 = BitVec.ofNat 5 fn ∧ w.getLsbD 52 = f.ai ∧ w.extractLsb' 40 12 = f.ab ∧
        w.extractLsb' 36 4 = f.sa ∧ w.extractLsb' 32 4 = f.sb ∧ w.extractLsb' 24 8 = f.res ∧ w.extractLsb' 0 24 = f.tgt) ∧
  (∀ q : SeqId,
    (∀ (w : PlaneW) (add : Bool), decodeMicro q (wordPlane w add) = some (if add then .planeAdd q w else .planeLog q w)) ∧
    (∀ dir ls res, decodeMicro q (wordNews dir ls res) = some (.news q dir ls ⟨res, []⟩)) ∧
    (∀ (w : AddrW) (i : Fin 7), decodeMicro q (wordAddr w (BitVec.ofNat 3 i.val)) = addrModes[i.val]?.map fun c => c q w) ∧
    (∀ (w : ScalW) (i : Fin 16), decodeMicro q (wordScal w (BitVec.ofNat 4 i.val)) = scalFns[i.val]?.map fun c => c q w) ∧
    (∀ w : WaitW, decodeMicro q (wordWait w) = some (.wait q w)) ∧
    (∀ (w : BrW) (c : BitVec 3), decodeMicro q (wordBr w c) = (if c = 7 then none else if c = 6 then some (.microRet q { w with cond := c })
      else if c = 5 then some (.microCall q { w with cond := c }) else some (.microBr q { w with cond := c }))) ∧
    (∀ w : LoopW, decodeMicro q (wordLoop w) = some (.loop q w)) ∧ (∀ w : GorW, decodeMicro q (wordGor w) = some (.gor q w)) ∧
    (∀ w : BcastW, decodeMicro q (wordBcast w) = some (.bcast q w)) ∧
    (∀ w : TrapW, decodeMicro q (wordTrapchk w) = some (if w.mode = 3 then .trapchkBoundary q w else .trapchkRaise q w)) ∧
    ∀ (w : ReschkW) (c : BitVec 2), decodeMicro q (wordReschk w c) = (if c = 0 then some (.reschkSum q w)
      else if c = 1 then some (.reschkProd q w) else if c = 2 then some (.reschkClear q w) else none))

/-- LOGIC (R82, R83): bit i of D is TT(A[i], B[i]) for every bit of the field; C, F and K are unchanged.
Shifts within the field and exchanges (R87, R88): the bit of A that the shift brings to each place; the field of the element
s steps away, 0 beyond the array or a disabled culvert (R46). C is free after an in-field shift in G4 and G16. -/
def Obligations.LogicAndShifts : Prop :=
  (∀ (s : State) (t : Tenant) (q : SeqId) (f : FmtA), Inv s →
    let w := width f
    let d : Fld := ⟨f.di, f.db.toNat, w⟩
    let a : Fld := ⟨f.ai, f.ab.toNat, w⟩
    let b := srcB s q f false w
    let g := gw s q
    FieldInstr.completes
      { cmd := .logic t f, word := wordA f 1 0
        chk := Check.first [illegalIf (decide (f.res ≠ 0) || bsBad f), writeCheck s t d g, readCheck a g 1, srcCheck b g 2,
          overlapCheck d a b g]
        d := d, srcs := a :: b.fld?.toList, src := s
        val := fun e => Nat.ofBits fun i : Fin w => f.modf.getLsbD
          (2 * ((readField s g e a).testBit i.val).toNat + ((b.read s g e).testBit i.val).toNat)
        flags := fun _ => 0, c := fun _ => .same, f := fun _ => .same, seqr := sqr s q.val
        ac := ceilDiv w g + 1 + indAc f } s t q) ∧
  (∀ (s : State) (t : Tenant) (q : SeqId) (f : FmtA), Inv s →
    let w := width f
    let n := f.bb.toNat % 256
    let g := gw s q
    let d : Fld := ⟨f.di, f.db.toNat, w⟩
    let a : Fld := ⟨f.ai, f.ab.toNat, w⟩
    let base : Instr → Nat → (Elem → Nat) → RegEff → Nat → FieldInstr := fun c fn v e ac =>
      { cmd := c, word := wordA f 4 fn, chk := shiftChk s t f q, d := d, srcs := [a], src := s, val := v, flags := fun _ => 0
        c := fun _ => e, f := fun _ => .same, seqr := sqr s q.val, ac := ac + indAc f }
    let bits := fun (v : Nat → Nat → Bool) (e : Elem) => Nat.ofBits fun i : Fin w => v (readField s g e a) i.val
    let cE : RegEff := if g = 1 then .same else .free
    let ac := ceilDiv w g + 1 + n % g * ceilDiv w g
    let away := fun (dir : Dir) (e : Elem) => match elemAway s t g dir n e with
      | some x => readField s g x a
      | none => 0
    (base (.shl t f) 0 (bits fun x i => decide (n ≤ i) && x.testBit (i - n)) cE ac).completes s t q ∧
    (base (.shrl t f) 1 (bits fun x i => decide (i + n < w) && x.testBit (i + n)) cE ac).completes s t q ∧
    (base (.shra t f) 2 (bits fun x i => if i + n < w then x.testBit (i + n) else x.testBit (w - 1)) cE ac).completes s t q ∧
    (base (.rol t f) 3 (bits fun x i => x.testBit ((i + w - n % w) % w)) cE ac).completes s t q ∧
    (base (.xn t f) 4 (away .south) .same (ceilDiv w g * (n + 2))).completes s t q ∧
    (base (.xe t f) 5 (away .west) .same (ceilDiv w g * (g * n + 2))).completes s t q ∧
    (base (.xs t f) 6 (away .north) .same (ceilDiv w g * (n + 2))).completes s t q ∧
    (base (.xw t f) 7 (away .east) .same (ceilDiv w g * (g * n + 2))).completes s t q)

/-- KSET, KAND, KOR (R83): K of every element, active or not, from its K and TT(A[0], B[0]). FSET: F of active elements. KALL
and KNOT: K of every element. Every lane of an element takes the same value (R55). Nothing else of a PE changes. -/
def Obligations.ContextResults : Prop := ∀ (s : State) (t : Tenant) (q : SeqId) (f : FmtA), Inv s →
  let g := gw s q
  let tv := fun e : Elem => f.modf.getLsbD (2 * ((readField s g e ⟨f.ai, f.ab.toNat, 1⟩).testBit 0).toNat +
    (((srcB s q f false 1).read s g e).testBit 0).toNat)
  let ends := fun (c : Instr) (fn ac : Nat) (e : State → Prop) => runsOn s t q (wordA f 1 fn) → ∃ u, exec c s = .next u ∧
    aisEnds s u t q (wordA f 1 fn) (sqr s q.val) ac ∧ planesKept s u t (fun _ _ => False) ∧ e u
  let setsK := fun (u : State) (op : Bool → Elem → Bool) =>
    (∀ e ∈ elemsOf s t q, ∀ j, j < g → (pe u (e.lane g j)).k = op (active s g e) e) ∧
    ∀ k, peRegs (pe u k) = { peRegs (pe s k) with k := (pe u k).k } ∧
      (¬ownPe s t k → pe u k = pe s k)
  (bitChk s f q = none →
    ends (.kset t f) 1 (2 + indAc f) (fun u => setsK u fun _ e => tv e) ∧
    ends (.kand t f) 2 (2 + indAc f) (fun u => setsK u fun k e => k && tv e) ∧
    ends (.kor t f) 3 (2 + indAc f) (fun u => setsK u fun k e => k || tv e) ∧
    ends (.fset t f) 6 (2 + indAc f) fun u => (∀ e ∈ elemsOf s t q, active s g e = true → ∀ j, j < g → (pe u (e.lane g j)).f = tv e) ∧
      ∀ k, peRegs (pe u k) = { peRegs (pe s k) with f := (pe u k).f } ∧
        ((∀ e ∈ elemsOf s t q, active s g e = true → ∀ j, j < g → k ≠ e.lane g j) → (pe u k).f = (pe s k).f) ∧
        (¬ownPe s t k → pe u k = pe s k)) ∧
  (f.res = 0 ∧ f.wm1 = 0 ∧ f.modf = 0 ∧ f.db = 0 ∧ f.ab = 0 ∧ f.bb = 0 ∧ f.di = false ∧ f.ai = false ∧ f.bi = false ∧
      f.bs = false →
    ends (.kall t f) 4 1 (fun u => setsK u fun _ _ => true) ∧ ends (.knot t f) 5 1 fun u => setsK u fun k _ => !k)

/-- The integer class (R84, R85): every active element holds the function's value of its sources; after ADD, ADDC, SUB and
SUBB C is the carry and after any other function free; a comparison sets F, a multiplication or division leaves it free. -/
def Obligations.IntegerResults : Prop := ∀ (s : State) (t : Tenant) (q : SeqId) (f : FmtA), Inv s →
  ∀ p ∈ [(Instr.add, 0, IntFn.add), (.addc, 1, .addc), (.sub, 2, .sub), (.subb, 3, .subb), (.mul, 4, .mul),
      (.mulw, 5, .mulw), (.div, 6, .div), (.mod, 7, .mod), (.neg, 8, .neg), (.min, 9, .min), (.max, 10, .max),
      (.cmpeq, 12, .cmpeq), (.cmpne, 13, .cmpne), (.cmplt, 14, .cmplt), (.cmple, 15, .cmple)],
  let fn := p.2.2
  let w := width f
  let g := gw s q
  let a := intA f
  let b := if fn = .neg then .scalar 0 else srcB s q f (f.modf.getLsbD 3) w
  let src := if fn.readsBerm then startBerm s t else s
  let r := fun e => intElem fn (f.modf.getLsbD 3) (f.modf.getLsbD 2) w (readField src g e a) (b.read src g e)
    (pe s (e.lane g 0)).c
  FieldInstr.completes
    { cmd := p.1 t f, word := wordA f 2 p.2.1, chk := intChk s t fn f q, d := intD fn f, srcs := a :: b.fld?.toList, src := src
      val := fun e => (r e).d, flags := fun e => (r e).flags
      c := fun e => if p.2.1 < 4 then .is ((r e).c.getD false) else .free
      f := fun e => if 12 ≤ p.2.1 then .is ((r e).d.testBit 0) else if 4 ≤ p.2.1 ∧ p.2.1 ≤ 7 then .free else .same
      seqr := sqr s q.val
      ac := intAc src g fn (f.modf.getLsbD 3) w b ((elemsOf s t q).filter (active s g)) + indAc f +
        if fn.readsBerm then bermAc s t else 0 } s t q

/-- The integer functions of one element (R84, R85, R111, R112) in ordinary arithmetic, for w-bit operands: a sum, difference,
product or negation that fits is exact; one that does not is reduced modulo 2^w with OV, or under SAT is the nearest bound
with SV; C is the carry out of the top bit of A + B, A + NOT B.
DIV and MOD (R113): a quotient truncated toward zero and a remainder with the sign of A, where they are defined; a zero
divisor sets DZ and gives the bound of A's sign and A itself; the smallest value over −1 sets OV. -/
def Obligations.IntegerFunctions : Prop :=
  (∀ (S sat cin : Bool) (w a b : Nat), 1 ≤ w → w ≤ 64 → a < 2 ^ w → b < 2 ^ w →
    let x := value S w a
    let y := value S w b
    let meets := fun (r : IntRes) (exact : Int) =>
      (minVal S w ≤ exact ∧ exact ≤ maxVal S w → value S w r.d = exact ∧ r.flags = 0) ∧
      (¬(minVal S w ≤ exact ∧ exact ≤ maxVal S w) →
        (sat = false → ((r.d : Int) - exact) % 2 ^ w = 0 ∧ r.d < 2 ^ w ∧ r.flags = flagOV) ∧
        (sat = true → value S w r.d = (if exact < minVal S w then minVal S w else maxVal S w) ∧ r.flags = flagSV))
    meets (intElem .add S sat w a b cin) (x + y) ∧
    meets (intElem .addc S sat w a b cin) (x + y + cin.toNat) ∧
    meets (intElem .sub S sat w a b cin) (x - y) ∧
    meets (intElem .subb S sat w a b cin) (x - y - 1 + cin.toNat) ∧
    meets (intElem .mul S sat w a b cin) (x * y) ∧
    meets (intElem .neg S sat w a b cin) (-x) ∧
    (intElem .add S sat w a b cin).c = some (decide (2 ^ w ≤ a + b)) ∧
    (intElem .addc S sat w a b cin).c = some (decide (2 ^ w ≤ a + b + cin.toNat)) ∧
    (intElem .sub S sat w a b cin).c = some (decide (b ≤ a)) ∧
    (intElem .subb S sat w a b cin).c = some (decide (b + 1 ≤ a + cin.toNat)) ∧
    value S (2 * w) (intElem .mulw S sat w a b cin).d = x * y ∧
    (intElem .min S sat w a b cin).d = (if x ≤ y then a else b) ∧
    (intElem .max S sat w a b cin).d = (if y ≤ x then a else b) ∧
    (intElem .cmpeq S sat w a b cin).d = (if x = y then 1 else 0) ∧
    (intElem .cmpne S sat w a b cin).d = (if x = y then 0 else 1) ∧
    (intElem .cmplt S sat w a b cin).d = (if x < y then 1 else 0) ∧
    (intElem .cmple S sat w a b cin).d = (if x ≤ y then 1 else 0)) ∧
  (∀ (S sat cin : Bool) (w a b : Nat), 1 ≤ w → w ≤ 64 → a < 2 ^ w → b < 2 ^ w →
    let x := value S w a
    let y := value S w b
    let dq := intElem .div S sat w a b cin
    let dr := intElem .mod S sat w a b cin
    (y = 0 → dr.d = a ∧ value S w dq.d = (if x < 0 then minVal S w else maxVal S w) ∧ dq.flags = flagDZ ∧ dr.flags = flagDZ) ∧
    (S = true ∧ x = minVal S w ∧ y = -1 → dq.d = a ∧ dr.d = 0 ∧ dq.flags = flagOV ∧ dr.flags = flagOV) ∧
    (y ≠ 0 → ¬(S = true ∧ x = minVal S w ∧ y = -1) →
      x = value S w dq.d * y + value S w dr.d ∧ (value S w dr.d).natAbs < y.natAbs ∧
        (value S w dr.d = 0 ∨ (value S w dr.d < 0 ↔ x < 0)) ∧ dq.flags = 0 ∧ dr.flags = 0))

/-- The floating-point class (R86, R135): every active element holds the function's value of its sources; C is free, a
comparison sets F and any other function leaves it free; the OR of the flags is on its way to the sequencer. No element calls for
the assist (R138). -/
def Obligations.FloatResults : Prop := ∀ (s : State) (t : Tenant) (q : SeqId) (f : FmtA), Inv s →
  ∀ p ∈ [(Instr.fadd, 0, FpFn.fadd), (.fsub, 1, .fsub), (.fmul, 2, .fmul), (.fdiv, 3, .fdiv), (.fma, 4, .fma),
      (.fsqrt, 5, .fsqrt), (.fmin, 6, .fmin), (.fmax, 7, .fmax), (.fcmpeq, 8, .fcmpeq), (.fcmplt, 9, .fcmplt),
      (.fcmple, 10, .fcmple), (.fcvt, 11, .fcvt), (.fcvti, 12, .fcvti), (.fcvtf, 13, .fcvtf), (.fneg, 14, .fneg),
      (.fabs, 15, .fabs)],
  let fn := p.2.2
  let g := gw s q
  let b := fpB s fn f q
  let src := if fn = .fdiv then startBerm s t else s
  let act := (elemsOf s t q).filter (active s g)
  let tm := trapModeOn s t q
  let r := fun e => (fpAt src g fn f tm b e).1
  let srcs := fpA fn f :: b.fld?.toList
  let fl := fun e => overlapFlags s g e (fpD fn f :: srcs) (if fn = .fneg ∨ fn = .fabs then 0 else 0x1F) (r e).flags
  (∀ e ∈ act, (fpAt src g fn f tm b e).2 = false) →
  FieldInstr.completes
    { cmd := p.1 t f, word := wordA f 3 p.2.1, chk := fpChk s t fn f q, d := fpD fn f, srcs := srcs
      src := src, val := fun e => (r e).d, flags := fun e => (r e).flags, c := fun _ => .free
      f := fun e => if 8 ≤ p.2.1 ∧ p.2.1 ≤ 10 then .is ((r e).d.testBit 0) else .free
      seqr := { sqr s q.val with flagOrs := (sqr s q.val).flagOrs ++
        [⟨(act.foldl (fun m e => m ||| fl e) 0#8).truncate 5, (sqr s q.val).pc, (sqr s q.val).tl⟩] }
      ac := fpTime fn (fpPar f) g (fpParams src g fn f tm b act) + indAc f + if fn = .fdiv then bermAc s t else 0 } s t q

/-- A floating-point function whose active element calls for the assist leaves its destination and takes cause 3 (R138, R174). -/
def Obligations.FloatAssistTraps : Prop := ∀ (s : State) (t : Tenant) (q : SeqId) (f : FmtA) (v : Nat), Inv s →
  (sqr s q.val).tl = false → handlerAt s t 3 v →
  ∀ p ∈ [(Instr.fadd, 0, FpFn.fadd), (.fsub, 1, .fsub), (.fmul, 2, .fmul), (.fma, 4, .fma), (.fsqrt, 5, .fsqrt),
      (.fcvt, 11, .fcvt)],
  let fn := p.2.2
  fetches s t q (wordA f 3 p.2.1) → fpChk s t fn f q = none →
  (∃ e ∈ (elemsOf s t q).filter (active s (gw s q)), (fpAt s (gw s q) fn f (trapModeOn s t q) (fpB s fn f q) e).2 = true) →
  ∃ u, exec (p.1 t f) s = .next u ∧ trapEntered s u t q 3 v (sqr s q.val).pc.toNat ((sqr s q.val).pc + 1).toNat ∧
    xmRead u (trapFrame u t.val) 4 = [3, 0, 0, 2] ∧
    ∀ k a, ownPe s t k → a < 2304 → peBit u k a = peBit s k a

/-- RANY, RMAX, RMIN and RSUM (R89–R92): the scalar register named by DB takes the tile vector with the device result, the
extreme or the sum over the active PEs; the other scalar registers, K, C, P and every defined plane keep their values. -/
def Obligations.ReductionResults : Prop := ∀ (s : State) (t : Tenant) (q : SeqId) (f : FmtA), Inv s →
  let w := width f
  let g := gw s q
  let S := f.modf.getLsbD 3
  let a : Fld := ⟨f.ai, f.ab.toNat, w⟩
  let act := fun (l : List Nat) => (elems s g l).filter (active s g)
  let vals := (act (ownTiles s t)).map fun e => value S w (readField s g e a)
  let sum := fun (l : List Nat) => ((act l).map fun e => readField s g e a).sum
  let ends := fun (c : Instr) (fn ac : Nat) (v : Word → Prop) => runsOn s t q (wordA f 5 fn) → ∃ u r, v r ∧
    exec c s = .next u ∧ aisEnds s u t q (wordA f 5 fn) { sqr s q.val with s := SMap.set 0 (sqr s q.val).s f.db.toNat r } (ac + indAc f) ∧
    planesKept s u t (fun _ _ => False) ∧ ∀ k, peRegs (pe u k) = { peRegs (pe s k) with f := (pe u k).f } ∧
      (¬ownPe s t k → pe u k = pe s k)
  (redChk s f (decide (f.wm1 ≠ 0)) false q = none →
    ends (.rany t f) 0 14 fun v =>
      (∀ n, n < 16 → (v.getLsbD n = true ↔ ∃ e ∈ act (ownTiles s t), e.lt = n ∧ (readField s g e a).testBit 0 = true)) ∧
      (v.getLsbD 16 = true ↔ ∃ e ∈ act (ownTiles s t), (readField s g e a).testBit 0 = true) ∧ v.toNat < 2 ^ 17) ∧
  (redChk s f (decide (32 < w)) true q = none →
    (ends (.rmax t f) 1 (3 + 15 * w) fun v => ∃ x : Int, v = BitVec.ofInt 32 x ∧
      (vals = [] → x = minVal S w) ∧ (vals ≠ [] → x ∈ vals ∧ ∀ y ∈ vals, y ≤ x)) ∧
    ends (.rmin t f) 2 (3 + 15 * w) fun v => ∃ x : Int, v = BitVec.ofInt 32 x ∧
      (vals = [] → x = maxVal S w) ∧ (vals ≠ [] → x ∈ vals ∧ ∀ y ∈ vals, x ≤ y)) ∧
  (redChk s f (decide (16 < w) || S) true q = none →
    (isDual s t = true → sum (progTiles s t) = sum (halfB s t)) →
    ends (.rsum t f) 3 (163 * w + 744) fun v => v = BitVec.ofNat 32 (sum (progTiles s t)))

/-- PLD, PADD and PST (R93): P ← A << k, P ← P + (A << k), both mod 4,096, in every lane of an active element; D ← P.
The scalar class (R94): SD takes the function of SA and B, B being SB or IMM; SLDA reads the argument block, from a copy that can
be read, and SGETT the trap frame. The other scalar registers, the PEs and every defined plane are unchanged. -/
def Obligations.PointersAndScalars : Prop :=
  (∀ (s : State) (t : Tenant) (q : SeqId) (f : FmtA), Inv s →
    let w := width f
    let g := gw s q
    let a : Fld := ⟨f.ai, f.ab.toNat, w⟩
    let d : Fld := ⟨f.di, f.db.toNat, w⟩
    let sets := fun (c : Instr) (fn ac : Nat) (v : Elem → Nat) => runsOn s t q (wordA f 6 fn) → ∃ u, exec c s = .next u ∧
      aisEnds s u t q (wordA f 6 fn) (sqr s q.val) (ac + indAc f) ∧ planesKept s u t (fun _ _ => False) ∧
      (∀ e ∈ elemsOf s t q, active s g e = true → ∀ j, j < g → (pe u (e.lane g j)).p.toNat = v e % 4096) ∧
      ∀ k, peRegs (pe u k) = { peRegs (pe s k) with p := (pe u k).p } ∧
        ((∀ e ∈ elemsOf s t q, active s g e = true → ∀ j, j < g → k ≠ e.lane g j) → (pe u k).p = (pe s k).p) ∧
        (¬ownPe s t k → pe u k = pe s k)
    (f.res = 0 → f.modf.toNat < 12 → f.db = 0 → f.bb = 0 → w ≤ 12 → f.di = false → f.bi = false → f.bs = false →
      readCheck a g 1 = none →
      sets (.pld t f) 0 (ceilDiv w g + 2) (fun e => readField s g e a * 2 ^ f.modf.toNat) ∧
      sets (.padd t f) 1 14 (fun e => (pe s (e.lane g 0)).p.toNat + readField s g e a * 2 ^ f.modf.toNat)) ∧
    FieldInstr.completes
      { cmd := .pst t f, word := wordA f 6 2
        chk := Check.first [illegalIf (decide (f.res ≠ 0 ∨ f.modf ≠ 0 ∨ f.ab ≠ 0 ∨ f.bb ≠ 0 ∨ w < 12) || f.ai || f.bi || f.bs),
          writeCheck s t d g]
        d := d, srcs := [], src := s, val := fun e => (pe s (e.lane g 0)).p.toNat, flags := fun _ => 0, c := fun _ => .same
        f := fun _ => .same, seqr := sqr s q.val, ac := ceilDiv w g + 2 + indAc f } s t q) ∧
  (∀ (s : State) (t : Tenant) (q : SeqId) (f : FmtS), f.res = 0 →
    let x := sreg s q.val f.sa.toNat
    let y := if f.im then f.imm else sreg s q.val f.sb.toNat
    let sets := fun (l : List Comp) (c : Instr) (fn ac : Nat) (v : Word) => runsOn s t q (wordS f fn) → ∃ u, exec c s = .next u ∧
      seqEnds s u t q (wordS f fn) { sqr s q.val with s := SMap.set 0 (sqr s q.val).s f.sd.toNat v } ((sqr s q.val).pc + 1) ∧
      timeRuns s u t ac ∧ sreg u q.val f.sd.toNat = v ∧ (∀ i, i ≠ f.sd.toNat → sreg u q.val i = sreg s q.val i) ∧
      sameBut ([.freeCtr, .pe, .peTag, .seqs, .tenants] ++ l) s u ∧ planesKept s u t (fun _ _ => False) ∧
      ∀ k, peRegs (pe u k) = peRegs (pe s k) ∧ (¬ownPe s t k → pe u k = pe s k)
    ((if f.im then f.sb = 0 else f.imm = 0) →
      sets [] (.sadd t f) 0 1 (x + y) ∧ sets [] (.ssub t f) 1 1 (x - y) ∧ sets [] (.sand t f) 2 1 (x &&& y) ∧
      sets [] (.sor t f) 3 1 (x ||| y) ∧ sets [] (.sxor t f) 4 1 (x ^^^ y) ∧ sets [] (.sshl t f) 5 1 (x <<< (y.toNat % 32)) ∧
      sets [] (.sshr t f) 6 1 (x >>> (y.toNat % 32)) ∧ sets [] (.ssra t f) 7 1 (x.sshiftRight (y.toNat % 32))) ∧
    (f.sa = 0 → f.sb = 0 →
      (f.im = true → sets [] (.sli t f) 8 1 f.imm) ∧
      (∀ o, runOrder s t = some o → f.imm.toNat % 4 = 0 → f.imm.toNat + 4 ≤ o.args.length →
        (areaUp s t 4 = true ∧ areaHit s t 4 = false ∨ areaUp s t 5 = true ∧ areaHit s t 5 = false) →
        sets [.mem, .obs] (.slda t f) 9 6 (BitVec.ofNat 32 (leAt o.args f.imm.toNat 4))) ∧
      ((sqr s q.val).tl = true → f.imm.toNat ≤ 3 → xmBadAt s (trapFrame s t.val) 16 = false →
        sets [] (.sgett t f) 10 1 (BitVec.ofNat 32
          (leAt (xmRead s (trapFrame s t.val) 16) (4 * f.imm.toNat) (if f.imm = 0 then 1 else 4))))))

/-- The branch class (R95): whether the condition holds or not the time is the same; a taken branch sets the PC to the target,
one not taken to the next word; DBNZ writes its counter and CALL S15 in either case. The targets lie in the program area. -/
def Obligations.BranchResults : Prop := ∀ (s : State) (t : Tenant) (q : SeqId) (f : FmtJ), Inv s →
  let a := sreg s q.val f.sa.toNat
  let b := sreg s q.val f.sb.toNat
  let x := sqr s q.val
  let g := gw s q
  let goes := fun (c : Instr) (fn ac : Nat) (x' : Sequencer) (taken : Bool) (tgt : Nat) =>
    runsOn s t q (wordJ f fn) → badTarget s t tgt = false → ∃ u, exec c s = .next u ∧
      seqEnds s u t q (wordJ f fn) x' (if taken then BitVec.ofNat 24 tgt else x.pc + 1) ∧ timeRuns s u t ac ∧
      planesKept s u t (fun _ _ => False) ∧ (∀ k, peRegs (pe u k) = { peRegs (pe s k) with f := (pe u k).f }) ∧
      (∀ k, ¬ownPe s t k → pe u k = pe s k) ∧ sameBut [.freeCtr, .pe, .peTag, .seqs, .tenants] s u
  let test := decide (∃ e ∈ elemsOf s t q, active s g e = true ∧ (readField s g e ⟨f.ai, f.ab.toNat, 1⟩).testBit 0 = true)
  let tgt := f.tgt.toNat
  let dec : Sequencer := { x with s := SMap.set 0 x.s f.sa.toNat (a - 1) }
  let link : Sequencer := { x with s := SMap.set 0 x.s 15 ((x.pc + 1).zeroExtend 32) }
  (brBad f false false false true = false → goes (.br t f) 0 2 x true tgt) ∧
  (brBad f true false false true = false →
    goes (.bany t f) 1 (15 + f.ai.toNat) x test tgt ∧ goes (.bnone t f) 2 (15 + f.ai.toNat) x (!test) tgt) ∧
  (brBad f false true true true = false →
    goes (.beq t f) 3 2 x (decide (a = b)) tgt ∧ goes (.bne t f) 4 2 x (decide (a ≠ b)) tgt ∧
    goes (.blt t f) 5 2 x (decide (a.toInt < b.toInt)) tgt ∧ goes (.bltu t f) 6 2 x (decide (a.toNat < b.toNat)) tgt) ∧
  (brBad f false true false true = false → goes (.dbnz t f) 7 2 dec (decide (a - 1 ≠ 0)) tgt) ∧
  (brBad f false false false true = false → goes (.call t f) 8 2 link true tgt) ∧
  (brBad f false false false false = false →
    goes (.ret t f) 9 2 x true ((sreg s q.val 15).toNat % 2 ^ 24))

/-- FBAR (R98): the flag ORs of earlier instructions are in FSUM and none is in flight; where none of them makes a trap
pending the PC moves on after 14 ac, and nothing else of the PEs changes.
Waits of the control and binding classes (R100, R102, R202): an event or a binding whose level holds ends WAITEV or INWAIT at once
with status 0, which is journaled; one that does not is held by the sequencer; an outcome in the journal is taken without waiting.
The end of a held wait of WAITEV or INWAIT (R100, R102, R163, R202): its limit gives status 1, its level, edge or timer status 0;
the status is journaled, and the instruction after it is next. -/
def Obligations.FlagBarrierAndWaits : Prop :=
  (∀ (s : State) (t : Tenant) (q : SeqId) (f : FmtA), runsOn s t q (wordA f 9 1) →
    ctlBad f 1 1 1 1 = false → (sqr s q.val).tl = true ∨ trapWaits (drainFlags s t q) t = false →
    ∃ u, exec (.fbar t f) s = .next u ∧
      seqEnds s u t q (wordA f 9 1) { sqr s q.val with flagOrs := [] } ((sqr s q.val).pc + 1) ∧
      orderEnds s u t 14 (fun o => { o with fsum := (sqr s q.val).flagOrs.foldl (fun m x => m ||| x.flags) o.fsum }) ∧
      planesKept s u t (fun _ _ => False) ∧ (∀ k, peRegs (pe u k) = peRegs (pe s k)) ∧
      sameBut [.freeCtr, .pe, .peTag, .seqs, .ctxs, .tenants] s u) ∧
  (∀ (s : State) (t : Tenant) (q : SeqId) (f : FmtA) (o : Order), runOrder s t = some o →
    let waits := fun (c : Instr) (w : DWord) (r : Nat) (level : Bool) (x : Wait) => runsOn s t q w →
      let ends := fun (v : Word) (g : Order → Order) => ∃ u, exec c s = .next u ∧
        seqEnds s u t q w { sqr s q.val with ws := none, s := SMap.set 0 (sqr s q.val).s r v } ((sqr s q.val).pc + 1) ∧
        orderEnds s u t 3 g ∧ planesKept s u t (fun _ _ => False) ∧ (∀ k, peRegs (pe u k) = peRegs (pe s k)) ∧
        sameBut [.freeCtr, .pe, .peTag, .seqs, .tenants, .xm, .xmFill] s u
      (∀ v l, o.replay = v :: l → ends v fun o => { o with replay := l }) ∧
      (o.replay = [] → level = true → ends 0 fun o => { o with journal := o.journal ++ [0] }) ∧
      (o.replay = [] → level = false → ∃ u, exec c s = .next u ∧ (sqr u q.val).ws = some x ∧ (sqr u q.val).il = w ∧
        (sqr u q.val).pc = (sqr s q.val).pc ∧ (sqr u q.val).s = (sqr s q.val).s ∧ (∀ r, r ≠ q.val → sqr u r = sqr s r) ∧
        (∀ k, peRegs (pe u k) = peRegs (pe s k)) ∧ sameBut [.pe, .peTag, .seqs] s u)
    let ev := f.ab.toNat
    let landed := fun (b : Nat) => ((o.ins[b]?).map InBind.landed).getD false
    let limit := sreg s q.val f.bb.toNat
    (∀ (c : BitVec 3) (i : BitVec 12), ctlBad f 16 256 16 1 = false → eventHeld s t ev = true → eventCond ev = some (c, i) →
      waits (.waitev t f) (wordA f 9 2) f.db.toNat
        (if ev < 0x40 then SMap.get false s.fab.lineLevel ev else if ev < 0x42 then false
          else if ev = 0x42 then decide (limit = 0) else landed (ev - 0x48))
        ⟨c, i, true, 0, 0, false, false, some ⟨f.db.truncate 4, limit, decide (ev = 0x42)⟩⟩) ∧
    (∀ i, ctlBad f 16 16 8 1 = false → o.ins[f.bb.toNat]? = some i → i.arm.isSome = true →
      waits (.inwait t f) (wordA f 10 1) f.db.toNat i.landed
        ⟨1, BitVec.ofNat 12 f.bb.toNat, true, 0, 0, false, false, some ⟨f.db.truncate 4, sreg s q.val f.ab.toNat, false⟩⟩)) ∧
  (∀ (s : State) (t : Tenant) (q : SeqId) (w : Wait) (a : AisWait),
    (sqr s q.val).bound = some t → (sqr s q.val).ws = some w → w.ais = some a → frozen s = false →
    badTarget s t ((sqr s q.val).pc + 1).toNat = false → (sqr s q.val).tl = true ∨ trapWaits s t = false →
    let ends := fun (c : Instr) (v : Word) => ∃ u, exec c s = .next u ∧
      (∃ n, sqr u q.val = { routineRegs n q.val { sqr s q.val with
        ws := none, s := SMap.set 0 (sqr s q.val).s a.statusReg.toNat v } with pc := (sqr s q.val).pc + 1 }) ∧
      orderEnds s u t 3 (fun o => { o with journal := o.journal ++ [v] }) ∧
      planesKept s u t (fun _ _ => False) ∧ (∀ k, pe u k = pe s k) ∧
      sameBut [.freeCtr, .peTag, .seqs, .tenants, .xm, .xmFill] s u
    (a.timer = false → a.limit ≠ 0 → a.limit ≤ w.usCount → ends (.waitevLimitExpired q) 1) ∧
    (waitMet s t q w = true → (sqr s q.val).service = .inService → ends (.waitConditionMet q) 0))

/-- TRAP (R96, R174, R176): at program level the frame holds cause 16 + code, the PC and the resume PC, and the handler starts
in G1 with K 1 and C 0 in every PE of the tenant, whose values the trap save slot holds. RTT (R177) restores K, C, F, X and P and
resumes at the frame's PC in its gang width.
FTEN (R99, R139, R147): in a large tenant the enables and the mode go into its trap context, taken from the free ones where
it holds none; in any tenant an FTEN of 0 gives the context that it holds back, here with no re-execution waiting for one. The
checkpoint takes the enables, the mode and FSUM.
A reserved OPC or FN at program level is an illegal instruction with no effect (R78, R79), whichever instruction is commanded. A
command whose word is not the one at the PC changes nothing (the model's choice, log 1). -/
def Obligations.TrapsOfOrders : Prop :=
  (∀ (s : State) (t : Tenant) (q : SeqId) (f : FmtA) (v : Nat), Inv s →
    (fetches s t q (wordA f 9 3) → ctlBad f 1 16 1 1 = false → (sqr s q.val).tl = false → handlerAt s t (16 + f.ab.toNat) v →
      ∃ u, exec (.trap t f) s = .next u ∧
        trapEntered s u t q (16 + f.ab.toNat) v (sqr s q.val).pc.toNat ((sqr s q.val).pc + 1).toNat ∧
        (∀ k, ownPe s t k → peBit u k 2680 = (pe s k).c ∧ peBit u k 2681 = (pe s k).k ∧ peBit u k 2683 = (pe s k).f ∧
          (∀ i, i < 12 → peBit u k (2684 + i) = (pe s k).p.getLsbD i) ∧ ∀ a, a < 2304 → peBit u k a = peBit s k a) ∧
        ∀ k, ¬ownPe s t k → pe u k = pe s k ∧ ∀ a, a < 4096 → peBit u k a = peBit s k a) ∧
    (fetches s t q (wordA f 9 8) → ctlBad f 1 1 1 1 = false → (sqr s q.val).tl = true → trapWaits s t = false →
      xmBadAt s (trapFrame s t.val) 0x7C = false →
      let fr := xmRead s (trapFrame s t.val) 0x7C
      badTarget s t (leAt fr 12 4 % 2 ^ 24) = false →
      ∃ u, exec (.rtt t f) s = .next u ∧ (sqr u q.val).tl = false ∧ (sqr u q.val).pc = BitVec.ofNat 24 (leAt fr 12 4) ∧
        (sqr u q.val).gw = layoutOf (leAt fr 0x1C 4 % 4) ∧ (sqr u q.val).s = (sqr s q.val).s ∧ timeRuns s u t 32 ∧
        (∀ k, ownPe s t k → (pe u k).c = peBit s k 2680 ∧ (pe u k).k = peBit s k 2681 ∧ peX u k = peBit s k 2682 ∧
          (pe u k).f = peBit s k 2683 ∧ (∀ i, i < 12 → (pe u k).p.getLsbD i = peBit s k (2684 + i)) ∧
          ∀ a, a < 2304 → peBit u k a = peBit s k a) ∧
        ∀ k, ¬ownPe s t k → pe u k = pe s k)) ∧
  (∀ (s : State) (t : Tenant) (q : SeqId) (f : FmtA) (o : Order), runsOn s t q (wordA f 9 7) →
    runOrder s t = some o → ctlBad f 1 64 1 1 = false →
    let en : BitVec 5 := f.ab.truncate 5
    let tm := f.ab.getLsbD 5
    let ends := fun (e : State → Prop) => ∃ u, exec (.ften t f) s = .next u ∧ e u ∧
      seqEnds s u t q (wordA f 9 7) (sqr s q.val) ((sqr s q.val).pc + 1) ∧
      orderEnds s u t 2 (fun o => { o with ckpt := o.ckpt.map fun c => { c with fsum := o.fsum, enables := en, trapMode := tm } }) ∧
      (∀ k, peRegs (pe u k) = peRegs (pe s k)) ∧ planesKept s u t (fun _ _ => False) ∧
      sameBut [.freeCtr, .pe, .peTag, .seqs, .ctxs, .tenants] s u
    (o.large = true → (en ≠ 0 ∨ tm = true) → ∀ k, heldCtx s t = some k ∨ heldCtx s t = none ∧ freeCtx s = some k →
      pendingCtx s t = none → ends fun u => (ctx u k.val).st = .held t ∧ (ctx u k.val).enables = en ∧
        (ctx u k.val).trapMode = tm ∧ ∀ i, i ≠ k.val → ctx u i = ctx s i) ∧
    (en = 0 → tm = false → heldCtx s t = none → ends fun u => ∀ i, ctx u i = ctx s i) ∧
    (en = 0 → tm = false → ∀ k, heldCtx s t = some k → (∀ v p, runOrder s v = some p → p.reexec = false) →
      ends fun u => ctx u k.val = TrapCtx.initial ∧ ∀ i, i ≠ k.val → ctx u i = ctx s i)) ∧
  (∀ (s : State) (t : Tenant) (q : SeqId) (c : Instr) (w v : DWord) (h : Nat),
    aisWord c = some (t, w) → fetches s t q v →
    (reservedWord v = true → (sqr s q.val).tl = false → handlerAt s t 0 h → ∃ u, exec c s = .next u ∧ stopped s u t q 0 h) ∧
    (reservedWord v = false → v ≠ w → ∃ u, exec c s = .next u ∧ u = s))

/-- GANG (R59, R96): the width MODF names, with X and every plane as before; a change clears C in every PE of the tenant and gives every
lane of a slice the K of its lane 0. BRCLM (R40, R42): the berm is the tenant's. FCLR (R37): the masked status bits of active PEs
are 0. -/
def Obligations.GangBermFlags : Prop := ∀ (s : State) (t : Tenant) (q : SeqId) (f : FmtA), Inv s →
  let ends := fun (u : State) (fn ac : Nat) => seqEnds s u t q (wordA f 9 fn) (sqr s q.val) ((sqr s q.val).pc + 1) ∧
    timeRuns s u t ac ∧ sameBut aisComps s u ∧ ∀ k, peRegs (pe u k) = peRegs (pe s k)
  (runsOn s t q (wordA f 9 4) → ctlBad f 1 1 1 3 = false →
    let g := layoutOf f.modf.toNat
    ∃ u, exec (.gang t f) s = .next u ∧ (sqr u q.val).gw = g ∧ (sqr u q.val).pc = (sqr s q.val).pc + 1 ∧
      (sqr u q.val).s = (sqr s q.val).s ∧ (sqr u q.val).tl = (sqr s q.val).tl ∧ (∀ r, r ≠ q.val → sqr u r = sqr s r) ∧
      (∀ k a, peBit u k a = peBit s k a) ∧ (∀ k, peX u k = peX s k) ∧ (∀ k, ¬ownPe s t k → pe u k = pe s k) ∧
      sameBut [.pe, .peTag, .seqs, .tenants] s u ∧
      ((sqr s q.val).gw = g → timeRuns s u t 1 ∧ ∀ k, peRegs (pe u k) = peRegs (pe s k)) ∧
      ((sqr s q.val).gw ≠ g → timeRuns s u t 4 ∧ ∀ e ∈ elems s g.width (ownTiles s t), ∀ j, j < g.width →
        peRegs (pe u (e.lane g.width j)) =
          { peRegs (pe s (e.lane g.width j)) with c := false, k := (pe s (e.lane g.width 0)).k })) ∧
  (runsOn s t q (wordA f 9 5) → ctlBad f 1 1 1 1 = false →
    ∃ u, exec (.brclm t f) s = .next u ∧ ends u 5 1 ∧ planesKept s u t (fun _ _ => False) ∧
      ∀ p, p < 17 → tile u p = if p ∈ (physTiles s (ownTiles s t)).map Fin.val then
        { tile s p with reclaimed := true, bermValid := false } else tile s p) ∧
  (runsOn s t q (wordA f 9 6) → ctlBad f 1 256 1 1 = false →
    let act := (elemsOf s t q).filter (active s (gw s q))
    let cleared := fun k a => 3056 ≤ a ∧ a < 3064 ∧ f.ab.getLsbD (a - 3056) = true ∧
      ∃ e ∈ act, ∃ j, j < gw s q ∧ k = e.lane (gw s q) j
    ∃ u, exec (.fclr t f) s = .next u ∧ ends u 6 2 ∧ (∀ p, tile u p = tile s p) ∧ planesKept s u t cleared ∧
      ∀ k a, cleared k a → peBit u k a = false)

/-- CKPT (R97, R198): with the flag ORs of earlier instructions taken, the order's checkpoint holds the next PC, S0–S15, the
gang width, C and K of every PE and the live planes; the journal is emptied and the time since the last checkpoint starts anew.
END (R101, R203, R204): with the flag ORs taken, the order leaves the queue with a record of outcome 1 (committed), which
carries its number and FSUM; the staged outputs of both halves of a CHECKED-DUAL order agree. -/
def Obligations.CheckpointAndEnd : Prop :=
  (∀ (s : State) (t : Tenant) (q : SeqId) (f : FmtA) (o : Order), Inv s →
    runsOn s t q (wordA f 9 0) → runOrder s t = some o → (sqr s q.val).tl = true ∨ trapWaits (drainFlags s t q) t = false →
    let lb := f.db.toNat
    let len := f.ab.toNat
    ctlBad f 4096 4096 1 1 = false → liveOk s t lb len = true → (isDual s t = true → halvesAgree s t lb len = true) →
    (∃ r, (ten s t).own = some r ∧ len ≤ r.maxLive) →
    ∃ u k, exec (.ckpt t f) s = .next u ∧
      (∃ n, sqr u q.val = { routineRegs n q.val { sqr s q.val with flagOrs := [], regError := false } with
        il := wordA f 9 0, pc := (sqr s q.val).pc + 1 }) ∧
      (∃ o', runOrder u t = some o' ∧ o'.ckpt = some k ∧ o'.journal = [] ∧ o'.sinceTicks = 0 ∧ o'.seq = o.seq ∧
        o'.runTicks = o.runTicks + (24 + 16 * (len + 2)) * acTicks s t ∧ o'.staged = o.staged ∧ o'.ins = o.ins ∧ k.fsum = o'.fsum) ∧
      k.pc = (sqr s q.val).pc + 1 ∧ k.s = (sqr s q.val).s ∧ k.gw = (sqr s q.val).gw ∧ k.lb = lb ∧ k.len = len ∧
      k.staged = o.staged.length ∧ k.copyA = areaUp s t 2 ∧ k.copyB = areaUp s t 3 ∧
      (∀ n ∈ ownTiles s t, ∀ p, physOf s n = some p → ∀ i, i < 4096 →
        SMap.get (false, true) k.regs (n * 4096 + i) = ((pe s (p.val * 4096 + i)).c, (pe s (p.val * 4096 + i)).k) ∧
        ∀ j, j < len → SMap.get false k.live ((n * 4096 + i) * 4096 + lb + j) = peBit s (p.val * 4096 + i) (lb + j)) ∧
      planesKept s u t (fun _ _ => False) ∧ (∀ k, peRegs (pe u k) = peRegs (pe s k)) ∧
      sameBut [.freeCtr, .tiles, .pe, .peTag, .seqs, .ctxs, .tenants, .sp, .spFill, .xm, .xmFill] s u) ∧
  (∀ (s : State) (t : Tenant) (q : SeqId) (f : FmtA) (o : Order),
    fetches s t q (wordA f 9 9) → runOrder s t = some o → ctlBad f 1 1 1 1 = false → (sqr s q.val).tl = false →
    trapWaits (drainFlags s t q) t = false → (isDual s t = true → ∀ w ∈ o.staged, w.data = w.dataB) →
    ∃ u r, exec (.endOrder t f) s = .next u ∧ r ∈ (ten u t).records ++ (ten u t).unrec ∧ r.seq = o.seq ∧ r.outcome = 1 ∧
      r.cause = 0 ∧ r.flags.truncate 5 = (sqr s q.val).flagOrs.foldl (fun m x => m ||| x.flags) o.fsum ∧
      (∀ p ∈ (ten u t).orders, p.seq ≠ o.seq) ∧
      (ten u t).fsumLast = (sqr s q.val).flagOrs.foldl (fun m x => m ||| x.flags) o.fsum)

/-- Output bindings (R102, R103): OUTP, OUTS and OUTF stage what they name for their binding and change nothing outside the order but
the copies of it that the device keeps in RETA and RETB; nothing reaches a destination before the commit.
INARM (R102, R287): a binding that fits is armed at DB in the layout of MODF, or in scratchpad where its connection lands there; one
that reads a scratchpad region has its data from then on (R197). The instruction takes 4 ac. -/
def Obligations.BindingsOfOrders : Prop :=
  (∀ (s : State) (t : Tenant) (q : SeqId) (f : FmtA) (o : Order) (x : OutBind),
    Inv s → runOrder s t = some o → o.outs[f.bb.toNat]? = some x → f.bb.toNat < 8 →
    let b := f.bb.toNat
    let r := (sreg s q.val f.ab.toNat).toNat
    let a : Fld := ⟨f.ai, f.ab.toNat, width f⟩
    let g := gw s q
    let ends := fun (c : Instr) (fn ac : Nat) (w : Staged → Prop) => runsOn s t q (wordA f 10 fn) → ∃ u v, w v ∧ exec c s = .next u ∧
      seqEnds s u t q (wordA f 10 fn) (sqr s q.val) ((sqr s q.val).pc + 1) ∧
      orderEnds s u t ac (fun o => { o with staged := o.staged ++ [v] }) ∧ planesKept s u t (fun _ _ => False) ∧
      (∀ k, peRegs (pe u k) = peRegs (pe s k)) ∧ sameBut [.freeCtr, .pe, .peTag, .seqs, .tenants, .sp, .spFill] s u ∧
      ∀ i, (∀ role, role = 4 ∨ role = 5 → ∀ e, ((ten s t).own.bind fun r => roleExtent r role) = some e → inExtent e i = false) →
        spByte u i = spByte s i
    (f.res = 0 ∧ f.modf = 0 ∧ f.db = 0 ∧ f.di = false ∧ f.bi = false ∧ f.bs = false → readCheck a g 1 = none →
      512 * (progTiles s t).length * a.planes g ≤ x.len.toNat →
      ends (.outp t f) 2 (24 + 16 * a.planes g + indAc f) fun v => v.bind = b ∧ v.off = 0 ∧
        v.data.length = 512 * (progTiles s t).length * a.planes g ∧
        ∀ j m n p, j < a.planes g → (progTiles s t)[m]? = some n → physOf s n = some p → ∀ row col, row < 64 → col < 64 →
          (v.data.getD ((j * (progTiles s t).length + m) * 512 + row * 8 + col / 8) 0).getLsbD (col % 8) =
            peBit s (peKey p row col) ((a.at s g ⟨n, p, row, col / g⟩ + j) % 4096)) ∧
    (ctlBad f 4096 16 8 1 = false → f.db.toNat % 4 = 0 → f.db.toNat + 4 ≤ x.len.toNat →
      ends (.outs t f) 3 2 fun v => v = ⟨b, f.db.toNat, leBytes 4 r, leBytes 4 r⟩) ∧
    (ctlBad f 1 16 8 1 = false → x.kind = .mailbox →
      ends (.outf t f) 4 2 fun v => v = ⟨b, 0, leBytes 2 (r % 65536), leBytes 2 (r % 65536)⟩)) ∧
  (∀ (s : State) (t : Tenant) (q : SeqId) (f : FmtA) (o : Order) (i : InBind),
    runsOn s t q (wordA f 10 0) → runOrder s t = some o → o.ins[f.bb.toNat]? = some i → f.bb.toNat < 8 → i.landed = false →
    f.res = 0 → f.wm1 = 0 → f.ab = 0 → f.modf.toNat < 3 → f.di = false → f.ai = false → f.bi = false → f.bs = false →
    spFieldsBad s t f f.bb.toNat = false → inarmFault s t f f.bb.toNat = false → s.spBad = [] →
    (∀ p ∈ (ten s t).orders, p.seq = o.seq → p = o) → (i.kind = .camera → inputGone i = false) →
    let armed := fun (l : List Comp) => ∃ u o' i', exec (.inarm t f) s = .next u ∧ runOrder u t = some o' ∧
      o'.ins[f.bb.toNat]? = some i' ∧ i'.inarmed = true ∧
      i'.arm = some (i.arm.getD ⟨f.db, layoutOf f.modf.toNat, bindToSp s i⟩) ∧
      (i.kind = .region → i.complete = false → i'.complete = true ∧
        i'.data = extRead s ((regionSrc s t i.source.toNat).getD []) i.offset.toNat i.len.toNat) ∧
      (∀ b, b ≠ f.bb.toNat → o'.ins[b]? = o.ins[b]?) ∧ o'.runTicks = o.runTicks + 4 * acTicks s t ∧
      (sqr u q.val).pc = (sqr s q.val).pc + 1 ∧ (sqr u q.val).s = (sqr s q.val).s ∧
      sameBut ([.freeCtr, .pe, .peTag, .seqs, .tenants, .sp, .spFill] ++ l) s u
    (i.cam = none → armed []) ∧ (i.copyA = true ∨ i.copyB = true → armed [.peMem, .peBad, .noc, .cams]))

/-- PLANE (R54, R57, R159, R160) on every slice: LOG takes TT of the two source bits, ADD the sum of source A, that result and
C over the lanes with the carry to C and the overflow to V; the result goes where DST says, in active slices but for K and X. With
RES the residues of lane 0 accumulate modulo 3. No other bit of a PE memory changes. That DST 1 and 2 take lane 0 and that RES = 2
advances the weight is the model's choice (log 56).
NEWS (R45, R46, R56, R161) in 1 ac: X of every PE comes from the PE next to it, 0 beyond the array or a disabled culvert; with LS,
in a gang width, X moves one lane within each slice, through C of an active one. A culvert group whose parity fails sets the
parity-error latches of the 8 PEs that received from it (R47). -/
def Obligations.PlanesAndNews : Prop :=
  (∀ (s : State) (t : Tenant) (q : SeqId) (w : PlaneW) (add : Bool), Inv s →
    issues s t q (wordPlane w add) → planeBad w add = false →
    let x := sqr s q.val
    let g := x.gw.width
    let es := elems s g (ownTiles s t)
    let on := active s g
    let a := fun e (j : Nat) => planeSrc s x g e w.sa.toNat j
    let b := fun e (j : Nat) => planeSrc s x g e w.sb.toNat j
    let y := fun e (j : Nat) => w.tt.getLsbD (2 * (a e j).toNat + (b e j).toNat) && (!w.gf || (pe s (e.lane g j)).f)
    let num := fun (f : Nat → Bool) => Nat.ofBits fun j : Fin g => f j.val
    let low := fun (f : Nat → Bool) => num f % 2 ^ (g - 1)
    let sum := fun e => num (a e) + num (y e) + (pe s (e.lane g 0)).c.toNat
    let r := fun e (j : Nat) => if add then (sum e).testBit j else y e j
    let da := fun (e : Elem) => (maOf x w.da.toNat).eff s (e.lane g 0)
    let toM := w.dst = 0 ∨ w.dst = 6
    ∃ u, exec (if add then .planeAdd q w else .planeLog q w) s = .next u ∧ microEnds s u t q (planeInc w x) 1 ∧
      sameBut [.pe, .peMem, .peBad, .seqs, .tenants] s u ∧ (∀ k, ¬ownPe s t k → pe u k = pe s k) ∧
      (∀ k p, p < 4096 → ¬(toM ∧ ∃ e ∈ es, on e = true ∧ p = da e ∧ ∃ j, j < g ∧ k = e.lane g j) → peBit u k p = peBit s k p) ∧
      ∀ e ∈ es, (∀ j, j < g →
          (toM → on e = true → peBit u (e.lane g j) (da e) = (r e j && !reservedBit (da e))) ∧
          (pe u (e.lane g j)).c = (if on e = false then (pe s (e.lane g j)).c else if w.dst = 6 then false
            else if add then (sum e).testBit g else if w.dst = 1 then r e 0 else (pe s (e.lane g j)).c) ∧
          (pe u (e.lane g j)).k = (if w.dst = 2 then r e 0 else (pe s (e.lane g j)).k) ∧
          peX u (e.lane g j) = (if w.dst = 3 then r e j else peX s (e.lane g j)) ∧
          (pe u (e.lane g j)).f = (if on e = true ∧ w.dst = 4 then r e j else if on e = true ∧ w.dst = 6 then b e j
            else (pe s (e.lane g j)).f) ∧
          (pe u (e.lane g j)).p = (pe s (e.lane g j)).p ∧
          (j ≠ 0 ∨ add = false ∨ on e = false → (pe u (e.lane g j)).v = (pe s (e.lane g j)).v) ∧
          (w.res = 0 ∨ on e = false ∨ j ≠ 0 → peRes u (e.lane g j) = peRes s (e.lane g j))) ∧
        (add = true → on e = true → (pe u (e.lane g 0)).v =
          ((sum e).testBit g ^^ (low (a e) + low (y e) + (pe s (e.lane g 0)).c.toNat).testBit (g - 1))) ∧
        (w.res ≠ 0 → on e = true →
          let k := e.lane g 0
          let wt := if g = 1 ∧ (pe s k).weight2 = true then 2 else 1
          let after := fun (i : Nat) (f : Nat → Bool) =>
            ((peRes u k).extractLsb' i 2).toNat = (((peRes s k).extractLsb' i 2).toNat + wt * num f) % 3
          after 4 (r e) ∧ (w.res = 1 → after 0 (a e) ∧ after 2 (y e)) ∧
            (pe u k).weight2 = (if g = 1 then !(pe s k).weight2 else (pe s k).weight2))) ∧
  (∀ (s : State) (t : Tenant) (q : SeqId) (dir : BitVec 2) (ls : Bool), Inv s →
    issues s t q (wordNews dir ls 0) →
    let g := (sqr s q.val).gw.width
    let from_ : Dir := if dir = 0 then .south else if dir = 1 then .west else if dir = 2 then .north else .east
    let moved := fun (u : State) => ∀ e ∈ elems s 1 (ownTiles s t), (pe u (e.lane 1 0)).c = (pe s (e.lane 1 0)).c ∧
      peX u (e.lane 1 0) = match elemAway s t 1 from_ 1 e with
        | some x => peX s (x.lane 1 0)
        | none => false
    (ls = false → ∃ u, exec (.news q dir ls ⟨0, []⟩) s = .next u ∧ microEnds s u t q (sqr s q.val) 1 ∧ moved u ∧
      sameBut [.pe, .tiles, .seqs, .tenants] s u ∧ (∀ p, tile u p = { tile s p with linkErr := (tile u p).linkErr }) ∧
      (∀ k, peRegs (pe u k) = { peRegs (pe s k) with x := (pe u k).x }) ∧ ∀ k, ¬ownPe s t k → pe u k = pe s k) ∧
    (ls = false → ∀ (n : Nat) (p : TileId) (i : Fin 8), n ∈ ownTiles s t → physOf s n = some p →
      (joined s t from_ n).isSome = true → (∀ m ∈ ownTiles s t, (tile s ((physOf s m).getD p).val).linkErr = false) →
      ∃ u, exec (.news q dir ls ⟨0, [(p, i)]⟩) s = .next u ∧ microEnds s u t q (sqr s q.val) 1 ∧ moved u ∧
        sameBut [.pe, .tiles, .seqs, .tenants] s u ∧ (tile u p.val).linkErr = true ∧
        ∀ k, (pe u k).parityErr = ((pe s k).parityErr || decide (k / 4096 = p.val ∧
          (if dir = 0 then k % 4096 / 64 = 0 ∧ k % 64 / 8 = i.val else if dir = 1 then k % 64 = 0 ∧ k % 4096 / 512 = i.val
           else if dir = 2 then k % 4096 / 64 = 63 ∧ k % 64 / 8 = i.val else k % 64 = 63 ∧ k % 4096 / 512 = i.val)))) ∧
    (ls = true → (dir = 1 ∨ dir = 3) → g ≠ 1 → ∃ u, exec (.news q dir ls ⟨0, []⟩) s = .next u ∧
      microEnds s u t q (sqr s q.val) 1 ∧ sameBut [.pe, .seqs, .tenants] s u ∧
      (∀ k, peRegs (pe u k) = { peRegs (pe s k) with c := (pe u k).c, x := (pe u k).x }) ∧
      (∀ k, ¬ownPe s t k → pe u k = pe s k) ∧
      ∀ e ∈ elems s g (ownTiles s t), ∀ j, j < g →
        (pe u (e.lane g j)).c = (if active s g e = true then peX s (e.lane g (if dir = 1 then g - 1 else 0))
          else (pe s (e.lane g j)).c) ∧
        peX u (e.lane g j) = (if dir = 1 then (if j = 0 then (pe s (e.lane g 0)).c else peX s (e.lane g (j - 1)))
          else if j = g - 1 then (pe s (e.lane g 0)).c else peX s (e.lane g (j + 1)))))

/-- ADDR, SCAL and BCAST (R162, R164, R168): one register of the sequencer takes its value in 1 ac, a SCAL function sets Z and N
from its result, and the µPC moves on. A MEM request waits at the sequencer's interface under a TID that no other holds; a SCAN comes
to SV 4 ac later (R156). Z and N after SETLC are the model's choice (log 57). -/
def Obligations.ScalarMicrowords : Prop := ∀ (s : State) (t : Tenant) (q : SeqId) (a : AddrW) (w : ScalW),
  let x := sqr s q.val
  let ends := fun (word : Word) (c : Instr) (x' : Sequencer) => issues s t q word → ∃ u, exec c s = .next u ∧
    microEnds s u t q x' 1 ∧ sameBut [.seqs, .tenants] s u
  let ma := fun (i : Nat) => SMap.get MicroAddr.initial x.ma i
  let addr := fun (mode : BitVec 3) (c : AddrW → Instr) (m : MicroAddr) =>
    a.res = 0 → ends (wordAddr a mode) (c a) { x with ma := SMap.set MicroAddr.initial x.ma a.md.toNat m }
  let m := ma a.md.toNat
  let sr := fun (i : BitVec 4) => SMap.get 0 x.s i.toNat
  let put := fun (v : Word) => { x with s := SMap.set 0 x.s w.sd.toNat v, z := decide (v = 0), n := v.msb }
  let p := ceilDiv (wordWidth x.il) x.gw.width
  let scal := fun (fn : BitVec 4) (c : SeqId → ScalW → Instr) (x' : Sequencer) => ends (wordScal w fn) (c q w) x'
  let sh := (sr w.sb).toNat % 32
  addr 0 (.addrImm q) { m with ind := a.imm.getLsbD 12, addr := a.imm.truncate 12 } ∧
  addr 1 (.addrAdd q) { m with addr := m.addr + a.imm.truncate 12 } ∧
  addr 2 (.addrScalar q) { m with ind := (sr a.src).getLsbD 12, addr := (sr a.src).truncate 12 } ∧
  addr 3 (.addrCopy q) { m with ind := (ma (a.src.toNat % 8)).ind, addr := (ma (a.src.toNat % 8)).addr + a.imm.truncate 12 } ∧
  addr 4 (.addrWrap q) { m with mode := 1, base := m.addr, len := BitVec.ofNat 7 (p + a.imm.toNat % 128), returned := false } ∧
  addr 5 (.addrSlide q) { m with mode := 2, base := m.addr, len := BitVec.ofNat 7 (p + a.imm.toNat % 128), returned := false } ∧
  addr 6 (.addrPlain q) { m with mode := 0, returned := false } ∧
  scal 0 .scalAdd (put (sr w.sa + sr w.sb)) ∧ scal 1 .scalAddi (put (sr w.sa + w.imm.signExtend 32)) ∧
  scal 2 .scalSub (put (sr w.sa - sr w.sb)) ∧ scal 3 .scalAnd (put (sr w.sa &&& sr w.sb)) ∧
  scal 4 .scalOr (put (sr w.sa ||| sr w.sb)) ∧ scal 5 .scalXor (put (sr w.sa ^^^ sr w.sb)) ∧
  scal 6 .scalShl (put (sr w.sa <<< sh)) ∧
  scal 7 .scalShr (put (if w.imm.getLsbD 0 then (sr w.sa).sshiftRight sh else sr w.sa >>> sh)) ∧
  scal 8 .scalLi (put (w.imm.signExtend 32)) ∧
  scal 9 .scalShi (put ((sr w.sd <<< 10) ||| w.imm.zeroExtend 32)) ∧
  (∀ i, [x.il.toNat / 2 ^ 58, x.il.toNat / 2 ^ 53 % 32, x.il.toNat / 2 ^ 49 % 16, x.il.toNat / 2 ^ 43 % 64,
      x.il.toNat / 2 ^ 27 % 4096, x.il.toNat / 2 ^ 15 % 4096, x.il.toNat / 8 % 4096, p, x.pc.toNat,
      x.il.toNat / 2 ^ 39 % 16][w.imm.toNat]? = some i → scal 10 .scalField (put (BitVec.ofNat 32 i))) ∧
  (∃ v, ((sr w.sa) = 0 ∧ v = 0xFFFFFFFF ∨ 2 ^ v.toNat ≤ (sr w.sa).toNat ∧ (sr w.sa).toNat < 2 ^ (v.toNat + 1)) ∧
    scal 11 .scalHsb (put v)) ∧
  (issues s t q (wordScal w 12) → w.imm.toNat ≤ 2 → (w.imm = 2 → x.scan = none) → ∃ u, exec (.scalGet q w) s = .next u ∧
    microEnds s u t q (put (if w.imm = 0 then x.gv else if w.imm = 1 then x.tvr.zeroExtend 32 else x.sv.signExtend 32)) 1 ∧
    sameBut [.freeCtr, .seqs, .tenants] s u) ∧
  (let m := seqNi q.val
    let n := bankNi (bankOf (sr w.sa))
    let write := w.imm.getLsbD 0
    issues s t q (wordScal w 13) → x.mem = none → mayIssue (ni s m.val) = true →
    ∃ u tid p, exec (.scalMem q w) s = .next u ∧
      microEnds s u t q { x with mem := some ⟨write, w.sd, sr w.sa, sr w.sb, tid, false⟩ } 1 ∧
      sameBut [.noc, .seqs, .tenants] s u ∧ (∀ r, r ≠ m.val → ni u r = ni s r) ∧
      ni u m.val = { ni s m.val with out := (ni s m.val).out ++ [⟨tid, n, 0, write, some p, false, none⟩] } ∧
      (∀ o ∈ (ni s m.val).out ++ (ni s m.val).held, o.tid ≠ tid) ∧ p.tid = tid ∧ p.ten = t ∧ p.dev = false ∧ p.vc = 0 ∧
      p.ty = (if write then 2 else 1) ∧ p.addr = sr w.sa ∧ p.nbytes = 4 ∧ pktSource p = some m ∧ pktDest p = some n ∧
      p.data = (if write then leBytes 4 (sr w.sb).toNat else []) ∧ p.sn = SMap.get 0 s.noc.sn (orderKey m n 0)) ∧
  (issues s t q (wordScal w 14) → (w.imm.getLsbD 9 = true → x.scan = none) → ∃ u, exec (.scalSetlc q w) s = .next u ∧
    (let v : Half := (if w.imm.getLsbD 9 then x.sv else (sr w.sa).truncate 16) + (w.imm.truncate 8).zeroExtend 16
     microEnds s u t q { x with
       lc := SMap.set ⟨0, 0⟩ x.lc (w.sd.toNat % 4) ⟨v, v⟩, z := decide (v = 0), n := false } 1) ∧
    sameBut [.freeCtr, .seqs, .tenants] s u) ∧
  (issues s t q (wordScal w 15) → ∃ u v, exec (.scalScan q w) s = .next u ∧
    isScan s t x (ma (w.sa.toNat % 8)) (wordWidth x.il) v ∧
    sqr u q.val = { nextWord (tickScan 1 x) with scan := some (4, v), midRoutine := true } ∧ microRuns s u t q 1 ∧
    sameBut [.pe, .seqs, .tenants] s u ∧ ∀ k, pe u k = { pe s k with parityErr := (pe u k).parityErr }) ∧
  ∀ b : BcastW, b.res = 0 → ends (wordBcast b) (.bcast q b) { x with bl := (BitVec.ofBool b.sx ++ b.bit) ++ b.sreg }

/-- WAIT (R163): a condition that holds ends it in 1 ac; one that does not is held, afresh or with the counts and edges that RTT
brought back (R177). A held WAIT ends when its condition is met, and its end takes a MEM response, a read into its register with Z and
N (R164); at 4,096 ac without NT it is cause 4, to resume at the same microword (R174, R514). -/
def Obligations.MicroWaits : Prop := ∀ (s : State) (t : Tenant) (q : SeqId) (w : WaitW) (h : Wait) (v : Nat),
  let x := sqr s q.val
  let met := fun (h : Wait) => match h.cond.toNat with
    | 0 => x.gors = []
    | 1 => ∃ o i, runOrder s t = some o ∧ o.ins[h.imm.toNat % 8]? = some i ∧ i.landed = true
    | 2 => ∃ m, x.mem = some m ∧ m.done = true
    | 3 => (ni s (seqNi q.val).val).st = .opened ∧
        (ni s (seqNi q.val).val).out.length + (ni s (seqNi q.val).val).held.length < 64
    | 4 => h.imm.toNat ≤ h.acCount.toNat
    | 5 => (sreg s q.val (h.imm.toNat % 16)).toNat ≤ h.usCount.toNat
    | 6 => if h.imm.toNat / 64 % 2 = 0 then SMap.get false s.fab.lineLevel (h.imm.toNat % 64) = true
      else if h.imm.toNat % 2 = 0 then h.edge0 = true else h.edge1 = true
    | _ => False
  let ended := fun (y : Sequencer) (c : BitVec 3) => match (if c = 2 then y.mem else none) with
    | some m => if m.write then { y with ws := none, mem := none } else { y with
        ws := none, mem := none, s := SMap.set 0 y.s m.dest.toNat m.data, z := decide (m.data = 0), n := m.data.msb }
    | none => { y with ws := none }
  let fresh : Wait := ⟨w.cond, w.imm, w.nt, 0, 0, false, false, none⟩
  let starts : Wait := match x.wsBack with
    | some b => if b.cond = w.cond then { b with imm := w.imm, nt := w.nt } else fresh
    | none => fresh
  (issues s t q (wordWait w) → x.loop = none → w.cond ≠ 7 → w.res = 0 →
    (met starts → ∃ u, exec (.wait q w) s = .next u ∧ microEnds s u t q (ended { x with wsBack := none } w.cond) 1 ∧
      sameBut [.seqs, .tenants] s u) ∧
    (¬met starts → ∃ u, exec (.wait q w) s = .next u ∧
      sqr u q.val = { x with wsBack := none, ws := some starts, midRoutine := true } ∧
      (∀ r, r ≠ q.val → sqr u r = sqr s r) ∧ sameBut [.seqs] s u)) ∧
  (x.bound = some t → x.ws = some h → h.ais = none → frozen s = false →
    (x.service = .inService → met h → ∃ u, exec (.waitConditionMet q) s = .next u ∧ sameBut [.seqs, .tenants] s u ∧
      sqr u q.val = nextWord (tickScan 1 (ended x h.cond)) ∧ microRuns s u t q 1) ∧
    (¬met h → ∃ u, exec (.waitConditionMet q) s = .next u ∧ u = s) ∧
    (¬met h → h.nt = false → h.cond ≠ 4 → h.acCount = 4096 → (runOrder s t).isSome = true → x.tl = false → handlerAt s t 4 v →
      ∃ u, exec (.microTimeout q) s = .next u ∧ trapEntered s u t q 4 v x.pc.toNat x.pc.toNat ∧
        leAt (xmRead u (trapFrame u t.val) 0x7C) 0x18 2 = x.upc.toNat))

/-- BR, CALL and RET (R165, R166) outside a loop body: the target or the next word, with the return word on a stack of four; the scan
that a dispatch entry asks for starts, over the width of the instruction in IL (R156).
Microcode faults (R157, R159–R171): a reserved OP, CM, MODE, COND, REL or field, a branch, a WAIT or a LOOP inside a loop body, a
fifth CALL, a RET with nothing stacked, a scan outside a dispatch entry and a second MEM are not executed: the order leaves the queue
ABORTED with cause 3.
LOOP (R166): with a count of 0 the µPC skips the body; else the first pass starts. C of active PEs is preset and RA seeded.
The words of a loop (R166): with outer count n and inner count m, each pass runs the inner words m times and the rest of the
body once; then the loop is left at the word after the body with its outer counter 0. -/
def Obligations.MicroBranchesAndLoops : Prop :=
  (∀ (s : State) (t : Tenant) (q : SeqId) (w : BrW),
    let x := sqr s q.val
    let y := { tickScan 1 x with midRoutine := true }
    let taken := match w.cond.toNat with
      | 0 => true
      | 1 => x.gv.getLsbD w.bit.toNat
      | 2 => !x.gv.getLsbD w.bit.toNat
      | 3 => x.z
      | _ => !x.z
    w.res = 0 → w.scan ≠ 3 → (w.scan ≠ 0 → x.upc.toNat < 512) → x.loop = none →
      (issues s t q (wordBr w w.cond) → w.cond.toNat ≤ 4 →
        ∃ u, exec (.microBr q w) s = .next u ∧ microRuns s u t q 1 ∧ sameBut [.pe, .seqs, .tenants] s u ∧
        sqr u q.val = { y with upc := if taken then w.tgt else x.upc + 1, scan := (sqr u q.val).scan } ∧
        (w.scan = 0 → (sqr u q.val).scan = y.scan ∧ u.pe = s.pe) ∧
        (w.scan ≠ 0 → (∃ v, (sqr u q.val).scan = some (4, v) ∧ isScan s t x (maOf x w.scan.toNat) (wordWidth x.il) v) ∧
          ∀ k, pe u k = { pe s k with parityErr := (pe u k).parityErr })) ∧
      (issues s t q (wordBr w 5) → w.scan = 0 → x.rs.length < 4 → ∃ u, exec (.microCall q w) s = .next u ∧ microRuns s u t q 1 ∧
        sameBut [.seqs, .tenants] s u ∧ sqr u q.val = { y with upc := w.tgt, rs := x.rs ++ [x.upc + 1] }) ∧
      (∀ l v, issues s t q (wordBr w 6) → w.scan = 0 → x.rs = l ++ [v] → ∃ u, exec (.microRet q w) s = .next u ∧
        microRuns s u t q 1 ∧ sameBut [.seqs, .tenants] s u ∧ sqr u q.val = { y with upc := v, rs := l })) ∧
  (∀ (s : State) (t : Tenant) (q : SeqId) (o : Order), runOrder s t = some o →
    let x := sqr s q.val
    let bad := fun (v : Word) (c : Instr) => issues s t q v → ∃ u, exec c s = .next u ∧ abortedWith u t o.seq 3 ∧
      ∀ p ∈ (ten u t).orders, p.seq ≠ o.seq
    (∀ (v : Word) (w : PlaneW), (let op := v.toNat / 2 ^ 26
        op = 0 ∨ 12 ≤ op ∨ op = 1 ∧ 2 ≤ v.toNat / 2 ^ 20 % 4 ∨ op = 3 ∧ v.toNat / 2 ^ 20 % 8 = 7 ∨ op = 6 ∧ v.toNat / 2 ^ 23 = 55 ∨
        op = 11 ∧ v.toNat / 2 ^ 24 % 4 = 3) → bad v (.planeLog q w)) ∧
    (∀ (w : PlaneW) add, w.dst = 7 ∨ w.sa = 15 ∨ w.sb = 15 ∨ w.res = 3 ∨ (add = true ∧ w.dst = 1) →
      bad (wordPlane w add) (if add then .planeAdd q w else .planeLog q w)) ∧
    (∀ dir ls res, res ≠ 0 ∨ (ls = true ∧ (dir = 0 ∨ dir = 2 ∨ x.gw = .g1)) → bad (wordNews dir ls res) (.news q dir ls ⟨res, []⟩)) ∧
    (∀ (a : AddrW) (i : Nat) c, a.res ≠ 0 → addrModes[i]? = some c → bad (wordAddr a (BitVec.ofNat 3 i)) (c q a)) ∧
    (∀ w : ScalW, (9 < w.imm.toNat → bad (wordScal w 10) (.scalField q w)) ∧ (2 < w.imm.toNat → bad (wordScal w 12) (.scalGet q w)) ∧
      (x.mem ≠ none → mayIssue (ni s (seqNi q.val).val) = true → bad (wordScal w 13) (.scalMem q w))) ∧
    (∀ w : WaitW, w.cond = 7 ∨ w.res ≠ 0 ∨ x.loop ≠ none → bad (wordWait w) (.wait q w)) ∧
    (∀ w : BrW, let no := w.res ≠ 0 ∨ w.scan = 3 ∨ (w.scan ≠ 0 ∧ 512 ≤ x.upc.toNat) ∨ x.loop ≠ none
      (no → w.cond.toNat ≤ 4 → bad (wordBr w w.cond) (.microBr q w)) ∧ (no ∨ 4 ≤ x.rs.length → bad (wordBr w 5) (.microCall q w)) ∧
        (no ∨ x.rs = [] → bad (wordBr w 6) (.microRet q w))) ∧
    (∀ w : LoopW, w.cp = 3 ∨ w.res ≠ 0 ∨ x.loop ≠ none → bad (wordLoop w) (.loop q w)) ∧
    (∀ w : GorW, w.res ≠ 0 → bad (wordGor w) (.gor q w)) ∧ (∀ w : BcastW, w.res ≠ 0 → bad (wordBcast w) (.bcast q w)) ∧
    (∀ w : TrapW, (w.mode ≠ 3 → w.res ≠ 0 ∨ (8 ≤ w.cause.toNat ∧ w.cause.toNat < 16) → bad (wordTrapchk w) (.trapchkRaise q w)) ∧
      (w.mode = 3 → w.res ≠ 0 → bad (wordTrapchk w) (.trapchkBoundary q w))) ∧
    ∀ w : ReschkW, w.res ≠ 0 → bad (wordReschk w 0) (.reschkSum q w) ∧ bad (wordReschk w 1) (.reschkProd q w) ∧
      bad (wordReschk w 2) (.reschkClear q w)) ∧
  (∀ (s : State) (t : Tenant) (q : SeqId) (w : LoopW), Inv s → issues s t q (wordLoop w) →
    let x := sqr s q.val
    let g := x.gw.width
    let n := w.blen.toNat + 1
    let l : Loop := ⟨x.upc + 1, n, Nat.min w.ilen.toNat n, 0, w.lco.toNat, w.lci.toNat, false⟩
    w.res = 0 → w.cp ≠ 3 → x.loop = none → ∃ u, exec (.loop q w) s = .next u ∧ microRuns s u t q 1 ∧
      sameBut [.pe, .seqs, .tenants] s u ∧
      (let y := { tickScan 1 x with upc := x.upc + 1, midRoutine := true }
       sqr u q.val = if (lcVal x w.lco.toNat).val = 0 then { y with upc := x.upc + 1 + BitVec.ofNat 14 n } else startPass y l) ∧
      ∀ k, peRegs (pe u k) = { peRegs (pe s k) with c := (pe u k).c, ra := (pe u k).ra, rb := (pe u k).rb, rr := (pe u k).rr } ∧
        ((∀ e ∈ elems s g (ownTiles s t), active s g e = true → ∀ j, j < g → k ≠ e.lane g j) → pe u k = pe s k) ∧
        ∀ e ∈ elems s g (ownTiles s t), active s g e = true → ∀ j, j < g → k = e.lane g j →
          (pe u k).c = (if w.cp = 0 then (pe s k).c else decide (w.cp = 2)) ∧
          (w.rs = true ∧ j = 0 → peRes u k = (peRes s k).extractLsb' 2 4 ++ (if (pe u k).c then 1#2 else 0#2)) ∧
          (w.rs = false ∨ j ≠ 0 → peRes u k = peRes s k)) ∧
  (∀ (x : Sequencer) (l : Loop) (n m : Nat), 0 < n → 0 < l.blen → l.blen ≤ 8 →
    l.ilen ≤ l.blen → l.lco < 4 → l.lci < 4 → (lcVal x l.lco).val.toNat = n →
    (l.ilen ≠ 0 → l.lco ≠ l.lci ∧ 0 < m ∧ (lcVal x l.lci).reload.toNat = m) →
    let words := n * (m * l.ilen + (l.blen - l.ilen))
    let at_ := fun (i : Nat) => i.repeat nextWord (startPass x l)
    (∀ i, i < words → (at_ i).loop.isSome = true ∧
      let j := i % (m * l.ilen + (l.blen - l.ilen))
      (at_ i).upc = l.start + BitVec.ofNat 14 (if j < m * l.ilen then j % l.ilen else j - m * l.ilen + l.ilen)) ∧
    (at_ words).loop = none ∧ (at_ words).upc = l.start + BitVec.ofNat 14 l.blen ∧ (lcVal (at_ words) l.lco).val = 0)

/-- GOR (R48, R49, R51, R167): the tile vector and the OR of F AND K over active elements are on their way; a delivery writes
GV[tag], or TVR where TV asks for it. A result with a parity error is not delivered: a machine check, which TIDE_FAULTS marks.
TRAPCHK (R169, R514): a condition that does not hold only passes; one that holds takes the cause, with the frame of a trap at an
instruction boundary (the µPC is the model's choice, log 58); an instruction boundary with no trap waiting passes. RESCHK (R57, R122,
R170): a relation modulo 3 that fails sets the residue-error latch of an active slice, clear clears its units, and FL updates its OV.
FLAG_OR_RESULT (R135, R141): the flags enter FSUM, and a tenant without a context takes no trap. -/
def Obligations.GorsChecksAndFlags : Prop :=
  (∀ (s : State) (t : Tenant) (q : SeqId) (w : GorW) (f : GorFlight) (r : List GorFlight),
    let x := sqr s q.val
    let g := x.gw.width
    let fk := fun (e : Elem) => active s g e && (List.range g).any fun j => (pe s (e.lane g j)).f
    (Inv s → issues s t q (wordGor w) → w.res = 0 → ∃ u vec dev, exec (.gor q w) s = .next u ∧
      microEnds s u t q { x with gv := if w.cg then 0 else x.gv, gors := x.gors ++ [⟨w.tag, w.tv, vec, dev, false⟩] } 1 ∧
      (dev = true ↔ ∃ e ∈ elems s g (ownTiles s t), fk e = true) ∧
      (∀ n, n < 16 → (vec.getLsbD n = true ↔ ∃ e ∈ elems s g (ownTiles s t), e.lt = n ∧ fk e = true)) ∧
      sameBut [.seqs, .tenants] s u) ∧
    (∀ bt : Tenant, x.bound = some bt → x.gors = f :: r →
      (∃ u, exec (.gorResultDelivery q true none) s = .next u ∧ (∀ p, p ≠ q.val → sqr u p = sqr s p) ∧
        sameBut [.tiles, .seqs] s u ∧ (∀ p, tile u p = { tile s p with linkErr := (tile u p).linkErr }) ∧
        sqr u q.val = { x with
          gors := r, tvr := if f.tv = true ∧ f.vecDone = false then f.vec else x.tvr
          gv := if f.device then x.gv ||| (1#32 <<< f.tag.toNat) else x.gv &&& ~~~(1#32 <<< f.tag.toNat) }) ∧
      (f.vecDone = false → ∃ u, exec (.gorResultDelivery q false none) s = .next u ∧ sameBut [.tiles, .seqs] s u ∧
        (∀ p, p ≠ q.val → sqr u p = sqr s p) ∧ (∀ p, tile u p = { tile s p with linkErr := (tile u p).linkErr }) ∧
        sqr u q.val = { x with gors := { f with vecDone := true } :: r, tvr := if f.tv then f.vec else x.tvr }) ∧
      (∀ d, runOrder s bt = none → s.obs.due = none → s.obs.tideFaults.getLsbD 1 = true → s.start.mode = .running →
        s.obs.tideSeen = false → s.clk.sleep ≠ .entered → ∃ u, exec (.gorResultDelivery q d (some none)) s = .next u ∧
        sqr u q.val = { x with gors := r } ∧ u.obs.tideCount = s.obs.tideCount + 1))) ∧
  (∀ (s : State) (t : Tenant) (q : SeqId) (w : TrapW) (r : ReschkW) (v : Nat), Inv s →
    let x := sqr s q.val
    let g := x.gw.width
    let act := (elems s g (ownTiles s t)).filter (active s g)
    let hit := match w.mode.toNat with
      | 0 => true
      | 1 => x.z
      | _ => x.gv.getLsbD w.bit.toNat
    let c := w.cause.toNat
    (issues s t q (wordTrapchk w) → w.res = 0 → w.mode ≠ 3 → ¬(8 ≤ c ∧ c < 16) →
      (hit = false → ∃ u, exec (.trapchkRaise q w) s = .next u ∧ microEnds s u t q x 1 ∧ sameBut [.seqs, .tenants] s u) ∧
      (hit = true → x.tl = false → handlerAt s t c v → ∃ u, exec (.trapchkRaise q w) s = .next u ∧
        trapEntered s u t q c v x.pc.toNat (if c = 2 ∨ c = 4 then x.pc else x.pc + 1).toNat ∧
        leAt (xmRead u (trapFrame u t.val) 0x7C) 0x18 2 = 0xFFFF)) ∧
    (issues s t q (wordTrapchk w) → w.res = 0 → w.mode = 3 → x.tl = true ∨ trapWaits s t = false →
      ∃ u, exec (.trapchkBoundary q w) s = .next u ∧ sqr u q.val = { nextWord (tickScan 1 x) with midRoutine := false } ∧
        microRuns s u t q 1 ∧ sameBut [.seqs, .tenants] s u) ∧
    (r.res = 0 →
      let two := fun (k i : Nat) => ((peRes s k).extractLsb' i 2).toNat
      let ov := fun (k : Nat) => decide (r.fl = 1) && (pe s k).c || decide (r.fl = 2) && !(pe s k).c || decide (r.fl = 3) && (pe s k).v
      let ends := fun (rel : BitVec 2) (c : Instr) (e : State → Prop) => issues s t q (wordReschk r rel) → ∃ u, exec c s = .next u ∧
        e u ∧ microEnds s u t q x 1 ∧ sameBut [.pe, .peMem, .peBad, .seqs, .tenants] s u ∧
        (∀ e ∈ act, peBit u (e.lane g 0) 3061 = (peBit s (e.lane g 0) 3061 || ov (e.lane g 0))) ∧
        (∀ k a, a < 4096 → (a ≠ 3061 ∨ ∀ e ∈ act, k ≠ e.lane g 0) → peBit u k a = peBit s k a)
      let check := fun (rel : BitVec 2) (c : Instr) (ok : Nat → Prop) => ends rel c fun u =>
        (∀ e ∈ act, ((pe u (e.lane g 0)).residueErr = true ↔ (pe s (e.lane g 0)).residueErr = true ∨ ¬ok (e.lane g 0))) ∧
        ∀ k, pe u k = { pe s k with residueErr := (pe u k).residueErr, parityErr := (pe u k).parityErr } ∧
          ((∀ e ∈ act, k ≠ e.lane g 0) → pe u k = pe s k)
      check 0 (.reschkSum q r) (fun k =>
        (two k 4 + (pe s k).c.toNat * (if r.k2 then 2 else 1)) % 3 = (two k 0 + two k 2) % 3) ∧
      check 1 (.reschkProd q r) (fun k => two k 4 % 3 = two k 0 * two k 2 % 3) ∧
      ends 2 (.reschkClear q r) fun u =>
        (∀ e ∈ act, peRes u (e.lane g 0) = 0 ∧ (pe u (e.lane g 0)).weight2 = false) ∧
        ∀ k, ((∀ e ∈ act, k ≠ e.lane g 0) → pe u k = pe s k) ∧ pe u k = { pe s k with
          ra := (pe u k).ra, rb := (pe u k).rb, rr := (pe u k).rr, weight2 := (pe u k).weight2, parityErr := (pe u k).parityErr }) ∧
    ∀ (f : FlagOr) (l : List FlagOr) (o : Order), seqOf s t = some q → x.flagOrs = f :: l → runOrder s t = some o →
      (heldCtx s t = none → claimFault s t = none → ∃ u, exec (.flagOrResult t) s = .next u ∧
        sqr u q.val = { x with flagOrs := l } ∧ (∀ p, p ≠ q.val → sqr u p = sqr s p) ∧
        runOrder u t = some { o with fsum := o.fsum ||| f.flags } ∧ sameBut [.seqs, .tenants] s u) ∧
      ∀ k, heldCtx s t = some k → (f.trapLevel = true ∨ f.flags &&& (ctx s k.val).enables = 0) → trapWaits s t = false →
        ∃ u, exec (.flagOrResult t) s = .next u ∧ sqr u q.val = { x with flagOrs := l } ∧ sameBut [.seqs, .tenants] s u ∧
          runOrder u t = some { o with fsum := o.fsum ||| f.flags })

/-- SUBMIT (R198, R199): an accepted descriptor joins the end of the queue under the next number, ACCEPTED; a host order number
of the last 60 s answers with the number it has; a rejection sets REJECT_REASON and aborts with 0x0800_0000, a descriptor that is too
short with 0x0607_0013.
UNPROTECTED, RECORD_EXPIRY and RETIRE_TO (R198, R200): an order that has run for more than 400 µs since its start or last CKPT is
marked; a record unretired for 60 s is marked EXPIRED and logged; the records at or below the number leave. -/
def Obligations.OrdersAcceptedAndKept : Prop :=
  (∀ (s : State) (k : SesId) (t : Tenant) (d : Bytes),
    admitted s k (0x2F00 + 16 * t.val) 1 d.length →
    let known := fun (e : HonEntry) => e.hon = BitVec.ofNat 32 (leAt d 4 4) ∧ s.time.toNat < e.time.toNat + 60000000000
    (d.length < 32 → aborts (.submit k t d) s k 0x06070013 [.tenants] fun u =>
      ten u t = { ten s t with reject := 2 } ∧ ∀ v, v ≠ t → ten u v = ten s v) ∧
    (32 ≤ d.length → (∀ e ∈ (ten s t).hons, ¬known e) →
      (rejectReason s t d = 0 → ∃ u o, exec (.submit k t d) s = .next u ∧ (ses u k).reply = some ⟨0, []⟩ ∧
        (ten u t).orders = (ten s t).orders ++ [o] ∧ o.seq = (ten s t).nextSeq ∧ o.hon = BitVec.ofNat 32 (leAt d 4 4) ∧
        o.st = .accepted ∧ o.entry = BitVec.ofNat 24 (leAt d 8 3) ∧ o.ins.length = leAt d 2 1 ∧ o.outs.length = leAt d 1 1 ∧
        (o.released = true ↔ leAt d 16 2 = 0xFFFF) ∧ (ten u t).lastAccepted = (ten s t).nextSeq ∧
        (ten u t).nextSeq = (if (ten s t).nextSeq = 0xFFFFFFFF then 1 else (ten s t).nextSeq + 1) ∧
        (∀ v, v ≠ t → (ten u v).orders = (ten s v).orders)) ∧
      (rejectReason s t d ≠ 0 → aborts (.submit k t d) s k 0x08000000 [.tenants] fun u =>
        ten u t = { ten s t with reject := BitVec.ofNat 8 (rejectReason s t d) } ∧ ∀ v, v ≠ t → ten u v = ten s v)) ∧
    ∀ e ∈ (ten s t).hons, 32 ≤ d.length → known e → (∀ x ∈ (ten s t).hons, known x → x = e) → accepts (.submit k t d) s k [.tenants] fun u =>
      ten u t = { ten s t with lastAccepted := e.seq } ∧ ∀ v, v ≠ t → ten u v = ten s v) ∧
  (∀ (s : State) (t : Tenant),
    runs (.unprotected t) s [.tenants] (fun u => (∀ v, v ≠ t → ten u v = ten s v) ∧
      runOrder u t = (runOrder s t).map fun o => if 400 * usTicks < o.sinceTicks then { o with unprotected := true } else o) ∧
    (let due := fun (v : Word) (r : Record) =>
        r.seq = v ∧ r.outcome ≠ 3 ∧ r.stamp.toNat + 60000000000 ≤ s.time.toNat ∧ r.flags.getLsbD 7 = false
      ∀ v : Word, ((∃ r ∈ (ten s t).records, due v r) →
        runs (.recordExpiry t v) s [.tenants, .xm, .xmBad, .march, .ses, .obs] fun u => logged s u 0x0302 t.val v.toNat ∧
          (ten u t).records = (ten s t).records.map (fun x =>
            if x.seq = v ∧ x.outcome ≠ 3 ∧ x.stamp.toNat + 60000000000 ≤ s.time.toNat then { x with flags := x.flags ||| 0x80 }
            else x) ∧ ∀ w, w ≠ t → ten u w = ten s w) ∧
      ((∀ r ∈ (ten s t).records, ¬due v r) → exec (.recordExpiry t v) s = .next s)) ∧
    ∀ (k : SesId) (v : Word), admitted s k (0x2F03 + 16 * t.val) 1 4 → accepts (.retireTo k t v) s k [.tenants] fun u =>
      ten u t = { ten s t with
        retireTo := v, records := (ten s t).records.filter fun r => decide (v = 0) || !serialGe v r.seq } ∧
      ∀ w, w ≠ t → ten u w = ten s w)

/-- ORDER_START (R70, R139, R198): the tenant's ready order is RUNNING on its sequencer: PC at the entry, G1, S14 its number and
the other scalar registers 0, trap level clear; every PE of the tenant has K 1, C 0 and P 0, and with no binding armed its planes are as
before but for the status byte, which is 0. A binding fault that a claim has raised before the start is taken at once (R288). -/
def Obligations.OrderStarts : Prop := ∀ (s : State) (t : Tenant) (q : SeqId) (o : Order) (v : Nat), Inv s → readyOrder s t = some o →
  seqOf s t = some q → tilesAwake s t = true → pendingCtx s t = none →
  (o.startInput ≠ 0xFFFF ∨ ∀ i ∈ o.ins, i.kind = .adc → i.claimed = false → adcLost s i = false) →
  ((∀ i ∈ o.ins, i.fault ≠ .due) →
    ∃ u o', exec (.orderStart t) s = .next u ∧ runOrder u t = some o' ∧ o'.seq = o.seq ∧ o'.staged = o.staged ∧
      (o'.large = true ↔ (ownTiles s t).length = 8 ∨ (ownTiles s t).length = 16) ∧ (sqr u q.val).pc = o.entry ∧
      (sqr u q.val).gw = .g1 ∧ (sqr u q.val).tl = false ∧ (sqr u q.val).ws = none ∧
      (∀ i, sreg u q.val i = if i = 14 then o.seq else 0) ∧ (∀ r, r ≠ q.val → sqr u r = sqr s r) ∧
      (∀ k, ownPe s t k → (pe u k).k = true ∧ (pe u k).c = false ∧ (pe u k).p = 0) ∧
      (∀ k, ¬ownPe s t k → pe u k = pe s k) ∧
      ((∀ i ∈ o.ins, i.arm = none) → ∀ k, ownPe s t k → ∀ a, a < 4096 →
        peBit u k a = (peBit s k a && !decide (3056 ≤ a ∧ a < 3064)))) ∧
  ((∃ i ∈ o.ins, i.fault = .due) → handlerAt s t 7 v → (∀ r a b e f i, (ten s t).own = some r → a < 2 → b = 4 ∨ b = 5 →
      roleExtent r a = some e → roleExtent r b = some f → inExtent e i = true → inExtent f i = false) → ∃ u, exec (.orderStart t) s = .next u ∧
    (sqr u q.val).tl = true ∧ (sqr u q.val).pc = BitVec.ofNat 24 v ∧ ∃ o', runOrder u t = some o' ∧ o'.seq = o.seq)

/-- ABORT and RELEASE (R205, R215, R216): every order of the tenant is ABORTED with cause 1, then ABORT_FINAL stands as its last
record with the watermark, and its channels are held safe until RELEASE. Another value than 1 aborts with 0x0609_0030. -/
def Obligations.AbortAndRelease : Prop := ∀ (s : State) (k : SesId) (t : Tenant) (v : Byte),
  (admitted s k (0x2F01 + 16 * t.val) 1 1 →
    (∃ u l slot, exec (.abort k t 1) s = .next u ∧ (ses u k).reply = some ⟨0, []⟩ ∧ (ten u t).orders = [] ∧
      (∀ o ∈ (ten s t).orders, ∃ r ∈ (ten u t).records ++ (ten u t).unrec, r.seq = o.seq ∧ r.outcome = 2 ∧ r.cause = 1) ∧
      (ten u t).records = l ++ [{ seq := (ten u t).wmSettled, hon := 0, outcome := 3, cause := 1, flags := 0, runUs := 0
                                  stamp := s.time, last := (ten u t).wmSettled, slot := slot }] ∧
      (ten u t).abortState = 2 ∧
      (∀ r, (ten s t).own = some r → (ten u t).abortHold = (ten s t).abortHold ||| r.channels) ∧ hasLogged s u 0x0304) ∧
    (v ≠ 1 → aborts (.abort k t v) s k 0x06090030 [] fun _ => True)) ∧
  (admitted s k (0x2F01 + 16 * t.val) 3 1 →
    accepts (.release k t 1) s k [.tenants, .fab, .field] (fun u =>
      ten u t = { ten s t with abortState := 0, abortHold := 0 } ∧ ∀ v, v ≠ t → ten u v = ten s v) ∧
    (v ≠ 1 → aborts (.release k t v) s k 0x06090030 [] fun _ => True))

/-- OWNERSHIP and OWNERSHIP_APPLY (R192–R194, R463): a record in order and signed waits with its counter; at the order boundary
it applies whole: its fields are the tenant's, its counter is raised, its sequencer serves the tenant. A record that is malformed, not
signed or not valid is refused with its reason and logged. -/
def Obligations.OwnershipTaken : Prop := ∀ (s : State) (k : SesId) (t : Tenant) (d : Bytes) (r : OwnRec),
  let refused := fun (reason : Byte) => aborts (.ownership k t d) s k 0x08000000 [.tenants, .ident, .obs] fun u =>
    ten u t = { ten s t with ownState := 3 } ∧ (∀ v, v ≠ t → ten u v = ten s v) ∧ hasLogged s u 0x0303 ∧
    SMap.get 0 u.ident.verifyError (sesTenant k).val = BitVec.ofNat 32 (5 * 2 ^ 24 + reason.toNat)
  (admitted s k (0x2F04 + 16 * t.val) 1 d.length → d.length = 3501 → ownFormat d t = true → ownReserved d = true →
    r = parseOwn (d.take 192) →
    (checkSig s s.ident.ik "AZ6516/OWN" (d.take 192) (d.drop 192) (ctrOwn t) r.counter = none → ownValid s t r = true → accepts (.ownership k t d) s k [.tenants, .ident] fun u =>
      ten u t = { ten s t with ownPending := some r, ownState := 2 } ∧ (∀ v, v ≠ t → ten u v = ten s v) ∧
      SMap.get 0 u.ident.pending (ctrOwn t) = r.counter) ∧
    (checkSig s s.ident.ik "AZ6516/OWN" (d.take 192) (d.drop 192) (ctrOwn t) r.counter = none → ownValid s t r = false → refused 6) ∧
    ∀ e, checkSig s s.ident.ik "AZ6516/OWN" (d.take 192) (d.drop 192) (ctrOwn t) r.counter = some e → refused e) ∧
  (admitted s k (0x2F04 + 16 * t.val) 1 d.length →
    (d.length < 192 → aborts (.ownership k t d) s k 0x06070013 [] fun _ => True) ∧
    (192 ≤ d.length → d.length ≠ 3501 ∨ ownFormat d t = false ∨ ownReserved d = false → refused 4)) ∧
  ((ten s t).ownPending = some r → ownReady s t r = true → ∃ u, exec (.ownershipApply t) s = .next u ∧
    (ten u t).own = some r ∧ (ten u t).ownPending = none ∧ (ten u t).ownState = 1 ∧
    ((counter s (ctrOwn t)).toNat ≤ r.counter.toNat → counter u (ctrOwn t) = r.counter) ∧
    (∀ n, r.channels.getLsbD n = false → (ten u t).abortHold.getLsbD n = false) ∧
    ((ten s t).own = none → (∀ q, (sqr s q).bound ≠ some t) → (sqr s r.seq.val).bound = none →
      (sqr s r.seq.val).service = .spare → seqOf u t = some r.seq)) ∧
  ((ten s t).ownPending = some r → ownReady s t r = false → exec (.ownershipApply t) s = .next s) ∧
  ((ten s t).ownPending = none → exec (.ownershipApply t) s = .next s)

/-- A monitor trip of a tile in service (R64, R66, R210): the spare takes its logical position, the tile drains or, if its power is
off, waits for its march, its FAULTS count; its tenant's running order is recomputed. Without a spare the position is lost and
every order of its owner leaves. A recomputed order becomes ABORTED with INPUT_LOST where no copy of a landed input is left (R236).
Marches of tiles (R64, R65): two clean marches make a tile in RETEST the spare, a failed one makes it FAILED and counts; a
spare that fails its periodic march is FAILED; a march of a tile in another state does nothing. -/
def Obligations.TilesReplacedAndMarched : Prop :=
  (∀ (s : State) (p : TileId) (n : Nat), Inv s → (tile s p.val).service = .inService →
    lposOf s p = some n → s.obs.due = none →
    ∃ u, exec (.polderMonitorTrip p) s = .next u ∧ (tile u p.val).faults = satInc (tile s p.val).faults ∧
      ((tile u p.val).service = .draining ∨ (tile u p.val).service = .retest) ∧
      ((tile u p.val).service = .retest → (tile u p.val).polder = .off) ∧ (∀ m, m ≠ n → physOf u m = physOf s m) ∧
      (∀ c, spareTile s = some c → physOf u n = some c ∧ (tile u c.val).service = .inService ∧
        ∀ t o, tileOwner s n = some t → runOrder s t = some o →
          let again := ∃ o', runOrder u t = some o' ∧ o'.seq = o.seq ∧ o'.recomputed = true;
          (again ∨ abortedWith u t o.seq 0x0B) ∧
            (s.spBad = [] → (∀ i ∈ o.ins, i.landed = true → inputGone i = false) → again)) ∧
      (spareTile s = none → physOf u n = none ∧ ∀ t, tileOwner s n = some t → (ten u t).lost = true ∧ (ten u t).orders = [] ∧
        ∀ o ∈ (ten s t).orders, ∃ r ∈ (ten u t).records ++ (ten u t).unrec, r.seq = o.seq ∧ r.outcome = 2 ∧ r.cause = 5)) ∧
  (∀ (s : State) (p : TileId) (ok : Bool),
    let x := tile s p.val
    let becomes := fun (c : Instr) (y : Tile) => runs c s [.tiles, .obs] fun u =>
      tile u p.val = y ∧ (∀ r, r < 17 → r ≠ p.val → tile u r = tile s r) ∧
        (y.service ≠ x.service → logged s u 0x0101 p.val (y.service.code + 256 * x.service.code + 65536 * lposCode s p))
    (x.service = .retest →
      (x.passes = 0 → becomes (.tileRetestMarchComplete p true) { x with passes := 1 }) ∧
      (x.passes ≠ 0 → becomes (.tileRetestMarchComplete p true) { x with passes := 0, service := .spare }) ∧
      becomes (.tileRetestMarchComplete p false) { x with passes := 0, faults := satInc x.faults, service := .failed }) ∧
    (x.service = .spare → becomes (.sparePeriodicMarch p true) x ∧
      becomes (.sparePeriodicMarch p false) { x with faults := satInc x.faults, service := .failed }) ∧
    (x.service ≠ .retest → exec (.tileRetestMarchComplete p ok) s = .next s) ∧
    (x.service ≠ .spare → exec (.sparePeriodicMarch p ok) s = .next s))

/-- Ramps (R62, R422, R423) while VCORE is normal: the clock of a waking polder steps to the next ratio, at an end ratio below /1 it
dwells once more, and then it is AWAKE, cleared if it came from OFF; where its tenant's idle hold is over (R17), or where no tenant owns
it, it ramps down again at once (R24; log 72). One that goes dark steps down once its sluice has closed, then is DARK with its interface
fenced. During a warning every ramp holds. The end of an idle hold starts the ramp down of every tile of the tenant (R17). -/
def Obligations.PolderRamps : Prop := ∀ (s : State) (p : TileId) (t : Tenant) (r : Fin 8) (sec off : Bool),
  let x := tile s p.val
  let n := (tileNi p.val).val
  let one := fun (l : List Comp) (e : State → Prop) => runs (.polderRampDwellEnd p) s l fun u =>
    (∀ q, q < 17 → q ≠ p.val → tile u q = tile s q) ∧ e u
  (s.sup.vcore ≠ .normal → exec (.polderRampDwellEnd p) s = .next s) ∧
  (s.sup.vcore = .normal →
    (x.polder = .up r sec off →
      (r < endRatio s → one [.tiles] fun u => tile u p.val = { x with polder := .up (r + 1) false off }) ∧
      (¬ r < endRatio s → endRatio s ≠ 7 → sec = false → one [.tiles] fun u =>
        tile u p.val = { x with polder := .up (endRatio s) true off }) ∧
      (¬ r < endRatio s → endRatio s = 7 ∨ sec = true →
        let cleared := fun (u : State) => (Inv s → off = true → ∀ a, a < 4096 → ∀ i, i < 4096 →
            peBit u (p.val * 4096 + i) a = false) ∧ (off = false → u.pe = s.pe ∧ u.peMem = s.peMem)
        (∀ v, ownerOf s p = some v → holdOver s v = false → ∃ u, exec (.polderRampDwellEnd p) s = .next u ∧
          (tile u p.val).polder = .awake (endRatio s) ∧ (∀ q, q < 17 → q ≠ p.val → (tile u q).polder = (tile s q).polder) ∧
          (off = true → runOrder s v = none → (tile u p.val).bermValid = false) ∧ ((ten s v).orders = [] → cleared u)) ∧
        (∀ v, ownerOf s p = some v → holdOver s v = true → (ten s v).orders = [] →
          ∃ u, exec (.polderRampDwellEnd p) s = .next u ∧ (tile u p.val).polder = .down (endRatio s) ∧ cleared u) ∧
        (ownerOf s p = none → one [.tiles, .pe, .peMem, .peBad, .peTag, .noc] fun u =>
          tile u p.val = { x with polder := .down (endRatio s), bermValid := x.bermValid && !off } ∧ cleared u))) ∧
    (x.polder = .down r →
      ((ni s n).st.isClosing = true → exec (.polderRampDwellEnd p) s = .next s) ∧
      ((ni s n).st.isClosing = false →
        (r ≠ 0 → one [.tiles] fun u => tile u p.val = { x with polder := .down (r - 1) }) ∧
        (r = 0 → one [.tiles, .noc, .clk, .fab] fun u => tile u p.val = { x with polder := .dark } ∧
          ((ni s n).st ≠ .unused → (ni u n).st = .fenced .dark)))) ∧
    (x.polder = .awake r → r ≠ endRatio s → one [.tiles] fun u => tile u p.val = { x with polder := .awake (endRatio s) }) ∧
    (x.polder = .awake (endRatio s) ∨ x.polder = .dark ∨ x.polder = .off → exec (.polderRampDwellEnd p) s = .next s)) ∧
  (let idle := (ten s t).holdRunning = true ∧ runOrder s t = none ∧ readyOrder s t = none;
    (idle → runs (.idleHoldExpiry t) s [.tiles, .noc, .tenants] fun u =>
      ten u t = { ten s t with holdRunning := false } ∧ (∀ v, v ≠ t → ten u v = ten s v) ∧
      (∀ q ∈ physTiles s (ownTiles s t), ∀ k, (tile s q.val).polder = .awake k → (tile u q.val).polder = .down k ∧
        ((ni s (tileNi q.val).val).st = .opened → (ni u (tileNi q.val).val).st = .closing .dark)) ∧
      ∀ q, q < 17 → (∀ p ∈ physTiles s (ownTiles s t), p.val ≠ q) → tile u q = tile s q) ∧
    (¬idle → exec (.idleHoldExpiry t) s = .next s))

/-- A machine check (R64, R124, R140, R181): the first error of a segment marks its tile or sequencer and the running order is
recomputed, a second one is a declared fault; a context is retired for good and its tenant recomputes; a free context is retired by the
scan. WCS_SCAN (R180) rewrites every word with wrong parity from the golden copy; a word that fails again declares the sequencer
faulted. -/
def Obligations.MachineChecks : Prop := ∀ (s : State) (t : Tenant) (o : Order) (p : TileId) (q : SeqId) (k : Fin 3),
  let again := fun (u : State) (e : Prop) => ((e ∧ ∃ o', runOrder u t = some o' ∧ o'.seq = o.seq ∧ o'.recomputed = true) ∨
      abortedWith u t o.seq 0x0B) ∧
    (s.spBad = [] → (∀ i ∈ o.ins, i.landed = true → inputGone i = false) →
      e ∧ ∃ o', runOrder u t = some o' ∧ o'.seq = o.seq ∧ o'.recomputed = true)
  (runOrder s t = some o →
    (ownerOf s p = some t → (tile s p.val).errorOpen = false → ∃ u, exec (.machineCheck (.tile p)) s = .next u ∧
      (tile u p.val).service = (tile s p.val).service ∧ again u ((tile u p.val).errorOpen = true)) ∧
    (ownerOf s p = some t → (tile s p.val).errorOpen = true → (tile s p.val).service = .inService →
      ∃ u, exec (.machineCheck (.tile p)) s = .next u ∧ (tile u p.val).service ≠ .inService ∧
      (tile u p.val).faults = satInc (tile s p.val).faults) ∧
    ((sqr s q.val).bound = some t → (sqr s q.val).regError = false → ∃ u, exec (.machineCheck (.sequencer q)) s = .next u ∧
      (sqr u q.val).bound = some t ∧ again u ((sqr u q.val).regError = true)) ∧
    ((ctx s k.val).st = .held t → ∃ u, exec (.machineCheck (.context k)) s = .next u ∧ (ctx u k.val).st = .retired ∧
      hasLogged s u 0x0206 ∧ again u True)) ∧
  (∀ c, (sqr s q.val).bound = some t → (sqr s q.val).regError = true → (runOrder s t).isSome = true → s.mc.patchState ≠ 2 →
    c ≠ q → spareSeq s = some c → ∃ u, exec (.machineCheck (.sequencer q)) s = .next u ∧ (sqr u q.val).bound = none ∧
      (sqr u q.val).service = .draining ∧ (sqr u c.val).bound = some t ∧ (sqr u c.val).service = .inService) ∧
  ((ctx s k.val).st = .free → runs (.trapContextScan k) s [.ctxs, .obs] fun u =>
    ctx u k.val = { TrapCtx.initial with st := .retired } ∧ (∀ i, i < 3 → i ≠ k.val → ctx u i = ctx s i) ∧
      logged s u 0x0206 k.val k.val) ∧
  ((ctx s k.val).st ≠ .free → exec (.trapContextScan k) s = .next s) ∧
  (SMap.wf .none (sqr s q.val).wcsBad = true → s.spBad = [] → (∀ i, SMap.get .none (sqr s q.val).wcsBad i ≠ .stuck) →
    (memSt s 3).service = .inService → runs (.wcsScan q) s [.seqs, .obs] fun u =>
    (∀ i, SMap.get .none (sqr u q.val).wcsBad i = .none) ∧
    (∀ i, storeWord (sqr u q.val).wcs i =
      if SMap.get .none (sqr s q.val).wcsBad i = .upset then storeWord (goldenOf s q.val) i else storeWord (sqr s q.val).wcs i) ∧
    ∀ r, r ≠ q.val → sqr u r = sqr s r) ∧
  ∀ i c, (sqr s q.val).wcsBad = [(i, .stuck)] → s.spBad = [] → (sqr s q.val).bound = some t → s.mc.patchState ≠ 2 →
    c ≠ q → spareSeq s = some c → ∃ u, exec (.wcsScan q) s = .next u ∧ (sqr u q.val).bound = none ∧
      (sqr u q.val).service = .draining ∧ (sqr u c.val).bound = some t

/-- PATCH_BUNDLE and MIGRATION (R182, R184–R187): an accepted bundle waits with its counter while the spare holds the patched
image; with no tenant bound it takes effect at once; an image that does not read back stops the update; a refused bundle leaves
PATCH_STATE 4, one during a rotation only its event. The rotation moves the tenant of the first waiting sequencer to the spare, with its
registers and requests, while the sequencer left loads the image, and back to it once it holds the image. -/
def Obligations.PatchRotation : Prop := ∀ (s : State) (k : SesId) (d : Bytes) (c src : SeqId) (t : Tenant),
  let n := leAt d 0x24 4
  let sig := checkSig s (some Config.vendorKey) "AZ6516/MC" (d.take (64 + 8 * n)) (d.drop (64 + 8 * n)) ctrMc (BitVec.ofNat 32 (leAt d 4 4))
  let refused := fun (code : Word) (reason : Byte) => aborts (.patchBundle k d) s k code [.mc, .ident, .obs] fun u =>
    u.mc = { s.mc with patchState := 4 } ∧ hasLogged s u 0x0207 ∧
      SMap.get 0 u.ident.verifyError (sesTenant k).val = BitVec.ofNat 32 (2 * 2 ^ 24 + reason.toNat)
  (admitted s k 0x2900 3 d.length →
    (d.length < 64 → aborts (.patchBundle k d) s k 0x06070013 [] fun _ => True) ∧
    (64 ≤ d.length → s.mc.patchState = 2 → aborts (.patchBundle k d) s k 0x08000022 [.obs] fun u => logged s u 0x0207 0 2) ∧
    (64 ≤ d.length → s.mc.patchState ≠ 2 →
      (leAt d 3 1 ≠ 1 ∨ n = 0 ∨ 4096 < n → refused 0x08000000 4) ∧
      (leAt d 3 1 = 1 → 1 ≤ n → n ≤ 4096 →
        (d.length ≠ 3373 + 8 * n → refused 0x06070010 4) ∧
        (d.length = 3373 + 8 * n → (patchReserved d n = false → refused 0x06090030 4) ∧
          (patchReserved d n = true → (∀ e, sig = some e → refused 0x08000000 e) ∧
            (sig = none → (∀ e, patchContent s d n = some e → refused 0x08000000 e) ∧
              (patchContent s d n = none → spareSeq s = some c →
                ∃ u, exec (.patchBundle k d) s = .next u ∧ (ses u k).reply = some ⟨0, []⟩ ∧
                  (imageSound s c = false → u.mc.patchState = 5 ∧ u.mc.golden = s.mc.golden) ∧
                  (imageSound s c = true → (sqr u c.val).wcs = patchedWords s d n ∧
                    ((∃ q, (sqr s q).bound.isSome = true ∧ q < 5 ∧ q ≠ c.val) → u.mc.patchState = 2 ∧ (sqr u c.val).image = true ∧
                      u.mc.golden = s.mc.golden ∧ SMap.get 0 u.ident.pending ctrMc = BitVec.ofNat 32 (leAt d 4 4)) ∧
                    ((∀ q, q < 5 → (sqr s q).bound = none) → u.mc.patchState = 3 ∧ u.mc.golden = patchedWords s d n ∧
                      u.mc.mcver = BitVec.ofNat 32 (leAt d 0x14 4) ∧ u.mc.digest = slice d 0x1C 8))))))))) ∧
  ∀ p, s.mc.patch = some p → s.mc.patchState = 2 → c ≠ src → (sqr s src.val).bound = some t → frozen s = false →
    let moved := fun (u : State) => (sqr u c.val).bound = some t ∧ (sqr u src.val).bound = none ∧
      (sqr u c.val).service = .inService ∧ (sqr u c.val).pc = (sqr s src.val).pc ∧ (sqr u c.val).s = (sqr s src.val).s ∧
      (sqr u c.val).upc = (sqr s src.val).upc ∧ (sqr u c.val).ws = (sqr s src.val).ws ∧
      (ni u (seqNi c.val).val).out = (ni s (seqNi c.val).val).out ++ (ni s (seqNi src.val).val).out ∧
      (ni u (seqNi src.val).val).out = [] ∧ ∀ q, q < 5 → q ≠ src.val → q ≠ c.val → (sqr u q).bound = (sqr s q).bound
    (p.current = none → (patchWaits s).head? = some src → spareSeq s = some c →
      ∃ u, exec (.migration src c) s = .next u ∧ moved u ∧ (sqr u src.val).service = .loading ∧
        (sqr u c.val).wcs = (sqr s c.val).wcs ∧ ∃ v, u.mc.patch = some v ∧ v.current = some src) ∧
    (p.current = some c → (sqr s c.val).service = .loading → imageSound s c = true →
      ∃ u, exec (.migration src c) s = .next u ∧ moved u ∧ (sqr u src.val).service = .spare ∧ (sqr u c.val).wcs = p.words) ∧
    (p.current = some c → (sqr s c.val).service = .loading → imageSound s c = false →
      ∃ u, exec (.migration src c) s = .next u ∧ u.mc.patchState = 5 ∧ (sqr u src.val).bound = some t)

/-- READ and WRITE that pass every check (R42, R228, R232, R233, R253, R256, R264): a read answers READ_RESP with the bytes of the memory
or the bits of the tile's plane; a write stores its bytes there and nowhere else, port Y's enabled bytes of the word at its address last,
and answers WRITE_RESP; a read in the cycle after a collision gives the word as port X left it. A word with no good copy answers PARITY
(R235, R236).
Requests that are not served (R42, R191, R231, R244, R254, R255, R257, R270, R426): a bad header, an interface that is fenced, an
address or type that does not decode, a region under test, another tenant's memory and a protected plane are answered with their status;
no memory changes. A NACK of a gated block starts its clock again. -/
def Obligations.NocRequests : Prop :=
  (∀ (s : State) (m n : NiId) (p : Pkt), arrives s m n p → pktBad p = false →
    (ni s n.val).st = .opened → meetsTest s n p = false →
    let a := p.addr.toNat
    let c := p.nbytes.toNat
    let ok := fun (w : Bool) => addrOk n p w = true ∧ p.ty = (if w then 2 else 1) ∧ tenAllowed s n m p w = true
    (∀ q, niTile n = some q →
      let key := fun (i b : Nat) => peKey q (a / 4096 + i / 8) (8 * (i % 8) + b)
      let latches := fun (u : State) => ∀ k, pe u k = { pe s k with parityErr := (pe u k).parityErr }
      (ok false → runs (.read p ⟨false, false⟩) s [.freeCtr, .noc, .pe, .xmFirst] fun u => latches u ∧
        answersWith u m n p 3 0 fun d => d.length = c ∧
          ∀ i b, i < c → b < 8 → (d.getD i 0).getLsbD b = peBit s (key i b) (a % 4096)) ∧
      (ok true → writableBit (tile s q.val) (a % 4096) = true →
        runs (.write p none) s [.freeCtr, .noc, .pe, .peMem, .peBad, .xmFirst] fun u => latches u ∧
        answersWith u m n p 4 0 (fun d => d = []) ∧
        (∀ i b, i < c → b < 8 → peBit u (key i b) (a % 4096) = (p.data.getD i 0).getLsbD b) ∧
        ∀ k x, x < 4096 → (x ≠ a % 4096 ∨ ∀ i b, i < c → b < 8 → k ≠ key i b) → peBit u k x = peBit s k x)) ∧
    (∀ xm k, niTile n = none → niMem n = some (xm, k) →
      let mem := fun (v : State) (x : Nat) => (memBytes v xm x 1).getD 0 0
      let keeps := fun (u : State) => if xm then u.sp = s.sp else u.xm = s.xm
      let good := (if xm then xmBadAt s a c else spBadAt s a c) = false
      let put := fun (x : Nat) => if a ≤ x ∧ x < a + c then p.data.getD (x - a) 0 else mem s x
      (ok false → good → runs (.read p ⟨false, false⟩) s [.freeCtr, .noc, .march, .xmFirst] fun u =>
        answersWith u m n p 3 0 fun d => d.length = c ∧ ∀ i, i < c → d.getD i 0 = mem s (a + i)) ∧
      (ok false → good → ∀ w v, s.xmFirst = some (w, v) → xm = true → runs (.read p ⟨false, true⟩) s [.freeCtr, .noc, .march, .xmFirst] fun u =>
        u.xmFirst = none ∧ answersWith u m n p 3 0 fun d => d.length = c ∧ ∀ i, i < c →
          d.getD i 0 = if w ≤ a + i ∧ a + i < w + 8 then v.extractLsb' (8 * (a + i - w)) 8 else mem s (a + i)) ∧
      (ok false → xm = false → spBadAt s a c = true → a % 8 + c ≤ 8 → inGolden (a / 8 * 8) = false → roleAt s (a / 8 * 8) = none →
        ∃ u, exec (.read p ⟨false, false⟩) s = .next u ∧ answersWith u m n p 6 3 (fun d => d = [])) ∧
      (ok true → runs (.write p none) s [.freeCtr, .noc, .march, .sp, .spBad, .xm, .xmBad, .xmFirst, .obs] fun u =>
        answersWith u m n p 4 0 (fun d => d = []) ∧ keeps u ∧ u.obs = { s.obs with logRaw := u.obs.logRaw } ∧ ∀ x, mem u x = put x) ∧
      ∀ y : PortYWrite,
        let w := y.addr.toNat / 8 * 8
        let meet := xm = true ∧ w < a + c ∧ a < w + 8
        (ok true → meet → runs (.write p (some y)) s [.freeCtr, .noc, .march, .xm, .xmBad, .xmFirst, .xmCollisions, .obs] fun u =>
          u.xmCollisions = satInc s.xmCollisions ∧ answersWith u m n p 4 0 (fun d => d = []) ∧
          (∀ x, mem u x = if w ≤ x ∧ x < w + 8 ∧ y.enables.getLsbD (x - w) = true then y.data.extractLsb' (8 * (x - w)) 8 else put x) ∧
          ∃ v, u.xmFirst = some (w, v) ∧ ∀ i, i < 8 → v.extractLsb' (8 * i) 8 = put (w + i)) ∧
        (ok true → ¬meet → exec (.write p (some y)) s = exec (.write p none) s))) ∧
  (∀ (s : State) (m n : NiId) (p : Pkt) (w : Bool) (r : FenceReason), arrives s m n p →
    let c : Instr := if w then .write p none else .read p ⟨false, false⟩
    let st := (ni s n.val).st
    let ends := fun (l : List Comp) (ty : BitVec 4) (code : Half) (e : State → Prop) =>
      runs c s ([.freeCtr, .noc, .xmFirst] ++ l) fun u => answersWith u m n p ty code (fun d => d = []) ∧ e u
    let code : Half := match r with
      | .dark => 0x10
      | .draining => 0x11
      | .off => 0x12
    let decodes := addrOk n p w = true ∧ p.ty = (if w then 2 else 1)
    (pktBad p = true →
      (p.ty = 1 ∨ p.ty = 2 → ends [.obs] 6 4 fun u => logged s u 0x0501 (n.val / 2) n.val) ∧
      (¬(p.ty = 1 ∨ p.ty = 2) → runs c s [.freeCtr, .xmFirst, .obs] fun u => logged s u 0x0501 (n.val / 2) n.val)) ∧
    (pktBad p = false →
      (st = .closing r ∨ st = .drained r ∨ st = .fenced r →
        (r ≠ .dark ∨ gateOf n = none → ends [] 5 code fun u => u.noc.fencedNacks = satInc s.noc.fencedNacks) ∧
        (∀ b, r = .dark → gateOf n = some b → ∃ u, exec c s = .next u ∧ answersWith u m n p 5 0x10 (fun d => d = []) ∧
          u.clk.gated.getLsbD b = false)) ∧
      (st = .opened →
        (¬decodes → ends [] 6 4 fun _ => True) ∧
        (decodes → meetsTest s n p = true → ends [.obs] 6 5 fun u => ∃ i, logged s u 0x0404 i m.val) ∧
        (decodes → meetsTest s n p = false → tenAllowed s n m p w = false → ends [] 6 2 fun _ => True) ∧
        (∀ q, decodes → meetsTest s n p = false → tenAllowed s n m p w = true → w = true → niTile n = some q →
          writableBit (tile s q.val) (p.addr.toNat % 4096) = false → ends [] 6 2 fun _ => True))))

/-- Responses at their requester (R264–R268, R271): one that nothing waits for counts as late; one that is expected ends its request
and completes a sequencer's MEM; a NACK keeps the request and those behind it; an error or a timeout of ingest is tried once more, of a
sequencer it is a machine check or an illegal operand. A clear sends out what was held for the interface, a tile's to the tile that fills
its position now, or ends it. -/
def Obligations.NocResponses : Prop := ∀ (s : State) (m n : NiId) (p : Pkt) (o : OutReq) (v : Nat),
  let x := ni s m.val
  let rest := x.out.filter fun y => decide (y.tid ≠ p.tid)
  let others := fun (u : State) => ∀ k, k ≠ m.val → (ni u k).out = (ni s k).out ∧ (ni u k).held = (ni s k).held
  let loss := p.status = 1 ∨ p.status = 3 ∨ p.status = 6
  (returns s m n p → (∀ y ∈ x.out, y.tid ≠ p.tid) →
    ∀ e ∈ [(Instr.readResp p, (3 : BitVec 4)), (.writeResp p, 4), (.nackFenced p, 5), (.errorResp p, 6)], p.ty = e.2 →
    runs e.1 s [.noc] fun u => (ni u m.val).out = x.out ∧ (ni u m.val).held = x.held ∧ others u ∧
      u.noc.lateResponses = (if x.held.any (fun y => decide (y.tid = p.tid)) then s.noc.lateResponses else satInc s.noc.lateResponses)) ∧
  (returns s m n p → answered s m p = some o →
    (∀ e ∈ [(Instr.readResp p, (3 : BitVec 4)), (.writeResp p, 4)], p.ty = e.2 → runs e.1 s [.noc, .seqs] fun u =>
      (ni u m.val).out = rest ∧ (ni u m.val).held = x.held ∧ others u ∧ u.noc.lateResponses = s.noc.lateResponses ∧
      (∀ q, niSeq m ≠ some q → sqr u q.val = sqr s q.val) ∧
      ∀ q a, niSeq m = some q → (sqr s q.val).mem = some a → a.tid = p.tid → a.done = false →
        sqr u q.val =
          { sqr s q.val with mem := (some { a with done := true, data := (if a.write then a.data else BitVec.ofNat 32 (leAt p.data 0 4)) }) }) ∧
    (p.ty = 5 → ∀ a b, x.out = a ++ o :: b → (∀ y ∈ a, y.tid ≠ o.tid) → runs (.nackFenced p) s [.noc] fun u =>
      let same := fun (y : OutReq) => decide (y.dest = o.dest ∧ y.vc = o.vc)
      (ni u m.val).out = a ++ b.filter (fun y => !same y) ∧ (ni u m.val).held = x.held ++ o :: b.filter same ∧ others u) ∧
    (p.ty = 6 → m = 25 ∨ m = 35 → loss → o.retried = false → ∃ u, exec (.errorResp p) s = .next u ∧
      ∃ z ∈ (ni u m.val).out, z = { o with retried := true }) ∧
    (∀ q t d, p.ty = 6 → niSeq m = some q → (sqr s q.val).bound = some t → runOrder s t = some d →
      (loss → ∃ u, exec (.errorResp p) s = .next u ∧ ((∃ d', runOrder u t = some d' ∧ d'.seq = d.seq ∧ d'.recomputed = true) ∨
        abortedWith u t d.seq 0x0B)) ∧
      (¬loss → (sqr s q.val).tl = false → handlerAt s t 1 v → ∃ u, exec (.errorResp p) s = .next u ∧
        trapEntered s u t q 1 v (sqr s q.val).pc.toNat ((sqr s q.val).pc + 1).toNat))) ∧
  (nocUp s = true → s.obs.due = none → o.tid = p.tid → m = 25 ∨ m = 35 → o.retried = false →
    (x.out.find? fun y => decide (y.tid = p.tid)) = some o → ∃ u, exec (.requestTimeout m p.tid) s = .next u ∧
      u.noc.timeouts = satInc s.noc.timeouts ∧ ∃ z ∈ (ni u m.val).out, z = { o with retried := true }) ∧
  ∀ d repl : NiId, controls s p 7 →
    ∃ u, exec (.fenceClear (BitVec.ofNat 8 d.val) (BitVec.ofNat 8 repl.val) p) s = .next u ∧ (∀ k : NiId, ∀ y ∈ (ni u k.val).held, y.dest ≠ d) ∧
      (p.addr.getLsbD 16 = false → ∀ k : NiId, ∀ y ∈ (ni s k.val).held, y.dest = d → ∃ z ∈ (ni u k.val).out, z.tid = y.tid ∧
        z.dest = match y.lpos.bind (physOf s) with
          | some q => tileNi q.val
          | none => repl)

/-- Sluices (R255, R269, R270, R426): an open interface starts to close when a CONTROL packet asks it; drained, or fenced for a fault, a
tile's power goes and it waits for its march, a sequencer whose store reads back returns as a spare, a polder ramps down and a gated block
stops. A control packet with a bad header is absorbed and logged.
Routers (R267, R272–R274) while the mesh holds no packet: a router keeps what its neighbours tell it, and quiesces for a changed list
of fenced neighbours; it counts replays, leaves its quiesce with its new configuration and tells its neighbours; faulted, it is FENCED with
its interfaces.
Hops of packets (R259, R261–R264): a packet enters a router only where it takes new headers, its port is enabled and a credit is
left; each output serves VC2 first; the output that a router chooses is one that the routing mode or DOR permits and that is enabled, and
it leads to no quiescing or fenced neighbour while another is left; all hops of the first direction come first. -/
def Obligations.SluicesAndRouters : Prop :=
  (∀ (s : State) (n : NiId) (p : Pkt) (f : FenceReason), s.obs.due = none →
    let st := (ni s n.val).st
    let calm := meshQuiet s = true ∧ ∀ k, (ni s k).held = []
    (controls s p 8 → pktDest p = some n →
      (st = .opened → runs (.sluiceClose p f) s [.noc] fun u => ni u n.val = { ni s n.val with st := .closing f } ∧
        ∀ k, k ≠ n.val → ni u k = ni s k) ∧
      (st ≠ .opened → exec (.sluiceClose p f) s = .next s)) ∧
    (nocUp s = true → pktBad p = true → pktDest p = some n → ∀ k a b (r : RouterId), r.val = n.val / 2 →
      ∀ c ∈ [Instr.fenceClear a b p, .sluiceClose p f, .routerControlNotice r p k],
      runs c s [.obs] fun u => logged s u 0x0501 (n.val / 2) n.val) ∧
    (nocUp s = true → calm →
      let after := fun (c : Instr) => ∃ u, exec c s = .next u ∧
        (∀ q, niTile n = some q → (tile u q.val).polder = .off ∧ (ni u n.val).st = .fenced .off ∧
          (tile u q.val).service = (if (tile s q.val).service = .draining then .retest else (tile s q.val).service)) ∧
        (∀ q, niTile n = none → niSeq n = some q → (sqr s q.val).service = .draining →
          (stuckWords (sqr s q.val) = [] → (sqr u q.val).service = .spare ∧ (sqr u q.val).wcs = s.mc.golden ∧
            (sqr u q.val).wcsBad = [] ∧ (ni u n.val).st = .opened) ∧
          (stuckWords (sqr s q.val) ≠ [] → (sqr u q.val).service = .failed ∧ (ni u n.val).st = .fenced .off)) ∧
        (niTile n = none → niSeq n = none → ∃ g, (ni u n.val).st = .fenced g)
      (f ≠ .dark → st = .closing f → (ni s n.val).quiet = true → after (.niDrained n)) ∧
      (st.isClosing = true → blockFaulted s n = true → after (.sluiceFaultFence n)) ∧
      (st = .closing .dark → (ni s n.val).quiet = true → ∃ u, exec (.niDrained n) s = .next u ∧
        (∀ q k, niTile n = some q → (tile s q.val).polder = .down k →
          (k ≠ 0 → (tile u q.val).polder = .down (k - 1) ∧ (ni u n.val).st = .drained .dark) ∧
          (k = 0 → (tile u q.val).polder = .dark ∧ (ni u n.val).st = .fenced .dark)) ∧
        ∀ b, niTile n = none → gateOf n = some b → (gateMask s).getLsbD b = true →
          u.clk.gated.getLsbD b = true ∧ (ni u n.val).st = .fenced .dark)) ∧
    ((ni s n.val).quiet = false ∨ st.isClosing = false → exec (.niDrained n) s = .next s) ∧
    (st.isClosing = false ∨ blockFaulted s n = false → exec (.sluiceFaultFence n) s = .next s)) ∧
  (∀ (s : State) (r : RouterId) (d : Dir) (p : Pkt), nocUp s = true → s.obs.due = none →
    s.noc.mesh = [] → s.noc.clears = [] →
    let x := rtr s r.val
    let bit : BitVec 4 := 1#4 <<< dirBit d
    let live := x.service = .inService ∨ x.service = .quiesce
    let hear := fun (u : State) (on : Bool) => ∀ e k, neighbour r.val e = some k →
      (rtr u k).quiesced.getLsbD (dirBit (dirBack e)) = on
    (controls s p 8 → noticeDir (noticeOf r p) = some (r, d) →
      (runs (.routerControlNotice r p .quiesce) s [.noc] fun u => rtr u r.val = { x with quiesced := x.quiesced ||| bit } ∧
        ∀ k, k ≠ r.val → rtr u k = rtr s k) ∧
      (runs (.routerControlNotice r p .clear) s [.noc] fun u => rtr u r.val = { x with quiesced := x.quiesced &&& ~~~bit } ∧
        ∀ k, k ≠ r.val → rtr u k = rtr s k) ∧
      (live → runs (.routerControlNotice r p .fence) s [.noc, .obs] fun u =>
        rtr u r.val = { x with
          quiesced := x.quiesced &&& ~~~bit, newFenced := some (x.newFenced.getD x.fencedNbrs ||| bit), service := .quiesce } ∧
        (x.service = .inService → hear u true ∧ logged s u 0x0502 r.val 1))) ∧
    (live →
      (runs (.flitParityReplay r false) s [.noc] fun u => u.noc.linkReplays = satInc s.noc.linkReplays ∧
        rtr u r.val = { x with replays := satInc x.replays } ∧ ∀ k, k ≠ r.val → rtr u k = rtr s k) ∧
      (x.service = .quiesce → runs (.routerQuiesceComplete r) s [.noc, .obs] fun u =>
        rtr u r.val = { x with
          service := .inService, mode := x.newMode.getD x.mode, fencedNbrs := x.newFenced.getD x.fencedNbrs
          newMode := none, newFenced := none } ∧ hear u false ∧ logged s u 0x0502 r.val 0) ∧
      ∀ c ∈ [Instr.flitParityReplay r true, .routerStallDetect r] ++
          (if x.service = .quiesce then [Instr.routerQuiesceTimeout r] else []),
        ∃ u, exec c s = .next u ∧ (rtr u r.val).service = .fenced ∧ hasLogged s u 0x0502 ∧
          ∀ k, k = 2 * r.val ∨ k = 2 * r.val + 1 → (ni s k).st = .unused ∨ ∃ g, (ni u k).st = .fenced g) ∧
    (x.service ≠ .quiesce → exec (.routerQuiesceComplete r) s = .next s ∧ exec (.routerQuiesceTimeout r) s = .next s)) ∧
  (∀ (s : State) (f : Flight) (r : Nat),
    let d := f.dst.val / 2
    (∀ k o i, moveOf s f = .enter k i o → (rtr s k).service = .inService ∧ (rtr s k).enables.getLsbD i = true ∧
      queueFlits s k i f.vc < 8 ∧ (f.hops = [] → inFlight s f < 16 ∧ ∀ g ∈ s.noc.mesh, sameOrder f g = true → g.hops = [] →
        snBefore g.sn f.sn = false)) ∧
    (∀ m, nextFlight s = some (f, m) → f ∈ s.noc.mesh ∧ m = moveOf s f ∧ m ≠ .stay ∧
      ∀ g ∈ s.noc.mesh, (moveOf s g).output = m.output → g.vc = 2 → f.vc = 2) ∧
    (∀ e, chooseOut s r f = some e → e ∈ permitted s r d f.dor ∧ (rtr s r).enables.getLsbD (dirBit e) = true ∧
      ((∃ g ∈ permitted s r d f.dor, (rtr s r).enables.getLsbD (dirBit g) = true ∧
          ((rtr s r).quiesced ||| (rtr s r).fencedNbrs).getLsbD (dirBit g) = false) →
        ((rtr s r).quiesced ||| (rtr s r).fencedNbrs).getLsbD (dirBit e) = false)) ∧
    (let first : Dir := if (rtr s r).mode then .east else .west;
      0 < ahead r d first → permitted s r d false = [first]) ∧
    (∀ g, g ∈ permitted s r d false → 0 < ahead r d g) ∧
    (gone s (r / 6 * 6 + d % 6) = false → r % 6 ≠ d % 6 → ∀ g ∈ permitted s r d true, g = .east ∨ g = .west))

/-- The march engine (R240–R246): MARCH_ENABLE, the start, lateness and end of a pass, the retry of a released window; DTEST_TARGET
of a unit nobody owns, of one that is owned, and while a test runs; the end of a destructive test leaves a unit or a tile at 0, and a
failed one faults the bank of a unit that left an extent, or makes a spare tile FAILED. A command that finds nothing to do does
nothing.
A step of a running march pass (R236–R238, R240, R243). In the preserving mode a word of good parity is complemented and then written
back, and the engine goes on; a byte that cannot hold the complement faults the bank or half. A word whose read fails is not written: in
the scratchpad it is counted and logged, in the mirrored part of XM it is rewritten from the other half. In the compare-only mode both
copies are read: alike and good, nothing happens; a failing one is rewritten from the other; a difference faults the bank (the model's
choice, log 62). -/
def Obligations.MarchEngine : Prop :=
  (∀ (s : State) (k : SesId) (v : Byte) (x : Half) (b : Bool),
    let m := s.march
    let goes := m.enable ≠ 0 ∧ s.start.mode = .running ∧ s.clk.sleep ≠ .entered
    (admitted s k 0x2600 1 1 →
      (accepts (.marchEnable k 0) s k [.march] fun u => u.march = { m with enable := 0, passOn := false, window := none }) ∧
      (accepts (.marchEnable k 1) s k [.march] fun u => u.march = { m with enable := 1 }) ∧
      (2 ≤ v.toNat → aborts (.marchEnable k v) s k 0x06090030 [] fun _ => True)) ∧
    (¬goes → exec .marchPassStart s = .next s) ∧
    (goes → (m.passOn = false → runs .marchPassStart s [.march] fun u =>
        u.march = { m with passOn := true, window := (nextUnit s 0).map unitWindow }) ∧
      (m.passOn = true → runs .marchPassStart s [.march, .obs] fun u =>
        u.march = { m with late := satInc m.late } ∧ logged s u 0x0403 0 m.passes.toNat)) ∧
    (∀ w, m.window = some w → w.released = true → runs .marchWindowRetry s [.march] fun u =>
      u.march = { m with window := some { w with released := false, complemented := false } }) ∧
    ((∀ w, m.window = some w → w.released = false) → exec .marchWindowRetry s = .next s) ∧
    (m.passOn = true → runs .marchPassComplete s [.march] fun u =>
      u.march = { m with passOn := false, window := none, passes := m.passes + 1 }) ∧
    (m.passOn = false → exec .marchPassComplete s = .next s) ∧
    (admitted s k 0x2600 6 2 →
      let busy := m.dtest ≠ none ∨ SMap.get false m.released x.toNat = true
      (0x210 < x.toNat → aborts (.dtestTarget k x) s k 0x06090030 [] fun _ => True) ∧
      (x.toNat ≤ 0x210 → ¬busy →
        (dtestOwned s x.toNat = true → accepts (.dtestTarget k x) s k [.march] fun u =>
          u.march = { m with dtestTarget := x, dtestState := 4 }) ∧
        (dtestOwned s x.toNat = false → accepts (.dtestTarget k x) s k [.march] fun u =>
          u.march = { m with dtestTarget := x, dtestState := 1, dtest := some x.toNat })) ∧
      (x.toNat ≤ 0x210 → busy → aborts (.dtestTarget k x) s k 0x08000022 [] fun _ => True)) ∧
    (s.obs.due = none →
      let zeroed := fun (u : State) (i : Nat) => ∀ a, spByte u a =
        if i * 65536 ≤ a ∧ a < (i + 1) * 65536 then 0 else spByte s a
      let blank := fun (u : State) (q : TileId) => ∀ i a, i < 4096 → a < 4096 → peBit u (q.val * 4096 + i) a = false
      let unit := [Comp.march, .sp, .spBad, .spFill]
      let array := [Comp.march, .pe, .peMem, .peBad, .peTag]
      (∀ i, i < 512 → inGolden (i * 65536) = false → m.dtest = some i → runs (.destructiveMarchComplete b) s unit fun u =>
        u.march = { m with dtest := none, dtestState := if b then 2 else 3 } ∧ zeroed u i) ∧
      (∀ q : TileId, m.dtest = some (512 + q.val) →
        (runs (.destructiveMarchComplete true) s array fun u =>
          u.march = { m with dtest := none, dtestState := 2 } ∧ blank u q) ∧
        ((tile s q.val).service = .spare → ∃ u, exec (.destructiveMarchComplete false) s = .next u ∧
          u.march = { m with dtest := none, dtestState := 3 } ∧ (tile u q.val).service = .failed)) ∧
      (m.dtest = none → ∀ i c r, m.released = (i, c) :: r → inGolden (i * 65536) = false →
        (runs (.destructiveMarchComplete true) s unit fun u => SMap.get false u.march.released i = false ∧ zeroed u i) ∧
        ((memSt s (i / 64)).service = .inService → ∃ u, exec (.destructiveMarchComplete false) s = .next u ∧
          SMap.get false u.march.released i = false ∧ (memSt u (i / 64)).service = .fenced ∧ hasLogged s u 0x0405)) ∧
      (m.dtest = none → m.released = [] →
        (∀ q, (List.finRange 17).find? (tileTested s) = some q → runs (.destructiveMarchComplete true) s array fun u =>
          u.march = { m with tileDue := SMap.set false m.tileDue q.val false } ∧ blank u q) ∧
        ((∀ q, tileTested s q = false) → exec (.destructiveMarchComplete b) s = .next s)))) ∧
  (∀ (s : State) (w : Window), s.march.window = some w →
    let u := marchTick s
    let compare := w.xm = false ∧ compareUnit s (w.addr / 65536) = true
    let bad := (if w.xm then xmBadAt s w.addr 8 else spBadAt s w.addr 8) = true
    let on := (marchOn s w).march
    let serves := fun (b : Nat) => (memSt s b).service = .inService
    (w.released = true ∨ s.march.passOn = false → u = s) ∧
    (w.released = false → s.march.passOn = true →
      (¬compare → w.complemented = false →
        (¬bad → u = { s with march := { s.march with window := some { w with complemented := true, shadow := windowWord s w } } }) ∧
        (bad → w.xm = false → sameBut [.mem, .obs, .march] s u ∧ u.march = on ∧ hasLogged s u 0x0402 ∧
          (memSt u (w.addr / 4194304)).errors = satInc (satInc (memSt s (w.addr / 4194304)).errors)) ∧
        (bad → w.xm = true → w.addr % 8 = 0 → w.addr < 0x100000 → w.addr % 0x80000 < 0x6A000 →
          mirrorGood s (1 - w.addr / 0x80000) (w.addr % 0x80000) 8 = true →
            xmRead u w.addr 8 = xmRead s ((1 - w.addr / 0x80000) * 0x80000 + w.addr % 0x80000) 8 ∧
              sameBut [.xm, .xmBad, .mem, .obs, .march] s u ∧ u.march = on)) ∧
      (¬compare → w.complemented = true →
        let b := memIndex w.xm w.addr
        (weakIn (if w.xm then s.xmBad else s.spBad) w.addr 8 = false → u = marchOn s w) ∧
        (weakIn (if w.xm then s.xmBad else s.spBad) w.addr 8 = true → serves b →
          (memSt u b).service = .fenced ∧ hasLogged s u 0x0405)) ∧
      (compare → ∀ c, copyOf s w.addr = some c → serves (w.addr / 4194304) → serves (c / 4194304) → w.addr % 8 = 0 →
        (¬bad → spBadAt s c 8 = false →
          (spRead s w.addr 8 = spRead s c 8 → u = marchOn s w) ∧
          (spRead s w.addr 8 ≠ spRead s c 8 → (memSt u (w.addr / 4194304)).service = .fenced)) ∧
        (bad → spBadAt s c 8 = false → spRead u w.addr 8 = spRead s c 8) ∧
        (¬bad → spBadAt s c 8 = true → spRead u c 8 = spRead s w.addr 8))))

/-- Links of cameras (R280, R281): GROUPING, which joins connections of one owner only, and the states of the connections of a group,
which change together: a lock at a speed that MAX_SPEED allows, a discovery that times out, its retry, a loss of lock, which ends the
image in progress, and the end of the hold after it. Each does nothing in another state.
Camera registers (R280, R296, R384, R387): a write at a master is relayed and answered when the camera acknowledges, or after 250 ms
with 0x0606_0000; a malformed one, one at a slave and one while another is out are refused; the reply is read once. Acknowledgement and
timeout do nothing with no request out, and give no confirmation that the session does not await. -/
def Obligations.CameraLinksAndRegisters : Prop :=
  (∀ (s : State) (k : SesId) (c : CxpId) (v : Byte) (g : Fin 7),
    let x := cam s c
    let n := masterOf s c
    let all := fun (e : Instr) (l : List Comp) (n : Link) (f : State → Prop) => runs e s (.cams :: l) fun u => f u ∧
      ∀ d, cam u d = if d ∈ groupOf s c then { cam s d with link := n } else cam s d
    let fast := s.maxSpeed.toNat < [1, 2, 3, 5, 6, 10, 12].getD g.val 0
    (admitted s k 0x2C00 1 1 →
      let legal := v.toNat < 16 ∧ v.toNat % 4 ≠ 3 ∧ v.toNat / 4 ≠ 3
      let alike := ∀ d : CxpId, camOwner s d.val = camOwner s (d.val - d.val % groupSize v d.val)
      (legal → alike → accepts (.grouping k v) s k [.grouping] fun u => u.grouping = v) ∧
      (¬legal ∨ ¬alike → aborts (.grouping k v) s k 0x06090030 [] fun _ => True)) ∧
    (x.link = .discovery →
      (¬fast → all (.cxpDiscoveryLock c g) [] (.up g) fun _ => True) ∧
      (fast → exec (.cxpDiscoveryLock c g) s = .next s) ∧
      all (.cxpDiscoveryTimeout c) [.obs] .down fun u => logged s u 0x0806 c.val s.maxSpeed.toNat) ∧
    (x.link ≠ .discovery → exec (.cxpDiscoveryLock c g) s = .next s ∧ exec (.cxpDiscoveryTimeout c) s = .next s) ∧
    (x.link = .down → all (.cxpDiscoveryRetry c) [] .discovery fun _ => True) ∧
    (x.link ≠ .down → exec (.cxpDiscoveryRetry c) s = .next s) ∧
    (s.obs.due = none →
      ((∀ h, x.link ≠ .up h) → exec (.cxpLossOfLock c) s = .next s) ∧
      (x.link = .up g →
        ((∀ f, (cam s n).frame = some f → f.claim = none ∨ winH f.cfg.window ≤ f.lines) →
          runs (.cxpLossOfLock c) s [.cams] fun u => ∀ d, cam u d =
            let y := if d ∈ groupOf s c then { cam s d with link := .lost } else cam s d
            if d = n then { y with frame := none } else y) ∧
        ∀ f t o b, (cam s n).frame = some f → f.claim = some (t, o.seq, b) → getOrder s t o.seq = some o →
          f.lines < winH f.cfg.window → ∃ u, exec (.cxpLossOfLock c) s = .next u ∧ (∀ d ∈ groupOf s c, (cam u d).link = .lost) ∧
            (cam u n).frame = none ∧ hasLogged s u 0x0804 ∧ abortedWith u t o.seq 0x0B)) ∧
    (x.link = .lost → all (.cxpLostHoldEnd c) [] .discovery fun _ => True) ∧
    (x.link ≠ .lost → exec (.cxpLostHoldEnd c) s = .next s)) ∧
  (∀ (s : State) (k j : SesId) (c : CxpId) (d r : Bytes),
    let x := cam s c
    let i := 0x2C10 + c.val
    let key : Half × Byte := (BitVec.ofNat 16 i, 0x0E)
    let formed := 12 ≤ d.length ∧ leAt d 0 4 ≤ 1 ∧ leAt d 8 4 ≤ 1024 ∧ d.length = 12 + (if leAt d 0 4 = 1 then leAt d 8 4 else 0)
    (admitted s k i 14 d.length →
      (d.length < 12 → aborts (.camRegWrite k c d) s k 0x06070013 [] fun _ => True) ∧
      (12 ≤ d.length → ¬formed → aborts (.camRegWrite k c d) s k 0x08000000 [] fun _ => True) ∧
      (formed → x.regRequest = none → masterOf s c = c → runs (.camRegWrite k c d) s [.ses, .cams] fun u =>
        cam u c = { x with regRequest := some (k, d), regReply := none } ∧ (ses u k).reply = none ∧ key ∈ (ses u k).awaits) ∧
      (formed → x.regRequest ≠ none ∨ masterOf s c ≠ c → aborts (.camRegWrite k c d) s k 0x08000022 [] fun _ => True)) ∧
    (x.regRequest = none → exec (.camRegAck c r) s = .next s ∧ exec (.camRegTimeout c) s = .next s) ∧
    (x.regRequest = some (j, d) →
      (runs (.camRegAck c r) s [.ses, .cams] fun u => cam u c = { x with regRequest := none, regReply := some (r.take 1024) } ∧
        (key ∈ (ses s j).awaits → (ses u j).reply = some ⟨0, []⟩ ∧ key ∉ (ses u j).awaits) ∧
        (key ∉ (ses s j).awaits → u.ses = s.ses)) ∧
      runs (.camRegTimeout c) s [.ses, .cams] fun u => cam u c = { x with regRequest := none } ∧
        (key ∈ (ses s j).awaits → (ses u j).reply = some ⟨0x06060000, []⟩ ∧ key ∉ (ses u j).awaits) ∧
        (key ∉ (ses s j).awaits → u.ses = s.ses)) ∧
    (sesUp s k = true → access s k i 14 false = 0 →
      (x.regReply = some r → runs (.camRegRead k c) s [.ses, .cams] fun u =>
        cam u c = { x with regReply := none } ∧ (ses u k).reply = some ⟨0, r⟩) ∧
      (x.regReply = none → aborts (.camRegRead k c) s k 0x08000024 [] fun _ => True)))

/-- Frame starts (R279, R280, R283, R284, R287, R288, R295, R513): a header of an unsupported kind is discarded and counted; one at a slave
or in DEEP-SLEEP does nothing; another stamps FS_TIME and ends the image in progress, which aborts its order where it was claimed and
not complete. The frame is claimed by the oldest order that waits for the connection, with the settings of the connection, PREARM arming
the binding by LANDING, or counted as UNCLAIMED; one whose shape does not fit is lost. A pre-armed binding that does not fit is a binding
fault, taken at once at an instruction boundary of the running order. A trigger by the frame releases its order.
Stream packets and landings (R201, R279, R280, R283, R285, R286, R295), a connection of a group standing for its master. A packet of an
unsupported kind is discarded and counted; a line of the window of a claimed frame enters the ingest buffer, where retained pixels give
way to it, and is retained in both copies as the DMA side keeps pace, the last line completing the binding; with no room, or a CRC error
within the window, the frame is lost, its order INPUT_LOST; a CRC error outside it is counted; any other line does nothing. An order both
of whose copies are gone loses its input. A landed camera binding counts in FRAMES. -/
def Obligations.FramesIngested : Prop :=
  (∀ (s : State) (c : CxpId) (g : Fin 7) (h : ImageHeader) (t : Tenant) (o : Order) (b : Nat)
      (i : InBind), s.obs.due = none →
    let x := cam s c
    let cfg := x.cfg
    let code := BitVec.ofNat 16 (0x50 + c.val)
    let calm := ∀ f, x.frame = some f → f.claim = none ∨ winH f.cfg.window ≤ f.lines
    ((∀ e, x.link ≠ .up e) ∨ s.clk.sleep = .entered → exec (.frameStart c h) s = .next s) ∧
    (x.link = .up g → s.clk.sleep ≠ .entered →
      (h.format = none → runs (.frameStart c h) s [.cams] fun u => ∀ d, cam u d =
        if d = masterOf s c then { cam s d with discarded := satInc (cam s d).discarded } else cam s d) ∧
      (h.format ≠ none → masterOf s c ≠ c → exec (.frameStart c h) s = .next s) ∧
      (h.format ≠ none → masterOf s c = c →
        (calm → (∀ t', camOwner s c.val = some t' → releaseStart s t' code = none ∧ claimant s t' c = none) →
          runs (.frameStart c h) s [.cams, .fab, .obs] fun u =>
            cam u c = { x with fsTime := s.time, unclaimed := satInc x.unclaimed, frame := some ⟨none, cfg, 0⟩ } ∧
              logged s u 0x0801 c.val (s.time.toNat % 2 ^ 32)) ∧
        (∀ f t' p b', x.frame = some f → f.claim = some (t', p.seq, b') → getOrder s t' p.seq = some p → f.lines < winH f.cfg.window →
          ∃ u, exec (.frameStart c h) s = .next u ∧ (cam u c).fsTime = s.time ∧ hasLogged s u 0x0804 ∧ abortedWith u t' p.seq 0x0B) ∧
        (camOwner s c.val = some t → ∀ q, releaseStart s t code = some q → calm →
          ∃ u, exec (.frameStart c h) s = .next u ∧ ∀ p, getOrder u t q = some p → p.released = true ∧ p.startTime = s.time) ∧
        (camOwner s c.val = some t → releaseStart s t code = none → calm → claimant s t c = some (o, b) →
          getOrder s t o.seq = some o → o.ins[b]? = some i →
          (shapeOk cfg h i.len.toNat = false → ∃ u, exec (.frameStart c h) s = .next u ∧ (cam u c).errors = satInc x.errors ∧
            hasLogged s u 0x0805 ∧ abortedWith u t o.seq 0x0B) ∧
          (shapeOk cfg h i.len.toNat = true → (∀ p ∈ (ten s t).orders, ∀ n ∈ p.ins, n.fault ≠ .due) →
            let armed : InBind := { i with claimed := true, cam := (some cfg), arm := (some ⟨cfg.base, cfg.layout, cfg.toSp⟩) }
            let is := fun (j : InBind) => runs (.frameStart c h) s [.cams, .fab, .tenants] fun u =>
              cam u c = { x with fsTime := s.time, frame := some ⟨some (t, o.seq, b), cfg, 0⟩ } ∧
                ((getOrder u t o.seq).bind fun p => p.ins[b]?) = some j
            (cfg.prearm = false → is { i with claimed := true, cam := some cfg }) ∧
            (cfg.prearm = true → preArmFits s t cfg = true → is { armed with fault := .none }) ∧
            (cfg.prearm = true → preArmFits s t cfg = false →
              (o.st = .accepted → is { armed with fault := .due }) ∧
              ∀ q v, runOrder s t = some o → seqOf s t = some q → (sqr s q.val).tl = false → (sqr s q.val).ws = none →
                (sqr s q.val).midRoutine = false → frozen s = false → handlerAt s t 7 v →
                ∃ u, exec (.frameStart c h) s = .next u ∧
                  trapEntered s u t q 7 v (sqr s q.val).pc.toNat (sqr s q.val).pc.toNat)))))) ∧
  (∀ (s : State) (k c : CxpId) (g : Fin 7) (t : Tenant) (o : Order) (b : Nat) (i : InBind)
      (f : Frame) (line : Nat) (px : List (BitVec 24)) (crc r : Bool), s.obs.due = none → masterOf s k = c →
    let x := cam s c
    let y := winY f.cfg.window
    let d := lineBytes f.cfg px
    let packet := fun (crc r : Bool) => Instr.streamPacket k line px crc true r
    let lost := fun (crc r : Bool) (e : Half) => ∃ u, exec (packet crc r) s = .next u ∧ (cam u c).frame = some { f with claim := none } ∧
      (if e = 0x0802 then (cam u c).overruns = satInc x.overruns else (cam u c).errors = satInc x.errors) ∧ hasLogged s u e ∧
      abortedWith u t o.seq 0x0B
    ((∀ e, x.link ≠ .up e) ∨ s.clk.sleep = .entered → exec (.streamPacket k line px crc true r) s = .next s ∧
      exec (.streamPacket k line px crc false r) s = .next s) ∧
    (x.link = .up g → s.clk.sleep ≠ .entered →
      (runs (.streamPacket k line px crc false r) s [.cams] fun u => cam u c = { x with discarded := satInc x.discarded }) ∧
      (x.frame = none → exec (packet crc r) s = .next s) ∧
      (x.frame = some f →
        (line < y ∨ y + winH f.cfg.window ≤ line → exec (packet true r) s = .next s ∧
          runs (packet false r) s [.cams] fun u => cam u c = { x with errors := satInc x.errors }) ∧
        (y ≤ line → line < y + winH f.cfg.window →
          (f.claim = none ∨ winH f.cfg.window ≤ f.lines → exec (packet crc r) s = .next s) ∧
          (f.claim = some (t, o.seq, b) → getOrder s t o.seq = some o → o.ins[b]? = some i → f.lines < winH f.cfg.window →
            lost false r 0x0803 ∧
            (line ≠ y + f.lines ∨ px.length < winX f.cfg.window + winW f.cfg.window → exec (packet true r) s = .next s) ∧
            (line = y + f.lines → winX f.cfg.window + winW f.cfg.window ≤ px.length →
              (bufLimit < freshTotal x.buf + d.length → lost true r 0x0802) ∧
              (freshTotal x.buf + d.length ≤ bufLimit → i.arm = none → runs (packet true false) s [.cams] fun u =>
                let l := addFresh t o.seq b d x.buf
                cam u c = { x with frame := some { f with lines := f.lines + 1 }, buf := giveWay l (bufTotal l - bufLimit) }) ∧
              (x.buf = [] → 0 < d.length → d.length ≤ bufLimit → i.arm = none →
                (i.copyA = true ∨ i.copyB = true → runs (packet true true) s [.freeCtr, .cams, .tenants, .sp, .spFill] fun u =>
                  cam u c = { x with frame := some { f with lines := f.lines + 1 }, buf := [⟨t, o.seq, b, [], d.length⟩] } ∧
                  ((getOrder u t o.seq).bind fun p => p.ins[b]?) = some { i with
                    data := i.data ++ d, complete := decide (i.data.length + d.length = i.len.toNat) }) ∧
                (i.kind = .camera → i.landed = false → i.claimed = true → i.copyA = false → i.copyB = false →
                  ∃ u, exec (packet true true) s = .next u ∧ abortedWith u t o.seq 0x0B))))))) ∧
    (∀ n : Fin 8,
      let v := landNow s t o.seq n.val
      let bind := (getOrder v t o.seq).bind fun p => p.ins[n.val]?
      (∀ p j a, getOrder v t o.seq = some p → bind = some j → j.arm = some a → mayLand v t p j = true →
        ∃ u, exec (.bindingLanded t o.seq n) s = .next u ∧
          ((getOrder u t o.seq).bind fun p => p.ins[n.val]?) = some { j with landed := true } ∧
          (j.kind = .camera → j.source.toNat = c.val → (cam u c).frames = satInc (cam v c).frames)) ∧
      ((∀ p j, getOrder v t o.seq = some p → bind = some j → mayLand v t p j = false) → exec (.bindingLanded t o.seq n) s = .next v)))

/-- Settings of channels and groups (R326, R337, R344, R345, R352, R356, R359, R363): MODE reconfigures the channel and its partners,
which stay safe until the change completes, with those of its quad that changed with it; SAFE_STATE, FILTER, SPS_ENABLE and the
writer's bits of the output image are set; the clears end latched faults; a value out of range aborts with 0x0609_0030.
PWM outputs (R343): with no cause left the first period begins at the fc edge, a cause ends it, each later one begins PWM_PERIOD ×
16 ns after the one before with the new DUTY and PWM_PERIOD; the output is high, or on, for round(PWM_PERIOD × DUTY / 65,536) × 16 ns at
the start of a period, never with DUTY 0, always with 0xFFFF. -/
def Obligations.FieldSettings : Prop :=
  (∀ (s : State) (k : SesId) (n : FcId) (g : GroupId) (j : Fin 64) (v : Byte),
    let comps : List Comp := [.tenants, .fab, .field, .ident]
    let i := 0x7000 + n.val
    (admitted s k i 1 1 →
      (modeBad s (sesTenant k) n v = true → aborts (.mode k n v) s k 0x06090030 [] fun _ => True) ∧
      (modeBad s (sesTenant k) n v = false → modeBusy s n v = true → aborts (.mode k n v) s k 0x08000022 [] fun _ => True) ∧
      (modeBad s (sesTenant k) n v = false → modeBusy s n v = false → accepts (.mode k n v) s k comps fun u =>
        fieldIs s u (fun m x => match (modesAfter s n v).lookup m with
          | some w => { x with
              mode := w, val := 0, hist := [], level := (fch u m).level, encB := (fch u m).encB, swapped := false
              changing := true, diag := x.diag.filter fun c => decide (c = 0x01 ∨ c = 0x02 ∨ c = 0x07) }
          | none => x) same)) ∧
    ((fch s n).changing = true → runs (.modeChangeComplete n) s [.fab, .field] fun u =>
      fieldIs s u (fun m x => { x with changing := (fch u m).changing }) same ∧ (fch u n).changing = false ∧
      (∀ p, p ∈ partnersOf n (fch s n).mode ∨ p / 4 = n.val / 4 → (fch s p).mode = 13 ∨ (fch s p).mode = 0 →
        (fch u p).changing = false) ∧
      ∀ m, m ∉ partnersOf n (fch s n).mode → m / 4 ≠ n.val / 4 → (fch u m).changing = (fch s m).changing) ∧
    ((fch s n).changing = false → runs (.modeChangeComplete n) s [.fab, .field] fun u => fieldIs s u same same) ∧
    (admitted s k i 2 1 →
      (v.toNat ≤ 2 → accepts (.safeState k n v) s k comps fun u => fieldIs s u (onOne n fun x => { x with safe := v }) same) ∧
      (2 < v.toNat → aborts (.safeState k n v) s k 0x06090030 [] fun _ => True)) ∧
    (admitted s k i 3 1 → accepts (.filter k n v) s k comps fun u =>
      fieldIs s u (onOne n fun x => { x with filter := v }) same) ∧
    (admitted s k 0x6200 (j.val + 1) 1 → accepts (.doutImage k j v) s k [.field] fun u =>
      u.field = { s.field with dout := u.field.dout } ∧ ∀ m, (SMap.get 0 u.field.dout (m / 8)).getLsbD (m % 8) =
        if m / 8 = j.val ∧ ownsFc s (sesTenant k) m = true then v.getLsbD (m % 8)
        else (SMap.get 0 s.field.dout (m / 8)).getLsbD (m % 8)) ∧
    (admitted s k i 14 1 →
      (accepts (.diagClear k n 1) s k comps fun u => fieldIs s u (onOne n fun x => { x with
        forcedOff := false, diag := x.diag.filter fun c => decide (c ≠ 0x01 ∧ c ≠ 0x02 ∧ c ≠ 0x07) }) same) ∧
      (v ≠ 1 → aborts (.diagClear k n v) s k 0x06090030 [] fun _ => True)) ∧
    (admitted s k (0x6420 + g.val) 2 1 →
      (v.toNat ≤ 1 → accepts (.spsEnable k g v) s k comps fun u => fieldIs s u same (onOne g fun x => { x with
        spsEnable := v, spsOverload := x.spsOverload && decide (v = 1), spsReverse := x.spsReverse && decide (v = 1) })) ∧
      (1 < v.toNat → aborts (.spsEnable k g v) s k 0x06090030 [] fun _ => True)) ∧
    (admitted s k (0x6420 + g.val) 4 1 →
      (accepts (.groupClear k g 1) s k comps fun u =>
        fieldIs s u (fun m x => if m / 16 = g.val then { x with escalated := false } else x)
          (onOne g fun x => { x with faulted := false, adcStopped := false })) ∧
      (v ≠ 1 → aborts (.groupClear k g v) s k 0x06090030 [] fun _ => True))) ∧
  (∀ (s : State) (n : FcId) (t : DWord),
    let x := fch s n
    (x.pwmRunning = true → runs (.pwmPeriodStart n) s [.field] fun u => ∀ m, fch u m = onOne n.val (fun y : Fc =>
      { y with pwmNow := y.pwmPeriod, dutyNow := y.duty, pwmFrom := y.pwmFrom + BitVec.ofNat 64 (16 * y.pwmNow.toNat) }) m (fch s m)) ∧
    (x.pwmRunning = false → exec (.pwmPeriodStart n) s = .next s) ∧
    (isPwm x.mode = true →
      (anyCause s n = true → fch (pwmEdge s n) n = { x with pwmRunning := false }) ∧
      (anyCause s n = false → x.pwmRunning = true → pwmEdge s n = s) ∧
      (anyCause s n = false → x.pwmRunning = false → fch (pwmEdge s n) n =
        { x with pwmRunning := true, pwmNow := x.pwmPeriod, dutyNow := x.duty, pwmFrom := nextEdge s }) ∧
      (let on := pwmOn x
       let rest : Drive := if isHighSide x.mode then .off else .low
       (pwmHigh x t = true ↔ t.toNat < x.pwmFrom.toNat + 16 * on) ∧
       (x.dutyNow = 0 → on = 0) ∧ (x.dutyNow = 0xFFFF → on = x.pwmNow.toNat) ∧
       (x.dutyNow ≠ 0xFFFF → 131072 * on ≤ 2 * x.pwmNow.toNat * x.dutyNow.toNat + 65536 ∧
         2 * x.pwmNow.toNat * x.dutyNow.toNat < 131072 * on + 65536) ∧
       (anyCause s n = false → landDrive s n = if on = 0 then rest else if on < x.pwmNow.toNat then .pwm else .high))))

/-- What channels take in (R25, R338, R341, R342, R346, R348), while the field die lives and the fabric's clock runs: a filtered edge
counts as the mode and OPTIONS say; an encoder's edge moves its position, both signals at once are an error, counted in FAULTS; a slot's
code is the voltage rounded, or the nearest bound with ADC_RANGE, and feeds the windows. Otherwise nothing happens. -/
def Obligations.FieldInputs : Prop := ∀ (s : State) (n : FcId) (h : Fin 128) (g : GroupId) (q : Nat) (l a b : Bool) (uv : Int),
  let hears := isDin (fch s n).mode = true ∨ isCounter (fch s n).mode = true ∨ isOut (fch s n).mode = true ∨ (fch s n).mode = 5
  (fcHears s = false → exec (.fieldInputChange n l) s = .next s ∧ exec (.encoderEdge h a b) s = .next s ∧
    exec (.adcSlot g uv) s = .next s) ∧
  (fcHears s = true →
    (¬hears ∨ l = (fch s n).level → exec (.fieldInputChange n l) s = .next s) ∧
    (let x := fch s n
     hears → l ≠ x.level → runs (.fieldInputChange n l) s [.fab, .field] fun u =>
       fieldIs s u (onOne n fun x => { x with level := l, val := if isDin x.mode && l then x.val + 1 else x.val }) same ∧
       (isCounter x.mode = true →
         (fch u n).val = (if x.out && (decide (x.options.toNat % 4 = 2 ∨ 3 ≤ x.options.toNat % 4) ||
           (if x.options.toNat % 4 = 0 then l else !l)) then x.val + 1 else x.val) ∨
         (fch u n).val = 0 ∧ x.duty.getLsbD 0 = false ∧ (fch u n).duty.getLsbD 0 = true)) ∧
    (let m := 4 * h.val
     let x := fch s m
     let fwd := decide ((x.level, x.encB, a, b) ∈ [(false, false, true, false), (true, false, true, true),
       (true, true, false, true), (false, true, false, false)])
     let gives := fun (f : Fc → Fc) => runs (.encoderEdge h a b) s [.fab, .field] fun u => fieldIs s u (onOne m f) same
     (x.mode ≠ 6 → exec (.encoderEdge h a b) s = .next s) ∧
     (x.mode = 6 →
       (a = x.level → b = x.encB → gives id) ∧
       ((a ≠ x.level ∧ b = x.encB) ∨ (a = x.level ∧ b ≠ x.encB) → gives fun y => { y with
         level := a, encB := b, val := if fwd = y.options.getLsbD 2 then y.val - 1 else y.val + 1 }) ∧
       (a ≠ x.level → b ≠ x.encB → gives fun y => { y with
         level := a, encB := b, faults := satInc y.faults,
         diag := if y.diag.contains 0x09 then y.diag else y.diag ++ [0x09] }))) ∧
    (let m := 16 * g.val + q
     let x := fch s m
     let per := if x.mode = 7 then 6400 else 3200
     let lo : Int := if x.mode = 7 then 0 else -32768
     let hi : Int := if x.mode = 7 then 65535 else 32767
     ((grp s g).adcStopped = true ∨ adcScan s g = [] → exec (.adcSlot g uv) s = .next s) ∧
     ((grp s g).adcStopped = false → nextScan (adcScan s g) (grp s g).adcPos = some q →
     runs (.adcSlot g uv) s [.freeCtr, .tenants, .sp, .spFill, .fab, .field] fun u =>
       let v := (fch u m).val
       fieldIs s u (onOne m fun y => { y with val := v, hist := ((s.time - 500, v) :: y.hist).take 255, diag := (fch u m).diag })
         (onOne g fun y => { y with adcPos := q + 1 }) ∧
       (∀ c, lo ≤ c → c ≤ hi → 2 * (per * uv - 1000000 * c) < 1000000 → -1000000 < 2 * (per * uv - 1000000 * c) →
         v = BitVec.ofInt 16 c ∧ (c ≠ lo → c ≠ hi → (fch u m).diag = x.diag)) ∧
       (1000000 * hi ≤ per * uv → v = BitVec.ofInt 16 hi ∧ 0x08 ∈ (fch u m).diag) ∧
       (per * uv ≤ 1000000 * lo → v = BitVec.ofInt 16 lo ∧ 0x08 ∈ (fch u m).diag) ∧
       ∀ t, ten u t = { ten s t with orders := (ten s t).orders.map fun o =>
         { o with ins := o.ins.map (feedWindow o.startTime (s.time - 500) g q v) } })))

/-- Channel diagnoses (R351–R354): each at its onset enters the channel, counts in FAULTS, is logged and sent; SHORT_GND,
SHORT_SUPPLY and OVERTEMP force the channel OFF, again and counted at each detection after a retry; a test given up counts in
ABANDONED; a reversed pair is swapped with DIAG_EN[3]; a diagnosis present is not raised anew. Where the table calls for no diagnosis
nothing happens. -/
def Obligations.FieldDiagnoses : Prop := ∀ (s : State) (n : FcId) (b : Bool) (c : Byte),
  let x := fch s n
  let d := landDrive s n
  let none := fun (cmd : Instr) => exec cmd s = .next s
  let raised := fun (cmd : Instr) (code : Byte) (off : Bool) (emcy : Half) =>
   (x.diag.contains code = true →
     (off = false ∨ x.forcedOff = true → none cmd) ∧
     (off = true → x.forcedOff = false → runs cmd s [.fab, .field] fun u =>
       fieldIs s u (onOne n fun y => { y with faults := satInc y.faults, forcedOff := true }) same)) ∧
   (x.diag.contains code = false →
    runs cmd s [.tenants, .fab, .field, .ses, .obs] fun u =>
      fieldIs s u (onOne n fun y => { y with
        faults := satInc y.faults, diag := y.diag ++ [code], forcedOff := y.forcedOff || off }) same ∧
      logged s u 0x0701 (n.val / 16) n ∧ told s u (fcOwner s n).toList emcy
        (leBytes 2 n ++ if emcy = 0x4210 then [] else [code]))
  let given := fun (cmd : Instr) => runs cmd s [.fab, .field] fun u =>
    fieldIs s u (onOne n fun y => { y with abandoned := satInc y.abandoned }) same
  let when := fun (p : Prop) (yes no : Prop) => (p → yes) ∧ (¬p → no)
  let live := fcDead s = false
  let sources := isOut x.mode = true ∧ (d = .high ∨ d = .pwm)
  when sources (raised (.shortGnd n) 0x01 true 0x2310) (none (.shortGnd n)) ∧
  when ((x.mode = 3 ∨ x.mode = 9) ∧ (d = .low ∨ d = .pwm)) (raised (.shortSupply n) 0x02 true 0x2310) (none (.shortSupply n)) ∧
  when live (raised (.overtemp n) 0x07 true 0x4210) (none (.overtemp n)) ∧
  when (live ∧ (isDin x.mode = true ∨ isCounter x.mode = true) ∧ x.diagEn.getLsbD 0 = true ∧ x.level = false)
    (raised (.openWire n) 0x03 false 0xFF11) (none (.openWire n)) ∧
  when (live ∧ isAin x.mode = true ∧ x.diagEn.getLsbD 0 = true)
    (given (.ainOpenWirePulse n true b) ∧ none (.ainOpenWirePulse n false false) ∧
      when (channelFilling s n = false) (raised (.ainOpenWirePulse n false true) 0x03 false 0xFF11)
        (none (.ainOpenWirePulse n false true)))
    (none (.ainOpenWirePulse n true b) ∧ none (.ainOpenWirePulse n false b)) ∧
  when (sources ∧ x.diagEn.getLsbD 0 = true) (raised (.openLoadOn n) 0x04 false 0xFF11) (none (.openLoadOn n)) ∧
  when (live ∧ isOut x.mode = true ∧ x.diagEn.getLsbD 1 = true)
    ((d ≠ .off → given (.openLoadOff n b)) ∧
      (d = .off → raised (.openLoadOff n true) 0x0A false 0xFF11 ∧ none (.openLoadOff n false)))
    (none (.openLoadOff n b)) ∧
  when (live ∧ x.mode = 5 ∧ x.diagEn.getLsbD 2 = true ∧ x.swapped = false) (
    (x.diagEn.getLsbD 3 = false → raised (.reversed n) 0x05 false 0xFF11) ∧
    (x.diagEn.getLsbD 3 = true → runs (.reversed n) s [.fab, .field] fun u =>
      fieldIs s u (onOne n fun y => { y with
        swapped := true, diag := (y.diag.filter fun e => decide (e ≠ 0x05)) ++ [0x06] }) same)) (none (.reversed n)) ∧
  when (x.forcedOff = true ∧ x.diagEn.getLsbD 4 = true ∧ live)
    (runs (.diagRetry n) s [.fab, .field] fun u => fieldIs s u (onOne n fun y => { y with forcedOff := false }) same)
    (none (.diagRetry n)) ∧
  when (x.diag.contains c = true ∧ c ≠ 0x06 ∧ (x.forcedOff = true → c ≠ 0x01 ∧ c ≠ 0x02 ∧ c ≠ 0x07))
    (runs (.diagnosisEnd n c) s [.tenants, .fab, .field, .ses] fun u =>
      fieldIs s u (onOne n fun y => { y with diag := y.diag.filter fun e => decide (e ≠ c) }) same)
    (none (.diagnosisEnd n c))

/-- Dike groups (R345, R355, R356, R358): a sensor supply's fault, logged and sent once, and its end; a group declared faulted by its
current, the module's budget or a monitor, which aborts the orders bound to it with cause 0x0A; the channels that an overcurrent then
still finds with a high safe state are forced OFF; silence of the crossing. Where nothing is to be done nothing happens. -/
def Obligations.DikeGroups : Prop := ∀ (s : State) (g : GroupId) (ma : Half) (w : Fin 3) (b : Bool), s.obs.due = none →
  let x := grp s g
  let none := fun (cmd : Instr) => exec cmd s = .next s
  let when := fun (p : Prop) (yes no : Prop) => (p → yes) ∧ (¬p → no)
  let sps := fun (cmd : Instr) (f : Group → Group) => runs cmd s [.tenants, .fab, .field, .ses] fun u =>
    fieldIs s u same (onOne g f)
  let onset := fun (cmd : Instr) (code : Byte) (f : Group → Group) =>
    runs cmd s [.tenants, .fab, .field, .ses, .obs] fun u => fieldIs s u same (onOne g f) ∧
      logged s u 0x0703 g code.toNat ∧ told s u (groupOwners s g) 0x2320 [BitVec.ofNat 8 g, code]
  let faulted := fun (cmd : Instr) (h : Nat) (cause : BitVec 4) (f : Nat → Group → Group) => ∃ u, exec cmd s = .next u ∧
    (∀ m, (fch u m).kept = (fch s m).kept) ∧ hasLogged s u 0x0702 ∧
    (∀ j, grp u j = if j = h then { f j (grp s j) with
      faulted := true, cause := cause, faults := satInc (grp s h).faults
      adcStopped := (grp s h).adcStopped || decide (cause = 3) } else f j (grp s j)) ∧
    ∀ t, ∀ q ∈ groupOrders s t h, ∃ r ∈ (ten u t).records ++ (ten u t).unrec, r.seq = q ∧ r.outcome = 2 ∧
      ((∀ t o, runOrder s t = some o → o.reexec = false) → r.cause = 0x0A)
  let measured := onOne g.val fun (y : Group) => { y with outCurrent := ma }
  when (fcDead s = false ∧ x.spsEnable ≠ 0 ∧ x.spsReverse = false ∧ x.spsOverload = false)
    (onset (.spsOverload g) 0x10 fun y => { y with spsOverload := true }) (none (.spsOverload g)) ∧
  when (fcDead s = false ∧ x.spsEnable ≠ 0 ∧ x.spsReverse = false)
    (onset (.spsReverse g) 0x11 fun y => { y with spsReverse := true }) (none (.spsReverse g)) ∧
  when (x.spsOverload = true) (sps (.spsRetry g) fun y => { y with spsOverload := false }) (none (.spsRetry g)) ∧
  when (x.spsReverse = true) (sps (.spsReverseEnd g) fun y => { y with spsReverse := false }) (none (.spsReverseEnd g)) ∧
  (ma.toNat ≤ 400 ∨ x.faulted = true → runs (.groupCurrentAverage g ma) s [.field] fun u =>
    u.field = { s.field with grp := u.field.grp } ∧ ∀ j, grp u j = measured j (grp s j)) ∧
  (x.faulted = false → 400 < ma.toNat → faulted (.groupCurrentAverage g ma) g 1 measured) ∧
  (x.faulted = false → 4000 < totalCurrent s → (∀ j, j < 32 → j ≠ g.val → (grp s j).faulted = false →
      (grp s j).outCurrent.toNat < x.outCurrent.toNat ∨ (grp s j).outCurrent = x.outCurrent ∧ g.val < j) →
    faulted .moduleBudgetCheck g 2 same) ∧
  (totalCurrent s ≤ 4000 ∨ (∀ j, j < 32 → (grp s j).faulted = true) → none .moduleBudgetCheck) ∧
  when (x.faulted = false) (faulted (.groupMonitorTrip g w) g (BitVec.ofNat 4 (3 + w.val)) same) (none (.groupMonitorTrip g w)) ∧
  when (x.faulted = true ∧ (x.cause = 1 ∧ 400 < x.outCurrent.toNat ∨ x.cause = 2 ∧ 4000 < totalCurrent s))
    (runs (.groupOvercurrentEscalation g) s [.fab, .field] fun u => fieldIs s u
      (fun m y => if m / 16 = g.val ∧ isOut y.mode = true ∧ y.safe = 2 then { y with escalated := true } else y) same)
    (none (.groupOvercurrentEscalation g)) ∧
  runs (.crossingSilence 0 b) s [.fab, .field] (fun u => (∀ m, (fch u m).kept = (fch s m).kept) ∧
    u.field = { s.field with silenceA := !b, ch := u.field.ch }) ∧
  runs (.crossingSilence 1 b) s [.fab, .field] fun u => (∀ m, (fch u m).kept = (fch s m).kept) ∧
    u.field = { s.field with silenceB := !b, ch := u.field.ch }

/-- Cells (R301–R303, R312): a cell executes its entry, which must be the command's operation, on its operands of the present fc:
Q, O, T, the flags and SC take their new values at the next edge; no other cell changes. A cell that has executed the present fc
begins the next one. With another operation in the entry, in a region that does not run, or with the fabric's clock stopped, nothing
happens. -/
def Obligations.FabricCells : Prop := ∀ (s : State) (r : Fin 64) (c : Fin 32),
  let able := regionRuns s (c.val / 4) = true ∧ s.fab.clk ≠ .stopped
  let w := cellEntry s r c
  let x := cell s r c
  let fresh := decide (x.last ≤ s.fab.fc)
  let v := if fresh then s else nextFc s
  let a := cellOperand v r c v.fab.fc (bField w 26 24)
  let b : Half := if w.getLsbD 20 then BitVec.ofInt 16 (w.truncate 7 : BitVec 7).toInt
    else cellOperand v r c v.fab.fc (bField w 23 21)
  let e0 := cellCtl v r c v.fab.fc 0
  let e1 := cellCtl v r c v.fab.fc 1
  let done := fun (cmd : Instr) (op : Nat) (y : Half) (cy ov : Bool) => (¬able ∨ bField w 31 27 ≠ op → exec cmd s = .next s) ∧
    (able → bField w 31 27 = op → runs cmd s [.freeCtr, .time, .tiles, .pe, .peMem, .peBad, .peTag, .seqs, .ctxs, .tenants,
        .lastYield, .sp, .xm, .spBad, .xmBad, .spFill, .xmFill, .mem, .march, .noc, .cams, .fab, .field, .ses, .clk, .obs] fun u =>
      let z := decide (y = 0)
      let n := decide (0x8000 ≤ y.toNat)
      u.fab.fc = (if fresh then s.fab.fc else s.fab.fc + 1) ∧
      u.time = (if fresh then s.time else nextEdge s) ∧
      (∀ r' c', 32 * r' + c' ≠ 32 * r.val + c.val → cell u r' c' = cell s r' c') ∧
      cell u r c = {
        sc := match bField w 8 7 with
          | 0 => BitVec.ofNat 3 (bField w 11 9)
          | 1 => if e0 then BitVec.ofNat 3 (bField w 11 9) else x.sc
          | 2 => if e1 && !x.prevE1 then BitVec.ofNat 3 (bField w 11 9) else x.sc
          | _ => if z then BitVec.ofNat 3 (bField w 11 9) else x.sc + 1
        q := if w.getLsbD 17 then x.q.set (bField w 19 18) y else x.q
        o := if w.getLsbD 16 then y else x.o
        t := match bField w 14 12 with
          | 0 => x.t
          | 1 => z
          | 2 => n
          | 3 => cy
          | 4 => ov
          | 5 => e0
          | 6 => e1
          | _ => !z
        z := if w.getLsbD 15 then z else x.z
        n := if w.getLsbD 15 then n else x.n
        cy := if w.getLsbD 15 then cy else x.cy
        v := if w.getLsbD 15 then ov else x.v
        last := v.fab.fc + 1, prevO := x.o, prevT := x.t, prevE1 := e1 })
  let plain := fun (cmd : Instr) (op : Nat) (y : Half) => done cmd op y false false
  let out := fun (y : Int) => decide (y < -32768 ∨ 32767 < y)
  plain (.cellPass r c) 0 a ∧
  done (.cellAdd r c) 1 (BitVec.ofNat 16 (a.toNat + b.toNat)) (decide (65536 ≤ a.toNat + b.toNat)) (out (a.toInt + b.toInt)) ∧
  done (.cellSub r c) 2 (BitVec.ofInt 16 (a.toInt - b.toInt)) (decide (b.toNat ≤ a.toNat)) (out (a.toInt - b.toInt)) ∧
  plain (.cellAnd r c) 3 (a &&& b) ∧ plain (.cellOr r c) 4 (a ||| b) ∧ plain (.cellXor r c) 5 (a ^^^ b) ∧
  plain (.cellNot r c) 6 (0xFFFF - a) ∧
  plain (.cellShl r c) 7 (BitVec.ofNat 16 (a.toNat * 2 ^ (b.toNat % 16))) ∧
  plain (.cellShr r c) 8 (BitVec.ofNat 16 (a.toNat / 2 ^ (b.toNat % 16))) ∧
  plain (.cellSra r c) 9 (BitVec.ofInt 16 (a.toInt / 2 ^ (b.toNat % 16))) ∧
  plain (.cellMux r c) 10 (if e0 then b else a) ∧
  done (.cellCnt r c) 11 (if e0 then a + 1 else a) (e0 && decide (a.toNat = 65535)) false ∧
  plain (.cellMinu r c) 12 (BitVec.ofNat 16 (min a.toNat b.toNat)) ∧
  plain (.cellMaxu r c) 13 (BitVec.ofNat 16 (max a.toNat b.toNat)) ∧
  plain (.cellTime r c) 14 (BitVec.ofNat 16 (v.time.toNat / 2 ^ (16 * (b.toNat % 4))))

/-- Loads (R299, R319–R322, R387, R463): a write that the checks pass holds its regions until it reads back; a refused one leaves
LOAD_STATE 3 and aborts with 0x0800_0000, one that may not start leaves 4 and aborts with 0x0800_0022. On FABRIC_LOAD_COMPLETE the
regions run in the new configuration, counted in LOADS, and a session that awaits it has its confirmation; a load that reads back
otherwise is refused. A region removed from a tenant stays held until its null configuration is loaded, one region after another.
CAPTURE, PROBE_SEL, the clock ramp and the serial ports (R310, R316, R331–R333, R423, R424): a capture copies the writer's regions,
zeros for a held one, and marks an unread copy overwritten; a step of the ramp goes on, ends it, or turns it round where the profile
now calls for the other rate; a serial port shows a received byte in the next fc, an SPI or I²C controller within an exchange only
(the model's reading, log 70), and sends the byte of TXD once in each fc with the strobe. -/
def Obligations.FabricLoadsAndPorts : Prop :=
  (∀ (s : State) (k : SesId) (full : Bool) (d : Bytes),
    let cmd := if full then Instr.fullLoad k d else .partialLoad k d
    let t := sesTenant k
    let b := parseBits d
    let region := if full then none else oneRegion b.mask
    let v := if full then s else spWrite s stagingAddr d
    (admitted s k (if full then 0x2B01 else 0x2B02) 1 d.length → 64 ≤ d.length →
      (loadBusy s full = true → aborts cmd s k 0x08000022 [.fab] fun u => u.fab = { s.fab with loadState := 4 }) ∧
      (loadBusy s full = false → chkLoad v t full d b = none → ∃ u, exec cmd s = .next u ∧ (ses u k).reply = none ∧
        u.fab.load = some ⟨region, loadCfg s.fab.cfg region b.recs, b.crc, b.counter, some k, if full then d else []⟩ ∧
        u.fab.loadState = 2 ∧ u.fab.cfg = s.fab.cfg ∧
        (∀ j : RegionId, regionSt u j = if region = none ∨ region = some j then .held else regionSt s j) ∧
        sameBut [.fab, .field, .ident, .sp, .spBad, .march, .ses] s u) ∧
      (∀ e r, loadBusy s full = false → chkLoad v t full d b = some (e, r) →
        aborts cmd s k 0x08000000 [.fab, .ident, .obs, .sp, .spBad, .march] fun u =>
          u.fab = { s.fab with loadState := 3, loadError := e.word, loadErrorBy := some t, rejects := satInc s.fab.rejects } ∧
          hasLogged s u 0x0601)) ∧
    (∀ l, s.fab.load = some l → ∃ u, exec .fabricLoadComplete s = .next u ∧ u.fab.load = none ∧ u.fab.owed = s.fab.owed ∧
      (∀ j : RegionId, l.region = none ∨ l.region = some j → (∀ o ∈ s.fab.owed, o ≠ j) → regionRuns u j = true) ∧
      (∀ j ∈ s.fab.owed, regionSt u j.val = .held) ∧
      (loadCrc l = l.crc →
        u.fab.cfg = l.cfg ∧ u.fab.loadState = (if s.fab.owed = [] then 0 else 2) ∧ u.fab.loads = satInc s.fab.loads ∧
        (∀ j, l.ses = some j → (loadIndex l.region.isNone, 1) ∈ (ses s j).awaits → (ses u j).reply = some ⟨0, []⟩) ∧
        (let n := match l.region with | some j => ctrPart j.val | none => ctrFab
         (counter s n).toNat ≤ l.counter.toNat → counter u n = l.counter)) ∧
      (loadCrc l ≠ l.crc →
        u.fab.loadState = (if s.fab.owed = [] then 3 else 2) ∧ u.fab.rejects = satInc s.fab.rejects ∧ hasLogged s u 0x0601 ∧
        ∀ j, l.ses = some j → (loadIndex l.region.isNone, 1) ∈ (ses s j).awaits → (ses u j).reply = some ⟨0x08000000, []⟩)) ∧
    (s.fab.load = none → s.obs.due = none → s.fab.owed = [] → exec .fabricLoadComplete s = .next s) ∧
    ∀ n l, s.fab.load = none → s.fab.owed = n :: l → ∃ u, exec .fabricLoadComplete s = .next u ∧ u.fab.cfg = nullRegion s.fab.cfg n.val ∧
      u.fab.owed = l ∧ u.fab.loads = satInc s.fab.loads ∧ u.fab.loadState = (if l = [] then 0 else 2) ∧
      (n ∉ l → regionRuns u n.val = true) ∧ ∀ j ∈ l, regionSt u j.val = .held) ∧
  (∀ (s : State) (k : SesId) (v x : Byte) (j : Fin 4) (p : Fin 2) (up : Bool) (m : Fin 3),
    (admitted s k 0x2B05 1 1 →
      (accepts (.capture k 1) s k [.fab] fun u => ∀ g, g < 8 →
        let st := s.fab.captureState
        let held := decide (regionSt s g = .held)
        if regionOwner s g = some (sesTenant k) then
          u.fab.captureState.getLsbD g = true ∧ u.fab.captureState.getLsbD (g + 8) = (held || st.getLsbD g || st.getLsbD (g + 8)) ∧
          SMap.get [] u.fab.captured g = (List.range 64).flatMap fun r => (List.range 4).flatMap fun c =>
            if held then List.replicate 12 0 else (cell s r (4 * g + c)).bytes
        else u.fab.captureState.getLsbD g = st.getLsbD g ∧ u.fab.captureState.getLsbD (g + 8) = st.getLsbD (g + 8) ∧
          SMap.get [] u.fab.captured g = SMap.get [] s.fab.captured g) ∧
      (v ≠ 1 → aborts (.capture k v) s k 0x06090030 [] fun _ => True)) ∧
    (admitted s k 0x2B06 (j.val + 1) 1 →
      let own := regionOwner s (v.toNat / 2)
      (v = 0xFF ∨ (v.toNat < 16 ∧ (own = none ∨ own = some 0)) → accepts (.probeSel k j v) s k [.fab] fun u =>
        ∀ i, SMap.get 0xFF u.fab.probe i = if i = j.val then v else SMap.get 0xFF s.fab.probe i) ∧
      (v ≠ 0xFF → 16 ≤ v.toNat ∨ (own ≠ none ∧ own ≠ some 0) → aborts (.probeSel k j v) s k 0x06090030 [] fun _ => True)) ∧
    (s.fab.clk = .ramping up m → s.sup.vcore = .normal → runs .fabricClockRampStep s [.noc, .fab, .clk] fun u =>
      u.fab = { s.fab with clk :=
        (if fabFull s = up then (if m.val < 2 then .ramping up (m + 1) else if up then .full else .quarter)
         else .ramping (!up) (if m.val < 2 then 1 - m else 0)) }) ∧
    (s.sup.vcore ≠ .normal → exec .fabricClockRampStep s = .next s) ∧
    (let mode := (SMap.get 0 s.fab.serialMode p.val).toNat % 4
     let opened := SMap.get 0 s.fab.txOpen p.val
     let takes := regionRuns s (7 * p.val) = true ∧ (mode = 1 ∨ 2 ≤ mode ∧ 0 < opened)
     (¬takes → exec (.serialRxByte p x) s = .next s) ∧
     (takes → runs (.serialRxByte p x) s [.fab] fun u => u.fab = { s.fab with rxd := u.fab.rxd, txOpen := u.fab.txOpen } ∧
       (∀ i, SMap.get (0, 0) u.fab.rxd i = if i = p.val then (s.fab.fc + 1, x) else SMap.get (0, 0) s.fab.rxd i) ∧
       ∀ i, SMap.get 0 u.fab.txOpen i = SMap.get 0 s.fab.txOpen i - (if i = p.val ∧ mode = 2 then 1 else 0)) ∧
     (let w := selVal s 62 (if p = 0 then 2 else 30) (s.fab.fc + 1) (SMap.get (0xFF, 0xFF, 0xFF) s.fab.cfg.ports (0x210 + p.val)).1
      let u := sampleTxd s p.val
      let sent := SMap.get [] s.fab.txd p.val
      sameBut [.fab] s u ∧ SMap.get [] u.fab.txd p.val =
        if regionRuns s (7 * p.val) = true ∧ mode ≠ 0 ∧ w.testBit 8 = true ∧ SMap.get 0 s.fab.txFc p.val ≠ s.fab.fc + 1
        then sent ++ [BitVec.ofNat 8 w] else sent)))

/-- Accesses (R372, R384): a write that fails a step is answered with that step's abort code, which the error object holds with the
object's address, and has no effect; with no session that carries SDOs nothing happens.
Writes of objects (R296, R316, R362, R372, R405, R409, R439, R474, R488): each setting takes the values that its rule allows, and any
other aborts with 0x0609_0030; a write of an object that has a command of its own is that command. -/
def Obligations.AccessSteps : Prop :=
  (∀ (s : State) (k : SesId) (index : Half) (sub : Byte) (d : Bytes),
    let a := access s k index.toNat sub.toNat true
    let no := fun (code : Word) => aborts (.registerWrite k index sub d) s k code [] fun u =>
      (ses u k).lastAbortObj = BitVec.ofNat 32 (index.toNat * 65536 + sub.toNat * 256)
    (sesUp s k = true →
      (indexHere s k index.toNat = false ∨ rowsOf (locOf index.toNat).base (ses s k).agreed = [] → no 0x06020000) ∧
      (indexHere s k index.toNat = true → rowsOf (locOf index.toNat).base (ses s k).agreed ≠ [] →
        (findRow s k index.toNat sub.toNat = none → no 0x06090011) ∧
        ∀ r, findRow s k index.toNat sub.toNat = some r →
          let l := locOf index.toNat
          let rd := isWho s k l sub.toNat r.rd || sharedRead s k l index.toNat sub.toNat r.acc r.rd
          let wr := isWho s k l sub.toNat r.wr
          (rd = false → wr = false → no 0x06010000) ∧
          (r.acc = .const ∨ r.acc = .ro ∨ r.acc = .rwr → rd = true ∨ wr = true → no 0x06010002) ∧
          (r.acc = .wo ∨ r.acc = .rw ∨ r.acc = .rww → wr = false → no 0x06010000) ∧
          (a = 0 → initCheck s k index.toNat sub.toNat = 0 →
            (r.ty ≠ .domain → r.size ≠ d.length → no 0x06070010) ∧
            (r.ty = .domain → domainLimit r.base < d.length → no 0x06070012))) ∧
      (a = 0 → initCheck s k index.toNat sub.toNat ≠ 0 → no 0x08000022)) ∧
    (sesUp s k = false → exec (.registerWrite k index sub d) s = .next s)) ∧
  (∀ (s : State) (k : SesId) (v : Nat) (c : CxpId) (n : FcId) (p : Fin 4) (t : Tenant) (d : Bytes)
      (b : Byte) (h : Half) (w : Word) (g : GroupId) (j : Fin 64) (i : Fin 32) (tx : Bool),
    let put := fun (index sub : Nat) (d : Bytes) => Instr.registerWrite k (BitVec.ofNat 16 index) (BitVec.ofNat 8 sub) d
    let set := fun (index sub len : Nat) (legal : Prop) (l : List Comp) (eff : State → Prop) =>
      admitted s k index sub len → v < 256 ^ len →
        (legal → accepts (put index sub (leBytes len v)) s k l eff) ∧
        (¬legal → aborts (put index sub (leBytes len v)) s k 0x06090030 [] fun _ => True)
    let clk := fun (sub lo : Nat) (f : BitVec 16 → Freq) => set 0x2202 sub 2 (v % 25 = 0 ∧ lo ≤ v ∧ v ≤ 2 * lo) [.clk, .ident] fun u =>
      u.clk = { s.clk with set := f (BitVec.ofNat 16 v) }
    let cxp := fun (sub len : Nat) (legal : Prop) (f : Cam → Cam) => set (0x2C10 + c.val) sub len legal [.cams] fun u =>
      ∀ e, cam u e = if e = c then f (cam s c) else cam s e
    let fc := fun (sub len : Nat) (legal : Prop) (f : Fc → Fc) => set (0x7000 + n.val) sub len legal [.fab, .field, .ident] fun u =>
      fieldIs s u (onOne n f) same
    let is := fun (index sub : Nat) (d : Bytes) (cmd : Instr) => exec (put index sub d) s = exec cmd s
    set 0x2500 2 2 (v < 256) [.obs, .ident] (fun u => u.obs = { s.obs with tideFaults := BitVec.ofNat 16 v }) ∧
    set 0x2500 3 1 (v < 16) [.obs, .ident] (fun u => u.obs = { s.obs with tideOutMask := BitVec.ofNat 8 v }) ∧
    set 0x2600 2 2 (10 ≤ v ∧ v ≤ 3600) [.march] (fun u => u.march = { s.march with passPeriod := BitVec.ofNat 16 v }) ∧
    set 0x2600 3 2 (60 ≤ v ∧ v ≤ 3600) [.march] (fun u => u.march = { s.march with sparePeriod := BitVec.ofNat 16 v }) ∧
    clk 1 400 (fun x => { s.clk.set with arr := x }) ∧ clk 2 500 (fun x => { s.clk.set with noc := x }) ∧
    clk 3 125 (fun x => { s.clk.set with fab := x }) ∧ clk 4 250 (fun x => { s.clk.set with sys := x }) ∧
    (∀ q : Fin 3,
      set 0x2203 (q.val + 1) 1 (v ≤ 16) [.clk, .ident] (fun u =>
        u.clk = { s.clk with set := { s.clk.set with depth := s.clk.set.depth.set q.val (BitVec.ofNat 8 v) } }) ∧
      set 0x2204 (q.val + 1) 1 (20 ≤ v ∧ v ≤ 63) [.clk, .ident] fun u =>
        u.clk = { s.clk with set := { s.clk.set with rate := s.clk.set.rate.set q.val (BitVec.ofNat 8 v) } }) ∧
    set 0x2C00 2 1 (v ∈ [1, 2, 3, 5, 6, 10, 12]) [.maxSpeed] (fun u => u.maxSpeed = BitVec.ofNat 8 v) ∧
    cxp 1 1 (v ≤ 5) (fun x => { x with fmt := BitVec.ofNat 8 v }) ∧
    cxp 2 8 (1 ≤ v / 2 ^ 48 ∧ v / 2 ^ 48 ≤ 16384 ∧ 1 ≤ v / 2 ^ 32 % 65536 ∧ v / 2 ^ 32 % 65536 ≤ 16384)
      (fun x => { x with window := BitVec.ofNat 64 v }) ∧
    cxp 3 4 (v / 2 ^ 16 % 2 ^ 15 = 0) (fun x => { x with origin := BitVec.ofNat 32 v }) ∧
    cxp 4 4 (v / 2 ^ 12 % 2 ^ 16 = 0 ∧ v / 2 ^ 29 % 4 ≠ 3) (fun x => { x with landing := BitVec.ofNat 32 v }) ∧
    cxp 5 4 True (fun x => { x with spOffset := BitVec.ofNat 32 v }) ∧
    cxp 6 1 (v < 64 ∨ v = 255) (fun x => { x with trigLine := BitVec.ofNat 8 v }) ∧
    fc 4 1 (v < 32) (fun x => { x with diagEn := BitVec.ofNat 8 v }) ∧
    fc 5 2 (1 ≤ v ∧ v ≤ 1000) (fun x => { x with owPeriod := BitVec.ofNat 16 v }) ∧
    fc 6 4 (63 ≤ v ∧ v ≤ 62500000) (fun x => { x with pwmPeriod := BitVec.ofNat 32 v }) ∧
    fc 7 1 (v < 16 ∧ v % 4 ≠ 3) (fun x => { x with options := BitVec.ofNat 8 v }) ∧
    fc 8 1 (v = 0 ∨ v = 1 ∧ isDout (fch s n).mode = true) (fun x => { x with source := BitVec.ofNat 8 v }) ∧
    fc 9 2 True (fun x => { x with adcOrigin := BitVec.ofNat 16 v }) ∧
    fc 10 1 True (fun x => { x with pretrig := BitVec.ofNat 8 v }) ∧
    (∀ q : Fin 2, set 0x2B07 (q.val + 1) 2 True [.fab] fun u =>
      ∀ m, SMap.get 0 u.fab.serialMode m = if m = q.val then BitVec.ofNat 16 v else SMap.get 0 s.fab.serialMode m) ∧
    set (0x1400 + p.val) 1 4 (v % 2 ^ 31 < 2048) [] (fun u => rpdoOf u k p = { rpdoOf s k p with cobId := BitVec.ofNat 32 v }) ∧
    set (0x1400 + p.val) 2 1 (v ≤ 240 ∨ v = 254 ∨ v = 255) [] (fun u => rpdoOf u k p = { rpdoOf s k p with ty := BitVec.ofNat 8 v }) ∧
    set (0x1800 + p.val) 1 4 (v % 2 ^ 31 < 2048) [] (fun u => tpdoOf u k p = { tpdoOf s k p with cobId := BitVec.ofNat 32 v }) ∧
    set (0x1800 + p.val) 2 1 (v ≤ 240 ∨ v = 254 ∨ v = 255) [] (fun u => tpdoOf u k p = { tpdoOf s k p with ty := BitVec.ofNat 8 v }) ∧
    set (0x1800 + p.val) 3 2 True [] (fun u => tpdoOf u k p = { tpdoOf s k p with inhibit := BitVec.ofNat 16 v }) ∧
    set (0x1800 + p.val) 5 2 True [] (fun u => tpdoOf u k p = { tpdoOf s k p with timer := BitVec.ofNat 16 v }) ∧
    is (0x2F00 + 16 * t.val) 1 d (.submit k t d) ∧ is (0x2F01 + 16 * t.val) 1 [b] (.abort k t b) ∧
    is (0x2F01 + 16 * t.val) 3 [b] (.release k t b) ∧ is (0x2F03 + 16 * t.val) 1 (leBytes 4 w.toNat) (.retireTo k t w) ∧
    is (0x2F04 + 16 * t.val) 1 d (.ownership k t d) ∧ is 0x2900 3 d (.patchBundle k d) ∧
    is 0x2600 1 [b] (.marchEnable k b) ∧ is 0x2600 6 (leBytes 2 h.toNat) (.dtestTarget k h) ∧ is 0x2C00 1 [b] (.grouping k b) ∧
    is (0x2C10 + c.val) 14 d (.camRegWrite k c d) ∧ is 0x2B01 1 d (.fullLoad k d) ∧ is 0x2B02 1 d (.partialLoad k d) ∧
    is 0x2B05 1 [b] (.capture k b) ∧ is 0x2B06 (p.val + 1) [b] (.probeSel k p b) ∧ is (0x7000 + n.val) 1 [b] (.mode k n b) ∧
    is (0x7000 + n.val) 2 [b] (.safeState k n b) ∧ is (0x7000 + n.val) 3 [b] (.filter k n b) ∧
    is 0x6200 (j.val + 1) [b] (.doutImage k j b) ∧ is (0x7000 + n.val) 14 [b] (.diagClear k n b) ∧
    is (0x6420 + g.val) 2 [b] (.spsEnable k g b) ∧ is (0x6420 + g.val) 4 [b] (.groupClear k g b) ∧
    is 0x2002 1 (leBytes 2 h.toNat) (.requested k h) ∧ is 0x1003 0 [b] (.errorCount k b) ∧
    is ((if tx then 0x1A00 else 0x1600) + p.val) (i.val + 1) (leBytes 4 w.toNat) (.mapEntry k tx p i w) ∧
    is ((if tx then 0x1A00 else 0x1600) + p.val) 0 [b] (.mapCount k tx p b) ∧
    is (if tx then 0x1C13 else 0x1C12) (p.val + 1) (leBytes 2 h.toNat) (.pdoAssign k tx p h) ∧
    is 0x2502 1 (leBytes 4 w.toNat) (.logCursor k w) ∧ is 0x1C32 1 (leBytes 2 h.toNat) (.syncType k h) ∧
    is 0x2200 2 [b] (.activeCeiling k b) ∧ is 0x2200 3 [b] (.idleProfile k b) ∧ is 0x2200 4 [b] (.deepSleep k b) ∧
    is 0x2200 5 [b] (.rampDwell k b) ∧ is 0x2201 (t.val + 1) (leBytes 4 w.toNat) (.idleHold k t w) ∧
    is 0x2205 1 (leBytes 4 w.toNat) (.gateRun k w) ∧ is 0x2205 2 (leBytes 4 w.toNat) (.gateSleep k w) ∧
    is 0x2205 3 (leBytes 4 w.toNat) (.gateDeep k w) ∧ is 0x2206 1 [b] (.refSelect k b) ∧ is 0x2401 1 d (.nonce k d) ∧
    is 0x2404 1 d (.keyRecord k d) ∧ is 0x2403 1 d (.firmware k d) ∧ is 0x2500 1 [b] (.tideCmd k b))

/-- Segmented transfers (R384, R388): the first segment is checked as a write is, with its size against the limit; segments gather; the
last one writes the whole as one transfer would; a length other than the one stated, or above the limit, aborts; so does a pause of
1 s; the host's abort discards what was held. -/
def Obligations.SegmentedTransfers : Prop := ∀ (s : State) (k : SesId) (index : Half) (sub : Byte) (size : Option Nat) (d e : Bytes)
    (r : Row) (n : Nat) (l : Bool),
  let x := ses s k
  let put := fun (last : Bool) => Instr.domainSegment k index sub size d last
  let a := access s k index.toNat sub.toNat true
  let c := initCheck s k index.toNat sub.toNat
  let stops := fun (cmd : Instr) (code : Word) => aborts cmd s k code [] fun u => (ses u k).xfer = none
  let holds := fun (sz : Option Nat) (all : Bytes) => runs (put false) s [.ses] fun u =>
    ses u k = { x with xfer := some ⟨index, sub, sz, all⟩, reply := none } ∧ ∀ j, j ≠ k → ses u j = ses s j
  let writes := fun (all : Bytes) => ∃ u, exec (put true) s = .next u ∧
    ∃ v, (∀ j, ses v j = if j = k then { x with xfer := none } else ses s j) ∧ sameBut [.ses] s v ∧
      exec (.registerWrite k index sub all) v = .next u
  (sesUp s k = false → exec (put l) s = .next s) ∧
  (sesUp s k = true →
    ((∀ y, x.xfer = some y → ¬(y.index = index ∧ y.sub = sub)) →
      (a ≠ 0 → stops (put l) a) ∧
      (a = 0 → c ≠ 0 → stops (put l) c) ∧
      (a = 0 → c = 0 → findRow s k index.toNat sub.toNat = some r →
        (∀ m, size = some m → lengthCheck r m ≠ 0 → stops (put l) (lengthCheck r m)) ∧
        ((∀ m, size = some m → lengthCheck r m = 0) →
          (r.ty = .domain → domainLimit r.base < d.length → stops (put l) 0x06070012) ∧
          (r.ty = .domain → d.length ≤ domainLimit r.base → holds size d ∧
            (size = some n → n ≠ d.length → stops (put true) 0x06070010) ∧
            (size = none ∨ size = some d.length → writes d))))) ∧
    ∀ sz, x.xfer = some ⟨index, sub, sz, e⟩ → findRow s k index.toNat sub.toNat = some r → r.ty = .domain →
      ((e ++ d).length ≤ domainLimit r.base →
        holds sz (e ++ d) ∧
        (sz = some n → n ≠ (e ++ d).length → stops (put true) 0x06070010) ∧
        (sz = none ∨ sz = some (e ++ d).length → c = 0 → writes (e ++ d))) ∧
      (domainLimit r.base < (e ++ d).length → stops (put l) 0x06070012)) ∧
  (x.xfer ≠ none → stops (.segmentPauseTimeout k) 0x05040000) ∧
  (x.xfer = none → exec (.segmentPauseTimeout k) s = .next s) ∧
  runs (.hostSdoAbort k) s [.ses] fun u => ses u k = { x with xfer := none } ∧ ∀ j, j ≠ k → ses u j = ses s j

/-- The objects of a session (R375, R378, R386, R390, R392, R399, R410, R486): REQUESTED agrees on the highest version, where no transfer or
confirmation is outstanding and no mapping holds an object it lacks; 0 clears the error history; a mapping takes the length its object
has, and mapping objects are written only where they are open; emergencies leave oldest first; the log is read from the cursor up. -/
def Obligations.SessionObjects : Prop := ∀ (s : State) (k : SesId) (v : Half) (b : Byte) (w : Word) (tx : Bool) (p i : Fin 4) (n : Fin 32),
  let x := ses s k
  let is := fun (u : State) (y : Session) => ses u k = { y with reply := some ⟨0, []⟩ } ∧ ∀ j, j ≠ k → ses u j = ses s j
  (admitted s k 0x2002 1 2 →
    (v.toNat % 32 = 0 → aborts (.requested k v) s k 0x06090030 [] fun _ => True) ∧
    (v.toNat % 32 ≠ 0 → x.xfer ≠ none ∨ x.awaits ≠ [] → aborts (.requested k v) s k 0x08000022 [] fun _ => True) ∧
    (∀ m : Fin 5, 2 ^ m.val ≤ v.toNat % 32 → v.toNat % 32 < 2 ^ (m.val + 1) → x.xfer = none → x.awaits = [] →
      (mapLacks x m = false → accepts (.requested k v) s k [] fun u => is u { x with requested := v, agreed := m }) ∧
      (mapLacks x m = true → aborts (.requested k v) s k 0x06040043 [] fun _ => True))) ∧
  (admitted s k 0x1003 0 1 →
    (accepts (.errorCount k 0) s k [] fun u => is u { x with errHist := [] }) ∧
    (b ≠ 0 → aborts (.errorCount k b) s k 0x06090030 [] fun _ => True)) ∧
  (let index := (if tx then 0x1A00 else 0x1600) + p.val
   let map := fun (y : Session) => if tx then y.txMap else y.rxMap
   (admitted s k index (n.val + 1) 4 →
     let o := w.toNat / 65536
     let e := w.toNat / 256 % 256
     (access s k o e (!tx) ≠ 0 → aborts (.mapEntry k tx p n w) s k (access s k o e (!tx)) [] fun _ => True) ∧
     ∀ r, access s k o e (!tx) = 0 → findRow s k o e = some r →
       let good := r.acc = (if tx then Access.rwr else .rww) ∧ (if r.size = 32 then 0 else 8 * r.size) = w.toNat % 256
       (¬good → aborts (.mapEntry k tx p n w) s k 0x06040041 [] fun _ => True) ∧
       (good → mapOpen s k tx p = false → aborts (.mapEntry k tx p n w) s k 0x08000022 [] fun _ => True) ∧
       (good → mapOpen s k tx p = true → accepts (.mapEntry k tx p n w) s k [] fun u =>
         (∀ a, SMap.get 0 (map (ses u k)) a = if a = 32 * p.val + n.val then w else SMap.get 0 (map x) a) ∧
         ses u k = { x with reply := some ⟨0, []⟩, txMap := (ses u k).txMap, rxMap := (ses u k).rxMap } ∧
         (if tx then (ses u k).rxMap = x.rxMap else (ses u k).txMap = x.txMap))) ∧
   (admitted s k index 0 1 →
     let total := (((List.range b.toNat).map fun j => SMap.get 0 (map x) (32 * p.val + j)).map entryBytes).sum
     let limit := if (canOf s (sesTenant k)).isSome then 64 else 256
     (32 < b.toNat ∨ limit < total → aborts (.mapCount k tx p b) s k 0x06090030 [] fun _ => True) ∧
     (b.toNat ≤ 32 → total ≤ limit →
       (mapOpen s k tx p = false → aborts (.mapCount k tx p b) s k 0x08000022 [] fun _ => True) ∧
       (mapOpen s k tx p = true → accepts (.mapCount k tx p b) s k [] fun u =>
         ∀ a, SMap.get 0 (if tx then (ses u k).txCount else (ses u k).rxCount) a =
           if a = p.val then b else SMap.get 0 (if tx then x.txCount else x.rxCount) a)))) ∧
  (let base := if tx then 0x1A00 else 0x1600
   admitted s k (if tx then 0x1C13 else 0x1C12) (i.val + 1) 2 →
     (v ≠ 0 → v.toNat < base ∨ base + 4 ≤ v.toNat → aborts (.pdoAssign k tx i v) s k 0x06090030 [] fun _ => True) ∧
     let pdo := if v = 0 then ((if tx then x.txAssign else x.rxAssign).getD i.val 0).toNat % 4 else v.toNat % 4
     (v = 0 ∨ (base ≤ v.toNat ∧ v.toNat < base + 4) →
       (mapOpen s k tx pdo = false → aborts (.pdoAssign k tx i v) s k 0x08000022 [] fun _ => True) ∧
       (mapOpen s k tx pdo = true → accepts (.pdoAssign k tx i v) s k [] fun u => is u
         (if tx then { x with txAssign := x.txAssign.set i v } else { x with rxAssign := x.rxAssign.set i v })))) ∧
  (sesUp s k = false ∨ x.queue = [] → exec (.emergencySend k) s = .next s) ∧
  (∀ e l, sesUp s k = true → x.queue = e :: l → runs (.emergencySend k) s [.ses, .net] fun u =>
    let code := if x.agreed < (if e.code = 0xFF01 then 1 else if e.code = 0x2320 ∨ e.code = 0x2330 then 2 else 0) then 0xFF00 else e.code
    (ses u k).queue = l ∧ (ses u k).sent = some { e with code := code } ∧
    (ses u k).errHist = (if code = 0 then x.errHist
      else (BitVec.ofNat 32 (code.toNat + 65536 * leAt e.detail 0 2) :: x.errHist).take 8)) ∧
  (admitted s k 0x2502 1 4 → accepts (.logCursor k w) s k [] fun u => is u { x with logCursor := w }) ∧
  (sesUp s k = true → access s k 0x2502 2 false = 0 →
    (∀ e a l, s.obs.log = a ++ e :: l → x.logCursor.toNat ≤ e.num.toNat → e.readers.getLsbD (sesTenant k).val = true →
      (∀ f ∈ l, x.logCursor.toNat ≤ f.num.toNat → f.readers.getLsbD (sesTenant k).val = false) →
      runs (.logEntry k) s [.ses] fun u => ses u k = { x with reply := some ⟨0, e.bytes⟩, logCursor := e.num + 1 }) ∧
    ((∀ e ∈ s.obs.log, x.logCursor.toNat ≤ e.num.toNat → e.readers.getLsbD (sesTenant k).val = false) →
      aborts (.logEntry k) s k 0x08000024 [] fun _ => True))

/-- EtherCAT states, mailboxes, SDO information and files (R395, R396, R398–R400, R404): a legal request moves the ESC and opens or closes
the sessions bound to it, another sets an AL status code; the mailbox serves CoE of a bound tenant, which reads, writes or aborts as any
access does, and names its errors; information is given on the objects there are; SYNC_TYPE changes in PRE-OP only; a file is one DOMAIN
write. Each does nothing on a controller that does not work. The numbers of the EtherCAT standard and the information layout are the
model's (log 20). -/
def Obligations.EscStates : Prop := ∀ (s : State) (e : CtrlId) (req : AlState) (g : EscConfig) (k : SesId) (t : Tenant) (i v : Half) (b : Byte)
    (d : Bytes) (w : Word) (name : String) (m : MailboxMsg) (ch : BitVec 6) (q : InfoReq),
  let x := esc s e
  let only := fun (c : Instr) (y : Esc) => runs c s [.net] fun u =>
    u.net = { s.net with esc := u.net.esc } ∧ ∀ f, esc u f = if f = e then y else esc s f
  let j := tenSes t
  let foe := fun (c : Instr) (code : Half) => exec c s = .next { s with net := { s.net with foe := (code, 0) } }
  (ctrlUp s (escCh e) = false → exec (.escAlControl e req g) s = .next s ∧ exec (.mailboxRequest e ch m) s = .next s) ∧
  (ctrlUp s (escCh e) = true →
    (req = .boot ∨ (x.al = .init ∧ (req = .safeOp ∨ req = .op)) ∨ (x.al = .preOp ∧ req = .op) →
      only (.escAlControl e req g) { x with alStatus := 0x0011 }) ∧
    (x.al = .preOp → layoutCheck s e g ≠ 0 → only (.escAlControl e .safeOp g) { x with alStatus := layoutCheck s e g }) ∧
    ((x.al = .preOp ∧ req = .safeOp ∧ layoutCheck s e g = 0) ∨ ((x.al = .safeOp ∨ x.al = .op) ∧ (req = .op ∨ req = .safeOp)) ∨
        req = .preOp ∨ req = .init → runs (.escAlControl e req g) s [.ses, .net] fun u =>
      (esc u e).al = req ∧ (esc u e).alStatus = 0 ∧
      (x.al = .preOp → req = .safeOp → (esc u e).members = boundTo s (escCh e) ∧ (esc u e).cfg = some g) ∧
      ∀ n, channelOf s n = some (escCh e) → (ses u (tenSes n)).isOpen = decide (req ≠ .init)) ∧
    (x.al = .init → exec (.mailboxRequest e ch m) s = .next s) ∧
    (x.al ≠ .init →
      ((∀ n, escOf s n = some e → n.val ≠ ch.toNat) → only (.mailboxRequest e ch m) { x with mailboxError := 3 }) ∧
      (escOf s t = some e → ch = BitVec.ofNat 6 t.val →
        only (.mailboxRequest e ch .otherProtocol) { x with mailboxError := 2 } ∧
        (let z := modEsc s e fun y => { y with mailboxError := 0 }
         let a := objRead z j i.toNat b.toNat
         (∃ u, exec (.mailboxRequest e ch (.coe (.download i b d))) s = .next u ∧ exec (.registerWrite j i b d) z = .next u) ∧
         (sesUp s j = true →
           (∃ u, exec (.mailboxRequest e ch (.coe (.upload i b))) s = .next u ∧ (esc u e).mailboxError = 0 ∧
             (ses u j).reply = some (if a.1 = 0 then ⟨0, a.2.1⟩ else ⟨a.1, []⟩)) ∧
           aborts (.mailboxRequest e ch (.coe (.completeAccess i b))) s j 0x06010000 [.net] fun u => (esc u e).mailboxError = 0) ∧
         (sesUp s j = false → ∀ r, only (.mailboxRequest e ch (.coe r)) { x with mailboxError := 0 }))))) ∧
  ((escOf s (sesTenant k) = none ∨ sesUp s k = false ∨ k = 4) → exec (.sdoInformation k q) s = .next s ∧
    exec (.foeRead k name) s = .next s ∧ exec (.foeWrite k name w d) s = .next s) ∧
  (escOf s t = some e → sesUp s j = true →
    let has := fun (n : Nat) => indexHere s j n && decide (rowsOf (locOf n).base (ses s j).agreed ≠ [])
    let tells := fun (q : InfoReq) (l : Bytes) => runs (.sdoInformation j q) s [.ses, .net] fun u => (ses u j).reply = some ⟨0, l⟩
    tells .odList ((allIndexes.filter has).flatMap (leBytes 2)) ∧
    (has i.toNat = false → aborts (.sdoInformation j (.object i)) s j 0x06020000 [.net] (fun _ => True) ∧
      aborts (.sdoInformation j (.entry i b)) s j 0x06020000 [.net] fun _ => True) ∧
    (has i.toNat = true →
      (∀ r l, rowsOf (locOf i.toNat).base (ses s j).agreed = r :: l →
        let top := maxSub (locOf i.toNat).base (ses s j).agreed
        tells (.object i) (leBytes 2 i.toNat ++ leBytes 2 r.ty.code ++ [BitVec.ofNat 8 top, if top = 0 then 7 else 9])) ∧
      (findRow s j i.toNat b.toNat = none → aborts (.sdoInformation j (.entry i b)) s j 0x06090011 [.net] fun _ => True) ∧
      (∀ r, findRow s j i.toNat b.toNat = some r → tells (.entry i b)
        (leBytes 2 i.toNat ++ [b, 0] ++ leBytes 2 r.ty.code ++ leBytes 2 (8 * r.size) ++ leBytes 2 r.acc.bits))) ∧
    foe (.foeRead j name) 0x8004 ∧
    (foeObject name = none → foe (.foeWrite j name w d) 0x8001) ∧
    ∀ n m, foeObject name = some (n, m) →
      (w ≠ 0 ∨ access s j n m true = 0x06010000 → foe (.foeWrite j name w d) 0x8002) ∧
      (w = 0 → access s j n m true ≠ 0x06010000 → ∃ u v, exec (.foeWrite j name w d) s = .next u ∧
        exec (.registerWrite j (BitVec.ofNat 16 n) (BitVec.ofNat 8 m) d) s = .next v ∧ sameBut [.net] v u ∧
        u.net = { v.net with foe := (match (ses v j).reply with
          | some a => if a.abort = 0 then (0, 0) else (0x8000, a.abort)
          | none => (0, 0)) })) ∧
  (admitted s k 0x1C32 1 2 → escOf s (sesTenant k) = some e →
    (v.toNat ≤ 3 → x.al = .preOp → accepts (.syncType k v) s k [.net] fun u =>
      ∀ f, esc u f = if f = e then { x with syncType := v } else esc s f) ∧
    (3 < v.toNat → aborts (.syncType k v) s k 0x06090030 [] fun _ => True) ∧
    (v.toNat ≤ 3 → x.al ≠ .preOp → aborts (.syncType k v) s k 0x08000022 [] fun _ => True))

/-- Process data on an ESC (R310, R400, R401, R403): an output frame takes effect at the SM2 event, or with DC at the next SYNC0; a
missing frame counts; SYNC events reach the fabric, waits and start inputs; inputs latch; a watchdog expiry changes nothing. Nothing
happens on an ESC that is not in a state for it. -/
def Obligations.EscProcessData : Prop := ∀ (s : State) (e : CtrlId) (t : Tenant) (p : Fin 4) (j : Fin 64) (b : Byte) (d : Bytes),
  let x := esc s e
  let dc := decide (x.syncType = 2 ∨ x.syncType = 3)
  let only := fun (u : State) (y : Esc) => u.net = { s.net with esc := u.net.esc } ∧ ∀ f, esc u f = if f = e then y else esc s f
  let event := fun (u : State) (n : Nat) (one : Bool) => (8 + 2 * e.val + n, s.fab.fc + 2) ∈ u.fab.pulses ∧
    ((∀ r, channelOf s r = some (escCh e) → releaseStart s r (0x40 + BitVec.ofNat 16 n) = none) →
      sameBut [.fab, .seqs, .net] s u ∧ ∀ r q, channelOf s r = some (escCh e) → seqOf s r = some q →
        sqr u q.val = { sqr s q.val with ws := (sqr s q.val).ws.map fun w =>
          if one then { w with edge1 := true } else { w with edge0 := true } }) ∧
    ∀ r q o, channelOf s r = some (escCh e) → releaseStart s r (0x40 + BitVec.ofNat 16 n) = some q → getOrder s r q = some o →
      (∀ i ∈ o.ins, i.kind = .adc → i.claimed = false → adcLost s i = false) → ∃ o', getOrder u r q = some o' ∧ o'.released = true ∧ o'.startTime = s.time
  let one := x.members = [t] ∧ escOf s t = some e ∧ (ses s (tenSes t)).rxAssign = [0x1600 + BitVec.ofNat 16 p.val, 0, 0, 0] ∧
    pdoEntries (ses s (tenSes t)) false p = [BitVec.ofNat 32 (0x62000008 + 256 * (j.val + 1))] ∧
    access s (tenSes t) 0x6200 (j.val + 1) true = 0
  let dout := fun (u : State) => ∀ m, (SMap.get 0 u.field.dout (m / 8)).getLsbD (m % 8) =
    if m / 8 = j.val ∧ ownsFc s t m = true then b.getLsbD (m % 8) else (SMap.get 0 s.field.dout (m / 8)).getLsbD (m % 8)
  (ctrlUp s (escCh e) = false ∨ x.al ≠ .op → exec (.sm2Event e d) s = .next s) ∧
  (escRuns s e = false → exec (.sync0 e) s = .next s ∧ exec (.sync1 e) s = .next s) ∧
  (escRuns s e = false ∨ x.syncType ≠ 0 → exec (.freeRunLatch e) s = .next s) ∧
  (ctrlUp s (escCh e) = true → x.al = .op → s.obs.due = none →
    (2 ≤ x.syncType.toNat → runs (.sm2Event e d) s [.net] fun u => only u { x with sm2 := d, sm2Fresh := true, sm2Wait := true }) ∧
    (x.syncType.toNat < 2 → one → runs (.sm2Event e (b :: d)) s [.freeCtr, .field, .net] fun u =>
      (esc u e).sm2 = b :: d ∧ dout u)) ∧
  (escRuns s e = true →
    (x.sm2Wait = false ∨ dc = false ∨ x.al ≠ .op → s.obs.due = none → ∃ u, exec (.sync0 e) s = .next u ∧ event u 0 false ∧
      esc u e = { x with
        exceeded := if dc && decide (x.al = .op) && !x.sm2Fresh then satInc x.exceeded else x.exceeded
        sm2Fresh := false, sm2Wait := false, sm3 := (esc u e).sm3 }) ∧
    (x.sm2Wait = true → x.sm2 = b :: d → dc = true → x.al = .op → one → s.obs.due = none →
      ∃ u, exec (.sync0 e) s = .next u ∧ dout u ∧ (8 + 2 * e.val, s.fab.fc + 2) ∈ u.fab.pulses ∧ (esc u e).sm2Wait = false) ∧
    (∃ u, exec (.sync1 e) s = .next u ∧ event u 1 true ∧ esc u e = { x with sm3 := (esc u e).sm3 }) ∧
    (x.syncType = 0 → x.members = [t] → escOf s t = some e → runs (.freeRunLatch e) s [.net] fun u => only u { x with
      sm3 := ((((ses s (tenSes t)).txAssign.filter fun v => decide (v ≠ 0)).map fun v => v.toNat % 4).map fun n =>
        ((pdoEntries (ses s (tenSes t)) true n).map (pdoGet s (tenSes t))).flatten).flatten })) ∧
  exec (.pdWatchdogExpiry e) s = .next s

/-- Nodes on CAN (R405–R408): NMT commands, LSS, heartbeat and USDO requests to a bound node, which read, write or abort as any access
does; a controller that does not work, and a node that is not bound, do nothing.
PDOs on CAN (R405, R409): an RPDO of a synchronous type is held for the next SYNC, another takes effect at once; one that no
operational node takes, or that is too short for its mapping, does nothing; a synchronous TPDO leaves at every n-th SYNC, another on its
own; zeros fill the frame up to a CAN FD length. -/
def Obligations.CanNodesAndPdos : Prop :=
  (∀ (s : State) (c : CtrlId) (t : Tenant) (n : BitVec 7) (v w : Byte) (i : Half) (b : Byte) (d : Bytes)
      (q : SdoReq),
    let x := can s c
    let k := tenSes t
    let only := fun (cmd : Instr) (y : CanCtl) => runs cmd s [.net] fun u =>
      u.net = { s.net with can := u.net.can } ∧ ∀ f, can u f = if f = c then y else can s f
    let named := fun (r : Tenant) => channelOf s r = some (canCh c) ∧ (n.toNat = 0 ∨ n.toNat = x.nb.toNat + r.val)
    let nmtIs := fun (cmd : Instr) (st : NmtState) (up : Bool) => runs cmd s [.ses, .net] fun u =>
      ∀ r, (named r → nmt u r = st ∧ (ses u (tenSes r)).isOpen = up) ∧ (¬named r → nmt u r = nmt s r ∧ ses u (tenSes r) = ses s (tenSes r))
    let boots := fun (cmd : Instr) => nmtIs cmd .preOperational true ∧ runs cmd s [.ses, .net] fun u => ∀ r, named r →
      let y := ses u (tenSes r)
      y.rxMap = [] ∧ y.txMap = [] ∧ y.rxCount = [] ∧ y.txCount = [] ∧ y.rpdo = [] ∧ y.tpdo = [] ∧ y.opened = s.time ∧
      (y.rxAssign = (ses s (tenSes r)).rxAssign ∧ y.txAssign = (ses s (tenSes r)).txAssign)
    (ctrlUp s (canCh c) = false → ∀ cmd ∈ [Instr.nmtStart c n, .nmtEnterPreOperational c n, .nmtStop c n, .nmtResetCommunication c n,
      .nmtResetNode c n, .lssConfigureNodeId c v, .lssConfigureBitTiming c v w, .lssStoreConfiguration c, .lssActivateBitTiming c,
      .usdoRequest c n q], exec cmd s = .next s) ∧
    (canOf s t = none ∨ nmt s t = .none ∨ (∀ f, canOf s t = some f → ctrlUp s (canCh f) = false) → exec (.heartbeat t) s = .next s) ∧
    (ctrlUp s (canCh c) = true →
      nmtIs (.nmtStart c n) .operational true ∧ nmtIs (.nmtEnterPreOperational c n) .preOperational true ∧
      nmtIs (.nmtStop c n) .stopped false ∧ boots (.nmtResetCommunication c n) ∧ boots (.nmtResetNode c n) ∧
      only (.lssConfigureNodeId c v) (if 1 ≤ v.toNat ∧ v.toNat ≤ 124 then { x with nbCfg := v, lssError := 0 } else { x with lssError := 1 }) ∧
      only (.lssConfigureBitTiming c v w)
        (if v = 0x80 ∧ w.toNat ≤ 6 then { x with idxCfg := w, lssError := 0 } else { x with lssError := 1 }) ∧
      only (.lssStoreConfiguration c) { x with nbStored := x.nbCfg, idxStored := x.idxCfg, lssError := 0 } ∧
      runs (.lssActivateBitTiming c) s [.ses, .net] (fun u => (can u c).nb = x.nbCfg ∧ (can u c).idx = x.idxCfg ∧ (can u c).rpdoHeld = [] ∧
        ∀ r, channelOf s r = some (canCh c) → nmt u r = .preOperational ∧ (ses u (tenSes r)).isOpen = true ∧ (ses u (tenSes r)).opened = s.time) ∧
      (channelOf s t = some (canCh c) →
        (nmt s t ≠ .none → only (.heartbeat t) { x with lastTx := some (BitVec.ofNat 11 (0x700 + (x.nb.toNat + t.val)),
          [match nmt s t with | .stopped => 4 | .operational => 5 | _ => 0x7F]) }) ∧
        (n.toNat = x.nb.toNat + t.val →
          (let a := objRead s k i.toNat b.toNat
           (∃ u, exec (.usdoRequest c n (.download i b d)) s = .next u ∧ exec (.registerWrite k i b d) s = .next u) ∧
           (sesUp s k = true →
             (∃ u, exec (.usdoRequest c n (.upload i b)) s = .next u ∧
               (ses u k).reply = some (if a.1 = 0 then ⟨0, a.2.1⟩ else ⟨a.1, []⟩)) ∧
             aborts (.usdoRequest c n (.completeAccess i b)) s k 0x06010000 [] fun _ => True) ∧
           (sesUp s k = false → exec (.usdoRequest c n q) s = .next s)))) ∧
      ((∀ r, channelOf s r = some (canCh c) → n.toNat ≠ x.nb.toNat + r.val) → exec (.usdoRequest c n q) s = .next s))) ∧
  (∀ (s : State) (c : CtrlId) (t : Tenant) (p : Fin 4) (j : Fin 64) (b : Byte) (d : Bytes) (id : BitVec 11),
    let k := tenSes t
    let x := ses s k
    let r := rpdoOf s k p
    let y := tpdoOf s k p
    let dout := fun (u : State) => ∀ m, (SMap.get 0 u.field.dout (m / 8)).getLsbD (m % 8) =
      if m / 8 = j.val ∧ ownsFc s t m = true then b.getLsbD (m % 8) else (SMap.get 0 s.field.dout (m / 8)).getLsbD (m % 8)
    let sent := fun (u : State) => ∃ f : Bytes, (can u c).lastTx = some (y.cobId.truncate 11, f) ∧
      f.length ∈ fdLengths ∧ (∀ l ∈ fdLengths, l < f.length → l < ((pdoEntries x true p).flatMap (pdoGet s k)).length) ∧
      ∃ z : Nat, f = (pdoEntries x true p).flatMap (pdoGet s k) ++ List.replicate z 0
    let takes := fun (u : Tenant) (q : Fin 4) (id : BitVec 11) => channelOf s u = some (canCh c) ∧ nmt s u = .operational ∧
      (rpdoOf s (tenSes u) q).cobId.getLsbD 31 = false ∧ (rpdoOf s (tenSes u) q).cobId.truncate 11 = id
    let own := y.ty.toNat = 0 ∨ 240 < y.ty.toNat
    (ctrlUp s (canCh c) = false → exec (.rpdo c id d) s = .next s ∧ exec (.canSync c) s = .next s) ∧
    (s.obs.due = none → (∀ u q, takes u q id → d.length < pdoBytes (ses s (tenSes u)) false q) → exec (.rpdo c id d) s = .next s) ∧
    (canOf s t = none → exec (.tpdoTransmit t p) s = .next s) ∧
    (canOf s t = some c →
      (ctrlUp s (canCh c) = false ∨ nmt s t ≠ .operational ∨ y.cobId.getLsbD 31 = true ∨ ¬own → exec (.tpdoTransmit t p) s = .next s) ∧
      (ctrlUp s (canCh c) = true → nmt s t = .operational → ((pdoEntries x true p).flatMap (pdoGet s k)).length ≤ 64 →
        y.cobId.getLsbD 31 = false → own → runs (.tpdoTransmit t p) s [.net] sent)) ∧
    (ctrlUp s (canCh c) = true → nmt s t = .operational → s.obs.due = none →
      (channelOf s t = some (canCh c) → r.cobId.getLsbD 31 = false →
        (∀ u q, takes u q (r.cobId.truncate 11) → u = t ∧ q = p) →
        pdoEntries x false p = [BitVec.ofNat 32 (0x62000008 + 256 * (j.val + 1))] → access s k 0x6200 (j.val + 1) true = 0 →
        (r.ty.toNat ≤ 240 → runs (.rpdo c (r.cobId.truncate 11) (b :: d)) s [.net] fun u =>
          can u c = { can s c with rpdoHeld := (can s c).rpdoHeld ++ [(t, p.val, b :: d)] }) ∧
        (240 < r.ty.toNat → runs (.rpdo c (r.cobId.truncate 11) (b :: d)) s [.field] dout) ∧
        ((can s c).rpdoHeld = [(t, p.val, b :: d)] →
          (∀ u : Tenant, ∀ q : Fin 4, channelOf s u = some (canCh c) → (tpdoOf s (tenSes u) q).cobId.getLsbD 31 = true) →
          runs (.canSync c) s [.field, .net] fun u => dout u ∧ can u c = { can s c with rpdoHeld := [] })) ∧
      (boundTo s (canCh c) = [t] → ((pdoEntries x true p).flatMap (pdoGet s k)).length ≤ 64 → y.cobId.getLsbD 31 = false →
        1 ≤ y.ty.toNat → y.ty.toNat ≤ 240 → (can s c).rpdoHeld = [] →
        (∀ q : Fin 4, q ≠ p → (tpdoOf s k q).cobId.getLsbD 31 = true) →
        (y.ty.toNat ≤ (SMap.get 0 x.tpdoSyncs p).toNat + 1 → runs (.canSync c) s [.ses, .net] fun u =>
          sent u ∧ SMap.get 0 (ses u k).tpdoSyncs p = 0) ∧
        ((SMap.get 0 x.tpdoSyncs p).toNat + 1 < y.ty.toNat → runs (.canSync c) s [.ses, .net] fun u =>
          (can u c).lastTx = (can s c).lastTx ∧ (SMap.get 0 (ses u k).tpdoSyncs p).toNat = (SMap.get 0 x.tpdoSyncs p).toNat + 1))))

/-- Controllers and the maintenance port (R24, R396, R412–R415, R429, R501): a faulted controller is fenced, its transceiver put into
standby, and its tenants move to the partner or lose their channel; a network frame wakes the module, and a lost reference then stops the
clocks; a maintenance frame with a good CRC opens T0's session and is served as any access is. Anything else does nothing. -/
def Obligations.ControllersAndPorts : Prop := ∀ (s : State) (h : HostCh) (f : WakeFrame) (d m : Bytes) (i : Half) (b : Byte) (c : CtrlId),
  let p : HostCh := if h.val % 2 = 0 then h + 1 else h - 1
  (ctrlService s h = .inService → moduleUp s = true → ∃ u, exec (.controllerFault h) s = .next u ∧ ctrlService u h = .fenced ∧
    (h = canCh c → canStby u c = true) ∧ hasLogged s u 0x0901 ∧ ∀ t, channelOf s t = some h →
      (ctrlService s p = .inService → channelOf u t = some p) ∧
      (ctrlService s p ≠ .inService → channelOf u t = some h ∧ (ses u (tenSes t)).isOpen = false)) ∧
  (canStby s c = true ↔ (can s c).service ≠ .inService ∨ moduleUp s = false) ∧
  (s.obs.due = none →
    (ctrlService s h ≠ .inService ∨ moduleUp s = false → exec (.controllerFault h) s = .next s) ∧
    (s.clk.sleep ≠ .entered ∨ moduleUp s = false ∨ wakes s h f = false → exec (.networkWake h f) s = .next s)) ∧
  (s.clk.sleep = .entered → moduleUp s = true → wakes s h f = true →
    ∃ u, exec (.networkWake h f) s = .next u ∧ u.clk.sleep = .none ∧ u.clk.gated = 0 ∧ u.field.holdSleep = false ∧ u.time = s.time ∧
      (∀ g : RegionId, (∀ o ∈ s.fab.owed, o ≠ g) → regionRuns u g = true) ∧
      (refOk s s.clk.inUse.toNat = true → u.clk.lockNoc = true ∧ u.clk.lockFab = true ∧ u.clk.lockSys = true) ∧
      (refOk s s.clk.inUse.toNat = false → u.clk.freeze = true ∧ u.clk.lockNoc = false ∧ u.field.holdClock = true)) ∧
  (moduleUp s = false ∨ s.clk.sleep = .entered ∨ s.net.maintOk = false ∨ maintMessage d = none → exec (.maintenanceFrame d) s = .next s) ∧
  (moduleUp s = true → s.clk.sleep ≠ .entered → s.net.maintOk = true →
    let body := leBytes 2 m.length ++ m
    let frame := 0x7E :: body ++ leBytes 2 (crc16 body).toNat
    let z := openSes s 4
    let serves := fun (w : State) => ∃ u, exec (.maintenanceFrame frame) s = .next u ∧ sameBut [.net] w u ∧
      u.net = { w.net with sp1Ready := true }
    1 ≤ m.length → m.length ≤ 64 →
      (∀ e : Bytes, e.length = 2 → e ≠ leBytes 2 (crc16 body).toNat → exec (.maintenanceFrame (0x7E :: body ++ e)) s = .next s) ∧
      ((ses z 4).isOpen = true ∧ ((ses s 4).isOpen = true → z = s) ∧ ∀ t, ses z (tenSes t) = ses s (tenSes t)) ∧
      (usdoOf m = none → exec (.maintenanceFrame frame) s = .next z) ∧
      (usdoOf m = some (.download i b d) → ∃ w, exec (.registerWrite 4 i b d) z = .next w ∧ serves w) ∧
      (usdoOf m = some (.upload i b) →
        let a := objRead z 4 i.toNat b.toNat
        ∃ u, exec (.maintenanceFrame frame) s = .next u ∧ u.net.sp1Ready = true ∧
          (ses u 4).reply = some (if a.1 = 0 then ⟨0, a.2.1⟩ else ⟨a.1, []⟩))) ∧
  runs .maintenanceSilence s [.ses, .net] fun u => u.net = { s.net with sp1Ready := false } ∧ (ses u 4).isOpen = false ∧
    ∀ t, ses u (tenSes t) = ses s (tenSes t)

/-- Settings of profiles, clocks and gates (R22, R24, R417, R422, R425, R427, R428, R434): a value in range is stored, one out of range aborts
with 0x0609_0030; with the array dark a new idle profile starts the fabric's ramp at once. DEEP_SLEEP is refused while an order is held; else
its confirmation waits for the entry, every idle hold ends and awake polders ramp down. GATE_DEEP keeps only the host-channel bits. A block
that the mask gates and that idles is gated, after its open interfaces have closed with DARK; another is left alone. -/
def Obligations.ClockSettings : Prop := ∀ (s : State) (k : SesId) (t : Tenant) (v : Byte) (w : Word) (b : Fin 25),
  let bad := fun (c : Instr) => aborts c s k 0x06090030 [] fun _ => True
  let sets := fun (c : Instr) (y : Clocks) => accepts c s k [.clk, .ident] fun u => u.clk = y
  (admitted s k 0x2200 2 1 →
    (v.toNat ≤ 1 → sets (.activeCeiling k v) { s.clk with ceiling := v }) ∧ (1 < v.toNat → bad (.activeCeiling k v))) ∧
  (admitted s k 0x2200 3 1 →
    (v.toNat ≤ 1 → accepts (.idleProfile k v) s k [.noc, .fab, .clk, .ident] fun u =>
      u.clk = { s.clk with idle := v, gated := u.clk.gated } ∧ u.fab = { s.fab with clk := u.fab.clk } ∧
      (arrayActive s = false → s.fab.clk = .full → u.fab.clk = if v = 0 then .full else .ramping false 0) ∧
      (arrayActive s = false → s.fab.clk = .quarter → u.fab.clk = if v = 0 then .ramping true 0 else .quarter)) ∧
    (1 < v.toNat → bad (.idleProfile k v))) ∧
  (admitted s k 0x2200 5 1 →
    (2 ≤ v.toNat → v.toNat ≤ 32 → sets (.rampDwell k v) { s.clk with rampDwell := v }) ∧
    (v.toNat < 2 ∨ 32 < v.toNat → bad (.rampDwell k v))) ∧
  (admitted s k 0x2206 1 1 →
    (v.toNat ≤ 1 → sets (.refSelect k v) { s.clk with refSelect := v }) ∧ (1 < v.toNat → bad (.refSelect k v))) ∧
  (admitted s k 0x2201 (t.val + 1) 4 →
    (w.toNat ≤ 10000000 → accepts (.idleHold k t w) s k [.tenants, .ident] fun u =>
      ten u t = { ten s t with idleHold := w } ∧ ∀ r, r ≠ t → ten u r = ten s r) ∧
    (10000000 < w.toNat → bad (.idleHold k t w))) ∧
  (admitted s k 0x2205 1 4 →
    (w.toNat < 2 ^ 25 → accepts (.gateRun k w) s k [.noc, .clk, .ident] fun u =>
      u.clk = { s.clk with gateRun := w, gated := u.clk.gated }) ∧ (2 ^ 25 ≤ w.toNat → bad (.gateRun k w))) ∧
  (admitted s k 0x2205 2 4 →
    (w.toNat < 2 ^ 25 → accepts (.gateSleep k w) s k [.noc, .clk, .ident] fun u =>
      u.clk = { s.clk with gateSleep := w, gated := u.clk.gated }) ∧ (2 ^ 25 ≤ w.toNat → bad (.gateSleep k w))) ∧
  (admitted s k 0x2205 3 4 →
    (w.toNat < 2 ^ 25 → accepts (.gateDeep k w) s k [.clk, .ident] fun u => u.clk = { s.clk with gateDeep := u.clk.gateDeep } ∧
      ∀ i, i < 32 → u.clk.gateDeep.getLsbD i = if 16 ≤ i ∧ i < 20 then w.getLsbD i else decide (i < 25)) ∧
    (2 ^ 25 ≤ w.toNat → bad (.gateDeep k w))) ∧
  (admitted s k 0x2200 4 1 →
    (v ≠ 1 → bad (.deepSleep k v)) ∧
    ((∃ r, (ten s r).orders ≠ []) → aborts (.deepSleep k 1) s k 0x08000022 [] fun _ => True) ∧
    ((∀ r, (ten s r).orders = []) → runs (.deepSleep k 1) s [.tiles, .tenants, .noc, .ses, .clk] fun u =>
      (ses u k).reply = none ∧ (0x2200, 4) ∈ (ses u k).awaits ∧ u.clk = { s.clk with sleep := .pending k } ∧
      (∀ r, ten u r = { ten s r with holdRunning := false }) ∧
      ∀ p, p < 17 → ∀ x, (tile s p).polder = .awake x → (tile u p).polder = .down x)) ∧
  (let gates := (gateMask s).getLsbD b && blockIdle s b && !s.clk.gated.getLsbD b && decide (s.clk.sleep ≠ .entered)
   (gates = true → closingNis s b = [] → runs (.clockGateIdle b) s [.clk] fun u =>
     u.clk = { s.clk with gated := s.clk.gated ||| (1#25 <<< b.val) }) ∧
   (gates = true → closingNis s b ≠ [] → runs (.clockGateIdle b) s [.noc] fun u => ∀ m, ni u m =
     if ((closingNis s b).any fun n => decide (n.val = m)) = true ∧ (ni s m).st = .opened then { ni s m with st := .closing .dark }
     else ni s m) ∧
   (gates = false → exec (.clockGateIdle b) s = .next s))

/-- DEEP-SLEEP and clock failures (R24, R25, R416, R417, R429, R430). The entry waits for loads, polders and orders; it stops clocks and polders,
holds outputs safe, closes sessions and confirms its command. In NORMAL, the reference in use failing or a running PLL losing lock freezes
starts, holds outputs safe, darkens the array, loses the links and relocks to a valid reference, or waits in HOLDOVER, with an emergency;
where no claimed frame is lost with its link, running orders are marked for re-execution. A reference not in use that fails only loses
its valid bit, which is logged. Relocking goes to HOLDOVER when its reference fails and to NORMAL when the PLLs lock: starts resume and
polders that were awake ramp. A reference valid for 1 ms ends HOLDOVER. -/
def Obligations.ClockFailures : Prop := ∀ (s : State) (k : SesId) (r : Fin 2) (pll : Fin 4),
  let ok := fun (i : Fin 2) => if i = 0 then s.clk.aValid else s.clk.bValid
  let valid := fun (i : Fin 2) (v : Bool) (c : Clocks) => if i = 0 then { c with aValid := v } else { c with bValid := v }
  let failing := fun (c : Instr) => c = .refMissingEdge r ∨ c = .refInvalid r
  let stops := fun (u : State) (lost : Option (Fin 2)) (pick : Option (Fin 2)) =>
    (∀ i : Fin 2, (if i = 0 then u.clk.aValid else u.clk.bValid) = (ok i && decide (lost ≠ some i))) ∧
    u.clk.freeze = true ∧ u.clk.lockNoc = false ∧ u.clk.lockFab = false ∧ u.clk.lockSys = false ∧ u.field.holdClock = true ∧
    u.fab.clk = (if s.fab.clk = .stopped then .stopped else .fosc) ∧ (∀ p, p < 17 → (tile u p).polder.isAwake = false) ∧
    (∀ p : TileId, p ∈ u.clk.wasAwake ↔ (tile s p.val).polder.isAwake = true) ∧
    u.clk.st = (if pick.isSome then .relocking else .holdover) ∧ u.clk.inUse.toNat = (pick.map Fin.val).getD 2 ∧
    hasLogged s u 0x0A02 ∧ told s u allTenants 0x5020 [BitVec.ofNat 8 ((pick.map Fin.val).getD 2)] ∧
    (∀ c g, (cam s c).link = .up g → (cam u c).link = .lost) ∧
    ((∀ c f, (cam s c).frame = some f → f.claim = none) → ∀ t o, runOrder s t = some o →
      ∃ o', runOrder u t = some o' ∧ o'.seq = o.seq ∧ o'.reexec = true ∧ o'.recomputed = true)
  let other := if ok (1 - r) then some (1 - r) else none
  (s.clk.sleep = .pending k →
    (s.fab.load = none → s.fab.owed = [] → arrayActive s = false → (∀ t, (ten s t).orders = []) →
      runs .deepSleepEntry s [.tiles, .pe, .peMem, .peBad, .peTag, .noc, .fab, .field, .ses, .clk] fun u =>
        u.clk.sleep = .entered ∧ u.clk.gated = s.clk.gateDeep.truncate 25 ∧ u.clk.lockNoc = false ∧ u.clk.lockFab = false ∧
        u.clk.lockSys = false ∧ u.fab.clk = .stopped ∧ (∀ j : RegionId, regionSt u j = .stopped) ∧ u.fab.cfg = s.fab.cfg ∧
        u.field.holdSleep = true ∧ (∀ p, p < 17 → (tile u p).polder = .off) ∧ (∀ j, (ses u j).isOpen = false) ∧
        (ses u k).reply = some ⟨0, []⟩) ∧
    (s.fab.load ≠ none ∨ s.fab.owed ≠ [] ∨ arrayActive s = true ∨ (∃ t, (ten s t).orders ≠ []) → exec .deepSleepEntry s = .next s)) ∧
  (s.clk.sleep = .none ∨ s.clk.sleep = .entered → exec .deepSleepEntry s = .next s) ∧
  runs (.refValid r) s [.clk] (fun u => u.clk = valid r true s.clk) ∧
  (s.clk.inUse.toNat ≠ r.val ∨ s.clk.sleep = .entered ∨ moduleUp s = false ∨ s.clk.st = .holdover → s.obs.due = none → ∀ c, failing c →
    (ok r = true → runs c s [.clk, .obs] fun u => u.clk = valid r false s.clk ∧ logged s u 0x0A01 0 r.val) ∧
    (ok r = false → exec c s = .next s)) ∧
  (s.clk.sleep ≠ .entered → moduleUp s = true → s.clk.inUse.toNat = r.val → ∀ c, failing c →
    (s.clk.st = .normal → ∃ u, exec c s = .next u ∧ stops u (some r) other) ∧
    (s.clk.st = .relocking → s.obs.due = none → runs c s [.tenants, .ses, .clk, .obs] fun u =>
      u.clk = { valid r false s.clk with st := .holdover, inUse := 2 } ∧ hasLogged s u 0x0A02 ∧ told s u allTenants 0x5020 [2])) ∧
  (s.clk.st = .normal → pllRuns s pll = true → moduleUp s = true → s.clk.inUse.toNat = r.val → ∃ u, exec (.pllLossOfLock pll) s = .next u ∧
    stops u none (if ok r then some r else other)) ∧
  (s.clk.st ≠ .normal ∨ pllRuns s pll = false ∨ moduleUp s = false → s.obs.due = none → exec (.pllLossOfLock pll) s = .next s) ∧
  (s.clk.st = .relocking → ∃ u, exec .pllRelock s = .next u ∧ u.clk.st = .normal ∧ u.clk.refSwitches = satInc s.clk.refSwitches ∧
    u.clk.freeze = false ∧ u.clk.lockNoc = true ∧ u.clk.lockFab = true ∧ u.clk.lockSys = true ∧ u.field.holdClock = false ∧
    hasLogged s u 0x0A02 ∧ (arrayActive s = false → (s.fab.clk = .fosc → u.fab.clk = .quarter ∨ u.fab.clk = .ramping true 0) ∧
      ∀ p ∈ s.clk.wasAwake, (tile s p.val).polder = .dark → ∃ q x f, (tile u p.val).polder = .up q x f)) ∧
  (s.clk.st ≠ .relocking → exec .pllRelock s = .next s) ∧
  (s.clk.st = .holdover → runs (.holdoverRefValid r) s [.tenants, .ses, .clk, .obs] fun u =>
    u.clk = { valid r true s.clk with st := .relocking, inUse := BitVec.ofNat 2 r.val } ∧ hasLogged s u 0x0A02 ∧
    told s u allTenants 0x5020 [BitVec.ofNat 8 r.val]) ∧
  (s.clk.st ≠ .holdover → exec (.holdoverRefValid r) s = .next s)

/-- Supply warnings (R391, R435–R438): a VCORE warning of a module that is up counts a dip, marks running orders for re-execution and freezes
starts, after 500 µs holds the outputs safe, and ends at recovery, when starts are no longer frozen by it; a power-fail warning counts, is
sent and writes the watermarks, and its end needs VMEM in range; VSER at its action level loses every link; the field dies lose their safe
states with their last feed and have them again with the first. An event that changes nothing leaves the state as it is. -/
def Obligations.SupplyWarnings : Prop := ∀ (s : State) (f g : Fin 2) (vmem : Bool) (r : StartReport),
  let feed := fun (u : State) (i : Fin 2) => if i = 0 then u.sup.feedA else u.sup.feedB
  (s.sup.vcore = .normal → moduleUp s = true → ∃ u, exec .vcoreWarning s = .next u ∧ u.sup.vcore = .warnHold ∧
    u.sup.dips = satInc s.sup.dips ∧ hasLogged s u 0x0A03 ∧ frozen u = true ∧
    (∀ t o, runOrder s t = some o → ∃ o', runOrder u t = some o' ∧ o'.seq = o.seq ∧ o'.reexec = true ∧ o'.recomputed = true) ∧
    told s u allTenants 0x3110 []) ∧
  (s.sup.vcore ≠ .normal ∨ moduleUp s = false → s.obs.due = none → exec .vcoreWarning s = .next s) ∧
  (s.sup.vcore = .warnHold → moduleUp s = true → runs .vcoreWarningHoldExpiry s [.fab, .field, .sup, .obs] fun u =>
    u.sup = { s.sup with vcore := .warnSafe } ∧ u.field = { s.field with holdVcore := true, ch := u.field.ch } ∧
    (∀ m, (fch u m).kept = (fch s m).kept) ∧ logged s u 0x0A03 0 2) ∧
  (s.sup.vcore ≠ .warnHold ∨ moduleUp s = false → exec .vcoreWarningHoldExpiry s = .next s) ∧
  (s.sup.vcore ≠ .normal → moduleUp s = true → s.obs.due = none → ∃ u, exec (.vcoreRecovery r) s = .next u ∧ u.sup.vcore = .normal ∧
    u.field.holdVcore = false ∧ hasLogged s u 0x0A03 ∧
    frozen u = (s.clk.freeze || decide (s.start.mode ≠ .running) || decide (s.clk.sleep = .entered))) ∧
  (s.sup.vcore = .normal → s.obs.due = none → exec (.vcoreRecovery r) s = .next s) ∧
  (s.sup.pfw = 0 → runs (.powerFailWarning vmem) s [.tenants, .ses, .sup, .obs] fun u =>
    u.sup.pfw = 2 ∧ u.sup.pfails = satInc s.sup.pfails ∧ (vmem = true → s.sup.vmem ≠ 2 → u.sup.vmem = 1) ∧
    (vmem = false → u.sup.pfailLow = true) ∧ logged s u 0x0A04 0 2 ∧ told s u allTenants 0x3120 [] ∧
    ∀ t, (ten u t).wmCurrent = 1 ∧ (ten u t).flashSettled = (ten s t).wmSettled ∧ (ten u t).wmPersisted = lastSeq (ten s t)) ∧
  (s.sup.pfw ≠ 0 → runs (.powerFailWarning vmem) s [.sup] fun u =>
    u.sup = if vmem then { s.sup with vmem := if s.sup.vmem = 2 then 2 else 1 } else { s.sup with pfailLow := true }) ∧
  (s.sup.pfw ≠ 0 → s.sup.vmem ≠ 2 → runs .powerFailWarningEnd s [.sup, .obs] fun u =>
    u.sup = { s.sup with pfw := 0, pfailLow := false, vmem := 0 } ∧ logged s u 0x0A04 0 0) ∧
  (s.sup.pfw = 0 ∨ s.sup.vmem = 2 → exec .powerFailWarningEnd s = .next s) ∧
  (moduleUp s = true → ∃ u, exec .vserAction s = .next u ∧ ∀ c l, (cam s c).link = .up l → (cam u c).link = .lost) ∧
  (moduleUp s = false → exec .vserAction s = .next s) ∧
  (feed s f = true → f ≠ g → runs (.fieldFeedLost f) s [.tenants, .fab, .field, .ses, .sup] fun u =>
    feed u f = false ∧ feed u g = feed s g ∧ told s u allTenants 0x3130 [BitVec.ofNat 8 f.val] ∧
    (feed s g = true → u.field = s.field ∧ u.fab = s.fab) ∧ (feed s g = false → ∀ n, n < 512 → landDrive u n = .off)) ∧
  (feed s f = false → exec (.fieldFeedLost f) s = .next s) ∧
  (feed s f = false → f ≠ g → runs (.fieldFeedRecovery f) s [.tenants, .fab, .field, .ses, .sup] fun u =>
    feed u f = true ∧ feed u g = feed s g ∧ u.field = { s.field with loaded := true, ch := u.field.ch }) ∧
  (feed s f = true → exec (.fieldFeedRecovery f) s = .next s)

/-- Cold starts (R63, R65, R152, R153, R324, R442–R446, R452, R459). With every check passing, power on, a retry, the COLD_COMMAND, VMEM's
recovery, a warm reset without retention and a reset in SAFE SHELL end RUNNING: with their cause, the counter of cold starts raised and that
of failed starts at 0; orders and records are gone, ownership records in flash that verify apply, keys stand, every tile is OFF, a failed
tile stays so, the golden control store is the one in flash, the active slot that verifies is loaded, and the first entry of the log is
START. Where no sequencer and no router has failed or fails, a sequencer serves if a record names it and is a spare if none does. A start that
fails says at which step; from the third attempt in a row it ends in SAFE SHELL with the null configuration. One that does not end in 2 s
has failed. The time a start takes is free below its bound. -/
def Obligations.ColdStarts : Prop := ∀ (s : State) (k : SesId) (r : StartReport) (i : Fin 10),
  let good := r.imagesVerified = true ∧ (r.pairA = true ∨ r.pairB = true) ∧ r.wcsDigest = true ∧ r.keyTest = true ∧
    r.maintenancePort = true
  let runsFrom := fun (u : State) (cause : Byte) (t0 : DWord) =>
    u.start.mode = .running ∧ u.start.cause = cause ∧ u.start.kind = 0 ∧ u.start.failed = 0 ∧ u.start.cold = satInc s.start.cold ∧
    u.start.time.toNat ≤ 1600000 ∧ u.time = t0 + BitVec.ofNat 64 (1000 * u.start.time.toNat) ∧
    (∀ t, (ten u t).orders = [] ∧ (ten u t).records = [] ∧ (t ∉ r.badRecords → (ten u t).own = (ten s t).ownFlash) ∧
      (t ∈ r.badRecords → (ten u t).own = none)) ∧
    u.ident.ik = s.ident.ik ∧ u.ident.tk = s.ident.tk ∧ u.mc.golden = s.mc.flash ∧
    (∀ p, p < 17 → (tile u p).polder = .off ∧ ((tile s p).service = .failed → (tile u p).service = .failed)) ∧
    (r.badSequencers = [] → r.badRouters = [] → (∀ m, (rtr s m).service ≠ .failed) →
      (∀ q, (sqr s q).service ≠ .failed ∧ stuckWords (sqr s q) = []) → ∀ q : SeqId,
        ((∃ t o, (ten u t).own = some o ∧ o.seq = q) → (sqr u q.val).service = .inService) ∧
        ((∀ t o, (ten u t).own = some o → o.seq ≠ q) → (sqr u q.val).service = .spare)) ∧
    (∃ l e, u.obs.log = (l ++ [e]).take 1024 ∧ e.code = 0x0B01 ∧ e.num = 1 ∧ e.time = u.time) ∧
    (let slot := SMap.get [] s.fab.slots s.fab.slotB.toNat
     slot ≠ [] → (if s.fab.slotB then r.slotB else r.slotA) = true →
       u.fab.isNull = false ∧ u.fab.cfg = loadCfg FabCfg.null none (parseBits slot).recs) ∧
    (SMap.get [] s.fab.slots 0 = [] → SMap.get [] s.fab.slots 1 = [] → u.fab.isNull = true ∧ u.fab.cfg = FabCfg.null)
  let ends := fun (c : Instr) (cause : Byte) (t0 : DWord) => good → r.completes = true → ∃ u, exec c s = .next u ∧ runsFrom u cause t0
  let fails := fun (c : Instr) (step : Nat) (tries : Nat) => ∃ u, exec c s = .next u ∧ u.start.failedStep.toNat = step ∧
    (tries < 3 → u.start.mode = .failedStart) ∧
    (3 ≤ tries → u.start.mode = .safeShell ∧ u.start.kind = 2 ∧ u.fab.isNull = true ∧ u.fab.cfg = FabCfg.null)
  let cold := fun (c : Instr) (cause : Byte) =>
    let tries := s.start.failed.toNat + 1
    (r.imagesVerified = false → s.fab.backup = false → s.ident.fw.flashFile = none → fails c 2 tries) ∧
    (r.imagesVerified = true → r.pairA = false → r.pairB = false → fails c 3 tries) ∧
    (r.imagesVerified = true → r.pairA = true ∨ r.pairB = true → r.wcsDigest = false → fails c 5 tries) ∧
    (r.imagesVerified = true → r.pairA = true ∨ r.pairB = true → r.wcsDigest = true → r.keyTest = false → fails c 8 tries) ∧
    (r.imagesVerified = true → r.pairA = true ∨ r.pairB = true → r.wcsDigest = true → r.keyTest = true → r.maintenancePort = false →
      (∀ h, h ∈ r.badControllers) → fails c 9 tries) ∧
    (good → r.completes = false → ∃ u, exec c s = .next u ∧ u.start.mode = .starting cause)
  ends (.powerOn r) 0 0 ∧ cold (.powerOn r) 0 ∧
  (s.start.mode = .failedStart → ends (.coldStartRetry r) 8 (s.time + 100000000) ∧ cold (.coldStartRetry r) 8) ∧
  (s.start.mode ≠ .failedStart → s.obs.due = none → exec (.coldStartRetry r) s = .next s) ∧
  (admitted s k 0x2301 1 1 →
    (s.start.mode = .running → (∀ t, (ten s t).orders = []) → ends (.resetCold k r) 2 s.time) ∧
    (s.start.mode = .safeShell → ends (.resetCold k r) 2 s.time) ∧
    (s.start.mode = .running → (∃ t, (ten s t).orders ≠ []) → aborts (.resetCold k r) s k 0x08000022 [] fun _ => True)) ∧
  (s.start.mode = .held 1 → s.sup.vcore = .normal → s.sup.vioLow = [] → s.start.rstLow = false →
    ends (.vmemRecovery r) 1 s.time ∧ cold (.vmemRecovery r) 1) ∧
  (s.start.mode = .running → r.retention = false → ends (.watchdogExpiry r) 1 s.time ∧ cold (.watchdogExpiry r) 1) ∧
  (s.start.mode = .safeShell → ends (.watchdogExpiry r) 8 s.time ∧ cold (.watchdogExpiry r) 8) ∧
  (∀ c, s.start.mode = .starting c → fails (.coldStartTimeout i) i s.start.failed.toNat) ∧
  ((∀ c, s.start.mode ≠ .starting c) → s.obs.due = none → exec (.coldStartTimeout i) s = .next s)

/-- Sources that hold the module in reset (R435, R442, R443): polders and array stop, sessions close, running orders wait for their
re-execution, and the start of the source's cause is held; in SAFE SHELL that start is a retry. Of the fabric the sources of the supplies
stop every region; RST_N keeps configuration and regions. While a start is held or runs, another source only counts, but lost retention
makes the held start a cold one. A recovery while another source holds changes nothing else.
Warm starts (R442, R443, R448, R449): with retention, keys and one good image and pair a watchdog reset, a write of 1 to RESET and the
release of a held start end RUNNING, with the checks that failed in WARM_SKIPS. Where every check but those of ADCs passes: ownership and
the fabric configuration stand, the outputs are no longer held, orders whose claimed inputs are complete stay under their numbers, and one
that a reset found RUNNING is recomputed. While the module is neither up nor held the watchdog does nothing; in SAFE SHELL the write
aborts with 0x0800_0022. -/
def Obligations.WarmStarts : Prop :=
  (∀ (s : State) (rail : Fin 2) (r : StartReport),
    let quiet := fun (u : State) (cause : Byte) => u.start.mode = .held cause ∧ (∀ k, (ses u k).isOpen = false) ∧
      (∀ p, p < 17 → (tile u p).polder = .off) ∧ (∀ c, (cam u c).link = .down) ∧ u.fab.load = none ∧ u.clk.sleep = .none ∧
      u.fab.cfg = s.fab.cfg ∧
      (∀ t o, runOrder s t = some o → ∃ o', runOrder u t = some o' ∧ o'.seq = o.seq ∧ o'.reexec = true) ∧
      (cause ≠ 6 → u.fab.clk = .stopped ∧ ∀ j : RegionId, regionSt u j = .stopped) ∧
      (cause = 6 → ∀ j : RegionId, regionSt u j = regionSt s j)
    let holds := fun (cmd : Instr) (cause : Byte) (q : State → Prop) =>
      (s.start.mode = .running ∨ cause = 1 → ∃ u, exec cmd s = .next u ∧ quiet u cause ∧ q u) ∧
      (s.start.mode = .safeShell → cause ≠ 1 → ∃ u, exec cmd s = .next u ∧ quiet u 8 ∧ q u) ∧
      (s.start.mode ≠ .running → s.start.mode ≠ .safeShell → cause ≠ 1 → s.obs.due = none → runs cmd s [.sup, .start] fun u =>
        u.start.mode = s.start.mode ∧ q u)
    holds .vcoreResetLevel 3 (fun u => u.sup = { s.sup with vcore := if s.sup.vcore = .normal then .warnHold else s.sup.vcore }) ∧
    holds .vmemAction 1 (fun u => u.sup = { s.sup with vmem := 2 }) ∧
    holds (.vioAction rail) 4 (fun u => rail ∈ u.sup.vioLow ∧ ∀ k, k ≠ rail → (k ∈ u.sup.vioLow ↔ k ∈ s.sup.vioLow)) ∧
    holds .rstNLow 6 (fun u => u.start.rstLow = true) ∧
    (s.obs.due = none →
      ((∀ c, s.start.mode ≠ .held c) ∨ s.sup.vcore ≠ .normal ∨ s.sup.vioLow ≠ [] ∨ s.start.rstLow = true → runs (.vmemRecovery r) s [.sup] fun u =>
        u.sup = { s.sup with vmem := 0 }) ∧
      ((∀ c, s.start.mode ≠ .held c) ∨ s.sup.vcore ≠ .normal ∨ s.sup.vmem = 2 ∨ s.start.rstLow = true → runs (.vioRecovery rail r) s [.sup] fun u =>
        u.sup = { s.sup with vioLow := s.sup.vioLow.filter fun k => decide (k ≠ rail) }) ∧
      ((∀ c, s.start.mode ≠ .held c) ∨ s.sup.vcore ≠ .normal ∨ s.sup.vioLow ≠ [] ∨ s.sup.vmem = 2 → runs (.rstNRise r) s [.start] fun u =>
        u.start = { s.start with rstLow := false }) ∧
      (moduleUp s = false → s.sup.vcore ≠ .normal → (∀ c, s.start.mode ≠ .held c) ∨ s.sup.vioLow ≠ [] ∨ s.sup.vmem = 2 ∨ s.start.rstLow = true →
        runs (.vcoreRecovery r) s [.sup] fun u => u.sup = { s.sup with vcore := .normal }))) ∧
  (∀ (s : State) (k : SesId) (r : StartReport) (rail : Fin 2) (c : Byte),
    let able := r.retention = true ∧ r.badHeaders = [] ∧ r.keyTest = true ∧ r.imagesVerified = true ∧ (r.pairA = true ∨ r.pairB = true) ∧
      r.maintenancePort = true
    let good := able ∧ r.flashCounter = true ∧ r.retainedImage = true ∧ r.wcsDigest = true ∧ r.badSequencers = [] ∧ r.fabricCrc = true ∧
      r.badControllers = [] ∧ s.fab.load = none ∧ s.fab.loadState ≠ 2 ∧ s.fab.owed = [] ∧ ∀ l, 64 ≤ l → SMap.get none s.fab.cfg.lines l = none
    let bit := fun (b : Bool) (n : Nat) => if b then n else 0
    let ends := fun (cmd : Instr) (cause : Byte) (reset : Bool) =>
      (able → ∃ u, exec cmd s = .next u ∧ u.start.mode = .running ∧ u.start.cause = cause ∧ u.start.kind = 1 ∧
        u.start.warm = satInc s.start.warm ∧ u.start.cold = s.start.cold ∧ u.start.time.toNat ≤ 200000 ∧
        u.time = s.time + BitVec.ofNat 64 (1000 * u.start.time.toNat) ∧
        u.start.warmSkips.toNat = bit (!r.flashCounter) 1 + bit (!r.retainedImage) 2 + bit (!r.wcsDigest || !r.badSequencers.isEmpty) 4 +
          bit (!r.fabricCrc || decide (s.fab.loadState = 2) || (reset && s.fab.load.isSome)) 8 + bit (!s.sup.feedA && !s.sup.feedB) 16) ∧
      (good → ∃ u, exec cmd s = .next u ∧ u.start.time.toNat ≤ 9000 ∧ u.sup.vcore = .normal ∧ u.fab.cfg = s.fab.cfg ∧
        u.field.holdClock = false ∧ u.field.holdVcore = false ∧ u.field.holdSleep = false ∧ hasLogged s u 0x0B01 ∧
        ∀ t, (ten u t).own = (ten s t).own ∧ ∀ o ∈ (ten s t).orders, (∀ p ∈ (ten s t).orders, p.seq = o.seq → p = o) →
          (∀ i ∈ o.ins, i.kind ≠ .adc ∧ (i.claimed = true → i.complete = true)) →
          ∃ o' ∈ (ten u t).orders, o'.seq = o.seq ∧ o'.st = o.st ∧ (reset = true → o.st = .running → o'.reexec = true ∧ o'.recomputed = true))
    (s.start.mode = .running → ends (.watchdogExpiry r) 5 true ∧ (admitted s k 0x2301 1 1 → ends (.resetWarm k r) 7 true)) ∧
    (moduleUp s = false → s.obs.due = none → exec (.watchdogExpiry r) s = .next s) ∧
    (admitted s k 0x2301 1 1 → s.start.mode = .safeShell → aborts (.resetWarm k r) s k 0x08000022 [] fun _ => True) ∧
    (s.start.mode = .held c → c ≠ 1 → c ≠ 8 →
      (s.sup.vcore = .normal → s.sup.vioLow = [] → s.sup.vmem ≠ 2 → ends (.rstNRise r) c false) ∧
      (s.sup.vcore ≠ .normal → s.sup.vioLow = [] → s.sup.vmem ≠ 2 → s.start.rstLow = false → ends (.vcoreRecovery r) c false) ∧
      (s.sup.vcore = .normal → s.sup.vmem ≠ 2 → s.start.rstLow = false → (∀ x ∈ s.sup.vioLow, x = rail) → ends (.vioRecovery rail r) c false)))

/-- Attestation, keys, firmware and housekeeping pairs (R210, R459, R462–R467, R471, R472): a nonce takes a snapshot of the log and waits its
turn; a signed key record, or the unsigned first one of IK on the maintenance port, stores its key and raises the counter; a firmware file
waits in the standby pair, whose role swap stores it, or in SAFE SHELL for the next cold start; a refused artefact aborts with
0x0800_0000 and its reason. The fault of the active pair hands over to the standby one and is told to T0; an update under way stops. -/
def Obligations.IdentityCommands : Prop := ∀ (s : State) (k : SesId) (t : Tenant) (l : List Tenant) (d : Bytes) (b : Bool) (p : Fin 2),
  let a := att s t
  let others := fun (u : State) => u.ident = { s.ident with att := u.ident.att, attQueue := u.ident.attQueue } ∧
    ∀ v, v ≠ t → att u v = att s v
  let ctr : Word := BitVec.ofNat 32 (leAt d 4 4)
  (admitted s k 0x2401 1 d.length → t = sesTenant k →
    (a.state ≠ 1 → a.state ≠ 2 → accepts (.nonce k d) s k [.ident] fun u => others u ∧ u.ident.attQueue = s.ident.attQueue ++ [t] ∧
      (att u t).state = 1 ∧ (att u t).nonce = d ∧ (att u t).snapTime = s.time ∧ ∀ i, i < 18 → SMap.get Meas.absent (att u t).snap i =
        if t ≠ 0 ∧ ((4 ≤ i ∧ i ≤ 11 ∧ regionOwner s (i - 4) ≠ some t) ∨ (12 ≤ i ∧ i ≤ 15 ∧ i ≠ 12 + t.val))
        then { Meas.absent with state := 3 } else SMap.get Meas.absent s.ident.meas i) ∧
    (a.state = 1 ∨ a.state = 2 → aborts (.nonce k d) s k 0x08000022 [] fun _ => True)) ∧
  (s.ident.attQueue = t :: l →
    (a.state = 1 → runs .attestationSignStart s [.ident] fun u => others u ∧ att u t = { a with state := 2 }) ∧
    (a.state = 2 → runs (.attestationSignComplete b) s [.ident] fun u => others u ∧ u.ident.attQueue = l ∧
      att u t = if b then { a with state := 3, response := attBody s t a ++ Config.deviceSign (attBody s t a) }
        else { a with state := 4 }) ∧
    (a.state ≠ 1 → exec .attestationSignStart s = .next s) ∧ (a.state ≠ 2 → exec (.attestationSignComplete b) s = .next s)) ∧
  (s.ident.attQueue = [] → exec .attestationSignStart s = .next s ∧ exec (.attestationSignComplete b) s = .next s) ∧
  (admitted s k 0x2404 1 d.length → d.length = 5277 → leAt d 0 2 = 0 → leAt d 2 1 ≤ 3 → leAt d 3 1 = 1 → allZero (slice d 8 8) = true →
    let key := slice d 0x10 1952
    (∀ e, checkSig s s.ident.ik "AZ6516/KEY" (d.take 0x7B0) (d.drop 0x7B0) ctrKey ctr = some e →
      aborts (.keyRecord k d) s k 0x08000000 [.ident, .obs] fun u =>
        SMap.get 0 u.ident.verifyError (sesTenant k).val = BitVec.ofNat 32 (0x06000000 + e.toNat) ∧ logged s u 0x0B04 (sesTenant k) (0x06000000 + e.toNat)) ∧
    (checkSig s s.ident.ik "AZ6516/KEY" (d.take 0x7B0) (d.drop 0x7B0) ctrKey ctr = none → ¬(leAt d 2 1 = 0 ∧ allZero key = true) →
      accepts (.keyRecord k d) s k [.ident] fun u => ((counter s ctrKey).toNat ≤ ctr.toNat → counter u ctrKey = ctr) ∧
        (leAt d 2 1 = 0 → u.ident.ik = some key ∧ u.ident.tk = s.ident.tk) ∧
        ∀ i, (leAt d 2 1 ≠ 0 → u.ident.ik = s.ident.ik ∧ SMap.get none u.ident.tk i =
          if i = leAt d 2 1 then (if allZero key then none else some key) else SMap.get none s.ident.tk i))) ∧
  (admitted s k 0x2404 1 d.length → d.length = 1968 →
    let first := leAt d 0 2 = 0 ∧ leAt d 2 1 = 0 ∧ leAt d 3 1 = 1 ∧ allZero (slice d 8 8) = true ∧ k = 4 ∧ s.ident.ik = none
    (first → (counter s ctrKey).toNat ≤ ctr.toNat → allZero (slice d 0x10 1952) = false → accepts (.keyRecord k d) s k [.ident] fun u =>
      u.ident.ik = some (slice d 0x10 1952) ∧ u.ident.tk = s.ident.tk ∧ counter u ctrKey = ctr) ∧
    (¬first ∨ ctr.toNat < (counter s ctrKey).toNat ∨ allZero (slice d 0x10 1952) = true →
      aborts (.keyRecord k d) s k 0x08000000 [.ident, .obs] fun u => u.ident.ik = s.ident.ik ∧ u.ident.tk = s.ident.tk)) ∧
  (admitted s k 0x2403 1 d.length → 3565 ≤ d.length →
    let st := s.ident.fw.state
    let busy := s.mc.patchState = 1 ∨ s.mc.patchState = 2 ∨ s.fab.load.isSome = true ∨ s.fab.owed ≠ [] ∨ standbyOk s = false ∨
      st = 2 ∨ st = 3 ∨ st = 4
    (busy → aborts (.firmware k d) s k 0x08000022 [] fun _ => True) ∧
    (¬busy → ∀ e, fwCheck s d = some e → aborts (.firmware k d) s k 0x08000000 [.ident, .obs] fun u =>
      u.ident.fw = { s.ident.fw with state := 6 } ∧ SMap.get 0 u.ident.verifyError (sesTenant k).val = BitVec.ofNat 32 (0x01000000 + e.toNat)) ∧
    (¬busy → fwCheck s d = none → s.start.mode = .running → accepts (.firmware k d) s k [.ident] fun u =>
      u.ident.fw = { s.ident.fw with state := 2, file := some d } ∧ SMap.get 0 u.ident.pending ctrFw = ctr) ∧
    (¬busy → fwCheck s d = none → s.start.mode = .safeShell → accepts (.firmware k d) s k [.ident, .fab] fun u =>
      u.ident.fw = { s.ident.fw with state := 8, flashFile := some d } ∧ SMap.get 0 u.ident.pending ctrFw = ctr)) ∧
  (admitted s k 0x2403 1 d.length → d.length < 3565 → aborts (.firmware k d) s k 0x06070013 [] fun _ => True) ∧
  (∀ lock, s.ident.fw.state ≠ 2 ∨ s.ident.fw.file = none → exec (.firmwareRoleSwap lock b) s = .next s) ∧
  (s.ident.fw.state = 2 → s.ident.fw.file = some d →
    runs (.firmwareRoleSwap false b) s [.ident] (fun u => u.ident.fw = { s.ident.fw with state := 6, file := none } ∧
      SMap.get 0 u.ident.pending ctrFw = 0) ∧
    (runs (.firmwareRoleSwap true true) s [.ident, .start, .fab] fun u => u.start = { s.start with pairActive := 1 - s.start.pairActive } ∧
      u.ident.fw = { s.ident.fw with
        state := 5, file := none, boot := fwBoot d, image := fwImage d, version := Config.fwVersion (fwImage d), build := fwBuildOf (fwImage d) } ∧
      ((counter s ctrFw).toNat ≤ ctr.toNat → counter u ctrFw = ctr)) ∧
    runs (.firmwareRoleSwap true false) s [.ident, .start, .fab] fun u => u.start = { s.start with pairActive := 1 - s.start.pairActive } ∧
      u.fab.backup = true ∧ u.ident.fw.state = 4 ∧ u.ident.fw.file = some d ∧ counter u ctrFw = counter s ctrFw) ∧
  (let inService := fun (u : State) (i : Fin 2) => if i = 0 then u.start.pairA else u.start.pairB
   (inService s p = true → ∃ u, exec (.housekeepingPairFault p) s = .next u ∧ inService u p = false ∧
     inService u (1 - p) = inService s (1 - p) ∧
     u.start.pairActive = (if s.start.pairActive = p ∧ inService s (1 - p) = true then 1 - p else s.start.pairActive) ∧
     (s.ident.fw.state = 2 ∨ s.ident.fw.state = 3 ∨ s.ident.fw.state = 4 → u.ident.fw = { s.ident.fw with state := 7, file := none }) ∧
     (s.start.pairActive = p → told s u [0] 0x5010 [6, BitVec.ofNat 8 p.val, if inService s (1 - p) then 0 else 1])) ∧
   (inService s p = false → s.obs.due = none → exec (.housekeepingPairFault p) s = .next s))

/-- Tide marks and the TAP (R331, R474–R478, R487): in a module that is up a source takes a mark, 243 to 516 ns later (the model's reading of
the synchroniser, log 6), with a snapshot and a capture of every region, or within 20 µs of the last mark only counts as merged; in
DEEP-SLEEP the mark is counted and logged alone, and during a start it is ignored. Instructions that drive the lands load as BYPASS
unless RST_N is low. -/
def Obligations.TideMarks : Prop := ∀ (s : State) (k : SesId) (v : Byte) (cells : Bytes),
  let marks := fun (c : Instr) (src : Nat) (l : List Comp) =>
    (s.obs.tideSeen = false ∨ s.obs.tideTime.toNat + 20000 ≤ s.time.toNat + 243 → s.time.toNat + 516 < 2 ^ 64 →
      runs c s (.freeCtr :: .fab :: .obs :: l) fun u =>
        u.obs.tideCount = s.obs.tideCount + 1 ∧ u.obs.tideSeen = true ∧
        (∃ d : Nat, 243 ≤ d ∧ d ≤ 516 ∧ u.obs.tideTime.toNat = s.time.toNat + d) ∧ u.obs.snap.isSome = true ∧ u.obs.snapState = 1 ∧
        u.obs.tideOut = (s.obs.tideOutMask.getLsbD src || s.obs.tideOut) ∧ logged s u 0x0C01 0 (s.obs.tideCount + 1).toNat ∧
        u.fab = { s.fab with captured := u.fab.captured, captureState := u.fab.captureState } ∧
        ∀ g, g < 8 → u.fab.captureState.getLsbD g = true) ∧
    (s.obs.tideSeen = true → s.time.toNat + 516 < 2 ^ 64 → s.time.toNat + 516 < s.obs.tideTime.toNat + 20000 →
      runs c s (.freeCtr :: .obs :: l) fun u => u.obs = { s.obs with tideMerged := satInc s.obs.tideMerged })
  (s.obs.due = none →
    (moduleUp s = true → s.clk.sleep ≠ .entered → marks .tideInEdge 0 []) ∧
    (moduleUp s = true → s.clk.sleep = .entered → s.obs.tideSeen = false → runs .tideInEdge s [.freeCtr, .obs] fun u =>
      u.obs.tideCount = s.obs.tideCount + 1 ∧ u.obs.tideSeen = true ∧ logged s u 0x0C01 0 (s.obs.tideCount + 1).toNat ∧
      u.obs.snap = s.obs.snap ∧ u.obs.snapState = s.obs.snapState ∧ u.obs.tideOut = s.obs.tideOut) ∧
    (moduleUp s = false → exec .tideInEdge s = .next s)) ∧
  (admitted s k 0x2500 1 1 →
    marks (.tideCmd k 1) 1 [.ses] ∧
    (v ≠ 1 → aborts (.tideCmd k v) s k 0x06090030 [] fun _ => True)) ∧
  runs .snapshotLatchEnd s [.obs] (fun u => u.obs = { s.obs with snapState := if s.obs.snapState = 1 then 2 else s.obs.snapState }) ∧
  runs .tideOutEnd s [.obs] (fun u => u.obs = { s.obs with tideOut := false }) ∧
  (let tap := fun (c : Instr) (i : TapInstr) => runs c s [.obs] fun u => u.obs = { s.obs with tap := i }
   let drives := fun (c : Instr) (i : TapInstr) => tap c (if s.start.rstLow then i else .bypass)
   tap .tapBypass .bypass ∧ tap .tapIdcode .idcode ∧
   runs (.tapSamplePreload cells) s [.obs] (fun u => u.obs = { s.obs with tap := .samplePreload, cells := cells }) ∧
   drives .tapExtest .extest ∧ drives .tapExtestPulse .extestPulse ∧ drives .tapExtestTrain .extestTrain ∧
   drives .tapClamp .clamp ∧ drives .tapHighz .highz)
end

