-- ==== Sys2Proof/Laws/SMap.lean ====
section
/-! SUPPORT. Sparse maps: a read after a write, and the canonical form. -/

namespace Sys2Proof.Machine

variable {α : Type}

@[simp] theorem SMap.get_nil (d : α) (k : Nat) : SMap.get d [] k = d := rfl

theorem SMap.get_del_same (d : α) (m : SMap α) (k : Nat) : SMap.get d (SMap.del m k) k = d := by
  induction m with
  | nil => rfl
  | cons e r ih =>
    obtain ⟨j, v⟩ := e
    by_cases h : j = k
    · simpa [SMap.del, h] using ih
    · have h' : ¬k = j := fun e => h e.symm
      simpa [SMap.del, h, SMap.get, h'] using ih

theorem SMap.get_del_ne (d : α) (m : SMap α) {k a : Nat} (h : a ≠ k) : SMap.get d (SMap.del m k) a = SMap.get d m a := by
  induction m with
  | nil => rfl
  | cons e r ih =>
    obtain ⟨j, v⟩ := e
    by_cases hj : j = k
    · subst hj
      simpa [SMap.del, SMap.get, h] using ih
    · by_cases ha : a = j
      · subst ha; simp [SMap.del, SMap.get, hj]
      · simpa [SMap.del, hj, SMap.get, ha] using ih

theorem SMap.get_put_same (d : α) (m : SMap α) (k : Nat) (v : α) : SMap.get d (SMap.put m k v) k = v := by
  induction m with
  | nil => simp [SMap.put, SMap.get]
  | cons e r ih =>
    obtain ⟨j, w⟩ := e
    unfold SMap.put
    split
    · simp [SMap.get]
    · split
      · simp [SMap.get]
      · rename_i h
        simpa [SMap.get, h] using ih

theorem SMap.get_put_ne (d : α) (m : SMap α) {k a : Nat} (v : α) (h : a ≠ k) :
    SMap.get d (SMap.put m k v) a = SMap.get d m a := by
  induction m with
  | nil => simp [SMap.put, SMap.get, h]
  | cons e r ih =>
    obtain ⟨j, w⟩ := e
    unfold SMap.put
    split
    · simp [SMap.get, h]
    · split
      · rename_i hk
        subst hk
        simp [SMap.get, h]
      · simp only [SMap.get]
        split <;> simp_all

section
variable [DecidableEq α]

@[simp] theorem SMap.get_set_same (d : α) (m : SMap α) (k : Nat) (v : α) : SMap.get d (SMap.set d m k v) k = v := by
  unfold SMap.set
  split
  · rename_i h
    rw [SMap.get_del_same, h]
  · exact SMap.get_put_same d m k v

theorem SMap.get_set_ne (d : α) (m : SMap α) {k a : Nat} (v : α) (h : a ≠ k) :
    SMap.get d (SMap.set d m k v) a = SMap.get d m a := by
  unfold SMap.set
  split
  · exact SMap.get_del_ne d m h
  · exact SMap.get_put_ne d m v h

theorem SMap.get_set (d : α) (m : SMap α) (k a : Nat) (v : α) :
    SMap.get d (SMap.set d m k v) a = if a = k then v else SMap.get d m a := by
  split
  · rename_i h; subst h; exact SMap.get_set_same d m a v
  · rename_i h; exact SMap.get_set_ne d m v h

/-! ### The canonical form -/

theorem SMap.wfFrom_mono {d : α} {lo lo' : Nat} (m : SMap α) (h : lo' ≤ lo) (w : SMap.wfFrom d lo m = true) :
    SMap.wfFrom d lo' m = true := by
  cases m with
  | nil => rfl
  | cons e r =>
    obtain ⟨j, v⟩ := e
    simp only [SMap.wfFrom, Bool.and_eq_true, decide_eq_true_eq] at w ⊢
    exact ⟨⟨Nat.le_trans h w.1.1, w.1.2⟩, w.2⟩

theorem SMap.wfFrom_filter {d : α} (p : Nat × α → Bool) (m : SMap α) (lo : Nat) (w : SMap.wfFrom d lo m = true) :
    SMap.wfFrom d lo (m.filter p) = true := by
  induction m generalizing lo with
  | nil => rfl
  | cons e r ih =>
    obtain ⟨j, v⟩ := e
    simp only [SMap.wfFrom, Bool.and_eq_true, decide_eq_true_eq] at w
    rw [List.filter_cons]
    split
    · simp only [SMap.wfFrom, Bool.and_eq_true, decide_eq_true_eq]
      exact ⟨w.1, ih _ w.2⟩
    · exact SMap.wfFrom_mono _ (Nat.le_succ_of_le w.1.1) (ih _ w.2)

theorem SMap.wfFrom_put {d : α} (m : SMap α) (lo k : Nat) (v : α) (hk : lo ≤ k) (hv : v ≠ d)
    (w : SMap.wfFrom d lo m = true) : SMap.wfFrom d lo (SMap.put m k v) = true := by
  induction m generalizing lo with
  | nil => simp [SMap.put, SMap.wfFrom, hk, hv]
  | cons e r ih =>
    obtain ⟨j, u⟩ := e
    simp only [SMap.wfFrom, Bool.and_eq_true, decide_eq_true_eq] at w
    unfold SMap.put
    split
    · rename_i h
      simp only [SMap.wfFrom, Bool.and_eq_true, decide_eq_true_eq]
      exact ⟨⟨hk, hv⟩, ⟨h, w.1.2⟩, w.2⟩
    · split
      · rename_i h
        subst h
        simp only [SMap.wfFrom, Bool.and_eq_true, decide_eq_true_eq]
        exact ⟨⟨hk, hv⟩, w.2⟩
      · simp only [SMap.wfFrom, Bool.and_eq_true, decide_eq_true_eq]
        exact ⟨w.1, ih (j + 1) (by omega) w.2⟩

theorem SMap.wf_clearRange {d : α} {m : SMap α} (lo n : Nat) (w : SMap.wf d m = true) :
    SMap.wf d (SMap.clearRange m lo n) = true := SMap.wfFrom_filter _ m 0 w

theorem SMap.wf_set {d : α} {m : SMap α} (k : Nat) (v : α) (w : SMap.wf d m = true) :
    SMap.wf d (SMap.set d m k v) = true := by
  unfold SMap.set
  split
  · exact SMap.wfFrom_filter _ m 0 w
  · rename_i h
    exact SMap.wfFrom_put m 0 k v (Nat.zero_le _) h w

theorem SMap.wf_writeN {d : α} {m : SMap α} (k : Nat) (l : List α) (w : SMap.wf d m = true) :
    SMap.wf d (SMap.writeN d m k l) = true := by
  induction l generalizing m k with
  | nil => exact w
  | cons v r ih => exact ih (k + 1) (SMap.wf_set k v w)

/-! ### Ranges -/

theorem SMap.get_writeN_out {d : α} {m : SMap α} (k a : Nat) (l : List α) (h : a < k ∨ k + l.length ≤ a) :
    SMap.get d (SMap.writeN d m k l) a = SMap.get d m a := by
  induction l generalizing m k with
  | nil => rfl
  | cons v r ih =>
    simp only [List.length_cons] at h
    unfold SMap.writeN
    rw [ih (k + 1) (by omega), SMap.get_set_ne d m v (by omega)]

theorem SMap.get_writeN_in {d : α} {m : SMap α} (k : Nat) (l : List α) (i : Nat) (h : i < l.length) :
    SMap.get d (SMap.writeN d m k l) (k + i) = l[i] := by
  induction l generalizing m k i with
  | nil => simp at h
  | cons v r ih =>
    unfold SMap.writeN
    cases i with
    | zero => rw [SMap.get_writeN_out _ _ _ (by omega)]; simp
    | succ i =>
      have := ih (m := SMap.set d m k v) (k + 1) i (by simpa using h)
      rw [show k + (i + 1) = k + 1 + i by omega, this]
      rfl

theorem SMap.get_clearRange_out {d : α} (m : SMap α) (lo n a : Nat) (h : a < lo ∨ lo + n ≤ a) :
    SMap.get d (SMap.clearRange m lo n) a = SMap.get d m a := by
  induction m with
  | nil => rfl
  | cons e r ih =>
    obtain ⟨j, v⟩ := e
    unfold SMap.clearRange at ih ⊢
    rw [List.filter_cons]
    split
    · simp only [SMap.get, ih]
    · rename_i hj
      have : a ≠ j := by rintro rfl; exact hj (by simpa using h)
      simp only [SMap.get, ih, if_neg this]

theorem SMap.get_clearRange_in {d : α} (m : SMap α) (lo n a : Nat) (h : lo ≤ a) (h' : a < lo + n) :
    SMap.get d (SMap.clearRange m lo n) a = d := by
  induction m with
  | nil => rfl
  | cons e r ih =>
    obtain ⟨j, v⟩ := e
    unfold SMap.clearRange at ih ⊢
    rw [List.filter_cons]
    split
    · rename_i hj
      have : a ≠ j := by
        rintro rfl
        simp only [decide_eq_true_eq] at hj
        omega
      simp only [SMap.get, ih, if_neg this]
    · exact ih

@[simp] theorem SMap.length_readN (d : α) (m : SMap α) (k n : Nat) : (SMap.readN d m k n).length = n := by
  induction n generalizing k with
  | zero => rfl
  | succ n ih => simp [SMap.readN, ih]

theorem SMap.readN_writeN {d : α} {m : SMap α} (k : Nat) (l : List α) :
    SMap.readN d (SMap.writeN d m k l) k l.length = l := by
  induction l generalizing m k with
  | nil => rfl
  | cons v r ih =>
    simp only [List.length_cons, SMap.readN, SMap.writeN]
    rw [SMap.get_writeN_out _ _ _ (by omega), SMap.get_set_same, ih]

end

end Sys2Proof.Machine
end

