-- ==== Sys2Proof/Laws/FootBase.lean ====
section
/-! SUPPORT. Which components of the state an operation can change: bit `k` of a mask stands for component `k` of `Comp`. -/

namespace Sys2Proof.Machine

def Comp.bit : Comp → Nat
  | .freeCtr => 0
  | .time => 1
  | .tiles => 2
  | .map => 3
  | .pe => 4
  | .peMem => 5
  | .peBad => 6
  | .peTag => 7
  | .seqs => 8
  | .ctxs => 9
  | .mc => 10
  | .tenants => 11
  | .lastYield => 12
  | .sp => 13
  | .xm => 14
  | .spBad => 15
  | .xmBad => 16
  | .spFill => 17
  | .xmFill => 18
  | .xmFirst => 19
  | .mem => 20
  | .march => 21
  | .xmCollisions => 22
  | .noc => 23
  | .grouping => 24
  | .maxSpeed => 25
  | .cams => 26
  | .fab => 27
  | .field => 28
  | .ses => 29
  | .net => 30
  | .clk => 31
  | .sup => 32
  | .start => 33
  | .ident => 34
  | .obs => 35

/-- From `z` to `s` the queue and every component outside mask `m` are the same. -/
def Foot (m : Nat) (z s : State) : Prop := s.pending = z.pending ∧ ∀ c, m.testBit c.bit = false → sameIn z s c

theorem Foot.refl (m : Nat) (s : State) : Foot m s s := ⟨rfl, fun c _ => by cases c <;> rfl⟩

theorem Foot.sub {a b m : Nat} (h : a ||| b = b) (hm : b ||| m = m) : a ||| m = m := by
  rw [← hm, ← Nat.or_assoc, h]

theorem Foot.no {a m : Nat} {p : Prop} (c : Comp) (hm : a ||| m = m) (hc : m.testBit c.bit = false)
    (h : a.testBit c.bit = true) : p := by
  rw [← hm, Nat.testBit_or, h, Bool.true_or] at hc
  cases hc

/-- The mask of a list of components. -/
def maskOf (l : List Comp) : Nat := l.foldr (fun c m => 2 ^ c.bit ||| m) 0

theorem maskOf_bit (l : List Comp) (c : Comp) (h : c ∉ l) : (maskOf l).testBit c.bit = false := by
  induction l with
  | nil => simp [maskOf]
  | cons a r ih =>
    simp only [List.mem_cons, not_or] at h
    have hne : a.bit ≠ c.bit := fun e => h.1 (by revert e; cases a <;> cases c <;> simp [Comp.bit])
    show (2 ^ a.bit ||| maskOf r).testBit c.bit = false
    rw [Nat.testBit_or, ih h.2, Nat.testBit_two_pow_of_ne hne]
    rfl

theorem Foot.sameBut {l : List Comp} {s u : State} (h : Foot (maskOf l) s u) : sameBut l s u :=
  ⟨h.1, fun c hc => h.2 c (maskOf_bit l c hc)⟩

theorem Foot.up_cams {m : Nat} {z s : State} {v0 : SMap Cam}
    (h : Foot m z s) (hm : 0x4000000 ||| m = m) :
    Foot m z { s with cams := v0 } :=
  ⟨h.1, fun c hc => by
    cases c <;> first | exact h.2 _ hc | exact Foot.no _ hm hc (by decide)⟩

theorem Foot.up_clk {m : Nat} {z s : State} {v0 : Clocks}
    (h : Foot m z s) (hm : 0x80000000 ||| m = m) :
    Foot m z { s with clk := v0 } :=
  ⟨h.1, fun c hc => by
    cases c <;> first | exact h.2 _ hc | exact Foot.no _ hm hc (by decide)⟩

theorem Foot.up_ctxs {m : Nat} {z s : State} {v0 : SMap TrapCtx}
    (h : Foot m z s) (hm : 0x200 ||| m = m) :
    Foot m z { s with ctxs := v0 } :=
  ⟨h.1, fun c hc => by
    cases c <;> first | exact h.2 _ hc | exact Foot.no _ hm hc (by decide)⟩

theorem Foot.up_fab {m : Nat} {z s : State} {v0 : Fabric}
    (h : Foot m z s) (hm : 0x8000000 ||| m = m) :
    Foot m z { s with fab := v0 } :=
  ⟨h.1, fun c hc => by
    cases c <;> first | exact h.2 _ hc | exact Foot.no _ hm hc (by decide)⟩

theorem Foot.up_fab_field {m : Nat} {z s : State} {v0 : Fabric} {v1 : Field}
    (h : Foot m z s) (hm : 0x18000000 ||| m = m) :
    Foot m z { s with fab := v0, field := v1 } :=
  ⟨h.1, fun c hc => by
    cases c <;> first | exact h.2 _ hc | exact Foot.no _ hm hc (by decide)⟩

theorem Foot.up_fab_net {m : Nat} {z s : State} {v0 : Fabric} {v1 : Net}
    (h : Foot m z s) (hm : 0x48000000 ||| m = m) :
    Foot m z { s with fab := v0, net := v1 } :=
  ⟨h.1, fun c hc => by
    cases c <;> first | exact h.2 _ hc | exact Foot.no _ hm hc (by decide)⟩

theorem Foot.up_field {m : Nat} {z s : State} {v0 : Field}
    (h : Foot m z s) (hm : 0x10000000 ||| m = m) :
    Foot m z { s with field := v0 } :=
  ⟨h.1, fun c hc => by
    cases c <;> first | exact h.2 _ hc | exact Foot.no _ hm hc (by decide)⟩

theorem Foot.up_freeCtr {m : Nat} {z s : State} {v0 : Nat}
    (h : Foot m z s) (hm : 0x1 ||| m = m) :
    Foot m z { s with freeCtr := v0 } :=
  ⟨h.1, fun c hc => by
    cases c <;> first | exact h.2 _ hc | exact Foot.no _ hm hc (by decide)⟩

theorem Foot.up_grouping {m : Nat} {z s : State} {v0 : Byte}
    (h : Foot m z s) (hm : 0x1000000 ||| m = m) :
    Foot m z { s with grouping := v0 } :=
  ⟨h.1, fun c hc => by
    cases c <;> first | exact h.2 _ hc | exact Foot.no _ hm hc (by decide)⟩

theorem Foot.up_ident {m : Nat} {z s : State} {v0 : Identity}
    (h : Foot m z s) (hm : 0x400000000 ||| m = m) :
    Foot m z { s with ident := v0 } :=
  ⟨h.1, fun c hc => by
    cases c <;> first | exact h.2 _ hc | exact Foot.no _ hm hc (by decide)⟩

theorem Foot.up_lastYield {m : Nat} {z s : State} {v0 : Bytes}
    (h : Foot m z s) (hm : 0x1000 ||| m = m) :
    Foot m z { s with lastYield := v0 } :=
  ⟨h.1, fun c hc => by
    cases c <;> first | exact h.2 _ hc | exact Foot.no _ hm hc (by decide)⟩

theorem Foot.up_map {m : Nat} {z s : State} {v0 : SMap (Option TileId)}
    (h : Foot m z s) (hm : 0x8 ||| m = m) :
    Foot m z { s with map := v0 } :=
  ⟨h.1, fun c hc => by
    cases c <;> first | exact h.2 _ hc | exact Foot.no _ hm hc (by decide)⟩

theorem Foot.up_march {m : Nat} {z s : State} {v0 : March}
    (h : Foot m z s) (hm : 0x200000 ||| m = m) :
    Foot m z { s with march := v0 } :=
  ⟨h.1, fun c hc => by
    cases c <;> first | exact h.2 _ hc | exact Foot.no _ hm hc (by decide)⟩

theorem Foot.up_march_noc {m : Nat} {z s : State} {v0 : March} {v1 : Noc}
    (h : Foot m z s) (hm : 0xA00000 ||| m = m) :
    Foot m z { s with march := v0, noc := v1 } :=
  ⟨h.1, fun c hc => by
    cases c <;> first | exact h.2 _ hc | exact Foot.no _ hm hc (by decide)⟩

theorem Foot.up_many6 {m : Nat} {z s : State} {v0 : March} {v1 : Word} {v2 : Noc} {v3 : Fabric} {v4 : Field} {v5 : Observe}
    (h : Foot m z s) (hm : 0x818E00000 ||| m = m) :
    Foot m z { s with march := v0, xmCollisions := v1, noc := v2, fab := v3, field := v4, obs := v5 } :=
  ⟨h.1, fun c hc => by
    cases c <;> first | exact h.2 _ hc | exact Foot.no _ hm hc (by decide)⟩

theorem Foot.up_maxSpeed {m : Nat} {z s : State} {v0 : Byte}
    (h : Foot m z s) (hm : 0x2000000 ||| m = m) :
    Foot m z { s with maxSpeed := v0 } :=
  ⟨h.1, fun c hc => by
    cases c <;> first | exact h.2 _ hc | exact Foot.no _ hm hc (by decide)⟩

theorem Foot.up_mc {m : Nat} {z s : State} {v0 : Microcode}
    (h : Foot m z s) (hm : 0x400 ||| m = m) :
    Foot m z { s with mc := v0 } :=
  ⟨h.1, fun c hc => by
    cases c <;> first | exact h.2 _ hc | exact Foot.no _ hm hc (by decide)⟩

theorem Foot.up_mem {m : Nat} {z s : State} {v0 : SMap MemStatus}
    (h : Foot m z s) (hm : 0x100000 ||| m = m) :
    Foot m z { s with mem := v0 } :=
  ⟨h.1, fun c hc => by
    cases c <;> first | exact h.2 _ hc | exact Foot.no _ hm hc (by decide)⟩

theorem Foot.up_net {m : Nat} {z s : State} {v0 : Net}
    (h : Foot m z s) (hm : 0x40000000 ||| m = m) :
    Foot m z { s with net := v0 } :=
  ⟨h.1, fun c hc => by
    cases c <;> first | exact h.2 _ hc | exact Foot.no _ hm hc (by decide)⟩

theorem Foot.up_noc {m : Nat} {z s : State} {v0 : Noc}
    (h : Foot m z s) (hm : 0x800000 ||| m = m) :
    Foot m z { s with noc := v0 } :=
  ⟨h.1, fun c hc => by
    cases c <;> first | exact h.2 _ hc | exact Foot.no _ hm hc (by decide)⟩

theorem Foot.up_obs {m : Nat} {z s : State} {v0 : Observe}
    (h : Foot m z s) (hm : 0x800000000 ||| m = m) :
    Foot m z { s with obs := v0 } :=
  ⟨h.1, fun c hc => by
    cases c <;> first | exact h.2 _ hc | exact Foot.no _ hm hc (by decide)⟩

theorem Foot.up_pe {m : Nat} {z s : State} {v0 : SMap PE}
    (h : Foot m z s) (hm : 0x10 ||| m = m) :
    Foot m z { s with pe := v0 } :=
  ⟨h.1, fun c hc => by
    cases c <;> first | exact h.2 _ hc | exact Foot.no _ hm hc (by decide)⟩

theorem Foot.up_pe_peMem_peBad_peTag {m : Nat} {z s : State} {v0 : SMap PE} {v1 : SMap Byte} {v2 : SMap Bool} {v3 : SMap Nat}
    (h : Foot m z s) (hm : 0xF0 ||| m = m) :
    Foot m z { s with pe := v0, peMem := v1, peBad := v2, peTag := v3 } :=
  ⟨h.1, fun c hc => by
    cases c <;> first | exact h.2 _ hc | exact Foot.no _ hm hc (by decide)⟩

theorem Foot.up_pe_peTag {m : Nat} {z s : State} {v0 : SMap PE} {v1 : SMap Nat}
    (h : Foot m z s) (hm : 0x90 ||| m = m) :
    Foot m z { s with pe := v0, peTag := v1 } :=
  ⟨h.1, fun c hc => by
    cases c <;> first | exact h.2 _ hc | exact Foot.no _ hm hc (by decide)⟩

theorem Foot.up_peBad {m : Nat} {z s : State} {v0 : SMap Bool}
    (h : Foot m z s) (hm : 0x40 ||| m = m) :
    Foot m z { s with peBad := v0 } :=
  ⟨h.1, fun c hc => by
    cases c <;> first | exact h.2 _ hc | exact Foot.no _ hm hc (by decide)⟩

theorem Foot.up_peMem_peBad {m : Nat} {z s : State} {v0 : SMap Byte} {v1 : SMap Bool}
    (h : Foot m z s) (hm : 0x60 ||| m = m) :
    Foot m z { s with peMem := v0, peBad := v1 } :=
  ⟨h.1, fun c hc => by
    cases c <;> first | exact h.2 _ hc | exact Foot.no _ hm hc (by decide)⟩

theorem Foot.up_peTag {m : Nat} {z s : State} {v0 : SMap Nat}
    (h : Foot m z s) (hm : 0x80 ||| m = m) :
    Foot m z { s with peTag := v0 } :=
  ⟨h.1, fun c hc => by
    cases c <;> first | exact h.2 _ hc | exact Foot.no _ hm hc (by decide)⟩

theorem Foot.up_seqs {m : Nat} {z s : State} {v0 : SMap Sequencer}
    (h : Foot m z s) (hm : 0x100 ||| m = m) :
    Foot m z { s with seqs := v0 } :=
  ⟨h.1, fun c hc => by
    cases c <;> first | exact h.2 _ hc | exact Foot.no _ hm hc (by decide)⟩

theorem Foot.up_ses {m : Nat} {z s : State} {v0 : SMap Session}
    (h : Foot m z s) (hm : 0x20000000 ||| m = m) :
    Foot m z { s with ses := v0 } :=
  ⟨h.1, fun c hc => by
    cases c <;> first | exact h.2 _ hc | exact Foot.no _ hm hc (by decide)⟩

theorem Foot.up_sp_spBad {m : Nat} {z s : State} {v0 : SMap Byte} {v1 : SMap CellFault}
    (h : Foot m z s) (hm : 0xA000 ||| m = m) :
    Foot m z { s with sp := v0, spBad := v1 } :=
  ⟨h.1, fun c hc => by
    cases c <;> first | exact h.2 _ hc | exact Foot.no _ hm hc (by decide)⟩

theorem Foot.up_sp_spBad_spFill {m : Nat} {z s : State} {v0 : SMap Byte} {v1 : SMap CellFault} {v2 : SMap Nat}
    (h : Foot m z s) (hm : 0x2A000 ||| m = m) :
    Foot m z { s with sp := v0, spBad := v1, spFill := v2 } :=
  ⟨h.1, fun c hc => by
    cases c <;> first | exact h.2 _ hc | exact Foot.no _ hm hc (by decide)⟩

theorem Foot.up_sp_spFill {m : Nat} {z s : State} {v0 : SMap Byte} {v1 : SMap Nat}
    (h : Foot m z s) (hm : 0x22000 ||| m = m) :
    Foot m z { s with sp := v0, spFill := v1 } :=
  ⟨h.1, fun c hc => by
    cases c <;> first | exact h.2 _ hc | exact Foot.no _ hm hc (by decide)⟩

theorem Foot.up_start {m : Nat} {z s : State} {v0 : Starts}
    (h : Foot m z s) (hm : 0x200000000 ||| m = m) :
    Foot m z { s with start := v0 } :=
  ⟨h.1, fun c hc => by
    cases c <;> first | exact h.2 _ hc | exact Foot.no _ hm hc (by decide)⟩

theorem Foot.up_sup {m : Nat} {z s : State} {v0 : Supplies}
    (h : Foot m z s) (hm : 0x100000000 ||| m = m) :
    Foot m z { s with sup := v0 } :=
  ⟨h.1, fun c hc => by
    cases c <;> first | exact h.2 _ hc | exact Foot.no _ hm hc (by decide)⟩

theorem Foot.up_tenants {m : Nat} {z s : State} {v0 : SMap TenantSt}
    (h : Foot m z s) (hm : 0x800 ||| m = m) :
    Foot m z { s with tenants := v0 } :=
  ⟨h.1, fun c hc => by
    cases c <;> first | exact h.2 _ hc | exact Foot.no _ hm hc (by decide)⟩

theorem Foot.up_tiles {m : Nat} {z s : State} {v0 : SMap Tile}
    (h : Foot m z s) (hm : 0x4 ||| m = m) :
    Foot m z { s with tiles := v0 } :=
  ⟨h.1, fun c hc => by
    cases c <;> first | exact h.2 _ hc | exact Foot.no _ hm hc (by decide)⟩

theorem Foot.up_time {m : Nat} {z s : State} {v0 : DWord}
    (h : Foot m z s) (hm : 0x2 ||| m = m) :
    Foot m z { s with time := v0 } :=
  ⟨h.1, fun c hc => by
    cases c <;> first | exact h.2 _ hc | exact Foot.no _ hm hc (by decide)⟩

theorem Foot.up_time_fab {m : Nat} {z s : State} {v0 : DWord} {v1 : Fabric}
    (h : Foot m z s) (hm : 0x8000002 ||| m = m) :
    Foot m z { s with time := v0, fab := v1 } :=
  ⟨h.1, fun c hc => by
    cases c <;> first | exact h.2 _ hc | exact Foot.no _ hm hc (by decide)⟩

theorem Foot.up_many34 {m : Nat} {z s : State} {v0 : DWord} {v1 : SMap Tile} {v2 : SMap PE} {v3 : SMap Byte} {v4 : SMap Bool} {v5 : SMap Nat} {v6 : SMap Sequencer} {v7 : SMap TrapCtx} {v8 : Microcode} {v9 : SMap TenantSt} {v10 : Bytes} {v11 : SMap Byte} {v12 : SMap Byte} {v13 : SMap CellFault} {v14 : SMap CellFault} {v15 : SMap Nat} {v16 : SMap Nat} {v17 : Option (Nat × DWord)} {v18 : SMap MemStatus} {v19 : March} {v20 : Word} {v21 : Noc} {v22 : Byte} {v23 : Byte} {v24 : SMap Cam} {v25 : Fabric} {v26 : Field} {v27 : SMap Session} {v28 : Net} {v29 : Clocks} {v30 : Supplies} {v31 : Starts} {v32 : Identity} {v33 : Observe}
    (h : Foot m z s) (hm : 0xFFFFFFFF6 ||| m = m) :
    Foot m z { s with time := v0, tiles := v1, pe := v2, peMem := v3, peBad := v4, peTag := v5, seqs := v6, ctxs := v7, mc := v8, tenants := v9, lastYield := v10, sp := v11, xm := v12, spBad := v13, xmBad := v14, spFill := v15, xmFill := v16, xmFirst := v17, mem := v18, march := v19, xmCollisions := v20, noc := v21, grouping := v22, maxSpeed := v23, cams := v24, fab := v25, field := v26, ses := v27, net := v28, clk := v29, sup := v30, start := v31, ident := v32, obs := v33 } :=
  ⟨h.1, fun c hc => by
    cases c <;> first | exact h.2 _ hc | exact Foot.no _ hm hc (by decide)⟩

theorem Foot.up_time_xmFirst {m : Nat} {z s : State} {v0 : DWord} {v1 : Option (Nat × DWord)}
    (h : Foot m z s) (hm : 0x80002 ||| m = m) :
    Foot m z { s with time := v0, xmFirst := v1 } :=
  ⟨h.1, fun c hc => by
    cases c <;> first | exact h.2 _ hc | exact Foot.no _ hm hc (by decide)⟩

theorem Foot.up_xm_xmBad {m : Nat} {z s : State} {v0 : SMap Byte} {v1 : SMap CellFault}
    (h : Foot m z s) (hm : 0x14000 ||| m = m) :
    Foot m z { s with xm := v0, xmBad := v1 } :=
  ⟨h.1, fun c hc => by
    cases c <;> first | exact h.2 _ hc | exact Foot.no _ hm hc (by decide)⟩

theorem Foot.up_xm_xmFill {m : Nat} {z s : State} {v0 : SMap Byte} {v1 : SMap Nat}
    (h : Foot m z s) (hm : 0x44000 ||| m = m) :
    Foot m z { s with xm := v0, xmFill := v1 } :=
  ⟨h.1, fun c hc => by
    cases c <;> first | exact h.2 _ hc | exact Foot.no _ hm hc (by decide)⟩

theorem Foot.up_xmFirst {m : Nat} {z s : State} {v0 : Option (Nat × DWord)}
    (h : Foot m z s) (hm : 0x80000 ||| m = m) :
    Foot m z { s with xmFirst := v0 } :=
  ⟨h.1, fun c hc => by
    cases c <;> first | exact h.2 _ hc | exact Foot.no _ hm hc (by decide)⟩

theorem Foot.up_xmFirst_xmCollisions {m : Nat} {z s : State} {v0 : Option (Nat × DWord)} {v1 : Word}
    (h : Foot m z s) (hm : 0x480000 ||| m = m) :
    Foot m z { s with xmFirst := v0, xmCollisions := v1 } :=
  ⟨h.1, fun c hc => by
    cases c <;> first | exact h.2 _ hc | exact Foot.no _ hm hc (by decide)⟩

theorem Foot.ite {m : Nat} {c : Prop} [Decidable c] {z a b : State} (h : Foot m z a) (g : Foot m z b) :
    Foot m z (if c then a else b) := by
  split <;> assumption

theorem Foot.foldl {m : Nat} {α : Type} {z s : State} {f : State → α → State} {l : List α} (h : Foot m z s)
    (hf : ∀ u a, Foot m z u → Foot m z (f u a)) : Foot m z (l.foldl f s) := by
  induction l generalizing s with
  | nil => exact h
  | cons a r ih => exact ih (hf s a h)

theorem Foot.fold1 {m : Nat} {α β : Type} {z : State} {a : State × β} {f : State × β → α → State × β} {l : List α}
    (h : Foot m z a.1) (hf : ∀ u x, Foot m z u.1 → Foot m z (f u x).1) : Foot m z (l.foldl f a).1 := by
  induction l generalizing a with
  | nil => exact h
  | cons x r ih => exact ih (hf a x h)

theorem Foot.fold2 {m : Nat} {α β : Type} {z : State} {a : β × State} {f : β × State → α → β × State} {l : List α}
    (h : Foot m z a.2) (hf : ∀ u x, Foot m z u.2 → Foot m z (f u x).2) : Foot m z (l.foldl f a).2 := by
  induction l generalizing a with
  | nil => exact h
  | cons x r ih => exact ih (hf a x h)

end Sys2Proof.Machine
end

