-- ==== Sys2Proof/Laws/FootOps.lean ====
section
/-! SUPPORT. Which components of the state each operation of Machine/Ops.lean can change. -/

set_option linter.unusedTactic false
set_option linter.unusedVariables false
set_option linter.unreachableTactic false

namespace Sys2Proof.Machine

theorem setTile_foot {m : Nat} {z : State} (s : State) (p : Nat) (v : Tile) (hm : 0x4 ||| m = m) (h0 : Foot m z s) :
    Foot m z (setTile s p v) := by
  unfold setTile
  try dsimp only
  repeat' (first | with_reducible assumption | exact Foot.sub (by decide) hm | with_reducible apply Foot.ite | (with_reducible refine Foot.foldl ?_ (fun _ _ _ => ?_)) | (fail_if_no_progress (with_reducible refine Foot.up_tiles ?_ (Foot.sub (by decide) hm))) | split)

theorem modTile_foot {m : Nat} {z : State} (s : State) (p : Nat) (f : Tile → Tile) (hm : 0x4 ||| m = m) (h0 : Foot m z s) :
    Foot m z (modTile s p f) := by
  unfold modTile
  try dsimp only
  repeat' (first | with_reducible assumption | exact Foot.sub (by decide) hm | with_reducible apply setTile_foot | with_reducible apply Foot.ite | (with_reducible refine Foot.foldl ?_ (fun _ _ _ => ?_)) | split)

theorem setSqr_foot {m : Nat} {z : State} (s : State) (q : Nat) (v : Sequencer) (hm : 0x100 ||| m = m) (h0 : Foot m z s) :
    Foot m z (setSqr s q v) := by
  unfold setSqr
  try dsimp only
  repeat' (first | with_reducible assumption | exact Foot.sub (by decide) hm | with_reducible apply Foot.ite | (with_reducible refine Foot.foldl ?_ (fun _ _ _ => ?_)) | (fail_if_no_progress (with_reducible refine Foot.up_seqs ?_ (Foot.sub (by decide) hm))) | split)

theorem modSqr_foot {m : Nat} {z : State} (s : State) (q : Nat) (f : Sequencer → Sequencer) (hm : 0x100 ||| m = m) (h0 : Foot m z s) :
    Foot m z (modSqr s q f) := by
  unfold modSqr
  try dsimp only
  repeat' (first | with_reducible assumption | exact Foot.sub (by decide) hm | with_reducible apply setSqr_foot | with_reducible apply Foot.ite | (with_reducible refine Foot.foldl ?_ (fun _ _ _ => ?_)) | split)

theorem setCtx_foot {m : Nat} {z : State} (s : State) (k : Nat) (v : TrapCtx) (hm : 0x200 ||| m = m) (h0 : Foot m z s) :
    Foot m z (setCtx s k v) := by
  unfold setCtx
  try dsimp only
  repeat' (first | with_reducible assumption | exact Foot.sub (by decide) hm | with_reducible apply Foot.ite | (with_reducible refine Foot.foldl ?_ (fun _ _ _ => ?_)) | (fail_if_no_progress (with_reducible refine Foot.up_ctxs ?_ (Foot.sub (by decide) hm))) | split)

theorem setTen_foot {m : Nat} {z : State} (s : State) (t : Tenant) (v : TenantSt) (hm : 0x800 ||| m = m) (h0 : Foot m z s) :
    Foot m z (setTen s t v) := by
  unfold setTen
  try dsimp only
  repeat' (first | with_reducible assumption | exact Foot.sub (by decide) hm | with_reducible apply Foot.ite | (with_reducible refine Foot.foldl ?_ (fun _ _ _ => ?_)) | (fail_if_no_progress (with_reducible refine Foot.up_tenants ?_ (Foot.sub (by decide) hm))) | split)

theorem modTen_foot {m : Nat} {z : State} (s : State) (t : Tenant) (f : TenantSt → TenantSt) (hm : 0x800 ||| m = m) (h0 : Foot m z s) :
    Foot m z (modTen s t f) := by
  unfold modTen
  try dsimp only
  repeat' (first | with_reducible assumption | exact Foot.sub (by decide) hm | with_reducible apply setTen_foot | with_reducible apply Foot.ite | (with_reducible refine Foot.foldl ?_ (fun _ _ _ => ?_)) | split)

theorem setSes_foot {m : Nat} {z : State} (s : State) (k : SesId) (v : Session) (hm : 0x20000000 ||| m = m) (h0 : Foot m z s) :
    Foot m z (setSes s k v) := by
  unfold setSes
  try dsimp only
  repeat' (first | with_reducible assumption | exact Foot.sub (by decide) hm | with_reducible apply Foot.ite | (with_reducible refine Foot.foldl ?_ (fun _ _ _ => ?_)) | (fail_if_no_progress (with_reducible refine Foot.up_ses ?_ (Foot.sub (by decide) hm))) | split)

theorem modSes_foot {m : Nat} {z : State} (s : State) (k : SesId) (f : Session → Session) (hm : 0x20000000 ||| m = m) (h0 : Foot m z s) :
    Foot m z (modSes s k f) := by
  unfold modSes
  try dsimp only
  repeat' (first | with_reducible assumption | exact Foot.sub (by decide) hm | with_reducible apply setSes_foot | with_reducible apply Foot.ite | (with_reducible refine Foot.foldl ?_ (fun _ _ _ => ?_)) | split)

theorem setCam_foot {m : Nat} {z : State} (s : State) (c : CxpId) (v : Cam) (hm : 0x4000000 ||| m = m) (h0 : Foot m z s) :
    Foot m z (setCam s c v) := by
  unfold setCam
  try dsimp only
  repeat' (first | with_reducible assumption | exact Foot.sub (by decide) hm | with_reducible apply Foot.ite | (with_reducible refine Foot.foldl ?_ (fun _ _ _ => ?_)) | (fail_if_no_progress (with_reducible refine Foot.up_cams ?_ (Foot.sub (by decide) hm))) | split)

theorem modCam_foot {m : Nat} {z : State} (s : State) (c : CxpId) (f : Cam → Cam) (hm : 0x4000000 ||| m = m) (h0 : Foot m z s) :
    Foot m z (modCam s c f) := by
  unfold modCam
  try dsimp only
  repeat' (first | with_reducible assumption | exact Foot.sub (by decide) hm | with_reducible apply setCam_foot | with_reducible apply Foot.ite | (with_reducible refine Foot.foldl ?_ (fun _ _ _ => ?_)) | split)

theorem setFch_foot {m : Nat} {z : State} (s : State) (n : Nat) (v : Fc) (hm : 0x10000000 ||| m = m) (h0 : Foot m z s) :
    Foot m z (setFch s n v) := by
  unfold setFch
  try dsimp only
  repeat' (first | with_reducible assumption | exact Foot.sub (by decide) hm | with_reducible apply Foot.ite | (with_reducible refine Foot.foldl ?_ (fun _ _ _ => ?_)) | (fail_if_no_progress (with_reducible refine Foot.up_field ?_ (Foot.sub (by decide) hm))) | split)

theorem modFch_foot {m : Nat} {z : State} (s : State) (n : Nat) (f : Fc → Fc) (hm : 0x10000000 ||| m = m) (h0 : Foot m z s) :
    Foot m z (modFch s n f) := by
  unfold modFch
  try dsimp only
  repeat' (first | with_reducible assumption | exact Foot.sub (by decide) hm | with_reducible apply setFch_foot | with_reducible apply Foot.ite | (with_reducible refine Foot.foldl ?_ (fun _ _ _ => ?_)) | split)

theorem setGrp_foot {m : Nat} {z : State} (s : State) (g : Nat) (v : Group) (hm : 0x10000000 ||| m = m) (h0 : Foot m z s) :
    Foot m z (setGrp s g v) := by
  unfold setGrp
  try dsimp only
  repeat' (first | with_reducible assumption | exact Foot.sub (by decide) hm | with_reducible apply Foot.ite | (with_reducible refine Foot.foldl ?_ (fun _ _ _ => ?_)) | (fail_if_no_progress (with_reducible refine Foot.up_field ?_ (Foot.sub (by decide) hm))) | split)

theorem modGrp_foot {m : Nat} {z : State} (s : State) (g : Nat) (f : Group → Group) (hm : 0x10000000 ||| m = m) (h0 : Foot m z s) :
    Foot m z (modGrp s g f) := by
  unfold modGrp
  try dsimp only
  repeat' (first | with_reducible assumption | exact Foot.sub (by decide) hm | with_reducible apply setGrp_foot | with_reducible apply Foot.ite | (with_reducible refine Foot.foldl ?_ (fun _ _ _ => ?_)) | split)

theorem setNi_foot {m : Nat} {z : State} (s : State) (n : Nat) (v : Ni) (hm : 0x800000 ||| m = m) (h0 : Foot m z s) :
    Foot m z (setNi s n v) := by
  unfold setNi
  try dsimp only
  repeat' (first | with_reducible assumption | exact Foot.sub (by decide) hm | with_reducible apply Foot.ite | (with_reducible refine Foot.foldl ?_ (fun _ _ _ => ?_)) | (fail_if_no_progress (with_reducible refine Foot.up_noc ?_ (Foot.sub (by decide) hm))) | split)

theorem modNi_foot {m : Nat} {z : State} (s : State) (n : Nat) (f : Ni → Ni) (hm : 0x800000 ||| m = m) (h0 : Foot m z s) :
    Foot m z (modNi s n f) := by
  unfold modNi
  try dsimp only
  repeat' (first | with_reducible assumption | exact Foot.sub (by decide) hm | with_reducible apply setNi_foot | with_reducible apply Foot.ite | (with_reducible refine Foot.foldl ?_ (fun _ _ _ => ?_)) | split)

theorem setRtr_foot {m : Nat} {z : State} (s : State) (r : Nat) (v : Router) (hm : 0x800000 ||| m = m) (h0 : Foot m z s) :
    Foot m z (setRtr s r v) := by
  unfold setRtr
  try dsimp only
  repeat' (first | with_reducible assumption | exact Foot.sub (by decide) hm | with_reducible apply Foot.ite | (with_reducible refine Foot.foldl ?_ (fun _ _ _ => ?_)) | (fail_if_no_progress (with_reducible refine Foot.up_noc ?_ (Foot.sub (by decide) hm))) | split)

theorem modRtr_foot {m : Nat} {z : State} (s : State) (r : Nat) (f : Router → Router) (hm : 0x800000 ||| m = m) (h0 : Foot m z s) :
    Foot m z (modRtr s r f) := by
  unfold modRtr
  try dsimp only
  repeat' (first | with_reducible assumption | exact Foot.sub (by decide) hm | with_reducible apply setRtr_foot | with_reducible apply Foot.ite | (with_reducible refine Foot.foldl ?_ (fun _ _ _ => ?_)) | split)

theorem setEsc_foot {m : Nat} {z : State} (s : State) (e : CtrlId) (v : Esc) (hm : 0x40000000 ||| m = m) (h0 : Foot m z s) :
    Foot m z (setEsc s e v) := by
  unfold setEsc
  try dsimp only
  repeat' (first | with_reducible assumption | exact Foot.sub (by decide) hm | with_reducible apply Foot.ite | (with_reducible refine Foot.foldl ?_ (fun _ _ _ => ?_)) | (fail_if_no_progress (with_reducible refine Foot.up_net ?_ (Foot.sub (by decide) hm))) | split)

theorem modEsc_foot {m : Nat} {z : State} (s : State) (e : CtrlId) (f : Esc → Esc) (hm : 0x40000000 ||| m = m) (h0 : Foot m z s) :
    Foot m z (modEsc s e f) := by
  unfold modEsc
  try dsimp only
  repeat' (first | with_reducible assumption | exact Foot.sub (by decide) hm | with_reducible apply setEsc_foot | with_reducible apply Foot.ite | (with_reducible refine Foot.foldl ?_ (fun _ _ _ => ?_)) | split)

theorem setCan_foot {m : Nat} {z : State} (s : State) (c : CtrlId) (v : CanCtl) (hm : 0x40000000 ||| m = m) (h0 : Foot m z s) :
    Foot m z (setCan s c v) := by
  unfold setCan
  try dsimp only
  repeat' (first | with_reducible assumption | exact Foot.sub (by decide) hm | with_reducible apply Foot.ite | (with_reducible refine Foot.foldl ?_ (fun _ _ _ => ?_)) | (fail_if_no_progress (with_reducible refine Foot.up_net ?_ (Foot.sub (by decide) hm))) | split)

theorem modCan_foot {m : Nat} {z : State} (s : State) (c : CtrlId) (f : CanCtl → CanCtl) (hm : 0x40000000 ||| m = m) (h0 : Foot m z s) :
    Foot m z (modCan s c f) := by
  unfold modCan
  try dsimp only
  repeat' (first | with_reducible assumption | exact Foot.sub (by decide) hm | with_reducible apply setCan_foot | with_reducible apply Foot.ite | (with_reducible refine Foot.foldl ?_ (fun _ _ _ => ?_)) | split)

theorem setMemSt_foot {m : Nat} {z : State} (s : State) (b : Nat) (v : MemStatus) (hm : 0x100000 ||| m = m) (h0 : Foot m z s) :
    Foot m z (setMemSt s b v) := by
  unfold setMemSt
  try dsimp only
  repeat' (first | with_reducible assumption | exact Foot.sub (by decide) hm | with_reducible apply Foot.ite | (with_reducible refine Foot.foldl ?_ (fun _ _ _ => ?_)) | (fail_if_no_progress (with_reducible refine Foot.up_mem ?_ (Foot.sub (by decide) hm))) | split)

theorem modMemSt_foot {m : Nat} {z : State} (s : State) (b : Nat) (f : MemStatus → MemStatus) (hm : 0x100000 ||| m = m) (h0 : Foot m z s) :
    Foot m z (modMemSt s b f) := by
  unfold modMemSt
  try dsimp only
  repeat' (first | with_reducible assumption | exact Foot.sub (by decide) hm | with_reducible apply setMemSt_foot | with_reducible apply Foot.ite | (with_reducible refine Foot.foldl ?_ (fun _ _ _ => ?_)) | split)

theorem bump_foot {m : Nat} {z : State} (s : State) (hm : 0x1 ||| m = m) (h0 : Foot m z s) :
    Foot m z (bump s) := by
  unfold bump
  try dsimp only
  repeat' (first | with_reducible assumption | exact Foot.sub (by decide) hm | with_reducible apply Foot.ite | (with_reducible refine Foot.foldl ?_ (fun _ _ _ => ?_)) | (fail_if_no_progress (with_reducible refine Foot.up_freeCtr ?_ (Foot.sub (by decide) hm))) | split)

end Sys2Proof.Machine
end

