-- ==== Sys2Proof/Laws/FootOperands.lean ====
section
/-! SUPPORT. Which components of the state each operation of Machine/Operands.lean can change. -/

set_option linter.unusedTactic false
set_option linter.unusedVariables false
set_option linter.unreachableTactic false

namespace Sys2Proof.Machine

theorem setPhys_foot {m : Nat} {z : State} (s : State) (n : Nat) (p : Option TileId) (hm : 0x8 ||| m = m) (h0 : Foot m z s) :
    Foot m z (setPhys s n p) := Foot.up_map h0 hm

theorem setPe_foot {m : Nat} {z : State} (s : State) (k : Nat) (v : PE) (hm : 0x10 ||| m = m) (h0 : Foot m z s) :
    Foot m z (setPe s k v) := by
  unfold setPe
  try dsimp only
  repeat' (first | with_reducible assumption | exact Foot.sub (by decide) hm | with_reducible apply Foot.ite | (with_reducible refine Foot.foldl ?_ (fun _ _ _ => ?_)) | (fail_if_no_progress (with_reducible refine Foot.up_pe ?_ (Foot.sub (by decide) hm))) | split)

theorem scramble_foot {m : Nat} {z : State} (s : State) (ps : List TileId) (r : Nat) (hm : 0x80 ||| m = m) (h0 : Foot m z s) :
    Foot m z (scramble s ps r) := by
  unfold scramble
  try dsimp only
  repeat' (first | with_reducible assumption | exact Foot.sub (by decide) hm | with_reducible apply Foot.ite | (with_reducible refine Foot.foldl ?_ (fun _ _ _ => ?_)) | (fail_if_no_progress (with_reducible refine Foot.up_peTag ?_ (Foot.sub (by decide) hm))) | split)

theorem setPeBit_foot {m : Nat} {z : State} (s : State) (k a : Nat) (v : Bool) (hm : 0x70 ||| m = m) (h0 : Foot m z s) :
    Foot m z (setPeBit s k a v) := by
  unfold setPeBit
  try dsimp only
  repeat' (first | with_reducible assumption | exact Foot.sub (by decide) hm | with_reducible apply setPe_foot | with_reducible apply Foot.ite | (with_reducible refine Foot.foldl ?_ (fun _ _ _ => ?_)) | (fail_if_no_progress (with_reducible refine Foot.up_peMem_peBad ?_ (Foot.sub (by decide) hm))) | split)

theorem latchBad_foot {m : Nat} {z : State} (s : State) (read : Nat → Nat → Bool) (hm : 0x10 ||| m = m) (h0 : Foot m z s) :
    Foot m z (latchBad s read) := by
  unfold latchBad
  try dsimp only
  repeat' (first | with_reducible assumption | exact Foot.sub (by decide) hm | with_reducible apply setPe_foot | with_reducible apply Foot.ite | (with_reducible refine Foot.foldl ?_ (fun _ _ _ => ?_)) | split)

theorem setPeX_foot {m : Nat} {z : State} (s : State) (k : Nat) (v : Bool) (hm : 0x10 ||| m = m) (h0 : Foot m z s) :
    Foot m z (setPeX s k v) := by
  unfold setPeX
  try dsimp only
  repeat' (first | with_reducible assumption | exact Foot.sub (by decide) hm | with_reducible apply setPe_foot | with_reducible apply Foot.ite | (with_reducible refine Foot.foldl ?_ (fun _ _ _ => ?_)) | split)

theorem writeField_foot {m : Nat} {z : State} (s : State) (g : Nat) (e : Elem) (b w v : Nat) (hm : 0x70 ||| m = m) (h0 : Foot m z s) :
    Foot m z (writeField s g e b w v) := by
  unfold writeField
  try dsimp only
  repeat' (first | with_reducible assumption | exact Foot.sub (by decide) hm | with_reducible apply setPeBit_foot | with_reducible apply Foot.ite | (with_reducible refine Foot.foldl ?_ (fun _ _ _ => ?_)) | split)

theorem setSreg_foot {m : Nat} {z : State} (s : State) (q i : Nat) (v : Word) (hm : 0x100 ||| m = m) (h0 : Foot m z s) :
    Foot m z (setSreg s q i v) := by
  unfold setSreg
  try dsimp only
  repeat' (first | with_reducible assumption | exact Foot.sub (by decide) hm | with_reducible apply modSqr_foot | with_reducible apply Foot.ite | (with_reducible refine Foot.foldl ?_ (fun _ _ _ => ?_)) | split)

end Sys2Proof.Machine
end

