-- ==== Sys2Proof/Laws/FootFlags.lean ====
section
/-! SUPPORT. Which components of the state each operation of Machine/Flags.lean can change. -/

set_option linter.unusedTactic false
set_option linter.unusedVariables false
set_option linter.unreachableTactic false

namespace Sys2Proof.Machine

theorem setSticky_foot {m : Nat} {z : State} (s : State) (k : Nat) (m0 : Byte) (hm : 0x70 ||| m = m) (h0 : Foot m z s) :
    Foot m z (setSticky s k m0) := by
  unfold setSticky
  try dsimp only
  repeat' (first | with_reducible assumption | exact Foot.sub (by decide) hm | with_reducible apply setPeBit_foot | with_reducible apply Foot.ite | (with_reducible refine Foot.foldl ?_ (fun _ _ _ => ?_)) | split)

theorem clearSticky_foot {m : Nat} {z : State} (s : State) (k : Nat) (m0 : Byte) (hm : 0x70 ||| m = m) (h0 : Foot m z s) :
    Foot m z (clearSticky s k m0) := by
  unfold clearSticky
  try dsimp only
  repeat' (first | with_reducible assumption | exact Foot.sub (by decide) hm | with_reducible apply setPeBit_foot | with_reducible apply Foot.ite | (with_reducible refine Foot.foldl ?_ (fun _ _ _ => ?_)) | split)

end Sys2Proof.Machine
end

