-- ==== Sys2Proof/Laws/FootEvents.lean ====
section
/-! SUPPORT. Which components of the state each operation of Machine/Events.lean can change. -/

set_option linter.unusedTactic false
set_option linter.unusedVariables false
set_option linter.unreachableTactic false

namespace Sys2Proof.Machine

theorem markDue_foot {m : Nat} {z : State} (s : State) (src : Nat) (code : Half) (hm : 0x800000000 ||| m = m) (h0 : Foot m z s) :
    Foot m z (markDue s src code) := by
  unfold markDue
  try dsimp only
  repeat' (first | with_reducible assumption | exact Foot.sub (by decide) hm | with_reducible apply Foot.ite | (with_reducible refine Foot.foldl ?_ (fun _ _ _ => ?_)) | (fail_if_no_progress (with_reducible refine Foot.up_obs ?_ (Foot.sub (by decide) hm))) | split)

theorem tideFault_foot {m : Nat} {z : State} (s : State) (bit : Nat) (code : Half) (hm : 0x800000000 ||| m = m) (h0 : Foot m z s) :
    Foot m z (tideFault s bit code) := by
  unfold tideFault
  try dsimp only
  repeat' (first | with_reducible assumption | exact Foot.sub (by decide) hm | with_reducible apply markDue_foot | with_reducible apply Foot.ite | (with_reducible refine Foot.foldl ?_ (fun _ _ _ => ?_)) | split)

theorem logEvent_foot {m : Nat} {z : State} (s : State) (code : Half) (sev : BitVec 2) (ts : List Tenant) (inst : Nat) (a : Nat) (b : Bytes) (hm : 0x800000000 ||| m = m) (h0 : Foot m z s) :
    Foot m z (logEvent s code sev ts inst a b) := by
  unfold logEvent
  try dsimp only
  repeat' (first | with_reducible assumption | exact Foot.sub (by decide) hm | with_reducible apply Foot.ite | (with_reducible refine Foot.foldl ?_ (fun _ _ _ => ?_)) | (fail_if_no_progress (with_reducible refine Foot.up_obs ?_ (Foot.sub (by decide) hm))) | split)

theorem emcyTo_foot {m : Nat} {z : State} (s : State) (k : SesId) (code : Half) (detail : Bytes) (hm : 0x20000800 ||| m = m) (h0 : Foot m z s) :
    Foot m z (emcyTo s k code detail) := by
  unfold emcyTo
  try dsimp only
  repeat' (first | with_reducible assumption | exact Foot.sub (by decide) hm | with_reducible apply modTen_foot | with_reducible apply setSes_foot | with_reducible apply Foot.ite | (with_reducible refine Foot.foldl ?_ (fun _ _ _ => ?_)) | split)

theorem emergency_foot {m : Nat} {z : State} (s : State) (ts : List Tenant) (code : Half) (detail : Bytes) (hm : 0x20000800 ||| m = m) (h0 : Foot m z s) :
    Foot m z (emergency s ts code detail) := by
  unfold emergency
  try dsimp only
  repeat' (first | with_reducible assumption | exact Foot.sub (by decide) hm | with_reducible apply emcyTo_foot | with_reducible apply Foot.ite | (with_reducible refine Foot.foldl ?_ (fun _ _ _ => ?_)) | split)

theorem errorReset_foot {m : Nat} {z : State} (s0 s : State) (hm : 0x20000800 ||| m = m) (h0 : Foot m z s0) (h1 : Foot m z s) :
    Foot m z (errorReset s0 s) := by
  unfold errorReset
  try dsimp only
  repeat' (first | with_reducible assumption | exact Foot.sub (by decide) hm | with_reducible apply emergency_foot | with_reducible apply Foot.ite | (with_reducible refine Foot.foldl ?_ (fun _ _ _ => ?_)) | split)

theorem partFault_foot {m : Nat} {z : State} (s : State) (ts : List Tenant) (kind num noSpare : Nat) (hm : 0x820000800 ||| m = m) (h0 : Foot m z s) :
    Foot m z (partFault s ts kind num noSpare) := by
  unfold partFault
  try dsimp only
  repeat' (first | with_reducible assumption | exact Foot.sub (by decide) hm | with_reducible apply tideFault_foot | with_reducible apply emergency_foot | with_reducible apply Foot.ite | (with_reducible refine Foot.foldl ?_ (fun _ _ _ => ?_)) | split)

end Sys2Proof.Machine
end

