-- ==== Sys2Proof/Laws/FootMem.lean ====
section
/-! SUPPORT. Which components of the state each operation of Machine/Mem.lean can change. -/

set_option linter.unusedTactic false
set_option linter.unusedVariables false
set_option linter.unreachableTactic false

namespace Sys2Proof.Machine

theorem yieldWindow_foot {m : Nat} {z : State} (s : State) (xm : Bool) (a n : Nat) (hm : 0x200000 ||| m = m) (h0 : Foot m z s) :
    Foot m z (yieldWindow s xm a n) := by
  unfold yieldWindow
  try dsimp only
  repeat' (first | with_reducible assumption | exact Foot.sub (by decide) hm | with_reducible apply Foot.ite | (with_reducible refine Foot.foldl ?_ (fun _ _ _ => ?_)) | (fail_if_no_progress (with_reducible refine Foot.up_march ?_ (Foot.sub (by decide) hm))) | split)

theorem spWrite_foot {m : Nat} {z : State} (s : State) (a : Nat) (d : Bytes) (hm : 0x20A000 ||| m = m) (h0 : Foot m z s) :
    Foot m z (spWrite s a d) := by
  unfold spWrite
  try dsimp only
  repeat' (first | with_reducible assumption | exact Foot.sub (by decide) hm | with_reducible apply yieldWindow_foot | with_reducible apply Foot.ite | (with_reducible refine Foot.foldl ?_ (fun _ _ _ => ?_)) | (fail_if_no_progress (with_reducible refine Foot.up_sp_spBad ?_ (Foot.sub (by decide) hm))) | split)

theorem setSpByte_foot {m : Nat} {z : State} (s : State) (a : Nat) (v : Byte) (hm : 0x20A000 ||| m = m) (h0 : Foot m z s) :
    Foot m z (setSpByte s a v) := by
  unfold setSpByte
  try dsimp only
  repeat' (first | with_reducible assumption | exact Foot.sub (by decide) hm | with_reducible apply spWrite_foot | with_reducible apply Foot.ite | (with_reducible refine Foot.foldl ?_ (fun _ _ _ => ?_)) | split)

theorem extWrite_foot {m : Nat} {z : State} (s : State) (l : List Extent) (off : Nat) (d : Bytes) (hm : 0x20A000 ||| m = m)
    (h0 : Foot m z s) : Foot m z (extWrite s l off d) := by
  induction d generalizing s off with
  | nil => exact h0
  | cons b r ih =>
    unfold extWrite
    apply ih
    split
    · exact setSpByte_foot _ _ _ hm h0
    · exact h0

theorem refill_foot {m : Nat} {z : State} (s : State) (t : Tenant) (roles : List Nat) (hm : 0x22001 ||| m = m) (h0 : Foot m z s) :
    Foot m z (refill s t roles) := by
  unfold refill
  try dsimp only
  repeat' (first | with_reducible assumption | exact Foot.sub (by decide) hm | with_reducible apply bump_foot | with_reducible apply Foot.ite | (with_reducible refine Foot.foldl ?_ (fun _ _ _ => ?_)) | (fail_if_no_progress (with_reducible refine Foot.up_sp_spFill ?_ (Foot.sub (by decide) hm))) | split)

theorem readFailed_foot {m : Nat} {z : State} (s : State) (xm : Bool) (a : Nat) (role : Byte) (hm : 0x800100000 ||| m = m) (h0 : Foot m z s) :
    Foot m z (readFailed s xm a role) := by
  unfold readFailed
  try dsimp only
  repeat' (first | with_reducible assumption | exact Foot.sub (by decide) hm | with_reducible apply modMemSt_foot | with_reducible apply logEvent_foot | with_reducible apply Foot.ite | (with_reducible refine Foot.foldl ?_ (fun _ _ _ => ?_)) | split)

theorem repaired_foot {m : Nat} {z : State} (s : State) (xm : Bool) (a : Nat) (hm : 0x100000 ||| m = m) (h0 : Foot m z s) :
    Foot m z (repaired s xm a) := by
  unfold repaired
  try dsimp only
  repeat' (first | with_reducible assumption | exact Foot.sub (by decide) hm | with_reducible apply modMemSt_foot | with_reducible apply Foot.ite | (with_reducible refine Foot.foldl ?_ (fun _ _ _ => ?_)) | split)

theorem readCopied_foot {m : Nat} {z : State} (s : State) (a m0 role roleM : Nat) (hm : 0x80030A000 ||| m = m) (h0 : Foot m z s) :
    Foot m z (readCopied s a m0 role roleM).1 := by
  unfold readCopied
  try dsimp only
  repeat' (first | with_reducible assumption | exact Foot.sub (by decide) hm | with_reducible apply spWrite_foot | with_reducible apply readFailed_foot | with_reducible apply repaired_foot | with_reducible apply Foot.ite | (with_reducible refine Foot.foldl ?_ (fun _ _ _ => ?_)) | split)

theorem fetchProg_foot {m : Nat} {z : State} (s : State) (r : OwnRec) (i : Nat) (hm : 0x80030A000 ||| m = m) (h0 : Foot m z s) :
    Foot m z (fetchProg s r i).1 := by
  unfold fetchProg
  try dsimp only
  repeat' (first | with_reducible assumption | exact Foot.sub (by decide) hm | with_reducible apply readCopied_foot | with_reducible apply Foot.ite | (with_reducible refine Foot.foldl ?_ (fun _ _ _ => ?_)) | split)

theorem readAreas_foot {m : Nat} {z : State} (s : State) (t : Tenant) (a b : Nat) (haveA haveB : Bool) (hm : 0x800100001 ||| m = m) (h0 : Foot m z s) :
    Foot m z (readAreas s t a b haveA haveB).1 := by
  unfold readAreas
  try dsimp only
  repeat' (first | with_reducible assumption | exact Foot.sub (by decide) hm | with_reducible apply bump_foot | with_reducible apply readFailed_foot | with_reducible apply Foot.ite | (with_reducible refine Foot.foldl ?_ (fun _ _ _ => ?_)) | split)

theorem xmWrite_foot {m : Nat} {z : State} (s : State) (a : Nat) (d : Bytes) (hm : 0x214000 ||| m = m) (h0 : Foot m z s) :
    Foot m z (xmWrite s a d) := by
  unfold xmWrite
  try dsimp only
  repeat' (first | with_reducible assumption | exact Foot.sub (by decide) hm | with_reducible apply yieldWindow_foot | with_reducible apply Foot.ite | (with_reducible refine Foot.foldl ?_ (fun _ _ _ => ?_)) | (fail_if_no_progress (with_reducible refine Foot.up_xm_xmBad ?_ (Foot.sub (by decide) hm))) | split)

theorem xmPut_foot {m : Nat} {z : State} (s : State) (a : Nat) (d : Bytes) (hm : 0x800214000 ||| m = m) (h0 : Foot m z s) :
    Foot m z (xmPut s a d) := by
  unfold xmPut
  try dsimp only
  repeat' (first | with_reducible assumption | exact Foot.sub (by decide) hm | with_reducible apply xmWrite_foot | with_reducible apply Foot.ite | (with_reducible refine Foot.foldl ?_ (fun _ _ _ => ?_)) | (fail_if_no_progress (with_reducible refine Foot.up_obs ?_ (Foot.sub (by decide) hm))) | split)

theorem setXmByte_foot {m : Nat} {z : State} (s : State) (a : Nat) (v : Byte) (hm : 0x214000 ||| m = m) (h0 : Foot m z s) :
    Foot m z (setXmByte s a v) := by
  unfold setXmByte
  try dsimp only
  repeat' (first | with_reducible assumption | exact Foot.sub (by decide) hm | with_reducible apply xmWrite_foot | with_reducible apply Foot.ite | (with_reducible refine Foot.foldl ?_ (fun _ _ _ => ?_)) | split)

theorem mirrorWrite_foot {m : Nat} {z : State} (s : State) (off : Nat) (d : Bytes) (hm : 0x214000 ||| m = m) (h0 : Foot m z s) :
    Foot m z (mirrorWrite s off d) := by
  unfold mirrorWrite
  try dsimp only
  repeat' (first | with_reducible assumption | exact Foot.sub (by decide) hm | with_reducible apply xmWrite_foot | with_reducible apply Foot.ite | (with_reducible refine Foot.foldl ?_ (fun _ _ _ => ?_)) | split)

theorem mirrorMend_foot {m : Nat} {z : State} (s : State) (off n : Nat) (hm : 0x800314000 ||| m = m) (h0 : Foot m z s) :
    Foot m z (mirrorMend s off n) := by
  unfold mirrorMend
  try dsimp only
  repeat' (first | with_reducible assumption | exact Foot.sub (by decide) hm | with_reducible apply readFailed_foot | with_reducible apply repaired_foot | with_reducible apply xmWrite_foot | with_reducible apply Foot.ite | (with_reducible refine Foot.foldl ?_ (fun _ _ _ => ?_)) | split)

theorem journalWrite_foot {m : Nat} {z : State} (s : State) (t : Tenant) (hm : 0x44001 ||| m = m) (h0 : Foot m z s) :
    Foot m z (journalWrite s t) := by
  unfold journalWrite
  try dsimp only
  repeat' (first | with_reducible assumption | exact Foot.sub (by decide) hm | with_reducible apply bump_foot | with_reducible apply Foot.ite | (with_reducible refine Foot.foldl ?_ (fun _ _ _ => ?_)) | (fail_if_no_progress (with_reducible refine Foot.up_xm_xmFill ?_ (Foot.sub (by decide) hm))) | split)

end Sys2Proof.Machine
end

