-- ==== Sys2Proof/Laws/FootFabBase.lean ====
section
/-! SUPPORT. Which components of the state each operation of Machine/FabBase.lean can change. -/

set_option linter.unusedTactic false
set_option linter.unusedVariables false
set_option linter.unreachableTactic false

namespace Sys2Proof.Machine

theorem setCell_foot {m : Nat} {z : State} (s : State) (r c : Nat) (v : Cell) (hm : 0x8000000 ||| m = m) (h0 : Foot m z s) :
    Foot m z (setCell s r c v) := by
  unfold setCell
  try dsimp only
  repeat' (first | with_reducible assumption | exact Foot.sub (by decide) hm | with_reducible apply Foot.ite | (with_reducible refine Foot.foldl ?_ (fun _ _ _ => ?_)) | (fail_if_no_progress (with_reducible refine Foot.up_fab ?_ (Foot.sub (by decide) hm))) | split)

theorem endEncErrors_foot {m : Nat} {z : State} (s : State) (hm : 0x10000000 ||| m = m) (h0 : Foot m z s) :
    Foot m z (endEncErrors s) := by
  unfold endEncErrors
  try dsimp only
  repeat' (first | with_reducible assumption | exact Foot.sub (by decide) hm | with_reducible apply modFch_foot | with_reducible apply Foot.ite | (with_reducible refine Foot.foldl ?_ (fun _ _ _ => ?_)) | split)

theorem nextFc_foot {m : Nat} {z : State} (s : State) (hm : 0x18000002 ||| m = m) (h0 : Foot m z s) :
    Foot m z (nextFc s) := by
  unfold nextFc
  try dsimp only
  repeat' (first | with_reducible assumption | exact Foot.sub (by decide) hm | with_reducible apply endEncErrors_foot | with_reducible apply Foot.ite | (with_reducible refine Foot.foldl ?_ (fun _ _ _ => ?_)) | (fail_if_no_progress (with_reducible refine Foot.up_time_fab ?_ (Foot.sub (by decide) hm))) | split)

theorem pulsePort_foot {m : Nat} {z : State} (s : State) (row : Nat) (hm : 0x8000000 ||| m = m) (h0 : Foot m z s) :
    Foot m z (pulsePort s row) := by
  unfold pulsePort
  try dsimp only
  repeat' (first | with_reducible assumption | exact Foot.sub (by decide) hm | with_reducible apply Foot.ite | (with_reducible refine Foot.foldl ?_ (fun _ _ _ => ?_)) | (fail_if_no_progress (with_reducible refine Foot.up_fab ?_ (Foot.sub (by decide) hm))) | split)

theorem pwmEdge_foot {m : Nat} {z : State} (s : State) (n : Nat) (hm : 0x10000000 ||| m = m) (h0 : Foot m z s) :
    Foot m z (pwmEdge s n) := by
  unfold pwmEdge
  try dsimp only
  repeat' (first | with_reducible assumption | exact Foot.sub (by decide) hm | with_reducible apply setFch_foot | with_reducible apply Foot.ite | (with_reducible refine Foot.foldl ?_ (fun _ _ _ => ?_)) | split)

theorem sampleFc_foot {m : Nat} {z : State} (s : State) (n : Nat) (hm : 0x10000000 ||| m = m) (h0 : Foot m z s) :
    Foot m z (sampleFc s n) := by
  unfold sampleFc
  try dsimp only
  repeat' (first | with_reducible assumption | exact Foot.sub (by decide) hm | with_reducible apply setFch_foot | with_reducible apply Foot.ite | (with_reducible refine Foot.foldl ?_ (fun _ _ _ => ?_)) | split)

theorem sampleMailbox_foot {m : Nat} {z : State} (s : State) (k : Nat) (hm : 0x8000000 ||| m = m) (h0 : Foot m z s) :
    Foot m z (sampleMailbox s k) := by
  unfold sampleMailbox
  try dsimp only
  repeat' (first | with_reducible assumption | exact Foot.sub (by decide) hm | with_reducible apply Foot.ite | (with_reducible refine Foot.foldl ?_ (fun _ _ _ => ?_)) | (fail_if_no_progress (with_reducible refine Foot.up_fab ?_ (Foot.sub (by decide) hm))) | split)

theorem sampleTxd_foot {m : Nat} {z : State} (s : State) (port : Nat) (hm : 0x8000000 ||| m = m) (h0 : Foot m z s) :
    Foot m z (sampleTxd s port) := by
  unfold sampleTxd
  try dsimp only
  repeat' (first | with_reducible assumption | exact Foot.sub (by decide) hm | with_reducible apply Foot.ite | (with_reducible refine Foot.foldl ?_ (fun _ _ _ => ?_)) | (fail_if_no_progress (with_reducible refine Foot.up_fab ?_ (Foot.sub (by decide) hm))) | split)

theorem fabEdge_foot {m : Nat} {z : State} (s : State) (hm : 0x18000000 ||| m = m) (h0 : Foot m z s) :
    Foot m z (fabEdge s) := by
  unfold fabEdge
  try dsimp only
  repeat' (first | with_reducible assumption | exact Foot.sub (by decide) hm | with_reducible apply modFch_foot | with_reducible apply pwmEdge_foot | with_reducible apply sampleFc_foot | with_reducible apply sampleMailbox_foot | with_reducible apply sampleTxd_foot | with_reducible apply Foot.ite | (with_reducible refine Foot.foldl ?_ (fun _ _ _ => ?_)) | split)

theorem fallLines_foot {m : Nat} {z : State} (s : State) (hm : 0x8000000 ||| m = m) (h0 : Foot m z s) :
    Foot m z (fallLines s) := by
  unfold fallLines
  try dsimp only
  repeat' (first | with_reducible assumption | exact Foot.sub (by decide) hm | with_reducible apply Foot.ite | (with_reducible refine Foot.foldl ?_ (fun _ _ _ => ?_)) | (fail_if_no_progress (with_reducible refine Foot.up_fab ?_ (Foot.sub (by decide) hm))) | split)

theorem holdRegion_foot {m : Nat} {z : State} (s : State) (k : Nat) (hm : 0x8000000 ||| m = m) (h0 : Foot m z s) :
    Foot m z (holdRegion s k) := by
  unfold holdRegion
  try dsimp only
  repeat' (first | with_reducible assumption | exact Foot.sub (by decide) hm | with_reducible apply fallLines_foot | with_reducible apply Foot.ite | (with_reducible refine Foot.foldl ?_ (fun _ _ _ => ?_)) | (fail_if_no_progress (with_reducible refine Foot.up_fab ?_ (Foot.sub (by decide) hm))) | split)

theorem startOwed_foot {m : Nat} {z : State} (s : State) (hm : 0x8000000 ||| m = m) (h0 : Foot m z s) :
    Foot m z (startOwed s) := by
  unfold startOwed
  try dsimp only
  repeat' (first | with_reducible assumption | exact Foot.sub (by decide) hm | with_reducible apply holdRegion_foot | with_reducible apply Foot.ite | (with_reducible refine Foot.foldl ?_ (fun _ _ _ => ?_)) | (fail_if_no_progress (with_reducible refine Foot.up_fab ?_ (Foot.sub (by decide) hm))) | split)

theorem releaseRegion_foot {m : Nat} {z : State} (s : State) (k : Nat) (hm : 0x8000000 ||| m = m) (h0 : Foot m z s) :
    Foot m z (releaseRegion s k) := by
  unfold releaseRegion
  try dsimp only
  repeat' (first | with_reducible assumption | exact Foot.sub (by decide) hm | with_reducible apply Foot.ite | (with_reducible refine Foot.foldl ?_ (fun _ _ _ => ?_)) | (fail_if_no_progress (with_reducible refine Foot.up_fab ?_ (Foot.sub (by decide) hm))) | split)

theorem captureRegion_foot {m : Nat} {z : State} (s : State) (k : Nat) (hm : 0x8000000 ||| m = m) (h0 : Foot m z s) :
    Foot m z (captureRegion s k) := by
  unfold captureRegion
  try dsimp only
  repeat' (first | with_reducible assumption | exact Foot.sub (by decide) hm | with_reducible apply Foot.ite | (with_reducible refine Foot.foldl ?_ (fun _ _ _ => ?_)) | (fail_if_no_progress (with_reducible refine Foot.up_fab ?_ (Foot.sub (by decide) hm))) | split)

end Sys2Proof.Machine
end

