-- ==== Sys2Proof/Laws/FootMesh.lean ====
section
/-! SUPPORT. Which components of the state each operation of Machine/Mesh.lean can change. -/

set_option linter.unusedTactic false
set_option linter.unusedVariables false
set_option linter.unreachableTactic false

namespace Sys2Proof.Machine

theorem setFlight_foot {m : Nat} {z : State} (s : State) (f g : Flight) (hm : 0x800000 ||| m = m) (h0 : Foot m z s) :
    Foot m z (setFlight s f g) := by
  unfold setFlight
  try dsimp only
  repeat' (first | with_reducible assumption | exact Foot.sub (by decide) hm | with_reducible apply Foot.ite | (with_reducible refine Foot.foldl ?_ (fun _ _ _ => ?_)) | (fail_if_no_progress (with_reducible refine Foot.up_noc ?_ (Foot.sub (by decide) hm))) | split)

theorem dropFlight_foot {m : Nat} {z : State} (s : State) (f : Flight) (hm : 0x800000 ||| m = m) (h0 : Foot m z s) :
    Foot m z (dropFlight s f) := by
  unfold dropFlight
  try dsimp only
  repeat' (first | with_reducible assumption | exact Foot.sub (by decide) hm | with_reducible apply Foot.ite | (with_reducible refine Foot.foldl ?_ (fun _ _ _ => ?_)) | (fail_if_no_progress (with_reducible refine Foot.up_noc ?_ (Foot.sub (by decide) hm))) | split)

theorem compactAll_foot {m : Nat} {z : State} (s : State) (hm : 0x800000 ||| m = m) (h0 : Foot m z s) :
    Foot m z (compactAll s) := by
  unfold compactAll
  try dsimp only
  repeat' (first | with_reducible assumption | exact Foot.sub (by decide) hm | with_reducible apply setFlight_foot | with_reducible apply Foot.ite | (with_reducible refine Foot.foldl ?_ (fun _ _ _ => ?_)) | split)

theorem noteServed_foot {m : Nat} {z : State} (s : State) (f : Flight) (m0 : Move) (hm : 0x800000 ||| m = m) (h0 : Foot m z s) :
    Foot m z (noteServed s f m0) := by
  unfold noteServed
  try dsimp only
  repeat' (first | with_reducible assumption | exact Foot.sub (by decide) hm | with_reducible apply Foot.ite | (with_reducible refine Foot.foldl ?_ (fun _ _ _ => ?_)) | (fail_if_no_progress (with_reducible refine Foot.up_noc ?_ (Foot.sub (by decide) hm))) | split)

theorem wantNext_foot {m : Nat} {z : State} (s : State) (key : Nat) (v : Byte) (hm : 0x800000 ||| m = m) (h0 : Foot m z s) :
    Foot m z (wantNext s key v) := by
  unfold wantNext
  try dsimp only
  repeat' (first | with_reducible assumption | exact Foot.sub (by decide) hm | with_reducible apply Foot.ite | (with_reducible refine Foot.foldl ?_ (fun _ _ _ => ?_)) | (fail_if_no_progress (with_reducible refine Foot.up_noc ?_ (Foot.sub (by decide) hm))) | split)

theorem loseSn_foot {m : Nat} {z : State} (s : State) (key : Nat) (v : Byte) (hm : 0x800000 ||| m = m) (h0 : Foot m z s) :
    Foot m z (loseSn s key v) := by
  unfold loseSn
  try dsimp only
  repeat' (first | with_reducible assumption | exact Foot.sub (by decide) hm | with_reducible apply Foot.ite | (with_reducible refine Foot.foldl ?_ (fun _ _ _ => ?_)) | (fail_if_no_progress (with_reducible refine Foot.up_noc ?_ (Foot.sub (by decide) hm))) | split)

theorem arrive_foot {m : Nat} {z : State} (turned : Flight → State → Bool) (serve : Flight → State → State) (n : Nat) (f : Flight)
    (s : State) (hm : 0x800000 ||| m = m) (h0 : Foot m z s) (hs : ∀ g u, Foot m z u → Foot m z (serve g u)) :
    Foot m z (arrive turned serve n f s) := by
  induction n generalizing f s with
  | zero => exact h0
  | succ n ih =>
    unfold arrive
    dsimp only
    have h1 := hs f _ (wantNext_foot s (orderKey f.src f.dst f.vc) f.sn (Foot.sub (by decide) hm) h0)
    split
    · exact hs _ _ h0
    · split
      · exact modNi_foot _ _ _ (Foot.sub (by decide) hm) h0
      · split
        · exact ih _ _ (modNi_foot _ _ _ (Foot.sub (by decide) hm) h1)
        · exact h1

theorem runMesh_foot {m : Nat} {z : State} (come : Flight → State → State) (n : Nat) (s : State) (hm : 0x800000 ||| m = m)
    (h0 : Foot m z s) (hs : ∀ g u, Foot m z u → Foot m z (come g u)) : Foot m z (runMesh come n s) := by
  induction n generalizing s with
  | zero => exact h0
  | succ n ih =>
    unfold runMesh
    split
    · exact compactAll_foot _ (Foot.sub (by decide) hm) h0
    · exact ih _ (setFlight_foot _ _ _ (Foot.sub (by decide) hm) (noteServed_foot _ _ _ (Foot.sub (by decide) hm) h0))
    · exact ih _ (hs _ _ (noteServed_foot _ _ _ (Foot.sub (by decide) hm) (dropFlight_foot _ _ (Foot.sub (by decide) hm) h0)))

end Sys2Proof.Machine
end

