-- ==== Sys2Proof/Laws/FootPolder.lean ====
section
/-! SUPPORT. Which components of the state each operation of Machine/Polder.lean can change. -/

set_option linter.unusedTactic false
set_option linter.unusedVariables false
set_option linter.unreachableTactic false

namespace Sys2Proof.Machine

theorem closeNi_foot {m : Nat} {z : State} (s : State) (n : Nat) (r : FenceReason) (hm : 0x800000 ||| m = m) (h0 : Foot m z s) :
    Foot m z (closeNi s n r) := by
  unfold closeNi
  try dsimp only
  repeat' (first | with_reducible assumption | exact Foot.sub (by decide) hm | with_reducible apply modNi_foot | with_reducible apply Foot.ite | (with_reducible refine Foot.foldl ?_ (fun _ _ _ => ?_)) | split)

theorem setNiSt_foot {m : Nat} {z : State} (s : State) (n : Nat) (st : NiState) (hm : 0x800000 ||| m = m) (h0 : Foot m z s) :
    Foot m z (setNiSt s n st) := by
  unfold setNiSt
  try dsimp only
  repeat' (first | with_reducible assumption | exact Foot.sub (by decide) hm | with_reducible apply modNi_foot | with_reducible apply Foot.ite | (with_reducible refine Foot.foldl ?_ (fun _ _ _ => ?_)) | split)

theorem sendClear_foot {m : Nat} {z : State} (s : State) (n repl : NiId) (lost : Bool) (hm : 0x800000 ||| m = m) (h0 : Foot m z s) :
    Foot m z (sendClear s n repl lost) := by
  unfold sendClear
  try dsimp only
  repeat' (first | with_reducible assumption | exact Foot.sub (by decide) hm | with_reducible apply Foot.ite | (with_reducible refine Foot.foldl ?_ (fun _ _ _ => ?_)) | (fail_if_no_progress (with_reducible refine Foot.up_noc ?_ (Foot.sub (by decide) hm))) | split)

theorem openNi_foot {m : Nat} {z : State} (s : State) (n : NiId) (hm : 0x800000 ||| m = m) (h0 : Foot m z s) :
    Foot m z (openNi s n) := by
  unfold openNi
  try dsimp only
  repeat' (first | with_reducible assumption | exact Foot.sub (by decide) hm | with_reducible apply setNiSt_foot | with_reducible apply sendClear_foot | with_reducible apply Foot.ite | (with_reducible refine Foot.foldl ?_ (fun _ _ _ => ?_)) | split)

theorem openGate_foot {m : Nat} {z : State} (s : State) (b : Nat) (hm : 0x80800000 ||| m = m) (h0 : Foot m z s) :
    Foot m z (openGate s b) := by
  unfold openGate
  try dsimp only
  repeat' (first | with_reducible assumption | exact Foot.sub (by decide) hm | with_reducible apply openNi_foot | with_reducible apply Foot.ite | (with_reducible refine Foot.foldl ?_ (fun _ _ _ => ?_)) | (fail_if_no_progress (with_reducible refine Foot.up_clk ?_ (Foot.sub (by decide) hm))) | split)

theorem reopenGates_foot {m : Nat} {z : State} (s : State) (hm : 0x80800000 ||| m = m) (h0 : Foot m z s) :
    Foot m z (reopenGates s) := by
  unfold reopenGates
  try dsimp only
  repeat' (first | with_reducible assumption | exact Foot.sub (by decide) hm | with_reducible apply openGate_foot | with_reducible apply Foot.ite | (with_reducible refine Foot.foldl ?_ (fun _ _ _ => ?_)) | split)

theorem retargetFab_foot {m : Nat} {z : State} (s0 : State) (hm : 0x88800000 ||| m = m) (h0 : Foot m z s0) :
    Foot m z (retargetFab s0) := by
  unfold retargetFab
  try dsimp only
  repeat' (first | with_reducible assumption | exact Foot.sub (by decide) hm | with_reducible apply reopenGates_foot | with_reducible apply Foot.ite | (with_reducible refine Foot.foldl ?_ (fun _ _ _ => ?_)) | (fail_if_no_progress (with_reducible refine Foot.up_fab ?_ (Foot.sub (by decide) hm))) | split)

theorem clearTile_foot {m : Nat} {z : State} (s : State) (p : Nat) (hm : 0xF0 ||| m = m) (h0 : Foot m z s) :
    Foot m z (clearTile s p) := by
  unfold clearTile
  try dsimp only
  repeat' (first | with_reducible assumption | exact Foot.sub (by decide) hm | with_reducible apply Foot.ite | (with_reducible refine Foot.foldl ?_ (fun _ _ _ => ?_)) | (fail_if_no_progress (with_reducible refine Foot.up_pe_peMem_peBad_peTag ?_ (Foot.sub (by decide) hm))) | split)

theorem awaken_foot {m : Nat} {z : State} (s : State) (p : Nat) (ratio : Fin 8) (fromOff : Bool) (hm : 0x8000F4 ||| m = m) (h0 : Foot m z s) :
    Foot m z (awaken s p ratio fromOff) := by
  unfold awaken
  try dsimp only
  repeat' (first | with_reducible assumption | exact Foot.sub (by decide) hm | with_reducible apply modTile_foot | with_reducible apply openNi_foot | with_reducible apply clearTile_foot | with_reducible apply Foot.ite | (with_reducible refine Foot.foldl ?_ (fun _ _ _ => ?_)) | split)

theorem wakePolder_foot {m : Nat} {z : State} (s : State) (p : Nat) (hm : 0x8000F4 ||| m = m) (h0 : Foot m z s) :
    Foot m z (wakePolder s p) := by
  unfold wakePolder
  try dsimp only
  repeat' (first | with_reducible assumption | exact Foot.sub (by decide) hm | with_reducible apply modTile_foot | with_reducible apply awaken_foot | with_reducible apply Foot.ite | (with_reducible refine Foot.foldl ?_ (fun _ _ _ => ?_)) | split)

theorem polderOff_foot {m : Nat} {z : State} (s : State) (p : Nat) (hm : 0x888000F4 ||| m = m) (h0 : Foot m z s) :
    Foot m z (polderOff s p) := by
  unfold polderOff
  try dsimp only
  repeat' (first | with_reducible assumption | exact Foot.sub (by decide) hm | with_reducible apply modTile_foot | with_reducible apply setNiSt_foot | with_reducible apply retargetFab_foot | with_reducible apply clearTile_foot | with_reducible apply Foot.ite | (with_reducible refine Foot.foldl ?_ (fun _ _ _ => ?_)) | split)

theorem powerDown_foot {m : Nat} {z : State} (s : State) (p : Nat) (r : FenceReason) (hm : 0x888000F4 ||| m = m) (h0 : Foot m z s) :
    Foot m z (powerDown s p r) := by
  unfold powerDown
  try dsimp only
  repeat' (first | with_reducible assumption | exact Foot.sub (by decide) hm | with_reducible apply closeNi_foot | with_reducible apply setNiSt_foot | with_reducible apply polderOff_foot | with_reducible apply Foot.ite | (with_reducible refine Foot.foldl ?_ (fun _ _ _ => ?_)) | split)

theorem sleepPolder_foot {m : Nat} {z : State} (s : State) (p : Nat) (hm : 0x800004 ||| m = m) (h0 : Foot m z s) :
    Foot m z (sleepPolder s p) := by
  unfold sleepPolder
  try dsimp only
  repeat' (first | with_reducible assumption | exact Foot.sub (by decide) hm | with_reducible apply modTile_foot | with_reducible apply closeNi_foot | with_reducible apply Foot.ite | (with_reducible refine Foot.foldl ?_ (fun _ _ _ => ?_)) | split)

theorem rampDownStep_foot {m : Nat} {z : State} (s : State) (p : Nat) (hm : 0x88800004 ||| m = m) (h0 : Foot m z s) :
    Foot m z (rampDownStep s p) := by
  unfold rampDownStep
  try dsimp only
  repeat' (first | with_reducible assumption | exact Foot.sub (by decide) hm | with_reducible apply modTile_foot | with_reducible apply setNiSt_foot | with_reducible apply retargetFab_foot | with_reducible apply Foot.ite | (with_reducible refine Foot.foldl ?_ (fun _ _ _ => ?_)) | split)

theorem stopPolder_foot {m : Nat} {z : State} (s : State) (p : Nat) (hm : 0x800004 ||| m = m) (h0 : Foot m z s) :
    Foot m z (stopPolder s p) := by
  unfold stopPolder
  try dsimp only
  repeat' (first | with_reducible assumption | exact Foot.sub (by decide) hm | with_reducible apply modTile_foot | with_reducible apply closeNi_foot | with_reducible apply Foot.ite | (with_reducible refine Foot.foldl ?_ (fun _ _ _ => ?_)) | split)

theorem wakeTenant_foot {m : Nat} {z : State} (s : State) (t : Tenant) (hm : 0x888000F4 ||| m = m) (h0 : Foot m z s) :
    Foot m z (wakeTenant s t) := by
  unfold wakeTenant
  try dsimp only
  repeat' (first | with_reducible assumption | exact Foot.sub (by decide) hm | with_reducible apply openGate_foot | with_reducible apply retargetFab_foot | with_reducible apply wakePolder_foot | with_reducible apply Foot.ite | (with_reducible refine Foot.foldl ?_ (fun _ _ _ => ?_)) | split)

end Sys2Proof.Machine
end

