-- ==== Sys2Proof/Laws/FootStatus.lean ====
section
/-! SUPPORT. Which components of the state each operation of Machine/Status.lean can change. -/

set_option linter.unusedTactic false
set_option linter.unusedVariables false
set_option linter.unreachableTactic false

namespace Sys2Proof.Machine

theorem takeMark_foot {m : Nat} {z : State} (s : State) (hm : 0x808000001 ||| m = m) (h0 : Foot m z s) :
    Foot m z (takeMark s) := by
  unfold takeMark
  try dsimp only
  repeat' (first | with_reducible assumption | exact Foot.sub (by decide) hm | with_reducible apply bump_foot | with_reducible apply logEvent_foot | with_reducible apply captureRegion_foot | with_reducible apply safeShell_foot | with_reducible apply Foot.ite | (with_reducible refine Foot.foldl ?_ (fun _ _ _ => ?_)) | (fail_if_no_progress (with_reducible refine Foot.up_obs ?_ (Foot.sub (by decide) hm))) | split)

end Sys2Proof.Machine
end

