-- ==== Sys2Proof/Laws/FootLanding.lean ====
section
/-! SUPPORT. Which components of the state each operation of Machine/Landing.lean can change. -/

set_option linter.unusedTactic false
set_option linter.unusedVariables false
set_option linter.unreachableTactic false

namespace Sys2Proof.Machine

theorem setOrder_foot {m : Nat} {z : State} (s : State) (t : Tenant) (o : Order) (hm : 0x800 ||| m = m) (h0 : Foot m z s) :
    Foot m z (setOrder s t o) := by
  unfold setOrder
  try dsimp only
  repeat' (first | with_reducible assumption | exact Foot.sub (by decide) hm | with_reducible apply modTen_foot | with_reducible apply Foot.ite | (with_reducible refine Foot.foldl ?_ (fun _ _ _ => ?_)) | split)

theorem modOrder_foot {m : Nat} {z : State} (s : State) (t : Tenant) (seq : Word) (f : Order → Order) (hm : 0x800 ||| m = m) (h0 : Foot m z s) :
    Foot m z (modOrder s t seq f) := by
  unfold modOrder
  try dsimp only
  repeat' (first | with_reducible assumption | exact Foot.sub (by decide) hm | with_reducible apply setOrder_foot | with_reducible apply Foot.ite | (with_reducible refine Foot.foldl ?_ (fun _ _ _ => ?_)) | split)

theorem modRun_foot {m : Nat} {z : State} (s : State) (t : Tenant) (f : Order → Order) (hm : 0x800 ||| m = m) (h0 : Foot m z s) :
    Foot m z (modRun s t f) := by
  unfold modRun
  try dsimp only
  repeat' (first | with_reducible assumption | exact Foot.sub (by decide) hm | with_reducible apply setOrder_foot | with_reducible apply Foot.ite | (with_reducible refine Foot.foldl ?_ (fun _ _ _ => ?_)) | split)

theorem landBit_foot {m : Nat} {z : State} (s : State) (k a : Nat) (v : Bool) (hm : 0x70 ||| m = m) (h0 : Foot m z s) :
    Foot m z (landBit s k a v) := by
  unfold landBit
  try dsimp only
  repeat' (first | with_reducible assumption | exact Foot.sub (by decide) hm | with_reducible apply setPeBit_foot | with_reducible apply Foot.ite | (with_reducible refine Foot.foldl ?_ (fun _ _ _ => ?_)) | split)

theorem landElem_foot {m : Nat} {z : State} (s : State) (p : TileId) (g base w row sl v : Nat) (hm : 0x70 ||| m = m) (h0 : Foot m z s) :
    Foot m z (landElem s p g base w row sl v) := by
  unfold landElem
  try dsimp only
  repeat' (first | with_reducible assumption | exact Foot.sub (by decide) hm | with_reducible apply landBit_foot | with_reducible apply Foot.ite | (with_reducible refine Foot.foldl ?_ (fun _ _ _ => ?_)) | split)

theorem landField_foot {m : Nat} {z : State} (s : State) (t : Tenant) (g base w n row sl v : Nat) (hm : 0x70 ||| m = m) (h0 : Foot m z s) :
    Foot m z (landField s t g base w n row sl v) := by
  unfold landField
  try dsimp only
  repeat' (first | with_reducible assumption | exact Foot.sub (by decide) hm | with_reducible apply landElem_foot | with_reducible apply Foot.ite | (with_reducible refine Foot.foldl ?_ (fun _ _ _ => ?_)) | split)

theorem landAt_foot {m : Nat} {z : State} (s : State) (t : Tenant) (g base w x y v : Nat) (hm : 0x70 ||| m = m) (h0 : Foot m z s) :
    Foot m z (landAt s t g base w x y v) := by
  unfold landAt
  try dsimp only
  repeat' (first | with_reducible assumption | exact Foot.sub (by decide) hm | with_reducible apply landField_foot | with_reducible apply Foot.ite | (with_reducible refine Foot.foldl ?_ (fun _ _ _ => ?_)) | split)

theorem landPlanes_foot {m : Nat} {z : State} (s : State) (c : CamCfg) (g base : Nat) (data : Bytes) (ty tx : Nat) (p : TileId) (hm : 0x70 ||| m = m) (h0 : Foot m z s) :
    Foot m z (landPlanes s c g base data ty tx p) := by
  unfold landPlanes
  try dsimp only
  repeat' (first | with_reducible assumption | exact Foot.sub (by decide) hm | with_reducible apply landElem_foot | with_reducible apply Foot.ite | (with_reducible refine Foot.foldl ?_ (fun _ _ _ => ?_)) | split)

theorem landBand_foot {m : Nat} {z : State} (s : State) (t : Tenant) (c : CamCfg) (g base : Nat) (data : Bytes) (ty : Nat) (hm : 0x70 ||| m = m) (h0 : Foot m z s) :
    Foot m z (landBand s t c g base data ty) := by
  unfold landBand
  try dsimp only
  repeat' (first | with_reducible assumption | exact Foot.sub (by decide) hm | with_reducible apply landPlanes_foot | with_reducible apply Foot.ite | (with_reducible refine Foot.foldl ?_ (fun _ _ _ => ?_)) | split)

theorem landAdc_foot {m : Nat} {z : State} (s : State) (t : Tenant) (i : InBind) (g base : Nat) (hm : 0x70 ||| m = m) (h0 : Foot m z s) :
    Foot m z (landAdc s t i g base) := by
  unfold landAdc
  try dsimp only
  repeat' (first | with_reducible assumption | exact Foot.sub (by decide) hm | with_reducible apply landAt_foot | with_reducible apply Foot.ite | (with_reducible refine Foot.foldl ?_ (fun _ _ _ => ?_)) | split)

theorem landSnapshot_foot {m : Nat} {z : State} (s : State) (t : Tenant) (i : InBind) (g base : Nat) (hm : 0x70 ||| m = m) (h0 : Foot m z s) :
    Foot m z (landSnapshot s t i g base) := by
  unfold landSnapshot
  try dsimp only
  repeat' (first | with_reducible assumption | exact Foot.sub (by decide) hm | with_reducible apply landBit_foot | with_reducible apply Foot.ite | (with_reducible refine Foot.foldl ?_ (fun _ _ _ => ?_)) | split)

theorem landRegion_foot {m : Nat} {z : State} (s : State) (t : Tenant) (i : InBind) (base : Nat) (hm : 0x70 ||| m = m) (h0 : Foot m z s) :
    Foot m z (landRegion s t i base) := by
  unfold landRegion
  try dsimp only
  repeat' (first | with_reducible assumption | exact Foot.sub (by decide) hm | with_reducible apply landField_foot | with_reducible apply Foot.ite | (with_reducible refine Foot.foldl ?_ (fun _ _ _ => ?_)) | split)

theorem landAll_foot {m : Nat} {z : State} (s : State) (t : Tenant) (i : InBind) (a : Arm) (hm : 0x20A070 ||| m = m) (h0 : Foot m z s) :
    Foot m z (landAll s t i a) := by
  unfold landAll
  try dsimp only
  repeat' (first | with_reducible assumption | exact Foot.sub (by decide) hm | with_reducible apply extWrite_foot | with_reducible apply landBand_foot | with_reducible apply landAdc_foot | with_reducible apply landSnapshot_foot | with_reducible apply landRegion_foot | with_reducible apply Foot.ite | (with_reducible refine Foot.foldl ?_ (fun _ _ _ => ?_)) | split)

theorem leaveBuf_foot {m : Nat} {z : State} (s : State) (t : Tenant) (seq : Word) (b n : Nat) (hm : 0x4000000 ||| m = m) (h0 : Foot m z s) :
    Foot m z (leaveBuf s t seq b n) := by
  unfold leaveBuf
  try dsimp only
  repeat' (first | with_reducible assumption | exact Foot.sub (by decide) hm | with_reducible apply modCam_foot | with_reducible apply Foot.ite | (with_reducible refine Foot.foldl ?_ (fun _ _ _ => ?_)) | split)

theorem sendPlanes_foot {m : Nat} {z : State} (s : State) (t : Tenant) (seq : Word) (b : Nat) (c : CamCfg) (a : Arm) (ty : Nat) (e : Nat × Nat) (hm : 0x800870 ||| m = m) (h0 : Foot m z s) :
    Foot m z (sendPlanes s t seq b c a ty e) := by
  unfold sendPlanes
  try dsimp only
  repeat' (first | with_reducible assumption | exact Foot.sub (by decide) hm | with_reducible apply modOrder_foot | with_reducible apply landPlanes_foot | with_reducible apply Foot.ite | (with_reducible refine Foot.foldl ?_ (fun _ _ _ => ?_)) | (fail_if_no_progress (with_reducible refine Foot.up_noc ?_ (Foot.sub (by decide) hm))) | split)

theorem landBands_foot {m : Nat} {z : State} (s : State) (t : Tenant) (seq : Word) (b : Nat) (hm : 0x804900871 ||| m = m) (h0 : Foot m z s) :
    Foot m z (landBands s t seq b) := by
  unfold landBands
  try dsimp only
  repeat' (first | with_reducible assumption | exact Foot.sub (by decide) hm | with_reducible apply readAreas_foot | with_reducible apply modOrder_foot | with_reducible apply leaveBuf_foot | with_reducible apply sendPlanes_foot | with_reducible apply Foot.ite | (with_reducible refine Foot.foldl ?_ (fun _ _ _ => ?_)) | split)

end Sys2Proof.Machine
end

