-- ==== Sys2Proof/Laws/FootOrders.lean ====
section
/-! SUPPORT. Which components of the state each operation of Machine/Orders.lean can change. -/

set_option linter.unusedTactic false
set_option linter.unusedVariables false
set_option linter.unreachableTactic false

namespace Sys2Proof.Machine

theorem dropCtx_foot {m : Nat} {z : State} (s : State) (t : Tenant) (hm : 0x200 ||| m = m) (h0 : Foot m z s) :
    Foot m z (dropCtx s t) := by
  unfold dropCtx
  try dsimp only
  repeat' (first | with_reducible assumption | exact Foot.sub (by decide) hm | with_reducible apply setCtx_foot | with_reducible apply Foot.ite | (with_reducible refine Foot.foldl ?_ (fun _ _ _ => ?_)) | split)

theorem loadCtx_foot {m : Nat} {z : State} (s : State) (t : Tenant) (k : Fin 3) (enables : BitVec 5) (trapMode : Bool) (hm : 0x200 ||| m = m) (h0 : Foot m z s) :
    Foot m z (loadCtx s t k enables trapMode) := by
  unfold loadCtx
  try dsimp only
  repeat' (first | with_reducible assumption | exact Foot.sub (by decide) hm | with_reducible apply setCtx_foot | with_reducible apply Foot.ite | (with_reducible refine Foot.foldl ?_ (fun _ _ _ => ?_)) | split)

theorem dropPending_foot {m : Nat} {z : State} (s : State) (t : Tenant) (hm : 0x200 ||| m = m) (h0 : Foot m z s) :
    Foot m z (dropPending s t) := by
  unfold dropPending
  try dsimp only
  repeat' (first | with_reducible assumption | exact Foot.sub (by decide) hm | with_reducible apply setCtx_foot | with_reducible apply Foot.ite | (with_reducible refine Foot.foldl ?_ (fun _ _ _ => ?_)) | split)

theorem quiet_foot {m : Nat} {z : State} (s : State) (t : Tenant) (hm : 0x100 ||| m = m) (h0 : Foot m z s) :
    Foot m z (quiet s t) := by
  unfold quiet
  try dsimp only
  repeat' (first | with_reducible assumption | exact Foot.sub (by decide) hm | with_reducible apply modSqr_foot | with_reducible apply Foot.ite | (with_reducible refine Foot.foldl ?_ (fun _ _ _ => ?_)) | split)

theorem storeRecord_foot {m : Nat} {z : State} (s : State) (t : Tenant) (r : Record) (hm : 0x214000 ||| m = m) (h0 : Foot m z s) :
    Foot m z (storeRecord s t r) := by
  unfold storeRecord
  try dsimp only
  repeat' (first | with_reducible assumption | exact Foot.sub (by decide) hm | with_reducible apply mirrorWrite_foot | with_reducible apply Foot.ite | (with_reducible refine Foot.foldl ?_ (fun _ _ _ => ?_)) | split)

theorem storeRecords_foot {m : Nat} {z : State} (s : State) (t : Tenant) (n : Nat) (hm : 0x214000 ||| m = m) (h0 : Foot m z s) :
    Foot m z (storeRecords s t n) := by
  unfold storeRecords
  try dsimp only
  repeat' (first | with_reducible assumption | exact Foot.sub (by decide) hm | with_reducible apply storeRecord_foot | with_reducible apply Foot.ite | (with_reducible refine Foot.foldl ?_ (fun _ _ _ => ?_)) | split)

theorem dropFrames_foot {m : Nat} {z : State} (s : State) (t : Tenant) (seq : Word) (hm : 0x4000000 ||| m = m) (h0 : Foot m z s) :
    Foot m z (dropFrames s t seq) := by
  unfold dropFrames
  try dsimp only
  repeat' (first | with_reducible assumption | exact Foot.sub (by decide) hm | with_reducible apply modCam_foot | with_reducible apply Foot.ite | (with_reducible refine Foot.foldl ?_ (fun _ _ _ => ?_)) | split)

theorem endWindow_foot {m : Nat} {z : State} (s : State) (t : Tenant) (hm : 0x104 ||| m = m) (h0 : Foot m z s) :
    Foot m z (endWindow s t) := by
  unfold endWindow
  try dsimp only
  repeat' (first | with_reducible assumption | exact Foot.sub (by decide) hm | with_reducible apply modTile_foot | with_reducible apply modSqr_foot | with_reducible apply Foot.ite | (with_reducible refine Foot.foldl ?_ (fun _ _ _ => ?_)) | split)

theorem placeFrame_foot {m : Nat} {z : State} (s : State) (t : Tenant) (hm : 0x800 ||| m = m) (h0 : Foot m z s) :
    Foot m z (placeFrame s t) := by
  unfold placeFrame
  try dsimp only
  repeat' (first | with_reducible assumption | exact Foot.sub (by decide) hm | with_reducible apply modTen_foot | with_reducible apply Foot.ite | (with_reducible refine Foot.foldl ?_ (fun _ _ _ => ?_)) | split)

theorem settle_foot {m : Nat} {z : State} (s : State) (t : Tenant) (o : Order) (r : Record) (hm : 0x254B05 ||| m = m) (h0 : Foot m z s) :
    Foot m z (settle s t o r) := by
  unfold settle
  try dsimp only
  repeat' (first | with_reducible assumption | exact Foot.sub (by decide) hm | with_reducible apply modTen_foot | with_reducible apply journalWrite_foot | with_reducible apply dropCtx_foot | with_reducible apply quiet_foot | with_reducible apply storeRecords_foot | with_reducible apply endWindow_foot | with_reducible apply placeFrame_foot | with_reducible apply Foot.ite | (with_reducible refine Foot.foldl ?_ (fun _ _ _ => ?_)) | split)

theorem abortOrder_foot {m : Nat} {z : State} (s : State) (t : Tenant) (o : Order) (cause : Byte) (hm : 0x4254B05 ||| m = m) (h0 : Foot m z s) :
    Foot m z (abortOrder s t o cause) := by
  unfold abortOrder
  try dsimp only
  repeat' (first | with_reducible assumption | exact Foot.sub (by decide) hm | with_reducible apply dropFrames_foot | with_reducible apply settle_foot | with_reducible apply Foot.ite | (with_reducible refine Foot.foldl ?_ (fun _ _ _ => ?_)) | split)

theorem kick_foot {m : Nat} {z : State} (s : State) (t : Tenant) (hm : 0x888008F4 ||| m = m) (h0 : Foot m z s) :
    Foot m z (kick s t) := by
  unfold kick
  try dsimp only
  repeat' (first | with_reducible assumption | exact Foot.sub (by decide) hm | with_reducible apply modTen_foot | with_reducible apply wakeTenant_foot | with_reducible apply Foot.ite | (with_reducible refine Foot.foldl ?_ (fun _ _ _ => ?_)) | split)

theorem kickAll_foot {m : Nat} {z : State} (s : State) (hm : 0x888008F4 ||| m = m) (h0 : Foot m z s) :
    Foot m z (kickAll s) := by
  unfold kickAll
  try dsimp only
  repeat' (first | with_reducible assumption | exact Foot.sub (by decide) hm | with_reducible apply kick_foot | with_reducible apply Foot.ite | (with_reducible refine Foot.foldl ?_ (fun _ _ _ => ?_)) | split)

theorem scrubTiles_foot {m : Nat} {z : State} (s : State) (ps : List TileId) (hm : 0xD5 ||| m = m) (h0 : Foot m z s) :
    Foot m z (scrubTiles s ps) := by
  unfold scrubTiles
  try dsimp only
  repeat' (first | with_reducible assumption | exact Foot.sub (by decide) hm | with_reducible apply modTile_foot | with_reducible apply bump_foot | with_reducible apply setPe_foot | with_reducible apply scramble_foot | with_reducible apply Foot.ite | (with_reducible refine Foot.foldl ?_ (fun _ _ _ => ?_)) | (fail_if_no_progress (with_reducible refine Foot.up_peBad ?_ (Foot.sub (by decide) hm))) | split)

theorem startPes_foot {m : Nat} {z : State} (s : State) (t : Tenant) (hm : 0x70 ||| m = m) (h0 : Foot m z s) :
    Foot m z (startPes s t) := by
  unfold startPes
  try dsimp only
  repeat' (first | with_reducible assumption | exact Foot.sub (by decide) hm | with_reducible apply setPe_foot | with_reducible apply clearSticky_foot | with_reducible apply Foot.ite | (with_reducible refine Foot.foldl ?_ (fun _ _ _ => ?_)) | split)

theorem reland_foot {m : Nat} {z : State} (s : State) (t : Tenant) (seq : Word) (bs : List Nat) (hm : 0x20A070 ||| m = m) (h0 : Foot m z s) :
    Foot m z (reland s t seq bs) := by
  unfold reland
  try dsimp only
  repeat' (first | with_reducible assumption | exact Foot.sub (by decide) hm | with_reducible apply landAll_foot | with_reducible apply Foot.ite | (with_reducible refine Foot.foldl ?_ (fun _ _ _ => ?_)) | split)

theorem restorePlanes_foot {m : Nat} {z : State} (s : State) (t : Tenant) (k : Ckpt) (hm : 0x70 ||| m = m) (h0 : Foot m z s) :
    Foot m z (restorePlanes s t k) := by
  unfold restorePlanes
  try dsimp only
  repeat' (first | with_reducible assumption | exact Foot.sub (by decide) hm | with_reducible apply setPe_foot | with_reducible apply setPeBit_foot | with_reducible apply Foot.ite | (with_reducible refine Foot.foldl ?_ (fun _ _ _ => ?_)) | split)

theorem reexecNow_foot {m : Nat} {z : State} (s : State) (t : Tenant) (o : Order) (q : SeqId) (hm : 0x884B0ABF5 ||| m = m) (h0 : Foot m z s) :
    Foot m z (reexecNow s t o q) := by
  unfold reexecNow
  try dsimp only
  repeat' (first | with_reducible assumption | exact Foot.sub (by decide) hm | with_reducible apply modTile_foot | with_reducible apply modSqr_foot | with_reducible apply openGate_foot | with_reducible apply setOrder_foot | with_reducible apply landBands_foot | with_reducible apply dropCtx_foot | with_reducible apply loadCtx_foot | with_reducible apply dropPending_foot | with_reducible apply scrubTiles_foot | with_reducible apply startPes_foot | with_reducible apply reland_foot | with_reducible apply restorePlanes_foot | with_reducible apply Foot.ite | (with_reducible refine Foot.foldl ?_ (fun _ _ _ => ?_)) | split)

theorem readBack_foot {m : Nat} {z : State} (s : State) (t : Tenant) (o : Order) (hm : 0x800100001 ||| m = m) (h0 : Foot m z s) :
    Foot m z (readBack s t o).1 := by
  unfold readBack
  refine Foot.fold1 ?_ fun u b h => ?_
  · split
    · exact readAreas_foot _ _ _ _ _ _ (Foot.sub (by decide) hm) h0
    · exact h0
  · split
    · split
      · exact readAreas_foot _ _ _ _ _ _ (Foot.sub (by decide) hm) h
      · exact h
    · exact h

theorem tryReexec_foot {m : Nat} {z : State} (s : State) (t : Tenant) (hm : 0x88CB5EBF5 ||| m = m) (h0 : Foot m z s) :
    Foot m z (tryReexec s t) := by
  unfold tryReexec
  try dsimp only
  repeat' (first | with_reducible assumption | exact Foot.sub (by decide) hm | with_reducible apply setOrder_foot | with_reducible apply abortOrder_foot | with_reducible apply kick_foot | with_reducible apply reexecNow_foot | with_reducible apply readBack_foot | with_reducible apply Foot.ite | (with_reducible refine Foot.foldl ?_ (fun _ _ _ => ?_)) | split)

theorem tryReexecAll_foot {m : Nat} {z : State} (s : State) (hm : 0x88CB5EBF5 ||| m = m) (h0 : Foot m z s) :
    Foot m z (tryReexecAll s) := by
  unfold tryReexecAll
  try dsimp only
  repeat' (first | with_reducible assumption | exact Foot.sub (by decide) hm | with_reducible apply tryReexec_foot | with_reducible apply Foot.ite | (with_reducible refine Foot.foldl ?_ (fun _ _ _ => ?_)) | split)

theorem recompute_foot {m : Nat} {z : State} (s : State) (t : Tenant) (hm : 0x88CB5EBF5 ||| m = m) (h0 : Foot m z s) :
    Foot m z (recompute s t) := by
  unfold recompute
  try dsimp only
  repeat' (first | with_reducible assumption | exact Foot.sub (by decide) hm | with_reducible apply logEvent_foot | with_reducible apply setOrder_foot | with_reducible apply dropPending_foot | with_reducible apply quiet_foot | with_reducible apply tryReexec_foot | with_reducible apply tryReexecAll_foot | with_reducible apply Foot.ite | (with_reducible refine Foot.foldl ?_ (fun _ _ _ => ?_)) | split)

theorem landOldest_foot {m : Nat} {z : State} (s : State) (t : Tenant) (hm : 0x804900871 ||| m = m) (h0 : Foot m z s) :
    Foot m z (landOldest s t) := by
  unfold landOldest
  try dsimp only
  repeat' (first | with_reducible assumption | exact Foot.sub (by decide) hm | with_reducible apply landBands_foot | with_reducible apply Foot.ite | (with_reducible refine Foot.foldl ?_ (fun _ _ _ => ?_)) | split)

theorem afterSettle_foot {m : Nat} {z : State} (s : State) (t : Tenant) (hm : 0x88CB5EBF5 ||| m = m) (h0 : Foot m z s) :
    Foot m z (afterSettle s t) := by
  unfold afterSettle
  try dsimp only
  repeat' (first | with_reducible assumption | exact Foot.sub (by decide) hm | with_reducible apply kick_foot | with_reducible apply tryReexecAll_foot | with_reducible apply landOldest_foot | with_reducible apply Foot.ite | (with_reducible refine Foot.foldl ?_ (fun _ _ _ => ?_)) | split)

theorem abortOrders_foot {m : Nat} {z : State} (s : State) (t : Tenant) (seqs : List Word) (cause : Byte) (hm : 0x88CB5EBF5 ||| m = m) (h0 : Foot m z s) :
    Foot m z (abortOrders s t seqs cause) := by
  unfold abortOrders
  try dsimp only
  repeat' (first | with_reducible assumption | exact Foot.sub (by decide) hm | with_reducible apply abortOrder_foot | with_reducible apply afterSettle_foot | with_reducible apply Foot.ite | (with_reducible refine Foot.foldl ?_ (fun _ _ _ => ?_)) | split)

theorem abortAllOrders_foot {m : Nat} {z : State} (s : State) (t : Tenant) (cause : Byte) (hm : 0x88CB5EBF5 ||| m = m) (h0 : Foot m z s) :
    Foot m z (abortAllOrders s t cause) := by
  unfold abortAllOrders
  try dsimp only
  repeat' (first | with_reducible assumption | exact Foot.sub (by decide) hm | with_reducible apply abortOrders_foot | with_reducible apply Foot.ite | (with_reducible refine Foot.foldl ?_ (fun _ _ _ => ?_)) | split)

theorem inputLost_foot {m : Nat} {z : State} (s : State) (t : Tenant) (seq : Word) (hm : 0x88CB5EBF5 ||| m = m) (h0 : Foot m z s) :
    Foot m z (inputLost s t seq) := by
  unfold inputLost
  try dsimp only
  repeat' (first | with_reducible assumption | exact Foot.sub (by decide) hm | with_reducible apply abortOrders_foot | with_reducible apply Foot.ite | (with_reducible refine Foot.foldl ?_ (fun _ _ _ => ?_)) | split)

theorem landNow_foot {m : Nat} {z : State} (s : State) (t : Tenant) (seq : Word) (b : Nat) (hm : 0x88CB5EBF5 ||| m = m) (h0 : Foot m z s) :
    Foot m z (landNow s t seq b) := by
  unfold landNow
  try dsimp only
  repeat' (first | with_reducible assumption | exact Foot.sub (by decide) hm | with_reducible apply landBands_foot | with_reducible apply inputLost_foot | with_reducible apply Foot.ite | (with_reducible refine Foot.foldl ?_ (fun _ _ _ => ?_)) | split)

theorem ingestClear_foot {m : Nat} {z : State} (s : State) (n : NiId) (lost : Bool) (hm : 0x88CB5EBF5 ||| m = m) (h0 : Foot m z s) :
    Foot m z (ingestClear s n lost) := by
  unfold ingestClear
  try dsimp only
  repeat' (first | with_reducible assumption | exact Foot.sub (by decide) hm | with_reducible apply modOrder_foot | with_reducible apply sendPlanes_foot | with_reducible apply inputLost_foot | with_reducible apply Foot.ite | (with_reducible refine Foot.foldl ?_ (fun _ _ _ => ?_)) | split)

theorem yielded_foot {m : Nat} {z : State} (s : State) (u t : Tenant) (rung : Byte) (us : Nat) (hm : 0x820001800 ||| m = m) (h0 : Foot m z s) :
    Foot m z (yielded s u t rung us) := by
  unfold yielded
  try dsimp only
  repeat' (first | with_reducible assumption | exact Foot.sub (by decide) hm | with_reducible apply modTen_foot | with_reducible apply tideFault_foot | with_reducible apply logEvent_foot | with_reducible apply emergency_foot | with_reducible apply Foot.ite | (with_reducible refine Foot.foldl ?_ (fun _ _ _ => ?_)) | (fail_if_no_progress (with_reducible refine Foot.up_lastYield ?_ (Foot.sub (by decide) hm))) | split)

theorem mayYield_foot {m : Nat} {z : State} (s : State) (t : Tenant) (rungs : List Byte) (hm : 0x820001801 ||| m = m) (h0 : Foot m z s) :
    Foot m z (mayYield s t rungs) := by
  unfold mayYield
  try dsimp only
  repeat' (first | with_reducible assumption | exact Foot.sub (by decide) hm | with_reducible apply bump_foot | with_reducible apply yielded_foot | with_reducible apply Foot.ite | (with_reducible refine Foot.foldl ?_ (fun _ _ _ => ?_)) | split)

theorem mailboxCopy_foot {m : Nat} {z : State} (s0 : State) (m0 : Nat) (hm : 0x808314000 ||| m = m) (h0 : Foot m z s0) :
    Foot m z (mailboxCopy s0 m0) := by
  unfold mailboxCopy
  try dsimp only
  repeat' (first | with_reducible assumption | exact Foot.sub (by decide) hm | with_reducible apply mirrorMend_foot | with_reducible apply Foot.ite | (with_reducible refine Foot.foldl ?_ (fun _ _ _ => ?_)) | (fail_if_no_progress (with_reducible refine Foot.up_fab ?_ (Foot.sub (by decide) hm))) | split)

theorem releaseWrite_foot {m : Nat} {z : State} (s : State) (t : Tenant) (b : OutBind) (w : Staged) (hm : 0x21E800 ||| m = m) (h0 : Foot m z s) :
    Foot m z (releaseWrite s t b w) := by
  unfold releaseWrite
  try dsimp only
  repeat' (first | with_reducible assumption | exact Foot.sub (by decide) hm | with_reducible apply modTen_foot | with_reducible apply extWrite_foot | with_reducible apply mirrorWrite_foot | with_reducible apply Foot.ite | (with_reducible refine Foot.foldl ?_ (fun _ _ _ => ?_)) | split)

theorem releaseEnd_foot {m : Nat} {z : State} (s : State) (t : Tenant) (b : OutBind) (seq : Word) (hm : 0x808314800 ||| m = m) (h0 : Foot m z s) :
    Foot m z (releaseEnd s t b seq) := by
  unfold releaseEnd
  try dsimp only
  repeat' (first | with_reducible assumption | exact Foot.sub (by decide) hm | with_reducible apply modTen_foot | with_reducible apply mirrorWrite_foot | with_reducible apply mailboxCopy_foot | with_reducible apply Foot.ite | (with_reducible refine Foot.foldl ?_ (fun _ _ _ => ?_)) | split)

theorem releaseBind_foot {m : Nat} {z : State} (s : State) (t : Tenant) (o : Order) (i : Nat) (hm : 0x80831E800 ||| m = m) (h0 : Foot m z s) :
    Foot m z (releaseBind s t o i) := by
  unfold releaseBind
  try dsimp only
  repeat' (first | with_reducible assumption | exact Foot.sub (by decide) hm | with_reducible apply modTen_foot | with_reducible apply releaseWrite_foot | with_reducible apply releaseEnd_foot | with_reducible apply Foot.ite | (with_reducible refine Foot.foldl ?_ (fun _ _ _ => ?_)) | split)

theorem releaseAll_foot {m : Nat} {z : State} (s : State) (t : Tenant) (o : Order) (hm : 0x80831E800 ||| m = m) (h0 : Foot m z s) :
    Foot m z (releaseAll s t o) := by
  unfold releaseAll
  try dsimp only
  repeat' (first | with_reducible assumption | exact Foot.sub (by decide) hm | with_reducible apply releaseBind_foot | with_reducible apply Foot.ite | (with_reducible refine Foot.foldl ?_ (fun _ _ _ => ?_)) | split)

theorem commitOrder_foot {m : Nat} {z : State} (s : State) (t : Tenant) (o : Order) (hm : 0x8ACB5FBF5 ||| m = m) (h0 : Foot m z s) :
    Foot m z (commitOrder s t o) := by
  unfold commitOrder
  try dsimp only
  repeat' (first | with_reducible assumption | exact Foot.sub (by decide) hm | with_reducible apply modTen_foot | with_reducible apply readAreas_foot | with_reducible apply journalWrite_foot | with_reducible apply settle_foot | with_reducible apply afterSettle_foot | with_reducible apply mayYield_foot | with_reducible apply releaseAll_foot | with_reducible apply Foot.ite | (with_reducible refine Foot.foldl ?_ (fun _ _ _ => ?_)) | split)

theorem checkMark_foot {m : Nat} {z : State} (s : State) (hm : 0x800000000 ||| m = m) (h0 : Foot m z s) :
    Foot m z (checkMark s) := by
  unfold checkMark
  try dsimp only
  repeat' (first | with_reducible assumption | exact Foot.sub (by decide) hm | with_reducible apply tideFault_foot | with_reducible apply Foot.ite | (with_reducible refine Foot.foldl ?_ (fun _ _ _ => ?_)) | split)

theorem dualMismatch_foot {m : Nat} {z : State} (s : State) (t : Tenant) (hm : 0x88CB5EBF5 ||| m = m) (h0 : Foot m z s) :
    Foot m z (dualMismatch s t) := by
  unfold dualMismatch
  try dsimp only
  repeat' (first | with_reducible assumption | exact Foot.sub (by decide) hm | with_reducible apply setOrder_foot | with_reducible apply recompute_foot | with_reducible apply abortOrders_foot | with_reducible apply checkMark_foot | with_reducible apply Foot.ite | (with_reducible refine Foot.foldl ?_ (fun _ _ _ => ?_)) | (fail_if_no_progress (with_reducible refine Foot.up_march ?_ (Foot.sub (by decide) hm))) | split)

theorem finishOrder_foot {m : Nat} {z : State} (s : State) (t : Tenant) (hm : 0x8ACB5FBF5 ||| m = m) (h0 : Foot m z s) :
    Foot m z (finishOrder s t) := by
  unfold finishOrder
  try dsimp only
  repeat' (first | with_reducible assumption | exact Foot.sub (by decide) hm | with_reducible apply commitOrder_foot | with_reducible apply dualMismatch_foot | with_reducible apply Foot.ite | (with_reducible refine Foot.foldl ?_ (fun _ _ _ => ?_)) | split)

theorem abortTenant_foot {m : Nat} {z : State} (s : State) (t : Tenant) (fabric : Bool) (hm : 0x8ACB5FBF5 ||| m = m) (h0 : Foot m z s) :
    Foot m z (abortTenant s t fabric) := by
  unfold abortTenant
  try dsimp only
  repeat' (first | with_reducible assumption | exact Foot.sub (by decide) hm | with_reducible apply modTen_foot | with_reducible apply logEvent_foot | with_reducible apply storeRecords_foot | with_reducible apply abortAllOrders_foot | with_reducible apply mayYield_foot | with_reducible apply Foot.ite | (with_reducible refine Foot.foldl ?_ (fun _ _ _ => ?_)) | split)

end Sys2Proof.Machine
end

