-- ==== Sys2Proof/Laws/FootTrap.lean ====
section
/-! SUPPORT. Which components of the state each operation of Machine/Trap.lean can change. -/

set_option linter.unusedTactic false
set_option linter.unusedVariables false
set_option linter.unreachableTactic false

namespace Sys2Proof.Machine

theorem setPeRes_foot {m : Nat} {z : State} (s : State) (k : Nat) (v : BitVec 6) (hm : 0x10 ||| m = m) (h0 : Foot m z s) :
    Foot m z (setPeRes s k v) := by
  unfold setPeRes
  try dsimp only
  repeat' (first | with_reducible assumption | exact Foot.sub (by decide) hm | with_reducible apply setPe_foot | with_reducible apply Foot.ite | (with_reducible refine Foot.foldl ?_ (fun _ _ _ => ?_)) | split)

theorem clearResidues_foot {m : Nat} {z : State} (s : State) (ps : List TileId) (hm : 0x90 ||| m = m) (h0 : Foot m z s) :
    Foot m z (clearResidues s ps) := by
  unfold clearResidues
  try dsimp only
  repeat' (first | with_reducible assumption | exact Foot.sub (by decide) hm | with_reducible apply Foot.ite | (with_reducible refine Foot.foldl ?_ (fun _ _ _ => ?_)) | (fail_if_no_progress (with_reducible refine Foot.up_pe_peTag ?_ (Foot.sub (by decide) hm))) | split)

theorem saveSlot_foot {m : Nat} {z : State} (s : State) (k : Nat) (hm : 0x70 ||| m = m) (h0 : Foot m z s) :
    Foot m z (saveSlot s k) := by
  unfold saveSlot
  try dsimp only
  repeat' (first | with_reducible assumption | exact Foot.sub (by decide) hm | with_reducible apply setPeBit_foot | with_reducible apply Foot.ite | (with_reducible refine Foot.foldl ?_ (fun _ _ _ => ?_)) | split)

theorem loadSlot_foot {m : Nat} {z : State} (s : State) (k : Nat) (hm : 0x10 ||| m = m) (h0 : Foot m z s) :
    Foot m z (loadSlot s k) := by
  unfold loadSlot
  try dsimp only
  repeat' (first | with_reducible assumption | exact Foot.sub (by decide) hm | with_reducible apply setPe_foot | with_reducible apply setPeX_foot | with_reducible apply setPeRes_foot | with_reducible apply Foot.ite | (with_reducible refine Foot.foldl ?_ (fun _ _ _ => ?_)) | split)

theorem addTime_foot {m : Nat} {z : State} (s : State) (t : Tenant) (n : Nat) (hm : 0x800 ||| m = m) (h0 : Foot m z s) :
    Foot m z (addTime s t n) := by
  unfold addTime
  try dsimp only
  repeat' (first | with_reducible assumption | exact Foot.sub (by decide) hm | with_reducible apply modRun_foot | with_reducible apply Foot.ite | (with_reducible refine Foot.foldl ?_ (fun _ _ _ => ?_)) | split)

theorem doubleTrap_foot {m : Nat} {z : State} (s : State) (t : Tenant) (cause pc : Nat) (hm : 0x88CB5EBF5 ||| m = m) (h0 : Foot m z s) :
    Foot m z (doubleTrap s t cause pc) := by
  unfold doubleTrap
  try dsimp only
  repeat' (first | with_reducible assumption | exact Foot.sub (by decide) hm | with_reducible apply logEvent_foot | with_reducible apply abortOrders_foot | with_reducible apply Foot.ite | (with_reducible refine Foot.foldl ?_ (fun _ _ _ => ?_)) | split)

theorem trapVector_foot {m : Nat} {z : State} (s : State) (t : Tenant) (c : Nat) (hm : 0x80030A000 ||| m = m) (h0 : Foot m z s) :
    Foot m z (trapVector s t c).1 := by
  unfold trapVector
  try dsimp only
  repeat' (first | with_reducible assumption | exact Foot.sub (by decide) hm | with_reducible apply fetchProg_foot | with_reducible apply Foot.ite | (with_reducible refine Foot.foldl ?_ (fun _ _ _ => ?_)) | split)

theorem enterTrap_foot {m : Nat} {z : State} (s : State) (t : Tenant) (q : SeqId) (cause detail pc resume upc : Nat) (hm : 0x88CB5EBF5 ||| m = m) (h0 : Foot m z s) :
    Foot m z (enterTrap s t q cause detail pc resume upc) := by
  unfold enterTrap
  try dsimp only
  repeat' (first | with_reducible assumption | exact Foot.sub (by decide) hm | with_reducible apply modSqr_foot | with_reducible apply modTen_foot | with_reducible apply setPe_foot | with_reducible apply xmWrite_foot | with_reducible apply abortOrders_foot | with_reducible apply saveSlot_foot | with_reducible apply addTime_foot | with_reducible apply doubleTrap_foot | with_reducible apply trapVector_foot | with_reducible apply Foot.ite | (with_reducible refine Foot.foldl ?_ (fun _ _ _ => ?_)) | split)

theorem raiseTrap_foot {m : Nat} {z : State} (s : State) (t : Tenant) (q : SeqId) (cause detail pc resume upc : Nat) (hm : 0x88CB5EBF5 ||| m = m) (h0 : Foot m z s) :
    Foot m z (raiseTrap s t q cause detail pc resume upc) := by
  unfold raiseTrap
  try dsimp only
  repeat' (first | with_reducible assumption | exact Foot.sub (by decide) hm | with_reducible apply doubleTrap_foot | with_reducible apply enterTrap_foot | with_reducible apply Foot.ite | (with_reducible refine Foot.foldl ?_ (fun _ _ _ => ?_)) | split)

theorem takeFlagOr_foot {m : Nat} {z : State} (s : State) (t : Tenant) (f : FlagOr) (hm : 0xA00 ||| m = m) (h0 : Foot m z s) :
    Foot m z (takeFlagOr s t f) := by
  unfold takeFlagOr
  try dsimp only
  repeat' (first | with_reducible assumption | exact Foot.sub (by decide) hm | with_reducible apply setCtx_foot | with_reducible apply modRun_foot | with_reducible apply Foot.ite | (with_reducible refine Foot.foldl ?_ (fun _ _ _ => ?_)) | split)

theorem drainFlags_foot {m : Nat} {z : State} (s : State) (t : Tenant) (q : SeqId) (hm : 0xB00 ||| m = m) (h0 : Foot m z s) :
    Foot m z (drainFlags s t q) := by
  unfold drainFlags
  try dsimp only
  repeat' (first | with_reducible assumption | exact Foot.sub (by decide) hm | with_reducible apply modSqr_foot | with_reducible apply takeFlagOr_foot | with_reducible apply Foot.ite | (with_reducible refine Foot.foldl ?_ (fun _ _ _ => ?_)) | split)

theorem bindTrap_foot {m : Nat} {z : State} (s : State) (t : Tenant) (q : SeqId) (hm : 0x88CB5EBF5 ||| m = m) (h0 : Foot m z s) :
    Foot m z (bindTrap s t q) := by
  unfold bindTrap
  try dsimp only
  repeat' (first | with_reducible assumption | exact Foot.sub (by decide) hm | with_reducible apply modRun_foot | with_reducible apply enterTrap_foot | with_reducible apply Foot.ite | (with_reducible refine Foot.foldl ?_ (fun _ _ _ => ?_)) | split)

theorem boundary_foot {m : Nat} {z : State} (s : State) (t : Tenant) (q : SeqId) (hm : 0x88CB5EBF5 ||| m = m) (h0 : Foot m z s) :
    Foot m z (boundary s t q) := by
  unfold boundary
  try dsimp only
  repeat' (first | with_reducible assumption | exact Foot.sub (by decide) hm | with_reducible apply setCtx_foot | with_reducible apply enterTrap_foot | with_reducible apply bindTrap_foot | with_reducible apply Foot.ite | (with_reducible refine Foot.foldl ?_ (fun _ _ _ => ?_)) | split)

theorem advance_foot {m : Nat} {z : State} (s : State) (t : Tenant) (q : SeqId) (hm : 0x88CB5EBF5 ||| m = m) (h0 : Foot m z s) :
    Foot m z (advance s t q) := by
  unfold advance
  try dsimp only
  repeat' (first | with_reducible assumption | exact Foot.sub (by decide) hm | with_reducible apply modSqr_foot | with_reducible apply raiseTrap_foot | with_reducible apply Foot.ite | (with_reducible refine Foot.foldl ?_ (fun _ _ _ => ?_)) | split)

theorem jump_foot {m : Nat} {z : State} (s : State) (t : Tenant) (q : SeqId) (tgt : Nat) (hm : 0x88CB5EBF5 ||| m = m) (h0 : Foot m z s) :
    Foot m z (jump s t q tgt) := by
  unfold jump
  try dsimp only
  repeat' (first | with_reducible assumption | exact Foot.sub (by decide) hm | with_reducible apply modSqr_foot | with_reducible apply raiseTrap_foot | with_reducible apply Foot.ite | (with_reducible refine Foot.foldl ?_ (fun _ _ _ => ?_)) | split)

theorem returnTrap_foot {m : Nat} {z : State} (s : State) (t : Tenant) (q : SeqId) (hm : 0x88CB5EBF5 ||| m = m) (h0 : Foot m z s) :
    Foot m z (returnTrap s t q) := by
  unfold returnTrap
  try dsimp only
  repeat' (first | with_reducible assumption | exact Foot.sub (by decide) hm | with_reducible apply modSqr_foot | with_reducible apply latchBad_foot | with_reducible apply loadSlot_foot | with_reducible apply doubleTrap_foot | with_reducible apply Foot.ite | (with_reducible refine Foot.foldl ?_ (fun _ _ _ => ?_)) | split)

end Sys2Proof.Machine
end

