-- ==== Sys2Proof/Laws/FootFailover.lean ====
section
/-! SUPPORT. Which components of the state each operation of Machine/Failover.lean can change. -/

set_option linter.unusedTactic false
set_option linter.unusedVariables false
set_option linter.unreachableTactic false

namespace Sys2Proof.Machine

theorem setTileSvc_foot {m : Nat} {z : State} (s : State) (p : TileId) (v : TileService) (hm : 0x800000004 ||| m = m) (h0 : Foot m z s) :
    Foot m z (setTileSvc s p v) := by
  unfold setTileSvc
  try dsimp only
  repeat' (first | with_reducible assumption | exact Foot.sub (by decide) hm | with_reducible apply modTile_foot | with_reducible apply logEvent_foot | with_reducible apply Foot.ite | (with_reducible refine Foot.foldl ?_ (fun _ _ _ => ?_)) | split)

theorem tileDrained_foot {m : Nat} {z : State} (s : State) (p : TileId) (hm : 0x800000004 ||| m = m) (h0 : Foot m z s) :
    Foot m z (tileDrained s p) := by
  unfold tileDrained
  try dsimp only
  repeat' (first | with_reducible assumption | exact Foot.sub (by decide) hm | with_reducible apply modTile_foot | with_reducible apply setTileSvc_foot | with_reducible apply Foot.ite | (with_reducible refine Foot.foldl ?_ (fun _ _ _ => ?_)) | split)

theorem tileMarched_foot {m : Nat} {z : State} (s : State) (p : TileId) (passed : Bool) (hm : 0x800000004 ||| m = m) (h0 : Foot m z s) :
    Foot m z (tileMarched s p passed) := by
  unfold tileMarched
  try dsimp only
  repeat' (first | with_reducible assumption | exact Foot.sub (by decide) hm | with_reducible apply modTile_foot | with_reducible apply setTileSvc_foot | with_reducible apply Foot.ite | (with_reducible refine Foot.foldl ?_ (fun _ _ _ => ?_)) | split)

theorem tileFault_foot {m : Nat} {z : State} (s : State) (p : TileId) (hm : 0x8ACB5EBFD ||| m = m) (h0 : Foot m z s) :
    Foot m z (tileFault s p) := by
  unfold tileFault
  try dsimp only
  repeat' (first | with_reducible assumption | exact Foot.sub (by decide) hm | with_reducible apply modTile_foot | with_reducible apply modTen_foot | with_reducible apply setPhys_foot | with_reducible apply partFault_foot | with_reducible apply sendClear_foot | with_reducible apply retargetFab_foot | with_reducible apply wakePolder_foot | with_reducible apply powerDown_foot | with_reducible apply recompute_foot | with_reducible apply abortAllOrders_foot | with_reducible apply setTileSvc_foot | with_reducible apply tileDrained_foot | with_reducible apply Foot.ite | (with_reducible refine Foot.foldl ?_ (fun _ _ _ => ?_)) | split)

theorem setSeqSvc_foot {m : Nat} {z : State} (s : State) (q : SeqId) (v : SeqService) (hm : 0x800000100 ||| m = m) (h0 : Foot m z s) :
    Foot m z (setSeqSvc s q v) := by
  unfold setSeqSvc
  try dsimp only
  repeat' (first | with_reducible assumption | exact Foot.sub (by decide) hm | with_reducible apply modSqr_foot | with_reducible apply logEvent_foot | with_reducible apply Foot.ite | (with_reducible refine Foot.foldl ?_ (fun _ _ _ => ?_)) | split)

theorem patchStop_foot {m : Nat} {z : State} (s : State) (hm : 0x820000D00 ||| m = m) (h0 : Foot m z s) :
    Foot m z (patchStop s) := by
  unfold patchStop
  try dsimp only
  repeat' (first | with_reducible assumption | exact Foot.sub (by decide) hm | with_reducible apply emergency_foot | with_reducible apply setSeqSvc_foot | with_reducible apply Foot.ite | (with_reducible refine Foot.foldl ?_ (fun _ _ _ => ?_)) | (fail_if_no_progress (with_reducible refine Foot.up_mc ?_ (Foot.sub (by decide) hm))) | split)

theorem seqFault_foot {m : Nat} {z : State} (s : State) (q : SeqId) (hm : 0x8ACB5EFF5 ||| m = m) (h0 : Foot m z s) :
    Foot m z (seqFault s q) := by
  unfold seqFault
  try dsimp only
  repeat' (first | with_reducible assumption | exact Foot.sub (by decide) hm | with_reducible apply modSqr_foot | with_reducible apply modTen_foot | with_reducible apply partFault_foot | with_reducible apply closeNi_foot | with_reducible apply sendClear_foot | with_reducible apply recompute_foot | with_reducible apply abortAllOrders_foot | with_reducible apply setSeqSvc_foot | with_reducible apply patchStop_foot | with_reducible apply Foot.ite | (with_reducible refine Foot.foldl ?_ (fun _ _ _ => ?_)) | split)

theorem seqDrained_foot {m : Nat} {z : State} (s : State) (q : SeqId) (hm : 0x800800100 ||| m = m) (h0 : Foot m z s) :
    Foot m z (seqDrained s q) := by
  unfold seqDrained
  try dsimp only
  repeat' (first | with_reducible assumption | exact Foot.sub (by decide) hm | with_reducible apply modSqr_foot | with_reducible apply setNiSt_foot | with_reducible apply openNi_foot | with_reducible apply setSeqSvc_foot | with_reducible apply Foot.ite | (with_reducible refine Foot.foldl ?_ (fun _ _ _ => ?_)) | split)

theorem clearLatches_foot {m : Nat} {z : State} (s : State) (p : TileId) (hm : 0x10 ||| m = m) (h0 : Foot m z s) :
    Foot m z (clearLatches s p) := by
  unfold clearLatches
  try dsimp only
  repeat' (first | with_reducible assumption | exact Foot.sub (by decide) hm | with_reducible apply Foot.ite | (with_reducible refine Foot.foldl ?_ (fun _ _ _ => ?_)) | (fail_if_no_progress (with_reducible refine Foot.up_pe ?_ (Foot.sub (by decide) hm))) | split)

theorem linkSample_foot {m : Nat} {z : State} (s : State) (ps bad : List TileId) (hm : 0x8ACB5EBFD ||| m = m) (h0 : Foot m z s) :
    Foot m z (linkSample s ps bad) := by
  unfold linkSample
  try dsimp only
  repeat' (first | with_reducible assumption | exact Foot.sub (by decide) hm | with_reducible apply modTile_foot | with_reducible apply takeMark_foot | with_reducible apply tileFault_foot | with_reducible apply Foot.ite | (with_reducible refine Foot.foldl ?_ (fun _ _ _ => ?_)) | split)

theorem trapFrameLost_foot {m : Nat} {z : State} (s : State) (t : Tenant) (hm : 0x88CB5EBF5 ||| m = m) (h0 : Foot m z s) :
    Foot m z (trapFrameLost s t) := by
  unfold trapFrameLost
  try dsimp only
  repeat' (first | with_reducible assumption | exact Foot.sub (by decide) hm | with_reducible apply readFailed_foot | with_reducible apply takeMark_foot | with_reducible apply recompute_foot | with_reducible apply checkMark_foot | with_reducible apply Foot.ite | (with_reducible refine Foot.foldl ?_ (fun _ _ _ => ?_)) | split)

theorem machineCheck_foot {m : Nat} {z : State} (s : State) (src : McSource) (hm : 0x8ACB5EFFD ||| m = m) (h0 : Foot m z s) :
    Foot m z (machineCheck s src) := by
  unfold machineCheck
  try dsimp only
  repeat' (first | with_reducible assumption | exact Foot.sub (by decide) hm | with_reducible apply modTile_foot | with_reducible apply modSqr_foot | with_reducible apply setCtx_foot | with_reducible apply logEvent_foot | with_reducible apply recompute_foot | with_reducible apply checkMark_foot | with_reducible apply tileFault_foot | with_reducible apply seqFault_foot | with_reducible apply clearLatches_foot | with_reducible apply Foot.ite | (with_reducible refine Foot.foldl ?_ (fun _ _ _ => ?_)) | split)

end Sys2Proof.Machine
end

