-- ==== Sys2Proof/Laws/FootAis.lean ====
section
/-! SUPPORT. Which components of the state each operation of Machine/Ais.lean can change. -/

set_option linter.unusedTactic false
set_option linter.unusedVariables false
set_option linter.unreachableTactic false

namespace Sys2Proof.Machine

theorem fetchAis_foot {m : Nat} {z : State} (s : State) (t : Tenant) (q : SeqId) (hm : 0x80030A000 ||| m = m) (h0 : Foot m z s) :
    Foot m z (fetchAis s t q).1 := by
  unfold fetchAis
  try dsimp only
  repeat' (first | with_reducible assumption | exact Foot.sub (by decide) hm | with_reducible apply fetchProg_foot | with_reducible apply Foot.ite | (with_reducible refine Foot.foldl ?_ (fun _ _ _ => ?_)) | split)

theorem fetchLost_foot {m : Nat} {z : State} (s : State) (t : Tenant) (hm : 0x88CB5EBF5 ||| m = m) (h0 : Foot m z s) :
    Foot m z (fetchLost s t) := by
  unfold fetchLost
  try dsimp only
  repeat' (first | with_reducible assumption | exact Foot.sub (by decide) hm | with_reducible apply modMemSt_foot | with_reducible apply abortOrders_foot | with_reducible apply Foot.ite | (with_reducible refine Foot.foldl ?_ (fun _ _ _ => ?_)) | split)

theorem touch_foot {m : Nat} {z : State} (s : State) (g : Nat) (es : List Elem) (f : Fld) (hm : 0x10 ||| m = m) (h0 : Foot m z s) :
    Foot m z (touch s g es f) := by
  unfold touch
  try dsimp only
  repeat' (first | with_reducible assumption | exact Foot.sub (by decide) hm | with_reducible apply latchBad_foot | with_reducible apply Foot.ite | (with_reducible refine Foot.foldl ?_ (fun _ _ _ => ?_)) | split)

theorem startScan_foot {m : Nat} {z : State} (s : State) (t : Tenant) (q : SeqId) (v : BitVec 16) (m0 : MicroAddr) (w : Nat) (hm : 0x110 ||| m = m) (h0 : Foot m z s) :
    Foot m z (startScan s t q v m0 w) := by
  unfold startScan
  try dsimp only
  repeat' (first | with_reducible assumption | exact Foot.sub (by decide) hm | with_reducible apply modSqr_foot | with_reducible apply touch_foot | with_reducible apply Foot.ite | (with_reducible refine Foot.foldl ?_ (fun _ _ _ => ?_)) | split)

theorem dispatch_foot {m : Nat} {z : State} (s : State) (t : Tenant) (q : SeqId) (w : DWord) (hm : 0x190 ||| m = m) (h0 : Foot m z s) :
    Foot m z (dispatch s t q w) := by
  unfold dispatch
  try dsimp only
  repeat' (first | with_reducible assumption | exact Foot.sub (by decide) hm | with_reducible apply modSqr_foot | with_reducible apply clearResidues_foot | with_reducible apply startScan_foot | with_reducible apply Foot.ite | (with_reducible refine Foot.foldl ?_ (fun _ _ _ => ?_)) | split)

theorem afterRoutine_foot {m : Nat} {z : State} (s : State) (t : Tenant) (q : SeqId) (hm : 0x181 ||| m = m) (h0 : Foot m z s) :
    Foot m z (afterRoutine s t q) := by
  unfold afterRoutine
  try dsimp only
  repeat' (first | with_reducible assumption | exact Foot.sub (by decide) hm | with_reducible apply modSqr_foot | with_reducible apply bump_foot | with_reducible apply scramble_foot | with_reducible apply Foot.ite | (with_reducible refine Foot.foldl ?_ (fun _ _ _ => ?_)) | split)

theorem runWord_foot {m : Nat} {z : State} (s : State) (t : Tenant) (q : SeqId) (w : DWord) (chk : Check) (eff : State → State) (hm : 0x88CB5EBF5 ||| m = m) (h0 : Foot m z s)(hs : ∀ u, Foot m z u → Foot m z (eff u)) :
    Foot m z (runWord s t q w chk eff) := by
  unfold runWord
  try dsimp only
  repeat' (first | with_reducible assumption | exact Foot.sub (by decide) hm | with_reducible apply modSqr_foot | with_reducible apply addTime_foot | with_reducible apply raiseTrap_foot | with_reducible apply dispatch_foot | with_reducible apply Foot.ite | (with_reducible refine Foot.foldl ?_ (fun _ _ _ => ?_)) | with_reducible apply hs | split)

theorem runAis_foot {m : Nat} {z : State} (s : State) (t : Tenant) (w : DWord) (chk : SeqId → Check) (eff : SeqId → State → State)
    (hm : 0x88CB5EBF5 ||| m = m) (h0 : Foot m z s) (hs : ∀ q u, Foot m z u → Foot m z (eff q u)) : Foot m z (runAis s t w chk eff) := by
  unfold runAis
  split
  · exact h0
  · rename_i q _
    have h1 := fetchAis_foot s t q (Foot.sub (by decide) hm) h0
    split
    · exact boundary_foot _ _ _ (Foot.sub (by decide) hm) h0
    · split
      · rename_i e; rw [e] at h1
        exact fetchLost_foot _ _ (Foot.sub (by decide) hm) h1
      · rename_i e; rw [e] at h1
        exact Foot.ite (runWord_foot _ _ _ _ _ _ (Foot.sub (by decide) hm) h1 fun u h => hs _ u h)
          (Foot.ite (runWord_foot _ _ _ _ _ _ (Foot.sub (by decide) hm) h1 fun _ h => h) h0)

theorem finish_foot {m : Nat} {z : State} (s : State) (t : Tenant) (q : SeqId) (ac : Nat) (hm : 0x88CB5EBF5 ||| m = m) (h0 : Foot m z s) :
    Foot m z (finish s t q ac) := by
  unfold finish
  try dsimp only
  repeat' (first | with_reducible assumption | exact Foot.sub (by decide) hm | with_reducible apply addTime_foot | with_reducible apply boundary_foot | with_reducible apply advance_foot | with_reducible apply afterRoutine_foot | with_reducible apply Foot.ite | (with_reducible refine Foot.foldl ?_ (fun _ _ _ => ?_)) | split)

theorem touchSrc_foot {m : Nat} {z : State} (s : State) (g : Nat) (es : List Elem) (b : Src) (hm : 0x10 ||| m = m) (h0 : Foot m z s) :
    Foot m z (touchSrc s g es b) := by
  unfold touchSrc
  try dsimp only
  repeat' (first | with_reducible assumption | exact Foot.sub (by decide) hm | with_reducible apply touch_foot | with_reducible apply Foot.ite | (with_reducible refine Foot.foldl ?_ (fun _ _ _ => ?_)) | split)

theorem writeDest_foot {m : Nat} {z : State} (s0 : State) (g : Nat) (d : Fld) (u : State) (e : Elem) (v : Nat) (hm : 0x74 ||| m = m) (h0 : Foot m z s0) (h1 : Foot m z u) :
    Foot m z (writeDest s0 g d u e v) := by
  unfold writeDest
  try dsimp only
  repeat' (first | with_reducible assumption | exact Foot.sub (by decide) hm | with_reducible apply modTile_foot | with_reducible apply writeField_foot | with_reducible apply setSticky_foot | with_reducible apply Foot.ite | (with_reducible refine Foot.foldl ?_ (fun _ _ _ => ?_)) | split)

theorem mapLanes_foot {m : Nat} {z : State} (s : State) (g : Nat) (e : Elem) (f : PE → PE) (hm : 0x10 ||| m = m) (h0 : Foot m z s) :
    Foot m z (mapLanes s g e f) := by
  unfold mapLanes
  try dsimp only
  repeat' (first | with_reducible assumption | exact Foot.sub (by decide) hm | with_reducible apply setPe_foot | with_reducible apply Foot.ite | (with_reducible refine Foot.foldl ?_ (fun _ _ _ => ?_)) | split)

theorem setC_foot {m : Nat} {z : State} (s : State) (g : Nat) (e : Elem) (v : Bool) (hm : 0x10 ||| m = m) (h0 : Foot m z s) :
    Foot m z (setC s g e v) := by
  unfold setC
  try dsimp only
  repeat' (first | with_reducible assumption | exact Foot.sub (by decide) hm | with_reducible apply mapLanes_foot | with_reducible apply Foot.ite | (with_reducible refine Foot.foldl ?_ (fun _ _ _ => ?_)) | split)

theorem setF_foot {m : Nat} {z : State} (s : State) (g : Nat) (e : Elem) (v : Bool) (hm : 0x10 ||| m = m) (h0 : Foot m z s) :
    Foot m z (setF s g e v) := by
  unfold setF
  try dsimp only
  repeat' (first | with_reducible assumption | exact Foot.sub (by decide) hm | with_reducible apply mapLanes_foot | with_reducible apply Foot.ite | (with_reducible refine Foot.foldl ?_ (fun _ _ _ => ?_)) | split)

theorem setK_foot {m : Nat} {z : State} (s : State) (g : Nat) (e : Elem) (v : Bool) (hm : 0x10 ||| m = m) (h0 : Foot m z s) :
    Foot m z (setK s g e v) := by
  unfold setK
  try dsimp only
  repeat' (first | with_reducible assumption | exact Foot.sub (by decide) hm | with_reducible apply mapLanes_foot | with_reducible apply Foot.ite | (with_reducible refine Foot.foldl ?_ (fun _ _ _ => ?_)) | split)

theorem setP_foot {m : Nat} {z : State} (s : State) (g : Nat) (e : Elem) (v : BitVec 12) (hm : 0x10 ||| m = m) (h0 : Foot m z s) :
    Foot m z (setP s g e v) := by
  unfold setP
  try dsimp only
  repeat' (first | with_reducible assumption | exact Foot.sub (by decide) hm | with_reducible apply mapLanes_foot | with_reducible apply Foot.ite | (with_reducible refine Foot.foldl ?_ (fun _ _ _ => ?_)) | split)

theorem freeC_foot {m : Nat} {z : State} (s0 : State) (g : Nat) (s : State) (e : Elem) (hm : 0x10 ||| m = m) (h0 : Foot m z s0) (h1 : Foot m z s) :
    Foot m z (freeC s0 g s e) := by
  unfold freeC
  try dsimp only
  repeat' (first | with_reducible assumption | exact Foot.sub (by decide) hm | with_reducible apply setC_foot | with_reducible apply Foot.ite | (with_reducible refine Foot.foldl ?_ (fun _ _ _ => ?_)) | split)

theorem freeF_foot {m : Nat} {z : State} (s0 : State) (g : Nat) (s : State) (e : Elem) (hm : 0x10 ||| m = m) (h0 : Foot m z s0) (h1 : Foot m z s) :
    Foot m z (freeF s0 g s e) := by
  unfold freeF
  try dsimp only
  repeat' (first | with_reducible assumption | exact Foot.sub (by decide) hm | with_reducible apply setPe_foot | with_reducible apply Foot.ite | (with_reducible refine Foot.foldl ?_ (fun _ _ _ => ?_)) | split)

end Sys2Proof.Machine
end

