-- ==== Sys2Proof/Laws/FootBool.lean ====
section
/-! SUPPORT. Which components of the state each operation of Machine/Bool.lean can change. -/

set_option linter.unusedTactic false
set_option linter.unusedVariables false
set_option linter.unreachableTactic false

namespace Sys2Proof.Machine

theorem touchAB_foot {m : Nat} {z : State} (s : State) (g : Nat) (es : List Elem) (f : FmtA) (b : Src) (hm : 0x10 ||| m = m) (h0 : Foot m z s) :
    Foot m z (touchAB s g es f b) := by
  unfold touchAB
  try dsimp only
  repeat' (first | with_reducible assumption | exact Foot.sub (by decide) hm | with_reducible apply touch_foot | with_reducible apply touchSrc_foot | with_reducible apply Foot.ite | (with_reducible refine Foot.foldl ?_ (fun _ _ _ => ?_)) | split)

theorem contextFn_foot {m : Nat} {z : State} (s : State) (t : Tenant) (f : FmtA) (fn : Nat) (op : Bool → Bool → Bool) (hm : 0x88CB5EBF5 ||| m = m) (h0 : Foot m z s) :
    Foot m z (contextFn s t f fn op) := by
  unfold contextFn
  try dsimp only
  repeat' (first | with_reducible assumption | exact Foot.sub (by decide) hm | with_reducible apply runAis_foot | with_reducible apply finish_foot | with_reducible apply setK_foot | with_reducible apply touchAB_foot | with_reducible apply Foot.ite | (with_reducible refine Foot.foldl ?_ (fun _ _ _ => ?_)) | intro _ | split)

theorem noOperandK_foot {m : Nat} {z : State} (s : State) (t : Tenant) (f : FmtA) (fn : Nat) (op : Bool → Bool) (hm : 0x88CB5EBF5 ||| m = m) (h0 : Foot m z s) :
    Foot m z (noOperandK s t f fn op) := by
  unfold noOperandK
  try dsimp only
  repeat' (first | with_reducible assumption | exact Foot.sub (by decide) hm | with_reducible apply runAis_foot | with_reducible apply finish_foot | with_reducible apply setK_foot | with_reducible apply Foot.ite | (with_reducible refine Foot.foldl ?_ (fun _ _ _ => ?_)) | intro _ | split)

theorem execLogic_foot {m : Nat} {z : State} (t : Tenant) (f : FmtA) (s : State) (hm : 0x88CB5EBF5 ||| m = m) (h0 : Foot m z s) :
    ∃ u, execLogic t f s = .next u ∧ Foot m z u := by
  unfold execLogic
  try dsimp only
  repeat' (first | (with_reducible refine ⟨_, rfl, ?_⟩) | with_reducible assumption | exact Foot.sub (by decide) hm | with_reducible apply touch_foot | with_reducible apply runAis_foot | with_reducible apply finish_foot | with_reducible apply touchSrc_foot | with_reducible apply writeDest_foot | with_reducible apply Foot.ite | (with_reducible refine Foot.foldl ?_ (fun _ _ _ => ?_)) | intro _ | split)

theorem execKset_foot {m : Nat} {z : State} (t : Tenant) (f : FmtA) (s : State) (hm : 0x88CB5EBF5 ||| m = m) (h0 : Foot m z s) :
    ∃ u, execKset t f s = .next u ∧ Foot m z u := by
  unfold execKset
  try dsimp only
  repeat' (first | (with_reducible refine ⟨_, rfl, ?_⟩) | with_reducible assumption | exact Foot.sub (by decide) hm | with_reducible apply contextFn_foot | with_reducible apply Foot.ite | (with_reducible refine Foot.foldl ?_ (fun _ _ _ => ?_)) | split)

theorem execKand_foot {m : Nat} {z : State} (t : Tenant) (f : FmtA) (s : State) (hm : 0x88CB5EBF5 ||| m = m) (h0 : Foot m z s) :
    ∃ u, execKand t f s = .next u ∧ Foot m z u := by
  unfold execKand
  try dsimp only
  repeat' (first | (with_reducible refine ⟨_, rfl, ?_⟩) | with_reducible assumption | exact Foot.sub (by decide) hm | with_reducible apply contextFn_foot | with_reducible apply Foot.ite | (with_reducible refine Foot.foldl ?_ (fun _ _ _ => ?_)) | split)

theorem execKor_foot {m : Nat} {z : State} (t : Tenant) (f : FmtA) (s : State) (hm : 0x88CB5EBF5 ||| m = m) (h0 : Foot m z s) :
    ∃ u, execKor t f s = .next u ∧ Foot m z u := by
  unfold execKor
  try dsimp only
  repeat' (first | (with_reducible refine ⟨_, rfl, ?_⟩) | with_reducible assumption | exact Foot.sub (by decide) hm | with_reducible apply contextFn_foot | with_reducible apply Foot.ite | (with_reducible refine Foot.foldl ?_ (fun _ _ _ => ?_)) | split)

theorem execKall_foot {m : Nat} {z : State} (t : Tenant) (f : FmtA) (s : State) (hm : 0x88CB5EBF5 ||| m = m) (h0 : Foot m z s) :
    ∃ u, execKall t f s = .next u ∧ Foot m z u := by
  unfold execKall
  try dsimp only
  repeat' (first | (with_reducible refine ⟨_, rfl, ?_⟩) | with_reducible assumption | exact Foot.sub (by decide) hm | with_reducible apply noOperandK_foot | with_reducible apply Foot.ite | (with_reducible refine Foot.foldl ?_ (fun _ _ _ => ?_)) | split)

theorem execKnot_foot {m : Nat} {z : State} (t : Tenant) (f : FmtA) (s : State) (hm : 0x88CB5EBF5 ||| m = m) (h0 : Foot m z s) :
    ∃ u, execKnot t f s = .next u ∧ Foot m z u := by
  unfold execKnot
  try dsimp only
  repeat' (first | (with_reducible refine ⟨_, rfl, ?_⟩) | with_reducible assumption | exact Foot.sub (by decide) hm | with_reducible apply noOperandK_foot | with_reducible apply Foot.ite | (with_reducible refine Foot.foldl ?_ (fun _ _ _ => ?_)) | split)

theorem execFset_foot {m : Nat} {z : State} (t : Tenant) (f : FmtA) (s : State) (hm : 0x88CB5EBF5 ||| m = m) (h0 : Foot m z s) :
    ∃ u, execFset t f s = .next u ∧ Foot m z u := by
  unfold execFset
  try dsimp only
  repeat' (first | (with_reducible refine ⟨_, rfl, ?_⟩) | with_reducible assumption | exact Foot.sub (by decide) hm | with_reducible apply runAis_foot | with_reducible apply finish_foot | with_reducible apply setF_foot | with_reducible apply touchAB_foot | with_reducible apply Foot.ite | (with_reducible refine Foot.foldl ?_ (fun _ _ _ => ?_)) | intro _ | split)

end Sys2Proof.Machine
end

