-- ==== Sys2Proof/Laws/FootReduce.lean ====
section
/-! SUPPORT. Which components of the state each operation of Machine/Reduce.lean can change. -/

set_option linter.unusedTactic false
set_option linter.unusedVariables false
set_option linter.unreachableTactic false

namespace Sys2Proof.Machine

theorem reduce_foot {m : Nat} {z : State} (s : State) (t : Tenant) (opFn : Nat) (f : FmtA) (bad : Bool) (ac : Nat) (val : List Nat → Word) (hm : 0x88CB5EBF5 ||| m = m) (h0 : Foot m z s) :
    Foot m z (reduce s t opFn f bad ac val) := by
  unfold reduce
  try dsimp only
  repeat' (first | with_reducible assumption | exact Foot.sub (by decide) hm | with_reducible apply setSreg_foot | with_reducible apply touch_foot | with_reducible apply runAis_foot | with_reducible apply finish_foot | with_reducible apply freeF_foot | with_reducible apply Foot.ite | (with_reducible refine Foot.foldl ?_ (fun _ _ _ => ?_)) | intro _ | split)

theorem execRany_foot {m : Nat} {z : State} (t : Tenant) (f : FmtA) (s : State) (hm : 0x88CB5EBF5 ||| m = m) (h0 : Foot m z s) :
    ∃ u, execRany t f s = .next u ∧ Foot m z u := by
  unfold execRany
  try dsimp only
  repeat' (first | (with_reducible refine ⟨_, rfl, ?_⟩) | with_reducible assumption | exact Foot.sub (by decide) hm | with_reducible apply setSreg_foot | with_reducible apply touch_foot | with_reducible apply runAis_foot | with_reducible apply finish_foot | with_reducible apply setF_foot | with_reducible apply Foot.ite | (with_reducible refine Foot.foldl ?_ (fun _ _ _ => ?_)) | intro _ | split)

theorem execRmax_foot {m : Nat} {z : State} (t : Tenant) (f : FmtA) (s : State) (hm : 0x88CB5EBF5 ||| m = m) (h0 : Foot m z s) :
    ∃ u, execRmax t f s = .next u ∧ Foot m z u := by
  unfold execRmax
  try dsimp only
  repeat' (first | (with_reducible refine ⟨_, rfl, ?_⟩) | with_reducible assumption | exact Foot.sub (by decide) hm | with_reducible apply reduce_foot | with_reducible apply Foot.ite | (with_reducible refine Foot.foldl ?_ (fun _ _ _ => ?_)) | split)

theorem execRmin_foot {m : Nat} {z : State} (t : Tenant) (f : FmtA) (s : State) (hm : 0x88CB5EBF5 ||| m = m) (h0 : Foot m z s) :
    ∃ u, execRmin t f s = .next u ∧ Foot m z u := by
  unfold execRmin
  try dsimp only
  repeat' (first | (with_reducible refine ⟨_, rfl, ?_⟩) | with_reducible assumption | exact Foot.sub (by decide) hm | with_reducible apply reduce_foot | with_reducible apply Foot.ite | (with_reducible refine Foot.foldl ?_ (fun _ _ _ => ?_)) | split)

theorem execRsum_foot {m : Nat} {z : State} (t : Tenant) (f : FmtA) (s : State) (hm : 0x88CB5EBF5 ||| m = m) (h0 : Foot m z s) :
    ∃ u, execRsum t f s = .next u ∧ Foot m z u := by
  unfold execRsum
  try dsimp only
  repeat' (first | (with_reducible refine ⟨_, rfl, ?_⟩) | with_reducible assumption | exact Foot.sub (by decide) hm | with_reducible apply setSreg_foot | with_reducible apply takeMark_foot | with_reducible apply dualMismatch_foot | with_reducible apply addTime_foot | with_reducible apply touch_foot | with_reducible apply runAis_foot | with_reducible apply finish_foot | with_reducible apply freeF_foot | with_reducible apply Foot.ite | (with_reducible refine Foot.foldl ?_ (fun _ _ _ => ?_)) | intro _ | split)

end Sys2Proof.Machine
end

