-- ==== Sys2Proof/Laws/FootControl.lean ====
section
/-! SUPPORT. Which components of the state each operation of Machine/Control.lean can change. -/

set_option linter.unusedTactic false
set_option linter.unusedVariables false
set_option linter.unreachableTactic false

namespace Sys2Proof.Machine

theorem afterFlags_foot {m : Nat} {z : State} (s : State) (t : Tenant) (q : SeqId) (eff : State → State) (hm : 0x88CB5EBF5 ||| m = m) (h0 : Foot m z s)(hs : ∀ u, Foot m z u → Foot m z (eff u)) :
    Foot m z (afterFlags s t q eff) := by
  unfold afterFlags
  try dsimp only
  repeat' (first | with_reducible assumption | exact Foot.sub (by decide) hm | with_reducible apply drainFlags_foot | with_reducible apply boundary_foot | with_reducible apply Foot.ite | (with_reducible refine Foot.foldl ?_ (fun _ _ _ => ?_)) | with_reducible apply hs | split)

theorem ckTouch_foot {m : Nat} {z : State} (s : State) (t : Tenant) (lb len : Nat) (hm : 0x10 ||| m = m) (h0 : Foot m z s) :
    Foot m z (ckTouch s t lb len) := by
  unfold ckTouch
  try dsimp only
  repeat' (first | with_reducible assumption | exact Foot.sub (by decide) hm | with_reducible apply latchBad_foot | with_reducible apply Foot.ite | (with_reducible refine Foot.foldl ?_ (fun _ _ _ => ?_)) | split)

theorem execCkpt_foot {m : Nat} {z : State} (t : Tenant) (f : FmtA) (s : State) (hm : 0x88CB7EBF5 ||| m = m) (h0 : Foot m z s) :
    ∃ u, execCkpt t f s = .next u ∧ Foot m z u := by
  unfold execCkpt
  try dsimp only
  repeat' (first | (with_reducible refine ⟨_, rfl, ?_⟩) | with_reducible assumption | exact Foot.sub (by decide) hm | with_reducible apply refill_foot | with_reducible apply journalWrite_foot | with_reducible apply takeMark_foot | with_reducible apply modRun_foot | with_reducible apply endWindow_foot | with_reducible apply dualMismatch_foot | with_reducible apply addTime_foot | with_reducible apply boundary_foot | with_reducible apply advance_foot | with_reducible apply afterRoutine_foot | with_reducible apply runAis_foot | with_reducible apply afterFlags_foot | with_reducible apply ckTouch_foot | with_reducible apply Foot.ite | (with_reducible refine Foot.foldl ?_ (fun _ _ _ => ?_)) | intro _ | split)

theorem execFbar_foot {m : Nat} {z : State} (t : Tenant) (f : FmtA) (s : State) (hm : 0x88CB5EBF5 ||| m = m) (h0 : Foot m z s) :
    ∃ u, execFbar t f s = .next u ∧ Foot m z u := by
  unfold execFbar
  try dsimp only
  repeat' (first | (with_reducible refine ⟨_, rfl, ?_⟩) | with_reducible assumption | exact Foot.sub (by decide) hm | with_reducible apply runAis_foot | with_reducible apply finish_foot | with_reducible apply afterFlags_foot | with_reducible apply Foot.ite | (with_reducible refine Foot.foldl ?_ (fun _ _ _ => ?_)) | intro _ | split)

theorem endAisWait_foot {m : Nat} {z : State} (s : State) (t : Tenant) (q : SeqId) (a : AisWait) (status : Word) (hm : 0x88CB5EBF5 ||| m = m) (h0 : Foot m z s) :
    Foot m z (endAisWait s t q a status) := by
  unfold endAisWait
  try dsimp only
  repeat' (first | with_reducible assumption | exact Foot.sub (by decide) hm | with_reducible apply modSqr_foot | with_reducible apply setSreg_foot | with_reducible apply journalWrite_foot | with_reducible apply modRun_foot | with_reducible apply finish_foot | with_reducible apply Foot.ite | (with_reducible refine Foot.foldl ?_ (fun _ _ _ => ?_)) | split)

theorem startAisWait_foot {m : Nat} {z : State} (s : State) (t : Tenant) (q : SeqId) (cond : BitVec 3) (imm : BitVec 12) (a : AisWait) (hm : 0x88CB5EBF5 ||| m = m) (h0 : Foot m z s) :
    Foot m z (startAisWait s t q cond imm a) := by
  unfold startAisWait
  try dsimp only
  repeat' (first | with_reducible assumption | exact Foot.sub (by decide) hm | with_reducible apply modSqr_foot | with_reducible apply setSreg_foot | with_reducible apply setOrder_foot | with_reducible apply finish_foot | with_reducible apply endAisWait_foot | with_reducible apply Foot.ite | (with_reducible refine Foot.foldl ?_ (fun _ _ _ => ?_)) | split)

theorem execWaitev_foot {m : Nat} {z : State} (t : Tenant) (f : FmtA) (s : State) (hm : 0x88CB5EBF5 ||| m = m) (h0 : Foot m z s) :
    ∃ u, execWaitev t f s = .next u ∧ Foot m z u := by
  unfold execWaitev
  try dsimp only
  repeat' (first | (with_reducible refine ⟨_, rfl, ?_⟩) | with_reducible assumption | exact Foot.sub (by decide) hm | with_reducible apply runAis_foot | with_reducible apply startAisWait_foot | with_reducible apply Foot.ite | (with_reducible refine Foot.foldl ?_ (fun _ _ _ => ?_)) | intro _ | split)

theorem execWaitevLimitExpired_foot {m : Nat} {z : State} (q : SeqId) (s : State) (hm : 0x88CB5EBF5 ||| m = m) (h0 : Foot m z s) :
    ∃ u, execWaitevLimitExpired q s = .next u ∧ Foot m z u := by
  unfold execWaitevLimitExpired
  try dsimp only
  repeat' (first | (with_reducible refine ⟨_, rfl, ?_⟩) | with_reducible assumption | exact Foot.sub (by decide) hm | with_reducible apply endAisWait_foot | with_reducible apply Foot.ite | (with_reducible refine Foot.foldl ?_ (fun _ _ _ => ?_)) | split)

theorem execTrap_foot {m : Nat} {z : State} (t : Tenant) (f : FmtA) (s : State) (hm : 0x88CB5EBF5 ||| m = m) (h0 : Foot m z s) :
    ∃ u, execTrap t f s = .next u ∧ Foot m z u := by
  unfold execTrap
  try dsimp only
  repeat' (first | (with_reducible refine ⟨_, rfl, ?_⟩) | with_reducible assumption | exact Foot.sub (by decide) hm | with_reducible apply addTime_foot | with_reducible apply raiseTrap_foot | with_reducible apply afterRoutine_foot | with_reducible apply runAis_foot | with_reducible apply Foot.ite | (with_reducible refine Foot.foldl ?_ (fun _ _ _ => ?_)) | intro _ | split)

theorem execGang_foot {m : Nat} {z : State} (t : Tenant) (f : FmtA) (s : State) (hm : 0x88CB5EBF5 ||| m = m) (h0 : Foot m z s) :
    ∃ u, execGang t f s = .next u ∧ Foot m z u := by
  unfold execGang
  try dsimp only
  repeat' (first | (with_reducible refine ⟨_, rfl, ?_⟩) | with_reducible assumption | exact Foot.sub (by decide) hm | with_reducible apply modSqr_foot | with_reducible apply setPe_foot | with_reducible apply addTime_foot | with_reducible apply boundary_foot | with_reducible apply advance_foot | with_reducible apply runAis_foot | with_reducible apply setK_foot | with_reducible apply Foot.ite | (with_reducible refine Foot.foldl ?_ (fun _ _ _ => ?_)) | intro _ | split)

theorem execBrclm_foot {m : Nat} {z : State} (t : Tenant) (f : FmtA) (s : State) (hm : 0x88CB5EBF5 ||| m = m) (h0 : Foot m z s) :
    ∃ u, execBrclm t f s = .next u ∧ Foot m z u := by
  unfold execBrclm
  try dsimp only
  repeat' (first | (with_reducible refine ⟨_, rfl, ?_⟩) | with_reducible assumption | exact Foot.sub (by decide) hm | with_reducible apply modTile_foot | with_reducible apply runAis_foot | with_reducible apply finish_foot | with_reducible apply Foot.ite | (with_reducible refine Foot.foldl ?_ (fun _ _ _ => ?_)) | intro _ | split)

theorem execFclr_foot {m : Nat} {z : State} (t : Tenant) (f : FmtA) (s : State) (hm : 0x88CB5EBF5 ||| m = m) (h0 : Foot m z s) :
    ∃ u, execFclr t f s = .next u ∧ Foot m z u := by
  unfold execFclr
  try dsimp only
  repeat' (first | (with_reducible refine ⟨_, rfl, ?_⟩) | with_reducible assumption | exact Foot.sub (by decide) hm | with_reducible apply clearSticky_foot | with_reducible apply runAis_foot | with_reducible apply finish_foot | with_reducible apply Foot.ite | (with_reducible refine Foot.foldl ?_ (fun _ _ _ => ?_)) | intro _ | split)

theorem execFten_foot {m : Nat} {z : State} (t : Tenant) (f : FmtA) (s : State) (hm : 0x88CB5EBF5 ||| m = m) (h0 : Foot m z s) :
    ∃ u, execFten t f s = .next u ∧ Foot m z u := by
  unfold execFten
  try dsimp only
  repeat' (first | (with_reducible refine ⟨_, rfl, ?_⟩) | with_reducible assumption | exact Foot.sub (by decide) hm | with_reducible apply setCtx_foot | with_reducible apply logEvent_foot | with_reducible apply modRun_foot | with_reducible apply dropCtx_foot | with_reducible apply loadCtx_foot | with_reducible apply tryReexecAll_foot | with_reducible apply addTime_foot | with_reducible apply raiseTrap_foot | with_reducible apply runAis_foot | with_reducible apply finish_foot | with_reducible apply Foot.ite | (with_reducible refine Foot.foldl ?_ (fun _ _ _ => ?_)) | intro _ | split)

theorem execRtt_foot {m : Nat} {z : State} (t : Tenant) (f : FmtA) (s : State) (hm : 0x88CB5EBF5 ||| m = m) (h0 : Foot m z s) :
    ∃ u, execRtt t f s = .next u ∧ Foot m z u := by
  unfold execRtt
  try dsimp only
  repeat' (first | (with_reducible refine ⟨_, rfl, ?_⟩) | with_reducible assumption | exact Foot.sub (by decide) hm | with_reducible apply bump_foot | with_reducible apply scramble_foot | with_reducible apply addTime_foot | with_reducible apply boundary_foot | with_reducible apply returnTrap_foot | with_reducible apply trapFrameLost_foot | with_reducible apply runAis_foot | with_reducible apply Foot.ite | (with_reducible refine Foot.foldl ?_ (fun _ _ _ => ?_)) | intro _ | split)

theorem execEnd_foot {m : Nat} {z : State} (t : Tenant) (f : FmtA) (s : State) (hm : 0x8ACB5FBF5 ||| m = m) (h0 : Foot m z s) :
    ∃ u, execEnd t f s = .next u ∧ Foot m z u := by
  unfold execEnd
  try dsimp only
  repeat' (first | (with_reducible refine ⟨_, rfl, ?_⟩) | with_reducible assumption | exact Foot.sub (by decide) hm | with_reducible apply takeMark_foot | with_reducible apply finishOrder_foot | with_reducible apply addTime_foot | with_reducible apply afterRoutine_foot | with_reducible apply runAis_foot | with_reducible apply afterFlags_foot | with_reducible apply Foot.ite | (with_reducible refine Foot.foldl ?_ (fun _ _ _ => ?_)) | intro _ | split)

end Sys2Proof.Machine
end

