-- ==== Sys2Proof/Laws/FootBinding.lean ====
section
/-! SUPPORT. Which components of the state each operation of Machine/Binding.lean can change. -/

set_option linter.unusedTactic false
set_option linter.unusedVariables false
set_option linter.unreachableTactic false

namespace Sys2Proof.Machine

theorem execInarm_foot {m : Nat} {z : State} (t : Tenant) (f : FmtA) (s : State) (hm : 0x88CB7EBF5 ||| m = m) (h0 : Foot m z s) :
    ∃ u, execInarm t f s = .next u ∧ Foot m z u := by
  unfold execInarm
  try dsimp only
  repeat' (first | (with_reducible refine ⟨_, rfl, ?_⟩) | with_reducible assumption | exact Foot.sub (by decide) hm | with_reducible apply refill_foot | with_reducible apply readFailed_foot | with_reducible apply setOrder_foot | with_reducible apply reland_foot | with_reducible apply abortOrders_foot | with_reducible apply landNow_foot | with_reducible apply runAis_foot | with_reducible apply finish_foot | with_reducible apply Foot.ite | (with_reducible refine Foot.foldl ?_ (fun _ _ _ => ?_)) | intro _ | split)

theorem execInwait_foot {m : Nat} {z : State} (t : Tenant) (f : FmtA) (s : State) (hm : 0x88CB5EBF5 ||| m = m) (h0 : Foot m z s) :
    ∃ u, execInwait t f s = .next u ∧ Foot m z u := by
  unfold execInwait
  try dsimp only
  repeat' (first | (with_reducible refine ⟨_, rfl, ?_⟩) | with_reducible assumption | exact Foot.sub (by decide) hm | with_reducible apply runAis_foot | with_reducible apply startAisWait_foot | with_reducible apply Foot.ite | (with_reducible refine Foot.foldl ?_ (fun _ _ _ => ?_)) | intro _ | split)

theorem stage_foot {m : Nat} {z : State} (s : State) (t : Tenant) (w : Staged) (hm : 0x22801 ||| m = m) (h0 : Foot m z s) :
    Foot m z (stage s t w) := by
  unfold stage
  try dsimp only
  repeat' (first | with_reducible assumption | exact Foot.sub (by decide) hm | with_reducible apply refill_foot | with_reducible apply modRun_foot | with_reducible apply Foot.ite | (with_reducible refine Foot.foldl ?_ (fun _ _ _ => ?_)) | split)

theorem execOutp_foot {m : Nat} {z : State} (t : Tenant) (f : FmtA) (s : State) (hm : 0x88CB7EBF5 ||| m = m) (h0 : Foot m z s) :
    ∃ u, execOutp t f s = .next u ∧ Foot m z u := by
  unfold execOutp
  try dsimp only
  repeat' (first | (with_reducible refine ⟨_, rfl, ?_⟩) | with_reducible assumption | exact Foot.sub (by decide) hm | with_reducible apply touch_foot | with_reducible apply runAis_foot | with_reducible apply finish_foot | with_reducible apply stage_foot | with_reducible apply Foot.ite | (with_reducible refine Foot.foldl ?_ (fun _ _ _ => ?_)) | intro _ | split)

theorem execOuts_foot {m : Nat} {z : State} (t : Tenant) (f : FmtA) (s : State) (hm : 0x88CB7EBF5 ||| m = m) (h0 : Foot m z s) :
    ∃ u, execOuts t f s = .next u ∧ Foot m z u := by
  unfold execOuts
  try dsimp only
  repeat' (first | (with_reducible refine ⟨_, rfl, ?_⟩) | with_reducible assumption | exact Foot.sub (by decide) hm | with_reducible apply runAis_foot | with_reducible apply finish_foot | with_reducible apply stage_foot | with_reducible apply Foot.ite | (with_reducible refine Foot.foldl ?_ (fun _ _ _ => ?_)) | intro _ | split)

theorem execOutf_foot {m : Nat} {z : State} (t : Tenant) (f : FmtA) (s : State) (hm : 0x88CB7EBF5 ||| m = m) (h0 : Foot m z s) :
    ∃ u, execOutf t f s = .next u ∧ Foot m z u := by
  unfold execOutf
  try dsimp only
  repeat' (first | (with_reducible refine ⟨_, rfl, ?_⟩) | with_reducible assumption | exact Foot.sub (by decide) hm | with_reducible apply runAis_foot | with_reducible apply finish_foot | with_reducible apply stage_foot | with_reducible apply Foot.ite | (with_reducible refine Foot.foldl ?_ (fun _ _ _ => ?_)) | intro _ | split)

end Sys2Proof.Machine
end

