-- ==== Sys2Proof/Laws/FootSess.lean ====
section
/-! SUPPORT. Which components of the state each operation of Machine/Sess.lean can change. -/

set_option linter.unusedTactic false
set_option linter.unusedVariables false
set_option linter.unreachableTactic false

namespace Sys2Proof.Machine

theorem answer_foot {m : Nat} {z : State} (s : State) (k : SesId) (index : Half) (sub : Byte) (abort : Word) (data : Bytes) (hm : 0x20000000 ||| m = m) (h0 : Foot m z s) :
    Foot m z (answer s k index sub abort data) := by
  unfold answer
  try dsimp only
  repeat' (first | with_reducible assumption | exact Foot.sub (by decide) hm | with_reducible apply modSes_foot | with_reducible apply Foot.ite | (with_reducible refine Foot.foldl ?_ (fun _ _ _ => ?_)) | split)

theorem openSes_foot {m : Nat} {z : State} (s : State) (k : SesId) (hm : 0x20000000 ||| m = m) (h0 : Foot m z s) :
    Foot m z (openSes s k) := by
  unfold openSes
  try dsimp only
  repeat' (first | with_reducible assumption | exact Foot.sub (by decide) hm | with_reducible apply modSes_foot | with_reducible apply Foot.ite | (with_reducible refine Foot.foldl ?_ (fun _ _ _ => ?_)) | split)

theorem closeSes_foot {m : Nat} {z : State} (s : State) (k : SesId) (hm : 0x20000000 ||| m = m) (h0 : Foot m z s) :
    Foot m z (closeSes s k) := by
  unfold closeSes
  try dsimp only
  repeat' (first | with_reducible assumption | exact Foot.sub (by decide) hm | with_reducible apply modSes_foot | with_reducible apply Foot.ite | (with_reducible refine Foot.foldl ?_ (fun _ _ _ => ?_)) | split)

theorem defaultComm_foot {m : Nat} {z : State} (s : State) (k : SesId) (hm : 0x20000000 ||| m = m) (h0 : Foot m z s) :
    Foot m z (defaultComm s k) := by
  unfold defaultComm
  try dsimp only
  repeat' (first | with_reducible assumption | exact Foot.sub (by decide) hm | with_reducible apply modSes_foot | with_reducible apply Foot.ite | (with_reducible refine Foot.foldl ?_ (fun _ _ _ => ?_)) | split)

theorem syncSes_foot {m : Nat} {z : State} (s : State) (t : Tenant) (hm : 0x20000000 ||| m = m) (h0 : Foot m z s) :
    Foot m z (syncSes s t) := by
  unfold syncSes
  try dsimp only
  repeat' (first | with_reducible assumption | exact Foot.sub (by decide) hm | with_reducible apply openSes_foot | with_reducible apply closeSes_foot | with_reducible apply Foot.ite | (with_reducible refine Foot.foldl ?_ (fun _ _ _ => ?_)) | split)

theorem bootNode_foot {m : Nat} {z : State} (s : State) (t : Tenant) (hm : 0x40000000 ||| m = m) (h0 : Foot m z s) :
    Foot m z (bootNode s t) := by
  unfold bootNode
  try dsimp only
  repeat' (first | with_reducible assumption | exact Foot.sub (by decide) hm | with_reducible apply modCan_foot | with_reducible apply Foot.ite | (with_reducible refine Foot.foldl ?_ (fun _ _ _ => ?_)) | (fail_if_no_progress (with_reducible refine Foot.up_net ?_ (Foot.sub (by decide) hm))) | split)

theorem bindChannel_foot {m : Nat} {z : State} (s : State) (t : Tenant) (hm : 0x800 ||| m = m) (h0 : Foot m z s) :
    Foot m z (bindChannel s t) := by
  unfold bindChannel
  try dsimp only
  repeat' (first | with_reducible assumption | exact Foot.sub (by decide) hm | with_reducible apply modTen_foot | with_reducible apply Foot.ite | (with_reducible refine Foot.foldl ?_ (fun _ _ _ => ?_)) | split)

end Sys2Proof.Machine
end

