-- ==== Sys2Proof/Laws/FootIdent.lean ====
section
/-! SUPPORT. Which components of the state each operation of Machine/Ident.lean can change. -/

set_option linter.unusedTactic false
set_option linter.unusedVariables false
set_option linter.unreachableTactic false

namespace Sys2Proof.Machine

theorem setCounter_foot {m : Nat} {z : State} (s : State) (c : Nat) (v : Word) (hm : 0x400000000 ||| m = m) (h0 : Foot m z s) :
    Foot m z (setCounter s c v) := by
  unfold setCounter
  try dsimp only
  repeat' (first | with_reducible assumption | exact Foot.sub (by decide) hm | with_reducible apply Foot.ite | (with_reducible refine Foot.foldl ?_ (fun _ _ _ => ?_)) | (fail_if_no_progress (with_reducible refine Foot.up_ident ?_ (Foot.sub (by decide) hm))) | split)

theorem setPending_foot {m : Nat} {z : State} (s : State) (c : Nat) (v : Word) (hm : 0x400000000 ||| m = m) (h0 : Foot m z s) :
    Foot m z (setPending s c v) := by
  unfold setPending
  try dsimp only
  repeat' (first | with_reducible assumption | exact Foot.sub (by decide) hm | with_reducible apply Foot.ite | (with_reducible refine Foot.foldl ?_ (fun _ _ _ => ?_)) | (fail_if_no_progress (with_reducible refine Foot.up_ident ?_ (Foot.sub (by decide) hm))) | split)

theorem takeEffect_foot {m : Nat} {z : State} (s : State) (c : Nat) (v : Word) (hm : 0x400000000 ||| m = m) (h0 : Foot m z s) :
    Foot m z (takeEffect s c v) := by
  unfold takeEffect
  try dsimp only
  repeat' (first | with_reducible assumption | exact Foot.sub (by decide) hm | with_reducible apply setCounter_foot | with_reducible apply setPending_foot | with_reducible apply Foot.ite | (with_reducible refine Foot.foldl ?_ (fun _ _ _ => ?_)) | split)

theorem refuse_foot {m : Nat} {z : State} (s : State) (k : SesId) (artefact : Nat) (reason : Byte) (hm : 0xC00000000 ||| m = m) (h0 : Foot m z s) :
    Foot m z (refuse s k artefact reason) := by
  unfold refuse
  try dsimp only
  repeat' (first | with_reducible assumption | exact Foot.sub (by decide) hm | with_reducible apply logEvent_foot | with_reducible apply Foot.ite | (with_reducible refine Foot.foldl ?_ (fun _ _ _ => ?_)) | (fail_if_no_progress (with_reducible refine Foot.up_ident ?_ (Foot.sub (by decide) hm))) | split)

theorem measure_foot {m : Nat} {z : State} (s : State) (kind : Nat) (ctr : Word) (data : Bytes) (hm : 0x400000000 ||| m = m) (h0 : Foot m z s) :
    Foot m z (measure s kind ctr data) := by
  unfold measure
  try dsimp only
  repeat' (first | with_reducible assumption | exact Foot.sub (by decide) hm | with_reducible apply Foot.ite | (with_reducible refine Foot.foldl ?_ (fun _ _ _ => ?_)) | (fail_if_no_progress (with_reducible refine Foot.up_ident ?_ (Foot.sub (by decide) hm))) | split)

theorem measureNone_foot {m : Nat} {z : State} (s : State) (kind state : Nat) (hm : 0x400000000 ||| m = m) (h0 : Foot m z s) :
    Foot m z (measureNone s kind state) := by
  unfold measureNone
  try dsimp only
  repeat' (first | with_reducible assumption | exact Foot.sub (by decide) hm | with_reducible apply Foot.ite | (with_reducible refine Foot.foldl ?_ (fun _ _ _ => ?_)) | (fail_if_no_progress (with_reducible refine Foot.up_ident ?_ (Foot.sub (by decide) hm))) | split)

theorem measureKeys_foot {m : Nat} {z : State} (s : State) (hm : 0x400000000 ||| m = m) (h0 : Foot m z s) :
    Foot m z (measureKeys s) := by
  unfold measureKeys
  try dsimp only
  repeat' (first | with_reducible assumption | exact Foot.sub (by decide) hm | with_reducible apply measure_foot | with_reducible apply Foot.ite | (with_reducible refine Foot.foldl ?_ (fun _ _ _ => ?_)) | split)

end Sys2Proof.Machine
end

