-- ==== Sys2Proof/Laws/FootBranch.lean ====
section
/-! SUPPORT. Which components of the state each operation of Machine/Branch.lean can change. -/

set_option linter.unusedTactic false
set_option linter.unusedVariables false
set_option linter.unreachableTactic false

namespace Sys2Proof.Machine

theorem branchEnd_foot {m : Nat} {z : State} (s : State) (t : Tenant) (q : SeqId) (ac : Nat) (taken : Bool) (tgt : Nat) (hm : 0x88CB5EBF5 ||| m = m) (h0 : Foot m z s) :
    Foot m z (branchEnd s t q ac taken tgt) := by
  unfold branchEnd
  try dsimp only
  repeat' (first | with_reducible assumption | exact Foot.sub (by decide) hm | with_reducible apply addTime_foot | with_reducible apply boundary_foot | with_reducible apply advance_foot | with_reducible apply jump_foot | with_reducible apply afterRoutine_foot | with_reducible apply Foot.ite | (with_reducible refine Foot.foldl ?_ (fun _ _ _ => ?_)) | split)

theorem branchCmp_foot {m : Nat} {z : State} (s : State) (t : Tenant) (fn : Nat) (f : FmtJ) (c : Word → Word → Bool) (hm : 0x88CB5EBF5 ||| m = m) (h0 : Foot m z s) :
    Foot m z (branchCmp s t fn f c) := by
  unfold branchCmp
  try dsimp only
  repeat' (first | with_reducible assumption | exact Foot.sub (by decide) hm | with_reducible apply runAis_foot | with_reducible apply branchEnd_foot | with_reducible apply Foot.ite | (with_reducible refine Foot.foldl ?_ (fun _ _ _ => ?_)) | intro _ | split)

theorem branchBit_foot {m : Nat} {z : State} (s : State) (t : Tenant) (fn : Nat) (f : FmtJ) (want : Bool) (hm : 0x88CB5EBF5 ||| m = m) (h0 : Foot m z s) :
    Foot m z (branchBit s t fn f want) := by
  unfold branchBit
  try dsimp only
  repeat' (first | with_reducible assumption | exact Foot.sub (by decide) hm | with_reducible apply touch_foot | with_reducible apply runAis_foot | with_reducible apply setF_foot | with_reducible apply freeF_foot | with_reducible apply branchEnd_foot | with_reducible apply Foot.ite | (with_reducible refine Foot.foldl ?_ (fun _ _ _ => ?_)) | intro _ | split)

theorem execBr_foot {m : Nat} {z : State} (t : Tenant) (f : FmtJ) (s : State) (hm : 0x88CB5EBF5 ||| m = m) (h0 : Foot m z s) :
    ∃ u, execBr t f s = .next u ∧ Foot m z u := by
  unfold execBr
  try dsimp only
  repeat' (first | (with_reducible refine ⟨_, rfl, ?_⟩) | with_reducible assumption | exact Foot.sub (by decide) hm | with_reducible apply runAis_foot | with_reducible apply branchEnd_foot | with_reducible apply Foot.ite | (with_reducible refine Foot.foldl ?_ (fun _ _ _ => ?_)) | intro _ | split)

theorem execBany_foot {m : Nat} {z : State} (t : Tenant) (f : FmtJ) (s : State) (hm : 0x88CB5EBF5 ||| m = m) (h0 : Foot m z s) :
    ∃ u, execBany t f s = .next u ∧ Foot m z u := by
  unfold execBany
  try dsimp only
  repeat' (first | (with_reducible refine ⟨_, rfl, ?_⟩) | with_reducible assumption | exact Foot.sub (by decide) hm | with_reducible apply branchBit_foot | with_reducible apply Foot.ite | (with_reducible refine Foot.foldl ?_ (fun _ _ _ => ?_)) | split)

theorem execBnone_foot {m : Nat} {z : State} (t : Tenant) (f : FmtJ) (s : State) (hm : 0x88CB5EBF5 ||| m = m) (h0 : Foot m z s) :
    ∃ u, execBnone t f s = .next u ∧ Foot m z u := by
  unfold execBnone
  try dsimp only
  repeat' (first | (with_reducible refine ⟨_, rfl, ?_⟩) | with_reducible assumption | exact Foot.sub (by decide) hm | with_reducible apply branchBit_foot | with_reducible apply Foot.ite | (with_reducible refine Foot.foldl ?_ (fun _ _ _ => ?_)) | split)

theorem execBeq_foot {m : Nat} {z : State} (t : Tenant) (f : FmtJ) (s : State) (hm : 0x88CB5EBF5 ||| m = m) (h0 : Foot m z s) :
    ∃ u, execBeq t f s = .next u ∧ Foot m z u := by
  unfold execBeq
  try dsimp only
  repeat' (first | (with_reducible refine ⟨_, rfl, ?_⟩) | with_reducible assumption | exact Foot.sub (by decide) hm | with_reducible apply branchCmp_foot | with_reducible apply Foot.ite | (with_reducible refine Foot.foldl ?_ (fun _ _ _ => ?_)) | split)

theorem execBne_foot {m : Nat} {z : State} (t : Tenant) (f : FmtJ) (s : State) (hm : 0x88CB5EBF5 ||| m = m) (h0 : Foot m z s) :
    ∃ u, execBne t f s = .next u ∧ Foot m z u := by
  unfold execBne
  try dsimp only
  repeat' (first | (with_reducible refine ⟨_, rfl, ?_⟩) | with_reducible assumption | exact Foot.sub (by decide) hm | with_reducible apply branchCmp_foot | with_reducible apply Foot.ite | (with_reducible refine Foot.foldl ?_ (fun _ _ _ => ?_)) | split)

theorem execBlt_foot {m : Nat} {z : State} (t : Tenant) (f : FmtJ) (s : State) (hm : 0x88CB5EBF5 ||| m = m) (h0 : Foot m z s) :
    ∃ u, execBlt t f s = .next u ∧ Foot m z u := by
  unfold execBlt
  try dsimp only
  repeat' (first | (with_reducible refine ⟨_, rfl, ?_⟩) | with_reducible assumption | exact Foot.sub (by decide) hm | with_reducible apply branchCmp_foot | with_reducible apply Foot.ite | (with_reducible refine Foot.foldl ?_ (fun _ _ _ => ?_)) | split)

theorem execBltu_foot {m : Nat} {z : State} (t : Tenant) (f : FmtJ) (s : State) (hm : 0x88CB5EBF5 ||| m = m) (h0 : Foot m z s) :
    ∃ u, execBltu t f s = .next u ∧ Foot m z u := by
  unfold execBltu
  try dsimp only
  repeat' (first | (with_reducible refine ⟨_, rfl, ?_⟩) | with_reducible assumption | exact Foot.sub (by decide) hm | with_reducible apply branchCmp_foot | with_reducible apply Foot.ite | (with_reducible refine Foot.foldl ?_ (fun _ _ _ => ?_)) | split)

theorem execDbnz_foot {m : Nat} {z : State} (t : Tenant) (f : FmtJ) (s : State) (hm : 0x88CB5EBF5 ||| m = m) (h0 : Foot m z s) :
    ∃ u, execDbnz t f s = .next u ∧ Foot m z u := by
  unfold execDbnz
  try dsimp only
  repeat' (first | (with_reducible refine ⟨_, rfl, ?_⟩) | with_reducible assumption | exact Foot.sub (by decide) hm | with_reducible apply setSreg_foot | with_reducible apply runAis_foot | with_reducible apply branchEnd_foot | with_reducible apply Foot.ite | (with_reducible refine Foot.foldl ?_ (fun _ _ _ => ?_)) | intro _ | split)

theorem execCall_foot {m : Nat} {z : State} (t : Tenant) (f : FmtJ) (s : State) (hm : 0x88CB5EBF5 ||| m = m) (h0 : Foot m z s) :
    ∃ u, execCall t f s = .next u ∧ Foot m z u := by
  unfold execCall
  try dsimp only
  repeat' (first | (with_reducible refine ⟨_, rfl, ?_⟩) | with_reducible assumption | exact Foot.sub (by decide) hm | with_reducible apply setSreg_foot | with_reducible apply runAis_foot | with_reducible apply branchEnd_foot | with_reducible apply Foot.ite | (with_reducible refine Foot.foldl ?_ (fun _ _ _ => ?_)) | intro _ | split)

theorem execRet_foot {m : Nat} {z : State} (t : Tenant) (f : FmtJ) (s : State) (hm : 0x88CB5EBF5 ||| m = m) (h0 : Foot m z s) :
    ∃ u, execRet t f s = .next u ∧ Foot m z u := by
  unfold execRet
  try dsimp only
  repeat' (first | (with_reducible refine ⟨_, rfl, ?_⟩) | with_reducible assumption | exact Foot.sub (by decide) hm | with_reducible apply runAis_foot | with_reducible apply branchEnd_foot | with_reducible apply Foot.ite | (with_reducible refine Foot.foldl ?_ (fun _ _ _ => ?_)) | intro _ | split)

end Sys2Proof.Machine
end

