-- ==== Sys2Proof/Laws/FootClaims.lean ====
section
/-! SUPPORT. Which components of the state each operation of Machine/Claims.lean can change. -/

set_option linter.unusedTactic false
set_option linter.unusedVariables false
set_option linter.unreachableTactic false

namespace Sys2Proof.Machine

theorem claimWindows_foot {m : Nat} {z : State} (s : State) (t : Tenant) (seq : Word) (stamp : DWord) (hm : 0x88CB7EBF5 ||| m = m) (h0 : Foot m z s) :
    Foot m z (claimWindows s t seq stamp) := by
  unfold claimWindows
  try dsimp only
  repeat' (first | with_reducible assumption | exact Foot.sub (by decide) hm | with_reducible apply refill_foot | with_reducible apply setOrder_foot | with_reducible apply inputLost_foot | with_reducible apply Foot.ite | (with_reducible refine Foot.foldl ?_ (fun _ _ _ => ?_)) | split)

theorem startInput_foot {m : Nat} {z : State} (s : State) (t : Tenant) (code : Half) (stamp : DWord) (hm : 0x88CB7EBF5 ||| m = m) (h0 : Foot m z s) :
    Foot m z (startInput s t code stamp) := by
  unfold startInput
  try dsimp only
  repeat' (first | with_reducible assumption | exact Foot.sub (by decide) hm | with_reducible apply modOrder_foot | with_reducible apply kick_foot | with_reducible apply claimWindows_foot | with_reducible apply Foot.ite | (with_reducible refine Foot.foldl ?_ (fun _ _ _ => ?_)) | split)

end Sys2Proof.Machine
end

