-- ==== Sys2Proof/Laws/FootSubmit.lean ====
section
/-! SUPPORT. Which components of the state each operation of Machine/Submit.lean can change. -/

set_option linter.unusedTactic false
set_option linter.unusedVariables false
set_option linter.unreachableTactic false

namespace Sys2Proof.Machine

theorem acceptOrder_foot {m : Nat} {z : State} (s : State) (t : Tenant) (x : Desc) (hm : 0x820067801 ||| m = m) (h0 : Foot m z s) :
    Foot m z (acceptOrder s t x) := by
  unfold acceptOrder
  try dsimp only
  repeat' (first | with_reducible assumption | exact Foot.sub (by decide) hm | with_reducible apply modTen_foot | with_reducible apply refill_foot | with_reducible apply journalWrite_foot | with_reducible apply mayYield_foot | with_reducible apply Foot.ite | (with_reducible refine Foot.foldl ?_ (fun _ _ _ => ?_)) | split)

theorem applySubmit_foot {m : Nat} {z : State} (s : State) (t : Tenant) (d : Bytes) (hm : 0x8A88678F5 ||| m = m) (h0 : Foot m z s) :
    Foot m z (applySubmit s t d).2 := by
  unfold applySubmit
  try dsimp only
  repeat' (first | with_reducible assumption | exact Foot.sub (by decide) hm | with_reducible apply modTen_foot | with_reducible apply takeMark_foot | with_reducible apply kick_foot | with_reducible apply acceptOrder_foot | with_reducible apply Foot.ite | (with_reducible refine Foot.foldl ?_ (fun _ _ _ => ?_)) | split)

theorem startOrder_foot {m : Nat} {z : State} (s : State) (t : Tenant) (o : Order) (q : SeqId) (hm : 0x88CB7EBF5 ||| m = m) (h0 : Foot m z s) :
    Foot m z (startOrder s t o q) := by
  unfold startOrder
  try dsimp only
  repeat' (first | with_reducible assumption | exact Foot.sub (by decide) hm | with_reducible apply modSqr_foot | with_reducible apply modTen_foot | with_reducible apply journalWrite_foot | with_reducible apply setOrder_foot | with_reducible apply startPes_foot | with_reducible apply landOldest_foot | with_reducible apply boundary_foot | with_reducible apply claimWindows_foot | with_reducible apply startInput_foot | with_reducible apply Foot.ite | (with_reducible refine Foot.foldl ?_ (fun _ _ _ => ?_)) | split)

theorem execOrderStart_foot {m : Nat} {z : State} (t : Tenant) (s : State) (hm : 0x88CB7EBF5 ||| m = m) (h0 : Foot m z s) :
    ∃ u, execOrderStart t s = .next u ∧ Foot m z u := by
  unfold execOrderStart
  try dsimp only
  repeat' (first | (with_reducible refine ⟨_, rfl, ?_⟩) | with_reducible assumption | exact Foot.sub (by decide) hm | with_reducible apply startOrder_foot | with_reducible apply Foot.ite | (with_reducible refine Foot.foldl ?_ (fun _ _ _ => ?_)) | split)

theorem execUnprotected_foot {m : Nat} {z : State} (t : Tenant) (s : State) (hm : 0x800 ||| m = m) (h0 : Foot m z s) :
    ∃ u, execUnprotected t s = .next u ∧ Foot m z u := by
  unfold execUnprotected
  try dsimp only
  repeat' (first | (with_reducible refine ⟨_, rfl, ?_⟩) | with_reducible assumption | exact Foot.sub (by decide) hm | with_reducible apply modRun_foot | with_reducible apply Foot.ite | (with_reducible refine Foot.foldl ?_ (fun _ _ _ => ?_)) | split)

theorem execRecordExpiry_foot {m : Nat} {z : State} (t : Tenant) (seq : Word) (s : State) (hm : 0x820214800 ||| m = m) (h0 : Foot m z s) :
    ∃ u, execRecordExpiry t seq s = .next u ∧ Foot m z u := by
  unfold execRecordExpiry
  try dsimp only
  repeat' (first | (with_reducible refine ⟨_, rfl, ?_⟩) | with_reducible assumption | exact Foot.sub (by decide) hm | with_reducible apply modTen_foot | with_reducible apply logEvent_foot | with_reducible apply emergency_foot | with_reducible apply storeRecord_foot | with_reducible apply Foot.ite | (with_reducible refine Foot.foldl ?_ (fun _ _ _ => ?_)) | split)

theorem applyRetireTo_foot {m : Nat} {z : State} (s : State) (t : Tenant) (v : Word) (hm : 0x800 ||| m = m) (h0 : Foot m z s) :
    Foot m z (applyRetireTo s t v).2 := by
  unfold applyRetireTo
  try dsimp only
  repeat' (first | with_reducible assumption | exact Foot.sub (by decide) hm | with_reducible apply modTen_foot | with_reducible apply Foot.ite | (with_reducible refine Foot.foldl ?_ (fun _ _ _ => ?_)) | split)

theorem applyAbort_foot {m : Nat} {z : State} (s : State) (t : Tenant) (v : Byte) (hm : 0x8ACB5FBF5 ||| m = m) (h0 : Foot m z s) :
    Foot m z (applyAbort s t v).2 := by
  unfold applyAbort
  try dsimp only
  repeat' (first | with_reducible assumption | exact Foot.sub (by decide) hm | with_reducible apply tideFault_foot | with_reducible apply takeMark_foot | with_reducible apply abortTenant_foot | with_reducible apply Foot.ite | (with_reducible refine Foot.foldl ?_ (fun _ _ _ => ?_)) | split)

theorem applyRelease_foot {m : Nat} {z : State} (s : State) (t : Tenant) (v : Byte) (hm : 0x18000800 ||| m = m) (h0 : Foot m z s) :
    Foot m z (applyRelease s t v).2 := by
  unfold applyRelease
  try dsimp only
  repeat' (first | with_reducible assumption | exact Foot.sub (by decide) hm | with_reducible apply modTen_foot | with_reducible apply fabEdge_foot | with_reducible apply Foot.ite | (with_reducible refine Foot.foldl ?_ (fun _ _ _ => ?_)) | split)

end Sys2Proof.Machine
end

