-- ==== Sys2Proof/Laws/FootCamera.lean ====
section
/-! SUPPORT. Which components of the state each operation of Machine/Camera.lean can change. -/

set_option linter.unusedTactic false
set_option linter.unusedVariables false
set_option linter.unreachableTactic false

namespace Sys2Proof.Machine

theorem setLink_foot {m : Nat} {z : State} (s : State) (c : CxpId) (l : Link) (hm : 0x4000000 ||| m = m) (h0 : Foot m z s) :
    Foot m z (setLink s c l) := by
  unfold setLink
  try dsimp only
  repeat' (first | with_reducible assumption | exact Foot.sub (by decide) hm | with_reducible apply modCam_foot | with_reducible apply Foot.ite | (with_reducible refine Foot.foldl ?_ (fun _ _ _ => ?_)) | split)

theorem applyGrouping_foot {m : Nat} {z : State} (s : State) (v : Byte) (hm : 0x1000000 ||| m = m) (h0 : Foot m z s) :
    Foot m z (applyGrouping s v).2 := by
  unfold applyGrouping
  try dsimp only
  repeat' (first | with_reducible assumption | exact Foot.sub (by decide) hm | with_reducible apply Foot.ite | (with_reducible refine Foot.foldl ?_ (fun _ _ _ => ?_)) | (fail_if_no_progress (with_reducible refine Foot.up_grouping ?_ (Foot.sub (by decide) hm))) | split)

theorem execCxpDiscoveryLock_foot {m : Nat} {z : State} (c : CxpId) (speed : Fin 7) (s : State) (hm : 0x4000000 ||| m = m) (h0 : Foot m z s) :
    ∃ u, execCxpDiscoveryLock c speed s = .next u ∧ Foot m z u := by
  unfold execCxpDiscoveryLock
  try dsimp only
  repeat' (first | (with_reducible refine ⟨_, rfl, ?_⟩) | with_reducible assumption | exact Foot.sub (by decide) hm | with_reducible apply setLink_foot | with_reducible apply Foot.ite | (with_reducible refine Foot.foldl ?_ (fun _ _ _ => ?_)) | split)

theorem execCxpDiscoveryTimeout_foot {m : Nat} {z : State} (c : CxpId) (s : State) (hm : 0x804000000 ||| m = m) (h0 : Foot m z s) :
    ∃ u, execCxpDiscoveryTimeout c s = .next u ∧ Foot m z u := by
  unfold execCxpDiscoveryTimeout
  try dsimp only
  repeat' (first | (with_reducible refine ⟨_, rfl, ?_⟩) | with_reducible assumption | exact Foot.sub (by decide) hm | with_reducible apply logEvent_foot | with_reducible apply setLink_foot | with_reducible apply Foot.ite | (with_reducible refine Foot.foldl ?_ (fun _ _ _ => ?_)) | split)

theorem execCxpDiscoveryRetry_foot {m : Nat} {z : State} (c : CxpId) (s : State) (hm : 0x4000000 ||| m = m) (h0 : Foot m z s) :
    ∃ u, execCxpDiscoveryRetry c s = .next u ∧ Foot m z u := by
  unfold execCxpDiscoveryRetry
  try dsimp only
  repeat' (first | (with_reducible refine ⟨_, rfl, ?_⟩) | with_reducible assumption | exact Foot.sub (by decide) hm | with_reducible apply setLink_foot | with_reducible apply Foot.ite | (with_reducible refine Foot.foldl ?_ (fun _ _ _ => ?_)) | split)

theorem frameLost_foot {m : Nat} {z : State} (s : State) (c : CxpId) (t : Tenant) (seq : Word) (lines : Nat) (code : Half) (hm : 0x88CB5EBF5 ||| m = m) (h0 : Foot m z s) :
    Foot m z (frameLost s c t seq lines code) := by
  unfold frameLost
  try dsimp only
  repeat' (first | with_reducible assumption | exact Foot.sub (by decide) hm | with_reducible apply modCam_foot | with_reducible apply tideFault_foot | with_reducible apply logEvent_foot | with_reducible apply inputLost_foot | with_reducible apply Foot.ite | (with_reducible refine Foot.foldl ?_ (fun _ _ _ => ?_)) | split)

theorem truncateFrame_foot {m : Nat} {z : State} (s : State) (c : CxpId) (hm : 0x88CB5EBF5 ||| m = m) (h0 : Foot m z s) :
    Foot m z (truncateFrame s c) := by
  unfold truncateFrame
  try dsimp only
  repeat' (first | with_reducible assumption | exact Foot.sub (by decide) hm | with_reducible apply modCam_foot | with_reducible apply frameLost_foot | with_reducible apply Foot.ite | (with_reducible refine Foot.foldl ?_ (fun _ _ _ => ?_)) | split)

theorem linkLost_foot {m : Nat} {z : State} (s : State) (c : CxpId) (hm : 0x88CB5EBF5 ||| m = m) (h0 : Foot m z s) :
    Foot m z (linkLost s c) := by
  unfold linkLost
  try dsimp only
  repeat' (first | with_reducible assumption | exact Foot.sub (by decide) hm | with_reducible apply setLink_foot | with_reducible apply truncateFrame_foot | with_reducible apply Foot.ite | (with_reducible refine Foot.foldl ?_ (fun _ _ _ => ?_)) | split)

theorem allLinksLost_foot {m : Nat} {z : State} (s : State) (hm : 0x88CB5EBF5 ||| m = m) (h0 : Foot m z s) :
    Foot m z (allLinksLost s) := by
  unfold allLinksLost
  try dsimp only
  repeat' (first | with_reducible assumption | exact Foot.sub (by decide) hm | with_reducible apply linkLost_foot | with_reducible apply Foot.ite | (with_reducible refine Foot.foldl ?_ (fun _ _ _ => ?_)) | split)

theorem execCxpLossOfLock_foot {m : Nat} {z : State} (c : CxpId) (s : State) (hm : 0x88CB5EBF5 ||| m = m) (h0 : Foot m z s) :
    ∃ u, execCxpLossOfLock c s = .next u ∧ Foot m z u := by
  unfold execCxpLossOfLock
  try dsimp only
  repeat' (first | (with_reducible refine ⟨_, rfl, ?_⟩) | with_reducible assumption | exact Foot.sub (by decide) hm | with_reducible apply takeMark_foot | with_reducible apply linkLost_foot | with_reducible apply Foot.ite | (with_reducible refine Foot.foldl ?_ (fun _ _ _ => ?_)) | split)

theorem execCxpLostHoldEnd_foot {m : Nat} {z : State} (c : CxpId) (s : State) (hm : 0x4000000 ||| m = m) (h0 : Foot m z s) :
    ∃ u, execCxpLostHoldEnd c s = .next u ∧ Foot m z u := by
  unfold execCxpLostHoldEnd
  try dsimp only
  repeat' (first | (with_reducible refine ⟨_, rfl, ?_⟩) | with_reducible assumption | exact Foot.sub (by decide) hm | with_reducible apply setLink_foot | with_reducible apply Foot.ite | (with_reducible refine Foot.foldl ?_ (fun _ _ _ => ?_)) | split)

theorem claimFrame_foot {m : Nat} {z : State} (s : State) (c : CxpId) (h : ImageHeader) (stamp : DWord) (hm : 0x88CB5EBF5 ||| m = m) (h0 : Foot m z s) :
    Foot m z (claimFrame s c h stamp) := by
  unfold claimFrame
  try dsimp only
  repeat' (first | with_reducible assumption | exact Foot.sub (by decide) hm | with_reducible apply modCam_foot | with_reducible apply logEvent_foot | with_reducible apply setOrder_foot | with_reducible apply bindTrap_foot | with_reducible apply frameLost_foot | with_reducible apply Foot.ite | (with_reducible refine Foot.foldl ?_ (fun _ _ _ => ?_)) | split)

theorem discard_foot {m : Nat} {z : State} (s : State) (c : CxpId) (hm : 0x4000000 ||| m = m) (h0 : Foot m z s) :
    Foot m z (discard s c) := by
  unfold discard
  try dsimp only
  repeat' (first | with_reducible assumption | exact Foot.sub (by decide) hm | with_reducible apply modCam_foot | with_reducible apply Foot.ite | (with_reducible refine Foot.foldl ?_ (fun _ _ _ => ?_)) | split)

theorem execFrameStart_foot {m : Nat} {z : State} (c : CxpId) (h : ImageHeader) (s : State) (hm : 0x88CB7EBF5 ||| m = m) (h0 : Foot m z s) :
    ∃ u, execFrameStart c h s = .next u ∧ Foot m z u := by
  unfold execFrameStart
  try dsimp only
  repeat' (first | (with_reducible refine ⟨_, rfl, ?_⟩) | with_reducible assumption | exact Foot.sub (by decide) hm | with_reducible apply modCam_foot | with_reducible apply pulsePort_foot | with_reducible apply takeMark_foot | with_reducible apply startInput_foot | with_reducible apply truncateFrame_foot | with_reducible apply claimFrame_foot | with_reducible apply discard_foot | with_reducible apply Foot.ite | (with_reducible refine Foot.foldl ?_ (fun _ _ _ => ?_)) | split)

theorem retainParts_foot {m : Nat} {z : State} (n : Nat) (l : List BufPart) (s : State) (hm : 0x22801 ||| m = m) (h0 : Foot m z s) :
    Foot m z (retainParts n l s).1 := by
  induction l generalizing n s with
  | nil => exact h0
  | cons p r ih =>
    unfold retainParts
    dsimp only
    exact ih _ _ (Foot.ite h0 (refill_foot _ _ _ (Foot.sub (by decide) hm) (modOrder_foot _ _ _ _ (Foot.sub (by decide) hm) h0)))

theorem retain_foot {m : Nat} {z : State} (s : State) (c : CxpId) (n : Nat) (hm : 0x88CB7EBF5 ||| m = m) (h0 : Foot m z s) :
    Foot m z (retain s c n) := by
  unfold retain
  try dsimp only
  repeat' (first | with_reducible assumption | exact Foot.sub (by decide) hm | with_reducible apply modCam_foot | with_reducible apply landNow_foot | with_reducible apply retainParts_foot | with_reducible apply Foot.ite | (with_reducible refine Foot.foldl ?_ (fun _ _ _ => ?_)) | split)

theorem bufferLine_foot {m : Nat} {z : State} (s : State) (c : CxpId) (f : Frame) (t : Tenant) (seq : Word) (b : Nat) (d : Bytes) (kept : Bool) (hm : 0x88CB7EBF5 ||| m = m) (h0 : Foot m z s) :
    Foot m z (bufferLine s c f t seq b d kept) := by
  unfold bufferLine
  try dsimp only
  repeat' (first | with_reducible assumption | exact Foot.sub (by decide) hm | with_reducible apply modCam_foot | with_reducible apply frameLost_foot | with_reducible apply retain_foot | with_reducible apply Foot.ite | (with_reducible refine Foot.foldl ?_ (fun _ _ _ => ?_)) | split)

theorem execStreamPacket_foot {m : Nat} {z : State} (k : CxpId) (line : Nat) (pixels : List (BitVec 24)) (crcOk supported retained : Bool) (s : State) (hm : 0x8ACB7FBF5 ||| m = m) (h0 : Foot m z s) :
    ∃ u, execStreamPacket k line pixels crcOk supported retained s = .next u ∧ Foot m z u := by
  unfold execStreamPacket
  try dsimp only
  repeat' (first | (with_reducible refine ⟨_, rfl, ?_⟩) | with_reducible assumption | exact Foot.sub (by decide) hm | with_reducible apply modCam_foot | with_reducible apply takeMark_foot | with_reducible apply mayYield_foot | with_reducible apply frameLost_foot | with_reducible apply discard_foot | with_reducible apply bufferLine_foot | with_reducible apply Foot.ite | (with_reducible refine Foot.foldl ?_ (fun _ _ _ => ?_)) | split)

theorem setLanded_foot {m : Nat} {z : State} (s : State) (t : Tenant) (seq : Word) (b : Nat) (hm : 0x4000800 ||| m = m) (h0 : Foot m z s) :
    Foot m z (setLanded s t seq b) := by
  unfold setLanded
  try dsimp only
  repeat' (first | with_reducible assumption | exact Foot.sub (by decide) hm | with_reducible apply modOrder_foot | with_reducible apply leaveBuf_foot | with_reducible apply Foot.ite | (with_reducible refine Foot.foldl ?_ (fun _ _ _ => ?_)) | split)

theorem execBindingLanded_foot {m : Nat} {z : State} (t : Tenant) (seq : Word) (binding : Fin 8) (s : State) (hm : 0x88CB5EBF5 ||| m = m) (h0 : Foot m z s) :
    ∃ u, execBindingLanded t seq binding s = .next u ∧ Foot m z u := by
  unfold execBindingLanded
  try dsimp only
  repeat' (first | (with_reducible refine ⟨_, rfl, ?_⟩) | with_reducible assumption | exact Foot.sub (by decide) hm | with_reducible apply modCam_foot | with_reducible apply landAll_foot | with_reducible apply landNow_foot | with_reducible apply setLanded_foot | with_reducible apply Foot.ite | (with_reducible refine Foot.foldl ?_ (fun _ _ _ => ?_)) | split)

theorem trigEdge_foot {m : Nat} {z : State} (s : State) (l : Nat) (c : CxpId) (hm : 0x4000000 ||| m = m) (h0 : Foot m z s) :
    Foot m z (trigEdge s l c) := by
  unfold trigEdge
  try dsimp only
  repeat' (first | with_reducible assumption | exact Foot.sub (by decide) hm | with_reducible apply modCam_foot | with_reducible apply Foot.ite | (with_reducible refine Foot.foldl ?_ (fun _ _ _ => ?_)) | split)

theorem trigEdges_foot {m : Nat} {z : State} (s : State) (l : Nat) (hm : 0x4000000 ||| m = m) (h0 : Foot m z s) :
    Foot m z (trigEdges s l) := by
  unfold trigEdges
  try dsimp only
  repeat' (first | with_reducible assumption | exact Foot.sub (by decide) hm | with_reducible apply trigEdge_foot | with_reducible apply Foot.ite | (with_reducible refine Foot.foldl ?_ (fun _ _ _ => ?_)) | split)

theorem applyCamReg_foot {m : Nat} {z : State} (s : State) (k : SesId) (c : CxpId) (d : Bytes) (hm : 0x4000000 ||| m = m) (h0 : Foot m z s) :
    Foot m z (applyCamReg s k c d).2 := by
  unfold applyCamReg
  try dsimp only
  repeat' (first | with_reducible assumption | exact Foot.sub (by decide) hm | with_reducible apply modCam_foot | with_reducible apply Foot.ite | (with_reducible refine Foot.foldl ?_ (fun _ _ _ => ?_)) | split)

theorem readCamReg_foot {m : Nat} {z : State} (s : State) (c : CxpId) (hm : 0x4000000 ||| m = m) (h0 : Foot m z s) (r : Bytes × State)
    (h : readCamReg s c = some r) : Foot m z r.2 := by
  simp only [readCamReg, Option.map_eq_some_iff] at h
  obtain ⟨_, _, rfl⟩ := h
  dsimp only
  exact modCam_foot _ _ _ (Foot.sub (by decide) hm) h0

theorem lateAnswer_foot {m : Nat} {z : State} (s : State) (k : SesId) (index : Half) (sub : Byte) (abort : Word) (hm : 0x20000000 ||| m = m) (h0 : Foot m z s) :
    Foot m z (lateAnswer s k index sub abort) := by
  unfold lateAnswer
  try dsimp only
  repeat' (first | with_reducible assumption | exact Foot.sub (by decide) hm | with_reducible apply modSes_foot | with_reducible apply answer_foot | with_reducible apply Foot.ite | (with_reducible refine Foot.foldl ?_ (fun _ _ _ => ?_)) | split)

theorem execCamRegAck_foot {m : Nat} {z : State} (c : CxpId) (reply : Bytes) (s : State) (hm : 0x24000000 ||| m = m) (h0 : Foot m z s) :
    ∃ u, execCamRegAck c reply s = .next u ∧ Foot m z u := by
  unfold execCamRegAck
  try dsimp only
  repeat' (first | (with_reducible refine ⟨_, rfl, ?_⟩) | with_reducible assumption | exact Foot.sub (by decide) hm | with_reducible apply modCam_foot | with_reducible apply lateAnswer_foot | with_reducible apply Foot.ite | (with_reducible refine Foot.foldl ?_ (fun _ _ _ => ?_)) | split)

theorem execCamRegTimeout_foot {m : Nat} {z : State} (c : CxpId) (s : State) (hm : 0x24000000 ||| m = m) (h0 : Foot m z s) :
    ∃ u, execCamRegTimeout c s = .next u ∧ Foot m z u := by
  unfold execCamRegTimeout
  try dsimp only
  repeat' (first | (with_reducible refine ⟨_, rfl, ?_⟩) | with_reducible assumption | exact Foot.sub (by decide) hm | with_reducible apply modCam_foot | with_reducible apply lateAnswer_foot | with_reducible apply Foot.ite | (with_reducible refine Foot.foldl ?_ (fun _ _ _ => ?_)) | split)

end Sys2Proof.Machine
end

