-- ==== Sys2Proof/Laws/FootLines.lean ====
section
/-! SUPPORT. Which components of the state each operation of Machine/Lines.lean can change. -/

set_option linter.unusedTactic false
set_option linter.unusedVariables false
set_option linter.unreachableTactic false

namespace Sys2Proof.Machine

theorem lineRise_foot {m : Nat} {z : State} (s : State) (l : Nat) (hm : 0x8ACB7FBF5 ||| m = m) (h0 : Foot m z s) :
    Foot m z (lineRise s l) := by
  unfold lineRise
  try dsimp only
  repeat' (first | with_reducible assumption | exact Foot.sub (by decide) hm | with_reducible apply markDue_foot | with_reducible apply tideFault_foot | with_reducible apply abortTenant_foot | with_reducible apply startInput_foot | with_reducible apply trigEdges_foot | with_reducible apply Foot.ite | (with_reducible refine Foot.foldl ?_ (fun _ _ _ => ?_)) | (fail_if_no_progress (with_reducible refine Foot.up_fab ?_ (Foot.sub (by decide) hm))) | split)

theorem lineStep_foot {m : Nat} {z : State} (s : State) (l : Nat) (hm : 0x8ACB7FBF5 ||| m = m) (h0 : Foot m z s) :
    Foot m z (lineStep s l) := by
  unfold lineStep
  try dsimp only
  repeat' (first | with_reducible assumption | exact Foot.sub (by decide) hm | with_reducible apply lineRise_foot | with_reducible apply Foot.ite | (with_reducible refine Foot.foldl ?_ (fun _ _ _ => ?_)) | (fail_if_no_progress (with_reducible refine Foot.up_fab ?_ (Foot.sub (by decide) hm))) | split)

theorem linesStep_foot {m : Nat} {z : State} (s : State) (hm : 0x8ACB7FBF5 ||| m = m) (h0 : Foot m z s) :
    Foot m z (linesStep s) := by
  unfold linesStep
  try dsimp only
  repeat' (first | with_reducible assumption | exact Foot.sub (by decide) hm | with_reducible apply fallLines_foot | with_reducible apply lineStep_foot | with_reducible apply Foot.ite | (with_reducible refine Foot.foldl ?_ (fun _ _ _ => ?_)) | split)

end Sys2Proof.Machine
end

