-- ==== Sys2Proof/Laws/FootLoad.lean ====
section
/-! SUPPORT. Which components of the state each operation of Machine/Load.lean can change. -/

set_option linter.unusedTactic false
set_option linter.unusedVariables false
set_option linter.unreachableTactic false

namespace Sys2Proof.Machine

theorem rejectLoad_foot {m : Nat} {z : State} (s : State) (t : Tenant) (e : LoadErr) (hm : 0x808000000 ||| m = m) (h0 : Foot m z s) :
    Foot m z (rejectLoad s t e) := by
  unfold rejectLoad
  try dsimp only
  repeat' (first | with_reducible assumption | exact Foot.sub (by decide) hm | with_reducible apply logEvent_foot | with_reducible apply Foot.ite | (with_reducible refine Foot.foldl ?_ (fun _ _ _ => ?_)) | (fail_if_no_progress (with_reducible refine Foot.up_fab ?_ (Foot.sub (by decide) hm))) | split)

theorem applyLoad_foot {m : Nat} {z : State} (s : State) (k : SesId) (full : Bool) (d : Bytes) (hm : 0xC1820A000 ||| m = m) (h0 : Foot m z s) :
    Foot m z (applyLoad s k full d).2 := by
  unfold applyLoad
  try dsimp only
  repeat' (first | with_reducible assumption | exact Foot.sub (by decide) hm | with_reducible apply spWrite_foot | with_reducible apply fabEdge_foot | with_reducible apply holdRegion_foot | with_reducible apply setPending_foot | with_reducible apply refuse_foot | with_reducible apply rejectLoad_foot | with_reducible apply Foot.ite | (with_reducible refine Foot.foldl ?_ (fun _ _ _ => ?_)) | (fail_if_no_progress (with_reducible refine Foot.up_fab ?_ (Foot.sub (by decide) hm))) | split)

theorem measureRegion_foot {m : Nat} {z : State} (s : State) (k : Nat) (ctr : Word) (hm : 0x400000000 ||| m = m) (h0 : Foot m z s) :
    Foot m z (measureRegion s k ctr) := by
  unfold measureRegion
  try dsimp only
  repeat' (first | with_reducible assumption | exact Foot.sub (by decide) hm | with_reducible apply measure_foot | with_reducible apply Foot.ite | (with_reducible refine Foot.foldl ?_ (fun _ _ _ => ?_)) | split)

theorem releaseLoad_foot {m : Nat} {z : State} (s : State) (l : List Nat) (hm : 0x8BCB7FBF5 ||| m = m) (h0 : Foot m z s) :
    Foot m z (releaseLoad s l) := by
  unfold releaseLoad
  try dsimp only
  repeat' (first | with_reducible assumption | exact Foot.sub (by decide) hm | with_reducible apply fabEdge_foot | with_reducible apply releaseRegion_foot | with_reducible apply linesStep_foot | with_reducible apply Foot.ite | (with_reducible refine Foot.foldl ?_ (fun _ _ _ => ?_)) | split)

theorem loadGood_foot {m : Nat} {z : State} (s : State) (l : Load) (hm : 0xCBCB7FBF5 ||| m = m) (h0 : Foot m z s) :
    Foot m z (loadGood s l) := by
  unfold loadGood
  try dsimp only
  repeat' (first | with_reducible assumption | exact Foot.sub (by decide) hm | with_reducible apply emergency_foot | with_reducible apply takeEffect_foot | with_reducible apply measure_foot | with_reducible apply measureRegion_foot | with_reducible apply releaseLoad_foot | with_reducible apply Foot.ite | (with_reducible refine Foot.foldl ?_ (fun _ _ _ => ?_)) | (fail_if_no_progress (with_reducible refine Foot.up_fab ?_ (Foot.sub (by decide) hm))) | split)

theorem loadBad_foot {m : Nat} {z : State} (s : State) (l : Load) (hm : 0xCBCB7FBF5 ||| m = m) (h0 : Foot m z s) :
    Foot m z (loadBad s l) := by
  unfold loadBad
  try dsimp only
  repeat' (first | with_reducible assumption | exact Foot.sub (by decide) hm | with_reducible apply setPending_foot | with_reducible apply rejectLoad_foot | with_reducible apply measureRegion_foot | with_reducible apply releaseLoad_foot | with_reducible apply Foot.ite | (with_reducible refine Foot.foldl ?_ (fun _ _ _ => ?_)) | (fail_if_no_progress (with_reducible refine Foot.up_fab ?_ (Foot.sub (by decide) hm))) | split)

theorem loadOwed_foot {m : Nat} {z : State} (s : State) (k : RegionId) (hm : 0xCBCB7FBF5 ||| m = m) (h0 : Foot m z s) :
    Foot m z (loadOwed s k) := by
  unfold loadOwed
  try dsimp only
  repeat' (first | with_reducible assumption | exact Foot.sub (by decide) hm | with_reducible apply measureRegion_foot | with_reducible apply releaseLoad_foot | with_reducible apply Foot.ite | (with_reducible refine Foot.foldl ?_ (fun _ _ _ => ?_)) | (fail_if_no_progress (with_reducible refine Foot.up_fab ?_ (Foot.sub (by decide) hm))) | split)

theorem execFabricLoadComplete_foot {m : Nat} {z : State} (s : State) (hm : 0xCBCB7FBF5 ||| m = m) (h0 : Foot m z s) :
    ∃ u, execFabricLoadComplete s = .next u ∧ Foot m z u := by
  unfold execFabricLoadComplete
  try dsimp only
  repeat' (first | (with_reducible refine ⟨_, rfl, ?_⟩) | with_reducible assumption | exact Foot.sub (by decide) hm | with_reducible apply startOwed_foot | with_reducible apply takeMark_foot | with_reducible apply lateAnswer_foot | with_reducible apply loadGood_foot | with_reducible apply loadBad_foot | with_reducible apply loadOwed_foot | with_reducible apply Foot.ite | (with_reducible refine Foot.foldl ?_ (fun _ _ _ => ?_)) | split)

theorem applyCapture_foot {m : Nat} {z : State} (s : State) (t : Tenant) (v : Byte) (hm : 0x8000000 ||| m = m) (h0 : Foot m z s) :
    Foot m z (applyCapture s t v).2 := by
  unfold applyCapture
  try dsimp only
  repeat' (first | with_reducible assumption | exact Foot.sub (by decide) hm | with_reducible apply captureRegion_foot | with_reducible apply Foot.ite | (with_reducible refine Foot.foldl ?_ (fun _ _ _ => ?_)) | split)

theorem applyProbeSel_foot {m : Nat} {z : State} (s : State) (land : Nat) (v : Byte) (hm : 0x8000000 ||| m = m) (h0 : Foot m z s) :
    Foot m z (applyProbeSel s land v).2 := by
  unfold applyProbeSel
  try dsimp only
  repeat' (first | with_reducible assumption | exact Foot.sub (by decide) hm | with_reducible apply Foot.ite | (with_reducible refine Foot.foldl ?_ (fun _ _ _ => ?_)) | (fail_if_no_progress (with_reducible refine Foot.up_fab ?_ (Foot.sub (by decide) hm))) | split)

theorem execFabricClockRampStep_foot {m : Nat} {z : State} (s : State) (hm : 0x88800000 ||| m = m) (h0 : Foot m z s) :
    ∃ u, execFabricClockRampStep s = .next u ∧ Foot m z u := by
  unfold execFabricClockRampStep
  try dsimp only
  repeat' (first | (with_reducible refine ⟨_, rfl, ?_⟩) | with_reducible assumption | exact Foot.sub (by decide) hm | with_reducible apply retargetFab_foot | with_reducible apply Foot.ite | (with_reducible refine Foot.foldl ?_ (fun _ _ _ => ?_)) | (fail_if_no_progress (with_reducible refine Foot.up_fab ?_ (Foot.sub (by decide) hm))) | split)

end Sys2Proof.Machine
end

