-- ==== Sys2Proof/Laws/FootField.lean ====
section
/-! SUPPORT. Which components of the state each operation of Machine/Field.lean can change. -/

set_option linter.unusedTactic false
set_option linter.unusedVariables false
set_option linter.unreachableTactic false

namespace Sys2Proof.Machine

theorem execFieldInputChange_foot {m : Nat} {z : State} (n : FcId) (level : Bool) (s : State) (hm : 0x18000000 ||| m = m) (h0 : Foot m z s) :
    ∃ u, execFieldInputChange n level s = .next u ∧ Foot m z u := by
  unfold execFieldInputChange
  try dsimp only
  repeat' (first | (with_reducible refine ⟨_, rfl, ?_⟩) | with_reducible assumption | exact Foot.sub (by decide) hm | with_reducible apply setFch_foot | with_reducible apply fabEdge_foot | with_reducible apply Foot.ite | (with_reducible refine Foot.foldl ?_ (fun _ _ _ => ?_)) | split)

theorem execEncoderEdge_foot {m : Nat} {z : State} (lead : Fin 128) (a b : Bool) (s : State) (hm : 0x18000000 ||| m = m) (h0 : Foot m z s) :
    ∃ u, execEncoderEdge lead a b s = .next u ∧ Foot m z u := by
  unfold execEncoderEdge
  try dsimp only
  repeat' (first | (with_reducible refine ⟨_, rfl, ?_⟩) | with_reducible assumption | exact Foot.sub (by decide) hm | with_reducible apply setFch_foot | with_reducible apply fabEdge_foot | with_reducible apply Foot.ite | (with_reducible refine Foot.foldl ?_ (fun _ _ _ => ?_)) | split)

theorem applyFilter_foot {m : Nat} {z : State} (s : State) (n : Nat) (v : Byte) (hm : 0x10000000 ||| m = m) (h0 : Foot m z s) :
    Foot m z (applyFilter s n v).2 := by
  unfold applyFilter
  try dsimp only
  repeat' (first | with_reducible assumption | exact Foot.sub (by decide) hm | with_reducible apply modFch_foot | with_reducible apply Foot.ite | (with_reducible refine Foot.foldl ?_ (fun _ _ _ => ?_)) | split)

theorem reconfigure_foot {m : Nat} {z : State} (s : State) (n : Nat) (m0 : Byte) (hm : 0x10000000 ||| m = m) (h0 : Foot m z s) :
    Foot m z (reconfigure s n m0) := by
  unfold reconfigure
  try dsimp only
  repeat' (first | with_reducible assumption | exact Foot.sub (by decide) hm | with_reducible apply modFch_foot | with_reducible apply Foot.ite | (with_reducible refine Foot.foldl ?_ (fun _ _ _ => ?_)) | split)

theorem applyMode_foot {m : Nat} {z : State} (s : State) (t : Tenant) (n : Nat) (v : Byte) (hm : 0x38000800 ||| m = m) (h0 : Foot m z s) :
    Foot m z (applyMode s t n v).2 := by
  unfold applyMode
  try dsimp only
  repeat' (first | with_reducible assumption | exact Foot.sub (by decide) hm | with_reducible apply errorReset_foot | with_reducible apply fabEdge_foot | with_reducible apply reconfigure_foot | with_reducible apply Foot.ite | (with_reducible refine Foot.foldl ?_ (fun _ _ _ => ?_)) | split)

theorem execModeChangeComplete_foot {m : Nat} {z : State} (n : FcId) (s : State) (hm : 0x18000000 ||| m = m) (h0 : Foot m z s) :
    ∃ u, execModeChangeComplete n s = .next u ∧ Foot m z u := by
  unfold execModeChangeComplete
  try dsimp only
  repeat' (first | (with_reducible refine ⟨_, rfl, ?_⟩) | with_reducible assumption | exact Foot.sub (by decide) hm | with_reducible apply modFch_foot | with_reducible apply fabEdge_foot | with_reducible apply Foot.ite | (with_reducible refine Foot.foldl ?_ (fun _ _ _ => ?_)) | split)

theorem applySafe_foot {m : Nat} {z : State} (s : State) (n : Nat) (v : Byte) (hm : 0x10000000 ||| m = m) (h0 : Foot m z s) :
    Foot m z (applySafe s n v).2 := by
  unfold applySafe
  try dsimp only
  repeat' (first | with_reducible assumption | exact Foot.sub (by decide) hm | with_reducible apply modFch_foot | with_reducible apply Foot.ite | (with_reducible refine Foot.foldl ?_ (fun _ _ _ => ?_)) | split)

theorem applySource_foot {m : Nat} {z : State} (s : State) (n : Nat) (v : Byte) (hm : 0x18000000 ||| m = m) (h0 : Foot m z s) :
    Foot m z (applySource s n v).2 := by
  unfold applySource
  try dsimp only
  repeat' (first | with_reducible assumption | exact Foot.sub (by decide) hm | with_reducible apply modFch_foot | with_reducible apply fabEdge_foot | with_reducible apply Foot.ite | (with_reducible refine Foot.foldl ?_ (fun _ _ _ => ?_)) | split)

theorem applyDoutImage_foot {m : Nat} {z : State} (s : State) (t : Tenant) (j : Nat) (v : Byte) (hm : 0x10000000 ||| m = m) (h0 : Foot m z s) :
    Foot m z (applyDoutImage s t j v).2 := by
  unfold applyDoutImage
  try dsimp only
  repeat' (first | with_reducible assumption | exact Foot.sub (by decide) hm | with_reducible apply Foot.ite | (with_reducible refine Foot.foldl ?_ (fun _ _ _ => ?_)) | (fail_if_no_progress (with_reducible refine Foot.up_field ?_ (Foot.sub (by decide) hm))) | split)

theorem feedWindows_foot {m : Nat} {z : State} (s : State) (slot : DWord) (g q : Nat) (code : Half) (hm : 0x22801 ||| m = m) (h0 : Foot m z s) :
    Foot m z (feedWindows s slot g q code) := by
  unfold feedWindows
  try dsimp only
  repeat' (first | with_reducible assumption | exact Foot.sub (by decide) hm | with_reducible apply modTen_foot | with_reducible apply refill_foot | with_reducible apply Foot.ite | (with_reducible refine Foot.foldl ?_ (fun _ _ _ => ?_)) | split)

theorem convert_foot {m : Nat} {z : State} (s : State) (g q : Nat) (uv : Int) (hm : 0x10022801 ||| m = m) (h0 : Foot m z s) :
    Foot m z (convert s g q uv) := by
  unfold convert
  try dsimp only
  repeat' (first | with_reducible assumption | exact Foot.sub (by decide) hm | with_reducible apply modFch_foot | with_reducible apply modGrp_foot | with_reducible apply feedWindows_foot | with_reducible apply Foot.ite | (with_reducible refine Foot.foldl ?_ (fun _ _ _ => ?_)) | split)

theorem execAdcSlot_foot {m : Nat} {z : State} (g : GroupId) (microvolts : Int) (s : State) (hm : 0x18022801 ||| m = m) (h0 : Foot m z s) :
    ∃ u, execAdcSlot g microvolts s = .next u ∧ Foot m z u := by
  unfold execAdcSlot
  try dsimp only
  repeat' (first | (with_reducible refine ⟨_, rfl, ?_⟩) | with_reducible assumption | exact Foot.sub (by decide) hm | with_reducible apply fabEdge_foot | with_reducible apply convert_foot | with_reducible apply Foot.ite | (with_reducible refine Foot.foldl ?_ (fun _ _ _ => ?_)) | split)

theorem execPwmPeriodStart_foot {m : Nat} {z : State} (n : FcId) (s : State) (hm : 0x10000000 ||| m = m) (h0 : Foot m z s) :
    ∃ u, execPwmPeriodStart n s = .next u ∧ Foot m z u := by
  unfold execPwmPeriodStart
  try dsimp only
  repeat' (first | (with_reducible refine ⟨_, rfl, ?_⟩) | with_reducible assumption | exact Foot.sub (by decide) hm | with_reducible apply modFch_foot | with_reducible apply Foot.ite | (with_reducible refine Foot.foldl ?_ (fun _ _ _ => ?_)) | split)

theorem diagEmergency_foot {m : Nat} {z : State} (s : State) (n : Nat) (c : Byte) (hm : 0x20000800 ||| m = m) (h0 : Foot m z s) :
    Foot m z (diagEmergency s n c) := by
  unfold diagEmergency
  try dsimp only
  repeat' (first | with_reducible assumption | exact Foot.sub (by decide) hm | with_reducible apply emergency_foot | with_reducible apply Foot.ite | (with_reducible refine Foot.foldl ?_ (fun _ _ _ => ?_)) | split)

theorem raiseDiag_foot {m : Nat} {z : State} (s : State) (n : Nat) (c : Byte) (hm : 0x830000800 ||| m = m) (h0 : Foot m z s) :
    Foot m z (raiseDiag s n c) := by
  unfold raiseDiag
  try dsimp only
  repeat' (first | with_reducible assumption | exact Foot.sub (by decide) hm | with_reducible apply setFch_foot | with_reducible apply logEvent_foot | with_reducible apply diagEmergency_foot | with_reducible apply Foot.ite | (with_reducible refine Foot.foldl ?_ (fun _ _ _ => ?_)) | split)

theorem reportDiag_foot {m : Nat} {z : State} (s : State) (n : Nat) (c : Byte) (hm : 0x838000800 ||| m = m) (h0 : Foot m z s) :
    Foot m z (reportDiag s n c) := by
  unfold reportDiag
  try dsimp only
  repeat' (first | with_reducible assumption | exact Foot.sub (by decide) hm | with_reducible apply fabEdge_foot | with_reducible apply raiseDiag_foot | with_reducible apply Foot.ite | (with_reducible refine Foot.foldl ?_ (fun _ _ _ => ?_)) | split)

theorem forceDiag_foot {m : Nat} {z : State} (s : State) (n : Nat) (c : Byte) (hm : 0x838000800 ||| m = m) (h0 : Foot m z s) :
    Foot m z (forceDiag s n c) := by
  unfold forceDiag
  try dsimp only
  repeat' (first | with_reducible assumption | exact Foot.sub (by decide) hm | with_reducible apply modFch_foot | with_reducible apply fabEdge_foot | with_reducible apply raiseDiag_foot | with_reducible apply Foot.ite | (with_reducible refine Foot.foldl ?_ (fun _ _ _ => ?_)) | split)

theorem execShortGnd_foot {m : Nat} {z : State} (n : FcId) (s : State) (hm : 0x838000800 ||| m = m) (h0 : Foot m z s) :
    ∃ u, execShortGnd n s = .next u ∧ Foot m z u := by
  unfold execShortGnd
  try dsimp only
  repeat' (first | (with_reducible refine ⟨_, rfl, ?_⟩) | with_reducible assumption | exact Foot.sub (by decide) hm | with_reducible apply forceDiag_foot | with_reducible apply Foot.ite | (with_reducible refine Foot.foldl ?_ (fun _ _ _ => ?_)) | split)

theorem execShortSupply_foot {m : Nat} {z : State} (n : FcId) (s : State) (hm : 0x838000800 ||| m = m) (h0 : Foot m z s) :
    ∃ u, execShortSupply n s = .next u ∧ Foot m z u := by
  unfold execShortSupply
  try dsimp only
  repeat' (first | (with_reducible refine ⟨_, rfl, ?_⟩) | with_reducible assumption | exact Foot.sub (by decide) hm | with_reducible apply forceDiag_foot | with_reducible apply Foot.ite | (with_reducible refine Foot.foldl ?_ (fun _ _ _ => ?_)) | split)

theorem execOvertemp_foot {m : Nat} {z : State} (n : FcId) (s : State) (hm : 0x838000800 ||| m = m) (h0 : Foot m z s) :
    ∃ u, execOvertemp n s = .next u ∧ Foot m z u := by
  unfold execOvertemp
  try dsimp only
  repeat' (first | (with_reducible refine ⟨_, rfl, ?_⟩) | with_reducible assumption | exact Foot.sub (by decide) hm | with_reducible apply forceDiag_foot | with_reducible apply Foot.ite | (with_reducible refine Foot.foldl ?_ (fun _ _ _ => ?_)) | split)

theorem execOpenWire_foot {m : Nat} {z : State} (n : FcId) (s : State) (hm : 0x838000800 ||| m = m) (h0 : Foot m z s) :
    ∃ u, execOpenWire n s = .next u ∧ Foot m z u := by
  unfold execOpenWire
  try dsimp only
  repeat' (first | (with_reducible refine ⟨_, rfl, ?_⟩) | with_reducible assumption | exact Foot.sub (by decide) hm | with_reducible apply reportDiag_foot | with_reducible apply Foot.ite | (with_reducible refine Foot.foldl ?_ (fun _ _ _ => ?_)) | split)

theorem abandonPulse_foot {m : Nat} {z : State} (s : State) (n : Nat) (hm : 0x10000000 ||| m = m) (h0 : Foot m z s) :
    Foot m z (abandonPulse s n) := by
  unfold abandonPulse
  try dsimp only
  repeat' (first | with_reducible assumption | exact Foot.sub (by decide) hm | with_reducible apply modFch_foot | with_reducible apply Foot.ite | (with_reducible refine Foot.foldl ?_ (fun _ _ _ => ?_)) | split)

theorem execAinOpenWirePulse_foot {m : Nat} {z : State} (n : FcId) (skipped isOpen : Bool) (s : State) (hm : 0x838000800 ||| m = m) (h0 : Foot m z s) :
    ∃ u, execAinOpenWirePulse n skipped isOpen s = .next u ∧ Foot m z u := by
  unfold execAinOpenWirePulse
  try dsimp only
  repeat' (first | (with_reducible refine ⟨_, rfl, ?_⟩) | with_reducible assumption | exact Foot.sub (by decide) hm | with_reducible apply reportDiag_foot | with_reducible apply abandonPulse_foot | with_reducible apply Foot.ite | (with_reducible refine Foot.foldl ?_ (fun _ _ _ => ?_)) | split)

theorem execOpenLoadOn_foot {m : Nat} {z : State} (n : FcId) (s : State) (hm : 0x838000800 ||| m = m) (h0 : Foot m z s) :
    ∃ u, execOpenLoadOn n s = .next u ∧ Foot m z u := by
  unfold execOpenLoadOn
  try dsimp only
  repeat' (first | (with_reducible refine ⟨_, rfl, ?_⟩) | with_reducible assumption | exact Foot.sub (by decide) hm | with_reducible apply reportDiag_foot | with_reducible apply Foot.ite | (with_reducible refine Foot.foldl ?_ (fun _ _ _ => ?_)) | split)

theorem execOpenLoadOff_foot {m : Nat} {z : State} (n : FcId) (isOpen : Bool) (s : State) (hm : 0x838000800 ||| m = m) (h0 : Foot m z s) :
    ∃ u, execOpenLoadOff n isOpen s = .next u ∧ Foot m z u := by
  unfold execOpenLoadOff
  try dsimp only
  repeat' (first | (with_reducible refine ⟨_, rfl, ?_⟩) | with_reducible assumption | exact Foot.sub (by decide) hm | with_reducible apply reportDiag_foot | with_reducible apply abandonPulse_foot | with_reducible apply Foot.ite | (with_reducible refine Foot.foldl ?_ (fun _ _ _ => ?_)) | split)

theorem execReversed_foot {m : Nat} {z : State} (n : FcId) (s : State) (hm : 0x838000800 ||| m = m) (h0 : Foot m z s) :
    ∃ u, execReversed n s = .next u ∧ Foot m z u := by
  unfold execReversed
  try dsimp only
  repeat' (first | (with_reducible refine ⟨_, rfl, ?_⟩) | with_reducible assumption | exact Foot.sub (by decide) hm | with_reducible apply setFch_foot | with_reducible apply fabEdge_foot | with_reducible apply reportDiag_foot | with_reducible apply Foot.ite | (with_reducible refine Foot.foldl ?_ (fun _ _ _ => ?_)) | split)

theorem execDiagRetry_foot {m : Nat} {z : State} (n : FcId) (s : State) (hm : 0x18000000 ||| m = m) (h0 : Foot m z s) :
    ∃ u, execDiagRetry n s = .next u ∧ Foot m z u := by
  unfold execDiagRetry
  try dsimp only
  repeat' (first | (with_reducible refine ⟨_, rfl, ?_⟩) | with_reducible assumption | exact Foot.sub (by decide) hm | with_reducible apply setFch_foot | with_reducible apply fabEdge_foot | with_reducible apply Foot.ite | (with_reducible refine Foot.foldl ?_ (fun _ _ _ => ?_)) | split)

theorem execDiagnosisEnd_foot {m : Nat} {z : State} (n : FcId) (code : Byte) (s : State) (hm : 0x38000800 ||| m = m) (h0 : Foot m z s) :
    ∃ u, execDiagnosisEnd n code s = .next u ∧ Foot m z u := by
  unfold execDiagnosisEnd
  try dsimp only
  repeat' (first | (with_reducible refine ⟨_, rfl, ?_⟩) | with_reducible assumption | exact Foot.sub (by decide) hm | with_reducible apply setFch_foot | with_reducible apply errorReset_foot | with_reducible apply fabEdge_foot | with_reducible apply Foot.ite | (with_reducible refine Foot.foldl ?_ (fun _ _ _ => ?_)) | split)

theorem applyDiagClear_foot {m : Nat} {z : State} (s : State) (n : Nat) (v : Byte) (hm : 0x38000800 ||| m = m) (h0 : Foot m z s) :
    Foot m z (applyDiagClear s n v).2 := by
  unfold applyDiagClear
  try dsimp only
  repeat' (first | with_reducible assumption | exact Foot.sub (by decide) hm | with_reducible apply modFch_foot | with_reducible apply errorReset_foot | with_reducible apply fabEdge_foot | with_reducible apply Foot.ite | (with_reducible refine Foot.foldl ?_ (fun _ _ _ => ?_)) | split)

theorem spsFault_foot {m : Nat} {z : State} (s : State) (g : Nat) (code : Byte) (hm : 0x838000800 ||| m = m) (h0 : Foot m z s) :
    Foot m z (spsFault s g code) := by
  unfold spsFault
  try dsimp only
  repeat' (first | with_reducible assumption | exact Foot.sub (by decide) hm | with_reducible apply logEvent_foot | with_reducible apply emergency_foot | with_reducible apply fabEdge_foot | with_reducible apply Foot.ite | (with_reducible refine Foot.foldl ?_ (fun _ _ _ => ?_)) | split)

theorem execSpsOverload_foot {m : Nat} {z : State} (g : GroupId) (s : State) (hm : 0x838000800 ||| m = m) (h0 : Foot m z s) :
    ∃ u, execSpsOverload g s = .next u ∧ Foot m z u := by
  unfold execSpsOverload
  try dsimp only
  repeat' (first | (with_reducible refine ⟨_, rfl, ?_⟩) | with_reducible assumption | exact Foot.sub (by decide) hm | with_reducible apply setGrp_foot | with_reducible apply spsFault_foot | with_reducible apply Foot.ite | (with_reducible refine Foot.foldl ?_ (fun _ _ _ => ?_)) | split)

theorem execSpsRetry_foot {m : Nat} {z : State} (g : GroupId) (s : State) (hm : 0x38000800 ||| m = m) (h0 : Foot m z s) :
    ∃ u, execSpsRetry g s = .next u ∧ Foot m z u := by
  unfold execSpsRetry
  try dsimp only
  repeat' (first | (with_reducible refine ⟨_, rfl, ?_⟩) | with_reducible assumption | exact Foot.sub (by decide) hm | with_reducible apply modGrp_foot | with_reducible apply errorReset_foot | with_reducible apply fabEdge_foot | with_reducible apply Foot.ite | (with_reducible refine Foot.foldl ?_ (fun _ _ _ => ?_)) | split)

theorem execSpsReverse_foot {m : Nat} {z : State} (g : GroupId) (s : State) (hm : 0x838000800 ||| m = m) (h0 : Foot m z s) :
    ∃ u, execSpsReverse g s = .next u ∧ Foot m z u := by
  unfold execSpsReverse
  try dsimp only
  repeat' (first | (with_reducible refine ⟨_, rfl, ?_⟩) | with_reducible assumption | exact Foot.sub (by decide) hm | with_reducible apply setGrp_foot | with_reducible apply spsFault_foot | with_reducible apply Foot.ite | (with_reducible refine Foot.foldl ?_ (fun _ _ _ => ?_)) | split)

theorem execSpsReverseEnd_foot {m : Nat} {z : State} (g : GroupId) (s : State) (hm : 0x38000800 ||| m = m) (h0 : Foot m z s) :
    ∃ u, execSpsReverseEnd g s = .next u ∧ Foot m z u := by
  unfold execSpsReverseEnd
  try dsimp only
  repeat' (first | (with_reducible refine ⟨_, rfl, ?_⟩) | with_reducible assumption | exact Foot.sub (by decide) hm | with_reducible apply modGrp_foot | with_reducible apply errorReset_foot | with_reducible apply fabEdge_foot | with_reducible apply Foot.ite | (with_reducible refine Foot.foldl ?_ (fun _ _ _ => ?_)) | split)

theorem applySpsEnable_foot {m : Nat} {z : State} (s : State) (g : Nat) (v : Byte) (hm : 0x38000800 ||| m = m) (h0 : Foot m z s) :
    Foot m z (applySpsEnable s g v).2 := by
  unfold applySpsEnable
  try dsimp only
  repeat' (first | with_reducible assumption | exact Foot.sub (by decide) hm | with_reducible apply modGrp_foot | with_reducible apply errorReset_foot | with_reducible apply fabEdge_foot | with_reducible apply Foot.ite | (with_reducible refine Foot.foldl ?_ (fun _ _ _ => ?_)) | split)

theorem groupFault_foot {m : Nat} {z : State} (s : State) (g : Nat) (cause : BitVec 4) (hm : 0x8BCB5EBF5 ||| m = m) (h0 : Foot m z s) :
    Foot m z (groupFault s g cause) := by
  unfold groupFault
  try dsimp only
  repeat' (first | with_reducible assumption | exact Foot.sub (by decide) hm | with_reducible apply setGrp_foot | with_reducible apply tideFault_foot | with_reducible apply logEvent_foot | with_reducible apply emergency_foot | with_reducible apply fabEdge_foot | with_reducible apply abortOrders_foot | with_reducible apply Foot.ite | (with_reducible refine Foot.foldl ?_ (fun _ _ _ => ?_)) | split)

theorem execGroupCurrentAverage_foot {m : Nat} {z : State} (g : GroupId) (milliamps : Half) (s : State) (hm : 0x8BCB5EBF5 ||| m = m) (h0 : Foot m z s) :
    ∃ u, execGroupCurrentAverage g milliamps s = .next u ∧ Foot m z u := by
  unfold execGroupCurrentAverage
  try dsimp only
  repeat' (first | (with_reducible refine ⟨_, rfl, ?_⟩) | with_reducible assumption | exact Foot.sub (by decide) hm | with_reducible apply modGrp_foot | with_reducible apply takeMark_foot | with_reducible apply groupFault_foot | with_reducible apply Foot.ite | (with_reducible refine Foot.foldl ?_ (fun _ _ _ => ?_)) | split)

theorem execModuleBudgetCheck_foot {m : Nat} {z : State} (s : State) (hm : 0x8BCB5EBF5 ||| m = m) (h0 : Foot m z s) :
    ∃ u, execModuleBudgetCheck s = .next u ∧ Foot m z u := by
  unfold execModuleBudgetCheck
  try dsimp only
  repeat' (first | (with_reducible refine ⟨_, rfl, ?_⟩) | with_reducible assumption | exact Foot.sub (by decide) hm | with_reducible apply takeMark_foot | with_reducible apply groupFault_foot | with_reducible apply Foot.ite | (with_reducible refine Foot.foldl ?_ (fun _ _ _ => ?_)) | split)

theorem execGroupMonitorTrip_foot {m : Nat} {z : State} (g : GroupId) (which : Fin 3) (s : State) (hm : 0x8BCB5EBF5 ||| m = m) (h0 : Foot m z s) :
    ∃ u, execGroupMonitorTrip g which s = .next u ∧ Foot m z u := by
  unfold execGroupMonitorTrip
  try dsimp only
  repeat' (first | (with_reducible refine ⟨_, rfl, ?_⟩) | with_reducible assumption | exact Foot.sub (by decide) hm | with_reducible apply takeMark_foot | with_reducible apply groupFault_foot | with_reducible apply Foot.ite | (with_reducible refine Foot.foldl ?_ (fun _ _ _ => ?_)) | split)

theorem execGroupOvercurrentEscalation_foot {m : Nat} {z : State} (g : GroupId) (s : State) (hm : 0x18000000 ||| m = m) (h0 : Foot m z s) :
    ∃ u, execGroupOvercurrentEscalation g s = .next u ∧ Foot m z u := by
  unfold execGroupOvercurrentEscalation
  try dsimp only
  repeat' (first | (with_reducible refine ⟨_, rfl, ?_⟩) | with_reducible assumption | exact Foot.sub (by decide) hm | with_reducible apply modFch_foot | with_reducible apply fabEdge_foot | with_reducible apply Foot.ite | (with_reducible refine Foot.foldl ?_ (fun _ _ _ => ?_)) | split)

theorem applyGroupClear_foot {m : Nat} {z : State} (s : State) (g : Nat) (v : Byte) (hm : 0x38000800 ||| m = m) (h0 : Foot m z s) :
    Foot m z (applyGroupClear s g v).2 := by
  unfold applyGroupClear
  try dsimp only
  repeat' (first | with_reducible assumption | exact Foot.sub (by decide) hm | with_reducible apply modFch_foot | with_reducible apply modGrp_foot | with_reducible apply errorReset_foot | with_reducible apply fabEdge_foot | with_reducible apply Foot.ite | (with_reducible refine Foot.foldl ?_ (fun _ _ _ => ?_)) | split)

theorem execCrossingSilence_foot {m : Nat} {z : State} (die : Fin 2) (resumed : Bool) (s : State) (hm : 0x18000000 ||| m = m) (h0 : Foot m z s) :
    ∃ u, execCrossingSilence die resumed s = .next u ∧ Foot m z u := by
  unfold execCrossingSilence
  try dsimp only
  repeat' (first | (with_reducible refine ⟨_, rfl, ?_⟩) | with_reducible assumption | exact Foot.sub (by decide) hm | with_reducible apply fabEdge_foot | with_reducible apply Foot.ite | (with_reducible refine Foot.foldl ?_ (fun _ _ _ => ?_)) | (fail_if_no_progress (with_reducible refine Foot.up_field ?_ (Foot.sub (by decide) hm))) | split)

end Sys2Proof.Machine
end

