-- ==== Sys2Proof/Laws/FootMicro.lean ====
section
/-! SUPPORT. Which components of the state each operation of Machine/Micro.lean can change. -/

set_option linter.unusedTactic false
set_option linter.unusedVariables false
set_option linter.unreachableTactic false

namespace Sys2Proof.Machine

theorem repairWord_foot {m : Nat} {z : State} (s : State) (q k : Nat) (hm : 0x80030A100 ||| m = m) (h0 : Foot m z s) :
    Foot m z (repairWord s q k) := by
  unfold repairWord
  try dsimp only
  repeat' (first | with_reducible assumption | exact Foot.sub (by decide) hm | with_reducible apply modSqr_foot | with_reducible apply logEvent_foot | with_reducible apply readCopied_foot | with_reducible apply Foot.ite | (with_reducible refine Foot.foldl ?_ (fun _ _ _ => ?_)) | split)

theorem mendWord_foot {m : Nat} {z : State} (s : State) (q : SeqId) (k : Nat) (hm : 0x8ACB5EFF5 ||| m = m) (h0 : Foot m z s) :
    Foot m z (mendWord s q k) := by
  unfold mendWord
  try dsimp only
  repeat' (first | with_reducible assumption | exact Foot.sub (by decide) hm | with_reducible apply takeMark_foot | with_reducible apply seqFault_foot | with_reducible apply repairWord_foot | with_reducible apply Foot.ite | (with_reducible refine Foot.foldl ?_ (fun _ _ _ => ?_)) | split)

theorem microFault_foot {m : Nat} {z : State} (s : State) (q : SeqId) (t : Tenant) (hm : 0x88CB5EBF5 ||| m = m) (h0 : Foot m z s) :
    Foot m z (microFault s q t) := by
  unfold microFault
  try dsimp only
  repeat' (first | with_reducible assumption | exact Foot.sub (by decide) hm | with_reducible apply logEvent_foot | with_reducible apply abortOrders_foot | with_reducible apply Foot.ite | (with_reducible refine Foot.foldl ?_ (fun _ _ _ => ?_)) | split)

theorem runMicro_foot {m : Nat} {z : State} (s : State) (q : SeqId) (w : Word) (bad : Sequencer → Bool) (eff : Tenant → State → State) (hm : 0x8ACB5EFF5 ||| m = m) (h0 : Foot m z s)(hs : ∀ t u, Foot m z u → Foot m z (eff t u)) :
    Foot m z (runMicro s q w bad eff) := by
  unfold runMicro
  try dsimp only
  repeat' (first | with_reducible assumption | exact Foot.sub (by decide) hm | with_reducible apply modSqr_foot | with_reducible apply mendWord_foot | with_reducible apply microFault_foot | with_reducible apply Foot.ite | (with_reducible refine Foot.foldl ?_ (fun _ _ _ => ?_)) | with_reducible apply hs | split)

theorem endMicro_foot {m : Nat} {z : State} (s : State) (t : Tenant) (q : SeqId) (n : Nat) (hm : 0x900 ||| m = m) (h0 : Foot m z s) :
    Foot m z (endMicro s t q n) := by
  unfold endMicro
  try dsimp only
  repeat' (first | with_reducible assumption | exact Foot.sub (by decide) hm | with_reducible apply modSqr_foot | with_reducible apply addTime_foot | with_reducible apply Foot.ite | (with_reducible refine Foot.foldl ?_ (fun _ _ _ => ?_)) | split)

theorem planeSlice_foot {m : Nat} {z : State} (s0 : State) (x : Sequencer) (w : PlaneW) (add : Bool) (g : Nat) (u : State) (e : Elem) (hm : 0x70 ||| m = m) (h0 : Foot m z s0) (h1 : Foot m z u) :
    Foot m z (planeSlice s0 x w add g u e) := by
  unfold planeSlice
  try dsimp only
  repeat' (first | with_reducible assumption | exact Foot.sub (by decide) hm | with_reducible apply setPe_foot | with_reducible apply setPeBit_foot | with_reducible apply setPeX_foot | with_reducible apply setPeRes_foot | with_reducible apply setC_foot | with_reducible apply setK_foot | with_reducible apply Foot.ite | (with_reducible refine Foot.foldl ?_ (fun _ _ _ => ?_)) | split)

theorem planeTouch_foot {m : Nat} {z : State} (s : State) (x : Sequencer) (w : PlaneW) (g : Nat) (es : List Elem) (hm : 0x10 ||| m = m) (h0 : Foot m z s) :
    Foot m z (planeTouch s x w g es) := by
  unfold planeTouch
  try dsimp only
  repeat' (first | with_reducible assumption | exact Foot.sub (by decide) hm | with_reducible apply touch_foot | with_reducible apply Foot.ite | (with_reducible refine Foot.foldl ?_ (fun _ _ _ => ?_)) | split)

theorem plane_foot {m : Nat} {z : State} (s : State) (q : SeqId) (w : PlaneW) (add : Bool) (hm : 0x8ACB5EFF5 ||| m = m) (h0 : Foot m z s) :
    Foot m z (plane s q w add) := by
  unfold plane
  try dsimp only
  repeat' (first | with_reducible assumption | exact Foot.sub (by decide) hm | with_reducible apply modSqr_foot | with_reducible apply runMicro_foot | with_reducible apply endMicro_foot | with_reducible apply planeSlice_foot | with_reducible apply planeTouch_foot | with_reducible apply Foot.ite | (with_reducible refine Foot.foldl ?_ (fun _ _ _ => ?_)) | intro _ | split)

theorem execPlaneLog_foot {m : Nat} {z : State} (q : SeqId) (w : PlaneW) (s : State) (hm : 0x8ACB5EFF5 ||| m = m) (h0 : Foot m z s) :
    ∃ u, execPlaneLog q w s = .next u ∧ Foot m z u := by
  unfold execPlaneLog
  try dsimp only
  repeat' (first | (with_reducible refine ⟨_, rfl, ?_⟩) | with_reducible assumption | exact Foot.sub (by decide) hm | with_reducible apply plane_foot | with_reducible apply Foot.ite | (with_reducible refine Foot.foldl ?_ (fun _ _ _ => ?_)) | split)

theorem execPlaneAdd_foot {m : Nat} {z : State} (q : SeqId) (w : PlaneW) (s : State) (hm : 0x8ACB5EFF5 ||| m = m) (h0 : Foot m z s) :
    ∃ u, execPlaneAdd q w s = .next u ∧ Foot m z u := by
  unfold execPlaneAdd
  try dsimp only
  repeat' (first | (with_reducible refine ⟨_, rfl, ?_⟩) | with_reducible assumption | exact Foot.sub (by decide) hm | with_reducible apply plane_foot | with_reducible apply Foot.ite | (with_reducible refine Foot.foldl ?_ (fun _ _ _ => ?_)) | split)

theorem laneShift_foot {m : Nat} {z : State} (s0 : State) (g : Nat) (east : Bool) (u : State) (e : Elem) (hm : 0x10 ||| m = m) (h0 : Foot m z s0) (h1 : Foot m z u) :
    Foot m z (laneShift s0 g east u e) := by
  unfold laneShift
  try dsimp only
  repeat' (first | with_reducible assumption | exact Foot.sub (by decide) hm | with_reducible apply setPeX_foot | with_reducible apply setC_foot | with_reducible apply Foot.ite | (with_reducible refine Foot.foldl ?_ (fun _ _ _ => ?_)) | split)

theorem culvertLatch_foot {m : Nat} {z : State} (s : State) (d : Nat) (l : List (TileId × Fin 8)) (hm : 0x10 ||| m = m) (h0 : Foot m z s) :
    Foot m z (culvertLatch s d l) := by
  unfold culvertLatch
  try dsimp only
  repeat' (first | with_reducible assumption | exact Foot.sub (by decide) hm | with_reducible apply setPe_foot | with_reducible apply Foot.ite | (with_reducible refine Foot.foldl ?_ (fun _ _ _ => ?_)) | split)

theorem execNews_foot {m : Nat} {z : State} (q : SeqId) (dir : BitVec 2) (ls : Bool) (w : NewsW) (s : State) (hm : 0x8ACB5EFFD ||| m = m) (h0 : Foot m z s) :
    ∃ u, execNews q dir ls w s = .next u ∧ Foot m z u := by
  unfold execNews
  try dsimp only
  repeat' (first | (with_reducible refine ⟨_, rfl, ?_⟩) | with_reducible assumption | exact Foot.sub (by decide) hm | with_reducible apply setPeX_foot | with_reducible apply linkSample_foot | with_reducible apply runMicro_foot | with_reducible apply endMicro_foot | with_reducible apply laneShift_foot | with_reducible apply culvertLatch_foot | with_reducible apply Foot.ite | (with_reducible refine Foot.foldl ?_ (fun _ _ _ => ?_)) | intro _ | split)

theorem addrOp_foot {m : Nat} {z : State} (s : State) (q : SeqId) (w : AddrW) (mode : BitVec 3) (f : Sequencer → MicroAddr) (hm : 0x8ACB5EFF5 ||| m = m) (h0 : Foot m z s) :
    Foot m z (addrOp s q w mode f) := by
  unfold addrOp
  try dsimp only
  repeat' (first | with_reducible assumption | exact Foot.sub (by decide) hm | with_reducible apply modSqr_foot | with_reducible apply runMicro_foot | with_reducible apply endMicro_foot | with_reducible apply Foot.ite | (with_reducible refine Foot.foldl ?_ (fun _ _ _ => ?_)) | intro _ | split)

theorem execAddrImm_foot {m : Nat} {z : State} (q : SeqId) (w : AddrW) (s : State) (hm : 0x8ACB5EFF5 ||| m = m) (h0 : Foot m z s) :
    ∃ u, execAddrImm q w s = .next u ∧ Foot m z u := by
  unfold execAddrImm
  try dsimp only
  repeat' (first | (with_reducible refine ⟨_, rfl, ?_⟩) | with_reducible assumption | exact Foot.sub (by decide) hm | with_reducible apply addrOp_foot | with_reducible apply Foot.ite | (with_reducible refine Foot.foldl ?_ (fun _ _ _ => ?_)) | split)

theorem execAddrAdd_foot {m : Nat} {z : State} (q : SeqId) (w : AddrW) (s : State) (hm : 0x8ACB5EFF5 ||| m = m) (h0 : Foot m z s) :
    ∃ u, execAddrAdd q w s = .next u ∧ Foot m z u := by
  unfold execAddrAdd
  try dsimp only
  repeat' (first | (with_reducible refine ⟨_, rfl, ?_⟩) | with_reducible assumption | exact Foot.sub (by decide) hm | with_reducible apply addrOp_foot | with_reducible apply Foot.ite | (with_reducible refine Foot.foldl ?_ (fun _ _ _ => ?_)) | split)

theorem execAddrScalar_foot {m : Nat} {z : State} (q : SeqId) (w : AddrW) (s : State) (hm : 0x8ACB5EFF5 ||| m = m) (h0 : Foot m z s) :
    ∃ u, execAddrScalar q w s = .next u ∧ Foot m z u := by
  unfold execAddrScalar
  try dsimp only
  repeat' (first | (with_reducible refine ⟨_, rfl, ?_⟩) | with_reducible assumption | exact Foot.sub (by decide) hm | with_reducible apply addrOp_foot | with_reducible apply Foot.ite | (with_reducible refine Foot.foldl ?_ (fun _ _ _ => ?_)) | split)

theorem execAddrCopy_foot {m : Nat} {z : State} (q : SeqId) (w : AddrW) (s : State) (hm : 0x8ACB5EFF5 ||| m = m) (h0 : Foot m z s) :
    ∃ u, execAddrCopy q w s = .next u ∧ Foot m z u := by
  unfold execAddrCopy
  try dsimp only
  repeat' (first | (with_reducible refine ⟨_, rfl, ?_⟩) | with_reducible assumption | exact Foot.sub (by decide) hm | with_reducible apply addrOp_foot | with_reducible apply Foot.ite | (with_reducible refine Foot.foldl ?_ (fun _ _ _ => ?_)) | split)

theorem execAddrWrap_foot {m : Nat} {z : State} (q : SeqId) (w : AddrW) (s : State) (hm : 0x8ACB5EFF5 ||| m = m) (h0 : Foot m z s) :
    ∃ u, execAddrWrap q w s = .next u ∧ Foot m z u := by
  unfold execAddrWrap
  try dsimp only
  repeat' (first | (with_reducible refine ⟨_, rfl, ?_⟩) | with_reducible assumption | exact Foot.sub (by decide) hm | with_reducible apply addrOp_foot | with_reducible apply Foot.ite | (with_reducible refine Foot.foldl ?_ (fun _ _ _ => ?_)) | split)

theorem execAddrSlide_foot {m : Nat} {z : State} (q : SeqId) (w : AddrW) (s : State) (hm : 0x8ACB5EFF5 ||| m = m) (h0 : Foot m z s) :
    ∃ u, execAddrSlide q w s = .next u ∧ Foot m z u := by
  unfold execAddrSlide
  try dsimp only
  repeat' (first | (with_reducible refine ⟨_, rfl, ?_⟩) | with_reducible assumption | exact Foot.sub (by decide) hm | with_reducible apply addrOp_foot | with_reducible apply Foot.ite | (with_reducible refine Foot.foldl ?_ (fun _ _ _ => ?_)) | split)

theorem execAddrPlain_foot {m : Nat} {z : State} (q : SeqId) (w : AddrW) (s : State) (hm : 0x8ACB5EFF5 ||| m = m) (h0 : Foot m z s) :
    ∃ u, execAddrPlain q w s = .next u ∧ Foot m z u := by
  unfold execAddrPlain
  try dsimp only
  repeat' (first | (with_reducible refine ⟨_, rfl, ?_⟩) | with_reducible assumption | exact Foot.sub (by decide) hm | with_reducible apply addrOp_foot | with_reducible apply Foot.ite | (with_reducible refine Foot.foldl ?_ (fun _ _ _ => ?_)) | split)

theorem scalOp_foot {m : Nat} {z : State} (s : State) (q : SeqId) (w : ScalW) (fn : BitVec 4) (f : Sequencer → Word) (hm : 0x8ACB5EFF5 ||| m = m) (h0 : Foot m z s) :
    Foot m z (scalOp s q w fn f) := by
  unfold scalOp
  try dsimp only
  repeat' (first | with_reducible assumption | exact Foot.sub (by decide) hm | with_reducible apply modSqr_foot | with_reducible apply runMicro_foot | with_reducible apply endMicro_foot | with_reducible apply Foot.ite | (with_reducible refine Foot.foldl ?_ (fun _ _ _ => ?_)) | intro _ | split)

theorem execScalAdd_foot {m : Nat} {z : State} (q : SeqId) (w : ScalW) (s : State) (hm : 0x8ACB5EFF5 ||| m = m) (h0 : Foot m z s) :
    ∃ u, execScalAdd q w s = .next u ∧ Foot m z u := by
  unfold execScalAdd
  try dsimp only
  repeat' (first | (with_reducible refine ⟨_, rfl, ?_⟩) | with_reducible assumption | exact Foot.sub (by decide) hm | with_reducible apply scalOp_foot | with_reducible apply Foot.ite | (with_reducible refine Foot.foldl ?_ (fun _ _ _ => ?_)) | split)

theorem execScalAddi_foot {m : Nat} {z : State} (q : SeqId) (w : ScalW) (s : State) (hm : 0x8ACB5EFF5 ||| m = m) (h0 : Foot m z s) :
    ∃ u, execScalAddi q w s = .next u ∧ Foot m z u := by
  unfold execScalAddi
  try dsimp only
  repeat' (first | (with_reducible refine ⟨_, rfl, ?_⟩) | with_reducible assumption | exact Foot.sub (by decide) hm | with_reducible apply scalOp_foot | with_reducible apply Foot.ite | (with_reducible refine Foot.foldl ?_ (fun _ _ _ => ?_)) | split)

theorem execScalSub_foot {m : Nat} {z : State} (q : SeqId) (w : ScalW) (s : State) (hm : 0x8ACB5EFF5 ||| m = m) (h0 : Foot m z s) :
    ∃ u, execScalSub q w s = .next u ∧ Foot m z u := by
  unfold execScalSub
  try dsimp only
  repeat' (first | (with_reducible refine ⟨_, rfl, ?_⟩) | with_reducible assumption | exact Foot.sub (by decide) hm | with_reducible apply scalOp_foot | with_reducible apply Foot.ite | (with_reducible refine Foot.foldl ?_ (fun _ _ _ => ?_)) | split)

theorem execScalAnd_foot {m : Nat} {z : State} (q : SeqId) (w : ScalW) (s : State) (hm : 0x8ACB5EFF5 ||| m = m) (h0 : Foot m z s) :
    ∃ u, execScalAnd q w s = .next u ∧ Foot m z u := by
  unfold execScalAnd
  try dsimp only
  repeat' (first | (with_reducible refine ⟨_, rfl, ?_⟩) | with_reducible assumption | exact Foot.sub (by decide) hm | with_reducible apply scalOp_foot | with_reducible apply Foot.ite | (with_reducible refine Foot.foldl ?_ (fun _ _ _ => ?_)) | split)

theorem execScalOr_foot {m : Nat} {z : State} (q : SeqId) (w : ScalW) (s : State) (hm : 0x8ACB5EFF5 ||| m = m) (h0 : Foot m z s) :
    ∃ u, execScalOr q w s = .next u ∧ Foot m z u := by
  unfold execScalOr
  try dsimp only
  repeat' (first | (with_reducible refine ⟨_, rfl, ?_⟩) | with_reducible assumption | exact Foot.sub (by decide) hm | with_reducible apply scalOp_foot | with_reducible apply Foot.ite | (with_reducible refine Foot.foldl ?_ (fun _ _ _ => ?_)) | split)

theorem execScalXor_foot {m : Nat} {z : State} (q : SeqId) (w : ScalW) (s : State) (hm : 0x8ACB5EFF5 ||| m = m) (h0 : Foot m z s) :
    ∃ u, execScalXor q w s = .next u ∧ Foot m z u := by
  unfold execScalXor
  try dsimp only
  repeat' (first | (with_reducible refine ⟨_, rfl, ?_⟩) | with_reducible assumption | exact Foot.sub (by decide) hm | with_reducible apply scalOp_foot | with_reducible apply Foot.ite | (with_reducible refine Foot.foldl ?_ (fun _ _ _ => ?_)) | split)

theorem execScalShl_foot {m : Nat} {z : State} (q : SeqId) (w : ScalW) (s : State) (hm : 0x8ACB5EFF5 ||| m = m) (h0 : Foot m z s) :
    ∃ u, execScalShl q w s = .next u ∧ Foot m z u := by
  unfold execScalShl
  try dsimp only
  repeat' (first | (with_reducible refine ⟨_, rfl, ?_⟩) | with_reducible assumption | exact Foot.sub (by decide) hm | with_reducible apply scalOp_foot | with_reducible apply Foot.ite | (with_reducible refine Foot.foldl ?_ (fun _ _ _ => ?_)) | split)

theorem execScalShr_foot {m : Nat} {z : State} (q : SeqId) (w : ScalW) (s : State) (hm : 0x8ACB5EFF5 ||| m = m) (h0 : Foot m z s) :
    ∃ u, execScalShr q w s = .next u ∧ Foot m z u := by
  unfold execScalShr
  try dsimp only
  repeat' (first | (with_reducible refine ⟨_, rfl, ?_⟩) | with_reducible assumption | exact Foot.sub (by decide) hm | with_reducible apply scalOp_foot | with_reducible apply Foot.ite | (with_reducible refine Foot.foldl ?_ (fun _ _ _ => ?_)) | split)

theorem execScalLi_foot {m : Nat} {z : State} (q : SeqId) (w : ScalW) (s : State) (hm : 0x8ACB5EFF5 ||| m = m) (h0 : Foot m z s) :
    ∃ u, execScalLi q w s = .next u ∧ Foot m z u := by
  unfold execScalLi
  try dsimp only
  repeat' (first | (with_reducible refine ⟨_, rfl, ?_⟩) | with_reducible assumption | exact Foot.sub (by decide) hm | with_reducible apply scalOp_foot | with_reducible apply Foot.ite | (with_reducible refine Foot.foldl ?_ (fun _ _ _ => ?_)) | split)

theorem execScalShi_foot {m : Nat} {z : State} (q : SeqId) (w : ScalW) (s : State) (hm : 0x8ACB5EFF5 ||| m = m) (h0 : Foot m z s) :
    ∃ u, execScalShi q w s = .next u ∧ Foot m z u := by
  unfold execScalShi
  try dsimp only
  repeat' (first | (with_reducible refine ⟨_, rfl, ?_⟩) | with_reducible assumption | exact Foot.sub (by decide) hm | with_reducible apply scalOp_foot | with_reducible apply Foot.ite | (with_reducible refine Foot.foldl ?_ (fun _ _ _ => ?_)) | split)

theorem execScalField_foot {m : Nat} {z : State} (q : SeqId) (w : ScalW) (s : State) (hm : 0x8ACB5EFF5 ||| m = m) (h0 : Foot m z s) :
    ∃ u, execScalField q w s = .next u ∧ Foot m z u := by
  unfold execScalField
  try dsimp only
  repeat' (first | (with_reducible refine ⟨_, rfl, ?_⟩) | with_reducible assumption | exact Foot.sub (by decide) hm | with_reducible apply modSqr_foot | with_reducible apply runMicro_foot | with_reducible apply endMicro_foot | with_reducible apply Foot.ite | (with_reducible refine Foot.foldl ?_ (fun _ _ _ => ?_)) | intro _ | split)

theorem execScalHsb_foot {m : Nat} {z : State} (q : SeqId) (w : ScalW) (s : State) (hm : 0x8ACB5EFF5 ||| m = m) (h0 : Foot m z s) :
    ∃ u, execScalHsb q w s = .next u ∧ Foot m z u := by
  unfold execScalHsb
  try dsimp only
  repeat' (first | (with_reducible refine ⟨_, rfl, ?_⟩) | with_reducible assumption | exact Foot.sub (by decide) hm | with_reducible apply scalOp_foot | with_reducible apply Foot.ite | (with_reducible refine Foot.foldl ?_ (fun _ _ _ => ?_)) | split)

theorem execScalGet_foot {m : Nat} {z : State} (q : SeqId) (w : ScalW) (s : State) (hm : 0x8ACB5EFF5 ||| m = m) (h0 : Foot m z s) :
    ∃ u, execScalGet q w s = .next u ∧ Foot m z u := by
  unfold execScalGet
  try dsimp only
  repeat' (first | (with_reducible refine ⟨_, rfl, ?_⟩) | with_reducible assumption | exact Foot.sub (by decide) hm | with_reducible apply modSqr_foot | with_reducible apply bump_foot | with_reducible apply runMicro_foot | with_reducible apply endMicro_foot | with_reducible apply Foot.ite | (with_reducible refine Foot.foldl ?_ (fun _ _ _ => ?_)) | intro _ | split)

theorem execScalMem_foot {m : Nat} {z : State} (q : SeqId) (w : ScalW) (s : State) (hm : 0x8ACB5EFF5 ||| m = m) (h0 : Foot m z s) :
    ∃ u, execScalMem q w s = .next u ∧ Foot m z u := by
  unfold execScalMem
  try dsimp only
  repeat' (first | (with_reducible refine ⟨_, rfl, ?_⟩) | with_reducible assumption | exact Foot.sub (by decide) hm | with_reducible apply modSqr_foot | with_reducible apply modNi_foot | with_reducible apply runMicro_foot | with_reducible apply endMicro_foot | with_reducible apply Foot.ite | (with_reducible refine Foot.foldl ?_ (fun _ _ _ => ?_)) | (fail_if_no_progress (with_reducible refine Foot.up_noc ?_ (Foot.sub (by decide) hm))) | intro _ | split)

theorem execScalSetlc_foot {m : Nat} {z : State} (q : SeqId) (w : ScalW) (s : State) (hm : 0x8ACB5EFF5 ||| m = m) (h0 : Foot m z s) :
    ∃ u, execScalSetlc q w s = .next u ∧ Foot m z u := by
  unfold execScalSetlc
  try dsimp only
  repeat' (first | (with_reducible refine ⟨_, rfl, ?_⟩) | with_reducible assumption | exact Foot.sub (by decide) hm | with_reducible apply modSqr_foot | with_reducible apply bump_foot | with_reducible apply runMicro_foot | with_reducible apply endMicro_foot | with_reducible apply Foot.ite | (with_reducible refine Foot.foldl ?_ (fun _ _ _ => ?_)) | intro _ | split)

theorem execScalScan_foot {m : Nat} {z : State} (q : SeqId) (w : ScalW) (s : State) (hm : 0x8ACB5EFF5 ||| m = m) (h0 : Foot m z s) :
    ∃ u, execScalScan q w s = .next u ∧ Foot m z u := by
  unfold execScalScan
  try dsimp only
  repeat' (first | (with_reducible refine ⟨_, rfl, ?_⟩) | with_reducible assumption | exact Foot.sub (by decide) hm | with_reducible apply startScan_foot | with_reducible apply runMicro_foot | with_reducible apply endMicro_foot | with_reducible apply Foot.ite | (with_reducible refine Foot.foldl ?_ (fun _ _ _ => ?_)) | intro _ | split)

theorem endMicroWait_foot {m : Nat} {z : State} (s : State) (t : Tenant) (q : SeqId) (w : Wait) (hm : 0x900 ||| m = m) (h0 : Foot m z s) :
    Foot m z (endMicroWait s t q w) := by
  unfold endMicroWait
  try dsimp only
  repeat' (first | with_reducible assumption | exact Foot.sub (by decide) hm | with_reducible apply modSqr_foot | with_reducible apply endMicro_foot | with_reducible apply Foot.ite | (with_reducible refine Foot.foldl ?_ (fun _ _ _ => ?_)) | split)

theorem execWait_foot {m : Nat} {z : State} (q : SeqId) (w : WaitW) (s : State) (hm : 0x8ACB5EFF5 ||| m = m) (h0 : Foot m z s) :
    ∃ u, execWait q w s = .next u ∧ Foot m z u := by
  unfold execWait
  try dsimp only
  repeat' (first | (with_reducible refine ⟨_, rfl, ?_⟩) | with_reducible assumption | exact Foot.sub (by decide) hm | with_reducible apply modSqr_foot | with_reducible apply runMicro_foot | with_reducible apply endMicroWait_foot | with_reducible apply Foot.ite | (with_reducible refine Foot.foldl ?_ (fun _ _ _ => ?_)) | intro _ | split)

theorem execWaitConditionMet_foot {m : Nat} {z : State} (q : SeqId) (s : State) (hm : 0x88CB5EBF5 ||| m = m) (h0 : Foot m z s) :
    ∃ u, execWaitConditionMet q s = .next u ∧ Foot m z u := by
  unfold execWaitConditionMet
  try dsimp only
  repeat' (first | (with_reducible refine ⟨_, rfl, ?_⟩) | with_reducible assumption | exact Foot.sub (by decide) hm | with_reducible apply endAisWait_foot | with_reducible apply endMicroWait_foot | with_reducible apply Foot.ite | (with_reducible refine Foot.foldl ?_ (fun _ _ _ => ?_)) | split)

theorem execMicroTimeout_foot {m : Nat} {z : State} (q : SeqId) (s : State) (hm : 0x88CB5EBF5 ||| m = m) (h0 : Foot m z s) :
    ∃ u, execMicroTimeout q s = .next u ∧ Foot m z u := by
  unfold execMicroTimeout
  try dsimp only
  repeat' (first | (with_reducible refine ⟨_, rfl, ?_⟩) | with_reducible assumption | exact Foot.sub (by decide) hm | with_reducible apply raiseTrap_foot | with_reducible apply Foot.ite | (with_reducible refine Foot.foldl ?_ (fun _ _ _ => ?_)) | split)

theorem entryScan_foot {m : Nat} {z : State} (s : State) (t : Tenant) (q : SeqId) (w : BrW) (hm : 0x110 ||| m = m) (h0 : Foot m z s) :
    Foot m z (entryScan s t q w) := by
  unfold entryScan
  try dsimp only
  repeat' (first | with_reducible assumption | exact Foot.sub (by decide) hm | with_reducible apply startScan_foot | with_reducible apply Foot.ite | (with_reducible refine Foot.foldl ?_ (fun _ _ _ => ?_)) | split)

theorem execMicroBr_foot {m : Nat} {z : State} (q : SeqId) (w : BrW) (s : State) (hm : 0x8ACB5EFF5 ||| m = m) (h0 : Foot m z s) :
    ∃ u, execMicroBr q w s = .next u ∧ Foot m z u := by
  unfold execMicroBr
  try dsimp only
  repeat' (first | (with_reducible refine ⟨_, rfl, ?_⟩) | with_reducible assumption | exact Foot.sub (by decide) hm | with_reducible apply modSqr_foot | with_reducible apply runMicro_foot | with_reducible apply endMicro_foot | with_reducible apply entryScan_foot | with_reducible apply Foot.ite | (with_reducible refine Foot.foldl ?_ (fun _ _ _ => ?_)) | intro _ | split)

theorem execMicroCall_foot {m : Nat} {z : State} (q : SeqId) (w : BrW) (s : State) (hm : 0x8ACB5EFF5 ||| m = m) (h0 : Foot m z s) :
    ∃ u, execMicroCall q w s = .next u ∧ Foot m z u := by
  unfold execMicroCall
  try dsimp only
  repeat' (first | (with_reducible refine ⟨_, rfl, ?_⟩) | with_reducible assumption | exact Foot.sub (by decide) hm | with_reducible apply modSqr_foot | with_reducible apply runMicro_foot | with_reducible apply endMicro_foot | with_reducible apply Foot.ite | (with_reducible refine Foot.foldl ?_ (fun _ _ _ => ?_)) | intro _ | split)

theorem execMicroRet_foot {m : Nat} {z : State} (q : SeqId) (w : BrW) (s : State) (hm : 0x8ACB5EFF5 ||| m = m) (h0 : Foot m z s) :
    ∃ u, execMicroRet q w s = .next u ∧ Foot m z u := by
  unfold execMicroRet
  try dsimp only
  repeat' (first | (with_reducible refine ⟨_, rfl, ?_⟩) | with_reducible assumption | exact Foot.sub (by decide) hm | with_reducible apply modSqr_foot | with_reducible apply runMicro_foot | with_reducible apply endMicro_foot | with_reducible apply Foot.ite | (with_reducible refine Foot.foldl ?_ (fun _ _ _ => ?_)) | intro _ | split)

theorem execLoop_foot {m : Nat} {z : State} (q : SeqId) (w : LoopW) (s : State) (hm : 0x8ACB5EFF5 ||| m = m) (h0 : Foot m z s) :
    ∃ u, execLoop q w s = .next u ∧ Foot m z u := by
  unfold execLoop
  try dsimp only
  repeat' (first | (with_reducible refine ⟨_, rfl, ?_⟩) | with_reducible assumption | exact Foot.sub (by decide) hm | with_reducible apply modSqr_foot | with_reducible apply setPeRes_foot | with_reducible apply setC_foot | with_reducible apply runMicro_foot | with_reducible apply endMicro_foot | with_reducible apply Foot.ite | (with_reducible refine Foot.foldl ?_ (fun _ _ _ => ?_)) | intro _ | split)

theorem execGor_foot {m : Nat} {z : State} (q : SeqId) (w : GorW) (s : State) (hm : 0x8ACB5EFF5 ||| m = m) (h0 : Foot m z s) :
    ∃ u, execGor q w s = .next u ∧ Foot m z u := by
  unfold execGor
  try dsimp only
  repeat' (first | (with_reducible refine ⟨_, rfl, ?_⟩) | with_reducible assumption | exact Foot.sub (by decide) hm | with_reducible apply modSqr_foot | with_reducible apply runMicro_foot | with_reducible apply endMicro_foot | with_reducible apply Foot.ite | (with_reducible refine Foot.foldl ?_ (fun _ _ _ => ?_)) | intro _ | split)

theorem execGorResultDelivery_foot {m : Nat} {z : State} (q : SeqId) (device : Bool) (failed : Option (Option TileId)) (s : State) (hm : 0x8ACB5EBFD ||| m = m) (h0 : Foot m z s) :
    ∃ u, execGorResultDelivery q device failed s = .next u ∧ Foot m z u := by
  unfold execGorResultDelivery
  try dsimp only
  repeat' (first | (with_reducible refine ⟨_, rfl, ?_⟩) | with_reducible assumption | exact Foot.sub (by decide) hm | with_reducible apply modSqr_foot | with_reducible apply takeMark_foot | with_reducible apply recompute_foot | with_reducible apply checkMark_foot | with_reducible apply linkSample_foot | with_reducible apply Foot.ite | (with_reducible refine Foot.foldl ?_ (fun _ _ _ => ?_)) | split)

theorem execBcast_foot {m : Nat} {z : State} (q : SeqId) (w : BcastW) (s : State) (hm : 0x8ACB5EFF5 ||| m = m) (h0 : Foot m z s) :
    ∃ u, execBcast q w s = .next u ∧ Foot m z u := by
  unfold execBcast
  try dsimp only
  repeat' (first | (with_reducible refine ⟨_, rfl, ?_⟩) | with_reducible assumption | exact Foot.sub (by decide) hm | with_reducible apply modSqr_foot | with_reducible apply runMicro_foot | with_reducible apply endMicro_foot | with_reducible apply Foot.ite | (with_reducible refine Foot.foldl ?_ (fun _ _ _ => ?_)) | intro _ | split)

theorem execTrapchkRaise_foot {m : Nat} {z : State} (q : SeqId) (w : TrapW) (s : State) (hm : 0x8ACB5EFF5 ||| m = m) (h0 : Foot m z s) :
    ∃ u, execTrapchkRaise q w s = .next u ∧ Foot m z u := by
  unfold execTrapchkRaise
  try dsimp only
  repeat' (first | (with_reducible refine ⟨_, rfl, ?_⟩) | with_reducible assumption | exact Foot.sub (by decide) hm | with_reducible apply addTime_foot | with_reducible apply raiseTrap_foot | with_reducible apply runMicro_foot | with_reducible apply endMicro_foot | with_reducible apply Foot.ite | (with_reducible refine Foot.foldl ?_ (fun _ _ _ => ?_)) | intro _ | split)

theorem execTrapchkBoundary_foot {m : Nat} {z : State} (q : SeqId) (w : TrapW) (s : State) (hm : 0x8ACB5EFF5 ||| m = m) (h0 : Foot m z s) :
    ∃ u, execTrapchkBoundary q w s = .next u ∧ Foot m z u := by
  unfold execTrapchkBoundary
  try dsimp only
  repeat' (first | (with_reducible refine ⟨_, rfl, ?_⟩) | with_reducible assumption | exact Foot.sub (by decide) hm | with_reducible apply modSqr_foot | with_reducible apply boundary_foot | with_reducible apply runMicro_foot | with_reducible apply endMicro_foot | with_reducible apply Foot.ite | (with_reducible refine Foot.foldl ?_ (fun _ _ _ => ?_)) | intro _ | split)

theorem reschkFlag_foot {m : Nat} {z : State} (s0 : State) (w : ReschkW) (u : State) (k : Nat) (hm : 0x70 ||| m = m) (h0 : Foot m z s0) (h1 : Foot m z u) :
    Foot m z (reschkFlag s0 w u k) := by
  unfold reschkFlag
  try dsimp only
  repeat' (first | with_reducible assumption | exact Foot.sub (by decide) hm | with_reducible apply setSticky_foot | with_reducible apply Foot.ite | (with_reducible refine Foot.foldl ?_ (fun _ _ _ => ?_)) | split)

theorem reschkSlice_foot {m : Nat} {z : State} (s0 : State) (w : ReschkW) (prod : Bool) (g : Nat) (u : State) (e : Elem) (hm : 0x70 ||| m = m) (h0 : Foot m z s0) (h1 : Foot m z u) :
    Foot m z (reschkSlice s0 w prod g u e) := by
  unfold reschkSlice
  try dsimp only
  repeat' (first | with_reducible assumption | exact Foot.sub (by decide) hm | with_reducible apply setPe_foot | with_reducible apply reschkFlag_foot | with_reducible apply Foot.ite | (with_reducible refine Foot.foldl ?_ (fun _ _ _ => ?_)) | split)

theorem reschk_foot {m : Nat} {z : State} (s : State) (q : SeqId) (w : ReschkW) (prod : Bool) (hm : 0x8ACB5EFF5 ||| m = m) (h0 : Foot m z s) :
    Foot m z (reschk s q w prod) := by
  unfold reschk
  try dsimp only
  repeat' (first | with_reducible assumption | exact Foot.sub (by decide) hm | with_reducible apply runMicro_foot | with_reducible apply endMicro_foot | with_reducible apply reschkSlice_foot | with_reducible apply Foot.ite | (with_reducible refine Foot.foldl ?_ (fun _ _ _ => ?_)) | intro _ | split)

theorem execReschkSum_foot {m : Nat} {z : State} (q : SeqId) (w : ReschkW) (s : State) (hm : 0x8ACB5EFF5 ||| m = m) (h0 : Foot m z s) :
    ∃ u, execReschkSum q w s = .next u ∧ Foot m z u := by
  unfold execReschkSum
  try dsimp only
  repeat' (first | (with_reducible refine ⟨_, rfl, ?_⟩) | with_reducible assumption | exact Foot.sub (by decide) hm | with_reducible apply reschk_foot | with_reducible apply Foot.ite | (with_reducible refine Foot.foldl ?_ (fun _ _ _ => ?_)) | split)

theorem execReschkProd_foot {m : Nat} {z : State} (q : SeqId) (w : ReschkW) (s : State) (hm : 0x8ACB5EFF5 ||| m = m) (h0 : Foot m z s) :
    ∃ u, execReschkProd q w s = .next u ∧ Foot m z u := by
  unfold execReschkProd
  try dsimp only
  repeat' (first | (with_reducible refine ⟨_, rfl, ?_⟩) | with_reducible assumption | exact Foot.sub (by decide) hm | with_reducible apply reschk_foot | with_reducible apply Foot.ite | (with_reducible refine Foot.foldl ?_ (fun _ _ _ => ?_)) | split)

theorem execReschkClear_foot {m : Nat} {z : State} (q : SeqId) (w : ReschkW) (s : State) (hm : 0x8ACB5EFF5 ||| m = m) (h0 : Foot m z s) :
    ∃ u, execReschkClear q w s = .next u ∧ Foot m z u := by
  unfold execReschkClear
  try dsimp only
  repeat' (first | (with_reducible refine ⟨_, rfl, ?_⟩) | with_reducible assumption | exact Foot.sub (by decide) hm | with_reducible apply setPe_foot | with_reducible apply setPeRes_foot | with_reducible apply runMicro_foot | with_reducible apply endMicro_foot | with_reducible apply reschkFlag_foot | with_reducible apply Foot.ite | (with_reducible refine Foot.foldl ?_ (fun _ _ _ => ?_)) | intro _ | split)

theorem execFlagOrResult_foot {m : Nat} {z : State} (t : Tenant) (s : State) (hm : 0x88CB5EBF5 ||| m = m) (h0 : Foot m z s) :
    ∃ u, execFlagOrResult t s = .next u ∧ Foot m z u := by
  unfold execFlagOrResult
  try dsimp only
  repeat' (first | (with_reducible refine ⟨_, rfl, ?_⟩) | with_reducible assumption | exact Foot.sub (by decide) hm | with_reducible apply modSqr_foot | with_reducible apply takeFlagOr_foot | with_reducible apply boundary_foot | with_reducible apply Foot.ite | (with_reducible refine Foot.foldl ?_ (fun _ _ _ => ?_)) | split)

end Sys2Proof.Machine
end

