-- ==== Sys2Proof/Laws/FootFaults.lean ====
section
/-! SUPPORT. Which components of the state each operation of Machine/Faults.lean can change. -/

set_option linter.unusedTactic false
set_option linter.unusedVariables false
set_option linter.unreachableTactic false

namespace Sys2Proof.Machine

theorem execPolderMonitorTrip_foot {m : Nat} {z : State} (p : TileId) (s : State) (hm : 0x8ACB5EBFD ||| m = m) (h0 : Foot m z s) :
    ∃ u, execPolderMonitorTrip p s = .next u ∧ Foot m z u := by
  unfold execPolderMonitorTrip
  try dsimp only
  repeat' (first | (with_reducible refine ⟨_, rfl, ?_⟩) | with_reducible assumption | exact Foot.sub (by decide) hm | with_reducible apply takeMark_foot | with_reducible apply tileFault_foot | with_reducible apply Foot.ite | (with_reducible refine Foot.foldl ?_ (fun _ _ _ => ?_)) | split)

theorem execTileRetestMarchComplete_foot {m : Nat} {z : State} (p : TileId) (passed : Bool) (s : State) (hm : 0x800000004 ||| m = m) (h0 : Foot m z s) :
    ∃ u, execTileRetestMarchComplete p passed s = .next u ∧ Foot m z u := by
  unfold execTileRetestMarchComplete
  try dsimp only
  repeat' (first | (with_reducible refine ⟨_, rfl, ?_⟩) | with_reducible assumption | exact Foot.sub (by decide) hm | with_reducible apply tileMarched_foot | with_reducible apply Foot.ite | (with_reducible refine Foot.foldl ?_ (fun _ _ _ => ?_)) | split)

theorem execSparePeriodicMarch_foot {m : Nat} {z : State} (p : TileId) (passed : Bool) (s : State) (hm : 0x800000004 ||| m = m) (h0 : Foot m z s) :
    ∃ u, execSparePeriodicMarch p passed s = .next u ∧ Foot m z u := by
  unfold execSparePeriodicMarch
  try dsimp only
  repeat' (first | (with_reducible refine ⟨_, rfl, ?_⟩) | with_reducible assumption | exact Foot.sub (by decide) hm | with_reducible apply modTile_foot | with_reducible apply setTileSvc_foot | with_reducible apply Foot.ite | (with_reducible refine Foot.foldl ?_ (fun _ _ _ => ?_)) | split)

theorem execMachineCheck_foot {m : Nat} {z : State} (src : McSource) (s : State) (hm : 0x8ACB5EFFD ||| m = m) (h0 : Foot m z s) :
    ∃ u, execMachineCheck src s = .next u ∧ Foot m z u := by
  unfold execMachineCheck
  try dsimp only
  repeat' (first | (with_reducible refine ⟨_, rfl, ?_⟩) | with_reducible assumption | exact Foot.sub (by decide) hm | with_reducible apply takeMark_foot | with_reducible apply machineCheck_foot | with_reducible apply Foot.ite | (with_reducible refine Foot.foldl ?_ (fun _ _ _ => ?_)) | split)

theorem execTrapContextScan_foot {m : Nat} {z : State} (k : Fin 3) (s : State) (hm : 0x800000200 ||| m = m) (h0 : Foot m z s) :
    ∃ u, execTrapContextScan k s = .next u ∧ Foot m z u := by
  unfold execTrapContextScan
  try dsimp only
  repeat' (first | (with_reducible refine ⟨_, rfl, ?_⟩) | with_reducible assumption | exact Foot.sub (by decide) hm | with_reducible apply setCtx_foot | with_reducible apply logEvent_foot | with_reducible apply Foot.ite | (with_reducible refine Foot.foldl ?_ (fun _ _ _ => ?_)) | split)

theorem execWcsScan_foot {m : Nat} {z : State} (q : SeqId) (s : State) (hm : 0x8ACB5EFF5 ||| m = m) (h0 : Foot m z s) :
    ∃ u, execWcsScan q s = .next u ∧ Foot m z u := by
  unfold execWcsScan
  try dsimp only
  repeat' (first | (with_reducible refine ⟨_, rfl, ?_⟩) | with_reducible assumption | exact Foot.sub (by decide) hm | with_reducible apply mendWord_foot | with_reducible apply Foot.ite | (with_reducible refine Foot.foldl ?_ (fun _ _ _ => ?_)) | split)

theorem onAwake_foot {m : Nat} {z : State} (s : State) (t : Tenant) (hm : 0x88CB5EBF5 ||| m = m) (h0 : Foot m z s) :
    Foot m z (onAwake s t) := by
  unfold onAwake
  try dsimp only
  repeat' (first | with_reducible assumption | exact Foot.sub (by decide) hm | with_reducible apply tryReexec_foot | with_reducible apply landOldest_foot | with_reducible apply Foot.ite | (with_reducible refine Foot.foldl ?_ (fun _ _ _ => ?_)) | split)

theorem execPolderRampDwellEnd_foot {m : Nat} {z : State} (p : TileId) (s : State) (hm : 0x88CB5EBF5 ||| m = m) (h0 : Foot m z s) :
    ∃ u, execPolderRampDwellEnd p s = .next u ∧ Foot m z u := by
  unfold execPolderRampDwellEnd
  try dsimp only
  repeat' (first | (with_reducible refine ⟨_, rfl, ?_⟩) | with_reducible assumption | exact Foot.sub (by decide) hm | with_reducible apply modTile_foot | with_reducible apply awaken_foot | with_reducible apply sleepPolder_foot | with_reducible apply rampDownStep_foot | with_reducible apply onAwake_foot | with_reducible apply Foot.ite | (with_reducible refine Foot.foldl ?_ (fun _ _ _ => ?_)) | split)

theorem execIdleHoldExpiry_foot {m : Nat} {z : State} (t : Tenant) (s : State) (hm : 0x800804 ||| m = m) (h0 : Foot m z s) :
    ∃ u, execIdleHoldExpiry t s = .next u ∧ Foot m z u := by
  unfold execIdleHoldExpiry
  try dsimp only
  repeat' (first | (with_reducible refine ⟨_, rfl, ?_⟩) | with_reducible assumption | exact Foot.sub (by decide) hm | with_reducible apply modTen_foot | with_reducible apply sleepPolder_foot | with_reducible apply Foot.ite | (with_reducible refine Foot.foldl ?_ (fun _ _ _ => ?_)) | split)

end Sys2Proof.Machine
end

