-- ==== Sys2Proof/Laws/FootIdentity.lean ====
section
/-! SUPPORT. Which components of the state each operation of Machine/Identity.lean can change. -/

set_option linter.unusedTactic false
set_option linter.unusedVariables false
set_option linter.unreachableTactic false

namespace Sys2Proof.Machine

theorem setAtt_foot {m : Nat} {z : State} (s : State) (t : Tenant) (v : Att) (hm : 0x400000000 ||| m = m) (h0 : Foot m z s) :
    Foot m z (setAtt s t v) := by
  unfold setAtt
  try dsimp only
  repeat' (first | with_reducible assumption | exact Foot.sub (by decide) hm | with_reducible apply Foot.ite | (with_reducible refine Foot.foldl ?_ (fun _ _ _ => ?_)) | (fail_if_no_progress (with_reducible refine Foot.up_ident ?_ (Foot.sub (by decide) hm))) | split)

theorem applyNonce_foot {m : Nat} {z : State} (s : State) (t : Tenant) (d : Bytes) (hm : 0x400000000 ||| m = m) (h0 : Foot m z s) :
    Foot m z (applyNonce s t d).2 := by
  unfold applyNonce
  try dsimp only
  repeat' (first | with_reducible assumption | exact Foot.sub (by decide) hm | with_reducible apply setAtt_foot | with_reducible apply Foot.ite | (with_reducible refine Foot.foldl ?_ (fun _ _ _ => ?_)) | (fail_if_no_progress (with_reducible refine Foot.up_ident ?_ (Foot.sub (by decide) hm))) | split)

theorem execAttestationSignStart_foot {m : Nat} {z : State} (s : State) (hm : 0x400000000 ||| m = m) (h0 : Foot m z s) :
    ∃ u, execAttestationSignStart s = .next u ∧ Foot m z u := by
  unfold execAttestationSignStart
  try dsimp only
  repeat' (first | (with_reducible refine ⟨_, rfl, ?_⟩) | with_reducible assumption | exact Foot.sub (by decide) hm | with_reducible apply setAtt_foot | with_reducible apply Foot.ite | (with_reducible refine Foot.foldl ?_ (fun _ _ _ => ?_)) | split)

theorem execAttestationSignComplete_foot {m : Nat} {z : State} (found : Bool) (s : State) (hm : 0x400000000 ||| m = m) (h0 : Foot m z s) :
    ∃ u, execAttestationSignComplete found s = .next u ∧ Foot m z u := by
  unfold execAttestationSignComplete
  try dsimp only
  repeat' (first | (with_reducible refine ⟨_, rfl, ?_⟩) | with_reducible assumption | exact Foot.sub (by decide) hm | with_reducible apply setAtt_foot | with_reducible apply response_foot | with_reducible apply Foot.ite | (with_reducible refine Foot.foldl ?_ (fun _ _ _ => ?_)) | (fail_if_no_progress (with_reducible refine Foot.up_ident ?_ (Foot.sub (by decide) hm))) | split)

theorem storeKey_foot {m : Nat} {z : State} (s : State) (slot : Nat) (key : Bytes) (hm : 0x400000000 ||| m = m) (h0 : Foot m z s) :
    Foot m z (storeKey s slot key) := by
  unfold storeKey
  try dsimp only
  repeat' (first | with_reducible assumption | exact Foot.sub (by decide) hm | with_reducible apply Foot.ite | (with_reducible refine Foot.foldl ?_ (fun _ _ _ => ?_)) | (fail_if_no_progress (with_reducible refine Foot.up_ident ?_ (Foot.sub (by decide) hm))) | split)

theorem applyKeyRecord_foot {m : Nat} {z : State} (s : State) (k : SesId) (d : Bytes) (hm : 0xC00000000 ||| m = m) (h0 : Foot m z s) :
    Foot m z (applyKeyRecord s k d).2 := by
  unfold applyKeyRecord
  try dsimp only
  repeat' (first | with_reducible assumption | exact Foot.sub (by decide) hm | with_reducible apply takeEffect_foot | with_reducible apply refuse_foot | with_reducible apply measureKeys_foot | with_reducible apply storeKey_foot | with_reducible apply Foot.ite | (with_reducible refine Foot.foldl ?_ (fun _ _ _ => ?_)) | split)

theorem setFw_foot {m : Nat} {z : State} (s : State) (f : Fw → Fw) (hm : 0x400000000 ||| m = m) (h0 : Foot m z s) :
    Foot m z (setFw s f) := by
  unfold setFw
  try dsimp only
  repeat' (first | with_reducible assumption | exact Foot.sub (by decide) hm | with_reducible apply Foot.ite | (with_reducible refine Foot.foldl ?_ (fun _ _ _ => ?_)) | (fail_if_no_progress (with_reducible refine Foot.up_ident ?_ (Foot.sub (by decide) hm))) | split)

theorem emptySlot_foot {m : Nat} {z : State} (s : State) (hm : 0x8000000 ||| m = m) (h0 : Foot m z s) :
    Foot m z (emptySlot s) := by
  unfold emptySlot
  try dsimp only
  repeat' (first | with_reducible assumption | exact Foot.sub (by decide) hm | with_reducible apply Foot.ite | (with_reducible refine Foot.foldl ?_ (fun _ _ _ => ?_)) | (fail_if_no_progress (with_reducible refine Foot.up_fab ?_ (Foot.sub (by decide) hm))) | split)

theorem applyFirmware_foot {m : Nat} {z : State} (s : State) (k : SesId) (d : Bytes) (hm : 0xC08000000 ||| m = m) (h0 : Foot m z s) :
    Foot m z (applyFirmware s k d).2 := by
  unfold applyFirmware
  try dsimp only
  repeat' (first | with_reducible assumption | exact Foot.sub (by decide) hm | with_reducible apply setPending_foot | with_reducible apply refuse_foot | with_reducible apply setFw_foot | with_reducible apply emptySlot_foot | with_reducible apply safeShell_foot | with_reducible apply Foot.ite | (with_reducible refine Foot.foldl ?_ (fun _ _ _ => ?_)) | split)

theorem fwStored_foot {m : Nat} {z : State} (s : State) (d : Bytes) (hm : 0x400000000 ||| m = m) (h0 : Foot m z s) :
    Foot m z (fwStored s d) := by
  unfold fwStored
  try dsimp only
  repeat' (first | with_reducible assumption | exact Foot.sub (by decide) hm | with_reducible apply takeEffect_foot | with_reducible apply measure_foot | with_reducible apply setFw_foot | with_reducible apply Foot.ite | (with_reducible refine Foot.foldl ?_ (fun _ _ _ => ?_)) | split)

theorem execFirmwareRoleSwap_foot {m : Nat} {z : State} (standbyLockstep flashOk : Bool) (s : State) (hm : 0x608000000 ||| m = m) (h0 : Foot m z s) :
    ∃ u, execFirmwareRoleSwap standbyLockstep flashOk s = .next u ∧ Foot m z u := by
  unfold execFirmwareRoleSwap
  try dsimp only
  repeat' (first | (with_reducible refine ⟨_, rfl, ?_⟩) | with_reducible assumption | exact Foot.sub (by decide) hm | with_reducible apply setPending_foot | with_reducible apply measure_foot | with_reducible apply setFw_foot | with_reducible apply emptySlot_foot | with_reducible apply fwStored_foot | with_reducible apply Foot.ite | (with_reducible refine Foot.foldl ?_ (fun _ _ _ => ?_)) | (fail_if_no_progress (with_reducible refine Foot.up_fab ?_ (Foot.sub (by decide) hm))) | (fail_if_no_progress (with_reducible refine Foot.up_start ?_ (Foot.sub (by decide) hm))) | split)

theorem pairFault_foot {m : Nat} {z : State} (s : State) (pair : Fin 2) (hm : 0xE20800800 ||| m = m) (h0 : Foot m z s) :
    Foot m z (pairFault s pair) := by
  unfold pairFault
  try dsimp only
  repeat' (first | with_reducible assumption | exact Foot.sub (by decide) hm | with_reducible apply partFault_foot | with_reducible apply closeNi_foot | with_reducible apply sendClear_foot | with_reducible apply setPending_foot | with_reducible apply setFw_foot | with_reducible apply Foot.ite | (with_reducible refine Foot.foldl ?_ (fun _ _ _ => ?_)) | (fail_if_no_progress (with_reducible refine Foot.up_start ?_ (Foot.sub (by decide) hm))) | split)

theorem execHousekeepingPairFault_foot {m : Nat} {z : State} (pair : Fin 2) (s : State) (hm : 0xE28800801 ||| m = m) (h0 : Foot m z s) :
    ∃ u, execHousekeepingPairFault pair s = .next u ∧ Foot m z u := by
  unfold execHousekeepingPairFault
  try dsimp only
  repeat' (first | (with_reducible refine ⟨_, rfl, ?_⟩) | with_reducible assumption | exact Foot.sub (by decide) hm | with_reducible apply takeMark_foot | with_reducible apply pairFault_foot | with_reducible apply Foot.ite | (with_reducible refine Foot.foldl ?_ (fun _ _ _ => ?_)) | split)

theorem rejectPatch_foot {m : Nat} {z : State} (s : State) (k : SesId) (reason : Byte) (abort : Word) (hm : 0xC00000400 ||| m = m) (h0 : Foot m z s) :
    Foot m z (rejectPatch s k reason abort).2 := by
  unfold rejectPatch
  try dsimp only
  repeat' (first | with_reducible assumption | exact Foot.sub (by decide) hm | with_reducible apply logEvent_foot | with_reducible apply refuse_foot | with_reducible apply Foot.ite | (with_reducible refine Foot.foldl ?_ (fun _ _ _ => ?_)) | (fail_if_no_progress (with_reducible refine Foot.up_mc ?_ (Foot.sub (by decide) hm))) | split)

theorem loadPatched_foot {m : Nat} {z : State} (s : State) (q : SeqId) (hm : 0x500 ||| m = m) (h0 : Foot m z s) :
    Foot m z (loadPatched s q) := by
  unfold loadPatched
  try dsimp only
  repeat' (first | with_reducible assumption | exact Foot.sub (by decide) hm | with_reducible apply modSqr_foot | with_reducible apply Foot.ite | (with_reducible refine Foot.foldl ?_ (fun _ _ _ => ?_)) | (fail_if_no_progress (with_reducible refine Foot.up_mc ?_ (Foot.sub (by decide) hm))) | split)

theorem finishPatch_foot {m : Nat} {z : State} (s : State) (hm : 0x420000D00 ||| m = m) (h0 : Foot m z s) :
    Foot m z (finishPatch s) := by
  unfold finishPatch
  try dsimp only
  repeat' (first | with_reducible assumption | exact Foot.sub (by decide) hm | with_reducible apply modSqr_foot | with_reducible apply emergency_foot | with_reducible apply takeEffect_foot | with_reducible apply measure_foot | with_reducible apply Foot.ite | (with_reducible refine Foot.foldl ?_ (fun _ _ _ => ?_)) | (fail_if_no_progress (with_reducible refine Foot.up_mc ?_ (Foot.sub (by decide) hm))) | split)

theorem applyPatch_foot {m : Nat} {z : State} (s : State) (k : SesId) (d : Bytes) (hm : 0xC20000D00 ||| m = m) (h0 : Foot m z s) :
    Foot m z (applyPatch s k d).2 := by
  unfold applyPatch
  try dsimp only
  repeat' (first | with_reducible assumption | exact Foot.sub (by decide) hm | with_reducible apply logEvent_foot | with_reducible apply patchStop_foot | with_reducible apply setPending_foot | with_reducible apply rejectPatch_foot | with_reducible apply loadPatched_foot | with_reducible apply finishPatch_foot | with_reducible apply Foot.ite | (with_reducible refine Foot.foldl ?_ (fun _ _ _ => ?_)) | (fail_if_no_progress (with_reducible refine Foot.up_mc ?_ (Foot.sub (by decide) hm))) | split)

theorem moveSeq_foot {m : Nat} {z : State} (s : State) (src dst : SeqId) (left : SeqService) (hm : 0x800000900 ||| m = m) (h0 : Foot m z s) :
    Foot m z (moveSeq s src dst left) := by
  unfold moveSeq
  try dsimp only
  repeat' (first | with_reducible assumption | exact Foot.sub (by decide) hm | with_reducible apply modSqr_foot | with_reducible apply modRun_foot | with_reducible apply setSeqSvc_foot | with_reducible apply Foot.ite | (with_reducible refine Foot.foldl ?_ (fun _ _ _ => ?_)) | split)

theorem moveRequests_foot {m : Nat} {z : State} (s : State) (src dst : SeqId) (hm : 0x800000 ||| m = m) (h0 : Foot m z s) :
    Foot m z (moveRequests s src dst) := by
  unfold moveRequests
  try dsimp only
  repeat' (first | with_reducible assumption | exact Foot.sub (by decide) hm | with_reducible apply modNi_foot | with_reducible apply Foot.ite | (with_reducible refine Foot.foldl ?_ (fun _ _ _ => ?_)) | split)

theorem execMigration_foot {m : Nat} {z : State} (src dst : SeqId) (s : State) (hm : 0xC20800D01 ||| m = m) (h0 : Foot m z s) :
    ∃ u, execMigration src dst s = .next u ∧ Foot m z u := by
  unfold execMigration
  try dsimp only
  repeat' (first | (with_reducible refine ⟨_, rfl, ?_⟩) | with_reducible assumption | exact Foot.sub (by decide) hm | with_reducible apply bump_foot | with_reducible apply patchStop_foot | with_reducible apply loadPatched_foot | with_reducible apply finishPatch_foot | with_reducible apply moveSeq_foot | with_reducible apply moveRequests_foot | with_reducible apply Foot.ite | (with_reducible refine Foot.foldl ?_ (fun _ _ _ => ?_)) | (fail_if_no_progress (with_reducible refine Foot.up_mc ?_ (Foot.sub (by decide) hm))) | split)

end Sys2Proof.Machine
end

