-- ==== Sys2Proof/Laws/FootOwnership.lean ====
section
/-! SUPPORT. Which components of the state each operation of Machine/Ownership.lean can change. -/

set_option linter.unusedTactic false
set_option linter.unusedVariables false
set_option linter.unreachableTactic false

namespace Sys2Proof.Machine

theorem rejectOwn_foot {m : Nat} {z : State} (s : State) (k : SesId) (t : Tenant) (reason : Byte) (abort : Word) (hm : 0xC00000800 ||| m = m) (h0 : Foot m z s) :
    Foot m z (rejectOwn s k t reason abort).2 := by
  unfold rejectOwn
  try dsimp only
  repeat' (first | with_reducible assumption | exact Foot.sub (by decide) hm | with_reducible apply modTen_foot | with_reducible apply logEvent_foot | with_reducible apply refuse_foot | with_reducible apply Foot.ite | (with_reducible refine Foot.foldl ?_ (fun _ _ _ => ?_)) | split)

theorem applyOwnership_foot {m : Nat} {z : State} (s : State) (k : SesId) (t : Tenant) (d : Bytes) (hm : 0xC00000800 ||| m = m) (h0 : Foot m z s) :
    Foot m z (applyOwnership s k t d).2 := by
  unfold applyOwnership
  try dsimp only
  repeat' (first | with_reducible assumption | exact Foot.sub (by decide) hm | with_reducible apply modTen_foot | with_reducible apply setPending_foot | with_reducible apply rejectOwn_foot | with_reducible apply Foot.ite | (with_reducible refine Foot.foldl ?_ (fun _ _ _ => ?_)) | split)

theorem abortLost_foot {m : Nat} {z : State} (s : State) (t : Tenant) (hm : 0x88CB5EBF5 ||| m = m) (h0 : Foot m z s) :
    Foot m z (abortLost s t) := by
  unfold abortLost
  try dsimp only
  repeat' (first | with_reducible assumption | exact Foot.sub (by decide) hm | with_reducible apply abortOrders_foot | with_reducible apply Foot.ite | (with_reducible refine Foot.foldl ?_ (fun _ _ _ => ?_)) | split)

theorem abortReaders_foot {m : Nat} {z : State} (s : State) (t : Tenant) (hm : 0x88CB5EBF5 ||| m = m) (h0 : Foot m z s) :
    Foot m z (abortReaders s t) := by
  unfold abortReaders
  try dsimp only
  repeat' (first | with_reducible assumption | exact Foot.sub (by decide) hm | with_reducible apply abortOrders_foot | with_reducible apply Foot.ite | (with_reducible refine Foot.foldl ?_ (fun _ _ _ => ?_)) | split)

theorem bindSeq_foot {m : Nat} {z : State} (s : State) (t : Tenant) (old : Option OwnRec) (r : OwnRec) (hm : 0x800000900 ||| m = m) (h0 : Foot m z s) :
    Foot m z (bindSeq s t old r) := by
  unfold bindSeq
  try dsimp only
  repeat' (first | with_reducible assumption | exact Foot.sub (by decide) hm | with_reducible apply modSqr_foot | with_reducible apply modTen_foot | with_reducible apply setSeqSvc_foot | with_reducible apply Foot.ite | (with_reducible refine Foot.foldl ?_ (fun _ _ _ => ?_)) | split)

theorem dropCapture_foot {m : Nat} {z : State} (s : State) (k : Nat) (hm : 0x8000000 ||| m = m) (h0 : Foot m z s) :
    Foot m z (dropCapture s k) := by
  unfold dropCapture
  try dsimp only
  repeat' (first | with_reducible assumption | exact Foot.sub (by decide) hm | with_reducible apply Foot.ite | (with_reducible refine Foot.foldl ?_ (fun _ _ _ => ?_)) | (fail_if_no_progress (with_reducible refine Foot.up_fab ?_ (Foot.sub (by decide) hm))) | split)

theorem ownFabric_foot {m : Nat} {z : State} (s0 s : State) (t : Tenant) (old : Option OwnRec) (r : OwnRec) (hm : 0xC08000000 ||| m = m) (h0 : Foot m z s0) (h1 : Foot m z s) :
    Foot m z (ownFabric s0 s t old r) := by
  unfold ownFabric
  try dsimp only
  repeat' (first | with_reducible assumption | exact Foot.sub (by decide) hm | with_reducible apply logEvent_foot | with_reducible apply fallLines_foot | with_reducible apply startOwed_foot | with_reducible apply setCounter_foot | with_reducible apply dropCapture_foot | with_reducible apply Foot.ite | (with_reducible refine Foot.foldl ?_ (fun _ _ _ => ?_)) | (fail_if_no_progress (with_reducible refine Foot.up_fab ?_ (Foot.sub (by decide) hm))) | split)

theorem ownChannel_foot {m : Nat} {z : State} (s : State) (t : Tenant) (before : Option HostCh) (hm : 0x60000800 ||| m = m) (h0 : Foot m z s) :
    Foot m z (ownChannel s t before) := by
  unfold ownChannel
  try dsimp only
  repeat' (first | with_reducible assumption | exact Foot.sub (by decide) hm | with_reducible apply closeSes_foot | with_reducible apply defaultComm_foot | with_reducible apply syncSes_foot | with_reducible apply bootNode_foot | with_reducible apply bindChannel_foot | with_reducible apply Foot.ite | (with_reducible refine Foot.foldl ?_ (fun _ _ _ => ?_)) | split)

theorem applyOwn_foot {m : Nat} {z : State} (s : State) (t : Tenant) (r : OwnRec) (hm : 0xCFCB5EBF5 ||| m = m) (h0 : Foot m z s) :
    Foot m z (applyOwn s t r) := by
  unfold applyOwn
  try dsimp only
  repeat' (first | with_reducible assumption | exact Foot.sub (by decide) hm | with_reducible apply modTen_foot | with_reducible apply fabEdge_foot | with_reducible apply powerDown_foot | with_reducible apply kick_foot | with_reducible apply takeEffect_foot | with_reducible apply measure_foot | with_reducible apply abortLost_foot | with_reducible apply abortReaders_foot | with_reducible apply bindSeq_foot | with_reducible apply ownFabric_foot | with_reducible apply ownChannel_foot | with_reducible apply Foot.ite | (with_reducible refine Foot.foldl ?_ (fun _ _ _ => ?_)) | (fail_if_no_progress (with_reducible refine Foot.up_march ?_ (Foot.sub (by decide) hm))) | split)

theorem execOwnershipApply_foot {m : Nat} {z : State} (t : Tenant) (s : State) (hm : 0xCFCB5EBF5 ||| m = m) (h0 : Foot m z s) :
    ∃ u, execOwnershipApply t s = .next u ∧ Foot m z u := by
  unfold execOwnershipApply
  try dsimp only
  repeat' (first | (with_reducible refine ⟨_, rfl, ?_⟩) | with_reducible assumption | exact Foot.sub (by decide) hm | with_reducible apply applyOwn_foot | with_reducible apply Foot.ite | (with_reducible refine Foot.foldl ?_ (fun _ _ _ => ?_)) | split)

end Sys2Proof.Machine
end

