-- ==== Sys2Proof/Laws/FootMarch.lean ====
section
/-! SUPPORT. Which components of the state each operation of Machine/March.lean can change. -/

set_option linter.unusedTactic false
set_option linter.unusedVariables false
set_option linter.unreachableTactic false

namespace Sys2Proof.Machine

theorem bankOrders_foot {m : Nat} {z : State} (b : Nat) (s : State) (t : Tenant) (hm : 0x88CB5EBF5 ||| m = m) (h0 : Foot m z s) :
    Foot m z (bankOrders b s t) := by
  unfold bankOrders
  try dsimp only
  repeat' (first | with_reducible assumption | exact Foot.sub (by decide) hm | with_reducible apply modTen_foot | with_reducible apply recompute_foot | with_reducible apply abortOrders_foot | with_reducible apply Foot.ite | (with_reducible refine Foot.foldl ?_ (fun _ _ _ => ?_)) | split)

theorem memFault_foot {m : Nat} {z : State} (s : State) (b : Nat) (hm : 0x8ACB5EBF5 ||| m = m) (h0 : Foot m z s) :
    Foot m z (memFault s b) := by
  unfold memFault
  try dsimp only
  repeat' (first | with_reducible assumption | exact Foot.sub (by decide) hm | with_reducible apply modMemSt_foot | with_reducible apply logEvent_foot | with_reducible apply partFault_foot | with_reducible apply closeNi_foot | with_reducible apply sendClear_foot | with_reducible apply placeFrame_foot | with_reducible apply bankOrders_foot | with_reducible apply Foot.ite | (with_reducible refine Foot.foldl ?_ (fun _ _ _ => ?_)) | split)

theorem transient_foot {m : Nat} {z : State} (s : State) (xm : Bool) (a : Nat) (hm : 0x800100000 ||| m = m) (h0 : Foot m z s) :
    Foot m z (transient s xm a) := by
  unfold transient
  try dsimp only
  repeat' (first | with_reducible assumption | exact Foot.sub (by decide) hm | with_reducible apply modMemSt_foot | with_reducible apply logEvent_foot | with_reducible apply Foot.ite | (with_reducible refine Foot.foldl ?_ (fun _ _ _ => ?_)) | split)

theorem settleMem_foot {m : Nat} {z : State} (s : State) (hm : 0x8ACB5EBF5 ||| m = m) (h0 : Foot m z s) :
    Foot m z (settleMem s) := by
  unfold settleMem
  try dsimp only
  repeat' (first | with_reducible assumption | exact Foot.sub (by decide) hm | with_reducible apply modMemSt_foot | with_reducible apply memFault_foot | with_reducible apply Foot.ite | (with_reducible refine Foot.foldl ?_ (fun _ _ _ => ?_)) | split)

theorem compareWord_foot {m : Nat} {z : State} (s : State) (a : Nat) (hm : 0x8ACB5EBF5 ||| m = m) (h0 : Foot m z s) :
    Foot m z (compareWord s a) := by
  unfold compareWord
  try dsimp only
  repeat' (first | with_reducible assumption | exact Foot.sub (by decide) hm | with_reducible apply readCopied_foot | with_reducible apply memFault_foot | with_reducible apply Foot.ite | (with_reducible refine Foot.foldl ?_ (fun _ _ _ => ?_)) | split)

theorem xmWordFails_foot {m : Nat} {z : State} (s : State) (a : Nat) (hm : 0x88CB5EBF5 ||| m = m) (h0 : Foot m z s) :
    Foot m z (xmWordFails s a) := by
  unfold xmWordFails
  try dsimp only
  repeat' (first | with_reducible assumption | exact Foot.sub (by decide) hm | with_reducible apply readFailed_foot | with_reducible apply repaired_foot | with_reducible apply xmWrite_foot | with_reducible apply recompute_foot | with_reducible apply checkMark_foot | with_reducible apply Foot.ite | (with_reducible refine Foot.foldl ?_ (fun _ _ _ => ?_)) | split)

theorem wordFails_foot {m : Nat} {z : State} (s : State) (w : Window) (hm : 0x88CB5EBF5 ||| m = m) (h0 : Foot m z s) :
    Foot m z (wordFails s w) := by
  unfold wordFails
  try dsimp only
  repeat' (first | with_reducible assumption | exact Foot.sub (by decide) hm | with_reducible apply readFailed_foot | with_reducible apply xmWordFails_foot | with_reducible apply Foot.ite | (with_reducible refine Foot.foldl ?_ (fun _ _ _ => ?_)) | split)

theorem marchOn_foot {m : Nat} {z : State} (s : State) (w : Window) (hm : 0x200000 ||| m = m) (h0 : Foot m z s) :
    Foot m z (marchOn s w) := by
  unfold marchOn
  try dsimp only
  repeat' (first | with_reducible assumption | exact Foot.sub (by decide) hm | with_reducible apply Foot.ite | (with_reducible refine Foot.foldl ?_ (fun _ _ _ => ?_)) | (fail_if_no_progress (with_reducible refine Foot.up_march ?_ (Foot.sub (by decide) hm))) | split)

theorem marchTick_foot {m : Nat} {z : State} (s : State) (hm : 0x8ACB5EBF5 ||| m = m) (h0 : Foot m z s) :
    Foot m z (marchTick s) := by
  unfold marchTick
  try dsimp only
  repeat' (first | with_reducible assumption | exact Foot.sub (by decide) hm | with_reducible apply memFault_foot | with_reducible apply compareWord_foot | with_reducible apply wordFails_foot | with_reducible apply marchOn_foot | with_reducible apply Foot.ite | (with_reducible refine Foot.foldl ?_ (fun _ _ _ => ?_)) | (fail_if_no_progress (with_reducible refine Foot.up_march ?_ (Foot.sub (by decide) hm))) | split)

theorem applyMarchEnable_foot {m : Nat} {z : State} (s : State) (v : Byte) (hm : 0x200000 ||| m = m) (h0 : Foot m z s) :
    Foot m z (applyMarchEnable s v).2 := by
  unfold applyMarchEnable
  try dsimp only
  repeat' (first | with_reducible assumption | exact Foot.sub (by decide) hm | with_reducible apply Foot.ite | (with_reducible refine Foot.foldl ?_ (fun _ _ _ => ?_)) | (fail_if_no_progress (with_reducible refine Foot.up_march ?_ (Foot.sub (by decide) hm))) | split)

theorem execMarchPassStart_foot {m : Nat} {z : State} (s : State) (hm : 0x800200000 ||| m = m) (h0 : Foot m z s) :
    ∃ u, execMarchPassStart s = .next u ∧ Foot m z u := by
  unfold execMarchPassStart
  try dsimp only
  repeat' (first | (with_reducible refine ⟨_, rfl, ?_⟩) | with_reducible assumption | exact Foot.sub (by decide) hm | with_reducible apply logEvent_foot | with_reducible apply Foot.ite | (with_reducible refine Foot.foldl ?_ (fun _ _ _ => ?_)) | (fail_if_no_progress (with_reducible refine Foot.up_march ?_ (Foot.sub (by decide) hm))) | split)

theorem execMarchWindowRetry_foot {m : Nat} {z : State} (s : State) (hm : 0x200000 ||| m = m) (h0 : Foot m z s) :
    ∃ u, execMarchWindowRetry s = .next u ∧ Foot m z u := by
  unfold execMarchWindowRetry
  try dsimp only
  repeat' (first | (with_reducible refine ⟨_, rfl, ?_⟩) | with_reducible assumption | exact Foot.sub (by decide) hm | with_reducible apply Foot.ite | (with_reducible refine Foot.foldl ?_ (fun _ _ _ => ?_)) | (fail_if_no_progress (with_reducible refine Foot.up_march ?_ (Foot.sub (by decide) hm))) | split)

theorem execMarchPassComplete_foot {m : Nat} {z : State} (s : State) (hm : 0x200000 ||| m = m) (h0 : Foot m z s) :
    ∃ u, execMarchPassComplete s = .next u ∧ Foot m z u := by
  unfold execMarchPassComplete
  try dsimp only
  repeat' (first | (with_reducible refine ⟨_, rfl, ?_⟩) | with_reducible assumption | exact Foot.sub (by decide) hm | with_reducible apply Foot.ite | (with_reducible refine Foot.foldl ?_ (fun _ _ _ => ?_)) | (fail_if_no_progress (with_reducible refine Foot.up_march ?_ (Foot.sub (by decide) hm))) | split)

theorem applyDtestTarget_foot {m : Nat} {z : State} (s : State) (v : Half) (hm : 0x200000 ||| m = m) (h0 : Foot m z s) :
    Foot m z (applyDtestTarget s v).2 := by
  unfold applyDtestTarget
  try dsimp only
  repeat' (first | with_reducible assumption | exact Foot.sub (by decide) hm | with_reducible apply Foot.ite | (with_reducible refine Foot.foldl ?_ (fun _ _ _ => ?_)) | (fail_if_no_progress (with_reducible refine Foot.up_march ?_ (Foot.sub (by decide) hm))) | split)

theorem zeroUnit_foot {m : Nat} {z : State} (s : State) (u : Nat) (hm : 0x2A000 ||| m = m) (h0 : Foot m z s) :
    Foot m z (zeroUnit s u) := by
  unfold zeroUnit
  try dsimp only
  repeat' (first | with_reducible assumption | exact Foot.sub (by decide) hm | with_reducible apply Foot.ite | (with_reducible refine Foot.foldl ?_ (fun _ _ _ => ?_)) | (fail_if_no_progress (with_reducible refine Foot.up_sp_spBad_spFill ?_ (Foot.sub (by decide) hm))) | split)

theorem tileMarchFailed_foot {m : Nat} {z : State} (s : State) (p : TileId) (hm : 0x8ACB5EBFD ||| m = m) (h0 : Foot m z s) :
    Foot m z (tileMarchFailed s p) := by
  unfold tileMarchFailed
  try dsimp only
  repeat' (first | with_reducible assumption | exact Foot.sub (by decide) hm | with_reducible apply modTile_foot | with_reducible apply setTileSvc_foot | with_reducible apply tileFault_foot | with_reducible apply Foot.ite | (with_reducible refine Foot.foldl ?_ (fun _ _ _ => ?_)) | split)

theorem tileDueDone_foot {m : Nat} {z : State} (s : State) (p : TileId) (passed : Bool) (hm : 0x8ACB5EBFD ||| m = m) (h0 : Foot m z s) :
    Foot m z (tileDueDone s p passed) := by
  unfold tileDueDone
  try dsimp only
  repeat' (first | with_reducible assumption | exact Foot.sub (by decide) hm | with_reducible apply clearTile_foot | with_reducible apply tileMarchFailed_foot | with_reducible apply Foot.ite | (with_reducible refine Foot.foldl ?_ (fun _ _ _ => ?_)) | (fail_if_no_progress (with_reducible refine Foot.up_march ?_ (Foot.sub (by decide) hm))) | split)

theorem execDestructiveMarchComplete_foot {m : Nat} {z : State} (passed : Bool) (s : State) (hm : 0x8ACB7EBFD ||| m = m) (h0 : Foot m z s) :
    ∃ u, execDestructiveMarchComplete passed s = .next u ∧ Foot m z u := by
  unfold execDestructiveMarchComplete
  try dsimp only
  repeat' (first | (with_reducible refine ⟨_, rfl, ?_⟩) | with_reducible assumption | exact Foot.sub (by decide) hm | with_reducible apply clearTile_foot | with_reducible apply takeMark_foot | with_reducible apply memFault_foot | with_reducible apply zeroUnit_foot | with_reducible apply tileMarchFailed_foot | with_reducible apply tileDueDone_foot | with_reducible apply Foot.ite | (with_reducible refine Foot.foldl ?_ (fun _ _ _ => ?_)) | (fail_if_no_progress (with_reducible refine Foot.up_march ?_ (Foot.sub (by decide) hm))) | split)

end Sys2Proof.Machine
end

