-- ==== Sys2Proof/Laws/FootClocks.lean ====
section
/-! SUPPORT. Which components of the state each operation of Machine/Clocks.lean can change. -/

set_option linter.unusedTactic false
set_option linter.unusedVariables false
set_option linter.unreachableTactic false

namespace Sys2Proof.Machine

theorem setClk_foot {m : Nat} {z : State} (s : State) (f : Clocks → Clocks) (hm : 0x80000000 ||| m = m) (h0 : Foot m z s) :
    Foot m z (setClk s f) := by
  unfold setClk
  try dsimp only
  repeat' (first | with_reducible assumption | exact Foot.sub (by decide) hm | with_reducible apply Foot.ite | (with_reducible refine Foot.foldl ?_ (fun _ _ _ => ?_)) | (fail_if_no_progress (with_reducible refine Foot.up_clk ?_ (Foot.sub (by decide) hm))) | split)

theorem applyCeiling_foot {m : Nat} {z : State} (s : State) (v : Byte) (hm : 0x80000000 ||| m = m) (h0 : Foot m z s) :
    Foot m z (applyCeiling s v).2 := by
  unfold applyCeiling
  try dsimp only
  repeat' (first | with_reducible assumption | exact Foot.sub (by decide) hm | with_reducible apply setClk_foot | with_reducible apply Foot.ite | (with_reducible refine Foot.foldl ?_ (fun _ _ _ => ?_)) | split)

theorem applyIdle_foot {m : Nat} {z : State} (s : State) (v : Byte) (hm : 0x88800000 ||| m = m) (h0 : Foot m z s) :
    Foot m z (applyIdle s v).2 := by
  unfold applyIdle
  try dsimp only
  repeat' (first | with_reducible assumption | exact Foot.sub (by decide) hm | with_reducible apply retargetFab_foot | with_reducible apply setClk_foot | with_reducible apply idle_foot | with_reducible apply Foot.ite | (with_reducible refine Foot.foldl ?_ (fun _ _ _ => ?_)) | split)

theorem applyRampDwell_foot {m : Nat} {z : State} (s : State) (v : Byte) (hm : 0x80000000 ||| m = m) (h0 : Foot m z s) :
    Foot m z (applyRampDwell s v).2 := by
  unfold applyRampDwell
  try dsimp only
  repeat' (first | with_reducible assumption | exact Foot.sub (by decide) hm | with_reducible apply setClk_foot | with_reducible apply Foot.ite | (with_reducible refine Foot.foldl ?_ (fun _ _ _ => ?_)) | split)

theorem applyIdleHold_foot {m : Nat} {z : State} (s : State) (t : Tenant) (v : Word) (hm : 0x800 ||| m = m) (h0 : Foot m z s) :
    Foot m z (applyIdleHold s t v).2 := by
  unfold applyIdleHold
  try dsimp only
  repeat' (first | with_reducible assumption | exact Foot.sub (by decide) hm | with_reducible apply modTen_foot | with_reducible apply Foot.ite | (with_reducible refine Foot.foldl ?_ (fun _ _ _ => ?_)) | split)

theorem applyDeepSleep_foot {m : Nat} {z : State} (s : State) (k : SesId) (v : Byte) (hm : 0x80800804 ||| m = m) (h0 : Foot m z s) :
    Foot m z (applyDeepSleep s k v).2 := by
  unfold applyDeepSleep
  try dsimp only
  repeat' (first | with_reducible assumption | exact Foot.sub (by decide) hm | with_reducible apply modTen_foot | with_reducible apply sleepPolder_foot | with_reducible apply setClk_foot | with_reducible apply Foot.ite | (with_reducible refine Foot.foldl ?_ (fun _ _ _ => ?_)) | split)

theorem cancelSleep_foot {m : Nat} {z : State} (s : State) (hm : 0xA0000000 ||| m = m) (h0 : Foot m z s) :
    Foot m z (cancelSleep s) := by
  unfold cancelSleep
  try dsimp only
  repeat' (first | with_reducible assumption | exact Foot.sub (by decide) hm | with_reducible apply lateAnswer_foot | with_reducible apply setClk_foot | with_reducible apply Foot.ite | (with_reducible refine Foot.foldl ?_ (fun _ _ _ => ?_)) | split)

theorem closeAll_foot {m : Nat} {z : State} (s : State) (hm : 0x20000000 ||| m = m) (h0 : Foot m z s) :
    Foot m z (closeAll s) := by
  unfold closeAll
  try dsimp only
  repeat' (first | with_reducible assumption | exact Foot.sub (by decide) hm | with_reducible apply closeSes_foot | with_reducible apply Foot.ite | (with_reducible refine Foot.foldl ?_ (fun _ _ _ => ?_)) | split)

theorem enterSleep_foot {m : Nat} {z : State} (s : State) (k : SesId) (hm : 0xB88000F4 ||| m = m) (h0 : Foot m z s) :
    Foot m z (enterSleep s k) := by
  unfold enterSleep
  try dsimp only
  repeat' (first | with_reducible assumption | exact Foot.sub (by decide) hm | with_reducible apply modSes_foot | with_reducible apply pwmEdge_foot | with_reducible apply fallLines_foot | with_reducible apply reopenGates_foot | with_reducible apply polderOff_foot | with_reducible apply lateAnswer_foot | with_reducible apply setClk_foot | with_reducible apply closeAll_foot | with_reducible apply Foot.ite | (with_reducible refine Foot.foldl ?_ (fun _ _ _ => ?_)) | (fail_if_no_progress (with_reducible refine Foot.up_fab ?_ (Foot.sub (by decide) hm))) | (fail_if_no_progress (with_reducible refine Foot.up_field ?_ (Foot.sub (by decide) hm))) | split)

theorem execDeepSleepEntry_foot {m : Nat} {z : State} (s : State) (hm : 0xB88000F4 ||| m = m) (h0 : Foot m z s) :
    ∃ u, execDeepSleepEntry s = .next u ∧ Foot m z u := by
  unfold execDeepSleepEntry
  try dsimp only
  repeat' (first | (with_reducible refine ⟨_, rfl, ?_⟩) | with_reducible assumption | exact Foot.sub (by decide) hm | with_reducible apply enterSleep_foot | with_reducible apply Foot.ite | (with_reducible refine Foot.foldl ?_ (fun _ _ _ => ?_)) | split)

theorem resample_foot {m : Nat} {z : State} (s : State) (hm : 0x10000000 ||| m = m) (h0 : Foot m z s) :
    Foot m z (resample s) := by
  unfold resample
  try dsimp only
  repeat' (first | with_reducible assumption | exact Foot.sub (by decide) hm | with_reducible apply modFch_foot | with_reducible apply Foot.ite | (with_reducible refine Foot.foldl ?_ (fun _ _ _ => ?_)) | split)

theorem restartFabric_foot {m : Nat} {z : State} (s : State) (hm : 0x8BCB7FBF5 ||| m = m) (h0 : Foot m z s) :
    Foot m z (restartFabric s) := by
  unfold restartFabric
  try dsimp only
  repeat' (first | with_reducible assumption | exact Foot.sub (by decide) hm | with_reducible apply releaseLoad_foot | with_reducible apply resample_foot | with_reducible apply Foot.ite | (with_reducible refine Foot.foldl ?_ (fun _ _ _ => ?_)) | (fail_if_no_progress (with_reducible refine Foot.up_fab ?_ (Foot.sub (by decide) hm))) | split)

theorem setRef_foot {m : Nat} {z : State} (s : State) (r : Fin 2) (v : Bool) (hm : 0x80000000 ||| m = m) (h0 : Foot m z s) :
    Foot m z (setRef s r v) := by
  unfold setRef
  try dsimp only
  repeat' (first | with_reducible assumption | exact Foot.sub (by decide) hm | with_reducible apply setClk_foot | with_reducible apply Foot.ite | (with_reducible refine Foot.foldl ?_ (fun _ _ _ => ?_)) | split)

theorem setClkSt_foot {m : Nat} {z : State} (s : State) (st : ClkSt) (hm : 0x880000000 ||| m = m) (h0 : Foot m z s) :
    Foot m z (setClkSt s st) := by
  unfold setClkSt
  try dsimp only
  repeat' (first | with_reducible assumption | exact Foot.sub (by decide) hm | with_reducible apply logEvent_foot | with_reducible apply setClk_foot | with_reducible apply Foot.ite | (with_reducible refine Foot.foldl ?_ (fun _ _ _ => ?_)) | split)

theorem relockTo_foot {m : Nat} {z : State} (s : State) (r : Option Nat) (hm : 0x8A0000800 ||| m = m) (h0 : Foot m z s) :
    Foot m z (relockTo s r) := by
  unfold relockTo
  try dsimp only
  repeat' (first | with_reducible assumption | exact Foot.sub (by decide) hm | with_reducible apply emergency_foot | with_reducible apply setClk_foot | with_reducible apply setClkSt_foot | with_reducible apply Foot.ite | (with_reducible refine Foot.foldl ?_ (fun _ _ _ => ?_)) | split)

theorem stopClocks_foot {m : Nat} {z : State} (s : State) (hm : 0x89CB5EBF5 ||| m = m) (h0 : Foot m z s) :
    Foot m z (stopClocks s) := by
  unfold stopClocks
  try dsimp only
  repeat' (first | with_reducible assumption | exact Foot.sub (by decide) hm | with_reducible apply tideFault_foot | with_reducible apply fabEdge_foot | with_reducible apply stopPolder_foot | with_reducible apply recompute_foot | with_reducible apply allLinksLost_foot | with_reducible apply setClk_foot | with_reducible apply Foot.ite | (with_reducible refine Foot.foldl ?_ (fun _ _ _ => ?_)) | (fail_if_no_progress (with_reducible refine Foot.up_fab_field ?_ (Foot.sub (by decide) hm))) | split)

theorem clockFail_foot {m : Nat} {z : State} (s : State) (same : Bool) (hm : 0x8BCB5EBF5 ||| m = m) (h0 : Foot m z s) :
    Foot m z (clockFail s same) := by
  unfold clockFail
  try dsimp only
  repeat' (first | with_reducible assumption | exact Foot.sub (by decide) hm | with_reducible apply relockTo_foot | with_reducible apply stopClocks_foot | with_reducible apply Foot.ite | (with_reducible refine Foot.foldl ?_ (fun _ _ _ => ?_)) | split)

theorem refLost_foot {m : Nat} {z : State} (s : State) (r : Fin 2) (hm : 0x8BCB5EBF5 ||| m = m) (h0 : Foot m z s) :
    Foot m z (refLost s r) := by
  unfold refLost
  try dsimp only
  repeat' (first | with_reducible assumption | exact Foot.sub (by decide) hm | with_reducible apply logEvent_foot | with_reducible apply setRef_foot | with_reducible apply relockTo_foot | with_reducible apply clockFail_foot | with_reducible apply Foot.ite | (with_reducible refine Foot.foldl ?_ (fun _ _ _ => ?_)) | split)

theorem execRefMissingEdge_foot {m : Nat} {z : State} (ref : Fin 2) (s : State) (hm : 0x8BCB5EBF5 ||| m = m) (h0 : Foot m z s) :
    ∃ u, execRefMissingEdge ref s = .next u ∧ Foot m z u := by
  unfold execRefMissingEdge
  try dsimp only
  repeat' (first | (with_reducible refine ⟨_, rfl, ?_⟩) | with_reducible assumption | exact Foot.sub (by decide) hm | with_reducible apply takeMark_foot | with_reducible apply refLost_foot | with_reducible apply Foot.ite | (with_reducible refine Foot.foldl ?_ (fun _ _ _ => ?_)) | split)

theorem execRefInvalid_foot {m : Nat} {z : State} (ref : Fin 2) (s : State) (hm : 0x8BCB5EBF5 ||| m = m) (h0 : Foot m z s) :
    ∃ u, execRefInvalid ref s = .next u ∧ Foot m z u := by
  unfold execRefInvalid
  try dsimp only
  repeat' (first | (with_reducible refine ⟨_, rfl, ?_⟩) | with_reducible assumption | exact Foot.sub (by decide) hm | with_reducible apply takeMark_foot | with_reducible apply refLost_foot | with_reducible apply Foot.ite | (with_reducible refine Foot.foldl ?_ (fun _ _ _ => ?_)) | split)

theorem execRefValid_foot {m : Nat} {z : State} (ref : Fin 2) (s : State) (hm : 0x80000000 ||| m = m) (h0 : Foot m z s) :
    ∃ u, execRefValid ref s = .next u ∧ Foot m z u := by
  unfold execRefValid
  try dsimp only
  repeat' (first | (with_reducible refine ⟨_, rfl, ?_⟩) | with_reducible assumption | exact Foot.sub (by decide) hm | with_reducible apply setRef_foot | with_reducible apply Foot.ite | (with_reducible refine Foot.foldl ?_ (fun _ _ _ => ?_)) | split)

theorem execPllLossOfLock_foot {m : Nat} {z : State} (pll : Fin 4) (s : State) (hm : 0x8BCB5EBF5 ||| m = m) (h0 : Foot m z s) :
    ∃ u, execPllLossOfLock pll s = .next u ∧ Foot m z u := by
  unfold execPllLossOfLock
  try dsimp only
  repeat' (first | (with_reducible refine ⟨_, rfl, ?_⟩) | with_reducible assumption | exact Foot.sub (by decide) hm | with_reducible apply takeMark_foot | with_reducible apply clockFail_foot | with_reducible apply Foot.ite | (with_reducible refine Foot.foldl ?_ (fun _ _ _ => ?_)) | split)

theorem execPllRelock_foot {m : Nat} {z : State} (s : State) (hm : 0x89CB5EBF5 ||| m = m) (h0 : Foot m z s) :
    ∃ u, execPllRelock s = .next u ∧ Foot m z u := by
  unfold execPllRelock
  try dsimp only
  repeat' (first | (with_reducible refine ⟨_, rfl, ?_⟩) | with_reducible assumption | exact Foot.sub (by decide) hm | with_reducible apply fabEdge_foot | with_reducible apply retargetFab_foot | with_reducible apply wakePolder_foot | with_reducible apply kickAll_foot | with_reducible apply tryReexecAll_foot | with_reducible apply setClk_foot | with_reducible apply setClkSt_foot | with_reducible apply Foot.ite | (with_reducible refine Foot.foldl ?_ (fun _ _ _ => ?_)) | (fail_if_no_progress (with_reducible refine Foot.up_fab_field ?_ (Foot.sub (by decide) hm))) | split)

theorem execHoldoverRefValid_foot {m : Nat} {z : State} (ref : Fin 2) (s : State) (hm : 0x8A0000800 ||| m = m) (h0 : Foot m z s) :
    ∃ u, execHoldoverRefValid ref s = .next u ∧ Foot m z u := by
  unfold execHoldoverRefValid
  try dsimp only
  repeat' (first | (with_reducible refine ⟨_, rfl, ?_⟩) | with_reducible assumption | exact Foot.sub (by decide) hm | with_reducible apply setRef_foot | with_reducible apply relockTo_foot | with_reducible apply Foot.ite | (with_reducible refine Foot.foldl ?_ (fun _ _ _ => ?_)) | split)

theorem applyRefSelect_foot {m : Nat} {z : State} (s : State) (v : Byte) (hm : 0x80000000 ||| m = m) (h0 : Foot m z s) :
    Foot m z (applyRefSelect s v).2 := by
  unfold applyRefSelect
  try dsimp only
  repeat' (first | with_reducible assumption | exact Foot.sub (by decide) hm | with_reducible apply setClk_foot | with_reducible apply Foot.ite | (with_reducible refine Foot.foldl ?_ (fun _ _ _ => ?_)) | split)

theorem wakeModule_foot {m : Nat} {z : State} (s : State) (hm : 0x8BCB7FBF5 ||| m = m) (h0 : Foot m z s) :
    Foot m z (wakeModule s) := by
  unfold wakeModule
  try dsimp only
  repeat' (first | with_reducible assumption | exact Foot.sub (by decide) hm | with_reducible apply openGate_foot | with_reducible apply syncSes_foot | with_reducible apply setClk_foot | with_reducible apply restartFabric_foot | with_reducible apply clockFail_foot | with_reducible apply Foot.ite | (with_reducible refine Foot.foldl ?_ (fun _ _ _ => ?_)) | (fail_if_no_progress (with_reducible refine Foot.up_field ?_ (Foot.sub (by decide) hm))) | split)

theorem applyGateRun_foot {m : Nat} {z : State} (s : State) (v : Word) (hm : 0x80800000 ||| m = m) (h0 : Foot m z s) :
    Foot m z (applyGateRun s v).2 := by
  unfold applyGateRun
  try dsimp only
  repeat' (first | with_reducible assumption | exact Foot.sub (by decide) hm | with_reducible apply reopenGates_foot | with_reducible apply setClk_foot | with_reducible apply Foot.ite | (with_reducible refine Foot.foldl ?_ (fun _ _ _ => ?_)) | split)

theorem applyGateSleep_foot {m : Nat} {z : State} (s : State) (v : Word) (hm : 0x80800000 ||| m = m) (h0 : Foot m z s) :
    Foot m z (applyGateSleep s v).2 := by
  unfold applyGateSleep
  try dsimp only
  repeat' (first | with_reducible assumption | exact Foot.sub (by decide) hm | with_reducible apply reopenGates_foot | with_reducible apply setClk_foot | with_reducible apply Foot.ite | (with_reducible refine Foot.foldl ?_ (fun _ _ _ => ?_)) | split)

theorem applyGateDeep_foot {m : Nat} {z : State} (s : State) (v : Word) (hm : 0x80000000 ||| m = m) (h0 : Foot m z s) :
    Foot m z (applyGateDeep s v).2 := by
  unfold applyGateDeep
  try dsimp only
  repeat' (first | with_reducible assumption | exact Foot.sub (by decide) hm | with_reducible apply setClk_foot | with_reducible apply Foot.ite | (with_reducible refine Foot.foldl ?_ (fun _ _ _ => ?_)) | split)

theorem execClockGateIdle_foot {m : Nat} {z : State} (block : Fin 25) (s : State) (hm : 0x80800000 ||| m = m) (h0 : Foot m z s) :
    ∃ u, execClockGateIdle block s = .next u ∧ Foot m z u := by
  unfold execClockGateIdle
  try dsimp only
  repeat' (first | (with_reducible refine ⟨_, rfl, ?_⟩) | with_reducible assumption | exact Foot.sub (by decide) hm | with_reducible apply closeNi_foot | with_reducible apply setClk_foot | with_reducible apply Foot.ite | (with_reducible refine Foot.foldl ?_ (fun _ _ _ => ?_)) | split)

end Sys2Proof.Machine
end

