-- ==== Sys2Proof/Laws/FootFabric.lean ====
section
/-! SUPPORT. Which components of the state each operation of Machine/Fabric.lean can change. -/

set_option linter.unusedTactic false
set_option linter.unusedVariables false
set_option linter.unreachableTactic false

namespace Sys2Proof.Machine

theorem runCell_foot {m : Nat} {z : State} (s : State) (r c : Nat) (op : Nat) (f : Half → Half → Bool → DWord → CellRes) (hm : 0x8BCB7FBF7 ||| m = m) (h0 : Foot m z s) :
    Foot m z (runCell s r c op f) := by
  unfold runCell
  try dsimp only
  repeat' (first | with_reducible assumption | exact Foot.sub (by decide) hm | with_reducible apply setCell_foot | with_reducible apply nextFc_foot | with_reducible apply fabEdge_foot | with_reducible apply takeMark_foot | with_reducible apply linesStep_foot | with_reducible apply Foot.ite | (with_reducible refine Foot.foldl ?_ (fun _ _ _ => ?_)) | split)

theorem execCellPass_foot {m : Nat} {z : State} (r : Fin 64) (c : Fin 32) (s : State) (hm : 0x8BCB7FBF7 ||| m = m) (h0 : Foot m z s) :
    ∃ u, execCellPass r c s = .next u ∧ Foot m z u := by
  unfold execCellPass
  try dsimp only
  repeat' (first | (with_reducible refine ⟨_, rfl, ?_⟩) | with_reducible assumption | exact Foot.sub (by decide) hm | with_reducible apply runCell_foot | with_reducible apply Foot.ite | (with_reducible refine Foot.foldl ?_ (fun _ _ _ => ?_)) | split)

theorem execCellAdd_foot {m : Nat} {z : State} (r : Fin 64) (c : Fin 32) (s : State) (hm : 0x8BCB7FBF7 ||| m = m) (h0 : Foot m z s) :
    ∃ u, execCellAdd r c s = .next u ∧ Foot m z u := by
  unfold execCellAdd
  try dsimp only
  repeat' (first | (with_reducible refine ⟨_, rfl, ?_⟩) | with_reducible assumption | exact Foot.sub (by decide) hm | with_reducible apply runCell_foot | with_reducible apply Foot.ite | (with_reducible refine Foot.foldl ?_ (fun _ _ _ => ?_)) | split)

theorem execCellSub_foot {m : Nat} {z : State} (r : Fin 64) (c : Fin 32) (s : State) (hm : 0x8BCB7FBF7 ||| m = m) (h0 : Foot m z s) :
    ∃ u, execCellSub r c s = .next u ∧ Foot m z u := by
  unfold execCellSub
  try dsimp only
  repeat' (first | (with_reducible refine ⟨_, rfl, ?_⟩) | with_reducible assumption | exact Foot.sub (by decide) hm | with_reducible apply runCell_foot | with_reducible apply Foot.ite | (with_reducible refine Foot.foldl ?_ (fun _ _ _ => ?_)) | split)

theorem execCellAnd_foot {m : Nat} {z : State} (r : Fin 64) (c : Fin 32) (s : State) (hm : 0x8BCB7FBF7 ||| m = m) (h0 : Foot m z s) :
    ∃ u, execCellAnd r c s = .next u ∧ Foot m z u := by
  unfold execCellAnd
  try dsimp only
  repeat' (first | (with_reducible refine ⟨_, rfl, ?_⟩) | with_reducible assumption | exact Foot.sub (by decide) hm | with_reducible apply runCell_foot | with_reducible apply Foot.ite | (with_reducible refine Foot.foldl ?_ (fun _ _ _ => ?_)) | split)

theorem execCellOr_foot {m : Nat} {z : State} (r : Fin 64) (c : Fin 32) (s : State) (hm : 0x8BCB7FBF7 ||| m = m) (h0 : Foot m z s) :
    ∃ u, execCellOr r c s = .next u ∧ Foot m z u := by
  unfold execCellOr
  try dsimp only
  repeat' (first | (with_reducible refine ⟨_, rfl, ?_⟩) | with_reducible assumption | exact Foot.sub (by decide) hm | with_reducible apply runCell_foot | with_reducible apply Foot.ite | (with_reducible refine Foot.foldl ?_ (fun _ _ _ => ?_)) | split)

theorem execCellXor_foot {m : Nat} {z : State} (r : Fin 64) (c : Fin 32) (s : State) (hm : 0x8BCB7FBF7 ||| m = m) (h0 : Foot m z s) :
    ∃ u, execCellXor r c s = .next u ∧ Foot m z u := by
  unfold execCellXor
  try dsimp only
  repeat' (first | (with_reducible refine ⟨_, rfl, ?_⟩) | with_reducible assumption | exact Foot.sub (by decide) hm | with_reducible apply runCell_foot | with_reducible apply Foot.ite | (with_reducible refine Foot.foldl ?_ (fun _ _ _ => ?_)) | split)

theorem execCellNot_foot {m : Nat} {z : State} (r : Fin 64) (c : Fin 32) (s : State) (hm : 0x8BCB7FBF7 ||| m = m) (h0 : Foot m z s) :
    ∃ u, execCellNot r c s = .next u ∧ Foot m z u := by
  unfold execCellNot
  try dsimp only
  repeat' (first | (with_reducible refine ⟨_, rfl, ?_⟩) | with_reducible assumption | exact Foot.sub (by decide) hm | with_reducible apply runCell_foot | with_reducible apply Foot.ite | (with_reducible refine Foot.foldl ?_ (fun _ _ _ => ?_)) | split)

theorem execCellShl_foot {m : Nat} {z : State} (r : Fin 64) (c : Fin 32) (s : State) (hm : 0x8BCB7FBF7 ||| m = m) (h0 : Foot m z s) :
    ∃ u, execCellShl r c s = .next u ∧ Foot m z u := by
  unfold execCellShl
  try dsimp only
  repeat' (first | (with_reducible refine ⟨_, rfl, ?_⟩) | with_reducible assumption | exact Foot.sub (by decide) hm | with_reducible apply runCell_foot | with_reducible apply Foot.ite | (with_reducible refine Foot.foldl ?_ (fun _ _ _ => ?_)) | split)

theorem execCellShr_foot {m : Nat} {z : State} (r : Fin 64) (c : Fin 32) (s : State) (hm : 0x8BCB7FBF7 ||| m = m) (h0 : Foot m z s) :
    ∃ u, execCellShr r c s = .next u ∧ Foot m z u := by
  unfold execCellShr
  try dsimp only
  repeat' (first | (with_reducible refine ⟨_, rfl, ?_⟩) | with_reducible assumption | exact Foot.sub (by decide) hm | with_reducible apply runCell_foot | with_reducible apply Foot.ite | (with_reducible refine Foot.foldl ?_ (fun _ _ _ => ?_)) | split)

theorem execCellSra_foot {m : Nat} {z : State} (r : Fin 64) (c : Fin 32) (s : State) (hm : 0x8BCB7FBF7 ||| m = m) (h0 : Foot m z s) :
    ∃ u, execCellSra r c s = .next u ∧ Foot m z u := by
  unfold execCellSra
  try dsimp only
  repeat' (first | (with_reducible refine ⟨_, rfl, ?_⟩) | with_reducible assumption | exact Foot.sub (by decide) hm | with_reducible apply runCell_foot | with_reducible apply Foot.ite | (with_reducible refine Foot.foldl ?_ (fun _ _ _ => ?_)) | split)

theorem execCellMux_foot {m : Nat} {z : State} (r : Fin 64) (c : Fin 32) (s : State) (hm : 0x8BCB7FBF7 ||| m = m) (h0 : Foot m z s) :
    ∃ u, execCellMux r c s = .next u ∧ Foot m z u := by
  unfold execCellMux
  try dsimp only
  repeat' (first | (with_reducible refine ⟨_, rfl, ?_⟩) | with_reducible assumption | exact Foot.sub (by decide) hm | with_reducible apply runCell_foot | with_reducible apply Foot.ite | (with_reducible refine Foot.foldl ?_ (fun _ _ _ => ?_)) | split)

theorem execCellCnt_foot {m : Nat} {z : State} (r : Fin 64) (c : Fin 32) (s : State) (hm : 0x8BCB7FBF7 ||| m = m) (h0 : Foot m z s) :
    ∃ u, execCellCnt r c s = .next u ∧ Foot m z u := by
  unfold execCellCnt
  try dsimp only
  repeat' (first | (with_reducible refine ⟨_, rfl, ?_⟩) | with_reducible assumption | exact Foot.sub (by decide) hm | with_reducible apply runCell_foot | with_reducible apply Foot.ite | (with_reducible refine Foot.foldl ?_ (fun _ _ _ => ?_)) | split)

theorem execCellMinu_foot {m : Nat} {z : State} (r : Fin 64) (c : Fin 32) (s : State) (hm : 0x8BCB7FBF7 ||| m = m) (h0 : Foot m z s) :
    ∃ u, execCellMinu r c s = .next u ∧ Foot m z u := by
  unfold execCellMinu
  try dsimp only
  repeat' (first | (with_reducible refine ⟨_, rfl, ?_⟩) | with_reducible assumption | exact Foot.sub (by decide) hm | with_reducible apply runCell_foot | with_reducible apply Foot.ite | (with_reducible refine Foot.foldl ?_ (fun _ _ _ => ?_)) | split)

theorem execCellMaxu_foot {m : Nat} {z : State} (r : Fin 64) (c : Fin 32) (s : State) (hm : 0x8BCB7FBF7 ||| m = m) (h0 : Foot m z s) :
    ∃ u, execCellMaxu r c s = .next u ∧ Foot m z u := by
  unfold execCellMaxu
  try dsimp only
  repeat' (first | (with_reducible refine ⟨_, rfl, ?_⟩) | with_reducible assumption | exact Foot.sub (by decide) hm | with_reducible apply runCell_foot | with_reducible apply Foot.ite | (with_reducible refine Foot.foldl ?_ (fun _ _ _ => ?_)) | split)

theorem execCellTime_foot {m : Nat} {z : State} (r : Fin 64) (c : Fin 32) (s : State) (hm : 0x8BCB7FBF7 ||| m = m) (h0 : Foot m z s) :
    ∃ u, execCellTime r c s = .next u ∧ Foot m z u := by
  unfold execCellTime
  try dsimp only
  repeat' (first | (with_reducible refine ⟨_, rfl, ?_⟩) | with_reducible assumption | exact Foot.sub (by decide) hm | with_reducible apply runCell_foot | with_reducible apply Foot.ite | (with_reducible refine Foot.foldl ?_ (fun _ _ _ => ?_)) | split)

theorem execSerialRxByte_foot {m : Nat} {z : State} (port : Fin 2) (b : Byte) (s : State) (hm : 0x8000000 ||| m = m) (h0 : Foot m z s) :
    ∃ u, execSerialRxByte port b s = .next u ∧ Foot m z u := by
  unfold execSerialRxByte
  try dsimp only
  repeat' (first | (with_reducible refine ⟨_, rfl, ?_⟩) | with_reducible assumption | exact Foot.sub (by decide) hm | with_reducible apply Foot.ite | (with_reducible refine Foot.foldl ?_ (fun _ _ _ => ?_)) | (fail_if_no_progress (with_reducible refine Foot.up_fab ?_ (Foot.sub (by decide) hm))) | split)

end Sys2Proof.Machine
end

