-- ==== Sys2Proof/Laws/FootInt.lean ====
section
/-! SUPPORT. Which components of the state each operation of Machine/Int.lean can change. -/

set_option linter.unusedTactic false
set_option linter.unusedVariables false
set_option linter.unreachableTactic false

namespace Sys2Proof.Machine

theorem loadBermPe_foot {m : Nat} {z : State} (s : State) (k : Nat) (hm : 0x70 ||| m = m) (h0 : Foot m z s) :
    Foot m z (loadBermPe s k) := by
  unfold loadBermPe
  try dsimp only
  repeat' (first | with_reducible assumption | exact Foot.sub (by decide) hm | with_reducible apply setPeBit_foot | with_reducible apply Foot.ite | (with_reducible refine Foot.foldl ?_ (fun _ _ _ => ?_)) | split)

theorem startBerm_foot {m : Nat} {z : State} (s : State) (t : Tenant) (hm : 0x74 ||| m = m) (h0 : Foot m z s) :
    Foot m z (startBerm s t) := by
  unfold startBerm
  try dsimp only
  repeat' (first | with_reducible assumption | exact Foot.sub (by decide) hm | with_reducible apply modTile_foot | with_reducible apply loadBermPe_foot | with_reducible apply Foot.ite | (with_reducible refine Foot.foldl ?_ (fun _ _ _ => ?_)) | split)

theorem intRegs_foot {m : Nat} {z : State} (s0 : State) (g : Nat) (fn : IntFn) (r : IntRes) (u : State) (e : Elem) (hm : 0x10 ||| m = m) (h0 : Foot m z s0) (h1 : Foot m z u) :
    Foot m z (intRegs s0 g fn r u e) := by
  unfold intRegs
  try dsimp only
  repeat' (first | with_reducible assumption | exact Foot.sub (by decide) hm | with_reducible apply setC_foot | with_reducible apply setF_foot | with_reducible apply freeC_foot | with_reducible apply freeF_foot | with_reducible apply Foot.ite | (with_reducible refine Foot.foldl ?_ (fun _ _ _ => ?_)) | split)

theorem intInstr_foot {m : Nat} {z : State} (s : State) (t : Tenant) (fn : IntFn) (opFn : Nat) (f : FmtA) (hm : 0x88CB5EBF5 ||| m = m) (h0 : Foot m z s) :
    Foot m z (intInstr s t fn opFn f) := by
  unfold intInstr
  try dsimp only
  repeat' (first | with_reducible assumption | exact Foot.sub (by decide) hm | with_reducible apply setSticky_foot | with_reducible apply touch_foot | with_reducible apply runAis_foot | with_reducible apply finish_foot | with_reducible apply touchSrc_foot | with_reducible apply writeDest_foot | with_reducible apply startBerm_foot | with_reducible apply intRegs_foot | with_reducible apply Foot.ite | (with_reducible refine Foot.foldl ?_ (fun _ _ _ => ?_)) | intro _ | split)

theorem execAdd_foot {m : Nat} {z : State} (t : Tenant) (f : FmtA) (s : State) (hm : 0x88CB5EBF5 ||| m = m) (h0 : Foot m z s) :
    ∃ u, execAdd t f s = .next u ∧ Foot m z u := by
  unfold execAdd
  try dsimp only
  repeat' (first | (with_reducible refine ⟨_, rfl, ?_⟩) | with_reducible assumption | exact Foot.sub (by decide) hm | with_reducible apply intInstr_foot | with_reducible apply Foot.ite | (with_reducible refine Foot.foldl ?_ (fun _ _ _ => ?_)) | split)

theorem execAddc_foot {m : Nat} {z : State} (t : Tenant) (f : FmtA) (s : State) (hm : 0x88CB5EBF5 ||| m = m) (h0 : Foot m z s) :
    ∃ u, execAddc t f s = .next u ∧ Foot m z u := by
  unfold execAddc
  try dsimp only
  repeat' (first | (with_reducible refine ⟨_, rfl, ?_⟩) | with_reducible assumption | exact Foot.sub (by decide) hm | with_reducible apply intInstr_foot | with_reducible apply Foot.ite | (with_reducible refine Foot.foldl ?_ (fun _ _ _ => ?_)) | split)

theorem execSub_foot {m : Nat} {z : State} (t : Tenant) (f : FmtA) (s : State) (hm : 0x88CB5EBF5 ||| m = m) (h0 : Foot m z s) :
    ∃ u, execSub t f s = .next u ∧ Foot m z u := by
  unfold execSub
  try dsimp only
  repeat' (first | (with_reducible refine ⟨_, rfl, ?_⟩) | with_reducible assumption | exact Foot.sub (by decide) hm | with_reducible apply intInstr_foot | with_reducible apply Foot.ite | (with_reducible refine Foot.foldl ?_ (fun _ _ _ => ?_)) | split)

theorem execSubb_foot {m : Nat} {z : State} (t : Tenant) (f : FmtA) (s : State) (hm : 0x88CB5EBF5 ||| m = m) (h0 : Foot m z s) :
    ∃ u, execSubb t f s = .next u ∧ Foot m z u := by
  unfold execSubb
  try dsimp only
  repeat' (first | (with_reducible refine ⟨_, rfl, ?_⟩) | with_reducible assumption | exact Foot.sub (by decide) hm | with_reducible apply intInstr_foot | with_reducible apply Foot.ite | (with_reducible refine Foot.foldl ?_ (fun _ _ _ => ?_)) | split)

theorem execMul_foot {m : Nat} {z : State} (t : Tenant) (f : FmtA) (s : State) (hm : 0x88CB5EBF5 ||| m = m) (h0 : Foot m z s) :
    ∃ u, execMul t f s = .next u ∧ Foot m z u := by
  unfold execMul
  try dsimp only
  repeat' (first | (with_reducible refine ⟨_, rfl, ?_⟩) | with_reducible assumption | exact Foot.sub (by decide) hm | with_reducible apply intInstr_foot | with_reducible apply Foot.ite | (with_reducible refine Foot.foldl ?_ (fun _ _ _ => ?_)) | split)

theorem execMulw_foot {m : Nat} {z : State} (t : Tenant) (f : FmtA) (s : State) (hm : 0x88CB5EBF5 ||| m = m) (h0 : Foot m z s) :
    ∃ u, execMulw t f s = .next u ∧ Foot m z u := by
  unfold execMulw
  try dsimp only
  repeat' (first | (with_reducible refine ⟨_, rfl, ?_⟩) | with_reducible assumption | exact Foot.sub (by decide) hm | with_reducible apply intInstr_foot | with_reducible apply Foot.ite | (with_reducible refine Foot.foldl ?_ (fun _ _ _ => ?_)) | split)

theorem execDiv_foot {m : Nat} {z : State} (t : Tenant) (f : FmtA) (s : State) (hm : 0x88CB5EBF5 ||| m = m) (h0 : Foot m z s) :
    ∃ u, execDiv t f s = .next u ∧ Foot m z u := by
  unfold execDiv
  try dsimp only
  repeat' (first | (with_reducible refine ⟨_, rfl, ?_⟩) | with_reducible assumption | exact Foot.sub (by decide) hm | with_reducible apply intInstr_foot | with_reducible apply Foot.ite | (with_reducible refine Foot.foldl ?_ (fun _ _ _ => ?_)) | split)

theorem execMod_foot {m : Nat} {z : State} (t : Tenant) (f : FmtA) (s : State) (hm : 0x88CB5EBF5 ||| m = m) (h0 : Foot m z s) :
    ∃ u, execMod t f s = .next u ∧ Foot m z u := by
  unfold execMod
  try dsimp only
  repeat' (first | (with_reducible refine ⟨_, rfl, ?_⟩) | with_reducible assumption | exact Foot.sub (by decide) hm | with_reducible apply intInstr_foot | with_reducible apply Foot.ite | (with_reducible refine Foot.foldl ?_ (fun _ _ _ => ?_)) | split)

theorem execNeg_foot {m : Nat} {z : State} (t : Tenant) (f : FmtA) (s : State) (hm : 0x88CB5EBF5 ||| m = m) (h0 : Foot m z s) :
    ∃ u, execNeg t f s = .next u ∧ Foot m z u := by
  unfold execNeg
  try dsimp only
  repeat' (first | (with_reducible refine ⟨_, rfl, ?_⟩) | with_reducible assumption | exact Foot.sub (by decide) hm | with_reducible apply intInstr_foot | with_reducible apply Foot.ite | (with_reducible refine Foot.foldl ?_ (fun _ _ _ => ?_)) | split)

theorem execMin_foot {m : Nat} {z : State} (t : Tenant) (f : FmtA) (s : State) (hm : 0x88CB5EBF5 ||| m = m) (h0 : Foot m z s) :
    ∃ u, execMin t f s = .next u ∧ Foot m z u := by
  unfold execMin
  try dsimp only
  repeat' (first | (with_reducible refine ⟨_, rfl, ?_⟩) | with_reducible assumption | exact Foot.sub (by decide) hm | with_reducible apply intInstr_foot | with_reducible apply Foot.ite | (with_reducible refine Foot.foldl ?_ (fun _ _ _ => ?_)) | split)

theorem execMax_foot {m : Nat} {z : State} (t : Tenant) (f : FmtA) (s : State) (hm : 0x88CB5EBF5 ||| m = m) (h0 : Foot m z s) :
    ∃ u, execMax t f s = .next u ∧ Foot m z u := by
  unfold execMax
  try dsimp only
  repeat' (first | (with_reducible refine ⟨_, rfl, ?_⟩) | with_reducible assumption | exact Foot.sub (by decide) hm | with_reducible apply intInstr_foot | with_reducible apply Foot.ite | (with_reducible refine Foot.foldl ?_ (fun _ _ _ => ?_)) | split)

theorem execCmpeq_foot {m : Nat} {z : State} (t : Tenant) (f : FmtA) (s : State) (hm : 0x88CB5EBF5 ||| m = m) (h0 : Foot m z s) :
    ∃ u, execCmpeq t f s = .next u ∧ Foot m z u := by
  unfold execCmpeq
  try dsimp only
  repeat' (first | (with_reducible refine ⟨_, rfl, ?_⟩) | with_reducible assumption | exact Foot.sub (by decide) hm | with_reducible apply intInstr_foot | with_reducible apply Foot.ite | (with_reducible refine Foot.foldl ?_ (fun _ _ _ => ?_)) | split)

theorem execCmpne_foot {m : Nat} {z : State} (t : Tenant) (f : FmtA) (s : State) (hm : 0x88CB5EBF5 ||| m = m) (h0 : Foot m z s) :
    ∃ u, execCmpne t f s = .next u ∧ Foot m z u := by
  unfold execCmpne
  try dsimp only
  repeat' (first | (with_reducible refine ⟨_, rfl, ?_⟩) | with_reducible assumption | exact Foot.sub (by decide) hm | with_reducible apply intInstr_foot | with_reducible apply Foot.ite | (with_reducible refine Foot.foldl ?_ (fun _ _ _ => ?_)) | split)

theorem execCmplt_foot {m : Nat} {z : State} (t : Tenant) (f : FmtA) (s : State) (hm : 0x88CB5EBF5 ||| m = m) (h0 : Foot m z s) :
    ∃ u, execCmplt t f s = .next u ∧ Foot m z u := by
  unfold execCmplt
  try dsimp only
  repeat' (first | (with_reducible refine ⟨_, rfl, ?_⟩) | with_reducible assumption | exact Foot.sub (by decide) hm | with_reducible apply intInstr_foot | with_reducible apply Foot.ite | (with_reducible refine Foot.foldl ?_ (fun _ _ _ => ?_)) | split)

theorem execCmple_foot {m : Nat} {z : State} (t : Tenant) (f : FmtA) (s : State) (hm : 0x88CB5EBF5 ||| m = m) (h0 : Foot m z s) :
    ∃ u, execCmple t f s = .next u ∧ Foot m z u := by
  unfold execCmple
  try dsimp only
  repeat' (first | (with_reducible refine ⟨_, rfl, ?_⟩) | with_reducible assumption | exact Foot.sub (by decide) hm | with_reducible apply intInstr_foot | with_reducible apply Foot.ite | (with_reducible refine Foot.foldl ?_ (fun _ _ _ => ?_)) | split)

end Sys2Proof.Machine
end

