-- ==== Sys2Proof/Laws/FootNetBase.lean ====
section
/-! SUPPORT. Which components of the state each operation of Machine/NetBase.lean can change. -/

set_option linter.unusedTactic false
set_option linter.unusedVariables false
set_option linter.unreachableTactic false

namespace Sys2Proof.Machine

theorem setCtrlService_foot {m : Nat} {z : State} (s : State) (h : HostCh) (v : CtrlService) (hm : 0x40000000 ||| m = m) (h0 : Foot m z s) :
    Foot m z (setCtrlService s h v) := by
  unfold setCtrlService
  try dsimp only
  repeat' (first | with_reducible assumption | exact Foot.sub (by decide) hm | with_reducible apply modEsc_foot | with_reducible apply modCan_foot | with_reducible apply Foot.ite | (with_reducible refine Foot.foldl ?_ (fun _ _ _ => ?_)) | split)

theorem moveTenant_foot {m : Nat} {z : State} (s : State) (old new : HostCh) (t : Tenant) (hm : 0x60000800 ||| m = m) (h0 : Foot m z s) :
    Foot m z (moveTenant s old new t) := by
  unfold moveTenant
  try dsimp only
  repeat' (first | with_reducible assumption | exact Foot.sub (by decide) hm | with_reducible apply modTen_foot | with_reducible apply modSes_foot | with_reducible apply emcyTo_foot | with_reducible apply closeSes_foot | with_reducible apply syncSes_foot | with_reducible apply bootNode_foot | with_reducible apply Foot.ite | (with_reducible refine Foot.foldl ?_ (fun _ _ _ => ?_)) | split)

theorem stopCtrl_foot {m : Nat} {z : State} (s : State) (h : HostCh) (hm : 0x40000000 ||| m = m) (h0 : Foot m z s) :
    Foot m z (stopCtrl s h) := by
  unfold stopCtrl
  try dsimp only
  repeat' (first | with_reducible assumption | exact Foot.sub (by decide) hm | with_reducible apply modEsc_foot | with_reducible apply modCan_foot | with_reducible apply Foot.ite | (with_reducible refine Foot.foldl ?_ (fun _ _ _ => ?_)) | split)

theorem ctrlFault_foot {m : Nat} {z : State} (s : State) (h : HostCh) (hm : 0x860800800 ||| m = m) (h0 : Foot m z s) :
    Foot m z (ctrlFault s h) := by
  unfold ctrlFault
  try dsimp only
  repeat' (first | with_reducible assumption | exact Foot.sub (by decide) hm | with_reducible apply logEvent_foot | with_reducible apply partFault_foot | with_reducible apply closeNi_foot | with_reducible apply sendClear_foot | with_reducible apply closeSes_foot | with_reducible apply bootNode_foot | with_reducible apply setCtrlService_foot | with_reducible apply moveTenant_foot | with_reducible apply stopCtrl_foot | with_reducible apply Foot.ite | (with_reducible refine Foot.foldl ?_ (fun _ _ _ => ?_)) | split)

theorem execControllerFault_foot {m : Nat} {z : State} (h : HostCh) (s : State) (hm : 0x868800801 ||| m = m) (h0 : Foot m z s) :
    ∃ u, execControllerFault h s = .next u ∧ Foot m z u := by
  unfold execControllerFault
  try dsimp only
  repeat' (first | (with_reducible refine ⟨_, rfl, ?_⟩) | with_reducible assumption | exact Foot.sub (by decide) hm | with_reducible apply takeMark_foot | with_reducible apply ctrlFault_foot | with_reducible apply Foot.ite | (with_reducible refine Foot.foldl ?_ (fun _ _ _ => ?_)) | split)

end Sys2Proof.Machine
end

