-- ==== Sys2Proof/Laws/FootStarts.lean ====
section
/-! SUPPORT. Which components of the state each operation of Machine/Starts.lean can change. -/

set_option linter.unusedTactic false
set_option linter.unusedVariables false
set_option linter.unreachableTactic false

namespace Sys2Proof.Machine

theorem setStart_foot {m : Nat} {z : State} (s : State) (f : Starts → Starts) (hm : 0x200000000 ||| m = m) (h0 : Foot m z s) :
    Foot m z (setStart s f) := by
  unfold setStart
  try dsimp only
  repeat' (first | with_reducible assumption | exact Foot.sub (by decide) hm | with_reducible apply Foot.ite | (with_reducible refine Foot.foldl ?_ (fun _ _ _ => ?_)) | (fail_if_no_progress (with_reducible refine Foot.up_start ?_ (Foot.sub (by decide) hm))) | split)

theorem resetArray_foot {m : Nat} {z : State} (s : State) (hm : 0x888800BF4 ||| m = m) (h0 : Foot m z s) :
    Foot m z (resetArray s) := by
  unfold resetArray
  try dsimp only
  repeat' (first | with_reducible assumption | exact Foot.sub (by decide) hm | with_reducible apply modTile_foot | with_reducible apply modSqr_foot | with_reducible apply modTen_foot | with_reducible apply polderOff_foot | with_reducible apply dropCtx_foot | with_reducible apply tileDrained_foot | with_reducible apply seqDrained_foot | with_reducible apply Foot.ite | (with_reducible refine Foot.foldl ?_ (fun _ _ _ => ?_)) | split)

theorem resetEngines_foot {m : Nat} {z : State} (s : State) (hm : 0x44A00000 ||| m = m) (h0 : Foot m z s) :
    Foot m z (resetEngines s) := by
  have h3 := Foot.foldl (f := fun u r => modRtr u r resetRouter) (l := List.range 24)
    (Foot.foldl (f := fun u n => modNi u n resetNi) (l := List.range 48)
      (Foot.foldl (f := fun u c => modCam u c resetCam) (l := List.finRange 8) h0
        fun _ _ h => modCam_foot _ _ _ (Foot.sub (by decide) hm) h)
      fun _ _ h => modNi_foot _ _ _ (Foot.sub (by decide) hm) h)
    fun _ _ h => modRtr_foot _ _ _ (Foot.sub (by decide) hm) h
  exact Foot.foldl (Foot.up_net (Foot.up_march_noc h3 (Foot.sub (by decide) hm)) (Foot.sub (by decide) hm))
    fun _ _ h => stopCtrl_foot _ _ (Foot.sub (by decide) hm) h

theorem dropLoad_foot {m : Nat} {z : State} (s : State) (hm : 0x408000000 ||| m = m) (h0 : Foot m z s) :
    Foot m z (dropLoad s) := by
  unfold dropLoad
  try dsimp only
  repeat' (first | with_reducible assumption | exact Foot.sub (by decide) hm | with_reducible apply setPending_foot | with_reducible apply Foot.ite | (with_reducible refine Foot.foldl ?_ (fun _ _ _ => ?_)) | (fail_if_no_progress (with_reducible refine Foot.up_fab ?_ (Foot.sub (by decide) hm))) | split)

theorem stopFabric_foot {m : Nat} {z : State} (s : State) (hm : 0x8000000 ||| m = m) (h0 : Foot m z s) :
    Foot m z (stopFabric s) := by
  unfold stopFabric
  try dsimp only
  repeat' (first | with_reducible assumption | exact Foot.sub (by decide) hm | with_reducible apply fallLines_foot | with_reducible apply Foot.ite | (with_reducible refine Foot.foldl ?_ (fun _ _ _ => ?_)) | (fail_if_no_progress (with_reducible refine Foot.up_fab ?_ (Foot.sub (by decide) hm))) | split)

theorem dropUpdate_foot {m : Nat} {z : State} (s : State) (hm : 0x400000000 ||| m = m) (h0 : Foot m z s) :
    Foot m z (dropUpdate s) := by
  unfold dropUpdate
  try dsimp only
  repeat' (first | with_reducible assumption | exact Foot.sub (by decide) hm | with_reducible apply setPending_foot | with_reducible apply setFw_foot | with_reducible apply Foot.ite | (with_reducible refine Foot.foldl ?_ (fun _ _ _ => ?_)) | split)

theorem assertReset_foot {m : Nat} {z : State} (s : State) (cause : Byte) (hm : 0xEECA00BF4 ||| m = m) (h0 : Foot m z s) :
    Foot m z (assertReset s cause) := by
  unfold assertReset
  try dsimp only
  repeat' (first | with_reducible assumption | exact Foot.sub (by decide) hm | with_reducible apply setClk_foot | with_reducible apply closeAll_foot | with_reducible apply setStart_foot | with_reducible apply resetArray_foot | with_reducible apply resetEngines_foot | with_reducible apply dropLoad_foot | with_reducible apply stopFabric_foot | with_reducible apply dropUpdate_foot | with_reducible apply Foot.ite | (with_reducible refine Foot.foldl ?_ (fun _ _ _ => ?_)) | (fail_if_no_progress (with_reducible refine Foot.up_ident ?_ (Foot.sub (by decide) hm))) | (fail_if_no_progress (with_reducible refine Foot.up_obs ?_ (Foot.sub (by decide) hm))) | split)

theorem persistMarks_foot {m : Nat} {z : State} (s : State) (hm : 0x800 ||| m = m) (h0 : Foot m z s) :
    Foot m z (persistMarks s) := by
  unfold persistMarks
  try dsimp only
  repeat' (first | with_reducible assumption | exact Foot.sub (by decide) hm | with_reducible apply modTen_foot | with_reducible apply Foot.ite | (with_reducible refine Foot.foldl ?_ (fun _ _ _ => ?_)) | split)

theorem passUs_foot {m : Nat} {z : State} (s : State) (us : Nat) (hm : 0x3 ||| m = m) (h0 : Foot m z s) :
    Foot m z (passUs s us) := by
  unfold passUs
  try dsimp only
  repeat' (first | with_reducible assumption | exact Foot.sub (by decide) hm | with_reducible apply bump_foot | with_reducible apply Foot.ite | (with_reducible refine Foot.foldl ?_ (fun _ _ _ => ?_)) | (fail_if_no_progress (with_reducible refine Foot.up_time ?_ (Foot.sub (by decide) hm))) | split)

theorem logStart_foot {m : Nat} {z : State} (s : State) (kind cause : Byte) (us : Nat) (hm : 0x800000000 ||| m = m) (h0 : Foot m z s) :
    Foot m z (logStart s kind cause us) := by
  unfold logStart
  try dsimp only
  repeat' (first | with_reducible assumption | exact Foot.sub (by decide) hm | with_reducible apply logEvent_foot | with_reducible apply Foot.ite | (with_reducible refine Foot.foldl ?_ (fun _ _ _ => ?_)) | split)

theorem chooseRef_foot {m : Nat} {z : State} (s : State) (pref : Nat) (hm : 0x80000000 ||| m = m) (h0 : Foot m z s) :
    Foot m z (chooseRef s pref) := by
  unfold chooseRef
  try dsimp only
  repeat' (first | with_reducible assumption | exact Foot.sub (by decide) hm | with_reducible apply setClk_foot | with_reducible apply Foot.ite | (with_reducible refine Foot.foldl ?_ (fun _ _ _ => ?_)) | split)

theorem startHost_foot {m : Nat} {z : State} (s : State) (hm : 0x64000800 ||| m = m) (h0 : Foot m z s) :
    Foot m z (startHost s) := by
  unfold startHost
  try dsimp only
  repeat' (first | with_reducible assumption | exact Foot.sub (by decide) hm | with_reducible apply modCam_foot | with_reducible apply syncSes_foot | with_reducible apply bootNode_foot | with_reducible apply bindChannel_foot | with_reducible apply Foot.ite | (with_reducible refine Foot.foldl ?_ (fun _ _ _ => ?_)) | split)

theorem endStart_foot {m : Nat} {z : State} (s : State) (kind cause : Byte) (us : Nat) (hm : 0x2988008F4 ||| m = m) (h0 : Foot m z s) :
    Foot m z (endStart s kind cause us) := by
  unfold endStart
  try dsimp only
  repeat' (first | with_reducible assumption | exact Foot.sub (by decide) hm | with_reducible apply fabEdge_foot | with_reducible apply kickAll_foot | with_reducible apply setStart_foot | with_reducible apply Foot.ite | (with_reducible refine Foot.foldl ?_ (fun _ _ _ => ?_)) | split)

theorem safeShell_foot {m : Nat} {z : State} (s : State) (ownOk : Bool) (hm : 0x268000800 ||| m = m) (h0 : Foot m z s) :
    Foot m z (safeShell s ownOk) := by
  unfold safeShell
  try dsimp only
  repeat' (first | with_reducible assumption | exact Foot.sub (by decide) hm | with_reducible apply modTen_foot | with_reducible apply emergency_foot | with_reducible apply syncSes_foot | with_reducible apply bootNode_foot | with_reducible apply bindChannel_foot | with_reducible apply setStart_foot | with_reducible apply Foot.ite | (with_reducible refine Foot.foldl ?_ (fun _ _ _ => ?_)) | (fail_if_no_progress (with_reducible refine Foot.up_fab_net ?_ (Foot.sub (by decide) hm))) | split)

theorem failStart_foot {m : Nat} {z : State} (s : State) (step : Nat) (ownOk : Bool) (hm : 0xA68000800 ||| m = m) (h0 : Foot m z s) :
    Foot m z (failStart s step ownOk) := by
  unfold failStart
  try dsimp only
  repeat' (first | with_reducible assumption | exact Foot.sub (by decide) hm | with_reducible apply logEvent_foot | with_reducible apply setStart_foot | with_reducible apply safeShell_foot | with_reducible apply Foot.ite | (with_reducible refine Foot.foldl ?_ (fun _ _ _ => ?_)) | split)

theorem coldBase_foot {m : Nat} {z : State} (s : State) (cause : Byte) (r : StartReport) (hm : 0xFFFFFFFF6 ||| m = m) (h0 : Foot m z s) :
    Foot m z (coldBase s cause r) := by
  unfold coldBase
  exact Foot.up_many34 h0 hm

theorem measureItem_foot {m : Nat} {z : State} (s : State) (kind : Nat) (ctr : Word) (d : Bytes) (hm : 0x400000000 ||| m = m) (h0 : Foot m z s) :
    Foot m z (measureItem s kind ctr d) := by
  unfold measureItem
  try dsimp only
  repeat' (first | with_reducible assumption | exact Foot.sub (by decide) hm | with_reducible apply measure_foot | with_reducible apply Foot.ite | (with_reducible refine Foot.foldl ?_ (fun _ _ _ => ?_)) | (fail_if_no_progress (with_reducible refine Foot.up_ident ?_ (Foot.sub (by decide) hm))) | split)

theorem fwInUse_foot {m : Nat} {z : State} (s : State) (hm : 0x400000000 ||| m = m) (h0 : Foot m z s) :
    Foot m z (fwInUse s) := by
  unfold fwInUse
  try dsimp only
  repeat' (first | with_reducible assumption | exact Foot.sub (by decide) hm | with_reducible apply setFw_foot | with_reducible apply Foot.ite | (with_reducible refine Foot.foldl ?_ (fun _ _ _ => ?_)) | split)

theorem coldImages_foot {m : Nat} {z : State} (s : State) (ok : Bool) (hm : 0xC08000000 ||| m = m) (h0 : Foot m z s) :
    Foot m z (coldImages s ok) := by
  unfold coldImages
  try dsimp only
  repeat' (first | with_reducible assumption | exact Foot.sub (by decide) hm | with_reducible apply logEvent_foot | with_reducible apply setFw_foot | with_reducible apply fwStored_foot | with_reducible apply measureItem_foot | with_reducible apply fwInUse_foot | with_reducible apply Foot.ite | (with_reducible refine Foot.foldl ?_ (fun _ _ _ => ?_)) | (fail_if_no_progress (with_reducible refine Foot.up_fab ?_ (Foot.sub (by decide) hm))) | split)

theorem coldRouters_foot {m : Nat} {z : State} (s : State) (bad : List RouterId) (hm : 0x800800000 ||| m = m) (h0 : Foot m z s) :
    Foot m z (coldRouters s bad) := by
  unfold coldRouters
  try dsimp only
  repeat' (first | with_reducible assumption | exact Foot.sub (by decide) hm | with_reducible apply modRtr_foot | with_reducible apply logEvent_foot | with_reducible apply setNiSt_foot | with_reducible apply Foot.ite | (with_reducible refine Foot.foldl ?_ (fun _ _ _ => ?_)) | (fail_if_no_progress (with_reducible refine Foot.up_noc ?_ (Foot.sub (by decide) hm))) | split)

theorem coldMarch_foot {m : Nat} {z : State} (s : State) (r : StartReport) (hm : 0x800900004 ||| m = m) (h0 : Foot m z s) :
    Foot m z (coldMarch s r) := by
  unfold coldMarch
  try dsimp only
  repeat' (first | with_reducible assumption | exact Foot.sub (by decide) hm | with_reducible apply modTile_foot | with_reducible apply modMemSt_foot | with_reducible apply logEvent_foot | with_reducible apply setNiSt_foot | with_reducible apply setTileSvc_foot | with_reducible apply tileMarched_foot | with_reducible apply Foot.ite | (with_reducible refine Foot.foldl ?_ (fun _ _ _ => ?_)) | split)

theorem coldWcs_foot {m : Nat} {z : State} (s0 : State) (r : StartReport) (hm : 0xC00800500 ||| m = m) (h0 : Foot m z s0) :
    Foot m z (coldWcs s0 r) := by
  unfold coldWcs
  try dsimp only
  repeat' (first | with_reducible assumption | exact Foot.sub (by decide) hm | with_reducible apply modSqr_foot | with_reducible apply setNiSt_foot | with_reducible apply setSeqSvc_foot | with_reducible apply measureItem_foot | with_reducible apply Foot.ite | (with_reducible refine Foot.foldl ?_ (fun _ _ _ => ?_)) | (fail_if_no_progress (with_reducible refine Foot.up_mc ?_ (Foot.sub (by decide) hm))) | split)

theorem coldFabric_foot {m : Nat} {z : State} (s : State) (okA okB : Bool) (hm : 0xCBCB7FBF5 ||| m = m) (h0 : Foot m z s) :
    Foot m z (coldFabric s okA okB) := by
  unfold coldFabric
  try dsimp only
  repeat' (first | with_reducible assumption | exact Foot.sub (by decide) hm | with_reducible apply measure_foot | with_reducible apply measureNone_foot | with_reducible apply measureRegion_foot | with_reducible apply releaseLoad_foot | with_reducible apply resample_foot | with_reducible apply measureItem_foot | with_reducible apply Foot.ite | (with_reducible refine Foot.foldl ?_ (fun _ _ _ => ?_)) | (fail_if_no_progress (with_reducible refine Foot.up_fab ?_ (Foot.sub (by decide) hm))) | split)

theorem coldAdc_foot {m : Nat} {z : State} (s : State) (bad : List GroupId) (hm : 0x8BCB5EBF5 ||| m = m) (h0 : Foot m z s) :
    Foot m z (coldAdc s bad) := by
  unfold coldAdc
  try dsimp only
  repeat' (first | with_reducible assumption | exact Foot.sub (by decide) hm | with_reducible apply groupFault_foot | with_reducible apply Foot.ite | (with_reducible refine Foot.foldl ?_ (fun _ _ _ => ?_)) | split)

theorem coldMap_foot {m : Nat} {z : State} (s : State) (hm : 0x80000000C ||| m = m) (h0 : Foot m z s) :
    Foot m z (coldMap s) := by
  unfold coldMap
  try dsimp only
  repeat' (first | with_reducible assumption | exact Foot.sub (by decide) hm | with_reducible apply setPhys_foot | with_reducible apply setTileSvc_foot | with_reducible apply Foot.ite | (with_reducible refine Foot.foldl ?_ (fun _ _ _ => ?_)) | split)

theorem coldBind_foot {m : Nat} {z : State} (s : State) (t : Tenant) (hm : 0x900 ||| m = m) (h0 : Foot m z s) :
    Foot m z (coldBind s t) := by
  unfold coldBind
  try dsimp only
  repeat' (first | with_reducible assumption | exact Foot.sub (by decide) hm | with_reducible apply modSqr_foot | with_reducible apply modTen_foot | with_reducible apply Foot.ite | (with_reducible refine Foot.foldl ?_ (fun _ _ _ => ?_)) | split)

theorem coldRecords_foot {m : Nat} {z : State} (s : State) (bad : List Tenant) (hm : 0xC0000090C ||| m = m) (h0 : Foot m z s) :
    Foot m z (coldRecords s bad) := by
  unfold coldRecords
  try dsimp only
  repeat' (first | with_reducible assumption | exact Foot.sub (by decide) hm | with_reducible apply modSqr_foot | with_reducible apply modTen_foot | with_reducible apply logEvent_foot | with_reducible apply measure_foot | with_reducible apply measureNone_foot | with_reducible apply coldMap_foot | with_reducible apply coldBind_foot | with_reducible apply Foot.ite | (with_reducible refine Foot.foldl ?_ (fun _ _ _ => ?_)) | split)

theorem coldCtrls_foot {m : Nat} {z : State} (s0 : State) (rmii : List CtrlId) (bad : List HostCh) (hm : 0x860000800 ||| m = m) (h0 : Foot m z s0) :
    Foot m z (coldCtrls s0 rmii bad) := by
  unfold coldCtrls
  try dsimp only
  repeat' (first | with_reducible assumption | exact Foot.sub (by decide) hm | with_reducible apply modEsc_foot | with_reducible apply logEvent_foot | with_reducible apply partFault_foot | with_reducible apply setCtrlService_foot | with_reducible apply Foot.ite | (with_reducible refine Foot.foldl ?_ (fun _ _ _ => ?_)) | split)

theorem coldEnd_foot {m : Nat} {z : State} (s : State) (cause : Byte) (r : StartReport) (us : Nat) (hm : 0xEFCB7FFFD ||| m = m) (h0 : Foot m z s) :
    Foot m z (coldEnd s cause r us) := by
  unfold coldEnd
  try dsimp only
  repeat' (first | with_reducible assumption | exact Foot.sub (by decide) hm | with_reducible apply startHost_foot | with_reducible apply endStart_foot | with_reducible apply failStart_foot | with_reducible apply coldRouters_foot | with_reducible apply coldMarch_foot | with_reducible apply coldWcs_foot | with_reducible apply coldFabric_foot | with_reducible apply coldAdc_foot | with_reducible apply coldRecords_foot | with_reducible apply coldCtrls_foot | with_reducible apply Foot.ite | (with_reducible refine Foot.foldl ?_ (fun _ _ _ => ?_)) | split)

theorem coldStart_foot {m : Nat} {z : State} (s : State) (cause : Byte) (r : StartReport) (hm : 0xFFFFFFFFF ||| m = m) (h0 : Foot m z s) :
    Foot m z (coldStart s cause r) := by
  unfold coldStart
  try dsimp only
  repeat' (first | with_reducible assumption | exact Foot.sub (by decide) hm | with_reducible apply setStart_foot | with_reducible apply passUs_foot | with_reducible apply logStart_foot | with_reducible apply chooseRef_foot | with_reducible apply failStart_foot | with_reducible apply coldBase_foot | with_reducible apply coldImages_foot | with_reducible apply coldRouters_foot | with_reducible apply coldMarch_foot | with_reducible apply coldEnd_foot | with_reducible apply Foot.ite | (with_reducible refine Foot.foldl ?_ (fun _ _ _ => ?_)) | (fail_if_no_progress (with_reducible refine Foot.up_field ?_ (Foot.sub (by decide) hm))) | (fail_if_no_progress (with_reducible refine Foot.up_obs ?_ (Foot.sub (by decide) hm))) | split)

theorem warmCounters_foot {m : Nat} {z : State} (s : State) (hm : 0x85CE00800 ||| m = m) (h0 : Foot m z s) :
    Foot m z (warmCounters s) := by
  unfold warmCounters
  try dsimp only
  repeat' (first | with_reducible assumption | exact Foot.sub (by decide) hm | with_reducible apply modTen_foot | with_reducible apply modCam_foot | with_reducible apply modEsc_foot | with_reducible apply Foot.ite | (with_reducible refine Foot.foldl ?_ (fun _ _ _ => ?_)) | (fail_if_no_progress (with_reducible refine Foot.up_many6 ?_ (Foot.sub (by decide) hm))) | split)

theorem warmWcs_foot {m : Nat} {z : State} (s : State) (r : StartReport) (hm : 0x820000D00 ||| m = m) (h0 : Foot m z s) :
    Foot m z (warmWcs s r) := by
  unfold warmWcs
  try dsimp only
  repeat' (first | with_reducible assumption | exact Foot.sub (by decide) hm | with_reducible apply modSqr_foot | with_reducible apply patchStop_foot | with_reducible apply Foot.ite | (with_reducible refine Foot.foldl ?_ (fun _ _ _ => ?_)) | (fail_if_no_progress (with_reducible refine Foot.up_mc ?_ (Foot.sub (by decide) hm))) | split)

theorem warmFabric_foot {m : Nat} {z : State} (s : State) (lost : Bool) (r : StartReport) (hm : 0xCBCB7FBF5 ||| m = m) (h0 : Foot m z s) :
    Foot m z (warmFabric s lost r) := by
  unfold warmFabric
  try dsimp only
  repeat' (first | with_reducible assumption | exact Foot.sub (by decide) hm | with_reducible apply retargetFab_foot | with_reducible apply measureRegion_foot | with_reducible apply releaseLoad_foot | with_reducible apply restartFabric_foot | with_reducible apply coldFabric_foot | with_reducible apply Foot.ite | (with_reducible refine Foot.foldl ?_ (fun _ _ _ => ?_)) | (fail_if_no_progress (with_reducible refine Foot.up_fab ?_ (Foot.sub (by decide) hm))) | split)

theorem warmInputs_foot {m : Nat} {z : State} (s : State) (hm : 0x88CB5EBF5 ||| m = m) (h0 : Foot m z s) :
    Foot m z (warmInputs s) := by
  unfold warmInputs
  try dsimp only
  repeat' (first | with_reducible assumption | exact Foot.sub (by decide) hm | with_reducible apply abortOrders_foot | with_reducible apply Foot.ite | (with_reducible refine Foot.foldl ?_ (fun _ _ _ => ?_)) | split)

theorem warmCtrls_foot {m : Nat} {z : State} (s : State) (bad : List HostCh) (hm : 0x860000800 ||| m = m) (h0 : Foot m z s) :
    Foot m z (warmCtrls s bad) := by
  unfold warmCtrls
  try dsimp only
  repeat' (first | with_reducible assumption | exact Foot.sub (by decide) hm | with_reducible apply logEvent_foot | with_reducible apply partFault_foot | with_reducible apply setCtrlService_foot | with_reducible apply Foot.ite | (with_reducible refine Foot.foldl ?_ (fun _ _ _ => ?_)) | split)

theorem wakeRunning_foot {m : Nat} {z : State} (s : State) (hm : 0x888000F4 ||| m = m) (h0 : Foot m z s) :
    Foot m z (wakeRunning s) := by
  unfold wakeRunning
  try dsimp only
  repeat' (first | with_reducible assumption | exact Foot.sub (by decide) hm | with_reducible apply wakeTenant_foot | with_reducible apply Foot.ite | (with_reducible refine Foot.foldl ?_ (fun _ _ _ => ?_)) | split)

theorem warmEnd_foot {m : Nat} {z : State} (s : State) (cause : Byte) (r : StartReport) (skips : Byte) (lost : Bool) (us : Nat) (hm : 0xFFCF7FFF5 ||| m = m) (h0 : Foot m z s) :
    Foot m z (warmEnd s cause r skips lost us) := by
  unfold warmEnd
  try dsimp only
  repeat' (first | with_reducible assumption | exact Foot.sub (by decide) hm | with_reducible apply memFault_foot | with_reducible apply setStart_foot | with_reducible apply logStart_foot | with_reducible apply chooseRef_foot | with_reducible apply startHost_foot | with_reducible apply endStart_foot | with_reducible apply failStart_foot | with_reducible apply warmCounters_foot | with_reducible apply warmWcs_foot | with_reducible apply warmFabric_foot | with_reducible apply warmInputs_foot | with_reducible apply warmCtrls_foot | with_reducible apply wakeRunning_foot | with_reducible apply Foot.ite | (with_reducible refine Foot.foldl ?_ (fun _ _ _ => ?_)) | (fail_if_no_progress (with_reducible refine Foot.up_field ?_ (Foot.sub (by decide) hm))) | (fail_if_no_progress (with_reducible refine Foot.up_net ?_ (Foot.sub (by decide) hm))) | (fail_if_no_progress (with_reducible refine Foot.up_sup ?_ (Foot.sub (by decide) hm))) | split)

theorem warmStart_foot {m : Nat} {z : State} (s : State) (cause : Byte) (r : StartReport) (hm : 0xFFFFFFFFF ||| m = m) (h0 : Foot m z s) :
    Foot m z (warmStart s cause r) := by
  unfold warmStart
  try dsimp only
  repeat' (first | with_reducible assumption | exact Foot.sub (by decide) hm | with_reducible apply setStart_foot | with_reducible apply passUs_foot | with_reducible apply failStart_foot | with_reducible apply coldImages_foot | with_reducible apply coldStart_foot | with_reducible apply warmEnd_foot | with_reducible apply Foot.ite | (with_reducible refine Foot.foldl ?_ (fun _ _ _ => ?_)) | split)

theorem releaseHeld_foot {m : Nat} {z : State} (s : State) (r : StartReport) (hm : 0xFFFFFFFFF ||| m = m) (h0 : Foot m z s) :
    Foot m z (releaseHeld s r) := by
  unfold releaseHeld
  try dsimp only
  repeat' (first | with_reducible assumption | exact Foot.sub (by decide) hm | with_reducible apply coldStart_foot | with_reducible apply warmStart_foot | with_reducible apply Foot.ite | (with_reducible refine Foot.foldl ?_ (fun _ _ _ => ?_)) | split)

theorem holdReset_foot {m : Nat} {z : State} (s : State) (cause : Byte) (hm : 0xEECA00BF4 ||| m = m) (h0 : Foot m z s) :
    Foot m z (holdReset s cause) := by
  unfold holdReset
  try dsimp only
  repeat' (first | with_reducible assumption | exact Foot.sub (by decide) hm | with_reducible apply assertReset_foot | with_reducible apply safeShell_foot | with_reducible apply Foot.ite | (with_reducible refine Foot.foldl ?_ (fun _ _ _ => ?_)) | split)

theorem startNow_foot {m : Nat} {z : State} (s : State) (cause : Byte) (r : StartReport) (hm : 0xFFFFFFFFF ||| m = m) (h0 : Foot m z s) :
    Foot m z (startNow s cause r) := by
  unfold startNow
  try dsimp only
  repeat' (first | with_reducible assumption | exact Foot.sub (by decide) hm | with_reducible apply assertReset_foot | with_reducible apply safeShell_foot | with_reducible apply coldStart_foot | with_reducible apply warmStart_foot | with_reducible apply Foot.ite | (with_reducible refine Foot.foldl ?_ (fun _ _ _ => ?_)) | split)

theorem coldCommand_foot {m : Nat} {z : State} (s : State) (r : StartReport) (hm : 0xFFFFFFFFF ||| m = m) (h0 : Foot m z s) :
    Foot m z (coldCommand s r) := by
  unfold coldCommand
  try dsimp only
  repeat' (first | with_reducible assumption | exact Foot.sub (by decide) hm | with_reducible apply emergency_foot | with_reducible apply setStart_foot | with_reducible apply assertReset_foot | with_reducible apply persistMarks_foot | with_reducible apply safeShell_foot | with_reducible apply coldStart_foot | with_reducible apply Foot.ite | (with_reducible refine Foot.foldl ?_ (fun _ _ _ => ?_)) | split)

theorem applyReset_foot {m : Nat} {z : State} (s : State) (v : Byte) (r : StartReport) (hm : 0xFFFFFFFFF ||| m = m) (h0 : Foot m z s) :
    Foot m z (applyReset s v r).2 := by
  unfold applyReset
  try dsimp only
  repeat' (first | with_reducible assumption | exact Foot.sub (by decide) hm | with_reducible apply safeShell_foot | with_reducible apply startNow_foot | with_reducible apply coldCommand_foot | with_reducible apply Foot.ite | (with_reducible refine Foot.foldl ?_ (fun _ _ _ => ?_)) | split)

theorem execPowerOn_foot {m : Nat} {z : State} (r : StartReport) (s : State) (hm : 0xFFFFFFFFF ||| m = m) (h0 : Foot m z s) :
    ∃ u, execPowerOn r s = .next u ∧ Foot m z u := by
  unfold execPowerOn
  try dsimp only
  repeat' (first | (with_reducible refine ⟨_, rfl, ?_⟩) | with_reducible assumption | exact Foot.sub (by decide) hm | with_reducible apply takeMark_foot | with_reducible apply assertReset_foot | with_reducible apply coldStart_foot | with_reducible apply Foot.ite | (with_reducible refine Foot.foldl ?_ (fun _ _ _ => ?_)) | split)

theorem execWatchdogExpiry_foot {m : Nat} {z : State} (r : StartReport) (s : State) (hm : 0xFFFFFFFFF ||| m = m) (h0 : Foot m z s) :
    ∃ u, execWatchdogExpiry r s = .next u ∧ Foot m z u := by
  unfold execWatchdogExpiry
  try dsimp only
  repeat' (first | (with_reducible refine ⟨_, rfl, ?_⟩) | with_reducible assumption | exact Foot.sub (by decide) hm | with_reducible apply takeMark_foot | with_reducible apply startNow_foot | with_reducible apply Foot.ite | (with_reducible refine Foot.foldl ?_ (fun _ _ _ => ?_)) | split)

theorem execRstNLow_foot {m : Nat} {z : State} (s : State) (hm : 0xEECA00BF5 ||| m = m) (h0 : Foot m z s) :
    ∃ u, execRstNLow s = .next u ∧ Foot m z u := by
  unfold execRstNLow
  try dsimp only
  repeat' (first | (with_reducible refine ⟨_, rfl, ?_⟩) | with_reducible assumption | exact Foot.sub (by decide) hm | with_reducible apply takeMark_foot | with_reducible apply setStart_foot | with_reducible apply holdReset_foot | with_reducible apply Foot.ite | (with_reducible refine Foot.foldl ?_ (fun _ _ _ => ?_)) | split)

theorem execRstNRise_foot {m : Nat} {z : State} (r : StartReport) (s : State) (hm : 0xFFFFFFFFF ||| m = m) (h0 : Foot m z s) :
    ∃ u, execRstNRise r s = .next u ∧ Foot m z u := by
  unfold execRstNRise
  try dsimp only
  repeat' (first | (with_reducible refine ⟨_, rfl, ?_⟩) | with_reducible assumption | exact Foot.sub (by decide) hm | with_reducible apply takeMark_foot | with_reducible apply setStart_foot | with_reducible apply releaseHeld_foot | with_reducible apply Foot.ite | (with_reducible refine Foot.foldl ?_ (fun _ _ _ => ?_)) | split)

theorem execColdStartTimeout_foot {m : Nat} {z : State} (step : Fin 10) (s : State) (hm : 0xA68000803 ||| m = m) (h0 : Foot m z s) :
    ∃ u, execColdStartTimeout step s = .next u ∧ Foot m z u := by
  unfold execColdStartTimeout
  try dsimp only
  repeat' (first | (with_reducible refine ⟨_, rfl, ?_⟩) | with_reducible assumption | exact Foot.sub (by decide) hm | with_reducible apply takeMark_foot | with_reducible apply failStart_foot | with_reducible apply Foot.ite | (with_reducible refine Foot.foldl ?_ (fun _ _ _ => ?_)) | (fail_if_no_progress (with_reducible refine Foot.up_time ?_ (Foot.sub (by decide) hm))) | split)

theorem execColdStartRetry_foot {m : Nat} {z : State} (r : StartReport) (s : State) (hm : 0xFFFFFFFFF ||| m = m) (h0 : Foot m z s) :
    ∃ u, execColdStartRetry r s = .next u ∧ Foot m z u := by
  unfold execColdStartRetry
  try dsimp only
  repeat' (first | (with_reducible refine ⟨_, rfl, ?_⟩) | with_reducible assumption | exact Foot.sub (by decide) hm | with_reducible apply takeMark_foot | with_reducible apply coldStart_foot | with_reducible apply Foot.ite | (with_reducible refine Foot.foldl ?_ (fun _ _ _ => ?_)) | (fail_if_no_progress (with_reducible refine Foot.up_time ?_ (Foot.sub (by decide) hm))) | split)

end Sys2Proof.Machine
end

