-- ==== Sys2Proof/Laws/FootSupplies.lean ====
section
/-! SUPPORT. Which components of the state each operation of Machine/Supplies.lean can change. -/

set_option linter.unusedTactic false
set_option linter.unusedVariables false
set_option linter.unreachableTactic false

namespace Sys2Proof.Machine

theorem setSup_foot {m : Nat} {z : State} (s : State) (f : Supplies → Supplies) (hm : 0x100000000 ||| m = m) (h0 : Foot m z s) :
    Foot m z (setSup s f) := by
  unfold setSup
  try dsimp only
  repeat' (first | with_reducible assumption | exact Foot.sub (by decide) hm | with_reducible apply Foot.ite | (with_reducible refine Foot.foldl ?_ (fun _ _ _ => ?_)) | (fail_if_no_progress (with_reducible refine Foot.up_sup ?_ (Foot.sub (by decide) hm))) | split)

theorem setVcore_foot {m : Nat} {z : State} (s : State) (v : VcoreSt) (hm : 0x900000000 ||| m = m) (h0 : Foot m z s) :
    Foot m z (setVcore s v) := by
  unfold setVcore
  try dsimp only
  repeat' (first | with_reducible assumption | exact Foot.sub (by decide) hm | with_reducible apply logEvent_foot | with_reducible apply setSup_foot | with_reducible apply Foot.ite | (with_reducible refine Foot.foldl ?_ (fun _ _ _ => ?_)) | split)

theorem execVcoreWarning_foot {m : Nat} {z : State} (s : State) (hm : 0x9ACB5EBF5 ||| m = m) (h0 : Foot m z s) :
    ∃ u, execVcoreWarning s = .next u ∧ Foot m z u := by
  unfold execVcoreWarning
  try dsimp only
  repeat' (first | (with_reducible refine ⟨_, rfl, ?_⟩) | with_reducible assumption | exact Foot.sub (by decide) hm | with_reducible apply tideFault_foot | with_reducible apply emergency_foot | with_reducible apply takeMark_foot | with_reducible apply recompute_foot | with_reducible apply setSup_foot | with_reducible apply setVcore_foot | with_reducible apply Foot.ite | (with_reducible refine Foot.foldl ?_ (fun _ _ _ => ?_)) | split)

theorem execVcoreWarningHoldExpiry_foot {m : Nat} {z : State} (s : State) (hm : 0x918000000 ||| m = m) (h0 : Foot m z s) :
    ∃ u, execVcoreWarningHoldExpiry s = .next u ∧ Foot m z u := by
  unfold execVcoreWarningHoldExpiry
  try dsimp only
  repeat' (first | (with_reducible refine ⟨_, rfl, ?_⟩) | with_reducible assumption | exact Foot.sub (by decide) hm | with_reducible apply fabEdge_foot | with_reducible apply setVcore_foot | with_reducible apply Foot.ite | (with_reducible refine Foot.foldl ?_ (fun _ _ _ => ?_)) | (fail_if_no_progress (with_reducible refine Foot.up_field ?_ (Foot.sub (by decide) hm))) | split)

theorem execVcoreRecovery_foot {m : Nat} {z : State} (r : StartReport) (s : State) (hm : 0xFFFFFFFFF ||| m = m) (h0 : Foot m z s) :
    ∃ u, execVcoreRecovery r s = .next u ∧ Foot m z u := by
  unfold execVcoreRecovery
  try dsimp only
  repeat' (first | (with_reducible refine ⟨_, rfl, ?_⟩) | with_reducible assumption | exact Foot.sub (by decide) hm | with_reducible apply errorReset_foot | with_reducible apply fabEdge_foot | with_reducible apply takeMark_foot | with_reducible apply kickAll_foot | with_reducible apply tryReexecAll_foot | with_reducible apply releaseHeld_foot | with_reducible apply setSup_foot | with_reducible apply setVcore_foot | with_reducible apply Foot.ite | (with_reducible refine Foot.foldl ?_ (fun _ _ _ => ?_)) | (fail_if_no_progress (with_reducible refine Foot.up_field ?_ (Foot.sub (by decide) hm))) | split)

theorem execVcoreResetLevel_foot {m : Nat} {z : State} (s : State) (hm : 0xFECA00BF4 ||| m = m) (h0 : Foot m z s) :
    ∃ u, execVcoreResetLevel s = .next u ∧ Foot m z u := by
  unfold execVcoreResetLevel
  try dsimp only
  repeat' (first | (with_reducible refine ⟨_, rfl, ?_⟩) | with_reducible assumption | exact Foot.sub (by decide) hm | with_reducible apply holdReset_foot | with_reducible apply setSup_foot | with_reducible apply Foot.ite | (with_reducible refine Foot.foldl ?_ (fun _ _ _ => ?_)) | split)

theorem execPowerFailWarning_foot {m : Nat} {z : State} (vmem : Bool) (s : State) (hm : 0x920000800 ||| m = m) (h0 : Foot m z s) :
    ∃ u, execPowerFailWarning vmem s = .next u ∧ Foot m z u := by
  unfold execPowerFailWarning
  try dsimp only
  repeat' (first | (with_reducible refine ⟨_, rfl, ?_⟩) | with_reducible assumption | exact Foot.sub (by decide) hm | with_reducible apply logEvent_foot | with_reducible apply emergency_foot | with_reducible apply persistMarks_foot | with_reducible apply setSup_foot | with_reducible apply Foot.ite | (with_reducible refine Foot.foldl ?_ (fun _ _ _ => ?_)) | split)

theorem execPowerFailWarningEnd_foot {m : Nat} {z : State} (s : State) (hm : 0x900000000 ||| m = m) (h0 : Foot m z s) :
    ∃ u, execPowerFailWarningEnd s = .next u ∧ Foot m z u := by
  unfold execPowerFailWarningEnd
  try dsimp only
  repeat' (first | (with_reducible refine ⟨_, rfl, ?_⟩) | with_reducible assumption | exact Foot.sub (by decide) hm | with_reducible apply logEvent_foot | with_reducible apply setSup_foot | with_reducible apply Foot.ite | (with_reducible refine Foot.foldl ?_ (fun _ _ _ => ?_)) | split)

theorem execVmemAction_foot {m : Nat} {z : State} (s : State) (hm : 0xFECA00BF4 ||| m = m) (h0 : Foot m z s) :
    ∃ u, execVmemAction s = .next u ∧ Foot m z u := by
  unfold execVmemAction
  try dsimp only
  repeat' (first | (with_reducible refine ⟨_, rfl, ?_⟩) | with_reducible assumption | exact Foot.sub (by decide) hm | with_reducible apply holdReset_foot | with_reducible apply setSup_foot | with_reducible apply Foot.ite | (with_reducible refine Foot.foldl ?_ (fun _ _ _ => ?_)) | split)

theorem execVmemRecovery_foot {m : Nat} {z : State} (r : StartReport) (s : State) (hm : 0xFFFFFFFFF ||| m = m) (h0 : Foot m z s) :
    ∃ u, execVmemRecovery r s = .next u ∧ Foot m z u := by
  unfold execVmemRecovery
  try dsimp only
  repeat' (first | (with_reducible refine ⟨_, rfl, ?_⟩) | with_reducible assumption | exact Foot.sub (by decide) hm | with_reducible apply takeMark_foot | with_reducible apply releaseHeld_foot | with_reducible apply setSup_foot | with_reducible apply Foot.ite | (with_reducible refine Foot.foldl ?_ (fun _ _ _ => ?_)) | split)

theorem execVioAction_foot {m : Nat} {z : State} (rail : Fin 2) (s : State) (hm : 0xFECA00BF4 ||| m = m) (h0 : Foot m z s) :
    ∃ u, execVioAction rail s = .next u ∧ Foot m z u := by
  unfold execVioAction
  try dsimp only
  repeat' (first | (with_reducible refine ⟨_, rfl, ?_⟩) | with_reducible assumption | exact Foot.sub (by decide) hm | with_reducible apply holdReset_foot | with_reducible apply setSup_foot | with_reducible apply Foot.ite | (with_reducible refine Foot.foldl ?_ (fun _ _ _ => ?_)) | split)

theorem execVioRecovery_foot {m : Nat} {z : State} (rail : Fin 2) (r : StartReport) (s : State) (hm : 0xFFFFFFFFF ||| m = m) (h0 : Foot m z s) :
    ∃ u, execVioRecovery rail r s = .next u ∧ Foot m z u := by
  unfold execVioRecovery
  try dsimp only
  repeat' (first | (with_reducible refine ⟨_, rfl, ?_⟩) | with_reducible assumption | exact Foot.sub (by decide) hm | with_reducible apply takeMark_foot | with_reducible apply releaseHeld_foot | with_reducible apply setSup_foot | with_reducible apply Foot.ite | (with_reducible refine Foot.foldl ?_ (fun _ _ _ => ?_)) | split)

theorem execVserAction_foot {m : Nat} {z : State} (s : State) (hm : 0x88CB5EBF5 ||| m = m) (h0 : Foot m z s) :
    ∃ u, execVserAction s = .next u ∧ Foot m z u := by
  unfold execVserAction
  try dsimp only
  repeat' (first | (with_reducible refine ⟨_, rfl, ?_⟩) | with_reducible assumption | exact Foot.sub (by decide) hm | with_reducible apply takeMark_foot | with_reducible apply allLinksLost_foot | with_reducible apply Foot.ite | (with_reducible refine Foot.foldl ?_ (fun _ _ _ => ?_)) | split)

theorem setFeed_foot {m : Nat} {z : State} (s : State) (f : Fin 2) (v : Bool) (hm : 0x100000000 ||| m = m) (h0 : Foot m z s) :
    Foot m z (setFeed s f v) := by
  unfold setFeed
  try dsimp only
  repeat' (first | with_reducible assumption | exact Foot.sub (by decide) hm | with_reducible apply setSup_foot | with_reducible apply Foot.ite | (with_reducible refine Foot.foldl ?_ (fun _ _ _ => ?_)) | split)

theorem execFieldFeedLost_foot {m : Nat} {z : State} (f : Fin 2) (s : State) (hm : 0x138000800 ||| m = m) (h0 : Foot m z s) :
    ∃ u, execFieldFeedLost f s = .next u ∧ Foot m z u := by
  unfold execFieldFeedLost
  try dsimp only
  repeat' (first | (with_reducible refine ⟨_, rfl, ?_⟩) | with_reducible assumption | exact Foot.sub (by decide) hm | with_reducible apply emergency_foot | with_reducible apply fabEdge_foot | with_reducible apply setFeed_foot | with_reducible apply Foot.ite | (with_reducible refine Foot.foldl ?_ (fun _ _ _ => ?_)) | (fail_if_no_progress (with_reducible refine Foot.up_field ?_ (Foot.sub (by decide) hm))) | split)

theorem execFieldFeedRecovery_foot {m : Nat} {z : State} (f : Fin 2) (s : State) (hm : 0x138000800 ||| m = m) (h0 : Foot m z s) :
    ∃ u, execFieldFeedRecovery f s = .next u ∧ Foot m z u := by
  unfold execFieldFeedRecovery
  try dsimp only
  repeat' (first | (with_reducible refine ⟨_, rfl, ?_⟩) | with_reducible assumption | exact Foot.sub (by decide) hm | with_reducible apply errorReset_foot | with_reducible apply fabEdge_foot | with_reducible apply setFeed_foot | with_reducible apply Foot.ite | (with_reducible refine Foot.foldl ?_ (fun _ _ _ => ?_)) | (fail_if_no_progress (with_reducible refine Foot.up_field ?_ (Foot.sub (by decide) hm))) | split)

end Sys2Proof.Machine
end

