-- ==== Sys2Proof/Laws/FootObserve.lean ====
section
/-! SUPPORT. Which components of the state each operation of Machine/Observe.lean can change. -/

set_option linter.unusedTactic false
set_option linter.unusedVariables false
set_option linter.unreachableTactic false

namespace Sys2Proof.Machine

theorem execTideInEdge_foot {m : Nat} {z : State} (s : State) (hm : 0x808000001 ||| m = m) (h0 : Foot m z s) :
    ∃ u, execTideInEdge s = .next u ∧ Foot m z u := by
  unfold execTideInEdge
  try dsimp only
  repeat' (first | (with_reducible refine ⟨_, rfl, ?_⟩) | with_reducible assumption | exact Foot.sub (by decide) hm | with_reducible apply markDue_foot | with_reducible apply takeMark_foot | with_reducible apply Foot.ite | (with_reducible refine Foot.foldl ?_ (fun _ _ _ => ?_)) | split)

theorem applyTideCmd_foot {m : Nat} {z : State} (s : State) (v : Byte) (hm : 0x800000000 ||| m = m) (h0 : Foot m z s) :
    Foot m z (applyTideCmd s v).2 := by
  unfold applyTideCmd
  try dsimp only
  repeat' (first | with_reducible assumption | exact Foot.sub (by decide) hm | with_reducible apply markDue_foot | with_reducible apply Foot.ite | (with_reducible refine Foot.foldl ?_ (fun _ _ _ => ?_)) | split)

theorem execSnapshotLatchEnd_foot {m : Nat} {z : State} (s : State) (hm : 0x800000000 ||| m = m) (h0 : Foot m z s) :
    ∃ u, execSnapshotLatchEnd s = .next u ∧ Foot m z u := by
  unfold execSnapshotLatchEnd
  try dsimp only
  repeat' (first | (with_reducible refine ⟨_, rfl, ?_⟩) | with_reducible assumption | exact Foot.sub (by decide) hm | with_reducible apply Foot.ite | (with_reducible refine Foot.foldl ?_ (fun _ _ _ => ?_)) | (fail_if_no_progress (with_reducible refine Foot.up_obs ?_ (Foot.sub (by decide) hm))) | split)

theorem execTideOutEnd_foot {m : Nat} {z : State} (s : State) (hm : 0x800000000 ||| m = m) (h0 : Foot m z s) :
    ∃ u, execTideOutEnd s = .next u ∧ Foot m z u := by
  unfold execTideOutEnd
  try dsimp only
  repeat' (first | (with_reducible refine ⟨_, rfl, ?_⟩) | with_reducible assumption | exact Foot.sub (by decide) hm | with_reducible apply Foot.ite | (with_reducible refine Foot.foldl ?_ (fun _ _ _ => ?_)) | (fail_if_no_progress (with_reducible refine Foot.up_obs ?_ (Foot.sub (by decide) hm))) | split)

theorem loadTap_foot {m : Nat} {z : State} (s : State) (i : TapInstr) (drives : Bool) (hm : 0x800000000 ||| m = m) (h0 : Foot m z s) :
    Foot m z (loadTap s i drives) := by
  unfold loadTap
  try dsimp only
  repeat' (first | with_reducible assumption | exact Foot.sub (by decide) hm | with_reducible apply Foot.ite | (with_reducible refine Foot.foldl ?_ (fun _ _ _ => ?_)) | (fail_if_no_progress (with_reducible refine Foot.up_obs ?_ (Foot.sub (by decide) hm))) | split)

theorem execTapBypass_foot {m : Nat} {z : State} (s : State) (hm : 0x800000000 ||| m = m) (h0 : Foot m z s) :
    ∃ u, execTapBypass s = .next u ∧ Foot m z u := by
  unfold execTapBypass
  try dsimp only
  repeat' (first | (with_reducible refine ⟨_, rfl, ?_⟩) | with_reducible assumption | exact Foot.sub (by decide) hm | with_reducible apply loadTap_foot | with_reducible apply Foot.ite | (with_reducible refine Foot.foldl ?_ (fun _ _ _ => ?_)) | split)

theorem execTapIdcode_foot {m : Nat} {z : State} (s : State) (hm : 0x800000000 ||| m = m) (h0 : Foot m z s) :
    ∃ u, execTapIdcode s = .next u ∧ Foot m z u := by
  unfold execTapIdcode
  try dsimp only
  repeat' (first | (with_reducible refine ⟨_, rfl, ?_⟩) | with_reducible assumption | exact Foot.sub (by decide) hm | with_reducible apply loadTap_foot | with_reducible apply Foot.ite | (with_reducible refine Foot.foldl ?_ (fun _ _ _ => ?_)) | split)

theorem execTapSamplePreload_foot {m : Nat} {z : State} (cells : Bytes) (s : State) (hm : 0x800000000 ||| m = m) (h0 : Foot m z s) :
    ∃ u, execTapSamplePreload cells s = .next u ∧ Foot m z u := by
  unfold execTapSamplePreload
  try dsimp only
  repeat' (first | (with_reducible refine ⟨_, rfl, ?_⟩) | with_reducible assumption | exact Foot.sub (by decide) hm | with_reducible apply loadTap_foot | with_reducible apply Foot.ite | (with_reducible refine Foot.foldl ?_ (fun _ _ _ => ?_)) | (fail_if_no_progress (with_reducible refine Foot.up_obs ?_ (Foot.sub (by decide) hm))) | split)

theorem execTapExtest_foot {m : Nat} {z : State} (s : State) (hm : 0x800000000 ||| m = m) (h0 : Foot m z s) :
    ∃ u, execTapExtest s = .next u ∧ Foot m z u := by
  unfold execTapExtest
  try dsimp only
  repeat' (first | (with_reducible refine ⟨_, rfl, ?_⟩) | with_reducible assumption | exact Foot.sub (by decide) hm | with_reducible apply loadTap_foot | with_reducible apply Foot.ite | (with_reducible refine Foot.foldl ?_ (fun _ _ _ => ?_)) | split)

theorem execTapExtestPulse_foot {m : Nat} {z : State} (s : State) (hm : 0x800000000 ||| m = m) (h0 : Foot m z s) :
    ∃ u, execTapExtestPulse s = .next u ∧ Foot m z u := by
  unfold execTapExtestPulse
  try dsimp only
  repeat' (first | (with_reducible refine ⟨_, rfl, ?_⟩) | with_reducible assumption | exact Foot.sub (by decide) hm | with_reducible apply loadTap_foot | with_reducible apply Foot.ite | (with_reducible refine Foot.foldl ?_ (fun _ _ _ => ?_)) | split)

theorem execTapExtestTrain_foot {m : Nat} {z : State} (s : State) (hm : 0x800000000 ||| m = m) (h0 : Foot m z s) :
    ∃ u, execTapExtestTrain s = .next u ∧ Foot m z u := by
  unfold execTapExtestTrain
  try dsimp only
  repeat' (first | (with_reducible refine ⟨_, rfl, ?_⟩) | with_reducible assumption | exact Foot.sub (by decide) hm | with_reducible apply loadTap_foot | with_reducible apply Foot.ite | (with_reducible refine Foot.foldl ?_ (fun _ _ _ => ?_)) | split)

theorem execTapClamp_foot {m : Nat} {z : State} (s : State) (hm : 0x800000000 ||| m = m) (h0 : Foot m z s) :
    ∃ u, execTapClamp s = .next u ∧ Foot m z u := by
  unfold execTapClamp
  try dsimp only
  repeat' (first | (with_reducible refine ⟨_, rfl, ?_⟩) | with_reducible assumption | exact Foot.sub (by decide) hm | with_reducible apply loadTap_foot | with_reducible apply Foot.ite | (with_reducible refine Foot.foldl ?_ (fun _ _ _ => ?_)) | split)

theorem execTapHighz_foot {m : Nat} {z : State} (s : State) (hm : 0x800000000 ||| m = m) (h0 : Foot m z s) :
    ∃ u, execTapHighz s = .next u ∧ Foot m z u := by
  unfold execTapHighz
  try dsimp only
  repeat' (first | (with_reducible refine ⟨_, rfl, ?_⟩) | with_reducible assumption | exact Foot.sub (by decide) hm | with_reducible apply loadTap_foot | with_reducible apply Foot.ite | (with_reducible refine Foot.foldl ?_ (fun _ _ _ => ?_)) | split)

end Sys2Proof.Machine
end

