-- ==== Sys2Proof/Laws/FootDictionary.lean ====
section
/-! SUPPORT. Which components of the state each operation of Machine/Dictionary.lean can change. -/

set_option linter.unusedTactic false
set_option linter.unusedVariables false
set_option linter.unreachableTactic false

namespace Sys2Proof.Machine

theorem applyRequested_foot {m : Nat} {z : State} (s : State) (k : SesId) (v : Half) (hm : 0x20000000 ||| m = m) (h0 : Foot m z s) :
    Foot m z (applyRequested s k v).2 := by
  unfold applyRequested
  try dsimp only
  repeat' (first | with_reducible assumption | exact Foot.sub (by decide) hm | with_reducible apply setSes_foot | with_reducible apply Foot.ite | (with_reducible refine Foot.foldl ?_ (fun _ _ _ => ?_)) | split)

theorem applyMapEntry_foot {m : Nat} {z : State} (s : State) (k : SesId) (tx : Bool) (p i : Nat) (v : Word) (hm : 0x20000000 ||| m = m) (h0 : Foot m z s) :
    Foot m z (applyMapEntry s k tx p i v).2 := by
  unfold applyMapEntry
  try dsimp only
  repeat' (first | with_reducible assumption | exact Foot.sub (by decide) hm | with_reducible apply modSes_foot | with_reducible apply Foot.ite | (with_reducible refine Foot.foldl ?_ (fun _ _ _ => ?_)) | split)

theorem applyMapCount_foot {m : Nat} {z : State} (s : State) (k : SesId) (tx : Bool) (p : Nat) (v : Byte) (hm : 0x20000000 ||| m = m) (h0 : Foot m z s) :
    Foot m z (applyMapCount s k tx p v).2 := by
  unfold applyMapCount
  try dsimp only
  repeat' (first | with_reducible assumption | exact Foot.sub (by decide) hm | with_reducible apply modSes_foot | with_reducible apply Foot.ite | (with_reducible refine Foot.foldl ?_ (fun _ _ _ => ?_)) | split)

theorem applyAssign_foot {m : Nat} {z : State} (s : State) (k : SesId) (tx : Bool) (i : Nat) (v : Half) (hm : 0x20000000 ||| m = m) (h0 : Foot m z s) :
    Foot m z (applyAssign s k tx i v).2 := by
  unfold applyAssign
  try dsimp only
  repeat' (first | with_reducible assumption | exact Foot.sub (by decide) hm | with_reducible apply modSes_foot | with_reducible apply Foot.ite | (with_reducible refine Foot.foldl ?_ (fun _ _ _ => ?_)) | split)

theorem applyPdoParam_foot {m : Nat} {z : State} (s : State) (k : SesId) (tx : Bool) (p sub : Nat) (v : Nat) (hm : 0x20000000 ||| m = m) (h0 : Foot m z s) :
    Foot m z (applyPdoParam s k tx p sub v).2 := by
  unfold applyPdoParam
  try dsimp only
  repeat' (first | with_reducible assumption | exact Foot.sub (by decide) hm | with_reducible apply modSes_foot | with_reducible apply Foot.ite | (with_reducible refine Foot.foldl ?_ (fun _ _ _ => ?_)) | split)

theorem applySyncType_foot {m : Nat} {z : State} (s : State) (k : SesId) (v : Half) (hm : 0x40000000 ||| m = m) (h0 : Foot m z s) :
    Foot m z (applySyncType s k v).2 := by
  unfold applySyncType
  try dsimp only
  repeat' (first | with_reducible assumption | exact Foot.sub (by decide) hm | with_reducible apply modEsc_foot | with_reducible apply Foot.ite | (with_reducible refine Foot.foldl ?_ (fun _ _ _ => ?_)) | split)

theorem applyFreq_foot {m : Nat} {z : State} (s : State) (sub v : Nat) (hm : 0x80000000 ||| m = m) (h0 : Foot m z s) :
    Foot m z (applyFreq s sub v).2 := by
  unfold applyFreq
  try dsimp only
  repeat' (first | with_reducible assumption | exact Foot.sub (by decide) hm | with_reducible apply setClk_foot | with_reducible apply Foot.ite | (with_reducible refine Foot.foldl ?_ (fun _ _ _ => ?_)) | split)

theorem applySpread_foot {m : Nat} {z : State} (s : State) (depth : Bool) (sub : Nat) (v : Byte) (hm : 0x80000000 ||| m = m) (h0 : Foot m z s) :
    Foot m z (applySpread s depth sub v).2 := by
  unfold applySpread
  try dsimp only
  repeat' (first | with_reducible assumption | exact Foot.sub (by decide) hm | with_reducible apply setClk_foot | with_reducible apply Foot.ite | (with_reducible refine Foot.foldl ?_ (fun _ _ _ => ?_)) | split)

theorem applyPeriod_foot {m : Nat} {z : State} (s : State) (spare : Bool) (v : Half) (hm : 0x200000 ||| m = m) (h0 : Foot m z s) :
    Foot m z (applyPeriod s spare v).2 := by
  unfold applyPeriod
  try dsimp only
  repeat' (first | with_reducible assumption | exact Foot.sub (by decide) hm | with_reducible apply Foot.ite | (with_reducible refine Foot.foldl ?_ (fun _ _ _ => ?_)) | (fail_if_no_progress (with_reducible refine Foot.up_march ?_ (Foot.sub (by decide) hm))) | split)

theorem applyTideMask_foot {m : Nat} {z : State} (s : State) (out : Bool) (v : Nat) (hm : 0x800000000 ||| m = m) (h0 : Foot m z s) :
    Foot m z (applyTideMask s out v).2 := by
  unfold applyTideMask
  try dsimp only
  repeat' (first | with_reducible assumption | exact Foot.sub (by decide) hm | with_reducible apply Foot.ite | (with_reducible refine Foot.foldl ?_ (fun _ _ _ => ?_)) | (fail_if_no_progress (with_reducible refine Foot.up_obs ?_ (Foot.sub (by decide) hm))) | split)

theorem applyCam_foot {m : Nat} {z : State} (s : State) (c : CxpId) (sub v : Nat) (hm : 0x4000000 ||| m = m) (h0 : Foot m z s) :
    Foot m z (applyCam s c sub v).2 := by
  unfold applyCam
  try dsimp only
  repeat' (first | with_reducible assumption | exact Foot.sub (by decide) hm | with_reducible apply modCam_foot | with_reducible apply Foot.ite | (with_reducible refine Foot.foldl ?_ (fun _ _ _ => ?_)) | split)

theorem applyMaxSpeed_foot {m : Nat} {z : State} (s : State) (v : Byte) (hm : 0x2000000 ||| m = m) (h0 : Foot m z s) :
    Foot m z (applyMaxSpeed s v).2 := by
  unfold applyMaxSpeed
  try dsimp only
  repeat' (first | with_reducible assumption | exact Foot.sub (by decide) hm | with_reducible apply Foot.ite | (with_reducible refine Foot.foldl ?_ (fun _ _ _ => ?_)) | (fail_if_no_progress (with_reducible refine Foot.up_maxSpeed ?_ (Foot.sub (by decide) hm))) | split)

theorem applyFc_foot {m : Nat} {z : State} (s : State) (n sub v : Nat) (hm : 0x10000000 ||| m = m) (h0 : Foot m z s) :
    Foot m z (applyFc s n sub v).2 := by
  unfold applyFc
  try dsimp only
  repeat' (first | with_reducible assumption | exact Foot.sub (by decide) hm | with_reducible apply modFch_foot | with_reducible apply Foot.ite | (with_reducible refine Foot.foldl ?_ (fun _ _ _ => ?_)) | split)

theorem applyCursor_foot {m : Nat} {z : State} (s : State) (k : SesId) (v : Word) (hm : 0x20000000 ||| m = m) (h0 : Foot m z s) :
    Foot m z (applyCursor s k v).2 := by
  unfold applyCursor
  try dsimp only
  repeat' (first | with_reducible assumption | exact Foot.sub (by decide) hm | with_reducible apply modSes_foot | with_reducible apply Foot.ite | (with_reducible refine Foot.foldl ?_ (fun _ _ _ => ?_)) | split)

theorem applyErrorCount_foot {m : Nat} {z : State} (s : State) (k : SesId) (v : Byte) (hm : 0x20000000 ||| m = m) (h0 : Foot m z s) :
    Foot m z (applyErrorCount s k v).2 := by
  unfold applyErrorCount
  try dsimp only
  repeat' (first | with_reducible assumption | exact Foot.sub (by decide) hm | with_reducible apply modSes_foot | with_reducible apply Foot.ite | (with_reducible refine Foot.foldl ?_ (fun _ _ _ => ?_)) | split)

theorem objWrite_foot {m : Nat} {z : State} (s : State) (k : SesId) (index sub : Nat) (d : Bytes) (hm : 0xFFFFFFFFF ||| m = m) (h0 : Foot m z s) :
    Foot m z (objWrite s k index sub d).2 := by
  unfold objWrite
  try dsimp only
  repeat' (first | with_reducible assumption | exact Foot.sub (by decide) hm | with_reducible apply applySubmit_foot | with_reducible apply applyRetireTo_foot | with_reducible apply applyAbort_foot | with_reducible apply applyRelease_foot | with_reducible apply applyGrouping_foot | with_reducible apply applyCamReg_foot | with_reducible apply applyLoad_foot | with_reducible apply applyCapture_foot | with_reducible apply applyProbeSel_foot | with_reducible apply applyFilter_foot | with_reducible apply applyMode_foot | with_reducible apply applySafe_foot | with_reducible apply applySource_foot | with_reducible apply applyDoutImage_foot | with_reducible apply applyDiagClear_foot | with_reducible apply applySpsEnable_foot | with_reducible apply applyGroupClear_foot | with_reducible apply applyNonce_foot | with_reducible apply applyKeyRecord_foot | with_reducible apply applyFirmware_foot | with_reducible apply applyPatch_foot | with_reducible apply applyOwnership_foot | with_reducible apply applyMarchEnable_foot | with_reducible apply applyDtestTarget_foot | with_reducible apply applyCeiling_foot | with_reducible apply applyIdle_foot | with_reducible apply applyRampDwell_foot | with_reducible apply applyIdleHold_foot | with_reducible apply applyDeepSleep_foot | with_reducible apply applyRefSelect_foot | with_reducible apply applyGateRun_foot | with_reducible apply applyGateSleep_foot | with_reducible apply applyGateDeep_foot | with_reducible apply applyReset_foot | with_reducible apply applyTideCmd_foot | with_reducible apply applyRequested_foot | with_reducible apply applyMapEntry_foot | with_reducible apply applyMapCount_foot | with_reducible apply applyAssign_foot | with_reducible apply applyPdoParam_foot | with_reducible apply applySyncType_foot | with_reducible apply applyFreq_foot | with_reducible apply applySpread_foot | with_reducible apply applyPeriod_foot | with_reducible apply applyTideMask_foot | with_reducible apply applyCam_foot | with_reducible apply applyMaxSpeed_foot | with_reducible apply applyFc_foot | with_reducible apply applyCursor_foot | with_reducible apply applyErrorCount_foot | with_reducible apply Foot.ite | (with_reducible refine Foot.foldl ?_ (fun _ _ _ => ?_)) | (fail_if_no_progress (with_reducible refine Foot.up_fab ?_ (Foot.sub (by decide) hm))) | split)

theorem endWrite_foot {m : Nat} {z : State} (r : Answer) (k : SesId) (index sub : Nat) (hm : 0xCA8000001 ||| m = m) (g0 : Foot m z r.2) :
    Foot m z (endWrite r k index sub) := by
  unfold endWrite
  try dsimp only
  repeat' (first | with_reducible assumption | exact Foot.sub (by decide) hm | with_reducible apply modSes_foot | with_reducible apply takeMark_foot | with_reducible apply answer_foot | with_reducible apply measure_foot | with_reducible apply cancelSleep_foot | with_reducible apply Foot.ite | (with_reducible refine Foot.foldl ?_ (fun _ _ _ => ?_)) | split)

theorem writeBy_foot {m : Nat} {z : State} (run : State → Answer) (s : State) (k : SesId) (index sub : Nat) (n : Nat) (hm : 0xCA8000001 ||| m = m) (h0 : Foot m z s)(hs : ∀ u, Foot m z u → Foot m z (run u).2) :
    Foot m z (writeBy run s k index sub n) := by
  unfold writeBy
  try dsimp only
  repeat' (first | with_reducible assumption | exact Foot.sub (by decide) hm | with_reducible apply answer_foot | with_reducible apply endWrite_foot | with_reducible apply Foot.ite | (with_reducible refine Foot.foldl ?_ (fun _ _ _ => ?_)) | with_reducible apply hs | split)

theorem hostWrite_foot {m : Nat} {z : State} (s : State) (k : SesId) (index sub : Nat) (d : Bytes) (hm : 0xFFFFFFFFF ||| m = m) (h0 : Foot m z s) :
    Foot m z (hostWrite s k index sub d) := by
  unfold hostWrite
  try dsimp only
  repeat' (first | with_reducible assumption | exact Foot.sub (by decide) hm | with_reducible apply answer_foot | with_reducible apply objWrite_foot | with_reducible apply writeBy_foot | with_reducible apply Foot.ite | (with_reducible refine Foot.foldl ?_ (fun _ _ _ => ?_)) | intro _ | split)

theorem objRead_foot {m : Nat} {z : State} (s : State) (k : SesId) (index sub : Nat) (hm : 0x2C000000 ||| m = m) (h0 : Foot m z s) :
    Foot m z (objRead s k index sub).2.2 := by
  unfold objRead
  dsimp only
  split
  · exact h0
  split
  · split
    · dsimp only; exact modSes_foot _ _ _ (Foot.sub (by decide) hm) h0
    · exact h0
  split
  · split
    · exact h0
    · dsimp only; exact Foot.up_fab h0 (Foot.sub (by decide) hm)
  split
  · split
    · dsimp only; exact readCamReg_foot _ _ (Foot.sub (by decide) hm) h0 _ (by assumption)
    · exact h0
  split <;> exact h0

theorem hostRead_foot {m : Nat} {z : State} (s : State) (k : SesId) (index sub : Nat) (hm : 0x2C000000 ||| m = m) (h0 : Foot m z s) :
    Foot m z (hostRead s k index sub) := by
  unfold hostRead
  try dsimp only
  repeat' (first | with_reducible assumption | exact Foot.sub (by decide) hm | with_reducible apply answer_foot | with_reducible apply objRead_foot | with_reducible apply Foot.ite | (with_reducible refine Foot.foldl ?_ (fun _ _ _ => ?_)) | split)

theorem dropXfer_foot {m : Nat} {z : State} (s : State) (k : SesId) (hm : 0x20000000 ||| m = m) (h0 : Foot m z s) :
    Foot m z (dropXfer s k) := by
  unfold dropXfer
  try dsimp only
  repeat' (first | with_reducible assumption | exact Foot.sub (by decide) hm | with_reducible apply modSes_foot | with_reducible apply Foot.ite | (with_reducible refine Foot.foldl ?_ (fun _ _ _ => ?_)) | split)

theorem segment_foot {m : Nat} {z : State} (s : State) (k : SesId) (index sub : Nat) (size : Option Nat) (d : Bytes) (last : Bool) (hm : 0xFFFFFFFFF ||| m = m) (h0 : Foot m z s) :
    Foot m z (segment s k index sub size d last) := by
  unfold segment
  try dsimp only
  repeat' (first | with_reducible assumption | exact Foot.sub (by decide) hm | with_reducible apply modSes_foot | with_reducible apply answer_foot | with_reducible apply objWrite_foot | with_reducible apply writeBy_foot | with_reducible apply dropXfer_foot | with_reducible apply Foot.ite | (with_reducible refine Foot.foldl ?_ (fun _ _ _ => ?_)) | intro _ | split)

theorem sendEmergency_foot {m : Nat} {z : State} (s : State) (k : SesId) (hm : 0x60000000 ||| m = m) (h0 : Foot m z s) :
    Foot m z (sendEmergency s k) := by
  unfold sendEmergency
  try dsimp only
  repeat' (first | with_reducible assumption | exact Foot.sub (by decide) hm | with_reducible apply modSes_foot | with_reducible apply modCan_foot | with_reducible apply Foot.ite | (with_reducible refine Foot.foldl ?_ (fun _ _ _ => ?_)) | split)

end Sys2Proof.Machine
end

