-- ==== Sys2Proof/Laws/FootHostRows.lean ====
section
/-! SUPPORT. Which components of the state each operation of Machine/HostRows.lean can change. -/

set_option linter.unusedTactic false
set_option linter.unusedVariables false
set_option linter.unreachableTactic false

namespace Sys2Proof.Machine

theorem execPatchBundle_foot {m : Nat} {z : State} (k : SesId) (d : Bytes) (s : State) (hm : 0xFFFFFFFFF ||| m = m) (h0 : Foot m z s) :
    ∃ u, execPatchBundle k d s = .next u ∧ Foot m z u := by
  unfold execPatchBundle
  try dsimp only
  repeat' (first | (with_reducible refine ⟨_, rfl, ?_⟩) | with_reducible assumption | exact Foot.sub (by decide) hm | with_reducible apply hostWrite_foot | with_reducible apply Foot.ite | (with_reducible refine Foot.foldl ?_ (fun _ _ _ => ?_)) | split)

theorem execSubmit_foot {m : Nat} {z : State} (k : SesId) (t : Tenant) (d : Bytes) (s : State) (hm : 0xFFFFFFFFF ||| m = m) (h0 : Foot m z s) :
    ∃ u, execSubmit k t d s = .next u ∧ Foot m z u := by
  unfold execSubmit
  try dsimp only
  repeat' (first | (with_reducible refine ⟨_, rfl, ?_⟩) | with_reducible assumption | exact Foot.sub (by decide) hm | with_reducible apply hostWrite_foot | with_reducible apply Foot.ite | (with_reducible refine Foot.foldl ?_ (fun _ _ _ => ?_)) | split)

theorem execRetireTo_foot {m : Nat} {z : State} (k : SesId) (t : Tenant) (v : Word) (s : State) (hm : 0xFFFFFFFFF ||| m = m) (h0 : Foot m z s) :
    ∃ u, execRetireTo k t v s = .next u ∧ Foot m z u := by
  unfold execRetireTo
  try dsimp only
  repeat' (first | (with_reducible refine ⟨_, rfl, ?_⟩) | with_reducible assumption | exact Foot.sub (by decide) hm | with_reducible apply hostWrite_foot | with_reducible apply Foot.ite | (with_reducible refine Foot.foldl ?_ (fun _ _ _ => ?_)) | split)

theorem execAbort_foot {m : Nat} {z : State} (k : SesId) (t : Tenant) (v : Byte) (s : State) (hm : 0xFFFFFFFFF ||| m = m) (h0 : Foot m z s) :
    ∃ u, execAbort k t v s = .next u ∧ Foot m z u := by
  unfold execAbort
  try dsimp only
  repeat' (first | (with_reducible refine ⟨_, rfl, ?_⟩) | with_reducible assumption | exact Foot.sub (by decide) hm | with_reducible apply hostWrite_foot | with_reducible apply Foot.ite | (with_reducible refine Foot.foldl ?_ (fun _ _ _ => ?_)) | split)

theorem execRelease_foot {m : Nat} {z : State} (k : SesId) (t : Tenant) (v : Byte) (s : State) (hm : 0xFFFFFFFFF ||| m = m) (h0 : Foot m z s) :
    ∃ u, execRelease k t v s = .next u ∧ Foot m z u := by
  unfold execRelease
  try dsimp only
  repeat' (first | (with_reducible refine ⟨_, rfl, ?_⟩) | with_reducible assumption | exact Foot.sub (by decide) hm | with_reducible apply hostWrite_foot | with_reducible apply Foot.ite | (with_reducible refine Foot.foldl ?_ (fun _ _ _ => ?_)) | split)

theorem execOwnership_foot {m : Nat} {z : State} (k : SesId) (t : Tenant) (d : Bytes) (s : State) (hm : 0xFFFFFFFFF ||| m = m) (h0 : Foot m z s) :
    ∃ u, execOwnership k t d s = .next u ∧ Foot m z u := by
  unfold execOwnership
  try dsimp only
  repeat' (first | (with_reducible refine ⟨_, rfl, ?_⟩) | with_reducible assumption | exact Foot.sub (by decide) hm | with_reducible apply hostWrite_foot | with_reducible apply Foot.ite | (with_reducible refine Foot.foldl ?_ (fun _ _ _ => ?_)) | split)

theorem execMarchEnable_foot {m : Nat} {z : State} (k : SesId) (v : Byte) (s : State) (hm : 0xFFFFFFFFF ||| m = m) (h0 : Foot m z s) :
    ∃ u, execMarchEnable k v s = .next u ∧ Foot m z u := by
  unfold execMarchEnable
  try dsimp only
  repeat' (first | (with_reducible refine ⟨_, rfl, ?_⟩) | with_reducible assumption | exact Foot.sub (by decide) hm | with_reducible apply hostWrite_foot | with_reducible apply Foot.ite | (with_reducible refine Foot.foldl ?_ (fun _ _ _ => ?_)) | split)

theorem execDtestTarget_foot {m : Nat} {z : State} (k : SesId) (v : Half) (s : State) (hm : 0xFFFFFFFFF ||| m = m) (h0 : Foot m z s) :
    ∃ u, execDtestTarget k v s = .next u ∧ Foot m z u := by
  unfold execDtestTarget
  try dsimp only
  repeat' (first | (with_reducible refine ⟨_, rfl, ?_⟩) | with_reducible assumption | exact Foot.sub (by decide) hm | with_reducible apply hostWrite_foot | with_reducible apply Foot.ite | (with_reducible refine Foot.foldl ?_ (fun _ _ _ => ?_)) | split)

theorem execGrouping_foot {m : Nat} {z : State} (k : SesId) (v : Byte) (s : State) (hm : 0xFFFFFFFFF ||| m = m) (h0 : Foot m z s) :
    ∃ u, execGrouping k v s = .next u ∧ Foot m z u := by
  unfold execGrouping
  try dsimp only
  repeat' (first | (with_reducible refine ⟨_, rfl, ?_⟩) | with_reducible assumption | exact Foot.sub (by decide) hm | with_reducible apply hostWrite_foot | with_reducible apply Foot.ite | (with_reducible refine Foot.foldl ?_ (fun _ _ _ => ?_)) | split)

theorem execCamRegWrite_foot {m : Nat} {z : State} (k : SesId) (c : CxpId) (d : Bytes) (s : State) (hm : 0xFFFFFFFFF ||| m = m) (h0 : Foot m z s) :
    ∃ u, execCamRegWrite k c d s = .next u ∧ Foot m z u := by
  unfold execCamRegWrite
  try dsimp only
  repeat' (first | (with_reducible refine ⟨_, rfl, ?_⟩) | with_reducible assumption | exact Foot.sub (by decide) hm | with_reducible apply hostWrite_foot | with_reducible apply Foot.ite | (with_reducible refine Foot.foldl ?_ (fun _ _ _ => ?_)) | split)

theorem execCamRegRead_foot {m : Nat} {z : State} (k : SesId) (c : CxpId) (s : State) (hm : 0x2C000000 ||| m = m) (h0 : Foot m z s) :
    ∃ u, execCamRegRead k c s = .next u ∧ Foot m z u := by
  unfold execCamRegRead
  try dsimp only
  repeat' (first | (with_reducible refine ⟨_, rfl, ?_⟩) | with_reducible assumption | exact Foot.sub (by decide) hm | with_reducible apply hostRead_foot | with_reducible apply Foot.ite | (with_reducible refine Foot.foldl ?_ (fun _ _ _ => ?_)) | split)

theorem execFullLoad_foot {m : Nat} {z : State} (k : SesId) (d : Bytes) (s : State) (hm : 0xFFFFFFFFF ||| m = m) (h0 : Foot m z s) :
    ∃ u, execFullLoad k d s = .next u ∧ Foot m z u := by
  unfold execFullLoad
  try dsimp only
  repeat' (first | (with_reducible refine ⟨_, rfl, ?_⟩) | with_reducible assumption | exact Foot.sub (by decide) hm | with_reducible apply hostWrite_foot | with_reducible apply Foot.ite | (with_reducible refine Foot.foldl ?_ (fun _ _ _ => ?_)) | split)

theorem execPartialLoad_foot {m : Nat} {z : State} (k : SesId) (d : Bytes) (s : State) (hm : 0xFFFFFFFFF ||| m = m) (h0 : Foot m z s) :
    ∃ u, execPartialLoad k d s = .next u ∧ Foot m z u := by
  unfold execPartialLoad
  try dsimp only
  repeat' (first | (with_reducible refine ⟨_, rfl, ?_⟩) | with_reducible assumption | exact Foot.sub (by decide) hm | with_reducible apply hostWrite_foot | with_reducible apply Foot.ite | (with_reducible refine Foot.foldl ?_ (fun _ _ _ => ?_)) | split)

theorem execCapture_foot {m : Nat} {z : State} (k : SesId) (v : Byte) (s : State) (hm : 0xFFFFFFFFF ||| m = m) (h0 : Foot m z s) :
    ∃ u, execCapture k v s = .next u ∧ Foot m z u := by
  unfold execCapture
  try dsimp only
  repeat' (first | (with_reducible refine ⟨_, rfl, ?_⟩) | with_reducible assumption | exact Foot.sub (by decide) hm | with_reducible apply hostWrite_foot | with_reducible apply Foot.ite | (with_reducible refine Foot.foldl ?_ (fun _ _ _ => ?_)) | split)

theorem execProbeSel_foot {m : Nat} {z : State} (k : SesId) (land : Fin 4) (v : Byte) (s : State) (hm : 0xFFFFFFFFF ||| m = m) (h0 : Foot m z s) :
    ∃ u, execProbeSel k land v s = .next u ∧ Foot m z u := by
  unfold execProbeSel
  try dsimp only
  repeat' (first | (with_reducible refine ⟨_, rfl, ?_⟩) | with_reducible assumption | exact Foot.sub (by decide) hm | with_reducible apply hostWrite_foot | with_reducible apply Foot.ite | (with_reducible refine Foot.foldl ?_ (fun _ _ _ => ?_)) | split)

theorem execMode_foot {m : Nat} {z : State} (k : SesId) (n : FcId) (v : Byte) (s : State) (hm : 0xFFFFFFFFF ||| m = m) (h0 : Foot m z s) :
    ∃ u, execMode k n v s = .next u ∧ Foot m z u := by
  unfold execMode
  try dsimp only
  repeat' (first | (with_reducible refine ⟨_, rfl, ?_⟩) | with_reducible assumption | exact Foot.sub (by decide) hm | with_reducible apply hostWrite_foot | with_reducible apply Foot.ite | (with_reducible refine Foot.foldl ?_ (fun _ _ _ => ?_)) | split)

theorem execSafeState_foot {m : Nat} {z : State} (k : SesId) (n : FcId) (v : Byte) (s : State) (hm : 0xFFFFFFFFF ||| m = m) (h0 : Foot m z s) :
    ∃ u, execSafeState k n v s = .next u ∧ Foot m z u := by
  unfold execSafeState
  try dsimp only
  repeat' (first | (with_reducible refine ⟨_, rfl, ?_⟩) | with_reducible assumption | exact Foot.sub (by decide) hm | with_reducible apply hostWrite_foot | with_reducible apply Foot.ite | (with_reducible refine Foot.foldl ?_ (fun _ _ _ => ?_)) | split)

theorem execFilter_foot {m : Nat} {z : State} (k : SesId) (n : FcId) (v : Byte) (s : State) (hm : 0xFFFFFFFFF ||| m = m) (h0 : Foot m z s) :
    ∃ u, execFilter k n v s = .next u ∧ Foot m z u := by
  unfold execFilter
  try dsimp only
  repeat' (first | (with_reducible refine ⟨_, rfl, ?_⟩) | with_reducible assumption | exact Foot.sub (by decide) hm | with_reducible apply hostWrite_foot | with_reducible apply Foot.ite | (with_reducible refine Foot.foldl ?_ (fun _ _ _ => ?_)) | split)

theorem execDoutImage_foot {m : Nat} {z : State} (k : SesId) (j : Fin 64) (v : Byte) (s : State) (hm : 0xFFFFFFFFF ||| m = m) (h0 : Foot m z s) :
    ∃ u, execDoutImage k j v s = .next u ∧ Foot m z u := by
  unfold execDoutImage
  try dsimp only
  repeat' (first | (with_reducible refine ⟨_, rfl, ?_⟩) | with_reducible assumption | exact Foot.sub (by decide) hm | with_reducible apply hostWrite_foot | with_reducible apply Foot.ite | (with_reducible refine Foot.foldl ?_ (fun _ _ _ => ?_)) | split)

theorem execDiagClear_foot {m : Nat} {z : State} (k : SesId) (n : FcId) (v : Byte) (s : State) (hm : 0xFFFFFFFFF ||| m = m) (h0 : Foot m z s) :
    ∃ u, execDiagClear k n v s = .next u ∧ Foot m z u := by
  unfold execDiagClear
  try dsimp only
  repeat' (first | (with_reducible refine ⟨_, rfl, ?_⟩) | with_reducible assumption | exact Foot.sub (by decide) hm | with_reducible apply hostWrite_foot | with_reducible apply Foot.ite | (with_reducible refine Foot.foldl ?_ (fun _ _ _ => ?_)) | split)

theorem execSpsEnable_foot {m : Nat} {z : State} (k : SesId) (g : GroupId) (v : Byte) (s : State) (hm : 0xFFFFFFFFF ||| m = m) (h0 : Foot m z s) :
    ∃ u, execSpsEnable k g v s = .next u ∧ Foot m z u := by
  unfold execSpsEnable
  try dsimp only
  repeat' (first | (with_reducible refine ⟨_, rfl, ?_⟩) | with_reducible assumption | exact Foot.sub (by decide) hm | with_reducible apply hostWrite_foot | with_reducible apply Foot.ite | (with_reducible refine Foot.foldl ?_ (fun _ _ _ => ?_)) | split)

theorem execGroupClear_foot {m : Nat} {z : State} (k : SesId) (g : GroupId) (v : Byte) (s : State) (hm : 0xFFFFFFFFF ||| m = m) (h0 : Foot m z s) :
    ∃ u, execGroupClear k g v s = .next u ∧ Foot m z u := by
  unfold execGroupClear
  try dsimp only
  repeat' (first | (with_reducible refine ⟨_, rfl, ?_⟩) | with_reducible assumption | exact Foot.sub (by decide) hm | with_reducible apply hostWrite_foot | with_reducible apply Foot.ite | (with_reducible refine Foot.foldl ?_ (fun _ _ _ => ?_)) | split)

theorem execRegisterWrite_foot {m : Nat} {z : State} (k : SesId) (index : Half) (sub : Byte) (d : Bytes) (s : State) (hm : 0xFFFFFFFFF ||| m = m) (h0 : Foot m z s) :
    ∃ u, execRegisterWrite k index sub d s = .next u ∧ Foot m z u := by
  unfold execRegisterWrite
  try dsimp only
  repeat' (first | (with_reducible refine ⟨_, rfl, ?_⟩) | with_reducible assumption | exact Foot.sub (by decide) hm | with_reducible apply hostWrite_foot | with_reducible apply Foot.ite | (with_reducible refine Foot.foldl ?_ (fun _ _ _ => ?_)) | split)

theorem execDomainSegment_foot {m : Nat} {z : State} (k : SesId) (index : Half) (sub : Byte) (size : Option Nat) (d : Bytes) (last : Bool) (s : State) (hm : 0xFFFFFFFFF ||| m = m) (h0 : Foot m z s) :
    ∃ u, execDomainSegment k index sub size d last s = .next u ∧ Foot m z u := by
  unfold execDomainSegment
  try dsimp only
  repeat' (first | (with_reducible refine ⟨_, rfl, ?_⟩) | with_reducible assumption | exact Foot.sub (by decide) hm | with_reducible apply segment_foot | with_reducible apply Foot.ite | (with_reducible refine Foot.foldl ?_ (fun _ _ _ => ?_)) | split)

theorem execSegmentPauseTimeout_foot {m : Nat} {z : State} (k : SesId) (s : State) (hm : 0x20000000 ||| m = m) (h0 : Foot m z s) :
    ∃ u, execSegmentPauseTimeout k s = .next u ∧ Foot m z u := by
  unfold execSegmentPauseTimeout
  try dsimp only
  repeat' (first | (with_reducible refine ⟨_, rfl, ?_⟩) | with_reducible assumption | exact Foot.sub (by decide) hm | with_reducible apply answer_foot | with_reducible apply dropXfer_foot | with_reducible apply Foot.ite | (with_reducible refine Foot.foldl ?_ (fun _ _ _ => ?_)) | split)

theorem execHostSdoAbort_foot {m : Nat} {z : State} (k : SesId) (s : State) (hm : 0x20000000 ||| m = m) (h0 : Foot m z s) :
    ∃ u, execHostSdoAbort k s = .next u ∧ Foot m z u := by
  unfold execHostSdoAbort
  try dsimp only
  repeat' (first | (with_reducible refine ⟨_, rfl, ?_⟩) | with_reducible assumption | exact Foot.sub (by decide) hm | with_reducible apply dropXfer_foot | with_reducible apply Foot.ite | (with_reducible refine Foot.foldl ?_ (fun _ _ _ => ?_)) | split)

theorem execRequested_foot {m : Nat} {z : State} (k : SesId) (v : Half) (s : State) (hm : 0xFFFFFFFFF ||| m = m) (h0 : Foot m z s) :
    ∃ u, execRequested k v s = .next u ∧ Foot m z u := by
  unfold execRequested
  try dsimp only
  repeat' (first | (with_reducible refine ⟨_, rfl, ?_⟩) | with_reducible assumption | exact Foot.sub (by decide) hm | with_reducible apply hostWrite_foot | with_reducible apply Foot.ite | (with_reducible refine Foot.foldl ?_ (fun _ _ _ => ?_)) | split)

theorem execErrorCount_foot {m : Nat} {z : State} (k : SesId) (v : Byte) (s : State) (hm : 0xFFFFFFFFF ||| m = m) (h0 : Foot m z s) :
    ∃ u, execErrorCount k v s = .next u ∧ Foot m z u := by
  unfold execErrorCount
  try dsimp only
  repeat' (first | (with_reducible refine ⟨_, rfl, ?_⟩) | with_reducible assumption | exact Foot.sub (by decide) hm | with_reducible apply hostWrite_foot | with_reducible apply Foot.ite | (with_reducible refine Foot.foldl ?_ (fun _ _ _ => ?_)) | split)

theorem execMapEntry_foot {m : Nat} {z : State} (k : SesId) (tx : Bool) (p : Fin 4) (i : Fin 32) (v : Word) (s : State) (hm : 0xFFFFFFFFF ||| m = m) (h0 : Foot m z s) :
    ∃ u, execMapEntry k tx p i v s = .next u ∧ Foot m z u := by
  unfold execMapEntry
  try dsimp only
  repeat' (first | (with_reducible refine ⟨_, rfl, ?_⟩) | with_reducible assumption | exact Foot.sub (by decide) hm | with_reducible apply hostWrite_foot | with_reducible apply Foot.ite | (with_reducible refine Foot.foldl ?_ (fun _ _ _ => ?_)) | split)

theorem execMapCount_foot {m : Nat} {z : State} (k : SesId) (tx : Bool) (p : Fin 4) (v : Byte) (s : State) (hm : 0xFFFFFFFFF ||| m = m) (h0 : Foot m z s) :
    ∃ u, execMapCount k tx p v s = .next u ∧ Foot m z u := by
  unfold execMapCount
  try dsimp only
  repeat' (first | (with_reducible refine ⟨_, rfl, ?_⟩) | with_reducible assumption | exact Foot.sub (by decide) hm | with_reducible apply hostWrite_foot | with_reducible apply Foot.ite | (with_reducible refine Foot.foldl ?_ (fun _ _ _ => ?_)) | split)

theorem execPdoAssign_foot {m : Nat} {z : State} (k : SesId) (tx : Bool) (i : Fin 4) (v : Half) (s : State) (hm : 0xFFFFFFFFF ||| m = m) (h0 : Foot m z s) :
    ∃ u, execPdoAssign k tx i v s = .next u ∧ Foot m z u := by
  unfold execPdoAssign
  try dsimp only
  repeat' (first | (with_reducible refine ⟨_, rfl, ?_⟩) | with_reducible assumption | exact Foot.sub (by decide) hm | with_reducible apply hostWrite_foot | with_reducible apply Foot.ite | (with_reducible refine Foot.foldl ?_ (fun _ _ _ => ?_)) | split)

theorem execEmergencySend_foot {m : Nat} {z : State} (k : SesId) (s : State) (hm : 0x60000000 ||| m = m) (h0 : Foot m z s) :
    ∃ u, execEmergencySend k s = .next u ∧ Foot m z u := by
  unfold execEmergencySend
  try dsimp only
  repeat' (first | (with_reducible refine ⟨_, rfl, ?_⟩) | with_reducible assumption | exact Foot.sub (by decide) hm | with_reducible apply sendEmergency_foot | with_reducible apply Foot.ite | (with_reducible refine Foot.foldl ?_ (fun _ _ _ => ?_)) | split)

theorem execLogCursor_foot {m : Nat} {z : State} (k : SesId) (v : Word) (s : State) (hm : 0xFFFFFFFFF ||| m = m) (h0 : Foot m z s) :
    ∃ u, execLogCursor k v s = .next u ∧ Foot m z u := by
  unfold execLogCursor
  try dsimp only
  repeat' (first | (with_reducible refine ⟨_, rfl, ?_⟩) | with_reducible assumption | exact Foot.sub (by decide) hm | with_reducible apply hostWrite_foot | with_reducible apply Foot.ite | (with_reducible refine Foot.foldl ?_ (fun _ _ _ => ?_)) | split)

theorem execLogEntry_foot {m : Nat} {z : State} (k : SesId) (s : State) (hm : 0x2C000000 ||| m = m) (h0 : Foot m z s) :
    ∃ u, execLogEntry k s = .next u ∧ Foot m z u := by
  unfold execLogEntry
  try dsimp only
  repeat' (first | (with_reducible refine ⟨_, rfl, ?_⟩) | with_reducible assumption | exact Foot.sub (by decide) hm | with_reducible apply hostRead_foot | with_reducible apply Foot.ite | (with_reducible refine Foot.foldl ?_ (fun _ _ _ => ?_)) | split)

theorem execSyncType_foot {m : Nat} {z : State} (k : SesId) (v : Half) (s : State) (hm : 0xFFFFFFFFF ||| m = m) (h0 : Foot m z s) :
    ∃ u, execSyncType k v s = .next u ∧ Foot m z u := by
  unfold execSyncType
  try dsimp only
  repeat' (first | (with_reducible refine ⟨_, rfl, ?_⟩) | with_reducible assumption | exact Foot.sub (by decide) hm | with_reducible apply hostWrite_foot | with_reducible apply Foot.ite | (with_reducible refine Foot.foldl ?_ (fun _ _ _ => ?_)) | split)

theorem execActiveCeiling_foot {m : Nat} {z : State} (k : SesId) (v : Byte) (s : State) (hm : 0xFFFFFFFFF ||| m = m) (h0 : Foot m z s) :
    ∃ u, execActiveCeiling k v s = .next u ∧ Foot m z u := by
  unfold execActiveCeiling
  try dsimp only
  repeat' (first | (with_reducible refine ⟨_, rfl, ?_⟩) | with_reducible assumption | exact Foot.sub (by decide) hm | with_reducible apply hostWrite_foot | with_reducible apply Foot.ite | (with_reducible refine Foot.foldl ?_ (fun _ _ _ => ?_)) | split)

theorem execIdleProfile_foot {m : Nat} {z : State} (k : SesId) (v : Byte) (s : State) (hm : 0xFFFFFFFFF ||| m = m) (h0 : Foot m z s) :
    ∃ u, execIdleProfile k v s = .next u ∧ Foot m z u := by
  unfold execIdleProfile
  try dsimp only
  repeat' (first | (with_reducible refine ⟨_, rfl, ?_⟩) | with_reducible assumption | exact Foot.sub (by decide) hm | with_reducible apply hostWrite_foot | with_reducible apply Foot.ite | (with_reducible refine Foot.foldl ?_ (fun _ _ _ => ?_)) | split)

theorem execDeepSleep_foot {m : Nat} {z : State} (k : SesId) (v : Byte) (s : State) (hm : 0xFFFFFFFFF ||| m = m) (h0 : Foot m z s) :
    ∃ u, execDeepSleep k v s = .next u ∧ Foot m z u := by
  unfold execDeepSleep
  try dsimp only
  repeat' (first | (with_reducible refine ⟨_, rfl, ?_⟩) | with_reducible assumption | exact Foot.sub (by decide) hm | with_reducible apply hostWrite_foot | with_reducible apply Foot.ite | (with_reducible refine Foot.foldl ?_ (fun _ _ _ => ?_)) | split)

theorem execRampDwell_foot {m : Nat} {z : State} (k : SesId) (v : Byte) (s : State) (hm : 0xFFFFFFFFF ||| m = m) (h0 : Foot m z s) :
    ∃ u, execRampDwell k v s = .next u ∧ Foot m z u := by
  unfold execRampDwell
  try dsimp only
  repeat' (first | (with_reducible refine ⟨_, rfl, ?_⟩) | with_reducible assumption | exact Foot.sub (by decide) hm | with_reducible apply hostWrite_foot | with_reducible apply Foot.ite | (with_reducible refine Foot.foldl ?_ (fun _ _ _ => ?_)) | split)

theorem execIdleHold_foot {m : Nat} {z : State} (k : SesId) (t : Tenant) (v : Word) (s : State) (hm : 0xFFFFFFFFF ||| m = m) (h0 : Foot m z s) :
    ∃ u, execIdleHold k t v s = .next u ∧ Foot m z u := by
  unfold execIdleHold
  try dsimp only
  repeat' (first | (with_reducible refine ⟨_, rfl, ?_⟩) | with_reducible assumption | exact Foot.sub (by decide) hm | with_reducible apply hostWrite_foot | with_reducible apply Foot.ite | (with_reducible refine Foot.foldl ?_ (fun _ _ _ => ?_)) | split)

theorem execGateRun_foot {m : Nat} {z : State} (k : SesId) (v : Word) (s : State) (hm : 0xFFFFFFFFF ||| m = m) (h0 : Foot m z s) :
    ∃ u, execGateRun k v s = .next u ∧ Foot m z u := by
  unfold execGateRun
  try dsimp only
  repeat' (first | (with_reducible refine ⟨_, rfl, ?_⟩) | with_reducible assumption | exact Foot.sub (by decide) hm | with_reducible apply hostWrite_foot | with_reducible apply Foot.ite | (with_reducible refine Foot.foldl ?_ (fun _ _ _ => ?_)) | split)

theorem execGateSleep_foot {m : Nat} {z : State} (k : SesId) (v : Word) (s : State) (hm : 0xFFFFFFFFF ||| m = m) (h0 : Foot m z s) :
    ∃ u, execGateSleep k v s = .next u ∧ Foot m z u := by
  unfold execGateSleep
  try dsimp only
  repeat' (first | (with_reducible refine ⟨_, rfl, ?_⟩) | with_reducible assumption | exact Foot.sub (by decide) hm | with_reducible apply hostWrite_foot | with_reducible apply Foot.ite | (with_reducible refine Foot.foldl ?_ (fun _ _ _ => ?_)) | split)

theorem execGateDeep_foot {m : Nat} {z : State} (k : SesId) (v : Word) (s : State) (hm : 0xFFFFFFFFF ||| m = m) (h0 : Foot m z s) :
    ∃ u, execGateDeep k v s = .next u ∧ Foot m z u := by
  unfold execGateDeep
  try dsimp only
  repeat' (first | (with_reducible refine ⟨_, rfl, ?_⟩) | with_reducible assumption | exact Foot.sub (by decide) hm | with_reducible apply hostWrite_foot | with_reducible apply Foot.ite | (with_reducible refine Foot.foldl ?_ (fun _ _ _ => ?_)) | split)

theorem execRefSelect_foot {m : Nat} {z : State} (k : SesId) (v : Byte) (s : State) (hm : 0xFFFFFFFFF ||| m = m) (h0 : Foot m z s) :
    ∃ u, execRefSelect k v s = .next u ∧ Foot m z u := by
  unfold execRefSelect
  try dsimp only
  repeat' (first | (with_reducible refine ⟨_, rfl, ?_⟩) | with_reducible assumption | exact Foot.sub (by decide) hm | with_reducible apply hostWrite_foot | with_reducible apply Foot.ite | (with_reducible refine Foot.foldl ?_ (fun _ _ _ => ?_)) | split)

theorem resetBy_foot {m : Nat} {z : State} (s : State) (k : SesId) (v : Byte) (r : StartReport) (hm : 0xFFFFFFFFF ||| m = m) (h0 : Foot m z s) :
    Foot m z (resetBy s k v r) := by
  unfold resetBy
  try dsimp only
  repeat' (first | with_reducible assumption | exact Foot.sub (by decide) hm | with_reducible apply applyReset_foot | with_reducible apply writeBy_foot | with_reducible apply Foot.ite | (with_reducible refine Foot.foldl ?_ (fun _ _ _ => ?_)) | intro _ | split)

theorem execResetWarm_foot {m : Nat} {z : State} (k : SesId) (r : StartReport) (s : State) (hm : 0xFFFFFFFFF ||| m = m) (h0 : Foot m z s) :
    ∃ u, execResetWarm k r s = .next u ∧ Foot m z u := by
  unfold execResetWarm
  try dsimp only
  repeat' (first | (with_reducible refine ⟨_, rfl, ?_⟩) | with_reducible assumption | exact Foot.sub (by decide) hm | with_reducible apply resetBy_foot | with_reducible apply Foot.ite | (with_reducible refine Foot.foldl ?_ (fun _ _ _ => ?_)) | split)

theorem execResetCold_foot {m : Nat} {z : State} (k : SesId) (r : StartReport) (s : State) (hm : 0xFFFFFFFFF ||| m = m) (h0 : Foot m z s) :
    ∃ u, execResetCold k r s = .next u ∧ Foot m z u := by
  unfold execResetCold
  try dsimp only
  repeat' (first | (with_reducible refine ⟨_, rfl, ?_⟩) | with_reducible assumption | exact Foot.sub (by decide) hm | with_reducible apply resetBy_foot | with_reducible apply Foot.ite | (with_reducible refine Foot.foldl ?_ (fun _ _ _ => ?_)) | split)

theorem execNonce_foot {m : Nat} {z : State} (k : SesId) (d : Bytes) (s : State) (hm : 0xFFFFFFFFF ||| m = m) (h0 : Foot m z s) :
    ∃ u, execNonce k d s = .next u ∧ Foot m z u := by
  unfold execNonce
  try dsimp only
  repeat' (first | (with_reducible refine ⟨_, rfl, ?_⟩) | with_reducible assumption | exact Foot.sub (by decide) hm | with_reducible apply hostWrite_foot | with_reducible apply Foot.ite | (with_reducible refine Foot.foldl ?_ (fun _ _ _ => ?_)) | split)

theorem execKeyRecord_foot {m : Nat} {z : State} (k : SesId) (d : Bytes) (s : State) (hm : 0xFFFFFFFFF ||| m = m) (h0 : Foot m z s) :
    ∃ u, execKeyRecord k d s = .next u ∧ Foot m z u := by
  unfold execKeyRecord
  try dsimp only
  repeat' (first | (with_reducible refine ⟨_, rfl, ?_⟩) | with_reducible assumption | exact Foot.sub (by decide) hm | with_reducible apply hostWrite_foot | with_reducible apply Foot.ite | (with_reducible refine Foot.foldl ?_ (fun _ _ _ => ?_)) | split)

theorem execFirmware_foot {m : Nat} {z : State} (k : SesId) (d : Bytes) (s : State) (hm : 0xFFFFFFFFF ||| m = m) (h0 : Foot m z s) :
    ∃ u, execFirmware k d s = .next u ∧ Foot m z u := by
  unfold execFirmware
  try dsimp only
  repeat' (first | (with_reducible refine ⟨_, rfl, ?_⟩) | with_reducible assumption | exact Foot.sub (by decide) hm | with_reducible apply hostWrite_foot | with_reducible apply Foot.ite | (with_reducible refine Foot.foldl ?_ (fun _ _ _ => ?_)) | split)

theorem execTideCmd_foot {m : Nat} {z : State} (k : SesId) (v : Byte) (s : State) (hm : 0xFFFFFFFFF ||| m = m) (h0 : Foot m z s) :
    ∃ u, execTideCmd k v s = .next u ∧ Foot m z u := by
  unfold execTideCmd
  try dsimp only
  repeat' (first | (with_reducible refine ⟨_, rfl, ?_⟩) | with_reducible assumption | exact Foot.sub (by decide) hm | with_reducible apply hostWrite_foot | with_reducible apply Foot.ite | (with_reducible refine Foot.foldl ?_ (fun _ _ _ => ?_)) | split)

end Sys2Proof.Machine
end

