-- ==== Sys2Proof/Laws/FootNetwork.lean ====
section
/-! SUPPORT. Which components of the state each operation of Machine/Network.lean can change. -/

set_option linter.unusedTactic false
set_option linter.unusedVariables false
set_option linter.unreachableTactic false

namespace Sys2Proof.Machine

theorem serve_foot {m : Nat} {z : State} (s : State) (k : SesId) (r : SdoReq) (hm : 0xFFFFFFFFF ||| m = m) (h0 : Foot m z s) :
    Foot m z (serve s k r) := by
  unfold serve
  try dsimp only
  repeat' (first | with_reducible assumption | exact Foot.sub (by decide) hm | with_reducible apply answer_foot | with_reducible apply hostWrite_foot | with_reducible apply hostRead_foot | with_reducible apply Foot.ite | (with_reducible refine Foot.foldl ?_ (fun _ _ _ => ?_)) | split)

theorem pdoPut_foot {m : Nat} {z : State} (s : State) (k : SesId) (e : Word) (d : Bytes) (hm : 0xFFFFFFFFF ||| m = m) (h0 : Foot m z s) :
    Foot m z (pdoPut s k e d) := by
  unfold pdoPut
  try dsimp only
  repeat' (first | with_reducible assumption | exact Foot.sub (by decide) hm | with_reducible apply objWrite_foot | with_reducible apply Foot.ite | (with_reducible refine Foot.foldl ?_ (fun _ _ _ => ?_)) | split)

theorem latchInputs_foot {m : Nat} {z : State} (s : State) (e : CtrlId) (hm : 0x40000000 ||| m = m) (h0 : Foot m z s) :
    Foot m z (latchInputs s e) := by
  unfold latchInputs
  try dsimp only
  repeat' (first | with_reducible assumption | exact Foot.sub (by decide) hm | with_reducible apply modEsc_foot | with_reducible apply Foot.ite | (with_reducible refine Foot.foldl ?_ (fun _ _ _ => ?_)) | split)

theorem pdoWrite_foot {m : Nat} {z : State} (k : SesId) (l : List Word) (d : Bytes) (s : State) (hm : 0xFFFFFFFFF ||| m = m)
    (h0 : Foot m z s) : Foot m z (pdoWrite k l d s) := by
  induction l generalizing d s with
  | nil => exact h0
  | cons e r ih => exact ih _ _ (pdoPut_foot _ _ _ _ (by first | exact hm | exact Foot.sub (by decide) hm) h0)

theorem outputs_foot {m : Nat} {z : State} (s : State) (e : CtrlId) (l : List Tenant) (a : State × Bytes) (hm : 0xFFFFFFFFF ||| m = m)
    (h0 : Foot m z a.1) :
    Foot m z (l.foldl (fun (a : State × Bytes) t =>
      (if escOf s t = some e then pdoWrite (tenSes t)
        ((assigned (ses a.1 (tenSes t)) false).flatMap (pdoEntries (ses a.1 (tenSes t)) false))
        (a.2.take (imageLen (ses a.1 (tenSes t)) false)) a.1 else a.1,
       a.2.drop (imageLen (ses a.1 (tenSes t)) false))) a).1 := by
  induction l generalizing a with
  | nil => exact h0
  | cons t r ih => exact ih _ (Foot.ite (pdoWrite_foot _ _ _ _ hm h0) h0)

theorem applyOutputs_foot {m : Nat} {z : State} (s : State) (e : CtrlId) (hm : 0xFFFFFFFFF ||| m = m) (h0 : Foot m z s) :
    Foot m z (applyOutputs s e) := by
  unfold applyOutputs
  exact outputs_foot _ _ _ _ hm h0

theorem enterAl_foot {m : Nat} {z : State} (s : State) (e : CtrlId) (new : AlState) (c : EscConfig) (hm : 0x60000000 ||| m = m) (h0 : Foot m z s) :
    Foot m z (enterAl s e new c) := by
  unfold enterAl
  try dsimp only
  repeat' (first | with_reducible assumption | exact Foot.sub (by decide) hm | with_reducible apply modEsc_foot | with_reducible apply syncSes_foot | with_reducible apply Foot.ite | (with_reducible refine Foot.foldl ?_ (fun _ _ _ => ?_)) | split)

theorem execEscAlControl_foot {m : Nat} {z : State} (e : CtrlId) (req : AlState) (c : EscConfig) (s : State) (hm : 0x60000000 ||| m = m) (h0 : Foot m z s) :
    ∃ u, execEscAlControl e req c s = .next u ∧ Foot m z u := by
  unfold execEscAlControl
  try dsimp only
  repeat' (first | (with_reducible refine ⟨_, rfl, ?_⟩) | with_reducible assumption | exact Foot.sub (by decide) hm | with_reducible apply modEsc_foot | with_reducible apply refuse_foot | with_reducible apply enterAl_foot | with_reducible apply Foot.ite | (with_reducible refine Foot.foldl ?_ (fun _ _ _ => ?_)) | split)

theorem execMailboxRequest_foot {m : Nat} {z : State} (e : CtrlId) (channel : BitVec 6) (m0 : MailboxMsg) (s : State) (hm : 0xFFFFFFFFF ||| m = m) (h0 : Foot m z s) :
    ∃ u, execMailboxRequest e channel m0 s = .next u ∧ Foot m z u := by
  unfold execMailboxRequest
  try dsimp only
  repeat' (first | (with_reducible refine ⟨_, rfl, ?_⟩) | with_reducible assumption | exact Foot.sub (by decide) hm | with_reducible apply modEsc_foot | with_reducible apply serve_foot | with_reducible apply Foot.ite | (with_reducible refine Foot.foldl ?_ (fun _ _ _ => ?_)) | split)

theorem execSdoInformation_foot {m : Nat} {z : State} (k : SesId) (r : InfoReq) (s : State) (hm : 0x60000000 ||| m = m) (h0 : Foot m z s) :
    ∃ u, execSdoInformation k r s = .next u ∧ Foot m z u := by
  unfold execSdoInformation
  try dsimp only
  repeat' (first | (with_reducible refine ⟨_, rfl, ?_⟩) | with_reducible assumption | exact Foot.sub (by decide) hm | with_reducible apply modEsc_foot | with_reducible apply answer_foot | with_reducible apply Foot.ite | (with_reducible refine Foot.foldl ?_ (fun _ _ _ => ?_)) | split)

theorem setFoe_foot {m : Nat} {z : State} (s : State) (code : Half) (abort : Word) (hm : 0x40000000 ||| m = m) (h0 : Foot m z s) :
    Foot m z (setFoe s code abort) := by
  unfold setFoe
  try dsimp only
  repeat' (first | with_reducible assumption | exact Foot.sub (by decide) hm | with_reducible apply Foot.ite | (with_reducible refine Foot.foldl ?_ (fun _ _ _ => ?_)) | (fail_if_no_progress (with_reducible refine Foot.up_net ?_ (Foot.sub (by decide) hm))) | split)

theorem execFoeWrite_foot {m : Nat} {z : State} (k : SesId) (name : String) (password : Word) (d : Bytes) (s : State) (hm : 0xFFFFFFFFF ||| m = m) (h0 : Foot m z s) :
    ∃ u, execFoeWrite k name password d s = .next u ∧ Foot m z u := by
  unfold execFoeWrite
  try dsimp only
  repeat' (first | (with_reducible refine ⟨_, rfl, ?_⟩) | with_reducible assumption | exact Foot.sub (by decide) hm | with_reducible apply hostWrite_foot | with_reducible apply setFoe_foot | with_reducible apply Foot.ite | (with_reducible refine Foot.foldl ?_ (fun _ _ _ => ?_)) | split)

theorem execFoeRead_foot {m : Nat} {z : State} (k : SesId) (_name : String) (s : State) (hm : 0x40000000 ||| m = m) (h0 : Foot m z s) :
    ∃ u, execFoeRead k _name s = .next u ∧ Foot m z u := by
  unfold execFoeRead
  try dsimp only
  repeat' (first | (with_reducible refine ⟨_, rfl, ?_⟩) | with_reducible assumption | exact Foot.sub (by decide) hm | with_reducible apply setFoe_foot | with_reducible apply Foot.ite | (with_reducible refine Foot.foldl ?_ (fun _ _ _ => ?_)) | split)

theorem lateFrames_foot {m : Nat} {z : State} (s : State) (e : CtrlId) (hm : 0x40000001 ||| m = m) (h0 : Foot m z s) :
    Foot m z (lateFrames s e) := by
  unfold lateFrames
  try dsimp only
  repeat' (first | with_reducible assumption | exact Foot.sub (by decide) hm | with_reducible apply modEsc_foot | with_reducible apply bump_foot | with_reducible apply Foot.ite | (with_reducible refine Foot.foldl ?_ (fun _ _ _ => ?_)) | split)

theorem execSm2Event_foot {m : Nat} {z : State} (e : CtrlId) (d : Bytes) (s : State) (hm : 0xFFFFFFFFF ||| m = m) (h0 : Foot m z s) :
    ∃ u, execSm2Event e d s = .next u ∧ Foot m z u := by
  unfold execSm2Event
  try dsimp only
  repeat' (first | (with_reducible refine ⟨_, rfl, ?_⟩) | with_reducible assumption | exact Foot.sub (by decide) hm | with_reducible apply modEsc_foot | with_reducible apply takeMark_foot | with_reducible apply latchInputs_foot | with_reducible apply applyOutputs_foot | with_reducible apply lateFrames_foot | with_reducible apply Foot.ite | (with_reducible refine Foot.foldl ?_ (fun _ _ _ => ?_)) | split)

theorem syncEvent_foot {m : Nat} {z : State} (s : State) (e : CtrlId) (one : Bool) (hm : 0x88CB7EBF5 ||| m = m) (h0 : Foot m z s) :
    Foot m z (syncEvent s e one) := by
  unfold syncEvent
  try dsimp only
  repeat' (first | with_reducible assumption | exact Foot.sub (by decide) hm | with_reducible apply modSqr_foot | with_reducible apply pulsePort_foot | with_reducible apply startInput_foot | with_reducible apply Foot.ite | (with_reducible refine Foot.foldl ?_ (fun _ _ _ => ?_)) | split)

theorem execSync0_foot {m : Nat} {z : State} (e : CtrlId) (s : State) (hm : 0xFFFFFFFFF ||| m = m) (h0 : Foot m z s) :
    ∃ u, execSync0 e s = .next u ∧ Foot m z u := by
  unfold execSync0
  try dsimp only
  repeat' (first | (with_reducible refine ⟨_, rfl, ?_⟩) | with_reducible assumption | exact Foot.sub (by decide) hm | with_reducible apply modEsc_foot | with_reducible apply takeMark_foot | with_reducible apply latchInputs_foot | with_reducible apply applyOutputs_foot | with_reducible apply syncEvent_foot | with_reducible apply Foot.ite | (with_reducible refine Foot.foldl ?_ (fun _ _ _ => ?_)) | split)

theorem execSync1_foot {m : Nat} {z : State} (e : CtrlId) (s : State) (hm : 0x8CCB7EBF5 ||| m = m) (h0 : Foot m z s) :
    ∃ u, execSync1 e s = .next u ∧ Foot m z u := by
  unfold execSync1
  try dsimp only
  repeat' (first | (with_reducible refine ⟨_, rfl, ?_⟩) | with_reducible assumption | exact Foot.sub (by decide) hm | with_reducible apply latchInputs_foot | with_reducible apply syncEvent_foot | with_reducible apply Foot.ite | (with_reducible refine Foot.foldl ?_ (fun _ _ _ => ?_)) | split)

theorem execFreeRunLatch_foot {m : Nat} {z : State} (e : CtrlId) (s : State) (hm : 0x40000000 ||| m = m) (h0 : Foot m z s) :
    ∃ u, execFreeRunLatch e s = .next u ∧ Foot m z u := by
  unfold execFreeRunLatch
  try dsimp only
  repeat' (first | (with_reducible refine ⟨_, rfl, ?_⟩) | with_reducible assumption | exact Foot.sub (by decide) hm | with_reducible apply latchInputs_foot | with_reducible apply Foot.ite | (with_reducible refine Foot.foldl ?_ (fun _ _ _ => ?_)) | split)

theorem execPdWatchdogExpiry_foot {m : Nat} {z : State} (_e : CtrlId) (s : State) (hm : 0x0 ||| m = m) (h0 : Foot m z s) :
    ∃ u, execPdWatchdogExpiry _e s = .next u ∧ Foot m z u := by
  unfold execPdWatchdogExpiry
  try dsimp only
  repeat' (first | (with_reducible refine ⟨_, rfl, ?_⟩) | with_reducible assumption | exact Foot.sub (by decide) hm | with_reducible apply Foot.ite | (with_reducible refine Foot.foldl ?_ (fun _ _ _ => ?_)) | split)

theorem setNmt_foot {m : Nat} {z : State} (s : State) (t : Tenant) (v : NmtState) (hm : 0x40000000 ||| m = m) (h0 : Foot m z s) :
    Foot m z (setNmt s t v) := by
  unfold setNmt
  try dsimp only
  repeat' (first | with_reducible assumption | exact Foot.sub (by decide) hm | with_reducible apply Foot.ite | (with_reducible refine Foot.foldl ?_ (fun _ _ _ => ?_)) | (fail_if_no_progress (with_reducible refine Foot.up_net ?_ (Foot.sub (by decide) hm))) | split)

theorem onNodes_foot {m : Nat} {z : State} (s : State) (c : CtrlId) (node : BitVec 7) (f : State → Tenant → State) (hm : 0x0 ||| m = m) (h0 : Foot m z s)(hs : ∀ u t, Foot m z u → Foot m z (f u t)) :
    Foot m z (onNodes s c node f) := by
  unfold onNodes
  try dsimp only
  repeat' (first | with_reducible assumption | exact Foot.sub (by decide) hm | with_reducible apply Foot.ite | (with_reducible refine Foot.foldl ?_ (fun _ _ _ => ?_)) | with_reducible apply hs | split)

theorem execNmtStart_foot {m : Nat} {z : State} (c : CtrlId) (node : BitVec 7) (s : State) (hm : 0x60000000 ||| m = m) (h0 : Foot m z s) :
    ∃ u, execNmtStart c node s = .next u ∧ Foot m z u := by
  unfold execNmtStart
  try dsimp only
  repeat' (first | (with_reducible refine ⟨_, rfl, ?_⟩) | with_reducible assumption | exact Foot.sub (by decide) hm | with_reducible apply syncSes_foot | with_reducible apply setNmt_foot | with_reducible apply onNodes_foot | with_reducible apply Foot.ite | (with_reducible refine Foot.foldl ?_ (fun _ _ _ => ?_)) | intro _ | split)

theorem execNmtEnterPreOperational_foot {m : Nat} {z : State} (c : CtrlId) (node : BitVec 7) (s : State) (hm : 0x60000000 ||| m = m) (h0 : Foot m z s) :
    ∃ u, execNmtEnterPreOperational c node s = .next u ∧ Foot m z u := by
  unfold execNmtEnterPreOperational
  try dsimp only
  repeat' (first | (with_reducible refine ⟨_, rfl, ?_⟩) | with_reducible assumption | exact Foot.sub (by decide) hm | with_reducible apply syncSes_foot | with_reducible apply setNmt_foot | with_reducible apply onNodes_foot | with_reducible apply Foot.ite | (with_reducible refine Foot.foldl ?_ (fun _ _ _ => ?_)) | intro _ | split)

theorem execNmtStop_foot {m : Nat} {z : State} (c : CtrlId) (node : BitVec 7) (s : State) (hm : 0x60000000 ||| m = m) (h0 : Foot m z s) :
    ∃ u, execNmtStop c node s = .next u ∧ Foot m z u := by
  unfold execNmtStop
  try dsimp only
  repeat' (first | (with_reducible refine ⟨_, rfl, ?_⟩) | with_reducible assumption | exact Foot.sub (by decide) hm | with_reducible apply syncSes_foot | with_reducible apply setNmt_foot | with_reducible apply onNodes_foot | with_reducible apply Foot.ite | (with_reducible refine Foot.foldl ?_ (fun _ _ _ => ?_)) | intro _ | split)

theorem resetNode_foot {m : Nat} {z : State} (s : State) (c : CtrlId) (t : Tenant) (hm : 0x60000000 ||| m = m) (h0 : Foot m z s) :
    Foot m z (resetNode s c t) := by
  unfold resetNode
  try dsimp only
  repeat' (first | with_reducible assumption | exact Foot.sub (by decide) hm | with_reducible apply modSes_foot | with_reducible apply modCan_foot | with_reducible apply closeSes_foot | with_reducible apply syncSes_foot | with_reducible apply bootNode_foot | with_reducible apply Foot.ite | (with_reducible refine Foot.foldl ?_ (fun _ _ _ => ?_)) | split)

theorem execNmtResetCommunication_foot {m : Nat} {z : State} (c : CtrlId) (node : BitVec 7) (s : State) (hm : 0x60000000 ||| m = m) (h0 : Foot m z s) :
    ∃ u, execNmtResetCommunication c node s = .next u ∧ Foot m z u := by
  unfold execNmtResetCommunication
  try dsimp only
  repeat' (first | (with_reducible refine ⟨_, rfl, ?_⟩) | with_reducible assumption | exact Foot.sub (by decide) hm | with_reducible apply onNodes_foot | with_reducible apply resetNode_foot | with_reducible apply Foot.ite | (with_reducible refine Foot.foldl ?_ (fun _ _ _ => ?_)) | intro _ | split)

theorem execNmtResetNode_foot {m : Nat} {z : State} (c : CtrlId) (node : BitVec 7) (s : State) (hm : 0x60000000 ||| m = m) (h0 : Foot m z s) :
    ∃ u, execNmtResetNode c node s = .next u ∧ Foot m z u := by
  unfold execNmtResetNode
  try dsimp only
  repeat' (first | (with_reducible refine ⟨_, rfl, ?_⟩) | with_reducible assumption | exact Foot.sub (by decide) hm | with_reducible apply onNodes_foot | with_reducible apply resetNode_foot | with_reducible apply Foot.ite | (with_reducible refine Foot.foldl ?_ (fun _ _ _ => ?_)) | intro _ | split)

theorem sendTpdo_foot {m : Nat} {z : State} (s : State) (c : CtrlId) (t : Tenant) (k : Nat) (hm : 0x40000000 ||| m = m) (h0 : Foot m z s) :
    Foot m z (sendTpdo s c t k) := by
  unfold sendTpdo
  try dsimp only
  repeat' (first | with_reducible assumption | exact Foot.sub (by decide) hm | with_reducible apply modCan_foot | with_reducible apply Foot.ite | (with_reducible refine Foot.foldl ?_ (fun _ _ _ => ?_)) | split)

theorem tpdoSync_foot {m : Nat} {z : State} (s : State) (c : CtrlId) (t : Tenant) (k : Nat) (hm : 0x60000000 ||| m = m) (h0 : Foot m z s) :
    Foot m z (tpdoSync s c t k) := by
  unfold tpdoSync
  try dsimp only
  repeat' (first | with_reducible assumption | exact Foot.sub (by decide) hm | with_reducible apply modSes_foot | with_reducible apply sendTpdo_foot | with_reducible apply Foot.ite | (with_reducible refine Foot.foldl ?_ (fun _ _ _ => ?_)) | split)

theorem applyRpdo_foot {m : Nat} {z : State} (s : State) (t : Tenant) (k : Nat) (d : Bytes) (hm : 0xFFFFFFFFF ||| m = m)
    (h0 : Foot m z s) : Foot m z (applyRpdo s t k d) := pdoWrite_foot _ _ _ _ (Foot.sub (by decide) hm) h0

theorem execCanSync_foot {m : Nat} {z : State} (c : CtrlId) (s : State) (hm : 0xFFFFFFFFF ||| m = m) (h0 : Foot m z s) :
    ∃ u, execCanSync c s = .next u ∧ Foot m z u := by
  unfold execCanSync
  try dsimp only
  repeat' (first | (with_reducible refine ⟨_, rfl, ?_⟩) | with_reducible assumption | exact Foot.sub (by decide) hm | with_reducible apply modCan_foot | with_reducible apply takeMark_foot | with_reducible apply tpdoSync_foot | with_reducible apply applyRpdo_foot | with_reducible apply Foot.ite | (with_reducible refine Foot.foldl ?_ (fun _ _ _ => ?_)) | split)

theorem execRpdo_foot {m : Nat} {z : State} (c : CtrlId) (cobId : BitVec 11) (d : Bytes) (s : State) (hm : 0xFFFFFFFFF ||| m = m) (h0 : Foot m z s) :
    ∃ u, execRpdo c cobId d s = .next u ∧ Foot m z u := by
  unfold execRpdo
  try dsimp only
  repeat' (first | (with_reducible refine ⟨_, rfl, ?_⟩) | with_reducible assumption | exact Foot.sub (by decide) hm | with_reducible apply modCan_foot | with_reducible apply takeMark_foot | with_reducible apply applyRpdo_foot | with_reducible apply Foot.ite | (with_reducible refine Foot.foldl ?_ (fun _ _ _ => ?_)) | split)

theorem execTpdoTransmit_foot {m : Nat} {z : State} (t : Tenant) (k : Fin 4) (s : State) (hm : 0x40000000 ||| m = m) (h0 : Foot m z s) :
    ∃ u, execTpdoTransmit t k s = .next u ∧ Foot m z u := by
  unfold execTpdoTransmit
  try dsimp only
  repeat' (first | (with_reducible refine ⟨_, rfl, ?_⟩) | with_reducible assumption | exact Foot.sub (by decide) hm | with_reducible apply sendTpdo_foot | with_reducible apply Foot.ite | (with_reducible refine Foot.foldl ?_ (fun _ _ _ => ?_)) | split)

theorem execHeartbeat_foot {m : Nat} {z : State} (t : Tenant) (s : State) (hm : 0x40000000 ||| m = m) (h0 : Foot m z s) :
    ∃ u, execHeartbeat t s = .next u ∧ Foot m z u := by
  unfold execHeartbeat
  try dsimp only
  repeat' (first | (with_reducible refine ⟨_, rfl, ?_⟩) | with_reducible assumption | exact Foot.sub (by decide) hm | with_reducible apply modCan_foot | with_reducible apply Foot.ite | (with_reducible refine Foot.foldl ?_ (fun _ _ _ => ?_)) | split)

theorem execUsdoRequest_foot {m : Nat} {z : State} (c : CtrlId) (node : BitVec 7) (r : SdoReq) (s : State) (hm : 0xFFFFFFFFF ||| m = m) (h0 : Foot m z s) :
    ∃ u, execUsdoRequest c node r s = .next u ∧ Foot m z u := by
  unfold execUsdoRequest
  try dsimp only
  repeat' (first | (with_reducible refine ⟨_, rfl, ?_⟩) | with_reducible assumption | exact Foot.sub (by decide) hm | with_reducible apply serve_foot | with_reducible apply Foot.ite | (with_reducible refine Foot.foldl ?_ (fun _ _ _ => ?_)) | split)

theorem onCan_foot {m : Nat} {z : State} (s : State) (c : CtrlId) (f : CanCtl → CanCtl) (hm : 0x40000000 ||| m = m) (h0 : Foot m z s) :
    Foot m z (onCan s c f) := by
  unfold onCan
  try dsimp only
  repeat' (first | with_reducible assumption | exact Foot.sub (by decide) hm | with_reducible apply modCan_foot | with_reducible apply Foot.ite | (with_reducible refine Foot.foldl ?_ (fun _ _ _ => ?_)) | split)

theorem execLssConfigureNodeId_foot {m : Nat} {z : State} (c : CtrlId) (nb : Byte) (s : State) (hm : 0x40000000 ||| m = m) (h0 : Foot m z s) :
    ∃ u, execLssConfigureNodeId c nb s = .next u ∧ Foot m z u := by
  unfold execLssConfigureNodeId
  try dsimp only
  repeat' (first | (with_reducible refine ⟨_, rfl, ?_⟩) | with_reducible assumption | exact Foot.sub (by decide) hm | with_reducible apply onCan_foot | with_reducible apply Foot.ite | (with_reducible refine Foot.foldl ?_ (fun _ _ _ => ?_)) | split)

theorem execLssConfigureBitTiming_foot {m : Nat} {z : State} (c : CtrlId) (selector index : Byte) (s : State) (hm : 0x40000000 ||| m = m) (h0 : Foot m z s) :
    ∃ u, execLssConfigureBitTiming c selector index s = .next u ∧ Foot m z u := by
  unfold execLssConfigureBitTiming
  try dsimp only
  repeat' (first | (with_reducible refine ⟨_, rfl, ?_⟩) | with_reducible assumption | exact Foot.sub (by decide) hm | with_reducible apply onCan_foot | with_reducible apply Foot.ite | (with_reducible refine Foot.foldl ?_ (fun _ _ _ => ?_)) | split)

theorem execLssStoreConfiguration_foot {m : Nat} {z : State} (c : CtrlId) (s : State) (hm : 0x40000000 ||| m = m) (h0 : Foot m z s) :
    ∃ u, execLssStoreConfiguration c s = .next u ∧ Foot m z u := by
  unfold execLssStoreConfiguration
  try dsimp only
  repeat' (first | (with_reducible refine ⟨_, rfl, ?_⟩) | with_reducible assumption | exact Foot.sub (by decide) hm | with_reducible apply onCan_foot | with_reducible apply Foot.ite | (with_reducible refine Foot.foldl ?_ (fun _ _ _ => ?_)) | split)

theorem execLssActivateBitTiming_foot {m : Nat} {z : State} (c : CtrlId) (s : State) (hm : 0x60000000 ||| m = m) (h0 : Foot m z s) :
    ∃ u, execLssActivateBitTiming c s = .next u ∧ Foot m z u := by
  unfold execLssActivateBitTiming
  try dsimp only
  repeat' (first | (with_reducible refine ⟨_, rfl, ?_⟩) | with_reducible assumption | exact Foot.sub (by decide) hm | with_reducible apply modCan_foot | with_reducible apply closeSes_foot | with_reducible apply syncSes_foot | with_reducible apply bootNode_foot | with_reducible apply Foot.ite | (with_reducible refine Foot.foldl ?_ (fun _ _ _ => ?_)) | split)

theorem execNetworkWake_foot {m : Nat} {z : State} (h : HostCh) (f : WakeFrame) (s : State) (hm : 0x8BCB7FBF5 ||| m = m) (h0 : Foot m z s) :
    ∃ u, execNetworkWake h f s = .next u ∧ Foot m z u := by
  unfold execNetworkWake
  try dsimp only
  repeat' (first | (with_reducible refine ⟨_, rfl, ?_⟩) | with_reducible assumption | exact Foot.sub (by decide) hm | with_reducible apply takeMark_foot | with_reducible apply wakeModule_foot | with_reducible apply Foot.ite | (with_reducible refine Foot.foldl ?_ (fun _ _ _ => ?_)) | split)

theorem execMaintenanceFrame_foot {m : Nat} {z : State} (d : Bytes) (s : State) (hm : 0xFFFFFFFFF ||| m = m) (h0 : Foot m z s) :
    ∃ u, execMaintenanceFrame d s = .next u ∧ Foot m z u := by
  unfold execMaintenanceFrame
  try dsimp only
  repeat' (first | (with_reducible refine ⟨_, rfl, ?_⟩) | with_reducible assumption | exact Foot.sub (by decide) hm | with_reducible apply openSes_foot | with_reducible apply serve_foot | with_reducible apply Foot.ite | (with_reducible refine Foot.foldl ?_ (fun _ _ _ => ?_)) | (fail_if_no_progress (with_reducible refine Foot.up_net ?_ (Foot.sub (by decide) hm))) | split)

theorem execMaintenanceSilence_foot {m : Nat} {z : State} (s : State) (hm : 0x60000000 ||| m = m) (h0 : Foot m z s) :
    ∃ u, execMaintenanceSilence s = .next u ∧ Foot m z u := by
  unfold execMaintenanceSilence
  try dsimp only
  repeat' (first | (with_reducible refine ⟨_, rfl, ?_⟩) | with_reducible assumption | exact Foot.sub (by decide) hm | with_reducible apply closeSes_foot | with_reducible apply Foot.ite | (with_reducible refine Foot.foldl ?_ (fun _ _ _ => ?_)) | (fail_if_no_progress (with_reducible refine Foot.up_net ?_ (Foot.sub (by decide) hm))) | split)

end Sys2Proof.Machine
end

