-- ==== Sys2Proof/Laws/FootPackets.lean ====
section
/-! SUPPORT. Which components of the state each operation of Machine/Packets.lean can change. -/

set_option linter.unusedTactic false
set_option linter.unusedVariables false
set_option linter.unreachableTactic false

namespace Sys2Proof.Machine

theorem badHeader_foot {m : Nat} {z : State} (s : State) (n : NiId) (p : Pkt) (hm : 0x800000000 ||| m = m) (h0 : Foot m z s) :
    Foot m z (badHeader s n p) := by
  unfold badHeader
  try dsimp only
  repeat' (first | with_reducible assumption | exact Foot.sub (by decide) hm | with_reducible apply logEvent_foot | with_reducible apply Foot.ite | (with_reducible refine Foot.foldl ?_ (fun _ _ _ => ?_)) | split)

theorem respond_foot {m : Nat} {z : State} (s : State) (n : NiId) (p : Pkt) (ty : BitVec 4) (status : Half) (data : Bytes) (hm : 0x800000 ||| m = m) (h0 : Foot m z s) :
    Foot m z (respond s n p ty status data) := by
  unfold respond
  try dsimp only
  repeat' (first | with_reducible assumption | exact Foot.sub (by decide) hm | with_reducible apply modNi_foot | with_reducible apply Foot.ite | (with_reducible refine Foot.foldl ?_ (fun _ _ _ => ?_)) | (fail_if_no_progress (with_reducible refine Foot.up_noc ?_ (Foot.sub (by decide) hm))) | split)

theorem tileRead_foot {m : Nat} {z : State} (s : State) (q : TileId) (p : Pkt) (hm : 0x10 ||| m = m) (h0 : Foot m z s) :
    Foot m z (tileRead s q p).2 := by
  unfold tileRead
  try dsimp only
  repeat' (first | with_reducible assumption | exact Foot.sub (by decide) hm | with_reducible apply setPe_foot | with_reducible apply Foot.ite | (with_reducible refine Foot.foldl ?_ (fun _ _ _ => ?_)) | split)

theorem tileWrite_foot {m : Nat} {z : State} (s : State) (q : TileId) (p : Pkt) (hm : 0x70 ||| m = m) (h0 : Foot m z s) :
    Foot m z (tileWrite s q p) := by
  unfold tileWrite
  try dsimp only
  repeat' (first | with_reducible assumption | exact Foot.sub (by decide) hm | with_reducible apply setPeBit_foot | with_reducible apply Foot.ite | (with_reducible refine Foot.foldl ?_ (fun _ _ _ => ?_)) | split)

theorem loseCopy_foot {m : Nat} {z : State} (s : State) (t : Tenant) (role : Nat) (hm : 0x800 ||| m = m) (h0 : Foot m z s) :
    Foot m z (loseCopy s t role) := by
  unfold loseCopy
  try dsimp only
  repeat' (first | with_reducible assumption | exact Foot.sub (by decide) hm | with_reducible apply modRun_foot | with_reducible apply Foot.ite | (with_reducible refine Foot.foldl ?_ (fun _ _ _ => ?_)) | split)

theorem abortRun_foot {m : Nat} {z : State} (s : State) (t : Tenant) (cause : Byte) (hm : 0x88CB5EBF5 ||| m = m) (h0 : Foot m z s) :
    Foot m z (abortRun s t cause) := by
  unfold abortRun
  try dsimp only
  repeat' (first | with_reducible assumption | exact Foot.sub (by decide) hm | with_reducible apply abortOrders_foot | with_reducible apply Foot.ite | (with_reducible refine Foot.foldl ?_ (fun _ _ _ => ?_)) | split)

theorem failedWord_foot {m : Nat} {z : State} (s : State) (src : NiId) (xm : Bool) (a : Nat) (hm : 0x8ACB5EBF5 ||| m = m) (h0 : Foot m z s) :
    Foot m z (failedWord s src xm a).2 := by
  unfold failedWord
  try dsimp only
  repeat' (first | with_reducible assumption | exact Foot.sub (by decide) hm | with_reducible apply readFailed_foot | with_reducible apply readCopied_foot | with_reducible apply recompute_foot | with_reducible apply memFault_foot | with_reducible apply xmWordFails_foot | with_reducible apply loseCopy_foot | with_reducible apply abortRun_foot | with_reducible apply Foot.ite | (with_reducible refine Foot.foldl ?_ (fun _ _ _ => ?_)) | split)

theorem memRead_foot {m : Nat} {z : State} (s : State) (src : NiId) (xm : Bool) (a c : Nat) (glitch : Bool) (hm : 0x8ACB5EBF5 ||| m = m)
    (h0 : Foot m z s) : Foot m z (memRead s src xm a c glitch).2 := by
  have h1 := yieldWindow_foot s xm a c (Foot.sub (by decide) hm) h0
  unfold memRead
  dsimp only
  generalize List.filter _ _ = bad
  by_cases hb : bad = []
  · rw [if_pos hb]
    dsimp only
    with_reducible exact Foot.ite (transient_foot _ _ _ (Foot.sub (by decide) hm) h1) h1
  · rw [if_neg hb]
    dsimp only
    refine settleMem_foot (m := m) _ (Foot.sub (b := 0x8ACB5EBF5) (by decide) hm)
      (Foot.fold2 h1 fun _ _ h => ?_)
    exact failedWord_foot _ _ _ _ (Foot.sub (by decide) hm) h

theorem memWrite_foot {m : Nat} {z : State} (s : State) (xm : Bool) (a : Nat) (d : Bytes) (hm : 0x80021E000 ||| m = m) (h0 : Foot m z s) :
    Foot m z (memWrite s xm a d) := by
  unfold memWrite
  try dsimp only
  repeat' (first | with_reducible assumption | exact Foot.sub (by decide) hm | with_reducible apply spWrite_foot | with_reducible apply xmPut_foot | with_reducible apply Foot.ite | (with_reducible refine Foot.foldl ?_ (fun _ _ _ => ?_)) | split)

theorem collide_foot {m : Nat} {z : State} (s : State) (w : Nat) (y : PortYWrite) (hm : 0x800694000 ||| m = m) (h0 : Foot m z s) :
    Foot m z (collide s w y) := by
  unfold collide
  try dsimp only
  repeat' (first | with_reducible assumption | exact Foot.sub (by decide) hm | with_reducible apply xmPut_foot | with_reducible apply Foot.ite | (with_reducible refine Foot.foldl ?_ (fun _ _ _ => ?_)) | (fail_if_no_progress (with_reducible refine Foot.up_xmFirst_xmCollisions ?_ (Foot.sub (by decide) hm))) | split)

end Sys2Proof.Machine
end

