-- ==== Sys2Proof/Laws/FootNoc.lean ====
section
/-! SUPPORT. Which components of the state each operation of Machine/Noc.lean can change. -/

set_option linter.unusedTactic false
set_option linter.unusedVariables false
set_option linter.unreachableTactic false

namespace Sys2Proof.Machine

theorem fly_foot {m : Nat} {z : State} (s : State) (m0 n : NiId) (p : Pkt) (cmd : Instr) (hm : 0x800000 ||| m = m) (h0 : Foot m z s) :
    Foot m z (fly s m0 n p cmd) := by
  unfold fly
  try dsimp only
  repeat' (first | with_reducible assumption | exact Foot.sub (by decide) hm | with_reducible apply Foot.ite | (with_reducible refine Foot.foldl ?_ (fun _ _ _ => ?_)) | (fail_if_no_progress (with_reducible refine Foot.up_noc ?_ (Foot.sub (by decide) hm))) | split)

theorem launch_foot {m : Nat} {z : State} (s : State) (m0 n : NiId) (p : Pkt) (write : Bool) (hm : 0x800000 ||| m = m) (h0 : Foot m z s) :
    Foot m z (launch s m0 n p write) := by
  unfold launch
  try dsimp only
  repeat' (first | with_reducible assumption | exact Foot.sub (by decide) hm | with_reducible apply fly_foot | with_reducible apply Foot.ite | (with_reducible refine Foot.foldl ?_ (fun _ _ _ => ?_)) | split)

theorem numbered_foot {m : Nat} {z : State} (s : State) (m0 n : NiId) (p : Pkt) (write : Bool) (hm : 0x800000 ||| m = m) (h0 : Foot m z s) :
    Foot m z (numbered s m0 n p write).2 := by
  unfold numbered
  try dsimp only
  repeat' (first | with_reducible assumption | exact Foot.sub (by decide) hm | with_reducible apply Foot.ite | (with_reducible refine Foot.foldl ?_ (fun _ _ _ => ?_)) | (fail_if_no_progress (with_reducible refine Foot.up_noc ?_ (Foot.sub (by decide) hm))) | split)

theorem logTransfer_foot {m : Nat} {z : State} (s : State) (n : NiId) (a : Nat) (hm : 0x800000000 ||| m = m) (h0 : Foot m z s) :
    Foot m z (logTransfer s n a) := by
  unfold logTransfer
  try dsimp only
  repeat' (first | with_reducible assumption | exact Foot.sub (by decide) hm | with_reducible apply logEvent_foot | with_reducible apply Foot.ite | (with_reducible refine Foot.foldl ?_ (fun _ _ _ => ?_)) | split)

theorem seqError_foot {m : Nat} {z : State} (s : State) (q : SeqId) (tid : BitVec 12) (loss : Bool) (hm : 0x88CB5EBF5 ||| m = m) (h0 : Foot m z s) :
    Foot m z (seqError s q tid loss) := by
  unfold seqError
  try dsimp only
  repeat' (first | with_reducible assumption | exact Foot.sub (by decide) hm | with_reducible apply modSqr_foot | with_reducible apply bump_foot | with_reducible apply recompute_foot | with_reducible apply checkMark_foot | with_reducible apply raiseTrap_foot | with_reducible apply Foot.ite | (with_reducible refine Foot.foldl ?_ (fun _ _ _ => ?_)) | split)

theorem ingestLost_foot {m : Nat} {z : State} (s : State) (t : Tenant) (hm : 0x88CB5EBF5 ||| m = m) (h0 : Foot m z s) :
    Foot m z (ingestLost s t) := by
  unfold ingestLost
  try dsimp only
  repeat' (first | with_reducible assumption | exact Foot.sub (by decide) hm | with_reducible apply abortOrders_foot | with_reducible apply Foot.ite | (with_reducible refine Foot.foldl ?_ (fun _ _ _ => ?_)) | split)

theorem moverLost_foot {m : Nat} {z : State} (s : State) (o : OutReq) (a : Nat) (hm : 0x88CB5EBF5 ||| m = m) (h0 : Foot m z s) :
    Foot m z (moverLost s o a) := by
  unfold moverLost
  try dsimp only
  repeat' (first | with_reducible assumption | exact Foot.sub (by decide) hm | with_reducible apply loseCopy_foot | with_reducible apply abortRun_foot | with_reducible apply Foot.ite | (with_reducible refine Foot.foldl ?_ (fun _ _ _ => ?_)) | split)

theorem reissue_foot {m : Nat} {z : State} (s : State) (n : NiId) (o : OutReq) (hm : 0x800000 ||| m = m) (h0 : Foot m z s) :
    Foot m z (reissue s n o) := by
  unfold reissue
  try dsimp only
  repeat' (first | with_reducible assumption | exact Foot.sub (by decide) hm | with_reducible apply modNi_foot | with_reducible apply launch_foot | with_reducible apply Foot.ite | (with_reducible refine Foot.foldl ?_ (fun _ _ _ => ?_)) | split)

theorem requesterError_foot {m : Nat} {z : State} (s : State) (n : NiId) (o : OutReq) (st : Half) (hm : 0x8ACB5EBF5 ||| m = m) (h0 : Foot m z s) :
    Foot m z (requesterError s n o st) := by
  unfold requesterError
  try dsimp only
  repeat' (first | with_reducible assumption | exact Foot.sub (by decide) hm | with_reducible apply answer_foot | with_reducible apply logTransfer_foot | with_reducible apply seqError_foot | with_reducible apply ingestLost_foot | with_reducible apply moverLost_foot | with_reducible apply reissue_foot | with_reducible apply Foot.ite | (with_reducible refine Foot.foldl ?_ (fun _ _ _ => ?_)) | split)

theorem endRequest_foot {m : Nat} {z : State} (s : State) (n : NiId) (o : OutReq) (st : Half) (hm : 0x8ACB5EBF5 ||| m = m) (h0 : Foot m z s) :
    Foot m z (endRequest s n o st) := by
  unfold endRequest
  try dsimp only
  repeat' (first | with_reducible assumption | exact Foot.sub (by decide) hm | with_reducible apply requesterError_foot | with_reducible apply Foot.ite | (with_reducible refine Foot.foldl ?_ (fun _ _ _ => ?_)) | (fail_if_no_progress (with_reducible refine Foot.up_noc ?_ (Foot.sub (by decide) hm))) | split)

theorem noteRequest_foot {m : Nat} {z : State} (s : State) (m0 n : NiId) (p : Pkt) (write : Bool) (hm : 0x800000 ||| m = m) (h0 : Foot m z s) :
    Foot m z (noteRequest s m0 n p write) := by
  unfold noteRequest
  try dsimp only
  repeat' (first | with_reducible assumption | exact Foot.sub (by decide) hm | with_reducible apply modNi_foot | with_reducible apply Foot.ite | (with_reducible refine Foot.foldl ?_ (fun _ _ _ => ?_)) | split)

theorem nackRequest_foot {m : Nat} {z : State} (s : State) (n : NiId) (p : Pkt) (r : FenceReason) (hm : 0x80800000 ||| m = m) (h0 : Foot m z s) :
    Foot m z (nackRequest s n p r) := by
  unfold nackRequest
  try dsimp only
  repeat' (first | with_reducible assumption | exact Foot.sub (by decide) hm | with_reducible apply openGate_foot | with_reducible apply respond_foot | with_reducible apply Foot.ite | (with_reducible refine Foot.foldl ?_ (fun _ _ _ => ?_)) | (fail_if_no_progress (with_reducible refine Foot.up_noc ?_ (Foot.sub (by decide) hm))) | split)

theorem serveRequest_foot {m : Nat} {z : State} (s : State) (n m0 : NiId) (p : Pkt) (write : Bool) (serve : State → State) (hm : 0x800800000 ||| m = m) (h0 : Foot m z s)(hs : Foot m z (serve s)) :
    Foot m z (serveRequest s n m0 p write serve) := by
  unfold serveRequest
  try dsimp only
  repeat' (first | with_reducible assumption | exact Foot.sub (by decide) hm | with_reducible apply logEvent_foot | with_reducible apply serve_foot | with_reducible apply respond_foot | with_reducible apply Foot.ite | (with_reducible refine Foot.foldl ?_ (fun _ _ _ => ?_)) | with_reducible apply hs | split)

theorem receive_foot {m : Nat} {z : State} (s : State) (m0 n : NiId) (p : Pkt) (write : Bool) (serve : State → State) (hm : 0x880800000 ||| m = m) (h0 : Foot m z s)(hs : Foot m z (serve s)) :
    Foot m z (receive s m0 n p write serve) := by
  unfold receive
  try dsimp only
  repeat' (first | with_reducible assumption | exact Foot.sub (by decide) hm | with_reducible apply serve_foot | with_reducible apply nackRequest_foot | with_reducible apply serveRequest_foot | with_reducible apply Foot.ite | (with_reducible refine Foot.foldl ?_ (fun _ _ _ => ?_)) | intro _ | with_reducible apply hs | split)

theorem serveRead_foot {m : Nat} {z : State} (p : Pkt) (w : ReadCycle) (n m0 : NiId) (s : State) (hm : 0x8ACB5EBF5 ||| m = m) (h0 : Foot m z s) :
    Foot m z (serveRead p w n m0 s) := by
  unfold serveRead
  try dsimp only
  repeat' (first | with_reducible assumption | exact Foot.sub (by decide) hm | with_reducible apply respond_foot | with_reducible apply tileRead_foot | with_reducible apply memRead_foot | with_reducible apply Foot.ite | (with_reducible refine Foot.foldl ?_ (fun _ _ _ => ?_)) | split)

theorem serveWrite_foot {m : Nat} {z : State} (p : Pkt) (portY : Option PortYWrite) (n : NiId) (s : State) (hm : 0x800E9E070 ||| m = m) (h0 : Foot m z s) :
    Foot m z (serveWrite p portY n s) := by
  unfold serveWrite
  try dsimp only
  repeat' (first | with_reducible assumption | exact Foot.sub (by decide) hm | with_reducible apply respond_foot | with_reducible apply tileWrite_foot | with_reducible apply memWrite_foot | with_reducible apply collide_foot | with_reducible apply Foot.ite | (with_reducible refine Foot.foldl ?_ (fun _ _ _ => ?_)) | split)

theorem dropRequest_foot {m : Nat} {z : State} (s : State) (m0 : NiId) (tid : BitVec 12) (hm : 0x800000 ||| m = m) (h0 : Foot m z s) :
    Foot m z (dropRequest s m0 tid) := by
  unfold dropRequest
  try dsimp only
  repeat' (first | with_reducible assumption | exact Foot.sub (by decide) hm | with_reducible apply modNi_foot | with_reducible apply Foot.ite | (with_reducible refine Foot.foldl ?_ (fun _ _ _ => ?_)) | split)

theorem takeResponse_foot {m : Nat} {z : State} (s : State) (m0 : NiId) (p : Pkt) (eff : OutReq → State → State) (hm : 0x800000 ||| m = m) (h0 : Foot m z s)(hs : ∀ o u, Foot m z u → Foot m z (eff o u)) :
    Foot m z (takeResponse s m0 p eff) := by
  unfold takeResponse
  try dsimp only
  repeat' (first | with_reducible assumption | exact Foot.sub (by decide) hm | with_reducible apply dropRequest_foot | with_reducible apply Foot.ite | (with_reducible refine Foot.foldl ?_ (fun _ _ _ => ?_)) | (fail_if_no_progress (with_reducible refine Foot.up_noc ?_ (Foot.sub (by decide) hm))) | with_reducible apply hs | split)

theorem memDone_foot {m : Nat} {z : State} (s : State) (m0 : NiId) (p : Pkt) (hm : 0x100 ||| m = m) (h0 : Foot m z s) :
    Foot m z (memDone s m0 p) := by
  unfold memDone
  try dsimp only
  repeat' (first | with_reducible assumption | exact Foot.sub (by decide) hm | with_reducible apply modSqr_foot | with_reducible apply Foot.ite | (with_reducible refine Foot.foldl ?_ (fun _ _ _ => ?_)) | split)

theorem deliver_foot {m : Nat} {z : State} (f : Flight) (s : State) (hm : 0x8ACFDEBF5 ||| m = m) (h0 : Foot m z s) :
    Foot m z (deliver f s) := by
  unfold deliver
  try dsimp only
  repeat' (first | with_reducible assumption | exact Foot.sub (by decide) hm | with_reducible apply modNi_foot | with_reducible apply endRequest_foot | with_reducible apply receive_foot | with_reducible apply serveRead_foot | with_reducible apply serveWrite_foot | with_reducible apply takeResponse_foot | with_reducible apply memDone_foot | with_reducible apply Foot.ite | (with_reducible refine Foot.foldl ?_ (fun _ _ _ => ?_)) | intro _ | split)

theorem comeTo_foot {m : Nat} {z : State} (f : Flight) (s : State) (hm : 0x8ACFDEBF5 ||| m = m) (h0 : Foot m z s) :
    Foot m z (comeTo f s) :=
  arrive_foot _ _ _ _ _ (Foot.sub (by decide) hm) h0 fun _ _ h => deliver_foot _ _ (Foot.sub (by decide) hm) h

theorem resend_foot {m : Nat} {z : State} (s : State) (m0 repl : NiId) (o : OutReq) (hm : 0x800000 ||| m = m) (h0 : Foot m z s) :
    Foot m z (resend s m0 repl o) := by
  unfold resend
  try dsimp only
  repeat' (first | with_reducible assumption | exact Foot.sub (by decide) hm | with_reducible apply modNi_foot | with_reducible apply launch_foot | with_reducible apply numbered_foot | with_reducible apply Foot.ite | (with_reducible refine Foot.foldl ?_ (fun _ _ _ => ?_)) | split)

theorem fenceCleared_foot {m : Nat} {z : State} (s : State) (cleared repl : NiId) (lost : Bool) (hm : 0x8ACB5EBF5 ||| m = m) (h0 : Foot m z s) :
    Foot m z (fenceCleared s cleared repl lost) := by
  unfold fenceCleared
  try dsimp only
  repeat' (first | with_reducible assumption | exact Foot.sub (by decide) hm | with_reducible apply modNi_foot | with_reducible apply ingestClear_foot | with_reducible apply endRequest_foot | with_reducible apply resend_foot | with_reducible apply Foot.ite | (with_reducible refine Foot.foldl ?_ (fun _ _ _ => ?_)) | split)

theorem runNoc_foot {m : Nat} {z : State} (n : Nat) (s : State) (hm : 0x8ACFDEBF5 ||| m = m) (h0 : Foot m z s) :
    Foot m z (runNoc n s) := by
  induction n generalizing s with
  | zero => exact h0
  | succ n ih =>
    unfold runNoc
    dsimp only
    have h1 : Foot m z { s with noc := { s.noc with clears := [] } } := Foot.up_noc h0 (Foot.sub (by decide) hm)
    have h2 := Foot.foldl (f := fun u (c : NiId × NiId × Bool) => fenceCleared u c.1 c.2.1 c.2.2) (l := s.noc.clears) h1
      fun _ _ h => fenceCleared_foot _ _ _ _ (Foot.sub (by decide) hm) h
    have h3 := runMesh_foot comeTo (64 * ((s.noc.clears.foldl (fun u (c : NiId × NiId × Bool) => fenceCleared u c.1 c.2.1 c.2.2)
      { s with noc := { s.noc with clears := [] } }).noc.mesh.length + 1)) _ (Foot.sub (by decide) hm) h2
      fun _ _ h => comeTo_foot _ _ (Foot.sub (by decide) hm) h
    split
    · exact h3
    · exact ih _ h3

theorem nocMoves_foot {m : Nat} {z : State} (s : State) (hm : 0x8ACFDEBF5 ||| m = m) (h0 : Foot m z s) :
    Foot m z (nocMoves s) := by
  unfold nocMoves
  try dsimp only
  repeat' (first | with_reducible assumption | exact Foot.sub (by decide) hm | with_reducible apply runNoc_foot | with_reducible apply Foot.ite | (with_reducible refine Foot.foldl ?_ (fun _ _ _ => ?_)) | split)

theorem sendPkt_foot {m : Nat} {z : State} (s : State) (m0 n : NiId) (p : Pkt) (cmd : Instr) (hm : 0x8ACFDEBF5 ||| m = m) (h0 : Foot m z s) :
    Foot m z (sendPkt s m0 n p cmd) := by
  unfold sendPkt
  try dsimp only
  repeat' (first | with_reducible assumption | exact Foot.sub (by decide) hm | with_reducible apply fly_foot | with_reducible apply comeTo_foot | with_reducible apply nocMoves_foot | with_reducible apply Foot.ite | (with_reducible refine Foot.foldl ?_ (fun _ _ _ => ?_)) | split)

theorem request_foot {m : Nat} {z : State} (s : State) (p : Pkt) (write : Bool) (cmd : Pkt → Instr) (hm : 0x8ACFDEBF5 ||| m = m) (h0 : Foot m z s) :
    Foot m z (request s p write cmd) := by
  unfold request
  try dsimp only
  repeat' (first | with_reducible assumption | exact Foot.sub (by decide) hm | with_reducible apply modNi_foot | with_reducible apply loseSn_foot | with_reducible apply badHeader_foot | with_reducible apply respond_foot | with_reducible apply numbered_foot | with_reducible apply endRequest_foot | with_reducible apply noteRequest_foot | with_reducible apply dropRequest_foot | with_reducible apply sendPkt_foot | with_reducible apply Foot.ite | (with_reducible refine Foot.foldl ?_ (fun _ _ _ => ?_)) | split)

theorem clearFirst_foot {m : Nat} {z : State} (s : State) (hm : 0x80000 ||| m = m) (h0 : Foot m z s) :
    Foot m z (clearFirst s) := by
  unfold clearFirst
  try dsimp only
  repeat' (first | with_reducible assumption | exact Foot.sub (by decide) hm | with_reducible apply Foot.ite | (with_reducible refine Foot.foldl ?_ (fun _ _ _ => ?_)) | (fail_if_no_progress (with_reducible refine Foot.up_xmFirst ?_ (Foot.sub (by decide) hm))) | split)

theorem execRead_foot {m : Nat} {z : State} (p : Pkt) (w : ReadCycle) (s : State) (hm : 0x8ACFDEBF5 ||| m = m) (h0 : Foot m z s) :
    ∃ u, execRead p w s = .next u ∧ Foot m z u := by
  unfold execRead
  try dsimp only
  repeat' (first | (with_reducible refine ⟨_, rfl, ?_⟩) | with_reducible assumption | exact Foot.sub (by decide) hm | with_reducible apply bump_foot | with_reducible apply takeMark_foot | with_reducible apply request_foot | with_reducible apply clearFirst_foot | with_reducible apply Foot.ite | (with_reducible refine Foot.foldl ?_ (fun _ _ _ => ?_)) | split)

theorem execWrite_foot {m : Nat} {z : State} (p : Pkt) (portY : Option PortYWrite) (s : State) (hm : 0x8ACFDEBF5 ||| m = m) (h0 : Foot m z s) :
    ∃ u, execWrite p portY s = .next u ∧ Foot m z u := by
  unfold execWrite
  try dsimp only
  repeat' (first | (with_reducible refine ⟨_, rfl, ?_⟩) | with_reducible assumption | exact Foot.sub (by decide) hm | with_reducible apply bump_foot | with_reducible apply takeMark_foot | with_reducible apply request_foot | with_reducible apply clearFirst_foot | with_reducible apply Foot.ite | (with_reducible refine Foot.foldl ?_ (fun _ _ _ => ?_)) | split)

theorem response_foot {m : Nat} {z : State} (s : State) (p : Pkt) (ty : BitVec 4) (cmd : Pkt → Instr) (hm : 0x8ACFDEBF5 ||| m = m) (h0 : Foot m z s) :
    Foot m z (response s p ty cmd) := by
  unfold response
  try dsimp only
  repeat' (first | with_reducible assumption | exact Foot.sub (by decide) hm | with_reducible apply modNi_foot | with_reducible apply badHeader_foot | with_reducible apply sendPkt_foot | with_reducible apply Foot.ite | (with_reducible refine Foot.foldl ?_ (fun _ _ _ => ?_)) | split)

theorem execReadResp_foot {m : Nat} {z : State} (p : Pkt) (s : State) (hm : 0x8ACFDEBF5 ||| m = m) (h0 : Foot m z s) :
    ∃ u, execReadResp p s = .next u ∧ Foot m z u := by
  unfold execReadResp
  try dsimp only
  repeat' (first | (with_reducible refine ⟨_, rfl, ?_⟩) | with_reducible assumption | exact Foot.sub (by decide) hm | with_reducible apply takeMark_foot | with_reducible apply response_foot | with_reducible apply Foot.ite | (with_reducible refine Foot.foldl ?_ (fun _ _ _ => ?_)) | split)

theorem execWriteResp_foot {m : Nat} {z : State} (p : Pkt) (s : State) (hm : 0x8ACFDEBF5 ||| m = m) (h0 : Foot m z s) :
    ∃ u, execWriteResp p s = .next u ∧ Foot m z u := by
  unfold execWriteResp
  try dsimp only
  repeat' (first | (with_reducible refine ⟨_, rfl, ?_⟩) | with_reducible assumption | exact Foot.sub (by decide) hm | with_reducible apply takeMark_foot | with_reducible apply response_foot | with_reducible apply Foot.ite | (with_reducible refine Foot.foldl ?_ (fun _ _ _ => ?_)) | split)

theorem execNackFenced_foot {m : Nat} {z : State} (p : Pkt) (s : State) (hm : 0x8ACFDEBF5 ||| m = m) (h0 : Foot m z s) :
    ∃ u, execNackFenced p s = .next u ∧ Foot m z u := by
  unfold execNackFenced
  try dsimp only
  repeat' (first | (with_reducible refine ⟨_, rfl, ?_⟩) | with_reducible assumption | exact Foot.sub (by decide) hm | with_reducible apply takeMark_foot | with_reducible apply response_foot | with_reducible apply Foot.ite | (with_reducible refine Foot.foldl ?_ (fun _ _ _ => ?_)) | split)

theorem execErrorResp_foot {m : Nat} {z : State} (p : Pkt) (s : State) (hm : 0x8ACFDEBF5 ||| m = m) (h0 : Foot m z s) :
    ∃ u, execErrorResp p s = .next u ∧ Foot m z u := by
  unfold execErrorResp
  try dsimp only
  repeat' (first | (with_reducible refine ⟨_, rfl, ?_⟩) | with_reducible assumption | exact Foot.sub (by decide) hm | with_reducible apply takeMark_foot | with_reducible apply response_foot | with_reducible apply Foot.ite | (with_reducible refine Foot.foldl ?_ (fun _ _ _ => ?_)) | split)

theorem control_foot {m : Nat} {z : State} (s : State) (p : Pkt) (ty : BitVec 4) (eff : State → State) (hm : 0x800000000 ||| m = m) (h0 : Foot m z s)(hs : ∀ u, Foot m z u → Foot m z (eff u)) :
    Foot m z (control s p ty eff) := by
  unfold control
  try dsimp only
  repeat' (first | with_reducible assumption | exact Foot.sub (by decide) hm | with_reducible apply badHeader_foot | with_reducible apply Foot.ite | (with_reducible refine Foot.foldl ?_ (fun _ _ _ => ?_)) | with_reducible apply hs | split)

theorem execFenceClear_foot {m : Nat} {z : State} (cleared replacement : Byte) (p : Pkt) (s : State) (hm : 0x8ACFDEBF5 ||| m = m) (h0 : Foot m z s) :
    ∃ u, execFenceClear cleared replacement p s = .next u ∧ Foot m z u := by
  unfold execFenceClear
  try dsimp only
  repeat' (first | (with_reducible refine ⟨_, rfl, ?_⟩) | with_reducible assumption | exact Foot.sub (by decide) hm | with_reducible apply takeMark_foot | with_reducible apply fenceCleared_foot | with_reducible apply nocMoves_foot | with_reducible apply control_foot | with_reducible apply Foot.ite | (with_reducible refine Foot.foldl ?_ (fun _ _ _ => ?_)) | intro _ | split)

theorem execRequestTimeout_foot {m : Nat} {z : State} (n : NiId) (tid : BitVec 12) (s : State) (hm : 0x8ACB5EBF5 ||| m = m) (h0 : Foot m z s) :
    ∃ u, execRequestTimeout n tid s = .next u ∧ Foot m z u := by
  unfold execRequestTimeout
  try dsimp only
  repeat' (first | (with_reducible refine ⟨_, rfl, ?_⟩) | with_reducible assumption | exact Foot.sub (by decide) hm | with_reducible apply takeMark_foot | with_reducible apply endRequest_foot | with_reducible apply dropRequest_foot | with_reducible apply Foot.ite | (with_reducible refine Foot.foldl ?_ (fun _ _ _ => ?_)) | (fail_if_no_progress (with_reducible refine Foot.up_noc ?_ (Foot.sub (by decide) hm))) | split)

theorem execSluiceClose_foot {m : Nat} {z : State} (p : Pkt) (r : FenceReason) (s : State) (hm : 0x800800000 ||| m = m) (h0 : Foot m z s) :
    ∃ u, execSluiceClose p r s = .next u ∧ Foot m z u := by
  unfold execSluiceClose
  try dsimp only
  repeat' (first | (with_reducible refine ⟨_, rfl, ?_⟩) | with_reducible assumption | exact Foot.sub (by decide) hm | with_reducible apply closeNi_foot | with_reducible apply control_foot | with_reducible apply Foot.ite | (with_reducible refine Foot.foldl ?_ (fun _ _ _ => ?_)) | intro _ | split)

theorem closeGate_foot {m : Nat} {z : State} (s : State) (n : NiId) (hm : 0x80800000 ||| m = m) (h0 : Foot m z s) :
    Foot m z (closeGate s n) := by
  unfold closeGate
  try dsimp only
  repeat' (first | with_reducible assumption | exact Foot.sub (by decide) hm | with_reducible apply setNiSt_foot | with_reducible apply openGate_foot | with_reducible apply Foot.ite | (with_reducible refine Foot.foldl ?_ (fun _ _ _ => ?_)) | (fail_if_no_progress (with_reducible refine Foot.up_clk ?_ (Foot.sub (by decide) hm))) | split)

theorem afterDrain_foot {m : Nat} {z : State} (s : State) (n : NiId) (r : FenceReason) (hm : 0x8888001F4 ||| m = m) (h0 : Foot m z s) :
    Foot m z (afterDrain s n r) := by
  unfold afterDrain
  try dsimp only
  repeat' (first | with_reducible assumption | exact Foot.sub (by decide) hm | with_reducible apply setNiSt_foot | with_reducible apply openNi_foot | with_reducible apply polderOff_foot | with_reducible apply rampDownStep_foot | with_reducible apply tileDrained_foot | with_reducible apply seqDrained_foot | with_reducible apply closeGate_foot | with_reducible apply Foot.ite | (with_reducible refine Foot.foldl ?_ (fun _ _ _ => ?_)) | split)

theorem execNiDrained_foot {m : Nat} {z : State} (n : NiId) (s : State) (hm : 0x8ACFDEBF5 ||| m = m) (h0 : Foot m z s) :
    ∃ u, execNiDrained n s = .next u ∧ Foot m z u := by
  unfold execNiDrained
  try dsimp only
  repeat' (first | (with_reducible refine ⟨_, rfl, ?_⟩) | with_reducible assumption | exact Foot.sub (by decide) hm | with_reducible apply setNiSt_foot | with_reducible apply takeMark_foot | with_reducible apply quiet_foot | with_reducible apply nocMoves_foot | with_reducible apply afterDrain_foot | with_reducible apply Foot.ite | (with_reducible refine Foot.foldl ?_ (fun _ _ _ => ?_)) | split)

theorem nackEarly_foot {m : Nat} {z : State} (s : State) (n : NiId) (hm : 0x80800000 ||| m = m) (h0 : Foot m z s) :
    Foot m z (nackEarly s n) := by
  unfold nackEarly
  try dsimp only
  repeat' (first | with_reducible assumption | exact Foot.sub (by decide) hm | with_reducible apply modNi_foot | with_reducible apply nackRequest_foot | with_reducible apply Foot.ite | (with_reducible refine Foot.foldl ?_ (fun _ _ _ => ?_)) | split)

theorem execSluiceFaultFence_foot {m : Nat} {z : State} (n : NiId) (s : State) (hm : 0x8ACFDEBF5 ||| m = m) (h0 : Foot m z s) :
    ∃ u, execSluiceFaultFence n s = .next u ∧ Foot m z u := by
  unfold execSluiceFaultFence
  try dsimp only
  repeat' (first | (with_reducible refine ⟨_, rfl, ?_⟩) | with_reducible assumption | exact Foot.sub (by decide) hm | with_reducible apply setNiSt_foot | with_reducible apply takeMark_foot | with_reducible apply nocMoves_foot | with_reducible apply afterDrain_foot | with_reducible apply nackEarly_foot | with_reducible apply Foot.ite | (with_reducible refine Foot.foldl ?_ (fun _ _ _ => ?_)) | split)

theorem setRtrSvc_foot {m : Nat} {z : State} (s : State) (r : RouterId) (v : RouterService) (hm : 0x800800000 ||| m = m) (h0 : Foot m z s) :
    Foot m z (setRtrSvc s r v) := by
  unfold setRtrSvc
  try dsimp only
  repeat' (first | with_reducible assumption | exact Foot.sub (by decide) hm | with_reducible apply modRtr_foot | with_reducible apply logEvent_foot | with_reducible apply Foot.ite | (with_reducible refine Foot.foldl ?_ (fun _ _ _ => ?_)) | split)

theorem notifyAll_foot {m : Nat} {z : State} (s : State) (r : RouterId) (on : Bool) (hm : 0x800000 ||| m = m) (h0 : Foot m z s) :
    Foot m z (notifyAll s r on) := by
  unfold notifyAll
  try dsimp only
  repeat' (first | with_reducible assumption | exact Foot.sub (by decide) hm | with_reducible apply modRtr_foot | with_reducible apply Foot.ite | (with_reducible refine Foot.foldl ?_ (fun _ _ _ => ?_)) | split)

theorem reconfigureRouter_foot {m : Nat} {z : State} (s : State) (r : RouterId) (f : Router → Router) (hm : 0x800800000 ||| m = m) (h0 : Foot m z s) :
    Foot m z (reconfigureRouter s r f) := by
  unfold reconfigureRouter
  try dsimp only
  repeat' (first | with_reducible assumption | exact Foot.sub (by decide) hm | with_reducible apply modRtr_foot | with_reducible apply setRtrSvc_foot | with_reducible apply notifyAll_foot | with_reducible apply Foot.ite | (with_reducible refine Foot.foldl ?_ (fun _ _ _ => ?_)) | split)

theorem noteFence_foot {m : Nat} {z : State} (s : State) (r : RouterId) (d : Dir) (hm : 0x800800000 ||| m = m) (h0 : Foot m z s) :
    Foot m z (noteFence s r d) := by
  unfold noteFence
  try dsimp only
  repeat' (first | with_reducible assumption | exact Foot.sub (by decide) hm | with_reducible apply modRtr_foot | with_reducible apply reconfigureRouter_foot | with_reducible apply Foot.ite | (with_reducible refine Foot.foldl ?_ (fun _ _ _ => ?_)) | split)

theorem fenceNotices_foot {m : Nat} {z : State} (s : State) (r : RouterId) (hm : 0x800800000 ||| m = m) (h0 : Foot m z s) :
    Foot m z (fenceNotices s r) := by
  unfold fenceNotices
  try dsimp only
  repeat' (first | with_reducible assumption | exact Foot.sub (by decide) hm | with_reducible apply noteFence_foot | with_reducible apply Foot.ite | (with_reducible refine Foot.foldl ?_ (fun _ _ _ => ?_)) | split)

theorem changeMode_foot {m : Nat} {z : State} (s : State) (east : Bool) (hm : 0x800800000 ||| m = m) (h0 : Foot m z s) :
    Foot m z (changeMode s east) := by
  unfold changeMode
  try dsimp only
  repeat' (first | with_reducible assumption | exact Foot.sub (by decide) hm | with_reducible apply reconfigureRouter_foot | with_reducible apply Foot.ite | (with_reducible refine Foot.foldl ?_ (fun _ _ _ => ?_)) | (fail_if_no_progress (with_reducible refine Foot.up_noc ?_ (Foot.sub (by decide) hm))) | split)

theorem losePackets_foot {m : Nat} {z : State} (s : State) (r : RouterId) (hm : 0x800000 ||| m = m) (h0 : Foot m z s) :
    Foot m z (losePackets s r) := by
  unfold losePackets
  try dsimp only
  repeat' (first | with_reducible assumption | exact Foot.sub (by decide) hm | with_reducible apply dropFlight_foot | with_reducible apply loseSn_foot | with_reducible apply Foot.ite | (with_reducible refine Foot.foldl ?_ (fun _ _ _ => ?_)) | split)

theorem moveAttachment_foot {m : Nat} {z : State} (s : State) (a b : NiId) (f : Noc → Noc) (hm : 0x800000 ||| m = m) (h0 : Foot m z s) :
    Foot m z (moveAttachment s a b f) := by
  unfold moveAttachment
  try dsimp only
  repeat' (first | with_reducible assumption | exact Foot.sub (by decide) hm | with_reducible apply modNi_foot | with_reducible apply sendClear_foot | with_reducible apply launch_foot | with_reducible apply numbered_foot | with_reducible apply Foot.ite | (with_reducible refine Foot.foldl ?_ (fun _ _ _ => ?_)) | (fail_if_no_progress (with_reducible refine Foot.up_noc ?_ (Foot.sub (by decide) hm))) | split)

theorem blockFault_foot {m : Nat} {z : State} (s : State) (n : NiId) (hm : 0xEECB5EFFD ||| m = m) (h0 : Foot m z s) :
    Foot m z (blockFault s n) := by
  unfold blockFault
  try dsimp only
  repeat' (first | with_reducible assumption | exact Foot.sub (by decide) hm | with_reducible apply modTile_foot | with_reducible apply setTileSvc_foot | with_reducible apply tileFault_foot | with_reducible apply setSeqSvc_foot | with_reducible apply seqFault_foot | with_reducible apply pairFault_foot | with_reducible apply memFault_foot | with_reducible apply ctrlFault_foot | with_reducible apply moveAttachment_foot | with_reducible apply Foot.ite | (with_reducible refine Foot.foldl ?_ (fun _ _ _ => ?_)) | split)

theorem endBetween_foot {m : Nat} {z : State} (s : State) (m0 n : NiId) (hm : 0x8ACB5EBF5 ||| m = m) (h0 : Foot m z s) :
    Foot m z (endBetween s m0 n) := by
  unfold endBetween
  try dsimp only
  repeat' (first | with_reducible assumption | exact Foot.sub (by decide) hm | with_reducible apply modNi_foot | with_reducible apply endRequest_foot | with_reducible apply Foot.ite | (with_reducible refine Foot.foldl ?_ (fun _ _ _ => ?_)) | split)

theorem pathsLost_foot {m : Nat} {z : State} (s : State) (r : RouterId) (hm : 0x8ACB5EBF5 ||| m = m) (h0 : Foot m z s) :
    Foot m z (pathsLost s r) := by
  unfold pathsLost
  try dsimp only
  repeat' (first | with_reducible assumption | exact Foot.sub (by decide) hm | with_reducible apply logEvent_foot | with_reducible apply abortAllOrders_foot | with_reducible apply endBetween_foot | with_reducible apply Foot.ite | (with_reducible refine Foot.foldl ?_ (fun _ _ _ => ?_)) | split)

theorem routerFault_foot {m : Nat} {z : State} (s : State) (r : RouterId) (hm : 0xEECFDEFFD ||| m = m) (h0 : Foot m z s) :
    Foot m z (routerFault s r) := by
  unfold routerFault
  try dsimp only
  repeat' (first | with_reducible assumption | exact Foot.sub (by decide) hm | with_reducible apply modRtr_foot | with_reducible apply partFault_foot | with_reducible apply setNiSt_foot | with_reducible apply nocMoves_foot | with_reducible apply setRtrSvc_foot | with_reducible apply fenceNotices_foot | with_reducible apply changeMode_foot | with_reducible apply losePackets_foot | with_reducible apply blockFault_foot | with_reducible apply pathsLost_foot | with_reducible apply Foot.ite | (with_reducible refine Foot.foldl ?_ (fun _ _ _ => ?_)) | split)

theorem execRouterControlNotice_foot {m : Nat} {z : State} (r : RouterId) (p : Pkt) (k : Notice) (s : State) (hm : 0x8ACFDEBF5 ||| m = m) (h0 : Foot m z s) :
    ∃ u, execRouterControlNotice r p k s = .next u ∧ Foot m z u := by
  unfold execRouterControlNotice
  try dsimp only
  repeat' (first | (with_reducible refine ⟨_, rfl, ?_⟩) | with_reducible assumption | exact Foot.sub (by decide) hm | with_reducible apply modRtr_foot | with_reducible apply takeMark_foot | with_reducible apply nocMoves_foot | with_reducible apply control_foot | with_reducible apply noteFence_foot | with_reducible apply Foot.ite | (with_reducible refine Foot.foldl ?_ (fun _ _ _ => ?_)) | intro _ | split)

theorem execFlitParityReplay_foot {m : Nat} {z : State} (r : RouterId) (again : Bool) (s : State) (hm : 0xEECFDEFFD ||| m = m) (h0 : Foot m z s) :
    ∃ u, execFlitParityReplay r again s = .next u ∧ Foot m z u := by
  unfold execFlitParityReplay
  try dsimp only
  repeat' (first | (with_reducible refine ⟨_, rfl, ?_⟩) | with_reducible assumption | exact Foot.sub (by decide) hm | with_reducible apply modRtr_foot | with_reducible apply takeMark_foot | with_reducible apply routerFault_foot | with_reducible apply Foot.ite | (with_reducible refine Foot.foldl ?_ (fun _ _ _ => ?_)) | (fail_if_no_progress (with_reducible refine Foot.up_noc ?_ (Foot.sub (by decide) hm))) | split)

theorem execRouterQuiesceComplete_foot {m : Nat} {z : State} (r : RouterId) (s : State) (hm : 0x8ACFDEBF5 ||| m = m) (h0 : Foot m z s) :
    ∃ u, execRouterQuiesceComplete r s = .next u ∧ Foot m z u := by
  unfold execRouterQuiesceComplete
  try dsimp only
  repeat' (first | (with_reducible refine ⟨_, rfl, ?_⟩) | with_reducible assumption | exact Foot.sub (by decide) hm | with_reducible apply modRtr_foot | with_reducible apply takeMark_foot | with_reducible apply nocMoves_foot | with_reducible apply setRtrSvc_foot | with_reducible apply notifyAll_foot | with_reducible apply Foot.ite | (with_reducible refine Foot.foldl ?_ (fun _ _ _ => ?_)) | split)

theorem execRouterQuiesceTimeout_foot {m : Nat} {z : State} (r : RouterId) (s : State) (hm : 0xEECFDEFFD ||| m = m) (h0 : Foot m z s) :
    ∃ u, execRouterQuiesceTimeout r s = .next u ∧ Foot m z u := by
  unfold execRouterQuiesceTimeout
  try dsimp only
  repeat' (first | (with_reducible refine ⟨_, rfl, ?_⟩) | with_reducible assumption | exact Foot.sub (by decide) hm | with_reducible apply takeMark_foot | with_reducible apply routerFault_foot | with_reducible apply Foot.ite | (with_reducible refine Foot.foldl ?_ (fun _ _ _ => ?_)) | split)

theorem execRouterStallDetect_foot {m : Nat} {z : State} (r : RouterId) (s : State) (hm : 0xEECFDEFFD ||| m = m) (h0 : Foot m z s) :
    ∃ u, execRouterStallDetect r s = .next u ∧ Foot m z u := by
  unfold execRouterStallDetect
  try dsimp only
  repeat' (first | (with_reducible refine ⟨_, rfl, ?_⟩) | with_reducible assumption | exact Foot.sub (by decide) hm | with_reducible apply takeMark_foot | with_reducible apply routerFault_foot | with_reducible apply Foot.ite | (with_reducible refine Foot.foldl ?_ (fun _ _ _ => ?_)) | split)

end Sys2Proof.Machine
end

