-- ==== Sys2Proof/Laws/FootScalar.lean ====
section
/-! SUPPORT. Which components of the state each operation of Machine/Scalar.lean can change. -/

set_option linter.unusedTactic false
set_option linter.unusedVariables false
set_option linter.unreachableTactic false

namespace Sys2Proof.Machine

theorem scalarFn_foot {m : Nat} {z : State} (s : State) (t : Tenant) (fn : Nat) (f : FmtS) (op : Word → Word → Word) (hm : 0x88CB5EBF5 ||| m = m) (h0 : Foot m z s) :
    Foot m z (scalarFn s t fn f op) := by
  unfold scalarFn
  try dsimp only
  repeat' (first | with_reducible assumption | exact Foot.sub (by decide) hm | with_reducible apply setSreg_foot | with_reducible apply runAis_foot | with_reducible apply finish_foot | with_reducible apply Foot.ite | (with_reducible refine Foot.foldl ?_ (fun _ _ _ => ?_)) | intro _ | split)

theorem execSadd_foot {m : Nat} {z : State} (t : Tenant) (f : FmtS) (s : State) (hm : 0x88CB5EBF5 ||| m = m) (h0 : Foot m z s) :
    ∃ u, execSadd t f s = .next u ∧ Foot m z u := by
  unfold execSadd
  try dsimp only
  repeat' (first | (with_reducible refine ⟨_, rfl, ?_⟩) | with_reducible assumption | exact Foot.sub (by decide) hm | with_reducible apply scalarFn_foot | with_reducible apply Foot.ite | (with_reducible refine Foot.foldl ?_ (fun _ _ _ => ?_)) | split)

theorem execSsub_foot {m : Nat} {z : State} (t : Tenant) (f : FmtS) (s : State) (hm : 0x88CB5EBF5 ||| m = m) (h0 : Foot m z s) :
    ∃ u, execSsub t f s = .next u ∧ Foot m z u := by
  unfold execSsub
  try dsimp only
  repeat' (first | (with_reducible refine ⟨_, rfl, ?_⟩) | with_reducible assumption | exact Foot.sub (by decide) hm | with_reducible apply scalarFn_foot | with_reducible apply Foot.ite | (with_reducible refine Foot.foldl ?_ (fun _ _ _ => ?_)) | split)

theorem execSand_foot {m : Nat} {z : State} (t : Tenant) (f : FmtS) (s : State) (hm : 0x88CB5EBF5 ||| m = m) (h0 : Foot m z s) :
    ∃ u, execSand t f s = .next u ∧ Foot m z u := by
  unfold execSand
  try dsimp only
  repeat' (first | (with_reducible refine ⟨_, rfl, ?_⟩) | with_reducible assumption | exact Foot.sub (by decide) hm | with_reducible apply scalarFn_foot | with_reducible apply Foot.ite | (with_reducible refine Foot.foldl ?_ (fun _ _ _ => ?_)) | split)

theorem execSor_foot {m : Nat} {z : State} (t : Tenant) (f : FmtS) (s : State) (hm : 0x88CB5EBF5 ||| m = m) (h0 : Foot m z s) :
    ∃ u, execSor t f s = .next u ∧ Foot m z u := by
  unfold execSor
  try dsimp only
  repeat' (first | (with_reducible refine ⟨_, rfl, ?_⟩) | with_reducible assumption | exact Foot.sub (by decide) hm | with_reducible apply scalarFn_foot | with_reducible apply Foot.ite | (with_reducible refine Foot.foldl ?_ (fun _ _ _ => ?_)) | split)

theorem execSxor_foot {m : Nat} {z : State} (t : Tenant) (f : FmtS) (s : State) (hm : 0x88CB5EBF5 ||| m = m) (h0 : Foot m z s) :
    ∃ u, execSxor t f s = .next u ∧ Foot m z u := by
  unfold execSxor
  try dsimp only
  repeat' (first | (with_reducible refine ⟨_, rfl, ?_⟩) | with_reducible assumption | exact Foot.sub (by decide) hm | with_reducible apply scalarFn_foot | with_reducible apply Foot.ite | (with_reducible refine Foot.foldl ?_ (fun _ _ _ => ?_)) | split)

theorem execSshl_foot {m : Nat} {z : State} (t : Tenant) (f : FmtS) (s : State) (hm : 0x88CB5EBF5 ||| m = m) (h0 : Foot m z s) :
    ∃ u, execSshl t f s = .next u ∧ Foot m z u := by
  unfold execSshl
  try dsimp only
  repeat' (first | (with_reducible refine ⟨_, rfl, ?_⟩) | with_reducible assumption | exact Foot.sub (by decide) hm | with_reducible apply scalarFn_foot | with_reducible apply Foot.ite | (with_reducible refine Foot.foldl ?_ (fun _ _ _ => ?_)) | split)

theorem execSshr_foot {m : Nat} {z : State} (t : Tenant) (f : FmtS) (s : State) (hm : 0x88CB5EBF5 ||| m = m) (h0 : Foot m z s) :
    ∃ u, execSshr t f s = .next u ∧ Foot m z u := by
  unfold execSshr
  try dsimp only
  repeat' (first | (with_reducible refine ⟨_, rfl, ?_⟩) | with_reducible assumption | exact Foot.sub (by decide) hm | with_reducible apply scalarFn_foot | with_reducible apply Foot.ite | (with_reducible refine Foot.foldl ?_ (fun _ _ _ => ?_)) | split)

theorem execSsra_foot {m : Nat} {z : State} (t : Tenant) (f : FmtS) (s : State) (hm : 0x88CB5EBF5 ||| m = m) (h0 : Foot m z s) :
    ∃ u, execSsra t f s = .next u ∧ Foot m z u := by
  unfold execSsra
  try dsimp only
  repeat' (first | (with_reducible refine ⟨_, rfl, ?_⟩) | with_reducible assumption | exact Foot.sub (by decide) hm | with_reducible apply scalarFn_foot | with_reducible apply Foot.ite | (with_reducible refine Foot.foldl ?_ (fun _ _ _ => ?_)) | split)

theorem execSli_foot {m : Nat} {z : State} (t : Tenant) (f : FmtS) (s : State) (hm : 0x88CB5EBF5 ||| m = m) (h0 : Foot m z s) :
    ∃ u, execSli t f s = .next u ∧ Foot m z u := by
  unfold execSli
  try dsimp only
  repeat' (first | (with_reducible refine ⟨_, rfl, ?_⟩) | with_reducible assumption | exact Foot.sub (by decide) hm | with_reducible apply setSreg_foot | with_reducible apply runAis_foot | with_reducible apply finish_foot | with_reducible apply Foot.ite | (with_reducible refine Foot.foldl ?_ (fun _ _ _ => ?_)) | intro _ | split)

theorem execSlda_foot {m : Nat} {z : State} (t : Tenant) (f : FmtS) (s : State) (hm : 0x88CB5EBF5 ||| m = m) (h0 : Foot m z s) :
    ∃ u, execSlda t f s = .next u ∧ Foot m z u := by
  unfold execSlda
  try dsimp only
  repeat' (first | (with_reducible refine ⟨_, rfl, ?_⟩) | with_reducible assumption | exact Foot.sub (by decide) hm | with_reducible apply setSreg_foot | with_reducible apply readAreas_foot | with_reducible apply abortOrders_foot | with_reducible apply runAis_foot | with_reducible apply finish_foot | with_reducible apply Foot.ite | (with_reducible refine Foot.foldl ?_ (fun _ _ _ => ?_)) | intro _ | split)

theorem execSgett_foot {m : Nat} {z : State} (t : Tenant) (f : FmtS) (s : State) (hm : 0x88CB5EBF5 ||| m = m) (h0 : Foot m z s) :
    ∃ u, execSgett t f s = .next u ∧ Foot m z u := by
  unfold execSgett
  try dsimp only
  repeat' (first | (with_reducible refine ⟨_, rfl, ?_⟩) | with_reducible assumption | exact Foot.sub (by decide) hm | with_reducible apply setSreg_foot | with_reducible apply trapFrameLost_foot | with_reducible apply runAis_foot | with_reducible apply finish_foot | with_reducible apply Foot.ite | (with_reducible refine Foot.foldl ?_ (fun _ _ _ => ?_)) | intro _ | split)

end Sys2Proof.Machine
end

