-- ==== Sys2Proof/Laws/FootIdle.lean ====
section
/-! SUPPORT. Which components of the state each operation of Machine/Idle.lean can change. -/

set_option linter.unusedTactic false
set_option linter.unusedVariables false
set_option linter.unreachableTactic false

namespace Sys2Proof.Machine

theorem tickSeq_foot {m : Nat} {z : State} (s : State) (q : SeqId) (hm : 0x900 ||| m = m) (h0 : Foot m z s) :
    Foot m z (tickSeq s q) := by
  unfold tickSeq
  try dsimp only
  repeat' (first | with_reducible assumption | exact Foot.sub (by decide) hm | with_reducible apply modSqr_foot | with_reducible apply modRun_foot | with_reducible apply Foot.ite | (with_reducible refine Foot.foldl ?_ (fun _ _ _ => ?_)) | split)

theorem idle_foot {m : Nat} {z : State} (s : State) (hm : 0x8BCFFEBF7 ||| m = m) (h0 : Foot m z s) :
    Foot m z (idle s) := by
  unfold idle
  try dsimp only
  repeat' (first | with_reducible assumption | exact Foot.sub (by decide) hm | with_reducible apply modCam_foot | with_reducible apply endEncErrors_foot | with_reducible apply takeMark_foot | with_reducible apply retain_foot | with_reducible apply settleMem_foot | with_reducible apply marchTick_foot | with_reducible apply nocMoves_foot | with_reducible apply tickSeq_foot | with_reducible apply Foot.ite | (with_reducible refine Foot.foldl ?_ (fun _ _ _ => ?_)) | (fail_if_no_progress (with_reducible refine Foot.up_time_xmFirst ?_ (Foot.sub (by decide) hm))) | split)

end Sys2Proof.Machine
end

