-- ==== Sys2Proof/Laws/KeepsBase.lean ====
section
/-! SUPPORT. What every operation of the model keeps: the queue, the anti-rollback counters, the invariant. -/

namespace Sys2Proof.Machine

/-- The polder map is in order but for tile `e`, which drains while it still fills a position. -/
def mapOkX (e : Option TileId) (s : State) : Prop :=
  (∀ m n p, m < 16 → n < 16 → physOf s m = some p → physOf s n = some p → m = n) ∧
    ∀ n p, n < 16 → physOf s n = some p → some p ≠ e → fillsOk (tile s p.val)

theorem mapOkX_none (s : State) : mapOkX none s ↔ mapOk s := by
  unfold mapOkX mapOk
  constructor
  · exact fun h => ⟨h.1, fun n p hn hp => h.2 n p hn hp (by simp)⟩
  · exact fun h => ⟨h.1, fun n p hn hp _ => h.2 n p hn hp⟩

def InvX (e : Option TileId) (s : State) : Prop := memoryWf s ∧ deepMaskOk s ∧ logsBounded s ∧ mapOkX e s

/-- From `z` to `s` the queue is the same, no counter falls, and the invariant holds, but for tile `e`. -/
structure Keeps (e : Option TileId) (z s : State) : Prop where
  queue : s.pending = z.pending
  counters : countersKept z s
  inv : Inv z → InvX e s

variable {e : Option TileId}

theorem Keeps.refl (s : State) : Keeps none s s :=
  ⟨rfl, fun _ _ => Nat.le_refl _, fun i => ⟨i.1, i.2.1, i.2.2.1, (mapOkX_none s).mpr i.2.2.2⟩⟩

/-- The invariant after a step that started in `z`. -/
theorem Keeps.done {z s : State} (h : Keeps none z s) (i : Inv z) : Inv s :=
  ⟨(h.inv i).1, (h.inv i).2.1, (h.inv i).2.2.1, (mapOkX_none s).mp (h.inv i).2.2.2⟩

theorem Keeps.trans {z s u : State} (h : Keeps e z s) (q : u.pending = s.pending) (c : countersKept s u)
    (i : InvX e s → InvX e u) : Keeps e z u :=
  ⟨q.trans h.queue, fun k hk => Nat.le_trans (h.counters k hk) (c k hk), fun j => i (h.inv j)⟩

/-- A change of fields that the facts kept do not name. -/
theorem Keeps.frame {z s : State} {freeCtr : Nat} {time : DWord} {pe :
    SMap PE} {peTag : SMap Nat} {seqs : SMap Sequencer} {ctxs : SMap TrapCtx} {mc : Microcode} {tenants : SMap TenantSt}
     {lastYield : Bytes} {xmFirst : Option (Nat × DWord)} {mem : SMap MemStatus} {march : March} {xmCollisions : Word} {noc : Noc} {grouping : Byte}
    {maxSpeed : Byte} {cams : SMap Cam} {fab : Fabric} {field : Field} {ses : SMap Session} {net : Net} {clk : Clocks}
    {sup : Supplies} {start : Starts} {ident : Identity} {obs : Observe}
    (h : Keeps e z s) (h8 : clk.gateDeep = s.clk.gateDeep) (h9 : obs.log = s.obs.log) (h10 : obs.flashLog = s.obs.flashLog)
    (h11 : ident.counters = s.ident.counters) :
    Keeps e z (State.mk s.pending freeCtr time s.tiles s.map pe s.peMem s.peBad peTag seqs ctxs mc tenants lastYield s.sp s.xm
     s.spBad s.xmBad s.spFill s.xmFill xmFirst mem march xmCollisions noc grouping maxSpeed cams fab field ses net clk sup start ident obs) := by
  refine h.trans rfl (fun c _ => ?_) (fun i => ?_)
  · simp only [counter, h11, Nat.le_refl]
  · simpa only [InvX, memoryWf, deepMaskOk, logsBounded, mapOkX, physOf, tile, h8, h9, h10] using i

/-- A change of the memories that keeps their canonical form. -/
theorem Keeps.mem {z s : State} {sp xm peMem : SMap Byte} {spBad xmBad : SMap CellFault} {peBad : SMap Bool}
    {spFill xmFill : SMap Nat} (h : Keeps e z s)
    (h1 : SMap.wf 0 s.sp = true → SMap.wf 0 sp = true) (h2 : SMap.wf 0 s.xm = true → SMap.wf 0 xm = true)
    (h3 : SMap.wf 0 s.peMem = true → SMap.wf 0 peMem = true)
    (h4 : SMap.wf .none s.spBad = true → SMap.wf .none spBad = true)
    (h5 : SMap.wf .none s.xmBad = true → SMap.wf .none xmBad = true)
    (h6 : SMap.wf false s.peBad = true → SMap.wf false peBad = true)
    (h7 : SMap.wf 0 s.spFill = true → SMap.wf 0 spFill = true)
    (h8 : SMap.wf 0 s.xmFill = true → SMap.wf 0 xmFill = true) :
    Keeps e z { s with sp := sp, xm := xm, peMem := peMem, spBad := spBad, xmBad := xmBad, peBad := peBad, spFill := spFill, xmFill := xmFill } :=
  h.trans rfl (fun _ _ => Nat.le_refl _) fun i =>
    ⟨⟨h1 i.1.1, h2 i.1.2.1, h3 i.1.2.2.1, h4 i.1.2.2.2.1, h5 i.1.2.2.2.2.1, h6 i.1.2.2.2.2.2.1, h7 i.1.2.2.2.2.2.2.1,
      h8 i.1.2.2.2.2.2.2.2⟩, i.2⟩

theorem mapOkX_tiles {s u : State} (hm : u.map = s.map) (ht : ∀ p, fillsOk (tile s p) → fillsOk (tile u p))
    (h : mapOkX e s) : mapOkX e u := by
  refine ⟨fun m n p => ?_, fun n p => ?_⟩
  · simpa only [physOf, hm] using h.1 m n p
  · intro hn hp he
    exact ht _ (h.2 n p hn (by simpa only [physOf, hm] using hp) he)

theorem tile_setTile (s : State) (p a : Nat) (v : Tile) : tile (setTile s p v) a = if a = p then v else tile s a := by
  simp only [tile, setTile, SMap.get_set]

/-- A tile changes; one that may fill a position still may. -/
theorem Keeps.tile {z s : State} (p : Nat) (v : Tile) (h : Keeps e z s) (hv : fillsOk (Machine.tile s p) → fillsOk v) :
    Keeps e z (setTile s p v) :=
  h.trans rfl (fun _ _ => Nat.le_refl _) fun i => ⟨i.1, i.2.1, i.2.2.1, mapOkX_tiles (s := s) rfl (fun a ha => by
    rw [tile_setTile]
    split
    · rename_i e; subst e; exact hv ha
    · exact ha) i.2.2.2⟩

theorem Keeps.ite {c : Prop} [Decidable c] {z a b : State} (h : Keeps e z a) (g : Keeps e z b) :
    Keeps e z (if c then a else b) := by
  split <;> assumption

theorem Keeps.foldl {α : Type} {z s : State} {f : State → α → State} {l : List α} (h : Keeps e z s)
    (hf : ∀ u a, Keeps e z u → Keeps e z (f u a)) : Keeps e z (l.foldl f s) := by
  induction l generalizing s with
  | nil => exact h
  | cons a r ih => exact ih (hf s a h)

theorem Keeps.foldl_mem {α : Type} {z s : State} {f : State → α → State} {l : List α} (h : Keeps e z s)
    (hf : ∀ u, ∀ a ∈ l, Keeps e z u → Keeps e z (f u a)) : Keeps e z (l.foldl f s) := by
  induction l generalizing s with
  | nil => exact h
  | cons a r ih => exact ih (hf s a (by simp) h) fun u b hb => hf u b (by simp [hb])

theorem Keeps.fold1 {α β : Type} {z : State} {a : State × β} {f : State × β → α → State × β} {l : List α}
    (h : Keeps e z a.1) (hf : ∀ u x, Keeps e z u.1 → Keeps e z (f u x).1) : Keeps e z (l.foldl f a).1 := by
  induction l generalizing a with
  | nil => exact h
  | cons x r ih => exact ih (hf a x h)

theorem Keeps.fold2 {α β : Type} {z : State} {a : β × State} {f : β × State → α → β × State} {l : List α}
    (h : Keeps e z a.2) (hf : ∀ u x, Keeps e z u.2 → Keeps e z (f u x).2) : Keeps e z (l.foldl f a).2 := by
  induction l generalizing a with
  | nil => exact h
  | cons x r ih => exact ih (hf a x h)

/-- The log ring is emptied. -/
theorem Keeps.emptyLog {z s : State} {n : Nat} (h : Keeps e z s) :
    Keeps e z { s with obs := { s.obs with log := [], logNewest := n } } :=
  h.trans rfl (fun _ _ => Nat.le_refl _) fun i => ⟨i.1, i.2.1, ⟨Nat.zero_le _, i.2.2.1.2⟩, i.2.2.2⟩

/-- An exception may be granted. -/
theorem Keeps.except {z s : State} (e : Option TileId) (h : Keeps none z s) : Keeps e z s :=
  ⟨h.queue, h.counters, fun i => ⟨(h.inv i).1, (h.inv i).2.1, (h.inv i).2.2.1, (h.inv i).2.2.2.1,
    fun n p hn hp _ => (h.inv i).2.2.2.2 n p hn hp (by simp)⟩⟩

/-- Any change of the tile that is excepted. -/
theorem Keeps.tileX {z s : State} (p : TileId) (v : Tile) (h : Keeps (some p) z s) : Keeps (some p) z (setTile s p.val v) :=
  h.trans rfl (fun _ _ => Nat.le_refl _) fun i => ⟨i.1, i.2.1, i.2.2.1, i.2.2.2.1, fun n q hn hq he => by
    rw [tile_setTile]
    split
    · rename_i e; exact absurd (congrArg some (Fin.ext e)) he
    · exact i.2.2.2.2 n q hn hq he⟩

theorem physOf_setPhys (s : State) (n m : Nat) (p : Option TileId) : physOf (setPhys s n p) m = if m = n then p else physOf s m := by
  by_cases h : m = n
  · subst h
    simp only [physOf, setPhys, SMap.get_set, if_true]
  · simp only [physOf, setPhys, if_neg h]
    generalize (if h : n < 17 then some (⟨n, h⟩ : TileId) else none) = d
    generalize (if h : m < 17 then some (⟨m, h⟩ : TileId) else none) = d'
    unfold SMap.set
    by_cases hp : p = d
    · rw [if_pos hp]; exact SMap.get_del_ne _ _ h
    · rw [if_neg hp]; exact SMap.get_put_ne _ _ _ h

/-- The position of the excepted tile is given up. -/
theorem Keeps.unmap {z s : State} (p : TileId) (n : Nat) (h : Keeps (some p) z s) (hn : n < 16) (hp : physOf s n = some p) :
    Keeps none z (setPhys s n none) :=
  ⟨h.queue, h.counters, fun j => by
    have i := h.inv j
    refine ⟨i.1, i.2.1, i.2.2.1, fun a b q ha hb => ?_, fun a q ha => ?_⟩
    · rw [physOf_setPhys, physOf_setPhys]
      split
      · intro h; cases h
      · split
        · intro _ h; cases h
        · exact i.2.2.2.1 a b q ha hb
    · rw [physOf_setPhys]
      split
      · intro h; cases h
      · rename_i hne
        intro hq _
        exact i.2.2.2.2 a q ha hq (by
          intro he
          injection he with he
          subst he
          exact hne (i.2.2.2.1 a n q ha hn hq hp))⟩

/-- A standby tile takes the position of the excepted tile. -/
theorem Keeps.remap {z s : State} (p c : TileId) (n : Nat) (v : Tile) (h : Keeps (some p) z s) (hn : n < 16)
    (hp : physOf s n = some p) (hc : (Machine.tile s c.val).service = .spare) (hpc : p ≠ c) (hv : fillsOk v) :
    Keeps none z (setTile (setPhys s n (some c)) c.val v) :=
  ⟨h.queue, h.counters, fun j => by
    have i := h.inv j
    have free : ∀ a, a < 16 → physOf s a ≠ some c := fun a ha hq => by
      have := i.2.2.2.2 a c ha hq (by simpa using fun e => hpc e.symm)
      rcases this with h | h <;> simp [hc] at h
    have ph : ∀ a, physOf (setTile (setPhys s n (some c)) c.val v) a = if a = n then some c else physOf s a :=
      fun a => physOf_setPhys s n a _
    refine ⟨i.1, i.2.1, i.2.2.1, fun a b q ha hb => ?_, fun a q ha => ?_⟩
    · rw [ph, ph]
      split
      · split
        · intros; omega
        · intro h1 h2; rw [← h1] at h2; exact absurd h2 (free b hb)
      · split
        · intro h1 h2; rw [← h2] at h1; exact absurd h1 (free a ha)
        · exact i.2.2.2.1 a b q ha hb
    · rw [ph]
      split
      · intro hq _
        injection hq with hq
        subst hq
        rw [tile_setTile]
        simpa using hv
      · rename_i hne
        intro hq _
        rw [tile_setTile]
        split
        · exact hv
        · refine i.2.2.2.2 a q ha hq ?_
          intro he
          injection he with he
          subst he
          exact hne (i.2.2.2.1 a n q ha hn hq hp)⟩

/-- The excepted tile keeps its position and comes into service. -/
theorem Keeps.resume {z s : State} (p : TileId) (n : Nat) (w v : Tile) (h : Keeps (some p) z s) (hp : physOf s n = some p)
    (hv : fillsOk v) : Keeps none z (setTile (setTile (setPhys s n (some p)) p.val w) p.val v) :=
  ⟨h.queue, h.counters, fun j => by
    have i := h.inv j
    have ph : ∀ a, physOf (setTile (setTile (setPhys s n (some p)) p.val w) p.val v) a = physOf s a := fun a => by
      refine (physOf_setPhys s n a _).trans ?_
      split
      · rename_i e; rw [e, hp]
      · rfl
    refine ⟨i.1, i.2.1, i.2.2.1, fun a b q ha hb => ?_, fun a q ha hq _ => ?_⟩
    · rw [ph, ph]; exact i.2.2.2.1 a b q ha hb
    · rw [ph] at hq
      rw [tile_setTile, tile_setTile]
      split
      · exact hv
      · rename_i hne
        exact i.2.2.2.2 a q ha hq fun e => hne (by injection e with e; rw [e])⟩

/-- `remap` with a change of the standby tile between. -/
theorem Keeps.remap2 {z s : State} (p c : TileId) (n : Nat) (w v : Tile) (h : Keeps (some p) z s) (hn : n < 16)
    (hp : physOf s n = some p) (hc : c ≠ p → (Machine.tile s c.val).service = .spare) (hv : fillsOk v) :
    Keeps none z (setTile (setTile (setPhys s n (some c)) c.val w) c.val v) := by
  by_cases hpc : p = c
  · subst hpc; exact Keeps.resume p n w v h hp hv
  have h1 := Keeps.remap p c n v h hn hp (hc (Ne.symm hpc)) hpc hv
  refine ⟨h1.queue, h1.counters, fun j => ?_⟩
  have i := h1.inv j
  refine ⟨i.1, i.2.1, i.2.2.1, i.2.2.2.1, fun a q ha hq he => ?_⟩
  have := i.2.2.2.2 a q ha hq he
  rw [tile_setTile] at this ⊢
  split at this
  · rename_i e; rw [if_pos e]; exact this
  · rename_i e; rw [if_neg e, tile_setTile, if_neg e]; exact this

/-- A standby tile fills a position whose tile FAILED. -/
theorem Keeps.refill {z s : State} (c : TileId) (n : Nat) (v : Tile) (h : Keeps none z s)
    (hc : (Machine.tile s c.val).service = .spare) (hv : fillsOk v) :
    Keeps none z (setTile (setPhys s n (some c)) c.val v) :=
  ⟨h.queue, h.counters, fun j => by
    have i := h.inv j
    have free : ∀ a, a < 16 → physOf s a ≠ some c := fun a ha hq => by
      have := i.2.2.2.2 a c ha hq (by simp)
      rcases this with h | h <;> simp [hc] at h
    have ph : ∀ a, physOf (setTile (setPhys s n (some c)) c.val v) a = if a = n then some c else physOf s a :=
      fun a => physOf_setPhys s n a _
    refine ⟨i.1, i.2.1, i.2.2.1, fun a b q ha hb => ?_, fun a q ha => ?_⟩
    · rw [ph, ph]
      split
      · split
        · intros; omega
        · intro h1 h2; rw [← h1] at h2; exact absurd h2 (free b hb)
      · split
        · intro h1 h2; rw [← h2] at h1; exact absurd h1 (free a ha)
        · exact i.2.2.2.1 a b q ha hb
    · rw [ph]
      split
      · intro hq _
        injection hq with hq
        subst hq
        rw [tile_setTile]
        simpa using hv
      · intro hq _
        rw [tile_setTile]
        split
        · exact hv
        · exact i.2.2.2.2 a q ha hq (by simp)⟩

/-- A position is given up. -/
theorem Keeps.unfill {z s : State} (n : Nat) (h : Keeps none z s) : Keeps none z (setPhys s n none) :=
  ⟨h.queue, h.counters, fun j => by
    have i := h.inv j
    refine ⟨i.1, i.2.1, i.2.2.1, fun a b q ha hb => ?_, fun a q ha => ?_⟩
    · rw [physOf_setPhys, physOf_setPhys]
      split
      · intro h; cases h
      · split
        · intro _ h; cases h
        · exact i.2.2.2.1 a b q ha hb
    · rw [physOf_setPhys]
      split
      · intro h; cases h
      · exact fun hq he => i.2.2.2.2 a q ha hq he⟩

end Sys2Proof.Machine
end

