-- ==== Sys2Proof/Laws/KeepsOps.lean ====
section
/-! SUPPORT. The operations of Machine/Ops.lean keep the queue, the counters and the invariant. -/

set_option linter.unusedTactic false
set_option linter.unusedVariables false
set_option linter.unreachableTactic false

namespace Sys2Proof.Machine

theorem setTile_keeps {ex : Option TileId} {z : State} (s : State) (p : Nat) (v : Tile) (h0 : Keeps ex z s)
    (hv : fillsOk (tile s p) → fillsOk v) : Keeps ex z (setTile s p v) := Keeps.tile p v h0 hv

theorem modTile_keeps {ex : Option TileId} {z : State} (s : State) (p : Nat) (f : Tile → Tile) (h0 : Keeps ex z s)
    (hf : ∀ x, fillsOk x → fillsOk (f x)) : Keeps ex z (modTile s p f) := Keeps.tile p _ h0 (hf _)

theorem setSqr_keeps {ex : Option TileId} {z : State} (s : State) (q : Nat) (v : Sequencer) (h0 : Keeps ex z s) : Keeps ex z (setSqr s q v) := by
  unfold setSqr
  try dsimp only
  repeat' (first | with_reducible assumption | with_reducible apply Keeps.ite | (with_reducible refine Keeps.foldl ?_ (fun _ _ _ => ?_)) | (fail_if_no_progress (with_reducible refine Keeps.frame ?_ rfl rfl rfl rfl)) | split)

theorem modSqr_keeps {ex : Option TileId} {z : State} (s : State) (q : Nat) (f : Sequencer → Sequencer) (h0 : Keeps ex z s) : Keeps ex z (modSqr s q f) := by
  unfold modSqr
  try dsimp only
  repeat' (first | with_reducible assumption | with_reducible apply setSqr_keeps | with_reducible apply Keeps.ite | (with_reducible refine Keeps.foldl ?_ (fun _ _ _ => ?_)) | (fail_if_no_progress (with_reducible refine Keeps.frame ?_ rfl rfl rfl rfl)) | split)

theorem setCtx_keeps {ex : Option TileId} {z : State} (s : State) (k : Nat) (v : TrapCtx) (h0 : Keeps ex z s) : Keeps ex z (setCtx s k v) := by
  unfold setCtx
  try dsimp only
  repeat' (first | with_reducible assumption | with_reducible apply Keeps.ite | (with_reducible refine Keeps.foldl ?_ (fun _ _ _ => ?_)) | (fail_if_no_progress (with_reducible refine Keeps.frame ?_ rfl rfl rfl rfl)) | split)

theorem setTen_keeps {ex : Option TileId} {z : State} (s : State) (t : Tenant) (v : TenantSt) (h0 : Keeps ex z s) : Keeps ex z (setTen s t v) := by
  unfold setTen
  try dsimp only
  repeat' (first | with_reducible assumption | with_reducible apply Keeps.ite | (with_reducible refine Keeps.foldl ?_ (fun _ _ _ => ?_)) | (fail_if_no_progress (with_reducible refine Keeps.frame ?_ rfl rfl rfl rfl)) | split)

theorem modTen_keeps {ex : Option TileId} {z : State} (s : State) (t : Tenant) (f : TenantSt → TenantSt) (h0 : Keeps ex z s) : Keeps ex z (modTen s t f) := by
  unfold modTen
  try dsimp only
  repeat' (first | with_reducible assumption | with_reducible apply setTen_keeps | with_reducible apply Keeps.ite | (with_reducible refine Keeps.foldl ?_ (fun _ _ _ => ?_)) | (fail_if_no_progress (with_reducible refine Keeps.frame ?_ rfl rfl rfl rfl)) | split)

theorem setSes_keeps {ex : Option TileId} {z : State} (s : State) (k : SesId) (v : Session) (h0 : Keeps ex z s) : Keeps ex z (setSes s k v) := by
  unfold setSes
  try dsimp only
  repeat' (first | with_reducible assumption | with_reducible apply Keeps.ite | (with_reducible refine Keeps.foldl ?_ (fun _ _ _ => ?_)) | (fail_if_no_progress (with_reducible refine Keeps.frame ?_ rfl rfl rfl rfl)) | split)

theorem modSes_keeps {ex : Option TileId} {z : State} (s : State) (k : SesId) (f : Session → Session) (h0 : Keeps ex z s) : Keeps ex z (modSes s k f) := by
  unfold modSes
  try dsimp only
  repeat' (first | with_reducible assumption | with_reducible apply setSes_keeps | with_reducible apply Keeps.ite | (with_reducible refine Keeps.foldl ?_ (fun _ _ _ => ?_)) | (fail_if_no_progress (with_reducible refine Keeps.frame ?_ rfl rfl rfl rfl)) | split)

theorem setCam_keeps {ex : Option TileId} {z : State} (s : State) (c : CxpId) (v : Cam) (h0 : Keeps ex z s) : Keeps ex z (setCam s c v) := by
  unfold setCam
  try dsimp only
  repeat' (first | with_reducible assumption | with_reducible apply Keeps.ite | (with_reducible refine Keeps.foldl ?_ (fun _ _ _ => ?_)) | (fail_if_no_progress (with_reducible refine Keeps.frame ?_ rfl rfl rfl rfl)) | split)

theorem modCam_keeps {ex : Option TileId} {z : State} (s : State) (c : CxpId) (f : Cam → Cam) (h0 : Keeps ex z s) : Keeps ex z (modCam s c f) := by
  unfold modCam
  try dsimp only
  repeat' (first | with_reducible assumption | with_reducible apply setCam_keeps | with_reducible apply Keeps.ite | (with_reducible refine Keeps.foldl ?_ (fun _ _ _ => ?_)) | (fail_if_no_progress (with_reducible refine Keeps.frame ?_ rfl rfl rfl rfl)) | split)

theorem setFch_keeps {ex : Option TileId} {z : State} (s : State) (n : Nat) (v : Fc) (h0 : Keeps ex z s) : Keeps ex z (setFch s n v) := by
  unfold setFch
  try dsimp only
  repeat' (first | with_reducible assumption | with_reducible apply Keeps.ite | (with_reducible refine Keeps.foldl ?_ (fun _ _ _ => ?_)) | (fail_if_no_progress (with_reducible refine Keeps.frame ?_ rfl rfl rfl rfl)) | split)

theorem modFch_keeps {ex : Option TileId} {z : State} (s : State) (n : Nat) (f : Fc → Fc) (h0 : Keeps ex z s) : Keeps ex z (modFch s n f) := by
  unfold modFch
  try dsimp only
  repeat' (first | with_reducible assumption | with_reducible apply setFch_keeps | with_reducible apply Keeps.ite | (with_reducible refine Keeps.foldl ?_ (fun _ _ _ => ?_)) | (fail_if_no_progress (with_reducible refine Keeps.frame ?_ rfl rfl rfl rfl)) | split)

theorem setGrp_keeps {ex : Option TileId} {z : State} (s : State) (g : Nat) (v : Group) (h0 : Keeps ex z s) : Keeps ex z (setGrp s g v) := by
  unfold setGrp
  try dsimp only
  repeat' (first | with_reducible assumption | with_reducible apply Keeps.ite | (with_reducible refine Keeps.foldl ?_ (fun _ _ _ => ?_)) | (fail_if_no_progress (with_reducible refine Keeps.frame ?_ rfl rfl rfl rfl)) | split)

theorem modGrp_keeps {ex : Option TileId} {z : State} (s : State) (g : Nat) (f : Group → Group) (h0 : Keeps ex z s) : Keeps ex z (modGrp s g f) := by
  unfold modGrp
  try dsimp only
  repeat' (first | with_reducible assumption | with_reducible apply setGrp_keeps | with_reducible apply Keeps.ite | (with_reducible refine Keeps.foldl ?_ (fun _ _ _ => ?_)) | (fail_if_no_progress (with_reducible refine Keeps.frame ?_ rfl rfl rfl rfl)) | split)

theorem setNi_keeps {ex : Option TileId} {z : State} (s : State) (n : Nat) (v : Ni) (h0 : Keeps ex z s) : Keeps ex z (setNi s n v) := by
  unfold setNi
  try dsimp only
  repeat' (first | with_reducible assumption | with_reducible apply Keeps.ite | (with_reducible refine Keeps.foldl ?_ (fun _ _ _ => ?_)) | (fail_if_no_progress (with_reducible refine Keeps.frame ?_ rfl rfl rfl rfl)) | split)

theorem modNi_keeps {ex : Option TileId} {z : State} (s : State) (n : Nat) (f : Ni → Ni) (h0 : Keeps ex z s) : Keeps ex z (modNi s n f) := by
  unfold modNi
  try dsimp only
  repeat' (first | with_reducible assumption | with_reducible apply setNi_keeps | with_reducible apply Keeps.ite | (with_reducible refine Keeps.foldl ?_ (fun _ _ _ => ?_)) | (fail_if_no_progress (with_reducible refine Keeps.frame ?_ rfl rfl rfl rfl)) | split)

theorem setRtr_keeps {ex : Option TileId} {z : State} (s : State) (r : Nat) (v : Router) (h0 : Keeps ex z s) : Keeps ex z (setRtr s r v) := by
  unfold setRtr
  try dsimp only
  repeat' (first | with_reducible assumption | with_reducible apply Keeps.ite | (with_reducible refine Keeps.foldl ?_ (fun _ _ _ => ?_)) | (fail_if_no_progress (with_reducible refine Keeps.frame ?_ rfl rfl rfl rfl)) | split)

theorem modRtr_keeps {ex : Option TileId} {z : State} (s : State) (r : Nat) (f : Router → Router) (h0 : Keeps ex z s) : Keeps ex z (modRtr s r f) := by
  unfold modRtr
  try dsimp only
  repeat' (first | with_reducible assumption | with_reducible apply setRtr_keeps | with_reducible apply Keeps.ite | (with_reducible refine Keeps.foldl ?_ (fun _ _ _ => ?_)) | (fail_if_no_progress (with_reducible refine Keeps.frame ?_ rfl rfl rfl rfl)) | split)

theorem setEsc_keeps {ex : Option TileId} {z : State} (s : State) (e : CtrlId) (v : Esc) (h0 : Keeps ex z s) : Keeps ex z (setEsc s e v) := by
  unfold setEsc
  try dsimp only
  repeat' (first | with_reducible assumption | with_reducible apply Keeps.ite | (with_reducible refine Keeps.foldl ?_ (fun _ _ _ => ?_)) | (fail_if_no_progress (with_reducible refine Keeps.frame ?_ rfl rfl rfl rfl)) | split)

theorem modEsc_keeps {ex : Option TileId} {z : State} (s : State) (e : CtrlId) (f : Esc → Esc) (h0 : Keeps ex z s) : Keeps ex z (modEsc s e f) := by
  unfold modEsc
  try dsimp only
  repeat' (first | with_reducible assumption | with_reducible apply setEsc_keeps | with_reducible apply Keeps.ite | (with_reducible refine Keeps.foldl ?_ (fun _ _ _ => ?_)) | (fail_if_no_progress (with_reducible refine Keeps.frame ?_ rfl rfl rfl rfl)) | split)

theorem setCan_keeps {ex : Option TileId} {z : State} (s : State) (c : CtrlId) (v : CanCtl) (h0 : Keeps ex z s) : Keeps ex z (setCan s c v) := by
  unfold setCan
  try dsimp only
  repeat' (first | with_reducible assumption | with_reducible apply Keeps.ite | (with_reducible refine Keeps.foldl ?_ (fun _ _ _ => ?_)) | (fail_if_no_progress (with_reducible refine Keeps.frame ?_ rfl rfl rfl rfl)) | split)

theorem modCan_keeps {ex : Option TileId} {z : State} (s : State) (c : CtrlId) (f : CanCtl → CanCtl) (h0 : Keeps ex z s) : Keeps ex z (modCan s c f) := by
  unfold modCan
  try dsimp only
  repeat' (first | with_reducible assumption | with_reducible apply setCan_keeps | with_reducible apply Keeps.ite | (with_reducible refine Keeps.foldl ?_ (fun _ _ _ => ?_)) | (fail_if_no_progress (with_reducible refine Keeps.frame ?_ rfl rfl rfl rfl)) | split)

theorem setMemSt_keeps {ex : Option TileId} {z : State} (s : State) (b : Nat) (v : MemStatus) (h0 : Keeps ex z s) : Keeps ex z (setMemSt s b v) := by
  unfold setMemSt
  try dsimp only
  repeat' (first | with_reducible assumption | with_reducible apply Keeps.ite | (with_reducible refine Keeps.foldl ?_ (fun _ _ _ => ?_)) | (fail_if_no_progress (with_reducible refine Keeps.frame ?_ rfl rfl rfl rfl)) | split)

theorem modMemSt_keeps {ex : Option TileId} {z : State} (s : State) (b : Nat) (f : MemStatus → MemStatus) (h0 : Keeps ex z s) : Keeps ex z (modMemSt s b f) := by
  unfold modMemSt
  try dsimp only
  repeat' (first | with_reducible assumption | with_reducible apply setMemSt_keeps | with_reducible apply Keeps.ite | (with_reducible refine Keeps.foldl ?_ (fun _ _ _ => ?_)) | (fail_if_no_progress (with_reducible refine Keeps.frame ?_ rfl rfl rfl rfl)) | split)

theorem bump_keeps {ex : Option TileId} {z : State} (s : State) (h0 : Keeps ex z s) : Keeps ex z (bump s) := by
  unfold bump
  try dsimp only
  repeat' (first | with_reducible assumption | with_reducible apply Keeps.ite | (with_reducible refine Keeps.foldl ?_ (fun _ _ _ => ?_)) | (fail_if_no_progress (with_reducible refine Keeps.frame ?_ rfl rfl rfl rfl)) | split)

end Sys2Proof.Machine
end

