-- ==== Sys2Proof/Laws/KeepsOperands.lean ====
section
/-! SUPPORT. The operations of Machine/Operands.lean keep the queue, the counters and the invariant. -/

set_option linter.unusedTactic false
set_option linter.unusedVariables false
set_option linter.unreachableTactic false

namespace Sys2Proof.Machine


theorem setPe_keeps {ex : Option TileId} {z : State} (s : State) (k : Nat) (v : PE) (h0 : Keeps ex z s) : Keeps ex z (setPe s k v) := by
  unfold setPe
  try dsimp only
  repeat' (first | with_reducible assumption | with_reducible apply Keeps.ite | (with_reducible refine Keeps.foldl ?_ (fun _ _ _ => ?_)) | (fail_if_no_progress (with_reducible refine Keeps.frame ?_ rfl rfl rfl rfl)) | split)

theorem scramble_keeps {ex : Option TileId} {z : State} (s : State) (ps : List TileId) (r : Nat) (h0 : Keeps ex z s) : Keeps ex z (scramble s ps r) := by
  unfold scramble
  try dsimp only
  repeat' (first | with_reducible assumption | with_reducible apply Keeps.ite | (with_reducible refine Keeps.foldl ?_ (fun _ _ _ => ?_)) | (fail_if_no_progress (with_reducible refine Keeps.frame ?_ rfl rfl rfl rfl)) | split)

theorem setPeBit_keeps {ex : Option TileId} {z : State} (s : State) (k a : Nat) (v : Bool) (h0 : Keeps ex z s) : Keeps ex z (setPeBit s k a v) := by
  unfold setPeBit
  dsimp only
  split
  · exact h0
  have h1 : ∀ b v, Keeps ex z { s with peMem := SMap.set 0 s.peMem b v, peBad := SMap.set false s.peBad b false } := fun b v =>
    Keeps.mem h0 id id (fun w => SMap.wf_set _ _ w) id id (fun w => SMap.wf_set _ _ w) id id
  exact Keeps.ite (setPe_keeps _ _ _ (h1 _ _)) (h1 _ _)

theorem latchBad_keeps {ex : Option TileId} {z : State} (s : State) (read : Nat → Nat → Bool) (h0 : Keeps ex z s) : Keeps ex z (latchBad s read) := by
  unfold latchBad
  try dsimp only
  repeat' (first | with_reducible assumption | with_reducible apply setPe_keeps | with_reducible apply Keeps.ite | (with_reducible refine Keeps.foldl ?_ (fun _ _ _ => ?_)) | (fail_if_no_progress (with_reducible refine Keeps.frame ?_ rfl rfl rfl rfl)) | split)

theorem setPeX_keeps {ex : Option TileId} {z : State} (s : State) (k : Nat) (v : Bool) (h0 : Keeps ex z s) : Keeps ex z (setPeX s k v) := by
  unfold setPeX
  try dsimp only
  repeat' (first | with_reducible assumption | with_reducible apply setPe_keeps | with_reducible apply Keeps.ite | (with_reducible refine Keeps.foldl ?_ (fun _ _ _ => ?_)) | (fail_if_no_progress (with_reducible refine Keeps.frame ?_ rfl rfl rfl rfl)) | split)

theorem writeField_keeps {ex : Option TileId} {z : State} (s : State) (g : Nat) (e : Elem) (b w v : Nat) (h0 : Keeps ex z s) : Keeps ex z (writeField s g e b w v) := by
  unfold writeField
  try dsimp only
  repeat' (first | with_reducible assumption | with_reducible apply setPeBit_keeps | with_reducible apply Keeps.ite | (with_reducible refine Keeps.foldl ?_ (fun _ _ _ => ?_)) | (fail_if_no_progress (with_reducible refine Keeps.frame ?_ rfl rfl rfl rfl)) | split)

theorem setSreg_keeps {ex : Option TileId} {z : State} (s : State) (q i : Nat) (v : Word) (h0 : Keeps ex z s) : Keeps ex z (setSreg s q i v) := by
  unfold setSreg
  try dsimp only
  repeat' (first | with_reducible assumption | with_reducible apply modSqr_keeps | with_reducible apply Keeps.ite | (with_reducible refine Keeps.foldl ?_ (fun _ _ _ => ?_)) | (fail_if_no_progress (with_reducible refine Keeps.frame ?_ rfl rfl rfl rfl)) | split)

end Sys2Proof.Machine
end

