-- ==== Sys2Proof/Laws/KeepsFlags.lean ====
section
/-! SUPPORT. The operations of Machine/Flags.lean keep the queue, the counters and the invariant. -/

set_option linter.unusedTactic false
set_option linter.unusedVariables false
set_option linter.unreachableTactic false

namespace Sys2Proof.Machine

theorem setSticky_keeps {ex : Option TileId} {z : State} (s : State) (k : Nat) (m : Byte) (h0 : Keeps ex z s) : Keeps ex z (setSticky s k m) := by
  unfold setSticky
  try dsimp only
  repeat' (first | with_reducible assumption | with_reducible apply setPeBit_keeps | with_reducible apply Keeps.ite | (with_reducible refine Keeps.foldl ?_ (fun _ _ _ => ?_)) | (fail_if_no_progress (with_reducible refine Keeps.frame ?_ rfl rfl rfl rfl)) | split)

theorem clearSticky_keeps {ex : Option TileId} {z : State} (s : State) (k : Nat) (m : Byte) (h0 : Keeps ex z s) : Keeps ex z (clearSticky s k m) := by
  unfold clearSticky
  try dsimp only
  repeat' (first | with_reducible assumption | with_reducible apply setPeBit_keeps | with_reducible apply Keeps.ite | (with_reducible refine Keeps.foldl ?_ (fun _ _ _ => ?_)) | (fail_if_no_progress (with_reducible refine Keeps.frame ?_ rfl rfl rfl rfl)) | split)

end Sys2Proof.Machine
end

