-- ==== Sys2Proof/Laws/KeepsEvents.lean ====
section
/-! SUPPORT. The operations of Machine/Events.lean keep the queue, the counters and the invariant. -/

set_option linter.unusedTactic false
set_option linter.unusedVariables false
set_option linter.unreachableTactic false

namespace Sys2Proof.Machine

theorem markDue_keeps {ex : Option TileId} {z : State} (s : State) (src : Nat) (code : Half) (h0 : Keeps ex z s) : Keeps ex z (markDue s src code) := by
  unfold markDue
  try dsimp only
  repeat' (first | with_reducible assumption | with_reducible apply Keeps.ite | (with_reducible refine Keeps.foldl ?_ (fun _ _ _ => ?_)) | (fail_if_no_progress (with_reducible refine Keeps.frame ?_ rfl rfl rfl rfl)) | split)

theorem tideFault_keeps {ex : Option TileId} {z : State} (s : State) (bit : Nat) (code : Half) (h0 : Keeps ex z s) : Keeps ex z (tideFault s bit code) := by
  unfold tideFault
  try dsimp only
  repeat' (first | with_reducible assumption | with_reducible apply markDue_keeps | with_reducible apply Keeps.ite | (with_reducible refine Keeps.foldl ?_ (fun _ _ _ => ?_)) | (fail_if_no_progress (with_reducible refine Keeps.frame ?_ rfl rfl rfl rfl)) | split)

theorem logEvent_keeps {ex : Option TileId} {z : State} (s : State) (code : Half) (sev : BitVec 2) (ts : List Tenant) (inst : Nat) (a : Nat) (b : Bytes)
    (h0 : Keeps ex z s) : Keeps ex z (logEvent s code sev ts inst a b) := by
  refine h0.trans rfl (fun _ _ => Nat.le_refl _) fun i => ⟨i.1, i.2.1, ⟨?_, ?_⟩, i.2.2.2⟩
  · simp only [logEvent, List.length_take]; omega
  · have := i.2.2.1.2
    simp only [logEvent]
    split
    · simp only [List.length_take]; omega
    · exact this

theorem emcyTo_keeps {ex : Option TileId} {z : State} (s : State) (k : SesId) (code : Half) (detail : Bytes) (h0 : Keeps ex z s) : Keeps ex z (emcyTo s k code detail) := by
  unfold emcyTo
  try dsimp only
  repeat' (first | with_reducible assumption | with_reducible apply modTen_keeps | with_reducible apply setSes_keeps | with_reducible apply Keeps.ite | (with_reducible refine Keeps.foldl ?_ (fun _ _ _ => ?_)) | (fail_if_no_progress (with_reducible refine Keeps.frame ?_ rfl rfl rfl rfl)) | split)

theorem emergency_keeps {ex : Option TileId} {z : State} (s : State) (ts : List Tenant) (code : Half) (detail : Bytes) (h0 : Keeps ex z s) : Keeps ex z (emergency s ts code detail) := by
  unfold emergency
  try dsimp only
  repeat' (first | with_reducible assumption | with_reducible apply emcyTo_keeps | with_reducible apply Keeps.ite | (with_reducible refine Keeps.foldl ?_ (fun _ _ _ => ?_)) | (fail_if_no_progress (with_reducible refine Keeps.frame ?_ rfl rfl rfl rfl)) | split)

theorem errorReset_keeps {ex : Option TileId} {z : State} (s0 s : State) (h0 : Keeps ex z s0) (h1 : Keeps ex z s) : Keeps ex z (errorReset s0 s) := by
  unfold errorReset
  try dsimp only
  repeat' (first | with_reducible assumption | with_reducible apply emergency_keeps | with_reducible apply Keeps.ite | (with_reducible refine Keeps.foldl ?_ (fun _ _ _ => ?_)) | (fail_if_no_progress (with_reducible refine Keeps.frame ?_ rfl rfl rfl rfl)) | split)

theorem partFault_keeps {ex : Option TileId} {z : State} (s : State) (ts : List Tenant) (kind num noSpare : Nat) (h0 : Keeps ex z s) : Keeps ex z (partFault s ts kind num noSpare) := by
  unfold partFault
  try dsimp only
  repeat' (first | with_reducible assumption | with_reducible apply tideFault_keeps | with_reducible apply emergency_keeps | with_reducible apply Keeps.ite | (with_reducible refine Keeps.foldl ?_ (fun _ _ _ => ?_)) | (fail_if_no_progress (with_reducible refine Keeps.frame ?_ rfl rfl rfl rfl)) | split)

end Sys2Proof.Machine
end

