-- ==== Sys2Proof/Laws/KeepsMem.lean ====
section
/-! SUPPORT. The operations of Machine/Mem.lean keep the queue, the counters and the invariant. -/

set_option linter.unusedTactic false
set_option linter.unusedVariables false
set_option linter.unreachableTactic false

namespace Sys2Proof.Machine

theorem yieldWindow_keeps {ex : Option TileId} {z : State} (s : State) (xm : Bool) (a n : Nat) (h0 : Keeps ex z s) : Keeps ex z (yieldWindow s xm a n) := by
  unfold yieldWindow
  try dsimp only
  repeat' (first | with_reducible assumption | with_reducible apply Keeps.ite | (with_reducible refine Keeps.foldl ?_ (fun _ _ _ => ?_)) | (fail_if_no_progress (with_reducible refine Keeps.frame ?_ rfl rfl rfl rfl)) | split)

theorem yieldWindow_mem (s : State) (xm : Bool) (a n : Nat) : (yieldWindow s xm a n).sp = s.sp ∧ (yieldWindow s xm a n).xm = s.xm ∧
    (yieldWindow s xm a n).spBad = s.spBad ∧ (yieldWindow s xm a n).xmBad = s.xmBad := by
  unfold yieldWindow
  dsimp only
  split
  · exact ⟨rfl, rfl, rfl, rfl⟩
  · split <;> exact ⟨rfl, rfl, rfl, rfl⟩

theorem mend_wf (m : SMap CellFault) (a n : Nat) (w : SMap.wf .none m = true) : SMap.wf .none (mend m a n) = true :=
  SMap.wfFrom_filter _ _ _ w

theorem spWrite_keeps {ex : Option TileId} {z : State} (s : State) (a : Nat) (d : Bytes) (h0 : Keeps ex z s) : Keeps ex z (spWrite s a d) := by
  have y := yieldWindow_mem s false a d.length
  exact Keeps.mem (yieldWindow_keeps s false a d.length h0) (fun w => SMap.wf_writeN _ _ (by rwa [← y.1])) id id
    (fun w => mend_wf _ _ _ (by rwa [← y.2.2.1])) id id id id

theorem setSpByte_keeps {ex : Option TileId} {z : State} (s : State) (a : Nat) (v : Byte) (h0 : Keeps ex z s) : Keeps ex z (setSpByte s a v) := by
  unfold setSpByte
  try dsimp only
  repeat' (first | with_reducible assumption | with_reducible apply spWrite_keeps | with_reducible apply Keeps.ite | (with_reducible refine Keeps.foldl ?_ (fun _ _ _ => ?_)) | (fail_if_no_progress (with_reducible refine Keeps.frame ?_ rfl rfl rfl rfl)) | split)

theorem extWrite_keeps {ex : Option TileId} {z : State} (s : State) (l : List Extent) (off : Nat) (d : Bytes) (h0 : Keeps ex z s) :
    Keeps ex z (extWrite s l off d) := by
  induction d generalizing s off with
  | nil => exact h0
  | cons b r ih =>
    unfold extWrite
    apply ih
    split
    · exact setSpByte_keeps _ _ _ h0
    · exact h0

theorem refill_keeps {ex : Option TileId} {z : State} (s : State) (t : Tenant) (roles : List Nat) (h0 : Keeps ex z s) : Keeps ex z (refill s t roles) := by
  unfold refill
  refine bump_keeps _ (Keeps.foldl h0 fun u role h => ?_)
  split
  · refine Keeps.ite (Keeps.mem h (fun w => SMap.wf_clearRange _ _ w) id id id id id (fun w => ?_) id) h
    generalize List.range _ = l
    generalize u.spFill = m at w
    induction l generalizing m with
    | nil => exact w
    | cons a r ih => exact ih _ (SMap.wf_set _ _ w)
  · exact h

theorem readFailed_keeps {ex : Option TileId} {z : State} (s : State) (xm : Bool) (a : Nat) (role : Byte) (h0 : Keeps ex z s) : Keeps ex z (readFailed s xm a role) := by
  unfold readFailed
  try dsimp only
  repeat' (first | with_reducible assumption | with_reducible apply modMemSt_keeps | with_reducible apply logEvent_keeps | with_reducible apply Keeps.ite | (with_reducible refine Keeps.foldl ?_ (fun _ _ _ => ?_)) | (fail_if_no_progress (with_reducible refine Keeps.frame ?_ rfl rfl rfl rfl)) | split)

theorem repaired_keeps {ex : Option TileId} {z : State} (s : State) (xm : Bool) (a : Nat) (h0 : Keeps ex z s) : Keeps ex z (repaired s xm a) := by
  unfold repaired
  try dsimp only
  repeat' (first | with_reducible assumption | with_reducible apply modMemSt_keeps | with_reducible apply Keeps.ite | (with_reducible refine Keeps.foldl ?_ (fun _ _ _ => ?_)) | (fail_if_no_progress (with_reducible refine Keeps.frame ?_ rfl rfl rfl rfl)) | split)

theorem readCopied_keeps {ex : Option TileId} {z : State} (s : State) (a m role roleM : Nat) (h0 : Keeps ex z s) : Keeps ex z (readCopied s a m role roleM).1 := by
  unfold readCopied
  try dsimp only
  repeat' (first | with_reducible assumption | with_reducible apply spWrite_keeps | with_reducible apply readFailed_keeps | with_reducible apply repaired_keeps | with_reducible apply Keeps.ite | (with_reducible refine Keeps.foldl ?_ (fun _ _ _ => ?_)) | (fail_if_no_progress (with_reducible refine Keeps.frame ?_ rfl rfl rfl rfl)) | split)

theorem fetchProg_keeps {ex : Option TileId} {z : State} (s : State) (r : OwnRec) (i : Nat) (h0 : Keeps ex z s) : Keeps ex z (fetchProg s r i).1 := by
  unfold fetchProg
  try dsimp only
  repeat' (first | with_reducible assumption | with_reducible apply readCopied_keeps | with_reducible apply Keeps.ite | (with_reducible refine Keeps.foldl ?_ (fun _ _ _ => ?_)) | (fail_if_no_progress (with_reducible refine Keeps.frame ?_ rfl rfl rfl rfl)) | split)

theorem readAreas_keeps {ex : Option TileId} {z : State} (s : State) (t : Tenant) (a b : Nat) (haveA haveB : Bool) (h0 : Keeps ex z s) : Keeps ex z (readAreas s t a b haveA haveB).1 := by
  unfold readAreas
  try dsimp only
  repeat' (first | with_reducible assumption | with_reducible apply bump_keeps | with_reducible apply readFailed_keeps | with_reducible apply Keeps.ite | (with_reducible refine Keeps.foldl ?_ (fun _ _ _ => ?_)) | (fail_if_no_progress (with_reducible refine Keeps.frame ?_ rfl rfl rfl rfl)) | split)

theorem xmWrite_keeps {ex : Option TileId} {z : State} (s : State) (a : Nat) (d : Bytes) (h0 : Keeps ex z s) : Keeps ex z (xmWrite s a d) := by
  have y := yieldWindow_mem s true a d.length
  exact Keeps.mem (yieldWindow_keeps s true a d.length h0) id (fun w => SMap.wf_writeN _ _ (by rwa [← y.2.1])) id id
    (fun w => mend_wf _ _ _ (by rwa [← y.2.2.2])) id id id

theorem xmPut_keeps {ex : Option TileId} {z : State} (s : State) (a : Nat) (d : Bytes) (h0 : Keeps ex z s) : Keeps ex z (xmPut s a d) := by
  unfold xmPut
  try dsimp only
  repeat' (first | with_reducible assumption | with_reducible apply xmWrite_keeps | with_reducible apply Keeps.ite | (with_reducible refine Keeps.foldl ?_ (fun _ _ _ => ?_)) | (fail_if_no_progress (with_reducible refine Keeps.frame ?_ rfl rfl rfl rfl)) | split)

theorem setXmByte_keeps {ex : Option TileId} {z : State} (s : State) (a : Nat) (v : Byte) (h0 : Keeps ex z s) : Keeps ex z (setXmByte s a v) := by
  unfold setXmByte
  try dsimp only
  repeat' (first | with_reducible assumption | with_reducible apply xmWrite_keeps | with_reducible apply Keeps.ite | (with_reducible refine Keeps.foldl ?_ (fun _ _ _ => ?_)) | (fail_if_no_progress (with_reducible refine Keeps.frame ?_ rfl rfl rfl rfl)) | split)

theorem mirrorWrite_keeps {ex : Option TileId} {z : State} (s : State) (off : Nat) (d : Bytes) (h0 : Keeps ex z s) : Keeps ex z (mirrorWrite s off d) := by
  unfold mirrorWrite
  try dsimp only
  repeat' (first | with_reducible assumption | with_reducible apply xmWrite_keeps | with_reducible apply Keeps.ite | (with_reducible refine Keeps.foldl ?_ (fun _ _ _ => ?_)) | (fail_if_no_progress (with_reducible refine Keeps.frame ?_ rfl rfl rfl rfl)) | split)

theorem mirrorMend_keeps {ex : Option TileId} {z : State} (s : State) (off n : Nat) (h0 : Keeps ex z s) : Keeps ex z (mirrorMend s off n) := by
  unfold mirrorMend
  try dsimp only
  repeat' (first | with_reducible assumption | with_reducible apply readFailed_keeps | with_reducible apply repaired_keeps | with_reducible apply xmWrite_keeps | with_reducible apply Keeps.ite | (with_reducible refine Keeps.foldl ?_ (fun _ _ _ => ?_)) | (fail_if_no_progress (with_reducible refine Keeps.frame ?_ rfl rfl rfl rfl)) | split)

theorem journalWrite_keeps {ex : Option TileId} {z : State} (s : State) (t : Tenant) (h0 : Keeps ex z s) : Keeps ex z (journalWrite s t) :=
  bump_keeps _ (Keeps.mem h0 id (fun w => SMap.wf_clearRange _ _ (SMap.wf_clearRange _ _ (SMap.wf_clearRange _ _
    (SMap.wf_clearRange _ _ w)))) id id id id id (fun w => SMap.wf_set _ _ (SMap.wf_set _ _ w)))

end Sys2Proof.Machine
end

