-- ==== Sys2Proof/Laws/KeepsFabBase.lean ====
section
/-! SUPPORT. The operations of Machine/FabBase.lean keep the queue, the counters and the invariant. -/

set_option linter.unusedTactic false
set_option linter.unusedVariables false
set_option linter.unreachableTactic false

namespace Sys2Proof.Machine

theorem setCell_keeps {ex : Option TileId} {z : State} (s : State) (r c : Nat) (v : Cell) (h0 : Keeps ex z s) : Keeps ex z (setCell s r c v) := by
  unfold setCell
  try dsimp only
  repeat' (first | with_reducible assumption | with_reducible apply Keeps.ite | (with_reducible refine Keeps.foldl ?_ (fun _ _ _ => ?_)) | (fail_if_no_progress (with_reducible refine Keeps.frame ?_ rfl rfl rfl rfl)) | split)

theorem endEncErrors_keeps {ex : Option TileId} {z : State} (s : State) (h0 : Keeps ex z s) : Keeps ex z (endEncErrors s) := by
  unfold endEncErrors
  try dsimp only
  repeat' (first | with_reducible assumption | with_reducible apply modFch_keeps | with_reducible apply Keeps.ite | (with_reducible refine Keeps.foldl ?_ (fun _ _ _ => ?_)) | (fail_if_no_progress (with_reducible refine Keeps.frame ?_ rfl rfl rfl rfl)) | split)

theorem nextFc_keeps {ex : Option TileId} {z : State} (s : State) (h0 : Keeps ex z s) : Keeps ex z (nextFc s) := by
  unfold nextFc
  try dsimp only
  repeat' (first | with_reducible assumption | with_reducible apply endEncErrors_keeps | with_reducible apply Keeps.ite | (with_reducible refine Keeps.foldl ?_ (fun _ _ _ => ?_)) | (fail_if_no_progress (with_reducible refine Keeps.frame ?_ rfl rfl rfl rfl)) | split)

theorem pulsePort_keeps {ex : Option TileId} {z : State} (s : State) (row : Nat) (h0 : Keeps ex z s) : Keeps ex z (pulsePort s row) := by
  unfold pulsePort
  try dsimp only
  repeat' (first | with_reducible assumption | with_reducible apply Keeps.ite | (with_reducible refine Keeps.foldl ?_ (fun _ _ _ => ?_)) | (fail_if_no_progress (with_reducible refine Keeps.frame ?_ rfl rfl rfl rfl)) | split)

theorem pwmEdge_keeps {ex : Option TileId} {z : State} (s : State) (n : Nat) (h0 : Keeps ex z s) : Keeps ex z (pwmEdge s n) := by
  unfold pwmEdge
  try dsimp only
  repeat' (first | with_reducible assumption | with_reducible apply setFch_keeps | with_reducible apply Keeps.ite | (with_reducible refine Keeps.foldl ?_ (fun _ _ _ => ?_)) | (fail_if_no_progress (with_reducible refine Keeps.frame ?_ rfl rfl rfl rfl)) | split)

theorem sampleFc_keeps {ex : Option TileId} {z : State} (s : State) (n : Nat) (h0 : Keeps ex z s) : Keeps ex z (sampleFc s n) := by
  unfold sampleFc
  try dsimp only
  repeat' (first | with_reducible assumption | with_reducible apply setFch_keeps | with_reducible apply Keeps.ite | (with_reducible refine Keeps.foldl ?_ (fun _ _ _ => ?_)) | (fail_if_no_progress (with_reducible refine Keeps.frame ?_ rfl rfl rfl rfl)) | split)

theorem sampleMailbox_keeps {ex : Option TileId} {z : State} (s : State) (k : Nat) (h0 : Keeps ex z s) : Keeps ex z (sampleMailbox s k) := by
  unfold sampleMailbox
  try dsimp only
  repeat' (first | with_reducible assumption | with_reducible apply Keeps.ite | (with_reducible refine Keeps.foldl ?_ (fun _ _ _ => ?_)) | (fail_if_no_progress (with_reducible refine Keeps.frame ?_ rfl rfl rfl rfl)) | split)

theorem sampleTxd_keeps {ex : Option TileId} {z : State} (s : State) (port : Nat) (h0 : Keeps ex z s) : Keeps ex z (sampleTxd s port) := by
  unfold sampleTxd
  try dsimp only
  repeat' (first | with_reducible assumption | with_reducible apply Keeps.ite | (with_reducible refine Keeps.foldl ?_ (fun _ _ _ => ?_)) | (fail_if_no_progress (with_reducible refine Keeps.frame ?_ rfl rfl rfl rfl)) | split)

theorem fabEdge_keeps {ex : Option TileId} {z : State} (s : State) (h0 : Keeps ex z s) : Keeps ex z (fabEdge s) := by
  unfold fabEdge
  try dsimp only
  repeat' (first | with_reducible assumption | with_reducible apply modFch_keeps | with_reducible apply pwmEdge_keeps | with_reducible apply sampleFc_keeps | with_reducible apply sampleMailbox_keeps | with_reducible apply sampleTxd_keeps | with_reducible apply Keeps.ite | (with_reducible refine Keeps.foldl ?_ (fun _ _ _ => ?_)) | (fail_if_no_progress (with_reducible refine Keeps.frame ?_ rfl rfl rfl rfl)) | split)

theorem fallLines_keeps {ex : Option TileId} {z : State} (s : State) (h0 : Keeps ex z s) : Keeps ex z (fallLines s) := by
  unfold fallLines
  try dsimp only
  repeat' (first | with_reducible assumption | with_reducible apply Keeps.ite | (with_reducible refine Keeps.foldl ?_ (fun _ _ _ => ?_)) | (fail_if_no_progress (with_reducible refine Keeps.frame ?_ rfl rfl rfl rfl)) | split)

theorem holdRegion_keeps {ex : Option TileId} {z : State} (s : State) (k : Nat) (h0 : Keeps ex z s) : Keeps ex z (holdRegion s k) := by
  unfold holdRegion
  try dsimp only
  repeat' (first | with_reducible assumption | with_reducible apply fallLines_keeps | with_reducible apply Keeps.ite | (with_reducible refine Keeps.foldl ?_ (fun _ _ _ => ?_)) | (fail_if_no_progress (with_reducible refine Keeps.frame ?_ rfl rfl rfl rfl)) | split)

theorem startOwed_keeps {ex : Option TileId} {z : State} (s : State) (h0 : Keeps ex z s) : Keeps ex z (startOwed s) := by
  unfold startOwed
  try dsimp only
  repeat' (first | with_reducible assumption | with_reducible apply holdRegion_keeps | with_reducible apply Keeps.ite | (with_reducible refine Keeps.foldl ?_ (fun _ _ _ => ?_)) | (fail_if_no_progress (with_reducible refine Keeps.frame ?_ rfl rfl rfl rfl)) | split)

theorem releaseRegion_keeps {ex : Option TileId} {z : State} (s : State) (k : Nat) (h0 : Keeps ex z s) : Keeps ex z (releaseRegion s k) := by
  unfold releaseRegion
  try dsimp only
  repeat' (first | with_reducible assumption | with_reducible apply Keeps.ite | (with_reducible refine Keeps.foldl ?_ (fun _ _ _ => ?_)) | (fail_if_no_progress (with_reducible refine Keeps.frame ?_ rfl rfl rfl rfl)) | split)

theorem captureRegion_keeps {ex : Option TileId} {z : State} (s : State) (k : Nat) (h0 : Keeps ex z s) : Keeps ex z (captureRegion s k) := by
  unfold captureRegion
  try dsimp only
  repeat' (first | with_reducible assumption | with_reducible apply Keeps.ite | (with_reducible refine Keeps.foldl ?_ (fun _ _ _ => ?_)) | (fail_if_no_progress (with_reducible refine Keeps.frame ?_ rfl rfl rfl rfl)) | split)

end Sys2Proof.Machine
end

