-- ==== Sys2Proof/Laws/KeepsMesh.lean ====
section
/-! SUPPORT. The operations of Machine/Mesh.lean keep the queue, the counters and the invariant. -/

set_option linter.unusedTactic false
set_option linter.unusedVariables false
set_option linter.unreachableTactic false

namespace Sys2Proof.Machine

theorem setFlight_keeps {ex : Option TileId} {z : State} (s : State) (f g : Flight) (h0 : Keeps ex z s) : Keeps ex z (setFlight s f g) := by
  unfold setFlight
  try dsimp only
  repeat' (first | with_reducible assumption | with_reducible apply Keeps.ite | (with_reducible refine Keeps.foldl ?_ (fun _ _ _ => ?_)) | (fail_if_no_progress (with_reducible refine Keeps.frame ?_ rfl rfl rfl rfl)) | split)

theorem dropFlight_keeps {ex : Option TileId} {z : State} (s : State) (f : Flight) (h0 : Keeps ex z s) : Keeps ex z (dropFlight s f) := by
  unfold dropFlight
  try dsimp only
  repeat' (first | with_reducible assumption | with_reducible apply Keeps.ite | (with_reducible refine Keeps.foldl ?_ (fun _ _ _ => ?_)) | (fail_if_no_progress (with_reducible refine Keeps.frame ?_ rfl rfl rfl rfl)) | split)

theorem compactAll_keeps {ex : Option TileId} {z : State} (s : State) (h0 : Keeps ex z s) : Keeps ex z (compactAll s) := by
  unfold compactAll
  try dsimp only
  repeat' (first | with_reducible assumption | with_reducible apply setFlight_keeps | with_reducible apply Keeps.ite | (with_reducible refine Keeps.foldl ?_ (fun _ _ _ => ?_)) | (fail_if_no_progress (with_reducible refine Keeps.frame ?_ rfl rfl rfl rfl)) | split)

theorem noteServed_keeps {ex : Option TileId} {z : State} (s : State) (f : Flight) (m : Move) (h0 : Keeps ex z s) : Keeps ex z (noteServed s f m) := by
  unfold noteServed
  try dsimp only
  repeat' (first | with_reducible assumption | with_reducible apply Keeps.ite | (with_reducible refine Keeps.foldl ?_ (fun _ _ _ => ?_)) | (fail_if_no_progress (with_reducible refine Keeps.frame ?_ rfl rfl rfl rfl)) | split)

theorem wantNext_keeps {ex : Option TileId} {z : State} (s : State) (key : Nat) (v : Byte) (h0 : Keeps ex z s) : Keeps ex z (wantNext s key v) := by
  unfold wantNext
  try dsimp only
  repeat' (first | with_reducible assumption | with_reducible apply Keeps.ite | (with_reducible refine Keeps.foldl ?_ (fun _ _ _ => ?_)) | (fail_if_no_progress (with_reducible refine Keeps.frame ?_ rfl rfl rfl rfl)) | split)

theorem loseSn_keeps {ex : Option TileId} {z : State} (s : State) (key : Nat) (v : Byte) (h0 : Keeps ex z s) : Keeps ex z (loseSn s key v) := by
  unfold loseSn
  try dsimp only
  repeat' (first | with_reducible assumption | with_reducible apply Keeps.ite | (with_reducible refine Keeps.foldl ?_ (fun _ _ _ => ?_)) | (fail_if_no_progress (with_reducible refine Keeps.frame ?_ rfl rfl rfl rfl)) | split)

theorem arrive_keeps {z : State} (turned : Flight → State → Bool) (serve : Flight → State → State) (n : Nat) (f : Flight)
    (s : State) (h0 : Keeps none z s) (hs : ∀ g u, Keeps none z u → Keeps none z (serve g u)) :
    Keeps none z (arrive turned serve n f s) := by
  induction n generalizing f s with
  | zero => exact h0
  | succ n ih =>
    unfold arrive
    dsimp only
    have h1 := hs f _ (wantNext_keeps s (orderKey f.src f.dst f.vc) f.sn h0)
    split
    · exact hs _ _ h0
    · split
      · exact modNi_keeps _ _ _ h0
      · split
        · exact ih _ _ (modNi_keeps _ _ _ h1)
        · exact h1

theorem runMesh_keeps {ex : Option TileId} {z : State} (come : Flight → State → State) (n : Nat) (s : State)
    (h0 : Keeps ex z s) (hs : ∀ g u, Keeps ex z u → Keeps ex z (come g u)) : Keeps ex z (runMesh come n s) := by
  induction n generalizing s with
  | zero => exact h0
  | succ n ih =>
    unfold runMesh
    split
    · exact compactAll_keeps _ h0
    · exact ih _ (setFlight_keeps _ _ _ (noteServed_keeps _ _ _ h0))
    · exact ih _ (hs _ _ (noteServed_keeps _ _ _ (dropFlight_keeps _ _ h0)))

end Sys2Proof.Machine
end

