-- ==== Sys2Proof/Laws/KeepsPolder.lean ====
section
/-! SUPPORT. The operations of Machine/Polder.lean keep the queue, the counters and the invariant. -/

set_option linter.unusedTactic false
set_option linter.unusedVariables false
set_option linter.unreachableTactic false

namespace Sys2Proof.Machine

theorem closeNi_keeps {ex : Option TileId} {z : State} (s : State) (n : Nat) (r : FenceReason) (h0 : Keeps ex z s) : Keeps ex z (closeNi s n r) := by
  unfold closeNi
  try dsimp only
  repeat' (first | with_reducible assumption | with_reducible apply modNi_keeps | with_reducible apply Keeps.ite | (with_reducible refine Keeps.foldl ?_ (fun _ _ _ => ?_)) | (fail_if_no_progress (with_reducible refine Keeps.frame ?_ rfl rfl rfl rfl)) | split)

theorem setNiSt_keeps {ex : Option TileId} {z : State} (s : State) (n : Nat) (st : NiState) (h0 : Keeps ex z s) : Keeps ex z (setNiSt s n st) := by
  unfold setNiSt
  try dsimp only
  repeat' (first | with_reducible assumption | with_reducible apply modNi_keeps | with_reducible apply Keeps.ite | (with_reducible refine Keeps.foldl ?_ (fun _ _ _ => ?_)) | (fail_if_no_progress (with_reducible refine Keeps.frame ?_ rfl rfl rfl rfl)) | split)

theorem sendClear_keeps {ex : Option TileId} {z : State} (s : State) (n repl : NiId) (lost : Bool) (h0 : Keeps ex z s) : Keeps ex z (sendClear s n repl lost) := by
  unfold sendClear
  try dsimp only
  repeat' (first | with_reducible assumption | with_reducible apply Keeps.ite | (with_reducible refine Keeps.foldl ?_ (fun _ _ _ => ?_)) | (fail_if_no_progress (with_reducible refine Keeps.frame ?_ rfl rfl rfl rfl)) | split)

theorem openNi_keeps {ex : Option TileId} {z : State} (s : State) (n : NiId) (h0 : Keeps ex z s) : Keeps ex z (openNi s n) := by
  unfold openNi
  try dsimp only
  repeat' (first | with_reducible assumption | with_reducible apply setNiSt_keeps | with_reducible apply sendClear_keeps | with_reducible apply Keeps.ite | (with_reducible refine Keeps.foldl ?_ (fun _ _ _ => ?_)) | (fail_if_no_progress (with_reducible refine Keeps.frame ?_ rfl rfl rfl rfl)) | split)

theorem openGate_keeps {ex : Option TileId} {z : State} (s : State) (b : Nat) (h0 : Keeps ex z s) : Keeps ex z (openGate s b) := by
  unfold openGate
  try dsimp only
  repeat' (first | with_reducible assumption | with_reducible apply openNi_keeps | with_reducible apply Keeps.ite | (with_reducible refine Keeps.foldl ?_ (fun _ _ _ => ?_)) | (fail_if_no_progress (with_reducible refine Keeps.frame ?_ rfl rfl rfl rfl)) | split)

theorem reopenGates_keeps {ex : Option TileId} {z : State} (s : State) (h0 : Keeps ex z s) : Keeps ex z (reopenGates s) := by
  unfold reopenGates
  try dsimp only
  repeat' (first | with_reducible assumption | with_reducible apply openGate_keeps | with_reducible apply Keeps.ite | (with_reducible refine Keeps.foldl ?_ (fun _ _ _ => ?_)) | (fail_if_no_progress (with_reducible refine Keeps.frame ?_ rfl rfl rfl rfl)) | split)

theorem retargetFab_keeps {ex : Option TileId} {z : State} (s0 : State) (h0 : Keeps ex z s0) : Keeps ex z (retargetFab s0) := by
  unfold retargetFab
  try dsimp only
  repeat' (first | with_reducible assumption | with_reducible apply reopenGates_keeps | with_reducible apply Keeps.ite | (with_reducible refine Keeps.foldl ?_ (fun _ _ _ => ?_)) | (fail_if_no_progress (with_reducible refine Keeps.frame ?_ rfl rfl rfl rfl)) | split)

theorem clearTile_keeps {ex : Option TileId} {z : State} (s : State) (p : Nat) (h0 : Keeps ex z s) : Keeps ex z (clearTile s p) :=
  Keeps.frame (Keeps.mem (s := s) (peMem := SMap.clearRange s.peMem (p * 2097152) 2097152)
    (peBad := SMap.clearRange s.peBad (p * 2097152) 2097152) h0 id id (fun w => SMap.wf_clearRange _ _ w) id id
    (fun w => SMap.wf_clearRange _ _ w) id id) rfl rfl rfl rfl

theorem awaken_keeps {ex : Option TileId} {z : State} (s : State) (p : Nat) (ratio : Fin 8) (fromOff : Bool) (h0 : Keeps ex z s) : Keeps ex z (awaken s p ratio fromOff) := by
  unfold awaken
  try dsimp only
  repeat' (first | with_reducible assumption | with_reducible apply modTile_keeps | with_reducible apply openNi_keeps | with_reducible apply clearTile_keeps | with_reducible apply Keeps.ite | (with_reducible refine Keeps.foldl ?_ (fun _ _ _ => ?_)) | (fail_if_no_progress (with_reducible refine Keeps.frame ?_ rfl rfl rfl rfl)) | (exact fun h => h) | (exact fun _ h => h) | split)

theorem wakePolder_keeps {ex : Option TileId} {z : State} (s : State) (p : Nat) (h0 : Keeps ex z s) : Keeps ex z (wakePolder s p) := by
  unfold wakePolder
  try dsimp only
  repeat' (first | with_reducible assumption | with_reducible apply modTile_keeps | with_reducible apply awaken_keeps | with_reducible apply Keeps.ite | (with_reducible refine Keeps.foldl ?_ (fun _ _ _ => ?_)) | (fail_if_no_progress (with_reducible refine Keeps.frame ?_ rfl rfl rfl rfl)) | (exact fun h => h) | (exact fun _ h => h) | split)

theorem polderOff_keeps {ex : Option TileId} {z : State} (s : State) (p : Nat) (h0 : Keeps ex z s) : Keeps ex z (polderOff s p) := by
  unfold polderOff
  try dsimp only
  repeat' (first | with_reducible assumption | with_reducible apply modTile_keeps | with_reducible apply setNiSt_keeps | with_reducible apply retargetFab_keeps | with_reducible apply clearTile_keeps | with_reducible apply Keeps.ite | (with_reducible refine Keeps.foldl ?_ (fun _ _ _ => ?_)) | (fail_if_no_progress (with_reducible refine Keeps.frame ?_ rfl rfl rfl rfl)) | (exact fun h => h) | (exact fun _ h => h) | split)

theorem powerDown_keeps {ex : Option TileId} {z : State} (s : State) (p : Nat) (r : FenceReason) (h0 : Keeps ex z s) : Keeps ex z (powerDown s p r) := by
  unfold powerDown
  try dsimp only
  repeat' (first | with_reducible assumption | with_reducible apply closeNi_keeps | with_reducible apply setNiSt_keeps | with_reducible apply polderOff_keeps | with_reducible apply Keeps.ite | (with_reducible refine Keeps.foldl ?_ (fun _ _ _ => ?_)) | (fail_if_no_progress (with_reducible refine Keeps.frame ?_ rfl rfl rfl rfl)) | split)

theorem sleepPolder_keeps {ex : Option TileId} {z : State} (s : State) (p : Nat) (h0 : Keeps ex z s) : Keeps ex z (sleepPolder s p) := by
  unfold sleepPolder
  try dsimp only
  repeat' (first | with_reducible assumption | with_reducible apply modTile_keeps | with_reducible apply closeNi_keeps | with_reducible apply Keeps.ite | (with_reducible refine Keeps.foldl ?_ (fun _ _ _ => ?_)) | (fail_if_no_progress (with_reducible refine Keeps.frame ?_ rfl rfl rfl rfl)) | (exact fun h => h) | (exact fun _ h => h) | split)

theorem rampDownStep_keeps {ex : Option TileId} {z : State} (s : State) (p : Nat) (h0 : Keeps ex z s) : Keeps ex z (rampDownStep s p) := by
  unfold rampDownStep
  try dsimp only
  repeat' (first | with_reducible assumption | with_reducible apply modTile_keeps | with_reducible apply setNiSt_keeps | with_reducible apply retargetFab_keeps | with_reducible apply Keeps.ite | (with_reducible refine Keeps.foldl ?_ (fun _ _ _ => ?_)) | (fail_if_no_progress (with_reducible refine Keeps.frame ?_ rfl rfl rfl rfl)) | (exact fun h => h) | (exact fun _ h => h) | split)

theorem stopPolder_keeps {ex : Option TileId} {z : State} (s : State) (p : Nat) (h0 : Keeps ex z s) : Keeps ex z (stopPolder s p) := by
  unfold stopPolder
  try dsimp only
  repeat' (first | with_reducible assumption | with_reducible apply modTile_keeps | with_reducible apply closeNi_keeps | with_reducible apply Keeps.ite | (with_reducible refine Keeps.foldl ?_ (fun _ _ _ => ?_)) | (fail_if_no_progress (with_reducible refine Keeps.frame ?_ rfl rfl rfl rfl)) | (exact fun h => h) | (exact fun _ h => h) | split)

theorem wakeTenant_keeps {ex : Option TileId} {z : State} (s : State) (t : Tenant) (h0 : Keeps ex z s) : Keeps ex z (wakeTenant s t) := by
  unfold wakeTenant
  try dsimp only
  repeat' (first | with_reducible assumption | with_reducible apply openGate_keeps | with_reducible apply retargetFab_keeps | with_reducible apply wakePolder_keeps | with_reducible apply Keeps.ite | (with_reducible refine Keeps.foldl ?_ (fun _ _ _ => ?_)) | (fail_if_no_progress (with_reducible refine Keeps.frame ?_ rfl rfl rfl rfl)) | split)

end Sys2Proof.Machine
end

