-- ==== Sys2Proof/Laws/KeepsStatus.lean ====
section
/-! SUPPORT. The operations of Machine/Status.lean keep the queue, the counters and the invariant. -/

set_option linter.unusedTactic false
set_option linter.unusedVariables false
set_option linter.unreachableTactic false

namespace Sys2Proof.Machine

theorem takeMark_keeps {ex : Option TileId} {z : State} (s : State) (h0 : Keeps ex z s) : Keeps ex z (takeMark s) := by
  unfold takeMark
  try dsimp only
  repeat' (first | with_reducible assumption | with_reducible apply bump_keeps | with_reducible apply logEvent_keeps | with_reducible apply captureRegion_keeps | with_reducible apply safeShell_keeps | with_reducible apply Keeps.ite | (with_reducible refine Keeps.foldl ?_ (fun _ _ _ => ?_)) | (fail_if_no_progress (with_reducible refine Keeps.frame ?_ rfl rfl rfl rfl)) | split)

end Sys2Proof.Machine
end

