-- ==== Sys2Proof/Laws/KeepsLanding.lean ====
section
/-! SUPPORT. The operations of Machine/Landing.lean keep the queue, the counters and the invariant. -/

set_option linter.unusedTactic false
set_option linter.unusedVariables false
set_option linter.unreachableTactic false

namespace Sys2Proof.Machine

theorem setOrder_keeps {ex : Option TileId} {z : State} (s : State) (t : Tenant) (o : Order) (h0 : Keeps ex z s) : Keeps ex z (setOrder s t o) := by
  unfold setOrder
  try dsimp only
  repeat' (first | with_reducible assumption | with_reducible apply modTen_keeps | with_reducible apply Keeps.ite | (with_reducible refine Keeps.foldl ?_ (fun _ _ _ => ?_)) | (fail_if_no_progress (with_reducible refine Keeps.frame ?_ rfl rfl rfl rfl)) | split)

theorem modOrder_keeps {ex : Option TileId} {z : State} (s : State) (t : Tenant) (seq : Word) (f : Order → Order) (h0 : Keeps ex z s) : Keeps ex z (modOrder s t seq f) := by
  unfold modOrder
  try dsimp only
  repeat' (first | with_reducible assumption | with_reducible apply setOrder_keeps | with_reducible apply Keeps.ite | (with_reducible refine Keeps.foldl ?_ (fun _ _ _ => ?_)) | (fail_if_no_progress (with_reducible refine Keeps.frame ?_ rfl rfl rfl rfl)) | split)

theorem modRun_keeps {ex : Option TileId} {z : State} (s : State) (t : Tenant) (f : Order → Order) (h0 : Keeps ex z s) : Keeps ex z (modRun s t f) := by
  unfold modRun
  try dsimp only
  repeat' (first | with_reducible assumption | with_reducible apply setOrder_keeps | with_reducible apply Keeps.ite | (with_reducible refine Keeps.foldl ?_ (fun _ _ _ => ?_)) | (fail_if_no_progress (with_reducible refine Keeps.frame ?_ rfl rfl rfl rfl)) | split)

theorem landBit_keeps {ex : Option TileId} {z : State} (s : State) (k a : Nat) (v : Bool) (h0 : Keeps ex z s) : Keeps ex z (landBit s k a v) := by
  unfold landBit
  try dsimp only
  repeat' (first | with_reducible assumption | with_reducible apply setPeBit_keeps | with_reducible apply Keeps.ite | (with_reducible refine Keeps.foldl ?_ (fun _ _ _ => ?_)) | (fail_if_no_progress (with_reducible refine Keeps.frame ?_ rfl rfl rfl rfl)) | split)

theorem landElem_keeps {ex : Option TileId} {z : State} (s : State) (p : TileId) (g base w row sl v : Nat) (h0 : Keeps ex z s) : Keeps ex z (landElem s p g base w row sl v) := by
  unfold landElem
  try dsimp only
  repeat' (first | with_reducible assumption | with_reducible apply landBit_keeps | with_reducible apply Keeps.ite | (with_reducible refine Keeps.foldl ?_ (fun _ _ _ => ?_)) | (fail_if_no_progress (with_reducible refine Keeps.frame ?_ rfl rfl rfl rfl)) | split)

theorem landField_keeps {ex : Option TileId} {z : State} (s : State) (t : Tenant) (g base w n row sl v : Nat) (h0 : Keeps ex z s) : Keeps ex z (landField s t g base w n row sl v) := by
  unfold landField
  try dsimp only
  repeat' (first | with_reducible assumption | with_reducible apply landElem_keeps | with_reducible apply Keeps.ite | (with_reducible refine Keeps.foldl ?_ (fun _ _ _ => ?_)) | (fail_if_no_progress (with_reducible refine Keeps.frame ?_ rfl rfl rfl rfl)) | split)

theorem landAt_keeps {ex : Option TileId} {z : State} (s : State) (t : Tenant) (g base w x y v : Nat) (h0 : Keeps ex z s) : Keeps ex z (landAt s t g base w x y v) := by
  unfold landAt
  try dsimp only
  repeat' (first | with_reducible assumption | with_reducible apply landField_keeps | with_reducible apply Keeps.ite | (with_reducible refine Keeps.foldl ?_ (fun _ _ _ => ?_)) | (fail_if_no_progress (with_reducible refine Keeps.frame ?_ rfl rfl rfl rfl)) | split)

theorem landPlanes_keeps {ex : Option TileId} {z : State} (s : State) (c : CamCfg) (g base : Nat) (data : Bytes) (ty tx : Nat) (p : TileId) (h0 : Keeps ex z s) : Keeps ex z (landPlanes s c g base data ty tx p) := by
  unfold landPlanes
  try dsimp only
  repeat' (first | with_reducible assumption | with_reducible apply landElem_keeps | with_reducible apply Keeps.ite | (with_reducible refine Keeps.foldl ?_ (fun _ _ _ => ?_)) | (fail_if_no_progress (with_reducible refine Keeps.frame ?_ rfl rfl rfl rfl)) | split)

theorem landBand_keeps {ex : Option TileId} {z : State} (s : State) (t : Tenant) (c : CamCfg) (g base : Nat) (data : Bytes) (ty : Nat) (h0 : Keeps ex z s) : Keeps ex z (landBand s t c g base data ty) := by
  unfold landBand
  try dsimp only
  repeat' (first | with_reducible assumption | with_reducible apply landPlanes_keeps | with_reducible apply Keeps.ite | (with_reducible refine Keeps.foldl ?_ (fun _ _ _ => ?_)) | (fail_if_no_progress (with_reducible refine Keeps.frame ?_ rfl rfl rfl rfl)) | split)

theorem landAdc_keeps {ex : Option TileId} {z : State} (s : State) (t : Tenant) (i : InBind) (g base : Nat) (h0 : Keeps ex z s) : Keeps ex z (landAdc s t i g base) := by
  unfold landAdc
  try dsimp only
  repeat' (first | with_reducible assumption | with_reducible apply landAt_keeps | with_reducible apply Keeps.ite | (with_reducible refine Keeps.foldl ?_ (fun _ _ _ => ?_)) | (fail_if_no_progress (with_reducible refine Keeps.frame ?_ rfl rfl rfl rfl)) | split)

theorem landSnapshot_keeps {ex : Option TileId} {z : State} (s : State) (t : Tenant) (i : InBind) (g base : Nat) (h0 : Keeps ex z s) : Keeps ex z (landSnapshot s t i g base) := by
  unfold landSnapshot
  try dsimp only
  repeat' (first | with_reducible assumption | with_reducible apply landBit_keeps | with_reducible apply Keeps.ite | (with_reducible refine Keeps.foldl ?_ (fun _ _ _ => ?_)) | (fail_if_no_progress (with_reducible refine Keeps.frame ?_ rfl rfl rfl rfl)) | split)

theorem landRegion_keeps {ex : Option TileId} {z : State} (s : State) (t : Tenant) (i : InBind) (base : Nat) (h0 : Keeps ex z s) : Keeps ex z (landRegion s t i base) := by
  unfold landRegion
  try dsimp only
  repeat' (first | with_reducible assumption | with_reducible apply landField_keeps | with_reducible apply Keeps.ite | (with_reducible refine Keeps.foldl ?_ (fun _ _ _ => ?_)) | (fail_if_no_progress (with_reducible refine Keeps.frame ?_ rfl rfl rfl rfl)) | split)

theorem landAll_keeps {ex : Option TileId} {z : State} (s : State) (t : Tenant) (i : InBind) (a : Arm) (h0 : Keeps ex z s) : Keeps ex z (landAll s t i a) := by
  unfold landAll
  try dsimp only
  repeat' (first | with_reducible assumption | with_reducible apply extWrite_keeps | with_reducible apply landBand_keeps | with_reducible apply landAdc_keeps | with_reducible apply landSnapshot_keeps | with_reducible apply landRegion_keeps | with_reducible apply Keeps.ite | (with_reducible refine Keeps.foldl ?_ (fun _ _ _ => ?_)) | (fail_if_no_progress (with_reducible refine Keeps.frame ?_ rfl rfl rfl rfl)) | split)

theorem leaveBuf_keeps {ex : Option TileId} {z : State} (s : State) (t : Tenant) (seq : Word) (b n : Nat) (h0 : Keeps ex z s) : Keeps ex z (leaveBuf s t seq b n) := by
  unfold leaveBuf
  try dsimp only
  repeat' (first | with_reducible assumption | with_reducible apply modCam_keeps | with_reducible apply Keeps.ite | (with_reducible refine Keeps.foldl ?_ (fun _ _ _ => ?_)) | (fail_if_no_progress (with_reducible refine Keeps.frame ?_ rfl rfl rfl rfl)) | split)

theorem sendPlanes_keeps {ex : Option TileId} {z : State} (s : State) (t : Tenant) (seq : Word) (b : Nat) (c : CamCfg) (a : Arm) (ty : Nat) (e : Nat × Nat) (h0 : Keeps ex z s) : Keeps ex z (sendPlanes s t seq b c a ty e) := by
  unfold sendPlanes
  try dsimp only
  repeat' (first | with_reducible assumption | with_reducible apply modOrder_keeps | with_reducible apply landPlanes_keeps | with_reducible apply Keeps.ite | (with_reducible refine Keeps.foldl ?_ (fun _ _ _ => ?_)) | (fail_if_no_progress (with_reducible refine Keeps.frame ?_ rfl rfl rfl rfl)) | split)

theorem landBands_keeps {ex : Option TileId} {z : State} (s : State) (t : Tenant) (seq : Word) (b : Nat) (h0 : Keeps ex z s) : Keeps ex z (landBands s t seq b) := by
  unfold landBands
  try dsimp only
  repeat' (first | with_reducible assumption | with_reducible apply readAreas_keeps | with_reducible apply modOrder_keeps | with_reducible apply leaveBuf_keeps | with_reducible apply sendPlanes_keeps | with_reducible apply Keeps.ite | (with_reducible refine Keeps.foldl ?_ (fun _ _ _ => ?_)) | (fail_if_no_progress (with_reducible refine Keeps.frame ?_ rfl rfl rfl rfl)) | split)

end Sys2Proof.Machine
end

