-- ==== Sys2Proof/Laws/KeepsOrders.lean ====
section
/-! SUPPORT. The operations of Machine/Orders.lean keep the queue, the counters and the invariant. -/

set_option linter.unusedTactic false
set_option linter.unusedVariables false
set_option linter.unreachableTactic false

namespace Sys2Proof.Machine

theorem dropCtx_keeps {ex : Option TileId} {z : State} (s : State) (t : Tenant) (h0 : Keeps ex z s) : Keeps ex z (dropCtx s t) := by
  unfold dropCtx
  try dsimp only
  repeat' (first | with_reducible assumption | with_reducible apply setCtx_keeps | with_reducible apply Keeps.ite | (with_reducible refine Keeps.foldl ?_ (fun _ _ _ => ?_)) | (fail_if_no_progress (with_reducible refine Keeps.frame ?_ rfl rfl rfl rfl)) | split)

theorem loadCtx_keeps {ex : Option TileId} {z : State} (s : State) (t : Tenant) (k : Fin 3) (enables : BitVec 5) (trapMode : Bool) (h0 : Keeps ex z s) : Keeps ex z (loadCtx s t k enables trapMode) := by
  unfold loadCtx
  try dsimp only
  repeat' (first | with_reducible assumption | with_reducible apply setCtx_keeps | with_reducible apply Keeps.ite | (with_reducible refine Keeps.foldl ?_ (fun _ _ _ => ?_)) | (fail_if_no_progress (with_reducible refine Keeps.frame ?_ rfl rfl rfl rfl)) | split)

theorem dropPending_keeps {ex : Option TileId} {z : State} (s : State) (t : Tenant) (h0 : Keeps ex z s) : Keeps ex z (dropPending s t) := by
  unfold dropPending
  try dsimp only
  repeat' (first | with_reducible assumption | with_reducible apply setCtx_keeps | with_reducible apply Keeps.ite | (with_reducible refine Keeps.foldl ?_ (fun _ _ _ => ?_)) | (fail_if_no_progress (with_reducible refine Keeps.frame ?_ rfl rfl rfl rfl)) | split)

theorem quiet_keeps {ex : Option TileId} {z : State} (s : State) (t : Tenant) (h0 : Keeps ex z s) : Keeps ex z (quiet s t) := by
  unfold quiet
  try dsimp only
  repeat' (first | with_reducible assumption | with_reducible apply modSqr_keeps | with_reducible apply Keeps.ite | (with_reducible refine Keeps.foldl ?_ (fun _ _ _ => ?_)) | (fail_if_no_progress (with_reducible refine Keeps.frame ?_ rfl rfl rfl rfl)) | split)

theorem storeRecord_keeps {ex : Option TileId} {z : State} (s : State) (t : Tenant) (r : Record) (h0 : Keeps ex z s) : Keeps ex z (storeRecord s t r) := by
  unfold storeRecord
  try dsimp only
  repeat' (first | with_reducible assumption | with_reducible apply mirrorWrite_keeps | with_reducible apply Keeps.ite | (with_reducible refine Keeps.foldl ?_ (fun _ _ _ => ?_)) | (fail_if_no_progress (with_reducible refine Keeps.frame ?_ rfl rfl rfl rfl)) | split)

theorem storeRecords_keeps {ex : Option TileId} {z : State} (s : State) (t : Tenant) (n : Nat) (h0 : Keeps ex z s) : Keeps ex z (storeRecords s t n) := by
  unfold storeRecords
  try dsimp only
  repeat' (first | with_reducible assumption | with_reducible apply storeRecord_keeps | with_reducible apply Keeps.ite | (with_reducible refine Keeps.foldl ?_ (fun _ _ _ => ?_)) | (fail_if_no_progress (with_reducible refine Keeps.frame ?_ rfl rfl rfl rfl)) | split)

theorem dropFrames_keeps {ex : Option TileId} {z : State} (s : State) (t : Tenant) (seq : Word) (h0 : Keeps ex z s) : Keeps ex z (dropFrames s t seq) := by
  unfold dropFrames
  try dsimp only
  repeat' (first | with_reducible assumption | with_reducible apply modCam_keeps | with_reducible apply Keeps.ite | (with_reducible refine Keeps.foldl ?_ (fun _ _ _ => ?_)) | (fail_if_no_progress (with_reducible refine Keeps.frame ?_ rfl rfl rfl rfl)) | split)

theorem endWindow_keeps {ex : Option TileId} {z : State} (s : State) (t : Tenant) (h0 : Keeps ex z s) : Keeps ex z (endWindow s t) := by
  unfold endWindow
  try dsimp only
  repeat' (first | with_reducible assumption | with_reducible apply modTile_keeps | with_reducible apply modSqr_keeps | with_reducible apply Keeps.ite | (with_reducible refine Keeps.foldl ?_ (fun _ _ _ => ?_)) | (fail_if_no_progress (with_reducible refine Keeps.frame ?_ rfl rfl rfl rfl)) | (exact fun h => h) | (exact fun _ h => h) | split)

theorem placeFrame_keeps {ex : Option TileId} {z : State} (s : State) (t : Tenant) (h0 : Keeps ex z s) : Keeps ex z (placeFrame s t) := by
  unfold placeFrame
  try dsimp only
  repeat' (first | with_reducible assumption | with_reducible apply modTen_keeps | with_reducible apply Keeps.ite | (with_reducible refine Keeps.foldl ?_ (fun _ _ _ => ?_)) | (fail_if_no_progress (with_reducible refine Keeps.frame ?_ rfl rfl rfl rfl)) | split)

theorem settle_keeps {ex : Option TileId} {z : State} (s : State) (t : Tenant) (o : Order) (r : Record) (h0 : Keeps ex z s) : Keeps ex z (settle s t o r) := by
  unfold settle
  try dsimp only
  repeat' (first | with_reducible assumption | with_reducible apply modTen_keeps | with_reducible apply journalWrite_keeps | with_reducible apply dropCtx_keeps | with_reducible apply quiet_keeps | with_reducible apply storeRecords_keeps | with_reducible apply endWindow_keeps | with_reducible apply placeFrame_keeps | with_reducible apply Keeps.ite | (with_reducible refine Keeps.foldl ?_ (fun _ _ _ => ?_)) | (fail_if_no_progress (with_reducible refine Keeps.frame ?_ rfl rfl rfl rfl)) | split)

theorem abortOrder_keeps {ex : Option TileId} {z : State} (s : State) (t : Tenant) (o : Order) (cause : Byte) (h0 : Keeps ex z s) : Keeps ex z (abortOrder s t o cause) := by
  unfold abortOrder
  try dsimp only
  repeat' (first | with_reducible assumption | with_reducible apply dropFrames_keeps | with_reducible apply settle_keeps | with_reducible apply Keeps.ite | (with_reducible refine Keeps.foldl ?_ (fun _ _ _ => ?_)) | (fail_if_no_progress (with_reducible refine Keeps.frame ?_ rfl rfl rfl rfl)) | split)

theorem kick_keeps {ex : Option TileId} {z : State} (s : State) (t : Tenant) (h0 : Keeps ex z s) : Keeps ex z (kick s t) := by
  unfold kick
  try dsimp only
  repeat' (first | with_reducible assumption | with_reducible apply modTen_keeps | with_reducible apply wakeTenant_keeps | with_reducible apply Keeps.ite | (with_reducible refine Keeps.foldl ?_ (fun _ _ _ => ?_)) | (fail_if_no_progress (with_reducible refine Keeps.frame ?_ rfl rfl rfl rfl)) | split)

theorem kickAll_keeps {ex : Option TileId} {z : State} (s : State) (h0 : Keeps ex z s) : Keeps ex z (kickAll s) := by
  unfold kickAll
  try dsimp only
  repeat' (first | with_reducible assumption | with_reducible apply kick_keeps | with_reducible apply Keeps.ite | (with_reducible refine Keeps.foldl ?_ (fun _ _ _ => ?_)) | (fail_if_no_progress (with_reducible refine Keeps.frame ?_ rfl rfl rfl rfl)) | split)

theorem scrubTiles_keeps {ex : Option TileId} {z : State} (s : State) (ps : List TileId) (h0 : Keeps ex z s) : Keeps ex z (scrubTiles s ps) := by
  unfold scrubTiles
  refine bump_keeps _ (Keeps.foldl (Keeps.foldl (Keeps.foldl h0 fun _ _ h => ?_) fun _ _ h => Keeps.foldl h fun _ _ h => ?_)
    fun u _ h => modTile_keeps _ _ _ ?_ fun _ h => h)
  · exact scramble_keeps _ _ _ h
  · exact setPe_keeps _ _ _ h
  · exact Keeps.mem (s := u) h id id id id id (fun w => SMap.wf_clearRange _ _ w) id id

theorem startPes_keeps {ex : Option TileId} {z : State} (s : State) (t : Tenant) (h0 : Keeps ex z s) : Keeps ex z (startPes s t) := by
  unfold startPes
  try dsimp only
  repeat' (first | with_reducible assumption | with_reducible apply setPe_keeps | with_reducible apply clearSticky_keeps | with_reducible apply Keeps.ite | (with_reducible refine Keeps.foldl ?_ (fun _ _ _ => ?_)) | (fail_if_no_progress (with_reducible refine Keeps.frame ?_ rfl rfl rfl rfl)) | split)

theorem reland_keeps {ex : Option TileId} {z : State} (s : State) (t : Tenant) (seq : Word) (bs : List Nat) (h0 : Keeps ex z s) : Keeps ex z (reland s t seq bs) := by
  unfold reland
  try dsimp only
  repeat' (first | with_reducible assumption | with_reducible apply landAll_keeps | with_reducible apply Keeps.ite | (with_reducible refine Keeps.foldl ?_ (fun _ _ _ => ?_)) | (fail_if_no_progress (with_reducible refine Keeps.frame ?_ rfl rfl rfl rfl)) | split)

theorem restorePlanes_keeps {ex : Option TileId} {z : State} (s : State) (t : Tenant) (k : Ckpt) (h0 : Keeps ex z s) : Keeps ex z (restorePlanes s t k) := by
  unfold restorePlanes
  try dsimp only
  repeat' (first | with_reducible assumption | with_reducible apply setPe_keeps | with_reducible apply setPeBit_keeps | with_reducible apply Keeps.ite | (with_reducible refine Keeps.foldl ?_ (fun _ _ _ => ?_)) | (fail_if_no_progress (with_reducible refine Keeps.frame ?_ rfl rfl rfl rfl)) | split)

theorem reexecNow_keeps {ex : Option TileId} {z : State} (s : State) (t : Tenant) (o : Order) (q : SeqId) (h0 : Keeps ex z s) : Keeps ex z (reexecNow s t o q) := by
  unfold reexecNow
  try dsimp only
  repeat' (first | with_reducible assumption | with_reducible apply modTile_keeps | with_reducible apply modSqr_keeps | with_reducible apply openGate_keeps | with_reducible apply setOrder_keeps | with_reducible apply landBands_keeps | with_reducible apply dropCtx_keeps | with_reducible apply loadCtx_keeps | with_reducible apply dropPending_keeps | with_reducible apply scrubTiles_keeps | with_reducible apply startPes_keeps | with_reducible apply reland_keeps | with_reducible apply restorePlanes_keeps | with_reducible apply Keeps.ite | (with_reducible refine Keeps.foldl ?_ (fun _ _ _ => ?_)) | (fail_if_no_progress (with_reducible refine Keeps.frame ?_ rfl rfl rfl rfl)) | (exact fun h => h) | (exact fun _ h => h) | split)

theorem readBack_keeps {ex : Option TileId} {z : State} (s : State) (t : Tenant) (o : Order) (h0 : Keeps ex z s) : Keeps ex z (readBack s t o).1 := by
  unfold readBack
  refine Keeps.fold1 ?_ fun u b h => ?_
  · split
    · exact readAreas_keeps _ _ _ _ _ _ h0
    · exact h0
  · split
    · split
      · exact readAreas_keeps _ _ _ _ _ _ h
      · exact h
    · exact h

theorem tryReexec_keeps {ex : Option TileId} {z : State} (s : State) (t : Tenant) (h0 : Keeps ex z s) : Keeps ex z (tryReexec s t) := by
  unfold tryReexec
  try dsimp only
  repeat' (first | with_reducible assumption | with_reducible apply setOrder_keeps | with_reducible apply abortOrder_keeps | with_reducible apply kick_keeps | with_reducible apply reexecNow_keeps | with_reducible apply readBack_keeps | with_reducible apply Keeps.ite | (with_reducible refine Keeps.foldl ?_ (fun _ _ _ => ?_)) | (fail_if_no_progress (with_reducible refine Keeps.frame ?_ rfl rfl rfl rfl)) | split)

theorem tryReexecAll_keeps {ex : Option TileId} {z : State} (s : State) (h0 : Keeps ex z s) : Keeps ex z (tryReexecAll s) := by
  unfold tryReexecAll
  try dsimp only
  repeat' (first | with_reducible assumption | with_reducible apply tryReexec_keeps | with_reducible apply Keeps.ite | (with_reducible refine Keeps.foldl ?_ (fun _ _ _ => ?_)) | (fail_if_no_progress (with_reducible refine Keeps.frame ?_ rfl rfl rfl rfl)) | split)

theorem recompute_keeps {ex : Option TileId} {z : State} (s : State) (t : Tenant) (h0 : Keeps ex z s) : Keeps ex z (recompute s t) := by
  unfold recompute
  try dsimp only
  repeat' (first | with_reducible assumption | with_reducible apply logEvent_keeps | with_reducible apply setOrder_keeps | with_reducible apply dropPending_keeps | with_reducible apply quiet_keeps | with_reducible apply tryReexec_keeps | with_reducible apply tryReexecAll_keeps | with_reducible apply Keeps.ite | (with_reducible refine Keeps.foldl ?_ (fun _ _ _ => ?_)) | (fail_if_no_progress (with_reducible refine Keeps.frame ?_ rfl rfl rfl rfl)) | split)

theorem landOldest_keeps {ex : Option TileId} {z : State} (s : State) (t : Tenant) (h0 : Keeps ex z s) : Keeps ex z (landOldest s t) := by
  unfold landOldest
  try dsimp only
  repeat' (first | with_reducible assumption | with_reducible apply landBands_keeps | with_reducible apply Keeps.ite | (with_reducible refine Keeps.foldl ?_ (fun _ _ _ => ?_)) | (fail_if_no_progress (with_reducible refine Keeps.frame ?_ rfl rfl rfl rfl)) | split)

theorem afterSettle_keeps {ex : Option TileId} {z : State} (s : State) (t : Tenant) (h0 : Keeps ex z s) : Keeps ex z (afterSettle s t) := by
  unfold afterSettle
  try dsimp only
  repeat' (first | with_reducible assumption | with_reducible apply kick_keeps | with_reducible apply tryReexecAll_keeps | with_reducible apply landOldest_keeps | with_reducible apply Keeps.ite | (with_reducible refine Keeps.foldl ?_ (fun _ _ _ => ?_)) | (fail_if_no_progress (with_reducible refine Keeps.frame ?_ rfl rfl rfl rfl)) | split)

theorem abortOrders_keeps {ex : Option TileId} {z : State} (s : State) (t : Tenant) (seqs : List Word) (cause : Byte) (h0 : Keeps ex z s) : Keeps ex z (abortOrders s t seqs cause) := by
  unfold abortOrders
  try dsimp only
  repeat' (first | with_reducible assumption | with_reducible apply abortOrder_keeps | with_reducible apply afterSettle_keeps | with_reducible apply Keeps.ite | (with_reducible refine Keeps.foldl ?_ (fun _ _ _ => ?_)) | (fail_if_no_progress (with_reducible refine Keeps.frame ?_ rfl rfl rfl rfl)) | split)

theorem abortAllOrders_keeps {ex : Option TileId} {z : State} (s : State) (t : Tenant) (cause : Byte) (h0 : Keeps ex z s) : Keeps ex z (abortAllOrders s t cause) := by
  unfold abortAllOrders
  try dsimp only
  repeat' (first | with_reducible assumption | with_reducible apply abortOrders_keeps | with_reducible apply Keeps.ite | (with_reducible refine Keeps.foldl ?_ (fun _ _ _ => ?_)) | (fail_if_no_progress (with_reducible refine Keeps.frame ?_ rfl rfl rfl rfl)) | split)

theorem inputLost_keeps {ex : Option TileId} {z : State} (s : State) (t : Tenant) (seq : Word) (h0 : Keeps ex z s) : Keeps ex z (inputLost s t seq) := by
  unfold inputLost
  try dsimp only
  repeat' (first | with_reducible assumption | with_reducible apply abortOrders_keeps | with_reducible apply Keeps.ite | (with_reducible refine Keeps.foldl ?_ (fun _ _ _ => ?_)) | (fail_if_no_progress (with_reducible refine Keeps.frame ?_ rfl rfl rfl rfl)) | split)

theorem landNow_keeps {ex : Option TileId} {z : State} (s : State) (t : Tenant) (seq : Word) (b : Nat) (h0 : Keeps ex z s) : Keeps ex z (landNow s t seq b) := by
  unfold landNow
  try dsimp only
  repeat' (first | with_reducible assumption | with_reducible apply landBands_keeps | with_reducible apply inputLost_keeps | with_reducible apply Keeps.ite | (with_reducible refine Keeps.foldl ?_ (fun _ _ _ => ?_)) | (fail_if_no_progress (with_reducible refine Keeps.frame ?_ rfl rfl rfl rfl)) | split)

theorem ingestClear_keeps {ex : Option TileId} {z : State} (s : State) (n : NiId) (lost : Bool) (h0 : Keeps ex z s) : Keeps ex z (ingestClear s n lost) := by
  unfold ingestClear
  try dsimp only
  repeat' (first | with_reducible assumption | with_reducible apply modOrder_keeps | with_reducible apply sendPlanes_keeps | with_reducible apply inputLost_keeps | with_reducible apply Keeps.ite | (with_reducible refine Keeps.foldl ?_ (fun _ _ _ => ?_)) | (fail_if_no_progress (with_reducible refine Keeps.frame ?_ rfl rfl rfl rfl)) | split)

theorem yielded_keeps {ex : Option TileId} {z : State} (s : State) (u t : Tenant) (rung : Byte) (us : Nat) (h0 : Keeps ex z s) : Keeps ex z (yielded s u t rung us) := by
  unfold yielded
  try dsimp only
  repeat' (first | with_reducible assumption | with_reducible apply modTen_keeps | with_reducible apply tideFault_keeps | with_reducible apply logEvent_keeps | with_reducible apply emergency_keeps | with_reducible apply Keeps.ite | (with_reducible refine Keeps.foldl ?_ (fun _ _ _ => ?_)) | (fail_if_no_progress (with_reducible refine Keeps.frame ?_ rfl rfl rfl rfl)) | split)

theorem mayYield_keeps {ex : Option TileId} {z : State} (s : State) (t : Tenant) (rungs : List Byte) (h0 : Keeps ex z s) : Keeps ex z (mayYield s t rungs) := by
  unfold mayYield
  try dsimp only
  repeat' (first | with_reducible assumption | with_reducible apply bump_keeps | with_reducible apply yielded_keeps | with_reducible apply Keeps.ite | (with_reducible refine Keeps.foldl ?_ (fun _ _ _ => ?_)) | (fail_if_no_progress (with_reducible refine Keeps.frame ?_ rfl rfl rfl rfl)) | split)

theorem mailboxCopy_keeps {ex : Option TileId} {z : State} (s0 : State) (m : Nat) (h0 : Keeps ex z s0) : Keeps ex z (mailboxCopy s0 m) := by
  unfold mailboxCopy
  try dsimp only
  repeat' (first | with_reducible assumption | with_reducible apply mirrorMend_keeps | with_reducible apply Keeps.ite | (with_reducible refine Keeps.foldl ?_ (fun _ _ _ => ?_)) | (fail_if_no_progress (with_reducible refine Keeps.frame ?_ rfl rfl rfl rfl)) | split)

theorem releaseWrite_keeps {ex : Option TileId} {z : State} (s : State) (t : Tenant) (b : OutBind) (w : Staged) (h0 : Keeps ex z s) : Keeps ex z (releaseWrite s t b w) := by
  unfold releaseWrite
  try dsimp only
  repeat' (first | with_reducible assumption | with_reducible apply modTen_keeps | with_reducible apply extWrite_keeps | with_reducible apply mirrorWrite_keeps | with_reducible apply Keeps.ite | (with_reducible refine Keeps.foldl ?_ (fun _ _ _ => ?_)) | (fail_if_no_progress (with_reducible refine Keeps.frame ?_ rfl rfl rfl rfl)) | split)

theorem releaseEnd_keeps {ex : Option TileId} {z : State} (s : State) (t : Tenant) (b : OutBind) (seq : Word) (h0 : Keeps ex z s) : Keeps ex z (releaseEnd s t b seq) := by
  unfold releaseEnd
  try dsimp only
  repeat' (first | with_reducible assumption | with_reducible apply modTen_keeps | with_reducible apply mirrorWrite_keeps | with_reducible apply mailboxCopy_keeps | with_reducible apply Keeps.ite | (with_reducible refine Keeps.foldl ?_ (fun _ _ _ => ?_)) | (fail_if_no_progress (with_reducible refine Keeps.frame ?_ rfl rfl rfl rfl)) | split)

theorem releaseBind_keeps {ex : Option TileId} {z : State} (s : State) (t : Tenant) (o : Order) (i : Nat) (h0 : Keeps ex z s) : Keeps ex z (releaseBind s t o i) := by
  unfold releaseBind
  try dsimp only
  repeat' (first | with_reducible assumption | with_reducible apply modTen_keeps | with_reducible apply releaseWrite_keeps | with_reducible apply releaseEnd_keeps | with_reducible apply Keeps.ite | (with_reducible refine Keeps.foldl ?_ (fun _ _ _ => ?_)) | (fail_if_no_progress (with_reducible refine Keeps.frame ?_ rfl rfl rfl rfl)) | split)

theorem releaseAll_keeps {ex : Option TileId} {z : State} (s : State) (t : Tenant) (o : Order) (h0 : Keeps ex z s) : Keeps ex z (releaseAll s t o) := by
  unfold releaseAll
  try dsimp only
  repeat' (first | with_reducible assumption | with_reducible apply releaseBind_keeps | with_reducible apply Keeps.ite | (with_reducible refine Keeps.foldl ?_ (fun _ _ _ => ?_)) | (fail_if_no_progress (with_reducible refine Keeps.frame ?_ rfl rfl rfl rfl)) | split)

theorem commitOrder_keeps {ex : Option TileId} {z : State} (s : State) (t : Tenant) (o : Order) (h0 : Keeps ex z s) : Keeps ex z (commitOrder s t o) := by
  unfold commitOrder
  try dsimp only
  repeat' (first | with_reducible assumption | with_reducible apply modTen_keeps | with_reducible apply readAreas_keeps | with_reducible apply journalWrite_keeps | with_reducible apply settle_keeps | with_reducible apply afterSettle_keeps | with_reducible apply mayYield_keeps | with_reducible apply releaseAll_keeps | with_reducible apply Keeps.ite | (with_reducible refine Keeps.foldl ?_ (fun _ _ _ => ?_)) | (fail_if_no_progress (with_reducible refine Keeps.frame ?_ rfl rfl rfl rfl)) | split)

theorem checkMark_keeps {ex : Option TileId} {z : State} (s : State) (h0 : Keeps ex z s) : Keeps ex z (checkMark s) := by
  unfold checkMark
  try dsimp only
  repeat' (first | with_reducible assumption | with_reducible apply tideFault_keeps | with_reducible apply Keeps.ite | (with_reducible refine Keeps.foldl ?_ (fun _ _ _ => ?_)) | (fail_if_no_progress (with_reducible refine Keeps.frame ?_ rfl rfl rfl rfl)) | split)

theorem dualMismatch_keeps {ex : Option TileId} {z : State} (s : State) (t : Tenant) (h0 : Keeps ex z s) : Keeps ex z (dualMismatch s t) := by
  unfold dualMismatch
  try dsimp only
  repeat' (first | with_reducible assumption | with_reducible apply setOrder_keeps | with_reducible apply recompute_keeps | with_reducible apply abortOrders_keeps | with_reducible apply checkMark_keeps | with_reducible apply Keeps.ite | (with_reducible refine Keeps.foldl ?_ (fun _ _ _ => ?_)) | (fail_if_no_progress (with_reducible refine Keeps.frame ?_ rfl rfl rfl rfl)) | split)

theorem finishOrder_keeps {ex : Option TileId} {z : State} (s : State) (t : Tenant) (h0 : Keeps ex z s) : Keeps ex z (finishOrder s t) := by
  unfold finishOrder
  try dsimp only
  repeat' (first | with_reducible assumption | with_reducible apply commitOrder_keeps | with_reducible apply dualMismatch_keeps | with_reducible apply Keeps.ite | (with_reducible refine Keeps.foldl ?_ (fun _ _ _ => ?_)) | (fail_if_no_progress (with_reducible refine Keeps.frame ?_ rfl rfl rfl rfl)) | split)

theorem abortTenant_keeps {ex : Option TileId} {z : State} (s : State) (t : Tenant) (fabric : Bool) (h0 : Keeps ex z s) : Keeps ex z (abortTenant s t fabric) := by
  unfold abortTenant
  try dsimp only
  repeat' (first | with_reducible assumption | with_reducible apply modTen_keeps | with_reducible apply logEvent_keeps | with_reducible apply storeRecords_keeps | with_reducible apply abortAllOrders_keeps | with_reducible apply mayYield_keeps | with_reducible apply Keeps.ite | (with_reducible refine Keeps.foldl ?_ (fun _ _ _ => ?_)) | (fail_if_no_progress (with_reducible refine Keeps.frame ?_ rfl rfl rfl rfl)) | split)

end Sys2Proof.Machine
end

