-- ==== Sys2Proof/Laws/KeepsTrap.lean ====
section
/-! SUPPORT. The operations of Machine/Trap.lean keep the queue, the counters and the invariant. -/

set_option linter.unusedTactic false
set_option linter.unusedVariables false
set_option linter.unreachableTactic false

namespace Sys2Proof.Machine

theorem setPeRes_keeps {ex : Option TileId} {z : State} (s : State) (k : Nat) (v : BitVec 6) (h0 : Keeps ex z s) : Keeps ex z (setPeRes s k v) := by
  unfold setPeRes
  try dsimp only
  repeat' (first | with_reducible assumption | with_reducible apply setPe_keeps | with_reducible apply Keeps.ite | (with_reducible refine Keeps.foldl ?_ (fun _ _ _ => ?_)) | (fail_if_no_progress (with_reducible refine Keeps.frame ?_ rfl rfl rfl rfl)) | split)

theorem clearResidues_keeps {ex : Option TileId} {z : State} (s : State) (ps : List TileId) (h0 : Keeps ex z s) : Keeps ex z (clearResidues s ps) := by
  unfold clearResidues
  try dsimp only
  repeat' (first | with_reducible assumption | with_reducible apply Keeps.ite | (with_reducible refine Keeps.foldl ?_ (fun _ _ _ => ?_)) | (fail_if_no_progress (with_reducible refine Keeps.frame ?_ rfl rfl rfl rfl)) | split)

theorem saveSlot_keeps {ex : Option TileId} {z : State} (s : State) (k : Nat) (h0 : Keeps ex z s) : Keeps ex z (saveSlot s k) := by
  unfold saveSlot
  try dsimp only
  repeat' (first | with_reducible assumption | with_reducible apply setPeBit_keeps | with_reducible apply Keeps.ite | (with_reducible refine Keeps.foldl ?_ (fun _ _ _ => ?_)) | (fail_if_no_progress (with_reducible refine Keeps.frame ?_ rfl rfl rfl rfl)) | split)

theorem loadSlot_keeps {ex : Option TileId} {z : State} (s : State) (k : Nat) (h0 : Keeps ex z s) : Keeps ex z (loadSlot s k) := by
  unfold loadSlot
  try dsimp only
  repeat' (first | with_reducible assumption | with_reducible apply setPe_keeps | with_reducible apply setPeX_keeps | with_reducible apply setPeRes_keeps | with_reducible apply Keeps.ite | (with_reducible refine Keeps.foldl ?_ (fun _ _ _ => ?_)) | (fail_if_no_progress (with_reducible refine Keeps.frame ?_ rfl rfl rfl rfl)) | split)

theorem addTime_keeps {ex : Option TileId} {z : State} (s : State) (t : Tenant) (n : Nat) (h0 : Keeps ex z s) : Keeps ex z (addTime s t n) := by
  unfold addTime
  try dsimp only
  repeat' (first | with_reducible assumption | with_reducible apply modRun_keeps | with_reducible apply Keeps.ite | (with_reducible refine Keeps.foldl ?_ (fun _ _ _ => ?_)) | (fail_if_no_progress (with_reducible refine Keeps.frame ?_ rfl rfl rfl rfl)) | split)

theorem doubleTrap_keeps {ex : Option TileId} {z : State} (s : State) (t : Tenant) (cause pc : Nat) (h0 : Keeps ex z s) : Keeps ex z (doubleTrap s t cause pc) := by
  unfold doubleTrap
  try dsimp only
  repeat' (first | with_reducible assumption | with_reducible apply logEvent_keeps | with_reducible apply abortOrders_keeps | with_reducible apply Keeps.ite | (with_reducible refine Keeps.foldl ?_ (fun _ _ _ => ?_)) | (fail_if_no_progress (with_reducible refine Keeps.frame ?_ rfl rfl rfl rfl)) | split)

theorem trapVector_keeps {ex : Option TileId} {z : State} (s : State) (t : Tenant) (c : Nat) (h0 : Keeps ex z s) : Keeps ex z (trapVector s t c).1 := by
  unfold trapVector
  try dsimp only
  repeat' (first | with_reducible assumption | with_reducible apply fetchProg_keeps | with_reducible apply Keeps.ite | (with_reducible refine Keeps.foldl ?_ (fun _ _ _ => ?_)) | (fail_if_no_progress (with_reducible refine Keeps.frame ?_ rfl rfl rfl rfl)) | split)

theorem enterTrap_keeps {ex : Option TileId} {z : State} (s : State) (t : Tenant) (q : SeqId) (cause detail pc resume upc : Nat) (h0 : Keeps ex z s) : Keeps ex z (enterTrap s t q cause detail pc resume upc) := by
  unfold enterTrap
  try dsimp only
  repeat' (first | with_reducible assumption | with_reducible apply modSqr_keeps | with_reducible apply modTen_keeps | with_reducible apply setPe_keeps | with_reducible apply xmWrite_keeps | with_reducible apply abortOrders_keeps | with_reducible apply saveSlot_keeps | with_reducible apply addTime_keeps | with_reducible apply doubleTrap_keeps | with_reducible apply trapVector_keeps | with_reducible apply Keeps.ite | (with_reducible refine Keeps.foldl ?_ (fun _ _ _ => ?_)) | (fail_if_no_progress (with_reducible refine Keeps.frame ?_ rfl rfl rfl rfl)) | split)

theorem raiseTrap_keeps {ex : Option TileId} {z : State} (s : State) (t : Tenant) (q : SeqId) (cause detail pc resume upc : Nat) (h0 : Keeps ex z s) : Keeps ex z (raiseTrap s t q cause detail pc resume upc) := by
  unfold raiseTrap
  try dsimp only
  repeat' (first | with_reducible assumption | with_reducible apply doubleTrap_keeps | with_reducible apply enterTrap_keeps | with_reducible apply Keeps.ite | (with_reducible refine Keeps.foldl ?_ (fun _ _ _ => ?_)) | (fail_if_no_progress (with_reducible refine Keeps.frame ?_ rfl rfl rfl rfl)) | split)

theorem takeFlagOr_keeps {ex : Option TileId} {z : State} (s : State) (t : Tenant) (f : FlagOr) (h0 : Keeps ex z s) : Keeps ex z (takeFlagOr s t f) := by
  unfold takeFlagOr
  try dsimp only
  repeat' (first | with_reducible assumption | with_reducible apply setCtx_keeps | with_reducible apply modRun_keeps | with_reducible apply Keeps.ite | (with_reducible refine Keeps.foldl ?_ (fun _ _ _ => ?_)) | (fail_if_no_progress (with_reducible refine Keeps.frame ?_ rfl rfl rfl rfl)) | split)

theorem drainFlags_keeps {ex : Option TileId} {z : State} (s : State) (t : Tenant) (q : SeqId) (h0 : Keeps ex z s) : Keeps ex z (drainFlags s t q) := by
  unfold drainFlags
  try dsimp only
  repeat' (first | with_reducible assumption | with_reducible apply modSqr_keeps | with_reducible apply takeFlagOr_keeps | with_reducible apply Keeps.ite | (with_reducible refine Keeps.foldl ?_ (fun _ _ _ => ?_)) | (fail_if_no_progress (with_reducible refine Keeps.frame ?_ rfl rfl rfl rfl)) | split)

theorem bindTrap_keeps {ex : Option TileId} {z : State} (s : State) (t : Tenant) (q : SeqId) (h0 : Keeps ex z s) : Keeps ex z (bindTrap s t q) := by
  unfold bindTrap
  try dsimp only
  repeat' (first | with_reducible assumption | with_reducible apply modRun_keeps | with_reducible apply enterTrap_keeps | with_reducible apply Keeps.ite | (with_reducible refine Keeps.foldl ?_ (fun _ _ _ => ?_)) | (fail_if_no_progress (with_reducible refine Keeps.frame ?_ rfl rfl rfl rfl)) | split)

theorem boundary_keeps {ex : Option TileId} {z : State} (s : State) (t : Tenant) (q : SeqId) (h0 : Keeps ex z s) : Keeps ex z (boundary s t q) := by
  unfold boundary
  try dsimp only
  repeat' (first | with_reducible assumption | with_reducible apply setCtx_keeps | with_reducible apply enterTrap_keeps | with_reducible apply bindTrap_keeps | with_reducible apply Keeps.ite | (with_reducible refine Keeps.foldl ?_ (fun _ _ _ => ?_)) | (fail_if_no_progress (with_reducible refine Keeps.frame ?_ rfl rfl rfl rfl)) | split)

theorem advance_keeps {ex : Option TileId} {z : State} (s : State) (t : Tenant) (q : SeqId) (h0 : Keeps ex z s) : Keeps ex z (advance s t q) := by
  unfold advance
  try dsimp only
  repeat' (first | with_reducible assumption | with_reducible apply modSqr_keeps | with_reducible apply raiseTrap_keeps | with_reducible apply Keeps.ite | (with_reducible refine Keeps.foldl ?_ (fun _ _ _ => ?_)) | (fail_if_no_progress (with_reducible refine Keeps.frame ?_ rfl rfl rfl rfl)) | split)

theorem jump_keeps {ex : Option TileId} {z : State} (s : State) (t : Tenant) (q : SeqId) (tgt : Nat) (h0 : Keeps ex z s) : Keeps ex z (jump s t q tgt) := by
  unfold jump
  try dsimp only
  repeat' (first | with_reducible assumption | with_reducible apply modSqr_keeps | with_reducible apply raiseTrap_keeps | with_reducible apply Keeps.ite | (with_reducible refine Keeps.foldl ?_ (fun _ _ _ => ?_)) | (fail_if_no_progress (with_reducible refine Keeps.frame ?_ rfl rfl rfl rfl)) | split)

theorem returnTrap_keeps {ex : Option TileId} {z : State} (s : State) (t : Tenant) (q : SeqId) (h0 : Keeps ex z s) : Keeps ex z (returnTrap s t q) := by
  unfold returnTrap
  try dsimp only
  repeat' (first | with_reducible assumption | with_reducible apply modSqr_keeps | with_reducible apply latchBad_keeps | with_reducible apply loadSlot_keeps | with_reducible apply doubleTrap_keeps | with_reducible apply Keeps.ite | (with_reducible refine Keeps.foldl ?_ (fun _ _ _ => ?_)) | (fail_if_no_progress (with_reducible refine Keeps.frame ?_ rfl rfl rfl rfl)) | split)

end Sys2Proof.Machine
end

