-- ==== Sys2Proof/Laws/KeepsFailover.lean ====
section
/-! SUPPORT. The operations of Machine/Failover.lean keep the queue, the counters and the invariant. -/

set_option linter.unusedTactic false
set_option linter.unusedVariables false
set_option linter.unreachableTactic false

namespace Sys2Proof.Machine

theorem tile_modTile (s : State) (p a : Nat) (f : Tile → Tile) :
    tile (modTile s p f) a = if a = p then f (tile s p) else tile s a := tile_setTile s p a _

theorem setTileSvc_keeps {ex : Option TileId} {z : State} (s : State) (p : TileId) (v : TileService) (h0 : Keeps ex z s)
    (hv : (v = .inService ∨ v = .failed) ∨ ¬fillsOk (tile s p.val)) : Keeps ex z (setTileSvc s p v) :=
  logEvent_keeps _ _ _ _ _ _ _ (Keeps.tile _ _ h0 fun h => hv.elim (fun h => h) fun n => absurd h n)

/-- A tile that is neither in service nor FAILED changes its phase. -/
theorem setPhase_keeps {ex : Option TileId} {z : State} (s : State) (p : TileId) (f : Tile → Tile) (v w : TileService)
    (h0 : Keeps ex z s) (hf : ∀ x, (f x).service = x.service) (hw : (tile s p.val).service = w)
    (hn : w ≠ .inService ∧ w ≠ .failed) : Keeps ex z (setTileSvc (modTile s p.val f) p v) := by
  refine setTileSvc_keeps _ _ _ (modTile_keeps _ _ _ h0 fun x h => by simpa only [fillsOk, hf] using h) (Or.inr ?_)
  rw [tile_modTile, if_pos rfl, fillsOk, hf, hw]
  exact fun h => h.elim hn.1 hn.2

theorem tileDrained_keeps {ex : Option TileId} {z : State} (s : State) (p : TileId) (h0 : Keeps ex z s) :
    Keeps ex z (tileDrained s p) := by
  unfold tileDrained
  split
  · rename_i h
    exact setPhase_keeps _ _ _ _ _ h0 (fun _ => rfl) h (by decide)
  · exact h0

theorem tileMarched_keeps {ex : Option TileId} {z : State} (s : State) (p : TileId) (passed : Bool) (h0 : Keeps ex z s) :
    Keeps ex z (tileMarched s p passed) := by
  unfold tileMarched
  dsimp only
  split
  · exact h0
  · rename_i h
    split
    · split
      · exact modTile_keeps _ _ _ h0 fun _ h => h
      · exact setPhase_keeps _ _ _ _ .retest h0 (fun _ => rfl) (Decidable.not_not.mp h) (by decide)
    · exact setTileSvc_keeps _ _ _ (modTile_keeps _ _ _ h0 fun _ h => h) (Or.inl (Or.inr rfl))

/-- Powering down changes neither the map nor a tile's service state. -/
theorem powerDown_tiles (s : State) (p : Nat) (r : FenceReason) : (powerDown s p r).map = s.map ∧
    ∀ a, (tile (powerDown s p r) a).service = (tile s a).service := by
  have fr : ∀ u, (retargetFab u).map = u.map ∧ (retargetFab u).tiles = u.tiles := fun u =>
    have h := retargetFab_foot (m := 0x88800000) u (by decide) (Foot.refl _ u)
    ⟨h.2 .map (by decide), h.2 .tiles (by decide)⟩
  have fs : ∀ u n v, (setNiSt u n v).map = u.map ∧ (setNiSt u n v).tiles = u.tiles := fun u n v =>
    have h := setNiSt_foot (m := 0x800000) u n v (by decide) (Foot.refl _ u)
    ⟨h.2 .map (by decide), h.2 .tiles (by decide)⟩
  have fc : ∀ u n v, (closeNi u n v).map = u.map ∧ (closeNi u n v).tiles = u.tiles := fun u n v =>
    have h := closeNi_foot (m := 0x800000) u n v (by decide) (Foot.refl _ u)
    ⟨h.2 .map (by decide), h.2 .tiles (by decide)⟩
  unfold powerDown
  split
  · exact ⟨rfl, fun _ => rfl⟩
  · split
    · exact ⟨(fc _ _ _).1, fun a => by simp only [tile, (fc _ _ _).2]⟩
    · exact ⟨(fs _ _ _).1, fun a => by simp only [tile, (fs _ _ _).2]⟩
    · unfold polderOff
      refine ⟨(fr _).1.trans (fs _ _ _).1, fun a => ?_⟩
      simp only [tile, (fr _).2, (fs _ _ _).2]
      show (tile (modTile (clearTile s p) p _) a).service = _
      rw [tile_modTile]
      split
      · rename_i e; rw [e]; rfl
      · rfl

/-- The drained tile has lost its position: nothing is excepted any more. -/
theorem Keeps.unmapped {z s : State} (p : TileId) (h : Keeps (some p) z s) (hp : ∀ n, n < 16 → physOf s n ≠ some p) :
    Keeps none z s :=
  ⟨h.queue, h.counters, fun j => ⟨(h.inv j).1, (h.inv j).2.1, (h.inv j).2.2.1, (h.inv j).2.2.2.1, fun n q hn hq _ =>
    (h.inv j).2.2.2.2 n q hn hq fun e => by
      injection e with e
      subst e
      exact hp n hn hq⟩⟩

theorem lposOf_none {s : State} {p : TileId} (h : lposOf s p = none) (n : Nat) (hn : n < 16) : physOf s n ≠ some p := by
  unfold lposOf at h
  rw [List.find?_eq_none] at h
  simpa using h n (List.mem_range.mpr hn)

theorem lposOf_some {s : State} {p : TileId} {n : Nat} (h : lposOf s p = some n) : n < 16 ∧ physOf s n = some p := by
  unfold lposOf at h
  have h1 := List.find?_some h
  have h2 := List.mem_of_find?_eq_some h
  exact ⟨List.mem_range.mp h2, by simpa using h1⟩

theorem spareTile_some {s : State} {c : TileId} (h : spareTile s = some c) : (tile s c.val).service = .spare := by
  unfold spareTile at h
  simpa using List.find?_some h

/-- A tile in service starts to drain. -/
theorem setDraining_keeps {z : State} (s : State) (p : TileId) (f : Tile → Tile) (h0 : Keeps none z s) :
    Keeps (some p) z (setTileSvc (modTile s p.val f) p .draining) :=
  logEvent_keeps _ _ _ _ _ _ _ (Keeps.tileX p _ (Keeps.tileX p _ (Keeps.except _ h0)))

theorem tileFault_keeps {z : State} (s : State) (p : TileId) (h0 : Keeps none z s) :
    Keeps none z (tileFault s p) := by
  have h1 := setDraining_keeps s p (fun x => { x with faults := satInc x.faults, errorOpen := false }) h0
  have m1 : (setTileSvc (modTile s p.val fun x => { x with faults := satInc x.faults, errorOpen := false }) p .draining).map
      = s.map := rfl
  have t1 : ∀ c : TileId, c ≠ p → tile (setTileSvc (modTile s p.val fun x =>
      { x with faults := satInc x.faults, errorOpen := false }) p .draining) c.val = tile s c.val := fun c hc => by
    have hv : c.val ≠ p.val := fun e => hc (Fin.ext e)
    have lg : ∀ u a b d e f g, tile (logEvent u a b d e f g) c.val = tile u c.val := fun _ _ _ _ _ _ _ => rfl
    rw [setTileSvc, lg, tile_modTile, if_neg hv, tile_modTile, if_neg hv]
  unfold tileFault
  dsimp only
  generalize setTileSvc (modTile s p.val fun x => { x with faults := satInc x.faults, errorOpen := false }) p .draining = s1
    at h1 m1 t1
  have h2 : Keeps (some p) z (if (tile s p.val).polder.isOff = true then s1 else powerDown s1 p.val .draining) :=
    Keeps.ite h1 (powerDown_keeps _ _ _ h1)
  have m2 : (if (tile s p.val).polder.isOff = true then s1 else powerDown s1 p.val .draining).map = s.map := by
    split
    · exact m1
    · exact (powerDown_tiles _ _ _).1.trans m1
  have t2 : ∀ c : TileId, c ≠ p → (tile (if (tile s p.val).polder.isOff = true then s1 else powerDown s1 p.val .draining)
      c.val).service = (tile s c.val).service := fun c hc => by
    split
    · rw [t1 c hc]
    · rw [(powerDown_tiles _ _ _).2, t1 c hc]
  generalize (if (tile s p.val).polder.isOff = true then s1 else powerDown s1 p.val .draining) = s2 at h2 m2 t2
  have ph : ∀ n, physOf s2 n = physOf s n := fun n => by simp only [physOf, m2]
  split
  · rename_i hp
    have h3 : Keeps none z s2 := h2.unmapped p fun n hn => by rw [ph]; exact lposOf_none hp n hn
    exact Keeps.ite (tileDrained_keeps _ _ h3) h3
  · rename_i n hp
    have hn := lposOf_some hp
    split
    · rename_i c hc
      have h3 : ∀ f : Tile → Tile, Keeps none z
          (setTileSvc (modTile (setPhys s2 n (some c)) c.val f) c .inService) := fun f => by
        refine logEvent_keeps _ _ _ _ _ _ _ ?_
        have e : modTile (modTile (setPhys s2 n (some c)) c.val f) c.val (fun x => { x with service := .inService }) =
            setTile (modTile (setPhys s2 n (some c)) c.val f) c.val
              { (tile (modTile (setPhys s2 n (some c)) c.val f) c.val) with service := .inService } := rfl
        exact Keeps.remap2 p c n _ _ h2 hn.1 (by rw [ph]; exact hn.2)
          (fun hpc => by rw [t2 c hpc]; exact spareTile_some hc) (Or.inl rfl)
      repeat' (first | with_reducible exact h3 _ | with_reducible assumption | with_reducible apply Keeps.ite |
        with_reducible apply partFault_keeps | with_reducible apply recompute_keeps | with_reducible apply tileDrained_keeps |
        with_reducible apply sendClear_keeps | with_reducible apply retargetFab_keeps | with_reducible apply wakePolder_keeps | split)
    · have h3 : Keeps none z (setPhys s2 n none) := h2.unmap p n hn.1 (by rw [ph]; exact hn.2)
      repeat' (first | with_reducible exact h3 | with_reducible assumption | with_reducible apply Keeps.ite |
        with_reducible apply partFault_keeps | with_reducible apply abortAllOrders_keeps |
        with_reducible apply sendClear_keeps | with_reducible apply modTen_keeps | with_reducible apply tileDrained_keeps | split)

theorem setSeqSvc_keeps {ex : Option TileId} {z : State} (s : State) (q : SeqId) (v : SeqService) (h0 : Keeps ex z s) : Keeps ex z (setSeqSvc s q v) := by
  unfold setSeqSvc
  try dsimp only
  repeat' (first | with_reducible assumption | with_reducible apply modSqr_keeps | with_reducible apply logEvent_keeps | with_reducible apply Keeps.ite | (with_reducible refine Keeps.foldl ?_ (fun _ _ _ => ?_)) | (fail_if_no_progress (with_reducible refine Keeps.frame ?_ rfl rfl rfl rfl)) | split)

theorem patchStop_keeps {ex : Option TileId} {z : State} (s : State) (h0 : Keeps ex z s) : Keeps ex z (patchStop s) := by
  unfold patchStop
  try dsimp only
  repeat' (first | with_reducible assumption | with_reducible apply emergency_keeps | with_reducible apply setSeqSvc_keeps | with_reducible apply Keeps.ite | (with_reducible refine Keeps.foldl ?_ (fun _ _ _ => ?_)) | (fail_if_no_progress (with_reducible refine Keeps.frame ?_ rfl rfl rfl rfl)) | split)

theorem seqFault_keeps {ex : Option TileId} {z : State} (s : State) (q : SeqId) (h0 : Keeps ex z s) : Keeps ex z (seqFault s q) := by
  unfold seqFault
  try dsimp only
  repeat' (first | with_reducible assumption | with_reducible apply modSqr_keeps | with_reducible apply modTen_keeps | with_reducible apply partFault_keeps | with_reducible apply closeNi_keeps | with_reducible apply sendClear_keeps | with_reducible apply recompute_keeps | with_reducible apply abortAllOrders_keeps | with_reducible apply setSeqSvc_keeps | with_reducible apply patchStop_keeps | with_reducible apply Keeps.ite | (with_reducible refine Keeps.foldl ?_ (fun _ _ _ => ?_)) | (fail_if_no_progress (with_reducible refine Keeps.frame ?_ rfl rfl rfl rfl)) | split)

theorem seqDrained_keeps {ex : Option TileId} {z : State} (s : State) (q : SeqId) (h0 : Keeps ex z s) : Keeps ex z (seqDrained s q) := by
  unfold seqDrained
  try dsimp only
  repeat' (first | with_reducible assumption | with_reducible apply modSqr_keeps | with_reducible apply setNiSt_keeps | with_reducible apply openNi_keeps | with_reducible apply setSeqSvc_keeps | with_reducible apply Keeps.ite | (with_reducible refine Keeps.foldl ?_ (fun _ _ _ => ?_)) | (fail_if_no_progress (with_reducible refine Keeps.frame ?_ rfl rfl rfl rfl)) | split)

theorem clearLatches_keeps {ex : Option TileId} {z : State} (s : State) (p : TileId) (h0 : Keeps ex z s) : Keeps ex z (clearLatches s p) := by
  unfold clearLatches
  try dsimp only
  repeat' (first | with_reducible assumption | with_reducible apply Keeps.ite | (with_reducible refine Keeps.foldl ?_ (fun _ _ _ => ?_)) | (fail_if_no_progress (with_reducible refine Keeps.frame ?_ rfl rfl rfl rfl)) | split)

theorem linkSample_keeps {z : State} (s : State) (ps bad : List TileId) (h0 : Keeps none z s) : Keeps none z (linkSample s ps bad) := by
  unfold linkSample
  try dsimp only
  repeat' (first | with_reducible assumption | with_reducible apply modTile_keeps | with_reducible apply takeMark_keeps | with_reducible apply tileFault_keeps | with_reducible apply Keeps.ite | (with_reducible refine Keeps.foldl ?_ (fun _ _ _ => ?_)) | (fail_if_no_progress (with_reducible refine Keeps.frame ?_ rfl rfl rfl rfl)) | (exact fun h => h) | (exact fun _ h => h) | split)

theorem trapFrameLost_keeps {ex : Option TileId} {z : State} (s : State) (t : Tenant) (h0 : Keeps ex z s) : Keeps ex z (trapFrameLost s t) := by
  unfold trapFrameLost
  try dsimp only
  repeat' (first | with_reducible assumption | with_reducible apply readFailed_keeps | with_reducible apply takeMark_keeps | with_reducible apply recompute_keeps | with_reducible apply checkMark_keeps | with_reducible apply Keeps.ite | (with_reducible refine Keeps.foldl ?_ (fun _ _ _ => ?_)) | (fail_if_no_progress (with_reducible refine Keeps.frame ?_ rfl rfl rfl rfl)) | split)

theorem machineCheck_keeps {z : State} (s : State) (src : McSource) (h0 : Keeps none z s) : Keeps none z (machineCheck s src) := by
  unfold machineCheck
  try dsimp only
  repeat' (first | with_reducible assumption | with_reducible apply modTile_keeps | with_reducible apply modSqr_keeps | with_reducible apply setCtx_keeps | with_reducible apply logEvent_keeps | with_reducible apply recompute_keeps | with_reducible apply checkMark_keeps | with_reducible apply tileFault_keeps | with_reducible apply seqFault_keeps | with_reducible apply clearLatches_keeps | with_reducible apply Keeps.ite | (with_reducible refine Keeps.foldl ?_ (fun _ _ _ => ?_)) | (fail_if_no_progress (with_reducible refine Keeps.frame ?_ rfl rfl rfl rfl)) | (exact fun h => h) | (exact fun _ h => h) | split)

end Sys2Proof.Machine
end

