-- ==== Sys2Proof/Laws/KeepsAis.lean ====
section
/-! SUPPORT. The operations of Machine/Ais.lean keep the queue, the counters and the invariant. -/

set_option linter.unusedTactic false
set_option linter.unusedVariables false
set_option linter.unreachableTactic false

namespace Sys2Proof.Machine

theorem fetchAis_keeps {ex : Option TileId} {z : State} (s : State) (t : Tenant) (q : SeqId) (h0 : Keeps ex z s) : Keeps ex z (fetchAis s t q).1 := by
  unfold fetchAis
  try dsimp only
  repeat' (first | with_reducible assumption | with_reducible apply fetchProg_keeps | with_reducible apply Keeps.ite | (with_reducible refine Keeps.foldl ?_ (fun _ _ _ => ?_)) | (fail_if_no_progress (with_reducible refine Keeps.frame ?_ rfl rfl rfl rfl)) | split)

theorem fetchLost_keeps {ex : Option TileId} {z : State} (s : State) (t : Tenant) (h0 : Keeps ex z s) : Keeps ex z (fetchLost s t) := by
  unfold fetchLost
  try dsimp only
  repeat' (first | with_reducible assumption | with_reducible apply modMemSt_keeps | with_reducible apply abortOrders_keeps | with_reducible apply Keeps.ite | (with_reducible refine Keeps.foldl ?_ (fun _ _ _ => ?_)) | (fail_if_no_progress (with_reducible refine Keeps.frame ?_ rfl rfl rfl rfl)) | split)

theorem touch_keeps {ex : Option TileId} {z : State} (s : State) (g : Nat) (es : List Elem) (f : Fld) (h0 : Keeps ex z s) : Keeps ex z (touch s g es f) := by
  unfold touch
  try dsimp only
  repeat' (first | with_reducible assumption | with_reducible apply latchBad_keeps | with_reducible apply Keeps.ite | (with_reducible refine Keeps.foldl ?_ (fun _ _ _ => ?_)) | (fail_if_no_progress (with_reducible refine Keeps.frame ?_ rfl rfl rfl rfl)) | split)

theorem startScan_keeps {ex : Option TileId} {z : State} (s : State) (t : Tenant) (q : SeqId) (v : BitVec 16) (m : MicroAddr) (w : Nat) (h0 : Keeps ex z s) : Keeps ex z (startScan s t q v m w) := by
  unfold startScan
  try dsimp only
  repeat' (first | with_reducible assumption | with_reducible apply modSqr_keeps | with_reducible apply touch_keeps | with_reducible apply Keeps.ite | (with_reducible refine Keeps.foldl ?_ (fun _ _ _ => ?_)) | (fail_if_no_progress (with_reducible refine Keeps.frame ?_ rfl rfl rfl rfl)) | split)

theorem dispatch_keeps {ex : Option TileId} {z : State} (s : State) (t : Tenant) (q : SeqId) (w : DWord) (h0 : Keeps ex z s) : Keeps ex z (dispatch s t q w) := by
  unfold dispatch
  try dsimp only
  repeat' (first | with_reducible assumption | with_reducible apply modSqr_keeps | with_reducible apply clearResidues_keeps | with_reducible apply startScan_keeps | with_reducible apply Keeps.ite | (with_reducible refine Keeps.foldl ?_ (fun _ _ _ => ?_)) | (fail_if_no_progress (with_reducible refine Keeps.frame ?_ rfl rfl rfl rfl)) | split)

theorem afterRoutine_keeps {ex : Option TileId} {z : State} (s : State) (t : Tenant) (q : SeqId) (h0 : Keeps ex z s) : Keeps ex z (afterRoutine s t q) := by
  unfold afterRoutine
  try dsimp only
  repeat' (first | with_reducible assumption | with_reducible apply modSqr_keeps | with_reducible apply bump_keeps | with_reducible apply scramble_keeps | with_reducible apply Keeps.ite | (with_reducible refine Keeps.foldl ?_ (fun _ _ _ => ?_)) | (fail_if_no_progress (with_reducible refine Keeps.frame ?_ rfl rfl rfl rfl)) | split)

theorem runWord_keeps {ex : Option TileId} {z : State} (s : State) (t : Tenant) (q : SeqId) (w : DWord) (chk : Check) (eff : State → State) (h0 : Keeps ex z s)(hs : ∀ u, Keeps ex z u → Keeps ex z (eff u)) : Keeps ex z (runWord s t q w chk eff) := by
  unfold runWord
  try dsimp only
  repeat' (first | with_reducible assumption | with_reducible apply modSqr_keeps | with_reducible apply addTime_keeps | with_reducible apply raiseTrap_keeps | with_reducible apply dispatch_keeps | with_reducible apply Keeps.ite | (with_reducible refine Keeps.foldl ?_ (fun _ _ _ => ?_)) | (fail_if_no_progress (with_reducible refine Keeps.frame ?_ rfl rfl rfl rfl)) | with_reducible apply hs | split)

theorem runAis_keeps {ex : Option TileId} {z : State} (s : State) (t : Tenant) (w : DWord) (chk : SeqId → Check) (eff : SeqId → State → State)
    (h0 : Keeps ex z s) (he : ∀ q u, Keeps ex z u → Keeps ex z (eff q u)) : Keeps ex z (runAis s t w chk eff) := by
  unfold runAis
  split
  · exact h0
  · rename_i q _
    have h1 := fetchAis_keeps s t q h0
    split
    · exact boundary_keeps _ _ _ h0
    · split
      · rename_i e; rw [e] at h1
        exact fetchLost_keeps _ _ h1
      · rename_i e; rw [e] at h1
        exact Keeps.ite (runWord_keeps _ _ _ _ _ _ h1 fun u h => he _ u h) (Keeps.ite (runWord_keeps _ _ _ _ _ _ h1 fun _ h => h) h0)

theorem finish_keeps {ex : Option TileId} {z : State} (s : State) (t : Tenant) (q : SeqId) (ac : Nat) (h0 : Keeps ex z s) : Keeps ex z (finish s t q ac) := by
  unfold finish
  try dsimp only
  repeat' (first | with_reducible assumption | with_reducible apply addTime_keeps | with_reducible apply boundary_keeps | with_reducible apply advance_keeps | with_reducible apply afterRoutine_keeps | with_reducible apply Keeps.ite | (with_reducible refine Keeps.foldl ?_ (fun _ _ _ => ?_)) | (fail_if_no_progress (with_reducible refine Keeps.frame ?_ rfl rfl rfl rfl)) | split)

theorem touchSrc_keeps {ex : Option TileId} {z : State} (s : State) (g : Nat) (es : List Elem) (b : Src) (h0 : Keeps ex z s) : Keeps ex z (touchSrc s g es b) := by
  unfold touchSrc
  try dsimp only
  repeat' (first | with_reducible assumption | with_reducible apply touch_keeps | with_reducible apply Keeps.ite | (with_reducible refine Keeps.foldl ?_ (fun _ _ _ => ?_)) | (fail_if_no_progress (with_reducible refine Keeps.frame ?_ rfl rfl rfl rfl)) | split)

theorem writeDest_keeps {ex : Option TileId} {z : State} (s0 : State) (g : Nat) (d : Fld) (u : State) (e : Elem) (v : Nat) (h0 : Keeps ex z s0) (h1 : Keeps ex z u) : Keeps ex z (writeDest s0 g d u e v) := by
  unfold writeDest
  try dsimp only
  repeat' (first | with_reducible assumption | with_reducible apply modTile_keeps | with_reducible apply writeField_keeps | with_reducible apply setSticky_keeps | with_reducible apply Keeps.ite | (with_reducible refine Keeps.foldl ?_ (fun _ _ _ => ?_)) | (fail_if_no_progress (with_reducible refine Keeps.frame ?_ rfl rfl rfl rfl)) | (exact fun h => h) | (exact fun _ h => h) | split)

theorem mapLanes_keeps {ex : Option TileId} {z : State} (s : State) (g : Nat) (e : Elem) (f : PE → PE) (h0 : Keeps ex z s) : Keeps ex z (mapLanes s g e f) := by
  unfold mapLanes
  try dsimp only
  repeat' (first | with_reducible assumption | with_reducible apply setPe_keeps | with_reducible apply Keeps.ite | (with_reducible refine Keeps.foldl ?_ (fun _ _ _ => ?_)) | (fail_if_no_progress (with_reducible refine Keeps.frame ?_ rfl rfl rfl rfl)) | split)

theorem setC_keeps {ex : Option TileId} {z : State} (s : State) (g : Nat) (e : Elem) (v : Bool) (h0 : Keeps ex z s) : Keeps ex z (setC s g e v) := by
  unfold setC
  try dsimp only
  repeat' (first | with_reducible assumption | with_reducible apply mapLanes_keeps | with_reducible apply Keeps.ite | (with_reducible refine Keeps.foldl ?_ (fun _ _ _ => ?_)) | (fail_if_no_progress (with_reducible refine Keeps.frame ?_ rfl rfl rfl rfl)) | split)

theorem setF_keeps {ex : Option TileId} {z : State} (s : State) (g : Nat) (e : Elem) (v : Bool) (h0 : Keeps ex z s) : Keeps ex z (setF s g e v) := by
  unfold setF
  try dsimp only
  repeat' (first | with_reducible assumption | with_reducible apply mapLanes_keeps | with_reducible apply Keeps.ite | (with_reducible refine Keeps.foldl ?_ (fun _ _ _ => ?_)) | (fail_if_no_progress (with_reducible refine Keeps.frame ?_ rfl rfl rfl rfl)) | split)

theorem setK_keeps {ex : Option TileId} {z : State} (s : State) (g : Nat) (e : Elem) (v : Bool) (h0 : Keeps ex z s) : Keeps ex z (setK s g e v) := by
  unfold setK
  try dsimp only
  repeat' (first | with_reducible assumption | with_reducible apply mapLanes_keeps | with_reducible apply Keeps.ite | (with_reducible refine Keeps.foldl ?_ (fun _ _ _ => ?_)) | (fail_if_no_progress (with_reducible refine Keeps.frame ?_ rfl rfl rfl rfl)) | split)

theorem setP_keeps {ex : Option TileId} {z : State} (s : State) (g : Nat) (e : Elem) (v : BitVec 12) (h0 : Keeps ex z s) : Keeps ex z (setP s g e v) := by
  unfold setP
  try dsimp only
  repeat' (first | with_reducible assumption | with_reducible apply mapLanes_keeps | with_reducible apply Keeps.ite | (with_reducible refine Keeps.foldl ?_ (fun _ _ _ => ?_)) | (fail_if_no_progress (with_reducible refine Keeps.frame ?_ rfl rfl rfl rfl)) | split)

theorem freeC_keeps {ex : Option TileId} {z : State} (s0 : State) (g : Nat) (s : State) (e : Elem) (h0 : Keeps ex z s0) (h1 : Keeps ex z s) : Keeps ex z (freeC s0 g s e) := by
  unfold freeC
  try dsimp only
  repeat' (first | with_reducible assumption | with_reducible apply setC_keeps | with_reducible apply Keeps.ite | (with_reducible refine Keeps.foldl ?_ (fun _ _ _ => ?_)) | (fail_if_no_progress (with_reducible refine Keeps.frame ?_ rfl rfl rfl rfl)) | split)

theorem freeF_keeps {ex : Option TileId} {z : State} (s0 : State) (g : Nat) (s : State) (e : Elem) (h0 : Keeps ex z s0) (h1 : Keeps ex z s) : Keeps ex z (freeF s0 g s e) := by
  unfold freeF
  try dsimp only
  repeat' (first | with_reducible assumption | with_reducible apply setPe_keeps | with_reducible apply Keeps.ite | (with_reducible refine Keeps.foldl ?_ (fun _ _ _ => ?_)) | (fail_if_no_progress (with_reducible refine Keeps.frame ?_ rfl rfl rfl rfl)) | split)

end Sys2Proof.Machine
end

