-- ==== Sys2Proof/Laws/KeepsBool.lean ====
section
/-! SUPPORT. The operations of Machine/Bool.lean keep the queue, the counters and the invariant. -/

set_option linter.unusedTactic false
set_option linter.unusedVariables false
set_option linter.unreachableTactic false

namespace Sys2Proof.Machine

theorem touchAB_keeps {ex : Option TileId} {z : State} (s : State) (g : Nat) (es : List Elem) (f : FmtA) (b : Src) (h0 : Keeps ex z s) : Keeps ex z (touchAB s g es f b) := by
  unfold touchAB
  try dsimp only
  repeat' (first | with_reducible assumption | with_reducible apply touch_keeps | with_reducible apply touchSrc_keeps | with_reducible apply Keeps.ite | (with_reducible refine Keeps.foldl ?_ (fun _ _ _ => ?_)) | (fail_if_no_progress (with_reducible refine Keeps.frame ?_ rfl rfl rfl rfl)) | split)

theorem contextFn_keeps {ex : Option TileId} {z : State} (s : State) (t : Tenant) (f : FmtA) (fn : Nat) (op : Bool → Bool → Bool) (h0 : Keeps ex z s) : Keeps ex z (contextFn s t f fn op) := by
  unfold contextFn
  try dsimp only
  repeat' (first | with_reducible assumption | with_reducible apply runAis_keeps | with_reducible apply finish_keeps | with_reducible apply setK_keeps | with_reducible apply touchAB_keeps | with_reducible apply Keeps.ite | (with_reducible refine Keeps.foldl ?_ (fun _ _ _ => ?_)) | (fail_if_no_progress (with_reducible refine Keeps.frame ?_ rfl rfl rfl rfl)) | intro _ | split)

theorem noOperandK_keeps {ex : Option TileId} {z : State} (s : State) (t : Tenant) (f : FmtA) (fn : Nat) (op : Bool → Bool) (h0 : Keeps ex z s) : Keeps ex z (noOperandK s t f fn op) := by
  unfold noOperandK
  try dsimp only
  repeat' (first | with_reducible assumption | with_reducible apply runAis_keeps | with_reducible apply finish_keeps | with_reducible apply setK_keeps | with_reducible apply Keeps.ite | (with_reducible refine Keeps.foldl ?_ (fun _ _ _ => ?_)) | (fail_if_no_progress (with_reducible refine Keeps.frame ?_ rfl rfl rfl rfl)) | intro _ | split)

theorem execLogic_keeps {z : State} (t : Tenant) (f : FmtA) (s : State) (h0 : Keeps none z s) : ∃ u, execLogic t f s = .next u ∧ Keeps none z u := by
  unfold execLogic
  try dsimp only
  repeat' (first | (with_reducible refine ⟨_, rfl, ?_⟩) | with_reducible assumption | with_reducible apply touch_keeps | with_reducible apply runAis_keeps | with_reducible apply finish_keeps | with_reducible apply touchSrc_keeps | with_reducible apply writeDest_keeps | with_reducible apply Keeps.ite | (with_reducible refine Keeps.foldl ?_ (fun _ _ _ => ?_)) | (fail_if_no_progress (with_reducible refine Keeps.frame ?_ rfl rfl rfl rfl)) | intro _ | split)

theorem execKset_keeps {z : State} (t : Tenant) (f : FmtA) (s : State) (h0 : Keeps none z s) : ∃ u, execKset t f s = .next u ∧ Keeps none z u := by
  unfold execKset
  try dsimp only
  repeat' (first | (with_reducible refine ⟨_, rfl, ?_⟩) | with_reducible assumption | with_reducible apply contextFn_keeps | with_reducible apply Keeps.ite | (with_reducible refine Keeps.foldl ?_ (fun _ _ _ => ?_)) | (fail_if_no_progress (with_reducible refine Keeps.frame ?_ rfl rfl rfl rfl)) | split)

theorem execKand_keeps {z : State} (t : Tenant) (f : FmtA) (s : State) (h0 : Keeps none z s) : ∃ u, execKand t f s = .next u ∧ Keeps none z u := by
  unfold execKand
  try dsimp only
  repeat' (first | (with_reducible refine ⟨_, rfl, ?_⟩) | with_reducible assumption | with_reducible apply contextFn_keeps | with_reducible apply Keeps.ite | (with_reducible refine Keeps.foldl ?_ (fun _ _ _ => ?_)) | (fail_if_no_progress (with_reducible refine Keeps.frame ?_ rfl rfl rfl rfl)) | split)

theorem execKor_keeps {z : State} (t : Tenant) (f : FmtA) (s : State) (h0 : Keeps none z s) : ∃ u, execKor t f s = .next u ∧ Keeps none z u := by
  unfold execKor
  try dsimp only
  repeat' (first | (with_reducible refine ⟨_, rfl, ?_⟩) | with_reducible assumption | with_reducible apply contextFn_keeps | with_reducible apply Keeps.ite | (with_reducible refine Keeps.foldl ?_ (fun _ _ _ => ?_)) | (fail_if_no_progress (with_reducible refine Keeps.frame ?_ rfl rfl rfl rfl)) | split)

theorem execKall_keeps {z : State} (t : Tenant) (f : FmtA) (s : State) (h0 : Keeps none z s) : ∃ u, execKall t f s = .next u ∧ Keeps none z u := by
  unfold execKall
  try dsimp only
  repeat' (first | (with_reducible refine ⟨_, rfl, ?_⟩) | with_reducible assumption | with_reducible apply noOperandK_keeps | with_reducible apply Keeps.ite | (with_reducible refine Keeps.foldl ?_ (fun _ _ _ => ?_)) | (fail_if_no_progress (with_reducible refine Keeps.frame ?_ rfl rfl rfl rfl)) | split)

theorem execKnot_keeps {z : State} (t : Tenant) (f : FmtA) (s : State) (h0 : Keeps none z s) : ∃ u, execKnot t f s = .next u ∧ Keeps none z u := by
  unfold execKnot
  try dsimp only
  repeat' (first | (with_reducible refine ⟨_, rfl, ?_⟩) | with_reducible assumption | with_reducible apply noOperandK_keeps | with_reducible apply Keeps.ite | (with_reducible refine Keeps.foldl ?_ (fun _ _ _ => ?_)) | (fail_if_no_progress (with_reducible refine Keeps.frame ?_ rfl rfl rfl rfl)) | split)

theorem execFset_keeps {z : State} (t : Tenant) (f : FmtA) (s : State) (h0 : Keeps none z s) : ∃ u, execFset t f s = .next u ∧ Keeps none z u := by
  unfold execFset
  try dsimp only
  repeat' (first | (with_reducible refine ⟨_, rfl, ?_⟩) | with_reducible assumption | with_reducible apply runAis_keeps | with_reducible apply finish_keeps | with_reducible apply setF_keeps | with_reducible apply touchAB_keeps | with_reducible apply Keeps.ite | (with_reducible refine Keeps.foldl ?_ (fun _ _ _ => ?_)) | (fail_if_no_progress (with_reducible refine Keeps.frame ?_ rfl rfl rfl rfl)) | intro _ | split)

end Sys2Proof.Machine
end

