-- ==== Sys2Proof/Laws/KeepsReduce.lean ====
section
/-! SUPPORT. The operations of Machine/Reduce.lean keep the queue, the counters and the invariant. -/

set_option linter.unusedTactic false
set_option linter.unusedVariables false
set_option linter.unreachableTactic false

namespace Sys2Proof.Machine

theorem reduce_keeps {ex : Option TileId} {z : State} (s : State) (t : Tenant) (opFn : Nat) (f : FmtA) (bad : Bool) (ac : Nat) (val : List Nat → Word) (h0 : Keeps ex z s) : Keeps ex z (reduce s t opFn f bad ac val) := by
  unfold reduce
  try dsimp only
  repeat' (first | with_reducible assumption | with_reducible apply setSreg_keeps | with_reducible apply touch_keeps | with_reducible apply runAis_keeps | with_reducible apply finish_keeps | with_reducible apply freeF_keeps | with_reducible apply Keeps.ite | (with_reducible refine Keeps.foldl ?_ (fun _ _ _ => ?_)) | (fail_if_no_progress (with_reducible refine Keeps.frame ?_ rfl rfl rfl rfl)) | intro _ | split)

theorem execRany_keeps {z : State} (t : Tenant) (f : FmtA) (s : State) (h0 : Keeps none z s) : ∃ u, execRany t f s = .next u ∧ Keeps none z u := by
  unfold execRany
  try dsimp only
  repeat' (first | (with_reducible refine ⟨_, rfl, ?_⟩) | with_reducible assumption | with_reducible apply setSreg_keeps | with_reducible apply touch_keeps | with_reducible apply runAis_keeps | with_reducible apply finish_keeps | with_reducible apply setF_keeps | with_reducible apply Keeps.ite | (with_reducible refine Keeps.foldl ?_ (fun _ _ _ => ?_)) | (fail_if_no_progress (with_reducible refine Keeps.frame ?_ rfl rfl rfl rfl)) | intro _ | split)

theorem execRmax_keeps {z : State} (t : Tenant) (f : FmtA) (s : State) (h0 : Keeps none z s) : ∃ u, execRmax t f s = .next u ∧ Keeps none z u := by
  unfold execRmax
  try dsimp only
  repeat' (first | (with_reducible refine ⟨_, rfl, ?_⟩) | with_reducible assumption | with_reducible apply reduce_keeps | with_reducible apply Keeps.ite | (with_reducible refine Keeps.foldl ?_ (fun _ _ _ => ?_)) | (fail_if_no_progress (with_reducible refine Keeps.frame ?_ rfl rfl rfl rfl)) | split)

theorem execRmin_keeps {z : State} (t : Tenant) (f : FmtA) (s : State) (h0 : Keeps none z s) : ∃ u, execRmin t f s = .next u ∧ Keeps none z u := by
  unfold execRmin
  try dsimp only
  repeat' (first | (with_reducible refine ⟨_, rfl, ?_⟩) | with_reducible assumption | with_reducible apply reduce_keeps | with_reducible apply Keeps.ite | (with_reducible refine Keeps.foldl ?_ (fun _ _ _ => ?_)) | (fail_if_no_progress (with_reducible refine Keeps.frame ?_ rfl rfl rfl rfl)) | split)

theorem execRsum_keeps {z : State} (t : Tenant) (f : FmtA) (s : State) (h0 : Keeps none z s) : ∃ u, execRsum t f s = .next u ∧ Keeps none z u := by
  unfold execRsum
  try dsimp only
  repeat' (first | (with_reducible refine ⟨_, rfl, ?_⟩) | with_reducible assumption | with_reducible apply setSreg_keeps | with_reducible apply takeMark_keeps | with_reducible apply dualMismatch_keeps | with_reducible apply addTime_keeps | with_reducible apply touch_keeps | with_reducible apply runAis_keeps | with_reducible apply finish_keeps | with_reducible apply freeF_keeps | with_reducible apply Keeps.ite | (with_reducible refine Keeps.foldl ?_ (fun _ _ _ => ?_)) | (fail_if_no_progress (with_reducible refine Keeps.frame ?_ rfl rfl rfl rfl)) | intro _ | split)

end Sys2Proof.Machine
end

