-- ==== Sys2Proof/Laws/KeepsControl.lean ====
section
/-! SUPPORT. The operations of Machine/Control.lean keep the queue, the counters and the invariant. -/

set_option linter.unusedTactic false
set_option linter.unusedVariables false
set_option linter.unreachableTactic false

namespace Sys2Proof.Machine

theorem afterFlags_keeps {ex : Option TileId} {z : State} (s : State) (t : Tenant) (q : SeqId) (eff : State → State) (h0 : Keeps ex z s)
    (he : ∀ u, Keeps ex z u → Keeps ex z (eff u)) : Keeps ex z (afterFlags s t q eff) := by
  unfold afterFlags
  dsimp only
  split
  · exact boundary_keeps _ _ _ (drainFlags_keeps _ _ _ h0)
  · exact he _ (drainFlags_keeps _ _ _ h0)

theorem ckTouch_keeps {ex : Option TileId} {z : State} (s : State) (t : Tenant) (lb len : Nat) (h0 : Keeps ex z s) : Keeps ex z (ckTouch s t lb len) := by
  unfold ckTouch
  try dsimp only
  repeat' (first | with_reducible assumption | with_reducible apply latchBad_keeps | with_reducible apply Keeps.ite | (with_reducible refine Keeps.foldl ?_ (fun _ _ _ => ?_)) | (fail_if_no_progress (with_reducible refine Keeps.frame ?_ rfl rfl rfl rfl)) | split)

theorem execCkpt_keeps {z : State} (t : Tenant) (f : FmtA) (s : State) (h0 : Keeps none z s) : ∃ u, execCkpt t f s = .next u ∧ Keeps none z u := by
  unfold execCkpt
  try dsimp only
  repeat' (first | (with_reducible refine ⟨_, rfl, ?_⟩) | with_reducible assumption | with_reducible apply refill_keeps | with_reducible apply journalWrite_keeps | with_reducible apply takeMark_keeps | with_reducible apply modRun_keeps | with_reducible apply endWindow_keeps | with_reducible apply dualMismatch_keeps | with_reducible apply addTime_keeps | with_reducible apply boundary_keeps | with_reducible apply advance_keeps | with_reducible apply afterRoutine_keeps | with_reducible apply runAis_keeps | with_reducible apply afterFlags_keeps | with_reducible apply ckTouch_keeps | with_reducible apply Keeps.ite | (with_reducible refine Keeps.foldl ?_ (fun _ _ _ => ?_)) | (fail_if_no_progress (with_reducible refine Keeps.frame ?_ rfl rfl rfl rfl)) | intro _ | split)

theorem execFbar_keeps {z : State} (t : Tenant) (f : FmtA) (s : State) (h0 : Keeps none z s) : ∃ u, execFbar t f s = .next u ∧ Keeps none z u := by
  unfold execFbar
  try dsimp only
  repeat' (first | (with_reducible refine ⟨_, rfl, ?_⟩) | with_reducible assumption | with_reducible apply runAis_keeps | with_reducible apply finish_keeps | with_reducible apply afterFlags_keeps | with_reducible apply Keeps.ite | (with_reducible refine Keeps.foldl ?_ (fun _ _ _ => ?_)) | (fail_if_no_progress (with_reducible refine Keeps.frame ?_ rfl rfl rfl rfl)) | intro _ | split)

theorem endAisWait_keeps {ex : Option TileId} {z : State} (s : State) (t : Tenant) (q : SeqId) (a : AisWait) (status : Word) (h0 : Keeps ex z s) : Keeps ex z (endAisWait s t q a status) := by
  unfold endAisWait
  try dsimp only
  repeat' (first | with_reducible assumption | with_reducible apply modSqr_keeps | with_reducible apply setSreg_keeps | with_reducible apply journalWrite_keeps | with_reducible apply modRun_keeps | with_reducible apply finish_keeps | with_reducible apply Keeps.ite | (with_reducible refine Keeps.foldl ?_ (fun _ _ _ => ?_)) | (fail_if_no_progress (with_reducible refine Keeps.frame ?_ rfl rfl rfl rfl)) | split)

theorem startAisWait_keeps {ex : Option TileId} {z : State} (s : State) (t : Tenant) (q : SeqId) (cond : BitVec 3) (imm : BitVec 12) (a : AisWait) (h0 : Keeps ex z s) : Keeps ex z (startAisWait s t q cond imm a) := by
  unfold startAisWait
  try dsimp only
  repeat' (first | with_reducible assumption | with_reducible apply modSqr_keeps | with_reducible apply setSreg_keeps | with_reducible apply setOrder_keeps | with_reducible apply finish_keeps | with_reducible apply endAisWait_keeps | with_reducible apply Keeps.ite | (with_reducible refine Keeps.foldl ?_ (fun _ _ _ => ?_)) | (fail_if_no_progress (with_reducible refine Keeps.frame ?_ rfl rfl rfl rfl)) | split)

theorem execWaitev_keeps {z : State} (t : Tenant) (f : FmtA) (s : State) (h0 : Keeps none z s) : ∃ u, execWaitev t f s = .next u ∧ Keeps none z u := by
  unfold execWaitev
  try dsimp only
  repeat' (first | (with_reducible refine ⟨_, rfl, ?_⟩) | with_reducible assumption | with_reducible apply runAis_keeps | with_reducible apply startAisWait_keeps | with_reducible apply Keeps.ite | (with_reducible refine Keeps.foldl ?_ (fun _ _ _ => ?_)) | (fail_if_no_progress (with_reducible refine Keeps.frame ?_ rfl rfl rfl rfl)) | intro _ | split)

theorem execWaitevLimitExpired_keeps {z : State} (q : SeqId) (s : State) (h0 : Keeps none z s) : ∃ u, execWaitevLimitExpired q s = .next u ∧ Keeps none z u := by
  unfold execWaitevLimitExpired
  try dsimp only
  repeat' (first | (with_reducible refine ⟨_, rfl, ?_⟩) | with_reducible assumption | with_reducible apply endAisWait_keeps | with_reducible apply Keeps.ite | (with_reducible refine Keeps.foldl ?_ (fun _ _ _ => ?_)) | (fail_if_no_progress (with_reducible refine Keeps.frame ?_ rfl rfl rfl rfl)) | split)

theorem execTrap_keeps {z : State} (t : Tenant) (f : FmtA) (s : State) (h0 : Keeps none z s) : ∃ u, execTrap t f s = .next u ∧ Keeps none z u := by
  unfold execTrap
  try dsimp only
  repeat' (first | (with_reducible refine ⟨_, rfl, ?_⟩) | with_reducible assumption | with_reducible apply addTime_keeps | with_reducible apply raiseTrap_keeps | with_reducible apply afterRoutine_keeps | with_reducible apply runAis_keeps | with_reducible apply Keeps.ite | (with_reducible refine Keeps.foldl ?_ (fun _ _ _ => ?_)) | (fail_if_no_progress (with_reducible refine Keeps.frame ?_ rfl rfl rfl rfl)) | intro _ | split)

theorem execGang_keeps {z : State} (t : Tenant) (f : FmtA) (s : State) (h0 : Keeps none z s) : ∃ u, execGang t f s = .next u ∧ Keeps none z u := by
  unfold execGang
  try dsimp only
  repeat' (first | (with_reducible refine ⟨_, rfl, ?_⟩) | with_reducible assumption | with_reducible apply modSqr_keeps | with_reducible apply setPe_keeps | with_reducible apply addTime_keeps | with_reducible apply boundary_keeps | with_reducible apply advance_keeps | with_reducible apply runAis_keeps | with_reducible apply setK_keeps | with_reducible apply Keeps.ite | (with_reducible refine Keeps.foldl ?_ (fun _ _ _ => ?_)) | (fail_if_no_progress (with_reducible refine Keeps.frame ?_ rfl rfl rfl rfl)) | intro _ | split)

theorem execBrclm_keeps {z : State} (t : Tenant) (f : FmtA) (s : State) (h0 : Keeps none z s) : ∃ u, execBrclm t f s = .next u ∧ Keeps none z u := by
  unfold execBrclm
  try dsimp only
  repeat' (first | (with_reducible refine ⟨_, rfl, ?_⟩) | with_reducible assumption | with_reducible apply modTile_keeps | with_reducible apply runAis_keeps | with_reducible apply finish_keeps | with_reducible apply Keeps.ite | (with_reducible refine Keeps.foldl ?_ (fun _ _ _ => ?_)) | (fail_if_no_progress (with_reducible refine Keeps.frame ?_ rfl rfl rfl rfl)) | (exact fun h => h) | (exact fun _ h => h) | intro _ | split)

theorem execFclr_keeps {z : State} (t : Tenant) (f : FmtA) (s : State) (h0 : Keeps none z s) : ∃ u, execFclr t f s = .next u ∧ Keeps none z u := by
  unfold execFclr
  try dsimp only
  repeat' (first | (with_reducible refine ⟨_, rfl, ?_⟩) | with_reducible assumption | with_reducible apply clearSticky_keeps | with_reducible apply runAis_keeps | with_reducible apply finish_keeps | with_reducible apply Keeps.ite | (with_reducible refine Keeps.foldl ?_ (fun _ _ _ => ?_)) | (fail_if_no_progress (with_reducible refine Keeps.frame ?_ rfl rfl rfl rfl)) | intro _ | split)

theorem execFten_keeps {z : State} (t : Tenant) (f : FmtA) (s : State) (h0 : Keeps none z s) : ∃ u, execFten t f s = .next u ∧ Keeps none z u := by
  unfold execFten
  try dsimp only
  repeat' (first | (with_reducible refine ⟨_, rfl, ?_⟩) | with_reducible assumption | with_reducible apply setCtx_keeps | with_reducible apply logEvent_keeps | with_reducible apply modRun_keeps | with_reducible apply dropCtx_keeps | with_reducible apply loadCtx_keeps | with_reducible apply tryReexecAll_keeps | with_reducible apply addTime_keeps | with_reducible apply raiseTrap_keeps | with_reducible apply runAis_keeps | with_reducible apply finish_keeps | with_reducible apply Keeps.ite | (with_reducible refine Keeps.foldl ?_ (fun _ _ _ => ?_)) | (fail_if_no_progress (with_reducible refine Keeps.frame ?_ rfl rfl rfl rfl)) | intro _ | split)

theorem execRtt_keeps {z : State} (t : Tenant) (f : FmtA) (s : State) (h0 : Keeps none z s) : ∃ u, execRtt t f s = .next u ∧ Keeps none z u := by
  unfold execRtt
  try dsimp only
  repeat' (first | (with_reducible refine ⟨_, rfl, ?_⟩) | with_reducible assumption | with_reducible apply bump_keeps | with_reducible apply scramble_keeps | with_reducible apply addTime_keeps | with_reducible apply boundary_keeps | with_reducible apply returnTrap_keeps | with_reducible apply trapFrameLost_keeps | with_reducible apply runAis_keeps | with_reducible apply Keeps.ite | (with_reducible refine Keeps.foldl ?_ (fun _ _ _ => ?_)) | (fail_if_no_progress (with_reducible refine Keeps.frame ?_ rfl rfl rfl rfl)) | intro _ | split)

theorem execEnd_keeps {z : State} (t : Tenant) (f : FmtA) (s : State) (h0 : Keeps none z s) : ∃ u, execEnd t f s = .next u ∧ Keeps none z u := by
  unfold execEnd
  try dsimp only
  repeat' (first | (with_reducible refine ⟨_, rfl, ?_⟩) | with_reducible assumption | with_reducible apply takeMark_keeps | with_reducible apply finishOrder_keeps | with_reducible apply addTime_keeps | with_reducible apply afterRoutine_keeps | with_reducible apply runAis_keeps | with_reducible apply afterFlags_keeps | with_reducible apply Keeps.ite | (with_reducible refine Keeps.foldl ?_ (fun _ _ _ => ?_)) | (fail_if_no_progress (with_reducible refine Keeps.frame ?_ rfl rfl rfl rfl)) | intro _ | split)

end Sys2Proof.Machine
end

