-- ==== Sys2Proof/Laws/KeepsBinding.lean ====
section
/-! SUPPORT. The operations of Machine/Binding.lean keep the queue, the counters and the invariant. -/

set_option linter.unusedTactic false
set_option linter.unusedVariables false
set_option linter.unreachableTactic false

namespace Sys2Proof.Machine

theorem execInarm_keeps {z : State} (t : Tenant) (f : FmtA) (s : State) (h0 : Keeps none z s) : ∃ u, execInarm t f s = .next u ∧ Keeps none z u := by
  unfold execInarm
  try dsimp only
  repeat' (first | (with_reducible refine ⟨_, rfl, ?_⟩) | with_reducible assumption | with_reducible apply refill_keeps | with_reducible apply readFailed_keeps | with_reducible apply setOrder_keeps | with_reducible apply reland_keeps | with_reducible apply abortOrders_keeps | with_reducible apply landNow_keeps | with_reducible apply runAis_keeps | with_reducible apply finish_keeps | with_reducible apply Keeps.ite | (with_reducible refine Keeps.foldl ?_ (fun _ _ _ => ?_)) | (fail_if_no_progress (with_reducible refine Keeps.frame ?_ rfl rfl rfl rfl)) | intro _ | split)

theorem execInwait_keeps {z : State} (t : Tenant) (f : FmtA) (s : State) (h0 : Keeps none z s) : ∃ u, execInwait t f s = .next u ∧ Keeps none z u := by
  unfold execInwait
  try dsimp only
  repeat' (first | (with_reducible refine ⟨_, rfl, ?_⟩) | with_reducible assumption | with_reducible apply runAis_keeps | with_reducible apply startAisWait_keeps | with_reducible apply Keeps.ite | (with_reducible refine Keeps.foldl ?_ (fun _ _ _ => ?_)) | (fail_if_no_progress (with_reducible refine Keeps.frame ?_ rfl rfl rfl rfl)) | intro _ | split)

theorem stage_keeps {ex : Option TileId} {z : State} (s : State) (t : Tenant) (w : Staged) (h0 : Keeps ex z s) : Keeps ex z (stage s t w) := by
  unfold stage
  try dsimp only
  repeat' (first | with_reducible assumption | with_reducible apply refill_keeps | with_reducible apply modRun_keeps | with_reducible apply Keeps.ite | (with_reducible refine Keeps.foldl ?_ (fun _ _ _ => ?_)) | (fail_if_no_progress (with_reducible refine Keeps.frame ?_ rfl rfl rfl rfl)) | split)

theorem execOutp_keeps {z : State} (t : Tenant) (f : FmtA) (s : State) (h0 : Keeps none z s) : ∃ u, execOutp t f s = .next u ∧ Keeps none z u := by
  unfold execOutp
  try dsimp only
  repeat' (first | (with_reducible refine ⟨_, rfl, ?_⟩) | with_reducible assumption | with_reducible apply touch_keeps | with_reducible apply runAis_keeps | with_reducible apply finish_keeps | with_reducible apply stage_keeps | with_reducible apply Keeps.ite | (with_reducible refine Keeps.foldl ?_ (fun _ _ _ => ?_)) | (fail_if_no_progress (with_reducible refine Keeps.frame ?_ rfl rfl rfl rfl)) | intro _ | split)

theorem execOuts_keeps {z : State} (t : Tenant) (f : FmtA) (s : State) (h0 : Keeps none z s) : ∃ u, execOuts t f s = .next u ∧ Keeps none z u := by
  unfold execOuts
  try dsimp only
  repeat' (first | (with_reducible refine ⟨_, rfl, ?_⟩) | with_reducible assumption | with_reducible apply runAis_keeps | with_reducible apply finish_keeps | with_reducible apply stage_keeps | with_reducible apply Keeps.ite | (with_reducible refine Keeps.foldl ?_ (fun _ _ _ => ?_)) | (fail_if_no_progress (with_reducible refine Keeps.frame ?_ rfl rfl rfl rfl)) | intro _ | split)

theorem execOutf_keeps {z : State} (t : Tenant) (f : FmtA) (s : State) (h0 : Keeps none z s) : ∃ u, execOutf t f s = .next u ∧ Keeps none z u := by
  unfold execOutf
  try dsimp only
  repeat' (first | (with_reducible refine ⟨_, rfl, ?_⟩) | with_reducible assumption | with_reducible apply runAis_keeps | with_reducible apply finish_keeps | with_reducible apply stage_keeps | with_reducible apply Keeps.ite | (with_reducible refine Keeps.foldl ?_ (fun _ _ _ => ?_)) | (fail_if_no_progress (with_reducible refine Keeps.frame ?_ rfl rfl rfl rfl)) | intro _ | split)

end Sys2Proof.Machine
end

