-- ==== Sys2Proof/Laws/KeepsSess.lean ====
section
/-! SUPPORT. The operations of Machine/Sess.lean keep the queue, the counters and the invariant. -/

set_option linter.unusedTactic false
set_option linter.unusedVariables false
set_option linter.unreachableTactic false

namespace Sys2Proof.Machine

theorem answer_keeps {ex : Option TileId} {z : State} (s : State) (k : SesId) (index : Half) (sub : Byte) (abort : Word) (data : Bytes) (h0 : Keeps ex z s) : Keeps ex z (answer s k index sub abort data) := by
  unfold answer
  try dsimp only
  repeat' (first | with_reducible assumption | with_reducible apply modSes_keeps | with_reducible apply Keeps.ite | (with_reducible refine Keeps.foldl ?_ (fun _ _ _ => ?_)) | (fail_if_no_progress (with_reducible refine Keeps.frame ?_ rfl rfl rfl rfl)) | split)

theorem openSes_keeps {ex : Option TileId} {z : State} (s : State) (k : SesId) (h0 : Keeps ex z s) : Keeps ex z (openSes s k) := by
  unfold openSes
  try dsimp only
  repeat' (first | with_reducible assumption | with_reducible apply modSes_keeps | with_reducible apply Keeps.ite | (with_reducible refine Keeps.foldl ?_ (fun _ _ _ => ?_)) | (fail_if_no_progress (with_reducible refine Keeps.frame ?_ rfl rfl rfl rfl)) | split)

theorem closeSes_keeps {ex : Option TileId} {z : State} (s : State) (k : SesId) (h0 : Keeps ex z s) : Keeps ex z (closeSes s k) := by
  unfold closeSes
  try dsimp only
  repeat' (first | with_reducible assumption | with_reducible apply modSes_keeps | with_reducible apply Keeps.ite | (with_reducible refine Keeps.foldl ?_ (fun _ _ _ => ?_)) | (fail_if_no_progress (with_reducible refine Keeps.frame ?_ rfl rfl rfl rfl)) | split)

theorem defaultComm_keeps {ex : Option TileId} {z : State} (s : State) (k : SesId) (h0 : Keeps ex z s) : Keeps ex z (defaultComm s k) := by
  unfold defaultComm
  try dsimp only
  repeat' (first | with_reducible assumption | with_reducible apply modSes_keeps | with_reducible apply Keeps.ite | (with_reducible refine Keeps.foldl ?_ (fun _ _ _ => ?_)) | (fail_if_no_progress (with_reducible refine Keeps.frame ?_ rfl rfl rfl rfl)) | split)

theorem syncSes_keeps {ex : Option TileId} {z : State} (s : State) (t : Tenant) (h0 : Keeps ex z s) : Keeps ex z (syncSes s t) := by
  unfold syncSes
  try dsimp only
  repeat' (first | with_reducible assumption | with_reducible apply openSes_keeps | with_reducible apply closeSes_keeps | with_reducible apply Keeps.ite | (with_reducible refine Keeps.foldl ?_ (fun _ _ _ => ?_)) | (fail_if_no_progress (with_reducible refine Keeps.frame ?_ rfl rfl rfl rfl)) | split)

theorem bootNode_keeps {ex : Option TileId} {z : State} (s : State) (t : Tenant) (h0 : Keeps ex z s) : Keeps ex z (bootNode s t) := by
  unfold bootNode
  try dsimp only
  repeat' (first | with_reducible assumption | with_reducible apply modCan_keeps | with_reducible apply Keeps.ite | (with_reducible refine Keeps.foldl ?_ (fun _ _ _ => ?_)) | (fail_if_no_progress (with_reducible refine Keeps.frame ?_ rfl rfl rfl rfl)) | split)

theorem bindChannel_keeps {ex : Option TileId} {z : State} (s : State) (t : Tenant) (h0 : Keeps ex z s) : Keeps ex z (bindChannel s t) := by
  unfold bindChannel
  try dsimp only
  repeat' (first | with_reducible assumption | with_reducible apply modTen_keeps | with_reducible apply Keeps.ite | (with_reducible refine Keeps.foldl ?_ (fun _ _ _ => ?_)) | (fail_if_no_progress (with_reducible refine Keeps.frame ?_ rfl rfl rfl rfl)) | split)

end Sys2Proof.Machine
end

