-- ==== Sys2Proof/Laws/KeepsIdent.lean ====
section
/-! SUPPORT. The operations of Machine/Ident.lean keep the queue, the counters and the invariant. -/

set_option linter.unusedTactic false
set_option linter.unusedVariables false
set_option linter.unreachableTactic false

namespace Sys2Proof.Machine

/-- `setCounter` may lower a counter, so it keeps the counters only for a partial bitstream or a rise. -/
theorem setCounter_keeps {ex : Option TileId} {z : State} (s : State) (c : Nat) (v : Word) (h0 : Keeps ex z s)
    (hc : (5 ≤ c ∧ c < 13) ∨ (counter s c).toNat ≤ v.toNat) : Keeps ex z (setCounter s c v) := by
  refine h0.trans rfl (fun k hk => ?_) fun i => i
  simp only [counter, setCounter, SMap.get_set]
  split
  · rename_i e; subst e
    rcases hc with hc | hc
    · omega
    · exact hc
  · exact Nat.le_refl _

theorem setPending_keeps {ex : Option TileId} {z : State} (s : State) (c : Nat) (v : Word) (h0 : Keeps ex z s) : Keeps ex z (setPending s c v) := by
  unfold setPending
  try dsimp only
  repeat' (first | with_reducible assumption | with_reducible apply Keeps.ite | (with_reducible refine Keeps.foldl ?_ (fun _ _ _ => ?_)) | (fail_if_no_progress (with_reducible refine Keeps.frame ?_ rfl rfl rfl rfl)) | split)

theorem takeEffect_keeps {ex : Option TileId} {z : State} (s : State) (c : Nat) (v : Word) (h0 : Keeps ex z s) : Keeps ex z (takeEffect s c v) := by
  unfold takeEffect
  apply setPending_keeps
  split
  · exact setCounter_keeps s c v h0 (Or.inr (by assumption))
  · exact h0

theorem refuse_keeps {ex : Option TileId} {z : State} (s : State) (k : SesId) (artefact : Nat) (reason : Byte) (h0 : Keeps ex z s) : Keeps ex z (refuse s k artefact reason) := by
  unfold refuse
  try dsimp only
  repeat' (first | with_reducible assumption | with_reducible apply logEvent_keeps | with_reducible apply Keeps.ite | (with_reducible refine Keeps.foldl ?_ (fun _ _ _ => ?_)) | (fail_if_no_progress (with_reducible refine Keeps.frame ?_ rfl rfl rfl rfl)) | split)

theorem measure_keeps {ex : Option TileId} {z : State} (s : State) (kind : Nat) (ctr : Word) (data : Bytes) (h0 : Keeps ex z s) : Keeps ex z (measure s kind ctr data) := by
  unfold measure
  try dsimp only
  repeat' (first | with_reducible assumption | with_reducible apply Keeps.ite | (with_reducible refine Keeps.foldl ?_ (fun _ _ _ => ?_)) | (fail_if_no_progress (with_reducible refine Keeps.frame ?_ rfl rfl rfl rfl)) | split)

theorem measureNone_keeps {ex : Option TileId} {z : State} (s : State) (kind state : Nat) (h0 : Keeps ex z s) : Keeps ex z (measureNone s kind state) := by
  unfold measureNone
  try dsimp only
  repeat' (first | with_reducible assumption | with_reducible apply Keeps.ite | (with_reducible refine Keeps.foldl ?_ (fun _ _ _ => ?_)) | (fail_if_no_progress (with_reducible refine Keeps.frame ?_ rfl rfl rfl rfl)) | split)

theorem measureKeys_keeps {ex : Option TileId} {z : State} (s : State) (h0 : Keeps ex z s) : Keeps ex z (measureKeys s) := by
  unfold measureKeys
  try dsimp only
  repeat' (first | with_reducible assumption | with_reducible apply measure_keeps | with_reducible apply Keeps.ite | (with_reducible refine Keeps.foldl ?_ (fun _ _ _ => ?_)) | (fail_if_no_progress (with_reducible refine Keeps.frame ?_ rfl rfl rfl rfl)) | split)

end Sys2Proof.Machine
end

