-- ==== Sys2Proof/Laws/KeepsBranch.lean ====
section
/-! SUPPORT. The operations of Machine/Branch.lean keep the queue, the counters and the invariant. -/

set_option linter.unusedTactic false
set_option linter.unusedVariables false
set_option linter.unreachableTactic false

namespace Sys2Proof.Machine

theorem branchEnd_keeps {ex : Option TileId} {z : State} (s : State) (t : Tenant) (q : SeqId) (ac : Nat) (taken : Bool) (tgt : Nat) (h0 : Keeps ex z s) : Keeps ex z (branchEnd s t q ac taken tgt) := by
  unfold branchEnd
  try dsimp only
  repeat' (first | with_reducible assumption | with_reducible apply addTime_keeps | with_reducible apply boundary_keeps | with_reducible apply advance_keeps | with_reducible apply jump_keeps | with_reducible apply afterRoutine_keeps | with_reducible apply Keeps.ite | (with_reducible refine Keeps.foldl ?_ (fun _ _ _ => ?_)) | (fail_if_no_progress (with_reducible refine Keeps.frame ?_ rfl rfl rfl rfl)) | split)

theorem branchCmp_keeps {ex : Option TileId} {z : State} (s : State) (t : Tenant) (fn : Nat) (f : FmtJ) (c : Word → Word → Bool) (h0 : Keeps ex z s) : Keeps ex z (branchCmp s t fn f c) := by
  unfold branchCmp
  try dsimp only
  repeat' (first | with_reducible assumption | with_reducible apply runAis_keeps | with_reducible apply branchEnd_keeps | with_reducible apply Keeps.ite | (with_reducible refine Keeps.foldl ?_ (fun _ _ _ => ?_)) | (fail_if_no_progress (with_reducible refine Keeps.frame ?_ rfl rfl rfl rfl)) | intro _ | split)

theorem branchBit_keeps {ex : Option TileId} {z : State} (s : State) (t : Tenant) (fn : Nat) (f : FmtJ) (want : Bool) (h0 : Keeps ex z s) : Keeps ex z (branchBit s t fn f want) := by
  unfold branchBit
  try dsimp only
  repeat' (first | with_reducible assumption | with_reducible apply touch_keeps | with_reducible apply runAis_keeps | with_reducible apply setF_keeps | with_reducible apply freeF_keeps | with_reducible apply branchEnd_keeps | with_reducible apply Keeps.ite | (with_reducible refine Keeps.foldl ?_ (fun _ _ _ => ?_)) | (fail_if_no_progress (with_reducible refine Keeps.frame ?_ rfl rfl rfl rfl)) | intro _ | split)

theorem execBr_keeps {z : State} (t : Tenant) (f : FmtJ) (s : State) (h0 : Keeps none z s) : ∃ u, execBr t f s = .next u ∧ Keeps none z u := by
  unfold execBr
  try dsimp only
  repeat' (first | (with_reducible refine ⟨_, rfl, ?_⟩) | with_reducible assumption | with_reducible apply runAis_keeps | with_reducible apply branchEnd_keeps | with_reducible apply Keeps.ite | (with_reducible refine Keeps.foldl ?_ (fun _ _ _ => ?_)) | (fail_if_no_progress (with_reducible refine Keeps.frame ?_ rfl rfl rfl rfl)) | intro _ | split)

theorem execBany_keeps {z : State} (t : Tenant) (f : FmtJ) (s : State) (h0 : Keeps none z s) : ∃ u, execBany t f s = .next u ∧ Keeps none z u := by
  unfold execBany
  try dsimp only
  repeat' (first | (with_reducible refine ⟨_, rfl, ?_⟩) | with_reducible assumption | with_reducible apply branchBit_keeps | with_reducible apply Keeps.ite | (with_reducible refine Keeps.foldl ?_ (fun _ _ _ => ?_)) | (fail_if_no_progress (with_reducible refine Keeps.frame ?_ rfl rfl rfl rfl)) | split)

theorem execBnone_keeps {z : State} (t : Tenant) (f : FmtJ) (s : State) (h0 : Keeps none z s) : ∃ u, execBnone t f s = .next u ∧ Keeps none z u := by
  unfold execBnone
  try dsimp only
  repeat' (first | (with_reducible refine ⟨_, rfl, ?_⟩) | with_reducible assumption | with_reducible apply branchBit_keeps | with_reducible apply Keeps.ite | (with_reducible refine Keeps.foldl ?_ (fun _ _ _ => ?_)) | (fail_if_no_progress (with_reducible refine Keeps.frame ?_ rfl rfl rfl rfl)) | split)

theorem execBeq_keeps {z : State} (t : Tenant) (f : FmtJ) (s : State) (h0 : Keeps none z s) : ∃ u, execBeq t f s = .next u ∧ Keeps none z u := by
  unfold execBeq
  try dsimp only
  repeat' (first | (with_reducible refine ⟨_, rfl, ?_⟩) | with_reducible assumption | with_reducible apply branchCmp_keeps | with_reducible apply Keeps.ite | (with_reducible refine Keeps.foldl ?_ (fun _ _ _ => ?_)) | (fail_if_no_progress (with_reducible refine Keeps.frame ?_ rfl rfl rfl rfl)) | split)

theorem execBne_keeps {z : State} (t : Tenant) (f : FmtJ) (s : State) (h0 : Keeps none z s) : ∃ u, execBne t f s = .next u ∧ Keeps none z u := by
  unfold execBne
  try dsimp only
  repeat' (first | (with_reducible refine ⟨_, rfl, ?_⟩) | with_reducible assumption | with_reducible apply branchCmp_keeps | with_reducible apply Keeps.ite | (with_reducible refine Keeps.foldl ?_ (fun _ _ _ => ?_)) | (fail_if_no_progress (with_reducible refine Keeps.frame ?_ rfl rfl rfl rfl)) | split)

theorem execBlt_keeps {z : State} (t : Tenant) (f : FmtJ) (s : State) (h0 : Keeps none z s) : ∃ u, execBlt t f s = .next u ∧ Keeps none z u := by
  unfold execBlt
  try dsimp only
  repeat' (first | (with_reducible refine ⟨_, rfl, ?_⟩) | with_reducible assumption | with_reducible apply branchCmp_keeps | with_reducible apply Keeps.ite | (with_reducible refine Keeps.foldl ?_ (fun _ _ _ => ?_)) | (fail_if_no_progress (with_reducible refine Keeps.frame ?_ rfl rfl rfl rfl)) | split)

theorem execBltu_keeps {z : State} (t : Tenant) (f : FmtJ) (s : State) (h0 : Keeps none z s) : ∃ u, execBltu t f s = .next u ∧ Keeps none z u := by
  unfold execBltu
  try dsimp only
  repeat' (first | (with_reducible refine ⟨_, rfl, ?_⟩) | with_reducible assumption | with_reducible apply branchCmp_keeps | with_reducible apply Keeps.ite | (with_reducible refine Keeps.foldl ?_ (fun _ _ _ => ?_)) | (fail_if_no_progress (with_reducible refine Keeps.frame ?_ rfl rfl rfl rfl)) | split)

theorem execDbnz_keeps {z : State} (t : Tenant) (f : FmtJ) (s : State) (h0 : Keeps none z s) : ∃ u, execDbnz t f s = .next u ∧ Keeps none z u := by
  unfold execDbnz
  try dsimp only
  repeat' (first | (with_reducible refine ⟨_, rfl, ?_⟩) | with_reducible assumption | with_reducible apply setSreg_keeps | with_reducible apply runAis_keeps | with_reducible apply branchEnd_keeps | with_reducible apply Keeps.ite | (with_reducible refine Keeps.foldl ?_ (fun _ _ _ => ?_)) | (fail_if_no_progress (with_reducible refine Keeps.frame ?_ rfl rfl rfl rfl)) | intro _ | split)

theorem execCall_keeps {z : State} (t : Tenant) (f : FmtJ) (s : State) (h0 : Keeps none z s) : ∃ u, execCall t f s = .next u ∧ Keeps none z u := by
  unfold execCall
  try dsimp only
  repeat' (first | (with_reducible refine ⟨_, rfl, ?_⟩) | with_reducible assumption | with_reducible apply setSreg_keeps | with_reducible apply runAis_keeps | with_reducible apply branchEnd_keeps | with_reducible apply Keeps.ite | (with_reducible refine Keeps.foldl ?_ (fun _ _ _ => ?_)) | (fail_if_no_progress (with_reducible refine Keeps.frame ?_ rfl rfl rfl rfl)) | intro _ | split)

theorem execRet_keeps {z : State} (t : Tenant) (f : FmtJ) (s : State) (h0 : Keeps none z s) : ∃ u, execRet t f s = .next u ∧ Keeps none z u := by
  unfold execRet
  try dsimp only
  repeat' (first | (with_reducible refine ⟨_, rfl, ?_⟩) | with_reducible assumption | with_reducible apply runAis_keeps | with_reducible apply branchEnd_keeps | with_reducible apply Keeps.ite | (with_reducible refine Keeps.foldl ?_ (fun _ _ _ => ?_)) | (fail_if_no_progress (with_reducible refine Keeps.frame ?_ rfl rfl rfl rfl)) | intro _ | split)

end Sys2Proof.Machine
end

