-- ==== Sys2Proof/Laws/KeepsClaims.lean ====
section
/-! SUPPORT. The operations of Machine/Claims.lean keep the queue, the counters and the invariant. -/

set_option linter.unusedTactic false
set_option linter.unusedVariables false
set_option linter.unreachableTactic false

namespace Sys2Proof.Machine

theorem claimWindows_keeps {ex : Option TileId} {z : State} (s : State) (t : Tenant) (seq : Word) (stamp : DWord) (h0 : Keeps ex z s) : Keeps ex z (claimWindows s t seq stamp) := by
  unfold claimWindows
  try dsimp only
  repeat' (first | with_reducible assumption | with_reducible apply refill_keeps | with_reducible apply setOrder_keeps | with_reducible apply inputLost_keeps | with_reducible apply Keeps.ite | (with_reducible refine Keeps.foldl ?_ (fun _ _ _ => ?_)) | (fail_if_no_progress (with_reducible refine Keeps.frame ?_ rfl rfl rfl rfl)) | split)

theorem startInput_keeps {ex : Option TileId} {z : State} (s : State) (t : Tenant) (code : Half) (stamp : DWord) (h0 : Keeps ex z s) : Keeps ex z (startInput s t code stamp) := by
  unfold startInput
  try dsimp only
  repeat' (first | with_reducible assumption | with_reducible apply modOrder_keeps | with_reducible apply kick_keeps | with_reducible apply claimWindows_keeps | with_reducible apply Keeps.ite | (with_reducible refine Keeps.foldl ?_ (fun _ _ _ => ?_)) | (fail_if_no_progress (with_reducible refine Keeps.frame ?_ rfl rfl rfl rfl)) | split)

end Sys2Proof.Machine
end

