-- ==== Sys2Proof/Laws/KeepsSubmit.lean ====
section
/-! SUPPORT. The operations of Machine/Submit.lean keep the queue, the counters and the invariant. -/

set_option linter.unusedTactic false
set_option linter.unusedVariables false
set_option linter.unreachableTactic false

namespace Sys2Proof.Machine

theorem acceptOrder_keeps {ex : Option TileId} {z : State} (s : State) (t : Tenant) (x : Desc) (h0 : Keeps ex z s) : Keeps ex z (acceptOrder s t x) := by
  unfold acceptOrder
  try dsimp only
  repeat' (first | with_reducible assumption | with_reducible apply modTen_keeps | with_reducible apply refill_keeps | with_reducible apply journalWrite_keeps | with_reducible apply mayYield_keeps | with_reducible apply Keeps.ite | (with_reducible refine Keeps.foldl ?_ (fun _ _ _ => ?_)) | (fail_if_no_progress (with_reducible refine Keeps.frame ?_ rfl rfl rfl rfl)) | split)

theorem applySubmit_keeps {ex : Option TileId} {z : State} (s : State) (t : Tenant) (d : Bytes) (h0 : Keeps ex z s) : Keeps ex z (applySubmit s t d).2 := by
  unfold applySubmit
  try dsimp only
  repeat' (first | with_reducible assumption | with_reducible apply modTen_keeps | with_reducible apply takeMark_keeps | with_reducible apply kick_keeps | with_reducible apply acceptOrder_keeps | with_reducible apply Keeps.ite | (with_reducible refine Keeps.foldl ?_ (fun _ _ _ => ?_)) | (fail_if_no_progress (with_reducible refine Keeps.frame ?_ rfl rfl rfl rfl)) | split)

theorem startOrder_keeps {ex : Option TileId} {z : State} (s : State) (t : Tenant) (o : Order) (q : SeqId) (h0 : Keeps ex z s) : Keeps ex z (startOrder s t o q) := by
  unfold startOrder
  try dsimp only
  repeat' (first | with_reducible assumption | with_reducible apply modSqr_keeps | with_reducible apply modTen_keeps | with_reducible apply journalWrite_keeps | with_reducible apply setOrder_keeps | with_reducible apply startPes_keeps | with_reducible apply landOldest_keeps | with_reducible apply boundary_keeps | with_reducible apply claimWindows_keeps | with_reducible apply startInput_keeps | with_reducible apply Keeps.ite | (with_reducible refine Keeps.foldl ?_ (fun _ _ _ => ?_)) | (fail_if_no_progress (with_reducible refine Keeps.frame ?_ rfl rfl rfl rfl)) | split)

theorem execOrderStart_keeps {z : State} (t : Tenant) (s : State) (h0 : Keeps none z s) : ∃ u, execOrderStart t s = .next u ∧ Keeps none z u := by
  unfold execOrderStart
  try dsimp only
  repeat' (first | (with_reducible refine ⟨_, rfl, ?_⟩) | with_reducible assumption | with_reducible apply startOrder_keeps | with_reducible apply Keeps.ite | (with_reducible refine Keeps.foldl ?_ (fun _ _ _ => ?_)) | (fail_if_no_progress (with_reducible refine Keeps.frame ?_ rfl rfl rfl rfl)) | split)

theorem execUnprotected_keeps {z : State} (t : Tenant) (s : State) (h0 : Keeps none z s) : ∃ u, execUnprotected t s = .next u ∧ Keeps none z u := by
  unfold execUnprotected
  try dsimp only
  repeat' (first | (with_reducible refine ⟨_, rfl, ?_⟩) | with_reducible assumption | with_reducible apply modRun_keeps | with_reducible apply Keeps.ite | (with_reducible refine Keeps.foldl ?_ (fun _ _ _ => ?_)) | (fail_if_no_progress (with_reducible refine Keeps.frame ?_ rfl rfl rfl rfl)) | split)

theorem execRecordExpiry_keeps {z : State} (t : Tenant) (seq : Word) (s : State) (h0 : Keeps none z s) : ∃ u, execRecordExpiry t seq s = .next u ∧ Keeps none z u := by
  unfold execRecordExpiry
  try dsimp only
  repeat' (first | (with_reducible refine ⟨_, rfl, ?_⟩) | with_reducible assumption | with_reducible apply modTen_keeps | with_reducible apply logEvent_keeps | with_reducible apply emergency_keeps | with_reducible apply storeRecord_keeps | with_reducible apply Keeps.ite | (with_reducible refine Keeps.foldl ?_ (fun _ _ _ => ?_)) | (fail_if_no_progress (with_reducible refine Keeps.frame ?_ rfl rfl rfl rfl)) | split)

theorem applyRetireTo_keeps {ex : Option TileId} {z : State} (s : State) (t : Tenant) (v : Word) (h0 : Keeps ex z s) : Keeps ex z (applyRetireTo s t v).2 := by
  unfold applyRetireTo
  try dsimp only
  repeat' (first | with_reducible assumption | with_reducible apply modTen_keeps | with_reducible apply Keeps.ite | (with_reducible refine Keeps.foldl ?_ (fun _ _ _ => ?_)) | (fail_if_no_progress (with_reducible refine Keeps.frame ?_ rfl rfl rfl rfl)) | split)

theorem applyAbort_keeps {ex : Option TileId} {z : State} (s : State) (t : Tenant) (v : Byte) (h0 : Keeps ex z s) : Keeps ex z (applyAbort s t v).2 := by
  unfold applyAbort
  try dsimp only
  repeat' (first | with_reducible assumption | with_reducible apply tideFault_keeps | with_reducible apply takeMark_keeps | with_reducible apply abortTenant_keeps | with_reducible apply Keeps.ite | (with_reducible refine Keeps.foldl ?_ (fun _ _ _ => ?_)) | (fail_if_no_progress (with_reducible refine Keeps.frame ?_ rfl rfl rfl rfl)) | split)

theorem applyRelease_keeps {ex : Option TileId} {z : State} (s : State) (t : Tenant) (v : Byte) (h0 : Keeps ex z s) : Keeps ex z (applyRelease s t v).2 := by
  unfold applyRelease
  try dsimp only
  repeat' (first | with_reducible assumption | with_reducible apply modTen_keeps | with_reducible apply fabEdge_keeps | with_reducible apply Keeps.ite | (with_reducible refine Keeps.foldl ?_ (fun _ _ _ => ?_)) | (fail_if_no_progress (with_reducible refine Keeps.frame ?_ rfl rfl rfl rfl)) | split)

end Sys2Proof.Machine
end

