-- ==== Sys2Proof/Laws/KeepsCamera.lean ====
section
/-! SUPPORT. The operations of Machine/Camera.lean keep the queue, the counters and the invariant. -/

set_option linter.unusedTactic false
set_option linter.unusedVariables false
set_option linter.unreachableTactic false

namespace Sys2Proof.Machine

theorem setLink_keeps {ex : Option TileId} {z : State} (s : State) (c : CxpId) (l : Link) (h0 : Keeps ex z s) : Keeps ex z (setLink s c l) := by
  unfold setLink
  try dsimp only
  repeat' (first | with_reducible assumption | with_reducible apply modCam_keeps | with_reducible apply Keeps.ite | (with_reducible refine Keeps.foldl ?_ (fun _ _ _ => ?_)) | (fail_if_no_progress (with_reducible refine Keeps.frame ?_ rfl rfl rfl rfl)) | split)

theorem applyGrouping_keeps {ex : Option TileId} {z : State} (s : State) (v : Byte) (h0 : Keeps ex z s) : Keeps ex z (applyGrouping s v).2 := by
  unfold applyGrouping
  try dsimp only
  repeat' (first | with_reducible assumption | with_reducible apply Keeps.ite | (with_reducible refine Keeps.foldl ?_ (fun _ _ _ => ?_)) | (fail_if_no_progress (with_reducible refine Keeps.frame ?_ rfl rfl rfl rfl)) | split)

theorem execCxpDiscoveryLock_keeps {z : State} (c : CxpId) (speed : Fin 7) (s : State) (h0 : Keeps none z s) : ∃ u, execCxpDiscoveryLock c speed s = .next u ∧ Keeps none z u := by
  unfold execCxpDiscoveryLock
  try dsimp only
  repeat' (first | (with_reducible refine ⟨_, rfl, ?_⟩) | with_reducible assumption | with_reducible apply setLink_keeps | with_reducible apply Keeps.ite | (with_reducible refine Keeps.foldl ?_ (fun _ _ _ => ?_)) | (fail_if_no_progress (with_reducible refine Keeps.frame ?_ rfl rfl rfl rfl)) | split)

theorem execCxpDiscoveryTimeout_keeps {z : State} (c : CxpId) (s : State) (h0 : Keeps none z s) : ∃ u, execCxpDiscoveryTimeout c s = .next u ∧ Keeps none z u := by
  unfold execCxpDiscoveryTimeout
  try dsimp only
  repeat' (first | (with_reducible refine ⟨_, rfl, ?_⟩) | with_reducible assumption | with_reducible apply logEvent_keeps | with_reducible apply setLink_keeps | with_reducible apply Keeps.ite | (with_reducible refine Keeps.foldl ?_ (fun _ _ _ => ?_)) | (fail_if_no_progress (with_reducible refine Keeps.frame ?_ rfl rfl rfl rfl)) | split)

theorem execCxpDiscoveryRetry_keeps {z : State} (c : CxpId) (s : State) (h0 : Keeps none z s) : ∃ u, execCxpDiscoveryRetry c s = .next u ∧ Keeps none z u := by
  unfold execCxpDiscoveryRetry
  try dsimp only
  repeat' (first | (with_reducible refine ⟨_, rfl, ?_⟩) | with_reducible assumption | with_reducible apply setLink_keeps | with_reducible apply Keeps.ite | (with_reducible refine Keeps.foldl ?_ (fun _ _ _ => ?_)) | (fail_if_no_progress (with_reducible refine Keeps.frame ?_ rfl rfl rfl rfl)) | split)

theorem frameLost_keeps {ex : Option TileId} {z : State} (s : State) (c : CxpId) (t : Tenant) (seq : Word) (lines : Nat) (code : Half) (h0 : Keeps ex z s) : Keeps ex z (frameLost s c t seq lines code) := by
  unfold frameLost
  try dsimp only
  repeat' (first | with_reducible assumption | with_reducible apply modCam_keeps | with_reducible apply tideFault_keeps | with_reducible apply logEvent_keeps | with_reducible apply inputLost_keeps | with_reducible apply Keeps.ite | (with_reducible refine Keeps.foldl ?_ (fun _ _ _ => ?_)) | (fail_if_no_progress (with_reducible refine Keeps.frame ?_ rfl rfl rfl rfl)) | split)

theorem truncateFrame_keeps {ex : Option TileId} {z : State} (s : State) (c : CxpId) (h0 : Keeps ex z s) : Keeps ex z (truncateFrame s c) := by
  unfold truncateFrame
  try dsimp only
  repeat' (first | with_reducible assumption | with_reducible apply modCam_keeps | with_reducible apply frameLost_keeps | with_reducible apply Keeps.ite | (with_reducible refine Keeps.foldl ?_ (fun _ _ _ => ?_)) | (fail_if_no_progress (with_reducible refine Keeps.frame ?_ rfl rfl rfl rfl)) | split)

theorem linkLost_keeps {ex : Option TileId} {z : State} (s : State) (c : CxpId) (h0 : Keeps ex z s) : Keeps ex z (linkLost s c) := by
  unfold linkLost
  try dsimp only
  repeat' (first | with_reducible assumption | with_reducible apply setLink_keeps | with_reducible apply truncateFrame_keeps | with_reducible apply Keeps.ite | (with_reducible refine Keeps.foldl ?_ (fun _ _ _ => ?_)) | (fail_if_no_progress (with_reducible refine Keeps.frame ?_ rfl rfl rfl rfl)) | split)

theorem allLinksLost_keeps {ex : Option TileId} {z : State} (s : State) (h0 : Keeps ex z s) : Keeps ex z (allLinksLost s) := by
  unfold allLinksLost
  try dsimp only
  repeat' (first | with_reducible assumption | with_reducible apply linkLost_keeps | with_reducible apply Keeps.ite | (with_reducible refine Keeps.foldl ?_ (fun _ _ _ => ?_)) | (fail_if_no_progress (with_reducible refine Keeps.frame ?_ rfl rfl rfl rfl)) | split)

theorem execCxpLossOfLock_keeps {z : State} (c : CxpId) (s : State) (h0 : Keeps none z s) : ∃ u, execCxpLossOfLock c s = .next u ∧ Keeps none z u := by
  unfold execCxpLossOfLock
  try dsimp only
  repeat' (first | (with_reducible refine ⟨_, rfl, ?_⟩) | with_reducible assumption | with_reducible apply takeMark_keeps | with_reducible apply linkLost_keeps | with_reducible apply Keeps.ite | (with_reducible refine Keeps.foldl ?_ (fun _ _ _ => ?_)) | (fail_if_no_progress (with_reducible refine Keeps.frame ?_ rfl rfl rfl rfl)) | split)

theorem execCxpLostHoldEnd_keeps {z : State} (c : CxpId) (s : State) (h0 : Keeps none z s) : ∃ u, execCxpLostHoldEnd c s = .next u ∧ Keeps none z u := by
  unfold execCxpLostHoldEnd
  try dsimp only
  repeat' (first | (with_reducible refine ⟨_, rfl, ?_⟩) | with_reducible assumption | with_reducible apply setLink_keeps | with_reducible apply Keeps.ite | (with_reducible refine Keeps.foldl ?_ (fun _ _ _ => ?_)) | (fail_if_no_progress (with_reducible refine Keeps.frame ?_ rfl rfl rfl rfl)) | split)

theorem claimFrame_keeps {ex : Option TileId} {z : State} (s : State) (c : CxpId) (h : ImageHeader) (stamp : DWord) (h0 : Keeps ex z s) : Keeps ex z (claimFrame s c h stamp) := by
  unfold claimFrame
  try dsimp only
  repeat' (first | with_reducible assumption | with_reducible apply modCam_keeps | with_reducible apply logEvent_keeps | with_reducible apply setOrder_keeps | with_reducible apply bindTrap_keeps | with_reducible apply frameLost_keeps | with_reducible apply Keeps.ite | (with_reducible refine Keeps.foldl ?_ (fun _ _ _ => ?_)) | (fail_if_no_progress (with_reducible refine Keeps.frame ?_ rfl rfl rfl rfl)) | split)

theorem discard_keeps {ex : Option TileId} {z : State} (s : State) (c : CxpId) (h0 : Keeps ex z s) : Keeps ex z (discard s c) := by
  unfold discard
  try dsimp only
  repeat' (first | with_reducible assumption | with_reducible apply modCam_keeps | with_reducible apply Keeps.ite | (with_reducible refine Keeps.foldl ?_ (fun _ _ _ => ?_)) | (fail_if_no_progress (with_reducible refine Keeps.frame ?_ rfl rfl rfl rfl)) | split)

theorem execFrameStart_keeps {z : State} (c : CxpId) (h : ImageHeader) (s : State) (h0 : Keeps none z s) : ∃ u, execFrameStart c h s = .next u ∧ Keeps none z u := by
  unfold execFrameStart
  try dsimp only
  repeat' (first | (with_reducible refine ⟨_, rfl, ?_⟩) | with_reducible assumption | with_reducible apply modCam_keeps | with_reducible apply pulsePort_keeps | with_reducible apply takeMark_keeps | with_reducible apply startInput_keeps | with_reducible apply truncateFrame_keeps | with_reducible apply claimFrame_keeps | with_reducible apply discard_keeps | with_reducible apply Keeps.ite | (with_reducible refine Keeps.foldl ?_ (fun _ _ _ => ?_)) | (fail_if_no_progress (with_reducible refine Keeps.frame ?_ rfl rfl rfl rfl)) | split)

theorem retainParts_keeps {ex : Option TileId} {z : State} (n : Nat) (l : List BufPart) (s : State) (h0 : Keeps ex z s) :
    Keeps ex z (retainParts n l s).1 := by
  induction l generalizing n s with
  | nil => exact h0
  | cons p r ih =>
    unfold retainParts
    dsimp only
    exact ih _ _ (Keeps.ite h0 (refill_keeps _ _ _ (modOrder_keeps _ _ _ _ h0)))

theorem retain_keeps {ex : Option TileId} {z : State} (s : State) (c : CxpId) (n : Nat) (h0 : Keeps ex z s) : Keeps ex z (retain s c n) := by
  unfold retain
  try dsimp only
  repeat' (first | with_reducible assumption | with_reducible apply modCam_keeps | with_reducible apply landNow_keeps | with_reducible apply retainParts_keeps | with_reducible apply Keeps.ite | (with_reducible refine Keeps.foldl ?_ (fun _ _ _ => ?_)) | (fail_if_no_progress (with_reducible refine Keeps.frame ?_ rfl rfl rfl rfl)) | split)

theorem bufferLine_keeps {ex : Option TileId} {z : State} (s : State) (c : CxpId) (f : Frame) (t : Tenant) (seq : Word) (b : Nat) (d : Bytes) (kept : Bool) (h0 : Keeps ex z s) : Keeps ex z (bufferLine s c f t seq b d kept) := by
  unfold bufferLine
  try dsimp only
  repeat' (first | with_reducible assumption | with_reducible apply modCam_keeps | with_reducible apply frameLost_keeps | with_reducible apply retain_keeps | with_reducible apply Keeps.ite | (with_reducible refine Keeps.foldl ?_ (fun _ _ _ => ?_)) | (fail_if_no_progress (with_reducible refine Keeps.frame ?_ rfl rfl rfl rfl)) | split)

theorem execStreamPacket_keeps {z : State} (k : CxpId) (line : Nat) (pixels : List (BitVec 24)) (crcOk supported retained : Bool) (s : State) (h0 : Keeps none z s) : ∃ u, execStreamPacket k line pixels crcOk supported retained s = .next u ∧ Keeps none z u := by
  unfold execStreamPacket
  try dsimp only
  repeat' (first | (with_reducible refine ⟨_, rfl, ?_⟩) | with_reducible assumption | with_reducible apply modCam_keeps | with_reducible apply takeMark_keeps | with_reducible apply mayYield_keeps | with_reducible apply frameLost_keeps | with_reducible apply discard_keeps | with_reducible apply bufferLine_keeps | with_reducible apply Keeps.ite | (with_reducible refine Keeps.foldl ?_ (fun _ _ _ => ?_)) | (fail_if_no_progress (with_reducible refine Keeps.frame ?_ rfl rfl rfl rfl)) | split)

theorem setLanded_keeps {ex : Option TileId} {z : State} (s : State) (t : Tenant) (seq : Word) (b : Nat) (h0 : Keeps ex z s) : Keeps ex z (setLanded s t seq b) := by
  unfold setLanded
  try dsimp only
  repeat' (first | with_reducible assumption | with_reducible apply modOrder_keeps | with_reducible apply leaveBuf_keeps | with_reducible apply Keeps.ite | (with_reducible refine Keeps.foldl ?_ (fun _ _ _ => ?_)) | (fail_if_no_progress (with_reducible refine Keeps.frame ?_ rfl rfl rfl rfl)) | split)

theorem execBindingLanded_keeps {z : State} (t : Tenant) (seq : Word) (binding : Fin 8) (s : State) (h0 : Keeps none z s) : ∃ u, execBindingLanded t seq binding s = .next u ∧ Keeps none z u := by
  unfold execBindingLanded
  try dsimp only
  repeat' (first | (with_reducible refine ⟨_, rfl, ?_⟩) | with_reducible assumption | with_reducible apply modCam_keeps | with_reducible apply landAll_keeps | with_reducible apply landNow_keeps | with_reducible apply setLanded_keeps | with_reducible apply Keeps.ite | (with_reducible refine Keeps.foldl ?_ (fun _ _ _ => ?_)) | (fail_if_no_progress (with_reducible refine Keeps.frame ?_ rfl rfl rfl rfl)) | split)

theorem trigEdge_keeps {ex : Option TileId} {z : State} (s : State) (l : Nat) (c : CxpId) (h0 : Keeps ex z s) : Keeps ex z (trigEdge s l c) := by
  unfold trigEdge
  try dsimp only
  repeat' (first | with_reducible assumption | with_reducible apply modCam_keeps | with_reducible apply Keeps.ite | (with_reducible refine Keeps.foldl ?_ (fun _ _ _ => ?_)) | (fail_if_no_progress (with_reducible refine Keeps.frame ?_ rfl rfl rfl rfl)) | split)

theorem trigEdges_keeps {ex : Option TileId} {z : State} (s : State) (l : Nat) (h0 : Keeps ex z s) : Keeps ex z (trigEdges s l) := by
  unfold trigEdges
  try dsimp only
  repeat' (first | with_reducible assumption | with_reducible apply trigEdge_keeps | with_reducible apply Keeps.ite | (with_reducible refine Keeps.foldl ?_ (fun _ _ _ => ?_)) | (fail_if_no_progress (with_reducible refine Keeps.frame ?_ rfl rfl rfl rfl)) | split)

theorem applyCamReg_keeps {ex : Option TileId} {z : State} (s : State) (k : SesId) (c : CxpId) (d : Bytes) (h0 : Keeps ex z s) : Keeps ex z (applyCamReg s k c d).2 := by
  unfold applyCamReg
  try dsimp only
  repeat' (first | with_reducible assumption | with_reducible apply modCam_keeps | with_reducible apply Keeps.ite | (with_reducible refine Keeps.foldl ?_ (fun _ _ _ => ?_)) | (fail_if_no_progress (with_reducible refine Keeps.frame ?_ rfl rfl rfl rfl)) | split)

theorem readCamReg_keeps {ex : Option TileId} {z : State} (s : State) (c : CxpId) (h0 : Keeps ex z s) (r : Bytes × State)
    (h : readCamReg s c = some r) : Keeps ex z r.2 := by
  simp only [readCamReg, Option.map_eq_some_iff] at h
  obtain ⟨_, _, rfl⟩ := h
  dsimp only
  exact modCam_keeps _ _ _ h0

theorem lateAnswer_keeps {ex : Option TileId} {z : State} (s : State) (k : SesId) (index : Half) (sub : Byte) (abort : Word) (h0 : Keeps ex z s) : Keeps ex z (lateAnswer s k index sub abort) := by
  unfold lateAnswer
  try dsimp only
  repeat' (first | with_reducible assumption | with_reducible apply modSes_keeps | with_reducible apply answer_keeps | with_reducible apply Keeps.ite | (with_reducible refine Keeps.foldl ?_ (fun _ _ _ => ?_)) | (fail_if_no_progress (with_reducible refine Keeps.frame ?_ rfl rfl rfl rfl)) | split)

theorem execCamRegAck_keeps {z : State} (c : CxpId) (reply : Bytes) (s : State) (h0 : Keeps none z s) : ∃ u, execCamRegAck c reply s = .next u ∧ Keeps none z u := by
  unfold execCamRegAck
  try dsimp only
  repeat' (first | (with_reducible refine ⟨_, rfl, ?_⟩) | with_reducible assumption | with_reducible apply modCam_keeps | with_reducible apply lateAnswer_keeps | with_reducible apply Keeps.ite | (with_reducible refine Keeps.foldl ?_ (fun _ _ _ => ?_)) | (fail_if_no_progress (with_reducible refine Keeps.frame ?_ rfl rfl rfl rfl)) | split)

theorem execCamRegTimeout_keeps {z : State} (c : CxpId) (s : State) (h0 : Keeps none z s) : ∃ u, execCamRegTimeout c s = .next u ∧ Keeps none z u := by
  unfold execCamRegTimeout
  try dsimp only
  repeat' (first | (with_reducible refine ⟨_, rfl, ?_⟩) | with_reducible assumption | with_reducible apply modCam_keeps | with_reducible apply lateAnswer_keeps | with_reducible apply Keeps.ite | (with_reducible refine Keeps.foldl ?_ (fun _ _ _ => ?_)) | (fail_if_no_progress (with_reducible refine Keeps.frame ?_ rfl rfl rfl rfl)) | split)

end Sys2Proof.Machine
end

