-- ==== Sys2Proof/Laws/KeepsLines.lean ====
section
/-! SUPPORT. The operations of Machine/Lines.lean keep the queue, the counters and the invariant. -/

set_option linter.unusedTactic false
set_option linter.unusedVariables false
set_option linter.unreachableTactic false

namespace Sys2Proof.Machine

theorem lineRise_keeps {ex : Option TileId} {z : State} (s : State) (l : Nat) (h0 : Keeps ex z s) : Keeps ex z (lineRise s l) := by
  unfold lineRise
  try dsimp only
  repeat' (first | with_reducible assumption | with_reducible apply markDue_keeps | with_reducible apply tideFault_keeps | with_reducible apply abortTenant_keeps | with_reducible apply startInput_keeps | with_reducible apply trigEdges_keeps | with_reducible apply Keeps.ite | (with_reducible refine Keeps.foldl ?_ (fun _ _ _ => ?_)) | (fail_if_no_progress (with_reducible refine Keeps.frame ?_ rfl rfl rfl rfl)) | split)

theorem lineStep_keeps {ex : Option TileId} {z : State} (s : State) (l : Nat) (h0 : Keeps ex z s) : Keeps ex z (lineStep s l) := by
  unfold lineStep
  try dsimp only
  repeat' (first | with_reducible assumption | with_reducible apply lineRise_keeps | with_reducible apply Keeps.ite | (with_reducible refine Keeps.foldl ?_ (fun _ _ _ => ?_)) | (fail_if_no_progress (with_reducible refine Keeps.frame ?_ rfl rfl rfl rfl)) | split)

theorem linesStep_keeps {ex : Option TileId} {z : State} (s : State) (h0 : Keeps ex z s) : Keeps ex z (linesStep s) := by
  unfold linesStep
  try dsimp only
  repeat' (first | with_reducible assumption | with_reducible apply fallLines_keeps | with_reducible apply lineStep_keeps | with_reducible apply Keeps.ite | (with_reducible refine Keeps.foldl ?_ (fun _ _ _ => ?_)) | (fail_if_no_progress (with_reducible refine Keeps.frame ?_ rfl rfl rfl rfl)) | split)

end Sys2Proof.Machine
end

