-- ==== Sys2Proof/Laws/KeepsLoad.lean ====
section
/-! SUPPORT. The operations of Machine/Load.lean keep the queue, the counters and the invariant. -/

set_option linter.unusedTactic false
set_option linter.unusedVariables false
set_option linter.unreachableTactic false

namespace Sys2Proof.Machine

theorem rejectLoad_keeps {ex : Option TileId} {z : State} (s : State) (t : Tenant) (e : LoadErr) (h0 : Keeps ex z s) : Keeps ex z (rejectLoad s t e) := by
  unfold rejectLoad
  try dsimp only
  repeat' (first | with_reducible assumption | with_reducible apply logEvent_keeps | with_reducible apply Keeps.ite | (with_reducible refine Keeps.foldl ?_ (fun _ _ _ => ?_)) | (fail_if_no_progress (with_reducible refine Keeps.frame ?_ rfl rfl rfl rfl)) | split)

theorem applyLoad_keeps {ex : Option TileId} {z : State} (s : State) (k : SesId) (full : Bool) (d : Bytes) (h0 : Keeps ex z s) : Keeps ex z (applyLoad s k full d).2 := by
  unfold applyLoad
  try dsimp only
  repeat' (first | with_reducible assumption | with_reducible apply spWrite_keeps | with_reducible apply fabEdge_keeps | with_reducible apply holdRegion_keeps | with_reducible apply setPending_keeps | with_reducible apply refuse_keeps | with_reducible apply rejectLoad_keeps | with_reducible apply Keeps.ite | (with_reducible refine Keeps.foldl ?_ (fun _ _ _ => ?_)) | (fail_if_no_progress (with_reducible refine Keeps.frame ?_ rfl rfl rfl rfl)) | split)

theorem measureRegion_keeps {ex : Option TileId} {z : State} (s : State) (k : Nat) (ctr : Word) (h0 : Keeps ex z s) : Keeps ex z (measureRegion s k ctr) := by
  unfold measureRegion
  try dsimp only
  repeat' (first | with_reducible assumption | with_reducible apply measure_keeps | with_reducible apply Keeps.ite | (with_reducible refine Keeps.foldl ?_ (fun _ _ _ => ?_)) | (fail_if_no_progress (with_reducible refine Keeps.frame ?_ rfl rfl rfl rfl)) | split)

theorem releaseLoad_keeps {ex : Option TileId} {z : State} (s : State) (l : List Nat) (h0 : Keeps ex z s) : Keeps ex z (releaseLoad s l) := by
  unfold releaseLoad
  try dsimp only
  repeat' (first | with_reducible assumption | with_reducible apply fabEdge_keeps | with_reducible apply releaseRegion_keeps | with_reducible apply linesStep_keeps | with_reducible apply Keeps.ite | (with_reducible refine Keeps.foldl ?_ (fun _ _ _ => ?_)) | (fail_if_no_progress (with_reducible refine Keeps.frame ?_ rfl rfl rfl rfl)) | split)

theorem loadGood_keeps {ex : Option TileId} {z : State} (s : State) (l : Load) (h0 : Keeps ex z s) : Keeps ex z (loadGood s l) := by
  unfold loadGood
  try dsimp only
  repeat' (first | with_reducible assumption | with_reducible apply emergency_keeps | with_reducible apply takeEffect_keeps | with_reducible apply measure_keeps | with_reducible apply measureRegion_keeps | with_reducible apply releaseLoad_keeps | with_reducible apply Keeps.ite | (with_reducible refine Keeps.foldl ?_ (fun _ _ _ => ?_)) | (fail_if_no_progress (with_reducible refine Keeps.frame ?_ rfl rfl rfl rfl)) | split)

theorem loadBad_keeps {ex : Option TileId} {z : State} (s : State) (l : Load) (h0 : Keeps ex z s) : Keeps ex z (loadBad s l) := by
  unfold loadBad
  try dsimp only
  repeat' (first | with_reducible assumption | with_reducible apply setPending_keeps | with_reducible apply rejectLoad_keeps | with_reducible apply measureRegion_keeps | with_reducible apply releaseLoad_keeps | with_reducible apply Keeps.ite | (with_reducible refine Keeps.foldl ?_ (fun _ _ _ => ?_)) | (fail_if_no_progress (with_reducible refine Keeps.frame ?_ rfl rfl rfl rfl)) | split)

theorem loadOwed_keeps {ex : Option TileId} {z : State} (s : State) (k : RegionId) (h0 : Keeps ex z s) : Keeps ex z (loadOwed s k) := by
  unfold loadOwed
  try dsimp only
  repeat' (first | with_reducible assumption | with_reducible apply measureRegion_keeps | with_reducible apply releaseLoad_keeps | with_reducible apply Keeps.ite | (with_reducible refine Keeps.foldl ?_ (fun _ _ _ => ?_)) | (fail_if_no_progress (with_reducible refine Keeps.frame ?_ rfl rfl rfl rfl)) | split)

theorem execFabricLoadComplete_keeps {z : State} (s : State) (h0 : Keeps none z s) : ∃ u, execFabricLoadComplete s = .next u ∧ Keeps none z u := by
  unfold execFabricLoadComplete
  try dsimp only
  repeat' (first | (with_reducible refine ⟨_, rfl, ?_⟩) | with_reducible assumption | with_reducible apply startOwed_keeps | with_reducible apply takeMark_keeps | with_reducible apply lateAnswer_keeps | with_reducible apply loadGood_keeps | with_reducible apply loadBad_keeps | with_reducible apply loadOwed_keeps | with_reducible apply Keeps.ite | (with_reducible refine Keeps.foldl ?_ (fun _ _ _ => ?_)) | (fail_if_no_progress (with_reducible refine Keeps.frame ?_ rfl rfl rfl rfl)) | split)

theorem applyCapture_keeps {ex : Option TileId} {z : State} (s : State) (t : Tenant) (v : Byte) (h0 : Keeps ex z s) : Keeps ex z (applyCapture s t v).2 := by
  unfold applyCapture
  try dsimp only
  repeat' (first | with_reducible assumption | with_reducible apply captureRegion_keeps | with_reducible apply Keeps.ite | (with_reducible refine Keeps.foldl ?_ (fun _ _ _ => ?_)) | (fail_if_no_progress (with_reducible refine Keeps.frame ?_ rfl rfl rfl rfl)) | split)

theorem applyProbeSel_keeps {ex : Option TileId} {z : State} (s : State) (land : Nat) (v : Byte) (h0 : Keeps ex z s) : Keeps ex z (applyProbeSel s land v).2 := by
  unfold applyProbeSel
  try dsimp only
  repeat' (first | with_reducible assumption | with_reducible apply Keeps.ite | (with_reducible refine Keeps.foldl ?_ (fun _ _ _ => ?_)) | (fail_if_no_progress (with_reducible refine Keeps.frame ?_ rfl rfl rfl rfl)) | split)

theorem execFabricClockRampStep_keeps {z : State} (s : State) (h0 : Keeps none z s) : ∃ u, execFabricClockRampStep s = .next u ∧ Keeps none z u := by
  unfold execFabricClockRampStep
  try dsimp only
  repeat' (first | (with_reducible refine ⟨_, rfl, ?_⟩) | with_reducible assumption | with_reducible apply retargetFab_keeps | with_reducible apply Keeps.ite | (with_reducible refine Keeps.foldl ?_ (fun _ _ _ => ?_)) | (fail_if_no_progress (with_reducible refine Keeps.frame ?_ rfl rfl rfl rfl)) | split)

end Sys2Proof.Machine
end

