-- ==== Sys2Proof/Laws/KeepsField.lean ====
section
/-! SUPPORT. The operations of Machine/Field.lean keep the queue, the counters and the invariant. -/

set_option linter.unusedTactic false
set_option linter.unusedVariables false
set_option linter.unreachableTactic false

namespace Sys2Proof.Machine

theorem execFieldInputChange_keeps {z : State} (n : FcId) (level : Bool) (s : State) (h0 : Keeps none z s) : ∃ u, execFieldInputChange n level s = .next u ∧ Keeps none z u := by
  unfold execFieldInputChange
  try dsimp only
  repeat' (first | (with_reducible refine ⟨_, rfl, ?_⟩) | with_reducible assumption | with_reducible apply setFch_keeps | with_reducible apply fabEdge_keeps | with_reducible apply Keeps.ite | (with_reducible refine Keeps.foldl ?_ (fun _ _ _ => ?_)) | (fail_if_no_progress (with_reducible refine Keeps.frame ?_ rfl rfl rfl rfl)) | split)

theorem execEncoderEdge_keeps {z : State} (lead : Fin 128) (a b : Bool) (s : State) (h0 : Keeps none z s) : ∃ u, execEncoderEdge lead a b s = .next u ∧ Keeps none z u := by
  unfold execEncoderEdge
  try dsimp only
  repeat' (first | (with_reducible refine ⟨_, rfl, ?_⟩) | with_reducible assumption | with_reducible apply setFch_keeps | with_reducible apply fabEdge_keeps | with_reducible apply Keeps.ite | (with_reducible refine Keeps.foldl ?_ (fun _ _ _ => ?_)) | (fail_if_no_progress (with_reducible refine Keeps.frame ?_ rfl rfl rfl rfl)) | split)

theorem applyFilter_keeps {ex : Option TileId} {z : State} (s : State) (n : Nat) (v : Byte) (h0 : Keeps ex z s) : Keeps ex z (applyFilter s n v).2 := by
  unfold applyFilter
  try dsimp only
  repeat' (first | with_reducible assumption | with_reducible apply modFch_keeps | with_reducible apply Keeps.ite | (with_reducible refine Keeps.foldl ?_ (fun _ _ _ => ?_)) | (fail_if_no_progress (with_reducible refine Keeps.frame ?_ rfl rfl rfl rfl)) | split)

theorem reconfigure_keeps {ex : Option TileId} {z : State} (s : State) (n : Nat) (m : Byte) (h0 : Keeps ex z s) : Keeps ex z (reconfigure s n m) := by
  unfold reconfigure
  try dsimp only
  repeat' (first | with_reducible assumption | with_reducible apply modFch_keeps | with_reducible apply Keeps.ite | (with_reducible refine Keeps.foldl ?_ (fun _ _ _ => ?_)) | (fail_if_no_progress (with_reducible refine Keeps.frame ?_ rfl rfl rfl rfl)) | split)

theorem applyMode_keeps {ex : Option TileId} {z : State} (s : State) (t : Tenant) (n : Nat) (v : Byte) (h0 : Keeps ex z s) : Keeps ex z (applyMode s t n v).2 := by
  unfold applyMode
  try dsimp only
  repeat' (first | with_reducible assumption | with_reducible apply errorReset_keeps | with_reducible apply fabEdge_keeps | with_reducible apply reconfigure_keeps | with_reducible apply Keeps.ite | (with_reducible refine Keeps.foldl ?_ (fun _ _ _ => ?_)) | (fail_if_no_progress (with_reducible refine Keeps.frame ?_ rfl rfl rfl rfl)) | split)

theorem execModeChangeComplete_keeps {z : State} (n : FcId) (s : State) (h0 : Keeps none z s) : ∃ u, execModeChangeComplete n s = .next u ∧ Keeps none z u := by
  unfold execModeChangeComplete
  try dsimp only
  repeat' (first | (with_reducible refine ⟨_, rfl, ?_⟩) | with_reducible assumption | with_reducible apply modFch_keeps | with_reducible apply fabEdge_keeps | with_reducible apply Keeps.ite | (with_reducible refine Keeps.foldl ?_ (fun _ _ _ => ?_)) | (fail_if_no_progress (with_reducible refine Keeps.frame ?_ rfl rfl rfl rfl)) | split)

theorem applySafe_keeps {ex : Option TileId} {z : State} (s : State) (n : Nat) (v : Byte) (h0 : Keeps ex z s) : Keeps ex z (applySafe s n v).2 := by
  unfold applySafe
  try dsimp only
  repeat' (first | with_reducible assumption | with_reducible apply modFch_keeps | with_reducible apply Keeps.ite | (with_reducible refine Keeps.foldl ?_ (fun _ _ _ => ?_)) | (fail_if_no_progress (with_reducible refine Keeps.frame ?_ rfl rfl rfl rfl)) | split)

theorem applySource_keeps {ex : Option TileId} {z : State} (s : State) (n : Nat) (v : Byte) (h0 : Keeps ex z s) : Keeps ex z (applySource s n v).2 := by
  unfold applySource
  try dsimp only
  repeat' (first | with_reducible assumption | with_reducible apply modFch_keeps | with_reducible apply fabEdge_keeps | with_reducible apply Keeps.ite | (with_reducible refine Keeps.foldl ?_ (fun _ _ _ => ?_)) | (fail_if_no_progress (with_reducible refine Keeps.frame ?_ rfl rfl rfl rfl)) | split)

theorem applyDoutImage_keeps {ex : Option TileId} {z : State} (s : State) (t : Tenant) (j : Nat) (v : Byte) (h0 : Keeps ex z s) : Keeps ex z (applyDoutImage s t j v).2 := by
  unfold applyDoutImage
  try dsimp only
  repeat' (first | with_reducible assumption | with_reducible apply Keeps.ite | (with_reducible refine Keeps.foldl ?_ (fun _ _ _ => ?_)) | (fail_if_no_progress (with_reducible refine Keeps.frame ?_ rfl rfl rfl rfl)) | split)

theorem feedWindows_keeps {ex : Option TileId} {z : State} (s : State) (slot : DWord) (g q : Nat) (code : Half) (h0 : Keeps ex z s) : Keeps ex z (feedWindows s slot g q code) := by
  unfold feedWindows
  try dsimp only
  repeat' (first | with_reducible assumption | with_reducible apply modTen_keeps | with_reducible apply refill_keeps | with_reducible apply Keeps.ite | (with_reducible refine Keeps.foldl ?_ (fun _ _ _ => ?_)) | (fail_if_no_progress (with_reducible refine Keeps.frame ?_ rfl rfl rfl rfl)) | split)

theorem convert_keeps {ex : Option TileId} {z : State} (s : State) (g q : Nat) (uv : Int) (h0 : Keeps ex z s) : Keeps ex z (convert s g q uv) := by
  unfold convert
  try dsimp only
  repeat' (first | with_reducible assumption | with_reducible apply modFch_keeps | with_reducible apply modGrp_keeps | with_reducible apply feedWindows_keeps | with_reducible apply Keeps.ite | (with_reducible refine Keeps.foldl ?_ (fun _ _ _ => ?_)) | (fail_if_no_progress (with_reducible refine Keeps.frame ?_ rfl rfl rfl rfl)) | split)

theorem execAdcSlot_keeps {z : State} (g : GroupId) (microvolts : Int) (s : State) (h0 : Keeps none z s) : ∃ u, execAdcSlot g microvolts s = .next u ∧ Keeps none z u := by
  unfold execAdcSlot
  try dsimp only
  repeat' (first | (with_reducible refine ⟨_, rfl, ?_⟩) | with_reducible assumption | with_reducible apply fabEdge_keeps | with_reducible apply convert_keeps | with_reducible apply Keeps.ite | (with_reducible refine Keeps.foldl ?_ (fun _ _ _ => ?_)) | (fail_if_no_progress (with_reducible refine Keeps.frame ?_ rfl rfl rfl rfl)) | split)

theorem execPwmPeriodStart_keeps {z : State} (n : FcId) (s : State) (h0 : Keeps none z s) : ∃ u, execPwmPeriodStart n s = .next u ∧ Keeps none z u := by
  unfold execPwmPeriodStart
  try dsimp only
  repeat' (first | (with_reducible refine ⟨_, rfl, ?_⟩) | with_reducible assumption | with_reducible apply modFch_keeps | with_reducible apply Keeps.ite | (with_reducible refine Keeps.foldl ?_ (fun _ _ _ => ?_)) | (fail_if_no_progress (with_reducible refine Keeps.frame ?_ rfl rfl rfl rfl)) | split)

theorem diagEmergency_keeps {ex : Option TileId} {z : State} (s : State) (n : Nat) (c : Byte) (h0 : Keeps ex z s) : Keeps ex z (diagEmergency s n c) := by
  unfold diagEmergency
  try dsimp only
  repeat' (first | with_reducible assumption | with_reducible apply emergency_keeps | with_reducible apply Keeps.ite | (with_reducible refine Keeps.foldl ?_ (fun _ _ _ => ?_)) | (fail_if_no_progress (with_reducible refine Keeps.frame ?_ rfl rfl rfl rfl)) | split)

theorem raiseDiag_keeps {ex : Option TileId} {z : State} (s : State) (n : Nat) (c : Byte) (h0 : Keeps ex z s) : Keeps ex z (raiseDiag s n c) := by
  unfold raiseDiag
  try dsimp only
  repeat' (first | with_reducible assumption | with_reducible apply setFch_keeps | with_reducible apply logEvent_keeps | with_reducible apply diagEmergency_keeps | with_reducible apply Keeps.ite | (with_reducible refine Keeps.foldl ?_ (fun _ _ _ => ?_)) | (fail_if_no_progress (with_reducible refine Keeps.frame ?_ rfl rfl rfl rfl)) | split)

theorem reportDiag_keeps {ex : Option TileId} {z : State} (s : State) (n : Nat) (c : Byte) (h0 : Keeps ex z s) : Keeps ex z (reportDiag s n c) := by
  unfold reportDiag
  try dsimp only
  repeat' (first | with_reducible assumption | with_reducible apply fabEdge_keeps | with_reducible apply raiseDiag_keeps | with_reducible apply Keeps.ite | (with_reducible refine Keeps.foldl ?_ (fun _ _ _ => ?_)) | (fail_if_no_progress (with_reducible refine Keeps.frame ?_ rfl rfl rfl rfl)) | split)

theorem forceDiag_keeps {ex : Option TileId} {z : State} (s : State) (n : Nat) (c : Byte) (h0 : Keeps ex z s) : Keeps ex z (forceDiag s n c) := by
  unfold forceDiag
  try dsimp only
  repeat' (first | with_reducible assumption | with_reducible apply modFch_keeps | with_reducible apply fabEdge_keeps | with_reducible apply raiseDiag_keeps | with_reducible apply Keeps.ite | (with_reducible refine Keeps.foldl ?_ (fun _ _ _ => ?_)) | (fail_if_no_progress (with_reducible refine Keeps.frame ?_ rfl rfl rfl rfl)) | split)

theorem execShortGnd_keeps {z : State} (n : FcId) (s : State) (h0 : Keeps none z s) : ∃ u, execShortGnd n s = .next u ∧ Keeps none z u := by
  unfold execShortGnd
  try dsimp only
  repeat' (first | (with_reducible refine ⟨_, rfl, ?_⟩) | with_reducible assumption | with_reducible apply forceDiag_keeps | with_reducible apply Keeps.ite | (with_reducible refine Keeps.foldl ?_ (fun _ _ _ => ?_)) | (fail_if_no_progress (with_reducible refine Keeps.frame ?_ rfl rfl rfl rfl)) | split)

theorem execShortSupply_keeps {z : State} (n : FcId) (s : State) (h0 : Keeps none z s) : ∃ u, execShortSupply n s = .next u ∧ Keeps none z u := by
  unfold execShortSupply
  try dsimp only
  repeat' (first | (with_reducible refine ⟨_, rfl, ?_⟩) | with_reducible assumption | with_reducible apply forceDiag_keeps | with_reducible apply Keeps.ite | (with_reducible refine Keeps.foldl ?_ (fun _ _ _ => ?_)) | (fail_if_no_progress (with_reducible refine Keeps.frame ?_ rfl rfl rfl rfl)) | split)

theorem execOvertemp_keeps {z : State} (n : FcId) (s : State) (h0 : Keeps none z s) : ∃ u, execOvertemp n s = .next u ∧ Keeps none z u := by
  unfold execOvertemp
  try dsimp only
  repeat' (first | (with_reducible refine ⟨_, rfl, ?_⟩) | with_reducible assumption | with_reducible apply forceDiag_keeps | with_reducible apply Keeps.ite | (with_reducible refine Keeps.foldl ?_ (fun _ _ _ => ?_)) | (fail_if_no_progress (with_reducible refine Keeps.frame ?_ rfl rfl rfl rfl)) | split)

theorem execOpenWire_keeps {z : State} (n : FcId) (s : State) (h0 : Keeps none z s) : ∃ u, execOpenWire n s = .next u ∧ Keeps none z u := by
  unfold execOpenWire
  try dsimp only
  repeat' (first | (with_reducible refine ⟨_, rfl, ?_⟩) | with_reducible assumption | with_reducible apply reportDiag_keeps | with_reducible apply Keeps.ite | (with_reducible refine Keeps.foldl ?_ (fun _ _ _ => ?_)) | (fail_if_no_progress (with_reducible refine Keeps.frame ?_ rfl rfl rfl rfl)) | split)

theorem abandonPulse_keeps {ex : Option TileId} {z : State} (s : State) (n : Nat) (h0 : Keeps ex z s) : Keeps ex z (abandonPulse s n) := by
  unfold abandonPulse
  try dsimp only
  repeat' (first | with_reducible assumption | with_reducible apply modFch_keeps | with_reducible apply Keeps.ite | (with_reducible refine Keeps.foldl ?_ (fun _ _ _ => ?_)) | (fail_if_no_progress (with_reducible refine Keeps.frame ?_ rfl rfl rfl rfl)) | split)

theorem execAinOpenWirePulse_keeps {z : State} (n : FcId) (skipped isOpen : Bool) (s : State) (h0 : Keeps none z s) : ∃ u, execAinOpenWirePulse n skipped isOpen s = .next u ∧ Keeps none z u := by
  unfold execAinOpenWirePulse
  try dsimp only
  repeat' (first | (with_reducible refine ⟨_, rfl, ?_⟩) | with_reducible assumption | with_reducible apply reportDiag_keeps | with_reducible apply abandonPulse_keeps | with_reducible apply Keeps.ite | (with_reducible refine Keeps.foldl ?_ (fun _ _ _ => ?_)) | (fail_if_no_progress (with_reducible refine Keeps.frame ?_ rfl rfl rfl rfl)) | split)

theorem execOpenLoadOn_keeps {z : State} (n : FcId) (s : State) (h0 : Keeps none z s) : ∃ u, execOpenLoadOn n s = .next u ∧ Keeps none z u := by
  unfold execOpenLoadOn
  try dsimp only
  repeat' (first | (with_reducible refine ⟨_, rfl, ?_⟩) | with_reducible assumption | with_reducible apply reportDiag_keeps | with_reducible apply Keeps.ite | (with_reducible refine Keeps.foldl ?_ (fun _ _ _ => ?_)) | (fail_if_no_progress (with_reducible refine Keeps.frame ?_ rfl rfl rfl rfl)) | split)

theorem execOpenLoadOff_keeps {z : State} (n : FcId) (isOpen : Bool) (s : State) (h0 : Keeps none z s) : ∃ u, execOpenLoadOff n isOpen s = .next u ∧ Keeps none z u := by
  unfold execOpenLoadOff
  try dsimp only
  repeat' (first | (with_reducible refine ⟨_, rfl, ?_⟩) | with_reducible assumption | with_reducible apply reportDiag_keeps | with_reducible apply abandonPulse_keeps | with_reducible apply Keeps.ite | (with_reducible refine Keeps.foldl ?_ (fun _ _ _ => ?_)) | (fail_if_no_progress (with_reducible refine Keeps.frame ?_ rfl rfl rfl rfl)) | split)

theorem execReversed_keeps {z : State} (n : FcId) (s : State) (h0 : Keeps none z s) : ∃ u, execReversed n s = .next u ∧ Keeps none z u := by
  unfold execReversed
  try dsimp only
  repeat' (first | (with_reducible refine ⟨_, rfl, ?_⟩) | with_reducible assumption | with_reducible apply setFch_keeps | with_reducible apply fabEdge_keeps | with_reducible apply reportDiag_keeps | with_reducible apply Keeps.ite | (with_reducible refine Keeps.foldl ?_ (fun _ _ _ => ?_)) | (fail_if_no_progress (with_reducible refine Keeps.frame ?_ rfl rfl rfl rfl)) | split)

theorem execDiagRetry_keeps {z : State} (n : FcId) (s : State) (h0 : Keeps none z s) : ∃ u, execDiagRetry n s = .next u ∧ Keeps none z u := by
  unfold execDiagRetry
  try dsimp only
  repeat' (first | (with_reducible refine ⟨_, rfl, ?_⟩) | with_reducible assumption | with_reducible apply setFch_keeps | with_reducible apply fabEdge_keeps | with_reducible apply Keeps.ite | (with_reducible refine Keeps.foldl ?_ (fun _ _ _ => ?_)) | (fail_if_no_progress (with_reducible refine Keeps.frame ?_ rfl rfl rfl rfl)) | split)

theorem execDiagnosisEnd_keeps {z : State} (n : FcId) (code : Byte) (s : State) (h0 : Keeps none z s) : ∃ u, execDiagnosisEnd n code s = .next u ∧ Keeps none z u := by
  unfold execDiagnosisEnd
  try dsimp only
  repeat' (first | (with_reducible refine ⟨_, rfl, ?_⟩) | with_reducible assumption | with_reducible apply setFch_keeps | with_reducible apply errorReset_keeps | with_reducible apply fabEdge_keeps | with_reducible apply Keeps.ite | (with_reducible refine Keeps.foldl ?_ (fun _ _ _ => ?_)) | (fail_if_no_progress (with_reducible refine Keeps.frame ?_ rfl rfl rfl rfl)) | split)

theorem applyDiagClear_keeps {ex : Option TileId} {z : State} (s : State) (n : Nat) (v : Byte) (h0 : Keeps ex z s) : Keeps ex z (applyDiagClear s n v).2 := by
  unfold applyDiagClear
  try dsimp only
  repeat' (first | with_reducible assumption | with_reducible apply modFch_keeps | with_reducible apply errorReset_keeps | with_reducible apply fabEdge_keeps | with_reducible apply Keeps.ite | (with_reducible refine Keeps.foldl ?_ (fun _ _ _ => ?_)) | (fail_if_no_progress (with_reducible refine Keeps.frame ?_ rfl rfl rfl rfl)) | split)

theorem spsFault_keeps {ex : Option TileId} {z : State} (s : State) (g : Nat) (code : Byte) (h0 : Keeps ex z s) : Keeps ex z (spsFault s g code) := by
  unfold spsFault
  try dsimp only
  repeat' (first | with_reducible assumption | with_reducible apply logEvent_keeps | with_reducible apply emergency_keeps | with_reducible apply fabEdge_keeps | with_reducible apply Keeps.ite | (with_reducible refine Keeps.foldl ?_ (fun _ _ _ => ?_)) | (fail_if_no_progress (with_reducible refine Keeps.frame ?_ rfl rfl rfl rfl)) | split)

theorem execSpsOverload_keeps {z : State} (g : GroupId) (s : State) (h0 : Keeps none z s) : ∃ u, execSpsOverload g s = .next u ∧ Keeps none z u := by
  unfold execSpsOverload
  try dsimp only
  repeat' (first | (with_reducible refine ⟨_, rfl, ?_⟩) | with_reducible assumption | with_reducible apply setGrp_keeps | with_reducible apply spsFault_keeps | with_reducible apply Keeps.ite | (with_reducible refine Keeps.foldl ?_ (fun _ _ _ => ?_)) | (fail_if_no_progress (with_reducible refine Keeps.frame ?_ rfl rfl rfl rfl)) | split)

theorem execSpsRetry_keeps {z : State} (g : GroupId) (s : State) (h0 : Keeps none z s) : ∃ u, execSpsRetry g s = .next u ∧ Keeps none z u := by
  unfold execSpsRetry
  try dsimp only
  repeat' (first | (with_reducible refine ⟨_, rfl, ?_⟩) | with_reducible assumption | with_reducible apply modGrp_keeps | with_reducible apply errorReset_keeps | with_reducible apply fabEdge_keeps | with_reducible apply Keeps.ite | (with_reducible refine Keeps.foldl ?_ (fun _ _ _ => ?_)) | (fail_if_no_progress (with_reducible refine Keeps.frame ?_ rfl rfl rfl rfl)) | split)

theorem execSpsReverse_keeps {z : State} (g : GroupId) (s : State) (h0 : Keeps none z s) : ∃ u, execSpsReverse g s = .next u ∧ Keeps none z u := by
  unfold execSpsReverse
  try dsimp only
  repeat' (first | (with_reducible refine ⟨_, rfl, ?_⟩) | with_reducible assumption | with_reducible apply setGrp_keeps | with_reducible apply spsFault_keeps | with_reducible apply Keeps.ite | (with_reducible refine Keeps.foldl ?_ (fun _ _ _ => ?_)) | (fail_if_no_progress (with_reducible refine Keeps.frame ?_ rfl rfl rfl rfl)) | split)

theorem execSpsReverseEnd_keeps {z : State} (g : GroupId) (s : State) (h0 : Keeps none z s) : ∃ u, execSpsReverseEnd g s = .next u ∧ Keeps none z u := by
  unfold execSpsReverseEnd
  try dsimp only
  repeat' (first | (with_reducible refine ⟨_, rfl, ?_⟩) | with_reducible assumption | with_reducible apply modGrp_keeps | with_reducible apply errorReset_keeps | with_reducible apply fabEdge_keeps | with_reducible apply Keeps.ite | (with_reducible refine Keeps.foldl ?_ (fun _ _ _ => ?_)) | (fail_if_no_progress (with_reducible refine Keeps.frame ?_ rfl rfl rfl rfl)) | split)

theorem applySpsEnable_keeps {ex : Option TileId} {z : State} (s : State) (g : Nat) (v : Byte) (h0 : Keeps ex z s) : Keeps ex z (applySpsEnable s g v).2 := by
  unfold applySpsEnable
  try dsimp only
  repeat' (first | with_reducible assumption | with_reducible apply modGrp_keeps | with_reducible apply errorReset_keeps | with_reducible apply fabEdge_keeps | with_reducible apply Keeps.ite | (with_reducible refine Keeps.foldl ?_ (fun _ _ _ => ?_)) | (fail_if_no_progress (with_reducible refine Keeps.frame ?_ rfl rfl rfl rfl)) | split)

theorem groupFault_keeps {ex : Option TileId} {z : State} (s : State) (g : Nat) (cause : BitVec 4) (h0 : Keeps ex z s) : Keeps ex z (groupFault s g cause) := by
  unfold groupFault
  try dsimp only
  repeat' (first | with_reducible assumption | with_reducible apply setGrp_keeps | with_reducible apply tideFault_keeps | with_reducible apply logEvent_keeps | with_reducible apply emergency_keeps | with_reducible apply fabEdge_keeps | with_reducible apply abortOrders_keeps | with_reducible apply Keeps.ite | (with_reducible refine Keeps.foldl ?_ (fun _ _ _ => ?_)) | (fail_if_no_progress (with_reducible refine Keeps.frame ?_ rfl rfl rfl rfl)) | split)

theorem execGroupCurrentAverage_keeps {z : State} (g : GroupId) (milliamps : Half) (s : State) (h0 : Keeps none z s) : ∃ u, execGroupCurrentAverage g milliamps s = .next u ∧ Keeps none z u := by
  unfold execGroupCurrentAverage
  try dsimp only
  repeat' (first | (with_reducible refine ⟨_, rfl, ?_⟩) | with_reducible assumption | with_reducible apply modGrp_keeps | with_reducible apply takeMark_keeps | with_reducible apply groupFault_keeps | with_reducible apply Keeps.ite | (with_reducible refine Keeps.foldl ?_ (fun _ _ _ => ?_)) | (fail_if_no_progress (with_reducible refine Keeps.frame ?_ rfl rfl rfl rfl)) | split)

theorem execModuleBudgetCheck_keeps {z : State} (s : State) (h0 : Keeps none z s) : ∃ u, execModuleBudgetCheck s = .next u ∧ Keeps none z u := by
  unfold execModuleBudgetCheck
  try dsimp only
  repeat' (first | (with_reducible refine ⟨_, rfl, ?_⟩) | with_reducible assumption | with_reducible apply takeMark_keeps | with_reducible apply groupFault_keeps | with_reducible apply Keeps.ite | (with_reducible refine Keeps.foldl ?_ (fun _ _ _ => ?_)) | (fail_if_no_progress (with_reducible refine Keeps.frame ?_ rfl rfl rfl rfl)) | split)

theorem execGroupMonitorTrip_keeps {z : State} (g : GroupId) (which : Fin 3) (s : State) (h0 : Keeps none z s) : ∃ u, execGroupMonitorTrip g which s = .next u ∧ Keeps none z u := by
  unfold execGroupMonitorTrip
  try dsimp only
  repeat' (first | (with_reducible refine ⟨_, rfl, ?_⟩) | with_reducible assumption | with_reducible apply takeMark_keeps | with_reducible apply groupFault_keeps | with_reducible apply Keeps.ite | (with_reducible refine Keeps.foldl ?_ (fun _ _ _ => ?_)) | (fail_if_no_progress (with_reducible refine Keeps.frame ?_ rfl rfl rfl rfl)) | split)

theorem execGroupOvercurrentEscalation_keeps {z : State} (g : GroupId) (s : State) (h0 : Keeps none z s) : ∃ u, execGroupOvercurrentEscalation g s = .next u ∧ Keeps none z u := by
  unfold execGroupOvercurrentEscalation
  try dsimp only
  repeat' (first | (with_reducible refine ⟨_, rfl, ?_⟩) | with_reducible assumption | with_reducible apply modFch_keeps | with_reducible apply fabEdge_keeps | with_reducible apply Keeps.ite | (with_reducible refine Keeps.foldl ?_ (fun _ _ _ => ?_)) | (fail_if_no_progress (with_reducible refine Keeps.frame ?_ rfl rfl rfl rfl)) | split)

theorem applyGroupClear_keeps {ex : Option TileId} {z : State} (s : State) (g : Nat) (v : Byte) (h0 : Keeps ex z s) : Keeps ex z (applyGroupClear s g v).2 := by
  unfold applyGroupClear
  try dsimp only
  repeat' (first | with_reducible assumption | with_reducible apply modFch_keeps | with_reducible apply modGrp_keeps | with_reducible apply errorReset_keeps | with_reducible apply fabEdge_keeps | with_reducible apply Keeps.ite | (with_reducible refine Keeps.foldl ?_ (fun _ _ _ => ?_)) | (fail_if_no_progress (with_reducible refine Keeps.frame ?_ rfl rfl rfl rfl)) | split)

theorem execCrossingSilence_keeps {z : State} (die : Fin 2) (resumed : Bool) (s : State) (h0 : Keeps none z s) : ∃ u, execCrossingSilence die resumed s = .next u ∧ Keeps none z u := by
  unfold execCrossingSilence
  try dsimp only
  repeat' (first | (with_reducible refine ⟨_, rfl, ?_⟩) | with_reducible assumption | with_reducible apply fabEdge_keeps | with_reducible apply Keeps.ite | (with_reducible refine Keeps.foldl ?_ (fun _ _ _ => ?_)) | (fail_if_no_progress (with_reducible refine Keeps.frame ?_ rfl rfl rfl rfl)) | split)

end Sys2Proof.Machine
end

