-- ==== Sys2Proof/Laws/KeepsMicro.lean ====
section
/-! SUPPORT. The operations of Machine/Micro.lean keep the queue, the counters and the invariant. -/

set_option linter.unusedTactic false
set_option linter.unusedVariables false
set_option linter.unreachableTactic false

namespace Sys2Proof.Machine

theorem repairWord_keeps {ex : Option TileId} {z : State} (s : State) (q k : Nat) (h0 : Keeps ex z s) : Keeps ex z (repairWord s q k) := by
  unfold repairWord
  try dsimp only
  repeat' (first | with_reducible assumption | with_reducible apply modSqr_keeps | with_reducible apply logEvent_keeps | with_reducible apply readCopied_keeps | with_reducible apply Keeps.ite | (with_reducible refine Keeps.foldl ?_ (fun _ _ _ => ?_)) | (fail_if_no_progress (with_reducible refine Keeps.frame ?_ rfl rfl rfl rfl)) | split)

theorem mendWord_keeps {ex : Option TileId} {z : State} (s : State) (q : SeqId) (k : Nat) (h0 : Keeps ex z s) : Keeps ex z (mendWord s q k) := by
  unfold mendWord
  try dsimp only
  repeat' (first | with_reducible assumption | with_reducible apply takeMark_keeps | with_reducible apply seqFault_keeps | with_reducible apply repairWord_keeps | with_reducible apply Keeps.ite | (with_reducible refine Keeps.foldl ?_ (fun _ _ _ => ?_)) | (fail_if_no_progress (with_reducible refine Keeps.frame ?_ rfl rfl rfl rfl)) | split)

theorem microFault_keeps {ex : Option TileId} {z : State} (s : State) (q : SeqId) (t : Tenant) (h0 : Keeps ex z s) : Keeps ex z (microFault s q t) := by
  unfold microFault
  try dsimp only
  repeat' (first | with_reducible assumption | with_reducible apply logEvent_keeps | with_reducible apply abortOrders_keeps | with_reducible apply Keeps.ite | (with_reducible refine Keeps.foldl ?_ (fun _ _ _ => ?_)) | (fail_if_no_progress (with_reducible refine Keeps.frame ?_ rfl rfl rfl rfl)) | split)

theorem runMicro_keeps {ex : Option TileId} {z : State} (s : State) (q : SeqId) (w : Word) (bad : Sequencer → Bool) (eff : Tenant → State → State) (h0 : Keeps ex z s)(hs : ∀ t u, Keeps ex z u → Keeps ex z (eff t u)) : Keeps ex z (runMicro s q w bad eff) := by
  unfold runMicro
  try dsimp only
  repeat' (first | with_reducible assumption | with_reducible apply modSqr_keeps | with_reducible apply mendWord_keeps | with_reducible apply microFault_keeps | with_reducible apply Keeps.ite | (with_reducible refine Keeps.foldl ?_ (fun _ _ _ => ?_)) | (fail_if_no_progress (with_reducible refine Keeps.frame ?_ rfl rfl rfl rfl)) | with_reducible apply hs | split)

theorem endMicro_keeps {ex : Option TileId} {z : State} (s : State) (t : Tenant) (q : SeqId) (n : Nat) (h0 : Keeps ex z s) : Keeps ex z (endMicro s t q n) := by
  unfold endMicro
  try dsimp only
  repeat' (first | with_reducible assumption | with_reducible apply modSqr_keeps | with_reducible apply addTime_keeps | with_reducible apply Keeps.ite | (with_reducible refine Keeps.foldl ?_ (fun _ _ _ => ?_)) | (fail_if_no_progress (with_reducible refine Keeps.frame ?_ rfl rfl rfl rfl)) | split)

theorem planeSlice_keeps {ex : Option TileId} {z : State} (s0 : State) (x : Sequencer) (w : PlaneW) (add : Bool) (g : Nat) (u : State) (e : Elem) (h0 : Keeps ex z s0) (h1 : Keeps ex z u) : Keeps ex z (planeSlice s0 x w add g u e) := by
  unfold planeSlice
  try dsimp only
  repeat' (first | with_reducible assumption | with_reducible apply setPe_keeps | with_reducible apply setPeBit_keeps | with_reducible apply setPeX_keeps | with_reducible apply setPeRes_keeps | with_reducible apply setC_keeps | with_reducible apply setK_keeps | with_reducible apply Keeps.ite | (with_reducible refine Keeps.foldl ?_ (fun _ _ _ => ?_)) | (fail_if_no_progress (with_reducible refine Keeps.frame ?_ rfl rfl rfl rfl)) | split)

theorem planeTouch_keeps {ex : Option TileId} {z : State} (s : State) (x : Sequencer) (w : PlaneW) (g : Nat) (es : List Elem) (h0 : Keeps ex z s) : Keeps ex z (planeTouch s x w g es) := by
  unfold planeTouch
  try dsimp only
  repeat' (first | with_reducible assumption | with_reducible apply touch_keeps | with_reducible apply Keeps.ite | (with_reducible refine Keeps.foldl ?_ (fun _ _ _ => ?_)) | (fail_if_no_progress (with_reducible refine Keeps.frame ?_ rfl rfl rfl rfl)) | split)

theorem plane_keeps {ex : Option TileId} {z : State} (s : State) (q : SeqId) (w : PlaneW) (add : Bool) (h0 : Keeps ex z s) : Keeps ex z (plane s q w add) := by
  unfold plane
  try dsimp only
  repeat' (first | with_reducible assumption | with_reducible apply modSqr_keeps | with_reducible apply runMicro_keeps | with_reducible apply endMicro_keeps | with_reducible apply planeSlice_keeps | with_reducible apply planeTouch_keeps | with_reducible apply Keeps.ite | (with_reducible refine Keeps.foldl ?_ (fun _ _ _ => ?_)) | (fail_if_no_progress (with_reducible refine Keeps.frame ?_ rfl rfl rfl rfl)) | intro _ | split)

theorem execPlaneLog_keeps {z : State} (q : SeqId) (w : PlaneW) (s : State) (h0 : Keeps none z s) : ∃ u, execPlaneLog q w s = .next u ∧ Keeps none z u := by
  unfold execPlaneLog
  try dsimp only
  repeat' (first | (with_reducible refine ⟨_, rfl, ?_⟩) | with_reducible assumption | with_reducible apply plane_keeps | with_reducible apply Keeps.ite | (with_reducible refine Keeps.foldl ?_ (fun _ _ _ => ?_)) | (fail_if_no_progress (with_reducible refine Keeps.frame ?_ rfl rfl rfl rfl)) | split)

theorem execPlaneAdd_keeps {z : State} (q : SeqId) (w : PlaneW) (s : State) (h0 : Keeps none z s) : ∃ u, execPlaneAdd q w s = .next u ∧ Keeps none z u := by
  unfold execPlaneAdd
  try dsimp only
  repeat' (first | (with_reducible refine ⟨_, rfl, ?_⟩) | with_reducible assumption | with_reducible apply plane_keeps | with_reducible apply Keeps.ite | (with_reducible refine Keeps.foldl ?_ (fun _ _ _ => ?_)) | (fail_if_no_progress (with_reducible refine Keeps.frame ?_ rfl rfl rfl rfl)) | split)

theorem laneShift_keeps {ex : Option TileId} {z : State} (s0 : State) (g : Nat) (east : Bool) (u : State) (e : Elem) (h0 : Keeps ex z s0) (h1 : Keeps ex z u) : Keeps ex z (laneShift s0 g east u e) := by
  unfold laneShift
  try dsimp only
  repeat' (first | with_reducible assumption | with_reducible apply setPeX_keeps | with_reducible apply setC_keeps | with_reducible apply Keeps.ite | (with_reducible refine Keeps.foldl ?_ (fun _ _ _ => ?_)) | (fail_if_no_progress (with_reducible refine Keeps.frame ?_ rfl rfl rfl rfl)) | split)

theorem culvertLatch_keeps {ex : Option TileId} {z : State} (s : State) (d : Nat) (l : List (TileId × Fin 8)) (h0 : Keeps ex z s) : Keeps ex z (culvertLatch s d l) := by
  unfold culvertLatch
  try dsimp only
  repeat' (first | with_reducible assumption | with_reducible apply setPe_keeps | with_reducible apply Keeps.ite | (with_reducible refine Keeps.foldl ?_ (fun _ _ _ => ?_)) | (fail_if_no_progress (with_reducible refine Keeps.frame ?_ rfl rfl rfl rfl)) | split)

theorem execNews_keeps {z : State} (q : SeqId) (dir : BitVec 2) (ls : Bool) (w : NewsW) (s : State) (h0 : Keeps none z s) : ∃ u, execNews q dir ls w s = .next u ∧ Keeps none z u := by
  unfold execNews
  try dsimp only
  repeat' (first | (with_reducible refine ⟨_, rfl, ?_⟩) | with_reducible assumption | with_reducible apply setPeX_keeps | with_reducible apply linkSample_keeps | with_reducible apply runMicro_keeps | with_reducible apply endMicro_keeps | with_reducible apply laneShift_keeps | with_reducible apply culvertLatch_keeps | with_reducible apply Keeps.ite | (with_reducible refine Keeps.foldl ?_ (fun _ _ _ => ?_)) | (fail_if_no_progress (with_reducible refine Keeps.frame ?_ rfl rfl rfl rfl)) | intro _ | split)

theorem addrOp_keeps {ex : Option TileId} {z : State} (s : State) (q : SeqId) (w : AddrW) (mode : BitVec 3) (f : Sequencer → MicroAddr) (h0 : Keeps ex z s) : Keeps ex z (addrOp s q w mode f) := by
  unfold addrOp
  try dsimp only
  repeat' (first | with_reducible assumption | with_reducible apply modSqr_keeps | with_reducible apply runMicro_keeps | with_reducible apply endMicro_keeps | with_reducible apply Keeps.ite | (with_reducible refine Keeps.foldl ?_ (fun _ _ _ => ?_)) | (fail_if_no_progress (with_reducible refine Keeps.frame ?_ rfl rfl rfl rfl)) | intro _ | split)

theorem execAddrImm_keeps {z : State} (q : SeqId) (w : AddrW) (s : State) (h0 : Keeps none z s) : ∃ u, execAddrImm q w s = .next u ∧ Keeps none z u := by
  unfold execAddrImm
  try dsimp only
  repeat' (first | (with_reducible refine ⟨_, rfl, ?_⟩) | with_reducible assumption | with_reducible apply addrOp_keeps | with_reducible apply Keeps.ite | (with_reducible refine Keeps.foldl ?_ (fun _ _ _ => ?_)) | (fail_if_no_progress (with_reducible refine Keeps.frame ?_ rfl rfl rfl rfl)) | split)

theorem execAddrAdd_keeps {z : State} (q : SeqId) (w : AddrW) (s : State) (h0 : Keeps none z s) : ∃ u, execAddrAdd q w s = .next u ∧ Keeps none z u := by
  unfold execAddrAdd
  try dsimp only
  repeat' (first | (with_reducible refine ⟨_, rfl, ?_⟩) | with_reducible assumption | with_reducible apply addrOp_keeps | with_reducible apply Keeps.ite | (with_reducible refine Keeps.foldl ?_ (fun _ _ _ => ?_)) | (fail_if_no_progress (with_reducible refine Keeps.frame ?_ rfl rfl rfl rfl)) | split)

theorem execAddrScalar_keeps {z : State} (q : SeqId) (w : AddrW) (s : State) (h0 : Keeps none z s) : ∃ u, execAddrScalar q w s = .next u ∧ Keeps none z u := by
  unfold execAddrScalar
  try dsimp only
  repeat' (first | (with_reducible refine ⟨_, rfl, ?_⟩) | with_reducible assumption | with_reducible apply addrOp_keeps | with_reducible apply Keeps.ite | (with_reducible refine Keeps.foldl ?_ (fun _ _ _ => ?_)) | (fail_if_no_progress (with_reducible refine Keeps.frame ?_ rfl rfl rfl rfl)) | split)

theorem execAddrCopy_keeps {z : State} (q : SeqId) (w : AddrW) (s : State) (h0 : Keeps none z s) : ∃ u, execAddrCopy q w s = .next u ∧ Keeps none z u := by
  unfold execAddrCopy
  try dsimp only
  repeat' (first | (with_reducible refine ⟨_, rfl, ?_⟩) | with_reducible assumption | with_reducible apply addrOp_keeps | with_reducible apply Keeps.ite | (with_reducible refine Keeps.foldl ?_ (fun _ _ _ => ?_)) | (fail_if_no_progress (with_reducible refine Keeps.frame ?_ rfl rfl rfl rfl)) | split)

theorem execAddrWrap_keeps {z : State} (q : SeqId) (w : AddrW) (s : State) (h0 : Keeps none z s) : ∃ u, execAddrWrap q w s = .next u ∧ Keeps none z u := by
  unfold execAddrWrap
  try dsimp only
  repeat' (first | (with_reducible refine ⟨_, rfl, ?_⟩) | with_reducible assumption | with_reducible apply addrOp_keeps | with_reducible apply Keeps.ite | (with_reducible refine Keeps.foldl ?_ (fun _ _ _ => ?_)) | (fail_if_no_progress (with_reducible refine Keeps.frame ?_ rfl rfl rfl rfl)) | split)

theorem execAddrSlide_keeps {z : State} (q : SeqId) (w : AddrW) (s : State) (h0 : Keeps none z s) : ∃ u, execAddrSlide q w s = .next u ∧ Keeps none z u := by
  unfold execAddrSlide
  try dsimp only
  repeat' (first | (with_reducible refine ⟨_, rfl, ?_⟩) | with_reducible assumption | with_reducible apply addrOp_keeps | with_reducible apply Keeps.ite | (with_reducible refine Keeps.foldl ?_ (fun _ _ _ => ?_)) | (fail_if_no_progress (with_reducible refine Keeps.frame ?_ rfl rfl rfl rfl)) | split)

theorem execAddrPlain_keeps {z : State} (q : SeqId) (w : AddrW) (s : State) (h0 : Keeps none z s) : ∃ u, execAddrPlain q w s = .next u ∧ Keeps none z u := by
  unfold execAddrPlain
  try dsimp only
  repeat' (first | (with_reducible refine ⟨_, rfl, ?_⟩) | with_reducible assumption | with_reducible apply addrOp_keeps | with_reducible apply Keeps.ite | (with_reducible refine Keeps.foldl ?_ (fun _ _ _ => ?_)) | (fail_if_no_progress (with_reducible refine Keeps.frame ?_ rfl rfl rfl rfl)) | split)

theorem scalOp_keeps {ex : Option TileId} {z : State} (s : State) (q : SeqId) (w : ScalW) (fn : BitVec 4) (f : Sequencer → Word) (h0 : Keeps ex z s) : Keeps ex z (scalOp s q w fn f) := by
  unfold scalOp
  try dsimp only
  repeat' (first | with_reducible assumption | with_reducible apply modSqr_keeps | with_reducible apply runMicro_keeps | with_reducible apply endMicro_keeps | with_reducible apply Keeps.ite | (with_reducible refine Keeps.foldl ?_ (fun _ _ _ => ?_)) | (fail_if_no_progress (with_reducible refine Keeps.frame ?_ rfl rfl rfl rfl)) | intro _ | split)

theorem execScalAdd_keeps {z : State} (q : SeqId) (w : ScalW) (s : State) (h0 : Keeps none z s) : ∃ u, execScalAdd q w s = .next u ∧ Keeps none z u := by
  unfold execScalAdd
  try dsimp only
  repeat' (first | (with_reducible refine ⟨_, rfl, ?_⟩) | with_reducible assumption | with_reducible apply scalOp_keeps | with_reducible apply Keeps.ite | (with_reducible refine Keeps.foldl ?_ (fun _ _ _ => ?_)) | (fail_if_no_progress (with_reducible refine Keeps.frame ?_ rfl rfl rfl rfl)) | split)

theorem execScalAddi_keeps {z : State} (q : SeqId) (w : ScalW) (s : State) (h0 : Keeps none z s) : ∃ u, execScalAddi q w s = .next u ∧ Keeps none z u := by
  unfold execScalAddi
  try dsimp only
  repeat' (first | (with_reducible refine ⟨_, rfl, ?_⟩) | with_reducible assumption | with_reducible apply scalOp_keeps | with_reducible apply Keeps.ite | (with_reducible refine Keeps.foldl ?_ (fun _ _ _ => ?_)) | (fail_if_no_progress (with_reducible refine Keeps.frame ?_ rfl rfl rfl rfl)) | split)

theorem execScalSub_keeps {z : State} (q : SeqId) (w : ScalW) (s : State) (h0 : Keeps none z s) : ∃ u, execScalSub q w s = .next u ∧ Keeps none z u := by
  unfold execScalSub
  try dsimp only
  repeat' (first | (with_reducible refine ⟨_, rfl, ?_⟩) | with_reducible assumption | with_reducible apply scalOp_keeps | with_reducible apply Keeps.ite | (with_reducible refine Keeps.foldl ?_ (fun _ _ _ => ?_)) | (fail_if_no_progress (with_reducible refine Keeps.frame ?_ rfl rfl rfl rfl)) | split)

theorem execScalAnd_keeps {z : State} (q : SeqId) (w : ScalW) (s : State) (h0 : Keeps none z s) : ∃ u, execScalAnd q w s = .next u ∧ Keeps none z u := by
  unfold execScalAnd
  try dsimp only
  repeat' (first | (with_reducible refine ⟨_, rfl, ?_⟩) | with_reducible assumption | with_reducible apply scalOp_keeps | with_reducible apply Keeps.ite | (with_reducible refine Keeps.foldl ?_ (fun _ _ _ => ?_)) | (fail_if_no_progress (with_reducible refine Keeps.frame ?_ rfl rfl rfl rfl)) | split)

theorem execScalOr_keeps {z : State} (q : SeqId) (w : ScalW) (s : State) (h0 : Keeps none z s) : ∃ u, execScalOr q w s = .next u ∧ Keeps none z u := by
  unfold execScalOr
  try dsimp only
  repeat' (first | (with_reducible refine ⟨_, rfl, ?_⟩) | with_reducible assumption | with_reducible apply scalOp_keeps | with_reducible apply Keeps.ite | (with_reducible refine Keeps.foldl ?_ (fun _ _ _ => ?_)) | (fail_if_no_progress (with_reducible refine Keeps.frame ?_ rfl rfl rfl rfl)) | split)

theorem execScalXor_keeps {z : State} (q : SeqId) (w : ScalW) (s : State) (h0 : Keeps none z s) : ∃ u, execScalXor q w s = .next u ∧ Keeps none z u := by
  unfold execScalXor
  try dsimp only
  repeat' (first | (with_reducible refine ⟨_, rfl, ?_⟩) | with_reducible assumption | with_reducible apply scalOp_keeps | with_reducible apply Keeps.ite | (with_reducible refine Keeps.foldl ?_ (fun _ _ _ => ?_)) | (fail_if_no_progress (with_reducible refine Keeps.frame ?_ rfl rfl rfl rfl)) | split)

theorem execScalShl_keeps {z : State} (q : SeqId) (w : ScalW) (s : State) (h0 : Keeps none z s) : ∃ u, execScalShl q w s = .next u ∧ Keeps none z u := by
  unfold execScalShl
  try dsimp only
  repeat' (first | (with_reducible refine ⟨_, rfl, ?_⟩) | with_reducible assumption | with_reducible apply scalOp_keeps | with_reducible apply Keeps.ite | (with_reducible refine Keeps.foldl ?_ (fun _ _ _ => ?_)) | (fail_if_no_progress (with_reducible refine Keeps.frame ?_ rfl rfl rfl rfl)) | split)

theorem execScalShr_keeps {z : State} (q : SeqId) (w : ScalW) (s : State) (h0 : Keeps none z s) : ∃ u, execScalShr q w s = .next u ∧ Keeps none z u := by
  unfold execScalShr
  try dsimp only
  repeat' (first | (with_reducible refine ⟨_, rfl, ?_⟩) | with_reducible assumption | with_reducible apply scalOp_keeps | with_reducible apply Keeps.ite | (with_reducible refine Keeps.foldl ?_ (fun _ _ _ => ?_)) | (fail_if_no_progress (with_reducible refine Keeps.frame ?_ rfl rfl rfl rfl)) | split)

theorem execScalLi_keeps {z : State} (q : SeqId) (w : ScalW) (s : State) (h0 : Keeps none z s) : ∃ u, execScalLi q w s = .next u ∧ Keeps none z u := by
  unfold execScalLi
  try dsimp only
  repeat' (first | (with_reducible refine ⟨_, rfl, ?_⟩) | with_reducible assumption | with_reducible apply scalOp_keeps | with_reducible apply Keeps.ite | (with_reducible refine Keeps.foldl ?_ (fun _ _ _ => ?_)) | (fail_if_no_progress (with_reducible refine Keeps.frame ?_ rfl rfl rfl rfl)) | split)

theorem execScalShi_keeps {z : State} (q : SeqId) (w : ScalW) (s : State) (h0 : Keeps none z s) : ∃ u, execScalShi q w s = .next u ∧ Keeps none z u := by
  unfold execScalShi
  try dsimp only
  repeat' (first | (with_reducible refine ⟨_, rfl, ?_⟩) | with_reducible assumption | with_reducible apply scalOp_keeps | with_reducible apply Keeps.ite | (with_reducible refine Keeps.foldl ?_ (fun _ _ _ => ?_)) | (fail_if_no_progress (with_reducible refine Keeps.frame ?_ rfl rfl rfl rfl)) | split)

theorem execScalField_keeps {z : State} (q : SeqId) (w : ScalW) (s : State) (h0 : Keeps none z s) : ∃ u, execScalField q w s = .next u ∧ Keeps none z u := by
  unfold execScalField
  try dsimp only
  repeat' (first | (with_reducible refine ⟨_, rfl, ?_⟩) | with_reducible assumption | with_reducible apply modSqr_keeps | with_reducible apply runMicro_keeps | with_reducible apply endMicro_keeps | with_reducible apply Keeps.ite | (with_reducible refine Keeps.foldl ?_ (fun _ _ _ => ?_)) | (fail_if_no_progress (with_reducible refine Keeps.frame ?_ rfl rfl rfl rfl)) | intro _ | split)

theorem execScalHsb_keeps {z : State} (q : SeqId) (w : ScalW) (s : State) (h0 : Keeps none z s) : ∃ u, execScalHsb q w s = .next u ∧ Keeps none z u := by
  unfold execScalHsb
  try dsimp only
  repeat' (first | (with_reducible refine ⟨_, rfl, ?_⟩) | with_reducible assumption | with_reducible apply scalOp_keeps | with_reducible apply Keeps.ite | (with_reducible refine Keeps.foldl ?_ (fun _ _ _ => ?_)) | (fail_if_no_progress (with_reducible refine Keeps.frame ?_ rfl rfl rfl rfl)) | split)

theorem execScalGet_keeps {z : State} (q : SeqId) (w : ScalW) (s : State) (h0 : Keeps none z s) : ∃ u, execScalGet q w s = .next u ∧ Keeps none z u := by
  unfold execScalGet
  try dsimp only
  repeat' (first | (with_reducible refine ⟨_, rfl, ?_⟩) | with_reducible assumption | with_reducible apply modSqr_keeps | with_reducible apply bump_keeps | with_reducible apply runMicro_keeps | with_reducible apply endMicro_keeps | with_reducible apply Keeps.ite | (with_reducible refine Keeps.foldl ?_ (fun _ _ _ => ?_)) | (fail_if_no_progress (with_reducible refine Keeps.frame ?_ rfl rfl rfl rfl)) | intro _ | split)

theorem execScalMem_keeps {z : State} (q : SeqId) (w : ScalW) (s : State) (h0 : Keeps none z s) : ∃ u, execScalMem q w s = .next u ∧ Keeps none z u := by
  unfold execScalMem
  try dsimp only
  repeat' (first | (with_reducible refine ⟨_, rfl, ?_⟩) | with_reducible assumption | with_reducible apply modSqr_keeps | with_reducible apply modNi_keeps | with_reducible apply runMicro_keeps | with_reducible apply endMicro_keeps | with_reducible apply Keeps.ite | (with_reducible refine Keeps.foldl ?_ (fun _ _ _ => ?_)) | (fail_if_no_progress (with_reducible refine Keeps.frame ?_ rfl rfl rfl rfl)) | intro _ | split)

theorem execScalSetlc_keeps {z : State} (q : SeqId) (w : ScalW) (s : State) (h0 : Keeps none z s) : ∃ u, execScalSetlc q w s = .next u ∧ Keeps none z u := by
  unfold execScalSetlc
  try dsimp only
  repeat' (first | (with_reducible refine ⟨_, rfl, ?_⟩) | with_reducible assumption | with_reducible apply modSqr_keeps | with_reducible apply bump_keeps | with_reducible apply runMicro_keeps | with_reducible apply endMicro_keeps | with_reducible apply Keeps.ite | (with_reducible refine Keeps.foldl ?_ (fun _ _ _ => ?_)) | (fail_if_no_progress (with_reducible refine Keeps.frame ?_ rfl rfl rfl rfl)) | intro _ | split)

theorem execScalScan_keeps {z : State} (q : SeqId) (w : ScalW) (s : State) (h0 : Keeps none z s) : ∃ u, execScalScan q w s = .next u ∧ Keeps none z u := by
  unfold execScalScan
  try dsimp only
  repeat' (first | (with_reducible refine ⟨_, rfl, ?_⟩) | with_reducible assumption | with_reducible apply startScan_keeps | with_reducible apply runMicro_keeps | with_reducible apply endMicro_keeps | with_reducible apply Keeps.ite | (with_reducible refine Keeps.foldl ?_ (fun _ _ _ => ?_)) | (fail_if_no_progress (with_reducible refine Keeps.frame ?_ rfl rfl rfl rfl)) | intro _ | split)

theorem endMicroWait_keeps {ex : Option TileId} {z : State} (s : State) (t : Tenant) (q : SeqId) (w : Wait) (h0 : Keeps ex z s) : Keeps ex z (endMicroWait s t q w) := by
  unfold endMicroWait
  try dsimp only
  repeat' (first | with_reducible assumption | with_reducible apply modSqr_keeps | with_reducible apply endMicro_keeps | with_reducible apply Keeps.ite | (with_reducible refine Keeps.foldl ?_ (fun _ _ _ => ?_)) | (fail_if_no_progress (with_reducible refine Keeps.frame ?_ rfl rfl rfl rfl)) | split)

theorem execWait_keeps {z : State} (q : SeqId) (w : WaitW) (s : State) (h0 : Keeps none z s) : ∃ u, execWait q w s = .next u ∧ Keeps none z u := by
  unfold execWait
  try dsimp only
  repeat' (first | (with_reducible refine ⟨_, rfl, ?_⟩) | with_reducible assumption | with_reducible apply modSqr_keeps | with_reducible apply runMicro_keeps | with_reducible apply endMicroWait_keeps | with_reducible apply Keeps.ite | (with_reducible refine Keeps.foldl ?_ (fun _ _ _ => ?_)) | (fail_if_no_progress (with_reducible refine Keeps.frame ?_ rfl rfl rfl rfl)) | intro _ | split)

theorem execWaitConditionMet_keeps {z : State} (q : SeqId) (s : State) (h0 : Keeps none z s) : ∃ u, execWaitConditionMet q s = .next u ∧ Keeps none z u := by
  unfold execWaitConditionMet
  try dsimp only
  repeat' (first | (with_reducible refine ⟨_, rfl, ?_⟩) | with_reducible assumption | with_reducible apply endAisWait_keeps | with_reducible apply endMicroWait_keeps | with_reducible apply Keeps.ite | (with_reducible refine Keeps.foldl ?_ (fun _ _ _ => ?_)) | (fail_if_no_progress (with_reducible refine Keeps.frame ?_ rfl rfl rfl rfl)) | split)

theorem execMicroTimeout_keeps {z : State} (q : SeqId) (s : State) (h0 : Keeps none z s) : ∃ u, execMicroTimeout q s = .next u ∧ Keeps none z u := by
  unfold execMicroTimeout
  try dsimp only
  repeat' (first | (with_reducible refine ⟨_, rfl, ?_⟩) | with_reducible assumption | with_reducible apply raiseTrap_keeps | with_reducible apply Keeps.ite | (with_reducible refine Keeps.foldl ?_ (fun _ _ _ => ?_)) | (fail_if_no_progress (with_reducible refine Keeps.frame ?_ rfl rfl rfl rfl)) | split)

theorem entryScan_keeps {ex : Option TileId} {z : State} (s : State) (t : Tenant) (q : SeqId) (w : BrW) (h0 : Keeps ex z s) : Keeps ex z (entryScan s t q w) := by
  unfold entryScan
  try dsimp only
  repeat' (first | with_reducible assumption | with_reducible apply startScan_keeps | with_reducible apply Keeps.ite | (with_reducible refine Keeps.foldl ?_ (fun _ _ _ => ?_)) | (fail_if_no_progress (with_reducible refine Keeps.frame ?_ rfl rfl rfl rfl)) | split)

theorem execMicroBr_keeps {z : State} (q : SeqId) (w : BrW) (s : State) (h0 : Keeps none z s) : ∃ u, execMicroBr q w s = .next u ∧ Keeps none z u := by
  unfold execMicroBr
  try dsimp only
  repeat' (first | (with_reducible refine ⟨_, rfl, ?_⟩) | with_reducible assumption | with_reducible apply modSqr_keeps | with_reducible apply runMicro_keeps | with_reducible apply endMicro_keeps | with_reducible apply entryScan_keeps | with_reducible apply Keeps.ite | (with_reducible refine Keeps.foldl ?_ (fun _ _ _ => ?_)) | (fail_if_no_progress (with_reducible refine Keeps.frame ?_ rfl rfl rfl rfl)) | intro _ | split)

theorem execMicroCall_keeps {z : State} (q : SeqId) (w : BrW) (s : State) (h0 : Keeps none z s) : ∃ u, execMicroCall q w s = .next u ∧ Keeps none z u := by
  unfold execMicroCall
  try dsimp only
  repeat' (first | (with_reducible refine ⟨_, rfl, ?_⟩) | with_reducible assumption | with_reducible apply modSqr_keeps | with_reducible apply runMicro_keeps | with_reducible apply endMicro_keeps | with_reducible apply Keeps.ite | (with_reducible refine Keeps.foldl ?_ (fun _ _ _ => ?_)) | (fail_if_no_progress (with_reducible refine Keeps.frame ?_ rfl rfl rfl rfl)) | intro _ | split)

theorem execMicroRet_keeps {z : State} (q : SeqId) (w : BrW) (s : State) (h0 : Keeps none z s) : ∃ u, execMicroRet q w s = .next u ∧ Keeps none z u := by
  unfold execMicroRet
  try dsimp only
  repeat' (first | (with_reducible refine ⟨_, rfl, ?_⟩) | with_reducible assumption | with_reducible apply modSqr_keeps | with_reducible apply runMicro_keeps | with_reducible apply endMicro_keeps | with_reducible apply Keeps.ite | (with_reducible refine Keeps.foldl ?_ (fun _ _ _ => ?_)) | (fail_if_no_progress (with_reducible refine Keeps.frame ?_ rfl rfl rfl rfl)) | intro _ | split)

theorem execLoop_keeps {z : State} (q : SeqId) (w : LoopW) (s : State) (h0 : Keeps none z s) : ∃ u, execLoop q w s = .next u ∧ Keeps none z u := by
  unfold execLoop
  try dsimp only
  repeat' (first | (with_reducible refine ⟨_, rfl, ?_⟩) | with_reducible assumption | with_reducible apply modSqr_keeps | with_reducible apply setPeRes_keeps | with_reducible apply setC_keeps | with_reducible apply runMicro_keeps | with_reducible apply endMicro_keeps | with_reducible apply Keeps.ite | (with_reducible refine Keeps.foldl ?_ (fun _ _ _ => ?_)) | (fail_if_no_progress (with_reducible refine Keeps.frame ?_ rfl rfl rfl rfl)) | intro _ | split)

theorem execGor_keeps {z : State} (q : SeqId) (w : GorW) (s : State) (h0 : Keeps none z s) : ∃ u, execGor q w s = .next u ∧ Keeps none z u := by
  unfold execGor
  try dsimp only
  repeat' (first | (with_reducible refine ⟨_, rfl, ?_⟩) | with_reducible assumption | with_reducible apply modSqr_keeps | with_reducible apply runMicro_keeps | with_reducible apply endMicro_keeps | with_reducible apply Keeps.ite | (with_reducible refine Keeps.foldl ?_ (fun _ _ _ => ?_)) | (fail_if_no_progress (with_reducible refine Keeps.frame ?_ rfl rfl rfl rfl)) | intro _ | split)

theorem execGorResultDelivery_keeps {z : State} (q : SeqId) (device : Bool) (failed : Option (Option TileId)) (s : State) (h0 : Keeps none z s) : ∃ u, execGorResultDelivery q device failed s = .next u ∧ Keeps none z u := by
  unfold execGorResultDelivery
  try dsimp only
  repeat' (first | (with_reducible refine ⟨_, rfl, ?_⟩) | with_reducible assumption | with_reducible apply modSqr_keeps | with_reducible apply takeMark_keeps | with_reducible apply recompute_keeps | with_reducible apply checkMark_keeps | with_reducible apply linkSample_keeps | with_reducible apply Keeps.ite | (with_reducible refine Keeps.foldl ?_ (fun _ _ _ => ?_)) | (fail_if_no_progress (with_reducible refine Keeps.frame ?_ rfl rfl rfl rfl)) | split)

theorem execBcast_keeps {z : State} (q : SeqId) (w : BcastW) (s : State) (h0 : Keeps none z s) : ∃ u, execBcast q w s = .next u ∧ Keeps none z u := by
  unfold execBcast
  try dsimp only
  repeat' (first | (with_reducible refine ⟨_, rfl, ?_⟩) | with_reducible assumption | with_reducible apply modSqr_keeps | with_reducible apply runMicro_keeps | with_reducible apply endMicro_keeps | with_reducible apply Keeps.ite | (with_reducible refine Keeps.foldl ?_ (fun _ _ _ => ?_)) | (fail_if_no_progress (with_reducible refine Keeps.frame ?_ rfl rfl rfl rfl)) | intro _ | split)

theorem execTrapchkRaise_keeps {z : State} (q : SeqId) (w : TrapW) (s : State) (h0 : Keeps none z s) : ∃ u, execTrapchkRaise q w s = .next u ∧ Keeps none z u := by
  unfold execTrapchkRaise
  try dsimp only
  repeat' (first | (with_reducible refine ⟨_, rfl, ?_⟩) | with_reducible assumption | with_reducible apply addTime_keeps | with_reducible apply raiseTrap_keeps | with_reducible apply runMicro_keeps | with_reducible apply endMicro_keeps | with_reducible apply Keeps.ite | (with_reducible refine Keeps.foldl ?_ (fun _ _ _ => ?_)) | (fail_if_no_progress (with_reducible refine Keeps.frame ?_ rfl rfl rfl rfl)) | intro _ | split)

theorem execTrapchkBoundary_keeps {z : State} (q : SeqId) (w : TrapW) (s : State) (h0 : Keeps none z s) : ∃ u, execTrapchkBoundary q w s = .next u ∧ Keeps none z u := by
  unfold execTrapchkBoundary
  try dsimp only
  repeat' (first | (with_reducible refine ⟨_, rfl, ?_⟩) | with_reducible assumption | with_reducible apply modSqr_keeps | with_reducible apply boundary_keeps | with_reducible apply runMicro_keeps | with_reducible apply endMicro_keeps | with_reducible apply Keeps.ite | (with_reducible refine Keeps.foldl ?_ (fun _ _ _ => ?_)) | (fail_if_no_progress (with_reducible refine Keeps.frame ?_ rfl rfl rfl rfl)) | intro _ | split)

theorem reschkFlag_keeps {ex : Option TileId} {z : State} (s0 : State) (w : ReschkW) (u : State) (k : Nat) (h0 : Keeps ex z s0) (h1 : Keeps ex z u) : Keeps ex z (reschkFlag s0 w u k) := by
  unfold reschkFlag
  try dsimp only
  repeat' (first | with_reducible assumption | with_reducible apply setSticky_keeps | with_reducible apply Keeps.ite | (with_reducible refine Keeps.foldl ?_ (fun _ _ _ => ?_)) | (fail_if_no_progress (with_reducible refine Keeps.frame ?_ rfl rfl rfl rfl)) | split)

theorem reschkSlice_keeps {ex : Option TileId} {z : State} (s0 : State) (w : ReschkW) (prod : Bool) (g : Nat) (u : State) (e : Elem) (h0 : Keeps ex z s0) (h1 : Keeps ex z u) : Keeps ex z (reschkSlice s0 w prod g u e) := by
  unfold reschkSlice
  try dsimp only
  repeat' (first | with_reducible assumption | with_reducible apply setPe_keeps | with_reducible apply reschkFlag_keeps | with_reducible apply Keeps.ite | (with_reducible refine Keeps.foldl ?_ (fun _ _ _ => ?_)) | (fail_if_no_progress (with_reducible refine Keeps.frame ?_ rfl rfl rfl rfl)) | split)

theorem reschk_keeps {ex : Option TileId} {z : State} (s : State) (q : SeqId) (w : ReschkW) (prod : Bool) (h0 : Keeps ex z s) : Keeps ex z (reschk s q w prod) := by
  unfold reschk
  try dsimp only
  repeat' (first | with_reducible assumption | with_reducible apply runMicro_keeps | with_reducible apply endMicro_keeps | with_reducible apply reschkSlice_keeps | with_reducible apply Keeps.ite | (with_reducible refine Keeps.foldl ?_ (fun _ _ _ => ?_)) | (fail_if_no_progress (with_reducible refine Keeps.frame ?_ rfl rfl rfl rfl)) | intro _ | split)

theorem execReschkSum_keeps {z : State} (q : SeqId) (w : ReschkW) (s : State) (h0 : Keeps none z s) : ∃ u, execReschkSum q w s = .next u ∧ Keeps none z u := by
  unfold execReschkSum
  try dsimp only
  repeat' (first | (with_reducible refine ⟨_, rfl, ?_⟩) | with_reducible assumption | with_reducible apply reschk_keeps | with_reducible apply Keeps.ite | (with_reducible refine Keeps.foldl ?_ (fun _ _ _ => ?_)) | (fail_if_no_progress (with_reducible refine Keeps.frame ?_ rfl rfl rfl rfl)) | split)

theorem execReschkProd_keeps {z : State} (q : SeqId) (w : ReschkW) (s : State) (h0 : Keeps none z s) : ∃ u, execReschkProd q w s = .next u ∧ Keeps none z u := by
  unfold execReschkProd
  try dsimp only
  repeat' (first | (with_reducible refine ⟨_, rfl, ?_⟩) | with_reducible assumption | with_reducible apply reschk_keeps | with_reducible apply Keeps.ite | (with_reducible refine Keeps.foldl ?_ (fun _ _ _ => ?_)) | (fail_if_no_progress (with_reducible refine Keeps.frame ?_ rfl rfl rfl rfl)) | split)

theorem execReschkClear_keeps {z : State} (q : SeqId) (w : ReschkW) (s : State) (h0 : Keeps none z s) : ∃ u, execReschkClear q w s = .next u ∧ Keeps none z u := by
  unfold execReschkClear
  try dsimp only
  repeat' (first | (with_reducible refine ⟨_, rfl, ?_⟩) | with_reducible assumption | with_reducible apply setPe_keeps | with_reducible apply setPeRes_keeps | with_reducible apply runMicro_keeps | with_reducible apply endMicro_keeps | with_reducible apply reschkFlag_keeps | with_reducible apply Keeps.ite | (with_reducible refine Keeps.foldl ?_ (fun _ _ _ => ?_)) | (fail_if_no_progress (with_reducible refine Keeps.frame ?_ rfl rfl rfl rfl)) | intro _ | split)

theorem execFlagOrResult_keeps {z : State} (t : Tenant) (s : State) (h0 : Keeps none z s) : ∃ u, execFlagOrResult t s = .next u ∧ Keeps none z u := by
  unfold execFlagOrResult
  try dsimp only
  repeat' (first | (with_reducible refine ⟨_, rfl, ?_⟩) | with_reducible assumption | with_reducible apply modSqr_keeps | with_reducible apply takeFlagOr_keeps | with_reducible apply boundary_keeps | with_reducible apply Keeps.ite | (with_reducible refine Keeps.foldl ?_ (fun _ _ _ => ?_)) | (fail_if_no_progress (with_reducible refine Keeps.frame ?_ rfl rfl rfl rfl)) | split)

end Sys2Proof.Machine
end

