-- ==== Sys2Proof/Laws/KeepsFaults.lean ====
section
/-! SUPPORT. The operations of Machine/Faults.lean keep the queue, the counters and the invariant. -/

set_option linter.unusedTactic false
set_option linter.unusedVariables false
set_option linter.unreachableTactic false

namespace Sys2Proof.Machine

theorem execPolderMonitorTrip_keeps {z : State} (p : TileId) (s : State) (h0 : Keeps none z s) : ∃ u, execPolderMonitorTrip p s = .next u ∧ Keeps none z u := by
  unfold execPolderMonitorTrip
  try dsimp only
  repeat' (first | (with_reducible refine ⟨_, rfl, ?_⟩) | with_reducible assumption | with_reducible apply takeMark_keeps | with_reducible apply tileFault_keeps | with_reducible apply Keeps.ite | (with_reducible refine Keeps.foldl ?_ (fun _ _ _ => ?_)) | (fail_if_no_progress (with_reducible refine Keeps.frame ?_ rfl rfl rfl rfl)) | split)

theorem execTileRetestMarchComplete_keeps {z : State} (p : TileId) (passed : Bool) (s : State) (h0 : Keeps none z s) : ∃ u, execTileRetestMarchComplete p passed s = .next u ∧ Keeps none z u := by
  unfold execTileRetestMarchComplete
  try dsimp only
  repeat' (first | (with_reducible refine ⟨_, rfl, ?_⟩) | with_reducible assumption | with_reducible apply tileMarched_keeps | with_reducible apply Keeps.ite | (with_reducible refine Keeps.foldl ?_ (fun _ _ _ => ?_)) | (fail_if_no_progress (with_reducible refine Keeps.frame ?_ rfl rfl rfl rfl)) | split)

theorem execSparePeriodicMarch_keeps {z : State} (p : TileId) (passed : Bool) (s : State) (h0 : Keeps none z s) : ∃ u, execSparePeriodicMarch p passed s = .next u ∧ Keeps none z u := by
  unfold execSparePeriodicMarch
  try dsimp only
  repeat' (first | (with_reducible refine ⟨_, rfl, ?_⟩) | with_reducible assumption | with_reducible apply modTile_keeps | with_reducible apply setTileSvc_keeps | with_reducible apply Keeps.ite | (with_reducible refine Keeps.foldl ?_ (fun _ _ _ => ?_)) | (fail_if_no_progress (with_reducible refine Keeps.frame ?_ rfl rfl rfl rfl)) | (exact fun h => h) | (exact fun _ h => h) | exact Or.inl (Or.inr rfl) | exact Or.inl (Or.inl rfl) | split)

theorem execMachineCheck_keeps {z : State} (src : McSource) (s : State) (h0 : Keeps none z s) : ∃ u, execMachineCheck src s = .next u ∧ Keeps none z u := by
  unfold execMachineCheck
  try dsimp only
  repeat' (first | (with_reducible refine ⟨_, rfl, ?_⟩) | with_reducible assumption | with_reducible apply takeMark_keeps | with_reducible apply machineCheck_keeps | with_reducible apply Keeps.ite | (with_reducible refine Keeps.foldl ?_ (fun _ _ _ => ?_)) | (fail_if_no_progress (with_reducible refine Keeps.frame ?_ rfl rfl rfl rfl)) | split)

theorem execTrapContextScan_keeps {z : State} (k : Fin 3) (s : State) (h0 : Keeps none z s) : ∃ u, execTrapContextScan k s = .next u ∧ Keeps none z u := by
  unfold execTrapContextScan
  try dsimp only
  repeat' (first | (with_reducible refine ⟨_, rfl, ?_⟩) | with_reducible assumption | with_reducible apply setCtx_keeps | with_reducible apply logEvent_keeps | with_reducible apply Keeps.ite | (with_reducible refine Keeps.foldl ?_ (fun _ _ _ => ?_)) | (fail_if_no_progress (with_reducible refine Keeps.frame ?_ rfl rfl rfl rfl)) | split)

theorem execWcsScan_keeps {z : State} (q : SeqId) (s : State) (h0 : Keeps none z s) : ∃ u, execWcsScan q s = .next u ∧ Keeps none z u := by
  unfold execWcsScan
  try dsimp only
  repeat' (first | (with_reducible refine ⟨_, rfl, ?_⟩) | with_reducible assumption | with_reducible apply mendWord_keeps | with_reducible apply Keeps.ite | (with_reducible refine Keeps.foldl ?_ (fun _ _ _ => ?_)) | (fail_if_no_progress (with_reducible refine Keeps.frame ?_ rfl rfl rfl rfl)) | split)

theorem onAwake_keeps {ex : Option TileId} {z : State} (s : State) (t : Tenant) (h0 : Keeps ex z s) : Keeps ex z (onAwake s t) := by
  unfold onAwake
  try dsimp only
  repeat' (first | with_reducible assumption | with_reducible apply tryReexec_keeps | with_reducible apply landOldest_keeps | with_reducible apply Keeps.ite | (with_reducible refine Keeps.foldl ?_ (fun _ _ _ => ?_)) | (fail_if_no_progress (with_reducible refine Keeps.frame ?_ rfl rfl rfl rfl)) | split)

theorem execPolderRampDwellEnd_keeps {z : State} (p : TileId) (s : State) (h0 : Keeps none z s) : ∃ u, execPolderRampDwellEnd p s = .next u ∧ Keeps none z u := by
  unfold execPolderRampDwellEnd
  try dsimp only
  repeat' (first | (with_reducible refine ⟨_, rfl, ?_⟩) | with_reducible assumption | with_reducible apply modTile_keeps | with_reducible apply awaken_keeps | with_reducible apply sleepPolder_keeps | with_reducible apply rampDownStep_keeps | with_reducible apply onAwake_keeps | with_reducible apply Keeps.ite | (with_reducible refine Keeps.foldl ?_ (fun _ _ _ => ?_)) | (fail_if_no_progress (with_reducible refine Keeps.frame ?_ rfl rfl rfl rfl)) | (exact fun h => h) | (exact fun _ h => h) | split)

theorem execIdleHoldExpiry_keeps {z : State} (t : Tenant) (s : State) (h0 : Keeps none z s) : ∃ u, execIdleHoldExpiry t s = .next u ∧ Keeps none z u := by
  unfold execIdleHoldExpiry
  try dsimp only
  repeat' (first | (with_reducible refine ⟨_, rfl, ?_⟩) | with_reducible assumption | with_reducible apply modTen_keeps | with_reducible apply sleepPolder_keeps | with_reducible apply Keeps.ite | (with_reducible refine Keeps.foldl ?_ (fun _ _ _ => ?_)) | (fail_if_no_progress (with_reducible refine Keeps.frame ?_ rfl rfl rfl rfl)) | split)

end Sys2Proof.Machine
end

