-- ==== Sys2Proof/Laws/KeepsIdentity.lean ====
section
/-! SUPPORT. The operations of Machine/Identity.lean keep the queue, the counters and the invariant. -/

set_option linter.unusedTactic false
set_option linter.unusedVariables false
set_option linter.unreachableTactic false

namespace Sys2Proof.Machine

theorem setAtt_keeps {ex : Option TileId} {z : State} (s : State) (t : Tenant) (v : Att) (h0 : Keeps ex z s) : Keeps ex z (setAtt s t v) := by
  unfold setAtt
  try dsimp only
  repeat' (first | with_reducible assumption | with_reducible apply Keeps.ite | (with_reducible refine Keeps.foldl ?_ (fun _ _ _ => ?_)) | (fail_if_no_progress (with_reducible refine Keeps.frame ?_ rfl rfl rfl rfl)) | split)

theorem applyNonce_keeps {ex : Option TileId} {z : State} (s : State) (t : Tenant) (d : Bytes) (h0 : Keeps ex z s) : Keeps ex z (applyNonce s t d).2 := by
  unfold applyNonce
  try dsimp only
  repeat' (first | with_reducible assumption | with_reducible apply setAtt_keeps | with_reducible apply Keeps.ite | (with_reducible refine Keeps.foldl ?_ (fun _ _ _ => ?_)) | (fail_if_no_progress (with_reducible refine Keeps.frame ?_ rfl rfl rfl rfl)) | split)

theorem execAttestationSignStart_keeps {z : State} (s : State) (h0 : Keeps none z s) : ∃ u, execAttestationSignStart s = .next u ∧ Keeps none z u := by
  unfold execAttestationSignStart
  try dsimp only
  repeat' (first | (with_reducible refine ⟨_, rfl, ?_⟩) | with_reducible assumption | with_reducible apply setAtt_keeps | with_reducible apply Keeps.ite | (with_reducible refine Keeps.foldl ?_ (fun _ _ _ => ?_)) | (fail_if_no_progress (with_reducible refine Keeps.frame ?_ rfl rfl rfl rfl)) | split)

theorem execAttestationSignComplete_keeps {z : State} (found : Bool) (s : State) (h0 : Keeps none z s) : ∃ u, execAttestationSignComplete found s = .next u ∧ Keeps none z u := by
  unfold execAttestationSignComplete
  try dsimp only
  repeat' (first | (with_reducible refine ⟨_, rfl, ?_⟩) | with_reducible assumption | with_reducible apply setAtt_keeps | with_reducible apply response_keeps | with_reducible apply Keeps.ite | (with_reducible refine Keeps.foldl ?_ (fun _ _ _ => ?_)) | (fail_if_no_progress (with_reducible refine Keeps.frame ?_ rfl rfl rfl rfl)) | split)

theorem storeKey_keeps {ex : Option TileId} {z : State} (s : State) (slot : Nat) (key : Bytes) (h0 : Keeps ex z s) : Keeps ex z (storeKey s slot key) := by
  unfold storeKey
  try dsimp only
  repeat' (first | with_reducible assumption | with_reducible apply Keeps.ite | (with_reducible refine Keeps.foldl ?_ (fun _ _ _ => ?_)) | (fail_if_no_progress (with_reducible refine Keeps.frame ?_ rfl rfl rfl rfl)) | split)

theorem applyKeyRecord_keeps {ex : Option TileId} {z : State} (s : State) (k : SesId) (d : Bytes) (h0 : Keeps ex z s) : Keeps ex z (applyKeyRecord s k d).2 := by
  unfold applyKeyRecord
  try dsimp only
  repeat' (first | with_reducible assumption | with_reducible apply takeEffect_keeps | with_reducible apply refuse_keeps | with_reducible apply measureKeys_keeps | with_reducible apply storeKey_keeps | with_reducible apply Keeps.ite | (with_reducible refine Keeps.foldl ?_ (fun _ _ _ => ?_)) | (fail_if_no_progress (with_reducible refine Keeps.frame ?_ rfl rfl rfl rfl)) | split)

theorem setFw_keeps {ex : Option TileId} {z : State} (s : State) (f : Fw → Fw) (h0 : Keeps ex z s) : Keeps ex z (setFw s f) := by
  unfold setFw
  try dsimp only
  repeat' (first | with_reducible assumption | with_reducible apply Keeps.ite | (with_reducible refine Keeps.foldl ?_ (fun _ _ _ => ?_)) | (fail_if_no_progress (with_reducible refine Keeps.frame ?_ rfl rfl rfl rfl)) | split)

theorem emptySlot_keeps {ex : Option TileId} {z : State} (s : State) (h0 : Keeps ex z s) : Keeps ex z (emptySlot s) := by
  unfold emptySlot
  try dsimp only
  repeat' (first | with_reducible assumption | with_reducible apply Keeps.ite | (with_reducible refine Keeps.foldl ?_ (fun _ _ _ => ?_)) | (fail_if_no_progress (with_reducible refine Keeps.frame ?_ rfl rfl rfl rfl)) | split)

theorem applyFirmware_keeps {ex : Option TileId} {z : State} (s : State) (k : SesId) (d : Bytes) (h0 : Keeps ex z s) : Keeps ex z (applyFirmware s k d).2 := by
  unfold applyFirmware
  try dsimp only
  repeat' (first | with_reducible assumption | with_reducible apply setPending_keeps | with_reducible apply refuse_keeps | with_reducible apply setFw_keeps | with_reducible apply emptySlot_keeps | with_reducible apply safeShell_keeps | with_reducible apply Keeps.ite | (with_reducible refine Keeps.foldl ?_ (fun _ _ _ => ?_)) | (fail_if_no_progress (with_reducible refine Keeps.frame ?_ rfl rfl rfl rfl)) | split)

theorem fwStored_keeps {ex : Option TileId} {z : State} (s : State) (d : Bytes) (h0 : Keeps ex z s) : Keeps ex z (fwStored s d) := by
  unfold fwStored
  try dsimp only
  repeat' (first | with_reducible assumption | with_reducible apply takeEffect_keeps | with_reducible apply measure_keeps | with_reducible apply setFw_keeps | with_reducible apply Keeps.ite | (with_reducible refine Keeps.foldl ?_ (fun _ _ _ => ?_)) | (fail_if_no_progress (with_reducible refine Keeps.frame ?_ rfl rfl rfl rfl)) | split)

theorem execFirmwareRoleSwap_keeps {z : State} (standbyLockstep flashOk : Bool) (s : State) (h0 : Keeps none z s) : ∃ u, execFirmwareRoleSwap standbyLockstep flashOk s = .next u ∧ Keeps none z u := by
  unfold execFirmwareRoleSwap
  try dsimp only
  repeat' (first | (with_reducible refine ⟨_, rfl, ?_⟩) | with_reducible assumption | with_reducible apply setPending_keeps | with_reducible apply measure_keeps | with_reducible apply setFw_keeps | with_reducible apply emptySlot_keeps | with_reducible apply fwStored_keeps | with_reducible apply Keeps.ite | (with_reducible refine Keeps.foldl ?_ (fun _ _ _ => ?_)) | (fail_if_no_progress (with_reducible refine Keeps.frame ?_ rfl rfl rfl rfl)) | split)

theorem pairFault_keeps {ex : Option TileId} {z : State} (s : State) (pair : Fin 2) (h0 : Keeps ex z s) : Keeps ex z (pairFault s pair) := by
  unfold pairFault
  try dsimp only
  repeat' (first | with_reducible assumption | with_reducible apply partFault_keeps | with_reducible apply closeNi_keeps | with_reducible apply sendClear_keeps | with_reducible apply setPending_keeps | with_reducible apply setFw_keeps | with_reducible apply Keeps.ite | (with_reducible refine Keeps.foldl ?_ (fun _ _ _ => ?_)) | (fail_if_no_progress (with_reducible refine Keeps.frame ?_ rfl rfl rfl rfl)) | split)

theorem execHousekeepingPairFault_keeps {z : State} (pair : Fin 2) (s : State) (h0 : Keeps none z s) : ∃ u, execHousekeepingPairFault pair s = .next u ∧ Keeps none z u := by
  unfold execHousekeepingPairFault
  try dsimp only
  repeat' (first | (with_reducible refine ⟨_, rfl, ?_⟩) | with_reducible assumption | with_reducible apply takeMark_keeps | with_reducible apply pairFault_keeps | with_reducible apply Keeps.ite | (with_reducible refine Keeps.foldl ?_ (fun _ _ _ => ?_)) | (fail_if_no_progress (with_reducible refine Keeps.frame ?_ rfl rfl rfl rfl)) | split)

theorem rejectPatch_keeps {ex : Option TileId} {z : State} (s : State) (k : SesId) (reason : Byte) (abort : Word) (h0 : Keeps ex z s) : Keeps ex z (rejectPatch s k reason abort).2 := by
  unfold rejectPatch
  try dsimp only
  repeat' (first | with_reducible assumption | with_reducible apply logEvent_keeps | with_reducible apply refuse_keeps | with_reducible apply Keeps.ite | (with_reducible refine Keeps.foldl ?_ (fun _ _ _ => ?_)) | (fail_if_no_progress (with_reducible refine Keeps.frame ?_ rfl rfl rfl rfl)) | split)

theorem loadPatched_keeps {ex : Option TileId} {z : State} (s : State) (q : SeqId) (h0 : Keeps ex z s) : Keeps ex z (loadPatched s q) := by
  unfold loadPatched
  try dsimp only
  repeat' (first | with_reducible assumption | with_reducible apply modSqr_keeps | with_reducible apply Keeps.ite | (with_reducible refine Keeps.foldl ?_ (fun _ _ _ => ?_)) | (fail_if_no_progress (with_reducible refine Keeps.frame ?_ rfl rfl rfl rfl)) | split)

theorem finishPatch_keeps {ex : Option TileId} {z : State} (s : State) (h0 : Keeps ex z s) : Keeps ex z (finishPatch s) := by
  unfold finishPatch
  try dsimp only
  repeat' (first | with_reducible assumption | with_reducible apply modSqr_keeps | with_reducible apply emergency_keeps | with_reducible apply takeEffect_keeps | with_reducible apply measure_keeps | with_reducible apply Keeps.ite | (with_reducible refine Keeps.foldl ?_ (fun _ _ _ => ?_)) | (fail_if_no_progress (with_reducible refine Keeps.frame ?_ rfl rfl rfl rfl)) | split)

theorem applyPatch_keeps {ex : Option TileId} {z : State} (s : State) (k : SesId) (d : Bytes) (h0 : Keeps ex z s) : Keeps ex z (applyPatch s k d).2 := by
  unfold applyPatch
  try dsimp only
  repeat' (first | with_reducible assumption | with_reducible apply logEvent_keeps | with_reducible apply patchStop_keeps | with_reducible apply setPending_keeps | with_reducible apply rejectPatch_keeps | with_reducible apply loadPatched_keeps | with_reducible apply finishPatch_keeps | with_reducible apply Keeps.ite | (with_reducible refine Keeps.foldl ?_ (fun _ _ _ => ?_)) | (fail_if_no_progress (with_reducible refine Keeps.frame ?_ rfl rfl rfl rfl)) | split)

theorem moveSeq_keeps {ex : Option TileId} {z : State} (s : State) (src dst : SeqId) (left : SeqService) (h0 : Keeps ex z s) : Keeps ex z (moveSeq s src dst left) := by
  unfold moveSeq
  try dsimp only
  repeat' (first | with_reducible assumption | with_reducible apply modSqr_keeps | with_reducible apply modRun_keeps | with_reducible apply setSeqSvc_keeps | with_reducible apply Keeps.ite | (with_reducible refine Keeps.foldl ?_ (fun _ _ _ => ?_)) | (fail_if_no_progress (with_reducible refine Keeps.frame ?_ rfl rfl rfl rfl)) | split)

theorem moveRequests_keeps {ex : Option TileId} {z : State} (s : State) (src dst : SeqId) (h0 : Keeps ex z s) : Keeps ex z (moveRequests s src dst) := by
  unfold moveRequests
  try dsimp only
  repeat' (first | with_reducible assumption | with_reducible apply modNi_keeps | with_reducible apply Keeps.ite | (with_reducible refine Keeps.foldl ?_ (fun _ _ _ => ?_)) | (fail_if_no_progress (with_reducible refine Keeps.frame ?_ rfl rfl rfl rfl)) | split)

theorem execMigration_keeps {z : State} (src dst : SeqId) (s : State) (h0 : Keeps none z s) : ∃ u, execMigration src dst s = .next u ∧ Keeps none z u := by
  unfold execMigration
  try dsimp only
  repeat' (first | (with_reducible refine ⟨_, rfl, ?_⟩) | with_reducible assumption | with_reducible apply bump_keeps | with_reducible apply patchStop_keeps | with_reducible apply loadPatched_keeps | with_reducible apply finishPatch_keeps | with_reducible apply moveSeq_keeps | with_reducible apply moveRequests_keeps | with_reducible apply Keeps.ite | (with_reducible refine Keeps.foldl ?_ (fun _ _ _ => ?_)) | (fail_if_no_progress (with_reducible refine Keeps.frame ?_ rfl rfl rfl rfl)) | split)

end Sys2Proof.Machine
end

