-- ==== Sys2Proof/Laws/KeepsOwnership.lean ====
section
/-! SUPPORT. The operations of Machine/Ownership.lean keep the queue, the counters and the invariant. -/

set_option linter.unusedTactic false
set_option linter.unusedVariables false
set_option linter.unreachableTactic false

namespace Sys2Proof.Machine

theorem rejectOwn_keeps {ex : Option TileId} {z : State} (s : State) (k : SesId) (t : Tenant) (reason : Byte) (abort : Word) (h0 : Keeps ex z s) : Keeps ex z (rejectOwn s k t reason abort).2 := by
  unfold rejectOwn
  try dsimp only
  repeat' (first | with_reducible assumption | with_reducible apply modTen_keeps | with_reducible apply logEvent_keeps | with_reducible apply refuse_keeps | with_reducible apply Keeps.ite | (with_reducible refine Keeps.foldl ?_ (fun _ _ _ => ?_)) | (fail_if_no_progress (with_reducible refine Keeps.frame ?_ rfl rfl rfl rfl)) | split)

theorem applyOwnership_keeps {ex : Option TileId} {z : State} (s : State) (k : SesId) (t : Tenant) (d : Bytes) (h0 : Keeps ex z s) : Keeps ex z (applyOwnership s k t d).2 := by
  unfold applyOwnership
  try dsimp only
  repeat' (first | with_reducible assumption | with_reducible apply modTen_keeps | with_reducible apply setPending_keeps | with_reducible apply rejectOwn_keeps | with_reducible apply Keeps.ite | (with_reducible refine Keeps.foldl ?_ (fun _ _ _ => ?_)) | (fail_if_no_progress (with_reducible refine Keeps.frame ?_ rfl rfl rfl rfl)) | split)

theorem abortLost_keeps {ex : Option TileId} {z : State} (s : State) (t : Tenant) (h0 : Keeps ex z s) : Keeps ex z (abortLost s t) := by
  unfold abortLost
  try dsimp only
  repeat' (first | with_reducible assumption | with_reducible apply abortOrders_keeps | with_reducible apply Keeps.ite | (with_reducible refine Keeps.foldl ?_ (fun _ _ _ => ?_)) | (fail_if_no_progress (with_reducible refine Keeps.frame ?_ rfl rfl rfl rfl)) | split)

theorem abortReaders_keeps {ex : Option TileId} {z : State} (s : State) (t : Tenant) (h0 : Keeps ex z s) : Keeps ex z (abortReaders s t) := by
  unfold abortReaders
  try dsimp only
  repeat' (first | with_reducible assumption | with_reducible apply abortOrders_keeps | with_reducible apply Keeps.ite | (with_reducible refine Keeps.foldl ?_ (fun _ _ _ => ?_)) | (fail_if_no_progress (with_reducible refine Keeps.frame ?_ rfl rfl rfl rfl)) | split)

theorem bindSeq_keeps {ex : Option TileId} {z : State} (s : State) (t : Tenant) (old : Option OwnRec) (r : OwnRec) (h0 : Keeps ex z s) : Keeps ex z (bindSeq s t old r) := by
  unfold bindSeq
  try dsimp only
  repeat' (first | with_reducible assumption | with_reducible apply modSqr_keeps | with_reducible apply modTen_keeps | with_reducible apply setSeqSvc_keeps | with_reducible apply Keeps.ite | (with_reducible refine Keeps.foldl ?_ (fun _ _ _ => ?_)) | (fail_if_no_progress (with_reducible refine Keeps.frame ?_ rfl rfl rfl rfl)) | split)

theorem dropCapture_keeps {ex : Option TileId} {z : State} (s : State) (k : Nat) (h0 : Keeps ex z s) : Keeps ex z (dropCapture s k) := by
  unfold dropCapture
  try dsimp only
  repeat' (first | with_reducible assumption | with_reducible apply Keeps.ite | (with_reducible refine Keeps.foldl ?_ (fun _ _ _ => ?_)) | (fail_if_no_progress (with_reducible refine Keeps.frame ?_ rfl rfl rfl rfl)) | split)

theorem ownFabric_keeps {ex : Option TileId} {z : State} (s0 s : State) (t : Tenant) (old : Option OwnRec) (r : OwnRec) (h1 : Keeps ex z s) :
    Keeps ex z (ownFabric s0 s t old r) := by
  unfold ownFabric
  dsimp only
  have h2 := fun l => Keeps.foldl (f := fun u (k : Fin 8) => dropCapture u k.val) (l := l)
    (startOwed_keeps { s with fab := { s.fab with owed := s.fab.owed ++ l.filter fun k => !s.fab.owed.contains k } }
      (Keeps.frame h1 rfl rfl rfl rfl)) fun _ _ h => dropCapture_keeps _ _ h
  refine Keeps.foldl (fallLines_keeps _ (Keeps.frame (Keeps.foldl_mem (h2 _)
    fun u k hk h => setCounter_keeps _ _ _ h (Or.inl ?_)) rfl rfl rfl rfl)) fun u n h => Keeps.ite (logEvent_keeps _ _ _ _ _ _ _ h) h
  simp only [List.mem_filter, List.mem_range] at hk
  unfold ctrPart
  omega

theorem ownChannel_keeps {ex : Option TileId} {z : State} (s : State) (t : Tenant) (before : Option HostCh) (h0 : Keeps ex z s) : Keeps ex z (ownChannel s t before) := by
  unfold ownChannel
  try dsimp only
  repeat' (first | with_reducible assumption | with_reducible apply closeSes_keeps | with_reducible apply defaultComm_keeps | with_reducible apply syncSes_keeps | with_reducible apply bootNode_keeps | with_reducible apply bindChannel_keeps | with_reducible apply Keeps.ite | (with_reducible refine Keeps.foldl ?_ (fun _ _ _ => ?_)) | (fail_if_no_progress (with_reducible refine Keeps.frame ?_ rfl rfl rfl rfl)) | split)

theorem applyOwn_keeps {ex : Option TileId} {z : State} (s : State) (t : Tenant) (r : OwnRec) (h0 : Keeps ex z s) : Keeps ex z (applyOwn s t r) := by
  unfold applyOwn
  try dsimp only
  repeat' (first | with_reducible assumption | with_reducible apply modTen_keeps | with_reducible apply fabEdge_keeps | with_reducible apply powerDown_keeps | with_reducible apply kick_keeps | with_reducible apply takeEffect_keeps | with_reducible apply measure_keeps | with_reducible apply abortLost_keeps | with_reducible apply abortReaders_keeps | with_reducible apply bindSeq_keeps | with_reducible apply ownFabric_keeps | with_reducible apply ownChannel_keeps | with_reducible apply Keeps.ite | (with_reducible refine Keeps.foldl ?_ (fun _ _ _ => ?_)) | (fail_if_no_progress (with_reducible refine Keeps.frame ?_ rfl rfl rfl rfl)) | split)

theorem execOwnershipApply_keeps {z : State} (t : Tenant) (s : State) (h0 : Keeps none z s) : ∃ u, execOwnershipApply t s = .next u ∧ Keeps none z u := by
  unfold execOwnershipApply
  try dsimp only
  repeat' (first | (with_reducible refine ⟨_, rfl, ?_⟩) | with_reducible assumption | with_reducible apply applyOwn_keeps | with_reducible apply Keeps.ite | (with_reducible refine Keeps.foldl ?_ (fun _ _ _ => ?_)) | (fail_if_no_progress (with_reducible refine Keeps.frame ?_ rfl rfl rfl rfl)) | split)

end Sys2Proof.Machine
end

