-- ==== Sys2Proof/Laws/KeepsMarch.lean ====
section
/-! SUPPORT. The operations of Machine/March.lean keep the queue, the counters and the invariant. -/

set_option linter.unusedTactic false
set_option linter.unusedVariables false
set_option linter.unreachableTactic false

namespace Sys2Proof.Machine

theorem bankOrders_keeps {ex : Option TileId} {z : State} (b : Nat) (s : State) (t : Tenant) (h0 : Keeps ex z s) : Keeps ex z (bankOrders b s t) := by
  unfold bankOrders
  try dsimp only
  repeat' (first | with_reducible assumption | with_reducible apply modTen_keeps | with_reducible apply recompute_keeps | with_reducible apply abortOrders_keeps | with_reducible apply Keeps.ite | (with_reducible refine Keeps.foldl ?_ (fun _ _ _ => ?_)) | (fail_if_no_progress (with_reducible refine Keeps.frame ?_ rfl rfl rfl rfl)) | split)

theorem memFault_keeps {ex : Option TileId} {z : State} (s : State) (b : Nat) (h0 : Keeps ex z s) : Keeps ex z (memFault s b) := by
  unfold memFault
  try dsimp only
  repeat' (first | with_reducible assumption | with_reducible apply modMemSt_keeps | with_reducible apply logEvent_keeps | with_reducible apply partFault_keeps | with_reducible apply closeNi_keeps | with_reducible apply sendClear_keeps | with_reducible apply placeFrame_keeps | with_reducible apply bankOrders_keeps | with_reducible apply Keeps.ite | (with_reducible refine Keeps.foldl ?_ (fun _ _ _ => ?_)) | (fail_if_no_progress (with_reducible refine Keeps.frame ?_ rfl rfl rfl rfl)) | split)

theorem transient_keeps {ex : Option TileId} {z : State} (s : State) (xm : Bool) (a : Nat) (h0 : Keeps ex z s) : Keeps ex z (transient s xm a) := by
  unfold transient
  try dsimp only
  repeat' (first | with_reducible assumption | with_reducible apply modMemSt_keeps | with_reducible apply logEvent_keeps | with_reducible apply Keeps.ite | (with_reducible refine Keeps.foldl ?_ (fun _ _ _ => ?_)) | (fail_if_no_progress (with_reducible refine Keeps.frame ?_ rfl rfl rfl rfl)) | split)

theorem settleMem_keeps {ex : Option TileId} {z : State} (s : State) (h0 : Keeps ex z s) : Keeps ex z (settleMem s) := by
  unfold settleMem
  try dsimp only
  repeat' (first | with_reducible assumption | with_reducible apply modMemSt_keeps | with_reducible apply memFault_keeps | with_reducible apply Keeps.ite | (with_reducible refine Keeps.foldl ?_ (fun _ _ _ => ?_)) | (fail_if_no_progress (with_reducible refine Keeps.frame ?_ rfl rfl rfl rfl)) | split)

theorem compareWord_keeps {ex : Option TileId} {z : State} (s : State) (a : Nat) (h0 : Keeps ex z s) : Keeps ex z (compareWord s a) := by
  unfold compareWord
  try dsimp only
  repeat' (first | with_reducible assumption | with_reducible apply readCopied_keeps | with_reducible apply memFault_keeps | with_reducible apply Keeps.ite | (with_reducible refine Keeps.foldl ?_ (fun _ _ _ => ?_)) | (fail_if_no_progress (with_reducible refine Keeps.frame ?_ rfl rfl rfl rfl)) | split)

theorem xmWordFails_keeps {ex : Option TileId} {z : State} (s : State) (a : Nat) (h0 : Keeps ex z s) : Keeps ex z (xmWordFails s a) := by
  unfold xmWordFails
  try dsimp only
  repeat' (first | with_reducible assumption | with_reducible apply readFailed_keeps | with_reducible apply repaired_keeps | with_reducible apply xmWrite_keeps | with_reducible apply recompute_keeps | with_reducible apply checkMark_keeps | with_reducible apply Keeps.ite | (with_reducible refine Keeps.foldl ?_ (fun _ _ _ => ?_)) | (fail_if_no_progress (with_reducible refine Keeps.frame ?_ rfl rfl rfl rfl)) | split)

theorem wordFails_keeps {ex : Option TileId} {z : State} (s : State) (w : Window) (h0 : Keeps ex z s) : Keeps ex z (wordFails s w) := by
  unfold wordFails
  try dsimp only
  repeat' (first | with_reducible assumption | with_reducible apply readFailed_keeps | with_reducible apply xmWordFails_keeps | with_reducible apply Keeps.ite | (with_reducible refine Keeps.foldl ?_ (fun _ _ _ => ?_)) | (fail_if_no_progress (with_reducible refine Keeps.frame ?_ rfl rfl rfl rfl)) | split)

theorem marchOn_keeps {ex : Option TileId} {z : State} (s : State) (w : Window) (h0 : Keeps ex z s) : Keeps ex z (marchOn s w) := by
  unfold marchOn
  try dsimp only
  repeat' (first | with_reducible assumption | with_reducible apply Keeps.ite | (with_reducible refine Keeps.foldl ?_ (fun _ _ _ => ?_)) | (fail_if_no_progress (with_reducible refine Keeps.frame ?_ rfl rfl rfl rfl)) | split)

theorem marchTick_keeps {ex : Option TileId} {z : State} (s : State) (h0 : Keeps ex z s) : Keeps ex z (marchTick s) := by
  unfold marchTick
  try dsimp only
  repeat' (first | with_reducible assumption | with_reducible apply memFault_keeps | with_reducible apply compareWord_keeps | with_reducible apply wordFails_keeps | with_reducible apply marchOn_keeps | with_reducible apply Keeps.ite | (with_reducible refine Keeps.foldl ?_ (fun _ _ _ => ?_)) | (fail_if_no_progress (with_reducible refine Keeps.frame ?_ rfl rfl rfl rfl)) | split)

theorem applyMarchEnable_keeps {ex : Option TileId} {z : State} (s : State) (v : Byte) (h0 : Keeps ex z s) : Keeps ex z (applyMarchEnable s v).2 := by
  unfold applyMarchEnable
  try dsimp only
  repeat' (first | with_reducible assumption | with_reducible apply Keeps.ite | (with_reducible refine Keeps.foldl ?_ (fun _ _ _ => ?_)) | (fail_if_no_progress (with_reducible refine Keeps.frame ?_ rfl rfl rfl rfl)) | split)

theorem execMarchPassStart_keeps {z : State} (s : State) (h0 : Keeps none z s) : ∃ u, execMarchPassStart s = .next u ∧ Keeps none z u := by
  unfold execMarchPassStart
  try dsimp only
  repeat' (first | (with_reducible refine ⟨_, rfl, ?_⟩) | with_reducible assumption | with_reducible apply logEvent_keeps | with_reducible apply Keeps.ite | (with_reducible refine Keeps.foldl ?_ (fun _ _ _ => ?_)) | (fail_if_no_progress (with_reducible refine Keeps.frame ?_ rfl rfl rfl rfl)) | split)

theorem execMarchWindowRetry_keeps {z : State} (s : State) (h0 : Keeps none z s) : ∃ u, execMarchWindowRetry s = .next u ∧ Keeps none z u := by
  unfold execMarchWindowRetry
  try dsimp only
  repeat' (first | (with_reducible refine ⟨_, rfl, ?_⟩) | with_reducible assumption | with_reducible apply Keeps.ite | (with_reducible refine Keeps.foldl ?_ (fun _ _ _ => ?_)) | (fail_if_no_progress (with_reducible refine Keeps.frame ?_ rfl rfl rfl rfl)) | split)

theorem execMarchPassComplete_keeps {z : State} (s : State) (h0 : Keeps none z s) : ∃ u, execMarchPassComplete s = .next u ∧ Keeps none z u := by
  unfold execMarchPassComplete
  try dsimp only
  repeat' (first | (with_reducible refine ⟨_, rfl, ?_⟩) | with_reducible assumption | with_reducible apply Keeps.ite | (with_reducible refine Keeps.foldl ?_ (fun _ _ _ => ?_)) | (fail_if_no_progress (with_reducible refine Keeps.frame ?_ rfl rfl rfl rfl)) | split)

theorem applyDtestTarget_keeps {ex : Option TileId} {z : State} (s : State) (v : Half) (h0 : Keeps ex z s) : Keeps ex z (applyDtestTarget s v).2 := by
  unfold applyDtestTarget
  try dsimp only
  repeat' (first | with_reducible assumption | with_reducible apply Keeps.ite | (with_reducible refine Keeps.foldl ?_ (fun _ _ _ => ?_)) | (fail_if_no_progress (with_reducible refine Keeps.frame ?_ rfl rfl rfl rfl)) | split)

theorem zeroUnit_keeps {ex : Option TileId} {z : State} (s : State) (u : Nat) (h0 : Keeps ex z s) : Keeps ex z (zeroUnit s u) := by
  exact Keeps.mem h0 (fun w => SMap.wf_clearRange _ _ w) id id (fun w => mend_wf _ _ _ w) id id (fun w => SMap.wf_set _ _ w) id

theorem tileMarchFailed_keeps {z : State} (s : State) (p : TileId) (h0 : Keeps none z s) : Keeps none z (tileMarchFailed s p) := by
  unfold tileMarchFailed
  try dsimp only
  repeat' (first | with_reducible assumption | with_reducible apply modTile_keeps | with_reducible apply setTileSvc_keeps | with_reducible apply tileFault_keeps | with_reducible apply Keeps.ite | (with_reducible refine Keeps.foldl ?_ (fun _ _ _ => ?_)) | (fail_if_no_progress (with_reducible refine Keeps.frame ?_ rfl rfl rfl rfl)) | (exact fun h => h) | (exact fun _ h => h) | exact Or.inl (Or.inr rfl) | exact Or.inl (Or.inl rfl) | split)

theorem tileDueDone_keeps {z : State} (s : State) (p : TileId) (passed : Bool) (h0 : Keeps none z s) : Keeps none z (tileDueDone s p passed) := by
  unfold tileDueDone
  try dsimp only
  repeat' (first | with_reducible assumption | with_reducible apply clearTile_keeps | with_reducible apply tileMarchFailed_keeps | with_reducible apply Keeps.ite | (with_reducible refine Keeps.foldl ?_ (fun _ _ _ => ?_)) | (fail_if_no_progress (with_reducible refine Keeps.frame ?_ rfl rfl rfl rfl)) | split)

theorem execDestructiveMarchComplete_keeps {z : State} (passed : Bool) (s : State) (h0 : Keeps none z s) : ∃ u, execDestructiveMarchComplete passed s = .next u ∧ Keeps none z u := by
  unfold execDestructiveMarchComplete
  try dsimp only
  repeat' (first | (with_reducible refine ⟨_, rfl, ?_⟩) | with_reducible assumption | with_reducible apply clearTile_keeps | with_reducible apply takeMark_keeps | with_reducible apply memFault_keeps | with_reducible apply zeroUnit_keeps | with_reducible apply tileMarchFailed_keeps | with_reducible apply tileDueDone_keeps | with_reducible apply Keeps.ite | (with_reducible refine Keeps.foldl ?_ (fun _ _ _ => ?_)) | (fail_if_no_progress (with_reducible refine Keeps.frame ?_ rfl rfl rfl rfl)) | split)

end Sys2Proof.Machine
end

