-- ==== Sys2Proof/Laws/KeepsClocks.lean ====
section
/-! SUPPORT. The operations of Machine/Clocks.lean keep the queue, the counters and the invariant. -/

set_option linter.unusedTactic false
set_option linter.unusedVariables false
set_option linter.unreachableTactic false

namespace Sys2Proof.Machine

theorem setClk_keeps {ex : Option TileId} {z : State} (s : State) (f : Clocks → Clocks) (h0 : Keeps ex z s)
    (hf : ∀ c, (f c).gateDeep = c.gateDeep) : Keeps ex z (setClk s f) :=
  Keeps.frame h0 (hf s.clk) rfl rfl rfl

theorem applyCeiling_keeps {ex : Option TileId} {z : State} (s : State) (v : Byte) (h0 : Keeps ex z s) : Keeps ex z (applyCeiling s v).2 := by
  unfold applyCeiling
  try dsimp only
  repeat' (first | with_reducible assumption | with_reducible apply setClk_keeps | with_reducible apply Keeps.ite | (with_reducible refine Keeps.foldl ?_ (fun _ _ _ => ?_)) | (fail_if_no_progress (with_reducible refine Keeps.frame ?_ rfl rfl rfl rfl)) | (intro _; rfl) | split)

theorem applyIdle_keeps {z : State} (s : State) (v : Byte) (h0 : Keeps none z s) : Keeps none z (applyIdle s v).2 := by
  unfold applyIdle
  try dsimp only
  repeat' (first | with_reducible assumption | with_reducible apply retargetFab_keeps | with_reducible apply setClk_keeps | with_reducible apply idle_keeps | with_reducible apply Keeps.ite | (with_reducible refine Keeps.foldl ?_ (fun _ _ _ => ?_)) | (fail_if_no_progress (with_reducible refine Keeps.frame ?_ rfl rfl rfl rfl)) | (intro _; rfl) | split)

theorem applyRampDwell_keeps {ex : Option TileId} {z : State} (s : State) (v : Byte) (h0 : Keeps ex z s) : Keeps ex z (applyRampDwell s v).2 := by
  unfold applyRampDwell
  try dsimp only
  repeat' (first | with_reducible assumption | with_reducible apply setClk_keeps | with_reducible apply Keeps.ite | (with_reducible refine Keeps.foldl ?_ (fun _ _ _ => ?_)) | (fail_if_no_progress (with_reducible refine Keeps.frame ?_ rfl rfl rfl rfl)) | (intro _; rfl) | split)

theorem applyIdleHold_keeps {ex : Option TileId} {z : State} (s : State) (t : Tenant) (v : Word) (h0 : Keeps ex z s) : Keeps ex z (applyIdleHold s t v).2 := by
  unfold applyIdleHold
  try dsimp only
  repeat' (first | with_reducible assumption | with_reducible apply modTen_keeps | with_reducible apply Keeps.ite | (with_reducible refine Keeps.foldl ?_ (fun _ _ _ => ?_)) | (fail_if_no_progress (with_reducible refine Keeps.frame ?_ rfl rfl rfl rfl)) | split)

theorem applyDeepSleep_keeps {ex : Option TileId} {z : State} (s : State) (k : SesId) (v : Byte) (h0 : Keeps ex z s) : Keeps ex z (applyDeepSleep s k v).2 := by
  unfold applyDeepSleep
  try dsimp only
  repeat' (first | with_reducible assumption | with_reducible apply modTen_keeps | with_reducible apply sleepPolder_keeps | with_reducible apply setClk_keeps | with_reducible apply Keeps.ite | (with_reducible refine Keeps.foldl ?_ (fun _ _ _ => ?_)) | (fail_if_no_progress (with_reducible refine Keeps.frame ?_ rfl rfl rfl rfl)) | (intro _; rfl) | split)

theorem cancelSleep_keeps {ex : Option TileId} {z : State} (s : State) (h0 : Keeps ex z s) : Keeps ex z (cancelSleep s) := by
  unfold cancelSleep
  try dsimp only
  repeat' (first | with_reducible assumption | with_reducible apply lateAnswer_keeps | with_reducible apply setClk_keeps | with_reducible apply Keeps.ite | (with_reducible refine Keeps.foldl ?_ (fun _ _ _ => ?_)) | (fail_if_no_progress (with_reducible refine Keeps.frame ?_ rfl rfl rfl rfl)) | (intro _; rfl) | split)

theorem closeAll_keeps {ex : Option TileId} {z : State} (s : State) (h0 : Keeps ex z s) : Keeps ex z (closeAll s) := by
  unfold closeAll
  try dsimp only
  repeat' (first | with_reducible assumption | with_reducible apply closeSes_keeps | with_reducible apply Keeps.ite | (with_reducible refine Keeps.foldl ?_ (fun _ _ _ => ?_)) | (fail_if_no_progress (with_reducible refine Keeps.frame ?_ rfl rfl rfl rfl)) | split)

theorem enterSleep_keeps {ex : Option TileId} {z : State} (s : State) (k : SesId) (h0 : Keeps ex z s) : Keeps ex z (enterSleep s k) := by
  unfold enterSleep
  try dsimp only
  repeat' (first | with_reducible assumption | with_reducible apply modSes_keeps | with_reducible apply pwmEdge_keeps | with_reducible apply fallLines_keeps | with_reducible apply reopenGates_keeps | with_reducible apply polderOff_keeps | with_reducible apply lateAnswer_keeps | with_reducible apply setClk_keeps | with_reducible apply closeAll_keeps | with_reducible apply Keeps.ite | (with_reducible refine Keeps.foldl ?_ (fun _ _ _ => ?_)) | (fail_if_no_progress (with_reducible refine Keeps.frame ?_ rfl rfl rfl rfl)) | (intro _; rfl) | split)

theorem execDeepSleepEntry_keeps {z : State} (s : State) (h0 : Keeps none z s) : ∃ u, execDeepSleepEntry s = .next u ∧ Keeps none z u := by
  unfold execDeepSleepEntry
  try dsimp only
  repeat' (first | (with_reducible refine ⟨_, rfl, ?_⟩) | with_reducible assumption | with_reducible apply enterSleep_keeps | with_reducible apply Keeps.ite | (with_reducible refine Keeps.foldl ?_ (fun _ _ _ => ?_)) | (fail_if_no_progress (with_reducible refine Keeps.frame ?_ rfl rfl rfl rfl)) | split)

theorem resample_keeps {ex : Option TileId} {z : State} (s : State) (h0 : Keeps ex z s) : Keeps ex z (resample s) := by
  unfold resample
  try dsimp only
  repeat' (first | with_reducible assumption | with_reducible apply modFch_keeps | with_reducible apply Keeps.ite | (with_reducible refine Keeps.foldl ?_ (fun _ _ _ => ?_)) | (fail_if_no_progress (with_reducible refine Keeps.frame ?_ rfl rfl rfl rfl)) | split)

theorem restartFabric_keeps {ex : Option TileId} {z : State} (s : State) (h0 : Keeps ex z s) : Keeps ex z (restartFabric s) := by
  unfold restartFabric
  try dsimp only
  repeat' (first | with_reducible assumption | with_reducible apply releaseLoad_keeps | with_reducible apply resample_keeps | with_reducible apply Keeps.ite | (with_reducible refine Keeps.foldl ?_ (fun _ _ _ => ?_)) | (fail_if_no_progress (with_reducible refine Keeps.frame ?_ rfl rfl rfl rfl)) | split)

theorem setRef_keeps {ex : Option TileId} {z : State} (s : State) (r : Fin 2) (v : Bool) (h0 : Keeps ex z s) : Keeps ex z (setRef s r v) := by
  unfold setRef
  try dsimp only
  repeat' (first | with_reducible assumption | with_reducible apply setClk_keeps | with_reducible apply Keeps.ite | (with_reducible refine Keeps.foldl ?_ (fun _ _ _ => ?_)) | (fail_if_no_progress (with_reducible refine Keeps.frame ?_ rfl rfl rfl rfl)) | (intro _; rfl) | split)

theorem setClkSt_keeps {ex : Option TileId} {z : State} (s : State) (st : ClkSt) (h0 : Keeps ex z s) : Keeps ex z (setClkSt s st) := by
  unfold setClkSt
  try dsimp only
  repeat' (first | with_reducible assumption | with_reducible apply logEvent_keeps | with_reducible apply setClk_keeps | with_reducible apply Keeps.ite | (with_reducible refine Keeps.foldl ?_ (fun _ _ _ => ?_)) | (fail_if_no_progress (with_reducible refine Keeps.frame ?_ rfl rfl rfl rfl)) | (intro _; rfl) | split)

theorem relockTo_keeps {ex : Option TileId} {z : State} (s : State) (r : Option Nat) (h0 : Keeps ex z s) : Keeps ex z (relockTo s r) := by
  unfold relockTo
  try dsimp only
  repeat' (first | with_reducible assumption | with_reducible apply emergency_keeps | with_reducible apply setClk_keeps | with_reducible apply setClkSt_keeps | with_reducible apply Keeps.ite | (with_reducible refine Keeps.foldl ?_ (fun _ _ _ => ?_)) | (fail_if_no_progress (with_reducible refine Keeps.frame ?_ rfl rfl rfl rfl)) | (intro _; rfl) | split)

theorem stopClocks_keeps {ex : Option TileId} {z : State} (s : State) (h0 : Keeps ex z s) : Keeps ex z (stopClocks s) := by
  unfold stopClocks
  try dsimp only
  repeat' (first | with_reducible assumption | with_reducible apply tideFault_keeps | with_reducible apply fabEdge_keeps | with_reducible apply stopPolder_keeps | with_reducible apply recompute_keeps | with_reducible apply allLinksLost_keeps | with_reducible apply setClk_keeps | with_reducible apply Keeps.ite | (with_reducible refine Keeps.foldl ?_ (fun _ _ _ => ?_)) | (fail_if_no_progress (with_reducible refine Keeps.frame ?_ rfl rfl rfl rfl)) | (intro _; rfl) | split)

theorem clockFail_keeps {ex : Option TileId} {z : State} (s : State) (same : Bool) (h0 : Keeps ex z s) : Keeps ex z (clockFail s same) := by
  unfold clockFail
  try dsimp only
  repeat' (first | with_reducible assumption | with_reducible apply relockTo_keeps | with_reducible apply stopClocks_keeps | with_reducible apply Keeps.ite | (with_reducible refine Keeps.foldl ?_ (fun _ _ _ => ?_)) | (fail_if_no_progress (with_reducible refine Keeps.frame ?_ rfl rfl rfl rfl)) | split)

theorem refLost_keeps {ex : Option TileId} {z : State} (s : State) (r : Fin 2) (h0 : Keeps ex z s) : Keeps ex z (refLost s r) := by
  unfold refLost
  try dsimp only
  repeat' (first | with_reducible assumption | with_reducible apply logEvent_keeps | with_reducible apply setRef_keeps | with_reducible apply relockTo_keeps | with_reducible apply clockFail_keeps | with_reducible apply Keeps.ite | (with_reducible refine Keeps.foldl ?_ (fun _ _ _ => ?_)) | (fail_if_no_progress (with_reducible refine Keeps.frame ?_ rfl rfl rfl rfl)) | split)

theorem execRefMissingEdge_keeps {z : State} (ref : Fin 2) (s : State) (h0 : Keeps none z s) : ∃ u, execRefMissingEdge ref s = .next u ∧ Keeps none z u := by
  unfold execRefMissingEdge
  try dsimp only
  repeat' (first | (with_reducible refine ⟨_, rfl, ?_⟩) | with_reducible assumption | with_reducible apply takeMark_keeps | with_reducible apply refLost_keeps | with_reducible apply Keeps.ite | (with_reducible refine Keeps.foldl ?_ (fun _ _ _ => ?_)) | (fail_if_no_progress (with_reducible refine Keeps.frame ?_ rfl rfl rfl rfl)) | split)

theorem execRefInvalid_keeps {z : State} (ref : Fin 2) (s : State) (h0 : Keeps none z s) : ∃ u, execRefInvalid ref s = .next u ∧ Keeps none z u := by
  unfold execRefInvalid
  try dsimp only
  repeat' (first | (with_reducible refine ⟨_, rfl, ?_⟩) | with_reducible assumption | with_reducible apply takeMark_keeps | with_reducible apply refLost_keeps | with_reducible apply Keeps.ite | (with_reducible refine Keeps.foldl ?_ (fun _ _ _ => ?_)) | (fail_if_no_progress (with_reducible refine Keeps.frame ?_ rfl rfl rfl rfl)) | split)

theorem execRefValid_keeps {z : State} (ref : Fin 2) (s : State) (h0 : Keeps none z s) : ∃ u, execRefValid ref s = .next u ∧ Keeps none z u := by
  unfold execRefValid
  try dsimp only
  repeat' (first | (with_reducible refine ⟨_, rfl, ?_⟩) | with_reducible assumption | with_reducible apply setRef_keeps | with_reducible apply Keeps.ite | (with_reducible refine Keeps.foldl ?_ (fun _ _ _ => ?_)) | (fail_if_no_progress (with_reducible refine Keeps.frame ?_ rfl rfl rfl rfl)) | split)

theorem execPllLossOfLock_keeps {z : State} (pll : Fin 4) (s : State) (h0 : Keeps none z s) : ∃ u, execPllLossOfLock pll s = .next u ∧ Keeps none z u := by
  unfold execPllLossOfLock
  try dsimp only
  repeat' (first | (with_reducible refine ⟨_, rfl, ?_⟩) | with_reducible assumption | with_reducible apply takeMark_keeps | with_reducible apply clockFail_keeps | with_reducible apply Keeps.ite | (with_reducible refine Keeps.foldl ?_ (fun _ _ _ => ?_)) | (fail_if_no_progress (with_reducible refine Keeps.frame ?_ rfl rfl rfl rfl)) | split)

theorem execPllRelock_keeps {z : State} (s : State) (h0 : Keeps none z s) : ∃ u, execPllRelock s = .next u ∧ Keeps none z u := by
  unfold execPllRelock
  try dsimp only
  repeat' (first | (with_reducible refine ⟨_, rfl, ?_⟩) | with_reducible assumption | with_reducible apply fabEdge_keeps | with_reducible apply retargetFab_keeps | with_reducible apply wakePolder_keeps | with_reducible apply kickAll_keeps | with_reducible apply tryReexecAll_keeps | with_reducible apply setClk_keeps | with_reducible apply setClkSt_keeps | with_reducible apply Keeps.ite | (with_reducible refine Keeps.foldl ?_ (fun _ _ _ => ?_)) | (fail_if_no_progress (with_reducible refine Keeps.frame ?_ rfl rfl rfl rfl)) | (intro _; rfl) | split)

theorem execHoldoverRefValid_keeps {z : State} (ref : Fin 2) (s : State) (h0 : Keeps none z s) : ∃ u, execHoldoverRefValid ref s = .next u ∧ Keeps none z u := by
  unfold execHoldoverRefValid
  try dsimp only
  repeat' (first | (with_reducible refine ⟨_, rfl, ?_⟩) | with_reducible assumption | with_reducible apply setRef_keeps | with_reducible apply relockTo_keeps | with_reducible apply Keeps.ite | (with_reducible refine Keeps.foldl ?_ (fun _ _ _ => ?_)) | (fail_if_no_progress (with_reducible refine Keeps.frame ?_ rfl rfl rfl rfl)) | split)

theorem applyRefSelect_keeps {ex : Option TileId} {z : State} (s : State) (v : Byte) (h0 : Keeps ex z s) : Keeps ex z (applyRefSelect s v).2 := by
  unfold applyRefSelect
  try dsimp only
  repeat' (first | with_reducible assumption | with_reducible apply setClk_keeps | with_reducible apply Keeps.ite | (with_reducible refine Keeps.foldl ?_ (fun _ _ _ => ?_)) | (fail_if_no_progress (with_reducible refine Keeps.frame ?_ rfl rfl rfl rfl)) | (intro _; rfl) | split)

theorem wakeModule_keeps {ex : Option TileId} {z : State} (s : State) (h0 : Keeps ex z s) : Keeps ex z (wakeModule s) := by
  unfold wakeModule
  try dsimp only
  repeat' (first | with_reducible assumption | with_reducible apply openGate_keeps | with_reducible apply syncSes_keeps | with_reducible apply setClk_keeps | with_reducible apply restartFabric_keeps | with_reducible apply clockFail_keeps | with_reducible apply Keeps.ite | (with_reducible refine Keeps.foldl ?_ (fun _ _ _ => ?_)) | (fail_if_no_progress (with_reducible refine Keeps.frame ?_ rfl rfl rfl rfl)) | (intro _; rfl) | split)

theorem applyGateRun_keeps {ex : Option TileId} {z : State} (s : State) (v : Word) (h0 : Keeps ex z s) : Keeps ex z (applyGateRun s v).2 := by
  unfold applyGateRun
  try dsimp only
  repeat' (first | with_reducible assumption | with_reducible apply reopenGates_keeps | with_reducible apply setClk_keeps | with_reducible apply Keeps.ite | (with_reducible refine Keeps.foldl ?_ (fun _ _ _ => ?_)) | (fail_if_no_progress (with_reducible refine Keeps.frame ?_ rfl rfl rfl rfl)) | (intro _; rfl) | split)

theorem applyGateSleep_keeps {ex : Option TileId} {z : State} (s : State) (v : Word) (h0 : Keeps ex z s) : Keeps ex z (applyGateSleep s v).2 := by
  unfold applyGateSleep
  try dsimp only
  repeat' (first | with_reducible assumption | with_reducible apply reopenGates_keeps | with_reducible apply setClk_keeps | with_reducible apply Keeps.ite | (with_reducible refine Keeps.foldl ?_ (fun _ _ _ => ?_)) | (fail_if_no_progress (with_reducible refine Keeps.frame ?_ rfl rfl rfl rfl)) | (intro _; rfl) | split)

theorem applyGateDeep_keeps {ex : Option TileId} {z : State} (s : State) (v : Word) (h0 : Keeps ex z s) : Keeps ex z (applyGateDeep s v).2 := by
  unfold applyGateDeep
  split
  · refine h0.trans rfl (fun _ _ => Nat.le_refl _) fun i => ⟨i.1, ?_, i.2.2⟩
    simp only [deepMaskOk, setClk]
    rw [BitVec.and_or_distrib_right, BitVec.and_assoc]
    simp
  · exact h0

theorem execClockGateIdle_keeps {z : State} (block : Fin 25) (s : State) (h0 : Keeps none z s) : ∃ u, execClockGateIdle block s = .next u ∧ Keeps none z u := by
  unfold execClockGateIdle
  try dsimp only
  repeat' (first | (with_reducible refine ⟨_, rfl, ?_⟩) | with_reducible assumption | with_reducible apply closeNi_keeps | with_reducible apply setClk_keeps | with_reducible apply Keeps.ite | (with_reducible refine Keeps.foldl ?_ (fun _ _ _ => ?_)) | (fail_if_no_progress (with_reducible refine Keeps.frame ?_ rfl rfl rfl rfl)) | (intro _; rfl) | split)

end Sys2Proof.Machine
end

