-- ==== Sys2Proof/Laws/KeepsFabric.lean ====
section
/-! SUPPORT. The operations of Machine/Fabric.lean keep the queue, the counters and the invariant. -/

set_option linter.unusedTactic false
set_option linter.unusedVariables false
set_option linter.unreachableTactic false

namespace Sys2Proof.Machine

theorem runCell_keeps {ex : Option TileId} {z : State} (s : State) (r c : Nat) (op : Nat) (f : Half → Half → Bool → DWord → CellRes) (h0 : Keeps ex z s) : Keeps ex z (runCell s r c op f) := by
  unfold runCell
  try dsimp only
  repeat' (first | with_reducible assumption | with_reducible apply setCell_keeps | with_reducible apply nextFc_keeps | with_reducible apply fabEdge_keeps | with_reducible apply takeMark_keeps | with_reducible apply linesStep_keeps | with_reducible apply Keeps.ite | (with_reducible refine Keeps.foldl ?_ (fun _ _ _ => ?_)) | (fail_if_no_progress (with_reducible refine Keeps.frame ?_ rfl rfl rfl rfl)) | split)

theorem execCellPass_keeps {z : State} (r : Fin 64) (c : Fin 32) (s : State) (h0 : Keeps none z s) : ∃ u, execCellPass r c s = .next u ∧ Keeps none z u := by
  unfold execCellPass
  try dsimp only
  repeat' (first | (with_reducible refine ⟨_, rfl, ?_⟩) | with_reducible assumption | with_reducible apply runCell_keeps | with_reducible apply Keeps.ite | (with_reducible refine Keeps.foldl ?_ (fun _ _ _ => ?_)) | (fail_if_no_progress (with_reducible refine Keeps.frame ?_ rfl rfl rfl rfl)) | split)

theorem execCellAdd_keeps {z : State} (r : Fin 64) (c : Fin 32) (s : State) (h0 : Keeps none z s) : ∃ u, execCellAdd r c s = .next u ∧ Keeps none z u := by
  unfold execCellAdd
  try dsimp only
  repeat' (first | (with_reducible refine ⟨_, rfl, ?_⟩) | with_reducible assumption | with_reducible apply runCell_keeps | with_reducible apply Keeps.ite | (with_reducible refine Keeps.foldl ?_ (fun _ _ _ => ?_)) | (fail_if_no_progress (with_reducible refine Keeps.frame ?_ rfl rfl rfl rfl)) | split)

theorem execCellSub_keeps {z : State} (r : Fin 64) (c : Fin 32) (s : State) (h0 : Keeps none z s) : ∃ u, execCellSub r c s = .next u ∧ Keeps none z u := by
  unfold execCellSub
  try dsimp only
  repeat' (first | (with_reducible refine ⟨_, rfl, ?_⟩) | with_reducible assumption | with_reducible apply runCell_keeps | with_reducible apply Keeps.ite | (with_reducible refine Keeps.foldl ?_ (fun _ _ _ => ?_)) | (fail_if_no_progress (with_reducible refine Keeps.frame ?_ rfl rfl rfl rfl)) | split)

theorem execCellAnd_keeps {z : State} (r : Fin 64) (c : Fin 32) (s : State) (h0 : Keeps none z s) : ∃ u, execCellAnd r c s = .next u ∧ Keeps none z u := by
  unfold execCellAnd
  try dsimp only
  repeat' (first | (with_reducible refine ⟨_, rfl, ?_⟩) | with_reducible assumption | with_reducible apply runCell_keeps | with_reducible apply Keeps.ite | (with_reducible refine Keeps.foldl ?_ (fun _ _ _ => ?_)) | (fail_if_no_progress (with_reducible refine Keeps.frame ?_ rfl rfl rfl rfl)) | split)

theorem execCellOr_keeps {z : State} (r : Fin 64) (c : Fin 32) (s : State) (h0 : Keeps none z s) : ∃ u, execCellOr r c s = .next u ∧ Keeps none z u := by
  unfold execCellOr
  try dsimp only
  repeat' (first | (with_reducible refine ⟨_, rfl, ?_⟩) | with_reducible assumption | with_reducible apply runCell_keeps | with_reducible apply Keeps.ite | (with_reducible refine Keeps.foldl ?_ (fun _ _ _ => ?_)) | (fail_if_no_progress (with_reducible refine Keeps.frame ?_ rfl rfl rfl rfl)) | split)

theorem execCellXor_keeps {z : State} (r : Fin 64) (c : Fin 32) (s : State) (h0 : Keeps none z s) : ∃ u, execCellXor r c s = .next u ∧ Keeps none z u := by
  unfold execCellXor
  try dsimp only
  repeat' (first | (with_reducible refine ⟨_, rfl, ?_⟩) | with_reducible assumption | with_reducible apply runCell_keeps | with_reducible apply Keeps.ite | (with_reducible refine Keeps.foldl ?_ (fun _ _ _ => ?_)) | (fail_if_no_progress (with_reducible refine Keeps.frame ?_ rfl rfl rfl rfl)) | split)

theorem execCellNot_keeps {z : State} (r : Fin 64) (c : Fin 32) (s : State) (h0 : Keeps none z s) : ∃ u, execCellNot r c s = .next u ∧ Keeps none z u := by
  unfold execCellNot
  try dsimp only
  repeat' (first | (with_reducible refine ⟨_, rfl, ?_⟩) | with_reducible assumption | with_reducible apply runCell_keeps | with_reducible apply Keeps.ite | (with_reducible refine Keeps.foldl ?_ (fun _ _ _ => ?_)) | (fail_if_no_progress (with_reducible refine Keeps.frame ?_ rfl rfl rfl rfl)) | split)

theorem execCellShl_keeps {z : State} (r : Fin 64) (c : Fin 32) (s : State) (h0 : Keeps none z s) : ∃ u, execCellShl r c s = .next u ∧ Keeps none z u := by
  unfold execCellShl
  try dsimp only
  repeat' (first | (with_reducible refine ⟨_, rfl, ?_⟩) | with_reducible assumption | with_reducible apply runCell_keeps | with_reducible apply Keeps.ite | (with_reducible refine Keeps.foldl ?_ (fun _ _ _ => ?_)) | (fail_if_no_progress (with_reducible refine Keeps.frame ?_ rfl rfl rfl rfl)) | split)

theorem execCellShr_keeps {z : State} (r : Fin 64) (c : Fin 32) (s : State) (h0 : Keeps none z s) : ∃ u, execCellShr r c s = .next u ∧ Keeps none z u := by
  unfold execCellShr
  try dsimp only
  repeat' (first | (with_reducible refine ⟨_, rfl, ?_⟩) | with_reducible assumption | with_reducible apply runCell_keeps | with_reducible apply Keeps.ite | (with_reducible refine Keeps.foldl ?_ (fun _ _ _ => ?_)) | (fail_if_no_progress (with_reducible refine Keeps.frame ?_ rfl rfl rfl rfl)) | split)

theorem execCellSra_keeps {z : State} (r : Fin 64) (c : Fin 32) (s : State) (h0 : Keeps none z s) : ∃ u, execCellSra r c s = .next u ∧ Keeps none z u := by
  unfold execCellSra
  try dsimp only
  repeat' (first | (with_reducible refine ⟨_, rfl, ?_⟩) | with_reducible assumption | with_reducible apply runCell_keeps | with_reducible apply Keeps.ite | (with_reducible refine Keeps.foldl ?_ (fun _ _ _ => ?_)) | (fail_if_no_progress (with_reducible refine Keeps.frame ?_ rfl rfl rfl rfl)) | split)

theorem execCellMux_keeps {z : State} (r : Fin 64) (c : Fin 32) (s : State) (h0 : Keeps none z s) : ∃ u, execCellMux r c s = .next u ∧ Keeps none z u := by
  unfold execCellMux
  try dsimp only
  repeat' (first | (with_reducible refine ⟨_, rfl, ?_⟩) | with_reducible assumption | with_reducible apply runCell_keeps | with_reducible apply Keeps.ite | (with_reducible refine Keeps.foldl ?_ (fun _ _ _ => ?_)) | (fail_if_no_progress (with_reducible refine Keeps.frame ?_ rfl rfl rfl rfl)) | split)

theorem execCellCnt_keeps {z : State} (r : Fin 64) (c : Fin 32) (s : State) (h0 : Keeps none z s) : ∃ u, execCellCnt r c s = .next u ∧ Keeps none z u := by
  unfold execCellCnt
  try dsimp only
  repeat' (first | (with_reducible refine ⟨_, rfl, ?_⟩) | with_reducible assumption | with_reducible apply runCell_keeps | with_reducible apply Keeps.ite | (with_reducible refine Keeps.foldl ?_ (fun _ _ _ => ?_)) | (fail_if_no_progress (with_reducible refine Keeps.frame ?_ rfl rfl rfl rfl)) | split)

theorem execCellMinu_keeps {z : State} (r : Fin 64) (c : Fin 32) (s : State) (h0 : Keeps none z s) : ∃ u, execCellMinu r c s = .next u ∧ Keeps none z u := by
  unfold execCellMinu
  try dsimp only
  repeat' (first | (with_reducible refine ⟨_, rfl, ?_⟩) | with_reducible assumption | with_reducible apply runCell_keeps | with_reducible apply Keeps.ite | (with_reducible refine Keeps.foldl ?_ (fun _ _ _ => ?_)) | (fail_if_no_progress (with_reducible refine Keeps.frame ?_ rfl rfl rfl rfl)) | split)

theorem execCellMaxu_keeps {z : State} (r : Fin 64) (c : Fin 32) (s : State) (h0 : Keeps none z s) : ∃ u, execCellMaxu r c s = .next u ∧ Keeps none z u := by
  unfold execCellMaxu
  try dsimp only
  repeat' (first | (with_reducible refine ⟨_, rfl, ?_⟩) | with_reducible assumption | with_reducible apply runCell_keeps | with_reducible apply Keeps.ite | (with_reducible refine Keeps.foldl ?_ (fun _ _ _ => ?_)) | (fail_if_no_progress (with_reducible refine Keeps.frame ?_ rfl rfl rfl rfl)) | split)

theorem execCellTime_keeps {z : State} (r : Fin 64) (c : Fin 32) (s : State) (h0 : Keeps none z s) : ∃ u, execCellTime r c s = .next u ∧ Keeps none z u := by
  unfold execCellTime
  try dsimp only
  repeat' (first | (with_reducible refine ⟨_, rfl, ?_⟩) | with_reducible assumption | with_reducible apply runCell_keeps | with_reducible apply Keeps.ite | (with_reducible refine Keeps.foldl ?_ (fun _ _ _ => ?_)) | (fail_if_no_progress (with_reducible refine Keeps.frame ?_ rfl rfl rfl rfl)) | split)

theorem execSerialRxByte_keeps {z : State} (port : Fin 2) (b : Byte) (s : State) (h0 : Keeps none z s) : ∃ u, execSerialRxByte port b s = .next u ∧ Keeps none z u := by
  unfold execSerialRxByte
  try dsimp only
  repeat' (first | (with_reducible refine ⟨_, rfl, ?_⟩) | with_reducible assumption | with_reducible apply Keeps.ite | (with_reducible refine Keeps.foldl ?_ (fun _ _ _ => ?_)) | (fail_if_no_progress (with_reducible refine Keeps.frame ?_ rfl rfl rfl rfl)) | split)

end Sys2Proof.Machine
end

