-- ==== Sys2Proof/Laws/KeepsInt.lean ====
section
/-! SUPPORT. The operations of Machine/Int.lean keep the queue, the counters and the invariant. -/

set_option linter.unusedTactic false
set_option linter.unusedVariables false
set_option linter.unreachableTactic false

namespace Sys2Proof.Machine

theorem loadBermPe_keeps {ex : Option TileId} {z : State} (s : State) (k : Nat) (h0 : Keeps ex z s) : Keeps ex z (loadBermPe s k) := by
  unfold loadBermPe
  try dsimp only
  repeat' (first | with_reducible assumption | with_reducible apply setPeBit_keeps | with_reducible apply Keeps.ite | (with_reducible refine Keeps.foldl ?_ (fun _ _ _ => ?_)) | (fail_if_no_progress (with_reducible refine Keeps.frame ?_ rfl rfl rfl rfl)) | split)

theorem startBerm_keeps {ex : Option TileId} {z : State} (s : State) (t : Tenant) (h0 : Keeps ex z s) : Keeps ex z (startBerm s t) := by
  unfold startBerm
  try dsimp only
  repeat' (first | with_reducible assumption | with_reducible apply modTile_keeps | with_reducible apply loadBermPe_keeps | with_reducible apply Keeps.ite | (with_reducible refine Keeps.foldl ?_ (fun _ _ _ => ?_)) | (fail_if_no_progress (with_reducible refine Keeps.frame ?_ rfl rfl rfl rfl)) | (exact fun h => h) | (exact fun _ h => h) | split)

theorem intRegs_keeps {ex : Option TileId} {z : State} (s0 : State) (g : Nat) (fn : IntFn) (r : IntRes) (u : State) (e : Elem) (h0 : Keeps ex z s0) (h1 : Keeps ex z u) : Keeps ex z (intRegs s0 g fn r u e) := by
  unfold intRegs
  try dsimp only
  repeat' (first | with_reducible assumption | with_reducible apply setC_keeps | with_reducible apply setF_keeps | with_reducible apply freeC_keeps | with_reducible apply freeF_keeps | with_reducible apply Keeps.ite | (with_reducible refine Keeps.foldl ?_ (fun _ _ _ => ?_)) | (fail_if_no_progress (with_reducible refine Keeps.frame ?_ rfl rfl rfl rfl)) | split)

theorem intInstr_keeps {ex : Option TileId} {z : State} (s : State) (t : Tenant) (fn : IntFn) (opFn : Nat) (f : FmtA) (h0 : Keeps ex z s) : Keeps ex z (intInstr s t fn opFn f) := by
  unfold intInstr
  try dsimp only
  repeat' (first | with_reducible assumption | with_reducible apply setSticky_keeps | with_reducible apply touch_keeps | with_reducible apply runAis_keeps | with_reducible apply finish_keeps | with_reducible apply touchSrc_keeps | with_reducible apply writeDest_keeps | with_reducible apply startBerm_keeps | with_reducible apply intRegs_keeps | with_reducible apply Keeps.ite | (with_reducible refine Keeps.foldl ?_ (fun _ _ _ => ?_)) | (fail_if_no_progress (with_reducible refine Keeps.frame ?_ rfl rfl rfl rfl)) | intro _ | split)

theorem execAdd_keeps {z : State} (t : Tenant) (f : FmtA) (s : State) (h0 : Keeps none z s) : ∃ u, execAdd t f s = .next u ∧ Keeps none z u := by
  unfold execAdd
  try dsimp only
  repeat' (first | (with_reducible refine ⟨_, rfl, ?_⟩) | with_reducible assumption | with_reducible apply intInstr_keeps | with_reducible apply Keeps.ite | (with_reducible refine Keeps.foldl ?_ (fun _ _ _ => ?_)) | (fail_if_no_progress (with_reducible refine Keeps.frame ?_ rfl rfl rfl rfl)) | split)

theorem execAddc_keeps {z : State} (t : Tenant) (f : FmtA) (s : State) (h0 : Keeps none z s) : ∃ u, execAddc t f s = .next u ∧ Keeps none z u := by
  unfold execAddc
  try dsimp only
  repeat' (first | (with_reducible refine ⟨_, rfl, ?_⟩) | with_reducible assumption | with_reducible apply intInstr_keeps | with_reducible apply Keeps.ite | (with_reducible refine Keeps.foldl ?_ (fun _ _ _ => ?_)) | (fail_if_no_progress (with_reducible refine Keeps.frame ?_ rfl rfl rfl rfl)) | split)

theorem execSub_keeps {z : State} (t : Tenant) (f : FmtA) (s : State) (h0 : Keeps none z s) : ∃ u, execSub t f s = .next u ∧ Keeps none z u := by
  unfold execSub
  try dsimp only
  repeat' (first | (with_reducible refine ⟨_, rfl, ?_⟩) | with_reducible assumption | with_reducible apply intInstr_keeps | with_reducible apply Keeps.ite | (with_reducible refine Keeps.foldl ?_ (fun _ _ _ => ?_)) | (fail_if_no_progress (with_reducible refine Keeps.frame ?_ rfl rfl rfl rfl)) | split)

theorem execSubb_keeps {z : State} (t : Tenant) (f : FmtA) (s : State) (h0 : Keeps none z s) : ∃ u, execSubb t f s = .next u ∧ Keeps none z u := by
  unfold execSubb
  try dsimp only
  repeat' (first | (with_reducible refine ⟨_, rfl, ?_⟩) | with_reducible assumption | with_reducible apply intInstr_keeps | with_reducible apply Keeps.ite | (with_reducible refine Keeps.foldl ?_ (fun _ _ _ => ?_)) | (fail_if_no_progress (with_reducible refine Keeps.frame ?_ rfl rfl rfl rfl)) | split)

theorem execMul_keeps {z : State} (t : Tenant) (f : FmtA) (s : State) (h0 : Keeps none z s) : ∃ u, execMul t f s = .next u ∧ Keeps none z u := by
  unfold execMul
  try dsimp only
  repeat' (first | (with_reducible refine ⟨_, rfl, ?_⟩) | with_reducible assumption | with_reducible apply intInstr_keeps | with_reducible apply Keeps.ite | (with_reducible refine Keeps.foldl ?_ (fun _ _ _ => ?_)) | (fail_if_no_progress (with_reducible refine Keeps.frame ?_ rfl rfl rfl rfl)) | split)

theorem execMulw_keeps {z : State} (t : Tenant) (f : FmtA) (s : State) (h0 : Keeps none z s) : ∃ u, execMulw t f s = .next u ∧ Keeps none z u := by
  unfold execMulw
  try dsimp only
  repeat' (first | (with_reducible refine ⟨_, rfl, ?_⟩) | with_reducible assumption | with_reducible apply intInstr_keeps | with_reducible apply Keeps.ite | (with_reducible refine Keeps.foldl ?_ (fun _ _ _ => ?_)) | (fail_if_no_progress (with_reducible refine Keeps.frame ?_ rfl rfl rfl rfl)) | split)

theorem execDiv_keeps {z : State} (t : Tenant) (f : FmtA) (s : State) (h0 : Keeps none z s) : ∃ u, execDiv t f s = .next u ∧ Keeps none z u := by
  unfold execDiv
  try dsimp only
  repeat' (first | (with_reducible refine ⟨_, rfl, ?_⟩) | with_reducible assumption | with_reducible apply intInstr_keeps | with_reducible apply Keeps.ite | (with_reducible refine Keeps.foldl ?_ (fun _ _ _ => ?_)) | (fail_if_no_progress (with_reducible refine Keeps.frame ?_ rfl rfl rfl rfl)) | split)

theorem execMod_keeps {z : State} (t : Tenant) (f : FmtA) (s : State) (h0 : Keeps none z s) : ∃ u, execMod t f s = .next u ∧ Keeps none z u := by
  unfold execMod
  try dsimp only
  repeat' (first | (with_reducible refine ⟨_, rfl, ?_⟩) | with_reducible assumption | with_reducible apply intInstr_keeps | with_reducible apply Keeps.ite | (with_reducible refine Keeps.foldl ?_ (fun _ _ _ => ?_)) | (fail_if_no_progress (with_reducible refine Keeps.frame ?_ rfl rfl rfl rfl)) | split)

theorem execNeg_keeps {z : State} (t : Tenant) (f : FmtA) (s : State) (h0 : Keeps none z s) : ∃ u, execNeg t f s = .next u ∧ Keeps none z u := by
  unfold execNeg
  try dsimp only
  repeat' (first | (with_reducible refine ⟨_, rfl, ?_⟩) | with_reducible assumption | with_reducible apply intInstr_keeps | with_reducible apply Keeps.ite | (with_reducible refine Keeps.foldl ?_ (fun _ _ _ => ?_)) | (fail_if_no_progress (with_reducible refine Keeps.frame ?_ rfl rfl rfl rfl)) | split)

theorem execMin_keeps {z : State} (t : Tenant) (f : FmtA) (s : State) (h0 : Keeps none z s) : ∃ u, execMin t f s = .next u ∧ Keeps none z u := by
  unfold execMin
  try dsimp only
  repeat' (first | (with_reducible refine ⟨_, rfl, ?_⟩) | with_reducible assumption | with_reducible apply intInstr_keeps | with_reducible apply Keeps.ite | (with_reducible refine Keeps.foldl ?_ (fun _ _ _ => ?_)) | (fail_if_no_progress (with_reducible refine Keeps.frame ?_ rfl rfl rfl rfl)) | split)

theorem execMax_keeps {z : State} (t : Tenant) (f : FmtA) (s : State) (h0 : Keeps none z s) : ∃ u, execMax t f s = .next u ∧ Keeps none z u := by
  unfold execMax
  try dsimp only
  repeat' (first | (with_reducible refine ⟨_, rfl, ?_⟩) | with_reducible assumption | with_reducible apply intInstr_keeps | with_reducible apply Keeps.ite | (with_reducible refine Keeps.foldl ?_ (fun _ _ _ => ?_)) | (fail_if_no_progress (with_reducible refine Keeps.frame ?_ rfl rfl rfl rfl)) | split)

theorem execCmpeq_keeps {z : State} (t : Tenant) (f : FmtA) (s : State) (h0 : Keeps none z s) : ∃ u, execCmpeq t f s = .next u ∧ Keeps none z u := by
  unfold execCmpeq
  try dsimp only
  repeat' (first | (with_reducible refine ⟨_, rfl, ?_⟩) | with_reducible assumption | with_reducible apply intInstr_keeps | with_reducible apply Keeps.ite | (with_reducible refine Keeps.foldl ?_ (fun _ _ _ => ?_)) | (fail_if_no_progress (with_reducible refine Keeps.frame ?_ rfl rfl rfl rfl)) | split)

theorem execCmpne_keeps {z : State} (t : Tenant) (f : FmtA) (s : State) (h0 : Keeps none z s) : ∃ u, execCmpne t f s = .next u ∧ Keeps none z u := by
  unfold execCmpne
  try dsimp only
  repeat' (first | (with_reducible refine ⟨_, rfl, ?_⟩) | with_reducible assumption | with_reducible apply intInstr_keeps | with_reducible apply Keeps.ite | (with_reducible refine Keeps.foldl ?_ (fun _ _ _ => ?_)) | (fail_if_no_progress (with_reducible refine Keeps.frame ?_ rfl rfl rfl rfl)) | split)

theorem execCmplt_keeps {z : State} (t : Tenant) (f : FmtA) (s : State) (h0 : Keeps none z s) : ∃ u, execCmplt t f s = .next u ∧ Keeps none z u := by
  unfold execCmplt
  try dsimp only
  repeat' (first | (with_reducible refine ⟨_, rfl, ?_⟩) | with_reducible assumption | with_reducible apply intInstr_keeps | with_reducible apply Keeps.ite | (with_reducible refine Keeps.foldl ?_ (fun _ _ _ => ?_)) | (fail_if_no_progress (with_reducible refine Keeps.frame ?_ rfl rfl rfl rfl)) | split)

theorem execCmple_keeps {z : State} (t : Tenant) (f : FmtA) (s : State) (h0 : Keeps none z s) : ∃ u, execCmple t f s = .next u ∧ Keeps none z u := by
  unfold execCmple
  try dsimp only
  repeat' (first | (with_reducible refine ⟨_, rfl, ?_⟩) | with_reducible assumption | with_reducible apply intInstr_keeps | with_reducible apply Keeps.ite | (with_reducible refine Keeps.foldl ?_ (fun _ _ _ => ?_)) | (fail_if_no_progress (with_reducible refine Keeps.frame ?_ rfl rfl rfl rfl)) | split)

end Sys2Proof.Machine
end

