-- ==== Sys2Proof/Laws/KeepsNetBase.lean ====
section
/-! SUPPORT. The operations of Machine/NetBase.lean keep the queue, the counters and the invariant. -/

set_option linter.unusedTactic false
set_option linter.unusedVariables false
set_option linter.unreachableTactic false

namespace Sys2Proof.Machine

theorem setCtrlService_keeps {ex : Option TileId} {z : State} (s : State) (h : HostCh) (v : CtrlService) (h0 : Keeps ex z s) : Keeps ex z (setCtrlService s h v) := by
  unfold setCtrlService
  try dsimp only
  repeat' (first | with_reducible assumption | with_reducible apply modEsc_keeps | with_reducible apply modCan_keeps | with_reducible apply Keeps.ite | (with_reducible refine Keeps.foldl ?_ (fun _ _ _ => ?_)) | (fail_if_no_progress (with_reducible refine Keeps.frame ?_ rfl rfl rfl rfl)) | split)

theorem moveTenant_keeps {ex : Option TileId} {z : State} (s : State) (old new : HostCh) (t : Tenant) (h0 : Keeps ex z s) : Keeps ex z (moveTenant s old new t) := by
  unfold moveTenant
  try dsimp only
  repeat' (first | with_reducible assumption | with_reducible apply modTen_keeps | with_reducible apply modSes_keeps | with_reducible apply emcyTo_keeps | with_reducible apply closeSes_keeps | with_reducible apply syncSes_keeps | with_reducible apply bootNode_keeps | with_reducible apply Keeps.ite | (with_reducible refine Keeps.foldl ?_ (fun _ _ _ => ?_)) | (fail_if_no_progress (with_reducible refine Keeps.frame ?_ rfl rfl rfl rfl)) | split)

theorem stopCtrl_keeps {ex : Option TileId} {z : State} (s : State) (h : HostCh) (h0 : Keeps ex z s) : Keeps ex z (stopCtrl s h) := by
  unfold stopCtrl
  try dsimp only
  repeat' (first | with_reducible assumption | with_reducible apply modEsc_keeps | with_reducible apply modCan_keeps | with_reducible apply Keeps.ite | (with_reducible refine Keeps.foldl ?_ (fun _ _ _ => ?_)) | (fail_if_no_progress (with_reducible refine Keeps.frame ?_ rfl rfl rfl rfl)) | split)

theorem ctrlFault_keeps {ex : Option TileId} {z : State} (s : State) (h : HostCh) (h0 : Keeps ex z s) : Keeps ex z (ctrlFault s h) := by
  unfold ctrlFault
  try dsimp only
  repeat' (first | with_reducible assumption | with_reducible apply logEvent_keeps | with_reducible apply partFault_keeps | with_reducible apply closeNi_keeps | with_reducible apply sendClear_keeps | with_reducible apply closeSes_keeps | with_reducible apply bootNode_keeps | with_reducible apply setCtrlService_keeps | with_reducible apply moveTenant_keeps | with_reducible apply stopCtrl_keeps | with_reducible apply Keeps.ite | (with_reducible refine Keeps.foldl ?_ (fun _ _ _ => ?_)) | (fail_if_no_progress (with_reducible refine Keeps.frame ?_ rfl rfl rfl rfl)) | split)

theorem execControllerFault_keeps {z : State} (h : HostCh) (s : State) (h0 : Keeps none z s) : ∃ u, execControllerFault h s = .next u ∧ Keeps none z u := by
  unfold execControllerFault
  try dsimp only
  repeat' (first | (with_reducible refine ⟨_, rfl, ?_⟩) | with_reducible assumption | with_reducible apply takeMark_keeps | with_reducible apply ctrlFault_keeps | with_reducible apply Keeps.ite | (with_reducible refine Keeps.foldl ?_ (fun _ _ _ => ?_)) | (fail_if_no_progress (with_reducible refine Keeps.frame ?_ rfl rfl rfl rfl)) | split)

end Sys2Proof.Machine
end

