-- ==== Sys2Proof/Laws/KeepsStarts.lean ====
section
/-! SUPPORT. The operations of Machine/Starts.lean keep the queue, the counters and the invariant. -/

set_option linter.unusedTactic false
set_option linter.unusedVariables false
set_option linter.unreachableTactic false

namespace Sys2Proof.Machine

theorem setStart_keeps {ex : Option TileId} {z : State} (s : State) (f : Starts → Starts) (h0 : Keeps ex z s) : Keeps ex z (setStart s f) := by
  unfold setStart
  try dsimp only
  repeat' (first | with_reducible assumption | with_reducible apply Keeps.ite | (with_reducible refine Keeps.foldl ?_ (fun _ _ _ => ?_)) | (fail_if_no_progress (with_reducible refine Keeps.frame ?_ rfl rfl rfl rfl)) | split)

theorem resetArray_keeps {ex : Option TileId} {z : State} (s : State) (h0 : Keeps ex z s) : Keeps ex z (resetArray s) := by
  unfold resetArray
  try dsimp only
  repeat' (first | with_reducible assumption | with_reducible apply modTile_keeps | with_reducible apply modSqr_keeps | with_reducible apply modTen_keeps | with_reducible apply polderOff_keeps | with_reducible apply dropCtx_keeps | with_reducible apply tileDrained_keeps | with_reducible apply seqDrained_keeps | with_reducible apply Keeps.ite | (with_reducible refine Keeps.foldl ?_ (fun _ _ _ => ?_)) | (fail_if_no_progress (with_reducible refine Keeps.frame ?_ rfl rfl rfl rfl)) | (exact fun h => h) | (exact fun _ h => h) | split)

theorem resetEngines_keeps {ex : Option TileId} {z : State} (s : State) (h0 : Keeps ex z s) : Keeps ex z (resetEngines s) := by
  unfold resetEngines
  try dsimp only
  repeat' (first | with_reducible assumption | with_reducible apply modCam_keeps | with_reducible apply modNi_keeps | with_reducible apply modRtr_keeps | with_reducible apply stopCtrl_keeps | with_reducible apply Keeps.ite | (with_reducible refine Keeps.foldl ?_ (fun _ _ _ => ?_)) | (fail_if_no_progress (with_reducible refine Keeps.frame ?_ rfl rfl rfl rfl)) | split)

theorem dropLoad_keeps {ex : Option TileId} {z : State} (s : State) (h0 : Keeps ex z s) : Keeps ex z (dropLoad s) := by
  unfold dropLoad
  try dsimp only
  repeat' (first | with_reducible assumption | with_reducible apply setPending_keeps | with_reducible apply Keeps.ite | (with_reducible refine Keeps.foldl ?_ (fun _ _ _ => ?_)) | (fail_if_no_progress (with_reducible refine Keeps.frame ?_ rfl rfl rfl rfl)) | split)

theorem stopFabric_keeps {ex : Option TileId} {z : State} (s : State) (h0 : Keeps ex z s) : Keeps ex z (stopFabric s) := by
  unfold stopFabric
  try dsimp only
  repeat' (first | with_reducible assumption | with_reducible apply fallLines_keeps | with_reducible apply Keeps.ite | (with_reducible refine Keeps.foldl ?_ (fun _ _ _ => ?_)) | (fail_if_no_progress (with_reducible refine Keeps.frame ?_ rfl rfl rfl rfl)) | split)

theorem dropUpdate_keeps {ex : Option TileId} {z : State} (s : State) (h0 : Keeps ex z s) : Keeps ex z (dropUpdate s) := by
  unfold dropUpdate
  try dsimp only
  repeat' (first | with_reducible assumption | with_reducible apply setPending_keeps | with_reducible apply setFw_keeps | with_reducible apply Keeps.ite | (with_reducible refine Keeps.foldl ?_ (fun _ _ _ => ?_)) | (fail_if_no_progress (with_reducible refine Keeps.frame ?_ rfl rfl rfl rfl)) | split)

theorem assertReset_keeps {ex : Option TileId} {z : State} (s : State) (cause : Byte) (h0 : Keeps ex z s) : Keeps ex z (assertReset s cause) := by
  unfold assertReset
  try dsimp only
  repeat' (first | with_reducible assumption | with_reducible apply setClk_keeps | with_reducible apply closeAll_keeps | with_reducible apply setStart_keeps | with_reducible apply resetArray_keeps | with_reducible apply resetEngines_keeps | with_reducible apply dropLoad_keeps | with_reducible apply stopFabric_keeps | with_reducible apply dropUpdate_keeps | with_reducible apply Keeps.ite | (with_reducible refine Keeps.foldl ?_ (fun _ _ _ => ?_)) | (fail_if_no_progress (with_reducible refine Keeps.frame ?_ rfl rfl rfl rfl)) | (intro _; rfl) | split)

theorem persistMarks_keeps {ex : Option TileId} {z : State} (s : State) (h0 : Keeps ex z s) : Keeps ex z (persistMarks s) := by
  unfold persistMarks
  try dsimp only
  repeat' (first | with_reducible assumption | with_reducible apply modTen_keeps | with_reducible apply Keeps.ite | (with_reducible refine Keeps.foldl ?_ (fun _ _ _ => ?_)) | (fail_if_no_progress (with_reducible refine Keeps.frame ?_ rfl rfl rfl rfl)) | split)

theorem passUs_keeps {ex : Option TileId} {z : State} (s : State) (us : Nat) (h0 : Keeps ex z s) : Keeps ex z (passUs s us) := by
  unfold passUs
  try dsimp only
  repeat' (first | with_reducible assumption | with_reducible apply bump_keeps | with_reducible apply Keeps.ite | (with_reducible refine Keeps.foldl ?_ (fun _ _ _ => ?_)) | (fail_if_no_progress (with_reducible refine Keeps.frame ?_ rfl rfl rfl rfl)) | split)

theorem logStart_keeps {ex : Option TileId} {z : State} (s : State) (kind cause : Byte) (us : Nat) (h0 : Keeps ex z s) : Keeps ex z (logStart s kind cause us) := by
  unfold logStart
  try dsimp only
  repeat' (first | with_reducible assumption | with_reducible apply logEvent_keeps | with_reducible apply Keeps.ite | (with_reducible refine Keeps.foldl ?_ (fun _ _ _ => ?_)) | (fail_if_no_progress (with_reducible refine Keeps.frame ?_ rfl rfl rfl rfl)) | split)

theorem chooseRef_keeps {ex : Option TileId} {z : State} (s : State) (pref : Nat) (h0 : Keeps ex z s) : Keeps ex z (chooseRef s pref) := by
  unfold chooseRef
  try dsimp only
  repeat' (first | with_reducible assumption | with_reducible apply setClk_keeps | with_reducible apply Keeps.ite | (with_reducible refine Keeps.foldl ?_ (fun _ _ _ => ?_)) | (fail_if_no_progress (with_reducible refine Keeps.frame ?_ rfl rfl rfl rfl)) | (intro _; rfl) | split)

theorem startHost_keeps {ex : Option TileId} {z : State} (s : State) (h0 : Keeps ex z s) : Keeps ex z (startHost s) := by
  unfold startHost
  try dsimp only
  repeat' (first | with_reducible assumption | with_reducible apply modCam_keeps | with_reducible apply syncSes_keeps | with_reducible apply bootNode_keeps | with_reducible apply bindChannel_keeps | with_reducible apply Keeps.ite | (with_reducible refine Keeps.foldl ?_ (fun _ _ _ => ?_)) | (fail_if_no_progress (with_reducible refine Keeps.frame ?_ rfl rfl rfl rfl)) | split)

theorem endStart_keeps {ex : Option TileId} {z : State} (s : State) (kind cause : Byte) (us : Nat) (h0 : Keeps ex z s) : Keeps ex z (endStart s kind cause us) := by
  unfold endStart
  try dsimp only
  repeat' (first | with_reducible assumption | with_reducible apply fabEdge_keeps | with_reducible apply kickAll_keeps | with_reducible apply setStart_keeps | with_reducible apply Keeps.ite | (with_reducible refine Keeps.foldl ?_ (fun _ _ _ => ?_)) | (fail_if_no_progress (with_reducible refine Keeps.frame ?_ rfl rfl rfl rfl)) | split)

theorem safeShell_keeps {ex : Option TileId} {z : State} (s : State) (ownOk : Bool) (h0 : Keeps ex z s) : Keeps ex z (safeShell s ownOk) := by
  unfold safeShell
  try dsimp only
  repeat' (first | with_reducible assumption | with_reducible apply modTen_keeps | with_reducible apply emergency_keeps | with_reducible apply syncSes_keeps | with_reducible apply bootNode_keeps | with_reducible apply bindChannel_keeps | with_reducible apply setStart_keeps | with_reducible apply Keeps.ite | (with_reducible refine Keeps.foldl ?_ (fun _ _ _ => ?_)) | (fail_if_no_progress (with_reducible refine Keeps.frame ?_ rfl rfl rfl rfl)) | split)

theorem failStart_keeps {ex : Option TileId} {z : State} (s : State) (step : Nat) (ownOk : Bool) (h0 : Keeps ex z s) : Keeps ex z (failStart s step ownOk) := by
  unfold failStart
  try dsimp only
  repeat' (first | with_reducible assumption | with_reducible apply logEvent_keeps | with_reducible apply setStart_keeps | with_reducible apply safeShell_keeps | with_reducible apply Keeps.ite | (with_reducible refine Keeps.foldl ?_ (fun _ _ _ => ?_)) | (fail_if_no_progress (with_reducible refine Keeps.frame ?_ rfl rfl rfl rfl)) | split)

/-- The fold of `coldBase` over the tiles. -/
theorem coldTiles_get (g : Nat → Tile) (l : List Nat) (m : SMap Tile) (k : Nat) (h : k ∈ l ∨ SMap.get Tile.initial m k = g k) :
    SMap.get Tile.initial (l.foldl (fun m k => SMap.set Tile.initial m k (g k)) m) k = g k := by
  induction l generalizing m with
  | nil => exact h.elim (fun h => by cases h) id
  | cons a r ih =>
    refine ih _ ?_
    by_cases hk : k ∈ r
    · exact Or.inl hk
    · refine Or.inr ?_
      rw [SMap.get_set]
      split
      · rename_i e; rw [e]
      · rename_i e
        rcases h with h | h
        · rcases List.mem_cons.mp h with h | h
          · exact absurd h e
          · exact absurd h hk
        · exact h

theorem coldBase_keeps {z : State} (s : State) (cause : Byte) (r : StartReport) (h0 : Keeps none z s) :
    Keeps none z (coldBase s cause r) := by
  have hp : ∀ n, physOf (coldBase s cause r) n = physOf s n := fun n => rfl
  have ht : ∀ p : TileId, fillsOk (tile s p.val) → fillsOk (tile (coldBase s cause r) p.val) := fun p h => by
    have e : tile (coldBase s cause r) p.val = coldTile (tile s p.val) :=
      coldTiles_get (fun k => coldTile (tile s k)) (List.range 17) [] p.val (Or.inl (List.mem_range.mpr p.isLt))
    rw [e]
    rcases h with h | h <;> simp [fillsOk, coldTile, h]
  refine h0.trans rfl (fun _ _ => Nat.le_refl _) fun i =>
    ⟨⟨rfl, rfl, rfl, SMap.wfFrom_filter _ _ _ i.1.2.2.2.1, SMap.wfFrom_filter _ _ _ i.1.2.2.2.2.1, rfl, rfl, rfl⟩,
      i.2.1, ⟨?_, i.2.2.1.2⟩, fun m n p hm hn h1 h2 => ?_, fun n p hn h e => ?_⟩
  · have h : (coldBase s cause r).obs.log = State.reset.obs.log := rfl
    rw [h]
    decide
  · exact i.2.2.2.1 m n p hm hn (by rwa [← hp]) (by rwa [← hp])
  · exact ht p (i.2.2.2.2 n p hn (by rwa [← hp]) e)

theorem measureItem_keeps {ex : Option TileId} {z : State} (s : State) (kind : Nat) (ctr : Word) (d : Bytes) (h0 : Keeps ex z s) : Keeps ex z (measureItem s kind ctr d) := by
  unfold measureItem
  try dsimp only
  repeat' (first | with_reducible assumption | with_reducible apply measure_keeps | with_reducible apply Keeps.ite | (with_reducible refine Keeps.foldl ?_ (fun _ _ _ => ?_)) | (fail_if_no_progress (with_reducible refine Keeps.frame ?_ rfl rfl rfl rfl)) | split)

theorem fwInUse_keeps {ex : Option TileId} {z : State} (s : State) (h0 : Keeps ex z s) : Keeps ex z (fwInUse s) := by
  unfold fwInUse
  try dsimp only
  repeat' (first | with_reducible assumption | with_reducible apply setFw_keeps | with_reducible apply Keeps.ite | (with_reducible refine Keeps.foldl ?_ (fun _ _ _ => ?_)) | (fail_if_no_progress (with_reducible refine Keeps.frame ?_ rfl rfl rfl rfl)) | split)

theorem coldImages_keeps {ex : Option TileId} {z : State} (s : State) (ok : Bool) (h0 : Keeps ex z s) : Keeps ex z (coldImages s ok) := by
  unfold coldImages
  try dsimp only
  repeat' (first | with_reducible assumption | with_reducible apply logEvent_keeps | with_reducible apply setFw_keeps | with_reducible apply fwStored_keeps | with_reducible apply measureItem_keeps | with_reducible apply fwInUse_keeps | with_reducible apply Keeps.ite | (with_reducible refine Keeps.foldl ?_ (fun _ _ _ => ?_)) | (fail_if_no_progress (with_reducible refine Keeps.frame ?_ rfl rfl rfl rfl)) | split)

theorem coldRouters_keeps {ex : Option TileId} {z : State} (s : State) (bad : List RouterId) (h0 : Keeps ex z s) : Keeps ex z (coldRouters s bad) := by
  unfold coldRouters
  try dsimp only
  repeat' (first | with_reducible assumption | with_reducible apply modRtr_keeps | with_reducible apply logEvent_keeps | with_reducible apply setNiSt_keeps | with_reducible apply Keeps.ite | (with_reducible refine Keeps.foldl ?_ (fun _ _ _ => ?_)) | (fail_if_no_progress (with_reducible refine Keeps.frame ?_ rfl rfl rfl rfl)) | split)

theorem coldMarch_keeps {ex : Option TileId} {z : State} (s : State) (r : StartReport) (h0 : Keeps ex z s) : Keeps ex z (coldMarch s r) := by
  unfold coldMarch
  try dsimp only
  repeat' (first | with_reducible assumption | with_reducible apply modTile_keeps | with_reducible apply modMemSt_keeps | with_reducible apply logEvent_keeps | with_reducible apply setNiSt_keeps | with_reducible apply setTileSvc_keeps | with_reducible apply tileMarched_keeps | with_reducible apply Keeps.ite | (with_reducible refine Keeps.foldl ?_ (fun _ _ _ => ?_)) | (fail_if_no_progress (with_reducible refine Keeps.frame ?_ rfl rfl rfl rfl)) | (exact fun h => h) | (exact fun _ h => h) | exact Or.inl (Or.inr rfl) | exact Or.inl (Or.inl rfl) | split)

theorem coldWcs_keeps {ex : Option TileId} {z : State} (s0 : State) (r : StartReport) (h0 : Keeps ex z s0) : Keeps ex z (coldWcs s0 r) := by
  unfold coldWcs
  try dsimp only
  repeat' (first | with_reducible assumption | with_reducible apply modSqr_keeps | with_reducible apply setNiSt_keeps | with_reducible apply setSeqSvc_keeps | with_reducible apply measureItem_keeps | with_reducible apply Keeps.ite | (with_reducible refine Keeps.foldl ?_ (fun _ _ _ => ?_)) | (fail_if_no_progress (with_reducible refine Keeps.frame ?_ rfl rfl rfl rfl)) | split)

theorem coldFabric_keeps {ex : Option TileId} {z : State} (s : State) (okA okB : Bool) (h0 : Keeps ex z s) : Keeps ex z (coldFabric s okA okB) := by
  unfold coldFabric
  try dsimp only
  repeat' (first | with_reducible assumption | with_reducible apply measure_keeps | with_reducible apply measureNone_keeps | with_reducible apply measureRegion_keeps | with_reducible apply releaseLoad_keeps | with_reducible apply resample_keeps | with_reducible apply measureItem_keeps | with_reducible apply Keeps.ite | (with_reducible refine Keeps.foldl ?_ (fun _ _ _ => ?_)) | (fail_if_no_progress (with_reducible refine Keeps.frame ?_ rfl rfl rfl rfl)) | split)

theorem coldAdc_keeps {ex : Option TileId} {z : State} (s : State) (bad : List GroupId) (h0 : Keeps ex z s) : Keeps ex z (coldAdc s bad) := by
  unfold coldAdc
  try dsimp only
  repeat' (first | with_reducible assumption | with_reducible apply groupFault_keeps | with_reducible apply Keeps.ite | (with_reducible refine Keeps.foldl ?_ (fun _ _ _ => ?_)) | (fail_if_no_progress (with_reducible refine Keeps.frame ?_ rfl rfl rfl rfl)) | split)

theorem coldMap_keeps {z : State} (s : State) (h0 : Keeps none z s) : Keeps none z (coldMap s) := by
  unfold coldMap
  refine Keeps.foldl h0 fun u n h => Keeps.ite ?_ h
  split
  · rename_i p hp
    exact logEvent_keeps _ _ _ _ _ _ _ (Keeps.refill p n.val _ h (by simpa [spareTile] using List.find?_some hp) (Or.inl rfl))
  · exact Keeps.unfill n.val h

theorem coldBind_keeps {ex : Option TileId} {z : State} (s : State) (t : Tenant) (h0 : Keeps ex z s) : Keeps ex z (coldBind s t) := by
  unfold coldBind
  try dsimp only
  repeat' (first | with_reducible assumption | with_reducible apply modSqr_keeps | with_reducible apply modTen_keeps | with_reducible apply Keeps.ite | (with_reducible refine Keeps.foldl ?_ (fun _ _ _ => ?_)) | (fail_if_no_progress (with_reducible refine Keeps.frame ?_ rfl rfl rfl rfl)) | split)

theorem coldRecords_keeps {z : State} (s : State) (bad : List Tenant) (h0 : Keeps none z s) : Keeps none z (coldRecords s bad) := by
  unfold coldRecords
  try dsimp only
  repeat' (first | with_reducible assumption | with_reducible apply modSqr_keeps | with_reducible apply modTen_keeps | with_reducible apply logEvent_keeps | with_reducible apply measure_keeps | with_reducible apply measureNone_keeps | with_reducible apply coldMap_keeps | with_reducible apply coldBind_keeps | with_reducible apply Keeps.ite | (with_reducible refine Keeps.foldl ?_ (fun _ _ _ => ?_)) | (fail_if_no_progress (with_reducible refine Keeps.frame ?_ rfl rfl rfl rfl)) | split)

theorem coldCtrls_keeps {ex : Option TileId} {z : State} (s0 : State) (rmii : List CtrlId) (bad : List HostCh) (h0 : Keeps ex z s0) : Keeps ex z (coldCtrls s0 rmii bad) := by
  unfold coldCtrls
  try dsimp only
  repeat' (first | with_reducible assumption | with_reducible apply modEsc_keeps | with_reducible apply logEvent_keeps | with_reducible apply partFault_keeps | with_reducible apply setCtrlService_keeps | with_reducible apply Keeps.ite | (with_reducible refine Keeps.foldl ?_ (fun _ _ _ => ?_)) | (fail_if_no_progress (with_reducible refine Keeps.frame ?_ rfl rfl rfl rfl)) | split)

theorem coldEnd_keeps {z : State} (s : State) (cause : Byte) (r : StartReport) (us : Nat) (h0 : Keeps none z s) : Keeps none z (coldEnd s cause r us) := by
  unfold coldEnd
  try dsimp only
  repeat' (first | with_reducible assumption | with_reducible apply startHost_keeps | with_reducible apply endStart_keeps | with_reducible apply failStart_keeps | with_reducible apply coldRouters_keeps | with_reducible apply coldMarch_keeps | with_reducible apply coldWcs_keeps | with_reducible apply coldFabric_keeps | with_reducible apply coldAdc_keeps | with_reducible apply coldRecords_keeps | with_reducible apply coldCtrls_keeps | with_reducible apply Keeps.ite | (with_reducible refine Keeps.foldl ?_ (fun _ _ _ => ?_)) | (fail_if_no_progress (with_reducible refine Keeps.frame ?_ rfl rfl rfl rfl)) | split)

theorem coldStart_keeps {z : State} (s : State) (cause : Byte) (r : StartReport) (h0 : Keeps none z s) :
    Keeps none z (coldStart s cause r) := by
  have h1 : ∀ us, Keeps none z (passUs (chooseRef (coldBase s cause r) s.clk.refSelect.toNat) us) := fun us =>
    passUs_keeps _ _ (chooseRef_keeps _ _ (coldBase_keeps _ _ _ h0))
  have h2 : ∀ us, Keeps none z (logStart { passUs (chooseRef (coldBase s cause r) s.clk.refSelect.toNat) us with
      obs := { (passUs (chooseRef (coldBase s cause r) s.clk.refSelect.toNat) us).obs with log := [], logNewest := 0 } }
      0 cause us) := fun us => logStart_keeps _ _ _ _ (Keeps.emptyLog (h1 us))
  unfold coldStart
  dsimp only
  refine Keeps.ite (failStart_keeps _ _ _ (h2 _)) (Keeps.ite (failStart_keeps _ _ _ (coldImages_keeps _ _ (h2 _))) ?_)
  have h4 := fun f => setStart_keeps _ f (coldImages_keeps _ r.imagesVerified (h2 (startUs s 1600000)))
  exact Keeps.ite (failStart_keeps _ _ _ (coldMarch_keeps _ _ (coldRouters_keeps _ _ (Keeps.frame (h4 _) rfl rfl rfl rfl))))
    (coldEnd_keeps _ _ _ _ (Keeps.frame (h4 _) rfl rfl rfl rfl))

theorem warmCounters_keeps {ex : Option TileId} {z : State} (s : State) (h0 : Keeps ex z s) : Keeps ex z (warmCounters s) := by
  unfold warmCounters
  try dsimp only
  repeat' (first | with_reducible assumption | with_reducible apply modTen_keeps | with_reducible apply modCam_keeps | with_reducible apply modEsc_keeps | with_reducible apply Keeps.ite | (with_reducible refine Keeps.foldl ?_ (fun _ _ _ => ?_)) | (fail_if_no_progress (with_reducible refine Keeps.frame ?_ rfl rfl rfl rfl)) | split)

theorem warmWcs_keeps {ex : Option TileId} {z : State} (s : State) (r : StartReport) (h0 : Keeps ex z s) : Keeps ex z (warmWcs s r) := by
  unfold warmWcs
  try dsimp only
  repeat' (first | with_reducible assumption | with_reducible apply modSqr_keeps | with_reducible apply patchStop_keeps | with_reducible apply Keeps.ite | (with_reducible refine Keeps.foldl ?_ (fun _ _ _ => ?_)) | (fail_if_no_progress (with_reducible refine Keeps.frame ?_ rfl rfl rfl rfl)) | split)

theorem warmFabric_keeps {ex : Option TileId} {z : State} (s : State) (lost : Bool) (r : StartReport) (h0 : Keeps ex z s) : Keeps ex z (warmFabric s lost r) := by
  unfold warmFabric
  try dsimp only
  repeat' (first | with_reducible assumption | with_reducible apply retargetFab_keeps | with_reducible apply measureRegion_keeps | with_reducible apply releaseLoad_keeps | with_reducible apply restartFabric_keeps | with_reducible apply coldFabric_keeps | with_reducible apply Keeps.ite | (with_reducible refine Keeps.foldl ?_ (fun _ _ _ => ?_)) | (fail_if_no_progress (with_reducible refine Keeps.frame ?_ rfl rfl rfl rfl)) | split)

theorem warmInputs_keeps {ex : Option TileId} {z : State} (s : State) (h0 : Keeps ex z s) : Keeps ex z (warmInputs s) := by
  unfold warmInputs
  try dsimp only
  repeat' (first | with_reducible assumption | with_reducible apply abortOrders_keeps | with_reducible apply Keeps.ite | (with_reducible refine Keeps.foldl ?_ (fun _ _ _ => ?_)) | (fail_if_no_progress (with_reducible refine Keeps.frame ?_ rfl rfl rfl rfl)) | split)

theorem warmCtrls_keeps {ex : Option TileId} {z : State} (s : State) (bad : List HostCh) (h0 : Keeps ex z s) : Keeps ex z (warmCtrls s bad) := by
  unfold warmCtrls
  try dsimp only
  repeat' (first | with_reducible assumption | with_reducible apply logEvent_keeps | with_reducible apply partFault_keeps | with_reducible apply setCtrlService_keeps | with_reducible apply Keeps.ite | (with_reducible refine Keeps.foldl ?_ (fun _ _ _ => ?_)) | (fail_if_no_progress (with_reducible refine Keeps.frame ?_ rfl rfl rfl rfl)) | split)

theorem wakeRunning_keeps {ex : Option TileId} {z : State} (s : State) (h0 : Keeps ex z s) : Keeps ex z (wakeRunning s) := by
  unfold wakeRunning
  try dsimp only
  repeat' (first | with_reducible assumption | with_reducible apply wakeTenant_keeps | with_reducible apply Keeps.ite | (with_reducible refine Keeps.foldl ?_ (fun _ _ _ => ?_)) | (fail_if_no_progress (with_reducible refine Keeps.frame ?_ rfl rfl rfl rfl)) | split)

theorem warmEnd_keeps {ex : Option TileId} {z : State} (s : State) (cause : Byte) (r : StartReport) (skips : Byte) (lost : Bool) (us : Nat) (h0 : Keeps ex z s) : Keeps ex z (warmEnd s cause r skips lost us) := by
  unfold warmEnd
  try dsimp only
  repeat' (first | with_reducible assumption | with_reducible apply memFault_keeps | with_reducible apply setStart_keeps | with_reducible apply logStart_keeps | with_reducible apply chooseRef_keeps | with_reducible apply startHost_keeps | with_reducible apply endStart_keeps | with_reducible apply failStart_keeps | with_reducible apply warmCounters_keeps | with_reducible apply warmWcs_keeps | with_reducible apply warmFabric_keeps | with_reducible apply warmInputs_keeps | with_reducible apply warmCtrls_keeps | with_reducible apply wakeRunning_keeps | with_reducible apply Keeps.ite | (with_reducible refine Keeps.foldl ?_ (fun _ _ _ => ?_)) | (fail_if_no_progress (with_reducible refine Keeps.frame ?_ rfl rfl rfl rfl)) | split)

theorem warmStart_keeps {z : State} (s : State) (cause : Byte) (r : StartReport) (h0 : Keeps none z s) : Keeps none z (warmStart s cause r) := by
  unfold warmStart
  try dsimp only
  repeat' (first | with_reducible assumption | with_reducible apply setStart_keeps | with_reducible apply passUs_keeps | with_reducible apply failStart_keeps | with_reducible apply coldImages_keeps | with_reducible apply coldStart_keeps | with_reducible apply warmEnd_keeps | with_reducible apply Keeps.ite | (with_reducible refine Keeps.foldl ?_ (fun _ _ _ => ?_)) | (fail_if_no_progress (with_reducible refine Keeps.frame ?_ rfl rfl rfl rfl)) | split)

theorem releaseHeld_keeps {z : State} (s : State) (r : StartReport) (h0 : Keeps none z s) : Keeps none z (releaseHeld s r) := by
  unfold releaseHeld
  try dsimp only
  repeat' (first | with_reducible assumption | with_reducible apply coldStart_keeps | with_reducible apply warmStart_keeps | with_reducible apply Keeps.ite | (with_reducible refine Keeps.foldl ?_ (fun _ _ _ => ?_)) | (fail_if_no_progress (with_reducible refine Keeps.frame ?_ rfl rfl rfl rfl)) | split)

theorem holdReset_keeps {ex : Option TileId} {z : State} (s : State) (cause : Byte) (h0 : Keeps ex z s) : Keeps ex z (holdReset s cause) := by
  unfold holdReset
  try dsimp only
  repeat' (first | with_reducible assumption | with_reducible apply assertReset_keeps | with_reducible apply safeShell_keeps | with_reducible apply Keeps.ite | (with_reducible refine Keeps.foldl ?_ (fun _ _ _ => ?_)) | (fail_if_no_progress (with_reducible refine Keeps.frame ?_ rfl rfl rfl rfl)) | split)

theorem startNow_keeps {z : State} (s : State) (cause : Byte) (r : StartReport) (h0 : Keeps none z s) : Keeps none z (startNow s cause r) := by
  unfold startNow
  try dsimp only
  repeat' (first | with_reducible assumption | with_reducible apply assertReset_keeps | with_reducible apply safeShell_keeps | with_reducible apply coldStart_keeps | with_reducible apply warmStart_keeps | with_reducible apply Keeps.ite | (with_reducible refine Keeps.foldl ?_ (fun _ _ _ => ?_)) | (fail_if_no_progress (with_reducible refine Keeps.frame ?_ rfl rfl rfl rfl)) | split)

theorem coldCommand_keeps {z : State} (s : State) (r : StartReport) (h0 : Keeps none z s) : Keeps none z (coldCommand s r) := by
  unfold coldCommand
  try dsimp only
  repeat' (first | with_reducible assumption | with_reducible apply emergency_keeps | with_reducible apply setStart_keeps | with_reducible apply assertReset_keeps | with_reducible apply persistMarks_keeps | with_reducible apply safeShell_keeps | with_reducible apply coldStart_keeps | with_reducible apply Keeps.ite | (with_reducible refine Keeps.foldl ?_ (fun _ _ _ => ?_)) | (fail_if_no_progress (with_reducible refine Keeps.frame ?_ rfl rfl rfl rfl)) | split)

theorem applyReset_keeps {z : State} (s : State) (v : Byte) (r : StartReport) (h0 : Keeps none z s) : Keeps none z (applyReset s v r).2 := by
  unfold applyReset
  try dsimp only
  repeat' (first | with_reducible assumption | with_reducible apply safeShell_keeps | with_reducible apply startNow_keeps | with_reducible apply coldCommand_keeps | with_reducible apply Keeps.ite | (with_reducible refine Keeps.foldl ?_ (fun _ _ _ => ?_)) | (fail_if_no_progress (with_reducible refine Keeps.frame ?_ rfl rfl rfl rfl)) | split)

theorem execPowerOn_keeps {z : State} (r : StartReport) (s : State) (h0 : Keeps none z s) : ∃ u, execPowerOn r s = .next u ∧ Keeps none z u := by
  unfold execPowerOn
  try dsimp only
  repeat' (first | (with_reducible refine ⟨_, rfl, ?_⟩) | with_reducible assumption | with_reducible apply takeMark_keeps | with_reducible apply assertReset_keeps | with_reducible apply coldStart_keeps | with_reducible apply Keeps.ite | (with_reducible refine Keeps.foldl ?_ (fun _ _ _ => ?_)) | (fail_if_no_progress (with_reducible refine Keeps.frame ?_ rfl rfl rfl rfl)) | split)

theorem execWatchdogExpiry_keeps {z : State} (r : StartReport) (s : State) (h0 : Keeps none z s) : ∃ u, execWatchdogExpiry r s = .next u ∧ Keeps none z u := by
  unfold execWatchdogExpiry
  try dsimp only
  repeat' (first | (with_reducible refine ⟨_, rfl, ?_⟩) | with_reducible assumption | with_reducible apply takeMark_keeps | with_reducible apply startNow_keeps | with_reducible apply Keeps.ite | (with_reducible refine Keeps.foldl ?_ (fun _ _ _ => ?_)) | (fail_if_no_progress (with_reducible refine Keeps.frame ?_ rfl rfl rfl rfl)) | split)

theorem execRstNLow_keeps {z : State} (s : State) (h0 : Keeps none z s) : ∃ u, execRstNLow s = .next u ∧ Keeps none z u := by
  unfold execRstNLow
  try dsimp only
  repeat' (first | (with_reducible refine ⟨_, rfl, ?_⟩) | with_reducible assumption | with_reducible apply takeMark_keeps | with_reducible apply setStart_keeps | with_reducible apply holdReset_keeps | with_reducible apply Keeps.ite | (with_reducible refine Keeps.foldl ?_ (fun _ _ _ => ?_)) | (fail_if_no_progress (with_reducible refine Keeps.frame ?_ rfl rfl rfl rfl)) | split)

theorem execRstNRise_keeps {z : State} (r : StartReport) (s : State) (h0 : Keeps none z s) : ∃ u, execRstNRise r s = .next u ∧ Keeps none z u := by
  unfold execRstNRise
  try dsimp only
  repeat' (first | (with_reducible refine ⟨_, rfl, ?_⟩) | with_reducible assumption | with_reducible apply takeMark_keeps | with_reducible apply setStart_keeps | with_reducible apply releaseHeld_keeps | with_reducible apply Keeps.ite | (with_reducible refine Keeps.foldl ?_ (fun _ _ _ => ?_)) | (fail_if_no_progress (with_reducible refine Keeps.frame ?_ rfl rfl rfl rfl)) | split)

theorem execColdStartTimeout_keeps {z : State} (step : Fin 10) (s : State) (h0 : Keeps none z s) : ∃ u, execColdStartTimeout step s = .next u ∧ Keeps none z u := by
  unfold execColdStartTimeout
  try dsimp only
  repeat' (first | (with_reducible refine ⟨_, rfl, ?_⟩) | with_reducible assumption | with_reducible apply takeMark_keeps | with_reducible apply failStart_keeps | with_reducible apply Keeps.ite | (with_reducible refine Keeps.foldl ?_ (fun _ _ _ => ?_)) | (fail_if_no_progress (with_reducible refine Keeps.frame ?_ rfl rfl rfl rfl)) | split)

theorem execColdStartRetry_keeps {z : State} (r : StartReport) (s : State) (h0 : Keeps none z s) : ∃ u, execColdStartRetry r s = .next u ∧ Keeps none z u := by
  unfold execColdStartRetry
  try dsimp only
  repeat' (first | (with_reducible refine ⟨_, rfl, ?_⟩) | with_reducible assumption | with_reducible apply takeMark_keeps | with_reducible apply coldStart_keeps | with_reducible apply Keeps.ite | (with_reducible refine Keeps.foldl ?_ (fun _ _ _ => ?_)) | (fail_if_no_progress (with_reducible refine Keeps.frame ?_ rfl rfl rfl rfl)) | split)

end Sys2Proof.Machine
end

