-- ==== Sys2Proof/Laws/KeepsSupplies.lean ====
section
/-! SUPPORT. The operations of Machine/Supplies.lean keep the queue, the counters and the invariant. -/

set_option linter.unusedTactic false
set_option linter.unusedVariables false
set_option linter.unreachableTactic false

namespace Sys2Proof.Machine

theorem setSup_keeps {ex : Option TileId} {z : State} (s : State) (f : Supplies → Supplies) (h0 : Keeps ex z s) : Keeps ex z (setSup s f) := by
  unfold setSup
  try dsimp only
  repeat' (first | with_reducible assumption | with_reducible apply Keeps.ite | (with_reducible refine Keeps.foldl ?_ (fun _ _ _ => ?_)) | (fail_if_no_progress (with_reducible refine Keeps.frame ?_ rfl rfl rfl rfl)) | split)

theorem setVcore_keeps {ex : Option TileId} {z : State} (s : State) (v : VcoreSt) (h0 : Keeps ex z s) : Keeps ex z (setVcore s v) := by
  unfold setVcore
  try dsimp only
  repeat' (first | with_reducible assumption | with_reducible apply logEvent_keeps | with_reducible apply setSup_keeps | with_reducible apply Keeps.ite | (with_reducible refine Keeps.foldl ?_ (fun _ _ _ => ?_)) | (fail_if_no_progress (with_reducible refine Keeps.frame ?_ rfl rfl rfl rfl)) | split)

theorem execVcoreWarning_keeps {z : State} (s : State) (h0 : Keeps none z s) : ∃ u, execVcoreWarning s = .next u ∧ Keeps none z u := by
  unfold execVcoreWarning
  try dsimp only
  repeat' (first | (with_reducible refine ⟨_, rfl, ?_⟩) | with_reducible assumption | with_reducible apply tideFault_keeps | with_reducible apply emergency_keeps | with_reducible apply takeMark_keeps | with_reducible apply recompute_keeps | with_reducible apply setSup_keeps | with_reducible apply setVcore_keeps | with_reducible apply Keeps.ite | (with_reducible refine Keeps.foldl ?_ (fun _ _ _ => ?_)) | (fail_if_no_progress (with_reducible refine Keeps.frame ?_ rfl rfl rfl rfl)) | split)

theorem execVcoreWarningHoldExpiry_keeps {z : State} (s : State) (h0 : Keeps none z s) : ∃ u, execVcoreWarningHoldExpiry s = .next u ∧ Keeps none z u := by
  unfold execVcoreWarningHoldExpiry
  try dsimp only
  repeat' (first | (with_reducible refine ⟨_, rfl, ?_⟩) | with_reducible assumption | with_reducible apply fabEdge_keeps | with_reducible apply setVcore_keeps | with_reducible apply Keeps.ite | (with_reducible refine Keeps.foldl ?_ (fun _ _ _ => ?_)) | (fail_if_no_progress (with_reducible refine Keeps.frame ?_ rfl rfl rfl rfl)) | split)

theorem execVcoreRecovery_keeps {z : State} (r : StartReport) (s : State) (h0 : Keeps none z s) : ∃ u, execVcoreRecovery r s = .next u ∧ Keeps none z u := by
  unfold execVcoreRecovery
  try dsimp only
  repeat' (first | (with_reducible refine ⟨_, rfl, ?_⟩) | with_reducible assumption | with_reducible apply errorReset_keeps | with_reducible apply fabEdge_keeps | with_reducible apply takeMark_keeps | with_reducible apply kickAll_keeps | with_reducible apply tryReexecAll_keeps | with_reducible apply releaseHeld_keeps | with_reducible apply setSup_keeps | with_reducible apply setVcore_keeps | with_reducible apply Keeps.ite | (with_reducible refine Keeps.foldl ?_ (fun _ _ _ => ?_)) | (fail_if_no_progress (with_reducible refine Keeps.frame ?_ rfl rfl rfl rfl)) | split)

theorem execVcoreResetLevel_keeps {z : State} (s : State) (h0 : Keeps none z s) : ∃ u, execVcoreResetLevel s = .next u ∧ Keeps none z u := by
  unfold execVcoreResetLevel
  try dsimp only
  repeat' (first | (with_reducible refine ⟨_, rfl, ?_⟩) | with_reducible assumption | with_reducible apply holdReset_keeps | with_reducible apply setSup_keeps | with_reducible apply Keeps.ite | (with_reducible refine Keeps.foldl ?_ (fun _ _ _ => ?_)) | (fail_if_no_progress (with_reducible refine Keeps.frame ?_ rfl rfl rfl rfl)) | split)

theorem execPowerFailWarning_keeps {z : State} (vmem : Bool) (s : State) (h0 : Keeps none z s) : ∃ u, execPowerFailWarning vmem s = .next u ∧ Keeps none z u := by
  unfold execPowerFailWarning
  try dsimp only
  repeat' (first | (with_reducible refine ⟨_, rfl, ?_⟩) | with_reducible assumption | with_reducible apply logEvent_keeps | with_reducible apply emergency_keeps | with_reducible apply persistMarks_keeps | with_reducible apply setSup_keeps | with_reducible apply Keeps.ite | (with_reducible refine Keeps.foldl ?_ (fun _ _ _ => ?_)) | (fail_if_no_progress (with_reducible refine Keeps.frame ?_ rfl rfl rfl rfl)) | split)

theorem execPowerFailWarningEnd_keeps {z : State} (s : State) (h0 : Keeps none z s) : ∃ u, execPowerFailWarningEnd s = .next u ∧ Keeps none z u := by
  unfold execPowerFailWarningEnd
  try dsimp only
  repeat' (first | (with_reducible refine ⟨_, rfl, ?_⟩) | with_reducible assumption | with_reducible apply logEvent_keeps | with_reducible apply setSup_keeps | with_reducible apply Keeps.ite | (with_reducible refine Keeps.foldl ?_ (fun _ _ _ => ?_)) | (fail_if_no_progress (with_reducible refine Keeps.frame ?_ rfl rfl rfl rfl)) | split)

theorem execVmemAction_keeps {z : State} (s : State) (h0 : Keeps none z s) : ∃ u, execVmemAction s = .next u ∧ Keeps none z u := by
  unfold execVmemAction
  try dsimp only
  repeat' (first | (with_reducible refine ⟨_, rfl, ?_⟩) | with_reducible assumption | with_reducible apply holdReset_keeps | with_reducible apply setSup_keeps | with_reducible apply Keeps.ite | (with_reducible refine Keeps.foldl ?_ (fun _ _ _ => ?_)) | (fail_if_no_progress (with_reducible refine Keeps.frame ?_ rfl rfl rfl rfl)) | split)

theorem execVmemRecovery_keeps {z : State} (r : StartReport) (s : State) (h0 : Keeps none z s) : ∃ u, execVmemRecovery r s = .next u ∧ Keeps none z u := by
  unfold execVmemRecovery
  try dsimp only
  repeat' (first | (with_reducible refine ⟨_, rfl, ?_⟩) | with_reducible assumption | with_reducible apply takeMark_keeps | with_reducible apply releaseHeld_keeps | with_reducible apply setSup_keeps | with_reducible apply Keeps.ite | (with_reducible refine Keeps.foldl ?_ (fun _ _ _ => ?_)) | (fail_if_no_progress (with_reducible refine Keeps.frame ?_ rfl rfl rfl rfl)) | split)

theorem execVioAction_keeps {z : State} (rail : Fin 2) (s : State) (h0 : Keeps none z s) : ∃ u, execVioAction rail s = .next u ∧ Keeps none z u := by
  unfold execVioAction
  try dsimp only
  repeat' (first | (with_reducible refine ⟨_, rfl, ?_⟩) | with_reducible assumption | with_reducible apply holdReset_keeps | with_reducible apply setSup_keeps | with_reducible apply Keeps.ite | (with_reducible refine Keeps.foldl ?_ (fun _ _ _ => ?_)) | (fail_if_no_progress (with_reducible refine Keeps.frame ?_ rfl rfl rfl rfl)) | split)

theorem execVioRecovery_keeps {z : State} (rail : Fin 2) (r : StartReport) (s : State) (h0 : Keeps none z s) : ∃ u, execVioRecovery rail r s = .next u ∧ Keeps none z u := by
  unfold execVioRecovery
  try dsimp only
  repeat' (first | (with_reducible refine ⟨_, rfl, ?_⟩) | with_reducible assumption | with_reducible apply takeMark_keeps | with_reducible apply releaseHeld_keeps | with_reducible apply setSup_keeps | with_reducible apply Keeps.ite | (with_reducible refine Keeps.foldl ?_ (fun _ _ _ => ?_)) | (fail_if_no_progress (with_reducible refine Keeps.frame ?_ rfl rfl rfl rfl)) | split)

theorem execVserAction_keeps {z : State} (s : State) (h0 : Keeps none z s) : ∃ u, execVserAction s = .next u ∧ Keeps none z u := by
  unfold execVserAction
  try dsimp only
  repeat' (first | (with_reducible refine ⟨_, rfl, ?_⟩) | with_reducible assumption | with_reducible apply takeMark_keeps | with_reducible apply allLinksLost_keeps | with_reducible apply Keeps.ite | (with_reducible refine Keeps.foldl ?_ (fun _ _ _ => ?_)) | (fail_if_no_progress (with_reducible refine Keeps.frame ?_ rfl rfl rfl rfl)) | split)

theorem setFeed_keeps {ex : Option TileId} {z : State} (s : State) (f : Fin 2) (v : Bool) (h0 : Keeps ex z s) : Keeps ex z (setFeed s f v) := by
  unfold setFeed
  try dsimp only
  repeat' (first | with_reducible assumption | with_reducible apply setSup_keeps | with_reducible apply Keeps.ite | (with_reducible refine Keeps.foldl ?_ (fun _ _ _ => ?_)) | (fail_if_no_progress (with_reducible refine Keeps.frame ?_ rfl rfl rfl rfl)) | split)

theorem execFieldFeedLost_keeps {z : State} (f : Fin 2) (s : State) (h0 : Keeps none z s) : ∃ u, execFieldFeedLost f s = .next u ∧ Keeps none z u := by
  unfold execFieldFeedLost
  try dsimp only
  repeat' (first | (with_reducible refine ⟨_, rfl, ?_⟩) | with_reducible assumption | with_reducible apply emergency_keeps | with_reducible apply fabEdge_keeps | with_reducible apply setFeed_keeps | with_reducible apply Keeps.ite | (with_reducible refine Keeps.foldl ?_ (fun _ _ _ => ?_)) | (fail_if_no_progress (with_reducible refine Keeps.frame ?_ rfl rfl rfl rfl)) | split)

theorem execFieldFeedRecovery_keeps {z : State} (f : Fin 2) (s : State) (h0 : Keeps none z s) : ∃ u, execFieldFeedRecovery f s = .next u ∧ Keeps none z u := by
  unfold execFieldFeedRecovery
  try dsimp only
  repeat' (first | (with_reducible refine ⟨_, rfl, ?_⟩) | with_reducible assumption | with_reducible apply errorReset_keeps | with_reducible apply fabEdge_keeps | with_reducible apply setFeed_keeps | with_reducible apply Keeps.ite | (with_reducible refine Keeps.foldl ?_ (fun _ _ _ => ?_)) | (fail_if_no_progress (with_reducible refine Keeps.frame ?_ rfl rfl rfl rfl)) | split)

end Sys2Proof.Machine
end

