-- ==== Sys2Proof/Laws/KeepsObserve.lean ====
section
/-! SUPPORT. The operations of Machine/Observe.lean keep the queue, the counters and the invariant. -/

set_option linter.unusedTactic false
set_option linter.unusedVariables false
set_option linter.unreachableTactic false

namespace Sys2Proof.Machine

theorem execTideInEdge_keeps {z : State} (s : State) (h0 : Keeps none z s) : ∃ u, execTideInEdge s = .next u ∧ Keeps none z u := by
  unfold execTideInEdge
  try dsimp only
  repeat' (first | (with_reducible refine ⟨_, rfl, ?_⟩) | with_reducible assumption | with_reducible apply markDue_keeps | with_reducible apply takeMark_keeps | with_reducible apply Keeps.ite | (with_reducible refine Keeps.foldl ?_ (fun _ _ _ => ?_)) | (fail_if_no_progress (with_reducible refine Keeps.frame ?_ rfl rfl rfl rfl)) | split)

theorem applyTideCmd_keeps {ex : Option TileId} {z : State} (s : State) (v : Byte) (h0 : Keeps ex z s) : Keeps ex z (applyTideCmd s v).2 := by
  unfold applyTideCmd
  try dsimp only
  repeat' (first | with_reducible assumption | with_reducible apply markDue_keeps | with_reducible apply Keeps.ite | (with_reducible refine Keeps.foldl ?_ (fun _ _ _ => ?_)) | (fail_if_no_progress (with_reducible refine Keeps.frame ?_ rfl rfl rfl rfl)) | split)

theorem execSnapshotLatchEnd_keeps {z : State} (s : State) (h0 : Keeps none z s) : ∃ u, execSnapshotLatchEnd s = .next u ∧ Keeps none z u := by
  unfold execSnapshotLatchEnd
  try dsimp only
  repeat' (first | (with_reducible refine ⟨_, rfl, ?_⟩) | with_reducible assumption | with_reducible apply Keeps.ite | (with_reducible refine Keeps.foldl ?_ (fun _ _ _ => ?_)) | (fail_if_no_progress (with_reducible refine Keeps.frame ?_ rfl rfl rfl rfl)) | split)

theorem execTideOutEnd_keeps {z : State} (s : State) (h0 : Keeps none z s) : ∃ u, execTideOutEnd s = .next u ∧ Keeps none z u := by
  unfold execTideOutEnd
  try dsimp only
  repeat' (first | (with_reducible refine ⟨_, rfl, ?_⟩) | with_reducible assumption | with_reducible apply Keeps.ite | (with_reducible refine Keeps.foldl ?_ (fun _ _ _ => ?_)) | (fail_if_no_progress (with_reducible refine Keeps.frame ?_ rfl rfl rfl rfl)) | split)

theorem loadTap_keeps {ex : Option TileId} {z : State} (s : State) (i : TapInstr) (drives : Bool) (h0 : Keeps ex z s) : Keeps ex z (loadTap s i drives) := by
  unfold loadTap
  try dsimp only
  repeat' (first | with_reducible assumption | with_reducible apply Keeps.ite | (with_reducible refine Keeps.foldl ?_ (fun _ _ _ => ?_)) | (fail_if_no_progress (with_reducible refine Keeps.frame ?_ rfl rfl rfl rfl)) | split)

theorem execTapBypass_keeps {z : State} (s : State) (h0 : Keeps none z s) : ∃ u, execTapBypass s = .next u ∧ Keeps none z u := by
  unfold execTapBypass
  try dsimp only
  repeat' (first | (with_reducible refine ⟨_, rfl, ?_⟩) | with_reducible assumption | with_reducible apply loadTap_keeps | with_reducible apply Keeps.ite | (with_reducible refine Keeps.foldl ?_ (fun _ _ _ => ?_)) | (fail_if_no_progress (with_reducible refine Keeps.frame ?_ rfl rfl rfl rfl)) | split)

theorem execTapIdcode_keeps {z : State} (s : State) (h0 : Keeps none z s) : ∃ u, execTapIdcode s = .next u ∧ Keeps none z u := by
  unfold execTapIdcode
  try dsimp only
  repeat' (first | (with_reducible refine ⟨_, rfl, ?_⟩) | with_reducible assumption | with_reducible apply loadTap_keeps | with_reducible apply Keeps.ite | (with_reducible refine Keeps.foldl ?_ (fun _ _ _ => ?_)) | (fail_if_no_progress (with_reducible refine Keeps.frame ?_ rfl rfl rfl rfl)) | split)

theorem execTapSamplePreload_keeps {z : State} (cells : Bytes) (s : State) (h0 : Keeps none z s) : ∃ u, execTapSamplePreload cells s = .next u ∧ Keeps none z u := by
  unfold execTapSamplePreload
  try dsimp only
  repeat' (first | (with_reducible refine ⟨_, rfl, ?_⟩) | with_reducible assumption | with_reducible apply loadTap_keeps | with_reducible apply Keeps.ite | (with_reducible refine Keeps.foldl ?_ (fun _ _ _ => ?_)) | (fail_if_no_progress (with_reducible refine Keeps.frame ?_ rfl rfl rfl rfl)) | split)

theorem execTapExtest_keeps {z : State} (s : State) (h0 : Keeps none z s) : ∃ u, execTapExtest s = .next u ∧ Keeps none z u := by
  unfold execTapExtest
  try dsimp only
  repeat' (first | (with_reducible refine ⟨_, rfl, ?_⟩) | with_reducible assumption | with_reducible apply loadTap_keeps | with_reducible apply Keeps.ite | (with_reducible refine Keeps.foldl ?_ (fun _ _ _ => ?_)) | (fail_if_no_progress (with_reducible refine Keeps.frame ?_ rfl rfl rfl rfl)) | split)

theorem execTapExtestPulse_keeps {z : State} (s : State) (h0 : Keeps none z s) : ∃ u, execTapExtestPulse s = .next u ∧ Keeps none z u := by
  unfold execTapExtestPulse
  try dsimp only
  repeat' (first | (with_reducible refine ⟨_, rfl, ?_⟩) | with_reducible assumption | with_reducible apply loadTap_keeps | with_reducible apply Keeps.ite | (with_reducible refine Keeps.foldl ?_ (fun _ _ _ => ?_)) | (fail_if_no_progress (with_reducible refine Keeps.frame ?_ rfl rfl rfl rfl)) | split)

theorem execTapExtestTrain_keeps {z : State} (s : State) (h0 : Keeps none z s) : ∃ u, execTapExtestTrain s = .next u ∧ Keeps none z u := by
  unfold execTapExtestTrain
  try dsimp only
  repeat' (first | (with_reducible refine ⟨_, rfl, ?_⟩) | with_reducible assumption | with_reducible apply loadTap_keeps | with_reducible apply Keeps.ite | (with_reducible refine Keeps.foldl ?_ (fun _ _ _ => ?_)) | (fail_if_no_progress (with_reducible refine Keeps.frame ?_ rfl rfl rfl rfl)) | split)

theorem execTapClamp_keeps {z : State} (s : State) (h0 : Keeps none z s) : ∃ u, execTapClamp s = .next u ∧ Keeps none z u := by
  unfold execTapClamp
  try dsimp only
  repeat' (first | (with_reducible refine ⟨_, rfl, ?_⟩) | with_reducible assumption | with_reducible apply loadTap_keeps | with_reducible apply Keeps.ite | (with_reducible refine Keeps.foldl ?_ (fun _ _ _ => ?_)) | (fail_if_no_progress (with_reducible refine Keeps.frame ?_ rfl rfl rfl rfl)) | split)

theorem execTapHighz_keeps {z : State} (s : State) (h0 : Keeps none z s) : ∃ u, execTapHighz s = .next u ∧ Keeps none z u := by
  unfold execTapHighz
  try dsimp only
  repeat' (first | (with_reducible refine ⟨_, rfl, ?_⟩) | with_reducible assumption | with_reducible apply loadTap_keeps | with_reducible apply Keeps.ite | (with_reducible refine Keeps.foldl ?_ (fun _ _ _ => ?_)) | (fail_if_no_progress (with_reducible refine Keeps.frame ?_ rfl rfl rfl rfl)) | split)

end Sys2Proof.Machine
end

