-- ==== Sys2Proof/Laws/KeepsDictionary.lean ====
section
/-! SUPPORT. The operations of Machine/Dictionary.lean keep the queue, the counters and the invariant. -/

set_option linter.unusedTactic false
set_option linter.unusedVariables false
set_option linter.unreachableTactic false

namespace Sys2Proof.Machine

theorem applyRequested_keeps {ex : Option TileId} {z : State} (s : State) (k : SesId) (v : Half) (h0 : Keeps ex z s) : Keeps ex z (applyRequested s k v).2 := by
  unfold applyRequested
  try dsimp only
  repeat' (first | with_reducible assumption | with_reducible apply setSes_keeps | with_reducible apply Keeps.ite | (with_reducible refine Keeps.foldl ?_ (fun _ _ _ => ?_)) | (fail_if_no_progress (with_reducible refine Keeps.frame ?_ rfl rfl rfl rfl)) | split)

theorem applyMapEntry_keeps {ex : Option TileId} {z : State} (s : State) (k : SesId) (tx : Bool) (p i : Nat) (v : Word) (h0 : Keeps ex z s) : Keeps ex z (applyMapEntry s k tx p i v).2 := by
  unfold applyMapEntry
  try dsimp only
  repeat' (first | with_reducible assumption | with_reducible apply modSes_keeps | with_reducible apply Keeps.ite | (with_reducible refine Keeps.foldl ?_ (fun _ _ _ => ?_)) | (fail_if_no_progress (with_reducible refine Keeps.frame ?_ rfl rfl rfl rfl)) | split)

theorem applyMapCount_keeps {ex : Option TileId} {z : State} (s : State) (k : SesId) (tx : Bool) (p : Nat) (v : Byte) (h0 : Keeps ex z s) : Keeps ex z (applyMapCount s k tx p v).2 := by
  unfold applyMapCount
  try dsimp only
  repeat' (first | with_reducible assumption | with_reducible apply modSes_keeps | with_reducible apply Keeps.ite | (with_reducible refine Keeps.foldl ?_ (fun _ _ _ => ?_)) | (fail_if_no_progress (with_reducible refine Keeps.frame ?_ rfl rfl rfl rfl)) | split)

theorem applyAssign_keeps {ex : Option TileId} {z : State} (s : State) (k : SesId) (tx : Bool) (i : Nat) (v : Half) (h0 : Keeps ex z s) : Keeps ex z (applyAssign s k tx i v).2 := by
  unfold applyAssign
  try dsimp only
  repeat' (first | with_reducible assumption | with_reducible apply modSes_keeps | with_reducible apply Keeps.ite | (with_reducible refine Keeps.foldl ?_ (fun _ _ _ => ?_)) | (fail_if_no_progress (with_reducible refine Keeps.frame ?_ rfl rfl rfl rfl)) | split)

theorem applyPdoParam_keeps {ex : Option TileId} {z : State} (s : State) (k : SesId) (tx : Bool) (p sub : Nat) (v : Nat) (h0 : Keeps ex z s) : Keeps ex z (applyPdoParam s k tx p sub v).2 := by
  unfold applyPdoParam
  try dsimp only
  repeat' (first | with_reducible assumption | with_reducible apply modSes_keeps | with_reducible apply Keeps.ite | (with_reducible refine Keeps.foldl ?_ (fun _ _ _ => ?_)) | (fail_if_no_progress (with_reducible refine Keeps.frame ?_ rfl rfl rfl rfl)) | split)

theorem applySyncType_keeps {ex : Option TileId} {z : State} (s : State) (k : SesId) (v : Half) (h0 : Keeps ex z s) : Keeps ex z (applySyncType s k v).2 := by
  unfold applySyncType
  try dsimp only
  repeat' (first | with_reducible assumption | with_reducible apply modEsc_keeps | with_reducible apply Keeps.ite | (with_reducible refine Keeps.foldl ?_ (fun _ _ _ => ?_)) | (fail_if_no_progress (with_reducible refine Keeps.frame ?_ rfl rfl rfl rfl)) | split)

theorem applyFreq_keeps {ex : Option TileId} {z : State} (s : State) (sub v : Nat) (h0 : Keeps ex z s) : Keeps ex z (applyFreq s sub v).2 := by
  unfold applyFreq
  try dsimp only
  repeat' (first | with_reducible assumption | with_reducible apply setClk_keeps | with_reducible apply Keeps.ite | (with_reducible refine Keeps.foldl ?_ (fun _ _ _ => ?_)) | (fail_if_no_progress (with_reducible refine Keeps.frame ?_ rfl rfl rfl rfl)) | (intro _; rfl) | split)

theorem applySpread_keeps {ex : Option TileId} {z : State} (s : State) (depth : Bool) (sub : Nat) (v : Byte) (h0 : Keeps ex z s) : Keeps ex z (applySpread s depth sub v).2 := by
  unfold applySpread
  try dsimp only
  repeat' (first | with_reducible assumption | with_reducible apply setClk_keeps | with_reducible apply Keeps.ite | (with_reducible refine Keeps.foldl ?_ (fun _ _ _ => ?_)) | (fail_if_no_progress (with_reducible refine Keeps.frame ?_ rfl rfl rfl rfl)) | (intro _; rfl) | split)

theorem applyPeriod_keeps {ex : Option TileId} {z : State} (s : State) (spare : Bool) (v : Half) (h0 : Keeps ex z s) : Keeps ex z (applyPeriod s spare v).2 := by
  unfold applyPeriod
  try dsimp only
  repeat' (first | with_reducible assumption | with_reducible apply Keeps.ite | (with_reducible refine Keeps.foldl ?_ (fun _ _ _ => ?_)) | (fail_if_no_progress (with_reducible refine Keeps.frame ?_ rfl rfl rfl rfl)) | split)

theorem applyTideMask_keeps {ex : Option TileId} {z : State} (s : State) (out : Bool) (v : Nat) (h0 : Keeps ex z s) : Keeps ex z (applyTideMask s out v).2 := by
  unfold applyTideMask
  try dsimp only
  repeat' (first | with_reducible assumption | with_reducible apply Keeps.ite | (with_reducible refine Keeps.foldl ?_ (fun _ _ _ => ?_)) | (fail_if_no_progress (with_reducible refine Keeps.frame ?_ rfl rfl rfl rfl)) | split)

theorem applyCam_keeps {ex : Option TileId} {z : State} (s : State) (c : CxpId) (sub v : Nat) (h0 : Keeps ex z s) : Keeps ex z (applyCam s c sub v).2 := by
  unfold applyCam
  try dsimp only
  repeat' (first | with_reducible assumption | with_reducible apply modCam_keeps | with_reducible apply Keeps.ite | (with_reducible refine Keeps.foldl ?_ (fun _ _ _ => ?_)) | (fail_if_no_progress (with_reducible refine Keeps.frame ?_ rfl rfl rfl rfl)) | split)

theorem applyMaxSpeed_keeps {ex : Option TileId} {z : State} (s : State) (v : Byte) (h0 : Keeps ex z s) : Keeps ex z (applyMaxSpeed s v).2 := by
  unfold applyMaxSpeed
  try dsimp only
  repeat' (first | with_reducible assumption | with_reducible apply Keeps.ite | (with_reducible refine Keeps.foldl ?_ (fun _ _ _ => ?_)) | (fail_if_no_progress (with_reducible refine Keeps.frame ?_ rfl rfl rfl rfl)) | split)

theorem applyFc_keeps {ex : Option TileId} {z : State} (s : State) (n sub v : Nat) (h0 : Keeps ex z s) : Keeps ex z (applyFc s n sub v).2 := by
  unfold applyFc
  try dsimp only
  repeat' (first | with_reducible assumption | with_reducible apply modFch_keeps | with_reducible apply Keeps.ite | (with_reducible refine Keeps.foldl ?_ (fun _ _ _ => ?_)) | (fail_if_no_progress (with_reducible refine Keeps.frame ?_ rfl rfl rfl rfl)) | split)

theorem applyCursor_keeps {ex : Option TileId} {z : State} (s : State) (k : SesId) (v : Word) (h0 : Keeps ex z s) : Keeps ex z (applyCursor s k v).2 := by
  unfold applyCursor
  try dsimp only
  repeat' (first | with_reducible assumption | with_reducible apply modSes_keeps | with_reducible apply Keeps.ite | (with_reducible refine Keeps.foldl ?_ (fun _ _ _ => ?_)) | (fail_if_no_progress (with_reducible refine Keeps.frame ?_ rfl rfl rfl rfl)) | split)

theorem applyErrorCount_keeps {ex : Option TileId} {z : State} (s : State) (k : SesId) (v : Byte) (h0 : Keeps ex z s) : Keeps ex z (applyErrorCount s k v).2 := by
  unfold applyErrorCount
  try dsimp only
  repeat' (first | with_reducible assumption | with_reducible apply modSes_keeps | with_reducible apply Keeps.ite | (with_reducible refine Keeps.foldl ?_ (fun _ _ _ => ?_)) | (fail_if_no_progress (with_reducible refine Keeps.frame ?_ rfl rfl rfl rfl)) | split)

theorem objWrite_keeps {z : State} (s : State) (k : SesId) (index sub : Nat) (d : Bytes) (h0 : Keeps none z s) : Keeps none z (objWrite s k index sub d).2 := by
  unfold objWrite
  try dsimp only
  repeat' (first | with_reducible assumption | with_reducible apply applySubmit_keeps | with_reducible apply applyRetireTo_keeps | with_reducible apply applyAbort_keeps | with_reducible apply applyRelease_keeps | with_reducible apply applyGrouping_keeps | with_reducible apply applyCamReg_keeps | with_reducible apply applyLoad_keeps | with_reducible apply applyCapture_keeps | with_reducible apply applyProbeSel_keeps | with_reducible apply applyFilter_keeps | with_reducible apply applyMode_keeps | with_reducible apply applySafe_keeps | with_reducible apply applySource_keeps | with_reducible apply applyDoutImage_keeps | with_reducible apply applyDiagClear_keeps | with_reducible apply applySpsEnable_keeps | with_reducible apply applyGroupClear_keeps | with_reducible apply applyNonce_keeps | with_reducible apply applyKeyRecord_keeps | with_reducible apply applyFirmware_keeps | with_reducible apply applyPatch_keeps | with_reducible apply applyOwnership_keeps | with_reducible apply applyMarchEnable_keeps | with_reducible apply applyDtestTarget_keeps | with_reducible apply applyCeiling_keeps | with_reducible apply applyIdle_keeps | with_reducible apply applyRampDwell_keeps | with_reducible apply applyIdleHold_keeps | with_reducible apply applyDeepSleep_keeps | with_reducible apply applyRefSelect_keeps | with_reducible apply applyGateRun_keeps | with_reducible apply applyGateSleep_keeps | with_reducible apply applyGateDeep_keeps | with_reducible apply applyReset_keeps | with_reducible apply applyTideCmd_keeps | with_reducible apply applyRequested_keeps | with_reducible apply applyMapEntry_keeps | with_reducible apply applyMapCount_keeps | with_reducible apply applyAssign_keeps | with_reducible apply applyPdoParam_keeps | with_reducible apply applySyncType_keeps | with_reducible apply applyFreq_keeps | with_reducible apply applySpread_keeps | with_reducible apply applyPeriod_keeps | with_reducible apply applyTideMask_keeps | with_reducible apply applyCam_keeps | with_reducible apply applyMaxSpeed_keeps | with_reducible apply applyFc_keeps | with_reducible apply applyCursor_keeps | with_reducible apply applyErrorCount_keeps | with_reducible apply Keeps.ite | (with_reducible refine Keeps.foldl ?_ (fun _ _ _ => ?_)) | (fail_if_no_progress (with_reducible refine Keeps.frame ?_ rfl rfl rfl rfl)) | split)

theorem endWrite_keeps {ex : Option TileId} {z : State} (r : Answer) (k : SesId) (index sub : Nat) (g0 : Keeps ex z r.2) : Keeps ex z (endWrite r k index sub) := by
  unfold endWrite
  try dsimp only
  repeat' (first | with_reducible assumption | with_reducible apply modSes_keeps | with_reducible apply takeMark_keeps | with_reducible apply answer_keeps | with_reducible apply measure_keeps | with_reducible apply cancelSleep_keeps | with_reducible apply Keeps.ite | (with_reducible refine Keeps.foldl ?_ (fun _ _ _ => ?_)) | (fail_if_no_progress (with_reducible refine Keeps.frame ?_ rfl rfl rfl rfl)) | split)

theorem writeBy_keeps {ex : Option TileId} {z : State} (run : State → Answer) (s : State) (k : SesId) (index sub n : Nat) (h0 : Keeps ex z s)
    (hr : ∀ u, Keeps ex z u → Keeps ex z (run u).2) : Keeps ex z (writeBy run s k index sub n) := by
  unfold writeBy
  dsimp only
  split
  · exact answer_keeps _ _ _ _ _ _ h0
  · split
    · exact answer_keeps _ _ _ _ _ _ h0
    · split
      · exact answer_keeps _ _ _ _ _ _ h0
      · exact endWrite_keeps _ _ _ _ (hr _ h0)

theorem hostWrite_keeps {z : State} (s : State) (k : SesId) (index sub : Nat) (d : Bytes) (h0 : Keeps none z s) : Keeps none z (hostWrite s k index sub d) := by
  unfold hostWrite
  try dsimp only
  repeat' (first | with_reducible assumption | with_reducible apply answer_keeps | with_reducible apply objWrite_keeps | with_reducible apply writeBy_keeps | with_reducible apply Keeps.ite | (with_reducible refine Keeps.foldl ?_ (fun _ _ _ => ?_)) | (fail_if_no_progress (with_reducible refine Keeps.frame ?_ rfl rfl rfl rfl)) | intro _ | split)

theorem objRead_keeps {ex : Option TileId} {z : State} (s : State) (k : SesId) (index sub : Nat) (h0 : Keeps ex z s) :
    Keeps ex z (objRead s k index sub).2.2 := by
  unfold objRead
  dsimp only
  split
  · exact h0
  split
  · split
    · dsimp only; exact modSes_keeps _ _ _ h0
    · exact h0
  split
  · split
    · exact h0
    · dsimp only; exact Keeps.frame h0 rfl rfl rfl rfl
  split
  · split
    · dsimp only; exact readCamReg_keeps _ _ h0 _ (by assumption)
    · exact h0
  split <;> exact h0

theorem hostRead_keeps {ex : Option TileId} {z : State} (s : State) (k : SesId) (index sub : Nat) (h0 : Keeps ex z s) : Keeps ex z (hostRead s k index sub) := by
  unfold hostRead
  try dsimp only
  repeat' (first | with_reducible assumption | with_reducible apply answer_keeps | with_reducible apply objRead_keeps | with_reducible apply Keeps.ite | (with_reducible refine Keeps.foldl ?_ (fun _ _ _ => ?_)) | (fail_if_no_progress (with_reducible refine Keeps.frame ?_ rfl rfl rfl rfl)) | split)

theorem dropXfer_keeps {ex : Option TileId} {z : State} (s : State) (k : SesId) (h0 : Keeps ex z s) : Keeps ex z (dropXfer s k) := by
  unfold dropXfer
  try dsimp only
  repeat' (first | with_reducible assumption | with_reducible apply modSes_keeps | with_reducible apply Keeps.ite | (with_reducible refine Keeps.foldl ?_ (fun _ _ _ => ?_)) | (fail_if_no_progress (with_reducible refine Keeps.frame ?_ rfl rfl rfl rfl)) | split)

theorem segment_keeps {z : State} (s : State) (k : SesId) (index sub : Nat) (size : Option Nat) (d : Bytes) (last : Bool) (h0 : Keeps none z s) : Keeps none z (segment s k index sub size d last) := by
  unfold segment
  try dsimp only
  repeat' (first | with_reducible assumption | with_reducible apply modSes_keeps | with_reducible apply answer_keeps | with_reducible apply objWrite_keeps | with_reducible apply writeBy_keeps | with_reducible apply dropXfer_keeps | with_reducible apply Keeps.ite | (with_reducible refine Keeps.foldl ?_ (fun _ _ _ => ?_)) | (fail_if_no_progress (with_reducible refine Keeps.frame ?_ rfl rfl rfl rfl)) | intro _ | split)

theorem sendEmergency_keeps {ex : Option TileId} {z : State} (s : State) (k : SesId) (h0 : Keeps ex z s) : Keeps ex z (sendEmergency s k) := by
  unfold sendEmergency
  try dsimp only
  repeat' (first | with_reducible assumption | with_reducible apply modSes_keeps | with_reducible apply modCan_keeps | with_reducible apply Keeps.ite | (with_reducible refine Keeps.foldl ?_ (fun _ _ _ => ?_)) | (fail_if_no_progress (with_reducible refine Keeps.frame ?_ rfl rfl rfl rfl)) | split)

end Sys2Proof.Machine
end

