-- ==== Sys2Proof/Laws/KeepsHostRows.lean ====
section
/-! SUPPORT. The operations of Machine/HostRows.lean keep the queue, the counters and the invariant. -/

set_option linter.unusedTactic false
set_option linter.unusedVariables false
set_option linter.unreachableTactic false

namespace Sys2Proof.Machine

theorem execPatchBundle_keeps {z : State} (k : SesId) (d : Bytes) (s : State) (h0 : Keeps none z s) : ∃ u, execPatchBundle k d s = .next u ∧ Keeps none z u := by
  unfold execPatchBundle
  try dsimp only
  repeat' (first | (with_reducible refine ⟨_, rfl, ?_⟩) | with_reducible assumption | with_reducible apply hostWrite_keeps | with_reducible apply Keeps.ite | (with_reducible refine Keeps.foldl ?_ (fun _ _ _ => ?_)) | (fail_if_no_progress (with_reducible refine Keeps.frame ?_ rfl rfl rfl rfl)) | split)

theorem execSubmit_keeps {z : State} (k : SesId) (t : Tenant) (d : Bytes) (s : State) (h0 : Keeps none z s) : ∃ u, execSubmit k t d s = .next u ∧ Keeps none z u := by
  unfold execSubmit
  try dsimp only
  repeat' (first | (with_reducible refine ⟨_, rfl, ?_⟩) | with_reducible assumption | with_reducible apply hostWrite_keeps | with_reducible apply Keeps.ite | (with_reducible refine Keeps.foldl ?_ (fun _ _ _ => ?_)) | (fail_if_no_progress (with_reducible refine Keeps.frame ?_ rfl rfl rfl rfl)) | split)

theorem execRetireTo_keeps {z : State} (k : SesId) (t : Tenant) (v : Word) (s : State) (h0 : Keeps none z s) : ∃ u, execRetireTo k t v s = .next u ∧ Keeps none z u := by
  unfold execRetireTo
  try dsimp only
  repeat' (first | (with_reducible refine ⟨_, rfl, ?_⟩) | with_reducible assumption | with_reducible apply hostWrite_keeps | with_reducible apply Keeps.ite | (with_reducible refine Keeps.foldl ?_ (fun _ _ _ => ?_)) | (fail_if_no_progress (with_reducible refine Keeps.frame ?_ rfl rfl rfl rfl)) | split)

theorem execAbort_keeps {z : State} (k : SesId) (t : Tenant) (v : Byte) (s : State) (h0 : Keeps none z s) : ∃ u, execAbort k t v s = .next u ∧ Keeps none z u := by
  unfold execAbort
  try dsimp only
  repeat' (first | (with_reducible refine ⟨_, rfl, ?_⟩) | with_reducible assumption | with_reducible apply hostWrite_keeps | with_reducible apply Keeps.ite | (with_reducible refine Keeps.foldl ?_ (fun _ _ _ => ?_)) | (fail_if_no_progress (with_reducible refine Keeps.frame ?_ rfl rfl rfl rfl)) | split)

theorem execRelease_keeps {z : State} (k : SesId) (t : Tenant) (v : Byte) (s : State) (h0 : Keeps none z s) : ∃ u, execRelease k t v s = .next u ∧ Keeps none z u := by
  unfold execRelease
  try dsimp only
  repeat' (first | (with_reducible refine ⟨_, rfl, ?_⟩) | with_reducible assumption | with_reducible apply hostWrite_keeps | with_reducible apply Keeps.ite | (with_reducible refine Keeps.foldl ?_ (fun _ _ _ => ?_)) | (fail_if_no_progress (with_reducible refine Keeps.frame ?_ rfl rfl rfl rfl)) | split)

theorem execOwnership_keeps {z : State} (k : SesId) (t : Tenant) (d : Bytes) (s : State) (h0 : Keeps none z s) : ∃ u, execOwnership k t d s = .next u ∧ Keeps none z u := by
  unfold execOwnership
  try dsimp only
  repeat' (first | (with_reducible refine ⟨_, rfl, ?_⟩) | with_reducible assumption | with_reducible apply hostWrite_keeps | with_reducible apply Keeps.ite | (with_reducible refine Keeps.foldl ?_ (fun _ _ _ => ?_)) | (fail_if_no_progress (with_reducible refine Keeps.frame ?_ rfl rfl rfl rfl)) | split)

theorem execMarchEnable_keeps {z : State} (k : SesId) (v : Byte) (s : State) (h0 : Keeps none z s) : ∃ u, execMarchEnable k v s = .next u ∧ Keeps none z u := by
  unfold execMarchEnable
  try dsimp only
  repeat' (first | (with_reducible refine ⟨_, rfl, ?_⟩) | with_reducible assumption | with_reducible apply hostWrite_keeps | with_reducible apply Keeps.ite | (with_reducible refine Keeps.foldl ?_ (fun _ _ _ => ?_)) | (fail_if_no_progress (with_reducible refine Keeps.frame ?_ rfl rfl rfl rfl)) | split)

theorem execDtestTarget_keeps {z : State} (k : SesId) (v : Half) (s : State) (h0 : Keeps none z s) : ∃ u, execDtestTarget k v s = .next u ∧ Keeps none z u := by
  unfold execDtestTarget
  try dsimp only
  repeat' (first | (with_reducible refine ⟨_, rfl, ?_⟩) | with_reducible assumption | with_reducible apply hostWrite_keeps | with_reducible apply Keeps.ite | (with_reducible refine Keeps.foldl ?_ (fun _ _ _ => ?_)) | (fail_if_no_progress (with_reducible refine Keeps.frame ?_ rfl rfl rfl rfl)) | split)

theorem execGrouping_keeps {z : State} (k : SesId) (v : Byte) (s : State) (h0 : Keeps none z s) : ∃ u, execGrouping k v s = .next u ∧ Keeps none z u := by
  unfold execGrouping
  try dsimp only
  repeat' (first | (with_reducible refine ⟨_, rfl, ?_⟩) | with_reducible assumption | with_reducible apply hostWrite_keeps | with_reducible apply Keeps.ite | (with_reducible refine Keeps.foldl ?_ (fun _ _ _ => ?_)) | (fail_if_no_progress (with_reducible refine Keeps.frame ?_ rfl rfl rfl rfl)) | split)

theorem execCamRegWrite_keeps {z : State} (k : SesId) (c : CxpId) (d : Bytes) (s : State) (h0 : Keeps none z s) : ∃ u, execCamRegWrite k c d s = .next u ∧ Keeps none z u := by
  unfold execCamRegWrite
  try dsimp only
  repeat' (first | (with_reducible refine ⟨_, rfl, ?_⟩) | with_reducible assumption | with_reducible apply hostWrite_keeps | with_reducible apply Keeps.ite | (with_reducible refine Keeps.foldl ?_ (fun _ _ _ => ?_)) | (fail_if_no_progress (with_reducible refine Keeps.frame ?_ rfl rfl rfl rfl)) | split)

theorem execCamRegRead_keeps {z : State} (k : SesId) (c : CxpId) (s : State) (h0 : Keeps none z s) : ∃ u, execCamRegRead k c s = .next u ∧ Keeps none z u := by
  unfold execCamRegRead
  try dsimp only
  repeat' (first | (with_reducible refine ⟨_, rfl, ?_⟩) | with_reducible assumption | with_reducible apply hostRead_keeps | with_reducible apply Keeps.ite | (with_reducible refine Keeps.foldl ?_ (fun _ _ _ => ?_)) | (fail_if_no_progress (with_reducible refine Keeps.frame ?_ rfl rfl rfl rfl)) | split)

theorem execFullLoad_keeps {z : State} (k : SesId) (d : Bytes) (s : State) (h0 : Keeps none z s) : ∃ u, execFullLoad k d s = .next u ∧ Keeps none z u := by
  unfold execFullLoad
  try dsimp only
  repeat' (first | (with_reducible refine ⟨_, rfl, ?_⟩) | with_reducible assumption | with_reducible apply hostWrite_keeps | with_reducible apply Keeps.ite | (with_reducible refine Keeps.foldl ?_ (fun _ _ _ => ?_)) | (fail_if_no_progress (with_reducible refine Keeps.frame ?_ rfl rfl rfl rfl)) | split)

theorem execPartialLoad_keeps {z : State} (k : SesId) (d : Bytes) (s : State) (h0 : Keeps none z s) : ∃ u, execPartialLoad k d s = .next u ∧ Keeps none z u := by
  unfold execPartialLoad
  try dsimp only
  repeat' (first | (with_reducible refine ⟨_, rfl, ?_⟩) | with_reducible assumption | with_reducible apply hostWrite_keeps | with_reducible apply Keeps.ite | (with_reducible refine Keeps.foldl ?_ (fun _ _ _ => ?_)) | (fail_if_no_progress (with_reducible refine Keeps.frame ?_ rfl rfl rfl rfl)) | split)

theorem execCapture_keeps {z : State} (k : SesId) (v : Byte) (s : State) (h0 : Keeps none z s) : ∃ u, execCapture k v s = .next u ∧ Keeps none z u := by
  unfold execCapture
  try dsimp only
  repeat' (first | (with_reducible refine ⟨_, rfl, ?_⟩) | with_reducible assumption | with_reducible apply hostWrite_keeps | with_reducible apply Keeps.ite | (with_reducible refine Keeps.foldl ?_ (fun _ _ _ => ?_)) | (fail_if_no_progress (with_reducible refine Keeps.frame ?_ rfl rfl rfl rfl)) | split)

theorem execProbeSel_keeps {z : State} (k : SesId) (land : Fin 4) (v : Byte) (s : State) (h0 : Keeps none z s) : ∃ u, execProbeSel k land v s = .next u ∧ Keeps none z u := by
  unfold execProbeSel
  try dsimp only
  repeat' (first | (with_reducible refine ⟨_, rfl, ?_⟩) | with_reducible assumption | with_reducible apply hostWrite_keeps | with_reducible apply Keeps.ite | (with_reducible refine Keeps.foldl ?_ (fun _ _ _ => ?_)) | (fail_if_no_progress (with_reducible refine Keeps.frame ?_ rfl rfl rfl rfl)) | split)

theorem execMode_keeps {z : State} (k : SesId) (n : FcId) (v : Byte) (s : State) (h0 : Keeps none z s) : ∃ u, execMode k n v s = .next u ∧ Keeps none z u := by
  unfold execMode
  try dsimp only
  repeat' (first | (with_reducible refine ⟨_, rfl, ?_⟩) | with_reducible assumption | with_reducible apply hostWrite_keeps | with_reducible apply Keeps.ite | (with_reducible refine Keeps.foldl ?_ (fun _ _ _ => ?_)) | (fail_if_no_progress (with_reducible refine Keeps.frame ?_ rfl rfl rfl rfl)) | split)

theorem execSafeState_keeps {z : State} (k : SesId) (n : FcId) (v : Byte) (s : State) (h0 : Keeps none z s) : ∃ u, execSafeState k n v s = .next u ∧ Keeps none z u := by
  unfold execSafeState
  try dsimp only
  repeat' (first | (with_reducible refine ⟨_, rfl, ?_⟩) | with_reducible assumption | with_reducible apply hostWrite_keeps | with_reducible apply Keeps.ite | (with_reducible refine Keeps.foldl ?_ (fun _ _ _ => ?_)) | (fail_if_no_progress (with_reducible refine Keeps.frame ?_ rfl rfl rfl rfl)) | split)

theorem execFilter_keeps {z : State} (k : SesId) (n : FcId) (v : Byte) (s : State) (h0 : Keeps none z s) : ∃ u, execFilter k n v s = .next u ∧ Keeps none z u := by
  unfold execFilter
  try dsimp only
  repeat' (first | (with_reducible refine ⟨_, rfl, ?_⟩) | with_reducible assumption | with_reducible apply hostWrite_keeps | with_reducible apply Keeps.ite | (with_reducible refine Keeps.foldl ?_ (fun _ _ _ => ?_)) | (fail_if_no_progress (with_reducible refine Keeps.frame ?_ rfl rfl rfl rfl)) | split)

theorem execDoutImage_keeps {z : State} (k : SesId) (j : Fin 64) (v : Byte) (s : State) (h0 : Keeps none z s) : ∃ u, execDoutImage k j v s = .next u ∧ Keeps none z u := by
  unfold execDoutImage
  try dsimp only
  repeat' (first | (with_reducible refine ⟨_, rfl, ?_⟩) | with_reducible assumption | with_reducible apply hostWrite_keeps | with_reducible apply Keeps.ite | (with_reducible refine Keeps.foldl ?_ (fun _ _ _ => ?_)) | (fail_if_no_progress (with_reducible refine Keeps.frame ?_ rfl rfl rfl rfl)) | split)

theorem execDiagClear_keeps {z : State} (k : SesId) (n : FcId) (v : Byte) (s : State) (h0 : Keeps none z s) : ∃ u, execDiagClear k n v s = .next u ∧ Keeps none z u := by
  unfold execDiagClear
  try dsimp only
  repeat' (first | (with_reducible refine ⟨_, rfl, ?_⟩) | with_reducible assumption | with_reducible apply hostWrite_keeps | with_reducible apply Keeps.ite | (with_reducible refine Keeps.foldl ?_ (fun _ _ _ => ?_)) | (fail_if_no_progress (with_reducible refine Keeps.frame ?_ rfl rfl rfl rfl)) | split)

theorem execSpsEnable_keeps {z : State} (k : SesId) (g : GroupId) (v : Byte) (s : State) (h0 : Keeps none z s) : ∃ u, execSpsEnable k g v s = .next u ∧ Keeps none z u := by
  unfold execSpsEnable
  try dsimp only
  repeat' (first | (with_reducible refine ⟨_, rfl, ?_⟩) | with_reducible assumption | with_reducible apply hostWrite_keeps | with_reducible apply Keeps.ite | (with_reducible refine Keeps.foldl ?_ (fun _ _ _ => ?_)) | (fail_if_no_progress (with_reducible refine Keeps.frame ?_ rfl rfl rfl rfl)) | split)

theorem execGroupClear_keeps {z : State} (k : SesId) (g : GroupId) (v : Byte) (s : State) (h0 : Keeps none z s) : ∃ u, execGroupClear k g v s = .next u ∧ Keeps none z u := by
  unfold execGroupClear
  try dsimp only
  repeat' (first | (with_reducible refine ⟨_, rfl, ?_⟩) | with_reducible assumption | with_reducible apply hostWrite_keeps | with_reducible apply Keeps.ite | (with_reducible refine Keeps.foldl ?_ (fun _ _ _ => ?_)) | (fail_if_no_progress (with_reducible refine Keeps.frame ?_ rfl rfl rfl rfl)) | split)

theorem execRegisterWrite_keeps {z : State} (k : SesId) (index : Half) (sub : Byte) (d : Bytes) (s : State) (h0 : Keeps none z s) : ∃ u, execRegisterWrite k index sub d s = .next u ∧ Keeps none z u := by
  unfold execRegisterWrite
  try dsimp only
  repeat' (first | (with_reducible refine ⟨_, rfl, ?_⟩) | with_reducible assumption | with_reducible apply hostWrite_keeps | with_reducible apply Keeps.ite | (with_reducible refine Keeps.foldl ?_ (fun _ _ _ => ?_)) | (fail_if_no_progress (with_reducible refine Keeps.frame ?_ rfl rfl rfl rfl)) | split)

theorem execDomainSegment_keeps {z : State} (k : SesId) (index : Half) (sub : Byte) (size : Option Nat) (d : Bytes) (last : Bool) (s : State) (h0 : Keeps none z s) : ∃ u, execDomainSegment k index sub size d last s = .next u ∧ Keeps none z u := by
  unfold execDomainSegment
  try dsimp only
  repeat' (first | (with_reducible refine ⟨_, rfl, ?_⟩) | with_reducible assumption | with_reducible apply segment_keeps | with_reducible apply Keeps.ite | (with_reducible refine Keeps.foldl ?_ (fun _ _ _ => ?_)) | (fail_if_no_progress (with_reducible refine Keeps.frame ?_ rfl rfl rfl rfl)) | split)

theorem execSegmentPauseTimeout_keeps {z : State} (k : SesId) (s : State) (h0 : Keeps none z s) : ∃ u, execSegmentPauseTimeout k s = .next u ∧ Keeps none z u := by
  unfold execSegmentPauseTimeout
  try dsimp only
  repeat' (first | (with_reducible refine ⟨_, rfl, ?_⟩) | with_reducible assumption | with_reducible apply answer_keeps | with_reducible apply dropXfer_keeps | with_reducible apply Keeps.ite | (with_reducible refine Keeps.foldl ?_ (fun _ _ _ => ?_)) | (fail_if_no_progress (with_reducible refine Keeps.frame ?_ rfl rfl rfl rfl)) | split)

theorem execHostSdoAbort_keeps {z : State} (k : SesId) (s : State) (h0 : Keeps none z s) : ∃ u, execHostSdoAbort k s = .next u ∧ Keeps none z u := by
  unfold execHostSdoAbort
  try dsimp only
  repeat' (first | (with_reducible refine ⟨_, rfl, ?_⟩) | with_reducible assumption | with_reducible apply dropXfer_keeps | with_reducible apply Keeps.ite | (with_reducible refine Keeps.foldl ?_ (fun _ _ _ => ?_)) | (fail_if_no_progress (with_reducible refine Keeps.frame ?_ rfl rfl rfl rfl)) | split)

theorem execRequested_keeps {z : State} (k : SesId) (v : Half) (s : State) (h0 : Keeps none z s) : ∃ u, execRequested k v s = .next u ∧ Keeps none z u := by
  unfold execRequested
  try dsimp only
  repeat' (first | (with_reducible refine ⟨_, rfl, ?_⟩) | with_reducible assumption | with_reducible apply hostWrite_keeps | with_reducible apply Keeps.ite | (with_reducible refine Keeps.foldl ?_ (fun _ _ _ => ?_)) | (fail_if_no_progress (with_reducible refine Keeps.frame ?_ rfl rfl rfl rfl)) | split)

theorem execErrorCount_keeps {z : State} (k : SesId) (v : Byte) (s : State) (h0 : Keeps none z s) : ∃ u, execErrorCount k v s = .next u ∧ Keeps none z u := by
  unfold execErrorCount
  try dsimp only
  repeat' (first | (with_reducible refine ⟨_, rfl, ?_⟩) | with_reducible assumption | with_reducible apply hostWrite_keeps | with_reducible apply Keeps.ite | (with_reducible refine Keeps.foldl ?_ (fun _ _ _ => ?_)) | (fail_if_no_progress (with_reducible refine Keeps.frame ?_ rfl rfl rfl rfl)) | split)

theorem execMapEntry_keeps {z : State} (k : SesId) (tx : Bool) (p : Fin 4) (i : Fin 32) (v : Word) (s : State) (h0 : Keeps none z s) : ∃ u, execMapEntry k tx p i v s = .next u ∧ Keeps none z u := by
  unfold execMapEntry
  try dsimp only
  repeat' (first | (with_reducible refine ⟨_, rfl, ?_⟩) | with_reducible assumption | with_reducible apply hostWrite_keeps | with_reducible apply Keeps.ite | (with_reducible refine Keeps.foldl ?_ (fun _ _ _ => ?_)) | (fail_if_no_progress (with_reducible refine Keeps.frame ?_ rfl rfl rfl rfl)) | split)

theorem execMapCount_keeps {z : State} (k : SesId) (tx : Bool) (p : Fin 4) (v : Byte) (s : State) (h0 : Keeps none z s) : ∃ u, execMapCount k tx p v s = .next u ∧ Keeps none z u := by
  unfold execMapCount
  try dsimp only
  repeat' (first | (with_reducible refine ⟨_, rfl, ?_⟩) | with_reducible assumption | with_reducible apply hostWrite_keeps | with_reducible apply Keeps.ite | (with_reducible refine Keeps.foldl ?_ (fun _ _ _ => ?_)) | (fail_if_no_progress (with_reducible refine Keeps.frame ?_ rfl rfl rfl rfl)) | split)

theorem execPdoAssign_keeps {z : State} (k : SesId) (tx : Bool) (i : Fin 4) (v : Half) (s : State) (h0 : Keeps none z s) : ∃ u, execPdoAssign k tx i v s = .next u ∧ Keeps none z u := by
  unfold execPdoAssign
  try dsimp only
  repeat' (first | (with_reducible refine ⟨_, rfl, ?_⟩) | with_reducible assumption | with_reducible apply hostWrite_keeps | with_reducible apply Keeps.ite | (with_reducible refine Keeps.foldl ?_ (fun _ _ _ => ?_)) | (fail_if_no_progress (with_reducible refine Keeps.frame ?_ rfl rfl rfl rfl)) | split)

theorem execEmergencySend_keeps {z : State} (k : SesId) (s : State) (h0 : Keeps none z s) : ∃ u, execEmergencySend k s = .next u ∧ Keeps none z u := by
  unfold execEmergencySend
  try dsimp only
  repeat' (first | (with_reducible refine ⟨_, rfl, ?_⟩) | with_reducible assumption | with_reducible apply sendEmergency_keeps | with_reducible apply Keeps.ite | (with_reducible refine Keeps.foldl ?_ (fun _ _ _ => ?_)) | (fail_if_no_progress (with_reducible refine Keeps.frame ?_ rfl rfl rfl rfl)) | split)

theorem execLogCursor_keeps {z : State} (k : SesId) (v : Word) (s : State) (h0 : Keeps none z s) : ∃ u, execLogCursor k v s = .next u ∧ Keeps none z u := by
  unfold execLogCursor
  try dsimp only
  repeat' (first | (with_reducible refine ⟨_, rfl, ?_⟩) | with_reducible assumption | with_reducible apply hostWrite_keeps | with_reducible apply Keeps.ite | (with_reducible refine Keeps.foldl ?_ (fun _ _ _ => ?_)) | (fail_if_no_progress (with_reducible refine Keeps.frame ?_ rfl rfl rfl rfl)) | split)

theorem execLogEntry_keeps {z : State} (k : SesId) (s : State) (h0 : Keeps none z s) : ∃ u, execLogEntry k s = .next u ∧ Keeps none z u := by
  unfold execLogEntry
  try dsimp only
  repeat' (first | (with_reducible refine ⟨_, rfl, ?_⟩) | with_reducible assumption | with_reducible apply hostRead_keeps | with_reducible apply Keeps.ite | (with_reducible refine Keeps.foldl ?_ (fun _ _ _ => ?_)) | (fail_if_no_progress (with_reducible refine Keeps.frame ?_ rfl rfl rfl rfl)) | split)

theorem execSyncType_keeps {z : State} (k : SesId) (v : Half) (s : State) (h0 : Keeps none z s) : ∃ u, execSyncType k v s = .next u ∧ Keeps none z u := by
  unfold execSyncType
  try dsimp only
  repeat' (first | (with_reducible refine ⟨_, rfl, ?_⟩) | with_reducible assumption | with_reducible apply hostWrite_keeps | with_reducible apply Keeps.ite | (with_reducible refine Keeps.foldl ?_ (fun _ _ _ => ?_)) | (fail_if_no_progress (with_reducible refine Keeps.frame ?_ rfl rfl rfl rfl)) | split)

theorem execActiveCeiling_keeps {z : State} (k : SesId) (v : Byte) (s : State) (h0 : Keeps none z s) : ∃ u, execActiveCeiling k v s = .next u ∧ Keeps none z u := by
  unfold execActiveCeiling
  try dsimp only
  repeat' (first | (with_reducible refine ⟨_, rfl, ?_⟩) | with_reducible assumption | with_reducible apply hostWrite_keeps | with_reducible apply Keeps.ite | (with_reducible refine Keeps.foldl ?_ (fun _ _ _ => ?_)) | (fail_if_no_progress (with_reducible refine Keeps.frame ?_ rfl rfl rfl rfl)) | split)

theorem execIdleProfile_keeps {z : State} (k : SesId) (v : Byte) (s : State) (h0 : Keeps none z s) : ∃ u, execIdleProfile k v s = .next u ∧ Keeps none z u := by
  unfold execIdleProfile
  try dsimp only
  repeat' (first | (with_reducible refine ⟨_, rfl, ?_⟩) | with_reducible assumption | with_reducible apply hostWrite_keeps | with_reducible apply Keeps.ite | (with_reducible refine Keeps.foldl ?_ (fun _ _ _ => ?_)) | (fail_if_no_progress (with_reducible refine Keeps.frame ?_ rfl rfl rfl rfl)) | split)

theorem execDeepSleep_keeps {z : State} (k : SesId) (v : Byte) (s : State) (h0 : Keeps none z s) : ∃ u, execDeepSleep k v s = .next u ∧ Keeps none z u := by
  unfold execDeepSleep
  try dsimp only
  repeat' (first | (with_reducible refine ⟨_, rfl, ?_⟩) | with_reducible assumption | with_reducible apply hostWrite_keeps | with_reducible apply Keeps.ite | (with_reducible refine Keeps.foldl ?_ (fun _ _ _ => ?_)) | (fail_if_no_progress (with_reducible refine Keeps.frame ?_ rfl rfl rfl rfl)) | split)

theorem execRampDwell_keeps {z : State} (k : SesId) (v : Byte) (s : State) (h0 : Keeps none z s) : ∃ u, execRampDwell k v s = .next u ∧ Keeps none z u := by
  unfold execRampDwell
  try dsimp only
  repeat' (first | (with_reducible refine ⟨_, rfl, ?_⟩) | with_reducible assumption | with_reducible apply hostWrite_keeps | with_reducible apply Keeps.ite | (with_reducible refine Keeps.foldl ?_ (fun _ _ _ => ?_)) | (fail_if_no_progress (with_reducible refine Keeps.frame ?_ rfl rfl rfl rfl)) | split)

theorem execIdleHold_keeps {z : State} (k : SesId) (t : Tenant) (v : Word) (s : State) (h0 : Keeps none z s) : ∃ u, execIdleHold k t v s = .next u ∧ Keeps none z u := by
  unfold execIdleHold
  try dsimp only
  repeat' (first | (with_reducible refine ⟨_, rfl, ?_⟩) | with_reducible assumption | with_reducible apply hostWrite_keeps | with_reducible apply Keeps.ite | (with_reducible refine Keeps.foldl ?_ (fun _ _ _ => ?_)) | (fail_if_no_progress (with_reducible refine Keeps.frame ?_ rfl rfl rfl rfl)) | split)

theorem execGateRun_keeps {z : State} (k : SesId) (v : Word) (s : State) (h0 : Keeps none z s) : ∃ u, execGateRun k v s = .next u ∧ Keeps none z u := by
  unfold execGateRun
  try dsimp only
  repeat' (first | (with_reducible refine ⟨_, rfl, ?_⟩) | with_reducible assumption | with_reducible apply hostWrite_keeps | with_reducible apply Keeps.ite | (with_reducible refine Keeps.foldl ?_ (fun _ _ _ => ?_)) | (fail_if_no_progress (with_reducible refine Keeps.frame ?_ rfl rfl rfl rfl)) | split)

theorem execGateSleep_keeps {z : State} (k : SesId) (v : Word) (s : State) (h0 : Keeps none z s) : ∃ u, execGateSleep k v s = .next u ∧ Keeps none z u := by
  unfold execGateSleep
  try dsimp only
  repeat' (first | (with_reducible refine ⟨_, rfl, ?_⟩) | with_reducible assumption | with_reducible apply hostWrite_keeps | with_reducible apply Keeps.ite | (with_reducible refine Keeps.foldl ?_ (fun _ _ _ => ?_)) | (fail_if_no_progress (with_reducible refine Keeps.frame ?_ rfl rfl rfl rfl)) | split)

theorem execGateDeep_keeps {z : State} (k : SesId) (v : Word) (s : State) (h0 : Keeps none z s) : ∃ u, execGateDeep k v s = .next u ∧ Keeps none z u := by
  unfold execGateDeep
  try dsimp only
  repeat' (first | (with_reducible refine ⟨_, rfl, ?_⟩) | with_reducible assumption | with_reducible apply hostWrite_keeps | with_reducible apply Keeps.ite | (with_reducible refine Keeps.foldl ?_ (fun _ _ _ => ?_)) | (fail_if_no_progress (with_reducible refine Keeps.frame ?_ rfl rfl rfl rfl)) | split)

theorem execRefSelect_keeps {z : State} (k : SesId) (v : Byte) (s : State) (h0 : Keeps none z s) : ∃ u, execRefSelect k v s = .next u ∧ Keeps none z u := by
  unfold execRefSelect
  try dsimp only
  repeat' (first | (with_reducible refine ⟨_, rfl, ?_⟩) | with_reducible assumption | with_reducible apply hostWrite_keeps | with_reducible apply Keeps.ite | (with_reducible refine Keeps.foldl ?_ (fun _ _ _ => ?_)) | (fail_if_no_progress (with_reducible refine Keeps.frame ?_ rfl rfl rfl rfl)) | split)

theorem resetBy_keeps {z : State} (s : State) (k : SesId) (v : Byte) (r : StartReport) (h0 : Keeps none z s) : Keeps none z (resetBy s k v r) := by
  unfold resetBy
  try dsimp only
  repeat' (first | with_reducible assumption | with_reducible apply applyReset_keeps | with_reducible apply writeBy_keeps | with_reducible apply Keeps.ite | (with_reducible refine Keeps.foldl ?_ (fun _ _ _ => ?_)) | (fail_if_no_progress (with_reducible refine Keeps.frame ?_ rfl rfl rfl rfl)) | intro _ | split)

theorem execResetWarm_keeps {z : State} (k : SesId) (r : StartReport) (s : State) (h0 : Keeps none z s) : ∃ u, execResetWarm k r s = .next u ∧ Keeps none z u := by
  unfold execResetWarm
  try dsimp only
  repeat' (first | (with_reducible refine ⟨_, rfl, ?_⟩) | with_reducible assumption | with_reducible apply resetBy_keeps | with_reducible apply Keeps.ite | (with_reducible refine Keeps.foldl ?_ (fun _ _ _ => ?_)) | (fail_if_no_progress (with_reducible refine Keeps.frame ?_ rfl rfl rfl rfl)) | split)

theorem execResetCold_keeps {z : State} (k : SesId) (r : StartReport) (s : State) (h0 : Keeps none z s) : ∃ u, execResetCold k r s = .next u ∧ Keeps none z u := by
  unfold execResetCold
  try dsimp only
  repeat' (first | (with_reducible refine ⟨_, rfl, ?_⟩) | with_reducible assumption | with_reducible apply resetBy_keeps | with_reducible apply Keeps.ite | (with_reducible refine Keeps.foldl ?_ (fun _ _ _ => ?_)) | (fail_if_no_progress (with_reducible refine Keeps.frame ?_ rfl rfl rfl rfl)) | split)

theorem execNonce_keeps {z : State} (k : SesId) (d : Bytes) (s : State) (h0 : Keeps none z s) : ∃ u, execNonce k d s = .next u ∧ Keeps none z u := by
  unfold execNonce
  try dsimp only
  repeat' (first | (with_reducible refine ⟨_, rfl, ?_⟩) | with_reducible assumption | with_reducible apply hostWrite_keeps | with_reducible apply Keeps.ite | (with_reducible refine Keeps.foldl ?_ (fun _ _ _ => ?_)) | (fail_if_no_progress (with_reducible refine Keeps.frame ?_ rfl rfl rfl rfl)) | split)

theorem execKeyRecord_keeps {z : State} (k : SesId) (d : Bytes) (s : State) (h0 : Keeps none z s) : ∃ u, execKeyRecord k d s = .next u ∧ Keeps none z u := by
  unfold execKeyRecord
  try dsimp only
  repeat' (first | (with_reducible refine ⟨_, rfl, ?_⟩) | with_reducible assumption | with_reducible apply hostWrite_keeps | with_reducible apply Keeps.ite | (with_reducible refine Keeps.foldl ?_ (fun _ _ _ => ?_)) | (fail_if_no_progress (with_reducible refine Keeps.frame ?_ rfl rfl rfl rfl)) | split)

theorem execFirmware_keeps {z : State} (k : SesId) (d : Bytes) (s : State) (h0 : Keeps none z s) : ∃ u, execFirmware k d s = .next u ∧ Keeps none z u := by
  unfold execFirmware
  try dsimp only
  repeat' (first | (with_reducible refine ⟨_, rfl, ?_⟩) | with_reducible assumption | with_reducible apply hostWrite_keeps | with_reducible apply Keeps.ite | (with_reducible refine Keeps.foldl ?_ (fun _ _ _ => ?_)) | (fail_if_no_progress (with_reducible refine Keeps.frame ?_ rfl rfl rfl rfl)) | split)

theorem execTideCmd_keeps {z : State} (k : SesId) (v : Byte) (s : State) (h0 : Keeps none z s) : ∃ u, execTideCmd k v s = .next u ∧ Keeps none z u := by
  unfold execTideCmd
  try dsimp only
  repeat' (first | (with_reducible refine ⟨_, rfl, ?_⟩) | with_reducible assumption | with_reducible apply hostWrite_keeps | with_reducible apply Keeps.ite | (with_reducible refine Keeps.foldl ?_ (fun _ _ _ => ?_)) | (fail_if_no_progress (with_reducible refine Keeps.frame ?_ rfl rfl rfl rfl)) | split)

end Sys2Proof.Machine
end

