-- ==== Sys2Proof/Laws/KeepsNetwork.lean ====
section
/-! SUPPORT. The operations of Machine/Network.lean keep the queue, the counters and the invariant. -/

set_option linter.unusedTactic false
set_option linter.unusedVariables false
set_option linter.unreachableTactic false

namespace Sys2Proof.Machine

theorem serve_keeps {z : State} (s : State) (k : SesId) (r : SdoReq) (h0 : Keeps none z s) : Keeps none z (serve s k r) := by
  unfold serve
  try dsimp only
  repeat' (first | with_reducible assumption | with_reducible apply answer_keeps | with_reducible apply hostWrite_keeps | with_reducible apply hostRead_keeps | with_reducible apply Keeps.ite | (with_reducible refine Keeps.foldl ?_ (fun _ _ _ => ?_)) | (fail_if_no_progress (with_reducible refine Keeps.frame ?_ rfl rfl rfl rfl)) | split)

theorem pdoPut_keeps {z : State} (s : State) (k : SesId) (e : Word) (d : Bytes) (h0 : Keeps none z s) : Keeps none z (pdoPut s k e d) := by
  unfold pdoPut
  try dsimp only
  repeat' (first | with_reducible assumption | with_reducible apply objWrite_keeps | with_reducible apply Keeps.ite | (with_reducible refine Keeps.foldl ?_ (fun _ _ _ => ?_)) | (fail_if_no_progress (with_reducible refine Keeps.frame ?_ rfl rfl rfl rfl)) | split)

theorem latchInputs_keeps {ex : Option TileId} {z : State} (s : State) (e : CtrlId) (h0 : Keeps ex z s) : Keeps ex z (latchInputs s e) := by
  unfold latchInputs
  try dsimp only
  repeat' (first | with_reducible assumption | with_reducible apply modEsc_keeps | with_reducible apply Keeps.ite | (with_reducible refine Keeps.foldl ?_ (fun _ _ _ => ?_)) | (fail_if_no_progress (with_reducible refine Keeps.frame ?_ rfl rfl rfl rfl)) | split)

theorem pdoWrite_keeps {z : State} (k : SesId) (l : List Word) (d : Bytes) (s : State) (h0 : Keeps none z s) :
    Keeps none z (pdoWrite k l d s) := by
  induction l generalizing d s with
  | nil => exact h0
  | cons e r ih => exact ih _ _ (pdoPut_keeps _ _ _ _ h0)

theorem outputs_keeps {z : State} (s : State) (e : CtrlId) (l : List Tenant) (a : State × Bytes) (h0 : Keeps none z a.1) :
    Keeps none z (l.foldl (fun (a : State × Bytes) t =>
      (if escOf s t = some e then pdoWrite (tenSes t)
        ((assigned (ses a.1 (tenSes t)) false).flatMap (pdoEntries (ses a.1 (tenSes t)) false))
        (a.2.take (imageLen (ses a.1 (tenSes t)) false)) a.1 else a.1,
       a.2.drop (imageLen (ses a.1 (tenSes t)) false))) a).1 := by
  induction l generalizing a with
  | nil => exact h0
  | cons t r ih => exact ih _ (Keeps.ite (pdoWrite_keeps _ _ _ _ h0) h0)

theorem applyOutputs_keeps {z : State} (s : State) (e : CtrlId) (h0 : Keeps none z s) : Keeps none z (applyOutputs s e) := by
  unfold applyOutputs
  exact outputs_keeps _ _ _ _ h0

theorem enterAl_keeps {ex : Option TileId} {z : State} (s : State) (e : CtrlId) (new : AlState) (c : EscConfig) (h0 : Keeps ex z s) : Keeps ex z (enterAl s e new c) := by
  unfold enterAl
  try dsimp only
  repeat' (first | with_reducible assumption | with_reducible apply modEsc_keeps | with_reducible apply syncSes_keeps | with_reducible apply Keeps.ite | (with_reducible refine Keeps.foldl ?_ (fun _ _ _ => ?_)) | (fail_if_no_progress (with_reducible refine Keeps.frame ?_ rfl rfl rfl rfl)) | split)

theorem execEscAlControl_keeps {z : State} (e : CtrlId) (req : AlState) (c : EscConfig) (s : State) (h0 : Keeps none z s) : ∃ u, execEscAlControl e req c s = .next u ∧ Keeps none z u := by
  unfold execEscAlControl
  try dsimp only
  repeat' (first | (with_reducible refine ⟨_, rfl, ?_⟩) | with_reducible assumption | with_reducible apply modEsc_keeps | with_reducible apply refuse_keeps | with_reducible apply enterAl_keeps | with_reducible apply Keeps.ite | (with_reducible refine Keeps.foldl ?_ (fun _ _ _ => ?_)) | (fail_if_no_progress (with_reducible refine Keeps.frame ?_ rfl rfl rfl rfl)) | split)

theorem execMailboxRequest_keeps {z : State} (e : CtrlId) (channel : BitVec 6) (m : MailboxMsg) (s : State) (h0 : Keeps none z s) : ∃ u, execMailboxRequest e channel m s = .next u ∧ Keeps none z u := by
  unfold execMailboxRequest
  try dsimp only
  repeat' (first | (with_reducible refine ⟨_, rfl, ?_⟩) | with_reducible assumption | with_reducible apply modEsc_keeps | with_reducible apply serve_keeps | with_reducible apply Keeps.ite | (with_reducible refine Keeps.foldl ?_ (fun _ _ _ => ?_)) | (fail_if_no_progress (with_reducible refine Keeps.frame ?_ rfl rfl rfl rfl)) | split)

theorem execSdoInformation_keeps {z : State} (k : SesId) (r : InfoReq) (s : State) (h0 : Keeps none z s) : ∃ u, execSdoInformation k r s = .next u ∧ Keeps none z u := by
  unfold execSdoInformation
  try dsimp only
  repeat' (first | (with_reducible refine ⟨_, rfl, ?_⟩) | with_reducible assumption | with_reducible apply modEsc_keeps | with_reducible apply answer_keeps | with_reducible apply Keeps.ite | (with_reducible refine Keeps.foldl ?_ (fun _ _ _ => ?_)) | (fail_if_no_progress (with_reducible refine Keeps.frame ?_ rfl rfl rfl rfl)) | split)

theorem setFoe_keeps {ex : Option TileId} {z : State} (s : State) (code : Half) (abort : Word) (h0 : Keeps ex z s) : Keeps ex z (setFoe s code abort) := by
  unfold setFoe
  try dsimp only
  repeat' (first | with_reducible assumption | with_reducible apply Keeps.ite | (with_reducible refine Keeps.foldl ?_ (fun _ _ _ => ?_)) | (fail_if_no_progress (with_reducible refine Keeps.frame ?_ rfl rfl rfl rfl)) | split)

theorem execFoeWrite_keeps {z : State} (k : SesId) (name : String) (password : Word) (d : Bytes) (s : State) (h0 : Keeps none z s) : ∃ u, execFoeWrite k name password d s = .next u ∧ Keeps none z u := by
  unfold execFoeWrite
  try dsimp only
  repeat' (first | (with_reducible refine ⟨_, rfl, ?_⟩) | with_reducible assumption | with_reducible apply hostWrite_keeps | with_reducible apply setFoe_keeps | with_reducible apply Keeps.ite | (with_reducible refine Keeps.foldl ?_ (fun _ _ _ => ?_)) | (fail_if_no_progress (with_reducible refine Keeps.frame ?_ rfl rfl rfl rfl)) | split)

theorem execFoeRead_keeps {z : State} (k : SesId) (_name : String) (s : State) (h0 : Keeps none z s) : ∃ u, execFoeRead k _name s = .next u ∧ Keeps none z u := by
  unfold execFoeRead
  try dsimp only
  repeat' (first | (with_reducible refine ⟨_, rfl, ?_⟩) | with_reducible assumption | with_reducible apply setFoe_keeps | with_reducible apply Keeps.ite | (with_reducible refine Keeps.foldl ?_ (fun _ _ _ => ?_)) | (fail_if_no_progress (with_reducible refine Keeps.frame ?_ rfl rfl rfl rfl)) | split)

theorem lateFrames_keeps {ex : Option TileId} {z : State} (s : State) (e : CtrlId) (h0 : Keeps ex z s) : Keeps ex z (lateFrames s e) := by
  unfold lateFrames
  try dsimp only
  repeat' (first | with_reducible assumption | with_reducible apply modEsc_keeps | with_reducible apply bump_keeps | with_reducible apply Keeps.ite | (with_reducible refine Keeps.foldl ?_ (fun _ _ _ => ?_)) | (fail_if_no_progress (with_reducible refine Keeps.frame ?_ rfl rfl rfl rfl)) | split)

theorem execSm2Event_keeps {z : State} (e : CtrlId) (d : Bytes) (s : State) (h0 : Keeps none z s) : ∃ u, execSm2Event e d s = .next u ∧ Keeps none z u := by
  unfold execSm2Event
  try dsimp only
  repeat' (first | (with_reducible refine ⟨_, rfl, ?_⟩) | with_reducible assumption | with_reducible apply modEsc_keeps | with_reducible apply takeMark_keeps | with_reducible apply latchInputs_keeps | with_reducible apply applyOutputs_keeps | with_reducible apply lateFrames_keeps | with_reducible apply Keeps.ite | (with_reducible refine Keeps.foldl ?_ (fun _ _ _ => ?_)) | (fail_if_no_progress (with_reducible refine Keeps.frame ?_ rfl rfl rfl rfl)) | split)

theorem syncEvent_keeps {ex : Option TileId} {z : State} (s : State) (e : CtrlId) (one : Bool) (h0 : Keeps ex z s) : Keeps ex z (syncEvent s e one) := by
  unfold syncEvent
  try dsimp only
  repeat' (first | with_reducible assumption | with_reducible apply modSqr_keeps | with_reducible apply pulsePort_keeps | with_reducible apply startInput_keeps | with_reducible apply Keeps.ite | (with_reducible refine Keeps.foldl ?_ (fun _ _ _ => ?_)) | (fail_if_no_progress (with_reducible refine Keeps.frame ?_ rfl rfl rfl rfl)) | split)

theorem execSync0_keeps {z : State} (e : CtrlId) (s : State) (h0 : Keeps none z s) : ∃ u, execSync0 e s = .next u ∧ Keeps none z u := by
  unfold execSync0
  try dsimp only
  repeat' (first | (with_reducible refine ⟨_, rfl, ?_⟩) | with_reducible assumption | with_reducible apply modEsc_keeps | with_reducible apply takeMark_keeps | with_reducible apply latchInputs_keeps | with_reducible apply applyOutputs_keeps | with_reducible apply syncEvent_keeps | with_reducible apply Keeps.ite | (with_reducible refine Keeps.foldl ?_ (fun _ _ _ => ?_)) | (fail_if_no_progress (with_reducible refine Keeps.frame ?_ rfl rfl rfl rfl)) | split)

theorem execSync1_keeps {z : State} (e : CtrlId) (s : State) (h0 : Keeps none z s) : ∃ u, execSync1 e s = .next u ∧ Keeps none z u := by
  unfold execSync1
  try dsimp only
  repeat' (first | (with_reducible refine ⟨_, rfl, ?_⟩) | with_reducible assumption | with_reducible apply latchInputs_keeps | with_reducible apply syncEvent_keeps | with_reducible apply Keeps.ite | (with_reducible refine Keeps.foldl ?_ (fun _ _ _ => ?_)) | (fail_if_no_progress (with_reducible refine Keeps.frame ?_ rfl rfl rfl rfl)) | split)

theorem execFreeRunLatch_keeps {z : State} (e : CtrlId) (s : State) (h0 : Keeps none z s) : ∃ u, execFreeRunLatch e s = .next u ∧ Keeps none z u := by
  unfold execFreeRunLatch
  try dsimp only
  repeat' (first | (with_reducible refine ⟨_, rfl, ?_⟩) | with_reducible assumption | with_reducible apply latchInputs_keeps | with_reducible apply Keeps.ite | (with_reducible refine Keeps.foldl ?_ (fun _ _ _ => ?_)) | (fail_if_no_progress (with_reducible refine Keeps.frame ?_ rfl rfl rfl rfl)) | split)

theorem execPdWatchdogExpiry_keeps {z : State} (_e : CtrlId) (s : State) (h0 : Keeps none z s) : ∃ u, execPdWatchdogExpiry _e s = .next u ∧ Keeps none z u := by
  unfold execPdWatchdogExpiry
  try dsimp only
  repeat' (first | (with_reducible refine ⟨_, rfl, ?_⟩) | with_reducible assumption | with_reducible apply Keeps.ite | (with_reducible refine Keeps.foldl ?_ (fun _ _ _ => ?_)) | (fail_if_no_progress (with_reducible refine Keeps.frame ?_ rfl rfl rfl rfl)) | split)

theorem setNmt_keeps {ex : Option TileId} {z : State} (s : State) (t : Tenant) (v : NmtState) (h0 : Keeps ex z s) : Keeps ex z (setNmt s t v) := by
  unfold setNmt
  try dsimp only
  repeat' (first | with_reducible assumption | with_reducible apply Keeps.ite | (with_reducible refine Keeps.foldl ?_ (fun _ _ _ => ?_)) | (fail_if_no_progress (with_reducible refine Keeps.frame ?_ rfl rfl rfl rfl)) | split)

theorem onNodes_keeps {ex : Option TileId} {z : State} (s : State) (c : CtrlId) (node : BitVec 7) (f : State → Tenant → State) (h0 : Keeps ex z s)
    (hf : ∀ u t, Keeps ex z u → Keeps ex z (f u t)) : Keeps ex z (onNodes s c node f) := by
  unfold onNodes
  exact Keeps.ite (Keeps.foldl h0 hf) h0

theorem execNmtStart_keeps {z : State} (c : CtrlId) (node : BitVec 7) (s : State) (h0 : Keeps none z s) : ∃ u, execNmtStart c node s = .next u ∧ Keeps none z u := by
  unfold execNmtStart
  try dsimp only
  repeat' (first | (with_reducible refine ⟨_, rfl, ?_⟩) | with_reducible assumption | with_reducible apply syncSes_keeps | with_reducible apply setNmt_keeps | with_reducible apply onNodes_keeps | with_reducible apply Keeps.ite | (with_reducible refine Keeps.foldl ?_ (fun _ _ _ => ?_)) | (fail_if_no_progress (with_reducible refine Keeps.frame ?_ rfl rfl rfl rfl)) | intro _ | split)

theorem execNmtEnterPreOperational_keeps {z : State} (c : CtrlId) (node : BitVec 7) (s : State) (h0 : Keeps none z s) : ∃ u, execNmtEnterPreOperational c node s = .next u ∧ Keeps none z u := by
  unfold execNmtEnterPreOperational
  try dsimp only
  repeat' (first | (with_reducible refine ⟨_, rfl, ?_⟩) | with_reducible assumption | with_reducible apply syncSes_keeps | with_reducible apply setNmt_keeps | with_reducible apply onNodes_keeps | with_reducible apply Keeps.ite | (with_reducible refine Keeps.foldl ?_ (fun _ _ _ => ?_)) | (fail_if_no_progress (with_reducible refine Keeps.frame ?_ rfl rfl rfl rfl)) | intro _ | split)

theorem execNmtStop_keeps {z : State} (c : CtrlId) (node : BitVec 7) (s : State) (h0 : Keeps none z s) : ∃ u, execNmtStop c node s = .next u ∧ Keeps none z u := by
  unfold execNmtStop
  try dsimp only
  repeat' (first | (with_reducible refine ⟨_, rfl, ?_⟩) | with_reducible assumption | with_reducible apply syncSes_keeps | with_reducible apply setNmt_keeps | with_reducible apply onNodes_keeps | with_reducible apply Keeps.ite | (with_reducible refine Keeps.foldl ?_ (fun _ _ _ => ?_)) | (fail_if_no_progress (with_reducible refine Keeps.frame ?_ rfl rfl rfl rfl)) | intro _ | split)

theorem resetNode_keeps {ex : Option TileId} {z : State} (s : State) (c : CtrlId) (t : Tenant) (h0 : Keeps ex z s) : Keeps ex z (resetNode s c t) := by
  unfold resetNode
  try dsimp only
  repeat' (first | with_reducible assumption | with_reducible apply modSes_keeps | with_reducible apply modCan_keeps | with_reducible apply closeSes_keeps | with_reducible apply syncSes_keeps | with_reducible apply bootNode_keeps | with_reducible apply Keeps.ite | (with_reducible refine Keeps.foldl ?_ (fun _ _ _ => ?_)) | (fail_if_no_progress (with_reducible refine Keeps.frame ?_ rfl rfl rfl rfl)) | split)

theorem execNmtResetCommunication_keeps {z : State} (c : CtrlId) (node : BitVec 7) (s : State) (h0 : Keeps none z s) : ∃ u, execNmtResetCommunication c node s = .next u ∧ Keeps none z u := by
  unfold execNmtResetCommunication
  try dsimp only
  repeat' (first | (with_reducible refine ⟨_, rfl, ?_⟩) | with_reducible assumption | with_reducible apply onNodes_keeps | with_reducible apply resetNode_keeps | with_reducible apply Keeps.ite | (with_reducible refine Keeps.foldl ?_ (fun _ _ _ => ?_)) | (fail_if_no_progress (with_reducible refine Keeps.frame ?_ rfl rfl rfl rfl)) | intro _ | split)

theorem execNmtResetNode_keeps {z : State} (c : CtrlId) (node : BitVec 7) (s : State) (h0 : Keeps none z s) : ∃ u, execNmtResetNode c node s = .next u ∧ Keeps none z u := by
  unfold execNmtResetNode
  try dsimp only
  repeat' (first | (with_reducible refine ⟨_, rfl, ?_⟩) | with_reducible assumption | with_reducible apply onNodes_keeps | with_reducible apply resetNode_keeps | with_reducible apply Keeps.ite | (with_reducible refine Keeps.foldl ?_ (fun _ _ _ => ?_)) | (fail_if_no_progress (with_reducible refine Keeps.frame ?_ rfl rfl rfl rfl)) | intro _ | split)

theorem sendTpdo_keeps {ex : Option TileId} {z : State} (s : State) (c : CtrlId) (t : Tenant) (k : Nat) (h0 : Keeps ex z s) : Keeps ex z (sendTpdo s c t k) := by
  unfold sendTpdo
  try dsimp only
  repeat' (first | with_reducible assumption | with_reducible apply modCan_keeps | with_reducible apply Keeps.ite | (with_reducible refine Keeps.foldl ?_ (fun _ _ _ => ?_)) | (fail_if_no_progress (with_reducible refine Keeps.frame ?_ rfl rfl rfl rfl)) | split)

theorem tpdoSync_keeps {ex : Option TileId} {z : State} (s : State) (c : CtrlId) (t : Tenant) (k : Nat) (h0 : Keeps ex z s) : Keeps ex z (tpdoSync s c t k) := by
  unfold tpdoSync
  try dsimp only
  repeat' (first | with_reducible assumption | with_reducible apply modSes_keeps | with_reducible apply sendTpdo_keeps | with_reducible apply Keeps.ite | (with_reducible refine Keeps.foldl ?_ (fun _ _ _ => ?_)) | (fail_if_no_progress (with_reducible refine Keeps.frame ?_ rfl rfl rfl rfl)) | split)

theorem applyRpdo_keeps {z : State} (s : State) (t : Tenant) (k : Nat) (d : Bytes) (h0 : Keeps none z s) :
    Keeps none z (applyRpdo s t k d) := pdoWrite_keeps _ _ _ _ h0

theorem execCanSync_keeps {z : State} (c : CtrlId) (s : State) (h0 : Keeps none z s) : ∃ u, execCanSync c s = .next u ∧ Keeps none z u := by
  unfold execCanSync
  try dsimp only
  repeat' (first | (with_reducible refine ⟨_, rfl, ?_⟩) | with_reducible assumption | with_reducible apply modCan_keeps | with_reducible apply takeMark_keeps | with_reducible apply tpdoSync_keeps | with_reducible apply applyRpdo_keeps | with_reducible apply Keeps.ite | (with_reducible refine Keeps.foldl ?_ (fun _ _ _ => ?_)) | (fail_if_no_progress (with_reducible refine Keeps.frame ?_ rfl rfl rfl rfl)) | split)

theorem execRpdo_keeps {z : State} (c : CtrlId) (cobId : BitVec 11) (d : Bytes) (s : State) (h0 : Keeps none z s) : ∃ u, execRpdo c cobId d s = .next u ∧ Keeps none z u := by
  unfold execRpdo
  try dsimp only
  repeat' (first | (with_reducible refine ⟨_, rfl, ?_⟩) | with_reducible assumption | with_reducible apply modCan_keeps | with_reducible apply takeMark_keeps | with_reducible apply applyRpdo_keeps | with_reducible apply Keeps.ite | (with_reducible refine Keeps.foldl ?_ (fun _ _ _ => ?_)) | (fail_if_no_progress (with_reducible refine Keeps.frame ?_ rfl rfl rfl rfl)) | split)

theorem execTpdoTransmit_keeps {z : State} (t : Tenant) (k : Fin 4) (s : State) (h0 : Keeps none z s) : ∃ u, execTpdoTransmit t k s = .next u ∧ Keeps none z u := by
  unfold execTpdoTransmit
  try dsimp only
  repeat' (first | (with_reducible refine ⟨_, rfl, ?_⟩) | with_reducible assumption | with_reducible apply sendTpdo_keeps | with_reducible apply Keeps.ite | (with_reducible refine Keeps.foldl ?_ (fun _ _ _ => ?_)) | (fail_if_no_progress (with_reducible refine Keeps.frame ?_ rfl rfl rfl rfl)) | split)

theorem execHeartbeat_keeps {z : State} (t : Tenant) (s : State) (h0 : Keeps none z s) : ∃ u, execHeartbeat t s = .next u ∧ Keeps none z u := by
  unfold execHeartbeat
  try dsimp only
  repeat' (first | (with_reducible refine ⟨_, rfl, ?_⟩) | with_reducible assumption | with_reducible apply modCan_keeps | with_reducible apply Keeps.ite | (with_reducible refine Keeps.foldl ?_ (fun _ _ _ => ?_)) | (fail_if_no_progress (with_reducible refine Keeps.frame ?_ rfl rfl rfl rfl)) | split)

theorem execUsdoRequest_keeps {z : State} (c : CtrlId) (node : BitVec 7) (r : SdoReq) (s : State) (h0 : Keeps none z s) : ∃ u, execUsdoRequest c node r s = .next u ∧ Keeps none z u := by
  unfold execUsdoRequest
  try dsimp only
  repeat' (first | (with_reducible refine ⟨_, rfl, ?_⟩) | with_reducible assumption | with_reducible apply serve_keeps | with_reducible apply Keeps.ite | (with_reducible refine Keeps.foldl ?_ (fun _ _ _ => ?_)) | (fail_if_no_progress (with_reducible refine Keeps.frame ?_ rfl rfl rfl rfl)) | split)

theorem onCan_keeps {ex : Option TileId} {z : State} (s : State) (c : CtrlId) (f : CanCtl → CanCtl) (h0 : Keeps ex z s) : Keeps ex z (onCan s c f) := by
  unfold onCan
  try dsimp only
  repeat' (first | with_reducible assumption | with_reducible apply modCan_keeps | with_reducible apply Keeps.ite | (with_reducible refine Keeps.foldl ?_ (fun _ _ _ => ?_)) | (fail_if_no_progress (with_reducible refine Keeps.frame ?_ rfl rfl rfl rfl)) | split)

theorem execLssConfigureNodeId_keeps {z : State} (c : CtrlId) (nb : Byte) (s : State) (h0 : Keeps none z s) : ∃ u, execLssConfigureNodeId c nb s = .next u ∧ Keeps none z u := by
  unfold execLssConfigureNodeId
  try dsimp only
  repeat' (first | (with_reducible refine ⟨_, rfl, ?_⟩) | with_reducible assumption | with_reducible apply onCan_keeps | with_reducible apply Keeps.ite | (with_reducible refine Keeps.foldl ?_ (fun _ _ _ => ?_)) | (fail_if_no_progress (with_reducible refine Keeps.frame ?_ rfl rfl rfl rfl)) | split)

theorem execLssConfigureBitTiming_keeps {z : State} (c : CtrlId) (selector index : Byte) (s : State) (h0 : Keeps none z s) : ∃ u, execLssConfigureBitTiming c selector index s = .next u ∧ Keeps none z u := by
  unfold execLssConfigureBitTiming
  try dsimp only
  repeat' (first | (with_reducible refine ⟨_, rfl, ?_⟩) | with_reducible assumption | with_reducible apply onCan_keeps | with_reducible apply Keeps.ite | (with_reducible refine Keeps.foldl ?_ (fun _ _ _ => ?_)) | (fail_if_no_progress (with_reducible refine Keeps.frame ?_ rfl rfl rfl rfl)) | split)

theorem execLssStoreConfiguration_keeps {z : State} (c : CtrlId) (s : State) (h0 : Keeps none z s) : ∃ u, execLssStoreConfiguration c s = .next u ∧ Keeps none z u := by
  unfold execLssStoreConfiguration
  try dsimp only
  repeat' (first | (with_reducible refine ⟨_, rfl, ?_⟩) | with_reducible assumption | with_reducible apply onCan_keeps | with_reducible apply Keeps.ite | (with_reducible refine Keeps.foldl ?_ (fun _ _ _ => ?_)) | (fail_if_no_progress (with_reducible refine Keeps.frame ?_ rfl rfl rfl rfl)) | split)

theorem execLssActivateBitTiming_keeps {z : State} (c : CtrlId) (s : State) (h0 : Keeps none z s) : ∃ u, execLssActivateBitTiming c s = .next u ∧ Keeps none z u := by
  unfold execLssActivateBitTiming
  try dsimp only
  repeat' (first | (with_reducible refine ⟨_, rfl, ?_⟩) | with_reducible assumption | with_reducible apply modCan_keeps | with_reducible apply closeSes_keeps | with_reducible apply syncSes_keeps | with_reducible apply bootNode_keeps | with_reducible apply Keeps.ite | (with_reducible refine Keeps.foldl ?_ (fun _ _ _ => ?_)) | (fail_if_no_progress (with_reducible refine Keeps.frame ?_ rfl rfl rfl rfl)) | split)

theorem execNetworkWake_keeps {z : State} (h : HostCh) (f : WakeFrame) (s : State) (h0 : Keeps none z s) : ∃ u, execNetworkWake h f s = .next u ∧ Keeps none z u := by
  unfold execNetworkWake
  try dsimp only
  repeat' (first | (with_reducible refine ⟨_, rfl, ?_⟩) | with_reducible assumption | with_reducible apply takeMark_keeps | with_reducible apply wakeModule_keeps | with_reducible apply Keeps.ite | (with_reducible refine Keeps.foldl ?_ (fun _ _ _ => ?_)) | (fail_if_no_progress (with_reducible refine Keeps.frame ?_ rfl rfl rfl rfl)) | split)

theorem execMaintenanceFrame_keeps {z : State} (d : Bytes) (s : State) (h0 : Keeps none z s) : ∃ u, execMaintenanceFrame d s = .next u ∧ Keeps none z u := by
  unfold execMaintenanceFrame
  try dsimp only
  repeat' (first | (with_reducible refine ⟨_, rfl, ?_⟩) | with_reducible assumption | with_reducible apply openSes_keeps | with_reducible apply serve_keeps | with_reducible apply Keeps.ite | (with_reducible refine Keeps.foldl ?_ (fun _ _ _ => ?_)) | (fail_if_no_progress (with_reducible refine Keeps.frame ?_ rfl rfl rfl rfl)) | split)

theorem execMaintenanceSilence_keeps {z : State} (s : State) (h0 : Keeps none z s) : ∃ u, execMaintenanceSilence s = .next u ∧ Keeps none z u := by
  unfold execMaintenanceSilence
  try dsimp only
  repeat' (first | (with_reducible refine ⟨_, rfl, ?_⟩) | with_reducible assumption | with_reducible apply closeSes_keeps | with_reducible apply Keeps.ite | (with_reducible refine Keeps.foldl ?_ (fun _ _ _ => ?_)) | (fail_if_no_progress (with_reducible refine Keeps.frame ?_ rfl rfl rfl rfl)) | split)

end Sys2Proof.Machine
end

