-- ==== Sys2Proof/Laws/KeepsPackets.lean ====
section
/-! SUPPORT. The operations of Machine/Packets.lean keep the queue, the counters and the invariant. -/

set_option linter.unusedTactic false
set_option linter.unusedVariables false
set_option linter.unreachableTactic false

namespace Sys2Proof.Machine

theorem badHeader_keeps {ex : Option TileId} {z : State} (s : State) (n : NiId) (p : Pkt) (h0 : Keeps ex z s) : Keeps ex z (badHeader s n p) := by
  unfold badHeader
  try dsimp only
  repeat' (first | with_reducible assumption | with_reducible apply logEvent_keeps | with_reducible apply Keeps.ite | (with_reducible refine Keeps.foldl ?_ (fun _ _ _ => ?_)) | (fail_if_no_progress (with_reducible refine Keeps.frame ?_ rfl rfl rfl rfl)) | split)

theorem respond_keeps {ex : Option TileId} {z : State} (s : State) (n : NiId) (p : Pkt) (ty : BitVec 4) (status : Half) (data : Bytes) (h0 : Keeps ex z s) : Keeps ex z (respond s n p ty status data) := by
  unfold respond
  try dsimp only
  repeat' (first | with_reducible assumption | with_reducible apply modNi_keeps | with_reducible apply Keeps.ite | (with_reducible refine Keeps.foldl ?_ (fun _ _ _ => ?_)) | (fail_if_no_progress (with_reducible refine Keeps.frame ?_ rfl rfl rfl rfl)) | split)

theorem tileRead_keeps {ex : Option TileId} {z : State} (s : State) (q : TileId) (p : Pkt) (h0 : Keeps ex z s) : Keeps ex z (tileRead s q p).2 := by
  unfold tileRead
  try dsimp only
  repeat' (first | with_reducible assumption | with_reducible apply setPe_keeps | with_reducible apply Keeps.ite | (with_reducible refine Keeps.foldl ?_ (fun _ _ _ => ?_)) | (fail_if_no_progress (with_reducible refine Keeps.frame ?_ rfl rfl rfl rfl)) | split)

theorem tileWrite_keeps {ex : Option TileId} {z : State} (s : State) (q : TileId) (p : Pkt) (h0 : Keeps ex z s) : Keeps ex z (tileWrite s q p) := by
  unfold tileWrite
  try dsimp only
  repeat' (first | with_reducible assumption | with_reducible apply setPeBit_keeps | with_reducible apply Keeps.ite | (with_reducible refine Keeps.foldl ?_ (fun _ _ _ => ?_)) | (fail_if_no_progress (with_reducible refine Keeps.frame ?_ rfl rfl rfl rfl)) | split)

theorem loseCopy_keeps {ex : Option TileId} {z : State} (s : State) (t : Tenant) (role : Nat) (h0 : Keeps ex z s) : Keeps ex z (loseCopy s t role) := by
  unfold loseCopy
  try dsimp only
  repeat' (first | with_reducible assumption | with_reducible apply modRun_keeps | with_reducible apply Keeps.ite | (with_reducible refine Keeps.foldl ?_ (fun _ _ _ => ?_)) | (fail_if_no_progress (with_reducible refine Keeps.frame ?_ rfl rfl rfl rfl)) | split)

theorem abortRun_keeps {ex : Option TileId} {z : State} (s : State) (t : Tenant) (cause : Byte) (h0 : Keeps ex z s) : Keeps ex z (abortRun s t cause) := by
  unfold abortRun
  try dsimp only
  repeat' (first | with_reducible assumption | with_reducible apply abortOrders_keeps | with_reducible apply Keeps.ite | (with_reducible refine Keeps.foldl ?_ (fun _ _ _ => ?_)) | (fail_if_no_progress (with_reducible refine Keeps.frame ?_ rfl rfl rfl rfl)) | split)

theorem failedWord_keeps {ex : Option TileId} {z : State} (s : State) (src : NiId) (xm : Bool) (a : Nat) (h0 : Keeps ex z s) : Keeps ex z (failedWord s src xm a).2 := by
  unfold failedWord
  try dsimp only
  repeat' (first | with_reducible assumption | with_reducible apply readFailed_keeps | with_reducible apply readCopied_keeps | with_reducible apply recompute_keeps | with_reducible apply memFault_keeps | with_reducible apply xmWordFails_keeps | with_reducible apply loseCopy_keeps | with_reducible apply abortRun_keeps | with_reducible apply Keeps.ite | (with_reducible refine Keeps.foldl ?_ (fun _ _ _ => ?_)) | (fail_if_no_progress (with_reducible refine Keeps.frame ?_ rfl rfl rfl rfl)) | split)

theorem memRead_keeps {ex : Option TileId} {z : State} (s : State) (src : NiId) (xm : Bool) (a c : Nat) (glitch : Bool)
    (h0 : Keeps ex z s) : Keeps ex z (memRead s src xm a c glitch).2 := by
  have h1 := yieldWindow_keeps s xm a c h0
  unfold memRead
  dsimp only
  generalize List.filter _ _ = bad
  by_cases hb : bad = []
  · rw [if_pos hb]
    dsimp only
    with_reducible exact Keeps.ite (transient_keeps _ _ _ h1) h1
  · rw [if_neg hb]
    dsimp only
    refine settleMem_keeps _ (Keeps.fold2 h1 fun _ _ h => ?_)
    exact failedWord_keeps _ _ _ _ h

theorem memWrite_keeps {ex : Option TileId} {z : State} (s : State) (xm : Bool) (a : Nat) (d : Bytes) (h0 : Keeps ex z s) : Keeps ex z (memWrite s xm a d) := by
  unfold memWrite
  try dsimp only
  repeat' (first | with_reducible assumption | with_reducible apply spWrite_keeps | with_reducible apply xmPut_keeps | with_reducible apply Keeps.ite | (with_reducible refine Keeps.foldl ?_ (fun _ _ _ => ?_)) | (fail_if_no_progress (with_reducible refine Keeps.frame ?_ rfl rfl rfl rfl)) | split)

theorem collide_keeps {ex : Option TileId} {z : State} (s : State) (w : Nat) (y : PortYWrite) (h0 : Keeps ex z s) : Keeps ex z (collide s w y) := by
  unfold collide
  try dsimp only
  repeat' (first | with_reducible assumption | with_reducible apply xmPut_keeps | with_reducible apply Keeps.ite | (with_reducible refine Keeps.foldl ?_ (fun _ _ _ => ?_)) | (fail_if_no_progress (with_reducible refine Keeps.frame ?_ rfl rfl rfl rfl)) | split)

end Sys2Proof.Machine
end

