-- ==== Sys2Proof/Laws/KeepsNoc.lean ====
section
/-! SUPPORT. The operations of Machine/Noc.lean keep the queue, the counters and the invariant. -/

set_option linter.unusedTactic false
set_option linter.unusedVariables false
set_option linter.unreachableTactic false

namespace Sys2Proof.Machine

theorem fly_keeps {ex : Option TileId} {z : State} (s : State) (m n : NiId) (p : Pkt) (cmd : Instr) (h0 : Keeps ex z s) : Keeps ex z (fly s m n p cmd) := by
  unfold fly
  try dsimp only
  repeat' (first | with_reducible assumption | with_reducible apply Keeps.ite | (with_reducible refine Keeps.foldl ?_ (fun _ _ _ => ?_)) | (fail_if_no_progress (with_reducible refine Keeps.frame ?_ rfl rfl rfl rfl)) | split)

theorem launch_keeps {ex : Option TileId} {z : State} (s : State) (m n : NiId) (p : Pkt) (write : Bool) (h0 : Keeps ex z s) : Keeps ex z (launch s m n p write) := by
  unfold launch
  try dsimp only
  repeat' (first | with_reducible assumption | with_reducible apply fly_keeps | with_reducible apply Keeps.ite | (with_reducible refine Keeps.foldl ?_ (fun _ _ _ => ?_)) | (fail_if_no_progress (with_reducible refine Keeps.frame ?_ rfl rfl rfl rfl)) | split)

theorem numbered_keeps {ex : Option TileId} {z : State} (s : State) (m n : NiId) (p : Pkt) (write : Bool) (h0 : Keeps ex z s) : Keeps ex z (numbered s m n p write).2 := by
  unfold numbered
  try dsimp only
  repeat' (first | with_reducible assumption | with_reducible apply Keeps.ite | (with_reducible refine Keeps.foldl ?_ (fun _ _ _ => ?_)) | (fail_if_no_progress (with_reducible refine Keeps.frame ?_ rfl rfl rfl rfl)) | split)

theorem logTransfer_keeps {ex : Option TileId} {z : State} (s : State) (n : NiId) (a : Nat) (h0 : Keeps ex z s) : Keeps ex z (logTransfer s n a) := by
  unfold logTransfer
  try dsimp only
  repeat' (first | with_reducible assumption | with_reducible apply logEvent_keeps | with_reducible apply Keeps.ite | (with_reducible refine Keeps.foldl ?_ (fun _ _ _ => ?_)) | (fail_if_no_progress (with_reducible refine Keeps.frame ?_ rfl rfl rfl rfl)) | split)

theorem seqError_keeps {ex : Option TileId} {z : State} (s : State) (q : SeqId) (tid : BitVec 12) (loss : Bool) (h0 : Keeps ex z s) : Keeps ex z (seqError s q tid loss) := by
  unfold seqError
  try dsimp only
  repeat' (first | with_reducible assumption | with_reducible apply modSqr_keeps | with_reducible apply bump_keeps | with_reducible apply recompute_keeps | with_reducible apply checkMark_keeps | with_reducible apply raiseTrap_keeps | with_reducible apply Keeps.ite | (with_reducible refine Keeps.foldl ?_ (fun _ _ _ => ?_)) | (fail_if_no_progress (with_reducible refine Keeps.frame ?_ rfl rfl rfl rfl)) | split)

theorem ingestLost_keeps {ex : Option TileId} {z : State} (s : State) (t : Tenant) (h0 : Keeps ex z s) : Keeps ex z (ingestLost s t) := by
  unfold ingestLost
  try dsimp only
  repeat' (first | with_reducible assumption | with_reducible apply abortOrders_keeps | with_reducible apply Keeps.ite | (with_reducible refine Keeps.foldl ?_ (fun _ _ _ => ?_)) | (fail_if_no_progress (with_reducible refine Keeps.frame ?_ rfl rfl rfl rfl)) | split)

theorem moverLost_keeps {ex : Option TileId} {z : State} (s : State) (o : OutReq) (a : Nat) (h0 : Keeps ex z s) : Keeps ex z (moverLost s o a) := by
  unfold moverLost
  try dsimp only
  repeat' (first | with_reducible assumption | with_reducible apply loseCopy_keeps | with_reducible apply abortRun_keeps | with_reducible apply Keeps.ite | (with_reducible refine Keeps.foldl ?_ (fun _ _ _ => ?_)) | (fail_if_no_progress (with_reducible refine Keeps.frame ?_ rfl rfl rfl rfl)) | split)

theorem reissue_keeps {ex : Option TileId} {z : State} (s : State) (n : NiId) (o : OutReq) (h0 : Keeps ex z s) : Keeps ex z (reissue s n o) := by
  unfold reissue
  try dsimp only
  repeat' (first | with_reducible assumption | with_reducible apply modNi_keeps | with_reducible apply launch_keeps | with_reducible apply Keeps.ite | (with_reducible refine Keeps.foldl ?_ (fun _ _ _ => ?_)) | (fail_if_no_progress (with_reducible refine Keeps.frame ?_ rfl rfl rfl rfl)) | split)

theorem requesterError_keeps {ex : Option TileId} {z : State} (s : State) (n : NiId) (o : OutReq) (st : Half) (h0 : Keeps ex z s) : Keeps ex z (requesterError s n o st) := by
  unfold requesterError
  try dsimp only
  repeat' (first | with_reducible assumption | with_reducible apply answer_keeps | with_reducible apply logTransfer_keeps | with_reducible apply seqError_keeps | with_reducible apply ingestLost_keeps | with_reducible apply moverLost_keeps | with_reducible apply reissue_keeps | with_reducible apply Keeps.ite | (with_reducible refine Keeps.foldl ?_ (fun _ _ _ => ?_)) | (fail_if_no_progress (with_reducible refine Keeps.frame ?_ rfl rfl rfl rfl)) | split)

theorem endRequest_keeps {ex : Option TileId} {z : State} (s : State) (n : NiId) (o : OutReq) (st : Half) (h0 : Keeps ex z s) : Keeps ex z (endRequest s n o st) := by
  unfold endRequest
  try dsimp only
  repeat' (first | with_reducible assumption | with_reducible apply requesterError_keeps | with_reducible apply Keeps.ite | (with_reducible refine Keeps.foldl ?_ (fun _ _ _ => ?_)) | (fail_if_no_progress (with_reducible refine Keeps.frame ?_ rfl rfl rfl rfl)) | split)

theorem noteRequest_keeps {ex : Option TileId} {z : State} (s : State) (m n : NiId) (p : Pkt) (write : Bool) (h0 : Keeps ex z s) : Keeps ex z (noteRequest s m n p write) := by
  unfold noteRequest
  try dsimp only
  repeat' (first | with_reducible assumption | with_reducible apply modNi_keeps | with_reducible apply Keeps.ite | (with_reducible refine Keeps.foldl ?_ (fun _ _ _ => ?_)) | (fail_if_no_progress (with_reducible refine Keeps.frame ?_ rfl rfl rfl rfl)) | split)

theorem nackRequest_keeps {ex : Option TileId} {z : State} (s : State) (n : NiId) (p : Pkt) (r : FenceReason) (h0 : Keeps ex z s) : Keeps ex z (nackRequest s n p r) := by
  unfold nackRequest
  try dsimp only
  repeat' (first | with_reducible assumption | with_reducible apply openGate_keeps | with_reducible apply respond_keeps | with_reducible apply Keeps.ite | (with_reducible refine Keeps.foldl ?_ (fun _ _ _ => ?_)) | (fail_if_no_progress (with_reducible refine Keeps.frame ?_ rfl rfl rfl rfl)) | split)

theorem serveRequest_keeps {z : State} (s : State) (n m : NiId) (p : Pkt) (write : Bool) (serve : State → State) (h0 : Keeps none z s)(hs : Keeps none z (serve s)) : Keeps none z (serveRequest s n m p write serve) := by
  unfold serveRequest
  try dsimp only
  repeat' (first | with_reducible assumption | with_reducible apply logEvent_keeps | with_reducible apply serve_keeps | with_reducible apply respond_keeps | with_reducible apply Keeps.ite | (with_reducible refine Keeps.foldl ?_ (fun _ _ _ => ?_)) | (fail_if_no_progress (with_reducible refine Keeps.frame ?_ rfl rfl rfl rfl)) | with_reducible apply hs | split)

theorem receive_keeps {z : State} (s : State) (m n : NiId) (p : Pkt) (write : Bool) (serve : State → State) (h0 : Keeps none z s)(hs : Keeps none z (serve s)) : Keeps none z (receive s m n p write serve) := by
  unfold receive
  try dsimp only
  repeat' (first | with_reducible assumption | with_reducible apply serve_keeps | with_reducible apply nackRequest_keeps | with_reducible apply serveRequest_keeps | with_reducible apply Keeps.ite | (with_reducible refine Keeps.foldl ?_ (fun _ _ _ => ?_)) | (fail_if_no_progress (with_reducible refine Keeps.frame ?_ rfl rfl rfl rfl)) | with_reducible apply hs | intro _ | split)

theorem serveRead_keeps {ex : Option TileId} {z : State} (p : Pkt) (w : ReadCycle) (n m : NiId) (s : State) (h0 : Keeps ex z s) : Keeps ex z (serveRead p w n m s) := by
  unfold serveRead
  try dsimp only
  repeat' (first | with_reducible assumption | with_reducible apply respond_keeps | with_reducible apply tileRead_keeps | with_reducible apply memRead_keeps | with_reducible apply Keeps.ite | (with_reducible refine Keeps.foldl ?_ (fun _ _ _ => ?_)) | (fail_if_no_progress (with_reducible refine Keeps.frame ?_ rfl rfl rfl rfl)) | split)

theorem serveWrite_keeps {ex : Option TileId} {z : State} (p : Pkt) (portY : Option PortYWrite) (n : NiId) (s : State) (h0 : Keeps ex z s) : Keeps ex z (serveWrite p portY n s) := by
  unfold serveWrite
  try dsimp only
  repeat' (first | with_reducible assumption | with_reducible apply respond_keeps | with_reducible apply tileWrite_keeps | with_reducible apply memWrite_keeps | with_reducible apply collide_keeps | with_reducible apply Keeps.ite | (with_reducible refine Keeps.foldl ?_ (fun _ _ _ => ?_)) | (fail_if_no_progress (with_reducible refine Keeps.frame ?_ rfl rfl rfl rfl)) | split)

theorem dropRequest_keeps {ex : Option TileId} {z : State} (s : State) (m : NiId) (tid : BitVec 12) (h0 : Keeps ex z s) : Keeps ex z (dropRequest s m tid) := by
  unfold dropRequest
  try dsimp only
  repeat' (first | with_reducible assumption | with_reducible apply modNi_keeps | with_reducible apply Keeps.ite | (with_reducible refine Keeps.foldl ?_ (fun _ _ _ => ?_)) | (fail_if_no_progress (with_reducible refine Keeps.frame ?_ rfl rfl rfl rfl)) | split)

theorem takeResponse_keeps {ex : Option TileId} {z : State} (s : State) (m : NiId) (p : Pkt) (eff : OutReq → State → State) (h0 : Keeps ex z s)(hs : ∀ o u, Keeps ex z u → Keeps ex z (eff o u)) : Keeps ex z (takeResponse s m p eff) := by
  unfold takeResponse
  try dsimp only
  repeat' (first | with_reducible assumption | with_reducible apply dropRequest_keeps | with_reducible apply Keeps.ite | (with_reducible refine Keeps.foldl ?_ (fun _ _ _ => ?_)) | (fail_if_no_progress (with_reducible refine Keeps.frame ?_ rfl rfl rfl rfl)) | with_reducible apply hs | split)

theorem memDone_keeps {ex : Option TileId} {z : State} (s : State) (m : NiId) (p : Pkt) (h0 : Keeps ex z s) : Keeps ex z (memDone s m p) := by
  unfold memDone
  try dsimp only
  repeat' (first | with_reducible assumption | with_reducible apply modSqr_keeps | with_reducible apply Keeps.ite | (with_reducible refine Keeps.foldl ?_ (fun _ _ _ => ?_)) | (fail_if_no_progress (with_reducible refine Keeps.frame ?_ rfl rfl rfl rfl)) | split)

theorem deliver_keeps {z : State} (f : Flight) (s : State) (h0 : Keeps none z s) : Keeps none z (deliver f s) := by
  unfold deliver
  try dsimp only
  repeat' (first | with_reducible assumption | with_reducible apply modNi_keeps | with_reducible apply endRequest_keeps | with_reducible apply receive_keeps | with_reducible apply serveRead_keeps | with_reducible apply serveWrite_keeps | with_reducible apply takeResponse_keeps | with_reducible apply memDone_keeps | with_reducible apply Keeps.ite | (with_reducible refine Keeps.foldl ?_ (fun _ _ _ => ?_)) | (fail_if_no_progress (with_reducible refine Keeps.frame ?_ rfl rfl rfl rfl)) | intro _ | split)

theorem comeTo_keeps {z : State} (f : Flight) (s : State) (h0 : Keeps none z s) : Keeps none z (comeTo f s) :=
  arrive_keeps _ _ _ _ _ h0 fun _ _ h => deliver_keeps _ _ h

theorem resend_keeps {ex : Option TileId} {z : State} (s : State) (m repl : NiId) (o : OutReq) (h0 : Keeps ex z s) : Keeps ex z (resend s m repl o) := by
  unfold resend
  try dsimp only
  repeat' (first | with_reducible assumption | with_reducible apply modNi_keeps | with_reducible apply launch_keeps | with_reducible apply numbered_keeps | with_reducible apply Keeps.ite | (with_reducible refine Keeps.foldl ?_ (fun _ _ _ => ?_)) | (fail_if_no_progress (with_reducible refine Keeps.frame ?_ rfl rfl rfl rfl)) | split)

theorem fenceCleared_keeps {ex : Option TileId} {z : State} (s : State) (cleared repl : NiId) (lost : Bool) (h0 : Keeps ex z s) : Keeps ex z (fenceCleared s cleared repl lost) := by
  unfold fenceCleared
  try dsimp only
  repeat' (first | with_reducible assumption | with_reducible apply modNi_keeps | with_reducible apply ingestClear_keeps | with_reducible apply endRequest_keeps | with_reducible apply resend_keeps | with_reducible apply Keeps.ite | (with_reducible refine Keeps.foldl ?_ (fun _ _ _ => ?_)) | (fail_if_no_progress (with_reducible refine Keeps.frame ?_ rfl rfl rfl rfl)) | split)

theorem runNoc_keeps {z : State} (n : Nat) (s : State) (h0 : Keeps none z s) : Keeps none z (runNoc n s) := by
  induction n generalizing s with
  | zero => exact h0
  | succ n ih =>
    unfold runNoc
    dsimp only
    have h1 : Keeps none z { s with noc := { s.noc with clears := [] } } := Keeps.frame h0 rfl rfl rfl rfl
    have h2 := Keeps.foldl (f := fun u (c : NiId × NiId × Bool) => fenceCleared u c.1 c.2.1 c.2.2) (l := s.noc.clears) h1
      fun _ _ h => fenceCleared_keeps _ _ _ _ h
    have h3 := runMesh_keeps comeTo (64 * ((s.noc.clears.foldl (fun u (c : NiId × NiId × Bool) => fenceCleared u c.1 c.2.1 c.2.2)
      { s with noc := { s.noc with clears := [] } }).noc.mesh.length + 1)) _ h2 fun _ _ h => comeTo_keeps _ _ h
    split
    · exact h3
    · exact ih _ h3

theorem nocMoves_keeps {z : State} (s : State) (h0 : Keeps none z s) : Keeps none z (nocMoves s) := by
  unfold nocMoves
  try dsimp only
  repeat' (first | with_reducible assumption | with_reducible apply runNoc_keeps | with_reducible apply Keeps.ite | (with_reducible refine Keeps.foldl ?_ (fun _ _ _ => ?_)) | (fail_if_no_progress (with_reducible refine Keeps.frame ?_ rfl rfl rfl rfl)) | split)

theorem sendPkt_keeps {z : State} (s : State) (m n : NiId) (p : Pkt) (cmd : Instr) (h0 : Keeps none z s) : Keeps none z (sendPkt s m n p cmd) := by
  unfold sendPkt
  try dsimp only
  repeat' (first | with_reducible assumption | with_reducible apply fly_keeps | with_reducible apply comeTo_keeps | with_reducible apply nocMoves_keeps | with_reducible apply Keeps.ite | (with_reducible refine Keeps.foldl ?_ (fun _ _ _ => ?_)) | (fail_if_no_progress (with_reducible refine Keeps.frame ?_ rfl rfl rfl rfl)) | split)

theorem request_keeps {z : State} (s : State) (p : Pkt) (write : Bool) (cmd : Pkt → Instr) (h0 : Keeps none z s) : Keeps none z (request s p write cmd) := by
  unfold request
  try dsimp only
  repeat' (first | with_reducible assumption | with_reducible apply modNi_keeps | with_reducible apply loseSn_keeps | with_reducible apply badHeader_keeps | with_reducible apply respond_keeps | with_reducible apply numbered_keeps | with_reducible apply endRequest_keeps | with_reducible apply noteRequest_keeps | with_reducible apply dropRequest_keeps | with_reducible apply sendPkt_keeps | with_reducible apply Keeps.ite | (with_reducible refine Keeps.foldl ?_ (fun _ _ _ => ?_)) | (fail_if_no_progress (with_reducible refine Keeps.frame ?_ rfl rfl rfl rfl)) | split)

theorem clearFirst_keeps {ex : Option TileId} {z : State} (s : State) (h0 : Keeps ex z s) : Keeps ex z (clearFirst s) := by
  unfold clearFirst
  try dsimp only
  repeat' (first | with_reducible assumption | with_reducible apply Keeps.ite | (with_reducible refine Keeps.foldl ?_ (fun _ _ _ => ?_)) | (fail_if_no_progress (with_reducible refine Keeps.frame ?_ rfl rfl rfl rfl)) | split)

theorem execRead_keeps {z : State} (p : Pkt) (w : ReadCycle) (s : State) (h0 : Keeps none z s) : ∃ u, execRead p w s = .next u ∧ Keeps none z u := by
  unfold execRead
  try dsimp only
  repeat' (first | (with_reducible refine ⟨_, rfl, ?_⟩) | with_reducible assumption | with_reducible apply bump_keeps | with_reducible apply takeMark_keeps | with_reducible apply request_keeps | with_reducible apply clearFirst_keeps | with_reducible apply Keeps.ite | (with_reducible refine Keeps.foldl ?_ (fun _ _ _ => ?_)) | (fail_if_no_progress (with_reducible refine Keeps.frame ?_ rfl rfl rfl rfl)) | split)

theorem execWrite_keeps {z : State} (p : Pkt) (portY : Option PortYWrite) (s : State) (h0 : Keeps none z s) : ∃ u, execWrite p portY s = .next u ∧ Keeps none z u := by
  unfold execWrite
  try dsimp only
  repeat' (first | (with_reducible refine ⟨_, rfl, ?_⟩) | with_reducible assumption | with_reducible apply bump_keeps | with_reducible apply takeMark_keeps | with_reducible apply request_keeps | with_reducible apply clearFirst_keeps | with_reducible apply Keeps.ite | (with_reducible refine Keeps.foldl ?_ (fun _ _ _ => ?_)) | (fail_if_no_progress (with_reducible refine Keeps.frame ?_ rfl rfl rfl rfl)) | split)

theorem response_keeps {z : State} (s : State) (p : Pkt) (ty : BitVec 4) (cmd : Pkt → Instr) (h0 : Keeps none z s) : Keeps none z (response s p ty cmd) := by
  unfold response
  try dsimp only
  repeat' (first | with_reducible assumption | with_reducible apply modNi_keeps | with_reducible apply badHeader_keeps | with_reducible apply sendPkt_keeps | with_reducible apply Keeps.ite | (with_reducible refine Keeps.foldl ?_ (fun _ _ _ => ?_)) | (fail_if_no_progress (with_reducible refine Keeps.frame ?_ rfl rfl rfl rfl)) | split)

theorem execReadResp_keeps {z : State} (p : Pkt) (s : State) (h0 : Keeps none z s) : ∃ u, execReadResp p s = .next u ∧ Keeps none z u := by
  unfold execReadResp
  try dsimp only
  repeat' (first | (with_reducible refine ⟨_, rfl, ?_⟩) | with_reducible assumption | with_reducible apply takeMark_keeps | with_reducible apply response_keeps | with_reducible apply Keeps.ite | (with_reducible refine Keeps.foldl ?_ (fun _ _ _ => ?_)) | (fail_if_no_progress (with_reducible refine Keeps.frame ?_ rfl rfl rfl rfl)) | split)

theorem execWriteResp_keeps {z : State} (p : Pkt) (s : State) (h0 : Keeps none z s) : ∃ u, execWriteResp p s = .next u ∧ Keeps none z u := by
  unfold execWriteResp
  try dsimp only
  repeat' (first | (with_reducible refine ⟨_, rfl, ?_⟩) | with_reducible assumption | with_reducible apply takeMark_keeps | with_reducible apply response_keeps | with_reducible apply Keeps.ite | (with_reducible refine Keeps.foldl ?_ (fun _ _ _ => ?_)) | (fail_if_no_progress (with_reducible refine Keeps.frame ?_ rfl rfl rfl rfl)) | split)

theorem execNackFenced_keeps {z : State} (p : Pkt) (s : State) (h0 : Keeps none z s) : ∃ u, execNackFenced p s = .next u ∧ Keeps none z u := by
  unfold execNackFenced
  try dsimp only
  repeat' (first | (with_reducible refine ⟨_, rfl, ?_⟩) | with_reducible assumption | with_reducible apply takeMark_keeps | with_reducible apply response_keeps | with_reducible apply Keeps.ite | (with_reducible refine Keeps.foldl ?_ (fun _ _ _ => ?_)) | (fail_if_no_progress (with_reducible refine Keeps.frame ?_ rfl rfl rfl rfl)) | split)

theorem execErrorResp_keeps {z : State} (p : Pkt) (s : State) (h0 : Keeps none z s) : ∃ u, execErrorResp p s = .next u ∧ Keeps none z u := by
  unfold execErrorResp
  try dsimp only
  repeat' (first | (with_reducible refine ⟨_, rfl, ?_⟩) | with_reducible assumption | with_reducible apply takeMark_keeps | with_reducible apply response_keeps | with_reducible apply Keeps.ite | (with_reducible refine Keeps.foldl ?_ (fun _ _ _ => ?_)) | (fail_if_no_progress (with_reducible refine Keeps.frame ?_ rfl rfl rfl rfl)) | split)

theorem control_keeps {ex : Option TileId} {z : State} (s : State) (p : Pkt) (ty : BitVec 4) (eff : State → State) (h0 : Keeps ex z s)(hs : ∀ u, Keeps ex z u → Keeps ex z (eff u)) : Keeps ex z (control s p ty eff) := by
  unfold control
  try dsimp only
  repeat' (first | with_reducible assumption | with_reducible apply badHeader_keeps | with_reducible apply Keeps.ite | (with_reducible refine Keeps.foldl ?_ (fun _ _ _ => ?_)) | (fail_if_no_progress (with_reducible refine Keeps.frame ?_ rfl rfl rfl rfl)) | with_reducible apply hs | split)

theorem execFenceClear_keeps {z : State} (cleared replacement : Byte) (p : Pkt) (s : State) (h0 : Keeps none z s) : ∃ u, execFenceClear cleared replacement p s = .next u ∧ Keeps none z u := by
  unfold execFenceClear
  try dsimp only
  repeat' (first | (with_reducible refine ⟨_, rfl, ?_⟩) | with_reducible assumption | with_reducible apply takeMark_keeps | with_reducible apply fenceCleared_keeps | with_reducible apply nocMoves_keeps | with_reducible apply control_keeps | with_reducible apply Keeps.ite | (with_reducible refine Keeps.foldl ?_ (fun _ _ _ => ?_)) | (fail_if_no_progress (with_reducible refine Keeps.frame ?_ rfl rfl rfl rfl)) | intro _ | split)

theorem execRequestTimeout_keeps {z : State} (n : NiId) (tid : BitVec 12) (s : State) (h0 : Keeps none z s) : ∃ u, execRequestTimeout n tid s = .next u ∧ Keeps none z u := by
  unfold execRequestTimeout
  try dsimp only
  repeat' (first | (with_reducible refine ⟨_, rfl, ?_⟩) | with_reducible assumption | with_reducible apply takeMark_keeps | with_reducible apply endRequest_keeps | with_reducible apply dropRequest_keeps | with_reducible apply Keeps.ite | (with_reducible refine Keeps.foldl ?_ (fun _ _ _ => ?_)) | (fail_if_no_progress (with_reducible refine Keeps.frame ?_ rfl rfl rfl rfl)) | split)

theorem execSluiceClose_keeps {z : State} (p : Pkt) (r : FenceReason) (s : State) (h0 : Keeps none z s) : ∃ u, execSluiceClose p r s = .next u ∧ Keeps none z u := by
  unfold execSluiceClose
  try dsimp only
  repeat' (first | (with_reducible refine ⟨_, rfl, ?_⟩) | with_reducible assumption | with_reducible apply closeNi_keeps | with_reducible apply control_keeps | with_reducible apply Keeps.ite | (with_reducible refine Keeps.foldl ?_ (fun _ _ _ => ?_)) | (fail_if_no_progress (with_reducible refine Keeps.frame ?_ rfl rfl rfl rfl)) | intro _ | split)

theorem closeGate_keeps {ex : Option TileId} {z : State} (s : State) (n : NiId) (h0 : Keeps ex z s) : Keeps ex z (closeGate s n) := by
  unfold closeGate
  try dsimp only
  repeat' (first | with_reducible assumption | with_reducible apply setNiSt_keeps | with_reducible apply openGate_keeps | with_reducible apply Keeps.ite | (with_reducible refine Keeps.foldl ?_ (fun _ _ _ => ?_)) | (fail_if_no_progress (with_reducible refine Keeps.frame ?_ rfl rfl rfl rfl)) | split)

theorem afterDrain_keeps {ex : Option TileId} {z : State} (s : State) (n : NiId) (r : FenceReason) (h0 : Keeps ex z s) : Keeps ex z (afterDrain s n r) := by
  unfold afterDrain
  try dsimp only
  repeat' (first | with_reducible assumption | with_reducible apply setNiSt_keeps | with_reducible apply openNi_keeps | with_reducible apply polderOff_keeps | with_reducible apply rampDownStep_keeps | with_reducible apply tileDrained_keeps | with_reducible apply seqDrained_keeps | with_reducible apply closeGate_keeps | with_reducible apply Keeps.ite | (with_reducible refine Keeps.foldl ?_ (fun _ _ _ => ?_)) | (fail_if_no_progress (with_reducible refine Keeps.frame ?_ rfl rfl rfl rfl)) | split)

theorem execNiDrained_keeps {z : State} (n : NiId) (s : State) (h0 : Keeps none z s) : ∃ u, execNiDrained n s = .next u ∧ Keeps none z u := by
  unfold execNiDrained
  try dsimp only
  repeat' (first | (with_reducible refine ⟨_, rfl, ?_⟩) | with_reducible assumption | with_reducible apply setNiSt_keeps | with_reducible apply takeMark_keeps | with_reducible apply quiet_keeps | with_reducible apply nocMoves_keeps | with_reducible apply afterDrain_keeps | with_reducible apply Keeps.ite | (with_reducible refine Keeps.foldl ?_ (fun _ _ _ => ?_)) | (fail_if_no_progress (with_reducible refine Keeps.frame ?_ rfl rfl rfl rfl)) | split)

theorem nackEarly_keeps {ex : Option TileId} {z : State} (s : State) (n : NiId) (h0 : Keeps ex z s) : Keeps ex z (nackEarly s n) := by
  unfold nackEarly
  try dsimp only
  repeat' (first | with_reducible assumption | with_reducible apply modNi_keeps | with_reducible apply nackRequest_keeps | with_reducible apply Keeps.ite | (with_reducible refine Keeps.foldl ?_ (fun _ _ _ => ?_)) | (fail_if_no_progress (with_reducible refine Keeps.frame ?_ rfl rfl rfl rfl)) | split)

theorem execSluiceFaultFence_keeps {z : State} (n : NiId) (s : State) (h0 : Keeps none z s) : ∃ u, execSluiceFaultFence n s = .next u ∧ Keeps none z u := by
  unfold execSluiceFaultFence
  try dsimp only
  repeat' (first | (with_reducible refine ⟨_, rfl, ?_⟩) | with_reducible assumption | with_reducible apply setNiSt_keeps | with_reducible apply takeMark_keeps | with_reducible apply nocMoves_keeps | with_reducible apply afterDrain_keeps | with_reducible apply nackEarly_keeps | with_reducible apply Keeps.ite | (with_reducible refine Keeps.foldl ?_ (fun _ _ _ => ?_)) | (fail_if_no_progress (with_reducible refine Keeps.frame ?_ rfl rfl rfl rfl)) | split)

theorem setRtrSvc_keeps {ex : Option TileId} {z : State} (s : State) (r : RouterId) (v : RouterService) (h0 : Keeps ex z s) : Keeps ex z (setRtrSvc s r v) := by
  unfold setRtrSvc
  try dsimp only
  repeat' (first | with_reducible assumption | with_reducible apply modRtr_keeps | with_reducible apply logEvent_keeps | with_reducible apply Keeps.ite | (with_reducible refine Keeps.foldl ?_ (fun _ _ _ => ?_)) | (fail_if_no_progress (with_reducible refine Keeps.frame ?_ rfl rfl rfl rfl)) | split)

theorem notifyAll_keeps {ex : Option TileId} {z : State} (s : State) (r : RouterId) (on : Bool) (h0 : Keeps ex z s) : Keeps ex z (notifyAll s r on) := by
  unfold notifyAll
  try dsimp only
  repeat' (first | with_reducible assumption | with_reducible apply modRtr_keeps | with_reducible apply Keeps.ite | (with_reducible refine Keeps.foldl ?_ (fun _ _ _ => ?_)) | (fail_if_no_progress (with_reducible refine Keeps.frame ?_ rfl rfl rfl rfl)) | split)

theorem reconfigureRouter_keeps {ex : Option TileId} {z : State} (s : State) (r : RouterId) (f : Router → Router) (h0 : Keeps ex z s) : Keeps ex z (reconfigureRouter s r f) := by
  unfold reconfigureRouter
  try dsimp only
  repeat' (first | with_reducible assumption | with_reducible apply modRtr_keeps | with_reducible apply setRtrSvc_keeps | with_reducible apply notifyAll_keeps | with_reducible apply Keeps.ite | (with_reducible refine Keeps.foldl ?_ (fun _ _ _ => ?_)) | (fail_if_no_progress (with_reducible refine Keeps.frame ?_ rfl rfl rfl rfl)) | split)

theorem noteFence_keeps {ex : Option TileId} {z : State} (s : State) (r : RouterId) (d : Dir) (h0 : Keeps ex z s) : Keeps ex z (noteFence s r d) := by
  unfold noteFence
  try dsimp only
  repeat' (first | with_reducible assumption | with_reducible apply modRtr_keeps | with_reducible apply reconfigureRouter_keeps | with_reducible apply Keeps.ite | (with_reducible refine Keeps.foldl ?_ (fun _ _ _ => ?_)) | (fail_if_no_progress (with_reducible refine Keeps.frame ?_ rfl rfl rfl rfl)) | split)

theorem fenceNotices_keeps {ex : Option TileId} {z : State} (s : State) (r : RouterId) (h0 : Keeps ex z s) : Keeps ex z (fenceNotices s r) := by
  unfold fenceNotices
  try dsimp only
  repeat' (first | with_reducible assumption | with_reducible apply noteFence_keeps | with_reducible apply Keeps.ite | (with_reducible refine Keeps.foldl ?_ (fun _ _ _ => ?_)) | (fail_if_no_progress (with_reducible refine Keeps.frame ?_ rfl rfl rfl rfl)) | split)

theorem changeMode_keeps {ex : Option TileId} {z : State} (s : State) (east : Bool) (h0 : Keeps ex z s) : Keeps ex z (changeMode s east) := by
  unfold changeMode
  try dsimp only
  repeat' (first | with_reducible assumption | with_reducible apply reconfigureRouter_keeps | with_reducible apply Keeps.ite | (with_reducible refine Keeps.foldl ?_ (fun _ _ _ => ?_)) | (fail_if_no_progress (with_reducible refine Keeps.frame ?_ rfl rfl rfl rfl)) | split)

theorem losePackets_keeps {ex : Option TileId} {z : State} (s : State) (r : RouterId) (h0 : Keeps ex z s) : Keeps ex z (losePackets s r) := by
  unfold losePackets
  try dsimp only
  repeat' (first | with_reducible assumption | with_reducible apply dropFlight_keeps | with_reducible apply loseSn_keeps | with_reducible apply Keeps.ite | (with_reducible refine Keeps.foldl ?_ (fun _ _ _ => ?_)) | (fail_if_no_progress (with_reducible refine Keeps.frame ?_ rfl rfl rfl rfl)) | split)

theorem moveAttachment_keeps {ex : Option TileId} {z : State} (s : State) (a b : NiId) (f : Noc → Noc) (h0 : Keeps ex z s) : Keeps ex z (moveAttachment s a b f) := by
  unfold moveAttachment
  try dsimp only
  repeat' (first | with_reducible assumption | with_reducible apply modNi_keeps | with_reducible apply sendClear_keeps | with_reducible apply launch_keeps | with_reducible apply numbered_keeps | with_reducible apply Keeps.ite | (with_reducible refine Keeps.foldl ?_ (fun _ _ _ => ?_)) | (fail_if_no_progress (with_reducible refine Keeps.frame ?_ rfl rfl rfl rfl)) | split)

theorem blockFault_keeps {z : State} (s : State) (n : NiId) (h0 : Keeps none z s) : Keeps none z (blockFault s n) := by
  unfold blockFault
  try dsimp only
  repeat' (first | with_reducible assumption | with_reducible apply modTile_keeps | with_reducible apply setTileSvc_keeps | with_reducible apply tileFault_keeps | with_reducible apply setSeqSvc_keeps | with_reducible apply seqFault_keeps | with_reducible apply pairFault_keeps | with_reducible apply memFault_keeps | with_reducible apply ctrlFault_keeps | with_reducible apply moveAttachment_keeps | with_reducible apply Keeps.ite | (with_reducible refine Keeps.foldl ?_ (fun _ _ _ => ?_)) | (fail_if_no_progress (with_reducible refine Keeps.frame ?_ rfl rfl rfl rfl)) | (exact fun h => h) | (exact fun _ h => h) | exact Or.inl (Or.inr rfl) | exact Or.inl (Or.inl rfl) | split)

theorem endBetween_keeps {ex : Option TileId} {z : State} (s : State) (m n : NiId) (h0 : Keeps ex z s) : Keeps ex z (endBetween s m n) := by
  unfold endBetween
  try dsimp only
  repeat' (first | with_reducible assumption | with_reducible apply modNi_keeps | with_reducible apply endRequest_keeps | with_reducible apply Keeps.ite | (with_reducible refine Keeps.foldl ?_ (fun _ _ _ => ?_)) | (fail_if_no_progress (with_reducible refine Keeps.frame ?_ rfl rfl rfl rfl)) | split)

theorem pathsLost_keeps {ex : Option TileId} {z : State} (s : State) (r : RouterId) (h0 : Keeps ex z s) : Keeps ex z (pathsLost s r) := by
  unfold pathsLost
  try dsimp only
  repeat' (first | with_reducible assumption | with_reducible apply logEvent_keeps | with_reducible apply abortAllOrders_keeps | with_reducible apply endBetween_keeps | with_reducible apply Keeps.ite | (with_reducible refine Keeps.foldl ?_ (fun _ _ _ => ?_)) | (fail_if_no_progress (with_reducible refine Keeps.frame ?_ rfl rfl rfl rfl)) | split)

theorem routerFault_keeps {z : State} (s : State) (r : RouterId) (h0 : Keeps none z s) : Keeps none z (routerFault s r) := by
  unfold routerFault
  try dsimp only
  repeat' (first | with_reducible assumption | with_reducible apply modRtr_keeps | with_reducible apply partFault_keeps | with_reducible apply setNiSt_keeps | with_reducible apply nocMoves_keeps | with_reducible apply setRtrSvc_keeps | with_reducible apply fenceNotices_keeps | with_reducible apply changeMode_keeps | with_reducible apply losePackets_keeps | with_reducible apply blockFault_keeps | with_reducible apply pathsLost_keeps | with_reducible apply Keeps.ite | (with_reducible refine Keeps.foldl ?_ (fun _ _ _ => ?_)) | (fail_if_no_progress (with_reducible refine Keeps.frame ?_ rfl rfl rfl rfl)) | split)

theorem execRouterControlNotice_keeps {z : State} (r : RouterId) (p : Pkt) (k : Notice) (s : State) (h0 : Keeps none z s) : ∃ u, execRouterControlNotice r p k s = .next u ∧ Keeps none z u := by
  unfold execRouterControlNotice
  try dsimp only
  repeat' (first | (with_reducible refine ⟨_, rfl, ?_⟩) | with_reducible assumption | with_reducible apply modRtr_keeps | with_reducible apply takeMark_keeps | with_reducible apply nocMoves_keeps | with_reducible apply control_keeps | with_reducible apply noteFence_keeps | with_reducible apply Keeps.ite | (with_reducible refine Keeps.foldl ?_ (fun _ _ _ => ?_)) | (fail_if_no_progress (with_reducible refine Keeps.frame ?_ rfl rfl rfl rfl)) | intro _ | split)

theorem execFlitParityReplay_keeps {z : State} (r : RouterId) (again : Bool) (s : State) (h0 : Keeps none z s) : ∃ u, execFlitParityReplay r again s = .next u ∧ Keeps none z u := by
  unfold execFlitParityReplay
  try dsimp only
  repeat' (first | (with_reducible refine ⟨_, rfl, ?_⟩) | with_reducible assumption | with_reducible apply modRtr_keeps | with_reducible apply takeMark_keeps | with_reducible apply routerFault_keeps | with_reducible apply Keeps.ite | (with_reducible refine Keeps.foldl ?_ (fun _ _ _ => ?_)) | (fail_if_no_progress (with_reducible refine Keeps.frame ?_ rfl rfl rfl rfl)) | split)

theorem execRouterQuiesceComplete_keeps {z : State} (r : RouterId) (s : State) (h0 : Keeps none z s) : ∃ u, execRouterQuiesceComplete r s = .next u ∧ Keeps none z u := by
  unfold execRouterQuiesceComplete
  try dsimp only
  repeat' (first | (with_reducible refine ⟨_, rfl, ?_⟩) | with_reducible assumption | with_reducible apply modRtr_keeps | with_reducible apply takeMark_keeps | with_reducible apply nocMoves_keeps | with_reducible apply setRtrSvc_keeps | with_reducible apply notifyAll_keeps | with_reducible apply Keeps.ite | (with_reducible refine Keeps.foldl ?_ (fun _ _ _ => ?_)) | (fail_if_no_progress (with_reducible refine Keeps.frame ?_ rfl rfl rfl rfl)) | split)

theorem execRouterQuiesceTimeout_keeps {z : State} (r : RouterId) (s : State) (h0 : Keeps none z s) : ∃ u, execRouterQuiesceTimeout r s = .next u ∧ Keeps none z u := by
  unfold execRouterQuiesceTimeout
  try dsimp only
  repeat' (first | (with_reducible refine ⟨_, rfl, ?_⟩) | with_reducible assumption | with_reducible apply takeMark_keeps | with_reducible apply routerFault_keeps | with_reducible apply Keeps.ite | (with_reducible refine Keeps.foldl ?_ (fun _ _ _ => ?_)) | (fail_if_no_progress (with_reducible refine Keeps.frame ?_ rfl rfl rfl rfl)) | split)

theorem execRouterStallDetect_keeps {z : State} (r : RouterId) (s : State) (h0 : Keeps none z s) : ∃ u, execRouterStallDetect r s = .next u ∧ Keeps none z u := by
  unfold execRouterStallDetect
  try dsimp only
  repeat' (first | (with_reducible refine ⟨_, rfl, ?_⟩) | with_reducible assumption | with_reducible apply takeMark_keeps | with_reducible apply routerFault_keeps | with_reducible apply Keeps.ite | (with_reducible refine Keeps.foldl ?_ (fun _ _ _ => ?_)) | (fail_if_no_progress (with_reducible refine Keeps.frame ?_ rfl rfl rfl rfl)) | split)

end Sys2Proof.Machine
end

