-- ==== Sys2Proof/Laws/KeepsPointer.lean ====
section
/-! SUPPORT. The operations of Machine/Pointer.lean keep the queue, the counters and the invariant. -/

set_option linter.unusedTactic false
set_option linter.unusedVariables false
set_option linter.unreachableTactic false

namespace Sys2Proof.Machine

theorem pointerLoad_keeps {ex : Option TileId} {z : State} (s : State) (t : Tenant) (opFn : Nat) (f : FmtA) (ac : Nat → Nat) (op : Nat → Nat → Nat) (h0 : Keeps ex z s) : Keeps ex z (pointerLoad s t opFn f ac op) := by
  unfold pointerLoad
  try dsimp only
  repeat' (first | with_reducible assumption | with_reducible apply touch_keeps | with_reducible apply runAis_keeps | with_reducible apply finish_keeps | with_reducible apply setP_keeps | with_reducible apply Keeps.ite | (with_reducible refine Keeps.foldl ?_ (fun _ _ _ => ?_)) | (fail_if_no_progress (with_reducible refine Keeps.frame ?_ rfl rfl rfl rfl)) | intro _ | split)

theorem execPld_keeps {z : State} (t : Tenant) (f : FmtA) (s : State) (h0 : Keeps none z s) : ∃ u, execPld t f s = .next u ∧ Keeps none z u := by
  unfold execPld
  try dsimp only
  repeat' (first | (with_reducible refine ⟨_, rfl, ?_⟩) | with_reducible assumption | with_reducible apply pointerLoad_keeps | with_reducible apply Keeps.ite | (with_reducible refine Keeps.foldl ?_ (fun _ _ _ => ?_)) | (fail_if_no_progress (with_reducible refine Keeps.frame ?_ rfl rfl rfl rfl)) | split)

theorem execPadd_keeps {z : State} (t : Tenant) (f : FmtA) (s : State) (h0 : Keeps none z s) : ∃ u, execPadd t f s = .next u ∧ Keeps none z u := by
  unfold execPadd
  try dsimp only
  repeat' (first | (with_reducible refine ⟨_, rfl, ?_⟩) | with_reducible assumption | with_reducible apply pointerLoad_keeps | with_reducible apply Keeps.ite | (with_reducible refine Keeps.foldl ?_ (fun _ _ _ => ?_)) | (fail_if_no_progress (with_reducible refine Keeps.frame ?_ rfl rfl rfl rfl)) | split)

theorem execPst_keeps {z : State} (t : Tenant) (f : FmtA) (s : State) (h0 : Keeps none z s) : ∃ u, execPst t f s = .next u ∧ Keeps none z u := by
  unfold execPst
  try dsimp only
  repeat' (first | (with_reducible refine ⟨_, rfl, ?_⟩) | with_reducible assumption | with_reducible apply touch_keeps | with_reducible apply runAis_keeps | with_reducible apply finish_keeps | with_reducible apply writeDest_keeps | with_reducible apply Keeps.ite | (with_reducible refine Keeps.foldl ?_ (fun _ _ _ => ?_)) | (fail_if_no_progress (with_reducible refine Keeps.frame ?_ rfl rfl rfl rfl)) | intro _ | split)

end Sys2Proof.Machine
end

