-- ==== Sys2Proof/Laws/KeepsScalar.lean ====
section
/-! SUPPORT. The operations of Machine/Scalar.lean keep the queue, the counters and the invariant. -/

set_option linter.unusedTactic false
set_option linter.unusedVariables false
set_option linter.unreachableTactic false

namespace Sys2Proof.Machine

theorem scalarFn_keeps {ex : Option TileId} {z : State} (s : State) (t : Tenant) (fn : Nat) (f : FmtS) (op : Word → Word → Word) (h0 : Keeps ex z s) : Keeps ex z (scalarFn s t fn f op) := by
  unfold scalarFn
  try dsimp only
  repeat' (first | with_reducible assumption | with_reducible apply setSreg_keeps | with_reducible apply runAis_keeps | with_reducible apply finish_keeps | with_reducible apply Keeps.ite | (with_reducible refine Keeps.foldl ?_ (fun _ _ _ => ?_)) | (fail_if_no_progress (with_reducible refine Keeps.frame ?_ rfl rfl rfl rfl)) | intro _ | split)

theorem execSadd_keeps {z : State} (t : Tenant) (f : FmtS) (s : State) (h0 : Keeps none z s) : ∃ u, execSadd t f s = .next u ∧ Keeps none z u := by
  unfold execSadd
  try dsimp only
  repeat' (first | (with_reducible refine ⟨_, rfl, ?_⟩) | with_reducible assumption | with_reducible apply scalarFn_keeps | with_reducible apply Keeps.ite | (with_reducible refine Keeps.foldl ?_ (fun _ _ _ => ?_)) | (fail_if_no_progress (with_reducible refine Keeps.frame ?_ rfl rfl rfl rfl)) | split)

theorem execSsub_keeps {z : State} (t : Tenant) (f : FmtS) (s : State) (h0 : Keeps none z s) : ∃ u, execSsub t f s = .next u ∧ Keeps none z u := by
  unfold execSsub
  try dsimp only
  repeat' (first | (with_reducible refine ⟨_, rfl, ?_⟩) | with_reducible assumption | with_reducible apply scalarFn_keeps | with_reducible apply Keeps.ite | (with_reducible refine Keeps.foldl ?_ (fun _ _ _ => ?_)) | (fail_if_no_progress (with_reducible refine Keeps.frame ?_ rfl rfl rfl rfl)) | split)

theorem execSand_keeps {z : State} (t : Tenant) (f : FmtS) (s : State) (h0 : Keeps none z s) : ∃ u, execSand t f s = .next u ∧ Keeps none z u := by
  unfold execSand
  try dsimp only
  repeat' (first | (with_reducible refine ⟨_, rfl, ?_⟩) | with_reducible assumption | with_reducible apply scalarFn_keeps | with_reducible apply Keeps.ite | (with_reducible refine Keeps.foldl ?_ (fun _ _ _ => ?_)) | (fail_if_no_progress (with_reducible refine Keeps.frame ?_ rfl rfl rfl rfl)) | split)

theorem execSor_keeps {z : State} (t : Tenant) (f : FmtS) (s : State) (h0 : Keeps none z s) : ∃ u, execSor t f s = .next u ∧ Keeps none z u := by
  unfold execSor
  try dsimp only
  repeat' (first | (with_reducible refine ⟨_, rfl, ?_⟩) | with_reducible assumption | with_reducible apply scalarFn_keeps | with_reducible apply Keeps.ite | (with_reducible refine Keeps.foldl ?_ (fun _ _ _ => ?_)) | (fail_if_no_progress (with_reducible refine Keeps.frame ?_ rfl rfl rfl rfl)) | split)

theorem execSxor_keeps {z : State} (t : Tenant) (f : FmtS) (s : State) (h0 : Keeps none z s) : ∃ u, execSxor t f s = .next u ∧ Keeps none z u := by
  unfold execSxor
  try dsimp only
  repeat' (first | (with_reducible refine ⟨_, rfl, ?_⟩) | with_reducible assumption | with_reducible apply scalarFn_keeps | with_reducible apply Keeps.ite | (with_reducible refine Keeps.foldl ?_ (fun _ _ _ => ?_)) | (fail_if_no_progress (with_reducible refine Keeps.frame ?_ rfl rfl rfl rfl)) | split)

theorem execSshl_keeps {z : State} (t : Tenant) (f : FmtS) (s : State) (h0 : Keeps none z s) : ∃ u, execSshl t f s = .next u ∧ Keeps none z u := by
  unfold execSshl
  try dsimp only
  repeat' (first | (with_reducible refine ⟨_, rfl, ?_⟩) | with_reducible assumption | with_reducible apply scalarFn_keeps | with_reducible apply Keeps.ite | (with_reducible refine Keeps.foldl ?_ (fun _ _ _ => ?_)) | (fail_if_no_progress (with_reducible refine Keeps.frame ?_ rfl rfl rfl rfl)) | split)

theorem execSshr_keeps {z : State} (t : Tenant) (f : FmtS) (s : State) (h0 : Keeps none z s) : ∃ u, execSshr t f s = .next u ∧ Keeps none z u := by
  unfold execSshr
  try dsimp only
  repeat' (first | (with_reducible refine ⟨_, rfl, ?_⟩) | with_reducible assumption | with_reducible apply scalarFn_keeps | with_reducible apply Keeps.ite | (with_reducible refine Keeps.foldl ?_ (fun _ _ _ => ?_)) | (fail_if_no_progress (with_reducible refine Keeps.frame ?_ rfl rfl rfl rfl)) | split)

theorem execSsra_keeps {z : State} (t : Tenant) (f : FmtS) (s : State) (h0 : Keeps none z s) : ∃ u, execSsra t f s = .next u ∧ Keeps none z u := by
  unfold execSsra
  try dsimp only
  repeat' (first | (with_reducible refine ⟨_, rfl, ?_⟩) | with_reducible assumption | with_reducible apply scalarFn_keeps | with_reducible apply Keeps.ite | (with_reducible refine Keeps.foldl ?_ (fun _ _ _ => ?_)) | (fail_if_no_progress (with_reducible refine Keeps.frame ?_ rfl rfl rfl rfl)) | split)

theorem execSli_keeps {z : State} (t : Tenant) (f : FmtS) (s : State) (h0 : Keeps none z s) : ∃ u, execSli t f s = .next u ∧ Keeps none z u := by
  unfold execSli
  try dsimp only
  repeat' (first | (with_reducible refine ⟨_, rfl, ?_⟩) | with_reducible assumption | with_reducible apply setSreg_keeps | with_reducible apply runAis_keeps | with_reducible apply finish_keeps | with_reducible apply Keeps.ite | (with_reducible refine Keeps.foldl ?_ (fun _ _ _ => ?_)) | (fail_if_no_progress (with_reducible refine Keeps.frame ?_ rfl rfl rfl rfl)) | intro _ | split)

theorem execSlda_keeps {z : State} (t : Tenant) (f : FmtS) (s : State) (h0 : Keeps none z s) : ∃ u, execSlda t f s = .next u ∧ Keeps none z u := by
  unfold execSlda
  try dsimp only
  repeat' (first | (with_reducible refine ⟨_, rfl, ?_⟩) | with_reducible assumption | with_reducible apply setSreg_keeps | with_reducible apply readAreas_keeps | with_reducible apply abortOrders_keeps | with_reducible apply runAis_keeps | with_reducible apply finish_keeps | with_reducible apply Keeps.ite | (with_reducible refine Keeps.foldl ?_ (fun _ _ _ => ?_)) | (fail_if_no_progress (with_reducible refine Keeps.frame ?_ rfl rfl rfl rfl)) | intro _ | split)

theorem execSgett_keeps {z : State} (t : Tenant) (f : FmtS) (s : State) (h0 : Keeps none z s) : ∃ u, execSgett t f s = .next u ∧ Keeps none z u := by
  unfold execSgett
  try dsimp only
  repeat' (first | (with_reducible refine ⟨_, rfl, ?_⟩) | with_reducible assumption | with_reducible apply setSreg_keeps | with_reducible apply trapFrameLost_keeps | with_reducible apply runAis_keeps | with_reducible apply finish_keeps | with_reducible apply Keeps.ite | (with_reducible refine Keeps.foldl ?_ (fun _ _ _ => ?_)) | (fail_if_no_progress (with_reducible refine Keeps.frame ?_ rfl rfl rfl rfl)) | intro _ | split)

end Sys2Proof.Machine
end

