-- ==== Sys2Proof/Laws/KeepsIdle.lean ====
section
/-! SUPPORT. The operations of Machine/Idle.lean keep the queue, the counters and the invariant. -/

set_option linter.unusedTactic false
set_option linter.unusedVariables false
set_option linter.unreachableTactic false

namespace Sys2Proof.Machine

theorem tickSeq_keeps {ex : Option TileId} {z : State} (s : State) (q : SeqId) (h0 : Keeps ex z s) : Keeps ex z (tickSeq s q) := by
  unfold tickSeq
  try dsimp only
  repeat' (first | with_reducible assumption | with_reducible apply modSqr_keeps | with_reducible apply modRun_keeps | with_reducible apply Keeps.ite | (with_reducible refine Keeps.foldl ?_ (fun _ _ _ => ?_)) | (fail_if_no_progress (with_reducible refine Keeps.frame ?_ rfl rfl rfl rfl)) | split)

theorem idle_keeps {z : State} (s : State) (h0 : Keeps none z s) : Keeps none z (idle s) := by
  unfold idle
  try dsimp only
  repeat' (first | with_reducible assumption | with_reducible apply modCam_keeps | with_reducible apply endEncErrors_keeps | with_reducible apply takeMark_keeps | with_reducible apply retain_keeps | with_reducible apply settleMem_keeps | with_reducible apply marchTick_keeps | with_reducible apply nocMoves_keeps | with_reducible apply tickSeq_keeps | with_reducible apply Keeps.ite | (with_reducible refine Keeps.foldl ?_ (fun _ _ _ => ?_)) | (fail_if_no_progress (with_reducible refine Keeps.frame ?_ rfl rfl rfl rfl)) | split)

end Sys2Proof.Machine
end

