-- ==== Sys2Proof/Laws/State.lean ====
section
/-! SUPPORT. Reads after writes of the state's indexed registers, and what each writer leaves alone. -/

namespace Sys2Proof.Machine

/-! ### The top-level fields a writer leaves alone -/

@[simp] theorem setTile_pending (s : State) (p : Nat) (x : Tile) : (setTile s p x).pending = s.pending := rfl
@[simp] theorem setTile_freeCtr (s : State) (p : Nat) (x : Tile) : (setTile s p x).freeCtr = s.freeCtr := rfl
@[simp] theorem setTile_time (s : State) (p : Nat) (x : Tile) : (setTile s p x).time = s.time := rfl
@[simp] theorem setTile_map (s : State) (p : Nat) (x : Tile) : (setTile s p x).map = s.map := rfl
@[simp] theorem setTile_pe (s : State) (p : Nat) (x : Tile) : (setTile s p x).pe = s.pe := rfl
@[simp] theorem setTile_peMem (s : State) (p : Nat) (x : Tile) : (setTile s p x).peMem = s.peMem := rfl
@[simp] theorem setTile_peBad (s : State) (p : Nat) (x : Tile) : (setTile s p x).peBad = s.peBad := rfl
@[simp] theorem setTile_peTag (s : State) (p : Nat) (x : Tile) : (setTile s p x).peTag = s.peTag := rfl
@[simp] theorem setTile_seqs (s : State) (p : Nat) (x : Tile) : (setTile s p x).seqs = s.seqs := rfl
@[simp] theorem setTile_ctxs (s : State) (p : Nat) (x : Tile) : (setTile s p x).ctxs = s.ctxs := rfl
@[simp] theorem setTile_mc (s : State) (p : Nat) (x : Tile) : (setTile s p x).mc = s.mc := rfl
@[simp] theorem setTile_tenants (s : State) (p : Nat) (x : Tile) : (setTile s p x).tenants = s.tenants := rfl
@[simp] theorem setTile_lastYield (s : State) (p : Nat) (x : Tile) : (setTile s p x).lastYield = s.lastYield := rfl
@[simp] theorem setTile_sp (s : State) (p : Nat) (x : Tile) : (setTile s p x).sp = s.sp := rfl
@[simp] theorem setTile_xm (s : State) (p : Nat) (x : Tile) : (setTile s p x).xm = s.xm := rfl
@[simp] theorem setTile_spBad (s : State) (p : Nat) (x : Tile) : (setTile s p x).spBad = s.spBad := rfl
@[simp] theorem setTile_xmBad (s : State) (p : Nat) (x : Tile) : (setTile s p x).xmBad = s.xmBad := rfl
@[simp] theorem setTile_mem (s : State) (p : Nat) (x : Tile) : (setTile s p x).mem = s.mem := rfl
@[simp] theorem setTile_march (s : State) (p : Nat) (x : Tile) : (setTile s p x).march = s.march := rfl
@[simp] theorem setTile_xmCollisions (s : State) (p : Nat) (x : Tile) : (setTile s p x).xmCollisions = s.xmCollisions := rfl
@[simp] theorem setTile_noc (s : State) (p : Nat) (x : Tile) : (setTile s p x).noc = s.noc := rfl
@[simp] theorem setTile_grouping (s : State) (p : Nat) (x : Tile) : (setTile s p x).grouping = s.grouping := rfl
@[simp] theorem setTile_maxSpeed (s : State) (p : Nat) (x : Tile) : (setTile s p x).maxSpeed = s.maxSpeed := rfl
@[simp] theorem setTile_cams (s : State) (p : Nat) (x : Tile) : (setTile s p x).cams = s.cams := rfl
@[simp] theorem setTile_fab (s : State) (p : Nat) (x : Tile) : (setTile s p x).fab = s.fab := rfl
@[simp] theorem setTile_field (s : State) (p : Nat) (x : Tile) : (setTile s p x).field = s.field := rfl
@[simp] theorem setTile_ses (s : State) (p : Nat) (x : Tile) : (setTile s p x).ses = s.ses := rfl
@[simp] theorem setTile_net (s : State) (p : Nat) (x : Tile) : (setTile s p x).net = s.net := rfl
@[simp] theorem setTile_clk (s : State) (p : Nat) (x : Tile) : (setTile s p x).clk = s.clk := rfl
@[simp] theorem setTile_sup (s : State) (p : Nat) (x : Tile) : (setTile s p x).sup = s.sup := rfl
@[simp] theorem setTile_start (s : State) (p : Nat) (x : Tile) : (setTile s p x).start = s.start := rfl
@[simp] theorem setTile_ident (s : State) (p : Nat) (x : Tile) : (setTile s p x).ident = s.ident := rfl
@[simp] theorem setTile_obs (s : State) (p : Nat) (x : Tile) : (setTile s p x).obs = s.obs := rfl
@[simp] theorem setSqr_pending (s : State) (q : Nat) (x : Sequencer) : (setSqr s q x).pending = s.pending := rfl
@[simp] theorem setSqr_freeCtr (s : State) (q : Nat) (x : Sequencer) : (setSqr s q x).freeCtr = s.freeCtr := rfl
@[simp] theorem setSqr_time (s : State) (q : Nat) (x : Sequencer) : (setSqr s q x).time = s.time := rfl
@[simp] theorem setSqr_tiles (s : State) (q : Nat) (x : Sequencer) : (setSqr s q x).tiles = s.tiles := rfl
@[simp] theorem setSqr_map (s : State) (q : Nat) (x : Sequencer) : (setSqr s q x).map = s.map := rfl
@[simp] theorem setSqr_pe (s : State) (q : Nat) (x : Sequencer) : (setSqr s q x).pe = s.pe := rfl
@[simp] theorem setSqr_peMem (s : State) (q : Nat) (x : Sequencer) : (setSqr s q x).peMem = s.peMem := rfl
@[simp] theorem setSqr_peBad (s : State) (q : Nat) (x : Sequencer) : (setSqr s q x).peBad = s.peBad := rfl
@[simp] theorem setSqr_peTag (s : State) (q : Nat) (x : Sequencer) : (setSqr s q x).peTag = s.peTag := rfl
@[simp] theorem setSqr_ctxs (s : State) (q : Nat) (x : Sequencer) : (setSqr s q x).ctxs = s.ctxs := rfl
@[simp] theorem setSqr_mc (s : State) (q : Nat) (x : Sequencer) : (setSqr s q x).mc = s.mc := rfl
@[simp] theorem setSqr_tenants (s : State) (q : Nat) (x : Sequencer) : (setSqr s q x).tenants = s.tenants := rfl
@[simp] theorem setSqr_lastYield (s : State) (q : Nat) (x : Sequencer) : (setSqr s q x).lastYield = s.lastYield := rfl
@[simp] theorem setSqr_sp (s : State) (q : Nat) (x : Sequencer) : (setSqr s q x).sp = s.sp := rfl
@[simp] theorem setSqr_xm (s : State) (q : Nat) (x : Sequencer) : (setSqr s q x).xm = s.xm := rfl
@[simp] theorem setSqr_spBad (s : State) (q : Nat) (x : Sequencer) : (setSqr s q x).spBad = s.spBad := rfl
@[simp] theorem setSqr_xmBad (s : State) (q : Nat) (x : Sequencer) : (setSqr s q x).xmBad = s.xmBad := rfl
@[simp] theorem setSqr_mem (s : State) (q : Nat) (x : Sequencer) : (setSqr s q x).mem = s.mem := rfl
@[simp] theorem setSqr_march (s : State) (q : Nat) (x : Sequencer) : (setSqr s q x).march = s.march := rfl
@[simp] theorem setSqr_xmCollisions (s : State) (q : Nat) (x : Sequencer) : (setSqr s q x).xmCollisions = s.xmCollisions := rfl
@[simp] theorem setSqr_noc (s : State) (q : Nat) (x : Sequencer) : (setSqr s q x).noc = s.noc := rfl
@[simp] theorem setSqr_grouping (s : State) (q : Nat) (x : Sequencer) : (setSqr s q x).grouping = s.grouping := rfl
@[simp] theorem setSqr_maxSpeed (s : State) (q : Nat) (x : Sequencer) : (setSqr s q x).maxSpeed = s.maxSpeed := rfl
@[simp] theorem setSqr_cams (s : State) (q : Nat) (x : Sequencer) : (setSqr s q x).cams = s.cams := rfl
@[simp] theorem setSqr_fab (s : State) (q : Nat) (x : Sequencer) : (setSqr s q x).fab = s.fab := rfl
@[simp] theorem setSqr_field (s : State) (q : Nat) (x : Sequencer) : (setSqr s q x).field = s.field := rfl
@[simp] theorem setSqr_ses (s : State) (q : Nat) (x : Sequencer) : (setSqr s q x).ses = s.ses := rfl
@[simp] theorem setSqr_net (s : State) (q : Nat) (x : Sequencer) : (setSqr s q x).net = s.net := rfl
@[simp] theorem setSqr_clk (s : State) (q : Nat) (x : Sequencer) : (setSqr s q x).clk = s.clk := rfl
@[simp] theorem setSqr_sup (s : State) (q : Nat) (x : Sequencer) : (setSqr s q x).sup = s.sup := rfl
@[simp] theorem setSqr_start (s : State) (q : Nat) (x : Sequencer) : (setSqr s q x).start = s.start := rfl
@[simp] theorem setSqr_ident (s : State) (q : Nat) (x : Sequencer) : (setSqr s q x).ident = s.ident := rfl
@[simp] theorem setSqr_obs (s : State) (q : Nat) (x : Sequencer) : (setSqr s q x).obs = s.obs := rfl
@[simp] theorem setCtx_pending (s : State) (k : Nat) (x : TrapCtx) : (setCtx s k x).pending = s.pending := rfl
@[simp] theorem setCtx_freeCtr (s : State) (k : Nat) (x : TrapCtx) : (setCtx s k x).freeCtr = s.freeCtr := rfl
@[simp] theorem setCtx_time (s : State) (k : Nat) (x : TrapCtx) : (setCtx s k x).time = s.time := rfl
@[simp] theorem setCtx_tiles (s : State) (k : Nat) (x : TrapCtx) : (setCtx s k x).tiles = s.tiles := rfl
@[simp] theorem setCtx_map (s : State) (k : Nat) (x : TrapCtx) : (setCtx s k x).map = s.map := rfl
@[simp] theorem setCtx_pe (s : State) (k : Nat) (x : TrapCtx) : (setCtx s k x).pe = s.pe := rfl
@[simp] theorem setCtx_peMem (s : State) (k : Nat) (x : TrapCtx) : (setCtx s k x).peMem = s.peMem := rfl
@[simp] theorem setCtx_peBad (s : State) (k : Nat) (x : TrapCtx) : (setCtx s k x).peBad = s.peBad := rfl
@[simp] theorem setCtx_peTag (s : State) (k : Nat) (x : TrapCtx) : (setCtx s k x).peTag = s.peTag := rfl
@[simp] theorem setCtx_seqs (s : State) (k : Nat) (x : TrapCtx) : (setCtx s k x).seqs = s.seqs := rfl
@[simp] theorem setCtx_mc (s : State) (k : Nat) (x : TrapCtx) : (setCtx s k x).mc = s.mc := rfl
@[simp] theorem setCtx_tenants (s : State) (k : Nat) (x : TrapCtx) : (setCtx s k x).tenants = s.tenants := rfl
@[simp] theorem setCtx_lastYield (s : State) (k : Nat) (x : TrapCtx) : (setCtx s k x).lastYield = s.lastYield := rfl
@[simp] theorem setCtx_sp (s : State) (k : Nat) (x : TrapCtx) : (setCtx s k x).sp = s.sp := rfl
@[simp] theorem setCtx_xm (s : State) (k : Nat) (x : TrapCtx) : (setCtx s k x).xm = s.xm := rfl
@[simp] theorem setCtx_spBad (s : State) (k : Nat) (x : TrapCtx) : (setCtx s k x).spBad = s.spBad := rfl
@[simp] theorem setCtx_xmBad (s : State) (k : Nat) (x : TrapCtx) : (setCtx s k x).xmBad = s.xmBad := rfl
@[simp] theorem setCtx_mem (s : State) (k : Nat) (x : TrapCtx) : (setCtx s k x).mem = s.mem := rfl
@[simp] theorem setCtx_march (s : State) (k : Nat) (x : TrapCtx) : (setCtx s k x).march = s.march := rfl
@[simp] theorem setCtx_xmCollisions (s : State) (k : Nat) (x : TrapCtx) : (setCtx s k x).xmCollisions = s.xmCollisions := rfl
@[simp] theorem setCtx_noc (s : State) (k : Nat) (x : TrapCtx) : (setCtx s k x).noc = s.noc := rfl
@[simp] theorem setCtx_grouping (s : State) (k : Nat) (x : TrapCtx) : (setCtx s k x).grouping = s.grouping := rfl
@[simp] theorem setCtx_maxSpeed (s : State) (k : Nat) (x : TrapCtx) : (setCtx s k x).maxSpeed = s.maxSpeed := rfl
@[simp] theorem setCtx_cams (s : State) (k : Nat) (x : TrapCtx) : (setCtx s k x).cams = s.cams := rfl
@[simp] theorem setCtx_fab (s : State) (k : Nat) (x : TrapCtx) : (setCtx s k x).fab = s.fab := rfl
@[simp] theorem setCtx_field (s : State) (k : Nat) (x : TrapCtx) : (setCtx s k x).field = s.field := rfl
@[simp] theorem setCtx_ses (s : State) (k : Nat) (x : TrapCtx) : (setCtx s k x).ses = s.ses := rfl
@[simp] theorem setCtx_net (s : State) (k : Nat) (x : TrapCtx) : (setCtx s k x).net = s.net := rfl
@[simp] theorem setCtx_clk (s : State) (k : Nat) (x : TrapCtx) : (setCtx s k x).clk = s.clk := rfl
@[simp] theorem setCtx_sup (s : State) (k : Nat) (x : TrapCtx) : (setCtx s k x).sup = s.sup := rfl
@[simp] theorem setCtx_start (s : State) (k : Nat) (x : TrapCtx) : (setCtx s k x).start = s.start := rfl
@[simp] theorem setCtx_ident (s : State) (k : Nat) (x : TrapCtx) : (setCtx s k x).ident = s.ident := rfl
@[simp] theorem setCtx_obs (s : State) (k : Nat) (x : TrapCtx) : (setCtx s k x).obs = s.obs := rfl
@[simp] theorem setTen_pending (s : State) (t : Tenant) (x : TenantSt) : (setTen s t x).pending = s.pending := rfl
@[simp] theorem setTen_freeCtr (s : State) (t : Tenant) (x : TenantSt) : (setTen s t x).freeCtr = s.freeCtr := rfl
@[simp] theorem setTen_time (s : State) (t : Tenant) (x : TenantSt) : (setTen s t x).time = s.time := rfl
@[simp] theorem setTen_tiles (s : State) (t : Tenant) (x : TenantSt) : (setTen s t x).tiles = s.tiles := rfl
@[simp] theorem setTen_map (s : State) (t : Tenant) (x : TenantSt) : (setTen s t x).map = s.map := rfl
@[simp] theorem setTen_pe (s : State) (t : Tenant) (x : TenantSt) : (setTen s t x).pe = s.pe := rfl
@[simp] theorem setTen_peMem (s : State) (t : Tenant) (x : TenantSt) : (setTen s t x).peMem = s.peMem := rfl
@[simp] theorem setTen_peBad (s : State) (t : Tenant) (x : TenantSt) : (setTen s t x).peBad = s.peBad := rfl
@[simp] theorem setTen_peTag (s : State) (t : Tenant) (x : TenantSt) : (setTen s t x).peTag = s.peTag := rfl
@[simp] theorem setTen_seqs (s : State) (t : Tenant) (x : TenantSt) : (setTen s t x).seqs = s.seqs := rfl
@[simp] theorem setTen_ctxs (s : State) (t : Tenant) (x : TenantSt) : (setTen s t x).ctxs = s.ctxs := rfl
@[simp] theorem setTen_mc (s : State) (t : Tenant) (x : TenantSt) : (setTen s t x).mc = s.mc := rfl
@[simp] theorem setTen_lastYield (s : State) (t : Tenant) (x : TenantSt) : (setTen s t x).lastYield = s.lastYield := rfl
@[simp] theorem setTen_sp (s : State) (t : Tenant) (x : TenantSt) : (setTen s t x).sp = s.sp := rfl
@[simp] theorem setTen_xm (s : State) (t : Tenant) (x : TenantSt) : (setTen s t x).xm = s.xm := rfl
@[simp] theorem setTen_spBad (s : State) (t : Tenant) (x : TenantSt) : (setTen s t x).spBad = s.spBad := rfl
@[simp] theorem setTen_xmBad (s : State) (t : Tenant) (x : TenantSt) : (setTen s t x).xmBad = s.xmBad := rfl
@[simp] theorem setTen_mem (s : State) (t : Tenant) (x : TenantSt) : (setTen s t x).mem = s.mem := rfl
@[simp] theorem setTen_march (s : State) (t : Tenant) (x : TenantSt) : (setTen s t x).march = s.march := rfl
@[simp] theorem setTen_xmCollisions (s : State) (t : Tenant) (x : TenantSt) : (setTen s t x).xmCollisions = s.xmCollisions := rfl
@[simp] theorem setTen_noc (s : State) (t : Tenant) (x : TenantSt) : (setTen s t x).noc = s.noc := rfl
@[simp] theorem setTen_grouping (s : State) (t : Tenant) (x : TenantSt) : (setTen s t x).grouping = s.grouping := rfl
@[simp] theorem setTen_maxSpeed (s : State) (t : Tenant) (x : TenantSt) : (setTen s t x).maxSpeed = s.maxSpeed := rfl
@[simp] theorem setTen_cams (s : State) (t : Tenant) (x : TenantSt) : (setTen s t x).cams = s.cams := rfl
@[simp] theorem setTen_fab (s : State) (t : Tenant) (x : TenantSt) : (setTen s t x).fab = s.fab := rfl
@[simp] theorem setTen_field (s : State) (t : Tenant) (x : TenantSt) : (setTen s t x).field = s.field := rfl
@[simp] theorem setTen_ses (s : State) (t : Tenant) (x : TenantSt) : (setTen s t x).ses = s.ses := rfl
@[simp] theorem setTen_net (s : State) (t : Tenant) (x : TenantSt) : (setTen s t x).net = s.net := rfl
@[simp] theorem setTen_clk (s : State) (t : Tenant) (x : TenantSt) : (setTen s t x).clk = s.clk := rfl
@[simp] theorem setTen_sup (s : State) (t : Tenant) (x : TenantSt) : (setTen s t x).sup = s.sup := rfl
@[simp] theorem setTen_start (s : State) (t : Tenant) (x : TenantSt) : (setTen s t x).start = s.start := rfl
@[simp] theorem setTen_ident (s : State) (t : Tenant) (x : TenantSt) : (setTen s t x).ident = s.ident := rfl
@[simp] theorem setTen_obs (s : State) (t : Tenant) (x : TenantSt) : (setTen s t x).obs = s.obs := rfl
@[simp] theorem setSes_pending (s : State) (k : SesId) (x : Session) : (setSes s k x).pending = s.pending := rfl
@[simp] theorem setSes_freeCtr (s : State) (k : SesId) (x : Session) : (setSes s k x).freeCtr = s.freeCtr := rfl
@[simp] theorem setSes_time (s : State) (k : SesId) (x : Session) : (setSes s k x).time = s.time := rfl
@[simp] theorem setSes_tiles (s : State) (k : SesId) (x : Session) : (setSes s k x).tiles = s.tiles := rfl
@[simp] theorem setSes_map (s : State) (k : SesId) (x : Session) : (setSes s k x).map = s.map := rfl
@[simp] theorem setSes_pe (s : State) (k : SesId) (x : Session) : (setSes s k x).pe = s.pe := rfl
@[simp] theorem setSes_peMem (s : State) (k : SesId) (x : Session) : (setSes s k x).peMem = s.peMem := rfl
@[simp] theorem setSes_peBad (s : State) (k : SesId) (x : Session) : (setSes s k x).peBad = s.peBad := rfl
@[simp] theorem setSes_peTag (s : State) (k : SesId) (x : Session) : (setSes s k x).peTag = s.peTag := rfl
@[simp] theorem setSes_seqs (s : State) (k : SesId) (x : Session) : (setSes s k x).seqs = s.seqs := rfl
@[simp] theorem setSes_ctxs (s : State) (k : SesId) (x : Session) : (setSes s k x).ctxs = s.ctxs := rfl
@[simp] theorem setSes_mc (s : State) (k : SesId) (x : Session) : (setSes s k x).mc = s.mc := rfl
@[simp] theorem setSes_tenants (s : State) (k : SesId) (x : Session) : (setSes s k x).tenants = s.tenants := rfl
@[simp] theorem setSes_lastYield (s : State) (k : SesId) (x : Session) : (setSes s k x).lastYield = s.lastYield := rfl
@[simp] theorem setSes_sp (s : State) (k : SesId) (x : Session) : (setSes s k x).sp = s.sp := rfl
@[simp] theorem setSes_xm (s : State) (k : SesId) (x : Session) : (setSes s k x).xm = s.xm := rfl
@[simp] theorem setSes_spBad (s : State) (k : SesId) (x : Session) : (setSes s k x).spBad = s.spBad := rfl
@[simp] theorem setSes_xmBad (s : State) (k : SesId) (x : Session) : (setSes s k x).xmBad = s.xmBad := rfl
@[simp] theorem setSes_mem (s : State) (k : SesId) (x : Session) : (setSes s k x).mem = s.mem := rfl
@[simp] theorem setSes_march (s : State) (k : SesId) (x : Session) : (setSes s k x).march = s.march := rfl
@[simp] theorem setSes_xmCollisions (s : State) (k : SesId) (x : Session) : (setSes s k x).xmCollisions = s.xmCollisions := rfl
@[simp] theorem setSes_noc (s : State) (k : SesId) (x : Session) : (setSes s k x).noc = s.noc := rfl
@[simp] theorem setSes_grouping (s : State) (k : SesId) (x : Session) : (setSes s k x).grouping = s.grouping := rfl
@[simp] theorem setSes_maxSpeed (s : State) (k : SesId) (x : Session) : (setSes s k x).maxSpeed = s.maxSpeed := rfl
@[simp] theorem setSes_cams (s : State) (k : SesId) (x : Session) : (setSes s k x).cams = s.cams := rfl
@[simp] theorem setSes_fab (s : State) (k : SesId) (x : Session) : (setSes s k x).fab = s.fab := rfl
@[simp] theorem setSes_field (s : State) (k : SesId) (x : Session) : (setSes s k x).field = s.field := rfl
@[simp] theorem setSes_net (s : State) (k : SesId) (x : Session) : (setSes s k x).net = s.net := rfl
@[simp] theorem setSes_clk (s : State) (k : SesId) (x : Session) : (setSes s k x).clk = s.clk := rfl
@[simp] theorem setSes_sup (s : State) (k : SesId) (x : Session) : (setSes s k x).sup = s.sup := rfl
@[simp] theorem setSes_start (s : State) (k : SesId) (x : Session) : (setSes s k x).start = s.start := rfl
@[simp] theorem setSes_ident (s : State) (k : SesId) (x : Session) : (setSes s k x).ident = s.ident := rfl
@[simp] theorem setSes_obs (s : State) (k : SesId) (x : Session) : (setSes s k x).obs = s.obs := rfl
@[simp] theorem setCam_pending (s : State) (c : CxpId) (x : Cam) : (setCam s c x).pending = s.pending := rfl
@[simp] theorem setCam_freeCtr (s : State) (c : CxpId) (x : Cam) : (setCam s c x).freeCtr = s.freeCtr := rfl
@[simp] theorem setCam_time (s : State) (c : CxpId) (x : Cam) : (setCam s c x).time = s.time := rfl
@[simp] theorem setCam_tiles (s : State) (c : CxpId) (x : Cam) : (setCam s c x).tiles = s.tiles := rfl
@[simp] theorem setCam_map (s : State) (c : CxpId) (x : Cam) : (setCam s c x).map = s.map := rfl
@[simp] theorem setCam_pe (s : State) (c : CxpId) (x : Cam) : (setCam s c x).pe = s.pe := rfl
@[simp] theorem setCam_peMem (s : State) (c : CxpId) (x : Cam) : (setCam s c x).peMem = s.peMem := rfl
@[simp] theorem setCam_peBad (s : State) (c : CxpId) (x : Cam) : (setCam s c x).peBad = s.peBad := rfl
@[simp] theorem setCam_peTag (s : State) (c : CxpId) (x : Cam) : (setCam s c x).peTag = s.peTag := rfl
@[simp] theorem setCam_seqs (s : State) (c : CxpId) (x : Cam) : (setCam s c x).seqs = s.seqs := rfl
@[simp] theorem setCam_ctxs (s : State) (c : CxpId) (x : Cam) : (setCam s c x).ctxs = s.ctxs := rfl
@[simp] theorem setCam_mc (s : State) (c : CxpId) (x : Cam) : (setCam s c x).mc = s.mc := rfl
@[simp] theorem setCam_tenants (s : State) (c : CxpId) (x : Cam) : (setCam s c x).tenants = s.tenants := rfl
@[simp] theorem setCam_lastYield (s : State) (c : CxpId) (x : Cam) : (setCam s c x).lastYield = s.lastYield := rfl
@[simp] theorem setCam_sp (s : State) (c : CxpId) (x : Cam) : (setCam s c x).sp = s.sp := rfl
@[simp] theorem setCam_xm (s : State) (c : CxpId) (x : Cam) : (setCam s c x).xm = s.xm := rfl
@[simp] theorem setCam_spBad (s : State) (c : CxpId) (x : Cam) : (setCam s c x).spBad = s.spBad := rfl
@[simp] theorem setCam_xmBad (s : State) (c : CxpId) (x : Cam) : (setCam s c x).xmBad = s.xmBad := rfl
@[simp] theorem setCam_mem (s : State) (c : CxpId) (x : Cam) : (setCam s c x).mem = s.mem := rfl
@[simp] theorem setCam_march (s : State) (c : CxpId) (x : Cam) : (setCam s c x).march = s.march := rfl
@[simp] theorem setCam_xmCollisions (s : State) (c : CxpId) (x : Cam) : (setCam s c x).xmCollisions = s.xmCollisions := rfl
@[simp] theorem setCam_noc (s : State) (c : CxpId) (x : Cam) : (setCam s c x).noc = s.noc := rfl
@[simp] theorem setCam_grouping (s : State) (c : CxpId) (x : Cam) : (setCam s c x).grouping = s.grouping := rfl
@[simp] theorem setCam_maxSpeed (s : State) (c : CxpId) (x : Cam) : (setCam s c x).maxSpeed = s.maxSpeed := rfl
@[simp] theorem setCam_fab (s : State) (c : CxpId) (x : Cam) : (setCam s c x).fab = s.fab := rfl
@[simp] theorem setCam_field (s : State) (c : CxpId) (x : Cam) : (setCam s c x).field = s.field := rfl
@[simp] theorem setCam_ses (s : State) (c : CxpId) (x : Cam) : (setCam s c x).ses = s.ses := rfl
@[simp] theorem setCam_net (s : State) (c : CxpId) (x : Cam) : (setCam s c x).net = s.net := rfl
@[simp] theorem setCam_clk (s : State) (c : CxpId) (x : Cam) : (setCam s c x).clk = s.clk := rfl
@[simp] theorem setCam_sup (s : State) (c : CxpId) (x : Cam) : (setCam s c x).sup = s.sup := rfl
@[simp] theorem setCam_start (s : State) (c : CxpId) (x : Cam) : (setCam s c x).start = s.start := rfl
@[simp] theorem setCam_ident (s : State) (c : CxpId) (x : Cam) : (setCam s c x).ident = s.ident := rfl
@[simp] theorem setCam_obs (s : State) (c : CxpId) (x : Cam) : (setCam s c x).obs = s.obs := rfl
@[simp] theorem setFch_pending (s : State) (n : Nat) (x : Fc) : (setFch s n x).pending = s.pending := rfl
@[simp] theorem setFch_freeCtr (s : State) (n : Nat) (x : Fc) : (setFch s n x).freeCtr = s.freeCtr := rfl
@[simp] theorem setFch_time (s : State) (n : Nat) (x : Fc) : (setFch s n x).time = s.time := rfl
@[simp] theorem setFch_tiles (s : State) (n : Nat) (x : Fc) : (setFch s n x).tiles = s.tiles := rfl
@[simp] theorem setFch_map (s : State) (n : Nat) (x : Fc) : (setFch s n x).map = s.map := rfl
@[simp] theorem setFch_pe (s : State) (n : Nat) (x : Fc) : (setFch s n x).pe = s.pe := rfl
@[simp] theorem setFch_peMem (s : State) (n : Nat) (x : Fc) : (setFch s n x).peMem = s.peMem := rfl
@[simp] theorem setFch_peBad (s : State) (n : Nat) (x : Fc) : (setFch s n x).peBad = s.peBad := rfl
@[simp] theorem setFch_peTag (s : State) (n : Nat) (x : Fc) : (setFch s n x).peTag = s.peTag := rfl
@[simp] theorem setFch_seqs (s : State) (n : Nat) (x : Fc) : (setFch s n x).seqs = s.seqs := rfl
@[simp] theorem setFch_ctxs (s : State) (n : Nat) (x : Fc) : (setFch s n x).ctxs = s.ctxs := rfl
@[simp] theorem setFch_mc (s : State) (n : Nat) (x : Fc) : (setFch s n x).mc = s.mc := rfl
@[simp] theorem setFch_tenants (s : State) (n : Nat) (x : Fc) : (setFch s n x).tenants = s.tenants := rfl
@[simp] theorem setFch_lastYield (s : State) (n : Nat) (x : Fc) : (setFch s n x).lastYield = s.lastYield := rfl
@[simp] theorem setFch_sp (s : State) (n : Nat) (x : Fc) : (setFch s n x).sp = s.sp := rfl
@[simp] theorem setFch_xm (s : State) (n : Nat) (x : Fc) : (setFch s n x).xm = s.xm := rfl
@[simp] theorem setFch_spBad (s : State) (n : Nat) (x : Fc) : (setFch s n x).spBad = s.spBad := rfl
@[simp] theorem setFch_xmBad (s : State) (n : Nat) (x : Fc) : (setFch s n x).xmBad = s.xmBad := rfl
@[simp] theorem setFch_mem (s : State) (n : Nat) (x : Fc) : (setFch s n x).mem = s.mem := rfl
@[simp] theorem setFch_march (s : State) (n : Nat) (x : Fc) : (setFch s n x).march = s.march := rfl
@[simp] theorem setFch_xmCollisions (s : State) (n : Nat) (x : Fc) : (setFch s n x).xmCollisions = s.xmCollisions := rfl
@[simp] theorem setFch_noc (s : State) (n : Nat) (x : Fc) : (setFch s n x).noc = s.noc := rfl
@[simp] theorem setFch_grouping (s : State) (n : Nat) (x : Fc) : (setFch s n x).grouping = s.grouping := rfl
@[simp] theorem setFch_maxSpeed (s : State) (n : Nat) (x : Fc) : (setFch s n x).maxSpeed = s.maxSpeed := rfl
@[simp] theorem setFch_cams (s : State) (n : Nat) (x : Fc) : (setFch s n x).cams = s.cams := rfl
@[simp] theorem setFch_fab (s : State) (n : Nat) (x : Fc) : (setFch s n x).fab = s.fab := rfl
@[simp] theorem setFch_ses (s : State) (n : Nat) (x : Fc) : (setFch s n x).ses = s.ses := rfl
@[simp] theorem setFch_net (s : State) (n : Nat) (x : Fc) : (setFch s n x).net = s.net := rfl
@[simp] theorem setFch_clk (s : State) (n : Nat) (x : Fc) : (setFch s n x).clk = s.clk := rfl
@[simp] theorem setFch_sup (s : State) (n : Nat) (x : Fc) : (setFch s n x).sup = s.sup := rfl
@[simp] theorem setFch_start (s : State) (n : Nat) (x : Fc) : (setFch s n x).start = s.start := rfl
@[simp] theorem setFch_ident (s : State) (n : Nat) (x : Fc) : (setFch s n x).ident = s.ident := rfl
@[simp] theorem setFch_obs (s : State) (n : Nat) (x : Fc) : (setFch s n x).obs = s.obs := rfl
@[simp] theorem setFch_field_grp (s : State) (n : Nat) (x : Fc) : (setFch s n x).field.grp = s.field.grp := rfl
@[simp] theorem setFch_field_dout (s : State) (n : Nat) (x : Fc) : (setFch s n x).field.dout = s.field.dout := rfl
@[simp] theorem setFch_field_silenceA (s : State) (n : Nat) (x : Fc) : (setFch s n x).field.silenceA = s.field.silenceA := rfl
@[simp] theorem setFch_field_silenceB (s : State) (n : Nat) (x : Fc) : (setFch s n x).field.silenceB = s.field.silenceB := rfl
@[simp] theorem setFch_field_holdClock (s : State) (n : Nat) (x : Fc) : (setFch s n x).field.holdClock = s.field.holdClock := rfl
@[simp] theorem setFch_field_holdVcore (s : State) (n : Nat) (x : Fc) : (setFch s n x).field.holdVcore = s.field.holdVcore := rfl
@[simp] theorem setFch_field_holdSleep (s : State) (n : Nat) (x : Fc) : (setFch s n x).field.holdSleep = s.field.holdSleep := rfl
@[simp] theorem setFch_field_loaded (s : State) (n : Nat) (x : Fc) : (setFch s n x).field.loaded = s.field.loaded := rfl
@[simp] theorem setGrp_pending (s : State) (g : Nat) (x : Group) : (setGrp s g x).pending = s.pending := rfl
@[simp] theorem setGrp_freeCtr (s : State) (g : Nat) (x : Group) : (setGrp s g x).freeCtr = s.freeCtr := rfl
@[simp] theorem setGrp_time (s : State) (g : Nat) (x : Group) : (setGrp s g x).time = s.time := rfl
@[simp] theorem setGrp_tiles (s : State) (g : Nat) (x : Group) : (setGrp s g x).tiles = s.tiles := rfl
@[simp] theorem setGrp_map (s : State) (g : Nat) (x : Group) : (setGrp s g x).map = s.map := rfl
@[simp] theorem setGrp_pe (s : State) (g : Nat) (x : Group) : (setGrp s g x).pe = s.pe := rfl
@[simp] theorem setGrp_peMem (s : State) (g : Nat) (x : Group) : (setGrp s g x).peMem = s.peMem := rfl
@[simp] theorem setGrp_peBad (s : State) (g : Nat) (x : Group) : (setGrp s g x).peBad = s.peBad := rfl
@[simp] theorem setGrp_peTag (s : State) (g : Nat) (x : Group) : (setGrp s g x).peTag = s.peTag := rfl
@[simp] theorem setGrp_seqs (s : State) (g : Nat) (x : Group) : (setGrp s g x).seqs = s.seqs := rfl
@[simp] theorem setGrp_ctxs (s : State) (g : Nat) (x : Group) : (setGrp s g x).ctxs = s.ctxs := rfl
@[simp] theorem setGrp_mc (s : State) (g : Nat) (x : Group) : (setGrp s g x).mc = s.mc := rfl
@[simp] theorem setGrp_tenants (s : State) (g : Nat) (x : Group) : (setGrp s g x).tenants = s.tenants := rfl
@[simp] theorem setGrp_lastYield (s : State) (g : Nat) (x : Group) : (setGrp s g x).lastYield = s.lastYield := rfl
@[simp] theorem setGrp_sp (s : State) (g : Nat) (x : Group) : (setGrp s g x).sp = s.sp := rfl
@[simp] theorem setGrp_xm (s : State) (g : Nat) (x : Group) : (setGrp s g x).xm = s.xm := rfl
@[simp] theorem setGrp_spBad (s : State) (g : Nat) (x : Group) : (setGrp s g x).spBad = s.spBad := rfl
@[simp] theorem setGrp_xmBad (s : State) (g : Nat) (x : Group) : (setGrp s g x).xmBad = s.xmBad := rfl
@[simp] theorem setGrp_mem (s : State) (g : Nat) (x : Group) : (setGrp s g x).mem = s.mem := rfl
@[simp] theorem setGrp_march (s : State) (g : Nat) (x : Group) : (setGrp s g x).march = s.march := rfl
@[simp] theorem setGrp_xmCollisions (s : State) (g : Nat) (x : Group) : (setGrp s g x).xmCollisions = s.xmCollisions := rfl
@[simp] theorem setGrp_noc (s : State) (g : Nat) (x : Group) : (setGrp s g x).noc = s.noc := rfl
@[simp] theorem setGrp_grouping (s : State) (g : Nat) (x : Group) : (setGrp s g x).grouping = s.grouping := rfl
@[simp] theorem setGrp_maxSpeed (s : State) (g : Nat) (x : Group) : (setGrp s g x).maxSpeed = s.maxSpeed := rfl
@[simp] theorem setGrp_cams (s : State) (g : Nat) (x : Group) : (setGrp s g x).cams = s.cams := rfl
@[simp] theorem setGrp_fab (s : State) (g : Nat) (x : Group) : (setGrp s g x).fab = s.fab := rfl
@[simp] theorem setGrp_ses (s : State) (g : Nat) (x : Group) : (setGrp s g x).ses = s.ses := rfl
@[simp] theorem setGrp_net (s : State) (g : Nat) (x : Group) : (setGrp s g x).net = s.net := rfl
@[simp] theorem setGrp_clk (s : State) (g : Nat) (x : Group) : (setGrp s g x).clk = s.clk := rfl
@[simp] theorem setGrp_sup (s : State) (g : Nat) (x : Group) : (setGrp s g x).sup = s.sup := rfl
@[simp] theorem setGrp_start (s : State) (g : Nat) (x : Group) : (setGrp s g x).start = s.start := rfl
@[simp] theorem setGrp_ident (s : State) (g : Nat) (x : Group) : (setGrp s g x).ident = s.ident := rfl
@[simp] theorem setGrp_obs (s : State) (g : Nat) (x : Group) : (setGrp s g x).obs = s.obs := rfl
@[simp] theorem setGrp_field_ch (s : State) (g : Nat) (x : Group) : (setGrp s g x).field.ch = s.field.ch := rfl
@[simp] theorem setGrp_field_dout (s : State) (g : Nat) (x : Group) : (setGrp s g x).field.dout = s.field.dout := rfl
@[simp] theorem setGrp_field_silenceA (s : State) (g : Nat) (x : Group) : (setGrp s g x).field.silenceA = s.field.silenceA := rfl
@[simp] theorem setGrp_field_silenceB (s : State) (g : Nat) (x : Group) : (setGrp s g x).field.silenceB = s.field.silenceB := rfl
@[simp] theorem setGrp_field_holdClock (s : State) (g : Nat) (x : Group) : (setGrp s g x).field.holdClock = s.field.holdClock := rfl
@[simp] theorem setGrp_field_holdVcore (s : State) (g : Nat) (x : Group) : (setGrp s g x).field.holdVcore = s.field.holdVcore := rfl
@[simp] theorem setGrp_field_holdSleep (s : State) (g : Nat) (x : Group) : (setGrp s g x).field.holdSleep = s.field.holdSleep := rfl
@[simp] theorem setGrp_field_loaded (s : State) (g : Nat) (x : Group) : (setGrp s g x).field.loaded = s.field.loaded := rfl
@[simp] theorem setNi_pending (s : State) (n : Nat) (x : Ni) : (setNi s n x).pending = s.pending := rfl
@[simp] theorem setNi_freeCtr (s : State) (n : Nat) (x : Ni) : (setNi s n x).freeCtr = s.freeCtr := rfl
@[simp] theorem setNi_time (s : State) (n : Nat) (x : Ni) : (setNi s n x).time = s.time := rfl
@[simp] theorem setNi_tiles (s : State) (n : Nat) (x : Ni) : (setNi s n x).tiles = s.tiles := rfl
@[simp] theorem setNi_map (s : State) (n : Nat) (x : Ni) : (setNi s n x).map = s.map := rfl
@[simp] theorem setNi_pe (s : State) (n : Nat) (x : Ni) : (setNi s n x).pe = s.pe := rfl
@[simp] theorem setNi_peMem (s : State) (n : Nat) (x : Ni) : (setNi s n x).peMem = s.peMem := rfl
@[simp] theorem setNi_peBad (s : State) (n : Nat) (x : Ni) : (setNi s n x).peBad = s.peBad := rfl
@[simp] theorem setNi_peTag (s : State) (n : Nat) (x : Ni) : (setNi s n x).peTag = s.peTag := rfl
@[simp] theorem setNi_seqs (s : State) (n : Nat) (x : Ni) : (setNi s n x).seqs = s.seqs := rfl
@[simp] theorem setNi_ctxs (s : State) (n : Nat) (x : Ni) : (setNi s n x).ctxs = s.ctxs := rfl
@[simp] theorem setNi_mc (s : State) (n : Nat) (x : Ni) : (setNi s n x).mc = s.mc := rfl
@[simp] theorem setNi_tenants (s : State) (n : Nat) (x : Ni) : (setNi s n x).tenants = s.tenants := rfl
@[simp] theorem setNi_lastYield (s : State) (n : Nat) (x : Ni) : (setNi s n x).lastYield = s.lastYield := rfl
@[simp] theorem setNi_sp (s : State) (n : Nat) (x : Ni) : (setNi s n x).sp = s.sp := rfl
@[simp] theorem setNi_xm (s : State) (n : Nat) (x : Ni) : (setNi s n x).xm = s.xm := rfl
@[simp] theorem setNi_spBad (s : State) (n : Nat) (x : Ni) : (setNi s n x).spBad = s.spBad := rfl
@[simp] theorem setNi_xmBad (s : State) (n : Nat) (x : Ni) : (setNi s n x).xmBad = s.xmBad := rfl
@[simp] theorem setNi_mem (s : State) (n : Nat) (x : Ni) : (setNi s n x).mem = s.mem := rfl
@[simp] theorem setNi_march (s : State) (n : Nat) (x : Ni) : (setNi s n x).march = s.march := rfl
@[simp] theorem setNi_xmCollisions (s : State) (n : Nat) (x : Ni) : (setNi s n x).xmCollisions = s.xmCollisions := rfl
@[simp] theorem setNi_grouping (s : State) (n : Nat) (x : Ni) : (setNi s n x).grouping = s.grouping := rfl
@[simp] theorem setNi_maxSpeed (s : State) (n : Nat) (x : Ni) : (setNi s n x).maxSpeed = s.maxSpeed := rfl
@[simp] theorem setNi_cams (s : State) (n : Nat) (x : Ni) : (setNi s n x).cams = s.cams := rfl
@[simp] theorem setNi_fab (s : State) (n : Nat) (x : Ni) : (setNi s n x).fab = s.fab := rfl
@[simp] theorem setNi_field (s : State) (n : Nat) (x : Ni) : (setNi s n x).field = s.field := rfl
@[simp] theorem setNi_ses (s : State) (n : Nat) (x : Ni) : (setNi s n x).ses = s.ses := rfl
@[simp] theorem setNi_net (s : State) (n : Nat) (x : Ni) : (setNi s n x).net = s.net := rfl
@[simp] theorem setNi_clk (s : State) (n : Nat) (x : Ni) : (setNi s n x).clk = s.clk := rfl
@[simp] theorem setNi_sup (s : State) (n : Nat) (x : Ni) : (setNi s n x).sup = s.sup := rfl
@[simp] theorem setNi_start (s : State) (n : Nat) (x : Ni) : (setNi s n x).start = s.start := rfl
@[simp] theorem setNi_ident (s : State) (n : Nat) (x : Ni) : (setNi s n x).ident = s.ident := rfl
@[simp] theorem setNi_obs (s : State) (n : Nat) (x : Ni) : (setNi s n x).obs = s.obs := rfl
@[simp] theorem setNi_noc_sn (s : State) (n : Nat) (x : Ni) : (setNi s n x).noc.sn = s.noc.sn := rfl
@[simp] theorem setNi_noc_want (s : State) (n : Nat) (x : Ni) : (setNi s n x).noc.want = s.noc.want := rfl
@[simp] theorem setNi_noc_gaps (s : State) (n : Nat) (x : Ni) : (setNi s n x).noc.gaps = s.noc.gaps := rfl
@[simp] theorem setNi_noc_routers (s : State) (n : Nat) (x : Ni) : (setNi s n x).noc.routers = s.noc.routers := rfl
@[simp] theorem setNi_noc_mesh (s : State) (n : Nat) (x : Ni) : (setNi s n x).noc.mesh = s.noc.mesh := rfl
@[simp] theorem setNi_noc_served (s : State) (n : Nat) (x : Ni) : (setNi s n x).noc.served = s.noc.served := rfl
@[simp] theorem setNi_noc_moves (s : State) (n : Nat) (x : Ni) : (setNi s n x).noc.moves = s.noc.moves := rfl
@[simp] theorem setNi_noc_clears (s : State) (n : Nat) (x : Ni) : (setNi s n x).noc.clears = s.noc.clears := rfl
@[simp] theorem setNi_noc_eastFirst (s : State) (n : Nat) (x : Ni) : (setNi s n x).noc.eastFirst = s.noc.eastFirst := rfl
@[simp] theorem setNi_noc_fencedNacks (s : State) (n : Nat) (x : Ni) : (setNi s n x).noc.fencedNacks = s.noc.fencedNacks := rfl
@[simp] theorem setNi_noc_timeouts (s : State) (n : Nat) (x : Ni) : (setNi s n x).noc.timeouts = s.noc.timeouts := rfl
@[simp] theorem setNi_noc_lateResponses (s : State) (n : Nat) (x : Ni) : (setNi s n x).noc.lateResponses = s.noc.lateResponses := rfl
@[simp] theorem setNi_noc_linkReplays (s : State) (n : Nat) (x : Ni) : (setNi s n x).noc.linkReplays = s.noc.linkReplays := rfl
@[simp] theorem setNi_noc_destLost (s : State) (n : Nat) (x : Ni) : (setNi s n x).noc.destLost = s.noc.destLost := rfl
@[simp] theorem setNi_noc_ingestB (s : State) (n : Nat) (x : Ni) : (setNi s n x).noc.ingestB = s.noc.ingestB := rfl
@[simp] theorem setNi_noc_fabricB (s : State) (n : Nat) (x : Ni) : (setNi s n x).noc.fabricB = s.noc.fabricB := rfl
@[simp] theorem setNi_noc_serviceB (s : State) (n : Nat) (x : Ni) : (setNi s n x).noc.serviceB = s.noc.serviceB := rfl
@[simp] theorem setRtr_pending (s : State) (r : Nat) (x : Router) : (setRtr s r x).pending = s.pending := rfl
@[simp] theorem setRtr_freeCtr (s : State) (r : Nat) (x : Router) : (setRtr s r x).freeCtr = s.freeCtr := rfl
@[simp] theorem setRtr_time (s : State) (r : Nat) (x : Router) : (setRtr s r x).time = s.time := rfl
@[simp] theorem setRtr_tiles (s : State) (r : Nat) (x : Router) : (setRtr s r x).tiles = s.tiles := rfl
@[simp] theorem setRtr_map (s : State) (r : Nat) (x : Router) : (setRtr s r x).map = s.map := rfl
@[simp] theorem setRtr_pe (s : State) (r : Nat) (x : Router) : (setRtr s r x).pe = s.pe := rfl
@[simp] theorem setRtr_peMem (s : State) (r : Nat) (x : Router) : (setRtr s r x).peMem = s.peMem := rfl
@[simp] theorem setRtr_peBad (s : State) (r : Nat) (x : Router) : (setRtr s r x).peBad = s.peBad := rfl
@[simp] theorem setRtr_peTag (s : State) (r : Nat) (x : Router) : (setRtr s r x).peTag = s.peTag := rfl
@[simp] theorem setRtr_seqs (s : State) (r : Nat) (x : Router) : (setRtr s r x).seqs = s.seqs := rfl
@[simp] theorem setRtr_ctxs (s : State) (r : Nat) (x : Router) : (setRtr s r x).ctxs = s.ctxs := rfl
@[simp] theorem setRtr_mc (s : State) (r : Nat) (x : Router) : (setRtr s r x).mc = s.mc := rfl
@[simp] theorem setRtr_tenants (s : State) (r : Nat) (x : Router) : (setRtr s r x).tenants = s.tenants := rfl
@[simp] theorem setRtr_lastYield (s : State) (r : Nat) (x : Router) : (setRtr s r x).lastYield = s.lastYield := rfl
@[simp] theorem setRtr_sp (s : State) (r : Nat) (x : Router) : (setRtr s r x).sp = s.sp := rfl
@[simp] theorem setRtr_xm (s : State) (r : Nat) (x : Router) : (setRtr s r x).xm = s.xm := rfl
@[simp] theorem setRtr_spBad (s : State) (r : Nat) (x : Router) : (setRtr s r x).spBad = s.spBad := rfl
@[simp] theorem setRtr_xmBad (s : State) (r : Nat) (x : Router) : (setRtr s r x).xmBad = s.xmBad := rfl
@[simp] theorem setRtr_mem (s : State) (r : Nat) (x : Router) : (setRtr s r x).mem = s.mem := rfl
@[simp] theorem setRtr_march (s : State) (r : Nat) (x : Router) : (setRtr s r x).march = s.march := rfl
@[simp] theorem setRtr_xmCollisions (s : State) (r : Nat) (x : Router) : (setRtr s r x).xmCollisions = s.xmCollisions := rfl
@[simp] theorem setRtr_grouping (s : State) (r : Nat) (x : Router) : (setRtr s r x).grouping = s.grouping := rfl
@[simp] theorem setRtr_maxSpeed (s : State) (r : Nat) (x : Router) : (setRtr s r x).maxSpeed = s.maxSpeed := rfl
@[simp] theorem setRtr_cams (s : State) (r : Nat) (x : Router) : (setRtr s r x).cams = s.cams := rfl
@[simp] theorem setRtr_fab (s : State) (r : Nat) (x : Router) : (setRtr s r x).fab = s.fab := rfl
@[simp] theorem setRtr_field (s : State) (r : Nat) (x : Router) : (setRtr s r x).field = s.field := rfl
@[simp] theorem setRtr_ses (s : State) (r : Nat) (x : Router) : (setRtr s r x).ses = s.ses := rfl
@[simp] theorem setRtr_net (s : State) (r : Nat) (x : Router) : (setRtr s r x).net = s.net := rfl
@[simp] theorem setRtr_clk (s : State) (r : Nat) (x : Router) : (setRtr s r x).clk = s.clk := rfl
@[simp] theorem setRtr_sup (s : State) (r : Nat) (x : Router) : (setRtr s r x).sup = s.sup := rfl
@[simp] theorem setRtr_start (s : State) (r : Nat) (x : Router) : (setRtr s r x).start = s.start := rfl
@[simp] theorem setRtr_ident (s : State) (r : Nat) (x : Router) : (setRtr s r x).ident = s.ident := rfl
@[simp] theorem setRtr_obs (s : State) (r : Nat) (x : Router) : (setRtr s r x).obs = s.obs := rfl
@[simp] theorem setRtr_noc_nis (s : State) (r : Nat) (x : Router) : (setRtr s r x).noc.nis = s.noc.nis := rfl
@[simp] theorem setRtr_noc_sn (s : State) (r : Nat) (x : Router) : (setRtr s r x).noc.sn = s.noc.sn := rfl
@[simp] theorem setRtr_noc_want (s : State) (r : Nat) (x : Router) : (setRtr s r x).noc.want = s.noc.want := rfl
@[simp] theorem setRtr_noc_gaps (s : State) (r : Nat) (x : Router) : (setRtr s r x).noc.gaps = s.noc.gaps := rfl
@[simp] theorem setRtr_noc_mesh (s : State) (r : Nat) (x : Router) : (setRtr s r x).noc.mesh = s.noc.mesh := rfl
@[simp] theorem setRtr_noc_served (s : State) (r : Nat) (x : Router) : (setRtr s r x).noc.served = s.noc.served := rfl
@[simp] theorem setRtr_noc_moves (s : State) (r : Nat) (x : Router) : (setRtr s r x).noc.moves = s.noc.moves := rfl
@[simp] theorem setRtr_noc_clears (s : State) (r : Nat) (x : Router) : (setRtr s r x).noc.clears = s.noc.clears := rfl
@[simp] theorem setRtr_noc_eastFirst (s : State) (r : Nat) (x : Router) : (setRtr s r x).noc.eastFirst = s.noc.eastFirst := rfl
@[simp] theorem setRtr_noc_fencedNacks (s : State) (r : Nat) (x : Router) : (setRtr s r x).noc.fencedNacks = s.noc.fencedNacks := rfl
@[simp] theorem setRtr_noc_timeouts (s : State) (r : Nat) (x : Router) : (setRtr s r x).noc.timeouts = s.noc.timeouts := rfl
@[simp] theorem setRtr_noc_lateResponses (s : State) (r : Nat) (x : Router) : (setRtr s r x).noc.lateResponses = s.noc.lateResponses := rfl
@[simp] theorem setRtr_noc_linkReplays (s : State) (r : Nat) (x : Router) : (setRtr s r x).noc.linkReplays = s.noc.linkReplays := rfl
@[simp] theorem setRtr_noc_destLost (s : State) (r : Nat) (x : Router) : (setRtr s r x).noc.destLost = s.noc.destLost := rfl
@[simp] theorem setRtr_noc_ingestB (s : State) (r : Nat) (x : Router) : (setRtr s r x).noc.ingestB = s.noc.ingestB := rfl
@[simp] theorem setRtr_noc_fabricB (s : State) (r : Nat) (x : Router) : (setRtr s r x).noc.fabricB = s.noc.fabricB := rfl
@[simp] theorem setRtr_noc_serviceB (s : State) (r : Nat) (x : Router) : (setRtr s r x).noc.serviceB = s.noc.serviceB := rfl
@[simp] theorem setEsc_pending (s : State) (e : CtrlId) (x : Esc) : (setEsc s e x).pending = s.pending := rfl
@[simp] theorem setEsc_freeCtr (s : State) (e : CtrlId) (x : Esc) : (setEsc s e x).freeCtr = s.freeCtr := rfl
@[simp] theorem setEsc_time (s : State) (e : CtrlId) (x : Esc) : (setEsc s e x).time = s.time := rfl
@[simp] theorem setEsc_tiles (s : State) (e : CtrlId) (x : Esc) : (setEsc s e x).tiles = s.tiles := rfl
@[simp] theorem setEsc_map (s : State) (e : CtrlId) (x : Esc) : (setEsc s e x).map = s.map := rfl
@[simp] theorem setEsc_pe (s : State) (e : CtrlId) (x : Esc) : (setEsc s e x).pe = s.pe := rfl
@[simp] theorem setEsc_peMem (s : State) (e : CtrlId) (x : Esc) : (setEsc s e x).peMem = s.peMem := rfl
@[simp] theorem setEsc_peBad (s : State) (e : CtrlId) (x : Esc) : (setEsc s e x).peBad = s.peBad := rfl
@[simp] theorem setEsc_peTag (s : State) (e : CtrlId) (x : Esc) : (setEsc s e x).peTag = s.peTag := rfl
@[simp] theorem setEsc_seqs (s : State) (e : CtrlId) (x : Esc) : (setEsc s e x).seqs = s.seqs := rfl
@[simp] theorem setEsc_ctxs (s : State) (e : CtrlId) (x : Esc) : (setEsc s e x).ctxs = s.ctxs := rfl
@[simp] theorem setEsc_mc (s : State) (e : CtrlId) (x : Esc) : (setEsc s e x).mc = s.mc := rfl
@[simp] theorem setEsc_tenants (s : State) (e : CtrlId) (x : Esc) : (setEsc s e x).tenants = s.tenants := rfl
@[simp] theorem setEsc_lastYield (s : State) (e : CtrlId) (x : Esc) : (setEsc s e x).lastYield = s.lastYield := rfl
@[simp] theorem setEsc_sp (s : State) (e : CtrlId) (x : Esc) : (setEsc s e x).sp = s.sp := rfl
@[simp] theorem setEsc_xm (s : State) (e : CtrlId) (x : Esc) : (setEsc s e x).xm = s.xm := rfl
@[simp] theorem setEsc_spBad (s : State) (e : CtrlId) (x : Esc) : (setEsc s e x).spBad = s.spBad := rfl
@[simp] theorem setEsc_xmBad (s : State) (e : CtrlId) (x : Esc) : (setEsc s e x).xmBad = s.xmBad := rfl
@[simp] theorem setEsc_mem (s : State) (e : CtrlId) (x : Esc) : (setEsc s e x).mem = s.mem := rfl
@[simp] theorem setEsc_march (s : State) (e : CtrlId) (x : Esc) : (setEsc s e x).march = s.march := rfl
@[simp] theorem setEsc_xmCollisions (s : State) (e : CtrlId) (x : Esc) : (setEsc s e x).xmCollisions = s.xmCollisions := rfl
@[simp] theorem setEsc_noc (s : State) (e : CtrlId) (x : Esc) : (setEsc s e x).noc = s.noc := rfl
@[simp] theorem setEsc_grouping (s : State) (e : CtrlId) (x : Esc) : (setEsc s e x).grouping = s.grouping := rfl
@[simp] theorem setEsc_maxSpeed (s : State) (e : CtrlId) (x : Esc) : (setEsc s e x).maxSpeed = s.maxSpeed := rfl
@[simp] theorem setEsc_cams (s : State) (e : CtrlId) (x : Esc) : (setEsc s e x).cams = s.cams := rfl
@[simp] theorem setEsc_fab (s : State) (e : CtrlId) (x : Esc) : (setEsc s e x).fab = s.fab := rfl
@[simp] theorem setEsc_field (s : State) (e : CtrlId) (x : Esc) : (setEsc s e x).field = s.field := rfl
@[simp] theorem setEsc_ses (s : State) (e : CtrlId) (x : Esc) : (setEsc s e x).ses = s.ses := rfl
@[simp] theorem setEsc_clk (s : State) (e : CtrlId) (x : Esc) : (setEsc s e x).clk = s.clk := rfl
@[simp] theorem setEsc_sup (s : State) (e : CtrlId) (x : Esc) : (setEsc s e x).sup = s.sup := rfl
@[simp] theorem setEsc_start (s : State) (e : CtrlId) (x : Esc) : (setEsc s e x).start = s.start := rfl
@[simp] theorem setEsc_ident (s : State) (e : CtrlId) (x : Esc) : (setEsc s e x).ident = s.ident := rfl
@[simp] theorem setEsc_obs (s : State) (e : CtrlId) (x : Esc) : (setEsc s e x).obs = s.obs := rfl
@[simp] theorem setEsc_net_can (s : State) (e : CtrlId) (x : Esc) : (setEsc s e x).net.can = s.net.can := rfl
@[simp] theorem setEsc_net_nmt (s : State) (e : CtrlId) (x : Esc) : (setEsc s e x).net.nmt = s.net.nmt := rfl
@[simp] theorem setEsc_net_foe (s : State) (e : CtrlId) (x : Esc) : (setEsc s e x).net.foe = s.net.foe := rfl
@[simp] theorem setEsc_net_sp1Ready (s : State) (e : CtrlId) (x : Esc) : (setEsc s e x).net.sp1Ready = s.net.sp1Ready := rfl
@[simp] theorem setEsc_net_maintOk (s : State) (e : CtrlId) (x : Esc) : (setEsc s e x).net.maintOk = s.net.maintOk := rfl
@[simp] theorem setCan_pending (s : State) (c : CtrlId) (x : CanCtl) : (setCan s c x).pending = s.pending := rfl
@[simp] theorem setCan_freeCtr (s : State) (c : CtrlId) (x : CanCtl) : (setCan s c x).freeCtr = s.freeCtr := rfl
@[simp] theorem setCan_time (s : State) (c : CtrlId) (x : CanCtl) : (setCan s c x).time = s.time := rfl
@[simp] theorem setCan_tiles (s : State) (c : CtrlId) (x : CanCtl) : (setCan s c x).tiles = s.tiles := rfl
@[simp] theorem setCan_map (s : State) (c : CtrlId) (x : CanCtl) : (setCan s c x).map = s.map := rfl
@[simp] theorem setCan_pe (s : State) (c : CtrlId) (x : CanCtl) : (setCan s c x).pe = s.pe := rfl
@[simp] theorem setCan_peMem (s : State) (c : CtrlId) (x : CanCtl) : (setCan s c x).peMem = s.peMem := rfl
@[simp] theorem setCan_peBad (s : State) (c : CtrlId) (x : CanCtl) : (setCan s c x).peBad = s.peBad := rfl
@[simp] theorem setCan_peTag (s : State) (c : CtrlId) (x : CanCtl) : (setCan s c x).peTag = s.peTag := rfl
@[simp] theorem setCan_seqs (s : State) (c : CtrlId) (x : CanCtl) : (setCan s c x).seqs = s.seqs := rfl
@[simp] theorem setCan_ctxs (s : State) (c : CtrlId) (x : CanCtl) : (setCan s c x).ctxs = s.ctxs := rfl
@[simp] theorem setCan_mc (s : State) (c : CtrlId) (x : CanCtl) : (setCan s c x).mc = s.mc := rfl
@[simp] theorem setCan_tenants (s : State) (c : CtrlId) (x : CanCtl) : (setCan s c x).tenants = s.tenants := rfl
@[simp] theorem setCan_lastYield (s : State) (c : CtrlId) (x : CanCtl) : (setCan s c x).lastYield = s.lastYield := rfl
@[simp] theorem setCan_sp (s : State) (c : CtrlId) (x : CanCtl) : (setCan s c x).sp = s.sp := rfl
@[simp] theorem setCan_xm (s : State) (c : CtrlId) (x : CanCtl) : (setCan s c x).xm = s.xm := rfl
@[simp] theorem setCan_spBad (s : State) (c : CtrlId) (x : CanCtl) : (setCan s c x).spBad = s.spBad := rfl
@[simp] theorem setCan_xmBad (s : State) (c : CtrlId) (x : CanCtl) : (setCan s c x).xmBad = s.xmBad := rfl
@[simp] theorem setCan_mem (s : State) (c : CtrlId) (x : CanCtl) : (setCan s c x).mem = s.mem := rfl
@[simp] theorem setCan_march (s : State) (c : CtrlId) (x : CanCtl) : (setCan s c x).march = s.march := rfl
@[simp] theorem setCan_xmCollisions (s : State) (c : CtrlId) (x : CanCtl) : (setCan s c x).xmCollisions = s.xmCollisions := rfl
@[simp] theorem setCan_noc (s : State) (c : CtrlId) (x : CanCtl) : (setCan s c x).noc = s.noc := rfl
@[simp] theorem setCan_grouping (s : State) (c : CtrlId) (x : CanCtl) : (setCan s c x).grouping = s.grouping := rfl
@[simp] theorem setCan_maxSpeed (s : State) (c : CtrlId) (x : CanCtl) : (setCan s c x).maxSpeed = s.maxSpeed := rfl
@[simp] theorem setCan_cams (s : State) (c : CtrlId) (x : CanCtl) : (setCan s c x).cams = s.cams := rfl
@[simp] theorem setCan_fab (s : State) (c : CtrlId) (x : CanCtl) : (setCan s c x).fab = s.fab := rfl
@[simp] theorem setCan_field (s : State) (c : CtrlId) (x : CanCtl) : (setCan s c x).field = s.field := rfl
@[simp] theorem setCan_ses (s : State) (c : CtrlId) (x : CanCtl) : (setCan s c x).ses = s.ses := rfl
@[simp] theorem setCan_clk (s : State) (c : CtrlId) (x : CanCtl) : (setCan s c x).clk = s.clk := rfl
@[simp] theorem setCan_sup (s : State) (c : CtrlId) (x : CanCtl) : (setCan s c x).sup = s.sup := rfl
@[simp] theorem setCan_start (s : State) (c : CtrlId) (x : CanCtl) : (setCan s c x).start = s.start := rfl
@[simp] theorem setCan_ident (s : State) (c : CtrlId) (x : CanCtl) : (setCan s c x).ident = s.ident := rfl
@[simp] theorem setCan_obs (s : State) (c : CtrlId) (x : CanCtl) : (setCan s c x).obs = s.obs := rfl
@[simp] theorem setCan_net_esc (s : State) (c : CtrlId) (x : CanCtl) : (setCan s c x).net.esc = s.net.esc := rfl
@[simp] theorem setCan_net_nmt (s : State) (c : CtrlId) (x : CanCtl) : (setCan s c x).net.nmt = s.net.nmt := rfl
@[simp] theorem setCan_net_foe (s : State) (c : CtrlId) (x : CanCtl) : (setCan s c x).net.foe = s.net.foe := rfl
@[simp] theorem setCan_net_sp1Ready (s : State) (c : CtrlId) (x : CanCtl) : (setCan s c x).net.sp1Ready = s.net.sp1Ready := rfl
@[simp] theorem setCan_net_maintOk (s : State) (c : CtrlId) (x : CanCtl) : (setCan s c x).net.maintOk = s.net.maintOk := rfl
@[simp] theorem setMemSt_pending (s : State) (b : Nat) (x : MemStatus) : (setMemSt s b x).pending = s.pending := rfl
@[simp] theorem setMemSt_freeCtr (s : State) (b : Nat) (x : MemStatus) : (setMemSt s b x).freeCtr = s.freeCtr := rfl
@[simp] theorem setMemSt_time (s : State) (b : Nat) (x : MemStatus) : (setMemSt s b x).time = s.time := rfl
@[simp] theorem setMemSt_tiles (s : State) (b : Nat) (x : MemStatus) : (setMemSt s b x).tiles = s.tiles := rfl
@[simp] theorem setMemSt_map (s : State) (b : Nat) (x : MemStatus) : (setMemSt s b x).map = s.map := rfl
@[simp] theorem setMemSt_pe (s : State) (b : Nat) (x : MemStatus) : (setMemSt s b x).pe = s.pe := rfl
@[simp] theorem setMemSt_peMem (s : State) (b : Nat) (x : MemStatus) : (setMemSt s b x).peMem = s.peMem := rfl
@[simp] theorem setMemSt_peBad (s : State) (b : Nat) (x : MemStatus) : (setMemSt s b x).peBad = s.peBad := rfl
@[simp] theorem setMemSt_peTag (s : State) (b : Nat) (x : MemStatus) : (setMemSt s b x).peTag = s.peTag := rfl
@[simp] theorem setMemSt_seqs (s : State) (b : Nat) (x : MemStatus) : (setMemSt s b x).seqs = s.seqs := rfl
@[simp] theorem setMemSt_ctxs (s : State) (b : Nat) (x : MemStatus) : (setMemSt s b x).ctxs = s.ctxs := rfl
@[simp] theorem setMemSt_mc (s : State) (b : Nat) (x : MemStatus) : (setMemSt s b x).mc = s.mc := rfl
@[simp] theorem setMemSt_tenants (s : State) (b : Nat) (x : MemStatus) : (setMemSt s b x).tenants = s.tenants := rfl
@[simp] theorem setMemSt_lastYield (s : State) (b : Nat) (x : MemStatus) : (setMemSt s b x).lastYield = s.lastYield := rfl
@[simp] theorem setMemSt_sp (s : State) (b : Nat) (x : MemStatus) : (setMemSt s b x).sp = s.sp := rfl
@[simp] theorem setMemSt_xm (s : State) (b : Nat) (x : MemStatus) : (setMemSt s b x).xm = s.xm := rfl
@[simp] theorem setMemSt_spBad (s : State) (b : Nat) (x : MemStatus) : (setMemSt s b x).spBad = s.spBad := rfl
@[simp] theorem setMemSt_xmBad (s : State) (b : Nat) (x : MemStatus) : (setMemSt s b x).xmBad = s.xmBad := rfl
@[simp] theorem setMemSt_march (s : State) (b : Nat) (x : MemStatus) : (setMemSt s b x).march = s.march := rfl
@[simp] theorem setMemSt_xmCollisions (s : State) (b : Nat) (x : MemStatus) : (setMemSt s b x).xmCollisions = s.xmCollisions := rfl
@[simp] theorem setMemSt_noc (s : State) (b : Nat) (x : MemStatus) : (setMemSt s b x).noc = s.noc := rfl
@[simp] theorem setMemSt_grouping (s : State) (b : Nat) (x : MemStatus) : (setMemSt s b x).grouping = s.grouping := rfl
@[simp] theorem setMemSt_maxSpeed (s : State) (b : Nat) (x : MemStatus) : (setMemSt s b x).maxSpeed = s.maxSpeed := rfl
@[simp] theorem setMemSt_cams (s : State) (b : Nat) (x : MemStatus) : (setMemSt s b x).cams = s.cams := rfl
@[simp] theorem setMemSt_fab (s : State) (b : Nat) (x : MemStatus) : (setMemSt s b x).fab = s.fab := rfl
@[simp] theorem setMemSt_field (s : State) (b : Nat) (x : MemStatus) : (setMemSt s b x).field = s.field := rfl
@[simp] theorem setMemSt_ses (s : State) (b : Nat) (x : MemStatus) : (setMemSt s b x).ses = s.ses := rfl
@[simp] theorem setMemSt_net (s : State) (b : Nat) (x : MemStatus) : (setMemSt s b x).net = s.net := rfl
@[simp] theorem setMemSt_clk (s : State) (b : Nat) (x : MemStatus) : (setMemSt s b x).clk = s.clk := rfl
@[simp] theorem setMemSt_sup (s : State) (b : Nat) (x : MemStatus) : (setMemSt s b x).sup = s.sup := rfl
@[simp] theorem setMemSt_start (s : State) (b : Nat) (x : MemStatus) : (setMemSt s b x).start = s.start := rfl
@[simp] theorem setMemSt_ident (s : State) (b : Nat) (x : MemStatus) : (setMemSt s b x).ident = s.ident := rfl
@[simp] theorem setMemSt_obs (s : State) (b : Nat) (x : MemStatus) : (setMemSt s b x).obs = s.obs := rfl

/-! ### The free values' counter -/

@[simp] theorem bump_pending (s : State) : (bump s).pending = s.pending := rfl
@[simp] theorem bump_time (s : State) : (bump s).time = s.time := rfl
@[simp] theorem bump_tiles (s : State) : (bump s).tiles = s.tiles := rfl
@[simp] theorem bump_map (s : State) : (bump s).map = s.map := rfl
@[simp] theorem bump_pe (s : State) : (bump s).pe = s.pe := rfl
@[simp] theorem bump_peMem (s : State) : (bump s).peMem = s.peMem := rfl
@[simp] theorem bump_peBad (s : State) : (bump s).peBad = s.peBad := rfl
@[simp] theorem bump_peTag (s : State) : (bump s).peTag = s.peTag := rfl
@[simp] theorem bump_seqs (s : State) : (bump s).seqs = s.seqs := rfl
@[simp] theorem bump_ctxs (s : State) : (bump s).ctxs = s.ctxs := rfl
@[simp] theorem bump_mc (s : State) : (bump s).mc = s.mc := rfl
@[simp] theorem bump_tenants (s : State) : (bump s).tenants = s.tenants := rfl
@[simp] theorem bump_lastYield (s : State) : (bump s).lastYield = s.lastYield := rfl
@[simp] theorem bump_sp (s : State) : (bump s).sp = s.sp := rfl
@[simp] theorem bump_xm (s : State) : (bump s).xm = s.xm := rfl
@[simp] theorem bump_spBad (s : State) : (bump s).spBad = s.spBad := rfl
@[simp] theorem bump_xmBad (s : State) : (bump s).xmBad = s.xmBad := rfl
@[simp] theorem bump_mem (s : State) : (bump s).mem = s.mem := rfl
@[simp] theorem bump_march (s : State) : (bump s).march = s.march := rfl
@[simp] theorem bump_xmCollisions (s : State) : (bump s).xmCollisions = s.xmCollisions := rfl
@[simp] theorem bump_noc (s : State) : (bump s).noc = s.noc := rfl
@[simp] theorem bump_grouping (s : State) : (bump s).grouping = s.grouping := rfl
@[simp] theorem bump_maxSpeed (s : State) : (bump s).maxSpeed = s.maxSpeed := rfl
@[simp] theorem bump_cams (s : State) : (bump s).cams = s.cams := rfl
@[simp] theorem bump_fab (s : State) : (bump s).fab = s.fab := rfl
@[simp] theorem bump_field (s : State) : (bump s).field = s.field := rfl
@[simp] theorem bump_ses (s : State) : (bump s).ses = s.ses := rfl
@[simp] theorem bump_net (s : State) : (bump s).net = s.net := rfl
@[simp] theorem bump_clk (s : State) : (bump s).clk = s.clk := rfl
@[simp] theorem bump_sup (s : State) : (bump s).sup = s.sup := rfl
@[simp] theorem bump_start (s : State) : (bump s).start = s.start := rfl
@[simp] theorem bump_ident (s : State) : (bump s).ident = s.ident := rfl
@[simp] theorem bump_obs (s : State) : (bump s).obs = s.obs := rfl
@[simp] theorem bump_freeCtr (s : State) : (bump s).freeCtr = s.freeCtr + 1 := rfl

/-! ### A read after a write -/

@[simp] theorem tile_setTile_same (s : State) (p : Nat) (x : Tile) : tile (setTile s p x) p = x := SMap.get_set_same ..
theorem tile_setTile_ne (s : State) {p a : Nat} (x : Tile) (h : a ≠ p) : tile (setTile s p x) a = tile s a := SMap.get_set_ne _ _ _ h
@[simp] theorem tile_modTile_same (s : State) (p : Nat) (f : Tile → Tile) : tile (modTile s p f) p = f (tile s p) :=
  tile_setTile_same ..
@[simp] theorem sqr_setSqr_same (s : State) (q : Nat) (x : Sequencer) : sqr (setSqr s q x) q = x := SMap.get_set_same ..
theorem sqr_setSqr_ne (s : State) {q a : Nat} (x : Sequencer) (h : a ≠ q) : sqr (setSqr s q x) a = sqr s a := SMap.get_set_ne _ _ _ h
@[simp] theorem sqr_modSqr_same (s : State) (q : Nat) (f : Sequencer → Sequencer) : sqr (modSqr s q f) q = f (sqr s q) :=
  sqr_setSqr_same ..
@[simp] theorem ctx_setCtx_same (s : State) (k : Nat) (x : TrapCtx) : ctx (setCtx s k x) k = x := SMap.get_set_same ..
theorem ctx_setCtx_ne (s : State) {k a : Nat} (x : TrapCtx) (h : a ≠ k) : ctx (setCtx s k x) a = ctx s a := SMap.get_set_ne _ _ _ h
@[simp] theorem ten_setTen_same (s : State) (t : Tenant) (x : TenantSt) : ten (setTen s t x) t = x := SMap.get_set_same ..
theorem ten_setTen_ne (s : State) {t a : Tenant} (x : TenantSt) (h : a ≠ t) : ten (setTen s t x) a = ten s a :=
  SMap.get_set_ne _ _ _ (fun e => h (Fin.ext e))
@[simp] theorem ten_modTen_same (s : State) (t : Tenant) (f : TenantSt → TenantSt) : ten (modTen s t f) t = f (ten s t) :=
  ten_setTen_same ..
@[simp] theorem ses_setSes_same (s : State) (k : SesId) (x : Session) : ses (setSes s k x) k = x := SMap.get_set_same ..
theorem ses_setSes_ne (s : State) {k a : SesId} (x : Session) (h : a ≠ k) : ses (setSes s k x) a = ses s a :=
  SMap.get_set_ne _ _ _ (fun e => h (Fin.ext e))
@[simp] theorem ses_modSes_same (s : State) (k : SesId) (f : Session → Session) : ses (modSes s k f) k = f (ses s k) :=
  ses_setSes_same ..
@[simp] theorem cam_setCam_same (s : State) (c : CxpId) (x : Cam) : cam (setCam s c x) c = x := SMap.get_set_same ..
theorem cam_setCam_ne (s : State) {c a : CxpId} (x : Cam) (h : a ≠ c) : cam (setCam s c x) a = cam s a :=
  SMap.get_set_ne _ _ _ (fun e => h (Fin.ext e))
@[simp] theorem cam_modCam_same (s : State) (c : CxpId) (f : Cam → Cam) : cam (modCam s c f) c = f (cam s c) :=
  cam_setCam_same ..
@[simp] theorem fch_setFch_same (s : State) (n : Nat) (x : Fc) : fch (setFch s n x) n = x := SMap.get_set_same ..
theorem fch_setFch_ne (s : State) {n a : Nat} (x : Fc) (h : a ≠ n) : fch (setFch s n x) a = fch s a := SMap.get_set_ne _ _ _ h
@[simp] theorem fch_modFch_same (s : State) (n : Nat) (f : Fc → Fc) : fch (modFch s n f) n = f (fch s n) :=
  fch_setFch_same ..
@[simp] theorem grp_setGrp_same (s : State) (g : Nat) (x : Group) : grp (setGrp s g x) g = x := SMap.get_set_same ..
theorem grp_setGrp_ne (s : State) {g a : Nat} (x : Group) (h : a ≠ g) : grp (setGrp s g x) a = grp s a := SMap.get_set_ne _ _ _ h
@[simp] theorem grp_modGrp_same (s : State) (g : Nat) (f : Group → Group) : grp (modGrp s g f) g = f (grp s g) :=
  grp_setGrp_same ..
@[simp] theorem ni_setNi_same (s : State) (n : Nat) (x : Ni) : ni (setNi s n x) n = x := SMap.get_set_same ..
theorem ni_setNi_ne (s : State) {n a : Nat} (x : Ni) (h : a ≠ n) : ni (setNi s n x) a = ni s a := SMap.get_set_ne _ _ _ h
@[simp] theorem ni_modNi_same (s : State) (n : Nat) (f : Ni → Ni) : ni (modNi s n f) n = f (ni s n) :=
  ni_setNi_same ..
@[simp] theorem rtr_setRtr_same (s : State) (r : Nat) (x : Router) : rtr (setRtr s r x) r = x := SMap.get_set_same ..
theorem rtr_setRtr_ne (s : State) {r a : Nat} (x : Router) (h : a ≠ r) : rtr (setRtr s r x) a = rtr s a := SMap.get_set_ne _ _ _ h
@[simp] theorem rtr_modRtr_same (s : State) (r : Nat) (f : Router → Router) : rtr (modRtr s r f) r = f (rtr s r) :=
  rtr_setRtr_same ..
@[simp] theorem esc_setEsc_same (s : State) (e : CtrlId) (x : Esc) : esc (setEsc s e x) e = x := SMap.get_set_same ..
theorem esc_setEsc_ne (s : State) {e a : CtrlId} (x : Esc) (h : a ≠ e) : esc (setEsc s e x) a = esc s a :=
  SMap.get_set_ne _ _ _ (fun e => h (Fin.ext e))
@[simp] theorem esc_modEsc_same (s : State) (e : CtrlId) (f : Esc → Esc) : esc (modEsc s e f) e = f (esc s e) :=
  esc_setEsc_same ..
@[simp] theorem can_setCan_same (s : State) (c : CtrlId) (x : CanCtl) : can (setCan s c x) c = x := SMap.get_set_same ..
@[simp] theorem can_modCan_same (s : State) (c : CtrlId) (f : CanCtl → CanCtl) : can (modCan s c f) c = f (can s c) :=
  can_setCan_same ..
@[simp] theorem memSt_setMemSt_same (s : State) (b : Nat) (x : MemStatus) : memSt (setMemSt s b x) b = x := SMap.get_set_same ..
theorem memSt_setMemSt_ne (s : State) {b a : Nat} (x : MemStatus) (h : a ≠ b) : memSt (setMemSt s b x) a = memSt s a := SMap.get_set_ne _ _ _ h
@[simp] theorem memSt_modMemSt_same (s : State) (b : Nat) (f : MemStatus → MemStatus) : memSt (modMemSt s b f) b = f (memSt s b) :=
  memSt_setMemSt_same ..

/-! ### One family's write seen by another family's reader -/

@[simp] theorem sqr_setTile (s : State) (p : Nat) (x : Tile) (i : Nat) : sqr (setTile s p x) i = sqr s i := rfl
@[simp] theorem ctx_setTile (s : State) (p : Nat) (x : Tile) (i : Nat) : ctx (setTile s p x) i = ctx s i := rfl
@[simp] theorem ten_setTile (s : State) (p : Nat) (x : Tile) (i : Tenant) : ten (setTile s p x) i = ten s i := rfl
@[simp] theorem ses_setTile (s : State) (p : Nat) (x : Tile) (i : SesId) : ses (setTile s p x) i = ses s i := rfl
@[simp] theorem cam_setTile (s : State) (p : Nat) (x : Tile) (i : CxpId) : cam (setTile s p x) i = cam s i := rfl
@[simp] theorem fch_setTile (s : State) (p : Nat) (x : Tile) (i : Nat) : fch (setTile s p x) i = fch s i := rfl
@[simp] theorem grp_setTile (s : State) (p : Nat) (x : Tile) (i : Nat) : grp (setTile s p x) i = grp s i := rfl
@[simp] theorem ni_setTile (s : State) (p : Nat) (x : Tile) (i : Nat) : ni (setTile s p x) i = ni s i := rfl
@[simp] theorem rtr_setTile (s : State) (p : Nat) (x : Tile) (i : Nat) : rtr (setTile s p x) i = rtr s i := rfl
@[simp] theorem esc_setTile (s : State) (p : Nat) (x : Tile) (i : CtrlId) : esc (setTile s p x) i = esc s i := rfl
@[simp] theorem can_setTile (s : State) (p : Nat) (x : Tile) (i : CtrlId) : can (setTile s p x) i = can s i := rfl
@[simp] theorem memSt_setTile (s : State) (p : Nat) (x : Tile) (i : Nat) : memSt (setTile s p x) i = memSt s i := rfl
@[simp] theorem tile_setSqr (s : State) (q : Nat) (x : Sequencer) (i : Nat) : tile (setSqr s q x) i = tile s i := rfl
@[simp] theorem ctx_setSqr (s : State) (q : Nat) (x : Sequencer) (i : Nat) : ctx (setSqr s q x) i = ctx s i := rfl
@[simp] theorem ten_setSqr (s : State) (q : Nat) (x : Sequencer) (i : Tenant) : ten (setSqr s q x) i = ten s i := rfl
@[simp] theorem ses_setSqr (s : State) (q : Nat) (x : Sequencer) (i : SesId) : ses (setSqr s q x) i = ses s i := rfl
@[simp] theorem cam_setSqr (s : State) (q : Nat) (x : Sequencer) (i : CxpId) : cam (setSqr s q x) i = cam s i := rfl
@[simp] theorem fch_setSqr (s : State) (q : Nat) (x : Sequencer) (i : Nat) : fch (setSqr s q x) i = fch s i := rfl
@[simp] theorem grp_setSqr (s : State) (q : Nat) (x : Sequencer) (i : Nat) : grp (setSqr s q x) i = grp s i := rfl
@[simp] theorem ni_setSqr (s : State) (q : Nat) (x : Sequencer) (i : Nat) : ni (setSqr s q x) i = ni s i := rfl
@[simp] theorem rtr_setSqr (s : State) (q : Nat) (x : Sequencer) (i : Nat) : rtr (setSqr s q x) i = rtr s i := rfl
@[simp] theorem esc_setSqr (s : State) (q : Nat) (x : Sequencer) (i : CtrlId) : esc (setSqr s q x) i = esc s i := rfl
@[simp] theorem can_setSqr (s : State) (q : Nat) (x : Sequencer) (i : CtrlId) : can (setSqr s q x) i = can s i := rfl
@[simp] theorem memSt_setSqr (s : State) (q : Nat) (x : Sequencer) (i : Nat) : memSt (setSqr s q x) i = memSt s i := rfl
@[simp] theorem tile_setCtx (s : State) (k : Nat) (x : TrapCtx) (i : Nat) : tile (setCtx s k x) i = tile s i := rfl
@[simp] theorem sqr_setCtx (s : State) (k : Nat) (x : TrapCtx) (i : Nat) : sqr (setCtx s k x) i = sqr s i := rfl
@[simp] theorem ten_setCtx (s : State) (k : Nat) (x : TrapCtx) (i : Tenant) : ten (setCtx s k x) i = ten s i := rfl
@[simp] theorem ses_setCtx (s : State) (k : Nat) (x : TrapCtx) (i : SesId) : ses (setCtx s k x) i = ses s i := rfl
@[simp] theorem cam_setCtx (s : State) (k : Nat) (x : TrapCtx) (i : CxpId) : cam (setCtx s k x) i = cam s i := rfl
@[simp] theorem fch_setCtx (s : State) (k : Nat) (x : TrapCtx) (i : Nat) : fch (setCtx s k x) i = fch s i := rfl
@[simp] theorem grp_setCtx (s : State) (k : Nat) (x : TrapCtx) (i : Nat) : grp (setCtx s k x) i = grp s i := rfl
@[simp] theorem ni_setCtx (s : State) (k : Nat) (x : TrapCtx) (i : Nat) : ni (setCtx s k x) i = ni s i := rfl
@[simp] theorem rtr_setCtx (s : State) (k : Nat) (x : TrapCtx) (i : Nat) : rtr (setCtx s k x) i = rtr s i := rfl
@[simp] theorem esc_setCtx (s : State) (k : Nat) (x : TrapCtx) (i : CtrlId) : esc (setCtx s k x) i = esc s i := rfl
@[simp] theorem can_setCtx (s : State) (k : Nat) (x : TrapCtx) (i : CtrlId) : can (setCtx s k x) i = can s i := rfl
@[simp] theorem memSt_setCtx (s : State) (k : Nat) (x : TrapCtx) (i : Nat) : memSt (setCtx s k x) i = memSt s i := rfl
@[simp] theorem tile_setTen (s : State) (t : Tenant) (x : TenantSt) (i : Nat) : tile (setTen s t x) i = tile s i := rfl
@[simp] theorem sqr_setTen (s : State) (t : Tenant) (x : TenantSt) (i : Nat) : sqr (setTen s t x) i = sqr s i := rfl
@[simp] theorem ctx_setTen (s : State) (t : Tenant) (x : TenantSt) (i : Nat) : ctx (setTen s t x) i = ctx s i := rfl
@[simp] theorem ses_setTen (s : State) (t : Tenant) (x : TenantSt) (i : SesId) : ses (setTen s t x) i = ses s i := rfl
@[simp] theorem cam_setTen (s : State) (t : Tenant) (x : TenantSt) (i : CxpId) : cam (setTen s t x) i = cam s i := rfl
@[simp] theorem fch_setTen (s : State) (t : Tenant) (x : TenantSt) (i : Nat) : fch (setTen s t x) i = fch s i := rfl
@[simp] theorem grp_setTen (s : State) (t : Tenant) (x : TenantSt) (i : Nat) : grp (setTen s t x) i = grp s i := rfl
@[simp] theorem ni_setTen (s : State) (t : Tenant) (x : TenantSt) (i : Nat) : ni (setTen s t x) i = ni s i := rfl
@[simp] theorem rtr_setTen (s : State) (t : Tenant) (x : TenantSt) (i : Nat) : rtr (setTen s t x) i = rtr s i := rfl
@[simp] theorem esc_setTen (s : State) (t : Tenant) (x : TenantSt) (i : CtrlId) : esc (setTen s t x) i = esc s i := rfl
@[simp] theorem can_setTen (s : State) (t : Tenant) (x : TenantSt) (i : CtrlId) : can (setTen s t x) i = can s i := rfl
@[simp] theorem memSt_setTen (s : State) (t : Tenant) (x : TenantSt) (i : Nat) : memSt (setTen s t x) i = memSt s i := rfl
@[simp] theorem tile_setSes (s : State) (k : SesId) (x : Session) (i : Nat) : tile (setSes s k x) i = tile s i := rfl
@[simp] theorem sqr_setSes (s : State) (k : SesId) (x : Session) (i : Nat) : sqr (setSes s k x) i = sqr s i := rfl
@[simp] theorem ctx_setSes (s : State) (k : SesId) (x : Session) (i : Nat) : ctx (setSes s k x) i = ctx s i := rfl
@[simp] theorem ten_setSes (s : State) (k : SesId) (x : Session) (i : Tenant) : ten (setSes s k x) i = ten s i := rfl
@[simp] theorem cam_setSes (s : State) (k : SesId) (x : Session) (i : CxpId) : cam (setSes s k x) i = cam s i := rfl
@[simp] theorem fch_setSes (s : State) (k : SesId) (x : Session) (i : Nat) : fch (setSes s k x) i = fch s i := rfl
@[simp] theorem grp_setSes (s : State) (k : SesId) (x : Session) (i : Nat) : grp (setSes s k x) i = grp s i := rfl
@[simp] theorem ni_setSes (s : State) (k : SesId) (x : Session) (i : Nat) : ni (setSes s k x) i = ni s i := rfl
@[simp] theorem rtr_setSes (s : State) (k : SesId) (x : Session) (i : Nat) : rtr (setSes s k x) i = rtr s i := rfl
@[simp] theorem esc_setSes (s : State) (k : SesId) (x : Session) (i : CtrlId) : esc (setSes s k x) i = esc s i := rfl
@[simp] theorem can_setSes (s : State) (k : SesId) (x : Session) (i : CtrlId) : can (setSes s k x) i = can s i := rfl
@[simp] theorem memSt_setSes (s : State) (k : SesId) (x : Session) (i : Nat) : memSt (setSes s k x) i = memSt s i := rfl
@[simp] theorem tile_setCam (s : State) (c : CxpId) (x : Cam) (i : Nat) : tile (setCam s c x) i = tile s i := rfl
@[simp] theorem sqr_setCam (s : State) (c : CxpId) (x : Cam) (i : Nat) : sqr (setCam s c x) i = sqr s i := rfl
@[simp] theorem ctx_setCam (s : State) (c : CxpId) (x : Cam) (i : Nat) : ctx (setCam s c x) i = ctx s i := rfl
@[simp] theorem ten_setCam (s : State) (c : CxpId) (x : Cam) (i : Tenant) : ten (setCam s c x) i = ten s i := rfl
@[simp] theorem ses_setCam (s : State) (c : CxpId) (x : Cam) (i : SesId) : ses (setCam s c x) i = ses s i := rfl
@[simp] theorem fch_setCam (s : State) (c : CxpId) (x : Cam) (i : Nat) : fch (setCam s c x) i = fch s i := rfl
@[simp] theorem grp_setCam (s : State) (c : CxpId) (x : Cam) (i : Nat) : grp (setCam s c x) i = grp s i := rfl
@[simp] theorem ni_setCam (s : State) (c : CxpId) (x : Cam) (i : Nat) : ni (setCam s c x) i = ni s i := rfl
@[simp] theorem rtr_setCam (s : State) (c : CxpId) (x : Cam) (i : Nat) : rtr (setCam s c x) i = rtr s i := rfl
@[simp] theorem esc_setCam (s : State) (c : CxpId) (x : Cam) (i : CtrlId) : esc (setCam s c x) i = esc s i := rfl
@[simp] theorem can_setCam (s : State) (c : CxpId) (x : Cam) (i : CtrlId) : can (setCam s c x) i = can s i := rfl
@[simp] theorem memSt_setCam (s : State) (c : CxpId) (x : Cam) (i : Nat) : memSt (setCam s c x) i = memSt s i := rfl
@[simp] theorem tile_setFch (s : State) (n : Nat) (x : Fc) (i : Nat) : tile (setFch s n x) i = tile s i := rfl
@[simp] theorem sqr_setFch (s : State) (n : Nat) (x : Fc) (i : Nat) : sqr (setFch s n x) i = sqr s i := rfl
@[simp] theorem ctx_setFch (s : State) (n : Nat) (x : Fc) (i : Nat) : ctx (setFch s n x) i = ctx s i := rfl
@[simp] theorem ten_setFch (s : State) (n : Nat) (x : Fc) (i : Tenant) : ten (setFch s n x) i = ten s i := rfl
@[simp] theorem ses_setFch (s : State) (n : Nat) (x : Fc) (i : SesId) : ses (setFch s n x) i = ses s i := rfl
@[simp] theorem cam_setFch (s : State) (n : Nat) (x : Fc) (i : CxpId) : cam (setFch s n x) i = cam s i := rfl
@[simp] theorem grp_setFch (s : State) (n : Nat) (x : Fc) (i : Nat) : grp (setFch s n x) i = grp s i := rfl
@[simp] theorem ni_setFch (s : State) (n : Nat) (x : Fc) (i : Nat) : ni (setFch s n x) i = ni s i := rfl
@[simp] theorem rtr_setFch (s : State) (n : Nat) (x : Fc) (i : Nat) : rtr (setFch s n x) i = rtr s i := rfl
@[simp] theorem esc_setFch (s : State) (n : Nat) (x : Fc) (i : CtrlId) : esc (setFch s n x) i = esc s i := rfl
@[simp] theorem can_setFch (s : State) (n : Nat) (x : Fc) (i : CtrlId) : can (setFch s n x) i = can s i := rfl
@[simp] theorem memSt_setFch (s : State) (n : Nat) (x : Fc) (i : Nat) : memSt (setFch s n x) i = memSt s i := rfl
@[simp] theorem tile_setGrp (s : State) (g : Nat) (x : Group) (i : Nat) : tile (setGrp s g x) i = tile s i := rfl
@[simp] theorem sqr_setGrp (s : State) (g : Nat) (x : Group) (i : Nat) : sqr (setGrp s g x) i = sqr s i := rfl
@[simp] theorem ctx_setGrp (s : State) (g : Nat) (x : Group) (i : Nat) : ctx (setGrp s g x) i = ctx s i := rfl
@[simp] theorem ten_setGrp (s : State) (g : Nat) (x : Group) (i : Tenant) : ten (setGrp s g x) i = ten s i := rfl
@[simp] theorem ses_setGrp (s : State) (g : Nat) (x : Group) (i : SesId) : ses (setGrp s g x) i = ses s i := rfl
@[simp] theorem cam_setGrp (s : State) (g : Nat) (x : Group) (i : CxpId) : cam (setGrp s g x) i = cam s i := rfl
@[simp] theorem fch_setGrp (s : State) (g : Nat) (x : Group) (i : Nat) : fch (setGrp s g x) i = fch s i := rfl
@[simp] theorem ni_setGrp (s : State) (g : Nat) (x : Group) (i : Nat) : ni (setGrp s g x) i = ni s i := rfl
@[simp] theorem rtr_setGrp (s : State) (g : Nat) (x : Group) (i : Nat) : rtr (setGrp s g x) i = rtr s i := rfl
@[simp] theorem esc_setGrp (s : State) (g : Nat) (x : Group) (i : CtrlId) : esc (setGrp s g x) i = esc s i := rfl
@[simp] theorem can_setGrp (s : State) (g : Nat) (x : Group) (i : CtrlId) : can (setGrp s g x) i = can s i := rfl
@[simp] theorem memSt_setGrp (s : State) (g : Nat) (x : Group) (i : Nat) : memSt (setGrp s g x) i = memSt s i := rfl
@[simp] theorem tile_setNi (s : State) (n : Nat) (x : Ni) (i : Nat) : tile (setNi s n x) i = tile s i := rfl
@[simp] theorem sqr_setNi (s : State) (n : Nat) (x : Ni) (i : Nat) : sqr (setNi s n x) i = sqr s i := rfl
@[simp] theorem ctx_setNi (s : State) (n : Nat) (x : Ni) (i : Nat) : ctx (setNi s n x) i = ctx s i := rfl
@[simp] theorem ten_setNi (s : State) (n : Nat) (x : Ni) (i : Tenant) : ten (setNi s n x) i = ten s i := rfl
@[simp] theorem ses_setNi (s : State) (n : Nat) (x : Ni) (i : SesId) : ses (setNi s n x) i = ses s i := rfl
@[simp] theorem cam_setNi (s : State) (n : Nat) (x : Ni) (i : CxpId) : cam (setNi s n x) i = cam s i := rfl
@[simp] theorem fch_setNi (s : State) (n : Nat) (x : Ni) (i : Nat) : fch (setNi s n x) i = fch s i := rfl
@[simp] theorem grp_setNi (s : State) (n : Nat) (x : Ni) (i : Nat) : grp (setNi s n x) i = grp s i := rfl
@[simp] theorem rtr_setNi (s : State) (n : Nat) (x : Ni) (i : Nat) : rtr (setNi s n x) i = rtr s i := rfl
@[simp] theorem esc_setNi (s : State) (n : Nat) (x : Ni) (i : CtrlId) : esc (setNi s n x) i = esc s i := rfl
@[simp] theorem can_setNi (s : State) (n : Nat) (x : Ni) (i : CtrlId) : can (setNi s n x) i = can s i := rfl
@[simp] theorem memSt_setNi (s : State) (n : Nat) (x : Ni) (i : Nat) : memSt (setNi s n x) i = memSt s i := rfl
@[simp] theorem tile_setRtr (s : State) (r : Nat) (x : Router) (i : Nat) : tile (setRtr s r x) i = tile s i := rfl
@[simp] theorem sqr_setRtr (s : State) (r : Nat) (x : Router) (i : Nat) : sqr (setRtr s r x) i = sqr s i := rfl
@[simp] theorem ctx_setRtr (s : State) (r : Nat) (x : Router) (i : Nat) : ctx (setRtr s r x) i = ctx s i := rfl
@[simp] theorem ten_setRtr (s : State) (r : Nat) (x : Router) (i : Tenant) : ten (setRtr s r x) i = ten s i := rfl
@[simp] theorem ses_setRtr (s : State) (r : Nat) (x : Router) (i : SesId) : ses (setRtr s r x) i = ses s i := rfl
@[simp] theorem cam_setRtr (s : State) (r : Nat) (x : Router) (i : CxpId) : cam (setRtr s r x) i = cam s i := rfl
@[simp] theorem fch_setRtr (s : State) (r : Nat) (x : Router) (i : Nat) : fch (setRtr s r x) i = fch s i := rfl
@[simp] theorem grp_setRtr (s : State) (r : Nat) (x : Router) (i : Nat) : grp (setRtr s r x) i = grp s i := rfl
@[simp] theorem ni_setRtr (s : State) (r : Nat) (x : Router) (i : Nat) : ni (setRtr s r x) i = ni s i := rfl
@[simp] theorem esc_setRtr (s : State) (r : Nat) (x : Router) (i : CtrlId) : esc (setRtr s r x) i = esc s i := rfl
@[simp] theorem can_setRtr (s : State) (r : Nat) (x : Router) (i : CtrlId) : can (setRtr s r x) i = can s i := rfl
@[simp] theorem memSt_setRtr (s : State) (r : Nat) (x : Router) (i : Nat) : memSt (setRtr s r x) i = memSt s i := rfl
@[simp] theorem tile_setEsc (s : State) (e : CtrlId) (x : Esc) (i : Nat) : tile (setEsc s e x) i = tile s i := rfl
@[simp] theorem sqr_setEsc (s : State) (e : CtrlId) (x : Esc) (i : Nat) : sqr (setEsc s e x) i = sqr s i := rfl
@[simp] theorem ctx_setEsc (s : State) (e : CtrlId) (x : Esc) (i : Nat) : ctx (setEsc s e x) i = ctx s i := rfl
@[simp] theorem ten_setEsc (s : State) (e : CtrlId) (x : Esc) (i : Tenant) : ten (setEsc s e x) i = ten s i := rfl
@[simp] theorem ses_setEsc (s : State) (e : CtrlId) (x : Esc) (i : SesId) : ses (setEsc s e x) i = ses s i := rfl
@[simp] theorem cam_setEsc (s : State) (e : CtrlId) (x : Esc) (i : CxpId) : cam (setEsc s e x) i = cam s i := rfl
@[simp] theorem fch_setEsc (s : State) (e : CtrlId) (x : Esc) (i : Nat) : fch (setEsc s e x) i = fch s i := rfl
@[simp] theorem grp_setEsc (s : State) (e : CtrlId) (x : Esc) (i : Nat) : grp (setEsc s e x) i = grp s i := rfl
@[simp] theorem ni_setEsc (s : State) (e : CtrlId) (x : Esc) (i : Nat) : ni (setEsc s e x) i = ni s i := rfl
@[simp] theorem rtr_setEsc (s : State) (e : CtrlId) (x : Esc) (i : Nat) : rtr (setEsc s e x) i = rtr s i := rfl
@[simp] theorem can_setEsc (s : State) (e : CtrlId) (x : Esc) (i : CtrlId) : can (setEsc s e x) i = can s i := rfl
@[simp] theorem memSt_setEsc (s : State) (e : CtrlId) (x : Esc) (i : Nat) : memSt (setEsc s e x) i = memSt s i := rfl
@[simp] theorem tile_setCan (s : State) (c : CtrlId) (x : CanCtl) (i : Nat) : tile (setCan s c x) i = tile s i := rfl
@[simp] theorem sqr_setCan (s : State) (c : CtrlId) (x : CanCtl) (i : Nat) : sqr (setCan s c x) i = sqr s i := rfl
@[simp] theorem ctx_setCan (s : State) (c : CtrlId) (x : CanCtl) (i : Nat) : ctx (setCan s c x) i = ctx s i := rfl
@[simp] theorem ten_setCan (s : State) (c : CtrlId) (x : CanCtl) (i : Tenant) : ten (setCan s c x) i = ten s i := rfl
@[simp] theorem ses_setCan (s : State) (c : CtrlId) (x : CanCtl) (i : SesId) : ses (setCan s c x) i = ses s i := rfl
@[simp] theorem cam_setCan (s : State) (c : CtrlId) (x : CanCtl) (i : CxpId) : cam (setCan s c x) i = cam s i := rfl
@[simp] theorem fch_setCan (s : State) (c : CtrlId) (x : CanCtl) (i : Nat) : fch (setCan s c x) i = fch s i := rfl
@[simp] theorem grp_setCan (s : State) (c : CtrlId) (x : CanCtl) (i : Nat) : grp (setCan s c x) i = grp s i := rfl
@[simp] theorem ni_setCan (s : State) (c : CtrlId) (x : CanCtl) (i : Nat) : ni (setCan s c x) i = ni s i := rfl
@[simp] theorem rtr_setCan (s : State) (c : CtrlId) (x : CanCtl) (i : Nat) : rtr (setCan s c x) i = rtr s i := rfl
@[simp] theorem esc_setCan (s : State) (c : CtrlId) (x : CanCtl) (i : CtrlId) : esc (setCan s c x) i = esc s i := rfl
@[simp] theorem memSt_setCan (s : State) (c : CtrlId) (x : CanCtl) (i : Nat) : memSt (setCan s c x) i = memSt s i := rfl
@[simp] theorem tile_setMemSt (s : State) (b : Nat) (x : MemStatus) (i : Nat) : tile (setMemSt s b x) i = tile s i := rfl
@[simp] theorem sqr_setMemSt (s : State) (b : Nat) (x : MemStatus) (i : Nat) : sqr (setMemSt s b x) i = sqr s i := rfl
@[simp] theorem ctx_setMemSt (s : State) (b : Nat) (x : MemStatus) (i : Nat) : ctx (setMemSt s b x) i = ctx s i := rfl
@[simp] theorem ten_setMemSt (s : State) (b : Nat) (x : MemStatus) (i : Tenant) : ten (setMemSt s b x) i = ten s i := rfl
@[simp] theorem ses_setMemSt (s : State) (b : Nat) (x : MemStatus) (i : SesId) : ses (setMemSt s b x) i = ses s i := rfl
@[simp] theorem cam_setMemSt (s : State) (b : Nat) (x : MemStatus) (i : CxpId) : cam (setMemSt s b x) i = cam s i := rfl
@[simp] theorem fch_setMemSt (s : State) (b : Nat) (x : MemStatus) (i : Nat) : fch (setMemSt s b x) i = fch s i := rfl
@[simp] theorem grp_setMemSt (s : State) (b : Nat) (x : MemStatus) (i : Nat) : grp (setMemSt s b x) i = grp s i := rfl
@[simp] theorem ni_setMemSt (s : State) (b : Nat) (x : MemStatus) (i : Nat) : ni (setMemSt s b x) i = ni s i := rfl
@[simp] theorem rtr_setMemSt (s : State) (b : Nat) (x : MemStatus) (i : Nat) : rtr (setMemSt s b x) i = rtr s i := rfl
@[simp] theorem esc_setMemSt (s : State) (b : Nat) (x : MemStatus) (i : CtrlId) : esc (setMemSt s b x) i = esc s i := rfl
@[simp] theorem can_setMemSt (s : State) (b : Nat) (x : MemStatus) (i : CtrlId) : can (setMemSt s b x) i = can s i := rfl

end Sys2Proof.Machine
end

