-- ==== Sys2Proof/WellFormed.lean ====
section
/-! DEFINITION. Which commands the outside world can send: the bounds that the interfaces themselves set on lengths, numbers and
lists. What a command may hold beyond that is accepted or refused by its meaning. -/

namespace Sys2Proof

/-- A packet has at most 32 data flits of 32 bytes (R252, R256). -/
def Pkt.wellFormed (p : Pkt) : Bool := decide (p.data.length ≤ 1024)

/-- The size fields of an image header have 24 bits (R282, R283). -/
def ImageHeader.wellFormed (h : ImageHeader) : Bool := decide (h.width < 2 ^ 24 ∧ h.height < 2 ^ 24)

/-- A report names each part at most once (R444, R448). -/
def StartReport.wellFormed (r : StartReport) : Bool :=
  decide (r.badBanks.Nodup ∧ r.badHalves.Nodup ∧ r.badTiles.Nodup ∧ r.badSequencers.Nodup ∧ r.badRouters.Nodup ∧
    r.badGroups.Nodup ∧ r.badControllers.Nodup ∧ r.escModeHigh.Nodup ∧ r.badRecords.Nodup ∧ r.badHeaders.Nodup)

/-- The codes of R354 that describe a condition of a channel. -/
def diagCodes : List Nat := [1, 2, 3, 4, 5, 6, 7, 8, 9, 10]

/-- The data lengths of a CAN FD frame (R405). -/
def canLengths : List Nat := [0, 1, 2, 3, 4, 5, 6, 7, 8, 12, 16, 20, 24, 32, 48, 64]

/-- A command as its interface can carry it. -/
def wellFormed (i : Instr) : Bool :=
  match i with
  | .logic _ _ => true
  | .kset _ _ => true
  | .kand _ _ => true
  | .kor _ _ => true
  | .kall _ _ => true
  | .knot _ _ => true
  | .fset _ _ => true
  | .add _ _ => true
  | .addc _ _ => true
  | .sub _ _ => true
  | .subb _ _ => true
  | .mul _ _ => true
  | .mulw _ _ => true
  | .div _ _ => true
  | .mod _ _ => true
  | .neg _ _ => true
  | .min _ _ => true
  | .max _ _ => true
  | .cmpeq _ _ => true
  | .cmpne _ _ => true
  | .cmplt _ _ => true
  | .cmple _ _ => true
  | .fadd _ _ => true
  | .fsub _ _ => true
  | .fmul _ _ => true
  | .fdiv _ _ => true
  | .fma _ _ => true
  | .fsqrt _ _ => true
  | .fmin _ _ => true
  | .fmax _ _ => true
  | .fcmpeq _ _ => true
  | .fcmplt _ _ => true
  | .fcmple _ _ => true
  | .fcvt _ _ => true
  | .fcvti _ _ => true
  | .fcvtf _ _ => true
  | .fneg _ _ => true
  | .fabs _ _ => true
  | .shl _ _ => true
  | .shrl _ _ => true
  | .shra _ _ => true
  | .rol _ _ => true
  | .xn _ _ => true
  | .xe _ _ => true
  | .xs _ _ => true
  | .xw _ _ => true
  | .rany _ _ => true
  | .rmax _ _ => true
  | .rmin _ _ => true
  | .rsum _ _ => true
  | .pld _ _ => true
  | .padd _ _ => true
  | .pst _ _ => true
  | .sadd _ _ => true
  | .ssub _ _ => true
  | .sand _ _ => true
  | .sor _ _ => true
  | .sxor _ _ => true
  | .sshl _ _ => true
  | .sshr _ _ => true
  | .ssra _ _ => true
  | .sli _ _ => true
  | .slda _ _ => true
  | .sgett _ _ => true
  | .br _ _ => true
  | .bany _ _ => true
  | .bnone _ _ => true
  | .beq _ _ => true
  | .bne _ _ => true
  | .blt _ _ => true
  | .bltu _ _ => true
  | .dbnz _ _ => true
  | .call _ _ => true
  | .ret _ _ => true
  | .ckpt _ _ => true
  | .fbar _ _ => true
  | .waitev _ _ => true
  | .trap _ _ => true
  | .gang _ _ => true
  | .brclm _ _ => true
  | .fclr _ _ => true
  | .ften _ _ => true
  | .rtt _ _ => true
  | .endOrder _ _ => true
  | .inarm _ _ => true
  | .inwait _ _ => true
  | .outp _ _ => true
  | .outs _ _ => true
  | .outf _ _ => true
  | .planeLog _ _ => true
  | .planeAdd _ _ => true
  | .news _ _ _ w => decide w.parity.Nodup
  | .addrImm _ _ => true
  | .addrAdd _ _ => true
  | .addrScalar _ _ => true
  | .addrCopy _ _ => true
  | .addrWrap _ _ => true
  | .addrSlide _ _ => true
  | .addrPlain _ _ => true
  | .scalAdd _ _ => true
  | .scalAddi _ _ => true
  | .scalSub _ _ => true
  | .scalAnd _ _ => true
  | .scalOr _ _ => true
  | .scalXor _ _ => true
  | .scalShl _ _ => true
  | .scalShr _ _ => true
  | .scalLi _ _ => true
  | .scalShi _ _ => true
  | .scalField _ _ => true
  | .scalHsb _ _ => true
  | .scalGet _ _ => true
  | .scalMem _ _ => true
  | .scalSetlc _ _ => true
  | .scalScan _ _ => true
  | .wait _ _ => true
  | .waitConditionMet _ => true
  | .microTimeout _ => true
  | .microBr _ _ => true
  | .microCall _ _ => true
  | .microRet _ _ => true
  | .loop _ _ => true
  | .gor _ _ => true
  | .gorResultDelivery _ _ _ => true
  | .bcast _ _ => true
  | .trapchkRaise _ _ => true
  | .trapchkBoundary _ _ => true
  | .reschkSum _ _ => true
  | .reschkProd _ _ => true
  | .reschkClear _ _ => true
  | .flagOrResult _ => true
  | .machineCheck _ => true
  | .wcsScan _ => true
  | .patchBundle _ _ => true
  | .migration a b => decide (a ≠ b)
  | .tileRetestMarchComplete _ _ => true
  | .sparePeriodicMarch _ _ => true
  | .polderRampDwellEnd _ => true
  | .idleHoldExpiry _ => true
  | .submit _ _ _ => true
  | .orderStart _ => true
  | .unprotected _ => true
  | .recordExpiry _ q => decide (q ≠ 0)
  | .retireTo _ _ _ => true
  | .abort _ _ _ => true
  | .release _ _ _ => true
  | .ownership _ _ _ => true
  | .ownershipApply _ => true
  | .marchEnable _ _ => true
  | .marchPassStart => true
  | .marchWindowRetry => true
  | .dtestTarget _ _ => true
  | .destructiveMarchComplete _ => true
  | .read p _ => p.wellFormed
  | .write p _ => p.wellFormed
  | .readResp p => p.wellFormed
  | .writeResp p => p.wellFormed
  | .nackFenced p => p.wellFormed
  | .errorResp p => p.wellFormed
  | .fenceClear _ _ p => p.wellFormed
  | .sluiceClose p _ => p.wellFormed
  | .routerControlNotice _ p _ => p.wellFormed
  | .flitParityReplay _ _ => true
  | .requestTimeout _ _ => true
  | .niDrained _ => true
  | .sluiceFaultFence _ => true
  | .routerQuiesceComplete _ => true
  | .routerQuiesceTimeout _ => true
  | .routerStallDetect _ => true
  | .grouping _ _ => true
  | .cxpDiscoveryLock _ _ => true
  | .cxpDiscoveryTimeout _ => true
  | .cxpLossOfLock _ => true
  | .cxpLostHoldEnd _ => true
  | .frameStart _ h => h.wellFormed
  | .streamPacket _ n px _ _ _ => decide (n < 16384 ∧ px.length ≤ 16384)
  | .bindingLanded _ q _ => decide (q ≠ 0)
  | .camRegWrite _ _ _ => true
  | .camRegRead _ _ => true
  | .camRegAck _ d => decide (d.length ≤ 1024)
  | .cellPass _ _ => true
  | .cellAdd _ _ => true
  | .cellSub _ _ => true
  | .cellAnd _ _ => true
  | .cellOr _ _ => true
  | .cellXor _ _ => true
  | .cellNot _ _ => true
  | .cellShl _ _ => true
  | .cellShr _ _ => true
  | .cellSra _ _ => true
  | .cellMux _ _ => true
  | .cellCnt _ _ => true
  | .cellMinu _ _ => true
  | .cellMaxu _ _ => true
  | .cellTime _ _ => true
  | .serialRxByte _ _ => true
  | .fullLoad _ _ => true
  | .partialLoad _ _ => true
  | .fabricLoadComplete => true
  | .capture _ _ => true
  | .probeSel _ _ _ => true
  | .fabricClockRampStep => true
  | .fieldInputChange _ _ => true
  | .mode _ _ _ => true
  | .safeState _ _ _ => true
  | .filter _ _ _ => true
  | .doutImage _ _ _ => true
  | .encoderEdge _ _ _ => true
  | .adcSlot _ _ => true
  | .pwmPeriodStart _ => true
  | .shortGnd _ => true
  | .shortSupply _ => true
  | .overtemp _ => true
  | .openWire _ => true
  | .ainOpenWirePulse _ _ _ => true
  | .openLoadOn _ => true
  | .openLoadOff _ _ => true
  | .reversed _ => true
  | .diagRetry _ => true
  | .diagnosisEnd _ c => diagCodes.contains c.toNat
  | .diagClear _ _ _ => true
  | .spsOverload _ => true
  | .spsRetry _ => true
  | .spsReverse _ => true
  | .spsReverseEnd _ => true
  | .spsEnable _ _ _ => true
  | .groupCurrentAverage _ _ => true
  | .moduleBudgetCheck => true
  | .groupMonitorTrip _ _ => true
  | .groupOvercurrentEscalation _ => true
  | .groupClear _ _ _ => true
  | .crossingSilence _ _ => true
  | .registerWrite _ _ _ _ => true
  | .domainSegment _ _ _ _ _ _ => true
  | .segmentPauseTimeout _ => true
  | .hostSdoAbort _ => true
  | .requested _ _ => true
  | .errorCount _ _ => true
  | .mapEntry _ _ _ _ _ => true
  | .mapCount _ _ _ _ => true
  | .pdoAssign _ _ _ _ => true
  | .emergencySend _ => true
  | .logCursor _ _ => true
  | .logEntry _ => true
  | .escAlControl _ _ _ => true
  | .mailboxRequest _ _ _ => true
  | .sdoInformation _ _ => true
  | .syncType _ _ => true
  | .sm2Event _ d => decide (d.length ≤ 512)
  | .sync0 _ => true
  | .sync1 _ => true
  | .freeRunLatch _ => true
  | .pdWatchdogExpiry _ => true
  | .foeWrite _ _ _ _ => true
  | .foeRead _ _ => true
  | .nmtStart _ _ => true
  | .nmtEnterPreOperational _ _ => true
  | .nmtStop _ _ => true
  | .nmtResetCommunication _ _ => true
  | .nmtResetNode _ _ => true
  | .canSync _ => true
  | .rpdo _ _ d => canLengths.contains d.length
  | .tpdoTransmit _ _ => true
  | .heartbeat _ => true
  | .usdoRequest _ n _ => decide (n ≠ 0)
  | .lssConfigureNodeId _ _ => true
  | .lssConfigureBitTiming _ _ _ => true
  | .lssStoreConfiguration _ => true
  | .lssActivateBitTiming _ => true
  | .controllerFault _ => true
  | .networkWake _ _ => true
  | .maintenanceFrame _ => true
  | .maintenanceSilence => true
  | .activeCeiling _ _ => true
  | .idleProfile _ _ => true
  | .deepSleep _ _ => true
  | .deepSleepEntry => true
  | .rampDwell _ _ => true
  | .idleHold _ _ _ => true
  | .gateRun _ _ => true
  | .gateSleep _ _ => true
  | .gateDeep _ _ => true
  | .clockGateIdle _ => true
  | .refSelect _ _ => true
  | .refMissingEdge _ => true
  | .pllLossOfLock _ => true
  | .refInvalid _ => true
  | .pllRelock => true
  | .holdoverRefValid _ => true
  | .vcoreWarning => true
  | .vcoreWarningHoldExpiry => true
  | .vcoreRecovery r => r.wellFormed
  | .vcoreResetLevel => true
  | .powerFailWarning _ => true
  | .powerFailWarningEnd => true
  | .vmemAction => true
  | .vmemRecovery r => r.wellFormed
  | .vioAction _ => true
  | .vserAction => true
  | .fieldFeedLost _ => true
  | .fieldFeedRecovery _ => true
  | .powerOn r => r.wellFormed
  | .resetWarm _ r => r.wellFormed
  | .resetCold _ r => r.wellFormed
  | .watchdogExpiry r => r.wellFormed
  | .rstNLow => true
  | .rstNRise r => r.wellFormed
  | .coldStartTimeout _ => true
  | .coldStartRetry r => r.wellFormed
  | .nonce _ _ => true
  | .attestationSignStart => true
  | .attestationSignComplete _ => true
  | .keyRecord _ _ => true
  | .firmware _ _ => true
  | .firmwareRoleSwap _ _ => true
  | .housekeepingPairFault _ => true
  | .tideInEdge => true
  | .tideCmd _ _ => true
  | .snapshotLatchEnd => true
  | .tideOutEnd => true
  | .tapBypass => true
  | .tapIdcode => true
  | .tapSamplePreload _ => true
  | .tapExtest => true
  | .tapExtestPulse => true
  | .tapExtestTrain => true
  | .tapClamp => true
  | .tapHighz => true
  | .polderMonitorTrip _ => true
  | .vioRecovery _ r => r.wellFormed
  | .refValid _ => true
  | .trapContextScan _ => true
  | .cxpDiscoveryRetry _ => true
  | .camRegTimeout _ => true
  | .waitevLimitExpired _ => true
  | .modeChangeComplete _ => true
  | .marchPassComplete => true

end Sys2Proof
end

