-- ==== Sys2Proof/Tests/Slice0.lean ====
section
/-! SUPPORT. Checks of the model on small states: what WellFormed refuses, single commands against values worked out from the
rules, and for each statement concrete values that meet its hypotheses. -/

set_option Elab.async false

namespace Sys2Proof.Tests

open Sys2Proof.Machine

/-! ### States to start from -/

/-- An ownership record: tile 0, SQ0, ECAT0, every camera, region, line and channel; an extent for the program and its mirror. -/
def own0 : OwnRec :=
  { tenant := 0, seq := 0, counter := 1, tiles := 1, dual := false, channel := 0, cams := 0xFF, resv := 0, weight := 100
    regions := 0xFF, lines := 0xFFFFFFFFFFFFFFFF, channels := BitVec.allOnes 512, extents := [⟨0, 0, 1⟩, ⟨2, 0, 1⟩], roles := [0, 1, 8]
    maxLive := 16, shared := [], raw := [] }

/-- An order of that tenant. -/
def order0 (st : OrderSt) : Order :=
  { seq := 1, hon := 7, entry := 32, args := [1, 2, 3, 4], startInput := 0xFFFF, ins := [], outs := [], st := st, released := true
    startTime := 0, unprotected := false, recomputed := false, fsum := 0, runTicks := 0, sinceTicks := 0, large := false, journal := []
    replay := [], ckpt := none, staged := [], dualMiss := 0, reexec := false }

/-- T0 owns its parts, its sessions are open at the highest version, nothing is queued. -/
def sOwn : State := { State.reset with
  tenants := [(0, { TenantSt.initial with own := some own0, ownState := 1 })]
  seqs := [(0, { Sequencer.initial with service := .inService, bound := some 0, pc := 32 })]
  ses := [(0, { Session.initial with isOpen := true, requested := 0x1F, agreed := 4 }), (4, { Session.initial with isOpen := true, requested := 0x1F, agreed := 4 })]
  tiles := [(0, { Tile.initial with polder := .awake 7 }), (16, { Tile.initial with service := .spare })] }

/-- As before, with the order RUNNING; the words 3 to 24 of the program name 40 as the handler of each cause. -/
def sRun : State := { sOwn with
  tenants := [(0, { TenantSt.initial with own := some own0, ownState := 1, orders := [order0 .running], nextSeq := 2 })]
  sp := (List.range 32).map fun i => (8 * i, 40#8) }

def atTrap : State := modSqr sRun 0 fun x => { x with tl := true }

/-- The state with the word `w` at the program counter, 32, of T0's program, and at its dispatch entry a branch to word 512. -/
def prog (s : State) (w : DWord) : State :=
  modSqr (spWrite s 256 (leBytes 8 w.toNat)) 0 fun x => { x with wcs := [(32 * opcOf w + fnOf w, 0x18000200)] }

theorem inv_of {s : State} (hm : s.map = []) (h : (SMap.wf 0 s.sp && SMap.wf 0 s.xm && SMap.wf 0 s.peMem && SMap.wf .none s.spBad &&
      SMap.wf .none s.xmBad && SMap.wf false s.peBad && SMap.wf 0 s.spFill && SMap.wf 0 s.xmFill &&
      decide (s.clk.gateDeep &&& 0xFFF0FFFF = 0x01F0FFFF) && decide (s.obs.log.length ≤ 1024) && decide (s.obs.flashLog.length ≤ 64) &&
      (List.range 16).all fun p => decide ((tile s p).service = .inService)) = true) : Inv s := by
  simp only [Bool.and_eq_true, decide_eq_true_eq, List.all_eq_true, List.mem_range] at h
  obtain ⟨⟨⟨⟨⟨⟨⟨⟨⟨⟨⟨a, b⟩, c⟩, d⟩, e⟩, f⟩, x⟩, y⟩, g⟩, i⟩, j⟩, k⟩ := h
  refine ⟨⟨a, b, c, d, e, f, x, y⟩, g, ⟨i, j⟩, ?_, ?_⟩
  · intro m n p hm' hn hp hq
    simp only [physOf, hm, SMap.get_nil] at hp hq
    rw [dif_pos (by omega)] at hp hq
    rw [← hq] at hp
    simpa using hp
  · intro n p hn hp
    simp only [physOf, hm, SMap.get_nil] at hp
    rw [dif_pos (by omega)] at hp
    injection hp with hp
    subst hp
    exact .inl (k n hn)

theorem admitted_of {s : State} {k : SesId} {i j n : Nat}
    (h : (sesUp s k && decide (access s k i j true = 0) && decide (initCheck s k i j = 0) &&
      (match findRow s k i j with
        | some r => decide (lengthCheck r n = 0)
        | none => false) && decide (s.obs.due = none) && decide (s.clk.sleep = .none)) = true) : admitted s k i j n := by
  simp only [Bool.and_eq_true, decide_eq_true_eq] at h
  obtain ⟨⟨⟨⟨⟨a, b⟩, c⟩, d⟩, e⟩, f⟩ := h
  refine ⟨a, b, c, ?_, e, f⟩
  cases hr : findRow s k i j with
  | none => simp [hr] at d
  | some r => exact ⟨r, rfl, by simpa [hr] using d⟩

/-- A word at a good address of a program whose bank serves is fetched as it stands. -/
theorem runs_of {s : State} {t : Tenant} {q : SeqId} {w : DWord} (h : (decide (aisReady s t = some q) &&
      ((sqr s q.val).tl || !trapWaits s t) && !badTarget s t ((sqr s q.val).pc + 1).toNat &&
      (match (ten s t).own with
        | some r => (match roleExtent r 0, roleExtent r 1 with
          | some p, some _ =>
            let a := p.addr + 8 * (sqr s q.val).pc.toNat
            decide ((memSt s (a / bankBytes)).service = .inService) && !spBadAt s a 8 && decide (BitVec.ofNat 64 (ofLe (spRead s a 8)) = w)
          | _, _ => false)
        | none => false)) = true) : runsOn s t q w := by
  simp only [Bool.and_eq_true, decide_eq_true_eq, Bool.or_eq_true, Bool.not_eq_true'] at h
  obtain ⟨⟨⟨a, b⟩, d⟩, e⟩ := h
  refine ⟨⟨a, b, ?_⟩, d⟩
  split at e
  · next r hr =>
    split at e
    · next p m hp hm =>
      simp only [Bool.and_eq_true, decide_eq_true_eq, Bool.not_eq_true'] at e
      obtain ⟨⟨e1, e2⟩, e3⟩ := e
      simp [fetchAis, hr, fetchProg, hp, hm, readCopied, e1, e2, e3]
    · cases e
  · cases e

theorem inv_prog {s : State} (h : Inv s) (w : DWord) : Inv (prog s w) :=
  Keeps.done (Keeps.frame (spWrite_keeps s 256 _ (Keeps.refl s)) rfl rfl rfl rfl) h

theorem ofLe_leBytes (k n : Nat) : ofLe (leBytes k n) = n % 256 ^ k := by
  induction k generalizing n with
  | zero => simp [leBytes, ofLe, Nat.mod_one]
  | succ k ih =>
    have : 256 ^ (k + 1) = 256 * 256 ^ k := by rw [Nat.pow_succ, Nat.mul_comm]
    rw [leBytes, ofLe, ih, this, Nat.mod_mul]
    simp

theorem spRead_spWrite (s : State) (h : s.march.window = none) (d : Bytes) (a : Nat) (hb : ∀ i, i < d.length → spBase s (a + i) = 0) :
    spRead (spWrite s a d) a d.length = d := by
  have b : ∀ i, spBase (spWrite s a d) i = spBase s i := fun i => by simp [spBase, spWrite, yieldWindow, h]
  have l : (d.mapIdx fun i b => b ^^^ spBase s (a + i)) = d := by
    apply List.ext_getElem
    · simp
    · intro i h1 h2
      simp [hb i h2]
  apply List.ext_getElem
  · simp [spRead]
  · intro i h1 h2
    simp only [spRead, List.getElem_map, List.getElem_range, spByte, b, hb i h2]
    simp [spWrite, l, SMap.get_writeN_in _ _ _ h2]

theorem length_leBytes (k n : Nat) : (leBytes k n).length = k := by
  induction k generalizing n with
  | zero => rfl
  | succ k ih => simp [leBytes, ih]

theorem spRead_prog (w : DWord) : spRead (prog sRun w) 256 8 = leBytes 8 w.toNat := by
  have h := spRead_spWrite sRun rfl (leBytes 8 w.toNat) 256 (by rw [length_leBytes]; decide +kernel)
  rw [length_leBytes] at h
  exact h

/-- Any word can be the next instruction. -/
theorem ready (w : DWord) : runsOn (prog sRun w) 0 0 w := by
  have u : memSt (prog sRun w) 0 = MemStatus.initial := rfl
  have b : spBadAt (prog sRun w) 256 8 = false := rfl
  have f : fetchAis (prog sRun w) 0 0 = (prog sRun w, some w) := by
    unfold fetchAis
    rw [show (ten (prog sRun w) 0).own = some own0 from rfl, show ((sqr (prog sRun w) (0 : SeqId).val).pc).toNat = 32 from rfl]
    simp only [fetchProg, show roleExtent own0 0 = some ⟨0, 0, 1⟩ from rfl, show roleExtent own0 1 = some ⟨2, 0, 1⟩ from rfl, readCopied,
      show (⟨0, 0, 1⟩ : Extent).addr = 0 by decide, show 0 + 8 * 32 = 256 from rfl, show 256 / bankBytes = 0 by decide, u, b, spRead_prog,
      ofLe_leBytes]
    simp [MemStatus.initial, Nat.mod_eq_of_lt w.isLt]
  have r : aisReady (prog sRun w) 0 = some 0 := rfl
  have tw : trapWaits (prog sRun w) 0 = false := rfl
  have bt : badTarget (prog sRun w) 0 ((sqr (prog sRun w) (0 : SeqId).val).pc + 1).toNat = false := rfl
  exact ⟨⟨r, .inr tw, f⟩, bt⟩

/-- A vector at a good address of a program whose bank serves. -/
theorem handler_of {s : State} {t : Tenant} {c v : Nat} (h : (!badTarget s t v && (match (ten s t).own with
        | some r => (match roleExtent r 0, roleExtent r 1 with
          | some p, some _ =>
            let a := p.addr + 8 * c
            decide ((memSt s (a / bankBytes)).service = .inService) && !spBadAt s a 8 && decide (ofLe (spRead s a 8) % 2 ^ 24 = v)
          | _, _ => false)
        | none => false)) = true) : handlerAt s t c v := by
  simp only [Bool.and_eq_true, Bool.not_eq_true'] at h
  refine ⟨?_, h.1⟩
  replace h := h.2
  split at h
  · next r hr =>
    split at h
    · next p m hp hm =>
      simp only [Bool.and_eq_true, decide_eq_true_eq, Bool.not_eq_true'] at h
      obtain ⟨⟨e1, e2⟩, e3⟩ := h
      simpa [trapVector, hr, fetchProg, hp, hm, readCopied, e1, e2] using e3
    · cases h
  · cases h

/-- Every vector leads to word 40 where the program stands as in `sRun`. -/
theorem handler_same {u : State} {c : Nat} (hc : c < 25) (ho : (ten u 0).own = some own0) (hm : u.mem = []) (hb : u.spBad = [])
    (hf : u.spFill = []) (hs : ∀ i, i < 8 → SMap.get 0 u.sp (8 * c + i) = SMap.get 0 sRun.sp (8 * c + i)) : handlerAt u 0 c 40 := by
  have e : ∀ i, i < 8 → spByte u (8 * c + i) = spByte sRun (8 * c + i) := by
    intro i hi
    have g : inGolden (8 * c + i) = false := decide_eq_false fun h => by simp only [bankBytes, unitBytes] at h; omega
    have : spBase u (8 * c + i) = spBase sRun (8 * c + i) := by
      rw [spBase, spBase, g, hf, show sRun.spFill = [] from rfl]
      rfl
    rw [spByte, spByte, this, hs i hi]
  have r : spRead u (8 * c) 8 = spRead sRun (8 * c) 8 := by
    unfold spRead
    exact List.map_congr_left fun i hi => e i (List.mem_range.mp hi)
  have v : ofLe (spRead sRun (8 * c) 8) = 40 := by
    have : ∀ c, c < 25 → ofLe (spRead sRun (8 * c) 8) = 40 := by decide +kernel
    exact this c hc
  have m : memSt u 0 = MemStatus.initial := by rw [memSt, hm]; rfl
  have b : spBadAt u (8 * c) 8 = false := by rw [spBadAt, hb]; rfl
  refine ⟨?_, by rw [badTarget, ho]; rfl⟩
  unfold trapVector
  rw [ho]
  simp only [fetchProg, show roleExtent own0 0 = some ⟨0, 0, 1⟩ from rfl, show roleExtent own0 1 = some ⟨2, 0, 1⟩ from rfl, readCopied,
    show (⟨0, 0, 1⟩ : Extent).addr = 0 by decide, Nat.zero_add, show 8 * c / bankBytes = 0 by simp only [bankBytes]; omega, m, b, r, v]
  simp [MemStatus.initial]

theorem handler (w : DWord) (c : Nat) (hc : c < 25) : handlerAt (prog sRun w) 0 c 40 :=
  handler_same hc rfl rfl rfl rfl fun i hi => by
    have o : (prog sRun w).sp = SMap.writeN 0 sRun.sp 256 ((leBytes 8 w.toNat).mapIdx fun i b => b ^^^ spBase sRun (256 + i)) := rfl
    rw [o, SMap.get_writeN_out _ _ _ (by omega)]

theorem invW (w : DWord) : Inv (prog sRun w) := inv_prog (inv_of rfl (by decide +kernel)) w

theorem inv_run : Inv sRun := inv_of rfl (by decide +kernel)
theorem inv_atTrap : Inv atTrap := inv_of rfl (by decide +kernel)

/-! ### WellFormed refuses -/

def longPkt : Pkt :=
  { hver := 2, vc := 0, ty := 1, len := 0, dx := 0, dy := 0, dp := false, sx := 0, sy := 0, sp := false, ten := 0, dev := false, dor := false, tid := 0
    sn := 0, res75 := false, nbytes := 0, status := 0, res47 := 0, addr := 0, resHi := 0, data := List.replicate 1025 0 }

def twice : StartReport :=
  { completes := true, refA := true, refB := true, imagesVerified := true, pairA := true, pairB := true, badBanks := [0, 0], badHalves := []
    badTiles := [], badSequencers := [], badRouters := [], wcsDigest := true, slotA := true, slotB := true, badGroups := [], keyTest := true
    badControllers := [], escModeHigh := [], maintenancePort := true, badRecords := [], retention := true, flashCounter := true, retainedImage := true
    badHeaders := [], fabricCrc := true }

theorem test_wf_packets : (∀ i ∈ [Instr.read longPkt ⟨false, false⟩, .write longPkt none, .readResp longPkt, .writeResp longPkt, .nackFenced longPkt,
    .errorResp longPkt, .fenceClear 0 0 longPkt, .sluiceClose longPkt .dark, .routerControlNotice 0 longPkt .quiesce], wellFormed i = false) ∧
    wellFormed (.read { longPkt with data := [] } ⟨false, false⟩) = true := by decide +kernel
theorem test_wf_news : wellFormed (.news 0 0 false ⟨0, [(0, 7), (0, 7)]⟩) = false := by decide
theorem test_wf_reports : ∀ i ∈ [Instr.vcoreRecovery twice, .vmemRecovery twice, .powerOn twice, .resetWarm 0 twice, .resetCold 0 twice,
    .watchdogExpiry twice, .rstNRise twice, .coldStartRetry twice, .vioRecovery 0 twice], wellFormed i = false := by decide +kernel
theorem test_wf_migration : wellFormed (.migration 1 1) = false := by decide
theorem test_wf_recordExpiry : wellFormed (.recordExpiry 0 0) = false := by decide
theorem test_wf_frameStart : wellFormed (.frameStart 0 ⟨2 ^ 24, 1, none⟩) = false ∧ wellFormed (.frameStart 0 ⟨1, 2 ^ 24, none⟩) = false := by decide
theorem test_wf_streamPacket : wellFormed (.streamPacket 0 16384 [] true true true) = false ∧
    wellFormed (.streamPacket 0 0 (List.replicate 16385 0) true true true) = false := by decide +kernel
theorem test_wf_bindingLanded : wellFormed (.bindingLanded 0 0 0) = false := by decide
theorem test_wf_camRegAck : wellFormed (.camRegAck 0 (List.replicate 1025 0)) = false := by decide +kernel
theorem test_wf_diagnosisEnd : wellFormed (.diagnosisEnd 0 0) = false ∧ wellFormed (.diagnosisEnd 0 11) = false := by decide
theorem test_wf_sm2Event : wellFormed (.sm2Event 0 (List.replicate 513 0)) = false := by decide +kernel
theorem test_wf_rpdo : wellFormed (.rpdo 0 0 (List.replicate 9 0)) = false := by decide
theorem test_wf_usdoRequest : wellFormed (.usdoRequest 0 0 (.upload 0x1000 0)) = false := by decide

/-! ### Values worked out from the rules -/

/-- What holds after a command. -/
def after (c : Instr) (s : State) (f : State → Bool) : Bool := match exec c s with
  | .next u => f u
  | _ => false

/-- 255 + 1 in 8 bits unsigned is 0 with the carry and OV; under SAT it is 255 with SV (R111, R112). −128 / −1 sets OV, x / 0 DZ (R113). -/
theorem test_int : intElem .add false false 8 255 1 false = ⟨0, some true, flagOV⟩ ∧
    (intElem .add false true 8 255 1 false).d = 255 ∧ (intElem .div true false 8 0x80 0xFF false).d = 0x80 ∧
    (intElem .mod true false 8 0xF9 2 false).d = 0xFF ∧ (intElem .div false false 8 7 0 false).d = 255 := by decide +kernel

/-- binary32: 1 + 2 = 3, 2 × 3 = 6, √4 = 2, 1/3 rounded to nearest, −1 < 1 (R127–R135). -/
theorem test_float : (fpElem .fadd (fpPar ⟨2, 0, false, false, false, false, 0, 0, 0, 0⟩) false 0x3F800000 0x40000000 0).1.d = 0x40400000 ∧
    (fpElem .fmul (fpPar ⟨2, 0, false, false, false, false, 0, 0, 0, 0⟩) false 0x40000000 0x40400000 0).1.d = 0x40C00000 ∧
    (fpElem .fsqrt (fpPar ⟨2, 0, false, false, false, false, 0, 0, 0, 0⟩) false 0x40800000 0 0).1.d = 0x40000000 ∧
    (fpElem .fdiv (fpPar ⟨2, 0, false, false, false, false, 0, 0, 0, 0⟩) false 0x3F800000 0x40400000 0).1.d = 0x3EAAAAAB ∧
    (fpElem .fcmplt (fpPar ⟨2, 0, false, false, false, false, 0, 0, 0, 0⟩) false 0xBF800000 0x3F800000 0).1.d = 1 := by decide +kernel

/-- SADD wraps; BR goes to its word; a taken CALL leaves the next word in S15 (R94, R95). -/
theorem test_scalar : after (.sadd 0 ⟨1, 0, 0, true, 0, 0xFFFFFFFF⟩) (prog sRun 0x1C020100FFFFFFFF) (fun u => sreg u 0 1 == 0xFFFFFFFF && (sqr u 0).pc == 33) = true := by
  decide +kernel
theorem test_call : after (.call 0 ⟨false, 0, 0, 0, 0, 100⟩) (prog sRun 0x2100000000000064) (fun u => (sqr u 0).pc == 100 && sreg u 0 15 == 33) = true := by decide +kernel

/-- `s` with the microword `w` at the µPC of SQ0, in the patch area. -/
def micro (s : State) (w : Word) : State := modSqr s 0 fun x => { x with upc := 12288, wcs := [(12288, w)] }

/-- SCAL SHI appends ten bits (R164); BCAST loads BL (R168). -/
theorem test_micro : after (.scalShi 0 ⟨1, 0, 0, 0x3FF⟩) (micro sRun 0x124403FF) (fun u => sreg u 0 1 == 0x3FF && !(sqr u 0).z) = true ∧
    after (.bcast 0 ⟨5, 3, true, 0⟩) (micro sRun 0x25438000) (fun u => (sqr u 0).bl == 0x435) = true := by decide +kernel

/-- The first order is number 1 and waits for no start input (R198). -/
theorem test_submit : after (.submit 0 0 ([0, 0, 0, 1, 7, 0, 0, 0, 32, 0, 0, 0, 0, 0, 0, 0, 0xFF, 0xFF] ++ List.replicate 14 0)) sOwn
    (fun u => (ten u 0).orders.map Order.seq == [1] && (ses u 0).reply == some ⟨0, []⟩) = true := by decide +kernel

/-- A clean march of a tile in RETEST counts; the second makes it the spare (R65). -/
theorem test_march : after (.tileRetestMarchComplete 3 true) (modTile sOwn 3 fun x => { x with service := .retest, passes := 1 })
    (fun u => (tile u 3).service == .spare) = true := by decide +kernel

/-- A request to the fenced interface of a dark tile is answered NACK_FENCED with reason OFF (R254). -/
theorem test_nack : after (.read { longPkt with data := [], dx := 1, sx := 0, sy := 2, sp := true, vc := 3, nbytes := 8 } ⟨false, false⟩) sOwn
    (fun u => (ni u 2).sent.map (fun r => (r.ty, r.status)) == [(5, 0x12)]) = true := by decide +kernel

/-- CXP-6 is the code 5 of LINK_STATE's table; at MAX_SPEED 10 the lock holds (R279). -/
theorem test_link : after (.cxpDiscoveryLock 0 4) { sOwn with maxSpeed := 10 } (fun u => (cam u 0).link == .up 4) = true := by decide +kernel

/-- MODE 13 is refused, MODE 1 taken (R337). -/
theorem test_mode : after (.mode 0 0 13) sOwn (fun u => (ses u 0).reply == some ⟨0x06090030, []⟩) = true ∧
    after (.mode 0 0 1) sOwn (fun u => (fch u 0).mode == 1 && (fch u 0).changing) = true := by decide +kernel

/-- 3.2 V at 32,000 codes for 10 V is 10,240 (R346). -/
theorem test_adc : after (.adcSlot 0 3200000) (modFch sOwn 0 fun x => { x with mode := 8 }) (fun u => (fch u 0).val == 10240) = true := by
  decide +kernel

/-- The cell of R301 with ADD: 0 + 5 from the immediate field. -/
theorem test_cell : after (.cellAdd 0 0) { sOwn with fab := { sOwn.fab with
      cfg := { sOwn.fab.cfg with cells := [(0, { CellCfg.null with ir := [BitVec.ofNat 32 (2 ^ 27 + 2 ^ 20 + 2 ^ 16 + 5)] })] } } }
    (fun u => (cell u 0 0).o == 5) = true := by decide +kernel

/-- CRC-32 of "123456789" (R318). -/
theorem test_crc : crc32 [0x31, 0x32, 0x33, 0x34, 0x35, 0x36, 0x37, 0x38, 0x39] = 0xCBF43926#32 := by decide +kernel

/-- GATE_DEEP keeps its fixed bits (R427); NMT START opens the session (R406). -/
theorem test_gateDeep : after (.gateDeep 0 0) sOwn (fun u => u.clk.gateDeep == 0x01F0FFFF) = true := by decide +kernel
theorem test_nmtStop : after (.nmtStop 0 0) (modTen sOwn 0 fun x => { x with own := some { own0 with channel := 2 } })
    (fun u => !(ses u 0).isOpen && nmt u 0 == .stopped) = true := by decide +kernel

/-- A lost reference in NORMAL with the other valid relocks to it (R429). -/
theorem test_refLost : after (.refInvalid 0) { sOwn with clk := { sOwn.clk with aValid := true, bValid := true, inUse := 0 } }
    (fun u => u.clk.st == .relocking && u.clk.inUse == 1 && u.clk.freeze) = true := by decide +kernel

/-- EXTEST loads as BYPASS while RST_N is high (R487). -/
theorem test_tap : after .tapExtest sOwn (fun u => u.obs.tap == .bypass) = true ∧
    after .tapExtest { sOwn with start := { sOwn.start with rstLow := true } } (fun u => u.obs.tap == .extest) = true := by decide +kernel

/-- One idle step is one microsecond (log 3); the queue is first in, first out. -/
theorem test_idle : (match step sOwn with
    | .next u => u.time == sOwn.time + 1000
    | _ => false) = true := by decide +kernel
theorem test_queue : (match step { sOwn with pending := [.tapBypass, .tapIdcode] } with
    | .next u => decide (u.pending = [.tapIdcode]) && u.obs.tap == .bypass
    | _ => false) = true := by decide +kernel

/-- The hypotheses of the statements about steps. -/
theorem witness_StepRunsFront : { sRun with pending := [.orderStart 0, .tapIdcode] }.pending = .orderStart 0 :: [.tapIdcode] := rfl
theorem witness_IdleStep : sRun.pending = [] ∧ moduleUp sRun = true ∧ sRun.clk.sleep ≠ .entered ∧ (∀ c, (cam sRun c).buf = []) ∧
    sRun.march.window = none ∧ meshQuiet sRun = true ∧ (∀ b, (memSt sRun b).due = false) ∧ sRun.obs.due = none ∧
    (let s := { sRun with start := { sRun.start with mode := .failedStart } }
     moduleUp s = false) := ⟨rfl, by decide +kernel, by decide +kernel, fun _ => rfl, rfl, by decide +kernel, fun _ => rfl, rfl, by decide +kernel⟩
theorem witness_StepKeepsInv : Inv sRun ∧ (match step sRun with
    | .next _ => true
    | _ => false) = true := ⟨inv_run, by decide +kernel⟩

/-! ### Hypotheses of the statements are met: array instructions -/

def fa (modf : BitVec 4) (wm1 : BitVec 6) (db ab bb : BitVec 12) : FmtA := ⟨modf, wm1, false, false, false, false, db, ab, bb, 0⟩
def fj (ab : BitVec 12) (sa sb : BitVec 4) (tgt : BitVec 24) : FmtJ := ⟨false, ab, sa, sb, 0, tgt⟩

/-- An instruction that is stopped: a reserved bit is set. -/
def faBad : FmtA := { fa 6 63 128 64 0 with res := 1 }

/-- The state with the word `w` of format A to run, with function `fn` of class `c`. -/
abbrev sA (f : FmtA) (c fn : Nat) : State := prog sRun (wordA f c fn)

/-- LOGIC, shifts and exchanges run, and are stopped by a reserved bit. -/
theorem witness_LogicAndShifts : (∀ w, Inv (prog sRun w) ∧ runsOn (prog sRun w) 0 0 w ∧ handlerAt (prog sRun w) 0 0 40) ∧
    (∀ f ∈ [fa 6 63 128 64 0, faBad],
      let s := sA f 1 0
      Check.first [illegalIf (decide (f.res ≠ 0) || bsBad f), writeCheck s 0 ⟨f.di, f.db.toNat, width f⟩ (gw s 0),
        readCheck ⟨f.ai, f.ab.toNat, width f⟩ (gw s 0) 1, srcCheck (srcB s 0 f false (width f)) (gw s 0) 2,
        overlapCheck ⟨f.di, f.db.toNat, width f⟩ ⟨f.ai, f.ab.toNat, width f⟩ (srcB s 0 f false (width f)) (gw s 0)] =
      if f.res = 0 then none else some (0, 0)) ∧
    (∀ fn, fn < 8 → shiftChk (sA (fa 0 63 128 64 255) 4 fn) 0 (fa 0 63 128 64 255) 0 = none ∧ shiftChk (sA faBad 4 fn) 0 faBad 0 = some (0, 0)) ∧
    (sqr (sA faBad 1 0) 0).tl = false :=
  ⟨fun w => ⟨invW w, ready w, handler w 0 (by decide)⟩, by decide +kernel, by decide +kernel, rfl⟩

theorem witness_ContextResults : (∀ w, Inv (prog sRun w) ∧ runsOn (prog sRun w) 0 0 w) ∧
    ∀ fn ∈ [1, 2, 3, 6], bitChk (sA (fa 6 0 0 64 0) 1 fn) (fa 6 0 0 64 0) 0 = none :=
  ⟨fun w => ⟨invW w, ready w⟩, by decide +kernel⟩

theorem witness_IntegerResults : (∀ w, Inv (prog sRun w) ∧ runsOn (prog sRun w) 0 0 w ∧ handlerAt (prog sRun w) 0 0 40) ∧
    ∀ p ∈ [(0, IntFn.add), (1, .addc), (2, .sub), (3, .subb), (4, .mul), (5, .mulw), (6, .div), (7, .mod), (8, .neg), (9, .min), (10, .max),
      (12, .cmpeq), (13, .cmpne), (14, .cmplt), (15, .cmple)],
      intChk (sA (fa 8 31 128 64 0) 2 p.1) 0 p.2 (fa 8 31 128 64 0) 0 = none ∧ intChk (sA faBad 2 p.1) 0 p.2 faBad 0 = some (0, 0) :=
  ⟨fun w => ⟨invW w, ready w, handler w 0 (by decide)⟩, by decide +kernel⟩

theorem witness_IntegerFunctions : 1 ≤ 64 ∧ 64 ≤ 64 ∧ minVal true 64 ≤ value true 64 (2 ^ 64 - 1) + value true 64 1 ∧
    ¬(minVal true 64 ≤ value true 64 (2 ^ 63) + value true 64 (2 ^ 64 - 1)) ∧ value true 64 0 = 0 ∧
    value true 64 (2 ^ 63) = minVal true 64 ∧ value true 64 (2 ^ 64 - 1) = -1 := by decide +kernel

def fpFns : List (Nat × FpFn) := [(0, .fadd), (1, .fsub), (2, .fmul), (3, .fdiv), (4, .fma), (5, .fsqrt), (6, .fmin), (7, .fmax), (8, .fcmpeq),
  (9, .fcmplt), (10, .fcmple), (11, .fcvt), (12, .fcvti), (13, .fcvtf), (14, .fneg), (15, .fabs)]

theorem witness_FloatResults : (∀ w, Inv (prog sRun w) ∧ runsOn (prog sRun w) 0 0 w ∧ handlerAt (prog sRun w) 0 0 40) ∧
    (∀ p ∈ fpFns, fpChk (sA (fa 0 0 128 64 0) 3 p.1) 0 p.2 (fa 0 0 128 64 0) 0 = none ∧
      fpChk (sA { fa 0 0 128 64 0 with res := 1 } 3 p.1) 0 p.2 { fa 0 0 128 64 0 with res := 1 } 0 = some (0, 0) ∧
      trapModeOn (sA (fa 0 0 128 64 0) 3 p.1) 0 0 = false) ∧
    ∀ s g fn f b e, (fpAt s g fn f false b e).2 = false :=
  ⟨fun w => ⟨invW w, ready w, handler w 0 (by decide)⟩, by decide +kernel, by intro s g fn f b e; simp [fpAt, fpElem]⟩

/-- The trap context is held in TRAP mode and lane 0 of PE 0 holds a subnormal at plane 64. -/
def sAssist (fn : Nat) : State :=
  setPe { setCtx (prog sRun (wordA (fa 0 0 128 64 0) 3 fn)) 0 ⟨.held 0, 0, true, 0, 0⟩ with peMem := [(8, 1)] } 0 { PE.clear with k := true }

def assistFns : List (Nat × FpFn) := [(0, .fadd), (1, .fsub), (2, .fmul), (4, .fma), (5, .fsqrt), (11, .fcvt)]

theorem witness_FloatAssistTraps : ∀ p ∈ assistFns, Inv (sAssist p.1) ∧ runsOn (sAssist p.1) 0 0 (wordA (fa 0 0 128 64 0) 3 p.1) ∧
    (sqr (sAssist p.1) 0).tl = false ∧ handlerAt (sAssist p.1) 0 3 40 ∧ fpChk (sAssist p.1) 0 p.2 (fa 0 0 128 64 0) 0 = none ∧
    ∃ e ∈ (elemsOf (sAssist p.1) 0 0).filter (active (sAssist p.1) (gw (sAssist p.1) 0)),
      (fpAt (sAssist p.1) (gw (sAssist p.1) 0) p.2 (fa 0 0 128 64 0) (trapModeOn (sAssist p.1) 0 0) (fpB (sAssist p.1) p.2 (fa 0 0 128 64 0) 0) e).2 = true := by
  have a : ∀ p ∈ assistFns, fpChk (sAssist p.1) 0 p.2 (fa 0 0 128 64 0) 0 = none ∧
    (⟨0, 0, 0, 0⟩ ∈ (elemsOf (sAssist p.1) 0 0).filter (active (sAssist p.1) (gw (sAssist p.1) 0))) ∧
      (fpAt (sAssist p.1) (gw (sAssist p.1) 0) p.2 (fa 0 0 128 64 0) (trapModeOn (sAssist p.1) 0 0) (fpB (sAssist p.1) p.2 (fa 0 0 128 64 0) 0)
        ⟨0, 0, 0, 0⟩).2 = true := by decide +kernel
  intro p hp
  obtain ⟨a1, a2, a3⟩ := a p hp
  refine ⟨inv_of rfl ?_, runs_of ?_, rfl, handler_of ?_, a1, _, a2, a3⟩ <;> (revert p; decide +kernel)

theorem witness_ReductionResults : (∀ w, Inv (prog sRun w) ∧ runsOn (prog sRun w) 0 0 w) ∧
    redChk (sA (fa 0 0 15 64 0) 5 0) (fa 0 0 15 64 0) false false 0 = none ∧
    (∀ fn ∈ [1, 2], redChk (sA (fa 8 31 15 64 0) 5 fn) (fa 8 31 15 64 0) false true 0 = none) ∧
    redChk (sA (fa 0 15 15 64 0) 5 3) (fa 0 15 15 64 0) false true 0 = none ∧ isDual (sA (fa 0 15 15 64 0) 5 3) 0 = false :=
  ⟨fun w => ⟨invW w, ready w⟩, by decide +kernel⟩

theorem witness_PointersAndScalars : (∀ w, Inv (prog sRun w) ∧ runsOn (prog sRun w) 0 0 w ∧ handlerAt (prog sRun w) 0 0 40) ∧
    width (fa 11 11 0 64 0) ≤ 12 ∧ readCheck ⟨false, 64, 12⟩ (gw (sA (fa 11 11 0 64 0) 6 0) 0) 1 = none ∧
    (∀ f ∈ [fa 0 11 128 0 0, fa 0 10 128 0 0], Check.first [illegalIf (decide (width f < 12)), writeCheck (sA f 6 2) 0 ⟨false, 128, width f⟩
      (gw (sA f 6 2) 0)] = if f.wm1 = 11 then none else some (0, 0)) ∧
    (let w := wordS ⟨2, 0, 0, false, 0, 12⟩ 9
     runOrder (prog sRun w) 0 = some (order0 .running) ∧ areaUp (prog sRun w) 0 4 = true ∧ areaHit (prog sRun w) 0 4 = false) ∧
    (let w := wordS ⟨2, 0, 0, false, 0, 3⟩ 10
     runsOn (prog atTrap w) 0 0 w ∧ (sqr (prog atTrap w) 0).tl = true ∧ xmBadAt (prog atTrap w) (trapFrame (prog atTrap w) 0) 16 = false) := by
  refine ⟨fun w => ⟨invW w, ready w, handler w 0 (by decide)⟩, by decide, by decide +kernel, by decide +kernel, by decide +kernel, runs_of ?_, rfl, rfl⟩
  decide +kernel

theorem witness_BranchResults : (∀ w, Inv (prog sRun w) ∧ runsOn (prog sRun w) 0 0 w) ∧ brBad (fj 0 0 0 8191) false false false true = false ∧
    brBad (fj 64 0 0 8191) true false false true = false ∧ brBad (fj 0 1 2 8191) false true true true = false ∧
    brBad (fj 0 15 0 32) false true false true = false ∧ brBad (fj 0 0 0 0) false false false false = false ∧
    (∀ w, badTarget (prog sRun w) 0 8191 = false ∧ badTarget (prog sRun w) 0 32 = false ∧ badTarget (prog sRun w) 0 8192 = true ∧
      badTarget (prog sRun w) 0 31 = true) ∧
    (let s := modSqr (prog sRun (wordJ (fj 0 0 0 0) 9)) 0 fun x => { x with s := [(15, 32)] }
     runsOn s 0 0 (wordJ (fj 0 0 0 0) 9) ∧ badTarget s 0 ((sreg s 0 15).toNat % 2 ^ 24) = false) :=
  ⟨fun w => ⟨invW w, ready w⟩, by decide, by decide, by decide, by decide, by decide, fun w => ⟨rfl, rfl, rfl, rfl⟩, runs_of (by decide +kernel), by decide +kernel⟩

/-- `sRun` with the running order and SQ0 changed. -/
def running_ (f : Order → Order) (g : Sequencer → Sequencer) : State :=
  modSqr (modTen sRun 0 fun x => { x with orders := x.orders.map f }) 0 g

def inRegion : InBind :=
  { kind := .region, source := 0, mask := 0, offset := 0, len := 512, claimed := false, cam := none, samples := [], data := []
    complete := false, arm := none, inarmed := false, fault := .none, bands := 0, heldAt := [], landed := false, copyA := true, copyB := true }

/-- A wait of WAITEV for line 63, or of INWAIT for binding 0, with the line, the journal to replay and the binding as said. -/
def sAwait (w : DWord) (line : Bool) (replay : List Word) (landed : Bool) : State :=
  let s := running_ (fun o => { o with replay := replay, ins := [{ inRegion with arm := some ⟨0, .g1, false⟩, landed := landed }] }) id
  prog { s with fab := { s.fab with lineLevel := if line then [(63, true)] else [] } } w

def wWait (inwait : Bool) : DWord := if inwait then wordA (fa 0 0 15 15 0) 10 1 else wordA (fa 0 0 15 63 15) 9 2
def sHeldWait : State := running_ id fun x => { x with ws := some ⟨6, 63, true, 0, 5, false, false, some ⟨1, 5, false⟩⟩ }
def sMetWait : State := { sHeldWait with fab := { sHeldWait.fab with lineLevel := [(63, true)] } }

theorem witness_FlagBarrierAndWaits : (runsOn (prog sRun (wordA (fa 0 0 0 0 0) 9 1)) 0 0 (wordA (fa 0 0 0 0 0) 9 1) ∧
      ctlBad (fa 0 0 0 0 0) 1 1 1 1 = false ∧ trapWaits (drainFlags (prog sRun (wordA (fa 0 0 0 0 0) 9 1)) 0 0) 0 = false) ∧
    (∀ (c line landed : Bool), ∀ r ∈ [[], [5#32]], let s := sAwait (wWait c) line r landed
      runsOn s 0 0 (wWait c) ∧ (runOrder s 0).map Order.replay = some r ∧
      (runOrder s 0).map (fun o => (o.ins[0]?).map fun i => (i.arm.isSome, i.landed)) = some (some (true, landed)) ∧
      eventHeld s 0 63 = true ∧ SMap.get false s.fab.lineLevel 63 = line) ∧
    ctlBad (fa 0 0 15 63 15) 16 256 16 1 = false ∧ eventCond 63 = some (6, 63) ∧ ctlBad (fa 0 0 15 15 0) 16 16 8 1 = false ∧
    (∀ s ∈ [sHeldWait, sMetWait], (sqr s 0).bound = some 0 ∧ (sqr s 0).ws = some ⟨6, 63, true, 0, 5, false, false, some ⟨1, 5, false⟩⟩ ∧
      frozen s = false ∧ badTarget s 0 ((sqr s 0).pc + 1).toNat = false ∧ trapWaits s 0 = false ∧ (sqr s 0).service = .inService) ∧
    waitMet sMetWait 0 0 ⟨6, 63, true, 0, 5, false, false, some ⟨1, 5, false⟩⟩ = true := by
  refine ⟨⟨ready _, ?_⟩, fun c line landed r hr => ⟨runs_of ?_, ?_⟩, ?_⟩
  · decide +kernel
  · revert c line landed r; decide +kernel
  · revert c line landed r; decide +kernel
  · decide +kernel

/-- FTEN with a large order that holds no context, or context 0. -/
def sLarge (w : DWord) (held : Bool) : State :=
  let s := running_ (fun o => { o with large := true }) id
  prog (if held then setCtx s 0 ⟨.held 0, 3, false, 0, 0⟩ else s) w

/-- The trap's frame resumes at word 40, or lies in the scratch of an erased memory. -/
def sReturn : State := prog (xmWrite atTrap (trapFrame atTrap 0 + 12) [40, 0, 0, 0]) (wordA (fa 0 0 0 0 0) 9 8)

theorem witness_TrapsOfOrders : (∀ w, Inv (prog sRun w) ∧ runsOn (prog sRun w) 0 0 w ∧ (∀ c, c < 25 → handlerAt (prog sRun w) 0 c 40)) ∧
    ctlBad (fa 0 0 0 8 0) 1 16 1 1 = false ∧ (∀ w, (sqr (prog sRun w) 0).tl = false) ∧
    (Inv sReturn ∧ runsOn sReturn 0 0 (wordA (fa 0 0 0 0 0) 9 8) ∧ ctlBad (fa 0 0 0 0 0) 1 1 1 1 = false ∧ (sqr sReturn 0).tl = true ∧
      trapWaits sReturn 0 = false ∧ xmBadAt sReturn (trapFrame sReturn 0) 0x7C = false ∧
      badTarget sReturn 0 (leAt (xmRead sReturn (trapFrame sReturn 0) 0x7C) 12 4 % 2 ^ 24) = false) ∧
    (∀ h on : Bool, let n := if on then 63#12 else 0
      let w := wordA (fa 0 0 0 n 0) 9 7
      runsOn (sLarge w h) 0 0 w ∧ (runOrder (sLarge w h) 0).map Order.large = some true ∧ ctlBad (fa 0 0 0 n 0) 1 64 1 1 = false ∧
      (heldCtx (sLarge w h) 0 = if h then some 0 else none) ∧ (h = false → freeCtx (sLarge w h) = some 0) ∧ pendingCtx (sLarge w h) 0 = none ∧
      (∀ v, (runOrder (sLarge w h) v).map Order.reexec ≠ some true)) ∧
    aisWord (.kall 0 (fa 0 0 0 0 0)) = some (0, wordA (fa 0 0 0 0 0) 1 4) ∧ reservedWord 0 = true ∧
    reservedWord (wordA (fa 0 0 0 0 0) 1 5) = false ∧ wordA (fa 0 0 0 0 0) 1 5 ≠ wordA (fa 0 0 0 0 0) 1 4 := by
  refine ⟨fun w => ⟨invW w, ready w, fun c hc => handler w c hc⟩, by decide, fun _ => rfl, ⟨inv_of rfl ?_, runs_of ?_, ?_⟩,
    fun h on => ⟨runs_of ?_, ?_⟩, ?_⟩
  · decide +kernel
  · decide +kernel
  · decide +kernel
  · revert h on; decide +kernel
  · revert h on; decide +kernel
  · decide +kernel

theorem witness_GangBermFlags : (∀ w, Inv (prog sRun w) ∧ runsOn (prog sRun w) 0 0 w ∧ (sqr (prog sRun w) 0).gw = .g1) ∧
    ctlBad (fa 2 0 0 0 0) 1 1 1 3 = false ∧ ctlBad (fa 0 0 0 0 0) 1 1 1 3 = false ∧
    ctlBad (fa 0 0 0 0 0) 1 1 1 1 = false ∧ ctlBad (fa 0 0 0 255 0) 1 256 1 1 = false :=
  ⟨fun w => ⟨invW w, ready w, rfl⟩, by decide⟩

theorem witness_CheckpointAndEnd : (∀ w, Inv (prog sRun w) ∧ runsOn (prog sRun w) 0 0 w ∧ runOrder (prog sRun w) 0 = some (order0 .running) ∧
      isDual (prog sRun w) 0 = false ∧ trapWaits (drainFlags (prog sRun w) 0 0) 0 = false ∧ (ten (prog sRun w) 0).own = some own0 ∧
      (sqr (prog sRun w) 0).tl = false) ∧
    ctlBad (fa 0 0 2288 16 0) 4096 4096 1 1 = false ∧ liveOk (prog sRun (wordA (fa 0 0 2288 16 0) 9 0)) 0 2288 16 = true ∧
    16 ≤ own0.maxLive ∧ ctlBad (fa 0 0 0 0 0) 1 1 1 1 = false :=
  ⟨fun w => ⟨invW w, ready w, rfl, rfl, rfl, rfl, rfl⟩, by decide +kernel⟩

def sOut (k : OutKind) (w : DWord) : State := prog (running_ (fun o => { o with outs := [⟨k, 0, 0, 512⟩] }) id) w

/-- INARM of a region, and of a claimed camera frame none of whose lines is in. -/
def fInarm (c : Bool) : FmtA := if c then fa 0 0 0 0 1 else fa 0 0 0 0 0
def camCfg : CamCfg := ⟨0, 0x0001000100000000, 0, 0, 0⟩
def sIn (c : Bool) : State := prog (running_ (fun o => { o with
  ins := [inRegion, { inRegion with kind := .camera, claimed := true, cam := some camCfg }] }) id) (wordA (fInarm c) 10 0)

theorem witness_BindingsOfOrders : (∀ p ∈ [(OutKind.region, wordA (fa 0 0 0 64 0) 10 2), (.mailbox, wordA (fa 0 0 508 15 0) 10 3),
        (.mailbox, wordA (fa 0 0 0 15 0) 10 4)], let s := sOut p.1 p.2
      Inv s ∧ runsOn s 0 0 p.2 ∧ (runOrder s 0).map Order.outs = some [⟨p.1, 0, 0, 512⟩] ∧ readCheck ⟨false, 64, 1⟩ (gw s 0) 1 = none ∧
      512 * (progTiles s 0).length * Fld.planes ⟨false, 64, 1⟩ (gw s 0) ≤ 512) ∧
    ctlBad (fa 0 0 508 15 0) 4096 16 8 1 = false ∧ ctlBad (fa 0 0 0 15 0) 1 16 8 1 = false ∧
    ∀ c : Bool, let s := sIn c
      let b := (fInarm c).bb.toNat
      let i := if c then { inRegion with kind := .camera, claimed := true, cam := some camCfg } else inRegion
      runsOn s 0 0 (wordA (fInarm c) 10 0) ∧ ((runOrder s 0).bind fun o => o.ins[b]?) = some i ∧ spFieldsBad s 0 (fInarm c) b = false ∧
      inarmFault s 0 (fInarm c) b = false ∧ s.spBad = [] ∧ (ten s 0).orders.length = 1 ∧ inputGone i = false ∧ i.copyA = true := by
  refine ⟨fun p hp => ⟨inv_of rfl ?_, runs_of ?_, ?_⟩, ?_, ?_, fun c => ⟨runs_of ?_, ?_⟩⟩
  · revert p; decide +kernel
  · revert p; decide +kernel
  · revert p; decide +kernel
  · decide
  · decide
  · revert c; decide +kernel
  · revert c; decide +kernel

/-! ### Microwords -/

/-- Any microword can be the next one. -/
theorem issuing (w : Word) : Inv (micro sRun w) ∧ issues (micro sRun w) 0 0 w :=
  ⟨Keeps.done (Keeps.frame (Keeps.refl sRun) rfl rfl rfl rfl) (inv_of rfl (by decide +kernel)), rfl, rfl, rfl⟩

def sG16 : State := micro (running_ id fun x => { x with gw := .g16 }) (wordNews 1 true 0)

theorem witness_PlanesAndNews : (∀ w, Inv (micro sRun w) ∧ issues (micro sRun w) 0 0 w) ∧
    planeBad ⟨6, true, 6, 0, 1, 2, true, true, true, 2⟩ false = false ∧ planeBad ⟨6, true, 0, 7, 14, 14, false, false, false, 1⟩ true = false ∧
    (Inv sG16 ∧ issues sG16 0 0 (wordNews 1 true 0) ∧ (sqr sG16 0).gw.width ≠ 1) ∧
    (let s := micro { sRun with tenants := [(0, { ten sRun 0 with own := some { own0 with tiles := 0x5 } })]
                                tiles := [(0, { Tile.initial with polder := .awake 7 }), (2, { Tile.initial with polder := .awake 7 }),
                                  (16, { Tile.initial with service := .spare })] } (wordNews 0 false 0)
     issues s 0 0 (wordNews 0 false 0) ∧ 0 ∈ ownTiles s 0 ∧ 2 ∈ ownTiles s 0 ∧ physOf s 2 = some 2 ∧ (joined s 0 .south 2).isSome = true ∧
       ∀ m ∈ ownTiles s 0, (tile s ((physOf s m).getD 2).val).linkErr = false) := by
  refine ⟨issuing, by decide, by decide, ⟨inv_of rfl ?_, ⟨rfl, rfl, rfl⟩, ?_⟩, ⟨?_, ?_, ?_⟩, ?_⟩ <;> decide +kernel

theorem witness_ScalarMicrowords : (∀ w, issues (micro sRun w) 0 0 w) ∧ (∀ w, (sqr (micro sRun w) 0).mem = none ∧ (sqr (micro sRun w) 0).scan = none ∧
    mayIssue (ni (micro sRun w) (seqNi 0).val) = true) := ⟨fun w => (issuing w).2, fun _ => ⟨rfl, rfl, rfl⟩⟩

def sMicro (w : Wait) (m : Option MemAccess) : State := running_ id fun x => { x with ws := some w, mem := m }
def memWait : Wait := ⟨2, 0, false, 4096, 0, false, false, none⟩

theorem witness_MicroWaits : (∀ w, issues (micro sRun w) 0 0 w ∧ (sqr (micro sRun w) 0).loop = none ∧ (sqr (micro sRun w) 0).gors = [] ∧
      sreg (micro sRun w) 0 15 = 0 ∧ (sqr (micro sRun w) 0).mem = none) ∧
    (∀ m ∈ [(⟨true, 2, 0, 0, 4095, true⟩ : MemAccess), ⟨false, 2, 0, 9, 0, true⟩, ⟨false, 2, 0, 9, 0, false⟩], let s := sMicro memWait (some m)
      (sqr s 0).bound = some 0 ∧ (sqr s 0).ws = some memWait ∧ (sqr s 0).mem = some m ∧ (sqr s 0).service = .inService ∧ frozen s = false ∧
        (runOrder s 0).isSome = true ∧ (sqr s 0).tl = false ∧ handlerAt s 0 4 40) := by
  exact ⟨fun w => ⟨(issuing w).2, rfl, rfl, rfl, rfl⟩, fun m _ => ⟨rfl, rfl, rfl, rfl, rfl, rfl, rfl, handler_same (by decide) rfl rfl rfl rfl fun _ _ => rfl⟩⟩

def sStack (n : Nat) (w : Word) : State := micro (running_ id fun x => { x with rs := List.replicate n 9 }) w
def sLoop (w : Word) : State := micro (running_ id fun x => { x with loop := some ⟨1, 8, 7, 0, 0, 1, false⟩ }) w
/-- The µPC stands at the dispatch entry 511, which a patch has given the word `w`. -/
def sEntry (w : Word) : State := running_ id fun x => { x with upc := 511, wcs := [(511, w)] }

theorem witness_MicroBranchesAndLoops : (∀ w, Inv (micro sRun w) ∧ issues (micro sRun w) 0 0 w ∧ runOrder (micro sRun w) 0 = some (order0 .running) ∧
      (sqr (micro sRun w) 0).loop = none ∧ (sqr (micro sRun w) 0).rs = [] ∧ 512 ≤ (sqr (micro sRun w) 0).upc.toNat ∧
      mayIssue (ni (micro sRun w) (seqNi 0).val) = true) ∧
    (∀ w, issues (sEntry w) 0 0 w ∧ (sqr (sEntry w) 0).upc.toNat < 512) ∧
    (∀ n ∈ [1, 3, 4], ∀ w, issues (sStack n w) 0 0 w ∧ (sqr (sStack n w) 0).rs = List.replicate n 9) ∧
    (∀ w, issues (sLoop w) 0 0 w ∧ (sqr (sLoop w) 0).loop ≠ none) ∧
    (let w := wordScal ⟨0, 0, 0, 0⟩ 13
     let s := micro (sMicro memWait (some ⟨true, 2, 0, 0, 4095, true⟩)) w
     issues (modSqr s 0 fun x => { x with ws := none }) 0 0 w ∧ (sqr s 0).mem ≠ none) ∧
    (let x := { Sequencer.initial with lc := [(0, ⟨2, 2⟩), (1, ⟨3, 3⟩)] }
     (lcVal x 0).val.toNat = 2 ∧ (lcVal x 1).reload.toNat = 3 ∧ 7 ≤ 8) := by
  refine ⟨fun w => ⟨(issuing w).1, (issuing w).2, rfl, rfl, rfl, ?_, rfl⟩, fun w => ⟨⟨rfl, rfl, rfl⟩, ?_⟩,
    fun n hn w => ?_, fun w => ⟨⟨rfl, rfl, rfl⟩, ?_⟩, ?_⟩
  · exact show 512 ≤ (12288#14).toNat by decide
  · exact show (511#14).toNat < 512 by decide
  · simp only [List.mem_cons, List.not_mem_nil, or_false] at hn
    obtain rfl | rfl | rfl := hn <;> exact ⟨⟨rfl, rfl, rfl⟩, rfl⟩
  · intro h; cases h
  · exact ⟨⟨⟨rfl, rfl, rfl⟩, by decide +kernel⟩, by decide +kernel⟩

def sGor (vecDone : Bool) (w : Word) : State := micro (running_ id fun x => { x with
  gors := [⟨31, true, 1, true, vecDone⟩], z := true, gv := 0x80000000, flagOrs := [⟨1, 32, true⟩] }) w

theorem witness_GorsChecksAndFlags : (∀ w, Inv (micro sRun w) ∧ issues (micro sRun w) 0 0 w ∧ (sqr (micro sRun w) 0).tl = false ∧
      trapWaits (micro sRun w) 0 = false ∧ (sqr (micro sRun w) 0).z = false) ∧
    (∀ b : Bool, ∀ w, issues (sGor b w) 0 0 w ∧ (sqr (sGor b w) 0).gors = [⟨31, true, 1, true, b⟩] ∧ (sqr (sGor b w) 0).z = true ∧
      (sqr (sGor b w) 0).gv.getLsbD 31 = true ∧ handlerAt (sGor b w) 0 7 40 ∧ seqOf (sGor b w) 0 = some 0 ∧
      (sqr (sGor b w) 0).flagOrs = [⟨1, 32, true⟩] ∧ (runOrder (sGor b w) 0).isSome = true ∧ heldCtx (sGor b w) 0 = none ∧
      claimFault (sGor b w) 0 = none ∧ (sGor b w).obs.due = none ∧ (sqr (sGor b w) 0).bound = some 0) ∧
    (let s := setCtx (sGor true 0) 0 ⟨.held 0, 3, false, 0, 0⟩
     heldCtx s 0 = some 0 ∧ (sqr s 0).flagOrs = [⟨1, 32, true⟩] ∧ trapWaits s 0 = false) ∧
    (let s := modSqr (modTen sOwn 0 id) 0 fun x => { x with gors := [⟨31, true, 1, true, true⟩] }
     let u := { s with obs := { s.obs with tideFaults := 2 } }
     runOrder u 0 = none ∧ u.obs.due = none ∧ u.obs.tideFaults.getLsbD 1 = true ∧ { u with start := { u.start with mode := .running } }.start.mode = .running ∧
       u.obs.tideSeen = false ∧ u.clk.sleep ≠ .entered ∧ (sqr u 0).bound = some 0) := by
  refine ⟨fun w => ⟨(issuing w).1, (issuing w).2, rfl, rfl, rfl⟩, fun b w => ⟨⟨rfl, rfl, rfl⟩, rfl, rfl, ?_, handler_same (by decide) rfl rfl rfl rfl fun _ _ => rfl, rfl, rfl, rfl, rfl, rfl, rfl, rfl⟩, ?_⟩
  · exact show (0x80000000#32).getLsbD 31 = true by decide
  · decide +kernel

/-! ### Hypotheses of the statements are met: orders, ownership, tiles -/

/-- The command at a session is admitted: a test of `admitted` that evaluates. -/
def admits (s : State) (k : SesId) (i j n : Nat) : Bool :=
  sesUp s k && decide (access s k i j true = 0) && decide (initCheck s k i j = 0) && (match findRow s k i j with
    | some r => decide (lengthCheck r n = 0)
    | none => false) && decide (s.obs.due = none) && decide (s.clk.sleep = .none)

theorem admits_admitted {s : State} {k : SesId} {i j n : Nat} (h : admits s k i j n = true) : admitted s k i j n := admitted_of h

def zeros (n : Nat) : Bytes := List.replicate n 0
/-- A descriptor without bindings and arguments, host order number 7, entry word `e`. -/
def desc (e : Nat) : Bytes := [0, 0, 0, 1, 7, 0, 0, 0] ++ leBytes 4 e ++ [0, 0, 0, 0, 0xFF, 0xFF, 0, 0] ++ zeros 12
def sKnown : State := modTen sOwn 0 fun x => { x with hons := [⟨7, 1, 0⟩] }
def oneRecord : Record := { seq := 0xFFFFFFFF, hon := 7, outcome := 1, cause := 0, flags := 0, runUs := 0, stamp := 0, last := 0, slot := 255 }

theorem witness_OrdersAcceptedAndKept : admitted sOwn 0 0x2F00 1 32 ∧ (desc 32).length = 32 ∧ (ten sOwn 0).hons = [] ∧
    rejectReason sOwn 0 (desc 32) = 0 ∧ rejectReason sOwn 0 (desc 8191) = 0 ∧ rejectReason sOwn 0 (desc 31) = 4 ∧
    rejectReason sOwn 0 (desc 8192) = 4 ∧ admitted sKnown 0 0x2F00 1 32 ∧ (ten sKnown 0).hons = [⟨BitVec.ofNat 32 (leAt (desc 32) 4 4), 1, 0⟩] ∧
    (let s := { modTen sOwn 0 fun x => { x with records := [oneRecord] } with time := 60000000000 }
     (ten s 0).records = [oneRecord] ∧ oneRecord.stamp.toNat + 60000000000 ≤ s.time.toNat) ∧ oneRecord.outcome ≠ 3 ∧
    oneRecord.flags.getLsbD 7 = false ∧ (ten sOwn 0).records = [] ∧ admitted sOwn 0 (0x2F03 + 16 * 0) 1 4 := by
  refine ⟨admits_admitted (by decide +kernel), ?_, ?_, ?_, ?_, ?_, ?_, admits_admitted (by decide +kernel), ?_, ?_, ?_, ?_, ?_,
    admits_admitted (by decide +kernel)⟩ <;> decide +kernel

def sReady : State := modTen sOwn 0 fun x => { x with orders := [order0 .accepted] }

/-- A pre-armed binding whose geometry does not fit has its fault to be raised. -/
def sDue : State := modTen { sOwn with sp := sRun.sp } 0 fun x => { x with orders := [{ order0 .accepted with ins := [{ inRegion with fault := .due }] }] }

theorem witness_OrderStarts : (Inv sReady ∧ readyOrder sReady 0 = some (order0 .accepted) ∧ seqOf sReady 0 = some 0 ∧ tilesAwake sReady 0 = true ∧
      pendingCtx sReady 0 = none ∧ (order0 .accepted).startInput = 0xFFFF ∧ (order0 .accepted).ins = []) ∧
    (Inv sDue ∧ readyOrder sDue 0 = some { order0 .accepted with ins := [{ inRegion with fault := .due }] } ∧ seqOf sDue 0 = some 0 ∧
      tilesAwake sDue 0 = true ∧ pendingCtx sDue 0 = none ∧ handlerAt sDue 0 7 40 ∧ (ten sDue 0).own = some own0 ∧
      ∀ b ∈ [4, 5], roleExtent own0 b = none) :=
  ⟨⟨inv_of rfl (by decide +kernel), by decide +kernel⟩, inv_of rfl (by decide +kernel), by decide +kernel, by decide +kernel, by decide +kernel,
    by decide +kernel, handler_same (by decide) rfl rfl rfl rfl fun _ _ => rfl, rfl, by decide⟩

theorem witness_AbortAndRelease : admitted sRun 0 0x2F01 1 1 ∧ admitted sRun 0 0x2F01 3 1 ∧ (2 : Byte) ≠ 1 ∧ (0 : Byte) ≠ 1 :=
  ⟨admits_admitted (by decide +kernel), admits_admitted (by decide +kernel), by decide⟩

/-- Where ML-DSA verifies (log 7) and no counter is above `v`, a signature is good. -/
theorem sig_ok {s : State} {k : Bytes} {c : String} {d g : Bytes} {n : Nat} {v : Word} (h : Config.mlDsaVerify k c d g = true)
    (hc : ¬(v.toNat < (counter s n).toNat ∨ v.toNat < (SMap.get 0 s.ident.pending n).toNat)) : checkSig s (some k) c d g n v = none := by
  simp only [checkSig, h, Bool.not_true, Bool.false_eq_true, if_false, if_neg hc]

/-- An ownership record of T0 with counter 2 and tile 0; `m` is its mode byte. -/
def ownBytes (m : Byte) : Bytes := [0, 0, 0, 1, 2, 0, 0, 0, 1, 0, m] ++ zeros 181 ++ zeros 3309
def withKey (s : State) : State := { s with ident := { s.ident with ik := some [] } }

theorem witness_OwnershipTaken (h : Config.mlDsaVerify [] "AZ6516/OWN" ((ownBytes 0).take 192) ((ownBytes 0).drop 192) = true) :
    admitted (withKey sOwn) 0 0x2F04 1 3501 ∧ (ownBytes 0).length = 3501 ∧ ownFormat (ownBytes 0) 0 = true ∧
      ownReserved (ownBytes 0) = true ∧ ownValid (withKey sOwn) 0 (parseOwn ((ownBytes 0).take 192)) = true ∧
      checkSig (withKey sOwn) (withKey sOwn).ident.ik "AZ6516/OWN" ((ownBytes 0).take 192) ((ownBytes 0).drop 192) (ctrOwn 0)
        (parseOwn ((ownBytes 0).take 192)).counter = none := by
  refine ⟨admits_admitted (by decide +kernel), ?_, ?_, ?_, ?_, sig_ok h ?_⟩ <;> decide +kernel

/-- CHECKED-DUAL with one tile is refused. -/
theorem witness_OwnershipTaken_invalid (h : Config.mlDsaVerify [] "AZ6516/OWN" ((ownBytes 1).take 192) ((ownBytes 1).drop 192) = true) :
    (ownBytes 1).length = 3501 ∧ ownFormat (ownBytes 1) 0 = true ∧ ownReserved (ownBytes 1) = true ∧
      ownValid (withKey sOwn) 0 (parseOwn ((ownBytes 1).take 192)) = false ∧
      checkSig (withKey sOwn) (withKey sOwn).ident.ik "AZ6516/OWN" ((ownBytes 1).take 192) ((ownBytes 1).drop 192) (ctrOwn 0)
        (parseOwn ((ownBytes 1).take 192)).counter = none := by
  refine ⟨?_, ?_, ?_, ?_, sig_ok h ?_⟩ <;> decide +kernel

def sFirst : State := modTen State.reset 0 fun x => { x with ownPending := some { own0 with seq := 4 } }

theorem witness_OwnershipTaken_apply : (ten sFirst 0).ownPending = some { own0 with seq := 4 } ∧ ownReady sFirst 0 { own0 with seq := 4 } = true ∧
    (ten sFirst 0).own = none ∧ (sqr sFirst 4).bound = none ∧ (sqr sFirst 4).service = .spare ∧
    (∀ q : Fin 5, (sqr sFirst q.val).bound ≠ some 0) ∧
    ownReady (modTen sRun 0 fun x => { x with ownPending := some own0 }) 0 own0 = false := by decide +kernel

def sTile (p : Nat) (v : TileService) (n : Nat) : State := modTile sRun p fun x => { x with service := v, passes := n }

theorem witness_TilesReplacedAndMarched : Inv sRun ∧ (tile sRun 0).service = .inService ∧ lposOf sRun 0 = some 0 ∧ sRun.obs.due = none ∧
    spareTile sRun = some 16 ∧ tileOwner sRun 0 = some 0 ∧ (runOrder sRun 0).isSome = true ∧ Inv (sTile 16 .failed 0) ∧
    spareTile (sTile 16 .failed 0) = none ∧ lposOf (sTile 16 .failed 0) 0 = some 0 ∧
    (tile (sTile 16 .retest 0) 16).service = .retest ∧ (tile (sTile 16 .retest 0) 16).passes = 0 ∧
    (tile (sTile 16 .retest 1) 16).service = .retest ∧ (tile (sTile 16 .retest 1) 16).passes ≠ 0 ∧ (tile sRun 16).service = .spare := by
  refine ⟨inv_run, ?_, ?_, ?_, ?_, ?_, ?_, inv_of rfl ?_, ?_, ?_, ?_, ?_, ?_, ?_, ?_⟩ <;> decide +kernel

def sPolder (p : Nat) (x : Polder) : State := modTile sOwn p fun t => { t with polder := x }

theorem witness_PolderRamps : sOwn.sup.vcore = .normal ∧ { sOwn with sup := { sOwn.sup with vcore := .warnHold } }.sup.vcore ≠ .normal ∧
    (∀ p ∈ [3, 16], (tile (sPolder p (.up 6 false true)) p).polder = .up 6 false true ∧ 6 < endRatio (sPolder p (.up 6 false true)) ∧
      ¬7 < endRatio (sPolder p (.up 7 false true)) ∧ endRatio (sPolder p (.up 7 false true)) = 7 ∧
      (tile (sPolder p (.down 0)) p).polder = .down 0 ∧ (tile (sPolder p (.down 1)) p).polder = .down 1) ∧
    (let s := { sPolder 3 (.up 6 false true) with clk := { sOwn.clk with ceiling := 1 } }
     ¬6 < endRatio s ∧ endRatio s ≠ 7 ∧ (tile s 3).polder = .up 6 false true) ∧
    ownerOf (sPolder 3 (.up 7 false true)) 3 = none ∧ ownerOf (sPolder 0 (.up 7 false true)) 0 = some 0 ∧
    holdOver (sPolder 0 (.up 7 false true)) 0 = true ∧ (ten (sPolder 0 (.up 7 false true)) 0).orders = [] ∧
    holdOver (modTen (sPolder 0 (.up 7 false true)) 0 fun x => { x with holdRunning := true }) 0 = false ∧
    (ni (sPolder 3 (.down 0)) (tileNi 3).val).st.isClosing = false ∧
    (ni { sPolder 3 (.down 0) with noc := { sOwn.noc with nis := [((tileNi 3).val, { Ni.initial with st := .closing .dark })] } } (tileNi 3).val).st.isClosing =
      true ∧
    (ni (sPolder 3 (.down 0)) (tileNi 3).val).st ≠ .unused ∧ (tile (sPolder 3 (.awake 6)) 3).polder = .awake 6 ∧ 6 ≠ endRatio (sPolder 3 (.awake 6)) ∧
    (ten (modTen sOwn 0 fun x => { x with holdRunning := true }) 0).holdRunning = true ∧ runOrder sOwn 0 = none ∧ readyOrder sOwn 0 = none ∧
    (tile sOwn 0).polder = .awake 7 ∧ (0 : TileId) ∈ physTiles sOwn (ownTiles sOwn 0) := by
  decide +kernel

theorem witness_MachineChecks : (runOrder sRun 0 = some (order0 .running) ∧ ownerOf sRun 0 = some 0 ∧ (tile sRun 0).errorOpen = false ∧
      (sqr sRun 0).bound = some 0 ∧ (sqr sRun 0).regError = false ∧ sRun.spBad = [] ∧ (order0 .running).ins = [] ∧ (ctx sRun 2).st = .free ∧
      (ctx (sLarge 0 true) 0).st = .held 0 ∧ (runOrder (sLarge 0 true) 0).isSome = true) ∧
    (let s := modTile sRun 0 fun x => { x with errorOpen := true }
     (tile s 0).errorOpen = true ∧ (tile s 0).service = .inService ∧ (runOrder s 0).isSome = true ∧ ownerOf s 0 = some 0) ∧
    (let s := modSqr sRun 0 fun x => { x with regError := true }
     (sqr s 0).regError = true ∧ s.mc.patchState ≠ 2 ∧ spareSeq s = some 1 ∧ (sqr s 0).bound = some 0) ∧
    (let s := modSqr sRun 0 fun x => { x with wcsBad := [(16383, .upset)] }
     SMap.wf .none (sqr s 0).wcsBad = true ∧ (memSt s 3).service = .inService ∧ ∀ i, SMap.get .none (sqr s 0).wcsBad i ≠ .stuck) ∧
    (let s := modSqr sRun 0 fun x => { x with wcsBad := [(0, .stuck)] }
     (sqr s 0).wcsBad = [(0, .stuck)] ∧ s.spBad = [] ∧ (sqr s 0).bound = some 0 ∧ s.mc.patchState ≠ 2 ∧ spareSeq s = some 1) := by
  refine ⟨by decide +kernel, by decide +kernel, by decide +kernel, ⟨by decide +kernel, by decide +kernel, fun i => ?_⟩, by decide +kernel⟩
  show (if i = 16383 then WordFault.upset else .none) ≠ .stuck
  split <;> decide

/-- A bundle of one record for a working word, on the digest that the module holds. -/
def bundle : Bytes := [0, 0, 0, 1, 1, 0, 0, 0, 0, 0, 0, 0] ++ zeros 24 ++ [1, 0, 0, 0] ++ zeros 24 ++ [0, 4, 0, 0, 0, 0, 0, 0] ++ zeros 3309
def sPatch : State := { sOwn with mc := { sOwn.mc with digest := zeros 8 } }

/-- The image's digest is the one that the bundle states, where SHAKE256 gives it (log 7). -/
theorem witness_PatchRotation (h : Config.mlDsaVerify Config.vendorKey "AZ6516/MC" (bundle.take 72) (bundle.drop 72) = true)
    (hd : (Config.shake256 (imageBytes (patchedWords sPatch bundle 1))).take 8 = zeros 8) :
    admitted sPatch 0 0x2900 3 bundle.length ∧ leAt bundle 0x24 4 = 1 ∧ bundle.length = 3373 + 8 * 1 ∧ leAt bundle 3 1 = 1 ∧ sPatch.mc.patchState ≠ 2 ∧
      patchReserved bundle 1 = true ∧ patchContent sPatch bundle 1 = none ∧ spareSeq sPatch = some 1 ∧
      checkSig sPatch (some Config.vendorKey) "AZ6516/MC" (bundle.take 72) (bundle.drop 72) ctrMc 1 = none ∧
      (sqr sPatch 0).bound.isSome = true ∧ imageSound sPatch 1 = true ∧
      imageSound (modSqr sPatch 1 fun x => { x with wcsBad := [(511, .stuck)] }) 1 = false ∧
      (∀ q, q < 5 → (sqr { sPatch with seqs := [] } q).bound = none) := by
  refine ⟨admits_admitted (by decide +kernel), ?_, ?_, ?_, ?_, ?_, ?_, ?_, sig_ok h ?_, ?_, ?_, ?_, ?_⟩
  rotate_left 5
  · rw [patchContent, if_neg (by decide +kernel), if_neg (by decide +kernel), if_neg, if_neg (by decide +kernel)]
    rw [hd]
    decide +kernel
  all_goals decide +kernel

def sRotate (c : Option SeqId) : State := { sOwn with mc := { sOwn.mc with patchState := 2, patch := some ⟨2, zeros 8, [], [], 1, [4], c⟩ } }
/-- The first waiting sequencer is to move to the spare; later it has loaded the image, and its tenant is to move back. -/
def sBack (stuck : Bool) : State := { sRotate (some 0) with
  seqs := [(0, { Sequencer.initial with service := .loading, wcsBad := if stuck then [(1, .stuck)] else [] }),
    (1, { Sequencer.initial with service := .inService, bound := some 0, pc := 32 })] }

theorem witness_PatchRotation_migration : ((sRotate none).mc.patch = some ⟨2, zeros 8, [], [], 1, [4], none⟩ ∧ (sRotate none).mc.patchState = 2 ∧
      (patchWaits (sRotate none)).head? = some 0 ∧ spareSeq (sRotate none) = some 1 ∧ (sqr (sRotate none) 0).bound = some 0 ∧
      frozen (sRotate none) = false) ∧
    ∀ b : Bool, (sBack b).mc.patch = some ⟨2, zeros 8, [], [], 1, [4], some 0⟩ ∧ (sBack b).mc.patchState = 2 ∧
      (sqr (sBack b) 0).service = .loading ∧ imageSound (sBack b) 0 = !b ∧ (sqr (sBack b) 1).bound = some 0 ∧ frozen (sBack b) = false := by
  decide +kernel

/-! ### Hypotheses of the statements are met: NoC, march engine, cameras -/

/-- The interface of tile 0 is open. -/
def sNoc : State := modNi sOwn 2 fun x => { x with st := .opened }
/-- A READ or WRITE between two interfaces, with its port bits. -/
def pkt (src dst : Nat) (write dev : Bool) (vc : BitVec 2) (addr : Word) (c len : Nat) (data : Bytes) : Pkt :=
  { hver := 2, vc := vc, ty := if write then 2 else 1, len := BitVec.ofNat 6 len, dx := BitVec.ofNat 3 (dst / 2 % 6), dy := BitVec.ofNat 2 (dst / 12),
    dp := decide (dst % 2 = 1), sx := BitVec.ofNat 3 (src / 2 % 6), sy := BitVec.ofNat 2 (src / 12), sp := decide (src % 2 = 1)
    ten := 0, dev := dev, dor := false, tid := 0, sn := 0, res75 := false, nbytes := BitVec.ofNat 11 c, status := 0, res47 := 0
    addr := addr, resHi := 0, data := data }

def arrivesB (s : State) (m n : NiId) (p : Pkt) : Bool :=
  let x := ni s m.val
  nocUp s && decide (pktSource p = some m) && decide (pktDest p = some n) && niLive s m && niLive s n && decide (x.st = .opened) &&
    (requestVcs m).contains p.vc && (x.out ++ x.held).all (fun o => decide (o.tid ≠ p.tid)) && decide (x.out.length + x.held.length < 64) &&
    !holdsFor s m n p.vc && meshQuiet s && decide (SMap.get 0 s.noc.sn (orderKey m n p.vc) = wanted s (orderKey m n p.vc)) &&
    (ni s n.val).early.isEmpty && decide (s.obs.due = none)

theorem arrives_of {s : State} {m n : NiId} {p : Pkt} (h : arrivesB s m n p = true) : arrives s m n p := by
  simp only [arrivesB, Bool.and_eq_true, decide_eq_true_eq, Bool.not_eq_true', List.all_eq_true, List.isEmpty_iff] at h
  obtain ⟨⟨⟨⟨⟨⟨⟨⟨⟨⟨⟨⟨⟨a, b⟩, c⟩, d⟩, e⟩, f⟩, g⟩, i⟩, j⟩, k⟩, l⟩, m⟩, n⟩, o⟩ := h
  exact ⟨a, b, c, d, e, f, g, i, j, k, ⟨l, m, by rw [n]; simp⟩, o⟩

/-- A request that passes every check. -/
def good (s : State) (m n : NiId) (p : Pkt) (w : Bool) : Bool :=
  arrivesB s m n p && !pktBad p && decide ((ni s n.val).st = .opened) && !meetsTest s n p && addrOk n p w &&
    decide (p.ty = if w then 2 else 1) && tenAllowed s n m p w

def readTile : Pkt := pkt 25 2 false false 3 0x3F03F 8 0 []
def writeTile : Pkt := pkt 25 2 true false 3 0x3F03F 8 1 (zeros 8)
def readSp : Pkt := pkt 25 3 false false 3 0xFFFF 1 0 []
def readXm : Pkt := pkt 37 12 false true 3 0x49000 8 0 []
def writeXm : Pkt := pkt 37 12 true false 2 0x49000 1 1 [0xFF]

/-- A row of eight bytes at the last column of plane 63 of tile 0, the last byte of the program's extent, a word of a result region that
port Y meets at its last byte and one that it does not, and a word that nobody owns with wrong parity. -/
theorem witness_NocRequests :
    (arrives sNoc 25 2 readTile ∧ good sNoc 25 2 readTile false = true ∧ niTile 2 = some 0) ∧
    (arrives sNoc 25 2 writeTile ∧ good sNoc 25 2 writeTile true = true ∧ writableBit (tile sNoc 0) 63 = true) ∧
    (arrives sNoc 25 3 readSp ∧ good sNoc 25 3 readSp false = true ∧ niTile 3 = none ∧ niMem 3 = some (false, 0) ∧ spBadAt sNoc 0xFFFF 1 = false) ∧
    (arrives sNoc 37 12 writeXm ∧ good sNoc 37 12 writeXm true = true ∧ niMem 12 = some (true, 8) ∧
      (0x49000 / 8 * 8 < 0x49000 + 1 ∧ 0x49000 < 0x49000 / 8 * 8 + 8) ∧ ¬(0x48FFF / 8 * 8 < 0x49000 + 1 ∧ 0x49000 < 0x48FFF / 8 * 8 + 8)) ∧
    (let s := { sNoc with xmFirst := some (0x49000, 5) }
     arrives s 37 12 readXm ∧ good s 37 12 readXm false = true ∧ s.xmFirst = some (0x49000, 5) ∧ xmBadAt s 0x49000 8 = false) ∧
    (let s := { sNoc with spBad := [(0x20007, .stuck)] }
     let p := pkt 37 3 false true 3 0x20007 1 0 []
     arrives s 37 3 p ∧ good s 37 3 p false = true ∧ spBadAt s 0x20007 1 = true ∧ inGolden 0x20000 = false ∧ roleAt s 0x20000 = none) := by
  refine ⟨⟨arrives_of ?_, ?_⟩, ⟨arrives_of ?_, ?_⟩, ⟨arrives_of ?_, ?_⟩, ⟨arrives_of ?_, ?_⟩, ⟨arrives_of ?_, ?_⟩, arrives_of ?_, ?_⟩ <;> decide +kernel

/-- The requests that are not served: a bad header, an interface that does not deliver, an address out of range, another tenant's
memory, a region under test, a protected plane. -/
theorem witness_NocRequests_refused :
    (∀ ty ∈ [1#4, 0#4], arrives sNoc 25 2 { readTile with hver := 1, ty := ty } ∧ pktBad { readTile with hver := 1, ty := ty } = true) ∧
    (∀ r : FenceReason, arrives (modNi sNoc 2 fun x => { x with st := .fenced r }) 25 2 readTile ∧ gateOf 2 = none ∧
      (ni (modNi sNoc 2 fun x => { x with st := .fenced r }) 2).st = .fenced r) ∧
    (let s := modNi sNoc 3 fun x => { x with st := .closing .dark }
     arrives s 25 3 readSp ∧ (ni s 3).st = .closing .dark ∧ gateOf 3 = some 5) ∧
    (arrives sNoc 25 2 (pkt 25 2 false false 3 0x40000 8 0 []) ∧ addrOk 2 (pkt 25 2 false false 3 0x40000 8 0 []) false = false) ∧
    (arrives sNoc 25 3 (pkt 25 3 false false 3 0x10000 1 0 []) ∧ addrOk 3 (pkt 25 3 false false 3 0x10000 1 0 []) false = true ∧
      meetsTest sNoc 3 (pkt 25 3 false false 3 0x10000 1 0 []) = false ∧ tenAllowed sNoc 3 25 (pkt 25 3 false false 3 0x10000 1 0 []) false = false) ∧
    (let s := { sNoc with march := { sNoc.march with dtest := some 0 } }
     arrives s 25 3 readSp ∧ (ni s 3).st = .opened ∧ addrOk 3 readSp false = true ∧ pktBad readSp = false ∧ meetsTest s 3 readSp = true) ∧
    (let p := pkt 25 2 true false 3 0x3F900 8 1 (zeros 8)
     arrives sNoc 25 2 p ∧ good sNoc 25 2 p true = true ∧ writableBit (tile sNoc 0) 0x900 = false) := by
  refine ⟨?_, fun r => ⟨arrives_of ?_, ?_⟩, ⟨arrives_of ?_, ?_⟩, ⟨arrives_of ?_, ?_⟩, ⟨arrives_of ?_, ?_⟩, ⟨arrives_of ?_, ?_⟩, arrives_of ?_, ?_⟩
  · intro ty h
    simp only [List.mem_cons, List.not_mem_nil, or_false] at h
    obtain rfl | rfl := h <;> exact ⟨arrives_of (by decide +kernel), by decide⟩
  any_goals cases r
  all_goals decide +kernel

def req (tid : BitVec 12) (retried : Bool) : OutReq := ⟨tid, 2, 3, false, some readTile, retried, some 0⟩
def sAsked : State := modNi sNoc 25 fun x => { x with out := [req 0 false, req 1 false], held := [req 2 false] }
/-- A response of this type and status, with a whole row of a tile where it carries data. -/
def back (dst : Nat) (ty : BitVec 4) (status : Half) : Pkt :=
  { pkt 2 dst false false 1 0 8 (if ty = 3 then 1 else 0) (if ty = 3 then zeros 8 else []) with ty := ty, status := status }

def returnsB (s : State) (m n : NiId) (p : Pkt) : Bool :=
  nocUp s && decide (pktDest p = some m) && decide (pktSource p = some n) && niLive s m && niLive s n && !pktBad p && (ni s n.val).sent.isEmpty &&
    meshQuiet s && decide (p.sn = wanted s (orderKey n m p.vc)) && (ni s m.val).early.isEmpty && decide (s.obs.due = none)

theorem returns_of {s : State} {m n : NiId} {p : Pkt} (h : returnsB s m n p = true) : returns s m n p := by
  simp only [returnsB, Bool.and_eq_true, decide_eq_true_eq, Bool.not_eq_true', List.isEmpty_iff] at h
  obtain ⟨⟨⟨⟨⟨⟨⟨⟨⟨⟨a, b⟩, c⟩, d⟩, e⟩, f⟩, g⟩, i⟩, j⟩, k⟩, l⟩ := h
  exact ⟨a, b, c, d, e, f, by rw [g]; rfl, ⟨i, j, by rw [k]; simp⟩, l⟩

/-- The sequencer's interface has a MEM request out. -/
def sMem : State := modSqr (modNi { sRun with noc := sNoc.noc } 5 fun x => { x with out := [req 0 false] }) 0 fun x =>
  { x with mem := some ⟨false, 2, 0, 0, 0, false⟩ }
def clearPkt : Pkt := { pkt 24 25 false true 2 0x0202 0 0 [] with ty := 7 }

theorem witness_NocResponses : (∀ e ∈ [(3#4, 0#16), (4, 0), (5, 0x10), (6, 1)], returns sNoc 25 2 (back 25 e.1 e.2) ∧ (ni sNoc 25).out = [] ∧
      returns sAsked 25 2 (back 25 e.1 e.2) ∧ answered sAsked 25 (back 25 e.1 e.2) = some (req 0 false) ∧
      (ni sAsked 25).out = [] ++ req 0 false :: [req 1 false] ∧ returns sMem 5 2 (back 5 e.1 e.2) ∧
      answered sMem 5 (back 5 e.1 e.2) = some (req 0 false)) ∧
    (returns sMem 5 2 (back 5 6 4) ∧ niSeq 5 = some 0 ∧ (sqr sMem 0).mem = some ⟨false, 2, 0, 0, 0, false⟩ ∧ (sqr sMem 0).bound = some 0 ∧
      (sqr sMem 0).tl = false ∧ runOrder sMem 0 = some (order0 .running) ∧ handlerAt sMem 0 1 40) ∧
    nocUp sAsked = true ∧ sAsked.obs.due = none ∧ ((ni sAsked 25).out.find? fun y => decide (y.tid = 0)) = some (req 0 false) ∧
    controls sAsked clearPkt 7 := by
  refine ⟨fun e h => ?_, ⟨returns_of (by decide +kernel), ?_, ?_, ?_, ?_, ?_, handler_same (by decide) rfl rfl rfl rfl fun _ _ => rfl⟩, ?_, ?_, ?_, ?_⟩
  · simp only [List.mem_cons, List.not_mem_nil, or_false] at h
    obtain rfl | rfl | rfl | rfl := h <;>
      exact ⟨returns_of (by decide +kernel), rfl, returns_of (by decide +kernel), by decide +kernel, rfl, returns_of (by decide +kernel), by decide +kernel⟩
  all_goals first
    | decide +kernel
    | exact ⟨by decide +kernel, by decide, rfl, rfl, rfl, rfl⟩

def controlPkt : Pkt := { pkt 24 2 false true 2 0 0 0 [] with ty := 8 }
/-- A notice from router 1 to its western neighbour. -/
def noticePkt : Pkt := { pkt 2 0 false true 2 0 0 0 [] with ty := 8 }
/-- Two packets of ingest wait at router 2, the second of them at its channel's head. -/
def sMesh : State := { sNoc with noc := { sNoc.noc with
  mesh := [⟨.read readTile ⟨false, false⟩, 25, 2, 3, 0, 1, false, [], 0⟩, ⟨.readResp (back 25 3 0), 2, 25, 1, 0, 2, false, [(1, 4, 2)], 0⟩] } }

def flight0 : Flight := ⟨.read readTile ⟨false, false⟩, 25, 2, 3, 0, 1, false, [(12, 5, 1)], 0⟩

theorem witness_SluicesAndRouters : controls sNoc controlPkt 8 ∧ pktDest controlPkt = some 2 ∧ pktBad { controlPkt with hver := 1 } = true ∧
    meshQuiet sNoc = true ∧ (∀ k, (ni sNoc k).held = []) ∧ (ni sNoc 2).st = .opened ∧
    (∀ f ∈ [FenceReason.draining, .off], (ni (modNi sNoc 2 fun x => { x with st := .closing f }) 2).st = .closing f ∧
      (ni (modNi sNoc 2 fun x => { x with st := .closing f }) 2).quiet = true) ∧
    (let s := modTile (modNi sNoc 2 fun x => { x with st := .closing .dark }) 0 fun x => { x with polder := .down 0 }
     (ni s 2).st = .closing .dark ∧ (tile s 0).polder = .down 0) ∧
    (let s := modNi sNoc 3 fun x => { x with st := .closing .dark }
     niTile 3 = none ∧ gateOf 3 = some 5 ∧ (ni s 3).quiet = true ∧
       (gateMask { s with tiles := [], clk := { s.clk with idle := 1, gateSleep := 0xFFFFFFFF } }).getLsbD 5 = true) ∧
    (let s := modTile (modNi sNoc 2 fun x => { x with st := .closing .draining }) 0 fun x => { x with service := .draining }
     (ni s 2).st.isClosing = true ∧ blockFaulted s 2 = true ∧ niTile 2 = some 0) ∧
    (∀ b : Bool, let s := modSqr (modNi sNoc 5 fun x => { x with st := .closing .draining }) 0 fun x =>
        { x with service := .draining, wcsBad := if b then [(7, .stuck)] else [] }
     niTile 5 = none ∧ niSeq 5 = some 0 ∧ (sqr s 0).service = .draining ∧ (stuckWords (sqr s 0) = [] ↔ b = false)) ∧
    (controls sNoc noticePkt 8 ∧ noticeDir (noticeOf 0 noticePkt) = some (0, .east)) ∧ sNoc.noc.mesh = [] ∧ sNoc.noc.clears = [] ∧
    (rtr sNoc 0).service = .inService ∧ (rtr (modRtr sNoc 0 fun x => { x with service := .quiesce }) 0).service = .quiesce ∧
    ((nextFlight sMesh).map fun p => p.1.src) = some 25 ∧ (sMesh.noc.mesh.any fun f => decide (moveOf sMesh f = .enter 12 5 169)) = true ∧
    chooseOut sMesh 13 flight0 = some .south ∧ (rtr sMesh 0).mode = false ∧ 0 < ahead 1 12 .west ∧ permitted sMesh 12 1 false = [.south, .east] ∧
    permitted sMesh 0 13 true = [.east] ∧ gone sMesh (0 / 6 * 6 + 13 % 6) = false ∧ 0 % 6 ≠ 13 % 6 := by
  have h : ∀ (k : Nat) (l : SMap Ni), (∀ e ∈ l, e.2.held = []) → (SMap.get Ni.initial l k).held = [] := by
    intro k l
    induction l with
    | nil => intro _; rfl
    | cons e r ih =>
      intro h
      rw [SMap.get]
      split
      · exact h e (.head _)
      · exact ih fun x hx => h x (.tail _ hx)
  refine ⟨?_, ?_, ?_, ?_, fun k => h k _ (by decide +kernel), ?_, ?_, ?_, ?_, ?_, ?_, ?_, ?_, ?_, ?_, ?_, ?_, ?_, ?_, ?_, ?_, ?_, ?_, ?_, ?_⟩
  all_goals first
    | decide +kernel
    | exact ⟨by decide +kernel, by decide, rfl, rfl, rfl, rfl⟩
    | exact ⟨⟨by decide +kernel, by decide, rfl, rfl, rfl, rfl⟩, by decide +kernel⟩

def sMarch (on : Bool) (w : Option Window) (d : Option Nat) (r : SMap Bool) : State :=
  { sOwn with march := { sOwn.march with enable := 1, passOn := on, window := w, dtest := d, released := r } }

/-- A window at a word of XM's mirrored part, or at the last word of the program's extent or of another unit. -/
def win (xm : Bool) (a : Nat) (c : Bool) : Window := ⟨xm, a, c, 0, false⟩

theorem witness_MarchEngine : admitted sOwn 0 0x2600 1 1 ∧ admitted sOwn 0 0x2600 6 2 ∧
    (sMarch false none none []).march.enable ≠ 0 ∧ sOwn.start.mode = .running ∧ sOwn.clk.sleep ≠ .entered ∧ (sMarch true none none []).march.passOn = true ∧
    (sMarch true (some { win false 0 true with released := true }) none []).march.window.map Window.released = some true ∧
    dtestOwned sOwn 0 = true ∧ dtestOwned sOwn 509 = false ∧ dtestOwned sOwn 0x210 = false ∧ SMap.get false sOwn.march.released 509 = false ∧
    (sMarch false none (some 511) []).march.dtest = some 511 ∧ inGolden (511 * 65536) = true ∧ inGolden (510 * 65536) = false ∧
    (sMarch false none (some (512 + 16)) []).march.dtest = some (512 + 16) ∧ (tile sOwn 16).service = .spare ∧
    (sMarch false none none [(3, true)]).march.released = (3, true) :: [] ∧ (memSt (sMarch false none none [(3, true)]) 0).service = .inService ∧
    (let s := { sOwn with march := { sOwn.march with tileDue := [(3, true)] } }
     s.march.dtest = none ∧ s.march.released = [] ∧ (List.finRange 17).find? (tileTested s) = some 3) ∧ (∀ q, tileTested sOwn q = false) ∧
    sOwn.obs.due = none ∧
    (∀ c : Bool, let s := { sMarch true (some (win false (510 * 65536) c)) none [] with spBad := [(510 * 65536 + 7, .weak), (510 * 65536 + 15, .upset)] }
     compareUnit s 510 = false ∧ spBadAt s (510 * 65536) 8 = false ∧ spBadAt s (510 * 65536 + 8) 8 = true ∧
       weakIn s.spBad (510 * 65536) 8 = true ∧ weakIn s.spBad (510 * 65536 + 8) 8 = false ∧ (memSt s 7).service = .inService) ∧
    (let s := { sMarch true (some (win true 0x69FF8 false)) none [] with xmBad := [(0x69FFF, .upset)] }
     xmBadAt s 0x69FF8 8 = true ∧ mirrorGood s (1 - 0x69FF8 / 0x80000) (0x69FF8 % 0x80000) 8 = true) ∧
    (let s := sMarch true (some (win false 65528 false)) none []
     compareUnit s (65528 / 65536) = true ∧ copyOf s 65528 = some (2 * 4194304 + 65528) ∧ spBadAt s 65528 8 = false ∧
       spRead s 65528 8 = spRead s (2 * 4194304 + 65528) 8 ∧ spRead (spWrite s 65528 [1]) 65528 8 ≠ spRead s (2 * 4194304 + 65528) 8) := by
  refine ⟨admits_admitted (by decide +kernel), admits_admitted (by decide +kernel), ?_⟩; decide +kernel

def sLink (l : Link) : State := modCam { sNoc with sp := sRun.sp } 0 fun x => { x with link := l }
def regWrite : Bytes := leBytes 4 1 ++ zeros 4 ++ leBytes 4 4 ++ zeros 4

/-- The configuration of a camera whose window is 64 by 2 pixels, Mono8. -/
def cfg0 : CamCfg := { (cam sOwn 0).cfg with window := 0x0002004000000000 }
def inCamera (a : Option Arm) : InBind := { inRegion with kind := .camera, len := BitVec.ofNat 32 cfg0.bytes, arm := a }
def sFrame (claimed : Bool) (lines : Nat) (a : Option Arm) (done : Bool) : State :=
  let i := { inCamera a with claimed := claimed, complete := done, bands := if done then 1 else 0, data := if done then zeros cfg0.bytes else [], cam := if claimed then some cfg0 else none }
  let s := modTen (sLink (.up 6)) 0 fun x => { x with orders := [{ order0 .running with ins := [i] }] }
  modCam s 0 fun x => { x with window := cfg0.window, fmt := cfg0.fmt, frame := if claimed && !done then some ⟨some (0, 1, 0), cfg0, lines⟩ else none }

theorem witness_CameraLinksAndRegisters : admitted sOwn 0 0x2C00 1 1 ∧ groupSize 10 0 = 4 ∧ (∀ d : CxpId, camOwner sOwn d.val = some 0) ∧
    (cam (sLink .discovery) 0).link = .discovery ∧ 1 ≤ sOwn.maxSpeed.toNat ∧
    ({ sLink .discovery with maxSpeed := 10 }).maxSpeed.toNat < [1, 2, 3, 5, 6, 10, 12].getD 6 0 ∧
    (cam (sLink .down) 0).link = .down ∧ (cam (sLink (.up 6)) 0).link = .up 6 ∧ (cam (sLink (.up 6)) (masterOf (sLink (.up 6)) 0)).frame = none ∧
    (let s := sFrame true 1 none false
     (cam s 0).link = .up 6 ∧ (cam s (masterOf s 0)).frame = some ⟨some (0, 1, 0), cfg0, 1⟩ ∧ (getOrder s 0 1).isSome = true ∧ 1 < winH cfg0.window) ∧
    (cam (sLink .lost) 0).link = .lost ∧ admitted sOwn 0 (0x2C10 + 0) 14 regWrite.length ∧ (12 ≤ regWrite.length ∧ leAt regWrite 0 4 ≤ 1 ∧
      leAt regWrite 8 4 ≤ 1024 ∧ regWrite.length = 12 + leAt regWrite 8 4) ∧ (cam sOwn 0).regRequest = none ∧ masterOf sOwn 0 = 0 ∧
    (∀ b : Bool, let s := modSes (modCam sOwn 0 fun x => { x with regRequest := some (0, regWrite) }) 0 fun x =>
        { x with awaits := if b then [(0x2C10, 0x0E)] else [] }
     (cam s 0).regRequest = some (0, regWrite) ∧ ((0x2C10, 0x0E) ∈ (ses s 0).awaits ↔ b = true)) ∧
    sesUp sOwn 0 = true ∧ access sOwn 0 (0x2C10 + 0) 14 false = 0 ∧ (cam sOwn 0).regReply = none ∧
    (cam (modCam sOwn 0 fun x => { x with regReply := some [1] }) 0).regReply = some [1] := by
  refine ⟨admits_admitted (by decide +kernel), ?_, ?_, ?_, ?_, ?_, ?_, ?_, ?_, ?_, ?_, admits_admitted (by decide +kernel), ?_⟩ <;> decide +kernel

def head2 : ImageHeader := ⟨64, 2, some 0⟩

theorem witness_FramesIngested :
    (let s := sFrame false 0 none false
     (cam s 0).link = .up 6 ∧ s.clk.sleep ≠ .entered ∧ s.obs.due = none ∧ masterOf s 0 = 0 ∧ (cam s 0).frame = none ∧ camOwner s 0 = some 0 ∧
       releaseStart s 0 0x50 = none ∧ (claimant s 0 0).map (fun p => (p.1.seq, p.2)) = some (1, 0) ∧ (getOrder s 0 1).isSome = true ∧
       shapeOk (cam s 0).cfg head2 (BitVec.ofNat 32 cfg0.bytes).toNat = true ∧ (cam s 0).cfg.prearm = false ∧
       shapeOk (cam s 0).cfg ⟨64, 1, some 0⟩ (BitVec.ofNat 32 cfg0.bytes).toNat = false) ∧
    (∀ y : Bool, let s := modCam (sFrame false 0 none false) 0 fun x => { x with landing := if y then 0x80000000 else 0x80000FFF }
     (cam s 0).cfg.prearm = true ∧ preArmFits s 0 (cam s 0).cfg = y ∧ (runOrder s 0).isSome = true ∧ seqOf s 0 = some 0 ∧ (sqr s 0).tl = false ∧
       (sqr s 0).ws = none ∧ (sqr s 0).midRoutine = false ∧ frozen s = false ∧ handlerAt s 0 7 40) ∧
    (let s := modTen (sLink (.up 6)) 0 fun x => { x with orders := [{ order0 .accepted with startInput := 0x50, released := false }] }
     releaseStart s 0 0x50 = some 1 ∧ masterOf s 0 = 0) ∧
    (let s := modCam State.reset 0 fun x => { x with link := .up 6 }
     masterOf s 0 = 0 ∧ (cam s 0).frame = none ∧ camOwner s 0 = none) ∧
    (∀ l ∈ [0, 1], let s := sFrame true l none false
      (cam s 0).frame = some ⟨some (0, 1, 0), cfg0, l⟩ ∧ (getOrder s 0 1).isSome = true ∧ l < winH cfg0.window ∧
        ((runOrder s 0).bind fun o => (o.ins[0]?).map InBind.arm) = some none ∧ (cam s 0).buf = [] ∧
        0 < (lineBytes cfg0 (List.replicate 64 7)).length ∧ (lineBytes cfg0 (List.replicate 64 7)).length ≤ bufLimit ∧
        winX cfg0.window + winW cfg0.window ≤ (List.replicate 64 (7 : BitVec 24)).length) ∧
    (let s := modTen (sFrame true 0 none false) 0 fun x => { x with orders := x.orders.map fun o => { o with
        ins := o.ins.map fun i => { i with copyA := false, copyB := false } } }
     (getOrder s 0 1).map (fun o => o.ins.map fun i => (i.kind, i.landed, i.claimed, i.copyA, i.copyB)) = some [(.camera, false, true, false, false)]) ∧
    (∀ d, 0 < d → bufLimit < freshTotal [⟨0, 1, 0, zeros bufLimit, 0⟩] + d) ∧
    (∀ done : Bool, let v := landNow (sFrame true 0 (some ⟨0, .g1, false⟩) done) 0 1 0
     (getOrder v 0 1).map (fun p => (p.ins[0]?).map fun j => (j.arm.isSome, mayLand v 0 p j)) = some (some (true, done))) := by
  refine ⟨?_, fun y => ⟨?_, ?_, ?_, ?_, ?_, ?_, ?_, ?_, handler_same (by decide) ?_ rfl rfl rfl fun _ _ => rfl⟩, ?_, ?_, ?_, ?_, fun d hd => ?_, ?_⟩
  rotate_right 2
  · simp only [freshTotal, List.map_cons, List.map_nil, List.foldl_cons, List.foldl_nil, zeros, List.length_replicate]; omega
  any_goals cases y
  all_goals decide +kernel

/-! ### Hypotheses of the statements are met: field side and fabric -/

/-- Channel `n` changed. -/
def sFc (n : Nat) (f : Fc → Fc) : State := modFch sOwn n f
/-- Channel 511 as an output of mode `m` driven by the host image at level `b`. -/
def sDout (m : Byte) (b : Bool) (f : Fc → Fc) : State :=
  let s := sFc 511 fun x => f { x with mode := m, source := 1 }
  { s with field := { s.field with dout := if b then [(63, 0x80)] else [] } }

theorem witness_FieldSettings : (∀ n : FcId, n = 0 ∨ n = 511 → admits sOwn 0 (0x7000 + n.val) 1 1 && admits sOwn 0 (0x7000 + n.val) 2 1 &&
      admits sOwn 0 (0x7000 + n.val) 3 1 && admits sOwn 0 (0x7000 + n.val) 14 1) ∧
    modeBad sOwn 0 0 13 = true ∧ modeBad sOwn 0 511 5 = true ∧ modeBad sOwn 0 0 12 = false ∧ modeBusy sOwn 0 12 = false ∧
    modeBad sOwn 0 508 6 = false ∧ modeBusy (sFc 509 fun x => { x with mode := 13 }) 509 1 = true ∧
    modeBad (sFc 509 fun x => { x with mode := 13 }) 0 509 1 = false ∧ (fch (sFc 508 fun x => { x with mode := 6, changing := true }) 508).changing = true ∧
    (∀ j : Fin 64, j = 0 ∨ j = 63 → admits sOwn 0 0x6200 (j.val + 1) 1) ∧
    (∀ g : GroupId, g = 0 ∨ g = 31 → admits sOwn 0 (0x6420 + g.val) 2 1 && admits sOwn 0 (0x6420 + g.val) 4 1) ∧
    (∀ run : Bool, let s := sFc 511 fun x => { x with mode := 10, oe := true, pwmRunning := run, pwmNow := 0xFFFF, dutyNow := 0x8000 }
     isPwm (fch s 511).mode = true ∧ anyCause s 511 = false ∧ (fch s 511).pwmRunning = run ∧ landDrive s 511 = .pwm ∧
       pwmHigh (fch s 511) 0 = true) ∧
    (let s := sFc 511 fun x => { x with mode := 9, oe := false, pwmRunning := true }
     isPwm (fch s 511).mode = true ∧ anyCause s 511 = true) := by decide +kernel

theorem witness_FieldInputs : fcHears sOwn = true ∧ fcHears { sOwn with fab := { sOwn.fab with clk := .stopped } } = false ∧
    (∀ m ∈ ([1, 11, 3, 5] : List Byte), let s := sFc 511 fun x => { x with mode := m }
      fcHears s = true ∧ (isDin (fch s 511).mode = true ∨ isCounter (fch s 511).mode = true ∨ isOut (fch s 511).mode = true ∨ (fch s 511).mode = 5) ∧
        true ≠ (fch s 511).level) ∧
    (let s := sFc (4 * 127) fun x => { x with mode := 6 }
     fcHears s = true ∧ (fch s (4 * 127)).mode = 6 ∧ (fch s (4 * 127)).level = false ∧ (fch s (4 * 127)).encB = false ∧
       (fch s (4 * 127)).diag.contains 0x09 = false) ∧
    (∀ m ∈ ([7, 8] : List Byte), let s := sFc 511 fun x => { x with mode := m }
      (grp s 31).adcStopped = false ∧ nextScan (adcScan s 31) (grp s 31).adcPos = some 15) ∧
    (let s := sFc 511 fun x => { x with pwmRunning := true }
     (fch s 511).pwmRunning = true) := by decide +kernel

theorem witness_FieldDiagnoses :
    (let s := sDout 3 true id
     isOut (fch s 511).mode = true ∧ landDrive s 511 = .high ∧ (fch s 511).diag.contains 0x01 = false) ∧
    (let s := sDout 3 false id
     (fch s 511).mode = 3 ∧ landDrive s 511 = .low ∧ (fch s 511).diag.contains 0x02 = false) ∧ fcDead sOwn = false ∧
    (∀ b : Bool, let s := sFc 511 fun x => { x with diag := [0x07], forcedOff := b }
     fcDead s = false ∧ (fch s 511).diag.contains 0x07 = true ∧ (fch s 511).forcedOff = b) ∧
    (let s := sFc 511 fun x => { x with mode := 1, diagEn := 1 }
     fcDead s = false ∧ isDin (fch s 511).mode = true ∧ (fch s 511).diagEn.getLsbD 0 = true ∧ (fch s 511).level = false) ∧
    (let s := sFc 511 fun x => { x with mode := 7, diagEn := 1 }
     fcDead s = false ∧ isAin (fch s 511).mode = true ∧ (fch s 511).diagEn.getLsbD 0 = true ∧ channelFilling s 511 = false) ∧
    (let s := sDout 3 true fun x => { x with diagEn := 3 }
     isOut (fch s 511).mode = true ∧ (fch s 511).diagEn.getLsbD 0 = true ∧ landDrive s 511 = .high ∧ fcDead s = false ∧
       (fch s 511).diagEn.getLsbD 1 = true) ∧
    landDrive (sDout 4 false fun x => { x with diagEn := 3 }) 511 = .off ∧ isOut 4 = true ∧
    (∀ v ∈ ([4, 12] : List Byte), let s := sFc 510 fun x => { x with mode := 5, diagEn := v }
      fcDead s = false ∧ (fch s 510).mode = 5 ∧ (fch s 510).diagEn.getLsbD 2 = true ∧ (fch s 510).swapped = false ∧
        (fch s 510).diagEn.getLsbD 3 = decide (v = 12)) ∧
    (let s := sFc 511 fun x => { x with forcedOff := true, diagEn := 16, diag := [3] }
     (fch s 511).forcedOff = true ∧ (fch s 511).diagEn.getLsbD 4 = true ∧ fcDead s = false ∧ (fch s 511).diag.contains 3 = true) := by
  decide +kernel

/-- Group 31 changed. -/
def sGrp (f : Group → Group) : State := modGrp sOwn 31 f

theorem witness_DikeGroups : fcDead sOwn = false ∧ (grp sOwn 31).spsEnable ≠ 0 ∧ (grp sOwn 31).spsReverse = false ∧ (grp sOwn 31).spsOverload = false ∧
    (grp (sGrp fun x => { x with spsOverload := true }) 31).spsOverload = true ∧ (grp (sGrp fun x => { x with spsReverse := true }) 31).spsReverse = true ∧
    sOwn.obs.due = none ∧ (400 : Half).toNat ≤ 400 ∧ (grp sOwn 31).faulted = false ∧ 400 < (401 : Half).toNat ∧
    (let s := sGrp fun x => { x with outCurrent := 4001 }
     (grp s 31).faulted = false ∧ 4000 < totalCurrent s ∧ ∀ j, j < 32 → j ≠ 31 → (grp s j).outCurrent.toNat < (grp s 31).outCurrent.toNat) ∧
    (let s := sGrp fun x => { x with faulted := true, cause := 1, outCurrent := 401 }
     (grp s 31).faulted = true ∧ (grp s 31).cause = 1 ∧ 400 < (grp s 31).outCurrent.toNat) ∧
    (let s := sGrp fun x => { x with faulted := true, cause := 2, outCurrent := 4001 }
     (grp s 31).faulted = true ∧ (grp s 31).cause = 2 ∧ 4000 < totalCurrent s) := by decide +kernel

/-- A fabric whose cells at both ends of the array hold in IR0 the operation `op`. -/
def sCell (op : Nat) : State :=
  let x : CellCfg := { CellCfg.null with ir := [BitVec.ofNat 32 (op * 2 ^ 27)] }
  { sOwn with fab := { sOwn.fab with cfg := { sOwn.fab.cfg with cells := [(0, x), (2047, x)] } } }

theorem witness_FabricCells : ∀ op, op < 15 → regionRuns (sCell op) 0 = true ∧ regionRuns (sCell op) (31 / 4) = true ∧ (sCell op).fab.clk ≠ .stopped ∧
    bField (cellEntry (sCell op) 0 0) 31 27 = op ∧ bField (cellEntry (sCell op) 63 31) 31 27 = op := by decide +kernel

/-- A full bitstream without records. -/
def bits : Bytes := [0xFF, 0, 1, 1, 1, 0, 0, 0] ++ zeros 56 ++ zeros 3309
def sLoad (l : Option Load) : State := { withKey sOwn with fab := { sOwn.fab with load := l } }

theorem witness_FabricLoadsAndPorts (h : Config.mlDsaVerify [] "AZ6516/FAB" (parseBits bits).signed (parseBits bits).sig = true) :
    admitted (withKey sOwn) 0 0x2B01 1 bits.length ∧ admitted (withKey sOwn) 0 0x2B02 1 64 ∧ 64 ≤ bits.length ∧ loadBusy (withKey sOwn) true = false ∧
      chkLoad (withKey sOwn) 0 true bits (parseBits bits) = none ∧ loadBusy (sLoad (some ⟨none, FabCfg.null, 0, 1, none, []⟩)) true = true ∧
      (∃ e, chkLoad (withKey sOwn) 0 true (zeros 64) (parseBits (zeros 64)) = some e) ∧ (withKey sOwn).fab.owed = [] ∧
      (withKey sOwn).fab.load = none ∧ (withKey sOwn).obs.due = none := by
  have hs : checkSig (withKey sOwn) (withKey sOwn).ident.ik "AZ6516/FAB" (parseBits bits).signed (parseBits bits).sig ctrFab
      (parseBits bits).counter = none := sig_ok h (by decide +kernel)
  refine ⟨admits_admitted (by decide +kernel), admits_admitted (by decide +kernel), ?_, ?_, ?_, ?_, ?_, ?_, ?_, ?_⟩
  rotate_left 2
  · have ht : ((fun x => x = true) (decide ((0 : Tenant) ≠ 0 ∨ 155648 < bits.length))) = False := by decide +kernel
    have hk : decide ((parseBits bits).kind = 1) = true := by decide +kernel
    have hf : (parseBits bits).fault = none := by decide +kernel
    have hc : chkContent (withKey sOwn) none (parseBits bits).recs = none := by decide +kernel
    simp only [chkLoad, if_true, hk, hf, hs, hc, ne_eq, not_true, if_false, Option.map_none]
    rw [if_neg (by decide +kernel)]
  · decide +kernel
  · exact Option.isSome_iff_exists.mp (by decide +kernel)
  all_goals decide +kernel

/-- A load of null configurations that reads back as it states, and one that does not. -/
theorem witness_FabricLoads_readback (e : Word) : (sLoad (some ⟨none, FabCfg.null, cfgCrc FabCfg.null 0xFF + e, 1, some 0, []⟩)).fab.load =
      some ⟨none, FabCfg.null, cfgCrc FabCfg.null 0xFF + e, 1, some 0, []⟩ ∧
    (e = 0 → cfgCrc FabCfg.null 0xFF = cfgCrc FabCfg.null 0xFF + e) ∧ (e ≠ 0 → cfgCrc FabCfg.null 0xFF ≠ cfgCrc FabCfg.null 0xFF + e) := by
  refine ⟨rfl, fun h => by simp [h], fun h => ?_⟩
  intro hc
  exact h (by simpa using hc.symm)

/-- Regions 6 and 7 have been removed from their tenants. -/
theorem witness_FabricLoads_owed : (let s := { sOwn with fab := { sOwn.fab with owed := [6, 7] } }
     s.fab.load = none ∧ s.fab.owed = 6 :: [7] ∧ (6 : RegionId) ∉ [(7 : RegionId)]) ∧
    (let s := modSes (sLoad (some ⟨none, FabCfg.null, 0, 1, some 0, []⟩)) 0 fun x => { x with awaits := [(loadIndex true, 1)] }
     (loadIndex true, 1) ∈ (ses s 0).awaits ∧ s.fab.owed = [] ∧ (counter s ctrFab).toNat ≤ 1) := by decide +kernel

theorem witness_FabricPorts : admitted sOwn 0 0x2B05 1 1 ∧ admitted sOwn 0 0x2B06 4 1 ∧ regionOwner sOwn (15 / 2) = some 0 ∧ sOwn.sup.vcore = .normal ∧
    (∀ (m : Fin 3) (up : Bool), fabFull { sOwn with
      tiles := if up then sOwn.tiles else [], fab := { sOwn.fab with clk := .ramping up m }, clk := { sOwn.clk with idle := 1 } } = up) ∧
    (∀ m : Fin 3, let s := { sOwn with fab := { sOwn.fab with serialMode := [(1, BitVec.ofNat 16 (m.val + 1))], txOpen := [(1, 1)] } }
     let mode := (SMap.get 0 s.fab.serialMode 1).toNat % 4
     regionRuns s (7 * 1) = true ∧ (mode = 1 ∨ 2 ≤ mode ∧ 0 < SMap.get 0 s.fab.txOpen 1)) ∧
    (SMap.get 0 sOwn.fab.serialMode 0).toNat % 4 = 0 := by
  refine ⟨admits_admitted (by decide +kernel), admits_admitted (by decide +kernel), ?_⟩; decide +kernel

/-! ### Hypotheses of the statements are met: sessions and networks -/

theorem witness_AccessSteps : sesUp sOwn 0 = true ∧ rowsOf (locOf 0x3000).base (ses sOwn 0).agreed = [] ∧
    indexHere sOwn 0 0x2500 = true ∧ rowsOf (locOf 0x2500).base (ses sOwn 0).agreed ≠ [] ∧ findRow sOwn 0 0x2500 200 = none ∧
    (∀ p ∈ [(0x2500, 3), (0x2500, 2), (0x2B01, 1)], (findRow sOwn 0 p.1 p.2).isSome = true) ∧
    (findRow sOwn 0 0x2C10 8).map Row.acc = some .ro ∧ (findRow sOwn 0 0x2B01 1).map Row.ty = some .domain ∧
    isWho sOwn 0 (locOf 0x2F10) 1 .inst = false ∧ (findRow sOwn 0 0x2F10 1).map Row.wr = some .inst ∧
    access sOwn 0 0x2500 2 true = 0 ∧ initCheck sOwn 0 0x2500 2 = 0 ∧
    (let s := { sOwn with sup := { sOwn.sup with pfw := 2 } }
     access s 0 0x2F00 1 true = 0 ∧ initCheck s 0 0x2F00 1 ≠ 0) ∧
    (admits sOwn 0 0x2500 2 2 && admits sOwn 0 0x2600 2 2 && admits sOwn 0 0x2202 3 2 && admits sOwn 0 (0x2C10 + 7) 1 1) = true ∧
    (127 : Half).toNat < 128 ∧ 128 ≤ (128 : Half).toNat ∧ (3600 : Half).toNat ≤ 3600 ∧ (250 : Half).toNat = 25 * 10 := by decide +kernel

/-- A segmented transfer of a bundle in progress, with `e` held. -/
def sXfer (sz : Option Nat) (e : Bytes) : State := modSes sOwn 0 fun x => { x with xfer := some ⟨0x2900, 3, sz, e⟩ }

theorem witness_SegmentedTransfers : (findRow sOwn 0 0x2900 3).map Row.ty = some .domain ∧ domainLimit 0x2900 = 36141 ∧
    sesUp sOwn 0 = true ∧ (ses sOwn 0).xfer = none ∧ access sOwn 0 0x2900 3 true = 0 ∧ initCheck sOwn 0 0x2900 3 = 0 ∧
    sesUp (sXfer (some 36141) [1]) 0 = true ∧ (ses (sXfer (some 36141) [1]) 0).xfer = some ⟨0x2900, 3, some 36141, [1]⟩ ∧
    (findRow (sXfer none [1]) 0 0x2900 3).map Row.ty = some .domain ∧ initCheck (sXfer none [1]) 0 0x2900 3 = 0 := by decide +kernel

def sPre : State := { sOwn with net := { sOwn.net with esc := [(0, { Esc.initial with al := .preOp })] } }
def sLog : State := { sOwn with obs := { sOwn.obs with log := [⟨1, 0, 0x0B01, 2, 15, 0, 0, []⟩] } }
def sEmcy (c : Half) (v : Nat) : State := modSes sOwn 0 fun x => { x with queue := [⟨c, 0, [1, 2, 3, 4, 5]⟩], agreed := v }

theorem witness_SessionObjects : (admits sOwn 0 0x2002 1 2 && admits sOwn 0 0x1003 0 1 && admits sPre 0 0x1603 32 4 && admits sPre 0 0x1A03 32 4 &&
      admits sPre 0 0x1600 0 1 && admits sPre 0 0x1C13 4 2 && admits sPre 0 0x1C12 4 2 && admits sOwn 0 0x2502 1 4) = true ∧
    (∀ m : Fin 5, 2 ^ m.val ≤ (BitVec.ofNat 16 (2 ^ m.val)).toNat % 32 ∧ mapLacks (ses sOwn 0) m = false) ∧
    mapLacks (ses (modSes sOwn 0 fun x => { x with rxMap := [(0, 0x62006408)] }) 0) 0 = true ∧
    access sPre 0 0x6200 64 true = 0 ∧ (findRow sPre 0 0x6200 64).map (fun r => (r.acc, 8 * r.size)) = some (.rww, 8) ∧
    mapOpen sPre 0 false 3 = true ∧ mapOpen sOwn 0 false 3 = false ∧ sesUp (sEmcy 0xFF01 0) 0 = true ∧
    (ses (sEmcy 0xFF01 0) 0).queue = [⟨0xFF01, 0, [1, 2, 3, 4, 5]⟩] ∧ access sLog 0 0x2502 2 false = 0 ∧
    sLog.obs.log = [] ++ ⟨1, 0, 0x0B01, 2, 15, 0, 0, []⟩ :: [] ∧ (15 : BitVec 4).getLsbD (sesTenant 0).val = true ∧
    { sLog with obs := { sLog.obs with log := [] } }.obs.log = [] := by
  decide +kernel

def sEsc (a : AlState) (y : Half) : State := { sOwn with net := { sOwn.net with esc := [(0, { Esc.initial with al := a, syncType := y, members := [0] })] } }

theorem witness_EscStates : (∀ a : AlState, a ∈ [AlState.init, .preOp, .safeOp, .op] → ctrlUp (sEsc a 0) (escCh 0) = true ∧ (esc (sEsc a 0) 0).al = a) ∧
    layoutCheck (sEsc .preOp 0) 0 ⟨0x1800, 0, 0x1C00, 0, 0, 0⟩ = 0 ∧ layoutCheck (sEsc .preOp 0) 0 ⟨0x1800, 1, 0x1C00, 0, 0, 0⟩ ≠ 0 ∧
    channelOf (sEsc .op 0) 0 = some (escCh 0) ∧ escOf (sEsc .op 0) 0 = some 0 ∧ (∀ n, escOf (sEsc .op 0) n = some 0 → n.val ≠ 63) ∧
    sesUp (sEsc .op 0) (tenSes 0) = true ∧ rowsOf (locOf 0x3000).base (ses (sEsc .op 0) (tenSes 0)).agreed = [] ∧
    indexHere (sEsc .op 0) (tenSes 0) 0x2500 = true ∧ (findRow (sEsc .op 0) (tenSes 0) 0x2500 1).isSome = true ∧
    access (sEsc .op 0) (tenSes 0) 0x2B01 1 true = 0 ∧
    admits (sEsc .preOp 0) 0 0x1C32 1 2 = true := by decide +kernel

theorem witness_EscStates_files : foeObject "OTHER" = none ∧ foeObject "FABRIC_FULL" = some (0x2B01, 1) := by
  simp [foeObject]

/-- ESC0 in OP whose tenant maps byte 64 of the output image in its first RPDO. -/
def sOp (y : Half) : State := modSes (sEsc .op y) 0 fun x => { x with rxMap := [(0, 0x62004008)], rxCount := [(0, 1)] }

theorem witness_EscProcessData (y : Half) (h : y = 0 ∨ y = 1 ∨ y = 2 ∨ y = 3) : ctrlUp (sOp y) (escCh 0) = true ∧ (esc (sOp y) 0).al = .op ∧
    (sOp y).obs.due = none ∧ (esc (sOp y) 0).members = [0] ∧ escOf (sOp y) 0 = some 0 ∧
    (ses (sOp y) (tenSes 0)).rxAssign = [0x1600 + BitVec.ofNat 16 0, 0, 0, 0] ∧
    pdoEntries (ses (sOp y) (tenSes 0)) false 0 = [BitVec.ofNat 32 (0x62000008 + 256 * (63 + 1))] := by
  obtain rfl | rfl | rfl | rfl := h <;> decide +kernel

theorem witness_EscProcessData_more : access (sOp 1) (tenSes 0) 0x6200 (63 + 1) true = 0 ∧ escRuns (sOp 3) 0 = true ∧ (esc (sOp 3) 0).sm2Wait = false ∧
    escRuns (sOp 0) 0 = true ∧ releaseStart (sOp 3) 0 0x40 = none := by decide +kernel

def sStart : State := modTen (sOp 3) 0 fun x => { x with orders := [{ order0 .accepted with released := false, startInput := 0x41 }] }

theorem witness_EscProcessData_start : releaseStart sStart 0 0x41 = some 1 ∧ (getOrder sStart 0 1).isSome = true ∧ seqOf sStart 0 = some 0 ∧
    escRuns sStart 0 = true ∧ channelOf sStart 0 = some (escCh 0) := by decide +kernel

/-- T0 on CAN0, OPERATIONAL, with byte 64 of the output image in RPDO 0 of type `ty`. -/
def sCan (ty tt : Byte) (n : Byte) : State :=
  let s := modTen sOwn 0 fun x => { x with own := some { own0 with channel := 2 } }
  let s := modSes s 0 fun x => { x with
    rxMap := [(0, 0x62004008)], rxCount := [(0, 1)], rpdo := [(0, some ⟨0x211, ty⟩)], tpdo := [(0, some ⟨0x191, tt, 0, 0⟩)]
    tpdoSyncs := [(0, n)] }
  { s with net := { s.net with nmt := [(0, .operational)] } }

theorem witness_CanNodesAndPdos : ctrlUp (sCan 255 0 0) (canCh 0) = true ∧ boundTo (sCan 255 0 0) (canCh 0) = [0] ∧ nmt (sCan 255 0 0) 0 = .operational ∧
    channelOf (sCan 255 0 0) 0 = some (canCh 0) ∧ (16 : BitVec 7).toNat = (can (sCan 255 0 0) 0).nb.toNat + 0 ∧ sesUp (sCan 255 0 0) (tenSes 0) = true := by
  decide +kernel

theorem witness_CanPdos (y : Byte) (h : y = 240 ∨ y = 241 ∨ y = 255) :
    (∀ q : Fin 4, q ≠ 0 → (rpdoOf (sCan y 0 0) 0 q).cobId.getLsbD 31 = true) ∧ (rpdoOf (sCan y 0 0) 0 0).cobId.getLsbD 31 = false ∧
      (sCan y 0 0).obs.due = none ∧ (rpdoOf (sCan y 0 0) 0 0).ty = y ∧
      pdoEntries (ses (sCan y 0 0) 0) false 0 = [BitVec.ofNat 32 (0x62000008 + 256 * (63 + 1))] ∧ access (sCan y 0 0) 0 0x6200 (63 + 1) true = 0 := by
  obtain rfl | rfl | rfl := h <;> decide +kernel

theorem witness_CanPdos_sync (y n : Byte) (h : (y = 1 ∧ n = 0) ∨ (y = 240 ∧ n = 239) ∨ (y = 240 ∧ n = 238)) :
    (can (sCan 255 y n) 0).rpdoHeld = [] ∧ pdoEntries (ses (sCan 255 y n) 0) true 0 = [] ∧ (tpdoOf (sCan 255 y n) 0 0).cobId.getLsbD 31 = false ∧
      (tpdoOf (sCan 255 y n) 0 0).ty = y ∧ SMap.get 0 (ses (sCan 255 y n) 0).tpdoSyncs 0 = n ∧
      (∀ q : Fin 4, q ≠ 0 → (tpdoOf (sCan 255 y n) 0 q).cobId.getLsbD 31 = true) := by
  obtain ⟨rfl, rfl⟩ | ⟨rfl, rfl⟩ | ⟨rfl, rfl⟩ := h <;> decide +kernel

def sHeld : State := modCan (modSes (sCan 240 0 0) 0 fun x => { x with tpdo := [(0, some ⟨0x80000191, 0, 0, 0⟩)] }) 0
  fun x => { x with rpdoHeld := [(0, 0, [1])] }

theorem witness_CanPdos_held : (can sHeld 0).rpdoHeld = [(0, 0, [1])] ∧ (∀ q : Fin 4, (tpdoOf sHeld 0 q).cobId.getLsbD 31 = true) ∧
    boundTo sHeld (canCh 0) = [0] ∧ nmt sHeld 0 = .operational := by decide +kernel

def sSleep : State := { sOwn with clk := { sOwn.clk with sleep := .entered, gateDeep := 0x01F0FFFF } }

theorem witness_ControllersAndPorts : ctrlService sOwn 0 = .inService ∧ moduleUp sOwn = true ∧ ctrlService sOwn 1 = .inService ∧
    (let s := { sOwn with net := { sOwn.net with esc := [(1, { Esc.initial with service := .fenced })] } }
     ctrlService s 0 = .inService ∧ ctrlService s 1 ≠ .inService ∧ channelOf s 0 = some 0) ∧
    sSleep.clk.sleep = .entered ∧ wakes sSleep 0 .alControl = true ∧ refOk sSleep sSleep.clk.inUse.toNat = true ∧
    sOwn.clk.sleep ≠ .entered ∧ sOwn.net.maintOk = true ∧ usdoOf [0, 1, 0, 2, 0, 0x25, 0, 2, 0x7F, 0] = some (.download 0x2500 2 [0x7F, 0]) ∧
    ([0xFF, 0xFF] : Bytes) ≠ leBytes 2 (crc16 [1, 0, 5]).toNat := by decide +kernel

/-- A second tenant on ESC0 with an open session. -/
def sTwo : State := modSes (modTen sOwn 1 fun x => { x with own := some { own0 with tenant := 1, seq := 1, channels := 0 } }) 1 fun x => { x with isOpen := true, agreed := 4 }

theorem witness_AccessSteps_more : indexHere sOwn 0 0x1400 = false ∧ sesUp sOwn 1 = false ∧
    (let s := sTwo
     let l := locOf 0x2F00
     sesUp s 1 = true ∧ (findRow s 1 0x2F00 1).map (fun r => isWho s 1 l 1 r.rd || sharedRead s 1 l 0x2F00 1 r.acc r.rd) = some false ∧
       (findRow s 1 0x2F00 1).map (fun r => isWho s 1 l 1 r.wr) = some false) ∧
    (∀ p ∈ [(0x1000, 0), (0x2C10, 8)], ∃ r ∈ findRow sOwn 0 p.1 p.2, (r.acc = .const ∨ r.acc = .ro ∨ r.acc = .rwr) ∧
      isWho sOwn 0 (locOf p.1) p.2 r.rd = true) ∧
    (∃ r ∈ findRow sOwn 0 0x2500 2, r.ty ≠ .domain ∧ r.size ≠ 1 ∧ access sOwn 0 0x2500 2 true = 0) ∧
    (∃ r ∈ findRow sOwn 0 0x2B01 1, r.ty = .domain ∧ access sOwn 0 0x2B01 1 true = 0 ∧ initCheck sOwn 0 0x2B01 1 = 0) := by
  decide +kernel

theorem witness_RegisterWrites : ([(0x2500, 2, 2), (0x2500, 3, 1), (0x2600, 2, 2), (0x2600, 3, 2), (0x2202, 1, 2), (0x2202, 2, 2), (0x2202, 3, 2),
      (0x2202, 4, 2), (0x2203, 1, 1), (0x2203, 3, 1), (0x2204, 1, 1), (0x2204, 3, 1), (0x2C00, 2, 1)].all fun p => admits sOwn 0 p.1 p.2.1 p.2.2) = true ∧
    ([(1, 1), (2, 8), (3, 4), (4, 4), (5, 4), (6, 1)].all fun p => admits sOwn 0 0x2C10 p.1 p.2 && admits sOwn 0 0x2C17 p.1 p.2) = true ∧
    ([(4, 1), (5, 2), (6, 4), (7, 1), (8, 1), (9, 2), (10, 1)].all fun p => admits sOwn 0 0x7000 p.1 p.2 && admits sOwn 0 0x71FF p.1 p.2) = true ∧
    (admits sOwn 0 0x2B07 1 2 && admits sOwn 0 0x2B07 2 2) = true ∧
    ([(0x1400, 1, 4), (0x1403, 2, 1), (0x1800, 1, 4), (0x1803, 2, 1), (0x1800, 3, 2), (0x1803, 5, 2)].all fun p =>
      admits (sCan 255 0 0) 0 p.1 p.2.1 p.2.2) = true ∧ isDout (fch sOwn 0).mode = false ∧
    isDout (fch (modFch sOwn 0 fun x => { x with mode := 3 }) 0).mode = true := by decide +kernel

theorem witness_SegmentedTransfers_more : sesUp sOwn 1 = false ∧ access sOwn 0 0x2C10 8 true ≠ 0 ∧
    (let s := { sOwn with sup := { sOwn.sup with pfw := 2 } }
     access s 0 0x2F00 1 true = 0 ∧ initCheck s 0 0x2F00 1 ≠ 0 ∧ (ses s 0).xfer = none) ∧
    (∃ r ∈ findRow sOwn 0 0x2900 3, lengthCheck r 36141 = 0 ∧ lengthCheck r 36142 ≠ 0) ∧
    (ses (sXfer (some 36141) [1]) 0).xfer ≠ none ∧ (ses sOwn 0).xfer = none ∧ ([1] ++ zeros 36140).length = domainLimit 0x2900 := by
  refine ⟨by decide +kernel, by decide +kernel, by decide +kernel, by decide +kernel, by decide +kernel, by decide +kernel, ?_⟩
  rw [List.length_append, zeros, List.length_replicate]
  decide +kernel

theorem witness_SessionObjects_more :
    (let s := sXfer none [1]
     admits s 0 0x2002 1 2 = true ∧ (ses s 0).xfer ≠ none) ∧
    (let s := modSes sOwn 0 fun x => { x with awaits := [(0x2200, 4)] }
     admits s 0 0x2002 1 2 = true ∧ (ses s 0).xfer = none ∧ (ses s 0).awaits ≠ []) ∧
    (ses sOwn 0).awaits = [] ∧ access sPre 0 0x1000 0 false = 0 ∧ access sPre 0 0x2C10 8 true ≠ 0 ∧
    (findRow sPre 0 0x1000 0).map Row.acc ≠ some .rwr ∧ mapOpen sOwn 0 true 0 = false ∧
    (∀ tx : Bool, ∀ p : Fin 4, admits sOwn 0 ((if tx then 0x1A00 else 0x1600) + p.val) 0 1 = true ∧
      admits sPre 0 ((if tx then 0x1A00 else 0x1600) + p.val) 32 4 = true ∧ mapOpen sPre 0 tx p = true ∧
      admits sOwn 0 ((if tx then 0x1A00 else 0x1600) + p.val) 1 4 = true ∧ admits sOwn 0 (if tx then 0x1C13 else 0x1C12) (p.val + 1) 2 = true) ∧
    (canOf (sCan 255 0 0) 0).isSome = true ∧ (canOf sPre 0).isSome = false ∧
    sesUp sOwn 1 = false ∧ (ses sOwn 0).queue = [] ∧ (ses (sEmcy 0xFF01 0) 0).agreed < 1 ∧ (ses (sEmcy 0x2330 2) 0).agreed = 2 ∧ access sOwn 0 0x2502 2 false = 0 := by
  decide +kernel

theorem witness_EscStates_more :
    ctrlUp { sOwn with net := { sOwn.net with esc := [(0, { Esc.initial with service := .fenced })] } } (escCh 0) = false ∧
    layoutCheck (sEsc .preOp 0) 0 ⟨0x1800, 0, 0x1C00, 0, 0, 0⟩ = 0 ∧
    (let s := sEsc .preOp 0
     (esc s 0).al ≠ .init ∧ escOf s 0 = some 0 ∧ sesUp s (tenSes 0) = true ∧ (0 : BitVec 6) = BitVec.ofNat 6 (0 : Tenant).val) ∧
    (let s := modSes (sEsc .preOp 0) 0 fun x => { x with isOpen := false }
     (esc s 0).al ≠ .init ∧ escOf s 0 = some 0 ∧ sesUp s (tenSes 0) = false) ∧
    escOf sOwn (sesTenant 1) = none ∧ escOf (sEsc .op 0) (sesTenant 4) = some 0 ∧
    (let s := sEsc .op 0
     (indexHere s 0 0x1400 && decide (rowsOf (locOf 0x1400).base (ses s 0).agreed ≠ [])) = false ∧
       (indexHere s 0 0x2500 && decide (rowsOf (locOf 0x2500).base (ses s 0).agreed ≠ [])) = true ∧
       (indexHere s 0 0x1000 && decide (rowsOf (locOf 0x1000).base (ses s 0).agreed ≠ [])) = true ∧
       maxSub (locOf 0x1000).base (ses s 0).agreed = 0 ∧ maxSub (locOf 0x2500).base (ses s 0).agreed ≠ 0 ∧
       (findRow s 0 0x2500 0).isSome = true ∧ findRow s 0 0x2500 255 = none) ∧
    (let s := modSes (modTen (sEsc .op 0) 1 fun x => { x with own := some { own0 with tenant := 1, seq := 1, channels := 0 } }) 1
       fun x => { x with isOpen := true, agreed := 4 }
     escOf s 1 = some 0 ∧ sesUp s 1 = true ∧ access s 1 0x2B01 1 true = 0x06010000) ∧
    admits (sEsc .preOp 0) 0 0x1C32 1 2 = true ∧ admits (sEsc .op 0) 0 0x1C32 1 2 = true ∧ escOf (sEsc .op 0) (sesTenant 0) = some 0 := by
  decide +kernel

def sWait : State := modEsc (sOp 3) 0 fun x => { x with sm2 := [1], sm2Fresh := true, sm2Wait := true }

theorem witness_EscProcessData_frames : escRuns sWait 0 = true ∧ (esc sWait 0).sm2Wait = true ∧ (esc sWait 0).sm2 = 1 :: [] ∧ (esc sWait 0).al = .op ∧
    (esc sWait 0).members = [0] ∧ sWait.obs.due = none ∧ access sWait (tenSes 0) 0x6200 64 true = 0 ∧ escRuns (sEsc .preOp 0) 0 = false ∧
    escRuns (sEsc .safeOp 3) 0 = true ∧ (esc (sEsc .safeOp 3) 0).al ≠ .op ∧ (esc (sEsc .op 0) 0).syncType = 0 ∧ (esc (sEsc .op 0) 0).members = [0] ∧
    (esc (sEsc .op 1) 0).syncType ≠ 0 := by decide +kernel

theorem witness_CanNodes : canOf sOwn 0 = none ∧
    (let s := modCan (sCan 255 0 0) 0 fun x => { x with service := .failed }
     canOf s 0 = some 0 ∧ ctrlUp s (canCh 0) = false) ∧
    (let s := { (sCan 255 0 0) with net := { (sCan 255 0 0).net with nmt := [] } }
     nmt s 0 = .none ∧ ctrlUp s (canCh 0) = true) ∧ nmt (sCan 255 0 0) 0 ≠ .none ∧
    (let s := modSes (sCan 255 0 0) 0 fun x => { x with isOpen := false }
     channelOf s 0 = some (canCh 0) ∧ sesUp s (tenSes 0) = false) ∧
    (∀ r, channelOf (sCan 255 0 0) r = some (canCh 0) → (127 : BitVec 7).toNat ≠ (can (sCan 255 0 0) 0).nb.toNat + r.val) := by
  decide +kernel

theorem witness_CanPdos_takes :
    (∀ (u : Tenant) (q : Fin 4), (channelOf (sCan 255 0 0) u = some (canCh 0) ∧ (rpdoOf (sCan 255 0 0) (tenSes u) q).cobId.getLsbD 31 = false ∧
      (rpdoOf (sCan 255 0 0) (tenSes u) q).cobId.truncate 11 = 0x211#11) → u = 0 ∧ q = 0) ∧
    pdoBytes (ses (sCan 255 0 0) (tenSes 0)) false 0 = 1 ∧
    (∀ (u : Tenant) (q : Fin 4), ¬(channelOf (sCan 255 0 0) u = some (canCh 0) ∧ (rpdoOf (sCan 255 0 0) (tenSes u) q).cobId.getLsbD 31 = false ∧
      (rpdoOf (sCan 255 0 0) (tenSes u) q).cobId.truncate 11 = 0x7FF#11)) ∧
    (∀ p ∈ ([0, 241, 255] : List Byte), (tpdoOf (sCan 255 p 0) 0 0).ty = p ∧ (p.toNat = 0 ∨ 240 < p.toNat) ∧
      ((pdoEntries (ses (sCan 255 p 0) 0) true 0).flatMap (pdoGet (sCan 255 p 0) 0)).length ≤ 64) ∧
    (tpdoOf (sCan 255 1 0) 0 0).ty = 1 ∧ (tpdoOf (sCan 255 0 0) 0 1).cobId.getLsbD 31 = true := by
  decide +kernel

theorem witness_ControllersAndPorts_more :
    (let s := modCan (modEsc sOwn 0 fun x => { x with service := .fenced }) 1 fun x => { x with service := .fenced }
     ctrlService s 0 ≠ .inService ∧ canStby s 1 = true ∧ s.obs.due = none) ∧ canStby sOwn 1 = false ∧
    wakes sSleep 3 .alControl = false ∧ sSleep.obs.due = none ∧
    (let s := { sSleep with clk := { sSleep.clk with aValid := false, bValid := false } }
     s.clk.sleep = .entered ∧ wakes s 0 .alControl = true ∧ refOk s s.clk.inUse.toNat = false) ∧
    maintMessage [0x7E, 0, 0, 0, 0] = none ∧ usdoOf [] = none ∧ usdoOf (zeros 64) = none ∧ (zeros 64).length = 64 ∧
    usdoOf [0, 0x11, 0, 1, 0, 0x25] = some (.upload 0x2500 1) ∧ usdoOf [0, 1, 0, 2, 0, 0x25, 0, 1, 0x7F] = some (.download 0x2500 2 [0x7F]) ∧
    (ses sOwn 4).isOpen = true := by decide +kernel

/-! ### Hypotheses of the statements are met: clocks, supplies, starts, identity, observation -/

def sClk (f : Clocks → Clocks) : State := { sOwn with clk := f sOwn.clk }
def allOff (s : State) : State := { s with tiles := [(16, { Tile.initial with service := .spare })] }

theorem witness_ClockSettings : (admits sOwn 0 0x2200 2 1 && admits sOwn 0 0x2200 3 1 && admits sOwn 0 0x2200 5 1 && admits sOwn 0 0x2206 1 1 &&
      admits sOwn 0 (0x2201 + 0) (0 + 1) 4 && admits sOwn 0 0x2205 1 4 && admits sOwn 0 0x2205 2 4 && admits sOwn 0 0x2205 3 4 &&
      admits sOwn 0 0x2200 4 1) = true ∧ arrayActive (allOff sOwn) = false ∧ (∀ r, (ten sOwn r).orders = []) ∧ (ten sRun 0).orders ≠ [] ∧
    admits sRun 0 0x2200 4 1 = true := by decide +kernel

def sGate (w : Word) : State := allOff (sClk fun c => { c with gateRun := w, idle := 0 })

theorem witness_ClockSettings_gate : (gateMask (sGate 0x01FFFFFF)).getLsbD 20 = true ∧ blockIdle (sGate 0x01FFFFFF) 20 = true ∧
    closingNis (sGate 0x01FFFFFF) 20 = [] ∧ (sGate 0x01FFFFFF).clk.gated.getLsbD 20 = false ∧ (gateMask (sGate 0x01FFFFFF)).getLsbD 24 = true ∧
    blockIdle (sGate 0x01FFFFFF) 24 = true ∧ closingNis (sGate 0x01FFFFFF) 24 = [34] ∧ (ni (sGate 0x01FFFFFF) 34).st = .opened ∧
    (sGate 0x01FFFFFF).clk.sleep ≠ .entered := by decide +kernel

theorem witness_ClockFailures :
    (let s := allOff (sClk fun c => { c with sleep := .pending 0 })
     s.clk.sleep = .pending 0 ∧ s.fab.load = none ∧ s.fab.owed = [] ∧ arrayActive s = false ∧ ∀ t, (ten s t).orders = []) ∧
    arrayActive (sClk fun c => { c with sleep := .pending 0 }) = true ∧
    (∀ r : Fin 2, let s := sClk fun c => { c with aValid := true, bValid := true, inUse := BitVec.ofNat 2 r.val }
      s.clk.sleep ≠ .entered ∧ moduleUp s = true ∧ s.clk.inUse.toNat = r.val ∧ s.clk.inUse.toNat ≠ (1 - r).val ∧ s.clk.st = .normal ∧
        s.obs.due = none ∧ ∀ p, pllRuns s p = true) ∧
    (∀ r : Fin 2, let s := sClk fun c => { c with st := .relocking, inUse := BitVec.ofNat 2 r.val }
      s.clk.st = .relocking ∧ s.clk.inUse.toNat = r.val ∧ moduleUp s = true) ∧
    (sClk fun c => { c with st := .holdover }).clk.st = .holdover := by decide +kernel

def sSup (f : Supplies → Supplies) : State := { sOwn with sup := f sOwn.sup }

theorem witness_SupplyWarnings : sRun.sup.vcore = .normal ∧ moduleUp sRun = true ∧ (runOrder sRun 0).isSome = true ∧
    (sSup fun x => { x with vcore := .warnHold }).sup.vcore = .warnHold ∧ moduleUp (sSup fun x => { x with vcore := .warnHold }) = true ∧
    (sSup fun x => { x with vcore := .warnSafe }).sup.vcore ≠ .normal ∧ sOwn.sup.pfw = 0 ∧ sOwn.sup.vmem ≠ 2 ∧
    (sSup fun x => { x with pfw := 2 }).sup.pfw ≠ 0 ∧ sOwn.obs.due = none ∧
    (∀ a b : Bool, (sSup fun x => { x with feedA := a, feedB := b }).sup.feedA = a ∧ (sSup fun x => { x with feedA := a, feedB := b }).sup.feedB = b) := by
  decide +kernel

def sHold (c : Byte) (f : Supplies → Supplies) (low : Bool) : State :=
  { sSup f with start := { sOwn.start with mode := .held c, rstLow := low } }

theorem witness_ResetSources : sRun.start.mode = .running ∧ (∀ c ∈ ([1, 3, 4, 6] : List Byte), (sHold c id false).start.mode = .held c) ∧
    (sHold 3 id true).obs.due = none ∧ (sHold 3 (fun x => { x with vcore := .warnHold }) false).sup.vcore ≠ .normal ∧
    (sHold 1 (fun x => { x with vmem := 2 }) false).sup.vmem = 2 ∧ (sHold 4 (fun x => { x with vioLow := [0] }) false).sup.vioLow ≠ [] ∧
    (sHold 6 id true).start.rstLow = true := by decide +kernel

def passing : StartReport :=
  { completes := true, refA := true, refB := true, imagesVerified := true, pairA := true, pairB := true, badBanks := [], badHalves := []
    badTiles := [], badSequencers := [], badRouters := [], wcsDigest := true, slotA := true, slotB := true, badGroups := [], keyTest := true
    badControllers := [], escModeHigh := [], maintenancePort := true, badRecords := [], retention := true, flashCounter := true, retainedImage := true
    badHeaders := [], fabricCrc := true }

def sMode (m : ModuleMode) : State := { sOwn with start := { sOwn.start with mode := m } }
/-- T0's record is in flash and slot A holds a bitstream. -/
def sSlot : State := { modTen sOwn 0 fun x => { x with ownFlash := some own0 } with fab := { sOwn.fab with slotB := false, slots := [(0, [1])] } }

theorem witness_ColdStarts : admits sOwn 0 0x2301 1 1 = true ∧ sOwn.start.mode = .running ∧ (∀ t, (ten sOwn t).orders = []) ∧
    admits sRun 0 0x2301 1 1 = true ∧ (ten sRun 0).orders ≠ [] ∧ (sMode .failedStart).start.mode = .failedStart ∧
    (sMode (.starting 8)).start.mode = .starting 8 ∧ sOwn.fab.backup = false ∧ sOwn.ident.fw.flashFile = none ∧
    SMap.get [] sSlot.fab.slots sSlot.fab.slotB.toNat = [1] ∧ (if sSlot.fab.slotB then passing.slotB else passing.slotA) = true ∧
    SMap.get [] sOwn.fab.slots 0 = [] ∧ SMap.get [] sOwn.fab.slots 1 = [] := by decide +kernel

theorem witness_WarmStarts : sRun.start.mode = .running ∧ sRun.fab.load = none ∧ sRun.fab.loadState ≠ 2 ∧ sRun.fab.owed = [] ∧
    sRun.fab.clk ≠ .stopped ∧ sRun.fab.cfg.lines = [] ∧ (ten sRun 0).orders = [order0 .running] ∧ (order0 .running).ins = [] ∧
    admits sRun 0 0x2301 1 1 = true ∧ admits (sMode .safeShell) 0 0x2301 1 1 = true := by decide +kernel

def keyRec : Bytes := [0, 0, 1, 1, 1, 0, 0, 0] ++ zeros 5269
/-- A firmware file with an empty boot region and an empty image. -/
def fwFile : Bytes := [0, 0, 0, 1, 1, 0, 0, 0] ++ zeros 248 ++ zeros 3309

theorem witness_IdentityCommands (h : Config.mlDsaVerify [] "AZ6516/KEY" (keyRec.take 0x7B0) (keyRec.drop 0x7B0) = true) :
    admitted (withKey sOwn) 0 0x2401 1 32 ∧ (att (withKey sOwn) 0).state ≠ 1 ∧ (att (withKey sOwn) 0).state ≠ 2 ∧
      admitted (withKey sOwn) 0 0x2404 1 keyRec.length ∧ keyRec.length = 5277 ∧ leAt keyRec 0 2 = 0 ∧ leAt keyRec 2 1 = 1 ∧ leAt keyRec 3 1 = 1 ∧
      allZero (slice keyRec 8 8) = true ∧
      checkSig (withKey sOwn) (withKey sOwn).ident.ik "AZ6516/KEY" (keyRec.take 0x7B0) (keyRec.drop 0x7B0) ctrKey (BitVec.ofNat 32 (leAt keyRec 4 4)) = none ∧
      checkSig sOwn sOwn.ident.ik "AZ6516/KEY" (keyRec.take 0x7B0) (keyRec.drop 0x7B0) ctrKey (BitVec.ofNat 32 (leAt keyRec 4 4)) = some 3 := by
  refine ⟨admits_admitted (by decide +kernel), ?_, ?_, admits_admitted (by decide +kernel), ?_, ?_, ?_, ?_, ?_, sig_ok h ?_, ?_⟩ <;> decide +kernel

def sAtt (st : Byte) : State := { sOwn with ident := { sOwn.ident with att := [(0, { att sOwn 0 with state := st })], attQueue := [0] } }
def sFw : State := { sOwn with ident := { sOwn.ident with fw := { sOwn.ident.fw with state := 2, file := some fwFile } } }

theorem witness_IdentityCommands_more : (att (sAtt 1) 0).state = 1 ∧ (att (sAtt 2) 0).state = 2 ∧ (sAtt 2).ident.attQueue = 0 :: [] ∧
    admits sOwn 0 0x2403 1 3565 = true ∧ fwFile.length = 3565 ∧ (standbyOk sOwn = true ∧ sOwn.mc.patchState ≠ 1 ∧ sOwn.mc.patchState ≠ 2 ∧
      sOwn.fab.load = none ∧ sOwn.fab.owed = [] ∧ sOwn.ident.fw.state ≠ 2 ∧ sOwn.ident.fw.state ≠ 3 ∧ sOwn.ident.fw.state ≠ 4) ∧
    fwCheck sOwn (zeros 3565) = some 4 ∧ sFw.ident.fw.state = 2 ∧ sFw.ident.fw.file = some fwFile ∧ sOwn.start.pairActive = 0 ∧
    sOwn.start.pairA = true := by decide +kernel

theorem witness_IdentityCommands_firmware (hv : Config.mlDsaVerify Config.vendorKey "AZ6516/FW" (fwFile.take 0x100) (slice fwFile 0x100 3309) = true)
    (hb : slice fwFile 0x10 64 = Config.shake256 (fwBoot fwFile)) (hi : slice fwFile 0x50 64 = Config.shake256 (fwImage fwFile))
    (hg : slice fwFile 0x90 64 = Config.shake256 (imageBytes sOwn.mc.golden)) : fwCheck sOwn fwFile = none := by
  have hf : fwFormat fwFile = true := by decide +kernel
  simp only [fwCheck, hf, Bool.not_true, Bool.false_eq_true, if_false]
  rw [sig_ok hv (by decide +kernel)]
  simp [← hb, ← hi, ← hg]

def sMark (seen : Bool) (last now : DWord) : State :=
  { sOwn with time := now, obs := { sOwn.obs with tideSeen := seen, tideTime := last } }

theorem witness_TideMarks : sOwn.obs.due = none ∧ sOwn.start.mode = .running ∧ sOwn.clk.sleep ≠ .entered ∧ admits sOwn 0 0x2500 1 1 = true ∧
    (sMark false 0 0).obs.tideSeen = false ∧ (sMark false 0 0).time.toNat + 516 < 2 ^ 64 ∧
    (sMark true 1000 20757).obs.tideTime.toNat + 20000 ≤ (sMark true 1000 20757).time.toNat + 243 ∧
    (sMark true 1000 20483).obs.tideSeen = true ∧ (sMark true 1000 20483).time.toNat + 516 < (sMark true 1000 20483).obs.tideTime.toNat + 20000 := by
  decide +kernel

theorem witness_ClockSettings_more : (∀ c : FabClk, c = .full ∨ c = .quarter →
    let s := allOff { sOwn with fab := { sOwn.fab with clk := c } }
    s.fab.clk = c ∧ arrayActive s = false ∧ admits s 0 0x2200 3 1 = true) ∧
    admits sOwn 0 0x2201 4 4 = true ∧ (tile sOwn 0).polder = .awake 7 ∧ blockIdle sRun 0 = false := by
  refine ⟨?_, by decide +kernel⟩
  rintro c (rfl | rfl) <;> decide +kernel

/-- The clocks failed while tile 0 was awake; the array is dark since. -/
def sDark : State := { modTile sOwn 0 (fun x => { x with polder := .dark }) with
  clk := { sOwn.clk with st := .relocking, wasAwake := [0], freeze := true }, fab := { sOwn.fab with clk := .fosc } }

theorem witness_ClockFailures_more : (∀ b : Bool, ∀ r : Fin 2, let s := sClk fun c => { c with aValid := b, bValid := b, inUse := 2 }
      s.clk.inUse.toNat ≠ r.val ∧ s.obs.due = none ∧ (if r = 0 then s.clk.aValid else s.clk.bValid) = b) ∧
    (sClk fun c => { c with st := .relocking }).obs.due = none ∧ (sClk fun c => { c with st := .holdover }).clk.st ≠ .normal ∧
    (sClk fun c => { c with sleep := .entered }).clk.sleep = .entered ∧
    (ten { sRun with clk := { sRun.clk with sleep := .pending 0 } } 0).orders ≠ [] ∧
    (∀ c f, (cam (sClk id) c).frame = some f → f.claim = none) ∧ (runOrder sRun 0).map Order.seq = some 1 ∧
    sDark.clk.st = .relocking ∧ arrayActive sDark = false ∧ sDark.fab.clk = .fosc ∧ 0 ∈ sDark.clk.wasAwake ∧
    (tile sDark 0).polder = .dark := by
  refine ⟨by decide +kernel, by decide +kernel, by decide +kernel, by decide +kernel, by decide +kernel, ?_, by decide +kernel, by decide +kernel,
    by decide +kernel, by decide +kernel, by decide +kernel, by decide +kernel⟩
  intro c f h
  have : Cam.initial.frame = none := rfl
  simp [sClk, sOwn, cam, State.reset, this] at h

theorem witness_SupplyWarnings_more : (let s := sMode .failedStart
     moduleUp s = false ∧ s.obs.due = none) ∧ (0 : Fin 2) ≠ 1 ∧ sOwn.sup.vcore = .normal ∧
    (let s := sSup fun x => { x with pfw := 2, vmem := 2 }
     s.sup.pfw ≠ 0 ∧ s.sup.vmem = 2) ∧ (sSup fun x => { x with pfw := 2 }).sup.vmem ≠ 2 ∧
    (let s := sSup fun x => { x with vcore := .warnSafe }
     moduleUp s = true ∧ s.obs.due = none) := by decide +kernel

theorem witness_WarmStarts_sources : (sMode .safeShell).start.mode = .safeShell ∧ (sMode .failedStart).start.mode ≠ .running ∧
    (sMode .failedStart).start.mode ≠ .safeShell ∧ (sMode .failedStart).obs.due = none ∧
    (∀ c : ModuleMode, c = .running ∨ c = .safeShell ∨ c = .failedStart → ∀ d, c ≠ .held d) ∧
    (let s := sHold 3 (fun x => { x with vcore := .warnHold, vmem := 2, vioLow := [0, 1] }) true
     moduleUp s = false ∧ s.sup.vcore ≠ .normal ∧ s.sup.vmem = 2 ∧ s.sup.vioLow ≠ [] ∧ s.start.rstLow = true ∧ s.obs.due = none) := by
  refine ⟨by decide +kernel, by decide +kernel, by decide +kernel, by decide +kernel, ?_, by decide +kernel⟩
  rintro c (rfl | rfl | rfl) d <;> simp

theorem witness_ColdStarts_more : (passing.imagesVerified = true ∧ (passing.pairA = true ∨ passing.pairB = true) ∧ passing.wcsDigest = true ∧
      passing.keyTest = true ∧ passing.maintenancePort = true) ∧ passing.completes = true ∧
    admits (sMode .safeShell) 0 0x2301 1 1 = true ∧ (sHold 1 id false).start.mode = .held 1 ∧ (sHold 1 id false).sup.vcore = .normal ∧
    (sHold 1 id false).sup.vioLow = [] ∧ (sHold 1 id false).start.rstLow = false ∧ (sMode .failedStart).start.failed.toNat + 1 < 3 ∧
    3 ≤ { sOwn.start with failed := 2 }.failed.toNat + 1 ∧
    (let s := modTen sOwn 0 fun x => { x with ownFlash := some own0 }
     (ten s 0).ownFlash = some own0 ∧ passing.badRecords = [] ∧ (0 : Tenant) ∈ { passing with badRecords := [0] }.badRecords) ∧
    (∀ m, m < 20 → (rtr sOwn m).service ≠ .failed) ∧ (∀ q, q < 5 → (sqr sOwn q).service ≠ .failed ∧ stuckWords (sqr sOwn q) = []) ∧
    (tile (modTile sOwn 3 fun x => { x with service := .failed }) 3).service = .failed ∧ own0.seq = 0 ∧ own0.seq ≠ 4 ∧
    (∀ c, (sMode .failedStart).start.mode ≠ .starting c) ∧ (∀ h : HostCh, h ∈ { passing with badControllers := [0, 1, 2, 3] }.badControllers) := by
  refine ⟨?_, by decide +kernel, by decide +kernel, by decide +kernel, by decide +kernel, by decide +kernel, by decide +kernel, by decide +kernel,
    by decide +kernel, by decide +kernel, by decide +kernel, by decide +kernel, by decide +kernel, by decide +kernel, by decide +kernel, ?_, by decide⟩
  · decide +kernel
  · intro c
    simp [sMode]

theorem witness_WarmStarts_more : passing.retention = true ∧ passing.badHeaders = [] ∧ passing.retainedImage = true ∧ passing.flashCounter = true ∧
    passing.badSequencers = [] ∧ passing.fabricCrc = true ∧ passing.badControllers = [] ∧ (∀ l, 64 ≤ l → SMap.get none sRun.fab.cfg.lines l = none) ∧
    (∀ p ∈ (ten sRun 0).orders, p.seq = 1 → p = order0 .running) ∧ { passing with retention := false }.retention = false ∧
    (∀ c ∈ ([3, 4, 6] : List Byte), c ≠ 1 ∧ c ≠ 8 ∧ (sHold c id false).start.mode = .held c) ∧
    (sHold 6 id true).sup.vcore = .normal ∧ (sHold 6 id true).sup.vioLow = [] ∧ (sHold 6 id true).sup.vmem ≠ 2 ∧
    (let s := sHold 3 (fun x => { x with vcore := .warnHold }) false
     s.sup.vcore ≠ .normal ∧ s.sup.vioLow = [] ∧ s.sup.vmem ≠ 2 ∧ s.start.rstLow = false) ∧
    (let s := sHold 4 (fun x => { x with vioLow := [1] }) false
     s.sup.vcore = .normal ∧ s.sup.vmem ≠ 2 ∧ s.start.rstLow = false ∧ ∀ x ∈ s.sup.vioLow, x = 1) := by
  refine ⟨rfl, rfl, rfl, rfl, rfl, rfl, rfl, fun _ _ => rfl, ?_⟩
  decide +kernel

/-- The first record of IK, unsigned, with the counter `c`. -/
def firstKey (c : Byte) : Bytes := [0, 0, 0, 1, c, 0, 0, 0] ++ zeros 8 ++ 1 :: zeros 1951

theorem witness_IdentityCommands_keys : admits sOwn 4 0x2404 1 1968 = true ∧ (firstKey 1).length = 1968 ∧ leAt (firstKey 1) 0 2 = 0 ∧
    leAt (firstKey 1) 2 1 = 0 ∧ leAt (firstKey 1) 3 1 = 1 ∧ allZero (slice (firstKey 1) 8 8) = true ∧ sOwn.ident.ik = none ∧
    leAt (firstKey 1) 4 4 = 1 ∧ (counter sOwn ctrKey).toNat ≤ 1 ∧ allZero (slice (firstKey 1) 0x10 1952) = false ∧
    admits sOwn 0 0x2404 1 1968 = true ∧ (withKey sOwn).ident.ik ≠ none ∧ sesTenant 0 = 0 := by
  decide +kernel

theorem witness_IdentityCommands_pairs : admits (sMode .safeShell) 0 0x2403 1 3565 = true ∧ admits sOwn 0 0x2403 1 3564 = true ∧
    (∀ st ∈ ([2, 3, 4] : List Byte), admits { sOwn with ident := { sOwn.ident with fw := { sOwn.ident.fw with state := st } } } 0 0x2403 1 3565 = true) ∧
    sOwn.ident.fw.state ≠ 2 ∧ sOwn.ident.attQueue = [] ∧ (att (sAtt 1) 0).state ≠ 2 ∧ admits (sAtt 1) 0 0x2401 1 32 = true ∧
    (let s := { sOwn with start := { sOwn.start with pairB := false } }
     s.start.pairB = false ∧ s.start.pairActive = 0 ∧ s.start.pairA = true ∧ s.obs.due = none) := by
  decide +kernel

theorem witness_TideMarks_more : moduleUp sOwn = true ∧
    (let s := { sMark false 0 0 with clk := { sOwn.clk with sleep := .entered } }
     moduleUp s = true ∧ s.clk.sleep = .entered ∧ s.obs.tideSeen = false ∧ s.obs.due = none) ∧
    (moduleUp (sMode .failedStart) = false ∧ (sMode .failedStart).obs.due = none) ∧ admits (sMark true 1000 20483) 0 0x2500 1 1 = true ∧
    admits (sMark true 1000 20757) 0 0x2500 1 1 = true ∧ (sHold 6 id true).start.rstLow = true ∧ sOwn.start.rstLow = false := by
  decide +kernel
end Sys2Proof.Tests
end

