-- ==== Sys2Proof/Proofs/Frames.lean ====
section
/-! SUPPORT. What frames of commands give: single components, one after another, and reads of tiles, interfaces and tenants
that a write elsewhere leaves alone. -/

namespace Sys2Proof.Machine

/-! ### Frames -/

theorem sameIn.trans {s u v : State} {c : Comp} (h : sameIn s u c) (g : sameIn u v c) : sameIn s v c := by
  cases c <;> exact Eq.trans g h

theorem sameBut.refl (l : List Comp) (s : State) : sameBut l s s := ⟨rfl, fun c _ => by cases c <;> rfl⟩

/-- Two steps, each with its frame, have the frame that covers both. -/
theorem sameBut.trans {k l m : List Comp} {s u v : State} (h : sameBut k s u) (g : sameBut l u v)
    (hk : ∀ c ∈ k, c ∈ m) (hl : ∀ c ∈ l, c ∈ m) : sameBut m s v :=
  ⟨g.1.trans h.1, fun c hc => (h.2 c fun i => hc (hk c i)).trans (g.2 c fun i => hc (hl c i))⟩

/-! ### Tiles -/

@[simp] theorem tile_modTile_ne (s : State) {p q : Nat} (f : Tile → Tile) (h : q ≠ p) : tile (modTile s p f) q = tile s q :=
  tile_setTile_ne s _ h

@[simp] theorem ten_modTen_ne (s : State) {t v : Tenant} (f : TenantSt → TenantSt) (h : v ≠ t) :
    ten (modTen s t f) v = ten s v := ten_setTen_ne s _ h

@[simp] theorem ses_modSes_ne (s : State) {k j : SesId} (f : Session → Session) (h : j ≠ k) :
    ses (modSes s k f) j = ses s j := ses_setSes_ne s _ h

@[simp] theorem ni_modNi_ne (s : State) {n m : Nat} (f : Ni → Ni) (h : m ≠ n) : ni (modNi s n f) m = ni s m :=
  ni_setNi_ne s _ h

theorem tile_of_tiles {s u : State} (h : u.tiles = s.tiles) (p : Nat) : tile u p = tile s p := by rw [tile, h]; rfl
theorem ten_of_tenants {s u : State} (h : u.tenants = s.tenants) (t : Tenant) : ten u t = ten s t := by rw [ten, h]; rfl
theorem ses_of_ses {s u : State} (h : u.ses = s.ses) (k : SesId) : ses u k = ses s k := by rw [ses, h]; rfl

/-! ### Sluices that close -/

theorem ni_closeNi (s : State) (n : Nat) (r : FenceReason) (m : Nat) :
    ni (closeNi s n r) m = if m = n ∧ (ni s m).st = .opened then { ni s m with st := .closing r } else ni s m := by
  unfold closeNi
  by_cases hm : m = n
  · subst hm
    split <;> simp_all
  · split <;> simp [hm]

@[simp] theorem closeNi_tiles (s : State) (n : Nat) (r : FenceReason) : (closeNi s n r).tiles = s.tiles :=
  (closeNi_foot s n r (Nat.or_self _) (Foot.refl _ s)).2 .tiles rfl

@[simp] theorem tile_closeNi (s : State) (n : Nat) (r : FenceReason) (p : Nat) : tile (closeNi s n r) p = tile s p :=
  tile_of_tiles (closeNi_tiles s n r) p

/-- Of a list of interfaces that close, the open ones close, each once. -/
theorem ni_foldl_closeNi (l : List NiId) (s : State) (r : FenceReason) (m : Nat) :
    ni (l.foldl (fun u n => closeNi u n.val r) s) m =
      if (l.any fun n => decide (n.val = m)) = true ∧ (ni s m).st = .opened then { ni s m with st := .closing r } else ni s m := by
  induction l generalizing s with
  | nil => simp
  | cons n l ih =>
    rw [List.foldl_cons, ih, ni_closeNi]
    by_cases hm : m = n.val
    · by_cases ho : (ni s m).st = .opened <;> simp [hm.symm, ho]
    · have : ¬n.val = m := fun e => hm e.symm
      simp [hm, this]

/-! ### Ramps down -/

/-- What `sleepPolder` does to the tile it names. -/
def Tile.darkening (x : Tile) : Tile :=
  match x.polder with
  | .awake r => { x with polder := .down r }
  | _ => x

theorem Tile.darkening_awake {x : Tile} {r : Fin 8} (h : x.polder = .awake r) : x.darkening = { x with polder := .down r } := by
  simp [Tile.darkening, h]

theorem Tile.darkening_darkening (x : Tile) : x.darkening.darkening = x.darkening := by
  cases h : x.polder <;> simp [Tile.darkening, h]

theorem tile_sleepPolder (s : State) (p q : Nat) :
    tile (sleepPolder s p) q = if q = p then (tile s p).darkening else tile s q := by
  unfold sleepPolder Tile.darkening
  by_cases hq : q = p
  · subst hq
    split <;> simp_all
  · split <;> simp [hq]

theorem tile_foldl_sleepPolder (l : List Nat) (s : State) (q : Nat) :
    tile (l.foldl sleepPolder s) q = if q ∈ l then (tile s q).darkening else tile s q := by
  induction l generalizing s with
  | nil => rfl
  | cons p l ih =>
    rw [List.foldl_cons, ih, tile_sleepPolder]
    by_cases hq : q = p
    · subst hq
      simp [Tile.darkening_darkening]
    · simp [hq]

end Sys2Proof.Machine
end

