-- ==== Sys2Proof/Proofs/HostWrites.lean ====
section
/-! SUPPORT. A write that passes the checks of R372 has the effect of its object, and its session the answer. -/

namespace Sys2Proof.Machine

theorem ofLe_leBytes (k n : Nat) : ofLe (leBytes k n) = n % 256 ^ k := by
  induction k generalizing n with
  | zero => simp [leBytes, ofLe, Nat.mod_one]
  | succ k ih =>
    rw [leBytes, ofLe, ih, Nat.pow_succ', Nat.mod_mul]
    simp

theorem length_leBytes (k n : Nat) : (leBytes k n).length = k := by
  induction k generalizing n with
  | zero => rfl
  | succ k ih => simp [leBytes, ih]

@[simp] theorem ofNat_ofLe_byte (v : Byte) : BitVec.ofNat 8 (ofLe [v]) = v := by simp [ofLe]

@[simp] theorem ofNat_ofLe_word (w : Word) : BitVec.ofNat 32 (ofLe (leBytes 4 w.toNat)) = w := by
  rw [ofLe_leBytes, Nat.mod_eq_of_lt (by have := w.isLt; omega)]
  simp

/-! ### The end of a write -/

theorem takeMark_none {s : State} (h : s.obs.due = none) : takeMark s = s := by simp [takeMark, h]

theorem cancelSleep_none {s : State} (h : s.clk.sleep = .none) : cancelSleep s = s := by simp [cancelSleep, h]

theorem isOpen_of_sesUp {s : State} {k : SesId} (h : sesUp s k = true) : (ses s k).isOpen = true := by
  simp only [sesUp, Bool.and_eq_true] at h
  exact h.1

section
variable {s : State} {k : SesId} {index sub n : Nat}

theorem admitted.isOpen (h : admitted s k index sub n) : (ses s k).isOpen = true := isOpen_of_sesUp h.1
theorem admitted.due (h : admitted s k index sub n) : s.obs.due = none := h.2.2.2.2.1
theorem admitted.sleep (h : admitted s k index sub n) : s.clk.sleep = .none := h.2.2.2.2.2

end

theorem hostWrite_admitted {s : State} {k : SesId} {index sub : Nat} {d : Bytes} (h : admitted s k index sub d.length) :
    hostWrite s k index sub d = endWrite (objWrite s k index sub d) k index sub := by
  obtain ⟨hup, hacc, hinit, ⟨r, hrow, hlen⟩, -, -⟩ := h
  simp [hostWrite, writeBy, hup, hacc, hinit, hrow, hlen]

theorem answer_sameBut (s : State) (k : SesId) (i : Half) (b : Byte) (a : Word) (d : Bytes) :
    sameBut [.ses] s (answer s k i b a d) :=
  (answer_foot s k i b a d (by decide) (Foot.refl _ s)).sameBut

/-- A refusal that leaves the state as it is ends in the abort. -/
theorem aborts_of_objWrite {c : Instr} {s : State} {k : SesId} {index sub : Nat} {d : Bytes} {code : Word}
    (h : admitted s k index sub d.length) (hc : exec c s = .next (hostWrite s k index sub d))
    (ho : objWrite s k index sub d = (code, s)) (h0 : code ≠ 0#32) : aborts c s k code [] fun _ => True := by
  have hend : endWrite (code, s) k index sub = answer s k (BitVec.ofNat 16 index) (BitVec.ofNat 8 sub) code [] := by
    have hd : (answer s k (BitVec.ofNat 16 index) (BitVec.ofNat 8 sub) code []).obs.due = none := h.due
    simp [endWrite, h0, cancelSleep_none h.sleep, h.isOpen, takeMark_none hd]
  refine ⟨_, by rw [hc, hostWrite_admitted h, ho, hend], ?_, ?_, trivial, answer_sameBut ..⟩ <;>
    simp [answer, h0]

/-- An accepted write that has no deferred answer: what it does to the state stands, the settings in flash are measured, and the session
has its confirmation. -/
theorem accepts_of_objWrite {c : Instr} {s v : State} {k : SesId} {index sub : Nat} {d : Bytes} {l : List Comp} {eff : State → Prop}
    (h : admitted s k index sub d.length) (hc : exec c s = .next (hostWrite s k index sub d))
    (ho : objWrite s k index sub d = (0, v)) (hl : sameBut l s v) (hses : Comp.ses ∉ l) (hobs : Comp.obs ∉ l)
    (hident : Comp.ident ∈ l) (hsleep : v.clk.sleep = .none) (hdef : deferred index sub = false)
    (he : ∀ u, sameBut [.ses, .ident] v u → eff u) : accepts c s k l eff := by
  have hdue : v.obs.due = none := by rw [show v.obs = s.obs from hl.2 .obs hobs]; exact h.due
  let m := if keptInFlash index sub = true then measure v 16 0 (flashValues v) else v
  have hm : sameBut [.ident] v m :=
    (Foot.ite (measure_foot v 16 0 _ (by decide) (Foot.refl _ v)) (Foot.refl _ v)).sameBut
  have hmopen : (ses m k).isOpen = true := by
    rw [ses_of_ses (hm.2 .ses (by decide)), ses_of_ses (hl.2 .ses hses), h.isOpen]
  have hmsleep : m.clk.sleep = .none := by rw [show m.clk = v.clk from hm.2 .clk (by decide), hsleep]
  have hmdue : m.obs.due = none := by rw [show m.obs = v.obs from hm.2 .obs (by decide), hdue]
  have hend : endWrite (0, v) k index sub = answer m k (BitVec.ofNat 16 index) (BitVec.ofNat 8 sub) 0 [] := by
    have hd : (answer m k (BitVec.ofNat 16 index) (BitVec.ofNat 8 sub) 0 []).obs.due = none := hmdue
    rw [← takeMark_none hd]
    simp only [endWrite, true_and]
    rw [show (if keptInFlash index sub = true then measure v 16 0 (flashValues v) else v) = m from rfl, cancelSleep_none hmsleep]
    simp [hmopen, hdef]
  have hu := hm.trans (answer_sameBut m k (BitVec.ofNat 16 index) (BitVec.ofNat 8 sub) 0 []) (m := [.ses, .ident])
    (by decide) (by decide)
  refine ⟨_, by rw [hc, hostWrite_admitted h, ho, hend], by simp [answer], he _ hu, ?_⟩
  exact hl.trans hu (fun _ => List.mem_cons_of_mem _) (by simp [hident])

end Sys2Proof.Machine
end

