-- ==== Sys2Proof/Proofs/Gates.lean ====
section
/-! SUPPORT. Gates, sluices and the fabric's ramp: what stays of the clocks and the fabric. -/

namespace Sys2Proof.Machine

/-- From `z` to `u` the clocks are as before, no gate aside, and none closes; no region of the fabric changes its state, and the holds
of DEEP-SLEEP and of a clock failure stay as they are. -/
structure Steady (z u : State) : Prop where
  clk : u.clk = { z.clk with gated := u.clk.gated }
  gated : z.clk.gated = 0 → u.clk.gated = 0
  region : u.fab.region = z.fab.region
  holdSleep : u.field.holdSleep = z.field.holdSleep
  holdClock : u.field.holdClock = z.field.holdClock

namespace Steady
variable {z s u : State}

theorem refl (s : State) : Steady s s := ⟨rfl, id, rfl, rfl, rfl⟩

theorem trans (h : Steady z s) (g : Steady s u) : Steady z u :=
  ⟨by rw [g.clk, h.clk], fun e => g.gated (h.gated e), g.region.trans h.region, g.holdSleep.trans h.holdSleep,
    g.holdClock.trans h.holdClock⟩

/-- A step that changes neither the clocks nor the fabric nor the field side. -/
theorem frame {m : Nat} (h : Foot m s u) (hm : m &&& 0x98000000 = 0) : Steady s u := by
  have bit : ∀ c : Comp, (0x98000000 : Nat).testBit c.bit = true → sameIn s u c := fun c hc => h.2 c (by
    have := congrArg (fun n => n.testBit c.bit) hm
    simpa [Nat.testBit_and, hc] using this)
  have hclk : u.clk = s.clk := bit .clk (by decide)
  have hfab : u.fab = s.fab := bit .fab (by decide)
  have hfield : u.field = s.field := bit .field (by decide)
  exact ⟨by rw [hclk], fun e => by rw [hclk, e], by rw [hfab], by rw [hfield], by rw [hfield]⟩

theorem foldl {α : Type} {f : State → α → State} (hf : ∀ u a, Steady u (f u a)) (l : List α) (s : State) :
    Steady s (l.foldl f s) := by
  induction l generalizing s with
  | nil => exact refl s
  | cons a l ih => exact (hf s a).trans (ih _)

theorem ite {c : Prop} [Decidable c] {v : State} (h : Steady z u) (g : Steady z v) : Steady z (if c then u else v) := by
  split <;> assumption

end Steady

/-! ### Gates -/

theorem openGate_steady (s : State) (b : Nat) : Steady s (openGate s b) := by
  have hopen : Steady s { s with clk := { s.clk with gated := s.clk.gated &&& ~~~(1#25 <<< b) } } :=
    ⟨rfl, fun e => by simp [e], rfl, rfl, rfl⟩
  refine hopen.trans (Steady.foldl (fun u n => ?_) _ _)
  split
  · exact Steady.frame (openNi_foot u n (Nat.or_self _) (Foot.refl _ u)) (by decide)
  · exact Steady.frame (openNi_foot u n (Nat.or_self _) (Foot.refl _ u)) (by decide)
  · exact Steady.refl u

theorem reopenGates_steady (s : State) : Steady s (reopenGates s) := Steady.foldl openGate_steady _ s

@[simp] theorem reopenGates_tiles (s : State) : (reopenGates s).tiles = s.tiles :=
  (reopenGates_foot s (Nat.or_self _) (Foot.refl _ s)).2 .tiles rfl

@[simp] theorem reopenGates_fab (s : State) : (reopenGates s).fab = s.fab :=
  (reopenGates_foot s (Nat.or_self _) (Foot.refl _ s)).2 .fab rfl

theorem arrayActive_of_tiles {s u : State} (h : u.tiles = s.tiles) : arrayActive u = arrayActive s := by
  simp only [arrayActive, tile_of_tiles h]

theorem fabFull_reopenGates (s : State) : fabFull (reopenGates s) = fabFull s := by
  rw [fabFull, fabFull, arrayActive_of_tiles (reopenGates_tiles s), (reopenGates_steady s).clk]

/-! ### The fabric's ramp -/

theorem retargetFab_fab (s : State) : (retargetFab s).fab = { s.fab with clk := (retargetFab s).fab.clk } := by
  simp [retargetFab]

theorem retargetFab_steady (s : State) : Steady s (retargetFab s) :=
  (reopenGates_steady s).trans ⟨rfl, id, rfl, rfl, rfl⟩

theorem retargetFab_full {s : State} (h : s.fab.clk = .full) :
    (retargetFab s).fab.clk = if fabFull s then .full else .ramping false 0 := by
  cases hf : fabFull s <;> simp [retargetFab, h, fabFull_reopenGates, hf]

theorem retargetFab_quarter {s : State} (h : s.fab.clk = .quarter) :
    (retargetFab s).fab.clk = if fabFull s then .ramping true 0 else .quarter := by
  cases hf : fabFull s <;> simp [retargetFab, h, fabFull_reopenGates, hf]

end Sys2Proof.Machine
end

