-- ==== Sys2Proof/Proofs/ClockSettings.lean ====
section
/-! O54: settings of profiles, clocks and gates (R22, R24, R417, R422, R425, R427, R428, R434). -/

namespace Sys2Proof.Machine

open Sys2Proof

/-! ### The effect behind each object -/

theorem objWrite_ceiling (s : State) (k : SesId) (v : Byte) : objWrite s k 0x2200 2 [v] = applyCeiling s v := by
  show applyCeiling s (BitVec.ofNat 8 (ofLe [v])) = _
  rw [ofNat_ofLe_byte]

theorem objWrite_idle (s : State) (k : SesId) (v : Byte) : objWrite s k 0x2200 3 [v] = applyIdle s v := by
  show applyIdle s (BitVec.ofNat 8 (ofLe [v])) = _
  rw [ofNat_ofLe_byte]

theorem objWrite_deepSleep (s : State) (k : SesId) (v : Byte) : objWrite s k 0x2200 4 [v] = applyDeepSleep s k v := by
  show applyDeepSleep s k (BitVec.ofNat 8 (ofLe [v])) = _
  rw [ofNat_ofLe_byte]

theorem objWrite_rampDwell (s : State) (k : SesId) (v : Byte) : objWrite s k 0x2200 5 [v] = applyRampDwell s v := by
  show applyRampDwell s (BitVec.ofNat 8 (ofLe [v])) = _
  rw [ofNat_ofLe_byte]

theorem objWrite_refSelect (s : State) (k : SesId) (v : Byte) : objWrite s k 0x2206 1 [v] = applyRefSelect s v := by
  show applyRefSelect s (BitVec.ofNat 8 (ofLe [v])) = _
  rw [ofNat_ofLe_byte]

theorem objWrite_idleHold (s : State) (k : SesId) (t : Tenant) (w : Word) :
    objWrite s k 0x2201 (t.val + 1) (leBytes 4 w.toNat) = applyIdleHold s t w := by
  show applyIdleHold s (Fin.ofNat 4 (t.val + 1 - 1)) (BitVec.ofNat 32 (ofLe (leBytes 4 w.toNat))) = _
  rw [ofNat_ofLe_word, show Fin.ofNat 4 (t.val + 1 - 1) = t by simp [Fin.ofNat, Nat.mod_eq_of_lt t.isLt]]

theorem objWrite_gateRun (s : State) (k : SesId) (w : Word) :
    objWrite s k 0x2205 1 (leBytes 4 w.toNat) = applyGateRun s w := by
  show applyGateRun s (BitVec.ofNat 32 (ofLe (leBytes 4 w.toNat))) = _
  rw [ofNat_ofLe_word]

theorem objWrite_gateSleep (s : State) (k : SesId) (w : Word) :
    objWrite s k 0x2205 2 (leBytes 4 w.toNat) = applyGateSleep s w := by
  show applyGateSleep s (BitVec.ofNat 32 (ofLe (leBytes 4 w.toNat))) = _
  rw [ofNat_ofLe_word]

theorem objWrite_gateDeep (s : State) (k : SesId) (w : Word) :
    objWrite s k 0x2205 3 (leBytes 4 w.toNat) = applyGateDeep s w := by
  show applyGateDeep s (BitVec.ofNat 32 (ofLe (leBytes 4 w.toNat))) = _
  rw [ofNat_ofLe_word]

/-! ### Values in range and out of range -/

/-- An accepted setting that is a field of the clocks and nothing else. -/
theorem accepts_clk {c : Instr} {s : State} {k : SesId} {index sub : Nat} {d : Bytes} {y : Clocks}
    (h : admitted s k index sub d.length) (hc : exec c s = .next (hostWrite s k index sub d))
    (ho : objWrite s k index sub d = (0, { s with clk := y })) (hy : y.sleep = s.clk.sleep) (hdef : deferred index sub = false) :
    accepts c s k [.clk, .ident] fun u => u.clk = y :=
  accepts_of_objWrite h hc ho (Foot.up_clk (Foot.refl _ s) (by decide)).sameBut (by decide) (by decide) (by decide)
    (hy.trans h.sleep) hdef fun _ hu => hu.2 .clk (by decide)

theorem activeCeiling_result (s : State) (k : SesId) (v : Byte) (h : admitted s k 0x2200 2 1) :
    (v.toNat ≤ 1 → accepts (.activeCeiling k v) s k [.clk, .ident] fun u => u.clk = { s.clk with ceiling := v }) ∧
    (1 < v.toNat → aborts (.activeCeiling k v) s k 0x06090030 [] fun _ => True) :=
  ⟨fun hv => accepts_clk (d := [v]) h rfl (by rw [objWrite_ceiling, applyCeiling, if_pos hv]; rfl) rfl rfl,
    fun hv => aborts_of_objWrite (d := [v]) h rfl (by rw [objWrite_ceiling, applyCeiling, if_neg (by omega)]) (by decide)⟩

theorem rampDwell_result (s : State) (k : SesId) (v : Byte) (h : admitted s k 0x2200 5 1) :
    (2 ≤ v.toNat → v.toNat ≤ 32 →
      accepts (.rampDwell k v) s k [.clk, .ident] fun u => u.clk = { s.clk with rampDwell := v }) ∧
    (v.toNat < 2 ∨ 32 < v.toNat → aborts (.rampDwell k v) s k 0x06090030 [] fun _ => True) :=
  ⟨fun h2 h32 => accepts_clk (d := [v]) h rfl (by rw [objWrite_rampDwell, applyRampDwell, if_pos ⟨h2, h32⟩]; rfl) rfl rfl,
    fun hv => aborts_of_objWrite (d := [v]) h rfl (by rw [objWrite_rampDwell, applyRampDwell, if_neg (by omega)]) (by decide)⟩

theorem refSelect_result (s : State) (k : SesId) (v : Byte) (h : admitted s k 0x2206 1 1) :
    (v.toNat ≤ 1 → accepts (.refSelect k v) s k [.clk, .ident] fun u => u.clk = { s.clk with refSelect := v }) ∧
    (1 < v.toNat → aborts (.refSelect k v) s k 0x06090030 [] fun _ => True) :=
  ⟨fun hv => accepts_clk (d := [v]) h rfl (by rw [objWrite_refSelect, applyRefSelect, if_pos hv]; rfl) rfl rfl,
    fun hv => aborts_of_objWrite (d := [v]) h rfl (by rw [objWrite_refSelect, applyRefSelect, if_neg (by omega)]) (by decide)⟩

theorem idleProfile_result (s : State) (k : SesId) (v : Byte) (h : admitted s k 0x2200 3 1) :
    (v.toNat ≤ 1 → accepts (.idleProfile k v) s k [.noc, .fab, .clk, .ident] fun u =>
      u.clk = { s.clk with idle := v, gated := u.clk.gated } ∧ u.fab = { s.fab with clk := u.fab.clk } ∧
      (arrayActive s = false → s.fab.clk = .full → u.fab.clk = if v = 0 then .full else .ramping false 0) ∧
      (arrayActive s = false → s.fab.clk = .quarter → u.fab.clk = if v = 0 then .ramping true 0 else .quarter)) ∧
    (1 < v.toNat → aborts (.idleProfile k v) s k 0x06090030 [] fun _ => True) := by
  refine ⟨fun hv => ?_, fun hv => aborts_of_objWrite (d := [v]) h rfl
    (by rw [objWrite_idle, applyIdle, if_neg (by omega)]) (by decide)⟩
  let a := setClk s fun c => { c with idle := v }
  have hclk : (retargetFab a).clk = { s.clk with idle := v, gated := (retargetFab a).clk.gated } := (retargetFab_steady a).clk
  have hfull : arrayActive s = false → fabFull a = decide (v = 0) := fun hd => by
    rw [fabFull, show arrayActive a = arrayActive s from rfl, hd, Bool.false_or]
    rfl
  refine accepts_of_objWrite (d := [v]) (v := retargetFab a) h rfl (by rw [objWrite_idle, applyIdle, if_pos hv])
    (retargetFab_foot a (by decide) (setClk_foot s _ (by decide) (Foot.refl _ s))).sameBut (by decide) (by decide) (by decide)
    (by rw [hclk]; exact h.sleep) rfl fun u hu => ?_
  have uclk : u.clk = (retargetFab a).clk := hu.2 .clk (by decide)
  have ufab : u.fab = (retargetFab a).fab := hu.2 .fab (by decide)
  rw [uclk, ufab]
  refine ⟨hclk, retargetFab_fab a, fun hd hf => ?_, fun hd hf => ?_⟩
  · rw [retargetFab_full (s := a) hf, hfull hd]
    simp only [decide_eq_true_eq]
  · rw [retargetFab_quarter (s := a) hf, hfull hd]
    simp only [decide_eq_true_eq]

theorem idleHold_result (s : State) (k : SesId) (t : Tenant) (w : Word) (h : admitted s k 0x2201 (t.val + 1) 4) :
    (w.toNat ≤ 10000000 → accepts (.idleHold k t w) s k [.tenants, .ident] fun u =>
      ten u t = { ten s t with idleHold := w } ∧ ∀ r, r ≠ t → ten u r = ten s r) ∧
    (10000000 < w.toNat → aborts (.idleHold k t w) s k 0x06090030 [] fun _ => True) := by
  refine ⟨fun hw => ?_, fun hw => aborts_of_objWrite (d := leBytes 4 w.toNat) h rfl
    (by rw [objWrite_idleHold, applyIdleHold, if_neg (by omega)]) (by decide)⟩
  refine accepts_of_objWrite (d := leBytes 4 w.toNat) h rfl (by rw [objWrite_idleHold, applyIdleHold, if_pos hw])
    (modTen_foot s t _ (by decide) (Foot.refl _ s)).sameBut (by decide) (by decide) (by decide) h.sleep ?_ fun u hu => ?_
  · fin_cases t <;> rfl
  · have hten := fun r => ten_of_tenants (hu.2 .tenants (by decide)) r
    exact ⟨by rw [hten, ten_modTen_same], fun r hr => by rw [hten, ten_modTen_ne s _ hr]⟩

/-- A gating mask is stored and the blocks that it no longer gates run again. -/
theorem accepts_reopenGates {c : Instr} {s : State} {k : SesId} {index sub : Nat} {d : Bytes} {y : Clocks}
    (h : admitted s k index sub d.length) (hc : exec c s = .next (hostWrite s k index sub d))
    (ho : objWrite s k index sub d = (0, reopenGates { s with clk := y })) (hy : y.sleep = s.clk.sleep)
    (hdef : deferred index sub = false) :
    accepts c s k [.noc, .clk, .ident] fun u => u.clk = { y with gated := u.clk.gated } := by
  have hclk := (reopenGates_steady { s with clk := y }).clk
  refine accepts_of_objWrite h hc ho
    (reopenGates_foot _ (by decide) (Foot.up_clk (Foot.refl _ s) (by decide))).sameBut (by decide) (by decide) (by decide)
    (by rw [hclk]; exact hy.trans h.sleep) hdef fun u hu => ?_
  rw [show u.clk = _ from hu.2 .clk (by decide)]
  exact hclk

theorem div_gates_eq_zero {w : Word} : w.toNat / 2 ^ 25 = 0 ↔ w.toNat < 2 ^ 25 := by omega

theorem gateRun_result (s : State) (k : SesId) (w : Word) (h : admitted s k 0x2205 1 4) :
    (w.toNat < 2 ^ 25 → accepts (.gateRun k w) s k [.noc, .clk, .ident] fun u =>
      u.clk = { s.clk with gateRun := w, gated := u.clk.gated }) ∧
    (2 ^ 25 ≤ w.toNat → aborts (.gateRun k w) s k 0x06090030 [] fun _ => True) :=
  ⟨fun hw => accepts_reopenGates (d := leBytes 4 w.toNat) (y := { s.clk with gateRun := w }) h rfl
      (by rw [objWrite_gateRun, applyGateRun, if_pos (div_gates_eq_zero.mpr hw)]; rfl) rfl rfl,
    fun hw => aborts_of_objWrite (d := leBytes 4 w.toNat) h rfl
      (by rw [objWrite_gateRun, applyGateRun, if_neg (by rw [div_gates_eq_zero]; omega)]) (by decide)⟩

theorem gateSleep_result (s : State) (k : SesId) (w : Word) (h : admitted s k 0x2205 2 4) :
    (w.toNat < 2 ^ 25 → accepts (.gateSleep k w) s k [.noc, .clk, .ident] fun u =>
      u.clk = { s.clk with gateSleep := w, gated := u.clk.gated }) ∧
    (2 ^ 25 ≤ w.toNat → aborts (.gateSleep k w) s k 0x06090030 [] fun _ => True) :=
  ⟨fun hw => accepts_reopenGates (d := leBytes 4 w.toNat) (y := { s.clk with gateSleep := w }) h rfl
      (by rw [objWrite_gateSleep, applyGateSleep, if_pos (div_gates_eq_zero.mpr hw)]; rfl) rfl rfl,
    fun hw => aborts_of_objWrite (d := leBytes 4 w.toNat) h rfl
      (by rw [objWrite_gateSleep, applyGateSleep, if_neg (by rw [div_gates_eq_zero]; omega)]) (by decide)⟩

/-- GATE_DEEP takes the host-channel bits of a write and reads 1 in every other bit of a block (R427). -/
theorem gateDeep_bits (w : Word) (i : Nat) (hi : i < 32) :
    (0x01F0FFFF ||| (w &&& 0x000F0000) : Word).getLsbD i = if 16 ≤ i ∧ i < 20 then w.getLsbD i else decide (i < 25) := by
  have fixed : ∀ j : Fin 32, (0x01F0FFFF : Word).getLsbD j.val = decide (j.val < 25 ∧ ¬(16 ≤ j.val ∧ j.val < 20)) ∧
      (0x000F0000 : Word).getLsbD j.val = decide (16 ≤ j.val ∧ j.val < 20) := by decide
  obtain ⟨hone, hhost⟩ := fixed ⟨i, hi⟩
  rw [BitVec.getLsbD_or, BitVec.getLsbD_and, hone, hhost]
  by_cases hc : 16 ≤ i ∧ i < 20 <;> simp [hc]

theorem gateDeep_result (s : State) (k : SesId) (w : Word) (h : admitted s k 0x2205 3 4) :
    (w.toNat < 2 ^ 25 → accepts (.gateDeep k w) s k [.clk, .ident] fun u => u.clk = { s.clk with gateDeep := u.clk.gateDeep } ∧
      ∀ i, i < 32 → u.clk.gateDeep.getLsbD i = if 16 ≤ i ∧ i < 20 then w.getLsbD i else decide (i < 25)) ∧
    (2 ^ 25 ≤ w.toNat → aborts (.gateDeep k w) s k 0x06090030 [] fun _ => True) := by
  refine ⟨fun hw => ?_, fun hw => aborts_of_objWrite (d := leBytes 4 w.toNat) h rfl
      (by rw [objWrite_gateDeep, applyGateDeep, if_neg (by rw [div_gates_eq_zero]; omega)]) (by decide)⟩
  obtain ⟨u, hu, hr, hclk, hb⟩ := accepts_clk (d := leBytes 4 w.toNat)
    (y := { s.clk with gateDeep := 0x01F0FFFF ||| (w &&& 0x000F0000) }) h (c := .gateDeep k w) rfl
    (by rw [objWrite_gateDeep, applyGateDeep, if_pos (div_gates_eq_zero.mpr hw)]; rfl) rfl rfl
  exact ⟨u, hu, hr, ⟨by rw [hclk], fun i hi => by rw [hclk]; exact gateDeep_bits w i hi⟩, hb⟩

/-! ### DEEP_SLEEP -/

theorem ten_foldl_modTen (l : List Tenant) (hl : l.Nodup) (f : TenantSt → TenantSt) (s : State) (t : Tenant) :
    ten (l.foldl (fun u r => modTen u r f) s) t = if t ∈ l then f (ten s t) else ten s t := by
  induction l generalizing s with
  | nil => rfl
  | cons r l ih =>
    obtain ⟨hr, hl⟩ := List.nodup_cons.mp hl
    rw [List.foldl_cons, ih hl]
    by_cases ht : t = r
    · subst ht
      simp [hr]
    · simp [ht]

theorem noOrders_iff (s : State) : noOrders s = true ↔ ∀ t, (ten s t).orders = [] := by
  simp [noOrders, allTenants]

/-- The state that an accepted DEEP_SLEEP leaves, before its session learns anything: awake polders ramp down, no idle hold runs, the
entry is pending. -/
def sleepPending (s : State) (k : SesId) : State :=
  setClk (allTenants.foldl (fun u t => modTen u t fun x => { x with holdRunning := false }) ((List.range 17).foldl sleepPolder s))
    fun c => { c with sleep := .pending k }

theorem applyDeepSleep_accepted {s : State} {k : SesId} (ho : noOrders s = true) (hs : s.clk.sleep = .none) :
    applyDeepSleep s k 1 = (0, sleepPending s k) := by
  rw [applyDeepSleep, if_neg (by simp), if_neg (by simp [ho, hs])]
  rfl

theorem sleepPending_sameBut {s : State} {k : SesId} (ho : noOrders s = true) (hs : s.clk.sleep = .none) :
    sameBut [.tiles, .tenants, .noc, .clk] s (sleepPending s k) := by
  have h := applyDeepSleep_foot (m := maskOf [.tiles, .tenants, .noc, .clk]) s k 1 (by decide) (Foot.refl _ s)
  rw [applyDeepSleep_accepted ho hs] at h
  exact h.sameBut

theorem foldl_modTen_foot (l : List Tenant) (f : TenantSt → TenantSt) (s : State) :
    Foot 0x800 s (l.foldl (fun u t => modTen u t f) s) :=
  Foot.foldl (Foot.refl _ s) fun u t h => modTen_foot u t f (Nat.or_self _) h

theorem foldl_sleepPolder_foot (l : List Nat) (s : State) : Foot 0x800004 s (l.foldl sleepPolder s) :=
  Foot.foldl (Foot.refl _ s) fun u p h => sleepPolder_foot u p (Nat.or_self _) h

theorem ten_setClk (s : State) (f : Clocks → Clocks) (t : Tenant) : ten (setClk s f) t = ten s t := rfl
theorem tile_setClk (s : State) (f : Clocks → Clocks) (p : Nat) : tile (setClk s f) p = tile s p := rfl

theorem sleepPending_clk (s : State) (k : SesId) : (sleepPending s k).clk = { s.clk with sleep := .pending k } := by
  have hten : (allTenants.foldl (fun u t => modTen u t fun x => { x with holdRunning := false })
      ((List.range 17).foldl sleepPolder s)).clk = ((List.range 17).foldl sleepPolder s).clk :=
    (foldl_modTen_foot allTenants _ _).2 .clk (by decide)
  have htile : ((List.range 17).foldl sleepPolder s).clk = s.clk :=
    (foldl_sleepPolder_foot (List.range 17) s).2 .clk (by decide)
  rw [sleepPending, setClk, hten, htile]

theorem ten_sleepPending (s : State) (k : SesId) (t : Tenant) :
    ten (sleepPending s k) t = { ten s t with holdRunning := false } := by
  rw [sleepPending, ten_setClk, ten_foldl_modTen allTenants (by decide), if_pos (by simp [allTenants]),
    ten_of_tenants ((foldl_sleepPolder_foot (List.range 17) s).2 .tenants (by decide))]

theorem tile_sleepPending (s : State) (k : SesId) {p : Nat} (hp : p < 17) :
    tile (sleepPending s k) p = (tile s p).darkening := by
  rw [sleepPending, tile_setClk, tile_of_tiles ((foldl_modTen_foot allTenants _ _).2 .tiles (by decide)),
    tile_foldl_sleepPolder, if_pos (List.mem_range.mpr hp)]

/-- An accepted write whose answer is deferred and whose object is not measured: the session awaits its confirmation. -/
theorem endWrite_deferred {v : State} {k : SesId} {index sub : Nat} (hopen : (ses v k).isOpen = true) (hdue : v.obs.due = none)
    (hsleep : cancelSleep v = v) (hflash : keptInFlash index sub = false) (hdef : deferred index sub = true) :
    endWrite (0, v) k index sub = modSes v k fun x => { x with
      awaits := (BitVec.ofNat 16 index, BitVec.ofNat 8 sub) :: x.awaits, reply := none } := by
  simp only [endWrite, hflash, hdef, hsleep, hopen, true_and, Bool.false_eq_true, if_false, if_true, Bool.not_true]
  exact takeMark_none hdue

theorem deepSleep_result (s : State) (k : SesId) (v : Byte) (h : admitted s k 0x2200 4 1) :
    (v ≠ 1 → aborts (.deepSleep k v) s k 0x06090030 [] fun _ => True) ∧
    ((∃ r, (ten s r).orders ≠ []) → aborts (.deepSleep k 1) s k 0x08000022 [] fun _ => True) ∧
    ((∀ r, (ten s r).orders = []) → runs (.deepSleep k 1) s [.tiles, .tenants, .noc, .ses, .clk] fun u =>
      (ses u k).reply = none ∧ (0x2200, 4) ∈ (ses u k).awaits ∧ u.clk = { s.clk with sleep := .pending k } ∧
      (∀ r, ten u r = { ten s r with holdRunning := false }) ∧
      ∀ p, p < 17 → ∀ x, (tile s p).polder = .awake x → (tile u p).polder = .down x) := by
  refine ⟨fun hv => ?_, fun ⟨r, hr⟩ => ?_, fun ho => ?_⟩
  · exact aborts_of_objWrite (d := [v]) h rfl (by rw [objWrite_deepSleep, applyDeepSleep, if_pos hv]) (by decide)
  · have hn : noOrders s = false := by
      rw [Bool.eq_false_iff]
      exact fun hn => hr ((noOrders_iff s).mp hn r)
    exact aborts_of_objWrite (d := [1]) h rfl
      (by rw [objWrite_deepSleep, applyDeepSleep, if_neg (by simp), if_pos (by simp [hn])]) (by decide)
  · have hn := (noOrders_iff s).mpr ho
    let v := sleepPending s k
    have hv : sameBut [.tiles, .tenants, .noc, .clk] s v := sleepPending_sameBut hn h.sleep
    have hcancel : cancelSleep v = v := by
      have hsleep : v.clk.sleep = .pending k := by rw [show v.clk = _ from sleepPending_clk s k]
      have hnone : noOrders v = true := (noOrders_iff v).mpr fun r => by rw [show ten v r = _ from ten_sleepPending s k r]; exact ho r
      simp [cancelSleep, hsleep, hnone]
    have hend := endWrite_deferred (v := v) (k := k) (index := 0x2200) (sub := 4)
      (by rw [ses_of_ses (hv.2 .ses (by decide)), h.isOpen]) (by rw [show v.obs = s.obs from hv.2 .obs (by decide), h.due])
      hcancel (by decide) (by decide)
    have hexec : exec (.deepSleep k 1) s = .next (endWrite (0, v) k 0x2200 4) := by
      show Host.Outcome.next (hostWrite s k 0x2200 4 [1]) = _
      rw [hostWrite_admitted (d := [1]) h, objWrite_deepSleep, applyDeepSleep_accepted hn h.sleep]
    have htile : ∀ p, p < 17 → tile v p = (tile s p).darkening := fun p => tile_sleepPending s k
    have hclk : v.clk = { s.clk with sleep := .pending k } := sleepPending_clk s k
    have hten : ∀ r, ten v r = { ten s r with holdRunning := false } := ten_sleepPending s k
    clear_value v
    refine ⟨_, hexec.trans (congrArg _ hend), ⟨?_, ?_, hclk, hten, fun p hp x hx => ?_⟩, ?_⟩
    · rw [ses_modSes_same]
    · rw [ses_modSes_same]
      exact List.mem_cons_self
    · show (tile v p).polder = _
      rw [htile p hp, Tile.darkening_awake hx]
    · exact hv.trans (modSes_foot v k _ (m := maskOf [.ses]) (by decide) (Foot.refl _ v)).sameBut (by decide) (by decide)

/-! ### CLOCK_GATE_IDLE -/

theorem closingNis_nil_gates {s : State} {b : Fin 25}
    (h : ((gateMask s).getLsbD b && blockIdle s b && !s.clk.gated.getLsbD b && decide (s.clk.sleep ≠ .entered)) = true)
    (hl : closingNis s b = []) : exec (.clockGateIdle b) s = .next { s with clk :=
      { s.clk with gated := s.clk.gated ||| (1#25 <<< b.val) } } := by
  show execClockGateIdle b s = _
  rw [execClockGateIdle, if_pos h, hl]
  rfl

theorem closingNis_cons_closes {s : State} {b : Fin 25}
    (h : ((gateMask s).getLsbD b && blockIdle s b && !s.clk.gated.getLsbD b && decide (s.clk.sleep ≠ .entered)) = true)
    (hl : closingNis s b ≠ []) :
    exec (.clockGateIdle b) s = .next ((closingNis s b).foldl (fun u n => closeNi u n.val .dark) s) := by
  show execClockGateIdle b s = _
  rw [execClockGateIdle, if_pos h]
  split
  · exact absurd ‹_› hl
  · rfl

theorem clockGateIdle_result (s : State) (b : Fin 25) :
    let gates := (gateMask s).getLsbD b && blockIdle s b && !s.clk.gated.getLsbD b && decide (s.clk.sleep ≠ .entered)
    (gates = true → closingNis s b = [] → runs (.clockGateIdle b) s [.clk] fun u =>
      u.clk = { s.clk with gated := s.clk.gated ||| (1#25 <<< b.val) }) ∧
    (gates = true → closingNis s b ≠ [] → runs (.clockGateIdle b) s [.noc] fun u => ∀ m, ni u m =
      if ((closingNis s b).any fun n => decide (n.val = m)) = true ∧ (ni s m).st = .opened then { ni s m with st := .closing .dark }
      else ni s m) ∧
    (gates = false → exec (.clockGateIdle b) s = .next s) := by
  refine ⟨fun hg hl => ?_, fun hg hl => ?_, fun hg => ?_⟩
  · exact ⟨_, closingNis_nil_gates hg hl, rfl, (Foot.up_clk (Foot.refl _ s) (by decide)).sameBut⟩
  · exact ⟨_, closingNis_cons_closes hg hl, ni_foldl_closeNi _ s .dark,
      (Foot.foldl (Foot.refl _ s) fun u n h => closeNi_foot u n.val .dark (by decide) h).sameBut⟩
  · show execClockGateIdle b s = _
    rw [execClockGateIdle, if_neg (by rw [hg]; decide)]

/-- Settles O54: each setting by the object that its command writes, DEEP_SLEEP by the state that leaves its entry pending, the gates by
the interfaces that they close. -/
theorem clockSettings : Obligations.ClockSettings := by
  unfold Obligations.ClockSettings
  intro s k t v w b
  exact ⟨activeCeiling_result s k v, idleProfile_result s k v, rampDwell_result s k v, refSelect_result s k v,
    idleHold_result s k t w, gateRun_result s k w, gateSleep_result s k w, gateDeep_result s k w, deepSleep_result s k v,
    clockGateIdle_result s b⟩

end Sys2Proof.Machine
end

