-- ==== Sys2Proof/Proofs/Polders.lean ====
section
/-! SUPPORT. Power states of polders: which operations keep them, and what a re-execution finds awake stays awake. -/

namespace Sys2Proof.Machine

/-- Every polder is in the same state in `u` as in `s`. -/
def SamePolders (s u : State) : Prop := ∀ q, (tile u q).polder = (tile s q).polder

namespace SamePolders
variable {z s u : State}

theorem refl (s : State) : SamePolders s s := fun _ => rfl

theorem trans (h : SamePolders z s) (g : SamePolders s u) : SamePolders z u := fun q => (g q).trans (h q)

/-- A step that changes no tile at all. -/
theorem frame {m : Nat} (h : Foot m s u) (hm : m.testBit 2 = false) : SamePolders s u := fun q => by
  rw [tile_of_tiles (h.2 .tiles hm)]

theorem modTile (s : State) (p : Nat) {f : Tile → Tile} (hf : ∀ x, (f x).polder = x.polder) :
    SamePolders s (Machine.modTile s p f) := fun q => by
  by_cases hq : q = p
  · subst hq
    rw [tile_modTile_same, hf]
  · rw [tile_modTile_ne s f hq]

theorem foldl {α : Type} {f : State → α → State} (hf : ∀ u a, SamePolders u (f u a)) (l : List α) (s : State) :
    SamePolders s (l.foldl f s) := by
  induction l generalizing s with
  | nil => exact refl s
  | cons a l ih => exact (hf s a).trans (ih _)

end SamePolders

/-! ### Orders that settle -/

theorem endWindow_samePolders (s : State) (t : Tenant) : SamePolders s (endWindow s t) := by
  have hfold := SamePolders.foldl (fun u p => SamePolders.modTile u p.val (f := fun x => { x with errorOpen := false })
    fun _ => rfl) (physTiles s (ownTiles s t)) s
  unfold endWindow
  dsimp only
  split
  · exact hfold.trans (SamePolders.frame (modSqr_foot _ _ _ (Nat.or_self _) (Foot.refl _ _)) (by decide))
  · exact hfold

theorem settle_samePolders (s : State) (t : Tenant) (o : Order) (r : Record) : SamePolders s (settle s t o r) := by
  unfold settle
  dsimp only
  generalize hx : storeRecords _ t _ = x
  have hstore : Foot 0x254801 s x := by
    subst hx
    exact storeRecords_foot _ t _ (by decide) (journalWrite_foot _ t (by decide) (modTen_foot s t _ (by decide) (Foot.refl _ s)))
  have hx := SamePolders.frame hstore (by decide)
  split
  · exact hx.trans ((SamePolders.frame (dropCtx_foot (m := 0x300) _ t (by decide) (quiet_foot x t (by decide) (Foot.refl _ x)))
      (by decide)).trans ((endWindow_samePolders _ t).trans
        (SamePolders.frame (placeFrame_foot _ t (Nat.or_self _) (Foot.refl _ _)) (by decide))))
  · exact hx

theorem abortOrder_samePolders (s : State) (t : Tenant) (o : Order) (c : Byte) : SamePolders s (abortOrder s t o c) :=
  (SamePolders.frame (dropFrames_foot s t o.seq (Nat.or_self _) (Foot.refl _ s)) (by decide)).trans
    (settle_samePolders _ t o _)

/-! ### What a tenant owns -/

theorem flushRecs_own (x : TenantSt) : (flushRecs x).own = x.own := by
  have hfold : ∀ (l : List Record) (y : TenantSt), (l.foldl appendRec y).own = y.own := by
    intro l
    induction l with
    | nil => exact fun _ => rfl
    | cons r l ih => exact fun y => ih (appendRec y r)
  exact hfold _ _

theorem modTen_own (s : State) (t v : Tenant) {f : TenantSt → TenantSt} (hf : ∀ x, (f x).own = x.own) :
    (ten (modTen s t f) v).own = (ten s v).own := by
  by_cases hv : v = t
  · subst hv
    rw [ten_modTen_same, hf]
  · rw [ten_modTen_ne s f hv]

theorem setOrder_own (s : State) (t : Tenant) (o : Order) (v : Tenant) : (ten (setOrder s t o) v).own = (ten s v).own :=
  modTen_own s t v fun _ => rfl

theorem placeFrame_own (s : State) (t v : Tenant) : (ten (placeFrame s t) v).own = (ten s v).own := by
  unfold placeFrame
  dsimp only
  split
  · exact modTen_own s t v fun _ => rfl
  · rfl

theorem settle_own (s : State) (t : Tenant) (o : Order) (r : Record) (v : Tenant) :
    (ten (settle s t o r) v).own = (ten s v).own := by
  unfold settle
  dsimp only
  generalize hy : modTen s t _ = y
  have hown : (ten y v).own = (ten s v).own := by
    subst hy
    exact modTen_own s t v fun x => flushRecs_own _
  have hstore := storeRecords_foot (m := 0x254001) _ t (ten s t).records.length (by decide)
    (journalWrite_foot y t (by decide) (Foot.refl _ y))
  split
  · have hend := endWindow_foot (m := 0x254305) _ t (by decide)
      (dropCtx_foot _ t (by decide) (quiet_foot _ t (by decide) (storeRecords_foot _ t (ten s t).records.length (by decide)
        (journalWrite_foot y t (by decide) (Foot.refl _ y)))))
    rw [placeFrame_own, ten_of_tenants (hend.2 .tenants (by decide)), hown]
  · rw [ten_of_tenants (hstore.2 .tenants (by decide)), hown]

theorem abortOrder_own (s : State) (t : Tenant) (o : Order) (c : Byte) (v : Tenant) :
    (ten (abortOrder s t o c) v).own = (ten s v).own := by
  rw [abortOrder, settle_own, ten_of_tenants ((dropFrames_foot s t o.seq (Nat.or_self _) (Foot.refl _ s)).2 .tenants (by decide))]

theorem physTiles_ownTiles {s u : State} {t : Tenant} (hm : u.map = s.map) (ho : (ten u t).own = (ten s t).own) :
    physTiles u (ownTiles u t) = physTiles s (ownTiles s t) := by
  have hown : ownTiles u t = ownTiles s t := by simp only [ownTiles, ho]
  have hphys : physOf u = physOf s := by
    funext n
    simp only [physOf, hm]
  rw [physTiles, physTiles, hown, hphys]

/-! ### Wakes that find the polders awake -/

theorem tilesAwake_iff (s : State) (t : Tenant) :
    tilesAwake s t = true ↔ ∀ p ∈ physTiles s (ownTiles s t), (tile s p.val).polder.isAwake = true := by
  simp [tilesAwake]

theorem tilesAwake_of {s u : State} {t : Tenant} (hp : SamePolders s u) (hm : u.map = s.map) (ho : (ten u t).own = (ten s t).own)
    (h : tilesAwake s t = true) : tilesAwake u t = true := by
  rw [tilesAwake_iff] at h ⊢
  intro p hmem
  rw [hp]
  exact h p (by rwa [physTiles_ownTiles hm ho] at hmem)

theorem wakePolder_awake {s : State} {p : Nat} (h : (tile s p).polder.isAwake = true) : wakePolder s p = s := by
  unfold wakePolder
  split <;> simp_all [Polder.isAwake]

theorem foldl_wakePolder_awake {s : State} {l : List TileId} (h : ∀ p ∈ l, (tile s p.val).polder.isAwake = true) :
    l.foldl (fun u p => wakePolder u p.val) s = s := by
  induction l with
  | nil => rfl
  | cons p l ih =>
    rw [List.foldl_cons, wakePolder_awake (h p List.mem_cons_self)]
    exact ih fun q hq => h q (List.mem_cons_of_mem p hq)

theorem openGate_samePolders (s : State) (b : Nat) : SamePolders s (openGate s b) :=
  SamePolders.frame (openGate_foot s b (Nat.or_self _) (Foot.refl _ s)) (by decide)

theorem wakeTenant_samePolders {s : State} {t : Tenant} (h : tilesAwake s t = true) : SamePolders s (wakeTenant s t) := by
  have hwake : ∀ u : State, SamePolders s u → u.map = s.map → (ten u t).own = (ten s t).own →
      SamePolders s (retargetFab ((physTiles u (ownTiles u t)).foldl (fun v p => wakePolder v p.val) u)) := by
    intro u hp hm ho
    rw [foldl_wakePolder_awake ((tilesAwake_iff u t).mp (tilesAwake_of hp hm ho h))]
    exact hp.trans (SamePolders.frame (retargetFab_foot u (Nat.or_self _) (Foot.refl _ u)) (by decide))
  unfold wakeTenant
  dsimp only
  cases hq : seqOf s t with
  | none => exact hwake s (SamePolders.refl s) rfl rfl
  | some q =>
    have hfoot := openGate_foot s q.val (Nat.or_self _) (Foot.refl _ s)
    exact hwake _ (openGate_samePolders s q.val) (hfoot.2 .map (by decide)) (by rw [ten_of_tenants (hfoot.2 .tenants (by decide))])

theorem kick_samePolders {s : State} {t : Tenant} (h : tilesAwake s t = true) : SamePolders s (kick s t) := by
  unfold kick
  split
  · exact (wakeTenant_samePolders h).trans (SamePolders.frame (modTen_foot _ t _ (Nat.or_self _) (Foot.refl _ _)) (by decide))
  · exact SamePolders.refl s

/-! ### Re-execution -/

theorem scrubTiles_samePolders (s : State) (ps : List TileId) : SamePolders s (scrubTiles s ps) := by
  unfold scrubTiles
  dsimp only
  generalize hx : ps.foldl _ (List.foldl _ s _) = x
  have hpe : Foot 0x90 s x := by
    subst hx
    exact Foot.foldl (Foot.foldl (Foot.refl _ s) fun u r h => scramble_foot u ps r (by decide) h) fun u p h =>
      Foot.foldl h fun v i h => setPe_foot v _ _ (by decide) h
  refine (SamePolders.frame hpe (by decide)).trans ((SamePolders.foldl (fun u p => ?_) ps x).trans
    (SamePolders.frame (bump_foot _ (Nat.or_self _) (Foot.refl _ _)) (by decide)))
  exact (SamePolders.frame (Foot.up_peBad (m := 0x40) (Foot.refl _ u) (by decide)) (by decide)).trans
    (SamePolders.modTile _ p.val fun _ => rfl)

/-- The stages of a re-execution: gate and scrub, then sequencer and order, then the berm marks of the tiles, then the rest. -/
theorem reexecNow_stages (s : State) (t : Tenant) (o : Order) (q : SeqId) : ∃ s2 b,
    Foot 0x970 (scrubTiles (openGate s q.val) (physTiles s (ownTiles s t))) s2 ∧
    Foot 0x804B0ABF1 ((physTiles s (ownTiles s t)).foldl (fun u p => modTile u p.val fun x => { x with reclaimed := b }) s2)
      (reexecNow s t o q) := by
  unfold reexecNow
  dsimp only
  generalize scrubTiles _ _ = s1
  split
  · rename_i k _
    generalize hs2 : setOrder _ t _ = s2
    refine ⟨s2, k.reclaimed, ?_, ?_⟩
    · subst hs2
      exact setOrder_foot _ t _ (by decide) (modSqr_foot s1 q.val _ (by decide) (Foot.refl _ s1))
    generalize List.foldl _ s2 (physTiles s (ownTiles s t)) = s3
    refine dropPending_foot _ t (by decide) ?_
    generalize hs5 : List.foldl _ (reland _ t _ _) _ = s5
    have h5 : Foot 0x804B0ABF1 s3 s5 := by
      subst hs5
      exact Foot.foldl (reland_foot _ t _ _ (by decide) (restorePlanes_foot _ t k (by decide)
        (reland_foot s3 t _ _ (by decide) (Foot.refl _ s3)))) fun u b h => landBands_foot u t o.seq b (by decide) h
    split <;> split
    · exact dropCtx_foot s5 t (by decide) h5
    · exact loadCtx_foot s5 t _ _ _ (by decide) h5
    · exact Foot.ite h5 (loadCtx_foot s5 t _ _ _ (by decide) h5)
    · exact h5
  · generalize hs2 : startPes _ t = s2
    refine ⟨s2, false, ?_, ?_⟩
    · subst hs2
      exact startPes_foot _ t (by decide) (setOrder_foot _ t _ (by decide) (modSqr_foot s1 q.val _ (by decide) (Foot.refl _ s1)))
    generalize List.foldl _ s2 (physTiles s (ownTiles s t)) = s3
    exact dropCtx_foot _ t (by decide) (Foot.foldl (reland_foot s3 t o.seq _ (by decide)
      (Foot.refl _ s3)) fun u b h => landBands_foot u t o.seq b (by decide) h)

theorem reexecNow_samePolders (s : State) (t : Tenant) (o : Order) (q : SeqId) : SamePolders s (reexecNow s t o q) := by
  obtain ⟨s2, b, hfirst, hlast⟩ := reexecNow_stages s t o q
  have hmarks := SamePolders.foldl (fun u p => SamePolders.modTile u p.val (f := fun x => { x with reclaimed := b })
    fun _ => rfl) (physTiles s (ownTiles s t)) s2
  exact (openGate_samePolders s q.val).trans ((scrubTiles_samePolders _ _).trans ((SamePolders.frame hfirst (by decide)).trans
    (hmarks.trans (SamePolders.frame hlast (by decide)))))

/-- A re-execution starts only where the tenant's tiles are AWAKE, so even the wake of the order that follows an aborted one changes
no polder. -/
theorem tryReexec_samePolders (s : State) (t : Tenant) : SamePolders s (tryReexec s t) := by
  unfold tryReexec
  split
  · rename_i o q _ _
    dsimp only
    split
    · rename_i hready
      have hawake : tilesAwake s t = true := by
        simp only [reexecReady, Bool.and_eq_true] at hready
        exact hready.1.1.2
      have hread := readBack_foot s t o (Nat.or_self _) (Foot.refl _ s)
      have hset := setOrder_foot (m := 0x800100801) (readBack s t o).1 t (readBack s t o).2 (by decide)
        (readBack_foot s t o (by decide) (Foot.refl _ s))
      have hfirst : SamePolders s (setOrder (readBack s t o).1 t (readBack s t o).2) := SamePolders.frame hset (by decide)
      split
      · have habort := hfirst.trans (abortOrder_samePolders _ t (readBack s t o).2 0x0B)
        refine habort.trans (kick_samePolders (tilesAwake_of habort ?_ ?_ hawake))
        · exact (abortOrder_foot (m := 0xFFFFFFFF7) _ t _ _ (by decide) (setOrder_foot _ t _ (by decide)
            (readBack_foot s t o (by decide) (Foot.refl _ s)))).2 .map (by decide)
        · rw [abortOrder_own, setOrder_own, ten_of_tenants (hread.2 .tenants (by decide))]
      · exact hfirst.trans (reexecNow_samePolders _ t _ q)
    · exact SamePolders.refl s
  · exact SamePolders.refl s

theorem tryReexec_of_idle {s : State} {t : Tenant} (h : runOrder s t = none) : tryReexec s t = s := by
  simp [tryReexec, h]

theorem landOldest_tiles (s : State) (t : Tenant) : (landOldest s t).tiles = s.tiles :=
  (landOldest_foot s t (Nat.or_self _) (Foot.refl _ s)).2 .tiles (by decide)

theorem onAwake_samePolders (s : State) (t : Tenant) : SamePolders s (onAwake s t) :=
  (tryReexec_samePolders s t).trans fun q => by rw [onAwake, tile_of_tiles (landOldest_tiles _ t)]

theorem tile_onAwake_of_idle {s : State} {t : Tenant} (h : runOrder s t = none) (q : Nat) : tile (onAwake s t) q = tile s q := by
  rw [onAwake, tile_of_tiles (landOldest_tiles _ t), tryReexec_of_idle h]

theorem onAwake_of_no_orders {s : State} {t : Tenant} (h : (ten s t).orders = []) : onAwake s t = s := by
  rw [onAwake, tryReexec_of_idle (by simp [runOrder, h]), landOldest, h]

end Sys2Proof.Machine
end

