-- ==== Sys2Proof/Proofs/PolderRamps.lean ====
section
/-! O32: ramps of polders and the end of an idle hold (R17, R24, R62, R422, R423). -/

namespace Sys2Proof.Machine

open Sys2Proof

/-! ### Interfaces -/

@[simp] theorem ni_modTile (s : State) (p : Nat) (f : Tile → Tile) (n : Nat) : ni (modTile s p f) n = ni s n := rfl

theorem ni_setNiSt_ne (s : State) {n m : Nat} (st : NiState) (h : m ≠ n) : ni (setNiSt s n st) m = ni s m := by
  unfold setNiSt
  split
  · rfl
  · split
    · rfl
    · exact ni_modNi_ne s _ h

/-- An interface that is not unused takes any sluice state but OPEN. -/
theorem ni_setNiSt_same {s : State} {n : Nat} {st : NiState} (hu : (ni s n).st ≠ .unused) (ho : st ≠ .opened) :
    (ni (setNiSt s n st) n).st = st := by
  rw [setNiSt, if_neg hu, if_neg (by simp [ho]), ni_modNi_same]

theorem ni_openNi_ne (s : State) {n : NiId} {m : Nat} (h : m ≠ n.val) : ni (openNi s n) m = ni s m := by
  have hopen : ∀ u : State, ni (if (ni (setNiSt u n.val .opened) n.val).st = .opened then
      sendClear (setNiSt u n.val .opened) n n false else setNiSt u n.val .opened) m = ni u m := fun u => by
    split <;> exact ni_setNiSt_ne u .opened h
  unfold openNi
  dsimp only
  split
  · exact hopen s
  · exact hopen s
  · rfl

theorem ni_openGate_ne (s : State) {b m : Nat} (h : ∀ n ∈ gateNis b, m ≠ n.val) : ni (openGate s b) m = ni s m := by
  have hfold : ∀ (l : List NiId) (u : State), (∀ n ∈ l, m ≠ n.val) →
      ni (l.foldl (fun v n => match (ni v n.val).st with
        | .drained .dark => openNi v n
        | .fenced .dark => openNi v n
        | _ => v) u) m = ni u m := by
    intro l
    induction l with
    | nil => exact fun _ _ => rfl
    | cons n l ih =>
      intro u hl
      rw [List.foldl_cons, ih _ fun k hk => hl k (List.mem_cons_of_mem n hk)]
      split
      · exact ni_openNi_ne u (hl n List.mem_cons_self)
      · exact ni_openNi_ne u (hl n List.mem_cons_self)
      · rfl
  exact hfold _ _ h

theorem tileNi_not_gated : ∀ p : TileId, ∀ b : Fin 25, ∀ n ∈ gateNis b.val, (tileNi p.val).val ≠ n.val := by decide

/-- No gate touches the interface of a tile. -/
theorem ni_reopenGates_tileNi (s : State) (p : TileId) : ni (reopenGates s) (tileNi p.val).val = ni s (tileNi p.val).val := by
  have hfold : ∀ (l : List Nat) (u : State), (∀ b ∈ l, b < 25) → ni (l.foldl openGate u) (tileNi p.val).val =
      ni u (tileNi p.val).val := by
    intro l
    induction l with
    | nil => exact fun _ _ => rfl
    | cons b l ih =>
      intro u hl
      rw [List.foldl_cons, ih _ fun k hk => hl k (List.mem_cons_of_mem b hk)]
      exact ni_openGate_ne u (tileNi_not_gated p ⟨b, hl b List.mem_cons_self⟩)
  exact hfold _ _ fun b hb => List.mem_range.mp (List.mem_of_mem_filter hb)

/-! ### A polder that reaches AWAKE -/

theorem tile_clearTile (s : State) (p q : Nat) : tile (clearTile s p) q = tile s q := rfl

theorem openNi_tiles (s : State) (n : NiId) : (openNi s n).tiles = s.tiles :=
  (openNi_foot s n (Nat.or_self _) (Foot.refl _ s)).2 .tiles (by decide)

theorem tile_awaken (s : State) (p : Nat) (r : Fin 8) (off : Bool) (q : Nat) :
    tile (awaken s p r off) q =
      if q = p then { tile s p with polder := .awake r, bermValid := (tile s p).bermValid && !off } else tile s q := by
  unfold awaken
  dsimp only
  rw [tile_of_tiles (openNi_tiles _ _)]
  have hclear : ∀ x, tile (if off = true then clearTile s p else s) x = tile s x := fun x => by
    split
    · exact tile_clearTile s p x
    · rfl
  by_cases hq : q = p
  · subst hq
    rw [tile_modTile_same, if_pos rfl, hclear]
  · rw [tile_modTile_ne _ _ hq, if_neg hq, hclear]

/-- Every bit of every PE of a cleared tile reads 0 (R62). -/
theorem peBit_clearTile (s : State) (p : Nat) {a i : Nat} (ha : a < 4096) (hi : i < 4096) :
    peBit (clearTile s p) (p * 4096 + i) a = false := by
  have hregion : regionOf a < 8 := by
    unfold regionOf
    split_ifs <;> omega
  have hmem : SMap.get 0 (clearTile s p).peMem ((p * 4096 + i) * 512 + a / 8) = 0 :=
    SMap.get_clearRange_in s.peMem _ _ _ (by omega) (by omega)
  have htag : SMap.get 0 (clearTile s p).peTag (8 * ((p * 4096 + i) / 4096) + regionOf a) = 0 :=
    SMap.get_clearRange_in s.peTag _ _ _ (by omega) (by omega)
  unfold peBit fill
  rw [hmem, htag]
  simp

theorem peBit_of {s u : State} (hm : u.peMem = s.peMem) (ht : u.peTag = s.peTag) (k a : Nat) : peBit u k a = peBit s k a := by
  simp only [peBit, fill, hm, ht]

/-- What a polder's way to AWAKE leaves in its PEs: zeros if it came from OFF, else all that was there. -/
def ClearedFrom (s : State) (p : TileId) (off : Bool) (u : State) : Prop :=
  (Inv s → off = true → ∀ a, a < 4096 → ∀ i, i < 4096 → peBit u (p.val * 4096 + i) a = false) ∧
    (off = false → u.pe = s.pe ∧ u.peMem = s.peMem)

theorem awaken_cleared (s : State) (p : TileId) (r : Fin 8) (off : Bool) : ClearedFrom s p off (awaken s p.val r off) := by
  let c := if off = true then clearTile s p.val else s
  have hfoot : Foot 0x800004 c (awaken s p.val r off) :=
    openNi_foot _ (tileNi p.val) (by decide) (modTile_foot c p.val _ (by decide) (Foot.refl _ c))
  refine ⟨fun _ hoff a ha i hi => ?_, fun hoff => ?_⟩
  · have hc : c = clearTile s p.val := if_pos hoff
    rw [peBit_of (hfoot.2 .peMem (by decide)) (hfoot.2 .peTag (by decide)), hc]
    exact peBit_clearTile s p.val ha hi
  · have hc : c = s := if_neg (by simp [hoff])
    rw [hc] at hfoot
    exact ⟨hfoot.2 .pe (by decide), hfoot.2 .peMem (by decide)⟩

theorem ClearedFrom.sleep {s u : State} {p : TileId} {off : Bool} (h : ClearedFrom s p off u) (q : Nat) :
    ClearedFrom s p off (sleepPolder u q) := by
  have hfoot := sleepPolder_foot u q (Nat.or_self _) (Foot.refl _ u)
  obtain ⟨hclear, hkeep⟩ := h
  refine ⟨fun hi ho a ha i hb => ?_, fun ho => ⟨?_, ?_⟩⟩
  · rw [peBit_of (hfoot.2 .peMem (by decide)) (hfoot.2 .peTag (by decide))]
    exact hclear hi ho a ha i hb
  · rw [show (sleepPolder u q).pe = u.pe from hfoot.2 .pe (by decide), (hkeep ho).1]
  · rw [show (sleepPolder u q).peMem = u.peMem from hfoot.2 .peMem (by decide), (hkeep ho).2]

/-! ### Its owner -/

theorem ownerOf_of {s u : State} (hm : u.map = s.map) (ht : u.tenants = s.tenants) (p : TileId) : ownerOf u p = ownerOf s p := by
  have howner : tileOwner u = tileOwner s := by
    funext n
    simp only [tileOwner, ownTiles, ten, ht]
  have hphys : physOf u = physOf s := by
    funext n
    rw [physOf, physOf, hm]
  rw [ownerOf, ownerOf, lposOf, lposOf, hphys, howner]

theorem readyOrder_of {s u : State} {t : Tenant} (ht : ten u t = ten s t) (hf : frozen u = frozen s) :
    readyOrder u t = readyOrder s t := by
  rw [readyOrder, readyOrder, ht, hf]

section
variable (s : State) (p : TileId) (r : Fin 8) (off : Bool)

theorem awaken_frame : Foot 0x8000F4 s (awaken s p.val r off) := awaken_foot s p.val r off (Nat.or_self _) (Foot.refl _ s)

theorem ten_awaken (v : Tenant) : ten (awaken s p.val r off) v = ten s v :=
  ten_of_tenants ((awaken_frame s p r off).2 .tenants (by decide)) v

theorem ownerOf_awaken : ownerOf (awaken s p.val r off) p = ownerOf s p :=
  ownerOf_of ((awaken_frame s p r off).2 .map (by decide)) ((awaken_frame s p r off).2 .tenants (by decide)) p

theorem holdOver_awaken (v : Tenant) : holdOver (awaken s p.val r off) v = holdOver s v := by
  have hclk : (awaken s p.val r off).clk = s.clk := (awaken_frame s p r off).2 .clk (by decide)
  have hsup : (awaken s p.val r off).sup = s.sup := (awaken_frame s p r off).2 .sup (by decide)
  have hstart : (awaken s p.val r off).start = s.start := (awaken_frame s p r off).2 .start (by decide)
  have hfrozen : frozen (awaken s p.val r off) = frozen s := by simp only [frozen, hclk, hsup, hstart]
  have hready := readyOrder_of (ten_awaken s p r off v) hfrozen
  simp only [holdOver, runOrder, hready, ten_awaken]

theorem runOrder_awaken (v : Tenant) : runOrder (awaken s p.val r off) v = runOrder s v := by
  simp only [runOrder, ten_awaken]

end

/-! ### POLDER_RAMP_DWELL_END -/

section
variable {s : State} {p : TileId} {r : Fin 8} {sec off : Bool}

/-- A dwell ends with a change of the tile alone. -/
theorem runs_modTile {c : Instr} {f : Tile → Tile} (hc : exec c s = .next (modTile s p.val f)) :
    runs c s [.tiles] fun u => (∀ q, q < 17 → q ≠ p.val → tile u q = tile s q) ∧ tile u p.val = f (tile s p.val) :=
  ⟨_, hc, ⟨fun _ _ hq => tile_modTile_ne s f hq, tile_modTile_same s p.val f⟩,
    (modTile_foot s p.val f (by decide) (Foot.refl _ s)).sameBut⟩

theorem dwellEnd_warned (hv : s.sup.vcore ≠ .normal) : exec (.polderRampDwellEnd p) s = .next s := by
  show execPolderRampDwellEnd p s = _
  rw [execPolderRampDwellEnd, if_pos hv]

theorem dwellEnd_up_step (hv : s.sup.vcore = .normal) (hx : (tile s p.val).polder = .up r sec off) (hr : r < endRatio s) :
    exec (.polderRampDwellEnd p) s = .next (modTile s p.val fun x => { x with polder := .up (r + 1) false off }) := by
  show execPolderRampDwellEnd p s = _
  simp only [execPolderRampDwellEnd, hv, hx, hr, ne_eq, not_true_eq_false, if_false, if_true]

theorem dwellEnd_up_again (hv : s.sup.vcore = .normal) (hx : (tile s p.val).polder = .up r sec off) (hr : ¬ r < endRatio s)
    (h7 : endRatio s ≠ 7) (hs : sec = false) :
    exec (.polderRampDwellEnd p) s = .next (modTile s p.val fun x => { x with polder := .up (endRatio s) true off }) := by
  show execPolderRampDwellEnd p s = _
  simp only [execPolderRampDwellEnd, hv, hx, hr, ne_eq, not_true_eq_false, if_false]
  rw [if_pos ⟨h7, hs⟩]

/-- The ramp up has ended: the tile is AWAKE, and where nothing keeps it so it ramps down (R24; log 72). -/
theorem dwellEnd_up_end (hv : s.sup.vcore = .normal) (hx : (tile s p.val).polder = .up r sec off) (hr : ¬ r < endRatio s)
    (he : endRatio s = 7 ∨ sec = true) :
    let s1 := awaken s p.val (endRatio s) off
    (∀ v, ownerOf s p = some v → holdOver s v = false → exec (.polderRampDwellEnd p) s = .next (onAwake s1 v)) ∧
    (∀ v, ownerOf s p = some v → holdOver s v = true →
      exec (.polderRampDwellEnd p) s = .next (onAwake (sleepPolder s1 p.val) v)) ∧
    (ownerOf s p = none → exec (.polderRampDwellEnd p) s = .next (sleepPolder s1 p.val)) := by
  have hend : ¬(endRatio s ≠ 7 ∧ sec = false) := by
    rintro ⟨h7, hs⟩
    rcases he with h | h
    · exact h7 h
    · simp [hs] at h
  have hex : exec (.polderRampDwellEnd p) s = .next (match ownerOf s p with
      | some t => onAwake (if holdOver s t then sleepPolder (awaken s p.val (endRatio s) off) p.val
          else awaken s p.val (endRatio s) off) t
      | none => sleepPolder (awaken s p.val (endRatio s) off) p.val) := by
    show execPolderRampDwellEnd p s = _
    simp only [execPolderRampDwellEnd, hv, hx, hr, ne_eq, not_true_eq_false, if_false]
    rw [if_neg hend, ownerOf_awaken]
    cases ownerOf s p with
    | none => rfl
    | some t => simp only [holdOver_awaken]
  refine ⟨fun v ho hh => ?_, fun v ho hh => ?_, fun ho => ?_⟩ <;> rw [hex, ho]
  · simp [hh]
  · simp [hh]

/-- A tile whose owner has work stays AWAKE. -/
theorem dwellEnd_stays_awake (hv : s.sup.vcore = .normal) (hx : (tile s p.val).polder = .up r sec off) (hr : ¬ r < endRatio s)
    (he : endRatio s = 7 ∨ sec = true) {v : Tenant} (ho : ownerOf s p = some v) (hh : holdOver s v = false) :
    ∃ u, exec (.polderRampDwellEnd p) s = .next u ∧
      (tile u p.val).polder = .awake (endRatio s) ∧ (∀ q, q < 17 → q ≠ p.val → (tile u q).polder = (tile s q).polder) ∧
      (off = true → runOrder s v = none → (tile u p.val).bermValid = false) ∧
      ((ten s v).orders = [] → ClearedFrom s p off u) := by
  let s1 := awaken s p.val (endRatio s) off
  have htile : ∀ q, tile s1 q = _ := tile_awaken s p.val (endRatio s) off
  have hsame := onAwake_samePolders s1 v
  refine ⟨_, (dwellEnd_up_end hv hx hr he).1 v ho hh, ?_, fun q _ hq => ?_, fun hoff hrun => ?_, fun hord => ?_⟩
  · rw [hsame, htile, if_pos rfl]
  · rw [hsame, htile, if_neg hq]
  · rw [tile_onAwake_of_idle (by rw [runOrder_awaken, hrun]), htile, if_pos rfl]
    simp [hoff]
  · rw [onAwake_of_no_orders (by rw [ten_awaken, hord])]
    exact awaken_cleared s p (endRatio s) off

theorem tile_sleepPolder_awaken (s : State) (p : Nat) (r : Fin 8) (off : Bool) :
    tile (sleepPolder (awaken s p r off) p) p =
      { tile s p with polder := .down r, bermValid := (tile s p).bermValid && !off } := by
  rw [tile_sleepPolder, if_pos rfl, tile_awaken, if_pos rfl, Tile.darkening_awake rfl]

/-- A tile whose owner's idle hold is over ramps down again. -/
theorem dwellEnd_hold_over (hv : s.sup.vcore = .normal) (hx : (tile s p.val).polder = .up r sec off) (hr : ¬ r < endRatio s)
    (he : endRatio s = 7 ∨ sec = true) {v : Tenant} (ho : ownerOf s p = some v) (hh : holdOver s v = true)
    (hord : (ten s v).orders = []) :
    ∃ u, exec (.polderRampDwellEnd p) s = .next u ∧ (tile u p.val).polder = .down (endRatio s) ∧ ClearedFrom s p off u := by
  let s1 := awaken s p.val (endRatio s) off
  have hten : ten (sleepPolder s1 p.val) v = ten s v := by
    rw [ten_of_tenants ((sleepPolder_foot s1 p.val (Nat.or_self _) (Foot.refl _ s1)).2 .tenants (by decide)), ten_awaken]
  refine ⟨sleepPolder s1 p.val, ?_, ?_, (awaken_cleared s p (endRatio s) off).sleep p.val⟩
  · rw [(dwellEnd_up_end hv hx hr he).2.1 v ho hh, onAwake_of_no_orders (by rw [hten, hord])]
  · rw [tile_sleepPolder_awaken]

/-- A tile that no tenant owns ramps down again. -/
theorem dwellEnd_unowned (hv : s.sup.vcore = .normal) (hx : (tile s p.val).polder = .up r sec off) (hr : ¬ r < endRatio s)
    (he : endRatio s = 7 ∨ sec = true) (ho : ownerOf s p = none) :
    runs (.polderRampDwellEnd p) s [.tiles, .pe, .peMem, .peBad, .peTag, .noc] fun u =>
      (∀ q, q < 17 → q ≠ p.val → tile u q = tile s q) ∧ tile u p.val =
        { tile s p.val with polder := .down (endRatio s), bermValid := (tile s p.val).bermValid && !off } ∧
      ClearedFrom s p off u := by
  refine ⟨_, (dwellEnd_up_end hv hx hr he).2.2 ho, ⟨fun q _ hq => ?_, tile_sleepPolder_awaken .., ?_⟩, ?_⟩
  · rw [tile_sleepPolder, if_neg hq, tile_awaken, if_neg hq]
  · exact (awaken_cleared s p (endRatio s) off).sleep p.val
  · exact (sleepPolder_foot _ p.val (by decide) (awaken_foot s p.val _ off (by decide) (Foot.refl _ s))).sameBut

end

section
variable {s : State} {p : TileId} {r : Fin 8}

theorem dwellEnd_down (hv : s.sup.vcore = .normal) (hx : (tile s p.val).polder = .down r) :
    exec (.polderRampDwellEnd p) s = .next (if (ni s (tileNi p.val).val).st.isClosing then s else rampDownStep s p.val) := by
  show execPolderRampDwellEnd p s = _
  simp only [execPolderRampDwellEnd, hv, hx, ne_eq, not_true_eq_false, if_false]

/-- The last step down: the tile is DARK, its interface fenced, and the gates and the fabric follow the profile. -/
theorem rampDownStep_dark (hx : (tile s p.val).polder = .down 0) :
    let u := rampDownStep s p.val
    (∀ q, q ≠ p.val → tile u q = tile s q) ∧ tile u p.val = { tile s p.val with polder := .dark } ∧
      ((ni s (tileNi p.val).val).st ≠ .unused → (ni u (tileNi p.val).val).st = .fenced .dark) ∧
      sameBut [.tiles, .noc, .clk, .fab] s u := by
  let d := modTile s p.val fun x => { x with polder := .dark }
  let f := setNiSt d (tileNi p.val).val (.fenced .dark)
  have hstep : rampDownStep s p.val = retargetFab f := by
    unfold rampDownStep
    rw [hx]
    rfl
  have htile : ∀ q, tile (retargetFab f) q = tile d q := fun q => by
    rw [tile_of_tiles ((retargetFab_foot f (Nat.or_self _) (Foot.refl _ f)).2 .tiles (by decide)),
      tile_of_tiles ((setNiSt_foot d (tileNi p.val).val (.fenced .dark) (Nat.or_self _) (Foot.refl _ d)).2 .tiles (by decide))]
  have hni : ni (retargetFab f) (tileNi p.val).val = ni f (tileNi p.val).val := ni_reopenGates_tileNi f p
  dsimp only
  rw [hstep]
  refine ⟨fun q hq => ?_, ?_, fun hu => ?_, ?_⟩
  · rw [htile, tile_modTile_ne s _ hq]
  · rw [htile, tile_modTile_same]
  · rw [hni, ni_setNiSt_same (s := d) hu (by simp)]
  · exact (retargetFab_foot f (by decide) (setNiSt_foot d _ _ (by decide)
      (modTile_foot s p.val _ (by decide) (Foot.refl _ s)))).sameBut

/-- A polder that goes dark. -/
theorem dwellEnd_down_result (hv : s.sup.vcore = .normal) (hx : (tile s p.val).polder = .down r) :
    let n := (tileNi p.val).val
    ((ni s n).st.isClosing = true → exec (.polderRampDwellEnd p) s = .next s) ∧
    ((ni s n).st.isClosing = false →
      (r ≠ 0 → runs (.polderRampDwellEnd p) s [.tiles] fun u => (∀ q, q < 17 → q ≠ p.val → tile u q = tile s q) ∧
        tile u p.val = { tile s p.val with polder := .down (r - 1) }) ∧
      (r = 0 → runs (.polderRampDwellEnd p) s [.tiles, .noc, .clk, .fab] fun u =>
        (∀ q, q < 17 → q ≠ p.val → tile u q = tile s q) ∧ tile u p.val = { tile s p.val with polder := .dark } ∧
        ((ni s n).st ≠ .unused → (ni u n).st = .fenced .dark))) := by
  refine ⟨fun hc => ?_, fun hc => ⟨fun hr => ?_, fun hr => ?_⟩⟩
  · rw [dwellEnd_down hv hx, if_pos hc]
  · refine runs_modTile (f := fun x => { x with polder := .down (r - 1) }) ?_
    rw [dwellEnd_down hv hx, if_neg (by simp [hc]), rampDownStep, hx]
    simp only [hr, if_false]
  · subst hr
    obtain ⟨hne, hp, hni, hframe⟩ := rampDownStep_dark hx
    exact ⟨_, by rw [dwellEnd_down hv hx, if_neg (by simp [hc])], ⟨fun q _ hq => hne q hq, hp, hni⟩, hframe⟩

theorem dwellEnd_awake_moves (hv : s.sup.vcore = .normal) (hx : (tile s p.val).polder = .awake r) (hr : r ≠ endRatio s) :
    exec (.polderRampDwellEnd p) s = .next (modTile s p.val fun x => { x with polder := .awake (endRatio s) }) := by
  show execPolderRampDwellEnd p s = _
  simp only [execPolderRampDwellEnd, hv, hx, hr, ne_eq, not_true_eq_false, if_false]

theorem dwellEnd_rests (hv : s.sup.vcore = .normal)
    (hx : (tile s p.val).polder = .awake (endRatio s) ∨ (tile s p.val).polder = .dark ∨ (tile s p.val).polder = .off) :
    exec (.polderRampDwellEnd p) s = .next s := by
  show execPolderRampDwellEnd p s = _
  rcases hx with hx | hx | hx <;>
    simp only [execPolderRampDwellEnd, hv, hx, ne_eq, not_true_eq_false, if_false, if_true]

end

/-! ### IDLE_HOLD_EXPIRY -/

theorem st_sleepPolder (s : State) (p n : Nat) :
    (ni (sleepPolder s p) n).st =
      if (tile s p).polder.isAwake = true ∧ n = (tileNi p).val ∧ (ni s n).st = .opened then .closing .dark else (ni s n).st := by
  unfold sleepPolder
  split
  · rename_i r hr
    rw [ni_closeNi, ni_modTile]
    simp only [hr, Polder.isAwake, true_and]
    split <;> rfl
  · rename_i hr
    have hnot : (tile s p).polder.isAwake = false := by
      cases h : (tile s p).polder with
      | awake r => exact absurd h (hr r)
      | _ => rfl
    simp [hnot]

/-- The interface of an awake tile closes with the tiles that ramp down, whichever comes first. -/
theorem st_foldl_sleepPolder {l : List Nat} {s : State} {p : Nat} (hp : p ∈ l) (ha : (tile s p).polder.isAwake = true)
    (hn : (ni s (tileNi p).val).st = .opened ∨ (ni s (tileNi p).val).st = .closing .dark) :
    (ni (l.foldl sleepPolder s) (tileNi p).val).st = .closing .dark := by
  have hkeep : ∀ (m : List Nat) (u : State), (ni u (tileNi p).val).st = .closing .dark →
      (ni (m.foldl sleepPolder u) (tileNi p).val).st = .closing .dark := by
    intro m
    induction m with
    | nil => exact fun _ h => h
    | cons q m ih => exact fun u h => ih _ (by rw [st_sleepPolder]; simp [h])
  induction l generalizing s with
  | nil => cases hp
  | cons q l ih =>
    rw [List.foldl_cons]
    by_cases hq : p = q
    · subst hq
      refine hkeep l _ ?_
      rw [st_sleepPolder]
      rcases hn with hn | hn <;> simp [ha, hn]
    · refine ih ((List.mem_cons.mp hp).resolve_left hq) (by rwa [tile_sleepPolder, if_neg hq]) ?_
      rw [st_sleepPolder]
      split
      · exact Or.inr rfl
      · exact hn

theorem holdEnds_iff (s : State) (t : Tenant) :
    ((ten s t).holdRunning && (runOrder s t).isNone && (readyOrder s t).isNone) = true ↔
      (ten s t).holdRunning = true ∧ runOrder s t = none ∧ readyOrder s t = none := by
  simp only [Bool.and_eq_true, Option.isNone_iff_eq_none, and_assoc]

theorem idleHoldExpiry_result (s : State) (t : Tenant) :
    let idle := (ten s t).holdRunning = true ∧ runOrder s t = none ∧ readyOrder s t = none
    (idle → runs (.idleHoldExpiry t) s [.tiles, .noc, .tenants] fun u =>
      ten u t = { ten s t with holdRunning := false } ∧ (∀ v, v ≠ t → ten u v = ten s v) ∧
      (∀ q ∈ physTiles s (ownTiles s t), ∀ k, (tile s q.val).polder = .awake k → (tile u q.val).polder = .down k ∧
        ((ni s (tileNi q.val).val).st = .opened → (ni u (tileNi q.val).val).st = .closing .dark)) ∧
      ∀ q, q < 17 → (∀ p ∈ physTiles s (ownTiles s t), p.val ≠ q) → tile u q = tile s q) ∧
    (¬idle → exec (.idleHoldExpiry t) s = .next s) := by
  dsimp only
  rw [← holdEnds_iff]
  refine ⟨fun hi => ?_, fun hi => ?_⟩
  · let l := (physTiles s (ownTiles s t)).map Fin.val
    let d := l.foldl sleepPolder s
    have hd : Foot 0x800004 s d := foldl_sleepPolder_foot l s
    have hex : exec (.idleHoldExpiry t) s = .next (modTen d t fun x => { x with holdRunning := false }) := by
      show execIdleHoldExpiry t s = _
      rw [execIdleHoldExpiry, if_pos hi, ← List.foldl_map (f := Fin.val) (g := sleepPolder)]
    have hten : ∀ v, ten d v = ten s v := ten_of_tenants (hd.2 .tenants (by decide))
    have htile : ∀ q, tile d q = if q ∈ l then (tile s q).darkening else tile s q := tile_foldl_sleepPolder l s
    have hmem : ∀ q ∈ physTiles s (ownTiles s t), q.val ∈ l := fun q hq => List.mem_map_of_mem hq
    refine ⟨_, hex, ⟨by rw [ten_modTen_same, hten], fun v hv => by rw [ten_modTen_ne d _ hv, hten], fun q hq k hk => ⟨?_, fun ho => ?_⟩,
      fun q _ hq => ?_⟩, ?_⟩
    · show (tile d q.val).polder = _
      rw [htile, if_pos (hmem q hq), Tile.darkening_awake hk]
    · exact st_foldl_sleepPolder (hmem q hq) (by simp [hk, Polder.isAwake]) (Or.inl ho)
    · show tile d q = _
      rw [htile, if_neg fun hm => by
        obtain ⟨p, hp, hpq⟩ := List.mem_map.mp hm
        exact hq p hp hpq]
    · exact (modTen_foot d t _ (by decide) (Foot.foldl (Foot.refl _ s) fun u p h => sleepPolder_foot u p (by decide) h)).sameBut
  · show execIdleHoldExpiry t s = _
    rw [execIdleHoldExpiry, if_neg hi]

/-- Settles O32: by the state of the polder whose dwell ends, and by the tiles of the tenant whose idle hold ends. -/
theorem polderRamps : Obligations.PolderRamps := by
  unfold Obligations.PolderRamps
  intro s p t r sec off
  refine ⟨dwellEnd_warned, fun hv => ⟨fun hx => ⟨fun hr => ?_, fun hr h7 hs => ?_, fun hr he => ⟨?_, ?_, ?_⟩⟩,
    dwellEnd_down_result hv, fun hx hr => ?_, dwellEnd_rests hv⟩, idleHoldExpiry_result s t⟩
  · exact runs_modTile (dwellEnd_up_step hv hx hr)
  · exact runs_modTile (dwellEnd_up_again hv hx hr h7 hs)
  · exact fun v => dwellEnd_stays_awake hv hx hr he
  · exact fun v => dwellEnd_hold_over hv hx hr he
  · exact dwellEnd_unowned hv hx hr he
  · exact runs_modTile (dwellEnd_awake_moves hv hx hr)

end Sys2Proof.Machine
end

