-- ==== Sys2Proof/Proofs/Steady.lean ====
section
/-! SUPPORT. Orders that stop, start inputs and system lines leave clocks, regions and holds as they are, but for gates that open. -/

namespace Sys2Proof.Machine

/-! ### Wakes and orders -/

theorem wakeTenant_steady (s : State) (t : Tenant) : Steady s (wakeTenant s t) := by
  have hwake : ∀ u : State, Steady u (retargetFab ((physTiles u (ownTiles u t)).foldl (fun v p => wakePolder v p.val) u)) :=
    fun u => (Steady.foldl (fun v (p : TileId) => Steady.frame (wakePolder_foot v p.val (Nat.or_self _) (Foot.refl _ v)) (by decide)) _ u).trans
      (retargetFab_steady _)
  unfold wakeTenant
  dsimp only
  split
  · exact (openGate_steady s _).trans (hwake _)
  · exact hwake s

theorem kick_steady (s : State) (t : Tenant) : Steady s (kick s t) := by
  unfold kick
  split
  · exact (wakeTenant_steady s t).trans (Steady.frame (modTen_foot _ t _ (Nat.or_self _) (Foot.refl _ _)) (by decide))
  · exact Steady.refl s

theorem reexecNow_steady (s : State) (t : Tenant) (o : Order) (q : SeqId) : Steady s (reexecNow s t o q) := by
  obtain ⟨s2, b, hfirst, hlast⟩ := reexecNow_stages s t o q
  have hmarks := Steady.foldl (fun u p => Steady.frame (modTile_foot u (Fin.val p) (fun x => { x with reclaimed := b })
    (Nat.or_self _) (Foot.refl _ u)) (by decide)) (physTiles s (ownTiles s t)) s2
  exact (openGate_steady s q.val).trans ((Steady.frame (scrubTiles_foot _ _ (Nat.or_self _) (Foot.refl _ _)) (by decide)).trans
    ((Steady.frame hfirst (by decide)).trans (hmarks.trans (Steady.frame hlast (by decide)))))

theorem abortOrder_steady (s : State) (t : Tenant) (o : Order) (c : Byte) : Steady s (abortOrder s t o c) :=
  Steady.frame (abortOrder_foot s t o c (Nat.or_self _) (Foot.refl _ s)) (by decide)

theorem setOrder_steady (s : State) (t : Tenant) (o : Order) : Steady s (setOrder s t o) :=
  Steady.frame (setOrder_foot s t o (Nat.or_self _) (Foot.refl _ s)) (by decide)

theorem tryReexec_steady (s : State) (t : Tenant) : Steady s (tryReexec s t) := by
  unfold tryReexec
  split
  · rename_i o q _ _
    dsimp only
    have hread := (Steady.frame (readBack_foot s t o (Nat.or_self _) (Foot.refl _ s)) (by decide)).trans
      (setOrder_steady _ t (readBack s t o).2)
    split
    · split
      · exact hread.trans ((abortOrder_steady _ t _ 0x0B).trans (kick_steady _ t))
      · exact hread.trans (reexecNow_steady _ t _ q)
    · exact Steady.refl s
  · exact Steady.refl s

theorem tryReexecAll_steady (s : State) : Steady s (tryReexecAll s) := Steady.foldl tryReexec_steady _ s

theorem logEvent_steady (s : State) (c : Half) (v : BitVec 2) (ts : List Tenant) (i a : Nat) (b : Bytes) :
    Steady s (logEvent s c v ts i a b) :=
  Steady.frame (logEvent_foot s c v ts i a b (Nat.or_self _) (Foot.refl _ s)) (by decide)

theorem tideFault_steady (s : State) (b : Nat) (c : Half) : Steady s (tideFault s b c) :=
  Steady.frame (tideFault_foot s b c (Nat.or_self _) (Foot.refl _ s)) (by decide)

theorem recompute_steady (s : State) (t : Tenant) : Steady s (recompute s t) := by
  unfold recompute
  split
  · exact Steady.refl s
  · rename_i o _
    dsimp only
    generalize hs1 : dropPending _ t = s1
    have hstop : Steady s s1 := by
      subst hs1
      exact (setOrder_steady s t _).trans (Steady.frame
        (dropPending_foot (m := 0x300) _ t (by decide) (quiet_foot _ t (by decide) (Foot.refl _ _))) (by decide))
    have hagain := hstop.trans ((tryReexec_steady s1 t).trans (tryReexecAll_steady _))
    generalize tryReexecAll _ = s2 at hagain ⊢
    split
    · exact Steady.ite (hagain.trans (logEvent_steady ..)) hagain
    · exact hagain

theorem afterSettle_steady (s : State) (t : Tenant) : Steady s (afterSettle s t) := by
  have hland : Steady (tryReexecAll s) (landOldest (tryReexecAll s) t) :=
    Steady.frame (landOldest_foot _ t (Nat.or_self _) (Foot.refl _ _)) (by decide)
  exact (tryReexecAll_steady s).trans (hland.trans (kick_steady _ t))

theorem abortOrders_steady (s : State) (t : Tenant) (seqs : List Word) (c : Byte) : Steady s (abortOrders s t seqs c) := by
  refine (Steady.foldl (fun u q => ?_) seqs s).trans (afterSettle_steady _ t)
  split
  · exact abortOrder_steady u t _ c
  · exact Steady.refl u

theorem inputLost_steady (s : State) (t : Tenant) (q : Word) : Steady s (inputLost s t q) := abortOrders_steady s t [q] 0x0B

theorem abortTenant_steady (s : State) (t : Tenant) (f : Bool) : Steady s (abortTenant s t f) := by
  unfold abortTenant
  dsimp only
  have horders := (Steady.frame (mayYield_foot s t [3, 3] (Nat.or_self _) (Foot.refl _ s)) (by decide)).trans
    (abortOrders_steady _ t ((ten (mayYield s t [3, 3]) t).orders.map Order.seq) (if f then 0x02 else 0x01))
  exact horders.trans ((Steady.frame (storeRecords_foot (m := 0x214800) _ t _ (by decide)
    (modTen_foot _ t _ (by decide) (Foot.refl _ _))) (by decide)).trans (logEvent_steady ..))

/-! ### Links -/

theorem frameLost_steady (s : State) (c : CxpId) (t : Tenant) (q : Word) (n : Nat) (e : Half) :
    Steady s (frameLost s c t q n e) :=
  (Steady.frame (modCam_foot s c _ (Nat.or_self _) (Foot.refl _ s)) (by decide)).trans
    ((logEvent_steady ..).trans ((tideFault_steady ..).trans (inputLost_steady ..)))

theorem truncateFrame_steady (s : State) (c : CxpId) : Steady s (truncateFrame s c) := by
  unfold truncateFrame
  dsimp only
  refine Steady.trans ?_ (Steady.frame (modCam_foot _ c _ (Nat.or_self _) (Foot.refl _ _)) (by decide))
  split
  · split
    · split
      · exact frameLost_steady ..
      · exact Steady.refl s
    · exact Steady.refl s
  · exact Steady.refl s

theorem linkLost_steady (s : State) (c : CxpId) : Steady s (linkLost s c) := by
  unfold linkLost
  split
  · exact (Steady.frame (setLink_foot s c .lost (Nat.or_self _) (Foot.refl _ s)) (by decide)).trans (truncateFrame_steady _ _)
  · exact Steady.refl s

theorem allLinksLost_steady (s : State) : Steady s (allLinksLost s) := Steady.foldl linkLost_steady _ s

/-! ### Fabric edges and lines -/

/-- A write of one channel leaves the holds alone. -/
theorem setFch_steady (s : State) (n : Nat) (x : Fc) : Steady s (setFch s n x) := ⟨rfl, id, rfl, rfl, rfl⟩

theorem pwmEdge_steady (s : State) (n : Nat) : Steady s (pwmEdge s n) := by
  unfold pwmEdge
  dsimp only
  split
  · exact Steady.ite (setFch_steady ..) (Steady.refl s)
  · split
    · exact Steady.ite (setFch_steady ..) (Steady.refl s)
    · exact Steady.ite (Steady.refl s) (setFch_steady ..)

theorem sampleMailbox_steady (s : State) (k : Nat) : Steady s (sampleMailbox s k) := by
  unfold sampleMailbox
  dsimp only
  split
  · exact Steady.refl s
  · exact ⟨rfl, id, rfl, rfl, rfl⟩

theorem sampleTxd_steady (s : State) (k : Nat) : Steady s (sampleTxd s k) := by
  unfold sampleTxd
  dsimp only
  split
  · exact Steady.refl s
  · exact ⟨rfl, id, rfl, rfl, rfl⟩

theorem fabEdge_steady (s : State) : Steady s (fabEdge s) := by
  refine (Steady.foldl (fun u e => ?_) s.fab.cfg.ports s).trans ((Steady.foldl (fun u e => ?_) _ _).trans
    (Steady.foldl (fun u (e : Nat × Fc) => pwmEdge_steady u e.1) _ _))
  · split
    · exact setFch_steady ..
    · split
      · exact sampleMailbox_steady ..
      · exact sampleTxd_steady ..
  · split
    · exact setFch_steady ..
    · exact Steady.refl u

theorem resample_steady (s : State) : Steady s (resample s) :=
  Steady.foldl (fun u (e : Nat × Fc) => setFch_steady u e.1 _) s.field.ch s

theorem claimWindows_steady (s : State) (t : Tenant) (q : Word) (d : DWord) : Steady s (claimWindows s t q d) := by
  unfold claimWindows
  split
  · exact Steady.refl s
  · split
    · exact inputLost_steady s t q
    · exact (setOrder_steady s t _).trans (Steady.frame (refill_foot _ t _ (Nat.or_self _) (Foot.refl _ _)) (by decide))

theorem startInput_steady (s : State) (t : Tenant) (c : Half) (d : DWord) : Steady s (startInput s t c d) := by
  unfold startInput
  split
  · exact (Steady.frame (modOrder_foot s t _ _ (Nat.or_self _) (Foot.refl _ s)) (by decide)).trans
      ((claimWindows_steady _ t _ d).trans (kick_steady _ t))
  · exact Steady.refl s

theorem lineRise_steady (s : State) (l : Nat) : Steady s (lineRise s l) := by
  have hstamp : Steady s { s with fab := { s.fab with evtTime := SMap.set 0 s.fab.evtTime l (nextEdge s) } } :=
    ⟨rfl, id, rfl, rfl, rfl⟩
  have htrig : ∀ u : State, Steady u (trigEdges u l) := fun u =>
    Steady.frame (trigEdges_foot u l (Nat.or_self _) (Foot.refl _ u)) (by decide)
  unfold lineRise
  dsimp only
  split
  · split
    · exact hstamp.trans ((startInput_steady ..).trans (htrig _))
    · exact hstamp.trans (htrig _)
  · split
    · exact (abortTenant_steady ..).trans (tideFault_steady ..)
    · exact Steady.frame (markDue_foot s 3 0 (Nat.or_self _) (Foot.refl _ s)) (by decide)

theorem lineStep_steady (s : State) (l : Nat) : Steady s (lineStep s l) := by
  have hlevel : Steady s { s with fab := { s.fab with lineLevel := SMap.set false s.fab.lineLevel l (lineVal s l) } } :=
    ⟨rfl, id, rfl, rfl, rfl⟩
  unfold lineStep
  dsimp only
  split
  · exact hlevel.trans (lineRise_steady _ l)
  · exact hlevel

theorem linesStep_steady (s : State) : Steady s (linesStep s) := by
  have hfall : Steady s (fallLines s) := ⟨rfl, id, rfl, rfl, rfl⟩
  exact hfall.trans (Steady.foldl lineStep_steady (s.fab.cfg.lines.map Prod.fst) (fallLines s))

/-! ### Tide marks -/

theorem captureRegion_steady (s : State) (k : Nat) : Steady s (captureRegion s k) := ⟨rfl, id, rfl, rfl, rfl⟩

theorem takeMark_steady (s : State) : Steady s (takeMark s) := by
  unfold takeMark
  split
  · exact Steady.refl s
  · dsimp only
    split
    · exact ⟨rfl, id, rfl, rfl, rfl⟩
    · split
      · exact ⟨rfl, id, rfl, rfl, rfl⟩
      · split
        · exact ⟨rfl, id, rfl, rfl, rfl⟩
        · generalize hx : logEvent _ 0x0C01 0 [] 0 _ _ = x
          have hlog : Steady s x := by
            subst hx
            exact ⟨rfl, id, rfl, rfl, rfl⟩
          have hsnap := hlog.trans (Steady.foldl captureRegion_steady (List.range 8) x)
          generalize (List.range 8).foldl captureRegion x = y at hsnap ⊢
          exact hsnap.trans ⟨rfl, id, rfl, rfl, rfl⟩

end Sys2Proof.Machine
end

