-- ==== Sys2Proof/Proofs/NetworkWake.lean ====
section
/-! SUPPORT. What a network wake leaves: no sleep, open gates, running regions and, with a lost reference, stopped clocks
(R24, R322, R414, R429). -/

namespace Sys2Proof.Machine

open Sys2Proof

/-! ### The release of regions -/

theorem foldl_releaseRegion_foot (l : List Nat) (s : State) : Foot 0x8000000 s (l.foldl releaseRegion s) :=
  Foot.foldl (Foot.refl _ s) fun u k h => releaseRegion_foot u k (Nat.or_self _) h

theorem regionSt_foldl_releaseRegion (l : List Nat) (s : State) (g : Nat) :
    regionSt (l.foldl releaseRegion s) g = if g ∈ l then .running else regionSt s g := by
  induction l generalizing s with
  | nil => rfl
  | cons k l ih =>
    have hk : regionSt (releaseRegion s k) g = if g = k then .running else regionSt s g := by
      simp only [regionSt, releaseRegion, SMap.get_set]
    rw [List.foldl_cons, ih, hk]
    by_cases hg : g = k <;> simp [hg]

/-- A restart of the fabric changes nothing of the clocks and the holds before every region runs that owes no null configuration
(R322); what its lines set off is steady. -/
theorem restartFabric_stages (s : State) : ∃ y, y.clk = s.clk ∧ y.field.holdSleep = s.field.holdSleep ∧
    (∀ g : RegionId, (∀ o ∈ s.fab.owed, o ≠ g) → regionSt y g.val = .running) ∧ Steady y (restartFabric s) := by
  let clk : FabClk := if fabFull s then .full else .quarter
  let a : State := { s with fab := { s.fab with clk := clk } }
  let l := (List.range 8).filter fun k => (resample a).fab.owed.all fun o => decide (o.val ≠ k)
  have hres : Foot 0x10000000 a (resample a) := resample_foot a (Nat.or_self _) (Foot.refl _ a)
  have howed : (resample a).fab.owed = s.fab.owed := by rw [show (resample a).fab = a.fab from hres.2 .fab (by decide)]
  have hrel := foldl_releaseRegion_foot l (resample a)
  refine ⟨l.foldl releaseRegion (resample a), ?_, ?_, fun g hg => ?_, (fabEdge_steady _).trans (linesStep_steady _)⟩
  · rw [show (l.foldl releaseRegion (resample a)).clk = (resample a).clk from hrel.2 .clk (by decide)]
    exact hres.2 .clk (by decide)
  · rw [show (l.foldl releaseRegion (resample a)).field = (resample a).field from hrel.2 .field (by decide)]
    exact (resample_steady a).holdSleep
  · have hmem : g.val ∈ l := List.mem_filter.mpr ⟨List.mem_range.mpr g.isLt, List.all_eq_true.mpr fun o ho => by
      rw [howed] at ho
      simpa [Fin.val_inj] using hg o ho⟩
    rw [regionSt_foldl_releaseRegion, if_pos hmem]

/-! ### The wake -/

/-- The clocks of the wake: not asleep, no block gated, every PLL locked (R24, R429). -/
def Clocks.woken (c : Clocks) : Clocks :=
  { c with sleep := .none, gated := 0, lockNoc := true, lockFab := true, lockSys := true }

/-- The wake with clocks that run and gates that are open, before the fabric restarts. -/
def wokenGates (s : State) : State :=
  let s2 := (List.range 25).foldl openGate (setClk s fun c => c.woken)
  { s2 with field := { s2.field with holdSleep := false } }

/-- The module as a network wake leaves it where its reference is good. -/
def woken (s : State) : State := allTenants.foldl syncSes (restartFabric (wokenGates s))

theorem wakeModule_eq (s : State) :
    wakeModule s = if refOk (woken s) (woken s).clk.inUse.toNat then woken s else clockFail (woken s) false := by
  unfold wakeModule woken wokenGates Clocks.woken
  with_reducible rfl

theorem foldl_openGate_foot (l : List Nat) (s : State) : Foot 0x80800000 s (l.foldl openGate s) :=
  Foot.foldl (Foot.refl _ s) fun u k h => openGate_foot u k (Nat.or_self _) h

theorem foldl_syncSes_steady (l : List Tenant) (s : State) : Steady s (l.foldl syncSes s) :=
  Steady.foldl (fun u t => Steady.frame (syncSes_foot u t (Nat.or_self _) (Foot.refl _ u)) (by decide)) l s

theorem wokenGates_facts (s : State) :
    (wokenGates s).clk = s.clk.woken ∧ (wokenGates s).field.holdSleep = false ∧ (wokenGates s).fab = s.fab := by
  have hgates := Steady.foldl openGate_steady (List.range 25) (setClk s fun c => c.woken)
  have hfab : ((List.range 25).foldl openGate (setClk s fun c => c.woken)).fab = s.fab :=
    (foldl_openGate_foot (List.range 25) (setClk s fun c => c.woken)).2 .fab (by decide)
  have hclk := hgates.clk
  have hgated := hgates.gated rfl
  unfold wokenGates
  generalize (List.range 25).foldl openGate (setClk s fun c => c.woken) = u at *
  exact ⟨by rw [hclk, hgated]; rfl, rfl, hfab⟩

theorem woken_facts (s : State) :
    (woken s).clk = s.clk.woken ∧ (woken s).field.holdSleep = false ∧
      ∀ g : RegionId, (∀ o ∈ s.fab.owed, o ≠ g) → regionSt (woken s) g.val = .running := by
  obtain ⟨bclk, bhold, bfab⟩ := wokenGates_facts s
  obtain ⟨y, hclk, hhold, hregion, hsteady⟩ := restartFabric_stages (wokenGates s)
  have hend : Steady y (woken s) := hsteady.trans (foldl_syncSes_steady allTenants _)
  generalize woken s = w at *
  refine ⟨?_, ?_, fun g hg => ?_⟩
  · rw [hend.clk, hend.gated (by rw [hclk, bclk]; rfl), hclk, bclk]
    rfl
  · rw [hend.holdSleep, hhold, bhold]
  · rw [regionSt, hend.region]
    exact hregion g (by rwa [bfab])

/-! ### Clocks that stop -/

/-- Before orders and links react, a clock failure has frozen starts, lost the locks and held the outputs; what follows is steady. -/
theorem stopClocks_stages (s : State) : ∃ y a, y.clk = { s.clk with
      freeze := true, wasAwake := a, lockNoc := false, lockFab := false, lockSys := false } ∧
    y.field.holdSleep = s.field.holdSleep ∧ y.field.holdClock = true ∧ y.fab.region = s.fab.region ∧ Steady y (stopClocks s) := by
  let s1 := setClk s fun c => { c with freeze := true, lockNoc := false, lockFab := false, lockSys := false
                                       wasAwake := (List.finRange 17).filter fun p => (tile s p.val).polder.isAwake }
  let s2 : State := { s1 with
    field := { s1.field with holdClock := true }
    fab := { s1.fab with clk := if s1.fab.clk = .stopped then .stopped else .fosc } }
  have hdark : Steady s2 ((List.range 17).foldl stopPolder s2) := Steady.foldl (fun u p =>
    Steady.frame (stopPolder_foot u p (Nat.or_self _) (Foot.refl _ u)) (by decide)) (List.range 17) s2
  have horders := hdark.trans (Steady.foldl recompute_steady allTenants ((List.range 17).foldl stopPolder s2))
  exact ⟨s2, _, rfl, rfl, rfl, rfl, horders.trans ((allLinksLost_steady _).trans ((tideFault_steady ..).trans (fabEdge_steady _)))⟩

theorem setClkSt_clk (s : State) (st : ClkSt) : (setClkSt s st).clk = { s.clk with st := st } := rfl

/-- A relock chooses the reference and the clock state, nothing else of the clocks. -/
theorem relockTo_clk (s : State) (r : Option Nat) :
    (relockTo s r).clk = { s.clk with inUse := (relockTo s r).clk.inUse, st := (relockTo s r).clk.st } := by
  have hemcy : ∀ (u : State) (d : Bytes), (emergency u allTenants 0x5020 d).clk = u.clk := fun u d =>
    (emergency_foot u allTenants 0x5020 d (Nat.or_self _) (Foot.refl _ u)).2 .clk (by decide)
  cases r <;> simp only [relockTo, hemcy, setClkSt_clk] <;> rfl

theorem clockFail_facts (s : State) (same : Bool) :
    let u := clockFail s same
    u.clk.sleep = s.clk.sleep ∧ (s.clk.gated = 0 → u.clk.gated = 0) ∧ u.clk.freeze = true ∧ u.clk.lockNoc = false ∧
      u.field.holdClock = true ∧ u.field.holdSleep = s.field.holdSleep ∧ u.fab.region = s.fab.region := by
  dsimp only
  unfold clockFail
  dsimp only
  generalize (if (same && refOk s s.clk.inUse.toNat) = true then some s.clk.inUse.toNat
    else if refOk s (1 - s.clk.inUse.toNat) = true then some (1 - s.clk.inUse.toNat) else none) = r
  obtain ⟨y, a, hclk, hsleep, hclock, hregion, hsteady⟩ := stopClocks_stages s
  have hfoot := relockTo_foot (stopClocks s) r (Nat.or_self _) (Foot.refl _ (stopClocks s))
  rw [relockTo_clk, show (relockTo (stopClocks s) r).field = (stopClocks s).field from hfoot.2 .field (by decide),
    show (relockTo (stopClocks s) r).fab = (stopClocks s).fab from hfoot.2 .fab (by decide), hsteady.holdClock, hsteady.holdSleep,
    hsteady.region]
  have hstop := hsteady.clk
  refine ⟨?_, fun hg => hsteady.gated (by rw [hclk]; exact hg), ?_, ?_, hclock, hsleep, hregion⟩ <;>
    · dsimp only
      rw [hstop, hclk]

theorem refOk_of_woken {s w : State} (h : w.clk = s.clk.woken) (r : Nat) : refOk w r = refOk s r := by
  rw [refOk, h]
  rfl

/-- What a wake leaves, whether its reference is good or lost (R429). -/
theorem wakeModule_facts (s : State) :
    let w := wakeModule s
    w.clk.sleep = .none ∧ w.clk.gated = 0 ∧ w.field.holdSleep = false ∧
      (∀ g : RegionId, (∀ o ∈ s.fab.owed, o ≠ g) → regionSt w g.val = .running) ∧
      (refOk s s.clk.inUse.toNat = true → w.clk.lockNoc = true ∧ w.clk.lockFab = true ∧ w.clk.lockSys = true) ∧
      (refOk s s.clk.inUse.toNat = false → w.clk.freeze = true ∧ w.clk.lockNoc = false ∧ w.field.holdClock = true) := by
  obtain ⟨hclk, hsleep, hregion⟩ := woken_facts s
  obtain ⟨fsleep, fgated, ffreeze, flock, fclock, fhold, fregion⟩ := clockFail_facts (woken s) false
  have heq := wakeModule_eq s
  rw [refOk_of_woken hclk, show (woken s).clk.inUse = s.clk.inUse by rw [hclk]; rfl] at heq
  dsimp only
  rw [heq]
  cases href : refOk s s.clk.inUse.toNat with
  | true =>
    rw [if_pos rfl, hclk]
    exact ⟨rfl, rfl, hsleep, hregion, fun _ => ⟨rfl, rfl, rfl⟩, fun h => absurd h (by decide)⟩
  | false =>
    rw [if_neg (by decide)]
    refine ⟨by rw [fsleep, hclk]; rfl, fgated (by rw [hclk]; rfl), fhold.trans hsleep, fun g hg => ?_,
      fun h => absurd h (by decide), fun _ => ⟨ffreeze, flock, fclock⟩⟩
    rw [regionSt, fregion]
    exact hregion g hg

/-- NETWORK_WAKE (R24, R414, R429). -/
theorem networkWake_wakes {s : State} {h : HostCh} {f : WakeFrame} (hs : s.clk.sleep = .entered) (hu : moduleUp s = true)
    (hw : wakes s h f = true) :
    ∃ u, exec (.networkWake h f) s = .next u ∧ u.clk.sleep = .none ∧ u.clk.gated = 0 ∧ u.field.holdSleep = false ∧ u.time = s.time ∧
      (∀ g : RegionId, (∀ o ∈ s.fab.owed, o ≠ g) → regionRuns u g = true) ∧
      (refOk s s.clk.inUse.toNat = true → u.clk.lockNoc = true ∧ u.clk.lockFab = true ∧ u.clk.lockSys = true) ∧
      (refOk s s.clk.inUse.toNat = false → u.clk.freeze = true ∧ u.clk.lockNoc = false ∧ u.field.holdClock = true) := by
  have hex : exec (.networkWake h f) s = .next (takeMark (wakeModule s)) := by
    show execNetworkWake h f s = _
    rw [execNetworkWake, if_pos ⟨hs, hu, hw⟩]
  have htime : (takeMark (wakeModule s)).time = s.time := (takeMark_foot (m := 0xFFFFFFFFD) _ (by decide)
    (wakeModule_foot s (by decide) (Foot.refl _ s))).2 .time (by decide)
  have hmark : Steady (wakeModule s) (takeMark (wakeModule s)) := takeMark_steady _
  obtain ⟨wsleep, wgated, whold, wregion, wgood, wlost⟩ := wakeModule_facts s
  generalize wakeModule s = w at *
  generalize takeMark w = u at *
  refine ⟨u, hex, ?_⟩
  rw [hmark.holdSleep, hmark.holdClock, hmark.gated wgated, hmark.clk]
  exact ⟨wsleep, rfl, whold, htime,
    fun g hg => by rw [regionRuns, regionSt, hmark.region]; exact decide_eq_true (wregion g hg), wgood, wlost⟩

end Sys2Proof.Machine
end

