-- ==== Sys2Proof/Proofs/ControllerFaults.lean ====
section
/-! SUPPORT. A controller fault: the fence, the tenants that move or lose their channel, and what is logged (R396, R412, R415). -/

namespace Sys2Proof.Machine

open Sys2Proof

/-! ### Controllers and the routes of tenants -/

/-- The shipped configuration of a CAN controller depends on its number, so that a map of both has two defaults. -/
theorem can_setCan_ne (s : State) {c b : CtrlId} (x : CanCtl) (h : b ≠ c) : can (setCan s c x) b = can s b := by
  have hv : b.val ≠ c.val := fun e => h (Fin.ext e)
  unfold can setCan SMap.set
  dsimp only
  split
  · exact SMap.get_del_ne _ _ hv
  · exact SMap.get_put_ne _ _ _ hv

/-- Every controller serves in `u` as in `s`, every tenant has the same channel, and the same sessions are open. -/
structure SameRoutes (s u : State) : Prop where
  service : ∀ h, ctrlService u h = ctrlService s h
  channel : ∀ t, channelOf u t = channelOf s t
  isOpen : ∀ k, (ses u k).isOpen = (ses s k).isOpen

theorem ctrlService_of_net {s u : State} (h : u.net = s.net) (i : HostCh) : ctrlService u i = ctrlService s i := by
  simp only [ctrlService, esc, can, h]

theorem channelOf_of_ten {s u : State} {t : Tenant} (ho : (ten u t).own = (ten s t).own) (hm : (ten u t).movedTo = (ten s t).movedTo) :
    channelOf u t = channelOf s t := by
  rw [channelOf, ho, hm]
  rfl

theorem channelOf_of_tenants {s u : State} (h : u.tenants = s.tenants) (t : Tenant) : channelOf u t = channelOf s t := by
  have ht := ten_of_tenants h t
  exact channelOf_of_ten (by rw [ht]) (by rw [ht])

namespace SameRoutes
variable {z s u : State}

theorem refl (s : State) : SameRoutes s s := ⟨fun _ => rfl, fun _ => rfl, fun _ => rfl⟩

theorem trans (h : SameRoutes z s) (g : SameRoutes s u) : SameRoutes z u :=
  ⟨fun i => (g.service i).trans (h.service i), fun t => (g.channel t).trans (h.channel t), fun k => (g.isOpen k).trans (h.isOpen k)⟩

/-- A step that changes no tenant, no session and nothing of the network. -/
theorem frame {m : Nat} (h : Foot m s u) (hm : m &&& 0x60000800 = 0) : SameRoutes s u := by
  have bit : ∀ c : Comp, (0x60000800 : Nat).testBit c.bit = true → sameIn s u c := fun c hc => h.2 c (by
    have := congrArg (fun n => n.testBit c.bit) hm
    simpa [Nat.testBit_and, hc] using this)
  have hses := ses_of_ses (bit .ses (by decide))
  exact ⟨ctrlService_of_net (bit .net (by decide)), channelOf_of_tenants (bit .tenants (by decide)), fun k => by rw [hses]⟩

theorem modCan (s : State) (c : CtrlId) {f : CanCtl → CanCtl} (hf : ∀ x, (f x).service = x.service) :
    SameRoutes s (Machine.modCan s c f) := by
  have hcan : ∀ b, (can (Machine.modCan s c f) b).service = (can s b).service := fun b => by
    by_cases hb : b = c
    · subst hb
      rw [can_modCan_same, hf]
    · rw [Machine.modCan, can_setCan_ne s _ hb]
  refine ⟨fun h => ?_, fun _ => rfl, fun _ => rfl⟩
  rw [ctrlService, hcan]
  rfl

theorem modEsc (s : State) (e : CtrlId) {f : Esc → Esc} (hf : ∀ x, (f x).service = x.service) :
    SameRoutes s (Machine.modEsc s e f) := by
  have hesc : ∀ b, (esc (Machine.modEsc s e f) b).service = (esc s b).service := fun b => by
    by_cases hb : b = e
    · subst hb
      rw [esc_modEsc_same, hf]
    · rw [Machine.modEsc, esc_setEsc_ne s _ hb]
  refine ⟨fun h => ?_, fun _ => rfl, fun _ => rfl⟩
  rw [ctrlService, hesc]
  rfl

theorem foldl {α : Type} {f : State → α → State} (hf : ∀ u a, SameRoutes u (f u a)) (l : List α) (s : State) :
    SameRoutes s (l.foldl f s) := by
  induction l generalizing s with
  | nil => exact refl s
  | cons a l ih => exact (hf s a).trans (ih _)

end SameRoutes

/-! ### Emergencies -/

theorem addHistory_isOpen (x : Session) (c : Half) (d : Bytes) : (addHistory x c d).isOpen = x.isOpen := by
  unfold addHistory
  split <;> rfl

theorem setSes_routes (s : State) (k : SesId) {x : Session} (h : x.isOpen = (ses s k).isOpen) : SameRoutes s (setSes s k x) := by
  refine ⟨fun _ => rfl, fun _ => rfl, fun j => ?_⟩
  by_cases hj : j = k
  · subst hj
    rw [ses_setSes_same, h]
  · rw [ses_setSes_ne s _ hj]

theorem modTen_suppressed_routes (s : State) (t : Tenant) :
    SameRoutes s (modTen s t fun v => { v with suppressed := satInc v.suppressed }) := by
  refine ⟨fun _ => rfl, fun r => ?_, fun _ => rfl⟩
  by_cases hr : r = t
  · subst hr
    exact channelOf_of_ten (by rw [ten_modTen_same]) (by rw [ten_modTen_same])
  · exact channelOf_of_ten (by rw [ten_modTen_ne s _ hr]) (by rw [ten_modTen_ne s _ hr])

theorem emcyTo_routes (s : State) (k : SesId) (c : Half) (d : Bytes) : SameRoutes s (emcyTo s k c d) := by
  unfold emcyTo
  dsimp only
  split
  · exact setSes_routes s k (addHistory_isOpen ..)
  · split
    · exact setSes_routes s k (addHistory_isOpen ..)
    · split
      · exact modTen_suppressed_routes s _
      · split
        · refine SameRoutes.trans ?_ (modTen_suppressed_routes _ _)
          exact setSes_routes s k rfl
        · exact setSes_routes s k rfl

theorem emergency_routes (s : State) (ts : List Tenant) (c : Half) (d : Bytes) : SameRoutes s (emergency s ts c d) :=
  SameRoutes.foldl (fun u t => by
    dsimp only
    split
    · exact (emcyTo_routes ..).trans (emcyTo_routes ..)
    · exact emcyTo_routes ..) ts s

theorem partFault_routes (s : State) (ts : List Tenant) (k n b : Nat) : SameRoutes s (partFault s ts k n b) :=
  (emergency_routes ..).trans (SameRoutes.frame (tideFault_foot _ 0 _ (Nat.or_self _) (Foot.refl _ _)) (by decide))

/-! ### Nodes and sessions -/

theorem bootNode_routes (s : State) (t : Tenant) : SameRoutes s (bootNode s t) := by
  have hnmt : ∀ v, SameRoutes s { s with net := { s.net with nmt := v } } := fun _ => ⟨fun _ => rfl, fun _ => rfl, fun _ => rfl⟩
  unfold bootNode
  split
  · split
    · exact (hnmt _).trans (SameRoutes.modCan _ _ fun _ => rfl)
    · exact hnmt _
  · exact hnmt _

theorem ses_closeSes_ne (s : State) {k j : SesId} (h : j ≠ k) : ses (closeSes s k) j = ses s j := by
  unfold closeSes
  split
  · exact ses_modSes_ne s _ h
  · rfl

theorem closeSes_isOpen (s : State) (k : SesId) : (ses (closeSes s k) k).isOpen = false := by
  unfold closeSes
  split
  · rw [ses_modSes_same]
  · exact Bool.eq_false_iff.mpr ‹_›

theorem openSes_eq_self {s : State} {k : SesId} (h : (ses s k).isOpen = true) : openSes s k = s := by
  rw [openSes, if_pos h]

theorem openSes_isOpen (s : State) (k : SesId) : (ses (openSes s k) k).isOpen = true := by
  unfold openSes
  split
  · assumption
  · rw [ses_modSes_same]

theorem ses_openSes_ne (s : State) {k j : SesId} (h : j ≠ k) : ses (openSes s k) j = ses s j := by
  unfold openSes
  split
  · rfl
  · exact ses_modSes_ne s _ h

theorem tenSes_ne_four (t : Tenant) : tenSes t ≠ 4 := by revert t; decide

/-! ### Tenants of the faulted controller -/

/-- A move names the new channel of its tenant and of no other; every controller serves as before (R412). -/
theorem moveTenant_facts (s : State) (old new : HostCh) (t : Tenant) :
    (∀ h, ctrlService (moveTenant s old new t) h = ctrlService s h) ∧
    ∀ r, channelOf (moveTenant s old new t) r = if r = t then (channelOf s r).map fun _ => new else channelOf s r := by
  have hclose := closeSes_foot s (tenSes t) (Nat.or_self _) (Foot.refl _ s)
  let s1 := modTen (closeSes s (tenSes t)) t fun x => { x with movedTo := some new }
  let s2 := modSes s1 (tenSes t) fun x => moveCobs x (tenNode s t) (tenNode s1 t)
  have hboot : SameRoutes s2 (bootNode s2 t) := bootNode_routes s2 t
  have hsync := syncSes_foot (bootNode s2 t) t (Nat.or_self _) (Foot.refl _ _)
  have hemcy : SameRoutes (syncSes (bootNode s2 t) t) (moveTenant s old new t) := emcyTo_routes ..
  refine ⟨fun h => ?_, fun r => ?_⟩
  · rw [hemcy.service, ctrlService_of_net (hsync.2 .net (by decide)), hboot.service]
    exact ctrlService_of_net (hclose.2 .net (by decide)) h
  · rw [hemcy.channel, channelOf_of_tenants (hsync.2 .tenants (by decide)), hboot.channel]
    have hten := ten_of_tenants (hclose.2 .tenants (by decide)) r
    show channelOf s1 r = _
    by_cases hr : r = t
    · subst hr
      simp only [channelOf, s1, ten_modTen_same, hten, if_true]
      cases (ten s r).own <;> rfl
    · rw [if_neg hr]
      exact channelOf_of_ten (by rw [ten_modTen_ne _ _ hr, hten]) (by rw [ten_modTen_ne _ _ hr, hten])

theorem foldl_moveTenant_facts (l : List Tenant) (s : State) (old new : HostCh) :
    (∀ h, ctrlService (l.foldl (fun u t => moveTenant u old new t) s) h = ctrlService s h) ∧
    ∀ r, channelOf (l.foldl (fun u t => moveTenant u old new t) s) r =
      if r ∈ l then (channelOf s r).map fun _ => new else channelOf s r := by
  induction l generalizing s with
  | nil => exact ⟨fun _ => rfl, fun _ => rfl⟩
  | cons t l ih =>
    obtain ⟨hservice, hchannel⟩ := moveTenant_facts s old new t
    obtain ⟨ihservice, ihchannel⟩ := ih (moveTenant s old new t)
    refine ⟨fun h => (ihservice h).trans (hservice h), fun r => ?_⟩
    rw [List.foldl_cons, ihchannel, hchannel]
    by_cases hr : r = t <;> simp [hr, Function.comp_def]

/-- A tenant whose channel is lost: its session closes and its node waits on the same channel (R412). -/
theorem loseChannel_facts (s : State) (t : Tenant) :
    let u := bootNode (closeSes s (tenSes t)) t
    (∀ h, ctrlService u h = ctrlService s h) ∧ (∀ r, channelOf u r = channelOf s r) ∧ (ses u (tenSes t)).isOpen = false ∧
      ∀ k, (ses s k).isOpen = false → (ses u k).isOpen = false := by
  have hclose := closeSes_foot s (tenSes t) (Nat.or_self _) (Foot.refl _ s)
  have hboot := bootNode_routes (closeSes s (tenSes t)) t
  refine ⟨fun h => ?_, fun r => ?_, ?_, fun k hk => ?_⟩
  · rw [hboot.service, ctrlService_of_net (hclose.2 .net (by decide))]
  · rw [hboot.channel, channelOf_of_tenants (hclose.2 .tenants (by decide))]
  · rw [hboot.isOpen, closeSes_isOpen]
  · rw [hboot.isOpen]
    by_cases hs : k = tenSes t
    · rw [hs, closeSes_isOpen]
    · rw [ses_closeSes_ne s hs, hk]

theorem foldl_loseChannel_facts (l : List Tenant) (s : State) :
    let u := l.foldl (fun u t => bootNode (closeSes u (tenSes t)) t) s
    (∀ h, ctrlService u h = ctrlService s h) ∧ (∀ r, channelOf u r = channelOf s r) ∧
      (∀ t ∈ l, (ses u (tenSes t)).isOpen = false) ∧ ∀ k, (ses s k).isOpen = false → (ses u k).isOpen = false := by
  induction l generalizing s with
  | nil => exact ⟨fun _ => rfl, fun _ => rfl, fun _ ht => absurd ht List.not_mem_nil, fun _ h => h⟩
  | cons t l ih =>
    obtain ⟨hservice, hchannel, hclosed, hstays⟩ := loseChannel_facts s t
    obtain ⟨ihservice, ihchannel, ihclosed, ihstays⟩ := ih (bootNode (closeSes s (tenSes t)) t)
    refine ⟨fun h => (ihservice h).trans (hservice h), fun r => (ihchannel r).trans (hchannel r), fun r hr => ?_,
      fun k hk => ihstays k (hstays k hk)⟩
    rcases List.mem_cons.mp hr with rfl | hr
    · exact ihstays _ hclosed
    · exact ihclosed r hr

/-! ### The fault -/

theorem ctrlService_setCtrlService (s : State) (h : HostCh) (v : CtrlService) : ctrlService (setCtrlService s h v) h = v := by
  unfold ctrlService setCtrlService
  split
  · rw [esc_modEsc_same]
  · rw [can_modCan_same]

theorem mem_boundTo {s : State} {h : HostCh} {t : Tenant} : t ∈ boundTo s h ↔ channelOf s t = some h := by
  simp [boundTo, allTenants]

/-- The controller out of service: stopped, fenced, its sluice closing, and the replacement told. -/
def fencedCtrl (s : State) (h : HostCh) (n : NiId) : State :=
  sendClear (closeNi (setCtrlService (stopCtrl s h) h .fenced) n.val .draining) n n true

theorem fencedCtrl_facts (s : State) (h : HostCh) (n : NiId) :
    ctrlService (fencedCtrl s h n) h = .fenced ∧ (∀ t, channelOf (fencedCtrl s h n) t = channelOf s t) ∧
      (fencedCtrl s h n).obs = s.obs := by
  have hset := setCtrlService_foot (m := 0x40000000) (stopCtrl s h) h .fenced (Nat.or_self _)
    (stopCtrl_foot s h (Nat.or_self _) (Foot.refl _ s))
  have hfence : Foot 0x800000 (setCtrlService (stopCtrl s h) h .fenced) (fencedCtrl s h n) :=
    sendClear_foot _ n n true (Nat.or_self _) (closeNi_foot _ n.val .draining (Nat.or_self _) (Foot.refl _ _))
  have hroutes := SameRoutes.frame hfence (by decide)
  refine ⟨by rw [hroutes.service, ctrlService_setCtrlService], fun t => ?_, ?_⟩
  · rw [hroutes.channel, channelOf_of_tenants (hset.2 .tenants (by decide))]
  · exact (show (fencedCtrl s h n).obs = _ from hfence.2 .obs (by decide)).trans (hset.2 .obs (by decide))

/-- The tenants of a faulted controller, which move to a partner in service or lose their channel. -/
def rehome (s : State) (ts : List Tenant) (old new : HostCh) (able : Bool) : State :=
  if able then ts.foldl (fun u t => moveTenant u old new t) s else ts.foldl (fun u t => bootNode (closeSes u (tenSes t)) t) s

theorem rehome_foot (s : State) (ts : List Tenant) (old new : HostCh) (able : Bool) :
    Foot 0x60000800 s (rehome s ts old new able) := by
  refine Foot.ite (Foot.foldl (Foot.refl _ s) fun u t h => moveTenant_foot u old new t (Nat.or_self _) h)
    (Foot.foldl (Foot.refl _ s) fun u t h => bootNode_foot _ t (by decide) (closeSes_foot u _ (by decide) h))

theorem rehome_facts (s : State) (ts : List Tenant) (old new : HostCh) (able : Bool) :
    let u := rehome s ts old new able
    (∀ h, ctrlService u h = ctrlService s h) ∧ ∀ t ∈ ts,
      (able = true → channelOf u t = (channelOf s t).map fun _ => new) ∧
      (able = false → channelOf u t = channelOf s t ∧ (ses u (tenSes t)).isOpen = false) := by
  cases able with
  | true =>
    obtain ⟨hservice, hchannel⟩ := foldl_moveTenant_facts ts s old new
    exact ⟨hservice, fun t ht => ⟨fun _ => (hchannel t).trans (if_pos ht), fun h => absurd h (by decide)⟩⟩
  | false =>
    obtain ⟨hservice, hchannel, hclosed, -⟩ := foldl_loseChannel_facts ts s
    exact ⟨hservice, fun t ht => ⟨fun h => absurd h (by decide), fun _ => ⟨hchannel t, hclosed t ht⟩⟩⟩

theorem ctrlFault_eq {s : State} {h : HostCh} (hs : ctrlService s h = .inService) :
    ∃ n a, ctrlFault s h = partFault (rehome (logEvent (fencedCtrl s h n) 0x0901 2 (boundTo s h) h.val 1 []) (boundTo s h) h (partnerOf h)
      (decide (ctrlService s (partnerOf h) = .inService))) [] 5 h.val a := by
  refine ⟨Fin.ofNat 48 ([1, 11, 13, 23].getD h.val 1), (!decide (ctrlService s (partnerOf h) = .inService)).toNat, ?_⟩
  rw [ctrlFault, if_neg (by simp [hs])]
  rfl

/-! ### The log -/

theorem logEvent_log (s : State) (c : Half) (v : BitVec 2) (ts : List Tenant) (i a : Nat) (b : Bytes) :
    ∃ e, (logEvent s c v ts i a b).obs.log = (e :: s.obs.log).take 1024 ∧ e.code = c := ⟨_, rfl, rfl⟩

theorem tideFault_log (s : State) (b : Nat) (c : Half) : (tideFault s b c).obs.log = s.obs.log := by
  unfold tideFault markDue
  split
  · split
    · split <;> rfl
    · rfl
  · rfl

theorem partFault_log (s : State) (ts : List Tenant) (k n b : Nat) : (partFault s ts k n b).obs.log = s.obs.log := by
  have hemcy : ∀ l d, (emergency s l 0x5010 d).obs = s.obs := fun l d =>
    (emergency_foot s l 0x5010 d (Nat.or_self _) (Foot.refl _ s)).2 .obs (by decide)
  rw [partFault, tideFault_log, hemcy]

theorem foldl_captureRegion_foot (l : List Nat) (s : State) : Foot 0x8000000 s (l.foldl captureRegion s) :=
  Foot.foldl (Foot.refl _ s) fun u k h => captureRegion_foot u k (Nat.or_self _) h

/-- A tide mark logs one entry or none. -/
theorem takeMark_log (s : State) :
    (takeMark s).obs.log = s.obs.log ∨ ∃ e, (takeMark s).obs.log = (e :: s.obs.log).take 1024 := by
  unfold takeMark
  split
  · exact .inl rfl
  · dsimp only
    split
    · exact .inl rfl
    · split
      · exact .inl rfl
      · split
        · exact .inr ⟨_, rfl⟩
        · generalize hx : logEvent _ 0x0C01 0 [] 0 _ _ = x
          have hlog : ∃ e, x.obs.log = (e :: s.obs.log).take 1024 := by
            subst hx
            obtain ⟨e, he, -⟩ := logEvent_log _ _ _ _ _ _ _
            exact ⟨e, he⟩
          have hobs : ((List.range 8).foldl captureRegion x).obs = x.obs :=
            (foldl_captureRegion_foot (List.range 8) x).2 .obs (by decide)
          obtain ⟨e, he⟩ := hlog
          generalize (List.range 8).foldl captureRegion x = y at hobs ⊢
          exact .inr ⟨e, by rw [← he, ← hobs]; rfl⟩

theorem hasLogged_takeMark {s w : State} {c : Half} (h : ∃ e, w.obs.log = (e :: s.obs.log).take 1024 ∧ e.code = c) :
    hasLogged s (takeMark w) c := by
  obtain ⟨e, h, rfl⟩ := h
  rcases takeMark_log w with hm | ⟨m, hm⟩
  · exact ⟨[], e, [], by rw [hm, h]; rfl, rfl⟩
  · refine ⟨[m], e, [], ?_, rfl⟩
    rw [hm, h]
    simp [List.take_succ_cons, List.take_take]

/-- CONTROLLER_FAULT (R396, R412, R415). -/
theorem controllerFault_fences {s : State} {h : HostCh} (hs : ctrlService s h = .inService) (hu : moduleUp s = true) :
    ∃ u, exec (.controllerFault h) s = .next u ∧ ctrlService u h = .fenced ∧ hasLogged s u 0x0901 ∧
      ∀ t, channelOf s t = some h →
        (ctrlService s (partnerOf h) = .inService → channelOf u t = some (partnerOf h)) ∧
        (ctrlService s (partnerOf h) ≠ .inService → channelOf u t = some h ∧ (ses u (tenSes t)).isOpen = false) := by
  obtain ⟨n, a, heq⟩ := ctrlFault_eq hs
  obtain ⟨ffenced, fchannel, fobs⟩ := fencedCtrl_facts s h n
  let s1 := logEvent (fencedCtrl s h n) 0x0901 2 (boundTo s h) h.val 1 []
  let s2 := rehome s1 (boundTo s h) h (partnerOf h) (decide (ctrlService s (partnerOf h) = .inService))
  change ctrlFault s h = partFault s2 [] 5 h.val a at heq
  obtain ⟨rservice, rtenants⟩ := rehome_facts s1 (boundTo s h) h (partnerOf h) (decide (ctrlService s (partnerOf h) = .inService))
  have hlog : SameRoutes (fencedCtrl s h n) s1 :=
    SameRoutes.frame (logEvent_foot _ 0x0901 2 (boundTo s h) h.val 1 [] (Nat.or_self _) (Foot.refl _ _)) (by decide)
  have hend : SameRoutes s2 (takeMark (ctrlFault s h)) := by
    rw [heq]
    exact (partFault_routes s2 [] 5 h.val a).trans
      (SameRoutes.frame (takeMark_foot _ (Nat.or_self _) (Foot.refl _ _)) (by decide))
  refine ⟨takeMark (ctrlFault s h), ?_, ?_, ?_, fun t ht => ?_⟩
  · show execControllerFault h s = _
    rw [execControllerFault, if_pos hu]
  · rw [hend.service, rservice, hlog.service, ffenced]
  · have hobs : s2.obs = s1.obs := (rehome_foot s1 _ _ _ _).2 .obs (by decide)
    refine hasLogged_takeMark ?_
    rw [heq, partFault_log, hobs, ← fobs]
    exact logEvent_log ..
  · obtain ⟨hmoves, hloses⟩ := rtenants t (mem_boundTo.mpr ht)
    have hs1 : channelOf s1 t = some h := by rw [hlog.channel, fchannel, ht]
    refine ⟨fun hp => ?_, fun hp => ?_⟩
    · rw [hend.channel, hmoves (decide_eq_true hp), hs1]
      rfl
    · obtain ⟨hc, ho⟩ := hloses (decide_eq_false hp)
      exact ⟨by rw [hend.channel, hc, hs1], by rw [hend.isOpen, ho]⟩

end Sys2Proof.Machine
end

