-- ==== Sys2Proof/Proofs/ControllersAndPorts.lean ====
section
/-! O53: controller faults, network wake and the maintenance port (R24, R396, R412–R415, R429, R501). -/

namespace Sys2Proof.Machine

open Sys2Proof

theorem ctrlService_canCh (s : State) (c : CtrlId) : ctrlService s (canCh c) = (can s c).service := by
  fin_cases c <;> rfl

theorem canStby_iff (s : State) (c : CtrlId) : canStby s c = true ↔ (can s c).service ≠ .inService ∨ moduleUp s = false := by
  simp [canStby]

theorem canStby_of_fenced {s : State} {c : CtrlId} (h : ctrlService s (canCh c) = .fenced) : canStby s c = true := by
  rw [canStby_iff, ← ctrlService_canCh, h]
  exact .inl (by decide)

theorem controllerFault_noop {s : State} {h : HostCh} (hd : s.obs.due = none)
    (hs : ctrlService s h ≠ .inService ∨ moduleUp s = false) : exec (.controllerFault h) s = .next s := by
  show execControllerFault h s = _
  rw [execControllerFault]
  rcases hs with hs | hs
  · rw [ctrlFault, if_pos hs, ite_self, takeMark_none hd]
  · rw [if_neg (by simp [hs]), takeMark_none hd]

theorem networkWake_noop {s : State} {h : HostCh} {f : WakeFrame} (hd : s.obs.due = none)
    (hs : s.clk.sleep ≠ .entered ∨ moduleUp s = false ∨ wakes s h f = false) : exec (.networkWake h f) s = .next s := by
  show execNetworkWake h f s = _
  rw [execNetworkWake, if_neg, takeMark_none hd]
  rintro ⟨hsleep, hup, hw⟩
  rcases hs with hs | hs | hs
  · exact hs hsleep
  · simp [hs] at hup
  · simp [hs] at hw

/-! ### Maintenance frames (R501) -/

theorem leBytes_ofLe (d : Bytes) : leBytes d.length (ofLe d) = d := by
  induction d with
  | nil => rfl
  | cons b d ih =>
    have hb := b.isLt
    rw [List.length_cons, ofLe, leBytes, show (b.toNat + 256 * ofLe d) / 256 = ofLe d by omega, ih]
    congr 1
    apply BitVec.eq_of_toNat_eq
    rw [BitVec.toNat_ofNat]
    omega

/-- A frame with a message of 1 to 64 bytes is taken where its last two bytes are the CRC. -/
theorem maintMessage_frame {m e : Bytes} (h1 : 1 ≤ m.length) (h64 : m.length ≤ 64) (he : e.length = 2) :
    maintMessage (0x7E :: (leBytes 2 m.length ++ m) ++ e) =
      if e = leBytes 2 (crc16 (leBytes 2 m.length ++ m)).toNat then some m else none := by
  obtain ⟨a, b, hab⟩ : ∃ a b, leBytes 2 m.length = [a, b] := ⟨_, _, rfl⟩
  have hlen : ofLe [a, b] = m.length := by
    rw [← hab, ofLe_leBytes, Nat.mod_eq_of_lt (by omega)]
  rw [hab]
  generalize hd : 0x7E :: ([a, b] ++ m) ++ e = d
  have hn : leAt d 1 2 = m.length := by
    rw [← hlen, ← hd]
    rfl
  have hbody : slice d 1 (m.length + 2) = [a, b] ++ m := by
    subst hd
    simp [slice, List.take_succ_cons]
  have htail : slice d (3 + m.length) 2 = e := by
    subst hd
    rw [slice, show 3 + m.length = (0x7E :: ([a, b] ++ m)).length by simp; omega, List.drop_left, List.take_of_length_le (by omega)]
  have hmsg : slice d 3 m.length = m := by
    subst hd
    simp [slice]
  have hfirst : leAt d 0 1 = 0x7E := by
    subst hd
    rfl
  have hsize : d.length = m.length + 5 := by
    subst hd
    simp [he]
  have hcrc : leAt d (3 + m.length) 2 = (crc16 ([a, b] ++ m)).toNat ↔ e = leBytes 2 (crc16 ([a, b] ++ m)).toNat := by
    rw [leAt, htail]
    refine ⟨fun h => ?_, fun h => ?_⟩
    · rw [← h, ← he, leBytes_ofLe]
    · have := (crc16 ([a, b] ++ m)).isLt
      rw [h, ofLe_leBytes, Nat.mod_eq_of_lt (by omega)]
  simp only [maintMessage, hn, hbody, hmsg, hfirst, hsize, hcrc, h1, h64, true_and]

theorem maintenanceFrame_noop {s : State} {d : Bytes}
    (h : moduleUp s = false ∨ s.clk.sleep = .entered ∨ s.net.maintOk = false ∨ maintMessage d = none) :
    exec (.maintenanceFrame d) s = .next s := by
  show execMaintenanceFrame d s = _
  rw [execMaintenanceFrame]
  rcases h with h | h | h | h
  · simp [h]
  · simp [h]
  · simp [h]
  · rw [h, ite_self]

section
variable {s : State} {d m : Bytes}

/-- A message that is no USDO request opens T0's session only. -/
theorem maintenanceFrame_opens (hu : moduleUp s = true) (hs : s.clk.sleep ≠ .entered) (ho : s.net.maintOk = true)
    (hm : maintMessage d = some m) (hr : usdoOf m = none) : exec (.maintenanceFrame d) s = .next (openSes s 4) := by
  show execMaintenanceFrame d s = _
  simp [execMaintenanceFrame, hu, hs, ho, hm, hr]

/-- A request is served in T0's session, and its reply is due. -/
theorem maintenanceFrame_serves {r : SdoReq} (hu : moduleUp s = true) (hs : s.clk.sleep ≠ .entered) (ho : s.net.maintOk = true)
    (hm : maintMessage d = some m) (hr : usdoOf m = some r) : exec (.maintenanceFrame d) s =
      .next { serve (openSes s 4) 4 r with net := { (serve (openSes s 4) 4 r).net with sp1Ready := true } } := by
  show execMaintenanceFrame d s = _
  simp [execMaintenanceFrame, hu, hs, ho, hm, hr]

end

theorem sameBut_net (w : State) (n : Net) : sameBut [.net] w { w with net := n } :=
  (Foot.up_net (Foot.refl _ w) (by decide)).sameBut

theorem sesUp_openSes {s : State} {k : SesId} (hu : moduleUp s = true) : sesUp (openSes s k) k = true := by
  have hstart : (openSes s k).start = s.start := (openSes_foot s k (Nat.or_self _) (Foot.refl _ s)).2 .start (by decide)
  rw [sesUp, openSes_isOpen, moduleUp, hstart]
  exact hu

theorem hostRead_reply {s : State} {k : SesId} (index sub : Nat) (h : sesUp s k = true) :
    (ses (hostRead s k index sub) k).reply =
      some (if (objRead s k index sub).1 = 0 then ⟨0, (objRead s k index sub).2.1⟩ else ⟨(objRead s k index sub).1, []⟩) := by
  rw [hostRead, if_neg (by simp [h])]
  dsimp only
  rw [answer, ses_modSes_same]
  split <;> rfl

theorem maintenanceFrame_result {s : State} (m d : Bytes) (i : Half) (b : Byte) (hu : moduleUp s = true)
    (hs : s.clk.sleep ≠ .entered) (ho : s.net.maintOk = true) :
    let body := leBytes 2 m.length ++ m
    let frame := 0x7E :: body ++ leBytes 2 (crc16 body).toNat
    let z := openSes s 4
    let serves := fun (w : State) => ∃ u, exec (.maintenanceFrame frame) s = .next u ∧ sameBut [.net] w u ∧
      u.net = { w.net with sp1Ready := true }
    1 ≤ m.length → m.length ≤ 64 →
      (∀ e : Bytes, e.length = 2 → e ≠ leBytes 2 (crc16 body).toNat → exec (.maintenanceFrame (0x7E :: body ++ e)) s = .next s) ∧
      ((ses z 4).isOpen = true ∧ ((ses s 4).isOpen = true → z = s) ∧ ∀ t, ses z (tenSes t) = ses s (tenSes t)) ∧
      (usdoOf m = none → exec (.maintenanceFrame frame) s = .next z) ∧
      (usdoOf m = some (.download i b d) → ∃ w, exec (.registerWrite 4 i b d) z = .next w ∧ serves w) ∧
      (usdoOf m = some (.upload i b) →
        let a := objRead z 4 i.toNat b.toNat
        ∃ u, exec (.maintenanceFrame frame) s = .next u ∧ u.net.sp1Ready = true ∧
          (ses u 4).reply = some (if a.1 = 0 then ⟨0, a.2.1⟩ else ⟨a.1, []⟩)) := by
  intro body frame z serves h1 h64
  have htaken : maintMessage frame = some m := by
    rw [maintMessage_frame h1 h64 (length_leBytes ..), if_pos rfl]
  refine ⟨fun e he hne => ?_, ⟨openSes_isOpen s 4, openSes_eq_self, fun t => ses_openSes_ne s (tenSes_ne_four t)⟩,
    maintenanceFrame_opens hu hs ho htaken, fun hm => ?_, fun hm => ?_⟩
  · exact maintenanceFrame_noop (.inr (.inr (.inr (by rw [maintMessage_frame h1 h64 he, if_neg hne]))))
  · exact ⟨_, rfl, _, maintenanceFrame_serves hu hs ho htaken hm, sameBut_net .., rfl⟩
  · exact ⟨_, maintenanceFrame_serves hu hs ho htaken hm, rfl, hostRead_reply i.toNat b.toNat (sesUp_openSes hu)⟩

theorem maintenanceSilence_result (s : State) : runs .maintenanceSilence s [.ses, .net] fun u =>
    u.net = { s.net with sp1Ready := false } ∧ (ses u 4).isOpen = false ∧ ∀ t, ses u (tenSes t) = ses s (tenSes t) := by
  have hclose := closeSes_foot (m := maskOf [.ses, .net]) s 4 (by decide) (Foot.refl _ s)
  have hnet : (closeSes s 4).net = s.net := (closeSes_foot s 4 (Nat.or_self _) (Foot.refl _ s)).2 .net (by decide)
  refine ⟨_, rfl, ⟨by rw [hnet], closeSes_isOpen s 4, fun t => ses_closeSes_ne s (tenSes_ne_four t)⟩, ?_⟩
  exact (Foot.up_net hclose (by decide)).sameBut

/-- Settles O53: a faulted controller by the routes of its tenants, the wake by what stays steady after it, the maintenance port by the
messages that it takes. -/
theorem controllersAndPorts : Obligations.ControllersAndPorts := by
  unfold Obligations.ControllersAndPorts
  intro s h f d m i b c p
  refine ⟨fun hs hu => ?_, canStby_iff s c, fun hd => ⟨controllerFault_noop hd, networkWake_noop hd⟩, networkWake_wakes,
    maintenanceFrame_noop, maintenanceFrame_result m d i b, maintenanceSilence_result s⟩
  obtain ⟨u, hex, hfenced, hlog, htenants⟩ := controllerFault_fences hs hu
  exact ⟨u, hex, hfenced, fun hc => canStby_of_fenced (hc ▸ hfenced), hlog, htenants⟩

end Sys2Proof.Machine
end

