-- ==== Sys2Proof/Proofs/Invariant.lean ====
section
/-! SUPPORT. Each command and each idle microsecond keep the invariant. -/

namespace Sys2Proof.Machine

/-- Every command answers, and its next state keeps the queue, the counters and the invariant. -/
theorem exec_keeps {z : State} (c : Instr) (s : State) (hk : Keeps none z s) : ∃ u, exec c s = .next u ∧ Keeps none z u :=
  match c with
  | .logic t f => execLogic_keeps t f s hk
  | .kset t f => execKset_keeps t f s hk
  | .kand t f => execKand_keeps t f s hk
  | .kor t f => execKor_keeps t f s hk
  | .kall t f => execKall_keeps t f s hk
  | .knot t f => execKnot_keeps t f s hk
  | .fset t f => execFset_keeps t f s hk
  | .add t f => execAdd_keeps t f s hk
  | .addc t f => execAddc_keeps t f s hk
  | .sub t f => execSub_keeps t f s hk
  | .subb t f => execSubb_keeps t f s hk
  | .mul t f => execMul_keeps t f s hk
  | .mulw t f => execMulw_keeps t f s hk
  | .div t f => execDiv_keeps t f s hk
  | .mod t f => execMod_keeps t f s hk
  | .neg t f => execNeg_keeps t f s hk
  | .min t f => execMin_keeps t f s hk
  | .max t f => execMax_keeps t f s hk
  | .cmpeq t f => execCmpeq_keeps t f s hk
  | .cmpne t f => execCmpne_keeps t f s hk
  | .cmplt t f => execCmplt_keeps t f s hk
  | .cmple t f => execCmple_keeps t f s hk
  | .fadd t f => execFadd_keeps t f s hk
  | .fsub t f => execFsub_keeps t f s hk
  | .fmul t f => execFmul_keeps t f s hk
  | .fdiv t f => execFdiv_keeps t f s hk
  | .fma t f => execFma_keeps t f s hk
  | .fsqrt t f => execFsqrt_keeps t f s hk
  | .fmin t f => execFmin_keeps t f s hk
  | .fmax t f => execFmax_keeps t f s hk
  | .fcmpeq t f => execFcmpeq_keeps t f s hk
  | .fcmplt t f => execFcmplt_keeps t f s hk
  | .fcmple t f => execFcmple_keeps t f s hk
  | .fcvt t f => execFcvt_keeps t f s hk
  | .fcvti t f => execFcvti_keeps t f s hk
  | .fcvtf t f => execFcvtf_keeps t f s hk
  | .fneg t f => execFneg_keeps t f s hk
  | .fabs t f => execFabs_keeps t f s hk
  | .shl t f => execShl_keeps t f s hk
  | .shrl t f => execShrl_keeps t f s hk
  | .shra t f => execShra_keeps t f s hk
  | .rol t f => execRol_keeps t f s hk
  | .xn t f => execXn_keeps t f s hk
  | .xe t f => execXe_keeps t f s hk
  | .xs t f => execXs_keeps t f s hk
  | .xw t f => execXw_keeps t f s hk
  | .rany t f => execRany_keeps t f s hk
  | .rmax t f => execRmax_keeps t f s hk
  | .rmin t f => execRmin_keeps t f s hk
  | .rsum t f => execRsum_keeps t f s hk
  | .pld t f => execPld_keeps t f s hk
  | .padd t f => execPadd_keeps t f s hk
  | .pst t f => execPst_keeps t f s hk
  | .sadd t f => execSadd_keeps t f s hk
  | .ssub t f => execSsub_keeps t f s hk
  | .sand t f => execSand_keeps t f s hk
  | .sor t f => execSor_keeps t f s hk
  | .sxor t f => execSxor_keeps t f s hk
  | .sshl t f => execSshl_keeps t f s hk
  | .sshr t f => execSshr_keeps t f s hk
  | .ssra t f => execSsra_keeps t f s hk
  | .sli t f => execSli_keeps t f s hk
  | .slda t f => execSlda_keeps t f s hk
  | .sgett t f => execSgett_keeps t f s hk
  | .br t f => execBr_keeps t f s hk
  | .bany t f => execBany_keeps t f s hk
  | .bnone t f => execBnone_keeps t f s hk
  | .beq t f => execBeq_keeps t f s hk
  | .bne t f => execBne_keeps t f s hk
  | .blt t f => execBlt_keeps t f s hk
  | .bltu t f => execBltu_keeps t f s hk
  | .dbnz t f => execDbnz_keeps t f s hk
  | .call t f => execCall_keeps t f s hk
  | .ret t f => execRet_keeps t f s hk
  | .ckpt t f => execCkpt_keeps t f s hk
  | .fbar t f => execFbar_keeps t f s hk
  | .waitev t f => execWaitev_keeps t f s hk
  | .trap t f => execTrap_keeps t f s hk
  | .gang t f => execGang_keeps t f s hk
  | .brclm t f => execBrclm_keeps t f s hk
  | .fclr t f => execFclr_keeps t f s hk
  | .ften t f => execFten_keeps t f s hk
  | .rtt t f => execRtt_keeps t f s hk
  | .endOrder t f => execEnd_keeps t f s hk
  | .inarm t f => execInarm_keeps t f s hk
  | .inwait t f => execInwait_keeps t f s hk
  | .outp t f => execOutp_keeps t f s hk
  | .outs t f => execOuts_keeps t f s hk
  | .outf t f => execOutf_keeps t f s hk
  | .planeLog q w => execPlaneLog_keeps q w s hk
  | .planeAdd q w => execPlaneAdd_keeps q w s hk
  | .news q dir ls w => execNews_keeps q dir ls w s hk
  | .addrImm q w => execAddrImm_keeps q w s hk
  | .addrAdd q w => execAddrAdd_keeps q w s hk
  | .addrScalar q w => execAddrScalar_keeps q w s hk
  | .addrCopy q w => execAddrCopy_keeps q w s hk
  | .addrWrap q w => execAddrWrap_keeps q w s hk
  | .addrSlide q w => execAddrSlide_keeps q w s hk
  | .addrPlain q w => execAddrPlain_keeps q w s hk
  | .scalAdd q w => execScalAdd_keeps q w s hk
  | .scalAddi q w => execScalAddi_keeps q w s hk
  | .scalSub q w => execScalSub_keeps q w s hk
  | .scalAnd q w => execScalAnd_keeps q w s hk
  | .scalOr q w => execScalOr_keeps q w s hk
  | .scalXor q w => execScalXor_keeps q w s hk
  | .scalShl q w => execScalShl_keeps q w s hk
  | .scalShr q w => execScalShr_keeps q w s hk
  | .scalLi q w => execScalLi_keeps q w s hk
  | .scalShi q w => execScalShi_keeps q w s hk
  | .scalField q w => execScalField_keeps q w s hk
  | .scalHsb q w => execScalHsb_keeps q w s hk
  | .scalGet q w => execScalGet_keeps q w s hk
  | .scalMem q w => execScalMem_keeps q w s hk
  | .scalSetlc q w => execScalSetlc_keeps q w s hk
  | .scalScan q w => execScalScan_keeps q w s hk
  | .wait q w => execWait_keeps q w s hk
  | .waitConditionMet q => execWaitConditionMet_keeps q s hk
  | .microTimeout q => execMicroTimeout_keeps q s hk
  | .microBr q w => execMicroBr_keeps q w s hk
  | .microCall q w => execMicroCall_keeps q w s hk
  | .microRet q w => execMicroRet_keeps q w s hk
  | .loop q w => execLoop_keeps q w s hk
  | .gor q w => execGor_keeps q w s hk
  | .gorResultDelivery q device failed => execGorResultDelivery_keeps q device failed s hk
  | .bcast q w => execBcast_keeps q w s hk
  | .trapchkRaise q w => execTrapchkRaise_keeps q w s hk
  | .trapchkBoundary q w => execTrapchkBoundary_keeps q w s hk
  | .reschkSum q w => execReschkSum_keeps q w s hk
  | .reschkProd q w => execReschkProd_keeps q w s hk
  | .reschkClear q w => execReschkClear_keeps q w s hk
  | .flagOrResult t => execFlagOrResult_keeps t s hk
  | .machineCheck src => execMachineCheck_keeps src s hk
  | .wcsScan q => execWcsScan_keeps q s hk
  | .patchBundle ses data => execPatchBundle_keeps ses data s hk
  | .migration src dst => execMigration_keeps src dst s hk
  | .tileRetestMarchComplete p passed => execTileRetestMarchComplete_keeps p passed s hk
  | .sparePeriodicMarch p passed => execSparePeriodicMarch_keeps p passed s hk
  | .polderRampDwellEnd p => execPolderRampDwellEnd_keeps p s hk
  | .idleHoldExpiry t => execIdleHoldExpiry_keeps t s hk
  | .submit ses t data => execSubmit_keeps ses t data s hk
  | .orderStart t => execOrderStart_keeps t s hk
  | .unprotected t => execUnprotected_keeps t s hk
  | .recordExpiry t seq => execRecordExpiry_keeps t seq s hk
  | .retireTo ses t v => execRetireTo_keeps ses t v s hk
  | .abort ses t v => execAbort_keeps ses t v s hk
  | .release ses t v => execRelease_keeps ses t v s hk
  | .ownership ses t data => execOwnership_keeps ses t data s hk
  | .ownershipApply t => execOwnershipApply_keeps t s hk
  | .marchEnable ses v => execMarchEnable_keeps ses v s hk
  | .marchPassStart => execMarchPassStart_keeps s hk
  | .marchWindowRetry => execMarchWindowRetry_keeps s hk
  | .dtestTarget ses v => execDtestTarget_keeps ses v s hk
  | .destructiveMarchComplete passed => execDestructiveMarchComplete_keeps passed s hk
  | .read p w => execRead_keeps p w s hk
  | .write p portY => execWrite_keeps p portY s hk
  | .readResp p => execReadResp_keeps p s hk
  | .writeResp p => execWriteResp_keeps p s hk
  | .nackFenced p => execNackFenced_keeps p s hk
  | .errorResp p => execErrorResp_keeps p s hk
  | .fenceClear cleared replacement p => execFenceClear_keeps cleared replacement p s hk
  | .sluiceClose p r => execSluiceClose_keeps p r s hk
  | .routerControlNotice r p k => execRouterControlNotice_keeps r p k s hk
  | .flitParityReplay r again => execFlitParityReplay_keeps r again s hk
  | .requestTimeout n tid => execRequestTimeout_keeps n tid s hk
  | .niDrained n => execNiDrained_keeps n s hk
  | .sluiceFaultFence n => execSluiceFaultFence_keeps n s hk
  | .routerQuiesceComplete r => execRouterQuiesceComplete_keeps r s hk
  | .routerQuiesceTimeout r => execRouterQuiesceTimeout_keeps r s hk
  | .routerStallDetect r => execRouterStallDetect_keeps r s hk
  | .grouping ses v => execGrouping_keeps ses v s hk
  | .cxpDiscoveryLock c speed => execCxpDiscoveryLock_keeps c speed s hk
  | .cxpDiscoveryTimeout c => execCxpDiscoveryTimeout_keeps c s hk
  | .cxpLossOfLock c => execCxpLossOfLock_keeps c s hk
  | .cxpLostHoldEnd c => execCxpLostHoldEnd_keeps c s hk
  | .frameStart c h => execFrameStart_keeps c h s hk
  | .streamPacket c line pixels crcOk supported retained => execStreamPacket_keeps c line pixels crcOk supported retained s hk
  | .bindingLanded t seq binding => execBindingLanded_keeps t seq binding s hk
  | .camRegWrite ses c data => execCamRegWrite_keeps ses c data s hk
  | .camRegRead ses c => execCamRegRead_keeps ses c s hk
  | .camRegAck c reply => execCamRegAck_keeps c reply s hk
  | .cellPass r c => execCellPass_keeps r c s hk
  | .cellAdd r c => execCellAdd_keeps r c s hk
  | .cellSub r c => execCellSub_keeps r c s hk
  | .cellAnd r c => execCellAnd_keeps r c s hk
  | .cellOr r c => execCellOr_keeps r c s hk
  | .cellXor r c => execCellXor_keeps r c s hk
  | .cellNot r c => execCellNot_keeps r c s hk
  | .cellShl r c => execCellShl_keeps r c s hk
  | .cellShr r c => execCellShr_keeps r c s hk
  | .cellSra r c => execCellSra_keeps r c s hk
  | .cellMux r c => execCellMux_keeps r c s hk
  | .cellCnt r c => execCellCnt_keeps r c s hk
  | .cellMinu r c => execCellMinu_keeps r c s hk
  | .cellMaxu r c => execCellMaxu_keeps r c s hk
  | .cellTime r c => execCellTime_keeps r c s hk
  | .serialRxByte port b => execSerialRxByte_keeps port b s hk
  | .fullLoad ses data => execFullLoad_keeps ses data s hk
  | .partialLoad ses data => execPartialLoad_keeps ses data s hk
  | .fabricLoadComplete => execFabricLoadComplete_keeps s hk
  | .capture ses v => execCapture_keeps ses v s hk
  | .probeSel ses land v => execProbeSel_keeps ses land v s hk
  | .fabricClockRampStep => execFabricClockRampStep_keeps s hk
  | .fieldInputChange n level => execFieldInputChange_keeps n level s hk
  | .mode ses n v => execMode_keeps ses n v s hk
  | .safeState ses n v => execSafeState_keeps ses n v s hk
  | .filter ses n v => execFilter_keeps ses n v s hk
  | .doutImage ses j v => execDoutImage_keeps ses j v s hk
  | .encoderEdge lead a b => execEncoderEdge_keeps lead a b s hk
  | .adcSlot g microvolts => execAdcSlot_keeps g microvolts s hk
  | .pwmPeriodStart n => execPwmPeriodStart_keeps n s hk
  | .shortGnd n => execShortGnd_keeps n s hk
  | .shortSupply n => execShortSupply_keeps n s hk
  | .overtemp n => execOvertemp_keeps n s hk
  | .openWire n => execOpenWire_keeps n s hk
  | .ainOpenWirePulse n skipped isOpen => execAinOpenWirePulse_keeps n skipped isOpen s hk
  | .openLoadOn n => execOpenLoadOn_keeps n s hk
  | .openLoadOff n isOpen => execOpenLoadOff_keeps n isOpen s hk
  | .reversed n => execReversed_keeps n s hk
  | .diagRetry n => execDiagRetry_keeps n s hk
  | .diagnosisEnd n code => execDiagnosisEnd_keeps n code s hk
  | .diagClear ses n v => execDiagClear_keeps ses n v s hk
  | .spsOverload g => execSpsOverload_keeps g s hk
  | .spsRetry g => execSpsRetry_keeps g s hk
  | .spsReverse g => execSpsReverse_keeps g s hk
  | .spsReverseEnd g => execSpsReverseEnd_keeps g s hk
  | .spsEnable ses g v => execSpsEnable_keeps ses g v s hk
  | .groupCurrentAverage g milliamps => execGroupCurrentAverage_keeps g milliamps s hk
  | .moduleBudgetCheck => execModuleBudgetCheck_keeps s hk
  | .groupMonitorTrip g which => execGroupMonitorTrip_keeps g which s hk
  | .groupOvercurrentEscalation g => execGroupOvercurrentEscalation_keeps g s hk
  | .groupClear ses g v => execGroupClear_keeps ses g v s hk
  | .crossingSilence die resumed => execCrossingSilence_keeps die resumed s hk
  | .registerWrite ses index sub data => execRegisterWrite_keeps ses index sub data s hk
  | .domainSegment ses index sub size data last => execDomainSegment_keeps ses index sub size data last s hk
  | .segmentPauseTimeout ses => execSegmentPauseTimeout_keeps ses s hk
  | .hostSdoAbort ses => execHostSdoAbort_keeps ses s hk
  | .requested ses v => execRequested_keeps ses v s hk
  | .errorCount ses v => execErrorCount_keeps ses v s hk
  | .mapEntry ses tx pdo ix v => execMapEntry_keeps ses tx pdo ix v s hk
  | .mapCount ses tx pdo v => execMapCount_keeps ses tx pdo v s hk
  | .pdoAssign ses tx ix v => execPdoAssign_keeps ses tx ix v s hk
  | .emergencySend ses => execEmergencySend_keeps ses s hk
  | .logCursor ses v => execLogCursor_keeps ses v s hk
  | .logEntry ses => execLogEntry_keeps ses s hk
  | .escAlControl e req cfg => execEscAlControl_keeps e req cfg s hk
  | .mailboxRequest e channel m => execMailboxRequest_keeps e channel m s hk
  | .sdoInformation ses r => execSdoInformation_keeps ses r s hk
  | .syncType ses v => execSyncType_keeps ses v s hk
  | .sm2Event e data => execSm2Event_keeps e data s hk
  | .sync0 e => execSync0_keeps e s hk
  | .sync1 e => execSync1_keeps e s hk
  | .freeRunLatch e => execFreeRunLatch_keeps e s hk
  | .pdWatchdogExpiry e => execPdWatchdogExpiry_keeps e s hk
  | .foeWrite ses name password data => execFoeWrite_keeps ses name password data s hk
  | .foeRead ses name => execFoeRead_keeps ses name s hk
  | .nmtStart c node => execNmtStart_keeps c node s hk
  | .nmtEnterPreOperational c node => execNmtEnterPreOperational_keeps c node s hk
  | .nmtStop c node => execNmtStop_keeps c node s hk
  | .nmtResetCommunication c node => execNmtResetCommunication_keeps c node s hk
  | .nmtResetNode c node => execNmtResetNode_keeps c node s hk
  | .canSync c => execCanSync_keeps c s hk
  | .rpdo c cobId data => execRpdo_keeps c cobId data s hk
  | .tpdoTransmit t k => execTpdoTransmit_keeps t k s hk
  | .heartbeat t => execHeartbeat_keeps t s hk
  | .usdoRequest c node r => execUsdoRequest_keeps c node r s hk
  | .lssConfigureNodeId c nb => execLssConfigureNodeId_keeps c nb s hk
  | .lssConfigureBitTiming c selector index => execLssConfigureBitTiming_keeps c selector index s hk
  | .lssStoreConfiguration c => execLssStoreConfiguration_keeps c s hk
  | .lssActivateBitTiming c => execLssActivateBitTiming_keeps c s hk
  | .controllerFault h => execControllerFault_keeps h s hk
  | .networkWake h f => execNetworkWake_keeps h f s hk
  | .maintenanceFrame data => execMaintenanceFrame_keeps data s hk
  | .maintenanceSilence => execMaintenanceSilence_keeps s hk
  | .activeCeiling ses v => execActiveCeiling_keeps ses v s hk
  | .idleProfile ses v => execIdleProfile_keeps ses v s hk
  | .deepSleep ses v => execDeepSleep_keeps ses v s hk
  | .deepSleepEntry => execDeepSleepEntry_keeps s hk
  | .rampDwell ses v => execRampDwell_keeps ses v s hk
  | .idleHold ses t v => execIdleHold_keeps ses t v s hk
  | .gateRun ses v => execGateRun_keeps ses v s hk
  | .gateSleep ses v => execGateSleep_keeps ses v s hk
  | .gateDeep ses v => execGateDeep_keeps ses v s hk
  | .clockGateIdle block => execClockGateIdle_keeps block s hk
  | .refSelect ses v => execRefSelect_keeps ses v s hk
  | .refMissingEdge ref => execRefMissingEdge_keeps ref s hk
  | .pllLossOfLock pll => execPllLossOfLock_keeps pll s hk
  | .refInvalid ref => execRefInvalid_keeps ref s hk
  | .pllRelock => execPllRelock_keeps s hk
  | .holdoverRefValid ref => execHoldoverRefValid_keeps ref s hk
  | .vcoreWarning => execVcoreWarning_keeps s hk
  | .vcoreWarningHoldExpiry => execVcoreWarningHoldExpiry_keeps s hk
  | .vcoreRecovery r => execVcoreRecovery_keeps r s hk
  | .vcoreResetLevel => execVcoreResetLevel_keeps s hk
  | .powerFailWarning vmem => execPowerFailWarning_keeps vmem s hk
  | .powerFailWarningEnd => execPowerFailWarningEnd_keeps s hk
  | .vmemAction => execVmemAction_keeps s hk
  | .vmemRecovery r => execVmemRecovery_keeps r s hk
  | .vioAction rail => execVioAction_keeps rail s hk
  | .vserAction => execVserAction_keeps s hk
  | .fieldFeedLost f => execFieldFeedLost_keeps f s hk
  | .fieldFeedRecovery f => execFieldFeedRecovery_keeps f s hk
  | .powerOn r => execPowerOn_keeps r s hk
  | .resetWarm ses r => execResetWarm_keeps ses r s hk
  | .resetCold ses r => execResetCold_keeps ses r s hk
  | .watchdogExpiry r => execWatchdogExpiry_keeps r s hk
  | .rstNLow => execRstNLow_keeps s hk
  | .rstNRise r => execRstNRise_keeps r s hk
  | .coldStartTimeout step => execColdStartTimeout_keeps step s hk
  | .coldStartRetry r => execColdStartRetry_keeps r s hk
  | .nonce ses data => execNonce_keeps ses data s hk
  | .attestationSignStart => execAttestationSignStart_keeps s hk
  | .attestationSignComplete found => execAttestationSignComplete_keeps found s hk
  | .keyRecord ses data => execKeyRecord_keeps ses data s hk
  | .firmware ses data => execFirmware_keeps ses data s hk
  | .firmwareRoleSwap standbyLockstep flashOk => execFirmwareRoleSwap_keeps standbyLockstep flashOk s hk
  | .housekeepingPairFault pair => execHousekeepingPairFault_keeps pair s hk
  | .tideInEdge => execTideInEdge_keeps s hk
  | .tideCmd ses v => execTideCmd_keeps ses v s hk
  | .snapshotLatchEnd => execSnapshotLatchEnd_keeps s hk
  | .tideOutEnd => execTideOutEnd_keeps s hk
  | .tapBypass => execTapBypass_keeps s hk
  | .tapIdcode => execTapIdcode_keeps s hk
  | .tapSamplePreload cells => execTapSamplePreload_keeps cells s hk
  | .tapExtest => execTapExtest_keeps s hk
  | .tapExtestPulse => execTapExtestPulse_keeps s hk
  | .tapExtestTrain => execTapExtestTrain_keeps s hk
  | .tapClamp => execTapClamp_keeps s hk
  | .tapHighz => execTapHighz_keeps s hk
  | .polderMonitorTrip p => execPolderMonitorTrip_keeps p s hk
  | .vioRecovery rail r => execVioRecovery_keeps rail r s hk
  | .refValid ref => execRefValid_keeps ref s hk
  | .trapContextScan k => execTrapContextScan_keeps k s hk
  | .cxpDiscoveryRetry c => execCxpDiscoveryRetry_keeps c s hk
  | .camRegTimeout c => execCamRegTimeout_keeps c s hk
  | .waitevLimitExpired q => execWaitevLimitExpired_keeps q s hk
  | .modeChangeComplete n => execModeChangeComplete_keeps n s hk
  | .marchPassComplete => execMarchPassComplete_keeps s hk

/-- The invariant does not speak of the queue. -/
theorem Inv.withPending {s : State} (l : List Instr) (h : Inv s) : Inv { s with pending := l } := h

/-- Settles O5: an idle microsecond and each command keep the invariant. -/
theorem stepKeepsInv : Obligations.StepKeepsInv := by
  unfold Obligations.StepKeepsInv
  intro s u hs hu
  unfold step at hu
  split at hu
  case h_1 c rest hc =>
    obtain ⟨v, hv, hkeeps⟩ := exec_keeps c { s with pending := rest } (Keeps.refl _)
    cases hu.symm.trans hv
    exact hkeeps.done (hs.withPending rest)
  case h_2 hnil =>
    cases hu
    exact (idle_keeps s (Keeps.refl s)).done hs

end Sys2Proof.Machine
end

