-- ==== Sys2Proof/Proofs/GangBermFlags.lean ====
section
/-! SUPPORT. A state in which a PE's registers stand twice in the list that represents them, and GANG on it. -/

namespace Sys2Proof.Machine

/-- An ownership record of T0: tile 0 and one extent each for the program and its mirror. -/
def soleOwner : OwnRec :=
  { tenant := 0, seq := 0, counter := 1, tiles := 1, dual := false, channel := 0, cams := 0, resv := 0, weight := 100
    regions := 0, lines := 0, channels := 0, extents := [⟨0, 0, 1⟩, ⟨2, 0, 1⟩], roles := [0, 1, 8]
    maxLive := 16, shared := [], raw := [] }

/-- Its running order, without a binding. -/
def bareOrder : Order :=
  { seq := 1, hon := 7, entry := 32, args := [], startInput := 0xFFFF, ins := [], outs := [], st := .running, released := true
    startTime := 0, unprotected := false, recomputed := false, fsum := 0, runTicks := 0, sinceTicks := 0, large := false, journal := []
    replay := [], ckpt := none, staged := [], dualMiss := 0, reexec := false }

/-- T0 runs `GANG G1` at word 32 in the layout G1, with a branch at its dispatch entry; the registers of PE 0 stand twice in the
list, the first entry (the one that counts) with C set. -/
def doubledPe : State := { State.reset with
  tenants := [(0, { TenantSt.initial with own := some soleOwner, ownState := 1, orders := [bareOrder], nextSeq := 2 })]
  seqs := [(0, { Sequencer.initial with service := .inService, bound := some 0, pc := 32, wcs := [(292, 0x18000200)] })]
  tiles := [(0, { Tile.initial with polder := .awake 7 }), (16, { Tile.initial with service := .spare })]
  sp := [(262, 0x80), (263, 0x24)]
  pe := [(0, { PE.clear with c := true }), (0, PE.clear)] }

/-- The fields of that GANG: MODF 0 names the layout G1. -/
def gangG1 : FmtA := ⟨0, 0, false, false, false, false, 0, 0, 0, 0⟩

/-- With the polder map as it comes, the invariant asks for canonical memories, the fixed bits, short logs and tiles in service. -/
theorem inv_of_map_nil {s : State} (hm : s.map = []) (hw : memoryWf s) (hd : deepMaskOk s) (hl : logsBounded s)
    (ht : ∀ n, n < 16 → (tile s n).service = .inService) : Inv s := by
  have at_own : ∀ n, n < 16 → ∀ p, physOf s n = some p → p.val = n := by
    intro n hn p hp
    simp only [physOf, hm, SMap.get_nil] at hp
    rw [dif_pos (by omega)] at hp
    exact (congrArg Fin.val (Option.some.inj hp)).symm
  refine ⟨hw, hd, hl, ?_, ?_⟩
  · intro m n p hm' hn hp hq
    exact (at_own m hm' p hp).symm.trans (at_own n hn p hq)
  · intro n p hn hp
    rw [at_own n hn p hp]
    exact .inl (ht n hn)

theorem inv_doubledPe : Inv doubledPe :=
  inv_of_map_nil rfl (by unfold memoryWf; decide +kernel) (by unfold deepMaskOk; decide +kernel) (by unfold logsBounded; decide +kernel)
    (by decide +kernel)

theorem runsOn_doubledPe : runsOn doubledPe 0 0 (wordA gangG1 9 4) := by
  have word : readCopied doubledPe 256 (2 * unitBytes + 256) 0 1 = (doubledPe, some (ofLe (spRead doubledPe 256 8))) := by
    unfold readCopied
    exact if_pos (by decide +kernel)
  have value : BitVec.ofNat 64 (ofLe (spRead doubledPe 256 8)) = wordA gangG1 9 4 := by decide +kernel
  refine ⟨⟨by decide +kernel, .inr (by decide +kernel), ?_⟩, by decide +kernel⟩
  show ((readCopied doubledPe 256 (2 * unitBytes + 256) 0 1).1, (readCopied doubledPe 256 (2 * unitBytes + 256) 0 1).2.map (BitVec.ofNat 64)) = _
  rw [word]
  exact congrArg (fun w => (doubledPe, some w)) value

/-- The registers of PE `k` in the next state, where there is one. -/
def peAfter (r : Host.Outcome State Fault Refusal) (k : Nat) : Option PE := match r with
  | .next u => some (pe u k)
  | _ => none

theorem gang_doubledPe : peAfter (exec (.gang 0 gangG1) doubledPe) 0 = some PE.clear := by decide +kernel

/-- Refutes O19: the invariant does not ask for one entry per PE, and `dispatch` writes the entries back one by one, so that of a PE
whose registers stand twice the hidden entry comes to light: a GANG that names the present layout changes its C. -/
theorem not_gangBermFlags : ¬ Obligations.GangBermFlags := by
  unfold Obligations.GangBermFlags
  intro h
  obtain ⟨gang, -⟩ := h doubledPe 0 0 gangG1 inv_doubledPe
  obtain ⟨u, hu, -, -, -, -, -, -, -, -, -, same, -⟩ := gang runsOn_doubledPe (by decide)
  obtain ⟨-, regs⟩ := same (by decide +kernel)
  have after := gang_doubledPe
  rw [hu] at after
  have := regs 0
  rw [show pe u 0 = PE.clear from Option.some.inj after] at this
  revert this
  decide +kernel

end Sys2Proof.Machine
end

