-- ==== Sys2Proof/Proofs/MachineChecks.lean ====
section
/-! SUPPORT. A state in which two tenants' records name the same tile, and a machine check on that tile. -/

namespace Sys2Proof.Machine

/-- An input whose data has landed and whose two retained copies are lost. -/
def lostInput : InBind :=
  { kind := .region, source := 0, mask := 0, offset := 0, len := 0, claimed := true, cam := none, samples := [], data := [], complete := true
    arm := none, inarmed := false, fault := .none, bands := 0, heldAt := [], landed := true, copyA := false, copyB := false }

/-- Tile 0 stands in the records of T0 and T1. T0's order runs; T1 has the sequencer and an order to re-execute, whose input is lost. -/
def sharedTile : State := { State.reset with
  tenants := [(0, { TenantSt.initial with own := some soleOwner, ownState := 1, orders := [bareOrder], nextSeq := 2 }),
    (1, { TenantSt.initial with
      own := some { soleOwner with tenant := 1 }, ownState := 1, nextSeq := 2
      orders := [{ bareOrder with ins := [lostInput], reexec := true }] })]
  seqs := [(0, { Sequencer.initial with service := .inService, bound := some 1, pc := 32 })]
  tiles := [(0, { Tile.initial with polder := .awake 7 }), (16, { Tile.initial with service := .spare })] }

theorem runOrder_sharedTile : runOrder sharedTile 0 = some bareOrder := by decide +kernel

theorem ownerOf_sharedTile : ownerOf sharedTile 0 = some 0 := by decide +kernel

theorem errorOpen_machineCheck_sharedTile : (tile (takeMark (machineCheck sharedTile (.tile 0))) 0).errorOpen = false := by decide +kernel

/-- Refutes O33: nothing in it keeps the tile out of another tenant's record. The machine check of T0's tile opens its error window and
tries every order that waits to re-execute; T1's, whose input is lost, leaves, and with it the error window of T1's tiles closes, which
is the same tile. The first error of the segment is then not marked although no input of T0's order is lost. -/
theorem not_machineChecks : ¬ Obligations.MachineChecks := by
  unfold Obligations.MachineChecks
  intro h
  obtain ⟨running, -⟩ := h sharedTile 0 bareOrder 0 0 0
  obtain ⟨first, -⟩ := running runOrder_sharedTile
  obtain ⟨u, hu, -, -, marked⟩ := first ownerOf_sharedTile (by decide +kernel)
  obtain ⟨isOpen, -⟩ := marked rfl (fun i hi => nomatch hi)
  have closed : (tile u 0).errorOpen = false := by
    rw [← Host.Outcome.next.inj hu]
    exact errorOpen_machineCheck_sharedTile
  rw [show (tile u (0 : TileId).val).errorOpen = (tile u 0).errorOpen from rfl, closed] at isOpen
  exact absurd isOpen (by decide)

end Sys2Proof.Machine
end

