-- ==== Sys2Proof/Proofs/PeViews.lean ====
section
/-! SUPPORT. What a PE shows after writes to its registers and planes, and after a pass over lanes or slices. -/

namespace Sys2Proof.Machine

/-! ### Passes over parts that do not meet -/

/-- A pass keeps what each of its steps keeps. -/
theorem foldl_same {ι α : Type} {view : State → α} {step : State → ι → State} {l : List ι} (h : ∀ i ∈ l, ∀ u, view (step u i) = view u)
    (s : State) : view (l.foldl step s) = view s := by
  induction l generalizing s with
  | nil => rfl
  | cons i l ih => rw [List.foldl_cons, ih fun j hj => h j (List.mem_cons_of_mem _ hj), h i List.mem_cons_self]

/-- A pass whose steps each change what is shown at their own places only. -/
structure OwnPlaces {ι α : Type} (view : State → Nat → α) (mine : ι → Nat → Prop) (upd : ι → Nat → α → α) (step : State → ι → State) : Prop where
  inside : ∀ u i k, mine i k → view (step u i) k = upd i k (view u k)
  outside : ∀ u i k, ¬mine i k → view (step u i) k = view u k

section Passes

variable {ι α : Type} {view : State → Nat → α} {mine : ι → Nat → Prop} {upd : ι → Nat → α → α} {step : State → ι → State}

theorem OwnPlaces.foldl_outside (h : OwnPlaces view mine upd step) {l : List ι} {k : Nat} (hk : ∀ i ∈ l, ¬mine i k) (s : State) :
    view (l.foldl step s) k = view s k :=
  foldl_same (view := fun u => view u k) (fun i hi u => h.outside u i k (hk i hi)) s

theorem OwnPlaces.foldl_inside (h : OwnPlaces view mine upd step) {l : List ι} (apart : l.Pairwise fun i j => ∀ k, mine i k → ¬mine j k)
    {i : ι} (hi : i ∈ l) {k : Nat} (hk : mine i k) (s : State) : view (l.foldl step s) k = upd i k (view s k) := by
  induction l generalizing s with
  | nil => cases hi
  | cons j l ih =>
    obtain ⟨head, tail⟩ := List.pairwise_cons.mp apart
    rw [List.foldl_cons]
    rcases List.mem_cons.mp hi with rfl | hi
    · rw [h.foldl_outside (fun m hm => head m hm k hk), h.inside s i k hk]
    · rw [ih tail hi, h.outside s j k fun hj => head i hi k hj hk]

end Passes

/-! ### What a PE shows -/

/-- The registers and planes of a PE as instructions read them, parity latch aside. -/
structure PeView where
  c : Bool
  k : Bool
  x : Bool
  f : Bool
  p : BitVec 12
  res : BitVec 6
  weight2 : Bool
  v : Bool
  residueErr : Bool
  bit : Fin 4096 → Bool

/-- What PE `k` shows with the registers `x`. -/
def viewOf (s : State) (k : Nat) (x : PE) : PeView :=
  let n := SMap.get 0 s.peTag (8 * (k / 4096) + 5)
  { c := x.c, k := x.k, x := x.x ^^ fill s (k / 4096) 4 (locX k), f := x.f, p := x.p
    res := (x.rr ++ x.rb ++ x.ra) ^^^ (if n = 0 then 0 else BitVec.ofNat 6 (freeNat n (locR k) 6))
    weight2 := x.weight2, v := x.v, residueErr := x.residueErr, bit := fun a => peBit s k a }

def peView (s : State) (k : Nat) : PeView := viewOf s k (pe s k)

theorem peView_c (s : State) (k : Nat) : (peView s k).c = (pe s k).c := rfl
theorem peView_k (s : State) (k : Nat) : (peView s k).k = (pe s k).k := rfl
theorem peView_x (s : State) (k : Nat) : (peView s k).x = peX s k := rfl
theorem peView_f (s : State) (k : Nat) : (peView s k).f = (pe s k).f := rfl
theorem peView_p (s : State) (k : Nat) : (peView s k).p = (pe s k).p := rfl
theorem peView_res (s : State) (k : Nat) : (peView s k).res = peRes s k := rfl
theorem peView_weight2 (s : State) (k : Nat) : (peView s k).weight2 = (pe s k).weight2 := rfl
theorem peView_v (s : State) (k : Nat) : (peView s k).v = (pe s k).v := rfl
theorem peView_bit (s : State) (k : Nat) (a : Fin 4096) : (peView s k).bit a = peBit s k a := rfl

/-! ### One write -/

theorem pe_setPe_same (s : State) (k : Nat) (v : PE) : pe (setPe s k v) k = v := SMap.get_set_same _ _ _ _

theorem pe_setPe_ne (s : State) {k i : Nat} (v : PE) (h : i ≠ k) : pe (setPe s k v) i = pe s i := SMap.get_set_ne _ _ _ h

theorem peView_setPe_same (s : State) (k : Nat) (v : PE) : peView (setPe s k v) k = viewOf s k v :=
  congrArg (viewOf s k) (pe_setPe_same s k v)

theorem peView_setPe_ne (s : State) {k i : Nat} (v : PE) (h : i ≠ k) : peView (setPe s k v) i = peView s i :=
  congrArg (viewOf s i) (pe_setPe_ne s v h)

theorem peView_setPeX_same (s : State) (k : Nat) (v : Bool) : peView (setPeX s k v) k = { peView s k with x := v } := by
  refine (peView_setPe_same s k _).trans ?_
  simp [viewOf, peView]

theorem peView_setPeX_ne (s : State) {k i : Nat} (v : Bool) (h : i ≠ k) : peView (setPeX s k v) i = peView s i :=
  peView_setPe_ne s _ h

theorem append_three (v : BitVec 6) : v.extractLsb' 4 2 ++ v.extractLsb' 2 2 ++ v.extractLsb' 0 2 = v := by
  decide +revert

theorem peView_setPeRes_same (s : State) (k : Nat) (v : BitVec 6) : peView (setPeRes s k v) k = { peView s k with res := v } := by
  refine (peView_setPe_same s k _).trans ?_
  simp only [viewOf, peView]
  congr 1
  rw [append_three, BitVec.xor_assoc, BitVec.xor_self, BitVec.xor_zero]

theorem peView_setPeRes_ne (s : State) {k i : Nat} (v : BitVec 6) (h : i ≠ k) : peView (setPeRes s k v) i = peView s i :=
  peView_setPe_ne s _ h

theorem getLsbD_setBit8 (b : Byte) {i j : Nat} (hi : i < 8) (hj : j < 8) (v : Bool) :
    (setBit8 b i v).getLsbD j = if j = i then v else b.getLsbD j := by
  unfold setBit8
  cases v <;> by_cases h : j = i <;> simp [h, hi, hj] <;> omega

theorem peBit_reserved (s : State) (k : Nat) {a : Nat} (h : reservedBit a = true) : peBit s k a = false := if_pos h

/-- The bytes of the planes after a write to the bit `a` of PE `k`. -/
def bitWritten (s : State) (k a : Nat) (v : Bool) : SMap Byte :=
  SMap.set 0 s.peMem (k * 512 + a / 8)
    (setBit8 (SMap.get 0 s.peMem (k * 512 + a / 8)) (a % 8) (v ^^ fill s (k / 4096) (regionOf a) (k * 4096 + a)))

theorem setPeBit_peMem (s : State) (k : Nat) {a : Nat} (h : reservedBit a = false) (v : Bool) :
    (setPeBit s k a v).peMem = bitWritten s k a v := by
  unfold setPeBit bitWritten
  rw [if_neg (by simp [h])]
  dsimp only
  split <;> rfl

theorem setPeBit_peTag (s : State) (k a : Nat) (v : Bool) : (setPeBit s k a v).peTag = s.peTag :=
  (setPeBit_foot s k a v (show 0x70 ||| 0x70 = 0x70 by decide) (Foot.refl _ s)).2 .peTag (by decide)

/-- What a plane bit reads after a write to one. -/
theorem peBit_setPeBit (s : State) (k : Nat) {a : Nat} (ha : a < 4096) (v : Bool) (i : Nat) {b : Nat} (hb : b < 4096) :
    peBit (setPeBit s k a v) i b = if i = k ∧ b = a then v && !reservedBit a else peBit s i b := by
  cases hr : reservedBit a with
  | true =>
    rw [show setPeBit s k a v = s from if_pos hr]
    split
    · next h => rw [h.2, peBit_reserved s i hr, Bool.not_true, Bool.and_false]
    · rfl
  | false =>
    cases hq : reservedBit b with
    | true =>
      rw [peBit_reserved _ i hq, peBit_reserved s i hq, if_neg fun h => by rw [h.2, hr] at hq; cases hq]
    | false =>
      simp only [peBit, hq, setPeBit_peMem s k hr, fill, setPeBit_peTag, bitWritten, SMap.get_set, Bool.false_eq_true, if_false]
      by_cases hkey : i * 512 + b / 8 = k * 512 + a / 8
      · have hik : i = k := by omega
        subst hik
        rw [if_pos hkey, getLsbD_setBit8 _ (Nat.mod_lt _ (by decide)) (Nat.mod_lt _ (by decide))]
        by_cases hab : b = a
        · subst hab
          simp
        · rw [if_neg (by omega), if_neg fun h : i = i ∧ b = a => hab h.2, hkey]
      · rw [if_neg hkey, if_neg fun h : i = k ∧ b = a => hkey (by rw [h.1, h.2])]

/-- The registers of a PE, parity latch aside. -/
def peNoParity (x : PE) : PE := { x with parityErr := false }

theorem pe_setPeBit (s : State) (k a : Nat) (v : Bool) (i : Nat) : peNoParity (pe (setPeBit s k a v) i) = peNoParity (pe s i) := by
  unfold setPeBit
  split
  · rfl
  · dsimp only
    split
    · by_cases h : i = k
      · subst h
        rw [pe_setPe_same]
        rfl
      · rw [pe_setPe_ne _ _ h]
        rfl
    · rfl

theorem pe_setPeBit_ne (s : State) {k i : Nat} (a : Nat) (v : Bool) (h : i ≠ k) : pe (setPeBit s k a v) i = pe s i := by
  unfold setPeBit
  split
  · rfl
  · dsimp only
    split
    · exact pe_setPe_ne _ _ h
    · rfl

theorem viewOf_noParity {s : State} {k : Nat} {x y : PE} (h : peNoParity x = peNoParity y) : viewOf s k x = viewOf s k y :=
  show viewOf s k (peNoParity x) = viewOf s k (peNoParity y) from congrArg (viewOf s k) h

/-- What a PE shows is read off its registers, its tag and its planes. -/
theorem viewOf_congr {s u : State} {k : Nat} (x : PE) (ht : u.peTag = s.peTag) :
    viewOf u k x = { viewOf s k x with bit := fun a => peBit u k a } := by
  simp only [viewOf, fill, ht]

theorem peView_setPeBit_same (s : State) (k : Nat) (a : Fin 4096) (v : Bool) :
    peView (setPeBit s k a v) k =
      { peView s k with bit := fun b => if b = a then v && !reservedBit a else (peView s k).bit b } := by
  rw [peView, viewOf_congr (s := s) _ (setPeBit_peTag s k a v), viewOf_noParity (pe_setPeBit s k a v k)]
  refine congrArg (fun b => ({ peView s k with bit := b } : PeView)) (funext fun b => ?_)
  rw [peBit_setPeBit s k a.isLt v k b.isLt]
  simp only [true_and, Fin.val_inj, peView_bit]

theorem peView_setPeBit_ne (s : State) {k i : Nat} (a : Fin 4096) (v : Bool) (h : i ≠ k) : peView (setPeBit s k a v) i = peView s i := by
  rw [peView, pe_setPeBit_ne s a v h, viewOf_congr (s := s) _ (setPeBit_peTag s k a v)]
  refine congrArg (fun b => ({ peView s i with bit := b } : PeView)) (funext fun b => ?_)
  rw [peBit_setPeBit s k a.isLt v i b.isLt, if_neg fun hb => h hb.1]

theorem peView_congr {s u : State} (hpe : u.pe = s.pe) (hm : u.peMem = s.peMem) (ht : u.peTag = s.peTag) (k : Nat) : peView u k = peView s k := by
  have regs : pe u k = pe s k := by rw [pe, hpe]; rfl
  have bits : ∀ a, peBit u k a = peBit s k a := peBit_of hm ht k
  rw [peView, viewOf_congr (s := s) _ ht, regs]
  simp only [bits]
  rfl

/-- What a PE shows after writes that leave the planes. -/
theorem peView_of_foot {s u : State} (h : Foot 0x10 s u) (k : Nat) : peView u k = viewOf s k (pe u k) := by
  have hTag : u.peTag = s.peTag := h.2 .peTag (by decide)
  have bits : ∀ a, peBit u k a = peBit s k a := peBit_of (h.2 .peMem (by decide)) hTag k
  rw [peView, viewOf_congr (s := s) _ hTag]
  simp only [bits]
  rfl

/-! ### Reads that find a parity error -/

/-- The mark of one bad byte, where the read covers it. -/
def markRead (read : Nat → Nat → Bool) (u : State) (e : Nat × Bool) : State :=
  if e.2 && read (e.1 / 512) (e.1 % 512) then setPe u (e.1 / 512) { pe u (e.1 / 512) with parityErr := true } else u

theorem pe_markRead (read : Nat → Nat → Bool) (u : State) (e : Nat × Bool) (k : Nat) :
    peNoParity (pe (markRead read u e) k) = peNoParity (pe u k) := by
  unfold markRead
  split
  · by_cases hk : k = e.1 / 512
    · subst hk
      rw [pe_setPe_same]
      rfl
    · rw [pe_setPe_ne _ _ hk]
  · rfl

theorem pe_markRead_unread {read : Nat → Nat → Bool} {k : Nat} (h : ∀ b, read k b = false) (u : State) (e : Nat × Bool) :
    pe (markRead read u e) k = pe u k := by
  unfold markRead
  split
  · next hread =>
    refine pe_setPe_ne _ _ fun hk => ?_
    rw [← hk, h, Bool.and_false] at hread
    cases hread
  · rfl

/-- Reading bytes marks the PEs that own a bad one among them. -/
theorem pe_latchBad (s : State) (read : Nat → Nat → Bool) (k : Nat) : peNoParity (pe (latchBad s read) k) = peNoParity (pe s k) :=
  foldl_same (view := fun u => peNoParity (pe u k)) (fun e _ u => pe_markRead read u e k) s

theorem pe_latchBad_unread {s : State} {read : Nat → Nat → Bool} {k : Nat} (h : ∀ b, read k b = false) : pe (latchBad s read) k = pe s k :=
  foldl_same (view := fun u => pe u k) (fun e _ u => pe_markRead_unread h u e) s

theorem peView_latchBad (s : State) (read : Nat → Nat → Bool) (k : Nat) : peView (latchBad s read) k = peView s k := by
  rw [peView_of_foot (latchBad_foot s read (by decide) (Foot.refl _ s)), viewOf_noParity (pe_latchBad s read k)]
  rfl

/-! ### The lanes of a slice -/

theorem lane_eq (e : Elem) (g j : Nat) : e.lane g j = e.lane g 0 + j := by
  simp only [Elem.lane, peKey]
  omega

theorem lane_inj {e : Elem} {g i j : Nat} : e.lane g i = e.lane g j ↔ i = j := by
  rw [lane_eq e g i, lane_eq e g j]
  omega

/-- A pass over the lanes of a slice in which each step changes its own lane. -/
theorem foldl_lanes {α : Type} {view : State → Nat → α} {e : Elem} {g : Nat} {step : State → Nat → State} {upd : Nat → α → α}
    (hin : ∀ u j, view (step u j) (e.lane g j) = upd j (view u (e.lane g j)))
    (hout : ∀ u j k, k ≠ e.lane g j → view (step u j) k = view u k) (s : State) :
    (∀ j, j < g → view ((List.range g).foldl step s) (e.lane g j) = upd j (view s (e.lane g j))) ∧
      ∀ k, (∀ j, j < g → k ≠ e.lane g j) → view ((List.range g).foldl step s) k = view s k := by
  have own : OwnPlaces view (fun j k => k = e.lane g j) (fun j _ => upd j) step :=
    ⟨fun u j _ hk => hk ▸ hin u j, fun u j k hk => hout u j k hk⟩
  have apart : (List.range g).Pairwise fun i j => ∀ k, k = e.lane g i → ¬k = e.lane g j :=
    List.pairwise_lt_range.imp fun hlt _ hi hj => absurd (lane_inj.mp (hi.symm.trans hj)) (Nat.ne_of_lt hlt)
  exact ⟨fun j hj => own.foldl_inside apart (List.mem_range.mpr hj) rfl s,
    fun k hk => own.foldl_outside (fun j hj => hk j (List.mem_range.mp hj)) s⟩

/-- A write to the registers of each lane. -/
def regLanes (s : State) (g : Nat) (e : Elem) (f : Nat → PE → PE) : State :=
  (List.range g).foldl (fun z j => setPe z (e.lane g j) (f j (pe z (e.lane g j)))) s

theorem regLanes_foot {m : Nat} {z : State} (s : State) (g : Nat) (e : Elem) (f : Nat → PE → PE) (hm : 0x10 ||| m = m) (h : Foot m z s) :
    Foot m z (regLanes s g e f) :=
  Foot.foldl h fun _ _ hu => setPe_foot _ _ _ hm hu

theorem pe_regLanes (s : State) (g : Nat) (e : Elem) (f : Nat → PE → PE) :
    (∀ j, j < g → pe (regLanes s g e f) (e.lane g j) = f j (pe s (e.lane g j))) ∧
      ∀ k, (∀ j, j < g → k ≠ e.lane g j) → pe (regLanes s g e f) k = pe s k :=
  foldl_lanes (view := pe) (fun u _ => pe_setPe_same u _ _) (fun u _ _ hk => pe_setPe_ne u _ hk) s

theorem peView_regLanes (s : State) (g : Nat) (e : Elem) (f : Nat → PE → PE) :
    (∀ j, j < g → peView (regLanes s g e f) (e.lane g j) = viewOf s (e.lane g j) (f j (pe s (e.lane g j)))) ∧
      ∀ k, (∀ j, j < g → k ≠ e.lane g j) → peView (regLanes s g e f) k = peView s k := by
  have hfoot : Foot 0x10 s (regLanes s g e f) := regLanes_foot s g e f (by decide) (Foot.refl _ s)
  obtain ⟨inside, outside⟩ := pe_regLanes s g e f
  exact ⟨fun j hj => by rw [peView_of_foot hfoot, inside j hj], fun k hk => by rw [peView_of_foot hfoot, outside k hk]; rfl⟩

/-! ### The slices of a set of tiles -/

/-- No PE stands in two of the slices. -/
def SlicesApart (g : Nat) (l : List Elem) : Prop := l.Pairwise fun d e => ∀ i j, i < g → j < g → d.lane g i ≠ e.lane g j

theorem lane_div (e : Elem) {g j : Nat} (hr : e.row < 64) (hs : g * e.sl + j < 64) : e.lane g j / 4096 = e.tile.val := by
  simp only [Elem.lane, peKey]
  omega

/-- Where an element of a tile stands. -/
theorem mem_tileElems {g n : Nat} {p : TileId} {e : Elem} :
    e ∈ tileElems g n p ↔ e.lt = n ∧ e.tile = p ∧ e.row < 64 ∧ e.sl < 64 / g := by
  obtain ⟨m, q, r, c⟩ := e
  simp only [tileElems, List.mem_flatMap, List.mem_map, List.mem_range, Elem.mk.injEq]
  constructor
  · rintro ⟨r', hr, c', hc, rfl, rfl, rfl, rfl⟩
    exact ⟨rfl, rfl, hr, hc⟩
  · rintro ⟨rfl, rfl, hr, hc⟩
    exact ⟨r, hr, c, hc, rfl, rfl, rfl, rfl⟩

theorem mem_elems {s : State} {g : Nat} {l : List Nat} {e : Elem} :
    e ∈ elems s g l ↔ e.lt ∈ l ∧ physOf s e.lt = some e.tile ∧ e.row < 64 ∧ e.sl < 64 / g := by
  simp only [elems, List.mem_flatMap]
  constructor
  · rintro ⟨n, hn, he⟩
    cases hp : physOf s n with
    | none => simp [hp] at he
    | some p =>
      rw [hp] at he
      obtain ⟨rfl, rfl, hr, hc⟩ := mem_tileElems.mp he
      exact ⟨hn, hp, hr, hc⟩
  · rintro ⟨hn, hp, hr, hc⟩
    exact ⟨e.lt, hn, by rw [hp]; exact mem_tileElems.mpr ⟨rfl, rfl, hr, hc⟩⟩

theorem width_dvd (g : Gang) : g.width ∣ 64 ∧ 0 < g.width := by cases g <;> decide

/-- A lane's column lies on its tile. -/
theorem lane_column {g c j : Nat} (hg : g ∣ 64) (hc : c < 64 / g) (hj : j < g) : g * c + j < 64 := by
  calc g * c + j < g * c + g := Nat.add_lt_add_left hj _
    _ = g * (c + 1) := (Nat.mul_succ g c).symm
    _ ≤ g * (64 / g) := Nat.mul_le_mul_left g hc
    _ = 64 := Nat.mul_div_cancel' hg

/-- The tile, row and slice of a PE are read off its number. -/
theorem place_of_lane {g : Nat} (hg : g ∣ 64) {d e : Elem} {i j : Nat} (hd : d.row < 64 ∧ d.sl < 64 / g) (he : e.row < 64 ∧ e.sl < 64 / g)
    (hi : i < g) (hj : j < g) (h : d.lane g i = e.lane g j) : d.tile = e.tile ∧ d.row = e.row ∧ d.sl = e.sl := by
  have di := lane_column hg hd.2 hi
  have ej := lane_column hg he.2 hj
  simp only [Elem.lane, peKey] at h
  have hcol : g * d.sl + i = g * e.sl + j := by omega
  refine ⟨Fin.ext (by omega), by omega, ?_⟩
  have := congrArg (· / g) hcol
  simpa only [Nat.mul_add_div (Nat.zero_lt_of_lt hi), Nat.div_eq_of_lt hi, Nat.div_eq_of_lt hj, Nat.add_zero] using this

theorem mem_ownTiles_lt {s : State} {t : Tenant} {n : Nat} (h : n ∈ ownTiles s t) : n < 16 := by
  unfold ownTiles at h
  split at h
  · cases h
  · exact List.mem_range.mp (List.mem_of_mem_filter h)

theorem nodup_ownTiles (s : State) (t : Tenant) : (ownTiles s t).Nodup := by
  unfold ownTiles
  split
  · exact List.nodup_nil
  · exact List.nodup_range.filter _

theorem slicesApart_tileElems {g : Nat} (hg : g ∣ 64) (n : Nat) (p : TileId) : SlicesApart g (tileElems g n p) := by
  refine List.Pairwise.imp_of_mem (R := fun d e => d.row ≠ e.row ∨ d.sl ≠ e.sl) ?_ ?_
  · intro d e hd he hne i j hi hj h
    obtain ⟨-, hr, hs⟩ := place_of_lane hg (mem_tileElems.mp hd).2.2 (mem_tileElems.mp he).2.2 hi hj h
    exact hne.elim (· hr) (· hs)
  · refine List.pairwise_flatMap.mpr ⟨fun r _ => List.pairwise_map.mpr ?_, ?_⟩
    · exact List.pairwise_lt_range.imp fun h => .inr (Nat.ne_of_lt h)
    · refine List.pairwise_lt_range.imp fun h d hd e he => .inl ?_
      obtain ⟨c, -, rfl⟩ := List.mem_map.mp hd
      obtain ⟨c', -, rfl⟩ := List.mem_map.mp he
      exact Nat.ne_of_lt h

/-- Where no tile fills two positions, the slices of a tenant's tiles do not meet. -/
theorem slicesApart_elems {s : State} (h : mapOk s) {g : Nat} (hg : g ∣ 64) (t : Tenant) : SlicesApart g (elems s g (ownTiles s t)) := by
  refine List.pairwise_flatMap.mpr ⟨fun n _ => ?_, ?_⟩
  · split
    · exact slicesApart_tileElems hg n _
    · exact List.Pairwise.nil
  · refine List.Pairwise.imp_of_mem (fun {m n} hm hn hne d hd e he i j hi hj hl => ?_) (nodup_ownTiles s t)
    have place {n : Nat} {e : Elem} (he : e ∈ (match physOf s n with
        | some p => tileElems g n p
        | none => [])) : physOf s n = some e.tile ∧ e.row < 64 ∧ e.sl < 64 / g := by
      split at he
      · next p hp =>
        obtain ⟨-, rfl, hr⟩ := mem_tileElems.mp he
        exact ⟨hp, hr⟩
      · cases he
    obtain ⟨hd, hdr⟩ := place hd
    obtain ⟨he, her⟩ := place he
    obtain ⟨ht, -⟩ := place_of_lane hg hdr her hi hj hl
    exact hne (h.1 m n d.tile (mem_ownTiles_lt hm) (mem_ownTiles_lt hn) hd (ht ▸ he))

/-- A lane of a tenant's slice is one of its PEs. -/
theorem ownPe_lane {s : State} {t : Tenant} {g : Nat} (hg : g ∣ 64) {e : Elem} (he : e ∈ elems s g (ownTiles s t)) {j : Nat} (hj : j < g) :
    ownPe s t (e.lane g j) := by
  obtain ⟨hn, hp, hr, hc⟩ := mem_elems.mp he
  exact ⟨e.tile, List.mem_filterMap.mpr ⟨e.lt, hn, hp⟩, lane_div e hr (lane_column hg hc hj)⟩

/-- A pass over slices in which each step changes its own lanes. -/
theorem foldl_slices {α : Type} {view : State → Nat → α} {g : Nat} {step : State → Elem → State} {upd : Elem → Nat → α → α}
    (hin : ∀ u e j, j < g → view (step u e) (e.lane g j) = upd e j (view u (e.lane g j)))
    (hout : ∀ u e k, (∀ j, j < g → k ≠ e.lane g j) → view (step u e) k = view u k) {l : List Elem} (apart : SlicesApart g l)
    (s : State) : (∀ e ∈ l, ∀ j, j < g → view (l.foldl step s) (e.lane g j) = upd e j (view s (e.lane g j))) ∧
      ∀ k, (∀ e ∈ l, ∀ j, j < g → k ≠ e.lane g j) → view (l.foldl step s) k = view s k := by
  have own : OwnPlaces view (fun e k => ∃ j, j < g ∧ k = e.lane g j) (fun e k => upd e (k - e.lane g 0)) step := by
    refine ⟨fun u e k hk => ?_, fun u e k hk => hout u e k fun j hj h => hk ⟨j, hj, h⟩⟩
    obtain ⟨j, hj, rfl⟩ := hk
    rw [hin u e j hj, lane_eq e g j, Nat.add_sub_cancel_left]
  refine ⟨fun e he j hj => ?_, fun k hk => own.foldl_outside (fun e he ⟨j, hj, h⟩ => hk e he j hj h) s⟩
  rw [own.foldl_inside (apart.imp fun h k ⟨i, hi, hk⟩ ⟨j, hj, hk'⟩ => h i j hi hj (hk.symm.trans hk')) he ⟨j, hj, rfl⟩ s, lane_eq e g j,
    Nat.add_sub_cancel_left]

end Sys2Proof.Machine
end

