-- ==== Sys2Proof/Proofs/RippleCarry.lean ====
section
/-! SUPPORT. The lanes of an ADD plane form a ripple-carry adder (R54). -/

namespace Sys2Proof.Machine

/-- The number whose bits are the first `n` lanes. -/
def laneSum (n : Nat) (f : Nat → Bool) : Nat := Nat.ofBits fun j : Fin n => f j.val

theorem laneSum_congr {n : Nat} {f h : Nat → Bool} (e : ∀ j, j < n → f j = h j) : laneSum n f = laneSum n h :=
  congrArg Nat.ofBits (funext fun j : Fin n => e j.val j.isLt)

theorem testBit_laneSum (n : Nat) (f : Nat → Bool) (i : Nat) : (laneSum n f).testBit i = (decide (i < n) && f i) := by
  unfold laneSum
  by_cases h : i < n <;> simp [h, Nat.testBit_ofBits]

theorem laneSum_mod (n m : Nat) (f : Nat → Bool) (h : m ≤ n) : laneSum n f % 2 ^ m = laneSum m f := by
  refine Nat.eq_of_testBit_eq fun i => ?_
  rw [Nat.testBit_mod_two_pow, testBit_laneSum, testBit_laneSum]
  by_cases hi : i < m
  · simp [hi, Nat.lt_of_lt_of_le hi h]
  · simp [hi]

theorem laneSum_succ (n : Nat) (f : Nat → Bool) : laneSum (n + 1) f = laneSum n f + 2 ^ n * (f n).toNat := by
  have hlow := laneSum_mod (n + 1) n f (Nat.le_succ n)
  have hhigh : laneSum (n + 1) f / 2 ^ n % 2 = (f n).toNat := by
    rw [← Nat.toNat_testBit, testBit_laneSum]
    simp
  have hall : laneSum (n + 1) f % 2 ^ (n + 1) = laneSum (n + 1) f := laneSum_mod (n + 1) (n + 1) f (Nat.le_refl _)
  rw [← hall, Nat.mod_pow_succ, hlow, hhigh]

theorem laneNat_eq_laneSum (n : Nat) (f : Nat → Bool) : laneNat n f = laneSum n f := by
  induction n generalizing f with
  | zero => rfl
  | succ n ih =>
    have shift : laneNat (n + 1) f = 2 * laneNat n (f ∘ Nat.succ) + (f 0).toNat := by
      unfold laneNat
      rw [List.range_succ_eq_map, List.foldr_cons, List.foldr_map]
      rfl
    rw [shift, ih, laneSum, laneSum, Nat.ofBits_succ]
    rfl

/-- The carry into lane `n`. -/
def carryAt (a y : Nat → Bool) (c : Bool) : Nat → Bool
  | 0 => c
  | n + 1 => majority (a n) (y n) (carryAt a y c n)

theorem carries_eq (a y : Nat → Bool) (c : Bool) (n : Nat) : carries a y c n = (List.range (n + 1)).map (carryAt a y c) := by
  induction n with
  | zero => rfl
  | succ n ih =>
    have last : ((List.range (n + 1)).map (carryAt a y c)).getLastD c = carryAt a y c n := by
      rw [List.range_succ, List.map_append, List.map_singleton, List.getLastD_concat]
    rw [carries, ih, List.range_succ (n := n + 1), List.map_append, last]
    rfl

theorem getD_carries (a y : Nat → Bool) (c : Bool) {n j : Nat} (h : j ≤ n) : (carries a y c n).getD j false = carryAt a y c j := by
  rw [carries_eq, List.getD_eq_getElem _ _ (by simpa using Nat.lt_succ_of_le h)]
  simp

theorem toNat_majority (a b c : Bool) : (majority a b c).toNat = (c.toNat + (a.toNat + b.toNat)) / 2 := by
  cases a <;> cases b <;> cases c <;> rfl

/-- The two addends and the carry in, below lane `n`. -/
def addendSum (a y : Nat → Bool) (c : Bool) (n : Nat) : Nat := laneSum n a + laneSum n y + c.toNat

theorem addendSum_succ (a y : Nat → Bool) (c : Bool) (n : Nat) :
    addendSum a y c (n + 1) = addendSum a y c n + 2 ^ n * ((a n).toNat + (y n).toNat) := by
  unfold addendSum
  rw [laneSum_succ, laneSum_succ, Nat.mul_add]
  omega

theorem addendSum_div (a y : Nat → Bool) (c : Bool) (n : Nat) : addendSum a y c n / 2 ^ n = (carryAt a y c n).toNat := by
  induction n with
  | zero => simp [addendSum, laneSum, carryAt]
  | succ n ih =>
    rw [Nat.pow_succ, ← Nat.div_div_eq_div_mul, addendSum_succ, Nat.add_mul_div_left _ _ (Nat.two_pow_pos n), ih, carryAt, toNat_majority]

theorem testBit_addendSum_self (a y : Nat → Bool) (c : Bool) (n : Nat) : (addendSum a y c n).testBit n = carryAt a y c n := by
  rw [Nat.testBit_eq_decide_div_mod_eq, addendSum_div]
  cases carryAt a y c n <;> rfl

/-- Lanes from `m` on do not reach the bits below. -/
theorem addendSum_eq (a y : Nat → Bool) (c : Bool) {m n : Nat} (h : m ≤ n) :
    ∃ k, addendSum a y c n = addendSum a y c m + 2 ^ m * k := by
  induction n, h using Nat.le_induction with
  | base => exact ⟨0, rfl⟩
  | succ n hmn ih =>
    obtain ⟨k, hk⟩ := ih
    refine ⟨k + 2 ^ (n - m) * ((a n).toNat + (y n).toNat), ?_⟩
    rw [addendSum_succ, hk, Nat.mul_add (2 ^ m), ← Nat.mul_assoc (2 ^ m), ← Nat.pow_add, Nat.add_sub_cancel' hmn, Nat.add_assoc]

theorem toNat_xor (a b c : Bool) : decide ((c.toNat + (a.toNat + b.toNat)) % 2 = 1) = (a ^^ b ^^ c) := by
  cases a <;> cases b <;> cases c <;> rfl

/-- Each sum bit of the lanes is the bit of the sum. -/
theorem testBit_addendSum (a y : Nat → Bool) (c : Bool) {n j : Nat} (h : j < n) :
    (addendSum a y c n).testBit j = (a j ^^ y j ^^ carryAt a y c j) := by
  obtain ⟨k, hk⟩ := addendSum_eq a y c (Nat.succ_le_of_lt h)
  have hpow : 2 ^ (j + 1) * k = 2 ^ j * (2 * k) := by rw [Nat.pow_succ, Nat.mul_assoc]
  rw [Nat.testBit_eq_decide_div_mod_eq, hk, addendSum_succ, Nat.add_assoc, hpow, ← Nat.mul_add,
    Nat.add_mul_div_left _ _ (Nat.two_pow_pos j), addendSum_div, ← toNat_xor]
  congr 2
  omega

end Sys2Proof.Machine
end

