-- ==== Sys2Proof/Proofs/Microwords.lean ====
section
/-! SUPPORT. A microword that is issued and has no reserved value: its effect, its time and the word after it (R158). -/

namespace Sys2Proof.Machine

theorem mendWord_good {s : State} {q : SeqId} {k : Nat} (h : SMap.get .none (sqr s q.val).wcsBad k = .none) : mendWord s q k = s := by
  unfold mendWord
  rw [h]

theorem bound_of_microReady {s : State} {q : SeqId} {t : Tenant} (h : microReady s q = some t) : (sqr s q.val).bound = some t := by
  unfold microReady at h
  split at h
  · cases h
  · next v hv =>
    split at h
    · split at h
      · exact hv.trans h
      · cases h
    · cases h

theorem run_of_microReady {s : State} {q : SeqId} {t : Tenant} (h : microReady s q = some t) : ∃ o, runOrder s t = some o := by
  unfold microReady at h
  split at h
  · cases h
  · split at h
    · next o ho =>
      split at h
      · cases h
        exact ⟨o, ho⟩
      · cases h
    · cases h

/-- The registers of a sequencer within a routine, or between two instructions. -/
def setMid (b : Bool) (x : Sequencer) : Sequencer := { x with midRoutine := b }

def inRoutine (s : State) (q : SeqId) : State := modSqr s q.val (setMid true)

theorem sqr_inRoutine (s : State) (q : SeqId) : sqr (inRoutine s q) q.val = setMid true (sqr s q.val) := sqr_modSqr_same _ _ _

theorem elems_inRoutine (s : State) (q : SeqId) (g : Nat) (l : List Nat) : elems (inRoutine s q) g l = elems s g l := rfl
theorem ownTiles_inRoutine (s : State) (q : SeqId) (t : Tenant) : ownTiles (inRoutine s q) t = ownTiles s t := rfl

theorem pe_inRoutine (s : State) (q : SeqId) (k : Nat) : pe (inRoutine s q) k = pe s k := rfl
theorem active_inRoutine (s : State) (q : SeqId) (g : Nat) (e : Elem) : active (inRoutine s q) g e = active s g e := rfl

/-- An issued word that is not reserved has its effect. -/
theorem runMicro_issued {s : State} {t : Tenant} {q : SeqId} {w : Word} (h : issues s t q w) {bad : Sequencer → Bool}
    (hbad : bad (sqr s q.val) = false) (eff : Tenant → State → State) : runMicro s q w bad eff = eff t (inRoutine s q) := by
  obtain ⟨hready, hgood, hword⟩ := h
  unfold runMicro
  rw [hready]
  dsimp only
  rw [mendWord_good hgood, if_neg (by simp [bound_of_microReady hready]), if_pos hword, if_neg (by simp [hbad])]
  rfl

/-! ### The word after (R158, R171) -/

theorem ite_map {α β : Type} {p q : Prop} [Decidable p] [Decidable q] {f : α → β} {a b : α} {a' b' : β} (h : p ↔ q) (ha : a' = f a)
    (hb : b' = f b) : (if p then a' else b') = f (if q then a else b) := by
  by_cases hq : q
  · rw [if_pos hq, if_pos (h.mpr hq), ha]
  · rw [if_neg hq, if_neg (mt h.mp hq), hb]

theorem startPass_setMid (x : Sequencer) (b : Bool) (l : Loop) : startPass (setMid b x) l = setMid b (startPass x l) := by
  unfold startPass
  dsimp only
  by_cases h : l.ilen = 0
  · rw [if_pos h, if_pos h]
    refine ite_map Iff.rfl ?_ rfl
    exact ite_map Iff.rfl rfl rfl
  · rw [if_neg h, if_neg h]
    refine ite_map Iff.rfl ?_ rfl
    exact ite_map Iff.rfl rfl rfl

theorem nextWord_setMid (x : Sequencer) (b : Bool) : nextWord (setMid b x) = setMid b (nextWord x) := by
  unfold nextWord
  rw [show (setMid b x).loop = x.loop from rfl]
  cases x.loop with
  | none => rfl
  | some l =>
    have ends (z : Sequencer) : (if (lcVal (decLc (setMid b z) l.lco) l.lco).val = 0 then exitLoop (decLc (setMid b z) l.lco) l
        else startPass (decLc (setMid b z) l.lco) l) =
        setMid b (if (lcVal (decLc z l.lco) l.lco).val = 0 then exitLoop (decLc z l.lco) l else startPass (decLc z l.lco) l) :=
      ite_map Iff.rfl rfl (startPass_setMid (decLc z l.lco) b l)
    dsimp only
    by_cases h : l.pos + 1 = l.ilen ∧ l.innerDone = false
    · rw [if_pos h, if_pos h]
      refine ite_map Iff.rfl rfl ?_
      exact ite_map Iff.rfl (ends (decLc x l.lci)) rfl
    · rw [if_neg h, if_neg h]
      refine ite_map Iff.rfl rfl ?_
      exact ite_map Iff.rfl (ends x) rfl

theorem tickScan_setMid (n : Nat) (x : Sequencer) (b : Bool) : tickScan n (setMid b x) = setMid b (tickScan n x) := by
  unfold tickScan
  rw [show (setMid b x).scan = x.scan from rfl]
  cases x.scan with
  | none => rfl
  | some v => exact ite_map Iff.rfl rfl rfl

/-! ### Its time (R210) -/

/-- The first running order, where it is put in place of those of its number. -/
theorem find?_replace_running {l : List Order} {o p : Order} (hseq : p.seq = o.seq) (hst : p.st = .running)
    (h : l.find? (fun x => decide (x.st = .running)) = some o) :
    (l.map fun x => if x.seq = p.seq then p else x).find? (fun x => decide (x.st = .running)) = some p := by
  induction l with
  | nil => cases h
  | cons x l ih =>
    rw [List.map_cons, List.find?_cons]
    by_cases hx : x.seq = p.seq
    · rw [if_pos hx, hst]
      rfl
    · rw [if_neg hx]
      rw [List.find?_cons] at h
      split at h
      · cases h
        exact absurd hseq.symm hx
      · exact ih h

theorem runOrder_setOrder {s : State} {t : Tenant} {o p : Order} (h : runOrder s t = some o) (hseq : p.seq = o.seq) (hst : p.st = .running) :
    runOrder (setOrder s t p) t = some p := by
  unfold runOrder setOrder
  rw [ten_modTen_same]
  exact find?_replace_running hseq hst h

theorem running_of_runOrder {s : State} {t : Tenant} {o : Order} (h : runOrder s t = some o) : o.st = .running := by
  simpa using List.find?_some h

/-- The time of the running order, `n` ac later. -/
def later (s : State) (t : Tenant) (n : Nat) (o : Order) : Order :=
  { o with runTicks := o.runTicks + n * acTicks s t, sinceTicks := o.sinceTicks + n * acTicks s t }

theorem later_seq (s : State) (t : Tenant) (n : Nat) (o : Order) : (later s t n o).seq = o.seq := by rw [later]
theorem later_st (s : State) (t : Tenant) (n : Nat) (o : Order) : (later s t n o).st = o.st := by rw [later]

theorem addTime_eq {s : State} {t : Tenant} {o : Order} (h : runOrder s t = some o) (n : Nat) :
    addTime s t n = setOrder s t (later s t n o) := by
  unfold addTime modRun
  rw [h]
  rfl

/-- Time leaves everything but the orders of its tenant. -/
theorem addTime_ten {s : State} {t : Tenant} {o : Order} (h : runOrder s t = some o) (n : Nat) :
    runOrder (addTime s t n) t = some (later s t n o) ∧ (∀ v, v ≠ t → ten (addTime s t n) v = ten s v) ∧
      ten (addTime s t n) t = { ten s t with orders := (ten (addTime s t n) t).orders } := by
  rw [addTime_eq h]
  generalize hp : later s t n o = p
  have hseq : p.seq = o.seq := hp ▸ later_seq s t n o
  have hst : p.st = .running := hp ▸ (later_st s t n o).trans (running_of_runOrder h)
  refine ⟨runOrder_setOrder h hseq hst, fun v hv => ten_modTen_ne _ _ hv, ?_⟩
  rw [setOrder, ten_modTen_same]

theorem addTime_idle {s : State} {t : Tenant} (h : runOrder s t = none) (n : Nat) : addTime s t n = s := by
  unfold addTime modRun
  rw [h]

theorem addTime_own (s : State) (t : Tenant) (n : Nat) : ten (addTime s t n) t = { ten s t with orders := (ten (addTime s t n) t).orders } := by
  cases h : runOrder s t with
  | none => rw [addTime_idle h]
  | some o => exact (addTime_ten h n).2.2

theorem acTicks_of {s u : State} (hten : u.tenants = s.tenants) (hmap : u.map = s.map) (htiles : u.tiles = s.tiles) (hclk : u.clk = s.clk)
    (t : Tenant) : acTicks u t = acTicks s t := by
  simp only [acTicks, physTiles, ownTiles, ten_of_tenants hten, tile, hclk, htiles,
    show physOf u = physOf s from funext fun n => by rw [physOf, hmap]; rfl]

/-- The end of a microword that has changed the PEs and its sequencer, whose registers are then `x`. -/
theorem endMicro_ends {s u : State} {t : Tenant} {q : SeqId} (hrun : ∃ o, runOrder s t = some o) (hfoot : Foot 0x170 s u) {x : Sequencer}
    (hq : sqr u q.val = setMid true x) (hr : ∀ r, r ≠ q.val → sqr u r = sqr s r) (n : Nat) :
    microEnds s (endMicro u t q n) t q x n := by
  obtain ⟨o, ho⟩ := hrun
  let v := modSqr u q.val fun y => nextWord (tickScan n y)
  have hten : v.tenants = s.tenants := hfoot.2 .tenants (by decide)
  have hvo : runOrder v t = some o := by rw [runOrder, ten_of_tenants hten]; exact ho
  have hticks : acTicks v t = acTicks s t :=
    acTicks_of hten (hfoot.2 .map (by decide)) (hfoot.2 .tiles (by decide)) (hfoot.2 .clk (by decide)) t
  have hseqs : (addTime v t n).seqs = v.seqs := (addTime_foot v t n (show 0x800 ||| 0x800 = 0x800 by decide) (Foot.refl _ v)).2 .seqs (by decide)
  have hsqr (r : Nat) : sqr (addTime v t n) r = sqr v r := by rw [sqr, hseqs]; rfl
  obtain ⟨after, others, own⟩ := addTime_ten hvo n
  refine ⟨?_, fun r hne => ?_, ?_, fun w hw => ?_, ?_⟩
  · show sqr (addTime v t n) q.val = _
    rw [hsqr, sqr_modSqr_same, hq, tickScan_setMid, nextWord_setMid]
    rfl
  · show sqr (addTime v t n) r = _
    rw [hsqr]
    exact (sqr_setSqr_ne _ _ hne).trans (hr r hne)
  · show runOrder (addTime v t n) t = _
    rw [after, ho, later, hticks]
    rfl
  · show ten (addTime v t n) w = _
    rw [others w hw, ten_of_tenants hten]
  · show ten (addTime v t n) t = _
    rw [own, ten_of_tenants hten]
    rfl

/-- What a microword leaves to its sequencer and tenant is not changed by writes elsewhere. -/
theorem microEnds_congr {s u v : State} {t : Tenant} {q : SeqId} {x : Sequencer} {n : Nat} (hs : v.seqs = u.seqs) (ht : v.tenants = u.tenants)
    (h : microEnds s u t q x n) : microEnds s v t q x n := by
  have hsqr : sqr v = sqr u := funext fun r => by rw [sqr, hs]; rfl
  have hten : ten v = ten u := funext fun w => ten_of_tenants ht w
  unfold microEnds microRuns timeRuns runOrder at *
  rw [hsqr, hten]
  exact h

end Sys2Proof.Machine
end

