-- ==== Sys2Proof/Proofs/PlaneSlices.lean ====
section
/-! SUPPORT. What a PLANE microword leaves in each lane of a slice (R54, R57, R159, R160). -/

namespace Sys2Proof.Machine

section Slice

variable (s : State) (x : Sequencer) (w : PlaneW) (add : Bool) (g : Nat) (e : Elem)

/-- Source A, the result of the table and the result of the plane in a lane. -/
def planeA (j : Nat) : Bool := planeSrc s x g e w.sa.toNat j
def planeB (j : Nat) : Bool := planeSrc s x g e w.sb.toNat j
def planeY (j : Nat) : Bool := ttBit w.tt (planeA s x w g e j) (planeB s x w g e j) && (!w.gf || (pe s (e.lane g j)).f)
def planeCarry (j : Nat) : Bool := (carries (planeA s x w g e) (planeY s x w g e) (pe s (e.lane g 0)).c g).getD j false
def planeR (j : Nat) : Bool :=
  if add then planeA s x w g e j ^^ planeY s x w g e j ^^ planeCarry s x w g e j else planeY s x w g e j

theorem planeDa_lt : (maOf x w.da.toNat).eff s (e.lane g 0) < 4096 := Nat.mod_lt _ (by decide)

/-- The plane that is written to M. -/
def planeDa : Fin 4096 := ⟨(maOf x w.da.toNat).eff s (e.lane g 0), planeDa_lt s x w g e⟩

/-! ### The three stages of a slice -/

/-- Carry out and overflow of an ADD. -/
def sliceCarry (u : State) : State :=
  if add && active s g e then
    setPe (setC u g e (planeCarry s x w g e g)) (e.lane g 0)
      { pe (setC u g e (planeCarry s x w g e g)) (e.lane g 0) with v := planeCarry s x w g e g ^^ planeCarry s x w g e (g - 1) }
  else u

/-- The bits of lane `j` where both M and F are written. -/
def laneBoth (z : State) (j : Nat) : State :=
  let v := setPeBit z (e.lane g j) (planeDa s x w g e) (planeR s x w add g e j)
  setPe v (e.lane g j) { pe v (e.lane g j) with f := planeB s x w g e j }

/-- The destination. -/
def sliceDst (u : State) : State :=
  match w.dst.toNat with
  | 0 => if active s g e then (List.range g).foldl (fun z j => setPeBit z (e.lane g j) (planeDa s x w g e) (planeR s x w add g e j)) u else u
  | 1 => if active s g e then setC u g e (planeR s x w add g e 0) else u
  | 2 => setK u g e (planeR s x w add g e 0)
  | 3 => (List.range g).foldl (fun z j => setPeX z (e.lane g j) (planeR s x w add g e j)) u
  | 4 => if active s g e then regLanes u g e fun j y => { y with f := planeR s x w add g e j } else u
  | 6 => if active s g e then setC ((List.range g).foldl (laneBoth s x w add g e) u) g e false else u
  | _ => u

/-- The residues, of lane 0. -/
def newRes (old : BitVec 6) : BitVec 6 :=
  let wt := if g = 1 ∧ (pe s (e.lane g 0)).weight2 = true then 2 else 1
  let ra := if w.res = 1 then accRes (old.extractLsb' 0 2) wt (laneNat g (planeA s x w g e)) else old.extractLsb' 0 2
  let rb := if w.res = 1 then accRes (old.extractLsb' 2 2) wt (laneNat g (planeY s x w g e)) else old.extractLsb' 2 2
  accRes (old.extractLsb' 4 2) wt (laneNat g (planeR s x w add g e)) ++ rb ++ ra

def sliceRes (u : State) : State :=
  if w.res = 0 ∨ active s g e = false then u
  else
    let v := setPeRes u (e.lane g 0) (newRes s x w add g e (peRes u (e.lane g 0)))
    if g = 1 then setPe v (e.lane g 0) { pe v (e.lane g 0) with weight2 := !(pe s (e.lane g 0)).weight2 } else v

theorem planeSlice_eq (u : State) :
    planeSlice s x w add g u e = sliceRes s x w add g e (sliceDst s x w add g e (sliceCarry s x w add g e u)) := rfl

/-! ### The stages as a lane shows them -/

def carryView (j : Nat) (v : PeView) : PeView :=
  if add && active s g e then
    { v with c := planeCarry s x w g e g, v := if j = 0 then planeCarry s x w g e g ^^ planeCarry s x w g e (g - 1) else v.v }
  else v

def bitView (j : Nat) (v : PeView) : PeView :=
  { v with bit := fun a => if a = planeDa s x w g e then planeR s x w add g e j && !reservedBit (planeDa s x w g e) else v.bit a }

def dstView (j : Nat) (v : PeView) : PeView :=
  match w.dst.toNat with
  | 0 => if active s g e then bitView s x w add g e j v else v
  | 1 => if active s g e then { v with c := planeR s x w add g e 0 } else v
  | 2 => { v with k := planeR s x w add g e 0 }
  | 3 => { v with x := planeR s x w add g e j }
  | 4 => if active s g e then { v with f := planeR s x w add g e j } else v
  | 6 => if active s g e then { bitView s x w add g e j v with f := planeB s x w g e j, c := false } else v
  | _ => v

def resView (j : Nat) (v : PeView) : PeView :=
  if w.res = 0 ∨ active s g e = false ∨ j ≠ 0 then v
  else { v with res := newRes s x w add g e v.res, weight2 := if g = 1 then !(pe s (e.lane g 0)).weight2 else v.weight2 }

/-- What a PLANE leaves in lane `j` of a slice that showed `v` there. -/
def planeView (j : Nat) (v : PeView) : PeView :=
  resView s x w add g e j (dstView s x w add g e j (carryView s x w add g e j v))

end Slice

/-- A view changes at the lanes of `e` only, each in its way. -/
def ViewsAt (g : Nat) (e : Elem) (upd : Nat → PeView → PeView) (u u' : State) : Prop :=
  (∀ j, j < g → peView u' (e.lane g j) = upd j (peView u (e.lane g j))) ∧
    ∀ k, (∀ j, j < g → k ≠ e.lane g j) → peView u' k = peView u k ∧ pe u' k = pe u k

theorem ViewsAt.refl (g : Nat) (e : Elem) (u : State) : ViewsAt g e (fun _ v => v) u u := ⟨fun _ _ => rfl, fun _ _ => ⟨rfl, rfl⟩⟩

theorem ViewsAt.trans {g : Nat} {e : Elem} {f f' : Nat → PeView → PeView} {u v w : State} (h : ViewsAt g e f u v) (h' : ViewsAt g e f' v w) :
    ViewsAt g e (fun j y => f' j (f j y)) u w :=
  ⟨fun j hj => by rw [h'.1 j hj, h.1 j hj], fun k hk => ⟨(h'.2 k hk).1.trans (h.2 k hk).1, (h'.2 k hk).2.trans (h.2 k hk).2⟩⟩

theorem ViewsAt.congr {g : Nat} {e : Elem} {f f' : Nat → PeView → PeView} {u v : State} (h : ViewsAt g e f u v)
    (hf : ∀ j, j < g → ∀ y, f' j y = f j y) : ViewsAt g e f' u v :=
  ⟨fun j hj => by rw [hf j hj]; exact h.1 j hj, h.2⟩

/-- A pass over the lanes of a slice. -/
theorem ViewsAt.lanes {g : Nat} {e : Elem} {step : State → Nat → State} {upd : Nat → PeView → PeView}
    (hin : ∀ u j, peView (step u j) (e.lane g j) = upd j (peView u (e.lane g j)))
    (hout : ∀ u j k, k ≠ e.lane g j → peView (step u j) k = peView u k ∧ pe (step u j) k = pe u k) (u : State) :
    ViewsAt g e upd u ((List.range g).foldl step u) := by
  obtain ⟨inside, outside⟩ := foldl_lanes (view := peView) hin (fun u j k hk => (hout u j k hk).1) u
  refine ⟨inside, fun k hk => ⟨outside k hk, ?_⟩⟩
  exact foldl_same (view := fun v => pe v k) (fun j hj v => (hout v j k (hk j (List.mem_range.mp hj))).2) u

theorem ViewsAt.regs (g : Nat) (e : Elem) (f : Nat → PE → PE) (upd : Nat → PeView → PeView) (u : State)
    (h : ∀ j, viewOf u (e.lane g j) (f j (pe u (e.lane g j))) = upd j (peView u (e.lane g j))) : ViewsAt g e upd u (regLanes u g e f) := by
  obtain ⟨inside, outside⟩ := peView_regLanes u g e f
  exact ⟨fun j hj => (inside j hj).trans (h j), fun k hk => ⟨outside k hk, (pe_regLanes u g e f).2 k hk⟩⟩

/-- A write to lane 0. -/
theorem ViewsAt.lane0 {g : Nat} (hg : 0 < g) {e : Elem} {u u' : State} {f : PeView → PeView}
    (h : peView u' (e.lane g 0) = f (peView u (e.lane g 0)))
    (h' : ∀ k, k ≠ e.lane g 0 → peView u' k = peView u k ∧ pe u' k = pe u k) :
    ViewsAt g e (fun j v => if j = 0 then f v else v) u u' := by
  refine ⟨fun j _ => ?_, fun k hk => h' k (hk 0 hg)⟩
  by_cases hj : j = 0
  · subst hj
    exact h.trans (if_pos rfl).symm
  · exact (h' _ fun hl => hj (lane_inj.mp hl)).1.trans (if_neg hj).symm

theorem ViewsAt.reg0 {g : Nat} (hg : 0 < g) {e : Elem} {u : State} {x : PE} {f : PeView → PeView}
    (h : viewOf u (e.lane g 0) x = f (peView u (e.lane g 0))) :
    ViewsAt g e (fun j v => if j = 0 then f v else v) u (setPe u (e.lane g 0) x) :=
  ViewsAt.lane0 hg ((peView_setPe_same _ _ _).trans h) fun _ hk => ⟨peView_setPe_ne _ _ hk, pe_setPe_ne _ _ hk⟩

theorem setC_viewsAt (g : Nat) (e : Elem) (b : Bool) (u : State) : ViewsAt g e (fun _ v => { v with c := b }) u (setC u g e b) :=
  ViewsAt.regs g e (fun _ y => { y with c := b }) _ u fun _ => rfl

theorem setK_viewsAt (g : Nat) (e : Elem) (b : Bool) (u : State) : ViewsAt g e (fun _ v => { v with k := b }) u (setK u g e b) :=
  ViewsAt.regs g e (fun _ y => { y with k := b }) _ u fun _ => rfl

section Slice

variable (s : State) (x : Sequencer) (w : PlaneW) (add : Bool) {g : Nat} (hg : 0 < g) (e : Elem) (u : State)

include hg in
theorem sliceCarry_viewsAt : ViewsAt g e (carryView s x w add g e) u (sliceCarry s x w add g e u) := by
  unfold sliceCarry carryView
  split
  · have flow := ViewsAt.reg0 hg (e := e) (u := setC u g e (planeCarry s x w g e g))
      (x := { pe (setC u g e (planeCarry s x w g e g)) (e.lane g 0) with v := planeCarry s x w g e g ^^ planeCarry s x w g e (g - 1) })
      (f := fun v => { v with v := planeCarry s x w g e g ^^ planeCarry s x w g e (g - 1) }) rfl
    refine ((setC_viewsAt g e (planeCarry s x w g e g) u).trans flow).congr fun j _ y => ?_
    split <;> rfl
  · exact ViewsAt.refl g e u

theorem bits_viewsAt : ViewsAt g e (bitView s x w add g e) u
    ((List.range g).foldl (fun z j => setPeBit z (e.lane g j) (planeDa s x w g e) (planeR s x w add g e j)) u) :=
  ViewsAt.lanes (fun v _ => peView_setPeBit_same v _ (planeDa s x w g e) _)
    (fun v _ _ hk => ⟨peView_setPeBit_ne v (planeDa s x w g e) _ hk, pe_setPeBit_ne v _ _ hk⟩) u

theorem both_viewsAt : ViewsAt g e (fun j v => { bitView s x w add g e j v with f := planeB s x w g e j }) u
    ((List.range g).foldl (laneBoth s x w add g e) u) := by
  refine ViewsAt.lanes (fun v j => ?_) (fun v j k hk => ⟨?_, ?_⟩) u
  · rw [laneBoth, peView_setPe_same]
    have := peView_setPeBit_same v (e.lane g j) (planeDa s x w g e) (planeR s x w add g e j)
    exact congrArg (fun y : PeView => { y with f := planeB s x w g e j }) this
  · rw [laneBoth, peView_setPe_ne _ _ hk, peView_setPeBit_ne _ _ _ hk]
  · rw [laneBoth, pe_setPe_ne _ _ hk, pe_setPeBit_ne _ _ _ hk]

theorem sliceDst_viewsAt : ViewsAt g e (dstView s x w add g e) u (sliceDst s x w add g e u) := by
  have onlyActive {f : Nat → PeView → PeView} {u' : State} (h : ViewsAt g e f u u') :
      ViewsAt g e (fun j v => if active s g e then f j v else v) u (if active s g e then u' else u) := by
    split
    · exact h
    · exact ViewsAt.refl g e u
  unfold sliceDst dstView
  split
  · exact onlyActive (bits_viewsAt s x w add e u)
  · exact onlyActive (setC_viewsAt g e _ u)
  · exact setK_viewsAt g e _ u
  · exact ViewsAt.lanes (fun v j => peView_setPeX_same v _ _) (fun v _ _ hk => ⟨peView_setPeX_ne v _ hk, pe_setPe_ne v _ hk⟩) u
  · exact onlyActive (ViewsAt.regs g e _ _ u fun _ => rfl)
  · exact onlyActive ((both_viewsAt s x w add e u).trans (setC_viewsAt g e false _))
  · exact ViewsAt.refl g e u

include hg in
theorem sliceRes_viewsAt : ViewsAt g e (resView s x w add g e) u (sliceRes s x w add g e u) := by
  unfold sliceRes
  split
  · next h => exact (ViewsAt.refl g e u).congr fun j _ y => if_pos (h.elim .inl fun h => .inr (.inl h))
  · next h =>
    obtain ⟨hres, hon⟩ := not_or.mp h
    let v := setPeRes u (e.lane g 0) (newRes s x w add g e (peRes u (e.lane g 0)))
    have first : ViewsAt g e (fun j y => if j = 0 then { y with res := newRes s x w add g e y.res } else y) u v :=
      ViewsAt.lane0 hg (peView_setPeRes_same _ _ _) fun k hk => ⟨peView_setPeRes_ne _ _ hk, pe_setPe_ne _ _ hk⟩
    have weighed : ViewsAt g e (fun j y => if j = 0 then { y with weight2 := if g = 1 then !(pe s (e.lane g 0)).weight2 else y.weight2 } else y) v
        (if g = 1 then setPe v (e.lane g 0) { pe v (e.lane g 0) with weight2 := !(pe s (e.lane g 0)).weight2 } else v) := by
      split
      · exact ViewsAt.reg0 hg rfl
      · refine (ViewsAt.refl g e v).congr fun j _ y => ?_
        split <;> rfl
    refine (first.trans weighed).congr fun j _ y => ?_
    unfold resView
    by_cases hj : j = 0
    · rw [if_neg (not_or.mpr ⟨hres, not_or.mpr ⟨hon, not_not.mpr hj⟩⟩), if_pos hj, if_pos hj]
    · rw [if_pos (.inr (.inr hj)), if_neg hj, if_neg hj]

end Slice

/-- A PLANE in one slice. -/
theorem planeSlice_viewsAt (s : State) (x : Sequencer) (w : PlaneW) (add : Bool) {g : Nat} (hg : 0 < g) (e : Elem) (u : State) :
    ViewsAt g e (planeView s x w add g e) u (planeSlice s x w add g u e) := by
  rw [planeSlice_eq]
  exact ((sliceCarry_viewsAt s x w add hg e u).trans (sliceDst_viewsAt s x w add e _)).trans (sliceRes_viewsAt s x w add hg e _)

end Sys2Proof.Machine
end

