-- ==== Sys2Proof/Proofs/PlaneWords.lean ====
section
/-! SUPPORT. PLANE on every slice of a tenant (R54, R57, R159, R160). -/

namespace Sys2Proof.Machine

/-! ### What a lane shows, field by field -/

theorem dst_cases (d : BitVec 3) : d = 0 ∨ d = 1 ∨ d = 2 ∨ d = 3 ∨ d = 4 ∨ d = 5 ∨ d = 6 ∨ d = 7 := by
  decide +revert

section Fields

variable {s : State} {x : Sequencer} {w : PlaneW} {add : Bool} {g : Nat} {e : Elem} {j : Nat} {v : PeView}

theorem carryView_c : (carryView s x w add g e j v).c = if add && active s g e then planeCarry s x w g e g else v.c := by
  unfold carryView
  split <;> rfl

theorem carryView_v : (carryView s x w add g e j v).v =
    if (add && active s g e) = true ∧ j = 0 then planeCarry s x w g e g ^^ planeCarry s x w g e (g - 1) else v.v := by
  unfold carryView
  by_cases h : (add && active s g e) = true <;> simp [h]

theorem carryView_rest : { carryView s x w add g e j v with c := v.c, v := v.v } = v := by
  unfold carryView
  split <;> rfl

theorem dstView_c : (dstView s x w add g e j v).c =
    if active s g e = false then v.c else if w.dst = 6 then false else if w.dst = 1 then planeR s x w add g e 0 else v.c := by
  unfold dstView
  rcases dst_cases w.dst with h | h | h | h | h | h | h | h <;> cases active s g e <;> simp [h, bitView]

theorem dstView_k : (dstView s x w add g e j v).k = if w.dst = 2 then planeR s x w add g e 0 else v.k := by
  unfold dstView
  rcases dst_cases w.dst with h | h | h | h | h | h | h | h <;> cases active s g e <;> simp [h, bitView]

theorem dstView_x : (dstView s x w add g e j v).x = if w.dst = 3 then planeR s x w add g e j else v.x := by
  unfold dstView
  rcases dst_cases w.dst with h | h | h | h | h | h | h | h <;> cases active s g e <;> simp [h, bitView]

theorem dstView_f : (dstView s x w add g e j v).f = if active s g e = true ∧ w.dst = 4 then planeR s x w add g e j
    else if active s g e = true ∧ w.dst = 6 then planeB s x w g e j else v.f := by
  unfold dstView
  rcases dst_cases w.dst with h | h | h | h | h | h | h | h <;> cases active s g e <;> simp [h, bitView]

theorem dstView_bit (a : Fin 4096) : (dstView s x w add g e j v).bit a =
    if (w.dst = 0 ∨ w.dst = 6) ∧ active s g e = true ∧ a = planeDa s x w g e then planeR s x w add g e j && !reservedBit (planeDa s x w g e)
    else v.bit a := by
  unfold dstView
  rcases dst_cases w.dst with h | h | h | h | h | h | h | h <;> cases active s g e <;> simp [h, bitView]

theorem dstView_rest : { dstView s x w add g e j v with c := v.c, k := v.k, x := v.x, f := v.f, bit := v.bit } = v := by
  unfold dstView
  rcases dst_cases w.dst with h | h | h | h | h | h | h | h <;> cases active s g e <;> simp [h, bitView]

theorem resView_res : (resView s x w add g e j v).res =
    if w.res = 0 ∨ active s g e = false ∨ j ≠ 0 then v.res else newRes s x w add g e v.res := by
  unfold resView
  split <;> rfl

theorem resView_weight2 : (resView s x w add g e j v).weight2 =
    if w.res = 0 ∨ active s g e = false ∨ j ≠ 0 then v.weight2 else if g = 1 then !(pe s (e.lane g 0)).weight2 else v.weight2 := by
  unfold resView
  split <;> rfl

theorem resView_rest : { resView s x w add g e j v with res := v.res, weight2 := v.weight2 } = v := by
  unfold resView
  split <;> rfl

end Fields

/-! ### The result of the plane -/

section Result

variable (s : State) (x : Sequencer) (w : PlaneW) (add : Bool) (g : Nat) (e : Elem)

/-- The two addends of a slice with its carry. -/
def planeSum : Nat := addendSum (planeA s x w g e) (planeY s x w g e) (pe s (e.lane g 0)).c g

theorem planeCarry_eq {j : Nat} (h : j ≤ g) :
    planeCarry s x w g e j = carryAt (planeA s x w g e) (planeY s x w g e) (pe s (e.lane g 0)).c j :=
  getD_carries _ _ _ h

theorem planeCarry_out : planeCarry s x w g e g = (planeSum s x w g e).testBit g := by
  rw [planeCarry_eq s x w g e (Nat.le_refl g), planeSum, testBit_addendSum_self]

theorem planeR_eq {j : Nat} (h : j < g) :
    planeR s x w add g e j = if add then (planeSum s x w g e).testBit j else planeY s x w g e j := by
  unfold planeR
  split
  · rw [planeSum, testBit_addendSum _ _ _ h, planeCarry_eq s x w g e (Nat.le_of_lt h)]
  · rfl

/-- The carry into the last lane is that of the lanes below. -/
theorem planeCarry_last : planeCarry s x w g e (g - 1) =
    (laneSum g (planeA s x w g e) % 2 ^ (g - 1) + laneSum g (planeY s x w g e) % 2 ^ (g - 1) + (pe s (e.lane g 0)).c.toNat).testBit (g - 1) := by
  rw [planeCarry_eq s x w g e (Nat.sub_le g 1), ← testBit_addendSum_self, addendSum, laneSum_mod _ _ _ (Nat.sub_le g 1),
    laneSum_mod _ _ _ (Nat.sub_le g 1)]

end Result

/-! ### The residues -/

theorem toNat_accRes (old : BitVec 2) (wt n : Nat) : (accRes old wt n).toNat = (old.toNat + wt * n) % 3 := by
  rw [accRes, BitVec.toNat_ofNat, Nat.mod_eq_of_lt]
  exact Nat.lt_trans (Nat.mod_lt _ (by decide)) (by decide)

theorem extract_three (a b c : BitVec 2) :
    (a ++ b ++ c).extractLsb' 0 2 = c ∧ (a ++ b ++ c).extractLsb' 2 2 = b ∧ (a ++ b ++ c).extractLsb' 4 2 = a := by
  revert a b c
  decide

/-! ### The whole pass -/

/-- The PEs of the tenant after a PLANE. -/
def planePass (s : State) (t : Tenant) (q : SeqId) (w : PlaneW) (add : Bool) : State :=
  let x := sqr s q.val
  let g := x.gw.width
  let es := elems s g (ownTiles s t)
  es.foldl (planeSlice s x w add g) (planeTouch (inRoutine s q) x w g es)

/-! Being within a routine is nothing a slice reads. -/

theorem planeSrc_inRoutine (s : State) (q : SeqId) (x : Sequencer) (g : Nat) (e : Elem) (a : Nat) :
    planeSrc (inRoutine s q) (setMid true x) g e a = planeSrc s x g e a := by
  funext j
  unfold planeSrc
  rfl

theorem eff_inRoutine (s : State) (q : SeqId) (m : MicroAddr) (k : Nat) : m.eff (inRoutine s q) k = m.eff s k := rfl

theorem maOf_setMid (b : Bool) (x : Sequencer) (i : Nat) : maOf (setMid b x) i = maOf x i := rfl

theorem planeSlice_inRoutine (s : State) (q : SeqId) (x : Sequencer) (w : PlaneW) (add : Bool) (g : Nat) :
    planeSlice (inRoutine s q) (setMid true x) w add g = planeSlice s x w add g := by
  funext u e
  unfold planeSlice
  simp only [planeSrc_inRoutine, pe_inRoutine, active_inRoutine, eff_inRoutine, maOf_setMid]
  rfl

theorem planeTouch_setMid (u : State) (x : Sequencer) (w : PlaneW) (g : Nat) (es : List Elem) :
    planeTouch u (setMid true x) w g es = planeTouch u x w g es := rfl

theorem plane_issued {s : State} {t : Tenant} {q : SeqId} {w : PlaneW} {add : Bool} (h : issues s t q (wordPlane w add))
    (hbad : planeBad w add = false) : plane s q w add = endMicro (modSqr (planePass s t q w add) q.val (planeInc w)) t q 1 := by
  unfold plane
  rw [runMicro_issued h hbad]
  dsimp only
  rw [sqr_inRoutine, planeSlice_inRoutine, planeTouch_setMid, elems_inRoutine, ownTiles_inRoutine]
  rfl

/-- The lanes whose bytes a PLANE touches are lanes of its slices. -/
theorem touch_views (s : State) (g : Nat) (es : List Elem) (f : Fld) (k : Nat) : peView (touch s g es f) k = peView s k ∧
    ((∀ e ∈ es, ∀ j, j < g → k ≠ e.lane g j) → pe (touch s g es f) k = pe s k) := by
  refine ⟨peView_latchBad _ _ k, fun hk => pe_latchBad_unread fun b => ?_⟩
  rw [List.any_eq_false]
  intro e he hany
  obtain ⟨j, hj, h⟩ := List.any_eq_true.mp hany
  exact hk e he j (List.mem_range.mp hj) (of_decide_eq_true (Bool.and_eq_true_iff.mp h).1).symm

theorem planeTouch_views (s : State) (x : Sequencer) (w : PlaneW) (g : Nat) (es : List Elem) (k : Nat) :
    peView (planeTouch s x w g es) k = peView s k ∧
      ((∀ e ∈ es, ∀ j, j < g → k ≠ e.lane g j) → pe (planeTouch s x w g es) k = pe s k) :=
  ⟨foldl_same (view := fun u => peView u k) (fun _ _ u => (touch_views u g es _ k).1) s,
    fun hk => foldl_same (view := fun u => pe u k) (fun _ _ u => (touch_views u g es _ k).2 hk) s⟩

/-- A PLANE leaves the sequencers beyond its being within a routine. -/
theorem planePass_foot_inRoutine (s : State) (t : Tenant) (q : SeqId) (w : PlaneW) (add : Bool) :
    Foot 0x70 (inRoutine s q) (planePass s t q w add) := by
  unfold planePass
  dsimp only
  rw [← planeSlice_inRoutine s q]
  exact Foot.foldl (planeTouch_foot _ _ w _ _ (by decide) (Foot.refl _ _)) fun u e hu =>
    planeSlice_foot _ _ w add _ u e (by decide) (Foot.refl _ _) hu

theorem planePass_foot {m : Nat} (hm : 0x170 ||| m = m) (s : State) (t : Tenant) (q : SeqId) (w : PlaneW) (add : Bool) :
    Foot m s (planePass s t q w add) := by
  have h10 : 0x10 ||| m = m := Foot.sub (by decide) hm
  have h70 : 0x70 ||| m = m := Foot.sub (by decide) hm
  have routine : Foot m s (inRoutine s q) := modSqr_foot s q.val _ (Foot.sub (by decide) hm) (Foot.refl m s)
  exact Foot.foldl (planeTouch_foot _ _ w _ _ h10 routine) fun u e hu => planeSlice_foot s _ w add _ u e h70 (Foot.refl m s) hu

/-- What every lane of a slice of the tenant shows after a PLANE, and that nothing else is touched. -/
theorem planePass_views {s : State} (h : mapOk s) (t : Tenant) (q : SeqId) (w : PlaneW) (add : Bool) :
    let x := sqr s q.val
    let g := x.gw.width
    (∀ e ∈ elems s g (ownTiles s t), ∀ j, j < g →
      peView (planePass s t q w add) (e.lane g j) = planeView s x w add g e j (peView s (e.lane g j))) ∧
    ∀ k, (∀ e ∈ elems s g (ownTiles s t), ∀ j, j < g → k ≠ e.lane g j) →
      peView (planePass s t q w add) k = peView s k ∧ pe (planePass s t q w add) k = pe s k := by
  intro x g
  obtain ⟨hdvd, hpos⟩ := width_dvd x.gw
  let es := elems s g (ownTiles s t)
  let u := planeTouch (inRoutine s q) x w g es
  have slice := planeSlice_viewsAt s x w add hpos
  obtain ⟨inside, outside⟩ := foldl_slices (view := peView) (fun u e j hj => (slice e u).1 j hj) (fun u e k hk => ((slice e u).2 k hk).1)
    (slicesApart_elems h hdvd t) u
  have touched := planeTouch_views (inRoutine s q) x w g es
  refine ⟨fun e he j hj => (inside e he j hj).trans ?_, fun k hk => ⟨(outside k hk).trans (touched k).1, ?_⟩⟩
  · exact congrArg (planeView s x w add g e j) (touched (e.lane g j)).1
  · refine (foldl_same (view := fun v => pe v k) (fun e he v => ?_) u).trans ((touched k).2 hk)
    exact ((slice e v).2 k (hk e he)).2

theorem sqr_planePass (s : State) (t : Tenant) (q : SeqId) (w : PlaneW) (add : Bool) (r : Nat) :
    sqr (planePass s t q w add) r = sqr (inRoutine s q) r := by
  rw [sqr, (planePass_foot_inRoutine s t q w add).2 .seqs (by decide)]
  rfl

theorem setMa_setMid (b : Bool) (x : Sequencer) (i : Nat) (m : MicroAddr) : setMa (setMid b x) i m = setMid b (setMa x i m) := rfl

theorem foldl_inc_setMid (b : Bool) (l : List Nat) (x : Sequencer) :
    l.foldl (fun z i => setMa z i (maOf z i).inc) (setMid b x) = setMid b (l.foldl (fun z i => setMa z i (maOf z i).inc) x) := by
  induction l generalizing x with
  | nil => rfl
  | cons i l ih => rw [List.foldl_cons, List.foldl_cons, maOf_setMid, setMa_setMid, ih]

theorem planeInc_setMid (b : Bool) (w : PlaneW) (x : Sequencer) : planeInc w (setMid b x) = setMid b (planeInc w x) := by
  unfold planeInc
  dsimp only
  rw [foldl_inc_setMid]
  exact ite_map Iff.rfl rfl rfl

/-- The state after a PLANE. -/
def planeNext (s : State) (t : Tenant) (q : SeqId) (w : PlaneW) (add : Bool) : State :=
  endMicro (modSqr (planePass s t q w add) q.val (planeInc w)) t q 1

section Next

variable {s : State} {t : Tenant} {q : SeqId} {w : PlaneW} {add : Bool}

theorem planeNext_ends (h : microReady s q = some t) : microEnds s (planeNext s t q w add) t q (planeInc w (sqr s q.val)) 1 := by
  refine endMicro_ends (run_of_microReady h) (modSqr_foot _ q.val _ (by decide) (planePass_foot (by decide) s t q w add)) ?_ (fun r hr => ?_) 1
  · rw [sqr_modSqr_same, sqr_planePass, sqr_inRoutine, planeInc_setMid]
  · refine (sqr_setSqr_ne _ _ hr).trans ?_
    rw [sqr_planePass]
    exact sqr_setSqr_ne _ _ hr

theorem planeNext_sameBut : sameBut [.pe, .peMem, .peBad, .seqs, .tenants] s (planeNext s t q w add) :=
  Foot.sameBut (endMicro_foot _ t q 1 (by decide) (modSqr_foot _ q.val _ (by decide)
    (planePass_foot (by decide) s t q w add)))

theorem peView_planeNext (k : Nat) : peView (planeNext s t q w add) k = peView (planePass s t q w add) k := by
  have hfoot : Foot 0x900 (planePass s t q w add) (planeNext s t q w add) :=
    endMicro_foot _ t q 1 (by decide) (modSqr_foot _ q.val _ (by decide) (Foot.refl _ _))
  exact peView_congr (hfoot.2 .pe (by decide)) (hfoot.2 .peMem (by decide)) (hfoot.2 .peTag (by decide)) k

theorem pe_planeNext (k : Nat) : pe (planeNext s t q w add) k = pe (planePass s t q w add) k := by
  have hfoot : Foot 0x900 (planePass s t q w add) (planeNext s t q w add) :=
    endMicro_foot _ t q 1 (by decide) (modSqr_foot _ q.val _ (by decide) (Foot.refl _ _))
  rw [pe, hfoot.2 .pe (by decide)]
  rfl

theorem planeNext_lane (hmap : mapOk s) {e : Elem} (he : e ∈ elems s (sqr s q.val).gw.width (ownTiles s t)) {j : Nat}
    (hj : j < (sqr s q.val).gw.width) : peView (planeNext s t q w add) (e.lane (sqr s q.val).gw.width j) =
      planeView s (sqr s q.val) w add (sqr s q.val).gw.width e j (peView s (e.lane (sqr s q.val).gw.width j)) :=
  (peView_planeNext _).trans ((planePass_views hmap t q w add).1 e he j hj)

theorem planeNext_outside (hmap : mapOk s) {k : Nat}
    (hk : ∀ e ∈ elems s (sqr s q.val).gw.width (ownTiles s t), ∀ j, j < (sqr s q.val).gw.width → k ≠ e.lane (sqr s q.val).gw.width j) :
    peView (planeNext s t q w add) k = peView s k ∧ pe (planeNext s t q w add) k = pe s k := by
  rw [peView_planeNext, pe_planeNext]
  exact (planePass_views hmap t q w add).2 k hk

end Next

/-! ### The fields of a lane after a PLANE -/

section After

variable {s : State} {x : Sequencer} {w : PlaneW} {add : Bool} {g : Nat} {e : Elem} {j : Nat} {v : PeView}

theorem planeView_c (hbad : planeBad w add = false) : (planeView s x w add g e j v).c =
    if active s g e = false then v.c else if w.dst = 6 then false
      else if add then (planeSum s x w g e).testBit g else if w.dst = 1 then planeR s x w add g e 0 else v.c := by
  have h1 : w.dst = 1 → add = false := fun hd => by
    exact (by simpa [planeBad, hd] using hbad : _ ∧ add = false).2
  rw [planeView, congrArg PeView.c resView_rest, dstView_c, carryView_c, planeCarry_out]
  by_cases hd : w.dst = 1
  · rw [h1 hd]
    rfl
  · rw [if_neg hd, if_neg hd]
    cases active s g e <;> cases add <;> rfl

theorem planeView_k : (planeView s x w add g e j v).k = if w.dst = 2 then planeR s x w add g e 0 else v.k := by
  rw [planeView, congrArg PeView.k resView_rest, dstView_k, congrArg PeView.k carryView_rest]

theorem planeView_x : (planeView s x w add g e j v).x = if w.dst = 3 then planeR s x w add g e j else v.x := by
  rw [planeView, congrArg PeView.x resView_rest, dstView_x, congrArg PeView.x carryView_rest]

theorem planeView_f : (planeView s x w add g e j v).f = if active s g e = true ∧ w.dst = 4 then planeR s x w add g e j
    else if active s g e = true ∧ w.dst = 6 then planeB s x w g e j else v.f := by
  rw [planeView, congrArg PeView.f resView_rest, dstView_f, congrArg PeView.f carryView_rest]

theorem planeView_p : (planeView s x w add g e j v).p = v.p := by
  rw [planeView, congrArg PeView.p resView_rest, congrArg PeView.p dstView_rest, congrArg PeView.p carryView_rest]

theorem planeView_bit (a : Fin 4096) : (planeView s x w add g e j v).bit a =
    if (w.dst = 0 ∨ w.dst = 6) ∧ active s g e = true ∧ a = planeDa s x w g e then planeR s x w add g e j && !reservedBit (planeDa s x w g e)
    else v.bit a := by
  rw [planeView, congrArg PeView.bit resView_rest, dstView_bit, congrArg PeView.bit carryView_rest]

theorem planeView_v : (planeView s x w add g e j v).v =
    if (add && active s g e) = true ∧ j = 0 then planeCarry s x w g e g ^^ planeCarry s x w g e (g - 1) else v.v := by
  rw [planeView, congrArg PeView.v resView_rest, congrArg PeView.v dstView_rest, carryView_v]

theorem planeView_res : (planeView s x w add g e j v).res =
    if w.res = 0 ∨ active s g e = false ∨ j ≠ 0 then v.res else newRes s x w add g e v.res := by
  rw [planeView, resView_res, congrArg PeView.res dstView_rest, congrArg PeView.res carryView_rest]

theorem planeView_weight2 : (planeView s x w add g e j v).weight2 =
    if w.res = 0 ∨ active s g e = false ∨ j ≠ 0 then v.weight2 else if g = 1 then !(pe s (e.lane g 0)).weight2 else v.weight2 := by
  rw [planeView, resView_weight2, congrArg PeView.weight2 dstView_rest, congrArg PeView.weight2 carryView_rest]

/-- The residues advance by the values of the lanes. -/
theorem toNat_newRes (old : BitVec 6) :
    let wt := if g = 1 ∧ (pe s (e.lane g 0)).weight2 = true then 2 else 1
    let after := fun (i : Nat) (f : Nat → Bool) =>
      ((newRes s x w add g e old).extractLsb' i 2).toNat = ((old.extractLsb' i 2).toNat + wt * laneSum g f) % 3
    after 4 (planeR s x w add g e) ∧ (w.res = 1 → after 0 (planeA s x w g e) ∧ after 2 (planeY s x w g e)) := by
  intro wt after
  refine ⟨?_, fun hres => ⟨?_, ?_⟩⟩
  · show ((newRes s x w add g e old).extractLsb' 4 2).toNat = _
    rw [newRes, (extract_three _ _ _).2.2, toNat_accRes, laneNat_eq_laneSum]
  · show ((newRes s x w add g e old).extractLsb' 0 2).toNat = _
    rw [newRes, (extract_three _ _ _).1, if_pos hres, toNat_accRes, laneNat_eq_laneSum]
  · show ((newRes s x w add g e old).extractLsb' 2 2).toNat = _
    rw [newRes, (extract_three _ _ _).2.1, if_pos hres, toNat_accRes, laneNat_eq_laneSum]

end After

end Sys2Proof.Machine
end

