-- ==== Sys2Proof/Proofs/NewsMoves.lean ====
section
/-! SUPPORT. NEWS: X moves one PE or one lane, and the culverts that it crosses (R45, R46, R47, R56, R161). -/

namespace Sys2Proof.Machine

/-! ### Marks of culvert groups -/

/-- The mark of a set of PEs. -/
def latchAll (s : State) (l : List Nat) : State := l.foldl (fun v k => setPe v k { pe v k with parityErr := true }) s

theorem pe_latchAll (l : List Nat) (s : State) (k : Nat) :
    pe (latchAll s l) k = { pe s k with parityErr := (pe s k).parityErr || decide (k ∈ l) } := by
  induction l generalizing s with
  | nil => simp [latchAll]
  | cons i l ih =>
    rw [latchAll, List.foldl_cons]
    refine (ih _).trans ?_
    by_cases h : k = i
    · subst h
      rw [pe_setPe_same]
      simp
    · rw [pe_setPe_ne _ _ h]
      simp [h]

theorem latchAll_foot {m : Nat} (hm : 0x10 ||| m = m) {z s : State} (h : Foot m z s) (l : List Nat) : Foot m z (latchAll s l) :=
  Foot.foldl h fun _ _ hu => setPe_foot _ _ _ hm hu

theorem culvertLatch_one (s : State) (d : Nat) (p : TileId) (i : Fin 8) : culvertLatch s d [(p, i)] = latchAll s (edgeGroup d p i) := by
  rw [culvertLatch, List.foldl_cons, List.foldl_nil, latchAll]

/-- A group of a row. -/
theorem mem_rowGroup (p : TileId) {r : Nat} (hr : r < 64) (i : Fin 8) (k : Nat) :
    k ∈ (List.range 8).map (fun a => peKey p r (8 * i.val + a)) ↔ k / 4096 = p.val ∧ k % 4096 / 64 = r ∧ k % 64 / 8 = i.val := by
  have hi := i.isLt
  simp only [List.mem_map, List.mem_range, peKey]
  constructor
  · rintro ⟨a, ha, rfl⟩
    omega
  · intro h
    exact ⟨k % 8, by omega, by omega⟩

/-- A group of a column. -/
theorem mem_columnGroup (p : TileId) {c : Nat} (hc : c < 64) (i : Fin 8) (k : Nat) :
    k ∈ (List.range 8).map (fun a => peKey p (8 * i.val + a) c) ↔ k / 4096 = p.val ∧ k % 64 = c ∧ k % 4096 / 512 = i.val := by
  have hi := i.isLt
  simp only [List.mem_map, List.mem_range, peKey]
  constructor
  · rintro ⟨a, ha, rfl⟩
    omega
  · intro h
    exact ⟨k / 64 % 8, by omega, by omega⟩

/-- Where the PEs stand that a culvert group feeds. -/
theorem mem_edgeGroup (dir : BitVec 2) (p : TileId) (i : Fin 8) (k : Nat) : k ∈ edgeGroup dir.toNat p i ↔ k / 4096 = p.val ∧
    (if dir = 0 then k % 4096 / 64 = 0 ∧ k % 64 / 8 = i.val else if dir = 1 then k % 64 = 0 ∧ k % 4096 / 512 = i.val
      else if dir = 2 then k % 4096 / 64 = 63 ∧ k % 64 / 8 = i.val else k % 64 = 63 ∧ k % 4096 / 512 = i.val) := by
  have cases4 : ∀ d : BitVec 2, d = 0 ∨ d = 1 ∨ d = 2 ∨ d = 3 := by decide
  rcases cases4 dir with h | h | h | h <;> rw [h]
  · exact mem_rowGroup p (by decide) i k
  · exact mem_columnGroup p (by decide) i k
  · exact mem_rowGroup p (by decide) i k
  · exact mem_columnGroup p (by decide) i k

/-! ### Samples of the links -/

/-- The sample of one tile's link without a mismatch. -/
def linkGood (u : State) (p : TileId) : State :=
  if (tile u p.val).linkErr then modTile u p.val fun x => { x with linkErr := false } else u

theorem linkGood_foot {m : Nat} (hm : 0x4 ||| m = m) {z u : State} (h : Foot m z u) (p : TileId) : Foot m z (linkGood u p) :=
  Foot.ite (modTile_foot u p.val _ hm h) h

theorem tile_linkGood (u : State) (p : TileId) (k : Nat) :
    { tile (linkGood u p) k with linkErr := false } = { tile u k with linkErr := false } := by
  unfold linkGood
  split
  · by_cases h : k = p.val
    · subst h
      rw [tile_modTile_same]
    · rw [tile_modTile_ne _ _ h]
  · rfl

theorem linkSample_nil_foot {m : Nat} (hm : 0x4 ||| m = m) {z u : State} (h : Foot m z u) (ps : List TileId) :
    Foot m z (linkSample u ps []) := Foot.foldl h fun _ p hv => linkGood_foot hm hv p

theorem tile_linkSample_nil (s : State) (ps : List TileId) (k : Nat) :
    tile (linkSample s ps []) k = { tile s k with linkErr := (tile (linkSample s ps []) k).linkErr } :=
  congrArg (fun y : Tile => { y with linkErr := (tile (linkSample s ps []) k).linkErr })
    (foldl_same (view := fun u => { tile u k with linkErr := false }) (fun p _ u => tile_linkGood u p k) s)

/-- Links without a mismatch, before and now, leave no trace. -/
theorem linkSample_clean {s : State} {ps bad : List TileId} (hbad : ∀ p ∈ ps, p ∉ bad) (hclean : ∀ p ∈ ps, (tile s p.val).linkErr = false) :
    linkSample s ps bad = s := by
  induction ps with
  | nil => rfl
  | cons p ps ih =>
    rw [linkSample, List.foldl_cons, if_neg (by simpa using hbad p List.mem_cons_self),
      if_neg (by simp [hclean p List.mem_cons_self])]
    exact ih (fun q hq => hbad q (List.mem_cons_of_mem _ hq)) fun q hq => hclean q (List.mem_cons_of_mem _ hq)

/-- The first mismatch of one link is noted. -/
theorem linkSample_one {s : State} {ps : List TileId} (hnd : ps.Nodup) {p : TileId} (hp : p ∈ ps)
    (hclean : ∀ p ∈ ps, (tile s p.val).linkErr = false) :
    linkSample s ps [p] = modTile s p.val fun x => { x with linkErr := true } := by
  induction ps with
  | nil => cases hp
  | cons a ps ih =>
    obtain ⟨hna, hnd⟩ := List.nodup_cons.mp hnd
    rw [linkSample, List.foldl_cons]
    by_cases h : a = p
    · subst h
      rw [if_pos (by simp), if_neg (by simp [hclean a List.mem_cons_self])]
      refine linkSample_clean (fun q hq => ?_) fun q hq => ?_
      · simpa using fun h : q = a => hna (h ▸ hq)
      · rw [tile_modTile_ne _ _ fun h => hna ((Fin.ext h : q = a) ▸ hq)]
        exact hclean q (List.mem_cons_of_mem _ hq)
    · rw [if_neg (by simpa using h), if_neg (by simp [hclean a List.mem_cons_self])]
      exact ih hnd ((List.mem_cons.mp hp).resolve_left fun h' => h h'.symm) fun q hq => hclean q (List.mem_cons_of_mem _ hq)

/-! ### The move by one PE -/

section Move

variable (s : State) (t : Tenant) (q : SeqId) (dir : BitVec 2)

/-- X of the PE that an element loads from, 0 beyond the array or a disabled culvert. -/
def incomingX (e : Elem) : Bool :=
  match elemAway s t 1 (newsFrom dir.toNat) 1 e with
  | some x => peX s (x.lane 1 0)
  | none => false

/-- The PEs after the move. -/
def newsPass : State :=
  (elems s 1 (ownTiles s t)).foldl (fun u e => setPeX u (e.lane 1 0) (incomingX s t dir e)) (inRoutine s q)

/-- The tiles that receive through a culvert. -/
def newsEdge : List TileId :=
  (ownTiles s t).filterMap fun n => if (joined s t (newsFrom dir.toNat) n).isSome then physOf s n else none

theorem mem_newsEdge {p : TileId} : p ∈ newsEdge s t dir ↔
    ∃ n ∈ ownTiles s t, (joined s t (newsFrom dir.toNat) n).isSome = true ∧ physOf s n = some p := by
  simp only [newsEdge, List.mem_filterMap]
  refine exists_congr fun n => and_congr_right fun _ => ?_
  split
  · next h => simp [h]
  · next h => simp [h]

theorem nodup_newsEdge (h : mapOk s) : (newsEdge s t dir).Nodup := by
  refine List.pairwise_filterMap.mpr (List.Pairwise.imp_of_mem (fun {m n} hm hn hne p hp p' hp' heq => ?_) (nodup_ownTiles s t))
  have place {n : Nat} {p : TileId} (hp : p ∈ if (joined s t (newsFrom dir.toNat) n).isSome then physOf s n else none) : physOf s n = some p := by
    split at hp
    · exact hp
    · cases hp
  exact hne (h.1 m n p (mem_ownTiles_lt hm) (mem_ownTiles_lt hn) (place hp) (heq ▸ place hp'))

theorem newsPass_foot {m : Nat} (hm : 0x110 ||| m = m) : Foot m s (newsPass s t q dir) :=
  Foot.foldl (modSqr_foot s q.val _ (Foot.sub (by decide) hm) (Foot.refl m s)) fun _ _ hu => setPeX_foot _ _ _ (Foot.sub (by decide) hm) hu

theorem sqr_newsPass (r : Nat) : sqr (newsPass s t q dir) r = sqr (inRoutine s q) r :=
  foldl_same (view := fun u => sqr u r) (fun e _ u => show sqr (setPeX u (e.lane 1 0) (incomingX s t dir e)) r = sqr u r from rfl)
    (inRoutine s q)

/-- Every PE of the tenant loads X, and shows the rest as before. -/
theorem peView_newsPass (h : mapOk s) {e : Elem} (he : e ∈ elems s 1 (ownTiles s t)) :
    peView (newsPass s t q dir) (e.lane 1 0) = { peView s (e.lane 1 0) with x := incomingX s t dir e } := by
  refine (foldl_slices (view := peView) (g := 1) (upd := fun e _ v => { v with x := incomingX s t dir e }) (fun u e j hj => ?_)
    (fun u e k hk => ?_) (slicesApart_elems h (by decide) t) (inRoutine s q)).1 e he 0 (by decide)
  · obtain rfl : j = 0 := by omega
    exact peView_setPeX_same u _ _
  · exact peView_setPeX_ne u _ (hk 0 (by decide))

/-- Only X of the tenant's PEs changes. -/
theorem pe_newsPass (k : Nat) : { pe (newsPass s t q dir) k with x := false } = { pe s k with x := false } := by
  refine foldl_same (view := fun u => { pe u k with x := false }) (fun e _ u => ?_) (inRoutine s q)
  by_cases h : k = e.lane 1 0
  · subst h
    rw [setPeX, pe_setPe_same]
  · rw [setPeX, pe_setPe_ne _ _ h]

theorem pe_newsPass_outside {k : Nat} (hk : ¬ownPe s t k) : pe (newsPass s t q dir) k = pe s k := by
  refine foldl_same (view := fun u => pe u k) (fun e he u => ?_) (inRoutine s q)
  exact pe_setPe_ne _ _ fun h => hk (h ▸ ownPe_lane (by decide) he (by decide))

/-- The state after the move with the culvert groups `bad` in error, before the links are sampled. -/
def newsMid (bad : List (TileId × Fin 8)) : State := endMicro (culvertLatch (newsPass s t q dir) dir.toNat bad) t q 1

def newsNext (bad : List (TileId × Fin 8)) : State := linkSample (newsMid s t q dir bad) (newsEdge s t dir) (bad.map Prod.fst)

/-- Marks and time are nothing that a PE shows. -/
theorem culvertLatch_views (u : State) (d : Nat) (bad : List (TileId × Fin 8)) (k : Nat) :
    peView (culvertLatch u d bad) k = peView u k := by
  refine foldl_same (view := fun v => peView v k) (fun b _ v => ?_) u
  have marks : Foot 0x10 v (latchAll v (edgeGroup d b.1 b.2)) := latchAll_foot (by decide) (Foot.refl _ v) _
  show peView (latchAll v (edgeGroup d b.1 b.2)) k = peView v k
  rw [peView_of_foot marks, pe_latchAll]
  rfl

theorem newsMid_foot {m : Nat} (hm : 0x910 ||| m = m) (bad : List (TileId × Fin 8)) : Foot m s (newsMid s t q dir bad) :=
  endMicro_foot _ t q 1 (Foot.sub (by decide) hm) (culvertLatch_foot _ _ bad (Foot.sub (by decide) hm)
    (newsPass_foot s t q dir (Foot.sub (by decide) hm)))

theorem newsMid_ends (h : microReady s q = some t) (bad : List (TileId × Fin 8)) :
    microEnds s (newsMid s t q dir bad) t q (sqr s q.val) 1 := by
  have hsqr (r : Nat) : sqr (culvertLatch (newsPass s t q dir) dir.toNat bad) r = sqr (inRoutine s q) r := by
    rw [← sqr_newsPass s t q dir, sqr, (culvertLatch_foot (newsPass s t q dir) dir.toNat bad (show 0x10 ||| 0x10 = 0x10 by decide)
      (Foot.refl _ _)).2 .seqs (by decide)]
    rfl
  refine endMicro_ends (run_of_microReady h) (culvertLatch_foot _ _ bad (by decide) (newsPass_foot s t q dir (by decide))) ?_ (fun r hr => ?_) 1
  · rw [hsqr, sqr_inRoutine]
  · rw [hsqr]
    exact sqr_setSqr_ne _ _ hr

theorem peView_newsMid (bad : List (TileId × Fin 8)) (k : Nat) : peView (newsMid s t q dir bad) k = peView (newsPass s t q dir) k := by
  have hfoot : Foot 0x900 (culvertLatch (newsPass s t q dir) dir.toNat bad) (newsMid s t q dir bad) :=
    endMicro_foot _ t q 1 (by decide) (Foot.refl _ _)
  rw [peView_congr (hfoot.2 .pe (by decide)) (hfoot.2 .peMem (by decide)) (hfoot.2 .peTag (by decide)), culvertLatch_views]

theorem pe_newsMid (bad : List (TileId × Fin 8)) (k : Nat) :
    pe (newsMid s t q dir bad) k = pe (culvertLatch (newsPass s t q dir) dir.toNat bad) k := by
  have hfoot : Foot 0x900 (culvertLatch (newsPass s t q dir) dir.toNat bad) (newsMid s t q dir bad) :=
    endMicro_foot _ t q 1 (by decide) (Foot.refl _ _)
  rw [pe, hfoot.2 .pe (by decide)]
  rfl

/-- The PEs of the tenant load X, and keep C. -/
theorem newsMid_moved (h : mapOk s) (bad : List (TileId × Fin 8)) {e : Elem} (he : e ∈ elems s 1 (ownTiles s t)) :
    (peView (newsMid s t q dir bad) (e.lane 1 0)).c = (pe s (e.lane 1 0)).c ∧
      (peView (newsMid s t q dir bad) (e.lane 1 0)).x = incomingX s t dir e := by
  rw [peView_newsMid, peView_newsPass s t q dir h he]
  exact ⟨rfl, rfl⟩

theorem tile_newsMid (bad : List (TileId × Fin 8)) (p : Nat) : tile (newsMid s t q dir bad) p = tile s p :=
  tile_of_tiles ((newsMid_foot s t q dir (show 0x910 ||| 0x910 = 0x910 by decide) bad).2 .tiles (by decide)) p

/-- Without a mismatch the links' marks are cleared. -/
theorem newsNext_good_foot {m : Nat} (hm : 0x4 ||| m = m) : Foot m (newsMid s t q dir []) (newsNext s t q dir []) :=
  linkSample_nil_foot hm (Foot.refl _ _) _

/-- The first mismatch at a tile marks its link. -/
theorem newsNext_bad (h : mapOk s) {p : TileId} (hp : p ∈ newsEdge s t dir) (hclean : ∀ p ∈ newsEdge s t dir, (tile s p.val).linkErr = false)
    (i : Fin 8) : newsNext s t q dir [(p, i)] = modTile (newsMid s t q dir [(p, i)]) p.val fun x => { x with linkErr := true } :=
  linkSample_one (nodup_newsEdge s t dir h) hp fun p' hp' => by
    rw [tile_newsMid]
    exact hclean p' hp'

end Move

/-- The side from which a move in each direction loads. -/
theorem newsFrom_eq (dir : BitVec 2) :
    (if dir = 0 then Dir.south else if dir = 1 then .west else if dir = 2 then .north else .east) = newsFrom dir.toNat := by
  decide +revert

theorem joined_inRoutine (s : State) (q : SeqId) (t : Tenant) (d : Dir) : joined (inRoutine s q) t d = joined s t d := rfl

theorem joinedN_inRoutine (s : State) (q : SeqId) (t : Tenant) (d : Dir) (k n : Nat) :
    joinedN (inRoutine s q) t d k n = joinedN s t d k n := by
  induction k generalizing n with
  | zero => rfl
  | succ k ih =>
    unfold joinedN
    rw [joined_inRoutine]
    cases joined s t d n with
    | none => rfl
    | some m => exact ih m

theorem elemAway_inRoutine (s : State) (q : SeqId) (t : Tenant) (g : Nat) (d : Dir) (k : Nat) (e : Elem) :
    elemAway (inRoutine s q) t g d k e = elemAway s t g d k e := by
  unfold elemAway
  simp only [joinedN_inRoutine]
  rfl

theorem exec_news {s : State} {t : Tenant} {q : SeqId} {dir : BitVec 2} (h : issues s t q (wordNews dir false 0)) (bad : List (TileId × Fin 8)) :
    exec (.news q dir false ⟨0, bad⟩) s = .next (newsNext s t q dir (bad.filter fun x => (newsEdge s t dir).contains x.1)) := by
  show execNews q dir false ⟨0, bad⟩ s = _
  unfold execNews
  rw [runMicro_issued h (by simp)]
  rw [if_neg (by simp)]
  simp only [elemAway_inRoutine, joined_inRoutine, elems_inRoutine, ownTiles_inRoutine]
  rfl

/-! ### The move by one lane -/

section Shift

variable (s : State) (t : Tenant) (q : SeqId) (east : Bool)

/-- X of lane `j` after the shift. -/
def shiftedX (g : Nat) (e : Elem) (j : Nat) : Bool :=
  if east then (if j = 0 then (pe s (e.lane g 0)).c else peX s (e.lane g (j - 1)))
  else if j = g - 1 then (pe s (e.lane g 0)).c else peX s (e.lane g (j + 1))

/-- The bit shifted out. -/
def shiftedOut (g : Nat) (e : Elem) : Bool := peX s (e.lane g (if east then g - 1 else 0))

def shiftView (g : Nat) (e : Elem) (j : Nat) (v : PeView) : PeView :=
  { v with x := shiftedX s east g e j, c := if active s g e then shiftedOut s east g e else v.c }

theorem laneShift_viewsAt (g : Nat) (e : Elem) (u : State) : ViewsAt g e (shiftView s east g e) u (laneShift s g east u e) := by
  have lanes : ViewsAt g e (fun j v => { v with x := shiftedX s east g e j }) u
      ((List.range g).foldl (fun z j => setPeX z (e.lane g j) (shiftedX s east g e j)) u) :=
    ViewsAt.lanes (fun v j => peView_setPeX_same v _ _) (fun v _ _ hk => ⟨peView_setPeX_ne v _ hk, pe_setPe_ne v _ hk⟩) u
  show ViewsAt g e _ u (if active s g e then _ else _)
  unfold shiftView
  split
  · exact lanes.trans (setC_viewsAt g e _ _)
  · exact lanes

/-- The PEs after the shift. -/
def shiftPass : State :=
  let g := (sqr s q.val).gw.width
  (elems s g (ownTiles s t)).foldl (laneShift s g east) (inRoutine s q)

theorem laneShift_inRoutine (g : Nat) : laneShift (inRoutine s q) g east = laneShift s g east := by
  funext u e
  unfold laneShift
  rfl

theorem shiftPass_foot {m : Nat} (hm : 0x110 ||| m = m) : Foot m s (shiftPass s t q east) :=
  Foot.foldl (modSqr_foot s q.val _ (Foot.sub (by decide) hm) (Foot.refl m s)) fun u e hu =>
    laneShift_foot s _ east u e (Foot.sub (by decide) hm) (Foot.refl m s) hu

theorem sqr_shiftPass (r : Nat) : sqr (shiftPass s t q east) r = sqr (inRoutine s q) r := by
  have hfoot : Foot 0x10 (inRoutine s q) (shiftPass s t q east) := by
    unfold shiftPass
    dsimp only
    rw [← laneShift_inRoutine s q]
    exact Foot.foldl (Foot.refl _ _) fun u e hu => laneShift_foot _ _ east u e (by decide) (Foot.refl _ _) hu
  rw [sqr, hfoot.2 .seqs (by decide)]
  rfl

theorem shiftPass_views (h : mapOk s) :
    let g := (sqr s q.val).gw.width
    (∀ e ∈ elems s g (ownTiles s t), ∀ j, j < g →
      peView (shiftPass s t q east) (e.lane g j) = shiftView s east g e j (peView s (e.lane g j))) ∧
    ∀ k, ¬ownPe s t k → pe (shiftPass s t q east) k = pe s k := by
  intro g
  obtain ⟨hdvd, hpos⟩ := width_dvd (sqr s q.val).gw
  have slice := laneShift_viewsAt s east g
  refine ⟨(foldl_slices (view := peView) (fun u e j hj => (slice e u).1 j hj) (fun u e k hk => ((slice e u).2 k hk).1)
    (slicesApart_elems h hdvd t) (inRoutine s q)).1, fun k hk => ?_⟩
  exact foldl_same (view := fun u => pe u k)
    (fun e he u => ((slice e u).2 k fun j hj h => hk (h ▸ ownPe_lane hdvd he hj)).2) (inRoutine s q)

end Shift

/-- The registers of a PE other than C and X. -/
def peNotCx (x : PE) : PE := { x with c := false, x := false }

theorem pe_setPeX_notCx (u : State) (i : Nat) (b : Bool) (k : Nat) : peNotCx (pe (setPeX u i b) k) = peNotCx (pe u k) := by
  by_cases h : k = i
  · subst h
    rw [setPeX, pe_setPe_same]
    rfl
  · rw [setPeX, pe_setPe_ne _ _ h]

theorem pe_setC_notCx (u : State) (g : Nat) (e : Elem) (b : Bool) (k : Nat) : peNotCx (pe (setC u g e b) k) = peNotCx (pe u k) := by
  refine foldl_same (view := fun u => peNotCx (pe u k)) (fun j _ v => ?_) u
  by_cases h : k = e.lane g j
  · subst h
    rw [pe_setPe_same]
    rfl
  · rw [pe_setPe_ne _ _ h]

theorem pe_shiftPass (s : State) (t : Tenant) (q : SeqId) (east : Bool) (k : Nat) :
    peNotCx (pe (shiftPass s t q east) k) = peNotCx (pe s k) := by
  refine foldl_same (view := fun u => peNotCx (pe u k)) (fun e _ u => ?_) (inRoutine s q)
  have lanes := foldl_same (view := fun u => peNotCx (pe u k)) (l := List.range (sqr s q.val).gw.width)
    (fun j _ v => pe_setPeX_notCx v (e.lane (sqr s q.val).gw.width j) (shiftedX s east (sqr s q.val).gw.width e j) k) u
  show peNotCx (pe (if active s _ e then setC _ _ e _ else _) k) = _
  split
  · exact (pe_setC_notCx _ _ _ _ k).trans lanes
  · exact lanes

theorem exec_news_lanes {s : State} {t : Tenant} {q : SeqId} {dir : BitVec 2} (h : issues s t q (wordNews dir true 0)) (hd : dir = 1 ∨ dir = 3)
    (hg : (sqr s q.val).gw.width ≠ 1) :
    exec (.news q dir true ⟨0, []⟩) s = .next (endMicro (shiftPass s t q (decide (dir = 1))) t q 1) := by
  have hwide : (sqr s q.val).gw ≠ .g1 := fun h => hg (by rw [h]; rfl)
  have hodd : dir.getLsbD 0 = true := by rcases hd with rfl | rfl <;> rfl
  show execNews q dir true ⟨0, []⟩ s = _
  unfold execNews
  rw [runMicro_issued h (by simp [hwide, hodd])]
  dsimp only
  rw [if_pos rfl, sqr_inRoutine, laneShift_inRoutine, elems_inRoutine, ownTiles_inRoutine]
  rfl

end Sys2Proof.Machine
end

