-- ==== Sys2Proof/Proofs/PlanesAndNews.lean ====
section
/-! SUPPORT. PLANE and NEWS against the statement about them, each in 1 ac. -/

namespace Sys2Proof.Machine

theorem exec_plane (s : State) (q : SeqId) (w : PlaneW) (add : Bool) :
    exec (if add then .planeAdd q w else .planeLog q w) s = .next (plane s q w add) := by
  cases add <;> rfl

/-- Settles O22: a PLANE leaves in each lane of a slice what `planeView` says, where the slices of a tenant do not meet because no tile
fills two positions, and its ADD is a ripple-carry adder; a NEWS loads X of each PE or lane once, and its culverts mark registers that
no PE shows. -/
theorem planesAndNews : Obligations.PlanesAndNews := by
  unfold Obligations.PlanesAndNews
  refine ⟨fun s t q w add hinv hissued hbad => ?_, ?_⟩
  · intro x g es on a b y num low sum r da toM
    obtain ⟨-, -, -, hmap⟩ := hinv
    obtain ⟨hdvd, hpos⟩ := width_dvd x.gw
    have lane {e : Elem} (he : e ∈ es) {j : Nat} (hj : j < g) :
        peView (planeNext s t q w add) (e.lane g j) = planeView s x w add g e j (peView s (e.lane g j)) := planeNext_lane hmap he hj
    have result {e : Elem} {j : Nat} (hj : j < g) : planeR s x w add g e j = r e j := planeR_eq s x w add g e hj
    refine ⟨planeNext s t q w add, ?_, planeNext_ends hissued.1, planeNext_sameBut, fun k hk => ?_, fun k p hp hno => ?_, fun e he => ⟨fun j hj => ?_, ?_, ?_⟩⟩
    · rw [exec_plane, plane_issued hissued hbad]
      rfl
    · exact (planeNext_outside hmap fun e he j hj h => hk (by rw [h]; exact ownPe_lane hdvd he hj)).2
    · show (peView (planeNext s t q w add) k).bit ⟨p, hp⟩ = (peView s k).bit ⟨p, hp⟩
      by_cases hl : ∃ e ∈ es, ∃ j, j < g ∧ k = e.lane g j
      · obtain ⟨e, he, j, hj, rfl⟩ := hl
        rw [lane he hj, planeView_bit, if_neg]
        rintro ⟨hd, hon, hda⟩
        exact hno ⟨hd, e, he, hon, congrArg Fin.val hda, j, hj, rfl⟩
      · rw [(planeNext_outside hmap fun e he j hj h => hl ⟨e, he, j, hj, h⟩).1]
    · refine ⟨fun hd hon => ?_, ?_, ?_, ?_, ?_, ?_, fun h => ?_, fun h => ?_⟩
      · show (peView (planeNext s t q w add) (e.lane g j)).bit (planeDa s x w g e) = _
        rw [lane he hj, planeView_bit, if_pos ⟨hd, hon, rfl⟩, result hj]
        rfl
      · rw [← peView_c, lane he hj, planeView_c hbad, result hpos]
        rfl
      · rw [← peView_k, lane he hj, planeView_k, result hpos]
        rfl
      · rw [← peView_x, lane he hj, planeView_x, result hj]
        rfl
      · rw [← peView_f, lane he hj, planeView_f, result hj]
        rfl
      · rw [← peView_p, lane he hj, planeView_p]
        rfl
      · rw [← peView_v, lane he hj, planeView_v, if_neg]
        · rfl
        · rintro ⟨hadd, h0⟩
          obtain ⟨ha, hon⟩ := Bool.and_eq_true_iff.mp hadd
          rcases h with h | h | h
          · exact h h0
          · rw [ha] at h
            cases h
          · exact absurd (hon.symm.trans h) (by decide)
      · rw [← peView_res, lane he hj, planeView_res, if_pos h]
        rfl
    · intro hadd hon
      rw [← peView_v, lane he hpos, planeView_v, if_pos ⟨Bool.and_eq_true_iff.mpr ⟨hadd, hon⟩, rfl⟩, planeCarry_out, planeCarry_last]
      rfl
    · intro hres hon k wt after
      have hnot : ¬(w.res = 0 ∨ active s g e = false ∨ 0 ≠ 0) := by
        rintro (h | h | h)
        · exact hres h
        · exact absurd (hon.symm.trans h) (by decide)
        · exact h rfl
      have hres' : peRes (planeNext s t q w add) (e.lane g 0) = newRes s x w add g e (peRes s (e.lane g 0)) := by
        rw [← peView_res, lane he hpos, planeView_res, if_neg hnot]
        rfl
      obtain ⟨h4, h02⟩ := toNat_newRes (s := s) (x := x) (w := w) (add := add) (g := g) (e := e) (peRes s (e.lane g 0))
      rw [← hres'] at h4 h02
      refine ⟨?_, h02, ?_⟩
      · show _ = (_ + _ * laneSum g (r e)) % 3
        rw [← laneSum_congr fun j hj => result hj]
        exact h4
      · rw [← peView_weight2, lane he hpos, planeView_weight2, if_neg hnot]
        rfl
  · intro s t q dir ls hinv hissued g from_ moved
    obtain ⟨-, -, -, hmap⟩ := hinv
    have hfrom : from_ = newsFrom dir.toNat := newsFrom_eq dir
    have loads (bad : List (TileId × Fin 8)) {u : State} (hpe : u.pe = (newsMid s t q dir bad).pe) (htag : u.peTag = (newsMid s t q dir bad).peTag)
        (hmem : u.peMem = (newsMid s t q dir bad).peMem) : moved u := by
      intro e he
      obtain ⟨hc, hx⟩ := newsMid_moved s t q dir hmap bad he
      rw [← peView_congr hpe hmem htag] at hc hx
      rw [hfrom]
      exact ⟨hc, hx⟩
    refine ⟨?_, ?_, ?_⟩
    · rintro rfl
      have links : Foot 0x4 (newsMid s t q dir []) (newsNext s t q dir []) := newsNext_good_foot s t q dir (by decide)
      have regs (k : Nat) : pe (newsNext s t q dir []) k = pe (newsPass s t q dir) k := by
        rw [pe, links.2 .pe (by decide)]
        exact pe_newsMid s t q dir [] k
      refine ⟨newsNext s t q dir [], exec_news hissued [], ?_, ?_, ?_, fun p => ?_, fun k => ?_, fun k hk => ?_⟩
      · exact microEnds_congr (links.2 .seqs (by decide)) (links.2 .tenants (by decide)) (newsMid_ends s t q dir hissued.1 [])
      · exact loads [] (links.2 .pe (by decide)) (links.2 .peTag (by decide)) (links.2 .peMem (by decide))
      · exact Foot.sameBut (linkSample_nil_foot (by decide) (newsMid_foot s t q dir (by decide) []) _)
      · rw [← tile_newsMid s t q dir []]
        exact tile_linkSample_nil _ _ p
      · rw [regs]
        exact congrArg (fun y : PE => { peRegs y with x := (pe (newsPass s t q dir) k).x }) (pe_newsPass s t q dir k)
      · exact (regs k).trans (pe_newsPass_outside s t q dir hk)
    · rintro rfl n p i hn hp hjoin hclean
      rw [hfrom] at hjoin
      have hedge : p ∈ newsEdge s t dir := (mem_newsEdge s t dir).mpr ⟨n, hn, hjoin, hp⟩
      have clean (p' : TileId) (hp' : p' ∈ newsEdge s t dir) : (tile s p'.val).linkErr = false := by
        obtain ⟨m, hm, -, hpm⟩ := (mem_newsEdge s t dir).mp hp'
        simpa only [hpm, Option.getD_some] using hclean m hm
      have hnext := newsNext_bad s t q dir hmap hedge clean i
      have links : Foot 0x4 (newsMid s t q dir [(p, i)]) (newsNext s t q dir [(p, i)]) := by
        rw [hnext]
        exact modTile_foot _ _ _ (by decide) (Foot.refl _ _)
      refine ⟨newsNext s t q dir [(p, i)], ?_, ?_, ?_, ?_, ?_, fun k => ?_⟩
      · rw [exec_news hissued, List.filter_cons_of_pos (by simpa using hedge), List.filter_nil]
      · exact microEnds_congr (links.2 .seqs (by decide)) (links.2 .tenants (by decide)) (newsMid_ends s t q dir hissued.1 _)
      · exact loads _ (links.2 .pe (by decide)) (links.2 .peTag (by decide)) (links.2 .peMem (by decide))
      · rw [hnext]
        exact Foot.sameBut (modTile_foot _ _ _ (by decide) (newsMid_foot s t q dir (by decide) _))
      · rw [hnext, tile_modTile_same]
      · rw [pe, links.2 .pe (by decide)]
        show (pe (newsMid s t q dir [(p, i)]) k).parityErr = _
        rw [pe_newsMid, culvertLatch_one, pe_latchAll]
        simp only [mem_edgeGroup]
        have kept := congrArg PE.parityErr (pe_newsPass s t q dir k)
        exact congrArg (· || _) kept
    · rintro rfl hdir hg
      have after : Foot 0x900 (shiftPass s t q (decide (dir = 1))) (endMicro (shiftPass s t q (decide (dir = 1))) t q 1) :=
        endMicro_foot _ t q 1 (by decide) (Foot.refl _ _)
      have regs (k : Nat) : pe (endMicro (shiftPass s t q (decide (dir = 1))) t q 1) k = pe (shiftPass s t q (decide (dir = 1))) k := by
        rw [pe, after.2 .pe (by decide)]
        rfl
      obtain ⟨lanes, outside⟩ := shiftPass_views s t q (decide (dir = 1)) hmap
      refine ⟨_, exec_news_lanes hissued hdir hg, ?_, ?_, fun k => ?_, fun k hk => (regs k).trans (outside k hk), fun e he j hj => ?_⟩
      · refine endMicro_ends (run_of_microReady hissued.1) (shiftPass_foot s t q _ (by decide)) ?_ (fun r hr => ?_) 1
        · rw [sqr_shiftPass, sqr_inRoutine]
        · rw [sqr_shiftPass]
          exact sqr_setSqr_ne _ _ hr
      · exact Foot.sameBut (endMicro_foot _ t q 1 (by decide) (shiftPass_foot s t q _ (by decide)))
      · rw [regs]
        have rest := pe_shiftPass s t q (decide (dir = 1)) k
        exact congrArg (fun y : PE => { peRegs y with c := (pe (shiftPass s t q (decide (dir = 1))) k).c, x := (pe (shiftPass s t q (decide (dir = 1))) k).x }) rest
      · have view := lanes e he j hj
        rw [← peView_congr (after.2 .pe (by decide)) (after.2 .peMem (by decide)) (after.2 .peTag (by decide))] at view
        have hc := congrArg PeView.c view
        have hx := congrArg PeView.x view
        simp only [shiftView, shiftedX, shiftedOut, decide_eq_true_eq] at hc hx
        exact ⟨hc, hx⟩

end Sys2Proof.Machine
end

