-- ==== Sys2Proof/Proofs/GorResults.lean ====
section
/-! SUPPORT. The GOR microword and what its results do when they are delivered (R48, R49, R51, R167). -/

namespace Sys2Proof.Machine

/-- An active slice with F set in a lane. -/
def flagAndK (s : State) (g : Nat) (e : Elem) : Bool := active s g e && (List.range g).any fun j => (pe s (e.lane g j)).f

theorem mem_elems_one {s : State} {g n : Nat} {e : Elem} (l : List Nat) (hn : n ∈ l) : e ∈ elems s g [n] ↔ e ∈ elems s g l ∧ e.lt = n := by
  rw [mem_elems, mem_elems, List.mem_singleton]
  constructor
  · rintro ⟨rfl, h⟩
    exact ⟨⟨hn, h⟩, rfl⟩
  · rintro ⟨⟨-, h⟩, rfl⟩
    exact ⟨rfl, h⟩

theorem tileOr_iff {s : State} {g n : Nat} {l : List Nat} (hn : n ∈ l) :
    tileOr s g n = true ↔ ∃ e ∈ elems s g l, e.lt = n ∧ flagAndK s g e = true := by
  unfold tileOr flagAndK
  rw [List.any_eq_true]
  simp only [mem_elems_one l hn, and_assoc]

theorem deviceOr_iff (s : State) (t : Tenant) (g : Nat) :
    deviceOr s t g = true ↔ ∃ e ∈ elems s g (ownTiles s t), flagAndK s g e = true := by
  unfold deviceOr
  rw [List.any_eq_true]
  constructor
  · rintro ⟨n, hn, h⟩
    obtain ⟨e, he, -, h⟩ := (tileOr_iff hn).mp h
    exact ⟨e, he, h⟩
  · rintro ⟨e, he, h⟩
    have hn := (mem_elems.mp he).1
    exact ⟨e.lt, hn, (tileOr_iff hn).mpr ⟨e, he, rfl, h⟩⟩

/-- One bit per tile of a list. -/
theorem getLsbD_tileBits (f : Nat → Bool) (l : List Nat) (v : BitVec 16) {n : Nat} (hn : n < 16) :
    (l.foldl (fun v m => if f m then v ||| (1#16 <<< m) else v) v).getLsbD n = (v.getLsbD n || (decide (n ∈ l) && f n)) := by
  induction l generalizing v with
  | nil => simp
  | cons m l ih =>
    rw [List.foldl_cons, ih]
    by_cases h : n = m
    · subst h
      cases f n <;> simp [hn]
    · have bit : (1#16 <<< m).getLsbD n = false := by
        rw [BitVec.getLsbD_shiftLeft, BitVec.getLsbD_one]
        rcases Nat.lt_or_gt_of_ne h with hlt | hgt
        · simp [hlt]
        · simp [Nat.sub_ne_zero_of_lt hgt]
      cases hf : f m <;> simp [h, bit]

theorem getLsbD_tileVec (s : State) (t : Tenant) (g : Nat) {n : Nat} (hn : n < 16) :
    (tileVec s t g).getLsbD n = true ↔ ∃ e ∈ elems s g (ownTiles s t), e.lt = n ∧ flagAndK s g e = true := by
  unfold tileVec
  rw [getLsbD_tileBits (tileOr s g) _ _ hn]
  rw [show (0 : BitVec 16).getLsbD n = false by simp, Bool.false_or, Bool.and_eq_true, decide_eq_true_eq]
  constructor
  · rintro ⟨hm, h⟩
    exact (tileOr_iff hm).mp h
  · intro h
    obtain ⟨e, he, rfl, -⟩ := id h
    have hm := (mem_elems.mp he).1
    exact ⟨hm, (tileOr_iff hm).mpr h⟩

/-- A GOR sends its two results on their way. -/
def gorSent (s : State) (t : Tenant) (g : Nat) (w : GorW) (x : Sequencer) : Sequencer :=
  { x with gv := if w.cg then 0 else x.gv, gors := x.gors ++ [⟨w.tag, w.tv, tileVec s t g, deviceOr s t g, false⟩] }

/-- The state after it. -/
def gorNext (s : State) (t : Tenant) (q : SeqId) (w : GorW) : State :=
  endMicro (modSqr (inRoutine s q) q.val (gorSent s t (sqr s q.val).gw.width w)) t q 1

theorem tileVec_inRoutine (s : State) (q : SeqId) (t : Tenant) (g : Nat) : tileVec (inRoutine s q) t g = tileVec s t g := rfl
theorem deviceOr_inRoutine (s : State) (q : SeqId) (t : Tenant) (g : Nat) : deviceOr (inRoutine s q) t g = deviceOr s t g := rfl

theorem exec_gor {s : State} {t : Tenant} {q : SeqId} {w : GorW} (h : issues s t q (wordGor w)) (hres : w.res = 0) :
    exec (.gor q w) s = .next (gorNext s t q w) := by
  show execGor q w s = _
  unfold execGor
  rw [runMicro_issued h (by simp [hres])]
  dsimp only
  rw [sqr_inRoutine, tileVec_inRoutine, deviceOr_inRoutine]
  rfl

theorem gor_ends {s : State} {t : Tenant} {q : SeqId} (w : GorW) (h : microReady s q = some t) :
    microEnds s (gorNext s t q w) t q (gorSent s t (sqr s q.val).gw.width w (sqr s q.val)) 1 := by
  have routine : Foot 0x170 s (inRoutine s q) := modSqr_foot s q.val _ (by decide) (Foot.refl _ s)
  refine endMicro_ends (run_of_microReady h) (modSqr_foot _ q.val _ (by decide) routine) ?_ (fun r hr => ?_) 1
  · rw [sqr_modSqr_same, sqr_inRoutine]
    rfl
  · exact (sqr_setSqr_ne _ _ hr).trans (sqr_setSqr_ne _ _ hr)

theorem gor_sameBut (s : State) (t : Tenant) (q : SeqId) (w : GorW) :
    sameBut [.seqs, .tenants] s (gorNext s t q w) :=
  Foot.sameBut (endMicro_foot _ t q 1 (by decide) (modSqr_foot _ q.val _ (by decide) (modSqr_foot s q.val _ (by decide) (Foot.refl _ s))))

/-! ### Deliveries -/

/-- What a delivery to the front of the line leaves of the links: the marks of those without a mismatch. -/
theorem sqr_linkGood (s : State) (ps : List TileId) (r : Nat) : sqr (linkSample s ps []) r = sqr s r := by
  rw [sqr, (linkSample_nil_foot (show 0x4 ||| 0x4 = 0x4 by decide) (Foot.refl _ s) ps).2 .seqs (by decide)]
  rfl

section Delivery

variable {s : State} {q : SeqId} {t : Tenant} {f : GorFlight} {r : List GorFlight}

/-- The state after a delivery that gives its sequencer the registers `g` of the old ones. -/
def delivered (s : State) (q : SeqId) (t : Tenant) (g : Sequencer → Sequencer) : State :=
  modSqr (linkSample s (physTiles s (ownTiles s t)) []) q.val g

theorem delivered_facts (g : Sequencer → Sequencer) : (∀ p, p ≠ q.val → sqr (delivered s q t g) p = sqr s p) ∧
    sameBut [.tiles, .seqs] s (delivered s q t g) ∧
    (∀ p, tile (delivered s q t g) p = { tile s p with linkErr := (tile (delivered s q t g) p).linkErr }) ∧
    sqr (delivered s q t g) q.val = g (sqr s q.val) := by
  refine ⟨fun p hp => (sqr_setSqr_ne _ _ hp).trans (sqr_linkGood s _ p), ?_, fun p => ?_, ?_⟩
  · exact Foot.sameBut (modSqr_foot _ q.val _ (by decide) (linkSample_nil_foot (by decide) (Foot.refl _ s) _))
  · exact tile_linkSample_nil s _ p
  · rw [delivered, sqr_modSqr_same, sqr_linkGood]

theorem exec_gorDevice (hb : (sqr s q.val).bound = some t) (hg : (sqr s q.val).gors = f :: r) :
    exec (.gorResultDelivery q true none) s = .next (delivered s q t fun y => { deliverGor y f with gors := r }) := by
  show execGorResultDelivery q true none s = _
  simp only [execGorResultDelivery, hg, hb, List.isEmpty_cons]
  rfl

theorem exec_gorVector (hb : (sqr s q.val).bound = some t) (hg : (sqr s q.val).gors = f :: r) (hf : f.vecDone = false) :
    exec (.gorResultDelivery q false none) s =
      .next (delivered s q t fun y => { y with gors := { f with vecDone := true } :: r, tvr := if f.tv then f.vec else y.tvr }) := by
  have hv : deliverVec (f :: r) = some (f, { f with vecDone := true } :: r) := by simp [deliverVec, hf]
  show execGorResultDelivery q false none s = _
  simp only [execGorResultDelivery, hg, hb, List.isEmpty_cons, hv]
  rfl

/-- The state when a result with a parity error has been discarded, with the machine check noted. -/
def gorFailed (s : State) (q : SeqId) (t : Tenant) : State :=
  linkSample (checkMark (modSqr s q.val fun y => { y with gors := y.gors.drop 1 })) (physTiles s (ownTiles s t)) []

theorem gorFailed_foot : Foot 0x800000104 s (gorFailed s q t) :=
  linkSample_nil_foot (by decide) (checkMark_foot _ (by decide) (modSqr_foot s q.val _ (by decide) (Foot.refl _ s))) _

/-- Where the tenant has no running order, there is none to recompute. -/
theorem exec_gorFailed (d : Bool) (hb : (sqr s q.val).bound = some t) (hg : (sqr s q.val).gors = f :: r) (hrun : runOrder s t = none) :
    exec (.gorResultDelivery q d (some none)) s = .next (takeMark (gorFailed s q t)) := by
  have idle : recompute (gorFailed s q t) t = gorFailed s q t := by
    have hrun' : runOrder (gorFailed s q t) t = none := by
      rw [runOrder, ten_of_tenants (gorFailed_foot.2 .tenants (by decide))]
      exact hrun
    unfold recompute
    rw [hrun']
  show execGorResultDelivery q d (some none) s = _
  unfold execGorResultDelivery
  dsimp only
  rw [hg, hb, if_neg (by simp)]
  refine congrArg (fun u => Host.Outcome.next (takeMark u)) ?_
  exact (if_neg Bool.false_ne_true).trans idle

/-- The machine check marks the tide where TIDE_FAULTS asks for it. -/
theorem gorFailed_obs (hdue : s.obs.due = none) (hbit : s.obs.tideFaults.getLsbD 1 = true) :
    ∃ c, (gorFailed s q t).obs = { s.obs with due := some (2, c) } := by
  let s1 := modSqr s q.val fun y => { y with gors := y.gors.drop 1 }
  refine ⟨(Config.freeWord (freshNum s1) 1).truncate 16, ?_⟩
  have links : (gorFailed s q t).obs = (checkMark s1).obs :=
    (linkSample_nil_foot (show 0x4 ||| 0x4 = 0x4 by decide) (Foot.refl _ (checkMark s1)) _).2 .obs (by decide)
  rw [links, checkMark, tideFault, if_pos (show s1.obs.tideFaults.getLsbD 1 = true from hbit), markDue,
    show s1.obs.due = none from hdue]
  rfl

theorem sqr_gorFailed (hg : (sqr s q.val).gors = f :: r) : sqr (gorFailed s q t) q.val = { sqr s q.val with gors := r } := by
  rw [gorFailed, sqr_linkGood, sqr, (checkMark_foot (modSqr s q.val _) (show 0x800000000 ||| 0x800000000 = 0x800000000 by decide)
    (Foot.refl _ _)).2 .seqs (by decide)]
  refine (sqr_modSqr_same s q.val _).trans ?_
  rw [hg]
  rfl

end Delivery

theorem foldl_captureRegion_obs (l : List Nat) (s : State) : (l.foldl captureRegion s).obs = s.obs :=
  foldl_same (view := State.obs) (fun k _ u => show (captureRegion u k).obs = u.obs from rfl) s

/-- A mark that is due is counted in a module that runs and sees none it could merge it with. -/
theorem tideCount_takeMark {s : State} {d : Nat × Half} (hdue : s.obs.due = some d) (hmode : s.start.mode = .running) (hseen : s.obs.tideSeen = false)
    (hsleep : s.clk.sleep ≠ .entered) : (takeMark s).obs.tideCount = s.obs.tideCount + 1 := by
  obtain ⟨src, code⟩ := d
  unfold takeMark
  rw [hdue]
  dsimp only
  rw [if_neg (by simp [hmode]), if_neg (by simp [hseen]), if_neg hsleep]
  simp only [bump, foldl_captureRegion_obs]
  rfl

end Sys2Proof.Machine
end

