-- ==== Sys2Proof/Proofs/ResidueChecks.lean ====
section
/-! SUPPORT. RESCHK: the residue relations, the clearing of the units and the OV flags (R57, R122, R170). -/

namespace Sys2Proof.Machine

/-! ### Units of lane 0 -/

/-- A step that changes lane 0 of its slice only. -/
structure LaneZero (g : Nat) (upd : Elem → PeView → PeView) (step : State → Elem → State) : Prop where
  own : ∀ u e, peView (step u e) (e.lane g 0) = upd e (peView u (e.lane g 0))
  others : ∀ u e k, k ≠ e.lane g 0 → peView (step u e) k = peView u k ∧ pe (step u e) k = pe u k

/-- The slices that are active. -/
def activeSlices (s : State) (t : Tenant) (g : Nat) : List Elem := (elems s g (ownTiles s t)).filter (active s g)

theorem LaneZero.pass {g : Nat} {upd : Elem → PeView → PeView} {step : State → Elem → State} (h : LaneZero g upd step) (hpos : 0 < g) {l : List Elem}
    (apart : SlicesApart g l) (u : State) : (∀ e ∈ l, peView (l.foldl step u) (e.lane g 0) = upd e (peView u (e.lane g 0))) ∧
      ∀ k, (∀ e ∈ l, k ≠ e.lane g 0) → peView (l.foldl step u) k = peView u k ∧ pe (l.foldl step u) k = pe u k := by
  have own : OwnPlaces peView (fun e k => k = e.lane g 0) (fun e _ => upd e) step :=
    ⟨fun u e _ hk => hk ▸ h.own u e, fun u e k hk => (h.others u e k hk).1⟩
  have lanes : l.Pairwise fun d e => ∀ k, k = d.lane g 0 → ¬k = e.lane g 0 :=
    apart.imp fun hne _ hd he => hne 0 0 hpos hpos (hd.symm.trans he)
  exact ⟨fun e he => own.foldl_inside lanes he rfl u, fun k hk => ⟨own.foldl_outside hk u,
    foldl_same (view := fun v => pe v k) (fun e he v => (h.others v e k (hk e he)).2) u⟩⟩

/-! ### The sticky overflow flag -/

theorem setSticky_OV (s : State) (k : Nat) : setSticky s k flagOV = setPeBit s k 3061 true := rfl

/-- The overflow that FL names. -/
def reschkOv (s : State) (w : ReschkW) (k : Nat) : Bool :=
  decide (w.fl = 1) && (pe s k).c || decide (w.fl = 2) && !(pe s k).c || decide (w.fl = 3) && (pe s k).v

theorem reschkFlag_eq (s : State) (w : ReschkW) (u : State) (k : Nat) :
    reschkFlag s w u k = if reschkOv s w k then setPeBit u k 3061 true else u := by
  have cases4 : ∀ d : BitVec 2, d = 0 ∨ d = 1 ∨ d = 2 ∨ d = 3 := by decide
  unfold reschkFlag reschkOv
  rw [setSticky_OV]
  rcases cases4 w.fl with h | h | h | h <;> simp [h]

/-- OV of a PE after a RESCHK. -/
def flagView (s : State) (w : ReschkW) (k : Nat) (v : PeView) : PeView :=
  { v with bit := fun a => if a = 3061 ∧ reschkOv s w k = true then true else v.bit a }

theorem peView_reschkFlag_same (s : State) (w : ReschkW) (u : State) (k : Nat) :
    peView (reschkFlag s w u k) k = flagView s w k (peView u k) := by
  rw [reschkFlag_eq]
  unfold flagView
  split
  · next h =>
    refine (peView_setPeBit_same u k 3061 true).trans ?_
    simp [h, reservedBit]
  · next h => simp [h]

theorem reschkFlag_ne (s : State) (w : ReschkW) (u : State) {k i : Nat} (h : i ≠ k) :
    peView (reschkFlag s w u k) i = peView u i ∧ pe (reschkFlag s w u k) i = pe u i := by
  rw [reschkFlag_eq]
  split
  · exact ⟨peView_setPeBit_ne u 3061 true h, pe_setPeBit_ne u _ _ h⟩
  · exact ⟨rfl, rfl⟩

theorem pe_reschkFlag (s : State) (w : ReschkW) (u : State) (k i : Nat) :
    peNoParity (pe (reschkFlag s w u k) i) = peNoParity (pe u i) := by
  rw [reschkFlag_eq]
  split
  · exact pe_setPeBit u k 3061 true i
  · rfl

/-! ### The relations -/

/-- The relation of the residues of a PE. -/
def residueOk (s : State) (w : ReschkW) (prod : Bool) (k : Nat) : Bool :=
  let two := fun (i : Nat) => ((peRes s k).extractLsb' i 2).toNat
  if prod then decide (two 4 % 3 = two 0 * two 2 % 3)
  else decide ((two 4 + (pe s k).c.toNat * (if w.k2 then 2 else 1)) % 3 = (two 0 + two 2) % 3)

theorem reschkSlice_eq (s : State) (w : ReschkW) (prod : Bool) (g : Nat) (u : State) (e : Elem) :
    reschkSlice s w prod g u e = reschkFlag s w (if residueOk s w prod (e.lane g 0) then u
      else setPe u (e.lane g 0) { pe u (e.lane g 0) with residueErr := true }) (e.lane g 0) := rfl

def checkView (s : State) (w : ReschkW) (prod : Bool) (g : Nat) (e : Elem) (v : PeView) : PeView :=
  flagView s w (e.lane g 0) { v with residueErr := v.residueErr || !residueOk s w prod (e.lane g 0) }

theorem laneZero_check (s : State) (w : ReschkW) (prod : Bool) (g : Nat) :
    LaneZero g (checkView s w prod g) (reschkSlice s w prod g) := by
  refine ⟨fun u e => ?_, fun u e k hk => ?_⟩
  · rw [reschkSlice_eq, peView_reschkFlag_same, checkView]
    congr 1
    cases residueOk s w prod (e.lane g 0) with
    | true => simp
    | false =>
      rw [if_neg (by decide), peView_setPe_same, Bool.not_false, Bool.or_true]
      rfl
  · rw [reschkSlice_eq, (reschkFlag_ne s w _ hk).1, (reschkFlag_ne s w _ hk).2]
    split
    · exact ⟨rfl, rfl⟩
    · exact ⟨peView_setPe_ne u _ hk, pe_setPe_ne u _ hk⟩

/-- A check touches the residue latch and the parity latch only. -/
theorem pe_reschkSlice (s : State) (w : ReschkW) (prod : Bool) (g : Nat) (u : State) (e : Elem) (k : Nat) :
    { peNoParity (pe (reschkSlice s w prod g u e) k) with residueErr := false } = { peNoParity (pe u k) with residueErr := false } := by
  rw [reschkSlice_eq, pe_reschkFlag]
  split
  · rfl
  · by_cases h : k = e.lane g 0
    · subst h
      rw [pe_setPe_same]
      rfl
    · rw [pe_setPe_ne _ _ h]

/-! ### The clearing -/

/-- The clearing of one slice's residue unit. -/
def clearSlice (s : State) (w : ReschkW) (g : Nat) (u : State) (e : Elem) : State :=
  let k := e.lane g 0
  reschkFlag s w (setPeRes (setPe u k { pe u k with weight2 := false }) k 0) k

def clearView (s : State) (w : ReschkW) (g : Nat) (e : Elem) (v : PeView) : PeView :=
  flagView s w (e.lane g 0) { v with res := 0, weight2 := false }

theorem laneZero_clear (s : State) (w : ReschkW) (g : Nat) : LaneZero g (clearView s w g) (clearSlice s w g) := by
  refine ⟨fun u e => ?_, fun u e k hk => ?_⟩
  · rw [clearSlice, peView_reschkFlag_same, peView_setPeRes_same, peView_setPe_same]
    rfl
  · rw [clearSlice, (reschkFlag_ne s w _ hk).1, (reschkFlag_ne s w _ hk).2, peView_setPeRes_ne _ _ hk, peView_setPe_ne _ _ hk, setPeRes,
      pe_setPe_ne _ _ hk, pe_setPe_ne _ _ hk]
    exact ⟨rfl, rfl⟩

/-- The registers of a PE other than its residue unit and its parity latch. -/
def peNoUnit (x : PE) : PE := { x with ra := 0, rb := 0, rr := 0, weight2 := false, parityErr := false }

theorem pe_setPe_noUnit (u : State) (i : Nat) {x : PE} (h : peNoUnit x = peNoUnit (pe u i)) (k : Nat) :
    peNoUnit (pe (setPe u i x) k) = peNoUnit (pe u k) := by
  by_cases hk : k = i
  · subst hk
    rw [pe_setPe_same, h]
  · rw [pe_setPe_ne _ _ hk]

theorem pe_clearSlice (s : State) (w : ReschkW) (g : Nat) (u : State) (e : Elem) (k : Nat) :
    peNoUnit (pe (clearSlice s w g u e) k) = peNoUnit (pe u k) := by
  have flag := congrArg peNoUnit (pe_reschkFlag s w (setPeRes (setPe u (e.lane g 0) { pe u (e.lane g 0) with weight2 := false }) (e.lane g 0) 0)
    (e.lane g 0) k)
  refine flag.trans ?_
  refine (pe_setPe_noUnit _ (e.lane g 0) ?_ k).trans (pe_setPe_noUnit u (e.lane g 0) ?_ k) <;> rfl

/-! ### The whole microword -/

/-- A pass over the active slices of the tenant, and the end of the microword. -/
def activePass (s : State) (t : Tenant) (q : SeqId) (step : State → Elem → State) : State :=
  endMicro ((activeSlices s t (sqr s q.val).gw.width).foldl step (inRoutine s q)) t q 1

section Pass

variable {s : State} {t : Tenant} {q : SeqId} {step : State → Elem → State}

theorem activePass_foot {m : Nat} (hm : 0x970 ||| m = m) (hstep : ∀ u e, Foot m s u → Foot m s (step u e)) : Foot m s (activePass s t q step) :=
  endMicro_foot _ t q 1 (Foot.sub (by decide) hm)
    (Foot.foldl (modSqr_foot s q.val _ (Foot.sub (by decide) hm) (Foot.refl m s)) fun u e hu => hstep u e hu)

theorem activePass_ends (h : microReady s q = some t) (hfoot : ∀ u e, Foot 0x70 (inRoutine s q) u → Foot 0x70 (inRoutine s q) (step u e))
    (hstep : ∀ u e, Foot 0x170 s u → Foot 0x170 s (step u e)) : microEnds s (activePass s t q step) t q (sqr s q.val) 1 := by
  have kept : Foot 0x70 (inRoutine s q) ((activeSlices s t (sqr s q.val).gw.width).foldl step (inRoutine s q)) :=
    Foot.foldl (Foot.refl _ _) fun u e hu => hfoot u e hu
  have hsqr (r : Nat) : sqr ((activeSlices s t (sqr s q.val).gw.width).foldl step (inRoutine s q)) r = sqr (inRoutine s q) r := by
    rw [sqr, kept.2 .seqs (by decide)]
    rfl
  refine endMicro_ends (run_of_microReady h) (Foot.foldl (modSqr_foot s q.val _ (by decide) (Foot.refl _ s)) fun u e hu => hstep u e hu) ?_
    (fun r hr => ?_) 1
  · exact (hsqr q.val).trans (sqr_inRoutine s q)
  · exact (hsqr r).trans (sqr_setSqr_ne _ _ hr)

theorem activePass_pe (k : Nat) : pe (activePass s t q step) k =
      pe ((activeSlices s t (sqr s q.val).gw.width).foldl step (inRoutine s q)) k ∧
    peView (activePass s t q step) k = peView ((activeSlices s t (sqr s q.val).gw.width).foldl step (inRoutine s q)) k := by
  have after : Foot 0x900 ((activeSlices s t (sqr s q.val).gw.width).foldl step (inRoutine s q)) (activePass s t q step) :=
    endMicro_foot _ t q 1 (by decide) (Foot.refl _ _)
  refine ⟨?_, peView_congr (after.2 .pe (by decide)) (after.2 .peMem (by decide)) (after.2 .peTag (by decide)) k⟩
  rw [pe, after.2 .pe (by decide)]
  rfl

/-- What a pass that changes lane 0 of each active slice leaves. -/
theorem activePass_views (hmap : mapOk s) {upd : Elem → PeView → PeView} (hstep : LaneZero (sqr s q.val).gw.width upd step) :
    let g := (sqr s q.val).gw.width
    (∀ e ∈ activeSlices s t g, peView (activePass s t q step) (e.lane g 0) = upd e (peView s (e.lane g 0))) ∧
      ∀ k, (∀ e ∈ activeSlices s t g, k ≠ e.lane g 0) →
        peView (activePass s t q step) k = peView s k ∧ pe (activePass s t q step) k = pe s k := by
  intro g
  obtain ⟨hdvd, hpos⟩ := width_dvd (sqr s q.val).gw
  obtain ⟨own, others⟩ := hstep.pass hpos ((slicesApart_elems hmap hdvd t).filter (active s g)) (inRoutine s q)
  refine ⟨fun e he => (activePass_pe _).2.trans (own e he), fun k hk => ?_⟩
  obtain ⟨hv, hp⟩ := others k hk
  exact ⟨(activePass_pe k).2.trans hv, (activePass_pe k).1.trans hp⟩

end Pass

theorem reschkSlice_inRoutine (s : State) (q : SeqId) (w : ReschkW) (prod : Bool) (g : Nat) :
    reschkSlice (inRoutine s q) w prod g = reschkSlice s w prod g := by
  funext u e
  rw [reschkSlice_eq, reschkSlice_eq]
  rfl

theorem exec_reschk {s : State} {t : Tenant} {q : SeqId} {w : ReschkW} (prod : Bool) (h : issues s t q (wordReschk w (if prod then 1 else 0)))
    (hres : w.res = 0) : exec (if prod then .reschkProd q w else .reschkSum q w) s =
      .next (activePass s t q (reschkSlice s w prod (sqr s q.val).gw.width)) := by
  have next : reschk s q w prod = activePass s t q (reschkSlice s w prod (sqr s q.val).gw.width) := by
    unfold reschk
    rw [runMicro_issued h (by simp [hres])]
    dsimp only
    rw [sqr_inRoutine, reschkSlice_inRoutine, elems_inRoutine, ownTiles_inRoutine]
    rfl
  cases prod <;> exact congrArg Host.Outcome.next next

theorem exec_reschkClear {s : State} {t : Tenant} {q : SeqId} {w : ReschkW} (h : issues s t q (wordReschk w 2)) (hres : w.res = 0) :
    exec (.reschkClear q w) s = .next (activePass s t q (clearSlice s w (sqr s q.val).gw.width)) := by
  show execReschkClear q w s = _
  unfold execReschkClear
  rw [runMicro_issued h (by simp [hres])]
  dsimp only
  rw [sqr_inRoutine, elems_inRoutine, ownTiles_inRoutine]
  rfl

theorem foot_reschkFlag {m : Nat} (hm : 0x70 ||| m = m) {z u : State} (h : Foot m z u) (s : State) (w : ReschkW) (k : Nat) :
    Foot m z (reschkFlag s w u k) := by
  rw [reschkFlag_eq]
  exact Foot.ite (setPeBit_foot _ _ _ _ hm h) h

theorem foot_reschkSlice {m : Nat} (hm : 0x70 ||| m = m) {z u : State} (h : Foot m z u) (s : State) (w : ReschkW) (prod : Bool) (g : Nat) (e : Elem) :
    Foot m z (reschkSlice s w prod g u e) := by
  rw [reschkSlice_eq]
  exact foot_reschkFlag hm (Foot.ite h (setPe_foot _ _ _ (Foot.sub (by decide) hm) h)) s w _

theorem clearSlice_foot {m : Nat} (hm : 0x70 ||| m = m) {z u : State} (h : Foot m z u) (s : State) (w : ReschkW) (g : Nat) (e : Elem) :
    Foot m z (clearSlice s w g u e) :=
  foot_reschkFlag hm (setPeRes_foot _ _ _ (Foot.sub (by decide) hm) (setPe_foot _ _ _ (Foot.sub (by decide) hm) h)) s w _

/-! ### What a RESCHK leaves -/

section Leaves

variable {s : State} {t : Tenant} {q : SeqId} {w : ReschkW}

/-- The end of a pass whose steps write PEs and plane bits only. -/
theorem activePass_leaves (h : microReady s q = some t) {step : State → Elem → State}
    (hfoot : ∀ {m : Nat} {z u : State}, 0x70 ||| m = m → ∀ e, Foot m z u → Foot m z (step u e)) :
    microEnds s (activePass s t q step) t q (sqr s q.val) 1 ∧ sameBut [.pe, .peMem, .peBad, .seqs, .tenants] s (activePass s t q step) :=
  ⟨activePass_ends h (fun _ e hu => hfoot (by decide) e hu) (fun _ e hu => hfoot (by decide) e hu),
    Foot.sameBut (activePass_foot (by decide) fun _ e hu => hfoot (by decide) e hu)⟩

/-- OV of the active slices, and every other plane bit. -/
theorem activePass_flags (hmap : mapOk s) {upd : Elem → PeView → PeView} {step : State → Elem → State}
    (hstep : LaneZero (sqr s q.val).gw.width upd step)
    (hbit : ∀ e v, (upd e v).bit = (flagView s w (e.lane (sqr s q.val).gw.width 0) v).bit) :
    let g := (sqr s q.val).gw.width
    let u := activePass s t q step
    (∀ e ∈ activeSlices s t g, peBit u (e.lane g 0) 3061 = (peBit s (e.lane g 0) 3061 || reschkOv s w (e.lane g 0))) ∧
      ∀ k a, a < 4096 → (a ≠ 3061 ∨ ∀ e ∈ activeSlices s t g, k ≠ e.lane g 0) → peBit u k a = peBit s k a := by
  intro g u
  obtain ⟨own, others⟩ := activePass_views (t := t) hmap hstep
  have bit {e : Elem} (he : e ∈ activeSlices s t g) (a : Fin 4096) : peBit u (e.lane g 0) a =
      if a = 3061 ∧ reschkOv s w (e.lane g 0) = true then true else peBit s (e.lane g 0) a := by
    rw [← peView_bit, own e he, hbit]
    rfl
  refine ⟨fun e he => (bit he 3061).trans ?_, fun k a ha h => ?_⟩
  · cases reschkOv s w (e.lane g 0) <;> simp
  · by_cases hk : ∃ e ∈ activeSlices s t g, k = e.lane g 0
    · obtain ⟨e, he, rfl⟩ := hk
      refine (bit he ⟨a, ha⟩).trans (if_neg fun hov => ?_)
      rcases h with h | h
      · exact h (congrArg Fin.val hov.1)
      · exact h e he rfl
    · have hv := (others k fun e he h => hk ⟨e, he, h⟩).1
      exact congrFun (congrArg PeView.bit hv) ⟨a, ha⟩

/-- The residue latches after a check, and the registers it leaves. -/
theorem reschk_latches (hmap : mapOk s) (prod : Bool) :
    let g := (sqr s q.val).gw.width
    let u := activePass s t q (reschkSlice s w prod g)
    (∀ e ∈ activeSlices s t g, (pe u (e.lane g 0)).residueErr = ((pe s (e.lane g 0)).residueErr || !residueOk s w prod (e.lane g 0))) ∧
      ∀ k, pe u k = { pe s k with residueErr := (pe u k).residueErr, parityErr := (pe u k).parityErr } ∧
        ((∀ e ∈ activeSlices s t g, k ≠ e.lane g 0) → pe u k = pe s k) := by
  intro g u
  obtain ⟨own, others⟩ := activePass_views (t := t) hmap (laneZero_check s w prod g)
  refine ⟨fun e he => congrArg PeView.residueErr (own e he), fun k => ⟨?_, fun hk => (others k hk).2⟩⟩
  have rest := foldl_same (view := fun v => { peNoParity (pe v k) with residueErr := false })
    (fun e (_ : e ∈ activeSlices s t g) v => pe_reschkSlice s w prod g v e k) (inRoutine s q)
  rw [← (activePass_pe (s := s) (t := t) (q := q) (step := reschkSlice s w prod g) k).1] at rest
  exact congrArg (fun y : PE => { y with residueErr := (pe u k).residueErr, parityErr := (pe u k).parityErr }) rest

/-- The units after a clearing, and the registers it leaves. -/
theorem clear_units (hmap : mapOk s) :
    let g := (sqr s q.val).gw.width
    let u := activePass s t q (clearSlice s w g)
    (∀ e ∈ activeSlices s t g, peRes u (e.lane g 0) = 0 ∧ (pe u (e.lane g 0)).weight2 = false) ∧
      ∀ k, ((∀ e ∈ activeSlices s t g, k ≠ e.lane g 0) → pe u k = pe s k) ∧ pe u k = { pe s k with
        ra := (pe u k).ra, rb := (pe u k).rb, rr := (pe u k).rr, weight2 := (pe u k).weight2, parityErr := (pe u k).parityErr } := by
  intro g u
  obtain ⟨own, others⟩ := activePass_views (t := t) hmap (laneZero_clear s w g)
  refine ⟨fun e he => ⟨congrArg PeView.res (own e he), congrArg PeView.weight2 (own e he)⟩, fun k => ⟨fun hk => (others k hk).2, ?_⟩⟩
  have rest := foldl_same (view := fun v => peNoUnit (pe v k))
    (fun e (_ : e ∈ activeSlices s t g) v => pe_clearSlice s w g v e k) (inRoutine s q)
  rw [← (activePass_pe (s := s) (t := t) (q := q) (step := clearSlice s w g) k).1] at rest
  exact congrArg (fun y : PE => { y with
    ra := (pe u k).ra, rb := (pe u k).rb, rr := (pe u k).rr, weight2 := (pe u k).weight2, parityErr := (pe u k).parityErr }) rest

end Leaves

end Sys2Proof.Machine
end

