-- ==== Sys2Proof/Proofs/TrapEntry.lean ====
section
/-! SUPPORT. The entry of a vectored trap whose vector leads to a handler (R174, R176). -/

namespace Sys2Proof.Machine

/-! ### Vectors read without a failure -/

/-- What a read from the program area and its mirror looks at is the same in two states. -/
structure SameProgram (s u : State) : Prop where
  mem : u.mem = s.mem
  spBad : u.spBad = s.spBad
  sp : u.sp = s.sp
  mc : u.mc = s.mc
  spFill : u.spFill = s.spFill

theorem Foot.sameProgram {m : Nat} {s u : State} (h : Foot m s u) (hmem : m.testBit Comp.mem.bit = false) (hbad : m.testBit Comp.spBad.bit = false)
    (hsp : m.testBit Comp.sp.bit = false) (hmc : m.testBit Comp.mc.bit = false) (hfill : m.testBit Comp.spFill.bit = false) : SameProgram s u :=
  ⟨h.2 .mem hmem, h.2 .spBad hbad, h.2 .sp hsp, h.2 .mc hmc, h.2 .spFill hfill⟩

theorem SameProgram.memSt {s u : State} (h : SameProgram s u) (b : Nat) : Machine.memSt u b = Machine.memSt s b := by
  rw [Machine.memSt, h.mem]
  rfl

theorem SameProgram.spBadAt {s u : State} (h : SameProgram s u) (a n : Nat) : Machine.spBadAt u a n = Machine.spBadAt s a n := by
  rw [Machine.spBadAt, h.spBad]
  rfl

theorem SameProgram.spRead {s u : State} (h : SameProgram s u) (a n : Nat) : Machine.spRead u a n = Machine.spRead s a n := by
  simp only [Machine.spRead, spByte, spBase, h.sp, h.mc, h.spFill]

/-- A failed read is logged. -/
theorem logNewest_readFailed (s : State) (xm : Bool) (a : Nat) (role : Byte) :
    (readFailed s xm a role).obs.logNewest = s.obs.logNewest + 1 := rfl

theorem readFailed_ne (s : State) (xm : Bool) (a : Nat) (role : Byte) {u : State} (hu : u.obs = (readFailed s xm a role).obs) : u ≠ s := by
  intro h
  have := congrArg (fun v : State => v.obs.logNewest) h
  rw [show u.obs.logNewest = s.obs.logNewest + 1 by rw [hu, logNewest_readFailed]] at this
  bv_omega

/-- A read that changes nothing has met no failure, so that it gives the same word wherever the program area is the same. -/
theorem readCopied_same {s u : State} (h : SameProgram s u) {a m ra rm v : Nat} (hs : readCopied s a m ra rm = (s, some v)) :
    readCopied u a m ra rm = (u, some v) := by
  unfold readCopied at hs ⊢
  dsimp only at hs ⊢
  simp only [h.memSt, h.spBadAt, h.spRead]
  split at hs
  · next hgood =>
    rw [if_pos hgood]
    rw [(Prod.mk.inj hs).2]
  · next hgood =>
    rw [if_neg hgood]
    split at hs
    · next hmirror =>
      rw [if_pos hmirror]
      by_cases hup : decide ((memSt s (a / bankBytes)).service = .inService) = true
      · rw [if_pos hup, if_pos hup] at hs
        have repair : Foot 0x30A000 (readFailed s false a (roleByte s ra))
            (repaired (spWrite (readFailed s false a (roleByte s ra)) a (spRead s m 8)) false a) :=
          repaired_foot _ _ _ (by decide) (spWrite_foot _ _ _ (by decide) (Foot.refl _ _))
        exact absurd (Prod.mk.inj hs).1 (readFailed_ne s false a (roleByte s ra) (repair.2 .obs (by decide)))
      · rw [if_neg hup, if_neg hup]
        exact Prod.ext rfl (Prod.mk.inj hs).2
    · cases (Prod.mk.inj hs).2

/-- A vector that leads to a handler does so wherever the program area is the same. -/
theorem trapVector_same {s u : State} (h : SameProgram s u) {t : Tenant} (hown : (ten u t).own = (ten s t).own) {c v : Nat}
    (hs : trapVector s t c = (s, some v)) : trapVector u t c = (u, some v) := by
  unfold trapVector at hs ⊢
  rw [hown]
  cases ho : (ten s t).own with
  | none =>
    rw [ho] at hs
    exact Prod.ext rfl (Prod.mk.inj hs).2
  | some r =>
    rw [ho] at hs
    unfold fetchProg at hs ⊢
    dsimp only at hs ⊢
    split at hs
    · next e m he hm =>
      obtain ⟨hst, hval⟩ := Prod.mk.inj hs
      obtain ⟨n, hn, rfl⟩ := Option.map_eq_some_iff.mp hval
      rw [readCopied_same h (Prod.ext hst hn)]
      rfl
    · cases (Prod.mk.inj hs).2

theorem badTarget_same {s u : State} {t : Tenant} (hown : (ten u t).own = (ten s t).own) (a : Nat) : badTarget u t a = badTarget s t a := by
  unfold badTarget
  rw [hown]

/-! ### The frame -/

theorem slice_zero (p r : Bytes) {n : Nat} (h : p.length = n) : slice (p ++ r) 0 n = p := by
  rw [slice, List.drop_zero, ← h, List.take_left]

theorem slice_append (p r : Bytes) (off n : Nat) (h : p.length ≤ off) : slice (p ++ r) off n = slice r (off - p.length) n := by
  rw [slice, slice, List.drop_append, List.drop_eq_nil_of_le h, List.nil_append]

/-- The little-endian number that stands at an offset. -/
theorem leAt_leBytes (p r : Bytes) {off n : Nat} (h : p.length = off) (v : Nat) : leAt (p ++ (leBytes n v ++ r)) off n = v % 256 ^ n := by
  rw [leAt, slice_append p _ off n (Nat.le_of_eq h), h, Nat.sub_self, slice_zero _ _ (length_leBytes n v), ofLe_leBytes]

/-- The bytes of a frame, cut before and after its PC, resume PC and µPC. -/
theorem frameBytes_eq (x : Sequencer) (cause pc detail resume upc cursor : Nat) : ∃ r, frameBytes x cause pc detail resume upc cursor =
    leBytes 4 (0x02000000 + cause) ++ (leBytes 4 pc ++ (leBytes 4 detail ++ (leBytes 4 resume ++ (leBytes 8 x.il.toNat ++
      (leBytes 2 upc ++ r))))) ∧ r.length = 98 := by
  refine ⟨_, by unfold frameBytes; simp only [List.append_assoc]; rfl, ?_⟩
  simp [length_leBytes]

theorem length_frameBytes (x : Sequencer) (cause pc detail resume upc cursor : Nat) :
    (frameBytes x cause pc detail resume upc cursor).length = 0x7C := by
  obtain ⟨r, hr, hlen⟩ := frameBytes_eq x cause pc detail resume upc cursor
  rw [hr]
  simp [length_leBytes, hlen]

/-- What a frame says of its cause, its PC, its resume PC and its µPC. -/
theorem frameBytes_reads (x : Sequencer) {cause pc resume upc : Nat} (detail cursor : Nat) (hcause : cause < 2 ^ 8) (hpc : pc < 256 ^ 4)
    (hresume : resume < 256 ^ 4) (hupc : upc < 256 ^ 2) :
    let fr := frameBytes x cause pc detail resume upc cursor
    leAt fr 0 1 = cause ∧ leAt fr 4 4 = pc ∧ leAt fr 12 4 = resume ∧ leAt fr 0x18 2 = upc := by
  intro fr
  obtain ⟨r, hr, -⟩ := frameBytes_eq x cause pc detail resume upc cursor
  have len := length_leBytes
  refine ⟨?_, ?_, ?_, ?_⟩
  · show leAt (frameBytes x cause pc detail resume upc cursor) 0 1 = cause
    rw [hr]
    show (BitVec.ofNat 8 (0x02000000 + cause)).toNat + 256 * 0 = cause
    rw [BitVec.toNat_ofNat]
    omega
  · show leAt (frameBytes x cause pc detail resume upc cursor) 4 4 = pc
    rw [hr, leAt_leBytes _ _ (len 4 _), Nat.mod_eq_of_lt hpc]
  · show leAt (frameBytes x cause pc detail resume upc cursor) 12 4 = resume
    rw [hr, ← List.append_assoc, ← List.append_assoc, leAt_leBytes _ _ (by simp [len]), Nat.mod_eq_of_lt hresume]
  · show leAt (frameBytes x cause pc detail resume upc cursor) 0x18 2 = upc
    rw [hr, ← List.append_assoc, ← List.append_assoc, ← List.append_assoc, ← List.append_assoc, leAt_leBytes _ _ (by simp [len]),
      Nat.mod_eq_of_lt hupc]

/-! ### What the frame reads as in XMEM -/

theorem xmBase_of {s u : State} (h : u.xmFill = s.xmFill) (a : Nat) : xmBase u a = xmBase s a := by
  simp only [xmBase, h]

theorem xmRead_of {s u : State} (hx : u.xm = s.xm) (hf : u.xmFill = s.xmFill) (a n : Nat) : xmRead u a n = xmRead s a n := by
  simp only [xmRead, xmByte, hx, xmBase_of hf]

/-- XMEM reads back what has been written. -/
theorem xmRead_xmWrite (s : State) (a : Nat) (d : Bytes) : xmRead (xmWrite s a d) a d.length = d := by
  have hfill : (xmWrite s a d).xmFill = s.xmFill := (xmWrite_foot s a d (show 0x214000 ||| 0x214000 = 0x214000 by decide) (Foot.refl _ s)).2 .xmFill (by decide)
  have hxm : (xmWrite s a d).xm = SMap.writeN 0 s.xm a (d.mapIdx fun i b => b ^^^ xmBase s (a + i)) := rfl
  refine List.ext_getElem (by simp [xmRead]) fun i hi hd => ?_
  have hlen : i < (d.mapIdx fun i b => b ^^^ xmBase s (a + i)).length := by simpa using hd
  simp only [xmRead, List.getElem_map, List.getElem_range, xmByte, xmBase_of hfill, hxm, SMap.get_writeN_in a _ i hlen, List.getElem_mapIdx,
    BitVec.xor_assoc, BitVec.xor_self, BitVec.xor_zero]

/-! ### The entry -/

/-- The PEs of a tenant, by number. -/
def ownPes (s : State) (t : Tenant) : List Nat :=
  (physTiles s (ownTiles s t)).flatMap fun p => (List.range 4096).map fun i => p.val * 4096 + i

theorem mem_ownPes {s : State} {t : Tenant} {k : Nat} (h : ownPe s t k) : k ∈ ownPes s t := by
  obtain ⟨p, hp, hk⟩ := h
  exact List.mem_flatMap.mpr ⟨p, hp, List.mem_map.mpr ⟨k % 4096, List.mem_range.mpr (Nat.mod_lt _ (by decide)), by omega⟩⟩

/-- Every PE listed becomes active, with C 0. -/
theorem pe_activate (l : List Nat) (s : State) {k : Nat} (hk : k ∈ l) :
    (pe (l.foldl (fun u k => setPe u k { pe u k with k := true, c := false }) s) k).k = true ∧
      (pe (l.foldl (fun u k => setPe u k { pe u k with k := true, c := false }) s) k).c = false := by
  induction l using List.reverseRecOn with
  | nil => cases hk
  | append_singleton l i ih =>
    rw [List.foldl_append, List.foldl_cons, List.foldl_nil]
    by_cases h : k = i
    · subst h
      rw [pe_setPe_same]
      exact ⟨rfl, rfl⟩
    · rw [pe_setPe_ne _ _ h]
      exact ih ((List.mem_append.mp hk).resolve_right (by simpa using h))

section Entry

variable (s : State) (t : Tenant) (q : SeqId) (cause detail pc resume upc : Nat)

/-- The save slots are written once every GOR result has been delivered. -/
def trapSaved : State := (ownPes s t).foldl saveSlot (modSqr s q.val deliverAllGors)

/-- The frame is written. -/
def trapFramed : State :=
  let u := trapSaved s t q
  let x := sqr u q.val
  let ma0 := (SMap.get MicroAddr.initial x.ma 0).addr
  xmWrite u (trapFrame u t.val) (frameBytes x cause pc detail resume upc (ma0 - (x.il.extractLsb' 27 12)).toNat)

/-- Every PE is active. -/
def trapActive (u : State) : State := (ownPes s t).foldl (fun u k => setPe u k { pe u k with k := true, c := false }) u

/-- A sequencer at the first word of a handler. -/
def atHandler (v : Nat) (x : Sequencer) : Sequencer :=
  { x with gw := .g1, bl := 0, tl := true, ws := none, wsBack := none, midRoutine := false, loop := none, pc := BitVec.ofNat 24 v }

/-- Every PE is active, and the sequencer stands at the handler. -/
def trapStarted (v : Nat) (u : State) : State :=
  addTime (modTen (modSqr (trapActive s t u) q.val (atHandler v)) t fun x => { x with trapCount := satInc x.trapCount }) t 44

theorem trapActive_foot {m : Nat} (hm : 0x10 ||| m = m) (u : State) : Foot m u (trapActive s t u) :=
  Foot.foldl (Foot.refl m u) fun _ _ hw => setPe_foot _ _ _ hm hw

theorem sqr_trapStarted (v : Nat) (u : State) : sqr (trapStarted s t q v u) q.val = atHandler v (sqr u q.val) := by
  have after : Foot 0x800 (modSqr (trapActive s t u) q.val (atHandler v)) (trapStarted s t q v u) :=
    addTime_foot _ t 44 (by decide) (modTen_foot _ t _ (by decide) (Foot.refl _ _))
  have before : (trapActive s t u).seqs = u.seqs := (trapActive_foot s t (show 0x10 ||| 0x10 = 0x10 by decide) u).2 .seqs (by decide)
  rw [sqr, after.2 .seqs (by decide)]
  refine (sqr_modSqr_same _ _ _).trans ?_
  rw [sqr, before]
  rfl

theorem pe_trapStarted (v : Nat) (u : State) {k : Nat} (hk : ownPe s t k) :
    (pe (trapStarted s t q v u) k).k = true ∧ (pe (trapStarted s t q v u) k).c = false := by
  have after : Foot 0x900 (trapActive s t u) (trapStarted s t q v u) :=
    addTime_foot _ t 44 (by decide) (modTen_foot _ t _ (by decide) (modSqr_foot _ q.val _ (by decide) (Foot.refl _ _)))
  rw [pe, after.2 .pe (by decide)]
  exact pe_activate (ownPes s t) u (mem_ownPes hk)

/-- What follows the read of the vector. -/
def trapVectored (vec : State × Option Nat) : State :=
  let s7 := trapStarted s t q (vec.2.getD 0) vec.1
  match vec.2 with
  | none => abortOrders s7 t ((runOrder s7 t).toList.map Order.seq) 0x09
  | some v => if badTarget s7 t v then doubleTrap s7 t 5 v else s7

theorem enterTrap_vectored : enterTrap s t q cause detail pc resume upc =
    trapVectored s t q (trapVector (trapFramed s t q cause detail pc resume upc) t cause) := rfl

theorem ten_trapStarted (v : Nat) (u : State) : ten (trapStarted s t q v u) t =
    { ten u t with orders := (ten (trapStarted s t q v u) t).orders, trapCount := satInc (ten u t).trapCount } := by
  let s5 := modSqr (trapActive s t u) q.val (atHandler v)
  let s6 := modTen s5 t fun x => { x with trapCount := satInc x.trapCount }
  have hpes : s5.tenants = u.tenants := (modSqr_foot _ q.val _ (show 0x100 ||| 0x110 = 0x110 by decide)
    (trapActive_foot s t (by decide) u)).2 .tenants (by decide)
  have hcount : ten s6 t = { ten u t with trapCount := satInc (ten u t).trapCount } := by
    rw [ten_modTen_same, ten_of_tenants hpes]
  have htime := addTime_own s6 t 44
  rw [hcount] at htime
  exact htime

theorem trapSaved_foot {m : Nat} (hm : 0x170 ||| m = m) : Foot m s (trapSaved s t q) :=
  Foot.foldl (modSqr_foot s q.val _ (Foot.sub (by decide) hm) (Foot.refl m s)) fun u k hu => saveSlot_foot u k (Foot.sub (by decide) hm) hu

theorem trapFramed_foot {m : Nat} (hm : 0x214170 ||| m = m) : Foot m s (trapFramed s t q cause detail pc resume upc) :=
  xmWrite_foot _ _ _ (Foot.sub (by decide) hm) (trapSaved_foot s t q (Foot.sub (by decide) hm))

theorem trapStarted_foot {m : Nat} (hm : 0x910 ||| m = m) (v : Nat) (u : State) : Foot m u (trapStarted s t q v u) :=
  addTime_foot _ t 44 (Foot.sub (by decide) hm) (modTen_foot _ t _ (Foot.sub (by decide) hm) (modSqr_foot _ q.val _ (Foot.sub (by decide) hm)
    (trapActive_foot s t (Foot.sub (by decide) hm) u)))

variable {s t q cause detail pc resume upc}

/-- A trap whose vector leads to a handler in the program area is entered by these steps. -/
theorem enterTrap_eq {v : Nat} (h : handlerAt s t cause v) :
    enterTrap s t q cause detail pc resume upc = trapStarted s t q v (trapFramed s t q cause detail pc resume upc) := by
  obtain ⟨hvec, hbad⟩ := h
  have framed : Foot 0x214170 s (trapFramed s t q cause detail pc resume upc) := trapFramed_foot s t q cause detail pc resume upc (by decide)
  have hten : (trapFramed s t q cause detail pc resume upc).tenants = s.tenants := framed.2 .tenants (by decide)
  have vec := trapVector_same (t := t) (framed.sameProgram (by decide) (by decide) (by decide) (by decide) (by decide))
    (by rw [ten_of_tenants hten]) hvec
  have target : badTarget (trapStarted s t q v (trapFramed s t q cause detail pc resume upc)) t v = false := by
    rw [badTarget_same (s := s) (by rw [ten_trapStarted, ten_of_tenants hten]), hbad]
  rw [enterTrap_vectored, vec]
  exact if_neg fun h => Bool.false_ne_true (target.symm.trans h)

/-- The state after an entry: what the trap's handler finds. -/
theorem trapEntered_enterTrap {v : Nat} (h : handlerAt s t cause v) (hcause : cause < 2 ^ 8) (hpc : pc < 256 ^ 4) (hresume : resume < 256 ^ 4)
    (hupc : upc < 256 ^ 2) :
    trapEntered s (enterTrap s t q cause detail pc resume upc) t q cause v pc resume ∧
      leAt (xmRead (enterTrap s t q cause detail pc resume upc)
        (trapFrame (enterTrap s t q cause detail pc resume upc) t.val) 0x7C) 0x18 2 = upc := by
  rw [enterTrap_eq h]
  let w := trapFramed s t q cause detail pc resume upc
  let u := trapStarted s t q v w
  have saved : (trapSaved s t q).tenants = s.tenants := (trapSaved_foot s t q (show 0x170 ||| 0x170 = 0x170 by decide)).2 .tenants (by decide)
  have framed : w.tenants = s.tenants :=
    (trapFramed_foot s t q cause detail pc resume upc (show 0x214170 ||| 0x214170 = 0x214170 by decide)).2 .tenants (by decide)
  have started : Foot 0x910 w u := trapStarted_foot s t q (by decide) v w
  have hten : ten u t = { ten s t with orders := (ten u t).orders, trapCount := satInc (ten s t).trapCount } := by
    have := ten_trapStarted s t q v w
    rwa [ten_of_tenants framed] at this
  have hframe : trapFrame u t.val = trapFrame (trapSaved s t q) t.val := by
    have ht : (Fin.ofNat 4 t.val : Tenant) = t := Fin.ext (Nat.mod_eq_of_lt t.isLt)
    simp only [trapFrame]
    rw [ht, hten, ten_of_tenants saved]
  let x := sqr (trapSaved s t q) q.val
  let fr := frameBytes x cause pc detail resume upc ((SMap.get MicroAddr.initial x.ma 0).addr - (x.il.extractLsb' 27 12)).toNat
  have hread : xmRead u (trapFrame u t.val) 0x7C = fr := by
    rw [hframe, xmRead_of (started.2 .xm (by decide)) (started.2 .xmFill (by decide)), ← length_frameBytes x cause pc detail resume upc
      ((SMap.get MicroAddr.initial x.ma 0).addr - (x.il.extractLsb' 27 12)).toNat]
    exact xmRead_xmWrite _ _ _
  obtain ⟨r0, r4, r12, r18⟩ := frameBytes_reads x detail
    ((SMap.get MicroAddr.initial x.ma 0).addr - (x.il.extractLsb' 27 12)).toNat hcause hpc hresume hupc
  have hsqr : sqr u q.val = atHandler v (sqr w q.val) := sqr_trapStarted s t q v w
  refine ⟨⟨?_, ?_, ?_, ?_, ?_, ?_, ?_, fun k hk => ?_⟩, ?_⟩
  · show (sqr u q.val).tl = true
    rw [hsqr]
    rfl
  · show (sqr u q.val).gw = .g1
    rw [hsqr]
    rfl
  · show (sqr u q.val).pc = _
    rw [hsqr]
    rfl
  · show (ten u t).trapCount = _
    rw [hten]
  · show leAt (xmRead u (trapFrame u t.val) 0x7C) 0 1 = cause
    rw [hread, r0]
  · show leAt (xmRead u (trapFrame u t.val) 0x7C) 4 4 = pc
    rw [hread, r4]
  · show leAt (xmRead u (trapFrame u t.val) 0x7C) 12 4 = resume
    rw [hread, r12]
  · exact pe_trapStarted s t q v w hk
  · show leAt (xmRead u (trapFrame u t.val) 0x7C) 0x18 2 = upc
    rw [hread, r18]

end Entry

end Sys2Proof.Machine
end

