-- ==== Sys2Proof/Proofs/TrapChecks.lean ====
section
/-! SUPPORT. TRAPCHK, the instruction boundary at which no trap waits, and the flag ORs (R135, R141, R169). -/

namespace Sys2Proof.Machine

/-! ### A trap raised by a microword -/

section Raise

variable {s : State} {t : Tenant} {q : SeqId}

/-- A microword's state an ac later. -/
def microLater (s : State) (t : Tenant) (q : SeqId) : State := addTime (inRoutine s q) t 1

theorem microLater_foot {m : Nat} (hm : 0x900 ||| m = m) : Foot m s (microLater s t q) :=
  addTime_foot _ t 1 (Foot.sub (by decide) hm) (modSqr_foot s q.val _ (Foot.sub (by decide) hm) (Foot.refl m s))

theorem ten_microLater : ten (microLater s t q) t = { ten s t with orders := (ten (microLater s t q) t).orders } :=
  addTime_own (inRoutine s q) t 1

theorem sqr_microLater : sqr (microLater s t q) q.val = setMid true (sqr s q.val) := by
  have after : Foot 0x800 (inRoutine s q) (microLater s t q) := addTime_foot _ t 1 (by decide) (Foot.refl _ _)
  rw [sqr, after.2 .seqs (by decide)]
  exact sqr_inRoutine s q

theorem handlerAt_microLater {c v : Nat} (h : handlerAt s t c v) : handlerAt (microLater s t q) t c v := by
  have later : Foot 0x900 s (microLater s t q) := microLater_foot (by decide)
  have hown : (ten (microLater s t q) t).own = (ten s t).own := by rw [ten_microLater]
  exact ⟨trapVector_same (later.sameProgram (by decide) (by decide) (by decide) (by decide) (by decide)) hown h.1,
    (badTarget_same hown v).trans h.2⟩

theorem ownPe_microLater {k : Nat} (h : ownPe s t k) : ownPe (microLater s t q) t k := by
  have later : Foot 0x900 s (microLater s t q) := microLater_foot (by decide)
  have hown : ownTiles (microLater s t q) t = ownTiles s t := by
    unfold ownTiles
    rw [ten_microLater]
  have hphys : physOf (microLater s t q) = physOf s := funext fun n => by rw [physOf, later.2 .map (by decide)]; rfl
  unfold ownPe physTiles at *
  rwa [hown, hphys]

/-- A trap that a microword raises at program level is entered, with no µPC. -/
theorem trapEntered_microLater {c v d resume : Nat} (htl : (sqr s q.val).tl = false) (h : handlerAt s t c v) (hc : c < 2 ^ 8)
    (hresume : resume < 256 ^ 4) :
    let u := raiseTrap (microLater s t q) t q c d (sqr s q.val).pc.toNat resume noUpc
    trapEntered s u t q c v (sqr s q.val).pc.toNat resume ∧ leAt (xmRead u (trapFrame u t.val) 0x7C) 0x18 2 = 0xFFFF := by
  intro u
  have hpc : (sqr s q.val).pc.toNat < 256 ^ 4 := Nat.lt_trans (sqr s q.val).pc.isLt (by decide)
  have hlevel : (sqr (microLater s t q) q.val).tl = false := by rw [sqr_microLater]; exact htl
  have hu : u = enterTrap (microLater s t q) t q c d (sqr s q.val).pc.toNat resume noUpc := if_neg (by rw [hlevel]; decide)
  obtain ⟨⟨htl', hgw, hpc', hcount, hcause, hat, hres, hpes⟩, hupc⟩ := trapEntered_enterTrap (q := q) (detail := d) (upc := noUpc)
    (handlerAt_microLater (q := q) h) hc hpc hresume (by decide)
  rw [hu]
  refine ⟨⟨htl', hgw, hpc', ?_, hcause, hat, hres, fun k hk => hpes k (ownPe_microLater hk)⟩, hupc⟩
  rw [hcount, ten_microLater]

end Raise

/-- Whether the condition of a TRAPCHK holds. -/
def trapHit (w : TrapW) (x : Sequencer) : Bool :=
  match w.mode.toNat with
  | 0 => true
  | 1 => x.z
  | _ => x.gv.getLsbD w.bit.toNat

section Chk

variable {s : State} {t : Tenant} {q : SeqId} {w : TrapW}

theorem exec_trapchkRaise (h : issues s t q (wordTrapchk w)) (hres : w.res = 0) (hmode : w.mode ≠ 3)
    (hc : ¬(8 ≤ w.cause.toNat ∧ w.cause.toNat < 16)) :
    (trapHit w (sqr s q.val) = false → exec (.trapchkRaise q w) s = .next (endMicro (inRoutine s q) t q 1)) ∧
    (trapHit w (sqr s q.val) = true → ∃ d, exec (.trapchkRaise q w) s = .next (raiseTrap (microLater s t q) t q w.cause.toNat d
      (sqr s q.val).pc.toNat (chkResume (sqr s q.val) w.cause.toNat) noUpc)) := by
  have hexec : exec (.trapchkRaise q w) s = execTrapchkRaise q w s := rfl
  rw [hexec, execTrapchkRaise, if_neg hmode, runMicro_issued h (by simp [hres, hc])]
  dsimp only
  rw [sqr_inRoutine]
  constructor
  · intro hhit
    exact congrArg Host.Outcome.next (if_neg fun hit => Bool.false_ne_true (hhit.symm.trans hit))
  · intro hhit
    exact ⟨_, congrArg Host.Outcome.next (if_pos hhit)⟩

end Chk

theorem inRoutine_ends {s : State} {t : Tenant} {q : SeqId} (h : microReady s q = some t) :
    microEnds s (endMicro (inRoutine s q) t q 1) t q (sqr s q.val) 1 :=
  endMicro_ends (run_of_microReady h) (modSqr_foot s q.val _ (by decide) (Foot.refl _ s)) (sqr_inRoutine s q)
    (fun _ hr => sqr_setSqr_ne _ _ hr) 1

/-! ### A boundary at which no trap waits -/

theorem pendingCtx_of_ctxs {s u : State} (h : u.ctxs = s.ctxs) (t : Tenant) : pendingCtx u t = pendingCtx s t := by
  simp only [pendingCtx, heldCtx, ctx, h]
  rfl

theorem pendingCtx_none {s : State} {t : Tenant} (h : trapWaits s t = false) : pendingCtx s t = none := by
  rw [trapWaits, Bool.or_eq_false_iff] at h
  exact Option.isSome_eq_false_iff.mp h.1 |> Option.isNone_iff_eq_none.mp

theorem claimFault_none {s : State} {t : Tenant} (h : trapWaits s t = false) : claimFault s t = none := by
  rw [trapWaits, Bool.or_eq_false_iff] at h
  exact Option.isSome_eq_false_iff.mp h.2 |> Option.isNone_iff_eq_none.mp

theorem bindTrap_idle {s : State} {t : Tenant} {q : SeqId} (h : claimFault s t = none) : bindTrap s t q = s := by
  unfold bindTrap
  dsimp only
  rw [h]
  exact ite_self s

/-- At trap level no trap is taken at a boundary, and none where none waits. -/
theorem boundary_idle {s : State} {t : Tenant} {q : SeqId} (h : (sqr s q.val).tl = true ∨ pendingCtx s t = none ∧ claimFault s t = none) :
    boundary s t q = s := by
  unfold boundary
  dsimp only
  rcases h with h | ⟨hp, hc⟩
  · rw [h]
    rfl
  · rw [hp]
    split
    · rfl
    · exact bindTrap_idle hc

/-! ### The next word leaves the trap level -/

theorem startPass_tl (x : Sequencer) (l : Loop) : (startPass x l).tl = x.tl := by
  unfold startPass
  dsimp only
  split_ifs <;> rfl

theorem nextWord_tl (x : Sequencer) : (nextWord x).tl = x.tl := by
  unfold nextWord
  dsimp only
  split
  · rfl
  · split_ifs
    all_goals first | rfl | exact startPass_tl _ _

theorem tickScan_tl (n : Nat) (x : Sequencer) : (tickScan n x).tl = x.tl := by
  unfold tickScan
  split
  · split <;> rfl
  · rfl

/-! ### TRAPCHK at the boundary (R169) -/

/-- The state at the boundary after a TRAPCHK. -/
def boundaryNext (s : State) (t : Tenant) (q : SeqId) : State := modSqr (endMicro (inRoutine s q) t q 1) q.val (setMid false)

section Boundary

variable {s : State} {t : Tenant} {q : SeqId}

theorem sqr_boundaryNext (h : microReady s q = some t) : sqr (boundaryNext s t q) q.val = setMid false (nextWord (tickScan 1 (sqr s q.val))) := by
  rw [boundaryNext, sqr_modSqr_same, (inRoutine_ends h).1]
  rfl

theorem boundaryNext_foot {m : Nat} (hm : 0x900 ||| m = m) : Foot m s (boundaryNext s t q) :=
  modSqr_foot _ q.val _ (Foot.sub (by decide) hm) (endMicro_foot _ t q 1 hm (modSqr_foot s q.val _ (Foot.sub (by decide) hm) (Foot.refl m s)))

theorem boundaryNext_runs (h : microReady s q = some t) : microRuns s (boundaryNext s t q) t q 1 := by
  obtain ⟨-, hsqr, htime, hten, hown⟩ := inRoutine_ends h
  exact ⟨fun r hr => (sqr_setSqr_ne _ _ hr).trans (hsqr r hr), htime, hten, hown⟩

/-- Time does not make a claim's fault due. -/
theorem claimFault_of_time {u : State} {n : Nat} (h : timeRuns s u t n) : claimFault u t = claimFault s t := by
  unfold claimFault
  rw [h]
  cases runOrder s t with
  | none => rfl
  | some o => simp only [Option.map_some, Option.bind_some]

theorem exec_trapchkBoundary {w : TrapW} (h : issues s t q (wordTrapchk w)) (hres : w.res = 0) (hmode : w.mode = 3)
    (hidle : (sqr s q.val).tl = true ∨ trapWaits s t = false) : exec (.trapchkBoundary q w) s = .next (boundaryNext s t q) := by
  have idle : boundary (boundaryNext s t q) t q = boundaryNext s t q := by
    refine boundary_idle ?_
    rcases hidle with htl | hwaits
    · exact .inl (by rw [sqr_boundaryNext h.1]; exact ((nextWord_tl _).trans (tickScan_tl 1 _)).trans htl)
    · refine .inr ⟨?_, ?_⟩
      · rw [pendingCtx_of_ctxs ((boundaryNext_foot (show 0x900 ||| 0x900 = 0x900 by decide)).2 .ctxs (by decide))]
        exact pendingCtx_none hwaits
      · rw [claimFault_of_time (boundaryNext_runs h.1).2.1]
        exact claimFault_none hwaits
  show execTrapchkBoundary q w s = _
  rw [execTrapchkBoundary, if_neg (by simp [hmode]), runMicro_issued h (by simp [hres])]
  exact congrArg Host.Outcome.next idle

end Boundary

/-! ### Flag ORs (R135, R141) -/

section Flags

variable {s : State} {t : Tenant} {q : SeqId} {f : FlagOr} {l : List FlagOr} {o : Order}

/-- The first flag OR has arrived: it leaves its line and enters FSUM. -/
def flagTaken (s : State) (t : Tenant) (q : SeqId) (f : FlagOr) (l : List FlagOr) : State :=
  modRun (modSqr s q.val fun x => { x with flagOrs := l }) t fun o => { o with fsum := o.fsum ||| f.flags }

theorem flagTaken_foot {m : Nat} (hm : 0x900 ||| m = m) : Foot m s (flagTaken s t q f l) :=
  modRun_foot _ t _ (Foot.sub (by decide) hm) (modSqr_foot s q.val _ (Foot.sub (by decide) hm) (Foot.refl m s))

theorem flagTaken_facts (hrun : runOrder s t = some o) : sqr (flagTaken s t q f l) q.val = { sqr s q.val with flagOrs := l } ∧
    (∀ p, p ≠ q.val → sqr (flagTaken s t q f l) p = sqr s p) ∧
    runOrder (flagTaken s t q f l) t = some { o with fsum := o.fsum ||| f.flags } ∧ sameBut [.seqs, .tenants] s (flagTaken s t q f l) := by
  let u := modSqr s q.val fun x => { x with flagOrs := l }
  have hseqs : (flagTaken s t q f l).seqs = u.seqs := (modRun_foot u t _ (show 0x800 ||| 0x800 = 0x800 by decide) (Foot.refl _ u)).2 .seqs (by decide)
  have hsqr (r : Nat) : sqr (flagTaken s t q f l) r = sqr u r := by rw [sqr, hseqs]; rfl
  have hu : runOrder u t = some o := hrun
  refine ⟨(hsqr _).trans (sqr_modSqr_same _ _ _), fun p hp => (hsqr p).trans (sqr_setSqr_ne _ _ hp), ?_, Foot.sameBut (flagTaken_foot (by decide))⟩
  have : flagTaken s t q f l = setOrder u t { o with fsum := o.fsum ||| f.flags } := by
    unfold flagTaken modRun
    rw [hu]
  rw [this]
  exact runOrder_setOrder hu rfl (show o.st = .running from running_of_runOrder hrun)

theorem exec_flagOr (hq : seqOf s t = some q) (hl : (sqr s q.val).flagOrs = f :: l)
    (hctx : pendingCtx s t = none) (hclaim : claimFault s t = none) (hrun : runOrder s t = some o)
    (htake : ∀ k, heldCtx s t = some k → f.trapLevel = true ∨ f.flags &&& (ctx s k.val).enables = 0) :
    exec (.flagOrResult t) s = .next (flagTaken s t q f l) := by
  have hctxs : (flagTaken s t q f l).ctxs = s.ctxs := (flagTaken_foot (show 0x900 ||| 0x900 = 0x900 by decide)).2 .ctxs (by decide)
  have taken : takeFlagOr (modSqr s q.val fun x => { x with flagOrs := l }) t f = flagTaken s t q f l := by
    have hheld : heldCtx (flagTaken s t q f l) t = heldCtx s t := by
      unfold heldCtx ctx
      rw [hctxs]
    show (match heldCtx (flagTaken s t q f l) t with
      | none => flagTaken s t q f l
      | some k =>
        if (if f.trapLevel then 0 else f.flags &&& (ctx (flagTaken s t q f l) k.val).enables) = 0 then flagTaken s t q f l
        else setCtx (flagTaken s t q f l) k.val _) = _
    rw [hheld]
    cases hk : heldCtx s t with
    | none => rfl
    | some k =>
      refine if_pos ?_
      rw [ctx, hctxs]
      rcases htake k hk with h | h
      · rw [h]
        rfl
      · split
        · rfl
        · exact h
  have idle : boundary (flagTaken s t q f l) t q = flagTaken s t q f l := by
    refine boundary_idle (.inr ⟨by rw [pendingCtx_of_ctxs hctxs, hctx], ?_⟩)
    unfold claimFault at hclaim ⊢
    rw [(flagTaken_facts hrun).2.2.1]
    rwa [hrun] at hclaim
  show execFlagOrResult t s = _
  unfold execFlagOrResult
  rw [hq]
  dsimp only
  rw [hl]
  dsimp only
  rw [taken, idle]

end Flags

end Sys2Proof.Machine
end

