-- ==== Sys2Proof/Proofs/GorsChecksAndFlags.lean ====
section
/-! SUPPORT. GOR, TRAPCHK and RESCHK microwords, GOR and flag deliveries against the statement about them. -/

namespace Sys2Proof.Machine

/-- Settles O26: a GOR's tile vector and device OR are read off the active slices; a delivery only clears link marks and updates its
sequencer; a TRAPCHK that hits enters its trap through `trapEntered_enterTrap`, one that does not only passes; a RESCHK changes lane 0 of the
active slices as `checkView` and `clearView` say; a flag OR enters FSUM and meets a boundary at which no trap waits. -/
theorem gorsChecksAndFlags : Obligations.GorsChecksAndFlags := by
  unfold Obligations.GorsChecksAndFlags
  refine ⟨fun s t q w f r => ?_, fun s t q w r v hinv => ?_⟩
  · intro x g fk
    refine ⟨fun _ hissued hres => ?_, fun bt hbound hgors => ⟨?_, fun hvec => ?_, fun d hrun hdue hbit hmode hseen hsleep => ?_⟩⟩
    · exact ⟨gorNext s t q w, tileVec s t g, deviceOr s t g, exec_gor hissued hres, gor_ends w hissued.1, deviceOr_iff s t g,
        fun n hn => getLsbD_tileVec s t g hn, gor_sameBut s t q w⟩
    · obtain ⟨others, same, tiles, own⟩ := delivered_facts (s := s) (q := q) (t := bt) fun y => { deliverGor y f with gors := r }
      refine ⟨_, exec_gorDevice hbound hgors, others, same, tiles, own.trans ?_⟩
      cases hv : f.vecDone <;> simp [deliverGor, hv, x]
    · obtain ⟨others, same, tiles, own⟩ := delivered_facts (s := s) (q := q) (t := bt)
        fun y => { y with gors := { f with vecDone := true } :: r, tvr := if f.tv then f.vec else y.tvr }
      exact ⟨_, exec_gorVector hbound hgors hvec, same, others, tiles, own⟩
    · obtain ⟨c, hobs⟩ := gorFailed_obs (s := s) (q := q) (t := bt) hdue hbit
      have mark : Foot 0x808000001 (gorFailed s q bt) (takeMark (gorFailed s q bt)) := takeMark_foot _ (by decide) (Foot.refl _ _)
      have failed : Foot 0x800000104 s (gorFailed s q bt) := gorFailed_foot
      refine ⟨takeMark (gorFailed s q bt), exec_gorFailed d hbound hgors hrun, ?_, ?_⟩
      · rw [sqr, mark.2 .seqs (by decide)]
        exact sqr_gorFailed hgors
      · rw [tideCount_takeMark (d := (2, c)) (by rw [hobs]) (by rw [failed.2 .start (by decide)]; exact hmode) (by rw [hobs]; exact hseen)
          (by rw [failed.2 .clk (by decide)]; exact hsleep), hobs]
  · intro x g act hit c
    obtain ⟨-, -, -, hmap⟩ := hinv
    refine ⟨fun hissued hres hmode hc => ⟨fun hno => ?_, fun hyes htl hhandler => ?_⟩, fun hissued hres hmode hidle => ?_, fun hres => ?_,
      fun f l o hq hl hrun => ⟨fun hctx hclaim => ?_, fun k hk htake hwaits => ?_⟩⟩
    · exact ⟨_, (exec_trapchkRaise hissued hres hmode hc).1 hno, inRoutine_ends hissued.1,
        Foot.sameBut (endMicro_foot _ t q 1 (by decide) (modSqr_foot s q.val _ (by decide) (Foot.refl _ s)))⟩
    · obtain ⟨d, hexec⟩ := (exec_trapchkRaise hissued hres hmode hc).2 hyes
      have hresume : chkResume x c = (if c = 2 ∨ c = 4 then x.pc else x.pc + 1).toNat := (apply_ite BitVec.toNat _ _ _).symm
      have hsmall : chkResume x c < 256 ^ 4 := by
        rw [hresume]
        exact Nat.lt_trans (BitVec.isLt _) (by decide)
      have entered := trapEntered_microLater (q := q) (d := d) htl hhandler (Nat.lt_trans w.cause.isLt (by decide)) hsmall
      rw [← hresume]
      exact ⟨_, hexec, entered⟩
    · exact ⟨_, exec_trapchkBoundary hissued hres hmode hidle, sqr_boundaryNext hissued.1, boundaryNext_runs hissued.1,
        Foot.sameBut (boundaryNext_foot (by decide))⟩
    · intro two ov ends check
      have leaves (prod : Bool) (hready : microReady s q = some t) :=
        activePass_leaves hready (step := reschkSlice s r prod g) fun hm e hu => foot_reschkSlice hm hu s r prod g e
      have flags (prod : Bool) := activePass_flags (t := t) (w := r) hmap (laneZero_check s r prod g) fun _ _ => rfl
      refine ⟨fun h => ?_, fun h => ?_, fun h => ?_⟩
      · obtain ⟨latch, regs⟩ := reschk_latches (t := t) (q := q) (w := r) hmap false
        obtain ⟨hends, same⟩ := leaves false h.1
        refine ⟨_, exec_reschk false h hres, ⟨fun e he => ?_, regs⟩, hends, same, flags false⟩
        rw [latch e he, Bool.or_eq_true, Bool.not_eq_true', residueOk, if_neg (by decide), decide_eq_false_iff_not]
      · obtain ⟨latch, regs⟩ := reschk_latches (t := t) (q := q) (w := r) hmap true
        obtain ⟨hends, same⟩ := leaves true h.1
        refine ⟨_, exec_reschk true h hres, ⟨fun e he => ?_, regs⟩, hends, same, flags true⟩
        rw [latch e he, Bool.or_eq_true, Bool.not_eq_true', residueOk, if_pos rfl, decide_eq_false_iff_not]
      · obtain ⟨units, regs⟩ := clear_units (t := t) (q := q) (w := r) hmap
        obtain ⟨hends, same⟩ := activePass_leaves h.1 (step := clearSlice s r g) fun hm e hu => clearSlice_foot hm hu s r g e
        exact ⟨_, exec_reschkClear h hres, ⟨units, regs⟩, hends, same, activePass_flags hmap (laneZero_clear s r g) fun _ _ => rfl⟩
    · have hp : pendingCtx s t = none := by
        unfold pendingCtx
        rw [hctx]
      obtain ⟨own, others, run, same⟩ := flagTaken_facts (q := q) (f := f) (l := l) hrun
      exact ⟨_, exec_flagOr hq hl hp hclaim hrun (fun k hk => by rw [hctx] at hk; cases hk), own, others, run, same⟩
    · obtain ⟨own, -, run, same⟩ := flagTaken_facts (q := q) (f := f) (l := l) hrun
      refine ⟨_, exec_flagOr hq hl (pendingCtx_none hwaits) (claimFault_none hwaits) hrun (fun k' hk' => ?_), own, same, run⟩
      rw [hk] at hk'
      cases hk'
      exact htake

end Sys2Proof.Machine
end

