-- ==== Sys2Proof/Proofs/Recomputations.lean ====
section
/-! SUPPORT. What re-execution and abort do to the tenant they are about, and that they leave the others (R210, R236). -/

namespace Sys2Proof.Machine

/-! ### Other tenants -/

/-- Every tenant but `v` is the same in `u` as in `s`. -/
def OthersKept (v : Tenant) (s u : State) : Prop := ∀ w, w ≠ v → ten u w = ten s w

namespace OthersKept
variable {v : Tenant} {z s u : State}

theorem refl (v : Tenant) (s : State) : OthersKept v s s := fun _ _ => rfl

theorem trans (h : OthersKept v z s) (g : OthersKept v s u) : OthersKept v z u := fun w hw => (g w hw).trans (h w hw)

theorem of_tenants (h : u.tenants = s.tenants) : OthersKept v s u := fun w _ => ten_of_tenants h w

theorem frame {m : Nat} (h : Foot m s u) (hm : m.testBit 11 = false) : OthersKept v s u := of_tenants (h.2 .tenants hm)

theorem modTen (v : Tenant) (s : State) (f : TenantSt → TenantSt) : OthersKept v s (Machine.modTen s v f) := fun _ hw => ten_modTen_ne s f hw

theorem foldl {α : Type} {f : State → α → State} (hf : ∀ u a, OthersKept v u (f u a)) (l : List α) (s : State) :
    OthersKept v s (l.foldl f s) := by
  induction l generalizing s with
  | nil => exact refl v s
  | cons a l ih => exact (hf s a).trans (ih _)

end OthersKept

theorem modOrder_othersKept (s : State) (v : Tenant) (q : Word) (f : Order → Order) : OthersKept v s (modOrder s v q f) := by
  unfold modOrder
  split
  · exact OthersKept.modTen v s _
  · exact OthersKept.refl v s

/-! ### What a re-execution keeps -/

theorem ite_keeps {α : Type} {Q : α → Prop} {p : Prop} [Decidable p] {u w : α} (hu : Q u) (hw : Q w) : Q (if p then u else w) := by
  split
  · exact hu
  · exact hw

/-- A change to an order that keeps its number, its state and its marks of a re-execution. -/
def keepsMarks (f : Order → Order) : Prop :=
  ∀ o, (f o).seq = o.seq ∧ (f o).st = o.st ∧ (f o).recomputed = o.recomputed ∧ (f o).reexec = o.reexec

theorem modIn_keepsMarks (b : Nat) (f : InBind → InBind) : keepsMarks fun o => o.modIn b f := fun o => by
  simp only [Order.modIn]
  split <;> exact ⟨rfl, rfl, rfl, rfl⟩

/-- `Q` is a property that the landing of bands for order `q` of tenant `t` keeps: it speaks of tenants, the parity of the scratchpad,
the network and the clocks alone, and neither a change to the bindings of the order nor a count of NACKs touches it. -/
structure LandingKeeps (t : Tenant) (q : Word) (Q : State → Prop) : Prop where
  frame : ∀ {m : Nat} {u w : State}, Foot m u w →
    m.testBit 11 = false ∧ m.testBit 15 = false ∧ m.testBit 23 = false ∧ m.testBit 31 = false → Q u → Q w
  nacks : ∀ (u : State) (n : Word), Q u → Q { u with noc := { u.noc with fencedNacks := n } }
  order : ∀ (u : State) (f : Order → Order), keepsMarks f → Q u → Q (modOrder u t q f)

namespace LandingKeeps
variable {t : Tenant} {q : Word} {Q : State → Prop}

theorem sendPlanes (k : LandingKeeps t q Q) (s : State) (b : Nat) (c : CamCfg) (a : Arm) (ty : Nat) (e : Nat × Nat) (h : Q s) :
    Q (Machine.sendPlanes s t q b c a ty e) := by
  unfold Machine.sendPlanes
  split
  · exact h
  · split
    · exact h
    · dsimp only
      have held := k.order s _ (modIn_keepsMarks b fun j => { j with heldAt := j.heldAt ++ [⟨tileNi ‹TileId›.val, e.1, e.2, ty⟩] }) h
      split
      · exact k.frame (landPlanes_foot s c _ _ _ _ _ _ (Nat.or_self _) (Foot.refl _ s)) (by decide) h
      · split
        · exact held
        · exact k.nacks _ _ held

theorem landBands (k : LandingKeeps t q Q) (s : State) (b : Nat) (h : Q s) : Q (Machine.landBands s t q b) := by
  unfold Machine.landBands
  split
  · exact h
  split
  · exact h
  split
  · dsimp only
    generalize hr : (if keptOf s t q b < _ then readAreas s t 4 5 _ _ else _) = r
    have hread : Q r.1 := by
      subst hr
      split
      · exact k.frame (readAreas_foot s t 4 5 _ _ (Nat.or_self _) (Foot.refl _ s)) (by decide) h
      · exact h
    have copies := k.order r.1 _ (modIn_keepsMarks b fun i => { i with copyA := r.2.1, copyB := r.2.2 }) hread
    refine ite_keeps h (ite_keeps copies ?_)
    refine k.frame (leaveBuf_foot _ t q b _ (Nat.or_self _) (Foot.refl _ _)) (by decide) (k.order _ _ (modIn_keepsMarks b _) ?_)
    exact List.foldlRecOn _ _ copies fun u hu ty _ => List.foldlRecOn _ _ hu fun w hw e _ => k.sendPlanes w b _ _ ty e hw
  · exact h

end LandingKeeps

/-- `Q` is also kept when landed bindings land again. -/
structure ReexecKeeps (t : Tenant) (q : Word) (Q : State → Prop) : Prop extends LandingKeeps t q Q where
  reland : ∀ (u : State) (bs : List Nat), Q u → Q (reland u t q bs)

/-- The order as a re-execution starts it: it waits no longer. -/
structure Started (o o' : Order) : Prop where
  seq : o'.seq = o.seq
  st : o'.st = o.st
  recomputed : o'.recomputed = o.recomputed
  reexec : o'.reexec = false

/-- A re-execution keeps what the entry of the order that it starts establishes. -/
theorem ReexecKeeps.reexecNow {t : Tenant} {Q : State → Prop} {o : Order} (k : ReexecKeeps t o.seq Q) (s : State) (q : SeqId)
    (hset : ∀ u o', Foot 0x1D5 (openGate s q.val) u → Started o o' → Q (setOrder u t o')) : Q (Machine.reexecNow s t o q) := by
  have bands : ∀ (l : List Nat) (u : State), Q u → Q (l.foldl (fun u b => Machine.landBands u t o.seq b) u) :=
    fun l u hu => List.foldlRecOn l _ hu fun w hw b _ => k.landBands w b hw
  have marks : ∀ (b : Bool) (l : List TileId) (u : State), Q u → Q (l.foldl (fun u p => modTile u p.val fun x => { x with reclaimed := b }) u) :=
    fun b l u hu => List.foldlRecOn l _ hu fun w hw p _ => k.frame (modTile_foot w p.val _ (Nat.or_self _) (Foot.refl _ w)) (by decide) hw
  have scrubbed : ∀ (ps : List TileId) (f : Sequencer → Sequencer), Foot 0x1D5 (openGate s q.val)
      (modSqr (scrubTiles (openGate s q.val) ps) q.val f) :=
    fun ps f => modSqr_foot _ _ _ (by decide) (scrubTiles_foot _ ps (by decide) (Foot.refl _ _))
  unfold Machine.reexecNow
  dsimp only
  split
  · next c _ =>
    generalize hs2 : setOrder _ t _ = s2
    have set : Q s2 := by
      subst hs2
      exact hset _ _ (scrubbed _ _) ⟨rfl, rfl, rfl, rfl⟩
    have restored := k.frame (restorePlanes_foot _ t c (Nat.or_self _) (Foot.refl _ _)) (by decide)
      (k.reland _ c.landed (marks c.reclaimed (physTiles s (ownTiles s t)) s2 set))
    refine k.frame (dropPending_foot _ t (Nat.or_self _) (Foot.refl _ _)) (by decide) ?_
    generalize hs5 : List.foldl _ (Machine.reland _ t _ _) _ = s5
    have landed : Q s5 := by
      subst hs5
      exact bands _ _ (k.reland _ _ restored)
    split
    · exact ite_keeps (k.frame (dropCtx_foot _ t (Nat.or_self _) (Foot.refl _ _)) (by decide) landed)
        (k.frame (loadCtx_foot _ t _ _ _ (Nat.or_self _) (Foot.refl _ _)) (by decide) landed)
    · split
      · exact ite_keeps landed (k.frame (loadCtx_foot _ t _ _ _ (Nat.or_self _) (Foot.refl _ _)) (by decide) landed)
      · exact landed
  · refine k.frame (dropCtx_foot _ t (Nat.or_self _) (Foot.refl _ _)) (by decide) (bands _ _ (k.reland _ _ (marks false _ _ ?_)))
    exact k.frame (startPes_foot _ t (Nat.or_self _) (Foot.refl _ _)) (by decide)
      (hset _ _ (scrubbed _ (startSeq o)) ⟨rfl, rfl, rfl, rfl⟩)

theorem placeFrame_othersKept (s : State) (v : Tenant) : OthersKept v s (placeFrame s v) := by
  unfold placeFrame
  dsimp only
  split
  · exact OthersKept.modTen v s _
  · exact OthersKept.refl v s

theorem kick_othersKept (s : State) (v : Tenant) : OthersKept v s (kick s v) := by
  unfold kick
  split
  · exact (OthersKept.frame (wakeTenant_foot s v (Nat.or_self _) (Foot.refl _ s)) (by decide)).trans (OthersKept.modTen v _ _)
  · exact OthersKept.refl v s

/-! ### An order that settles -/

/-- The queue and the records of a tenant after an order of it settles with the record `r`. -/
def settledTen (x : TenantSt) (o : Order) (r : Record) : TenantSt :=
  flushRecs { x with
    orders := x.orders.filter fun p => decide (p.seq ≠ o.seq)
    unrec := insertRec r x.unrec
    wmSettled := if x.wmSettled = 0 ∨ serialGe r.seq x.wmSettled then r.seq else x.wmSettled
    recomputed := if o.recomputed then satInc x.recomputed else x.recomputed
    unprotected := if o.unprotected then satInc x.unprotected else x.unprotected
    holdRunning := true }

theorem placeFrame_ten (s : State) (t : Tenant) : ten (placeFrame s t) t = { ten s t with frameH1 := (ten (placeFrame s t) t).frameH1 } := by
  unfold placeFrame
  dsimp only
  split
  · rw [ten_modTen_same]
  · rfl

/-- What the settling of an order leaves of its tenant, the half of its frame aside. -/
theorem settle_ten (s : State) (t : Tenant) (o : Order) (r : Record) : OthersKept t s (settle s t o r) ∧
    ten (settle s t o r) t = { settledTen (ten s t) o r with frameH1 := (ten (settle s t o r) t).frameH1 } := by
  let y := modTen s t fun x => settledTen x o r
  let z := storeRecords (journalWrite y t) t (ten s t).records.length
  have hstore : z.tenants = y.tenants := (storeRecords_foot (m := 0x254001) _ t _ (by decide)
    (journalWrite_foot y t (by decide) (Foot.refl _ y))).2 .tenants (by decide)
  have hz : OthersKept t s z := (OthersKept.modTen t s _).trans (OthersKept.of_tenants hstore)
  have hown : ten z t = settledTen (ten s t) o r := by rw [ten_of_tenants hstore, ten_modTen_same]
  show OthersKept t s (if o.st = .running then placeFrame (endWindow (dropCtx (quiet z t) t) t) t else z) ∧
    ten (if o.st = .running then placeFrame (endWindow (dropCtx (quiet z t) t) t) t else z) t = { settledTen (ten s t) o r with
      frameH1 := (ten (if o.st = .running then placeFrame (endWindow (dropCtx (quiet z t) t) t) t else z) t).frameH1 }
  split
  · have hend : (endWindow (dropCtx (quiet z t) t) t).tenants = z.tenants :=
      (endWindow_foot (m := 0x304) _ t (by decide) (dropCtx_foot _ t (by decide) (quiet_foot z t (by decide) (Foot.refl _ z)))).2 .tenants (by decide)
    have place := placeFrame_ten (endWindow (dropCtx (quiet z t) t) t) t
    rw [ten_of_tenants hend, hown] at place
    exact ⟨hz.trans ((OthersKept.of_tenants hend).trans (placeFrame_othersKept _ t)), place⟩
  · exact ⟨hz, by rw [hown]⟩

theorem abortOrder_ten (s : State) (t : Tenant) (o : Order) (c : Byte) : OthersKept t s (abortOrder s t o c) ∧
    ∃ r : Record, r.seq = o.seq ∧ r.outcome = 2 ∧ r.cause = c ∧
      ten (abortOrder s t o c) t = { settledTen (ten s t) o r with frameH1 := (ten (abortOrder s t o c) t).frameH1 } := by
  have frames : (dropFrames s t o.seq).tenants = s.tenants := (dropFrames_foot s t o.seq (Nat.or_self _) (Foot.refl _ s)).2 .tenants (by decide)
  obtain ⟨others, own⟩ := settle_ten (dropFrames s t o.seq) t o (mkRecord s o 2 c 0)
  rw [ten_of_tenants frames] at own
  exact ⟨(OthersKept.of_tenants frames).trans others, mkRecord s o 2 c 0, rfl, rfl, rfl, own⟩

/-! ### Records that stay -/

/-- A tenant has a record of the outcome of an order. -/
def hasRecord (x : TenantSt) (seq : Word) (outcome cause : Byte) : Prop :=
  ∃ r ∈ x.records ++ x.unrec, r.seq = seq ∧ r.outcome = outcome ∧ r.cause = cause

theorem mem_insertRec {a r : Record} {l : List Record} : a ∈ insertRec r l ↔ a = r ∨ a ∈ l := by
  induction l with
  | nil => simp [insertRec]
  | cons x l ih =>
    unfold insertRec
    split
    · rw [List.mem_cons, ih, List.mem_cons]
      tauto
    · simp

theorem hasRecord_appendRec {x : TenantSt} {a : Record} {seq : Word} {oc c : Byte} :
    hasRecord (appendRec x a) seq oc c ↔ hasRecord x seq oc c ∨ a.seq = seq ∧ a.outcome = oc ∧ a.cause = c := by
  simp only [hasRecord, appendRec, List.mem_append, List.mem_singleton]
  constructor
  · rintro ⟨r, (h | rfl) | h, hr⟩
    · exact .inl ⟨r, .inl h, hr⟩
    · exact .inr hr
    · exact .inl ⟨r, .inr h, hr⟩
  · rintro (⟨r, h | h, hr⟩ | hr)
    · exact ⟨r, .inl (.inl h), hr⟩
    · exact ⟨r, .inr h, hr⟩
    · exact ⟨_, .inl (.inr rfl), hr⟩

theorem hasRecord_foldl_appendRec {l : List Record} {x : TenantSt} {seq : Word} {oc c : Byte}
    (h : hasRecord x seq oc c ∨ ∃ r ∈ l, r.seq = seq ∧ r.outcome = oc ∧ r.cause = c) : hasRecord (l.foldl appendRec x) seq oc c := by
  induction l generalizing x with
  | nil => exact h.resolve_right fun ⟨r, hr, _⟩ => nomatch hr
  | cons a l ih =>
    refine ih ?_
    rw [hasRecord_appendRec]
    rcases h with h | ⟨r, hr, h⟩
    · exact .inl (.inl h)
    · rcases List.mem_cons.mp hr with rfl | hr
      · exact .inl (.inr h)
      · exact .inr ⟨r, hr, h⟩

/-- Records that are stored do not get lost. -/
theorem hasRecord_flushRecs {x : TenantSt} {seq : Word} {oc c : Byte} (h : hasRecord x seq oc c) : hasRecord (flushRecs x) seq oc c := by
  obtain ⟨r, hr, h⟩ := h
  unfold flushRecs
  dsimp only
  generalize (fun r : Record => x.orders.all fun o => serialGe o.seq r.seq) = ok
  apply hasRecord_foldl_appendRec
  rcases List.mem_append.mp hr with hr | hr
  · exact .inl ⟨r, List.mem_append.mpr (.inl hr), h⟩
  · rw [← List.takeWhile_append_dropWhile (p := ok) (l := x.unrec)] at hr
    rcases List.mem_append.mp hr with hr | hr
    · exact .inr ⟨r, hr, h⟩
    · exact .inl ⟨r, List.mem_append.mpr (.inr hr), h⟩

theorem flushRecs_orders (x : TenantSt) : (flushRecs x).orders = x.orders ∧ (flushRecs x).lost = x.lost := by
  have hfold : ∀ (l : List Record) (y : TenantSt), (l.foldl appendRec y).orders = y.orders ∧ (l.foldl appendRec y).lost = y.lost := by
    intro l
    induction l with
    | nil => exact fun _ => ⟨rfl, rfl⟩
    | cons r l ih => exact fun y => ih (appendRec y r)
  exact hfold _ _

theorem settledTen_orders (x : TenantSt) (o : Order) (r : Record) :
    (settledTen x o r).orders = x.orders.filter (fun p => decide (p.seq ≠ o.seq)) ∧ (settledTen x o r).lost = x.lost :=
  flushRecs_orders _

theorem hasRecord_settledTen {x : TenantSt} {o : Order} {r : Record} {seq : Word} {oc c : Byte}
    (h : hasRecord x seq oc c ∨ r.seq = seq ∧ r.outcome = oc ∧ r.cause = c) : hasRecord (settledTen x o r) seq oc c := by
  refine hasRecord_flushRecs ?_
  rcases h with ⟨a, ha, h⟩ | h
  · refine ⟨a, ?_, h⟩
    rcases List.mem_append.mp ha with ha | ha
    · exact List.mem_append.mpr (.inl ha)
    · exact List.mem_append.mpr (.inr (mem_insertRec.mpr (.inr ha)))
  · exact ⟨r, List.mem_append.mpr (.inr (mem_insertRec.mpr (.inl rfl))), h⟩

end Sys2Proof.Machine
end

