-- ==== Sys2Proof/Proofs/Recomputed.lean ====
section
/-! SUPPORT. An order that is recomputed: it waits, runs again, or has lost an input (R64, R147, R209, R210, R236). -/

namespace Sys2Proof.Machine

/-! ### The parity of the scratchpad -/

theorem mend_nil (a n : Nat) : mend [] a n = [] := rfl

theorem extWrite_spBad_nil {s : State} (l : List Extent) (off : Nat) (d : Bytes) (h : s.spBad = []) : (extWrite s l off d).spBad = [] := by
  induction d generalizing s off with
  | nil => exact h
  | cons b d ih =>
    rw [extWrite]
    apply ih
    split
    · simp only [setSpByte, spWrite, h, mend_nil]
    · exact h

theorem landAll_spBad_nil {s : State} (t : Tenant) (i : InBind) (a : Arm) (h : s.spBad = []) : (landAll s t i a).spBad = [] := by
  unfold landAll
  dsimp only
  split
  · split
    · exact h
    · split
      · split
        · exact extWrite_spBad_nil _ _ _ h
        · exact h
      · refine List.foldlRecOn (motive := fun u : State => u.spBad = []) _ _ h fun u hu ty _ => ?_
        rw [(landBand_foot u t _ _ _ _ ty (Nat.or_self _) (Foot.refl _ u)).2 .spBad (by decide), hu]
  · rw [(landAdc_foot s t i _ _ (Nat.or_self _) (Foot.refl _ s)).2 .spBad (by decide), h]
  · rw [(landSnapshot_foot s t i _ _ (Nat.or_self _) (Foot.refl _ s)).2 .spBad (by decide), h]
  · rw [(landRegion_foot s t i _ (Nat.or_self _) (Foot.refl _ s)).2 .spBad (by decide), h]

theorem reland_spBad_nil {s : State} (t : Tenant) (q : Word) (bs : List Nat) (h : s.spBad = []) : (reland s t q bs).spBad = [] := by
  refine List.foldlRecOn (motive := fun u : State => u.spBad = []) bs _ h fun u hu b _ => ?_
  split
  · split
    · split
      · exact ite_keeps (Q := fun u : State => u.spBad = []) (landAll_spBad_nil t _ _ hu) hu
      · exact hu
    · exact hu
  · exact hu

theorem landingKeeps_spBad_nil (t : Tenant) (q : Word) : LandingKeeps t q fun u => u.spBad = [] where
  frame h hm hu := Eq.trans (h.2 .spBad hm.2.1) hu
  nacks _ _ hu := hu
  order u f _ hu := Eq.trans ((modOrder_foot u t q f (Nat.or_self _) (Foot.refl _ u)).2 .spBad (by decide)) hu

theorem reexecKeeps_spBad_nil (t : Tenant) (q : Word) : ReexecKeeps t q fun u => u.spBad = [] where
  toLandingKeeps := landingKeeps_spBad_nil t q
  reland _ bs hu := reland_spBad_nil t q bs hu

theorem areaHit_of_sound {s : State} (h : s.spBad = []) (t : Tenant) (role : Nat) : areaHit s t role = false := by
  unfold areaHit
  split
  · simp [spBadAt, badIn, h]
  · rfl

/-- A sound scratchpad loses no copy. -/
theorem readAreas_of_sound {s : State} (h : s.spBad = []) (t : Tenant) (a b : Nat) (ca cb : Bool) : (readAreas s t a b ca cb).2 = (ca, cb) := by
  simp [readAreas, areaHit_of_sound h]

theorem readAreas_spBad (s : State) (t : Tenant) (a b : Nat) (ca cb : Bool) : (readAreas s t a b ca cb).1.spBad = s.spBad :=
  (readAreas_foot s t a b ca cb (Nat.or_self _) (Foot.refl _ s)).2 .spBad (by decide)

/-! ### The copies are read back -/

theorem modIn_id (o : Order) {b : Nat} {i : InBind} (h : o.ins[b]? = some i) {f : InBind → InBind} (hf : f i = i) : o.modIn b f = o := by
  obtain ⟨hb, rfl⟩ := List.getElem?_eq_some_iff.mp h
  simp only [Order.modIn, h, hf, List.set_getElem_self]

/-- What is read back of an order: its number, its state and its marks stay, and with a sound scratchpad all its inputs. -/
structure ReadOf (s : State) (o : Order) (c : State × Order) : Prop where
  seq : c.2.seq = o.seq
  st : c.2.st = o.st
  recomputed : c.2.recomputed = o.recomputed
  reexec : c.2.reexec = o.reexec
  sound : s.spBad = [] → c.2.ins = o.ins ∧ c.1.spBad = []

theorem readCkpt_of (s : State) (t : Tenant) (o : Order) : ReadOf s o (match o.ckpt with
    | some k =>
      let r := readAreas s t 2 3 k.copyA k.copyB
      (r.1, { o with ckpt := some { k with copyA := r.2.1, copyB := r.2.2 } })
    | none => (s, o)) := by
  split
  · next k _ => exact ⟨rfl, rfl, rfl, rfl, fun h => ⟨rfl, (readAreas_spBad s t 2 3 k.copyA k.copyB).trans h⟩⟩
  · exact ⟨rfl, rfl, rfl, rfl, fun h => ⟨rfl, h⟩⟩

theorem readBack_of (s : State) (t : Tenant) (o : Order) : ReadOf s o (readBack s t o) := by
  refine List.foldlRecOn _ _ (readCkpt_of s t o) fun c hc b _ => ?_
  split
  · next i hi =>
    split
    · let f := fun j : InBind =>
        { j with copyA := (readAreas c.1 t 4 5 i.copyA i.copyB).2.1, copyB := (readAreas c.1 t 4 5 i.copyA i.copyB).2.2 }
      obtain ⟨hseq, hst, hrec, hre⟩ := modIn_keepsMarks b f c.2
      refine ⟨hseq.trans hc.seq, hst.trans hc.st, hrec.trans hc.recomputed, hre.trans hc.reexec, fun h => ?_⟩
      obtain ⟨ins, sound⟩ := hc.sound h
      have same : c.2.modIn b f = c.2 := modIn_id c.2 hi (by simp only [f, readAreas_of_sound sound])
      exact ⟨(congrArg Order.ins same).trans ins, (readAreas_spBad c.1 t 4 5 i.copyA i.copyB).trans sound⟩
    · exact hc
  · exact hc

/-! ### Records stay -/

theorem modOrder_ten (s : State) (t : Tenant) (q : Word) (f : Order → Order) :
    ∃ l, ten (modOrder s t q f) t = { ten s t with orders := l } := by
  unfold modOrder
  split
  · exact ⟨_, ten_modTen_same s t _⟩
  · exact ⟨_, rfl⟩

/-- A record of the tenant. -/
def Settled (t : Tenant) (q : Word) (oc c : Byte) (u : State) : Prop := hasRecord (ten u t) q oc c

theorem Settled.of_ten {t : Tenant} {q : Word} {oc c : Byte} {u w : State} (h : Settled t q oc c u) (g : ten w t = ten u t) :
    Settled t q oc c w := by
  rwa [Settled, g]

theorem reexecKeeps_settled (t : Tenant) (q seq : Word) (oc c : Byte) : ReexecKeeps t q (Settled t seq oc c) where
  frame h hm hu := hu.of_ten (ten_of_tenants (h.2 .tenants hm.1) t)
  nacks _ _ hu := hu
  order u f _ hu := by
    obtain ⟨l, hl⟩ := modOrder_ten u t q f
    rw [Settled, hl]
    exact hu
  reland u bs hu := hu.of_ten (ten_of_tenants ((reland_foot u t q bs (Nat.or_self _) (Foot.refl _ u)).2 .tenants (by decide)) t)

theorem settled_setOrder {t : Tenant} {q : Word} {oc c : Byte} {u : State} (h : Settled t q oc c u) (o : Order) :
    Settled t q oc c (setOrder u t o) := by
  rw [Settled, setOrder, ten_modTen_same]
  exact h

theorem settled_kick {t : Tenant} {q : Word} {oc c : Byte} {u : State} (h : Settled t q oc c u) : Settled t q oc c (kick u t) := by
  unfold kick
  split
  · rw [Settled, ten_modTen_same, ten_of_tenants ((wakeTenant_foot u t (Nat.or_self _) (Foot.refl _ u)).2 .tenants (by decide))]
    exact h
  · exact h

theorem settled_abortOrder {t : Tenant} {q : Word} {oc c d : Byte} {u : State} {o : Order}
    (h : Settled t q oc c u ∨ o.seq = q ∧ oc = 2 ∧ d = c) : Settled t q oc c (abortOrder u t o d) := by
  obtain ⟨-, r, hseq, hoc, hc, own⟩ := abortOrder_ten u t o d
  rw [Settled, own]
  exact hasRecord_settledTen (x := ten u t) (o := o) (r := r) (h.imp_right fun ⟨a, b, e⟩ => ⟨hseq.trans a, hoc.trans b.symm, hc.trans e⟩)

/-! ### The running order is followed -/

/-- The running order has this number, every order of the number is this one, and it meets `P`. -/
def RunsAs (t : Tenant) (q : Word) (P : Order → Prop) (u : State) : Prop :=
  ∃ o, runOrder u t = some o ∧ o.seq = q ∧ (∀ p ∈ (ten u t).orders, p.seq = q → p = o) ∧ P o

theorem RunsAs.of_ten {t : Tenant} {q : Word} {P : Order → Prop} {u w : State} (h : RunsAs t q P u) (g : ten w t = ten u t) :
    RunsAs t q P w := by
  rwa [RunsAs, runOrder, g]

theorem runsAs_setOrder {s : State} {t : Tenant} {P : Order → Prop} {o p : Order} (h : runOrder s t = some o) (hseq : p.seq = o.seq)
    (hst : p.st = .running) (hp : P p) : RunsAs t o.seq P (setOrder s t p) := by
  refine ⟨p, runOrder_setOrder h hseq hst, hseq, fun x hx hseqx => ?_, hp⟩
  rw [setOrder, ten_modTen_same] at hx
  obtain ⟨y, -, rfl⟩ := List.mem_map.mp hx
  by_cases hy : y.seq = p.seq
  · rw [if_pos hy]
  · rw [if_neg hy] at hseqx
    exact absurd (hseqx.trans hseq.symm) hy

theorem getOrder_of_runs {s : State} {t : Tenant} {o : Order} (h : runOrder s t = some o)
    (sole : ∀ p ∈ (ten s t).orders, p.seq = o.seq → p = o) : getOrder s t o.seq = some o := by
  have hmem : o ∈ (ten s t).orders := List.mem_of_find?_eq_some h
  cases hg : getOrder s t o.seq with
  | none => simpa using List.find?_eq_none.mp hg o hmem
  | some p =>
    have hseq : p.seq = o.seq := by simpa using List.find?_some hg
    rw [sole p (List.mem_of_find?_eq_some hg) hseq]

theorem runsAs_modOrder {u : State} {t : Tenant} {q : Word} {P : Order → Prop} (h : RunsAs t q P u) {f : Order → Order} (hf : keepsMarks f)
    (hp : ∀ o, P o → P (f o)) : RunsAs t q P (modOrder u t q f) := by
  obtain ⟨o, hrun, rfl, sole, ho⟩ := h
  obtain ⟨hseq, hst, -⟩ := hf o
  rw [modOrder, getOrder_of_runs hrun sole]
  exact runsAs_setOrder hrun hseq (hst.trans (running_of_runOrder hrun)) (hp o ho)

/-- The order runs again. -/
def Again (t : Tenant) (q : Word) : State → Prop := RunsAs t q fun o => o.recomputed = true ∧ o.reexec = false

theorem reexecKeeps_again (t : Tenant) (q : Word) : ReexecKeeps t q (Again t q) where
  frame h hm hu := hu.of_ten (ten_of_tenants (h.2 .tenants hm.1) t)
  nacks _ _ hu := hu
  order u f hf hu := runsAs_modOrder hu hf fun o ⟨hc, hr⟩ => by
    obtain ⟨-, -, hc', hr'⟩ := hf o
    exact ⟨hc'.trans hc, hr'.trans hr⟩
  reland u bs hu := hu.of_ten (ten_of_tenants ((reland_foot u t q bs (Nat.or_self _) (Foot.refl _ u)).2 .tenants (by decide)) t)

/-- The order waits for its re-execution; where `clean` holds, a copy of every input that has landed is left. -/
def Awaits (clean : Prop) (t : Tenant) (q : Word) : State → Prop :=
  RunsAs t q fun o => o.recomputed = true ∧ (clean → ∀ i ∈ o.ins, i.landed = true → inputGone i = false)

/-- What becomes of a recomputed order: it waits, runs again, or is aborted for the loss of an input. -/
def Pursued (clean : Prop) (t : Tenant) (q : Word) (u : State) : Prop :=
  Awaits clean t q u ∨ Again t q u ∨ ¬clean ∧ Settled t q 2 0x0B u

theorem Pursued.of_ten {clean : Prop} {t : Tenant} {q : Word} {u w : State} (h : Pursued clean t q u) (g : ten w t = ten u t) :
    Pursued clean t q w :=
  h.imp (fun a => a.of_ten g) fun b => b.imp (fun a => a.of_ten g) fun c => ⟨c.1, c.2.of_ten g⟩

/-- Up to the entry of the order a re-execution leaves the tenants, and the parity of the scratchpad. -/
theorem reopened_tenants {s u : State} {b : Nat} (h : Foot 0x1D5 (openGate s b) u) : u.tenants = s.tenants :=
  Eq.trans (h.2 .tenants (by decide)) ((openGate_foot s b (Nat.or_self _) (Foot.refl _ s)).2 .tenants (by decide))

theorem reopened_spBad {s u : State} {b : Nat} (h : Foot 0x1D5 (openGate s b) u) : u.spBad = s.spBad :=
  Eq.trans (h.2 .spBad (by decide)) ((openGate_foot s b (Nat.or_self _) (Foot.refl _ s)).2 .spBad (by decide))

/-- A re-execution that starts, from an order that may have been changed by the read of its copies. -/
theorem reexecNow_again {s : State} {t : Tenant} {o : Order} (q : SeqId) (h : runOrder s t = some o) (hc : o.recomputed = true) :
    Again t o.seq (reexecNow s t o q) := by
  refine (reexecKeeps_again t o.seq).reexecNow s q fun u o' hu hs => ?_
  have hrun : runOrder u t = some o := by rw [runOrder, ten_of_tenants (reopened_tenants hu)]; exact h
  exact runsAs_setOrder hrun hs.seq (hs.st.trans (running_of_runOrder h)) ⟨hs.recomputed.trans hc, hs.reexec⟩

theorem reexecNow_settled {s : State} {t : Tenant} {q : Word} {oc c : Byte} (o : Order) (r : SeqId) (h : Settled t q oc c s) :
    Settled t q oc c (reexecNow s t o r) :=
  (reexecKeeps_settled t o.seq q oc c).reexecNow s r fun _ o' hu _ =>
    settled_setOrder (h.of_ten (ten_of_tenants (reopened_tenants hu) t)) o'

/-- The stages of a re-execution that is tried: nothing, an abort, or a start. -/
theorem tryReexec_cases (s : State) (t : Tenant) : tryReexec s t = s ∨ ∃ o q, runOrder s t = some o ∧ o.reexec = true ∧
    let r := readBack s t o
    let s1 := setOrder r.1 t r.2
    (tryReexec s t = kick (abortOrder s1 t r.2 0x0B) t ∧ ∃ i ∈ r.2.ins, i.landed = true ∧ inputGone i = true) ∨
      tryReexec s t = reexecNow s1 t r.2 q := by
  unfold tryReexec
  split
  · next o q ho _ =>
    by_cases hr : reexecReady s t o = true
    · have waits : o.reexec = true := by
        simp only [reexecReady, Bool.and_eq_true] at hr
        tauto
      rw [if_pos hr]
      refine .inr ⟨o, q, ho, waits, ?_⟩
      dsimp only
      split
      · next gone => exact .inl ⟨rfl, by simpa using gone⟩
      · exact .inr rfl
    · rw [if_neg hr]
      exact .inl rfl
  · exact .inl rfl

theorem reexecKeeps_othersKept (t : Tenant) (q : Word) (s : State) : ReexecKeeps t q (OthersKept t s) where
  frame h hm hu := hu.trans (OthersKept.frame h hm.1)
  nacks _ _ hu := hu
  order u f _ hu := hu.trans (modOrder_othersKept u t q f)
  reland u bs hu := hu.trans (OthersKept.frame (reland_foot u t q bs (Nat.or_self _) (Foot.refl _ u)) (by decide))

theorem tryReexec_othersKept (s : State) (t : Tenant) : OthersKept t s (tryReexec s t) := by
  obtain hs | ⟨o, q, -, -, hs⟩ := tryReexec_cases s t
  · rw [hs]
    exact OthersKept.refl t s
  have first : OthersKept t s (setOrder (readBack s t o).1 t (readBack s t o).2) :=
    (OthersKept.frame (readBack_foot s t o (Nat.or_self _) (Foot.refl _ s)) (by decide)).trans (OthersKept.modTen t _ _)
  rcases hs with ⟨hs, -⟩ | hs
  · rw [hs]
    exact first.trans ((abortOrder_ten _ t _ 0x0B).1.trans (kick_othersKept _ t))
  · rw [hs]
    refine (reexecKeeps_othersKept t _ s).reexecNow _ q fun u o' hu _ => ?_
    exact first.trans ((OthersKept.of_tenants (reopened_tenants hu)).trans (OthersKept.modTen t u _))

theorem setOrder_spBad (s : State) (t : Tenant) (o : Order) : (setOrder s t o).spBad = s.spBad := rfl

theorem tryReexec_spBad_nil {s : State} (t : Tenant) (h : s.spBad = []) : (tryReexec s t).spBad = [] := by
  obtain hs | ⟨o, q, -, -, hs⟩ := tryReexec_cases s t
  · rwa [hs]
  have first : (setOrder (readBack s t o).1 t (readBack s t o).2).spBad = [] := ((readBack_of s t o).sound h).2
  rcases hs with ⟨hs, -⟩ | hs
  · have rest := kick_foot (m := 0x88EA54FF5) _ t (by decide)
      (abortOrder_foot (setOrder (readBack s t o).1 t (readBack s t o).2) t (readBack s t o).2 0x0B (by decide) (Foot.refl _ _))
    rw [hs]
    exact Eq.trans (rest.2 .spBad (by decide)) first
  · rw [hs]
    exact (reexecKeeps_spBad_nil t _).reexecNow _ q fun u o' hu _ => (setOrder_spBad u t o').trans ((reopened_spBad hu).trans first)

theorem tryReexec_settled {s : State} {t : Tenant} {q : Word} {oc c : Byte} (h : Settled t q oc c s) : Settled t q oc c (tryReexec s t) := by
  obtain hs | ⟨o, r, -, -, hs⟩ := tryReexec_cases s t
  · rwa [hs]
  have first : Settled t q oc c (setOrder (readBack s t o).1 t (readBack s t o).2) :=
    settled_setOrder (h.of_ten (ten_of_tenants ((readBack_foot s t o (Nat.or_self _) (Foot.refl _ s)).2 .tenants (by decide)) t)) _
  rcases hs with ⟨hs, -⟩ | hs
  · rw [hs]
    exact settled_kick (settled_abortOrder (.inl first))
  · rw [hs]
    exact reexecNow_settled _ r first

theorem tryReexec_own_pursued {clean : Prop} {t : Tenant} {q : Word} {s : State} (sound : clean → s.spBad = []) (h : Pursued clean t q s) :
    Pursued clean t q (tryReexec s t) := by
  rcases h with ⟨o, ho, hseq, sole, hc, hin⟩ | ⟨o, ho, hseq, sole, hc, hr⟩ | ⟨hn, h⟩
  · obtain hs | ⟨o', r, ho', -, hs⟩ := tryReexec_cases s t
    · rw [hs]
      exact .inl ⟨o, ho, hseq, sole, hc, hin⟩
    obtain rfl : o = o' := Option.some.inj (ho.symm.trans ho')
    subst hseq
    have read := readBack_of s t o
    have hrun : runOrder (setOrder (readBack s t o).1 t (readBack s t o).2) t = some (readBack s t o).2 := by
      refine runOrder_setOrder ?_ read.seq (read.st.trans (running_of_runOrder ho))
      rw [runOrder, ten_of_tenants ((readBack_foot s t o (Nat.or_self _) (Foot.refl _ s)).2 .tenants (by decide))]
      exact ho
    rcases hs with ⟨hs, i, hi, hl, hg⟩ | hs
    · have unclean : ¬clean := fun c => by
        rw [(read.sound (sound c)).1] at hi
        rw [hin c i hi hl] at hg
        exact absurd hg (by decide)
      rw [hs]
      exact .inr (.inr ⟨unclean, settled_kick (settled_abortOrder (.inr ⟨read.seq, rfl, rfl⟩))⟩)
    · rw [hs, ← read.seq]
      exact .inr (.inl (reexecNow_again r hrun (read.recomputed.trans hc)))
  · obtain hs | ⟨o', r, ho', hw, -⟩ := tryReexec_cases s t
    · rw [hs]
      exact .inr (.inl ⟨o, ho, hseq, sole, hc, hr⟩)
    · obtain rfl : o = o' := Option.some.inj (ho.symm.trans ho')
      exact absurd (hr.symm.trans hw) (by decide)
  · exact .inr (.inr ⟨hn, tryReexec_settled h⟩)

theorem tryReexec_pursued {clean : Prop} {t : Tenant} {q : Word} {s : State} (v : Tenant) (sound : clean → s.spBad = [])
    (h : Pursued clean t q s) : Pursued clean t q (tryReexec s v) := by
  by_cases hv : t = v
  · subst hv
    exact tryReexec_own_pursued sound h
  · exact h.of_ten (tryReexec_othersKept s v t hv)

theorem tryReexecAll_pursued {clean : Prop} {t : Tenant} {q : Word} {s : State} (sound : clean → s.spBad = []) (h : Pursued clean t q s) :
    Pursued clean t q (tryReexecAll s) :=
  (List.foldlRecOn (motive := fun u : State => (clean → u.spBad = []) ∧ Pursued clean t q u) _ _ ⟨sound, h⟩ fun _ hu v _ =>
    ⟨fun c => tryReexec_spBad_nil v (hu.1 c), tryReexec_pursued v hu.1 hu.2⟩).2

/-- A running order that is recomputed, in a state whose tenant is as it was. -/
theorem recompute_pursued {s : State} {t : Tenant} {o : Order} (h : runOrder s t = some o) :
    Pursued (s.spBad = [] ∧ ∀ i ∈ o.ins, i.landed = true → inputGone i = false) t o.seq (recompute s t) := by
  let p : Order := { o with reexec := true, recomputed := true }
  have stopped := dropPending_foot (m := 0x300) _ t (by decide) (quiet_foot (setOrder s t p) t (by decide) (Foot.refl _ _))
  have set : Awaits (s.spBad = [] ∧ ∀ i ∈ o.ins, i.landed = true → inputGone i = false) t o.seq (setOrder s t p) :=
    runsAs_setOrder (p := p) h rfl (show o.st = .running from running_of_runOrder h) ⟨rfl, And.right⟩
  have first := set.of_ten (ten_of_tenants (stopped.2 .tenants (by decide)) t)
  have sound : (s.spBad = [] ∧ ∀ i ∈ o.ins, i.landed = true → inputGone i = false) →
      (dropPending (quiet (setOrder s t p) t) t).spBad = [] := fun c => Eq.trans (stopped.2 .spBad (by decide)) c.1
  have tried := tryReexecAll_pursued (fun c => tryReexec_spBad_nil t (sound c)) (tryReexec_pursued t sound (.inl first))
  unfold recompute
  rw [h]
  dsimp only
  split
  · exact ite_keeps (tried.of_ten (ten_of_tenants ((logEvent_foot _ _ _ _ _ _ _ (Nat.or_self _) (Foot.refl _ _)).2 .tenants (by decide)) t)) tried
  · exact tried

/-- What the pursuit of a recomputed order comes to. -/
theorem Pursued.outcome {clean : Prop} {t : Tenant} {q : Word} {u : State} (h : Pursued clean t q u) :
    let again := ∃ o, runOrder u t = some o ∧ o.seq = q ∧ o.recomputed = true
    (again ∨ abortedWith u t q 0x0B) ∧ (clean → again) := by
  rcases h with ⟨o, ho, hseq, -, hc, -⟩ | ⟨o, ho, hseq, -, hc, -⟩ | ⟨hn, h⟩
  · exact ⟨.inl ⟨o, ho, hseq, hc⟩, fun _ => ⟨o, ho, hseq, hc⟩⟩
  · exact ⟨.inl ⟨o, ho, hseq, hc⟩, fun _ => ⟨o, ho, hseq, hc⟩⟩
  · exact ⟨.inr h, fun c => absurd c hn⟩

end Sys2Proof.Machine
end

