-- ==== Sys2Proof/Proofs/TileServices.lean ====
section
/-! SUPPORT. Service states and fault counts of tiles, and the logical positions: what the takeover of a tile keeps (R64–R66). -/

namespace Sys2Proof.Machine

/-- Every tile has the service state and the fault count in `u` that it has in `s`. -/
def SameService (s u : State) : Prop := ∀ q, (tile u q).service = (tile s q).service ∧ (tile u q).faults = (tile s q).faults

namespace SameService
variable {z s u : State}

theorem refl (s : State) : SameService s s := fun _ => ⟨rfl, rfl⟩

theorem trans (h : SameService z s) (g : SameService s u) : SameService z u := fun q => ⟨(g q).1.trans (h q).1, (g q).2.trans (h q).2⟩

/-- A step that changes no tile at all. -/
theorem frame {m : Nat} (h : Foot m s u) (hm : m.testBit 2 = false) : SameService s u := fun q => by
  rw [tile_of_tiles (h.2 .tiles hm)]
  exact ⟨rfl, rfl⟩

theorem modTile (s : State) (p : Nat) {f : Tile → Tile} (hf : ∀ x, (f x).service = x.service ∧ (f x).faults = x.faults) :
    SameService s (Machine.modTile s p f) := fun q => by
  rw [Machine.tile_modTile]
  split
  · next hq => rw [hq]; exact hf _
  · exact ⟨rfl, rfl⟩

theorem foldl {α : Type} {f : State → α → State} (hf : ∀ u a, SameService u (f u a)) (l : List α) (s : State) :
    SameService s (l.foldl f s) :=
  List.foldlRecOn l f (refl s) fun u hu a _ => hu.trans (hf u a)

end SameService

/-! ### Polders that wake and go off -/

theorem awaken_sameService (s : State) (p : Nat) (r : Fin 8) (off : Bool) : SameService s (awaken s p r off) := by
  have hclear : SameService s (if off then clearTile s p else s) := by
    split
    · exact SameService.frame (clearTile_foot s p (Nat.or_self _) (Foot.refl _ s)) (by decide)
    · exact SameService.refl s
  exact hclear.trans ((SameService.modTile _ p (f := fun x => { x with polder := .awake r, bermValid := x.bermValid && !off })
    fun _ => ⟨rfl, rfl⟩).trans (SameService.frame (openNi_foot _ _ (Nat.or_self _) (Foot.refl _ _)) (by decide)))

theorem wakePolder_sameService (s : State) (p : Nat) : SameService s (wakePolder s p) := by
  unfold wakePolder
  split
  · exact SameService.modTile s p fun _ => ⟨rfl, rfl⟩
  · exact SameService.modTile s p fun _ => ⟨rfl, rfl⟩
  · split
    · exact awaken_sameService s p _ _
    · exact SameService.modTile s p fun _ => ⟨rfl, rfl⟩
  · exact SameService.refl s

theorem retargetFab_sameService (s : State) : SameService s (retargetFab s) :=
  SameService.frame (retargetFab_foot s (Nat.or_self _) (Foot.refl _ s)) (by decide)

theorem polderOff_sameService (s : State) (p : Nat) : SameService s (polderOff s p) :=
  (SameService.frame (clearTile_foot s p (Nat.or_self _) (Foot.refl _ s)) (by decide)).trans
    ((SameService.modTile _ p (f := fun x => { x with polder := .off, bermValid := false }) fun _ => ⟨rfl, rfl⟩).trans
      ((SameService.frame (setNiSt_foot _ _ _ (Nat.or_self _) (Foot.refl _ _)) (by decide)).trans (retargetFab_sameService _)))

theorem powerDown_sameService (s : State) (p : Nat) (r : FenceReason) : SameService s (powerDown s p r) := by
  unfold powerDown
  split
  · exact SameService.refl s
  · split
    · exact SameService.frame (closeNi_foot s _ r (Nat.or_self _) (Foot.refl _ s)) (by decide)
    · exact SameService.frame (setNiSt_foot s _ _ (Nat.or_self _) (Foot.refl _ s)) (by decide)
    · exact polderOff_sameService s p

theorem wakeTenant_sameService (s : State) (t : Tenant) : SameService s (wakeTenant s t) := by
  have hwake : ∀ u : State, SameService u (retargetFab ((physTiles u (ownTiles u t)).foldl (fun v p => wakePolder v p.val) u)) :=
    fun u => (SameService.foldl (fun v (p : TileId) => wakePolder_sameService v p.val) _ u).trans (retargetFab_sameService _)
  unfold wakeTenant
  dsimp only
  cases seqOf s t with
  | none => exact hwake s
  | some q => exact (SameService.frame (openGate_foot s q.val (Nat.or_self _) (Foot.refl _ s)) (by decide)).trans (hwake _)

theorem kick_sameService (s : State) (t : Tenant) : SameService s (kick s t) := by
  unfold kick
  split
  · exact (wakeTenant_sameService s t).trans (SameService.frame (modTen_foot _ t _ (Nat.or_self _) (Foot.refl _ _)) (by decide))
  · exact SameService.refl s

/-! ### Orders that settle or run again -/

theorem endWindow_sameService (s : State) (t : Tenant) : SameService s (endWindow s t) := by
  have hfold := SameService.foldl (fun u p => SameService.modTile u p.val (f := fun x => { x with errorOpen := false })
    fun _ => ⟨rfl, rfl⟩) (physTiles s (ownTiles s t)) s
  unfold endWindow
  dsimp only
  split
  · exact hfold.trans (SameService.frame (modSqr_foot _ _ _ (Nat.or_self _) (Foot.refl _ _)) (by decide))
  · exact hfold

theorem settle_sameService (s : State) (t : Tenant) (o : Order) (r : Record) : SameService s (settle s t o r) := by
  unfold settle
  dsimp only
  generalize hx : storeRecords _ t _ = x
  have hstore : SameService s x := by
    subst hx
    exact SameService.frame (storeRecords_foot (m := 0x254801) _ t _ (by decide)
      (journalWrite_foot _ t (by decide) (modTen_foot s t _ (by decide) (Foot.refl _ s)))) (by decide)
  split
  · exact hstore.trans ((SameService.frame (dropCtx_foot (m := 0x300) _ t (by decide) (quiet_foot x t (by decide) (Foot.refl _ x)))
      (by decide)).trans ((endWindow_sameService _ t).trans
        (SameService.frame (placeFrame_foot _ t (Nat.or_self _) (Foot.refl _ _)) (by decide))))
  · exact hstore

theorem abortOrder_sameService (s : State) (t : Tenant) (o : Order) (c : Byte) : SameService s (abortOrder s t o c) :=
  (SameService.frame (dropFrames_foot s t o.seq (Nat.or_self _) (Foot.refl _ s)) (by decide)).trans (settle_sameService _ t o _)

theorem scrubTiles_sameService (s : State) (ps : List TileId) : SameService s (scrubTiles s ps) := by
  unfold scrubTiles
  dsimp only
  generalize hx : ps.foldl _ (List.foldl _ s _) = x
  have hpe : Foot 0x90 s x := by
    subst hx
    exact Foot.foldl (Foot.foldl (Foot.refl _ s) fun u r h => scramble_foot u ps r (by decide) h) fun u p h =>
      Foot.foldl h fun v i h => setPe_foot v _ _ (by decide) h
  refine (SameService.frame hpe (by decide)).trans ((SameService.foldl (fun u p => ?_) ps x).trans
    (SameService.frame (bump_foot _ (Nat.or_self _) (Foot.refl _ _)) (by decide)))
  exact (SameService.frame (Foot.up_peBad (m := 0x40) (Foot.refl _ u) (by decide)) (by decide)).trans
    (SameService.modTile _ p.val fun _ => ⟨rfl, rfl⟩)

theorem reexecNow_sameService (s : State) (t : Tenant) (o : Order) (q : SeqId) : SameService s (reexecNow s t o q) := by
  obtain ⟨s2, b, hfirst, hlast⟩ := reexecNow_stages s t o q
  have hmarks := SameService.foldl (fun u p => SameService.modTile u p.val (f := fun x => { x with reclaimed := b })
    fun _ => ⟨rfl, rfl⟩) (physTiles s (ownTiles s t)) s2
  exact (SameService.frame (openGate_foot s q.val (Nat.or_self _) (Foot.refl _ s)) (by decide)).trans
    ((scrubTiles_sameService _ _).trans ((SameService.frame hfirst (by decide)).trans
      (hmarks.trans (SameService.frame hlast (by decide)))))

theorem tryReexec_sameService (s : State) (t : Tenant) : SameService s (tryReexec s t) := by
  obtain hs | ⟨o, q, -, -, hs⟩ := tryReexec_cases s t
  · rw [hs]
    exact SameService.refl s
  have first : SameService s (setOrder (readBack s t o).1 t (readBack s t o).2) :=
    SameService.frame (setOrder_foot (m := 0x800100801) _ t _ (by decide) (readBack_foot s t o (by decide) (Foot.refl _ s))) (by decide)
  rcases hs with ⟨hs, -⟩ | hs
  · rw [hs]
    exact first.trans ((abortOrder_sameService _ t _ 0x0B).trans (kick_sameService _ t))
  · rw [hs]
    exact first.trans (reexecNow_sameService _ t _ q)

theorem tryReexecAll_sameService (s : State) : SameService s (tryReexecAll s) :=
  SameService.foldl tryReexec_sameService _ s

theorem tryReexecAll_samePolders (s : State) : SamePolders s (tryReexecAll s) :=
  SamePolders.foldl tryReexec_samePolders _ s

/-! ### What a takeover keeps of the tiles -/

/-- Service states, fault counts and polders are the same. -/
def SameTiles (s u : State) : Prop := SameService s u ∧ SamePolders s u

theorem SameTiles.trans {z s u : State} (h : SameTiles z s) (g : SameTiles s u) : SameTiles z u := ⟨h.1.trans g.1, h.2.trans g.2⟩

theorem SameTiles.frame {m : Nat} {s u : State} (h : Foot m s u) (hm : m.testBit 2 = false) : SameTiles s u :=
  ⟨SameService.frame h hm, SamePolders.frame h hm⟩

theorem tryReexec_sameTiles (s : State) (t : Tenant) : SameTiles s (tryReexec s t) := ⟨tryReexec_sameService s t, tryReexec_samePolders s t⟩

theorem tryReexecAll_sameTiles (s : State) : SameTiles s (tryReexecAll s) := ⟨tryReexecAll_sameService s, tryReexecAll_samePolders s⟩

theorem recompute_sameTiles (s : State) (t : Tenant) : SameTiles s (recompute s t) := by
  unfold recompute
  split
  · exact SameTiles.frame (Foot.refl 0 s) (by decide)
  · dsimp only
    generalize hx : dropPending _ t = x
    have first : SameTiles s x := by
      subst hx
      exact SameTiles.frame (dropPending_foot (m := 0xB00) _ t (by decide) (quiet_foot _ t (by decide)
        (setOrder_foot s t _ (by decide) (Foot.refl _ s)))) (by decide)
    have tried := first.trans ((tryReexec_sameTiles x t).trans (tryReexecAll_sameTiles _))
    split
    · exact ite_keeps (tried.trans (SameTiles.frame (logEvent_foot _ _ _ _ _ _ _ (Nat.or_self _) (Foot.refl _ _)) (by decide))) tried
    · exact tried

end Sys2Proof.Machine
end

