-- ==== Sys2Proof/Proofs/TilesReplacedAndMarched.lean ====
section
/-! O31: a faulted tile is replaced, and marches return or fail it (R64–R66, R210, R236). -/

namespace Sys2Proof.Machine

open Sys2Proof

/-! ### Emergencies and marks -/

/-- Tenants differ in the count of suppressed emergencies alone. -/
def Suppressed (s u : State) : Prop := ∀ t, ∃ k, ten u t = { ten s t with suppressed := k }

namespace Suppressed
variable {z s u : State}

theorem of_tenants (h : u.tenants = s.tenants) : Suppressed s u := fun t => ⟨_, ten_of_tenants h t⟩

theorem trans (h : Suppressed z s) (g : Suppressed s u) : Suppressed z u := fun t => by
  obtain ⟨a, ha⟩ := h t
  obtain ⟨b, hb⟩ := g t
  exact ⟨b, by rw [hb, ha]⟩

theorem suppress (s : State) (t : Tenant) : Suppressed s (modTen s t fun v => { v with suppressed := satInc v.suppressed }) := fun v => by
  by_cases hv : v = t
  · exact ⟨_, by rw [hv, ten_modTen_same]⟩
  · exact ⟨_, ten_modTen_ne s _ hv⟩

end Suppressed

theorem emcyTo_suppressed (s : State) (k : SesId) (c : Half) (d : Bytes) : Suppressed s (emcyTo s k c d) := by
  unfold emcyTo
  dsimp only
  refine ite_keeps (.of_tenants rfl) (ite_keeps (.of_tenants rfl) (ite_keeps (.suppress s _) (ite_keeps ?_ (.of_tenants rfl))))
  exact Suppressed.trans (.of_tenants rfl) (.suppress _ _)

theorem emergency_suppressed (s : State) (ts : List Tenant) (c : Half) (d : Bytes) : Suppressed s (emergency s ts c d) :=
  List.foldlRecOn ts _ (.of_tenants rfl) fun _ hu _ _ =>
    hu.trans (ite_keeps (Suppressed.trans (emcyTo_suppressed _ _ _ _) (emcyTo_suppressed _ _ _ _)) (emcyTo_suppressed _ _ _ _))

/-- The tide mark of PART_FAULT and its emergencies leave tiles, positions and orders. -/
theorem partFault_suppressed (s : State) (ts : List Tenant) (k n b : Nat) : Suppressed s (takeMark (partFault s ts k n b)) :=
  (emergency_suppressed s _ _ _).trans (.of_tenants ((takeMark_foot (m := 0x808000001) _ (by decide)
    (tideFault_foot _ 0 0x5010 (by decide) (Foot.refl _ _))).2 .tenants (by decide)))

theorem partFault_foot_marked (s : State) (ts : List Tenant) (k n b : Nat) : Foot 0x828000801 s (takeMark (partFault s ts k n b)) :=
  takeMark_foot _ (by decide) (partFault_foot s ts k n b (by decide) (Foot.refl _ s))

/-! ### Tiles and positions -/

theorem physOf_of_map {s u : State} (h : u.map = s.map) (n : Nat) : physOf u n = physOf s n := by
  rw [physOf, h]
  rfl

theorem tile_logEvent (s : State) (c : Half) (v : BitVec 2) (ts : List Tenant) (i a : Nat) (b : Bytes) (q : Nat) :
    tile (logEvent s c v ts i a b) q = tile s q := rfl

theorem tile_setTileSvc (s : State) (p : TileId) (v : TileService) (q : Nat) :
    tile (setTileSvc s p v) q = if q = p.val then { tile s p.val with service := v } else tile s q := by
  rw [setTileSvc, tile_logEvent, tile_modTile]

theorem tile_wakePolder_ne (s : State) {p q : Nat} (h : q ≠ p) : tile (wakePolder s p) q = tile s q := by
  unfold wakePolder
  split
  · exact tile_modTile_ne s _ h
  · exact tile_modTile_ne s _ h
  · split
    · rw [tile_awaken, if_neg h]
    · exact tile_modTile_ne s _ h
  · rfl

theorem isOff_iff (x : Polder) : x.isOff = true ↔ x = .off := by
  cases x <;> simp [Polder.isOff]

/-- The tile is out of service: it drains or, with its power off, waits for its march, and its fault count is one higher. -/
def TakenOut (s : State) (p : TileId) (u : State) : Prop :=
  (tile u p.val).faults = satInc (tile s p.val).faults ∧
    ((tile u p.val).service = .draining ∨ (tile u p.val).service = .retest ∧ (tile u p.val).polder = .off)

theorem TakenOut.of_sameTiles {s u w : State} {p : TileId} (h : TakenOut s p u) (g : SameTiles u w) : TakenOut s p w := by
  obtain ⟨hf, hs⟩ := h
  obtain ⟨service, polder⟩ := g
  exact ⟨(service p.val).2.trans hf, hs.imp (service p.val).1.trans fun ⟨hr, ho⟩ => ⟨(service p.val).1.trans hr, (polder p.val).trans ho⟩⟩

/-- The faulted tile goes to DRAINING and its power is asked down. -/
def drainTile (s : State) (p : TileId) : State :=
  let s1 := setTileSvc (modTile s p.val fun x => { x with faults := satInc x.faults, errorOpen := false }) p .draining
  if (tile s p.val).polder.isOff then s1 else powerDown s1 p.val .draining

theorem drainTile_foot (s : State) (p : TileId) : Foot 0x8888000F4 s (drainTile s p) := by
  have first := setTileSvc_foot (m := 0x8888000F4) _ p .draining (by decide)
    (modTile_foot s p.val (fun x => { x with faults := satInc x.faults, errorOpen := false }) (by decide) (Foot.refl _ s))
  exact ite_keeps first (powerDown_foot _ p.val .draining (by decide) first)

theorem drainTile_service (s : State) (p : TileId) (q : Nat) :
    (tile (drainTile s p) q).service = (if q = p.val then .draining else (tile s q).service) ∧
      (tile (drainTile s p) q).faults = (if q = p.val then satInc (tile s q).faults else (tile s q).faults) := by
  let s1 := setTileSvc (modTile s p.val fun x => { x with faults := satInc x.faults, errorOpen := false }) p .draining
  have first : SameService s1 (drainTile s p) := ite_keeps (SameService.refl s1) (powerDown_sameService s1 p.val .draining)
  obtain ⟨hs, hf⟩ := first q
  rw [hs, hf, tile_setTileSvc, tile_modTile_same]
  by_cases hq : q = p.val
  · simp only [hq, if_true, and_self]
  · simp only [if_neg hq, tile_modTile_ne s _ hq, and_self]

/-- A tile that drains and is off waits for its march. -/
theorem takenOut_drained {s u : State} {p : TileId} {off : Bool} (hs : (tile u p.val).service = .draining)
    (hf : (tile u p.val).faults = satInc (tile s p.val).faults) (ho : off = true → (tile u p.val).polder.isOff = true) :
    TakenOut s p (if off then tileDrained u p else u) := by
  cases off with
  | false => exact ⟨hf, .inl hs⟩
  | true =>
    have own : tile (tileDrained u p) p.val = { tile u p.val with passes := 0, service := .retest } := by
      rw [tileDrained, if_pos hs, tile_setTileSvc, if_pos rfl, tile_modTile_same]
    rw [if_pos rfl, TakenOut, own]
    exact ⟨hf, .inr ⟨rfl, (isOff_iff _).mp (ho rfl)⟩⟩

theorem tile_drained_ne (u : State) {p : TileId} (off : Bool) {q : Nat} (h : q ≠ p.val) :
    tile (if off then tileDrained u p else u) q = tile u q := by
  refine ite_keeps (Q := fun w => tile w q = tile u q) ?_ rfl
  refine ite_keeps (Q := fun w => tile w q = tile u q) ?_ rfl
  rw [tile_setTileSvc, if_neg h, tile_modTile_ne _ _ h]

/-! ### Every order leaves -/

/-- The order of a number, if there is one, is aborted. -/
def abortNumber (t : Tenant) (c : Byte) (u : State) (q : Word) : State :=
  match getOrder u t q with
  | some o => abortOrder u t o c
  | none => u

theorem abortAllOrders_eq (s : State) (t : Tenant) (c : Byte) :
    abortAllOrders s t c = afterSettle (((ten s t).orders.map Order.seq).foldl (abortNumber t c) s) t := rfl

/-- While the orders of a tenant are aborted one after the other: those left are of the numbers `l`, and each of the numbers `all` is
settled or still an order's. -/
structure Leaving (t : Tenant) (c : Byte) (lost : Bool) (all l : List Word) (u : State) : Prop where
  left : ∀ o ∈ (ten u t).orders, o.seq ∈ l
  each : ∀ q ∈ all, Settled t q 2 c u ∨ ∃ o ∈ (ten u t).orders, o.seq = q
  lost : (ten u t).lost = lost

theorem Leaving.abort {t : Tenant} {c : Byte} {lost : Bool} {all l : List Word} {u : State} {q : Word} (h : Leaving t c lost all (q :: l) u) :
    Leaving t c lost all l (abortNumber t c u q) := by
  unfold abortNumber
  cases hg : getOrder u t q with
  | none =>
    have absent : ∀ o ∈ (ten u t).orders, o.seq ≠ q := fun o ho => by simpa using List.find?_eq_none.mp hg o ho
    exact ⟨fun o ho => (List.mem_cons.mp (h.left o ho)).resolve_left (absent o ho), h.each, h.lost⟩
  | some o =>
    have hseq : o.seq = q := by simpa using List.find?_some hg
    obtain ⟨-, r, -, -, -, own⟩ := abortOrder_ten u t o c
    obtain ⟨orders, hlost⟩ := settledTen_orders (ten u t) o r
    have horders : (ten (abortOrder u t o c) t).orders = (ten u t).orders.filter fun p => decide (p.seq ≠ o.seq) := by
      rw [own]
      exact orders
    refine ⟨fun p hp => ?_, fun p hp => ?_, ?_⟩
    · rw [horders] at hp
      obtain ⟨hp, hne⟩ := List.mem_filter.mp hp
      exact (List.mem_cons.mp (h.left p hp)).resolve_left (by simpa [hseq] using hne)
    · by_cases hpq : p = q
      · exact .inl (settled_abortOrder (.inr ⟨hseq.trans hpq.symm, rfl, rfl⟩))
      · refine (h.each p hp).imp (fun hs => settled_abortOrder (.inl hs)) fun ⟨x, hx, hxp⟩ => ⟨x, ?_, hxp⟩
        rw [horders]
        exact List.mem_filter.mpr ⟨hx, by simpa [hseq, hxp] using hpq⟩
    · rw [own]
      exact hlost.trans h.lost

theorem Leaving.abortAll {t : Tenant} {c : Byte} {lost : Bool} {all : List Word} {l : List Word} {u : State} (h : Leaving t c lost all l u) :
    Leaving t c lost all [] (l.foldl (abortNumber t c) u) := by
  induction l generalizing u with
  | nil => exact h
  | cons q l ih => exact ih h.abort

theorem tryReexecAll_idle {s : State} {t : Tenant} (h : (ten s t).orders = []) : ten (tryReexecAll s) t = ten s t := by
  refine List.foldlRecOn (motive := fun u : State => ten u t = ten s t) _ _ rfl fun u hu v _ => ?_
  by_cases hv : t = v
  · subst hv
    rw [tryReexec_of_idle (by simp [runOrder, hu, h]), hu]
  · rw [tryReexec_othersKept u v t hv, hu]

/-- With no order left the settling of orders is over once the waiting re-executions have been tried. -/
theorem afterSettle_idle {s : State} {t : Tenant} (h : (ten s t).orders = []) : afterSettle s t = tryReexecAll s := by
  have none : (ten (tryReexecAll s) t).orders = [] := by rw [tryReexecAll_idle h, h]
  have land : landOldest (tryReexecAll s) t = tryReexecAll s := by rw [landOldest, none]
  rw [afterSettle, land, kick, readyOrder, none]

theorem abortNumber_sameTiles (t : Tenant) (c : Byte) (u : State) (q : Word) : SameTiles u (abortNumber t c u q) := by
  unfold abortNumber
  split
  · exact ⟨abortOrder_sameService u t _ c, abortOrder_samePolders u t _ c⟩
  · exact SameTiles.frame (Foot.refl 0 u) (by decide)

theorem abortAllOrders_leave (s : State) (t : Tenant) (c : Byte) : Leaving t c (ten s t).lost ((ten s t).orders.map Order.seq) []
    (abortAllOrders s t c) ∧ SameTiles s (abortAllOrders s t c) := by
  have start : Leaving t c (ten s t).lost ((ten s t).orders.map Order.seq) ((ten s t).orders.map Order.seq) s :=
    ⟨fun o ho => List.mem_map_of_mem ho, fun q hq => .inr (List.mem_map.mp hq), rfl⟩
  have gone := start.abortAll
  have tiles : SameTiles s (((ten s t).orders.map Order.seq).foldl (abortNumber t c) s) :=
    List.foldlRecOn _ _ (SameTiles.frame (Foot.refl 0 s) (by decide)) fun u hu q _ => hu.trans (abortNumber_sameTiles t c u q)
  rw [abortAllOrders_eq]
  generalize List.foldl _ s _ = u at gone tiles
  have idle : (ten u t).orders = [] := List.eq_nil_iff_forall_not_mem.mpr fun o ho => nomatch gone.left o ho
  have kept := tryReexecAll_idle idle
  rw [afterSettle_idle idle]
  refine ⟨⟨?_, fun q hq => ?_, ?_⟩, tiles.trans (tryReexecAll_sameTiles u)⟩
  · rw [kept]
    exact gone.left
  · rw [kept, Settled, kept]
    exact gone.each q hq
  · rw [kept]
    exact gone.lost

/-! ### The takeover -/

/-- The spare takes the logical position of the tile that drains. -/
def spareTakes (s : State) (p : TileId) (n : Nat) (c : TileId) : State :=
  let s3 := setTileSvc (modTile (setPhys (drainTile s p) n (some c)) c.val fun x => { x with
    bermValid := false, reclaimed := (tile s p.val).reclaimed, errorOpen := false }) c .inService
  let s4 := if (!(tile s p.val).polder.isOff && decide ((tile s p.val).polder ≠ .dark)) || (match ownerOf s p with
      | some t => (runOrder s t).isSome
      | none => false) then retargetFab (wakePolder s3 c.val) else s3
  sendClear (if (tile (drainTile s p) p.val).polder.isOff then tileDrained s4 p else s4) (tileNi p.val) (tileNi c.val) false

/-- The position of the tile that drains is lost. -/
def positionLost (s : State) (p : TileId) (n : Nat) : State :=
  let s3 := setPhys (drainTile s p) n none
  sendClear (if (tile (drainTile s p) p.val).polder.isOff then tileDrained s3 p else s3) (tileNi p.val) (tileNi p.val) true

theorem tileFault_spare {s : State} {p c : TileId} {n : Nat} (h : lposOf s p = some n) (hc : spareTile s = some c) :
    ∃ ts k, tileFault s p = partFault (match ownerOf s p with
      | some t => recompute (spareTakes s p n c) t
      | none => spareTakes s p n c) ts 0 p.val k := by
  unfold tileFault
  rw [h, hc]
  unfold spareTakes drainTile
  cases ownerOf s p with
  | some t => exact ⟨_, _, rfl⟩
  | none => exact ⟨_, _, rfl⟩

theorem tileFault_lost {s : State} {p : TileId} {n : Nat} (h : lposOf s p = some n) (hc : spareTile s = none) :
    ∃ ts k, tileFault s p = partFault (match ownerOf s p with
      | some t => abortAllOrders (modTen (positionLost s p n) t fun x => { x with lost := true }) t 0x05
      | none => positionLost s p n) ts 0 p.val k := by
  unfold tileFault
  rw [h, hc]
  unfold positionLost drainTile
  cases ownerOf s p with
  | some t => exact ⟨_, _, rfl⟩
  | none => exact ⟨_, _, rfl⟩

theorem spareTile_service {s : State} {c : TileId} (h : spareTile s = some c) : (tile s c.val).service = .spare := by
  simpa using List.find?_some h

/-- What the takeover establishes before the running order is recomputed. -/
structure Taken (s : State) (p : TileId) (n : Nat) (c : Option TileId) (u : State) : Prop where
  out : TakenOut s p u
  serves : ∀ d, c = some d → (tile u d.val).service = .inService
  phys : ∀ m, physOf u m = if m = n then c else physOf s m
  tenants : u.tenants = s.tenants
  spBad : u.spBad = s.spBad

theorem Taken.of_foot {s u w : State} {p : TileId} {n : Nat} {c : Option TileId} (h : Taken s p n c u) {m : Nat} (g : Foot m u w)
    (hm : m.testBit 2 = false ∧ m.testBit 3 = false ∧ m.testBit 11 = false ∧ m.testBit 15 = false) : Taken s p n c w := by
  obtain ⟨htile, hmap, hten, hbad⟩ := hm
  exact ⟨h.out.of_sameTiles (SameTiles.frame g htile), fun d hd => ((SameService.frame g htile d.val).1).trans (h.serves d hd),
    fun k => (physOf_of_map (g.2 .map hmap) k).trans (h.phys k), Eq.trans (g.2 .tenants hten) h.tenants, Eq.trans (g.2 .spBad hbad) h.spBad⟩

theorem drainTile_setPhys (s : State) (p : TileId) (n : Nat) (c : Option TileId) {u : State}
    (hu : Foot 0x8888000F4 (setPhys (drainTile s p) n c) u) : (∀ m, physOf u m = if m = n then c else physOf s m) ∧
      u.tenants = s.tenants ∧ u.spBad = s.spBad := by
  have first := drainTile_foot s p
  refine ⟨fun m => ?_, Eq.trans (hu.2 .tenants (by decide)) (first.2 .tenants (by decide)),
    Eq.trans (hu.2 .spBad (by decide)) (first.2 .spBad (by decide))⟩
  rw [physOf_of_map (hu.2 .map (by decide)), physOf_setPhys, physOf_of_map (first.2 .map (by decide))]

theorem spareTakes_taken {s : State} {p c : TileId} {n : Nat} (hs : (tile s p.val).service = .inService) (hc : spareTile s = some c) :
    Taken s p n (some c) (spareTakes s p n c) := by
  have hne : p.val ≠ c.val := fun e => by
    have spare := spareTile_service hc
    rw [← e, hs] at spare
    exact absurd spare (by decide)
  unfold spareTakes
  generalize hs3 : setTileSvc _ c .inService = s3
  dsimp only
  have f3 : Foot 0x8888000F4 (setPhys (drainTile s p) n (some c)) s3 := by
    subst hs3
    exact setTileSvc_foot _ c _ (by decide) (modTile_foot _ c.val _ (by decide) (Foot.refl _ _))
  have own3 : tile s3 p.val = tile (drainTile s p) p.val := by
    subst hs3
    rw [tile_setTileSvc, if_neg hne, tile_modTile_ne _ _ hne]
    rfl
  have spare3 : (tile s3 c.val).service = .inService := by
    subst hs3
    rw [tile_setTileSvc, if_pos rfl]
  generalize hs4 : (if (_ || _) = true then retargetFab (wakePolder s3 c.val) else s3) = s4
  have f4 : Foot 0x8888000F4 (setPhys (drainTile s p) n (some c)) s4 := by
    subst hs4
    exact Foot.ite (retargetFab_foot _ (by decide) (wakePolder_foot s3 c.val (by decide) f3)) f3
  have own4 : tile s4 p.val = tile s3 p.val ∧ (tile s4 c.val).service = (tile s3 c.val).service := by
    subst hs4
    refine ite_keeps (Q := fun u => tile u p.val = tile s3 p.val ∧ (tile u c.val).service = (tile s3 c.val).service)
      ⟨?_, (((wakePolder_sameService s3 c.val).trans (retargetFab_sameService _)) c.val).1⟩ ⟨rfl, rfl⟩
    rw [tile_of_tiles ((retargetFab_foot _ (Nat.or_self _) (Foot.refl _ _)).2 .tiles (by decide)), tile_wakePolder_ne s3 hne]
  obtain ⟨own4, spare4⟩ := own4
  have drained : tile s4 p.val = tile (drainTile s p) p.val := own4.trans own3
  obtain ⟨hservice, hfaults⟩ := drainTile_service s p p.val
  rw [if_pos rfl] at hservice hfaults
  obtain ⟨phys, tenants, bad⟩ := drainTile_setPhys s p n (some c) (u := if (tile (drainTile s p) p.val).polder.isOff = true then
    tileDrained s4 p else s4) (Foot.ite (tileDrained_foot s4 p (by decide) f4) f4)
  refine Taken.of_foot ⟨?_, fun d hd => ?_, phys, tenants, bad⟩ (sendClear_foot _ _ _ _ (Nat.or_self _) (Foot.refl _ _)) (by decide)
  · exact takenOut_drained (by rw [drained, hservice]) (by rw [drained, hfaults]) fun h => by rw [drained]; exact h
  · obtain rfl : c = d := Option.some.inj hd
    rw [tile_drained_ne s4 _ hne.symm, spare4, spare3]

theorem positionLost_taken {s : State} {p : TileId} (n : Nat) : Taken s p n none (positionLost s p n) := by
  obtain ⟨hservice, hfaults⟩ := drainTile_service s p p.val
  rw [if_pos rfl] at hservice hfaults
  have f : Foot 0x8888000F4 (setPhys (drainTile s p) n none) (if (tile (drainTile s p) p.val).polder.isOff = true then
      tileDrained (setPhys (drainTile s p) n none) p else setPhys (drainTile s p) n none) :=
    Foot.ite (tileDrained_foot _ p (by decide) (Foot.refl _ _)) (Foot.refl _ _)
  obtain ⟨phys, tenants, bad⟩ := drainTile_setPhys s p n none f
  refine Taken.of_foot ⟨?_, fun d hd => (nomatch hd), phys, tenants, bad⟩ (sendClear_foot _ _ _ _ (Nat.or_self _) (Foot.refl _ _)) (by decide)
  exact takenOut_drained hservice hfaults id

/-- What a takeover comes to whether or not a spare serves: the tile is out of service, and no other position changes. -/
structure TripOutcome (s : State) (p : TileId) (n : Nat) (c : Option TileId) (u : State) : Prop where
  out : TakenOut s p u
  serves : ∀ d, c = some d → (tile u d.val).service = .inService
  phys : ∀ m, physOf u m = if m = n then c else physOf s m

theorem Taken.outcome {s x y : State} {p : TileId} {n : Nat} {c : Option TileId} (h : Taken s p n c x) (tiles : SameTiles x y)
    (map : y.map = x.map) (ts : List Tenant) (a b k : Nat) : TripOutcome s p n c (takeMark (partFault y ts a b k)) := by
  have mark := partFault_foot_marked y ts a b k
  have same := tiles.trans (SameTiles.frame mark (by decide))
  exact ⟨h.out.of_sameTiles same, fun d hd => ((same.1 d.val).1).trans (h.serves d hd),
    fun m => (physOf_of_map (Eq.trans (mark.2 .map (by decide)) map) m).trans (h.phys m)⟩

theorem ownerOf_of_lposOf {s : State} {p : TileId} {n : Nat} (h : lposOf s p = some n) : ownerOf s p = tileOwner s n := by
  rw [ownerOf, h]
  rfl

theorem Suppressed.runOrder {s u : State} (h : Suppressed s u) (t : Tenant) : runOrder u t = Machine.runOrder s t := by
  obtain ⟨k, hk⟩ := h t
  rw [Machine.runOrder, hk]
  rfl

theorem Suppressed.abortedWith {s u : State} (h : Suppressed s u) (t : Tenant) (q : Word) (c : Byte) :
    abortedWith u t q c ↔ Machine.abortedWith s t q c := by
  obtain ⟨k, hk⟩ := h t
  rw [Machine.abortedWith, hk]
  rfl

theorem Suppressed.lost {s u : State} (h : Suppressed s u) (t : Tenant) : (ten u t).lost = (ten s t).lost := by
  obtain ⟨k, hk⟩ := h t
  rw [hk]

theorem Suppressed.orders {s u : State} (h : Suppressed s u) (t : Tenant) : (ten u t).orders = (ten s t).orders := by
  obtain ⟨k, hk⟩ := h t
  rw [hk]

theorem exec_polderMonitorTrip {s : State} {p : TileId} (h : (tile s p.val).service = .inService) :
    exec (.polderMonitorTrip p) s = .next (takeMark (tileFault s p)) := by
  have run : exec (.polderMonitorTrip p) s = .next (takeMark (if (tile s p.val).service = .inService then tileFault s p else s)) := rfl
  rw [run, if_pos h]

/-- A trip of a tile with a spare. -/
theorem trip_spare {s : State} {p c : TileId} {n : Nat} (hs : (tile s p.val).service = .inService) (h : lposOf s p = some n)
    (hc : spareTile s = some c) : ∃ u, exec (.polderMonitorTrip p) s = .next u ∧ TripOutcome s p n (some c) u ∧
      ∀ t o, tileOwner s n = some t → runOrder s t = some o →
        let again := ∃ o', runOrder u t = some o' ∧ o'.seq = o.seq ∧ o'.recomputed = true
        (again ∨ abortedWith u t o.seq 0x0B) ∧ (s.spBad = [] → (∀ i ∈ o.ins, i.landed = true → inputGone i = false) → again) := by
  obtain ⟨ts, k, hfault⟩ := tileFault_spare h hc
  have taken := spareTakes_taken (n := n) hs hc
  refine ⟨takeMark (tileFault s p), exec_polderMonitorTrip hs, ?_⟩
  rw [hfault, ownerOf_of_lposOf h]
  cases ht : tileOwner s n with
  | none => exact ⟨taken.outcome (SameTiles.frame (Foot.refl 0 _) (by decide)) rfl ts 0 p.val k, fun t o hto => nomatch hto⟩
  | some t =>
    have map := (recompute_foot (spareTakes s p n c) t (Nat.or_self _) (Foot.refl _ _)).2 .map (by decide)
    refine ⟨taken.outcome (recompute_sameTiles _ t) map ts 0 p.val k, fun t' o hto ho => ?_⟩
    obtain rfl : t = t' := Option.some.inj hto
    have run : runOrder (spareTakes s p n c) t = some o := by rw [runOrder, ten_of_tenants taken.tenants]; exact ho
    obtain ⟨either, again⟩ := (recompute_pursued run).outcome
    have marked := partFault_suppressed (recompute (spareTakes s p n c) t) ts 0 p.val k
    dsimp only
    rw [marked.runOrder t, marked.abortedWith t]
    exact ⟨either, fun hb hi => again ⟨Eq.trans taken.spBad hb, hi⟩⟩

/-- A trip of a tile with no spare left. -/
theorem trip_lost {s : State} {p : TileId} {n : Nat} (hs : (tile s p.val).service = .inService) (h : lposOf s p = some n)
    (hc : spareTile s = none) : ∃ u, exec (.polderMonitorTrip p) s = .next u ∧ TripOutcome s p n none u ∧
      ∀ t, tileOwner s n = some t → (ten u t).lost = true ∧ (ten u t).orders = [] ∧
        ∀ o ∈ (ten s t).orders, abortedWith u t o.seq 5 := by
  obtain ⟨ts, k, hfault⟩ := tileFault_lost h hc
  have taken := positionLost_taken (s := s) (p := p) n
  refine ⟨takeMark (tileFault s p), exec_polderMonitorTrip hs, ?_⟩
  rw [hfault, ownerOf_of_lposOf h]
  cases ht : tileOwner s n with
  | none => exact ⟨taken.outcome (SameTiles.frame (Foot.refl 0 _) (by decide)) rfl ts 0 p.val k, fun t hto => nomatch hto⟩
  | some t =>
    let y := modTen (positionLost s p n) t fun x => { x with lost := true }
    have foot := abortAllOrders_foot (m := 0x88CB5EBF5) y t 0x05 (by decide) (modTen_foot (positionLost s p n) t _ (by decide) (Foot.refl _ _))
    obtain ⟨leave, tiles⟩ := abortAllOrders_leave y t 0x05
    refine ⟨taken.outcome (y := abortAllOrders y t 0x05) tiles (foot.2 .map (by decide)) ts 0 p.val k, fun t' hto => ?_⟩
    obtain rfl : t = t' := Option.some.inj hto
    have lostTen : ten y t = { ten s t with lost := true } := by rw [ten_modTen_same, ten_of_tenants taken.tenants]
    have marked := partFault_suppressed (abortAllOrders y t 0x05) ts 0 p.val k
    have none : (ten (abortAllOrders y t 0x05) t).orders = [] := List.eq_nil_iff_forall_not_mem.mpr fun o ho => nomatch leave.left o ho
    refine ⟨?_, ?_, fun o ho => (marked.abortedWith t _ _).mpr ?_⟩
    · rw [marked.lost t, leave.lost, lostTen]
    · rw [marked.orders t, none]
    · refine (leave.each o.seq (List.mem_map_of_mem (by rw [lostTen]; exact ho))).resolve_right fun ⟨x, hx, _⟩ => ?_
      rw [none] at hx
      exact nomatch hx

/-! ### Marches -/

theorem setTileSvc_sameBut (s : State) (p : TileId) (f : Tile → Tile) (v : TileService) :
    sameBut [.tiles, .obs] s (setTileSvc (modTile s p.val f) p v) :=
  Foot.sameBut (setTileSvc_foot _ p v (by decide) (modTile_foot s p.val f (by decide) (Foot.refl _ s)))

/-- A tile that changes its service state, with its event. -/
theorem setTileSvc_becomes {s : State} {p : TileId} {f : Tile → Tile} {v : TileService} (hf : (f (tile s p.val)).service = (tile s p.val).service) :
    let u := setTileSvc (modTile s p.val f) p v
    tile u p.val = { f (tile s p.val) with service := v } ∧ (∀ r, r < 17 → r ≠ p.val → tile u r = tile s r) ∧
      logged s u 0x0101 p.val (v.code + 256 * (tile s p.val).service.code + 65536 * lposCode s p) := by
  refine ⟨?_, fun r _ hr => ?_, ⟨_, rfl, rfl, rfl, rfl, rfl, rfl, ?_⟩⟩
  · rw [tile_setTileSvc, if_pos rfl, tile_modTile_same]
  · rw [tile_setTileSvc, if_neg hr, tile_modTile_ne _ _ hr]
  · rw [tile_modTile_same, hf]
    rfl

theorem tileMarched_first {s : State} {p : TileId} (h : (tile s p.val).service = .retest) (h0 : (tile s p.val).passes = 0) :
    tileMarched s p true = modTile s p.val fun y => { y with passes := 1 } := by
  simp [tileMarched, h, h0]

theorem tileMarched_second {s : State} {p : TileId} (h : (tile s p.val).service = .retest) (h0 : (tile s p.val).passes ≠ 0) :
    tileMarched s p true = setTileSvc (modTile s p.val fun y => { y with passes := 0 }) p .spare := by
  simp [tileMarched, h, h0]

theorem tileMarched_failed {s : State} {p : TileId} (h : (tile s p.val).service = .retest) :
    tileMarched s p false = setTileSvc (modTile s p.val fun y => { y with faults := satInc y.faults, passes := 0 }) p .failed := by
  simp [tileMarched, h]

/-- Settles O31: the takeover is followed from the drained tile through the recomputation, or the loss of every order. -/
theorem tilesReplacedAndMarched : Obligations.TilesReplacedAndMarched := by
  unfold Obligations.TilesReplacedAndMarched
  constructor
  · intro s p n _ hs hl _
    have tripped : ∀ c u, TripOutcome s p n c u → (tile u p.val).faults = satInc (tile s p.val).faults ∧
        ((tile u p.val).service = .draining ∨ (tile u p.val).service = .retest) ∧
        ((tile u p.val).service = .retest → (tile u p.val).polder = .off) ∧ ∀ m, m ≠ n → physOf u m = physOf s m := by
      intro c u h
      obtain ⟨hf, hv⟩ := h.out
      refine ⟨hf, hv.imp_right And.left, fun hr => ?_, fun m hm => by rw [h.phys, if_neg hm]⟩
      rcases hv with hd | ⟨-, ho⟩
      · exact absurd (hd.symm.trans hr) (by decide)
      · exact ho
    cases hc : spareTile s with
    | some c =>
      obtain ⟨u, hu, h, orders⟩ := trip_spare hs hl hc
      obtain ⟨hf, hv, ho, hm⟩ := tripped _ u h
      refine ⟨u, hu, hf, hv, ho, hm, fun d hd => ?_, fun hn => nomatch hn⟩
      obtain rfl : c = d := Option.some.inj hd
      exact ⟨by rw [h.phys, if_pos rfl], h.serves c rfl, orders⟩
    | none =>
      obtain ⟨u, hu, h, orders⟩ := trip_lost hs hl hc
      obtain ⟨hf, hv, ho, hm⟩ := tripped _ u h
      exact ⟨u, hu, hf, hv, ho, hm, fun d hd => (nomatch hd), fun _ => ⟨by rw [h.phys, if_pos rfl], orders⟩⟩
  · intro s p ok
    have marched : ∀ ok, exec (.tileRetestMarchComplete p ok) s = .next (tileMarched s p ok) := fun _ => rfl
    have periodic : ∀ ok, exec (.sparePeriodicMarch p ok) s = .next (if (tile s p.val).service ≠ .spare ∨ ok = true then s
      else setTileSvc (modTile s p.val fun y => { y with faults := satInc y.faults }) p .failed) := fun _ => rfl
    dsimp only
    refine ⟨fun hs => ⟨fun h0 => ?_, fun h0 => ?_, ?_⟩, fun hs => ⟨?_, ?_⟩, fun hs => ?_, fun hs => ?_⟩
    · refine ⟨_, marched true, ?_⟩
      rw [tileMarched_first hs h0]
      refine ⟨⟨?_, fun r _ hr => tile_modTile_ne s _ hr, fun hne => absurd rfl hne⟩, ?_⟩
      · rw [tile_modTile_same]
      · exact Foot.sameBut (modTile_foot s p.val _ (by decide) (Foot.refl _ s))
    · refine ⟨_, marched true, ?_⟩
      rw [tileMarched_second hs h0]
      obtain ⟨own, others, event⟩ := setTileSvc_becomes (s := s) (p := p) (f := fun y => { y with passes := 0 }) (v := .spare) rfl
      exact ⟨⟨own, others, fun _ => event⟩, setTileSvc_sameBut s p _ _⟩
    · refine ⟨_, marched false, ?_⟩
      rw [tileMarched_failed hs]
      obtain ⟨own, others, event⟩ := setTileSvc_becomes (s := s) (p := p)
        (f := fun y => { y with faults := satInc y.faults, passes := 0 }) (v := .failed) rfl
      exact ⟨⟨own, others, fun _ => event⟩, setTileSvc_sameBut s p _ _⟩
    · refine ⟨s, ?_, ⟨rfl, fun _ _ _ => rfl, fun hne => absurd rfl hne⟩, sameBut.refl _ s⟩
      rw [periodic, if_pos (.inr rfl)]
    · refine ⟨_, periodic false, ?_⟩
      rw [if_neg (by simp [hs])]
      obtain ⟨own, others, event⟩ := setTileSvc_becomes (s := s) (p := p) (f := fun y => { y with faults := satInc y.faults })
        (v := .failed) rfl
      exact ⟨⟨own, others, fun _ => event⟩, setTileSvc_sameBut s p _ _⟩
    · rw [marched, tileMarched, if_pos hs]
    · rw [periodic, if_pos (.inl hs)]

end Sys2Proof.Machine
end

