-- ==== Sys2Proof/Proofs/NocGrowth.lean ====
section
/-! SUPPORT. Whatever moves in the network, an interface keeps the responses that it has sent, and no gate closes (R264, R270, R426). -/

namespace Sys2Proof.Machine

open Sys2Proof

/-- Every response that an interface has sent in `z` it has sent in `u`, and a gate that is open in `z` is open in `u`. -/
structure Grows (z u : State) : Prop where
  sent : ∀ n, (ni z n).sent ⊆ (ni u n).sent
  gated : ∀ b, z.clk.gated.getLsbD b = false → u.clk.gated.getLsbD b = false

namespace Grows
variable {z s u : State}

theorem refl (s : State) : Grows s s := ⟨fun _ => List.Subset.refl _, fun _ h => h⟩

theorem trans (h : Grows z s) (g : Grows s u) : Grows z u := ⟨fun n => List.Subset.trans (h.sent n) (g.sent n), fun b e => g.gated b (h.gated b e)⟩

/-- A step that changes no interface and no gate. -/
theorem of_eq (hn : u.noc.nis = s.noc.nis) (hc : u.clk = s.clk) : Grows s u :=
  ⟨fun n => by simp only [ni, hn]; exact List.Subset.refl _, fun b h => by rw [hc]; exact h⟩

theorem frame {m : Nat} (h : Foot m s u) (hm : m.testBit 23 = false ∧ m.testBit 31 = false) : Grows s u :=
  of_eq (congrArg Noc.nis (h.2 .noc hm.1)) (h.2 .clk hm.2)

theorem foldl {α : Type} {f : State → α → State} (hf : ∀ u a, Grows u (f u a)) (l : List α) (s : State) : Grows s (l.foldl f s) :=
  List.foldlRecOn l f (refl s) fun u hu a _ => hu.trans (hf u a)

end Grows

theorem modNi_grows (s : State) (n : Nat) {f : Ni → Ni} (hf : ∀ x, x.sent ⊆ (f x).sent) : Grows s (modNi s n f) := by
  refine ⟨fun k => ?_, fun _ h => h⟩
  by_cases hk : k = n
  · rw [hk, ni_modNi_same]
    exact hf _
  · rw [ni_modNi_ne s f hk]
    exact List.Subset.refl _

/-! ### Interfaces and gates -/

theorem setNiSt_grows (s : State) (n : Nat) (st : NiState) : Grows s (setNiSt s n st) :=
  ite_keeps (Grows.refl s) (ite_keeps (Grows.refl s) (modNi_grows s n fun _ => List.Subset.refl _))

theorem closeNi_grows (s : State) (n : Nat) (r : FenceReason) : Grows s (closeNi s n r) := by
  unfold closeNi
  split
  · exact modNi_grows s n fun _ => List.Subset.refl _
  · exact Grows.refl s

theorem openNi_grows (s : State) (n : NiId) : Grows s (openNi s n) := by
  have opened : ∀ u : State, Grows u (if (ni (setNiSt u n.val .opened) n.val).st = .opened then
      sendClear (setNiSt u n.val .opened) n n false else setNiSt u n.val .opened) := fun u =>
    ite_keeps ((setNiSt_grows u n.val .opened).trans (Grows.of_eq rfl rfl)) (setNiSt_grows u n.val .opened)
  unfold openNi
  split
  · exact opened s
  · exact opened s
  · exact Grows.refl s

theorem openGates_grows (s : State) (l : List NiId) : Grows s (l.foldl (fun u n => match (ni u n.val).st with
    | .drained .dark => openNi u n
    | .fenced .dark => openNi u n
    | _ => u) s) := by
  refine Grows.foldl (fun u n => ?_) l s
  split
  · exact openNi_grows u n
  · exact openNi_grows u n
  · exact Grows.refl u

theorem openGate_grows (s : State) (b : Nat) : Grows s (openGate s b) := by
  have hopen : Grows s { s with clk := { s.clk with gated := s.clk.gated &&& ~~~(1#25 <<< b) } } :=
    ⟨fun _ => List.Subset.refl _, fun k h => by simp [h]⟩
  exact hopen.trans (openGates_grows _ _)

theorem gated_openGate (s : State) {b : Nat} (h : b < 25) : (openGate s b).clk.gated.getLsbD b = false := by
  refine (openGates_grows { s with clk := { s.clk with gated := s.clk.gated &&& ~~~(1#25 <<< b) } } (gateNis b)).gated b ?_
  simp [h]

theorem retargetFab_grows (s : State) : Grows s (retargetFab s) :=
  (Grows.foldl openGate_grows _ s).trans (Grows.of_eq rfl rfl)

theorem wakePolder_grows (s : State) (p : Nat) : Grows s (wakePolder s p) := by
  have awake : ∀ r, Grows s (awaken s p r false) := fun r =>
    (Grows.frame (modTile_foot s p (fun x => { x with polder := .awake r, bermValid := x.bermValid && !false }) (Nat.or_self _) (Foot.refl _ s))
      (by decide)).trans (openNi_grows _ _)
  have tile : ∀ f, Grows s (modTile s p f) := fun f => Grows.frame (modTile_foot s p f (Nat.or_self _) (Foot.refl _ s)) (by decide)
  unfold wakePolder
  split
  · exact tile _
  · exact tile _
  · exact ite_keeps (awake _) (tile _)
  · exact Grows.refl s

theorem wakeTenant_grows (s : State) (t : Tenant) : Grows s (wakeTenant s t) := by
  have hwake : ∀ u : State, Grows u (retargetFab ((physTiles u (ownTiles u t)).foldl (fun v p => wakePolder v p.val) u)) :=
    fun u => (Grows.foldl (fun v (p : TileId) => wakePolder_grows v p.val) _ u).trans (retargetFab_grows _)
  unfold wakeTenant
  dsimp only
  split
  · exact (openGate_grows s _).trans (hwake _)
  · exact hwake s

theorem kick_grows (s : State) (t : Tenant) : Grows s (kick s t) := by
  unfold kick
  split
  · exact (wakeTenant_grows s t).trans (Grows.frame (modTen_foot _ t _ (Nat.or_self _) (Foot.refl _ _)) (by decide))
  · exact Grows.refl s

/-! ### Orders -/

theorem modOrder_grows (s : State) (t : Tenant) (q : Word) (f : Order → Order) : Grows s (modOrder s t q f) :=
  Grows.frame (modOrder_foot s t q f (Nat.or_self _) (Foot.refl _ s)) (by decide)

theorem reexecKeeps_grows (t : Tenant) (q : Word) (s : State) : ReexecKeeps t q (Grows s) where
  frame h hm hu := hu.trans (Grows.frame h hm.2.2)
  nacks _ _ hu := hu.trans (Grows.of_eq rfl rfl)
  order u f _ hu := hu.trans (modOrder_grows u t q f)
  reland u bs hu := hu.trans (Grows.frame (reland_foot u t q bs (Nat.or_self _) (Foot.refl _ u)) (by decide))

theorem setOrder_grows (s : State) (t : Tenant) (o : Order) : Grows s (setOrder s t o) :=
  Grows.frame (setOrder_foot s t o (Nat.or_self _) (Foot.refl _ s)) (by decide)

theorem abortOrder_grows (s : State) (t : Tenant) (o : Order) (c : Byte) : Grows s (abortOrder s t o c) :=
  Grows.frame (abortOrder_foot s t o c (Nat.or_self _) (Foot.refl _ s)) (by decide)

theorem reexecNow_grows (s : State) (t : Tenant) (o : Order) (q : SeqId) : Grows s (reexecNow s t o q) :=
  (reexecKeeps_grows t o.seq s).reexecNow s q fun u o' hu _ =>
    (openGate_grows s q.val).trans ((Grows.frame hu (by decide)).trans (setOrder_grows u t o'))

theorem tryReexec_grows (s : State) (t : Tenant) : Grows s (tryReexec s t) := by
  obtain hs | ⟨o, q, -, -, hs⟩ := tryReexec_cases s t
  · rw [hs]
    exact Grows.refl s
  have first : Grows s (setOrder (readBack s t o).1 t (readBack s t o).2) :=
    (Grows.frame (readBack_foot s t o (Nat.or_self _) (Foot.refl _ s)) (by decide)).trans (setOrder_grows _ t _)
  rcases hs with ⟨hs, -⟩ | hs
  · rw [hs]
    exact first.trans ((abortOrder_grows _ t _ 0x0B).trans (kick_grows _ t))
  · rw [hs]
    exact first.trans (reexecNow_grows _ t _ q)

theorem tryReexecAll_grows (s : State) : Grows s (tryReexecAll s) := Grows.foldl tryReexec_grows _ s

theorem logEvent_grows (s : State) (c : Half) (v : BitVec 2) (ts : List Tenant) (i a : Nat) (b : Bytes) : Grows s (logEvent s c v ts i a b) :=
  Grows.frame (logEvent_foot s c v ts i a b (Nat.or_self _) (Foot.refl _ s)) (by decide)

theorem recompute_grows (s : State) (t : Tenant) : Grows s (recompute s t) := by
  unfold recompute
  split
  · exact Grows.refl s
  · dsimp only
    generalize hx : dropPending _ t = x
    have stopped : Grows s x := by
      subst hx
      exact Grows.frame (dropPending_foot (m := 0xB00) _ t (by decide) (quiet_foot _ t (by decide)
        (setOrder_foot s t _ (by decide) (Foot.refl _ s)))) (by decide)
    have tried := stopped.trans ((tryReexec_grows x t).trans (tryReexecAll_grows _))
    split
    · exact ite_keeps (tried.trans (logEvent_grows ..)) tried
    · exact tried

theorem landOldest_grows (s : State) (t : Tenant) : Grows s (landOldest s t) := by
  unfold landOldest
  split
  · next o _ _ => exact Grows.foldl (fun u b => (reexecKeeps_grows t o.seq u).landBands u b (Grows.refl u)) _ s
  · exact Grows.refl s

theorem abortOrders_grows (s : State) (t : Tenant) (l : List Word) (c : Byte) : Grows s (abortOrders s t l c) := by
  have each : Grows s (l.foldl (abortNumber t c) s) := by
    refine Grows.foldl (fun u q => ?_) l s
    unfold abortNumber
    split
    · exact abortOrder_grows u t _ c
    · exact Grows.refl u
  exact each.trans ((tryReexecAll_grows _).trans ((landOldest_grows _ t).trans (kick_grows _ t)))

theorem abortRun_grows (s : State) (t : Tenant) (c : Byte) : Grows s (abortRun s t c) := abortOrders_grows s t _ c

theorem doubleTrap_grows (s : State) (t : Tenant) (c pc : Nat) : Grows s (doubleTrap s t c pc) := by
  unfold doubleTrap
  split
  · exact Grows.refl s
  · exact (logEvent_grows ..).trans (abortOrders_grows ..)

theorem enterTrap_grows (s : State) (t : Tenant) (q : SeqId) (c d pc r u : Nat) : Grows s (enterTrap s t q c d pc r u) := by
  unfold enterTrap
  dsimp only
  generalize hs3 : xmWrite _ _ _ = s3
  have saved : Grows s s3 := by
    subst hs3
    exact Grows.frame (xmWrite_foot (m := 0x254170) _ _ _ (by decide) (Foot.foldl (modSqr_foot s q.val _ (by decide) (Foot.refl _ s))
      fun u k h => saveSlot_foot u k (by decide) h)) (by decide)
  generalize hs7 : addTime _ t 44 = s7
  have entered : Grows s s7 := by
    subst hs7
    exact saved.trans (Grows.frame (addTime_foot (m := 0x80030A910) _ t 44 (by decide) (modTen_foot _ t _ (by decide) (modSqr_foot _ q.val _ (by decide)
      (Foot.foldl (trapVector_foot s3 t c (by decide) (Foot.refl _ s3)) fun u k h => setPe_foot u k _ (by decide) h)))) (by decide))
  split
  · exact entered.trans (abortOrders_grows ..)
  · exact ite_keeps (entered.trans (doubleTrap_grows ..)) entered

theorem raiseTrap_grows (s : State) (t : Tenant) (q : SeqId) (c d pc r u : Nat) : Grows s (raiseTrap s t q c d pc r u) :=
  ite_keeps (doubleTrap_grows ..) (enterTrap_grows ..)

end Sys2Proof.Machine
end

