-- ==== Sys2Proof/Proofs/MeshGrowth.lean ====
section
/-! SUPPORT. Failed reads, requests that end and packets that arrive: responses that are sent stay, and no gate closes (R235–R237, R264–R271). -/

namespace Sys2Proof.Machine

open Sys2Proof

/-! ### Memories -/

theorem readFailed_grows (s : State) (xm : Bool) (a : Nat) (r : Byte) : Grows s (readFailed s xm a r) :=
  Grows.frame (readFailed_foot s xm a r (Nat.or_self _) (Foot.refl _ s)) (by decide)

theorem checkMark_grows (s : State) : Grows s (checkMark s) :=
  Grows.frame (tideFault_foot s 1 _ (Nat.or_self _) (Foot.refl _ s)) (by decide)

theorem modMemSt_grows (s : State) (b : Nat) (f : MemStatus → MemStatus) : Grows s (modMemSt s b f) :=
  Grows.frame (modMemSt_foot s b f (Nat.or_self _) (Foot.refl _ s)) (by decide)

theorem partFault_grows (s : State) (ts : List Tenant) (k n b : Nat) : Grows s (partFault s ts k n b) :=
  Grows.frame (partFault_foot s ts k n b (Nat.or_self _) (Foot.refl _ s)) (by decide)

theorem bankOrders_grows (b : Nat) (s : State) (t : Tenant) : Grows s (bankOrders b s t) := by
  unfold bankOrders
  dsimp only
  refine ite_keeps (Grows.refl s) ?_
  generalize hs3 : abortOrders _ t _ 0x0B = s3
  have aborted : Grows s s3 := by
    subst hs3
    exact (abortOrders_grows ..).trans ((Grows.frame (modTen_foot _ t _ (Nat.or_self _) (Foot.refl _ _)) (by decide)).trans (abortOrders_grows ..))
  exact ite_keeps (aborted.trans (recompute_grows _ t)) aborted

theorem memFault_grows (s : State) (b : Nat) : Grows s (memFault s b) := by
  unfold memFault
  dsimp only
  refine ite_keeps (Grows.refl s) ?_
  generalize hs2 : sendClear _ _ _ true = s2
  have fenced : Grows s s2 := by
    subst hs2
    exact (modMemSt_grows ..).trans ((logEvent_grows ..).trans ((closeNi_grows ..).trans (Grows.of_eq rfl rfl)))
  exact ite_keeps (fenced.trans ((Grows.foldl (bankOrders_grows b) allTenants s2).trans (partFault_grows ..)))
    (fenced.trans ((Grows.foldl (fun u t => Grows.frame (placeFrame_foot u t (Nat.or_self _) (Foot.refl _ u)) (by decide)) allTenants s2).trans
      (partFault_grows ..)))

theorem settleMem_grows (s : State) : Grows s (settleMem s) :=
  Grows.foldl (fun u b => ite_keeps ((modMemSt_grows u b _).trans (memFault_grows _ b)) (Grows.refl u)) _ s

theorem xmWordFails_grows (s : State) (a : Nat) : Grows s (xmWordFails s a) := by
  unfold xmWordFails
  dsimp only
  refine ite_keeps (ite_keeps ?_ (readFailed_grows s true a _)) ?_
  · exact (readFailed_grows s true a (roleByte s 8)).trans (Grows.frame (repaired_foot (m := 0x314000) _ true a (by decide)
      (xmWrite_foot _ _ _ (by decide) (Foot.refl _ _))) (by decide))
  · have marked := (readFailed_grows s true a (roleByte s 9)).trans (checkMark_grows _)
    split
    · exact marked.trans (recompute_grows ..)
    · exact marked

theorem loseCopy_grows (s : State) (t : Tenant) (r : Nat) : Grows s (loseCopy s t r) :=
  Grows.frame (loseCopy_foot s t r (Nat.or_self _) (Foot.refl _ s)) (by decide)

theorem readCopied_grows (s : State) (a m r k : Nat) : Grows s (readCopied s a m r k).1 :=
  Grows.frame (readCopied_foot s a m r k (Nat.or_self _) (Foot.refl _ s)) (by decide)

theorem failedWord_grows (s : State) (src : NiId) (xm : Bool) (a : Nat) : Grows s (failedWord s src xm a).2 := by
  unfold failedWord
  split
  · dsimp only
    split
    · refine ite_keeps (xmWordFails_grows s a) ?_
      split
      · exact (xmWordFails_grows s a).trans (recompute_grows ..)
      · exact xmWordFails_grows s a
    · exact xmWordFails_grows s a
  split
  · exact readCopied_grows s a _ 2 2
  split
  · exact readFailed_grows ..
  split
  · split
    · exact ite_keeps (readCopied_grows s a _ 0 1) ((readCopied_grows s a _ 0 1).trans ((abortRun_grows ..).trans (memFault_grows ..)))
    · exact readFailed_grows ..
  · dsimp only
    generalize hs1 : readFailed s false a _ = s1
    have failed : Grows s s1 := by
      subst hs1
      exact readFailed_grows ..
    split
    · split
      · exact ite_keeps (failed.trans (abortRun_grows ..)) failed
      · exact failed
    · exact ite_keeps (failed.trans (loseCopy_grows ..)) (ite_keeps (failed.trans (abortRun_grows ..)) failed)

/-- The words of a read that fail are handled one after the other. -/
def failedWords (src : NiId) (xm : Bool) (l : List Nat) (s : State) : Bool × State :=
  l.foldl (fun acc w => (acc.1 && (failedWord acc.2 src xm w).1, (failedWord acc.2 src xm w).2)) (true, s)

theorem failedWords_grows (src : NiId) (xm : Bool) (l : List Nat) (s : State) : Grows s (failedWords src xm l s).2 :=
  List.foldlRecOn (motive := fun acc : Bool × State => Grows s acc.2) l _ (Grows.refl s) fun acc h w _ =>
    h.trans (failedWord_grows acc.2 src xm w)

/-- The words of a read whose parity fails. -/
def badWords (s : State) (xm : Bool) (a c : Nat) : List Nat :=
  ((List.range ((a % 8 + c + 7) / 8)).map fun i => a / 8 * 8 + 8 * i).filter fun w =>
    if xm then xmBadAt s (Nat.max w a) (Nat.min (w + 8) (a + c) - Nat.max w a)
    else spBadAt s (Nat.max w a) (Nat.min (w + 8) (a + c) - Nat.max w a)

theorem memRead_good {s : State} {xm : Bool} {a c : Nat} (h : badWords (yieldWindow s xm a c) xm a c = []) (src : NiId) (g : Bool) :
    memRead s src xm a c g =
      (some (memBytes (yieldWindow s xm a c) xm a c), if g then transient (yieldWindow s xm a c) xm a else yieldWindow s xm a c) :=
  if_pos h

theorem memRead_bad {s : State} {xm : Bool} {a c : Nat} (h : badWords (yieldWindow s xm a c) xm a c ≠ []) (src : NiId) (g : Bool) :
    (memRead s src xm a c g).2 = settleMem (failedWords src xm (badWords (yieldWindow s xm a c) xm a c) (yieldWindow s xm a c)).2 ∧
      ((failedWords src xm (badWords (yieldWindow s xm a c) xm a c) (yieldWindow s xm a c)).1 = false → (memRead s src xm a c g).1 = none) := by
  have split : memRead s src xm a c g =
      (if (failedWords src xm (badWords (yieldWindow s xm a c) xm a c) (yieldWindow s xm a c)).1 then some (memBytes (settleMem
          (failedWords src xm (badWords (yieldWindow s xm a c) xm a c) (yieldWindow s xm a c)).2) xm a c) else none,
        settleMem (failedWords src xm (badWords (yieldWindow s xm a c) xm a c) (yieldWindow s xm a c)).2) := if_neg h
  generalize settleMem _ = u at split ⊢
  rw [split]
  exact ⟨rfl, fun e => by rw [e]; rfl⟩

theorem memRead_grows (s : State) (src : NiId) (xm : Bool) (a c : Nat) (g : Bool) : Grows s (memRead s src xm a c g).2 := by
  have window : Grows s (yieldWindow s xm a c) := Grows.frame (yieldWindow_foot s xm a c (Nat.or_self _) (Foot.refl _ s)) (by decide)
  by_cases h : badWords (yieldWindow s xm a c) xm a c = []
  · rw [memRead_good h]
    exact ite_keeps (Q := Grows s) (window.trans (Grows.frame (transient_foot _ xm a (Nat.or_self _) (Foot.refl _ _)) (by decide))) window
  · rw [(memRead_bad h src g).1]
    exact window.trans ((failedWords_grows src xm _ _).trans (settleMem_grows _))

/-! ### Requests that end or go out again -/

theorem launch_grows (s : State) (m n : NiId) (p : Pkt) (w : Bool) : Grows s (launch s m n p w) := Grows.of_eq rfl rfl

theorem numbered_grows (s : State) (m n : NiId) (p : Pkt) (w : Bool) : Grows s (numbered s m n p w).2 := Grows.of_eq rfl rfl

theorem reissue_grows (s : State) (n : NiId) (o : OutReq) : Grows s (reissue s n o) := by
  have kept : Grows s (modNi s n.val fun x => { x with out := x.out ++ [o] }) := modNi_grows s n.val fun _ => List.Subset.refl _
  unfold reissue
  dsimp only
  split
  · exact kept.trans (launch_grows ..)
  · exact kept

theorem moverLost_grows (s : State) (o : OutReq) (a : Nat) : Grows s (moverLost s o a) := by
  refine ite_keeps (Grows.refl s) ?_
  split
  · exact ite_keeps (Grows.refl s) (ite_keeps (loseCopy_grows ..) (abortRun_grows ..))
  · exact Grows.refl s

theorem seqError_grows (s : State) (q : SeqId) (tid : BitVec 12) (loss : Bool) : Grows s (seqError s q tid loss) := by
  unfold seqError
  split
  · exact Grows.refl s
  · dsimp only
    generalize hs1 : modSqr s q.val _ = s1
    have done : Grows s s1 := by
      subst hs1
      exact Grows.frame (modSqr_foot s q.val _ (Nat.or_self _) (Foot.refl _ s)) (by decide)
    refine ite_keeps done (ite_keeps (done.trans ((checkMark_grows s1).trans (recompute_grows ..))) ?_)
    exact done.trans ((raiseTrap_grows ..).trans (Grows.frame (bump_foot _ (Nat.or_self _) (Foot.refl _ _)) (by decide)))

theorem requesterError_grows (s : State) (n : NiId) (o : OutReq) (st : Half) : Grows s (requesterError s n o st) := by
  have log : ∀ a, Grows s (logTransfer s n a) := fun a => Grows.frame (logTransfer_foot s n a (Nat.or_self _) (Foot.refl _ s)) (by decide)
  unfold requesterError
  dsimp only
  split
  · exact seqError_grows ..
  · refine ite_keeps ?_ (ite_keeps ?_ (ite_keeps ?_ (Grows.refl s)))
    · exact ite_keeps (log _) (ite_keeps (ite_keeps (Grows.refl s) (reissue_grows ..)) (ite_keeps (moverLost_grows ..) (reissue_grows ..)))
    · exact ite_keeps (log _) (ite_keeps (abortOrders_grows ..) (reissue_grows ..))
    · exact Grows.frame (answer_foot s _ _ _ _ _ (Nat.or_self _) (Foot.refl _ s)) (by decide)

theorem endRequest_grows (s : State) (n : NiId) (o : OutReq) (st : Half) : Grows s (endRequest s n o st) := by
  refine Grows.trans (s := if st = statusDestLost then { s with noc := { s.noc with destLost := satInc s.noc.destLost } } else s) ?_
    (requesterError_grows ..)
  exact ite_keeps (Grows.of_eq rfl rfl) (Grows.refl s)

theorem ingestClear_grows (s : State) (n : NiId) (lost : Bool) : Grows s (ingestClear s n lost) := by
  refine Grows.foldl (fun u t => Grows.foldl (fun v o => Grows.foldl (fun w b => ?_) _ v) _ u) _ s
  split
  · refine ite_keeps (Grows.refl w) (ite_keeps (abortOrders_grows ..) ?_)
    split
    · exact (modOrder_grows ..).trans (Grows.foldl (fun x h => (reexecKeeps_grows t o.seq x).sendPlanes x b _ _ _ _ (Grows.refl x)) _ _)
    · exact modOrder_grows ..
  · exact Grows.refl w

theorem resend_grows (s : State) (m c : NiId) (o : OutReq) : Grows s (resend s m c o) := by
  have kept : ∀ (u : State) (x : OutReq), Grows u (modNi u m.val fun y => { y with out := y.out ++ [x] }) := fun u _ =>
    modNi_grows u m.val fun _ => List.Subset.refl _
  unfold resend
  extract_lets n
  split
  · next p _ =>
    extract_lets r
    have numbers : Grows s r.2 := ite_keeps (Q := fun x : Pkt × State => Grows s x.2) (Grows.refl s) (numbered_grows ..)
    exact numbers.trans ((kept r.2 _).trans (launch_grows ..))
  · exact kept s _

theorem fenceCleared_grows (s : State) (n r : NiId) (lost : Bool) : Grows s (fenceCleared s n r lost) := by
  refine (ingestClear_grows s n lost).trans (Grows.foldl (fun u m => ?_) _ _)
  exact (modNi_grows u m.val (f := fun x => { x with held := x.held.filter fun o => decide (o.dest ≠ n) }) fun _ => List.Subset.refl _).trans
    (Grows.foldl (fun w o => ite_keeps (endRequest_grows ..) (resend_grows ..)) _ _)

/-! ### Packets that arrive -/

/-- The packet that answers a request (R253, R264). -/
def answerPkt (s : State) (n m : NiId) (p : Pkt) (ty : BitVec 4) (st : Half) (d : Bytes) : Pkt :=
  { hver := 2, vc := if p.vc = 2 then 2 else 1, ty := ty
    len := BitVec.ofNat 6 (if d = [] then 0 else ((if tilePort n then 0 else p.addr.toNat % 32) + d.length + 31) / 32)
    dx := p.sx, dy := p.sy, dp := p.sp, sx := p.dx, sy := p.dy, sp := p.dp, ten := p.ten, dev := p.dev, dor := false
    tid := p.tid, sn := SMap.get 0 s.noc.sn (orderKey n m (if p.vc = 2 then 2 else 1)), res75 := false
    nbytes := BitVec.ofNat 11 d.length, status := st, res47 := 0, addr := p.addr, resHi := 0, data := d }

/-- The interface sends the packet. -/
def sendAnswer (s : State) (n : NiId) (r : Pkt) : State := modNi s n.val fun x => { x with sent := x.sent ++ [r] }

theorem respond_of_source (s : State) (n : NiId) {m : NiId} {p : Pkt} (h : pktSource p = some m) (ty : BitVec 4) (st : Half) (d : Bytes) :
    ∃ sn, respond s n p ty st d =
      { sendAnswer s n (answerPkt s n m p ty st d) with noc := { (sendAnswer s n (answerPkt s n m p ty st d)).noc with sn := sn } } := by
  unfold respond
  rw [h]
  exact ⟨_, rfl⟩

theorem sendAnswer_grows (s : State) (n : NiId) (r : Pkt) : Grows s (sendAnswer s n r) :=
  modNi_grows s n.val fun _ => List.subset_append_left _ _

theorem respond_grows (s : State) (n : NiId) (p : Pkt) (ty : BitVec 4) (st : Half) (d : Bytes) : Grows s (respond s n p ty st d) := by
  cases h : pktSource p with
  | none =>
    rw [respond, h]
    exact Grows.refl s
  | some m =>
    obtain ⟨sn, hr⟩ := respond_of_source s n h ty st d
    rw [hr]
    exact (sendAnswer_grows s n _).trans (Grows.of_eq rfl rfl)

/-- A NACK is counted. -/
def countNack (s : State) : State := { s with noc := { s.noc with fencedNacks := satInc s.noc.fencedNacks } }

theorem nackRequest_grows (s : State) (n : NiId) (p : Pkt) (r : FenceReason) : Grows s (nackRequest s n p r) := by
  have answer : Grows s (respond (countNack s) n p tyNack (reasonStatus r) []) :=
    Grows.trans (s := countNack s) (Grows.of_eq rfl rfl) (respond_grows ..)
  unfold nackRequest
  dsimp only
  split
  · exact answer.trans (openGate_grows ..)
  · exact answer

theorem serveRequest_grows (s : State) (n m : NiId) (p : Pkt) (w : Bool) {f : State → State} (hf : ∀ u, Grows u (f u)) :
    Grows s (serveRequest s n m p w f) :=
  ite_keeps (respond_grows ..) (ite_keeps ((logEvent_grows ..).trans (respond_grows ..)) (ite_keeps (respond_grows ..) (hf s)))

theorem receive_grows (s : State) (m n : NiId) (p : Pkt) (w : Bool) {f : State → State} (hf : ∀ u, Grows u (f u)) :
    Grows s (receive s m n p w f) := by
  unfold receive
  split
  · exact nackRequest_grows ..
  · exact nackRequest_grows ..
  · exact nackRequest_grows ..
  · exact serveRequest_grows s n m p w hf

theorem serveRead_grows (p : Pkt) (w : ReadCycle) (n m : NiId) (s : State) : Grows s (serveRead p w n m s) := by
  unfold serveRead
  split
  · exact (Grows.frame (tileRead_foot s _ p (Nat.or_self _) (Foot.refl _ s)) (by decide)).trans (respond_grows ..)
  · dsimp only
    split
    · exact (memRead_grows s m _ _ _ _).trans (respond_grows ..)
    · exact (memRead_grows s m _ _ _ _).trans (respond_grows ..)
  · exact respond_grows ..

theorem serveWrite_grows (p : Pkt) (y : Option PortYWrite) (n : NiId) (s : State) : Grows s (serveWrite p y n s) := by
  have write : ∀ xm, Grows s (memWrite s xm p.addr.toNat p.data) := fun xm =>
    Grows.frame (memWrite_foot s xm _ _ (Nat.or_self _) (Foot.refl _ s)) (by decide)
  refine ite_keeps (respond_grows ..) ?_
  split
  · exact (Grows.frame (tileWrite_foot s _ p (Nat.or_self _) (Foot.refl _ s)) (by decide)).trans (respond_grows ..)
  · dsimp only
    refine Grows.trans ?_ (respond_grows ..)
    split
    · exact ite_keeps ((write _).trans (Grows.frame (collide_foot _ _ _ (Nat.or_self _) (Foot.refl _ _)) (by decide))) (write _)
    · exact write _
  · exact respond_grows ..

theorem takeResponse_grows (s : State) (m : NiId) (p : Pkt) {f : OutReq → State → State} (hf : ∀ o, Grows s (f o (dropRequest s m p.tid))) :
    Grows s (takeResponse s m p f) := by
  unfold takeResponse
  split
  · exact hf _
  · exact ite_keeps (Grows.refl s) (Grows.of_eq rfl rfl)

theorem deliver_grows (f : Flight) (s : State) : Grows s (deliver f s) := by
  have drop : ∀ p : Pkt, Grows s (dropRequest s f.dst p.tid) := fun p => modNi_grows s f.dst.val fun _ => List.Subset.refl _
  have done : ∀ p : Pkt, Grows s (memDone (dropRequest s f.dst p.tid) f.dst p) := fun p =>
    (drop p).trans (Grows.frame (memDone_foot _ f.dst p (Nat.or_self _) (Foot.refl _ _)) (by decide))
  unfold deliver
  split
  · exact receive_grows _ _ _ _ _ (serveRead_grows _ _ _ _)
  · exact receive_grows _ _ _ _ _ (serveWrite_grows _ _ _)
  · exact takeResponse_grows s _ _ fun _ => done _
  · exact takeResponse_grows s _ _ fun _ => done _
  · exact takeResponse_grows s _ _ fun _ => modNi_grows s f.dst.val fun _ => List.Subset.refl _
  · exact takeResponse_grows s _ _ fun _ => (drop _).trans (endRequest_grows ..)
  · exact Grows.refl s

theorem arrive_grows (turned : Flight → State → Bool) {serve : Flight → State → State} (hs : ∀ f u, Grows u (serve f u)) (n : Nat)
    (f : Flight) (s : State) : Grows s (arrive turned serve n f s) := by
  induction n generalizing f s with
  | zero => exact Grows.refl s
  | succ n ih =>
    unfold arrive
    dsimp only
    refine ite_keeps (hs f s) (ite_keeps (modNi_grows s f.dst.val fun _ => List.Subset.refl _) ?_)
    have served : Grows s (serve f (wantNext s (orderKey f.src f.dst f.vc) f.sn)) :=
      Grows.trans (s := wantNext s (orderKey f.src f.dst f.vc) f.sn) (Grows.of_eq rfl rfl) (hs f _)
    split
    · next g _ =>
      exact served.trans ((modNi_grows _ f.dst.val (f := fun x => { x with early := x.early.filter fun h => decide (h ≠ g) })
        fun _ => List.Subset.refl _).trans (ih g _))
    · exact served

theorem comeTo_grows (f : Flight) (s : State) : Grows s (comeTo f s) := arrive_grows turned deliver_grows 17 f s

theorem noteServed_grows (s : State) (f : Flight) (m : Move) : Grows s (noteServed s f m) := by
  unfold noteServed
  split
  · exact Grows.of_eq rfl rfl
  · exact Grows.refl s

theorem setFlight_grows (s : State) (f g : Flight) : Grows s (setFlight s f g) := Grows.of_eq rfl rfl

theorem dropFlight_grows (s : State) (f : Flight) : Grows s (dropFlight s f) := Grows.of_eq rfl rfl

theorem compactAll_grows (s : State) : Grows s (compactAll s) := Grows.foldl (fun _ _ => setFlight_grows ..) _ s

theorem runMesh_grows (n : Nat) (s : State) : Grows s (runMesh comeTo n s) := by
  induction n generalizing s with
  | zero => exact Grows.refl s
  | succ n ih =>
    unfold runMesh
    split
    · exact compactAll_grows s
    · exact (noteServed_grows ..).trans ((setFlight_grows ..).trans (ih _))
    · exact (dropFlight_grows ..).trans ((noteServed_grows ..).trans ((comeTo_grows ..).trans (ih _)))

theorem clears_grows (l : List (NiId × NiId × Bool)) (s : State) : Grows s (l.foldl (fun u c => fenceCleared u c.1 c.2.1 c.2.2) s) :=
  Grows.foldl (fun u (c : NiId × NiId × Bool) => fenceCleared_grows u c.1 c.2.1 c.2.2) l s

theorem runNoc_grows (n : Nat) (s : State) : Grows s (runNoc n s) := by
  induction n generalizing s with
  | zero => exact Grows.refl s
  | succ n ih =>
    unfold runNoc
    dsimp only
    generalize hs1 : List.foldl _ _ _ = s1
    have cleared : Grows s s1 := by
      subst hs1
      refine Grows.trans (s := { s with noc := { s.noc with clears := [] } }) (Grows.of_eq rfl rfl) ?_
      exact clears_grows _ _
    have moved := cleared.trans (runMesh_grows (64 * (s1.noc.mesh.length + 1)) s1)
    exact ite_keeps moved (moved.trans (ih _))

/-- Whatever is on its way moves: responses that are sent stay, and no gate closes. -/
theorem nocMoves_grows (s : State) : Grows s (nocMoves s) := ite_keeps (Grows.refl s) (runNoc_grows 4 s)

end Sys2Proof.Machine
end

