-- ==== Sys2Proof/Proofs/PacketsArrive.lean ====
section
/-! SUPPORT. A request that arrives: what reaches the destination, and what is left of the network when it is answered
(R253, R255, R264, R265, R270). -/

namespace Sys2Proof.Machine

open Sys2Proof

/-! ### The path of a request -/

/-- The packet as its source numbers it. -/
def sentPkt (s : State) (m n : NiId) (p : Pkt) (w : Bool) : Pkt := (numbered s m n p w).1

/-- The state in which the packet leaves: its number is used and its source notes the request. -/
def noted (s : State) (m n : NiId) (p : Pkt) (w : Bool) : State :=
  noteRequest (numbered s m n p w).2 m n (sentPkt s m n p w) w

/-- The packet in flight. -/
def flightOf (s : State) (m n : NiId) (p : Pkt) (w : Bool) (cmd : Pkt → Instr) : Flight :=
  ⟨cmd (sentPkt s m n p w), m, n, p.vc, (sentPkt s m n p w).sn, 1 + p.len.toNat, (sentPkt s m n p w).dor, [], 0⟩

/-- The state in which an open interface serves it: the next number is awaited. -/
def reached (s : State) (m n : NiId) (p : Pkt) (w : Bool) : State :=
  wantNext (noted s m n p w) (orderKey m n p.vc) (sentPkt s m n p w).sn

theorem meshQuiet_iff (s : State) : meshQuiet s = true ↔
    s.noc.mesh = [] ∧ s.noc.clears = [] ∧ ∀ e ∈ s.noc.routers, e.2.service = .inService := by
  simp [meshQuiet, and_assoc]

theorem smap_get_of_all {α : Type} {P : α → Prop} {d : α} {m : SMap α} (hd : P d) (h : ∀ e ∈ m, P e.2) (k : Nat) : P (SMap.get d m k) := by
  induction m with
  | nil => exact hd
  | cons e m ih =>
    rw [SMap.get.eq_def]
    exact ite_keeps (h e List.mem_cons_self) (ih fun x hx => h x (List.mem_cons_of_mem e hx))

theorem rtr_of_quiet {s : State} (h : meshQuiet s = true) (r : Nat) : (rtr s r).service = .inService := by
  obtain ⟨-, -, routers⟩ := (meshQuiet_iff s).mp h
  exact smap_get_of_all (P := fun x : Router => x.service = .inService) rfl routers r

theorem pathLost_of_quiet {s : State} (h : meshQuiet s = true) (m n : NiId) : pathLost s m n = false := by
  have gone : ∀ x y, routerGone s x y = false := fun x y => by simp [routerGone, rtr_of_quiet h]
  simp [pathLost, goneCount, gone]

theorem request_arrives {s : State} {m n : NiId} {p : Pkt} (h : arrives s m n p) (hb : pktBad p = false) (w : Bool) (cmd : Pkt → Instr) :
    request s p w cmd = nocMoves (comeTo (flightOf s m n p w cmd) (noted s m n p w)) := by
  obtain ⟨up, src, dst, lm, ln, open_, vcs, fresh, room, holds, ⟨quiet, want, early⟩, due⟩ := h
  have unknown : ((ni s m.val).out.any fun o => decide (o.tid = p.tid)) = false := by
    simpa using fun o ho => fresh o (List.mem_append_left _ ho)
  have unheld : ((ni s m.val).held.any fun o => decide (o.tid = p.tid)) = false := by
    simpa using fun o ho => fresh o (List.mem_append_right _ ho)
  have unnamed : heldPkt s m n p w = none := by
    have none : ((ni s m.val).out.find? fun o => decide (o.tid = p.tid ∧ o.dest = n ∧ o.write = w)) = none :=
      List.find?_eq_none.mpr fun o ho => by simpa using fun ht => absurd ht (fresh o (List.mem_append_left _ ho))
    rw [heldPkt, none]
    rfl
  have free : holdsFor s m n (numbered s m n p w).1.vc = false := holds
  have rest : meshQuiet (noteRequest (numbered s m n p w).2 m n (numbered s m n p w).1 w) = true := quiet
  have idle : ¬(nocUp s = false ∨ niLive s m = false ∨ (ni s m.val).st ≠ .opened ∨ (requestVcs m).contains p.vc = false) := by
    rw [up, lm, open_, vcs]
    decide
  unfold request
  rw [src, dst]
  dsimp only
  rw [if_neg idle, if_neg (by simp [unheld]), if_neg (by omega), if_neg (by simp [hb]), if_neg (by simp [pathLost_of_quiet quiet]), unnamed]
  dsimp only
  rw [if_neg (by simp [free]), if_pos (show niLive s n = true from ln), sendPkt, if_pos rest]
  rfl

/-- A command that the arrival of a request is, with the service that its destination gives it. -/
structure Serves (m n : NiId) (w : Bool) (cmd : Pkt → Instr) (serve : Pkt → State → State) : Prop where
  deliver : ∀ (f : Flight) (q : Pkt) (x : State), f.cmd = cmd q → f.src = m → f.dst = n → deliver f x = receive x m n q w (serve q)
  turned : ∀ (f : Flight) (q : Pkt) (x : State), f.cmd = cmd q → f.dst = n → turned f x = (match (ni x n.val).st with
    | .closing _ => true
    | .drained _ => true
    | .fenced _ => true
    | _ => false)

theorem serves_read (m n : NiId) (rc : ReadCycle) : Serves m n false (fun q => .read q rc) fun q => serveRead q rc n m where
  deliver f q x hc hs hd := by
    subst hs hd
    rw [deliver, hc]
  turned f q x hc hd := by
    subst hd
    rw [turned, hc]
    rfl

theorem serves_write (m n : NiId) (y : Option PortYWrite) : Serves m n true (fun q => .write q y) fun q => serveWrite q y n where
  deliver f q x hc hs hd := by
    subst hs hd
    rw [deliver, hc]
  turned f q x hc hd := by
    subst hd
    rw [turned, hc]
    rfl

/-- The interface of the destination is as it was but for what its block has asked itself. -/
theorem ni_noted (s : State) (m n : NiId) (p : Pkt) (w : Bool) (k : Nat) : ∃ l, ni (noted s m n p w) k = { ni s k with out := l } := by
  unfold noted noteRequest
  by_cases h : k = m.val
  · rw [h, ni_modNi_same]
    exact ⟨_, rfl⟩
  · rw [ni_modNi_ne _ _ h]
    exact ⟨_, rfl⟩

theorem ni_reached (s : State) (m n : NiId) (p : Pkt) (w : Bool) (k : Nat) : ∃ l, ni (reached s m n p w) k = { ni s k with out := l } :=
  ni_noted s m n p w k

section
variable {s : State} {m n : NiId} {p : Pkt} {w : Bool} {cmd : Pkt → Instr} {serve : Pkt → State → State}

/-- An interface that does not deliver turns the request away at once. -/
theorem comeTo_turned (hs : Serves m n w cmd serve) {r : FenceReason}
    (hst : (ni s n.val).st = .closing r ∨ (ni s n.val).st = .drained r ∨ (ni s n.val).st = .fenced r) :
    comeTo (flightOf s m n p w cmd) (noted s m n p w) = nackRequest (noted s m n p w) n (sentPkt s m n p w) r := by
  obtain ⟨l, hl⟩ := ni_noted s m n p w n.val
  have turns : turned (flightOf s m n p w cmd) (noted s m n p w) = true := by
    rw [hs.turned _ (sentPkt s m n p w) _ rfl rfl, hl]
    rcases hst with h | h | h <;> simp only [h]
  rw [comeTo, arrive, if_pos turns, hs.deliver _ (sentPkt s m n p w) _ rfl rfl rfl, receive, hl]
  rcases hst with h | h | h <;> simp only [h]

/-- An open interface checks the request and serves it. -/
theorem deliver_open (hs : Serves m n w cmd serve) (hst : (ni s n.val).st = .opened) :
    deliver (flightOf s m n p w cmd) (reached s m n p w) =
      serveRequest (reached s m n p w) n m (sentPkt s m n p w) w (serve (sentPkt s m n p w)) := by
  obtain ⟨l, hl⟩ := ni_reached s m n p w n.val
  rw [hs.deliver _ (sentPkt s m n p w) _ rfl rfl rfl, receive, hl]
  simp only [hst]

/-- The destination awaits the number of the packet. -/
theorem number_awaited (h : arrives s m n p) :
    (flightOf s m n p w cmd).sn = wanted (noted s m n p w) (orderKey (flightOf s m n p w cmd).src (flightOf s m n p w cmd).dst (flightOf s m n p w cmd).vc) := by
  obtain ⟨-, -, -, -, -, -, -, -, -, -, ⟨-, want, -⟩, -⟩ := h
  exact want

theorem not_turned (hs : Serves m n w cmd serve) (hst : (ni s n.val).st = .opened) :
    turned (flightOf s m n p w cmd) (noted s m n p w) = false := by
  obtain ⟨l, hl⟩ := ni_noted s m n p w n.val
  rw [hs.turned _ (sentPkt s m n p w) _ rfl rfl, hl]
  simp only [hst]

/-- A request that an open interface serves without touching those that came early ends with its service. -/
theorem comeTo_open (hs : Serves m n w cmd serve) (h : arrives s m n p) (hst : (ni s n.val).st = .opened)
    (he : (ni (serveRequest (reached s m n p w) n m (sentPkt s m n p w) w (serve (sentPkt s m n p w))) n.val).early = (ni s n.val).early) :
    comeTo (flightOf s m n p w cmd) (noted s m n p w) =
      serveRequest (reached s m n p w) n m (sentPkt s m n p w) w (serve (sentPkt s m n p w)) := by
  rw [comeTo, arrive]
  dsimp only
  rw [if_neg (by simp [not_turned hs hst]), if_neg (not_not.mpr (number_awaited h)), ← deliver_open hs hst]
  rw [← deliver_open hs hst] at he
  obtain ⟨-, -, -, -, -, -, -, -, -, -, ⟨-, -, early⟩, -⟩ := h
  have none : ∀ v, ((ni s n.val).early.find? fun g => sameOrder (flightOf s m n p w cmd) g && decide (g.sn = v)) = none := fun v =>
    List.find?_eq_none.mpr fun g hg hm => by
      obtain ⟨hsrc, hdst, hvc⟩ := of_decide_eq_true (Bool.and_eq_true_iff.mp hm).1
      exact early g hg ⟨hsrc.symm, hdst.symm, hvc.symm⟩
  split
  · next g hg =>
    exact nomatch (none _).symm.trans ((congrArg (List.find? _) he.symm).trans hg)
  · rfl

/-- Whatever came early is served after it. -/
theorem comeTo_open_grows (hs : Serves m n w cmd serve) (h : arrives s m n p) (hst : (ni s n.val).st = .opened) :
    Grows (serveRequest (reached s m n p w) n m (sentPkt s m n p w) w (serve (sentPkt s m n p w)))
      (comeTo (flightOf s m n p w cmd) (noted s m n p w)) := by
  rw [comeTo, arrive]
  dsimp only
  rw [if_neg (by simp [not_turned hs hst]), if_neg (not_not.mpr (number_awaited h)), ← deliver_open hs hst]
  split
  · next g _ =>
    exact (modNi_grows _ n.val (f := fun x => { x with early := x.early.filter fun h => decide (h ≠ g) }) fun _ => List.Subset.refl _).trans
      (arrive_grows turned deliver_grows 16 g _)
  · exact Grows.refl _

end

/-! ### Answers -/

theorem ni_respond (y : State) (n : NiId) {m : NiId} {q : Pkt} (h : pktSource q = some m) (ty : BitVec 4) (st : Half) (d : Bytes) :
    ni (respond y n q ty st d) n.val = { ni y n.val with sent := (ni y n.val).sent ++ [answerPkt y n m q ty st d] } ∧
      meshQuiet (respond y n q ty st d) = meshQuiet y := by
  obtain ⟨sn, hr⟩ := respond_of_source y n h ty st d
  rw [hr]
  exact ⟨ni_modNi_same y n.val fun x => { x with sent := x.sent ++ [answerPkt y n m q ty st d] }, rfl⟩

theorem respond_answers (y : State) {m n : NiId} {p : Pkt} (src : pktSource p = some m) (dst : pktDest p = some n) (ty : BitVec 4) (st : Half)
    (d : Bytes) : answersWith (respond y n p ty st d) m n p ty st fun e => e = d := by
  refine ⟨answerPkt y n m p ty st d, ?_, rfl, rfl, rfl, rfl, rfl, src, dst, rfl, rfl⟩
  rw [(ni_respond y n src ty st d).1]
  exact List.mem_append_right _ List.mem_cons_self

theorem answersWith_imp {u : State} {m n : NiId} {p : Pkt} {ty : BitVec 4} {st : Half} {P Q : Bytes → Prop}
    (h : answersWith u m n p ty st P) (hi : ∀ d, P d → Q d) : answersWith u m n p ty st Q := by
  obtain ⟨r, hr, hty, hver, htid, hten, hst, hdst, hsrc, hvc, hd⟩ := h
  exact ⟨r, hr, hty, hver, htid, hten, hst, hdst, hsrc, hvc, hi _ hd⟩

/-- An answer that is sent stays. -/
theorem Grows.answersWith {z u : State} (h : Grows z u) {m n : NiId} {p : Pkt} {ty : BitVec 4} {st : Half} {P : Bytes → Prop}
    (ha : answersWith z m n p ty st P) : Machine.answersWith u m n p ty st P := by
  obtain ⟨r, hr, hp⟩ := ha
  exact ⟨r, h.sent n.val hr, hp⟩

theorem nocMoves_of_quiet {s : State} (h : meshQuiet s = true) : nocMoves s = s := if_pos (by simp [h])

section
variable {s : State} {m n : NiId} {p : Pkt} {w : Bool} {cmd : Pkt → Instr} {serve : Pkt → State → State}

theorem meshQuiet_of_arrives (h : arrives s m n p) : meshQuiet s = true := by
  obtain ⟨-, -, -, -, -, -, -, -, -, -, ⟨quiet, -⟩, -⟩ := h
  exact quiet

theorem source_of_arrives (h : arrives s m n p) : pktSource p = some m ∧ pktDest p = some n := ⟨h.2.1, h.2.2.1⟩

/-- A request whose service is one answer, in a network as it found it, ends with that answer. -/
theorem request_answered (hs : Serves m n w cmd serve) (h : arrives s m n p) (hb : pktBad p = false) (hst : (ni s n.val).st = .opened)
    {y : State} {ty : BitVec 4} {st : Half} {d : Bytes}
    (hu : serveRequest (reached s m n p w) n m (sentPkt s m n p w) w (serve (sentPkt s m n p w)) = respond y n (sentPkt s m n p w) ty st d)
    (hy : y.noc = (reached s m n p w).noc) : request s p w cmd = respond y n (sentPkt s m n p w) ty st d := by
  obtain ⟨own, quiet⟩ := ni_respond y n (q := sentPkt s m n p w) (source_of_arrives h).1 ty st d
  have same : ni y n.val = ni (reached s m n p w) n.val := by simp only [ni, hy]
  obtain ⟨l, hl⟩ := ni_reached s m n p w n.val
  rw [request_arrives h hb, comeTo_open hs h hst (by rw [hu, own, same, hl]), hu, nocMoves_of_quiet]
  rw [quiet, meshQuiet, hy]
  have rest : meshQuiet s = true := meshQuiet_of_arrives h
  exact rest

/-- A request that an open interface serves: whatever its service has sent stays sent. -/
theorem request_grows (hs : Serves m n w cmd serve) (h : arrives s m n p) (hb : pktBad p = false) (hst : (ni s n.val).st = .opened) :
    Grows (serveRequest (reached s m n p w) n m (sentPkt s m n p w) w (serve (sentPkt s m n p w))) (request s p w cmd) := by
  rw [request_arrives h hb]
  exact (comeTo_open_grows hs h hst).trans (nocMoves_grows _)

theorem request_turned (hs : Serves m n w cmd serve) (h : arrives s m n p) (hb : pktBad p = false) {r : FenceReason}
    (hst : (ni s n.val).st = .closing r ∨ (ni s n.val).st = .drained r ∨ (ni s n.val).st = .fenced r) :
    request s p w cmd = nocMoves (nackRequest (noted s m n p w) n (sentPkt s m n p w) r) := by
  rw [request_arrives h hb, comeTo_turned hs hst]

end

/-! ### The commands -/

theorem exec_read (s : State) (p : Pkt) (rc : ReadCycle) :
    exec (.read p rc) s = .next (takeMark (clearFirst (bump (request s p false fun q => .read q rc)))) := rfl

theorem exec_write (s : State) (p : Pkt) (y : Option PortYWrite) :
    exec (.write p y) s = .next (takeMark (bump (request (clearFirst s) p true fun q => .write q y))) := rfl

theorem arrives_clearFirst {s : State} {m n : NiId} {p : Pkt} (h : arrives s m n p) : arrives (clearFirst s) m n p := h

/-- A step that changes the network alone. -/
theorem eq_of_noc_foot {s u : State} (h : Foot 0x800000 s u) : u = { s with noc := u.noc } := by
  cases u
  exact (State.mk.injEq ..).mpr ⟨
    h.1, h.2 .freeCtr rfl, h.2 .time rfl, h.2 .tiles rfl, h.2 .map rfl, h.2 .pe rfl, h.2 .peMem rfl, h.2 .peBad rfl,
    h.2 .peTag rfl, h.2 .seqs rfl, h.2 .ctxs rfl, h.2 .mc rfl, h.2 .tenants rfl, h.2 .lastYield rfl, h.2 .sp rfl, h.2 .xm rfl,
    h.2 .spBad rfl, h.2 .xmBad rfl, h.2 .spFill rfl, h.2 .xmFill rfl, h.2 .xmFirst rfl, h.2 .mem rfl, h.2 .march rfl,
    h.2 .xmCollisions rfl, rfl, h.2 .grouping rfl, h.2 .maxSpeed rfl, h.2 .cams rfl, h.2 .fab rfl, h.2 .field rfl,
    h.2 .ses rfl, h.2 .net rfl, h.2 .clk rfl, h.2 .sup rfl, h.2 .start rfl, h.2 .ident rfl, h.2 .obs rfl⟩

theorem reached_foot {k : Nat} {z : State} (s : State) (m n : NiId) (p : Pkt) (w : Bool) (hm : 0x800000 ||| k = k) (h0 : Foot k z s) :
    Foot k z (reached s m n p w) := by
  have first : Foot k z (numbered s m n p w).2 := Foot.up_noc h0 hm
  exact Foot.up_noc (noteRequest_foot _ m n _ w hm first) hm

theorem reached_eq (s : State) (m n : NiId) (p : Pkt) (w : Bool) : ∃ N, reached s m n p w = { s with noc := N } :=
  ⟨_, eq_of_noc_foot (reached_foot s m n p w (Nat.or_self _) (Foot.refl _ s))⟩

theorem meetsTest_reached (s : State) (m n : NiId) (p : Pkt) (w : Bool) :
    meetsTest (reached s m n p w) n (sentPkt s m n p w) = meetsTest s n p := by
  obtain ⟨N, hN⟩ := reached_eq s m n p w
  rw [hN]
  rfl

theorem tenAllowed_reached (s : State) (m n : NiId) (p : Pkt) (w : Bool) :
    tenAllowed (reached s m n p w) n m (sentPkt s m n p w) w = tenAllowed s n m p w := by
  obtain ⟨N, hN⟩ := reached_eq s m n p w
  rw [hN]
  rfl

end Sys2Proof.Machine
end

