-- ==== Sys2Proof/Proofs/RefusedRequests.lean ====
section
/-! SUPPORT. Requests that are refused: headers, fences, addresses, tests, tenants (R42, R191, R231, R244, R254, R255, R257, R270, R426). -/

namespace Sys2Proof.Machine

open Sys2Proof

/-! ### READ and WRITE as one command -/

/-- The request as the statement names it. -/
def plainCmd (w : Bool) (p : Pkt) : Instr := if w then .write p none else .read p ⟨false, false⟩

/-- The service that its destination gives it. -/
def plainServe (m n : NiId) (w : Bool) (q : Pkt) (x : State) : State :=
  if w then serveWrite q none n x else serveRead q ⟨false, false⟩ n m x

theorem serves_plain (m n : NiId) (w : Bool) : Serves m n w (plainCmd w) (plainServe m n w) := by
  cases w
  · exact serves_read m n ⟨false, false⟩
  · exact serves_write m n none

/-- The state in which the request is made, and the one in which its command ends. -/
def begun (w : Bool) (s : State) : State := if w then clearFirst s else s
def ended (w : Bool) (v : State) : State := if w then bump v else clearFirst (bump v)

theorem exec_plain (w : Bool) (s : State) (p : Pkt) :
    exec (plainCmd w p) s = .next (takeMark (ended w (request (begun w s) p w (plainCmd w)))) := by
  cases w <;> rfl

theorem begun_foot {k : Nat} {z : State} (w : Bool) (s : State) (hm : 0x80000 ||| k = k) (h0 : Foot k z s) : Foot k z (begun w s) :=
  Foot.ite (Foot.up_xmFirst h0 hm) h0

theorem ended_foot {k : Nat} {z : State} (w : Bool) (v : State) (hm : 0x80001 ||| k = k) (h0 : Foot k z v) : Foot k z (ended w v) := by
  have counted := bump_foot v (Foot.sub (by decide) hm) h0
  exact Foot.ite counted (Foot.up_xmFirst counted (Foot.sub (by decide) hm))

theorem ended_obs (w : Bool) (v : State) : (ended w v).obs = v.obs := by cases w <;> rfl

theorem ended_noc (w : Bool) (v : State) : (ended w v).noc = v.noc := by cases w <;> rfl

theorem ended_clk (w : Bool) (v : State) : (ended w v).clk = v.clk := by cases w <;> rfl

theorem answersWith_of_noc {u v : State} (h : u.noc = v.noc) {m n : NiId} {p : Pkt} {ty : BitVec 4} {st : Half} {P : Bytes → Prop}
    (ha : answersWith v m n p ty st P) : answersWith u m n p ty st P := by
  have same : ni u n.val = ni v n.val := by simp only [ni, h]
  obtain ⟨r, hr, hp⟩ := ha
  exact ⟨r, same ▸ hr, hp⟩

theorem arrives_begun {s : State} {m n : NiId} {p : Pkt} (w : Bool) (h : arrives s m n p) : arrives (begun w s) m n p := by
  cases w
  · exact h
  · exact arrives_clearFirst h

theorem exec_plain_next {w : Bool} {s v : State} {p : Pkt} (hv : request (begun w s) p w (plainCmd w) = v) (hd : v.obs.due = none) :
    exec (plainCmd w p) s = .next (ended w v) := by
  rw [exec_plain, hv, takeMark_none (by rw [ended_obs, hd])]

/-- The packet as it is sent differs from the one that is given in its number and its DOR bit alone. -/
theorem sentPkt_eq (s : State) (m n : NiId) (p : Pkt) (w : Bool) : ∃ a b, sentPkt s m n p w = { p with sn := a, dor := b } := ⟨_, _, rfl⟩

theorem sentPkt_answers (y : State) {s : State} {m n : NiId} {p : Pkt} {w : Bool} (h : arrives s m n p) (ty : BitVec 4) (st : Half) (d : Bytes) :
    answersWith (respond y n (sentPkt s m n p w) ty st d) m n p ty st fun e => e = d := by
  obtain ⟨a, b, hq⟩ := sentPkt_eq s m n p w
  obtain ⟨src, dst⟩ := source_of_arrives h
  rw [hq]
  exact respond_answers y (p := { p with sn := a, dor := b }) src dst ty st d

/-- A request that ends in `v` where `n` has answered it with no data; only the components `l` differ there from the first state. -/
theorem ends_of {w : Bool} {s v : State} {m n : NiId} {p : Pkt} {l : List Comp} {ty : BitVec 4} {st : Half} {e : State → Prop}
    (hv : request (begun w s) p w (plainCmd w) = v) (ha : answersWith v m n p ty st fun d => d = [])
    (hm : 0x880001 ||| maskOf l = maskOf l) (hf : Foot (maskOf l) s v) (hd : v.obs.due = none) (he : e (ended w v)) :
    runs (plainCmd w p) s l fun u => answersWith u m n p ty st (fun d => d = []) ∧ e u :=
  ⟨_, exec_plain_next hv hd, ⟨answersWith_of_noc (ended_noc w v) ha, he⟩, Foot.sameBut (ended_foot w v (Foot.sub (by decide) hm) hf)⟩

/-! ### Headers that are refused (R255) -/

theorem request_bad {s : State} {m n : NiId} {p : Pkt} (h : arrives s m n p) (hb : pktBad p = true) (w : Bool) (cmd : Pkt → Instr) :
    request s p w cmd = if p.ty = tyRead ∨ p.ty = tyWrite then
      respond (noteRequest (badHeader s n p) m n p w) n p tyError statusDecode [] else badHeader s n p := by
  obtain ⟨up, src, dst, lm, ln, open_, vcs, fresh, room, -⟩ := h
  have unheld : ((ni s m.val).held.any fun o => decide (o.tid = p.tid)) = false := by
    simpa using fun o ho => fresh o (List.mem_append_right _ ho)
  have idle : ¬(nocUp s = false ∨ niLive s m = false ∨ (ni s m.val).st ≠ .opened ∨ (requestVcs m).contains p.vc = false) := by
    rw [up, lm, open_, vcs]
    decide
  unfold request
  rw [src, dst]
  dsimp only
  rw [if_neg idle, if_neg (by simp [unheld]), if_neg (by omega), if_pos hb]

/-! ### Checks of an open interface -/

section
variable {s : State} {m n : NiId} {p : Pkt} {w : Bool} {f : State → State}

/-- The address and the type decode. -/
def decodes (n : NiId) (p : Pkt) (w : Bool) : Prop := addrOk n p w = true ∧ p.ty = if w then 2 else 1

theorem undecoded_iff : (!addrOk n (sentPkt s m n p w) w || decide ((sentPkt s m n p w).ty ≠ if w then tyWrite else tyRead)) = true ↔
    ¬decodes n p w := by
  have addr : addrOk n (sentPkt s m n p w) w = addrOk n p w := rfl
  have type : (sentPkt s m n p w).ty = p.ty := rfl
  rw [addr, type, decodes]
  cases w <;> cases addrOk n p _ <;> simp [tyWrite, tyRead]

theorem serveRequest_undecoded (hd : ¬decodes n p w) : serveRequest (reached s m n p w) n m (sentPkt s m n p w) w f =
    respond (reached s m n p w) n (sentPkt s m n p w) tyError statusDecode [] :=
  if_pos (undecoded_iff.mpr hd)

/-- A request that decodes is refused under a destructive test and where its tenant may not access, and served else. -/
theorem serveRequest_decoded (hd : decodes n p w) : serveRequest (reached s m n p w) n m (sentPkt s m n p w) w f =
    if meetsTest s n p then respond (logEvent (reached s m n p w) 0x0404 1 [] (testInst (reached s m n p w) n) m.val (leBytes 4 p.addr.toNat))
      n (sentPkt s m n p w) tyError statusDtest []
    else if !tenAllowed s n m p w then respond (reached s m n p w) n (sentPkt s m n p w) tyError statusAccess []
    else f (reached s m n p w) := by
  rw [← meetsTest_reached s m n p w, ← tenAllowed_reached s m n p w]
  exact if_neg fun h => undecoded_iff.mp h hd

end

theorem plainServe_unwritable {s x : State} {m n : NiId} {p : Pkt} {q : TileId} (ht : niTile n = some q)
    (hb : writableBit (tile s q.val) (p.addr.toNat % 4096) = false) (hx : x.tiles = s.tiles) :
    plainServe m n true p x = respond x n p tyError statusAccess [] := by
  have bad : tileWriteBad x n p = true := by
    rw [tileWriteBad, ht]
    dsimp only
    rw [tile_of_tiles hx, hb]
    rfl
  exact if_pos bad

/-- A NACK without a gate behind it is one answer. -/
theorem nackRequest_plain {x : State} {n : NiId} {p : Pkt} {r : FenceReason} (h : r ≠ .dark ∨ gateOf n = none) :
    nackRequest x n p r = respond (countNack x) n p tyNack (reasonStatus r) [] := by
  unfold nackRequest
  cases r with
  | dark =>
    rw [h.resolve_left fun hn => hn rfl]
    rfl
  | draining => rfl
  | off => rfl

theorem nackRequest_gated {x : State} {n : NiId} {p : Pkt} {b : Nat} (h : gateOf n = some b) :
    nackRequest x n p .dark = openGate (respond (countNack x) n p tyNack 0x10 []) b := by
  unfold nackRequest
  rw [h]
  rfl

theorem gateOf_lt {n : NiId} {b : Nat} (h : gateOf n = some b) : b < 25 := List.mem_range.mp (List.mem_of_find?_eq_some h)

/-! ### What each refusal comes to -/

theorem logged_of_logEvent {s x u : State} {c : Half} {v : BitVec 2} {ts : List Tenant} {i a : Nat} {b : Bytes} (ho : x.obs = s.obs)
    (ht : x.time = s.time) (hu : u.obs = (logEvent x c v ts i a b).obs) : logged s u c i a := by
  rw [logged, hu, ← ho, ← ht]
  exact ⟨_, rfl, rfl, rfl, rfl, rfl, rfl, rfl⟩

section
variable {s : State} {m n : NiId} {p : Pkt} {w : Bool}

theorem due_of_arrives (h : arrives s m n p) : s.obs.due = none := by
  obtain ⟨-, -, -, -, -, -, -, -, -, -, -, due⟩ := h
  exact due

theorem begun_ni (w : Bool) (s : State) (k : Nat) : ni (begun w s) k = ni s k := by cases w <;> rfl

theorem begun_obs (w : Bool) (s : State) : (begun w s).obs = s.obs := by cases w <;> rfl

theorem logged_begun {u : State} {c : Half} {i a : Nat} (h : logged (begun w s) u c i a) : logged s u c i a := by
  cases w <;> exact h

/-- The answer and its components, of a request that an open interface answers from the state `y`. -/
theorem ends_open (h : arrives s m n p) (hb : pktBad p = false) (hst : (ni s n.val).st = .opened) {l : List Comp} {ty : BitVec 4} {st : Half}
    {e : State → Prop} {y : State}
    (hu : serveRequest (reached (begun w s) m n p w) n m (sentPkt (begun w s) m n p w) w
      (plainServe m n w (sentPkt (begun w s) m n p w)) = respond y n (sentPkt (begun w s) m n p w) ty st [])
    (hy : y.noc = (reached (begun w s) m n p w).noc) (hm : 0x880001 ||| maskOf l = maskOf l) (hf : Foot (maskOf l) s y)
    (hd : y.obs.due = none) (he : ∀ u, u.obs = y.obs → e u) :
    runs (plainCmd w p) s l fun u => answersWith u m n p ty st (fun d => d = []) ∧ e u := by
  have arr := arrives_begun w h
  have hv := request_answered (serves_plain m n w) arr hb (by rw [begun_ni, hst]) hu hy
  have same : ∀ q, (respond y n q ty st []).obs = y.obs := fun q =>
    (respond_foot y n q ty st [] (Nat.or_self _) (Foot.refl _ y)).2 .obs (by decide)
  refine ends_of hv (sentPkt_answers y arr ty st []) hm (respond_foot y n _ ty st [] (Foot.sub (by decide) hm) hf) (by rw [same, hd]) (he _ ?_)
  rw [ended_obs, same]

theorem begun_reached_foot (s : State) (m n : NiId) (p : Pkt) (w : Bool) {k : Nat} (hm : 0x880001 ||| k = k) :
    Foot k s (reached (begun w s) m n p w) :=
  reached_foot _ m n p w (Foot.sub (by decide) hm) (begun_foot w s (Foot.sub (by decide) hm) (Foot.refl _ s))

theorem begun_reached_obs (s : State) (m n : NiId) (p : Pkt) (w : Bool) : (reached (begun w s) m n p w).obs = s.obs :=
  (begun_reached_foot s m n p w (k := 0x880001) (by decide)).2 .obs (by decide)

theorem ends_undecoded (h : arrives s m n p) (hb : pktBad p = false) (hst : (ni s n.val).st = .opened) (hd : ¬decodes n p w) :
    runs (plainCmd w p) s [.freeCtr, .noc, .xmFirst] fun u => answersWith u m n p 6 4 (fun d => d = []) ∧ True :=
  ends_open h hb hst (serveRequest_undecoded hd) rfl (by decide) (begun_reached_foot s m n p w (by decide))
    (by rw [begun_reached_obs, due_of_arrives h]) fun _ _ => trivial

theorem meetsTest_begun (w : Bool) (s : State) (n : NiId) (p : Pkt) : meetsTest (begun w s) n p = meetsTest s n p := by cases w <;> rfl

theorem tenAllowed_begun (w : Bool) (s : State) (n m : NiId) (p : Pkt) : tenAllowed (begun w s) n m p w = tenAllowed s n m p w := by
  cases w <;> rfl

theorem ends_underTest (h : arrives s m n p) (hb : pktBad p = false) (hst : (ni s n.val).st = .opened) (hd : decodes n p w)
    (ht : meetsTest s n p = true) : runs (plainCmd w p) s [.freeCtr, .noc, .xmFirst, .obs] fun u =>
      answersWith u m n p 6 5 (fun d => d = []) ∧ ∃ i, logged s u 0x0404 i m.val := by
  have hu := serveRequest_decoded (s := begun w s) (m := m) (f := plainServe m n w (sentPkt (begun w s) m n p w)) hd
  rw [meetsTest_begun, if_pos ht] at hu
  have foot := begun_reached_foot s m n p w (k := maskOf [.freeCtr, .noc, .xmFirst, .obs]) (by decide)
  have time : (reached (begun w s) m n p w).time = s.time := foot.2 .time (by decide)
  have obs := begun_reached_obs s m n p w
  exact ends_open h hb hst hu rfl (by decide) (logEvent_foot _ _ _ _ _ _ _ (by decide) foot)
    ((congrArg Observe.due obs).trans (due_of_arrives h)) fun u hu => ⟨_, logged_of_logEvent obs time hu⟩

theorem ends_unallowed (h : arrives s m n p) (hb : pktBad p = false) (hst : (ni s n.val).st = .opened) (hd : decodes n p w)
    (ht : meetsTest s n p = false) (ha : tenAllowed s n m p w = false) : runs (plainCmd w p) s [.freeCtr, .noc, .xmFirst] fun u =>
      answersWith u m n p 6 2 (fun d => d = []) ∧ True := by
  have hu := serveRequest_decoded (s := begun w s) (m := m) (f := plainServe m n w (sentPkt (begun w s) m n p w)) hd
  rw [meetsTest_begun, tenAllowed_begun, if_neg (by simp [ht]), if_pos (by simp [ha])] at hu
  exact ends_open h hb hst hu rfl (by decide) (begun_reached_foot s m n p w (by decide)) (by rw [begun_reached_obs, due_of_arrives h])
    fun _ _ => trivial

theorem ends_unwritable (h : arrives s m n p) (hb : pktBad p = false) (hst : (ni s n.val).st = .opened) (hd : decodes n p true)
    (ht : meetsTest s n p = false) (ha : tenAllowed s n m p true = true) {q : TileId} (hq : niTile n = some q)
    (hw : writableBit (tile s q.val) (p.addr.toNat % 4096) = false) : runs (plainCmd true p) s [.freeCtr, .noc, .xmFirst] fun u =>
      answersWith u m n p 6 2 (fun d => d = []) ∧ True := by
  have hu := serveRequest_decoded (s := begun true s) (m := m) (f := plainServe m n true (sentPkt (begun true s) m n p true)) hd
  have tiles : (reached (begun true s) m n p true).tiles = s.tiles :=
    (begun_reached_foot s m n p true (k := 0x880001) (by decide)).2 .tiles (by decide)
  rw [meetsTest_begun, tenAllowed_begun, if_neg (by simp [ht]), if_neg (by simp [ha]), plainServe_unwritable (s := s) (p := sentPkt (begun true s) m n p true) hq hw tiles] at hu
  exact ends_open h hb hst hu rfl (by decide) (begun_reached_foot s m n p true (by decide)) (by rw [begun_reached_obs, due_of_arrives h])
    fun _ _ => trivial

/-! ### Headers and fences -/

theorem begun_noted_foot (s : State) (m n : NiId) (p : Pkt) (w : Bool) {k : Nat} (hm : 0x880001 ||| k = k) :
    Foot k s (countNack (noted (begun w s) m n p w)) := by
  have first : Foot k s (numbered (begun w s) m n p w).2 := Foot.up_noc (begun_foot w s (Foot.sub (by decide) hm) (Foot.refl _ s)) (Foot.sub (by decide) hm)
  exact Foot.up_noc (noteRequest_foot _ m n _ w (Foot.sub (by decide) hm) first) (Foot.sub (by decide) hm)

theorem meshQuiet_noted (s : State) (m n : NiId) (p : Pkt) (w : Bool) : meshQuiet (countNack (noted s m n p w)) = meshQuiet s := by
  unfold meshQuiet
  rfl

theorem request_nacked (h : arrives s m n p) (hb : pktBad p = false) {r : FenceReason}
    (hst : (ni s n.val).st = .closing r ∨ (ni s n.val).st = .drained r ∨ (ni s n.val).st = .fenced r) :
    request (begun w s) p w (plainCmd w) = nocMoves (nackRequest (noted (begun w s) m n p w) n (sentPkt (begun w s) m n p w) r) :=
  request_turned (serves_plain m n w) (arrives_begun w h) hb (by rw [begun_ni]; exact hst)

theorem nacks_counted (y : State) (n : NiId) (q : Pkt) (ty : BitVec 4) (st : Half) (d : Bytes) :
    (respond y n q ty st d).noc.fencedNacks = y.noc.fencedNacks := by
  unfold respond
  split <;> rfl

theorem ends_nacked (h : arrives s m n p) (hb : pktBad p = false) {r : FenceReason}
    (hst : (ni s n.val).st = .closing r ∨ (ni s n.val).st = .drained r ∨ (ni s n.val).st = .fenced r) (hr : r ≠ .dark ∨ gateOf n = none) :
    runs (plainCmd w p) s [.freeCtr, .noc, .xmFirst] fun u => answersWith u m n p 5 (reasonStatus r) (fun d => d = []) ∧
      u.noc.fencedNacks = satInc s.noc.fencedNacks := by
  have arr := arrives_begun w h
  let y := countNack (noted (begun w s) m n p w)
  have foot := begun_noted_foot s m n p w (k := maskOf [.freeCtr, .noc, .xmFirst]) (by decide)
  have obs : (respond y n (sentPkt (begun w s) m n p w) tyNack (reasonStatus r) []).obs = s.obs :=
    (respond_foot y n _ _ _ _ (by decide) foot).2 .obs (by decide)
  have hv := request_nacked (w := w) h hb hst
  rw [nackRequest_plain hr, nocMoves_of_quiet] at hv
  · refine ends_of hv (sentPkt_answers y arr tyNack (reasonStatus r) []) (by decide) (respond_foot y n _ _ _ _ (by decide) foot)
      (by rw [obs, due_of_arrives h]) ?_
    rw [ended_noc, nacks_counted]
    cases w <;> rfl
  · rw [(ni_respond y n (q := sentPkt (begun w s) m n p w) (source_of_arrives h).1 tyNack (reasonStatus r) []).2, meshQuiet_noted]
    exact meshQuiet_of_arrives arr

theorem takeMark_grows (s : State) : Grows s (takeMark s) := Grows.frame (takeMark_foot s (Nat.or_self _) (Foot.refl _ s)) (by decide)

theorem ended_grows (w : Bool) (v : State) : Grows v (ended w v) := Grows.of_eq (by rw [ended_noc]) (ended_clk w v)

/-- A NACK of a gated block: its clock starts again, and whatever then moves leaves both the answer and the gate. -/
theorem gated_nacked (h : arrives s m n p) (hb : pktBad p = false)
    (hst : (ni s n.val).st = .closing .dark ∨ (ni s n.val).st = .drained .dark ∨ (ni s n.val).st = .fenced .dark) {b : Nat}
    (hg : gateOf n = some b) : ∃ u, exec (plainCmd w p) s = .next u ∧ answersWith u m n p 5 0x10 (fun d => d = []) ∧
      u.clk.gated.getLsbD b = false := by
  have arr := arrives_begun w h
  let v := respond (countNack (noted (begun w s) m n p w)) n (sentPkt (begun w s) m n p w) tyNack 0x10 []
  have grows : ∀ z, Grows z (nocMoves (openGate v b)) → Grows z (takeMark (ended w (request (begun w s) p w (plainCmd w)))) := fun z hz => by
    rw [request_nacked h hb hst, nackRequest_gated hg]
    exact hz.trans ((ended_grows w _).trans (takeMark_grows _))
  refine ⟨_, exec_plain w s p, ?_, ?_⟩
  · exact (grows v ((openGate_grows v b).trans (nocMoves_grows _))).answersWith (sentPkt_answers _ arr tyNack 0x10 [])
  · exact (grows (openGate v b) (nocMoves_grows _)).gated b (gated_openGate v (gateOf_lt hg))

theorem ends_bad (h : arrives s m n p) (hb : pktBad p = true) (ht : p.ty = 1 ∨ p.ty = 2) :
    runs (plainCmd w p) s [.freeCtr, .noc, .xmFirst, .obs] fun u => answersWith u m n p 6 4 (fun d => d = []) ∧
      logged s u 0x0501 (n.val / 2) n.val := by
  have hv := request_bad (arrives_begun w h) hb w (plainCmd w)
  rw [if_pos (show p.ty = tyRead ∨ p.ty = tyWrite from ht)] at hv
  obtain ⟨src, dst⟩ := source_of_arrives h
  have obs : (respond (noteRequest (badHeader (begun w s) n p) m n p w) n p tyError statusDecode []).obs = (badHeader (begun w s) n p).obs :=
    (respond_foot (m := 0x800000) _ n p _ _ _ (by decide) (noteRequest_foot _ m n p w (by decide) (Foot.refl _ _))).2 .obs (by decide)
  refine ends_of hv (respond_answers _ src dst tyError statusDecode []) (by decide) ?_ ?_ ?_
  · exact respond_foot _ n p _ _ _ (by decide) (noteRequest_foot _ m n p w (by decide)
      (logEvent_foot _ _ _ _ _ _ _ (by decide) (begun_foot w s (by decide) (Foot.refl _ s))))
  · rw [obs]
    exact (congrArg Observe.due (begun_obs w s)).trans (due_of_arrives h)
  · exact logged_begun (logged_of_logEvent (s := begun w s) (x := begun w s) rfl rfl ((ended_obs w _).trans obs))

theorem ends_absorbed (h : arrives s m n p) (hb : pktBad p = true) (ht : ¬(p.ty = 1 ∨ p.ty = 2)) :
    runs (plainCmd w p) s [.freeCtr, .xmFirst, .obs] fun u => logged s u 0x0501 (n.val / 2) n.val := by
  have hv := request_bad (arrives_begun w h) hb w (plainCmd w)
  rw [if_neg (show ¬(p.ty = tyRead ∨ p.ty = tyWrite) from ht)] at hv
  have due : (badHeader (begun w s) n p).obs.due = none := (congrArg Observe.due (begun_obs w s)).trans (due_of_arrives h)
  refine ⟨_, exec_plain_next hv due, logged_begun (logged_of_logEvent (s := begun w s) (x := begun w s) rfl rfl (ended_obs w _)), ?_⟩
  exact Foot.sameBut (ended_foot w _ (by decide) (logEvent_foot _ _ _ _ _ _ _ (by decide) (begun_foot w s (by decide) (Foot.refl _ s))))

end

/-- Requests that are not served are answered with their status, by the check that refuses them. -/
theorem requests_refused (s : State) (m n : NiId) (p : Pkt) (w : Bool) (r : FenceReason) (h : arrives s m n p) :
    let c : Instr := if w then .write p none else .read p ⟨false, false⟩
    let st := (ni s n.val).st
    let ends := fun (l : List Comp) (ty : BitVec 4) (code : Half) (e : State → Prop) =>
      runs c s ([.freeCtr, .noc, .xmFirst] ++ l) fun u => answersWith u m n p ty code (fun d => d = []) ∧ e u
    let code : Half := match r with
      | .dark => 0x10
      | .draining => 0x11
      | .off => 0x12
    let decodes := addrOk n p w = true ∧ p.ty = (if w then 2 else 1)
    (pktBad p = true →
      (p.ty = 1 ∨ p.ty = 2 → ends [.obs] 6 4 fun u => logged s u 0x0501 (n.val / 2) n.val) ∧
      (¬(p.ty = 1 ∨ p.ty = 2) → runs c s [.freeCtr, .xmFirst, .obs] fun u => logged s u 0x0501 (n.val / 2) n.val)) ∧
    (pktBad p = false →
      (st = .closing r ∨ st = .drained r ∨ st = .fenced r →
        (r ≠ .dark ∨ gateOf n = none → ends [] 5 code fun u => u.noc.fencedNacks = satInc s.noc.fencedNacks) ∧
        (∀ b, r = .dark → gateOf n = some b → ∃ u, exec c s = .next u ∧ answersWith u m n p 5 0x10 (fun d => d = []) ∧
          u.clk.gated.getLsbD b = false)) ∧
      (st = .opened →
        (¬decodes → ends [] 6 4 fun _ => True) ∧
        (decodes → meetsTest s n p = true → ends [.obs] 6 5 fun u => ∃ i, logged s u 0x0404 i m.val) ∧
        (decodes → meetsTest s n p = false → tenAllowed s n m p w = false → ends [] 6 2 fun _ => True) ∧
        (∀ q, decodes → meetsTest s n p = false → tenAllowed s n m p w = true → w = true → niTile n = some q →
          writableBit (tile s q.val) (p.addr.toNat % 4096) = false → ends [] 6 2 fun _ => True))) := by
  refine ⟨fun hb => ⟨ends_bad h hb, ends_absorbed h hb⟩, fun hb => ⟨fun hst => ⟨fun hr => ?_, fun b hr hg => ?_⟩, fun hst => ⟨?_, ?_, ?_, ?_⟩⟩⟩
  · cases r with
    | dark => exact ends_nacked h hb hst hr
    | draining => exact ends_nacked h hb hst hr
    | off => exact ends_nacked h hb hst hr
  · subst hr
    exact gated_nacked h hb hst hg
  · exact ends_undecoded h hb hst
  · exact ends_underTest h hb hst
  · exact ends_unallowed h hb hst
  · intro q hd ht ha hw hq hbit
    subst hw
    exact ends_unwritable h hb hst hd ht ha hq hbit

end Sys2Proof.Machine
end

