-- ==== Sys2Proof/Proofs/ServedTiles.lean ====
section
/-! SUPPORT. READ and WRITE requests that are served, and those that a tile serves (R38, R42, R228, R253, R256). -/

namespace Sys2Proof.Machine

open Sys2Proof

/-! ### Requests that pass every check -/

section
variable {s : State} {m n : NiId} {p : Pkt}

theorem read_served (h : arrives s m n p) (hb : pktBad p = false) (hst : (ni s n.val).st = .opened) (hd : decodes n p false)
    (ht : meetsTest s n p = false) (ha : tenAllowed s n m p false = true) {rc : ReadCycle} {l : List Comp} {ty : BitVec 4} {st : Half}
    {d : Bytes} {P : Bytes → Prop} {e : State → Prop} {y : State}
    (hu : serveRead (sentPkt s m n p false) rc n m (reached s m n p false) = respond y n (sentPkt s m n p false) ty st d)
    (hy : y.noc = (reached s m n p false).noc) (hm : 0x880001 ||| maskOf l = maskOf l) (hf : Foot (maskOf l) s y) (hdue : y.obs.due = none)
    (hP : P d) (he : ∀ u, Foot 0x880001 y u → u.xmFirst = none → e u) :
    runs (.read p rc) s l fun u => e u ∧ answersWith u m n p ty st P := by
  have serve := serveRequest_decoded (s := s) (m := m) (f := serveRead (sentPkt s m n p false) rc n m) hd
  rw [if_neg (by simp [ht]), if_neg (by simp [ha]), hu] at serve
  have hv := request_answered (serves_read m n rc) h hb hst serve hy
  have sent : Foot 0x880001 y (respond y n (sentPkt s m n p false) ty st d) := respond_foot y n _ ty st d (by decide) (Foot.refl _ y)
  have kept : Foot 0x880001 y (ended false (respond y n (sentPkt s m n p false) ty st d)) := ended_foot false _ (by decide) sent
  refine ⟨ended false (respond y n (sentPkt s m n p false) ty st d), ?_, ⟨he _ kept rfl, ?_⟩, ?_⟩
  · rw [exec_read, hv]
    exact congrArg _ (takeMark_none (Eq.trans (congrArg Observe.due (kept.2 .obs (by decide))) hdue))
  · exact answersWith_imp (answersWith_of_noc (ended_noc false _) (sentPkt_answers y h ty st d)) fun _ hd => hd ▸ hP
  · exact Foot.sameBut (ended_foot false _ (Foot.sub (by decide) hm) (respond_foot y n _ ty st d (Foot.sub (by decide) hm) hf))

/-- The service of a write, from the state in which its command has cleared what reads between cycles. -/
def writeServed (s : State) (m n : NiId) (p : Pkt) (pY : Option PortYWrite) : State :=
  serveWrite (sentPkt (clearFirst s) m n p true) pY n (reached (clearFirst s) m n p true)

theorem request_write (h : arrives s m n p) (hb : pktBad p = false) (hst : (ni s n.val).st = .opened) (hd : decodes n p true)
    (ht : meetsTest s n p = false) (ha : tenAllowed s n m p true = true) {pY : Option PortYWrite} {ty : BitVec 4} {st : Half} {y : State}
    (hu : writeServed s m n p pY = respond y n (sentPkt (clearFirst s) m n p true) ty st [])
    (hy : y.noc = (reached (clearFirst s) m n p true).noc) :
    request (clearFirst s) p true (fun q => .write q pY) = respond y n (sentPkt (clearFirst s) m n p true) ty st [] := by
  have serve := serveRequest_decoded (s := clearFirst s) (m := m) (f := serveWrite (sentPkt (clearFirst s) m n p true) pY n) hd
  rw [if_neg (by simp [show meetsTest (clearFirst s) n p = false from ht]),
    if_neg (by simp [show tenAllowed (clearFirst s) n m p true = true from ha])] at serve
  exact request_answered (serves_write m n pY) (arrives_clearFirst h) hb hst (serve.trans hu) hy

theorem write_served (h : arrives s m n p) (hb : pktBad p = false) (hst : (ni s n.val).st = .opened) (hd : decodes n p true)
    (ht : meetsTest s n p = false) (ha : tenAllowed s n m p true = true) {pY : Option PortYWrite} {l : List Comp} {ty : BitVec 4} {st : Half}
    {e : State → Prop} {y : State}
    (hu : writeServed s m n p pY = respond y n (sentPkt (clearFirst s) m n p true) ty st [])
    (hy : y.noc = (reached (clearFirst s) m n p true).noc) (hm : 0x880001 ||| maskOf l = maskOf l) (hf : Foot (maskOf l) s y)
    (hdue : y.obs.due = none) (he : ∀ u, Foot 0x800001 y u → e u) :
    runs (.write p pY) s l fun u => e u ∧ answersWith u m n p ty st fun d => d = [] := by
  have hv := request_write h hb hst hd ht ha hu hy
  have sent : Foot 0x800001 y (respond y n (sentPkt (clearFirst s) m n p true) ty st []) :=
    respond_foot y n _ ty st [] (by decide) (Foot.refl _ y)
  have kept : Foot 0x800001 y (bump (respond y n (sentPkt (clearFirst s) m n p true) ty st [])) := bump_foot _ (by decide) sent
  refine ⟨bump (respond y n (sentPkt (clearFirst s) m n p true) ty st []), ?_, ⟨he _ kept, ?_⟩, ?_⟩
  · rw [exec_write, hv]
    exact congrArg _ (takeMark_none (Eq.trans (congrArg Observe.due (kept.2 .obs (by decide))) hdue))
  · exact answersWith_of_noc (v := respond y n (sentPkt (clearFirst s) m n p true) ty st []) rfl
      (sentPkt_answers y (arrives_clearFirst h) ty st [])
  · exact Foot.sameBut (bump_foot _ (Foot.sub (by decide) hm) (respond_foot y n _ ty st [] (Foot.sub (by decide) hm) hf))

end

/-! ### Bytes of planes -/

theorem testBit_foldr_bits (f : Nat → Bool) {l : List Nat} {b : Nat} (hb : b < l.length) :
    (l.foldr (fun i acc => 2 * acc + (f i).toNat) 0).testBit b = f l[b] := by
  induction l generalizing b with
  | nil => exact nomatch hb
  | cons i l ih =>
    rw [List.foldr_cons]
    cases b with
    | zero => cases hf : f i <;> simp [hf, Nat.testBit_zero]
    | succ b =>
      have half : (2 * l.foldr (fun i acc => 2 * acc + (f i).toNat) 0 + (f i).toNat) / 2 = l.foldr (fun i acc => 2 * acc + (f i).toNat) 0 := by
        have := Bool.toNat_lt (f i)
        omega
      rw [Nat.testBit_succ, half, ih (Nat.lt_of_succ_lt_succ hb), List.getElem_cons_succ]

theorem getLsbD_byte (f : Nat → Bool) {b : Nat} (hb : b < 8) :
    (BitVec.ofNat 8 ((List.range 8).foldr (fun i acc => 2 * acc + (f i).toNat) 0)).getLsbD b = f b := by
  rw [BitVec.getLsbD_ofNat, testBit_foldr_bits f (by simpa using hb), List.getElem_range, decide_eq_true hb, Bool.true_and]

/-! ### Tiles -/

/-- What a READ of a tile latches is parity errors alone. -/
def Latched (s u : State) : Prop := ∀ k, peNoParity (pe u k) = peNoParity (pe s k)

theorem Latched.parity {s u : State} (h : Latched s u) (k : Nat) : pe u k = { pe s k with parityErr := (pe u k).parityErr } := by
  have := h k
  generalize pe u k = x at this ⊢
  generalize pe s k = y at this ⊢
  cases x
  cases y
  simp only [peNoParity, PE.mk.injEq, true_and] at this ⊢
  exact this

theorem pe_of_pe {s u : State} (h : u.pe = s.pe) (k : Nat) : pe u k = pe s k := by
  rw [pe, h]
  rfl

theorem setPe_latched (s : State) (k : Nat) : Latched s (setPe s k { pe s k with parityErr := true }) := fun i => by
  by_cases h : i = k
  · rw [h, pe_setPe_same]
    rfl
  · rw [pe_setPe_ne s _ h]

theorem tileRead_latched (s : State) (q : TileId) (p : Pkt) : Latched s (tileRead s q p).2 := by
  refine List.foldlRecOn (motive := Latched s) _ _ (fun _ => rfl) fun u hu i _ => ?_
  refine List.foldlRecOn (motive := Latched s) _ _ hu fun v hv b _ => ?_
  exact ite_keeps (fun k => (setPe_latched v _ k).trans (hv k)) hv

theorem tileRead_data (s : State) (q : TileId) (p : Pkt) {i b : Nat} (hi : i < p.nbytes.toNat) (hb : b < 8) :
    ((tileRead s q p).1.getD i 0).getLsbD b = peBit s (pktPe q p i b) (p.addr.toNat % 4096) := by
  have byte : (tileRead s q p).1.getD i 0 = BitVec.ofNat 8 ((List.range 8).foldr (fun b acc =>
      2 * acc + (peBit s (pktPe q p i b) (p.addr.toNat % 4096)).toNat) 0) := by
    simp [tileRead, hi]
  rw [byte, getLsbD_byte (fun b => peBit s (pktPe q p i b) (p.addr.toNat % 4096)) hb]

theorem tileRead_length (s : State) (q : TileId) (p : Pkt) : (tileRead s q p).1.length = p.nbytes.toNat := by
  simp [tileRead]

/-- Bits written to one plane of several PEs. -/
theorem peBit_foldl_setPeBit {α : Type} (key : α → Nat) (val : α → Bool) {a : Nat} (ha : a < 4096) (hr : reservedBit a = false) {l : List α}
    (hk : ∀ x ∈ l, ∀ y ∈ l, key x = key y → val x = val y) (s : State) :
    (∀ x ∈ l, peBit (l.foldl (fun u x => setPeBit u (key x) a (val x)) s) (key x) a = val x) ∧
      ∀ k b, b < 4096 → (b ≠ a ∨ ∀ x ∈ l, k ≠ key x) → peBit (l.foldl (fun u x => setPeBit u (key x) a (val x)) s) k b = peBit s k b := by
  induction l generalizing s with
  | nil => exact ⟨fun x hx => (nomatch hx), fun _ _ _ _ => rfl⟩
  | cons x l ih =>
    obtain ⟨written, others⟩ := ih (fun y hy z hz => hk y (List.mem_cons_of_mem x hy) z (List.mem_cons_of_mem x hz))
      (setPeBit s (key x) a (val x))
    rw [List.foldl_cons]
    refine ⟨fun y hy => ?_, fun k b hb hne => ?_⟩
    · by_cases later : ∃ z ∈ l, key z = key y
      · obtain ⟨z, hz, hzy⟩ := later
        rw [← hzy, written z hz, hk z (List.mem_cons_of_mem x hz) y hy hzy]
      · have hyx : y = x := (List.mem_cons.mp hy).resolve_right fun hl => later ⟨y, hl, rfl⟩
        subst hyx
        rw [others (key y) a ha (.inr fun z hz he => later ⟨z, hz, he.symm⟩), peBit_setPeBit s _ ha _ _ ha, if_pos ⟨rfl, rfl⟩, hr]
        exact Bool.and_true _
    · rw [others k b hb (hne.imp_right fun h z hz => h z (List.mem_cons_of_mem x hz)), peBit_setPeBit s _ ha _ _ hb, if_neg]
      rintro ⟨hkx, hba⟩
      exact hne.elim (fun h => h hba) fun h => h x List.mem_cons_self hkx

theorem pktPe_inj {q : TileId} {p : Pkt} {i b j e : Nat} (hb : b < 8) (he : e < 8) (h : pktPe q p i b = pktPe q p j e) : i = j ∧ b = e := by
  simp only [pktPe, peKey] at h
  omega

theorem reservedBit_of_writable {x : Tile} {a : Nat} (h : writableBit x a = true) : reservedBit a = false := by
  simp only [writableBit, reservedBit, Bool.or_eq_true, Bool.and_eq_true, decide_eq_true_eq, decide_eq_false_iff_not] at h ⊢
  omega

/-- The positions of a packet's bits. -/
def bitPlaces (c : Nat) : List (Nat × Nat) := (List.range c).flatMap fun i => (List.range 8).map fun b => (i, b)

theorem mem_bitPlaces {c i b : Nat} : (i, b) ∈ bitPlaces c ↔ i < c ∧ b < 8 := by
  simp [bitPlaces]

theorem tileWrite_eq (s : State) (q : TileId) (p : Pkt) : tileWrite s q p = (bitPlaces p.nbytes.toNat).foldl (fun u x =>
    setPeBit u (pktPe q p x.1 x.2) (p.addr.toNat % 4096) ((p.data.getD x.1 0).getLsbD x.2)) s := by
  simp only [tileWrite, bitPlaces, List.foldl_flatMap, List.foldl_map]

theorem tileWrite_latched (s : State) (q : TileId) (p : Pkt) : Latched s (tileWrite s q p) := by
  rw [tileWrite_eq]
  exact List.foldlRecOn (motive := Latched s) _ _ (fun _ => rfl) fun u hu x _ k => (pe_setPeBit u _ _ _ k).trans (hu k)

theorem tileWrite_bits {s : State} {q : TileId} {p : Pkt} (hr : reservedBit (p.addr.toNat % 4096) = false) :
    (∀ i b, i < p.nbytes.toNat → b < 8 →
      peBit (tileWrite s q p) (pktPe q p i b) (p.addr.toNat % 4096) = (p.data.getD i 0).getLsbD b) ∧
    ∀ k x, x < 4096 → (x ≠ p.addr.toNat % 4096 ∨ ∀ i b, i < p.nbytes.toNat → b < 8 → k ≠ pktPe q p i b) →
      peBit (tileWrite s q p) k x = peBit s k x := by
  have small : ∀ x ∈ bitPlaces p.nbytes.toNat, x.1 < p.nbytes.toNat ∧ x.2 < 8 := fun x hx => mem_bitPlaces.mp hx
  obtain ⟨written, others⟩ := peBit_foldl_setPeBit (fun x => pktPe q p x.1 x.2) (fun x => (p.data.getD x.1 0).getLsbD x.2)
    (a := p.addr.toNat % 4096) (Nat.mod_lt _ (by decide)) hr (l := bitPlaces p.nbytes.toNat)
    (fun x hx y hy h => by
      obtain ⟨hi, hb⟩ := pktPe_inj (small x hx).2 (small y hy).2 h
      rw [hi, hb]) s
  rw [tileWrite_eq]
  exact ⟨fun i b hi hb => written (i, b) (mem_bitPlaces.mpr ⟨hi, hb⟩),
    fun k x hx hne => others k x hx (hne.imp_right fun h y hy => h y.1 y.2 (small y hy).1 (small y hy).2)⟩

/-- What a request that a tile serves comes to. -/
theorem tile_served (s : State) (m n : NiId) (p : Pkt) (h : arrives s m n p) (hb : pktBad p = false) (hst : (ni s n.val).st = .opened)
    (ht : meetsTest s n p = false) {q : TileId} (hq : niTile n = some q) :
    (decodes n p false ∧ tenAllowed s n m p false = true → runs (.read p ⟨false, false⟩) s [.freeCtr, .noc, .pe, .xmFirst] fun u =>
      (∀ k, pe u k = { pe s k with parityErr := (pe u k).parityErr }) ∧ answersWith u m n p 3 0 fun d => d.length = p.nbytes.toNat ∧
        ∀ i b, i < p.nbytes.toNat → b < 8 → (d.getD i 0).getLsbD b = peBit s (pktPe q p i b) (p.addr.toNat % 4096)) ∧
    (decodes n p true ∧ tenAllowed s n m p true = true → writableBit (tile s q.val) (p.addr.toNat % 4096) = true →
      runs (.write p none) s [.freeCtr, .noc, .pe, .peMem, .peBad, .xmFirst] fun u =>
        ((∀ k, pe u k = { pe s k with parityErr := (pe u k).parityErr }) ∧
          (∀ i b, i < p.nbytes.toNat → b < 8 → peBit u (pktPe q p i b) (p.addr.toNat % 4096) = (p.data.getD i 0).getLsbD b) ∧
          ∀ k x, x < 4096 → (x ≠ p.addr.toNat % 4096 ∨ ∀ i b, i < p.nbytes.toNat → b < 8 → k ≠ pktPe q p i b) →
            peBit u k x = peBit s k x) ∧ answersWith u m n p 4 0 fun d => d = []) := by
  constructor
  · rintro ⟨hd, ha⟩
    have alike := reached_foot s m n p false (k := 0x800000) (by decide) (Foot.refl _ s)
    have reads := tileRead_foot (m := 0x10) (reached s m n p false) q (sentPkt s m n p false) (by decide) (Foot.refl _ _)
    refine read_served h hb hst hd ht ha (d := (tileRead (reached s m n p false) q (sentPkt s m n p false)).1)
      (y := (tileRead (reached s m n p false) q (sentPkt s m n p false)).2) ?_ (reads.2 .noc (by decide)) (by decide)
      (tileRead_foot _ q _ (by decide) (reached_foot s m n p false (by decide) (Foot.refl _ s)))
      (Eq.trans (congrArg Observe.due (Eq.trans (reads.2 .obs (by decide)) (alike.2 .obs (by decide)))) (due_of_arrives h))
      ⟨tileRead_length _ q _, fun i b hi hb => ?_⟩ fun u hu _ => ?_
    · rw [serveRead, hq]
      rfl
    · exact (tileRead_data _ q _ hi hb).trans (peBit_of (alike.2 .peMem (by decide)) (alike.2 .peTag (by decide)) _ _)
    · exact Latched.parity fun k => by
        rw [pe_of_pe (hu.2 .pe (by decide)), tileRead_latched _ q _ k, pe_of_pe (alike.2 .pe (by decide))]
  · rintro ⟨hd, ha⟩ hw
    have alike := begun_reached_foot s m n p true (k := 0x880001) (by decide)
    have planes := peBit_of (alike.2 .peMem (by decide)) (alike.2 .peTag (by decide))
    have writes := tileWrite_foot (m := 0x70) (reached (begun true s) m n p true) q (sentPkt (begun true s) m n p true) (by decide) (Foot.refl _ _)
    obtain ⟨written, others⟩ := tileWrite_bits (s := reached (begun true s) m n p true) (q := q) (p := sentPkt (begun true s) m n p true)
      (reservedBit_of_writable hw)
    have unbad : tileWriteBad (reached (begun true s) m n p true) n (sentPkt (begun true s) m n p true) = false := by
      rw [tileWriteBad, hq]
      dsimp only
      rw [tile_of_tiles (alike.2 .tiles (by decide))]
      exact congrArg not hw
    refine write_served h hb hst hd ht ha (y := tileWrite (reached (begun true s) m n p true) q (sentPkt (begun true s) m n p true)) ?_
      (writes.2 .noc (by decide)) (by decide) (tileWrite_foot _ q _ (by decide) (begun_reached_foot s m n p true (by decide)))
      (Eq.trans (congrArg Observe.due (Eq.trans (writes.2 .obs (by decide)) (alike.2 .obs (by decide)))) (due_of_arrives h)) fun u hu => ?_
    · refine (if_neg (ne_true_of_eq_false unbad)).trans ?_
      rw [hq]
      rfl
    · have same := peBit_of (hu.2 .peMem (by decide)) (hu.2 .peTag (by decide))
      refine ⟨Latched.parity fun k => ?_, fun i b hi hb => (same _ _).trans (written i b hi hb), fun k x hx hne => ?_⟩
      · rw [pe_of_pe (hu.2 .pe (by decide)), tileWrite_latched _ q _ k, pe_of_pe (alike.2 .pe (by decide))]
      · exact (same k x).trans ((others k x hx hne).trans (planes k x))

end Sys2Proof.Machine
end

