-- ==== Sys2Proof/Proofs/MemoryBytes.lean ====
section
/-! SUPPORT. Bytes of scratchpad and exchange memory, and what writes leave there (R221, R228, R232, R233). -/

namespace Sys2Proof.Machine

open Sys2Proof

/-- A byte of exchange memory as it holds it, the event log included. -/
def heldByte (s : State) (x : Nat) : Byte := match logOff s x with
  | some k => SMap.get 0 s.obs.logRaw k ^^^ logByte s k
  | none => xmByte s x

/-- A byte of a memory. -/
def memByte (s : State) (xm : Bool) (x : Nat) : Byte := if xm then heldByte s x else spByte s x

theorem memBytes_eq (s : State) (xm : Bool) (a c : Nat) : memBytes s xm a c = (List.range c).map fun i => memByte s xm (a + i) := by
  cases xm <;> rfl

theorem memBytes_length (s : State) (xm : Bool) (a c : Nat) : (memBytes s xm a c).length = c := by
  simp [memBytes_eq]

theorem memBytes_getD (s : State) (xm : Bool) (a : Nat) {c i : Nat} (h : i < c) : (memBytes s xm a c).getD i 0 = memByte s xm (a + i) := by
  simp [memBytes_eq, h]

/-- What the contents of the memories rest on. -/
structure SameMemory (s u : State) : Prop where
  sp : u.sp = s.sp
  xm : u.xm = s.xm
  spFill : u.spFill = s.spFill
  xmFill : u.xmFill = s.xmFill
  mc : u.mc = s.mc
  mem : u.mem = s.mem
  obs : u.obs = s.obs

theorem SameMemory.of_foot {s u : State} {k : Nat} (h : Foot k s u) (hk : k &&& 0x800166400 = 0) : SameMemory s u := by
  have off : ∀ c : Comp, (0x800166400 : Nat).testBit c.bit = true → sameIn s u c := fun c hc => h.2 c (by
    have := congrArg (fun n => n.testBit c.bit) hk
    simpa [Nat.testBit_and, hc] using this)
  exact ⟨off .sp (by decide), off .xm (by decide), off .spFill (by decide), off .xmFill (by decide), off .mc (by decide), off .mem (by decide),
    off .obs (by decide)⟩

theorem spBase_of {s u : State} (hf : u.spFill = s.spFill) (hm : u.mc = s.mc) (a : Nat) : spBase u a = spBase s a := by
  simp only [spBase, hf, hm]

theorem localHalf_of {s u : State} (h : u.mem = s.mem) : localHalf u = localHalf s := by
  unfold localHalf halfOk memSt
  rw [h]

theorem logOff_of {s u : State} (h : u.mem = s.mem) (a : Nat) : logOff u a = logOff s a := by
  rw [logOff, localHalf_of h]
  rfl

theorem logByte_of {s u : State} (h : u.obs.log = s.obs.log) (k : Nat) : logByte u k = logByte s k := by
  simp only [logByte, h]

theorem SameMemory.memByte {s u : State} (h : SameMemory s u) (xm : Bool) (x : Nat) : memByte u xm x = Machine.memByte s xm x := by
  cases xm
  · show spByte u x = spByte s x
    simp only [spByte, h.sp, spBase_of h.spFill h.mc]
  · show heldByte u x = heldByte s x
    simp only [heldByte, logOff_of h.mem, logByte_of (congrArg Observe.log h.obs), xmByte, h.xm, xmBase_of h.xmFill, h.obs]

theorem SameMemory.memBytes {s u : State} (h : SameMemory s u) (xm : Bool) (a c : Nat) : memBytes u xm a c = Machine.memBytes s xm a c := by
  simp only [memBytes_eq, h.memByte]

/-! ### Writes -/

/-- The bytes of a range replaced. -/
def putBytes (f : Nat → Byte) (a : Nat) (d : Bytes) (x : Nat) : Byte := if a ≤ x ∧ x < a + d.length then d.getD (x - a) 0 else f x

/-- What a masked range of a sparse memory reads after a write under the same mask. -/
theorem writeN_masked (m : SMap Byte) (base : Nat → Byte) (a : Nat) (d : Bytes) (x : Nat) :
    SMap.get 0 (SMap.writeN 0 m a (d.mapIdx fun i b => b ^^^ base (a + i))) x ^^^ base x = putBytes (fun x => SMap.get 0 m x ^^^ base x) a d x := by
  unfold putBytes
  split
  · next h =>
    obtain ⟨i, rfl⟩ := Nat.exists_eq_add_of_le h.1
    have hi : i < d.length := by omega
    rw [SMap.get_writeN_in a _ i (by simpa using hi), List.getElem_mapIdx, BitVec.xor_assoc, BitVec.xor_self, BitVec.xor_zero,
      Nat.add_sub_cancel_left, List.getD_eq_getElem _ _ hi]
  · next h => rw [SMap.get_writeN_out a x _ (by simp only [List.length_mapIdx]; omega)]

theorem spByte_spWrite (s : State) (a : Nat) (d : Bytes) (x : Nat) : spByte (spWrite s a d) x = putBytes (spByte s) a d x := by
  have foot := spWrite_foot (m := 0x20A000) s a d (by decide) (Foot.refl _ s)
  rw [spByte, spBase_of (foot.2 .spFill (by decide)) (foot.2 .mc (by decide))]
  exact writeN_masked s.sp (spBase s) a d x

theorem xmByte_xmWrite (s : State) (a : Nat) (d : Bytes) (x : Nat) : xmByte (xmWrite s a d) x = putBytes (xmByte s) a d x := by
  have foot := xmWrite_foot (m := 0x214000) s a d (by decide) (Foot.refl _ s)
  rw [xmByte, xmBase_of (foot.2 .xmFill (by decide))]
  exact writeN_masked s.xm (xmBase s) a d x

/-- The raw bytes of the event log after a write that meets it. -/
def rawPut (s : State) (a : Nat) (d : Bytes) (n : Nat) : SMap Byte :=
  (List.range n).foldl (fun m i => match logOff s (a + i) with
    | some k => SMap.set 0 m k (d.getD i 0 ^^^ logByte s k)
    | none => m) s.obs.logRaw

theorem logOff_inj {s : State} {a b k : Nat} (ha : logOff s a = some k) (hb : logOff s b = some k) : a = b := by
  unfold logOff at ha hb
  dsimp only at ha hb
  split at ha
  · split at hb
    · next h g =>
      have hk := Option.some.inj ha
      have hk' := Option.some.inj hb
      have hd := Nat.div_add_mod a halfBytes
      have hd' := Nat.div_add_mod b halfBytes
      rw [h.1] at hd
      rw [g.1] at hd'
      omega
    · exact nomatch hb
  · exact nomatch ha

theorem rawPut_get (s : State) (a : Nat) (d : Bytes) {x k : Nat} (hk : logOff s x = some k) (n : Nat) :
    SMap.get 0 (rawPut s a d n) k = if a ≤ x ∧ x < a + n then d.getD (x - a) 0 ^^^ logByte s k else SMap.get 0 s.obs.logRaw k := by
  induction n with
  | zero => rw [if_neg (by omega)]; rfl
  | succ n ih =>
    rw [rawPut, List.range_succ, List.foldl_append, ← rawPut, List.foldl_cons, List.foldl_nil]
    by_cases hx : x = a + n
    · rw [← hx, hk]
      dsimp only
      rw [SMap.get_set_same, if_pos (by omega), hx, Nat.add_sub_cancel_left]
    · have other : SMap.get 0 (match logOff s (a + n) with
          | some j => SMap.set 0 (rawPut s a d n) j (d.getD n 0 ^^^ logByte s j)
          | none => rawPut s a d n) k = SMap.get 0 (rawPut s a d n) k := by
        split
        · next j hj => exact SMap.get_set_ne _ _ _ fun e => hx (logOff_inj hk (e ▸ hj))
        · rfl
      rw [other, ih]
      by_cases h : a ≤ x ∧ x < a + n
      · rw [if_pos h, if_pos (by omega)]
      · rw [if_neg h, if_neg (by omega)]

theorem heldByte_xmPut (s : State) (a : Nat) (d : Bytes) (x : Nat) : heldByte (xmPut s a d) x = putBytes (heldByte s) a d x := by
  have foot := xmPut_foot (m := 0x800214000) s a d (by decide) (Foot.refl _ s)
  have entries : (xmWrite s a d).obs = s.obs := (xmWrite_foot (m := 0x214000) s a d (by decide) (Foot.refl _ s)).2 .obs (by decide)
  have log : ∀ k, logByte (xmPut s a d) k = logByte s k :=
    logByte_of (Eq.trans (show (xmPut s a d).obs.log = (xmWrite s a d).obs.log from rfl) (congrArg Observe.log entries))
  have raw : (xmPut s a d).obs.logRaw = rawPut s a d d.length := rfl
  have bytes : xmByte (xmPut s a d) x = xmByte (xmWrite s a d) x := rfl
  rw [heldByte, logOff_of (foot.2 .mem (by decide)), putBytes]
  cases hk : logOff s x with
  | none =>
    dsimp only
    rw [bytes, xmByte_xmWrite, putBytes, heldByte, hk]
  | some k =>
    dsimp only
    rw [log, raw, rawPut_get s a d hk, heldByte, hk]
    split
    · rw [BitVec.xor_assoc, BitVec.xor_self, BitVec.xor_zero]
    · rfl

/-- What a write leaves in a memory. -/
theorem memByte_memWrite (s : State) (xm : Bool) (a : Nat) (d : Bytes) (x : Nat) :
    memByte (memWrite s xm a d) xm x = putBytes (memByte s xm) a d x := by
  cases xm
  · exact spByte_spWrite s a d x
  · exact heldByte_xmPut s a d x

/-! ### Collisions (R232, R233) -/

/-- Port Y's enabled bytes of a word, up to the byte `n`. -/
def yBytes (s : State) (w : Nat) (y : PortYWrite) (n : Nat) : State :=
  (List.range n).foldl (fun u i => if y.enables.getLsbD i then xmPut u (w + i) [y.data.extractLsb' (8 * i) 8] else u) s

theorem heldByte_yBytes (s : State) (w : Nat) (y : PortYWrite) (n x : Nat) : heldByte (yBytes s w y n) x =
    if w ≤ x ∧ x < w + n ∧ y.enables.getLsbD (x - w) = true then y.data.extractLsb' (8 * (x - w)) 8 else heldByte s x := by
  induction n with
  | zero => rw [if_neg (by omega)]; rfl
  | succ n ih =>
    rw [yBytes, List.range_succ, List.foldl_append, ← yBytes, List.foldl_cons, List.foldl_nil]
    by_cases hx : x = w + n
    · subst hx
      rw [Nat.add_sub_cancel_left] at ih ⊢
      by_cases he : y.enables.getLsbD n = true
      · rw [if_pos he, heldByte_xmPut, putBytes, if_pos (by simp), if_pos ⟨by omega, by omega, he⟩]
        simp
      · rw [if_neg he, ih, if_neg (by omega), if_neg fun h => he h.2.2]
    · have other : heldByte (if y.enables.getLsbD n then xmPut (yBytes s w y n) (w + n) [y.data.extractLsb' (8 * n) 8] else yBytes s w y n) x =
          heldByte (yBytes s w y n) x := by
        refine ite_keeps (Q := fun u => heldByte u x = heldByte (yBytes s w y n) x) ?_ rfl
        rw [heldByte_xmPut, putBytes, if_neg (by simp only [List.length_cons, List.length_nil]; omega)]
      have next : x < w + n ↔ x < w + (n + 1) := by omega
      rw [other, ih]
      simp only [next]

theorem getLsbD_ofLe {d : Bytes} {i j : Nat} (hi : i < d.length) (hj : j < 8) : (ofLe d).testBit (8 * i + j) = (d[i]).getLsbD j := by
  induction d generalizing i with
  | nil => exact nomatch hi
  | cons b d ih =>
    have hb := b.isLt
    have split : ofLe (b :: d) = 2 ^ 8 * ofLe d + b.toNat := by
      rw [ofLe]
      omega
    rw [split, Nat.testBit_two_pow_mul_add _ hb]
    cases i with
    | zero => rw [if_pos (by omega)]; simp [BitVec.getLsbD]
    | succ i => rw [if_neg (by omega), show 8 * (i + 1) + j - 8 = 8 * i + j by omega, ih (by simpa using hi)]; rfl

/-- A byte of a word that is read from its bytes. -/
theorem extract_ofLe {d : Bytes} (hd : d.length = 8) {i : Nat} (hi : i < 8) :
    (BitVec.ofNat 64 (ofLe d)).extractLsb' (8 * i) 8 = d.getD i 0 := by
  refine BitVec.eq_of_getLsbD_eq fun j hj => ?_
  rw [BitVec.getLsbD_extractLsb', BitVec.getLsbD_ofNat, getLsbD_ofLe (by omega) hj, List.getD_eq_getElem _ _ (by omega),
    decide_eq_true hj, decide_eq_true (by omega)]
  simp

theorem collide_word (s : State) (w : Nat) (y : PortYWrite) : ∃ v, (collide s w y).xmFirst = some (w, v) ∧
    ∀ i, i < 8 → v.extractLsb' (8 * i) 8 = heldByte s (w + i) := by
  refine ⟨_, rfl, fun i hi => ?_⟩
  rw [extract_ofLe (by simp [xmHeld]) hi]
  exact memBytes_getD s true w hi

theorem heldByte_collide (s : State) (w : Nat) (y : PortYWrite) (x : Nat) : heldByte (collide s w y) x =
    if w ≤ x ∧ x < w + 8 ∧ y.enables.getLsbD (x - w) = true then y.data.extractLsb' (8 * (x - w)) 8 else heldByte s x :=
  heldByte_yBytes s w y 8 x

theorem collide_count (s : State) (w : Nat) (y : PortYWrite) : (collide s w y).xmCollisions = satInc s.xmCollisions := by
  have same : (yBytes s w y 8).xmCollisions = s.xmCollisions :=
    List.foldlRecOn (motive := fun u : State => u.xmCollisions = s.xmCollisions) _ _ rfl fun u hu i _ =>
      ite_keeps (Q := fun v : State => v.xmCollisions = s.xmCollisions)
        (Eq.trans ((xmPut_foot u _ _ (Nat.or_self _) (Foot.refl _ u)).2 .xmCollisions (by decide)) hu) hu
  exact congrArg satInc same

/-! ### Reads -/

theorem badIn_sub {m : SMap CellFault} {a c lo k : Nat} (h : badIn m a c = false) (hlo : a ≤ lo) (hk : lo + k ≤ a + c ∨ k = 0) :
    badIn m lo k = false := by
  simp only [badIn, List.any_eq_false, decide_eq_true_eq] at h ⊢
  intro e he hb
  exact h e he ⟨by omega, by omega, hb.2.2⟩

theorem badWords_good {s : State} {xm : Bool} {a c : Nat} (h : (if xm then xmBadAt s a c else spBadAt s a c) = false) :
    badWords s xm a c = [] := by
  refine List.filter_eq_nil_iff.mpr fun w _ => ?_
  have range : Nat.max w a + (Nat.min (w + 8) (a + c) - Nat.max w a) ≤ a + c ∨ Nat.min (w + 8) (a + c) - Nat.max w a = 0 := by
    have := Nat.min_le_right (w + 8) (a + c)
    simp only [Nat.min_def, Nat.max_def] at this ⊢
    split <;> split <;> omega
  cases xm
  · simpa [spBadAt] using badIn_sub h (Nat.le_max_right w a) range
  · simpa [xmBadAt] using badIn_sub h (Nat.le_max_right w a) range

end Sys2Proof.Machine
end

