-- ==== Sys2Proof/Proofs/ServedMemories.lean ====
section
/-! SUPPORT. READ and WRITE requests that a memory serves (R228, R232, R233, R235, R236, R264). -/

namespace Sys2Proof.Machine

open Sys2Proof

/-! ### What a request finds at its memory -/

theorem SameMemory.trans {s y u : State} (h : SameMemory s y) (g : SameMemory y u) : SameMemory s u :=
  ⟨g.sp.trans h.sp, g.xm.trans h.xm, g.spFill.trans h.spFill, g.xmFill.trans h.xmFill, g.mc.trans h.mc, g.mem.trans h.mem, g.obs.trans h.obs⟩

theorem sameMemory_reached (s : State) (m n : NiId) (p : Pkt) (w : Bool) : SameMemory s (reached (begun w s) m n p w) :=
  SameMemory.of_foot (begun_reached_foot s m n p w (k := 0x880001) (by decide)) (by decide)

theorem sameMemory_yieldWindow (s : State) (xm : Bool) (a c : Nat) : SameMemory s (yieldWindow s xm a c) :=
  SameMemory.of_foot (yieldWindow_foot (m := 0x200000) s xm a c (by decide) (Foot.refl _ s)) (by decide)

/-- Words of a memory have bad parity. -/
def memBadAt (s : State) (xm : Bool) (a c : Nat) : Bool := if xm then xmBadAt s a c else spBadAt s a c

theorem memBadAt_of {s u : State} (hs : u.spBad = s.spBad) (hx : u.xmBad = s.xmBad) (xm : Bool) (a c : Nat) :
    memBadAt u xm a c = memBadAt s xm a c := by
  simp only [memBadAt, xmBadAt, spBadAt, hs, hx]

theorem memBadAt_yieldWindow (s : State) (xm : Bool) (a c : Nat) (ym : Bool) (b d : Nat) :
    memBadAt (yieldWindow s ym b d) xm a c = memBadAt s xm a c := by
  have foot := yieldWindow_foot (m := 0x200000) s ym b d (by decide) (Foot.refl _ s)
  exact memBadAt_of (foot.2 .spBad (by decide)) (foot.2 .xmBad (by decide)) xm a c

theorem memBadAt_reached (s : State) (m n : NiId) (p : Pkt) (w xm : Bool) (a c : Nat) :
    memBadAt (reached (begun w s) m n p w) xm a c = memBadAt s xm a c := by
  have foot := begun_reached_foot s m n p w (k := 0x880001) (by decide)
  exact memBadAt_of (foot.2 .spBad (by decide)) (foot.2 .xmBad (by decide)) xm a c

/-- A read of words with good parity delivers the bytes that the memory holds, and a borrowed window yields. -/
theorem memRead_of_good {x : State} {m : NiId} {xm : Bool} {a c : Nat} (h : memBadAt x xm a c = false) :
    memRead x m xm a c false = (some (memBytes x xm a c), yieldWindow x xm a c) := by
  rw [memRead_good (badWords_good (Eq.trans (memBadAt_yieldWindow x xm a c xm a c) h)), (sameMemory_yieldWindow x xm a c).memBytes]
  rfl

/-! ### READ -/

section
variable {s : State} {m n : NiId} {p : Pkt} {xm : Bool} {k : Nat}

/-- A READ whose words the memory serves is answered with its data. -/
theorem serveRead_good (hn : niTile n = none) (hk : niMem n = some (xm, k)) {q : Pkt} {rc : ReadCycle} {x y : State} {d : Bytes}
    (h : memRead x m xm q.addr.toNat q.nbytes.toNat rc.glitch = (some d, y)) :
    serveRead q rc n m x = respond y n q tyReadResp 0 (if rc.nextCycle then firstWrite x.xmFirst xm q.addr.toNat d else d) := by
  simp only [serveRead, hn, hk, h]

/-- A READ of a word with no good copy is answered with PARITY. -/
theorem serveRead_lost (hn : niTile n = none) (hk : niMem n = some (xm, k)) {q : Pkt} {rc : ReadCycle} {x : State}
    (h : (memRead x m xm q.addr.toNat q.nbytes.toNat rc.glitch).1 = none) :
    serveRead q rc n m x = respond (memRead x m xm q.addr.toNat q.nbytes.toNat rc.glitch).2 n q tyError statusParity [] := by
  simp only [serveRead, hn, hk, h]

/-- The data of a READ, also of one in the cycle after a collision. -/
def readData (s : State) (xm next : Bool) (p : Pkt) : Bytes :=
  if next then firstWrite s.xmFirst xm p.addr.toNat (memBytes s xm p.addr.toNat p.nbytes.toNat) else memBytes s xm p.addr.toNat p.nbytes.toNat

/-- A READ that the memory serves. -/
theorem mem_read (h : arrives s m n p) (hb : pktBad p = false) (hst : (ni s n.val).st = .opened) (ht : meetsTest s n p = false)
    (hn : niTile n = none) (hk : niMem n = some (xm, k)) (hd : decodes n p false) (ha : tenAllowed s n m p false = true)
    (hg : memBadAt s xm p.addr.toNat p.nbytes.toNat = false) (next : Bool) {P : Bytes → Prop} (hP : P (readData s xm next p)) :
    runs (.read p ⟨false, next⟩) s [.freeCtr, .noc, .march, .xmFirst] fun u => u.xmFirst = none ∧ answersWith u m n p 3 0 P := by
  have alike := reached_foot s m n p false (k := 0x800000) (by decide) (Foot.refl _ s)
  have good := memRead_of_good (m := m) ((memBadAt_reached s m n p false xm p.addr.toNat p.nbytes.toNat).trans hg)
  rw [(sameMemory_reached s m n p false).memBytes] at good
  have window := yieldWindow_foot (m := 0x200000) (reached s m n p false) xm p.addr.toNat p.nbytes.toNat (by decide) (Foot.refl _ _)
  refine read_served h hb hst hd ht ha (d := readData s xm next p)
    (y := yieldWindow (reached s m n p false) xm p.addr.toNat p.nbytes.toNat) ?_ (window.2 .noc (by decide)) (by decide)
    (yieldWindow_foot _ xm _ _ (by decide) (reached_foot s m n p false (by decide) (Foot.refl _ s)))
    (Eq.trans (congrArg Observe.due (Eq.trans (window.2 .obs (by decide)) (alike.2 .obs (by decide)))) (due_of_arrives h)) hP
    fun u _ hu => hu
  rw [serveRead_good hn hk (show memRead (reached s m n p false) m xm (sentPkt s m n p false).addr.toNat _ false = _ from good),
    alike.2 .xmFirst (by decide)]
  rfl

theorem readData_plain (s : State) (xm : Bool) (p : Pkt) : (readData s xm false p).length = p.nbytes.toNat ∧
    ∀ i, i < p.nbytes.toNat → (readData s xm false p).getD i 0 = memByte s xm (p.addr.toNat + i) :=
  ⟨memBytes_length s xm _ _, fun _ => memBytes_getD s xm _⟩

theorem readData_first {w : Nat} {v : DWord} (h : s.xmFirst = some (w, v)) (p : Pkt) : (readData s true true p).length = p.nbytes.toNat ∧
    ∀ i, i < p.nbytes.toNat → (readData s true true p).getD i 0 = if w ≤ p.addr.toNat + i ∧ p.addr.toNat + i < w + 8 then
      v.extractLsb' (8 * (p.addr.toNat + i - w)) 8 else memByte s true (p.addr.toNat + i) := by
  have data : readData s true true p = (memBytes s true p.addr.toNat p.nbytes.toNat).mapIdx fun i x =>
      if true = true ∧ w ≤ p.addr.toNat + i ∧ p.addr.toNat + i < w + 8 then v.extractLsb' (8 * (p.addr.toNat + i - w)) 8 else x := by
    rw [readData, h]
    rfl
  have length := memBytes_length s true p.addr.toNat p.nbytes.toNat
  refine ⟨by rw [data, List.length_mapIdx, length], fun i hi => ?_⟩
  have hi' : i < (memBytes s true p.addr.toNat p.nbytes.toNat).length := by rwa [length]
  rw [data, List.getD_eq_getElem _ _ (by rwa [List.length_mapIdx]), List.getElem_mapIdx, ← List.getD_eq_getElem _ 0 hi',
    memBytes_getD s true _ hi]
  simp only [true_and]

/-! ### A word with no good copy -/

theorem yieldWindow_eq (s : State) (xm : Bool) (a c : Nat) : ∃ M, yieldWindow s xm a c = { s with march := M } := by
  unfold yieldWindow
  split
  · exact ⟨_, rfl⟩
  · dsimp only
    split
    · exact ⟨_, rfl⟩
    · exact ⟨_, rfl⟩

/-- The one word that a read within a word finds bad. -/
theorem badWords_one {s : State} {a c : Nat} (h : spBadAt s a c = true) (hc : a % 8 + c ≤ 8) : badWords s false a c = [a / 8 * 8] := by
  have pos : 0 < c := by
    obtain ⟨e, -, he⟩ := List.any_eq_true.mp h
    have := of_decide_eq_true he
    omega
  have lo : Nat.max (a / 8 * 8) a = a := Nat.max_eq_right (by omega)
  have hi : Nat.min (a / 8 * 8 + 8) (a + c) = a + c := Nat.min_eq_right (by omega)
  have one : (a % 8 + c + 7) / 8 = 1 := by omega
  rw [badWords, one]
  simp [lo, hi, h]

theorem failedWord_unowned {x : State} {w : Nat} (hg : inGolden w = false) (hr : roleAt x w = none) (m : NiId) :
    (failedWord x m false w).1 = false := by
  rw [failedWord, if_neg (by decide), if_neg (by simp [hg]), hr]

theorem memRead_lost {x : State} {a c : Nat} (h : spBadAt x a c = true) (hc : a % 8 + c ≤ 8) (hg : inGolden (a / 8 * 8) = false)
    (hr : roleAt x (a / 8 * 8) = none) (m : NiId) (g : Bool) : (memRead x m false a c g).1 = none := by
  have one := badWords_one ((memBadAt_yieldWindow x false a c false a c).trans h) hc
  refine (memRead_bad (by rw [one]; exact List.cons_ne_nil _ _) m g).2 ?_
  rw [one]
  obtain ⟨M, hM⟩ := yieldWindow_eq x false a c
  have role : roleAt (yieldWindow x false a c) (a / 8 * 8) = none := by
    rw [hM]
    exact hr
  exact failedWord_unowned hg role m

/-- A READ of a word that has no good copy. -/
theorem mem_lost (h : arrives s m n p) (hb : pktBad p = false) (hst : (ni s n.val).st = .opened) (ht : meetsTest s n p = false)
    (hn : niTile n = none) (hk : niMem n = some (false, k)) (hd : decodes n p false) (ha : tenAllowed s n m p false = true)
    (hg : spBadAt s p.addr.toNat p.nbytes.toNat = true) (hc : p.addr.toNat % 8 + p.nbytes.toNat ≤ 8)
    (hgold : inGolden (p.addr.toNat / 8 * 8) = false) (hr : roleAt s (p.addr.toNat / 8 * 8) = none) :
    ∃ u, exec (.read p ⟨false, false⟩) s = .next u ∧ answersWith u m n p 6 3 fun d => d = [] := by
  have serve := serveRequest_decoded (s := s) (m := m) (f := serveRead (sentPkt s m n p false) ⟨false, false⟩ n m) hd
  have role : roleAt (reached s m n p false) (p.addr.toNat / 8 * 8) = none := by
    obtain ⟨N, hN⟩ := reached_eq s m n p false
    rw [hN]
    exact hr
  have lost := memRead_lost ((memBadAt_reached s m n p false false p.addr.toNat p.nbytes.toNat).trans hg) hc hgold role m false
  rw [if_neg (by simp [ht]), if_neg (by simp [ha]), serveRead_lost (rc := ⟨false, false⟩) (q := sentPkt s m n p false) (x := reached s m n p false) hn hk lost] at serve
  have grows := request_grows (serves_read m n ⟨false, false⟩) h hb hst
  rw [serve] at grows
  exact ⟨_, exec_plain false s p, (grows.trans ((ended_grows false _).trans (takeMark_grows _))).answersWith
    (sentPkt_answers _ h tyError statusParity [])⟩

/-! ### WRITE -/

/-- What a WRITE leaves in the memory before port Y, from the state in which it arrives. -/
def stored (s : State) (m n : NiId) (p : Pkt) (xm : Bool) : State := memWrite (reached (clearFirst s) m n p true) xm p.addr.toNat p.data

/-- What port Y meets of a WRITE. -/
def meets (p : Pkt) (xm : Bool) (y : PortYWrite) : Prop :=
  xm = true ∧ y.addr.toNat / 8 * 8 < p.addr.toNat + p.nbytes.toNat ∧ p.addr.toNat < y.addr.toNat / 8 * 8 + 8

theorem writeServed_none (hn : niTile n = none) (hk : niMem n = some (xm, k)) :
    writeServed s m n p none = respond (stored s m n p xm) n (sentPkt (clearFirst s) m n p true) tyWriteResp 0 [] := by
  have unbad : tileWriteBad (reached (clearFirst s) m n p true) n (sentPkt (clearFirst s) m n p true) = false := by rw [tileWriteBad, hn]
  rw [writeServed, serveWrite, if_neg (by simp [unbad]), hn, hk]
  rfl

theorem writeServed_some (hn : niTile n = none) (hk : niMem n = some (xm, k)) (y : PortYWrite) :
    (meets p xm y → writeServed s m n p (some y) =
      respond (collide (stored s m n p xm) (y.addr.toNat / 8 * 8) y) n (sentPkt (clearFirst s) m n p true) tyWriteResp 0 []) ∧
    (¬meets p xm y → writeServed s m n p (some y) = writeServed s m n p none) := by
  have unbad : tileWriteBad (reached (clearFirst s) m n p true) n (sentPkt (clearFirst s) m n p true) = false := by rw [tileWriteBad, hn]
  have served : writeServed s m n p (some y) = respond (if xm ∧ y.addr.toNat / 8 * 8 < p.addr.toNat + p.nbytes.toNat ∧
      p.addr.toNat < y.addr.toNat / 8 * 8 + 8 then collide (stored s m n p xm) (y.addr.toNat / 8 * 8) y else stored s m n p xm)
      n (sentPkt (clearFirst s) m n p true) tyWriteResp 0 [] := by
    rw [writeServed, serveWrite, if_neg (by simp [unbad]), hn, hk]
    rfl
  refine ⟨fun hm => ?_, fun hm => ?_⟩
  · exact served.trans (congrArg (respond · n _ tyWriteResp 0 []) (if_pos hm))
  · rw [writeServed_none hn hk]
    exact served.trans (congrArg (respond · n _ tyWriteResp 0 []) (if_neg hm))

/-- A byte of the memory after a WRITE. -/
def writtenByte (s : State) (p : Pkt) (xm : Bool) (x : Nat) : Byte :=
  if p.addr.toNat ≤ x ∧ x < p.addr.toNat + p.nbytes.toNat then p.data.getD (x - p.addr.toNat) 0 else memByte s xm x

theorem memByte_stored (hl : p.data.length = p.nbytes.toNat) (x : Nat) : memByte (stored s m n p xm) xm x = writtenByte s p xm x := by
  rw [writtenByte, stored, memByte_memWrite, putBytes, hl, show memByte (reached (clearFirst s) m n p true) xm x = _ from (sameMemory_reached s m n p true).memByte xm x]

theorem stored_noc (s : State) (m n : NiId) (p : Pkt) (xm : Bool) : (stored s m n p xm).noc = (reached (clearFirst s) m n p true).noc :=
  (memWrite_foot (m := 0x80021E000) _ xm _ _ (by decide) (Foot.refl _ _)).2 .noc (by decide)

/-- Of the records only the raw bytes of the event log change. -/
theorem stored_obs (s : State) (m n : NiId) (p : Pkt) (xm : Bool) :
    (stored s m n p xm).obs = { s.obs with logRaw := (stored s m n p xm).obs.logRaw } := by
  have arrived := begun_reached_obs s m n p true
  cases xm
  · have same : (stored s m n p false).obs = s.obs :=
      Eq.trans ((spWrite_foot (m := 0x20A000) _ _ _ (by decide) (Foot.refl _ _)).2 .obs (by decide)) arrived
    rw [same]
  · have same : (xmWrite (reached (clearFirst s) m n p true) p.addr.toNat p.data).obs = s.obs :=
      Eq.trans ((xmWrite_foot (m := 0x214000) _ _ _ (by decide) (Foot.refl _ _)).2 .obs (by decide)) arrived
    have put : (stored s m n p true).obs =
        { (xmWrite (reached (clearFirst s) m n p true) p.addr.toNat p.data).obs with logRaw := (stored s m n p true).obs.logRaw } := rfl
    rwa [same] at put

/-- The other memory stays. -/
theorem stored_other (s : State) (m n : NiId) (p : Pkt) (xm : Bool) :
    if xm then (stored s m n p xm).sp = s.sp else (stored s m n p xm).xm = s.xm := by
  have arrived := sameMemory_reached s m n p true
  cases xm
  · exact Eq.trans ((spWrite_foot (m := 0x20A000) _ _ _ (by decide) (Foot.refl _ _)).2 .xm (by decide)) arrived.xm
  · exact Eq.trans ((xmPut_foot (m := 0x800214000) _ _ _ (by decide) (Foot.refl _ _)).2 .sp (by decide)) arrived.sp

theorem xmPut_due (s : State) (a : Nat) (d : Bytes) : (xmPut s a d).obs.due = s.obs.due :=
  Eq.trans (show (xmPut s a d).obs.due = (xmWrite s a d).obs.due from rfl)
    (congrArg Observe.due ((xmWrite_foot (m := 0x214000) s a d (by decide) (Foot.refl _ s)).2 .obs (by decide)))

theorem collide_due (s : State) (w : Nat) (y : PortYWrite) : (collide s w y).obs.due = s.obs.due :=
  List.foldlRecOn (motive := fun u : State => u.obs.due = s.obs.due) (List.range 8) _ rfl fun u hu _ _ =>
    ite_keeps (Q := fun v : State => v.obs.due = s.obs.due) ((xmPut_due u _ _).trans hu) hu

theorem length_of_decodes (hn : niTile n = none) (hd : decodes n p true) : p.data.length = p.nbytes.toNat := by
  have addr := hd.1
  rw [addrOk, hn] at addr
  simp only [if_true, Bool.and_eq_true, decide_eq_true_eq] at addr
  obtain ⟨⟨-, length, -⟩, -⟩ := addr
  exact length

/-- A WRITE that the memory takes. -/
theorem mem_write (h : arrives s m n p) (hb : pktBad p = false) (hst : (ni s n.val).st = .opened) (ht : meetsTest s n p = false)
    (hn : niTile n = none) (hk : niMem n = some (xm, k)) (hd : decodes n p true) (ha : tenAllowed s n m p true = true) :
    runs (.write p none) s [.freeCtr, .noc, .march, .sp, .spBad, .xm, .xmBad, .xmFirst, .obs] fun u =>
      ((if xm then u.sp = s.sp else u.xm = s.xm) ∧ u.obs = { s.obs with logRaw := u.obs.logRaw } ∧ ∀ x, memByte u xm x = writtenByte s p xm x) ∧
      answersWith u m n p 4 0 fun d => d = [] := by
  have obs := stored_obs s m n p xm
  refine write_served h hb hst hd ht ha (writeServed_none hn hk) (stored_noc s m n p xm) (by decide)
    (memWrite_foot _ xm _ _ (by decide) (begun_reached_foot s m n p true (by decide)))
    ((congrArg Observe.due obs).trans (due_of_arrives h)) fun u hu => ?_
  have same := SameMemory.of_foot hu (by decide)
  refine ⟨?_, ?_, fun x => (same.memByte xm x).trans (memByte_stored (length_of_decodes hn hd) x)⟩
  · rw [same.sp, same.xm]
    exact stored_other s m n p xm
  · rw [same.obs]
    exact obs

/-- A WRITE on whose word port Y collides. -/
theorem mem_collision (h : arrives s m n p) (hb : pktBad p = false) (hst : (ni s n.val).st = .opened) (ht : meetsTest s n p = false)
    (hn : niTile n = none) (hk : niMem n = some (xm, k)) (hd : decodes n p true) (ha : tenAllowed s n m p true = true) (y : PortYWrite)
    (hm : meets p xm y) :
    runs (.write p (some y)) s [.freeCtr, .noc, .march, .xm, .xmBad, .xmFirst, .xmCollisions, .obs] fun u =>
      (u.xmCollisions = satInc s.xmCollisions ∧
        (∀ x, memByte u xm x = if y.addr.toNat / 8 * 8 ≤ x ∧ x < y.addr.toNat / 8 * 8 + 8 ∧
          y.enables.getLsbD (x - y.addr.toNat / 8 * 8) = true then y.data.extractLsb' (8 * (x - y.addr.toNat / 8 * 8)) 8
          else writtenByte s p xm x) ∧
        ∃ v, u.xmFirst = some (y.addr.toNat / 8 * 8, v) ∧ ∀ i, i < 8 → v.extractLsb' (8 * i) 8 = writtenByte s p xm (y.addr.toNat / 8 * 8 + i)) ∧
      answersWith u m n p 4 0 fun d => d = [] := by
  have only : xm = true := hm.1
  subst only
  have after := memByte_stored (s := s) (m := m) (n := n) (xm := true) (length_of_decodes hn hd)
  have puts := xmPut_foot (m := 0x800214000) (reached (clearFirst s) m n p true) p.addr.toNat p.data (by decide) (Foot.refl _ _)
  have foot := collide_foot (m := 0x800694000) (stored s m n p true) (y.addr.toNat / 8 * 8) y (by decide) (Foot.refl _ _)
  have count : (stored s m n p true).xmCollisions = s.xmCollisions := Eq.trans (puts.2 .xmCollisions (by decide))
    ((begun_reached_foot s m n p true (k := 0x880001) (by decide)).2 .xmCollisions (by decide))
  have due : (collide (stored s m n p true) (y.addr.toNat / 8 * 8) y).obs.due = none := (collide_due ..).trans ((congrArg Observe.due (stored_obs s m n p true)).trans (due_of_arrives h))
  refine write_served h hb hst hd ht ha ((writeServed_some hn hk y).1 hm)
    (Eq.trans (foot.2 .noc (by decide)) (stored_noc s m n p true)) (by decide)
    (collide_foot _ _ y (by decide) (xmPut_foot _ _ _ (by decide) (begun_reached_foot s m n p true (by decide)))) due fun u hu => ?_
  have same := SameMemory.of_foot hu (by decide)
  refine ⟨?_, fun x => ?_, ?_⟩
  · rw [hu.2 .xmCollisions (by decide), collide_count, count]
  · rw [← after x]
    exact (same.memByte true x).trans (heldByte_collide _ _ y x)
  · obtain ⟨v, hv, bytes⟩ := collide_word (stored s m n p true) (y.addr.toNat / 8 * 8) y
    exact ⟨v, Eq.trans (hu.2 .xmFirst (by decide)) hv, fun i hi => (bytes i hi).trans (after _)⟩

/-- A WRITE on whose words port Y does not write is as one without it. -/
theorem mem_apart (h : arrives s m n p) (hb : pktBad p = false) (hst : (ni s n.val).st = .opened) (ht : meetsTest s n p = false)
    (hn : niTile n = none) (hk : niMem n = some (xm, k)) (hd : decodes n p true) (ha : tenAllowed s n m p true = true) (y : PortYWrite)
    (hm : ¬meets p xm y) : exec (.write p (some y)) s = exec (.write p none) s := by
  have plain := writeServed_none (s := s) (m := m) (p := p) hn hk
  have noc := stored_noc s m n p xm
  rw [exec_write, exec_write, request_write h hb hst hd ht ha (((writeServed_some hn hk y).2 hm).trans plain) noc,
    request_write h hb hst hd ht ha plain noc]

end

end Sys2Proof.Machine
end

