-- ==== Sys2Proof/Proofs/NocRequests.lean ====
section
/-! READ and WRITE requests, served or refused (O35). -/

namespace Sys2Proof.Machine

open Sys2Proof

theorem runs_imp {c : Instr} {s : State} {l : List Comp} {e f : State → Prop} (h : runs c s l e) (hi : ∀ u, e u → f u) : runs c s l f := by
  obtain ⟨u, hu, he, hs⟩ := h
  exact ⟨u, hu, hi u he, hs⟩

theorem memBytes_one (s : State) (xm : Bool) (x : Nat) : (memBytes s xm x 1).getD 0 0 = memByte s xm x :=
  memBytes_getD s xm x Nat.zero_lt_one

/-- Settles O35: a request that arrives in a network at rest is its service at the destination and one answer; a tile serves its bits and
a memory its bytes, and each check that refuses a request answers with its status. -/
theorem nocRequests : Obligations.NocRequests := by
  unfold Obligations.NocRequests
  refine ⟨fun s m n p h hb hst ht => ⟨fun q hq => ?_, fun xm k hn hk => ?_⟩, requests_refused⟩
  · obtain ⟨reads, writes⟩ := tile_served s m n p h hb hst ht hq
    refine ⟨fun ⟨addr, type, own⟩ => reads ⟨⟨addr, type⟩, own⟩, fun ⟨addr, type, own⟩ open_ => ?_⟩
    exact runs_imp (writes ⟨⟨addr, type⟩, own⟩ open_) fun u ⟨⟨latches, bits, others⟩, ans⟩ => ⟨latches, ans, bits, others⟩
  · simp only [memBytes_one]
    refine ⟨fun ⟨addr, type, own⟩ good => ?_, fun ⟨addr, type, own⟩ good w v first only => ?_, fun ⟨addr, type, own⟩ only bad one gold role => ?_,
      fun ⟨addr, type, own⟩ => ?_, fun y => ⟨fun ⟨addr, type, own⟩ met => ?_, fun ⟨addr, type, own⟩ => ?_⟩⟩
    · exact runs_imp (mem_read h hb hst ht hn hk ⟨addr, type⟩ own good false (readData_plain s xm p)) fun u ⟨_, ans⟩ => ans
    · subst only
      exact mem_read h hb hst ht hn hk ⟨addr, type⟩ own good true (readData_first first p)
    · subst only
      exact mem_lost h hb hst ht hn hk ⟨addr, type⟩ own bad one gold role
    · exact runs_imp (mem_write h hb hst ht hn hk ⟨addr, type⟩ own) fun u ⟨⟨keeps, obs, bytes⟩, ans⟩ => ⟨ans, keeps, obs, bytes⟩
    · exact runs_imp (mem_collision h hb hst ht hn hk ⟨addr, type⟩ own y met) fun u ⟨⟨count, bytes, first⟩, ans⟩ => ⟨count, ans, bytes, first⟩
    · exact mem_apart h hb hst ht hn hk ⟨addr, type⟩ own y

end Sys2Proof.Machine
end

section
/-! SUPPORT. The words of the three instruction formats and of the microwords spell their commands (R77–R102, R157–R170). -/

set_option Elab.async false

namespace Sys2Proof.Machine

open Sys2Proof

/-! ### Fields of a word by arithmetic -/

theorem extract_of_toNat {n s k : Nat} {x : BitVec n} {y : BitVec k} (h : x.toNat / 2 ^ s % 2 ^ k = y.toNat) : x.extractLsb' s k = y :=
  BitVec.eq_of_toNat_eq (by rw [BitVec.extractLsb'_toNat, Nat.shiftRight_eq_div_pow, h])

theorem toNat_extract_of {n s k m : Nat} {x : BitVec n} (h : x.toNat / 2 ^ s % 2 ^ k = m) : (x.extractLsb' s k).toNat = m := by
  rw [BitVec.extractLsb'_toNat, Nat.shiftRight_eq_div_pow, h]

theorem getLsbD_of_toNat {n i : Nat} {x : BitVec n} {b : Bool} (h : x.toNat / 2 ^ i % 2 = b.toNat) : x.getLsbD i = b := by
  rw [BitVec.getLsbD, Nat.testBit_eq_decide_div_mod_eq, h]
  cases b <;> rfl

theorem toNat_append_add {m n : Nat} (x : BitVec m) (y : BitVec n) : (x ++ y).toNat = x.toNat * 2 ^ n + y.toNat := by
  rw [BitVec.toNat_append, ← Nat.shiftLeft_add_eq_or_of_lt y.isLt, Nat.shiftLeft_eq]

/-- Two words that agree in a field agree in its bits. -/
theorem getLsbD_of_extract {n s k : Nat} {v w : BitVec n} (h : v.extractLsb' s k = w.extractLsb' s k) {i : Nat} (hs : s ≤ i) (hk : i < s + k) :
    v.getLsbD i = w.getLsbD i := by
  have bits := congrArg (fun x => x.getLsbD (i - s)) h
  simpa [BitVec.getLsbD_extractLsb', Nat.add_sub_cancel' hs, show i - s < k by omega] using bits

/-! ### Format A -/

section FormatA

variable (f : FmtA) {opc fn : Nat} (ho : opc < 64) (hf : fn < 32)

include ho hf

theorem wordA_toNat : (wordA f opc fn).toNat =
    opc * 2 ^ 58 + fn * 2 ^ 53 + f.modf.toNat * 2 ^ 49 + f.wm1.toNat * 2 ^ 43 + f.di.toNat * 2 ^ 42 + f.ai.toNat * 2 ^ 41 +
      f.bi.toNat * 2 ^ 40 + f.bs.toNat * 2 ^ 39 + f.db.toNat * 2 ^ 27 + f.ab.toNat * 2 ^ 15 + f.bb.toNat * 8 + f.res.toNat := by
  have := f.di.toNat_lt
  have := f.ai.toNat_lt
  have := f.bi.toNat_lt
  have := f.bs.toNat_lt
  rw [wordA, BitVec.toNat_ofNat, Nat.mod_eq_of_lt]
  omega

/-- Where format A has its fields (R77). -/
theorem wordA_fields : let w := wordA f opc fn
    w.extractLsb' 58 6 = BitVec.ofNat 6 opc ∧ w.extractLsb' 53 5 = BitVec.ofNat 5 fn ∧ w.extractLsb' 49 4 = f.modf ∧
      w.extractLsb' 43 6 = f.wm1 ∧ w.getLsbD 42 = f.di ∧ w.getLsbD 41 = f.ai ∧ w.getLsbD 40 = f.bi ∧ w.getLsbD 39 = f.bs ∧
      w.extractLsb' 27 12 = f.db ∧ w.extractLsb' 15 12 = f.ab ∧ w.extractLsb' 3 12 = f.bb ∧ w.extractLsb' 0 3 = f.res := by
  have := f.di.toNat_lt
  have := f.ai.toNat_lt
  have := f.bi.toNat_lt
  have := f.bs.toNat_lt
  have ho' : (BitVec.ofNat 6 opc).toNat = opc := Nat.mod_eq_of_lt ho
  have hf' : (BitVec.ofNat 5 fn).toNat = fn := Nat.mod_eq_of_lt hf
  refine ⟨extract_of_toNat ?_, extract_of_toNat ?_, extract_of_toNat ?_, extract_of_toNat ?_, getLsbD_of_toNat ?_, getLsbD_of_toNat ?_,
    getLsbD_of_toNat ?_, getLsbD_of_toNat ?_, extract_of_toNat ?_, extract_of_toNat ?_, extract_of_toNat ?_, extract_of_toNat ?_⟩ <;>
    rw [wordA_toNat f ho hf] <;> omega

theorem fmtAOf_wordA : fmtAOf (wordA f opc fn) = f := by
  obtain ⟨-, -, modf, wm1, di, ai, bi, bs, db, ab, bb, res⟩ := wordA_fields f ho hf
  simp only [fmtAOf, modf, wm1, di, ai, bi, bs, db, ab, bb, res]

theorem opcOf_wordA : opcOf (wordA f opc fn) = opc := by
  rw [opcOf, (wordA_fields f ho hf).1, BitVec.toNat_ofNat, Nat.mod_eq_of_lt ho]

theorem fnOf_wordA : fnOf (wordA f opc fn) = fn := by
  rw [fnOf, (wordA_fields f ho hf).2.1, BitVec.toNat_ofNat, Nat.mod_eq_of_lt hf]

end FormatA

theorem opcOf_lt (w : DWord) : opcOf w < 64 := (w.extractLsb' 58 6).isLt
theorem fnOf_lt (w : DWord) : fnOf w < 32 := (w.extractLsb' 53 5).isLt

theorem ofNat_opcOf (w : DWord) : BitVec.ofNat 6 (opcOf w) = w.extractLsb' 58 6 := BitVec.ofNat_toNat _ _ |>.trans (by simp)
theorem ofNat_fnOf (w : DWord) : BitVec.ofNat 5 (fnOf w) = w.extractLsb' 53 5 := BitVec.ofNat_toNat _ _ |>.trans (by simp)

/-- The fields of format A are all of the word. -/
theorem wordA_fmtAOf (w : DWord) : wordA (fmtAOf w) (opcOf w) (fnOf w) = w := by
  obtain ⟨opc, fn, modf, wm1, di, ai, bi, bs, db, ab, bb, res⟩ := wordA_fields (fmtAOf w) (opcOf_lt w) (fnOf_lt w)
  rw [ofNat_opcOf] at opc
  rw [ofNat_fnOf] at fn
  refine BitVec.eq_of_getLsbD_eq fun i hi => ?_
  rcases (by omega : i < 3 ∨ (3 ≤ i ∧ i < 15) ∨ (15 ≤ i ∧ i < 27) ∨ (27 ≤ i ∧ i < 39) ∨ i = 39 ∨ i = 40 ∨ i = 41 ∨ i = 42 ∨
      (43 ≤ i ∧ i < 49) ∨ (49 ≤ i ∧ i < 53) ∨ (53 ≤ i ∧ i < 58) ∨ 58 ≤ i) with
    h | ⟨l, h⟩ | ⟨l, h⟩ | ⟨l, h⟩ | rfl | rfl | rfl | rfl | ⟨l, h⟩ | ⟨l, h⟩ | ⟨l, h⟩ | l
  · exact getLsbD_of_extract res (Nat.zero_le i) h
  · exact getLsbD_of_extract bb l h
  · exact getLsbD_of_extract ab l h
  · exact getLsbD_of_extract db l h
  · exact bs
  · exact bi
  · exact ai
  · exact di
  · exact getLsbD_of_extract wm1 l h
  · exact getLsbD_of_extract modf l h
  · exact getLsbD_of_extract fn l h
  · exact getLsbD_of_extract opc l hi

/-! ### Format S -/

section FormatS

variable (f : FmtS) {fn : Nat} (hf : fn < 32)

include hf

theorem wordS_toNat : (wordS f fn).toNat = 0x07 * 2 ^ 58 + fn * 2 ^ 53 + f.sd.toNat * 2 ^ 49 + f.sa.toNat * 2 ^ 45 + f.sb.toNat * 2 ^ 41 +
    f.im.toNat * 2 ^ 40 + f.res.toNat * 2 ^ 32 + f.imm.toNat := by
  have := f.im.toNat_lt
  rw [wordS, BitVec.toNat_ofNat, Nat.mod_eq_of_lt]
  omega

/-- Where format S has its fields (R77). -/
theorem wordS_fields : let w := wordS f fn
    w.extractLsb' 58 6 = 7 ∧ w.extractLsb' 53 5 = BitVec.ofNat 5 fn ∧ w.extractLsb' 49 4 = f.sd ∧ w.extractLsb' 45 4 = f.sa ∧
      w.extractLsb' 41 4 = f.sb ∧ w.getLsbD 40 = f.im ∧ w.extractLsb' 32 8 = f.res ∧ w.extractLsb' 0 32 = f.imm := by
  have := f.im.toNat_lt
  have hf' : (BitVec.ofNat 5 fn).toNat = fn := Nat.mod_eq_of_lt hf
  have h7 : (7 : BitVec 6).toNat = 7 := rfl
  refine ⟨extract_of_toNat ?_, extract_of_toNat ?_, extract_of_toNat ?_, extract_of_toNat ?_, extract_of_toNat ?_, getLsbD_of_toNat ?_,
    extract_of_toNat ?_, extract_of_toNat ?_⟩ <;> rw [wordS_toNat f hf] <;> omega

theorem fmtSOf_wordS : fmtSOf (wordS f fn) = f := by
  obtain ⟨-, -, sd, sa, sb, im, res, imm⟩ := wordS_fields f hf
  simp only [fmtSOf, sd, sa, sb, im, res, imm]

theorem opcOf_wordS : opcOf (wordS f fn) = 7 := by
  rw [opcOf, (wordS_fields f hf).1]
  rfl

theorem fnOf_wordS : fnOf (wordS f fn) = fn := by
  rw [fnOf, (wordS_fields f hf).2.1, BitVec.toNat_ofNat, Nat.mod_eq_of_lt hf]

end FormatS

/-- The fields of format S are all of a word of its class. -/
theorem wordS_fmtSOf {w : DWord} (hw : opcOf w = 7) : wordS (fmtSOf w) (fnOf w) = w := by
  obtain ⟨opc, fn, sd, sa, sb, im, res, imm⟩ := wordS_fields (fmtSOf w) (fnOf_lt w)
  rw [show (7 : BitVec 6) = BitVec.ofNat 6 (opcOf w) by rw [hw]; rfl, ofNat_opcOf] at opc
  rw [ofNat_fnOf] at fn
  refine BitVec.eq_of_getLsbD_eq fun i hi => ?_
  rcases (by omega : i < 32 ∨ (32 ≤ i ∧ i < 40) ∨ i = 40 ∨ (41 ≤ i ∧ i < 45) ∨ (45 ≤ i ∧ i < 49) ∨ (49 ≤ i ∧ i < 53) ∨
      (53 ≤ i ∧ i < 58) ∨ 58 ≤ i) with h | ⟨l, h⟩ | rfl | ⟨l, h⟩ | ⟨l, h⟩ | ⟨l, h⟩ | ⟨l, h⟩ | l
  · exact getLsbD_of_extract imm (Nat.zero_le i) (by omega)
  · exact getLsbD_of_extract res l h
  · exact im
  · exact getLsbD_of_extract sb l h
  · exact getLsbD_of_extract sa l h
  · exact getLsbD_of_extract sd l h
  · exact getLsbD_of_extract fn l h
  · exact getLsbD_of_extract opc l hi

/-! ### Format J -/

section FormatJ

variable (f : FmtJ) {fn : Nat} (hf : fn < 32)

include hf

theorem wordJ_toNat : (wordJ f fn).toNat = 0x08 * 2 ^ 58 + fn * 2 ^ 53 + f.ai.toNat * 2 ^ 52 + f.ab.toNat * 2 ^ 40 + f.sa.toNat * 2 ^ 36 +
    f.sb.toNat * 2 ^ 32 + f.res.toNat * 2 ^ 24 + f.tgt.toNat := by
  have := f.ai.toNat_lt
  rw [wordJ, BitVec.toNat_ofNat, Nat.mod_eq_of_lt]
  omega

/-- Where format J has its fields (R77). -/
theorem wordJ_fields : let w := wordJ f fn
    w.extractLsb' 58 6 = 8 ∧ w.extractLsb' 53 5 = BitVec.ofNat 5 fn ∧ w.getLsbD 52 = f.ai ∧ w.extractLsb' 40 12 = f.ab ∧
      w.extractLsb' 36 4 = f.sa ∧ w.extractLsb' 32 4 = f.sb ∧ w.extractLsb' 24 8 = f.res ∧ w.extractLsb' 0 24 = f.tgt := by
  have := f.ai.toNat_lt
  have hf' : (BitVec.ofNat 5 fn).toNat = fn := Nat.mod_eq_of_lt hf
  have h8 : (8 : BitVec 6).toNat = 8 := rfl
  refine ⟨extract_of_toNat ?_, extract_of_toNat ?_, getLsbD_of_toNat ?_, extract_of_toNat ?_, extract_of_toNat ?_, extract_of_toNat ?_,
    extract_of_toNat ?_, extract_of_toNat ?_⟩ <;> rw [wordJ_toNat f hf] <;> omega

theorem fmtJOf_wordJ : fmtJOf (wordJ f fn) = f := by
  obtain ⟨-, -, ai, ab, sa, sb, res, tgt⟩ := wordJ_fields f hf
  simp only [fmtJOf, ai, ab, sa, sb, res, tgt]

theorem opcOf_wordJ : opcOf (wordJ f fn) = 8 := by
  rw [opcOf, (wordJ_fields f hf).1]
  rfl

theorem fnOf_wordJ : fnOf (wordJ f fn) = fn := by
  rw [fnOf, (wordJ_fields f hf).2.1, BitVec.toNat_ofNat, Nat.mod_eq_of_lt hf]

end FormatJ

/-- The fields of format J are all of a word of its class. -/
theorem wordJ_fmtJOf {w : DWord} (hw : opcOf w = 8) : wordJ (fmtJOf w) (fnOf w) = w := by
  obtain ⟨opc, fn, ai, ab, sa, sb, res, tgt⟩ := wordJ_fields (fmtJOf w) (fnOf_lt w)
  rw [show (8 : BitVec 6) = BitVec.ofNat 6 (opcOf w) by rw [hw]; rfl, ofNat_opcOf] at opc
  rw [ofNat_fnOf] at fn
  refine BitVec.eq_of_getLsbD_eq fun i hi => ?_
  rcases (by omega : i < 24 ∨ (24 ≤ i ∧ i < 32) ∨ (32 ≤ i ∧ i < 36) ∨ (36 ≤ i ∧ i < 40) ∨ (40 ≤ i ∧ i < 52) ∨ i = 52 ∨
      (53 ≤ i ∧ i < 58) ∨ 58 ≤ i) with h | ⟨l, h⟩ | ⟨l, h⟩ | ⟨l, h⟩ | ⟨l, h⟩ | rfl | ⟨l, h⟩ | l
  · exact getLsbD_of_extract tgt (Nat.zero_le i) (by omega)
  · exact getLsbD_of_extract res l h
  · exact getLsbD_of_extract sb l h
  · exact getLsbD_of_extract sa l h
  · exact getLsbD_of_extract ab l h
  · exact ai
  · exact getLsbD_of_extract fn l h
  · exact getLsbD_of_extract opc l hi

/-! ### Instruction words and their commands -/

/-- A command and the word of a class that spells it. -/
inductive Spells : Instr → Tenant → DWord → Prop where
  | a {opc fn : Nat} {k : Tenant → FmtA → Instr} (h : (classA opc).getD fn none = some k) (t : Tenant) (f : FmtA) : Spells (k t f) t (wordA f opc fn)
  | s {fn : Nat} {k : Tenant → FmtS → Instr} (h : classS[fn]? = some k) (t : Tenant) (f : FmtS) : Spells (k t f) t (wordS f fn)
  | j {fn : Nat} {k : Tenant → FmtJ → Instr} (h : classJ[fn]? = some k) (t : Tenant) (f : FmtJ) : Spells (k t f) t (wordJ f fn)

theorem spells_of_aisWord {c : Instr} {t : Tenant} {w : DWord} (h : aisWord c = some (t, w)) : Spells c t w := by
  unfold aisWord at h
  split at h
  all_goals simp only [Option.some.injEq, Prod.mk.injEq, reduceCtorEq] at h
  all_goals (obtain ⟨rfl, rfl⟩ := h; constructor; rfl)

/-- Where the classes of format A lie. -/
theorem classA_lt {opc fn : Nat} {k : Tenant → FmtA → Instr} (h : (classA opc).getD fn none = some k) :
    opc < 11 ∧ opc ≠ 7 ∧ opc ≠ 8 ∧ fn < 16 := by
  have hfn : fn < (classA opc).length := by
    by_contra hlen
    rw [List.getD_eq_default _ _ (Nat.le_of_not_lt hlen)] at h
    cases h
  unfold classA at hfn
  split at hfn <;> simp only [List.length_cons, List.length_nil] at hfn <;> omega

theorem aisWord_of_spells {c : Instr} {t : Tenant} {w : DWord} (h : Spells c t w) : aisWord c = some (t, w) := by
  cases h with
  | @a opc fn k h t f =>
    obtain ⟨ho, -, -, hf⟩ := classA_lt h
    interval_cases opc <;> interval_cases fn <;> cases h <;> rfl
  | @s fn k h t f =>
    have hf : fn < 11 := (List.getElem?_eq_some_iff.mp h).1
    interval_cases fn <;> cases h <;> rfl
  | @j fn k h t f =>
    have hf : fn < 10 := (List.getElem?_eq_some_iff.mp h).1
    interval_cases fn <;> cases h <;> rfl

theorem decodeAis_of_spells {c : Instr} {t : Tenant} {w : DWord} (h : Spells c t w) : decodeAis t w = some c := by
  cases h with
  | @a opc fn k h t f =>
    obtain ⟨ho, h7, h8, hf⟩ := classA_lt h
    have opcEq : opcOf (wordA f opc fn) = opc := opcOf_wordA f (by omega) (by omega)
    have fnEq : fnOf (wordA f opc fn) = fn := fnOf_wordA f (by omega) (by omega)
    have fields : fmtAOf (wordA f opc fn) = f := fmtAOf_wordA f (by omega) (by omega)
    rw [decodeAis, opcEq, fnEq, fields, if_neg h7, if_neg h8, h, Option.map_some]
  | @s fn k h t f =>
    have hf : fn < 11 := (List.getElem?_eq_some_iff.mp h).1
    have fnEq : fnOf (wordS f fn) = fn := fnOf_wordS f (by omega)
    have fields : fmtSOf (wordS f fn) = f := fmtSOf_wordS f (by omega)
    rw [decodeAis, opcOf_wordS f (by omega), fnEq, fields, if_pos rfl, h, Option.map_some]
  | @j fn k h t f =>
    have hf : fn < 10 := (List.getElem?_eq_some_iff.mp h).1
    have fnEq : fnOf (wordJ f fn) = fn := fnOf_wordJ f (by omega)
    have fields : fmtJOf (wordJ f fn) = f := fmtJOf_wordJ f (by omega)
    rw [decodeAis, opcOf_wordJ f (by omega), fnEq, fields, if_neg (by decide), if_pos rfl, h, Option.map_some]

theorem spells_of_decodeAis {c : Instr} {t : Tenant} {w : DWord} (h : decodeAis t w = some c) : Spells c t w := by
  unfold decodeAis at h
  split_ifs at h with h7 h8
  · obtain ⟨k, hk, rfl⟩ := Option.map_eq_some_iff.mp h
    have spelled := Spells.s hk t (fmtSOf w)
    rwa [wordS_fmtSOf h7] at spelled
  · obtain ⟨k, hk, rfl⟩ := Option.map_eq_some_iff.mp h
    have spelled := Spells.j hk t (fmtJOf w)
    rwa [wordJ_fmtJOf h8] at spelled
  · obtain ⟨k, hk, rfl⟩ := Option.map_eq_some_iff.mp h
    have spelled := Spells.a hk t (fmtAOf w)
    rwa [wordA_fmtAOf w] at spelled

/-- The word of an instruction spells it, and no other word spells an instruction. -/
theorem aisWord_iff_decodeAis (t : Tenant) (c : Instr) (w : DWord) : aisWord c = some (t, w) ↔ decodeAis t w = some c :=
  ⟨fun h => decodeAis_of_spells (spells_of_aisWord h), fun h => aisWord_of_spells (spells_of_decodeAis h)⟩

/-! ### Microwords -/

section Micro

variable (q : SeqId)

theorem decodeMicro_plane (w : PlaneW) (add : Bool) :
    decodeMicro q (wordPlane w add) = some (if add then .planeAdd q w else .planeLog q w) := by
  obtain ⟨tt, gf, dst, da, sa, sb, id, ia, ib, res⟩ := w
  have num : (wordPlane ⟨tt, gf, dst, da, sa, sb, id, ia, ib, res⟩ add).toNat = 2 ^ 26 + tt.toNat * 2 ^ 22 + add.toNat * 2 ^ 20 +
      gf.toNat * 2 ^ 19 + dst.toNat * 2 ^ 16 + da.toNat * 2 ^ 13 + sa.toNat * 2 ^ 9 + sb.toNat * 2 ^ 5 + id.toNat * 16 +
      ia.toNat * 8 + ib.toNat * 4 + res.toNat := by
    simp only [wordPlane, toNat_append_add, BitVec.toNat_ofBool, BitVec.toNat_ofNat]
    omega
  generalize wordPlane _ add = x at num ⊢
  have := gf.toNat_lt
  have := id.toNat_lt
  have := ia.toNat_lt
  have := ib.toNat_lt
  have := add.toNat_lt
  have op : (x.extractLsb' 26 6).toNat = 1 := toNat_extract_of (by omega)
  have mode : x.extractLsb' 20 2 = if add then 1 else 0 := extract_of_toNat (by rw [num]; cases add <;> simp <;> omega)
  have fields : planeOf x = ⟨tt, gf, dst, da, sa, sb, id, ia, ib, res⟩ := by
    simp only [planeOf, PlaneW.mk.injEq]
    refine ⟨extract_of_toNat ?_, getLsbD_of_toNat ?_, extract_of_toNat ?_, extract_of_toNat ?_, extract_of_toNat ?_, extract_of_toNat ?_,
      getLsbD_of_toNat ?_, getLsbD_of_toNat ?_, getLsbD_of_toNat ?_, extract_of_toNat ?_⟩ <;> omega
  simp only [decodeMicro, op, mode, fields]
  cases add <;> rfl

theorem decodeMicro_news (dir : BitVec 2) (ls : Bool) (res : BitVec 23) :
    decodeMicro q (wordNews dir ls res) = some (.news q dir ls ⟨res, []⟩) := by
  have num : (wordNews dir ls res).toNat = 2 * 2 ^ 26 + dir.toNat * 2 ^ 24 + ls.toNat * 2 ^ 23 + res.toNat := by
    simp only [wordNews, toNat_append_add, BitVec.toNat_ofBool, BitVec.toNat_ofNat]
    omega
  generalize wordNews dir ls res = x at num ⊢
  have := ls.toNat_lt
  have op : (x.extractLsb' 26 6).toNat = 2 := toNat_extract_of (by omega)
  have eDir : x.extractLsb' 24 2 = dir := extract_of_toNat (by omega)
  have eLs : x.getLsbD 23 = ls := getLsbD_of_toNat (by omega)
  have eRes : x.extractLsb' 0 23 = res := extract_of_toNat (by omega)
  simp only [decodeMicro, op, eDir, eLs, eRes]

theorem decodeMicro_addr (w : AddrW) (m : BitVec 3) :
    decodeMicro q (wordAddr w m) = addrModes[m.toNat]?.map fun c => c q w := by
  obtain ⟨md, src, res, imm⟩ := w
  have num : (wordAddr ⟨md, src, res, imm⟩ m).toNat =
      3 * 2 ^ 26 + md.toNat * 2 ^ 23 + m.toNat * 2 ^ 20 + src.toNat * 2 ^ 16 + res.toNat * 2 ^ 13 + imm.toNat := by
    simp only [wordAddr, toNat_append_add, BitVec.toNat_ofNat]
    omega
  generalize wordAddr _ m = x at num ⊢
  have op : (x.extractLsb' 26 6).toNat = 3 := toNat_extract_of (by omega)
  have eMode : (x.extractLsb' 20 3).toNat = m.toNat := toNat_extract_of (by omega)
  have eMd : x.extractLsb' 23 3 = md := extract_of_toNat (by omega)
  have eSrc : x.extractLsb' 16 4 = src := extract_of_toNat (by omega)
  have eRes : x.extractLsb' 13 3 = res := extract_of_toNat (by omega)
  have eImm : x.extractLsb' 0 13 = imm := extract_of_toNat (by omega)
  simp only [decodeMicro, op, eMode, eMd, eSrc, eRes, eImm]

theorem decodeMicro_scal (w : ScalW) (fn : BitVec 4) :
    decodeMicro q (wordScal w fn) = scalFns[fn.toNat]?.map fun c => c q w := by
  obtain ⟨sd, sa, sb, imm⟩ := w
  have num : (wordScal ⟨sd, sa, sb, imm⟩ fn).toNat =
      4 * 2 ^ 26 + fn.toNat * 2 ^ 22 + sd.toNat * 2 ^ 18 + sa.toNat * 2 ^ 14 + sb.toNat * 2 ^ 10 + imm.toNat := by
    simp only [wordScal, toNat_append_add, BitVec.toNat_ofNat]
    omega
  generalize wordScal _ fn = x at num ⊢
  have op : (x.extractLsb' 26 6).toNat = 4 := toNat_extract_of (by omega)
  have eFn : (x.extractLsb' 22 4).toNat = fn.toNat := toNat_extract_of (by omega)
  have eSd : x.extractLsb' 18 4 = sd := extract_of_toNat (by omega)
  have eSa : x.extractLsb' 14 4 = sa := extract_of_toNat (by omega)
  have eSb : x.extractLsb' 10 4 = sb := extract_of_toNat (by omega)
  have eImm : x.extractLsb' 0 10 = imm := extract_of_toNat (by omega)
  simp only [decodeMicro, op, eFn, eSd, eSa, eSb, eImm]

theorem decodeMicro_wait (w : WaitW) : decodeMicro q (wordWait w) = some (.wait q w) := by
  obtain ⟨cond, nt, res, imm⟩ := w
  have num : (wordWait ⟨cond, nt, res, imm⟩).toNat =
      5 * 2 ^ 26 + cond.toNat * 2 ^ 23 + nt.toNat * 2 ^ 22 + res.toNat * 2 ^ 12 + imm.toNat := by
    simp only [wordWait, toNat_append_add, BitVec.toNat_ofBool, BitVec.toNat_ofNat]
    omega
  generalize wordWait _ = x at num ⊢
  have := nt.toNat_lt
  have op : (x.extractLsb' 26 6).toNat = 5 := toNat_extract_of (by omega)
  have eCond : x.extractLsb' 23 3 = cond := extract_of_toNat (by omega)
  have eNt : x.getLsbD 22 = nt := getLsbD_of_toNat (by omega)
  have eRes : x.extractLsb' 12 10 = res := extract_of_toNat (by omega)
  have eImm : x.extractLsb' 0 12 = imm := extract_of_toNat (by omega)
  simp only [decodeMicro, op, eCond, eNt, eRes, eImm]

theorem decodeMicro_br (w : BrW) (c : BitVec 3) :
    decodeMicro q (wordBr w c) = (if c = 7 then none else if c = 6 then some (.microRet q { w with cond := c })
      else if c = 5 then some (.microCall q { w with cond := c }) else some (.microBr q { w with cond := c })) := by
  obtain ⟨cond, bit, scan, res, tgt⟩ := w
  have num : (wordBr ⟨cond, bit, scan, res, tgt⟩ c).toNat =
      6 * 2 ^ 26 + c.toNat * 2 ^ 23 + bit.toNat * 2 ^ 18 + scan.toNat * 2 ^ 16 + res.toNat * 2 ^ 14 + tgt.toNat := by
    simp only [wordBr, toNat_append_add, BitVec.toNat_ofNat]
    omega
  generalize wordBr _ c = x at num ⊢
  have op : (x.extractLsb' 26 6).toNat = 6 := toNat_extract_of (by omega)
  have eCond : x.extractLsb' 23 3 = c := extract_of_toNat (by omega)
  have fields : brOf x = ⟨c, bit, scan, res, tgt⟩ := by
    simp only [brOf, BrW.mk.injEq]
    exact ⟨eCond, extract_of_toNat (by omega), extract_of_toNat (by omega), extract_of_toNat (by omega), extract_of_toNat (by omega)⟩
  simp only [decodeMicro, op, eCond, fields]
  split_ifs <;> simp_all

theorem decodeMicro_loop (w : LoopW) : decodeMicro q (wordLoop w) = some (.loop q w) := by
  obtain ⟨lco, lci, blen, ilen, cp, rs, res⟩ := w
  have num : (wordLoop ⟨lco, lci, blen, ilen, cp, rs, res⟩).toNat = 7 * 2 ^ 26 + lco.toNat * 2 ^ 24 + lci.toNat * 2 ^ 22 +
      blen.toNat * 2 ^ 19 + ilen.toNat * 2 ^ 16 + cp.toNat * 2 ^ 14 + rs.toNat * 2 ^ 13 + res.toNat := by
    simp only [wordLoop, toNat_append_add, BitVec.toNat_ofBool, BitVec.toNat_ofNat]
    omega
  generalize wordLoop _ = x at num ⊢
  have := rs.toNat_lt
  have op : (x.extractLsb' 26 6).toNat = 7 := toNat_extract_of (by omega)
  have eLco : x.extractLsb' 24 2 = lco := extract_of_toNat (by omega)
  have eLci : x.extractLsb' 22 2 = lci := extract_of_toNat (by omega)
  have eBlen : x.extractLsb' 19 3 = blen := extract_of_toNat (by omega)
  have eIlen : x.extractLsb' 16 3 = ilen := extract_of_toNat (by omega)
  have eCp : x.extractLsb' 14 2 = cp := extract_of_toNat (by omega)
  have eRs : x.getLsbD 13 = rs := getLsbD_of_toNat (by omega)
  have eRes : x.extractLsb' 0 13 = res := extract_of_toNat (by omega)
  simp only [decodeMicro, op, eLco, eLci, eBlen, eIlen, eCp, eRs, eRes]

theorem decodeMicro_gor (w : GorW) : decodeMicro q (wordGor w) = some (.gor q w) := by
  obtain ⟨tag, tv, cg, res⟩ := w
  have num : (wordGor ⟨tag, tv, cg, res⟩).toNat =
      8 * 2 ^ 26 + tag.toNat * 2 ^ 21 + tv.toNat * 2 ^ 20 + cg.toNat * 2 ^ 19 + res.toNat := by
    simp only [wordGor, toNat_append_add, BitVec.toNat_ofBool, BitVec.toNat_ofNat]
    omega
  generalize wordGor _ = x at num ⊢
  have := tv.toNat_lt
  have := cg.toNat_lt
  have op : (x.extractLsb' 26 6).toNat = 8 := toNat_extract_of (by omega)
  have eTag : x.extractLsb' 21 5 = tag := extract_of_toNat (by omega)
  have eTv : x.getLsbD 20 = tv := getLsbD_of_toNat (by omega)
  have eCg : x.getLsbD 19 = cg := getLsbD_of_toNat (by omega)
  have eRes : x.extractLsb' 0 19 = res := extract_of_toNat (by omega)
  simp only [decodeMicro, op, eTag, eTv, eCg, eRes]

theorem decodeMicro_bcast (w : BcastW) : decodeMicro q (wordBcast w) = some (.bcast q w) := by
  obtain ⟨sreg, bit, sx, res⟩ := w
  have num : (wordBcast ⟨sreg, bit, sx, res⟩).toNat =
      9 * 2 ^ 26 + sreg.toNat * 2 ^ 22 + bit.toNat * 2 ^ 16 + sx.toNat * 2 ^ 15 + res.toNat := by
    simp only [wordBcast, toNat_append_add, BitVec.toNat_ofBool, BitVec.toNat_ofNat]
    omega
  generalize wordBcast _ = x at num ⊢
  have := sx.toNat_lt
  have op : (x.extractLsb' 26 6).toNat = 9 := toNat_extract_of (by omega)
  have eSreg : x.extractLsb' 22 4 = sreg := extract_of_toNat (by omega)
  have eBit : x.extractLsb' 16 6 = bit := extract_of_toNat (by omega)
  have eSx : x.getLsbD 15 = sx := getLsbD_of_toNat (by omega)
  have eRes : x.extractLsb' 0 15 = res := extract_of_toNat (by omega)
  simp only [decodeMicro, op, eSreg, eBit, eSx, eRes]

theorem decodeMicro_trapchk (w : TrapW) :
    decodeMicro q (wordTrapchk w) = some (if w.mode = 3 then .trapchkBoundary q w else .trapchkRaise q w) := by
  obtain ⟨mode, cause, bit, detail, res⟩ := w
  have num : (wordTrapchk ⟨mode, cause, bit, detail, res⟩).toNat =
      10 * 2 ^ 26 + mode.toNat * 2 ^ 24 + cause.toNat * 2 ^ 19 + bit.toNat * 2 ^ 14 + detail.toNat * 2 ^ 12 + res.toNat := by
    simp only [wordTrapchk, toNat_append_add, BitVec.toNat_ofNat]
    omega
  generalize wordTrapchk _ = x at num ⊢
  have op : (x.extractLsb' 26 6).toNat = 10 := toNat_extract_of (by omega)
  have eMode : x.extractLsb' 24 2 = mode := extract_of_toNat (by omega)
  have fields : trapchkOf x = ⟨mode, cause, bit, detail, res⟩ := by
    simp only [trapchkOf, TrapW.mk.injEq]
    exact ⟨eMode, extract_of_toNat (by omega), extract_of_toNat (by omega), extract_of_toNat (by omega), extract_of_toNat (by omega)⟩
  simp only [decodeMicro, op, eMode, fields]

theorem decodeMicro_reschk (w : ReschkW) (c : BitVec 2) :
    decodeMicro q (wordReschk w c) = (if c = 0 then some (.reschkSum q w) else if c = 1 then some (.reschkProd q w)
      else if c = 2 then some (.reschkClear q w) else none) := by
  obtain ⟨k2, fl, res⟩ := w
  have num : (wordReschk ⟨k2, fl, res⟩ c).toNat =
      11 * 2 ^ 26 + c.toNat * 2 ^ 24 + k2.toNat * 2 ^ 23 + fl.toNat * 2 ^ 21 + res.toNat := by
    simp only [wordReschk, toNat_append_add, BitVec.toNat_ofBool, BitVec.toNat_ofNat]
    omega
  generalize wordReschk _ c = x at num ⊢
  have := k2.toNat_lt
  have op : (x.extractLsb' 26 6).toNat = 11 := toNat_extract_of (by omega)
  have eRel : x.extractLsb' 24 2 = c := extract_of_toNat (by omega)
  have fields : reschkOf x = ⟨k2, fl, res⟩ := by
    simp only [reschkOf, ReschkW.mk.injEq]
    exact ⟨getLsbD_of_toNat (by omega), extract_of_toNat (by omega), extract_of_toNat (by omega)⟩
  simp only [decodeMicro, op, eRel, fields]

end Micro

/-- The all-zero word has a reserved OPC (R78). -/
theorem decodeAis_zero (t : Tenant) : decodeAis t 0 = none := rfl

/-- Settles O7: an instruction word is one of its class's words over its own fields (`Spells`), and a field is read back by dividing
and reducing the number that the layout makes. -/
theorem wordsDecode : Obligations.WordsDecode := by
  unfold Obligations.WordsDecode
  refine ⟨⟨aisWord_iff_decodeAis, decodeAis_zero, fun f _ _ => wordA_fields f, fun f _ => wordS_fields f, fun f _ => wordJ_fields f⟩,
    fun q => ⟨decodeMicro_plane q, decodeMicro_news q, fun w i => ?_, fun w i => ?_, decodeMicro_wait q, decodeMicro_br q,
      decodeMicro_loop q, decodeMicro_gor q, decodeMicro_bcast q, decodeMicro_trapchk q, decodeMicro_reschk q⟩⟩
  · rw [decodeMicro_addr, BitVec.toNat_ofNat, Nat.mod_eq_of_lt (by omega)]
  · rw [decodeMicro_scal, BitVec.toNat_ofNat, Nat.mod_eq_of_lt i.isLt]

end Sys2Proof.Machine
end

section
/-! SUPPORT. The integer functions of one element in ordinary arithmetic (R84, R85, R111–R113). -/

set_option Elab.async false

namespace Sys2Proof.Machine

open Sys2Proof

/-! ### Values of a width -/

theorem minVal_nonpos (S : Bool) (w : Nat) : minVal S w ≤ 0 := by
  cases S
  · exact le_rfl
  · exact Int.neg_nonpos_of_nonneg (Int.natCast_nonneg _)

theorem maxVal_nonneg (S : Bool) (w : Nat) : 0 ≤ maxVal S w := by
  have := Nat.two_pow_pos w
  have := Nat.two_pow_pos (w - 1)
  cases S <;> simp only [maxVal, Bool.false_eq_true, if_false, if_true] <;> omega

theorem two_pow_double {w : Nat} (hw : 1 ≤ w) : 2 ^ w = 2 * 2 ^ (w - 1) := by
  rw [← Nat.pow_succ', Nat.succ_eq_add_one, Nat.sub_add_cancel hw]

/-- The values of a width are `2^w` in a row. -/
theorem maxVal_eq (S : Bool) {w : Nat} (hw : 1 ≤ w) : maxVal S w = minVal S w + (2 ^ w : Nat) - 1 := by
  have := two_pow_double hw
  cases S <;> simp only [maxVal, minVal, Bool.false_eq_true, if_false, if_true] <;> omega

theorem value_mem (S : Bool) {w : Nat} (hw : 1 ≤ w) (n : Nat) : minVal S w ≤ value S w n ∧ value S w n ≤ maxVal S w := by
  have := two_pow_double hw
  have := Nat.mod_lt n (Nat.two_pow_pos w)
  cases S
  · simp only [maxVal, minVal, value, Bool.false_eq_true, if_false]
    omega
  · simp only [maxVal, minVal, value, toSigned, if_true]
    split <;> omega

/-- A pattern and its value are congruent. -/
theorem value_emod (S : Bool) (w n : Nat) : value S w n % (2 ^ w : Nat) = (n : Int) % (2 ^ w : Nat) := by
  cases S <;> simp only [value, toSigned, Bool.false_eq_true, if_false, if_true]
  · rw [Int.natCast_emod, Int.emod_emod]
  · split
    · rw [Int.natCast_emod, Int.emod_emod]
    · rw [Int.sub_emod_right, Int.natCast_emod, Int.emod_emod]

theorem ofInt_lt (w : Nat) (x : Int) : ofInt w x < 2 ^ w := by
  have := Nat.two_pow_pos w
  have := Int.emod_lt_of_pos x (b := (2 ^ w : Nat)) (by omega)
  unfold ofInt
  omega

theorem natCast_ofInt (w : Nat) (x : Int) : (ofInt w x : Int) = x % (2 ^ w : Nat) := by
  have := Nat.two_pow_pos w
  exact Int.toNat_of_nonneg (Int.emod_nonneg x (by omega))

/-- Two values of a width that are congruent are equal. -/
theorem eq_of_emod_eq (S : Bool) {w : Nat} (hw : 1 ≤ w) {x y : Int} (hx : minVal S w ≤ x ∧ x ≤ maxVal S w)
    (hy : minVal S w ≤ y ∧ y ≤ maxVal S w) (h : x % (2 ^ w : Nat) = y % (2 ^ w : Nat)) : x = y := by
  rw [maxVal_eq S hw] at hx hy
  have := Int.emod_eq_emod_iff_emod_sub_eq_zero.mp h
  have small := Int.eq_zero_of_abs_lt_dvd (Int.dvd_of_emod_eq_zero this) (abs_lt.mpr ⟨by omega, by omega⟩)
  omega

theorem value_ofInt {S : Bool} {w : Nat} (hw : 1 ≤ w) {x : Int} (hx : minVal S w ≤ x ∧ x ≤ maxVal S w) : value S w (ofInt w x) = x :=
  eq_of_emod_eq S hw (value_mem S hw _) hx (by rw [value_emod, natCast_ofInt, Int.emod_emod])

theorem ofInt_value (S : Bool) {w n : Nat} (hn : n < 2 ^ w) : ofInt w (value S w n) = n := by
  have h := natCast_ofInt w (value S w n)
  rw [value_emod, ← Int.natCast_emod, Nat.mod_eq_of_lt hn] at h
  exact Int.ofNat_inj.mp h

theorem value_inj (S : Bool) {w a b : Nat} (ha : a < 2 ^ w) (hb : b < 2 ^ w) : value S w a = value S w b ↔ a = b :=
  ⟨fun h => by rw [← ofInt_value S ha, h, ofInt_value S hb], fun h => by rw [h]⟩

/-! ### Sums, differences, products and negations -/

/-- A result that is an exact value written into a width, by R85 and R111. -/
def Meets (S sat : Bool) (w : Nat) (r : IntRes) (exact : Int) : Prop :=
  (minVal S w ≤ exact ∧ exact ≤ maxVal S w → value S w r.d = exact ∧ r.flags = 0) ∧
    (¬(minVal S w ≤ exact ∧ exact ≤ maxVal S w) →
      (sat = false → ((r.d : Int) - exact) % 2 ^ w = 0 ∧ r.d < 2 ^ w ∧ r.flags = flagOV) ∧
      (sat = true → value S w r.d = (if exact < minVal S w then minVal S w else maxVal S w) ∧ r.flags = flagSV))

theorem fit_meets (S sat : Bool) {w : Nat} (hw : 1 ≤ w) (x : Int) (c : Option Bool) :
    Meets S sat w ⟨(fit S sat w x).1, c, (fit S sat w x).2⟩ x := by
  have lo := minVal_nonpos S w
  have hi := maxVal_nonneg S w
  by_cases hx : minVal S w ≤ x ∧ x ≤ maxVal S w
  · refine ⟨fun _ => ?_, fun h => absurd hx h⟩
    simp only [fit, if_pos hx, value_ofInt hw hx, and_self]
  · refine ⟨fun h => absurd h hx, fun _ => ⟨?_, ?_⟩⟩ <;> rintro rfl
    · simp only [fit, if_neg hx, Bool.false_eq_true, if_false, and_true]
      refine ⟨?_, ofInt_lt w x⟩
      have cast : ((2 ^ w : Nat) : Int) = 2 ^ w := Int.natCast_pow 2 w
      rw [natCast_ofInt, cast, Int.emod_sub_emod, Int.sub_self, Int.zero_emod]
    · have bound : (if x < 0 then minVal S w else maxVal S w) = if x < minVal S w then minVal S w else maxVal S w := by
        split_ifs <;> omega
      simp only [fit, if_neg hx, if_true, and_true, bound]
      exact value_ofInt hw (by split_ifs <;> omega)

section AddSub

variable (S sat cin : Bool) {w : Nat} (a b : Nat)

theorem addSub_add_meets (hw : 1 ≤ w) {x : Int} (hx : x = value S w a + value S w b + cin.toNat) :
    Meets S sat w (addSub S sat false w a b cin) x := hx ▸ fit_meets S sat hw _ _

theorem addSub_sub_meets (hw : 1 ≤ w) {x : Int} (hx : x = value S w a - value S w b - (1 - cin.toNat)) :
    Meets S sat w (addSub S sat true w a b cin) x := hx ▸ fit_meets S sat hw _ _

/-- A + NOT B and the carry in pass `2^w` where B and the borrow are not above A. -/
theorem addSub_sub_carry {b : Nat} (hb : b < 2 ^ w) {p : Prop} [Decidable p] (hp : p ↔ b + 1 ≤ a + cin.toNat) :
    (addSub S sat true w a b cin).c = some (decide p) :=
  congrArg some (decide_eq_decide.mpr (by rw [hp]; simp only [if_true]; omega))

end AddSub

theorem toNat_decide_eq (p : Prop) [Decidable p] : (decide p).toNat = if p then 1 else 0 := by
  split_ifs with h <;> simp [h]

/-- The product of two values of a width is a value of twice the width. -/
theorem mul_mem (S : Bool) {w : Nat} (hw : 1 ≤ w) {x y : Int} (hx : minVal S w ≤ x ∧ x ≤ maxVal S w)
    (hy : minVal S w ≤ y ∧ y ≤ maxVal S w) : minVal S (2 * w) ≤ x * y ∧ x * y ≤ maxVal S (2 * w) := by
  cases S
  · simp only [minVal, maxVal, Bool.false_eq_true, if_false] at hx hy ⊢
    rw [two_mul, pow_add]
    push_cast at *
    constructor <;> nlinarith
  · simp only [minVal, maxVal, if_true] at hx hy ⊢
    have h : (2 : Int) ^ (2 * w - 1) = 2 * (2 ^ (w - 1) * 2 ^ (w - 1)) := by
      rw [← pow_add, ← pow_succ']
      congr 1
      omega
    push_cast at *
    rw [h]
    generalize (2 : Int) ^ (w - 1) = m at *
    have : 1 ≤ m := by omega
    constructor <;> nlinarith

/-! ### Quotient and remainder -/

theorem natAbs_le_of_mem {w : Nat} {x : Int} (hx : minVal true w ≤ x ∧ x ≤ maxVal true w) : x.natAbs ≤ 2 ^ (w - 1) := by
  simp only [minVal, maxVal, if_true] at hx
  omega

/-- A quotient is in range but for the smallest value over −1. -/
theorem tdiv_mem {S : Bool} {w : Nat} {x y : Int} (hx : minVal S w ≤ x ∧ x ≤ maxVal S w)
    (hy : minVal S w ≤ y ∧ y ≤ maxVal S w) (h : ¬(S = true ∧ x = minVal S w ∧ y = -1)) :
    minVal S w ≤ x.tdiv y ∧ x.tdiv y ≤ maxVal S w := by
  have abs : (x.tdiv y).natAbs = x.natAbs / y.natAbs := Int.natAbs_tdiv x y
  have le := Nat.div_le_self x.natAbs y.natAbs
  cases S
  · have := Int.tdiv_nonneg (a := x) (b := y) hx.1 hy.1
    simp only [minVal, maxVal, Bool.false_eq_true, if_false] at hx hy ⊢
    omega
  · simp only [minVal, maxVal, if_true, true_and] at hx hy h ⊢
    by_cases hy1 : y.natAbs ≤ 1
    · obtain rfl | rfl | rfl : y = 0 ∨ y = 1 ∨ y = -1 := by omega
      · rw [Int.tdiv_zero]
        omega
      · rwa [Int.tdiv_one]
      · rw [Int.tdiv_neg, Int.tdiv_one]
        omega
    · have := Nat.div_mul_le_self x.natAbs y.natAbs
      have : 2 * (x.natAbs / y.natAbs) ≤ x.natAbs := by nlinarith
      have := Nat.two_pow_pos (w - 1)
      omega

/-- A remainder is in range: it lies between 0 and the dividend. -/
theorem tmod_mem {S : Bool} {w : Nat} {x y : Int} (hx : minVal S w ≤ x ∧ x ≤ maxVal S w) :
    minVal S w ≤ x.tmod y ∧ x.tmod y ≤ maxVal S w := by
  have lo := minVal_nonpos S w
  have hi := maxVal_nonneg S w
  have abs : (x.tmod y).natAbs = x.natAbs % y.natAbs := Int.natAbs_tmod x y
  have le := Nat.mod_le x.natAbs y.natAbs
  rcases le_total 0 x with h | h
  · have := Int.tmod_nonneg y h
    omega
  · have := Int.tmod_nonneg y (Int.neg_nonneg_of_nonpos h)
    rw [Int.neg_tmod] at this
    omega

section DivMod

variable {S : Bool} {w a b : Nat}

theorem divMod_zero (hw : 1 ≤ w) (hy : value S w b = 0) :
    value S w (divMod S w a b).1 = (if value S w a < 0 then minVal S w else maxVal S w) ∧ (divMod S w a b).2.1 = a ∧
      (divMod S w a b).2.2 = flagDZ := by
  have lo := minVal_nonpos S w
  have hi := maxVal_nonneg S w
  refine ⟨?_, by simp only [divMod, if_pos hy], by simp only [divMod, if_pos hy]⟩
  simp only [divMod, if_pos hy]
  cases S
  · have := value_mem false hw a
    have top : (2 ^ w - 1 : Nat) % 2 ^ w = 2 ^ w - 1 := Nat.mod_eq_of_lt (by have := Nat.two_pow_pos w; omega)
    simp only [minVal, maxVal, value, Bool.false_eq_true, if_false, top] at *
    rw [if_neg (by omega)]
    have := Nat.two_pow_pos w
    omega
  · rcases lt_or_ge (value true w a) 0 with h | h
    · simp only [if_true, if_pos h, if_neg (not_le.mpr h)]
      exact value_ofInt hw (by omega)
    · simp only [if_true, if_pos h, if_neg (not_lt.mpr h)]
      exact value_ofInt hw (by omega)

theorem divMod_overflow (h : S = true ∧ value S w a = minVal S w ∧ value S w b = -1) :
    divMod S w a b = (a, 0, flagOV) := by
  have hy : value S w b ≠ 0 := by omega
  simp only [divMod, if_neg hy, if_pos h]

theorem divMod_exact (hw : 1 ≤ w) (hy : value S w b ≠ 0) (h : ¬(S = true ∧ value S w a = minVal S w ∧ value S w b = -1)) :
    value S w (divMod S w a b).1 = (value S w a).tdiv (value S w b) ∧
      value S w (divMod S w a b).2.1 = (value S w a).tmod (value S w b) ∧ (divMod S w a b).2.2 = 0 := by
  simp only [divMod, if_neg hy, if_neg h]
  exact ⟨value_ofInt hw (tdiv_mem (value_mem S hw a) (value_mem S hw b) h), value_ofInt hw (tmod_mem (value_mem S hw a)), trivial⟩

end DivMod

/-- The remainder has the sign of the dividend. -/
theorem tmod_sign (x y : Int) : x.tmod y = 0 ∨ (x.tmod y < 0 ↔ x < 0) := by
  rcases le_or_gt 0 x with h | h
  · have := Int.tmod_nonneg y h
    omega
  · have := Int.tmod_nonneg y (Int.neg_nonneg_of_nonpos h.le)
    rw [Int.neg_tmod] at this
    omega

/-- Settles O11: each function writes what `fit` makes of the exact value, and a value of a width is the only one of its residue. -/
theorem integerFunctions : Obligations.IntegerFunctions := by
  unfold Obligations.IntegerFunctions
  refine ⟨fun S sat cin w a b hw _ ha hb => ?_, fun S sat cin w a b hw _ ha hb => ⟨fun hy => ?_, fun h => ?_, fun hy h => ?_⟩⟩
  · have hx := value_mem S hw a
    have hy := value_mem S hw b
    have inj := value_inj S ha hb
    refine ⟨addSub_add_meets S sat false a b hw (by simp), addSub_add_meets S sat cin a b hw rfl,
      addSub_sub_meets S sat true a b hw (by simp), addSub_sub_meets S sat cin a b hw (by omega), fit_meets S sat hw _ none,
      fit_meets S sat hw _ none, rfl, rfl, addSub_sub_carry S sat true a hb (by simp), addSub_sub_carry S sat cin a hb Iff.rfl,
      value_ofInt (by omega) (mul_mem S hw hx hy), ?_, ?_, ?_, ?_, ?_, ?_⟩
    all_goals simp only [intElem, toNat_decide_eq, inj]
    · split_ifs <;> omega
    · split_ifs <;> omega
    · split_ifs <;> simp_all
  · obtain ⟨quotient, remainder, flags⟩ := divMod_zero hw hy
    exact ⟨remainder, quotient, flags, flags⟩
  · have result := divMod_overflow h
    simp only [intElem, result, and_self]
  · obtain ⟨quotient, remainder, flags⟩ := divMod_exact hw hy h
    have hq : value S w (intElem .div S sat w a b cin).d = _ := quotient
    have hr : value S w (intElem .mod S sat w a b cin).d = _ := remainder
    simp only [hq, hr]
    refine ⟨(Int.tdiv_mul_add_tmod _ _).symm, ?_, tmod_sign _ _, flags, flags⟩
    rw [Int.natAbs_tmod]
    exact Nat.mod_lt _ (Int.natAbs_pos.mpr hy)

end Sys2Proof.Machine
end

section
/-! SUPPORT. States in which the registers of a PE stand twice in the list that represents them, and what the instructions that dispatch make of
its P: the hidden entry comes to light. -/

set_option Elab.async false

namespace Sys2Proof.Machine

open Sys2Proof

/-- A PE with K 0. -/
def idlePe : PE := { PE.clear with k := false }

/-- The PEs of tile 0: in G16 its first `idle` slices are inactive; the registers of PE 1 stand twice, the first entry (the one that
counts) with P 1. -/
def hiddenPes (idle : Nat) : SMap PE := (1, { PE.clear with p := 1 }) :: (1, PE.clear) :: (List.range idle).map fun i => (16 * i, idlePe)

/-- T0 runs the word `w` at word 32 in G16 and at trap level, with these output bindings and a branch at the dispatch entry of `w`. -/
def hiddenPe (idle : Nat) (outs : List OutBind) (w : DWord) : State := { State.reset with
  tenants := [(0, { TenantSt.initial with own := some soleOwner, ownState := 1, orders := [{ bareOrder with outs := outs }], nextSeq := 2 })]
  seqs := [(0, { Sequencer.initial with
    service := .inService, bound := some 0, pc := 32, gw := .g16, tl := true, wcs := [(32 * opcOf w + fnOf w, 0x18000200)] })]
  tiles := [(0, { Tile.initial with polder := .awake 7 }), (16, { Tile.initial with service := .spare })]
  sp := SMap.writeN 0 [] 256 (leBytes 8 w.toNat)
  pe := hiddenPes idle }

section

variable (idle : Nat) (outs : List OutBind) (w : DWord)

theorem inv_hiddenPe : Inv (hiddenPe idle outs w) := by
  have mask : deepMaskOk (hiddenPe 0 [] 0) := by
    unfold deepMaskOk
    decide +kernel
  have logs : logsBounded (hiddenPe 0 [] 0) := by
    unfold logsBounded
    decide +kernel
  have tiles : ∀ n, n < 16 → (tile (hiddenPe 0 [] 0) n).service = .inService := by decide +kernel
  exact inv_of_map_nil rfl ⟨SMap.wf_writeN 256 _ rfl, rfl, rfl, rfl, rfl, rfl, rfl, rfl⟩ mask logs tiles

theorem spRead_hiddenPe : spRead (hiddenPe idle outs w) 256 8 = leBytes 8 w.toNat := by
  have len := length_leBytes 8 w.toNat
  refine List.ext_getElem (by simp [spRead, len]) fun i hi hj => ?_
  have base : ∀ i, i < 8 → spBase (hiddenPe 0 [] 0) (256 + i) = 0 := by decide +kernel
  have cell : SMap.get 0 (hiddenPe idle outs w).sp (256 + i) = (leBytes 8 w.toNat)[i] := SMap.get_writeN_in 256 _ i hj
  have zero : spBase (hiddenPe idle outs w) (256 + i) = 0 := base i (len ▸ hj)
  simp only [spRead, List.getElem_map, List.getElem_range, spByte, cell, zero]
  exact BitVec.xor_zero

theorem fetchAis_hiddenPe : fetchAis (hiddenPe idle outs w) 0 0 = (hiddenPe idle outs w, some w) := by
  have prog : (⟨0, 0, 1⟩ : Extent).addr + 8 * 32 = 256 := by decide
  have bank : memSt (hiddenPe idle outs w) (256 / bankBytes) = MemStatus.initial := rfl
  have good : spBadAt (hiddenPe idle outs w) 256 8 = false := rfl
  have value : BitVec.ofNat 64 (ofLe (leBytes 8 w.toNat)) = w := by
    rw [ofLe_leBytes, Nat.mod_eq_of_lt (by exact w.isLt), BitVec.ofNat_toNat, BitVec.setWidth_eq]
  unfold fetchAis
  rw [show (ten (hiddenPe idle outs w) 0).own = some soleOwner from rfl,
    show ((sqr (hiddenPe idle outs w) (0 : SeqId).val).pc).toNat = 32 from rfl]
  simp only [fetchProg, show roleExtent soleOwner 0 = some ⟨0, 0, 1⟩ from rfl, show roleExtent soleOwner 1 = some ⟨2, 0, 1⟩ from rfl,
    readCopied, prog, bank, good, spRead_hiddenPe]
  simp [MemStatus.initial, value]

theorem runsOn_hiddenPe : runsOn (hiddenPe idle outs w) 0 0 w := ⟨⟨rfl, .inl rfl, fetchAis_hiddenPe idle outs w⟩, rfl⟩

end


/-! ### No slice is active -/

theorem SMap.get_map_of_mem {α : Type} {d v : α} {f : Nat → Nat} {l : List Nat} {i : Nat} (hi : i ∈ l) :
    SMap.get d (l.map fun j => (f j, v)) (f i) = v := by
  induction l with
  | nil => cases hi
  | cons j l ih =>
    rw [List.map_cons, SMap.get]
    split
    · rfl
    · next h =>
      rcases List.mem_cons.mp hi with rfl | hi
      · exact absurd rfl h
      · exact ih hi

theorem k_hiddenPes {idle i : Nat} (hi : i < idle) : (SMap.get PE.clear (hiddenPes idle) (16 * i)).k = false := by
  have entry := SMap.get_map_of_mem (d := PE.clear) (v := idlePe) (f := fun i => 16 * i) (List.mem_range.mpr hi)
  rw [hiddenPes, SMap.get, if_neg (by omega), SMap.get, if_neg (by omega), entry]
  rfl

/-- With 256 idle slices, all of tile 0, none is active. -/
theorem active_hiddenPe (outs : List OutBind) (w : DWord) :
    (elems (hiddenPe 256 outs w) 16 (ownTiles (hiddenPe 256 outs w) 0)).filter (active (hiddenPe 256 outs w) 16) = [] := by
  refine List.filter_eq_nil_iff.mpr fun e he => ?_
  have mem : e ∈ tileElems 16 0 0 := (List.append_nil (tileElems 16 0 0)) ▸ he
  obtain ⟨r, hr, he⟩ := List.mem_flatMap.mp mem
  obtain ⟨c, hc, rfl⟩ := List.mem_map.mp he
  rw [List.mem_range] at hr hc
  have lane : (⟨0, 0, r, c⟩ : Elem).lane 16 0 = 16 * (4 * r + c) := by
    simp only [Elem.lane, peKey]
    omega
  rw [active, lane]
  simp [pe, hiddenPe, k_hiddenPes (show 4 * r + c < 256 by omega)]

/-! ### What dispatch shows -/

/-- What dispatch does to the registers of the PEs of tile 0. -/
def clearedPes (m : SMap PE) (e : Nat × PE) : SMap PE :=
  if [(0 : TileId)].any fun p => decide (e.1 / 4096 = p.val) then
    SMap.set PE.clear m e.1 { e.2 with ra := 0, rb := 0, rr := 0, weight2 := false } else m

theorem clearResidues_pe (s : State) : (clearResidues s [0]).pe = s.pe.foldl clearedPes s.pe := rfl

theorem get_clearedPes_ne (m : SMap PE) {e : Nat × PE} (h : e.1 ≠ 1) : SMap.get PE.clear (clearedPes m e) 1 = SMap.get PE.clear m 1 := by
  unfold clearedPes
  split
  · exact SMap.get_set_ne _ _ _ h.symm
  · rfl

theorem clearedPes_own (m : SMap PE) (x : PE) :
    clearedPes m (1, x) = SMap.set PE.clear m 1 { x with ra := 0, rb := 0, rr := 0, weight2 := false } := by
  have own : ([(0 : TileId)].any fun p => decide (1 / 4096 = p.val)) = true := by decide
  exact if_pos own

theorem dispatch_of_noScan {s : State} {t : Tenant} {q : SeqId} {w : DWord}
    (h : (storeWord (sqr s q.val).wcs (32 * opcOf w + fnOf w)).extractLsb' 16 2 = 0) :
    dispatch s t q w = clearResidues (modSqr s q.val (dispatchRegs w)) (physTiles s (ownTiles s t)) := by
  have wcs : (sqr (clearResidues (modSqr s q.val (dispatchRegs w)) (physTiles s (ownTiles s t))) q.val).wcs = (sqr s q.val).wcs :=
    (congrArg Sequencer.wcs (sqr_modSqr_same s q.val (dispatchRegs w)) :)
  have noScan : ¬((0 : BitVec 2) = 1 ∨ (0 : BitVec 2) = 2) := by decide
  unfold dispatch
  dsimp only
  rw [wcs, h, if_neg noScan]

section

variable (idle : Nat) (outs : List OutBind) (w : DWord)

/-- The state with `w` in IL, and the one in which it has been dispatched. -/
def fetched : State := modSqr (hiddenPe idle outs w) 0 fun x => { x with il := w }
def dispatched : State := dispatch (fetched idle outs w) 0 0 w

theorem sqr_fetched : sqr (fetched idle outs w) 0 = { sqr (hiddenPe idle outs w) 0 with il := w } := sqr_modSqr_same _ _ _

theorem dispatched_eq : dispatched idle outs w = clearResidues (modSqr (fetched idle outs w) 0 (dispatchRegs w)) [0] := by
  have wcs : (sqr (fetched idle outs w) (0 : SeqId).val).wcs = [(32 * opcOf w + fnOf w, 0x18000200)] :=
    congrArg Sequencer.wcs (sqr_fetched idle outs w)
  have tiles : physTiles (fetched idle outs w) (ownTiles (fetched idle outs w) 0) = [0] := rfl
  have noScan : (storeWord [(32 * opcOf w + fnOf w, 0x18000200)] (32 * opcOf w + fnOf w)).extractLsb' 16 2 = 0 := by
    rw [storeWord, SMap.get, if_pos rfl]
    decide
  rw [dispatched, dispatch_of_noScan (by rw [wcs]; exact noScan), tiles]
  rfl

/-- Dispatch writes the second entry of PE 1 over the first. -/
theorem pe_dispatched : pe (dispatched idle outs w) 1 = PE.clear := by
  have rest : ∀ (l : List Nat) (m : SMap PE),
      SMap.get PE.clear ((l.map fun i => (16 * i, idlePe)).foldl clearedPes m) 1 = SMap.get PE.clear m 1 := by
    intro l
    induction l with
    | nil => exact fun m => rfl
    | cons i l ih => exact fun m => (ih _).trans (get_clearedPes_ne m (by simp only; omega))
  have before : (modSqr (fetched idle outs w) 0 (dispatchRegs w)).pe = hiddenPes idle := rfl
  rw [pe, dispatched_eq, clearResidues_pe, before, hiddenPes, List.foldl_cons, List.foldl_cons, rest, clearedPes_own _ PE.clear,
    SMap.get_set_same]
  rfl

theorem sqr_dispatched : sqr (dispatched idle outs w) 0 = dispatchRegs w { sqr (hiddenPe idle outs w) 0 with il := w } := by
  rw [dispatched_eq, ← sqr_fetched]
  exact (sqr_modSqr_same (fetched idle outs w) 0 (dispatchRegs w) :)

theorem runAis_hiddenPe {w : DWord} (hw : opcOf w < 16) {chk : SeqId → Check} (hchk : chk 0 = none)
    (eff : SeqId → State → State) : runAis (hiddenPe idle outs w) 0 w chk eff = eff 0 (dispatched idle outs w) := by
  have ready : aisReady (hiddenPe idle outs w) 0 = some 0 := rfl
  have level : (!(sqr (hiddenPe idle outs w) (0 : SeqId).val).tl && trapWaits (hiddenPe idle outs w) 0) = false := rfl
  simp only [runAis, ready, level, fetchAis_hiddenPe, runWord, hchk, if_pos hw, Bool.false_eq_true, if_false, if_true, dispatched, fetched]
  rfl

end

/-! ### The end of an instruction at trap level -/

theorem sqr_of_seqs {s u : State} (h : u.seqs = s.seqs) (q : Nat) : sqr u q = sqr s q := by rw [sqr, h, sqr]

theorem sqr_afterRoutine (s : State) (t : Tenant) (q : SeqId) : ∃ n, sqr (afterRoutine s t q) q.val = routineRegs n q.val (sqr s q.val) := by
  let regions := if (sqr s q.val).tl then [3, 4, 5] else [1, 2, 3, 4, 5]
  let scrambled := regions.foldl (fun u r => scramble u (physTiles s (ownTiles s t)) r) s
  have kept : Foot 0x80 s scrambled := Foot.foldl (Foot.refl _ s) fun u r hu => scramble_foot u _ r (by decide) hu
  refine ⟨freshNum s, (sqr_modSqr_same scrambled q.val (routineRegs (freshNum s) q.val)).trans ?_⟩
  rw [sqr_of_seqs (kept.2 .seqs (by decide))]

/-- At trap level the end of an instruction does not touch the PEs. -/
theorem pe_finish {s : State} {t : Tenant} {q : SeqId} (level : (sqr s q.val).tl = true)
    (inside : badTarget s t ((sqr s q.val).pc + 1).toNat = false) (ac : Nat) : (finish s t q ac).pe = s.pe := by
  have time : Foot 0x800 s (addTime s t ac) := addTime_foot s t ac (by decide) (Foot.refl _ s)
  have routine : Foot 0x181 (addTime s t ac) (afterRoutine (addTime s t ac) t q) := afterRoutine_foot _ t q (by decide) (Foot.refl _ _)
  obtain ⟨n, regs⟩ := sqr_afterRoutine (addTime s t ac) t q
  rw [sqr_of_seqs (time.2 .seqs (by decide))] at regs
  have own : (ten (afterRoutine (addTime s t ac) t q) t).own = (ten s t).own := by
    rw [ten, routine.2 .tenants (by decide), ← ten, addTime_own]
  have next : advance (afterRoutine (addTime s t ac) t q) t q =
      modSqr (afterRoutine (addTime s t ac) t q) q.val fun x => { x with pc := (routineRegs n q.val (sqr s q.val)).pc + 1 } := by
    unfold advance
    dsimp only
    rw [regs, badTarget_same own]
    exact if_neg (Bool.eq_false_iff.mp inside)
  have idle := boundary_idle (s := advance (afterRoutine (addTime s t ac) t q) t q) (t := t) (q := q) (.inl (by
    rw [next, sqr_modSqr_same, regs]
    exact level))
  have kept : (afterRoutine (addTime s t ac) t q).pe = (addTime s t ac).pe := routine.2 .pe (by decide)
  rw [finish, idle, next]
  exact kept.trans (time.2 .pe (by decide))

/-- Where every byte of the planes has good parity a read latches nothing. -/
theorem latchBad_of_good {s : State} (h : s.peBad = []) (read : Nat → Nat → Bool) : latchBad s read = s := by
  rw [latchBad, h]
  rfl

theorem touch_of_good {s : State} (h : s.peBad = []) (g : Nat) (es : List Elem) (f : Fld) : touch s g es f = s := latchBad_of_good h _

theorem touchSrc_of_good {s : State} (h : s.peBad = []) (g : Nat) (es : List Elem) (b : Src) : touchSrc s g es b = s := by
  unfold touchSrc
  split
  · exact touch_of_good h g es _
  · rfl

/-! ### Instructions that bring the hidden entry to light -/

theorem peBad_dispatched (idle : Nat) (outs : List OutBind) (w : DWord) : (dispatched idle outs w).peBad = [] := by
  rw [dispatched_eq]
  rfl

/-- The P of PE 1 is 0. -/
def ShowsZero (u : State) : Prop := (pe u 1).p = 0

theorem gw_hiddenPe (idle : Nat) (outs : List OutBind) (w : DWord) : gw (hiddenPe idle outs w) 0 = 16 := rfl

section

variable (idle : Nat) (outs : List OutBind) (w : DWord)

theorem level_dispatched : (sqr (dispatched idle outs w) (0 : SeqId).val).tl = true :=
  congrArg Sequencer.tl (sqr_dispatched idle outs w)

theorem inside_dispatched : badTarget (dispatched idle outs w) 0 ((sqr (dispatched idle outs w) (0 : SeqId).val).pc + 1).toNat = false := by
  have pc : (sqr (dispatched idle outs w) (0 : SeqId).val).pc = 32 := congrArg Sequencer.pc (sqr_dispatched idle outs w)
  rw [pc, dispatched_eq]
  rfl

/-- The end of an instruction that leaves the PEs as dispatch does shows P 0 in PE 1. -/
theorem p_finish (ac : Nat) : ShowsZero (finish (dispatched idle outs w) 0 0 ac) := by
  have kept : pe (finish (dispatched idle outs w) 0 0 ac) 1 = pe (dispatched idle outs w) 1 := by
    rw [pe, pe_finish (level_dispatched idle outs w) (inside_dispatched idle outs w) ac, pe]
  rw [ShowsZero, kept, pe_dispatched]
  rfl

/-- The same where it has changed other registers of the sequencer. -/
theorem p_finish_modSqr {f : Sequencer → Sequencer} (hf : ∀ x, (f x).tl = x.tl ∧ (f x).pc = x.pc) (ac : Nat) :
    ShowsZero (finish (modSqr (dispatched idle outs w) (0 : SeqId).val f) 0 0 ac) := by
  generalize hu : modSqr (dispatched idle outs w) (0 : SeqId).val f = u
  have regs : sqr u (0 : SeqId).val = f (sqr (dispatched idle outs w) (0 : SeqId).val) := hu ▸ sqr_modSqr_same _ _ f
  have own : (ten u 0).own = (ten (dispatched idle outs w) 0).own := hu ▸ rfl
  have same : u.pe = (dispatched idle outs w).pe := hu ▸ rfl
  have level : (sqr u (0 : SeqId).val).tl = true := by rw [regs, (hf _).1, level_dispatched]
  have inside : badTarget u 0 ((sqr u (0 : SeqId).val).pc + 1).toNat = false := by
    rw [regs, (hf _).2, badTarget_same own, inside_dispatched]
  have kept : pe (finish u 0 0 ac) 1 = pe (dispatched idle outs w) 1 := by rw [pe, pe_finish level inside ac, same, pe]
  rw [ShowsZero, kept, pe_dispatched]
  rfl

end

/-- The command on `hiddenPe` has a next state, in which the P of PE 1 is 0. -/
def Uncovers (idle : Nat) (outs : List OutBind) (w : DWord) (c : Instr) : Prop :=
  ∃ u, exec c (hiddenPe idle outs w) = .next u ∧ ShowsZero u

/-- The P of PE 1 in the next state, where there is one. -/
def pAfter (r : Host.Outcome State Fault Refusal) : Option (BitVec 12) := (peAfter r 1).map PE.p

theorem uncovers_of_pAfter {idle : Nat} {outs : List OutBind} {w : DWord} {c : Instr}
    (h : pAfter (exec c (hiddenPe idle outs w)) = some 0) : Uncovers idle outs w c := by
  unfold Uncovers
  cases hr : exec c (hiddenPe idle outs w) with
  | next u =>
    rw [hr] at h
    exact ⟨u, rfl, Option.some.inj h⟩
  | _ =>
    rw [hr] at h
    cases h

/-- Then no next state keeps P of PE 1, which was 1. -/
theorem Uncovers.not_kept {idle : Nat} {outs : List OutBind} {w : DWord} {c : Instr} (h : Uncovers idle outs w c) {u : State}
    (hu : exec c (hiddenPe idle outs w) = .next u) {x : PE} (kept : peRegs (pe u 1) = x) (hx : x.p = 1) : False := by
  obtain ⟨v, hv, zero⟩ := h
  obtain rfl : u = v := Host.Outcome.next.inj (hu.symm.trans hv)
  have shown : (peRegs (pe u 1)).p = x.p := by rw [kept]
  exact absurd (zero.symm.trans (shown.trans hx)) (by decide)

/-! ### Instructions with operands in the planes: no slice is active -/

/-- The all-zero fields of format A. -/
def zeroA : FmtA := ⟨0, 0, false, false, false, false, 0, 0, 0, 0⟩

theorem uncovers_logic : Uncovers 256 [] (wordA zeroA 1 0) (.logic 0 zeroA) := by
  have good := peBad_dispatched 256 [] (wordA zeroA 1 0)
  refine ⟨_, congrArg Host.Outcome.next (runAis_hiddenPe 256 [] (by decide) (by decide +kernel) _), ?_⟩
  simp only [gw_hiddenPe, active_hiddenPe, List.foldl_nil, touch_of_good good, touchSrc_of_good good]
  exact p_finish 256 [] (wordA zeroA 1 0) _

theorem uncovers_fset : Uncovers 256 [] (wordA zeroA 1 6) (.fset 0 zeroA) := by
  have good := peBad_dispatched 256 [] (wordA zeroA 1 6)
  refine ⟨_, congrArg Host.Outcome.next (runAis_hiddenPe 256 [] (by decide) (by decide +kernel) _), ?_⟩
  simp only [gw_hiddenPe, active_hiddenPe, List.foldl_nil, touchAB, touch_of_good good, touchSrc_of_good good]
  exact p_finish 256 [] (wordA zeroA 1 6) _

theorem uncovers_add : Uncovers 256 [] (wordA zeroA 2 0) (.add 0 zeroA) := by
  have good := peBad_dispatched 256 [] (wordA zeroA 2 0)
  have chk : intChk (hiddenPe 256 [] (wordA zeroA 2 0)) 0 .add zeroA 0 = none := by decide +kernel
  have run := runAis_hiddenPe 256 [] (w := wordA zeroA 2 0) (by decide) (chk := intChk _ 0 .add zeroA) chk
  have step : exec (.add 0 zeroA) (hiddenPe 256 [] (wordA zeroA 2 0)) =
      .next (intInstr (hiddenPe 256 [] (wordA zeroA 2 0)) 0 .add 0 zeroA) := rfl
  refine ⟨_, step, ?_⟩
  unfold intInstr
  dsimp only
  rw [run]
  simp only [gw_hiddenPe, active_hiddenPe, List.foldl_nil, touch_of_good good, touchSrc_of_good good, IntFn.readsBerm,
    Bool.false_eq_true, if_false]
  exact p_finish 256 [] (wordA zeroA 2 0) _

theorem uncovers_fabs : Uncovers 256 [] (wordA zeroA 3 15) (.fabs 0 zeroA) := by
  have good := peBad_dispatched 256 [] (wordA zeroA 3 15)
  refine ⟨_, congrArg Host.Outcome.next (runAis_hiddenPe 256 [] (by decide) (by decide +kernel) _), ?_⟩
  simp only [gw_hiddenPe, active_hiddenPe, List.foldl_nil, List.any_nil, touch_of_good good, touchSrc_of_good good, Bool.false_eq_true,
    reduceCtorEq, if_false]
  apply p_finish_modSqr
  exact fun _ => ⟨rfl, rfl⟩

theorem uncovers_rany : Uncovers 256 [] (wordA zeroA 5 0) (.rany 0 zeroA) := by
  have good := peBad_dispatched 256 [] (wordA zeroA 5 0)
  refine ⟨_, congrArg Host.Outcome.next (runAis_hiddenPe 256 [] (by decide) (by decide +kernel) _), ?_⟩
  simp only [gw_hiddenPe, active_hiddenPe, List.foldl_nil, touch_of_good good, setSreg]
  apply p_finish_modSqr
  exact fun _ => ⟨rfl, rfl⟩

/-! ### The statements that say that P is kept

Each of them says what every register of a PE holds after an instruction, and none asks that the PEs be represented in canonical form. -/

/-- Refutes O8: the invariant does not ask for one entry per PE, and dispatch writes the entries back one by one, so that in `hiddenPe`
it shows the second entry of PE 1: a LOGIC changes its P. -/
theorem not_logicAndShifts : ¬ Obligations.LogicAndShifts := by
  unfold Obligations.LogicAndShifts
  rintro ⟨logic, -⟩
  obtain ⟨completes, -⟩ := logic (hiddenPe 256 [] (wordA zeroA 1 0)) 0 0 zeroA (inv_hiddenPe 256 [] _)
  obtain ⟨u, hu, -, -, -, regs⟩ := completes (runsOn_hiddenPe 256 [] _) (by decide +kernel)
  exact uncovers_logic.not_kept hu (regs 1).1 rfl

/-- Refutes O9: an FSET changes P of PE 1 in `hiddenPe`, whose second entry its dispatch shows, though it may change F only. -/
theorem not_contextResults : ¬ Obligations.ContextResults := by
  unfold Obligations.ContextResults
  intro h
  obtain ⟨bits, -⟩ := h (hiddenPe 256 [] (wordA zeroA 1 6)) 0 0 zeroA (inv_hiddenPe 256 [] _)
  obtain ⟨-, -, -, fset⟩ := bits (by decide +kernel)
  obtain ⟨u, hu, -, -, -, regs⟩ := fset (runsOn_hiddenPe 256 [] _)
  exact uncovers_fset.not_kept hu (regs 1).1 rfl

/-- Refutes O10: an ADD changes P of PE 1 in `hiddenPe`, whose second entry its dispatch shows. -/
theorem not_integerResults : ¬ Obligations.IntegerResults := by
  unfold Obligations.IntegerResults
  intro h
  obtain ⟨completes, -⟩ := h (hiddenPe 256 [] (wordA zeroA 2 0)) 0 0 zeroA (inv_hiddenPe 256 [] _) (.add, 0, .add) List.mem_cons_self
  obtain ⟨u, hu, -, -, -, regs⟩ := completes (runsOn_hiddenPe 256 [] _) (by decide +kernel)
  exact uncovers_add.not_kept hu (regs 1).1 rfl

/-- Refutes O12: an FABS without an active element, so that none calls for the assist, changes P of PE 1 in `hiddenPe`, whose second entry its
dispatch shows. -/
theorem not_floatResults : ¬ Obligations.FloatResults := by
  unfold Obligations.FloatResults
  intro h
  obtain ⟨completes, -⟩ := h (hiddenPe 256 [] (wordA zeroA 3 15)) 0 0 zeroA (inv_hiddenPe 256 [] _) (.fabs, 15, .fabs) (by simp)
    (fun e he => absurd he (active_hiddenPe [] (wordA zeroA 3 15) ▸ List.not_mem_nil))
  obtain ⟨u, hu, -, -, -, regs⟩ := completes (runsOn_hiddenPe 256 [] _) (by decide +kernel)
  exact uncovers_fabs.not_kept hu (regs 1).1 rfl

/-- Refutes O14: an RANY changes P of PE 1 in `hiddenPe`, whose second entry its dispatch shows, though it may change F only. -/
theorem not_reductionResults : ¬ Obligations.ReductionResults := by
  unfold Obligations.ReductionResults
  intro h
  obtain ⟨rany, -⟩ := h (hiddenPe 256 [] (wordA zeroA 5 0)) 0 0 zeroA (inv_hiddenPe 256 [] _)
  obtain ⟨u, -, -, hu, -, -, regs⟩ := rany (by decide +kernel) (runsOn_hiddenPe 256 [] _)
  exact uncovers_rany.not_kept hu (regs 1).1 rfl

/-- The all-zero fields of format S. -/
def zeroS : FmtS := ⟨0, 0, 0, false, 0, 0⟩

theorem uncovers_sadd : Uncovers 0 [] (wordS zeroS 0) (.sadd 0 zeroS) := uncovers_of_pAfter (by decide +kernel)

/-- Refutes O15: an SADD, which has no field operand, changes P of PE 1 in `hiddenPe`, whose second entry its dispatch shows. -/
theorem not_pointersAndScalars : ¬ Obligations.PointersAndScalars := by
  unfold Obligations.PointersAndScalars
  rintro ⟨-, h⟩
  obtain ⟨arith, -⟩ := h (hiddenPe 0 [] (wordS zeroS 0)) 0 0 zeroS rfl
  obtain ⟨sadd, -⟩ := arith rfl
  obtain ⟨u, hu, -, -, -, -, -, -, regs⟩ := sadd (runsOn_hiddenPe 0 [] _)
  exact uncovers_sadd.not_kept hu (regs 1).1 rfl

/-- The fields of a branch to word 40. -/
def toWord40 : FmtJ := ⟨false, 0, 0, 0, 0, 40⟩

theorem uncovers_br : Uncovers 0 [] (wordJ toWord40 0) (.br 0 toWord40) := uncovers_of_pAfter (by decide +kernel)

/-- Refutes O16: a BR changes P of PE 1 in `hiddenPe`, whose second entry its dispatch shows. -/
theorem not_branchResults : ¬ Obligations.BranchResults := by
  unfold Obligations.BranchResults
  intro h
  obtain ⟨br, -⟩ := h (hiddenPe 0 [] (wordJ toWord40 0)) 0 0 toWord40 (inv_hiddenPe 0 [] _)
  obtain ⟨u, hu, -, -, -, regs, -⟩ := br (by decide +kernel) (runsOn_hiddenPe 0 [] _) rfl
  exact uncovers_br.not_kept hu (regs 1) rfl

theorem uncovers_fbar : Uncovers 0 [] (wordA zeroA 9 1) (.fbar 0 zeroA) := uncovers_of_pAfter (by decide +kernel)

/-- Refutes O17: an FBAR with no flag OR in flight changes P of PE 1 in `hiddenPe`, whose second entry its dispatch shows. -/
theorem not_flagBarrierAndWaits : ¬ Obligations.FlagBarrierAndWaits := by
  unfold Obligations.FlagBarrierAndWaits
  rintro ⟨fbar, -⟩
  obtain ⟨u, hu, -, -, -, regs, -⟩ := fbar (hiddenPe 0 [] (wordA zeroA 9 1)) 0 0 zeroA (runsOn_hiddenPe 0 [] _) (by decide +kernel)
    (.inr (by decide +kernel))
  exact uncovers_fbar.not_kept hu (regs 1) rfl

theorem uncovers_ften : Uncovers 0 [] (wordA zeroA 9 7) (.ften 0 zeroA) := uncovers_of_pAfter (by decide +kernel)

/-- Refutes O18: an FTEN of 0 in a tenant without a context changes P of PE 1 in `hiddenPe`, whose second entry its dispatch shows. -/
theorem not_trapsOfOrders : ¬ Obligations.TrapsOfOrders := by
  unfold Obligations.TrapsOfOrders
  rintro ⟨-, ften, -⟩
  obtain ⟨-, giveNone, -⟩ := ften (hiddenPe 0 [] (wordA zeroA 9 7)) 0 0 zeroA { bareOrder with outs := [] } (runsOn_hiddenPe 0 [] _)
    (by decide +kernel) (by decide +kernel)
  obtain ⟨u, hu, -, -, -, regs, -⟩ := giveNone (by decide) (by decide) (by decide +kernel)
  exact uncovers_ften.not_kept hu (regs 1) rfl

theorem uncovers_ckpt : Uncovers 0 [] (wordA zeroA 9 0) (.ckpt 0 zeroA) := uncovers_of_pAfter (by decide +kernel)

/-- Refutes O20: a CKPT without live planes changes P of PE 1 in `hiddenPe`, whose second entry its dispatch shows. -/
theorem not_checkpointAndEnd : ¬ Obligations.CheckpointAndEnd := by
  unfold Obligations.CheckpointAndEnd
  rintro ⟨ckpt, -⟩
  obtain ⟨u, k, hu, -, -, -, -, -, -, -, -, -, -, -, -, regs, -⟩ := ckpt (hiddenPe 0 [] (wordA zeroA 9 0)) 0 0 zeroA
    { bareOrder with outs := [] } (inv_hiddenPe 0 [] _) (runsOn_hiddenPe 0 [] _) (by decide +kernel) (.inr (by decide +kernel))
    (by decide +kernel) (by decide +kernel) (fun dual => absurd dual (by decide +kernel)) ⟨soleOwner, rfl, by decide⟩
  exact uncovers_ckpt.not_kept hu (regs 1) rfl

/-- An output binding for one word of a region. -/
def wordOut : OutBind := ⟨.region, 0, 0, 4⟩

theorem uncovers_outs : Uncovers 0 [wordOut] (wordA zeroA 10 3) (.outs 0 zeroA) := uncovers_of_pAfter (by decide +kernel)

/-- Refutes O21: an OUTS to a region binding changes P of PE 1 in `hiddenPe`, whose second entry its dispatch shows. -/
theorem not_bindingsOfOrders : ¬ Obligations.BindingsOfOrders := by
  unfold Obligations.BindingsOfOrders
  rintro ⟨outputs, -⟩
  obtain ⟨-, outs, -⟩ := outputs (hiddenPe 0 [wordOut] (wordA zeroA 10 3)) 0 0 zeroA { bareOrder with outs := [wordOut] } wordOut
    (inv_hiddenPe _ _ _) (by decide +kernel) rfl (by decide)
  obtain ⟨u, v, -, hu, -, -, -, regs, -⟩ := outs (by decide +kernel) (by decide) (by decide) (runsOn_hiddenPe _ _ _)
  exact uncovers_outs.not_kept hu (regs 1) rfl

end Sys2Proof.Machine
end

section
/-! SUPPORT. A start whose binding fault is due, and whose trap vector lies in the retention area. -/

set_option Elab.async false

namespace Sys2Proof.Machine

open Sys2Proof

/-- An ownership record of T0 without a tile: PROG lies in bank 0, PROGM has no bytes and lies at the start of RETA in bank 2. -/
def emptyMirror : OwnRec := { soleOwner with tiles := 0, extents := [⟨0, 0, 1⟩, ⟨2, 0, 0⟩, ⟨2, 0, 1⟩], roles := [0, 1, 8, 8, 2, 8] }

/-- An input whose claim has raised a binding fault that is still to be taken. -/
def dueInput : InBind :=
  { kind := .region, source := 0, mask := 0, offset := 0, len := 0, claimed := true, cam := none, samples := [], data := [], complete := true
    arm := none, inarmed := false, fault := .due, bands := 0, heldAt := [], landed := true, copyA := true, copyB := true }

/-- An order of T0 that is ready to start. -/
def dueOrder : Order := { bareOrder with st := .accepted, ins := [dueInput] }

/-- T0's order is ready, the bank of PROG is fenced, and the word 7 behind the address of PROGM is `v`. -/
def dueStart (v : Byte) : State := { State.reset with
  tenants := [(0, { TenantSt.initial with own := some emptyMirror, ownState := 1, orders := [dueOrder], nextSeq := 2 })]
  seqs := [(0, { Sequencer.initial with service := .inService, bound := some 0, pc := 32 })]
  tiles := [(16, { Tile.initial with service := .spare })]
  mem := [(0, { MemStatus.initial with service := .fenced })]
  sp := [(8388664, v)] }

/-- The start refills RETA, and with it the vector that the trap then reads: what the vector held before is lost. -/
theorem exec_dueStart : exec (.orderStart 0) (dueStart 32) = exec (.orderStart 0) (dueStart 33) := rfl

theorem inv_dueStart {v : Byte} (hv : SMap.wf 0 (dueStart v).sp = true) : Inv (dueStart v) := by
  have mask : deepMaskOk (dueStart 0) := by
    unfold deepMaskOk
    decide +kernel
  have logs : logsBounded (dueStart 0) := by
    unfold logsBounded
    decide +kernel
  have tiles : ∀ n, n < 16 → (tile (dueStart 0) n).service = .inService := by decide +kernel
  exact inv_of_map_nil rfl ⟨hv, rfl, rfl, rfl, rfl, rfl, rfl, rfl⟩ mask logs tiles

theorem handlerAt_dueStart_32 : handlerAt (dueStart 32) 0 7 32 := ⟨rfl, rfl⟩

theorem handlerAt_dueStart_33 : handlerAt (dueStart 33) 0 7 33 := ⟨rfl, rfl⟩

/-- The program copies and the retention area of `emptyMirror` have no byte in common, as PROGM has none. -/
theorem emptyMirror_apart {a b : Nat} {e f : Extent} {i : Nat} (ha : a < 2) (hb : b = 4 ∨ b = 5) (he : roleExtent emptyMirror a = some e)
    (hf : roleExtent emptyMirror b = some f) (hi : inExtent e i = true) : inExtent f i = false := by
  obtain rfl : f = ⟨2, 0, 1⟩ := by
    rcases hb with rfl | rfl
    · exact (Option.some.inj hf).symm
    · cases hf
  have below : i < 65536 := by
    obtain rfl | rfl : a = 0 ∨ a = 1 := by omega
    all_goals
      cases he
      have range := of_decide_eq_true hi
      simp only [Extent.addr, Extent.bytes, bankBytes, unitBytes] at range
      omega
  refine decide_eq_false fun range => ?_
  simp only [Extent.addr, Extent.bytes, bankBytes, unitBytes] at range
  omega

/-- The PC that a start leaves, where the statement holds. -/
theorem pc_of_orderStarts (h : Obligations.OrderStarts) {v : Byte} (hv : SMap.wf 0 (dueStart v).sp = true) {n : Nat}
    (hn : handlerAt (dueStart v) 0 7 n) : ∃ u, exec (.orderStart 0) (dueStart v) = .next u ∧ (sqr u 0).pc = BitVec.ofNat 24 n := by
  unfold Obligations.OrderStarts at h
  have ready : readyOrder (dueStart 0) 0 = some dueOrder := by decide +kernel
  have seq : seqOf (dueStart 0) 0 = some 0 := by decide +kernel
  have ctx : pendingCtx (dueStart 0) 0 = none := by decide +kernel
  obtain ⟨-, due⟩ := h (dueStart v) 0 0 dueOrder n (inv_dueStart hv) ready seq rfl ctx
    (.inr fun i hi adc => by obtain rfl := List.mem_singleton.mp hi; cases adc)
  obtain ⟨u, hu, -, pc, -⟩ := due ⟨dueInput, List.mem_singleton.mpr rfl, rfl⟩ hn fun r a b e f i own ha hb he hf hi => by
    obtain rfl : emptyMirror = r := Option.some.inj own
    exact emptyMirror_apart ha hb he hf hi
  exact ⟨u, hu, pc⟩

/-- Refutes O28: a copy of the program without bytes shares none with RETA, yet fetches and vectors read behind its address, which may
lie in RETA. With the bank of PROG fenced the vector of cause 7 is read there, and the start has refilled it first: two states that
differ in the vector only, 32 and 33, have one next state, whose PC cannot be both. -/
theorem not_orderStarts : ¬ Obligations.OrderStarts := by
  intro h
  obtain ⟨u, hu, pc32⟩ := pc_of_orderStarts h (v := 32) rfl handlerAt_dueStart_32
  obtain ⟨w, hw, pc33⟩ := pc_of_orderStarts h (v := 33) rfl handlerAt_dueStart_33
  obtain rfl : u = w := Host.Outcome.next.inj ((hu.symm.trans exec_dueStart).trans hw)
  exact absurd (pc32.symm.trans pc33) (by decide)

end Sys2Proof.Machine
end

section
/-! SUPPORT. A floating-point function with an indirect source in a PE whose registers stand twice in the list that represents them. -/

namespace Sys2Proof.Machine

open Sys2Proof

/-- The fields of `FADD` in binary16: plane 0 is D and B, A is indirect at plane 64. -/
def addIndirect : FmtA := { zeroA with ai := true, ab := 64 }

/-- T0 runs that FADD at word 32 in G16 and in TRAP, with a branch at its dispatch entry; vector 3 names word 40 as its handler. Only the
first slice is active. Its PE 0 stands twice in the list: the first entry (the one that counts) with P 0, so that A is the subnormal that
begins at plane 64, and the second with P 1, which makes A a zero. -/
def hiddenPointer : State := { State.reset with
  tenants := [(0, { TenantSt.initial with own := some soleOwner, ownState := 1, orders := [bareOrder], nextSeq := 2 })]
  seqs := [(0, { Sequencer.initial with service := .inService, bound := some 0, pc := 32, gw := .g16, wcs := [(96, 0x18000200)] })]
  tiles := [(0, { Tile.initial with polder := .awake 7 }), (16, { Tile.initial with service := .spare })]
  ctxs := [(0, { TrapCtx.initial with st := .held 0, trapMode := true })]
  sp := [(24, 40), (258, 32), (261, 2), (263, 12)]
  pe := (0, PE.clear) :: (0, { PE.clear with p := 1 }) :: (List.range 255).map fun i => (16 * i + 16, idlePe)
  peMem := [(8, 1)] }

theorem inv_hiddenPointer : Inv hiddenPointer :=
  inv_of_map_nil rfl (by unfold memoryWf; decide +kernel) (by unfold deepMaskOk; decide +kernel) (by unfold logsBounded; decide +kernel)
    (by decide +kernel)

/-! ### Its program -/

/-- A word of the program with good parity, in a bank that serves, is read from PROG as it stands. -/
theorem fetchProg_of_good {s : State} {r : OwnRec} {p m : Extent} {i : Nat} (hp : roleExtent r 0 = some p) (hm : roleExtent r 1 = some m)
    (serves : (memSt s ((p.addr + 8 * i) / bankBytes)).service = .inService) (good : spBadAt s (p.addr + 8 * i) 8 = false) :
    fetchProg s r i = (s, some (ofLe (spRead s (p.addr + 8 * i) 8))) := by
  unfold fetchProg
  rw [hp, hm]
  exact if_pos (Bool.and_eq_true_iff.mpr ⟨decide_eq_true serves, by rw [good]; rfl⟩)

theorem fetchProg_hiddenPointer (i : Nat) (bank : ((⟨0, 0, 1⟩ : Extent).addr + 8 * i) / bankBytes = 0) :
    fetchProg hiddenPointer soleOwner i = (hiddenPointer, some (ofLe (spRead hiddenPointer ((⟨0, 0, 1⟩ : Extent).addr + 8 * i) 8))) :=
  fetchProg_of_good (m := ⟨2, 0, 1⟩) rfl rfl (by rw [bank]; rfl) rfl

theorem fetches_hiddenPointer : fetches hiddenPointer 0 0 (wordA addIndirect 3 0) := by
  have word : fetchAis hiddenPointer 0 0 = ((fetchProg hiddenPointer soleOwner 32).1,
      (fetchProg hiddenPointer soleOwner 32).2.map (BitVec.ofNat 64)) := rfl
  refine ⟨by decide +kernel, .inr (by decide +kernel), ?_⟩
  rw [word, fetchProg_hiddenPointer 32 (by decide)]
  exact congrArg (fun w => (hiddenPointer, some w)) (by decide +kernel)

theorem handlerAt_hiddenPointer : handlerAt hiddenPointer 0 3 40 := by
  have vector : trapVector hiddenPointer 0 3 = ((fetchProg hiddenPointer soleOwner 3).1,
      (fetchProg hiddenPointer soleOwner 3).2.map (· % 2 ^ 24)) := rfl
  refine ⟨?_, by decide +kernel⟩
  rw [vector, fetchProg_hiddenPointer 3 (by decide)]
  exact congrArg (fun v => (hiddenPointer, some v)) (by decide +kernel)

/-! ### The assist that is called for, and the trap that is not taken -/

/-- The active element: PE 0 is its lane 0. -/
def firstSlice : Elem := ⟨0, 0, 0, 0⟩

theorem assist_hiddenPointer : firstSlice ∈ (elemsOf hiddenPointer 0 0).filter (active hiddenPointer (gw hiddenPointer 0)) ∧
    (fpAt hiddenPointer (gw hiddenPointer 0) .fadd addIndirect (trapModeOn hiddenPointer 0 0) (fpB hiddenPointer .fadd addIndirect 0)
      firstSlice).2 = true := by decide +kernel

/-- Whether a sequencer is at trap level in the next state, where there is one. -/
def trapLevelAfter (r : Host.Outcome State Fault Refusal) (q : SeqId) : Option Bool :=
  match r with
  | .next u => some (sqr u q.val).tl
  | _ => none

/-- The operands are read after dispatch, which has shown P 1: no active element calls for the assist. -/
theorem trapLevelAfter_hiddenPointer : trapLevelAfter (exec (.fadd 0 addIndirect) hiddenPointer) 0 = some false := by decide +kernel

/-- Refutes O13: the invariant does not ask for one entry per PE, and dispatch writes the entries back one by one, so that in
`hiddenPointer` it shows the second entry of PE 0 and with it another P. The indirect source of the FADD, a subnormal before, is then a
zero, and the sequencer stays at program level. -/
theorem not_floatAssistTraps : ¬ Obligations.FloatAssistTraps := by
  unfold Obligations.FloatAssistTraps
  intro h
  obtain ⟨u, hu, ⟨level, -⟩, -⟩ := h hiddenPointer 0 0 addIndirect 40 inv_hiddenPointer rfl handlerAt_hiddenPointer (.fadd, 0, .fadd)
    List.mem_cons_self fetches_hiddenPointer (by decide +kernel) ⟨firstSlice, assist_hiddenPointer⟩
  have after := trapLevelAfter_hiddenPointer
  rw [hu] at after
  exact Bool.false_ne_true ((Option.some.inj after).symm.trans level)

end Sys2Proof.Machine
end

