-- ==== Sys2Proof/Proofs/SequencerWords.lean ====
section
/-! SUPPORT. Microwords that change registers of their sequencer alone, and the scans that they start (R156, R158). -/

namespace Sys2Proof.Machine

variable {s : State} {t : Tenant} {q : SeqId}

/-- The state after a microword of 1 ac that gives its sequencer the registers `f` of the old ones. -/
def seqNext (s : State) (t : Tenant) (q : SeqId) (f : Sequencer → Sequencer) : State :=
  endMicro (modSqr (inRoutine s q) q.val f) t q 1

theorem seqNext_foot {m : Nat} (f : Sequencer → Sequencer) (hm : 0x900 ||| m = m) : Foot m s (seqNext s t q f) :=
  endMicro_foot _ t q 1 hm (modSqr_foot _ q.val f (Foot.sub (by decide) hm)
    (modSqr_foot s q.val _ (Foot.sub (by decide) hm) (Foot.refl m s)))

theorem seqNext_sameBut (f : Sequencer → Sequencer) : sameBut [.seqs, .tenants] s (seqNext s t q f) :=
  Foot.sameBut (seqNext_foot f (by decide))

theorem seqNext_ends (h : microReady s q = some t) {f : Sequencer → Sequencer} {x : Sequencer}
    (hf : f (setMid true (sqr s q.val)) = setMid true x) : microEnds s (seqNext s t q f) t q x 1 := by
  refine endMicro_ends (run_of_microReady h) (modSqr_foot _ q.val f (by decide) (modSqr_foot s q.val _ (by decide) (Foot.refl _ s))) ?_ ?_ 1
  · rw [sqr_modSqr_same]
    exact (congrArg f (sqr_inRoutine s q)).trans hf
  · exact fun r hr => (sqr_setSqr_ne _ _ hr).trans (sqr_setSqr_ne _ _ hr)

/-- A microword that changes registers of its sequencer alone, and passes its checks. -/
theorem runMicro_ends {w : Word} (h : issues s t q w) {bad : Sequencer → Bool} (hbad : bad (sqr s q.val) = false)
    {f : Sequencer → Sequencer} {x : Sequencer} (hf : f (setMid true (sqr s q.val)) = setMid true x) :
    ∃ u, Host.Outcome.next (runMicro s q w bad fun t s1 => endMicro (modSqr s1 q.val f) t q 1) = (.next u : Host.Outcome State Fault Refusal) ∧
      microEnds s u t q x 1 ∧ sameBut [.seqs, .tenants] s u := by
  refine ⟨seqNext s t q f, ?_, seqNext_ends h.1 hf, seqNext_sameBut f⟩
  rw [runMicro_issued h hbad]
  rfl

/-! ### What a microword leaves, through further writes to its sequencer -/

theorem microRuns_congr {u v : State} {n : Nat} (hseqs : ∀ r, r ≠ q.val → sqr v r = sqr u r) (hten : v.tenants = u.tenants)
    (h : microRuns s u t q n) : microRuns s v t q n := by
  obtain ⟨hr, htime, hothers, hown⟩ := h
  have ten_eq : ten v = ten u := funext fun w => ten_of_tenants hten w
  refine ⟨fun r hne => (hseqs r hne).trans (hr r hne), ?_, by rwa [ten_eq], by rwa [ten_eq]⟩
  unfold timeRuns runOrder at *
  rwa [ten_eq]

/-! ### Field scans (R156) -/

theorem wordWidth_le (w : DWord) : wordWidth w ≤ 64 := by
  unfold wordWidth
  split
  · unfold fmtOf
    split_ifs <;> decide
  · have := (fmtAOf w).wm1.isLt
    omega

/-- The last of the numbers below `w` that have a property is the highest. -/
theorem getLast?_filter_range (p : Nat → Bool) (w : Nat) : match ((List.range w).filter p).getLast? with
    | some i => i < w ∧ p i = true ∧ ∀ j, i < j → j < w → p j = false
    | none => ∀ j, j < w → p j = false := by
  have mem {j : Nat} : j ∈ (List.range w).filter p ↔ j < w ∧ p j = true := by rw [List.mem_filter, List.mem_range]
  split
  · next i hi =>
    obtain ⟨l, hl⟩ := List.getLast?_eq_some_iff.mp hi
    obtain ⟨hlt, hp⟩ := mem.mp (hl ▸ List.mem_append_right l List.mem_cons_self)
    refine ⟨hlt, hp, fun j hij hj => Bool.eq_false_iff.mpr fun hpj => ?_⟩
    have sorted : (l ++ [i]).Pairwise (· < ·) := hl ▸ List.pairwise_lt_range.filter p
    rcases List.mem_append.mp (hl ▸ mem.mpr ⟨hj, hpj⟩) with h | h
    · exact Nat.lt_asymm hij ((List.pairwise_append.mp sorted).2.2 j h i List.mem_cons_self)
    · exact Nat.ne_of_gt hij (List.mem_singleton.mp h)
  · next hnone =>
    intro j hj
    refine Bool.eq_false_iff.mpr fun hpj => ?_
    have := mem.mpr ⟨hj, hpj⟩
    rw [List.getLast?_eq_none_iff.mp hnone] at this
    cases this

/-- Bit `i` of the field that a scan reads is 1 in an active element. -/
def scanHas (s : State) (t : Tenant) (x : Sequencer) (m : MicroAddr) (i : Nat) : Bool :=
  ((elems s x.gw.width (ownTiles s t)).filter (active s x.gw.width)).any fun e =>
    peBit s (e.lane x.gw.width (i % x.gw.width)) ((m.eff s (e.lane x.gw.width 0) + i / x.gw.width) % 4096)

theorem scanHas_iff {s : State} {t : Tenant} {x : Sequencer} {m : MicroAddr} {i : Nat} : scanHas s t x m i = true ↔
    ∃ e ∈ elems s x.gw.width (ownTiles s t), active s x.gw.width e = true ∧
      peBit s (e.lane x.gw.width (i % x.gw.width)) ((m.eff s (e.lane x.gw.width 0) + i / x.gw.width) % 4096) = true := by
  simp only [scanHas, List.any_eq_true, List.mem_filter, and_assoc]

theorem fieldScan_eq (s : State) (t : Tenant) (x : Sequencer) (m : MicroAddr) (w : Nat) : fieldScan s t x m w =
    (((List.range w).filter (scanHas s t x m)).getLast?.map (BitVec.ofNat 16)).getD 0xFFFF := by
  show (match ((List.range w).filter (scanHas s t x m)).getLast? with
    | some i => BitVec.ofNat 16 i
    | none => 0xFFFF) = _
  split <;> next h => rw [h]; rfl

/-- A field scan gives the highest bit index that is 1 in an active element. -/
theorem isScan_fieldScan (s : State) (t : Tenant) (x : Sequencer) (m : MicroAddr) {w : Nat} (hw : w ≤ 64) :
    isScan s t x m w (fieldScan s t x m w) := by
  have last := getLast?_filter_range (scanHas s t x m) w
  unfold isScan
  simp only [← scanHas_iff, fieldScan_eq]
  split at last
  · next i hi =>
    obtain ⟨hlt, hp, habove⟩ := last
    have toNat : (BitVec.ofNat 16 i).toNat = i := BitVec.toNat_ofNat i 16 ▸ Nat.mod_eq_of_lt (by omega)
    rw [hi, Option.map_some, Option.getD_some, toNat]
    exact .inr ⟨hlt, hp, fun j hij hj => Bool.eq_false_iff.mp (habove j hij hj)⟩
  · next hnone =>
    rw [hnone]
    exact .inl ⟨rfl, fun j hj => Bool.eq_false_iff.mp (last j hj)⟩

/-- A PE whose registers differ in the parity latch alone. -/
theorem eq_with_parity {x y : PE} (h : peNoParity x = peNoParity y) : x = { y with parityErr := x.parityErr } := by
  cases x
  cases y
  simp only [peNoParity, PE.mk.injEq] at h ⊢
  tauto

/-- The start of a scan: SV is on its way, and the bytes that it reads are checked. -/
theorem startScan_facts (u : State) (t : Tenant) (q : SeqId) (v : BitVec 16) (m : MicroAddr) (w : Nat) :
    sqr (startScan u t q v m w) q.val = { sqr u q.val with scan := some (4, v) } ∧
      (∀ r, r ≠ q.val → sqr (startScan u t q v m w) r = sqr u r) ∧ (startScan u t q v m w).tenants = u.tenants ∧
      ∀ k, pe (startScan u t q v m w) k = { pe u k with parityErr := (pe (startScan u t q v m w) k).parityErr } := by
  let z := touch u (gw u q) (elems u (gw u q) (ownTiles u t)) ⟨m.ind, m.addr.toNat, w⟩
  have touched : Foot 0x10 u z := touch_foot _ _ _ _ (by decide) (Foot.refl _ u)
  have sqr_eq (r : Nat) : sqr z r = sqr u r := by rw [sqr, touched.2 .seqs (by decide)]; rfl
  refine ⟨?_, fun r hr => (sqr_setSqr_ne _ _ hr).trans (sqr_eq r), touched.2 .tenants (by decide), fun k => eq_with_parity (pe_latchBad u _ k)⟩
  rw [← sqr_eq q.val]
  exact sqr_modSqr_same z q.val _

end Sys2Proof.Machine
end

