-- ==== Sys2Proof/Proofs/ScalarMicrowords.lean ====
section
/-! ADDR, SCAL and BCAST (R162, R164, R168): O23. -/

namespace Sys2Proof.Machine

open Sys2Proof

/-! ### ADDR and SCAL functions that write one register -/

section Words

variable {s : State} {t : Tenant} {q : SeqId}

theorem addrOp_ends {a : AddrW} {mode : BitVec 3} (hres : a.res = 0) (h : issues s t q (wordAddr a mode)) {f : Sequencer → MicroAddr}
    {m : MicroAddr} (hf : f (setMid true (sqr s q.val)) = m) :
    ∃ u, Host.Outcome.next (addrOp s q a mode f) = (.next u : Host.Outcome State Fault Refusal) ∧
      microEnds s u t q { sqr s q.val with ma := SMap.set MicroAddr.initial (sqr s q.val).ma a.md.toNat m } 1 ∧
      sameBut [.seqs, .tenants] s u :=
  runMicro_ends h (by simp [hres]) (by rw [hf]; rfl)

theorem scalOp_ends {w : ScalW} {fn : BitVec 4} (h : issues s t q (wordScal w fn)) {f : Sequencer → Word} {v : Word}
    (hf : f (setMid true (sqr s q.val)) = v) :
    ∃ u, Host.Outcome.next (scalOp s q w fn f) = (.next u : Host.Outcome State Fault Refusal) ∧
      microEnds s u t q (scalWrite w.sd v (sqr s q.val)) 1 ∧ sameBut [.seqs, .tenants] s u :=
  runMicro_ends h rfl (by rw [hf]; rfl)

theorem set13_truncate (m : MicroAddr) (v : Word) :
    m.set13 (v.truncate 13) = { m with ind := v.getLsbD 12, addr := v.truncate 12 } := by
  unfold MicroAddr.set13
  congr 1
  · simp [BitVec.truncate_eq_setWidth]
  · exact BitVec.setWidth_setWidth_of_le v (by decide)

/-- The items of IL that FIELD can name (R164). -/
theorem ilItem_of_getElem? (x : Sequencer) {n i : Nat}
    (h : [x.il.toNat / 2 ^ 58, x.il.toNat / 2 ^ 53 % 32, x.il.toNat / 2 ^ 49 % 16, x.il.toNat / 2 ^ 43 % 64, x.il.toNat / 2 ^ 27 % 4096,
      x.il.toNat / 2 ^ 15 % 4096, x.il.toNat / 8 % 4096, microP x, x.pc.toNat, x.il.toNat / 2 ^ 39 % 16][n]? = some i) :
    n ≤ 9 ∧ ilItem x n = i := by
  obtain ⟨hlt, hi⟩ := List.getElem?_eq_some_iff.mp h
  have hn : n ≤ 9 := Nat.le_of_lt_succ hlt
  refine ⟨hn, ?_⟩
  subst hi
  interval_cases n <;> rfl

theorem scalField_ends {w : ScalW} (h : issues s t q (wordScal w 10)) (hw : w.imm.toNat ≤ 9) :
    ∃ u, exec (.scalField q w) s = .next u ∧
      microEnds s u t q (scalWrite w.sd (BitVec.ofNat 32 (ilItem (sqr s q.val) w.imm.toNat)) (sqr s q.val)) 1 ∧
      sameBut [.seqs, .tenants] s u :=
  runMicro_ends h (by simpa using hw) (by rfl)

/-- The index of the highest 1 of a word that is not 0. -/
theorem log2_bounds {v : Word} (h : v ≠ 0) :
    2 ^ (BitVec.ofNat 32 (Nat.log2 v.toNat)).toNat ≤ v.toNat ∧ v.toNat < 2 ^ ((BitVec.ofNat 32 (Nat.log2 v.toNat)).toNat + 1) := by
  have hv : v.toNat ≠ 0 := fun h0 => h (BitVec.eq_of_toNat_eq (by simpa using h0))
  have small : Nat.log2 v.toNat < 32 := (Nat.log2_lt hv).mpr v.isLt
  have toNat : (BitVec.ofNat 32 (Nat.log2 v.toNat)).toNat = Nat.log2 v.toNat :=
    BitVec.toNat_ofNat _ 32 ▸ Nat.mod_eq_of_lt (Nat.lt_trans small (by decide))
  rw [toNat]
  exact ⟨Nat.log2_self_le hv, Nat.lt_log2_self⟩

end Words

/-! ### GET and SETLC: SV is read when no scan is in flight -/

section Sv

variable {s : State} {t : Tenant} {q : SeqId} {w : ScalW}

/-- The registers after SETLC of the value `v`. -/
def setlcWrite (w : ScalW) (v : Half) (x : Sequencer) : Sequencer :=
  { setLc x (w.sd.toNat % 4) ⟨v, v⟩ with z := decide (v = 0), n := false }

theorem readSv_idle (h : (sqr s q.val).scan = none) : readSv (inRoutine s q) q = (sqr s q.val).sv := by
  unfold readSv
  rw [sqr_inRoutine]
  exact if_neg (by simp [setMid, h])

/-- A microword whose free value is used up, or left. -/
theorem runMicro_bump_ends {v : Word} (h : issues s t q v) {bad : Sequencer → Bool} (hbad : bad (sqr s q.val) = false)
    {f : State → Sequencer → Sequencer} {x : Sequencer} (hf : f (inRoutine s q) (setMid true (sqr s q.val)) = setMid true x) :
    ∃ u, Host.Outcome.next (runMicro s q v bad fun t s1 => bump (endMicro (modSqr s1 q.val (f s1)) t q 1)) =
      (.next u : Host.Outcome State Fault Refusal) ∧ microEnds s u t q x 1 ∧ sameBut [.freeCtr, .seqs, .tenants] s u := by
  refine ⟨bump (seqNext s t q (f (inRoutine s q))), ?_, ?_, ?_⟩
  · rw [runMicro_issued h hbad]
    rfl
  · exact microEnds_congr rfl rfl (seqNext_ends h.1 hf)
  · exact Foot.sameBut (bump_foot _ (by decide) (seqNext_foot _ (by decide)))

end Sv

/-! ### MEM: the request at the sequencer's interface (R164, R265) -/

section Mem

/-- While fewer than 4,096 requests wait, the TID of a new one is held by none. -/
theorem freeTid_unused {x : Ni} (h : (x.out ++ x.held).length < 4096) : ∀ o ∈ x.out ++ x.held, o.tid ≠ freeTid x := by
  unfold freeTid
  split
  · next i hi =>
    have hlt : i < 4096 := List.mem_range.mp (List.mem_of_find?_eq_some hi)
    have free := List.find?_some hi
    intro o ho htid
    have toNat : o.tid.toNat = i := by rw [htid, BitVec.toNat_ofNat, Nat.mod_eq_of_lt hlt]
    rw [Bool.not_eq_true', List.any_eq_false] at free
    exact free o ho (decide_eq_true toNat)
  · next hnone =>
    have used : List.range 4096 ⊆ (x.out ++ x.held).map fun o => o.tid.toNat := by
      intro i hi
      have := List.find?_eq_none.mp hnone i hi
      rw [Bool.not_eq_true', Bool.not_eq_false, List.any_eq_true] at this
      obtain ⟨o, ho, hoi⟩ := this
      exact List.mem_map.mpr ⟨o, ho, of_decide_eq_true hoi⟩
    have := (List.subperm_of_subset List.nodup_range used).length_le
    rw [List.length_range, List.length_map] at this
    omega

/-- An interface is read back from the coordinates of its router and its port. -/
theorem niAt_coordinates : ∀ m : NiId,
    niAt (BitVec.ofNat 3 (m.val / 2 % 6)) (BitVec.ofNat 2 (m.val / 12)) (decide (m.val % 2 = 1)) = some m := by decide

/-- The packet of a MEM request (R164, R257). -/
theorem memPkt_fields (m n : NiId) (t : Tenant) (tid : BitVec 12) (sn : BitVec 8) (write : Bool) (a v : Word) :
    let p := memPkt m n t tid sn write a v
    p.tid = tid ∧ p.ten = t ∧ p.dev = false ∧ p.vc = 0 ∧ p.ty = (if write then 2 else 1) ∧ p.addr = a ∧ p.nbytes = 4 ∧
      pktSource p = some m ∧ pktDest p = some n ∧ p.data = (if write then leBytes 4 v.toNat else []) ∧ p.sn = sn :=
  ⟨rfl, rfl, rfl, rfl, rfl, rfl, rfl, niAt_coordinates m, niAt_coordinates n, rfl, rfl⟩

variable {s : State} {t : Tenant} {q : SeqId} {w : ScalW}

/-- The request of a MEM microword. -/
def memRequest (s : State) (t : Tenant) (q : SeqId) (w : ScalW) : OutReq :=
  let x := sqr s q.val
  let m := seqNi q.val
  let n := bankNi (bankOf (msr x w.sa))
  let tid := freeTid (ni s m.val)
  let write := w.imm.getLsbD 0
  ⟨tid, n, 0, write, some (memPkt m n t tid (SMap.get 0 s.noc.sn (orderKey m n 0)) write (msr x w.sa) (msr x w.sb)), false, none⟩

/-- An interface with one request more. -/
def Ni.asks (r : OutReq) (x : Ni) : Ni := { x with out := x.out ++ [r] }

/-- The network when the request waits at its interface, with the next number of its order. -/
def memAsked (s : State) (t : Tenant) (q : SeqId) (w : ScalW) : Noc :=
  let key := orderKey (seqNi q.val) (bankNi (bankOf (msr (sqr s q.val) w.sa))) 0
  { (modNi s (seqNi q.val).val (Ni.asks (memRequest s t q w))).noc with sn := SMap.set 0 s.noc.sn key (SMap.get 0 s.noc.sn key + 1) }

theorem ni_memAsked {u : State} (h : u.noc = memAsked s t q w) : ni u (seqNi q.val).val = (ni s (seqNi q.val).val).asks (memRequest s t q w) ∧
    ∀ r, r ≠ (seqNi q.val).val → ni u r = ni s r := by
  have same (r : Nat) : ni u r = ni (modNi s (seqNi q.val).val (Ni.asks (memRequest s t q w))) r := by rw [ni, h]; rfl
  exact ⟨(same _).trans (ni_modNi_same s _ _), fun r hr => (same r).trans (ni_modNi_ne s _ hr)⟩

/-- The sequencer that awaits the answer. -/
def memAwaited (w : ScalW) (tid : BitVec 12) (x : Sequencer) : Sequencer :=
  { x with mem := some ⟨w.imm.getLsbD 0, w.sd, msr x w.sa, msr x w.sb, tid, false⟩ }

theorem endMicro_noc (u : State) (t : Tenant) (q : SeqId) (n : Nat) (c : Noc) :
    endMicro { u with noc := c } t q n = { endMicro u t q n with noc := c } := by
  unfold endMicro addTime modRun
  show (match runOrder (modSqr u q.val fun x => nextWord (tickScan n x)) t with
    | some o => _
    | none => _) = _
  cases runOrder (modSqr u q.val fun x => nextWord (tickScan n x)) t <;> rfl

theorem exec_scalMem (h : issues s t q (wordScal w 13)) (hmem : (sqr s q.val).mem = none)
    (hmay : mayIssue (ni s (seqNi q.val).val) = true) : exec (.scalMem q w) s =
      .next { seqNext s t q (memAwaited w (freeTid (ni s (seqNi q.val).val))) with noc := memAsked s t q w } := by
  show execScalMem q w s = _
  unfold execScalMem
  rw [if_pos hmay, runMicro_issued h (by simp [hmem])]
  dsimp only
  rw [sqr_inRoutine]
  exact congrArg Host.Outcome.next (endMicro_noc (modSqr (inRoutine s q) q.val (memAwaited w _)) t q 1 (memAsked s t q w))

/-- A MEM microword leaves one request more at its interface, and waits for the answer. -/
theorem scalMem_asks (h : issues s t q (wordScal w 13)) (hmem : (sqr s q.val).mem = none) (hmay : mayIssue (ni s (seqNi q.val).val) = true) :
    let x := sqr s q.val
    let m := seqNi q.val
    let n := bankNi (bankOf (msr x w.sa))
    let write := w.imm.getLsbD 0
    ∃ u tid p, exec (.scalMem q w) s = .next u ∧
      microEnds s u t q { x with mem := some ⟨write, w.sd, msr x w.sa, msr x w.sb, tid, false⟩ } 1 ∧
      sameBut [.noc, .seqs, .tenants] s u ∧ (∀ r, r ≠ m.val → ni u r = ni s r) ∧
      ni u m.val = { ni s m.val with out := (ni s m.val).out ++ [⟨tid, n, 0, write, some p, false, none⟩] } ∧
      (∀ o ∈ (ni s m.val).out ++ (ni s m.val).held, o.tid ≠ tid) ∧ p.tid = tid ∧ p.ten = t ∧ p.dev = false ∧ p.vc = 0 ∧
      p.ty = (if write then 2 else 1) ∧ p.addr = msr x w.sa ∧ p.nbytes = 4 ∧ pktSource p = some m ∧ pktDest p = some n ∧
      p.data = (if write then leBytes 4 (msr x w.sb).toNat else []) ∧ p.sn = SMap.get 0 s.noc.sn (orderKey m n 0) := by
  intro x m n write
  let tid := freeTid (ni s m.val)
  let z := seqNext s t q (memAwaited w tid)
  have room : ((ni s m.val).out ++ (ni s m.val).held).length < 4096 := by
    have hlt : (ni s m.val).out.length + (ni s m.val).held.length < 64 := of_decide_eq_true (Bool.and_eq_true_iff.mp hmay).2
    rw [List.length_append]
    omega
  obtain ⟨own, others⟩ := ni_memAsked (u := { z with noc := memAsked s t q w }) rfl
  exact ⟨{ z with noc := memAsked s t q w }, tid, memPkt m n t tid (SMap.get 0 s.noc.sn (orderKey m n 0)) write (msr x w.sa) (msr x w.sb),
    exec_scalMem h hmem hmay, microEnds_congr (u := z) rfl rfl (seqNext_ends h.1 rfl),
    Foot.sameBut (Foot.up_noc (seqNext_foot _ (by decide)) (by decide)), others, own, freeTid_unused room, memPkt_fields ..⟩

end Mem

/-! ### SCAN (R156, R164) -/

section Scan

variable {s : State} {t : Tenant} {q : SeqId} {w : ScalW}

theorem scalScan_starts (h : issues s t q (wordScal w 15)) :
    let x := sqr s q.val
    ∃ u v, exec (.scalScan q w) s = .next u ∧ isScan s t x (maOf x (w.sa.toNat % 8)) (wordWidth x.il) v ∧
      sqr u q.val = { nextWord (tickScan 1 x) with scan := some (4, v), midRoutine := true } ∧ microRuns s u t q 1 ∧
      sameBut [.pe, .seqs, .tenants] s u ∧ ∀ k, pe u k = { pe s k with parityErr := (pe u k).parityErr } := by
  intro x
  let m := maOf x (w.sa.toNat % 8)
  let v := fieldScan s t x m (wordWidth x.il)
  let z := endMicro (inRoutine s q) t q 1
  have ended {m : Nat} (hm : 0x900 ||| m = m) : Foot m s z :=
    endMicro_foot _ t q 1 hm (modSqr_foot s q.val _ (Foot.sub (by decide) hm) (Foot.refl m s))
  have pes (k : Nat) : pe z k = pe s k := by rw [pe, (ended (m := 0x900) (by decide)).2 .pe (by decide)]; rfl
  obtain ⟨hsqr, hruns⟩ := inRoutine_ends h.1
  obtain ⟨hscan, hothers, hten, hpe⟩ := startScan_facts z t q v m (wordWidth x.il)
  refine ⟨startScan z t q v m (wordWidth x.il), v, ?_, isScan_fieldScan s t x m (wordWidth_le _), ?_, microRuns_congr hothers hten hruns,
    Foot.sameBut (startScan_foot _ _ _ _ _ _ (by decide) (ended (by decide))), fun k => (hpe k).trans (by rw [pes])⟩
  · show execScalScan q w s = _
    unfold execScalScan
    rw [runMicro_issued h rfl]
    dsimp only
    rw [sqr_inRoutine]
    rfl
  · rw [hscan, hsqr]

end Scan

/-- Settles O23: each of these microwords is an update of its sequencer, with the word after it; MEM also leaves its request at the
interface, and SCAN starts a field scan. -/
theorem scalarMicrowords : Obligations.ScalarMicrowords := by
  unfold Obligations.ScalarMicrowords
  intro s t q a w
  refine ⟨fun hres h => addrOp_ends hres h rfl, fun hres h => addrOp_ends hres h rfl,
    fun hres h => addrOp_ends hres h (set13_truncate _ _), fun hres h => addrOp_ends hres h rfl, fun hres h => addrOp_ends hres h rfl,
    fun hres h => addrOp_ends hres h rfl, fun hres h => addrOp_ends hres h rfl, fun h => scalOp_ends h rfl, fun h => scalOp_ends h rfl,
    fun h => scalOp_ends h rfl, fun h => scalOp_ends h rfl, fun h => scalOp_ends h rfl, fun h => scalOp_ends h rfl,
    fun h => scalOp_ends h rfl, fun h => scalOp_ends h rfl, fun h => scalOp_ends h rfl, fun h => scalOp_ends h rfl, ?field, ?hsb, ?get,
    fun h hmem hmay => scalMem_asks h hmem hmay, ?setlc, fun h => scalScan_starts h, fun b hres h => runMicro_ends h (by simp [hres]) rfl⟩
  case field =>
    intro i hi h
    obtain ⟨hle, rfl⟩ := ilItem_of_getElem? _ hi
    exact scalField_ends h hle
  case hsb =>
    by_cases hv : msr (sqr s q.val) w.sa = 0
    · exact ⟨0xFFFFFFFF, .inl ⟨hv, rfl⟩, fun h => scalOp_ends h (if_pos hv)⟩
    · exact ⟨_, .inr (log2_bounds hv), fun h => scalOp_ends h (if_neg hv)⟩
  case get =>
    intro h hle hscan
    refine runMicro_bump_ends h (by simpa using hle) (f := fun s1 x => scalWrite w.sd
      (if w.imm = 0 then x.gv else if w.imm = 1 then x.tvr.zeroExtend 32 else (readSv s1 q).signExtend 32) x) ?_
    have value : (if w.imm = 0 then (sqr s q.val).gv else if w.imm = 1 then (sqr s q.val).tvr.zeroExtend 32
        else (readSv (inRoutine s q) q).signExtend 32) = (if w.imm = 0 then (sqr s q.val).gv else if w.imm = 1 then
          (sqr s q.val).tvr.zeroExtend 32 else (sqr s q.val).sv.signExtend 32) := by
      split_ifs with h0 h1
      · rfl
      · rfl
      · have h2 : w.imm = 2 := by bv_omega
        rw [readSv_idle (hscan h2)]
    exact congrArg (fun v => scalWrite w.sd v (setMid true (sqr s q.val))) value
  case setlc =>
    intro h hscan
    refine runMicro_bump_ends h rfl (f := fun s1 x => setlcWrite w
      ((if w.imm.getLsbD 9 then readSv s1 q else (msr x w.sa).truncate 16) + (w.imm.truncate 8).zeroExtend 16) x) ?_
    have value : (if w.imm.getLsbD 9 then readSv (inRoutine s q) q else (msr (sqr s q.val) w.sa).truncate 16) =
        (if w.imm.getLsbD 9 then (sqr s q.val).sv else (msr (sqr s q.val) w.sa).truncate 16) := by
      split_ifs with h9
      · rw [readSv_idle (hscan h9)]
      · rfl
    exact congrArg (fun v => setlcWrite w (v + (w.imm.truncate 8).zeroExtend 16) (setMid true (sqr s q.val))) value

end Sys2Proof.Machine
end

