-- ==== Sys2Proof/Proofs/MicroWaits.lean ====
section
/-! WAIT microwords: the WAIT that is issued again may carry a time limit (O24). -/

namespace Sys2Proof.Machine

open Sys2Proof

/-- WAIT for the GOR results in flight (R163), of which there are none. -/
def waitGors : WaitW := ⟨0, false, 0, 0⟩

/-- The state of a WAITEV timer with the condition of `waitGors`: it ends with the time limit, 1 µs, none of which has passed (R100). -/
def limitedWait : Wait := ⟨0, 0, false, 0, 0, false, false, some ⟨0, 1, true⟩⟩

/-- T0 runs on SQ0, whose next microword is `waitGors`, with `limitedWait` to be issued again. -/
def limitedAgain : State := { State.reset with
  tenants := [(0, { TenantSt.initial with own := some soleOwner, ownState := 1, orders := [bareOrder], nextSeq := 2 })]
  seqs := [(0, { Sequencer.initial with
    service := .inService, bound := some 0, upc := 12288, wcs := [(12288, wordWait waitGors)], wsBack := some limitedWait })]
  tiles := [(0, { Tile.initial with polder := .awake 7 }), (16, { Tile.initial with service := .spare })] }

theorem issues_limitedAgain : issues limitedAgain 0 0 (wordWait waitGors) := ⟨by decide +kernel, rfl, rfl⟩

/-- Whether the sequencer holds a WAIT in the next state, where there is one. -/
def holdsWaitAfter (r : Host.Outcome State Fault Refusal) (q : SeqId) : Option Bool :=
  match r with
  | .next u => some (sqr u q.val).ws.isSome
  | _ => none

/-- The limit has not passed, so that the WAIT is held, though its condition holds. -/
theorem holdsWaitAfter_limitedAgain : holdsWaitAfter (exec (.wait 0 waitGors) limitedAgain) 0 = some true := by decide +kernel

/-- Refutes O24: the statement lets the WAIT that was brought back end with its condition, whatever it is; the model issues it again with all
of its state, and in `limitedAgain` that is a timer, which ends with its limit. The WAIT is held, with no GOR result in flight. (RTT itself
brings back no timer, as `frameWait` shows; the statement has no such hypothesis, where its clauses on held WAITs have `h.ais = none`.) -/
theorem not_microWaits : ¬ Obligations.MicroWaits := by
  unfold Obligations.MicroWaits
  intro h
  obtain ⟨issued, -⟩ := h limitedAgain 0 0 waitGors limitedWait 0
  obtain ⟨ends, -⟩ := issued issues_limitedAgain rfl (by decide) rfl
  obtain ⟨u, hu, ⟨hsqr, -⟩, -⟩ := ends rfl
  have held := holdsWaitAfter_limitedAgain
  rw [hu, holdsWaitAfter] at held
  have ended : (sqr u (0 : SeqId).val).ws = none := by
    rw [hsqr]
    rfl
  rw [ended] at held
  cases held

end Sys2Proof.Machine
end

