-- ==== Sys2Proof/Proofs/MicroBranchesAndLoops.lean ====
section
/-! LOOP: RA of the active slices is seeded with C, which the statement about its registers leaves no room for (O25). -/

namespace Sys2Proof.Machine

open Sys2Proof

/-- LOOP with LC0 and LC1 over a body of one word; CP leaves C as it is, RS seeds RA (R57, R166). -/
def loopSeed : LoopW := ⟨0, 1, 0, 0, 0, true, 0⟩

/-- T0 runs on SQ0 in G16, whose next microword is `loopSeed`; C of PE 0 is set. -/
def carrySet : State := { State.reset with
  tenants := [(0, { TenantSt.initial with own := some soleOwner, ownState := 1, orders := [bareOrder], nextSeq := 2 })]
  seqs := [(0, { Sequencer.initial with
    service := .inService, bound := some 0, gw := .g16, upc := 12288, wcs := [(12288, wordLoop loopSeed)] })]
  tiles := [(0, { Tile.initial with polder := .awake 7 }), (16, { Tile.initial with service := .spare })]
  pe := [(0, { PE.clear with c := true })] }

theorem inv_carrySet : Inv carrySet :=
  inv_of_map_nil rfl (by unfold memoryWf; decide +kernel) (by unfold deepMaskOk; decide +kernel) (by unfold logsBounded; decide +kernel)
    (by decide +kernel)

theorem issues_carrySet : issues carrySet 0 0 (wordLoop loopSeed) := ⟨by decide +kernel, rfl, rfl⟩

/-- RA of PE 0 has taken C. -/
theorem loop_carrySet : peAfter (exec (.loop 0 loopSeed) carrySet) 0 = some { PE.clear with c := true, ra := 1 } := by decide +kernel

/-- Refutes O25: what the statement says of a PE's registers after LOOP compares `peRegs`, in which RA is 0, with RA as LOOP leaves it, so that
RA, RB and RR of every PE would have to be 0. In `carrySet` LOOP seeds RA of PE 0 with 1. -/
theorem not_microBranchesAndLoops : ¬ Obligations.MicroBranchesAndLoops := by
  unfold Obligations.MicroBranchesAndLoops
  intro h
  obtain ⟨-, -, loops, -⟩ := h
  obtain ⟨u, hu, -, -, -, regs⟩ := loops carrySet 0 0 loopSeed inv_carrySet issues_carrySet rfl (by decide) rfl
  obtain ⟨regs, -⟩ := regs 0
  have after := loop_carrySet
  rw [hu] at after
  have seeded : pe u 0 = { PE.clear with c := true, ra := 1 } := Option.some.inj after
  have units : (0 : BitVec 2) = (pe u 0).ra := congrArg PE.ra regs
  rw [seeded] at units
  exact absurd units (by decide)

end Sys2Proof.Machine
end

