-- ==== Sys2Proof/Proofs/PatchAreas.lean ====
section
/-! SUPPORT. A microcode update: the service state of a sequencer, the stop of an update, its end, and the move of a tenant
(R182, R185–R187). -/

namespace Sys2Proof.Machine

/-! ### One sequencer -/

theorem sqr_modSqr_ne (s : State) {q r : Nat} (f : Sequencer → Sequencer) (h : r ≠ q) : sqr (modSqr s q f) r = sqr s r :=
  sqr_setSqr_ne s _ h

theorem sqr_setSeqSvc_same (s : State) (q : SeqId) (v : SeqService) :
    sqr (setSeqSvc s q v) q.val = { sqr s q.val with service := v } :=
  (sqr_modSqr_same s q.val fun x => { x with service := v } :)

theorem sqr_setSeqSvc_ne (s : State) {q : SeqId} {r : Nat} (v : SeqService) (h : r ≠ q.val) : sqr (setSeqSvc s q v) r = sqr s r :=
  (sqr_modSqr_ne s (fun x => { x with service := v }) h :)

theorem bound_setSeqSvc (s : State) (q : SeqId) (v : SeqService) (r : Nat) : (sqr (setSeqSvc s q v) r).bound = (sqr s r).bound := by
  by_cases h : r = q.val
  · rw [h, sqr_setSeqSvc_same]
  · rw [sqr_setSeqSvc_ne s v h]

theorem spare_of_spareSeq {s : State} {c : SeqId} (h : spareSeq s = some c) : (sqr s c.val).service = .spare :=
  of_decide_eq_true (List.find?_some (p := fun q : SeqId => decide ((sqr s q.val).service = .spare)) h)

/-! ### The stop of an update -/

/-- What the stop of an update leaves: no tenant moves, no session opens or closes, and no tide mark falls due. -/
structure Stopped (s u : State) : Prop where
  bound : ∀ q, (sqr u q).bound = (sqr s q).bound
  isOpen : ∀ k, (ses u k).isOpen = (ses s k).isOpen
  due : u.obs.due = s.obs.due
  state : u.mc.patchState = 5
  golden : u.mc.golden = s.mc.golden

/-- A stop changes the service of the sequencers that were being loaded, and no more of them. -/
theorem patchStop_stopped {s : State} (h : s.mc.patchState = 2) : Stopped s (patchStop s) := by
  let stop := { s with mc := { s.mc with patchState := 5 } }
  let told := emergency stop [0] 0x6030 [5]
  let loading := (List.finRange 5).filter fun q => decide ((sqr s q.val).service = .loading)
  have hfoot : Foot 0x20000800 stop told := emergency_foot stop _ _ _ (by decide) (Foot.refl _ _)
  have hstop : patchStop s = loading.foldl (fun u q => setSeqSvc u q .spare) told := if_pos h
  have hfree : Foot 0x800000100 told (patchStop s) := by
    rw [hstop]
    exact Foot.foldl (Foot.refl _ _) fun u q hu => setSeqSvc_foot u q .spare (by decide) hu
  have hmc : (patchStop s).mc = { s.mc with patchState := 5 }  :=
    Eq.trans (hfree.2 .mc (by decide)) (hfoot.2 .mc (by decide))
  refine ⟨fun q => ?_, fun k => ?_, ?_, by rw [hmc], by rw [hmc]⟩
  · rw [hstop, foldl_same (view := fun u => (sqr u q).bound) fun i _ u => bound_setSeqSvc u i .spare q,
      sqr_of_seqs (hfoot.2 .seqs (by decide))]
    rfl
  · rw [ses_of_ses (hfree.2 .ses (by decide)), (emergency_routes stop [0] 0x6030 [5]).isOpen k]
    rfl
  · rw [hstop, foldl_same (view := fun u => u.obs.due) (step := fun u q => setSeqSvc u q .spare) fun _ _ _ => rfl,
      show told.obs = stop.obs from hfoot.2 .obs (by decide)]

/-! ### The end of an update -/

/-- Every working sequencer loads an image. -/
def loadAll (s : State) (w : SMap Word) : State :=
  (List.range 5).foldl (fun u q => if (sqr u q).service = .failed then u else modSqr u q (loadStore w false)) s

/-- The image is in every working sequencer and is the golden one from now on; its counter counts. -/
def renewed (s : State) (p : Patch) : State :=
  { takeEffect (loadAll s p.words) ctrMc p.counter with
    mc := { mcver := p.version, digest := p.digest, patchState := 3, golden := p.words, flash := p.words, patch := none } }

/-- The update is measured and told to T0. -/
def finished (s : State) (p : Patch) : State :=
  emergency (measure (renewed s p) 2 p.counter (imageBytes p.words)) [0] 0x6030 [3]

section
variable {s : State} {p : Patch}

theorem finishPatch_pending (h : patchWaits s ≠ []) : finishPatch s = s := by
  unfold finishPatch
  split
  · rfl
  · exact if_pos (.inr (.inl h))

theorem finishPatch_finished (hp : s.mc.patch = some p) (h2 : s.mc.patchState = 2) (hw : patchWaits s = [])
    (hc : p.current = none) : finishPatch s = finished s p := by
  simp [finishPatch, hp, h2, hw, hc, finished, renewed, loadAll]

/-- Step 5 is not due, or it is done. -/
theorem finishPatch_cases (hp : s.mc.patch = some p) : finishPatch s = s ∨ finishPatch s = finished s p := by
  simp only [finishPatch, hp, finished, renewed, loadAll]
  split
  · exact .inl rfl
  · exact .inr rfl

end

theorem sqr_loadStep (w : SMap Word) (u : State) (q r : Nat) :
    let v := if (sqr u q).service = .failed then u else modSqr u q (loadStore w false)
    sqr v r = sqr u r ∨ sqr v r = loadStore w false (sqr u r) := by
  dsimp only
  split
  · exact .inl rfl
  · by_cases h : r = q
    · rw [h, sqr_modSqr_same]
      exact .inr rfl
    · exact .inl (sqr_modSqr_ne u _ h)

theorem loadStore_loadStore (w : SMap Word) (a b : Bool) (x : Sequencer) :
    loadStore w a (loadStore w b x) = loadStore w a x := by
  simp [loadStore, stuckWords]

/-- A sequencer holds its old store or the image; nothing else of it changes. -/
theorem sqr_loadAll (s : State) (w : SMap Word) (r : Nat) :
    sqr (loadAll s w) r = sqr s r ∨ sqr (loadAll s w) r = loadStore w false (sqr s r) := by
  unfold loadAll
  generalize List.range 5 = l
  induction l generalizing s with
  | nil => exact .inl rfl
  | cons q l ih =>
    rcases sqr_loadStep w s q r with h | h
    · exact h ▸ ih _
    · refine .inr ?_
      rcases ih (if (sqr s q).service = .failed then s else modSqr s q (loadStore w false)) with g | g
      · exact g.trans h
      · exact g.trans ((congrArg _ h).trans (loadStore_loadStore w false false _))

section
variable {m : Nat} (s : State) (p : Patch)

theorem loadAll_foot (w : SMap Word) (hm : 0x100 ||| m = m) : Foot m s (loadAll s w) :=
  Foot.foldl (Foot.refl _ s) fun u q hu => Foot.ite hu (modSqr_foot u q _ hm hu)

theorem renewed_foot (hm : 0x400000500 ||| m = m) : Foot m s (renewed s p) :=
  Foot.up_mc (takeEffect_foot _ _ _ (Foot.sub (by decide) hm) (loadAll_foot s p.words (Foot.sub (by decide) hm)))
    (Foot.sub (by decide) hm)

theorem finished_foot (hm : 0x420000800 ||| m = m) : Foot m (renewed s p) (finished s p) :=
  emergency_foot _ _ _ _ (Foot.sub (by decide) hm) (measure_foot _ _ _ _ (Foot.sub (by decide) hm) (Foot.refl _ _))

theorem mc_finished : (finished s p).mc =
    { mcver := p.version, digest := p.digest, patchState := 3, golden := p.words, flash := p.words, patch := none } :=
  (finished_foot s p (Nat.or_self _)).2 .mc (by decide)

theorem sqr_finished (r : Nat) : sqr (finished s p) r = sqr (loadAll s p.words) r := by
  have hload : Foot 0x400000400 (loadAll s p.words) (renewed s p) :=
    Foot.up_mc (takeEffect_foot _ _ _ (by decide) (Foot.refl _ _)) (by decide)
  rw [sqr_of_seqs ((finished_foot s p (Nat.or_self _)).2 .seqs (by decide)), sqr_of_seqs (hload.2 .seqs (by decide))]

theorem finished_isOpen (k : SesId) : (ses (finished s p) k).isOpen = (ses s k).isOpen := by
  have hmeas : Foot 0x400000000 (renewed s p) (measure (renewed s p) 2 p.counter (imageBytes p.words)) :=
    measure_foot _ _ _ _ (Nat.or_self _) (Foot.refl _ _)
  rw [finished, (emergency_routes ..).isOpen k, ses_of_ses (hmeas.2 .ses (by decide)),
    ses_of_ses ((renewed_foot s p (Nat.or_self _)).2 .ses (by decide))]

end

/-- The end of an update changes of a sequencer its store and no more. -/
theorem sqr_finishPatch {s : State} {p : Patch} (hp : s.mc.patch = some p) (r : Nat) :
    sqr (finishPatch s) r = sqr s r ∨ sqr (finishPatch s) r = loadStore p.words false (sqr s r) := by
  rcases finishPatch_cases hp with h | h
  · exact .inl (by rw [h])
  · rw [h, sqr_finished]
    exact sqr_loadAll s p.words r

theorem finishPatch_isOpen (s : State) (k : SesId) : (ses (finishPatch s) k).isOpen = (ses s k).isOpen := by
  cases hp : s.mc.patch with
  | none => rw [finishPatch, hp]
  | some p =>
    rcases finishPatch_cases hp with h | h
    · rw [h]
    · rw [h, finished_isOpen]

end Sys2Proof.Machine
end

