-- ==== Sys2Proof/Proofs/PatchBundles.lean ====
section
/-! SUPPORT. PATCH_BUNDLE: how its write ends, what a refusal leaves, and what an accepted bundle does (R184, R185, R187). -/

namespace Sys2Proof.Machine

open Sys2Proof

/-! ### The end of the write -/

/-- A write whose object is neither measured nor answered later ends with its answer. -/
theorem endWrite_answer {v : State} {k : SesId} {index sub : Nat} (code : Word) (hopen : (ses v k).isOpen = true)
    (hdue : v.obs.due = none) (hsleep : v.clk.sleep = .none) (hflash : keptInFlash index sub = false)
    (hdef : deferred index sub = false) :
    endWrite (code, v) k index sub = answer v k (BitVec.ofNat 16 index) (BitVec.ofNat 8 sub) code [] := by
  have hd : (answer v k (BitVec.ofNat 16 index) (BitVec.ofNat 8 sub) code []).obs.due = none := hdue
  simp [endWrite, hflash, hdef, cancelSleep_none hsleep, hopen, takeMark_none hd]

section
variable {s v : State} {k : SesId} {d : Bytes}

theorem exec_patchBundle (h : admitted s k 0x2900 3 d.length) {code : Word} (ho : applyPatch s k d = (code, v))
    (hopen : (ses v k).isOpen = true) (hdue : v.obs.due = none) :
    exec (.patchBundle k d) s = .next (answer v k 0x2900 3 code []) := by
  have hclk : v.clk = s.clk := by
    have := (applyPatch_foot s k d (Nat.or_self _) (Foot.refl _ s)).2 .clk (by decide)
    rwa [ho] at this
  have hw : hostWrite s k 0x2900 3 d = endWrite (code, v) k 0x2900 3 := by
    rw [hostWrite_admitted h, ← ho]
    rfl
  show Host.Outcome.next (hostWrite s k 0x2900 3 d) = _
  rw [hw, endWrite_answer code hopen hdue (by rw [hclk, h.sleep]) (by decide) (by decide)]
  rfl

/-- A refusal that does not touch the sessions ends in its abort. -/
theorem patchBundle_aborts (h : admitted s k 0x2900 3 d.length) {code : Word} (h0 : code ≠ 0#32)
    (ho : applyPatch s k d = (code, v)) {l : List Comp} (hl : sameBut l s v) (hses : v.ses = s.ses) (hdue : v.obs.due = none)
    {eff : State → Prop} (he : ∀ u, sameBut [.ses] v u → eff u) : aborts (.patchBundle k d) s k code l eff := by
  have hans := answer_sameBut v k 0x2900 3 code []
  refine ⟨_, exec_patchBundle h ho (by rw [ses_of_ses hses, h.isOpen]) hdue, ?_, ?_, he _ hans,
    hl.trans hans (fun _ => List.mem_cons_of_mem _) (by simp)⟩ <;>
    simp [answer, h0]

end

/-! ### Refusals -/

section
variable {s : State} {k : SesId}

theorem rejectPatch_sameBut (reason : Byte) (code : Word) : sameBut [.mc, .ident, .obs] s (rejectPatch s k reason code).2 :=
  (rejectPatch_foot s k reason code (by decide) (Foot.refl _ s)).sameBut

theorem log_refuse (artefact : Nat) (reason : Byte) :
    ∃ r, (refuse s k artefact reason).obs.log = (r :: s.obs.log).take 1024 := ⟨_, rfl⟩

theorem log_rejectPatch (reason : Byte) (code : Word) : hasLogged s (rejectPatch s k reason code).2 0x0207 := by
  obtain ⟨r, hr⟩ := log_refuse (s := s) (k := k) 2 reason
  have hlog : ∃ e, (rejectPatch s k reason code).2.obs.log = (e :: (refuse s k 2 reason).obs.log).take 1024 ∧ e.code = 0x0207 :=
    ⟨_, rfl, rfl⟩
  obtain ⟨e, he, hcode⟩ := hlog
  refine ⟨[], e, [r], ?_, hcode⟩
  rw [he, hr]
  simp [List.take_take]

theorem verifyError_rejectPatch (reason : Byte) (code : Word) :
    SMap.get 0 (rejectPatch s k reason code).2.ident.verifyError (sesTenant k).val = BitVec.ofNat 32 (2 * 2 ^ 24 + reason.toNat) :=
  SMap.get_set_same ..

/-- A refused bundle leaves PATCH_STATE 4, the event and VERIFY_ERROR. -/
theorem patchBundle_refused {d : Bytes} (h : admitted s k 0x2900 3 d.length) {reason : Byte} {code : Word} (h0 : code ≠ 0#32)
    (ho : applyPatch s k d = rejectPatch s k reason code) :
    aborts (.patchBundle k d) s k code [.mc, .ident, .obs] fun u => u.mc = { s.mc with patchState := 4 } ∧ hasLogged s u 0x0207 ∧
      SMap.get 0 u.ident.verifyError (sesTenant k).val = BitVec.ofNat 32 (2 * 2 ^ 24 + reason.toNat) := by
  refine patchBundle_aborts h h0 (ho.trans rfl) (rejectPatch_sameBut reason code) rfl h.due fun u hu => ⟨hu.2 .mc (by decide), ?_, ?_⟩
  · have hobs : u.obs = (rejectPatch s k reason code).2.obs := hu.2 .obs (by decide)
    rw [hasLogged, hobs]
    exact log_rejectPatch reason code
  · have hident : u.ident = (rejectPatch s k reason code).2.ident := hu.2 .ident (by decide)
    rw [hident]
    exact verifyError_rejectPatch reason code

/-- A bundle during a rotation leaves its event only. -/
theorem patchBundle_busy {d : Bytes} (h : admitted s k 0x2900 3 d.length) (hlen : 64 ≤ d.length) (h2 : s.mc.patchState = 2) :
    aborts (.patchBundle k d) s k 0x08000022 [.obs] fun u => logged s u 0x0207 0 2 := by
  have ho : applyPatch s k d = (0x08000022, logEvent s 0x0207 1 [] 0 2 []) := by
    simp [applyPatch, Nat.not_lt.mpr hlen, h2]
  refine patchBundle_aborts h (by decide) ho (logEvent_foot s _ _ _ _ _ _ (by decide) (Foot.refl _ s)).sameBut rfl h.due fun u hu => ?_
  have hobs : u.obs = (logEvent s 0x0207 1 [] 0 2 []).obs := hu.2 .obs (by decide)
  rw [logged, hobs]
  exact ⟨_, rfl, rfl, rfl, rfl, rfl, rfl, rfl⟩

end

/-! ### An accepted bundle -/

/-- The update that a bundle asks for. -/
def bundlePatch (s : State) (d : Bytes) : Patch :=
  { version := BitVec.ofNat 32 (leAt d 0x14 4), digest := slice d 0x1C 8, words := patchedWords s d (leAt d 0x24 4)
    prev := (match s.mc.patch with
      | some p => p.words
      | none => [])
    counter := BitVec.ofNat 32 (leAt d 4 4), loaded := [], current := none }

/-- The rotation begins: the counter of the bundle waits. -/
def rotating (s : State) (d : Bytes) : State :=
  setPending { s with mc := { s.mc with patchState := 2, patch := some (bundlePatch s d) } } ctrMc (BitVec.ofNat 32 (leAt d 4 4))

/-- The spare `c` holds the patched image. -/
def spareLoaded (s : State) (d : Bytes) (c : SeqId) : State :=
  { modSqr (rotating s d) c.val (loadStore (bundlePatch s d).words true) with
    mc := { (rotating s d).mc with patch := some { bundlePatch s d with loaded := [c] } } }

section
variable {s : State} {k : SesId} {d : Bytes} {c : SeqId}

theorem loadPatched_rotating : loadPatched (rotating s d) c = spareLoaded s d c := rfl

theorem sqr_spareLoaded_same : sqr (spareLoaded s d c) c.val = loadStore (bundlePatch s d).words true (sqr s c.val) :=
  sqr_modSqr_same (rotating s d) c.val (loadStore (bundlePatch s d).words true)

theorem bound_spareLoaded (q : Nat) : (sqr (spareLoaded s d c) q).bound = (sqr s q).bound := by
  by_cases h : q = c.val
  · rw [h, sqr_spareLoaded_same, loadStore]
  · exact congrArg Sequencer.bound (sqr_modSqr_ne (rotating s d) (loadStore (bundlePatch s d).words true) h)

theorem mem_patchWaits_spareLoaded (q : SeqId) :
    q ∈ patchWaits (spareLoaded s d c) ↔ (sqr s q.val).bound.isSome = true ∧ q ≠ c := by
  have hw : patchWaits (spareLoaded s d c) =
      (List.finRange 5).filter fun q => (sqr (spareLoaded s d c) q.val).bound.isSome && !([c] : List SeqId).contains q := rfl
  rw [hw, List.mem_filter, bound_spareLoaded]
  simp

/-- While another sequencer has a tenant, the update goes on. -/
theorem finishPatch_spareLoaded_waits {q : Nat} (hb : (sqr s q).bound.isSome = true) (hq : q < 5) (hne : q ≠ c.val) :
    finishPatch (spareLoaded s d c) = spareLoaded s d c :=
  finishPatch_pending (List.ne_nil_of_mem ((mem_patchWaits_spareLoaded ⟨q, hq⟩).mpr ⟨hb, fun e => hne (congrArg Fin.val e)⟩))

/-- With no tenant bound it ends at once. -/
theorem finishPatch_spareLoaded_ends (hb : ∀ q, q < 5 → (sqr s q).bound = none) :
    finishPatch (spareLoaded s d c) = finished (spareLoaded s d c) { bundlePatch s d with loaded := [c] } := by
  refine finishPatch_finished rfl rfl (List.eq_nil_iff_forall_not_mem.mpr fun q hq => ?_) rfl
  have hs := ((mem_patchWaits_spareLoaded q).mp hq).1
  rw [hb q.val q.isLt] at hs
  cases hs

/-- Either way the spare holds the image. -/
theorem wcs_finishPatch_spareLoaded : (sqr (finishPatch (spareLoaded s d c)) c.val).wcs = patchedWords s d (leAt d 0x24 4) := by
  have hp : (spareLoaded s d c).mc.patch = some { bundlePatch s d with loaded := [c] } := rfl
  rcases sqr_finishPatch hp c.val with h | h
  · rw [h, sqr_spareLoaded_same]
    rfl
  · rw [h]
    rfl

/-- The state behind an accepted bundle. -/
def accepted (s : State) (d : Bytes) (c : SeqId) : State :=
  if imageSound s c then finishPatch (spareLoaded s d c) else patchStop (rotating s d)

theorem accepted_isOpen (k : SesId) : (ses (accepted s d c) k).isOpen = (ses s k).isOpen := by
  unfold accepted
  split
  · exact finishPatch_isOpen (spareLoaded s d c) k
  · exact (patchStop_stopped (s := rotating s d) rfl).isOpen k

theorem accepted_due : (accepted s d c).obs.due = s.obs.due := by
  unfold accepted
  split
  · exact congrArg Observe.due ((finishPatch_foot (spareLoaded s d c) (Nat.or_self _) (Foot.refl _ _)).2 .obs (by decide))
  · exact (patchStop_stopped (s := rotating s d) rfl).due

theorem patchBundle_accepted (h : admitted s k 0x2900 3 d.length) (ho : applyPatch s k d = (0, accepted s d c)) :
    ∃ u, exec (.patchBundle k d) s = .next u ∧ (ses u k).reply = some ⟨0, []⟩ ∧ sameBut [.ses] (accepted s d c) u :=
  ⟨_, exec_patchBundle h ho (by rw [accepted_isOpen, h.isOpen]) (by rw [accepted_due, h.due]), by simp [answer],
    answer_sameBut (accepted s d c) k 0x2900 3 0 []⟩

/-- What an accepted bundle does: an image that does not read back stops the update; else the spare holds it, and the rotation or, with
no tenant bound, the end of the update follows. -/
def bundleTaken (s : State) (d : Bytes) (c : SeqId) (u : State) : Prop :=
  (imageSound s c = false → u.mc.patchState = 5 ∧ u.mc.golden = s.mc.golden) ∧
  (imageSound s c = true → (sqr u c.val).wcs = patchedWords s d (leAt d 0x24 4) ∧
    ((∃ q, (sqr s q).bound.isSome = true ∧ q < 5 ∧ q ≠ c.val) → u.mc.patchState = 2 ∧ (sqr u c.val).image = true ∧
      u.mc.golden = s.mc.golden ∧ SMap.get 0 u.ident.pending ctrMc = BitVec.ofNat 32 (leAt d 4 4)) ∧
    ((∀ q, q < 5 → (sqr s q).bound = none) → u.mc.patchState = 3 ∧ u.mc.golden = patchedWords s d (leAt d 0x24 4) ∧
      u.mc.mcver = BitVec.ofNat 32 (leAt d 0x14 4) ∧ u.mc.digest = slice d 0x1C 8))

theorem bundleTaken_congr {u v : State} (hmc : v.mc = u.mc) (hseqs : v.seqs = u.seqs) (hident : v.ident = u.ident)
    (h : bundleTaken s d c u) : bundleTaken s d c v := by
  unfold bundleTaken
  rw [hmc, sqr_of_seqs hseqs, hident]
  exact h

theorem accepted_bundleTaken : bundleTaken s d c (accepted s d c) := by
  refine ⟨fun hbad => ?_, fun hsound => ?_⟩
  · rw [accepted, hbad]
    have hs := patchStop_stopped (s := rotating s d) rfl
    exact ⟨hs.state, hs.golden⟩
  · rw [accepted, if_pos hsound]
    refine ⟨wcs_finishPatch_spareLoaded, fun ⟨q, hb, hq, hne⟩ => ?_, fun hb => ?_⟩
    · rw [finishPatch_spareLoaded_waits hb hq hne, sqr_spareLoaded_same]
      exact ⟨rfl, rfl, rfl, SMap.get_set_same ..⟩
    · rw [finishPatch_spareLoaded_ends hb, mc_finished]
      exact ⟨rfl, rfl, rfl, rfl⟩

/-! ### The order of the checks -/

/-- The signature check of a bundle with `n` records. -/
def bundleSig (s : State) (d : Bytes) : Option Byte :=
  checkSig s (some Config.vendorKey) "AZ6516/MC" (d.take (64 + 8 * leAt d 0x24 4)) (d.drop (64 + 8 * leAt d 0x24 4)) ctrMc
    (BitVec.ofNat 32 (leAt d 4 4))

theorem applyPatch_short (h : d.length < 64) : applyPatch s k d = (0x06070013, s) := if_pos h

section
variable (hlen : 64 ≤ d.length) (h2 : s.mc.patchState ≠ 2)
include hlen h2

theorem applyPatch_format (h : leAt d 3 1 ≠ 1 ∨ leAt d 0x24 4 = 0 ∨ 4096 < leAt d 0x24 4) :
    applyPatch s k d = rejectPatch s k 4 0x08000000 := by
  simp only [applyPatch, if_neg (Nat.not_lt.mpr hlen), if_neg h2, if_pos h]

variable (hform : ¬(leAt d 3 1 ≠ 1 ∨ leAt d 0x24 4 = 0 ∨ 4096 < leAt d 0x24 4))
include hform

theorem applyPatch_length (h : d.length ≠ 3373 + 8 * leAt d 0x24 4) : applyPatch s k d = rejectPatch s k 4 0x06070010 := by
  simp only [applyPatch, if_neg (Nat.not_lt.mpr hlen), if_neg h2, if_neg hform, if_pos h]

variable (hsize : d.length = 3373 + 8 * leAt d 0x24 4)
include hsize

theorem applyPatch_reserved (h : patchReserved d (leAt d 0x24 4) = false) : applyPatch s k d = rejectPatch s k 4 0x06090030 := by
  simp only [applyPatch, if_neg (Nat.not_lt.mpr hlen), if_neg h2, if_neg hform, if_neg (not_not.mpr hsize), h, Bool.not_false,
    if_true]

variable (hres : patchReserved d (leAt d 0x24 4) = true)
include hres

theorem applyPatch_signature {e : Byte} (h : bundleSig s d = some e) : applyPatch s k d = rejectPatch s k e 0x08000000 := by
  rw [bundleSig] at h
  simp only [applyPatch, if_neg (Nat.not_lt.mpr hlen), if_neg h2, if_neg hform, if_neg (not_not.mpr hsize), hres, Bool.not_true,
    Bool.false_eq_true, if_false, h]

variable (hsig : bundleSig s d = none)
include hsig

theorem applyPatch_content {e : Byte} (h : patchContent s d (leAt d 0x24 4) = some e) :
    applyPatch s k d = rejectPatch s k e 0x08000000 := by
  rw [bundleSig] at hsig
  simp only [applyPatch, if_neg (Nat.not_lt.mpr hlen), if_neg h2, if_neg hform, if_neg (not_not.mpr hsize), hres, Bool.not_true,
    Bool.false_eq_true, if_false, hsig, h]

theorem applyPatch_accepted (h : patchContent s d (leAt d 0x24 4) = none) (hc : spareSeq s = some c) :
    applyPatch s k d = (0, accepted s d c) := by
  rw [bundleSig] at hsig
  simp only [applyPatch, if_neg (Nat.not_lt.mpr hlen), if_neg h2, if_neg hform, if_neg (not_not.mpr hsize), hres, Bool.not_true,
    Bool.false_eq_true, if_false, hsig, h, hc]
  rfl

end

end

end Sys2Proof.Machine
end

