-- ==== Sys2Proof/Proofs/Migrations.lean ====
section
/-! SUPPORT. MIGRATION: a tenant moves from one sequencer to another, with its registers and its requests (R182, R186). -/

namespace Sys2Proof.Machine

open Sys2Proof

/-- The tenant's registers in a sequencer that keeps its own store, service and repairs. -/
def hosting (x y : Sequencer) : Sequencer :=
  { x with service := y.service, image := y.image, repairs := y.repairs, wcs := y.wcs, wcsBad := y.wcsBad, regError := false }

/-- A sequencer without its tenant. -/
def vacated (x : Sequencer) : Sequencer :=
  { Sequencer.initial with service := x.service, image := x.image, repairs := x.repairs, wcs := x.wcs, wcsBad := x.wcsBad }

theorem seqNi_injective {a b : SeqId} (h : (seqNi a.val).val = (seqNi b.val).val) : a = b := by
  revert a b
  decide

section
variable (s : State) {src dst : SeqId} (left : SeqService)

/-- The registers have moved; the orders' times are still to follow. -/
def seqsMoved (src dst : SeqId) : State :=
  let hosted := modSqr s dst.val fun _ => hosting (sqr s src.val) (sqr s dst.val)
  let emptied := modSqr hosted src.val fun _ => vacated (sqr s src.val)
  setSeqSvc (setSeqSvc (setSeqSvc emptied src .migrating) dst .inService) src left

theorem seqs_moveSeq : (moveSeq s src dst left).seqs = (seqsMoved s left src dst).seqs := by
  unfold moveSeq
  dsimp only
  split
  · exact (modRun_foot (seqsMoved s left src dst) _ _ (Nat.or_self _) (Foot.refl _ _)).2 .seqs (by decide)
  · rfl

theorem sqr_moveSeq_dst (h : dst ≠ src) :
    sqr (moveSeq s src dst left) dst.val = { hosting (sqr s src.val) (sqr s dst.val) with service := .inService } := by
  have hv : dst.val ≠ src.val := fun e => h (Fin.ext e)
  rw [sqr_of_seqs (seqs_moveSeq s left), seqsMoved, sqr_setSeqSvc_ne _ _ hv, sqr_setSeqSvc_same, sqr_setSeqSvc_ne _ _ hv,
    sqr_modSqr_ne _ _ hv, sqr_modSqr_same]

theorem sqr_moveSeq_src (h : dst ≠ src) :
    sqr (moveSeq s src dst left) src.val = { vacated (sqr s src.val) with service := left } := by
  have hv : src.val ≠ dst.val := fun e => h (Fin.ext e.symm)
  rw [sqr_of_seqs (seqs_moveSeq s left), seqsMoved, sqr_setSeqSvc_same, sqr_setSeqSvc_ne _ _ hv, sqr_setSeqSvc_same,
    sqr_modSqr_same]

theorem sqr_moveSeq_ne {q : Nat} (hs : q ≠ src.val) (hd : q ≠ dst.val) : sqr (moveSeq s src dst left) q = sqr s q := by
  rw [sqr_of_seqs (seqs_moveSeq s left), seqsMoved, sqr_setSeqSvc_ne _ _ hs, sqr_setSeqSvc_ne _ _ hd, sqr_setSeqSvc_ne _ _ hs,
    sqr_modSqr_ne _ _ hs, sqr_modSqr_ne _ _ hd]

theorem ni_moveRequests_dst (h : dst ≠ src) : (ni (moveRequests s src dst) (seqNi dst.val).val).out =
    (ni s (seqNi dst.val).val).out ++ (ni s (seqNi src.val).val).out := by
  rw [moveRequests, ni_modNi_ne _ _ fun e => h (seqNi_injective e), ni_modNi_same]

theorem ni_moveRequests_src : (ni (moveRequests s src dst) (seqNi src.val).val).out = [] := by
  rw [moveRequests, ni_modNi_same]

end

/-! ### What a move leaves -/

/-- The tenant `t` has moved from `src` to `dst` with its registers and its requests; no other tenant has. -/
structure Moved (s : State) (t : Tenant) (src dst : SeqId) (u : State) : Prop where
  bound : (sqr u dst.val).bound = some t
  left : (sqr u src.val).bound = none
  service : (sqr u dst.val).service = .inService
  pc : (sqr u dst.val).pc = (sqr s src.val).pc
  scalars : (sqr u dst.val).s = (sqr s src.val).s
  upc : (sqr u dst.val).upc = (sqr s src.val).upc
  ws : (sqr u dst.val).ws = (sqr s src.val).ws
  out : (ni u (seqNi dst.val).val).out = (ni s (seqNi dst.val).val).out ++ (ni s (seqNi src.val).val).out
  emptied : (ni u (seqNi src.val).val).out = []
  others : ∀ q, q < 5 → q ≠ src.val → q ≠ dst.val → (sqr u q).bound = (sqr s q).bound

/-- The move of a tenant and of its requests. -/
def migrated (s : State) (src dst : SeqId) (left : SeqService) : State := moveRequests (bump (moveSeq s src dst left)) src dst

section
variable {s : State} {t : Tenant} {src dst : SeqId} (left : SeqService)

theorem seqs_migrated : (migrated s src dst left).seqs = (moveSeq s src dst left).seqs :=
  (moveRequests_foot (bump (moveSeq s src dst left)) src dst (Nat.or_self _) (Foot.refl _ _)).2 .seqs (by decide)

theorem mc_migrated : (migrated s src dst left).mc = s.mc :=
  (moveRequests_foot _ src dst (m := 0x800800901) (by decide) (bump_foot _ (by decide)
    (moveSeq_foot s src dst left (by decide) (Foot.refl _ s)))).2 .mc (by decide)

theorem ni_moved (n : Nat) : ni (bump (moveSeq s src dst left)) n = ni s n := by
  have hfoot : Foot 0x800000901 s (bump (moveSeq s src dst left)) :=
    bump_foot _ (by decide) (moveSeq_foot s src dst left (by decide) (Foot.refl _ s))
  rw [ni, show (bump (moveSeq s src dst left)).noc = s.noc from hfoot.2 .noc (by decide)]
  rfl

theorem migrated_moved (hne : dst ≠ src) (hb : (sqr s src.val).bound = some t) : Moved s t src dst (migrated s src dst left) := by
  have hsqr : ∀ q, sqr (migrated s src dst left) q = sqr (moveSeq s src dst left) q := sqr_of_seqs (seqs_migrated left)
  have hdst := (hsqr dst.val).trans (sqr_moveSeq_dst s left hne)
  have hsrc := (hsqr src.val).trans (sqr_moveSeq_src s left hne)
  constructor
  case bound => rw [hdst]; exact hb
  case left => rw [hsrc]; rfl
  case out => rw [migrated, ni_moveRequests_dst _ hne, ni_moved, ni_moved]
  case emptied => exact ni_moveRequests_src _
  case others => exact fun q _ hs hd => by rw [hsqr, sqr_moveSeq_ne s left hs hd]
  case service => rw [hdst]
  all_goals
    rw [hdst]
    rfl

/-- What a sequencer's own registers show carries a move over. -/
theorem Moved.congr {u v : State} (h : Moved s t src dst u)
    (hv : ∀ q, sqr v q = { sqr u q with wcs := (sqr v q).wcs, wcsBad := (sqr v q).wcsBad, image := (sqr v q).image })
    (hni : ∀ n, ni v n = ni u n) : Moved s t src dst v := by
  constructor
  case out => rw [hni]; exact h.out
  case emptied => rw [hni]; exact h.emptied
  case others => exact fun q hq hs hd => by rw [hv]; exact h.others q hq hs hd
  case bound => rw [hv]; exact h.bound
  case left => rw [hv]; exact h.left
  case service => rw [hv]; exact h.service
  case pc => rw [hv]; exact h.pc
  case scalars => rw [hv]; exact h.scalars
  case upc => rw [hv]; exact h.upc
  case ws => rw [hv]; exact h.ws

end

/-! ### The image in the sequencer that takes the tenant back -/

section
variable {s : State} {p : Patch} {t : Tenant} {src dst : SeqId}

theorem sqr_loadPatched_same (hp : s.mc.patch = some p) (q : SeqId) :
    sqr (loadPatched s q) q.val = loadStore p.words true (sqr s q.val) := by
  rw [loadPatched, hp]
  exact sqr_modSqr_same s q.val (loadStore p.words true)

theorem sqr_loadPatched_ne {q : SeqId} {r : Nat} (h : r ≠ q.val) : sqr (loadPatched s q) r = sqr s r := by
  unfold loadPatched
  split
  · exact sqr_modSqr_ne s _ h
  · rfl

theorem ni_loadPatched (q : SeqId) (n : Nat) : ni (loadPatched s q) n = ni s n := by
  rw [loadPatched]
  split <;> rfl

theorem patch_loadPatched (hp : s.mc.patch = some p) (q : SeqId) :
    (loadPatched s q).mc.patch = some { p with loaded := q :: p.loaded } := by
  rw [loadPatched, hp]

/-- A move after the load is a move before it: only the store of the sequencer that takes the tenant has changed. -/
theorem Moved.of_loadPatched {u : State} (hne : dst ≠ src) (h : Moved (loadPatched s dst) t src dst u) : Moved s t src dst u := by
  have hsrc : sqr (loadPatched s dst) src.val = sqr s src.val := sqr_loadPatched_ne fun e => hne (Fin.ext e.symm)
  obtain ⟨bound, left, service, pc, scalars, upc, ws, out, emptied, others⟩ := h
  rw [hsrc] at pc scalars upc ws
  rw [ni_loadPatched, ni_loadPatched] at out
  exact ⟨bound, left, service, pc, scalars, upc, ws, out, emptied,
    fun q hq hs hd => (others q hq hs hd).trans (congrArg Sequencer.bound (sqr_loadPatched_ne hd))⟩

/-- The end of an update does not undo a move. -/
theorem Moved.after_finishPatch {u : State} (hp : u.mc.patch = some p) (h : Moved s t src dst u) : Moved s t src dst (finishPatch u) := by
  refine h.congr (fun q => ?_) fun n => ?_
  · rcases sqr_finishPatch hp q with e | e
    · rw [e]
    · rw [e]
      rfl
  · rw [ni, show (finishPatch u).noc = u.noc from (finishPatch_foot u (Nat.or_self _) (Foot.refl _ u)).2 .noc (by decide)]
    rfl

end

/-! ### The three outcomes of MIGRATION -/

section
variable {s : State} {p : Patch} {src c : SeqId} {t : Tenant}

theorem canMove_of_bound (hb : (sqr s src.val).bound = some t) (hf : frozen s = false) : canMove s src = true := by
  simp [canMove, hb, hf]

section
variable (hp : s.mc.patch = some p) (h2 : s.mc.patchState = 2) (hm : canMove s src = true)
include hp h2 hm

theorem exec_migration_out (hcur : p.current = none) (hw : (patchWaits s).head? = some src) (hs : spareSeq s = some c) :
    exec (.migration src c) s = .next { migrated s src c .loading with
      mc := { (migrated s src c .loading).mc with
        patch := (migrated s src c .loading).mc.patch.map fun q => { q with current := some src } } } := by
  show execMigration src c s = _
  simp [execMigration, hp, h2, hm, hcur, hw, hs, migrated]

theorem exec_migration_back (hcur : p.current = some c) (hl : (sqr s c.val).service = .loading) (hi : imageSound s c = true) :
    exec (.migration src c) s = .next (finishPatch { migrated (loadPatched s c) src c .spare with
      mc := { (migrated (loadPatched s c) src c .spare).mc with
        patch := (migrated (loadPatched s c) src c .spare).mc.patch.map fun q => { q with current := none } } }) := by
  show execMigration src c s = _
  simp [execMigration, hp, h2, hm, hcur, hl, hi, migrated]

theorem exec_migration_stop (hcur : p.current = some c) (hl : (sqr s c.val).service = .loading) (hi : imageSound s c = false) :
    exec (.migration src c) s = .next (patchStop s) := by
  show execMigration src c s = _
  simp [execMigration, hp, h2, hm, hcur, hl, hi]

end

end

end Sys2Proof.Machine
end

