-- ==== Sys2Proof/Proofs/PatchRotation.lean ====
section
/-! Patch bundles and migration (O34): the checks of a bundle in their order, and the outcomes of MIGRATION. -/

namespace Sys2Proof.Machine

open Sys2Proof

section
variable {s : State} {p : Patch} {src c : SeqId} {t : Tenant}

section
variable (hp : s.mc.patch = some p) (h2 : s.mc.patchState = 2) (hne : c ≠ src) (hb : (sqr s src.val).bound = some t)
  (hf : frozen s = false)
include hp h2 hne hb hf

/-- Out to the spare: the sequencer left loads the image. -/
theorem migration_out (hcur : p.current = none) (hw : (patchWaits s).head? = some src) (hs : spareSeq s = some c) :
    ∃ u, exec (.migration src c) s = .next u ∧ Moved s t src c u ∧ (sqr u src.val).service = .loading ∧
      (sqr u c.val).wcs = (sqr s c.val).wcs ∧ ∃ v, u.mc.patch = some v ∧ v.current = some src := by
  have hseqs := sqr_of_seqs (seqs_migrated (s := s) (src := src) (dst := c) .loading)
  have hmoved : Moved s t src c (migrated s src c .loading) := migrated_moved .loading hne hb
  refine ⟨_, exec_migration_out hp h2 (canMove_of_bound hb hf) hcur hw hs, hmoved.congr (fun _ => rfl) (fun _ => rfl), ?_, ?_, ?_⟩
  · exact congrArg Sequencer.service ((hseqs src.val).trans (sqr_moveSeq_src s .loading hne))
  · show (sqr (migrated s src c .loading) c.val).wcs = _
    rw [hseqs, sqr_moveSeq_dst s .loading hne]
    rfl
  · exact ⟨{ p with current := some src }, by rw [mc_migrated, hp]; rfl, rfl⟩

/-- Back to the sequencer that has loaded the image, and the spare is free. -/
theorem migration_back (hcur : p.current = some c) (hl : (sqr s c.val).service = .loading) (hi : imageSound s c = true) :
    ∃ u, exec (.migration src c) s = .next u ∧ Moved s t src c u ∧ (sqr u src.val).service = .spare ∧
      (sqr u c.val).wcs = p.words := by
  let loaded := loadPatched s c
  let home := migrated loaded src c .spare
  let back : State := { home with mc := { home.mc with patch := home.mc.patch.map fun q => { q with current := none } } }
  have hpatch : back.mc.patch = some { p with loaded := c :: p.loaded, current := none } := by
    show home.mc.patch.map _ = _
    rw [show home.mc = loaded.mc from mc_migrated .spare, patch_loadPatched hp]
    rfl
  have hsrc : sqr loaded src.val = sqr s src.val := sqr_loadPatched_ne fun e => hne (Fin.ext e.symm)
  have hmoved : Moved s t src c home := (migrated_moved .spare hne (by rw [hsrc, hb])).of_loadPatched hne
  have hseqs : ∀ q, sqr back q = sqr (moveSeq loaded src c .spare) q := sqr_of_seqs (seqs_migrated .spare)
  have hend := sqr_finishPatch hpatch
  refine ⟨_, exec_migration_back hp h2 (canMove_of_bound hb hf) hcur hl hi,
    (hmoved.congr (v := back) (fun _ => rfl) fun _ => rfl).after_finishPatch hpatch, ?_, ?_⟩
  · have hleft : (sqr back src.val).service = .spare := by rw [hseqs, sqr_moveSeq_src _ _ hne]
    rcases hend src.val with h | h <;> exact (congrArg Sequencer.service h).trans hleft
  · have hheld : (sqr back c.val).wcs = p.words := by
      rw [hseqs, sqr_moveSeq_dst _ _ hne, sqr_loadPatched_same hp]
      rfl
    rcases hend c.val with h | h
    · exact (congrArg Sequencer.wcs h).trans hheld
    · exact congrArg Sequencer.wcs h

omit hne in
/-- An image that does not read back stops the update, and the tenant stays. -/
theorem migration_stop (hcur : p.current = some c) (hl : (sqr s c.val).service = .loading) (hi : imageSound s c = false) :
    ∃ u, exec (.migration src c) s = .next u ∧ u.mc.patchState = 5 ∧ (sqr u src.val).bound = some t :=
  ⟨_, exec_migration_stop hp h2 (canMove_of_bound hb hf) hcur hl hi, (patchStop_stopped h2).state,
    ((patchStop_stopped h2).bound src.val).trans hb⟩

end

end

/-- Settles O34: the checks of a bundle one after the other, the state behind an accepted one, and the three outcomes of a move. -/
theorem patchRotation : Obligations.PatchRotation := by
  unfold Obligations.PatchRotation
  intro s k d c src t n sig refused
  refine ⟨fun h => ⟨fun hshort => ?_, patchBundle_busy h, fun hlen h2 => ⟨fun hform => ?_, fun h1 hn hmax => ?_⟩⟩, ?_⟩
  · exact patchBundle_aborts h (by decide) (applyPatch_short hshort) (sameBut.refl _ s) rfl h.due fun _ _ => trivial
  · exact patchBundle_refused h (by decide) (applyPatch_format hlen h2 hform)
  · have hform : ¬(leAt d 3 1 ≠ 1 ∨ n = 0 ∨ 4096 < n) := by omega
    refine ⟨fun hsize => patchBundle_refused h (by decide) (applyPatch_length hlen h2 hform hsize), fun hsize => ⟨fun hres => ?_,
      fun hres => ⟨fun e hsig => ?_, fun hsig => ⟨fun e hcont => ?_, fun hcont hspare => ?_⟩⟩⟩⟩
    · exact patchBundle_refused h (by decide) (applyPatch_reserved hlen h2 hform hsize hres)
    · exact patchBundle_refused h (by decide) (applyPatch_signature hlen h2 hform hsize hres hsig)
    · exact patchBundle_refused h (by decide) (applyPatch_content hlen h2 hform hsize hres hsig hcont)
    · obtain ⟨u, hu, hreply, hsame⟩ := patchBundle_accepted h (applyPatch_accepted hlen h2 hform hsize hres hsig hcont hspare)
      exact ⟨u, hu, hreply, bundleTaken_congr (hsame.2 .mc (by decide)) (hsame.2 .seqs (by decide)) (hsame.2 .ident (by decide))
        accepted_bundleTaken⟩
  · intro p hp h2 hne hb hf moved
    have hmoved : ∀ u, Moved s t src c u → moved u := fun u ⟨bound, left, service, pc, scalars, upc, ws, out, emptied, others⟩ =>
      ⟨bound, left, service, pc, scalars, upc, ws, out, emptied, others⟩
    refine ⟨fun hcur hw hs => ?_, fun hcur hl hi => ?_, migration_stop hp h2 hb hf⟩
    · obtain ⟨u, hu, hm, rest⟩ := migration_out hp h2 hne hb hf hcur hw hs
      exact ⟨u, hu, hmoved u hm, rest⟩
    · obtain ⟨u, hu, hm, rest⟩ := migration_back hp h2 hne hb hf hcur hl hi
      exact ⟨u, hu, hmoved u hm, rest⟩

end Sys2Proof.Machine
end
